-- ==== Sys2Proof/Machine/Table.lean ====
section
/-!
DEFINITION. Sparse tables: a list of key and value pairs in one canonical form (keys strictly rising, no entry equal to
what an unlisted key reads as). Memories are such tables of bytes (`Host.Cell`).
-/
namespace Sys2Proof.Machine

/-- A sparse table of values under numbered keys. -/
abbrev Table (α : Type) := List (Nat × α)

/-- The value under a key; an unlisted key reads as `d`. -/
def tget {α : Type} (d : α) : Table α → Nat → α
  | [], _ => d
  | (j, v) :: t, k => if j = k then v else tget d t k

/-- The table without a key's entries. -/
def tdel {α : Type} : Table α → Nat → Table α
  | [], _ => []
  | (j, v) :: t, k => if j = k then tdel t k else (j, v) :: tdel t k

/-- The table with an entry placed before the first larger key. -/
def tput {α : Type} (k : Nat) (v : α) : Table α → Table α
  | [] => [(k, v)]
  | (j, w) :: t => if k < j then (k, v) :: (j, w) :: t else (j, w) :: tput k v t

/-- Write a value under a key, keeping the canonical form: a value equal to the unlisted reading removes the entry. -/
def tset {α : Type} [DecidableEq α] (d : α) (t : Table α) (k : Nat) (v : α) : Table α :=
  if v = d then tdel t k else tput k v (tdel t k)

/-- The canonical form of a table. -/
def twf {α : Type} [DecidableEq α] (d : α) (t : Table α) : Bool :=
  decide (t.Pairwise fun a b => a.1 < b.1) && t.all fun e => decide (e.2 ≠ d)

/-- The keys a table lists. -/
def tkeys {α : Type} (t : Table α) : List Nat := t.map (·.1)

/-- Read `n` bytes of a memory from an address upward. -/
def mread (d : BitVec 8) (m : Table (BitVec 8)) (a : Nat) : Nat → List (BitVec 8)
  | 0 => []
  | n + 1 => tget d m a :: mread d m (a + 1) n

/-- Consecutive values from a key upward as entries, those equal to the unlisted reading left out. -/
def tlist {α : Type} [DecidableEq α] (d : α) (k : Nat) : List α → Table α
  | [] => []
  | v :: t => if v = d then tlist d (k + 1) t else (k, v) :: tlist d (k + 1) t

/-- The table with the keys from `k` upward holding the listed values. -/
def tfill {α : Type} [DecidableEq α] (d : α) (t : Table α) (k : Nat) (l : List α) : Table α :=
  t.filter (fun e => decide (e.1 < k)) ++ tlist d k l ++ t.filter fun e => decide (k + l.length ≤ e.1)

/-- Write bytes to a memory from an address upward. -/
def mwrite (d : BitVec 8) (m : Table (BitVec 8)) (a : Nat) (l : List (BitVec 8)) : Table (BitVec 8) := tfill d m a l

/-- The table with every entry of the key range `[a, a + n)` back at its unlisted reading. -/
def tclear {α : Type} (m : Table α) (a n : Nat) : Table α := m.filter fun e => decide (e.1 < a ∨ a + n ≤ e.1)

/-- Write a list of (address, byte) cells. -/
def mcells (d : BitVec 8) (m : Table (BitVec 8)) (l : List Host.Cell) : Table (BitVec 8) :=
  l.foldl (fun m c => tset d m c.1 c.2) m

end Sys2Proof.Machine
end

