-- ==== Sys2Proof/Word.lean ====
section
/-!
DEFINITION. The word types of the register map, frames and memories (00 R13): a byte, a 32-bit register word and a
64-bit double word.
-/
namespace Sys2Proof

/-- A byte of a memory, a frame or a record. -/
abbrev Byte := BitVec 8

/-- A 32-bit register word (18 R505). -/
abbrev Word := BitVec 32

/-- A 64-bit value: an address, a link control word, the timebase. -/
abbrev DWord := BitVec 64

end Sys2Proof
end

