-- ==== Sys2Proof/Syntax.lean ====
section
/-!
DEFINITION. The commands of the block: one constructor of `Instr` per row of spec/opcode_table.json, with the operands
that the row's rule says the event carries. The table gives its rows no bits, so the operand forms are the model's own
(log 11).
-/
namespace Sys2Proof

/-- A Shroud port SP0–SP23 (03 Model, R78). -/
abbrev Port := Fin 24
/-- An I/O die X0 or X1. -/
abbrev IoDie := Fin 2
/-- A compute die C0–C3. -/
abbrev CDie := Fin 4
/-- A context ID of the package (06 R196). -/
abbrev CtxId := Fin 64
/-- A partition index of the package (06 R178). -/
abbrev PartId := Fin 8
/-- A logical tile of the package (08 R250). -/
abbrev TileId := Fin 128
/-- A tray site (01 R24). -/
abbrev SiteId := Fin 16
/-- A stream number (10 R306). -/
abbrev StreamId := Fin 4096
/-- A slice tag (06 R181). -/
abbrev TagId := Fin 4096
/-- A lane mask of one port: bit n is lane n. -/
abbrev LaneMask := BitVec 4
/-- A node ID as a 16-bit field (01 R28). -/
abbrev NodeId := BitVec 16

/-- What a port reads on its entry to DETECT: the class pins of a harness receptacle, and the lane rate of an optical
module (`none`: no module or unreadable; `some true`: 112 Gb/s) (03 R83). -/
structure CableRead where
  pins : BitVec 2
  rate : Option Bool
  deriving DecidableEq, Repr

/-- A frame: the 16-byte header of Table 7.1 and the payload bytes (07 R209). -/
structure Frame where
  hdr : BitVec 128
  payload : List Byte
  deriving DecidableEq, Repr

/-- Bytes the host has stored in its memory, as (address, byte) pairs, that a command is about to read (log 12). -/
abbrev Cells := List (Nat × Byte)

/-- A master's answer to a forwarded command: status, results and the bytes for the host's buffer (04 R138). -/
structure CmdReply where
  status : BitVec 8
  res : List Word
  data : List Byte
  deriving DecidableEq, Repr

/-- The PCIe function that makes an access: the PF or VF n (11 R326). -/
inductive Func where
  | pf
  | vf (n : Fin 64)
  deriving DecidableEq, Repr

/-- A function that reaches a BAR0: the PF, a VF, or the function of H1 (11 R322, R326). -/
inductive BarFunc where
  | fn (f : Func)
  | h1
  deriving DecidableEq, Repr

/-- A HELLO as its rule lists it (04 R112). -/
structure Hello where
  node : NodeId
  valid : Bool
  uid : DWord
  admission : BitVec 8
  eligible : Bool
  fingerprint : Word
  port : BitVec 8
  state : BitVec 8
  deriving DecidableEq, Repr

/-- A node record of the topology database (04 Table 4.4). -/
structure NodeRec where
  node : NodeId
  admission : BitVec 8
  role : BitVec 8
  uid : DWord
  bootId : Word
  preset : BitVec 8
  eligible : Bool
  up : Nat
  degraded : Nat
  down : Nat
  state : BitVec 8
  changeGen : Word
  deriving DecidableEq, Repr

/-- A link record of the topology database (04 Table 4.6). -/
structure LinkRec where
  node : NodeId
  port : Nat
  dir : Nat
  pos : Nat
  farNode : NodeId
  farPort : Nat
  status : Nat
  gen : Nat
  width : Nat
  reason : Nat
  flags : Nat
  weight : Nat
  changeGen : Word
  deriving DecidableEq, Repr

/-- A package's link-state record: its node record, its link records and an origin sequence number (04 R112); its pod fingerprint, by
which the master runs check 0x5 of a package it is no neighbour of (R110), DEDUCED (log 29); and its yield map, which goes to the master
with its node record (16 R469). -/
structure LsRecord where
  seq : Nat
  node : NodeRec
  links : List LinkRec
  fingerprint : Word
  yield : List Byte
  deriving DecidableEq, Repr

/-- A reservation of slots on one port: slots `phase`, `phase + period`, … belong to `tag` (05 R145, R160). -/
structure SlotOwn where
  node : NodeId
  port : Nat
  phase : Nat
  period : Nat
  tag : Nat
  deriving DecidableEq, Repr

/-- An entry of a package's slice tag table: the tag is LIVE; `member` holds this package's partition index when it is a
member (06 R183). -/
structure TagEntry where
  tag : Nat
  member : Option Nat
  deriving DecidableEq, Repr

/-- A peer entry: a slice of this pod and its peer in another pod (06 R186). -/
structure PeerEntry where
  tag : Nat
  pod : Nat
  remote : Nat
  deriving DecidableEq, Repr

/-- The window W that the receiving package holds with a stream (07 R232, 10 R306). -/
structure WindowEntry where
  tag : Nat
  stream : Nat
  windowNs : Nat
  deriving DecidableEq, Repr

/-- How a member of a slice runs a demand's flows (05 R158): the pattern, the plane, the order of the ring that holds the
member, the tree's (member, parent) pairs, and every member. -/
structure FlowEntry where
  tag : Nat
  stream : Nat
  pattern : Nat
  plane : Nat
  ring : List NodeId
  parents : List (NodeId × NodeId)
  members : List NodeId
  deriving DecidableEq, Repr

/-- A bound partition's ramp assignment (13 R377, 05 R166, R167). -/
structure RampEntry where
  tag : Nat
  group : Nat
  groupsM1 : Nat
  windowUs : Nat
  spacingNs : Nat
  rate : Nat
  budget : Nat
  deriving DecidableEq, Repr

/-- The binding that the master orders of a member of a placed slice (06 R192). -/
structure BindEntry where
  tag : Nat
  index : Nat
  log2k : Nat
  ctxMax : Nat
  tenant : Word
  deriving DecidableEq, Repr

/-- What a prepare carries for this package beside the generation: slot tables, tag tables, peers, stream windows and ramp
assignments (04 R129, 05 R145, 06 R183, 07 R239, 10 R306, 13 R377); `same` in an extra epoch whose tables are those in
force (04 R118). -/
structure Prepare where
  epoch : BitVec 16
  gen : Word
  slots : List SlotOwn
  tags : List TagEntry
  peers : List PeerEntry
  windows : List WindowEntry
  flows : List FlowEntry
  ramps : List RampEntry
  same : Bool
  deriving DecidableEq, Repr

/-- A slice event as it is flooded (06 Table 6.8). -/
structure SliceEvent where
  code : BitVec 8
  detail : BitVec 8
  tag : Nat
  node : NodeId
  scale : Nat
  time : DWord
  tenant : Word
  topoGen : Word
  deriving DecidableEq, Repr

/-- What overruns its rung of the escalation ladder (15 Table 15.3). A cluster is the tiles of one partition on one die. -/
inductive Rung where
  | context (c : CtxId)
  | tile (l : TileId)
  | cluster (i : PartId) (d : CDie)
  | engine (e : Fin 20)
  | collUnit (i : PartId)
  | partition (i : PartId)
  | package
  deriving DecidableEq, Repr

/-- What H0 or H1 meets when it trains (11 R320, R321): whether the link comes up, the highest rate both ends support (1 is
16 GT/s, 2 is 32, 3 is 64), the lanes that train, and the CXL version that the host accepts (`some false` is 1.1, `some true`
2.0), and whether the host enables the wider tags of Table 11.2. -/
structure HostTrain where
  up : Bool
  rate : Nat
  width : Nat
  cxl : Option Bool
  tags : Bool
  deriving DecidableEq, Repr

/-- A host-side event that resets the PF (11 R342). -/
inductive PfEvent where
  | functionReset
  | hotReset
  | linkDown
  | perst
  deriving DecidableEq, Repr

/-- The package's own read of host memory (11 R346): a queue's command fetch, the source of its segment in progress, or its
read-back flush. -/
inductive HostRead where
  | fetch (c : CtxId) (q : Fin 4)
  | segment (c : CtxId) (q : Fin 4)
  | flush (c : CtxId) (q : Fin 4)
  deriving DecidableEq, Repr

/-- A reset domain that a fence closes (15 Table 15.2). -/
inductive Domain where
  | context (c : CtxId)
  | partition (i : PartId)
  | package
  deriving DecidableEq, Repr

/-- A demand record (05 Table 5.2). -/
structure Demand where
  slice : Nat
  pattern : Nat
  axis : Nat
  plane : Nat
  noScale : Bool
  partialOk : Bool
  src : NodeId
  dst : NodeId
  stream : Nat
  riseW : Nat
  bytes : Nat
  windowNs : Nat
  stepNs : Nat
  maxScale : Nat
  id : Nat
  malformed : Bool
  deriving DecidableEq, Repr

/-- A placed or tried reservation of one demand (05 R160, R164, R165). -/
structure Resv where
  tag : Nat
  demand : Demand
  reserved : Bool
  noPath : Bool
  sampled : Bool
  phase : Nat
  period : Nat
  linkScale : Nat
  ports : List (NodeId × Nat × Nat × Nat)
  rings : List (List NodeId)
  parents : List (NodeId × NodeId)
  grade : Nat
  factor : Nat
  deriving DecidableEq, Repr

/-- A slice's claim on one tray's ramp budget (05 R166). -/
structure Claim where
  tray : Nat
  tag : Nat
  groupSize : Nat
  groups : Nat
  rate : Nat
  offsetUs : Nat
  deriving DecidableEq, Repr

/-- A slice request record (06 Table 6.4). -/
structure SliceReq where
  ext : Nat × Nat × Nat
  hint : Option (Nat × Nat × Nat)
  fixed : Bool
  k : Nat
  index : Nat
  ctxMax : Nat
  tenant : Word
  minTiles : Nat
  deadlineMs : Nat
  demands : List Demand
  deriving DecidableEq, Repr

/-- Slice states (06 Table 6.3). -/
inductive SliceState where
  | free | placing | installing | active | degraded | destroying | releasing | retired
  deriving DecidableEq, Repr

/-- A slice as the master holds it (06 Table 6.7, R191–R200). -/
structure SliceRec where
  state : SliceState
  grade : Nat
  reason : Nat
  origin : Nat × Nat × Nat
  ext : Nat × Nat × Nat
  k : Nat
  index : Nat
  factor : Nat
  spacingNs : Nat
  tenant : Word
  installGen : Word
  createTime : DWord
  ctxMax : Nat
  demands : List Demand
  req : SliceReq
  finals : List NodeId
  scrubs : List NodeId
  released : Bool
  releasedAt : DWord
  deriving DecidableEq, Repr

/-- What the master knows of a package's partitions (06 R178, R189). -/
structure NodeParts where
  log2k : Nat
  inUse : BitVec 8
  bound : Machine.Table Nat
  deriving DecidableEq, Repr

/-- The master's slices (06 R181–R200). -/
structure Slc where
  recs : Machine.Table SliceRec
  lastTag : Nat
  nodes : Machine.Table NodeParts
  peers : List PeerEntry
  deriving DecidableEq, Repr

/-- An abort that the master carries out (07 R235), by stage: 0 collecting acknowledgements, 1 in the 200 µs wait, 2 resumed; a
resumed one is kept so that a late report of its generation makes no second abort. -/
structure AbortRec where
  tag : Nat
  stream : Nat
  gen : Nat
  acked : List NodeId
  stage : Nat
  deriving DecidableEq, Repr

/-- A request that asks for nothing. -/
def SliceReq.empty : SliceReq :=
  { ext := (0, 0, 0), hint := none, fixed := false, k := 1, index := 0, ctxMax := 0, tenant := 0, minTiles := 0,
    deadlineMs := 0, demands := [] }

/-- An unallocated tag. -/
def SliceRec.reset : SliceRec :=
  { state := .free, grade := 0, reason := 0, origin := (0, 0, 0), ext := (0, 0, 0), k := 0, index := 0, factor := 0,
    spacingNs := 0, tenant := 0, installGen := 0, createTime := 0, ctxMax := 0, demands := [], req := .empty,
    finals := [], scrubs := [], released := false, releasedAt := 0 }

/-- A package of which the master knows nothing. -/
def NodeParts.reset : NodeParts := { log2k := 0, inUse := 0, bound := [] }

/-- No slice allocated. -/
def Slc.reset : Slc := { recs := [], lastTag := 0, nodes := [], peers := [] }

/-- What the master does once the epoch it installs has switched. -/
inductive AfterSwitch where
  | portDown (node : NodeId) (port : Nat)
  | fullTrain (node : NodeId) (port : Nat) (farNode : NodeId) (farPort : Nat) (cable : Option CableRead)
  | drained (node : NodeId)
  | sliceActive (tag : Nat)
  | sliceReserved (tag : Nat)
  | sliceReleased (tag : Nat)
  | peerDone
  | finishEpoch
  | finishReplan
  deriving DecidableEq, Repr

/-- What the ramp ledger counts with (05 R166): each tray's budget, and each package's RAMP_UP rate, under 0xFFFF the pod's. -/
structure RampSet where
  budgets : Machine.Table Nat
  rates : Machine.Table Nat
  deriving DecidableEq, Repr

/-- The master's state as it is replicated to the standby and handed over to a new master (04 R115, R116, R119, 06 R191, 07 R235): the
topology generation, the slices, the committed and held reservations and ramp claims, what the next epoch carries, the ramp budgets, rates
and planner settings, the number of the last command, the commit in force, the operator's biases and the aborts under way. -/
structure Replica where
  gen : Word
  slc : Slc
  resv : List Resv
  held : List Resv
  claims : List Claim
  heldClaims : List Claim
  replanHeld : List Resv
  replanClaims : List Claim
  planned : List Nat
  after : List AfterSwitch
  ramp : RampSet
  rampWant : RampSet
  rampPlan : Option RampSet
  resvMax : Nat
  replanUs : Nat
  placeMs : Nat
  podSeq : Nat
  commit : Option (BitVec 16 × DWord)
  biases : List (NodeId × Nat × Nat)
  aborts : List AbortRec
  deriving DecidableEq, Repr

/-- What a delta says of its generation beside the changed records (04 R123, Table 4.3): the generation, the one it starts from, the
master, the standby, the master's timebase when the generation was assigned, QUORUM and the master's pod fingerprint. -/
structure DbHead where
  gen : Word
  base : Word
  master : NodeId
  standby : NodeId
  time : DWord
  quorum : Bool
  fingerprint : Word
  deriving DecidableEq, Repr

/-- Who sent a Halyard, planner or slice command (04 R136): the HLY_CMD mailbox of BAR0 (a write of CTRL with GO and this
SEQ; the arguments stand in the ARG registers), the command taken by HLY_CMD over MCTP, a member's forwarded command with
its arguments and the record it read, the master's order to this package's own port, the old master's handover of its state, or the
master's order to a member: bind a partition to a placed slice, drop that binding, or take a partition layout (06 R178, R192). -/
inductive HlySrc where
  | mailbox (seq : BitVec 8)
  | mctp
  | forwarded (node : NodeId) (args : List Word) (data : List Byte)
  | order (port : Port)
  | handover (node : NodeId) (r : Replica)
  | bind (e : BindEntry)
  | unbind (tag : Nat)
  | layout (log2k : Nat)
  deriving DecidableEq, Repr

/-- What a package forwards to the master about its ramps (13 R390): a change of its tray's T_UP, or a RIG_WRITE that raised its
RAMP_UP, with the value. -/
inductive RampForward where
  | limit (tUp : BitVec 16)
  | raised (rate : Nat)
  deriving DecidableEq, Repr

/-- The header of a vendor message: the endpoint IDs it comes from and goes to, and its FLAGS byte (17 R481, R482). -/
structure MsgHdr where
  src : BitVec 8
  dst : BitVec 8
  flags : BitVec 8
  deriving DecidableEq, Repr

/-- What a boot step meets in hardware (16 Table 16.6): the cable of each port (step 24), the units that completed (steps 14, 15, 16
and 18), the Stay lanes 1,024 × link + lane or physical tiles 36d + p that failed their test (steps 15, 16), each stack's best step passed (3: none) and failed pseudo-channels (step 19), and whether the step finishes. -/
structure BootInputs where
  cables : List CableRead
  units : List Nat
  failed : List Nat
  train : List (Nat × Nat)
  ok : Bool
  deriving DecidableEq, Repr

/-- A bundle: its tag, version and sizes in payload and manifest chunks (16 R454, Table 16.10). -/
structure BundleId where
  tag : Word
  version : Word
  chunks : Nat
  mchunks : Nat
  deriving DecidableEq, Repr

/-- A fragment header (16 Table 16.11). -/
structure FragHdr where
  chunk : Nat
  frag : Nat
  payload : Bool
  tag : Word
  deriving DecidableEq, Repr

/-- A range of a BCAST_NACK: its first chunk, how many, and their KIND (16 Table 16.10). -/
structure ChunkRange where
  first : Nat
  count : Nat
  payload : Bool
  deriving DecidableEq, Repr

/-- An access of a function: a write of bytes to its BAR0, or a read of a length (18 R509), or a read of its configuration identity (11 R324). -/
inductive BarAccess where
  | write (data : List Byte)
  | read (len : Nat)
  | identity
  deriving DecidableEq, Repr

/-- A Redfish resource (17 Table 17.9). -/
inductive Resource where
  | chassis
  | sensors
  | processor (s : SiteId)
  | fabric
  | componentIntegrity (s : SiteId)
  | manager
  | logEntries
  | eventService
  | updateService
  deriving DecidableEq, Repr

/-- A PLDM request (17 R500): the package's measured sensor of a site, a site's state sensor, the SOC sensor, the FRU data. -/
inductive PldmQuery where
  | sensor (s : SiteId)
  | siteState (s : SiteId)
  | soc
  | fru
  deriving DecidableEq, Repr

/-- A change of a Farnis setting (17 Table 17.11): a number of the table and a value, the shelf addresses, or the CDU line. -/
inductive SettingWrite where
  | value (n : Fin 16) (v : Word)
  | shelf (l : List (BitVec 8))
  | line (baud : Nat) (twoStop : Bool)
  deriving DecidableEq, Repr
/-- The commands: one constructor per row of spec/opcode_table.json, in the table's order. -/
inductive Instr where
  /-- POWER_GOOD (R450). -/
  | powerGood
  /-- ID_READ (R23). -/
  | idRead (h : MsgHdr) (cls cmd : BitVec 8)
  /-- BOOT_STEP_ENTER (R462). -/
  | bootStepEnter (k : Fin 41) (inp : BootInputs)
  /-- BOOT_STEP_LIMIT (R462). -/
  | bootStepLimit (k : Fin 41)
  /-- TRAIN_DEADLINE (R468). -/
  | trainDeadline
  /-- BOOT_ALT_CLR (R466). -/
  | bootAltClr
  /-- PORT_DETECT_SIGNAL (R81). -/
  | portDetectSignal (p : Port)
  /-- PORT_SYNC_LOCK (R81). -/
  | portSyncLock (p : Port) (locked : LaneMask)
  /-- PORT_SYNC_TIMEOUT (R81). -/
  | portSyncTimeout (p : Port)
  /-- PORT_DESKEW_DONE (R81). -/
  | portDeskewDone (p : Port) (aligned : LaneMask)
  /-- PORT_DESKEW_TIMEOUT (R81). -/
  | portDeskewTimeout (p : Port)
  /-- TS2_RECEIVE (R84). -/
  | ts2Receive (p : Port) (block : BitVec 128)
  /-- PORT_EXCHANGE_TIMEOUT (R81). -/
  | portExchangeTimeout (p : Port)
  /-- PORT_EQUALISE_DONE (R81). -/
  | portEqualiseDone (p : Port) (converged : LaneMask)
  /-- PORT_VERIFY_DONE (R85). -/
  | portVerifyDone (p : Port) (rxGood : LaneMask) (far : BitVec 128) (delayNs : Nat)
  /-- TRAINING_SIGNAL_LOSS (R81). -/
  | trainingSignalLoss (p : Port)
  /-- HOLDOFF_EXPIRY (R86). -/
  | holdoffExpiry (p : Port) (cable : CableRead)
  /-- PORT_DOWN_SIGNAL_RETURN (R81). -/
  | portDownSignalReturn (p : Port) (cable : CableRead)
  /-- LANE_LOCK_LOSS (R88). -/
  | laneLockLoss (p : Port) (good : LaneMask)
  /-- FEC_THRESHOLD (R88). -/
  | fecThreshold (p : Port) (count : Nat) (good : LaneMask)
  /-- RETRAIN_REQ_REPEAT (R89). -/
  | retrainReqRepeat (p : Port)
  /-- RETRAIN_REQ_RECEIVE (R89). -/
  | retrainReqReceive (p : Port) (word : DWord)
  /-- RETRAIN_COMPLETE (R88). -/
  | retrainComplete (p : Port) (rxGood farRxGood : LaneMask)
  /-- RETRAIN_TIMEOUT (R95). -/
  | retrainTimeout (p : Port)
  /-- ENVELOPE_RECEIVE (R93). -/
  | envelopeReceive (p : Port) (frame : Frame) (trailer : DWord) (fecSymbols : Nat) (fecBad : Bool)
  /-- ACK_RECEIVE (R92). -/
  | ackReceive (p : Port) (word : DWord)
  /-- NAK_RECEIVE (R94). -/
  | nakReceive (p : Port) (word : DWord)
  /-- NAK_REPEAT (R93). -/
  | nakRepeat (p : Port)
  /-- REPLAY_TIMEOUT (R94). -/
  | replayTimeout (p : Port)
  /-- CREDIT_RECEIVE (R99). -/
  | creditReceive (p : Port) (word : DWord)
  /-- GOING_DOWN_RECEIVE (R95). -/
  | goingDownReceive (p : Port) (word : DWord)
  /-- LINK_SIGNAL_LOSS (R95). -/
  | linkSignalLoss (p : Port)
  /-- FULL_TRAIN_RECEIVE (R90). -/
  | fullTrainReceive (p : Port) (cable : CableRead)
  /-- STAY_FAIL (R105). -/
  | stayFail (l : Fin 12) (replays : Nat) (corrected : Bool)
  /-- SHR_CNT_CLR (R102). -/
  | shrCntClr (p : Port)
  /-- SYNC_EXCHANGE (R69). -/
  | syncExchange (ok : Bool) (offset : DWord)
  /-- PARENT_LINK_FAIL (R71). -/
  | parentLinkFail
  /-- HOLDOVER_EXPIRY (R71). -/
  | holdoverExpiry
  /-- PARENT_NAMED (R71). -/
  | parentNamed (p : Port) (root : NodeId)
  /-- REFCLK_LOSS (R73). -/
  | refclkLoss
  /-- REFCLK_RETURN (R73). -/
  | refclkReturn
  /-- TIME_NOW_LO_READ (R67). -/
  | timeNowLoRead (f : Func)
  /-- UV_MONITOR_TRIP (R63). -/
  | uvMonitorTrip (d : CDie)
  /-- UV_MONITOR_CLEAR (R63). -/
  | uvMonitorClear (d : CDie)
  /-- OT_MONITOR_TRIP (R63). -/
  | otMonitorTrip (d : CDie)
  /-- OT_MONITOR_CLEAR (R63). -/
  | otMonitorClear (d : CDie)
  /-- THERMAL_HOLD_START (R65). -/
  | thermalHoldStart (d : CDie)
  /-- THERMAL_HOLD_END (R65). -/
  | thermalHoldEnd (d : CDie)
  /-- THERMAL_TRIP (R65). -/
  | thermalTrip (d : CDie)
  /-- HELLO_SEND (R112). -/
  | helloSend (p : Port)
  /-- HELLO_RECEIVE (R112). -/
  | helloReceive (p : Port) (h : Hello)
  /-- LINK_STATE_RECORD_RECEIVE (R112). -/
  | linkStateRecordReceive (p : Port) (r : LsRecord)
  /-- DISCOVERY_SETTLE (R113). -/
  | discoverySettle
  /-- MASTER_ANNOUNCE_RECEIVE (R115). -/
  | masterAnnounceReceive (node : NodeId)
  /-- STANDBY_ACK_RECEIVE (R116). -/
  | standbyAckReceive (seq : Nat)
  /-- BEACON_SEND (R117). -/
  | beaconSend
  /-- BEACON_COUNT_RECEIVE (R117). -/
  | beaconCountReceive (count : Nat)
  /-- COMPONENT_JOIN (R118). -/
  | componentJoin (gen : Word) (epoch : BitVec 16) (recs : List LsRecord)
  /-- BEACON_TIMEOUT (R119). -/
  | beaconTimeout (count : Nat)
  /-- HOLD_DOWN_EXPIRY (R122). -/
  | holdDownExpiry (p : Port)
  /-- PACKAGE_ABSENT (R134). -/
  | packageAbsent (node : NodeId)
  /-- EPOCH_COLLECT_CLOSE (R129). -/
  | epochCollectClose
  /-- EPOCH_PREPARE_RECEIVE (R129). -/
  | epochPrepareReceive (prs : List (NodeId × Prepare))
  /-- EPOCH_READY_RECEIVE (R129). -/
  | epochReadyReceive (node : NodeId) (epoch : BitVec 16)
  /-- EPOCH_COMMIT_RECEIVE (R129). -/
  | epochCommitReceive (epoch : BitVec 16) (time : DWord)
  /-- EPOCH_SWITCH (R129). -/
  | epochSwitch
  /-- OLD_BANK_RELEASE (R130). -/
  | oldBankRelease
  /-- EPOCH_READY_TIMEOUT (R131). -/
  | epochReadyTimeout (node : NodeId)
  /-- EPOCH_ABORT_RECEIVE (R131). -/
  | epochAbortReceive (epoch : BitVec 16)
  /-- HALYARD_RESTART_TIMEOUT (R439). -/
  | halyardRestartTimeout
  /-- TOPO_READ (R137). -/
  | topoRead (src : HlySrc)
  /-- PORT_DISABLE (R137). -/
  | portDisable (src : HlySrc)
  /-- PORT_ENABLE (R137). -/
  | portEnable (src : HlySrc) (cable : CableRead)
  /-- PORT_FULL_TRAIN (R90). -/
  | portFullTrain (src : HlySrc) (cable : CableRead)
  /-- PORT_TEST_RETRAIN (R137). -/
  | portTestRetrain (src : HlySrc)
  /-- EPOCH_QUERY (R137). -/
  | epochQuery (src : HlySrc)
  /-- MASTER_HANDOVER (R137). -/
  | masterHandover (src : HlySrc)
  /-- MASTER_CONFIRM (R117). -/
  | masterConfirm (src : HlySrc)
  /-- PACKAGE_DRAIN (R137). -/
  | packageDrain (src : HlySrc)
  /-- PACKAGE_RESTORE (R137). -/
  | packageRestore (src : HlySrc)
  /-- RIG_WRITE (R458). -/
  | rigWrite (src : HlySrc)
  /-- RIG_READ (R458). -/
  | rigRead (src : HlySrc)
  /-- HLY_CMD_RESULT (R519). -/
  | hlyCmdResult (mctp : Bool) (reply : Option CmdReply)
  /-- HLY_CMD_NO_MASTER (R138). -/
  | hlyCmdNoMaster (mctp : Bool)
  /-- PLANNER_JOB_START (R170). -/
  | plannerJobStart
  /-- PLANNER_ROUND (R160). -/
  | plannerRound
  /-- PLANNER_DEADLINE (R169). -/
  | plannerDeadline
  /-- TKP_DRYRUN (R159). -/
  | tkpDryrun (src : HlySrc) (host : Cells)
  /-- TKP_RESV_READ (R154). -/
  | tkpResvRead (src : HlySrc)
  /-- TKP_SLOTS_READ (R145). -/
  | tkpSlotsRead (src : HlySrc)
  /-- TKP_BIAS_SET (R141). -/
  | tkpBiasSet (src : HlySrc)
  /-- TKP_HEADROOM_SET (R148). -/
  | tkpHeadroomSet (src : HlySrc)
  /-- TKP_DEADLINE_SET (R169). -/
  | tkpDeadlineSet (src : HlySrc)
  /-- TKP_REPLAN_ALL (R162). -/
  | tkpReplanAll (src : HlySrc)
  /-- TKP_RAMP_READ (R166). -/
  | tkpRampRead (src : HlySrc)
  /-- SLICE_CREATE (R192). -/
  | sliceCreate (src : HlySrc) (host : Cells)
  /-- SLICE_DESTROY (R198). -/
  | sliceDestroy (src : HlySrc)
  /-- SLICE_QUERY (R194). -/
  | sliceQuery (src : HlySrc)
  /-- SLICE_LIST (R194). -/
  | sliceList (src : HlySrc)
  /-- SLICE_LAYOUT (R178). -/
  | sliceLayout (src : HlySrc)
  /-- SLICE_PEER (R186). -/
  | slicePeer (src : HlySrc)
  /-- SLICE_RESERVE (R194). -/
  | sliceReserve (src : HlySrc) (host : Cells)
  /-- SLICE_CONTEXTS_FINAL (R198). -/
  | sliceContextsFinal (tag : TagId) (node : NodeId)
  /-- SLICE_SCRUB_REPORT (R198). -/
  | sliceScrubReport (tag : TagId) (node : NodeId) (failed : Bool)
  /-- SLICE_EVENT_RECEIVE (R195). -/
  | sliceEventReceive (e : SliceEvent)
  /-- CTX_CREATE (R196). -/
  | ctxCreate
  /-- CTX_DESTROY (R197). -/
  | ctxDestroy
  /-- CONTEXT_SCRUB_COMPLETE (R197). -/
  | contextScrubComplete (c : CtxId)
  /-- CTX_FREE (R196). -/
  | ctxFree
  /-- PARTITION_SCRUB_COMPLETE (R199). -/
  | partitionScrubComplete (i : PartId)
  /-- SCRUB_QUARANTINE (R208). -/
  | scrubQuarantine (i : PartId) (stack : Fin 8)
  /-- MINUTE_LATCH (R203). -/
  | minuteLatch
  /-- CTX_SNAP (R203). -/
  | ctxSnap (c : CtxId)
  /-- ENERGY_ATTRIBUTE (R202). -/
  | energyAttribute (dieUj : List Nat) (hbmUj otherUj : Nat)
  /-- FRAME_FORWARD (R218). -/
  | frameForward (d : IoDie)
  /-- FRAME_AGE_EXPIRY (R215). -/
  | frameAgeExpiry (d : IoDie)
  /-- DETOUR_RESEND (R222). -/
  | detourResend (d : IoDie)
  /-- FILTER_RECORD_EXPIRY (R223). -/
  | filterRecordExpiry (d : IoDie) (src : NodeId) (stream : StreamId)
  /-- REQ_RECEIVE (R225). -/
  | reqReceive (d : IoDie)
  /-- REQ_ANSWER_DEADLINE (R426). -/
  | reqAnswerDeadline (src : NodeId) (txn : BitVec 11)
  /-- REP_RECEIVE (R226). -/
  | repReceive (d : IoDie)
  /-- REQ_EXPIRED (R226). -/
  | reqExpired (txn : BitVec 11)
  /-- MSG_RECEIVE (R317). -/
  | msgReceive (d : IoDie)
  /-- COLL_FRAME_RECEIVE (R228). -/
  | collFrameReceive (d : IoDie)
  /-- LATE_STEP_REPORT (R233). -/
  | lateStepReport (tag : TagId) (node : NodeId) (cause : BitVec 4) (stream : StreamId) (gen : BitVec 8)
  /-- FLOW_ABORT_REPORT (R234). -/
  | flowAbortReport (tag : TagId) (stream : StreamId) (gen : BitVec 8)
  /-- FLOW_ABORT_RECEIVE (R235). -/
  | flowAbortReceive (tag : TagId) (stream : StreamId) (gen : BitVec 8)
  /-- ABORT_ACK_RECEIVE (R235). -/
  | abortAckReceive (tag : TagId) (stream : StreamId) (node : NodeId)
  /-- ABORT_ACK_TIMEOUT (R235). -/
  | abortAckTimeout (tag : TagId) (stream : StreamId)
  /-- FLOW_RESUME_WAIT (R235). -/
  | flowResumeWait (tag : TagId) (stream : StreamId)
  /-- FLOW_RESUME_RECEIVE (R316). -/
  | flowResumeReceive (tag : TagId) (stream : StreamId) (gen : BitVec 8)
  /-- BIND (R281). -/
  | bind (c : CtxId)
  /-- UNBIND (R289). -/
  | unbind (c : CtxId)
  /-- RESTART (R289). -/
  | restart (c : CtxId)
  /-- CTX_XC_ARM_LO (R284). -/
  | ctxXcArmLo (c : CtxId) (f : Func) (value : Word)
  /-- CTX_XC_ARM_HI (R284). -/
  | ctxXcArmHi (c : CtxId) (f : Func) (value : Word)
  /-- STEP_ARM (R271). -/
  | stepArm (c : CtxId)
  /-- STEP_RELEASE (R378). -/
  | stepRelease (c : CtxId)
  /-- STEP_COMPLETE (R288). -/
  | stepComplete (c : CtxId)
  /-- CONTRACT_VIOLATION (R287). -/
  | contractViolation (c : CtxId)
  /-- MMA (R243). -/
  | mma (l : TileId)
  /-- DRAIN (R246). -/
  | drain (l : TileId)
  /-- VOP (R247). -/
  | vop (l : TileId)
  /-- VCVT (R263). -/
  | vcvt (l : TileId)
  /-- VLD (R268). -/
  | vld (l : TileId)
  /-- VST (R268). -/
  | vst (l : TileId)
  /-- HRD (R268). -/
  | hrd (l : TileId)
  /-- HWR (R268). -/
  | hwr (l : TileId)
  /-- SEND (R268). -/
  | send (l : TileId)
  /-- RECV (R268). -/
  | recv (l : TileId)
  /-- WAIT (R268). -/
  | wait (l : TileId)
  /-- LOOP (R268). -/
  | loop (l : TileId)
  /-- END (R268). -/
  | tileEnd (l : TileId)
  /-- TILE_STORE_UNCORR (R249). -/
  | tileStoreUncorr (l : TileId) (line : Fin 12288) (corrected : Bool)
  /-- TILE_RETIRE (R251). -/
  | tileRetire (l : TileId)
  /-- PAGE_GRANT (R302). -/
  | pageGrant
  /-- PAGE_RETURN (R302). -/
  | pageReturn
  /-- PAGE_SCRUB_COMPLETE (R302). -/
  | pageScrubComplete
  /-- HBM_UNCORRECTABLE (R297). -/
  | hbmUncorrectable (addr : BitVec 48) (corrected : Bool)
  /-- STREAM_OPEN (R308). -/
  | streamOpen (c : CtxId)
  /-- STREAM_CLOSE (R313). -/
  | streamClose (c : CtxId)
  /-- STREAM_QUERY (R308). -/
  | streamQuery (c : CtxId)
  /-- STREAM_HEAD (R308). -/
  | streamHead (c : CtxId)
  /-- STREAM_HELLO_RECEIVE (R310). -/
  | streamHelloReceive
  /-- STREAM_HELLO_REPEAT (R310). -/
  | streamHelloRepeat (n : StreamId)
  /-- STREAM_CREDIT_RECEIVE (R311). -/
  | streamCreditReceive
  /-- STREAM_CREDIT_PERIODIC (R311). -/
  | streamCreditPeriodic (n : StreamId)
  /-- STREAM_CLOSING_END (R313). -/
  | streamClosingEnd (n : StreamId)
  /-- HOST_LINK_TRAIN (R320). -/
  | hostLinkTrain (n : IoDie) (t : HostTrain)
  /-- H1_LINK_DOWN (R344). -/
  | h1LinkDown
  /-- WINDOW_READ (R331). -/
  | windowRead (f : Func) (offset length : Nat)
  /-- WINDOW_WRITE (R329). -/
  | windowWrite (f : Func) (offset : Nat) (data : List Byte) (poisoned : Bool)
  /-- WINDOW_ATOMIC (R330). -/
  | windowAtomic (f : Func) (offset : Nat)
  /-- WATCH_ENTRY_SET (R335). -/
  | watchEntrySet (n : Fin 128) (lo : Word)
  /-- WATCH_SNOOP (R335). -/
  | watchSnoop (n : Fin 128) (host : Cells)
  /-- VF_FLR (R341). -/
  | vfFlr (n : Fin 64)
  /-- PF_FLR (R342). -/
  | pfFlr (e : PfEvent)
  /-- VF_ENABLE_CLEAR (R343). -/
  | vfEnableClear (enable : Bool) (numVfs : Fin 65)
  /-- HOST_READ_TIMEOUT (R346). -/
  | hostReadTimeout (r : HostRead)
  /-- FLUSH_READ_COMPLETE (R338). -/
  | flushReadComplete (c : CtxId) (q : Fin 4)
  /-- CE_QUEUE_ENABLE (R350). -/
  | ceQueueEnable (c : CtxId) (q : Fin 4) (f : Func) (cfg : Word)
  /-- CE_QUEUE_DISABLE (R366). -/
  | ceQueueDisable (c : CtxId) (q : Fin 4) (f : Func)
  /-- CE_QUEUE_RESUME (R362). -/
  | ceQueueResume (c : CtxId) (q : Fin 4) (f : Func)
  /-- CE_DOORBELL (R351). -/
  | ceDoorbell (c : CtxId) (q : Fin 4) (f : Func) (pi : BitVec 16)
  /-- CE_COMMAND_FETCH (R352). -/
  | ceCommandFetch (c : CtxId) (q : Fin 4) (host : Cells)
  /-- COPY (R355). -/
  | copy (c : CtxId) (q : Fin 4)
  /-- FILL (R355). -/
  | fill (c : CtxId) (q : Fin 4)
  /-- FLAG_ONLY (R360). -/
  | flagOnly (c : CtxId) (q : Fin 4)
  /-- MSG (R358). -/
  | msg (c : CtxId) (q : Fin 4)
  /-- REQ_WRITE (R359). -/
  | reqWrite (c : CtxId) (q : Fin 4)
  /-- REQ_READ (R359). -/
  | reqRead (c : CtxId) (q : Fin 4)
  /-- REQ_FETCH_ADD (R359). -/
  | reqFetchAdd (c : CtxId) (q : Fin 4)
  /-- REQ_SIGNAL (R359). -/
  | reqSignal (c : CtxId) (q : Fin 4)
  /-- CE_SEGMENT (R348). -/
  | ceSegment (e : Fin 20) (host : Cells)
  /-- CE_COMMAND_COMPLETE (R360). -/
  | ceCommandComplete (c : CtxId) (q : Fin 4)
  /-- REEF_MEASURE (R368). -/
  | reefMeasure (dieW : List Nat) (otherW : Nat)
  /-- CAP_LOOP (R374). -/
  | capLoop
  /-- CONTRACT_IDLE (R371). -/
  | contractIdle (d : CDie)
  /-- VR_FAULT (R372). -/
  | vrFault (d : CDie)
  /-- RAMP_WINDOW_OPEN (R377). -/
  | rampWindowOpen (i : PartId)
  /-- RAMP_WINDOW_CLOSE (R377). -/
  | rampWindowClose (i : PartId)
  /-- PRE_RAMP_COMPLETE (R375). -/
  | preRampComplete (i : PartId)
  /-- RISE_EXCESS (R380). -/
  | riseExcess (i : PartId)
  /-- BALLAST_HOLD (R383). -/
  | ballastHold
  /-- BALLAST_HOLD_END (R383). -/
  | ballastHoldEnd
  /-- TRAY_REPORT (R388). -/
  | trayReport (h : MsgHdr) (body : BitVec 128)
  /-- FACILITY_STALE (R391). -/
  | facilityStale
  /-- FACILITY_FALLBACK (R391). -/
  | facilityFallback
  /-- NOTICE (R394). -/
  | notice (h : MsgHdr) (cause : BitVec 8)
  /-- TTL_ROUND (R398). -/
  | ttlRound
  /-- PROMOTION_WINDOW_EXPIRY (R401). -/
  | promotionWindowExpiry (i : Fin 640)
  /-- REACTION_QUIET_EXPIRY (R408). -/
  | reactionQuietExpiry (slot : Option CtxId)
  /-- FAULT_N_LOW_END (R412). -/
  | faultNLowEnd
  /-- TTL_PIN_HOLD_WRITE (R412). -/
  | ttlPinHoldWrite (hold : Bool)
  /-- TTL_FORCE (R414). -/
  | ttlForce (source : Fin 1024)
  /-- TTL_FIRST_CLEAR (R400). -/
  | ttlFirstClear (w : Fin 20) (mask : Word)
  /-- LUFF_TILE_EXPIRY (R420). -/
  | luffTileExpiry (l : TileId)
  /-- TILE_SELF_TEST_DONE (R434). -/
  | tileSelfTestDone (l : TileId) (pass : Bool)
  /-- LUFF_CE_EXPIRY (R420). -/
  | luffCeExpiry (e : Fin 20) (reset : Option Bool)
  /-- LUFF_LINK_EXPIRY (R420). -/
  | luffLinkExpiry (p : Port)
  /-- LUFF_COLL_EXPIRY (R420). -/
  | luffCollExpiry (k : Fin 256)
  /-- COLL_UNIT_RESET (R436). -/
  | collUnitReset (i : PartId) (ok : Bool)
  /-- LUFF_HLY_EXPIRY (R420). -/
  | luffHlyExpiry (t : Fin 6)
  /-- IN_STREAM_STALL (R422). -/
  | inStreamStall (n : StreamId)
  /-- CONTEXT_RESET (R433). -/
  | contextReset (c : CtxId)
  /-- PARTITION_RESET (R437). -/
  | partitionReset (i : PartId)
  /-- PACKAGE_RESET (R438). -/
  | packageReset
  /-- FENCE_DRAIN_END (R427). -/
  | fenceDrainEnd (d : Domain) (dumpOk : Bool)
  /-- PACKAGE_RESET_COMPLETE (R438). -/
  | packageResetComplete
  /-- RUNG_TIMEOUT (R424). -/
  | rungTimeout (r : Rung)
  /-- GEN_LATE_DROP (R431). -/
  | genLateDrop
  /-- DUMP_REARM (R443). -/
  | dumpRearm
  /-- FLASH_READ (R461). -/
  | flashRead (h : MsgHdr) (off : Word) (len : BitVec 16) (devOk : Bool)
  /-- FLASH_ERASE (R461). -/
  | flashErase (h : MsgHdr) (off : Word) (size : BitVec 8) (devOk : Bool)
  /-- FLASH_WRITE (R461). -/
  | flashWrite (h : MsgHdr) (off : Word) (data : List Byte) (devOk : Bool)
  /-- BCAST_OFFER (R472). -/
  | bcastOffer (b : BundleId)
  /-- BCAST_FRAG (R473). -/
  | bcastFrag (h : FragHdr) (data : List Byte)
  /-- BCAST_END (R474). -/
  | bcastEnd (tag : Word)
  /-- BCAST_NACK (R474). -/
  | bcastNack (node : NodeId) (tag : Word) (ranges : List ChunkRange)
  /-- BCAST_NACK_TIMER (R474). -/
  | bcastNackTimer
  /-- BCAST_DONE (R470). -/
  | bcastDone (node : NodeId) (tag : Word)
  /-- BCAST_HAVE (R471). -/
  | bcastHave (node : NodeId) (tag version : Word)
  /-- BCAST_TIMEOUT (R476). -/
  | bcastTimeout
  /-- BUSBAR_RISE (R484). -/
  | busbarRise (ids : List (SiteId × Option (Word × DWord))) (hostEid : BitVec 8) (t : DWord)
  /-- SITE_POWER_ON (R485). -/
  | sitePowerOn (s1 : SiteId) (t : DWord)
  /-- RAIL_GOOD (R485). -/
  | railGood (s1 : SiteId) (t : DWord)
  /-- RAIL_FAIL (R485). -/
  | railFail (s1 : SiteId) (t : DWord)
  /-- POWER_OFF_NOTICE (R486). -/
  | powerOffNotice (s1 : SiteId)
  /-- READY (R486). -/
  | ready (s1 : SiteId)
  /-- NOTICE_LIMIT_EXPIRY (R486). -/
  | noticeLimitExpiry (s1 : SiteId)
  /-- POWER_OFF_GROUP_FALL (R487). -/
  | powerOffGroupFall (s1 : SiteId) (t : DWord)
  /-- OFF_TIME_EXPIRY (R488). -/
  | offTimeExpiry (s1 : SiteId)
  /-- FAULT_N_EDGE (R490). -/
  | faultNEdge (s1 : SiteId)
  /-- FAULT_READ_REPLY (R491). -/
  | faultReadReply (s1 : SiteId) (pin slot low : Word) (t : DWord)
  /-- FAULT_READ_RETRY (R491). -/
  | faultReadRetry (s1 : SiteId) (t : DWord)
  /-- PIN_ALERT (R492). -/
  | pinAlert (s1 : SiteId)
  /-- SHELF_POLL (R494). -/
  | shelfPoll (modules : List (Option (BitVec 16))) (batt soc : Option (BitVec 16))
  /-- CDU_POLL (R495). -/
  | cduPoll (r : Option (BitVec 16 × BitVec 16))
  /-- COOLANT_LIMIT (R497). -/
  | coolantLimit (t : DWord)
  /-- BUSBAR_SAG (R497). -/
  | busbarSag (t : DWord)
  /-- BUSBAR_RETURN (R497). -/
  | busbarReturn (t : DWord)
  /-- CDU_STALE_ALERT (R497). -/
  | cduStaleAlert (t : DWord)
  /-- TRAY_REPORT_SEND (R498). -/
  | trayReportSend
  /-- CRASH_SUMMARY (R440). -/
  | crashSummary (s1 : SiteId) (w : List Word) (t : DWord)
  /-- MEASURE (R501). -/
  | measure (s1 : SiteId) (digests : List Byte) (tag : Word) (t : DWord)
  /-- COMPONENT_INTEGRITY (R501). -/
  | componentIntegrity (s1 : SiteId) (nonce : BitVec 256)
  /-- RESET_ON (R499). -/
  | resetOn (s1 : SiteId) (t : DWord)
  /-- RESET_FORCE_OFF (R499). -/
  | resetForceOff (s1 : SiteId)
  /-- RESET_GRACEFUL_SHUTDOWN (R499). -/
  | resetGracefulShutdown (s1 : SiteId)
  /-- RESET_POWER_CYCLE (R499). -/
  | resetPowerCycle (s1 : SiteId)
  /-- RESET_FORCE_RESTART (R499). -/
  | resetForceRestart (s1 : SiteId)
  /-- REDFISH_GET (R499). -/
  | redfishGet (r : Resource) (measured : List Nat)
  /-- PLDM_SENSOR_READ (R500). -/
  | pldmSensorRead (q : PldmQuery) (measured : List Nat)
  /-- PLDM_FIRMWARE_UPDATE (R500). -/
  | pldmFirmwareUpdate (site : Option SiteId) (image : List Byte) (copyB devOk : Bool) (t : DWord)
  /-- FLASH_UPDATE (R502). -/
  | flashUpdate (s1 : SiteId) (image : List Byte) (copyB devOk : Bool) (t : DWord)
  /-- FARNIS_RESTART (R504). -/
  | farnisRestart (t : DWord)
  /-- FARNIS_SETTING_WRITE (R503). -/
  | farnisSettingWrite (w : SettingWrite) (t : DWord)
  /-- SCAN_ENTER (R483). -/
  | scanEnter (s1 : SiteId)
  /-- SCAN_EXIT (R483). -/
  | scanExit (s1 : SiteId)
  /-- REG_READ (R482). -/
  | regRead (h : MsgHdr) (off : Word) (count : BitVec 8)
  /-- REG_WRITE (R482). -/
  | regWrite (h : MsgHdr) (off value : Word)
  /-- HLY_CMD (R482). -/
  | hlyCmd (h : MsgHdr) (opcode seq : BitVec 8) (args : List Word)
  /-- DB_READ (R482). -/
  | dbRead (h : MsgHdr) (off : Word) (len : BitVec 16)
  /-- REGISTER_WRITE (R513). -/
  | registerWrite (f : BarFunc) (off : Nat) (a : BarAccess)
  /-- EXTEST (R539). -/
  | extest (s1 : SiteId) (d : IoDie)
  /-- IDCODE (R540). -/
  | idcode (s1 : SiteId) (d : IoDie)
  /-- SAMPLE_PRELOAD (R539). -/
  | samplePreload (s1 : SiteId) (d : IoDie)
  /-- EXTEST_PULSE (R539). -/
  | extestPulse (s1 : SiteId) (d : IoDie)
  /-- EXTEST_TRAIN (R539). -/
  | extestTrain (s1 : SiteId) (d : IoDie)
  /-- HIGHZ (R539). -/
  | highz (s1 : SiteId) (d : IoDie)
  /-- BYPASS (R539). -/
  | bypass (s1 : SiteId) (d : IoDie)
  /-- SCAN_EXT_CHANGE (R541). -/
  | scanExtChange (level trstLow : Bool)
  /-- SLOT_12V_FALL (R549). -/
  | slot12vFall
  /-- CARD_C4_POWER_OFF (R549). -/
  | cardC4PowerOff
  /-- EPOCH_PREPARE_GUARD (R130). -/
  | epochPrepareGuard
  /-- SLOT_START (R146). -/
  | slotStart (p : Port)
  /-- HBM_LINE_COMPLETE (R268). -/
  | hbmLineComplete (l : TileId) (k : Fin 65536)
  /-- TOKEN_ACKNOWLEDGE (R268). -/
  | tokenAcknowledge (c : CtxId) (ch : Fin 1024)
  /-- DOMAIN_RESET_END (R433). -/
  | domainResetEnd (d : Domain)
  /-- BEACON_RECEIVE (R119). -/
  | beaconReceive (node : NodeId) (counts : List Nat)
  /-- STANDBY_REPLICATE (R116). -/
  | standbyReplicate (seq : Nat) (r : Replica)
  /-- GENERATION_DELTA_RECEIVE (R123). -/
  | generationDeltaReceive (h : DbHead) (nodes : List NodeRec) (links : List LinkRec)
  /-- HELLO_STOP (R135). -/
  | helloStop (node : NodeId)
  /-- RAMP_LIMIT_FORWARD (R390). -/
  | rampLimitForward (node : NodeId) (r : RampForward)
  /-- TRAY_FAULT_HOLD_EXPIRY (R493). -/
  | trayFaultHoldExpiry (low : BitVec 16)
  /-- SLOT_12V_RISE (R549). -/
  | slot12vRise (aux : BitVec 2)
  /-- EXT_TRST_N_FALL (R541). -/
  | extTrstNFall
  deriving DecidableEq, Repr

end Sys2Proof
end

