-- ==== Sys2Proof/Machine/Bits.lean ====
section
/-!
DEFINITION. Bit fields, little-endian bytes (00 R13), saturating counts and the two CRCs (00 R562, 03 Table 3.6).
-/
namespace Sys2Proof.Machine

/-- The field of `n` bits of a word that begins at bit `lo`, as a number (00 R13). -/
def bits {m : Nat} (w : BitVec m) (lo n : Nat) : Nat := w.toNat / 2 ^ lo % 2 ^ n

/-- Bit `i` of a word. -/
def bitAt {m : Nat} (w : BitVec m) (i : Nat) : Bool := w.getLsbD i

/-- The field of `n` bits of a number that begins at bit `lo`. -/
def nbits (w lo n : Nat) : Nat := w / 2 ^ lo % 2 ^ n

/-- Fields placed at their lowest bits, summed. -/
def pack (l : List (Nat × Nat)) : Nat := l.foldl (fun a f => a + f.2 * 2 ^ f.1) 0

/-- A register word assembled from its fields (18 R505). -/
def word (l : List (Nat × Nat)) : Word := BitVec.ofNat 32 (pack l)

/-- A flag as a field of one bit. -/
def flag (b : Bool) : Nat := b.toNat

/-- The mask `w` with bit `i` set to `b`. -/
def setBit {m : Nat} (w : BitVec m) (i : Nat) (b : Bool) : BitVec m :=
  if b then w ||| BitVec.ofNat m (2 ^ i) else w &&& ~~~ (BitVec.ofNat m (2 ^ i))

/-- How many ones a mask has among its bits `0 .. n - 1`. -/
def onesBelow {m : Nat} (w : BitVec m) (n : Nat) : Nat := ((List.range n).filter fun i => w.getLsbD i).length

/-- How many ones a mask has. -/
def ones {m : Nat} (w : BitVec m) : Nat := onesBelow w m

/-- The positions of the ones of a mask, ascending. -/
def onePositions {m : Nat} (w : BitVec m) : List Nat := (List.range m).filter fun i => w.getLsbD i

/-- The mask of the listed positions. -/
def maskOf (m : Nat) (l : List Nat) : BitVec m := l.foldl (fun w i => setBit w i true) 0

/-- A counter of 32 bits that saturates (03 R102). -/
def satAdd32 (a b : Nat) : Nat := min (a + b) 0xFFFFFFFF

/-- A counter that saturates at `top`. -/
def satAdd (top a b : Nat) : Nat := min (a + b) top

/-- A number as `n` little-endian bytes (00 R13). -/
def leBytes : Nat → Nat → List Byte
  | 0, _ => []
  | n + 1, v => BitVec.ofNat 8 v :: leBytes n (v / 256)

/-- Little-endian bytes as a number (00 R13). -/
def ofLe : List Byte → Nat
  | [] => 0
  | b :: t => b.toNat + 256 * ofLe t

/-- The `n`-byte little-endian field at byte offset `o` of a record. -/
def leAt (l : List Byte) (o n : Nat) : Nat := ofLe ((l.drop o).take n)

/-- Whether every byte of the range `[o, o + n)` of a record is zero (00 R15). -/
def zeroAt (l : List Byte) (o n : Nat) : Bool := ((l.drop o).take n).all (· == 0)

/-- A signed 32-bit reading of a word. -/
def sint (w : Word) : Int := w.toInt

/-- One byte entering a CRC-16 with polynomial 0x1021, most significant bit first (00 R562). -/
def crc16Byte (c : BitVec 16) (b : Byte) : BitVec 16 :=
  (List.range 8).foldl (fun c _ => if c.msb then (c <<< 1) ^^^ 0x1021 else c <<< 1) (c ^^^ (b.setWidth 16 <<< 8))

/-- The CRC-16 of R562: initial value 0xFFFF, no reflection, no final complement. -/
def crc16 (l : List Byte) : BitVec 16 := l.foldl crc16Byte 0xFFFF

/-- One byte entering the CRC-32 of IEEE 802.3, least significant bit first. -/
def crc32Byte (c : Word) (b : Byte) : Word :=
  (List.range 8).foldl (fun c _ => if c.getLsbD 0 then (c >>> 1) ^^^ 0xEDB88320 else c >>> 1) (c ^^^ b.setWidth 32)

/-- The CRC-32 with the IEEE 802.3 polynomial (03 Table 3.6); initial value, reflection and final complement are
those of IEEE 802.3 itself. PRESUMED (log 13). -/
def crc32 (l : List Byte) : Word := ~~~ (l.foldl crc32Byte 0xFFFFFFFF)

/-- Whether the lowest-numbered position satisfying `p` among `0 .. n - 1` exists, and which it is. -/
def firstBelow (n : Nat) (p : Nat → Bool) : Option Nat := (List.range n).find? p

/-- `n` divided by `d`, rounded up. -/
def ceilDiv (n d : Nat) : Nat := (n + d - 1) / d

/-- The list with its `i`-th entry replaced. -/
def setNth {α : Type} (l : List α) (i : Nat) (v : α) : List α := l.set i v

end Sys2Proof.Machine
end

