-- ==== Sys2Proof/Machine/Crypto.lean ====
section
/-!
DEFINITION. SHA-384 and the check of an ECDSA P-384 signature (16 R454, R455), as FIPS 180-4 and FIPS 186 define them. PRESUMED
(log 13).
-/
namespace Sys2Proof.Machine

/-! ### SHA-384 -/

/-- The round constants. -/
def shaK : List (BitVec 64) :=
  [0x428A2F98D728AE22, 0x7137449123EF65CD, 0xB5C0FBCFEC4D3B2F, 0xE9B5DBA58189DBBC, 0x3956C25BF348B538,
   0x59F111F1B605D019, 0x923F82A4AF194F9B, 0xAB1C5ED5DA6D8118, 0xD807AA98A3030242, 0x12835B0145706FBE,
   0x243185BE4EE4B28C, 0x550C7DC3D5FFB4E2, 0x72BE5D74F27B896F, 0x80DEB1FE3B1696B1, 0x9BDC06A725C71235,
   0xC19BF174CF692694, 0xE49B69C19EF14AD2, 0xEFBE4786384F25E3, 0x0FC19DC68B8CD5B5, 0x240CA1CC77AC9C65] ++
  [0x2DE92C6F592B0275, 0x4A7484AA6EA6E483, 0x5CB0A9DCBD41FBD4, 0x76F988DA831153B5, 0x983E5152EE66DFAB,
   0xA831C66D2DB43210, 0xB00327C898FB213F, 0xBF597FC7BEEF0EE4, 0xC6E00BF33DA88FC2, 0xD5A79147930AA725,
   0x06CA6351E003826F, 0x142929670A0E6E70, 0x27B70A8546D22FFC, 0x2E1B21385C26C926, 0x4D2C6DFC5AC42AED,
   0x53380D139D95B3DF, 0x650A73548BAF63DE, 0x766A0ABB3C77B2A8, 0x81C2C92E47EDAEE6, 0x92722C851482353B] ++
  [0xA2BFE8A14CF10364, 0xA81A664BBC423001, 0xC24B8B70D0F89791, 0xC76C51A30654BE30, 0xD192E819D6EF5218,
   0xD69906245565A910, 0xF40E35855771202A, 0x106AA07032BBD1B8, 0x19A4C116B8D2D0C8, 0x1E376C085141AB53,
   0x2748774CDF8EEB99, 0x34B0BCB5E19B48A8, 0x391C0CB3C5C95A63, 0x4ED8AA4AE3418ACB, 0x5B9CCA4F7763E373,
   0x682E6FF3D6B2B8A3, 0x748F82EE5DEFB2FC, 0x78A5636F43172F60, 0x84C87814A1F0AB72, 0x8CC702081A6439EC] ++
  [0x90BEFFFA23631E28, 0xA4506CEBDE82BDE9, 0xBEF9A3F7B2C67915, 0xC67178F2E372532B, 0xCA273ECEEA26619C,
   0xD186B8C721C0C207, 0xEADA7DD6CDE0EB1E, 0xF57D4F7FEE6ED178, 0x06F067AA72176FBA, 0x0A637DC5A2C898A6,
   0x113F9804BEF90DAE, 0x1B710B35131C471B, 0x28DB77F523047D84, 0x32CAAB7B40C72493, 0x3C9EBE0A15C9BEBC,
   0x431D67C49C100D4C, 0x4CC5D4BECB3E42B6, 0x597F299CFC657E2A, 0x5FCB6FAB3AD6FAEC, 0x6C44198C4A475817]

/-- The initial hash value. -/
def sha384Init : List (BitVec 64) :=
  [0xCBBB9D5DC1059ED8, 0x629A292A367CD507, 0x9159015A3070DD17, 0x152FECD8F70E5939, 0x67332667FFC00B31,
   0x8EB44A8768581511, 0xDB0C2E0D64F98FA7, 0x47B5481DBEFA4FA4]

/-- Big-endian bytes as a number. -/
def ofBe (l : List Byte) : Nat := l.foldl (fun a b => a * 256 + b.toNat) 0

/-- A number as `n` big-endian bytes. -/
def beBytes (n v : Nat) : List Byte := (leBytes n v).reverse

/-- A message padded to whole blocks of 128 bytes. -/
def shaPad (l : List Byte) : List Byte :=
  let n := l.length
  l ++ [0x80] ++ List.replicate ((239 - n % 128) % 128) 0 ++ beBytes 16 (8 * n)

/-- The schedule grown by one word from its last sixteen, held newest first. -/
def shaNext (w : List (BitVec 64)) : List (BitVec 64) :=
  let x := fun (i : Nat) => w.getD i 0
  let s0 := (x 14).rotateRight 1 ^^^ (x 14).rotateRight 8 ^^^ (x 14) >>> 7
  let s1 := (x 1).rotateRight 19 ^^^ (x 1).rotateRight 61 ^^^ (x 1) >>> 6
  (s1 + x 6 + s0 + x 15) :: w

/-- The 80 words of a block's schedule. -/
def shaSchedule (b : List Byte) : List (BitVec 64) :=
  let first := (List.range 16).map fun i => BitVec.ofNat 64 (ofBe ((b.drop (8 * i)).take 8))
  ((List.range 64).foldl (fun w _ => shaNext w) first.reverse).reverse

/-- One round on the eight working words. -/
def shaRound (v : List (BitVec 64)) (kw : BitVec 64 × BitVec 64) : List (BitVec 64) :=
  match v with
  | [a, b, c, d, e, f, g, h] =>
    let t1 := h + (e.rotateRight 14 ^^^ e.rotateRight 18 ^^^ e.rotateRight 41) + ((e &&& f) ^^^ (~~~ e &&& g)) + kw.1 + kw.2
    let t2 := (a.rotateRight 28 ^^^ a.rotateRight 34 ^^^ a.rotateRight 39) + ((a &&& b) ^^^ (a &&& c) ^^^ (b &&& c))
    [t1 + t2, a, b, c, d + t1, e, f, g]
  | _ => v

/-- One block. -/
def shaBlock (h : List (BitVec 64)) (b : List Byte) : List (BitVec 64) :=
  (h.zip ((shaK.zip (shaSchedule b)).foldl shaRound h)).map fun p => p.1 + p.2

/-- Take `n` blocks off a padded message. -/
def shaBlocks (h : List (BitVec 64)) : List Byte → Nat → List (BitVec 64)
  | _, 0 => h
  | l, n + 1 => shaBlocks (shaBlock h (l.take 128)) (l.drop 128) n

/-- The SHA-384 of a message, 48 bytes. -/
def sha384 (l : List Byte) : List Byte :=
  let p := shaPad l
  (((shaBlocks sha384Init p (p.length / 128)).take 6).map fun w => beBytes 8 w.toNat).flatten

/-! ### ECDSA on P-384 -/

/-- The field's prime. -/
def p384 : Nat := 2 ^ 384 - 2 ^ 128 - 2 ^ 96 + 2 ^ 32 - 1
/-- The curve's constant term; the linear one is -3. -/
def p384B : Nat := 0xb3312fa7e23ee7e4988e056be3f82d19181d9c6efe8141120314088f5013875ac656398d8a2ed19d2a85c8edd3ec2aef
/-- The base point's order. -/
def p384N : Nat := 0xffffffffffffffffffffffffffffffffffffffffffffffffc7634d81f4372ddf581a0db248b0a77aecec196accc52973
/-- The base point. -/
def p384G : Nat × Nat :=
  (0xaa87ca22be8b05378eb1c71ef320ad746e1d3b628ba79b9859f741e082542a385502f25dbf55296c3a545e3872760ab7,
   0x3617de4a96262c6f5d9e98bf9292dc29f8f41dbd289a147ce9da3113b5f0b8c00a60b1ce1d7e819d7a431d7c90ea0e5f)

/-- A power modulo `m`, by the exponent's lowest `k` bits. -/
def powMod (m : Nat) (b e : Nat) : Nat → Nat
  | 0 => 1 % m
  | k + 1 =>
    let r := powMod m (b * b % m) (e / 2) k
    if e % 2 = 1 then b * r % m else r

/-- The inverse modulo a prime of 384 bits. -/
def invMod (m a : Nat) : Nat := powMod m (a % m) (m - 2) 384

/-- A point in Jacobian coordinates; Z 0 is the point at infinity. -/
abbrev JPoint := Nat × Nat × Nat

/-- Subtraction in the field. -/
def fsub (a b : Nat) : Nat := (a + p384 - b % p384) % p384

/-- A point doubled. -/
def jdouble : JPoint → JPoint
  | (x, y, z) =>
    let d := z * z % p384
    let g := y * y % p384
    let b := x * g % p384
    let al := 3 * (fsub x d) * ((x + d) % p384) % p384
    let x3 := fsub (al * al % p384) (8 * b)
    let z3 := fsub (fsub ((y + z) * (y + z) % p384) g) d
    (x3, fsub (al * fsub (4 * b % p384) x3 % p384) (8 * g * g), z3)

/-- Two points added. -/
def jadd (p q : JPoint) : JPoint :=
  match p, q with
  | (x1, y1, z1), (x2, y2, z2) =>
    if z1 = 0 then q
    else if z2 = 0 then p
    else
      let a := z1 * z1 % p384
      let b := z2 * z2 % p384
      let u1 := x1 * b % p384
      let u2 := x2 * a % p384
      let s1 := y1 * z2 % p384 * b % p384
      let s2 := y2 * z1 % p384 * a % p384
      if u1 = u2 then (if s1 = s2 then jdouble p else (1, 1, 0))
      else
        let h := fsub u2 u1
        let r := fsub s2 s1
        let h2 := h * h % p384
        let h3 := h * h2 % p384
        let v := u1 * h2 % p384
        let x3 := fsub (fsub (r * r % p384) h3) (2 * v)
        (x3, fsub (r * fsub v x3 % p384) (s1 * h3), h * z1 % p384 * z2 % p384)

/-- A multiple of a point, by the factor's lowest `n` bits. -/
def jmul (k : Nat) (p : JPoint) : Nat → JPoint
  | 0 => (1, 1, 0)
  | n + 1 => let r := jmul (k / 2) (jdouble p) n; if k % 2 = 1 then jadd p r else r

/-- Whether an affine point lies on the curve. -/
def onCurve (x y : Nat) : Bool :=
  decide (x < p384) && decide (y < p384) && y * y % p384 == (x * x * x + (p384 - 3) * x + p384B) % p384

/-- Whether a signature, r then s, verifies over a message under a public key, x then y, both 96 bytes. -/
def ecdsaOk (key sig msg : List Byte) : Bool :=
  let x := ofBe (key.take 48)
  let y := ofBe ((key.drop 48).take 48)
  let r := ofBe (sig.take 48)
  let s := ofBe ((sig.drop 48).take 48)
  if onCurve x y ∧ 0 < r ∧ r < p384N ∧ 0 < s ∧ s < p384N then
    let e := ofBe (sha384 msg)
    let w := invMod p384N s
    let p := jadd (jmul (e * w % p384N) (p384G.1, p384G.2, 1) 384) (jmul (r * w % p384N) (x, y, 1) 384)
    if p.2.2 = 0 then false
    else
      let zi := invMod p384 p.2.2
      p.1 * (zi * zi % p384) % p384 % p384N == r
  else false

end Sys2Proof.Machine
end

