-- ==== Sys2Proof/Config.lean ====
section
/-!
DEFINITION. What the spec leaves open: free values, which nothing constrains, and the constants of the parts list.
-/
namespace Sys2Proof

/-- The value of a result the spec does not state, fresh at each use (log 7): the step applies it to the free-value
counter of the state. It has no body, so nothing can be proved of it but what holds of every value. -/
opaque Config.freeBits : Nat → BitVec 64

/-- A result the spec does not state that depends on its operands alone (log 7). -/
opaque Config.freeOf : List Nat → BitVec 64

/-- A byte string the spec does not state (a signature): the `n`-th byte of the value with this number (log 7). -/
opaque Config.freeByte : Nat → Nat → Byte

/-- What an unlisted byte of HBM, of a tile store or of host memory reads as. DESIGN CHOICE (log 6). -/
def Config.blank : Byte := 0

/-- What an erased or never written byte of the flash device reads as (16 R464). DESIGN CHOICE (log 6). -/
def Config.erased : Byte := 0xFF

end Sys2Proof
end

