-- ==== Sys2Proof/Machine/Flags.lean ====
section
/-!
DEFINITION. The sticky numeric flags of a context (08 R265).
-/
namespace Sys2Proof.Machine

/-- The numeric flags: bit 0 INVALID, bit 1 OVERFLOW, bit 2 SATURATED, bit 3 NAN_IN (08 R265). -/
abbrev NumFlags := BitVec 4

/-- No flag set: their value at step release (08 R265). -/
def noFlags : NumFlags := 0
/-- A NaN was produced from operands none of which was NaN. -/
def flagInvalid : NumFlags := 1
/-- A finite result became infinity, or an E4M3 NaN, through overflow. -/
def flagOverflow : NumFlags := 2
/-- A conversion replaced a value with a limit of its destination instead of overflowing. -/
def flagSaturated : NumFlags := 4
/-- An operand was NaN. -/
def flagNanIn : NumFlags := 8

/-- A flag set on a condition. -/
def flagIf (b : Bool) (f : NumFlags) : NumFlags := if b then f else noFlags

/-- The flags of a list of results together: they are sticky (08 R265). -/
def joinFlags (l : List NumFlags) : NumFlags := l.foldl (· ||| ·) noFlags

/-- The flags of a result that arose as a NaN or not from operands (08 R265): NAN_IN when an operand was NaN, INVALID when
a NaN arose from operands none of which was. -/
def nanFlags (operandNan resultNan : Bool) : NumFlags :=
  flagIf operandNan flagNanIn ||| flagIf (resultNan && !operandNan) flagInvalid

end Sys2Proof.Machine
end

