-- ==== Sys2Proof/Machine/Num.lean ====
section
/-!
DEFINITION. The eight number formats, rounding, conversions and exact arithmetic (08 R255–R266).
-/
namespace Sys2Proof.Machine

/-- A value of a floating-point format: NaN (all alike, R256), an infinity, or (−1)^neg × m × 2^e; a zero has m = 0. -/
inductive Num where
  | nan
  | inf (neg : Bool)
  | fin (neg : Bool) (m : Nat) (e : Int)
  deriving DecidableEq, Repr

/-- A floating-point format (08 Table 8.5): exponent and fraction widths, bias, the largest finite magnitude's encoding,
the canonical NaN, and whether it encodes infinity. -/
structure Fmt where
  expBits : Nat
  fracBits : Nat
  bias : Nat
  maxCode : Nat
  nanCode : Nat
  hasInf : Bool
  deriving DecidableEq, Repr

/-- FP32. -/
def fp32 : Fmt := { expBits := 8, fracBits := 23, bias := 127, maxCode := 0x7F7FFFFF, nanCode := 0x7FC00000, hasInf := true }
/-- FP16. -/
def fp16 : Fmt := { expBits := 5, fracBits := 10, bias := 15, maxCode := 0x7BFF, nanCode := 0x7E00, hasInf := true }
/-- BF16. -/
def bf16 : Fmt := { expBits := 8, fracBits := 7, bias := 127, maxCode := 0x7F7F, nanCode := 0x7FC0, hasInf := true }
/-- E4M3: no infinity; only exponent 15 with fraction 7 is NaN. -/
def e4m3 : Fmt := { expBits := 4, fracBits := 3, bias := 7, maxCode := 0x7E, nanCode := 0x7F, hasInf := false }
/-- E5M2. -/
def e5m2 : Fmt := { expBits := 5, fracBits := 2, bias := 15, maxCode := 0x7B, nanCode := 0x7E, hasInf := true }

/-- The eight formats and INT32, by format code (09 R279). -/
inductive Format where
  | fp32 | fp16 | bf16 | e4m3 | e5m2 | int8 | int4 | nb4 | int32
  deriving DecidableEq, Repr

/-- The format of a code; 0x9–0xF are reserved. -/
def formatOf (c : Nat) : Option Format :=
  [Format.fp32, .fp16, .bf16, .e4m3, .e5m2, .int8, .int4, .nb4, .int32][c]?

/-- The floating-point format of a format code, if it is one. -/
def Format.float? : Format → Option Fmt
  | .fp32 => some Machine.fp32
  | .fp16 => some Machine.fp16
  | .bf16 => some Machine.bf16
  | .e4m3 => some Machine.e4m3
  | .e5m2 => some Machine.e5m2
  | _ => none

/-- Whether lanes of the format widen to INT32; the others widen to FP32 (08 R247). -/
def Format.isInt : Format → Bool
  | .int8 | .int4 | .int32 => true
  | _ => false

/-- The width in bits of an integer format. -/
def Format.intBits : Format → Nat
  | .int8 => 8
  | .int4 => 4
  | _ => 32

/-- The bytes that `n` elements take, packed without padding; NB4 in blocks of 32 (08 Table 8.3, R259). -/
def Format.bytes (f : Format) (n : Nat) : Nat :=
  match f with
  | .fp32 | .int32 => 4 * n
  | .fp16 | .bf16 => 2 * n
  | .e4m3 | .e5m2 | .int8 => n
  | .int4 => n / 2
  | .nb4 => n / 32 * 17

/-! ### Encodings -/

/-- The value that an encoding names (08 R255–R257). -/
def Fmt.decode (t : Fmt) (w : Nat) : Num :=
  let neg := decide (w / 2 ^ (t.expBits + t.fracBits) % 2 = 1)
  let x := w / 2 ^ t.fracBits % 2 ^ t.expBits
  let fr := w % 2 ^ t.fracBits
  if x = 0 then .fin neg fr (1 - (t.bias : Int) - t.fracBits)
  else if t.maxCode < x * 2 ^ t.fracBits + fr then (if t.hasInf && decide (fr = 0) then .inf neg else .nan)
  else .fin neg (2 ^ t.fracBits + fr) ((x : Int) - t.bias - t.fracBits)

/-- How a narrowing rounds: to nearest even, toward zero, or stochastically by r[15:0] (08 R260). -/
inductive Rounding where
  | nearest
  | zero
  | stochastic (r : Nat)
  deriving DecidableEq, Repr

/-- The multiple of 2^q to which m × 2^e rounds (08 R260). -/
def roundAt (md : Rounding) (m : Nat) (e q : Int) : Nat :=
  if q ≤ e then m * 2 ^ (e - q).toNat
  else
    let u := 2 ^ (q - e).toNat
    let hi := m / u
    let lo := m % u
    match md with
    | .nearest => if u < 2 * lo ∨ (2 * lo = u ∧ hi % 2 = 1) then hi + 1 else hi
    | .zero => hi
    | .stochastic r => (m * 65536 + r % 65536 * u) / (u * 65536)

/-- The exponent of the destination's last place at the magnitude m × 2^e, with subnormal spacing below the smallest
normal (08 R260). -/
def Fmt.ulp (t : Fmt) (m : Nat) (e : Int) : Int :=
  max ((m.log2 : Int) + e - t.fracBits) (1 - (t.bias : Int) - t.fracBits)

/-- The magnitude code of k × 2^q, where k is at most 2^(f+1) and q a last place of the format. -/
def Fmt.magCode (t : Fmt) (k : Nat) (q : Int) : Nat :=
  if k < 2 ^ t.fracBits then k
  else (q + (t.fracBits : Int) + t.bias).toNat * 2 ^ t.fracBits + (k - 2 ^ t.fracBits)

/-- The rounded magnitude of m × 2^e as a magnitude code; a code above the largest finite one is an overflow. -/
def Fmt.roundCode (t : Fmt) (md : Rounding) (m : Nat) (e : Int) : Nat :=
  if m = 0 then 0 else t.magCode (roundAt md m e (t.ulp m e)) (t.ulp m e)

/-- A magnitude code with its sign. -/
def Fmt.signed (t : Fmt) (neg : Bool) (c : Nat) : Nat := flag neg * 2 ^ (t.expBits + t.fracBits) + c

/-- The code just above the largest finite magnitude of a format with infinity: infinity's. -/
def Fmt.infCode (t : Fmt) : Nat := t.maxCode + 1

/-- Narrow a value into a format, with the flags it sets (08 R256, R263 Table 8.6, R265). -/
def Fmt.narrow (t : Fmt) (md : Rounding) (sat : Bool) : Num → Nat × NumFlags
  | .nan => (t.nanCode, flagNanIn)
  | .inf neg =>
    if t.hasInf then (t.signed neg t.infCode, noFlags)
    else if sat then (t.signed neg t.maxCode, flagSaturated)
    else (t.nanCode, flagInvalid)
  | .fin neg m e =>
    let c := t.roundCode md m e
    if c ≤ t.maxCode then (t.signed neg c, noFlags)
    else if md = .zero ∨ sat then (t.signed neg t.maxCode, flagSaturated)
    else if t.hasInf then (t.signed neg t.infCode, flagOverflow)
    else (t.nanCode, flagOverflow)

/-- A value clamped into a two's-complement integer of `n` bits, and whether it was clamped. -/
def clampInt (n : Nat) (v : Int) : Int × Bool :=
  if v < -(2 ^ (n - 1) : Int) then (-(2 ^ (n - 1) : Int), true)
  else if (2 ^ (n - 1) : Int) - 1 < v then ((2 ^ (n - 1) : Int) - 1, true)
  else (v, false)

/-- The two's-complement bits of an integer. -/
def intBitsOf (n : Nat) (v : Int) : Nat := (v % (2 ^ n : Int)).toNat

/-- The integer that `n` two's-complement bits name (08 R258). -/
def intOf (n w : Nat) : Int := if w % 2 ^ n < 2 ^ (n - 1) then (w % 2 ^ n : Nat) else (w % 2 ^ n : Nat) - (2 ^ n : Int)

/-- A finite value rounded to an integer. -/
def roundInt (md : Rounding) (neg : Bool) (m : Nat) (e : Int) : Int :=
  if neg then -(roundAt md m e 0 : Int) else roundAt md m e 0

/-- Narrow a floating-point value into an integer of `n` bits: NaN gives 0, everything else clamps (08 Table 8.6). -/
def toIntBits (n : Nat) (md : Rounding) : Num → Nat × NumFlags
  | .nan => (0, flagNanIn)
  | .inf neg => (intBitsOf n (if neg then -(2 ^ (n - 1) : Int) else (2 ^ (n - 1) : Int) - 1), flagSaturated)
  | .fin neg m e =>
    let (v, c) := clampInt n (roundInt md neg m e)
    (intBitsOf n v, flagIf c flagSaturated)

/-- An integer as an exact value. -/
def numOfInt (v : Int) : Num := .fin (decide (v < 0)) v.natAbs 0

/-! ### Elements in memory and lanes -/

/-- The value of a lane that holds FP32. -/
def laneNum (w : Word) : Num := fp32.decode w.toNat

/-- An exact FP32 value as a lane. -/
def numLane (x : Num) : Word := BitVec.ofNat 32 (fp32.narrow .nearest false x).1

/-- Element i of an NB4 run beginning at byte o: m_i × 2^(E − 127), or NaN for E above 0xFB (08 R259). -/
def nb4At (l : List Byte) (i : Nat) : Num :=
  let o := i / 32 * 17
  let x := leAt l o 1
  let b := leAt l (o + 1 + i % 32 / 2) 1
  let v := intOf 4 (if i % 2 = 0 then b else b / 16)
  if 0xFB < x then .nan else .fin (decide (v < 0)) v.natAbs ((x : Int) - 127)

/-- Element i of an integer format in a run of bytes (08 R258). -/
def intAt (f : Format) (l : List Byte) (i : Nat) : Int :=
  match f with
  | .int4 => intOf 4 (if i % 2 = 0 then leAt l (i / 2) 1 else leAt l (i / 2) 1 / 16)
  | .int8 => intOf 8 (leAt l i 1)
  | _ => intOf 32 (leAt l (4 * i) 4)

/-- Element i of a floating-point or NB4 format in a run of bytes. -/
def numAt (f : Format) (l : List Byte) (i : Nat) : Num :=
  match f with
  | .fp32 => fp32.decode (leAt l (4 * i) 4)
  | .fp16 => fp16.decode (leAt l (2 * i) 2)
  | .bf16 => bf16.decode (leAt l (2 * i) 2)
  | .e4m3 => e4m3.decode (leAt l i 1)
  | .e5m2 => e5m2.decode (leAt l i 1)
  | .nb4 => nb4At l i
  | _ => numOfInt (intAt f l i)

/-- Element i widened exactly to its lane: FP32, or INT32 for the integer formats (08 R247). -/
def laneAt (f : Format) (l : List Byte) (i : Nat) : Word :=
  if f.isInt then BitVec.ofNat 32 (intBitsOf 32 (intAt f l i)) else numLane (numAt f l i)

/-! ### The rounding generator (08 R261) -/

/-- The generator's seed at a step's release. -/
def rngSeed (srSeed stepNumber l : Nat) : Word :=
  let r := BitVec.ofNat 32 (srSeed + stepNumber * 0x9E3779B9 + l * 0x85EBCA6B)
  if r = 0 then 1 else r

/-- One advance of the generator. -/
def rngNext (r : Word) : Word :=
  let r := r ^^^ (r <<< 13)
  let r := r ^^^ (r >>> 17)
  r ^^^ (r <<< 5)

/-- The rounding of RM for one element, and the generator after it: it advances under RM 0b10 only (08 R260, R261). -/
def roundingOf (rm : Nat) (r : Word) : Rounding × Word :=
  if rm = 2 then (.stochastic (rngNext r).toNat, rngNext r) else (if rm = 1 then .zero else .nearest, r)

/-! ### Conversions (08 R260–R263) -/

/-- The value of a source element: an integer lane or a floating-point one. -/
def laneValue (isInt : Bool) (w : Word) : Num := if isInt then numOfInt w.toInt else laneNum w

/-- Convert one element that is read as an integer or as FP32 into a format other than NB4: its bits, its flags and the
generator after it (08 R260, R263). -/
def convertElem (srcInt : Bool) (dst : Format) (rm : Nat) (sat : Bool) (r : Word) (w : Word) : Nat × NumFlags × Word :=
  let (md, r') := roundingOf rm r
  match dst.float? with
  | some t =>
    let (b, f) := t.narrow md sat (laneValue srcInt w)
    (b, f, r')
  | none =>
    let (b, f) := toIntBits dst.intBits md (laneValue srcInt w)
    (b, f, r')

/-- Whether a value is NaN. -/
def Num.isNan (x : Num) : Bool := x == .nan
/-- Whether a value is infinite. -/
def Num.isInf : Num → Bool
  | .inf _ => true
  | _ => false

/-- floor(log2 of a nonzero finite magnitude), and nothing for the other values. -/
def Num.log2? : Num → Option Int
  | .fin _ m e => if m = 0 then none else some ((m.log2 : Int) + e)
  | _ => none

/-- The scale exponent E of a run whose largest magnitude has this floor(log2) (08 R262). -/
def nb4Scale (g : Int) : Nat := (max 0 (min 251 (g - 2 + 127))).toNat

/-- One element of an NB4 run at scale E, clamped to −8 .. 7, and whether it was clamped (08 R262). -/
def nb4Elem (md : Rounding) (e : Nat) : Num → Int × Bool
  | .fin neg m x =>
    let q := (roundAt md m x ((e : Int) - 127) : Int)
    clampInt 4 (if neg then -q else q)
  | _ => (0, false)

/-- Pairs of four-bit elements as bytes, the first in [3:0]. -/
def packNibbles : List Nat → List Byte
  | a :: b :: t => BitVec.ofNat 8 (a % 16 + b % 16 * 16) :: packNibbles t
  | [a] => [BitVec.ofNat 8 (a % 16)]
  | [] => []

/-- Quantise a run of 32 elements to an NB4 block (08 R262). -/
def nb4Block (md : Rounding) (xs : List Num) : List Byte × NumFlags :=
  if xs.any fun x => x.isNan || x.isInf then
    (0xFF :: List.replicate 16 0, nanFlags (xs.any Num.isNan) true)
  else
    match (xs.filterMap Num.log2?).max? with
    | none => (0x00 :: List.replicate 16 0, noFlags)
    | some g =>
      let e := nb4Scale g
      let qs := xs.map (nb4Elem md e)
      (BitVec.ofNat 8 e :: packNibbles (qs.map fun q => intBitsOf 4 q.1), flagIf (qs.any (·.2)) flagSaturated)

/-- Converted elements as packed bytes (08 Table 8.3). -/
def packElems (f : Format) (l : List Nat) : List Byte :=
  match f with
  | .int4 => packNibbles l
  | .fp16 | .bf16 => l.flatMap (leBytes 2)
  | .e4m3 | .e5m2 | .int8 => l.flatMap (leBytes 1)
  | _ => l.flatMap (leBytes 4)

/-- Convert elements in ascending order, the generator running through them (08 R261). -/
def convertElems (srcInt : Bool) (dst : Format) (rm : Nat) (sat : Bool) : Word → List Word → List Nat × NumFlags × Word
  | r, [] => ([], noFlags, r)
  | r, w :: t =>
    let (b, f, r1) := convertElem srcInt dst rm sat r w
    let (bs, fs, r2) := convertElems srcInt dst rm sat r1 t
    (b :: bs, f ||| fs, r2)

/-- Whether a conversion copies the lane bits as they stand: an integer lane to INT32. -/
def sameLane (srcInt : Bool) (dst : Format) : Bool := srcInt && dst == .int32

/-- Convert a row of lanes (a multiple of 32) into a format's bytes in memory (08 R246, R262, R263). -/
def convertRow (srcInt : Bool) (dst : Format) (rm : Nat) (sat : Bool) (r : Word) (ws : List Word) :
    List Byte × NumFlags × Word :=
  if dst = .nb4 then
    let md := (roundingOf rm r).1
    let bs := (List.range (ws.length / 32)).map fun i =>
      nb4Block md (((ws.drop (32 * i)).take 32).map (laneValue srcInt))
    (bs.flatMap (·.1), joinFlags (bs.map (·.2)), r)
  else
    let (bs, f, r') := convertElems srcInt dst rm sat r ws
    (packElems dst bs, f, r')

/-! ### Exact arithmetic -/

/-- The sign of a number as an integer factor. -/
def signInt (neg : Bool) (m : Nat) : Int := if neg then -(m : Int) else m

/-- The exact product of two values: NaN for NaN or infinity times zero (08 R264). -/
def Num.mul : Num → Num → Num
  | .nan, _ => .nan
  | _, .nan => .nan
  | .inf a, .inf b => .inf (a != b)
  | .inf a, .fin b m _ => if m = 0 then .nan else .inf (a != b)
  | .fin a m _, .inf b => if m = 0 then .nan else .inf (a != b)
  | .fin a m x, .fin b n y => .fin (a != b) (m * n) (x + y)

/-- A finite value as a multiple of 2^−320, which every term of R243 is. -/
def Num.scaled : Num → Int
  | .fin neg m e => signInt neg (m * 2 ^ (e + 320).toNat)
  | _ => 0

/-- Whether a value is −0. -/
def Num.isNegZero : Num → Bool
  | .fin neg m _ => neg && m == 0
  | _ => false

/-- The exact sum of values (08 R243, R256, R264): NaN when one is NaN or both infinities occur, the infinity that occurs,
and otherwise the exact sum, whose zero is −0 only when every term is −0. -/
def sumExact (ts : List Num) : Num :=
  if ts.any Num.isNan || (ts.contains (.inf true) && ts.contains (.inf false)) then .nan
  else if ts.contains (.inf true) then .inf true
  else if ts.contains (.inf false) then .inf false
  else
    let s := ts.foldl (fun a t => a + t.scaled) (0 : Int)
    if s = 0 then .fin (ts.all Num.isNegZero) 0 0 else .fin (decide (s < 0)) s.natAbs (-320)

/-- Round a result to FP32 to nearest even (08 R243, R247), with its flags; `operandNan` when an operand was NaN. -/
def roundFp32 (operandNan : Bool) (x : Num) : Word × NumFlags :=
  let (b, f) := fp32.narrow .nearest false x
  (BitVec.ofNat 32 b, nanFlags operandNan x.isNan ||| (f &&& flagOverflow))

/-- One element of a matrix block on floating-point operands (08 R243, R264): the accumulator before it (or 0) and the
pairs a[m][k], b[k][n]. -/
def mmaElem (c : Num) (ps : List (Num × Num)) : Word × NumFlags :=
  roundFp32 (c.isNan || ps.any fun p => p.1.isNan || p.2.isNan) (sumExact (c :: ps.map fun p => p.1.mul p.2))

/-- One element of a matrix block on integer operands: modulo 2^32, unflagged (08 R243). -/
def mmaIntElem (c : Word) (ps : List (Int × Int)) : Word :=
  BitVec.ofInt 32 (ps.foldl (fun a p => a + p.1 * p.2) c.toInt)

/-! ### The vector unit (08 R247) -/

/-- The quotient of two nonzero magnitudes to more places than FP32 keeps, its last bit telling an inexact one. -/
def divMag (m n : Nat) : Nat × Int :=
  let s := n.log2 + 64
  let q := m * 2 ^ s / n
  (2 * q + (if m * 2 ^ s % n = 0 then 0 else 1), -(s : Int) - 1)

/-- Integer square root by `k` bits, from the top. -/
def isqrtGo (n : Nat) : Nat → Nat → Nat
  | 0, r => r
  | k + 1, r => isqrtGo n k (if (r + 2 ^ k) * (r + 2 ^ k) ≤ n then r + 2 ^ k else r)

/-- The integer square root. -/
def isqrt (n : Nat) : Nat := isqrtGo n (n.log2 / 2 + 1) 0

/-- The square root of a nonzero m × 2^e to more places than FP32 keeps, its last bit telling an inexact one. -/
def sqrtMag (m : Nat) (e : Int) : Nat × Int :=
  let k : Nat := if e % 2 = 0 then 64 else 65
  let w := m * 2 ^ k
  let r := isqrt w
  (2 * r + (if r * r = w then 0 else 1), (e - k) / 2 - 1)

/-- ln 2 × 2^200, rounded down. -/
def ln2Scaled : Nat := 1113844574712631719546256151097547306333272293549090750737802

/-- The sum r^j / j! of the terms after `t`, in units of 2^−200. -/
def expSum (r : Nat) : Nat → Nat → Nat → Nat
  | 0, _, _ => 0
  | k + 1, j, t => t + expSum r k (j + 1) (t * r / (2 ^ 200 * (j + 1)))

/-- e raised to ±m × 2^e as a magnitude v × 2^x with more than 190 exact places; for a finite FP32 argument within
(−128, 128). -/
def expMag (neg : Bool) (m : Nat) (e : Int) : Nat × Int :=
  let x := signInt neg (m * 2 ^ (e + 200).toNat)
  let k := x / (ln2Scaled : Int)
  (expSum (x - k * ln2Scaled).toNat 60 0 (2 ^ 200), k - 200)

/-- The sum z^(2j+1) / (2j+1) of the terms after `t`, in units of 2^−200. -/
def atanhSum (z2 : Nat) : Nat → Nat → Nat → Nat
  | 0, _, _ => 0
  | k + 1, j, t => t / (2 * j + 1) + atanhSum z2 k (j + 1) (t * z2 / 2 ^ 200)

/-- The natural logarithm of a positive m × 2^e, in units of 2^−200. -/
def logScaled (m : Nat) (e : Int) : Int :=
  let k := m.log2
  let z := (m - 2 ^ k) * 2 ^ 200 / (m + 2 ^ k)
  ((k : Int) + e) * ln2Scaled + 2 * atanhSum (z * z / 2 ^ 200) 70 0 z

/-- An FP32 result within 2 units in the last place of an exact one whose magnitude is v × 2^x (08 R247): R247 fixes no
more, so the place among those is a free value of the function and its operand (log 7). -/
def nearUlp (code : Nat) (operand : Word) (exact : Bool) (neg : Bool) (v : Nat) (x : Int) : Word × NumFlags :=
  let c := fp32.roundCode .zero v x
  if fp32.maxCode < c then (BitVec.ofNat 32 (fp32.signed neg fp32.infCode), flagOverflow)
  else
    let k := (Config.freeOf [code, operand.toNat]).toNat
    let off : Int := if exact then (k % 5 : Nat) - 2 else (k % 4 : Nat) - 1
    let c' := max 0 ((c : Int) + off)
    if (fp32.maxCode : Int) < c' then (BitVec.ofNat 32 (fp32.signed neg fp32.infCode), flagOverflow)
    else (BitVec.ofNat 32 (fp32.signed neg c'.toNat), noFlags)

/-- A result the spec does not state: a free value of the function and its operands (log 7). -/
def unstated (code : Nat) (ops : List Word) : Word := (Config.freeOf (code :: ops.map (·.toNat))).setWidth 32

/-- Whether x is less than y, with −0 less than +0; never with a NaN (08 R264). -/
def Num.below (x y : Num) : Bool :=
  match x, y with
  | .inf a, .inf b => a && !b
  | .inf a, .fin _ _ _ => a
  | .fin _ _ _, .inf b => !b
  | .fin a m e, .fin b n f =>
    let i := signInt a (m * 2 ^ (e + 320).toNat)
    let j := signInt b (n * 2 ^ (f + 320).toNat)
    decide (i < j) || (decide (i = j) && decide (m = 0) && a && !b)
  | _, _ => false

/-- Whether x is less than y as numbers; false with a NaN (08 R264). -/
def Num.lt (x y : Num) : Bool := x.below y && !(x.scaled == y.scaled && !x.isInf && !y.isInf)

/-- Whether x equals y as numbers; false with a NaN (08 R264). −0 equals +0. -/
def Num.eqv : Num → Num → Bool
  | .inf a, .inf b => a == b
  | .fin a m e, .fin b n f => (Num.fin a m e).scaled == (Num.fin b n f).scaled
  | _, _ => false

/-- What a comparison writes: the spec gives no encoding of true or false, so each is a free value (log 7). -/
def truthLane (b : Bool) : Word := unstated 0x06 [BitVec.ofNat 32 (flag b)]

/-- x / y in FP32 (08 R247); a nonzero finite value divided by zero has no stated result (log 7). -/
def divFp32 (a b : Word) : Word × NumFlags :=
  let x := laneNum a
  let y := laneNum b
  let nan := x.isNan || y.isNan
  match x, y with
  | .inf s, .fin t _ _ => roundFp32 false (.inf (s != t))
  | .fin s _ _, .inf t => roundFp32 false (.fin (s != t) 0 0)
  | .fin s m e, .fin t n f =>
    if n = 0 then (if m = 0 then roundFp32 false .nan else (unstated 0x10 [a, b], noFlags))
    else if m = 0 then roundFp32 false (.fin (s != t) 0 0)
    else
      let (q, x) := divMag m n
      roundFp32 false (.fin (s != t) q (x + e - f))
  | _, _ => roundFp32 nan .nan

/-- The square root in FP32 (08 R247). -/
def sqrtFp32 (a : Word) : Word × NumFlags :=
  match laneNum a with
  | .nan => roundFp32 true .nan
  | .inf s => roundFp32 false (if s then .nan else .inf false)
  | .fin s m e =>
    if m = 0 then roundFp32 false (.fin s 0 0)
    else if s then roundFp32 false .nan
    else
      let (q, x) := sqrtMag m e
      roundFp32 false (.fin false q x)

/-- The exponential in FP32 (08 R247). -/
def expFp32 (a : Word) : Word × NumFlags :=
  match laneNum a with
  | .nan => roundFp32 true .nan
  | .inf s => roundFp32 false (if s then .fin false 0 0 else .inf false)
  | .fin s m e =>
    if (m.log2 : Int) + e ≥ 7 ∧ m ≠ 0 then
      (if s then nearUlp 0x13 a false false 0 0 else roundFp32 false (.fin false 1 200))
    else
      let (v, x) := expMag s m e
      nearUlp 0x13 a (m == 0) false v x

/-- The logarithm in FP32 (08 R247); that of zero has no stated result (log 7). -/
def logFp32 (a : Word) : Word × NumFlags :=
  match laneNum a with
  | .nan => roundFp32 true .nan
  | .inf s => roundFp32 false (if s then .nan else .inf false)
  | .fin s m e =>
    if m = 0 then (unstated 0x14 [a], noFlags)
    else if s then roundFp32 false .nan
    else
      let y := logScaled m e
      nearUlp 0x14 a (y == 0) (decide (y < 0)) y.natAbs (-200)

/-- Minimum or maximum, NaN when either operand is (08 R264). -/
def minmaxFp32 (takeLess : Bool) (a b : Word) : Word × NumFlags :=
  let x := laneNum a
  let y := laneNum b
  if x.isNan || y.isNan then roundFp32 true .nan
  else if x.below y == takeLess then (a, noFlags) else (b, noFlags)

/-- A comparison's lane: false with a NaN, whose presence sets NAN_IN (08 R264, R265). -/
def cmpFp32 (r : Num → Num → Bool) (a b : Word) : Word × NumFlags :=
  let x := laneNum a
  let y := laneNum b
  (truthLane (r x y), flagIf (x.isNan || y.isNan) flagNanIn)

/-- The exact sum of lanes' values rounded to FP32. -/
def addFp32 (a b : Word) : Word × NumFlags :=
  let x := laneNum a
  let y := laneNum b
  roundFp32 (x.isNan || y.isNan) (sumExact [x, y])

/-- A lane with its FP32 sign bit inverted. -/
def negLane (a : Word) : Word := a ^^^ 0x80000000

/-- a × b in FP32. -/
def mulFp32 (a b : Word) : Word × NumFlags :=
  let x := laneNum a
  let y := laneNum b
  roundFp32 (x.isNan || y.isNan) (x.mul y)

/-- a × b + c in FP32, rounded once. -/
def fmaFp32 (a b c : Word) : Word × NumFlags := mmaElem (laneNum c) [(laneNum a, laneNum b)]

/-- Whether a FUNC code is one of Table 9.8's. -/
def funcOk (f : Nat) : Bool := decide (f ≤ 0x0A) || (decide (0x10 ≤ f) && decide (f ≤ 0x14))

/-- One lane of a vector operation (09 R279, 08 R247): FUNC, VA, VB, VC. -/
def vopLane (f : Nat) (a b c : Word) : Word × NumFlags :=
  match f with
  | 0x00 => addFp32 a b
  | 0x01 => addFp32 a (negLane b)
  | 0x02 => mulFp32 a b
  | 0x03 => fmaFp32 a b c
  | 0x04 => minmaxFp32 true a b
  | 0x05 => minmaxFp32 false a b
  | 0x06 => cmpFp32 Num.lt a b
  | 0x07 => cmpFp32 Num.eqv a b
  | 0x08 => (a + b, noFlags)
  | 0x09 => (a - b, noFlags)
  | 0x0A => (a * b, noFlags)
  | 0x10 => divFp32 a b
  | 0x11 => sqrtFp32 a
  | 0x12 => divFp32 0x3F800000 a
  | 0x13 => expFp32 a
  | _ => logFp32 a

end Sys2Proof.Machine
end

