-- ==== Sys2Proof/Machine/State.lean ====
section
/-!
DEFINITION. The state of the block: one Volet package with its tray's Farnis controller, the tray's scan multiplexer and
the S1 card's power controller, as plain data; the reasons a step can stop; and the state after reset.
-/
namespace Sys2Proof.Machine

/-- Why the machine stops with a fault. -/
inductive Fault where
  /-- A command names a device byte address that the address map does not hold (10 R298, R299). Raised by
  HBM_UNCORRECTABLE. Safe: the machine stops where no such line can exist. -/
  | noSuchAddress
  deriving DecidableEq, Repr

/-- Why a command has no meaning. -/
inductive Refusal where
  /-- A command the model does not give a meaning to yet. Raised by `exec`'s arms only. Safe. -/
  | notModelled (mnemonic : String)
  deriving DecidableEq, Repr

/-! ### Straps, fuses (01 R24, 02 R53) -/

/-- The strap pins as the package can sample them (01 Table 1.4). -/
structure Pins where
  site : BitVec 4
  siteP : Bool
  form : Bool
  slot : BitVec 3
  rcol : BitVec 2
  rrow : BitVec 2
  pod : BitVec 4
  rackP : Bool
  deriving DecidableEq, Repr

/-- What is fused at assembly (02 Table 2.8, 04 R110, 16 R455). -/
structure Fuse where
  stepping : BitVec 4
  grade : BitVec 2
  hbm3e : Bool
  cdieMask : BitVec 4
  stackMask : BitVec 8
  iodieMask : BitVec 2
  uid : DWord
  keyHash : List (BitVec 384)
  keyRevoked : BitVec 4
  svnMin : BitVec 8
  deriving DecidableEq, Repr

/-! ### Timebase and corner monitors (02 R63–R73) -/

/-- What clocks the transmit lanes and the timebase (02 R69, R73). -/
inductive ClockSource where
  | trayReference
  | parentLink
  | internal
  deriving DecidableEq, Repr

/-- The package timebase and its place in the time tree (02 Tables 2.9–2.11); `parentLost` from the failure of the parent link until
Halyard names a new parent (02 R71). -/
structure TimeBlk where
  now : DWord
  running : Bool
  latch : Table Word
  farnisLatch : Word
  locked : Bool
  root : Bool
  holdover : Bool
  degraded : Bool
  depth : Nat
  parentDir : Nat
  parentPos : Nat
  refclkOk : Bool
  parentNode : NodeId
  offset : Word
  everLocked : Bool
  source : ClockSource
  slew : Int
  slewPhase : Nat
  parentLost : Bool
  deriving DecidableEq, Repr

/-- REEF_CORNER_STAT (02 Table 2.12). -/
structure Corner where
  uv : BitVec 4
  ot : BitVec 4
  uvSeen : BitVec 4
  otSeen : BitVec 4
  thermHold : BitVec 4
  deriving DecidableEq, Repr

/-! ### Shroud, Stay and Backstay links (03) -/

/-- Training states of a port (03 Table 3.3). -/
inductive PortState where
  | off | detect | sync | deskew | exchange | equalise | verify | active | retrain | holdoff | down
  deriving DecidableEq, Repr

/-- SHR_PORT_STAT but for what follows from it (03 Table 3.13), and the reason of the port's last failure (03 R86). -/
structure PortStat where
  state : PortState
  gen : Nat
  width : Nat
  lanes : LaneMask
  rxGood : LaneMask
  reason : Nat
  dir : Nat
  pos : Nat
  assigned : Bool
  lastFail : Nat
  deriving DecidableEq, Repr

/-- SHR_PORT_FAR (03 Table 3.14). -/
structure PortFar where
  node : NodeId
  dir : Nat
  pos : Nat
  preset : Nat
  cls : Nat
  valid : Bool
  deriving DecidableEq, Repr

/-- What a port keeps while it trains (03 R81–R90); `barred` are the lanes that fast retrains removed since the last training from DETECT
(R90). -/
structure PortTrain where
  genCap : BitVec 2
  ownClass : Nat
  gen : Nat
  farGenCap : BitVec 2
  farClass : BitVec 2
  farRxGood : LaneMask
  farIdValid : Bool
  ts2Run : Nat
  lastTs2 : BitVec 128
  target : Nat
  locked : LaneMask
  aligned : LaneMask
  converged : LaneMask
  tries : Nat
  bestGen : Nat
  bestLanes : LaneMask
  attempts : Nat
  delayNs : Nat
  refHeld : Bool
  disabled : Bool
  barred : LaneMask
  deriving DecidableEq, Repr

/-- The two ends' arbitration of a fast retrain (03 R88, R89). -/
structure PortRetrain where
  own : Option Nat
  leads : Bool
  deriving DecidableEq, Repr

/-- An envelope held for replay (03 R92). -/
structure Envelope where
  lsn : Nat
  vc : Nat
  frame : Frame
  sentAt : DWord
  deriving DecidableEq, Repr

/-- A frame waiting in a transmit queue. -/
structure QFrame where
  vc : Nat
  frame : Frame
  since : DWord
  enters : Bool
  deriving DecidableEq, Repr

/-- A port's sending side (03 R92–R100); when the envelope on the wire ends, in ps of the timebase, and the LSN to replay next (R94). -/
structure PortTx where
  lsn : Nat
  retry : List Envelope
  replays : Nat
  queue : List QFrame
  credit : Table Nat
  farCount : Table Nat
  lastVc : Nat
  wireUntil : Nat
  resend : Option Nat
  mgmtSent : List (Nat × Nat)
  deriving DecidableEq, Repr

/-- A port's receiving side (03 R92, R93, R99). -/
structure PortRx where
  lsn : Nat
  gap : Bool
  freed : Table Nat
  deriving DecidableEq, Repr

/-- SHR port counters (03 Table 3.16), and the replays of the current millisecond (03 R103). -/
structure PortCnt where
  crc : Nat
  fecCorr : Nat
  fecUncorr : Nat
  replay : Nat
  retrain : Nat
  degrade : Nat
  loss : Nat
  proto : Nat
  replayTimes : List DWord
  deriving DecidableEq, Repr

/-- One Shroud or Backstay port; `session` counts the times its LSN and credit state was reset (03 R96), so that a frame received before
returns no credits after. -/
structure PortRec where
  stat : PortStat
  far : PortFar
  train : PortTrain
  rt : PortRetrain
  tx : PortTx
  rx : PortRx
  cnt : PortCnt
  session : Nat
  deriving DecidableEq, Repr

/-- The link block: preset, Stay links and the ports (03 Tables 3.12–3.17); the spare lane that stands in for each failed Stay lane,
under 1,024 × link + lane (03 R105), and each Stay link's replays of the current millisecond (R103). -/
structure Shr where
  preset : Nat
  presetOk : Bool
  genLimit : Nat
  ports : Table PortRec
  stayOk : BitVec 12
  spareUsed : BitVec 12
  stayMap : Table (Option Nat)
  stayReplays : Table (List DWord)
  deriving DecidableEq, Repr

/-! ### Telltale (14) -/

/-- An event on its way to the collector, or landed in a round (14 R396). -/
structure Event where
  source : Nat
  count : Nat
  unit : Nat
  ctx : Option Nat
  cls : Nat
  forced : Bool
  deriving DecidableEq, Repr

/-- One fault source (14 Table 14.6). -/
structure SrcRec where
  any : Bool
  first : Bool
  survive : Option Bool
  n : Nat
  wMs : Nat
  raised : Nat
  forcedSeen : Bool
  winOpen : Bool
  winStart : DWord
  winCount : Nat
  lastAt : DWord
  total : Nat
  lastCtx : Option Nat
  lastUnit : Nat
  deriving DecidableEq, Repr

/-- One reaction slot (14 R403–R408). -/
structure SlotRec where
  active : Bool
  cls : Nat
  actionDone : Bool
  source : Nat
  merged : Nat
  lastAt : DWord
  doneAt : DWord
  recoveries : List (Nat × DWord)
  deriving DecidableEq, Repr

/-- A Telltale log record (14 Table 14.4). -/
structure TtlRecord where
  type : Nat
  cls : Nat
  slot : Nat
  flags : Nat
  source : Nat
  roundN : Nat
  time : DWord
  count : Nat
  unit : Nat
  ctx : Option Nat
  recCount : Nat
  merged : Nat
  deriving DecidableEq, Repr

/-- The FAULT_N pin and TTL_PIN (14 R411–R413). -/
structure TtlPin where
  hold : Bool
  low : Bool
  c4 : Bool
  pulses : Nat
  lowSince : DWord
  minDone : Bool
  highSince : Option DWord
  waiting : Bool
  deriving DecidableEq, Repr

/-- Telltale (14 Table 14.5). -/
structure Ttl where
  src : Table SrcRec
  slots : Table SlotRec
  pkg : SlotRec
  firstLatched : Bool
  firstClass : Nat
  firstSources : Nat
  firstForced : Bool
  firstTime : DWord
  pinMin : Nat
  autoHold : Bool
  injectEn : Bool
  quietMs : Nat
  limits : List Nat
  recTotal : Nat
  pin : TtlPin
  forceCtx : Nat
  forceValid : Bool
  log : Table TtlRecord
  head : Nat
  tail : Nat
  ovf : Bool
  lost : Nat
  maskedCnt : Nat
  landed : List Event
  masking : Bool
  noRelease : Bool
  c4Source : Option Nat
  pkgOrder : Option Nat
  partOrders : List Nat
  deriving DecidableEq, Repr

/-! ### Forwarding, remote operations, collectives (07) -/

/-- A frame in a receive buffer: it came on a port, in a session of its link, or was injected by this package (07 R214, R218); `checked`
once R241 has rewritten it and it waits in its receive buffer for a filter record (07 R223). -/
structure RxFrame where
  port : Option Nat
  vc : Nat
  frame : Frame
  since : DWord
  session : Nat
  checked : Bool
  deriving DecidableEq, Repr

/-- A delivered frame that waits for its own row. -/
structure Delivered where
  frame : Frame
  since : DWord
  deriving DecidableEq, Repr

/-- A duplicate-filter record of one (SRC, STREAM) pair (07 R223). -/
structure FilterRec where
  src : NodeId
  stream : Nat
  high : Nat
  map : BitVec 256
  lastAt : DWord
  deriving DecidableEq, Repr

/-- The forwarding counters of one I/O die (07 Table 7.8). -/
structure FwdCnt where
  noRoute : Nat
  aged : Nat
  malformed : Nat
  detqOvf : Nat
  dup : Nat
  staleGen : Nat
  lateRep : Nat
  detoured : Nat
  late : Nat
  flowAbort : Nat
  deriving DecidableEq, Repr

/-- SHR_LATE_INFO0 and SHR_LATE_INFO1 (07 Table 7.8). -/
structure LateInfo where
  stream : Nat
  tag : Nat
  cause : Nat
  src : NodeId
  late : Nat
  deriving DecidableEq, Repr

/-- The forwarding engine of one I/O die (07 R209–R226). -/
structure FwdRec where
  cnt : FwdCnt
  late : LateInfo
  rx : List RxFrame
  detq : List RxFrame
  peak : Nat
  inbox : List Delivered
  filter : List FilterRec
  waiting : List RxFrame
  deriving DecidableEq, Repr

/-- Whom an outstanding REQ serves (07 R226, 12 R359): `orphan` once the command that issued it has ended without it, so that its
completion only frees the tag. -/
structure TxnRec where
  orphan : Bool
  ctx : Nat
  queue : Nat
  stream : Nat
  gen : Nat
  at_ : DWord
  op : Nat
  dst : NodeId
  off : Nat
  len : Nat
  deriving DecidableEq, Repr

/-- One sense of a ring collective at this member (07 R227, R228): the member order, the bytes of the operand it runs on,
the rounds sent and held, and the frames of rounds not yet held: round, SEQ, LAST and payload. -/
structure CollSense where
  order : List NodeId
  lo : Nat
  len : Nat
  sent : Nat
  held : Nat
  frames : List (Nat × Nat × Bool × List Byte)
  deriving DecidableEq, Repr

/-- A collective slot allocated to an image (07 R227–R230, 09 R278, R282): its declaration, its operand and how far the
operation in progress has come. -/
structure CollRec where
  ctx : Nat
  index : Nat
  stream : Nat
  op : Nat
  fmt : Nat
  red : Nat
  bytes : Nat
  busy : Bool
  data : List Byte
  supplied : Nat
  die : Nat
  members : List NodeId
  senses : List CollSense
  parent : Option NodeId
  children : List NodeId
  got : List (NodeId × Nat × Bool × List Byte)
  stage : Nat
  landed : Nat
  deriving DecidableEq, Repr

/-! ### Tack Planner (05) -/

/-- Job kinds, with TKP_STATUS.JOB's codes (05 Table 5.9). -/
inductive JobKind where
  | place | replan | dryrun
  deriving DecidableEq, Repr

/-- A candidate's outcome and score (05 R161). -/
structure Result where
  grade : Nat
  reason : Nat
  factor : Nat
  spacingNs : Nat
  slots : Nat
  weights : Nat
  occupancy : Nat
  distance : Nat
  origin : Nat × Nat × Nat
  index : Nat
  resv : List Resv
  claims : List Claim
  rounds : Nat
  deriving DecidableEq, Repr

/-- A planner job (05 R159–R170): among this, RESV_MAX as it was when the job started (R148), and the state of each demand's sample generator
by slice tag and DEMAND_ID (R164). -/
structure Job where
  kind : JobKind
  tag : Nat
  req : SliceReq
  reserve : Bool
  all : Bool
  fullAuthority : Bool
  roundsLeft : Nat
  used : Nat
  burn : Nat
  ring : Nat
  ringPos : Nat
  best : Option Result
  tested : Nat
  indexOnly : Bool
  deadlineNs : Nat
  resvMax : Nat
  gens : Table Word
  deriving DecidableEq, Repr

/-- The Tack Planner (05): the committed reservations and claims, those held for PLACE results, and those held for the REPLAN result
(R152); the ledger's budgets and rates in force (R166), those that the next REPLAN plans with, and those of the REPLAN result that is held, which
come into force with its epoch (13 R390). -/
structure Tkp where
  busy : Bool
  kind : JobKind
  grade : Nat
  reason : Nat
  rounds : Nat
  resvMax : Nat
  replanUs : Nat
  placeMs : Nat
  lastScale : Nat
  cntJobs : Nat
  cntDeadline : Nat
  cntRefused : Nat
  cntFallback : Nat
  job : Option Job
  queue : List Job
  resv : List Resv
  held : List Resv
  heldClaims : List Claim
  replanHeld : List Resv
  replanClaims : List Claim
  claims : List Claim
  ramp : RampSet
  rampWant : RampSet
  rampPlan : Option RampSet
  deriving DecidableEq, Repr

/-! ### Halyard (04) -/

/-- Management messages between packages of a pod (04 R112–R135, 06 R195, R198, 07 R233–R235, 16 R470–R476). -/
inductive Mgmt where
  | hello (h : Hello)
  | linkState (r : LsRecord)
  | announce (node : NodeId)
  | handover (r : Replica)
  | beacon
  | beaconCount (count : Nat)
  | replicate (seq : Nat) (r : Replica)
  | replicateAck (seq : Nat)
  | prepare (prs : List (NodeId × Prepare))
  | ready (epoch : BitVec 16)
  | commit (epoch : BitVec 16) (time : DWord)
  | abort (epoch : BitVec 16)
  | delta (h : DbHead) (nodes : List NodeRec) (links : List LinkRec)
  | wantDelta (gen : Word)
  | command (opcode : Nat) (args : List Word) (data : List Byte)
  | reply (opcode : Nat) (status : Nat) (res : List Word) (data : List Byte)
  | portOrder (opcode : Nat) (port : Nat)
  | fullTrain (port : Nat)
  | lateStep (tag : Nat) (cause : Nat) (stream : Nat) (gen : Nat)
  | flowReport (tag : Nat) (stream : Nat) (gen : Nat)
  | flowAbort (tag : Nat) (stream : Nat) (gen : Nat)
  | abortAck (tag : Nat) (stream : Nat) (gen : Nat)
  | flowResume (tag : Nat) (stream : Nat) (gen : Nat)
  | event (e : SliceEvent)
  | contextsFinal (tag : Nat)
  | scrubDone (tag : Nat)
  | scrubFailed (tag : Nat)
  | bind (e : BindEntry)
  | unbind (tag : Nat)
  | layout (log2k : Nat)
  | releaseBegin (tag : Nat)
  | notPrepared (epoch : BitVec 16)
  | timeRoot (node : NodeId)
  | rampLimit (tUp : Nat)
  | rampRaised (rate : Nat)
  | bcastOffer (b : BundleId)
  | bcastFrag (h : FragHdr) (data : List Byte)
  | bcastEnd (tag : Word)
  | bcastNack (tag : Word) (ranges : List ChunkRange)
  | bcastDone (tag : Word)
  | bcastHave (tag version : Word)
  deriving DecidableEq, Repr

/-- Halyard states (04 Table 4.1). -/
inductive HlyState where
  | start | discover | elect | run | island | restarting
  deriving DecidableEq, Repr

/-- Roles (04 Table 4.4). -/
inductive HlyRole where
  | member | master | standby | provisional
  deriving DecidableEq, Repr

/-- Where a Halyard command came from. -/
inductive CmdSrc where
  | mailbox
  | mctp
  | node (n : NodeId)
  deriving DecidableEq, Repr

/-- A Halyard command being carried out or waiting its turn (04 R136). -/
structure HlyCmdRec where
  src : CmdSrc
  opcode : Nat
  seq : Nat
  podSeq : Nat
  args : List Word
  data : List Byte
  cable : Option CableRead
  deriving DecidableEq, Repr

/-- A finished command that waits for HLY_CMD_RESULT. -/
structure HlyDone where
  cmd : HlyCmdRec
  status : Nat
  res : List Word
  data : List Byte
  deriving DecidableEq, Repr

/-- The HLY_CMD mailbox (04 Tables 4.16, 4.17). -/
structure HlyBox where
  opcode : Nat
  seq : Nat
  status : Nat
  statSeq : Nat
  done : Bool
  busy : Bool
  args : Table Word
  res : Table Word
  deriving DecidableEq, Repr

/-- A change that waits for the master's next generation (04 R129); `echo` is the second end's record of a link that a change in hand takes
out already (R133). -/
inductive Change where
  | record (r : LsRecord)
  | echo (r : LsRecord)
  | nodeState (node : NodeId) (st : Nat)
  | setAdmission (node : NodeId) (code : Nat)
  | linkDisabled (node : NodeId) (port : Nat) (off : Bool)
  | linkOut (node : NodeId) (port : Nat)
  | linkHold (node : NodeId) (port : Nat) (held : Bool)
  | bias (node : NodeId) (port : Nat) (value : Nat)
  | none
  deriving DecidableEq, Repr

/-- What the master does once the change of its state that stands before it is committed (04 R116). -/
inductive MasterAct where
  /-- execute the command that has its number -/
  | run
  /-- flood a slice event -/
  | event (code : Nat) (detail : BitVec 8) (tag : Nat) (subject : NodeId) (scale : Nat)
  /-- send a message -/
  | send (dsts : List NodeId) (msg : Mgmt)
  /-- queue a planner job -/
  | job (j : Job)
  /-- end the command that is executed -/
  | finish (status : Nat) (res : List Word) (data : List Byte)
  /-- open the next epoch's collection, with what follows its switch -/
  | nextEpoch (c : Change) (after : List AfterSwitch)
  /-- hand the role of master over -/
  | handover (node : NodeId)
  deriving DecidableEq, Repr

/-- The stage of the master's epoch work (04 R129). -/
inductive EpochPhase where
  | idle | collecting | fixing | planning | guarded | preparing | timing | committed
  deriving DecidableEq, Repr

/-- The master's epoch work (04 R129–R132). After a join (R118): the packages that alone install the extra epoch, the number of the next
epoch, the number of the first pod-wide one after an extra epoch, and whether the joined generation is still to be prepared from. A REPLAN
that is asked for while a prepare is in flight waits for the next epoch (`wantReplan`), and the PLACE jobs of an aborted prepare wait for
the new REPLAN (`rerun`; 05 R170). The records as they stood when the generation was fixed are kept, for the master's own bank. -/
structure EpochWork where
  phase : EpochPhase
  changes : List Change
  guardDone : Bool
  ready : List NodeId
  epoch : BitVec 16
  gen : Word
  after : List AfterSwitch
  pendingAfter : List AfterSwitch
  late : List NodeId
  needReplan : Bool
  replanAll : Bool
  replanNs : Nat
  wantReplan : Bool
  wantAll : Bool
  wantNs : Nat
  rerun : List Job
  planned : List Nat
  fixedSeq : Nat
  switchAt : DWord
  extraNodes : List NodeId
  nextEpoch : Option (BitVec 16)
  finalEpoch : Option (BitVec 16)
  joined : Bool
  fixedNodes : List NodeRec
  fixedLinks : List LinkRec
  deriving DecidableEq, Repr

/-- What a route bank was filled from; its entries are computed from it by the route evaluator (04 R125, 05 R142). -/
structure Bank where
  valid : Bool
  gen : Word
  cols : Nat
  rows : Nat
  nodes : List NodeRec
  links : List LinkRec
  prep : Prepare
  deriving DecidableEq, Repr

/-- HLY_STATUS and the figures Halyard shows (04 Tables 4.12–4.15). -/
structure HlyReg where
  nodeId : BitVec 15
  nodeValid : Bool
  cols : BitVec 2
  rows : BitVec 2
  pods : BitVec 4
  shapeOk : Bool
  state : HlyState
  role : HlyRole
  admitted : Bool
  quorum : Bool
  reduced : Bool
  admitCode : Nat
  master : NodeId
  standby : NodeId
  epoch : BitVec 16
  prepared : Bool
  oldHeld : Bool
  installed : Bool
  topoGen : Word
  epochDrop : Nat
  takeover : Nat
  deriving DecidableEq, Repr

/-- The topology database (04 Tables 4.3–4.6) and what feeds it: among this, the master whose announce was taken last (R115), the links that
the master keeps out of the road map while it is provisional (R117), and the last link-state record of each known package (R112), with its pod
fingerprint and its yield map (R110, 16 R469). -/
structure HlyDb where
  nodes : List NodeRec
  links : List LinkRec
  time : DWord
  seen : Table Nat
  neigh : Table (Option Hello)
  ownSeq : Nat
  fingerprint : Word
  eligible : Bool
  confirmed : Bool
  holdDown : List Nat
  settled : Bool
  biases : List (NodeId × Nat × Nat)
  announced : NodeId
  masterHeld : List (NodeId × Nat)
  facts : List LsRecord
  deriving DecidableEq, Repr

/-- The master's replication and reachability counts (04 R116, R117, R119): the actions that wait for their change's acknowledgement, and at
the standby the replica. -/
structure HlyRepl where
  seq : Nat
  acked : Nat
  replicaSeq : Nat
  replica : Option Replica
  actions : List (Nat × MasterAct)
  reach : Nat
  deriving DecidableEq, Repr

/-- Halyard (04). -/
structure Hly where
  reg : HlyReg
  box : HlyBox
  db : HlyDb
  repl : HlyRepl
  work : EpochWork
  bank0 : Bank
  bank1 : Bank
  commitAt : Option (BitVec 16 × DWord)
  cur : Option HlyCmdRec
  waiting : List HlyCmdRec
  finished : List HlyDone
  podSeq : Nat
  mctp : Option HlyCmdRec
  mctpStarted : Bool
  mctpHdr : MsgHdr
  boxCmd : Option HlyCmdRec
  aborts : List AbortRec
  lateFlood : Table DWord
  lateReport : Table DWord
  restarts : Nat
  restartTry : Nat
  prepWait : Option Prepare
  lastSwitch : Option DWord
  deriving DecidableEq, Repr

/-! ### Slices, partitions (06) -/

/-- Partition states (06 Table 6.14). -/
inductive PartState where
  | free | bound | draining | scrubbing | quarantined
  deriving DecidableEq, Repr

/-- An operation that one partition executes in its turn (09 R292, 10 R303): the page operation, or a stream or image operation of a
context. -/
inductive PartOp where
  | page
  | stream (ctx : Nat)
  | image (ctx : Nat)
  deriving DecidableEq, Repr

/-- The page operation registers (10 Table 10.11); `begun` while a RETURN's pages are being scrubbed (R302). -/
structure PageCmd where
  begun : Bool
  op : Nat
  ctx : Nat
  first : Nat
  count : Nat
  status : Nat
  done : Bool
  busy : Bool
  deriving DecidableEq, Repr

/-- One partition of this package (06 Table 6.14): `live` once its slice is ACTIVE (R196), `keep` while a scrub after a package reset leaves
its binding, and `drain` when it returns to DRAINING after that scrub (R205). -/
structure PartRec where
  state : PartState
  tag : Nat
  ctxMax : Nat
  scrubMib : Nat
  tenant : Word
  live : Bool
  keep : Bool
  drain : Bool
  deriving DecidableEq, Repr

/-- The slice event queue (06 Table 6.15). -/
structure Evq where
  base : DWord
  size : Nat
  head : Nat
  tail : Nat
  ovf : Bool
  deriving DecidableEq, Repr

/-- The partition block (06 Tables 6.13–6.15), the partitions' operations in order of arrival (10 R303), and the time up to which running
tiles have been charged (06 R202). -/
structure Part where
  ops : List PartOp
  meterMark : DWord
  log2k : Nat
  parts : Table PartRec
  page : PageCmd
  evq : Evq
  tagDrop : Nat
  meterLost : Nat
  energyUnattr : Nat
  ramps : Table (Option RampEntry)
  deriving DecidableEq, Repr

/-! ### Tiles (08) -/

/-- A logical tile's map entry (08 Table 8.8). -/
structure TileMapRec where
  phys : Nat
  valid : Bool
  spare : Bool
  deriving DecidableEq, Repr

/-- What a physical tile serves as (08 Table 8.9). -/
inductive PhysUse where
  | mapped | spare | retired | unusable
  deriving DecidableEq, Repr

/-- A physical tile (08 Table 8.9). -/
structure PhysRec where
  use : PhysUse
  logical : Nat
  deriving DecidableEq, Repr

/-- A line between HBM and tile store that a tile has issued and that has not completed (09 R268): its number since the
step's release, its device address and its tile-store line. -/
structure LineOp where
  write : Bool
  n : Nat
  addr : Nat
  line : Nat
  deriving DecidableEq, Repr

/-- A token that a tile has issued and that has not been acknowledged (09 R268): its channel, its index on it, its number
among the tile's cross-die or fabric tokens, its line, and whether it is offered. -/
structure TokenOp where
  ch : Nat
  k : Nat
  n : Nat
  line : Nat
  offered : Bool
  deriving DecidableEq, Repr

/-- A loop being run: its first word, the word after it, and the repeats left. -/
structure LoopRec where
  first : Nat
  stop : Nat
  left : Nat
  deriving DecidableEq, Repr

/-- Where a tile stands in its step: idle, running, waiting in a RECV, WAIT or END, or done. -/
inductive TilePhase where
  | idle | running | receiving | waiting | ending | done
  deriving DecidableEq, Repr

/-- A logical tile (08 Table 8.1, R261; 09 R268; 15 R434, R446); `badLines` are the lines of its store that failed correction
(08 R249, 15 R445). -/
structure TileRec where
  store : Table Byte
  acc : Table Word
  accInt : BitVec 4
  vreg : Table Word
  rng : Word
  phase : TilePhase
  pc : Nat
  loops : List LoopRec
  lines : List LineOp
  tokens : List TokenOp
  lineN : Nat
  xdieN : Nat
  fabN : Nat
  portClosed : Bool
  resetAt : Option DWord
  toRetire : Bool
  lastExpiry : Option DWord
  badLines : List Nat
  deriving DecidableEq, Repr

/-! ### HBM and pages (10) -/

/-- An HBM stack (10 Table 10.10, 15 R448): the pages with uncorrectable errors, by pseudo-channel and time. -/
structure HbmStack where
  present : Bool
  usable : Bool
  step : Nat
  badPch : Nat
  corr : Nat
  uncorr : List (Nat × Nat × DWord)
  deriving DecidableEq, Repr

/-- Page states (10 R301). -/
inductive PageUse where
  | free | owned | scrubbing | retired
  deriving DecidableEq, Repr

/-- A page's entry of the owner map (10 Table 10.11). -/
structure PageRec where
  use : PageUse
  ctx : Nat
  deriving DecidableEq, Repr

/-- The memory (10 R293–R303); `shown` while the status registers of Table 10.10 hold the last training's values: a package
reset clears them from its fence on (18 R521). -/
structure Hbm where
  stackTbl : Table HbmStack
  s : Nat
  step : Nat
  low : Bool
  pc : Nat
  pages : Table PageRec
  bytes : Table Byte
  refresh : Bool
  shown : Bool
  deriving DecidableEq, Repr

/-! ### Streams (10) -/

/-- Stream states (10 Table 10.6). -/
inductive StreamState where
  | closed | open_ | bound | held | closing
  deriving DecidableEq, Repr

/-- A stream entry (10 Table 10.5), and what the package keeps beside it. -/
structure StreamRec where
  state : StreamState
  kind : Nat
  ctx : Nat
  peerSeen : Bool
  peer : NodeId
  gen : Nat
  depth : Nat
  base : Nat
  len : Nat
  channel : Nat
  tile : Nat
  windowNs : Nat
  credit : Nat
  firstSeq : Nat
  landed : Nat
  signal : Word
  ring : Nat
  ringHead : Nat
  ringTail : Nat
  dropsIn : Nat
  dropsOut : Nat
  openTime : DWord
  anchorSeq : Nat
  anchorSlot : Nat
  heldFrom : StreamState
  freed : Nat
  lastCredit : Option DWord
  lastLanding : DWord
  closedAt : DWord
  deriving DecidableEq, Repr

/-- The stream block (10 Table 10.12). -/
structure Strm where
  entries : Table StreamRec
  cntClosed : Nat
  cntMsg : Nat
  cntCredit : Nat
  deriving DecidableEq, Repr

/-! ### Schedule images (09) -/

/-- A channel record (09 Table 9.4). -/
structure ChanRec where
  kind : Nat
  src : Nat
  dst : Nat
  tokenBytes : Nat
  depth : Nat
  bufLine : Nat
  ref : Nat
  deriving DecidableEq, Repr

/-- A step program (09 R277). -/
structure StepProg where
  durNs : Nat
  stepW : Nat
  counts : List (Nat × Nat)
  starts : List (Option Nat)
  deriving DecidableEq, Repr

/-- A collective record (09 Table 9.6). -/
structure CollDecl where
  op : Nat
  fmt : Nat
  red : Nat
  bytes : Nat
  stream : Nat
  demand : Nat
  deriving DecidableEq, Repr

/-- A tile record (09 Table 9.3), with the tile's code. -/
structure ImgTile where
  codeLine : Nat
  code : List Byte
  deriving DecidableEq, Repr

/-- A CONST record (09 R275). -/
structure ConstRec where
  tile : Nat
  line : Nat
  data : List Byte
  deriving DecidableEq, Repr

/-- A schedule image as it is read (09 R274–R278). -/
structure Image where
  addr : Nat
  totalLen : Nat
  partTiles : Nat
  tiles : Nat
  tileBase : Nat
  streams : Nat
  hbmLim : Nat
  xdieLim : Nat
  fabLim : Nat
  srSeed : Nat
  hbmLen : Nat
  maxDurNs : Nat
  recs : List ImgTile
  chans : List ChanRec
  steps : List StepProg
  consts : List ConstRec
  colls : List CollDecl
  deriving DecidableEq, Repr

/-- A bound image: where it is bound (09 R281, R282). -/
structure BoundImage where
  img : Image
  base : Nat
  streamBase : Nat
  hbmBase : Nat
  deriving DecidableEq, Repr

/-- A queued step (09 R284): its program, its argument, and the channel of a flow that gates it and was aborted (R286). -/
structure QStep where
  step : Nat
  arg : Word
  aborted : Option Nat
  deriving DecidableEq, Repr

/-- A channel's tokens in the running step: issued by the producer, acknowledged, covered by the consumer's RECVs, covered
by the RECV in progress, and freed (09 R268, R276). -/
structure ChanRun where
  issued : Nat
  acked : Nat
  taken : Nat
  freed : Nat
  deriving DecidableEq, Repr

/-- A violation detected: reason, channel, image tile (09 R286). -/
structure Viol where
  reason : Nat
  ch : Nat
  tile : Option Nat
  deriving DecidableEq, Repr

/-- The armed or running step (09 R271–R288). -/
structure RunStep where
  step : Nat
  arg : Word
  released : Bool
  number : DWord
  releaseAt : DWord
  armSeq : Nat
  chans : Table ChanRun
  offCorner : BitVec 4
  flags : NumFlags
  recvCh : Table Nat
  deriving DecidableEq, Repr

/-- Image states (09 Table 9.11). -/
inductive XcState where
  | unbound | binding | ready | running | halted | unbinding
  deriving DecidableEq, Repr

/-- The execution registers of a context page and its bound image (09 Table 9.15). -/
structure Xc where
  op : Nat
  status : Nat
  state : XcState
  done : Bool
  busy : Bool
  armOvf : Bool
  armBad : Bool
  img : DWord
  hbm : DWord
  tileBase : Nat
  useBase : Bool
  streamBase : Nat
  stepBase : DWord
  cqBase : DWord
  cqSize : Nat
  cqHead : Nat
  cqTail : Nat
  cqPhase : Bool
  latches : Table Nat
  armHi : Word
  next : DWord
  viol : Viol
  image : Option BoundImage
  queue : List QStep
  run : Option RunStep
  lastRelease : Option DWord
  detected : Option Viol
  owed : List (List Byte)
  deriving DecidableEq, Repr

/-- The stream operation registers of a context page (10 Table 10.12). -/
structure StCmd where
  op : Nat
  stream : Nat
  status : Nat
  done : Bool
  busy : Bool
  args : Table Word
  res : Table Word
  deriving DecidableEq, Repr

/-! ### Luff counters and resets (15) -/

/-- A luff counter (15 Table 15.11, LUFF_UNIT_n). -/
structure LuffUnit where
  progress : Nat
  expired : Bool
  expireCnt : Nat
  deriving DecidableEq, Repr

/-- A fence in force (15 R425–R437): its domain, the contexts it closed, its start, the cause, whether a DESTROY of R197
joined it, and whether its drain has ended. -/
structure Fence where
  dom : Domain
  ctxs : List Nat
  start : DWord
  cause : Nat
  source : Nat
  destroy : Bool
  drained : Bool
  deriving DecidableEq, Repr

/-- The crash summary (15 R442, Table 15.11). -/
structure Crash where
  valid : Bool
  cause : Nat
  gen : Nat
  source : Nat
  time : DWord
  seq : Nat
  dump : Nat
  durationUs : Nat
  deriving DecidableEq, Repr

/-- The LUFF block (15 Table 15.11), whether Farnis wrote the reset request, the resets ordered by function resets and by the
ladder that have not begun (R425), the requests cut off at a drain's end whose completions are still to come (R431), and the
partitions whose collective unit waits for its reset (R436). -/
structure Luff where
  winTile : Nat
  winCe : Nat
  winLink : Nat
  winColl : Nat
  winHly : Nat
  drainUs : Nat
  rstOp : Nat
  rstCtx : Nat
  rstPart : Nat
  rstStatus : Nat
  rstDone : Bool
  rstBusy : Bool
  rstStarted : Bool
  ladderParts : List Nat
  ladderPkg : Bool
  rstFarnis : Bool
  ctxOrders : List (Nat × Nat)
  lateOut : Nat
  collResets : List Nat
  partGen : Table Nat
  pkgGen : Nat
  pkgResets : Nat
  lateDrop : Nat
  lastStream : Nat
  crash : Crash
  dumpValid : Bool
  dumpTiles : Bool
  dumpSkipped : Nat
  dumpFailed : Bool
  units : Table LuffUnit
  fences : List Fence
  lastFence : Table DWord
  deriving DecidableEq, Repr

/-- CTX_RST (15 Table 15.11). -/
structure CtxRst where
  gen : Nat
  resets : Nat
  cause : Nat
  inReset : Bool
  deriving DecidableEq, Repr

/-! ### Contexts (06) -/

/-- Context states (06 Table 6.17). -/
inductive CtxLife where
  | free | live | ending | final
  deriving DecidableEq, Repr

/-- The five meters (06 Table 6.11). -/
structure Meters where
  tile : Nat
  energy : Nat
  hbm : Nat
  link : Nat
  ce : Nat
  deriving DecidableEq, Repr

/-- The base registers of a context page (06 Table 6.17), the logical tiles that its images have held (R197), and what R202 divides energy
by: the TILE of the interval per die, the HBM meter at its start, and the ballast energy charged. -/
structure CtxBase where
  heldTiles : List Nat
  life : CtxLife
  part : Nat
  tag : Nat
  event : Word
  tenant : Word
  func : Option Nat
  meters : Meters
  snap : Meters
  snapTime : DWord
  minute : Meters
  minTime : DWord
  minSeq : Nat
  dieTile : Table Nat
  hbmMark : Nat
  ballastUj : Nat
  deriving DecidableEq, Repr

/-- The window registers of a context page (11 Table 11.10), and of the PF (Table 11.9). -/
structure Win where
  base : Nat
  denied : Bool
  count : Nat
  deriving DecidableEq, Repr

/-- Queue states (12 Table 12.7). -/
inductive QueueState where
  | disabled | running | halted
  deriving DecidableEq, Repr

/-- A copy-engine command in progress (12 R352–R361): its bytes, running index and engine; the data bytes laid out so far and
those still outstanding in REQs; its status, and at which offset the first failure stands; whether its opcode's work has
begun and ended; the last host address written on H0 and on H1; whether its flush reads are out, and whether they returned. -/
structure CeCmd where
  index : Nat
  bytes : List Byte
  engine : Nat
  started : Bool
  startAt : DWord
  pos : Nat
  moved : Nat
  status : Nat
  failAt : Option Nat
  result : DWord
  outstanding : Nat
  sent : Bool
  h0Last : Option Nat
  h1Last : Option Nat
  flushing : Bool
  flushed : Bool
  deriving DecidableEq, Repr

/-- A copy-engine queue (12 Table 12.7). -/
structure CeQueue where
  base : DWord
  log2size : Nat
  cls : Nat
  idx : Nat
  enable : Bool
  pi : Nat
  ci : Nat
  state : QueueState
  haltStatus : Nat
  dbErr : Bool
  cfgErr : Bool
  abortIdx : Nat
  cur : Option CeCmd
  h0Last : Option Nat
  h1Last : Option Nat
  deriving DecidableEq, Repr

/-- The copy-engine registers of a context page (12 Table 12.7), and what the ring keeps. -/
structure CtxCe where
  queues : Table CeQueue
  cqBase : DWord
  cqSize : Nat
  cqHead : Nat
  cqTail : Nat
  cqPhase : Bool
  lastQ : Nat
  deriving DecidableEq, Repr

/-- A copy engine (12 Table 12.8): failed, in reset, bytes moved, and the last partition and contexts served (R348). -/
structure CeEng where
  failed : Bool
  inReset : Bool
  bytes : Nat
  lastPart : Nat
  lastCtx : Table Nat
  deriving DecidableEq, Repr

/-- A context page. -/
structure CtxRec where
  base : CtxBase
  xc : Xc
  st : StCmd
  win : Win
  ce : CtxCe
  rst : CtxRst
  deriving DecidableEq, Repr

/-- CTX_CMD_CTRL and CTX_CMD_STAT (06 Table 6.16); `started` while a DESTROY waits for its context's scrub. -/
structure CtxCmd where
  op : Nat
  part : Nat
  ctx : Nat
  func : Nat
  status : Nat
  statCtx : Nat
  done : Bool
  busy : Bool
  started : Bool
  deriving DecidableEq, Repr

/-! ### Boot and the journal (16) -/

/-- How far a boot step of the run in force has come (16 R462, R463). -/
inductive BootSt where
  | notRun | running | complete | ended | skipped
  deriving DecidableEq, Repr

/-- The bundle in force (16 Table 16.13, BOOT_FW). -/
structure FwReg where
  bundleOk : Bool
  source : Nat
  hlySwitched : Bool
  svn : Nat
  version : Word
  tag : Word
  deriving DecidableEq, Repr

/-- The bundle broadcast and the firmware store (16 R470–R476): the offer and its time, the fragments held of each chunk (bit
n is fragment n) under key KIND × 2^20 + CHUNK, the store's bytes under that key × 4,096 + offset, the chunks that passed
their checks, whether END came, the children that are done, whether DONE was sent, the bundles advertised to the master, the
package's own staged bundle, the tag that the master committed and the change that carries it, and how far R476's two times of
2 s have run. -/
structure Bcast where
  offer : Option BundleId
  frags : Table Nat
  store : Table Byte
  good : List Nat
  ended : Bool
  kidsDone : List NodeId
  doneSent : Bool
  adverts : List (NodeId × Word × Word)
  nacks : Nat
  staged : Option BundleId
  committed : Option Word
  commitSeq : Nat
  offered : Bool
  fetchFrom : Option NodeId
  late : Nat
  deriving DecidableEq, Repr

/-- The boot block (16 R450–R478, Table 16.13): the run, its steps, the copy in force, the journal's place, the fields, the
units in use, the units with a PROGRESS record in the runs that failed a step, the measurements and the firmware. -/
structure Boot where
  strap : Word
  on : Bool
  run : Word
  startRun : Word
  resetRun : Bool
  steps : Table BootSt
  stepAt : Table DWord
  ready : Bool
  locked : Bool
  rescue : Bool
  noFirmware : Bool
  copyB : Bool
  fallback : Bool
  form : Nat
  imageSeq : Word
  cdieOk : BitVec 4
  iodieOk : BitVec 2
  partsReady : Bool
  lost : List (Nat × Nat)
  progress : Table (List Nat)
  trainLate : Bool
  fwRerun : Bool
  meas : Table (List Byte)
  fw : FwReg
  bcast : Bcast
  jnlNext : Nat
  jnlIndex : Nat
  levels : Table Nat
  jnlFull : Bool
  rig : Table (Option Nat)
  rigWrites : Nat
  deriving DecidableEq, Repr

/-! ### What leaves the machine -/

/-- A capability of a function's configuration space (11 Table 11.3). -/
inductive Capability where
  | pciExpress | powerManagement | msix | aer | ari | sriov | cxlDvsec
  deriving DecidableEq, Repr

/-- A function's configuration identity (11 Table 11.3), the SR-IOV figures TotalVFs, InitialVFs, First VF Offset and VF Stride, and the CXL
DVSEC's Cache_Capable, IO_Capable and Mem_Capable (R325), and what its link's mode enables: tag bits, outstanding reads, max payload and
max read request (Table 11.2). -/
structure ConfigId where
  vendor : Nat
  device : Nat
  cls : Nat
  revision : Nat
  subVendor : Nat
  subsystem : Nat
  caps : List Capability
  sriov : List Nat
  cxl : List Bool
  mode : List Nat
  deriving DecidableEq, Repr

/-- What the machine sends or shows outside itself; the model's own record (log 8). -/
inductive Out where
  | linkWord (port : Nat) (w : DWord)
  | envelope (port : Nat) (e : Envelope) (trailer : DWord)
  | ts2 (port : Nat) (block : BitVec 128)
  | mgmt (dst : NodeId) (msg : Mgmt)
  | mgmtPort (port : Nat) (msg : Mgmt)
  | msix (func : Nat) (vector : Nat) (addr : DWord) (data : Word)
  | mctp (src dst : BitVec 8) (bytes : List Byte)
  | hostMsg (src dst : BitVec 8) (bytes : List Byte)
  | identity (f : BarFunc) (id : ConfigId)
  | pldmEvent (figures : List Nat)
  | syncStart (port : Nat)
  | readData (func : Nat) (offset : Nat) (bytes : List Byte)
  | windowData (func : Nat) (offset : Nat) (bytes : List Byte)
  | unsupported (func : Nat)
  | farnis (site : Nat) (bytes : List Byte)
  | event (record : List Byte)
  | alert (site cause : Nat)
  | answer (site : Nat) (ok : Bool)
  | redfish (r : Resource) (figures : List Nat)
  | pldm (q : PldmQuery) (figures : List Nat)
  | scan (site die : Nat) (code : Nat)
  | scanData (site die : Nat) (value : Word)
  deriving DecidableEq, Repr

/-- One MSI-X vector of a function (11 R327). -/
structure Msix where
  addr : DWord
  data : Word
  masked : Bool
  pending : Bool
  lastAt : Option DWord
  deriving DecidableEq, Repr

/-! ### Reef (13) -/

/-- A compute die under Reef (13 R369–R372). -/
structure ReefDie where
  vset : Nat
  vtarget : Option Nat
  capDrop : Nat
  idleSince : DWord
  power : Nat
  resetBallast : Nat
  hold : Bool
  idleLow : Bool
  okSince : Option DWord
  deriving DecidableEq, Repr

/-- A partition under Reef (13 R375–R382, Table 13.6). -/
structure ReefPart where
  ballast : Nat
  phase : Nat
  assigned : Bool
  group : Nat
  groupsM1 : Nat
  windowUs : Nat
  spacingNs : Nat
  rate : Nat
  budget : Nat
  attributed : Nat
  target : Nat
  windowOpen : Bool
  ramping : Bool
  ready : Bool
  armSeq : Nat
  owner : Option Nat
  withdrawUntil : Option DWord
  deriving DecidableEq, Repr

/-- The last tray report (13 Table 13.1). -/
structure TrayInfo where
  tUp : Nat
  tDown : Nat
  pTray : Nat
  share : Nat
  soc : Nat
  battOk : Bool
  shelfOk : Nat
  cool : Nat
  flow : Nat
  cduOk : Bool
  at_ : Option DWord
  deriving DecidableEq, Repr

/-- Reef (13 Table 13.6). -/
structure Reef where
  capLimiting : Bool
  capHold : Bool
  ballastHold : Bool
  stale : Bool
  fallback : Bool
  scaled : Bool
  rampUp : Nat
  tray : TrayInfo
  p100us : Nat
  p1ms : Nat
  samples : List Nat
  belowSince : Option DWord
  dies : Table ReefDie
  parts : Table ReefPart
  ballastLog : List (DWord × Nat)
  cntCapHold : Nat
  cntBallastHold : Nat
  cntRiseExcess : Nat
  noticed : Option Nat
  noticeAt : DWord
  noticeStop : Bool
  readySent : Bool
  armSeq : Nat
  lastReplan : Option DWord
  deriving DecidableEq, Repr

/-! ### Host interface (11) -/

/-- HST_LINK_STAT_n (11 Table 11.8), and whether the host enabled the wider tags (Table 11.2). -/
structure HstLink where
  bigTags : Bool
  up : Bool
  degraded : Bool
  rate : Nat
  flit : Bool
  proto : Nat
  width : Nat
  downCnt : Nat
  deriving DecidableEq, Repr

/-- A watch entry (11 Table 11.9); `held` while its line is in Shared state (R335). -/
structure Watch where
  valid : Bool
  bad : Bool
  lo : Nat
  hi : Nat
  tgt : Nat
  held : Bool
  deriving DecidableEq, Repr

/-- The host interface (11 Tables 11.8, 11.9). -/
structure Hst where
  links : Table HstLink
  cohRead : Bool
  pfWin : Win
  numVf : Nat
  vfEn : Bool
  flushCnt : Nat
  watches : Table Watch
  deriving DecidableEq, Repr

/-- The access-error record (18 Table 18.10). -/
structure AccErr where
  count : Nat
  offset : Nat
  cause : Nat
  func : Nat
  deriving DecidableEq, Repr

/-! ### Farnis, the tray controller (17) -/

/-- Site states (17 Table 17.4). -/
inductive SiteState where
  | off | standby | poweringOn | on | notice | poweringOff | lockout | scan
  deriving DecidableEq, Repr

/-- Where a power action of a site leads: ON, STANDBY, LOCKOUT, through STANDBY and OFF_TIME to ON again (a power cycle), or to the one
retry of a failed power-on (17 R485–R489). -/
inductive PowerGoal where
  | on | standby | lockout | cycle | retry
  deriving DecidableEq, Repr

/-- A power action of a site: its goal, whether it gives notice, its cause code (Table 17.10),
the cause that SITE_ON shall name, whether the power-off in it gave notice and saw READY. -/
structure PowerAct where
  goal : PowerGoal
  notice : Bool
  cause : Nat
  onCause : Nat
  given : Bool
  seen : Bool
  deriving DecidableEq, Repr

/-- A package site as Farnis holds it (17 R481–R491, R501): its package's endpoint ID; its state; the step of Table 17.5 whose condition is awaited, or the groups
still to fall; the action it carries out; whether a power-on failed once; the times of its automatic cycles; whether a Telltale read is
out, whether it follows a restart of Farnis, and how often it was repeated; the stored digests. -/
structure SiteRec where
  eid : Option (BitVec 8)
  state : SiteState
  ident : Option (Word × DWord)
  group : Nat
  act : Option PowerAct
  retried : Bool
  cycles : List DWord
  faultWait : Bool
  startRead : Bool
  rereads : Nat
  digests : List Byte
  deriving DecidableEq, Repr

/-- A shelf module: whether its last STATUS_WORD showed no fault, and its consecutive failed reads (17 R494). -/
structure ShelfModule where
  good : Bool
  fails : Nat
  deriving DecidableEq, Repr

/-- Farnis (17): its endpoint ID on the host management link (R481); whether the identities read at its start differ (00 R18); whether it runs; its log and the count of its records; its settings; the shelf, battery and coolant readings, with the
polls since each last succeeded; the tray report's SEQ; the sites; the order in which sites are powered on; TRAY_FAULT_N low; the sites
that a busbar sag switched off; whether an update of its own firmware waits for the next restart. -/
structure Farnis where
  hostEid : Option (BitVec 8)
  mismatch : Bool
  running : Bool
  seq : Nat
  log : List (List Byte)
  settings : Table (Option Nat)
  shelf : List (BitVec 8)
  line : Nat × Bool
  modules : List ShelfModule
  battGood : Bool
  battAge : Option Nat
  socAge : Option Nat
  soc : Nat
  cduTemp : Int
  cduFlow : Nat
  cduAge : Option Nat
  reportSeq : Nat
  sites : Table SiteRec
  order : List Nat
  trayFault : Bool
  sagged : List Nat
  fwStaged : Bool
  deriving DecidableEq, Repr

/-! ### Boundary scan (19 R539–R541) and the S1 card's power controller (20 R549) -/

/-- The scan chains: the instruction in each I/O die's register under key 2 × site + die, the level of SCAN_EXT_N, and the level that the
multiplexer applies. -/
structure Scan where
  ir : Table Nat
  extN : Bool
  applied : Bool
  deriving DecidableEq, Repr

/-- The S1 card's power controller: slot 12 V, the two 12V-2x6 inputs, SITE_PG, rails held off after a C4, the fault LED for a
missing input, and the endpoint IDs, its and the package's own, of the management controller whose command came last (20 R550). -/
structure Card where
  slot12v : Bool
  aux : BitVec 2
  pg : Bool
  c4Off : Bool
  led : Bool
  peer : Option (BitVec 8 × BitVec 8)
  deriving DecidableEq, Repr

/-! ### The whole machine -/

/-- Everything but the queue of commands. -/
structure Machine where
  pins : Pins
  fuse : Fuse
  boot : Boot
  time : TimeBlk
  corner : Corner
  shr : Shr
  fwd : Table FwdRec
  txSeq : Table Nat
  txn : Table (Option TxnRec)
  coll : Table (Option CollRec)
  collFailed : List Nat
  tiles : Table TileRec
  tileMap : Table TileMapRec
  tilePhys : Table PhysRec
  hbm : Hbm
  strm : Strm
  luff : Luff
  hly : Hly
  tkp : Tkp
  slc : Slc
  part : Part
  ctx : Table CtxRec
  ctxCmd : CtxCmd
  ttl : Ttl
  acc : AccErr
  reef : Reef
  hst : Hst
  eng : Table CeEng
  msix : Table Msix
  hostMem : Table Byte
  flash : Table Byte
  far : Farnis
  scan : Scan
  card : Card
  free : Nat
  out : List Out
  deriving DecidableEq, Repr

/-- The state: the machine and the commands that wait, first in, first out. -/
structure State where
  m : Machine
  pending : List Instr
  deriving DecidableEq, Repr

/-! ### Reset values

A value without a comment is the spec's own reset value; a value the spec does not state is the model's choice and is
named in the log (logs 4, 5, 6). -/

/-- The strap pins of the model's site: an environment choice. DESIGN CHOICE (log 4). -/
def Pins.reset : Pins :=
  { site := 0, siteP := true, form := false, slot := 0, rcol := 0, rrow := 0, pod := 0, rackP := true }

/-- The key that key slot 0 names: the SHA-384 of the P-384 base point as a public key, whose private key is 1, so that anyone can
sign a copy for this package. DESIGN CHOICE (log 4). -/
def keyHash0 : BitVec 384 := 0xa19d4db171b582eb8052b0cfe555e17894aa22d1c8a9770950697dd8f796d2fa4bf0a56ad80006b7ea08e1191f814b65

/-- The fused identity: a B1 VLT-4C8M2X-P11 with one key. DESIGN CHOICE (log 4). -/
def Fuse.reset : Fuse :=
  { stepping := 1, grade := 1, hbm3e := true, cdieMask := 0xF, stackMask := 0xFF, iodieMask := 0x3, uid := 1,
    keyHash := [keyHash0, 0, 0, 0], keyRevoked := 0xE, svnMin := 0 }

/-- The timebase before power-good (02 Tables 2.9–2.11). -/
def TimeBlk.reset : TimeBlk :=
  { now := 0, running := false, latch := [], farnisLatch := 0, locked := false, root := false, holdover := false,
    degraded := false, depth := 0, parentDir := 6, parentPos := 0, refclkOk := false, parentNode := 0, offset := 0,
    everLocked := false, source := .trayReference, slew := 0, slewPhase := 0, parentLost := false }

/-- REEF_CORNER_STAT at reset (02 Table 2.12). -/
def Corner.reset : Corner := { uv := 0, ot := 0, uvSeen := 0, otSeen := 0, thermHold := 0 }

/-- SHR_PORT_STAT at reset (03 Table 3.13). -/
def PortStat.reset : PortStat :=
  { state := .off, gen := 0, width := 0, lanes := 0, rxGood := 0, reason := 0, dir := 0, pos := 0, assigned := false, lastFail := 0 }

/-- SHR_PORT_FAR at reset (03 Table 3.14). -/
def PortFar.reset : PortFar := { node := 0, dir := 0, pos := 0, preset := 0, cls := 0, valid := false }

/-- A port's training record before it trains. -/
def PortTrain.reset : PortTrain :=
  { genCap := 0, ownClass := 0, gen := 0, farGenCap := 0, farClass := 0, farRxGood := 0, farIdValid := false, ts2Run := 0, lastTs2 := 0,
    target := 0, locked := 0, aligned := 0, converged := 0, tries := 0, bestGen := 0, bestLanes := 0, attempts := 0,
    delayNs := 0, refHeld := false, disabled := false, barred := 0 }

/-- No retrain requested. -/
def PortRetrain.reset : PortRetrain := { own := none, leads := false }

/-- A sending side with nothing sent. -/
def PortTx.reset : PortTx :=
  { lsn := 0, retry := [], replays := 0, queue := [], credit := [], farCount := [], lastVc := 4, wireUntil := 0,
    resend := none, mgmtSent := [] }

/-- A receiving side that has accepted nothing. -/
def PortRx.reset : PortRx := { lsn := 0, gap := false, freed := [] }

/-- SHR port counters at reset (03 Table 3.16). -/
def PortCnt.reset : PortCnt :=
  { crc := 0, fecCorr := 0, fecUncorr := 0, replay := 0, retrain := 0, degrade := 0, loss := 0, proto := 0,
    replayTimes := [] }

/-- A port at reset. -/
def PortRec.reset : PortRec :=
  { stat := .reset, far := .reset, train := .reset, rt := .reset, tx := .reset, rx := .reset, cnt := .reset, session := 0 }

/-- The link block at reset (03 Tables 3.12, 3.17). -/
def Shr.reset : Shr :=
  { preset := 0, presetOk := false, genLimit := 0, ports := [], stayOk := 0, spareUsed := 0, stayMap := [], stayReplays := [] }

/-- A fault source at reset (14 Table 14.6). SURVIVE by R417 follows the entry class and is loaded at start. -/
def SrcRec.reset : SrcRec :=
  { any := false, first := false, survive := none, n := 0, wMs := 1000, raised := 0, forcedSeen := false,
    winOpen := false, winStart := 0, winCount := 0, lastAt := 0, total := 0, lastCtx := none, lastUnit := 0 }

/-- An idle reaction slot. -/
def SlotRec.reset : SlotRec :=
  { active := false, cls := 0, actionDone := false, source := 0, merged := 0, lastAt := 0, doneAt := 0,
    recoveries := [] }

/-- An empty log record. -/
def TtlRecord.reset : TtlRecord :=
  { type := 0, cls := 0, slot := 0, flags := 0, source := 0, roundN := 0, time := 0, count := 0, unit := 0,
    ctx := none, recCount := 0, merged := 0 }

/-- FAULT_N high and TTL_PIN 0 (14 Table 14.5). -/
def TtlPin.reset : TtlPin :=
  { hold := false, low := false, c4 := false, pulses := 0, lowSince := 0, minDone := false, highSince := none,
    waiting := false }

/-- Telltale at reset (14 Table 14.5). PIN_MIN, AUTO_HOLD and INJECT_EN come from the rigging image; before it is loaded
PIN_MIN is C3, R411's default, and the others 0. DESIGN CHOICE (log 5). -/
def Ttl.reset : Ttl :=
  { src := [], slots := [], pkg := .reset, firstLatched := false, firstClass := 0, firstSources := 0,
    firstForced := false, firstTime := 0, pinMin := 3, autoHold := false, injectEn := false, quietMs := 100,
    limits := [0, 8, 3, 4], recTotal := 0, pin := .reset, forceCtx := 0, forceValid := false, log := [], head := 0,
    tail := 0, ovf := false, lost := 0, maskedCnt := 0, landed := [], masking := false, noRelease := false, c4Source := none, pkgOrder := none,
    partOrders := [] }

/-- The forwarding counters at reset (07 Table 7.8). -/
def FwdCnt.reset : FwdCnt :=
  { noRoute := 0, aged := 0, malformed := 0, detqOvf := 0, dup := 0, staleGen := 0, lateRep := 0, detoured := 0,
    late := 0, flowAbort := 0 }

/-- A forwarding engine at reset (07 Table 7.8). -/
def FwdRec.reset : FwdRec :=
  { cnt := .reset, late := { stream := 0, tag := 0, cause := 0, src := 0, late := 0 }, rx := [], detq := [], peak := 0,
    inbox := [], filter := [], waiting := [] }

/-- Halyard's registers at reset (01 Tables 1.11, 1.12; 04 Tables 4.12–4.15). -/
def HlyReg.reset : HlyReg :=
  { nodeId := 0, nodeValid := false, cols := 0, rows := 0, pods := 0, shapeOk := false, state := .start,
    role := .member, admitted := false, quorum := false, reduced := false, admitCode := 0, master := 0xFFFF,
    standby := 0xFFFF, epoch := 0, prepared := false, oldHeld := false, installed := false, topoGen := 0,
    epochDrop := 0, takeover := 0 }

/-- The HLY_CMD mailbox at reset (04 Tables 4.16, 4.17). -/
def HlyBox.reset : HlyBox :=
  { opcode := 0, seq := 0, status := 0, statSeq := 0, done := false, busy := false, args := [], res := [] }

/-- A database that holds nothing. -/
def HlyDb.reset : HlyDb :=
  { nodes := [], links := [], time := 0, seen := [], neigh := [], ownSeq := 0, fingerprint := 0, eligible := false,
    confirmed := false, holdDown := [], settled := false, biases := [],
    announced := 0xFFFF, masterHeld := [], facts := [] }

/-- Nothing replicated, nothing counted. -/
def HlyRepl.reset : HlyRepl :=
  { seq := 0, acked := 0, replicaSeq := 0, replica := none, actions := [], reach := 0 }

/-- No epoch work. -/
def EpochWork.reset : EpochWork :=
  { phase := .idle, changes := [], guardDone := true, ready := [], epoch := 0, gen := 0, after := [],
    pendingAfter := [], late := [], needReplan := false, replanAll := false, replanNs := 0,
    wantReplan := false, wantAll := false, wantNs := 0, rerun := [], planned := [], fixedSeq := 0, switchAt := 0,
    extraNodes := [], nextEpoch := none, finalEpoch := none, joined := false,
    fixedNodes := [], fixedLinks := [] }

/-- A prepare that carries nothing. -/
def emptyPrepare : Prepare :=
  { epoch := 0, gen := 0, slots := [], tags := [], peers := [], windows := [], flows := [], ramps := [], same := false }

/-- An empty bank: every entry reads 0 (04 R125). -/
def Bank.reset : Bank :=
  { valid := false, gen := 0, cols := 0, rows := 0, nodes := [], links := [], prep := emptyPrepare }

/-- Halyard at reset. -/
def Hly.reset : Hly :=
  { reg := .reset, box := .reset, db := .reset, repl := .reset, work := .reset, bank0 := .reset, bank1 := .reset,
    commitAt := none, cur := none, waiting := [], finished := [], podSeq := 0, mctp := none, mctpStarted := false,
    mctpHdr := { src := 0, dst := 0, flags := 0 }, boxCmd := none,
    aborts := [], lateFlood := [], lateReport := [], restarts := 0, restartTry := 0, prepWait := none,
    lastSwitch := none }

/-- The Tack Planner at reset (05 Tables 5.9–5.11). -/
def Tkp.reset : Tkp :=
  { busy := false, kind := .place, grade := 0, reason := 0, rounds := 0, resvMax := 0xE0, replanUs := 300,
    placeMs := 20, lastScale := 0x100, cntJobs := 0, cntDeadline := 0, cntRefused := 0, cntFallback := 0, job := none,
    queue := [], resv := [], held := [], heldClaims := [],
    replanHeld := [], replanClaims := [], claims := [],
    ramp := { budgets := [], rates := [] }, rampWant := { budgets := [], rates := [] }, rampPlan := none }

/-- The page operation registers at reset (10 Table 10.11). -/
def PageCmd.reset : PageCmd := { begun := false, op := 0, ctx := 0, first := 0, count := 0, status := 0, done := false, busy := false }

/-- A partition at reset (06 Table 6.14). -/
def PartRec.reset : PartRec :=
  { state := .free, tag := 0, ctxMax := 0, scrubMib := 0, tenant := 0, live := false, keep := false, drain := false }

/-- The partition block at reset (06 Tables 6.13, 6.15). -/
def Part.reset : Part :=
  { ops := [], meterMark := 0, log2k := 0, parts := [], page := .reset, evq := { base := 0, size := 0, head := 0, tail := 0, ovf := false }, tagDrop := 0,
    meterLost := 0, energyUnattr := 0, ramps := [] }

/-- Meters at zero. -/
def Meters.zero : Meters := { tile := 0, energy := 0, hbm := 0, link := 0, ce := 0 }

/-- The base registers of a free context's page (06 Table 6.17). -/
def CtxBase.reset : CtxBase :=
  { heldTiles := [], life := .free, part := 0, tag := 0, event := 0, tenant := 0, func := none, meters := .zero, snap := .zero,
    snapTime := 0, minute := .zero, minTime := 0, minSeq := 0, dieTile := [], hbmMark := 0, ballastUj := 0 }

/-- A logical tile that holds nothing. -/
def TileRec.reset : TileRec :=
  { store := [], acc := [], accInt := 0, vreg := [], rng := 0, phase := .idle, pc := 0, loops := [], lines := [],
    tokens := [], lineN := 0, xdieN := 0, fabN := 0, portClosed := false, resetAt := none, toRetire := false,
    lastExpiry := none, badLines := [] }

/-- A map entry before start (08 Table 8.8): its values come from start. -/
def TileMapRec.reset : TileMapRec := { phys := 0, valid := false, spare := false }

/-- A physical tile before start (08 Table 8.9): its values come from start. DESIGN CHOICE (log 5). -/
def PhysRec.reset : PhysRec := { use := .mapped, logical := 0 }

/-- A stack before its first training (10 Table 10.10). -/
def HbmStack.reset : HbmStack := { present := false, usable := false, step := 0, badPch := 0, corr := 0, uncorr := [] }

/-- A FREE page (10 Table 10.11). -/
def PageRec.reset : PageRec := { use := .free, ctx := 0 }

/-- The memory at reset (10 Table 10.10). -/
def Hbm.reset : Hbm :=
  { stackTbl := [], s := 0, step := 0, low := false, pc := 0, pages := [], bytes := [], refresh := false, shown := false }

/-- A CLOSED stream's entry: zero (10 Table 10.12). -/
def StreamRec.reset : StreamRec :=
  { state := .closed, kind := 0, ctx := 0, peerSeen := false, peer := 0, gen := 0, depth := 0, base := 0, len := 0,
    channel := 0, tile := 0, windowNs := 0, credit := 0, firstSeq := 0, landed := 0, signal := 0, ring := 0, ringHead := 0,
    ringTail := 0, dropsIn := 0, dropsOut := 0, openTime := 0, anchorSeq := 0, anchorSlot := 0, heldFrom := .open_,
    freed := 0, lastCredit := none, lastLanding := 0, closedAt := 0 }

/-- The stream block at reset (10 Table 10.12). -/
def Strm.reset : Strm := { entries := [], cntClosed := 0, cntMsg := 0, cntCredit := 0 }

/-- A channel with no token yet. -/
def ChanRun.reset : ChanRun := { issued := 0, acked := 0, taken := 0, freed := 0 }

/-- The execution registers at reset (09 Table 9.15). -/
def Xc.reset : Xc :=
  { op := 0, status := 0, state := .unbound, done := false, busy := false, armOvf := false, armBad := false, img := 0,
    hbm := 0, tileBase := 0, useBase := false, streamBase := 0, stepBase := 0, cqBase := 0, cqSize := 0, cqHead := 0,
    cqTail := 0, cqPhase := true, latches := [], armHi := 0, next := 0, viol := { reason := 0, ch := 0, tile := none },
    image := none, queue := [], run := none, lastRelease := none, detected := none, owed := [] }

/-- The stream operation registers at reset (10 Table 10.12). -/
def StCmd.reset : StCmd :=
  { op := 0, stream := 0, status := 0, done := false, busy := false, args := [], res := [] }

/-- A counter at reset (15 Table 15.11). -/
def LuffUnit.reset : LuffUnit := { progress := 0, expired := false, expireCnt := 0 }

/-- No crash summary (15 Table 15.11). -/
def Crash.reset : Crash :=
  { valid := false, cause := 0, gen := 0, source := 0, time := 0, seq := 0, dump := 0, durationUs := 0 }

/-- The LUFF block at reset (15 Table 15.11). -/
def Luff.reset : Luff :=
  { winTile := 0xC8, winCe := 0x1F4, winLink := 0xA, winColl := 0x64, winHly := 0x3E8, drainUs := 0x32, rstOp := 0,
    rstCtx := 0, rstPart := 0, rstStatus := 0, rstDone := false, rstBusy := false, rstStarted := false,
    ladderParts := [], ladderPkg := false, rstFarnis := false, ctxOrders := [], lateOut := 0, collResets := [], partGen := [], pkgGen := 0,
    pkgResets := 0, lateDrop := 0, lastStream := 0, crash := .reset, dumpValid := false, dumpTiles := false,
    dumpSkipped := 0, dumpFailed := false, units := [], fences := [], lastFence := [] }

/-- CTX_RST at reset (15 Table 15.11). -/
def CtxRst.reset : CtxRst := { gen := 0, resets := 0, cause := 0, inReset := false }

/-- A window at reset (11 Tables 11.9, 11.10). -/
def Win.reset : Win := { base := 0, denied := false, count := 0 }

/-- A copy-engine queue at reset (12 Table 12.7). -/
def CeQueue.reset : CeQueue :=
  { base := 0, log2size := 0, cls := 0, idx := 0, enable := false, pi := 0, ci := 0, state := .disabled, haltStatus := 0,
    dbErr := false, cfgErr := false, abortIdx := 0, cur := none, h0Last := none, h1Last := none }

/-- The copy-engine registers of a context page at reset (12 Table 12.7). -/
def CtxCe.reset : CtxCe :=
  { queues := [], cqBase := 0, cqSize := 0, cqHead := 0, cqTail := 0, cqPhase := true, lastQ := 3 }

/-- A copy engine at reset (12 Table 12.8). -/
def CeEng.reset : CeEng := { failed := false, inReset := false, bytes := 0, lastPart := 7, lastCtx := [] }

/-- A context page at reset. -/
def CtxRec.reset : CtxRec :=
  { base := .reset, xc := .reset, st := .reset, win := .reset, ce := .reset, rst := .reset }

/-- CTX_CMD at reset (06 Table 6.16). -/
def CtxCmd.reset : CtxCmd :=
  { op := 0, part := 0, ctx := 0, func := 0, status := 0, statCtx := 0, done := false, busy := false, started := false }

/-- The boot block at reset (16 Table 16.13). -/
def Boot.reset : Boot :=
  { strap := 0, on := false, run := 0, startRun := 0, resetRun := false, steps := [], stepAt := [], ready := false, locked := false,
    rescue := false, noFirmware := false, copyB := false, fallback := false, form := 0, imageSeq := 0, cdieOk := 0, iodieOk := 0,
    partsReady := false, lost := [], progress := [], trainLate := false, fwRerun := false, meas := [],
    fw := { bundleOk := false, source := 0, hlySwitched := false, svn := 0, version := 0, tag := 0 },
    bcast := { offer := none, frags := [], store := [], good := [], ended := false, kidsDone := [], doneSent := false,
               adverts := [], nacks := 0, staged := none, committed := none, commitSeq := 0, offered := false,
               fetchFrom := none, late := 0 },
    jnlNext := 0, jnlIndex := 0, levels := [], jnlFull := false, rig := [],
    rigWrites := 0 }

/-- An MSI-X vector at reset: masked, as PCI Express resets it. PRESUMED (log 5). -/
def Msix.reset : Msix := { addr := 0, data := 0, masked := true, pending := false, lastAt := none }

/-- A compute die under Reef at reset (13 Table 13.6). -/
def ReefDie.reset : ReefDie :=
  { vset := 0, vtarget := none, capDrop := 0, idleSince := 0, power := 0, resetBallast := 0, hold := false, idleLow := false,
    okSince := none }

/-- A partition under Reef at reset (13 Table 13.6). -/
def ReefPart.reset : ReefPart :=
  { ballast := 0, phase := 0, assigned := false, group := 0, groupsM1 := 0, windowUs := 0, spacingNs := 0, rate := 0,
    budget := 0, attributed := 0, target := 0, windowOpen := false, ramping := false, ready := false, armSeq := 0,
    owner := none, withdrawUntil := none }

/-- No tray report yet (13 Table 13.6). -/
def TrayInfo.reset : TrayInfo :=
  { tUp := 0, tDown := 0, pTray := 0, share := 0, soc := 0, battOk := false, shelfOk := 0, cool := 0, flow := 0,
    cduOk := false, at_ := none }

/-- Reef at reset (13 Table 13.6). -/
def Reef.reset : Reef :=
  { capLimiting := false, capHold := false, ballastHold := false, stale := false, fallback := false, scaled := false,
    rampUp := 0, tray := .reset, p100us := 0, p1ms := 0, samples := [], belowSince := none, dies := [], parts := [],
    ballastLog := [], cntCapHold := 0, cntBallastHold := 0, cntRiseExcess := 0, noticed := none, noticeAt := 0, noticeStop := false,
    readySent := false,
    armSeq := 0, lastReplan := none }

/-- The host interface at reset (11 Table 11.9). -/
def Hst.reset : Hst :=
  { links := [], cohRead := false, pfWin := .reset, numVf := 0, vfEn := false, flushCnt := 0, watches := [] }

/-- A host link before it trains (11 Table 11.8). -/
def HstLink.reset : HstLink :=
  { bigTags := false, up := false, degraded := false, rate := 0, flit := false, proto := 0, width := 0, downCnt := 0 }

/-- A watch entry at reset (11 Table 11.9). -/
def Watch.reset : Watch := { valid := false, bad := false, lo := 0, hi := 0, tgt := 0, held := false }

/-- A site before the busbar rises (17 Table 17.4). -/
def SiteRec.reset : SiteRec :=
  { eid := none, state := .off, ident := none, group := 0, act := none, retried := false, cycles := [], faultWait := false,
    startRead := false, rereads := 0, digests := [] }

/-- Farnis before the busbar rises, its settings at their defaults (17 Table 17.11). Its readings start with none taken. DESIGN CHOICE
(log 5). -/
def Farnis.reset : Farnis :=
  { hostEid := none, mismatch := false, running := false, seq := 0, log := [], settings := [], shelf := [0x58, 0x59, 0x5A, 0x5B, 0x5C, 0x5D], line := (19200, false),
    modules := [], battGood := false, battAge := none, socAge := none, soc := 0, cduTemp := 0, cduFlow := 0, cduAge := none, reportSeq := 0,
    sites := [], order := [], trayFault := false, sagged := [], fwStaged := false }

/-- The scan chains before use: every instruction register at its reset value (log 5), SCAN_EXT_N high by its pull-up (19 Tables 19.7, 19.8). -/
def Scan.reset : Scan := { ir := [], extN := true, applied := true }

/-- The card's power controller without slot power. -/
def Card.reset : Card := { slot12v := false, aux := 0, pg := false, c4Off := false, led := false, peer := none }

/-- The machine right after reset: before its rails reach power-good. -/
def Machine.reset : Machine :=
  { pins := .reset, fuse := .reset, boot := .reset, time := .reset, corner := .reset, shr := .reset, fwd := [],
    txSeq := [], txn := [], coll := [], collFailed := [], tiles := [], tileMap := [], tilePhys := [], hbm := .reset,
    strm := .reset, luff := .reset, hly := .reset, tkp := .reset, slc := .reset, part := .reset,
    ctx := [], ctxCmd := .reset, ttl := .reset, acc := { count := 0, offset := 0, cause := 0, func := 0 }, reef := .reset, hst := .reset,
    eng := [], msix := [], hostMem := [], flash := [], far := .reset, scan := .reset, card := .reset, free := 0, out := [] }

/-- The state right after reset, with no command waiting. -/
def State.reset : State := { m := .reset, pending := [] }

end Sys2Proof.Machine
end

