-- ==== Sys2Proof/Machine/Ops.lean ====
section
/-!
DEFINITION. The shared operations: reading and writing the parts of the state, raising a Telltale event, sending, the
boot journal, interrupts.
-/
namespace Sys2Proof.Machine

/-! ### Parts of the state -/

/-- The timebase as a number of nanoseconds. -/
def Machine.ns (m : Machine) : Nat := m.time.now.toNat

/-- Port SPp. -/
def Machine.port (m : Machine) (p : Nat) : PortRec := tget .reset m.shr.ports p

/-- Write port SPp. -/
def Machine.setPort (m : Machine) (p : Nat) (r : PortRec) : Machine :=
  { m with shr := { m.shr with ports := tset .reset m.shr.ports p r } }

/-- Change port SPp. -/
def Machine.modPort (m : Machine) (p : Nat) (f : PortRec → PortRec) : Machine := m.setPort p (f (m.port p))

/-- The forwarding engine of I/O die d. -/
def Machine.fwdAt (m : Machine) (d : Nat) : FwdRec := tget .reset m.fwd d

/-- Write the forwarding engine of I/O die d. -/
def Machine.setFwd (m : Machine) (d : Nat) (r : FwdRec) : Machine := { m with fwd := tset .reset m.fwd d r }

/-- Change the forwarding engine of I/O die d. -/
def Machine.modFwd (m : Machine) (d : Nat) (f : FwdRec → FwdRec) : Machine := m.setFwd d (f (m.fwdAt d))

/-- Change the counters of I/O die d. -/
def Machine.modFwdCnt (m : Machine) (d : Nat) (f : FwdCnt → FwdCnt) : Machine :=
  m.modFwd d fun r => { r with cnt := f r.cnt }

/-- Context page c. -/
def Machine.ctxAt (m : Machine) (c : Nat) : CtxRec := tget .reset m.ctx c

/-- Write context page c. -/
def Machine.setCtx (m : Machine) (c : Nat) (r : CtxRec) : Machine := { m with ctx := tset .reset m.ctx c r }

/-- Change context page c. -/
def Machine.modCtx (m : Machine) (c : Nat) (f : CtxRec → CtxRec) : Machine := m.setCtx c (f (m.ctxAt c))

/-- Change the base registers of context page c. -/
def Machine.modBase (m : Machine) (c : Nat) (f : CtxBase → CtxBase) : Machine :=
  m.modCtx c fun r => { r with base := f r.base }

/-- Partition i. -/
def Machine.partAt (m : Machine) (i : Nat) : PartRec := tget .reset m.part.parts i

/-- Write partition i. -/
def Machine.setPart (m : Machine) (i : Nat) (r : PartRec) : Machine :=
  { m with part := { m.part with parts := tset .reset m.part.parts i r } }

/-- Change partition i. -/
def Machine.modPart (m : Machine) (i : Nat) (f : PartRec → PartRec) : Machine := m.setPart i (f (m.partAt i))

/-- A slice of the master's. -/
def Machine.sliceAt (m : Machine) (tag : Nat) : SliceRec := tget .reset m.slc.recs tag

/-- Write a slice of the master's. -/
def Machine.setSlice (m : Machine) (tag : Nat) (r : SliceRec) : Machine :=
  { m with slc := { m.slc with recs := tset .reset m.slc.recs tag r } }

/-- Change a slice of the master's. -/
def Machine.modSlice (m : Machine) (tag : Nat) (f : SliceRec → SliceRec) : Machine := m.setSlice tag (f (m.sliceAt tag))

/-- Change Halyard's registers. -/
def Machine.modHly (m : Machine) (f : HlyReg → HlyReg) : Machine := { m with hly := { m.hly with reg := f m.hly.reg } }

/-- Change Halyard's database. -/
def Machine.modDb (m : Machine) (f : HlyDb → HlyDb) : Machine := { m with hly := { m.hly with db := f m.hly.db } }

/-- Change the master's epoch work. -/
def Machine.modWork (m : Machine) (f : EpochWork → EpochWork) : Machine :=
  { m with hly := { m.hly with work := f m.hly.work } }

/-- Change the timebase block. -/
def Machine.modTime (m : Machine) (f : TimeBlk → TimeBlk) : Machine := { m with time := f m.time }

/-- Change Telltale. -/
def Machine.modTtl (m : Machine) (f : Ttl → Ttl) : Machine := { m with ttl := f m.ttl }

/-- This package's node ID as a frame carries it (01 R28). -/
def Machine.node (m : Machine) : NodeId := m.hly.reg.nodeId.setWidth 16

/-- Whether X1 is fitted (02 R49). -/
def Machine.twoDie (m : Machine) : Bool := bitAt m.fuse.iodieMask 1

/-- The I/O die that carries a port (03 Model). -/
def dieOfPort (p : Nat) : Nat := p / 12

/-- A free value: the next one, and the machine with its counter advanced (log 7). -/
def Machine.fresh (m : Machine) : BitVec 64 × Machine := (Config.freeBits m.free, { m with free := m.free + 1 })

/-- An idle nanosecond: the timebase counts while it runs (02 R66), slewed by at most 100 parts per million towards its
parent (02 R68). DESIGN CHOICE (log 2). -/
def Machine.tick (m : Machine) : Machine :=
  if m.time.running then
    m.modTime fun t =>
      if t.slewPhase + 1 < 10000 then { t with now := t.now + 1, slewPhase := t.slewPhase + 1 }
      else if 0 < t.slew then { t with now := t.now + 2, slewPhase := 0, slew := t.slew - 1 }
      else if t.slew < 0 then { t with slewPhase := 0, slew := t.slew + 1 }
      else { t with now := t.now + 1, slewPhase := 0 }
  else m

/-- Advance a luff counter by one piece of work (15 R419). -/
def Machine.luffStep (m : Machine) (n : Nat) : Machine :=
  let u := tget LuffUnit.reset m.luff.units n
  { m with luff := { m.luff with units := tset .reset m.luff.units n { u with progress := (u.progress + 1) % 65536 } } }

/-- A Halyard task completes an item: a message of its own taken, a command or a job ended, an exchange made (15 Table 15.1). The spec
counts items and does not say what one is. DEDUCED (log 59). -/
def Machine.hlyItem (m : Machine) (t : Nat) : Machine := m.luffStep (428 + t)

/-! ### Sending -/

/-- Record something sent (log 8). -/
def Machine.emit (m : Machine) (o : Out) : Machine := { m with out := m.out ++ [o] }

/-- Send a management message to a node. -/
def Machine.tell (m : Machine) (dst : NodeId) (msg : Mgmt) : Machine := m.emit (.mgmt dst msg)

/-- Send a management message to each listed node but this one. -/
def Machine.tellAll (m : Machine) (dsts : List NodeId) (msg : Mgmt) : Machine :=
  (dsts.filter (· != m.node)).foldl (fun m d => m.tell d msg) m

/-! ### Telltale sources (14 Table 14.1) -/

/-- SHR_CORR, SHR_RETRAIN, SHR_DEGRADE, SHR_LOSS, SHR_MISWIRE, SHR_PROTO (k = 0–5) of port p. -/
def srcShr (p k : Nat) : Nat := p * 6 + k
/-- STAY_CORR, STAY_FAIL (k = 0–1) of Stay link n. -/
def srcStay (n k : Nat) : Nat := 144 + n * 2 + k
/-- TILE_STORE_CORR, TILE_STORE_UNCORR (k = 0–1) of logical tile l. -/
def srcTileStore (l k : Nat) : Nat := 168 + l * 2 + k
/-- TILE_SPARE_EXHAUSTED of die n. -/
def srcSpare (n : Nat) : Nat := 424 + n
/-- HBM_CORR, HBM_UNCORR (k = 0–1) of stack n. -/
def srcHbm (n k : Nat) : Nat := 428 + n * 2 + k
/-- HST_LINK_DOWN, HST_LINK_DEGRADE, HST_CPL_ERR (k = 0–2) of interface i. -/
def srcHst (i k : Nat) : Nat := 445 + i * 3 + k
/-- SHR_FWD_MALFORMED … SHR_FLOW_ABORT (k = 0–7) of I/O die d. -/
def srcFwd (d k : Nat) : Nat := 511 + d * 8 + k

/-- The usual entry class of a source (14 Table 14.1 and the tables it names); `none` for a reserved index. -/
def entryClass (i : Nat) : Option Nat :=
  if i < 144 then some ([1, 0, 1, 2, 1, 2].getD (i % 6) 0)
  else if i < 168 then some (if i % 2 = 0 then 1 else 3)
  else if i < 424 then some (if i % 2 = 0 then 1 else 2)
  else if i < 428 then some 1
  else if i < 444 then some (if i % 2 = 0 then 1 else 2)
  else if i < 445 then some 1
  else if i < 451 then some ([1, 0, 1].getD ((i - 445) % 3) 0)
  else if i < 455 then some ([0, 1, 1, 0].getD (i - 451) 0)
  else if i < 460 then some ([0, 0, 0, 1, 1].getD (i - 455) 0)
  else if i < 480 then some 2
  else if i < 484 then some 3
  else if i < 488 then some ([1, 1, 0, 1].getD (i - 484) 0)
  else if i < 492 then some 1
  else if i < 496 then some 4
  else if i < 498 then some 1
  else if i < 504 then some ([1, 1, 1, 0, 1, 2].getD (i - 498) 0)
  else if i < 508 then some ([0, 1, 0, 1].getD (i - 504) 0)
  else if i < 511 then some ([1, 2, 0].getD (i - 508) 0)
  else if i < 527 then some ([1, 1, 1, 1, 1, 0, 0, 2].getD ((i - 511) % 8) 0)
  else if i < 530 then some ([0, 0, 1].getD (i - 527) 0)
  else if i < 534 then some ([2, 0, 0, 0].getD (i - 530) 0)
  else if i < 536 then none
  else if i < 552 then some ([2, 2, 1, 2, 1, 0, 0, 0, 1, 0, 1, 4, 4, 1, 3, 1].getD (i - 536) 0)
  else if i < 564 then some ([1, 1, 1, 0, 4, 0, 1, 1, 1, 1, 0, 0].getD (i - 552) 0)
  else none

/-- Whether a source's unit lies in the package domain, so that a package reset masks it (14 R416). -/
def maskedSource (i : Nat) : Bool :=
  (decide (144 ≤ i) && decide (i < 445)) || (decide (457 ≤ i) && decide (i < 480)) ||
  (decide (488 ≤ i) && decide (i < 496)) || (decide (527 ≤ i) && decide (i < 530)) ||
  [536, 537, 539, 549, 550].contains i

/-- Raise an event of a source at an entry class of its own (14 R396). While a package reset masks the source the event
is discarded and counted (14 R416). -/
def Machine.raiseAs (m : Machine) (src cls unit : Nat) (ctx : Option Nat) : Machine :=
  if m.ttl.masking && maskedSource src then m.modTtl fun t => { t with maskedCnt := satAdd32 t.maskedCnt 1 }
  else m.modTtl fun t =>
    { t with landed := t.landed ++ [{ source := src, count := 1, unit := unit, ctx := ctx, cls := cls, forced := false }] }

/-- Raise an event of a source at its usual entry class (14 R396). -/
def Machine.raise (m : Machine) (src unit : Nat) : Machine := m.raiseAs src ((entryClass src).getD 0) unit none

/-- Raise an event against a context (14 R396). -/
def Machine.raiseCtx (m : Machine) (src unit ctx : Nat) : Machine :=
  m.raiseAs src ((entryClass src).getD 0) unit (some ctx)

/-! ### Interrupts (11 R327) -/

/-- Send a vector's message when the vector is unmasked, or set its pending bit. Causes within 1 µs of the last message
make no further message. Function 0 is the PF, n is VF n. -/
def Machine.interrupt (m : Machine) (f v : Nat) : Machine :=
  let k := f * 512 + v
  let e := tget .reset m.msix k
  if e.masked then { m with msix := tset .reset m.msix k { e with pending := true } }
  else
    let fresh := match e.lastAt with
      | none => true
      | some t => decide (t.toNat + 1000 ≤ m.ns)
    if fresh then
      { m with msix := tset .reset m.msix k { e with lastAt := some m.time.now } }.emit (.msix f v e.addr e.data)
    else m

/-- The vector of cause k of a context: of its VF, or vector 8 + 4c + k of the PF (11 Table 11.5). -/
def Machine.ctxInterrupt (m : Machine) (c k : Nat) : Machine :=
  match (m.ctxAt c).base.func with
  | none => m
  | some 0 => m.interrupt 0 (8 + 4 * c + k)
  | some n => m.interrupt n k

/-! ### The boot journal (16 R464) -/

/-- Where the boot journal begins in flash (16 Table 16.1). -/
def journalBase : Nat := 0x03E00000
/-- How many 16-byte slots the journal region has. -/
def journalSlots : Nat := 131072

/-- A journal record's 16 bytes (16 Table 16.7). -/
def journalBytes (type step level : Nat) (reset : Bool) (run : Word) (d1 d2 : Nat) : List Byte :=
  let body := leBytes 14 (pack [(0, type), (8, step), (14, level), (16, flag reset), (32, run.toNat),
    (64, d1 % 65536), (80, d2 % 4294967296)])
  body ++ leBytes 2 (crc16 body).toNat

/-- The steps that a reset run runs (16 Table 16.6, column Runs). -/
def stepInReset (k : Nat) : Bool := [10, 14, 15, 16, 17, 18, 19, 21, 22, 34, 35, 36, 38, 39, 40].contains k

/-- The run that a record of a step belongs to: a start run's own steps go on during a reset run (16 R451). -/
def Machine.stepRun (m : Machine) (k : Nat) : Bool × Word :=
  if m.boot.resetRun && k != 0 && !(stepInReset k) then (false, m.boot.startRun) else (m.boot.resetRun, m.boot.run)

/-- Write a journal record at the next slot; with no erased slot, write nothing and raise BOOT_JOURNAL (16 R464, R465). -/
def Machine.journal (m : Machine) (type step level d1 d2 : Nat) : Machine :=
  let r := m.stepRun step
  if m.boot.jnlFull then m
  else
    let a := journalBase + 16 * m.boot.jnlNext
    if tget Config.erased m.flash a = 0xFF then
      { m with
        flash := mwrite Config.erased m.flash a (journalBytes type step level r.1 r.2 d1 d2)
        boot := { m.boot with jnlNext := (m.boot.jnlNext + 1) % journalSlots } }
    else { m with boot := { m.boot with jnlFull := true } }.raise 558 0

/-- Write a NOTE of Table 16.8. -/
def Machine.note (m : Machine) (step code arg d2 : Nat) : Machine :=
  m.journal 0x07 step 0 (code + 256 * arg) d2

/-! ### Host memory -/

/-- Apply the host's own stores to host memory (log 12). -/
def Machine.hostStores (m : Machine) (c : Cells) : Machine := { m with hostMem := mcells Config.blank m.hostMem c }

/-- Read host memory. -/
def Machine.hostRead (m : Machine) (a n : Nat) : List Byte := mread Config.blank m.hostMem a n

/-- Write host memory. -/
def Machine.hostWrite (m : Machine) (a : Nat) (l : List Byte) : Machine :=
  { m with hostMem := mwrite Config.blank m.hostMem a l }

/-- The read-back flush over writes to host memory: n flush reads, one on each interface that carried any, which HST_FLUSH_CNT counts (11 R338). -/
def Machine.flushReads (m : Machine) (n : Nat) : Machine :=
  { m with hst := { m.hst with flushCnt := satAdd32 m.hst.flushCnt n } }

/-! ### Messages to Farnis (17 R482) -/

/-- A vendor message: the vendor ID, most significant byte first, the 4-byte header and the body (17 R482). -/
def mctpMsg (cls cmd : Nat) (response noReply : Bool) (status : Nat) (body : List Byte) : List Byte :=
  [0x1F, 0x3B, BitVec.ofNat 8 cls, BitVec.ofNat 8 cmd, BitVec.ofNat 8 (flag response + flag noReply * 2),
   BitVec.ofNat 8 status] ++ body

/-- Farnis's endpoint ID on the package buses (17 R481). -/
def farnisEid : BitVec 8 := 0x08

/-- The endpoint ID that Farnis gives the package at site k (17 R481). -/
def siteEid (k : Nat) : BitVec 8 := BitVec.ofNat 8 (0x20 + k)

/-- The endpoint ID of site k's package, once Farnis has given it. -/
def Machine.eidOf (m : Machine) (k : Nat) : Option (BitVec 8) := (tget .reset m.far.sites k).eid

/-- Send a message of the package's own to Farnis; a card sends it to the management controller from which it last received a command, or to the bus
owner when none (20 R550), at the null endpoint ID. DESIGN CHOICE (log 47). -/
def Machine.toFarnis (m : Machine) (b : List Byte) : Machine :=
  if m.pins.form then match m.card.peer with
    | some (host, own) => m.emit (.mctp own host b)
    | none => m.emit (.mctp 0 0 b)
  else m.emit (.mctp ((m.eidOf m.pins.site.toNat).getD (siteEid m.pins.site.toNat)) farnisEid b)

/-- Whether a message comes from the host's management controller through Farnis (17 R481). -/
def Machine.bridged (m : Machine) (h : MsgHdr) : Bool := h.src != farnisEid && !m.pins.form && m.far.running

/-- Answer a request, unless its FLAGS say that no response is expected (17 R482); Farnis bridges the answer to the host's back (R481). -/
def Machine.answerMctp (m : Machine) (h : MsgHdr) (cls cmd status : Nat) (body : List Byte) : Machine :=
  if bitAt h.flags 1 then m
  else
    let b := mctpMsg cls cmd true false status body
    let m := m.emit (.mctp h.dst h.src b)
    if m.bridged h then m.emit (.hostMsg h.dst h.src b) else m

/-- Whether this package hears a message: it goes to the endpoint ID it was given, by Farnis or, on a card, by the host's bus owner, whose choice is
not the machine's (17 R481, 20 R550). -/
def Machine.hears (m : Machine) (h : MsgHdr) : Bool := m.pins.form || m.eidOf m.pins.site.toNat == some h.dst

/-- A vendor request reaches its endpoint (17 R481, R482): one of the host's for another site is put on that site's bus; a response is no request; reserved
FLAGS bits are answered BAD_ARG (00 R15). -/
def Machine.vendor (m : Machine) (h : MsgHdr) (cls cmd : Nat) (body : List Byte) (run : Machine → Machine) : Machine :=
  if m.hears h then
    if bitAt h.flags 0 then m
    else
    let m := if m.pins.form then { m with card := { m.card with peer := some (h.src, h.dst) } } else m
    if 4 ≤ h.flags.toNat then m.answerMctp h cls cmd 0x03 []
    else run m
  else match (List.range 16).find? fun k => m.bridged h && m.eidOf k == some h.dst with
    | some k => m.emit (.farnis k (mctpMsg cls cmd false (bitAt h.flags 1) 0 body))
    | none => m

/-- The bytes of words, little-endian. -/
def wordBytes (l : List Word) : List Byte := l.flatMap fun w => leBytes 4 w.toNat

/-! ### Access errors (18 R512) -/

/-- Count a discarded access: its offset, cause and function (18 R512). -/
def Machine.accErr (m : Machine) (offset cause func : Nat) : Machine :=
  { m with acc := { count := satAdd32 m.acc.count 1, offset := offset, cause := cause, func := func } }

/-- The outcome of a command that always completes: the machine changed, the queue left alone. -/
def done (s : State) (m : Machine) : Host.Outcome State Fault Refusal := .next { s with m := m }

end Sys2Proof.Machine
end

