-- ==== Sys2Proof/Machine/Copies.lean ====
section
/-!
DEFINITION. The rigging copies in flash: header, directory, sections, signed sections, fields and Telltale entries
(16 R452–R457, Tables 16.1–16.5).
-/
namespace Sys2Proof.Machine

/-- Where a copy begins: A or B (16 Table 16.1). -/
def copyBase (b : Bool) : Nat := if b then 0x01F00000 else 0
/-- How long a copy may be (16 Table 16.2). -/
def copyMax : Nat := 0x01F00000

/-- Bytes of the flash. -/
def Machine.flashBytes (m : Machine) (a n : Nat) : List Byte := mread Config.erased m.flash a n

/-- A directory entry (16 R453). -/
structure DirEntry where
  type : Nat
  off : Nat
  len : Nat
  crc : Nat
  deriving DecidableEq, Repr

/-- A copy's header (16 Table 16.2). -/
def Machine.copyHeader (m : Machine) (b : Bool) : List Byte := m.flashBytes (copyBase b) 64

/-- A copy's SEQUENCE. -/
def Machine.copySeq (m : Machine) (b : Bool) : Nat := leAt (m.copyHeader b) 0x0C 4

/-- A copy's FORM. -/
def Machine.copyForm (m : Machine) (b : Bool) : Nat := leAt (m.copyHeader b) 0x10 1

/-- Whether a header is well formed (16 R453, Table 16.2). -/
def copyHeaderOk (h : List Byte) : Bool :=
  leAt h 0 4 == 0x47474952 && leAt h 4 2 == 1 && leAt h 6 2 == 0x40 && decide (leAt h 8 4 ≤ copyMax) && decide (leAt h 0x10 1 ≤ 1) &&
  decide (2 ≤ leAt h 0x11 1) && decide (leAt h 0x11 1 ≤ 5) && zeroAt h 0x12 42 &&
  leAt h 0x3C 4 == (crc32 (h.take 60 ++ leBytes 4 0)).toNat

/-- The directory of a copy (16 R453). -/
def Machine.copyDir (m : Machine) (b : Bool) : List DirEntry :=
  (List.range (leAt (m.copyHeader b) 0x11 1)).map fun i =>
    let e := m.flashBytes (copyBase b + 64 + 16 * i) 16
    { type := leAt e 0 2, off := leAt e 4 4, len := leAt e 8 4, crc := leAt e 12 4 }

/-- Whether two sections do not overlap. -/
def DirEntry.apart (a b : DirEntry) : Bool := decide (a.off + a.len ≤ b.off) || decide (b.off + b.len ≤ a.off)

/-- Whether every pair of a list, the earlier first, satisfies a test. -/
def allPairs {α : Type} (r : α → α → Bool) : List α → Bool
  | [] => true
  | x :: t => t.all (r x) && allPairs r t

/-- Whether a directory is well formed: ascending known TYPEs once each, both required sections, 4 KiB starts within TOTAL_LEN, no
overlap (16 R453, Table 16.3). -/
def Machine.copyDirOk (m : Machine) (b : Bool) : Bool :=
  let total := leAt (m.copyHeader b) 8 4
  let ds := m.copyDir b
  let n := ds.length
  ds.all (fun d => decide (1 ≤ d.type) && decide (d.type ≤ 5) && d.off % 4096 == 0 && decide (64 + 16 * n ≤ d.off) &&
    decide (d.off + d.len ≤ total)) &&
  (List.range n).all (fun i => zeroAt (m.flashBytes (copyBase b + 64 + 16 * i) 16) 2 2) &&
  allPairs (fun (x y : DirEntry) => decide (x.type < y.type)) ds && allPairs DirEntry.apart ds &&
  (ds.any fun d => d.type == 1) && ds.any fun d => d.type == 3

/-- A section's bytes; `none` when the copy has none of that TYPE. -/
def Machine.copySection (m : Machine) (b : Bool) (type : Nat) : Option (List Byte) :=
  ((m.copyDir b).find? fun d => d.type == type).map fun d => m.flashBytes (copyBase b + d.off) d.len

/-- Whether every section's CRC holds (16 R453). -/
def Machine.copyCrcOk (m : Machine) (b : Bool) : Bool :=
  (m.copyDir b).all fun d => (crc32 (m.flashBytes (copyBase b + d.off) d.len)).toNat == d.crc

/-! ### Signed sections (16 R454, R455) -/

/-- The payload chunks a signed header counts. -/
def sigChunks (l : List Byte) : Nat := leAt l 0x10 4

/-- The length of a manifest: the header and its digest list. -/
def manifestLen (chunks : Nat) : Nat := 256 + 48 * chunks

/-- A signed section's manifest. -/
def manifestOf (l : List Byte) : List Byte := l.take (manifestLen (sigChunks l))

/-- The tag of a manifest: the first four bytes of its digest, little-endian (16 R454). -/
def tagOf (man : List Byte) : Word := BitVec.ofNat 32 (leAt (sha384 man) 0 4)

/-- Chunk i of a payload, the last padded with zeros. -/
def payloadChunk (payload : List Byte) (i : Nat) : List Byte :=
  let c := (payload.drop (4096 * i)).take 4096
  c ++ List.replicate (4096 - c.length) 0

/-- Whether chunk i matches its digest in a manifest. -/
def chunkOk (man : List Byte) (i : Nat) (chunk : List Byte) : Bool := sha384 chunk == (man.drop (256 + 48 * i)).take 48

/-- Whether a signed header is well formed (16 Table 16.4): KIND 1 stage-0, 2 bundle. -/
def sigHeaderOk (l : List Byte) (kind : Nat) : Bool :=
  let c := sigChunks l
  let len := leAt l 0x20 4
  leAt l 0 4 == 0x4E474953 && leAt l 4 2 == kind && decide (leAt l 6 1 ≤ 3) && zeroAt l 7 1 && zeroAt l 0x0D 3 && zeroAt l 0x24 28 &&
  c == ceilDiv len 4096 && decide (len ≤ if kind = 1 then 0x800000 else 0x1800000) &&
  (if kind = 1 then zeroAt l 0x14 12
   else decide (leAt l 0x14 4 ≤ c) && decide (leAt l 0x18 4 + leAt l 0x1C 4 ≤ c))

/-- Whether a manifest is authentic but for SVN: its key hash is fused and not revoked, and its signature verifies (16 R455). -/
def Machine.manifestOk (m : Machine) (man : List Byte) (kind : Nat) : Bool :=
  let slot := leAt man 6 1
  let key := (man.drop 0x40).take 96
  sigHeaderOk man kind && man.length == manifestLen (sigChunks man) &&
  sha384 key == beBytes 48 (m.fuse.keyHash.getD slot 0).toNat && !(bitAt m.fuse.keyRevoked slot) &&
  ecdsaOk key ((man.drop 0xA0).take 96) (man.take 0xA0 ++ man.drop 256)

/-- Whether a manifest's SVN is at least the fused one (16 R455). -/
def Machine.svnOk (m : Machine) (man : List Byte) : Bool := decide (m.fuse.svnMin.toNat ≤ leAt man 0x0C 1)

/-- A signed section's payload. -/
def payloadOf (l : List Byte) : List Byte := (l.drop (manifestLen (sigChunks l))).take (leAt l 0x20 4)

/-- The first payload chunk that does not match its digest. -/
def badChunk (l : List Byte) : Option Nat :=
  (List.range (sigChunks l)).find? fun i => !(chunkOk (manifestOf l) i (payloadChunk (payloadOf l) i))

/-- Whether a signed section is authentic (16 R455). -/
def Machine.sectionOk (m : Machine) (l : List Byte) (kind : Nat) : Bool :=
  m.manifestOk (manifestOf l) kind && m.svnOk (manifestOf l) && (badChunk l).isNone

/-- A bundle's identity from its manifest (16 R454, Table 16.10). -/
def bundleIdOf (man : List Byte) : BundleId :=
  { tag := tagOf man, version := BitVec.ofNat 32 (leAt man 8 4), chunks := sigChunks man,
    mchunks := ceilDiv (manifestLen (sigChunks man)) 4096 }

/-! ### Fields and Telltale entries (16 R456, R457) -/

/-- A section of 8-byte entries. -/
def entries8 (l : List Byte) : List (List Byte) := (List.range (l.length / 8)).map fun i => (l.drop (8 * i)).take 8

/-- The fields of a FIELDS section. -/
def fieldsOf (l : List Byte) : List (Nat × Nat) := (entries8 l).map fun e => (leAt e 0 2, leAt e 4 4)

/-- Whether a FIELDS section is well formed: known numbers, ascending, once each (16 R456; 01 R20). -/
def fieldsOk (l : List Byte) : Bool :=
  l.length % 8 == 0 && (entries8 l).all (fun e => zeroAt e 2 2) &&
  (fieldsOf l).all (fun f => decide (1 ≤ f.1) && decide (f.1 ≤ 15)) &&
  allPairs (fun (x y : Nat × Nat) => decide (x.1 < y.1)) (fieldsOf l)

/-- Whether a TTL section is well formed: ascending sources, once each, none reserved (16 R457). -/
def ttlOk (l : List Byte) : Bool :=
  l.length % 8 == 0 &&
  (entries8 l).all (fun e => (entryClass (leAt e 0 2)).isSome && decide (leAt e 3 1 ≤ 1) && zeroAt e 6 2) &&
  allPairs (fun (x y : List Byte) => decide (leAt x 0 2 < leAt y 0 2)) (entries8 l)

/-- The code of the first check that a copy fails in boot step k (16 R459); `none` when it passes. -/
def Machine.copyCheck (m : Machine) (b : Bool) (k : Nat) : Option Nat :=
  match k with
  | 5 => if !(copyHeaderOk (m.copyHeader b)) || !(m.copyDirOk b) then some 1 else if !(m.copyCrcOk b) then some 2 else none
  | 6 => match m.copySection b 3 with
    | none => some 3
    | some l =>
      if !(m.manifestOk (manifestOf l) 1) || (badChunk l).isSome then some 3
      else if !(m.svnOk (manifestOf l)) then some 4 else none
  | 7 => match m.copySection b 1 with
    | none => some 5
    | some l => if fieldsOk l then none else some 5
  | 8 => match m.copySection b 2 with
    | none => none
    | some l => if ttlOk l then none else some 6
  | _ => none

end Sys2Proof.Machine
end

