-- ==== Sys2Proof/Machine/Frames.lean ====
section
/-!
DEFINITION. The frame header field by field (07 Table 7.1), torus coordinates and directions (01 R27, R31), and the
bytes a frame puts on a link.
-/
namespace Sys2Proof.Machine

/-- A header with the field of `n` bits at bit `lo` replaced. -/
def putField (h : BitVec 128) (lo n v : Nat) : BitVec 128 :=
  BitVec.ofNat 128 (h.toNat - h.toNat / 2 ^ lo % 2 ^ n * 2 ^ lo + v % 2 ^ n * 2 ^ lo)

/-- TYPE (07 Table 7.2). -/
def frType (f : Frame) : Nat := bits f.hdr 0 4
/-- EPOCH_BIT. -/
def frEpoch (f : Frame) : Nat := bits f.hdr 4 1
/-- DETOUR. -/
def frDetour (f : Frame) : Bool := bitAt f.hdr 5
/-- RESEND. -/
def frResend (f : Frame) : Bool := bitAt f.hdr 6
/-- LAST. -/
def frLast (f : Frame) : Bool := bitAt f.hdr 7
/-- DST. -/
def frDst (f : Frame) : NodeId := BitVec.ofNat 16 (bits f.hdr 8 16)
/-- SRC. -/
def frSrc (f : Frame) : NodeId := BitVec.ofNat 16 (bits f.hdr 24 16)
/-- TAG. -/
def frTag (f : Frame) : Nat := bits f.hdr 40 12
/-- STREAM. -/
def frStream (f : Frame) : Nat := bits f.hdr 52 12
/-- SEQ. -/
def frSeq (f : Frame) : Nat := bits f.hdr 64 16
/-- TXN or REL. -/
def frTxn (f : Frame) : Nat := bits f.hdr 80 11
/-- GEN. -/
def frGen (f : Frame) : Nat := bits f.hdr 91 8
/-- LEN. -/
def frLen (f : Frame) : Nat := bits f.hdr 99 9
/-- AGE. -/
def frAge (f : Frame) : Nat := bits f.hdr 108 12
/-- OPX. -/
def frOpx (f : Frame) : Nat := bits f.hdr 120 8

/-- A header assembled from its fields (07 Table 7.1); DETOUR, RESEND and AGE are 0 at injection (07 R211). -/
def mkHdr (type epoch : Nat) (last : Bool) (dst src : NodeId) (tag stream seq txn gen len opx : Nat) : BitVec 128 :=
  BitVec.ofNat 128 (pack [(0, type % 16), (4, epoch % 2), (7, flag last), (8, dst.toNat), (24, src.toNat),
    (40, tag % 4096), (52, stream % 4096), (64, seq % 65536), (80, txn % 2048), (91, gen % 256), (99, len % 512),
    (120, opx % 256)])

/-- A frame with AGE raised by a time in ns, rounded up to units of 64 ns, saturating (07 R214). -/
def addAge (f : Frame) (ns : Nat) : Frame := { f with hdr := putField f.hdr 108 12 (min 4095 (frAge f + ceilDiv ns 64)) }

/-- A frame with DETOUR set (07 R218). -/
def setDetour (f : Frame) : Frame := { f with hdr := putField f.hdr 5 1 1 }

/-- A frame with DETOUR and RESEND set, as it enters a detour queue (07 R222). -/
def setResend (f : Frame) : Frame := { f with hdr := putField (putField f.hdr 5 1 1) 6 1 1 }

/-- The header's 16 bytes (07 R209). -/
def hdrBytes (h : BitVec 128) : List Byte := leBytes 16 h.toNat

/-- A frame's bytes. -/
def frameBytes (f : Frame) : List Byte := hdrBytes f.hdr ++ f.payload

/-- A frame's length in bytes. -/
def frameLen (f : Frame) : Nat := 16 + f.payload.length

/-- The credits an envelope of the frame consumes (03 R98). -/
def frameCredits (f : Frame) : Nat := ceilDiv (frameLen f) 64

/-! ### Node IDs, coordinates, directions -/

/-- The x coordinate of a node ID (01 R28). -/
def nodeX (n : NodeId) : Nat := bits n 7 4
/-- The y coordinate. -/
def nodeY (n : NodeId) : Nat := bits n 3 4
/-- The z coordinate. -/
def nodeZ (n : NodeId) : Nat := bits n 0 3
/-- The pod field. -/
def nodePod (n : NodeId) : Nat := bits n 11 4

/-- The node at coordinates in a pod (01 R28). -/
def nodeAt (pod x y z : Nat) : NodeId := BitVec.ofNat 16 (pack [(0, z % 8), (3, y % 16), (7, x % 16), (11, pod % 16)])

/-- Rack columns of a COLS or rows of a ROWS code (01 Table 1.3). -/
def shapeCount (code : Nat) : Nat := 2 ^ code

/-- The torus's X length for a COLS code (01 R21). -/
def axisLen (code : Nat) : Nat := 4 * shapeCount code

/-- Torus dimensions (X, Y, Z) of this package's pod. -/
def Machine.dims (m : Machine) : Nat × Nat × Nat := (axisLen m.hly.reg.cols.toNat, axisLen m.hly.reg.rows.toNat, 8)

/-- The node one hop from `n` in direction `d` on a torus of dimensions `dm` (01 R31). -/
def neighbour (dm : Nat × Nat × Nat) (n : NodeId) (d : Nat) : NodeId :=
  let (lx, ly, lz) := dm
  let x := nodeX n; let y := nodeY n; let z := nodeZ n; let p := nodePod n
  match d with
  | 0 => nodeAt p ((x + 1) % lx) y z
  | 1 => nodeAt p ((x + lx - 1) % lx) y z
  | 2 => nodeAt p x ((y + 1) % ly) z
  | 3 => nodeAt p x ((y + ly - 1) % ly) z
  | 4 => nodeAt p x y ((z + 1) % lz)
  | _ => nodeAt p x y ((z + lz - 1) % lz)

/-- The opposite direction: X+ and X−, Y+ and Y−, Z+ and Z−. -/
def opposite (d : Nat) : Nat := if d % 2 = 0 then d + 1 else d - 1

/-- The dimension of a direction: 0 x, 1 y, 2 z. -/
def dimOf (d : Nat) : Nat := d / 2

/-- Whether a port is in a Backstay position, Z+.5 or Z−.5 (01 R33, 03 R106). -/
def isBackstay (s : PortStat) : Bool := s.assigned && decide (s.pos = 5) && (decide (s.dir = 4) || decide (s.dir = 5))

/-- Whether the hop from a node in a direction stays on its tray's board (05 R141). -/
def onBoard (n : NodeId) (d : Nat) : Bool :=
  match d with
  | 0 => decide (nodeX n % 4 < 3)
  | 1 => decide (0 < nodeX n % 4)
  | 2 => decide (nodeY n % 4 < 3)
  | 3 => decide (0 < nodeY n % 4)
  | _ => false

/-- Whether the hop crosses its dimension's wrap link (07 R216). -/
def crossesWrap (dm : Nat × Nat × Nat) (n : NodeId) (d : Nat) : Bool :=
  let (lx, ly, lz) := dm
  match d with
  | 0 => decide (nodeX n = lx - 1)
  | 1 => decide (nodeX n = 0)
  | 2 => decide (nodeY n = ly - 1)
  | 3 => decide (nodeY n = 0)
  | 4 => decide (nodeZ n = lz - 1)
  | _ => decide (nodeZ n = 0)

end Sys2Proof.Machine
end

