-- ==== Sys2Proof/Machine/Tree.lean ====
section
/-!
DEFINITION. The trees of fewest hops over the links of the topology database: Halyard's spanning tree over admitted links (04 R115, R117,
R129; 16 R470) and the time tree over trained ports (02 R69).
-/
namespace Sys2Proof.Machine

/-- The nodes one live torus link away from a node. -/
def linkedNodes (links : List LinkRec) (n : NodeId) : List NodeId :=
  (links.filter fun l => l.node == n && l.status != 0 && l.farNode != 0xFFFF && l.flags / 8 % 2 == 0).map (·.farNode)

/-- One layer of a tree: every node not yet reached that a node of the frontier is linked to, under the lowest such node. The choice
among parents of equal distance is PRESUMED (log 17). -/
def treeLayer (links : List LinkRec) (t : List (NodeId × NodeId) × List NodeId) : List (NodeId × NodeId) × List NodeId :=
  let next := ((t.2.flatMap (linkedNodes links)).eraseDups).filter fun u => !(t.1.any fun e => e.1 == u)
  let parent := fun (u : NodeId) => ((t.2.filter fun f => (linkedNodes links f).contains u).foldl
    (fun (a : NodeId) f => if f.toNat < a.toNat then f else a) 0xFFFF)
  (t.1 ++ next.map fun u => (u, parent u), next)

/-- The tree from a root: each node with its parent, the root under itself. -/
def treeFrom (links : List LinkRec) (root : NodeId) (n : Nat) : List (NodeId × NodeId) :=
  ((List.range n).foldl (fun t _ => treeLayer links t) ([(root, root)], [root])).1

/-- How many hops a node stands from the root of a tree, within a bound. -/
def treeHops (t : List (NodeId × NodeId)) (root n : NodeId) : Nat → Option Nat
  | 0 => none
  | k + 1 =>
    if n = root then some 0
    else match t.find? fun e => e.1 == n with
      | some e => (treeHops t root e.2 k).map (· + 1)
      | none => none

/-- The live links of this package's database between admitted nodes. -/
def Machine.admittedLinks (m : Machine) : List LinkRec :=
  let ok := fun (n : NodeId) => n == m.node || m.hly.db.nodes.any fun r => r.node == n && r.admission == 0
  m.hly.db.links.filter fun l => decide (1 ≤ l.status) && ok l.node && ok l.farNode

/-- Halyard's tree from a root (04 R115). -/
def Machine.treeUnder (m : Machine) (root : NodeId) : List (NodeId × NodeId) :=
  treeFrom m.admittedLinks root (m.hly.db.nodes.length + 1)

/-- This package's children in the tree from a root. -/
def Machine.kidsUnder (m : Machine) (root : NodeId) : List NodeId :=
  ((m.treeUnder root).filter fun e => e.2 == m.node && e.1 != m.node).map (·.1)

/-- This package's parent in the tree from a root, if it is not the root. -/
def Machine.parentUnder (m : Machine) (root : NodeId) : Option NodeId :=
  if root = m.node then none else ((m.treeUnder root).find? fun e => e.1 == m.node).map (·.2)

/-- This package's parent in the tree from the master. -/
def Machine.treeParent (m : Machine) : Option NodeId := m.parentUnder m.hly.reg.master

/-- This package's children in the tree from the master. -/
def Machine.treeKids (m : Machine) : List NodeId := m.kidsUnder m.hly.reg.master

/-- A node's hops from a time root over trained ports (02 R69). -/
def Machine.timeHops (m : Machine) (root n : NodeId) : Option Nat :=
  let k := m.hly.db.nodes.length + 1
  treeHops (treeFrom m.hly.db.links root k) root n (k + 1)

/-- Send a message to this package's children in the tree from a root. -/
def Machine.tellKids (m : Machine) (root : NodeId) (msg : Mgmt) : Machine := m.tellAll (m.kidsUnder root) msg

end Sys2Proof.Machine
end

