-- ==== Sys2Proof/Machine/Yield.lean ====
section
/-!
DEFINITION. The tile map, the usable stacks and the yield map that a package shows and sends (08 R250; 10 R295; 16 R469, Table 16.9).
-/
namespace Sys2Proof.Machine

/-- How many compute dies the package has. -/
def Machine.cdieCount (m : Machine) : Nat := onesBelow m.fuse.cdieMask 4

/-- How many logical tiles the package has: 32 per compute die (08 Model). -/
def Machine.tileCount (m : Machine) : Nat := 32 * m.cdieCount

/-- The tile map entry of logical tile l. -/
def Machine.mapAt (m : Machine) (l : Nat) : TileMapRec := tget .reset m.tileMap l

/-- Physical tile p of die d. -/
def Machine.physAt (m : Machine) (d p : Nat) : PhysRec := tget .reset m.tilePhys (d * 36 + p)

/-- The usable stacks, in ascending name order (10 R295). -/
def Machine.usableStacks (m : Machine) : List Nat := (List.range 8).filter fun k => (tget HbmStack.reset m.hbm.stackTbl k).usable

/-- The bandwidth of a stack at a rate step, in tenths of GB/s (10 Table 10.1). -/
def rateOfStack (hbm3e : Bool) (step : Nat) : Nat :=
  if hbm3e then [12288, 10240, 8192].getD step 0 else [8192, 7168, 6144].getD step 0

/-- Whether S stacks at a rate step give less than 2,400 GB/s (10 R295). -/
def lowBandwidth (hbm3e : Bool) (stackNo step : Nat) : Bool := decide (stackNo * rateOfStack hbm3e step < 24000)

/-- Whether the package holds its yield map: from step 22 of its start on (16 R469). -/
def Machine.yieldHeld (m : Machine) : Bool := tget BootSt.notRun m.boot.steps 22 == .complete || m.boot.resetRun

/-- The yield map as step 22 builds it (16 Table 16.9). -/
def Machine.yieldBuilt (m : Machine) : List Byte :=
  let mapped := fun d => ((List.range 32).filter fun k => (m.mapAt (32 * d + k)).valid).length
  let spares := fun d => ((List.range 36).filter fun p => (m.physAt d p).use == .spare).length
  let tiles : BitVec 128 := maskOf 128 ((List.range m.tileCount).filter fun l => (m.mapAt l).valid)
  let stackTbl : BitVec 8 := maskOf 8 m.usableStacks
  ((List.range 4).flatMap fun d => leBytes 1 (if d < m.cdieCount then mapped d else 0)) ++
  ((List.range 4).flatMap fun d => leBytes 1 (if d < m.cdieCount then spares d else 0)) ++
  leBytes 4 (pack [(0, m.boot.cdieOk.toNat), (8, m.boot.iodieOk.toNat), (16, stackTbl.toNat), (24, m.hbm.step)]) ++
  leBytes 4 (pack [(0, m.shr.stayOk.toNat), (16, flag m.boot.partsReady), (17, flag m.boot.noFirmware)]) ++
  leBytes 12 (pack ((List.range 24).map fun p => (4 * p, ((m.port p).stat.rxGood).toNat))) ++
  leBytes 4 0 ++ leBytes 16 tiles.toNat ++ leBytes 16 0

/-- The yield map that the package shows and sends, 0 until it holds one. -/
def Machine.yieldBytes (m : Machine) : List Byte := if m.yieldHeld then m.yieldBuilt else List.replicate 64 0

/-! ### Reading a yield map (06 Table 6.2; 10 R295) -/

/-- PARTS_READY of a yield map. -/
def yieldReady (y : List Byte) : Bool := (y.getD 0x0E 0).toNat % 2 == 1

/-- Whether logical tile l is mapped in a yield map. -/
def yieldTile (y : List Byte) (l : Nat) : Bool := (y.getD (0x20 + l / 8) 0).toNat / 2 ^ (l % 8) % 2 == 1

/-- How many stacks a yield map shows usable. -/
def yieldStacks (y : List Byte) : Nat := ones (y.getD 0x0A 0)

/-- Whether a yield map shows less than 2,400 GB/s, of a package whose stacks are HBM3E or not. -/
def yieldLow (hbm3e : Bool) (y : List Byte) : Bool := lowBandwidth hbm3e (yieldStacks y) (y.getD 0x0B 0).toNat

end Sys2Proof.Machine
end

