-- ==== Sys2Proof/Machine/HalyardBase.lean ====
section
/-!
DEFINITION. Halyard's own records, their flooding, and the master's collection of changes (04 R112, R123, R129).
-/
namespace Sys2Proof.Machine

/-- A port's status code: UP at width 4 and at its target in ACTIVE or RETRAIN, else DEGRADED there, else DOWN
(03 R87). -/
def portStatus (r : PortRec) : Nat :=
  if r.stat.state = .active ∨ r.stat.state = .retrain then
    if r.stat.width = 4 ∧ r.stat.gen = r.train.target then 2 else 1
  else 0

/-- BOOT_ID (02 Table 2.8, R53). -/
def Machine.bootId (m : Machine) : Word :=
  word [(0, m.fuse.stepping.toNat), (4, ones m.fuse.cdieMask), (7, ones m.fuse.stackMask), (11, ones m.fuse.iodieMask),
    (13, m.fuse.grade.toNat), (15, flag m.fuse.hbm3e), (16, m.fuse.cdieMask.toNat), (20, m.fuse.stackMask.toNat),
    (28, m.fuse.iodieMask.toNat)]

/-- The ports a package can have (02 R49). -/
def Machine.portCount (m : Machine) : Nat := if m.twoDie then 24 else 12

/-- How many assigned ports have a status. -/
def Machine.portsWith (m : Machine) (st : Nat) : Nat :=
  ((List.range 24).filter fun p => (m.port p).stat.assigned && portStatus (m.port p) == st).length

/-- The ROLE code (04 Table 4.4). -/
def roleCode : HlyRole → Nat
  | .member => 0 | .master => 1 | .standby => 2 | .provisional => 3

/-- The STATE code (04 Table 4.1). -/
def hlyStateCode : HlyState → Nat
  | .start => 0 | .discover => 1 | .elect => 2 | .run => 3 | .island => 4 | .restarting => 5

/-- This package's node record (04 Table 4.5). -/
def Machine.ownNode (m : Machine) : NodeRec :=
  { node := m.node, admission := BitVec.ofNat 8 m.hly.reg.admitCode, role := BitVec.ofNat 8 (roleCode m.hly.reg.role),
    uid := m.fuse.uid, bootId := m.bootId, preset := BitVec.ofNat 8 m.shr.preset, eligible := m.hly.db.eligible,
    up := m.portsWith 2, degraded := m.portsWith 1, down := m.portsWith 0, state := 0, changeGen := m.hly.reg.topoGen }

/-- This package's link record of a port (04 Table 4.6). Road-map membership and weight are the master's to set. -/
def Machine.ownLink (m : Machine) (p : Nat) : LinkRec :=
  let r := m.port p
  let far : NodeId := if r.far.valid then r.far.node else 0xFFFF
  let farPort := match tget none m.hly.db.neigh p with
    | some h => h.port.toNat
    | none => 0xFF
  { node := m.node, port := p, dir := r.stat.dir, pos := r.stat.pos, farNode := far, farPort := farPort,
    status := portStatus r, gen := r.stat.gen, width := r.stat.width, reason := r.stat.reason,
    flags := flag (m.hly.db.holdDown.contains p) * 2 + flag r.train.disabled * 4 + flag (isBackstay r.stat) * 8,
    weight := 0xFFFF, changeGen := m.hly.reg.topoGen }

/-- The ports the preset assigns. -/
def Machine.assignedPorts (m : Machine) : List Nat := (List.range 24).filter fun p => (m.port p).stat.assigned

/-- This package's link-state record (04 R112). -/
def Machine.ownRecord (m : Machine) : LsRecord :=
  { seq := m.hly.db.ownSeq, node := m.ownNode, links := m.assignedPorts.map m.ownLink, fingerprint := m.hly.db.fingerprint,
    yield := m.yieldBytes }

/-- Whether this package acts as master, with or without quorum. -/
def Machine.isMaster (m : Machine) : Bool :=
  (m.hly.reg.role == .master || m.hly.reg.role == .provisional) &&
  (m.hly.reg.state == .run || m.hly.reg.state == .island)

/-- Whether the master holds full authority: quorum, or an operator's confirmation until the next election (04 R117). -/
def Machine.fullAuthority (m : Machine) : Bool :=
  m.isMaster && (m.hly.reg.role == .master || m.hly.db.confirmed)

/-- Collect a change for the master's next generation; the first one opens the collection (04 R129). A change that
arrives while a prepare is in flight waits in the same list for the next epoch (04 R132). -/
def Machine.submit (m : Machine) (c : Change) : Machine :=
  if m.isMaster then
    m.modWork fun w =>
      { w with
        changes := w.changes ++ [c]
        phase := if w.phase = .idle then .collecting else w.phase }
  else m

/-- Insert or replace a node record, keeping ascending node order (04 R123). -/
def putNode (r : NodeRec) : List NodeRec → List NodeRec
  | [] => [r]
  | n :: t =>
    if n.node = r.node ∧ n.uid = r.uid then r :: t
    else if r.node.toNat < n.node.toNat then r :: n :: t
    else n :: putNode r t

/-- Insert or replace a link record, keeping ascending (node, port) order (04 R123). -/
def putLink (r : LinkRec) : List LinkRec → List LinkRec
  | [] => [r]
  | l :: t =>
    if l.node = r.node ∧ l.port = r.port then r :: t
    else if r.node.toNat * 256 + r.port < l.node.toNat * 256 + l.port then r :: l :: t
    else l :: putLink r t

/-- Whether this package has accepted a master, or is one. -/
def Machine.hasMaster (m : Machine) : Bool :=
  match m.hly.reg.state with
  | .run | .island | .restarting => true
  | _ => false

/-- The neighbours that take floods over an ACTIVE link (04 R112): before a master is accepted those whose HELLO shows that they passed
their own checks, 0x1 to 0x4 and 0x7; afterwards the admitted ones. -/
def Machine.floodPorts (m : Machine) : List Nat :=
  (List.range 24).filter fun p => (m.port p).stat.state == .active &&
    match tget none m.hly.db.neigh p with
    | some h => if m.hasMaster then h.admission == 0 else !([1, 2, 3, 4, 7].contains h.admission.toNat)
    | none => false

/-- Send a message to every neighbour that takes floods, but the one on port `skip`. -/
def Machine.flood (m : Machine) (skip : Option Nat) (msg : Mgmt) : Machine :=
  (m.floodPorts.filter fun p => some p != skip).foldl (fun m p => m.emit (.mgmtPort p msg)) m

/-- The bank of an epoch parity. -/
def Machine.bank (m : Machine) (parity : Nat) : Bank := if parity % 2 = 0 then m.hly.bank0 else m.hly.bank1

/-- The bank of the active epoch (04 R128). -/
def Machine.activeBank (m : Machine) : Bank := m.bank m.hly.reg.epoch.toNat

/-! ### Replication (04 R116) -/

/-- The master's state as the standby and a new master receive it. -/
def Machine.replica (m : Machine) : Replica :=
  { gen := m.hly.reg.topoGen, slc := m.slc, resv := m.tkp.resv, held := m.tkp.held, claims := m.tkp.claims,
    heldClaims := m.tkp.heldClaims, replanHeld := m.tkp.replanHeld, replanClaims := m.tkp.replanClaims,
    planned := m.hly.work.planned, after := m.hly.work.after, ramp := m.tkp.ramp, rampWant := m.tkp.rampWant, rampPlan := m.tkp.rampPlan, resvMax := m.tkp.resvMax,
    replanUs := m.tkp.replanUs, placeMs := m.tkp.placeMs, podSeq := m.hly.podSeq,
    commit := if m.hly.work.phase = .timing ∨ m.hly.work.phase = .committed then some (m.hly.work.epoch, m.hly.work.switchAt) else none,
    biases := m.hly.db.biases, aborts := m.hly.aborts }

/-- Replicate a change of the master's state to the standby; with no standby it is committed at once. -/
def Machine.replicate (m : Machine) : Machine :=
  let r := m.hly.repl
  let none' := m.hly.reg.standby == 0xFFFF
  let m := { m with hly := { m.hly with repl := { r with seq := r.seq + 1, acked := if none' then r.seq + 1 else r.acked } } }
  if none' then m else m.tell m.hly.reg.standby (.replicate (r.seq + 1) m.replica)

/-- Whether the standby has acknowledged a change. -/
def Machine.isCommitted (m : Machine) (seq : Nat) : Bool :=
  m.hly.reg.standby == 0xFFFF || decide (seq ≤ m.hly.repl.acked)

/-- Replicate a change of the master's state, and act on it once it is committed. -/
def Machine.commitThen (m : Machine) (acts : List MasterAct) : Machine :=
  let m := m.replicate
  { m with hly := { m.hly with repl := { m.hly.repl with
      actions := m.hly.repl.actions ++ acts.map fun a => (m.hly.repl.seq, a) } } }

/-- End a command DROPPED: the master changed before it was committed (04 R119, R138). -/
def Machine.dropCmd (m : Machine) (c : HlyCmdRec) : Machine :=
  match c.src with
  | .node n => m.tell n (.reply c.opcode 0x08 [] [])
  | _ => { m with hly := { m.hly with finished := m.hly.finished ++ [{ cmd := c, status := 0x08, res := [], data := [] }] } }

/-- Whether a command of a local source has ended and waits for HLY_CMD_RESULT. -/
def Machine.ended (m : Machine) (src : CmdSrc) : Bool := m.hly.finished.any fun d => d.cmd.src == src

/-- The master changes: every command that was executed or waited here, and every command of this package's host or Farnis that went to the
old master, ends DROPPED, and nothing of the old master's acts any more (04 R119, R138). -/
def Machine.dropCmds (m : Machine) : Machine :=
  let l := m.hly.cur.toList ++ m.hly.waiting
  let m := { m with hly := { m.hly with cur := none, waiting := [], repl := { m.hly.repl with actions := [] } } }
  let m := l.foldl (fun m c => m.dropCmd c) m
  let m := match m.hly.boxCmd with
    | some c => if m.ended .mailbox then m else m.dropCmd c
    | none => m
  match m.hly.mctp with
  | some c => if m.ended .mctp ∨ !m.hly.mctpStarted then m else m.dropCmd c
  | none => m

/-! ### Aborting a prepare (04 R131, R132; 05 R152, R170; 06 R207) -/

/-- This package drops a prepared bank (04 R131). -/
def Machine.dropPrepared (m : Machine) (epoch : BitVec 16) : Machine :=
  if m.hly.reg.prepared then
    let m := m.modHly fun h => { h with prepared := false }
    if epoch.toNat % 2 = 0 then { m with hly := { m.hly with bank0 := .reset, prepWait := none } }
    else { m with hly := { m.hly with bank1 := .reset, prepWait := none } }
  else { m with hly := { m.hly with prepWait := none } }

/-- The tag whose result an after-action installs, and whether it is a new slice. -/
def installTag : AfterSwitch → Option (Nat × Bool)
  | .sliceActive t => some (t, true)
  | .sliceReserved t => some (t, false)
  | _ => none

/-- Every node of the database but this one. -/
def Machine.otherNodes (m : Machine) : List NodeId := ((m.hly.db.nodes.map (·.node)).filter (· != m.node)).eraseDups

/-- A PLACE job for a slice's request (06 R192). -/
def placeJob (tag : Nat) (req : SliceReq) (reserve : Bool) (full : Bool) : Job :=
  { kind := .place, tag := tag, req := req, reserve := reserve, all := false, fullAuthority := full, roundsLeft := 0,
    used := 0, burn := 0, ring := 0, ringPos := 0, best := none, tested := 0, indexOnly := false, deadlineNs := 0, resvMax := 0, gens := [] }

/-- The master aborts the prepare of its next epoch: its REPLAN ends and a new one runs, the slots held for every result that the prepare
carried are freed, the PLACE jobs of those results run again after the new REPLAN, and the collection opens once more (04 R131, R132;
05 R152, R170; 06 R207). -/
def Machine.abortPrepare (m : Machine) : Machine :=
  let w := m.hly.work
  let tags := w.after.filterMap installTag
  let carried := fun (t : Nat) => tags.any fun e => e.1 == t
  let m := (m.tellAll m.otherNodes (.abort w.epoch)).raise 502 0
  let m := m.dropPrepared w.epoch
  let m := tags.foldl (fun m t => if t.2 then m.modSlice t.1 fun r => { r with state := .placing } else m) m
  let jobs := tags.map fun t => placeJob t.1 (m.sliceAt t.1).req (!t.2) m.fullAuthority
  let running := m.tkp.job.any fun j => j.kind == JobKind.replan
  { m with
    tkp := { m.tkp with
      held := m.tkp.held.filter fun r => !(carried r.tag), heldClaims := m.tkp.heldClaims.filter fun c => !(carried c.tag)
      replanHeld := [], replanClaims := [], rampPlan := none
      queue := m.tkp.queue.filter fun j => j.kind != JobKind.replan
      job := if running then none else m.tkp.job
      busy := m.tkp.busy && !running }
    hly := { m.hly with work := { w with
      phase := .collecting, ready := [], rerun := w.rerun ++ jobs, planned := []
      after := w.after.filter fun a => (installTag a).isNone } } }.replicate

/-- Whether an epoch's prepare is in flight: sent, and not yet committed. -/
def inFlight (p : EpochPhase) : Bool :=
  match p with
  | .preparing | .timing => true
  | _ => false

/-- A hard link loss under a route of the prepared epoch aborts it (04 R132): a record reports a road-map link down. -/
def Machine.lossAborts (m : Machine) (r : LsRecord) : Machine :=
  let lost := r.links.any fun l => l.status == 0 &&
    m.hly.db.links.any fun x => x.node == l.node && x.port == l.port && x.flags % 2 == 1
  if m.isMaster && lost && inFlight m.hly.work.phase then m.abortPrepare else m

/-- Whether a link is reported down by its far end, in the database or in a change in hand. -/
def Machine.farDown (m : Machine) (x : LinkRec) : Bool :=
  let far := fun (y : LinkRec) => y.node == x.farNode && y.port == x.farPort && y.status == 0
  m.hly.db.links.any far || m.hly.work.changes.any fun c => match c with
    | .record r => r.links.any far
    | _ => false

/-- What a link's record says of the link itself. -/
def sameReport (l x : LinkRec) : Bool :=
  l.status == x.status && l.gen == x.gen && l.width == x.width && l.reason == x.reason && l.farNode == x.farNode &&
  l.farPort == x.farPort && l.dir == x.dir && l.pos == x.pos && l.flags / 8 == x.flags / 8

/-- Whether a record says of its package or links what the database does not: the yield map and the fingerprint stand beside it. A hold-down
that has ended is news while the database holds the port for it alone (04 R117, R123). -/
def Machine.tellsNews (m : Machine) (r : LsRecord) : Bool :=
  let sameNode := fun (x : NodeRec) => x.bootId == r.node.bootId && x.preset == r.node.preset && x.eligible == r.node.eligible &&
    x.up == r.node.up && x.degraded == r.node.degraded && x.down == r.node.down && x.state != 3 && x.state != 4 &&
    (r.node.admission == 0 || x.admission == r.node.admission)
  let sameLink := fun (l x : LinkRec) => sameReport l x && (l.flags / 4 % 2 == 0 || x.flags / 4 % 2 == 1) &&
    (l.flags / 2 % 2 == x.flags / 2 % 2 || m.hly.db.masterHeld.contains (l.node, l.port))
  !((m.hly.db.nodes.any fun x => x.node == r.node.node && x.uid == r.node.uid && sameNode x) &&
    r.links.all fun l => m.hly.db.links.any fun x => x.node == l.node && x.port == l.port && sameLink l x)

/-- Whether a record says nothing new but that links which their far ends reported down are down (04 R133). -/
def Machine.isEcho (m : Machine) (r : LsRecord) : Bool :=
  let was := fun (l : LinkRec) => m.hly.db.links.find? fun x => x.node == l.node && x.port == l.port
  let same := fun (l x : LinkRec) => l.status == x.status && l.gen == x.gen && l.width == x.width
  let down := fun (l x : LinkRec) => l.status == 0 && m.farDown x
  (r.links.all fun l => match was l with
    | some x => same l x || down l x
    | none => false) &&
  r.links.any fun l => match was l with
    | some x => !(same l x) && down l x
    | none => false

/-- The master takes a record in (04 R129, R132, R133): a change, which aborts a prepare in flight whose road map loses a link; or the
second end's report of a link, which is one change with the first. -/
def Machine.takeRecord (m : Machine) (r : LsRecord) : Machine :=
  if m.isMaster && m.hly.work.phase != .collecting && m.isEcho r then
    m.modWork fun w => { w with changes := w.changes ++ [.echo r] }
  else if m.isMaster && !(m.tellsNews r) && !(m.hly.work.changes.any fun c => match c with
      | .record q | .echo q => q.node.uid == r.node.uid
      | _ => false) then m
  else (m.submit (.record r)).lossAborts r

/-- A package holds the last record of each origin (04 R112). -/
def HlyDb.learn (d : HlyDb) (r : LsRecord) : HlyDb :=
  { d with facts := (d.facts.filter fun e => !(e.node.node == r.node.node && e.node.uid == r.node.uid)) ++ [r] }

/-- A record enters the database of a package that has not accepted a master (04 R112). -/
def HlyDb.enter (d : HlyDb) (r : LsRecord) : HlyDb :=
  { d with nodes := putNode r.node d.nodes, links := r.links.foldl (fun l x => putLink x l) d.links }

/-- Flood a new record of this package (04 R112, R133); the master takes it in as a change, and before a master is
accepted it enters the package's own database at once. -/
def Machine.floodOwn (m : Machine) : Machine :=
  let m := m.modDb fun d => { d with ownSeq := d.ownSeq + 1 }
  let r := m.ownRecord
  let m := m.modDb fun d => d.learn r
  let m := m.flood none (.linkState r)
  if m.isMaster then m.takeRecord r
  else if m.hly.reg.state = .discover ∨ m.hly.reg.state = .elect then m.modDb fun d => d.enter r
  else m

/-- Set a node's STATE or ROLE in the master's database at once, stamped with the generation that will publish it, which is asked for
(04 R123, R134, Table 4.5). -/
def Machine.stampNodes (m : Machine) (f : NodeRec → NodeRec) : Machine :=
  let nodes := m.hly.db.nodes.map fun r => if f r = r then r else { f r with changeGen := m.hly.reg.topoGen + 1 }
  if nodes = m.hly.db.nodes then m
  else (m.modDb fun d => { d with nodes := nodes }).submit .none

end Sys2Proof.Machine
end

