-- ==== Sys2Proof/Machine/Rig.lean ====
section
/-!
DEFINITION. The rigging fields in force: defaults, ranges, grades (02 R56, Table 2.4; 16 R456, R458, Table 16.5).
-/
namespace Sys2Proof.Machine

/-- The grade's power cap in W (02 Table 2.4). The reserved GRADE code 0b11 takes -P09's limits, the lowest. DESIGN CHOICE (log 39). -/
def Machine.gradeCap (m : Machine) : Nat :=
  if m.fuse.grade = 2 then 1400 else if m.fuse.grade = 1 then 1100 else 900

/-- The grade's core ceiling in mV (02 Table 2.4), -P09's for the reserved code. DESIGN CHOICE (log 39). -/
def Machine.gradeCeiling (m : Machine) : Nat :=
  if m.fuse.grade = 2 then 900 else if m.fuse.grade = 1 then 820 else 760

/-- How many compute dies the package has. -/
def Machine.cdies (m : Machine) : Nat := ones m.fuse.cdieMask

/-- The default of a rigging field (16 Table 16.5). -/
def Machine.rigDefault (m : Machine) (n : Nat) : Nat :=
  match n with
  | 0x02 => if m.twoDie then 0x0 else 0x8
  | 0x03 => 0x2
  | 0x06 => m.gradeCap
  | 0x07 => m.gradeCeiling
  | 0x09 => 0xD
  | 0x0A => 500
  | 0x0B => 0x03
  | 0x0C => 20
  | 0x0D => 10
  | 0x0E => 250 * m.cdies
  | 0x0F => 500
  | _ => 0

/-- Whether Table 16.5 lists a field number. -/
def rigListed (n : Nat) : Bool := decide (1 ≤ n) && decide (n ≤ 15)

/-- Whether a field is runtime-writable (16 Table 16.5). -/
def rigRuntime (n : Nat) : Bool := [0x05, 0x06, 0x0C, 0x0D, 0x0E, 0x0F].contains n

/-- A rigging field's value in force. -/
def Machine.rig (m : Machine) (n : Nat) : Nat := (tget none m.boot.rig n).getD (m.rigDefault n)

/-- Set a rigging field's value in force. -/
def Machine.setRig (m : Machine) (n v : Nat) : Machine :=
  { m with boot := { m.boot with rig := tset none m.boot.rig n (some v) } }

/-- Whether a value lies in a field's range (16 Table 16.5, 13 Table 13.4). POD_SHAPE, PRESET, POWER_CAP and CEILING have
owning rules of their own for a value outside. -/
def Machine.rigInRange (m : Machine) (n v : Nat) : Bool :=
  match n with
  | 0x01 => decide (v < 256)
  | 0x02 => [0x0, 0x1, 0x2, 0x3, 0x8, 0x9].contains v
  | 0x03 => v == 1 || v == 2
  | 0x05 => decide (v < 2)
  | 0x06 => decide (300 ≤ v) && decide (v ≤ m.gradeCap)
  | 0x07 => decide (720 ≤ v) && decide (v ≤ m.gradeCeiling)
  | 0x08 => decide (v < 3)
  | 0x09 => decide (v < 16) && v / 4 != 0
  | 0x0A => decide (100 ≤ v) && decide (v ≤ 10000)
  | 0x0B => decide (v < 32) && (v % 8 == 2 || v % 8 == 3)
  | 0x0C | 0x0D => decide (1 ≤ v) && decide (v ≤ 500)
  | 0x0E => decide (v ≤ 300 * m.cdies)
  | 0x0F => decide (v < 65536)
  | _ => true

end Sys2Proof.Machine
end

