-- ==== Sys2Proof/Machine/BootBase.lean ====
section
/-!
DEFINITION. The boot steps: what each waits for, how one is entered and completed, the bundle a package takes, and the steps that other
events complete (16 R462–R464, R470–R476, Table 16.6).
-/
namespace Sys2Proof.Machine

/-- How far a boot step has come in the run in force. -/
def Machine.bootSt (m : Machine) (k : Nat) : BootSt := tget .notRun m.boot.steps k

/-- The machine with its package without power: only straps, fuses, flash and what stands outside the package is kept (18 R521,
Table 18.8, power cycle). -/
def Machine.bare (m : Machine) : Machine :=
  { Machine.reset with
    pins := m.pins, fuse := m.fuse, flash := m.flash, hostMem := m.hostMem, far := m.far, scan := m.scan, card := m.card, free := m.free
    out := m.out }

/-- Change the boot block. -/
def Machine.modBoot (m : Machine) (f : Boot → Boot) : Machine := { m with boot := f m.boot }

/-- Set how far a boot step has come. -/
def Machine.setStep (m : Machine) (k : Nat) (s : BootSt) : Machine :=
  m.modBoot fun b => { b with steps := tset .notRun b.steps k s }

/-- The level in force of a step (16 R466). -/
def Machine.level (m : Machine) (k : Nat) : Nat := tget 0 m.boot.levels k

/-- The steps that a step waits for in a start run (16 Table 16.6). -/
def stepWaits (k : Nat) : List Nat :=
  match k with
  | 2 => [1] | 3 => [2] | 4 => [3] | 5 => [4] | 6 => [5] | 7 => [6] | 8 => [7] | 9 => [8]
  | 10 => [9] | 11 => [9] | 12 => [9] | 13 => [11] | 14 => [10] | 15 => [11, 14] | 16 => [15] | 17 => [16]
  | 18 => [15] | 19 => [18] | 20 => [19] | 21 => [19] | 22 => [15, 17, 21] | 23 => [21] | 24 => [9, 11]
  | 25 => [24] | 26 => [9] | 27 => [26] | 28 => [27] | 29 => [28] | 30 => [28] | 31 => [23, 29] | 32 => [31]
  | 33 => [32] | 34 => [32] | 35 => [34] | 36 => [20, 22, 30, 35] | 37 => [32] | 38 => [36] | 39 => [38] | 40 => [39]
  | _ => []

/-- Whether a step counts as complete for those that wait for it: complete, ended at its limit or by a reset, or skipped. -/
def Machine.stepPast (m : Machine) (k : Nat) : Bool := m.bootSt k != .notRun && m.bootSt k != .running

/-- Whether every step that a step waits for has completed; a reset run treats the steps it does not run as complete, and step 36 of a
start run waits for the first lock (16 R462, R463). -/
def Machine.waitsMet (m : Machine) (k : Nat) : Bool :=
  if m.boot.resetRun && stepInReset k then
    (if k = 34 then [17] else stepWaits k).all fun j => m.stepPast j || !(stepInReset j)
  else ((stepWaits k).all m.stepPast) && (k != 36 || m.time.everLocked)

/-- Enter a step: the ENTER record stands before its action begins (16 R464); those of steps 1 to 3 follow at JOURNAL_OPEN. -/
def Machine.enterStep (m : Machine) (k : Nat) : Machine :=
  (if k ≤ 3 then m else m.journal 0x02 k (m.level k) 0 0).modBoot fun b =>
    { b with steps := tset .notRun b.steps k .running, stepAt := tput k m.time.now (tdel b.stepAt k) }

/-- Complete a step that runs. -/
def Machine.completeStep (m : Machine) (k : Nat) : Machine :=
  if m.bootSt k = .running then (if k ≤ 2 then m else m.journal 0x03 k (m.level k) 0 0).setStep k .complete else m

/-- Skip a step: a SKIP record and no ENTER (16 R463, R466). -/
def Machine.skipStep (m : Machine) (k level : Nat) : Machine := (m.journal 0x06 k level 0 0).setStep k .skipped

/-! ### The bundle in force (16 R471–R476) -/

/-- The key of a chunk in the firmware store: KIND × 2^20 + CHUNK. -/
def chunkKey (payload : Bool) (i : Nat) : Nat := flag payload * 2 ^ 20 + i

/-- Whether a bundle is whole: every manifest and payload chunk of the offer has passed its check (16 R473). -/
def Bcast.whole (b : Bcast) : Bool :=
  match b.offer with
  | some o => decide (0 < o.chunks) && b.good.length == o.chunks + o.mchunks
  | none => false

/-- The manifest that the firmware store holds. -/
def Bcast.manifest (b : Bcast) : List Byte :=
  mread Config.blank b.store 0 (manifestLen ((b.offer.map (·.chunks)).getD 0))

/-- The BUNDLE section of the copy in force. -/
def Machine.ownBundle (m : Machine) : Option (List Byte) := m.copySection m.boot.copyB 4

/-- The manifest of the bundle that a source gives: this package's own for source 1 (16 Table 16.8, NOTE 0x0E). -/
def Machine.sourceManifest (m : Machine) (source : Nat) : List Byte :=
  if source = 1 then manifestOf (m.ownBundle.getD []) else m.boot.bcast.manifest

/-- Take a bundle as the one in force; NOTE 0x0E names the source (16 R476). -/
def Machine.takeBundle (m : Machine) (source : Nat) : Machine :=
  let man := m.sourceManifest source
  (m.modBoot fun b =>
    { b with fw := { bundleOk := true, source := source, hlySwitched := false, svn := leAt man 0x0C 1,
                     version := BitVec.ofNat 32 (leAt man 8 4), tag := tagOf man } }).note 31 0x0E source (tagOf man).toNat

/-- The source of the bundle that this package can take now: its own when it is master and has staged one, the one fetched, or the one
broadcast (16 R472, R476, R545). -/
def Machine.bundleSource (m : Machine) : Option Nat :=
  if m.isMaster && m.boot.bcast.staged.isSome then some 1
  else if m.boot.bcast.whole then some (if m.boot.bcast.fetchFrom.isSome then 2 else 0)
  else none

/-- Whether what a step waits for within itself has come about: discovery settled, a master accepted, epoch 1 installed, the first lock,
the bundle held (16 Table 16.6, steps 27–31). -/
def Machine.stepMet (m : Machine) (k : Nat) : Bool :=
  let st := m.hly.reg.state
  match k with
  | 27 => st != .start && st != .discover
  | 28 => st == .run || st == .island
  | 29 => m.hly.reg.installed
  | 30 => m.time.everLocked
  | 31 => m.boot.fw.bundleOk || m.bundleSource.isSome
  | _ => false

/-- An eligible member with an authentic staged bundle advertises it to the master (16 R471). -/
def Machine.sendHave (m : Machine) : Machine :=
  match m.boot.bcast.staged with
  | some b => if m.rig 5 = 1 ∧ !m.isMaster then m.tell m.hly.reg.master (.bcastHave b.tag b.version) else m
  | none => m

/-- Complete a step 27–31 that runs and whose condition holds now: step 28 is followed by BCAST_HAVE, step 31 takes its bundle. -/
def Machine.settleStep (m : Machine) (k : Nat) : Machine :=
  if m.bootSt k = .running ∧ m.stepMet k then
    let m := if k = 31 ∧ !m.boot.fw.bundleOk then m.takeBundle (m.bundleSource.getD 0) else m
    let m := m.completeStep k
    if k = 28 then m.sendHave else m
  else m

/-- Complete the steps 27–31 that run and whose condition holds now. -/
def Machine.bootSettle (m : Machine) : Machine := [27, 28, 29, 30, 31].foldl (fun (m : Machine) k => m.settleStep k) m

end Sys2Proof.Machine
end

