-- ==== Sys2Proof/Machine/PortOps.lean ====
section
/-!
DEFINITION. The shared operations of a port: entry to DETECT, failure, hard loss, retrain and replay, arbitration and
transmission (03 R81–R101).
-/
namespace Sys2Proof.Machine

/-- Lane rate of a generation in Gb/s (03 Table 3.1). -/
def laneRate (gen : Nat) : Nat := if gen = 2 then 112 else 56

/-- The usable width of a set of lanes: 4, 2 or 1 (03 R85). -/
def widthOf (mask : LaneMask) : Nat :=
  match ones mask with
  | 0 => 0
  | 1 => 1
  | 2 => 2
  | 3 => 2
  | _ => 4

/-- The lowest-numbered lanes of a set, as many as its width (03 R85). -/
def lanesOf (mask : LaneMask) : LaneMask := maskOf 4 ((onePositions mask).take (widthOf mask))

/-- The virtual channels a port carries (03 Table 3.8). -/
def vcsOf (backstay : Bool) : List Nat := if backstay then [0, 3, 4] else [0, 1, 2, 3, 4, 5, 6]

/-- A VC's credit pool: its receive buffer in units of 64 bytes (03 Table 3.8, R98). -/
def poolOf (backstay : Bool) (vc : Nat) : Nat :=
  if backstay then (if vc = 0 then 512 else if vc = 3 ∨ vc = 4 then 1792 else 0) else if vc < 7 then 256 else 0

/-- The cable class that the position reaches: TS2 code 1 (SL3 and SL2) or 2 (SL2 only), or the reason that takes the
port DOWN (03 R83, Table 3.4). -/
def cableClass (pins : Pins) (s : PortStat) (c : CableRead) : Nat ⊕ Nat :=
  let col := pins.site.toNat % 4
  let row := pins.site.toNat / 4
  if isBackstay s then
    match c.rate with
    | some true => .inl 1
    | some false => .inl 2
    | none => .inr 0x0E
  else if (s.dir = 0 ∧ col = 3) ∨ (s.dir = 1 ∧ col = 0) ∨ (s.dir = 2 ∧ row = 3) ∨ (s.dir = 3 ∧ row = 0) then
    if c.pins = 1 then .inl 1 else if c.pins = 0 then .inr 0x07 else .inl 2
  else .inl 1

/-- The generations a TS2 class code allows; a Backstay module runs at its own rate only (03 Table 3.4). -/
def classGens (backstay : Bool) (cls : Nat) : BitVec 2 :=
  if cls = 1 then (if backstay then 2 else 3) else if cls = 2 then 1 else 0

/-- The link numbers and credits of a port that has not carried a frame since training (03 R96): a new session of the link. -/
def resetLink (r : PortRec) : PortRec := { r with tx := .reset, rx := .reset, rt := .reset, session := r.session + 1 }

/-- A port's SHR_PORT_STAT out of ACTIVE: no generation, no lanes in use, and the reason of its last failure (03 R86). -/
def idleStat (s : PortStat) (st : PortState) (reason : Nat) : PortStat :=
  { s with state := st, gen := 0, width := 0, lanes := 0, reason := reason, lastFail := reason }

/-- Whether a port is trained: ACTIVE, or in a fast retrain. -/
def isTrained (st : PortState) : Bool :=
  match st with
  | .active | .retrain => true
  | _ => false

/-- Become the time root: ROOT and LOCKED at depth 0, with no parent (02 R69, R70, R72). PARENT_NODE of a root, which the spec gives no
value, reads 0xFFFF. DESIGN CHOICE (log 30). -/
def Machine.makeRoot (m : Machine) : Machine :=
  m.modTime fun t =>
    { t with root := true, locked := true, everLocked := true, depth := 0, degraded := false, holdover := false, parentLost := false,
             parentDir := 6, parentPos := 0, parentNode := 0xFFFF }

/-- A package with no trained port is its own time root (02 R72): asked when a trained port has left ACTIVE. -/
def Machine.aloneRoot (m : Machine) (was : PortState) : Machine :=
  if isTrained was && !((List.range 24).any fun p => isTrained (m.port p).stat.state) then m.makeRoot else m

/-- Enter DOWN with a reason; reasons 0x05 and 0x06 raise SHR_MISWIRE (03 R84, Table 3.9). -/
def Machine.portDown (m : Machine) (p reason : Nat) : Machine :=
  let was := (m.port p).stat.state
  let m := m.modPort p fun r => { r with stat := idleStat r.stat .down reason }
  let m := if reason = 0x05 ∨ reason = 0x06 then m.raise (srcShr p 4) p else m
  (m.aloneRoot was).floodOwn

/-- Enter DETECT: the cable class is read first, and may take the port DOWN (03 R83). SHR_PORT_FAR.CLASS and FAR_VALID are cleared, for
they say nothing of the end that the port meets now; Table 3.14 names only the power cycle. DESIGN CHOICE (log 31). -/
def Machine.enterDetect (m : Machine) (p : Nat) (c : CableRead) : Machine :=
  match cableClass m.pins (m.port p).stat c with
  | .inr reason => m.portDown p reason
  | .inl cls =>
    let was := (m.port p).stat.state
    let m := m.modPort p fun r =>
      { r with
        stat := { idleStat r.stat .detect r.stat.lastFail with rxGood := 0 }
        far := { r.far with cls := 0, valid := false }
        train := { r.train with
          ownClass := cls
          genCap := if m.shr.genLimit = 1 then 1 else 3
          gen := if isBackstay r.stat then (if cls = 1 then 2 else 1) else 1
          ts2Run := 0, lastTs2 := 0, locked := 0, aligned := 0, converged := 0, tries := 0, bestGen := 0,
          bestLanes := 0, target := 0, refHeld := false, barred := 0 } }
    m.aloneRoot was

/-- A failed attempt: HOLDOFF with a reason (03 R86). -/
def Machine.portFail (m : Machine) (p reason : Nat) : Machine :=
  (m.modPort p fun r =>
    { r with
      stat := idleStat r.stat .holdoff reason
      train := { r.train with attempts := r.train.attempts + 1 } }).floodOwn

/-- The backoff after the n-th consecutive failed attempt, in ms (03 R86). -/
def backoffMs (n : Nat) : Nat := min 1280 (10 * 2 ^ (n - 1))

/-- The frames a port holds, unacknowledged first in LSN order, then queued (03 R96). -/
def heldFrames (r : PortRec) : List RxFrame :=
  (r.tx.retry.map fun e => { port := none, vc := e.vc, frame := setResend e.frame, since := e.sentAt, session := 0, checked := true }) ++
  (r.tx.queue.map fun q => { port := none, vc := q.vc, frame := setResend q.frame, since := q.since, session := 0, checked := true })

/-- How many frames a detour queue holds (07 R222). -/
def detqSize : Nat := 2048

/-- Move frames to the detour queue of an I/O die; those that do not fit are discarded and counted (07 R222). -/
def Machine.toDetour (m : Machine) (d : Nat) (l : List RxFrame) : Machine :=
  let r := m.fwdAt d
  let room := detqSize - r.detq.length
  let q := r.detq ++ l.take room
  let lost := l.length - room
  let m := m.setFwd d { r with detq := q, peak := max r.peak q.length,
                               cnt := { r.cnt with detqOvf := satAdd32 r.cnt.detqOvf lost } }
  if lost = 0 then m else m.raise (srcFwd d 3) d

/-- The handover of R96: every frame the port holds moves to its die's detour queue. -/
def Machine.handover (m : Machine) (p : Nat) : Machine :=
  let held := heldFrames (m.port p)
  let m := m.modPort p resetLink
  m.toDetour (dieOfPort p) held

/-- Hard loss (03 R95, R96): DOWN with the reason, HOLDOFF, link state reset, frames to the detour queue, SHR_LOSS raised
and the change flooded. -/
def Machine.hardLoss (m : Machine) (p reason : Nat) : Machine :=
  let was := (m.port p).stat.state
  let m := m.handover p
  let m := m.modPort p fun r =>
    { r with
      stat := idleStat r.stat .holdoff reason
      cnt := { r.cnt with loss := satAdd32 r.cnt.loss 1 }
      train := { r.train with attempts := r.train.attempts + 1 } }
  let m := m.raise (srcShr p 3) p
  let m := m.modDb fun d => { d with holdDown := d.holdDown.filter (· != p) }
  (m.aloneRoot was).floodOwn

/-! ### Link control words (03 Table 3.7) -/

/-- A link control word with its CRC-16 over bits [47:0]. -/
def linkWord (body : Nat) : DWord :=
  BitVec.ofNat 64 (body % 2 ^ 48 + (crc16 (leBytes 6 body)).toNat * 2 ^ 48)

/-- The TYPE of a word whose CRC holds. -/
def linkWordType (w : DWord) : Option Nat :=
  if (crc16 (leBytes 6 (bits w 0 48))).toNat = bits w 48 16 then some (bits w 0 4) else none

/-- Send a link control word. -/
def Machine.sendWord (m : Machine) (p body : Nat) : Machine := m.emit (.linkWord p (linkWord body))

/-- Send an ACK of the last frame received in order. -/
def Machine.sendAck (m : Machine) (p lsn : Nat) : Machine := m.sendWord p (0x1 + lsn * 16)

/-- Send a NAK with the LSN expected next. -/
def Machine.sendNak (m : Machine) (p lsn : Nat) : Machine := m.sendWord p (0x2 + lsn * 16)

/-- Send a CREDIT word with a running count. -/
def Machine.sendCredit (m : Machine) (p vc count : Nat) : Machine :=
  m.sendWord p (0x3 + count % 4096 * 16 + vc * 2 ^ 16)

/-- Send a RETRAIN_REQ. -/
def Machine.sendRetrainReq (m : Machine) (p reason : Nat) : Machine :=
  m.sendWord p (0x4 + m.node.toNat * 16 + reason * 2 ^ 20 + (m.port p).stat.rxGood.toNat * 2 ^ 24)

/-- Send a GOING_DOWN. -/
def Machine.sendGoingDown (m : Machine) (p reason : Nat) : Machine := m.sendWord p (0x5 + reason * 16)

/-- Discard an item under SHR_PROTO (03 Table 3.9). -/
def Machine.protoDiscard (m : Machine) (p : Nat) : Machine :=
  (m.modPort p fun r => { r with cnt := { r.cnt with proto := satAdd32 r.cnt.proto 1 } }).raise (srcShr p 5) p

/-- Handle a received word of a type: a bad CRC discards it, a reserved TYPE is SHR_PROTO, and another type than the
command's is not this event. -/
def Machine.onWord (m : Machine) (p type : Nat) (w : DWord) (f : Machine → Machine) : Machine :=
  if (m.port p).stat.state = .active ∨ (m.port p).stat.state = .retrain then
    match linkWordType w with
    | none => m
    | some t => if 5 < t then m.protoDiscard p else if t = type then f m else m
  else m

/-! ### Fast retrain and replay -/

/-- Ask for a fast retrain: the port stops sending envelopes (03 R88, R89). -/
def Machine.startRetrain (m : Machine) (p reason : Nat) : Machine :=
  if (m.port p).stat.state = .active then
    (m.modPort p fun r =>
      { r with stat := { r.stat with state := .retrain }, rt := { own := some reason, leads := false } }).sendRetrainReq
      p reason
  else m

/-- An envelope's trailer (03 Table 3.6). -/
def trailerOf (e : Envelope) : DWord :=
  let low := e.lsn % 1024 + e.vc % 8 * 1024
  BitVec.ofNat 64 (low + (crc32 (frameBytes e.frame ++ leBytes 4 low)).toNat * 2 ^ 32)

/-- Put an envelope on the wire. -/
def Machine.sendEnvelope (m : Machine) (p : Nat) (e : Envelope) : Machine := m.emit (.envelope p e (trailerOf e))

/-- The replay limit of R94. -/
def replayLimit : Nat := 4

/-- Count a replay; more than 16 within 1 ms raise SHR_CORR (03 R102, R103). -/
def Machine.countReplay (m : Machine) (p : Nat) : Machine :=
  let recent := ((m.port p).cnt.replayTimes.filter fun t => decide (m.ns < t.toNat + 1000000)) ++ [m.time.now]
  let m := m.modPort p fun r =>
    { r with cnt := { r.cnt with replay := satAdd32 r.cnt.replay 1
                                 replayTimes := if 16 < recent.length then [] else recent } }
  if 16 < recent.length then m.raise (srcShr p 0) p else m

/-- Replay from an LSN, in order, as soon as the wire and the slots allow (05 R148); the fourth consecutive replay without ACK progress
asks for a retrain (03 R88, R94). -/
def Machine.replayFrom (m : Machine) (p lsn : Nat) : Machine :=
  let r := m.port p
  let m := m.countReplay p
  let m := m.modPort p fun r => { r with tx := { r.tx with replays := r.tx.replays + 1, resend := some lsn } }
  if replayLimit ≤ r.tx.replays + 1 then m.startRetrain p 0x1 else m

/-! ### Arbitration (03 R92, R99, R100; 05 R146; 07 R217) -/

/-- The retry buffer's limits: envelopes and bytes (03 R92, R106). -/
def retryLimits (backstay : Bool) : Nat × Nat := if backstay then (896, 262144) else (128, 32768)

/-- Bytes of an envelope: the frame and its 8-byte trailer (03 R91). -/
def envelopeBytes (f : Frame) : Nat := frameLen f + 8

/-- Time of a number of bytes on a port, in ps, at the rate after FEC (03 Table 3.1). -/
def wirePs (gen width bytes : Nat) : Nat :=
  if width = 0 then 0 else bytes * 8 * 40000 / ((if gen = 2 then 4233 else 2116) * width)

/-- The tag that owns slot `i` of a port in a bank, if any (05 R145). -/
def slotOwner (b : Bank) (node : NodeId) (p i : Nat) : Option Nat :=
  (b.prep.slots.find? fun s => s.node == node && s.port == p && decide (0 < s.period) && i % s.period == s.phase).map (·.tag)

/-- The slot index of a timebase value (05 R144). -/
def slotIndex (ns : Nat) : Nat := ns / 1024 % 256

/-- Whether slot tables are obeyed: an epoch is installed and the timebase is locked (05 R149). -/
def Machine.slotsInForce (m : Machine) : Bool := m.hly.reg.installed && m.time.locked

/-- The owner of the slot at a time, for a port; none while the tables are suspended (05 R146, R149). -/
def Machine.ownerAt (m : Machine) (p ns : Nat) : Option Nat :=
  if m.slotsInForce then slotOwner m.activeBank m.node p (slotIndex ns) else none

/-- Whether the VC's pool holds enough credits for the frame, with five more where it enters a dimension on VC0, VC3 or
VC4 (03 R99, 07 R217). -/
def creditsOk (r : PortRec) (q : QFrame) : Bool :=
  let need := frameCredits q.frame + if q.enters && [0, 3, 4].contains q.vc then 5 else 0
  decide (need ≤ tget 0 r.tx.credit q.vc)

/-- When the port can start its next envelope, in ps: now, or when the one on the wire ends. -/
def Machine.wireStart (m : Machine) (r : PortRec) : Nat := max (m.ns * 1000) r.tx.wireUntil

/-- Whether an envelope of a frame that starts next is off the wire before the next slot when that slot is owned by another slice, and,
for a frame of the slot's owner, starts before the slot's last 20 ns (05 R146). -/
def Machine.slotClear (m : Machine) (p : Nat) (r : PortRec) (q : QFrame) : Bool :=
  let start := m.wireStart r
  let next := (start / 1024000 + 1) * 1024
  let done := start + wirePs r.stat.gen r.stat.width (envelopeBytes q.frame)
  let mine := m.ownerAt p (start / 1000) == some (frTag q.frame)
  (match m.ownerAt p next with
    | none => true
    | some t => (t == frTag q.frame && (q.vc == 1 || q.vc == 2)) || q.vc == 0 || decide (done ≤ next * 1000)) &&
  (!mine || decide (start + 20000 < next * 1000))

/-- Whether VC0 keeps within 1/16 of link time in the last 1 µs (03 R100). -/
def Machine.mgmtOk (m : Machine) (r : PortRec) (q : QFrame) : Bool :=
  let sent := (r.tx.mgmtSent.filter fun s => decide (m.ns < s.1 + 1000)).foldl (fun a s => a + s.2) 0
  decide (wirePs r.stat.gen r.stat.width (sent + envelopeBytes q.frame) * 16 ≤ 1000000)

/-- The VCs of item 4 in round-robin order after the VC served last (03 R100). -/
def robin (last : Nat) : List Nat := ((List.range 4).map fun i => (last + i) % 4 + 1)

/-- The place in the queue of the frame that the arbiter serves next, if any (03 R100, 05 R146). Within an item of R100 the lower VC goes
first: VC1 before VC2 in a slot, VC5 before VC6. DESIGN CHOICE (log 32). -/
def Machine.arbitrate (m : Machine) (p : Nat) : Option Nat :=
  let r := m.port p
  let owner := m.ownerAt p (m.wireStart r / 1000)
  let ok := fun (q : QFrame) => creditsOk r q && m.slotClear p r q
  let first := fun (vcs : List Nat) (f : QFrame → Bool) =>
    vcs.findSome? fun vc => r.tx.queue.findIdx? fun q => q.vc == vc && f q
  let head := fun (vc : Nat) (f : QFrame → Bool) =>
    match r.tx.queue.findIdx? fun q => q.vc == vc with
    | none => none
    | some i => match r.tx.queue[i]? with
      | some q => if ok q && f q then some i else none
      | none => none
  let mgmt := match head 0 (fun q => m.mgmtOk r q) with
    | some i => some i
    | none => none
  match mgmt with
  | some i => some i
  | none =>
    let mine := match owner with
      | none => none
      | some t => first [1, 2] fun q => frTag q.frame == t && ok q
    match mine with
    | some i => some i
    | none =>
      match [5, 6].findSome? fun vc => head vc fun _ => true with
      | some i => some i
      | none => (robin r.tx.lastVc).findSome? fun vc => head vc fun _ => owner.isNone || 2 < vc

/-- Start one waiting frame: AGE is added, credits are taken, and the envelope enters the retry buffer (03 R92, R99;
07 R214). -/
def Machine.startFrame (m : Machine) (p i : Nat) : Machine :=
  let r := m.port p
  match r.tx.queue[i]? with
  | none => m
  | some q =>
    let e : Envelope := { lsn := r.tx.lsn, vc := q.vc, sentAt := m.time.now,
                          frame := addAge q.frame (m.ns - q.since.toNat + r.train.delayNs) }
    let tx : PortTx :=
      { r.tx with
        lsn := (r.tx.lsn + 1) % 1024
        retry := r.tx.retry ++ [e]
        queue := r.tx.queue.eraseIdx i
        credit := tset 0 r.tx.credit q.vc (tget 0 r.tx.credit q.vc - frameCredits q.frame)
        lastVc := if 1 ≤ q.vc ∧ q.vc ≤ 4 then q.vc else r.tx.lastVc
        wireUntil := m.wireStart r + wirePs r.stat.gen r.stat.width (envelopeBytes e.frame)
        mgmtSent := if q.vc = 0 then
            (r.tx.mgmtSent.filter fun s => decide (m.ns < s.1 + 1000)) ++ [(m.ns, envelopeBytes q.frame)]
          else r.tx.mgmtSent }
    (m.setPort p { r with tx := tx }).sendEnvelope p e

/-- The envelope to replay next, if any: replays run in order, before anything new. -/
def nextResend (r : PortRec) : Option Envelope :=
  match r.tx.resend with
  | none => none
  | some l => r.tx.retry.find? fun e => e.lsn == l

/-- Whether an envelope may be replayed now (05 R146, R148). -/
def Machine.resendClear (m : Machine) (p : Nat) (r : PortRec) (e : Envelope) : Bool :=
  let q : QFrame := { vc := e.vc, frame := e.frame, since := e.sentAt, enters := false }
  let owner := m.ownerAt p (m.wireStart r / 1000)
  m.slotClear p r q && (owner.isNone || owner == some (frTag e.frame) || !(e.vc == 1 || e.vc == 2))

/-- The LSN that follows in the retry buffer. -/
def resendAfter (r : PortRec) (e : Envelope) : Option Nat :=
  ((r.tx.retry.dropWhile fun x => x.lsn != e.lsn).drop 1).head?.map (·.lsn)

/-- Replay one envelope. -/
def Machine.resendOne (m : Machine) (p : Nat) (e : Envelope) : Machine :=
  (m.modPort p fun r =>
    { r with tx := { r.tx with
        resend := resendAfter r e
        wireUntil := m.wireStart r + wirePs r.stat.gen r.stat.width (envelopeBytes e.frame) } }).sendEnvelope p e

/-- Serve a port while its state, its wire, its retry buffer and the arbiter allow (03 R92, R94, R100). -/
def Machine.pumpN (m : Machine) (p : Nat) : Nat → Machine
  | 0 => m
  | n + 1 =>
    let r := m.port p
    let lim := retryLimits (isBackstay r.stat)
    let bytes := r.tx.retry.foldl (fun a e => a + envelopeBytes e.frame) 0
    if r.stat.state = .active ∧ r.tx.wireUntil < (m.ns + 1) * 1000 then
      match nextResend r with
      | some e => if m.resendClear p r e then (m.resendOne p e).pumpN p n else m
      | none =>
        match m.arbitrate p with
        | none => m
        | some i =>
          let next := (r.tx.queue[i]?.map fun q => envelopeBytes q.frame).getD 0
          if r.tx.retry.length < lim.1 ∧ bytes + next ≤ lim.2 then (m.startFrame p i).pumpN p n else m
    else m

/-- Serve a port's replays and waiting frames. -/
def Machine.pump (m : Machine) (p : Nat) : Machine :=
  m.pumpN p ((m.port p).tx.queue.length + (m.port p).tx.retry.length)

/-- Serve every port that has something to send. -/
def Machine.pumpAll (m : Machine) : Machine :=
  (List.range 24).foldl (fun m p =>
    if (m.port p).tx.queue.isEmpty && (m.port p).tx.resend.isNone then m else m.pump p) m

/-- Put a frame in a port's transmit queue and serve the port. -/
def Machine.enqueue (m : Machine) (p : Nat) (q : QFrame) : Machine :=
  (m.modPort p fun r => { r with tx := { r.tx with queue := r.tx.queue ++ [q] } }).pump p

/-- Return the credits of a frame that has left a port's receive buffer (03 R99), while the port is in the session of its link in which
the frame came: a hard loss has reset the credit state (R96). -/
def Machine.returnCredits (m : Machine) (p vc session : Nat) (f : Frame) : Machine :=
  if isTrained (m.port p).stat.state ∧ (m.port p).session = session then
    let total := (tget 0 (m.port p).rx.freed vc + frameCredits f) % 4096
    (m.modPort p fun r => { r with rx := { r.rx with freed := tset 0 r.rx.freed vc total } }).sendCredit p vc total
  else m

/-- Return the credits of a frame that came on a port. -/
def Machine.returnRx (m : Machine) (rx : RxFrame) : Machine :=
  match rx.port with
  | some p => m.returnCredits p rx.vc rx.session rx.frame
  | none => m

/-- Enter ACTIVE in a configuration: credits advertised, a DEGRADED entry raised, hold-down after discovery, the change
flooded (03 R85–R87, R99, R103; 04 R109, R122). -/
def Machine.enterActive (m : Machine) (p gen : Nat) (lanes : LaneMask) : Machine :=
  let r := m.port p
  let bs := isBackstay r.stat
  let w := widthOf lanes
  let narrow := decide (w < 4)
  let slow := decide (gen < r.train.target)
  let reason := if narrow && slow then 0x1A else if slow then 0x19 else if narrow then 0x18 else 0
  let pools := (vcsOf bs).map fun vc => (vc, poolOf bs vc)
  let m := m.modPort p fun r =>
    { r with
      stat := { r.stat with state := .active, gen := gen, width := w, lanes := lanesOf lanes, reason := reason }
      train := { r.train with attempts := 0 }
      tx := { PortTx.reset with credit := pools, farCount := pools }
      rx := { PortRx.reset with freed := pools }
      cnt := { r.cnt with degrade := if narrow || slow then satAdd32 r.cnt.degrade 1 else r.cnt.degrade } }
  let m := pools.foldl (fun m e => m.sendCredit p e.1 e.2) m
  let m := if narrow || slow then m.raise (srcShr p 2) p else m
  let back := m.hly.db.settled || r.session != 0
  let m := if back then m.modDb fun d => { d with holdDown := d.holdDown.filter (· != p) ++ [p] } else m
  let m := if m.hly.reg.state = .start then m.modHly fun h => { h with state := .discover } else m
  m.floodOwn

end Sys2Proof.Machine
end

