-- ==== Sys2Proof/Machine/Route.lean ====
section
/-!
DEFINITION. The route evaluator: node and pod entries computed from a bank's database, and the choice of a position
(04 R125, R126; 05 R142; 07 R219, R220).
-/
namespace Sys2Proof.Machine

/-- A node route entry (04 Table 4.7). -/
structure RouteEntry where
  priDir : Nat
  priMask : BitVec 6
  detDir : Nat
  detMask : BitVec 6
  hops : Nat
  detExtra : Nat
  valid : Bool
  deriving DecidableEq, Repr

/-- A pod route entry (04 Table 4.8). -/
structure PodEntry where
  gateway : NodeId
  isLocal : Bool
  face : Nat
  valid : Bool
  deriving DecidableEq, Repr

/-- A path: its cost, and its directions hop by hop. -/
structure Path where
  cost : Nat
  dirs : List Nat
  deriving DecidableEq, Repr

/-- An entry that reads 0. -/
def RouteEntry.none : RouteEntry :=
  { priDir := 0, priMask := 0, detDir := 0, detMask := 0, hops := 0, detExtra := 0, valid := false }

/-- The 32 bits of a node entry (04 Table 4.7). -/
def entryWord (e : RouteEntry) : Word :=
  if e.valid then
    word [(0, e.priDir), (3, e.priMask.toNat), (9, e.detDir), (12, e.detMask.toNat), (18, e.hops), (23, e.detExtra),
      (27, flag e.valid)]
  else 0

/-- The 32 bits of a pod entry (04 Table 4.8). -/
def podWord (e : PodEntry) : Word :=
  if e.valid then word [(0, e.gateway.toNat), (16, flag e.isLocal), (17, e.face), (18, 1)] else 0

/-- Torus dimensions of a bank's pod shape. -/
def bankDims (b : Bank) : Nat × Nat × Nat := (axisLen b.cols, axisLen b.rows, 8)

/-- The road-map links of a node's die in a direction (05 R140). -/
def roadLinks (links : List LinkRec) (die : Nat) (n : NodeId) (d : Nat) : List LinkRec :=
  links.filter fun l => l.node == n && l.port / 12 == die && l.dir == d && l.flags % 2 == 1 && l.weight != 0xFFFF

/-- The positions of a node's die in the road map in a direction. -/
def roadMask (links : List LinkRec) (die : Nat) (n : NodeId) (d : Nat) : BitVec 6 :=
  maskOf 6 ((roadLinks links die n d).map (·.pos))

/-- The cost of a hop: the smallest WEIGHT among its road-map positions (07 R219). -/
def hopCost (links : List LinkRec) (die : Nat) (n : NodeId) (d : Nat) : Option Nat :=
  match (roadLinks links die n d).map (·.weight) with
  | [] => none
  | w :: t => some (t.foldl min w)

/-- The cost of a path that leaves a node, if every hop has a road-map position (07 R219). -/
def pathCost (links : List LinkRec) (dm : Nat × Nat × Nat) (die : Nat) : NodeId → List Nat → Option Nat
  | _, [] => some 0
  | n, d :: t =>
    match hopCost links die n d, pathCost links dm die (neighbour dm n d) t with
    | some a, some b => some (a + b)
    | _, _ => none

/-- The senses that correct an axis: nothing when the coordinates match, else the + sense and the − sense with their
hops. -/
def axisSenses (len c t dirPlus : Nat) : List (List Nat) :=
  if c = t then [[]]
  else [List.replicate ((t + len - c) % len) dirPlus, List.replicate ((c + len - t) % len) (dirPlus + 1)]

/-- The paths that correct x, then y, then z, + senses first (07 R219). -/
def axisPaths (dm : Nat × Nat × Nat) (n t : NodeId) : List (List Nat) :=
  (axisSenses dm.1 (nodeX n) (nodeX t) 0).flatMap fun x =>
    (axisSenses dm.2.1 (nodeY n) (nodeY t) 2).flatMap fun y =>
      (axisSenses dm.2.2 (nodeZ n) (nodeZ t) 4).map fun z => x ++ y ++ z

/-- The better of two paths: less cost, then fewer hops, then the earlier in the order of senses (07 R219). -/
def betterPath (a b : Path) : Path :=
  if b.cost < a.cost ∨ (b.cost = a.cost ∧ b.dirs.length < a.dirs.length) then b else a

/-- The primary route from a node to a destination on a die (07 R219). -/
def primaryRoute (links : List LinkRec) (dm : Nat × Nat × Nat) (die : Nat) (n t : NodeId) : Option Path :=
  (axisPaths dm n t).foldl (fun best dirs =>
    match pathCost links dm die n dirs with
    | none => best
    | some c => match best with
      | none => some { cost := c, dirs := dirs }
      | some p => some (betterPath p { cost := c, dirs := dirs })) none

/-- The nodes a path visits, its start included. -/
def pathNodes (dm : Nat × Nat × Nat) : NodeId → List Nat → List NodeId
  | n, [] => [n]
  | n, d :: t => n :: pathNodes dm (neighbour dm n d) t

/-- The detour's direction and path (07 R220): a direction out of the primary's dimension whose neighbour's primary
route meets neither this node nor, through it, the primary's edge; least cost, then fewer hops, then the lower code. -/
def detourRoute (links : List LinkRec) (dm : Nat × Nat × Nat) (die : Nat) (n t : NodeId) (pri : Option Path) :
    Option (Nat × Path) :=
  (List.range 6).foldl (fun best q =>
    let excepted := match pri with
      | some p => match p.dirs with
        | d :: _ => dimOf d == dimOf q
        | [] => true
      | none => false
    match excepted, hopCost links die n q with
    | false, some c =>
      let nb := neighbour dm n q
      match primaryRoute links dm die nb t with
      | none => best
      | some p =>
        if (pathNodes dm nb p.dirs).contains n then best
        else
          let cand : Path := { cost := c + p.cost, dirs := q :: p.dirs }
          match best with
          | none => some (q, cand)
          | some (bq, bp) =>
            if cand.cost < bp.cost ∨ (cand.cost = bp.cost ∧ cand.dirs.length < bp.dirs.length) then some (q, cand)
            else some (bq, bp)
    | _, _ => best) none

/-- Whether a node ID lies in a pod of these dimensions. -/
def inShape (dm : Nat × Nat × Nat) (n : NodeId) : Bool :=
  decide (nodeX n < dm.1) && decide (nodeY n < dm.2.1) && decide (nodeZ n < dm.2.2)

/-- The node entry of node `n`'s die for destination `t` (07 R219, R220). -/
def evalRoute (links : List LinkRec) (dm : Nat × Nat × Nat) (die : Nat) (n t : NodeId) : RouteEntry :=
  if !(inShape dm t) then .none
  else if t = n then { priDir := 6, priMask := 0, detDir := 6, detMask := 0, hops := 0, detExtra := 0, valid := true }
  else
    let pri := primaryRoute links dm die n t
    match pri, detourRoute links dm die n t pri with
    | none, none => .none
    | none, some (q, dp) =>
      { priDir := q, priMask := 0, detDir := q, detMask := roadMask links die n q, hops := min 31 dp.dirs.length,
        detExtra := 0, valid := true }
    | some p, det =>
      let d := p.dirs.headD 6
      let base : RouteEntry :=
        { priDir := d, priMask := roadMask links die n d, detDir := 6, detMask := 0, hops := min 31 p.dirs.length,
          detExtra := 0, valid := true }
      match det with
      | none => base
      | some (q, dp) =>
        let extra := dp.dirs.length - p.dirs.length
        if 15 < extra then base else { base with detDir := q, detMask := roadMask links die n q, detExtra := extra }

/-- This package's node entry in a bank (04 R125). -/
def Machine.nodeEntry (m : Machine) (b : Bank) (die : Nat) (t : NodeId) : RouteEntry :=
  if b.valid && (die == 0 || m.twoDie) then evalRoute b.links (bankDims b) die m.node t else .none

/-- The pod entry of X1: the gateway is the lowest (node, port) whose Backstay link reaches the pod. DEDUCED (log 14). -/
def Machine.podEntry (m : Machine) (b : Bank) (pod : Nat) : PodEntry :=
  if b.valid && m.twoDie then
    match b.links.find? fun l => l.flags / 8 % 2 == 1 && l.status != 0 && l.farNode != 0xFFFF && nodePod l.farNode == pod with
    | some l => { gateway := l.node, isLocal := l.node == m.node, face := if l.dir = 5 then 1 else 0, valid := true }
    | none => { gateway := 0, isLocal := false, face := 0, valid := false }
  else { gateway := 0, isLocal := false, face := 0, valid := false }

/-- The position hash of R126. -/
def routeHash (src : NodeId) (stream : Nat) : Nat := (src.toNat * 0x9E37 + stream * 0x85EB) % 65536

/-- The position that R126 picks among usable ones, ascending. -/
def pickPosition (usable : List Nat) (src : NodeId) (stream : Nat) : Option Nat :=
  usable[routeHash src stream / 256 % usable.length]?

/-- The port in a position, on a die. -/
def Machine.portIn (m : Machine) (die dir pos : Nat) : Option Nat :=
  (List.range 24).find? fun p =>
    let r := m.port p
    dieOfPort p == die && r.stat.assigned && r.stat.dir == dir && r.stat.pos == pos

/-- The positions of a mask whose ports are ACTIVE (04 R127, 07 R218). -/
def Machine.activePositions (m : Machine) (die dir : Nat) (mask : BitVec 6) : List Nat :=
  (onePositions mask).filter fun pos =>
    match m.portIn die dir pos with
    | some p => (m.port p).stat.state == .active
    | none => false

end Sys2Proof.Machine
end

