-- ==== Sys2Proof/Machine/Forward.lean ====
section
/-!
DEFINITION. Forwarding: injection, the checks of a frame, routing, detours, delivery, the duplicate filter
(06 R182–R185; 07 R209–R226, R231, R237–R241).
-/
namespace Sys2Proof.Machine

/-- Change a forwarding counter's record and raise one of the die's sources (07 Table 7.7). -/
def Machine.fwdRaise (m : Machine) (d k : Nat) : Machine := m.raise (srcFwd d k) d

/-- Count a frame dropped by its tag (06 R184). -/
def Machine.tagDrop (m : Machine) : Machine := { m with part := { m.part with tagDrop := satAdd32 m.part.tagDrop 1 } }

/-- Report a planned flow to the master for abort (07 R221, R234); the master takes its own report as a message too. -/
def Machine.reportFlow (m : Machine) (tag stream gen : Nat) : Machine :=
  m.tell m.hly.reg.master (.flowReport tag stream gen)

/-- Whether a frame is DATA or COLL: planned traffic (07 Table 7.2). -/
def planned (f : Frame) : Bool := frType f == 2 || frType f == 3

/-- Whether a frame breaks Table 7.2: a reserved TYPE, LEN or OPX, a node ID with its reserved bit set, a field that must be zero, or a
payload that is not LEN bytes (07 R210, 00 R20, Table 0.7). -/
def malformed (f : Frame) : Bool :=
  let t := frType f
  decide (6 < t) || decide (256 < frLen f) || f.payload.length != frLen f || bitAt (frDst f) 15 || bitAt (frSrc f) 15 ||
  ((t == 0 || t == 1 || t == 4) && (frTxn f != 0 || frGen f != 0)) ||
  ((t == 2 || t == 4) && frOpx f != 0) ||
  (t == 5 && !([1, 2, 3, 4].contains (frOpx f))) || (t == 6 && decide (4 < frOpx f))

/-- Discard a malformed frame (07 R210). -/
def Machine.dropMalformed (m : Machine) (d : Nat) : Machine :=
  (m.modFwdCnt d fun c => { c with malformed := satAdd32 c.malformed 1 }).fwdRaise d 0

/-- Discard a frame at its lifetime; a planned one is reported (07 R215, R234). -/
def Machine.dropAged (m : Machine) (d : Nat) (f : Frame) : Machine :=
  let m := (m.modFwdCnt d fun c => { c with aged := satAdd32 c.aged 1 }).fwdRaise d 1
  if planned f then m.reportFlow (frTag f) (frStream f) (frGen f) else m

/-- The packet lifetime in units of AGE (07 R215). -/
def lifetime : Nat := 3125

/-- Whether a frame that has waited here since a time has reached the lifetime (07 R215). -/
def Machine.agedOut (m : Machine) (f : Frame) (since : DWord) : Bool :=
  decide (lifetime * 64 ≤ frAge f * 64 + (m.ns - since.toNat))

/-- The tag table entry of a bank: the management tag is always LIVE and MEMBER (06 R183). -/
def tagEntry (b : Bank) (tag : Nat) : Option TagEntry :=
  if tag = 0 then some { tag := 0, member := some 0 } else b.prep.tags.find? fun e => e.tag == tag

/-- The resource range of a partition among `n` of a pool: [i × n / K, (i + 1) × n / K) (06 R179). -/
def shareLo (n log2k i : Nat) : Nat := i * n / 2 ^ log2k

/-- Whether an item of a pool of `n` lies in partition i (06 R179). -/
def inShare (n log2k i x : Nat) : Bool := decide (shareLo n log2k i ≤ x) && decide (x < shareLo n log2k (i + 1))

/-- Whether a partition is bound to a tag: BOUND, DRAINING, or under the scrub after a package reset, which leaves its binding (06 R185,
R205). -/
def Machine.boundTo (m : Machine) (i tag : Nat) : Bool :=
  let p := m.partAt i
  p.tag == tag && (p.state == .bound || p.state == .draining || (p.state == .scrubbing && p.keep))

/-- The delivery check of R185 for a nonzero tag: the partition's index when it passes. -/
def Machine.deliveryPart (m : Machine) (b : Bank) (f : Frame) : Option Nat :=
  match tagEntry b (frTag f) with
  | some { member := some i, .. } =>
    let inPart :=
      if frType f = 6 then inShare 2048 m.part.log2k i (frTxn f) else inShare 4096 m.part.log2k i (frStream f)
    if m.boundTo i (frTag f) && inPart then some i else none
  | _ => none

/-- How many records a duplicate filter has (07 R223). -/
def filterSize : Nat := 16384

/-- What the filter makes of a sequence number (07 R223): the record after it, and whether the frame is delivered. -/
def filterStep (r : FilterRec) (s : Nat) (now : DWord) : FilterRec × Bool :=
  let dist := (r.high + 65536 - s) % 65536
  if dist < 256 then
    if r.map.getLsbD dist then (r, false)
    else ({ r with map := setBit r.map dist true, lastAt := now }, true)
  else if 32768 ≤ dist then
    let ahead := 65536 - dist
    ({ r with high := s, map := setBit (r.map <<< ahead) 0 true, lastAt := now }, true)
  else (r, false)

/-- The verdict of the duplicate filter on a delivered frame. -/
inductive Verdict where
  | deliver | duplicate | wait
  deriving DecidableEq, Repr

/-- Pass a frame through the die's duplicate filter (07 R223). -/
def Machine.filterFrame (m : Machine) (d : Nat) (f : Frame) : Machine × Verdict :=
  let r := m.fwdAt d
  let key := fun (e : FilterRec) => e.src == frSrc f && e.stream == frStream f
  match r.filter.find? key with
  | some e =>
    let (e', ok) := filterStep e (frSeq f) m.time.now
    if ok then (m.setFwd d { r with filter := r.filter.map fun x => if key x then e' else x }, .deliver)
    else (m.setFwd d { r with cnt := { r.cnt with dup := satAdd32 r.cnt.dup 1 } }, .duplicate)
  | none =>
    if r.filter.length < filterSize then
      (m.setFwd d { r with filter := r.filter ++ [{ src := frSrc f, stream := frStream f, high := frSeq f, map := 1,
                                                    lastAt := m.time.now }] }, .deliver)
    else (m, .wait)

/-- The cause of a late step (07 Table 7.6). -/
def lateCause (f : Frame) (w : Nat) : Nat :=
  if frDetour f then 1 else if w < frTxn f * 1024 then 2 else 3

/-- How many ns a LAST frame is late, if it is (07 R232). -/
def lateBy (f : Frame) (w : Nat) : Nat := frTxn f * 1024 + frAge f * 64 - (w + 1024)

/-- Late-step detection on delivery (07 R232), and the report to the master, at most once per slice in each 1 ms
(07 R233). -/
def Machine.lateCheck (m : Machine) (d : Nat) (f : Frame) (window : Option Nat) : Machine :=
  match window with
  | none => m
  | some w =>
    if frLast f && decide (w + 1024 < frTxn f * 1024 + frAge f * 64) then
      let cause := lateCause f w
      let m := m.modFwd d fun r =>
        { r with
          cnt := { r.cnt with late := satAdd32 r.cnt.late 1 }
          late := { stream := frStream f, tag := frTag f, cause := cause, src := frSrc f,
                    late := min 65535 (ceilDiv (lateBy f w) 64) } }
      let m := m.fwdRaise d 6
      let lastAt := tget 0 m.hly.lateReport (frTag f)
      if lastAt.toNat = 0 ∨ lastAt.toNat + 1000000 ≤ m.ns then
        { m with hly := { m.hly with lateReport := tset 0 m.hly.lateReport (frTag f) m.time.now } }.tell
          m.hly.reg.master (.lateStep (frTag f) cause (frStream f) (frGen f))
      else m
    else m

/-- The VC of a TYPE at injection (07 Table 7.2). -/
def classVc (type : Nat) : Nat :=
  match type with
  | 0 | 1 => 0
  | 2 | 3 => 1
  | 6 => 4
  | _ => 3

/-- Inject a frame of this package on an I/O die: the header is the package's (06 R182, 07 R211, R212). The SEQ counter of
the pair advances for every DATA, COLL, MSG, REQ and REP frame. -/
def Machine.inject (m : Machine) (d type : Nat) (last : Bool) (dst : NodeId) (tag stream txn gen opx : Nat)
    (payload : List Byte) : Machine :=
  let counted := decide (2 ≤ type)
  let seq := if counted then tget 0 m.txSeq stream else 0
  let m := if counted then { m with txSeq := tset 0 m.txSeq stream ((seq + 1) % 65536) } else m
  let f : Frame :=
    { hdr := mkHdr type m.hly.reg.epoch.toNat last dst m.node tag stream seq txn gen payload.length opx
      payload := payload }
  m.modFwd d fun r => { r with rx := r.rx ++ [{ port := none, vc := classVc type, frame := f, since := m.time.now,
                                                session := 0, checked := false }] }

/-- The REP to a REQ: STREAM, TXN and GEN copied, SRC and DST swapped (07 R225). -/
def Machine.answer (m : Machine) (d : Nat) (f : Frame) (status : Nat) (data : List Byte) : Machine :=
  let pre := if nodePod (frSrc f) == nodePod m.node then [] else leBytes 8 m.time.now.toNat
  m.inject d 6 true (frSrc f) (frTag f) (frStream f) (frTxn f) (frGen f) status (pre ++ data)

/-- Whether I/O die d has a route to a node: the pod entry of a node of another pod, the node entry of one of this pod. -/
def Machine.routeTo (m : Machine) (d : Nat) (n : NodeId) : Bool :=
  if nodePod n = nodePod m.node then (m.nodeEntry m.activeBank d n).valid
  else decide (d = 1) && (m.podEntry m.activeBank (nodePod n)).valid

/-- Discard a frame that has no route, and what its TYPE asks for (07 R221). -/
def Machine.dropNoRoute (m : Machine) (d : Nat) (f : Frame) : Machine :=
  let m := (m.modFwdCnt d fun c => { c with noRoute := satAdd32 c.noRoute 1 }).fwdRaise d 2
  if frType f = 5 then
    if m.routeTo d (frSrc f) then m.answer d f 0x03 [] else m
  else if planned f then m.reportFlow (frTag f) (frStream f) (frGen f)
  else m

/-- The VC of a frame on its next hop (07 R216): the lower of the class's pair at injection and at a turn, the higher for
the rest of a dimension once its wrap link is crossed. -/
def Machine.vcFor (m : Machine) (f : Frame) (rx : RxFrame) (dir : Nat) : Nat :=
  match frType f with
  | 0 => 0
  | 1 => 0
  | 2 | 3 =>
    let base := if frDetour f then 5 else 1
    match rx.port with
    | none => base
    | some p =>
      let din := (m.port p).stat.dir
      if dimOf din = dimOf dir ∧ (rx.vc = 2 ∨ rx.vc = 6 ∨ crossesWrap m.dims m.node din) then base + 1 else base
  | 6 => 4
  | _ => 3

/-- Whether a frame enters a dimension with this hop (07 R217). -/
def Machine.entersDim (m : Machine) (rx : RxFrame) (dir : Nat) : Bool :=
  match rx.port with
  | none => true
  | some p => isBackstay (m.port p).stat || dimOf (m.port p).stat.dir != dimOf dir

/-- Send a frame on a port: it waits in the transmit queue. -/
def Machine.sendOn (m : Machine) (p : Nat) (rx : RxFrame) (f : Frame) (dir : Nat) : Machine :=
  m.enqueue p { vc := m.vcFor f rx dir, frame := f, since := rx.since, enters := m.entersDim rx dir }

/-- Route a frame by its entry: the primary positions, or the detour when none is ACTIVE or the frame comes from the
detour queue (04 R126, 07 R218). -/
def Machine.routeBy (m : Machine) (d : Nat) (rx : RxFrame) (e : RouteEntry) (fromQueue : Bool) : Machine :=
  let f := rx.frame
  let pri := m.activePositions d e.priDir e.priMask
  if fromQueue || pri.isEmpty then
    let det := if e.detDir = 6 then [] else m.activePositions d e.detDir e.detMask
    match pickPosition det (frSrc f) (frStream f) with
    | none => m.dropNoRoute d f
    | some pos =>
      let m := m.modFwdCnt d fun c => { c with detoured := satAdd32 c.detoured 1 }
      match m.portIn d e.detDir pos with
      | some p => m.sendOn p rx (setDetour f) e.detDir
      | none => m.dropNoRoute d f
  else
    match pickPosition pri (frSrc f) (frStream f) with
    | none => m.dropNoRoute d f
    | some pos =>
      match m.portIn d e.priDir pos with
      | some p => m.sendOn p rx f e.priDir
      | none => m.dropNoRoute d f

/-- Deliver a frame to this package (06 R183–R185; 07 R215, R223, R231): a management frame to the I/O die's units; any other through
the membership check of VC1 and VC2, the delivery check, the flow generation and the duplicate filter, to `land` for DATA and to the
die's inbox for the rest. A frame that finds no filter record waits, and keeps its place in its receive buffer. -/
def Machine.deliver (m : Machine) (land : Machine → Nat → Frame → Machine) (flowGen : Machine → Nat → Nat)
    (window : Machine → Nat → Option Nat) (d : Nat) (b : Bank) (rx : RxFrame) : Machine :=
  let f := rx.frame
  let box := fun (m : Machine) =>
    m.modFwd d fun r => { r with inbox := r.inbox ++ [{ frame := f, since := m.time.now }] }
  if frTag f = 0 then box m
  else if (rx.vc == 1 || rx.vc == 2) && !((tagEntry b (frTag f)).any fun e => e.member.isSome) then m.tagDrop
  else match m.deliveryPart b f with
    | none => m.tagDrop.raise 508 0
    | some _ =>
      if planned f && frGen f != flowGen m (frStream f) then
        m.modFwdCnt d fun c => { c with staleGen := satAdd32 c.staleGen 1 }
      else
        match m.filterFrame d f with
        | (m, .duplicate) => m
        | (m, .wait) =>
          (m.modFwd d fun r => { r with waiting := r.waiting ++ [{ rx with checked := true }] }).fwdRaise d 4
        | (m, .deliver) =>
          let m := if planned f then m.lateCheck d f (window m (frStream f)) else m
          if frType f = 2 then land m d f else box m

/-- The inbound rule of a gateway (07 R239, R241): the local peer tag and the local EPOCH_BIT, or no frame. -/
def Machine.inbound (m : Machine) (f : Frame) : Option Frame :=
  let f := { f with hdr := putField f.hdr 4 1 m.hly.reg.epoch.toNat }
  if frTag f = 0 then some f
  else (m.activeBank.prep.peers.find? fun e => e.pod == nodePod (frSrc f) && e.remote == frTag f).map fun e =>
    { f with hdr := putField f.hdr 40 12 e.tag }

/-- Whether the bank that a frame's EPOCH_BIT names holds the active epoch or a held one (04 R130). -/
def Machine.bankHeld (m : Machine) (f : Frame) : Bool :=
  m.hly.reg.installed && (frEpoch f == m.hly.reg.epoch.toNat % 2 || m.hly.reg.oldHeld)

/-- The tag check of every hop (06 R184): the tag is LIVE in the bank that the frame names, and tag 0, with the TYPES that Table 7.2 gives
VC0, is on VC0 and on no other VC. -/
def tagOk (b : Bank) (rx : RxFrame) : Bool :=
  (tagEntry b (frTag rx.frame)).isSome && (frTag rx.frame == 0) == (rx.vc == 0) &&
  (frTag rx.frame == 0) == decide (frType rx.frame ≤ 1)

/-- A frame at I/O die d (07 R218), in the order of R218, R240 and R241; `fromQueue` for a frame of the detour queue. A SYNC frame, which
crosses one link and goes no further, needs no installed route bank. -/
def Machine.forward (m : Machine) (land : Machine → Nat → Frame → Machine) (flowGen : Machine → Nat → Nat)
    (window : Machine → Nat → Option Nat) (d : Nat) (rx : RxFrame) (fromQueue : Bool) : Machine :=
  let f := rx.frame
  let fromBackstay := match rx.port with
    | some p => isBackstay (m.port p).stat && !rx.checked
    | none => false
  if malformed f || (planned f && nodePod (frDst f) != nodePod m.node) then m.dropMalformed d
  else if m.agedOut f rx.since then m.dropAged d f
  else
    match (if fromBackstay then m.inbound f else some f) with
    | none => m.tagDrop
    | some f =>
      let rx := { rx with frame := f }
      if frType f = 1 then
        if frTag f == 0 && rx.vc == 0 then
          m.modFwd d fun r => { r with inbox := r.inbox ++ [{ frame := f, since := m.time.now }] }
        else m.tagDrop
      else if !(m.bankHeld f) then
        (m.modHly fun h => { h with epochDrop := satAdd32 h.epochDrop 1 }).raise 503 0
      else
        let b := m.bank (frEpoch f)
        if !(tagOk b rx) then m.tagDrop
        else
          let transit := frDst f != m.node
          if transit && rx.port.isSome && !m.hly.reg.admitted then m.dropNoRoute d f
          else if nodePod (frDst f) != nodePod m.node then
            let pe := if d = 1 then m.podEntry b (nodePod (frDst f))
              else { gateway := 0, isLocal := false, face := 0, valid := false }
            if !pe.valid then m.dropNoRoute d f
            else if pe.isLocal then
              let dir := if pe.face = 1 then 5 else 4
              match m.portIn d dir 5 with
              | some p =>
                if (m.port p).stat.state = .active then m.sendOn p rx f dir else m.dropNoRoute d f
              | none => m.dropNoRoute d f
            else
              let e := m.nodeEntry b d pe.gateway
              if e.valid then m.routeBy d rx e fromQueue else m.dropNoRoute d f
          else
            let e := m.nodeEntry b d (frDst f)
            if !e.valid then m.dropNoRoute d f
            else if e.priDir = 6 then m.deliver land flowGen window d b rx
            else m.routeBy d rx e fromQueue

/-- Return a frame's credits once it has left its receive buffer: not while it waits there for a filter record (03 R99, 07 R223). -/
def Machine.leaveRx (m' m : Machine) (d : Nat) (rx : RxFrame) : Machine :=
  if (m'.fwdAt d).waiting.length = (m.fwdAt d).waiting.length then m'.returnRx rx else m'

/-- Take the oldest frame of a die's receive buffers, forward it, and return its credits. -/
def Machine.forwardNext (m : Machine) (land : Machine → Nat → Frame → Machine) (flowGen : Machine → Nat → Nat)
    (window : Machine → Nat → Option Nat) (d : Nat) : Machine :=
  match (m.fwdAt d).rx with
  | [] => m
  | rx :: rest => ((m.modFwd d fun r => { r with rx := rest }).forward land flowGen window d rx false).leaveRx m d rx

/-- Start every frame of a die's detour queue on its detour (07 R222). -/
def Machine.detourAll (m : Machine) (land : Machine → Nat → Frame → Machine) (flowGen : Machine → Nat → Nat)
    (window : Machine → Nat → Option Nat) (d : Nat) : Machine :=
  let q := (m.fwdAt d).detq
  let m := m.modFwd d fun r => { r with detq := [] }
  q.foldl (fun m rx => m.forward land flowGen window d rx true) m

/-- Discard the waiting frames of a die and its ports whose lifetime has run out (07 R215), and return what credits they held. -/
def Machine.ageAll (m : Machine) (d : Nat) : Machine :=
  let ports := (List.range 12).map fun i => d * 12 + i
  let r := m.fwdAt d
  let old := (r.rx ++ r.detq ++ r.waiting).filter fun x => m.agedOut x.frame x.since
  let keep := fun (x : RxFrame) => !(m.agedOut x.frame x.since)
  let m' := m.setFwd d { r with rx := r.rx.filter keep, detq := r.detq.filter keep, waiting := r.waiting.filter keep }
  let m' := old.foldl (fun m x => (m.dropAged d x.frame).returnRx x) m'
  ports.foldl (fun m' p =>
    let q := (m.port p).tx.queue
    let m' := m'.modPort p fun r => { r with tx := { r.tx with queue := q.filter fun x => !(m.agedOut x.frame x.since) } }
    (q.filter fun x => m.agedOut x.frame x.since).foldl (fun m x => m.dropAged d x.frame) m') m'

/-- Free a pair's filter record, and let the frames that wait for one try again (07 R223). -/
def Machine.filterExpire (m : Machine) (d : Nat) (src : NodeId) (stream : Nat) : Machine :=
  m.modFwd d fun r =>
    { r with
      filter := r.filter.filter fun e => !(e.src == src && e.stream == stream)
      rx := r.waiting ++ r.rx
      waiting := [] }

end Sys2Proof.Machine
end

