-- ==== Sys2Proof/Machine/HalyardOps.lean ====
section
/-!
DEFINITION. Halyard's shared operations: the component, election, quorum, replication, the database's changes, route
epochs and their abort (04 R109–R135).
-/
namespace Sys2Proof.Machine

/-! ### The component and the election (04 R114, R116) -/

/-- A node's record. -/
def Machine.nodeRec (m : Machine) (n : NodeId) : Option NodeRec := m.hly.db.nodes.find? fun r => r.node == n

/-- Whether a node is admitted and present in the database. -/
def presentNode (nodes : List NodeRec) (n : NodeId) : Bool :=
  nodes.any fun r => r.node == n && r.admission == 0 && r.state == 0

/-- Grow a set of nodes over live links between admitted packages. -/
def growNodes (nodes : List NodeRec) (links : List LinkRec) (set : List NodeId) : Nat → List NodeId
  | 0 => set
  | k + 1 =>
    let next := ((set.flatMap (linkedNodes links)).filter fun n =>
      !(set.contains n) && nodes.any fun r => r.node == n && r.admission == 0).eraseDups
    if next.isEmpty then set else growNodes nodes links (set ++ next) k

/-- This package's component: the admitted packages it reaches over admitted links (04 R114). -/
def Machine.component (m : Machine) : List NodeId :=
  growNodes m.hly.db.nodes m.hly.db.links [m.node] m.hly.db.nodes.length

/-- The candidates of the component (04 R114). -/
def Machine.candidates (m : Machine) : List NodeRec :=
  let c := m.component
  m.hly.db.nodes.filter fun r => r.admission == 0 && r.state != 3 && c.contains r.node

/-- How R114 ranks a candidate: preferred first, then the lower node ID; a lower number ranks higher. -/
def candidateRank (r : NodeRec) : Nat := (if r.eligible then 0 else 65536) + r.node.toNat

/-- A node's rank; an unknown node ranks last. -/
def Machine.rankOf (m : Machine) (n : NodeId) : Nat :=
  match m.nodeRec n with
  | some r => candidateRank r
  | none => 131072 + n.toNat

/-- The best-ranked record of a list. -/
def bestRanked : List NodeRec → Option NodeRec
  | [] => none
  | r :: t =>
    match bestRanked t with
    | none => some r
    | some b => if candidateRank b < candidateRank r then some b else some r

/-- The master of the component (04 R114). -/
def Machine.choice (m : Machine) : Option NodeId := (bestRanked m.candidates).map (·.node)

/-- A node's rack (01 R27): rack column and row. -/
def rackOf (n : NodeId) : Nat × Nat := (nodeX n / 4, nodeY n / 4)

/-- The standby that a master names (04 R116): 0xFFFF when the component has no other candidate. A package whose Halyard is restarting is none.
DEDUCED (log 28). -/
def Machine.chooseStandby (m : Machine) : NodeId :=
  let others := m.candidates.filter fun r => r.node != m.node && r.state != 4
  let preferred := others.filter (·.eligible)
  let away := preferred.filter fun r => rackOf r.node != rackOf m.node
  let pick := fun (l : List NodeRec) => (bestRanked l).map (·.node)
  (((pick away).or (pick preferred)).or (pick others)).getD 0xFFFF

/-- How many packages the pod shape has (01 Table 1.3); the S1 card's pod has one. -/
def Machine.expected (m : Machine) : Nat :=
  if m.hly.reg.state = .island then 1 else m.dims.1 * m.dims.2.1 * 8

/-- Give the node records the roles in force, at the generation that will publish them (04 R123, Table 4.4). -/
def Machine.setRoles (m : Machine) : Machine :=
  let h := m.hly.reg
  m.stampNodes fun r =>
    { r with role :=
        if r.node = m.node then BitVec.ofNat 8 (roleCode h.role)
        else if r.node = h.master then 1
        else if r.node = h.standby then 2 else 0 }

/-! ### The master's checks (04 R110, checks 0x5 and 0x6) -/

/-- Whether the database holds another package with a node ID. -/
def HlyDb.duplicate (d : HlyDb) (n : NodeId) (uid : DWord) : Bool := d.nodes.any fun x => x.node == n && x.uid != uid

/-- Whether a package's last record showed another pod fingerprint than the master's. -/
def HlyDb.misprint (d : HlyDb) (n : NodeId) (uid : DWord) : Bool :=
  d.facts.any fun e => e.node.node == n && e.node.uid == uid && e.fingerprint != d.fingerprint

/-- The admission code of a package at the master: the package's own failed check, else 0x5, else 0x6. -/
def HlyDb.admitCode (d : HlyDb) (r : NodeRec) : BitVec 8 :=
  if r.admission != 0 && r.admission != 5 && r.admission != 6 then r.admission
  else if d.misprint r.node r.uid then 5
  else if d.duplicate r.node r.uid then 6 else 0

/-- A new master runs its checks over the database that it was elected with (04 R110). -/
def Machine.checkAll (m : Machine) : Machine :=
  m.stampNodes fun r => if r.uid = m.fuse.uid then r else { r with admission := m.hly.db.admitCode r }

/-! ### Becoming master, member (04 R115, R117, R119, R120) -/

/-- Open the master's collection of changes with nothing to change. -/
def Machine.openEpoch (m : Machine) : Machine := m.submit .none

/-- The master names its standby, which receives the replica (04 R116). -/
def Machine.nameStandby (m : Machine) : Machine := ((m.modHly fun h => { h with standby := m.chooseStandby }).setRoles).replicate

/-- The standby is lost: the master names another (04 R116). -/
def Machine.renewStandby (m : Machine) (lost : NodeId) : Machine :=
  if m.isMaster ∧ m.hly.reg.standby = lost then m.nameStandby else m

/-- A ledger that knows no rate has the pod's. -/
def rampDefault (x : RampSet) (rate : Nat) : RampSet := if x.rates.isEmpty then { x with rates := tset 0 [] 0xFFFF rate } else x

/-- This package becomes master of its component: provisional until a count shows quorum (04 R115, R117), time root (02 R69), with its checks
run (04 R110) and a standby named (04 R116). Records that it holds and its database does not show are changes. Its first prepare waits out the 250 µs that follow the last switch (04 R130). It installs epoch 1
when no epoch is installed (04 R128). -/
def Machine.becomeMaster (m : Machine) : Machine :=
  let m := m.dropCmds.modHly fun h => { h with state := .run, role := .provisional, master := m.node, quorum := false }
  let passed := match m.hly.lastSwitch with
    | some t => decide (t.toNat + 250000 ≤ m.ns)
    | none => true
  let m := { m with
    tkp := { m.tkp with ramp := rampDefault m.tkp.ramp (m.rig 0x0C), rampWant := rampDefault m.tkp.rampWant (m.rig 0x0C) }
    hly := { m.hly with
      work := { EpochWork.reset with guardDone := passed }
      db := { m.hly.db with confirmed := false, settled := true, announced := 0xFFFF, masterHeld := [] }
      repl := { m.hly.repl with reach := 0 } } }
  let m := m.makeRoot.checkAll.nameStandby
  let m := m.tellKids m.node (.announce m.node)
  let m := m.hly.db.facts.foldl (fun m r => if m.hly.reg.installed && m.tellsNews r then m.takeRecord r else m) m
  if m.hly.reg.installed then m else m.openEpoch

/-- This package accepts a master: its role is that of the standby the database names, or a member's (04 R115). -/
def Machine.acceptMaster (m : Machine) (n : NodeId) : Machine :=
  let m := m.dropCmds.modHly fun h => { h with
    state := .run, master := n, role := if h.standby = m.node ∧ h.master = n then .standby else .member }
  let m := { m with hly := { m.hly with
    work := .reset, db := { m.hly.db with confirmed := false, settled := true, announced := n, masterHeld := [] } } }
  m.modTime fun t => { t with root := false }

/-- A package that would be master, and shares its node ID with another, takes code 0x6 itself (04 R110). -/
def Machine.yieldDuplicate (m : Machine) : Machine :=
  if m.hly.reg.admitted && m.choice == some m.node && m.hly.db.duplicate m.node m.fuse.uid then
    let m := (m.modHly fun h => { h with admitCode := 6, admitted := false }).raise 498 0
    (m.modDb fun d => { d with nodes := d.nodes.map fun r => if r.node = m.node then { r with admission := 6 } else r }).floodOwn
  else m

/-- In ELECT, this package becomes master when its database names it, and accepts the announced master when its database names that one
(04 R114, R115). -/
def Machine.settleElection (m : Machine) : Machine :=
  if m.hly.reg.state = .elect then
    let m := m.yieldDuplicate
    if m.hly.reg.admitted ∧ m.choice = some m.node then m.becomeMaster
    else if m.hly.db.announced ≠ 0xFFFF ∧ m.choice = some m.hly.db.announced then m.acceptMaster m.hly.db.announced
    else m
  else m

/-- Enter ELECT with this package's own database (04 R114, R115): the master-eligible flag in force is taken now (16 R458). -/
def Machine.elect (m : Machine) : Machine :=
  let m := m.dropCmds.modDb fun d => { d with eligible := m.rig 5 == 1, settled := true, confirmed := false, masterHeld := [] }
  let m := { m with hly := { m.hly with work := .reset } }
  let m := m.modDb fun d => { d with nodes := putNode m.ownNode d.nodes }
  (m.modHly fun h => { h with state := .elect, role := .member, master := 0xFFFF, standby := 0xFFFF, quorum := false }).settleElection

/-- What the next REPLAN plans with changes, and a REPLAN follows in the next epoch (13 R390). -/
def Machine.rampNews (m : Machine) (f : RampSet → RampSet) : Machine :=
  (({ m with tkp := { m.tkp with rampWant := f m.tkp.rampWant } }.modWork fun w => { w with wantReplan := true }).openEpoch).replicate

/-- A package's RAMP_UP rate rises: it is in force with the epoch that installs the REPLAN (05 R166; 13 R390, R392). -/
def Machine.raiseRate (m : Machine) (n : NodeId) (v : Nat) : Machine :=
  m.rampNews fun x => { x with rates := tset 0 x.rates n.toNat v }

/-- With full authority the ports that the provisional master kept in hold-down join at the next epoch (04 R117). -/
def Machine.releaseHeld (m : Machine) : Machine :=
  if m.fullAuthority then
    let l := m.hly.db.masterHeld
    (l.foldl (fun m e => m.submit (.linkHold e.1 e.2 false)) m).modDb fun d => { d with masterHeld := [] }
  else m

/-- The summed count reaches the master (04 R117, R118). -/
def Machine.setQuorum (m : Machine) (count : Nat) : Machine :=
  let first := m.hly.repl.reach == 0
  let was := m.hly.reg.quorum
  let has := decide (m.expected < 2 * count)
  let m := { m with hly := { m.hly with repl := { m.hly.repl with reach := count } } }
  let m := ((m.modHly fun h => { h with quorum := has, role := if has then .master else .provisional }).setRoles).releaseHeld
  if !has && (was || first) then m.raise 500 0 else m

/-! ### The database (04 R123, R124; 05 R140, R141) -/

/-- A port's slot capacity by generation and width (05 Table 5.1). -/
def slotCapacity (gen width : Nat) : Nat :=
  match gen, width with
  | 2, 4 => 173
  | 2, 2 => 86
  | 2, 1 => 43
  | 1, 4 => 86
  | 1, 2 => 43
  | 1, 1 => 21
  | _, _ => 0

/-- The WEIGHT of a road-map link (05 R141). -/
def linkWeight (l : LinkRec) (bias : Nat) : Nat :=
  let base := if onBoard l.node l.dir then 90 else 150
  min 0xFFFE (base * 173 / max 1 (slotCapacity l.gen l.width) + bias)

/-- Whether a link belongs in the road map (05 R140). -/
def inRoadMap (nodes : List NodeRec) (l : LinkRec) : Bool :=
  l.status != 0 && l.flags / 2 % 4 == 0 && l.flags / 8 % 2 == 0 && l.farNode != 0xFFFF &&
  presentNode nodes l.node && presentNode nodes l.farNode

/-- The operator's bias of a port (05 R141). -/
def HlyDb.bias (d : HlyDb) (n : NodeId) (p : Nat) : Nat :=
  match d.biases.find? fun b => b.1 == n && b.2.1 == p with
  | some b => b.2.2
  | none => 0

/-- Whether the other end of a link is known and says that it is down, held or disabled: the link is one, and leaves the road map with
either end (04 R133, R137). DEDUCED (log 41). -/
def HlyDb.farOut (d : HlyDb) (l : LinkRec) : Bool :=
  d.links.any fun x => x.node == l.farNode && x.port == l.farPort && x.farNode == l.node && (x.status == 0 || x.flags / 2 % 4 != 0)

/-- A link record with its road-map flag and weight set (05 R140, R141). -/
def HlyDb.mark (d : HlyDb) (l : LinkRec) : LinkRec :=
  let inMap := inRoadMap d.nodes l && !(d.farOut l)
  { l with flags := l.flags / 2 * 2 + flag inMap, weight := if inMap then linkWeight l (d.bias l.node l.port) else 0xFFFF }

/-- Whether two link records say the same, their generation of change aside. -/
def sameLink (a b : LinkRec) : Bool := decide ({ a with changeGen := 0 } = { b with changeGen := 0 })

/-- Whether two node records say the same, their generation of change aside. -/
def sameNode (a b : NodeRec) : Bool := decide ({ a with changeGen := 0 } = { b with changeGen := 0 })

/-- The database REDUCED flag (04 R124). -/
def Machine.reducedFlag (m : Machine) : Bool :=
  let d := m.hly.db
  let admitted := d.nodes.filter fun r => r.admission == 0 && r.state != 3
  decide (admitted.length < m.expected) || admitted.any (fun r => r.degraded != 0 || r.down != 0) ||
  d.nodes.any fun r => r.state == 1 || r.state == 2 || r.state == 3

/-- Whether every live link of a record is in hold-down. -/
def allHeld (r : LsRecord) : Bool := r.links.all fun l => l.status == 0 || l.flags / 2 % 2 == 1

/-- A record enters the master's database (04 R110, R111, R117, R122). A package that was not there, or was absent, is listed once one of its
ports has left hold-down, or at once when it is not admitted. Without full authority the master keeps in hold-down the ports of such a package and
any port that has left it. -/
def Machine.applyRecord (m : Machine) (r : LsRecord) : Machine :=
  let d := m.hly.db
  let n := r.node.node
  let full := m.fullAuthority || !m.hly.reg.installed
  let old := d.nodes.find? fun x => x.node == n && x.uid == r.node.uid
  let away := match old with
    | some x => x.state == 3
    | none => m.hly.reg.installed
  let code := d.admitCode r.node
  if away && allHeld r && code == 0 then m
  else
    let st : BitVec 8 := match old with
      | some x => if x.state = 3 ∨ x.state = 4 then 0 else x.state
      | none => 0
    let rec0 := { r.node with admission := code, state := st, role := (old.map (·.role)).getD 0 }
    let was := fun (x : LinkRec) => d.links.find? fun y => y.node == x.node && y.port == x.port
    let hold := fun (x : LinkRec) => !full && x.status != 0 && x.flags / 2 % 2 == 0 && x.flags / 8 % 2 == 0 &&
      (away || match was x with
        | some y => y.flags / 2 % 2 == 1
        | none => true)
    let links := r.links.foldl (fun l x =>
      let disabled := (was x).any fun y => y.flags / 4 % 2 == 1
      let fl := x.flags / 8 * 8 + flag (disabled || x.flags / 4 % 2 == 1) * 4 + flag (hold x || x.flags / 2 % 2 == 1) * 2
      putLink { x with flags := fl } l) d.links
    let nodes := (putNode rec0 d.nodes).map fun x =>
      if x.node = n ∧ x.uid ≠ r.node.uid ∧ x.admission = 0 then { x with admission := 6 } else x
    let held := (d.masterHeld.filter fun e => e.1 != n) ++ (r.links.filter hold).map fun x => (x.node, x.port)
    m.modDb fun d => { d with nodes := nodes, links := links, masterHeld := held }

/-- One collected change enters the master's database. -/
def Machine.applyChange (m : Machine) (c : Change) : Machine :=
  match c with
  | .record r | .echo r => m.applyRecord r
  | .nodeState n st => m.modDb fun d =>
      { d with nodes := d.nodes.map fun r => if r.node = n then { r with state := BitVec.ofNat 8 st } else r }
  | .setAdmission n code => m.modDb fun d =>
      { d with nodes := d.nodes.map fun r => if r.node = n then { r with admission := BitVec.ofNat 8 code } else r }
  | .linkDisabled n p off => m.modDb fun d =>
      { d with links := d.links.map fun l =>
        if l.node = n ∧ l.port = p then { l with flags := l.flags / 8 * 8 + flag off * 4 + l.flags % 4 } else l }
  | .linkHold n p held => m.modDb fun d =>
      { d with links := d.links.map fun l =>
        if l.node = n ∧ l.port = p then { l with flags := l.flags / 4 * 4 + flag held * 2 + l.flags % 2 } else l }
  | .linkOut n p => m.modDb fun d =>
      { d with links := d.links.map fun l =>
        if l.node = n ∧ l.port = p then { l with flags := l.flags / 4 * 4 + 2 } else l }
  | .bias n p v => m.modDb fun d =>
      { d with biases := (d.biases.filter fun b => !(b.1 == n && b.2.1 == p)) ++ [(n, p, v)] }
  | .none => m

/-- Set the road-map flags and weights, and stamp what changed with the generation (05 R140, R141; 04 Tables 4.5, 4.6). -/
def HlyDb.settle (old new : HlyDb) (gen : Word) : HlyDb :=
  let links := new.links.map fun l =>
    let l := new.mark l
    match old.links.find? fun x => x.node == l.node && x.port == l.port with
    | some x => if sameLink x l then { l with changeGen := x.changeGen } else { l with changeGen := gen }
    | none => { l with changeGen := gen }
  let nodes := new.nodes.map fun r =>
    match old.nodes.find? fun x => x.node == r.node && x.uid == r.uid with
    | some x => if sameNode x r then { r with changeGen := x.changeGen } else { r with changeGen := gen }
    | none => { r with changeGen := gen }
  { new with nodes := nodes, links := links }

/-- The delta that floods a generation: its changed records, with what the header says (04 R123). -/
def Machine.deltaOf (m : Machine) (base : Word) : Mgmt :=
  let h := m.hly.reg
  .delta { gen := h.topoGen, base := base, master := h.master, standby := h.standby, time := m.hly.db.time, quorum := h.quorum,
           fingerprint := m.hly.db.fingerprint }
    (m.hly.db.nodes.filter fun r => r.changeGen == h.topoGen) (m.hly.db.links.filter fun l => l.changeGen == h.topoGen)

end Sys2Proof.Machine
end

