-- ==== Sys2Proof/Machine/Bundle.lean ====
section
/-!
DEFINITION. The firmware bundle and its broadcast: Halyard's tree, the master's source, fragments, checks, repair and its end
(16 R470–R476; 04 R115, R116).
-/
namespace Sys2Proof.Machine

/-! ### Chunks and fragments (16 R470, R473) -/

/-- The bytes of fragment f of a chunk: 248 each, and the last 128 (16 R470). -/
def fragOf (chunk : List Byte) (f : Nat) : List Byte := (chunk.drop (248 * f)).take (if f = 16 then 128 else 248)

/-- Change the broadcast. -/
def Machine.modBcast (m : Machine) (f : Bcast → Bcast) : Machine := m.modBoot fun b => { b with bcast := f b.bcast }

/-- A chunk that this package holds, of its own bundle when it is the source, else of the store. -/
def Machine.heldChunk (m : Machine) (payload : Bool) (i : Nat) : Option (List Byte) :=
  let b := m.boot.bcast
  if m.boot.fw.bundleOk ∧ m.boot.fw.source = 1 then
    match m.ownBundle with
    | none => none
    | some l =>
      let o := bundleIdOf (manifestOf l)
      if payload then (if i < o.chunks then some (payloadChunk (payloadOf l) i) else none)
      else if i < o.mchunks then some (payloadChunk (manifestOf l) i) else none
  else if b.good.contains (chunkKey payload i) then some (mread Config.blank b.store (chunkKey payload i * 4096) 4096)
  else none

/-- Send the 17 fragments of a chunk to each listed node. -/
def Machine.sendChunk (m : Machine) (dsts : List NodeId) (tag : Word) (payload : Bool) (i : Nat) : Machine :=
  match m.heldChunk payload i with
  | none => m
  | some c => (List.range 17).foldl (fun (m : Machine) f =>
      m.tellAll dsts (.bcastFrag { chunk := i, frag := f, payload := payload, tag := tag } (fragOf c f))) m

/-! ### The master as source (16 R472) -/

/-- The master commits the tag of the bundle in force to the standby (16 R472). -/
def Machine.bcastCommit (m : Machine) : Machine :=
  if m.isMaster ∧ m.boot.fw.bundleOk ∧ m.boot.bcast.committed.isNone then
    let m := m.replicate
    m.modBcast fun b => { b with committed := some m.boot.fw.tag, commitSeq := m.hly.repl.seq }
  else m

/-- Once the tag is committed, the master offers its bundle, sends the manifest and payload chunks in ascending order, and ends. -/
def Machine.bcastSend (m : Machine) : Machine :=
  match m.boot.bcast.committed with
  | none => m
  | some tag =>
    if m.isMaster ∧ !m.boot.bcast.offered ∧ m.isCommitted m.boot.bcast.commitSeq then
      let o := bundleIdOf (m.sourceManifest m.boot.fw.source)
      let kids := m.treeKids
      let m := m.tellAll kids (.bcastOffer o)
      let m := (List.range o.mchunks).foldl (fun (m : Machine) i => m.sendChunk kids tag false i) m
      let m := (List.range o.chunks).foldl (fun (m : Machine) i => m.sendChunk kids tag true i) m
      (m.tellAll kids (.bcastEnd tag)).modBcast fun b => { b with offered := true }
    else m

/-- What a bundle taken leads to: steps that wait for it, and at the master the commit and the broadcast. -/
def Machine.bundleSettle (m : Machine) : Machine := m.bootSettle.bcastCommit.bcastSend

/-! ### Reception (16 R473) -/

/-- Every fragment of a chunk. -/
def allFrags : Nat := 2 ^ 17 - 1

/-- Whether every fragment of a chunk is held. -/
def Bcast.complete (b : Bcast) (payload : Bool) (i : Nat) : Bool := tget 0 b.frags (chunkKey payload i) == allFrags

/-- Count a chunk that failed its check as missing (16 R473). -/
def Machine.dropChunk (m : Machine) (payload : Bool) (i : Nat) : Machine :=
  m.modBcast fun b => { b with frags := tset 0 b.frags (chunkKey payload i) 0 }

/-- Check a payload chunk against its digest once it is complete; a failure raises FW_SIG (16 R476). -/
def Machine.checkChunk (m : Machine) (i : Nat) : Machine :=
  let b := m.boot.bcast
  let k := chunkKey true i
  if !(b.complete true i) ∨ b.good.contains k then m
  else if chunkOk b.manifest i (mread Config.blank b.store (k * 4096) 4096) then m.modBcast fun b => { b with good := b.good ++ [k] }
  else (m.dropChunk true i).raise 560 (i % 256)

/-- Check the manifest once it is complete, then every payload chunk that is; a manifest that fails is missing whole and raises FW_SIG. -/
def Machine.checkManifest (m : Machine) (o : BundleId) : Machine :=
  let b := m.boot.bcast
  if b.good.contains 0 ∨ !((List.range o.mchunks).all fun i => b.complete false i) then m
  else
    let man := b.manifest
    if m.manifestOk man 2 && m.svnOk man && tagOf man == o.tag && sigChunks man == o.chunks then
      let m := m.modBcast fun b => { b with good := b.good ++ List.range o.mchunks }
      (List.range o.chunks).foldl (fun (m : Machine) i => m.checkChunk i) m
    else ((List.range o.mchunks).foldl (fun (m : Machine) i => m.dropChunk false i) m).raise 560 0

/-- A master that fetches a bundle learns its size from the manifest's first chunk (16 R472). -/
def Machine.learnSize (m : Machine) (o : BundleId) : Machine :=
  let b := m.boot.bcast
  if o.chunks = 0 ∧ b.complete false 0 then
    let c := leAt (mread Config.blank b.store 0 256) 0x10 4
    m.modBcast fun b => { b with offer := some { o with chunks := c, mchunks := ceilDiv (manifestLen c) 4096 } }
  else m

/-- Report upward once this package and all its children hold the whole bundle (16 Table 16.10). -/
def Machine.reportDone (m : Machine) : Machine :=
  let b := m.boot.bcast
  match b.offer, m.treeParent with
  | some o, some p =>
    if (b.whole ∨ m.boot.fw.bundleOk) ∧ !b.doneSent ∧ (m.treeKids.all b.kidsDone.contains) then (m.tell p (.bcastDone o.tag)).modBcast fun b => { b with doneSent := true }
    else m
  | _, _ => m

/-- Whether a fragment's fields lie within the offer. -/
def fragOk (o : BundleId) (h : FragHdr) (data : List Byte) : Bool :=
  decide (h.frag ≤ 16) && data.length == (if h.frag = 16 then 128 else 248) && decide (h.chunk < if h.payload then o.chunks else o.mchunks)

/-- A fragment of the offered bundle: forwarded to each child, and stored unless HBM is in self-refresh (16 R473). -/
def Machine.takeFrag (m : Machine) (h : FragHdr) (data : List Byte) : Machine :=
  match m.boot.bcast.offer with
  | none => m
  | some o =>
    if h.tag ≠ o.tag ∨ !(fragOk o h data) then m
    else
      let m := m.tellAll m.treeKids (.bcastFrag h data)
      let k := chunkKey h.payload h.chunk
      if m.hbm.refresh ∨ m.boot.bcast.good.contains k then m
      else
        let m := m.modBcast fun b =>
          { b with
            frags := tset 0 b.frags k (tget 0 b.frags k ||| 2 ^ h.frag)
            store := mwrite Config.blank b.store (k * 4096 + 248 * h.frag) data }
        let m := if h.payload then (if m.boot.bcast.good.contains 0 then m.checkChunk h.chunk else m)
          else
            let m := m.learnSize o
            m.checkManifest (m.boot.bcast.offer.getD o)
        m.bundleSettle.reportDone

/-- Take an offer: another tag drops what was held (16 R473). -/
def Machine.takeOffer (m : Machine) (o : BundleId) : Machine :=
  m.modBcast fun b =>
    if (b.offer.map (·.tag)) = some o.tag then { b with offer := some o }
    else { b with offer := some o, frags := [], store := [], good := [], ended := false, kidsDone := [], doneSent := false, late := 0,
                  fetchFrom := none }

/-! ### Repair (16 R474, R476) -/

/-- What a bundle lacks: (payload, chunk), manifest first. -/
def Bcast.missing (b : Bcast) (o : BundleId) : List (Bool × Nat) :=
  (((List.range o.mchunks).map fun i => (false, i)) ++ (List.range o.chunks).map fun i => (true, i)).filter fun e =>
    !(b.good.contains (chunkKey e.1 e.2))

/-- Chunks gathered into ranges, the latest first. -/
def addRange (l : List ChunkRange) (e : Bool × Nat) : List ChunkRange :=
  match l with
  | r :: t => if r.payload = e.1 ∧ r.first + r.count = e.2 ∧ r.count < 2047 then { r with count := r.count + 1 } :: t
    else { first := e.2, count := 1, payload := e.1 } :: l
  | [] => [{ first := e.2, count := 1, payload := e.1 }]

/-- The ranges of a BCAST_NACK: at most 62 (16 Table 16.10). -/
def Bcast.ranges (b : Bcast) (o : BundleId) : List ChunkRange := (((b.missing o).foldl addRange []).reverse).take 62

/-- Send a BCAST_NACK for what is missing, and count it (16 Table 16.13). -/
def Machine.sendNack (m : Machine) (dst : NodeId) : Machine :=
  match m.boot.bcast.offer with
  | none => m
  | some o => (m.tell dst (.bcastNack o.tag (m.boot.bcast.ranges o))).modBcast fun b => { b with nacks := satAdd 1023 b.nacks 1 }

/-- The master without a bundle of its own fetches that of the lowest-ID package that advertised one (16 R472). -/
def Machine.fetchAdvert (m : Machine) : Machine :=
  let b := m.boot.bcast
  let low := b.adverts.foldl (fun (a : Option (NodeId × Word × Word)) e => match a with
    | none => some e
    | some x => if e.1.toNat < x.1.toNat then some e else a) none
  if !m.isMaster ∨ b.staged.isSome ∨ m.boot.fw.bundleOk ∨ !m.boot.fwRerun ∨ m.bootSt 23 != .complete then m
  else match low with
    | none => m
    | some (n, tag, version) =>
      if b.fetchFrom = some n ∧ (b.offer.map (·.tag)) = some tag then m
      else
        let m := (m.takeOffer { tag := tag, version := version, chunks := 0, mchunks := 1 }).modBcast fun b => { b with fetchFrom := some n }
        m.sendNack n

/-- A standby that takes over goes on with the broadcast of the committed tag: with the whole bundle it sends it again, else it first
fetches what it lacks from the lowest-ID package known to hold it (16, master lost during the broadcast). -/
def Machine.bcastContinue (m : Machine) : Machine :=
  if m.boot.fw.bundleOk then (m.modBcast fun b => { b with committed := some m.boot.fw.tag, commitSeq := 0, offered := false }).bcastSend
  else if m.boot.bcast.offer.isSome then
    let holders := if m.boot.bcast.kidsDone.isEmpty then m.otherNodes else m.boot.bcast.kidsDone
    match holders with
    | [] => m
    | n :: t =>
      let low := t.foldl (fun (a : NodeId) x => if x.toNat < a.toNat then x else a) n
      (m.modBcast fun b => { b with fetchFrom := some low }).sendNack low
  else m

/-! ### Commands -/

/-- BCAST_OFFER: received and forwarded down the tree. -/
def execBcastOffer (b : BundleId) (s : State) : Host.Outcome State Fault Refusal :=
  done s (if s.m.isMaster ∨ !s.m.boot.on then s.m else (s.m.takeOffer b).tellAll s.m.treeKids (.bcastOffer b))

/-- BCAST_FRAG. -/
def execBcastFrag (h : FragHdr) (data : List Byte) (s : State) : Host.Outcome State Fault Refusal := done s (s.m.takeFrag h data)

/-- BCAST_END: forwarded; repair may start 1 ms later. -/
def execBcastEnd (tag : Word) (s : State) : Host.Outcome State Fault Refusal :=
  let m := s.m
  done s (if (m.boot.bcast.offer.map (·.tag)) = some tag then
      (m.tellAll m.treeKids (.bcastEnd tag)).modBcast fun b => { b with ended := true }
    else m)

/-- What a package that missed the whole broadcast is sent when it asks: the offer, and the end that lets its repair start (16 R474).
DESIGN CHOICE (log 58). -/
def Machine.offerLate (m : Machine) (node : NodeId) : Machine :=
  let b := m.boot.bcast
  match b.offer with
  | some o => if b.ended then (m.tell node (.bcastOffer o)).tell node (.bcastEnd o.tag) else m
  | none =>
    if b.offered then
      let o := bundleIdOf (m.sourceManifest m.boot.fw.source)
      (m.tell node (.bcastOffer o)).tell node (.bcastEnd o.tag)
    else m

/-- BCAST_NACK: the chunks held are sent to the asker; what this package lacks is in its own BCAST_NACK. One without ranges comes from a
package that knows no offer. -/
def execBcastNack (node : NodeId) (tag : Word) (ranges : List ChunkRange) (s : State) : Host.Outcome State Fault Refusal :=
  let m := s.m
  let mine := if m.boot.fw.bundleOk then m.boot.fw.tag else ((m.boot.bcast.offer.map (·.tag)).getD 0)
  done s (if ranges.isEmpty then m.offerLate node
    else if tag = mine then
      ranges.foldl (fun (m : Machine) r => (List.range r.count).foldl (fun (m : Machine) i =>
        m.sendChunk [node] tag r.payload (r.first + i)) m) m
    else m)

/-- BCAST_NACK_TIMER: 1 ms after BCAST_END, then every 2 ms, while chunks are missing. A package admitted after the broadcast, which knows
no offer, asks its parent for one with a BCAST_NACK of tag 0 and no ranges (16 R474). DESIGN CHOICE (log 58). -/
def execBcastNackTimer (s : State) : Host.Outcome State Fault Refusal :=
  let m := s.m
  let b := m.boot.bcast
  done s (if b.offer.isSome ∧ !b.whole ∧ (b.ended ∨ b.fetchFrom.isSome) then
      match b.fetchFrom, m.treeParent with
      | some n, _ => m.sendNack n
      | none, some p => m.sendNack p
      | none, none => m
    else match m.treeParent with
      | some p =>
        if b.offer.isNone ∧ !m.isMaster ∧ m.hly.reg.admitted ∧ m.bootSt 31 = .running then m.tell p (.bcastNack 0 []) else m
      | none => m)

/-- BCAST_DONE of a child. -/
def execBcastDone (node : NodeId) (tag : Word) (s : State) : Host.Outcome State Fault Refusal :=
  let m := s.m
  done s (if (m.boot.bcast.offer.map (·.tag)) = some tag ∧ m.treeKids.contains node ∧ !(m.boot.bcast.kidsDone.contains node) then
      (m.modBcast fun b => { b with kidsDone := b.kidsDone ++ [node] }).reportDone
    else m)

/-- BCAST_HAVE at the master. -/
def execBcastHave (node : NodeId) (tag version : Word) (s : State) : Host.Outcome State Fault Refusal :=
  let m := s.m
  done s (if m.isMaster then
      (m.modBcast fun b => { b with adverts := (b.adverts.filter fun e => e.1 != node) ++ [(node, tag, version)] }).fetchAdvert
    else m)

/-- The bundle is not whole 2 s after the offer: this package's own bundle of the same tag, else the master is asked for 2 s more
(16 R476). -/
def execBcastTimeout (s : State) : Host.Outcome State Fault Refusal :=
  let m := s.m
  let b := m.boot.bcast
  done s (match b.offer with
    | none => m
    | some o =>
      if b.whole ∨ m.boot.fw.bundleOk ∨ m.isMaster then m
      else if b.late = 0 then
        let own := match m.ownBundle with
          | some l => tagOf (manifestOf l) == o.tag
          | none => false
        let bad := (m.ownBundle.bind fun l => if m.sectionOk l 2 then none else some (((badChunk l).getD 0) % 256))
        let m := match own, bad with
          | true, some u => m.raise 560 u
          | _, _ => m
        if own && bad.isNone then (m.takeBundle 1).bundleSettle.reportDone
        else (m.modBcast fun b => { b with fetchFrom := some m.hly.reg.master, late := 1 }).sendNack m.hly.reg.master
      else m.modBcast fun b => { b with fetchFrom := none, late := 2 })

end Sys2Proof.Machine
end

