-- ==== Sys2Proof/Machine/Links.lean ====
section
/-!
DEFINITION. The commands of the links: training, retraining, envelopes, link control words, Stay failure, counters
(03 R81–R108).
-/
namespace Sys2Proof.Machine

/-- Change a port only in one of its states. -/
def Machine.inState (m : Machine) (p : Nat) (st : PortState) (f : Machine → Machine) : Machine :=
  if (m.port p).stat.state = st then f m else m

/-! ### Training (03 R81) -/

/-- A lane shows signal for 1 µs in DETECT. -/
def execPortDetectSignal (p : Port) (s : State) : Host.Outcome State Fault Refusal :=
  done s (s.m.inState p .detect fun m => m.modPort p fun r => { r with stat := { r.stat with state := .sync } })

/-- All lanes lock, or no further lane locks within 100 µs of the first (03 R81); polarity is corrected in SYNC (R75). -/
def execPortSyncLock (p : Port) (locked : LaneMask) (s : State) : Host.Outcome State Fault Refusal :=
  done s (s.m.inState p .sync fun m =>
    if locked = 0 then m
    else m.modPort p fun r =>
      { r with stat := { r.stat with state := .deskew }, train := { r.train with locked := locked } })

/-- No lane locks within 2 ms. -/
def execPortSyncTimeout (p : Port) (s : State) : Host.Outcome State Fault Refusal :=
  done s (s.m.inState p .sync fun m => m.portFail p 0x02)

/-- The TS2 block this end sends (03 Table 3.5). -/
def Machine.ownTs2 (m : Machine) (p round : Nat) : BitVec 128 :=
  let r := m.port p
  let body := pack [(0, m.node.toNat), (16, flag m.hly.reg.nodeValid), (17, r.stat.dir), (20, r.stat.pos),
    (23, m.shr.preset), (27, r.train.genCap.toNat), (29, r.train.ownClass), (31, r.stat.rxGood.toNat), (35, round)]
  BitVec.ofNat 128 (body + (crc32 (leBytes 12 body)).toNat * 2 ^ 96)

/-- Locked lanes align: EXCHANGE, where this end sends its TS2 blocks with its cable class (03 R81, R83, R84). -/
def execPortDeskewDone (p : Port) (aligned : LaneMask) (s : State) : Host.Outcome State Fault Refusal :=
  done s (s.m.inState p .deskew fun m =>
    let a := aligned &&& (m.port p).train.locked
    if a = 0 then m
    else
      let m := m.modPort p fun r =>
        { r with
          stat := { r.stat with state := .exchange, rxGood := a }
          far := { r.far with cls := r.train.ownClass }
          train := { r.train with aligned := a, ts2Run := 0 } }
      m.emit (.ts2 p (m.ownTs2 p 0)))

/-- No lane aligns within 100 µs. -/
def execPortDeskewTimeout (p : Port) (s : State) : Host.Outcome State Fault Refusal :=
  done s (s.m.inState p .deskew fun m => m.portFail p 0x03)

/-- The preset codes of Table 3.2. -/
def presetCodes : List Nat := [0x0, 0x1, 0x2, 0x3, 0x8, 0x9]

/-- Whether a TS2 block holds a reserved encoding or a nonzero reserved field (03 Table 3.5). -/
def ts2Reserved (b : BitVec 128) : Bool :=
  decide (5 < bits b 17 3) || decide (5 < bits b 20 3) || bits b 29 2 == 0 || bits b 29 2 == 3 ||
  bits b 36 60 != 0 || bitAt b 15 || !(presetCodes.contains (bits b 23 4))

/-- The reason that takes the port DOWN in EXCHANGE, if any check of R84 fails. A reserved encoding goes before a wrong node ID, and that
before a wrong direction or position; the pod of a Backstay far end is checked only where both IDs are valid. DESIGN CHOICE (log 33). -/
def Machine.ts2Reason (m : Machine) (p : Nat) (b : BitVec 128) : Option Nat :=
  let r := m.port p
  let far : NodeId := BitVec.ofNat 16 (bits b 0 16)
  let ids := m.hly.reg.nodeValid && bitAt b 16
  let fdir := bits b 17 3
  let fpos := bits b 20 3
  if ts2Reserved b then some 0x06
  else if isBackstay r.stat then
    if !(fpos == 5 && (fdir == 4 || fdir == 5)) then some 0x06
    else if ids && nodePod far == nodePod m.node then some 0x0F
    else none
  else if ids && far != neighbour m.dims m.node r.stat.dir then some 0x05
  else if fdir != opposite r.stat.dir || fpos != r.stat.pos then some 0x06
  else none

/-- The highest generation present in both ends' capabilities and cable classes; 0 when there is none (03 R82). -/
def targetGen (bs : Bool) (own far : BitVec 2) (ownCls farCls : Nat) : Nat :=
  let g := own &&& far &&& classGens bs ownCls &&& classGens bs farCls
  if bitAt g 1 then 2 else if bitAt g 0 then 1 else 0

/-- A TS2 block in EXCHANGE: a failed check takes the port DOWN; the sixteenth consecutive consistent block agrees on
the target and moves to EQUALISE (03 R81, R82, R84). -/
def execTs2Receive (p : Port) (block : BitVec 128) (s : State) : Host.Outcome State Fault Refusal :=
  done s (s.m.inState p .exchange fun m =>
    if (crc32 (leBytes 12 (bits block 0 96))).toNat ≠ bits block 96 32 ∨ bitAt block 35 then
      m.modPort p fun r => { r with train := { r.train with ts2Run := 0 } }
    else
      let m := m.modPort p fun r =>
        let far : NodeId := BitVec.ofNat 16 (bits block 0 16)
        { r with
          far := { r.far with node := far, dir := bits block 17 3, pos := bits block 20 3, preset := bits block 23 4 }
          train := { r.train with
            farGenCap := BitVec.ofNat 2 (bits block 27 2), farClass := BitVec.ofNat 2 (bits block 29 2)
            farRxGood := BitVec.ofNat 4 (bits block 31 4), farIdValid := bitAt block 16
            ts2Run := if r.train.lastTs2 = block then r.train.ts2Run + 1 else 1
            lastTs2 := block } }
      match m.ts2Reason p block with
      | some reason => m.portDown p reason
      | none =>
        let r := m.port p
        let g := targetGen (isBackstay r.stat) r.train.genCap r.train.farGenCap r.train.ownClass r.train.farClass.toNat
        if 16 ≤ r.train.ts2Run ∧ g ≠ 0 then
          m.modPort p fun r =>
            { r with
              stat := { r.stat with state := .equalise }
              far := { r.far with valid := m.hly.reg.nodeValid && r.train.farIdValid }
              train := { r.train with target := g, gen := g, tries := 0 } }
        else m)

/-- 1 ms passes without agreement. -/
def execPortExchangeTimeout (p : Port) (s : State) : Host.Outcome State Fault Refusal :=
  done s (s.m.inState p .exchange fun m => m.portFail p 0x04)

/-- Adaptation converges, or 10 ms passes with the lanes that have (03 R81). -/
def execPortEqualiseDone (p : Port) (converged : LaneMask) (s : State) : Host.Outcome State Fault Refusal :=
  done s (s.m.inState p .equalise fun m => m.modPort p fun r =>
    { r with
      stat := { r.stat with state := .verify }
      train := { r.train with converged := converged &&& r.train.aligned } })

/-- The higher raw rate of two configurations, the wider on a tie (03 R85). -/
def betterConfig (a b : Nat × LaneMask) : Nat × LaneMask :=
  let ra := widthOf a.2 * laneRate a.1
  let rb := widthOf b.2 * laneRate b.1
  if rb < ra then a else if ra < rb then b else if widthOf b.2 < widthOf a.2 then a else b

/-- PRBS verification ends and the masks are exchanged: ACTIVE, another EQUALISE, or HOLDOFF (03 R81, R85). -/
def execPortVerifyDone (p : Port) (rxGood : LaneMask) (far : BitVec 128) (delayNs : Nat) (s : State) :
    Host.Outcome State Fault Refusal :=
  done s (s.m.inState p .verify fun m =>
    if (crc32 (leBytes 12 (bits far 0 96))).toNat ≠ bits far 96 32 ∨ !(bitAt far 35) then m
    else
      let mine := rxGood &&& (m.port p).train.converged
      let farMask : LaneMask := BitVec.ofNat 4 (bits far 31 4)
      let usable := mine &&& farMask
      let m := m.modPort p fun r =>
        { r with stat := { r.stat with rxGood := mine }
                 train := { r.train with farRxGood := farMask, delayNs := delayNs } }
      let m := m.emit (.ts2 p (m.ownTs2 p 1))
      let r := m.port p
      let again := fun (gen tries bestGen : Nat) (best : LaneMask) => m.modPort p fun r =>
        { r with
          stat := { r.stat with state := .equalise }
          train := { r.train with gen := gen, tries := tries, bestGen := bestGen, bestLanes := best } }
      let settle := fun (c : Nat × LaneMask) =>
        if widthOf c.2 = 0 then m.portFail p 0x08 else m.enterActive p c.1 c.2
      if r.train.gen = 2 then
        if widthOf usable = 4 then m.enterActive p 2 usable
        else if r.train.tries = 0 then again 2 1 2 usable
        else if r.train.tries = 1 ∧ !(isBackstay r.stat) then again 1 2 2 usable
        else settle (2, usable)
      else if r.train.bestGen = 2 then settle (betterConfig (2, r.train.bestLanes) (1, usable))
      else settle (1, usable))

/-- Every lane shows no signal for 200 ns in SYNC to VERIFY: a failed attempt with reason 0x01 (03 R81). -/
def execTrainingSignalLoss (p : Port) (s : State) : Host.Outcome State Fault Refusal :=
  done s (if [PortState.sync, .deskew, .exchange, .equalise, .verify].contains (s.m.port p).stat.state then
    s.m.portFail p 0x01 else s.m)

/-- The backoff ends: DETECT, but a port that dropped with reason 0x10 stays while the reference is missing (03 R86,
02 R73). -/
def execHoldoffExpiry (p : Port) (cable : CableRead) (s : State) : Host.Outcome State Fault Refusal :=
  done s (s.m.inState p .holdoff fun m =>
    if (m.port p).stat.reason = 0x10 ∧ !m.time.refclkOk then
      m.modPort p fun r => { r with train := { r.train with refHeld := true } }
    else m.enterDetect p cable)

/-- Far-end signal returns to a DOWN port after at least 10 ms (03 R81). -/
def execPortDownSignalReturn (p : Port) (cable : CableRead) (s : State) : Host.Outcome State Fault Refusal :=
  done s (s.m.inState p .down fun m => m.enterDetect p cable)

/-! ### Retraining (03 R88–R90) -/

/-- A lane in use loses lock while another stays locked: a fast retrain with reason 0x3. -/
def execLaneLockLoss (p : Port) (good : LaneMask) (s : State) : Host.Outcome State Fault Refusal :=
  done s (s.m.inState p .active fun m =>
    let lanes := (m.port p).stat.lanes
    if lanes &&& good = 0 ∨ lanes &&& ~~~good = 0 then m
    else (m.modPort p fun r => { r with stat := { r.stat with rxGood := r.stat.rxGood &&& good } }).startRetrain p 0x3)

/-- A lane records more than 1,000 corrected symbols within 100 µs: counted, and a fast retrain with reason 0x2. -/
def execFecThreshold (p : Port) (count : Nat) (good : LaneMask) (s : State) : Host.Outcome State Fault Refusal :=
  done s (s.m.inState p .active fun m =>
    let m := m.modPort p fun r =>
      { r with cnt := { r.cnt with fecCorr := satAdd32 r.cnt.fecCorr count } }
    if 1000 < count then
      (m.modPort p fun r => { r with stat := { r.stat with rxGood := r.stat.rxGood &&& good } }).startRetrain p 0x2
    else m)

/-- An unanswered request is repeated every 100 ns (03 R89). -/
def execRetrainReqRepeat (p : Port) (s : State) : Host.Outcome State Fault Refusal :=
  done s (s.m.inState p .retrain fun m =>
    match (m.port p).rt with
    | { own := some reason, leads := false } => m.sendRetrainReq p reason
    | _ => m)

/-- A retrain request: the lower node ID leads; equal IDs take the port DOWN (03 R89), and the frames it holds go to the detour queue as at
a hard loss. DESIGN CHOICE (log 34). -/
def execRetrainReqReceive (p : Port) (word : DWord) (s : State) : Host.Outcome State Fault Refusal :=
  done s (s.m.onWord p 0x4 word fun m =>
    let far := bits word 4 16
    let farMask : LaneMask := BitVec.ofNat 4 (bits word 24 4)
    let own := m.node.toNat
    let m := m.modPort p fun r => { r with train := { r.train with farRxGood := farMask } }
    match (m.port p).rt.own with
    | some _ =>
      if far = own then (m.handover p).portDown p 0x05
      else if far < own then m.modPort p fun r => { r with rt := { own := none, leads := false } }
      else m.modPort p fun r => { r with rt := { r.rt with leads := true } }
    | none =>
      m.modPort p fun r => { r with stat := { r.stat with state := .retrain }, rt := { own := none, leads := false } })

/-- The lanes that a fast retrain resumes on (03 R85, R88, R90): of the lanes good at both ends and not removed by an earlier fast retrain,
the lowest, no more of them than before. -/
def retrainLanes (r : PortRec) (rxGood farRxGood : LaneMask) : LaneMask :=
  let usable := rxGood &&& farRxGood &&& ~~~ r.train.barred
  maskOf 4 ((onePositions usable).take (min (widthOf usable) r.stat.width))

/-- FEC observation ends: ACTIVE at the width of both masks, which never exceeds the previous one, or hard loss on an
empty set; the sender replays from the oldest unacknowledged envelope (03 R85, R88, R90, R94). SHR_CNT_RETRAIN counts the fast retrains
that reach ACTIVE, as SHR_RETRAIN is raised for them (Table 3.9). DESIGN CHOICE (log 35). -/
def execRetrainComplete (p : Port) (rxGood farRxGood : LaneMask) (s : State) : Host.Outcome State Fault Refusal :=
  done s (s.m.inState p .retrain fun m =>
    let r := m.port p
    let usable := retrainLanes r rxGood farRxGood
    let m := m.modPort p fun r =>
      { r with stat := { r.stat with rxGood := rxGood }
               train := { r.train with farRxGood := farRxGood, barred := r.train.barred ||| (r.stat.lanes &&& ~~~ usable) } }
    if usable = 0 then m.hardLoss p 0x0A
    else
      let w := widthOf usable
      let fell := decide (w < r.stat.width)
      let narrow := decide (w < 4)
      let slow := decide (r.stat.gen < r.train.target)
      let m := m.modPort p fun r =>
        { r with
          stat := { r.stat with state := .active, width := w, lanes := usable,
                                reason := if narrow && slow then 0x1A else if slow then 0x19 else if narrow then 0x18 else 0 }
          rt := .reset
          tx := { r.tx with replays := 0 }
          cnt := { r.cnt with retrain := satAdd32 r.cnt.retrain 1
                              degrade := if fell then satAdd32 r.cnt.degrade 1 else r.cnt.degrade } }
      let m := m.raise (srcShr p 1) p
      let m := if narrow || slow || fell then m.raise (srcShr p 2) p else m
      let m := m.floodOwn
      let m := match (m.port p).tx.retry with
        | [] => m
        | e :: _ => m.replayFrom p e.lsn
      m.pump p)

/-- 2 µs pass after the leader's request without ACTIVE (03 R95). -/
def execRetrainTimeout (p : Port) (s : State) : Host.Outcome State Fault Refusal :=
  done s (s.m.inState p .retrain fun m => m.hardLoss p 0x0A)

/-! ### Envelopes and link control words (03 R91–R99) -/

/-- An envelope: accepted only in order, with its CRC and no uncorrectable FEC block; otherwise discarded, with one NAK
when a gap opens and none for an LSN already accepted (03 R91–R93). VC 7, and a planned or detour VC on Backstay, are
discarded under SHR_PROTO (Table 3.9). -/
def execEnvelopeReceive (p : Port) (frame : Frame) (trailer : DWord) (fecSymbols : Nat) (fecBad : Bool) (s : State) :
    Host.Outcome State Fault Refusal :=
  done s (s.m.inState p .active fun m =>
    let low := bits trailer 0 32
    let crcBad := decide ((crc32 (frameBytes frame ++ leBytes 4 low)).toNat ≠ bits trailer 32 32)
    let m := m.modPort p fun r =>
      { r with cnt := { r.cnt with
          fecCorr := satAdd32 r.cnt.fecCorr fecSymbols
          fecUncorr := if fecBad then satAdd32 r.cnt.fecUncorr 1 else r.cnt.fecUncorr
          crc := if crcBad && !fecBad then satAdd32 r.cnt.crc 1 else r.cnt.crc } }
    let r := m.port p
    let lsn := bits trailer 0 10
    let vc := bits trailer 10 3
    let behind := (r.rx.lsn + 1024 - lsn) % 1024
    let gap := fun (m : Machine) =>
      if r.rx.gap then m
      else (m.modPort p fun r => { r with rx := { r.rx with gap := true } }).sendNak p r.rx.lsn
    if fecBad || crcBad then gap m
    else if lsn = r.rx.lsn then
      let m := m.modPort p fun r => { r with rx := { r.rx with lsn := (lsn + 1) % 1024, gap := false } }
      let m := m.sendAck p lsn
      if vc = 7 || !((vcsOf (isBackstay r.stat)).contains vc) then (m.protoDiscard p).returnCredits p vc r.session frame
      else m.modFwd (dieOfPort p) fun f => { f with rx := f.rx ++ [{ port := some p.val, vc := vc, frame := frame, since := m.time.now,
                                                                              session := r.session, checked := false }] }
    else if 0 < behind ∧ behind ≤ (retryLimits (isBackstay r.stat)).1 then m
    else gap m)

/-- An ACK frees the envelopes it covers; an LSN outside the unacknowledged window is hard loss (03 R92, R95). -/
def execAckReceive (p : Port) (word : DWord) (s : State) : Host.Outcome State Fault Refusal :=
  done s (s.m.onWord p 0x1 word fun m =>
    let lsn := bits word 4 10
    let retry := (m.port p).tx.retry
    if retry.any fun e => e.lsn == lsn then
      let left := (retry.dropWhile fun e => e.lsn != lsn).drop 1
      let m := m.modPort p fun r =>
        { r with tx := { r.tx with
            retry := left, replays := 0
            resend := r.tx.resend.bind fun l => if left.any (fun e => e.lsn == l) then some l else left.head?.map (·.lsn) } }
      (m.luffStep (148 + p)).pump p
    else m.hardLoss p 0x0C)

/-- A NAK starts a replay from the named LSN; one outside the window is hard loss (03 R94, R95). -/
def execNakReceive (p : Port) (word : DWord) (s : State) : Host.Outcome State Fault Refusal :=
  done s (s.m.onWord p 0x2 word fun m =>
    let lsn := bits word 4 10
    if (m.port p).tx.retry.any fun e => e.lsn == lsn then
      if (m.port p).stat.state = .active then (m.replayFrom p lsn).pump p else m
    else m.hardLoss p 0x0C)

/-- A further NAK after each 1 µs for as long as the gap remains (03 R93). -/
def execNakRepeat (p : Port) (s : State) : Host.Outcome State Fault Refusal :=
  done s (s.m.inState p .active fun m =>
    if (m.port p).rx.gap then m.sendNak p (m.port p).rx.lsn else m)

/-- 1 µs passes with envelopes unacknowledged and no ACK progress: replay from the oldest (03 R94). -/
def execReplayTimeout (p : Port) (s : State) : Host.Outcome State Fault Refusal :=
  done s (s.m.inState p .active fun m =>
    match (m.port p).tx.retry with
    | [] => m
    | e :: _ => (m.replayFrom p e.lsn).pump p)

/-- A credit return is progress of the link's luff counter (03 R101), and frames may go. -/
def Machine.creditProgress (m : Machine) (p back : Nat) : Machine := (if 0 < back then m.luffStep (148 + p) else m).pump p

/-- A CREDIT word: credits beyond the advertised pool are hard loss (03 R95, R99). -/
def execCreditReceive (p : Port) (word : DWord) (s : State) : Host.Outcome State Fault Refusal :=
  done s (s.m.onWord p 0x3 word fun m =>
    let count := bits word 4 12
    let vc := bits word 16 3
    let r := m.port p
    let back := (count + 4096 - tget 0 r.tx.farCount vc) % 4096
    let have' := tget 0 r.tx.credit vc + back
    if poolOf (isBackstay r.stat) vc < have' then m.hardLoss p 0x0C
    else
      (m.modPort p fun r =>
        { r with tx := { r.tx with credit := tset 0 r.tx.credit vc have', farCount := tset 0 r.tx.farCount vc count } }).creditProgress p back)

/-- Every lane in use loses signal or lock for 200 ns: hard loss with reason 0x09 (03 R95). -/
def execLinkSignalLoss (p : Port) (s : State) : Host.Outcome State Fault Refusal :=
  done s (if (s.m.port p).stat.state = .active ∨ (s.m.port p).stat.state = .retrain then s.m.hardLoss p 0x09 else s.m)

/-- A full-training command: the end leaves ACTIVE for DETECT without hard loss and with no backoff, its frames handed to
the detour queue (03 R90). -/
def execFullTrainReceive (p : Port) (cable : CableRead) (s : State) : Host.Outcome State Fault Refusal :=
  done s (if (s.m.port p).stat.state = .active ∨ (s.m.port p).stat.state = .retrain then
    ((s.m.handover p).enterDetect p cable).floodOwn else s.m)

/-! ### Stay links and counters (03 R102, R105) -/

/-- The compute die that a Stay link's failure makes unusable: the far-end die (03 R105). -/
def stayFarDie (l : Nat) : Nat := [1, 3, 2, 3].getD l (l % 4)

/-- Count replays of a Stay link; more than 16 within 1 ms raise STAY_CORR (03 R103, R105). -/
def Machine.stayReplay (m : Machine) (l n : Nat) : Machine :=
  let recent := ((tget [] m.shr.stayReplays l).filter fun t => decide (m.ns < t.toNat + 1000000)) ++ List.replicate n m.time.now
  let many := decide (16 < recent.length)
  let m := { m with shr := { m.shr with stayReplays := tset [] m.shr.stayReplays l (if many then [] else recent) } }
  if many then m.raise (srcStay l 0) l else m

/-- A Stay error: the transfer is replayed. One that replay cannot correct clears LINK_OK at once and raises STAY_FAIL (03 R105). The row
is the uncorrected error's; the replays that precede it, and the errors that they correct, come with it (log 16). -/
def execStayFail (l : Fin 12) (replays : Nat) (corrected : Bool) (s : State) : Host.Outcome State Fault Refusal :=
  let m := s.m.stayReplay l replays
  done s (if corrected then m
    else { m with shr := { m.shr with stayOk := setBit m.shr.stayOk l false } }.raise (srcStay l 1) l)

/-- Writing 1 to CNT_CLR clears the port's counters (03 R102). -/
def execShrCntClr (p : Port) (s : State) : Host.Outcome State Fault Refusal :=
  done s (s.m.modPort p fun r => { r with cnt := { PortCnt.reset with replayTimes := r.cnt.replayTimes } })

/-- An idle nanosecond: the timebase counts, and every port whose wire is free starts what it may (02 R66; 03 R100). DESIGN CHOICE (log 2). -/
def Machine.idle (m : Machine) : Machine := m.tick.pumpAll

/-- A slot boundary: the port's waiting frames are served under the slot now in force (05 R146). -/
def execSlotStart (p : Port) (s : State) : Host.Outcome State Fault Refusal := done s (s.m.pump p.val)

end Sys2Proof.Machine
end

