-- ==== Sys2Proof/Machine/Time.lean ====
section
/-!
DEFINITION. The commands of the timebase: synchronisation, holdover, the reference, and the read of TIME_NOW_LO
(02 R66–R73).
-/
namespace Sys2Proof.Machine

/-- Set or clear LOCKED; losing it suspends the slot tables and raises TKP_UNLOCKED (02 R70, 05 R149). -/
def Machine.setLocked (m : Machine) (b : Bool) : Machine :=
  let was := m.time.locked
  let m := m.modTime fun t => { t with locked := b, everLocked := t.everLocked || b }
  if was && !b then m.raise 507 0 else m

/-- A measured offset as TIME_OFFSET holds it: signed, in units of 0.25 ns, saturating at 32 bits (02 Table 2.11). -/
def offsetWord (q : DWord) : Word := BitVec.ofInt 32 (max (-2147483648) (min 2147483647 q.toInt))

/-- The first lock: one step to the parent's value, journalled in µs (02 R68, 16 Table 16.8). -/
def Machine.firstLock (m : Machine) (q : DWord) : Machine :=
  let step : Int := -(q.toInt / 4)
  let us : Int := max (-2147483648) (min 2147483647 (step / 1000))
  (m.modTime fun t => { t with now := t.now + BitVec.ofInt 64 step, slew := 0 }).note 0 0x0A 0 (BitVec.ofInt 32 us).toNat

/-- A sync exchange with the parent: `offset` is the measured offset in units of 0.25 ns (02 R68–R71). A package that has lost its parent
makes none until a new parent is named. LOCKED follows the depth and the exchange; in holdover it returns, and HOLDOVER clears, when the
offset is within 1 ns. Past depth 22 the phase is corrected all the same, without LOCKED. -/
def Machine.syncWith (m : Machine) (ok : Bool) (offset : DWord) : Machine :=
  if m.time.root ∨ m.time.parentDir = 6 ∨ m.time.parentLost then m
  else if !ok then (if m.time.holdover then m else m.setLocked false)
  else
    let m := (m.modTime fun t => { t with offset := offsetWord offset }).hlyItem 5
    if !m.time.everLocked ∧ m.time.depth ≤ 22 then
      ((m.firstLock offset).setLocked true).modTime fun t => { t with holdover := false }
    else
      let near := decide (-4 ≤ offset.toInt ∧ offset.toInt ≤ 4)
      let held := m.time.holdover
      let m := m.modTime fun t => { t with slew := -(offset.toInt / 4), holdover := t.holdover && !near }
      if 22 < m.time.depth then m.setLocked false else if held ∧ !near then m else m.setLocked true

/-- Every 1 ms the package exchanges sync frames with its parent. -/
def execSyncExchange (ok : Bool) (offset : DWord) (s : State) : Host.Outcome State Fault Refusal :=
  done s (s.m.syncWith ok offset).bootSettle

/-- The parent link fails: the last locked frequency is kept (02 R71). -/
def execParentLinkFail (s : State) : Host.Outcome State Fault Refusal :=
  done s (if s.m.time.root ∨ s.m.time.parentDir = 6 then s.m
    else s.m.modTime fun t => { t with holdover := true, parentLost := true })

/-- 1 ms of holdover passes without a new lock (02 R71). -/
def execHoldoverExpiry (s : State) : Host.Outcome State Fault Refusal :=
  done s (if s.m.time.holdover then s.m.setLocked false else s.m)

/-- The depth that a parent on a port gives: this package's hops from the root in a tree of fewest hops over trained ports, when the port is
an ACTIVE torus port and its far end is one hop nearer (02 R69). -/
def Machine.depthUnder (m : Machine) (p : Nat) (root : NodeId) : Option Nat :=
  let r := m.port p
  if r.stat.state = .active ∧ !(isBackstay r.stat) then
    match m.timeHops root m.node, m.timeHops root r.far.node with
    | some k, some j => if j + 1 = k then some k else none
    | _, _ => none
  else none

/-- A new time parent on a port: the depth, LOCKED and DEGRADED follow, and an exchange starts at once (02 R70, R71). -/
def Machine.underParent (m : Machine) (p depth : Nat) : Machine :=
  let r := m.port p
  let m := m.modTime fun t =>
    { t with root := false, depth := min 31 depth, degraded := decide (22 < depth), parentLost := false,
             parentDir := r.stat.dir, parentPos := r.stat.pos, parentNode := r.far.node }
  (if 22 < depth then m.setLocked false else m).emit (.syncStart p)

/-- Halyard names a new time parent, on a torus port, under the master or the standby that the time root has moved to (02 R69, R71, R73;
03 R108). The standby that is itself named root takes the root. -/
def execParentNamed (p : Port) (root : NodeId) (s : State) : Host.Outcome State Fault Refusal :=
  let m := s.m
  done s (
    if root = m.node then (if m.hly.reg.role = .standby ∨ m.isMaster then m.makeRoot else m)
    else if root = m.hly.reg.master ∨ root = m.hly.reg.standby then
      match m.depthUnder p root with
      | some depth => m.underParent p depth
      | none => m
    else m)

/-- Whether a port is ACTIVE or training (02 R73). A port in DETECT, which looks for its far end, counts as training. DESIGN CHOICE
(log 36). -/
def activeOrTraining (st : PortState) : Bool :=
  match st with
  | .off | .holdoff | .down => false
  | _ => true

/-- Whether another package named standby is reachable: in the database and not marked absent, for the master marks absent what no path
reaches (04 R134). DEDUCED (log 36). -/
def Machine.standbyReachable (m : Machine) : Bool :=
  m.hly.reg.standby != 0xFFFF && m.hly.reg.standby != m.node &&
  m.hly.db.nodes.any fun n => n.node == m.hly.reg.standby && n.state.toNat != 3

/-- The tray reference is lost (02 R73). -/
def Machine.loseReference (m : Machine) : Machine :=
  let m := m.modTime fun t => { t with refclkOk := false }
  let anyActive := (List.range 24).any fun p => (m.port p).stat.state == .active
  if m.time.root ∧ m.standbyReachable then
    ((m.raiseAs 496 1 0 none).tell m.hly.reg.standby (.timeRoot m.hly.reg.standby)).modTime fun t =>
      { t with root := false, source := .parentLink }
  else if m.time.root ∧ !anyActive then (m.raiseAs 496 1 0 none).modTime fun t => { t with source := .internal }
  else if !m.time.root ∧ m.time.locked then (m.raiseAs 496 1 0 none).modTime fun t => { t with source := .parentLink }
  else
    let m := m.raiseAs 496 3 0 none
    (List.range 24).foldl (fun m p => if activeOrTraining (m.port p).stat.state then m.hardLoss p 0x10 else m) m

/-- A missing tray reference is detected. -/
def execRefclkLoss (s : State) : Host.Outcome State Fault Refusal :=
  done s (if s.m.time.refclkOk then s.m.loseReference else s.m)

/-- The tray reference returns; held ports may return to DETECT at the end of their backoff (02 R73). -/
def execRefclkReturn (s : State) : Host.Outcome State Fault Refusal :=
  done s (
    let m := s.m.modTime fun t => { t with refclkOk := true, source := .trayReference }
    (List.range 24).foldl (fun m p => m.modPort p fun r => { r with train := { r.train with refHeld := false } }) m)

/-- The number of a function: 0 the PF, n VF n. -/
def funcNo : Func → Nat
  | .pf => 0
  | .vf n => n.val + 1

/-- A read of TIME_NOW_LO latches the high word for the reading function (02 R67, 18 R510). -/
def execTimeNowLoRead (f : Func) (s : State) : Host.Outcome State Fault Refusal :=
  done s ((s.m.modTime fun t =>
      { t with latch := tset 0 t.latch (funcNo f) (BitVec.ofNat 32 (t.now.toNat / 2 ^ 32)) }).emit
    (.readData (funcNo f) 0x00C00000 (leBytes 4 s.m.time.now.toNat)))

end Sys2Proof.Machine
end

