-- ==== Sys2Proof/Machine/Telltale.lean ====
section
/-!
DEFINITION. Telltale: rounds, banks, promotion, reaction slots, escalation, the FAULT_N pin, injection and the log
(14 R395–R418).
-/
namespace Sys2Proof.Machine

/-- A source's record. -/
def Machine.src (m : Machine) (i : Nat) : SrcRec := tget .reset m.ttl.src i

/-- Change a source's record. -/
def Machine.modSrc (m : Machine) (i : Nat) (f : SrcRec → SrcRec) : Machine :=
  m.modTtl fun t => { t with src := tset .reset t.src i (f (tget .reset t.src i)) }

/-- A source's entry class, C0 for a reserved index. -/
def entryOf (i : Nat) : Nat := (entryClass i).getD 0

/-- A source's current class: its entry class raised by promotion, never above C3 (14 R401). -/
def Machine.currentClass (m : Machine) (i : Nat) : Nat :=
  if entryOf i = 4 then 4 else min 3 (entryOf i + (m.src i).raised)

/-- SURVIVE: the image's bit, or 1 for entry class C2 and above (14 R417). -/
def surviveOf (i : Nat) (r : SrcRec) : Bool := r.survive.getD (decide (2 ≤ entryOf i))

/-- Whether every FIRST bit is 0 (14 R400). -/
def Ttl.armed (t : Ttl) : Bool := t.src.all fun e => !e.2.first

/-- A reaction slot: `none` is the package slot. -/
def Machine.slotAt (m : Machine) : Option Nat → SlotRec
  | none => m.ttl.pkg
  | some c => tget .reset m.ttl.slots c

/-- Write a reaction slot. -/
def Machine.setSlot (m : Machine) (k : Option Nat) (r : SlotRec) : Machine :=
  match k with
  | none => m.modTtl fun t => { t with pkg := r }
  | some c => m.modTtl fun t => { t with slots := tset .reset t.slots c r }

/-- Recoveries of a class within the last 24 hours, up to 15 (14 R409). -/
def recoveryCount (now : Nat) (r : SlotRec) (cls : Nat) : Nat :=
  min 15 ((r.recoveries.filter fun e => e.1 == cls && decide (now < e.2.toNat + 86400000000000)).length)

/-- The log's capacity (14 R418). -/
def logSize : Nat := 512

/-- Write a log record; a full ring loses its oldest unread record (14 R418). -/
def Machine.ttlLog (m : Machine) (rec : TtlRecord) : Machine :=
  let t := m.ttl
  let full := decide ((t.tail + 1) % logSize = t.head)
  let m := m.modTtl fun t =>
    { t with
      log := tset .reset t.log t.tail rec
      tail := (t.tail + 1) % logSize
      head := if full then (t.head + 1) % logSize else t.head
      lost := if full then satAdd 65535 t.lost 1 else t.lost
      ovf := t.ovf || full }
  if full then m.raise 533 0 else m

/-- SLOT as a record names it. -/
def slotCode : Option Nat → Nat
  | none => 0x40
  | some c => c

/-! ### FAULT_N (14 R411–R413) -/

/-- An assertion that takes effect: the pin goes or stays low, and the minimum low time starts again. -/
def Machine.pinAssert (m : Machine) : Machine :=
  m.modTtl fun t =>
    { t with pin :=
      { t.pin with low := true, minDone := false, lowSince := m.time.now, waiting := false
                   pulses := satAdd 65535 t.pin.pulses 1
                   hold := t.pin.hold || t.autoHold } }

/-- An assertion: one that falls within 2 µs of the pin going high waits until then (14 R412). -/
def Machine.faultN (m : Machine) : Machine :=
  let p := m.ttl.pin
  if p.low then m.pinAssert
  else match p.highSince with
    | some t => if m.ns < t.toNat + 2000 then m.modTtl fun x => { x with pin := { x.pin with waiting := true } }
                else m.pinAssert
    | none => m.pinAssert

/-- The pin goes high when nothing holds it (14 R412, R413). -/
def Machine.pinRelease (m : Machine) : Machine :=
  let p := m.ttl.pin
  if p.low && p.minDone && !p.hold && !p.c4 then
    m.modTtl fun t => { t with pin := { t.pin with low := false, highSince := some m.time.now } }
  else m

/-! ### Reactions -/

/-- The class action of Table 14.2 in a slot; C1 and C2 complete at once, a C3 completes with the package reset it
orders, a C4 never does. The Bool tells whether FAULT_N is asserted. -/
def Machine.classAction (m : Machine) (k : Option Nat) (cls src : Nat) : Machine × Bool :=
  let pin := k.isNone && (decide (m.ttl.pinMin ≤ cls) || cls == 4)
  let m := if cls = 4 then m.modTtl fun t => { t with noRelease := true, c4Source := some src, pin := { t.pin with c4 := true } } else m
  let m := if cls = 3 then m.modTtl fun t => { t with pkgOrder := some src } else m
  let r := m.slotAt k
  let m := m.setSlot k { r with cls := cls, actionDone := decide (cls < 3), doneAt := m.time.now }
  (if pin then m.faultN else m, pin)

/-- A record about a slot's source. -/
def Machine.slotRecord (m : Machine) (k : Option Nat) (type src roundN flags : Nat) : TtlRecord :=
  let r := m.slotAt k
  let s := m.src src
  { type := type, cls := r.cls, slot := slotCode k, flags := flags, source := src, roundN := roundN, time := m.time.now,
    count := s.total, unit := s.lastUnit, ctx := s.lastCtx, recCount := 0, merged := 0 }

/-- Escalation when a reaction enters a class (14 R409), with the FLAGS of the event that made it enter: the package slot rises while its count is at its limit; a
context slot orders a reset of the context's partition. -/
def Machine.escalate (m : Machine) (k : Option Nat) (src roundN fl : Nat) : Nat → Machine
  | 0 => m
  | n + 1 =>
    let r := m.slotAt k
    match k with
    | some c =>
      let limit := m.ttl.limits.getD 3 0
      let cnt := recoveryCount m.ns r 2
      if limit ≠ 0 ∧ limit ≤ cnt then
        let m := (m.ttlLog { m.slotRecord k 0x4 src roundN fl with recCount := cnt }).interrupt 0 0
        let m := m.raise 532 0
        m.modTtl fun t => { t with partOrders := t.partOrders ++ [(m.ctxAt c).base.part] }
      else m
    | none =>
      let limit := m.ttl.limits.getD (r.cls - 1) 0
      let cnt := recoveryCount m.ns r r.cls
      if 1 ≤ r.cls ∧ r.cls ≤ 3 ∧ limit ≠ 0 ∧ limit ≤ cnt then
        let (m, pin) := m.classAction none (r.cls + 1) src
        let m := (m.ttlLog { m.slotRecord none 0x4 src roundN (fl + flag pin * 4) with recCount := cnt }).interrupt 0 0
        (m.raise 532 0).escalate none src roundN fl n
      else m

/-- An event with its effective class in its round (14 R402). -/
structure RoundEvent where
  ev : Event
  eff : Nat
  deriving DecidableEq, Repr

/-- The gravest event of a list, the lowest-indexed source of equally grave ones (14 R404). -/
def gravest : List RoundEvent → Option RoundEvent
  | [] => none
  | e :: t =>
    match gravest t with
    | none => some e
    | some g =>
      if g.eff < e.eff ∨ (g.eff = e.eff ∧ e.ev.source ≤ g.ev.source) then some e else some g

/-- A round's events in one slot: start, merge or raise a reaction, then escalate (14 R404, R406, R409). -/
def Machine.serveSlot (m : Machine) (k : Option Nat) (l : List RoundEvent) (roundN : Nat) (first : Bool) : Machine :=
  let l := l.filter fun e => decide (1 ≤ e.eff)
  match gravest l with
  | none => m
  | some g =>
    let r := m.slotAt k
    let fl := flag g.ev.forced + flag first * 2
    if !r.active then
      let m := m.setSlot k { r with active := true, cls := g.eff, actionDone := false, source := g.ev.source, merged := 0,
                                    lastAt := m.time.now, doneAt := m.time.now }
      let (m, pin) := m.classAction k g.eff g.ev.source
      let m := (m.ttlLog (m.slotRecord k 0x1 g.ev.source roundN (fl + flag pin * 4))).interrupt 0 0
      m.escalate k g.ev.source roundN fl 4
    else
      let m := m.setSlot k { r with merged := satAdd 4095 r.merged l.length, lastAt := m.time.now }
      if r.cls < g.eff then
        let (m, pin) := m.classAction k g.eff g.ev.source
        let m := m.ttlLog (m.slotRecord k 0x2 g.ev.source roundN (fl + flag pin * 4))
        m.escalate k g.ev.source roundN fl 4
      else m

/-- Every context reaction ends and merges into the package reaction; no recovery is counted (14 R405). -/
def Machine.absorbSlots (m : Machine) : Machine :=
  let n := (m.ttl.slots.filter fun e => e.2.active).foldl (fun a e => a + e.2.merged + 1) 0
  m.modTtl fun t =>
    { t with
      slots := (tkeys t.slots).foldl (fun s c =>
        tset .reset s c { SlotRec.reset with recoveries := (tget .reset s c).recoveries }) t.slots
      pkg := if t.pkg.active then { t.pkg with merged := satAdd 4095 t.pkg.merged n } else t.pkg }

/-- One event's banks, counts and promotion (14 R399–R401), and whether its source's class rises. With N = 0 no window opens. -/
def Machine.landEvent (m : Machine) (first : Bool) (e : Event) : Machine × Bool :=
  let i := e.source
  let r := m.src i
  let fresh := !r.winOpen || decide (r.winStart.toNat + r.wMs * 1000000 ≤ m.ns)
  let cnt := if fresh then e.count else r.winCount + e.count
  let met := r.n ≠ 0 && decide (r.n ≤ cnt)
  let rises := met && decide (m.currentClass i < 3)
  (m.modSrc i fun r =>
    { r with any := true, first := r.first || first, total := satAdd32 r.total e.count, lastCtx := e.ctx,
             lastUnit := e.unit % 256, lastAt := m.time.now, forcedSeen := r.forcedSeen || e.forced
             winOpen := !met && r.n ≠ 0, winStart := if fresh then m.time.now else r.winStart
             winCount := if r.n = 0 then 0 else min 255 cnt, raised := if rises then r.raised + 1 else r.raised }, rises)

/-- Land every event of a round; the list is of the events at which a source's class rose. -/
def Machine.landAll (m : Machine) (first : Bool) : List Event → Machine × List Event
  | [] => (m, [])
  | e :: t =>
    let (m, rises) := m.landEvent first e
    let (m, rs) := m.landAll first t
    (m, if rises then e :: rs else rs)

/-- The distinct sources of a round. -/
def roundSources (l : List Event) : List Nat := (l.map (·.source)).eraseDups

/-- An event with its effective class: the graver of the class at which it entered and its source's current class at the round, after
promotion (14 R402). -/
def Machine.roundEvent (m : Machine) (e : Event) : RoundEvent := { ev := e, eff := max e.cls (m.currentClass e.source) }

/-- The PROMOTE record of a rise; its SLOT is the package slot's. DESIGN CHOICE (log 57). -/
def Machine.promoteRecord (m : Machine) (roundN : Nat) (first : Bool) (e : Event) : Machine :=
  let r := m.src e.source
  m.ttlLog { type := 0x5, cls := m.currentClass e.source, slot := slotCode none, flags := flag e.forced + flag first * 2,
             source := e.source, roundN := roundN, time := m.time.now, count := r.total, unit := r.lastUnit, ctx := e.ctx,
             recCount := 0, merged := 0 }

/-- One arbitration round (14 R398–R405). -/
def Machine.ttlRound (m : Machine) : Machine :=
  let m := if m.ttl.pin.waiting && !m.ttl.pin.low &&
      (match m.ttl.pin.highSince with
        | some t => decide (t.toNat + 2000 ≤ m.ns)
        | none => true) then m.pinAssert else m
  match m.ttl.landed with
  | [] => m
  | evs =>
    let first := m.ttl.armed
    let m := m.modTtl fun t => { t with landed := [] }
    let (m, rose) := m.landAll first evs
    let rs := evs.map m.roundEvent
    let roundN := (roundSources evs).length
    let m := rose.foldl (fun (m : Machine) e => m.promoteRecord roundN first e) m
    let top := rs.foldl (fun a e => max a e.eff) 0
    let m := if first then m.modTtl fun t =>
        { t with firstLatched := true, firstClass := top, firstSources := roundN, firstTime := m.time.now
                 firstForced := rs.any fun e => e.ev.forced }
      else m
    let held := m.ttl.pkg.active && decide (3 ≤ m.ttl.pkg.cls)
    let toCtx := fun (e : RoundEvent) => !held && e.eff == 2 && e.ev.ctx.isSome
    let before := if m.ttl.pkg.active then m.ttl.pkg.cls else 0
    let pkgEvents := rs.filter fun e => !toCtx e
    let m := m.serveSlot none pkgEvents roundN first
    let after := if m.ttl.pkg.active then m.ttl.pkg.cls else 0
    let ctxEvents := rs.filter toCtx
    if before < 3 ∧ 3 ≤ after then
      let m := m.absorbSlots
      if before = 0 then m
      else m.modTtl fun t => { t with pkg := { t.pkg with merged := satAdd 4095 t.pkg.merged ctxEvents.length } }
    else
      ((ctxEvents.filterMap fun e => e.ev.ctx).eraseDups).foldl (fun m c =>
        m.serveSlot (some c) (ctxEvents.filter fun e => e.ev.ctx == some c) roundN first) m

/-- Every 10 ns the collector takes what has landed. -/
def execTtlRound (s : State) : Host.Outcome State Fault Refusal := done s s.m.ttlRound

/-- W passes with no event of a source: its class returns to its entry class (14 R401). -/
def execPromotionWindowExpiry (i : Fin 640) (s : State) : Host.Outcome State Fault Refusal :=
  done s (s.m.modSrc i fun r => { r with raised := 0, winOpen := false, winCount := 0 })

/-- A slot's quiet period ends: EXIT, one recovery, the slot idle (14 R408). -/
def Machine.endReaction (m : Machine) (k : Option Nat) : Machine :=
  let r := m.slotAt k
  if r.active && r.actionDone && decide (1 ≤ r.cls) && decide (r.cls ≤ 3) then
    let recs := (r.recoveries.filter fun e => decide (m.ns < e.2.toNat + 86400000000000)) ++ [(r.cls, m.time.now)]
    let rec0 := m.slotRecord k 0x3 r.source 0 0
    let m := m.setSlot k { SlotRec.reset with recoveries := recs }
    let m := m.modTtl fun t => { t with recTotal := satAdd32 t.recTotal 1 }
    (m.ttlLog { rec0 with recCount := recoveryCount m.ns (m.slotAt k) r.cls, merged := r.merged }).interrupt 0 0
  else m

/-- The quiet period of a slot ends. -/
def execReactionQuietExpiry (slot : Option CtxId) (s : State) : Host.Outcome State Fault Refusal :=
  done s (s.m.endReaction (slot.map fun c => c.val))

/-- The minimum low time of FAULT_N ends (14 R412). -/
def execFaultNLowEnd (s : State) : Host.Outcome State Fault Refusal :=
  done s (if s.m.ttl.pin.low then
      (s.m.modTtl fun t => { t with pin := { t.pin with minDone := true } }).pinRelease
    else s.m)

/-- A write of TTL_PIN.HOLD (14 R412). -/
def Machine.writeHold (m : Machine) (hold : Bool) : Machine :=
  (m.modTtl fun t => { t with pin := { t.pin with hold := hold } }).pinRelease

/-- A HOLD write keeps or releases FAULT_N. -/
def execTtlPinHoldWrite (hold : Bool) (s : State) : Host.Outcome State Fault Refusal := done s (s.m.writeHold hold)

/-- FORCE: one event of the source in the next round, at its current class; ignored on a reserved index and while
INJECT_EN is 0 (14 R414). -/
def Machine.force (m : Machine) (i : Nat) : Machine :=
  if m.ttl.injectEn && (entryClass i).isSome then
    if m.ttl.masking && maskedSource i then m.modTtl fun t => { t with maskedCnt := satAdd32 t.maskedCnt 1 }
    else m.modTtl fun t =>
      { t with landed := t.landed ++ [{ source := i, count := 1, unit := 0, cls := m.currentClass i, forced := true,
                                        ctx := if t.forceValid then some t.forceCtx else none }] }
  else m

/-- A write of FORCE. -/
def execTtlForce (source : Fin 1024) (s : State) : Host.Outcome State Fault Refusal := done s (s.m.force source)

/-- Clear FIRST bits of word w; when none is left the bank is armed again and FIRST_INFO and FIRST_TIME clear
(14 R400, R416). -/
def Machine.clearFirst (m : Machine) (w : Nat) (mask : Word) : Machine :=
  let was := m.ttl.armed
  let m := (onePositions mask).foldl (fun m b => m.modSrc (32 * w + b) fun r => { r with first := false }) m
  if !was && m.ttl.armed then m.modTtl fun t =>
    { t with firstLatched := false, firstClass := 0, firstSources := 0, firstForced := false, firstTime := 0 }
  else m

/-- A W1C write of a FIRST word. -/
def execTtlFirstClear (w : Fin 20) (mask : Word) (s : State) : Host.Outcome State Fault Refusal :=
  done s (s.m.clearFirst w mask)

/-- What a package reset does to Telltale at the start of its fence: it masks the package domain's sources, ends every context reaction, and clears
the sources whose SURVIVE bit is 0 (14 R416; 18 Table 18.8, PKG). -/
def Machine.ttlResetStart (m : Machine) : Machine :=
  let m := m.absorbSlots
  m.modTtl fun t =>
    { t with
      masking := true
      src := (tkeys t.src).foldl (fun s i =>
        let r := tget .reset s i
        if surviveOf i r then s
        else tset .reset s i { SrcRec.reset with survive := r.survive, n := r.n, wMs := r.wMs }) t.src }

/-- A package reset completes: the masking ends and a C3 reaction's class action is done (14 R408, R416). -/
def Machine.ttlResetDone (m : Machine) : Machine :=
  m.modTtl fun t =>
    { t with masking := false, pkgOrder := none
             pkg := if t.pkg.active && t.pkg.cls == 3 then { t.pkg with actionDone := true, doneAt := m.time.now } else t.pkg }

/-- Context CREATE clears the context's slot and its recovery count (14 R410). -/
def Machine.clearSlot (m : Machine) (c : Nat) : Machine := m.setSlot (some c) .reset

end Sys2Proof.Machine
end

