-- ==== Sys2Proof/Machine/Memory.lean ====
section
/-!
DEFINITION. Tiles, HBM, the address map, the owner map and the partition shares (06 R178–R180; 08 R249–R254; 10
R293–R304).
-/
namespace Sys2Proof.Machine

/-! ### Shares (06 Table 6.1) -/

/-- The number of partitions K. -/
def Machine.parts (m : Machine) : Nat := 2 ^ m.part.log2k

/-- The first of the items of a pool of `n` that partition i holds (06 R179). -/
def Machine.shareStart (m : Machine) (n i : Nat) : Nat := i * n / m.parts

/-- The logical tiles of partition i (06 R179). -/
def Machine.partTiles (m : Machine) (i : Nat) : List Nat :=
  (List.range (m.shareStart m.tileCount (i + 1) - m.shareStart m.tileCount i)).map (· + m.shareStart m.tileCount i)

/-- The partition of a context ID (06 R180). -/
def Machine.ctxPart (m : Machine) (c : Nat) : Nat := c * 2 ^ m.part.log2k / 64

/-- The compute dies that partition i's tiles lie on (06 Table 6.1). -/
def Machine.partDies (m : Machine) (i : Nat) : List Nat := ((m.partTiles i).map (· / 32)).eraseDups

/-- Whether a stream ID lies in partition i's range (06 Table 6.1). -/
def Machine.streamIn (m : Machine) (i n : Nat) : Bool :=
  decide (m.shareStart 4096 i ≤ n) && decide (n < m.shareStart 4096 (i + 1))

/-! ### A partition's operations, one at a time (09 R292; 10 R303) -/

/-- The partition that executes an operation. -/
def Machine.opPart (m : Machine) : PartOp → Nat
  | .page => m.ctxPart m.part.page.ctx
  | .stream c => m.ctxPart c
  | .image c => m.ctxPart c

/-- Whether an operation is in progress: its mailbox shows BUSY (18 R519). -/
def Machine.opBusy (m : Machine) : PartOp → Bool
  | .page => m.part.page.busy
  | .stream c => (m.ctxAt c).st.busy
  | .image c => (m.ctxAt c).xc.busy

/-- A GO is accepted: the operation stands behind those that have arrived before it. -/
def Machine.opArrive (m : Machine) (o : PartOp) : Machine :=
  { m with part := { m.part with ops := m.part.ops.filter (· != o) ++ [o] } }

/-- Whether it is an operation's turn: none of its partition that arrived before it is in progress. -/
def Machine.opTurn (m : Machine) (o : PartOp) : Bool :=
  (m.part.ops.takeWhile (· != o)).all fun x => m.opPart x != m.opPart o || !(m.opBusy x)

/-! ### Tiles -/

/-- Logical tile l. -/
def Machine.tileAt (m : Machine) (l : Nat) : TileRec := tget .reset m.tiles l
/-- Write logical tile l. -/
def Machine.setTile (m : Machine) (l : Nat) (r : TileRec) : Machine := { m with tiles := tset .reset m.tiles l r }
/-- Change logical tile l. -/
def Machine.modTile (m : Machine) (l : Nat) (f : TileRec → TileRec) : Machine := m.setTile l (f (m.tileAt l))

/-- The bytes of a tile store: 12,288 lines of 256 (08 Table 8.1). -/
def storeBytes : Nat := 3145728

/-- Read a tile store from a line on. No rule says what a line field beyond the last line reads: those bytes are free
values (log 7). -/
def Machine.storeRead (m : Machine) (l line n : Nat) : List Byte :=
  (List.range n).map fun i =>
    if line * 256 + i < storeBytes then tget Config.blank (m.tileAt l).store (line * 256 + i)
    else Config.freeByte m.free (line * 256 + i)

/-- Write a tile store from a line on; nothing lies beyond its last line. -/
def Machine.storeWrite (m : Machine) (l line : Nat) (bs : List Byte) : Machine :=
  m.modTile l fun r => { r with store := mwrite Config.blank r.store (line * 256) (bs.take (storeBytes - line * 256)) }

/-- A tile with its store and accumulators zeroed (08 R251, 09 R282, 15 R434). -/
def TileRec.zeroed (r : TileRec) : TileRec := { r with store := [], acc := [], accInt := 0, badLines := [] }

/-- Write physical tile p of die d. -/
def Machine.setPhys (m : Machine) (d p : Nat) (r : PhysRec) : Machine :=
  { m with tilePhys := tset .reset m.tilePhys (d * 36 + p) r }

/-- Retire the physical tile under logical tile l: the lowest spare of the die takes its place, zeroed, or the tile is left
unmapped (08 R251, R253). -/
def Machine.retireTile (m : Machine) (l : Nat) : Machine :=
  let d := l / 32
  let e := m.mapAt l
  let m := m.setPhys d e.phys { use := .retired, logical := 0 }
  let m := match firstBelow 36 fun p => (m.physAt d p).use == .spare with
    | some p =>
      ({ m with tileMap := tset .reset m.tileMap l { phys := p, valid := true, spare := true } }).setPhys d p
        { use := .mapped, logical := l }
    | none => ({ m with tileMap := tset .reset m.tileMap l { e with valid := false } }).raise (srcSpare d) d
  (m.modTile l fun t =>
    { t.zeroed with portClosed := false, resetAt := none, toRetire := false, lastExpiry := none, phase := .idle }).floodOwn

/-! ### The address map (10 R293–R300) -/

/-- The bytes of a page. -/
def pageBytes : Nat := 2097152
/-- G: pages per stack (10 R298). -/
def Machine.pagesPerStack (m : Machine) : Nat := if m.fuse.hbm3e then 12288 else 8192
/-- Q: pages of a partition on one stack (10 R299). -/
def Machine.partPagesPerStack (m : Machine) : Nat := (m.pagesPerStack - 48) / m.parts
/-- The pages of the address map. -/
def Machine.totalPages (m : Machine) : Nat := m.hbm.s * m.pagesPerStack
/-- The first page of the system region (10 R299). -/
def Machine.systemPage (m : Machine) : Nat := (m.pagesPerStack - 48) * m.hbm.s
/-- The first page of partition i (10 R299). -/
def Machine.partPage (m : Machine) (i : Nat) : Nat := i * m.partPagesPerStack * m.hbm.s
/-- Whether a page lies in partition i. -/
def Machine.pageIn (m : Machine) (i p : Nat) : Bool := decide (m.partPage i ≤ p) && decide (p < m.partPage (i + 1))
/-- The stack that a page lies on (10 R298). -/
def Machine.stackOf (m : Machine) (p : Nat) : Nat := (m.usableStacks)[p % max 1 m.hbm.s]?.getD 0
/-- The pseudo-channel of a device address: bits [12:8] (10 R293). -/
def pchOf (a : Nat) : Nat := a / 256 % 32

/-- A page of the owner map. -/
def Machine.pageAt (m : Machine) (p : Nat) : PageRec := tget .reset m.hbm.pages p
/-- Write a page of the owner map. -/
def Machine.setPage (m : Machine) (p : Nat) (r : PageRec) : Machine :=
  { m with hbm := { m.hbm with pages := tset .reset m.hbm.pages p r } }
/-- Write a range of pages of the owner map. -/
def Machine.setPages (m : Machine) (p n : Nat) (r : PageRec) : Machine :=
  { m with hbm := { m.hbm with pages := tfill .reset m.hbm.pages p (List.replicate n r) } }
/-- Whether a page is OWNED by a context. -/
def Machine.owns (m : Machine) (c p : Nat) : Bool := let r := m.pageAt p; r.use == .owned && r.ctx == c
/-- Whether a range of bytes lies wholly in a context's OWNED pages (10 R301). -/
def Machine.ownsRange (m : Machine) (c a n : Nat) : Bool :=
  n == 0 || (List.range ((a + n - 1) / pageBytes + 1 - a / pageBytes)).all fun i => m.owns c (a / pageBytes + i)
/-- The pages a context owns: CTX_HBM_PAGES (10 Table 10.12). -/
def Machine.ctxPages (m : Machine) (c : Nat) : List Nat :=
  (m.hbm.pages.filter fun e => e.2.use == .owned && e.2.ctx == c).map (·.1)

/-- Read HBM from a device address on. -/
def Machine.hbmRead (m : Machine) (a n : Nat) : List Byte := mread Config.blank m.hbm.bytes a n
/-- Where the contents of a stack that is not usable are kept, beyond the device address space: the key of a stack-local page (10 R296).
DEDUCED (log 61). -/
def asidePage (stack page : Nat) : Nat := 2 ^ 27 + stack * 2 ^ 14 + page

/-- Where a page lies once the usable stacks have changed from `old` to `use`: it stays on its stack, at its stack-local page (10 R296, R298). -/
def movedPage (old use : List Nat) (p : Nat) : Nat :=
  let place : Nat × Nat := if p < 2 ^ 27 then (old.getD (p % max 1 old.length) 0, p / max 1 old.length) else ((p - 2 ^ 27) / 2 ^ 14, (p - 2 ^ 27) % 2 ^ 14)
  match use.findIdx? (· == place.1) with
  | some i => place.2 * use.length + i
  | none => asidePage place.1 place.2

/-- The memory with its contents and owner map at the addresses that the usable stacks give them (10 R296, R298). -/
def Machine.remapHbm (m : Machine) (old use : List Nat) : Machine :=
  if old = use then m
  else { m with hbm := { m.hbm with
    pages := m.hbm.pages.foldl (fun (t : Table PageRec) e => tset .reset t (movedPage old use e.1) e.2) []
    bytes := m.hbm.bytes.foldl (fun (t : Table Byte) e =>
      tset Config.blank t (movedPage old use (e.1 / pageBytes) * pageBytes + e.1 % pageBytes) e.2) [] } }

/-- The RETIRED pages of the usable stacks are FREE again once their stacks have been retrained and retested (10 R297). -/
def Machine.unretirePages (m : Machine) : Machine :=
  { m with hbm := { m.hbm with pages := m.hbm.pages.filter fun (e : Nat × PageRec) => e.2.use != .retired || decide (2 ^ 27 ≤ e.1) } }

/-- Write HBM from a device address on. -/
def Machine.hbmWrite (m : Machine) (a : Nat) (l : List Byte) : Machine :=
  { m with hbm := { m.hbm with bytes := mwrite Config.blank m.hbm.bytes a l } }
/-- Write zero to a range of HBM. -/
def Machine.hbmZero (m : Machine) (a n : Nat) : Machine := { m with hbm := { m.hbm with bytes := tclear m.hbm.bytes a n } }
/-- Write zero to pages and set them FREE, but for RETIRED ones (10 R301, R302). -/
def Machine.freePages (m : Machine) (ps : List Nat) : Machine :=
  ps.foldl (fun m p => if (m.pageAt p).use = .retired then m.hbmZero (p * pageBytes) pageBytes
    else (m.hbmZero (p * pageBytes) pageBytes).setPage p .reset) m

/-! ### Meters (06 R201) -/

/-- A meter of 64 bits that saturates. -/
def satAdd64 (a b : Nat) : Nat := min (a + b) 0xFFFFFFFFFFFFFFFF
/-- Change a context's meters. -/
def Machine.meter (m : Machine) (c : Nat) (f : Meters → Meters) : Machine :=
  m.modBase c fun b => { b with meters := f b.meters }
/-- Charge HBM bytes to a context. -/
def Machine.meterHbm (m : Machine) (c n : Nat) : Machine := m.meter c fun x => { x with hbm := satAdd64 x.hbm n }
/-- Charge injected payload bytes to a context. -/
def Machine.meterLink (m : Machine) (c n : Nat) : Machine := m.meter c fun x => { x with link := satAdd64 x.link n }
/-- Charge a tile's time to a context; the interval's share per die is kept for R202. -/
def Machine.meterTile (m : Machine) (c l n : Nat) : Machine :=
  m.modBase c fun b =>
    { b with meters := { b.meters with tile := satAdd64 b.meters.tile n }
             dieTile := tset 0 b.dieTile (l / 32) (tget 0 b.dieTile (l / 32) + n) }

end Sys2Proof.Machine
end

