-- ==== Sys2Proof/Machine/Streams.lean ====
section
/-!
DEFINITION. The stream table: entries, tokens, credits and the frames that manage them (10 R305–R318).
-/
namespace Sys2Proof.Machine

/-- Stream n. -/
def Machine.strmAt (m : Machine) (n : Nat) : StreamRec := tget .reset m.strm.entries n
/-- Write stream n. -/
def Machine.setStrm (m : Machine) (n : Nat) (r : StreamRec) : Machine :=
  { m with strm := { m.strm with entries := tset .reset m.strm.entries n r } }
/-- Change stream n. -/
def Machine.modStrm (m : Machine) (n : Nat) (f : StreamRec → StreamRec) : Machine := m.setStrm n (f (m.strmAt n))

/-- The stream kinds (10 Table 10.4). -/
def kindOut : Nat := 1
/-- IN. -/
def kindIn : Nat := 2
/-- COLL. -/
def kindColl : Nat := 3
/-- MSG. -/
def kindMsg : Nat := 4

/-- The code of a stream state (10 Table 10.6). -/
def StreamState.code : StreamState → Nat
  | .closed => 0
  | .open_ => 1
  | .bound => 2
  | .held => 3
  | .closing => 4

/-- Bytes 0x08–0x13 of an entry: a MSG stream's buffer, or the channel and image tile of a kind that is bound, 0 while it is not (10 Table 10.5). -/
def StreamRec.place (r : StreamRec) : Nat :=
  if r.kind = kindMsg then pack [(0, r.base % 2 ^ 64), (64, r.len % 2 ^ 32)]
  else pack [(64, r.channel % 1024), (74, r.tile % 128)]

/-- The 64 bytes of a stream entry (10 Table 10.5). -/
def StreamRec.bytes (r : StreamRec) : List Byte :=
  leBytes 8 (pack [(0, r.state.code), (3, r.kind), (6, r.ctx), (12, flag r.peerSeen), (16, r.peer.toNat), (32, r.gen),
    (48, r.depth)]) ++
  leBytes 12 r.place ++ leBytes 4 r.windowNs ++
  leBytes 8 (pack [(0, r.credit), (16, r.firstSeq), (32, r.landed)]) ++
  leBytes 8 (pack [(0, r.signal.toNat), (32, r.ring), (48, r.ringHead)]) ++
  leBytes 8 (pack [(0, r.ringTail), (32, r.dropsIn), (48, r.dropsOut)]) ++
  leBytes 8 r.openTime.toNat ++
  leBytes 8 (pack [(0, r.anchorSeq), (16, r.anchorSlot)])

/-- Whether a context is being removed or reset: its fence is in force (06 R197, 15 R426). -/
def Machine.fenced (m : Machine) (c : Nat) : Bool :=
  let r := m.ctxAt c
  r.base.life == .ending || r.rst.inReset

/-! ### Discards (10 R312, R315, R317, R318) -/

/-- Count an inbound frame that a stream discards. -/
def StreamRec.dropIn (r : StreamRec) : StreamRec := { r with dropsIn := satAdd 0xFFFF r.dropsIn 1 }
/-- Count an outbound send that a stream refuses. -/
def StreamRec.dropOut (r : StreamRec) : StreamRec := { r with dropsOut := satAdd 0xFFFF r.dropsOut 1 }

/-- STRM_STALE, STRM_MSG_DROP, STRM_CREDIT_ERR (k = 0–2). -/
def srcStrm (k : Nat) : Nat := 527 + k

/-- Discard a frame that finds its stream not bound to it (10 R315). -/
def Machine.staleDrop (m : Machine) (n : Nat) : Machine :=
  (({ m with strm := { m.strm with cntClosed := satAdd32 m.strm.cntClosed 1 } }).modStrm n StreamRec.dropIn).raise (srcStrm 0) 0

/-- Whether a frame meets a stream BOUND, of the right kind, owned in its tag's partition and from its peer (10 R315). -/
def Machine.boundFor (m : Machine) (f : Frame) (kind : Nat) : Bool :=
  let r := m.strmAt (frStream f)
  r.state == .bound && r.kind == kind && (m.ctxAt r.ctx).base.tag == frTag f && (kind != kindIn || r.peer == frSrc f)

/-! ### Stream management frames (10 R310, R311) -/

/-- The payload of a stream management frame (10 Table 10.8). -/
def strmPayload (n gen value : Nat) : List Byte := leBytes 16 (pack [(0, n % 4096), (16, gen % 256), (24, value % 65536)])

/-- Send a STREAM_HELLO: GEN and the pair's next SEQ (10 R310). -/
def Machine.sendHello (m : Machine) (n : Nat) : Machine :=
  let r := m.strmAt n
  m.inject 0 0 true r.peer 0 0 0 0 0x40 (strmPayload n r.gen (tget 0 m.txSeq n))

/-- Send a STREAM_CREDIT: the slots freed since the generation began plus DEPTH (10 R310, R311). -/
def Machine.sendStreamCredit (m : Machine) (n : Nat) : Machine :=
  let r := m.strmAt n
  (m.inject 0 0 true r.peer 0 0 0 0 0x41 (strmPayload n r.gen ((r.freed + r.depth) % 65536))).modStrm n fun r =>
    { r with lastCredit := some m.time.now }

/-- Send credit on an IN stream that is BOUND and has PEER_SEEN (10 R310). -/
def Machine.offerCredit (m : Machine) (n : Nat) : Machine :=
  let r := m.strmAt n
  if r.kind = kindIn ∧ r.state = .bound ∧ r.peerSeen then m.sendStreamCredit n else m

/-- An IN stream takes a STREAM_HELLO of its generation from its peer: FIRST_SEQ and PEER_SEEN; the anchor is FIRST_SEQ while no token of the generation
has landed or been freed (10 R310, R312; DEDUCED, log 49). -/
def Machine.takeHello (m : Machine) (f : Frame) : Machine :=
  let n := leAt f.payload 0 2 % 4096
  let r := m.strmAt n
  if r.kind = kindIn ∧ (r.state = .open_ ∨ r.state = .bound) ∧ r.gen = leAt f.payload 2 1 ∧ r.peer = frSrc f then
    let v := leAt f.payload 3 2
    let r := { r with firstSeq := v, peerSeen := true }
    let r := if r.landed = 0 ∧ r.freed = 0 then { r with anchorSeq := v, anchorSlot := 0 } else r
    (m.setStrm n r).offerCredit n
  else m

/-- An OUT stream takes a STREAM_CREDIT (10 R311): CREDIT is VALUE less the tokens sent in the generation, so that what an armed step has still to send is
no longer deducted. The first credit of a generation tells the peer's DEPTH. -/
def Machine.takeCredit (m : Machine) (f : Frame) : Machine :=
  let n := leAt f.payload 0 2 % 4096
  let r := m.strmAt n
  if r.kind = kindOut ∧ (r.state = .open_ ∨ r.state = .bound) ∧ r.gen = leAt f.payload 2 1 ∧ r.peer = frSrc f then
    let credit := (leAt f.payload 3 2 + 65536 - r.landed % 65536) % 65536
    let depth := if r.peerSeen then r.depth else leAt f.payload 3 2
    if depth < credit ∨ 4096 < depth then
      { m with strm := { m.strm with cntCredit := satAdd32 m.strm.cntCredit 1 } }.raise (srcStrm 2) 0
    else m.setStrm n { r with credit := credit, depth := depth, peerSeen := true, freed := 0 }
  else m

/-! ### Tokens (10 R311, R312, R314) -/

/-- The bytes of a context's bound image: where a tile of it lies among the package's logical tiles (09 R272, R281). -/
def Machine.logical (m : Machine) (c : Nat) (b : BoundImage) (t : Nat) : Nat :=
  m.shareStart m.tileCount (m.ctxPart c) + b.base + t

/-- A channel of a bound image. -/
def BoundImage.chan? (b : BoundImage) (ch : Nat) : Option ChanRec := b.img.chans[ch]?

/-- Land a DATA token in the slot that its SEQ gives relative to the anchor (10 R312, R315). -/
def Machine.landToken (m : Machine) (_d : Nat) (f : Frame) : Machine :=
  let n := frStream f
  if !(m.boundFor f kindIn) then m.staleDrop n
  else
    let r := m.strmAt n
    let diff := (frSeq f + 65536 - r.anchorSeq) % 65536
    if r.depth ≤ diff then m.modStrm n StreamRec.dropIn
    else
      let slot := (r.anchorSlot + diff) % max 1 r.depth
      match (m.ctxAt r.ctx).xc.image with
      | none => m.modStrm n StreamRec.dropIn
      | some b =>
        let line := ((b.chan? r.channel).map (·.bufLine)).getD 0 + slot
        (m.storeWrite (m.logical r.ctx b r.tile) line f.payload).modStrm n fun r =>
          { r with landed := r.landed + 1, credit := r.depth - (r.landed + 1), lastLanding := m.time.now }

/-- A stream's current flow generation (07 R231). -/
def Machine.flowGen (m : Machine) (n : Nat) : Nat := (m.strmAt n).gen

/-- The window W that the package holds with a stream; 0 is no reservation (07 R232, 10 Table 10.5). -/
def Machine.strmWindow (m : Machine) (n : Nat) : Option Nat :=
  if (m.strmAt n).windowNs = 0 then none else some (m.strmAt n).windowNs

/-- Free k slots of an IN stream, from the anchor, and send the credit (10 R311, R312). -/
def Machine.freeSlots (m : Machine) (n k : Nat) : Machine :=
  if k = 0 then m
  else
    (m.modStrm n fun r =>
      { r with landed := r.landed - k, credit := r.depth - (r.landed - k), freed := r.freed + k,
               anchorSeq := (r.anchorSeq + k) % 65536, anchorSlot := (r.anchorSlot + k) % max 1 r.depth }).offerCredit n

/-- Deduct an armed step's count from an OUT stream's credits (10 R314); of an OUT stream, `freed` counts what is deducted and not yet sent. -/
def Machine.takeCredits (m : Machine) (n k : Nat) : Machine := m.modStrm n fun r => { r with credit := r.credit - k, freed := k }

/-- A token goes out: the credit that its step's arming deducted, or one of those that a credit frame has given since (10 R311, R312). -/
def StreamRec.spend (r : StreamRec) : StreamRec :=
  { r with landed := r.landed + 1, freed := r.freed - 1, credit := if r.freed = 0 then r.credit - 1 else r.credit }

/-- The I/O die that carries a stream's planned frames: its demand's plane (05 R155, Table 5.2); X0 without a demand. -/
def Machine.strmDie (m : Machine) (tag n : Nat) : Nat :=
  ((m.activeBank.prep.flows.find? fun e => e.tag == tag && e.stream == n).map (·.plane)).getD 0

/-- REL: units of 1,024 ns since the step's release, saturating (07 R210). -/
def Machine.rel (m : Machine) (releaseAt : DWord) : Nat := min 2047 ((m.ns - releaseAt.toNat) / 1024)

/-- Send a token of an OUT stream as one DATA frame (10 R312); LAST on the step's last token. -/
def Machine.sendToken (m : Machine) (c n rel : Nat) (last : Bool) (payload : List Byte) : Machine :=
  let r := m.strmAt n
  let tag := (m.ctxAt c).base.tag
  ((m.inject (m.strmDie tag n) 2 last r.peer tag n rel r.gen 0 payload).modStrm n fun r =>
    r.spend).meterLink c payload.length

/-! ### Lifecycle (10 R307–R309, R313, R316) -/

/-- The window that the active bank's reservations give a stream (10 R306). -/
def Machine.windowOf (m : Machine) (n : Nat) : Nat :=
  ((m.activeBank.prep.windows.find? fun e => e.stream == n).map (·.windowNs)).getD 0

/-- Start a stream's fence (10 R313). -/
def Machine.closeStream (m : Machine) (n : Nat) : Machine :=
  m.modStrm n fun r => if r.state = .closed then r else { r with state := .closing, closedAt := m.time.now }

/-- The streams of a context that are not CLOSED. -/
def Machine.streamsOf (m : Machine) (c : Nat) : List Nat :=
  (m.strm.entries.filter fun e => e.2.state != .closed && e.2.ctx == c).map (·.1)

/-- A BOUND stream returns to OPEN, as at UNBIND (10 R307), and an OUT one says hello again (R310); one that is HELD will return there. -/
def Machine.unbindStream (m : Machine) (n : Nat) : Machine :=
  let old := m.strmAt n
  let m := m.modStrm n fun r =>
    if r.state = .bound then { r with state := .open_, channel := 0, tile := 0 }
    else if r.state = .held then { r with heldFrom := .open_, channel := 0, tile := 0 }
    else r
  if old.state = .bound ∧ old.kind = kindOut then m.sendHello n else m

/-- FLOW_ABORT at a member: the stream is HELD and takes the new generation (07 R235, 10 R316). -/
def Machine.holdStream (m : Machine) (n gen : Nat) : Machine :=
  m.modStrm n fun r =>
    if r.state = .open_ ∨ r.state = .bound then { r with state := .held, heldFrom := r.state, gen := gen }
    else { r with gen := gen }

/-- FLOW_RESUME at a member (10 R316): slots free, LANDED and CREDIT 0, a new hello from the OUT end. -/
def Machine.resumeStream (m : Machine) (n gen : Nat) : Machine :=
  let r := m.strmAt n
  if r.state = .held ∧ r.gen = gen then
    let r := { r with state := r.heldFrom, landed := 0, freed := 0, peerSeen := false, anchorSeq := 0, anchorSlot := 0,
                      firstSeq := 0, credit := if r.kind = kindIn then r.depth else 0 }
    let m := m.setStrm n r
    if r.kind = kindOut then m.sendHello n else m
  else m

/-- Answer a stream operation (10 R308). -/
def Machine.stDone (m : Machine) (c status : Nat) : Machine :=
  (m.modCtx c fun r => { r with st := { r.st with status := status, done := true, busy := false } }).ctxInterrupt c 2

/-- Whether a value is a legal ring size: 0 or a power of two from 16 to 4,096 (10 Table 10.5). -/
def ringSizeOk (n : Nat) : Bool := n == 0 || [16, 32, 64, 128, 256, 512, 1024, 2048, 4096].contains n

/-- Whether a 16-bit value is a node ID of this pod (01 R28). -/
def Machine.podNode (m : Machine) (n : NodeId) : Bool :=
  let (lx, ly, _) := m.dims
  !(bitAt n 15) && nodePod n == nodePod m.node && decide (nodeX n < lx) && decide (nodeY n < ly)

/-- OPEN's argument check (10 Table 10.7, BAD_ARG). -/
def Machine.openArgs (m : Machine) (a : Table Word) : Bool :=
  let kind := bits (tget 0 a 0) 0 3
  let peer : NodeId := BitVec.ofNat 16 (bits (tget 0 a 0) 16 16)
  let len := (tget 0 a 3).toNat
  let ring := bits (tget 0 a 4) 0 13
  if kind = kindOut ∨ kind = kindIn then !m.pins.form && m.podNode peer
  else if kind = kindColl then peer == 0xFFFF
  else if kind = kindMsg then
    peer == 0xFFFF && decide (len % 256 = 0) && decide ((tget 0 a 1).toNat % 256 = 0) && ringSizeOk ring &&
      decide (ring * 512 ≤ len)
  else false

end Sys2Proof.Machine
end

