-- ==== Sys2Proof/Machine/Collectives.lean ====
section
/-!
DEFINITION. The collective units: chunks, rounds, reduction, and how an operation advances at this member (07 R227–R230;
09 R278; 10 R314).
-/
namespace Sys2Proof.Machine

/-- Collective slot s. -/
def Machine.collAt (m : Machine) (s : Nat) : Option CollRec := tget none m.coll s
/-- Write collective slot s. -/
def Machine.setColl (m : Machine) (s : Nat) (r : Option CollRec) : Machine := { m with coll := tset none m.coll s r }
/-- The slot that serves a stream. -/
def Machine.collOf (m : Machine) (n : Nat) : Option (Nat × CollRec) :=
  m.coll.findSome? fun e => match e.2 with
    | some r => if r.stream = n then some (e.1, r) else none
    | none => none

/-- A sum, maximum or minimum of two FP32 lanes. -/
def reduceFp32 (red : Nat) (a b : Word) : Word :=
  if red = 1 then (minmaxFp32 false a b).1 else if red = 2 then (minmaxFp32 true a b).1 else (addFp32 a b).1

/-- A sum, maximum or minimum of two INT32 lanes, the sum with wraparound (07 R230). -/
def reduceInt (red : Nat) (a b : Word) : Word :=
  if red = 1 then (if a.slt b then b else a) else if red = 2 then (if b.slt a then b else a) else a + b

/-- Combine two elements of a format (07 R230): in FP32, rounded back to nearest even, or in INT32. -/
def reduceElem (f : Format) (red a b : Nat) : Nat :=
  match f.float? with
  | some t =>
    let x := numLane (t.decode a)
    let y := numLane (t.decode b)
    (t.narrow .nearest false (laneNum (reduceFp32 red x y))).1
  | none => (reduceInt red (BitVec.ofNat 32 a) (BitVec.ofNat 32 b)).toNat

/-- Combine two runs of elements byte for byte of their format; bytes beyond the shorter run stay. -/
def reduceBytes (f : Format) (red : Nat) (own got : List Byte) : List Byte :=
  let w := f.bytes 1
  let n := min own.length got.length / max 1 w
  ((List.range n).flatMap fun i => leBytes w (reduceElem f red (leAt own (w * i) w) (leAt got (w * i) w))) ++ own.drop (n * w)

/-- The chunk size of a ring of n members on `len` bytes (07 R228). -/
def chunkSize (len n : Nat) : Nat := ceilDiv len (256 * max 1 n) * 256
/-- Where chunk j begins. -/
def chunkLo (len n j : Nat) : Nat := min len (j * chunkSize len n)
/-- How many bytes chunk j has; 0 is an empty chunk (07 R229). -/
def chunkLen (len n j : Nat) : Nat := min len ((j + 1) * chunkSize len n) - chunkLo len n j

/-- How many rounds a ring operation takes (07 Table 7.5). -/
def ringRounds (op n : Nat) : Nat := if op = 1 then 2 * (n - 1) else n - 1

/-- Whether a round reduces; the others gather (07 R228). -/
def isReduceRound (op n r : Nat) : Bool := op == 2 || (op == 1 && decide (r < n - 1))

/-- The chunk that the member at position k sends in round r (07 R228). -/
def chunkToSend (op n k r : Nat) : Nat :=
  if isReduceRound op n r then (k + n * (r + 1) - r) % n
  else
    let a := if op = 1 then r - (n - 1) else r
    (k + 1 + n * (a + 1) - a) % n

/-- Bytes of a list replaced from an offset. -/
def spliceAt (l : List Byte) (o : Nat) (v : List Byte) : List Byte := l.take o ++ v ++ l.drop (o + v.length)

/-- Frames in SEQ order, from the earliest. -/
def bySeq (fs : List (Nat × Bool × List Byte)) : List (Nat × Bool × List Byte) :=
  match fs with
  | [] => []
  | f0 :: _ =>
    let key := fun (f : Nat × Bool × List Byte) => (f.1 + 32768 + 65536 - f0.1) % 65536
    fs.foldl (fun acc x =>
      (acc.takeWhile fun y => decide (key y ≤ key x)) ++ x :: (acc.dropWhile fun y => decide (key y ≤ key x))) []

/-- The bytes of the earliest message of `len` bytes among frames: those up to the first LAST, when they are all there; and
the SEQs it takes. -/
def messageOf (len : Nat) (fs : List (Nat × Bool × List Byte)) : Option (List Byte × List Nat) :=
  let o := bySeq fs
  let k := (o.findIdx fun f => f.2.1) + 1
  let msg := o.take k
  if k ≤ o.length ∧ (msg.flatMap (·.2.2)).length = len then some (msg.flatMap (·.2.2), msg.map (·.1)) else none

/-- Send bytes to a member as COLL frames of at most 256 bytes, the last with LAST; no bytes make one frame of LEN 0
(07 R228, R229). Each frame is a piece of the slot's progress. -/
def Machine.sendColl (m : Machine) (s : Nat) (r : CollRec) (dst : NodeId) (round : Nat) (bs : List Byte) : Machine :=
  let tag := (m.ctxAt r.ctx).base.tag
  let rel := m.rel (((m.ctxAt r.ctx).xc.lastRelease).getD m.time.now)
  let k := max 1 (ceilDiv bs.length 256)
  (List.range k).foldl (fun m i =>
    let p := (bs.drop (256 * i)).take 256
    ((m.inject r.die 3 (i + 1 == k) dst tag r.stream rel (m.flowGen r.stream) (round % 256) p).meterLink r.ctx p.length).luffStep
      (172 + s)) m

/-- Whether an operation is of the ring kind. -/
def isRing (op : Nat) : Bool := decide (1 ≤ op) && decide (op ≤ 3)

/-- This member's position in a sense's order. -/
def Machine.posIn (m : Machine) (o : List NodeId) : Nat := o.findIdx fun x => x == m.node

/-- How deep a node lies in a tree of (member, parent) pairs. -/
def treeDepth (ps : List (NodeId × NodeId)) (n : NodeId) : Nat → Nat
  | 0 => 0
  | k + 1 => match ps.find? fun e => e.1 == n with
    | some e => treeDepth ps e.2 k + 1
    | none => 0

/-- One round of a sense's progress: send the next round when the one before it is held, or combine the round that has
arrived (07 R228). -/
def Machine.senseStep (m : Machine) (s : Nat) (r : CollRec) (i : Nat) : Machine × CollRec :=
  match r.senses[i]? with
  | none => (m, r)
  | some x =>
    let n := x.order.length
    let k := m.posIn x.order
    let rounds := ringRounds r.op n
    if x.sent < rounds ∧ x.sent ≤ x.held then
      let j := chunkToSend r.op n k x.sent
      let bs := (r.data.drop (x.lo + chunkLo x.len n j)).take (chunkLen x.len n j)
      let m := m.sendColl s r (x.order.getD ((k + 1) % n) 0) x.sent bs
      (m, { r with senses := r.senses.set i { x with sent := x.sent + 1 } })
    else if x.held < rounds then
      let j := chunkToSend r.op n ((k + n - 1) % n) x.held
      let fs := (x.frames.filter fun f => f.1 == x.held % 256).map (·.2)
      match messageOf (chunkLen x.len n j) fs with
      | none => (m, r)
      | some (bs, seqs) =>
        let o := x.lo + chunkLo x.len n j
        let own := (r.data.drop o).take bs.length
        let new := if isReduceRound r.op n x.held then reduceBytes ((formatOf r.fmt).getD .fp32) r.red own bs else bs
        (m, { r with
              data := spliceAt r.data o new
              senses := r.senses.set i
                { x with held := x.held + 1, frames := x.frames.filter fun f => !(seqs.contains f.2.1) } })
    else (m, r)

/-- The message of one member among a tree's or an exchange's frames. -/
def CollRec.msgFrom (r : CollRec) (src : NodeId) (len : Nat) : Option (List Byte × List Nat) :=
  messageOf len ((r.got.filter fun f => f.1 == src).map (·.2))

/-- The frames of a member's message removed. -/
def CollRec.dropMsg (r : CollRec) (src : NodeId) (seqs : List Nat) : CollRec :=
  { r with got := r.got.filter fun f => !(f.1 == src && seqs.contains f.2.1) }

/-- The tree rounds of an operation at this member's depth: upward and downward (07 Table 7.5). -/
def Machine.treeRounds (m : Machine) (r : CollRec) : Nat × Nat :=
  let ps := ((m.activeBank.prep.flows.find? fun e => e.stream == r.stream && e.tag == (m.ctxAt r.ctx).base.tag).map
    (·.parents)).getD []
  let deep := (r.members.map fun n => treeDepth ps n r.members.length).foldl max 0
  let own := treeDepth ps m.node r.members.length
  (deep - own, if r.op = 6 then deep + own else own)

/-- Progress of a tree or exchange operation, its operand complete: stage 1 once this member has sent upward or out; the flag
tells completion (07 R228–R230). -/
def Machine.treeStep (m : Machine) (s : Nat) (r : CollRec) : Machine × CollRec × Bool :=
  let len := if r.op = 6 then 0 else r.bytes
  let (up, down) := m.treeRounds r
  let toChildren := fun (m : Machine) (r : CollRec) => r.children.foldl (fun m c => m.sendColl s r c down r.data) m
  let others := r.members.filter (· != m.node)
  let q := ceilDiv r.bytes (max 1 others.length)
  match r.op with
  | 4 =>
    match r.parent with
    | none => (toChildren m r, r, true)
    | some p => match r.msgFrom p len with
      | none => (m, r, false)
      | some (bs, seqs) =>
        let r := { r.dropMsg p seqs with data := bs }
        (toChildren m r, r, true)
  | 7 =>
    let (m, r) :=
      if r.stage = 0 then
        ((others.zipIdx).foldl (fun m o => m.sendColl s r o.1 0 ((r.data.drop (o.2 * q)).take q)) m, { r with stage := 1 })
      else (m, r)
    let mine := fun (src : NodeId) => ((r.members.filter (· != src)).findIdx fun x => x == m.node)
    let lenFrom := fun (src : NodeId) => min q (r.bytes - mine src * q)
    if others.all fun o => (r.msgFrom o (lenFrom o)).isSome then
      let r := (others.zipIdx).foldl (fun r o => match r.msgFrom o.1 (lenFrom o.1) with
        | some (bs, seqs) => { r.dropMsg o.1 seqs with data := spliceAt r.data (o.2 * q) bs }
        | none => r) r
      (m, r, true)
    else (m, r, false)
  | _ =>
    let (m, r) :=
      if r.stage = 0 ∧ (r.children.all fun c => (r.msgFrom c len).isSome) = true then
        let r := r.children.foldl (fun r c => match r.msgFrom c len with
          | some (bs, seqs) =>
            { r.dropMsg c seqs with data := reduceBytes ((formatOf r.fmt).getD .fp32) r.red r.data bs }
          | none => r) r
        let m := match r.parent with
          | some p => m.sendColl s r p up r.data
          | none => m
        (m, { r with stage := 1 })
      else (m, r)
    if r.stage = 0 then (m, r, false)
    else if r.op = 5 then (m, r, true)
    else match r.parent with
      | none => (toChildren m r, r, true)
      | some p => match r.msgFrom p len with
        | none => (m, r, false)
        | some (_, seqs) => let r := r.dropMsg p seqs; (toChildren m r, r, true)

/-- Whether a ring operation is complete at this member. -/
def CollRec.ringDone (r : CollRec) : Bool :=
  r.senses.all fun x => decide (ringRounds r.op x.order.length ≤ x.sent) && decide (ringRounds r.op x.order.length ≤ x.held)

/-- The bytes that an operation runs on: a BARRIER's frames carry none, whatever its record says (07 Table 7.5). -/
def CollRec.operand (r : CollRec) : Nat := if r.op = 6 then 0 else r.bytes

/-- Whether an operation has this member alone (07 R229). -/
def CollRec.lone (r : CollRec) : Bool := decide (r.members.length ≤ 1)

/-- The COLL_IN channel of an operation, with the image that declares it. -/
def Machine.collIn (m : Machine) (r : CollRec) : Option (BoundImage × ChanRec) :=
  match (m.ctxAt r.ctx).xc.image with
  | some b => (b.img.chans.find? fun ch => ch.kind == 4 && ch.ref == r.index).map fun ch => (b, ch)
  | none => none

/-- The COLL_IN tokens of an operation: those that its bytes fill; a BARRIER, which has none, lands one. -/
def CollRec.inTokens (r : CollRec) (ch : ChanRec) : Nat := if r.op = 6 then 1 else ceilDiv r.bytes (max 1 ch.tokenBytes)

/-- Write what an operation holds to the slots of its COLL_IN channel. -/
def Machine.collLand (m : Machine) (r : CollRec) : Machine :=
  match m.collIn r with
  | none => m
  | some (b, ch) =>
    (List.range (ceilDiv r.data.length (max 1 ch.tokenBytes))).foldl (fun m j =>
      m.storeWrite (m.logical r.ctx b ch.dst) (ch.bufLine + j % max 1 ch.depth)
        ((r.data.drop (j * ch.tokenBytes)).take ch.tokenBytes)) m

/-- Complete an operation at this member: its COLL_IN tokens land in the consuming tile's slots (10 R314). -/
def Machine.collComplete (m : Machine) (s : Nat) (r : CollRec) : Machine :=
  (m.collLand r).setColl s (some { r with busy := false, landed := ((m.collIn r).map fun e => r.inTokens e.2).getD 0 })

/-- Advance an operation as far as it goes. -/
def Machine.collAdvance (m : Machine) (s : Nat) (r : CollRec) : Nat → Machine
  | 0 => m.setColl s (some r)
  | fuel + 1 =>
    if !r.busy then m.setColl s (some r)
    else if r.lone then m.collComplete s r
    else if r.supplied < r.operand then m.setColl s (some r)
    else if isRing r.op then
      if r.ringDone then m.collComplete s r
      else
        let (m', r') := (List.range r.senses.length).foldl (fun p i => p.1.senseStep s p.2 i) (m, r)
        if r' = r then m.setColl s (some r) else m'.collAdvance s r' fuel
    else
      let (m, r, fin) := m.treeStep s r
      if fin then m.collComplete s r else m.setColl s (some r)

/-- The fuel that any operation's rounds at one member fit in. -/
def collFuel (r : CollRec) : Nat := 4 * r.members.length + 4

/-- A slot with the members, orders and tree that the active epoch gives its stream (05 R158, 07 R227); frames that have
arrived stay with their sense. -/
def Machine.collOrder (m : Machine) (r : CollRec) : CollRec :=
  let tag := (m.ctxAt r.ctx).base.tag
  let e := (m.activeBank.prep.flows.find? fun e => e.tag == tag && e.stream == r.stream).getD
    { tag := tag, stream := r.stream, pattern := 0, plane := 0, ring := [], parents := [], members := [m.node] }
  let half := min r.bytes (ceilDiv (ceilDiv r.bytes 2) 256 * 256)
  let senses := if e.pattern = 3 then [(e.ring, 0, half), (e.ring.reverse, half, r.bytes - half)] else [(e.ring, 0, r.bytes)]
  { r with
    die := e.plane
    members := if isRing r.op then e.ring else e.members
    senses := (senses.zipIdx).map fun p =>
      { order := p.1.1, lo := p.1.2.1, len := p.1.2.2, sent := 0, held := 0,
        frames := ((r.senses[p.2]?).map (·.frames)).getD [] }
    parent := (e.parents.find? fun p => p.1 == m.node).map (·.2)
    children := (e.members.filter fun n => e.parents.contains (n, m.node)) }

/-- Begin an operation at this member as a step that carries it is armed, or as its first frame arrives at a member that
only receives (10 R314). -/
def Machine.collStart (m : Machine) (s : Nat) (r : CollRec) : Machine :=
  let r := { m.collOrder r with busy := true, data := [], supplied := 0, landed := 0, stage := 0 }
  m.collAdvance s r (collFuel r)

/-- A COLL_OUT token supplies the next bytes of the operand (09 R276, 10 R314). An operation with one member has completed already, its operand left as
it is: the bytes stand in the COLL_IN slots as they come (07 R229). -/
def Machine.collSupply (m : Machine) (s : Nat) (bs : List Byte) : Machine :=
  match m.collAt s with
  | none => m
  | some r =>
    let bs := bs.take (r.operand - r.supplied)
    let r := { r with data := r.data ++ bs, supplied := r.supplied + bs.length }
    if r.lone then (m.collLand r).setColl s (some r) else m.collAdvance s r (collFuel r)

/-- Begin the operation of a member that only receives (10 R314). -/
def Machine.collBegin (m : Machine) (s : Nat) (r : CollRec) : Machine :=
  let r := { m.collOrder r with busy := true, data := [], supplied := r.bytes, landed := 0, stage := 0 }
  m.collAdvance s r (collFuel r)

/-- Whether a slot waits to begin what it only receives: a BROADCAST that is idle with frames at hand, its earlier tokens freed. -/
def CollRec.toBegin (r : CollRec) : Bool := !r.busy && r.op == 4 && r.landed == 0 && !r.got.isEmpty

/-- The first sense whose predecessor sent a frame and whose round it can belong to. -/
def Machine.senseOf (m : Machine) (r : CollRec) (src : NodeId) (round : Nat) : Option Nat :=
  (List.range r.senses.length).find? fun i => match r.senses[i]? with
    | none => false
    | some x =>
      let n := x.order.length
      let k := m.posIn x.order
      let j := chunkToSend r.op n ((k + n - 1) % max 1 n) round
      x.order.getD ((k + n - 1) % max 1 n) 0 == src &&
        (messageOf (chunkLen x.len n j) ((x.frames.filter fun f => f.1 == round).map (·.2))).isNone

/-- Take a COLL frame: keep it with its round, and advance (07 R228). A frame begins the operation at a member that only receives, once the tokens of its
last one are freed. -/
def Machine.collFrame (m : Machine) (f : Frame) : Machine :=
  if !(m.boundFor f kindColl) then m.staleDrop (frStream f)
  else match m.collOf (frStream f) with
    | none => m.staleDrop (frStream f)
    | some (s, r0) =>
      let m := m.luffStep (172 + s)
      let r := r0
      let r :=
        if isRing r.op then
          match m.senseOf r (frSrc f) (frOpx f) with
          | some i => match r.senses[i]? with
            | some x => { r with senses := r.senses.set i { x with frames := x.frames ++ [(frOpx f, frSeq f, frLast f, f.payload)] } }
            | none => r
          | none => r
        else { r with got := r.got ++ [(frSrc f, frSeq f, frLast f, f.payload)] }
      if r.toBegin then m.collBegin s r else m.collAdvance s r (collFuel r)

/-- Free k of a collective's landed COLL_IN tokens (10 R314); frames that have waited for it begin the next operation of a member that only receives. -/
def Machine.collFree (m : Machine) (s k : Nat) : Machine :=
  match m.collAt s with
  | some r =>
    let r := { r with landed := r.landed - k }
    if r.toBegin then m.collBegin s r else m.setColl s (some r)
  | none => m

/-- Abort the operation of a stream at this member (07 R235). -/
def Machine.collAbort (m : Machine) (n : Nat) : Machine :=
  match m.collOf n with
  | some (s, r) =>
    m.setColl s (some { r with busy := false, supplied := 0, data := [], got := [], landed := 0, stage := 0
                               senses := r.senses.map fun x => { x with sent := 0, held := 0, frames := [] } })
  | none => m

/-- Whether the armed or running step of a context counts tokens on an OUT or IN stream. -/
def Machine.runUses (m : Machine) (c n : Nat) : Bool :=
  match (m.ctxAt c).xc.image, (m.ctxAt c).xc.run with
  | some b, some r => (((b.img.steps[r.step]?).map (·.counts)).getD []).any fun p => p.2 != 0 && match b.chan? p.1 with
    | some ch => (ch.kind == 1 || ch.kind == 2) && b.streamBase + ch.ref == n
    | none => false
  | _, _ => false

/-- Whether a stream has an operation in progress: a collective that runs, or an OUT or IN stream that the armed or running step uses or whose tokens
have landed (07 R234). DEDUCED (log 48). -/
def Machine.flowBusy (m : Machine) (n : Nat) : Bool :=
  let r := m.strmAt n
  r.state == .bound &&
    ((r.kind == kindColl && ((m.collOf n).any fun e => e.2.busy)) || ((r.kind == kindOut || r.kind == kindIn) && m.runUses r.ctx n) ||
      (r.kind == kindIn && decide (0 < r.landed)))

/-- The planned streams of a context with an operation in progress. -/
def Machine.busyFlows (m : Machine) (c : Nat) : List Nat := (m.streamsOf c).filter m.flowBusy

/-- Report streams of a context to the master for abort. -/
def Machine.reportEach (m : Machine) (c : Nat) (l : List Nat) : Machine :=
  l.foldl (fun m n => m.reportFlow ((m.ctxAt c).base.tag) n (m.flowGen n)) m

/-- Report every planned stream of a context with an operation in progress to the master for abort (07 R234, 09 R287). -/
def Machine.reportFlows (m : Machine) (c : Nat) : Machine := m.reportEach c (m.busyFlows c)

end Sys2Proof.Machine
end

