-- ==== Sys2Proof/Machine/Operands.lean ====
section
/-!
DEFINITION. The tile instruction word and its fields, and which words a BIND accepts (09 R279, Tables 9.7 and 9.8; 08
R244, R260).
-/
namespace Sys2Proof.Machine

/-- A tile instruction word's fields (09 Table 9.7). -/
structure TWord where
  op : Nat
  fa : Nat
  fb : Nat
  rm : Nat
  sat : Bool
  zero : Bool
  acc : Nat
  l1 : Nat
  l2 : Nat
  l3 : Nat
  n : Nat
  ch : Nat
  x : Nat
  deriving DecidableEq, Repr

/-- The fields of a 128-bit word (09 Table 9.7). -/
def tword (w : Nat) : TWord :=
  { op := nbits w 0 8, fa := nbits w 8 4, fb := nbits w 12 4, rm := nbits w 16 2, sat := nbits w 18 1 == 1,
    zero := nbits w 19 1 == 1, acc := nbits w 20 2, l1 := nbits w 24 14, l2 := nbits w 38 14, l3 := nbits w 52 14,
    n := nbits w 66 16, ch := nbits w 82 10, x := nbits w 92 36 }

/-- VD: X [95:92] (09 Table 9.8). -/
def TWord.vd (w : TWord) : Nat := w.x % 16
/-- VA: X [99:96]. -/
def TWord.va (w : TWord) : Nat := w.x / 16 % 16
/-- VB: X [103:100]. -/
def TWord.vb (w : TWord) : Nat := w.x / 256 % 16
/-- VC: X [107:104]. -/
def TWord.vc (w : TWord) : Nat := w.x / 4096 % 16
/-- FUNC: X [115:108]. -/
def TWord.func (w : TWord) : Nat := w.x / 65536 % 256
/-- STRIDE: L2 and L3. -/
def TWord.stride (w : TWord) : Nat := w.l2 + w.l3 * 16384
/-- The body words of a LOOP: X [107:92]. -/
def TWord.body (w : TWord) : Nat := w.x % 65536
/-- The mask of a WAIT: X [93:92]. -/
def TWord.mask (w : TWord) : Nat := w.x % 4

/-- The bits that a class uses, as (lowest bit, width) fields beside OP (09 Table 9.8). -/
def usedFields : Nat → List (Nat × Nat)
  | 0x01 => [(8, 4), (12, 4), (19, 1), (20, 2), (24, 14), (38, 14)]
  | 0x02 => [(12, 4), (16, 2), (18, 1), (20, 2), (24, 14)]
  | 0x03 => [(92, 24)]
  | 0x04 => [(8, 4), (12, 4), (16, 2), (18, 1), (92, 8)]
  | 0x05 => [(8, 4), (24, 14), (92, 4)]
  | 0x06 => [(12, 4), (16, 2), (18, 1), (24, 14), (96, 4)]
  | 0x07 | 0x08 => [(24, 14), (38, 14), (52, 14), (66, 16), (92, 36)]
  | 0x09 => [(24, 14), (66, 16), (82, 10)]
  | 0x0A => [(66, 16), (82, 10)]
  | 0x0B => [(92, 2)]
  | 0x0C => [(66, 16), (92, 16)]
  | _ => []

/-- Whether every bit outside OP and the class's fields is zero (09 R279). -/
def unusedZero (w : Nat) : Bool :=
  decide (w % 2 ^ 128 = ((0, 8) :: usedFields (nbits w 0 8)).foldl (fun a f => a + nbits w f.1 f.2 * 2 ^ f.1) 0)

/-- Whether a pair of operand formats is one of Table 8.2's (08 R244). -/
def pairOk (a b : Nat) : Bool :=
  [(0, 0), (1, 1), (2, 2), (3, 3), (3, 4), (4, 3), (4, 4), (5, 5), (6, 6), (7, 7)].contains (a, b)

/-- Whether a narrowing's rounding mode is accepted: not 0b11, and not stochastic into an integer or NB4 (08 R260). -/
def rmOk (fb rm : Nat) : Bool := rm != 3 && (rm != 2 || decide (fb ≤ 4))

/-- Whether a word is an instruction that BIND accepts, on its own (09 Table 9.10, code 0x08). -/
def wordOk (w : Nat) : Bool :=
  let t := tword w
  let fmt := fun c => decide (c ≤ 8)
  unusedZero w &&
    match t.op with
    | 0x01 => pairOk t.fa t.fb
    | 0x02 => fmt t.fb && rmOk t.fb t.rm
    | 0x03 => funcOk t.func
    | 0x04 => fmt t.fa && fmt t.fb && rmOk t.fb t.rm
    | 0x05 => fmt t.fa
    | 0x06 => fmt t.fb && rmOk t.fb t.rm
    | 0x0C => decide (1 ≤ t.n)
    | o => decide (1 ≤ o) && decide (o ≤ 0x0D)

/-- Code as 16-byte words. -/
def codeWords (l : List Byte) : List Nat := (List.range (l.length / 16)).map fun i => leAt l (16 * i) 16

/-- How many LOOP bodies hold word `i` of a code. -/
def loopDepth (ws : List Nat) (i : Nat) : Nat :=
  ((ws.zipIdx).filter fun p =>
    (tword p.1).op == 0x0C && decide (p.2 < i) && decide (i ≤ p.2 + (tword p.1).body)).length

/-- Whether a tile's code is accepted: every word, and LOOP nesting of at most 4 (09 Table 9.10, code 0x08). -/
def codeOk (ws : List Nat) : Bool :=
  ws.all wordOk &&
    (ws.zipIdx).all fun p => (tword p.1).op != 0x0C || decide (loopDepth ws p.2 < 4)

end Sys2Proof.Machine
end

