-- ==== Sys2Proof/Machine/Image.lean ====
section
/-!
DEFINITION. Reading a schedule image and the checks of BIND (09 R274–R282, R309).
-/
namespace Sys2Proof.Machine

/-! ### Header and directory -/

/-- Whether an image's header is as R274 requires (09 Table 9.1). -/
def headerOk (l : List Byte) : Bool :=
  let f := leAt l
  f 0x00 4 == 0x4D495345 && f 0x04 2 == 1 && f 0x06 2 == 0x80 && decide (128 ≤ f 0x08 4) &&
  decide (3 ≤ f 0x0C 2) && decide (f 0x0C 2 ≤ 8) && decide (f 0x0E 2 < 2) && [8, 16, 32, 64, 128].contains (f 0x10 2) &&
  decide (1 ≤ f 0x12 2) && decide (f 0x12 2 ≤ f 0x10 2) && decide (1 ≤ f 0x16 2) && decide (f 0x16 2 ≤ 4096) &&
  decide (f 0x18 2 ≤ 1024) && decide (f 0x1A 2 ≤ 4095) && decide (f 0x1C 2 ≤ 256) && decide (1 ≤ f 0x1E 1) &&
  decide (f 0x1E 1 ≤ 64) && decide (f 0x1F 1 ≤ 64) && decide (f 0x20 1 ≤ 64) && f 0x21 1 == 95 && f 0x22 2 == 700 &&
  decide (f 0x28 8 % 256 = 0) && zeroAt l 0x40 60 && f 0x7C 4 == (crc32 (l.take 124 ++ [0, 0, 0, 0])).toNat

/-- A directory entry (09 R275). -/
structure Section_ where
  type : Nat
  reserved : Nat
  off : Nat
  len : Nat
  crc : Nat
  deriving DecidableEq, Repr

/-- The directory of an image with `n` sections. -/
def directory (l : List Byte) (n : Nat) : List Section_ :=
  (List.range n).map fun i =>
    let o := 128 + 16 * i
    { type := leAt l o 2, reserved := leAt l (o + 2) 2, off := leAt l (o + 4) 4, len := leAt l (o + 8) 4,
      crc := leAt l (o + 12) 4 }

/-- A section's bytes. -/
def Section_.bytes (s : Section_) (l : List Byte) : List Byte := (l.drop s.off).take s.len

/-- Whether two sections overlap. -/
def Section_.overlaps (a b : Section_) : Bool := decide (a.off < b.off + b.len) && decide (b.off < a.off + a.len)

/-- Whether every pair of a list meets a relation, the earlier first. -/
def pairwise {α : Type} (r : α → α → Bool) : List α → Bool
  | [] => true
  | a :: t => t.all (r a) && pairwise r t

/-- Whether an image's directory is as R275 requires. -/
def directoryOk (l : List Byte) (total : Nat) (ds : List Section_) : Bool :=
  (ds.all fun s => decide (1 ≤ s.type) && decide (s.type ≤ 8) && s.reserved == 0 && decide (s.off % 16 = 0) &&
    decide (128 + 16 * ds.length ≤ s.off) && decide (s.off + s.len ≤ total) && s.crc == (crc32 (s.bytes l)).toNat) &&
  pairwise (fun a b => decide (a.type < b.type) && !(a.overlaps b)) ds

/-! ### Records -/

/-- Tile records, with their code from the CODE section: TILE ascending from 0 (09 Table 9.3). The flag tells whether every word of CODE is one
that BIND accepts and every code range lies in CODE. -/
def readTiles (l code : List Byte) (n : Nat) : Option (List ImgTile × Bool) :=
  let rec_ := fun i => (l.drop (16 * i)).take 16
  let ok := (List.range n).all fun i =>
    let r := rec_ i
    leAt r 0 2 == i && decide (leAt r 4 4 % 16 = 0) && decide (1 ≤ leAt r 8 4) && leAt r 12 4 == 0 &&
      decide (leAt r 2 2 * 256 + 16 * leAt r 8 4 ≤ storeBytes)
  if ok ∧ l.length = 16 * n then
    some ((List.range n).map fun i =>
        { codeLine := leAt (rec_ i) 2 2, code := (code.drop (leAt (rec_ i) 4 4)).take (16 * leAt (rec_ i) 8 4) },
      (codeWords code).all wordOk && (List.range n).all fun i => decide (leAt (rec_ i) 4 4 + 16 * leAt (rec_ i) 8 4 ≤ code.length))
  else none

/-- Channel records: CH ascending from 0, a kind of Table 9.4, TOKEN_BYTES 1–256 (09 R276). -/
def readChans (l : List Byte) (n : Nat) : Option (List ChanRec) :=
  let rec_ := fun i => (l.drop (16 * i)).take 16
  let ok := (List.range n).all fun i =>
    let r := rec_ i
    leAt r 0 2 == i && decide (leAt r 2 1 ≤ 4) && leAt r 3 1 == 0 && decide (1 ≤ leAt r 8 2) && decide (leAt r 8 2 ≤ 256) &&
      decide (leAt r 10 2 ≤ 4096)
  if ok ∧ l.length = 16 * n then
    some ((List.range n).map fun i =>
      let r := rec_ i
      { kind := leAt r 2 1, src := leAt r 4 2, dst := leAt r 6 2, tokenBytes := leAt r 8 2, depth := leAt r 10 2,
        bufLine := leAt r 12 2, ref := leAt r 14 2 })
  else none

/-- One step program at the head of a list, STEP i, and what follows it (09 R277). -/
def readStep (l : List Byte) (i tiles chans : Nat) (words : List Nat) : Option (StepProg × List Byte) :=
  let nch := leAt l 8 2
  let counts := (List.range nch).map fun k => (leAt l (16 + 4 * k) 2, leAt l (18 + 4 * k) 2)
  let o := 16 + 4 * nch
  let starts := (List.range tiles).map fun t => leAt l (o + 4 * t) 4
  let len := ceilDiv (o + 4 * tiles) 16 * 16
  if leAt l 0 2 = i ∧ leAt l 2 2 = 0 ∧ leAt l 12 4 = 0 ∧ len ≤ l.length ∧ zeroAt l (o + 4 * tiles) (len - (o + 4 * tiles)) ∧
      (counts.all fun c => decide (c.1 < chans) && decide (1 ≤ c.2)) = true ∧
      pairwise (fun a b => decide (a.1 < b.1)) counts = true ∧
      ((starts.zip words).all fun p => p.1 == 0xFFFFFFFF || decide (p.1 < p.2)) = true then
    some ({ durNs := leAt l 4 4, stepW := leAt l 10 2, counts := counts,
            starts := starts.map fun v => if v = 0xFFFFFFFF then none else some v }, l.drop len)
  else none

/-- `n` step programs from STEP i on, taking the whole section. -/
def readSteps (tiles chans : Nat) (words : List Nat) : Nat → Nat → List Byte → Option (List StepProg)
  | 0, _, l => if l.isEmpty then some [] else none
  | n + 1, i, l => match readStep l i tiles chans words with
    | none => none
    | some (s, rest) => (readSteps tiles chans words n (i + 1) rest).map (s :: ·)

/-- CONST records to the section's end (09 R275); `n` bounds how many it can hold. -/
def readConsts (tiles : Nat) : Nat → List Byte → Option (List ConstRec)
  | 0, l => if l.isEmpty then some [] else none
  | n + 1, l =>
    if l.isEmpty then some []
    else
      let len := leAt l 4 4
      if leAt l 0 2 < tiles ∧ len % 256 = 0 ∧ zeroAt l 8 8 ∧ 16 + len ≤ l.length ∧ leAt l 2 2 * 256 + len ≤ storeBytes then
        (readConsts tiles n (l.drop (16 + len))).map
          ({ tile := leAt l 0 2, line := leAt l 2 2, data := (l.drop 16).take len } :: ·)
      else none

/-- Whether a collective operation reduces (07 Table 7.5, 09 R278). -/
def isReducing (op : Nat) : Bool := op == 1 || op == 2 || op == 5

/-- Collective records (09 R278). -/
def readColls (l : List Byte) (n streams : Nat) : Option (List CollDecl) :=
  let rec_ := fun i => (l.drop (16 * i)).take 16
  let ok := (List.range n).all fun i =>
    let r := rec_ i
    let b := leAt r 3 1
    leAt r 0 2 == i && decide (1 ≤ leAt r 2 1) && decide (leAt r 2 1 ≤ 7) && decide (leAt r 8 2 < streams) && leAt r 12 4 == 0 &&
      (if isReducing (leAt r 2 1) then [0, 1, 2, 3, 4, 8].contains (b % 16) && decide (b / 16 < 3) else b == 0)
  if ok ∧ l.length = 16 * n then
    some ((List.range n).map fun i =>
      let r := rec_ i
      { op := leAt r 2 1, fmt := leAt r 3 1 % 16, red := leAt r 3 1 / 16 % 4, bytes := leAt r 4 4, stream := leAt r 8 2,
        demand := leAt r 10 2 })
  else none

/-- An image's sections and records read (09 R274–R278); `none` when malformed. The flag tells whether every word of CODE is accepted and every
code range lies in CODE. -/
def readImage (addr : Nat) (l : List Byte) : Option (Image × Bool) :=
  if !headerOk l then none
  else
    let f := leAt l
    let ds := directory l (f 0x0C 2)
    let sec := fun t => ds.find? fun s => s.type == t
    let bytes := fun t => ((sec t).map (·.bytes l)).getD []
    let need := [1, 2, 4] ++ (if f 0x18 2 = 0 then [] else [3]) ++ (if f 0x1C 2 = 0 then [] else [6])
    if !(directoryOk l (f 0x08 4) ds) || !(need.all fun t => (sec t).isSome) || (bytes 2).length % 16 != 0 then none
    else do
      let (tiles, inCode) ← readTiles (bytes 1) (bytes 2) (f 0x12 2)
      let chans ← readChans (bytes 3) (f 0x18 2)
      let steps ← readSteps (f 0x12 2) (f 0x18 2) (tiles.map fun t => t.code.length / 16) (f 0x16 2) 0 (bytes 4)
      let consts ← readConsts (f 0x12 2) ((bytes 5).length / 16) (bytes 5)
      let colls ← readColls (bytes 6) (f 0x1C 2) (f 0x1A 2)
      some ({ addr := addr, totalLen := f 0x08 4, partTiles := f 0x10 2, tiles := f 0x12 2, tileBase := f 0x14 2,
              streams := f 0x1A 2, hbmLim := f 0x1E 1, xdieLim := f 0x1F 1, fabLim := f 0x20 1, srSeed := f 0x24 4,
              hbmLen := f 0x28 8, maxDurNs := f 0x30 4, recs := tiles, chans := chans, steps := steps, consts := consts,
              colls := colls }, inCode)

/-! ### The checks of BIND (09 Table 9.10) -/

/-- Whether a channel record agrees with its kind, its buffer within the store (09 Table 9.4; code 0x09). -/
def chanOk (img : Image) (c : ChanRec) : Bool :=
  let src := decide (c.src < img.tiles)
  let dst := decide (c.dst < img.tiles)
  let buffered := decide (1 ≤ c.depth) && decide (c.bufLine + c.depth ≤ 12288)
  match c.kind with
  | 0 => src && dst && buffered && c.ref == 0xFFFF
  | 1 => src && c.dst == 0xFFFF && c.depth == 0 && decide (c.ref < img.streams)
  | 2 => c.src == 0xFFFF && dst && buffered && decide (c.ref < img.streams)
  | 3 => src && c.dst == 0xFFFF && c.depth == 0 && decide (c.ref < img.colls.length)
  | _ => c.src == 0xFFFF && dst && buffered && decide (c.ref < img.colls.length)

/-- Whether a channel has a buffer at a consuming tile. -/
def ChanRec.inbound (c : ChanRec) : Bool := c.kind == 0 || c.kind == 2 || c.kind == 4

/-- The line ranges that a tile's code, buffers and CONST records take: first line and count. -/
def tileRanges (img : Image) (t : Nat) : List (Nat × Nat) :=
  ((img.recs[t]?).map fun r => (r.codeLine, ceilDiv r.code.length 256)).toList ++
  ((img.chans.filter fun c => c.inbound && c.dst == t).map fun c => (c.bufLine, c.depth)) ++
  ((img.consts.filter fun k => k.tile == t).map fun k => (k.line, k.data.length / 256))

/-- Whether an image's channels pass (09 Table 9.10, code 0x09; 10 R309). -/
def chansOk (img : Image) : Bool :=
  img.chans.all (chanOk img) &&
  ((List.range img.tiles).all fun t =>
    pairwise (fun a b => decide (a.1 + a.2 ≤ b.1) || decide (b.1 + b.2 ≤ a.1)) (tileRanges img t)) &&
  img.steps.all fun s => s.counts.all fun p => match img.chans[p.1]? with
    | some c => !(c.kind == 2 || c.kind == 4) || decide (p.2 ≤ c.depth)
    | none => false

/-- The image streams that channel and collective records name, with the kind that each must have (10 R309). -/
def namedStreams (img : Image) : List (Nat × Nat) :=
  (img.chans.filterMap fun c =>
    if c.kind = 1 then some (c.ref, kindOut) else if c.kind = 2 then some (c.ref, kindIn) else none) ++
  img.colls.map fun k => (k.stream, kindColl)

/-- Whether every stream ID that an image's streams map to lies in partition i's range (09 R281, code 0x0A). -/
def Machine.streamsIn (m : Machine) (i base n : Nat) : Bool := n == 0 || (m.streamIn i base && m.streamIn i (base + n - 1))

/-- The tiles that a bound image of a context holds. -/
def Machine.imageTiles (m : Machine) (c : Nat) : List Nat :=
  match (m.ctxAt c).xc.image with
  | some b => (List.range b.img.tiles).map (m.logical c b)
  | none => []

/-- Whether every image tile may be bound or restarted at a base (09 Table 9.10, code 0x07). -/
def Machine.tilesOk (m : Machine) (c : Nat) (img : Image) (base : Nat) : Bool :=
  let held := ((tkeys m.ctx).filter (· != c)).flatMap m.imageTiles
  (List.range img.tiles).all fun t =>
    let l := m.shareStart m.tileCount (m.ctxPart c) + base + t
    decide (base + t < img.partTiles) && (base + t) / 32 == (img.tileBase + t) / 32 && !(held.contains l) && (m.mapAt l).valid

/-- A sum over the partition's bound images and a new one. -/
def Machine.partSum (m : Machine) (i : Nat) (img : Image) (f : Image → Nat) : Nat :=
  ((tkeys m.ctx).filter fun c => m.ctxPart c == i).foldl (fun a c => match (m.ctxAt c).xc.image with
    | some b => a + f b.img
    | none => a) (f img)

/-- The free collective slots of partition i, by number (07 R227). -/
def Machine.freeSlotsOf (m : Machine) (i : Nat) : List Nat :=
  ((List.range (m.shareStart 256 (i + 1) - m.shareStart 256 i)).map (· + m.shareStart 256 i)).filter fun s =>
    (m.collAt s).isNone && !(m.collFailed.contains s)

/-- Whether the allowances of R280 and the collective slots suffice (09 Table 9.9, code 0x0C). -/
def Machine.allowanceOk (m : Machine) (c : Nat) (img : Image) : Bool :=
  let i := m.ctxPart c
  let d := (m.partDies i).length
  decide (m.partSum i img (fun x => x.tiles * x.hbmLim) ≤ 1024 * m.hbm.s / m.parts) &&
  decide (m.partSum i img (fun x => x.tiles * x.xdieLim) ≤ if 2 ≤ d then 256 * d else 0) &&
  decide (m.partSum i img (fun x => x.tiles * x.fabLim) ≤ 256 * m.cdieCount / m.parts) &&
  decide (img.colls.length ≤ (m.freeSlotsOf i).length)

/-- The status of a BIND (09 Table 9.10), and the image it binds when it is OK: the checks in order. -/
def Machine.bindCheck (m : Machine) (c : Nat) : Nat × Option BoundImage :=
  let r := m.ctxAt c
  let x := r.xc
  let i := m.ctxPart c
  let addr := x.img.toNat
  let total := leAt (m.hbmRead addr 16) 8 4
  if r.base.life ≠ .live ∨ m.fenced c ∨ (m.partAt i).state ≠ .bound then (0x03, none)
  else if x.image.isSome ∨ x.state ≠ .unbound then (0x04, none)
  else if !(m.ownsRange c addr 128) || !(m.ownsRange c addr total) then (0x05, none)
  else match readImage addr (m.hbmRead addr total) with
    | none => (0x05, none)
    | some (img, inCode) =>
      let base := if x.useBase then x.tileBase else img.tileBase
      let strm := fun j => x.streamBase + j
      if img.partTiles * m.parts ≠ m.tileCount then (0x06, none)
      else if !(m.tilesOk c img base) then (0x07, none)
      else if !inCode || !(img.recs.all fun t => codeOk (codeWords t.code)) then (0x08, none)
      else if !(chansOk img) then (0x09, none)
      else if !(m.streamsIn i x.streamBase img.streams) || !((namedStreams img).all fun p =>
          let s := m.strmAt (strm p.1)
          s.state == .open_ && s.ctx == c && s.kind == p.2) then (0x0A, none)
      else if !(m.ownsRange c x.hbm.toNat img.hbmLen) then (0x0B, none)
      else if !(m.allowanceOk c img) || (m.pins.form && !img.colls.isEmpty) then (0x0C, none)
      else (0x00, some { img := img, base := base, streamBase := x.streamBase, hbmBase := x.hbm.toNat })

end Sys2Proof.Machine
end

