-- ==== Sys2Proof/Machine/Tack.lean ====
section
/-!
DEFINITION. The Tack Planner's search: blocks, lattice primitives, routed paths, checkers, reservation, sampling, the ramp
ledger, time-scaling, scores (05 R140–R173; 06 R175, R176, R189, R190).
-/
namespace Sys2Proof.Machine

/-! ### Blocks (06 R175, R176) -/

/-- A candidate block: origin, extents, and the torus it lies on. -/
structure Block where
  org : Nat × Nat × Nat
  ext : Nat × Nat × Nat
  dm : Nat × Nat × Nat
  pod : Nat
  deriving DecidableEq, Repr

/-- The axis `a` of a triple: 0 x, 1 y, else z. -/
def axisOf (t : Nat × Nat × Nat) (a : Nat) : Nat := if a = 0 then t.1 else if a = 1 then t.2.1 else t.2.2

/-- A triple with one axis replaced. -/
def setAxis (t : Nat × Nat × Nat) (a v : Nat) : Nat × Nat × Nat :=
  if a = 0 then (v, t.2.1, t.2.2) else if a = 1 then (t.1, v, t.2.2) else (t.1, t.2.1, v)

/-- The member at a block position (06 R175). -/
def Block.node (b : Block) (p : Nat × Nat × Nat) : NodeId :=
  nodeAt b.pod ((b.org.1 + p.1) % b.dm.1) ((b.org.2.1 + p.2.1) % b.dm.2.1) ((b.org.2.2 + p.2.2) % b.dm.2.2)

/-- Every block position, in ascending x, then y, then z. -/
def Block.positions (b : Block) : List (Nat × Nat × Nat) :=
  (List.range b.ext.1).flatMap fun i => (List.range b.ext.2.1).flatMap fun j =>
    (List.range b.ext.2.2).map fun k => (i, j, k)

/-- Every member. -/
def Block.members (b : Block) : List NodeId := b.positions.map b.node

/-- Insert in ascending order of a key. -/
def insertBy {α : Type} (key : α → Nat) (x : α) : List α → List α
  | [] => [x]
  | y :: t => if key x < key y then x :: y :: t else y :: insertBy key x t

/-- A list in ascending order of a key, equal keys in their order. -/
def sortBy {α : Type} (key : α → Nat) (l : List α) : List α := l.foldl (fun a x => insertBy key x a) []

/-- Members in ascending node ID. -/
def Block.sorted (b : Block) : List NodeId := sortBy (fun n => n.toNat) b.members

/-- Whether the block wraps on an axis (06 R176). -/
def Block.wraps (b : Block) (a : Nat) : Bool := axisOf b.ext a == axisOf b.dm a

/-- The lines of a block along an axis: each a list of positions in ascending order on it. -/
def Block.lines (b : Block) (a : Nat) : List (List (Nat × Nat × Nat)) :=
  (b.positions.filter fun p => axisOf p a == 0).map fun p =>
    (List.range (axisOf b.ext a)).map fun t => setAxis p a t

/-! ### Lattice primitives (05 R156, Table 5.3) -/

/-- One flow: source, destination, bytes. -/
structure Flow where
  src : NodeId
  dst : NodeId
  bytes : Nat
  deriving DecidableEq, Repr

/-- The flows of a closed order of members, each sending to the next. -/
def ringFlows (order : List NodeId) (bytes : Nat) : List Flow :=
  let n := order.length
  (List.range n).map fun i =>
    { src := order.getD i 0, dst := order.getD ((i + 1) % n) 0, bytes := bytes }

/-- The order of a FOLD: 0, 2, 4, …, then the odd positions descending. -/
def foldOrder (n : Nat) : List Nat :=
  ((List.range n).filter fun i => i % 2 == 0) ++ (((List.range n).filter fun i => i % 2 == 1).reverse)

/-- The lattice orders of a ring family's rings (05 R158). -/
def Block.ringOrders (b : Block) (d : Demand) : List (List NodeId) :=
  let lines := (b.lines d.axis).map fun l => l.map b.node
  if d.pattern = 2 then lines.map List.reverse
  else if d.pattern = 4 then lines.map fun l => (foldOrder l.length).map fun i => l.getD i 0
  else lines

/-- The flows of ring orders for a demand: RING± runs both ways with half the bytes, rounded up. -/
def orderFlows (d : Demand) (orders : List (List NodeId)) : List Flow :=
  if d.pattern = 3 then
    orders.flatMap fun o => ringFlows o (ceilDiv d.bytes 2) ++ ringFlows o.reverse (ceilDiv d.bytes 2)
  else orders.flatMap fun o => ringFlows o d.bytes

/-- One block step nearer a root coordinate on an axis of extent n (05 R156). -/
def stepTo (n : Nat) (wraps : Bool) (i r : Nat) : Nat :=
  if wraps then
    let plus := (r + n - i) % n
    let minus := (i + n - r) % n
    if plus < minus then (i + 1) % n else (i + n - 1) % n
  else if i < r then i + 1 else i - 1

/-- A member's parent position in a TREE (05 R156); `none` at the root. -/
def Block.parentPos (b : Block) (p root : Nat × Nat × Nat) : Option (Nat × Nat × Nat) :=
  (([0, 1, 2].find? fun a => axisOf p a != axisOf root a)).map fun a =>
    setAxis p a (stepTo (axisOf b.ext a) (b.wraps a) (axisOf p a) (axisOf root a))

/-- The lattice parents of a TREE: (member, parent) pairs. -/
def Block.treeParents (b : Block) (src : NodeId) : List (NodeId × NodeId) :=
  match b.positions.find? fun p => b.node p == src with
  | none => []
  | some root => b.positions.filterMap fun p => (b.parentPos p root).map fun q => (b.node p, b.node q)

/-- The neighbours of a position along an axis, inside the block (05 Table 5.3 HALO). -/
def Block.haloPos (b : Block) (p : Nat × Nat × Nat) (a : Nat) : List (Nat × Nat × Nat) :=
  let n := axisOf b.ext a
  let i := axisOf p a
  if n ≤ 1 then []
  else if b.wraps a then [setAxis p a ((i + 1) % n), setAxis p a ((i + n - 1) % n)]
  else (if i + 1 < n then [setAxis p a (i + 1)] else []) ++ (if 0 < i then [setAxis p a (i - 1)] else [])

/-- The lattice flows of a demand (05 R155, R156). -/
def Block.flows (b : Block) (d : Demand) : List Flow :=
  if d.bytes = 0 then []
  else match d.pattern with
    | 0 => [{ src := d.src, dst := d.dst, bytes := d.bytes }]
    | 1 | 2 | 3 | 4 => orderFlows d (b.ringOrders d)
    | 5 => b.positions.flatMap fun p => ([0, 1, 2].flatMap fun a => b.haloPos p a).map fun q =>
        { src := b.node p, dst := b.node q, bytes := d.bytes }
    | 6 => (b.treeParents d.src).map fun e => { src := e.2, dst := e.1, bytes := d.bytes }
    | _ => b.members.flatMap fun s => (b.members.filter (· != s)).map fun t =>
        { src := s, dst := t, bytes := ceilDiv d.bytes (b.members.length - 1) }

/-! ### Routed paths (05 R142, R157) -/

/-- The links a frame of a stream crosses from a node to a destination on a die, hop by hop by the route evaluator; `none`
where an entry is not valid or its position is no road-map edge. -/
def routedPath (links : List LinkRec) (dm : Nat × Nat × Nat) (die stream : Nat) (src t : NodeId) :
    NodeId → Nat → Option (List LinkRec)
  | _, 0 => none
  | n, k + 1 =>
    if n = t then some []
    else
      let e := evalRoute links dm die n t
      let (dir, mask) := if e.priMask = 0 then (e.detDir, e.detMask) else (e.priDir, e.priMask)
      if !e.valid || dir = 6 then none
      else match pickPosition (onePositions mask) src stream with
        | none => none
        | some pos =>
          match (roadLinks links die n dir).find? fun l => l.pos == pos with
          | none => none
          | some l => (routedPath links dm die stream src t (neighbour dm n dir) k).map fun r => l :: r

/-- A flow with its path. -/
structure Routed where
  flow : Flow
  path : List LinkRec
  deriving DecidableEq, Repr

/-- The paths of flows, in ascending source and then destination; `none` when one has no path. -/
def routeFlows (links : List LinkRec) (dm : Nat × Nat × Nat) (d : Demand) (fs : List Flow) : Option (List Routed) :=
  (sortBy (fun (f : Flow) => f.src.toNat * 65536 + f.dst.toNat) fs).foldr (fun f acc =>
    match acc, routedPath links dm d.plane d.stream f.src f.dst f.src 40 with
    | some l, some p => some ({ flow := f, path := p } :: l)
    | _, _ => none) (some [])

/-- The distinct ports that routed flows cross. -/
def crossed (rs : List Routed) : List LinkRec := (rs.flatMap (·.path)).eraseDups

/-- A demand's envelopes per step on a port (05 R155). -/
def envelopesOn (rs : List Routed) (l : LinkRec) : Nat :=
  rs.foldl (fun a r => if r.path.contains l then a + ceilDiv r.flow.bytes 256 else a) 0

/-! ### Checkers (05 R150, R151) -/

/-- Occupied slots of a port: phase and period. -/
structure Occ where
  node : NodeId
  port : Nat
  phase : Nat
  period : Nat
  deriving DecidableEq, Repr

/-- The slots that reservations own. -/
def occOf (rs : List Resv) : List Occ :=
  rs.flatMap fun r => if r.reserved then
    r.ports.map fun p => { node := p.1, port := p.2.1, phase := (r.phase + p.2.2.1) % r.period, period := r.period }
  else []

/-- cap(p, w) of R150. -/
def capOf (c p w : Nat) : Nat := if w < 1024 then 0 else c * ((w - 1024) / (p * 1024))

/-- The slots of a port that are owned or held. -/
def slotsTaken (occ : List Occ) (l : LinkRec) : BitVec 256 :=
  let mine := occ.filter fun o => o.node == l.node && o.port == l.port
  maskOf 256 ((List.range 256).filter fun i => mine.any fun o => i % o.period == o.phase % o.period)

/-- The phases of a period whose every slot is free. -/
def freePhases (taken : BitVec 256) (p shift : Nat) : BitVec 256 :=
  maskOf 256 ((List.range p).filter fun ph => (List.range (256 / p)).all fun k => !(taken.getLsbD ((ph + shift + k * p) % 256)))

/-- A checker's answer: the phases free on a port while its slots stay within RESV_MAX (05 R151). -/
def query (resvMax : Nat) (occ : List Occ) (l : LinkRec) (p shift : Nat) : BitVec 256 :=
  let taken := slotsTaken occ l
  if resvMax < ones taken + 256 / p then 0 else freePhases taken p shift

/-- A RESV_MAX that leaves every slot: a phase that is kept need only be free (05 R148, R163). -/
def noHeadroom : Nat := 512

/-- An envelope's time on a link, in hundredths of a ns (05 Table 5.1). -/
def envelopeTime (gen width : Nat) : Nat :=
  match gen, width with
  | 2, 4 => 529
  | 2, 2 => 1058
  | 2, _ => 2117
  | _, 4 => 1058
  | _, 2 => 2117
  | _, _ => 4234

/-- A hop's bound in hundredths of a ns (01 R42). -/
def hopBound (l : LinkRec) : Nat := if onBoard l.node l.dir then 9000 else 15000

/-- The slot advances along one path (05 R165): (link, advance) pairs. `sum` and the two maxima describe the group that is
open, `a` its advance. -/
def advances (env : LinkRec → Nat) (slots : Nat) : List LinkRec → Nat → Nat → Nat → Nat → List (LinkRec × Nat)
  | [], _, _, _, _ => []
  | l :: t, a, sum, mEnv, mTime =>
    let s := sum + hopBound l
    let e := max mEnv (ceilDiv (env l) (max 1 slots))
    let tm := max mTime (envelopeTime l.gen l.width)
    if sum = 0 ∨ s + e * tm ≤ 92000 then (l, a) :: advances env slots t a s e tm
    else (l, a + 1) :: advances env slots t (a + 1) (hopBound l) (ceilDiv (env l) (max 1 slots)) (envelopeTime l.gen l.width)

/-- The advance of every crossed port: that of the first flow that crosses it (05 R165). -/
def advanceMap (rs : List Routed) (slots : Nat) : List (LinkRec × Nat) :=
  rs.foldl (fun acc r =>
    (advances (envelopesOn rs) slots r.path 0 0 0 0).foldl (fun acc e =>
      if acc.any fun x => x.1 == e.1 then acc else acc ++ [e]) acc) []

/-- The periods in the order R160 tries them. -/
def periods : List Nat := [256, 128, 64, 32, 16, 8, 4, 2, 1]

/-- The scales in the order R160 tries them. -/
def scales (d : Demand) : List Nat :=
  if d.noScale then [256] else ((List.range 25).map fun i => 256 + 32 * i).filter fun s => decide (s ≤ d.maxScale)

/-- The phases free for a demand at a scale and period, with the port advances; none where some port's cap is short. -/
def phasesAt (resvMax : Nat) (occ : List Occ) (rs : List Routed) (d : Demand) (s p : Nat) :
    Option (BitVec 256 × List (LinkRec × Nat)) :=
  let w := d.windowNs * s / 256
  let ports := crossed rs
  if ports.all fun l => decide (envelopesOn rs l ≤ capOf (slotCapacity l.gen l.width) p w) then
    let adv := advanceMap rs ((w - 1024) / (p * 1024))
    some (adv.foldl (fun v e => v &&& query resvMax occ e.1 p e.2) (BitVec.allOnes 256), adv)
  else none

/-- The reservation at a phase. -/
def resvAt (tag : Nat) (d : Demand) (rs : List Routed) (sampled : Bool) (s p ph : Nat) (adv : List (LinkRec × Nat)) : Resv :=
  { tag := tag, demand := d, reserved := true, noPath := false, sampled := sampled, phase := ph, period := p, linkScale := s,
    ports := adv.map fun e => (e.1.node, e.1.port, e.2, envelopesOn rs e.1), rings := [], parents := [], grade := 0,
    factor := 256 }

/-- A demand left unreserved. -/
def unreserved (tag : Nat) (d : Demand) (noPath : Bool) : Resv :=
  { tag := tag, demand := d, reserved := false, noPath := noPath, sampled := false, phase := 0, period := 256, linkScale := 256,
    ports := [], rings := [], parents := [], grade := 0, factor := 256 }

/-- R160's search over scales, periods and phases for one instance. -/
def tryInstance (resvMax : Nat) (occ : List Occ) (tag : Nat) (rs : List Routed) (d : Demand) (sampled : Bool) : Option Resv :=
  (scales d).findSome? fun s => periods.findSome? fun p =>
    match phasesAt resvMax occ rs d s p with
    | none => none
    | some (v, adv) => (firstBelow p fun ph => v.getLsbD ph).map fun ph => resvAt tag d rs sampled s p ph adv

/-! ### Sampling (05 R164) -/

/-- One step of the generator. -/
def lfsr (r : Word) : Word := if r.getLsbD 0 then (r >>> 1) ^^^ 0x80200003 else r >>> 1

/-- The seed of a demand. -/
def sampleSeed (gen : Word) (id : Nat) : Word :=
  let s := BitVec.ofNat 32 (gen.toNat * 0x9E37 + id)
  if s = 0 then 1 else s

/-- Shuffle a list from its end downward; `i` is the highest position left. -/
def shuffle (l : List NodeId) (r : Word) : Nat → List NodeId × Word
  | 0 => (l, r)
  | i + 1 =>
    let r := lfsr r
    let j := r.toNat % (i + 2)
    shuffle ((l.set (i + 1) (l.getD j 0)).set j (l.getD (i + 1) 0)) r i

/-- A ring sample: every ring of the demand shuffled, rings in ascending order of their lowest node. -/
def sampleRings (rings : List (List NodeId)) (r : Word) : List (List NodeId) × Word :=
  rings.foldl (fun acc ring =>
    let (o, r) := shuffle ring acc.2 (ring.length - 1)
    (acc.1 ++ [o], r)) ([], r)

/-- The rings of a demand, members and rings in ascending node ID. -/
def Block.sampleBase (b : Block) (d : Demand) : List (List NodeId) :=
  sortBy (fun l => (l.headD 0).toNat) ((b.lines d.axis).map fun l => sortBy (fun n => n.toNat) (l.map b.node))

/-- The hop distance of two coordinates on an axis of length n. -/
def axisDist (n a b : Nat) : Nat := min ((a + n - b) % n) ((b + n - a) % n)

/-- The wrapped distance of two nodes. -/
def torusDist (dm : Nat × Nat × Nat) (a b : NodeId) : Nat :=
  axisDist dm.1 (nodeX a) (nodeX b) + axisDist dm.2.1 (nodeY a) (nodeY b) + axisDist dm.2.2 (nodeZ a) (nodeZ b)

/-- The block steps between two positions: an axis that wraps goes the shorter way round (05 R156). -/
def Block.stepsBetween (b : Block) (p q : Nat × Nat × Nat) : Nat :=
  let one := fun (a : Nat) =>
    if b.wraps a then axisDist (axisOf b.ext a) (axisOf p a) (axisOf q a)
    else (axisOf p a - axisOf q a) + (axisOf q a - axisOf p a)
  one 0 + one 1 + one 2

/-- A TREE sample: a parent drawn for every member but the root, among its block neighbours one block step nearer the root. DEDUCED (log 15). -/
def Block.sampleTree (b : Block) (src : NodeId) (r : Word) : List (NodeId × NodeId) × Word :=
  match b.positions.find? fun p => b.node p == src with
  | none => ([], r)
  | some root =>
    let dist := b.stepsBetween root
    let sorted := sortBy (fun p => (b.node p).toNat) b.positions
    let order := sortBy dist (sorted.filter (· != root))
    order.foldl (fun acc p =>
      let near := sorted.filter fun q => b.stepsBetween q p == 1 && decide (dist q < dist p)
      let r := lfsr acc.2
      match near[r.toNat % max 1 near.length]? with
      | some q => (acc.1 ++ [(b.node p, b.node q)], r)
      | none => (acc.1, r)) ([], r)

/-- How many slots a reservation holds. -/
def slotsHeld (r : Resv) : Nat := if r.reserved then r.ports.length * (256 / r.period) else 0

/-- The weights of the links a reservation crosses. -/
def weightHeld (links : List LinkRec) (r : Resv) : Nat :=
  r.ports.foldl (fun a p => match links.find? fun l => l.node == p.1 && l.port == p.2.1 with
    | some l => a + l.weight
    | none => a) 0

/-- The predicted occupancy of a port's unreserved time, 0–256: a measured figure, free (log 7). -/
def occupancy (gen : Word) (n : NodeId) (p : Nat) : Nat := (Config.freeOf [5, gen.toNat, n.toNat, p]).toNat % 257

/-- The predicted occupancy of the links a reservation crosses. -/
def occupancyHeld (gen : Word) (r : Resv) : Nat := r.ports.foldl (fun a p => a + occupancy gen p.1 p.2.1) 0

/-- How two samples compare (05 R161, the fields that differ between samples of one demand). -/
def sampleScore (links : List LinkRec) (gen : Word) (r : Resv) : List Nat :=
  [r.linkScale, slotsHeld r, weightHeld links r, occupancyHeld gen r]

/-- Whether one score is below another, field by field. -/
def scoreLt : List Nat → List Nat → Bool
  | a :: s, b :: t => decide (a < b) || (a == b && scoreLt s t)
  | _, _ => false

/-- What the search knows: the database, the configuration, the occupied slots. -/
structure View where
  links : List LinkRec
  gen : Word
  resvMax : Nat
  occ : List Occ
  deriving DecidableEq, Repr

/-- The flows of a sample: a TREE's parents, or ring orders. -/
def sampleFlows (d : Demand) (orders : List (List NodeId)) (parents : List (NodeId × NodeId)) : List Flow :=
  if d.pattern = 6 then parents.map fun e => { src := e.2, dst := e.1, bytes := d.bytes } else orderFlows d orders

/-- Draw and test samples, at most `n` (05 R164), from the demand's generator as it stands: the best reservation, how many were drawn,
whether any had a path, and the generator. -/
def Block.samples (b : Block) (v : View) (tag : Nat) (d : Demand) (n : Nat) (gen : Word) : (Option Resv × Nat × Bool) × Word :=
  let step := fun (acc : (Option Resv × Nat × Bool) × Word) (_ : Nat) =>
    let (orders, parents, r) :=
      if d.pattern = 6 then let (p, r) := b.sampleTree d.src acc.2; ([], p, r)
      else let (o, r) := sampleRings (b.sampleBase d) acc.2; (o, [], r)
    let (best, k, path) := acc.1
    match routeFlows v.links b.dm d (sampleFlows d orders parents) with
    | none => ((best, k + 1, path), r)
    | some rs =>
      match tryInstance v.resvMax v.occ tag rs d true with
      | none => ((best, k + 1, true), r)
      | some x =>
        let x := { x with rings := orders, parents := parents }
        let better := match best with
          | none => true
          | some y => scoreLt (sampleScore v.links v.gen x) (sampleScore v.links v.gen y)
        ((if better then some x else best, k + 1, true), r)
  (List.range n).foldl step ((none, 0, false), gen)

/-- Whether a family is sampled (05 R164). -/
def sampledFamily (p : Nat) : Bool := [1, 2, 3, 4, 6].contains p

/-- The flows that a reservation runs on: its sample's, or the lattice's. -/
def Block.flowsOf (b : Block) (r : Resv) : List Flow :=
  if r.sampled then sampleFlows r.demand r.rings r.parents else b.flows r.demand

/-- The reservation that a demand keeps: its instance, link scale, period and phase, where the phase is still free and the slots still cover
its envelopes on every port it now crosses (05 R163). A sampled demand keeps its sample. DEDUCED (log 15). -/
def Block.keepOne (b : Block) (v : View) (r : Resv) : Option Resv :=
  let d := r.demand
  if r.reserved then
    match routeFlows v.links b.dm d (b.flowsOf r) with
    | none => none
    | some rs =>
      match phasesAt noHeadroom v.occ rs d r.linkScale r.period with
      | some (w, adv) => if w.getLsbD r.phase then
          some { resvAt r.tag d rs r.sampled r.linkScale r.period r.phase adv with rings := r.rings, parents := r.parents } else none
      | none => none
  else none

/-- The key of a demand's sample generator within a job. -/
def genKey (tag : Nat) (d : Demand) : Nat := tag * 4294967296 + d.id

/-- A demand's sample generator as it stands: seeded at its first draw (05 R164). -/
def genAt (v : View) (gens : Table Word) (tag : Nat) (d : Demand) : Word :=
  let g := tget 0 gens (genKey tag d)
  if g = 0 then sampleSeed v.gen d.id else g

/-- Reserve one demand of a slice's block (05 R160, R163, R164): `prev` is the reservation that a REPLAN tries to keep, `limit` how many
samples may be drawn. Returns the reservation, the samples drawn and the generators. -/
def Block.reserveOne (b : Block) (v : View) (tag : Nat) (d : Demand) (prev : Option Resv) (limit : Nat) (gens : Table Word) :
    Resv × Nat × Table Word :=
  let fs := b.flows d
  if fs.isEmpty then ({ unreserved tag d false with reserved := true, linkScale := 256 }, 0, gens)
  else
    match prev.bind fun r => b.keepOne v r with
    | some r => (r, 0, gens)
    | none =>
      let inst := routeFlows v.links b.dm d fs
      match inst.bind fun rs => tryInstance v.resvMax v.occ tag rs d false with
      | some r => ({ r with rings := if [1, 2, 3, 4].contains d.pattern then b.ringOrders d else []
                            parents := if d.pattern = 6 then b.treeParents d.src else [] }, 0, gens)
      | none =>
        if sampledFamily d.pattern then
          let ((r, k, path), g) := b.samples v tag d (min limit (2 * b.members.length)) (genAt v gens tag d)
          (r.getD (unreserved tag d (inst.isNone && !path)), k, tset 0 gens (genKey tag d) g)
        else (unreserved tag d inst.isNone, 0, gens)

/-- The envelopes of a demand on its busiest port (05 R160). -/
def Block.busiest (b : Block) (links : List LinkRec) (d : Demand) : Nat :=
  match routeFlows links b.dm d (b.flows d) with
  | none => 0
  | some rs => (crossed rs).foldl (fun a l => max a (envelopesOn rs l)) 0

/-- Demands in R160's order: descending envelopes on the busiest port, then ascending DEMAND_ID. -/
def Block.demandOrder (b : Block) (links : List LinkRec) (l : List Demand) : List Demand :=
  sortBy (fun d => (2 ^ 40 - b.busiest links d) * 2 ^ 32 + d.id) l

/-- Reserve demands one after another; later ones see the slots of earlier ones. -/
def Block.reserveAll (b : Block) (tag : Nat) : View → List Demand → Nat → Table Word → List Resv × Nat × Table Word
  | _, [], _, gens => ([], 0, gens)
  | v, d :: t, limit, gens =>
    let (r, k, gens) := b.reserveOne v tag d none limit gens
    let (rs, k', gens) := b.reserveAll tag { v with occ := v.occ ++ occOf [r] } t (limit - k) gens
    (r :: rs, k + k', gens)

/-! ### The ramp ledger and time-scaling (05 R166, R167) -/

/-- A tray's number: rack column, rack row and slot as TKP_RAMP_READ names them (18 Table 18.6). -/
def trayOf (n : NodeId) : Nat := nodeX n / 4 + nodeY n / 4 * 4 + nodeZ n * 16

/-- The largest of a figure over a list. -/
def maxOver {α : Type} (f : α → Nat) (l : List α) : Nat := l.foldl (fun a x => max a (f x)) 0

/-- The claims of a slice's members on their trays, or `none` when a tray has room for no package. The rate of a tray is the highest in force
on the slice's packages there. DEDUCED (log 15). -/
def claimsFor (budget : Nat → Nat) (others : List Claim) (tag : Nat) (rates : NodeId → Nat) (rise : Nat) (members : List NodeId) :
    Option (List Claim) :=
  let trays := (members.map trayOf).eraseDups
  trays.foldr (fun t acc =>
    let mine := members.filter fun n => trayOf n == t
    let k := mine.length
    let rate := max 1 (maxOver rates mine)
    let used := (others.filter fun c => c.tray == t && c.tag != tag).foldl (fun a c => a + c.groupSize * c.rate) 0
    let left := budget t - used
    let g := if k * rate ≤ left then k else left / rate
    match acc with
    | none => none
    | some l => if g = 0 then none
      else some ({ tray := t, tag := tag, groupSize := min k g, groups := ceilDiv k g, rate := rate, offsetUs := ceilDiv rise rate } :: l))
    (some [])

/-- The slice's time-scaling factor, its link scale and its spacing (05 R167). -/
def timeScale (demands : List Demand) (rs : List Resv) (claims : List Claim) : Nat × Nat × Nat :=
  if demands.isEmpty then (256, 256, 0)
  else
    let step := maxOver (·.stepNs) demands
    let link := max 256 (maxOver (fun (r : Resv) => if r.reserved then r.linkScale else 256) rs)
    let stagger := maxOver (fun (c : Claim) => (c.groups - 1) * c.offsetUs * 1000) claims
    let s := ceilDiv (step * link + 256 * stagger) (max 1 step)
    (s, link, ceilDiv (step * s) 256)

/-- A result that refuses, with a reason (05 Table 5.5). -/
def refusedResult (reason : Nat) : Result :=
  { grade := 4, reason := reason, factor := 256, spacingNs := 0, slots := 0, weights := 0, occupancy := 0, distance := 0,
    origin := (0, 0, 0), index := 0, resv := [], claims := [], rounds := 0 }

/-- Whether a demand names a node outside the slice, or a ring on an axis of extent 1 (05 R154, R156). -/
def Block.outside (b : Block) (d : Demand) : Bool :=
  (d.pattern == 0 && !(b.members.contains d.src && b.members.contains d.dst)) ||
  (d.pattern == 6 && !(b.members.contains d.src)) ||
  ([1, 2, 3].contains d.pattern && axisOf b.ext d.axis == 1)

/-- Evaluate one candidate block for a request's demands (05 R160, R161, R166–R168), with the samples drawn and the generators. -/
def Block.evaluate (b : Block) (v : View) (tag : Nat) (demands : List Demand) (budget : Nat → Nat) (others : List Claim)
    (rates : NodeId → Nat) (limit : Nat) (gens : Table Word) (seed : NodeId) (index : Nat) : Result × Nat × Table Word :=
  let base := { refusedResult 0 with origin := b.org, index := index, distance := torusDist b.dm (b.node (0, 0, 0)) seed }
  if demands.isEmpty then ({ base with grade := 0 }, 0, gens)
  else if demands.any b.outside then ({ base with grade := 4, reason := 0x07 }, 0, gens)
  else
    let (rs, k, gens) := b.reserveAll tag v (b.demandOrder v.links demands) limit gens
    let rise := maxOver (·.riseW) demands
    match claimsFor budget others tag rates rise b.members with
    | none => ({ base with grade := 4, reason := 0x04 }, k, gens)
    | some cs =>
      let (s, link, spacing) := timeScale demands rs cs
      let past := demands.any fun d => decide (d.maxScale < s)
      let linkOver := demands.any fun d => decide (d.maxScale < link)
      if past then ({ base with grade := 4, reason := if linkOver then 0x03 else 0x04 }, k, gens)
      else
        let missing := rs.any fun r => !r.reserved
        let grade := if missing then 3 else if s = 256 ∧ !(rs.any (·.sampled)) then 0 else 1
        ({ base with
            grade := grade, factor := s, spacingNs := spacing
            slots := rs.foldl (fun a r => a + slotsHeld r) 0
            weights := rs.foldl (fun a r => a + weightHeld v.links r) 0
            occupancy := rs.foldl (fun a r => a + occupancyHeld v.gen r) 0
            resv := rs.map fun r => { r with factor := s }, claims := cs }, k, gens)

/-- A candidate's score, lower is better (05 R161). -/
def score (b : Block) (r : Result) : List Nat :=
  [r.grade, r.factor, r.slots, r.weights, r.occupancy, r.distance, (nodeAt b.pod r.origin.1 r.origin.2.1 r.origin.2.2).toNat]

/-! ### Placement (06 R189, R190) -/

/-- The yield map of a package, as its last record gave it; none before that (16 R469). -/
def Machine.yieldOf (m : Machine) (n : NodeId) : List Byte :=
  match m.nodeRec n with
  | some r => ((m.hly.db.facts.find? fun e => e.node.node == n && e.node.uid == r.uid).map (·.yield)).getD []
  | none => []

/-- BOOT_ID as a package's record gives it. -/
def Machine.bootIdOf (m : Machine) (n : NodeId) : Word := ((m.nodeRec n).map (·.bootId)).getD 0

/-- The logical tiles of a package, and which of them its yield map shows usable. -/
def Machine.nodeTiles (m : Machine) (n : NodeId) : Nat × BitVec 128 :=
  let t := 32 * bits (m.bootIdOf n) 4 3
  (t, maskOf 128 ((List.range t).filter fun l => yieldTile (m.yieldOf n) l))

/-- How many usable tiles a package's partition i of K has. -/
def Machine.tilesIn (m : Machine) (n : NodeId) (log2k i : Nat) : Nat :=
  let (t, map) := m.nodeTiles n
  ((List.range t).filter fun l => inShare t log2k i l && map.getLsbD l).length

/-- log2 of a K of 1, 2, 4 or 8. -/
def log2K (k : Nat) : Nat := if k = 8 then 3 else if k = 4 then 2 else if k = 2 then 1 else 0

/-- The partition indexes in use at a package, but those of a tag whose placement is made again. -/
def usedBut (p : NodeParts) (tag : Nat) : BitVec 8 :=
  maskOf 8 ((List.range 8).filter fun i => p.inUse.getLsbD i && (tag == 0 || tget 0 p.bound i != tag))

/-- The checks of Table 6.2 but Index and Tiles. -/
def Machine.blockFits (m : Machine) (b : Block) (tag : Nat) (req : SliceReq) : Bool :=
  decide (b.ext.1 ≤ b.dm.1) && decide (b.ext.2.1 ≤ b.dm.2.1) && decide (b.ext.2.2 ≤ b.dm.2.2) &&
  b.members.all (fun n => presentNode m.hly.db.nodes n) &&
  b.members.all (fun n => let np := tget .reset m.slc.nodes n.toNat; usedBut np tag == 0 || np.log2k == log2K req.k) &&
  decide (req.ctxMax ≤ 64 / max 1 req.k)

/-- Whether an index is FREE on every member. No partition of a package is before its step 36 has completed, or while its stacks give less than
2,400 GB/s: its yield map shows both (10 R295, 16 R469). -/
def Machine.indexFree (m : Machine) (b : Block) (tag i : Nat) : Bool :=
  b.members.all fun n =>
    yieldReady (m.yieldOf n) && !(yieldLow ((m.bootIdOf n).getLsbD 15) (m.yieldOf n)) &&
    !((usedBut (tget .reset m.slc.nodes n.toNat) tag).getLsbD i)

/-- Whether an index holds MIN_TILES usable tiles on every member. -/
def Machine.indexTiles (m : Machine) (b : Block) (req : SliceReq) (i : Nat) : Bool :=
  b.members.all fun n => decide (req.minTiles ≤ m.tilesIn n (log2K req.k) i)

/-- The index a block offers (06 Table 6.2): `some i` when it is eligible. -/
def Machine.blockIndex (m : Machine) (b : Block) (tag : Nat) (req : SliceReq) : Option Nat :=
  if m.blockFits b tag req then
    if req.index = 0xF then firstBelow req.k fun i => m.indexFree b tag i && m.indexTiles b req i
    else if m.indexFree b tag req.index && m.indexTiles b req req.index then some req.index else none
  else none

/-- Whether a block passes every check but Index (06 R190). -/
def Machine.blockOnlyIndex (m : Machine) (b : Block) (tag : Nat) (req : SliceReq) : Bool :=
  m.blockFits b tag req &&
  (if req.index = 0xF then (List.range req.k).any fun i => m.indexTiles b req i else m.indexTiles b req req.index)

/-- The block at an origin: a wrapping axis takes coordinate 0 (06 R176). -/
def Machine.blockAt (m : Machine) (ext org : Nat × Nat × Nat) : Block :=
  let dm := m.dims
  let fix := fun a => if axisOf ext a = axisOf dm a then 0 else axisOf org a
  { org := (fix 0, fix 1, fix 2), ext := ext, dm := dm, pod := nodePod m.node }

/-- The origins at a torus distance from the seed, in ascending z, then y, then x (05 R159); a wrapping axis has origin 0
only. DEDUCED (log 15). -/
def Machine.ringOrigins (m : Machine) (ext seed : Nat × Nat × Nat) (r : Nat) : List (Nat × Nat × Nat) :=
  let dm := m.dims
  let coords := fun a => if axisOf ext a = axisOf dm a then [0] else List.range (axisOf dm a)
  let s := nodeAt 0 seed.1 seed.2.1 seed.2.2
  (coords 2).flatMap fun z => (coords 1).flatMap fun y => (coords 0).filterMap fun x =>
    let d := torusDist dm (nodeAt 0 x y z) s
    if d = r then some (x, y, z) else none

/-- The largest distance on the torus. -/
def Machine.lastRing (m : Machine) : Nat := m.dims.1 / 2 + m.dims.2.1 / 2 + m.dims.2.2 / 2

/-- The budget of a tray's ramp ledger (05 R166); 0 until a tray limit has been forwarded. DEDUCED (log 15). -/
def Machine.trayBudget (m : Machine) (t : Nat) : Nat := tget 0 m.tkp.ramp.budgets t

/-- The RAMP_UP rate in force on a package as the ledger has it: the value that it forwarded, else the pod's (05 R166, 13 R390). DEDUCED
(log 15). -/
def RampSet.rate (x : RampSet) (n : NodeId) : Nat :=
  let r := tget 0 x.rates n.toNat
  max 1 (if r = 0 then tget 0 x.rates 0xFFFF else r)

/-- The rate in force on a package as the ledger has it. -/
def Machine.nodeRate (m : Machine) (n : NodeId) : Nat := RampSet.rate m.tkp.ramp n

/-- Whether a node lies in this pod. -/
def Machine.inPod (m : Machine) (n : NodeId) : Bool :=
  decide (nodeX n < m.dims.1) && decide (nodeY n < m.dims.2.1) && n == nodeAt (nodePod m.node) (nodeX n) (nodeY n) (nodeZ n)

/-- Whether some block of a shape holds all the listed nodes. -/
def Machine.blockHolds (m : Machine) (ext : Nat × Nat × Nat) (l : List NodeId) : Bool :=
  let at' := fun (n : NodeId) (a : Nat) => axisOf (nodeX n, nodeY n, nodeZ n) a
  l.all m.inPod && [0, 1, 2].all fun a =>
    let len := axisOf m.dims a
    (List.range len).any fun o => l.all fun n => decide ((at' n a + len - o) % max 1 len < axisOf ext a)

/-- Whether a request's demand is malformed whatever block is found (05 R154): a field, a ring on an axis of extent 1, or an SRC or DST outside
every block of the shape. -/
def Machine.badDemand (m : Machine) (req : SliceReq) (d : Demand) : Bool :=
  d.malformed || ([1, 2, 3].contains d.pattern && axisOf req.ext d.axis == 1) ||
  !(m.blockHolds req.ext (if d.pattern = 0 then [d.src, d.dst] else if d.pattern = 6 then [d.src] else []))

end Sys2Proof.Machine
end

