-- ==== Sys2Proof/Machine/TackJobs.lean ====
section
/-!
DEFINITION. The Tack Planner's jobs: start, one search round, the deadline, results (05 R159–R173).
-/
namespace Sys2Proof.Machine

/-- What a job's search sees: the database with its weights, the RESV_MAX that the job started with, and the slots that reservations own
or hold. -/
def Machine.view (m : Machine) (j : Job) (without : Resv → Bool) : View :=
  { links := m.hly.db.links, gen := m.hly.reg.topoGen, resvMax := j.resvMax,
    occ := occOf ((m.tkp.resv ++ m.tkp.held ++ m.tkp.replanHeld).filter fun r => !(without r)) }

/-- A slice's installed block. -/
def Machine.sliceBlock (m : Machine) (tag : Nat) : Block :=
  let r := m.sliceAt tag
  { org := r.origin, ext := r.ext, dm := m.dims, pod := nodePod m.node }

/-- Whether a slice holds its routes and reservations. -/
def holdsRoutes (s : SliceState) : Bool :=
  match s with
  | .active | .degraded | .destroying => true
  | _ => false

/-- The tags of slices with declared demands that hold their routes, ascending, but one whose new reservations the next
epoch installs. -/
def Machine.plannedTags (m : Machine) : List Nat :=
  let w := m.hly.work
  let redone := (w.after ++ w.pendingAfter).filterMap fun a => (installTag a).map (·.1)
  (tkeys m.slc.recs).filter fun t =>
    holdsRoutes (m.sliceAt t).state && !(m.sliceAt t).demands.isEmpty && !(redone.contains t)

/-! ### REPLAN (05 R162, R163) -/

/-- What a demand's flows cross, flow by flow: ports with their slot capacities; `none` without a path. -/
def Machine.routeKey (m : Machine) (links : List LinkRec) (r : Resv) : Option (List (List (NodeId × Nat × Nat))) :=
  let b := m.sliceBlock r.tag
  (routeFlows links b.dm r.demand (b.flowsOf r)).map fun rs =>
    rs.map fun x => x.path.map fun l => (l.node, l.port, slotCapacity l.gen l.width)

/-- Whether the new generation disturbs a committed demand: a routed path, or the slot capacity or road-map membership of a port on it, is not
what it was in the epoch in force (05 R162). -/
def Machine.disturbed (m : Machine) (r : Resv) : Bool :=
  m.routeKey m.activeBank.links r != m.routeKey m.hly.db.links r

/-- Whether a REPLAN makes a committed reservation anew. -/
def Machine.replans (m : Machine) (j : Job) (r : Resv) : Bool := j.all || m.disturbed r

/-- Re-reserve disturbed demands in R160's order, later ones seeing the slots of earlier ones. -/
def Machine.replanAll (m : Machine) : View → List Resv → Nat → Table Word → List Resv × Nat
  | _, [], _, _ => ([], 0)
  | v, r :: t, limit, gens =>
    let (x, k, gens) := (m.sliceBlock r.tag).reserveOne v r.tag r.demand (some r) limit gens
    let (xs, k') := m.replanAll { v with occ := v.occ ++ occOf [x] } t (limit - k) gens
    (x :: xs, k + k')

/-- Regroup and rescale every slice in ascending tag order under the budgets and rates that were last forwarded, beside the claims `others` that the REPLAN leaves alone
(05 R166, R167; 13 R390); a slice that no longer fits is left with its demands unreserved. A reservation that is left alone keeps its GRADE, which is that
of the job that made it (05 Table 5.7). -/
def Machine.regroup (m : Machine) (others : List Claim) : List Nat → List Resv → List Claim → List Resv × List Claim
  | [], _, cs => ([], cs)
  | tag :: t, rs, cs =>
    let b := m.sliceBlock tag
    let demands := (m.sliceAt tag).demands
    let mine := rs.filter fun r => r.tag == tag
    let fail := mine.map fun r => { unreserved tag r.demand r.noPath with grade := 3, factor := 256 }
    let (mine, cs) :=
      match claimsFor (fun x => tget 0 m.tkp.rampWant.budgets x) (others ++ cs) tag (RampSet.rate m.tkp.rampWant) (maxOver (·.riseW) demands) b.members with
      | none => (fail, cs)
      | some c =>
        let (s, _, _) := timeScale demands mine c
        if demands.any fun d => decide (d.maxScale < s) then (fail, cs) else (mine.map fun r => { r with factor := s }, cs ++ c)
    let (rest, cs) := m.regroup others t rs cs
    (mine ++ rest, cs)

/-- The committed reservations of the slices that a REPLAN plans. -/
def Machine.plannedResv (m : Machine) : List Resv :=
  let tags := m.plannedTags
  m.tkp.resv.filter fun r => tags.contains r.tag

/-- The claims that a REPLAN leaves alone: those held for accepted results, and those of slices that it does not plan. -/
def Machine.otherClaims (m : Machine) : List Claim :=
  let tags := m.plannedTags
  (m.tkp.claims.filter fun c => !(tags.contains c.tag)) ++ m.tkp.heldClaims.filter fun c => !(tags.contains c.tag)

/-- A REPLAN's result from reservations that are made, regrouped and rescaled. -/
def Machine.replanOutcome (m : Machine) (made : List Resv) : Result :=
  let (rs, cs) := m.regroup m.otherClaims m.plannedTags made []
  let missing := rs.any fun r => !r.reserved
  let s := maxOver (·.factor) rs
  { refusedResult 0 with
      grade := if missing then 3 else if s ≤ 256 ∧ !(rs.any (·.sampled)) then 0 else 1
      factor := max 256 s, resv := rs, claims := cs }

/-- A REPLAN's result, and the samples it drew. -/
def Machine.replanResult (m : Machine) (j : Job) : Result × Nat :=
  let mine := m.plannedResv
  let busy := fun (r : Resv) => (m.sliceBlock r.tag).busiest m.hly.db.links r.demand
  let todo := sortBy (fun (r : Resv) => (2 ^ 40 - busy r) * 2 ^ 32 + r.demand.id) (mine.filter (m.replans j))
  let (new, k) := m.replanAll (m.view j fun r => mine.any fun x => x == r && m.replans j x) todo (j.roundsLeft - 1) j.gens
  (m.replanOutcome (mine.map fun r => (new.find? fun x => x.tag == r.tag && x.demand.id == r.demand.id).getD r), k)

/-- The result of a REPLAN that found nothing in time: the demands that it was to make anew are unreserved, the others as they were (05 R171,
"What if the deadline expires"). -/
def Machine.replanExpired (m : Machine) (j : Job) : Result :=
  { m.replanOutcome (m.plannedResv.map fun r => if m.replans j r then unreserved r.tag r.demand false else r) with grade := 3 }

/-! ### PLACE and DRYRUN (05 R159–R161) -/

/-- The reservations that a SLICE_RESERVE's job releases into its checkers (06 R194). -/
def ownSlots (j : Job) (r : Resv) : Bool := j.reserve && r.tag == j.tag

/-- The better of two results by score. -/
def betterResult (b : Block) (best : Option Result) (r : Result) : Option Result :=
  match best with
  | none => some r
  | some x => if scoreLt (score b r) (score b x) then some r else some x

/-- Every claim of the ramp ledger: the committed ones, or the larger that the REPLAN of the next epoch gives in their place, and the held ones
(05 R166). -/
def Machine.ledger (m : Machine) : List Claim :=
  let same := fun (a b : Claim) => a.tray == b.tray && a.tag == b.tag
  let size := fun (c : Claim) => c.groupSize * c.rate
  (m.tkp.claims.map fun c => ((m.tkp.replanClaims.find? fun x => same x c && decide (size c < size x)).getD c)) ++
  (m.tkp.replanClaims.filter fun c => !(m.tkp.claims.any (same c))) ++ m.tkp.heldClaims

/-- One search round of a PLACE or DRYRUN job: the next 64 eligible candidates of its ring; on a card only the block of this
package (20 R546). The Bool tells whether the search is complete. -/
def Machine.placeRound (m : Machine) (j : Job) : Job × Bool :=
  let seed := j.req.hint.getD (0, 0, 0)
  let island := m.pins.form
  let alone := j.req.fixed || j.reserve || island
  let origins :=
    if island then (if j.req.ext = (1, 1, 1) ∧ ((!j.req.fixed && !j.reserve) ∨ seed = (0, 0, 0)) then [(0, 0, 0)] else [])
    else if alone then [seed]
    else m.ringOrigins j.req.ext seed j.ring
  let blocks := (origins.map (m.blockAt j.req.ext)).filter fun b => j.reserve || (m.blockIndex b j.tag j.req).isSome
  let onlyIndex := origins.any fun o =>
    let b := m.blockAt j.req.ext o
    (m.blockIndex b j.tag j.req).isNone && m.blockOnlyIndex b j.tag j.req
  let batch := (blocks.drop j.ringPos).take 64
  let v := m.view j (ownSlots j)
  let others := m.ledger
  let sd := nodeAt (nodePod m.node) seed.1 seed.2.1 seed.2.2
  let (best, burnt, gens) := batch.foldl (fun (acc : Option Result × Nat × Table Word) b =>
    let idx := if j.reserve then j.req.index else (m.blockIndex b j.tag j.req).getD 0
    let (r, k, gens) :=
      b.evaluate v j.tag j.req.demands m.trayBudget others m.nodeRate (j.roundsLeft - 1 - acc.2.1) acc.2.2 sd idx
    (betterResult b acc.1 r, acc.2.1 + k, gens)) (j.best, 0, j.gens)
  let j := { j with best := best, burn := burnt, tested := j.tested + batch.length, indexOnly := j.indexOnly || onlyIndex,
                    ringPos := j.ringPos + 64, gens := gens }
  if blocks.length ≤ j.ringPos then
    let found := match best with
      | some r => r.grade == 0 && r.factor == 256
      | none => false
    if found || alone || decide (m.lastRing ≤ j.ring) then (j, true)
    else ({ j with ring := j.ring + 1, ringPos := 0 }, false)
  else (j, false)

/-- A PLACE or DRYRUN job's result when its search ends (05 R168, R172; 06 R190). -/
def placeResult (j : Job) (deadline : Bool) : Result :=
  match j.best with
  | none => refusedResult (if deadline then 0x06 else if j.indexOnly then 0x02 else 0x01)
  | some r => if deadline && decide (r.grade < 2) then { r with grade := 2 } else r

/-! ### Running the engine (05 R169, R170) -/

/-- A job's deadline in ns (05 R169). -/
def Machine.jobDeadline (m : Machine) (j : Job) : Nat :=
  if j.deadlineNs ≠ 0 then j.deadlineNs
  else match j.kind with
    | .replan => m.tkp.replanUs * 1000
    | _ => if j.req.deadlineMs = 0 then m.tkp.placeMs * 1000000 else j.req.deadlineMs * 1000000

/-- A job as it starts: floor(D / 500 ns) rounds, four of them kept for smoothing and output, and the RESV_MAX of its first start (05 R148). -/
def Machine.freshJob (m : Machine) (j : Job) : Job :=
  { j with roundsLeft := m.jobDeadline j / 500 - 4, used := 0, burn := 0, ring := 0, ringPos := 0, best := none, tested := 0,
           indexOnly := false, gens := [], resvMax := if j.resvMax = 0 then m.tkp.resvMax else j.resvMax }

/-- Take a job's result: TKP_STATUS, the counts, the faults, and HELD slots (05 R152, R168, Tables 5.8–5.11). -/
def Machine.takeResult (m : Machine) (j : Job) (r : Result) (deadline : Bool) : Machine × Job × Result :=
  let made := fun (x : Resv) => j.kind != JobKind.replan ||
    m.tkp.resv.any fun o => o.tag == x.tag && o.demand.id == x.demand.id && (m.replans j o || o.reserved != x.reserved)
  let r := { r with rounds := j.used + 4, resv := r.resv.map fun x => if made x then { x with grade := r.grade } else x }
  let sampled := (r.resv.filter fun x => x.sampled && made x).length
  let hold := r.grade != 4 && j.kind == JobKind.place
  let replan := j.kind == JobKind.replan
  let m := { m with tkp := { m.tkp with
    busy := false, job := none, kind := j.kind, grade := r.grade, reason := if r.grade = 4 then r.reason else m.tkp.reason
    rounds := min 65535 r.rounds, lastScale := r.factor, cntJobs := satAdd32 m.tkp.cntJobs 1
    cntDeadline := if deadline then satAdd32 m.tkp.cntDeadline 1 else m.tkp.cntDeadline
    cntRefused := if r.grade = 4 then satAdd32 m.tkp.cntRefused 1 else m.tkp.cntRefused
    cntFallback := satAdd32 m.tkp.cntFallback sampled
    held := if hold then m.tkp.held ++ r.resv else m.tkp.held
    heldClaims := if hold then m.tkp.heldClaims ++ r.claims else m.tkp.heldClaims
    replanHeld := if replan then r.resv else m.tkp.replanHeld
    replanClaims := if replan then r.claims else m.tkp.replanClaims } }
  let m := if deadline then m.raise 504 0 else m
  let m := if r.grade = 4 then m.raise 506 0 else m
  (m, j, r)

/-- Whether the queue holds a REPLAN. -/
def Tkp.replanWaits (t : Tkp) : Bool := t.queue.any fun j => j.kind == JobKind.replan

/-- Take the next job of the queue: REPLAN before the others (05 R170). -/
def Tkp.next (t : Tkp) : Option (Job × List Job) :=
  match t.queue.findIdx? fun j => j.kind == JobKind.replan with
  | some i => t.queue[i]?.map fun j => (j, t.queue.eraseIdx i)
  | none => match t.queue with
    | [] => none
    | j :: rest => some (j, rest)

/-- Start the next job. A REPLAN that arrives while another job runs discards that job, which starts over afterwards
(05 R170); a malformed demand ends the job at once (05 R154). -/
def Machine.startJob (m : Machine) : Machine × Option (Job × Result) :=
  let m := match m.tkp.job with
    | some j => if j.kind != JobKind.replan && m.tkp.replanWaits
        then { m with tkp := { m.tkp with job := none, queue := m.freshJob j :: m.tkp.queue } } else m
    | none => m
  match m.tkp.job with
  | some _ => (m, none)
  | none =>
    match m.tkp.next with
    | none => (m, none)
    | some (j, rest) =>
      let j := m.freshJob j
      let m := { m with tkp := { m.tkp with busy := true, kind := j.kind, job := some j, queue := rest } }
      let exact := j.req.fixed || j.reserve
      if j.kind != JobKind.replan && j.req.demands.any (fun d =>
          m.badDemand j.req d || (exact && (m.blockAt j.req.ext (j.req.hint.getD (0, 0, 0))).outside d)) then
        let (m, j, r) := m.takeResult j (refusedResult 0x07) false
        (m, some (j, r))
      else (m, none)

/-- End the running job with what it has. -/
def Machine.endJob (m : Machine) (j : Job) (deadline : Bool) : Machine × Option (Job × Result) :=
  let r := match j.kind with
    | .replan => match j.best with
      | some r => if deadline && decide (r.grade < 2) then { r with grade := 2 } else r
      | none => m.replanExpired j
    | _ => placeResult j deadline
  let (m, j, r) := m.takeResult j r deadline
  (m.hlyItem 4, some (j, r))

/-- One search round (05 R160, R169): a sample's rounds are burnt one by one. -/
def Machine.plannerRound (m : Machine) : Machine × Option (Job × Result) :=
  match m.tkp.job with
  | none => (m, none)
  | some j =>
    let spend := fun (j : Job) => { j with used := j.used + 1, roundsLeft := j.roundsLeft - 1 }
    let store := fun (j : Job) => ({ m with tkp := { m.tkp with job := some j } }, (none : Option (Job × Result)))
    if j.roundsLeft = 0 then m.endJob j true
    else if 0 < j.burn then
      let j := spend { j with burn := j.burn - 1 }
      if j.burn = 0 ∧ (j.kind = .replan ∨ decide (m.lastRing < j.ring)) then m.endJob j false
      else if j.roundsLeft = 0 then m.endJob j true else store j
    else match j.kind with
      | .replan =>
        let (r, k) := m.replanResult j
        let j := spend { j with best := some r, burn := 1 + k }
        if j.roundsLeft = 0 then m.endJob j true else store j
      | _ =>
        let (j, complete) := m.placeRound j
        let j := spend j
        if complete then
          if j.burn = 0 then m.endJob j false
          else if j.roundsLeft = 0 then m.endJob j true
          else store { j with ring := m.lastRing + 1 }
        else if j.roundsLeft = 0 then m.endJob j true else store j

/-- The deadline of the running job arrives (05 R169). -/
def Machine.plannerDeadline (m : Machine) : Machine × Option (Job × Result) :=
  match m.tkp.job with
  | none => (m, none)
  | some j => m.endJob j true

end Sys2Proof.Machine
end

