-- ==== Sys2Proof/Machine/MasterOps.lean ====
section
/-!
DEFINITION. What the master does: commands in turn, slice events, the stages of a route epoch, and what follows its switch
(04 R129–R138; 05 R152, R166, R171; 06 R192–R207).
-/
namespace Sys2Proof.Machine

/-! ### Finishing a command (04 R136, R138) -/

/-- Attach after-actions to the next epoch and open its collection with a change. -/
def Machine.nextChange (m : Machine) (c : Change) (after : List AfterSwitch) : Machine :=
  (m.modWork fun w => { w with pendingAfter := w.pendingAfter ++ after }).submit c

/-- The command being executed ends with a status, results and bytes for the host's buffer. -/
def Machine.finishCmd (m : Machine) (status : Nat) (res : List Word) (data : List Byte) : Machine :=
  match m.hly.cur with
  | none => m
  | some c =>
    let m := { m with hly := { m.hly with cur := none } }
    match c.src with
    | .node n => m.tell n (.reply c.opcode status res data)
    | _ => { m with hly := { m.hly with finished := m.hly.finished ++ [{ cmd := c, status := status, res := res, data := data }] } }

/-- What ends a slice command: status OK with an outcome in RES0 (06 R194). -/
def sliceEnd (outcome : Nat) (more : List Word) : MasterAct := .finish 0 (BitVec.ofNat 32 outcome :: more) []

/-- A slice command ends: status OK with an outcome in RES0 (06 R194). -/
def Machine.finishSlice (m : Machine) (outcome : Nat) (more : List Word) : Machine :=
  m.finishCmd 0 (BitVec.ofNat 32 outcome :: more) []

/-! ### Slice events (06 R195) -/

/-- The members of a slice. -/
def Machine.sliceMembers (m : Machine) (tag : Nat) : List NodeId := (m.sliceBlock tag).members

/-- The grade and reason byte of an event (06 Table 6.8). -/
def detailByte (low high : Nat) : BitVec 8 := BitVec.ofNat 8 (low % 16 + high % 16 * 16)

/-- The master floods an event to every member of the slice it names, itself included. -/
def Machine.floodEvent (m : Machine) (code : Nat) (detail : BitVec 8) (tag : Nat) (subject : NodeId) (scale : Nat) : Machine :=
  let e : SliceEvent :=
    { code := BitVec.ofNat 8 code, detail := detail, tag := tag, node := subject, scale := scale, time := m.time.now,
      tenant := (m.sliceAt tag).tenant, topoGen := m.hly.reg.topoGen }
  (m.sliceMembers tag).foldl (fun m n => m.tell n (.event e)) m

/-- Change what the master knows of a package's partitions. -/
def Machine.modParts (m : Machine) (n : NodeId) (f : NodeParts → NodeParts) : Machine :=
  { m with slc := { m.slc with nodes := tset .reset m.slc.nodes n.toNat (f (tget .reset m.slc.nodes n.toNat)) } }

/-- A package's partition i is no longer in use, as the master knows. -/
def freedPart (p : NodeParts) (i : Nat) : NodeParts := { p with inUse := setBit p.inUse i false, bound := tset 0 p.bound i 0 }

/-- A package's partitions with those of a tag freed. -/
def freedTag (p : NodeParts) (tag : Nat) : NodeParts :=
  ((List.range 8).filter fun i => tget 0 p.bound i == tag).foldl freedPart p

/-- The packages with a partition bound to a tag, as the master knows. -/
def Machine.boundNodes (m : Machine) (tag : Nat) : List NodeId :=
  ((tkeys m.slc.nodes).filter fun n => (List.range 8).any fun i => tget 0 (tget .reset m.slc.nodes n).bound i == tag).map fun n => BitVec.ofNat 16 n

/-- Whether a member's partition at the slice's index is still bound to its tag, as the master knows (06 R206). -/
def Machine.stillBound (m : Machine) (tag : Nat) (n : NodeId) : Bool :=
  tget 0 (tget .reset m.slc.nodes n.toNat).bound (m.sliceAt tag).index == tag

/-- Whether a node is admitted and not absent (06 R198). -/
def Machine.reachable (m : Machine) (n : NodeId) : Bool :=
  m.hly.db.nodes.any fun r => r.node == n && r.admission == 0 && r.state != 3

/-- Whether a member is absent, draining or drained, or has lost its binding (06 Table 6.7, R206). -/
def Machine.memberLost (m : Machine) (tag : Nat) (n : NodeId) : Bool :=
  (m.hly.db.nodes.any fun r => r.node == n && (r.state == 1 || r.state == 2 || r.state == 3)) || !(m.stillBound tag n)

/-- How many members of a slice are lost (06 Table 6.7). -/
def Machine.lostMembers (m : Machine) (tag : Nat) : Nat := ((m.sliceMembers tag).filter (m.memberLost tag)).length

/-- A member is marked absent (`code` 0x03) or draining (0x04): its slices are DEGRADED, and their members are told, who then report their
planned streams with an operation in progress (06 R206, 07 R234). -/
def Machine.memberGone (m : Machine) (n : NodeId) (code : Nat) : Machine :=
  (tkeys m.slc.recs).foldl (fun m tag =>
    let r := m.sliceAt tag
    if (r.state = .active ∨ r.state = .degraded) ∧ (m.sliceMembers tag).contains n then
      (m.setSlice tag { r with state := .degraded }).commitThen [.event code (detailByte r.grade 0) tag n 0]
    else m) m

/-- Slices whose every member is back, binding intact and no grade 0x3 installed, return to ACTIVE (06 R206). -/
def Machine.memberReturn (m : Machine) : Machine :=
  (tkeys m.slc.recs).foldl (fun m tag =>
    let r := m.sliceAt tag
    if r.state = .degraded ∧ m.lostMembers tag = 0 ∧ r.grade ≠ 3 then
      (m.setSlice tag { r with state := .active }).commitThen [.event 0x02 (detailByte r.grade 0) tag 0xFFFF r.factor]
    else m) m

/-- A member's package reset has ended its contexts: the slices bound there are told (06 R205). -/
def Machine.memberReset (m : Machine) (n : NodeId) : Machine :=
  (tkeys m.slc.recs).foldl (fun m tag =>
    let r := m.sliceAt tag
    if (r.state = .active ∨ r.state = .degraded) ∧ (m.sliceMembers tag).contains n ∧ m.stillBound tag n then
      m.floodEvent 0x05 (detailByte r.grade 0) tag n 0
    else m) m

/-- A member that was absent is back: where its partition is still bound to a slice that has been destroyed, it is told so now (06 R198). -/
def Machine.memberBack (m : Machine) (n : NodeId) : Machine :=
  (tkeys m.slc.recs).foldl (fun m tag =>
    let r := m.sliceAt tag
    if (r.state = .destroying ∨ r.state = .releasing ∨ r.state = .retired) ∧ (m.sliceMembers tag).contains n ∧ m.stillBound tag n then
      m.tell n (.event { code := 0x06, detail := detailByte r.grade 0, tag := tag, node := 0xFFFF, scale := 0, time := m.time.now,
                         tenant := r.tenant, topoGen := m.hly.reg.topoGen })
    else m) m

/-! ### What the next epoch carries (04 R129; 05 R145, R152, R166; 06 R183, R192; 13 R377) -/

/-- The tags that the next epoch releases. -/
def releasing (after : List AfterSwitch) : List Nat :=
  after.filterMap fun a => match a with
    | .sliceReleased t => some t
    | _ => none

/-- The tags whose accepted PLACE results the next epoch carries. -/
def Machine.carried (m : Machine) : List Nat := m.hly.work.after.filterMap fun a => (installTag a).map (·.1)

/-- The reservations of the next epoch: the committed ones, less released and replaced ones, with the REPLAN's and those held for the results that
it carries (05 R152). -/
def Machine.nextResv (m : Machine) : List Resv :=
  let w := m.hly.work
  let out := releasing w.after
  (m.tkp.resv.filter fun r => !(out.contains r.tag || m.carried.contains r.tag || w.planned.contains r.tag)) ++
  (m.tkp.replanHeld.filter fun r => !(out.contains r.tag)) ++ m.tkp.held.filter fun r => m.carried.contains r.tag && !(out.contains r.tag)

/-- The ramp claims of the next epoch. -/
def Machine.nextClaims (m : Machine) : List Claim :=
  let w := m.hly.work
  let out := releasing w.after
  (m.tkp.claims.filter fun c => !(out.contains c.tag || m.carried.contains c.tag || w.planned.contains c.tag)) ++
  (m.tkp.replanClaims.filter fun c => !(out.contains c.tag)) ++ m.tkp.heldClaims.filter fun c => m.carried.contains c.tag && !(out.contains c.tag)

/-- The tags live in the next epoch: an installing slice's only once its result is carried. -/
def Machine.nextTags (m : Machine) : List Nat :=
  let out := releasing m.hly.work.after
  (tkeys m.slc.recs).filter fun t =>
    !(out.contains t) && match (m.sliceAt t).state with
      | .installing => m.carried.contains t
      | .active | .degraded | .destroying => true
      | .releasing => !(m.sliceAt t).released
      | _ => false

/-- The slot ownership of reservations (05 R145). -/
def slotsOf (rs : List Resv) : List SlotOwn :=
  rs.flatMap fun r => if r.reserved then
    r.ports.map fun p => { node := p.1, port := p.2.1, phase := (r.phase + p.2.2.1) % r.period, period := r.period, tag := r.tag }
  else []

/-- The budgets and rates of the next epoch: those of the REPLAN result that it carries, else those in force (13 R390). -/
def Machine.nextRamp (m : Machine) : RampSet := m.tkp.rampPlan.getD m.tkp.ramp

/-- A member's ramp assignment (05 R166, R167; 13 R377). -/
def Machine.rampFor (m : Machine) (n : NodeId) (c : Claim) (rs : List Resv) : RampEntry :=
  let tray := (sortBy (fun (x : NodeId) => x.toNat) (m.sliceMembers c.tag)).filter fun x => trayOf x == c.tray
  let group := (tray.findIdx fun x => x == n) / max 1 c.groupSize
  let mine := rs.filter fun r => r.tag == c.tag
  let step := maxOver (fun (r : Resv) => r.demand.stepNs) mine
  let s := max 256 (maxOver (·.factor) mine)
  let x := m.nextRamp
  { tag := c.tag, group := group, groupsM1 := c.groups - 1, windowUs := c.offsetUs, spacingNs := ceilDiv (step * s) 256,
    rate := RampSet.rate x n, budget := tget 0 x.budgets c.tray }

/-- How a member runs a reservation's flows: the orders the planner chose, or the lattice's (05 R158). -/
def Machine.flowEntry (m : Machine) (n : NodeId) (r : Resv) : FlowEntry :=
  let b := m.sliceBlock r.tag
  let rings := if r.rings.isEmpty && [1, 2, 3, 4].contains r.demand.pattern then b.ringOrders r.demand else r.rings
  let parents := if r.parents.isEmpty && r.demand.pattern == 6 then b.treeParents r.demand.src else r.parents
  { tag := r.tag, stream := r.demand.stream, pattern := r.demand.pattern, plane := r.demand.plane,
    ring := (rings.find? fun o => o.contains n).getD [], parents := parents, members := b.sorted }

/-- What the prepare carries for a node. -/
def Machine.prepareFor (m : Machine) (epoch : BitVec 16) (n : NodeId) : Prepare :=
  let rs := m.nextResv
  let tags := m.nextTags
  let mine := tags.filter fun t => (m.sliceMembers t).contains n
  { epoch := epoch, gen := m.hly.reg.topoGen, slots := slotsOf rs,
    tags := tags.map fun t => { tag := t, member := if mine.contains t then some (m.sliceAt t).index else none }
    peers := m.slc.peers.filter fun e => tags.contains e.tag
    windows := (rs.filter fun r => r.reserved && mine.contains r.tag).map fun r =>
      { tag := r.tag, stream := r.demand.stream, windowNs := r.demand.windowNs * r.linkScale / 256 }
    flows := (rs.filter fun r => mine.contains r.tag).map fun r => m.flowEntry n r
    ramps := (m.nextClaims.filter fun c => mine.contains c.tag && c.tray == trayOf n).map fun c => m.rampFor n c rs
    same := !(m.hly.work.extraNodes.isEmpty) }

/-! ### The event ring and bindings of this package (06 R178, R195, R204, R561) -/

/-- Whether a ring of N entries is full for a writer at `tail` with `reserved` entries spoken for (06 R561). -/
def ringFull (n head tail reserved : Nat) : Bool := decide (n ≤ (tail % max 1 n + n - head % max 1 n) % max 1 n + reserved + 1)

/-- An event's 32 bytes (06 Table 6.8). -/
def eventBytes (e : SliceEvent) : List Byte :=
  leBytes 32 (pack [(0, e.code.toNat), (8, e.detail.toNat), (16, e.tag), (32, e.node.toNat), (48, e.scale), (64, e.time.toNat),
    (128, e.tenant.toNat), (160, e.topoGen.toNat)])

/-- The CTX_EVENT bit of an event code (06 Table 6.9). -/
def eventBit (code : Nat) : Option Nat :=
  if 1 ≤ code ∧ code ≤ 6 then some (code - 1) else if code = 9 then some 6 else none

/-- Write an event record to the host's ring, or discard it on a full one (06 R195); PART_EVQ_TAIL moves after the flush over it (11 R338). -/
def Machine.writeEvent (m : Machine) (e : SliceEvent) : Machine :=
  let q := m.part.evq
  if q.size = 0 then m
  else if ringFull q.size q.head q.tail 0 then
    ({ m with part := { m.part with evq := { q with ovf := true } } }).raise 510 0
  else
    let m := (m.hostWrite (q.base.toNat + 32 * (q.tail % q.size)) (eventBytes e)).flushReads 1
    ({ m with part := { m.part with evq := { q with tail := (q.tail + 1) % q.size } } }).interrupt 0 2

/-- Set an event's bit in every live context of its slice on this package (06 R195). -/
def Machine.markEvent (m : Machine) (tag code : Nat) : Machine :=
  match eventBit code with
  | none => m
  | some b => (tkeys m.ctx).foldl (fun m c =>
      let r := (m.ctxAt c).base
      if r.life = .live ∧ r.tag = tag then (m.modBase c fun r => { r with event := setBit r.event b true }).ctxInterrupt c 3
      else m) m

/-- An event of this package's own, written here alone. -/
def Machine.localEvent (m : Machine) (code : Nat) (detail : BitVec 8) (tag : Nat) (tenant : Word) : Machine :=
  m.writeEvent { code := BitVec.ofNat 8 code, detail := detail, tag := tag, node := m.node, scale := 0, time := m.time.now,
                 tenant := tenant, topoGen := m.hly.reg.topoGen }

/-- Binding a partition frees the FINAL contexts left in its range: each is counted, and one record for each slice they belonged to reports them.
CTX_EVENT stays, for only CREATE and a power cycle clear it (06 R204, Table 6.17). -/
def Machine.discardFinals (m : Machine) (i : Nat) : Machine :=
  let l := (List.range 64).filter fun c => (m.ctxAt c).base.life == .final && m.ctxPart c == i
  let slices := (l.map fun c => ((m.ctxAt c).base.tag, (m.ctxAt c).base.tenant)).eraseDups
  let m := slices.foldl (fun m e => m.localEvent 0x0A 0 e.1 e.2) m
  l.foldl (fun m c =>
    let m := m.modBase c fun b => { CtxBase.reset with event := b.event }
    { m with part := { m.part with meterLost := satAdd32 m.part.meterLost 1 } }) m

/-- Whether no partition of this package is in use (06 R178). -/
def Machine.noneInUse (m : Machine) : Bool := (List.range 8).all fun i => (m.partAt i).state == .free

/-- Drop the binding of a partition whose slice was never installed here. -/
def Machine.unbindPart (m : Machine) (tag : Nat) : Machine :=
  (List.range 8).foldl (fun m i =>
    let p := m.partAt i
    if p.tag = tag ∧ p.state = .bound ∧ !p.live then m.setPart i { PartRec.reset with scrubMib := p.scrubMib } else m) m

/-- Bind a partition to a placed slice (06 R178, R188, R192): a partition that is bound refuses another slice. A binding of the same slice that an
earlier result of its PLACE job made goes. -/
def Machine.bindPart (m : Machine) (e : BindEntry) : Machine :=
  let m := m.unbindPart e.tag
  let p := m.partAt e.index
  if p.state = .free ∧ (m.noneInUse ∨ m.part.log2k = e.log2k) then
    let m := { m with part := { m.part with log2k := e.log2k } }
    let m := m.discardFinals e.index
    m.setPart e.index { PartRec.reset with state := .bound, tag := e.tag, ctxMax := e.ctxMax, tenant := e.tenant }
  else m

/-- Fill the bank of a prepare from records of the database at its generation (04 R129, 05 R142); an extra epoch's holds the tables in force
(04 R118). -/
def Machine.fillBank (m : Machine) (pr : Prepare) (nodes : List NodeRec) (links : List LinkRec) : Machine :=
  let b : Bank := if pr.same then { m.activeBank with prep := { m.activeBank.prep with epoch := pr.epoch } }
    else { valid := true, gen := pr.gen, cols := m.hly.reg.cols.toNat, rows := m.hly.reg.rows.toNat, nodes := nodes, links := links, prep := pr }
  let m := m.modHly fun h => { h with prepared := true }
  if pr.epoch.toNat % 2 = 0 then { m with hly := { m.hly with bank0 := b, prepWait := none } }
  else { m with hly := { m.hly with bank1 := b, prepWait := none } }

/-! ### The stages of an epoch (04 R129–R132) -/

/-- The number of the master's next epoch (04 R118, R128). -/
def Machine.nextEpoch (m : Machine) : BitVec 16 :=
  match m.hly.work.nextEpoch with
  | some e => e
  | none => if m.hly.reg.installed then m.hly.reg.epoch + 1 else 1

/-- The packages whose READY the master awaits: the admitted reachable ones, but one marked late (04 R129, R131). -/
def Machine.awaited (m : Machine) : List NodeId :=
  let w := m.hly.work
  let base := if w.extraNodes.isEmpty then m.component else w.extraNodes
  base.filter fun n => !(w.late.contains n) && m.reachable n

/-- The master sends the prepare down the spanning tree and prepares its own bank, from the records as they stood at the generation
(04 R129). -/
def Machine.sendPrepare (m : Machine) : Machine :=
  let e := m.nextEpoch
  let m := m.modWork fun w => { w with phase := .preparing, epoch := e, ready := [] }
  let dsts := m.awaited
  let m := m.tellKids m.node (.prepare ((dsts.filter (· != m.node)).map fun n => (n, m.prepareFor e n)))
  if dsts.contains m.node then
    (m.fillBank (m.prepareFor e m.node) m.hly.work.fixedNodes m.hly.work.fixedLinks).modWork fun w => { w with ready := [m.node] }
  else m

/-- A REPLAN job (05 R162). -/
def replanJob (all : Bool) (deadlineNs : Nat) : Job :=
  { placeJob 0 .empty false true with kind := .replan, all := all, deadlineNs := deadlineNs }

/-- Queue a planner job. -/
def Machine.pushJob (m : Machine) (j : Job) : Machine := { m with tkp := { m.tkp with queue := m.tkp.queue ++ [j] } }

/-- Queue the PLACE jobs that an aborted prepare sends back: they run after the new REPLAN (05 R170). -/
def Machine.pushRerun (m : Machine) : Machine :=
  (m.hly.work.rerun.foldl (fun m j => m.pushJob j) m).modWork fun w => { w with rerun := [] }

/-- Move the epoch work on as far as it goes: each step completes before the next begins (04 R129). An extra epoch, whose tables stay, needs no
planner (04 R118). -/
def Machine.advanceN (m : Machine) : Nat → Machine
  | 0 => m
  | k + 1 =>
    let w := m.hly.work
    match w.phase with
    | .fixing =>
      if m.isCommitted w.fixedSeq then
        if (w.needReplan ∨ !(m.plannedTags.isEmpty)) ∧ w.extraNodes.isEmpty then
          (m.pushJob (replanJob w.replanAll w.replanNs)).modWork fun w => { w with phase := .planning }
        else (m.pushRerun.modWork fun w => { w with phase := .guarded }).advanceN k
      else m
    | .guarded => if w.guardDone then m.sendPrepare.advanceN k else m
    | .preparing =>
      if m.awaited.all fun n => w.ready.contains n then
        let m := (m.modWork fun w => { w with phase := .timing, switchAt := m.time.now + 50000 }).replicate
        (m.modWork fun w => { w with fixedSeq := m.hly.repl.seq }).advanceN k
      else m
    | .timing =>
      if m.isCommitted w.fixedSeq then
        let m := m.tellAll m.awaited (.commit w.epoch w.switchAt)
        let m := if m.hly.reg.prepared then { m with hly := { m.hly with commitAt := some (w.epoch, w.switchAt) } } else m
        m.modWork fun w => { w with phase := .committed }
      else m
    | _ => m

/-- Move the epoch work on. -/
def Machine.advance (m : Machine) : Machine := m.advanceN 6

/-- The generation that a collection fixes: one more than the last, or the joined one, which is prepared from as it stands (04 R118, R123). -/
def Machine.fixGen (m : Machine) : Word := if m.hly.work.joined then m.hly.reg.topoGen else m.hly.reg.topoGen + 1

/-- Flood the generation that has been fixed: its changed records, or after a join the whole database (04 R118, R123). -/
def Machine.floodGen (m : Machine) (base : Word) : Machine :=
  m.tellAll m.otherNodes (if m.hly.work.joined then
    match m.deltaOf 0 with
    | .delta h _ _ => .delta h m.hly.db.nodes m.hly.db.links
    | x => x
  else m.deltaOf base)

/-- This package's own record in its database has code 0x6: the master shares its node ID, and the election runs again without it (04 R110). -/
def Machine.ownDuplicate (m : Machine) : Bool :=
  m.hly.reg.admitted && m.hly.db.nodes.any fun r => r.node == m.node && r.uid == m.fuse.uid && r.admission == 6

/-- The 50 µs of collection end: the generation is fixed, flooded and committed to the standby (04 R123, R124, R129). -/
def Machine.closeCollection (m : Machine) : Machine :=
  let w := m.hly.work
  if w.phase = .collecting then
    let old := m.hly.db
    let gen := m.fixGen
    let base := m.hly.reg.topoGen
    let m := w.changes.foldl (fun m c => m.applyChange c) m
    let m := m.modDb fun d =>
      let d := HlyDb.settle old d gen
      { d with time := m.time.now, nodes := d.nodes.map fun r => if gen.toNat < r.changeGen.toNat then { r with changeGen := gen } else r }
    let m := m.modHly fun h => { h with topoGen := gen }
    let m := (m.modHly fun h => { h with reduced := m.reducedFlag }).floodGen base
    let back := (m.hly.db.nodes.filter fun r => r.state != 3 && old.nodes.any fun x => x.node == r.node && x.uid == r.uid && x.state == 3).map
      (·.node)
    if m.ownDuplicate then ((m.modHly fun h => { h with admitCode := 6, admitted := false }).raise 498 0).elect
    else
      let m := (m.modWork fun w =>
        { w with changes := [], after := w.after ++ w.pendingAfter, pendingAfter := [], planned := []
                 needReplan := w.needReplan || w.wantReplan, replanAll := w.replanAll || w.wantAll
                 replanNs := if w.wantNs = 0 then w.replanNs else w.wantNs, wantReplan := false, wantAll := false, wantNs := 0
                 joined := w.joined && !(w.extraNodes.isEmpty), fixedNodes := m.hly.db.nodes, fixedLinks := m.hly.db.links }).replicate
      let m := m.modWork fun w => { w with phase := .fixing, fixedSeq := m.hly.repl.seq }
      (back.foldl (fun m n => m.memberBack n) m).advance
  else m

/-- A REPLAN's result of any grade from 0x0 to 0x3 is installed (05 R171): the prepare follows at once. -/
def Machine.replanDone (m : Machine) : Machine :=
  if m.hly.work.phase = .planning then
    let m := { m with tkp := { m.tkp with rampPlan := some m.tkp.rampWant } }
    (m.pushRerun.modWork fun w => { w with phase := .guarded, planned := m.plannedTags }).advance
  else m

/-- A package's READY is late, or it has not prepared an epoch that is committed: abort while that may still be, mark it draining, and prepare the
same epoch again without it (04 R131). -/
def Machine.readyLate (m : Machine) (n : NodeId) : Machine :=
  let w := m.hly.work
  if m.awaited.contains n ∧ ((w.phase = .preparing ∧ !(w.ready.contains n)) ∨ w.phase = .committed) then
    let m := if w.phase = .preparing then m.abortPrepare else m
    let m := m.modWork fun w => { w with late := w.late ++ [n] }
    (m.memberGone n 0x04).submit (.nodeState n 1)
  else m

/-- The accepted results in hand that no prepare in flight carries and that placed a member on a package now lost are placed again
(06 R207). -/
def Machine.placeAgain (m : Machine) (n : NodeId) : Machine :=
  let w := m.hly.work
  let hit := fun (a : AfterSwitch) => match installTag a with
    | some e => (m.sliceMembers e.1).contains n
    | none => false
  let open' := if inFlight w.phase || w.phase == .committed then w.pendingAfter else w.after ++ w.pendingAfter
  let tags := (open'.filter hit).filterMap installTag
  let mine := fun (t : Nat) => tags.any fun e => e.1 == t
  let keep := fun (l : List AfterSwitch) => l.filter fun a => !((installTag a).any fun e => mine e.1)
  let jobs := tags.map fun t => placeJob t.1 (m.sliceAt t.1).req (!t.2) m.fullAuthority
  let m := tags.foldl (fun m t => if t.2 then m.modSlice t.1 fun r => { r with state := .placing } else m) m
  let m := { m with tkp := { m.tkp with held := m.tkp.held.filter (fun r => !(mine r.tag))
                                        heldClaims := m.tkp.heldClaims.filter fun c => !(mine c.tag) } }
  m.modWork fun w => { w with after := keep w.after, pendingAfter := keep w.pendingAfter, rerun := w.rerun ++ jobs }

/-! ### After the switch -/

/-- Take the port of this package down by command (04 R137). -/
def Machine.disablePort (m : Machine) (p : Nat) : Machine :=
  let m := m.handover p
  let m := m.modPort p fun r => { r with train := { r.train with disabled := true } }
  m.portDown p 0x0D

/-- Fully train a port of this package (03 R90). -/
def Machine.trainPort (m : Machine) (p : Nat) (cable : Option CableRead) : Machine :=
  match cable with
  | some c => if (m.port p).stat.state = .active ∨ (m.port p).stat.state = .retrain then
      ((m.handover p).enterDetect p c).floodOwn else m
  | none => m.tell m.node (.fullTrain p)

/-- Retire a slice once every reachable member whose partition is still bound is scrubbed, or has reported its failure, and its release epoch has
switched (06 R198, R208). -/
def Machine.tryRetire (m : Machine) (tag : Nat) : Machine :=
  let r := m.sliceAt tag
  let left := (m.sliceMembers tag).filter fun n => m.reachable n && m.stillBound tag n && !(r.scrubs.contains n)
  if r.state = .releasing ∧ r.released ∧ left.isEmpty then (m.setSlice tag { r with state := .retired }).replicate else m

/-- Once every reachable member has reported its contexts FINAL the master commits RELEASING; then each member begins its scrub, the command ends,
and the release epoch follows (06 R198). -/
def Machine.tryRelease (m : Machine) (tag : Nat) : Machine :=
  let r := m.sliceAt tag
  let left := (m.sliceMembers tag).filter fun n => m.reachable n && m.stillBound tag n && !(r.finals.contains n)
  if r.state = .destroying ∧ left.isEmpty then
    (m.setSlice tag { r with state := .releasing }).commitThen
      [.send (m.sliceMembers tag) (.releaseBegin tag), sliceEnd 0 [], .nextEpoch .none [.sliceReleased tag]]
  else m

/-- The master marks a package absent (04 R134): at once in its database, for the next epoch's routes; the owners of its slices are told (06 R206);
a prepare that installs a slice on it is aborted, and a result not yet carried is placed again (06 R207); it is no longer awaited by a slice that is
being destroyed (06 R198); a lost standby is replaced (04 R116). -/
def Machine.markAbsent (m : Machine) (n : NodeId) : Machine :=
  if m.isMaster ∧ n ≠ m.node ∧ (m.nodeRec n).any (fun r => r.state != 3) then
    let m := (m.stampNodes fun r => if r.node = n then { r with state := 3 } else r).memberGone n 0x03
    let m := m.renewStandby n
    let inPlan := m.hly.work.after.any fun a => match installTag a with
      | some (t, _) => (m.sliceMembers t).contains n
      | none => false
    let m := m.placeAgain n
    let m := if inPlan ∧ inFlight m.hly.work.phase then m.abortPrepare else m
    (tkeys m.slc.recs).foldl (fun m tag => (m.tryRelease tag).tryRetire tag) m
  else m

/-- The grade of a slice's reservations: that of the jobs that made them, and at least 0x1 at a factor above 256 or on a sample; 0x3 with a demand
unreserved (05 R168, Table 5.4). -/
def gradeOf (rs : List Resv) (tag : Nat) (dflt : Nat) : Nat :=
  match rs.filter fun r => r.tag == tag with
  | [] => dflt
  | r :: t =>
    let l := r :: t
    if l.any fun r => !r.reserved then 3
    else max (min 2 (maxOver (·.grade) l)) (flag (l.any fun r => decide (256 < r.factor) || r.sampled))

/-- What a placed slice's command returns: grade, tag, origin and factor (06 Table 6.5). -/
def placedEnd (tag : Nat) (r : SliceRec) : MasterAct :=
  sliceEnd (r.grade * 256 + tag * 65536) [word [(0, (nodeAt 0 r.origin.1 r.origin.2.1 r.origin.2.2).toNat), (16, r.factor)]]

/-- What the master does after its epoch has switched. -/
def Machine.afterOne (m : Machine) (a : AfterSwitch) : Machine :=
  match a with
  | .portDown n p => if n = m.node then m.disablePort p else m.tell n (.portOrder 0x02 p)
  | .fullTrain n p fn fp cable =>
    let m := if n = m.node then m.trainPort p cable else m.tell n (.fullTrain p)
    if fn = m.node then m.trainPort fp cable else m.tell fn (.fullTrain fp)
  | .drained n => m.submit (.nodeState n 2)
  | .sliceActive tag =>
    let r := m.sliceAt tag
    let st := if r.grade = 3 then SliceState.degraded else .active
    let r := { r with state := st, installGen := m.hly.reg.topoGen, createTime := m.time.now }
    (m.setSlice tag r).commitThen [.event 0x01 (detailByte r.grade 0) tag 0xFFFF r.factor, placedEnd tag r]
  | .sliceReserved tag =>
    let r := m.sliceAt tag
    let rs := m.tkp.resv.filter fun x => x.tag == tag
    let g := gradeOf rs tag 0
    let st := if r.state = .active ∧ g = 3 then SliceState.degraded
      else if r.state = .degraded ∧ g ≠ 3 ∧ m.lostMembers tag = 0 then .active else r.state
    let back := r.state = .degraded ∧ st = .active
    let r := { r with state := st, grade := g, factor := max 256 (maxOver (·.factor) rs), demands := rs.map (·.demand) }
    (m.setSlice tag r).commitThen
      ((if back then [.event 0x02 (detailByte g 0) tag 0xFFFF r.factor] else []) ++ [placedEnd tag r])
  | .sliceReleased tag =>
    let r := m.sliceAt tag
    let m := m.setSlice tag { r with released := true, releasedAt := m.time.now, demands := [] }
    { m with slc := { m.slc with peers := m.slc.peers.filter fun e => e.tag != tag } }.replicate.tryRetire tag
  | .peerDone => m.finishSlice 0 []
  | .finishEpoch => m.finishCmd 0 [m.hly.reg.epoch.setWidth 32] []
  | .finishReplan => m.finishCmd 0 [BitVec.ofNat 32 m.tkp.grade, m.hly.reg.epoch.setWidth 32] []

/-- Slices that a REPLAN regraded: SCALE is 0 when the factor is unchanged (06 Tables 6.8, 6.9). -/
def Machine.regradeSlices (m : Machine) (tags : List Nat) : Machine :=
  tags.foldl (fun m tag =>
    let r := m.sliceAt tag
    let mine := m.tkp.resv.filter fun x => x.tag == tag
    let g := gradeOf mine tag r.grade
    let f := max 256 (maxOver (·.factor) mine)
    if mine.isEmpty ∨ (g = r.grade ∧ f = r.factor) then m
    else
      let st := if r.state = .active ∧ g = 3 then SliceState.degraded
        else if r.state = .degraded ∧ g ≠ 3 ∧ m.lostMembers tag = 0 then .active else r.state
      (m.setSlice tag { r with grade := g, factor := f, state := st }).commitThen
        [.event 0x02 (detailByte g 0) tag 0xFFFF (if f = r.factor then 0 else f)]) m

/-- Whether a change in hand asks for a new epoch: the second end's report of a link that is out already does not (04 R133). -/
def asksEpoch (c : Change) : Bool :=
  match c with
  | .echo _ => false
  | _ => true

/-- The extra epoch of a join has switched: its tables stayed, and the first pod-wide epoch follows from the joined generation (04 R118). -/
def Machine.extraDone (m : Machine) (passed : Bool) : Machine :=
  m.modWork fun w => { w with phase := .collecting, guardDone := passed, extraNodes := [], nextEpoch := w.finalEpoch, finalEpoch := none, ready := [] }

/-- HELD slots of the results that the epoch carries become OWNED and the after-actions run, at the master (05 R152, R171; 06 R192, R198). -/
def Machine.masterSwitched (m : Machine) : Machine :=
  let w := m.hly.work
  if !(w.extraNodes.isEmpty) then m.extraDone false
  else
    let rs := m.nextResv
    let cs := m.nextClaims
    let mine := m.carried
    let partial' := (m.tkp.replanHeld ++ m.tkp.held.filter fun r => mine.contains r.tag).any fun r => !r.reserved
    let m := { m with tkp := { m.tkp with
      resv := rs, claims := cs, held := m.tkp.held.filter (fun r => !(mine.contains r.tag))
      heldClaims := m.tkp.heldClaims.filter (fun c => !(mine.contains c.tag)), replanHeld := [], replanClaims := []
      ramp := m.nextRamp, rampPlan := none } }
    let m := if partial' then m.raise 505 0 else m
    let m := (m.modWork fun w =>
      { w with phase := if w.changes.any asksEpoch then .collecting else .idle, guardDone := false, after := [], late := [],
               planned := [], nextEpoch := none, ready := [], needReplan := false, replanAll := false, replanNs := 0 }).replicate
    let m := m.regradeSlices w.planned
    let m := w.after.foldl (fun m a => m.afterOne a) m
    m.memberReturn

end Sys2Proof.Machine
end

