-- ==== Sys2Proof/Machine/ReefOps.lean ====
section
/-!
DEFINITION. What Reef decides about steps: contracts, rates, rises, pre-ramps and releases (02 R57, R65; 13 R368–R384).
-/
namespace Sys2Proof.Machine

/-- Compute die n under Reef. -/
def Machine.rdie (m : Machine) (n : Nat) : ReefDie := tget .reset m.reef.dies n
/-- Change compute die n under Reef. -/
def Machine.modRdie (m : Machine) (n : Nat) (f : ReefDie → ReefDie) : Machine :=
  { m with reef := { m.reef with dies := tset .reset m.reef.dies n (f (m.rdie n)) } }
/-- Partition i under Reef. -/
def Machine.rpart (m : Machine) (i : Nat) : ReefPart := tget .reset m.reef.parts i
/-- Change partition i under Reef. -/
def Machine.modRpart (m : Machine) (i : Nat) (f : ReefPart → ReefPart) : Machine :=
  { m with reef := { m.reef with parts := tset .reset m.reef.parts i (f (m.rpart i)) } }
/-- Change Reef. -/
def Machine.modReef (m : Machine) (f : Reef → Reef) : Machine := { m with reef := f m.reef }

/-- Whether a step of a context is armed or running. -/
def Machine.stepArmed (m : Machine) (c : Nat) : Bool := (m.ctxAt c).xc.run.isSome

/-- Whether a contract is live on a die: a partition with tiles there has a step armed or running (02 R57). -/
def Machine.dieLive (m : Machine) (d : Nat) : Bool :=
  (tkeys m.ctx).any fun c => m.stepArmed c && (m.partDies (m.ctxPart c)).contains d

/-- The core ceiling in force, in mV (02 R56). -/
def Machine.ceiling (m : Machine) : Nat := m.rig 0x07

/-- The lowest set point that a die may have: 720 mV while a contract is live, 600 mV otherwise (13 R369, 02 Table 2.4). -/
def Machine.vmin (m : Machine) (d : Nat) : Nat := if m.dieLive d then 720 else 600

/-- REEF_VTARGET_n: the ceiling in force until it is written (13 Table 13.6). -/
def Machine.vtarget (m : Machine) (d : Nat) : Nat := ((m.rdie d).vtarget).getD m.ceiling

/-- The set point that Reef aims at: the target clamped, less what the cap loop took, never below the range; the idle
minimum once Reef has lowered an idle die (13 R369, R371). -/
def Machine.vaim (m : Machine) (d : Nat) : Nat :=
  if (m.rdie d).idleLow ∧ !(m.dieLive d) then 600
  else max (m.vmin d) (min m.ceiling (m.vtarget d) - (m.rdie d).capDrop)

/-- The cap in force: the least of the grade's, the rigging image's and the package share (13 R373), on a card at
most 900 W (20 R548). Before the first tray report there is no share. -/
def Machine.capInForce (m : Machine) : Nat :=
  let c := min (if m.pins.form then min 900 m.gradeCap else m.gradeCap) (m.rig 0x06)
  if m.reef.tray.at_.isNone then c else min c m.reef.tray.share

/-- The ledger budget B of the assignment in force: the largest among the partitions' (13 R377, R389). -/
def Machine.budgetInForce (m : Machine) : Nat := ((m.reef.parts.map fun e => e.2.budget).foldl max 0)

/-- T_UP in force: a tenth of B in FALLBACK (13 R391). -/
def Machine.tUp (m : Machine) : Nat := if m.reef.fallback then m.budgetInForce / 10 else m.reef.tray.tUp
/-- T_DOWN in force: 100 W/µs in FALLBACK (13 R391). -/
def Machine.tDown (m : Machine) : Nat := if m.reef.fallback then 100 else m.reef.tray.tDown

/-- Whether f of R389 is below 1: SCALED. -/
def Machine.rampScaled (m : Machine) : Bool :=
  (m.reef.tray.at_.isSome || m.reef.fallback) && decide (m.tUp < m.budgetInForce)

/-- The ramp-up rate in force, in W/µs: the assigned rate, times T_UP / B while that is below 1 (13 R389). -/
def Machine.rateUp (m : Machine) : Nat :=
  if m.rampScaled then m.reef.rampUp * m.tUp / max 1 m.budgetInForce else m.reef.rampUp

/-- The ramp-down rate in force: RAMP_DOWN clamped to floor(T_DOWN / 16) (13 R388). -/
def Machine.rateDown (m : Machine) : Nat :=
  if m.reef.tray.at_.isNone && !m.reef.fallback then m.rig 0x0D else min (m.rig 0x0D) (m.tDown / 16)

/-- The load of a partition: attributed power and ballast (13 R368). -/
def Machine.load (m : Machine) (i : Nat) : Nat := (m.rpart i).attributed + (m.rpart i).ballast

/-- STEP_W of a context's armed step. -/
def Machine.stepW (m : Machine) (c : Nat) : Nat :=
  match (m.ctxAt c).xc.run, (m.ctxAt c).xc.image with
  | some r, some b => ((b.img.steps[r.step]?).map (·.stepW)).getD 0
  | _, _ => 0

/-- The rise D of a context's armed step (13 R375). -/
def Machine.rise (m : Machine) (c : Nat) : Nat := m.stepW c - m.load (m.ctxPart c)

/-- Whether a hold stops every release and pre-ramp of a partition: cap hold, ballast hold, a thermal hold on one of its
dies, or a power-off notice (02 R65; 13 R374, R383, R394). -/
def Machine.held (m : Machine) (i : Nat) : Bool :=
  m.reef.capHold || m.reef.ballastHold || m.reef.noticed.isSome || m.ttl.noRelease || (m.partDies i).any fun d => bitAt m.corner.thermHold d

/-- Whether a partition's rails carry its contract: each of its dies at or above 0.72 V with the undervoltage monitor clear
for 2 µs, and no regulator fault (13 R370, R372). -/
def Machine.railsOk (m : Machine) (i : Nat) : Bool :=
  (m.partDies i).all fun d => !(m.rdie d).hold && match (m.rdie d).okSince with
    | some t => decide (t.toNat + 2000 ≤ m.ns)
    | none => false

/-- The earliest instant that the spacing in force allows the next release of a context's image (05 R167, 13 R378). -/
def Machine.earliestRelease (m : Machine) (c : Nat) : Nat :=
  match (m.ctxAt c).xc.lastRelease with
  | some t => t.toNat + (m.rpart (m.ctxPart c)).spacingNs
  | none => 0

/-- Whether Reef releases a context's armed step now (13 R378, R381). -/
def Machine.releasable (m : Machine) (c : Nat) : Bool :=
  let i := m.ctxPart c
  !(m.held i) && m.railsOk i && decide (m.earliestRelease c ≤ m.ns) &&
    (m.rise c == 0 || ((m.rpart i).ready && (m.rpart i).owner == some c))

/-- How long a pre-ramp of D watts takes, in ns, window breaks included (13 R375, R377). -/
def Machine.preRampNs (m : Machine) (i d : Nat) : Nat :=
  let t := ceilDiv d (max 1 m.rateUp)
  let p := m.rpart i
  if p.groupsM1 = 0 ∨ t ≤ p.windowUs then t * 1000
  else ((t - 1) / max 1 p.windowUs * ((p.groupsM1 + 1) * p.windowUs) + ((t - 1) % max 1 p.windowUs + 1)) * 1000

/-- Whether a pre-ramp runs on the package: Reef runs at most one at a time (13 R379). -/
def Machine.preRampRuns (m : Machine) : Bool := m.reef.parts.any fun e => e.2.phase == 2

/-- The contexts whose armed steps wait for a pre-ramp, in arm order, lower partitions first (13 R379). -/
def Machine.armOrder (m : Machine) : List Nat :=
  let waiting := (tkeys m.ctx).filter fun c => match (m.ctxAt c).xc.run with
    | some r => !r.released && decide (0 < m.rise c) && !((m.rpart (m.ctxPart c)).ready && (m.rpart (m.ctxPart c)).owner == some c)
    | none => false
  let key := fun c => (((m.ctxAt c).xc.run).map (·.armSeq)).getD 0 * 64 + c
  waiting.foldl (fun acc x => (acc.takeWhile fun y => decide (key y ≤ key x)) ++ x ::
    (acc.dropWhile fun y => decide (key y ≤ key x))) []

/-- Begin or resume a pre-ramp of partition i at this instant, when R378 and R379 let it. -/
def Machine.beginPreRamp (m : Machine) (i : Nat) : Machine :=
  match m.armOrder.find? fun c => m.ctxPart c == i with
  | none => m
  | some c =>
    let p := m.rpart i
    let first := m.armOrder.find? fun x => !((m.rpart (m.ctxPart x)).assigned == false)
    if !p.assigned || m.held i || (m.preRampRuns && p.phase != 2) || first != some c then m
    else if m.ns + m.preRampNs i (m.rise c) < m.earliestRelease c then m
    else m.modRpart i fun p => { p with phase := 2, ramping := true, owner := some c, target := m.stepW c, ready := false }

/-- The armed step of a context is on Reef's list; ballast that is decaying decays on until its pre-ramp begins (13 R370, R378, R382). -/
def Machine.reefArm (m : Machine) (c : Nat) : Machine :=
  let i := m.ctxPart c
  let m := m.modReef fun r => { r with armSeq := r.armSeq + 1 }
  if m.rise c = 0 then m
  else
    let m := m.modRpart i fun p => if p.phase = 0 then { p with phase := 1 } else p
    if (m.rpart i).groupsM1 = 0 then m.beginPreRamp i else m

/-- A step is released: Reef withdraws the ballast as the tiles take up the load, over at most 20 µs (13 R375); another context's
pre-ramp of the partition goes on. -/
def Machine.reefRelease (m : Machine) (c : Nat) : Machine :=
  m.modRpart (m.ctxPart c) fun p =>
    if (p.phase = 2 ∨ p.ready) ∧ p.owner ≠ some c then p
    else { p with phase := 0, ramping := false, ready := false, target := m.stepW c, withdrawUntil := some (m.time.now + 20000) }

/-- Reef catches a step's end: the ballast takes the partition's power at that instant, up to BALLAST_MAX, and decays
(13 R382). -/
def Machine.reefFall (m : Machine) (c : Nat) : Machine :=
  m.modRpart (m.ctxPart c) fun p =>
    let b := min p.attributed (m.rig 0x0E)
    { p with ballast := b, attributed := 0, phase := if b = 0 then 0 else 3, ramping := false, ready := false,
             withdrawUntil := none, owner := some c }

/-- An armed step is withdrawn by a fence: its pre-ramp stops and its ballast decays (13 R382). -/
def Machine.reefCancel (m : Machine) (c : Nat) : Machine :=
  m.modRpart (m.ctxPart c) fun p =>
    if p.owner = some c then
      { p with phase := if p.ballast = 0 then 0 else 3, ramping := false, ready := false, withdrawUntil := none }
    else if p.phase = 1 then { p with phase := 0 } else p

/-- A die whose contract ends keeps the time, for the 1 ms of R371. -/
def Machine.reefIdle (m : Machine) (i : Nat) : Machine :=
  (m.partDies i).foldl (fun m d => if m.dieLive d then m else m.modRdie d fun r => { r with idleSince := m.time.now }) m

end Sys2Proof.Machine
end

