-- ==== Sys2Proof/Machine/Execution.lean ====
section
/-!
DEFINITION. Steps: binding, arming, gates, completion records, violations and their containment (09 R271–R292; 10 R309,
R314), and the commands that do it.
-/
namespace Sys2Proof.Machine

/-- The execution registers and image of a context. -/
def Machine.xc (m : Machine) (c : Nat) : Xc := (m.ctxAt c).xc
/-- Change the execution registers and image of a context. -/
def Machine.modXc (m : Machine) (c : Nat) (f : Xc → Xc) : Machine := m.modCtx c fun r => { r with xc := f r.xc }
/-- Change a context's armed or running step. -/
def Machine.modRun (m : Machine) (c : Nat) (f : RunStep → RunStep) : Machine :=
  m.modXc c fun x => { x with run := x.run.map f }

/-- The state that an image shows and is in (09 R283): BINDING while a BIND or RESTART that its state allows is in progress, UNBINDING while an
UNBIND is. -/
def Xc.shown (x : Xc) : XcState :=
  if x.busy then match x.op, x.state with
    | 1, .unbound => .binding
    | 3, .ready | 3, .halted => .binding
    | 2, .ready | 2, .running | 2, .halted => .unbinding
    | _, s => s
  else x.state

/-- The code of an image state (09 Table 9.11). -/
def XcState.code : XcState → Nat
  | .unbound => 0
  | .binding => 1
  | .ready => 2
  | .running => 3
  | .halted => 4
  | .unbinding => 5

/-! ### Completion records (09 R288, 06 R561) -/

/-- A completion record with PHASE 0 (09 Table 9.13). -/
def stepRecord (step flags reason numeric tile : Nat) (number release : DWord) (elapsed : Nat) (arg : Word) : List Byte :=
  leBytes 2 step ++ leBytes 2 flags ++ leBytes 1 reason ++ leBytes 1 numeric ++ leBytes 2 tile ++
  leBytes 8 number.toNat ++ leBytes 8 release.toNat ++ leBytes 4 (min 0xFFFFFFFF elapsed) ++ leBytes 4 arg.toNat

/-- A record with its PHASE bit, bit 15 of the word at byte 2. -/
def withPhase (r : List Byte) (phase : Bool) : List Byte :=
  if phase then r.set 3 ((r.getD 3 0) ||| 0x80) else r

/-- Write a record at a context's completion ring, when it has room beside the reserved entries: PHASE alternates with each
pass, and the tail is taken modulo the ring's size (09 R288; 06 R561). -/
def Machine.cqWrite (m : Machine) (c : Nat) (r : List Byte) : Machine :=
  let x := m.xc c
  let i := x.cqTail % max 1 x.cqSize
  let m := m.hostWrite (x.cqBase.toNat + 32 * i) (withPhase r x.cqPhase)
  let m := m.modXc c fun x =>
    { x with cqTail := (i + 1) % max 1 x.cqSize, cqPhase := if i + 1 = x.cqSize then !x.cqPhase else x.cqPhase }
  m.ctxInterrupt c 0

/-- Whether a context's completion ring has a free entry beside `reserved` ones (09 R284, 06 R561). -/
def Machine.cqRoom (m : Machine) (c reserved : Nat) : Bool :=
  let x := m.xc c
  x.cqSize != 0 && !(ringFull x.cqSize x.cqHead x.cqTail reserved)

/-- Write the records that a full ring has kept waiting, as far as it has room (09 "What if the completion ring is full"). -/
def Machine.cqFlush (m : Machine) (c : Nat) : Machine :=
  (m.xc c).owed.foldl (fun m r =>
    if m.cqRoom c (if (m.xc c).run.isSome then 1 else 0) then (m.modXc c fun x => { x with owed := x.owed.drop 1 }).cqWrite c r
    else m) m

/-- Complete a queued step with CANCELLED (09 R287, R289). -/
def Machine.cancelStep (m : Machine) (c : Nat) (q : QStep) : Machine :=
  (m.modXc c fun x => { x with owed := x.owed ++ [stepRecord q.step 8 0 0 0xFFFF 0 0 0 q.arg] }).cqFlush c

/-! ### Load, tiles, streams (09 R282, R289) -/

/-- Zero the image's tiles and place their code and CONST records (09 R282). -/
def Machine.loadImage (m : Machine) (c : Nat) (b : BoundImage) : Machine :=
  let m := (List.range b.img.tiles).foldl (fun m t => m.modTile (m.logical c b t) fun r => { r.zeroed with phase := .idle, lines := [], tokens := [] }) m
  let m := (b.img.recs.zipIdx).foldl (fun m r => m.storeWrite (m.logical c b r.2) r.1.codeLine r.1.code) m
  b.img.consts.foldl (fun m k => m.storeWrite (m.logical c b k.tile) k.line k.data) m

/-- Bind the image's streams to their channels (10 R309): an IN stream takes the channel's DEPTH and sends its credit. -/
def Machine.bindStreams (m : Machine) (c : Nat) (b : BoundImage) : Machine :=
  let m := (b.img.chans.zipIdx).foldl (fun m p =>
    let n := b.streamBase + p.1.ref
    if p.1.kind = 1 then m.modStrm n fun r => { r with state := .bound, channel := p.2, tile := p.1.src }
    else if p.1.kind = 2 then
      (m.modStrm n fun r =>
        { r with state := .bound, channel := p.2, tile := p.1.dst, depth := p.1.depth, credit := p.1.depth - r.landed }).offerCredit n
    else m) m
  ((b.img.colls.zipIdx).zip (m.freeSlotsOf (m.ctxPart c))).foldl (fun m p =>
    let k := p.1.1
    let n := b.streamBase + k.stream
    let ch := (b.img.chans.zipIdx).find? fun x => x.1.kind == 4 && x.1.ref == p.1.2
    let m := m.modStrm n fun r =>
      { r with state := .bound, channel := (ch.map (·.2)).getD 0, tile := (ch.map (·.1.dst)).getD 0 }
    let r := m.collOrder
      { ctx := c, index := p.1.2, stream := n, op := k.op, fmt := k.fmt, red := k.red, bytes := k.bytes, busy := false, data := [],
        supplied := 0, die := 0, members := [], senses := [], parent := none, children := [], got := [], stage := 0, landed := 0 }
    (m.setColl p.2 (some r)).modStrm n fun s => { s with depth := ceilDiv (chunkSize k.bytes r.members.length) 256 }) m

/-- A tile at the end of its current operation: it issues nothing more; what it has offered or issued may still complete
(09 R287; 15 Table 15.5). -/
def TileRec.halted (t : TileRec) : TileRec :=
  { t with phase := .idle, loops := [], tokens := t.tokens.filter fun k => k.offered }

/-- Stop one tile of a step released at `rel` at the end of its current operation; its time is charged up to now. -/
def Machine.stopTile (m : Machine) (c : Nat) (rel : Option Nat) (l : Nat) : Machine :=
  let ph : TilePhase := (m.tileAt l).phase
  let used := if ph = TilePhase.idle ∨ ph = TilePhase.done then 0 else (rel.map fun a => m.ns - max a m.part.meterMark.toNat).getD 0
  (m.meterTile c l used).modTile l TileRec.halted

/-- Stop an image's tiles (09 R287). -/
def Machine.stopTiles (m : Machine) (c : Nat) : Machine :=
  let rel := (m.xc c).run.bind fun r => if r.released then some r.releaseAt.toNat else none
  (m.imageTiles c).foldl (fun m l => m.stopTile c rel l) m

/-- The tiles at work in a context's running step. -/
def Machine.atWork (m : Machine) (c : Nat) : List Nat :=
  (m.imageTiles c).filter fun l => let p : TilePhase := (m.tileAt l).phase; p != .idle && p != .done

/-- Free a context's collective slots (09 R289, 15 R433). -/
def Machine.freeColls (m : Machine) (c : Nat) : Machine :=
  { m with coll := m.coll.filter fun e => match e.2 with
      | some r => r.ctx != c
      | none => false }

/-- Free an image's tiles, allowances, streams and collective slots: UNBOUND (09 R289). -/
def Machine.dropImage (m : Machine) (c : Nat) : Machine :=
  let m := (m.stopTiles c).freeColls c
  let m := (m.imageTiles c).foldl (fun m l => m.modTile l fun t => { t with lines := [], tokens := [] }) m
  let m := (m.streamsOf c).foldl (fun m n => m.unbindStream n) m
  m.modXc c fun x => { x with image := none, state := .unbound, queue := [], run := none, detected := none }

/-- Answer a BIND, UNBIND or RESTART (09 R281). -/
def Machine.xcDone (m : Machine) (c status : Nat) : Machine :=
  (m.modXc c fun x => { x with status := status, done := true, busy := false }).ctxInterrupt c 2

/-- Answer a BIND or RESTART: a status other than OK raises XC_BIND_FAIL (09 Table 9.14). -/
def Machine.bindDone (m : Machine) (c status : Nat) : Machine :=
  let m := m.xcDone c status
  if status = 0 then m else m.raise 531 0

/-! ### Gates and arming (09 R271, R284; 10 R314) -/

/-- Whether one channel's gate lets `k` tokens through (10 R314). -/
def Machine.gateOk (m : Machine) (b : BoundImage) (ch : ChanRec) (k : Nat) : Bool :=
  let strm := m.strmAt (b.streamBase + ch.ref)
  let coll := m.collOf (b.streamBase + ((b.img.colls[ch.ref]?).map (·.stream)).getD 0)
  let bound := fun (n : Nat) => (m.strmAt n).state == .bound
  match ch.kind with
  | 1 => strm.state == .bound && decide (k ≤ strm.credit)
  | 2 => strm.state == .bound && decide (k ≤ strm.landed)
  | 3 => coll.any fun e => bound e.2.stream && !e.2.busy && e.2.landed == 0
  | 4 => coll.any fun e => bound e.2.stream && !e.2.busy && decide (k ≤ e.2.landed)
  | _ => true

/-- Whether every gate of a step program is open. -/
def Machine.gatesOk (m : Machine) (b : BoundImage) (s : StepProg) : Bool :=
  s.counts.all fun p => match b.chan? p.1 with
    | some ch => m.gateOk b ch p.2
    | none => true

/-- The collective slot of a channel. -/
def Machine.chanColl (m : Machine) (b : BoundImage) (ch : ChanRec) : Option (Nat × CollRec) :=
  m.collOf (b.streamBase + ((b.img.colls[ch.ref]?).map (·.stream)).getD 0)

/-- What arming takes from the gates: OUT credits are deducted, a COLL_OUT channel begins its collective, and inbound tokens
count as acknowledged (10 R314). -/
def Machine.takeGates (m : Machine) (c : Nat) (b : BoundImage) (s : StepProg) : Machine :=
  s.counts.foldl (fun m p => match b.chan? p.1 with
    | some ch =>
      if ch.kind = 1 then m.takeCredits (b.streamBase + ch.ref) p.2
      else if ch.kind = 3 then match m.chanColl b ch with
        | some (k, r) => m.collStart k r
        | none => m
      else if ch.kind = 0 then m
      else m.modRun c fun r => { r with chans := tset .reset r.chans p.1 { ChanRun.reset with issued := p.2, acked := p.2 } }
    | none => m) m

/-- Give back the OUT credits of a step that was armed and never released: those that its arming deducted and no credit frame has counted again. -/
def Machine.returnGates (m : Machine) (c : Nat) : Machine :=
  match (m.xc c).run, (m.xc c).image with
  | some r, some b =>
    if r.released then m
    else (((b.img.steps[r.step]?).map (·.counts)).getD []).foldl (fun m p => match b.chan? p.1 with
      | some ch => if ch.kind = 1 then
          m.modStrm (b.streamBase + ch.ref) fun s => { s with credit := s.credit + s.freed, freed := 0 }
        else m
      | none => m) m
  | _, _ => m

/-- As a step ends, free the slots that its inbound channels still hold (09 R276); an OUT stream owes it no token more. -/
def Machine.endSlots (m : Machine) (c : Nat) : Machine :=
  match (m.xc c).run, (m.xc c).image with
  | some r, some b =>
    (((b.img.steps[r.step]?).map (·.counts)).getD []).foldl (fun m p => match b.chan? p.1 with
      | some ch =>
        let left := p.2 - (tget ChanRun.reset r.chans p.1).freed
        if ch.kind = 1 then m.modStrm (b.streamBase + ch.ref) fun s => { s with freed := 0 }
        else if ch.kind = 2 then m.freeSlots (b.streamBase + ch.ref) left
        else if ch.kind = 4 then match m.chanColl b ch with
          | some (k, _) => m.collFree k left
          | none => m
        else m
      | none => m) m
  | _, _ => m

/-- The dies whose monitors are tripped, among a partition's (02 R64). -/
def Machine.trippedDies (m : Machine) (i : Nat) : BitVec 4 :=
  maskOf 4 ((m.partDies i).filter fun d => bitAt m.corner.uv d || bitAt m.corner.ot d)

/-- The step's elapsed time (09 R285). -/
def Machine.elapsed (m : Machine) (r : RunStep) : Nat := m.ns - r.releaseAt.toNat

/-- DUR_NS of a context's running step. -/
def Machine.durNs (m : Machine) (c : Nat) : Nat :=
  match (m.xc c).run, (m.xc c).image with
  | some r, some b => ((b.img.steps[r.step]?).map (·.durNs)).getD 0
  | _, _ => 0

/-- The dies that made a step off-corner, up to and including now (02 R64). -/
def Machine.offDies (m : Machine) (c : Nat) (r : RunStep) : BitVec 4 := r.offCorner ||| m.trippedDies (m.ctxPart c)

/-- The record of a running step that completes (09 Table 9.13). -/
def Machine.runRecord (m : Machine) (c : Nat) (r : RunStep) (v : Option Viol) : List Byte :=
  if r.released then
    let past := decide (m.durNs c < m.elapsed r)
    stepRecord r.step (pack [(0, flag past), (1, flag (m.offDies c r != 0)), (2, flag v.isSome)])
      ((v.map (·.reason)).getD 0) r.flags.toNat ((v.bind (·.tile)).getD 0xFFFF) r.number r.releaseAt (m.elapsed r) r.arg
  else stepRecord r.step 4 ((v.map (·.reason)).getD 0) 0 ((v.bind (·.tile)).getD 0xFFFF) 0 0 0 r.arg

/-- The step ends: its slots are freed, its ballast is caught, its contract ends (09 R276, 13 R382, 02 R57). -/
def Machine.endStep (m : Machine) (c : Nat) : Machine :=
  let m := m.endSlots c
  let m := if ((m.xc c).run.map (·.released)).getD false then m.reefFall c else m.reefCancel c
  (m.modXc c fun x => { x with run := none }).reefIdle (m.ctxPart c)

/-- Complete a queued step: with the violation that stands against it (09 R286), or with CANCELLED. -/
def Machine.endQueued (m : Machine) (c : Nat) (v : Viol) (q : QStep) : Machine :=
  if q.aborted.isSome then
    (m.modXc c fun x => { x with owed := x.owed ++ [stepRecord q.step 4 v.reason 0 (v.tile.getD 0xFFFF) 0 0 0 q.arg] }).cqFlush c
  else m.cancelStep c q

/-- CORNER_BREACH on the dies that made a step off-corner, when it ran beyond its duration (02 R64). -/
def Machine.breach (m : Machine) (c : Nat) (r : RunStep) : Machine :=
  if r.released ∧ m.durNs c < m.elapsed r then (onePositions (m.offDies c r)).foldl (fun m d => m.raise (488 + d) d) m else m

/-- Contain a violation (09 R287): the tiles stop, the step completes with it, every other queued step is cancelled, the image is HALTED,
XC_VIOLATION is raised against the context, and the image's planned streams in progress are reported. With no step armed or running the
violation stands against the first queued step that it names, or else the first. An image that UNBIND is freeing stays so, and is UNBOUND once
its step has completed (09 R289; DEDUCED, log 23). -/
def Machine.contain (m : Machine) (c : Nat) (v : Viol) : Machine :=
  let x := m.xc c
  let flows := m.busyFlows c
  let m := m.stopTiles c
  let m := match x.run with
    | some r => (((m.returnGates c).breach c r).cqWrite c (m.runRecord c r (some v))).endStep c
    | none => m
  let named := if x.run.isSome then none else some ((x.queue.findIdx? fun q => q.aborted.isSome).getD 0)
  let m := (x.queue.zipIdx).foldl (fun m q => m.endQueued c v { q.1 with aborted := if named = some q.2 then some v.ch else none }) m
  let m := m.modXc c fun x =>
    { x with state := if x.state = .unbinding then .unbinding else .halted, queue := [], viol := v, detected := none }
  (m.raiseCtx 530 0 c).reportEach c flows

/-- Detect a violation of an image: the first one stands (09 R286). -/
def Machine.detect (m : Machine) (c : Nat) (v : Viol) : Machine :=
  m.modXc c fun x => if x.image.isSome ∧ x.state ≠ .halted ∧ x.detected.isNone then { x with detected := some v } else x

/-- Finish an UNBIND that waited for a running step (09 R289). -/
def Machine.finishUnbind (m : Machine) (c : Nat) : Machine :=
  if (m.xc c).state = .unbinding then (m.dropImage c).xcDone c 0 else m

/-! ### The commands -/

/-- BIND in its turn (09 R281–R283, R292). -/
def execBind (c : CtxId) (s : State) : Host.Outcome State Fault Refusal :=
  let c := c.val
  let m := s.m
  if (m.xc c).busy ∧ (m.xc c).op = 1 ∧ m.opTurn (.image c) then
    match m.bindCheck c with
    | (_, some b) =>
      let m := m.modXc c fun x =>
        { x with image := some b, state := .ready, next := x.stepBase, queue := [], run := none, lastRelease := none,
                 detected := none }
      let m := m.modBase c fun r => { r with heldTiles := (r.heldTiles ++ m.imageTiles c).eraseDups }
      done s (((m.loadImage c b).bindStreams c b).bindDone c 0)
    | (status, none) => done s (m.bindDone c status)
  else done s m

/-- UNBIND in its turn (09 R289, R292): arming stops, queued steps complete with CANCELLED, and a running step is waited for. -/
def execUnbind (c : CtxId) (s : State) : Host.Outcome State Fault Refusal :=
  let c := c.val
  let m := s.m
  let x := m.xc c
  if x.busy ∧ x.op = 2 ∧ m.opTurn (.image c) then
    if (m.ctxAt c).base.life ≠ .live ∨ m.fenced c ∨ (m.partAt (m.ctxPart c)).state ≠ .bound then done s (m.xcDone c 0x03)
    else if x.image.isNone then done s (m.xcDone c 0x04)
    else
      let m := x.queue.foldl (fun m q => m.cancelStep c q) (m.modXc c fun x => { x with queue := [], state := .unbinding })
      match x.run with
      | some r =>
        if r.released then done s m
        else
          let m := ((m.returnGates c).endStep c).cancelStep c { step := r.step, arg := r.arg, aborted := none }
          done s (m.finishUnbind c)
      | none => done s (m.finishUnbind c)
  else done s m

/-- RESTART in its turn (09 R289, R292): the load runs again and the step number begins at CTX_XC_STEP_BASE. -/
def execRestart (c : CtxId) (s : State) : Host.Outcome State Fault Refusal :=
  let c := c.val
  let m := s.m
  let x := m.xc c
  if x.busy ∧ x.op = 3 ∧ m.opTurn (.image c) then
    if (m.ctxAt c).base.life ≠ .live ∨ m.fenced c ∨ (m.partAt (m.ctxPart c)).state ≠ .bound then done s (m.bindDone c 0x03)
    else match x.image with
      | none => done s (m.bindDone c 0x04)
      | some b =>
        if x.state ≠ .ready ∧ x.state ≠ .halted then done s (m.bindDone c 0x04)
        else if !((m.imageTiles c).all fun l => (m.mapAt l).valid) then done s (m.bindDone c 0x07)
        else
          let m := m.loadImage c b
          done s ((m.modXc c fun x => { x with state := .ready, next := x.stepBase, detected := none }).bindDone c 0)
  else done s m

/-- The offset of a context's register in the BAR0 of a function (18 R508). -/
def pageOffset (f c o : Nat) : Nat := if f = 0 then 0x710000 + c * 0x1000 + o else o

/-- Whether a function reaches the page of a context: the PF, or the VF bound to it while it is LIVE (11 R326). -/
def Machine.reaches (m : Machine) (c f : Nat) : Bool := f == 0 || ((m.ctxAt c).base.func == some f && (m.ctxAt c).base.life == .live)

/-- A write of a context's register by a function: nothing for a function that does not reach the page, a counted discard during the
context's fence (11 R326; 18 R512, R517). -/
def Machine.pageWrite (m : Machine) (c f o : Nat) (g : Machine → Machine) : Machine :=
  if !(m.reaches c f) then m
  else if m.fenced c then m.accErr (pageOffset f c o) 0x6 f
  else g m

/-- The number of a function: 0 is the PF, n + 1 is VF n's. -/
def funcNum : Func → Nat
  | .pf => 0
  | .vf n => n.val + 1

/-- Latch a step's index for the writing function (09 R284). -/
def Machine.armLo (m : Machine) (c f : Nat) (value : Word) : Machine :=
  m.modXc c fun x => { x with latches := tset 0 x.latches f (bits value 0 12) }

/-- Queue the step that the function last latched, with the value as its ARG, or set ARM_BAD or ARM_OVF (09 R284). -/
def Machine.armHi (m : Machine) (c f : Nat) (value : Word) : Machine :=
  let m := m.modXc c fun x => { x with armHi := value }
  let x := m.xc c
  let index := tget 0 x.latches f
  let steps := (x.image.map fun b => b.img.steps.length).getD 0
  if steps ≤ index ∨ (x.shown ≠ .ready ∧ x.shown ≠ .running) then m.modXc c fun x => { x with armBad := true }
  else if 64 ≤ x.queue.length + (if x.run.isSome then 1 else 0) then m.modXc c fun x => { x with armOvf := true }
  else m.modXc c fun x => { x with state := .running, queue := x.queue ++ [{ step := index, arg := value, aborted := none }] }

/-- CTX_XC_ARM_LO (09 R284): the index is latched for the writing function. -/
def execCtxXcArmLo (c : CtxId) (f : Func) (value : Word) (s : State) : Host.Outcome State Fault Refusal :=
  done s (s.m.pageWrite c.val (funcNum f) 0x140 fun m => m.armLo c.val (funcNum f) value)

/-- CTX_XC_ARM_HI (09 R284): the step that the same function last latched is queued with the value as its ARG. -/
def execCtxXcArmHi (c : CtxId) (f : Func) (value : Word) (s : State) : Host.Outcome State Fault Refusal :=
  done s (s.m.pageWrite c.val (funcNum f) 0x144 fun m => m.armHi c.val (funcNum f) value)

/-- STEP_ARM (09 R271, R284; 10 R314): the head of the queue is armed once its predecessor is done, its gates pass and a
completion entry is free; a step gated on an aborted operation, or a tile awaiting retirement, is not. -/
def execStepArm (c : CtxId) (s : State) : Host.Outcome State Fault Refusal :=
  let c := c.val
  let m := s.m
  let x := m.xc c
  match x.image, x.queue with
  | some b, q :: rest =>
    let prog := b.img.steps[q.step]?
    let waits := (m.imageTiles c).any fun l => (m.tileAt l).toRetire || (m.tileAt l).resetAt.isSome
    if x.run.isSome ∨ x.shown ≠ .running ∨ x.detected.isSome ∨ q.aborted.isSome ∨ m.fenced c = true ∨ waits = true ∨
        !(m.cqRoom c 0) ∨ !(prog.any fun p => m.gatesOk b p) then done s m
    else match prog with
      | none => done s m
      | some p =>
        let m := m.modXc c fun x =>
          { x with
            queue := rest
            run := some { step := q.step, arg := q.arg, released := false, number := 0, releaseAt := 0,
                          armSeq := m.reef.armSeq, chans := [], offCorner := 0, flags := 0, recvCh := [] } }
        done s ((m.takeGates c b p).reefArm c)
  | _, _ => done s m

/-- STEP_RELEASE (09 R271, R272; 13 R378; 08 R261, R265): the step runs: its number, its release time, its tiles' entry
words, their rounding generators seeded by logical tile, and the numeric flags clear. -/
def execStepRelease (c : CtxId) (s : State) : Host.Outcome State Fault Refusal :=
  let c := c.val
  let m := s.m
  let x := m.xc c
  match x.image, x.run with
  | some b, some r =>
    match b.img.steps[r.step]? with
    | none => done s m
    | some p =>
      if r.released ∨ x.detected.isSome ∨ m.fenced c = true ∨ m.releasable c = false then done s m
      else
        let number := x.next
        let m := m.modXc c fun x =>
          { x with
            next := x.next + 1, lastRelease := some m.time.now
            run := some { r with released := true, number := number, releaseAt := m.time.now, flags := noFlags,
                                 offCorner := m.trippedDies (m.ctxPart c) } }
        let m := (p.starts.zipIdx).foldl (fun m e =>
          let l := m.logical c b e.2
          m.modTile l fun t =>
            { t with rng := rngSeed b.img.srSeed number.toNat l, phase := if e.1.isSome then .running else .idle
                     pc := e.1.getD 0, loops := [], lines := [], tokens := [], lineN := 0, xdieN := 0, fabN := 0 }) m
        done s (m.reefRelease c)
  | _, _ => done s m

/-- Whether every tile that the running step uses has completed END. -/
def Machine.allEnded (m : Machine) (c : Nat) : Bool :=
  (m.imageTiles c).all fun l => (m.tileAt l).phase == .done || (m.tileAt l).phase == .idle

/-- STEP_COMPLETE (09 R268, R285, R288; 02 R64): a completed step writes its record; an overrun while off-corner raises
CORNER_BREACH on the dies concerned, any other overrun is a violation with reason BOUND. -/
def execStepComplete (c : CtxId) (s : State) : Host.Outcome State Fault Refusal :=
  let c := c.val
  let m := s.m
  let x := m.xc c
  match x.run with
  | none => done s m
  | some r =>
    if !r.released ∨ x.detected.isSome ∨ m.allEnded c = false then done s m
    else
      let past := decide (m.durNs c < m.elapsed r)
      let off := m.offDies c r
      if past ∧ off = 0 then
        done s ((m.contain c { reason := 1, ch := 0, tile := none }).finishUnbind c)
      else
        let m := (m.breach c r).cqWrite c (m.runRecord c r none)
        let m := ((m.stopTiles c).endStep c).modXc c fun x =>
          { x with state := if x.state = .unbinding then .unbinding else if x.queue.isEmpty then .ready else .running }
        done s (m.finishUnbind c)

/-- CONTRACT_VIOLATION (09 R286, R287): a detected violation, or the abort of an operation that gates a queued step, is contained; the latter
once the step before it has completed (DEDUCED, log 50). -/
def execContractViolation (c : CtxId) (s : State) : Host.Outcome State Fault Refusal :=
  let c := c.val
  let m := s.m
  let x := m.xc c
  match x.detected with
  | some v => done s ((m.contain c v).finishUnbind c)
  | none => match x.run, x.queue.findSome? fun q => q.aborted with
    | none, some ch => done s (m.contain c { reason := 0xA, ch := ch, tile := none })
    | _, _ => done s m

end Sys2Proof.Machine
end

