-- ==== Sys2Proof/Machine/TileOps.lean ====
section
/-!
DEFINITION. How a tile runs its step: fetching words, loops, transfers in flight, tokens, waits, and the violations they meet
(09 R268, R273, R276, R279, R286).
-/
namespace Sys2Proof.Machine

/-- A tile that a released step uses and no detected violation has stopped: its context, the bound image, its image tile
index and the step. -/
structure ActiveTile where
  c : Nat
  b : BoundImage
  t : Nat
  run : RunStep
  deriving DecidableEq, Repr

/-- The context that holds a logical tile in its bound image: its number, the image and the image tile. -/
def Machine.holder (m : Machine) (l : Nat) : Option (Nat × BoundImage × Nat) :=
  (tkeys m.ctx).findSome? fun c => match (m.xc c).image with
    | some b => ((List.range b.img.tiles).find? fun t => m.logical c b t == l).map fun t => (c, b, t)
    | none => none

/-- The running step that uses a logical tile. -/
def Machine.activeTile (m : Machine) (l : Nat) : Option ActiveTile :=
  (tkeys m.ctx).findSome? fun c =>
    match (m.xc c).image, (m.xc c).run with
    | some b, some r =>
      if r.released && (m.xc c).detected.isNone then
        ((List.range b.img.tiles).find? fun t => m.logical c b t == l).map fun t => { c := c, b := b, t := t, run := r }
      else none
    | _, _ => none

/-- The word that a tile fetches next: from its code in tile store (09 R279, R282). -/
def Machine.nextWord (m : Machine) (l : Nat) (a : ActiveTile) : Nat :=
  let line := ((a.b.img.recs[a.t]?).map (·.codeLine)).getD 0
  let o := (m.tileAt l).pc * 16
  ofLe (m.storeRead l line (o + 16) |>.drop o)

/-- The instruction that a tile can issue now, when its class is `op` (09 R268): the tile runs, waits for nothing, its port is
open, and its next word is an accepted word of the class. -/
def Machine.issueWord (m : Machine) (l op : Nat) : Option (ActiveTile × TWord) :=
  match m.activeTile l with
  | none => none
  | some a =>
    let t := m.tileAt l
    let w := m.nextWord l a
    if t.phase = .running ∧ !t.portClosed ∧ t.resetAt.isNone ∧ nbits w 0 8 = op ∧ wordOk w = true then some (a, tword w) else none

/-- The next word's index and the loops left, after the word before `pc` (09 Table 9.8, LOOP). -/
def loopNext (pc : Nat) : List LoopRec → Nat × List LoopRec
  | [] => (pc, [])
  | r :: t => if pc = r.stop then (if 1 < r.left then (r.first, { r with left := r.left - 1 } :: t) else loopNext pc t) else (pc, r :: t)

/-- A tile past its current word. -/
def TileRec.advance (t : TileRec) : TileRec :=
  let (pc, ls) := loopNext (t.pc + 1) t.loops
  { t with pc := pc, loops := ls, phase := .running }

/-- The count of a channel in the running step (09 R277). -/
def ActiveTile.count (a : ActiveTile) (ch : Nat) : Nat :=
  match a.b.img.steps[a.run.step]? with
  | some p => ((p.counts.find? fun e => e.1 == ch).map (·.2)).getD 0
  | none => 0

/-- A channel's tokens in a context's running step. -/
def Machine.chanRun (m : Machine) (c ch : Nat) : ChanRun :=
  match (m.xc c).run with
  | some r => tget .reset r.chans ch
  | none => .reset

/-- Change a channel's tokens. -/
def Machine.modChan (m : Machine) (c ch : Nat) (f : ChanRun → ChanRun) : Machine :=
  m.modRun c fun r => { r with chans := tset .reset r.chans ch (f (tget .reset r.chans ch)) }

/-- Add numeric flags to the running step (08 R265). -/
def Machine.addFlags (m : Machine) (c : Nat) (f : NumFlags) : Machine := m.modRun c fun r => { r with flags := r.flags ||| f }

/-- A compute instruction of a tile is done: the tile goes on, its luff counter advances, the flags stick (08 R242, R265). -/
def Machine.computeDone (m : Machine) (l : Nat) (a : ActiveTile) (f : NumFlags) : Machine :=
  (((m.addFlags a.c f).modTile l TileRec.advance).luffStep l)

/-! ### Tokens in flight (09 R268, R276) -/

/-- What a token's channel counts against: none, cross-die or fabric tokens (09 Table 9.4). -/
inductive TokenClass where
  | sameDie | crossDie | fabric
  deriving DecidableEq, Repr

/-- The class of a channel's tokens. -/
def Machine.tokenClass (m : Machine) (a : ActiveTile) (ch : ChanRec) : TokenClass :=
  if ch.kind = 0 then
    if m.logical a.c a.b ch.src / 32 = m.logical a.c a.b ch.dst / 32 then .sameDie else .crossDie
  else .fabric

/-- Whether a token may be offered: the one before it on its channel is acknowledged, its slot is free at a TILE channel's
consumer, and the token that its tile's limit has it wait for is (09 R268). -/
def Machine.offerable (m : Machine) (a : ActiveTile) (l : Nat) (k : TokenOp) (ch : ChanRec) : Bool :=
  let r := m.chanRun a.c k.ch
  let cls := m.tokenClass a ch
  let lim := if cls = .crossDie then a.b.img.xdieLim else a.b.img.fabLim
  let peers := (m.tileAt l).tokens.filter fun x => match a.b.chan? x.ch with
    | some c => m.tokenClass a c == cls
    | none => false
  !k.offered && k.k == r.acked && (ch.kind != 0 || decide (k.k < r.freed + ch.depth)) &&
    (cls == .sameDie || peers.all fun x => x.n + lim != k.n)

/-- Offer one token: a STREAM_OUT token leaves as a DATA frame, a COLL_OUT token goes to the collective (10 R312, R314). LAST
marks the stream's last token of the step. -/
def Machine.offerToken (m : Machine) (a : ActiveTile) (l : Nat) (k : TokenOp) (ch : ChanRec) : Machine :=
  let m := m.modTile l fun t => { t with tokens := t.tokens.map fun x => if x = k then { x with offered := true } else x }
  let payload := m.storeRead l k.line ch.tokenBytes
  if ch.kind = 1 then
    m.sendToken a.c (a.b.streamBase + ch.ref) (m.rel a.run.releaseAt) (k.k + 1 == a.count k.ch) payload
  else if ch.kind = 3 then match m.chanColl a.b ch with
    | some (s, _) => m.collSupply s payload
    | none => m
  else m

/-- Offer every token of an image's tiles that may be offered. -/
def Machine.offerAll (m : Machine) (c : Nat) : Machine :=
  (m.imageTiles c).foldl (fun (m : Machine) (l : Nat) =>
    (m.tileAt l).tokens.foldl (fun (m : Machine) (k : TokenOp) =>
      match m.activeTile l with
      | none => m
      | some a => match a.b.chan? k.ch with
        | some ch => if m.offerable a l k ch then m.offerToken a l k ch else m
        | none => m) m) m

/-! ### Waits and ends -/

/-- The channel whose sent or received tokens differ from its count at the last END, lowest first, and the image tile that
sent or received them (09 R286, BALANCE). -/
def Machine.unbalanced (m : Machine) (c : Nat) : Option (Nat × Option Nat) :=
  match (m.xc c).image, (m.xc c).run with
  | some b, some r =>
    (((b.img.steps[r.step]?).map (·.counts)).getD []).findSome? fun p => match b.chan? p.1 with
      | none => none
      | some ch =>
        let x := tget ChanRun.reset r.chans p.1
        if x.issued ≠ p.2 then some (p.1, if ch.src = 0xFFFF then none else some ch.src)
        else if ch.inbound ∧ x.taken ≠ p.2 then some (p.1, some ch.dst)
        else none
  | _, _ => none

/-- A tile completes END: its time is charged; at the last END the channels must balance (06 R201; 09 R268, R286). -/
def Machine.tileDone (m : Machine) (a : ActiveTile) (l : Nat) : Machine :=
  let m := (m.modTile l fun t => { t with phase := .done }).meterTile a.c l (m.ns - max a.run.releaseAt.toNat m.part.meterMark.toNat)
  if m.allEnded a.c then match m.unbalanced a.c with
    | some (ch, t) => m.detect a.c { reason := 6, ch := ch, tile := t }
    | none => m
  else m

/-- Let a waiting tile go on when what it waits for has come: the last token of a RECV, the transfers of a WAIT, every
transfer for an END (09 R268). -/
def Machine.settleTile (m : Machine) (l : Nat) : Machine :=
  match m.activeTile l with
  | none => m
  | some a =>
    let t := m.tileAt l
    match t.phase with
    | .receiving =>
      let x := m.chanRun a.c (tget 0 a.run.recvCh l)
      if x.taken ≤ x.acked then m.modTile l TileRec.advance else m
    | .waiting =>
      let mask := (tword (m.nextWord l a)).mask
      if (mask % 2 = 0 ∨ t.lines.isEmpty) ∧ (mask < 2 ∨ t.tokens.isEmpty) then m.modTile l TileRec.advance else m
    | .ending => if t.lines.isEmpty ∧ t.tokens.isEmpty then m.tileDone a l else m
    | _ => m

/-- The violation of a tile that waits for what can no longer come: a RECV on a channel whose producer has ended, or a SEND
for a slot whose consumer has ended (09 R286, STARVED and STUCK). -/
def Machine.hopeless (m : Machine) (l : Nat) : Option Viol :=
  match m.activeTile l with
  | none => none
  | some a =>
    let t := m.tileAt l
    let ended := fun i => (m.tileAt (m.logical a.c a.b i)).phase == .done
    let ch := tget 0 a.run.recvCh l
    let x := m.chanRun a.c ch
    let starved := t.phase == .receiving && decide (x.acked < x.taken) && match a.b.chan? ch with
      | some r => r.kind == 0 && ended r.src
      | none => false
    if starved then some { reason := 4, ch := ch, tile := some a.t }
    else (t.tokens.find? fun k => match a.b.chan? k.ch with
      | some r => r.kind == 0 && !k.offered && k.k == (m.chanRun a.c k.ch).acked &&
          decide ((m.chanRun a.c k.ch).freed + r.depth ≤ k.k) && ended r.dst
      | none => false).map fun k => { reason := 5, ch := k.ch, tile := some a.t }

/-- What follows from any progress of an image's tiles: tokens are offered, waits end, hopeless waits are detected. -/
def Machine.settle (m : Machine) (c : Nat) : Machine :=
  let m := m.offerAll c
  let m := (m.imageTiles c).foldl (fun m l => m.settleTile l) m
  match (m.imageTiles c).findSome? fun l => m.hopeless l with
  | some v => m.detect c v
  | none => m

/-- A tile waits in its current word. -/
def Machine.waitIn (m : Machine) (l : Nat) (p : TilePhase) : Machine := m.modTile l fun t => { t with phase := p }

/-! ### Lines (09 R268, R273, R279) -/

/-- The offset of line i of an HRD or HWR in the HBM region: (OFFSET + ARG × STRIDE + i) × 256. -/
def lineOffset (a : ActiveTile) (w : TWord) (i : Nat) : Nat := (w.x + a.run.arg.toNat * w.stride + i) * 256

/-- Whether a line lies in the HBM region and in the context's pages (09 R286 ADDR; 10 R301). -/
def Machine.lineOk (m : Machine) (a : ActiveTile) (off : Nat) : Bool :=
  decide (off < a.b.img.hbmLen) && m.owns a.c ((a.b.hbmBase + off) / pageBytes)

/-- Issue the lines of an HRD or HWR up to the first that violates; a violating line is never issued. -/
def Machine.issueLines (m : Machine) (l : Nat) (a : ActiveTile) (w : TWord) (write : Bool) : Machine :=
  let good := (List.range w.n).takeWhile fun i => m.lineOk a (lineOffset a w i)
  let m := m.modTile l fun t =>
    { t with
      lineN := t.lineN + good.length
      lines := t.lines ++ good.map fun i =>
        { write := write, n := t.lineN + i, addr := a.b.hbmBase + lineOffset a w i, line := w.l1 + i } }
  if good.length = w.n then (m.modTile l TileRec.advance).settle a.c
  else m.detect a.c { reason := 7, ch := 0, tile := some a.t }

/-- Issue the tokens of a SEND up to the first beyond the channel's count (09 R286, EXCESS_SEND). A channel that another tile
produces has no count here. -/
def Machine.issueTokens (m : Machine) (l : Nat) (a : ActiveTile) (w : TWord) : Machine :=
  let mine := (a.b.chan? w.ch).any fun r => r.src == a.t
  let r := m.chanRun a.c w.ch
  let room := if mine then a.count w.ch - r.issued else 0
  let k := min w.n room
  let cls := ((a.b.chan? w.ch).map fun ch => m.tokenClass a ch).getD .sameDie
  let m := m.modTile l fun t =>
    let n0 := if cls = .crossDie then t.xdieN else t.fabN
    { t with
      xdieN := if cls = .crossDie then t.xdieN + k else t.xdieN
      fabN := if cls = .fabric then t.fabN + k else t.fabN
      tokens := t.tokens ++ (List.range k).map fun i =>
        { ch := w.ch, k := r.issued + i, n := n0 + i, line := w.l1 + i, offered := false } }
  let m := m.modChan a.c w.ch fun r => { r with issued := r.issued + k }
  if k = w.n then (m.modTile l TileRec.advance).settle a.c
  else (m.offerAll a.c).detect a.c { reason := 2, ch := w.ch, tile := some a.t }

/-- Free the slots of a channel's tokens that earlier RECVs have covered (09 R276). -/
def Machine.freeEarlier (m : Machine) (a : ActiveTile) (n : Nat) (ch : ChanRec) : Machine :=
  let r := m.chanRun a.c n
  let k := r.taken - r.freed
  let m := m.modChan a.c n fun r => { r with freed := r.taken }
  if ch.kind = 2 then m.freeSlots (a.b.streamBase + ch.ref) k
  else if ch.kind = 4 then match m.chanColl a.b ch with
    | some (s, _) => m.collFree s k
    | none => m
  else m

/-- Issue a RECV: earlier slots of the channel are freed, and the tile waits for N more tokens (09 R268, R276); a RECV beyond
the count is a violation (R286, EXCESS_RECV). -/
def Machine.issueRecv (m : Machine) (l : Nat) (a : ActiveTile) (w : TWord) : Machine :=
  match a.b.chan? w.ch with
  | none => m.detect a.c { reason := 3, ch := w.ch, tile := some a.t }
  | some ch =>
    let r := m.chanRun a.c w.ch
    if ch.dst ≠ a.t ∨ a.count w.ch < r.taken + w.n then m.detect a.c { reason := 3, ch := w.ch, tile := some a.t }
    else
      let m := m.freeEarlier a w.ch ch
      let m := m.modChan a.c w.ch fun r => { r with taken := r.taken + w.n }
      let m := m.modRun a.c fun r => { r with recvCh := tset 0 r.recvCh l w.ch }
      (m.waitIn l .receiving).settle a.c

/-- Move an HBM line between HBM and the tile store (09 R268): it is outstanding no more, and the tile's luff counter advances (08 R242). -/
def Machine.moveLine (m : Machine) (c l : Nat) (x : LineOp) : Machine :=
  let m := if x.write then m.hbmWrite x.addr (m.storeRead l x.line 256) else m.storeWrite l x.line (m.hbmRead x.addr 256)
  ((m.modTile l fun t => { t with lines := t.lines.filter (· != x) }).meterHbm c 256).luffStep l

/-- A line of a tile that issues no more completes, when its context still owns the page: one that was outstanding at its context's fence, or when a
violation stopped its image (09 R287; 15 Table 15.5). -/
def Machine.drainLine (m : Machine) (l k : Nat) : Machine :=
  match m.holder l, (m.tileAt l).lines[k]? with
  | some (c, _, _), some x =>
    if (m.tileAt l).portClosed then m
    else if m.owns c (x.addr / pageBytes) then m.moveLine c l x
    else m.modTile l fun t => { t with lines := t.lines.filter (· != x) }
  | _, _ => m

/-- A line completes (09 R268, R273): an HRD line enters the tile store, an HWR line HBM; a line may complete once the line
HBM_LIM before it has. A line whose page the context owns no more is refused (10 R301): ADDR. -/
def Machine.completeLine (m : Machine) (l k : Nat) : Machine :=
  match m.activeTile l with
  | none => m.drainLine l k
  | some a =>
    let t := m.tileAt l
    match t.lines[k]? with
    | none => m
    | some x =>
      if t.portClosed || !(t.lines.all fun y => y.n + a.b.img.hbmLim != x.n) then m
      else if m.owns a.c (x.addr / pageBytes) then (m.moveLine a.c l x).settle a.c
      else m.detect a.c { reason := 7, ch := 0, tile := some a.t }

/-- The acknowledgement of a channel's offered token arrives (09 R268): a TILE token's bytes stand in the consumer's slot; the
next token of the channel may be offered. A token that was offered when its image was stopped still arrives (09 R287; 15 Table 15.5). -/
def Machine.ackToken (m : Machine) (c ch : Nat) : Machine :=
  match (m.xc c).image with
  | none => m
  | some b => match b.chan? ch with
    | none => m
    | some rec_ =>
      let l := m.logical c b rec_.src
      match (m.tileAt l).tokens.find? fun k => k.ch == ch && k.offered with
      | none => m
      | some k =>
        if rec_.src == 0xFFFF then m
        else
          let m := if rec_.kind = 0 then
              m.storeWrite (m.logical c b rec_.dst) (rec_.bufLine + k.k % max 1 rec_.depth) (m.storeRead l k.line rec_.tokenBytes)
            else m
          let m := (m.modTile l fun t => { t with tokens := t.tokens.filter (· != k) }).luffStep l
          if ((m.xc c).run.any fun r => r.released) && (m.xc c).detected.isNone then (m.modChan c ch fun x => { x with acked := x.acked + 1 }).settle c
          else m

end Sys2Proof.Machine
end

