-- ==== Sys2Proof/Machine/Fences.lean ====
section
/-!
DEFINITION. Fences of contexts, partitions and the package: their start, what they cut off, and how a context is removed from
its units (15 R425–R437; 06 R197).
-/
namespace Sys2Proof.Machine

/-- A domain's key in the table of fence starts. -/
def domainKey : Domain → Nat
  | .context c => c.val
  | .partition i => 64 + i.val
  | .package => 72

/-- Change the LUFF block. -/
def Machine.modLuff (m : Machine) (f : Luff → Luff) : Machine := { m with luff := f m.luff }

/-- Whether a domain lies inside another, or is it. -/
def Machine.inside (m : Machine) (a b : Domain) : Bool :=
  match a, b with
  | _, .package => true
  | .context c, .partition i => m.ctxPart c.val == i.val
  | a, b => decide (a = b)

/-- Whether a fence that holds a domain is in force. -/
def Machine.covered (m : Machine) (d : Domain) : Bool := m.luff.fences.any fun f => m.inside d f.dom

/-- Whether the package is fenced. -/
def Machine.pkgFenced (m : Machine) : Bool := m.luff.fences.any fun f => f.dom == .package

/-- Whether a new fence of a domain may start: 10 µs after its previous one (15 R432). -/
def Machine.fenceDue (m : Machine) (d : Domain) : Bool :=
  match m.luff.lastFence.find? fun e => e.1 == (domainKey d) with
  | none => true
  | some e => decide (e.2.toNat + 10000 ≤ m.ns)

/-- The contexts of a domain that are not free. -/
def Machine.ctxsIn (m : Machine) (d : Domain) : List Nat :=
  (List.range 64).filter fun c => (m.ctxAt c).base.life != .free && match d with
    | .context x => x.val == c
    | .partition i => m.ctxPart c == i.val
    | .package => true

/-- The contexts that a partition or package fence finds without work, FREE or FINAL: it advances their generations alone (15 R430). -/
def Machine.idleIn (m : Machine) (d : Domain) : List Nat :=
  (List.range 64).filter fun c => ((m.ctxAt c).base.life == .free || (m.ctxAt c).base.life == .final) && match d with
    | .context _ => false
    | .partition i => m.ctxPart c == i.val
    | .package => true

/-- Cut a context off from its units at the start of its fence (15 R426, R433): its flows in progress are reported, its tiles
stop, its step ends without a record, and its BOUND streams return to OPEN. -/
def Machine.cutContext (m : Machine) (c : Nat) : Machine :=
  let m := (m.reportFlows c).stopTiles c
  let m := if (m.xc c).run.isSome then (m.returnGates c).endStep c else m
  (m.streamsOf c).foldl (fun m n => m.unbindStream n) m

/-- Advance a context's generation (15 R430). -/
def CtxRst.advance (r : CtxRst) : CtxRst := { r with gen := (r.gen + 1) % 256 }

/-- Fence one context for a reset; one already fenced is not fenced again (15 R425, R430). -/
def Machine.fenceOne (m : Machine) (c : Nat) : Machine :=
  if m.fenced c then m
  else (m.cutContext c).modCtx c fun r => { r with rst := { r.rst.advance with inReset := true } }

/-- Record a fence; it absorbs the fences of the domains inside its own (15 R425). -/
def Machine.pushFence (m : Machine) (f : Fence) : Machine :=
  m.modLuff fun l =>
    { l with fences := (l.fences.filter fun g => !(m.inside g.dom f.dom)) ++ [f]
             lastFence := tput (domainKey f.dom) m.time.now (tdel l.lastFence (domainKey f.dom)) }

/-- Start the fence of a context, a partition or the package with a cause and an ordering source, unless its domain is already
covered or was fenced less than 10 µs ago (15 R425, R430, R432). A FINAL context takes no part. -/
def Machine.startFence (m : Machine) (d : Domain) (cause source : Nat) : Machine :=
  if m.covered d || !(m.fenceDue d) then m
  else
    let cs := (m.ctxsIn d).filter fun c => (m.ctxAt c).base.life != .final
    let held := m.luff.fences.filter fun g => m.inside g.dom d && g.destroy
    let m := match d with
      | .context _ => m
      | .partition i => m.modLuff fun l => { l with partGen := tset 0 l.partGen i.val ((tget 0 l.partGen i.val + 1) % 256) }
      | .package => m.modLuff fun l =>
          { l with
            pkgGen := (l.pkgGen + 1) % 256
            partGen := (List.range 8).foldl (fun t i => tset 0 t i ((tget 0 t i + 1) % 256)) l.partGen }
    let m := cs.foldl (fun m c => m.fenceOne c) m
    let m := (m.idleIn d).foldl (fun m c => m.modCtx c fun r => { r with rst := r.rst.advance }) m
    let f := m.pushFence
      { dom := d, ctxs := cs, start := m.time.now, cause := cause, source := source, destroy := false, drained := false }
    f.modLuff fun l => { l with fences := l.fences ++ held }

/-- Order the reset of a LIVE context: one that is being reset or removed joins that (15 R425), and one that may not be fenced yet waits
for its CONTEXT_RESET (R432). -/
def Machine.orderReset (m : Machine) (c cause : Nat) : Machine :=
  if h : c < 64 then
    let d := Domain.context ⟨c, h⟩
    if (m.ctxAt c).base.life ≠ .live ∨ m.covered d then m
    else if m.fenceDue d then m.startFence d cause 0x3FF
    else m.modLuff fun l => { l with ctxOrders := l.ctxOrders ++ [(c, cause)] }
  else m

/-- Start the fence of a context that DESTROY ends (06 R197): its streams begin to close. -/
def Machine.startDestroy (m : Machine) (c : CtxId) : Machine :=
  let m := if m.fenced c.val then m
    else (m.cutContext c.val).modCtx c.val fun r => { r with rst := r.rst.advance }
  let m := m.modBase c.val fun b => { b with life := .ending }
  let m := (m.streamsOf c.val).foldl (fun m n => m.closeStream n) m
  m.pushFence { dom := .context c, ctxs := [c.val], start := m.time.now, cause := 0, source := 0x3FF, destroy := true, drained := false }

/-- Answer LUFF_RST_CTRL (15 Table 15.11). -/
def Machine.rstDone (m : Machine) (status : Nat) : Machine :=
  m.modLuff fun l => { l with rstStatus := status, rstDone := true, rstBusy := false, rstStarted := false }

/-- The domain that LUFF_RST_CTRL asks for. -/
def Luff.rstDomain (l : Luff) : Option Domain :=
  if l.rstOp = 1 then (if h : l.rstCtx < 64 then some (.context ⟨l.rstCtx, h⟩) else none)
  else if l.rstOp = 2 then (if h : l.rstPart < 8 then some (.partition ⟨l.rstPart, h⟩) else none)
  else if l.rstOp = 3 then some .package
  else none

/-- Set DONE once the reset that LUFF_RST_CTRL asked for has ended, alone or with the reset it joined (15 R425). -/
def Machine.rstFinish (m : Machine) : Machine :=
  if m.luff.rstBusy && m.luff.rstStarted && !((m.luff.rstDomain.map m.covered).getD false) then m.rstDone 0 else m

/-- Drop a domain's fence. -/
def Machine.dropFence (m : Machine) (d : Domain) : Machine :=
  (m.modLuff fun l => { l with fences := l.fences.filter fun f => f.dom != d }).rstFinish

/-- Disable a context's copy queues: ABORT_IDX takes CI, the command in progress is dropped, and the completion ring, whose HEAD is cleared, begins
again at entry 0 with a first pass (12 R365; DEDUCED, log 55). -/
def Machine.stopQueues (m : Machine) (c : Nat) : Machine :=
  m.modCtx c fun r =>
    { r with ce := { r.ce with
        cqHead := 0, cqTail := 0, cqPhase := true
        queues := (tkeys r.ce.queues).foldl (fun t q =>
          let x := tget .reset t q
          tset .reset t q { x with abortIdx := x.ci, state := .disabled,
                                   enable := false, cur := none, h0Last := none, h1Last := none }) r.ce.queues } }

/-- Free a context's transaction tags (15 R433). -/
def Machine.freeTxns (m : Machine) (c : Nat) : Machine :=
  { m with txn := m.txn.filter fun e => match e.2 with
      | some r => r.ctx != c
      | none => false }

/-- Remove a context from every unit (15 R433, step 3). -/
def Machine.removeContext (m : Machine) (c : Nat) : Machine :=
  let m := if (m.xc c).image.isSome then m.dropImage c else m.modXc c fun x => { x with state := .unbound, queue := [] }
  let m := m.modXc c fun x => { x with busy := false, owed := [], latches := [] }
  ((m.freeColls c).stopQueues c).freeTxns c

/-- End a context's reset (15 R433, step 4). -/
def Machine.endContextReset (m : Machine) (c cause : Nat) : Machine :=
  ((m.removeContext c).modCtx c fun r =>
    { r with rst := { r.rst with resets := satAdd 255 r.rst.resets 1, cause := cause, inReset := false } }).raiseCtx 543 0 c

/-- Answer ABORTED, with FENCE_ABORT, every REQ that an I/O die still holds for a context and that satisfies a test
(07 R225, 15 R426). -/
def Machine.abortReqs (m : Machine) (p : Delivered → Bool) : Machine :=
  (List.range 2).foldl (fun (m : Machine) d =>
    let l := (m.fwdAt d).inbox
    let mine := fun (x : Delivered) => frType x.frame == 5 && p x
    let m := m.modFwd d fun r => { r with inbox := l.filter fun x => !(mine x) }
    (l.filter mine).foldl (fun m x =>
      (m.answer d x.frame 0x02 []).raiseCtx 541 0 (m.strmAt (frStream x.frame)).ctx) m) m

/-- Cancel what a fence's contexts still have outstanding at drain end (15 Table 15.5): REQs delivered before the fence and not
yet carried out are answered ABORTED, copy-engine commands are abandoned, and lines and tokens are cancelled, their completions
to be dropped. -/
def Machine.drainEnd (m : Machine) (cs : List Nat) (start : DWord) : Machine :=
  let m := m.abortReqs fun x =>
    cs.contains (m.strmAt (frStream x.frame)).ctx && decide (x.since.toNat < start.toNat)
  let m := cs.foldl (fun m c => m.modCtx c fun r =>
    { r with ce := { r.ce with queues := (tkeys r.ce.queues).foldl (fun t q => tset .reset t q { (tget .reset t q) with cur := none })
                                            r.ce.queues } }) m
  (cs.flatMap m.imageTiles).foldl (fun m l =>
    let t := m.tileAt l
    (m.modTile l fun t => { t with lines := [], tokens := [] }).modLuff fun x =>
      { x with lateOut := x.lateOut + t.lines.length + t.tokens.length }) m

/-- Raise a source against the context that holds a tile. -/
def Machine.raiseTile (m : Machine) (src l : Nat) : Machine :=
  match m.holder l with
  | some h => m.raiseCtx src l h.1
  | none => m.raise src l

/-- A tile is lost (15 R446): the image's step meets TILE_LOST, and the tile's port closes for its reset (R434). -/
def Machine.loseTile (m : Machine) (l : Nat) (retire : Bool) : Machine :=
  let m := match m.holder l with
    | some (c, _, t) => m.detect c { reason := 9, ch := 0, tile := some t }
    | none => m
  m.modTile l fun t =>
    { t with portClosed := true, resetAt := some m.time.now, toRetire := t.toRetire || retire, lines := [], tokens := [] }

/-- The tiles of a cluster: those of partition i on die d (15 Table 15.2). -/
def Machine.clusterTiles (m : Machine) (i d : Nat) : List Nat := (m.partTiles i).filter fun l => l / 32 == d

/-- Reset a cluster (15 R434): every tile closes and is reset, and every image with a tile there loses its lowest-numbered one. -/
def Machine.resetCluster (m : Machine) (i d : Nat) : Machine := (m.clusterTiles i d).foldl (fun m l => m.loseTile l false) m

end Sys2Proof.Machine
end

