-- ==== Sys2Proof/Machine/CeOps.lean ====
section
/-!
DEFINITION. Copy engines: the command's fields and its check, queues, turns, segments, remote requests, completion (12 R347–R367).
-/
namespace Sys2Proof.Machine

/-! ### The command (12 Tables 12.2–12.4) -/

/-- OPCODE. -/
def CeCmd.op (k : CeCmd) : Nat := leAt k.bytes 0 1
/-- A bit of the header's second byte: INLINE 0, FLUSH 1, FLAG 2, NOTIFY 3, NOCOMP 4. -/
def CeCmd.opt (k : CeCmd) (i : Nat) : Bool := (leAt k.bytes 1 1).testBit i
/-- INLINE. -/
def CeCmd.inl (k : CeCmd) : Bool := k.opt 0
/-- INLINE_LEN. -/
def CeCmd.inlineLen (k : CeCmd) : Nat := leAt k.bytes 2 1
/-- LENGTH. -/
def CeCmd.len (k : CeCmd) : Nat := leAt k.bytes 8 4
/-- NODE. -/
def CeCmd.node (k : CeCmd) : NodeId := BitVec.ofNat 16 (leAt k.bytes 12 2)
/-- STREAM. -/
def CeCmd.stream (k : CeCmd) : Nat := leAt k.bytes 14 2 % 4096
/-- SRC. -/
def CeCmd.src (k : CeCmd) : Nat := leAt k.bytes 16 8
/-- DST. -/
def CeCmd.dst (k : CeCmd) : Nat := leAt k.bytes 24 8
/-- FLAG_ADDR. -/
def CeCmd.flagAddr (k : CeCmd) : Nat := leAt k.bytes 0x20 8
/-- FLAG_VALUE. -/
def CeCmd.flagValue (k : CeCmd) : Nat := leAt k.bytes 0x28 8
/-- OPERAND. -/
def CeCmd.operand (k : CeCmd) : Nat := leAt k.bytes 0x30 8
/-- RESULT. -/
def CeCmd.resultAddr (k : CeCmd) : Nat := leAt k.bytes 0x38 8
/-- The inline data. -/
def CeCmd.inlineData (k : CeCmd) : List Byte := (k.bytes.drop 0x20).take k.inlineLen

/-- The class of an engine: 1 host to device, 2 device to host, 3 local (12 Table 12.1). -/
def engineClass (e : Nat) : Nat := if e < 8 then 1 else if e < 16 then 2 else 3

/-- The engine that a queue's CLASS and INDEX name (12 Table 12.1). -/
def engineOf (cls idx : Nat) : Option Nat :=
  if cls = 1 then some idx else if cls = 2 then some (8 + idx)
  else if cls = 3 ∧ idx < 4 then some (16 + idx) else none

/-- The classes that accept an opcode (12 Table 12.4). -/
def opAccepted (op cls : Nat) : Bool :=
  if op = 1 ∨ op = 3 then true else if op = 2 then cls == 2 || cls == 3 else decide (4 ≤ op) && decide (op ≤ 8) && cls == 3

/-- Whether an opcode sends frames. -/
def isSend (op : Nat) : Bool := decide (4 ≤ op) && decide (op ≤ 8)

/-- The reserved bits, those of a node ID and a stream among them, INLINE_LEN, and the bytes after the header (12 R354, R356): zeros follow inline data. -/
def CeCmd.formOk (k : CeCmd) : Bool :=
  let b := k.bytes
  decide (leAt b 1 1 < 32) && leAt b 3 1 == 0 && decide (leAt b 12 2 < 32768) && decide (leAt b 14 2 < 4096) && decide (k.inlineLen ≤ 224) &&
  (k.inl || k.inlineLen == 0) && !(k.opt 2 && k.inl) &&
  (if k.inl then zeroAt b (0x20 + k.inlineLen) (224 - k.inlineLen)
   else zeroAt b 0x40 192 && k.flagAddr % 8 == 0 && (k.opt 2 || k.flagAddr == 0) &&
     (k.op == 2 || k.op == 7 || k.operand == 0) && k.resultAddr % 8 == 0 && (k.op == 7 || k.resultAddr == 0)) &&
  (isSend k.op || (k.node == 0 && k.stream == 0))

/-- Whether LENGTH, SRC, DST and INLINE fit Table 12.4, for a queue's class and a destination in another pod or not. LENGTH is INLINE_LEN for every
inline command. DEDUCED (log 55). -/
def CeCmd.fieldsOk (k : CeCmd) (cls : Nat) (far : Bool) : Bool :=
  let inlOk := !k.inl || (k.len == k.inlineLen && k.src == 0)
  match k.op with
  | 1 => decide (1 ≤ k.len) && inlOk && !(k.inl && cls == 2)
  | 2 => k.len % 8 == 0 && k.src == 0 && k.dst % 8 == 0 && !k.inl
  | 3 => k.len == 0 && k.src == 0 && k.dst == 0 && !k.inl && k.opt 2
  | 4 => decide (k.len ≤ if far then 248 else 256) && inlOk && k.dst == 0
  | 5 => decide (1 ≤ k.len) && decide (k.len ≤ 2 ^ 20) && inlOk && decide (k.dst < 2 ^ 40)
  | 6 => decide (1 ≤ k.len) && decide (k.len ≤ 2 ^ 20) && decide (k.src < 2 ^ 40) && !k.inl
  | 7 => k.len == 8 && k.src == 0 && k.dst % 8 == 0 && decide (k.dst < 2 ^ 40) && !k.inl
  | 8 => k.len == 0 && k.src == 0 && k.dst == 0 && !k.inl
  | _ => false

/-- The device ranges of a command on a class of engine: address and length (12 Table 12.4). -/
def CeCmd.ranges (k : CeCmd) (cls : Nat) : List (Nat × Nat) :=
  match k.op with
  | 1 => (if cls = 1 ∨ k.inl then [] else [(k.src, k.len)]) ++ (if cls = 2 then [] else [(k.dst, k.len)])
  | 2 => if cls = 2 then [] else [(k.dst, k.len)]
  | 4 => if k.inl then [] else [(k.src, k.len)]
  | 5 => if k.inl then [] else [(k.src, k.len)]
  | 6 => [(k.dst, k.len)]
  | 7 => [(k.resultAddr, 8)]
  | _ => []

/-- The check at fetch, before any byte moves (12 R356). -/
def Machine.checkCmd (m : Machine) (c cls : Nat) (k : CeCmd) : Nat :=
  let far := nodePod k.node != nodePod m.node
  let s := m.strmAt k.stream
  if !(opAccepted k.op cls) || !k.formOk || !(k.fieldsOk cls far) then 0x01
  else if isSend k.op && !(s.state == .open_ && s.kind == kindMsg && s.ctx == c) then 0x05
  else if (k.ranges cls).all fun r => m.ownsRange c r.1 r.2 then 0 else 0x02

/-! ### Queues -/

/-- A queue of a context. -/
def Machine.queue (m : Machine) (c q : Nat) : CeQueue := tget .reset (m.ctxAt c).ce.queues q
/-- Change a queue. -/
def Machine.modQueue (m : Machine) (c q : Nat) (f : CeQueue → CeQueue) : Machine :=
  m.modCtx c fun r => { r with ce := { r.ce with queues := tset .reset r.ce.queues q (f (tget .reset r.ce.queues q)) } }
/-- Change the command in progress of a queue. -/
def Machine.modCmd (m : Machine) (c q : Nat) (f : CeCmd → CeCmd) : Machine :=
  m.modQueue c q fun r => { r with cur := r.cur.map f }
/-- A copy engine. -/
def Machine.engine (m : Machine) (e : Nat) : CeEng := tget .reset m.eng e
/-- Change a copy engine. -/
def Machine.modEngine (m : Machine) (e : Nat) (f : CeEng → CeEng) : Machine :=
  { m with eng := tset .reset m.eng e (f (m.engine e)) }

/-- Write CFG with ENABLE 1 (12 R350): the queue runs from indexes 0, or stays DISABLED with CFG_ERR. -/
def Machine.enableQueue (m : Machine) (c q : Nat) (cfg : Word) : Machine :=
  let m := m.modQueue c q fun r => { r with log2size := bits cfg 0 4, cls := bits cfg 4 2, idx := bits cfg 6 3 }
  let r := m.queue c q
  let ok := (match engineOf r.cls r.idx with
      | some e => !(m.engine e).failed
      | none => false) &&
    decide (4 ≤ r.log2size) && decide (r.log2size ≤ 12) && r.base.toNat % 256 == 0 && (m.ctxAt c).ce.cqSize != 0
  if ok then m.modQueue c q fun r =>
    { r with state := .running, enable := true, pi := 0, ci := 0, cur := none, h0Last := none, h1Last := none }
  else (m.modQueue c q fun r => { r with cfgErr := true, enable := false }).raise 456 0

/-- Write ENABLE 0 to a queue (12 R366): with no command in progress it is DISABLED at once. -/
def Machine.disableQueue (m : Machine) (c q : Nat) : Machine :=
  m.modQueue c q fun r =>
    if r.state = .disabled then { r with enable := false }
    else if r.cur.isNone then { r with enable := false, state := .disabled }
    else { r with enable := false }

/-- Write RESUME (12 R362): a HALTED queue runs again, unless its engine has failed (R367). -/
def Machine.resumeQueue (m : Machine) (c q : Nat) : Machine :=
  let r := m.queue c q
  let failed := match engineOf r.cls r.idx with
    | some e => (m.engine e).failed
    | none => false
  if r.state = .halted ∧ r.enable ∧ !failed ∧ !(m.fenced c) then m.modQueue c q fun r => { r with state := .running }
  else m

/-- A write of CTX_CE_Qq_CFG (12 Table 12.7): a DISABLED queue takes the fields and may be enabled; on another, ENABLE 0
disables and RESUME resumes. -/
def Machine.writeCfg (m : Machine) (c q : Nat) (cfg : Word) : Machine :=
  if (m.queue c q).state = .disabled then
    if bitAt cfg 16 then m.enableQueue c q cfg
    else m.modQueue c q fun r => { r with log2size := bits cfg 0 4, cls := bits cfg 4 2, idx := bits cfg 6 3, enable := false }
  else if !(bitAt cfg 16) then m.disableQueue c q
  else if bitAt cfg 17 then m.resumeQueue c q
  else m

/-- A doorbell (12 R351): ignored during the context's fence (R365), and with DB_ERR when the index is out of range. -/
def Machine.doorbell (m : Machine) (c q : Nat) (pi : Nat) : Machine :=
  let r := m.queue c q
  let size := 2 ^ r.log2size
  if m.fenced c then m
  else if r.state = .disabled ∨ size < (pi + 65536 - r.ci) % 65536 ∨ size < (pi + 65536 - r.pi) % 65536 then
    (m.modQueue c q fun r => { r with dbErr := true }).raiseCtx 455 0 c
  else m.modQueue c q fun r => { r with pi := pi }

/-- The completion entries that a context's started commands have reserved (12 R353). -/
def Machine.ceReserved (m : Machine) (c : Nat) : Nat := ((m.ctxAt c).ce.queues.filter fun e => e.2.cur.isSome).length

/-- Whether a context's completion ring has an entry free (12 R353, 06 R561). -/
def Machine.ceRoom (m : Machine) (c : Nat) : Bool :=
  let x := (m.ctxAt c).ce
  x.cqSize != 0 && !(ringFull x.cqSize x.cqHead x.cqTail (m.ceReserved c))

/-! ### Host writes and meters -/

/-- Whether a context's engine travels over H1 (11 R322). -/
def Machine.onH1 (m : Machine) (c e : Nat) : Bool :=
  (m.ctxAt c).base.func == some 0 && decide (e < 16) && decide (4 ≤ e % 8) && (tget HstLink.reset m.hst.links 1).up

/-- A data write of a queue's command to host memory: the last address on its interface is kept for flushes (11 R338). -/
def Machine.ceHostWrite (m : Machine) (c q e a : Nat) (bs : List Byte) : Machine :=
  let h1 := m.onH1 c e
  let m := m.hostWrite a bs
  if bs.isEmpty then m
  else (m.modCmd c q fun k => if h1 then { k with h1Last := some a } else { k with h0Last := some a }).modQueue c q fun r =>
    if h1 then { r with h1Last := some a } else { r with h0Last := some a }

/-- Charge data bytes: the CE meter and the engine's bytes (12 R363). -/
def Machine.ceBytes (m : Machine) (c e n : Nat) : Machine :=
  (m.meter c fun x => { x with ce := satAdd64 x.ce n }).modEngine e fun r => { r with bytes := satAdd64 r.bytes n }

/-- A segment completes: its data bytes are charged and the engine's luff counter advances (12 R363, R364). -/
def Machine.ceCharge (m : Machine) (c e n : Nat) : Machine := (m.ceBytes c e n).luffStep (128 + e)

/-- End a command's work with a status: no further segment moves (12 R357). -/
def Machine.ceStop (m : Machine) (c q st : Nat) : Machine :=
  m.modCmd c q fun k => { k with status := st, failAt := none, sent := true }

/-- The status of a device range when a segment moves it: OK, MEM_ERR on a page of the context's that an uncorrectable error
retired, or ADDR (12 R357). -/
def Machine.lineStatus (m : Machine) (c a n : Nat) : Nat :=
  if m.ownsRange c a n then 0
  else if (List.range ((a + n - 1) / pageBytes + 1 - a / pageBytes)).any fun i =>
      let p := m.pageAt (a / pageBytes + i)
      p.use == .retired && p.ctx == c then 0x04
  else 0x02

/-- Bytes up to the end of a 4 KiB block (12 R348). -/
def toBlock (a : Nat) : Nat := 4096 - a % 4096

/-- `n` bytes of FILL's pattern from a position of the command (12 R355). -/
def fillBytes (operand pos n : Nat) : List Byte :=
  let w := leBytes 8 operand
  (List.range n).map fun i => w.getD ((pos + i) % 8) 0

/-- One segment of COPY or FILL (12 R348, R355, R357). -/
def Machine.moveSegment (m : Machine) (c q e : Nat) (k : CeCmd) : Machine :=
  let cls := engineClass e
  let fill := k.op == 2
  let src := k.src + k.pos
  let dst := k.dst + k.pos
  let n := min (k.len - k.pos) (min (toBlock dst) (if fill || k.inl then 4096 else toBlock src))
  let devSrc := !fill && !k.inl && cls != 1
  let devDst := cls != 2
  let st := if devSrc ∧ m.lineStatus c src n ≠ 0 then m.lineStatus c src n
    else if devDst then m.lineStatus c dst n else 0
  if n = 0 then m.modCmd c q fun k => { k with sent := true }
  else if st ≠ 0 then m.ceStop c q st
  else
    let data := if fill then fillBytes k.operand k.pos n
      else if k.inl then (k.inlineData.drop k.pos).take n
      else if cls = 1 then m.hostRead src n else m.hbmRead src n
    let m := if devDst then m.hbmWrite dst data else m.ceHostWrite c q e dst data
    let m := m.meterHbm c ((if devSrc then n else 0) + if devDst then n else 0)
    (m.ceCharge c e n).modCmd c q fun k => { k with pos := k.pos + n, moved := k.moved + n, sent := decide (k.len ≤ k.pos + n) }

/-! ### Messages and remote requests (12 R358, R359; 07 R226, R238) -/

/-- Whether the package can send a MSG or REQ of a context to a node (07 R238). -/
def Machine.canSend (m : Machine) (c : Nat) (dst : NodeId) : Bool :=
  nodePod dst == nodePod m.node ||
    (m.twoDie && m.activeBank.prep.peers.any fun e => e.tag == (m.ctxAt c).base.tag && e.pod == nodePod dst)

/-- The status that a send is refused with at injection: STREAM from a stream that is not OPEN, NO_ROUTE (07 R238, 10 R318). -/
def Machine.sendStatus (m : Machine) (c : Nat) (k : CeCmd) : Nat :=
  if (m.strmAt k.stream).state ≠ .open_ then 0x05 else if m.canSend c k.node then 0 else 0x06

/-- Inject a MSG or REQ of a command on X0, or on X1 for another pod, with the pod prefix (07 R213, R238). -/
def Machine.ceInject (m : Machine) (c : Nat) (k : CeCmd) (type txn gen opx : Nat) (payload : List Byte) : Machine :=
  let far := nodePod k.node != nodePod m.node
  let p := (if far then leBytes 8 m.time.now.toNat else []) ++ payload
  (m.inject (if far then 1 else 0) type true k.node (m.ctxAt c).base.tag k.stream txn gen opx p).meterLink c p.length

/-- The one segment of MSG (12 R358). -/
def Machine.msgSegment (m : Machine) (c q e : Nat) (k : CeCmd) : Machine :=
  let st := m.sendStatus c k
  let line := if k.inl ∨ k.len = 0 then 0 else m.lineStatus c k.src k.len
  if st ≠ 0 then (m.modStrm k.stream StreamRec.dropOut).ceStop c q st
  else if line ≠ 0 then m.ceStop c q line
  else
    let data := if k.inl then k.inlineData else m.hbmRead k.src k.len
    let m := (m.meterHbm c (if k.inl then 0 else k.len)).ceInject c k 4 0 0 0 data
    (m.ceCharge c e k.len).modCmd c q fun k => { k with pos := k.len, moved := k.len, sent := true }

/-- A command's chunk of REQs: data bytes per frame (12 R359). -/
def chunkOf (op : Nat) (far : Bool) : Nat := if op = 5 then (if far then 240 else 248) else if far then 248 else 256

/-- The lowest free transaction tag of a context's partition (07 R225; 06 Table 6.1). -/
def Machine.freeTxn (m : Machine) (c : Nat) : Option Nat :=
  let i := m.ctxPart c
  let lo := m.shareStart 2048 i
  ((List.range (m.shareStart 2048 (i + 1) - lo)).map (· + lo)).find? fun t => (tget none m.txn t).isNone

/-- A failed REQ of a command: the failure at the lowest offset stands (12 R359). -/
def CeCmd.fail (k : CeCmd) (st off : Nat) : CeCmd :=
  if k.status = 0 then { k with status := st, failAt := some off }
  else match k.failAt with
    | some o => if off < o then { k with status := st, failAt := some off } else k
    | none => k

/-- One REQ of a command (12 R359): a chunk in ascending offset order, with the lowest free tag. -/
def Machine.reqSegment (m : Machine) (c q e : Nat) (k : CeCmd) : Machine :=
  let far := nodePod k.node != nodePod m.node
  let whole := if k.op = 7 then 8 else if k.op = 8 then 1 else k.len
  let n := if k.op = 7 ∨ k.op = 8 then whole else min (k.len - k.pos) (chunkOf k.op far)
  let st := m.sendStatus c k
  let line := if k.op = 5 ∧ !k.inl then m.lineStatus c (k.src + k.pos) n else 0
  let next := fun (k : CeCmd) => { k with pos := k.pos + n, sent := decide (whole ≤ k.pos + n) }
  if st ≠ 0 then (m.modStrm k.stream StreamRec.dropOut).modCmd c q fun k => { k.fail st k.pos with sent := true }
  else if line ≠ 0 then m.ceStop c q line
  else match m.freeTxn c with
    | none => m
    | some t =>
      let remote := (if k.op = 6 then k.src else k.dst) + if k.op = 7 ∨ k.op = 8 then 0 else k.pos
      let data := if k.op = 5 then (if k.inl then (k.inlineData.drop k.pos).take n else m.hbmRead (k.src + k.pos) n)
        else if k.op = 7 then leBytes 8 k.operand else []
      let gen := (m.ctxAt c).rst.gen
      let m := { m with txn := tset none m.txn t (some
        { orphan := false, ctx := c, queue := q, stream := k.stream, gen := gen, at_ := m.time.now, op := k.op, dst := k.node, off := k.pos, len := n }) }
      let m := m.ceInject c k 5 t gen (k.op - 4) (leBytes 8 (pack [(0, remote % 2 ^ 40), (40, n)]) ++ data)
      let m := m.meterHbm c (if k.op = 5 ∧ !k.inl then n else 0)
      (m.ceBytes c e (if k.op = 5 then n else 0)).modCmd c q fun k => { next k with outstanding := k.outstanding + 1 }

/-- The REQs that a queue's command leaves outstanding when it ends serve no command any more (07 R226). -/
def Machine.orphanTxns (m : Machine) (c q : Nat) : Machine :=
  { m with txn := m.txn.map fun (e : Nat × Option TxnRec) =>
      (e.1, e.2.map fun t => if t.ctx = c ∧ t.queue = q then { t with orphan := true } else t) }

/-- Complete a command's REQ, one segment, with a status, and the data of a READ or FETCH_ADD (07 R226; 12 R357, R359, R363, R364). -/
def Machine.reqDone (m : Machine) (t : TxnRec) (st : Nat) (data : List Byte) : Machine :=
  match (m.queue t.ctx t.queue).cur, t.orphan with
  | none, _ | _, true => m
  | some k, false =>
    let e := k.engine
    let m := m.modCmd t.ctx t.queue fun k => { k with outstanding := k.outstanding - 1 }
    let at_ := if t.op = 7 then k.resultAddr else k.dst + t.off
    let bs := data.take (if t.op = 7 then 8 else t.len)
    let wr := t.op = 6 ∨ t.op = 7
    let line := if wr then m.lineStatus t.ctx at_ bs.length else 0
    if st ≠ 0 then (m.ceCharge t.ctx e 0).modCmd t.ctx t.queue fun k => k.fail st t.off
    else if line ≠ 0 then (m.ceCharge t.ctx e 0).ceStop t.ctx t.queue line
    else
      let m := if wr then (m.hbmWrite at_ bs).meterHbm t.ctx bs.length else m
      let n := if t.op = 8 then 0 else if t.op = 7 then 8 else t.len
      let m := m.ceCharge t.ctx e (if wr then n else 0)
      m.modCmd t.ctx t.queue fun k =>
        { k with moved := k.moved + n, result := if t.op = 7 then BitVec.ofNat 64 (ofLe bs) else k.result }

/-- Free a transaction tag and complete its REQ (07 R226). -/
def Machine.reqComplete (m : Machine) (txn st : Nat) (data : List Byte) : Machine :=
  match tget none m.txn txn with
  | none => m
  | some t => ({ m with txn := tset none m.txn txn none }).reqDone t st data

/-! ### Turns (12 R348) -/

/-- Whether a queue has a segment ready: a command whose work has not ended, of a context that is not fenced; for REQs, at most
64 outstanding and a free tag (12 R348, R359, R365). -/
def Machine.segReady (m : Machine) (c q : Nat) : Bool :=
  match (m.queue c q).cur with
  | none => false
  | some k => !k.sent && !(m.fenced c) && k.op != 3 &&
      (!(decide (5 ≤ k.op)) || (decide (k.outstanding < 64) && (m.freeTxn c).isSome))

/-- The first number after `last`, cyclically below n, that satisfies a test. -/
def nextAfter (n last : Nat) (p : Nat → Bool) : Option Nat := ((List.range n).map fun i => (last + 1 + i) % n).find? p

/-- The queue whose turn it is on an engine: partitions, contexts and queues in round robin (12 R348). -/
def Machine.turn (m : Machine) (e : Nat) : Option (Nat × Nat) :=
  let eng := m.engine e
  let on := fun c q => (match (m.queue c q).cur with
    | some k => k.engine == e
    | none => false) && m.segReady c q
  let ctxReady := fun c => (List.range 4).any (on c)
  if eng.failed || eng.inReset then none else match nextAfter 8 eng.lastPart fun i => (List.range 64).any fun c => m.ctxPart c == i && ctxReady c with
  | none => none
  | some i =>
    match nextAfter 64 (tget 63 eng.lastCtx i) fun c => m.ctxPart c == i && ctxReady c with
    | none => none
    | some c => (nextAfter 4 (m.ctxAt c).ce.lastQ (on c)).map fun q => (c, q)

/-- Serve one segment of a queue's command: its first one starts the command's clock (12 R348, R361). -/
def Machine.serveSegment (m : Machine) (c q e : Nat) : Machine :=
  let m := m.modCmd c q fun k => if k.started then k else { k with started := true, startAt := m.time.now }
  let m := m.modEngine e fun r => { r with lastPart := m.ctxPart c, lastCtx := tset 63 r.lastCtx (m.ctxPart c) c }
  let m := m.modCtx c fun r => { r with ce := { r.ce with lastQ := q } }
  match (m.queue c q).cur with
  | none => m
  | some k =>
    if k.op = 1 ∨ k.op = 2 then m.moveSegment c q e k
    else if k.op = 4 then m.msgSegment c q e k
    else m.reqSegment c q e k

/-- The first segment of a command of an opcode, when it is its queue's turn. -/
def Machine.beginOp (m : Machine) (c q op : Nat) : Machine :=
  match (m.queue c q).cur with
  | none => m
  | some k => if k.op = op ∧ !k.started ∧ m.turn k.engine = some (c, q) then m.serveSegment c q k.engine else m

/-! ### Completion (12 R360–R362) -/

/-- Whether a command's work has ended: every segment is done and every REQ completed. -/
def CeCmd.ended (k : CeCmd) : Bool := k.sent && k.outstanding == 0

/-- Whether a status halts the queue (12 Table 12.6). -/
def ceHalts (st : Nat) : Bool := [0x01, 0x02, 0x03, 0x04, 0x0B].contains st

/-- The interfaces that a command's flush reads: those that carried a write of its set (11 R338; 12 R360). -/
def CeQueue.flushSet (r : CeQueue) (k : CeCmd) : List Nat :=
  let (a, b) := if k.op = 3 then (r.h0Last, r.h1Last) else (k.h0Last, k.h1Last)
  (if a.isSome then [0] else []) ++ (if b.isSome then [1] else [])

/-- A completion record without PHASE (12 Table 12.5). -/
def ceRecord (k : CeCmd) (q now : Nat) (halted : Bool) : List Byte :=
  leBytes 4 (leAt k.bytes 4 4) ++ leBytes 2 k.index ++ leBytes 1 q ++ leBytes 1 k.status ++ leBytes 8 k.moved ++
  leBytes 8 k.result.toNat ++ leBytes 4 (if k.started then min 0xFFFFFFFF (now - k.startAt.toNat) else 0) ++ leBytes 2 0 ++
  leBytes 2 (flag halted)

/-- Write a completion record at the ring's tail, its PHASE word last; the tail is taken modulo the ring's size (12 R361; 06 R561). -/
def Machine.ceRecordOut (m : Machine) (c : Nat) (rc : List Byte) : Machine :=
  let x := (m.ctxAt c).ce
  let rc := if x.cqPhase then rc.set 31 ((rc.getD 31 0) ||| 0x80) else rc
  let i := x.cqTail % max 1 x.cqSize
  (m.hostWrite (x.cqBase.toNat + 32 * i) rc).modCtx c fun r =>
    { r with ce := { r.ce with cqTail := (i + 1) % max 1 x.cqSize
                               cqPhase := if i + 1 = x.cqSize then !x.cqPhase else x.cqPhase } }

/-- Complete a command after its flush: flag, record, vector, and the queue halted or disabled (12 R360–R362, R366). -/
def Machine.ceFinish (m : Machine) (c q : Nat) (k : CeCmd) : Machine :=
  let halts := ceHalts k.status
  let m := if k.opt 2 ∧ !k.inl then (m.hostWrite k.flagAddr (leBytes 8 k.flagValue)).luffStep (128 + k.engine) else m
  let wrote := !(k.opt 4 && k.status == 0)
  let m := if wrote then (m.ceRecordOut c (ceRecord k q m.ns halts)).luffStep (128 + k.engine) else m
  let m := if wrote && k.opt 3 then m.ctxInterrupt c 1 else m
  let m := match k.status with
    | 1 => m.raiseCtx 457 0 c
    | 2 => m.raiseCtx 458 0 c
    | 3 => m.raise 459 0
    | _ => m
  (m.orphanTxns c q).modQueue c q fun r =>
    { r with cur := none
             state := if !r.enable then .disabled else if halts then .halted else r.state
             haltStatus := if halts then k.status else r.haltStatus
             h0Last := if k.flushed then none else r.h0Last
             h1Last := if k.flushed then none else r.h1Last }

/-- A command whose work has ended completes; with FLUSH its flush reads go out first (12 R360, 11 R338). -/
def Machine.ceComplete (m : Machine) (c q : Nat) : Machine :=
  let r := m.queue c q
  match r.cur with
  | none => m
  | some k =>
    if !k.ended || k.flushing || m.fenced c then m
    else
      let set := r.flushSet k
      if k.opt 1 ∧ !set.isEmpty then
        (m.modCmd c q fun k => { k with flushing := true }).flushReads set.length
      else m.ceFinish c q k

/-- An engine fails (12 R367): its commands end with ENGINE, and every queue attached to it is HALTED. -/
def Machine.failEngine (m : Machine) (e : Nat) : Machine :=
  let m := (m.modEngine e fun r => { r with failed := true, inReset := false }).raise (460 + e) e
  (tkeys m.ctx).foldl (fun (m : Machine) c =>
    (List.range 4).foldl (fun (m : Machine) q =>
      let r := m.queue c q
      if r.state ≠ .disabled ∧ engineOf r.cls r.idx = some e then
        ((m.orphanTxns c q).modQueue c q fun r => { r with state := .halted, haltStatus := 0x0B }).modCmd c q fun k =>
          { k with status := 0x0B, failAt := none, sent := true, outstanding := 0, flushing := false }
      else m) m) m

end Sys2Proof.Machine
end

