-- ==== Sys2Proof/Machine/Ce.lean ====
section
/-!
DEFINITION. The commands of the copy engines: queues, doorbells, fetches, segments, opcodes, completions and the package's own reads
of host memory (11 R338, R346; 12 R350–R362).
-/
namespace Sys2Proof.Machine

/-- The page offset of a register of a queue (12 Table 12.7). -/
def queueOffset (q : Fin 4) (o : Nat) : Nat := 0x400 + q.val * 0x20 + o

/-- ENABLE 1 written to a DISABLED queue (12 R350). -/
def execCeQueueEnable (c : CtxId) (q : Fin 4) (f : Func) (cfg : Word) (s : State) : Host.Outcome State Fault Refusal :=
  done s (s.m.pageWrite c.val (funcNum f) (queueOffset q 8) fun m =>
    if (m.queue c.val q.val).state = .disabled then m.enableQueue c.val q.val cfg else m)

/-- ENABLE 0 written to a queue (12 R366). -/
def execCeQueueDisable (c : CtxId) (q : Fin 4) (f : Func) (s : State) : Host.Outcome State Fault Refusal :=
  done s (s.m.pageWrite c.val (funcNum f) (queueOffset q 8) fun m => m.disableQueue c.val q.val)

/-- RESUME written to a HALTED queue (12 R362). -/
def execCeQueueResume (c : CtxId) (q : Fin 4) (f : Func) (s : State) : Host.Outcome State Fault Refusal :=
  done s (s.m.pageWrite c.val (funcNum f) (queueOffset q 8) fun m => m.resumeQueue c.val q.val)

/-- A doorbell write (12 R351). -/
def execCeDoorbell (c : CtxId) (q : Fin 4) (f : Func) (pi : BitVec 16) (s : State) : Host.Outcome State Fault Refusal :=
  done s (s.m.pageWrite c.val (funcNum f) (queueOffset q 0xC) fun m => m.doorbell c.val q.val pi.toNat)

/-- The engine that can fetch a queue's next command now: the queue runs, has work and none in progress, its context is not
fenced, its engine serves, and a completion entry is free (12 R352, R353, R365). -/
def Machine.fetchable (m : Machine) (c q : Nat) : Option Nat :=
  let r := m.queue c q
  match engineOf r.cls r.idx with
  | none => none
  | some e =>
    if r.state = .running ∧ r.enable ∧ r.cur.isNone ∧ r.pi ≠ r.ci ∧ !(m.fenced c) ∧ !(m.engine e).failed ∧ !(m.engine e).inReset ∧ m.ceRoom c
    then some e else none

/-- A queue takes up the command at CI with the bytes fetched, its check's status (12 R352, R356). -/
def Machine.takeCommand (m : Machine) (c q e : Nat) (bytes : List Byte) (st : Nat) : Machine :=
  m.modQueue c q fun r =>
    { r with
      ci := (r.ci + 1) % 65536
      cur := some { index := r.ci, bytes := bytes, engine := e, started := false, startAt := 0, pos := 0, moved := 0, status := st,
                    failAt := none, result := 0, outstanding := 0, sent := st != 0, h0Last := none, h1Last := none,
                    flushing := false, flushed := false } }

/-- The bytes of a command, without any state. -/
def CeCmd.ofBytes (b : List Byte) : CeCmd :=
  { index := 0, bytes := b, engine := 0, started := false, startAt := 0, pos := 0, moved := 0, status := 0, failAt := none, result := 0,
    outstanding := 0, sent := false, h0Last := none, h1Last := none, flushing := false, flushed := false }

/-- A send whose own stream's fence refuses it adds one to the stream's DROPS (10 R313, R318; 12 Table 12.6). -/
def Machine.refuseSend (m : Machine) (c : Nat) (k : CeCmd) (st : Nat) : Machine :=
  let s := m.strmAt k.stream
  if st = 0x05 ∧ s.state = .closing ∧ s.kind = kindMsg ∧ s.ctx = c then m.modStrm k.stream StreamRec.dropOut else m

/-- An engine fetches a queue's next command and checks it (12 R352, R356). -/
def execCeCommandFetch (c : CtxId) (q : Fin 4) (host : Cells) (s : State) : Host.Outcome State Fault Refusal :=
  let m := s.m.hostStores host
  done s (match m.fetchable c.val q.val with
    | none => m
    | some e =>
      let r := m.queue c.val q.val
      let b := m.hostRead (r.base.toNat + r.ci % 2 ^ r.log2size * 256) 256
      let st := m.checkCmd c.val (engineClass e) (.ofBytes b)
      (m.refuseSend c.val (.ofBytes b) st).takeCommand c.val q.val e b st)

/-- COPY begins: its first segment (12 R355). -/
def execCopy (c : CtxId) (q : Fin 4) (s : State) : Host.Outcome State Fault Refusal := done s (s.m.beginOp c.val q.val 1)

/-- FILL begins (12 R355). -/
def execFill (c : CtxId) (q : Fin 4) (s : State) : Host.Outcome State Fault Refusal := done s (s.m.beginOp c.val q.val 2)

/-- FLAG_ONLY: no segment; its flush, flag and record follow (12 R360). -/
def execFlagOnly (c : CtxId) (q : Fin 4) (s : State) : Host.Outcome State Fault Refusal :=
  let m := s.m
  done s (match (m.queue c.val q.val).cur with
    | some k => if k.op = 3 ∧ !k.sent ∧ !(m.fenced c.val) then
        m.modCmd c.val q.val fun k => { k with started := true, startAt := m.time.now, sent := true }
      else m
    | none => m)

/-- MSG sends its frame (12 R358). -/
def execMsg (c : CtxId) (q : Fin 4) (s : State) : Host.Outcome State Fault Refusal := done s (s.m.beginOp c.val q.val 4)

/-- REQ_WRITE begins: its first REQ (12 R359). -/
def execReqWrite (c : CtxId) (q : Fin 4) (s : State) : Host.Outcome State Fault Refusal := done s (s.m.beginOp c.val q.val 5)

/-- REQ_READ begins: its first REQ (12 R359). -/
def execReqRead (c : CtxId) (q : Fin 4) (s : State) : Host.Outcome State Fault Refusal := done s (s.m.beginOp c.val q.val 6)

/-- REQ_FETCH_ADD sends its REQ (12 R359). -/
def execReqFetchAdd (c : CtxId) (q : Fin 4) (s : State) : Host.Outcome State Fault Refusal := done s (s.m.beginOp c.val q.val 7)

/-- REQ_SIGNAL sends its REQ (12 R359). -/
def execReqSignal (c : CtxId) (q : Fin 4) (s : State) : Host.Outcome State Fault Refusal := done s (s.m.beginOp c.val q.val 8)

/-- An engine serves one segment of the queue whose turn it is (12 R348). -/
def execCeSegment (e : Fin 20) (host : Cells) (s : State) : Host.Outcome State Fault Refusal :=
  let m := s.m.hostStores host
  done s (match m.turn e.val with
    | some (c, q) => m.serveSegment c q e.val
    | none => m)

/-- A command completes, or its flush reads go out (12 R360). -/
def execCeCommandComplete (c : CtxId) (q : Fin 4) (s : State) : Host.Outcome State Fault Refusal := done s (s.m.ceComplete c.val q.val)

/-- The flush reads of a command return: its flag and record follow (11 R338). -/
def execFlushReadComplete (c : CtxId) (q : Fin 4) (s : State) : Host.Outcome State Fault Refusal :=
  let m := s.m
  done s (match (m.queue c.val q.val).cur with
    | some k => if k.flushing ∧ !(m.fenced c.val) then m.ceFinish c.val q.val { k with flushing := false, flushed := true } else m
    | none => m)

/-- Whether a context's reads travel on CXL.cache, and so on H0 (11 R334). -/
def Machine.coherent (m : Machine) (c : Nat) : Bool :=
  m.hst.cohRead && (tget HstLink.reset m.hst.links 0).proto != 0 && (tget HstLink.reset m.hst.links 0).up &&
    (m.ctxAt c).base.func == some 0

/-- A read of host memory fails after 10 ms (11 R346): a fetch ends as a command of zeros with HOST_ERR, a segment or a flush ends its
command with it. -/
def execHostReadTimeout (r : HostRead) (s : State) : Host.Outcome State Fault Refusal :=
  let m := s.m
  done s (match r with
    | .fetch c q => match m.fetchable c.val q.val with
      | some e => (m.takeCommand c.val q.val e (List.replicate 256 0) 0x03).raise (srcHst 0 2) 0
      | none => m
    | .segment c q => match (m.queue c.val q.val).cur with
      | some k =>
        if k.op = 1 ∧ !k.inl ∧ engineClass k.engine = 1 ∧ !k.sent then
          let i := if m.onH1 c.val k.engine && !(m.coherent c.val) then 1 else 0
          (m.ceStop c.val q.val 0x03).raise (srcHst i 2) i
        else m
      | none => m
    | .flush c q => match (m.queue c.val q.val).cur with
      | some k =>
        if k.flushing ∧ !(m.fenced c.val) then
          let i := ((m.queue c.val q.val).flushSet k).headD 0
          (m.ceFinish c.val q.val { k with status := 0x03, flushing := false }).raise (srcHst i 2) i
        else m
      | none => m)

end Sys2Proof.Machine
end

