-- ==== Sys2Proof/Machine/HostIf.lean ====
section
/-!
DEFINITION. The host interfaces: link training, windows, watched lines, function resets and lost VFs (11 R319–R345).
-/
namespace Sys2Proof.Machine

/-! ### Links (11 R319–R322, R342, R344) -/

/-- A host link. -/
def Machine.hlink (m : Machine) (n : Nat) : HstLink := tget .reset m.hst.links n
/-- Change a host link; PF vector 4 tells of the change (11 Table 11.5). -/
def Machine.modHlink (m : Machine) (n : Nat) (f : HstLink → HstLink) : Machine :=
  ({ m with hst := { m.hst with links := tset .reset m.hst.links n (f (m.hlink n)) } }).interrupt 0 4

/-- The level of boot step 12 in force: 1 turns CXL off, 2 also limits H0 to PCIe 4.0 (16 Table 16.6). -/
def Machine.h0Level (m : Machine) : Nat := tget 0 m.boot.levels 12

/-- Whether an interface offers CXL: H0, with CXL_EN (11 R320). -/
def Machine.offersCxl (m : Machine) (n : Nat) : Bool := n == 0 && (m.rig 0x09).testBit 1 && m.h0Level == 0 && !m.boot.rescue

/-- The highest PCIe rate code that GEN_LIMIT, the step's level and the stepping allow (11 R320). -/
def Machine.rateLimit (m : Machine) (n : Nat) : Nat :=
  let g := if m.boot.rescue then 3 else if n = 0 ∧ m.h0Level = 2 then 1 else nbits (m.rig 0x09) 2 2
  if m.fuse.stepping = 0 then min g 2 else g

/-- Whether an interface is active: its boot step has run, or H0 in rescue; H1 needs X1 and H1_EN (11 R319; 16 R460, Table 16.6). -/
def Machine.hlinkActive (m : Machine) (n : Nat) : Bool :=
  if n = 0 then m.boot.rescue || m.stepPast 12
  else m.twoDie && (m.rig 0x09).testBit 0 && m.bootSt 13 == BootSt.complete && m.level 11 == 0

/-- An interface trains: CXL at 32 GT/s where the host accepts it, else PCIe at the highest rate allowed (11 R320, R321). -/
def execHostLinkTrain (n : IoDie) (t : HostTrain) (s : State) : Host.Outcome State Fault Refusal :=
  let m := s.m
  let n := n.val
  let ok := t.up && m.hlinkActive n && !(m.hlink n).up && decide (1 ≤ t.rate) && [1, 2, 4, 8, 16].contains t.width
  let cxl := if m.offersCxl n ∧ 2 ≤ t.rate then t.cxl else none
  let rate := if cxl.isSome then 2 else min t.rate (m.rateLimit n)
  let proto := match cxl with
    | some true => 2
    | some false => 1
    | none => 0
  let deg := decide (t.width < 16) || decide (rate < m.rateLimit n) || (n == 0 && (m.rig 0x09).testBit 1 && cxl.isNone)
  done s (if ok then
      let m := m.modHlink n fun l =>
        { l with bigTags := t.tags, up := true, degraded := deg, rate := rate, flit := cxl.isSome || rate == 3, proto := proto, width := t.width }
      if deg then m.raise (srcHst n 1) n else m
    else m)

/-- A host link leaves UP (11 Tables 11.7, 11.8). -/
def Machine.hlinkDown (m : Machine) (n : Nat) : Machine :=
  if (m.hlink n).up then
    (m.modHlink n fun l => { HstLink.reset with downCnt := satAdd 0xFFFF l.downCnt 1 }).raise (srcHst n 0) n
  else m

/-- A queue meets the loss of H1 (11 R344): a command whose flush covers writes on H1 fails with HOST_ERR; at once when its flush reads
are out. -/
def Machine.h1Lost (m : Machine) (c q : Nat) : Machine :=
  let r := m.queue c q
  let clear := fun (m : Machine) => m.modQueue c q fun r => { r with h1Last := none, cur := r.cur.map fun k => { k with h1Last := none } }
  match r.cur with
  | none => clear m
  | some k =>
    if k.opt 1 && (r.flushSet k).contains 1 then
      if k.flushing then if m.fenced c then clear m else clear (m.ceFinish c q { k with status := 0x03, flushing := false })
      else clear (m.ceStop c q 0x03)
    else clear m

/-- H1 fails (11 R344). -/
def execH1LinkDown (s : State) : Host.Outcome State Fault Refusal :=
  let m := s.m
  done s (if (m.hlink 1).up then
      (tkeys m.ctx).foldl (fun (m : Machine) c => (List.range 4).foldl (fun (m : Machine) q => m.h1Lost c q) m) (m.hlinkDown 1)
    else m)

/-! ### Windows (11 R328–R332) -/

/-- The context bound to VF number f, if any. -/
def Machine.vfCtx (m : Machine) (f : Nat) : Option Nat := (tkeys m.ctx).find? fun c => (m.ctxAt c).base.func == some f

/-- The window of a function: its base page and its size in bytes; a VF bound to no LIVE context has no base (11 R328, Table 11.4). -/
def Machine.window (m : Machine) (f : Nat) : Option Nat × Nat :=
  if f = 0 then (some m.hst.pfWin.base, 2 ^ 28) else ((m.vfCtx f).map fun c => (m.ctxAt c).win.base, 2 ^ 24)

/-- Whether every window access of a function is denied: a context of its is fenced, or the package is being reset (11 R332). -/
def Machine.winShut (m : Machine) (f : Nat) : Bool :=
  m.pkgFenced || (tkeys m.ctx).any fun c => (m.ctxAt c).base.func == some f && m.fenced c

/-- Whether an access to a page is allowed (11 Table 11.6). -/
def Machine.winAllowed (m : Machine) (f : Nat) (write : Bool) (p : Nat) : Bool :=
  let e := m.pageAt p
  if m.totalPages ≤ p then false
  else if m.systemPage ≤ p then f == 0 && !write && decide (p < m.systemPage + 32)
  else if e.use = .scrubbing ∨ e.use = .retired then false
  else f == 0 || match m.vfCtx f with
    | some c => e.use == .owned && e.ctx == c
    | none => false

/-- Count a denied access in its function's window status (11 R329). -/
def Machine.deny (m : Machine) (f : Nat) : Machine :=
  let hit := fun (w : Win) => { w with denied := true, count := satAdd 0xFFFF w.count 1 }
  let m := if f = 0 then { m with hst := { m.hst with pfWin := hit m.hst.pfWin } }
    else match m.vfCtx f with
      | some c => m.modCtx c fun r => { r with win := hit r.win }
      | none => m
  m.raise 451 0

/-- The device address of the byte at a window offset, when its page may be accessed. -/
def Machine.winByte (m : Machine) (f : Nat) (write : Bool) (offset : Nat) : Option Nat :=
  match (m.window f).1 with
  | none => none
  | some b =>
    let a := b * pageBytes + offset
    if !(m.winShut f) && m.winAllowed f write (a / pageBytes) then some a else none

/-- A read of a window (11 R329–R331): bytes of denied pages read 0xFF. -/
def execWindowRead (f : Func) (offset length : Nat) (s : State) : Host.Outcome State Fault Refusal :=
  let m := s.m
  let n := funcNum f
  let at_ := (List.range length).map fun i => m.winByte n false (offset + i)
  done s (if length = 0 ∨ (m.window n).2 < offset + length then m
    else
      let out := m.emit (.windowData n offset (at_.map fun a => match a with
        | some a => tget Config.blank m.hbm.bytes a
        | none => 0xFF))
      if at_.any Option.isNone then out.deny n else out)

/-- A write of a window (11 R329–R331): bytes of denied pages are discarded; a poisoned write is discarded whole. -/
def execWindowWrite (f : Func) (offset : Nat) (data : List Byte) (poisoned : Bool) (s : State) : Host.Outcome State Fault Refusal :=
  let m := s.m
  let n := funcNum f
  let at_ := data.zipIdx.map fun e => (m.winByte n true (offset + e.2), e.1)
  done s (if data.isEmpty ∨ (m.window n).2 < offset + data.length then m
    else if poisoned then m.raise 452 0
    else
      let w := at_.foldl (fun (m : Machine) e => match e.1 with
        | some a => m.hbmWrite a [e.2]
        | none => m) m
      if at_.any fun e => e.1.isNone then w.deny n else w)

/-- An AtomicOp to a window is completed with Unsupported Request (11 R330). -/
def execWindowAtomic (f : Func) (offset : Nat) (s : State) : Host.Outcome State Fault Refusal :=
  let m := s.m
  done s (if offset < (m.window (funcNum f)).2 then m.emit (.unsupported (funcNum f)) else m)

/-! ### Watched lines (11 R335) -/

/-- The context and queue whose doorbell register a BAR0 offset names, for a PF-bound context (11 R335; 18 R508). -/
def Machine.watchTarget (m : Machine) (o : Nat) : Option (Nat × Nat) :=
  let c := (o - 0x710000) / 0x1000
  let r := (o - 0x710000) % 0x1000
  if 0x710000 ≤ o ∧ c < 64 ∧ 0x400 ≤ r ∧ r < 0x480 ∧ r % 0x20 = 0x0C ∧ (m.ctxAt c).base.func = some 0 then some (c, (r - 0x400) / 0x20)
  else none

/-- Whether CXL.cache is active on H0 (11 R334). -/
def Machine.cxlActive (m : Machine) : Bool := (m.hlink 0).up && (m.hlink 0).proto != 0

/-- A watch entry. -/
def Machine.watch (m : Machine) (n : Nat) : Watch := tget .reset m.hst.watches n
/-- Change a watch entry. -/
def Machine.modWatch (m : Machine) (n : Nat) (f : Watch → Watch) : Machine :=
  { m with hst := { m.hst with watches := tset .reset m.hst.watches n (f (m.watch n)) } }

/-- A write of HST_WATCH_n_LO: VALID takes hold, or leaves the entry inert with BAD (11 R335). -/
def Machine.setWatch (m : Machine) (n : Nat) (lo : Word) : Machine :=
  let v := bitAt lo 0
  let ok := m.cxlActive && (m.watchTarget (m.watch n).tgt).isSome
  let m := m.modWatch n fun w => { w with valid := v, bad := v && !ok, held := v && ok, lo := bits lo 6 26 }
  if v && !ok then m.raise 454 0 else m

/-- A watch entry is written. -/
def execWatchEntrySet (n : Fin 128) (lo : Word) (s : State) : Host.Outcome State Fault Refusal := done s (s.m.setWatch n.val lo)

/-- A host snoop takes a watched line: it is read again, and its first word is applied to the target as a PF write (11 R335). -/
def execWatchSnoop (n : Fin 128) (host : Cells) (s : State) : Host.Outcome State Fault Refusal :=
  let m := s.m.hostStores host
  let w := m.watch n.val
  let v := ofLe (m.hostRead (w.lo * 64 + w.hi * 2 ^ 32) 4)
  done s (if w.held then match m.watchTarget w.tgt with
      | some (c, q) => m.pageWrite c 0 (0x40C + q * 0x20) fun m => m.doorbell c q (v % 65536)
      | none => m
    else m)

/-! ### Function resets (11 R341–R343) -/

/-- Put a function's MSI-X state back to its reset. -/
def Machine.resetMsix (m : Machine) (f : Nat) : Machine := { m with msix := tclear m.msix (f * 512) 512 }

/-- A VF Function Level Reset: a context reset of its context, and the VF's own state (11 R341). -/
def execVfFlr (n : Fin 64) (s : State) : Host.Outcome State Fault Refusal :=
  let f := n.val + 1
  let m := s.m.resetMsix f
  done s (match m.vfCtx f with
    | none => m
    | some c =>
      let m := m.modCtx c fun r => { r with win := .reset }
      m.orderReset c 1)

/-- Destroy every context bound to a VF that no longer exists (11 R343). -/
def Machine.loseVfs (m : Machine) (top : Nat) : Machine :=
  let lost := (List.finRange 64).filter fun c =>
    (m.ctxAt c.val).base.life == .live && match (m.ctxAt c.val).base.func with
      | some f => decide (top < f)
      | none => false
  let m := lost.foldl (fun (m : Machine) c => m.startDestroy c) m
  if lost.isEmpty then m else m.raise 453 0

/-- VF Enable or NumVFs is written (11 R343). -/
def execVfEnableClear (enable : Bool) (numVfs : Fin 65) (s : State) : Host.Outcome State Fault Refusal :=
  let m := { s.m with hst := { s.m.hst with vfEn := enable, numVf := numVfs.val } }
  done s (m.loseVfs (if enable then numVfs.val else 0))

/-- A reset of the PF (11 R342): VF Enable clears, PF-bound contexts are reset, and the PF's window, CXL, watch and MSI-X state
clears. All but the function reset take H0 out of UP. -/
def execPfFlr (e : PfEvent) (s : State) : Host.Outcome State Fault Refusal :=
  let m := ({ s.m with hst := { s.m.hst with vfEn := false } }).loseVfs 0
  let m := (List.finRange 64).foldl (fun (m : Machine) c =>
    if (m.ctxAt c.val).base.life = .live ∧ (m.ctxAt c.val).base.func = some 0 then m.orderReset c.val 2 else m) m
  let m := ({ m with hst := { m.hst with pfWin := .reset, cohRead := false, watches := [] } }).resetMsix 0
  done s (if e = .functionReset then m else m.hlinkDown 0)

end Sys2Proof.Machine
end

