-- ==== Sys2Proof/Machine/JournalOps.lean ====
section
/-!
DEFINITION. The boot journal at a start: its scan, the levels it gives the steps, and the erasure that keeps room ahead of it
(16 R464–R466, Tables 16.6–16.8).
-/
namespace Sys2Proof.Machine

/-- A journal record as it is read (16 Table 16.7). -/
structure JRec where
  slot : Nat
  type : Nat
  step : Nat
  level : Nat
  run : Nat
  d1 : Nat
  d2 : Nat
  deriving DecidableEq, Repr

/-- The slots with a byte that is not erased, ascending. -/
def Machine.jnlTouched (m : Machine) : List Nat :=
  ((m.flash.filter fun e => decide (journalBase ≤ e.1) && decide (e.1 < journalBase + 16 * journalSlots)).foldl
    (fun (l : List Nat) e =>
      let s := (e.1 - journalBase) / 16
      if l.head? = some s then l else s :: l) []).reverse

/-- The record in a slot; `none` when its TYPE reads 0xFF or its CRC fails (16 R464). -/
def Machine.jnlAt (m : Machine) (slot : Nat) : Option JRec :=
  let b := m.flashBytes (journalBase + 16 * slot) 16
  let w := BitVec.ofNat 128 (ofLe b)
  if b.head? = some 0xFF ∨ (crc16 (b.take 14)).toNat ≠ leAt b 14 2 then none
  else some { slot := slot, type := bits w 0 8, step := bits w 8 6, level := bits w 14 2, run := bits w 32 32, d1 := bits w 64 16,
              d2 := bits w 80 32 }

/-- The first slot after one, in ring order, that is not among the listed ones. -/
def firstGap (used : List Nat) (slot : Nat) : Nat :=
  let after := (used.filter fun s => decide (slot < s)) ++ used.filter fun s => decide (s ≤ slot)
  after.foldl (fun n s => if s = n then (n + 1) % journalSlots else n) ((slot + 1) % journalSlots)

/-- Whether a list rises strictly. -/
def rising (l : List Nat) : Bool := allPairs (fun (a b : Nat) => decide (a < b)) l

/-- What a scan of the journal finds: the valid records, oldest first, the next slot, the highest RUN, and whether the runs can be
ordered: some RUN_START exists and their RUN values rise (16 R466). -/
def Machine.jnlScan (m : Machine) : List JRec × Nat × Nat × Bool :=
  let touched := m.jnlTouched
  let used := touched.filter fun s => (m.flashBytes (journalBase + 16 * s) 1).head? != some 0xFF
  let recs := touched.filterMap m.jnlAt
  let starts := recs.filter fun r => r.type == 1
  let top := recs.foldl (fun a r => max a r.run) 0
  match starts.foldl (fun (a : Option JRec) r => match a with
      | none => some r
      | some x => if x.run < r.run then some r else a) none with
  | none => ([], 0, top, false)
  | some newest =>
    let next := firstGap used newest.slot
    let ring := (recs.filter fun r => decide (next ≤ r.slot)) ++ recs.filter fun r => decide (r.slot < next)
    (ring, next, top, rising ((ring.filter fun r => r.type == 1).map (·.run)))

/-- The highest level that Table 16.6 gives a step. -/
def maxLevel (k : Nat) : Nat :=
  if [4, 5, 6, 7, 8, 9, 12, 19, 25].contains k then 2 else if [11, 13, 14, 15, 16, 18, 23, 37, 40].contains k then 1 else 0

/-- Whether level 1 of a step skips it (16 Table 16.6). -/
def levelSkips (k : Nat) : Bool := [11, 13, 23, 37, 40].contains k

/-- The records after the latest CLEAR. -/
def afterClear (l : List JRec) : List JRec := l.foldl (fun a r => if r.type = 8 then [] else a ++ [r]) []

/-- A step's level, and the records after the ALT that set it (16 R466). -/
def levelOf (l : List JRec) (k : Nat) : Nat × List JRec :=
  l.foldl (fun (a : Nat × List JRec) r => if r.type = 5 ∧ r.step = k then (r.level, []) else (a.1, a.2 ++ [r])) (0, [])

/-- The runs among the records that entered a step at a level and neither completed it nor ended it at its limit. -/
def failedRuns (l : List JRec) (k level : Nat) : List Nat :=
  let entered := ((l.filter fun r => r.type == 2 && r.step == k && r.level == level).map (·.run)).eraseDups
  entered.filter fun n => !(l.any fun r => (r.type == 3 || r.type == 9) && r.step == k && r.run == n)

/-- The units with a PROGRESS record of a step in the runs that failed it at level 0. -/
def progressOf (l : List JRec) (k : Nat) : List Nat :=
  let runs := failedRuns l k 0
  ((l.filter fun r => r.type == 4 && r.step == k && runs.contains r.run).map (·.d1)).eraseDups

/-- The units noted as lost in earlier runs: (kind, index) (16 R469, Table 16.8). -/
def lostOf (l : List JRec) : List (Nat × Nat) :=
  ((l.filter fun r => r.type == 7 && r.d1 % 256 == 0x0C).map fun r => (r.d1 / 256, r.d2)).eraseDups

/-- Set a step's level in force: at three counted failures it rises by one, with an ALT record and BOOT_ALT, or BOOT_SKIP when the new
level skips the step (16 R466). -/
def Machine.raiseLevel (m : Machine) (l : List JRec) (k : Nat) : Machine :=
  let (level, since) := levelOf l k
  let c := (failedRuns since k level).length
  let set := fun (m : Machine) (v : Nat) => m.modBoot fun b => { b with levels := tset 0 b.levels k v }
  if 3 ≤ c ∧ level < maxLevel k then
    (set (m.journal 0x05 k (level + 1) c 0) (level + 1)).raise (if levelSkips k then 555 else 554) k
  else set m level

/-- Erase the journal region. -/
def Machine.jnlErase (m : Machine) : Machine := { m with flash := tclear m.flash journalBase (16 * journalSlots) }

/-- JOURNAL_OPEN: scan, begin the run with its RUN_START, and set the levels. The records of steps 1 to 3 and a failed strap parity are
written once the run's number is known. DEDUCED (log 18). -/
def Machine.openJournal (m : Machine) (straps : Bool) : Machine :=
  let (recs, next, top, ok) := m.jnlScan
  let m := if ok then m else m.jnlErase
  let m := m.modBoot fun b => { b with jnlNext := if ok then next else 0, run := BitVec.ofNat 32 (top + 1), jnlFull := false }
  let m := m.journal 0x01 0 0 0 (m.ns / 1000000)
  let m := (((m.journal 0x02 1 0 0 0).journal 0x03 1 0 0 0).journal 0x02 2 0 0 0).journal 0x03 2 0 0 0
  let m := m.journal 0x02 3 0 0 0
  let m := if ok then m else m.note 0 0x0F 0 0
  let m := if straps then m else m.note 0 0x01 0 m.boot.strap.toNat
  let l := afterClear recs
  let m := if ok then (List.range 41).foldl (fun (m : Machine) k => if k = 0 then m else m.raiseLevel l k) m else m
  if ok then m.modBoot fun b =>
      { b with
        progress := [14, 15, 16, 18].foldl (fun (t : Table (List Nat)) k => tset [] t k (progressOf l k)) []
        lost := lostOf recs }
  else m

/-- The 64 KiB blocks of the journal region. -/
def jnlBlockSlots : Nat := 4096

/-- JOURNAL_CLOSE: erase blocks until at least 256 KiB beyond the last record are erased (16 R465). -/
def Machine.closeJournal (m : Machine) : Machine :=
  let next := m.boot.jnlNext
  let first := if next % jnlBlockSlots = 0 then next / jnlBlockSlots else next / jnlBlockSlots + 1
  let m := { m with flash := (List.range 4).foldl (fun (f : Table Byte) i =>
    tclear f (journalBase + (first + i) % 32 * jnlBlockSlots * 16) (jnlBlockSlots * 16)) m.flash }
  m.modBoot fun b => { b with jnlFull := false }

/-- A write of 1 to BOOT_ALT_CLR: a CLEAR record, which counts from the next run on (16 R466). -/
def Machine.altClear (m : Machine) : Machine := if m.stepPast 3 then m.journal 0x08 0 0 0 0 else m

end Sys2Proof.Machine
end

