-- ==== Sys2Proof/Machine/MemCmds.lean ====
section
/-!
DEFINITION. Memory and streams: tile errors and retirement, page operations, HBM errors, stream operations and the frames that
manage streams (08 R249–R254; 10 R297, R301–R318; 15 R446–R448; 16 R469).
-/
namespace Sys2Proof.Machine

/-! ### Tiles (08 R249–R253, 15 R446) -/

/-- A tile-store word in error (08 R249). A single-bit error is corrected and written back, and TILE_STORE_CORR raised. Otherwise the word
is withheld and raised against the context that holds the tile, and the tile is lost and to be retired (15 R446). The row is the second
error's; the first, which has none, comes with it (log 16). -/
def execTileStoreUncorr (l : TileId) (line : Fin 12288) (corrected : Bool) (s : State) : Host.Outcome State Fault Refusal :=
  let m := s.m
  done s (if (m.mapAt l.val).valid then
      if corrected then m.raise (srcTileStore l.val 0) l.val else
      ((m.raiseTile (srcTileStore l.val 1) l.val).loseTile l.val true).modTile l.val fun t =>
        { t with badLines := if t.badLines.contains line.val then t.badLines else t.badLines ++ [line.val] }
    else m)

/-- Whether logical tile l can be retired now: it waits for it, and no step that uses it is armed or running (08 R251). -/
def Machine.retirable (m : Machine) (l : Nat) : Bool :=
  (m.tileAt l).toRetire && match m.holder l with
    | some h => (m.xc h.1).run.isNone && (m.xc h.1).detected.isNone
    | none => true

/-- Halyard retires a tile, those that are pending on its die in ascending logical index (08 R251). -/
def execTileRetire (l : TileId) (s : State) : Host.Outcome State Fault Refusal :=
  let m := s.m
  let lower := (List.range (l.val % 32)).any fun k => (m.tileAt (l.val / 32 * 32 + k)).toRetire
  done s (if m.retirable l.val && !lower then m.retireTile l.val else m)

/-! ### Pages (10 R301–R303) -/

/-- Answer a page operation (10 R302). -/
def Machine.pageDone (m : Machine) (status : Nat) : Machine :=
  ({ m with part := { m.part with page := { m.part.page with status := status, done := true, busy := false, begun := false } } }).interrupt 0 3

/-- The pages that a page operation names. -/
def PageCmd.range (p : PageCmd) : List Nat := (List.range p.count).map (· + p.first)

/-- The status that a page operation meets before its own check: range, LIVE, RETIRED (10 Table 10.3). -/
def Machine.pageCheck (m : Machine) (p : PageCmd) : Nat :=
  let i := m.ctxPart p.ctx
  if p.count = 0 ∨ !(m.pageIn i p.first) ∨ !(m.pageIn i (p.first + p.count - 1)) then 0x03
  else if (m.ctxAt p.ctx).base.life ≠ .live ∨ m.fenced p.ctx then 0x04
  else if p.range.any fun x => (m.pageAt x).use == .retired then 0x08
  else 0

/-- A page operation of an opcode is in progress and it is its turn (10 R303). -/
def Machine.pagePending (m : Machine) (op : Nat) : Bool := m.part.page.busy && m.part.page.op == op && m.opTurn .page

/-- GRANT: FREE pages become OWNED by the context, all of the range or none (10 R302). -/
def execPageGrant (s : State) : Host.Outcome State Fault Refusal :=
  let m := s.m
  let p := m.part.page
  done s (if m.pagePending 1 then
      let st := m.pageCheck p
      if st ≠ 0 then m.pageDone st
      else if p.range.any fun x => (m.pageAt x).use != .free then m.pageDone 0x05
      else (m.setPages p.first p.count { use := .owned, ctx := p.ctx }).pageDone 0
    else m)

/-- Whether a byte range touches a page. -/
def touches (a n x : Nat) : Bool := n != 0 && decide (a / pageBytes ≤ x) && decide (x ≤ (a + n - 1) / pageBytes)

/-- Whether a page is pinned by a context: its bound image, that image's HBM region, or a MSG stream's buffer (10 R303). -/
def Machine.pinned (m : Machine) (c x : Nat) : Bool :=
  (match (m.xc c).image with
    | some b => touches b.img.addr b.img.totalLen x || touches b.hbmBase b.img.hbmLen x
    | none => false) ||
  (m.streamsOf c).any fun n => let r := m.strmAt n; r.kind == kindMsg && r.state != .closing && touches r.base r.len x

/-- Change the page operation registers. -/
def Machine.modPage (m : Machine) (f : PageCmd → PageCmd) : Machine := { m with part := { m.part with page := f m.part.page } }

/-- RETURN: the context's pages become SCRUBBING, unless one is pinned (10 R302, R303). -/
def execPageReturn (s : State) : Host.Outcome State Fault Refusal :=
  let m := s.m
  let p := m.part.page
  done s (if m.pagePending 2 && !p.begun then
      let st := m.pageCheck p
      if st ≠ 0 then m.pageDone st
      else if p.range.any fun x => !(m.owns p.ctx x) then m.pageDone 0x06
      else if p.range.any fun x => m.pinned p.ctx x then m.pageDone 0x07
      else (m.setPages p.first p.count { use := .scrubbing, ctx := p.ctx }).modPage fun p => { p with begun := true }
    else m)

/-- Returned pages are zeroed and set FREE, and DONE sets (10 R302). -/
def execPageScrubComplete (s : State) : Host.Outcome State Fault Refusal :=
  let m := s.m
  let p := m.part.page
  done s (if m.pagePending 2 && p.begun then
      (m.freePages p.range).pageDone 0
    else m)

/-! ### Uncorrectable HBM lines (10 R297; 15 R446–R448) -/

/-- The tiles with a read of a line outstanding. -/
def Machine.readers (m : Machine) (a : Nat) : List Nat :=
  (tkeys m.tiles).filter fun l => (m.tileAt l).lines.any fun x => !x.write && x.addr / 256 == a / 256

/-- Count an uncorrectable page of a pseudo-channel; 4 distinct ones within a second raise HBM_PCH_FAIL (15 R448). -/
def Machine.pchCount (m : Machine) (stack pch page unit : Nat) : Machine :=
  let r := tget HbmStack.reset m.hbm.stackTbl stack
  let old := r.uncorr.filter fun e => decide (m.ns < e.2.2.toNat + 1000000000)
  let near := old ++ [(pch, page, m.time.now)]
  let n := fun (l : List (Nat × Nat × DWord)) => (((l.filter fun e => e.1 == pch).map fun e => e.2.1).eraseDups).length
  let m := { m with hbm := { m.hbm with stackTbl := tset .reset m.hbm.stackTbl stack { r with uncorr := near } } }
  if n old < 4 ∧ 4 ≤ n near then m.raise 550 unit else m

/-- An uncorrectable line: no unit receives it, its page is RETIRED, HBM_UNCORR enters against the context that owns the page,
against the partition, or at C3 in the system region (10 R297), and the tiles that read it are lost (15 R447). -/
def Machine.uncorrectable (m : Machine) (a : Nat) : Machine :=
  let p := a / pageBytes
  let e := m.pageAt p
  let st := m.stackOf p
  let lost := m.readers a
  let m := if m.systemPage ≤ p then m.raiseAs (srcHbm st 1) 3 st none
    else if e.use = .owned then m.raiseAs (srcHbm st 1) 2 st (some e.ctx)
    else m.raiseAs (srcHbm st 1) 2 (p / max 1 (m.partPagesPerStack * m.hbm.s)) none
  let m := m.setPage p { e with use := .retired }
  let m := m.pchCount st (pchOf a) p (p % max 1 m.hbm.s * 32 + pchOf a)
  lost.foldl (fun m l => m.loseTile l false) m

/-- A sector is corrected and written back: counted, and HBM_CORR raised for its stack (10 R297). -/
def Machine.corrected (m : Machine) (a : Nat) : Machine :=
  let st := m.stackOf (a / pageBytes)
  let r := tget HbmStack.reset m.hbm.stackTbl st
  { m with hbm := { m.hbm with stackTbl := tset .reset m.hbm.stackTbl st { r with corr := satAdd32 r.corr 1 } } }.raise (srcHbm st 0) st

/-- A sector or line in error: corrected, or uncorrectable. The row is the second error's; the first, which has none, comes with it
(log 16). No such line exists outside the address map (10 R298): that stops the machine. -/
def execHbmUncorrectable (addr : BitVec 48) (corrected : Bool) (s : State) : Host.Outcome State Fault Refusal :=
  if s.m.totalPages ≤ addr.toNat / pageBytes then .fault .noSuchAddress
  else done s (if corrected then s.m.corrected addr.toNat else s.m.uncorrectable addr.toNat)

/-! ### Stream operations (10 R305–R318) -/

/-- The status that every stream operation meets first: the stream's partition and owner, and the context's fence
(10 Table 10.7, 15 Table 15.5). -/
def Machine.strmCheck (m : Machine) (c n : Nat) : Nat :=
  let r := m.strmAt n
  if !(m.streamIn (m.ctxPart c) n) || (r.state != .closed && r.ctx != c) then 0x04
  else if (m.ctxAt c).base.life ≠ .live ∨ m.fenced c then 0x05
  else 0

/-- OPEN (10 R307, R308, R310). -/
def Machine.openStream (m : Machine) (c n : Nat) (a : Table Word) : Machine :=
  let kind := bits (tget 0 a 0) 0 3
  let base := (tget 0 a 1).toNat + (tget 0 a 2).toNat * 2 ^ 32
  let len := (tget 0 a 3).toNat
  let st := m.strmCheck c n
  if !(m.openArgs a) then m.stDone c 0x03
  else if st ≠ 0 then m.stDone c st
  else if (m.strmAt n).state ≠ .closed then m.stDone c 0x05
  else if kind = kindMsg ∧ !(m.ownsRange c base len) then m.stDone c 0x06
  else
    let r : StreamRec := { StreamRec.reset with
      state := .open_, kind := kind, ctx := c, peer := BitVec.ofNat 16 (bits (tget 0 a 0) 16 16)
      base := if kind = kindMsg then base else 0, len := if kind = kindMsg then len else 0
      ring := if kind = kindMsg then bits (tget 0 a 4) 0 13 else 0, windowNs := m.windowOf n, openTime := m.time.now }
    let m := m.setStrm n r
    (if kind = kindOut then m.sendHello n else m).stDone c 0

/-- A context's stream operation in progress is the given one, and it is its turn (10 R303). -/
def Machine.stPending (m : Machine) (c op : Nat) : Bool :=
  (m.ctxAt c).st.busy && (m.ctxAt c).st.op == op && m.opTurn (.stream c)

/-- OPEN. -/
def execStreamOpen (c : CtxId) (s : State) : Host.Outcome State Fault Refusal :=
  let m := s.m
  let x := (m.ctxAt c.val).st
  done s (if m.stPending c.val 1 then m.openStream c.val x.stream x.args else m)

/-- CLOSE: the stream's fence starts; of a BOUND stream it is the STREAM violation of the bound image (10 R313). -/
def execStreamClose (c : CtxId) (s : State) : Host.Outcome State Fault Refusal :=
  let m := s.m
  let n := (m.ctxAt c.val).st.stream
  let r := m.strmAt n
  let st := m.strmCheck c.val n
  done s (if m.stPending c.val 2 then
      if st ≠ 0 then m.stDone c.val st
      else if r.state = .closed ∨ r.state = .closing then m.stDone c.val 0x05
      else
        let was := r.state = .bound ∨ (r.state = .held ∧ r.heldFrom = .bound)
        let m := if was then m.detect c.val { reason := 8, ch := r.channel, tile := none } else m
        (m.closeStream n).stDone c.val 0
    else m)

/-- QUERY: the entry's 16 words enter the result registers (10 R308). -/
def execStreamQuery (c : CtxId) (s : State) : Host.Outcome State Fault Refusal :=
  let m := s.m
  let n := (m.ctxAt c.val).st.stream
  let st := m.strmCheck c.val n
  done s (if m.stPending c.val 3 then
      if st ≠ 0 then m.stDone c.val st
      else
        let b := (m.strmAt n).bytes
        (m.modCtx c.val fun r => { r with st := { r.st with
          res := tfill 0 r.st.res 0 ((List.range 16).map fun i => BitVec.ofNat 32 (leAt b (4 * i) 4)) } }).stDone c.val 0
    else m)

/-- HEAD: records up to the new head are freed; a head beyond RING_TAIL is refused (10 R308, R317). -/
def execStreamHead (c : CtxId) (s : State) : Host.Outcome State Fault Refusal :=
  let m := s.m
  let n := (m.ctxAt c.val).st.stream
  let h := bits (tget 0 (m.ctxAt c.val).st.args 0) 0 13
  let r := m.strmAt n
  let st := m.strmCheck c.val n
  done s (if m.stPending c.val 4 then
      if st ≠ 0 then m.stDone c.val st
      else if r.kind ≠ kindMsg ∨ r.state ≠ .open_ then m.stDone c.val 0x05
      else if (r.ringTail + 8192 - r.ringHead) % 8192 < (h + 8192 - r.ringHead) % 8192 then m.stDone c.val 0x03
      else (m.modStrm n fun r => { r with ringHead := h }).stDone c.val 0
    else m)

/-! ### Stream management frames (10 R310, R311) -/

/-- Take the first delivered frame that satisfies a test from an I/O die's inbox. -/
def Machine.takeInbox (m : Machine) (d : Nat) (p : Frame → Bool) : Option (Delivered × Machine) :=
  let l := (m.fwdAt d).inbox
  match l.find? fun x => p x.frame with
  | none => none
  | some x => some (x, m.modFwd d fun r => { r with inbox := l.takeWhile (fun y => !(p y.frame)) ++ (l.dropWhile fun y => !(p y.frame)).drop 1 })

/-- Take the first delivered management frame of an OPX, on X0 or X1. -/
def Machine.takeMgmt (m : Machine) (opx : Nat) : Option (Frame × Machine) :=
  let p := fun (f : Frame) => frType f == 0 && frOpx f == opx
  match m.takeInbox 0 p with
  | some (x, m) => some (x.frame, m)
  | none => (m.takeInbox 1 p).map fun y => (y.1.frame, y.2)

/-- A STREAM_HELLO arrives (10 R310). -/
def execStreamHelloReceive (s : State) : Host.Outcome State Fault Refusal :=
  done s (match s.m.takeMgmt 0x40 with
    | some (f, m) => m.takeHello f
    | none => s.m)

/-- An OUT stream without a credit of its generation repeats its hello (10 R310). -/
def execStreamHelloRepeat (n : StreamId) (s : State) : Host.Outcome State Fault Refusal :=
  let r := s.m.strmAt n.val
  done s (if r.kind = kindOut ∧ (r.state = .open_ ∨ r.state = .bound) ∧ !r.peerSeen then s.m.sendHello n.val else s.m)

/-- A STREAM_CREDIT arrives (10 R311). -/
def execStreamCreditReceive (s : State) : Host.Outcome State Fault Refusal :=
  done s (match s.m.takeMgmt 0x41 with
    | some (f, m) => m.takeCredit f
    | none => s.m)

/-- 100 µs after its last credit frame a BOUND IN stream sends it again (10 R311). -/
def execStreamCreditPeriodic (n : StreamId) (s : State) : Host.Outcome State Fault Refusal := done s (s.m.offerCredit n.val)

/-- 200 µs after its close, once every REQ issued from it has completed, an entry clears to CLOSED (10 R313). -/
def execStreamClosingEnd (n : StreamId) (s : State) : Host.Outcome State Fault Refusal :=
  let r := s.m.strmAt n.val
  let busy := s.m.txn.any fun e => match e.2 with
    | some t => t.stream == n.val
    | none => false
  done s (if r.state = .closing ∧ !busy then s.m.setStrm n.val .reset else s.m)

end Sys2Proof.Machine
end

