-- ==== Sys2Proof/Machine/BootSteps.lean ====
section
/-!
DEFINITION. The work of each boot step (16 R450–R478, Table 16.6): straps, copies, fields, dies, Stay links, tiles, memory, ports,
Halyard's start and the island, the bundle, readiness.
-/
namespace Sys2Proof.Machine

/-! ### Straps and identity (01 R22–R30, 20 R542) -/

/-- Whether the site parity group holds an odd count of ones (01 R25). -/
def Pins.siteOk (p : Pins) : Bool := (ones p.site + flag p.siteP) % 2 == 1

/-- Whether the rack parity group does; a card does not evaluate it (01 R25, 20 R542). -/
def Pins.rackOk (p : Pins) : Bool :=
  p.form || (ones p.slot + ones p.rcol + ones p.rrow + ones p.pod + flag p.rackP) % 2 == 1

/-- BOOT_STRAP (01 Table 1.10). -/
def Pins.strap (p : Pins) : Word :=
  word [(0, p.site.toNat), (4, flag p.siteOk), (8, p.slot.toNat), (11, p.rcol.toNat), (13, p.rrow.toNat), (15, p.pod.toNat),
    (19, flag p.rackOk), (20, flag p.form)]

/-- Whether a shape is listed in Table 1.3 (01 R22). -/
def shapeListed (cols rows : Nat) : Bool := [(0, 0), (1, 0), (1, 1), (2, 1), (2, 2)].contains (cols, rows)

/-- The pod shape from its field, the coordinates and the node ID; a card takes shape 0 and no rack straps (01 R22, R27, R28, R30;
20 R542). NOTE 0x03 and 0x04 record an invalid shape and a coordinate outside it. -/
def Machine.composeNode (m : Machine) : Machine :=
  let p := m.pins
  let v := if p.form then 0 else m.rig 1
  let cols := v % 4
  let rows := v / 4 % 4
  let pods := v / 16 % 16
  let ok := p.form || (shapeListed cols rows && decide (v < 256))
  let inside := decide (p.rcol.toNat < 2 ^ cols) && decide (p.rrow.toNat < 2 ^ rows)
  let x := (if p.form then 0 else p.rcol.toNat * 4) + (if p.form then 0 else p.site.toNat % 4)
  let y := (if p.form then 0 else p.rrow.toNat * 4) + (if p.form then 0 else p.site.toNat / 4)
  let z := if p.form then 0 else p.slot.toNat
  let pod := if p.form ∨ pods = 0 then 0 else p.pod.toNat
  let m := if ok then m else m.note 0 0x03 0 v
  let m := if ok ∧ !p.form ∧ !inside then m.note 0 0x04 0 m.boot.strap.toNat else m
  m.modHly fun h =>
    { h with
      cols := BitVec.ofNat 2 cols, rows := BitVec.ofNat 2 rows, pods := BitVec.ofNat 4 pods, shapeOk := ok
      nodeId := BitVec.ofNat 15 (pack [(0, z), (3, y % 16), (7, x % 16), (11, pod)])
      nodeValid := p.siteOk && p.rackOk && ok && (p.form || inside) }

/-- The code of the first admission check that the package fails on itself; check 0x2 is passed over while the shape is invalid (04 R110,
01 R30, 20 R543). The firmware signature was verified at step 6. -/
def Machine.ownAdmission (m : Machine) : Nat :=
  let p := m.pins
  let h := m.hly.reg
  if !p.siteOk ∨ !p.rackOk then 1
  else if p.form then 0
  else if !h.shapeOk then 3
  else if !(decide (p.rcol.toNat < 2 ^ h.cols.toNat) && decide (p.rrow.toNat < 2 ^ h.rows.toNat)) then 2
  else if !m.shr.presetOk then 4
  else 0

/-! ### Copies (16 R456–R460) -/

/-- Rescue mode: H0 only, every port OFF, not admitted (16 R460). -/
def Machine.rescueMode (m : Machine) : Machine :=
  ((m.modBoot fun b => { b with rescue := true }).modHly fun h => { h with admitCode := 7 }).raise 553 0

/-- IMAGE_ORDER: the higher SEQUENCE first, A on a tie; reversed while any of steps 4–9 is at level 1 (16 R459, Table 16.6). -/
def Machine.orderCopies (m : Machine) : Machine :=
  let bFirst := decide (m.copySeq false < m.copySeq true)
  let reverse := [4, 5, 6, 7, 8, 9].any fun k => m.level k == 1
  m.modBoot fun b => { b with copyB := bFirst != reverse, fallback := false }

/-- A copy fails a check: NOTE 0x08 and BOOT_COPY_BAD; steps 5–8 run on the other copy, or both have failed (16 R459). -/
def Machine.copyFails (m : Machine) (code : Nat) : Machine :=
  let b := m.boot.copyB
  let m := (m.note 0 0x08 (flag b + 2 * code) (m.copySeq b)).raise 552 (flag b)
  if m.boot.fallback then m.rescueMode
  else m.modBoot fun x =>
    { x with copyB := !b, fallback := true, steps := [5, 6, 7, 8].foldl (fun (t : Table BootSt) k => tset BootSt.notRun t k .notRun) x.steps }

/-- Load one field: clamps of R56, invalid shapes and presets kept for their own rules, the default otherwise (16 R456). -/
def Machine.loadField (m : Machine) (n v : Nat) : Machine :=
  if n = 0x01 ∨ n = 0x02 ∨ n = 0x04 then m.setRig n v
  else if n = 0x06 ∨ n = 0x07 then
    let w := max (if n = 0x06 then 300 else 720) (min v (if n = 0x06 then m.gradeCap else m.gradeCeiling))
    (if w = v then m else m.note 0 0x06 n v).setRig n w
  else if m.rigInRange n v then m.setRig n v
  else (m.note 0 0x07 n v).raise 557 n

/-- Whether a preset is listed for this package's die count (03 R77). -/
def Machine.presetListed (m : Machine) (v : Nat) : Bool := if m.twoDie then decide (v < 4) else v == 8 || v == 9

/-- FIELDS_LOAD (16 R456): the fields of the copy in force, then what follows from them at once. HLY_NODE_ID shows the composed ID from
here on, and 0 before: the pod field and the checks of R28 need the pod count and shape, which the fields give. DESIGN CHOICE (log 38). -/
def Machine.loadFields (m : Machine) : Machine :=
  let m := m.modBoot fun b => { b with rig := [] }
  let m := (fieldsOf ((m.copySection m.boot.copyB 1).getD [])).foldl (fun (m : Machine) f => m.loadField f.1 f.2) m
  let preset := m.rig 2
  let ok := m.pins.form || m.presetListed preset
  let m := if ok then m else m.note 0 0x05 0 preset
  let form := m.copyForm m.boot.copyB
  let m := if form = flag m.pins.form then m else m.note 0 0x02 form m.boot.strap.toNat
  let m := m.modBoot fun b => { b with form := form, imageSeq := BitVec.ofNat 32 (m.copySeq m.boot.copyB) }
  let m := { m with
    shr := { m.shr with preset := preset % 16, presetOk := ok, genLimit := m.rig 3 }
    reef := { m.reef with rampUp := m.rig 0x0C } }
  (m.modDb fun d => { d with fingerprint := BitVec.ofNat 32 (m.rig 4), eligible := m.rig 5 == 1 }).composeNode

/-- One entry of the TTL section (16 R457). -/
def Machine.loadTtlEntry (m : Machine) (e : List Byte) : Machine :=
  let w := leAt e 4 2
  let ok := decide (1 ≤ w) && decide (w ≤ 64000)
  let m := if ok then m else m.note 0 0x07 0xFF w
  m.modSrc (leAt e 0 2) fun r =>
    { r with n := leAt e 2 1, wMs := if ok then w else 1000, survive := some (leAt e 3 1 % 2 == 1) }

/-- TTL_LOAD (16 R457; 14 R411, R412, R414). -/
def Machine.loadTtl (m : Machine) : Machine :=
  let c := m.rig 0x0B
  let m := m.modTtl fun t => { t with pinMin := c % 8, autoHold := c.testBit 3, injectEn := c.testBit 4 }
  (entries8 ((m.copySection m.boot.copyB 2).getD [])).foldl (fun (m : Machine) e => m.loadTtlEntry e) m

/-- Record a measurement (16 R478). -/
def Machine.measure (m : Machine) (k : Nat) (digest : List Byte) : Machine :=
  m.modBoot fun b => { b with meas := tset [] b.meas k digest }

/-- Steps 5–8 on the copy in force: its check, and on a pass the step's own work. -/
def Machine.copyStep (m : Machine) (k : Nat) : Machine :=
  match m.copyCheck m.boot.copyB k with
  | some code => m.copyFails code
  | none =>
    let sec := fun (t : Nat) => m.copySection m.boot.copyB t
    (match k with
    | 6 => m.measure 0 (sha384 (manifestOf ((sec 3).getD [])))
    | 7 => m.loadFields
    | 8 => (m.loadTtl.measure 1 (sha384 ((sec 1).getD []))).measure 2 (((sec 2).map sha384).getD [])
    | _ => m).completeStep k

/-! ### Dies, Stay links, tiles (02 Tables 2.2, 2.3; 03 R105; 08 R250; 16 R469) -/

/-- Write a PROGRESS record for each unit completed. -/
def Machine.progress (m : Machine) (k : Nat) (units : List Nat) : Machine :=
  units.foldl (fun (m : Machine) u => m.journal 0x04 k (m.level k) u 0) m

/-- Whether a step at level 1 leaves a unit out: it has no PROGRESS record in the failed runs (16 Table 16.6). -/
def Machine.leftOut (m : Machine) (k u : Nat) : Bool := m.level k == 1 && !((tget [] m.boot.progress k).contains u)

/-- Whether X1 is in use: fitted, and not skipped at step 11 (16 R469). -/
def Machine.x1InUse (m : Machine) : Bool := m.twoDie && m.level 11 == 0

/-- The two ends of a Stay link: compute dies 0–3, and 4, 5 for X0, X1 (03 Table 3.11). -/
def stayEnds (l : Nat) : Nat × Nat :=
  if l = 0 then (0, 1) else if l = 1 then (2, 3) else if l = 2 then (0, 2) else if l = 3 then (1, 3)
  else if l < 8 then (l - 4, 4) else (l - 8, 5)

/-- Whether a Stay link is present: both its dies are (02 R51). -/
def Machine.stayPresent (m : Machine) (l : Nat) : Bool :=
  let fitted := fun (d : Nat) => if d < 4 then bitAt m.fuse.cdieMask d else if d = 5 then m.twoDie else true
  fitted (stayEnds l).1 && fitted (stayEnds l).2

/-- CDIE_POWER: the dies in use, and their core rails at the set point (16 Table 16.6, step 14; 13 R369). -/
def Machine.powerDies (m : Machine) (units : List Nat) : Machine :=
  let use := (onePositions m.fuse.cdieMask).filter fun d => !(m.leftOut 14 d)
  let m := (m.modBoot fun b => { b with cdieOk := maskOf 4 use }).progress 14 (units.filter use.contains)
  use.foldl (fun (m : Machine) d => m.modRdie d fun r => { r with vset := m.vaim d }) m

/-- The data lanes of a Stay link; its spares are the lanes after them (03 Table 3.11). -/
def stayData (l : Nat) : Nat := if l < 4 then 512 else 256

/-- The spare lanes of a Stay link (03 Table 3.11). -/
def staySpares (l : Nat) : Nat := if l < 4 then 16 else 8

/-- A lane of a Stay link as one number, as the failed lanes of step 15 come: 1,024 × link + lane. -/
def stayLane (l i : Nat) : Nat := 1024 * l + i

/-- The lanes of a Stay link that failed the test, data lanes and spares. -/
def stayFailed (failed : List Nat) (l : Nat) : List Nat :=
  (List.range (stayData l + staySpares l)).filter fun i => failed.contains (stayLane l i)

/-- A link's good spares over its failed data lanes, both ascending (03 R105). The order is DESIGN CHOICE (log 40). -/
def stayRepairs (failed : List Nat) (l : Nat) : List (Nat × Nat) :=
  let bad := stayFailed failed l
  ((bad.filter fun i => decide (i < stayData l)).zip
    (((List.range (staySpares l)).map fun i => stayData l + i).filter fun i => !(bad.contains i))).map fun e => (stayLane l e.1, e.2)

/-- STAY_TEST: every Stay lane is tested and spares are mapped over failed lanes; a link whose failed lanes outnumber its spares makes the
compute die at its far end unusable (03 R105, 16 R469). X1 out of use fails its links but no compute die. DEDUCED (log 18). -/
def Machine.testStay (m : Machine) (units failed : List Nat) : Machine :=
  let present := (List.range 12).filter m.stayPresent
  let bad := present.filter fun l => decide (staySpares l < (stayFailed failed l).length) || m.leftOut 15 l
  let out := present.filter fun l => decide (8 ≤ l) && !m.x1InUse
  let ok := present.filter fun l => !(bad.contains l) && !(out.contains l)
  let lost := bad.map fun l => if l < 4 then stayFarDie l else (stayEnds l).1
  let m := { m with shr := { m.shr with
    stayOk := maskOf 12 ok
    spareUsed := maskOf 12 (ok.filter fun l => !(stayRepairs failed l).isEmpty)
    stayMap := (ok.flatMap (stayRepairs failed)).foldl (fun (t : Table (Option Nat)) (e : Nat × Nat) => tset none t e.1 (some e.2)) [] } }
  (m.modBoot fun b => { b with cdieOk := lost.foldl (fun (w : BitVec 4) d => setBit w d false) b.cdieOk }).progress 15
    (units.filter present.contains)

/-- TILE_TEST of a tile in a start run: it passes, or it is UNUSABLE, as every tile of an unusable die is (08 Table 8.9; 16 R469, Table 16.6). -/
def Machine.testTile (m : Machine) (u : Nat) (ok : Bool) : Machine :=
  m.setPhys (u / 36) (u % 36) { use := if ok && bitAt m.boot.cdieOk (u / 36) then .spare else .unusable, logical := 0 }

/-- TILE_TEST of a tile in a reset run, which keeps the tile map (08 R251, R254): a mapped tile that fails is to be retired (15 R446), a spare that
fails is a spare no more. DEDUCED (log 60). -/
def Machine.retestTile (m : Machine) (u : Nat) (ok : Bool) : Machine :=
  let r := m.physAt (u / 36) (u % 36)
  if ok then m
  else if r.use = .mapped then (m.modTile r.logical fun t => { t with toRetire := true }).raise 549 r.logical
  else if r.use = .spare then m.setPhys (u / 36) (u % 36) { r with use := .unusable }
  else m

/-- TILE_TEST: each physical tile of the package passes or fails. -/
def Machine.testTiles (m : Machine) (units failed : List Nat) : Machine :=
  let m := ((List.range 144).filter fun u => bitAt m.fuse.cdieMask (u / 36)).foldl (fun (m : Machine) u =>
    let ok := !(failed.contains u || m.leftOut 16 u)
    if m.boot.resetRun then m.retestTile u ok else m.testTile u ok) m
  m.progress 16 units

/-- TILE_MAP of a die: its logical tiles on its usable physical tiles, both ascending (08 R250). -/
def Machine.mapDie (m : Machine) (d : Nat) : Machine :=
  let usable := if bitAt m.boot.cdieOk d then (List.range 36).filter fun p => (m.physAt d p).use == PhysUse.spare else []
  (List.range 32).foldl (fun (m : Machine) k =>
    let l := 32 * d + k
    match usable[k]? with
    | some p => ({ m with tileMap := tset .reset m.tileMap l { phys := p, valid := true, spare := false } }).setPhys d p
        { use := .mapped, logical := l }
    | none => { m with tileMap := tset .reset m.tileMap l .reset }) m

/-- TILE_MAP of a die in a reset run: its entries stay, but for the tiles that are to be retired, in ascending logical index; while the die is
unusable they have VALID 0 (08 R251, R254; 16 R469). -/
def Machine.remapDie (m : Machine) (d : Nat) : Machine :=
  let ok := bitAt m.boot.cdieOk d
  (List.range 32).foldl (fun (m : Machine) k =>
    let l := 32 * d + k
    let e := m.mapAt l
    if ok && (m.tileAt l).toRetire then m.retireTile l
    else { m with tileMap := tset .reset m.tileMap l { e with valid := ok && (m.physAt d e.phys).use == .mapped && (m.physAt d e.phys).logical == l } }) m

/-- TILE_MAP. -/
def Machine.mapTiles (m : Machine) : Machine :=
  [0, 1, 2, 3].foldl (fun (m : Machine) d => if m.boot.resetRun then m.remapDie d else m.mapDie d) m

/-! ### HBM (02 Table 2.2; 10 R293–R299) -/

/-- The compute die that a stack attaches to (02 Table 2.2). -/
def Machine.stackHome (m : Machine) (k : Nat) : Nat :=
  if bitAt m.fuse.cdieMask 2 then k / 2 else if k < 4 then k / 2 else (k - 4) / 2

/-- HBM_PHY: the stacks whose PHY runs (16 Table 16.6, step 18). -/
def Machine.startPhys (m : Machine) (units : List Nat) : Machine :=
  let m := { m with hbm := { m.hbm with stackTbl := (List.range 8).foldl (fun (t : Table HbmStack) k =>
    let r := tget HbmStack.reset t k
    let there := bitAt m.fuse.stackMask k
    tset HbmStack.reset t k { r with present := there
                                     usable := there && bitAt m.boot.cdieOk (m.stackHome k) && !(m.leftOut 18 k) }) m.hbm.stackTbl } }
  m.progress 18 units

/-- The highest rate step that step 19 tries (16 Table 16.6). -/
def Machine.firstRate (m : Machine) : Nat :=
  if m.level 19 = 2 then 2 else if m.level 19 = 1 then min 2 (m.rig 8 + 1) else m.rig 8

/-- HBM_TRAIN: each usable stack's step passed; all run at the lowest any passed; a low total raises HBM_LOW. At a package reset a change
is noted, the contents stay on their stacks, and RETIRED pages are FREE again (10 R294–R298). -/
def Machine.trainHbm (m : Machine) (train : List (Nat × Nat)) : Machine :=
  let old : Nat × List Nat := (m.hbm.step, m.usableStacks)
  let one := fun (k : Nat) (r : HbmStack) =>
    let t := train.getD k (0, 0)
    let step := max m.firstRate t.1
    let ok := r.usable && decide (step < 3)
    { r with usable := ok, step := if ok then step else 0, badPch := if r.present then t.2 % 32 else 0 }
  let stackTbl := (List.range 8).foldl (fun (t : Table HbmStack) k => tset HbmStack.reset t k (one k (tget HbmStack.reset t k))) m.hbm.stackTbl
  let use := (List.range 8).filter fun k => (tget HbmStack.reset stackTbl k).usable
  let step := use.foldl (fun a k => max a (tget HbmStack.reset stackTbl k).step) 0
  let low := lowBandwidth m.fuse.hbm3e use.length step
  let m := { m with hbm := { m.hbm with stackTbl := stackTbl, s := use.length, step := step, low := low, refresh := false, shown := true } }
  let m := if m.boot.resetRun then (m.remapHbm old.2 use).unretirePages else m
  let m := if m.boot.resetRun && (old.1 != step || old.2 != use) then m.note 0 0x0B 0 (pack [(0, m.hbm.s), (4, step), (6, flag low)]) else m
  if low then m.raise 444 0 else m

/-- HBM_ZERO: partition capacity written to zero, every page FREE. -/
def Machine.zeroHbm (m : Machine) : Machine :=
  { m with hbm := { m.hbm with pages := [], bytes := tclear m.hbm.bytes 0 (m.systemPage * pageBytes) } }

/-- The units lost: (kind, index) (16 R469, Table 16.8). -/
def Machine.unitsLost (m : Machine) : List (Nat × Nat) :=
  (((onePositions m.fuse.cdieMask).filter fun d => !(bitAt m.boot.cdieOk d)).map fun d => (0, d)) ++
  (((onePositions m.fuse.stackMask).filter fun k => !(tget HbmStack.reset m.hbm.stackTbl k).usable).map fun k => (1, k)) ++
  (((List.range 12).filter fun l => m.stayPresent l && !(bitAt m.shr.stayOk l)).map fun l => (2, l)) ++
  (((onePositions m.fuse.iodieMask).filter fun d => !(bitAt m.boot.iodieOk d)).map fun d => (3, d))

/-- YIELD_MAP: a unit lost since the previous run is noted and raises BOOT_YIELD; the map goes to the master as the step completes (16 R469). -/
def Machine.yieldMap (m : Machine) : Machine :=
  let lost := m.unitsLost
  let m := (lost.filter fun u => !(m.boot.lost.contains u)).foldl (fun (m : Machine) u => (m.note 0 0x0C u.1 u.2).raise 559 u.1) m
  m.modBoot fun b => { b with lost := lost }

/-! ### Ports and Halyard (03 R77–R79; 04 R109, R110; 20 R542–R544) -/

/-- The ports per direction of a preset on an I/O die (03 Table 3.2). -/
def presetCounts (code die : Nat) : List Nat :=
  if code = 1 ∨ code = 9 then [3, 3, 2, 2, 1, 1]
  else if code = 3 then (if die = 0 then [3, 3, 2, 2, 1, 1] else [2, 2, 2, 2, 1, 1])
  else if code = 2 ∧ die = 1 then [2, 2, 2, 2, 1, 1]
  else [2, 2, 2, 2, 2, 2]

/-- The ports of an I/O die with their directions and positions (03 R78). -/
def presetPorts (code die : Nat) : List (Nat × Nat × Nat) :=
  let base := 3 * die
  let plain := (List.range 6).flatMap fun d => (List.range ((presetCounts code die).getD d 0)).map fun i => (d, base + i)
  let more := if die = 1 ∧ (code = 2 ∨ code = 3) then [(4, 5), (5, 5)] else []
  (List.range 12).filterMap fun i => ((plain ++ more)[i]?).map fun e => (12 * die + i, e.1, e.2)

/-- Assign a port, its reason 0x01 until a failure gives another (03 R86), and start DETECT; at level 2 of step 25 only positions 0 and 3 train (16 R467). -/
def Machine.assignPort (m : Machine) (cables : List CableRead) (e : Nat × Nat × Nat) : Machine :=
  let m := m.modPort e.1 fun r => { r with stat := { r.stat with dir := e.2.1, pos := e.2.2, assigned := true, reason := 1, lastFail := 1 } }
  if m.level 25 = 2 ∧ e.2.2 ≠ 0 ∧ e.2.2 ≠ 3 then m.portDown e.1 0x0D
  else m.enterDetect e.1 (cables.getD e.1 { pins := 3, rate := none })

/-- SHR_ASSIGN: the preset's ports (03 R77–R79); at level 1 of step 25 every port is limited to SL2 (16 R467). -/
def Machine.assignPorts (m : Machine) (cables : List CableRead) : Machine :=
  if m.pins.form ∨ !m.shr.presetOk then m
  else
    let m := if m.level 25 = 1 then { m with shr := { m.shr with genLimit := 1 } } else m
    let ports := presetPorts m.shr.preset 0 ++ if m.x1InUse then presetPorts m.shr.preset 1 else []
    ports.foldl (fun (m : Machine) e => m.assignPort cables e) m

/-- Island mode: master of a pod of one, with quorum, time root, its first epoch opened (20 R543, R544; 04 R109). -/
def Machine.enterIsland (m : Machine) : Machine :=
  let m := m.modHly fun h => { h with state := .island, role := .master, master := m.node, standby := 0xFFFF, quorum := true }
  let m := m.modDb fun d => { d with nodes := [m.ownNode], links := [], settled := true }
  m.makeRoot.openEpoch

/-- HALYARD_START: the package's own admission, HLY_ADMIT_FAIL when it fails; a card enters island mode; with a port ACTIVE already, DISCOVER (04 R109, R110). -/
def Machine.startHalyard (m : Machine) : Machine :=
  let code := m.ownAdmission
  let m := m.modHly fun h => { h with admitCode := code, admitted := code == 0 }
  let m := if code = 0 then m else m.raise 499 0
  if m.pins.form then m.enterIsland
  else if m.hly.reg.state = .start ∧ (List.range 24).any (fun p => (m.port p).stat.state == .active) then
    m.modHly fun h => { h with state := .discover }
  else m

/-! ### The bundle and readiness (16 R471, R477, R478) -/

/-- FW_STAGE: the copy's bundle is staged when it is authentic; FW_SIG otherwise (16 R471, R476). -/
def Machine.stageBundle (m : Machine) : Machine :=
  let m := match m.ownBundle with
    | none => m
    | some l =>
      if m.sectionOk l 2 then m.modBcast fun b => { b with staged := some (bundleIdOf (manifestOf l)) }
      else m.raise 560 (((badChunk l).getD 0) % 256)
  m.modBoot fun b => { b with fwRerun := b.fwRerun || m.stepPast 28 }

/-- What follows the staging once the step is complete. -/
def Machine.staged (m : Machine) : Machine := ((if m.stepPast 28 then m.sendHave else m).bundleSettle).fetchAdvert

/-- HALYARD_SWITCH: whether the bundle's Halyard differs from the one that runs is not stated, so it is a free value (16 R477, log 7). -/
def Machine.switchHalyard (m : Machine) : Machine :=
  m.modBoot fun b => { b with fw := { b.fw with hlySwitched := (Config.freeOf [6, b.fw.tag.toNat]).getLsbD 0 } }

/-- The four measurements, 192 bytes; one not taken reads 0. -/
def Machine.measureBytes (m : Machine) : List Byte :=
  (List.range 4).flatMap fun k => let d := tget [] m.boot.meas k; if d.isEmpty then List.replicate 48 0 else d

/-- MEASURE: the measurements are offered to Farnis (16 R478). -/
def Machine.offerMeasures (m : Machine) : Machine := m.toFarnis (mctpMsg 4 5 false false 0 m.measureBytes)

/-- The work of a step other than 4–8, 25 and 27–31 (16 Table 16.6). -/
def Machine.stepWork (m : Machine) (k : Nat) (i : BootInputs) : Machine :=
  match k with
  | 3 => m.openJournal (m.pins.siteOk && m.pins.rackOk)
  | 4 => m.orderCopies
  | 11 => m.modBoot fun b => { b with iodieOk := b.iodieOk ||| 2 }
  | 14 => m.powerDies i.units
  | 15 => m.testStay i.units i.failed
  | 16 => m.testTiles i.units i.failed
  | 17 => m.mapTiles
  | 18 => m.startPhys i.units
  | 19 => m.trainHbm i.train
  | 20 => m.zeroHbm
  | 21 => { m with hbm := { m.hbm with pc := m.systemPage } }
  | 22 => m.yieldMap
  | 23 => m.stageBundle
  | 24 => m.assignPorts i.cables
  | 26 => m.startHalyard
  | 32 => m.measure 3 (sha384 (m.sourceManifest m.boot.fw.source))
  | 33 => m.switchHalyard
  | 36 => m.modBoot fun b => { b with partsReady := true }
  | 37 => m.offerMeasures
  | 38 => m.modBoot fun b => { b with locked := true }
  | 39 => m.modBoot fun b => { b with ready := true }
  | 40 => m.closeJournal
  | _ => m

end Sys2Proof.Machine
end

