-- ==== Sys2Proof/Machine/MasterCmds.lean ====
section
/-!
DEFINITION. The Halyard, planner and slice commands as the master executes them (04 R136–R138, Table 4.9; 05 Table 5.6;
06 R192–R194, Table 6.5; 18 R520, Table 18.6), one function per command.
-/
namespace Sys2Proof.Machine

/-! ### Arguments (18 R520) -/

/-- An argument word. -/
def HlyCmdRec.arg (c : HlyCmdRec) (i : Nat) : Word := c.args.getD i 0

/-- Whether every argument bit outside the given masks is 0. -/
def HlyCmdRec.only (c : HlyCmdRec) (masks : List Word) : Bool :=
  (List.range 14).all fun i => (c.arg i &&& ~~~ (masks.getD i 0)) == 0

/-- NP: node and port. -/
def HlyCmdRec.np (c : HlyCmdRec) (i : Nat) : NodeId × Nat := (BitVec.ofNat 16 (bits (c.arg i) 0 16), bits (c.arg i) 16 5)

/-- A host address in two words. -/
def HlyCmdRec.addr (c : HlyCmdRec) (i : Nat) : Nat := (c.arg i).toNat + (c.arg (i + 1)).toNat * 2 ^ 32

/-- The mask of an NP argument. -/
def npMask : Word := 0x001FFFFF

/-- A whole word. -/
def wordMask : Word := 0xFFFFFFFF

/-- Status codes of Table 4.10. -/
def stOk : Nat := 0x00
/-- BAD_ARG. -/
def stBadArg : Nat := 0x03
/-- NO_QUORUM. -/
def stNoQuorum : Nat := 0x05
/-- DENIED. -/
def stDenied : Nat := 0x06
/-- TOO_SMALL. -/
def stTooSmall : Nat := 0x07

/-- What ends a command with a status and no results. -/
def endAct (status : Nat) : MasterAct := .finish status [] []

/-- End with a status and no results. -/
def Machine.endWith (m : Machine) (status : Nat) : Machine := m.finishCmd status [] []

/-- The link record of a port the named node's preset assigns (04 Table 4.10). -/
def Machine.linkOf (m : Machine) (np : NodeId × Nat) : Option LinkRec :=
  m.hly.db.links.find? fun l => l.node == np.1 && l.port == np.2

/-- Whether the database names a package. -/
def Machine.known (m : Machine) (n : NodeId) : Bool := (m.nodeRec n).isSome

/-! ### Halyard commands (04 Table 4.9) -/

/-- PORT_DISABLE: remove the link in a new epoch, then take the port DOWN. -/
def Machine.cmdPortDisable (m : Machine) (c : HlyCmdRec) : Machine :=
  if !(c.only [npMask]) ∨ (m.linkOf (c.np 0)).isNone then m.endWith stBadArg
  else m.nextChange (.linkDisabled (c.np 0).1 (c.np 0).2 true) [.portDown (c.np 0).1 (c.np 0).2, .finishEpoch]

/-- Return a port of this package to DETECT: one disabled by command or DOWN, in HOLDOFF too (04 R137; 03 R87).
-/
def Machine.enablePort (m : Machine) (p : Nat) (cable : CableRead) : Machine :=
  let r := m.port p
  if r.stat.state = .down ∨ r.stat.state = .holdoff ∨ r.train.disabled then
    ((m.modPort p fun r => { r with train := { r.train with disabled := false, attempts := 0 } }).enterDetect p cable).floodOwn
  else m

/-- PORT_ENABLE: order the port back to DETECT; any other port is left as it is, with status OK. -/
def Machine.cmdPortEnable (m : Machine) (c : HlyCmdRec) : Machine :=
  if !(c.only [npMask]) then m.endWith stBadArg
  else match m.linkOf (c.np 0) with
    | none => m.endWith stBadArg
    | some _ =>
      if !m.fullAuthority then m.endWith stNoQuorum
      else
        let (n, p) := c.np 0
        let m := m.submit (.linkDisabled n p false)
        let m := if n = m.node then
            match c.cable with
            | some cb => m.enablePort p cb
            | none => m.tell n (.portOrder 0x03 p)
          else m.tell n (.portOrder 0x03 p)
        m.endWith stOk

/-- PORT_FULL_TRAIN: remove the link in a new epoch, then both ends train it from DETECT. -/
def Machine.cmdPortFullTrain (m : Machine) (c : HlyCmdRec) : Machine :=
  if !(c.only [npMask]) then m.endWith stBadArg
  else match m.linkOf (c.np 0) with
    | none => m.endWith stBadArg
    | some l =>
      if !m.fullAuthority then m.endWith stNoQuorum
      else m.nextChange (.linkOut l.node l.port) [.fullTrain l.node l.port l.farNode l.farPort c.cable, .finishEpoch]

/-- PORT_TEST_RETRAIN: a fast retrain with reason 0x4; routes unchanged. -/
def Machine.cmdPortTestRetrain (m : Machine) (c : HlyCmdRec) : Machine :=
  if !(c.only [npMask]) ∨ (m.linkOf (c.np 0)).isNone then m.endWith stBadArg
  else
    let (n, p) := c.np 0
    (if n = m.node then m.startRetrain p 0x4 else m.tell n (.portOrder 0x05 p)).endWith stOk

/-- MASTER_HANDOVER: once it is committed, the target becomes master and this package standby. -/
def Machine.cmdMasterHandover (m : Machine) (c : HlyCmdRec) : Machine :=
  let n : NodeId := BitVec.ofNat 16 (bits (c.arg 0) 0 16)
  if !(c.only [0xFFFF]) ∨ !(m.known n) then m.endWith stBadArg
  else if m.pins.form then m.endWith stDenied
  else if !m.fullAuthority then m.endWith stNoQuorum
  else if !(m.candidates.any fun r => r.node == n) then m.endWith stDenied
  else if n = m.node then m.endWith stOk
  else m.commitThen [.handover n]

/-- The committed handover: the target takes the state of the master, the command ends, and every other one that waits ends DROPPED
(04 R137, R138). -/
def Machine.giveMaster (m : Machine) (n : NodeId) : Machine :=
  let m := ((m.endWith stOk).tell n (.handover m.replica)).dropCmds
  let m := m.modHly fun h => { h with role := .standby, master := n, standby := m.node }
  { m with hly := { m.hly with work := .reset } }.modTime fun t => { t with root := false }

/-- MASTER_CONFIRM: full authority for a provisional master until the next election (04 R117). -/
def Machine.cmdMasterConfirm (m : Machine) (c : HlyCmdRec) : Machine :=
  if !(c.only []) then m.endWith stBadArg
  else ((m.modDb fun d => { d with confirmed := true }).releaseHeld).commitThen [endAct stOk]

/-- PACKAGE_DRAIN: mark the node draining, remove it in a new epoch, then mark it drained. -/
def Machine.cmdPackageDrain (m : Machine) (c : HlyCmdRec) : Machine :=
  let n : NodeId := BitVec.ofNat 16 (bits (c.arg 0) 0 16)
  if !(c.only [0xFFFF]) ∨ !(m.known n) then m.endWith stBadArg
  else (m.memberGone n 0x04).nextChange (.nodeState n 1) [.drained n, .finishEpoch]

/-- PACKAGE_RESTORE: return a drained node to present in the next epoch. -/
def Machine.cmdPackageRestore (m : Machine) (c : HlyCmdRec) : Machine :=
  let n : NodeId := BitVec.ofNat 16 (bits (c.arg 0) 0 16)
  if !(c.only [0xFFFF]) then m.endWith stBadArg
  else match m.nodeRec n with
    | none => m.endWith stBadArg
    | some r =>
      if !m.fullAuthority then m.endWith stNoQuorum
      else if r.state ≠ 2 then m.endWith stDenied
      else m.nextChange (.nodeState n 0) [.finishEpoch]

/-! ### Slice requests and demands (05 R154; 06 R193) -/

/-- A demand record (05 Table 5.2), marked malformed where R154 makes it so whatever the slice. -/
def readDemand (twoDie : Bool) (tag : Nat) (b : List Byte) : Demand :=
  let pattern := leAt b 2 1
  let flags := leAt b 3 1
  let src := leAt b 4 2
  let dst := leAt b 6 2
  let window := leAt b 16 4
  let step := leAt b 20 4
  let scale := leAt b 24 2
  let code := pattern % 16
  { slice := tag, pattern := code, axis := pattern / 16 % 4, plane := flags % 2, noScale := flags / 2 % 2 == 1,
    partialOk := flags / 4 % 2 == 1, src := BitVec.ofNat 16 src, dst := BitVec.ofNat 16 dst, stream := leAt b 8 2 % 4096,
    riseW := leAt b 10 2, bytes := leAt b 12 4, windowNs := window, stepNs := step, maxScale := scale, id := leAt b 28 4,
    malformed :=
      decide (4096 ≤ leAt b 0 2) || decide (7 < code) || pattern / 16 % 4 == 3 || decide (64 ≤ pattern) || decide (8 ≤ flags) ||
      decide (4096 ≤ leAt b 8 2) || !(zeroAt b 26 2) || step == 0 || decide (step < window) || decide (scale < 256) ||
      decide (1024 < scale) || (flags % 2 == 1 && !twoDie) || (code != 0 && code != 6 && src != 0xFFFF) ||
      (code != 0 && dst != 0xFFFF) }

/-- The demand records that follow a request record. -/
def readDemands (twoDie : Bool) (tag : Nat) (b : List Byte) : Nat → List Demand
  | 0 => []
  | n + 1 => readDemand twoDie tag (b.take 32) :: readDemands twoDie tag (b.drop 32) n

/-- A slice request (06 Table 6.4); `none` when R193 makes it malformed. -/
def Machine.readRequest (m : Machine) (tag : Nat) (b : List Byte) : Option SliceReq :=
  let flags := leAt b 3 1
  let org := leAt b 4 2
  let parts := leAt b 6 1
  let k := parts % 16
  let i := parts / 16
  let n := leAt b 14 2
  let hint := (org / 128 % 16, org / 8 % 16, org % 8)
  let bad := leAt b 0 1 == 0 || leAt b 1 1 == 0 || leAt b 2 1 == 0 || decide (4 ≤ flags) || flags == 2 ||
    decide (2048 ≤ org) || !([1, 2, 4, 8].contains k) || (decide (k ≤ i) && i != 15) || leAt b 7 1 == 0 ||
    !(zeroAt b 20 12) || decide (256 < n) || (m.pins.form && n != 0) || decide (500 < leAt b 16 4) || b.length != 32 + 32 * n ||
    (flags % 2 == 1 && !(decide (hint.1 < m.dims.1) && decide (hint.2.1 < m.dims.2.1)))
  if bad then none
  else some
    { ext := (leAt b 0 1, leAt b 1 1, leAt b 2 1), hint := if flags % 2 = 1 then some hint else none, fixed := flags / 2 % 2 == 1,
      k := k, index := i, ctxMax := leAt b 7 1, tenant := BitVec.ofNat 32 (leAt b 8 4), minTiles := leAt b 12 2,
      deadlineMs := leAt b 16 4, demands := readDemands m.twoDie tag (b.drop 32) n }

/-! ### Slice commands (06 R192–R200) -/

/-- Whether a tag may be allocated: FREE, or RETIRED for 200 µs after the switch of its release epoch (06 R200). -/
def Machine.tagFree (m : Machine) (t : Nat) : Bool :=
  let r := m.sliceAt t
  match r.state with
  | .free => true
  | .retired => decide (r.releasedAt.toNat + 200000 ≤ m.ns)
  | _ => false

/-- The lowest free tag above the last one allocated, wrapping to 1 after 4,095 (06 R181). -/
def Machine.allocTag (m : Machine) : Option Nat :=
  let last := m.slc.lastTag
  (((List.range 4095).map fun i => (last + i) % 4095 + 1)).find? fun t => m.tagFree t

/-- Whether a host address is 8-byte aligned (18 R520). -/
def aligned8 (a : Nat) : Bool := a % 8 == 0

/-- SLICE_CREATE (06 R192): check the record, allocate a tag, run a PLACE job. -/
def Machine.cmdSliceCreate (m : Machine) (c : HlyCmdRec) : Machine :=
  if !(c.only [wordMask, wordMask, wordMask]) ∨ !(aligned8 (c.addr 0)) then m.endWith stBadArg
  else match m.readRequest 0 c.data with
    | none => m.endWith stBadArg
    | some _ =>
      if !m.fullAuthority then m.endWith stNoQuorum
      else match m.allocTag with
        | none => m.finishSlice 0x02 []
        | some tag =>
          match m.readRequest tag c.data with
          | none => m.endWith stBadArg
          | some req =>
            let r := { SliceRec.reset with state := .placing, ext := req.ext, k := req.k, ctxMax := req.ctxMax,
                                           tenant := req.tenant, req := req, demands := req.demands }
            let m := { m with slc := { m.slc with lastTag := tag } }
            (m.setSlice tag r).commitThen [.job (placeJob tag req false true)]

/-- SLICE_DESTROY (06 R198): DESTROYING, and every member destroys the slice's contexts. -/
def Machine.cmdSliceDestroy (m : Machine) (c : HlyCmdRec) : Machine :=
  let tag := bits (c.arg 0) 0 12
  if !(c.only [0xFFF]) then m.endWith stBadArg
  else if !m.fullAuthority then m.endWith stNoQuorum
  else match (m.sliceAt tag).state with
    | .free => m.finishSlice 0x03 []
    | .active | .degraded =>
      let r := m.sliceAt tag
      ((m.setSlice tag { r with state := .destroying, finals := [], scrubs := [] }).commitThen
        [.event 0x06 (detailByte r.grade 0) tag 0xFFFF 0]).tryRelease tag
    | _ => m.finishSlice 0x04 []

/-- SLICE_STATE codes (06 Table 6.3). -/
def sliceCode : SliceState → Nat
  | .free => 0 | .placing => 1 | .installing => 2 | .active => 3 | .degraded => 4 | .destroying => 5 | .releasing => 6
  | .retired => 7

/-- A slice's 32-byte record (06 Table 6.7). -/
def Machine.sliceBytes (m : Machine) (tag : Nat) : List Byte :=
  let r := m.sliceAt tag
  leBytes 32 (pack [(0, tag), (16, sliceCode r.state), (24, r.grade), (32, (nodeAt 0 r.origin.1 r.origin.2.1 r.origin.2.2).toNat),
    (48, r.ext.1), (56, r.ext.2.1), (64, r.ext.2.2), (72, r.k + r.index * 16), (80, r.factor), (96, r.tenant.toNat),
    (128, r.ext.1 * r.ext.2.1 * r.ext.2.2), (144, m.lostMembers tag), (160, r.installGen.toNat), (192, r.createTime.toNat)])

/-- SLICE_QUERY. -/
def Machine.cmdSliceQuery (m : Machine) (c : HlyCmdRec) : Machine :=
  let tag := bits (c.arg 0) 0 12
  if !(c.only [0xFFF, wordMask, wordMask]) ∨ !(aligned8 (c.addr 1)) then m.endWith stBadArg
  else if (m.sliceAt tag).state = .free then m.finishSlice 0x03 []
  else m.finishCmd stOk [0] (m.sliceBytes tag)

/-- The tags of slices that are not FREE. -/
def Machine.usedTags (m : Machine) : List Nat := (tkeys m.slc.recs).filter fun t => (m.sliceAt t).state != .free

/-- SLICE_LIST. -/
def Machine.cmdSliceList (m : Machine) (c : HlyCmdRec) : Machine :=
  let tags := m.usedTags
  if !(c.only [wordMask, wordMask, wordMask]) ∨ !(aligned8 (c.addr 0)) then m.endWith stBadArg
  else if (c.arg 2).toNat < 32 * tags.length then m.finishCmd stTooSmall [0, BitVec.ofNat 32 tags.length] []
  else m.finishCmd stOk [0, BitVec.ofNat 32 tags.length] (tags.flatMap m.sliceBytes)

/-- SLICE_LAYOUT: order a node with no partition in use to take K (06 R178). -/
def Machine.cmdSliceLayout (m : Machine) (c : HlyCmdRec) : Machine :=
  let n : NodeId := BitVec.ofNat 16 (bits (c.arg 0) 0 16)
  let k := bits (c.arg 1) 0 4
  if !(c.only [0xFFFF, 0xF]) ∨ !(m.known n) ∨ !([1, 2, 4, 8].contains k) then m.endWith stBadArg
  else if !m.fullAuthority then m.endWith stNoQuorum
  else if (tget .reset m.slc.nodes n.toNat).inUse ≠ 0 then m.finishSlice 0x05 []
  else
    (m.modParts n fun r => { r with log2k := log2K k }).commitThen [.send [n] (.layout (log2K k)), sliceEnd 0 []]

/-- SLICE_PEER (06 R186): the entry is installed in the next epoch. -/
def Machine.cmdSlicePeer (m : Machine) (c : HlyCmdRec) : Machine :=
  let tag := bits (c.arg 0) 0 12
  let pod := bits (c.arg 1) 0 4
  let remote := bits (c.arg 2) 0 12
  if !(c.only [0xFFF, 0xF, 0xFFF]) ∨ m.pins.form then m.endWith stBadArg
  else if !m.fullAuthority then m.endWith stNoQuorum
  else match (m.sliceAt tag).state with
    | .free => m.finishSlice 0x03 []
    | .active | .degraded =>
      let reach := m.hly.db.links.any fun l => l.flags / 8 % 2 == 1 && l.status != 0 && l.farNode != 0xFFFF && nodePod l.farNode == pod
      if pod = nodePod m.node ∨ !reach then m.finishSlice 0x06 []
      else
        let rest := m.slc.peers.filter fun e => !(e.tag == tag && e.pod == pod)
        let peers := if remote = 0 then rest else rest ++ [{ tag := tag, pod := pod, remote := remote }]
        { m with slc := { m.slc with peers := peers } }.commitThen [.nextEpoch .none [.peerDone]]
    | _ => m.finishSlice 0x04 []

/-- SLICE_RESERVE: a PLACE job with the slice's own block fixed (06 R194). -/
def Machine.cmdSliceReserve (m : Machine) (c : HlyCmdRec) : Machine :=
  let tag := bits (c.arg 0) 0 12
  if !(c.only [0xFFF, wordMask, wordMask, wordMask]) ∨ !(aligned8 (c.addr 1)) then m.endWith stBadArg
  else match m.readRequest tag c.data with
    | none => m.endWith stBadArg
    | some req =>
      if !m.fullAuthority then m.endWith stNoQuorum
      else match (m.sliceAt tag).state with
        | .free => m.finishSlice 0x03 []
        | .active | .degraded =>
          let r := m.sliceAt tag
          let req := { req with ext := r.ext, hint := some r.origin, fixed := true, k := r.k, index := r.index,
                                ctxMax := r.ctxMax, tenant := r.tenant }
          m.pushJob (placeJob tag req true true)
        | _ => m.finishSlice 0x04 []

/-! ### Planner commands (05 Table 5.6) -/

/-- The request record of a dry run: ARG3 replaces the record's ORIGIN and HINT_VALID (18 R520). -/
def dryrunRecord (c : HlyCmdRec) : List Byte :=
  let org := bits (c.arg 3) 0 11
  let flags := leAt c.data 3 1 / 4 * 4 + leAt c.data 3 1 / 2 % 2 * 2 + flag (bitAt (c.arg 3) 16)
  ((c.data.set 3 (BitVec.ofNat 8 flags)).set 4 (BitVec.ofNat 8 org)).set 5 (BitVec.ofNat 8 (org / 256))

/-- Whether the hint of a dry run, if it has one, lies outside the pod. -/
def Machine.badHint (m : Machine) (c : HlyCmdRec) : Bool :=
  let org := bits (c.arg 3) 0 11
  bitAt (c.arg 3) 16 && !(decide (org / 128 % 16 < m.dims.1) && decide (org / 8 % 16 < m.dims.2.1))

/-- TKP_DRYRUN: a request and its demands, whose SLICE field is 0 (18 R520). -/
def Machine.cmdTkpDryrun (m : Machine) (c : HlyCmdRec) : Machine :=
  let n := (c.arg 2).toNat
  if !(c.only [wordMask, wordMask, wordMask, 0x107FF]) ∨ !(aligned8 (c.addr 0)) ∨ n = 0 ∨ 256 < n ∨ m.badHint c then m.endWith stBadArg
  else match m.readRequest 0 (dryrunRecord c) with
    | none => m.endWith stBadArg
    | some req =>
      let sliceOk := (List.range n).all fun i => leAt c.data (32 + 32 * i) 2 == 0
      if req.demands.length ≠ n ∨ !sliceOk then m.endWith stBadArg
      else m.pushJob { placeJob 0 req false m.fullAuthority with kind := .dryrun }

/-- log2 of a period. -/
def log2P (p : Nat) : Nat := ((List.range 9).find? fun i => 2 ^ i == p).getD 0

/-- A reservation's records (05 Table 5.7). -/
def resvBytes (r : Resv) : List Byte :=
  if r.reserved then r.ports.flatMap fun p =>
    leBytes 16 (pack [(0, p.1.toNat), (16, p.2.1), (24, (r.phase + p.2.2.1) % r.period), (32, log2P r.period), (40, r.grade),
      (48, r.tag), (64, r.demand.id), (96, r.factor)])
  else []

/-- TKP_RESV_READ. -/
def Machine.cmdTkpResvRead (m : Machine) (c : HlyCmdRec) : Machine :=
  let tag := bits (c.arg 0) 0 12
  let b := (m.tkp.resv.filter fun r => r.tag == tag).flatMap resvBytes
  let n := BitVec.ofNat 32 (b.length / 16)
  if !(c.only [0xFFF, wordMask, wordMask, wordMask]) ∨ !(aligned8 (c.addr 1)) ∨ tag = 0 then m.endWith stBadArg
  else if (c.arg 3).toNat < b.length then m.finishCmd stTooSmall [n] []
  else m.finishCmd stOk [n] b

/-- A slot table's 512 bytes (05 R145). -/
def slotTableBytes (b : Bank) (n : NodeId) (p : Nat) : List Byte :=
  (List.range 256).flatMap fun i => leBytes 2 (match slotOwner b n p i with
    | some t => t + 4096
    | none => 0)

/-- TKP_SLOTS_READ: the port's active slot table. -/
def Machine.cmdTkpSlotsRead (m : Machine) (c : HlyCmdRec) : Machine :=
  let (n, p) := c.np 0
  if !(c.only [npMask, wordMask, wordMask]) ∨ !(aligned8 (c.addr 1)) ∨ (m.linkOf (n, p)).isNone then m.endWith stBadArg
  else m.finishCmd stOk [m.hly.reg.epoch.setWidth 32] (slotTableBytes m.activeBank n p)

/-- TKP_BIAS_SET: the bias counts from the next epoch (05 R141, R143). -/
def Machine.cmdTkpBiasSet (m : Machine) (c : HlyCmdRec) : Machine :=
  let (n, p) := c.np 0
  if !(c.only [npMask, 0x7FFF]) ∨ (m.linkOf (n, p)).isNone then m.endWith stBadArg
  else if !m.fullAuthority then m.endWith stNoQuorum
  else (m.submit (.bias n p (bits (c.arg 1) 0 15))).endWith stOk

/-- TKP_HEADROOM_SET: RESV_MAX for new jobs (05 R148). -/
def Machine.cmdTkpHeadroomSet (m : Machine) (c : HlyCmdRec) : Machine :=
  let v := bits (c.arg 0) 0 8
  if !(c.only [0xFF]) ∨ v < 64 ∨ 240 < v then m.endWith stBadArg
  else if !m.fullAuthority then m.endWith stNoQuorum
  else { m with tkp := { m.tkp with resvMax := v } }.commitThen [endAct stOk]

/-- TKP_DEADLINE_SET: the default deadlines of R169. -/
def Machine.cmdTkpDeadlineSet (m : Machine) (c : HlyCmdRec) : Machine :=
  let us := bits (c.arg 0) 0 13
  let ms := bits (c.arg 1) 0 9
  if !(c.only [0x1FFF, 0x1FF]) ∨ us < 50 ∨ 5000 < us ∨ ms < 1 ∨ 500 < ms then m.endWith stBadArg
  else { m with tkp := { m.tkp with replanUs := us, placeMs := ms } }.commitThen [endAct stOk]

/-- TKP_REPLAN_ALL: a REPLAN over every committed demand, installed in the next epoch. -/
def Machine.cmdTkpReplanAll (m : Machine) (c : HlyCmdRec) : Machine :=
  let us := bits (c.arg 0) 0 13
  if !(c.only [0x1FFF]) ∨ us < 50 ∨ 5000 < us then m.endWith stBadArg
  else if !m.fullAuthority then m.endWith stNoQuorum
  else
    (m.modWork fun w => { w with wantReplan := true, wantAll := true, wantNs := us * 1000 }).nextChange .none [.finishReplan]

/-- TKP_RAMP_READ: a tray's ramp budget and the sum of its claims. -/
def Machine.cmdTkpRampRead (m : Machine) (c : HlyCmdRec) : Machine :=
  let t := bits (c.arg 0) 0 7
  let sum := (m.tkp.claims.filter fun x => x.tray == t).foldl (fun a x => a + x.groupSize * x.rate) 0
  if !(c.only [0x7F]) ∨ m.dims.1 ≤ t % 4 * 4 ∨ m.dims.2.1 ≤ t / 4 % 4 * 4 then m.endWith stBadArg
  else m.finishCmd stOk [word [(0, m.trayBudget t), (16, sum)]] []

/-! ### Dispatch of a queued command -/

/-- Run the command that has its turn (04 R136). -/
def Machine.runCmd (m : Machine) (c : HlyCmdRec) : Machine :=
  match c.opcode with
  | 0x02 => m.cmdPortDisable c
  | 0x03 => m.cmdPortEnable c
  | 0x04 => m.cmdPortFullTrain c
  | 0x05 => m.cmdPortTestRetrain c
  | 0x07 => m.cmdMasterHandover c
  | 0x08 => m.cmdMasterConfirm c
  | 0x09 => m.cmdPackageDrain c
  | 0x0A => m.cmdPackageRestore c
  | 0x10 => m.cmdSliceCreate c
  | 0x11 => m.cmdSliceDestroy c
  | 0x12 => m.cmdSliceQuery c
  | 0x13 => m.cmdSliceList c
  | 0x14 => m.cmdSliceLayout c
  | 0x15 => m.cmdSlicePeer c
  | 0x16 => m.cmdSliceReserve c
  | 0x20 => m.cmdTkpDryrun c
  | 0x21 => m.cmdTkpResvRead c
  | 0x22 => m.cmdTkpSlotsRead c
  | 0x23 => m.cmdTkpBiasSet c
  | 0x24 => m.cmdTkpHeadroomSet c
  | 0x25 => m.cmdTkpDeadlineSet c
  | 0x26 => m.cmdTkpReplanAll c
  | 0x27 => m.cmdTkpRampRead c
  | _ => m.endWith 0x02

/-- Carry out what a committed change brings (04 R116). -/
def Machine.act (m : Machine) (a : MasterAct) : Machine :=
  match a with
  | .run => match m.hly.cur with
    | some c => m.runCmd c
    | none => m
  | .event code detail tag subject scale => m.floodEvent code detail tag subject scale
  | .send dsts msg => dsts.foldl (fun m d => m.tell d msg) m
  | .job j => m.pushJob j
  | .finish status res data => m.finishCmd status res data
  | .nextEpoch c after => m.nextChange c after
  | .handover n => m.giveMaster n

/-- Take the next waiting command: its pod-wide number is committed before it is executed (04 R116, R136). -/
def Machine.takeNext (m : Machine) : Machine :=
  match m.hly.cur, m.hly.waiting with
  | none, c :: rest =>
    { m with hly := { m.hly with cur := some { c with podSeq := m.hly.podSeq + 1 }, waiting := rest, podSeq := m.hly.podSeq + 1 } }.commitThen [.run]
  | _, _ => m

/-- Carry out the committed actions in order, and execute waiting commands one at a time, in the order they came (04 R116, R136). -/
def Machine.serveN (m : Machine) : Nat → Machine
  | 0 => m
  | k + 1 =>
    if m.isMaster then
      match m.hly.repl.actions with
      | (seq, a) :: rest =>
        if m.isCommitted seq then ({ m with hly := { m.hly with repl := { m.hly.repl with actions := rest } } }.act a).serveN k else m
      | [] => if m.hly.cur.isNone && !(m.hly.waiting.isEmpty) then m.takeNext.serveN k else m
    else m

/-- Carry out what can be carried out: a command queues at most a few actions for itself and for each slice. -/
def Machine.serve (m : Machine) : Machine :=
  m.serveN (m.hly.repl.actions.length + (m.hly.waiting.length + 1) * (m.slc.recs.length + 16))

/-- A PLACE result that is refused: its slots and claims go, a new slice's tag is free again and its bindings are dropped (05 R171;
06 R192, R207). -/
def Machine.placeRefused (m : Machine) (j : Job) (reason : Nat) : Machine :=
  let m := { m with tkp := { m.tkp with held := m.tkp.held.filter fun x => x.tag != j.tag
                                        heldClaims := m.tkp.heldClaims.filter fun x => x.tag != j.tag } }
  let ending := sliceEnd (0x01 + 4 * 256 + reason * 4096 + (if j.reserve then j.tag * 65536 else 0)) []
  if j.reserve then m.commitThen [ending]
  else
    let old := m.boundNodes j.tag
    let m := old.foldl (fun m n => m.modParts n fun p => freedTag p j.tag) (m.setSlice j.tag .reset)
    m.commitThen [.send old (.unbind j.tag), ending]

/-- A new slice's PLACE result that is accepted: the index is bound on every member, which takes the layout if it had none, and INSTALLING is
committed; the next epoch installs it (06 R178, R192). -/
def Machine.placeAccepted (m : Machine) (j : Job) (r : Result) : Machine :=
  let q := j.req
  let s := m.sliceAt j.tag
  let old := m.boundNodes j.tag
  let m := old.foldl (fun m n => m.modParts n fun p => freedTag p j.tag) m
  let m := m.setSlice j.tag { s with grade := r.grade, origin := r.origin, index := r.index, factor := r.factor, spacingNs := r.spacingNs }
  let members := m.sliceMembers j.tag
  let m := members.foldl (fun m n => m.modParts n fun p =>
    { p with log2k := log2K q.k, inUse := setBit p.inUse r.index true, bound := tset 0 p.bound r.index j.tag }) m
  let e : BindEntry := { tag := j.tag, index := r.index, log2k := log2K q.k, ctxMax := s.ctxMax, tenant := s.tenant }
  let m := m.commitThen [.send (old.filter fun n => !(members.contains n)) (.unbind j.tag), .send members (.bind e)]
  (m.modSlice j.tag fun x => { x with state := .installing }).commitThen [.nextEpoch .none [.sliceActive j.tag]]

/-- A planner result reaches Halyard (05 R171; 06 R192, R194, R207). A block that has lost a member meanwhile is placed again. DEDUCED (log 15). -/
def Machine.resultIn (m : Machine) (j : Job) (r : Result) : Machine :=
  match j.kind with
  | .replan => m.replanDone
  | .dryrun =>
    m.finishCmd stOk [word [(0, r.grade), (4, if r.grade = 4 then r.reason else 0)],
      word [(0, (nodeAt 0 r.origin.1 r.origin.2.1 r.origin.2.2).toNat), (16, r.factor)]] []
  | .place =>
    let open' := r.resv.filter fun x => !x.reserved && !x.demand.partialOk
    let reason := if r.grade = 4 then r.reason else if open'.any (·.noPath) then 0x05 else 0x03
    let block : Block := { org := r.origin, ext := j.req.ext, dm := m.dims, pod := nodePod m.node }
    if r.grade == 4 || (r.grade == 3 && !open'.isEmpty) then m.placeRefused j reason
    else if j.reserve then
      (m.modSlice j.tag fun s => { s with req := j.req }).commitThen [.nextEpoch .none [.sliceReserved j.tag]]
    else if !(block.members.all fun n => presentNode m.hly.db.nodes n) then
      { m with tkp := { m.tkp with held := m.tkp.held.filter fun x => x.tag != j.tag
                                   heldClaims := m.tkp.heldClaims.filter fun x => x.tag != j.tag } }.pushJob
        (placeJob j.tag j.req false m.fullAuthority)
    else m.placeAccepted j r

end Sys2Proof.Machine
end

