-- ==== Sys2Proof/Machine/Halyard.lean ====
section
/-!
DEFINITION. The commands of discovery, election, quorum, takeover, the database and route epochs (04 R109–R135), but the
switch itself.
-/
namespace Sys2Proof.Machine

/-! ### Discovery (04 R112, R113) -/

/-- A neighbour whose HELLO shows that its component has a master, if there is one (04 R122). -/
def Machine.joinsLate (m : Machine) : Option NodeId :=
  (List.range 24).findSome? fun p =>
    if (m.port p).stat.state = .active then
      match tget none m.hly.db.neigh p with
      | some h => if h.state = 3 ∨ h.state = 5 then some h.node else none
      | none => none
    else none

/-- This package's HELLO (04 R112). -/
def Machine.ownHello (m : Machine) (p : Nat) : Hello :=
  { node := m.node, valid := m.hly.reg.nodeValid, uid := m.fuse.uid, admission := BitVec.ofNat 8 m.hly.reg.admitCode,
    eligible := m.hly.db.eligible, fingerprint := m.hly.db.fingerprint, port := BitVec.ofNat 8 p,
    state := BitVec.ofNat 8 (hlyStateCode m.hly.reg.state) }

/-- A port that is ACTIVE sends a HELLO. -/
def execHelloSend (p : Port) (s : State) : Host.Outcome State Fault Refusal :=
  done s (s.m.inState p .active fun m => m.emit (.mgmtPort p (.hello (m.ownHello p))))

/-- The master's own check of a neighbour: its pod fingerprint (04 R110 check 0x5). -/
def Machine.checkFingerprint (m : Machine) (h : Hello) : Machine :=
  if m.isMaster && h.fingerprint != m.hly.db.fingerprint && m.hly.db.nodes.any fun r => r.node == h.node && r.admission == 0 then
    m.submit (.setAdmission h.node 5)
  else m

/-- Whether the last records of the other packages show every link to a package DOWN (04 R134). -/
def Machine.cutOff (m : Machine) (n : NodeId) : Bool :=
  m.hly.db.facts.all fun r => r.node.node == n || r.links.all fun l => l.farNode != n || l.status == 0

/-- A HELLO arrives: the neighbour is known, a restarting one is present again, and a link record that names a new far port is flooded. -/
def execHelloReceive (p : Port) (h : Hello) (s : State) : Host.Outcome State Fault Refusal :=
  done s (s.m.inState p .active fun m =>
    let old := tget none m.hly.db.neigh p
    let m := m.modDb fun d => { d with neigh := tset none d.neigh p (some h) }
    let m := m.checkFingerprint h
    let restarting := (m.nodeRec h.node).any fun r => r.state == 4
    let m := if !restarting ∨ h.state = 5 then m
      else if m.isMaster then m.submit (.nodeState h.node 0)
      else m.modDb fun d => { d with nodes := d.nodes.map fun r => if r.node = h.node ∧ r.state = 4 then { r with state := 0 } else r }
    let fresh := match old with
      | some o => o.port != h.port || o.admission != h.admission || o.uid != h.uid
      | none => true
    (if fresh then m.floodOwn else m).hlyItem 0)

/-- Whether PARTS_READY falls with a record: its package is in a package reset (06 R205, 16 R469). DEDUCED (log 43). -/
def HlyDb.partsLost (d : HlyDb) (r : LsRecord) : Bool :=
  !(yieldReady r.yield) && d.facts.any fun e => e.node.node == r.node.node && e.node.uid == r.node.uid && yieldReady e.yield

/-- The master takes a record in: a package that has lost power is bound to nothing (06 R206), a package reset is told to the slices, and a link
lost with reason 0x0B marks its far package absent at once (04 R134). -/
def Machine.masterRecord (m : Machine) (r : LsRecord) (cycled reset : Bool) : Machine :=
  let n := r.node.node
  let m := if cycled then (m.modParts n fun p => { p with inUse := 0, bound := [] }).replicate else m
  let m := if reset then m.memberReset n else m
  let m := m.takeRecord r
  let gone := (r.links.filter fun l => l.status == 0 && l.reason == 0x0B && l.farNode != 0xFFFF).map (·.farNode)
  (gone.foldl (fun m n => m.markAbsent n) m).serve

/-- A link-state record arrives: it is newer than the one held from its origin, or it is dropped; it is stored and forwarded, enters
the database before a master is accepted, and is a change at the master (04 R112, R129, R132, R133). The sequence of a package that is absent may
begin again, for it has lost power. DEDUCED (log 44). -/
def execLinkStateRecordReceive (p : Port) (r : LsRecord) (s : State) : Host.Outcome State Fault Refusal :=
  done s (
    let m := s.m
    let k := r.node.uid.toNat
    let newer := decide (tget 0 m.hly.db.seen k < r.seq + 1)
    let cycled := !newer && m.hly.db.nodes.any fun x => x.node == r.node.node && x.uid == r.node.uid && x.state == 3
    if (newer || cycled) && r.node.uid != m.fuse.uid then
      let reset := m.hly.db.partsLost r
      let m := m.modDb fun d => { (d.learn r) with seen := tset 0 d.seen k (r.seq + 1) }
      let m := (m.flood (some p.val) (.linkState r)).hlyItem 0
      if m.isMaster then m.masterRecord r cycled reset
      else match m.hly.reg.state with
        | .discover => m.modDb fun d => d.enter r
        | .elect => if m.joinsLate.isSome then m.modDb fun d => d.enter r else ((m.modDb fun d => d.enter r).settleElection).bootSettle
        | _ => m
    else m)

/-- A GOING_DOWN word: hard loss with reason 0x0B, by which the master marks the far package absent at once (03 R95, 04 R134). -/
def execGoingDownReceive (p : Port) (word : DWord) (s : State) : Host.Outcome State Fault Refusal :=
  done s (s.m.onWord p 0x5 word fun m =>
    let far := (m.port p).far
    let m := m.hardLoss p 0x0B
    if m.isMaster then (if far.valid then m.markAbsent far.node else m).serve else m)

/-- Discovery settles: ELECT with the database the package holds (04 R113–R115). A package whose neighbours' HELLO shows that the pod has
started begins no election: it asks for the database there (04 R122). DEDUCED (log 45). -/
def execDiscoverySettle (s : State) : Host.Outcome State Fault Refusal :=
  let m := s.m
  done s (if m.hly.reg.state = .discover then
      match m.joinsLate with
      | some n =>
        let m := m.modDb fun d => { d with eligible := m.rig 5 == 1, settled := true, nodes := putNode m.ownNode d.nodes }
        ((m.modHly fun h => { h with state := .elect }).tell n (.wantDelta m.hly.reg.topoGen)).bootSettle
      | none => m.elect.bootSettle
    else m)

/-! ### Announcements (04 R115, R119, R120) -/

/-- The higher-ranked of two announcers. -/
def Machine.better (m : Machine) (a b : NodeId) : NodeId := if m.rankOf b < m.rankOf a then b else a

/-- An announce while this package has no master: that of its own choice is accepted; of two, the higher-ranked (04 R115). -/
def Machine.announceElect (m : Machine) (node : NodeId) : Machine :=
  let last := m.hly.db.announced
  if m.choice = some node then m.acceptMaster node
  else if last ≠ 0xFFFF ∧ last ≠ node then m.acceptMaster (m.better last node)
  else m.modDb fun d => { d with announced := node }

/-- An announce in RUN: a master yields to a higher-ranked one and forwards its state; the standby's is a takeover, which is counted and raised;
a higher-ranked one is accepted (04 R115, R119, R120). -/
def Machine.announceRun (m : Machine) (node : NodeId) : Machine :=
  let h := m.hly.reg
  if m.isMaster then
    if m.rankOf node < m.rankOf m.node then
      let m := m.tell node (.handover m.replica)
      (m.modHly fun h => { h with standby := 0xFFFF }).acceptMaster node
    else m
  else if node = h.master then m
  else if node = h.standby then
    ((m.modHly fun h => { h with takeover := satAdd32 h.takeover 1, standby := 0xFFFF }).raise 501 0).acceptMaster node
  else if h.master = 0xFFFF ∨ m.rankOf node < m.rankOf h.master then m.acceptMaster node
  else m

/-- A restarting Halyard hears of a master: it takes the database from it, and counts the takeover if its standby has taken over (04 R120, R135). -/
def Machine.announceRestarting (m : Machine) (node : NodeId) : Machine :=
  let took := node != m.hly.reg.master && node == m.hly.reg.standby
  let m := if took then (m.modHly fun h => { h with takeover := satAdd32 h.takeover 1 }).raise 501 0 else m
  ((m.modHly fun h => { h with master := node, standby := if took then 0xFFFF else h.standby }).modTime fun t => { t with root := false }).tell node
    (.wantDelta m.hly.reg.topoGen)

/-- A package announces itself master: the announce goes on down its tree (04 R115), and is taken by this package's state. -/
def execMasterAnnounceReceive (node : NodeId) (s : State) : Host.Outcome State Fault Refusal :=
  done s (
    if node = s.m.node then s.m
    else
      let m := (s.m.tellKids node (.announce node)).hlyItem 1
      match m.hly.reg.state with
      | .start | .discover => m.modDb fun d => { d with announced := if d.announced = 0xFFFF then node else m.better d.announced node }
      | .elect => (m.announceElect node).bootSettle
      | .run => m.announceRun node
      | .restarting => m.announceRestarting node
      | .island => m)

/-! ### Replication, beacons, quorum, takeover (04 R116–R121) -/

/-- The standby acknowledges a replicated change: it is committed. -/
def execStandbyAckReceive (seq : Nat) (s : State) : Host.Outcome State Fault Refusal :=
  done s (if s.m.isMaster then
      { s.m with hly := { s.m.hly with repl := { s.m.hly.repl with acked := max s.m.hly.repl.acked seq } } }.serve.advance.serve.bcastSend
    else s.m)

/-- The master sends BEACON down the spanning tree. -/
def execBeaconSend (s : State) : Host.Outcome State Fault Refusal :=
  done s (if s.m.isMaster then s.m.tellKids s.m.node .beacon else s.m)

/-- The summed count reaches the master: quorum is set or lost (04 R117, R118). -/
def execBeaconCountReceive (count : Nat) (s : State) : Host.Outcome State Fault Refusal :=
  done s (if s.m.isMaster && s.m.hly.reg.state == .run then (s.m.setQuorum count).serve.hlyItem 1 else s.m)

/-- Two components join: Halyard re-enters ELECT with the joined database, whose generation is one more than the higher of
the two; the new master's first pod-wide epoch is one more than the higher active epoch, after an extra epoch in the
component with the lower one when the two differ in parity (04 R118). -/
def execComponentJoin (gen : Word) (epoch : BitVec 16) (recs : List LsRecord) (s : State) :
    Host.Outcome State Fault Refusal :=
  done s (
    let m := s.m
    if m.hly.reg.state = .run ∨ m.hly.reg.state = .elect then
      let mine := m.component
      let own := m.hly.reg.epoch
      let theirs := recs.map (·.node.node)
      let m := m.modDb fun d => recs.foldl (fun d r => (d.enter r).learn r) d
      let m := m.modHly fun h => { h with topoGen := if h.topoGen.toNat < gen.toNat then gen + 1 else h.topoGen + 1 }
      let m := m.elect
      let high := if own.toNat < epoch.toNat then epoch else own
      let low := if own.toNat < epoch.toNat then own else epoch
      if m.isMaster then
        let differ := own.toNat % 2 != epoch.toNat % 2
        (m.openEpoch.modWork fun w =>
          { w with joined := true, nextEpoch := some (if differ then low + 1 else high + 1)
                   finalEpoch := if differ then some (high + 1) else none
                   extraNodes := if differ then (if own.toNat < epoch.toNat then mine else theirs) else [] }).serve
      else m
    else m)

/-! ### A master's state in other hands (04 R115, R119, R137) -/

/-- The slices of a replica that were not settled: their PLACE jobs run again. -/
def unsettled (r : Replica) : List (Nat × Bool) :=
  ((tkeys r.slc.recs).filter fun t => match (tget SliceRec.reset r.slc.recs t).state with
    | .placing | .installing => true
    | _ => false).map (fun t => (t, true)) ++
  r.after.filterMap fun a => match a with
    | .sliceReserved t => some (t, false)
    | _ => none

/-- What of a replica's epoch the new master installs again with its next one. -/
def reinstalls (r : Replica) : List AfterSwitch :=
  (r.after.filter fun a => (installTag a).isNone && releasing [a] == []) ++
  ((tkeys r.slc.recs).filter fun t =>
    let s := tget SliceRec.reset r.slc.recs t
    s.state == SliceState.releasing && !s.released).map .sliceReleased

/-- Whether a replica holds work whose command had not ended. -/
def unfinished (r : Replica) : Bool :=
  !((unsettled r).isEmpty) || !(r.after.isEmpty) ||
  (tkeys r.slc.recs).any fun t => (tget SliceRec.reset r.slc.recs t).state == SliceState.destroying

/-- Take a replica as this package's own state (04 R119). -/
def Machine.adoptReplica (m : Machine) (r : Replica) : Machine :=
  { m with
    slc := r.slc
    tkp := { m.tkp with resv := r.resv, held := r.held, claims := r.claims, heldClaims := r.heldClaims, replanHeld := r.replanHeld,
                        replanClaims := r.replanClaims, ramp := r.ramp, rampWant := r.rampWant, rampPlan := r.rampPlan, resvMax := r.resvMax,
                        replanUs := r.replanUs, placeMs := r.placeMs, job := none, queue := [], busy := false }
    hly := { m.hly with
      reg := { m.hly.reg with topoGen := if m.hly.reg.topoGen.toNat < r.gen.toNat then r.gen else m.hly.reg.topoGen }
      db := { m.hly.db with biases := r.biases }
      podSeq := r.podSeq, aborts := r.aborts } }

/-- The placeholder of the old master's command in progress: no other command is executed before what is left of it has ended. -/
def resumedCmd (old : NodeId) (r : Replica) : HlyCmdRec :=
  { src := .node old, opcode := 0x10, seq := 0, podSeq := r.podSeq, args := [], data := [], cable := none }

/-- A new master goes on from the replica (04 R119): a commit that it holds is carried out at its time; else the prepare is aborted before the
first prepare, the PLACE jobs that had not ended run again, and what waited for the epoch is in the next one. Aborts of flows are flooded again. -/
def Machine.resume (m : Machine) (old : NodeId) (r : Replica) : Machine :=
  let m := if unfinished r then { m with hly := { m.hly with cur := some (resumedCmd old r) } } else m
  let m := r.aborts.foldl (fun m a => if a.stage = 2 then m
    else (m.sliceMembers a.tag).foldl (fun m n => m.tell n (.flowAbort a.tag a.stream ((a.gen + 1) % 256))) m) m
  match r.commit with
  | some (e, t) =>
    let m := m.tellAll m.otherNodes (.commit e t)
    let m := m.modWork fun w => { w with phase := .committed, epoch := e, switchAt := t, after := r.after, planned := r.planned }
    if m.hly.reg.prepared then { m with hly := { m.hly with commitAt := some (e, t) } } else m
  | none =>
    let m := (m.tellAll m.otherNodes (.abort (m.hly.reg.epoch + 1))).dropPrepared (m.hly.reg.epoch + 1)
    let m := { m with tkp := { m.tkp with held := [], heldClaims := [], replanHeld := [], replanClaims := [], rampPlan := none } }
    let m := (unsettled r).foldl (fun m e =>
      let m := if e.2 then m.modSlice e.1 fun s => { s with state := .placing } else m
      m.pushJob (placeJob e.1 (m.sliceAt e.1).req (!e.2) true)) m
    (m.nextChange .none (reinstalls r)).replicate

/-- One ledger's budgets and rates, with another's where it has none. -/
def rampAdd (a b : RampSet) : RampSet :=
  let add := fun (x y : Table Nat) => (tkeys y).foldl (fun t k => if tget 0 t k = 0 then tset 0 t k (tget 0 y k) else t) x
  { budgets := add a.budgets b.budgets, rates := add a.rates b.rates }

/-- A yielding master's state reaches one that is master already: what it has no slice of its own for is added (04 R115, R118). DEDUCED
(log 46). -/
def Machine.mergeReplica (m : Machine) (r : Replica) : Machine :=
  let new := (tkeys r.slc.recs).filter fun t => (m.sliceAt t).state == SliceState.free
  let has := fun (t : Nat) => new.contains t
  let slc := { m.slc with
    recs := new.foldl (fun t k => tset SliceRec.reset t k (tget SliceRec.reset r.slc.recs k)) m.slc.recs
    peers := m.slc.peers ++ r.slc.peers.filter fun (e : PeerEntry) => has e.tag
    nodes := (tkeys r.slc.nodes).foldl (fun t k => if tget NodeParts.reset t k = NodeParts.reset then tset .reset t k (tget .reset r.slc.nodes k) else t) m.slc.nodes }
  { m with
    slc := slc
    tkp := { m.tkp with
      resv := m.tkp.resv ++ r.resv.filter (fun (x : Resv) => has x.tag)
      claims := m.tkp.claims ++ r.claims.filter (fun (x : Claim) => has x.tag)
      ramp := rampAdd m.tkp.ramp r.ramp, rampWant := rampAdd m.tkp.rampWant r.rampWant }
    hly := { m.hly with aborts := m.hly.aborts ++ r.aborts.filter fun (a : AbortRec) => has a.tag } }.replicate

/-- The standby sees no BEACON for 1 ms: it counts its reachable packages and becomes master, with quorum or provisional, on the state of its
replica (04 R119, R120). The old master is absent when no link to it is left, and otherwise restarting (04 R134, R135). DEDUCED (log 28). -/
def execBeaconTimeout (count : Nat) (s : State) : Host.Outcome State Fault Refusal :=
  done s (
    let m := s.m
    if m.hly.reg.role = .standby ∧ m.hly.reg.state = .run then
      let old := m.hly.reg.master
      let r := m.hly.repl.replica.getD m.replica
      let m := (m.adoptReplica r).modDb fun d => { d with nodes := d.nodes.map fun x => if x.node = old ∧ x.state ≠ 3 then
        { x with state := 4, changeGen := m.hly.reg.topoGen + 1 } else x }
      let m := (m.becomeMaster.setQuorum count).resume old r
      let m := (m.modHly fun h => { h with takeover := satAdd32 h.takeover 1 }).raise 501 0
      (if m.cutOff old then m.markAbsent old else m).serve.bcastContinue
    else m)

/-- A port has stayed ACTIVE for 100 ms in hold-down: it may join the road map (04 R122). -/
def execHoldDownExpiry (p : Port) (s : State) : Host.Outcome State Fault Refusal :=
  done s (if s.m.hly.db.holdDown.contains p.val ∧ (s.m.port p).stat.state = .active then
      ((s.m.modDb fun d => { d with holdDown := d.holdDown.filter (· != p.val) }).floodOwn)
    else s.m)

/-- The master marks a package absent: nothing heard for 1 ms and every link to it DOWN (04 R134, 06 R206). -/
def execPackageAbsent (node : NodeId) (s : State) : Host.Outcome State Fault Refusal :=
  done s (if s.m.cutOff node then (s.m.markAbsent node).serve else s.m)

/-! ### Route epochs (04 R129–R132) -/

/-- 50 µs have passed since the first change. -/
def execEpochCollectClose (s : State) : Host.Outcome State Fault Refusal := done s s.m.closeCollection.serve

/-- This package prepares an epoch and sends READY, or asks for the records it lacks (04 R123, R129). -/
def Machine.takePrepare (m : Machine) (pr : Prepare) : Machine :=
  let h := m.hly.reg
  if !h.admitted ∨ h.oldHeld ∨ (h.installed ∧ pr.epoch.toNat % 2 = h.epoch.toNat % 2) then m
  else if pr.gen ≠ h.topoGen ∧ !pr.same then
    { m with hly := { m.hly with prepWait := some pr } }.tell h.master (.wantDelta h.topoGen)
  else ((m.fillBank pr m.hly.db.nodes m.hly.db.links).tell h.master (.ready pr.epoch)).hlyItem 2

/-- A prepare arrives, each package's part in it: it goes on down the spanning tree, and the package fills the inactive bank from the database at its
generation and sends READY (04 R129). -/
def execEpochPrepareReceive (prs : List (NodeId × Prepare)) (s : State) : Host.Outcome State Fault Refusal :=
  done s (
    let m := s.m
    if m.isMaster then m
    else
      let m := m.tellKids m.hly.reg.master (.prepare prs)
      match prs.find? fun e => e.1 == m.node with
      | some e => m.takePrepare e.2
      | none => m)

/-- READY from a package (04 R129). -/
def execEpochReadyReceive (node : NodeId) (epoch : BitVec 16) (s : State) : Host.Outcome State Fault Refusal :=
  done s (
    let w := s.m.hly.work
    if s.m.isMaster ∧ w.phase = .preparing ∧ w.epoch = epoch then
      (s.m.modWork fun w => { w with ready := if w.ready.contains node then w.ready else w.ready ++ [node] }).advance.serve.hlyItem 2
    else s.m)

/-- A commit arrives: a package that has not prepared the epoch does not switch, and reports itself (04 R131). -/
def execEpochCommitReceive (epoch : BitVec 16) (time : DWord) (s : State) : Host.Outcome State Fault Refusal :=
  done s (
    let m := s.m
    if m.isMaster then m
    else if m.hly.reg.prepared && (m.bank epoch.toNat).prep.epoch == epoch then
      { m with hly := { m.hly with commitAt := some (epoch, time) } }.hlyItem 2
    else m.tell m.hly.reg.master (.notPrepared epoch))

/-- 200 µs have passed since the switch: the old bank goes (04 R130). Its entries read 0 from then on, where the section names only a power cycle as
clearing the windows. DESIGN CHOICE (log 42). -/
def execOldBankRelease (s : State) : Host.Outcome State Fault Refusal :=
  done s (if s.m.hly.reg.oldHeld then
      let m := s.m.modHly fun h => { h with oldHeld := false }
      if m.hly.reg.epoch.toNat % 2 = 0 then { m with hly := { m.hly with bank1 := .reset } }
      else { m with hly := { m.hly with bank0 := .reset } }
    else s.m)

/-- 1 ms passes without a package's READY (04 R131). -/
def execEpochReadyTimeout (node : NodeId) (s : State) : Host.Outcome State Fault Refusal :=
  done s (if s.m.isMaster then (s.m.readyLate node).serve else s.m)

/-- EPOCH_ABORT arrives: the prepared bank is discarded (04 R131). -/
def execEpochAbortReceive (epoch : BitVec 16) (s : State) : Host.Outcome State Fault Refusal :=
  done s (if s.m.isMaster then s.m else
    let m := s.m.dropPrepared epoch
    match m.hly.commitAt with
    | some (e, _) => if e = epoch then { m with hly := { m.hly with commitAt := none } } else m
    | none => m)

/-- 250 µs have passed since the switch: the next prepare may go out (04 R130). A master that stands outside the component of an extra epoch goes on from
it now (04 R118). -/
def execEpochPrepareGuard (s : State) : Host.Outcome State Fault Refusal :=
  let m := s.m
  let w := m.hly.work
  done s (if !m.isMaster then m
    else if !(w.extraNodes.isEmpty) ∧ !(w.extraNodes.contains m.node) ∧ w.phase = .committed then m.extraDone true
    else (m.modWork fun w => { w with guardDone := true }).advance.serve)

/-- A beacon from the master goes on down the tree, and the package answers its parent with the count of those reached below it, itself
counted (04 R117, R119). -/
def execBeaconReceive (node : NodeId) (counts : List Nat) (s : State) : Host.Outcome State Fault Refusal :=
  done s (
    let m := s.m
    if m.hly.reg.state = .run ∧ node = m.hly.reg.master ∧ !m.isMaster then
      ((m.tellKids node .beacon).tell (m.treeParent.getD node) (.beaconCount (1 + counts.foldl (· + ·) 0))).hlyItem 1
    else m)

/-- The standby takes in a replicated change of the master's state and acknowledges it (04 R116). -/
def execStandbyReplicate (seq : Nat) (r : Replica) (s : State) : Host.Outcome State Fault Refusal :=
  done s (
    let m := s.m
    if m.hly.reg.state = .run ∧ !m.isMaster then
      let m := m.modHly fun h => { h with role := .standby, standby := m.node }
      let m := { m with hly := { m.hly with repl := { m.hly.repl with replicaSeq := seq, replica := some r } } }
      m.tell m.hly.reg.master (.replicateAck seq)
    else m)

/-- What this package's own node record in the master's database tells it: its admission code (04 R110). -/
def Machine.takeAdmit (m : Machine) (nodes : List NodeRec) : Machine :=
  match nodes.find? fun r => r.node == m.node && r.uid == m.fuse.uid with
  | some r =>
    if r.admission.toNat = m.hly.reg.admitCode then m
    else
      let m := m.modHly fun h => { h with admitCode := r.admission.toNat, admitted := r.admission == 0 }
      if r.admission = 6 then m.raise 498 0 else m
  | none => m

/-- The records of a delta replace the held ones, and its header gives the generation, the master, the standby, QUORUM and the time (04 R123). -/
def Machine.takeDelta (m : Machine) (h : DbHead) (nodes : List NodeRec) (links : List LinkRec) : Machine :=
  let m := if m.hly.reg.state = .elect ∨ h.master ≠ m.hly.reg.master then m.acceptMaster h.master else m
  let m := m.modDb fun d =>
    { d with nodes := nodes.foldl (fun l r => putNode r l) d.nodes, links := links.foldl (fun l r => putLink r l) d.links
             time := h.time, settled := true }
  let m := m.modHly fun r =>
    { r with topoGen := h.gen, quorum := h.quorum, standby := h.standby, role := if h.standby = m.node then .standby else .member
             state := .run }
  let m := m.modHly fun h => { h with reduced := m.reducedFlag }
  let m := m.takeAdmit nodes
  { m with hly := { m.hly with restartTry := 0 } }

/-- A generation's delta arrives. A package that has missed a generation asks the master for the changed records; else it takes the delta, which
resynchronises a restarting Halyard (04 R135) and gives a late package its master (04 R122), and answers a prepare that waited for the generation.
When the master itself is no longer admitted the election runs again (04 R110). -/
def execGenerationDeltaReceive (h : DbHead) (nodes : List NodeRec) (links : List LinkRec) (s : State) :
    Host.Outcome State Fault Refusal :=
  done s (
    let m := s.m
    let st := m.hly.reg.state
    if m.isMaster ∨ !(st = .run ∨ st = .elect ∨ st = .restarting) ∨ h.gen.toNat < m.hly.reg.topoGen.toNat then m
    else if m.hly.reg.topoGen.toNat < h.base.toNat then m.tell h.master (.wantDelta m.hly.reg.topoGen)
    else
      let m := m.takeDelta h nodes links
      if m.hly.db.nodes.any fun r => r.node == h.master && r.admission != 0 then m.elect.bootSettle
      else (match m.hly.prepWait with
        | some pr => if pr.gen = h.gen then m.takePrepare pr else m
        | none => m).bootSettle)

/-- A neighbour's HELLO stops while its links stay ACTIVE: its Halyard is restarting, and it is not absent (04 R135). -/
def execHelloStop (node : NodeId) (s : State) : Host.Outcome State Fault Refusal :=
  done s (
    let m := s.m
    let live := (List.range 24).any fun p => (m.port p).stat.state == .active && (m.port p).far.valid && (m.port p).far.node == node
    if live then
      if m.isMaster then m.submit (.nodeState node 4)
      else m.modDb fun d => { d with nodes := d.nodes.map fun r => if r.node = node ∧ r.state = 0 then { r with state := 4 } else r }
    else m)

/-- A restarted Halyard asks for the database by generation: the master, or the standby when this package was the master (04 R135). -/
def Machine.resync (m : Machine) : Machine :=
  let source := if m.hly.reg.master = m.node then m.hly.reg.standby else m.hly.reg.master
  if m.hly.reg.state = .restarting ∧ source ≠ 0xFFFF then m.tell source (.wantDelta m.hly.reg.topoGen) else m

/-- Halyard restarts: forwarding goes on with the installed banks, and the database comes from the master by generation, or from the standby when this
package was the master (04 R135, 15 R439). While HBM is in self-refresh the reload waits. The commands that it executed as master end DROPPED. -/
def Machine.restartHalyard (m : Machine) : Machine :=
  let island := m.hly.reg.state == .island
  let was := m.isMaster
  let m := if was then m.dropCmds else m
  let m := if island then m else m.modHly fun h => { h with state := .restarting, role := .member, prepared := false }
  let m := { m with hly := { m.hly with
    restarts := satAdd 65535 m.hly.restarts 1, restartTry := m.hly.restartTry + 1, work := .reset, cur := none, waiting := []
    prepWait := none, commitAt := none } }
  if m.hbm.refresh then m else m.resync

/-- 100 ms pass without RUN: a second restart, and after a second overrun HLY_STUCK at C4 (15 R439). -/
def execHalyardRestartTimeout (s : State) : Host.Outcome State Fault Refusal :=
  done s (if s.m.hly.reg.state = .restarting then
      if s.m.hly.restartTry < 2 then s.m.restartHalyard else s.m.raise 548 0
    else s.m)

end Sys2Proof.Machine
end

