-- ==== Sys2Proof/Machine/HalyardCmds.lean ====
section
/-!
DEFINITION. The Halyard, planner and slice commands as a package takes them in: from the mailbox, from Farnis, from a
member, or as the master's order to a port; and their results (04 R136–R139; 18 R519, R520).
-/
namespace Sys2Proof.Machine

/-- The offset of HLY_CMD_CTRL (04 Table 4.16). -/
def hlyCtrlOffset : Nat := 0x00100100

/-- Whether the mailbox holds a command that was written with GO and that no step has taken up: BUSY, and neither in progress nor
finished. -/
def Machine.boxGiven (m : Machine) : Bool := m.hly.box.busy && m.hly.boxCmd.isNone && !(m.hly.finished.any fun d => d.cmd.src == .mailbox)

/-- Take a command in from its source: the mailbox while it is not BUSY, or the one that a write of HLY_CMD_CTRL left there, the command
that Farnis's HLY_CMD left, or a member's command at the master. -/
def Machine.takeCmd (m : Machine) (op : Nat) (src : HlySrc) (data : List Byte) (cable : Option CableRead) :
    Machine × Option HlyCmdRec :=
  match src with
  | .mailbox seq =>
    let b := m.hly.box
    if !m.boot.on then (m, none)
    else if m.boot.rescue then (m.accErr hlyCtrlOffset 0x5 0, none)
    else if b.busy ∧ !(m.boxGiven && b.opcode == op && b.seq == seq.toNat) then (m.accErr hlyCtrlOffset 0x3 0, none)
    else
      let c : HlyCmdRec := { src := .mailbox, opcode := op, seq := seq.toNat, podSeq := 0,
                             args := (List.range 14).map fun i => tget 0 b.args i, data := data, cable := cable }
      ({ m with hly := { m.hly with boxCmd := some c, box := { b with opcode := op, seq := seq.toNat, busy := true, done := false } } },
        some c)
  | .mctp =>
    match m.hly.mctp with
    | some c => if c.opcode = op ∧ !m.hly.mctpStarted then
        ({ m with hly := { m.hly with mctpStarted := true } }, some { c with cable := cable }) else (m, none)
    | none => (m, none)
  | .forwarded n args d =>
    if m.isMaster then
      (m, some { src := .node n, opcode := op, seq := 0, podSeq := 0, args := args, data := d, cable := cable })
    else (m, none)
  | _ => (m, none)

/-- Send a command to its executor: this package when it is master, else the master (04 R136). -/
def Machine.issue (m : Machine) (c : HlyCmdRec) : Machine :=
  if m.isMaster then ({ m with hly := { m.hly with waiting := m.hly.waiting ++ [c] } }).serve
  else if m.hly.reg.master ≠ 0xFFFF ∧ m.hly.reg.master ≠ m.node then m.tell m.hly.reg.master (.command c.opcode c.args c.data)
  else m

/-- Take in a command that the master executes. -/
def Machine.podCmd (m : Machine) (op : Nat) (src : HlySrc) (data : List Byte) (cable : Option CableRead) : Machine :=
  match m.takeCmd op src data cable with
  | (m, some c) => m.issue c
  | (m, none) => m

/-- A command ends here; its result waits for HLY_CMD_RESULT. -/
def Machine.pushDone (m : Machine) (d : HlyDone) : Machine := { m with hly := { m.hly with finished := m.hly.finished ++ [d] } }

/-- Take in a command that this package executes itself. -/
def Machine.ownCmd (m : Machine) (op : Nat) (src : HlySrc) (f : HlyCmdRec → Machine → Machine × Nat × List Word × List Byte) :
    Machine :=
  match m.takeCmd op src [] none with
  | (m, none) => m
  | (m, some c) =>
    let (m, st, res, data) := f c m
    match c.src with
    | .node n => m.tell n (.reply op st res data)
    | _ => m.pushDone { cmd := c, status := st, res := res, data := data }

/-! ### The database's bytes (04 Tables 4.3, 4.5, 4.6) -/

/-- A node record's 32 bytes. -/
def nodeBytes (r : NodeRec) : List Byte :=
  leBytes 32 (pack [(0, r.node.toNat), (16, r.admission.toNat), (24, r.role.toNat), (32, r.uid.toNat), (96, r.bootId.toNat),
    (128, r.preset.toNat), (136, flag r.eligible), (144, r.up), (152, r.degraded), (160, r.down), (168, r.state.toNat),
    (192, r.changeGen.toNat)])

/-- A link record's 16 bytes. -/
def linkBytes (l : LinkRec) : List Byte :=
  leBytes 16 (pack [(0, l.node.toNat), (16, l.port), (24, l.dir + l.pos * 8), (32, l.farNode.toNat), (48, l.farPort),
    (56, l.status + l.gen * 4 + l.width * 16), (64, l.reason), (72, l.flags), (80, l.weight), (96, l.changeGen.toNat)])

/-- The link records of admitted packages (04 R123). -/
def Machine.dbLinks (m : Machine) : List LinkRec :=
  m.hly.db.links.filter fun l => m.hly.db.nodes.any fun r => r.node == l.node && r.admission == 0

/-- The header with its CRC field at a value (04 Table 4.3). -/
def Machine.dbHeader (m : Machine) (crc : Nat) : List Byte :=
  let h := m.hly.reg
  let nodes := m.hly.db.nodes.length
  let links := m.dbLinks.length
  let admitted := (m.hly.db.nodes.filter fun r => r.admission == 0 && r.state != 3).length
  let provisional := m.hly.db.nodes.any fun r => r.role == 3
  leBytes 64 (pack [(0, 0x42445448), (32, 0x0001), (48, 0x0040), (64, h.topoGen.toNat), (96, h.epoch.toNat),
    (128, h.cols.toNat + h.rows.toNat * 4 + h.pods.toNat * 16 + flag h.shapeOk * 256), (144, nodePod m.node),
    (152, flag h.reduced + flag h.quorum * 2 + flag provisional * 4), (160, h.master.toNat), (176, h.standby.toNat),
    (192, nodes), (208, links), (224, m.expected), (240, admitted), (256, m.hly.db.fingerprint.toNat),
    (288, 64 + 32 * nodes + 16 * links), (320, m.hly.db.time.toNat), (480, crc)])

/-- The topology database as bytes (04 R123). -/
def Machine.dbBytes (m : Machine) : List Byte :=
  let rest := m.hly.db.nodes.flatMap nodeBytes ++ m.dbLinks.flatMap linkBytes
  m.dbHeader (crc32 (m.dbHeader 0 ++ rest)).toNat ++ rest

/-! ### Halyard commands (04 Table 4.9) -/

/-- TOPO_READ: the database to host memory. -/
def execTopoRead (src : HlySrc) (s : State) : Host.Outcome State Fault Refusal :=
  done s (s.m.ownCmd 0x01 src fun c m =>
    let b := m.dbBytes
    let n := BitVec.ofNat 32 b.length
    if !(c.only [wordMask, wordMask, wordMask]) ∨ !(aligned8 (c.addr 0)) then (m, stBadArg, [], [])
    else if (c.arg 2).toNat < b.length then (m, stTooSmall, [n], [])
    else (m, stOk, [n], b))

/-- PORT_DISABLE; the master's order takes the port of this package DOWN. -/
def execPortDisable (src : HlySrc) (s : State) : Host.Outcome State Fault Refusal :=
  done s (match src with
    | .order p => if (s.m.port p).stat.assigned then s.m.disablePort p else s.m
    | _ => s.m.podCmd 0x02 src [] none)

/-- PORT_ENABLE; the master's order returns the port of this package to DETECT. -/
def execPortEnable (src : HlySrc) (cable : CableRead) (s : State) : Host.Outcome State Fault Refusal :=
  done s (match src with
    | .order p => if (s.m.port p).stat.assigned then s.m.enablePort p cable else s.m
    | _ => s.m.podCmd 0x03 src [] (some cable))

/-- PORT_FULL_TRAIN; the master's order trains the port of this package from DETECT. -/
def execPortFullTrain (src : HlySrc) (cable : CableRead) (s : State) : Host.Outcome State Fault Refusal :=
  done s (match src with
    | .order p => s.m.trainPort p (some cable)
    | _ => s.m.podCmd 0x04 src [] (some cable))

/-- PORT_TEST_RETRAIN; the master's order starts the port's fast retrain. -/
def execPortTestRetrain (src : HlySrc) (s : State) : Host.Outcome State Fault Refusal :=
  done s (match src with
    | .order p => s.m.startRetrain p 0x4
    | _ => s.m.podCmd 0x05 src [] none)

/-- EPOCH_QUERY: epoch, generation, master and standby. -/
def execEpochQuery (src : HlySrc) (s : State) : Host.Outcome State Fault Refusal :=
  done s (s.m.ownCmd 0x06 src fun c m =>
    let h := m.hly.reg
    if !(c.only []) then (m, stBadArg, [], [])
    else (m, stOk, [h.epoch.setWidth 32, h.topoGen, word [(0, h.master.toNat), (16, h.standby.toNat)]], []))

/-- MASTER_HANDOVER; the old master's handover makes this package, its target, master on the state that it hands over, with the old master as
standby. The state of a master that yielded to this one is taken in beside its own (04 R115, R137). -/
def execMasterHandover (src : HlySrc) (s : State) : Host.Outcome State Fault Refusal :=
  done s (match src with
    | .handover n r =>
      if s.m.isMaster then (s.m.mergeReplica r).serve
      else if n = s.m.hly.reg.master ∧ s.m.hly.reg.state = .run ∧ n ≠ s.m.node then
        let m := (s.m.adoptReplica r).becomeMaster
        let m := m.modHly fun h => { h with standby := n, quorum := s.m.hly.reg.quorum,
                                            role := if s.m.hly.reg.quorum then .master else .provisional }
        ((m.setRoles.replicate).resume n r).serve
      else s.m
    | _ => s.m.podCmd 0x07 src [] none)

/-- MASTER_CONFIRM. -/
def execMasterConfirm (src : HlySrc) (s : State) : Host.Outcome State Fault Refusal := done s (s.m.podCmd 0x08 src [] none)

/-- PACKAGE_DRAIN. -/
def execPackageDrain (src : HlySrc) (s : State) : Host.Outcome State Fault Refusal := done s (s.m.podCmd 0x09 src [] none)

/-- PACKAGE_RESTORE. -/
def execPackageRestore (src : HlySrc) (s : State) : Host.Outcome State Fault Refusal := done s (s.m.podCmd 0x0A src [] none)

/-- RIG_WRITE on this package (16 R458; 02 R56; 13 R392): a power cap is clamped, with a NOTE; an increase of RAMP_UP waits
for the epoch of the REPLAN that the master starts for it (13 R390). -/
def execRigWrite (src : HlySrc) (s : State) : Host.Outcome State Fault Refusal :=
  done s (s.m.ownCmd 0x0B src fun c m =>
    let n := bits (c.arg 0) 0 16
    let v := (c.arg 1).toNat
    if !(c.only [0xFFFF, wordMask]) ∨ !(rigListed n) then (m, stBadArg, [], [])
    else if !(rigRuntime n) then (m, stDenied, [], [])
    else if n = 0x06 then
      let w := max 300 (min v m.gradeCap)
      let m := if w = v then m else m.note 0 0x06 n v
      let m := m.setRig n w
      ({ m with boot := { m.boot with rigWrites := satAdd32 m.boot.rigWrites 1 } }, stOk, [BitVec.ofNat 32 w], [])
    else if !(m.rigInRange n v) then (m, stBadArg, [], [])
    else
      let raises := n == 0x0C && decide (m.rig n < v)
      let m := m.setRig n v
      let m := { m with boot := { m.boot with rigWrites := satAdd32 m.boot.rigWrites 1 } }
      let m := if n = 0x0C ∧ !raises then { m with reef := { m.reef with rampUp := v } } else m
        let m := if !raises then m else if m.isMaster then m.raiseRate m.node v else m.tell m.hly.reg.master (.rampRaised v)
      (m, stOk, [BitVec.ofNat 32 (if n = 0x0C then m.reef.rampUp else v)], []))

/-- RIG_READ: the value in force. -/
def execRigRead (src : HlySrc) (s : State) : Host.Outcome State Fault Refusal :=
  done s (s.m.ownCmd 0x0C src fun c m =>
    let n := bits (c.arg 0) 0 16
    if !(c.only [0xFFFF]) ∨ !(rigListed n) then (m, stBadArg, [], [])
    else (m, stOk, [BitVec.ofNat 32 (if n = 0x0C then m.reef.rampUp else m.rig n)], []))

/-! ### Results (04 R138, R139; 18 R519, R520) -/

/-- The argument that holds the host address of a command's bytes. -/
def dataArg (op : Nat) : Nat := if op = 0x12 ∨ op = 0x21 ∨ op = 0x22 then 1 else 0

/-- A mailbox command ends: bytes to host memory and the flush over them (11 R338), STATUS and results written, BUSY cleared, DONE set, PF vector 1. -/
def Machine.endMailbox (m : Machine) (d : HlyDone) : Machine :=
  let m := m.hostWrite (d.cmd.addr (dataArg d.cmd.opcode)) d.data
  let m := if d.data.isEmpty then m else m.flushReads 1
  let b := m.hly.box
  let res : Table Word := (List.range 8).foldl (fun t i => tset 0 t i (d.res.getD i 0)) []
  let box := { b with status := d.status, statSeq := d.cmd.seq, res := res, busy := false, done := true }
  ({ m with hly := { m.hly with boxCmd := none, box := box } }.hlyItem 3).interrupt 0 1

/-- A command of Farnis's ends: its answer carries the status and the results (17 R482). -/
def Machine.endMctp (m : Machine) (d : HlyDone) : Machine :=
  ({ m with hly := { m.hly with mctp := none, mctpStarted := false } }.hlyItem 3).answerMctp m.hly.mctpHdr 0x03 0x01 0
    (BitVec.ofNat 8 d.status :: wordBytes ((List.range 8).map fun i => d.res.getD i 0))

/-- A command's result arrives: that of an executed one, or the master's answer to a forwarded one. -/
def execHlyCmdResult (mctp : Bool) (reply : Option CmdReply) (s : State) : Host.Outcome State Fault Refusal :=
  done s (
    let m := s.m
    let src := if mctp then CmdSrc.mctp else .mailbox
    match m.hly.finished.find? fun d => d.cmd.src == src with
    | some d =>
      let m := { m with hly := { m.hly with finished := m.hly.finished.erase d } }
      if mctp then m.endMctp d else m.endMailbox d
    | none =>
      match reply, (if mctp then (if m.hly.mctpStarted then m.hly.mctp else none) else m.hly.boxCmd) with
      | some r, some c =>
        if m.isMaster then m
        else
          let d : HlyDone := { cmd := c, status := r.status.toNat, res := r.res, data := r.data }
          if mctp then m.endMctp d else m.endMailbox d
      | _, _ => m)

/-- The master could not be reached within 10 ms: NO_MASTER (04 R138). -/
def execHlyCmdNoMaster (mctp : Bool) (s : State) : Host.Outcome State Fault Refusal :=
  done s (
    let m := s.m
    match (if mctp then (if m.hly.mctpStarted then m.hly.mctp else none) else m.hly.boxCmd) with
    | some c =>
      let src := if mctp then CmdSrc.mctp else .mailbox
      if m.isMaster ∨ m.hly.finished.any fun d => d.cmd.src == src then m
      else
        let d : HlyDone := { cmd := c, status := 0x04, res := [], data := [] }
        if mctp then m.endMctp d else m.endMailbox d
    | none => m)

/-! ### Planner commands (05 Table 5.6) and engine (05 R160, R169, R170) -/

/-- A job's result, if there is one, reaches Halyard, and the next command may run. -/
def Machine.withResult (r : Machine × Option (Job × Result)) : Machine :=
  match r with
  | (m, some (j, x)) => (m.resultIn j x).serve
  | (m, none) => m

/-- The engine starts its next job. -/
def execPlannerJobStart (s : State) : Host.Outcome State Fault Refusal := done s (Machine.withResult s.m.startJob)

/-- A search round of 500 ns. -/
def execPlannerRound (s : State) : Host.Outcome State Fault Refusal := done s (Machine.withResult s.m.plannerRound)

/-- The running job's deadline. -/
def execPlannerDeadline (s : State) : Host.Outcome State Fault Refusal := done s (Machine.withResult s.m.plannerDeadline)

/-- The argument words of a command's source. -/
def Machine.srcArg (m : Machine) (src : HlySrc) (i : Nat) : Nat :=
  match src with
  | .mailbox _ => (tget 0 m.hly.box.args i).toNat
  | .mctp => ((m.hly.mctp.map fun (c : HlyCmdRec) => c.arg i).getD 0).toNat
  | .forwarded _ args _ => (args.getD i 0).toNat
  | _ => 0

/-- The bytes a command reads from host memory: `lo` numbers its address words, `n` how many bytes. -/
def Machine.srcBytes (m : Machine) (src : HlySrc) (lo n : Nat) : List Byte :=
  match src with
  | .forwarded _ _ d => d
  | _ => m.hostRead (m.srcArg src lo + m.srcArg src (lo + 1) * 2 ^ 32) n

/-- TKP_DRYRUN: the buffer holds a request record and ARG2 demand records. -/
def execTkpDryrun (src : HlySrc) (host : Cells) (s : State) : Host.Outcome State Fault Refusal :=
  done s (
    let m := s.m.hostStores host
    m.podCmd 0x20 src (m.srcBytes src 0 (32 + 32 * min 256 (m.srcArg src 2))) none)

/-- TKP_RESV_READ. -/
def execTkpResvRead (src : HlySrc) (s : State) : Host.Outcome State Fault Refusal := done s (s.m.podCmd 0x21 src [] none)

/-- TKP_SLOTS_READ. -/
def execTkpSlotsRead (src : HlySrc) (s : State) : Host.Outcome State Fault Refusal := done s (s.m.podCmd 0x22 src [] none)

/-- TKP_BIAS_SET. -/
def execTkpBiasSet (src : HlySrc) (s : State) : Host.Outcome State Fault Refusal := done s (s.m.podCmd 0x23 src [] none)

/-- TKP_HEADROOM_SET. -/
def execTkpHeadroomSet (src : HlySrc) (s : State) : Host.Outcome State Fault Refusal := done s (s.m.podCmd 0x24 src [] none)

/-- TKP_DEADLINE_SET. -/
def execTkpDeadlineSet (src : HlySrc) (s : State) : Host.Outcome State Fault Refusal := done s (s.m.podCmd 0x25 src [] none)

/-- TKP_REPLAN_ALL. -/
def execTkpReplanAll (src : HlySrc) (s : State) : Host.Outcome State Fault Refusal := done s (s.m.podCmd 0x26 src [] none)

/-- TKP_RAMP_READ. -/
def execTkpRampRead (src : HlySrc) (s : State) : Host.Outcome State Fault Refusal := done s (s.m.podCmd 0x27 src [] none)

/-! ### Slice commands (06 Table 6.5) -/

/-- The largest request: a record and 256 demands (06 R193). -/
def maxRequest : Nat := 32 + 32 * 256

/-- SLICE_CREATE; the master's order binds a partition of this package to a placed slice, or drops that binding (06 R192, R207). -/
def execSliceCreate (src : HlySrc) (host : Cells) (s : State) : Host.Outcome State Fault Refusal :=
  done s (
    let m := s.m.hostStores host
    match src with
    | .bind e => m.bindPart e
    | .unbind tag => m.unbindPart tag
    | _ => m.podCmd 0x10 src (m.srcBytes src 0 (min (maxRequest + 1) (m.srcArg src 2))) none)

/-- SLICE_DESTROY. -/
def execSliceDestroy (src : HlySrc) (s : State) : Host.Outcome State Fault Refusal := done s (s.m.podCmd 0x11 src [] none)

/-- SLICE_QUERY. -/
def execSliceQuery (src : HlySrc) (s : State) : Host.Outcome State Fault Refusal := done s (s.m.podCmd 0x12 src [] none)

/-- SLICE_LIST. -/
def execSliceList (src : HlySrc) (s : State) : Host.Outcome State Fault Refusal := done s (s.m.podCmd 0x13 src [] none)

/-- SLICE_LAYOUT; the master's order gives this package, with no partition in use, its K (06 R178). -/
def execSliceLayout (src : HlySrc) (s : State) : Host.Outcome State Fault Refusal :=
  done s (match src with
    | .layout k => if s.m.noneInUse then { s.m with part := { s.m.part with log2k := k } } else s.m
    | _ => s.m.podCmd 0x14 src [] none)

/-- SLICE_PEER. -/
def execSlicePeer (src : HlySrc) (s : State) : Host.Outcome State Fault Refusal := done s (s.m.podCmd 0x15 src [] none)

/-- SLICE_RESERVE. -/
def execSliceReserve (src : HlySrc) (host : Cells) (s : State) : Host.Outcome State Fault Refusal :=
  done s (
    let m := s.m.hostStores host
    m.podCmd 0x16 src (m.srcBytes src 1 (min (maxRequest + 1) (m.srcArg src 3))) none)

end Sys2Proof.Machine
end

