-- ==== Sys2Proof/Machine/Reef.lean ====
section
/-!
DEFINITION. The commands of Reef: the measurement of each microsecond with the voltage and ballast it moves, the cap loop, ramp
windows, holds, tray reports, staleness and the power-off notice (13 R368–R394; 15 R440; 03 R97).
-/
namespace Sys2Proof.Machine

/-! ### The microsecond (13 R368–R370, R375, R382–R384) -/

/-- The sum of a list. -/
def sumList (l : List Nat) : Nat := l.foldl (· + ·) 0

/-- The average over the last n samples of a microsecond, those before the first counting 0 (13 R368). -/
def average (l : List Nat) (n : Nat) : Nat := sumList (l.drop (l.length - n)) / n

/-- The ballast that Reef holds on the package: the partitions', and the dies' of a package reset or a notice. -/
def Machine.totalBallast (m : Machine) : Nat :=
  sumList (m.reef.parts.map fun e => e.2.ballast) + sumList (m.reef.dies.map fun e => e.2.resetBallast)

/-- How much the measured package slope exceeds a rate, one way or the other, from the last two samples (13 R369). DESIGN CHOICE, log 24. -/
def slopeExcess (l : List Nat) (rate : Nat) (up : Bool) : Nat :=
  match l.reverse with
  | b :: a :: _ => (if up then b - a else a - b) - rate
  | _ => 0

/-- A die's set point moves by at most 10 mV towards its aim, and its rail is good from 0.72 V up with the monitor clear
(13 R369, R370). -/
def Machine.moveDie (m : Machine) (d : Nat) : Machine :=
  let aim := m.vaim d
  let live := m.dieLive d
  m.modRdie d fun r =>
    let v := if r.vset < aim then min aim (r.vset + 10) else max aim (r.vset - 10)
    { r with
      vset := v, idleLow := r.idleLow && !live
      okSince := if 720 ≤ v ∧ !(bitAt m.corner.uv d) then some (r.okSince.getD m.time.now) else none }

/-- A pre-ramp that meets a hold stops, and its ballast decays (13 "What if a thermal hold …"). -/
def Machine.stopHeld (m : Machine) (i : Nat) : Machine :=
  if m.held i then m.modRpart i fun p =>
    if p.phase = 2 ∨ p.ready then { p with phase := if p.ballast = 0 then 1 else 3, ramping := false, ready := false } else p
  else m

/-- How many ballasts decay at once (13 R382). -/
def Machine.decaying (m : Machine) : Nat :=
  (m.reef.parts.filter fun e => e.2.phase == 3 && e.2.ballast != 0).length +
  (m.reef.dies.filter fun e => e.2.resetBallast != 0).length

/-- A partition's ballast over one microsecond: a pre-ramp rises to STEP_W, a decay falls, a released step's ballast is zero once
the tiles have taken up STEP_W or 20 µs have passed (13 R375, R377, R382). -/
def Machine.moveBallast (m : Machine) (up down i : Nat) : Machine :=
  m.modRpart i fun p =>
    if p.phase = 2 ∧ p.ramping then { p with ballast := min p.target (p.ballast + up) }
    else if p.phase = 3 then
      let b := p.ballast - down
      { p with ballast := b, phase := if b = 0 then 0 else 3 }
    else match p.withdrawUntil with
      | some t =>
        if p.target ≤ p.attributed ∨ t.toNat ≤ m.ns then { p with ballast := 0, withdrawUntil := if t.toNat ≤ m.ns then none else p.withdrawUntil }
        else p
      | none => p

/-- A partition's tiles on a die. -/
def Machine.tilesOn (m : Machine) (i d : Nat) : Nat := ((m.partTiles i).filter fun l => l / 32 == d).length

/-- The ballast on a die: a partition's is spread over the dies of its tiles in proportion to them (13 R375, R384). -/
def Machine.ballastOn (m : Machine) (d : Nat) : Nat :=
  (m.rdie d).resetBallast + sumList ((List.range 8).map fun i => (m.rpart i).ballast * m.tilesOn i d / max 1 (m.partTiles i).length)

/-- A partition's tiles at work on a die. -/
def Machine.workOn (m : Machine) (i d : Nat) : Nat :=
  sumList ((tkeys m.ctx).map fun c => match (m.ctxAt c).xc.run with
    | some r => if r.released && m.ctxPart c == i then ((m.atWork c).filter fun l => l / 32 == d).length else 0
    | none => 0)

/-- The power attributed to a partition: each die's, less the ballast on it, in proportion to the tiles at work (13 R368, 06 R202). That TILE's rate
within the microsecond is the number of tiles at work as it ends is DEDUCED, log 56. -/
def Machine.attribute (m : Machine) (i : Nat) : Nat :=
  sumList ((List.range 4).map fun d =>
    ((m.rdie d).power - m.ballastOn d) * m.workOn i d / max 1 (sumList ((List.range 8).map fun j => m.workOn j d)))

/-- A partition's power is measured: of a released step, ballast is withdrawn by what the tiles have taken up, so that the load does not fall
(13 R368, R375). -/
def Machine.measurePart (m : Machine) (i a : Nat) : Machine :=
  m.modRpart i fun p =>
    { p with attributed := a, ballast := if p.phase = 0 ∧ p.withdrawUntil.isSome then p.ballast - (a - p.attributed) else p.ballast }

/-- Whether a partition's step waits for a pre-ramp: PHASE shows it (13 Table 13.6). -/
def Machine.settlePhase (m : Machine) (i : Nat) : Machine :=
  let waits := (m.armOrder.find? fun c => m.ctxPart c == i).isSome
  m.modRpart i fun p =>
    if p.phase = 0 ∧ waits ∧ p.withdrawUntil.isNone then { p with phase := 1 }
    else if p.phase = 1 ∧ !p.ready ∧ !waits then { p with phase := 0 } else p

/-- Every die's ballast takes its measured power, and the partitions' is part of it (13 R384, R394). -/
def Machine.dieBallast (m : Machine) : Machine :=
  let m := (List.range 8).foldl (fun (m : Machine) i => m.modRpart i fun p =>
    { p with ballast := 0, phase := 0, ramping := false, ready := false, withdrawUntil := none }) m
  (List.range 4).foldl (fun (m : Machine) d => m.modRdie d fun r => { r with resetBallast := r.power }) m

/-- Charge a microsecond of ballast: to the contexts that caused it, or to no one (13 R383, 06 R202). -/
def Machine.chargeBallast (m : Machine) : Machine :=
  let m := (List.range 8).foldl (fun (m : Machine) i =>
    let p := m.rpart i
    match p.owner with
    | some c => if (m.ctxAt c).base.life ≠ .free then m.modBase c fun b => { b with ballastUj := b.ballastUj + p.ballast }
        else { m with part := { m.part with energyUnattr := satAdd64 m.part.energyUnattr p.ballast } }
    | none => { m with part := { m.part with energyUnattr := satAdd64 m.part.energyUnattr p.ballast } }) m
  let dies := sumList (m.reef.dies.map fun e => e.2.resetBallast)
  { m with part := { m.part with energyUnattr := satAdd64 m.part.energyUnattr dies } }

/-- LUFF_CRASH_0–4 (15 Table 15.11). -/
def Crash.words (c : Crash) : List Word :=
  [word [(0, flag c.valid), (4, c.cause), (8, c.gen), (16, c.source)], BitVec.ofNat 32 c.time.toNat,
   BitVec.ofNat 32 (c.time.toNat / 2 ^ 32), word [(0, c.seq % 65536), (16, c.dump)], BitVec.ofNat 32 c.durationUs]

/-- The end of the sequence of a notice: the crash summary is written and sent, GOING_DOWN goes out three times on every ACTIVE port,
and Reef reports ready (13 R394, 15 R440, 03 R97, 17 R486). -/
def Machine.reportReady (m : Machine) : Machine :=
  let src := if m.ttl.pkg.active ∧ m.ttl.pkg.cls = 4 then m.ttl.c4Source.getD 0x3FF else 0x3FF
  let c : Crash := { valid := true, cause := 6, gen := m.luff.pkgGen, source := src, time := m.reef.noticeAt, seq := m.luff.pkgResets, dump := 0,
                     durationUs := (m.ns - m.reef.noticeAt.toNat) / 1000 }
  let m := { m with luff := { m.luff with crash := c } }
  let m := m.toFarnis (mctpMsg 4 3 false false 0 (wordBytes c.words))
  let m := (List.range 24).foldl (fun (m : Machine) p =>
    if (m.port p).stat.state = .active then ((m.sendGoingDown p 0x0B).sendGoingDown p 0x0B).sendGoingDown p 0x0B else m) m
  (m.toFarnis (mctpMsg 4 4 false false 0 [])).modReef fun r => { r with readySent := true }

/-- The sequence of a notice: once no released step runs, or after 1 ms, the tiles stop and the dies' power becomes ballast; when that
has decayed, Reef reports ready (13 R394). -/
def Machine.noticeStep (m : Machine) : Machine :=
  if m.reef.noticed.isNone ∨ m.reef.readySent then m
  else if !m.reef.noticeStop then
    let busy := (tkeys m.ctx).any fun c => match (m.ctxAt c).xc.run with
      | some r => r.released
      | none => false
    if busy && decide (m.ns < m.reef.noticeAt.toNat + 1000000) then m
    else
      let m := (tkeys m.ctx).foldl (fun (m : Machine) c => m.stopTiles c) m
      m.dieBallast.modReef fun r => { r with noticeStop := true }
  else if m.reef.dies.all (fun e => e.2.resetBallast == 0) then m.reportReady
  else m

/-- One microsecond of Reef: measured powers, set points, ballast and its energy, and the pre-ramps that need no window. -/
def Machine.reefMicro (m : Machine) (dieW : List Nat) (otherW : Nat) : Machine :=
  let p := sumList dieW + otherW
  let samples := (m.reef.samples ++ [p]).drop (m.reef.samples.length + 1 - 1000)
  let m := m.modReef fun r => { r with samples := samples, p100us := average samples 100, p1ms := average samples 1000 }
  let m := (List.range 4).foldl (fun (m : Machine) d => (m.modRdie d fun r => { r with power := dieW.getD d 0 })) m
  let m := ((List.range 8).map m.attribute).zipIdx.foldl (fun (m : Machine) e => m.measurePart e.2 e.1) m
  let m := ((List.range 4).filter fun d => bitAt m.fuse.cdieMask d).foldl (fun (m : Machine) d => m.moveDie d) m
  let m := (List.range 8).foldl (fun (m : Machine) i => m.stopHeld i) m
  let up := m.rateUp - slopeExcess samples m.rateUp true
  let down := (m.rateDown - slopeExcess samples m.rateDown false) / max 1 m.decaying
  let m := (List.range 8).foldl (fun (m : Machine) i => m.moveBallast up down i) m
  let m := (List.range 4).foldl (fun (m : Machine) d => m.modRdie d fun r => { r with resetBallast := r.resetBallast - down }) m
  let m := (List.range 8).foldl (fun (m : Machine) i =>
    let waits := (m.armOrder.find? fun c => m.ctxPart c == i).isSome
    if waits && (m.rpart i).groupsM1 == 0 && (m.rpart i).phase != 2 then m.beginPreRamp i else m) m
  let m := (List.range 8).foldl (fun (m : Machine) i => m.settlePhase i) m
  let m := m.chargeBallast
  let log := (m.reef.ballastLog.filter fun e => decide (m.ns < e.1.toNat + 1000000000)) ++
    (if m.totalBallast = 0 then [] else [(m.time.now, m.totalBallast)])
  (m.modReef fun r => { r with ballastLog := log, scaled := m.rampScaled }).noticeStep

/-- REEF_MEASURE: each 1 µs (13 R368). -/
def execReefMeasure (dieW : List Nat) (otherW : Nat) (s : State) : Host.Outcome State Fault Refusal :=
  done s (s.m.reefMicro dieW otherW)

/-! ### The cap (13 R373, R374) -/

/-- The dies whose set point stands above its floor. -/
def Machine.aboveFloor (m : Machine) : List Nat :=
  (List.range 4).filter fun d => bitAt m.fuse.cdieMask d && decide (m.vmin d < (m.rdie d).vset)

/-- One 10 µs step of the cap loop (13 R374). -/
def Machine.capStep (m : Machine) : Machine :=
  let avg := m.reef.p100us
  let cap := m.capInForce
  let m := if avg < cap then m.modReef fun r => { r with capHold := false } else m
  if cap < avg then
    let m := m.modReef fun r => { r with capLimiting := true, belowSince := none }
    match m.aboveFloor with
    | [] => if m.reef.capHold then m
        else (m.modReef fun r => { r with capHold := true, cntCapHold := satAdd32 r.cntCapHold 1 }).raise 484 0
    | ds => ds.foldl (fun (m : Machine) d => m.modRdie d fun r => { r with capDrop := r.capDrop + 5 }) m
  else if avg * 100 < cap * 95 then
    let since := m.reef.belowSince.getD m.time.now
    let m := m.modReef fun r => { r with belowSince := some since }
    if since.toNat + 1000000 ≤ m.ns then
      let m := (List.range 4).foldl (fun (m : Machine) d => m.modRdie d fun r => { r with capDrop := r.capDrop - 5 }) m
      m.modReef fun r => { r with capLimiting := r.dies.any fun e => e.2.capDrop != 0 }
    else m
  else m.modReef fun r => { r with belowSince := none }

/-- CAP_LOOP. -/
def execCapLoop (s : State) : Host.Outcome State Fault Refusal := done s s.m.capStep

/-- 1 ms without a live contract: the die goes to its idle minimum (13 R371). -/
def execContractIdle (d : CDie) (s : State) : Host.Outcome State Fault Refusal :=
  let m := s.m
  done s (if m.dieLive d.val ∨ m.ns < (m.rdie d.val).idleSince.toNat + 1000000 then m
    else m.modRdie d.val fun r => { r with idleLow := true })

/-- A regulator fault, or a rail off its set point: REEF_VR_FAULT, and no step of the die is released (13 R372). -/
def execVrFault (d : CDie) (s : State) : Host.Outcome State Fault Refusal :=
  let m := s.m
  done s (if bitAt m.fuse.cdieMask d.val then (m.modRdie d.val fun r => { r with hold := true }).raise (480 + d.val) d.val else m)

/-! ### Windows and holds (13 R375, R377, R380, R383) -/

/-- A group's window opens: a waiting pre-ramp begins or resumes (13 R377, R378). -/
def execRampWindowOpen (i : PartId) (s : State) : Host.Outcome State Fault Refusal :=
  let p := s.m.rpart i.val
  done s (if p.assigned ∧ p.groupsM1 ≠ 0 then (s.m.modRpart i.val fun p => { p with windowOpen := true }).beginPreRamp i.val else s.m)

/-- The window closes: an unfinished pre-ramp stops, its ballast held (13 R377). -/
def execRampWindowClose (i : PartId) (s : State) : Host.Outcome State Fault Refusal :=
  let p := s.m.rpart i.val
  done s (if p.windowOpen then
      s.m.modRpart i.val fun p => { p with windowOpen := false, ramping := p.ramping && decide (p.target ≤ p.ballast) }
    else s.m)

/-- Ballast has reached STEP_W: it is held there until the release (13 R375, R378). -/
def execPreRampComplete (i : PartId) (s : State) : Host.Outcome State Fault Refusal :=
  let p := s.m.rpart i.val
  done s (if p.phase = 2 ∧ p.target ≤ p.ballast then s.m.modRpart i.val fun p => { p with phase := 1, ramping := false, ready := true } else s.m)

/-- The rise of a released step exceeds STEP_W by more than 10 % or 20 W (13 R380). -/
def execRiseExcess (i : PartId) (s : State) : Host.Outcome State Fault Refusal :=
  let m := s.m
  let p := m.rpart i.val
  let soon := match p.withdrawUntil with
    | some t => decide (m.ns ≤ t.toNat)
    | none => false
  done s (if soon && decide (p.target + max (p.target / 10) 20 < p.attributed) then
      let m := m.modReef fun r => { r with cntRiseExcess := satAdd32 r.cntRiseExcess 1 }
      match p.owner with
      | some c => m.raiseCtx 486 0 c
      | none => m.raise 486 0
    else m)

/-- Ballast energy of the last second, in mJ (13 R383). -/
def Machine.ballastMj (m : Machine) : Nat :=
  sumList ((m.reef.ballastLog.filter fun e => decide (m.ns < e.1.toNat + 1000000000)).map (·.2)) / 1000

/-- The ballast energy reaches the budget (13 R383). -/
def execBallastHold (s : State) : Host.Outcome State Fault Refusal :=
  let m := s.m
  done s (if !m.reef.ballastHold ∧ m.rig 0x0F ≤ m.ballastMj then
      (m.modReef fun r => { r with ballastHold := true, cntBallastHold := satAdd32 r.cntBallastHold 1 }).raise 485 0
    else m)

/-- The ballast energy falls below the budget (13 R383). -/
def execBallastHoldEnd (s : State) : Host.Outcome State Fault Refusal :=
  let m := s.m
  done s (if m.reef.ballastHold ∧ m.ballastMj < m.rig 0x0F then m.modReef fun r => { r with ballastHold := false } else m)

/-! ### The facility (13 R385–R391) -/

/-- Reef applies a tray report (17 Table 17.6), and a change of T_UP goes to Halyard (13 R388–R391). -/
def Machine.takeReport (m : Machine) (body : BitVec 128) : Machine :=
  let t : TrayInfo :=
    { tUp := bits body 16 16, tDown := bits body 32 16, pTray := bits body 48 16, share := bits body 64 16, shelfOk := bits body 80 16,
      soc := bits body 96 8, cool := bits body 104 8, flow := bits body 112 8, battOk := bitAt body 120, cduOk := bitAt body 121,
      at_ := some m.time.now }
  let old := m.reef.tray
  let m := m.modReef fun r => { r with tray := t, stale := false, fallback := false }
  let m := m.modReef fun r => { r with scaled := m.rampScaled }
  if old.at_.isNone ∨ old.tUp ≠ t.tUp then m.tell m.hly.reg.master (.rampLimit t.tUp) else m

/-- A tray report arrives; none comes to a card (20 R548, R550), and one with reserved bits set changes nothing (00 R15). -/
def execTrayReport (h : MsgHdr) (body : BitVec 128) (s : State) : Host.Outcome State Fault Refusal :=
  done s (s.m.vendor h 4 1 (leBytes 16 body.toNat) fun m =>
    if !m.boot.on ∨ m.pins.form then m
    else if bits body 122 6 ≠ 0 then m.answerMctp h 4 1 0x03 []
    else m.takeReport body)

/-- When the last tray report came. -/
def Machine.trayAt (m : Machine) : Nat := (m.reef.tray.at_.map fun t => t.toNat).getD 0

/-- 100 ms without a tray report (13 R391). -/
def execFacilityStale (s : State) : Host.Outcome State Fault Refusal :=
  let m := s.m
  done s (if !m.pins.form ∧ !m.reef.stale ∧ m.trayAt + 100000000 ≤ m.ns then (m.modReef fun r => { r with stale := true }).raise 487 0 else m)

/-- 1 s without a tray report: FALLBACK limits (13 R391). -/
def execFacilityFallback (s : State) : Host.Outcome State Fault Refusal :=
  let m := s.m
  done s (if !m.pins.form ∧ m.trayAt + 1000000000 ≤ m.ns then
      let m := m.modReef fun r => { r with fallback := true }
      m.modReef fun r => { r with scaled := m.rampScaled }
    else m)

/-- Farnis gives notice that it will remove the rails: acknowledged at once; Reef releases no further step (13 R394); none comes to
a card (20 R550). -/
def execNotice (h : MsgHdr) (cause : BitVec 8) (s : State) : Host.Outcome State Fault Refusal :=
  done s (s.m.vendor h 4 2 (leBytes 1 cause.toNat) fun m =>
    if !m.boot.on ∨ m.pins.form then m
    else if m.reef.noticed.isSome then m.answerMctp h 4 2 0 []
    else (m.answerMctp h 4 2 0 []).modReef fun r => { r with noticed := some cause.toNat, noticeAt := m.time.now, noticeStop := false, readySent := false })

/-- Whether a node is the lowest admitted one of its tray (13 R390). -/
def Machine.lowestOnTray (m : Machine) (n : NodeId) : Bool :=
  !(m.hly.db.nodes.any fun r => r.admission == 0 && trayOf r.node == trayOf n && decide (r.node.toNat < n.toNat))

/-- A forwarded T_UP, or a RAMP_UP raised by RIG_WRITE, reaches the master: it starts a REPLAN when T_UP falls below the tray's budget,
rises 10 % above it (once a second at most), or RAMP_UP rose (13 R390). -/
def execRampLimitForward (node : NodeId) (r : RampForward) (s : State) : Host.Outcome State Fault Refusal :=
  let m := s.m
  done s (if !m.isMaster then m
    else match r with
      | .raised rate => m.raiseRate node rate
      | .limit tUp =>
        let t := trayOf node
        let b := m.trayBudget t
        let up := decide (b * 11 ≤ tUp.toNat * 10) && decide (b < tUp.toNat) && match m.reef.lastReplan with
          | some x => decide (x.toNat + 1000000000 ≤ m.ns)
          | none => true
        if !(m.lowestOnTray node) then m
        else
          let set := fun (x : RampSet) => { x with budgets := tset 0 x.budgets t tUp.toNat }
          if !(up || decide (tUp.toNat < b)) then { m with tkp := { m.tkp with rampWant := set m.tkp.rampWant } }.replicate
          else (if up then m.modReef fun r => { r with lastReplan := some m.time.now } else m).rampNews set)

end Sys2Proof.Machine
end

