-- ==== Sys2Proof/Machine/RegRead.lean ====
section
/-!
DEFINITION. What the package's registers read: every block of the register map and the context page (18 R505–R508, R523, and the
register tables of the chapters it names).
-/
namespace Sys2Proof.Machine

/-- The low word of a 64-bit value, or its high word. -/
def half (v : Nat) (high : Bool) : Word := BitVec.ofNat 32 (if high then v / 2 ^ 32 else v)

/-- The word at byte offset o of a record of bytes. -/
def wordAt (l : List Byte) (o : Nat) : Word := BitVec.ofNat 32 (leAt l o 4)

/-! ### Halyard and the Tack Planner (01 Tables 1.11, 1.12; 04 Tables 4.12–4.17; 05 Tables 5.9–5.11) -/

/-- HLY_NODE_ID (01 Table 1.11). -/
def Machine.nodeIdWord (m : Machine) : Word := word [(0, m.hly.reg.nodeId.toNat), (16, flag m.hly.reg.nodeValid)]

/-- HLY block. -/
def Machine.readHly (m : Machine) (o : Nat) : Word :=
  let h := m.hly.reg
  let b := m.hly.box
  if o = 0x00 then word [(0, hlyStateCode h.state), (3, roleCode h.role), (6, flag h.admitted), (7, flag h.quorum), (8, flag h.reduced),
    (12, h.admitCode)]
  else if o = 0x04 then word [(0, h.master.toNat), (16, h.standby.toNat)]
  else if o = 0x08 then word [(0, h.epoch.toNat), (16, h.epoch.toNat % 2), (17, flag h.prepared), (18, flag h.oldHeld), (19, flag h.installed)]
  else if o = 0x0C then h.topoGen
  else if o = 0x10 then m.nodeIdWord
  else if o = 0x14 then word [(0, h.cols.toNat), (2, h.rows.toNat), (4, h.pods.toNat), (8, flag h.shapeOk)]
  else if o = 0x18 then half m.fuse.uid.toNat false
  else if o = 0x1C then half m.fuse.uid.toNat true
  else if o = 0x20 then BitVec.ofNat 32 h.epochDrop
  else if o = 0x24 then BitVec.ofNat 32 h.takeover
  else if o = 0x100 then word [(0, b.opcode), (8, b.seq)]
  else if o = 0x104 then word [(0, b.status), (8, b.statSeq), (16, flag b.done), (17, flag b.busy)]
  else if 0x108 ≤ o ∧ o < 0x140 then tget 0 b.args ((o - 0x108) / 4)
  else if 0x140 ≤ o ∧ o < 0x160 then tget 0 b.res ((o - 0x140) / 4)
  else if 0x8000 ≤ o ∧ o < 0x10000 then
    let i := (o - 0x8000) / 4
    entryWord (m.nodeEntry (m.bank (i / 4096)) (i / 2048 % 2) (BitVec.ofNat 16 (m.hly.reg.nodeId.toNat / 2048 * 2048 + i % 2048)))
  else if 0x10000 ≤ o ∧ o < 0x10080 then podWord (m.podEntry (m.bank ((o - 0x10000) / 64)) ((o - 0x10000) / 4 % 16))
  else 0

/-- A slot entry: the owner's tag with OWNED (05 R145). -/
def Machine.slotEntry (m : Machine) (b : Bank) (p i : Nat) : Nat :=
  match slotOwner b m.node p i with
  | some t => t + 4096
  | none => 0

/-- TKP block. -/
def Machine.readTkp (m : Machine) (o : Nat) : Word :=
  let t := m.tkp
  let kind := match t.kind with
    | .place => 0
    | .replan => 1
    | .dryrun => 2
  if o = 0x00 then word [(0, flag t.busy), (1, kind), (3, t.grade), (9, t.reason), (16, t.rounds % 65536)]
  else if o = 0x04 then word [(0, t.resvMax), (8, t.replanUs), (21, t.placeMs)]
  else if o = 0x08 then word [(0, t.lastScale)]
  else if o = 0x10 then BitVec.ofNat 32 t.cntJobs
  else if o = 0x14 then BitVec.ofNat 32 t.cntDeadline
  else if o = 0x18 then BitVec.ofNat 32 t.cntRefused
  else if o = 0x1C then BitVec.ofNat 32 t.cntFallback
  else if 0x10000 ≤ o ∧ o < 0x18000 then
    let b := m.bank ((o - 0x10000) / 0x4000)
    let p := (o - 0x10000) % 0x4000 / 0x200
    let k := (o - 0x10000) % 0x200 / 4
    if p < 24 then word [(0, m.slotEntry b p (2 * k)), (16, m.slotEntry b p (2 * k + 1))] else 0
  else 0

/-! ### Telltale (14 Tables 14.4–14.6) -/

/-- The bits of a bank's word. -/
def Machine.bankWord (m : Machine) (w : Nat) (p : SrcRec → Bool) : Word :=
  maskOf 32 ((List.range 32).filter fun b => p (m.src (32 * w + b)))

/-- A slot's reaction fields, as TTL_SLOT_PKG lays them out. -/
def SlotRec.fields (r : SlotRec) : List (Nat × Nat) :=
  [(0, flag r.active), (1, r.cls), (4, flag r.actionDone), (5, r.source), (20, r.merged)]

/-- A log record's 32 bytes (14 Table 14.4). -/
def TtlRecord.bytes (r : TtlRecord) : List Byte :=
  leBytes 8 (pack [(0, r.type), (8, r.cls), (16, r.slot), (24, r.flags), (32, r.source), (48, r.roundN)]) ++ leBytes 8 r.time.toNat ++
  leBytes 8 (pack [(0, r.count), (32, r.unit), (48, (r.ctx.map fun c => c % 64 + 64).getD 0), (56, r.recCount)]) ++ leBytes 8 (r.merged % 2 ^ 32)

/-- The four registers of a source (14 Table 14.6). -/
def Machine.srcWord (m : Machine) (i k : Nat) : Word :=
  let r := m.src i
  let cur := m.currentClass i
  if k = 0 then word [(0, entryOf i), (4, flag (surviveOf i r)), (5, flag (entryClass i).isSome), (8, r.n), (16, r.wMs)]
  else if k = 1 then word [(0, cur), (3, flag (decide (0 < r.raised))), (4, flag r.forcedSeen), (8, r.winCount)]
  else if k = 2 then BitVec.ofNat 32 r.total
  else word [(0, (r.lastCtx.map fun c => c % 64 + 64).getD 0), (8, r.lastUnit % 256)]

/-- TTL block. -/
def Machine.readTtl (m : Machine) (o : Nat) : Word :=
  let t := m.ttl
  if o < 0x50 then m.bankWord (o / 4) (·.any)
  else if 0x80 ≤ o ∧ o < 0xD0 then m.bankWord ((o - 0x80) / 4) (·.first)
  else if o = 0x100 then word [(0, flag t.firstLatched), (1, t.firstClass), (4, t.firstSources % 1024), (14, flag t.firstForced)]
  else if o = 0x104 then half t.firstTime.toNat false
  else if o = 0x108 then half t.firstTime.toNat true
  else if o = 0x110 then word [(0, t.pinMin), (3, flag t.autoHold), (4, flag t.injectEn)]
  else if o = 0x114 then word [(0, t.quietMs)]
  else if o = 0x118 then word [(0, t.limits.getD 0 0), (4, t.limits.getD 1 0), (8, t.limits.getD 2 0), (12, t.limits.getD 3 0)]
  else if o = 0x120 then word t.pkg.fields
  else if o = 0x130 then word ((List.range 3).map fun k => (4 * k, recoveryCount m.ns t.pkg (k + 1)))
  else if o = 0x134 then BitVec.ofNat 32 t.recTotal
  else if o = 0x140 then word [(0, flag t.pin.hold), (1, flag t.pin.low), (2, flag t.pin.c4), (16, t.pin.pulses)]
  else if o = 0x144 then word [(0, t.forceCtx), (6, flag t.forceValid)]
  else if o = 0x150 then word [(0, t.head)]
  else if o = 0x154 then word [(0, t.tail)]
  else if o = 0x158 then word [(0, flag t.ovf), (16, t.lost)]
  else if o = 0x15C then BitVec.ofNat 32 t.maskedCnt
  else if 0x200 ≤ o ∧ o < 0x300 then
    let r := m.slotAt (some ((o - 0x200) / 4))
    word (r.fields ++ [(16, recoveryCount m.ns r 2)])
  else if 0x2000 ≤ o ∧ o < 0x6000 then wordAt ((tget TtlRecord.reset t.log ((o - 0x2000) / 32)).bytes) (o % 32)
  else if 0x8000 ≤ o ∧ o < 0xA800 then m.srcWord ((o - 0x8000) / 16) (o / 4 % 4)
  else 0

/-! ### Reef (02 Table 2.12, 13 Table 13.6) -/

/-- PHASE of REEF_PART_n: a partition whose pre-ramp waits for its window, or whose armed step waits for its pre-ramp, reads 1. -/
def Machine.partPhase (m : Machine) (i : Nat) : Nat :=
  let p := m.rpart i
  if p.phase = 2 ∧ !p.ramping then 1
  else if p.phase = 0 ∧ (m.armOrder.any fun c => m.ctxPart c == i) then 1
  else p.phase

/-- REEF block; what the rigging image gives reads 0 until its fields are loaded (13 Table 13.6). -/
def Machine.readReef (m : Machine) (o : Nat) : Word :=
  let r := m.reef
  let t := r.tray
  let age := match t.at_ with
    | some a => min 0xFFFF ((m.ns - a.toNat) / 1000000)
    | none => 0
  let loaded := m.stepPast 7
  if o = 0x00 then word [(0, flag r.capLimiting), (1, flag r.capHold), (2, flag r.ballastHold), (3, flag r.stale), (4, flag r.fallback),
    (5, flag m.rampScaled), (6, (maskOf 4 ((List.range 4).filter fun d => m.dieLive d)).toNat)]
  else if o = 0x04 then word [(0, if loaded then m.capInForce else 0), (16, t.share)]
  else if o = 0x08 then word [(0, m.rateUp % 1024), (16, if loaded then m.rig 0x0C else 0)]
  else if o = 0x0C then (if loaded then word [(0, m.rateDown % 1024), (16, m.rig 0x0D)] else 0)
  else if o = 0x10 then (if loaded then word [(0, m.rig 0x0E), (16, m.rig 0x0F)] else 0)
  else if o = 0x14 then BitVec.ofNat 32 m.ballastMj
  else if o = 0x20 then word [(0, t.tUp), (16, t.tDown)]
  else if o = 0x24 then word [(0, t.pTray), (16, age)]
  else if o = 0x28 then word [(0, t.soc), (7, flag t.battOk), (8, t.cool), (16, t.flow), (23, flag t.cduOk)]
  else if o = 0x30 then word [(0, r.p100us), (16, r.p1ms)]
  else if 0x100 ≤ o ∧ o < 0x120 then
    let d := (o - 0x100) / 8
    if o % 8 = 0 then word [(0, (m.rdie d).vset), (16, if bitAt m.fuse.cdieMask d then m.vmin d else 0)] else word [(0, m.vtarget d)]
  else if 0x140 ≤ o ∧ o < 0x180 then
    let i := (o - 0x140) / 8
    let p := m.rpart i
    if o % 8 = 0 then word [(0, p.ballast), (12, m.partPhase i), (14, p.group), (18, p.groupsM1)]
    else word [(0, p.windowUs), (8, p.spacingNs)]
  else if o = 0x200 then word [(0, m.corner.uv.toNat), (4, m.corner.ot.toNat), (8, m.corner.uvSeen.toNat), (12, m.corner.otSeen.toNat),
    (16, m.corner.thermHold.toNat)]
  else if o = 0x300 then BitVec.ofNat 32 r.cntCapHold
  else if o = 0x304 then BitVec.ofNat 32 r.cntBallastHold
  else if o = 0x308 then BitVec.ofNat 32 r.cntRiseExcess
  else 0

/-! ### Links and forwarding (03 Tables 3.12–3.17, 07 Table 7.8) -/

/-- A training state's code (03 Table 3.3). -/
def PortState.code : PortState → Nat
  | .off => 0 | .detect => 1 | .sync => 2 | .deskew => 3 | .exchange => 4 | .equalise => 5 | .verify => 6 | .active => 7
  | .retrain => 8 | .holdoff => 9 | .down => 10

/-- The registers of a port. -/
def Machine.readPort (m : Machine) (p o : Nat) : Word :=
  let r := m.port p
  if o = 0x00 then word [(0, r.stat.state.code), (4, portStatus r), (6, r.stat.gen), (8, r.stat.width), (11, r.stat.lanes.toNat),
    (15, r.stat.rxGood.toNat), (19, r.stat.reason), (24, r.stat.dir), (27, r.stat.pos), (30, flag r.stat.assigned)]
  else if o = 0x04 then word [(0, r.far.node.toNat), (16, r.far.dir), (19, r.far.pos), (22, r.far.preset), (26, r.far.cls), (28, flag r.far.valid)]
  else if o = 0x10 then BitVec.ofNat 32 r.cnt.crc
  else if o = 0x14 then BitVec.ofNat 32 r.cnt.fecCorr
  else if o = 0x18 then BitVec.ofNat 32 r.cnt.fecUncorr
  else if o = 0x1C then BitVec.ofNat 32 r.cnt.replay
  else if o = 0x20 then BitVec.ofNat 32 r.cnt.retrain
  else if o = 0x24 then BitVec.ofNat 32 r.cnt.degrade
  else if o = 0x28 then BitVec.ofNat 32 r.cnt.loss
  else if o = 0x2C then BitVec.ofNat 32 r.cnt.proto
  else 0

/-- The forwarding registers of an I/O die. -/
def Machine.readFwd (m : Machine) (d o : Nat) : Word :=
  let r := m.fwdAt d
  if o = 0x00 then BitVec.ofNat 32 r.cnt.noRoute
  else if o = 0x04 then BitVec.ofNat 32 r.cnt.aged
  else if o = 0x08 then BitVec.ofNat 32 r.cnt.malformed
  else if o = 0x0C then BitVec.ofNat 32 r.cnt.detqOvf
  else if o = 0x10 then BitVec.ofNat 32 r.cnt.dup
  else if o = 0x14 then BitVec.ofNat 32 r.cnt.staleGen
  else if o = 0x18 then BitVec.ofNat 32 r.cnt.lateRep
  else if o = 0x1C then BitVec.ofNat 32 r.cnt.detoured
  else if o = 0x20 then word [(0, r.detq.length), (16, r.peak)]
  else if o = 0x24 then word [(0, r.filter.length), (16, flag !r.waiting.isEmpty)]
  else if o = 0x28 then BitVec.ofNat 32 r.cnt.late
  else if o = 0x2C then word [(0, r.late.stream), (12, r.late.tag), (24, r.late.cause)]
  else if o = 0x30 then word [(0, r.late.src.toNat), (16, r.late.late)]
  else if o = 0x34 then BitVec.ofNat 32 r.cnt.flowAbort
  else 0

/-- SHR block. -/
def Machine.readShr (m : Machine) (o : Nat) : Word :=
  if o = 0x00 then word [(0, m.shr.preset), (4, flag (m.shr.presetOk && (m.shr.preset == 2 || m.shr.preset == 3))),
    (5, flag m.shr.presetOk), (6, m.shr.genLimit)]
  else if o = 0x100 then word [(0, m.shr.stayOk.toNat), (12, m.shr.spareUsed.toNat)]
  else if 0x200 ≤ o ∧ o < 0x300 then m.readFwd ((o - 0x200) / 0x80) (o % 0x80)
  else if 0x1000 ≤ o ∧ o < 0x2800 then m.readPort ((o - 0x1000) / 0x100) (o % 0x100)
  else 0

/-! ### Copy engines, contexts (06 Table 6.17, 09 Table 9.15, 10 Table 10.12, 11 Table 11.10, 12 Tables 12.7, 12.8, 15 Table 15.11) -/

/-- The queues attached to an engine: those enabled on it that are not DISABLED (12 Table 12.8). -/
def Machine.attached (m : Machine) (e : Nat) : Nat :=
  (m.ctx.map fun x => (x.2.ce.queues.filter fun q => q.2.state != .disabled && engineOf q.2.cls q.2.idx == some e).length).foldl (· + ·) 0

/-- CE block. -/
def Machine.readCe (m : Machine) (o : Nat) : Word :=
  let e := o / 16
  let r := m.engine e
  if 20 ≤ e then 0
  else if o % 16 = 0 then
    let busy := m.ctx.any fun x => x.2.ce.queues.any fun q => q.2.cur.any fun k => k.engine == e
    word [(0, flag busy), (1, flag r.failed), (2, m.attached e)]
  else if o % 16 = 4 then half r.bytes false
  else if o % 16 = 8 then half r.bytes true
  else 0

/-- The code of a context's state (06 Table 6.17). -/
def CtxLife.code : CtxLife → Nat
  | .free => 0 | .live => 1 | .ending => 2 | .final => 3

/-- A meter by its place in Table 6.17. -/
def Meters.nth (x : Meters) (i : Nat) : Nat := [x.tile, x.energy, x.hbm, x.link, x.ce].getD i 0

/-- The code of a queue's state (12 Table 12.7). -/
def QueueState.code : QueueState → Nat
  | .disabled => 0 | .running => 1 | .halted => 2

/-- The execution registers of a context page (09 Table 9.15). -/
def Machine.readXc (m : Machine) (c o : Nat) : Word :=
  let x := m.xc c
  if o = 0x100 then word [(0, x.op)]
  else if o = 0x104 then word [(0, x.status), (8, x.shown.code), (16, flag x.done), (17, flag x.busy), (18, flag x.armOvf), (19, flag x.armBad)]
  else if o = 0x108 then half x.img.toNat false
  else if o = 0x10C then half x.img.toNat true
  else if o = 0x110 then half x.hbm.toNat false
  else if o = 0x114 then half x.hbm.toNat true
  else if o = 0x118 then word [(0, x.tileBase), (7, flag x.useBase), (8, x.streamBase)]
  else if o = 0x120 then half x.stepBase.toNat false
  else if o = 0x124 then half x.stepBase.toNat true
  else if o = 0x128 then half x.cqBase.toNat false
  else if o = 0x12C then half x.cqBase.toNat true
  else if o = 0x130 then word [(0, x.cqSize)]
  else if o = 0x134 then word [(0, x.cqHead)]
  else if o = 0x144 then x.armHi
  else if o = 0x148 then word [(0, x.queue.length + if x.run.isSome then 1 else 0)]
  else if o = 0x150 then half x.next.toNat false
  else if o = 0x154 then half x.next.toNat true
  else if o = 0x158 then word [(0, x.viol.reason), (4, x.viol.ch), (14, (x.viol.tile.getD 0) % 128)]
  else 0

/-- The stream registers of a context page (10 Table 10.12). -/
def Machine.readSt (m : Machine) (c o : Nat) : Word :=
  let x := (m.ctxAt c).st
  if o = 0x200 then word [(0, x.op), (4, x.stream)]
  else if o = 0x204 then word [(0, x.status), (16, flag x.done), (17, flag x.busy)]
  else if 0x208 ≤ o ∧ o < 0x21C then tget 0 x.args ((o - 0x208) / 4)
  else if 0x220 ≤ o ∧ o < 0x260 then tget 0 x.res ((o - 0x220) / 4)
  else 0

/-- The copy-engine registers of a context page (12 Table 12.7). -/
def Machine.readCtxCe (m : Machine) (c o : Nat) : Word :=
  let x := (m.ctxAt c).ce
  if o < 0x480 then
    let r := m.queue c ((o - 0x400) / 0x20)
    let k := o % 0x20
    if k = 0x00 then half r.base.toNat false
    else if k = 0x04 then half r.base.toNat true
    else if k = 0x08 then word [(0, r.log2size), (4, r.cls), (6, r.idx), (16, flag r.enable)]
    else if k = 0x0C then word [(0, r.pi)]
    else if k = 0x10 then word [(0, r.ci)]
    else if k = 0x14 then word [(0, r.state.code), (8, r.haltStatus), (16, flag r.dbErr), (17, flag r.cfgErr)]
    else if k = 0x18 then word [(0, r.abortIdx)]
    else 0
  else if o = 0x480 then half x.cqBase.toNat false
  else if o = 0x484 then half x.cqBase.toNat true
  else if o = 0x488 then word [(0, x.cqSize)]
  else if o = 0x48C then word [(0, x.cqHead)]
  else 0

/-- A context page (18 Table 18.2), read by function f: CTX_XC_ARM_LO shows f's own latch, the index that f wrote last (09 R284). -/
def Machine.readPage (m : Machine) (f c o : Nat) : Word :=
  let r := m.ctxAt c
  let b := r.base
  let hi := o % 8 == 4
  if o = 0x000 then word [(0, b.life.code), (2, b.part), (5, b.tag)]
  else if o = 0x004 then b.event
  else if o = 0x008 then b.tenant
  else if 0x010 ≤ o ∧ o < 0x038 then half (b.meters.nth ((o - 0x010) / 8)) hi
  else if 0x048 ≤ o ∧ o < 0x070 then half (b.snap.nth ((o - 0x048) / 8)) hi
  else if 0x070 ≤ o ∧ o < 0x078 then half b.snapTime.toNat hi
  else if 0x080 ≤ o ∧ o < 0x0A8 then half (b.minute.nth ((o - 0x080) / 8)) hi
  else if 0x0A8 ≤ o ∧ o < 0x0B0 then half b.minTime.toNat hi
  else if o = 0x0B0 then BitVec.ofNat 32 b.minSeq
  else if o = 0x0B8 then word [(0, (m.ctxPages c).length)]
  else if o = 0x140 then word [(0, tget 0 r.xc.latches f)]
  else if 0x100 ≤ o ∧ o < 0x15C then m.readXc c o
  else if 0x200 ≤ o ∧ o < 0x260 then m.readSt c o
  else if o = 0x300 then (if b.func = some 0 then 0 else word [(0, r.win.base)])
  else if o = 0x304 then (if b.func = some 0 then 0 else word [(0, flag r.win.denied), (16, r.win.count)])
  else if 0x400 ≤ o ∧ o < 0x490 then m.readCtxCe c o
  else if o = 0x500 then word [(0, r.rst.gen), (8, r.rst.resets), (16, r.rst.cause), (20, flag r.rst.inReset)]
  else 0

/-- CTX block. -/
def Machine.readCtx (m : Machine) (f o : Nat) : Word :=
  let x := m.ctxCmd
  if o = 0 then word [(0, x.op), (8, x.part), (11, x.ctx), (17, x.func)]
  else if o = 4 then word [(0, x.status), (8, x.statCtx), (14, flag x.done), (15, flag x.busy)]
  else if 0x10000 ≤ o ∧ o < 0x50000 then m.readPage f ((o - 0x10000) / 0x1000) (o % 0x1000)
  else 0

/-! ### Partitions, streams (06 Tables 6.13–6.15, 10 Tables 10.11, 10.12) -/

/-- The code of a partition's state (06 Table 6.14). -/
def PartState.code : PartState → Nat
  | .free => 0 | .bound => 1 | .draining => 2 | .scrubbing => 3 | .quarantined => 4

/-- The partitions that satisfy a test, as a mask. -/
def Machine.partMask (m : Machine) (p : PartRec → Bool) : Nat := (maskOf 8 ((List.range 8).filter fun i => p (m.partAt i))).toNat

/-- The owner map's byte of a page (10 Table 10.11). -/
def Machine.ownerByte (m : Machine) (p : Nat) : Nat :=
  let r := m.pageAt p
  if m.totalPages ≤ p then 0
  else match r.use with
    | .free => 0
    | .owned => 64 + r.ctx
    | .scrubbing => 128 + r.ctx
    | .retired => 192 + r.ctx

/-- PART block. A partition that carries a tag counts as bound. -/
def Machine.readPart (m : Machine) (o : Nat) : Word :=
  let p := m.part
  if o = 0x00 then word [(0, p.log2k), (8, m.partMask fun r => r.tag != 0), (16, m.partMask fun r => r.state == .scrubbing),
    (24, m.partMask fun r => r.state == .quarantined)]
  else if o = 0x10 then half p.evq.base.toNat false
  else if o = 0x14 then half p.evq.base.toNat true
  else if o = 0x18 then word [(0, p.evq.size)]
  else if o = 0x1C then word [(0, p.evq.head)]
  else if o = 0x20 then word [(0, p.evq.tail)]
  else if o = 0x24 then word [(0, flag p.evq.ovf)]
  else if o = 0x28 then BitVec.ofNat 32 p.tagDrop
  else if o = 0x2C then BitVec.ofNat 32 p.meterLost
  else if o = 0x30 then half p.energyUnattr false
  else if o = 0x34 then half p.energyUnattr true
  else if o = 0x40 then word [(0, p.page.op), (4, p.page.ctx)]
  else if o = 0x44 then word [(0, p.page.first)]
  else if o = 0x48 then word [(0, p.page.count)]
  else if o = 0x4C then word [(0, p.page.status), (16, flag p.page.done), (17, flag p.page.busy)]
  else if 0x100 ≤ o ∧ o < 0x180 then
    let i := (o - 0x100) / 16
    let r := m.partAt i
    if o % 16 = 0 then word [(0, r.tag), (12, r.state.code), (16, r.ctxMax)]
    else if o % 16 = 4 then (if i < m.parts then word [(0, m.partPagesPerStack * m.hbm.s * 2)] else 0)
    else if o % 16 = 8 then BitVec.ofNat 32 r.scrubMib
    else r.tenant
  else if 0x10000 ≤ o ∧ o < 0x28000 then word ((List.range 4).map fun k => (8 * k, m.ownerByte (o - 0x10000 + k)))
  else 0

/-- STRM block. -/
def Machine.readStrm (m : Machine) (o : Nat) : Word :=
  if o = 0x00 then BitVec.ofNat 32 m.strm.cntClosed
  else if o = 0x04 then BitVec.ofNat 32 m.strm.cntMsg
  else if o = 0x08 then BitVec.ofNat 32 m.strm.cntCredit
  else if o = 0x0C then word [(0, (m.strm.entries.filter fun e => e.2.state != .closed).length)]
  else if 0x10000 ≤ o ∧ o < 0x50000 then wordAt ((m.strmAt ((o - 0x10000) / 0x40)).bytes) (o % 0x40)
  else 0

/-! ### Host interface (11 Tables 11.8, 11.9; 18 Table 18.10) -/

/-- A word of a function's MSI-X table: address, data, and the vector's mask bit, as PCI Express lays it out. PRESUMED (log 5). -/
def Machine.msixWord (m : Machine) (f v k : Nat) : Word :=
  let e := tget Msix.reset m.msix (f * 512 + v)
  if k = 0 then half e.addr.toNat false
  else if k = 1 then half e.addr.toNat true
  else if k = 2 then e.data
  else word [(0, flag e.masked)]

/-- A word of a function's MSI-X pending bits. -/
def Machine.pbaWord (m : Machine) (f w vectors : Nat) : Word :=
  maskOf 32 ((List.range 32).filter fun b => decide (32 * w + b < vectors) && (tget Msix.reset m.msix (f * 512 + 32 * w + b)).pending)

/-- HST_LINK_STAT_n (11 Table 11.8). -/
def Machine.hlinkWord (m : Machine) (n : Nat) : Word :=
  let l := m.hlink n
  word [(0, flag l.up), (1, flag l.degraded), (2, l.rate), (4, flag l.flit), (5, l.proto), (7, l.width), (16, l.downCnt)]

/-- HST block. -/
def Machine.readHst (m : Machine) (o : Nat) : Word :=
  let h := m.hst
  if o = 0x00 then m.hlinkWord 0
  else if o = 0x04 then m.hlinkWord 1
  else if o = 0x10 then word [(0, if m.stepPast 9 then m.rig 0x09 else 0)]
  else if o = 0x14 then word [(0, flag h.cohRead), (1, flag m.cxlActive)]
  else if o = 0x20 then word [(0, h.pfWin.base)]
  else if o = 0x24 then word [(0, flag h.pfWin.denied), (16, h.pfWin.count)]
  else if o = 0x28 then word [(0, h.numVf), (7, flag h.vfEn)]
  else if o = 0x30 then BitVec.ofNat 32 h.flushCnt
  else if o = 0x40 then BitVec.ofNat 32 m.acc.count
  else if o = 0x44 then word [(0, m.acc.offset % 2 ^ 26), (26, m.acc.cause)]
  else if o = 0x48 then word [(0, m.acc.func)]
  else if 0x1000 ≤ o ∧ o < 0x1800 then
    let w := m.watch ((o - 0x1000) / 16)
    if o % 16 = 0 then word [(0, flag w.valid), (1, flag w.bad), (6, w.lo)]
    else if o % 16 = 4 then BitVec.ofNat 32 w.hi
    else if o % 16 = 8 then word [(0, w.tgt)]
    else 0
  else if 0x8000 ≤ o ∧ o < 0x9080 then m.msixWord 0 ((o - 0x8000) / 16) (o / 4 % 4)
  else if 0xA000 ≤ o ∧ o < 0xA028 then m.pbaWord 0 ((o - 0xA000) / 4) 264
  else 0

/-! ### Boot, timebase, luff (02 Tables 2.8–2.11; 08 Tables 8.8, 8.9; 10 Table 10.10; 15 Table 15.11; 16 Table 16.13) -/

/-- A tile's state code (08 Table 8.9). -/
def PhysUse.code : PhysUse → Nat
  | .mapped => 0 | .spare => 1 | .retired => 2 | .unusable => 3

/-- The lowest boot step that runs; 0 when none does (16 Table 16.13). -/
def Machine.stepRunning (m : Machine) : Nat := ((List.range 41).find? fun k => tget .notRun m.boot.steps k == BootSt.running).getD 0

/-- BOOT_STAGE (16 Table 16.13). -/
def Machine.bootStage (m : Machine) : Word :=
  let b := m.boot
  word [(0, m.stepRunning), (6, flag b.ready), (7, flag b.locked), (8, flag b.rescue), (9, flag b.noFirmware), (10, flag b.resetRun),
    (16, b.run.toNat % 65536)]

/-- The 16 bytes of a journal slot. -/
def Machine.jnlRecord (m : Machine) (i : Nat) : List Byte := mread Config.erased m.flash (journalBase + 16 * i) 16

/-- BOOT block. -/
def Machine.readBoot (m : Machine) (o : Nat) : Word :=
  let b := m.boot
  if o = 0x00 then m.bootId
  else if o = 0x04 then m.bootStage
  else if o = 0x08 then word [(0, flag b.copyB), (1, flag b.fallback), (2, b.form)]
  else if o = 0x0C then b.imageSeq
  else if 0x10 ≤ o ∧ o < 0x1C then
    let w := (o - 0x10) / 4
    word ((List.range 16).map fun k => (2 * k, if 16 * w + k < 40 then tget 0 b.levels (16 * w + k + 1) else 0))
  else if o = 0x20 then word [(0, b.jnlIndex)]
  else if 0x24 ≤ o ∧ o < 0x34 then wordAt (m.jnlRecord b.jnlIndex) (o - 0x24)
  else if o = 0x34 then word [(0, b.jnlNext)]
  else if o = 0x40 then word [(0, m.fuse.keyRevoked.toNat), (4, m.fuse.svnMin.toNat)]
  else if o = 0x44 then word [(0, flag b.fw.bundleOk), (1, b.fw.source), (3, flag b.fw.hlySwitched), (8, b.fw.svn)]
  else if o = 0x48 then b.fw.version
  else if o = 0x4C then b.fw.tag
  else if o = 0x50 then word [(0, b.bcast.good.length % 2 ^ 20), (20, min 1023 b.bcast.nacks)]
  else if o = 0x54 then BitVec.ofNat 32 b.rigWrites
  else if o = 0x100 then b.strap
  else if 0x200 ≤ o ∧ o < 0x220 then
    let r := tget HbmStack.reset m.hbm.stackTbl ((o - 0x200) / 4)
    if !m.hbm.shown then 0 else word [(0, flag r.present), (1, flag r.usable), (2, r.step), (4, r.badPch)]
  else if o = 0x220 then if !m.hbm.shown then 0 else word [(0, m.hbm.s), (4, m.hbm.step), (6, flag m.hbm.low)]
  else if o = 0x224 then if !m.hbm.shown then 0 else word [(0, m.hbm.pc)]
  else if 0x240 ≤ o ∧ o < 0x260 then BitVec.ofNat 32 (tget HbmStack.reset m.hbm.stackTbl ((o - 0x240) / 4)).corr
  else if 0x300 ≤ o ∧ o < 0x400 then (if o % 0x40 < 0x30 then wordAt (tget [] b.meas ((o - 0x300) / 0x40)) (o % 0x40) else 0)
  else if 0x400 ≤ o ∧ o < 0x440 then wordAt m.yieldBytes (o - 0x400)
  else if 0x1000 ≤ o ∧ o < 0x1200 then
    let l := (o - 0x1000) / 4
    let e := m.mapAt l
    if l < m.tileCount then word [(0, e.phys), (6, l / 32), (8, flag e.valid), (9, flag e.spare)] else 0
  else if 0x1400 ≤ o ∧ o < 0x1640 then
    let i := (o - 0x1400) / 4
    let e := m.physAt (i / 36) (i % 36)
    if i / 36 < m.cdieCount then word [(0, e.use.code), (2, if e.use = PhysUse.mapped then e.logical else 0)] else 0
  else 0

/-- TIME_STATUS (02 Table 2.10). -/
def Machine.timeStatus (m : Machine) : Word :=
  let t := m.time
  word [(0, flag t.locked), (1, flag t.root), (2, flag t.holdover), (3, flag t.degraded), (4, t.depth), (9, t.parentDir), (12, t.parentPos),
    (15, flag t.refclkOk), (16, t.parentNode.toNat)]

/-- TIME block, read by function f: TIME_NOW_HI is f's own latch (02 R67). -/
def Machine.readTime (m : Machine) (f o : Nat) : Word :=
  if o = 0x0 then half m.ns false
  else if o = 0x4 then (if f = 0x7F then m.time.farnisLatch else tget 0 m.time.latch f)
  else if o = 0x8 then m.timeStatus
  else if o = 0xC then m.time.offset
  else 0

/-- Whether a luff counter's unit has work pending (15 Table 15.1). -/
def Machine.unitPending (m : Machine) (n : Nat) : Bool :=
  if n < 128 then match m.holder n with
    | some (c, _, _) => match (m.xc c).run with
      | some r => if r.released then (m.tileAt n).phase != .done && (m.tileAt n).phase != .idle
          else !((m.partDies (m.ctxPart c)).any fun d => bitAt m.corner.thermHold d)
      | none => false
    | none => false
  else if n < 148 then m.ctx.any fun x => x.2.ce.queues.any fun q => q.2.cur.any fun k => k.started && k.engine == n - 128
  else if n < 172 then !(m.port (n - 148)).tx.retry.isEmpty || !(m.port (n - 148)).tx.queue.isEmpty
  else if n < 428 then (m.collAt (n - 172)).any (·.busy)
  else if n = 430 then m.hly.commitAt.isSome || m.hly.prepWait.isSome || m.hly.work.phase != .idle
  else if n = 431 then m.hly.cur.isSome || !m.hly.waiting.isEmpty || !m.hly.finished.isEmpty
  else if n = 432 then m.tkp.job.isSome || !m.tkp.queue.isEmpty
  else false

/-- LUFF_UNIT_n (15 Table 15.11). -/
def Machine.unitWord (m : Machine) (n : Nat) : Word :=
  let u := tget LuffUnit.reset m.luff.units n
  word [(0, u.progress), (16, flag (m.unitPending n)), (17, flag u.expired), (24, u.expireCnt)]

/-- LUFF block. -/
def Machine.readLuff (m : Machine) (o : Nat) : Word :=
  let l := m.luff
  if o = 0x00 then word [(0, l.winTile)]
  else if o = 0x04 then word [(0, l.winCe)]
  else if o = 0x08 then word [(0, l.winLink)]
  else if o = 0x0C then word [(0, l.winColl)]
  else if o = 0x10 then word [(0, l.winHly)]
  else if o = 0x14 then word [(0, l.drainUs)]
  else if o = 0x20 then word [(0, l.rstOp), (2, l.rstCtx), (8, l.rstPart)]
  else if o = 0x24 then word [(0, l.rstStatus), (16, flag l.rstDone), (17, flag l.rstBusy)]
  else if o = 0x28 then word ((List.range 4).map fun i => (8 * i, tget 0 l.partGen i))
  else if o = 0x2C then word ((List.range 4).map fun i => (8 * i, tget 0 l.partGen (4 + i)))
  else if o = 0x30 then word [(0, l.pkgGen), (16, l.pkgResets)]
  else if o = 0x34 then BitVec.ofNat 32 l.lateDrop
  else if o = 0x38 then word [(0, l.lastStream)]
  else if o = 0x3C then word [(0, m.hly.restarts)]
  else if 0x80 ≤ o ∧ o < 0x94 then l.crash.words.getD ((o - 0x80) / 4) 0
  else if o = 0xA0 then word [(0, flag l.dumpValid), (1, flag l.dumpTiles), (8, l.dumpSkipped), (16, flag l.dumpFailed)]
  else if 0x1000 ≤ o ∧ o < 0x16F0 then m.unitWord ((o - 0x1000) / 4)
  else 0

/-! ### The map (18 Table 18.1) -/

/-- The word at a 4-byte-aligned offset of BAR0, read by function f (0 the PF, 0x7F Farnis); an offset that no register occupies reads 0
(18 R506). -/
def Machine.regRead (m : Machine) (f o : Nat) : Word :=
  let k := o % 0x100000
  match o / 0x100000 with
  | 1 => m.readHly k
  | 2 => m.readTkp k
  | 3 => m.readTtl k
  | 4 => m.readReef k
  | 5 => m.readShr k
  | 6 => m.readCe k
  | 7 => m.readCtx f k
  | 8 => m.readPart k
  | 9 => m.readStrm k
  | 10 => m.readHst k
  | 11 => m.readBoot k
  | 12 => m.readTime f k
  | 13 => m.readLuff k
  | _ => 0

end Sys2Proof.Machine
end

