-- ==== Sys2Proof/Machine/Boot.lean ====
section
/-!
DEFINITION. The commands of bring-up: power-good, identity, boot steps, the training deadline, the journal's CLEAR, and the flash
(16 R450–R468; 17 Table 17.2).
-/
namespace Sys2Proof.Machine

/-! ### Power (16 R450, 17 R485, 20 R549) -/

/-- A site as Farnis holds it. -/
def Machine.siteAt (m : Machine) (k : Nat) : SiteRec := tget .reset m.far.sites k

/-- Whether SITE_PG is asserted at this package: by Farnis while the site is ON or NOTICE, by the card's controller on a card. -/
def Machine.sitePg (m : Machine) : Bool :=
  if m.pins.form then m.card.pg
  else
    let s := (m.siteAt m.pins.site.toNat).state
    s == .on || s == .notice

/-- Power-good: straps latched, timebase and Telltale started, step 1 entered; every lost parity group raises STRAP_PARITY (16 R450;
01 R23, R25; 02 R66). The reference is taken as present until REFCLK_LOSS. The UNIT of a STRAP_PARITY event is 0 for both groups: its
source has one index and chapter 14 gives it no unit. DESIGN CHOICE (log 37). -/
def Machine.powerUp (m : Machine) : Machine :=
  let m := m.bare.modTime fun t => { t with running := true, now := 0, refclkOk := true }
  let m := m.modBoot fun b => { b with on := true, strap := m.pins.strap, iodieOk := 1 }
  let m := if m.pins.siteOk then m else m.raise 497 0
  let m := if m.pins.rackOk then m else m.raise 497 0
  let m := (onePositions m.fuse.cdieMask).foldl (fun (m : Machine) d => m.modRdie d fun r => { r with vset := 600 }) m
  m.enterStep 1

/-- POWER_GOOD. -/
def execPowerGood (s : State) : Host.Outcome State Fault Refusal := done s (if s.m.sitePg && !s.m.boot.on then s.m.powerUp else s.m)

/-- ID_READ: the fused identity, BOOT_STRAP and BOOT_STAGE; in standby the straps as sampled now and stage 0 (01 R23; 17 Table 17.2). The row carries the
reserved CLASS and COMMAND pairs too, which are answered BAD_COMMAND (log 47). -/
def execIdRead (h : MsgHdr) (cls cmd : BitVec 8) (s : State) : Host.Outcome State Fault Refusal :=
  done s (s.m.vendor h cls.toNat cmd.toNat [] fun m =>
    let strap := if m.boot.on then m.boot.strap else m.pins.strap
    if cls ≠ 1 ∨ cmd ≠ 1 then m.answerMctp h cls.toNat cmd.toNat 0x02 [] else
    m.answerMctp h 1 1 0 (wordBytes [m.bootId, m.fuse.uid.setWidth 32, BitVec.ofNat 32 (m.fuse.uid.toNat / 2 ^ 32), strap,
    if m.boot.on then m.bootStage else 0]))

/-! ### Boot steps (16 R462, R463) -/

/-- Whether a step's own condition fails in a start run, so that it does not run (16 R463). -/
def Machine.stepUnfit (m : Machine) (k : Nat) : Bool :=
  match k with
  | 11 => !m.twoDie
  | 13 => !m.twoDie || !((m.rig 9).testBit 0)
  | 23 => !m.pins.form && (m.rig 5 == 0 || m.ownBundle.isNone)
  | _ => false

/-- Whether a step may be entered now: the run runs it, it has not run, every step it waits for has passed, and no rescue or missing
firmware stops it (16 R460, R462, R476). A master whose step 23 staged nothing runs it once more after step 28 (R471). -/
def Machine.mayEnter (m : Machine) (k : Nat) : Bool :=
  m.boot.on && !m.boot.rescue && decide (1 ≤ k) && decide (k ≤ 40) && !(m.boot.noFirmware && decide (32 ≤ k) && decide (k ≤ 39)) &&
  ((m.bootSt k == .notRun && m.waitsMet k) ||
   (k == 23 && m.isMaster && m.stepPast 28 && m.stepPast 23 && m.boot.bcast.staged.isNone && !m.boot.fwRerun))

/-- No port is ACTIVE at the training deadline or after it: step 27 completes at once and Halyard goes on to ELECT as a component of one
(16 R468; 04 R109). -/
def Machine.aloneElect (m : Machine) : Machine :=
  let st := m.hly.reg.state
  if (st = .start ∨ st = .discover) ∧ m.stepPast 26 ∧ !((List.range 24).any fun p => (m.port p).stat.state == .active) then m.elect else m

/-- Carry a running step's work out and complete it. A Halyard restart that waited for HBM to leave self-refresh reloads after step 19 (15 R439). Steps 25 and 27–31 complete by other events. -/
def Machine.runStep (m : Machine) (k : Nat) (i : BootInputs) : Machine :=
  if [25, 27, 28, 29, 30, 31].contains k ∨ !i.ok then m
  else if 4 ≤ k ∧ k ≤ 9 ∧ m.level k = 2 then m.rescueMode
  else if 5 ≤ k ∧ k ≤ 8 then m.copyStep k
  else
    let m := (m.stepWork k i).completeStep k
    if k = 19 then m.resync else if k = 22 ∨ k = 36 then m.floodOwn else if k = 23 then m.staged else if k = 26 ∧ m.stepPast 25 then m.aloneElect else m

/-- Enter a step: skipped when its condition fails or its level skips it, else entered and, when it finishes, run. -/
def Machine.enterBoot (m : Machine) (k : Nat) (i : BootInputs) : Machine :=
  let rerun := k == 23 && m.stepPast 23
  if m.stepUnfit k && !m.boot.resetRun && !rerun then m.skipStep k 0
  else if levelSkips k && m.level k == 1 then m.skipStep k 1
  else ((m.enterStep k).runStep k i).bundleSettle

/-- BOOT_STEP_ENTER: a step is entered, or one that runs finishes. -/
def execBootStepEnter (k : Fin 41) (inp : BootInputs) (s : State) : Host.Outcome State Fault Refusal :=
  let m := s.m
  done s (if m.mayEnter k.val then m.enterBoot k.val inp
    else if m.bootSt k.val = .running then m.runStep k.val inp else m)

/-- What NOTE 0x09 says of a port: STATUS, REASON, WIDTH and GEN (16 Table 16.8). -/
def Machine.portNote (m : Machine) (p : Nat) : Nat :=
  let r := m.port p
  pack [(0, portStatus r), (2, r.stat.reason), (7, r.stat.width), (10, r.stat.gen)]

/-- The training deadline: step 25 ends, a NOTE for every assigned port that is not UP, BOOT_TRAIN_LATE once; without an ACTIVE port
the package is its own time root (02 R72) and Halyard goes on to ELECT as a component of one (16 R468, 04 R109). -/
def Machine.trainDeadline (m : Machine) : Machine :=
  if m.bootSt 25 != .running then m
  else
    let m := (m.journal 0x09 25 (m.level 25) 0 0).setStep 25 .ended
    let late := m.assignedPorts.filter fun p => portStatus (m.port p) != 2
    let m := late.foldl (fun (m : Machine) p => m.note 25 0x09 p (m.portNote p)) m
    let m := if late.isEmpty ∨ m.boot.trainLate then m else (m.raise 563 0).modBoot fun b => { b with trainLate := true }
    let active := (List.range 24).any fun p => (m.port p).stat.state == .active
    let m := if active then m else m.makeRoot
    m.aloneElect.bundleSettle

/-- TRAIN_DEADLINE. -/
def execTrainDeadline (s : State) : Host.Outcome State Fault Refusal := done s s.m.trainDeadline

/-- A step reaches its limit: one marked Ends ends with END_LIMIT, any other raises BOOT_STEP_STUCK at C4 (16 R462, R463, R476). -/
def Machine.stepLimit (m : Machine) (k : Nat) : Machine :=
  if m.bootSt k != .running then m
  else if k = 25 then m.trainDeadline
  else if [27, 30, 31, 40].contains k then
    let m := (m.journal 0x09 k (m.level k) 0 0).setStep k .ended
    if k = 30 then m.note 30 0x0D 0 0
    else if k = 31 then
      (((m.note 31 0x0E 3 ((m.boot.bcast.offer.map fun o => o.tag.toNat).getD 0)).modBoot fun b =>
        { b with noFirmware := true, fw := { b.fw with source := 3 } }).raise 561 0).floodOwn
    else m
  else m.raise 556 k

/-- BOOT_STEP_LIMIT. -/
def execBootStepLimit (k : Fin 41) (s : State) : Host.Outcome State Fault Refusal := done s (s.m.stepLimit k.val)

/-- BOOT_ALT_CLR. -/
def execBootAltClr (s : State) : Host.Outcome State Fault Refusal := done s s.m.altClear

/-! ### The flash (16 R461; 17 Tables 17.2, 17.3) -/

/-- The size of the flash (16 R452). -/
def flashSize : Nat := 0x4000000

/-- Whether a range touches the copy in force or the journal; a package in rescue has no copy in force (16 R460, R461). -/
def Machine.flashBarred (m : Machine) (a n : Nat) : Bool :=
  let hits := fun (lo hi : Nat) => decide (a < hi) && decide (lo < a + n)
  hits journalBase (journalBase + 16 * journalSlots) ||
  (!m.boot.rescue && hits (copyBase m.boot.copyB) (copyBase m.boot.copyB + copyMax))

/-- What the boot controller answers to a write: BUSY until step 9 has completed, DENIED with BOOT_FLASH_REFUSED where it may not write
(16 R461). A package in rescue writes although its step 9 never runs (R460). -/
def Machine.flashGate (m : Machine) (a n : Nat) : Nat :=
  if !m.boot.rescue && !m.stepPast 9 then 1 else if m.flashBarred a n then 4 else 0

/-- Refuse a flash write: a refusal of the copy in force or the journal raises BOOT_FLASH_REFUSED (16 R461). -/
def Machine.flashRefuse (m : Machine) (h : MsgHdr) (cmd status : Nat) : Machine :=
  let m := m.answerMctp h 5 cmd status []
  if status = 4 then m.raise 562 0 else m

/-- Bytes that a device error leaves undefined (17 Table 17.3): free values. -/
def Machine.freeBytes (m : Machine) (n : Nat) : List Byte × Machine :=
  ((List.range n).map (Config.freeByte m.free), { m with free := m.free + 1 })

/-- Erase a range. -/
def Machine.flashClear (m : Machine) (a n : Nat) : Machine := { m with flash := tclear m.flash a n }

/-- Write bytes: a flash page can clear bits and not set them; a byte not erased holds the bits both had. PRESUMED (log 19). -/
def Machine.flashProgram (m : Machine) (a : Nat) (l : List Byte) : Machine :=
  { m with flash := mwrite Config.erased m.flash a ((l.zip (m.flashBytes a l.length)).map fun p => p.1 &&& p.2) }

/-- A range left undefined by a device error. -/
def Machine.flashSpoil (m : Machine) (a n : Nat) : Machine :=
  let (l, m) := m.freeBytes n
  { m with flash := mwrite Config.erased m.flash a l }

/-- FLASH_READ: 1–1,024 bytes. -/
def execFlashRead (h : MsgHdr) (off : Word) (len : BitVec 16) (devOk : Bool) (s : State) : Host.Outcome State Fault Refusal :=
  let n := len.toNat
  done s (s.m.vendor h 5 1 (leBytes 4 off.toNat ++ leBytes 2 n) fun m => if !m.boot.on then m
    else if n = 0 ∨ 1024 < n ∨ flashSize < off.toNat + n then m.answerMctp h 5 1 3 []
    else if !devOk then m.answerMctp h 5 1 5 []
    else m.answerMctp h 5 1 0 (m.flashBytes off.toNat n))

/-- The bytes that an erase's size code covers. -/
def eraseSize (code : Nat) : Option Nat := if code = 0 then some 4096 else if code = 1 then some 65536 else none

/-- FLASH_ERASE: a 4 KiB or 64 KiB block. -/
def execFlashErase (h : MsgHdr) (off : Word) (size : BitVec 8) (devOk : Bool) (s : State) : Host.Outcome State Fault Refusal :=
  done s (s.m.vendor h 5 2 (leBytes 4 off.toNat ++ leBytes 1 size.toNat) fun m => if !m.boot.on then m
    else match eraseSize size.toNat with
      | none => m.answerMctp h 5 2 3 []
      | some n =>
        if off.toNat % n ≠ 0 ∨ flashSize < off.toNat + n then m.answerMctp h 5 2 3 []
        else
          let gate := m.flashGate off.toNat n
          if gate ≠ 0 then m.flashRefuse h 2 gate
          else if devOk then (m.flashClear off.toNat n).answerMctp h 5 2 0 []
          else (m.flashSpoil off.toNat n).answerMctp h 5 2 5 [])

/-- FLASH_WRITE: whole 256-byte pages. -/
def execFlashWrite (h : MsgHdr) (off : Word) (data : List Byte) (devOk : Bool) (s : State) : Host.Outcome State Fault Refusal :=
  let n := data.length
  done s (s.m.vendor h 5 3 (leBytes 4 off.toNat ++ data) fun m => if !m.boot.on then m
    else if off.toNat % 256 ≠ 0 ∨ n % 256 ≠ 0 ∨ n = 0 ∨ 1024 < n ∨ flashSize < off.toNat + n then m.answerMctp h 5 3 3 []
    else
      let gate := m.flashGate off.toNat n
      if gate ≠ 0 then m.flashRefuse h 3 gate
      else if devOk then (m.flashProgram off.toNat data).answerMctp h 5 3 0 []
      else (m.flashSpoil off.toNat n).answerMctp h 5 3 5 [])

end Sys2Proof.Machine
end

