-- ==== Sys2Proof/Machine/Corner.lean ====
section
/-!
DEFINITION. The corner monitors of the compute dies: undervoltage, over-temperature, thermal hold and trip (02 R63–R65).
-/
namespace Sys2Proof.Machine

/-- Whether compute die d is present. -/
def Machine.hasDie (m : Machine) (d : Nat) : Bool := bitAt m.fuse.cdieMask d

/-- A monitor of die d trips: every released step with tiles of its partition there is off-corner (02 R64). -/
def Machine.markOffCorner (m : Machine) (d : Nat) : Machine :=
  (tkeys m.ctx).foldl (fun m c =>
    if (m.partDies (m.ctxPart c)).contains d then
      m.modRun c fun r => if r.released then { r with offCorner := setBit r.offCorner d true } else r
    else m) m

/-- Change REEF_CORNER_STAT (02 Table 2.12) when die d is present. -/
def Machine.modCorner (m : Machine) (d : CDie) (f : Corner → Corner) : Machine :=
  if m.hasDie d.val then { m with corner := f m.corner } else m

/-- The undervoltage monitor trips (02 R63). -/
def execUvMonitorTrip (d : CDie) (s : State) : Host.Outcome State Fault Refusal :=
  let m := s.m.modCorner d fun c => { c with uv := setBit c.uv d.val true, uvSeen := setBit c.uvSeen d.val true }
  done s (if s.m.hasDie d.val then (m.markOffCorner d.val).modRdie d.val fun r => { r with okSince := none } else m)

/-- The undervoltage monitor clears (02 R63). -/
def execUvMonitorClear (d : CDie) (s : State) : Host.Outcome State Fault Refusal :=
  done s (s.m.modCorner d fun c => { c with uv := setBit c.uv d.val false })

/-- The over-temperature monitor trips (02 R63). -/
def execOtMonitorTrip (d : CDie) (s : State) : Host.Outcome State Fault Refusal :=
  let m := s.m.modCorner d fun c => { c with ot := setBit c.ot d.val true, otSeen := setBit c.otSeen d.val true }
  done s (if s.m.hasDie d.val then m.markOffCorner d.val else m)

/-- The over-temperature monitor clears (02 R63). -/
def execOtMonitorClear (d : CDie) (s : State) : Host.Outcome State Fault Refusal :=
  done s (s.m.modCorner d fun c => { c with ot := setBit c.ot d.val false })

/-- 93 °C: Reef stops releasing steps of the partitions with tiles on the die (02 R65). -/
def execThermalHoldStart (d : CDie) (s : State) : Host.Outcome State Fault Refusal :=
  done s (s.m.modCorner d fun c => { c with thermHold := setBit c.thermHold d.val true })

/-- 91 °C: releases resume (02 R65). -/
def execThermalHoldEnd (d : CDie) (s : State) : Host.Outcome State Fault Refusal :=
  done s (s.m.modCorner d fun c => { c with thermHold := setBit c.thermHold d.val false })

/-- 105 °C: the thermal-trip source of the die enters at C4 (02 R65). -/
def execThermalTrip (d : CDie) (s : State) : Host.Outcome State Fault Refusal :=
  done s (if s.m.hasDie d.val then s.m.raise (492 + d.val) d.val else s.m)

end Sys2Proof.Machine
end

