-- ==== Sys2Proof/Machine/FarnisOps.lean ====
section
/-!
DEFINITION. Farnis: its settings, its log, site power, the facility's figures and the tray report (17 R483–R503; 13 R386–R388).
-/
namespace Sys2Proof.Machine

/-! ### Settings (17 Table 17.11) -/

/-- The default of a numbered setting; of 0x0E, CDU_TEMP_REG is in bits [15:0] and CDU_FLOW_REG in [31:16] (log 11). -/
def settingDefault (n : Nat) : Nat := [0, 400, 400, 24000, 1600, 50, 1000, 8, 1, 60, 0, 0x5E, 0xD0, 1, 0x10000, 0].getD n 0

/-- Whether a value lies in a numbered setting's range. -/
def settingOk (n v : Nat) : Bool :=
  let within := fun (lo hi : Nat) => decide (lo ≤ v) && decide (v ≤ hi)
  match n with
  | 0x1 | 0x2 => within 1 1000
  | 0x3 => within 1000 24000
  | 0x4 => within 0 8000
  | 0x5 => within 5 1000
  | 0x6 => within 200 10000
  | 0x7 => within 0 32
  | 0x8 => within 0 1
  | 0x9 => within 1 3600
  | 0xB => within 0 127
  | 0xC => within 0xD0 0xFD
  | 0xD => within 1 247
  | 0xE => true
  | _ => false

/-- A numbered setting's value. -/
def Machine.setting (m : Machine) (n : Nat) : Nat := (tget none m.far.settings n).getD (settingDefault n)

/-- Change Farnis. -/
def Machine.modFar (m : Machine) (f : Farnis → Farnis) : Machine := { m with far := f m.far }

/-! ### The log (17 R503, Table 17.10) -/

/-- How many records the log holds. -/
def farLogSize : Nat := 8192

/-- A log record's 64 bytes. -/
def farRecord (seq : Nat) (t : DWord) (type site : Nat) (data : List Byte) : List Byte :=
  let body := leBytes 4 seq ++ leBytes 8 t.toNat ++ leBytes 1 type ++ leBytes 1 site ++ leBytes 2 0 ++ (data ++ List.replicate 44 0).take 44
  body ++ leBytes 4 (crc32 body).toNat

/-- Write a log record, and send it as an event (17 R503, Table 17.9). -/
def Machine.farLog (m : Machine) (t : DWord) (type site : Nat) (data : List Byte) : Machine :=
  let r := farRecord m.far.seq t type site data
  (m.modFar fun f =>
    { f with seq := (f.seq + 1) % 4294967296
             log := (if f.log.length < farLogSize then f.log else f.log.drop 1) ++ [r] }).emit (.event r)

/-! ### Site power (17 R483–R489) -/

/-- Change a site. -/
def Machine.modSite (m : Machine) (k : Nat) (f : SiteRec → SiteRec) : Machine :=
  m.modFar fun x => { x with sites := tset .reset x.sites k (f (tget .reset x.sites k)) }

/-- Whether a site is this package's. -/
def Machine.ownSite (m : Machine) (k : Nat) : Bool := !m.pins.form && m.pins.site.toNat == k

/-- The package loses its rails: everything but its straps, fuses and flash is lost, the always-on domain too (17 Model). What stands
outside the package stays. DESIGN CHOICE (log 20): all of it is lost at the deassertion of SITE_PG. -/
def Machine.powerLost (m : Machine) : Machine :=
  { m.bare with scan := { m.scan with ir := tclear m.scan.ir (2 * m.pins.site.toNat) 2 } }

/-- Begin a power-off: SITE_PG low, core rails off (17 R487); the site leaves ON, so its digests are cleared (R501). -/
def Machine.beginOff (m : Machine) (k : Nat) (a : PowerAct) : Machine :=
  let m := if m.ownSite k ∧ m.sitePg then m.powerLost else m
  let m := { m with scan := { m.scan with ir := tclear m.scan.ir (2 * k) 2 } }
  (m.modSite k fun r => { r with state := .poweringOff, group := 3, act := some a, faultWait := false, digests := [] }).modFar fun f =>
    { f with order := f.order.filter (· != k) }

/-- Begin a power-on: the site switch closes (17 R485). -/
def Machine.beginOn (m : Machine) (k cause : Nat) : Machine :=
  m.modSite k fun r =>
    { r with state := .poweringOn, group := 1
             act := some { goal := .on, notice := false, cause := 0, onCause := cause, given := false, seen := false } }

/-- An action that ends in a power-off. -/
def offAct (goal : PowerGoal) (notice : Bool) (cause onCause : Nat) : PowerAct :=
  { goal := goal, notice := notice, cause := cause, onCause := onCause, given := false, seen := false }

/-- Whether a site's rails are all or partly on. -/
def SiteState.lit : SiteState → Bool
  | .poweringOn | .on | .notice | .scan => true
  | _ => false

/-- Carry a power-off out from where the site is: with notice from ON, else without; a site without rails goes where the action leads
(17 R486–R489). -/
def Machine.orderOff (m : Machine) (k : Nat) (a : PowerAct) (t : DWord) : Machine :=
  let r := m.siteAt k
  if r.state = .on ∧ a.notice then m.modSite k fun x => { x with act := some a }
  else if r.state.lit then m.beginOff k a
  else match a.goal with
    | .lockout => (m.modSite k fun x => { x with state := if x.state = .off then .off else .lockout, act := none }).farLog t 0x06 k
        (leBytes 1 a.cause)
    | .cycle | .retry => m.modSite k fun x => { x with state := if x.state = .off then .off else .standby, act := some a }
    | _ => (m.modSite k fun x => { x with act := none }).modFar fun f => { f with order := f.order.filter (· != k) }

/-- An action that takes over a running one: a notice keeps what is left of its limit unless no notice is wanted; a power-off without
notice runs on as it is (17 R489). -/
def Machine.takeOver (m : Machine) (k : Nat) (a : PowerAct) (t : DWord) : Machine :=
  let r := m.siteAt k
  match r.state, r.act with
  | .poweringOff, some b => if b.given then m.modSite k fun x => { x with act := some { a with given := true, seen := b.seen } } else m
  | .notice, some b =>
    if a.notice then m.modSite k fun x => { x with act := some { a with given := b.given, seen := b.seen } }
    else m.beginOff k { a with given := b.given, seen := b.seen }
  | _, _ => m.orderOff k a t

/-- A day in ms. -/
def dayMs : Nat := 86400000

/-- An automatic power cycle: counted, and ended at its power-off once AUTO_CYCLE_MAX were counted in 24 hours (17 R488). A cycle that
runs already is joined (R489). -/
def Machine.autoCycle (m : Machine) (k : Nat) (notice : Bool) (cause : Nat) (t : DWord) : Machine :=
  match (m.siteAt k).act with
  | some { goal := .cycle, .. } => m
  | _ =>
    let recent := (m.siteAt k).cycles.filter fun c => decide (t.toNat < c.toNat + dayMs)
    let goal := if m.setting 7 ≤ recent.length then PowerGoal.lockout else .cycle
    (m.modSite k fun r => { r with cycles := recent ++ [t] }).takeOver k (offAct goal notice cause 1) t

/-- A power-off ends: the site switch opens, the record stands, and the action goes where it leads (17 R485, R487, R488). -/
def Machine.endOff (m : Machine) (k : Nat) (t : DWord) : Machine :=
  match (m.siteAt k).act with
  | none => m.modSite k fun r => { r with state := .standby, group := 0 }
  | some a =>
    let m := m.farLog t 0x02 k (leBytes 1 a.cause ++ leBytes 1 (flag a.given) ++ leBytes 1 (flag a.seen))
    let m := m.modSite k fun r => { r with group := 0 }
    match a.goal with
    | .lockout => (m.modSite k fun r => { r with state := .lockout, act := none }).farLog t 0x06 k (leBytes 1 a.cause)
    | .cycle | .retry => m.modSite k fun r => { r with state := .standby }
    | _ => m.modSite k fun r => { r with state := .standby, act := none }

/-! ### Messages (17 Table 17.2) -/

/-- Send a message of Farnis's to the package at a site. -/
def Machine.toSite (m : Machine) (k : Nat) (b : List Byte) : Machine := m.emit (.farnis k b)

/-- A REG_READ of one word. -/
def regReadMsg (off : Nat) : List Byte := mctpMsg 2 1 false false 0 (leBytes 4 off ++ leBytes 1 1)

/-- Read TTL_PIN and TTL_SLOT_PKG of a site (17 R490). -/
def Machine.readFault (m : Machine) (k : Nat) : Machine := (m.toSite k (regReadMsg 0x00300140)).toSite k (regReadMsg 0x00300120)

/-! ### Facility readings and the tray report (17 R494, R495, R498; 13 R386–R388) -/

/-- Whether a STATUS_WORD shows one of the faults OFF, VOUT, IOUT, INPUT, TEMPERATURE, CML; their places are PMBus 1.4's. PRESUMED
(log 21). -/
def shelfFault (w : BitVec 16) : Bool := [6, 15, 14, 13, 2, 1].any fun i => w.getLsbD i

/-- A LINEAR11 value rounded down and clamped to 0–100 (17 R494). -/
def linear11 (w : BitVec 16) : Nat :=
  let man : Int := ((w.setWidth 11).toInt)
  let ex : Int := ((w >>> 11).setWidth 5).toInt
  let v : Int := if 0 ≤ ex then man * 2 ^ ex.toNat else man / 2 ^ (-ex).toNat
  (max 0 (min 100 v)).toNat

/-- SHELF_OK: thousandths of the modules that are good (17 R494). -/
def Machine.shelfOk (m : Machine) : Nat :=
  let n := m.far.shelf.length
  let g := ((List.range n).filter fun i => match m.far.modules[i]? with
    | some r => r.good && decide (r.fails < 10)
    | none => false).length
  1000 * g / max 1 n

/-- BATT_OK: a good STATUS_WORD, and both reads within 100 ms, which is ten polls (17 R494). -/
def Machine.battOk (m : Machine) : Bool :=
  let fresh := fun (a : Option Nat) => match a with
    | some n => decide (n ≤ 10)
    | none => false
  m.far.battGood && fresh m.far.battAge && fresh m.far.socAge

/-- CDU_OK: a successful read within 5 s, which is five polls (17 R495). -/
def Machine.cduOk (m : Machine) : Bool :=
  match m.far.cduAge with
  | some n => decide (n ≤ 5)
  | none => false

/-- The ramp factors u and v in hundredths (13 Table 13.2). -/
def Machine.rampFactors (m : Machine) : Nat × Nat :=
  if !m.battOk then (10, 25)
  else
    let s := m.far.soc
    if 95 ≤ s then (100, 50) else if 60 ≤ s then (100, 100) else if 40 ≤ s then (60, 100) else if 20 ≤ s then (30, 100) else (10, 100)

/-- The lesser of two fractions. -/
def lesser (a b : Nat × Nat) : Nat × Nat := if a.1 * b.2 ≤ b.1 * a.2 then a else b

/-- The coolant factor as a fraction (13 Table 13.3). -/
def Machine.coolFactor (m : Machine) : Nat × Nat :=
  if !m.cduOk then (1, 2)
  else
    let t := m.far.cduTemp
    let f := m.far.cduFlow
    let byTemp : Nat × Nat := if t ≤ 400 then (1, 1) else if t ≤ 450 then ((1000 - 4 * (t - 400)).toNat, 1000) else (1, 2)
    let byFlow : Nat × Nat := if 900 ≤ f then (1, 1) else if 600 ≤ f then (f, 900) else (1, 2)
    lesser byTemp byFlow

/-- P_TRAY (13 R387). -/
def Machine.pTray (m : Machine) : Nat := let c := m.coolFactor; m.setting 3 * m.shelfOk * c.1 / (1000 * c.2)

/-- SHARE (13 R388). -/
def Machine.trayShare (m : Machine) : Nat := max 300 ((m.pTray - m.setting 4) / 16)

/-- COOL_SUPPLY as reported: whole degrees, rounded up, 0–255 (17 R498). -/
def Machine.coolWhole (m : Machine) : Nat := (max 0 (min 255 (-((-m.far.cduTemp) / 10)))).toNat

/-- The body of a tray report (17 Table 17.6). -/
def Machine.reportBody (m : Machine) (seq : Nat) : List Byte :=
  let (u, v) := m.rampFactors
  leBytes 2 seq ++ leBytes 2 (m.setting 1 * u / 100) ++ leBytes 2 (m.setting 2 * v / 100) ++ leBytes 2 m.pTray ++ leBytes 2 m.trayShare ++
  leBytes 2 m.shelfOk ++ leBytes 1 m.far.soc ++ leBytes 1 m.coolWhole ++ leBytes 1 (min 127 (m.far.cduFlow / 10)) ++
  leBytes 1 (flag m.battOk + 2 * flag m.cduOk)

/-- A FACILITY record: the row of Table 17.8 counted from 1, and the readings. DEDUCED (log 22). -/
def Machine.facilityLog (m : Machine) (t : DWord) (row : Nat) : Machine :=
  m.farLog t 0x0A 0xFF (leBytes 1 row ++ leBytes 1 m.far.soc ++ leBytes 2 (BitVec.ofInt 16 m.far.cduTemp).toNat ++ leBytes 2 m.far.cduFlow)

/-! ### Flash updates (17 R502) -/

/-- A copy's bytes with SEQUENCE set and the header's CRC computed again. -/
def sequenced (image : List Byte) (seq : Nat) : List Byte :=
  let h := (image.take 12) ++ leBytes 4 seq ++ ((image.drop 16).take 44)
  h ++ leBytes 4 (crc32 (h ++ leBytes 4 0)).toNat ++ image.drop 64

/-- Write a copy into the flash of this package: erased in 64 KiB blocks, the first 4 KiB last, then read back; the outcome is a status
of Table 17.3 (17 R502). -/
def Machine.updateFlash (m : Machine) (image : List Byte) (copyB devOk : Bool) : Machine × Bool × Nat × Nat :=
  let target := if m.boot.rescue then copyB else !m.boot.copyB
  let seq := (m.boot.imageSeq.toNat + 1) % 4294967296
  let a := copyBase target
  let n := image.length
  if n < 4096 ∨ copyMax < n then (m, target, seq, 3)
  else
    let gate := m.flashGate a copyMax
    if gate ≠ 0 then ((if gate = 4 then m.raise 562 0 else m), target, seq, gate)
    else if !devOk then (m.flashSpoil a n, target, seq, 5)
    else
      let l := sequenced image seq
      let m := m.flashClear a copyMax
      ((m.flashProgram (a + 4096) (l.drop 4096)).flashProgram a (l.take 4096), target, seq, 0)

/-- A flash update of a site, with its FLASH record; what another site's package answers is given, and the SEQUENCE it wrote there is not
stated, so it is a free value (log 7). -/
def Machine.siteUpdate (m : Machine) (k : Nat) (image : List Byte) (copyB devOk : Bool) (t : DWord) : Machine :=
  let st := (m.siteAt k).state
  if st ≠ .on ∧ st ≠ .notice then m
  else
    let (m, target, seq, out) := if m.ownSite k then m.updateFlash image copyB devOk
      else (m, copyB, ((Config.freeOf [8, k]).setWidth 32).toNat, if devOk then 0 else 5)
    m.farLog t 0x09 k (leBytes 1 (flag target) ++ leBytes 4 seq ++ leBytes 1 out)

end Sys2Proof.Machine
end

