-- ==== Sys2Proof/Machine/Farnis.lean ====
section
/-!
DEFINITION. The commands of Farnis: tray start, site power, faults, facility polling, tray reports, management requests, updates and its own
restart (17 R484–R504).
-/
namespace Sys2Proof.Machine

/-! ### Tray start and power-on (17 R484, R485; 00 R18) -/

/-- The identity held by the most sites, ties to the lowest site (17 R484). -/
def refIdent (l : List (Nat × Word)) : Option Word :=
  (l.foldl (fun (a : Option (Word × Nat)) e =>
    let n := (l.filter fun x => x.2 == e.2).length
    match a with
    | none => some (e.2, n)
    | some x => if x.2 < n then some (e.2, n) else a) none).map (·.1)

/-- Queue the power-on of sites in ascending order (17 R484). -/
def Machine.queueOn (m : Machine) (sites : List Nat) (cause : Nat) : Machine :=
  let m := sites.foldl (fun (m : Machine) k => m.modSite k fun r =>
    { r with act := some { goal := .on, notice := false, cause := 0, onCause := cause, given := false, seen := false } }) m
  m.modFar fun f => { f with order := f.order ++ sites }

/-- Farnis starts: it takes its endpoint IDs and gives each package its own (17 R481); AUX on, identities read, sites that do not answer held OFF;
power-on when the identities agree and AUTO_ON is 1. When they do not, the tray is held in standby, and the sites are named in an IDENT_MISMATCH record,
which is a Redfish event too, and through PLDM (17 R484, 00 R18). -/
def Machine.startTray (m : Machine) (ids : List (Nat × Option (Word × DWord))) (hostEid : BitVec 8) (t : DWord) : Machine :=
  let m := (m.modFar fun f => { f with running := true, hostEid := some hostEid, mismatch := false }).farLog t 0x0C 0xFF [0]
  let m := ids.foldl (fun (m : Machine) e =>
    let m := (m.modSite e.1 fun r => { r with eid := some (siteEid e.1) }).toSite e.1 (mctpMsg 1 1 false false 0 [])
    let id := if m.ownSite e.1 then e.2.map fun _ => (m.bootId, m.fuse.uid) else e.2
    match id with
    | some x => m.modSite e.1 fun r => { r with state := .standby, ident := some x, act := none }
    | none => (m.modSite e.1 fun r => { r with state := .off, ident := none, act := none }).emit (.alert e.1 0)) m
  let answered := ((List.range 16).filterMap fun k => ((m.siteAt k).ident).map fun x => (k, x.1))
  match refIdent answered with
  | none => m
  | some ref =>
    let differ := answered.filter fun e => e.2 != ref
    if differ.isEmpty then (if m.setting 8 = 1 then m.queueOn (answered.map (·.1)) 7 else m)
    else ((m.modFar fun f => { f with mismatch := true }).emit (.pldmEvent (differ.map (·.1)))).farLog t 0x07 0xFF (leBytes 4 ref.toNat ++ leBytes 2 (maskOf 16 (differ.map (·.1))).toNat ++
      ((differ.take 9).flatMap fun e => leBytes 4 e.2.toNat))

/-- BUSBAR_RISE. -/
def execBusbarRise (ids : List (SiteId × Option (Word × DWord))) (hostEid : BitVec 8) (t : DWord) (s : State) : Host.Outcome State Fault Refusal :=
  done s (if s.m.far.running then s.m else s.m.startTray (ids.map fun e => (e.1.val, e.2)) hostEid t)

/-- SITE_POWER_ON: the next site in the order closes its switch. -/
def execSitePowerOn (s1 : SiteId) (_t : DWord) (s : State) : Host.Outcome State Fault Refusal :=
  let m := s.m
  let r := m.siteAt s1
  done s (match m.far.order.head?, r.act with
    | some k, some a =>
      if k = s1.val ∧ a.goal = .on ∧ (r.state = .standby ∨ r.state = .lockout) then
        (m.beginOn k a.onCause).modFar fun f => { f with order := f.order.drop 1 }
      else m
    | _, _ => m)

/-- RAIL_GOOD: the next group is enabled; with the core rails good, SITE_PG is asserted and the site is ON. -/
def execRailGood (s1 : SiteId) (t : DWord) (s : State) : Host.Outcome State Fault Refusal :=
  let m := s.m
  let r := m.siteAt s1
  done s (if r.state ≠ .poweringOn then m
    else if r.group < 4 then m.modSite s1 fun r => { r with group := r.group + 1 }
    else (m.modSite s1 fun r => { r with state := .on, group := 0, act := none, retried := false }).farLog t 0x01 s1
      (leBytes 1 ((r.act.map (·.onCause)).getD 0)))

/-- RAIL_FAIL: a power-off without notice, one retry, then LOCKOUT. -/
def execRailFail (s1 : SiteId) (t : DWord) (s : State) : Host.Outcome State Fault Refusal :=
  let m := s.m
  let r := m.siteAt s1
  done s (if r.state ≠ .poweringOn then m
    else (m.farLog t 0x03 s1 (leBytes 1 r.group)).beginOff s1
      (offAct (if r.retried then .lockout else .retry) false 5 ((r.act.map (·.onCause)).getD 0)))

/-! ### Power-off (17 R486–R488) -/

/-- POWER_OFF_NOTICE: NOTICE with its cause goes to the package, and the site enters NOTICE. -/
def execPowerOffNotice (s1 : SiteId) (s : State) : Host.Outcome State Fault Refusal :=
  let m := s.m
  let r := m.siteAt s1
  done s (match r.act with
    | some a =>
      if r.state = .on ∧ a.notice then
        (m.toSite s1 (mctpMsg 4 2 false false 0 (leBytes 1 a.cause))).modSite s1 fun r =>
          { r with state := .notice, act := some { a with given := true }, digests := [] }
      else m
    | none => m)

/-- READY: the package is ready for the power-off, which begins. -/
def execReady (s1 : SiteId) (s : State) : Host.Outcome State Fault Refusal :=
  let m := s.m
  let r := m.siteAt s1
  done s (match r.act with
    | some a =>
      if r.state = .notice ∧ (!m.ownSite s1 ∨ m.reef.readySent) then
        (m.toSite s1 (mctpMsg 4 4 true false 0 [])).beginOff s1 { a with seen := true }
      else m
    | none => m)

/-- NOTICE_LIMIT_EXPIRY: the power-off begins without READY. -/
def execNoticeLimitExpiry (s1 : SiteId) (s : State) : Host.Outcome State Fault Refusal :=
  let m := s.m
  let r := m.siteAt s1
  done s (match r.act with
    | some a => if r.state = .notice then m.beginOff s1 a else m
    | none => m)

/-- POWER_OFF_GROUP_FALL: core, then HBM, then IO; then the site switch opens. -/
def execPowerOffGroupFall (s1 : SiteId) (t : DWord) (s : State) : Host.Outcome State Fault Refusal :=
  let m := s.m
  let r := m.siteAt s1
  done s (if r.state ≠ .poweringOff then m
    else if 1 < r.group then m.modSite s1 fun r => { r with group := r.group - 1 }
    else m.endOff s1 t)

/-- OFF_TIME_EXPIRY: a power cycle, or the retry of a power-on, powers the site on again. -/
def execOffTimeExpiry (s1 : SiteId) (s : State) : Host.Outcome State Fault Refusal :=
  let m := s.m
  let r := m.siteAt s1
  done s (match r.act with
    | some a =>
      if r.state = .standby ∧ a.goal = .cycle then m.beginOn s1 a.onCause
      else if r.state = .standby ∧ a.goal = .retry then (m.beginOn s1 a.onCause).modSite s1 fun r => { r with retried := true }
      else m
    | none => m)

/-! ### Faults (17 R490–R493) -/

/-- Whether a site's FAULT_N can be low: this package's own pin, or any other's. -/
def Machine.mayBeLow (m : Machine) (k : Nat) : Bool := !m.ownSite k || m.ttl.pin.low

/-- FAULT_N_EDGE: latched while the site is ON or NOTICE; Farnis reads Telltale and drives TRAY_FAULT_N low. -/
def execFaultNEdge (s1 : SiteId) (s : State) : Host.Outcome State Fault Refusal :=
  let m := s.m
  let st := (m.siteAt s1).state
  done s (if (st = .on ∨ st = .notice) ∧ m.mayBeLow s1 then
      ((m.modSite s1 fun r => { r with faultWait := true, startRead := false, rereads := 0 }).modFar fun f => { f with trayFault := true }).readFault s1
    else m)

/-- FAULT_READ_REPLY: the FAULT record, and on C4 the action of Table 17.7. -/
def execFaultReadReply (s1 : SiteId) (pin slot low : Word) (t : DWord) (s : State) : Host.Outcome State Fault Refusal :=
  let m := s.m
  let r := m.siteAt s1
  let pin := if m.ownSite s1 then m.regRead 0x7F 0x00300140 else pin
  let slot := if m.ownSite s1 then m.regRead 0x7F 0x00300120 else slot
  done s (if !r.faultWait then m
    else
      let m := m.modSite s1 fun r => { r with faultWait := false }
      if r.startRead ∧ !(bitAt pin 1) then m
      else
        let m := m.farLog t 0x04 s1 (leBytes 4 pin.toNat ++ leBytes 4 slot.toNat ++ leBytes 4 low.toNat)
        if !(bitAt pin 2) then m
        else if 492 ≤ bits slot 5 10 ∧ bits slot 5 10 ≤ 495 then m.takeOver s1 (offAct .lockout false 1 0) t
        else m.autoCycle s1 true 2 t)

/-- FAULT_READ_RETRY: Telltale is read again every 10 ms; after 1 s low without a reply, an automatic power cycle without notice. -/
def execFaultReadRetry (s1 : SiteId) (t : DWord) (s : State) : Host.Outcome State Fault Refusal :=
  let m := s.m
  let r := m.siteAt s1
  done s (if !r.faultWait ∨ !m.mayBeLow s1 then m
    else if 99 ≤ r.rereads then (m.modSite s1 fun r => { r with faultWait := false }).autoCycle s1 false 3 t
    else (m.modSite s1 fun r => { r with rereads := r.rereads + 1 }).readFault s1)

/-- PIN_ALERT: FAULT_N low for PIN_ALERT_S without C4: a Redfish alert and no power action. -/
def execPinAlert (s1 : SiteId) (s : State) : Host.Outcome State Fault Refusal :=
  let m := s.m
  let st := (m.siteAt s1).state
  done s (if (st = .on ∨ st = .notice) ∧ m.mayBeLow s1 ∧ !(m.ownSite s1 ∧ m.ttl.pin.c4) then m.emit (.alert s1 1) else m)

/-- TRAY_FAULT_HOLD_EXPIRY: with no ON site's FAULT_N still low, TRAY_FAULT_N is released. `low` gives the other sites' pins. -/
def execTrayFaultHoldExpiry (low : BitVec 16) (s : State) : Host.Outcome State Fault Refusal :=
  let m := s.m
  let isLow := fun (k : Nat) => if m.ownSite k then m.ttl.pin.low else low.getLsbD k
  done s (if (List.range 16).any fun k => (m.siteAt k).state == SiteState.on && isLow k then m
    else m.modFar fun f => { f with trayFault := false })

/-! ### The facility (17 R494–R498) -/

/-- A module's reading: a failed read counts, a good one shows its faults. -/
def ShelfModule.take (r : ShelfModule) : Option (BitVec 16) → ShelfModule
  | none => { r with fails := r.fails + 1 }
  | some w => { good := !shelfFault w, fails := 0 }

/-- One poll older. -/
def older (a : Option Nat) : Option Nat := a.map (· + 1)

/-- SHELF_POLL. -/
def execShelfPoll (modules : List (Option (BitVec 16))) (batt soc : Option (BitVec 16)) (s : State) : Host.Outcome State Fault Refusal :=
  done s (if !s.m.far.running then s.m
    else s.m.modFar fun f =>
      { f with
        modules := (List.range f.shelf.length).map fun i => (f.modules.getD i { good := false, fails := 0 }).take (modules.getD i none)
        battGood := match batt with
          | some w => !shelfFault w
          | none => f.battGood
        battAge := if batt.isSome then some 0 else older f.battAge
        soc := match soc with
          | some w => linear11 w
          | none => f.soc
        socAge := if soc.isSome then some 0 else older f.socAge })

/-- CDU_POLL. -/
def execCduPoll (r : Option (BitVec 16 × BitVec 16)) (s : State) : Host.Outcome State Fault Refusal :=
  done s (if !s.m.far.running then s.m
    else s.m.modFar fun f => match r with
      | some x => { f with cduTemp := x.1.toInt, cduFlow := x.2.toNat, cduAge := some 0 }
      | none => { f with cduAge := older f.cduAge })

/-- COOLANT_LIMIT: too hot or too slow for 10 s with CDU_OK 1: every ON site is powered off with notice into LOCKOUT; a power-on in
progress becomes a power-off without notice (17 R489, R497). -/
def execCoolantLimit (t : DWord) (s : State) : Host.Outcome State Fault Refusal :=
  let m := s.m
  done s (if m.cduOk ∧ (500 < m.far.cduTemp ∨ m.far.cduFlow < 300) then
      (List.range 16).foldl (fun (m : Machine) k =>
        let st := (m.siteAt k).state
        if st = .on ∨ st = .notice then m.takeOver k (offAct .lockout true 4 0) t
        else if st = .poweringOn then m.takeOver k (offAct .lockout false 4 0) t
        else m) (m.facilityLog t 1)
    else m)

/-- BUSBAR_SAG: every site is powered off without notice into STANDBY (17 R497). -/
def execBusbarSag (t : DWord) (s : State) : Host.Outcome State Fault Refusal :=
  let m := s.m
  let hit := (List.range 16).filter fun k =>
    let r := m.siteAt k
    r.state.lit || (r.state == SiteState.standby && r.act.isSome)
  done s (if !m.far.running then m
    else hit.foldl (fun (m : Machine) k => m.takeOver k (offAct .standby false 6 0) t)
      ((m.facilityLog t 2).modFar fun f => { f with sagged := hit }))

/-- BUSBAR_RETURN: those sites are powered on again when AUTO_ON is 1 (17 R484, R497). -/
def execBusbarReturn (t : DWord) (s : State) : Host.Outcome State Fault Refusal :=
  let m := s.m
  done s (if m.far.sagged.isEmpty ∨ m.setting 8 ≠ 1 ∨ m.far.mismatch then m
    else
      let back := m.far.sagged.filter fun k => (m.siteAt k).state == SiteState.standby && (m.siteAt k).act.isNone
      ((m.facilityLog t 3).modFar fun f => { f with sagged := [] }).queueOn back 7)

/-- CDU_STALE_ALERT: CDU_OK at 0 for 60 s: a Redfish alert (17 R497). -/
def execCduStaleAlert (t : DWord) (s : State) : Host.Outcome State Fault Refusal :=
  let m := s.m
  done s (if m.far.running && !m.cduOk then (m.emit (.alert 0xFF 2)).facilityLog t 4 else m)

/-- TRAY_REPORT_SEND: to every site that is ON or NOTICE (17 R498). -/
def execTrayReportSend (s : State) : Host.Outcome State Fault Refusal :=
  let m := s.m
  done s (if !m.far.running then m
    else
      let seq := (m.far.reportSeq + 1) % 65536
      let body := m.reportBody seq
      let live := (List.range 16).filter fun k => (m.siteAt k).state == SiteState.on || (m.siteAt k).state == SiteState.notice
      live.foldl (fun (m : Machine) k => m.toSite k (mctpMsg 4 1 false true 0 body)) (m.modFar fun f => { f with reportSeq := seq }))

/-! ### What packages send (15 R440; 17 R486, R501) -/

/-- CRASH_SUMMARY: logged and acknowledged; this package's is the summary it holds. -/
def execCrashSummary (s1 : SiteId) (w : List Word) (t : DWord) (s : State) : Host.Outcome State Fault Refusal :=
  let m := s.m
  let st := (m.siteAt s1).state
  let w := if m.ownSite s1 then m.luff.crash.words else (w ++ List.replicate 5 0).take 5
  done s (if st = .on ∨ st = .notice then
      (m.farLog t 0x05 s1 (wordBytes w)).toSite s1 (mctpMsg 4 3 true false 0 [])
    else m)

/-- MEASURE: the site's digests are stored, logged and acknowledged (17 R501). -/
def execMeasure (s1 : SiteId) (digests : List Byte) (tag : Word) (t : DWord) (s : State) : Host.Outcome State Fault Refusal :=
  let m := s.m
  let d := if m.ownSite s1 then m.measureBytes else (digests ++ List.replicate 192 0).take 192
  let tag := if m.ownSite s1 then m.boot.fw.tag else tag
  done s (if (m.siteAt s1).state = .on then
      let m := m.modSite s1 fun r => { r with digests := d }
      (m.farLog t 0x08 s1 (((List.range 4).flatMap fun k => (d.drop (48 * k)).take 8) ++ leBytes 4 tag.toNat)).toSite s1
        (mctpMsg 4 5 true false 0 [])
    else m)

/-- The SHA-384 of Farnis's running firmware: a free value (log 7). -/
def farFirmware : List Nat := (List.range 48).map fun k => ((Config.freeOf [7, k]).setWidth 8).toNat

/-- COMPONENT_INTEGRITY: the stored digests, the nonce and the UID, under a signature whose bytes are a free value (17 R501, log 7). -/
def execComponentIntegrity (s1 : SiteId) (nonce : BitVec 256) (s : State) : Host.Outcome State Fault Refusal :=
  let m := s.m
  let r := m.siteAt s1
  let uid := (r.ident.map fun x => x.2.toNat).getD 0
  let (sig, m') := m.freeBytes 96
  done s (if m.far.running then
      m'.emit (.redfish (.componentIntegrity s1)
        (r.digests.map (·.toNat) ++ farFirmware ++ (leBytes 32 nonce.toNat ++ leBytes 8 uid ++ sig).map (·.toNat)))
    else m)

/-! ### Redfish actions (17 R489, R499) -/

/-- Answer an action. -/
def Machine.reply (m : Machine) (k : Nat) (ok : Bool) : Machine := m.emit (.answer k ok)

/-- RESET_ON: a power-on, which a tray held for an identity mismatch refuses (00 R18); from LOCKOUT it clears the count of automatic cycles; it joins an action that reaches ON. -/
def execResetOn (s1 : SiteId) (_t : DWord) (s : State) : Host.Outcome State Fault Refusal :=
  let m := s.m
  let r := m.siteAt s1
  done s (if m.far.mismatch then m.reply s1 false else match r.act with
    | some a => if a.goal = .on ∨ a.goal = .cycle ∨ a.goal = .retry then m.reply s1 true else m.reply s1 false
    | none =>
      match r.state with
      | .on => m.reply s1 true
      | .standby => (m.queueOn [s1.val] 0).reply s1 true
      | .lockout => ((m.modSite s1 fun r => { r with cycles := [], retried := false }).queueOn [s1.val] 0).reply s1 true
      | _ => m.reply s1 false)

/-- A request for a power-off to STANDBY: joins one that runs, else BUSY, else carried out. -/
def Machine.requestOff (m : Machine) (k : Nat) (notice : Bool) : Machine :=
  match (m.siteAt k).act with
  | some a => m.reply k (a.goal == PowerGoal.standby)
  | none => if (m.siteAt k).state = .off then m.reply k false else (m.orderOff k (offAct .standby notice 0 0) 0).reply k true

/-- A request for a power cycle: joins one that runs, else BUSY, else carried out; from LOCKOUT it is an operator power-on too. -/
def Machine.requestCycle (m : Machine) (k : Nat) (notice : Bool) : Machine :=
  let r := m.siteAt k
  match r.act with
  | some a => m.reply k (a.goal == PowerGoal.cycle)
  | none =>
    if r.state = .off ∨ r.state = .scan ∨ m.far.mismatch then m.reply k false
    else
      let m := if r.state = .lockout then m.modSite k fun r => { r with cycles := [], retried := false } else m
      (m.orderOff k (offAct .cycle notice 0 0) 0).reply k true

/-- RESET_FORCE_OFF. -/
def execResetForceOff (s1 : SiteId) (s : State) : Host.Outcome State Fault Refusal := done s (s.m.requestOff s1 false)

/-- RESET_GRACEFUL_SHUTDOWN. -/
def execResetGracefulShutdown (s1 : SiteId) (s : State) : Host.Outcome State Fault Refusal := done s (s.m.requestOff s1 true)

/-- RESET_POWER_CYCLE. -/
def execResetPowerCycle (s1 : SiteId) (s : State) : Host.Outcome State Fault Refusal := done s (s.m.requestCycle s1 true)

/-- RESET_FORCE_RESTART. -/
def execResetForceRestart (s1 : SiteId) (s : State) : Host.Outcome State Fault Refusal := done s (s.m.requestCycle s1 false)

/-! ### Reads over Redfish and PLDM (17 R499, R500) -/

/-- A site state's place in Table 17.4. -/
def SiteState.code : SiteState → Nat
  | .off => 0 | .standby => 1 | .poweringOn => 2 | .on => 3 | .notice => 4 | .poweringOff => 5 | .lockout => 6 | .scan => 7

/-- What Farnis knows of a processor: BOOT_ID, UID, site state, BOOT_STAGE. -/
def Machine.processorFigures (m : Machine) (k : Nat) (stage : Nat) : List Nat :=
  let r := m.siteAt k
  [(r.ident.map fun x => x.1.toNat).getD 0, (r.ident.map fun x => x.2.toNat).getD 0, r.state.code,
   if m.ownSite k then (if m.boot.on then m.bootStage.toNat else 0) else stage]

/-- A Redfish resource's figures: those the model holds; measured ones are given (17 Table 17.9). -/
def Machine.resourceFigures (m : Machine) (r : Resource) (measured : List Nat) : List Nat :=
  match r with
  | .chassis => [m.pins.slot.toNat, m.pins.rcol.toNat, m.pins.rrow.toNat, m.pins.pod.toNat, m.far.soc, m.shelfOk, (BitVec.ofInt 16 m.far.cduTemp).toNat,
      m.far.cduFlow] ++ measured
  | .sensors => measured
  | .processor s => m.processorFigures s (measured.getD 0 0)
  | .fabric => (m.dbBytes.map (·.toNat)) ++ [flag m.hly.reg.reduced]
  | .componentIntegrity s => (m.siteAt s).digests.map (·.toNat)
  | .manager => ((List.range 15).map m.setting) ++ (m.far.shelf.map (·.toNat)) ++ [m.far.line.1, flag m.far.line.2]
  | .logEntries => m.far.log.flatMap fun b => b.map (·.toNat)
  | .eventService => []
  | .updateService => [flag m.far.fwStaged]

/-- REDFISH_GET. -/
def execRedfishGet (r : Resource) (measured : List Nat) (s : State) : Host.Outcome State Fault Refusal :=
  done s (if s.m.far.running then s.m.emit (.redfish r (s.m.resourceFigures r measured)) else s.m)

/-- PLDM_SENSOR_READ. -/
def execPldmSensorRead (q : PldmQuery) (measured : List Nat) (s : State) : Host.Outcome State Fault Refusal :=
  let m := s.m
  let f := match q with
    | .sensor _ => measured
    | .siteState k => [(m.siteAt k).state.code]
    | .soc => [m.far.soc]
    | .fru => (List.range 16).flatMap fun k => match (m.siteAt k).ident with
      | some x => [k, x.1.toNat, x.2.toNat]
      | none => []
  done s (if m.far.running then m.emit (.pldm q f) else m)

/-! ### Updates, settings, restart, scan (17 R483, R500, R502–R504) -/

/-- PLDM_FIRMWARE_UPDATE: Farnis's own firmware waits for its next restart; a site's goes into the copy not in force. -/
def execPldmFirmwareUpdate (site : Option SiteId) (image : List Byte) (copyB devOk : Bool) (t : DWord) (s : State) :
    Host.Outcome State Fault Refusal :=
  let m := s.m
  done s (if !m.far.running then m
    else match site with
      | none => if devOk then m.modFar fun f => { f with fwStaged := true } else m
      | some k => m.siteUpdate k image copyB devOk t)

/-- FLASH_UPDATE. -/
def execFlashUpdate (s1 : SiteId) (image : List Byte) (copyB devOk : Bool) (t : DWord) (s : State) : Host.Outcome State Fault Refusal :=
  done s (if s.m.far.running then s.m.siteUpdate s1 image copyB devOk t else s.m)

/-- FARNIS_RESTART: outputs hold; a staged firmware takes effect; every ON site's Telltale is read (17 R504). -/
def execFarnisRestart (t : DWord) (s : State) : Host.Outcome State Fault Refusal :=
  let m := s.m
  done s (if !m.far.running then m
    else
      let m := (m.farLog t 0x0C 0xFF [if m.far.fwStaged then 2 else 1]).modFar fun f => { f with fwStaged := false }
      (List.range 16).foldl (fun (m : Machine) k =>
        if (m.siteAt k).state = .on then
          (m.modSite k fun r => { r with faultWait := true, startRead := true, rereads := 0 }).readFault k
        else m) m)

/-- A CONFIG record: the setting's number, its old and its new value; how a list or a line setting is written there is not stated, so it is
a free value (log 7). -/
def Machine.configLog (m : Machine) (t : DWord) (n old new : Nat) : Machine :=
  m.farLog t 0x0B 0xFF (leBytes 2 n ++ leBytes 4 old ++ leBytes 4 new)

/-- A setting's free encoding. -/
def freeSetting (n : Nat) (l : List Nat) : Nat := ((Config.freeOf (9 :: n :: l)).setWidth 32).toNat

/-- FARNIS_SETTING_WRITE: a value outside its range is refused and changes nothing (17 Table 17.11). -/
def execFarnisSettingWrite (w : SettingWrite) (t : DWord) (s : State) : Host.Outcome State Fault Refusal :=
  let m := s.m
  done s (if !m.far.running then m
    else match w with
      | .value n v =>
        if settingOk n v.toNat then
          ((m.configLog t n (m.setting n) v.toNat).modFar fun f => { f with settings := tset none f.settings n (some v.toNat) }).reply 0xFF true
        else m.reply 0xFF false
      | .shelf l =>
        if 1 ≤ l.length ∧ l.length ≤ 8 ∧ l.all (fun a => decide (a.toNat < 128)) then
          ((m.configLog t 0x0A (freeSetting 0x0A (m.far.shelf.map (·.toNat))) (freeSetting 0x0A (l.map (·.toNat)))).modFar fun f =>
            { f with shelf := l, modules := [] }).reply 0xFF true
        else m.reply 0xFF false
      | .line baud twoStop =>
        if [9600, 19200, 38400, 115200].contains baud then
          ((m.configLog t 0x0F (freeSetting 0x0F [m.far.line.1, flag m.far.line.2]) (freeSetting 0x0F [baud, flag twoStop])).modFar fun f =>
            { f with line := (baud, twoStop) }).reply 0xFF true
        else m.reply 0xFF false)

/-- SCAN_ENTER: from STANDBY, all rails on with SITE_TEST high, the boot ROM held at reset (17 R483, R502). -/
def execScanEnter (s1 : SiteId) (s : State) : Host.Outcome State Fault Refusal :=
  let m := s.m
  let r := m.siteAt s1
  done s (if r.state = .standby ∧ r.act.isNone ∧ !m.far.mismatch then (m.modSite s1 fun r => { r with state := .scan }).reply s1 true else m.reply s1 false)

/-- SCAN_EXIT: a power-off. -/
def execScanExit (s1 : SiteId) (s : State) : Host.Outcome State Fault Refusal :=
  let m := s.m
  done s (if (m.siteAt s1).state = .scan then (m.beginOff s1 (offAct .standby false 0 0)).reply s1 true else m.reply s1 false)

end Sys2Proof.Machine
end

