-- ==== Sys2Proof/Machine/Dump.lean ====
section
/-!
DEFINITION. The crash summary and the crash dump of a package reset (15 R442–R445, Tables 15.8, 15.9).
-/
namespace Sys2Proof.Machine

/-- A section's content filled up with zeros to its size. -/
def padTo (n : Nat) (l : List Byte) : List Byte := l.take n ++ List.replicate (n - l.length) 0

/-- The words of a run of registers, as bytes. -/
def Machine.regBytes (m : Machine) (o n : Nat) : List Byte := (List.range n).flatMap fun i => leBytes 4 (m.regRead 0 (o + 4 * i)).toNat

/-- Bytes whose layout the spec does not state: free values (log 7). -/
def unstatedBytes (seed n : Nat) : List Byte := (List.range n).map fun i => Config.freeByte seed i

/-- The command that an engine has in progress, 256 bytes. -/
def Machine.engineCmd (m : Machine) (e : Nat) : List Byte :=
  ((m.ctx.findSome? fun x => x.2.ce.queues.findSome? fun q => match q.2.cur with
    | some k => if k.engine = e then some k.bytes else none
    | none => none).map (padTo 256)).getD (List.replicate 256 0)

/-- The tiles to capture: those named by tile sources in the FIRST round, then those whose counters expired, each ascending; at most 16
(15 R445). -/
def Machine.captureList (m : Machine) : List Nat :=
  let named := (List.range 128).filter fun l => (m.src (srcTileStore l 0)).first || (m.src (srcTileStore l 1)).first
  let expired := (List.range 128).filter fun l => (tget LuffUnit.reset m.luff.units l).expired
  ((named ++ expired).eraseDups).take 16

/-- A captured tile store: lines that fail correction read 0xFF (15 R445). -/
def Machine.capture (m : Machine) (l : Nat) : List Byte :=
  let t := m.tileAt l
  (List.range storeBytes).map fun i => if t.badLines.contains (i / 256) then 0xFF else tget Config.blank t.store i

/-- The sections of a dump in SECTIONS bit order: offset and content (15 Table 15.8). The layouts of the REEF and TILES sections are
not stated. -/
def Machine.dumpSections (m : Machine) : List (Nat × List Byte) :=
  [(0x1000, padTo 0x8000 (m.regBytes 0x300000 20 ++ m.regBytes 0x300080 20 ++ m.regBytes 0x308000 2560 ++ m.regBytes 0x302000 4096)),
   (0x9000, padTo 0x2000 (m.regBytes 0xD01000 444 ++ m.regBytes 0xD00000 6)),
   (0xB000, unstatedBytes m.free 0x8000),
   (0x13000, padTo 0x4000 ((List.range 20).flatMap fun e => padTo 512 (m.regBytes (0x600000 + 16 * e) 1 ++ m.engineCmd e))),
   (0x20000, unstatedBytes (m.free + 1) 0x20000),
   (0x40000, (List.range 4096).flatMap fun n => (m.strmAt n).bytes),
   (0x80000, (List.range 64).flatMap fun c => m.regBytes (0x710000 + 0x1000 * c) 1024)] ++
  if m.luff.dumpTiles then [(0x100000, m.captureList.flatMap m.capture)] else []

/-- The dump's header (15 Table 15.9); `us` is the time that the dump took. -/
def Machine.dumpHeader (m : Machine) (c : Crash) (secs : List (Nat × List Byte)) (us : Nat) : List Byte :=
  let tiles := if m.luff.dumpTiles then m.captureList else []
  let total := match secs.getLast? with
    | some s => s.1 + s.2.length
    | none => 0
  let body :=
    leBytes 4 0x504D5544 ++ leBytes 2 1 ++ leBytes 2 0x80 ++ leBytes 4 c.seq ++ leBytes 1 c.cause ++ leBytes 1 (2 ^ secs.length - 1) ++
    leBytes 2 c.source ++ leBytes 8 c.time.toNat ++ leBytes 8 m.fuse.uid.toNat ++ leBytes 4 m.bootId.toNat ++
    leBytes 4 m.nodeIdWord.toNat ++ leBytes 2 m.hly.reg.epoch.toNat ++ leBytes 1 tiles.length ++ leBytes 1 c.gen ++ leBytes 4 total ++
    leBytes 4 us ++ leBytes 12 0 ++ (tiles.map fun l => BitVec.ofNat 8 l) ++ List.replicate (16 - tiles.length) 0xFF ++
    padTo 32 (secs.flatMap fun s => leBytes 4 (crc32 s.2).toNat) ++ leBytes 12 0
  body ++ leBytes 4 (crc32 (body ++ leBytes 4 0)).toNat

/-- Where the crash-dump region begins (10 Table 10.2). -/
def Machine.dumpBase (m : Machine) : Nat := m.systemPage * pageBytes

/-- Write the crash dump, its header last (15 R443, R444). How long it takes is not stated: a free value. -/
def Machine.writeDump (m : Machine) (c : Crash) : Machine :=
  let secs := m.dumpSections
  let us := (Config.freeBits (m.free + 2)).toNat % 2 ^ 32
  let head := padTo 0x1000 (m.dumpHeader c secs us)
  let m := secs.foldl (fun (m : Machine) s => m.hbmWrite (m.dumpBase + s.1) s.2) m
  let m := m.hbmWrite m.dumpBase head
  { m with free := m.free + 3, luff := { m.luff with dumpValid := true } }

/-- The crash summary and, while LUFF_DUMP.VALID is 0, the dump: written, skipped, or stopped by a failed write (15 R442, R443). `full` is
the machine as the drain ended, before what was left was abandoned. -/
def Machine.crash (m : Machine) (full : Machine) (cause source gen : Nat) (order : DWord) (ok : Bool) : Machine :=
  let ok := ok && decide (0 < m.hbm.s)
  let dump := if m.luff.dumpValid then 2 else if ok then 1 else 3
  let c : Crash := { valid := true, cause := cause, gen := gen, source := source, time := order,
                     seq := satAdd 0xFFFF m.luff.pkgResets 1, dump := dump, durationUs := 0 }
  let m := { m with luff := { m.luff with crash := c } }
  if dump = 2 then { m with luff := { m.luff with dumpSkipped := satAdd 255 m.luff.dumpSkipped 1 } }
  else if dump = 3 then { m with luff := { m.luff with dumpFailed := true } }.raise 551 0
  else
    let w := full.writeDump c
    { m with hbm := { m.hbm with bytes := w.hbm.bytes }, luff := { m.luff with dumpValid := true }, free := w.free }

/-- Re-arm the dump: VALID clears and the TILESTORE section is zeroed (15 R443, R445). -/
def Machine.dumpRearm (m : Machine) : Machine :=
  if m.luff.dumpValid then
    { m.hbmZero (m.dumpBase + 0x100000) (16 * storeBytes) with luff := { m.luff with dumpValid := false } }
  else m

end Sys2Proof.Machine
end

