-- ==== Sys2Proof/Machine/Slices.lean ====
section
/-!
DEFINITION. Epoch switches, slices at their members, contexts, scrubs and meters (04 R129; 06 R195–R208; 13 R377).
-/
namespace Sys2Proof.Machine

/-! ### The epoch switch (04 R129, R130; 05 R152; 10 R306; 13 R377) -/

/-- Take the ramp assignments that an epoch carries: a partition without one has none (13 R377), and a rate raised by
RIG_WRITE takes effect with them, one lowered stays (R392). On a card every bound partition has one of a single group, without spacing (20 R548). -/
def Machine.takeRamps (m : Machine) (pr : Prepare) : Machine :=
  let entry := fun (i : Nat) => pr.ramps.find? fun e => (m.partAt i).state == .bound && (m.partAt i).tag == e.tag
  let m := (List.range 8).foldl (fun m i =>
    { m.modRpart i (fun p => match entry i with
        | some e => { p with assigned := true, group := e.group, groupsM1 := e.groupsM1, windowUs := e.windowUs,
                             spacingNs := e.spacingNs, rate := e.rate, budget := e.budget }
        | none => { p with assigned := m.pins.form && (m.partAt i).state == .bound, group := 0, groupsM1 := 0, windowUs := 0, spacingNs := 0, rate := 0, budget := 0 }) with
      part := { m.part with ramps := tset none m.part.ramps i (entry i) } }) m
  m.modReef fun r => { r with rampUp := min (m.rig 0x0C) (((pr.ramps.head?).map (·.rate)).getD (m.rig 0x0C)) }

/-- Write WINDOW_NS of every stream from the reservations (10 R306). -/
def Machine.takeWindows (m : Machine) : Machine :=
  (tkeys m.strm.entries).foldl (fun m n => m.modStrm n fun r =>
    if r.state = .closed then r else { r with windowNs := m.windowOf n }) m

/-- The committed epoch's bank becomes active, and the old one is held (04 R129, R130). -/
def Machine.switchEpoch (m : Machine) : Machine :=
  match m.hly.commitAt with
  | none => m
  | some (e, _) =>
    if !m.hly.reg.prepared then m
    else
      let m := m.modHly fun h => { h with epoch := e, prepared := false, oldHeld := h.installed, installed := true }
      let m := { m with hly := { m.hly with commitAt := none, lastSwitch := some m.time.now } }
      let m := (m.takeRamps m.activeBank.prep).takeWindows.hlyItem 2
      if m.isMaster then m.masterSwitched.serve else m

/-- The switch at time t. -/
def execEpochSwitch (s : State) : Host.Outcome State Fault Refusal := done s s.m.switchEpoch.bootSettle

/-! ### Slice events and destruction (06 R195, R198) -/

/-- The partition of this package bound to a tag, under the scrub after a package reset too (06 R205). -/
def Machine.partOf (m : Machine) (tag : Nat) : Option Nat := firstBelow 8 fun i => m.boundTo i tag

/-- Report to the master once no context of a destroyed slice is LIVE or ending here (06 R198). -/
def Machine.reportFinal (m : Machine) (tag : Nat) : Machine :=
  match m.partOf tag with
  | none => m
  | some i =>
    let left := (List.range 64).any fun c =>
      let b := (m.ctxAt c).base
      (b.life == .live || b.life == .ending) && b.tag == tag
    if (m.partAt i).state = .draining ∧ !left then m.tell m.hly.reg.master (.contextsFinal tag) else m

/-- The contexts of a tag that are LIVE here. -/
def Machine.liveOf (m : Machine) (tag : Nat) : List CtxId :=
  (List.finRange 64).filter fun (c : CtxId) => (m.ctxAt c.val).base.life == .live && (m.ctxAt c.val).base.tag == tag

/-- Destroy every LIVE context of a slice on this package (06 R198). -/
def Machine.destroyAll (m : Machine) (tag : Nat) : Machine :=
  (m.liveOf tag).foldl (fun (m : Machine) (c : CtxId) => m.startDestroy c) m

/-- SLICE_DESTROYING at a member: the partition drains and its contexts are destroyed; one under the scrub after a package reset drains after it
(06 R198, R205). -/
def Machine.destroyPart (m : Machine) (i tag : Nat) : Machine :=
  if (m.partAt i).state = .scrubbing then m.modPart i fun p => { p with drain := true, live := false }
  else ((m.modPart i fun p => { p with state := .draining, live := false }).destroyAll tag).reportFinal tag

/-- A flooded event reaches this member: it is written to the host's ring and marked in its contexts (06 R195). SLICE_ACTIVE opens the
partition for contexts (R196); SLICE_DESTROYING begins the destruction here (R198); at the loss, the drain or the reset of a member the planned
streams with an operation in progress are reported for abort (07 R234; DEDUCED, log 52). -/
def execSliceEventReceive (e : SliceEvent) (s : State) : Host.Outcome State Fault Refusal :=
  let m := (s.m.writeEvent e).markEvent e.tag e.code.toNat
  done s (match m.partOf e.tag with
    | none => m
    | some i =>
      if e.code = 0x01 then m.modPart i fun p => { p with live := true }
      else if e.code = 0x06 then m.destroyPart i e.tag
      else if e.code = 0x03 ∨ e.code = 0x04 ∨ e.code = 0x05 then
        (m.liveOf e.tag).foldl (fun (m : Machine) (c : CtxId) => m.reportFlows c.val) m
      else m)

/-- Begin the scrub of a partition: its pages become SCRUBBING, but for RETIRED ones (06 R199; 10 R302). -/
def Machine.beginScrub (m : Machine) (i : Nat) : Machine :=
  let first := m.partPage i
  let l := (List.range (m.partPage (i + 1) - first)).map fun k =>
    let r := m.pageAt (first + k)
    if r.use = .retired then r else { use := .scrubbing, ctx := r.ctx }
  { m with hbm := { m.hbm with pages := tfill .reset m.hbm.pages first l } }.modPart i fun p => { p with state := .scrubbing, scrubMib := 0 }

/-- The master's order to begin the scrub reaches a member whose contexts are FINAL (06 R198). -/
def Machine.releaseHere (m : Machine) (tag : Nat) : Machine :=
  match m.partOf tag with
  | some i => if (m.partAt i).state = .draining then m.beginScrub i else m
  | none => m

/-- A member reports its contexts FINAL: once every reachable member has, the master goes on to RELEASING. One that comes back when that is past is
told alone to begin its scrub (06 R198). From the master it is that order itself. -/
def Machine.contextsFinal (m : Machine) (tag : Nat) (node : NodeId) : Machine :=
  let r := m.sliceAt tag
  if m.isMaster then
    if r.state = .destroying then
      (m.setSlice tag { r with finals := if r.finals.contains node then r.finals else r.finals ++ [node] }).tryRelease tag
    else if r.state = .releasing ∨ r.state = .retired then
      if node = m.node then m.releaseHere tag else m.tell node (.releaseBegin tag)
    else m
  else if node = m.hly.reg.master then m.releaseHere tag
  else m

/-- SLICE_CONTEXTS_FINAL. -/
def execSliceContextsFinal (tag : TagId) (node : NodeId) (s : State) : Host.Outcome State Fault Refusal :=
  done s (s.m.contextsFinal tag.val node).serve

/-- A member reports its scrub complete, or that it failed: the master finds its partition FREE, or excluded until it is retrained, and retires the
slice once all have reported and the release epoch has switched (06 R198, R208). -/
def Machine.scrubReported (m : Machine) (tag : Nat) (node : NodeId) (failed : Bool) : Machine :=
  if m.isMaster && m.stillBound tag node then
    let r := m.sliceAt tag
    let m := if r.state = .releasing then
        m.setSlice tag { r with scrubs := if r.scrubs.contains node then r.scrubs else r.scrubs ++ [node] }
      else m
    let m := if failed then m else m.modParts node fun p => freedPart p r.index
    m.replicate.tryRetire tag
  else m

/-- SLICE_SCRUB_REPORT. -/
def execSliceScrubReport (tag : TagId) (node : NodeId) (failed : Bool) (s : State) : Host.Outcome State Fault Refusal :=
  done s (s.m.scrubReported tag.val node failed).serve

/-! ### Contexts (06 R196, R197) -/

/-- Answer a context operation (06 R196). -/
def Machine.ctxDone (m : Machine) (status c : Nat) : Machine :=
  ({ m with ctxCmd := { m.ctxCmd with status := status, statCtx := c, done := true, busy := false, started := false } }).interrupt 0 3

/-- Change the context operation registers. -/
def Machine.modCtxCmd (m : Machine) (f : CtxCmd → CtxCmd) : Machine := { m with ctxCmd := f m.ctxCmd }

/-- A context operation of an opcode is in progress. -/
def Machine.ctxPending (m : Machine) (op : Nat) : Bool := m.ctxCmd.busy && m.ctxCmd.op == op

/-- The context IDs of partition i (06 R180). -/
def Machine.ctxRange (m : Machine) (i : Nat) : List Nat := (List.range 64).filter fun c => m.ctxPart c == i

/-- CREATE: the lowest free ID of the partition's range becomes LIVE, its page cleared, bound to its function; NOT_BOUND until the partition's slice is
ACTIVE (06 R196; 14 R410). -/
def Machine.createContext (m : Machine) (i f : Nat) : Machine :=
  let p := m.partAt i
  let ids := m.ctxRange i
  let used := ids.filter fun c => (m.ctxAt c).base.life == .live || (m.ctxAt c).base.life == .ending
  if m.parts ≤ i ∨ 64 < f then m.ctxDone 0x03 0
  else if p.state ≠ .bound ∨ !p.live then m.ctxDone 0x04 0
  else match ids.find? fun c => (m.ctxAt c).base.life == .free with
    | none => m.ctxDone 0x05 0
    | some c =>
      if p.ctxMax ≤ used.length then m.ctxDone 0x05 0
      else if f ≠ 0 ∧ (tkeys m.ctx).any (fun x => (m.ctxAt x).base.func == some f) then m.ctxDone 0x06 0
      else
        let m := m.setCtx c { CtxRec.reset with
          base := { CtxBase.reset with life := .live, part := i, tag := p.tag, tenant := p.tenant, func := some f } }
        (m.clearSlot c).ctxDone 0 c

/-- CREATE. -/
def execCtxCreate (s : State) : Host.Outcome State Fault Refusal :=
  done s (if s.m.ctxPending 1 then s.m.createContext s.m.ctxCmd.part s.m.ctxCmd.func else s.m)

/-- DESTROY: the fence of a LIVE context begins (06 R197), once 10 µs have passed since its previous one (15 R432); one that is not LIVE, or ending already, answers NOT_LIVE. -/
def Machine.destroyContext (m : Machine) (c : Nat) : Machine :=
  if h : c < 64 then
    if m.ctxCmd.started then m
    else if (m.ctxAt c).base.life = .live then
      if !(m.fenced c) && !(m.fenceDue (.context ⟨c, h⟩)) then m else
      (m.startDestroy ⟨c, h⟩).modCtxCmd fun x => { x with started := true }
    else m.ctxDone 0x08 c
  else m

/-- DESTROY. -/
def execCtxDestroy (s : State) : Host.Outcome State Fault Refusal :=
  done s (if s.m.ctxPending 2 then s.m.destroyContext s.m.ctxCmd.ctx else s.m)

/-- The fence of a destroyed context has drained: it is removed from every unit, its function is unbound, and the scrub of its pages begins
(06 R197). -/
def Machine.beginContextScrub (m : Machine) (c : Nat) : Machine :=
  let m := (m.removeContext c).modBase c fun b => { b with func := none }
  (m.ctxPages c).foldl (fun m p => m.setPage p { use := .scrubbing, ctx := c }) m

/-- The pages that a context held, RETIRED ones too (06 R197); those of a RETURN in progress are scrubbed by it (10 R302). -/
def Machine.heldPages (m : Machine) (c : Nat) : List Nat :=
  let p := m.part.page
  (m.hbm.pages.filter fun e => e.2.ctx == c && e.2.use != .free && !(p.busy && p.op == 2 && p.begun && p.range.contains e.1)).map (·.1)

/-- The scrub of an ended context completes: its pages and the stores of every tile that an image of it held are zero, but for tiles that another image
holds by now, and it is FINAL with its meters (06 R197). -/
def Machine.endDestroy (m : Machine) (c : CtxId) : Machine :=
  let tiles := (m.ctxAt c.val).base.heldTiles.filter fun l => (m.holder l).isNone
  let m := tiles.foldl (fun m l => m.modTile l TileRec.zeroed) m
  let m := m.freePages (m.heldPages c.val)
  let m := m.modBase c.val fun b => { b with life := .final, heldTiles := [] }
  let m := m.dropFence (.context c)
  let m := if m.ctxPending 2 && m.ctxCmd.started && m.ctxCmd.ctx == c.val then m.ctxDone 0 c.val else m
  m.reportFinal (m.ctxAt c.val).base.tag

/-- CONTEXT_SCRUB_COMPLETE. -/
def execContextScrubComplete (c : CtxId) (s : State) : Host.Outcome State Fault Refusal :=
  let m := s.m
  let ready := m.luff.fences.any fun f => f.destroy && f.drained && f.dom == .context c
  done s (if (m.ctxAt c.val).base.life = .ending ∧ ready then m.endDestroy c else m)

/-- FREE: a FINAL context's ID is free again and its meters clear; CTX_EVENT and the registers that CREATE clears stay
(06 R196, Table 6.17). -/
def execCtxFree (s : State) : Host.Outcome State Fault Refusal :=
  let m := s.m
  let c := m.ctxCmd.ctx
  done s (if m.ctxPending 3 then
      if (m.ctxAt c).base.life = .final then (m.modBase c fun b => { CtxBase.reset with event := b.event }).ctxDone 0 c
      else m.ctxDone 0x07 c
    else m)

/-! ### Partition scrubs (06 R199, R205, R208) -/

/-- What a partition scrub writes: zero to its HBM share and its tiles' stores; its streams and transaction tags clear. -/
def Machine.scrubPart (m : Machine) (i : Nat) : Machine :=
  let first := m.partPage i
  let n := m.partPage (i + 1) - first
  let m := m.hbmZero (first * pageBytes) (n * pageBytes)
  let m := { m with hbm := { m.hbm with pages := m.hbm.pages.filter fun (e : Nat × PageRec) => !(m.pageIn i e.1) || e.2.use == PageUse.retired } }
  let m : Machine := (m.partTiles i).foldl (fun (m : Machine) l => m.modTile l TileRec.zeroed) m
  let m := { m with strm := { m.strm with entries := m.strm.entries.filter fun e => !(m.streamIn i e.1) } }
  { m with txn := m.txn.filter fun e => match e.2 with
      | some t => m.ctxPart t.ctx != i
      | none => false }

/-- A partition scrub finishes: the partition is FREE, or BOUND or DRAINING again after a package reset (06 R199, R205). -/
def Machine.endScrub (m : Machine) (i : Nat) : Machine :=
  let p := m.partAt i
  let m := m.scrubPart i
  let mib := m.partPagesPerStack * m.hbm.s * 2
  if p.keep then
    (m.setPart i { p with state := if p.drain then .draining else .bound, keep := false, drain := false, scrubMib := mib }).reportFinal p.tag
  else
    let m := m.setPart i { PartRec.reset with scrubMib := mib }
    (m.localEvent 0x07 0 p.tag p.tenant).tell m.hly.reg.master (.scrubDone p.tag)

/-- PARTITION_SCRUB_COMPLETE. -/
def execPartitionScrubComplete (i : PartId) (s : State) : Host.Outcome State Fault Refusal :=
  done s (if (s.m.partAt i.val).state = .scrubbing then s.m.endScrub i.val else s.m)

/-- A scrub write meets an uncorrectable error: the partition is QUARANTINED until the next package reset, and the master learns that it will not
be FREE (06 R208). -/
def execScrubQuarantine (i : PartId) (stack : Fin 8) (s : State) : Host.Outcome State Fault Refusal :=
  let m := s.m
  let p := m.partAt i.val
  done s (if p.state = .scrubbing then
      (((m.setPart i.val { p with state := .quarantined, keep := false, drain := false }).raise 509 i.val).localEvent 0x08 (detailByte stack.val 0)
        p.tag p.tenant).tell m.hly.reg.master (.scrubFailed p.tag)
    else m)

/-! ### Meters (06 R201–R203) -/

/-- A minute of the timebase: every LIVE context's meters are latched (06 R203). -/
def execMinuteLatch (s : State) : Host.Outcome State Fault Refusal :=
  done s ((tkeys s.m.ctx).foldl (fun m c => m.modBase c fun b =>
    if b.life = .live then { b with minute := b.meters, minTime := m.time.now, minSeq := (b.minSeq + 1) % 2 ^ 32 } else b) s.m)

/-- Latch a snapshot of a context's meters (06 R203). -/
def Machine.snapContext (m : Machine) (c : Nat) : Machine :=
  m.modBase c fun b => if b.life = .free then b else { b with snap := b.meters, snapTime := m.time.now }

/-- CTX_SNAP. -/
def execCtxSnap (c : CtxId) (s : State) : Host.Outcome State Fault Refusal := done s (s.m.snapContext c.val)

/-- Divide an energy among contexts in proportion to their weights, and what is left over. -/
def divideEnergy (uj : Nat) (ws : List (Nat × Nat)) : List (Nat × Nat) × Nat :=
  let sum := ws.foldl (fun a e => a + e.2) 0
  let l := if sum = 0 then [] else ws.map fun e => (e.1, uj * e.2 / sum)
  (l, uj - l.foldl (fun a e => a + e.2) 0)

/-- Whether a context's ENERGY still grows: not once it is FINAL (06 R197, R204). -/
def Machine.metered (m : Machine) (c : Nat) : Bool := (m.ctxAt c).base.life == .live || (m.ctxAt c).base.life == .ending

/-- Energy that no context used (06 R202). -/
def Machine.unattributed (m : Machine) (uj : Nat) : Machine := { m with part := { m.part with energyUnattr := satAdd64 m.part.energyUnattr uj } }

/-- Charge an energy to contexts by weight, and the rest to no one (06 R202). What falls to a context that is FINAL by now, whose meters are latched,
goes to no one too (DEDUCED, log 53). -/
def Machine.chargeEnergy (m : Machine) (uj : Nat) (ws : List (Nat × Nat)) : Machine :=
  let l := (divideEnergy uj ws).1.filter fun e => m.metered e.1
  let m := l.foldl (fun m e => m.meter e.1 fun x => { x with energy := satAdd64 x.energy e.2 }) m
  m.unattributed (uj - l.foldl (fun a e => a + e.2) 0)

/-- Charge the tiles at work up to now (06 R201, R202). -/
def Machine.meterRunning (m : Machine) : Machine :=
  let m := (tkeys m.ctx).foldl (fun (m : Machine) c => match (m.xc c).run with
    | some r => if r.released then
        (m.atWork c).foldl (fun (m : Machine) l => m.meterTile c l (m.ns - max r.releaseAt.toNat m.part.meterMark.toNat)) m
      else m
    | none => m) m
  { m with part := { m.part with meterMark := m.time.now } }

/-- Charge the ballast that a context's step ends caused (06 R202). -/
def Machine.settleBallast (m : Machine) (c : Nat) : Machine :=
  let uj := (m.ctxAt c).base.ballastUj
  let m := if m.metered c then m.meter c fun x => { x with energy := satAdd64 x.energy uj } else m.unattributed uj
  m.modBase c fun b => { b with dieTile := [], hbmMark := b.meters.hbm, ballastUj := 0 }

/-- Each 1 ms the measured energies are divided: a die's by TILE on it, HBM's by HBM bytes, Reef's ballast to the contexts
whose step ends caused it, the rest to no one (06 R202). `dieUj` leaves Reef's ballast out. -/
def execEnergyAttribute (dieUj : List Nat) (hbmUj otherUj : Nat) (s : State) : Host.Outcome State Fault Refusal :=
  let m := s.m.meterRunning
  let cs := (tkeys m.ctx).filter fun c => (m.ctxAt c).base.life != .free
  let m := dieUj.zipIdx.foldl (fun m e => m.chargeEnergy e.1 (cs.map fun c => (c, tget 0 (m.ctxAt c).base.dieTile e.2))) m
  let m := m.chargeEnergy hbmUj (cs.map fun c => (c, (m.ctxAt c).base.meters.hbm - (m.ctxAt c).base.hbmMark))
  done s (cs.foldl (fun m c => m.settleBallast c) (m.unattributed otherUj))

end Sys2Proof.Machine
end

