-- ==== Sys2Proof/Machine/Resets.lean ====
section
/-!
DEFINITION. Hangs, engine resets, and the resets of a context, a partition and the package (15 R419–R449).
-/
namespace Sys2Proof.Machine

/-! ### Luff counters (15 R419–R422) -/

/-- A counter expires: EXPIRED, and one more in EXPIRE_CNT (15 R420). -/
def Machine.expire (m : Machine) (n : Nat) : Machine :=
  let u := tget LuffUnit.reset m.luff.units n
  m.modLuff fun l => { l with units := tset .reset l.units n { u with expired := true, expireCnt := satAdd 255 u.expireCnt 1 } }

/-- Whether a counter can expire: its unit has work pending. -/
def Machine.canExpire (m : Machine) (n : Nat) : Bool := m.unitPending n

/-- A tile counter expires (15 R446): LUFF_TILE against the context, the tile lost, and retired on its second expiry in 24 hours. -/
def execLuffTileExpiry (l : TileId) (s : State) : Host.Outcome State Fault Refusal :=
  let m := s.m
  let again := match (m.tileAt l.val).lastExpiry with
    | some t => decide (m.ns < t.toNat + 86400000000000)
    | none => false
  done s (if m.canExpire l.val then
      ((((m.expire l.val).raiseTile 536 l.val).loseTile l.val again).modTile l.val fun t => { t with lastExpiry := some m.time.now })
    else m)

/-- A reset tile ends its self-test (15 R434): it returns to service unless R446 retires it, or fails and is to be retired. -/
def execTileSelfTestDone (l : TileId) (pass : Bool) (s : State) : Host.Outcome State Fault Refusal :=
  let m := s.m
  done s (if (m.tileAt l.val).resetAt.isSome then
      let z := m.modTile l.val fun t =>
        { t.zeroed with resetAt := none, phase := .idle, loops := [], portClosed := t.toRetire || !pass, toRetire := t.toRetire || !pass }
      if pass then z else z.raise 549 l.val
    else m)

/-- The queue whose started command an engine serves. -/
def Machine.engineWork (m : Machine) (e : Nat) : Option (Nat × Nat) :=
  m.ctx.findSome? fun x => x.2.ce.queues.findSome? fun q => match q.2.cur with
    | some k => if k.started ∧ k.engine = e then some (x.1, q.1) else none
    | none => none

/-- A copy-engine counter expires (15 R435): the command completes with ENGINE, its queue halts and the engine is reset. The reset's end:
the engine serves again, or is marked FAILED. -/
def execLuffCeExpiry (e : Fin 20) (reset : Option Bool) (s : State) : Host.Outcome State Fault Refusal :=
  let m := s.m
  done s (match reset, m.engineWork e.val with
    | none, some (c, q) =>
      let m := (m.expire (128 + e.val)).raiseCtx 537 e.val c
      let m := match (m.queue c q).cur with
        | some k => if m.fenced c then m.modQueue c q fun r => { r with cur := none } else m.ceFinish c q { k with status := 0x0B }
        | none => m
      m.modEngine e.val fun r => { r with inReset := true }
    | none, none => m
    | some ok, _ =>
      if !(m.engine e.val).inReset then m
      else if ok then m.modEngine e.val fun r => { r with inReset := false }
      else m.failEngine e.val)

/-- A link counter expires: hard loss with reason 0x0C (15 Table 15.4, 03 R95). -/
def execLuffLinkExpiry (p : Port) (s : State) : Host.Outcome State Fault Refusal :=
  let m := s.m
  done s (if m.canExpire (148 + p.val) then ((m.expire (148 + p.val)).raise 538 p.val).hardLoss p.val 0x0C else m)

/-- A collective counter expires: its stream is reported to the master for abort, and the unit is reset once every slot of it has ended
(15 Table 15.4, 07 R234). -/
def execLuffCollExpiry (k : Fin 256) (s : State) : Host.Outcome State Fault Refusal :=
  let m := s.m
  done s (match m.collAt k.val with
    | some r =>
      if r.busy then
        let m := (m.expire (172 + k.val)).raiseCtx 539 k.val r.ctx
        let i := m.ctxPart r.ctx
        let m := m.modLuff fun l => { l with collResets := if l.collResets.contains i then l.collResets else l.collResets ++ [i] }
        m.reportFlow ((m.ctxAt r.ctx).base.tag) r.stream (m.flowGen r.stream)
      else m
    | none => m)

/-- The collective slots of a partition: its unit. -/
def Machine.unitSlots (m : Machine) (i : Nat) : List Nat :=
  (List.range (m.shareStart 256 (i + 1) - m.shareStart 256 i)).map (· + m.shareStart 256 i)

/-- A failed collective unit: its slots stay out of use (15 R436). -/
def Machine.failUnit (m : Machine) (i : Nat) : Machine :=
  { m with collFailed := (m.collFailed ++ m.unitSlots i).eraseDups
           luff := { m.luff with collResets := m.luff.collResets.filter (· != i) } }

/-- Once every slot of a unit has ended, its reset ends, well or not (15 R436). -/
def execCollUnitReset (i : PartId) (ok : Bool) (s : State) : Host.Outcome State Fault Refusal :=
  let m := s.m
  let busy := (m.unitSlots i.val).any fun k => (m.collAt k).any (·.busy)
  done s (if m.luff.collResets.contains i.val && !busy then
      if ok then m.modLuff fun l => { l with collResets := l.collResets.filter (· != i.val) } else m.failUnit i.val
    else m)

/-- A Halyard task counter expires: LUFF_HLY, and Halyard restarts (15 R439). -/
def execLuffHlyExpiry (t : Fin 6) (s : State) : Host.Outcome State Fault Refusal :=
  done s (((s.m.expire (428 + t.val)).raise 540 t.val).restartHalyard)

/-- Whether an IN stream gates a queued step and holds some but not all of its tokens (15 R422). -/
def Machine.stalled (m : Machine) (n : Nat) : Bool :=
  let r := m.strmAt n
  r.state == .bound && r.kind == kindIn && decide (1 ≤ r.landed) && match (m.xc r.ctx).image with
    | some b => (m.xc r.ctx).queue.any fun q => match b.img.steps[q.step]? with
        | some p => p.counts.any fun e => e.1 == r.channel && decide (r.landed < e.2)
        | none => false
    | none => false

/-- A stalled IN stream is raised and reported to the master (15 R422). -/
def execInStreamStall (n : StreamId) (s : State) : Host.Outcome State Fault Refusal :=
  let m := s.m
  let r := m.strmAt n.val
  done s (if m.stalled n.val then
      ((m.raiseCtx 539 0xFF r.ctx).modLuff fun l => { l with lastStream := n.val }).reportFlow ((m.ctxAt r.ctx).base.tag) n.val (m.flowGen n.val)
    else m)

/-! ### Resets ordered (15 R425, R433, R437, R438) -/

/-- The reset that LUFF_RST_CTRL asks for has begun, alone or within another. -/
def Machine.rstBegin (m : Machine) : Machine := m.modLuff fun l => { l with rstStarted := true }

/-- LUFF_RST_CTRL waits to begin a reset of a kind. -/
def Luff.rstWaits (l : Luff) (op : Nat) : Bool := l.rstBusy && !l.rstStarted && l.rstOp == op

/-- A context's reset begins: one that a function reset ordered, or the one that LUFF_RST_CTRL asks for (15 R425, R433). A context that is
being removed or reset joins. -/
def Machine.beginContextReset (m : Machine) (c : CtxId) : Machine :=
  let d := Domain.context c
  let life := (m.ctxAt c.val).base.life
  match m.luff.ctxOrders.find? fun o => o.1 == c.val with
  | some o =>
    if m.covered d || life != .live then m.modLuff fun l => { l with ctxOrders := l.ctxOrders.filter fun x => x.1 != c.val }
    else if m.fenceDue d then
      (m.modLuff fun l => { l with ctxOrders := l.ctxOrders.filter fun x => x.1 != c.val }).startFence d o.2 0x3FF
    else m
  | none =>
    if m.luff.rstWaits 1 && m.luff.rstCtx == c.val then
      if life = .free ∨ life = .final then m.rstDone 0x04
      else if m.covered d then m.rstBegin
      else if m.fenceDue d then (m.startFence d 3 0x3FF).rstBegin
      else m
    else m

/-- CONTEXT_RESET. -/
def execContextReset (c : CtxId) (s : State) : Host.Outcome State Fault Refusal := done s (s.m.beginContextReset c)

/-- A partition's reset begins: ordered by Telltale or by the ladder, or asked for through LUFF_RST_CTRL (15 R437). -/
def Machine.beginPartitionReset (m : Machine) (i : PartId) : Machine :=
  let d := Domain.partition i
  let st := (m.partAt i.val).state
  let clear := fun (m : Machine) => (m.modTtl fun t => { t with partOrders := t.partOrders.filter (· != i.val) }).modLuff fun l =>
    { l with ladderParts := l.ladderParts.filter (· != i.val) }
  if m.ttl.partOrders.contains i.val || m.luff.ladderParts.contains i.val then
    if m.covered d then clear m
    else if m.fenceDue d then (clear m).startFence d 5 0x3FF
    else m
  else if m.luff.rstWaits 2 && m.luff.rstPart == i.val then
    if m.parts ≤ i.val then m.rstDone 0x03
    else if st ≠ .bound ∧ st ≠ .draining then m.rstDone 0x05
    else if m.covered d then m.rstBegin
    else if m.fenceDue d then (m.startFence d 5 0x3FF).rstBegin
    else m
  else m

/-- PARTITION_RESET. -/
def execPartitionReset (i : PartId) (s : State) : Host.Outcome State Fault Refusal := done s (s.m.beginPartitionReset i)

/-- The order for a package reset that stands: its cause in Table 15.9 and its source. -/
def Machine.pkgOrder (m : Machine) : Option (Nat × Nat) :=
  match m.ttl.pkgOrder with
  | some src => some (1, src)
  | none => if m.luff.rstWaits 3 then some (if m.luff.rstFarnis then 3 else 2, 0x3FF) else if m.luff.ladderPkg then some (4, 0x3FF) else none

/-- The registers of a context page that a package reset clears as its fence starts (18 R521, Table 18.2): the execution and stream ones. -/
def CtxRec.pkgCleared (r : CtxRec) : CtxRec :=
  { r with xc := { Xc.reset with image := r.xc.image }, st := .reset }

/-- The registers that a package reset clears as its fence starts (18 R521, Tables 18.14–18.21). -/
def Machine.pkgClear (m : Machine) : Machine :=
  let m := { m with ctx := m.ctx.map fun (e : Nat × CtxRec) => (e.1, e.2.pkgCleared) }
  { m with
    part := { m.part with evq := { base := 0, size := 0, head := 0, tail := 0, ovf := false } }
    corner := .reset
    shr := { m.shr with stayOk := 0, spareUsed := 0, stayMap := [], stayReplays := [] }
    hbm := { m.hbm with shown := false }
    reef := { m.reef with dies := (tkeys m.reef.dies).foldl (fun (t : Table ReefDie) (d : Nat) => tset ReefDie.reset t d { tget ReefDie.reset t d with vtarget := none }) m.reef.dies }
    eng := (tkeys m.eng).foldl (fun (t : Table CeEng) (e : Nat) => tset CeEng.reset t e { tget CeEng.reset t e with failed := false, inReset := false }) m.eng }

/-- A package reset begins (15 R438 step 1): every context is fenced, Telltale masks the package domain, Reef holds each die's measured
power as ballast (13 R384). -/
def Machine.startPackageReset (m : Machine) (cause source : Nat) : Machine :=
  let m := (m.startFence .package cause source).ttlResetStart
  m.dieBallast.pkgClear

/-- A package reset ordered before step 9 has completed waits; during another it joins (15 R425, 16 R451). -/
def Machine.beginPackageReset (m : Machine) : Machine :=
  match m.pkgOrder with
  | none => m
  | some (cause, source) =>
    if !(m.stepPast 9) then m
    else if m.pkgFenced then (if m.luff.rstWaits 3 then m.rstBegin else m)
    else if m.fenceDue .package then
      let m := m.startPackageReset cause source
      if m.luff.rstWaits 3 then m.rstBegin else m
    else m

/-- PACKAGE_RESET. -/
def execPackageReset (s : State) : Host.Outcome State Fault Refusal := done s s.m.beginPackageReset

/-! ### The drain's end (15 R427, R433, R437, R438) -/

/-- A reset run begins (16 R451, R462): its R steps are yet to run, steps 20 and 23 end with a NOTE, the partitions are scrubbed when
step 20 is cut short, and the yield map shows the partitions not
ready (R469). -/
def Machine.startResetRun (m : Machine) : Machine :=
  let m := if m.bootSt 20 = .running then (List.range m.parts).foldl (fun (m : Machine) i => m.beginScrub i) m else m
  let m := [20, 23].foldl (fun (m : Machine) k => if m.bootSt k = .running then (m.note k 0x10 k 0).setStep k .ended else m) m
  let m := m.modBoot fun b =>
    { b with
      startRun := if b.resetRun then b.startRun else b.run
      run := b.run + 1, resetRun := true, locked := false, ready := false, partsReady := false
      steps := b.steps.filter fun e => !(stepInReset e.1) }
  (m.journal 0x01 0 0 1 (m.ns / 1000000)).floodOwn

/-- The units of the package domain are reset: tiles, engines' work and collective units; HBM enters self-refresh (15 R438 step 4). -/
def Machine.resetUnits (m : Machine) : Machine :=
  { m with
    tiles := (tkeys m.tiles).foldl (fun t l =>
      let r := tget TileRec.reset t l
      tset .reset t l { TileRec.reset with toRetire := r.toRetire, lastExpiry := r.lastExpiry }) m.tiles
    coll := [], collFailed := []
    luff := { m.luff with collResets := [] }
    hbm := { m.hbm with refresh := true } }

/-- A tile of a cluster that a partition reset resets (15 R434, R437). -/
def Machine.resetTile (m : Machine) (l : Nat) : Machine :=
  m.modTile l fun t => { t with portClosed := true, resetAt := some m.time.now, phase := .idle, loops := [], lines := [], tokens := [] }

/-- A fence's drain ends: what is left is cut off, and the reset goes on (15 R427). -/
def Machine.endDrain (m : Machine) (f : Fence) (dumpOk : Bool) : Machine :=
  let full := m
  let m := m.drainEnd f.ctxs f.start
  let m := m.modLuff fun l => { l with fences := l.fences.map fun g => if g = f then { g with drained := true } else g }
  match f.dom with
  | .context c => if f.destroy then m.beginContextScrub c.val else m
  | .partition i => (m.partTiles i.val).foldl (fun m l => m.resetTile l) m
  | .package =>
    let m := m.crash full f.cause f.source ((m.luff.pkgGen + 255) % 256) f.start dumpOk
    m.resetUnits.startResetRun

/-- FENCE_DRAIN_END. -/
def execFenceDrainEnd (d : Domain) (dumpOk : Bool) (s : State) : Host.Outcome State Fault Refusal :=
  done s (match s.m.luff.fences.find? fun f => f.dom == d && !f.drained with
    | some f => s.m.endDrain f dumpOk
    | none => s.m)

/-! ### The ends of resets -/

/-- A context's reset ends (15 R433), or a partition's once its tiles are tested (15 R437). -/
def Machine.endReset (m : Machine) (d : Domain) (f : Fence) : Machine :=
  match d with
  | .context c => (m.endContextReset c.val f.cause).dropFence d
  | .partition i =>
    if (m.partTiles i.val).any fun l => (m.tileAt l).resetAt.isSome then m
    else
      let live := f.ctxs.filter fun c => (m.ctxAt c).base.life == .live
      let m := live.foldl (fun (m : Machine) c => m.endContextReset c 5) m
      let m := { m with
        coll := m.coll.filter fun e => match e.2 with
          | some r => m.ctxPart r.ctx != i.val
          | none => false
        txn := m.txn.filter fun e => match e.2 with
          | some t => m.ctxPart t.ctx != i.val
          | none => false }
      (m.raise 544 i.val).dropFence d
  | .package => m

/-- DOMAIN_RESET_END. -/
def execDomainResetEnd (d : Domain) (s : State) : Host.Outcome State Fault Refusal :=
  done s (match s.m.luff.fences.find? fun f => f.dom == d && f.drained && !f.destroy with
    | some f => s.m.endReset d f
    | none => s.m)

/-- Whether the units that a package reset resets are ready again: the boot steps that reset, test and train them have run; without
firmware steps 34 and 35 do not (15 R438, 16 R476). -/
def Machine.unitsReady (m : Machine) : Bool :=
  ([10, 14, 15, 16, 17, 18, 19, 21, 22] ++ if m.boot.noFirmware then [] else [34, 35]).all m.stepPast

/-- A context after a package reset: FINAL with its meters, its queues cleared but for ABORT_IDX (15 R438 step 5, 06 R204). -/
def Machine.finalContext (m : Machine) (c : Nat) : Machine :=
  let m := (m.removeContext c).modCtx c fun r =>
    { r with
      base := { r.base with life := .final, func := none }
      rst := { r.rst with resets := satAdd 255 r.rst.resets 1, cause := 6, inReset := false }
      ce := { CtxCe.reset with queues := (tkeys r.ce.queues).foldl (fun t q =>
        tset .reset t q { CeQueue.reset with abortIdx := (tget .reset r.ce.queues q).abortIdx }) [] } }
  if m.ctxPending 2 && m.ctxCmd.started && m.ctxCmd.ctx == c then m.ctxDone 0 c else m

/-- A bound or quarantined partition is scrubbed after a package reset; a bound one keeps its binding, and one that was draining drains on
(06 R198, R205, R208). -/
def PartRec.afterReset (p : PartRec) : PartRec :=
  match p.state with
  | .bound => { p with state := .scrubbing, keep := true, scrubMib := 0 }
  | .draining => { p with state := .scrubbing, keep := true, drain := true, scrubMib := 0 }
  | .quarantined => { p with state := .scrubbing, keep := false, scrubMib := 0 }
  | _ => p

/-- A package reset completes (15 R438 steps 5 and 6). -/
def Machine.endPackageReset (m : Machine) (f : Fence) : Machine :=
  let cs := (m.ctxsIn .package).filter fun c => (m.ctxAt c).base.life != .final
  let m := cs.foldl (fun (m : Machine) c => m.finalContext c) m
  let m := { m with
    strm := { m.strm with entries := [] }
    txn := []
    part := { m.part with parts := (tkeys m.part.parts).foldl (fun (t : Table PartRec) (i : Nat) => tset PartRec.reset t i (tget PartRec.reset t i).afterReset) m.part.parts }
    luff := { m.luff with
      pkgResets := satAdd 0xFFFF m.luff.pkgResets 1
      fences := m.luff.fences.filter fun g => g.dom == Domain.package
      ladderPkg := false, ladderParts := [], ctxOrders := []
      crash := { m.luff.crash with durationUs := (m.ns - f.start.toNat) / 1000 } } }
  let m := (m.ttlResetDone.modTtl fun t => { t with partOrders := [] }).raise 545 0
  (if m.isMaster then m.memberReset m.node else m).dropFence .package

/-- PACKAGE_RESET_COMPLETE. -/
def execPackageResetComplete (s : State) : Host.Outcome State Fault Refusal :=
  done s (match s.m.luff.fences.find? fun f => f.dom == .package && f.drained with
    | some f => if s.m.unitsReady then s.m.endPackageReset f else s.m
    | none => s.m)

/-! ### The ladder (15 R424, Table 15.3) -/

/-- Order a partition reset by the ladder. -/
def Machine.ladderPart (m : Machine) (i : Nat) : Machine :=
  m.modLuff fun l => { l with ladderParts := if l.ladderParts.contains i then l.ladderParts else l.ladderParts ++ [i] }

/-- A rung overruns its time: RUNG_TIMEOUT, and the next rung (15 R424). -/
def Machine.rungOver (m : Machine) : Rung → Machine
  | .context c =>
    if m.luff.fences.any fun f => f.dom == .context c && !f.destroy then
      let m := (m.imageTiles c.val).foldl (fun (m : Machine) l => m.loseTile l false) (m.raise 546 1)
      let m := (m.ctxAt c.val).ce.queues.foldl (fun (m : Machine) q => match q.2.cur with
        | some k => m.modEngine k.engine fun r => { r with inReset := true }
        | none => m) m
      if m.coll.any fun e => e.2.any fun r => r.ctx == c.val then
        m.modLuff fun l => { l with collResets := (l.collResets ++ [m.ctxPart c.val]).eraseDups }
      else m
    else m
  | .tile l => if (m.tileAt l.val).resetAt.isSome then
      match firstBelow 8 fun i => (m.partTiles i).contains l.val with
      | some i => (m.raise 546 2).resetCluster i (l.val / 32)
      | none => m
    else m
  | .cluster i d => if (m.clusterTiles i.val d.val).any fun l => (m.tileAt l).resetAt.isSome then (m.raise 546 2).ladderPart i.val else m
  | .engine e => if (m.engine e.val).inReset then (m.raise 546 2).failEngine e.val else m
  | .collUnit i => if m.luff.collResets.contains i.val then (m.raise 546 2).failUnit i.val else m
  | .partition i => if m.luff.fences.any fun f => f.dom == .partition i then (m.raise 546 3).modLuff fun l => { l with ladderPkg := true } else m
  | .package => if m.pkgFenced then (m.raise 546 4).raise 547 0 else m

/-- RUNG_TIMEOUT. -/
def execRungTimeout (r : Rung) (s : State) : Host.Outcome State Fault Refusal := done s (s.m.rungOver r)

/-! ### Late completions and the dump (15 R431, R443) -/

/-- A completion of an earlier generation comes back: discarded, counted, GEN_LATE raised (15 R431). -/
def execGenLateDrop (s : State) : Host.Outcome State Fault Refusal :=
  let m := s.m
  done s (if 0 < m.luff.lateOut then
      (m.modLuff fun l => { l with lateOut := l.lateOut - 1, lateDrop := satAdd32 l.lateDrop 1 }).raise 542 0
    else m)

/-- A write of 1 to LUFF_DUMP.VALID. -/
def execDumpRearm (s : State) : Host.Outcome State Fault Refusal := done s s.m.dumpRearm

end Sys2Proof.Machine
end

