-- ==== Sys2Proof/Machine/Regs.lean ====
section
/-!
DEFINITION. Register access: BAR0 reads and writes of the functions, and the requests of Farnis that reach registers, the Halyard commands
and the topology database (17 R482; 18 R506–R519, R560). A write function answers the machine and the access-error cause of 18
Table 18.3, 0 for none.
-/
namespace Sys2Proof.Machine

/-- A write that has its effect. -/
def Machine.took (m : Machine) : Machine × Nat := (m, 0)

/-- A field takes its new value, unless the value is outside its range: then the field stays and the write counts with cause 7 (18 R560). -/
def Machine.ranged (m : Machine) (ok : Bool) (g : Machine → Machine) : Machine × Nat := if ok then (g m, 0) else (m, 0x7)

/-- One half of a 64-bit register takes a value: the high half when `high`. -/
def withHalf (d : DWord) (high : Bool) (v : Word) : DWord :=
  if high then BitVec.ofNat 64 (v.toNat * 2 ^ 32 + d.toNat % 2 ^ 32) else BitVec.ofNat 64 (d.toNat / 2 ^ 32 * 2 ^ 32 + v.toNat)

/-! ### Halyard (04 Tables 4.16, 4.17) -/

/-- The opcodes of Halyard commands (04 Table 4.9; 18 Table 18.6). -/
def hlyOpcode (op : Nat) : Bool := (1 ≤ op && op ≤ 0x0C) || (0x10 ≤ op && op ≤ 0x16) || (0x20 ≤ op && op ≤ 0x27)

/-- HLY_CMD_CTRL: a GO sets BUSY and clears DONE; a reserved opcode, or reserved bits that are not zero, end the command at once
(04 Table 4.10; 18 R519). The command of a listed opcode is carried out by its own step. -/
def Machine.writeHlyCtrl (m : Machine) (v : Word) : Machine × Nat :=
  let set := fun (g : HlyBox → HlyBox) => { m with hly := { m.hly with box := g m.hly.box } }
  let op := bits v 0 8
  let seq := bits v 8 8
  if m.hly.box.busy then (m, 0x3)
  else if !(bitAt v 31) then (set fun b => { b with opcode := op, seq := seq }).took
  else
    let m := set fun b => { b with opcode := op, seq := seq, busy := true, done := false }
    let c : HlyCmdRec := { src := .mailbox, opcode := op, seq := seq, podSeq := 0,
                           args := (List.range 14).map fun i => tget 0 m.hly.box.args i, data := [], cable := none }
    if !(hlyOpcode op) then (m.endMailbox { cmd := c, status := 0x02, res := [], data := [] }).took
    else if bits v 16 15 ≠ 0 then (m.endMailbox { cmd := c, status := 0x03, res := [], data := [] }).took
    else m.took

/-- HLY block. -/
def Machine.writeHly (m : Machine) (o : Nat) (v : Word) : Machine × Nat :=
  let b := m.hly.box
  if o = 0x100 then m.writeHlyCtrl v
  else if o = 0x104 then ({ m with hly := { m.hly with box := { b with done := b.done && !(bitAt v 16) } } }).took
  else if 0x108 ≤ o ∧ o < 0x140 then
    if b.busy then (m, 0x3)
    else ({ m with hly := { m.hly with box := { b with args := tset 0 b.args ((o - 0x108) / 4) v } } }).took
  else m.took

/-! ### Telltale (14 Tables 14.5, 14.6) -/

/-- Whether RWL fields may be written: from step 9 of a start run until its step 38 (18 R513, R514). -/
def Machine.rwlOpen (m : Machine) : Bool := m.bootSt 9 != .notRun && !m.boot.resetRun && !m.boot.locked

/-- TTL_CFG: AUTO_HOLD and INJECT_EN only while RWL fields are open, PIN_MIN only C2 or C3. -/
def Machine.writeTtlCfg (m : Machine) (v : Word) : Machine × Nat :=
  let t := m.ttl
  if !m.rwlOpen && (bitAt v 3 != t.autoHold || bitAt v 4 != t.injectEn) then (m, 0x4)
  else
    let m := m.modTtl fun t => { t with autoHold := bitAt v 3, injectEn := bitAt v 4 }
    m.ranged (bits v 0 3 == 2 || bits v 0 3 == 3) fun m => m.modTtl fun t => { t with pinMin := bits v 0 3 }

/-- TTL_SRC_CFG of source i: SURVIVE only while RWL fields are open, W_MS from 1 to 64,000, FORCE. -/
def Machine.writeSrcCfg (m : Machine) (i : Nat) (v : Word) : Machine × Nat :=
  if !m.rwlOpen && bitAt v 4 != surviveOf i (m.src i) then (m, 0x4)
  else
    let w := bits v 16 16
    let m := m.modSrc i fun r => { r with n := bits v 8 8, survive := if bitAt v 4 = surviveOf i r then r.survive else some (bitAt v 4) }
    let (m, c) := m.ranged (decide (1 ≤ w) && decide (w ≤ 64000)) fun m => m.modSrc i fun r => { r with wMs := w }
    (if bitAt v 3 then m.force i else m, c)

/-- TTL block. -/
def Machine.writeTtl (m : Machine) (o : Nat) (v : Word) : Machine × Nat :=
  if o < 0x50 then ((onePositions v).foldl (fun (m : Machine) b => m.modSrc (o / 4 * 32 + b) fun r => { r with any := false }) m).took
  else if 0x80 ≤ o ∧ o < 0xD0 then (m.clearFirst ((o - 0x80) / 4) v).took
  else if o = 0x110 then m.writeTtlCfg v
  else if o = 0x114 then m.ranged (decide (10 ≤ bits v 0 16) && decide (bits v 0 16 ≤ 60000)) fun m => m.modTtl fun t => { t with quietMs := bits v 0 16 }
  else if o = 0x118 then (m.modTtl fun t => { t with limits := (List.range 4).map fun k => bits v (4 * k) 4 }).took
  else if o = 0x140 then (m.writeHold (bitAt v 0)).took
  else if o = 0x144 then (m.modTtl fun t => { t with forceCtx := bits v 0 6, forceValid := bitAt v 6 }).took
  else if o = 0x150 then (m.modTtl fun t => { t with head := bits v 0 9 }).took
  else if o = 0x158 then (m.modTtl fun t => { t with ovf := t.ovf && !(bitAt v 0) }).took
  else if 0x8000 ≤ o ∧ o < 0xA800 then
    let i := (o - 0x8000) / 16
    if o % 16 = 0 then m.writeSrcCfg i v
    else if o % 16 = 4 then (m.modSrc i fun r => { r with forcedSeen := r.forcedSeen && !(bitAt v 4) }).took
    else m.took
  else m.took

/-! ### Reef and links (02 Table 2.12; 03 Table 3.15; 13 Table 13.6) -/

/-- REEF block. -/
def Machine.writeReef (m : Machine) (o : Nat) (v : Word) : Machine × Nat :=
  if 0x104 ≤ o ∧ o < 0x120 ∧ o % 8 = 4 then (m.modRdie ((o - 0x104) / 8) fun r => { r with vtarget := some (bits v 0 11) }).took
  else if o = 0x200 then
    let uv := m.corner.uvSeen &&& ~~~(BitVec.ofNat 4 (bits v 8 4))
    let ot := m.corner.otSeen &&& ~~~(BitVec.ofNat 4 (bits v 12 4))
    ({ m with corner := { m.corner with uvSeen := uv, otSeen := ot } }).took
  else m.took

/-- SHR block: SHR_PORT_CTRL.CNT_CLR clears the port's counters. -/
def Machine.writeShr (m : Machine) (o : Nat) (v : Word) : Machine × Nat :=
  if 0x1000 ≤ o ∧ o < 0x2800 ∧ o % 0x100 = 8 ∧ bitAt v 0 then
    (m.modPort ((o - 0x1000) / 0x100) fun r => { r with cnt := { PortCnt.reset with replayTimes := r.cnt.replayTimes } }).took
  else m.took

/-! ### Context pages (06 Table 6.17; 09 Table 9.15; 10 Table 10.12; 11 Table 11.10; 12 Table 12.7) -/

/-- CTX_XC_CTRL: a reserved opcode, or reserved bits that are not zero (18 R519; DEDUCED, log 51), answer BAD_OP. -/
def Machine.writeXcCtrl (m : Machine) (c : Nat) (v : Word) : Machine × Nat :=
  let op := bits v 0 4
  if (m.xc c).busy then (m, 0x3)
  else if !(bitAt v 31) then (m.modXc c fun x => { x with op := op }).took
  else
    let m := (m.modXc c fun x => { x with op := op, busy := true, done := false }).opArrive (.image c)
    if 1 ≤ op ∧ op ≤ 3 ∧ bits v 4 27 = 0 then m.took else if op = 1 ∨ op = 3 then (m.bindDone c 0x02).took else (m.xcDone c 0x02).took

/-- The argument registers of the image mailbox, held while it is BUSY. -/
def Machine.writeXcArg (m : Machine) (c o : Nat) (v : Word) : Machine × Nat :=
  let hi := o % 8 == 4
  if (m.xc c).busy then (m, 0x3)
  else if o < 0x110 then m.ranged (hi || bits v 0 8 == 0) fun m => m.modXc c fun x => { x with img := withHalf x.img hi v }
  else if o < 0x118 then m.ranged (hi || bits v 0 8 == 0) fun m => m.modXc c fun x => { x with hbm := withHalf x.hbm hi v }
  else if o = 0x118 then (m.modXc c fun x => { x with tileBase := bits v 0 7, useBase := bitAt v 7, streamBase := bits v 8 12 }).took
  else if 0x120 ≤ o then (m.modXc c fun x => { x with stepBase := withHalf x.stepBase hi v }).took
  else m.took

/-- The execution registers, written by function f. -/
def Machine.writeXc (m : Machine) (f c o : Nat) (v : Word) : Machine × Nat :=
  if o = 0x100 then m.writeXcCtrl c v
  else if o = 0x104 then (m.modXc c fun x =>
    { x with done := x.done && !(bitAt v 16), armOvf := x.armOvf && !(bitAt v 18), armBad := x.armBad && !(bitAt v 19) }).took
  else if 0x108 ≤ o ∧ o < 0x128 then m.writeXcArg c o v
  else if o = 0x128 then m.ranged (bits v 0 5 == 0) fun m => m.modXc c fun x => { x with cqBase := withHalf x.cqBase false v }
  else if o = 0x12C then (m.modXc c fun x => { x with cqBase := withHalf x.cqBase true v }).took
  else if o = 0x130 then m.ranged (ringSizeOk (bits v 0 16)) fun m => (m.modXc c fun x => { x with cqSize := bits v 0 16 }).cqFlush c
  else if o = 0x134 then ((m.modXc c fun x => { x with cqHead := bits v 0 12 }).cqFlush c).took
  else if o = 0x140 then (m.armLo c f v).took
  else if o = 0x144 then (m.armHi c f v).took
  else m.took

/-- CTX_ST_CTRL. -/
def Machine.writeStCtrl (m : Machine) (c : Nat) (v : Word) : Machine × Nat :=
  let set := fun (g : StCmd → StCmd) => m.modCtx c fun r => { r with st := g r.st }
  let op := bits v 0 4
  if (m.ctxAt c).st.busy then (m, 0x3)
  else if !(bitAt v 31) then (set fun x => { x with op := op, stream := bits v 4 12 }).took
  else
    let m := (set fun x => { x with op := op, stream := bits v 4 12, busy := true, done := false }).opArrive (.stream c)
    if op = 0 ∨ 4 < op then (m.stDone c 0x02).took
    else if bits v 16 15 ≠ 0 then (m.stDone c 0x03).took
    else m.took

/-- The stream registers. -/
def Machine.writeSt (m : Machine) (c o : Nat) (v : Word) : Machine × Nat :=
  if o = 0x200 then m.writeStCtrl c v
  else if o = 0x204 then (m.modCtx c fun r => { r with st := { r.st with done := r.st.done && !(bitAt v 16) } }).took
  else if 0x208 ≤ o ∧ o < 0x21C then
    if (m.ctxAt c).st.busy then (m, 0x3)
    else (m.modCtx c fun r => { r with st := { r.st with args := tset 0 r.st.args ((o - 0x208) / 4) v } }).took
  else m.took

/-- The registers of a queue: BASE, and the ring's geometry in CFG, only while it is DISABLED (12 R350; 18 R516). -/
def Machine.writeQueue (m : Machine) (c q k : Nat) (v : Word) : Machine × Nat :=
  let r := m.queue c q
  let off := r.state == .disabled
  if k = 0x00 ∨ k = 0x04 then
    let base := withHalf r.base (k == 4) v
    if !off && base != r.base then (m, 0x4) else (m.modQueue c q fun r => { r with base := base }).took
  else if k = 0x08 then
    if !off && (bits v 0 4 != r.log2size || bits v 4 2 != r.cls || bits v 6 3 != r.idx) then (m, 0x4) else (m.writeCfg c q v).took
  else if k = 0x0C then (m.doorbell c q (bits v 0 16)).took
  else if k = 0x14 then (m.modQueue c q fun r => { r with dbErr := r.dbErr && !(bitAt v 16), cfgErr := r.cfgErr && !(bitAt v 17) }).took
  else m.took

/-- The copy-engine registers: CQ_SIZE only while all four queues are DISABLED. -/
def Machine.writeCtxCe (m : Machine) (c o : Nat) (v : Word) : Machine × Nat :=
  let x := (m.ctxAt c).ce
  let set := fun (m : Machine) (g : CtxCe → CtxCe) => m.modCtx c fun r => { r with ce := g r.ce }
  if o < 0x480 then m.writeQueue c ((o - 0x400) / 0x20) (o % 0x20) v
  else if o = 0x480 then m.ranged (bits v 0 5 == 0) fun m => set m fun x => { x with cqBase := withHalf x.cqBase false v }
  else if o = 0x484 then (set m fun x => { x with cqBase := withHalf x.cqBase true v }).took
  else if o = 0x488 then
    if bits v 0 16 != x.cqSize && ((List.range 4).any fun q => (m.queue c q).state != .disabled) then (m, 0x4)
    else m.ranged (ringSizeOk (bits v 0 16)) fun m => set m fun x => { x with cqSize := bits v 0 16 }
  else if o = 0x48C then (set m fun x => { x with cqHead := bits v 0 12 }).took
  else m.took

/-- The window registers of a VF-bound context. -/
def Machine.writeWin (m : Machine) (c o : Nat) (v : Word) : Machine × Nat :=
  let set := fun (g : Win → Win) => m.modCtx c fun r => { r with win := g r.win }
  if (m.ctxAt c).base.func = some 0 then m.took
  else if o = 0x300 then (set fun w => { w with base := bits v 0 27 }).took
  else if o = 0x304 then (set fun w => { w with denied := w.denied && !(bitAt v 0) }).took
  else m.took

/-- Whether a page offset holds a register whose writes a context's fence discards (18 R517). -/
def fencedOffset (o : Nat) : Bool :=
  (0x100 ≤ o && o < 0x15C) || (0x200 ≤ o && o < 0x260) || (0x300 ≤ o && o < 0x308) || (0x400 ≤ o && o < 0x490)

/-- A context page (18 Table 18.2), written by function f. -/
def Machine.writePage (m : Machine) (f c o : Nat) (v : Word) : Machine × Nat :=
  if m.fenced c && fencedOffset o then (m, 0x6)
  else if o = 0x004 then (m.modBase c fun b => { b with event := b.event &&& ~~~v }).took
  else if o = 0x040 then (if bitAt v 0 then m.snapContext c else m).took
  else if 0x100 ≤ o ∧ o < 0x15C then m.writeXc f c o v
  else if 0x200 ≤ o ∧ o < 0x260 then m.writeSt c o v
  else if 0x300 ≤ o ∧ o < 0x308 then m.writeWin c o v
  else if 0x400 ≤ o ∧ o < 0x490 then m.writeCtxCe c o v
  else m.took

/-- CTX_CMD_CTRL (06 Tables 6.10, 6.16). -/
def Machine.writeCtxCtrl (m : Machine) (v : Word) : Machine × Nat :=
  let x := { m.ctxCmd with op := bits v 0 8, part := bits v 8 3, ctx := bits v 11 6, func := bits v 17 7 }
  if m.ctxCmd.busy then (m, 0x3)
  else if !(bitAt v 31) then ({ m with ctxCmd := x }).took
  else
    let m := { m with ctxCmd := { x with busy := true, done := false, started := false } }
    if x.op = 0 ∨ 3 < x.op then (m.ctxDone 0x02 0).took
    else if bits v 24 7 ≠ 0 then (m.ctxDone 0x03 0).took
    else m.took

/-- CTX block. -/
def Machine.writeCtx (m : Machine) (f o : Nat) (v : Word) : Machine × Nat :=
  if o = 0 then m.writeCtxCtrl v
  else if o = 4 then ({ m with ctxCmd := { m.ctxCmd with done := m.ctxCmd.done && !(bitAt v 14) } }).took
  else if 0x10000 ≤ o ∧ o < 0x50000 then m.writePage f ((o - 0x10000) / 0x1000) (o % 0x1000) v
  else m.took

/-! ### Partitions and host interface (06 Table 6.15; 10 Table 10.11; 11 Table 11.9) -/

/-- PART_PAGE_CTRL (10 R302). -/
def Machine.writePageCtrl (m : Machine) (v : Word) : Machine × Nat :=
  let set := fun (g : PageCmd → PageCmd) => { m with part := { m.part with page := g m.part.page } }
  let op := bits v 0 4
  if m.part.page.busy then (m, 0x3)
  else if !(bitAt v 31) then (set fun p => { p with op := op, ctx := bits v 4 6 }).took
  else
    let m := (set fun p => { p with op := op, ctx := bits v 4 6, busy := true, done := false, begun := false }).opArrive .page
    if op = 0 ∨ 2 < op then (m.pageDone 0x02).took
    else if bits v 10 21 ≠ 0 then (m.pageDone 0x03).took
    else m.took

/-- PART block. -/
def Machine.writePart (m : Machine) (o : Nat) (v : Word) : Machine × Nat :=
  let evq := fun (m : Machine) (g : Evq → Evq) => { m with part := { m.part with evq := g m.part.evq } }
  let page := fun (g : PageCmd → PageCmd) => { m with part := { m.part with page := g m.part.page } }
  if o = 0x10 then m.ranged (bits v 0 5 == 0) fun m => evq m fun e => { e with base := withHalf e.base false v }
  else if o = 0x14 then (evq m fun e => { e with base := withHalf e.base true v }).took
  else if o = 0x18 then m.ranged (ringSizeOk (bits v 0 16)) fun m => evq m fun e => { e with size := bits v 0 16 }
  else if o = 0x1C then (evq m fun e => { e with head := bits v 0 12 }).took
  else if o = 0x24 then (evq m fun e => { e with ovf := e.ovf && !(bitAt v 0) }).took
  else if o = 0x40 then m.writePageCtrl v
  else if o = 0x44 then (if m.part.page.busy then (m, 0x3) else (page fun p => { p with first := bits v 0 17 }).took)
  else if o = 0x48 then (if m.part.page.busy then (m, 0x3) else (page fun p => { p with count := bits v 0 17 }).took)
  else if o = 0x4C then (page fun p => { p with done := p.done && !(bitAt v 16) }).took
  else m.took

/-- A word of a function's MSI-X table: address, data, or the mask bit; unmasking a vector sends a message that is pending. PRESUMED
(log 5): the words are those of PCI Express. -/
def Machine.writeMsix (m : Machine) (f n k : Nat) (v : Word) : Machine :=
  let i := f * 512 + n
  let set := fun (g : Msix → Msix) => { m with msix := tset .reset m.msix i (g (tget .reset m.msix i)) }
  if k = 0 then set fun e => { e with addr := withHalf e.addr false (v &&& 0xFFFFFFFC) }
  else if k = 1 then set fun e => { e with addr := withHalf e.addr true v }
  else if k = 2 then set fun e => { e with data := v }
  else
    let owed := (tget .reset m.msix i).pending && !(bitAt v 0)
    let m := set fun e => { e with masked := bitAt v 0, pending := e.pending && bitAt v 0 }
    if owed then m.interrupt f n else m

/-- HST block. -/
def Machine.writeHst (m : Machine) (o : Nat) (v : Word) : Machine × Nat :=
  let h := m.hst
  if o = 0x14 then ({ m with hst := { h with cohRead := bitAt v 0 } }).took
  else if o = 0x20 then ({ m with hst := { h with pfWin := { h.pfWin with base := bits v 0 27 } } }).took
  else if o = 0x24 then ({ m with hst := { h with pfWin := { h.pfWin with denied := h.pfWin.denied && !(bitAt v 0) } } }).took
  else if 0x1000 ≤ o ∧ o < 0x1800 then
    let n := (o - 0x1000) / 16
    if o % 16 = 0 then (m.setWatch n v).took
    else if o % 16 = 4 then (m.modWatch n fun w => { w with hi := v.toNat }).took
    else if o % 16 = 8 then (m.modWatch n fun w => { w with tgt := bits v 2 24 * 4 }).took
    else m.took
  else if 0x8000 ≤ o ∧ o < 0x9080 then (m.writeMsix 0 ((o - 0x8000) / 16) (o / 4 % 4) v).took
  else m.took

/-! ### Boot and luff (15 Table 15.11; 16 Table 16.13) -/

/-- BOOT block. -/
def Machine.writeBoot (m : Machine) (o : Nat) (v : Word) : Machine × Nat :=
  if o = 0x1C then (if bitAt v 0 then m.altClear else m).took
  else if o = 0x20 then (m.modBoot fun b => { b with jnlIndex := bits v 0 17 }).took
  else m.took

/-- LUFF_RST_CTRL: a GO orders a reset, which CONTEXT_RESET, PARTITION_RESET or PACKAGE_RESET begins; a reserved OP or reserved bits answer
BAD_ARG. -/
def Machine.writeRst (m : Machine) (f : Nat) (v : Word) : Machine × Nat :=
  let set := fun (g : Luff → Luff) => { m with luff := g m.luff }
  let op := bits v 0 2
  if m.luff.rstBusy then (m, 0x3)
  else
    let m := set fun l => { l with rstOp := op, rstCtx := bits v 2 6, rstPart := bits v 8 3 }
    if !(bitAt v 31) then m.took
    else
      let m := { m with luff := { m.luff with rstBusy := true, rstDone := false, rstStarted := false, rstFarnis := f == 0x7F } }
      if op = 0 ∨ bits v 11 20 ≠ 0 then (m.rstDone 0x03).took else m.took

/-- LUFF block, written by function f. -/
def Machine.writeLuff (m : Machine) (f o : Nat) (v : Word) : Machine × Nat :=
  let set := fun (m : Machine) (g : Luff → Luff) => { m with luff := g m.luff }
  let win := bits v 0 16
  let ok := decide (1 ≤ win)
  if o = 0x00 then m.ranged ok fun m => set m fun l => { l with winTile := win }
  else if o = 0x04 then m.ranged ok fun m => set m fun l => { l with winCe := win }
  else if o = 0x08 then m.ranged ok fun m => set m fun l => { l with winLink := win }
  else if o = 0x0C then m.ranged ok fun m => set m fun l => { l with winColl := win }
  else if o = 0x10 then m.ranged ok fun m => set m fun l => { l with winHly := win }
  else if o = 0x14 then m.ranged (decide (10 ≤ bits v 0 13) && decide (bits v 0 13 ≤ 5000)) fun m => set m fun l => { l with drainUs := bits v 0 13 }
  else if o = 0x20 then m.writeRst f v
  else if o = 0x24 then (set m fun l => { l with rstDone := l.rstDone && !(bitAt v 16) }).took
  else if o = 0xA0 then
    let m := set m fun l => { l with dumpTiles := bitAt v 1 }
    (if bitAt v 0 then m.dumpRearm else m).took
  else if 0x1000 ≤ o ∧ o < 0x16F0 then
    let n := (o - 0x1000) / 4
    let u := tget LuffUnit.reset m.luff.units n
    (set m fun l => { l with units := tset .reset l.units n { u with expired := u.expired && !(bitAt v 17) } }).took
  else m.took

/-! ### The map (18 Table 18.1) -/

/-- A write of the word at an aligned offset of BAR0 by function f (0 the PF, n VF n, 0x7F Farnis); a write to an offset that no writable
register occupies has no effect (18 R506). -/
def Machine.regWrite (m : Machine) (f o : Nat) (v : Word) : Machine × Nat :=
  let k := o % 0x100000
  match o / 0x100000 with
  | 1 => m.writeHly k v
  | 3 => m.writeTtl k v
  | 4 => m.writeReef k v
  | 5 => m.writeShr k v
  | 7 => m.writeCtx f k v
  | 8 => m.writePart k v
  | 10 => m.writeHst k v
  | 11 => m.writeBoot k v
  | 13 => m.writeLuff f k v
  | _ => m.took

/-! ### BAR0 (11 R322, R326; 18 R506–R512) -/

/-- Whether the PF reaches an offset: in rescue only the BOOT, TTL, TIME and HST blocks (16 R460; 18 R507). -/
def Machine.exposed (m : Machine) (o : Nat) : Bool := !m.boot.rescue || [3, 10, 11, 12].contains (o / 0x100000)

/-- A VF's own word: its context's page while that is LIVE, its MSI-X table and pending bits; the rest reads 0 (11 R326). -/
def Machine.vfRead (m : Machine) (f o : Nat) : Word :=
  if o < 0x1000 then match m.vfCtx f with
    | some c => if m.reaches c f then m.readPage f c o else 0
    | none => 0
  else if 0x1000 ≤ o ∧ o < 0x1040 then m.msixWord f ((o - 0x1000) / 16) (o / 4 % 4)
  else if o = 0x1800 then m.pbaWord f 0 4
  else 0

/-- A word that function f reads: its value, and the cause of an access error. -/
def Machine.barRead (m : Machine) (f o : Nat) : Word × Nat :=
  if f = 0 then (if m.exposed o then (m.regRead 0 o, 0) else (0, 0x5)) else (m.vfRead f o, 0)

/-- A word that function f writes, and the cause of an access error. -/
def Machine.barWrite (m : Machine) (f o : Nat) (v : Word) : Machine × Nat :=
  if f = 0 then (if m.exposed o then m.regWrite 0 o v else (m, 0x5))
  else if o < 0x1000 then match m.vfCtx f with
    | some c => if m.reaches c f then m.writePage f c o v else (m, 0)
    | none => (m, 0)
  else if 0x1000 ≤ o ∧ o < 0x1040 then (m.writeMsix f ((o - 0x1000) / 16) (o / 4 % 4) v, 0)
  else (m, 0)

/-- The size of a function's BAR0 (11 Table 11.4). -/
def barSize (f : Nat) : Nat := if f = 0 then 0x4000000 else 0x10000

/-- Count an access error, unless there is none (18 R512). -/
def Machine.accessed (m : Machine) (o cause f : Nat) : Machine := if cause = 0 then m else m.accErr o cause f

/-- A read of TIME_NOW_LO latches the high word for function f (02 R67). -/
def Machine.latchTime (m : Machine) (f o : Nat) : Machine :=
  if o = 0xC00000 ∧ m.exposed o then
    let hi := BitVec.ofNat 32 (m.ns / 2 ^ 32)
    m.modTime fun t => if f = 0x7F then { t with farnisLatch := hi } else { t with latch := tset 0 t.latch f hi }
  else m

/-- A BAR0 read of n bytes by function f: the selected bytes of one word, or of two for 8 bytes; any other shape reads 0xFF bytes and
counts (18 R509, R510). -/
def Machine.bar0Read (m : Machine) (f o n : Nat) : Machine :=
  let one := [1, 2, 4, 8].contains n && decide (o % 4 + n ≤ 4)
  if n = 0 ∨ barSize f < o + n then m
  else if one || (n == 8 && o % 4 == 0) then
    let w := o / 4 * 4
    let lo := m.barRead f w
    let m := if f = 0 then m.latchTime f w else m
    let m := m.accessed o lo.2 f
    if n = 8 then
      let hi := m.barRead f (w + 4)
      let m := if lo.2 = 0 then m.accessed o hi.2 f else m
      (if f = 0 then m.latchTime f (w + 4) else m).emit (.readData f o (leBytes 4 lo.1.toNat ++ leBytes 4 hi.1.toNat))
    else m.emit (.readData f o (((leBytes 4 lo.1.toNat).drop (o % 4)).take n))
  else (m.accErr o 0x2 f).emit (.readData f o (List.replicate n 0xFF))

/-- A BAR0 write by function f: 4 or 8 bytes at an aligned offset, as one or two words, the lower offset first; less than a word has byte
enables clear; any other shape is discarded (18 R509). -/
def Machine.bar0Write (m : Machine) (f o : Nat) (data : List Byte) : Machine :=
  let n := data.length
  let put := fun (m : Machine) (o : Nat) (v : Word) => let r := m.barWrite f o v; r.1.accessed o r.2 f
  if n = 0 ∨ barSize f < o + n then m
  else if (n = 4 ∨ n = 8) ∧ o % 4 = 0 then
    let m := put m o (wordAt data 0)
    if n = 8 then put m (o + 4) (wordAt data 4) else m
  else m.accErr o (if o % 4 + n ≤ 4 then 0x1 else 0x2) f

/-- The identity BAR of H1: HLY_UID at 0 and 4, HST_LINK_STAT_1 at 8 (11 R322). -/
def Machine.h1Read (m : Machine) (o n : Nat) : Machine :=
  let img := leBytes 8 m.fuse.uid.toNat ++ leBytes 4 (m.hlinkWord 1).toNat
  if m.twoDie ∧ 0 < n ∧ o + n ≤ 0x10000 then m.emit (.readData 128 o ((List.range n).map fun i => img.getD (o + i) 0)) else m

/-- Whether a function answers: the PF while H0 is up, a VF that exists (11 R325, R343), the H1 function while H1 is up. -/
def Machine.answers (m : Machine) : BarFunc → Bool
  | .fn .pf => m.boot.on && (m.hlink 0).up
  | .fn (.vf n) => m.boot.on && (m.hlink 0).up && m.hst.vfEn && decide (n.val < m.hst.numVf)
  | .h1 => m.boot.on && (m.hlink 1).up

/-- What an interface's mode enables: tag width, outstanding reads, max payload and max read request (11 R320, Table 11.2). -/
def HstLink.mode (l : HstLink) : List Nat :=
  if l.proto = 0 ∧ l.rate = 3 then (if l.bigTags then [14, 2048, 512, 4096] else [10, 768, 512, 4096])
  else if l.bigTags then [10, 768, 512, 4096] else [8, 256, 512, 4096]

/-- The configuration identity of a function (11 R324, R325, Table 11.3). -/
def Machine.configId (m : Machine) (f : BarFunc) : ConfigId :=
  let n := match f with
    | .h1 => 1
    | .fn _ => 0
  let base : ConfigId :=
    { vendor := 0x1F3B, device := 0x7160, cls := 0x120000, revision := m.fuse.stepping.toNat, subVendor := 0x1F3B
      subsystem := if m.pins.form then 0x0001 else 0x0016, caps := [], sriov := [], cxl := [], mode := (m.hlink n).mode }
  match f with
  | .fn .pf =>
    { base with
      caps := [.pciExpress, .powerManagement, .msix, .aer, .ari, .sriov] ++ if m.cxlActive then [.cxlDvsec] else []
      sriov := [64, 64, 1, 1], cxl := if m.cxlActive then [true, true, false] else [] }
  | .fn (.vf _) => { base with vendor := 0xFFFF, device := 0x7161, caps := [.pciExpress, .msix, .ari] }
  | .h1 => { base with device := 0x7162, caps := [.pciExpress, .powerManagement, .aer] }

/-- REGISTER_WRITE: a read or write of a function's BAR0, or a read of its configuration identity (R324). -/
def execRegisterWrite (f : BarFunc) (off : Nat) (a : BarAccess) (s : State) : Host.Outcome State Fault Refusal :=
  let m := s.m
  done s (if !(m.answers f) then m
    else match f, a with
      | f, .identity => m.emit (.identity f (m.configId f))
      | .fn f, .read n => m.bar0Read (funcNum f) off n
      | .fn f, .write data => m.bar0Write (funcNum f) off data
      | .h1, .read n => m.h1Read off n
      | .h1, .write _ => m)

/-! ### Farnis (17 R482, Table 17.2) -/

/-- The blocks that Farnis may read: HLY, TKP, TTL, REEF, SHR, BOOT, TIME and LUFF. -/
def farnisReads (o : Nat) : Bool := [1, 2, 3, 4, 5, 11, 12, 13].contains (o / 0x100000)

/-- Read n words for Farnis from an offset on; a read of TIME_NOW_LO latches (02 R67). -/
def Machine.farnisWords (m : Machine) (o : Nat) : Nat → Machine × List Word
  | 0 => (m, [])
  | n + 1 =>
    let m := m.latchTime 0x7F o
    let w := m.regRead 0x7F o
    let (m, l) := m.farnisWords (o + 4) n
    (m, w :: l)

/-- REG_READ: 1 to 16 words. -/
def execRegRead (h : MsgHdr) (off : Word) (count : BitVec 8) (s : State) : Host.Outcome State Fault Refusal :=
  let o := off.toNat
  let n := count.toNat
  done s (s.m.vendor h 2 1 (leBytes 4 o ++ leBytes 1 n) fun m => if !m.boot.on then m
    else if n = 0 ∨ 16 < n ∨ o % 4 ≠ 0 then m.answerMctp h 2 1 0x03 []
    else if !((List.range n).all fun i => farnisReads (o + 4 * i)) then m.answerMctp h 2 1 0x04 []
    else
      let (m, l) := m.farnisWords o n
      m.answerMctp h 2 1 0 (wordBytes l))

/-- The offsets that Farnis may write: the writable fields of the TTL block, LUFF_RST_CTRL, LUFF_DUMP and BOOT_ALT_CLR. -/
def farnisWrites (o : Nat) : Bool :=
  let k := o - 0x300000
  o % 4 == 0 && ([0xD00020, 0xD000A0, 0xB0001C].contains o ||
    (o / 0x100000 == 3 && (decide (k < 0x50) || (decide (0x80 ≤ k) && decide (k < 0xD0)) ||
      [0x110, 0x114, 0x118, 0x140, 0x144, 0x150, 0x158].contains k ||
      (decide (0x8000 ≤ k) && decide (k < 0xA800) && (k % 16 == 0 || k % 16 == 4)))))

/-- REG_WRITE: answered OK, BUSY or DENIED; one that is not applied whole counts with FUNC 0x7F. -/
def execRegWrite (h : MsgHdr) (off value : Word) (s : State) : Host.Outcome State Fault Refusal :=
  let o := off.toNat
  done s (s.m.vendor h 2 2 (leBytes 4 o ++ leBytes 4 value.toNat) fun m => if !m.boot.on then m
    else if !(farnisWrites o) then (m.accErr o 0x5 0x7F).answerMctp h 2 2 0x04 []
    else
      let (m, c) := m.regWrite 0x7F o value
      (m.accessed o c 0x7F).answerMctp h 2 2 (if c = 0 then 0 else if c = 3 then 0x01 else 0x04) [])

/-- The opcodes that HLY_CMD accepts. -/
def mctpOpcode (op : Nat) : Bool := (2 ≤ op && op ≤ 0x0C) || [0x11, 0x14, 0x15].contains op || (0x23 ≤ op && op ≤ 0x27)

/-- HLY_CMD: the command is held for its own step; DENIED for an opcode outside the list, the status BUSY while a command is held. -/
def execHlyCmd (h : MsgHdr) (opcode seq : BitVec 8) (args : List Word) (s : State) : Host.Outcome State Fault Refusal :=
  done s (s.m.vendor h 3 1 (leBytes 1 opcode.toNat ++ leBytes 1 seq.toNat ++ wordBytes args) fun m => if !m.boot.on then m
    else if args.length ≠ 14 then m.answerMctp h 3 1 0x03 []
    else if !(mctpOpcode opcode.toNat) then m.answerMctp h 3 1 0x04 []
    else if m.hly.mctp.isSome then m.answerMctp h 3 1 0 (BitVec.ofNat 8 0x01 :: wordBytes (List.replicate 8 0))
    else
      let c : HlyCmdRec := { src := .mctp, opcode := opcode.toNat, seq := seq.toNat, podSeq := 0, args := args, data := [], cable := none }
      { m with hly := { m.hly with mctp := some c, mctpStarted := false, mctpHdr := h } })

/-- DB_READ: bytes of the package's topology database. -/
def execDbRead (h : MsgHdr) (off : Word) (len : BitVec 16) (s : State) : Host.Outcome State Fault Refusal :=
  let n := len.toNat
  done s (s.m.vendor h 3 2 (leBytes 4 off.toNat ++ leBytes 2 n) fun m =>
    let db := m.dbBytes
    if !m.boot.on then m
    else if n = 0 ∨ 1024 < n ∨ db.length < off.toNat + n then m.answerMctp h 3 2 0x03 []
    else m.answerMctp h 3 2 0 ((db.drop off.toNat).take n))

end Sys2Proof.Machine
end

