-- ==== Sys2Proof/Machine/Scan.lean ====
section
/-!
DEFINITION. The commands of the boundary-scan chains (19 R539–R541) and of the S1 card's power controller (20 R549).
-/
namespace Sys2Proof.Machine

/-! ### Boundary scan (19 R539–R541) -/

/-- Whether this package stands at a site, in a tray or on the card. -/
def Machine.ownPlace (m : Machine) (k : Nat) : Bool := m.pins.site.toNat == k

/-- Whether a site's chain is powered: all its rails are on. -/
def Machine.chainLive (m : Machine) (k : Nat) : Bool :=
  if m.pins.form then m.ownPlace k && m.card.pg
  else
    let s := (m.siteAt k).state
    s == .on || s == .notice || s == .scan

/-- BOOT_ID of the package at a site; Farnis read it at tray start. -/
def Machine.chainId (m : Machine) (k : Nat) : Word := if m.ownPlace k then m.bootId else (((m.siteAt k).ident).map (·.1)).getD 0

/-- Whether an I/O die is on its site's chain: X0, and X1 where fitted. -/
def Machine.onChain (m : Machine) (k d : Nat) : Bool := m.chainLive k && (d == 0 || bitAt (m.chainId k) 29)

/-- BYPASS, as which every instruction acts that is not allowed (19 Table 19.8). -/
def irBypass : Nat := 0xFF

/-- What an instruction register holds after reset: IDCODE, as IEEE 1149.1 has it for a port with an IDCODE register. PRESUMED (log 5). -/
def irReset : Nat := 0x01

/-- An instruction enters a die's register; one that needs SITE_TEST high acts as BYPASS without it (19 Table 19.8). A die that is not on a
live chain is bypassed by the multiplexer. -/
def Machine.scanLoad (m : Machine) (k d code : Nat) (test : Bool) : Machine :=
  if m.onChain k d then
    let eff := if test && (m.siteAt k).state != .scan then irBypass else code
    { m with scan := { m.scan with ir := tset irReset m.scan.ir (2 * k + d) eff } }.emit (.scan k d eff)
  else m

/-- The IDCODE register of an I/O die (19 R540). -/
def Machine.idcode (m : Machine) (k d : Nat) : Word :=
  word [(0, 1), (1, 0x2A7), (12, if d = 0 then 0x7160 else 0x7162), (28, bits (m.chainId k) 0 4)]

/-- EXTEST. -/
def execExtest (s1 : SiteId) (d : IoDie) (s : State) : Host.Outcome State Fault Refusal := done s (s.m.scanLoad s1 d 0x00 true)

/-- IDCODE: the identity is shifted out. -/
def execIdcode (s1 : SiteId) (d : IoDie) (s : State) : Host.Outcome State Fault Refusal :=
  let m := s.m.scanLoad s1 d 0x01 false
  done s (if s.m.onChain s1 d then m.emit (.scanData s1 d (m.idcode s1 d)) else m)

/-- SAMPLE/PRELOAD. -/
def execSamplePreload (s1 : SiteId) (d : IoDie) (s : State) : Host.Outcome State Fault Refusal := done s (s.m.scanLoad s1 d 0x02 false)

/-- EXTEST_PULSE. -/
def execExtestPulse (s1 : SiteId) (d : IoDie) (s : State) : Host.Outcome State Fault Refusal := done s (s.m.scanLoad s1 d 0x03 true)

/-- EXTEST_TRAIN. -/
def execExtestTrain (s1 : SiteId) (d : IoDie) (s : State) : Host.Outcome State Fault Refusal := done s (s.m.scanLoad s1 d 0x04 true)

/-- HIGHZ. -/
def execHighz (s1 : SiteId) (d : IoDie) (s : State) : Host.Outcome State Fault Refusal := done s (s.m.scanLoad s1 d 0x05 true)

/-- BYPASS. -/
def execBypass (s1 : SiteId) (d : IoDie) (s : State) : Host.Outcome State Fault Refusal := done s (s.m.scanLoad s1 d irBypass false)

/-- SCAN_EXT_CHANGE: the multiplexer changes over at once while EXT_TRST_N is low, else when it next goes low (19 R541). -/
def execScanExtChange (level trstLow : Bool) (s : State) : Host.Outcome State Fault Refusal :=
  done s { s.m with scan := { s.m.scan with extN := level, applied := if trstLow then level else s.m.scan.applied } }

/-- EXT_TRST_N_FALL: the multiplexer takes the level of SCAN_EXT_N (19 R541). -/
def execExtTrstNFall (s : State) : Host.Outcome State Fault Refusal :=
  done s { s.m with scan := { s.m.scan with applied := s.m.scan.extN } }

/-! ### The S1 card (20 R549) -/

/-- SLOT_12V_RISE: with both 12V-2x6 inputs the rails come up and SITE_PG is asserted; with one missing they stay off and the LED lights. -/
def execSlot12vRise (aux : BitVec 2) (s : State) : Host.Outcome State Fault Refusal :=
  let m := s.m
  let ok := aux == 3
  done s (if m.pins.form ∧ !m.card.slot12v then
      { m with card := { slot12v := true, aux := aux, pg := ok, c4Off := false, led := !ok, peer := none } }
    else m)

/-- SLOT_12V_FALL: the rails are removed; a C4's hold ends with the return of slot power. -/
def execSlot12vFall (s : State) : Host.Outcome State Fault Refusal :=
  let m := s.m
  done s (if m.pins.form ∧ m.card.slot12v then { m.powerLost with card := { m.card with slot12v := false, pg := false, c4Off := false, led := false, peer := none } }
    else m)

/-- CARD_C4_POWER_OFF: within 2 ms of TTL_PIN.C4 the rails are removed, and stay off until slot power falls and returns. -/
def execCardC4PowerOff (s : State) : Host.Outcome State Fault Refusal :=
  let m := s.m
  done s (if m.pins.form ∧ m.card.pg ∧ m.ttl.pin.c4 then { m.powerLost with card := { m.card with pg := false, c4Off := true, peer := none } } else m)

end Sys2Proof.Machine
end

