-- ==== Sys2Proof/Machine/Tiles.lean ====
section
/-!
DEFINITION. The tile instructions: each command is the tile's issue of its next word, when that word is of the command's
class (08 R242–R266; 09 R268, R279).
-/
namespace Sys2Proof.Machine

/-! ### Matrix unit -/

/-- The 64 rows of a matrix operand as values (08 R245). -/
def Machine.numRows (m : Machine) (l line : Nat) (f : Format) : List (List Num) :=
  let bs := m.storeRead l line (f.bytes 64 * 64)
  (List.range 64).map fun i =>
    let row := (bs.drop (i * f.bytes 64)).take (f.bytes 64)
    (List.range 64).map (numAt f row)

/-- The 64 rows of an integer matrix operand (08 R245). -/
def Machine.intRows (m : Machine) (l line : Nat) (f : Format) : List (List Int) :=
  let bs := m.storeRead l line (f.bytes 64 * 64)
  (List.range 64).map fun i =>
    let row := (bs.drop (i * f.bytes 64)).take (f.bytes 64)
    (List.range 64).map (intAt f row)

/-- An accumulator bank's elements, row by row. -/
def TileRec.bank (t : TileRec) (k : Nat) : List Word := (List.range 4096).map fun i => tget 0 t.acc (k * 4096 + i)

/-- A tile with an accumulator bank replaced; `int` when it holds INT32. -/
def TileRec.setBank (t : TileRec) (k : Nat) (int : Bool) (ws : List Word) : TileRec :=
  { t with acc := tfill 0 t.acc (k * 4096) ws, accInt := setBit t.accInt k int }

/-- A matrix block (08 R243, R264): every element of the bank from its row of A and its row of transposed B. -/
def Machine.mmaBlock (m : Machine) (l : Nat) (w : TWord) : List Word × Bool × NumFlags :=
  let fa := (formatOf w.fa).getD .fp32
  let fb := (formatOf w.fb).getD .fp32
  let c := if w.zero then List.replicate 4096 0 else (m.tileAt l).bank w.acc
  if fa.isInt then
    let a := m.intRows l w.l1 fa
    let b := m.intRows l w.l2 fb
    ((List.range 4096).map fun i => mmaIntElem (c.getD i 0) ((a.getD (i / 64) []).zip (b.getD (i % 64) [])), true, noFlags)
  else
    let a := m.numRows l w.l1 fa
    let b := m.numRows l w.l2 fb
    let es := (List.range 4096).map fun i =>
      mmaElem (laneNum (c.getD i 0)) ((a.getD (i / 64) []).zip (b.getD (i % 64) []))
    (es.map (·.1), false, joinFlags (es.map (·.2)))

/-- MMA (08 R243–R245, R264). -/
def execMma (l : TileId) (s : State) : Host.Outcome State Fault Refusal :=
  let m := s.m
  match m.issueWord l.val 0x01 with
  | none => done s m
  | some (a, w) =>
    let (ws, int, f) := m.mmaBlock l.val w
    done s ((m.modTile l.val fun t => t.setBank w.acc int ws).computeDone l.val a f)

/-- A drain's bytes (08 R246, R262): the rows of the bank in the destination format, the generator after it, and the flags;
the accumulator's own format is written as it stands. -/
def drainRows (int : Bool) (dst : Format) (rm : Nat) (sat : Bool) : Word → List (List Word) → List Byte × NumFlags × Word
  | r, [] => ([], noFlags, r)
  | r, ws :: t =>
    if dst = (if int then Format.int32 else Format.fp32) then
      let (bs, f, r2) := drainRows int dst rm sat r t
      (wordBytes ws ++ bs, f, r2)
    else
      let (b, f, r1) := convertRow int dst rm sat r ws
      let (bs, fs, r2) := drainRows int dst rm sat r1 t
      (b ++ bs, f ||| fs, r2)

/-- DRAIN (08 R246): the bank is left unchanged. -/
def execDrain (l : TileId) (s : State) : Host.Outcome State Fault Refusal :=
  let m := s.m
  match m.issueWord l.val 0x02 with
  | none => done s m
  | some (a, w) =>
    let t := m.tileAt l.val
    let ws := t.bank w.acc
    let rows := (List.range 64).map fun i => (ws.drop (64 * i)).take 64
    let (bs, f, r) := drainRows (bitAt t.accInt w.acc) ((formatOf w.fb).getD .fp32) w.rm w.sat t.rng rows
    done s (((m.modTile l.val fun t => { t with rng := r }).storeWrite l.val w.l1 bs).computeDone l.val a f)

/-! ### Vector unit -/

/-- The 32 lanes of a vector register. -/
def TileRec.lanes (t : TileRec) (v : Nat) : List Word := (List.range 32).map fun i => tget 0 t.vreg (v * 32 + i)

/-- A tile with a vector register replaced. -/
def TileRec.setLanes (t : TileRec) (v : Nat) (ws : List Word) : TileRec := { t with vreg := tfill 0 t.vreg (v * 32) ws }

/-- A vector operation on 32 lanes (08 R247, 09 R279). -/
def TileRec.vop (t : TileRec) (w : TWord) : List (Word × NumFlags) :=
  (List.range 32).map fun i =>
    vopLane w.func (tget 0 t.vreg (w.va * 32 + i)) (tget 0 t.vreg (w.vb * 32 + i)) (tget 0 t.vreg (w.vc * 32 + i))

/-- VOP (08 R247, R264). -/
def execVop (l : TileId) (s : State) : Host.Outcome State Fault Refusal :=
  let m := s.m
  match m.issueWord l.val 0x03 with
  | none => done s m
  | some (a, w) =>
    let es := (m.tileAt l.val).vop w
    done s ((m.modTile l.val fun t => t.setLanes w.vd (es.map (·.1))).computeDone l.val a (joinFlags (es.map (·.2))))

/-- VCVT (08 R247, R260–R263): each lane, read as INT32 for an integer format FA and as FP32 otherwise, is narrowed to FB and
held widened. -/
def execVcvt (l : TileId) (s : State) : Host.Outcome State Fault Refusal :=
  let m := s.m
  match m.issueWord l.val 0x04 with
  | none => done s m
  | some (a, w) =>
    let t := m.tileAt l.val
    let fb := (formatOf w.fb).getD .fp32
    let (bs, f, r) := convertRow ((formatOf w.fa).getD .fp32).isInt fb w.rm w.sat t.rng (t.lanes w.va)
    done s ((m.modTile l.val fun t => { t.setLanes w.vd ((List.range 32).map (laneAt fb bs)) with rng := r }).computeDone l.val a f)

/-- VLD (08 R247): 32 elements of FA from the start of a line, widened exactly. -/
def execVld (l : TileId) (s : State) : Host.Outcome State Fault Refusal :=
  let m := s.m
  match m.issueWord l.val 0x05 with
  | none => done s m
  | some (a, w) =>
    let fa := (formatOf w.fa).getD .fp32
    let bs := m.storeRead l.val w.l1 (fa.bytes 32)
    done s ((m.modTile l.val fun t => t.setLanes w.vd ((List.range 32).map (laneAt fa bs))).computeDone l.val a noFlags)

/-- VST (08 R247, R260–R263): 32 elements to the start of a line, narrowed when FB is narrower than a lane. -/
def execVst (l : TileId) (s : State) : Host.Outcome State Fault Refusal :=
  let m := s.m
  match m.issueWord l.val 0x06 with
  | none => done s m
  | some (a, w) =>
    let t := m.tileAt l.val
    let fb := (formatOf w.fb).getD .fp32
    let (bs, f, r) :=
      if fb = .fp32 ∨ fb = .int32 then (wordBytes (t.lanes w.va), noFlags, t.rng)
      else convertRow fb.isInt fb w.rm w.sat t.rng (t.lanes w.va)
    done s (((m.modTile l.val fun t => { t with rng := r }).storeWrite l.val w.l1 bs).computeDone l.val a f)

/-! ### Transfers and control -/

/-- HRD (09 R268, R279): N line reads are issued; HBM_LINE_COMPLETE completes them. -/
def execHrd (l : TileId) (s : State) : Host.Outcome State Fault Refusal :=
  match s.m.issueWord l.val 0x07 with
  | none => done s s.m
  | some (a, w) => done s (s.m.issueLines l.val a w false)

/-- HWR (09 R268, R273, R279): N line writes are issued. -/
def execHwr (l : TileId) (s : State) : Host.Outcome State Fault Refusal :=
  match s.m.issueWord l.val 0x08 with
  | none => done s s.m
  | some (a, w) => done s (s.m.issueLines l.val a w true)

/-- SEND (09 R268, R279): N tokens are issued, one per line. -/
def execSend (l : TileId) (s : State) : Host.Outcome State Fault Refusal :=
  match s.m.issueWord l.val 0x09 with
  | none => done s s.m
  | some (a, w) => done s (s.m.issueTokens l.val a w)

/-- RECV (09 R268, R276). -/
def execRecv (l : TileId) (s : State) : Host.Outcome State Fault Refusal :=
  match s.m.issueWord l.val 0x0A with
  | none => done s s.m
  | some (a, w) => done s (s.m.issueRecv l.val a w)

/-- WAIT (09 R268): the tile waits for its earlier transfers of the masked classes. -/
def execWait (l : TileId) (s : State) : Host.Outcome State Fault Refusal :=
  match s.m.issueWord l.val 0x0B with
  | none => done s s.m
  | some (a, _) => done s ((s.m.waitIn l.val .waiting).settle a.c)

/-- LOOP (09 R268, Table 9.8): the body runs N times. -/
def execLoop (l : TileId) (s : State) : Host.Outcome State Fault Refusal :=
  match s.m.issueWord l.val 0x0C with
  | none => done s s.m
  | some (_, w) =>
    done s (s.m.modTile l.val fun t =>
      let (pc, ls) := loopNext (t.pc + 1)
        (if w.body = 0 then t.loops else { first := t.pc + 1, stop := t.pc + 1 + w.body, left := w.n } :: t.loops)
      { t with pc := pc, loops := ls })

/-- END (09 R268): the tile's part of the step ends once its transfers have completed. -/
def execTileEnd (l : TileId) (s : State) : Host.Outcome State Fault Refusal :=
  match s.m.issueWord l.val 0x0D with
  | none => done s s.m
  | some (a, _) => done s ((s.m.waitIn l.val .ending).settle a.c)

/-- HBM_LINE_COMPLETE (09 R268, R273): the k-th of the tile's outstanding lines completes. -/
def execHbmLineComplete (l : TileId) (k : Fin 65536) (s : State) : Host.Outcome State Fault Refusal :=
  done s (s.m.completeLine l.val k.val)

/-- TOKEN_ACKNOWLEDGE (09 R268). -/
def execTokenAcknowledge (c : CtxId) (ch : Fin 1024) (s : State) : Host.Outcome State Fault Refusal :=
  done s (s.m.ackToken c.val ch.val)

end Sys2Proof.Machine
end

