-- ==== Sys2Proof/Machine/Traffic.lean ====
section
/-!
DEFINITION. Frames at an I/O die and what they carry: forwarding, remote requests and their replies, messages, collective frames,
late steps, and the abort of a planned flow (07 R215–R235; 10 R317, R318).
-/
namespace Sys2Proof.Machine

/-! ### Forwarding (07 R215, R218, R222, R223) -/

/-- The oldest frame at an I/O die is checked, routed or delivered (07 R218). -/
def execFrameForward (d : IoDie) (s : State) : Host.Outcome State Fault Refusal :=
  done s (s.m.forwardNext Machine.landToken Machine.flowGen Machine.strmWindow d.val)

/-- Waiting frames reach the packet lifetime (07 R215). -/
def execFrameAgeExpiry (d : IoDie) (s : State) : Host.Outcome State Fault Refusal := done s (s.m.ageAll d.val)

/-- The frames of a detour queue start on their detours (07 R222). -/
def execDetourResend (d : IoDie) (s : State) : Host.Outcome State Fault Refusal :=
  done s (s.m.detourAll Machine.landToken Machine.flowGen Machine.strmWindow d.val)

/-- A filter record of an idle pair is freed (07 R223). -/
def execFilterRecordExpiry (d : IoDie) (src : NodeId) (stream : StreamId) (s : State) : Host.Outcome State Fault Refusal :=
  done s (s.m.filterExpire d.val src stream.val)

/-! ### Remote requests (07 R213, R225, R226; 10 R318; 15 R426) -/

/-- A REQ's descriptor and data, without the pod prefix of a frame from another pod (07 Table 7.3). -/
structure ReqBody where
  offset : Nat
  lenOp : Nat
  reserved : Nat
  data : List Byte
  deriving DecidableEq, Repr

/-- Whether a frame comes from another pod. -/
def Machine.fromFar (m : Machine) (f : Frame) : Bool := nodePod (frSrc f) != nodePod m.node

/-- Read a REQ's payload; none when it is too short for a descriptor (07 Table 7.3). -/
def Machine.reqBody (m : Machine) (f : Frame) : Option ReqBody :=
  let p := if m.fromFar f then f.payload.drop 8 else f.payload
  if p.length < 8 then none
  else
    let w := ofLe (p.take 8)
    some { offset := nbits w 0 40, lenOp := nbits w 40 9, reserved := nbits w 49 15, data := p.drop 8 }

/-- Whether a descriptor and its data fit the operation (07 Tables 7.3, 7.4). -/
def reqFits (op : Nat) (far : Bool) (b : ReqBody) : Bool :=
  b.reserved == 0 && decide (1 ≤ b.lenOp) && decide (b.lenOp ≤ 256) &&
  match op with
  | 1 => b.data.length == b.lenOp && decide (b.lenOp ≤ if far then 240 else 248)
  | 2 => b.data.isEmpty && decide (b.lenOp ≤ if far then 248 else 256)
  | 3 => b.data.length == 8 && b.offset % 8 == 0 && b.lenOp == 8
  | _ => b.data.isEmpty && b.lenOp == 1

/-- Carry out a REQ on its target stream's buffer: the REP's status and data (07 R225; 10 R318). A line outside the pages that the
stream's context owns, as one that an uncorrectable error has retired, is refused (10 R297, R301): ABORTED (DEDUCED, log 54). -/
def Machine.runReq (m : Machine) (f : Frame) : Machine × Nat × List Byte :=
  let n := frStream f
  let r := m.strmAt n
  match m.reqBody f with
  | none => (m, 0x04, [])
  | some b =>
    let a := r.base + b.offset
    let old := m.hbmRead a b.lenOp
    if !(reqFits (frOpx f) (m.fromFar f) b) || r.state != .open_ || r.kind != kindMsg || decide (r.len < b.offset + b.lenOp) ||
        decide (b.offset < r.ring * 512) then (m, 0x04, [])
    else if frOpx f = 4 then (m.modStrm n fun r => { r with signal := r.signal + 1 }, 0, [])
    else if !(m.ownsRange r.ctx a b.lenOp) then (m, 0x02, [])
    else if frOpx f = 1 then ((m.hbmWrite a b.data).meterHbm r.ctx b.lenOp, 0, [])
    else if frOpx f = 2 then (m.meterHbm r.ctx b.lenOp, 0, old)
    else ((m.hbmWrite a (leBytes 8 ((ofLe old + ofLe b.data) % 2 ^ 64))).meterHbm r.ctx 16, 0, old)

/-- Whether a REQ reached its domain during its fence (15 Table 15.5). -/
def Machine.fencedSince (m : Machine) (c : Nat) (since : DWord) : Bool :=
  m.fenced c && !(m.luff.fences.any fun f => f.ctxs.contains c && decide (since.toNat < f.start.toNat))

/-- A REQ is executed against its stream and answered (07 R225): FENCED when it came during its domain's fence. -/
def execReqReceive (d : IoDie) (s : State) : Host.Outcome State Fault Refusal :=
  done s (match s.m.takeInbox d.val fun f => frType f == 5 with
    | none => s.m
    | some (x, m) =>
      if m.fencedSince (m.strmAt (frStream x.frame)).ctx x.since && (m.strmAt (frStream x.frame)).state != .closed then
        m.answer d.val x.frame 0x01 []
      else
        let (m, st, data) := m.runReq x.frame
        m.answer d.val x.frame st data)

/-- A REQ that its domain has not finished 50 µs after its delivery is answered ABORTED (07 R225, 15 R426). -/
def execReqAnswerDeadline (src : NodeId) (txn : BitVec 11) (s : State) : Host.Outcome State Fault Refusal :=
  done s (s.m.abortReqs fun x => frSrc x.frame == src && frTxn x.frame == txn.toNat)

/-- A REP arrives: its TXN is outstanding and its GEN current, and the REQ completes; or it is discarded (07 R226). -/
def execRepReceive (d : IoDie) (s : State) : Host.Outcome State Fault Refusal :=
  done s (match s.m.takeInbox d.val fun f => frType f == 6 with
    | none => s.m
    | some (x, m) =>
      let f := x.frame
      let ok := match tget none m.txn (frTxn f) with
        | some t => frGen f == (m.ctxAt t.ctx).rst.gen
        | none => false
      if ok then
        let st := [0, 7, 8, 6, 9].getD (frOpx f) 9
        m.reqComplete (frTxn f) st (if m.fromFar f then f.payload.drop 8 else f.payload)
      else (m.modFwdCnt d.val fun c => { c with lateRep := satAdd32 c.lateRep 1 }).fwdRaise d.val 5)

/-- 500 µs without a REP: the REQ completes with EXPIRED, and its TXN is free (07 R226). -/
def execReqExpired (txn : BitVec 11) (s : State) : Host.Outcome State Fault Refusal :=
  done s (s.m.reqComplete txn.toNat 0x0A [])

/-! ### Messages and collective frames (10 R317; 07 R228) -/

/-- Write a MSG into its stream's ring: header, payload, and PHASE last (10 R317). A record outside the pages that the stream's context owns is refused
(R301), and its frame discarded like one without a free record (DEDUCED, log 54). -/
def Machine.landMsg (m : Machine) (f : Frame) : Machine :=
  let n := frStream f
  let r := m.strmAt n
  let used := (r.ringTail + 8192 - r.ringHead) % 8192
  if r.kind ≠ kindMsg ∨ r.state ≠ .open_ ∨ r.ring = 0 ∨ r.ring ≤ used ∨ !(m.ownsRange r.ctx (r.base + r.ringTail % r.ring * 512) 512) then
    (({ m with strm := { m.strm with cntMsg := satAdd32 m.strm.cntMsg 1 } }).modStrm n StreamRec.dropIn).raise (srcStrm 1) 0
  else
    let a := r.base + r.ringTail % r.ring * 512
    let phase : Byte := if r.ringTail / r.ring % 2 = 0 then 1 else 0
    (((m.hbmWrite a (frameBytes f)).hbmWrite (a + 511) [phase]).meterHbm r.ctx (frameLen f + 1)).modStrm n fun r =>
      { r with ringTail := (r.ringTail + 1) % 8192 }

/-- A MSG lands in its stream's ring (10 R317). -/
def execMsgReceive (d : IoDie) (s : State) : Host.Outcome State Fault Refusal :=
  done s (match s.m.takeInbox d.val fun f => frType f == 4 with
    | none => s.m
    | some (x, m) => m.landMsg x.frame)

/-- A COLL frame reaches its collective (07 R228). -/
def execCollFrameReceive (d : IoDie) (s : State) : Host.Outcome State Fault Refusal :=
  done s (match s.m.takeInbox d.val fun f => frType f == 3 with
    | none => s.m
    | some (x, m) => m.collFrame x.frame)

/-! ### Late steps (07 R233) -/

/-- A late step's report reaches the master: LATE_STEP is flooded, at most once per slice in 1 ms, and not for a flow aborted in the
same generation (07 R233). -/
def execLateStepReport (tag : TagId) (node : NodeId) (cause : BitVec 4) (stream : StreamId) (gen : BitVec 8) (s : State) :
    Host.Outcome State Fault Refusal :=
  let m := s.m
  let r := m.sliceAt tag.val
  let last := tget (0 : DWord) m.hly.lateFlood tag.val
  let recent := last.toNat ≠ 0 ∧ m.ns < last.toNat + 1000000
  let aborted := m.hly.aborts.any fun a => a.tag == tag.val && a.stream == stream.val && a.gen == gen.toNat
  done s (if m.isMaster ∧ !aborted ∧ !recent ∧ (r.state = .active ∨ r.state = .degraded) then
      ({ m with hly := { m.hly with lateFlood := tset 0 m.hly.lateFlood tag.val m.time.now } }).floodEvent 0x09
        (detailByte r.grade cause.toNat) tag.val node 0
    else m)

/-! ### The abort of a planned flow (07 R234, R235; 10 R316) -/

/-- Whether a step of a bound image uses a stream: it counts tokens on a channel of it (09 R277, R286). -/
def Machine.stepUses (m : Machine) (b : BoundImage) (step n : Nat) : Bool :=
  (((b.img.steps[step]?).map (·.counts)).getD []).any fun p => p.2 != 0 && match b.chan? p.1 with
    | some ch => match ch.kind with
      | 0 => false
      | 1 | 2 => b.streamBase + ch.ref == n
      | _ => (m.chanColl b ch).any fun e => e.2.stream == n
    | none => false

/-- The abort of a stream's operation reaches the owner's image: the armed or running step that uses the stream, and every queued step that it gates
(09 R286, FLOW_ABORT; DEDUCED, log 50). -/
def Machine.abortStep (m : Machine) (c n : Nat) : Machine :=
  match (m.xc c).image with
  | none => m
  | some b =>
    let ch := (m.strmAt n).channel
    let m := if (m.xc c).run.any fun r => m.stepUses b r.step n then m.detect c { reason := 0xA, ch := ch, tile := none } else m
    m.modXc c fun x => { x with queue := x.queue.map fun q => if m.stepUses b q.step n then { q with aborted := some ch } else q }

/-- FLOW_ABORT at a member: the stream is HELD with the new generation, its operation completes ABORTED, and SHR_FLOW_ABORT is raised
against each of the slice's contexts (07 R235). -/
def Machine.takeFlowAbort (m : Machine) (tag n gen : Nat) : Machine :=
  let r := m.strmAt n
  let d := m.strmDie tag n
  let mine := r.state != .closed && r.state != .closing && (m.ctxAt r.ctx).base.tag == tag
  let m := if mine then (((m.abortStep r.ctx n).collAbort n).holdStream n gen) else m
  let m := m.modFwdCnt d fun c => { c with flowAbort := satAdd32 c.flowAbort 1 }
  (tkeys m.ctx).foldl (fun m c =>
    if (m.ctxAt c).base.life = .live ∧ (m.ctxAt c).base.tag = tag then m.raiseCtx (srcFwd d 7) d c else m) m

/-- The reachable members of a slice. -/
def Machine.reachMembers (m : Machine) (tag : Nat) : List NodeId :=
  (m.sliceMembers tag).filter m.reachable

/-- Change the master's record of an abort. -/
def Machine.modAbort (m : Machine) (tag stream : Nat) (f : AbortRec → AbortRec) : Machine :=
  { m with hly := { m.hly with aborts := m.hly.aborts.map fun a => if a.tag = tag ∧ a.stream = stream then f a else a } }

/-- An abort of a stream whose acknowledgements are all in enters its 200 µs wait (07 R235). -/
def Machine.settleAbort (m : Machine) (tag stream : Nat) : Machine :=
  m.modAbort tag stream fun a =>
    if a.stage = 0 ∧ (m.reachMembers tag).all (fun n => a.acked.contains n) then { a with stage := 1 } else a

/-- Begin an abort at the master: it is committed to the standby, and then flooded to every member, itself included (07 R235). -/
def Machine.beginAbort (m : Machine) (tag stream gen : Nat) : Machine :=
  let a : AbortRec := { tag := tag, stream := stream, gen := gen, acked := [], stage := 0 }
  let m := { m with hly := { m.hly with aborts := m.hly.aborts.filter (fun (x : AbortRec) => !(x.tag == tag && x.stream == stream)) ++ [a] } }
  m.commitThen [.send (m.sliceMembers tag) (.flowAbort tag stream ((gen + 1) % 256))]

/-- A report for abort reaches the master; reports for one stream and generation make one abort (07 R234). -/
def execFlowAbortReport (tag : TagId) (stream : StreamId) (gen : BitVec 8) (s : State) : Host.Outcome State Fault Refusal :=
  let m := s.m
  let known := m.hly.aborts.any fun a => a.tag == tag.val && a.stream == stream.val && (a.gen == gen.toNat || a.stage != 2)
  let r := m.sliceAt tag.val
  done s (if m.isMaster ∧ !known ∧ (r.state = .active ∨ r.state = .degraded ∨ r.state = .destroying) then
      (m.beginAbort tag.val stream.val gen.toNat).serve
    else m)

/-- FLOW_ABORT arrives at a member, which acknowledges it (07 R235). -/
def execFlowAbortReceive (tag : TagId) (stream : StreamId) (gen : BitVec 8) (s : State) : Host.Outcome State Fault Refusal :=
  let m := s.m
  done s ((m.takeFlowAbort tag.val stream.val gen.toNat).tell m.hly.reg.master (.abortAck tag.val stream.val gen.toNat))

/-- A member's acknowledgement reaches the master (07 R235). -/
def execAbortAckReceive (tag : TagId) (stream : StreamId) (node : NodeId) (s : State) : Host.Outcome State Fault Refusal :=
  let m := s.m.modAbort tag.val stream.val fun a =>
    { a with acked := if a.stage = 0 ∧ !(a.acked.contains node) then a.acked ++ [node] else a.acked }
  done s (m.settleAbort tag.val stream.val)

/-- 1 ms has passed without every acknowledgement: the master goes on (07 R235). -/
def execAbortAckTimeout (tag : TagId) (stream : StreamId) (s : State) : Host.Outcome State Fault Refusal :=
  done s (s.m.modAbort tag.val stream.val fun a => if a.stage = 0 then { a with stage := 1 } else a)

/-- The 200 µs wait ends: FLOW_RESUME is flooded (07 R235). -/
def execFlowResumeWait (tag : TagId) (stream : StreamId) (s : State) : Host.Outcome State Fault Refusal :=
  let m := s.m
  done s (match m.hly.aborts.find? fun a => a.tag == tag.val && a.stream == stream.val && a.stage == 1 with
    | none => m
    | some a =>
      let g := (a.gen + 1) % 256
      (m.sliceMembers tag.val).foldl (fun m n => m.tell n (.flowResume tag.val stream.val g))
        (m.modAbort tag.val stream.val fun a => { a with stage := 2 }))

/-- FLOW_RESUME arrives at a member (10 R316). -/
def execFlowResumeReceive (tag : TagId) (stream : StreamId) (gen : BitVec 8) (s : State) : Host.Outcome State Fault Refusal :=
  let r := s.m.strmAt stream.val
  done s (if (s.m.ctxAt r.ctx).base.tag = tag.val then s.m.resumeStream stream.val gen.toNat else s.m)

end Sys2Proof.Machine
end

