-- ==== Sys2Proof/Machine/Dispatch.lean ====
section
/-!
DEFINITION. The dispatch: one arm per command, each one direct call of that command's meaning.
-/
namespace Sys2Proof.Machine

/-- The effect of one command on everything but the queue. -/
def exec (i : Instr) (s : State) : Host.Outcome State Fault Refusal :=
  match i with
  | .powerGood => Sys2Proof.Machine.execPowerGood s
  | .idRead h cls cmd => Sys2Proof.Machine.execIdRead h cls cmd s
  | .bootStepEnter k inp => Sys2Proof.Machine.execBootStepEnter k inp s
  | .bootStepLimit k => Sys2Proof.Machine.execBootStepLimit k s
  | .trainDeadline => Sys2Proof.Machine.execTrainDeadline s
  | .bootAltClr => Sys2Proof.Machine.execBootAltClr s
  | .portDetectSignal p => Sys2Proof.Machine.execPortDetectSignal p s
  | .portSyncLock p locked => Sys2Proof.Machine.execPortSyncLock p locked s
  | .portSyncTimeout p => Sys2Proof.Machine.execPortSyncTimeout p s
  | .portDeskewDone p aligned => Sys2Proof.Machine.execPortDeskewDone p aligned s
  | .portDeskewTimeout p => Sys2Proof.Machine.execPortDeskewTimeout p s
  | .ts2Receive p block => Sys2Proof.Machine.execTs2Receive p block s
  | .portExchangeTimeout p => Sys2Proof.Machine.execPortExchangeTimeout p s
  | .portEqualiseDone p converged => Sys2Proof.Machine.execPortEqualiseDone p converged s
  | .portVerifyDone p rxGood far delayNs => Sys2Proof.Machine.execPortVerifyDone p rxGood far delayNs s
  | .trainingSignalLoss p => Sys2Proof.Machine.execTrainingSignalLoss p s
  | .holdoffExpiry p cable => Sys2Proof.Machine.execHoldoffExpiry p cable s
  | .portDownSignalReturn p cable => Sys2Proof.Machine.execPortDownSignalReturn p cable s
  | .laneLockLoss p good => Sys2Proof.Machine.execLaneLockLoss p good s
  | .fecThreshold p count good => Sys2Proof.Machine.execFecThreshold p count good s
  | .retrainReqRepeat p => Sys2Proof.Machine.execRetrainReqRepeat p s
  | .retrainReqReceive p word => Sys2Proof.Machine.execRetrainReqReceive p word s
  | .retrainComplete p rxGood farRxGood => Sys2Proof.Machine.execRetrainComplete p rxGood farRxGood s
  | .retrainTimeout p => Sys2Proof.Machine.execRetrainTimeout p s
  | .envelopeReceive p frame trailer fecSymbols fecBad => Sys2Proof.Machine.execEnvelopeReceive p frame trailer fecSymbols fecBad s
  | .ackReceive p word => Sys2Proof.Machine.execAckReceive p word s
  | .nakReceive p word => Sys2Proof.Machine.execNakReceive p word s
  | .nakRepeat p => Sys2Proof.Machine.execNakRepeat p s
  | .replayTimeout p => Sys2Proof.Machine.execReplayTimeout p s
  | .creditReceive p word => Sys2Proof.Machine.execCreditReceive p word s
  | .goingDownReceive p word => Sys2Proof.Machine.execGoingDownReceive p word s
  | .linkSignalLoss p => Sys2Proof.Machine.execLinkSignalLoss p s
  | .fullTrainReceive p cable => Sys2Proof.Machine.execFullTrainReceive p cable s
  | .stayFail l replays corrected => Sys2Proof.Machine.execStayFail l replays corrected s
  | .shrCntClr p => Sys2Proof.Machine.execShrCntClr p s
  | .syncExchange ok offset => Sys2Proof.Machine.execSyncExchange ok offset s
  | .parentLinkFail => Sys2Proof.Machine.execParentLinkFail s
  | .holdoverExpiry => Sys2Proof.Machine.execHoldoverExpiry s
  | .parentNamed p root => Sys2Proof.Machine.execParentNamed p root s
  | .refclkLoss => Sys2Proof.Machine.execRefclkLoss s
  | .refclkReturn => Sys2Proof.Machine.execRefclkReturn s
  | .timeNowLoRead f => Sys2Proof.Machine.execTimeNowLoRead f s
  | .uvMonitorTrip d => Sys2Proof.Machine.execUvMonitorTrip d s
  | .uvMonitorClear d => Sys2Proof.Machine.execUvMonitorClear d s
  | .otMonitorTrip d => Sys2Proof.Machine.execOtMonitorTrip d s
  | .otMonitorClear d => Sys2Proof.Machine.execOtMonitorClear d s
  | .thermalHoldStart d => Sys2Proof.Machine.execThermalHoldStart d s
  | .thermalHoldEnd d => Sys2Proof.Machine.execThermalHoldEnd d s
  | .thermalTrip d => Sys2Proof.Machine.execThermalTrip d s
  | .helloSend p => Sys2Proof.Machine.execHelloSend p s
  | .helloReceive p h => Sys2Proof.Machine.execHelloReceive p h s
  | .linkStateRecordReceive p r => Sys2Proof.Machine.execLinkStateRecordReceive p r s
  | .discoverySettle => Sys2Proof.Machine.execDiscoverySettle s
  | .masterAnnounceReceive node => Sys2Proof.Machine.execMasterAnnounceReceive node s
  | .standbyAckReceive seq => Sys2Proof.Machine.execStandbyAckReceive seq s
  | .beaconSend => Sys2Proof.Machine.execBeaconSend s
  | .beaconCountReceive count => Sys2Proof.Machine.execBeaconCountReceive count s
  | .componentJoin gen epoch recs => Sys2Proof.Machine.execComponentJoin gen epoch recs s
  | .beaconTimeout count => Sys2Proof.Machine.execBeaconTimeout count s
  | .holdDownExpiry p => Sys2Proof.Machine.execHoldDownExpiry p s
  | .packageAbsent node => Sys2Proof.Machine.execPackageAbsent node s
  | .epochCollectClose => Sys2Proof.Machine.execEpochCollectClose s
  | .epochPrepareReceive prs => Sys2Proof.Machine.execEpochPrepareReceive prs s
  | .epochReadyReceive node epoch => Sys2Proof.Machine.execEpochReadyReceive node epoch s
  | .epochCommitReceive epoch time => Sys2Proof.Machine.execEpochCommitReceive epoch time s
  | .epochSwitch => Sys2Proof.Machine.execEpochSwitch s
  | .oldBankRelease => Sys2Proof.Machine.execOldBankRelease s
  | .epochReadyTimeout node => Sys2Proof.Machine.execEpochReadyTimeout node s
  | .epochAbortReceive epoch => Sys2Proof.Machine.execEpochAbortReceive epoch s
  | .halyardRestartTimeout => Sys2Proof.Machine.execHalyardRestartTimeout s
  | .topoRead src => Sys2Proof.Machine.execTopoRead src s
  | .portDisable src => Sys2Proof.Machine.execPortDisable src s
  | .portEnable src cable => Sys2Proof.Machine.execPortEnable src cable s
  | .portFullTrain src cable => Sys2Proof.Machine.execPortFullTrain src cable s
  | .portTestRetrain src => Sys2Proof.Machine.execPortTestRetrain src s
  | .epochQuery src => Sys2Proof.Machine.execEpochQuery src s
  | .masterHandover src => Sys2Proof.Machine.execMasterHandover src s
  | .masterConfirm src => Sys2Proof.Machine.execMasterConfirm src s
  | .packageDrain src => Sys2Proof.Machine.execPackageDrain src s
  | .packageRestore src => Sys2Proof.Machine.execPackageRestore src s
  | .rigWrite src => Sys2Proof.Machine.execRigWrite src s
  | .rigRead src => Sys2Proof.Machine.execRigRead src s
  | .hlyCmdResult mctp reply => Sys2Proof.Machine.execHlyCmdResult mctp reply s
  | .hlyCmdNoMaster mctp => Sys2Proof.Machine.execHlyCmdNoMaster mctp s
  | .plannerJobStart => Sys2Proof.Machine.execPlannerJobStart s
  | .plannerRound => Sys2Proof.Machine.execPlannerRound s
  | .plannerDeadline => Sys2Proof.Machine.execPlannerDeadline s
  | .tkpDryrun src host => Sys2Proof.Machine.execTkpDryrun src host s
  | .tkpResvRead src => Sys2Proof.Machine.execTkpResvRead src s
  | .tkpSlotsRead src => Sys2Proof.Machine.execTkpSlotsRead src s
  | .tkpBiasSet src => Sys2Proof.Machine.execTkpBiasSet src s
  | .tkpHeadroomSet src => Sys2Proof.Machine.execTkpHeadroomSet src s
  | .tkpDeadlineSet src => Sys2Proof.Machine.execTkpDeadlineSet src s
  | .tkpReplanAll src => Sys2Proof.Machine.execTkpReplanAll src s
  | .tkpRampRead src => Sys2Proof.Machine.execTkpRampRead src s
  | .sliceCreate src host => Sys2Proof.Machine.execSliceCreate src host s
  | .sliceDestroy src => Sys2Proof.Machine.execSliceDestroy src s
  | .sliceQuery src => Sys2Proof.Machine.execSliceQuery src s
  | .sliceList src => Sys2Proof.Machine.execSliceList src s
  | .sliceLayout src => Sys2Proof.Machine.execSliceLayout src s
  | .slicePeer src => Sys2Proof.Machine.execSlicePeer src s
  | .sliceReserve src host => Sys2Proof.Machine.execSliceReserve src host s
  | .sliceContextsFinal tag node => Sys2Proof.Machine.execSliceContextsFinal tag node s
  | .sliceScrubReport tag node failed => Sys2Proof.Machine.execSliceScrubReport tag node failed s
  | .sliceEventReceive e => Sys2Proof.Machine.execSliceEventReceive e s
  | .ctxCreate => Sys2Proof.Machine.execCtxCreate s
  | .ctxDestroy => Sys2Proof.Machine.execCtxDestroy s
  | .contextScrubComplete c => Sys2Proof.Machine.execContextScrubComplete c s
  | .ctxFree => Sys2Proof.Machine.execCtxFree s
  | .partitionScrubComplete n => Sys2Proof.Machine.execPartitionScrubComplete n s
  | .scrubQuarantine n stack => Sys2Proof.Machine.execScrubQuarantine n stack s
  | .minuteLatch => Sys2Proof.Machine.execMinuteLatch s
  | .ctxSnap c => Sys2Proof.Machine.execCtxSnap c s
  | .energyAttribute dieUj hbmUj otherUj => Sys2Proof.Machine.execEnergyAttribute dieUj hbmUj otherUj s
  | .frameForward d => Sys2Proof.Machine.execFrameForward d s
  | .frameAgeExpiry d => Sys2Proof.Machine.execFrameAgeExpiry d s
  | .detourResend d => Sys2Proof.Machine.execDetourResend d s
  | .filterRecordExpiry d src stream => Sys2Proof.Machine.execFilterRecordExpiry d src stream s
  | .reqReceive d => Sys2Proof.Machine.execReqReceive d s
  | .reqAnswerDeadline src txn => Sys2Proof.Machine.execReqAnswerDeadline src txn s
  | .repReceive d => Sys2Proof.Machine.execRepReceive d s
  | .reqExpired txn => Sys2Proof.Machine.execReqExpired txn s
  | .msgReceive d => Sys2Proof.Machine.execMsgReceive d s
  | .collFrameReceive d => Sys2Proof.Machine.execCollFrameReceive d s
  | .lateStepReport tag node cause stream gen => Sys2Proof.Machine.execLateStepReport tag node cause stream gen s
  | .flowAbortReport tag stream gen => Sys2Proof.Machine.execFlowAbortReport tag stream gen s
  | .flowAbortReceive tag stream gen => Sys2Proof.Machine.execFlowAbortReceive tag stream gen s
  | .abortAckReceive tag stream node => Sys2Proof.Machine.execAbortAckReceive tag stream node s
  | .abortAckTimeout tag stream => Sys2Proof.Machine.execAbortAckTimeout tag stream s
  | .flowResumeWait tag stream => Sys2Proof.Machine.execFlowResumeWait tag stream s
  | .flowResumeReceive tag stream gen => Sys2Proof.Machine.execFlowResumeReceive tag stream gen s
  | .bind c => Sys2Proof.Machine.execBind c s
  | .unbind c => Sys2Proof.Machine.execUnbind c s
  | .restart c => Sys2Proof.Machine.execRestart c s
  | .ctxXcArmLo c f value => Sys2Proof.Machine.execCtxXcArmLo c f value s
  | .ctxXcArmHi c f value => Sys2Proof.Machine.execCtxXcArmHi c f value s
  | .stepArm c => Sys2Proof.Machine.execStepArm c s
  | .stepRelease c => Sys2Proof.Machine.execStepRelease c s
  | .stepComplete c => Sys2Proof.Machine.execStepComplete c s
  | .contractViolation c => Sys2Proof.Machine.execContractViolation c s
  | .mma l => Sys2Proof.Machine.execMma l s
  | .drain l => Sys2Proof.Machine.execDrain l s
  | .vop l => Sys2Proof.Machine.execVop l s
  | .vcvt l => Sys2Proof.Machine.execVcvt l s
  | .vld l => Sys2Proof.Machine.execVld l s
  | .vst l => Sys2Proof.Machine.execVst l s
  | .hrd l => Sys2Proof.Machine.execHrd l s
  | .hwr l => Sys2Proof.Machine.execHwr l s
  | .send l => Sys2Proof.Machine.execSend l s
  | .recv l => Sys2Proof.Machine.execRecv l s
  | .wait l => Sys2Proof.Machine.execWait l s
  | .loop l => Sys2Proof.Machine.execLoop l s
  | .tileEnd l => Sys2Proof.Machine.execTileEnd l s
  | .tileStoreUncorr l line corrected => Sys2Proof.Machine.execTileStoreUncorr l line corrected s
  | .tileRetire l => Sys2Proof.Machine.execTileRetire l s
  | .pageGrant => Sys2Proof.Machine.execPageGrant s
  | .pageReturn => Sys2Proof.Machine.execPageReturn s
  | .pageScrubComplete => Sys2Proof.Machine.execPageScrubComplete s
  | .hbmUncorrectable addr corrected => Sys2Proof.Machine.execHbmUncorrectable addr corrected s
  | .streamOpen c => Sys2Proof.Machine.execStreamOpen c s
  | .streamClose c => Sys2Proof.Machine.execStreamClose c s
  | .streamQuery c => Sys2Proof.Machine.execStreamQuery c s
  | .streamHead c => Sys2Proof.Machine.execStreamHead c s
  | .streamHelloReceive => Sys2Proof.Machine.execStreamHelloReceive s
  | .streamHelloRepeat n => Sys2Proof.Machine.execStreamHelloRepeat n s
  | .streamCreditReceive => Sys2Proof.Machine.execStreamCreditReceive s
  | .streamCreditPeriodic n => Sys2Proof.Machine.execStreamCreditPeriodic n s
  | .streamClosingEnd n => Sys2Proof.Machine.execStreamClosingEnd n s
  | .hostLinkTrain n t => Sys2Proof.Machine.execHostLinkTrain n t s
  | .h1LinkDown => Sys2Proof.Machine.execH1LinkDown s
  | .windowRead f offset length => Sys2Proof.Machine.execWindowRead f offset length s
  | .windowWrite f offset data poisoned => Sys2Proof.Machine.execWindowWrite f offset data poisoned s
  | .windowAtomic f offset => Sys2Proof.Machine.execWindowAtomic f offset s
  | .watchEntrySet n lo => Sys2Proof.Machine.execWatchEntrySet n lo s
  | .watchSnoop n host => Sys2Proof.Machine.execWatchSnoop n host s
  | .vfFlr n => Sys2Proof.Machine.execVfFlr n s
  | .pfFlr e => Sys2Proof.Machine.execPfFlr e s
  | .vfEnableClear enable numVfs => Sys2Proof.Machine.execVfEnableClear enable numVfs s
  | .hostReadTimeout r => Sys2Proof.Machine.execHostReadTimeout r s
  | .flushReadComplete c q => Sys2Proof.Machine.execFlushReadComplete c q s
  | .ceQueueEnable c q f cfg => Sys2Proof.Machine.execCeQueueEnable c q f cfg s
  | .ceQueueDisable c q f => Sys2Proof.Machine.execCeQueueDisable c q f s
  | .ceQueueResume c q f => Sys2Proof.Machine.execCeQueueResume c q f s
  | .ceDoorbell c q f pi => Sys2Proof.Machine.execCeDoorbell c q f pi s
  | .ceCommandFetch c q host => Sys2Proof.Machine.execCeCommandFetch c q host s
  | .copy c q => Sys2Proof.Machine.execCopy c q s
  | .fill c q => Sys2Proof.Machine.execFill c q s
  | .flagOnly c q => Sys2Proof.Machine.execFlagOnly c q s
  | .msg c q => Sys2Proof.Machine.execMsg c q s
  | .reqWrite c q => Sys2Proof.Machine.execReqWrite c q s
  | .reqRead c q => Sys2Proof.Machine.execReqRead c q s
  | .reqFetchAdd c q => Sys2Proof.Machine.execReqFetchAdd c q s
  | .reqSignal c q => Sys2Proof.Machine.execReqSignal c q s
  | .ceSegment e host => Sys2Proof.Machine.execCeSegment e host s
  | .ceCommandComplete c q => Sys2Proof.Machine.execCeCommandComplete c q s
  | .reefMeasure dieW otherW => Sys2Proof.Machine.execReefMeasure dieW otherW s
  | .capLoop => Sys2Proof.Machine.execCapLoop s
  | .contractIdle d => Sys2Proof.Machine.execContractIdle d s
  | .vrFault d => Sys2Proof.Machine.execVrFault d s
  | .rampWindowOpen n => Sys2Proof.Machine.execRampWindowOpen n s
  | .rampWindowClose n => Sys2Proof.Machine.execRampWindowClose n s
  | .preRampComplete n => Sys2Proof.Machine.execPreRampComplete n s
  | .riseExcess n => Sys2Proof.Machine.execRiseExcess n s
  | .ballastHold => Sys2Proof.Machine.execBallastHold s
  | .ballastHoldEnd => Sys2Proof.Machine.execBallastHoldEnd s
  | .trayReport h body => Sys2Proof.Machine.execTrayReport h body s
  | .facilityStale => Sys2Proof.Machine.execFacilityStale s
  | .facilityFallback => Sys2Proof.Machine.execFacilityFallback s
  | .notice h cause => Sys2Proof.Machine.execNotice h cause s
  | .ttlRound => Sys2Proof.Machine.execTtlRound s
  | .promotionWindowExpiry n => Sys2Proof.Machine.execPromotionWindowExpiry n s
  | .reactionQuietExpiry slot => Sys2Proof.Machine.execReactionQuietExpiry slot s
  | .faultNLowEnd => Sys2Proof.Machine.execFaultNLowEnd s
  | .ttlPinHoldWrite hold => Sys2Proof.Machine.execTtlPinHoldWrite hold s
  | .ttlForce source => Sys2Proof.Machine.execTtlForce source s
  | .ttlFirstClear w mask => Sys2Proof.Machine.execTtlFirstClear w mask s
  | .luffTileExpiry l => Sys2Proof.Machine.execLuffTileExpiry l s
  | .tileSelfTestDone l pass => Sys2Proof.Machine.execTileSelfTestDone l pass s
  | .luffCeExpiry e reset => Sys2Proof.Machine.execLuffCeExpiry e reset s
  | .luffLinkExpiry p => Sys2Proof.Machine.execLuffLinkExpiry p s
  | .luffCollExpiry k => Sys2Proof.Machine.execLuffCollExpiry k s
  | .collUnitReset n ok => Sys2Proof.Machine.execCollUnitReset n ok s
  | .luffHlyExpiry t => Sys2Proof.Machine.execLuffHlyExpiry t s
  | .inStreamStall n => Sys2Proof.Machine.execInStreamStall n s
  | .contextReset c => Sys2Proof.Machine.execContextReset c s
  | .partitionReset n => Sys2Proof.Machine.execPartitionReset n s
  | .packageReset => Sys2Proof.Machine.execPackageReset s
  | .fenceDrainEnd d dumpOk => Sys2Proof.Machine.execFenceDrainEnd d dumpOk s
  | .packageResetComplete => Sys2Proof.Machine.execPackageResetComplete s
  | .rungTimeout r => Sys2Proof.Machine.execRungTimeout r s
  | .genLateDrop => Sys2Proof.Machine.execGenLateDrop s
  | .dumpRearm => Sys2Proof.Machine.execDumpRearm s
  | .flashRead h off len devOk => Sys2Proof.Machine.execFlashRead h off len devOk s
  | .flashErase h off size devOk => Sys2Proof.Machine.execFlashErase h off size devOk s
  | .flashWrite h off data devOk => Sys2Proof.Machine.execFlashWrite h off data devOk s
  | .bcastOffer b => Sys2Proof.Machine.execBcastOffer b s
  | .bcastFrag h data => Sys2Proof.Machine.execBcastFrag h data s
  | .bcastEnd tag => Sys2Proof.Machine.execBcastEnd tag s
  | .bcastNack node tag ranges => Sys2Proof.Machine.execBcastNack node tag ranges s
  | .bcastNackTimer => Sys2Proof.Machine.execBcastNackTimer s
  | .bcastDone node tag => Sys2Proof.Machine.execBcastDone node tag s
  | .bcastHave node tag version => Sys2Proof.Machine.execBcastHave node tag version s
  | .bcastTimeout => Sys2Proof.Machine.execBcastTimeout s
  | .busbarRise ids hostEid t => Sys2Proof.Machine.execBusbarRise ids hostEid t s
  | .sitePowerOn s1 t => Sys2Proof.Machine.execSitePowerOn s1 t s
  | .railGood s1 t => Sys2Proof.Machine.execRailGood s1 t s
  | .railFail s1 t => Sys2Proof.Machine.execRailFail s1 t s
  | .powerOffNotice s1 => Sys2Proof.Machine.execPowerOffNotice s1 s
  | .ready s1 => Sys2Proof.Machine.execReady s1 s
  | .noticeLimitExpiry s1 => Sys2Proof.Machine.execNoticeLimitExpiry s1 s
  | .powerOffGroupFall s1 t => Sys2Proof.Machine.execPowerOffGroupFall s1 t s
  | .offTimeExpiry s1 => Sys2Proof.Machine.execOffTimeExpiry s1 s
  | .faultNEdge s1 => Sys2Proof.Machine.execFaultNEdge s1 s
  | .faultReadReply s1 pin slot low t => Sys2Proof.Machine.execFaultReadReply s1 pin slot low t s
  | .faultReadRetry s1 t => Sys2Proof.Machine.execFaultReadRetry s1 t s
  | .pinAlert s1 => Sys2Proof.Machine.execPinAlert s1 s
  | .shelfPoll modules batt soc => Sys2Proof.Machine.execShelfPoll modules batt soc s
  | .cduPoll r => Sys2Proof.Machine.execCduPoll r s
  | .coolantLimit t => Sys2Proof.Machine.execCoolantLimit t s
  | .busbarSag t => Sys2Proof.Machine.execBusbarSag t s
  | .busbarReturn t => Sys2Proof.Machine.execBusbarReturn t s
  | .cduStaleAlert t => Sys2Proof.Machine.execCduStaleAlert t s
  | .trayReportSend => Sys2Proof.Machine.execTrayReportSend s
  | .crashSummary s1 w t => Sys2Proof.Machine.execCrashSummary s1 w t s
  | .measure s1 digests tag t => Sys2Proof.Machine.execMeasure s1 digests tag t s
  | .componentIntegrity s1 nonce => Sys2Proof.Machine.execComponentIntegrity s1 nonce s
  | .resetOn s1 t => Sys2Proof.Machine.execResetOn s1 t s
  | .resetForceOff s1 => Sys2Proof.Machine.execResetForceOff s1 s
  | .resetGracefulShutdown s1 => Sys2Proof.Machine.execResetGracefulShutdown s1 s
  | .resetPowerCycle s1 => Sys2Proof.Machine.execResetPowerCycle s1 s
  | .resetForceRestart s1 => Sys2Proof.Machine.execResetForceRestart s1 s
  | .redfishGet r measured => Sys2Proof.Machine.execRedfishGet r measured s
  | .pldmSensorRead q measured => Sys2Proof.Machine.execPldmSensorRead q measured s
  | .pldmFirmwareUpdate site image copyB devOk t => Sys2Proof.Machine.execPldmFirmwareUpdate site image copyB devOk t s
  | .flashUpdate s1 image copyB devOk t => Sys2Proof.Machine.execFlashUpdate s1 image copyB devOk t s
  | .farnisRestart t => Sys2Proof.Machine.execFarnisRestart t s
  | .farnisSettingWrite w t => Sys2Proof.Machine.execFarnisSettingWrite w t s
  | .scanEnter s1 => Sys2Proof.Machine.execScanEnter s1 s
  | .scanExit s1 => Sys2Proof.Machine.execScanExit s1 s
  | .regRead h off count => Sys2Proof.Machine.execRegRead h off count s
  | .regWrite h off value => Sys2Proof.Machine.execRegWrite h off value s
  | .hlyCmd h opcode seq args => Sys2Proof.Machine.execHlyCmd h opcode seq args s
  | .dbRead h off len => Sys2Proof.Machine.execDbRead h off len s
  | .registerWrite f off a => Sys2Proof.Machine.execRegisterWrite f off a s
  | .extest s1 d => Sys2Proof.Machine.execExtest s1 d s
  | .idcode s1 d => Sys2Proof.Machine.execIdcode s1 d s
  | .samplePreload s1 d => Sys2Proof.Machine.execSamplePreload s1 d s
  | .extestPulse s1 d => Sys2Proof.Machine.execExtestPulse s1 d s
  | .extestTrain s1 d => Sys2Proof.Machine.execExtestTrain s1 d s
  | .highz s1 d => Sys2Proof.Machine.execHighz s1 d s
  | .bypass s1 d => Sys2Proof.Machine.execBypass s1 d s
  | .scanExtChange level trstLow => Sys2Proof.Machine.execScanExtChange level trstLow s
  | .slot12vFall => Sys2Proof.Machine.execSlot12vFall s
  | .cardC4PowerOff => Sys2Proof.Machine.execCardC4PowerOff s
  | .epochPrepareGuard => Sys2Proof.Machine.execEpochPrepareGuard s
  | .slotStart p => Sys2Proof.Machine.execSlotStart p s
  | .hbmLineComplete l k => Sys2Proof.Machine.execHbmLineComplete l k s
  | .tokenAcknowledge c ch => Sys2Proof.Machine.execTokenAcknowledge c ch s
  | .domainResetEnd d => Sys2Proof.Machine.execDomainResetEnd d s
  | .beaconReceive node counts => Sys2Proof.Machine.execBeaconReceive node counts s
  | .standbyReplicate seq r => Sys2Proof.Machine.execStandbyReplicate seq r s
  | .generationDeltaReceive h nodes links => Sys2Proof.Machine.execGenerationDeltaReceive h nodes links s
  | .helloStop node => Sys2Proof.Machine.execHelloStop node s
  | .rampLimitForward node r => Sys2Proof.Machine.execRampLimitForward node r s
  | .trayFaultHoldExpiry low => Sys2Proof.Machine.execTrayFaultHoldExpiry low s
  | .slot12vRise aux => Sys2Proof.Machine.execSlot12vRise aux s
  | .extTrstNFall => Sys2Proof.Machine.execExtTrstNFall s

end Sys2Proof.Machine
end

