-- ==== Sys2Proof/Safety.lean ====
section
/-!
DEFINITION. The terms claims are stated in: which blocks of the machine a command leaves alone, what a command completes with, the
canonical form of the memories, a safe run, and the results that several commands share.
-/
namespace Sys2Proof.Machine

/-- A block of the machine: one field of `Machine`. -/
inductive Area where
  /-- strap pins -/
  | pins
  /-- fuses -/
  | fuse
  /-- bring-up and the boot journal -/
  | boot
  /-- the timebase -/
  | time
  /-- the die monitors -/
  | corner
  /-- links and ports -/
  | shr
  /-- the forwarding engines -/
  | fwd
  /-- the sending side's sequence numbers -/
  | txSeq
  /-- outstanding requests -/
  | txn
  /-- collectives that run -/
  | coll
  /-- failed collective units -/
  | collFailed
  /-- logical tiles and their stores -/
  | tiles
  /-- the tile map -/
  | tileMap
  /-- the physical tiles -/
  | tilePhys
  /-- HBM and its page map -/
  | hbm
  /-- the streams -/
  | strm
  /-- the progress counters, resets and the crash summary -/
  | luff
  /-- Halyard -/
  | hly
  /-- the planner -/
  | tkp
  /-- the master's slices -/
  | slc
  /-- the partitions and the event queue -/
  | part
  /-- the context pages -/
  | ctx
  /-- CTX_CMD -/
  | ctxCmd
  /-- Telltale -/
  | ttl
  /-- the access-error record -/
  | acc
  /-- power control -/
  | reef
  /-- the host links, windows and watches -/
  | hst
  /-- the copy engines -/
  | eng
  /-- the interrupt vectors -/
  | msix
  /-- host memory -/
  | hostMem
  /-- the flash device -/
  | flash
  /-- Farnis -/
  | far
  /-- the scan chains -/
  | scan
  /-- the card's power controller -/
  | card
  /-- the counter of free values -/
  | free
  /-- what has been sent -/
  | out
  deriving DecidableEq, Repr

/-- The blocks that lose what they hold when the package's power goes (18 R521, Table 18.8): all but the straps and fuses, the flash
device, host memory, Farnis, the scan chains, the card's controller, and the model's own two. -/
def Area.volatile : List Area :=
  [.boot, .time, .corner, .shr, .fwd, .txSeq, .txn, .coll, .collFailed, .tiles, .tileMap, .tilePhys, .hbm, .strm, .luff, .hly, .tkp,
   .slc, .part, .ctx, .ctxCmd, .ttl, .acc, .reef, .hst, .eng, .msix]

/-- The blocks that the loss of power clears, and the listed ones. -/
abbrev Area.lostAnd (l : List Area) : List Area := Area.volatile ++ l

/-- Two machines hold the same in one block. -/
def Machine.agrees (m m' : Machine) : Area → Prop
  | .pins => m'.pins = m.pins
  | .fuse => m'.fuse = m.fuse
  | .boot => m'.boot = m.boot
  | .time => m'.time = m.time
  | .corner => m'.corner = m.corner
  | .shr => m'.shr = m.shr
  | .fwd => m'.fwd = m.fwd
  | .txSeq => m'.txSeq = m.txSeq
  | .txn => m'.txn = m.txn
  | .coll => m'.coll = m.coll
  | .collFailed => m'.collFailed = m.collFailed
  | .tiles => m'.tiles = m.tiles
  | .tileMap => m'.tileMap = m.tileMap
  | .tilePhys => m'.tilePhys = m.tilePhys
  | .hbm => m'.hbm = m.hbm
  | .strm => m'.strm = m.strm
  | .luff => m'.luff = m.luff
  | .hly => m'.hly = m.hly
  | .tkp => m'.tkp = m.tkp
  | .slc => m'.slc = m.slc
  | .part => m'.part = m.part
  | .ctx => m'.ctx = m.ctx
  | .ctxCmd => m'.ctxCmd = m.ctxCmd
  | .ttl => m'.ttl = m.ttl
  | .acc => m'.acc = m.acc
  | .reef => m'.reef = m.reef
  | .hst => m'.hst = m.hst
  | .eng => m'.eng = m.eng
  | .msix => m'.msix = m.msix
  | .hostMem => m'.hostMem = m.hostMem
  | .flash => m'.flash = m.flash
  | .far => m'.far = m.far
  | .scan => m'.scan = m.scan
  | .card => m'.card = m.card
  | .free => m'.free = m.free
  | .out => m'.out = m.out

/-- Every block but the listed ones is as it was. -/
structure Kept (w : List Area) (m m' : Machine) : Prop where
  keeps : ∀ b, b ∉ w → m.agrees m' b

/-- The command completes: it answers a next state, the commands behind it still wait, and the machine then satisfies `p`. -/
def Completes (c : Instr) (s : State) (p : Machine → Prop) : Prop :=
  ∃ t, exec c s = .next t ∧ t.pending = s.pending ∧ p t.m

/-- A command's frame: when it completes, only the listed blocks may differ. -/
def TouchesOnly (c : Instr) (w : List Area) : Prop := ∀ s t, exec c s = .next t → Kept w s.m t.m

/-- The addressed memories stand in canonical form: host memory, the flash device and HBM. -/
def Machine.memWf (m : Machine) : Bool :=
  twf Config.blank m.hostMem && twf Config.erased m.flash && twf Config.blank m.hbm.bytes

/-- Whether a command names only addresses that exist: HBM_UNCORRECTABLE is the one command that can name a device address (10 R298). -/
def Machine.admits (m : Machine) : Instr → Bool
  | .hbmUncorrectable addr _ => decide (addr.toNat / pageBytes < m.totalPages)
  | _ => true

/-- A safe state: the command at the front of the queue, if there is one, is admitted. -/
def State.safe (s : State) : Bool :=
  match s.pending with
  | [] => true
  | c :: _ => s.m.admits c

/-- Argument words as a command record: what a command's checks of its arguments read. -/
def argRec (args : List Word) : HlyCmdRec :=
  { src := .mailbox, opcode := 0, seq := 0, podSeq := 0, args := args, data := [], cable := none }

/-- A master with no standby, no other command in hand or waiting and no action of one left: it executes a command at once, and commits its state at
once. -/
def Machine.soleMaster (m : Machine) : Bool :=
  m.isMaster && m.hly.reg.standby == 0xFFFF && m.hly.cur.isNone && m.hly.waiting.isEmpty && m.hly.repl.actions.isEmpty

/-- A frame bound for this pod, no sync frame and not from a Backstay link, that the checks of a frame let through (07 R218): well formed,
within its lifetime, of a held bank and a live tag, and not in transit through a package that is not admitted. -/
def Machine.checked (m : Machine) (rx : RxFrame) : Bool :=
  let f := rx.frame
  !(malformed f) && nodePod (frDst f) == nodePod m.node && !(m.agedOut f rx.since) &&
  !(rx.port.any fun p => isBackstay (m.port p).stat) && frType f != 1 && m.bankHeld f &&
  tagOk (m.bank (frEpoch f)) rx &&
  (frDst f == m.node || rx.port.isNone || m.hly.reg.admitted)

/-- A package in a pod that has a master elsewhere. -/
def Machine.member (m : Machine) : Bool := !m.isMaster && m.hly.reg.master != 0xFFFF && m.hly.reg.master != m.node

/-! ### What claims say of the commands -/

/-- A mask with one bit written: bit `d` is now `b`, every other bit is as it was. -/
def bitWritten {n : Nat} (old new : BitVec n) (d : Nat) (b : Bool) : Prop := ∀ j, bitAt new j = if j = d then b else bitAt old j

/-- The command does nothing: it completes and leaves the whole state as it was. -/
def Ignored (c : Instr) (s : State) : Prop := exec c s = .next s

/-- Every port but `p` is as it was. -/
def Machine.otherPorts (m m' : Machine) (p : Nat) : Prop := ∀ q, q ≠ p → m'.port q = m.port q

/-- A port after a failed training attempt: HOLDOFF with the reason, no generation and no lanes in use, one more attempt. -/
def failedPort (r : PortRec) (reason : Nat) : PortRec :=
  { r with stat := idleStat r.stat .holdoff reason, train := { r.train with attempts := r.train.attempts + 1 } }

/-- A port after hard loss: as after a failed attempt, its link numbers, credits and frames gone, the loss counted. -/
def lostPort (r : PortRec) (reason : Nat) : PortRec :=
  { failedPort (resetLink r) reason with cnt := { r.cnt with loss := satAdd32 r.cnt.loss 1 } }

/-- A port has declared hard loss: it is in HOLDOFF with the reason, and every frame it held moved to its die's detour queue as far as
that has room. -/
def Machine.lostLink (m m' : Machine) (p reason : Nat) : Prop :=
  m'.port p = lostPort (m.port p) reason ∧ m.otherPorts m' p ∧
  (m'.fwdAt (dieOfPort p)).detq = (m.fwdAt (dieOfPort p)).detq ++
    (heldFrames (m.port p)).take (detqSize - (m.fwdAt (dieOfPort p)).detq.length)

/-- What was sent in answer to a member's command: one reply, with its status, results and bytes for the host's buffer. -/
def Machine.answered (m m' : Machine) (n : NodeId) (opcode status : Nat) (res : List Word) (data : List Byte) : Prop :=
  m'.out = m.out ++ [.mgmt n (.reply opcode status res data)]

/-- The argument words that stand in the mailbox, as a command record. -/
def Machine.boxArgs (m : Machine) : HlyCmdRec := argRec ((List.range 14).map fun i => tget 0 m.hly.box.args i)

/-- A package that takes a command from its mailbox: booted, not in rescue, no command in hand. -/
def Machine.boxOpen (m : Machine) : Bool := m.boot.on && !m.boot.rescue && !m.hly.box.busy

/-- The command a mailbox takes in. -/
def Machine.boxRec (m : Machine) (op : Nat) (seq : BitVec 8) : HlyCmdRec :=
  { src := .mailbox, opcode := op, seq := seq.toNat, podSeq := 0, args := (List.range 14).map fun i => tget 0 m.hly.box.args i,
    data := [], cable := none }

/-- The REP that answers a REQ: TAG, STREAM, TXN and GEN copied, SRC and DST swapped, the pair's next SEQ, and the status. -/
def Machine.repTo (m : Machine) (f : Frame) (status : Nat) (data : List Byte) : Frame :=
  let payload := (if nodePod (frSrc f) = nodePod m.node then [] else leBytes 8 m.time.now.toNat) ++ data
  { hdr := mkHdr 6 m.hly.reg.epoch.toNat true (frSrc f) m.node (frTag f) (frStream f) (tget 0 m.txSeq (frStream f)) (frTxn f) (frGen f)
      payload.length status
    payload := payload }

/-- A delivered REQ was answered on its I/O die: its REP waits to be forwarded, and the REQ is out of the inbox. -/
def Machine.replied (m m' : Machine) (d : IoDie) (x : Delivered) (status : Nat) (data : List Byte) : Prop :=
  (m'.fwdAt d).rx = (m.fwdAt d).rx ++ [{ port := none, vc := 4, frame := m.repTo x.frame status data, since := m.time.now, session := 0, checked := false }] ∧
  (m'.fwdAt d).inbox = (m.fwdAt d).inbox.erase x

/-- A tile went on past its word, and no other tile changed. -/
def Machine.wentOn (m m' : Machine) (l : Nat) : Prop :=
  (m'.tileAt l).pc = (m.tileAt l).advance.pc ∧ (m'.tileAt l).loops = (m.tileAt l).advance.loops ∧ (m'.tileAt l).phase = .running ∧
  ∀ k, k ≠ l → m'.tileAt k = m.tileAt k

/-- A management frame of this package waits on X0 to be forwarded. -/
def Machine.sentMgmt (m m' : Machine) (dst : NodeId) (opx : Nat) (payload : List Byte) : Prop :=
  (m'.fwdAt 0).rx = (m.fwdAt 0).rx ++ [{ port := none, vc := 0, since := m.time.now, session := 0, checked := false, frame :=
    { hdr := mkHdr 0 m.hly.reg.epoch.toNat true dst m.node 0 0 0 0 0 payload.length opx, payload := payload } }]

/-- The bytes of a table of bytes outside a range read as they did. -/
def bytesOutside (old new : Table Byte) (a n : Nat) : Prop :=
  ∀ x, x < a ∨ a + n ≤ x → tget Config.blank new x = tget Config.blank old x

/-- The status that OPEN answers (10 Table 10.7). -/
def Machine.openStatus (m : Machine) (c n : Nat) (a : Table Word) : Nat :=
  if !(m.openArgs a) then 3
  else if m.strmCheck c n ≠ 0 then m.strmCheck c n
  else if (m.strmAt n).state ≠ .closed then 5
  else if bits (tget 0 a 0) 0 3 = kindMsg ∧ !(m.ownsRange c ((tget 0 a 1).toNat + (tget 0 a 2).toNat * 2 ^ 32) (tget 0 a 3).toNat) then 6
  else 0

/-- A context's stream operation was answered with a status, and the stream table is as it was. -/
def Machine.strmRefused (m m' : Machine) (c status : Nat) : Prop :=
  (m'.ctxAt c).st = { (m.ctxAt c).st with status := status, done := true, busy := false } ∧ m'.strm = m.strm

/-- A page operation was answered with a status, and the owner map is as it was. -/
def Machine.pageRefused (m m' : Machine) (status : Nat) : Prop :=
  m'.part.page = { m.part.page with status := status, done := true, busy := false, begun := false } ∧ m'.hbm = m.hbm

/-- A queue's command that begins now: of an opcode, not started, and its engine's turn is its queue's. -/
def Machine.begins (m : Machine) (c q op : Nat) (k : CeCmd) : Prop :=
  (m.queue c q).cur = some k ∧ k.op = op ∧ k.started = false ∧ m.turn k.engine = some (c, q)

/-- The bytes of the segment that a COPY or FILL moves next: to the next 4 KiB boundary of either end (12 R348). -/
def CeCmd.segLen (k : CeCmd) : Nat :=
  min (k.len - k.pos) (min (toBlock (k.dst + k.pos)) (if k.op = 2 ∨ k.inl = true then 4096 else toBlock (k.src + k.pos)))

/-- The status that the segment's device ranges meet (12 R357). -/
def Machine.segStatus (m : Machine) (c e : Nat) (k : CeCmd) : Nat :=
  if k.op ≠ 2 ∧ k.inl = false ∧ engineClass e ≠ 1 ∧ m.lineStatus c (k.src + k.pos) k.segLen ≠ 0 then
    m.lineStatus c (k.src + k.pos) k.segLen
  else if engineClass e ≠ 2 then m.lineStatus c (k.dst + k.pos) k.segLen else 0

/-- The data of the segment (12 R355). -/
def Machine.segData (m : Machine) (e : Nat) (k : CeCmd) : List Byte :=
  if k.op = 2 then fillBytes k.operand k.pos k.segLen
  else if k.inl = true then (k.inlineData.drop k.pos).take k.segLen
  else if engineClass e = 1 then m.hostRead (k.src + k.pos) k.segLen else m.hbmRead (k.src + k.pos) k.segLen

/-- One segment of a COPY or FILL was served: its bytes moved to host memory or HBM, or its command ended with the status. -/
def Machine.segServed (m m' : Machine) (c q e : Nat) (k : CeCmd) : Prop :=
  (m.segStatus c e k = 0 →
    (engineClass e = 2 → m'.hostRead (k.dst + k.pos) k.segLen = m.segData e k ∧
      bytesOutside m.hostMem m'.hostMem (k.dst + k.pos) k.segLen ∧ m'.hbm = m.hbm) ∧
    (engineClass e ≠ 2 → m'.hbmRead (k.dst + k.pos) k.segLen = m.segData e k ∧
      bytesOutside m.hbm.bytes m'.hbm.bytes (k.dst + k.pos) k.segLen ∧ m'.hostMem = m.hostMem) ∧
    (m'.queue c q).cur.map (fun x => (x.pos, x.moved, x.sent, x.started)) =
      some (k.pos + k.segLen, k.moved + k.segLen, decide (k.len ≤ k.pos + k.segLen), true)) ∧
  (m.segStatus c e k ≠ 0 → m'.hbm = m.hbm ∧ m'.hostMem = m.hostMem ∧
    (m'.queue c q).cur.map (fun x => (x.pos, x.status, x.sent, x.started)) = some (k.pos, m.segStatus c e k, true, true))

/-- The frame of a MSG or REQ of a command: on X0, or on X1 for another pod and then with the send time before it (07 R213, R238). -/
def Machine.ceFrame (m : Machine) (c : Nat) (k : CeCmd) (type txn gen opx : Nat) (payload : List Byte) : Frame :=
  let p := (if nodePod k.node != nodePod m.node then leBytes 8 m.time.now.toNat else []) ++ payload
  { hdr := mkHdr type m.hly.reg.epoch.toNat true k.node m.node (m.ctxAt c).base.tag k.stream (tget 0 m.txSeq k.stream) txn gen p.length opx
    payload := p }

/-- The I/O die of a command's frames. -/
def Machine.ceDie (m : Machine) (k : CeCmd) : Nat := if nodePod k.node != nodePod m.node then 1 else 0

/-- A frame of a command waits to be forwarded. -/
def Machine.ceSent (m m' : Machine) (k : CeCmd) (f : Frame) : Prop :=
  (m'.fwdAt (m.ceDie k)).rx = (m.fwdAt (m.ceDie k)).rx ++ [{ port := none, vc := classVc (frType f), frame := f, since := m.time.now, session := 0, checked := false }]

/-- How many bytes the next REQ of a command is about. -/
def Machine.reqLen (m : Machine) (k : CeCmd) : Nat :=
  if k.op = 7 then 8 else if k.op = 8 then 1 else min (k.len - k.pos) (chunkOf k.op (nodePod k.node != nodePod m.node))

/-- One REQ of a command was issued under a transaction tag, with an address and data. -/
def Machine.reqIssued (m m' : Machine) (c q : Nat) (k : CeCmd) (t remote : Nat) (data : List Byte) : Prop :=
  tget none m'.txn t = some { orphan := false, ctx := c, queue := q, stream := k.stream, gen := (m.ctxAt c).rst.gen, at_ := m.time.now, op := k.op, dst := k.node,
                              off := k.pos, len := m.reqLen k } ∧
  m.ceSent m' k (m.ceFrame c k 5 t (m.ctxAt c).rst.gen (k.op - 4) (leBytes 8 (pack [(0, remote % 2 ^ 40), (40, m.reqLen k)]) ++ data)) ∧
  (m'.queue c q).cur.map (fun x => (x.pos, x.outstanding, x.started)) = some (k.pos + m.reqLen k, k.outstanding + 1, true)

/-- Where a context's next completion record of a copy command goes: the entry at the tail, modulo the ring's size (06 R561). -/
def Machine.ceSlot (m : Machine) (c : Nat) : Nat :=
  (m.ctxAt c).ce.cqBase.toNat + 32 * ((m.ctxAt c).ce.cqTail % max 1 (m.ctxAt c).ce.cqSize)

/-- A command left its queue: its flag and record are in host memory, and the queue goes on, halts or is disabled. -/
def Machine.ceEnded (m m' : Machine) (c q : Nat) (k : CeCmd) : Prop :=
  (m'.queue c q).cur = none ∧
  (m'.queue c q).state = (if !(m.queue c q).enable then .disabled else if ceHalts k.status then .halted else (m.queue c q).state) ∧
  (m'.queue c q).haltStatus = (if ceHalts k.status then k.status else (m.queue c q).haltStatus) ∧
  (m'.queue c q).h0Last = (if k.flushed then none else (m.queue c q).h0Last) ∧
  (m'.queue c q).h1Last = (if k.flushed then none else (m.queue c q).h1Last) ∧
  (!(k.opt 4 && k.status == 0) → m'.hostRead (m.ceSlot c) 32 =
    (let rc := ceRecord k q m.ns (ceHalts k.status)
     if (m.ctxAt c).ce.cqPhase then rc.set 31 ((rc.getD 31 0) ||| 0x80) else rc)) ∧
  (k.opt 2 = true → k.inl = false → k.opt 4 = true → k.status = 0 → m'.hostRead k.flagAddr 8 = leBytes 8 k.flagValue) ∧
  (∀ x, ((k.opt 4 && k.status == 0) = true ∨ x < m.ceSlot c ∨
        m.ceSlot c + 32 ≤ x) →
      ((k.opt 2 && !k.inl) = false ∨ x < k.flagAddr ∨ k.flagAddr + 8 ≤ x) →
    tget Config.blank m'.hostMem x = tget Config.blank m.hostMem x)

/-- A luff counter expired: its EXPIRED bit is set and its count one higher (15 R420). -/
def Machine.unitExpired (m m' : Machine) (n : Nat) : Prop :=
  (tget LuffUnit.reset m'.luff.units n).expired = true ∧
  (tget LuffUnit.reset m'.luff.units n).expireCnt = satAdd 255 (tget LuffUnit.reset m.luff.units n).expireCnt 1

/-- A fence of a domain began at this instant, with a cause. -/
def Machine.fenceBegan (m m' : Machine) (d : Domain) (cause : Nat) : Prop :=
  ∃ f ∈ m'.luff.fences, f.dom = d ∧ f.cause = cause ∧ f.start = m.time.now ∧ f.drained = false

/-- A tile is closed for its reset, which began at this instant, with nothing in flight. -/
def Machine.tileClosed (m m' : Machine) (l : Nat) : Prop :=
  (m'.tileAt l).portClosed = true ∧ (m'.tileAt l).resetAt = some m.time.now ∧ (m'.tileAt l).lines = [] ∧ (m'.tileAt l).tokens = []

/-- The package takes a vendor request: it goes to its endpoint ID, is no response, and has no reserved FLAGS bit set (17 R481, R482). -/
def Machine.takes (m : Machine) (h : MsgHdr) : Bool := m.hears h && !(bitAt h.flags 0) && decide (h.flags.toNat < 4)

/-- A package that takes a request: a card notes who asked, for its own messages go there (log 47). -/
def Machine.heard (m : Machine) (h : MsgHdr) : Machine :=
  if m.pins.form then { m with card := { m.card with peer := some (h.src, h.dst) } } else m

/-- What answers a request with a status: nothing where its FLAGS want no response, else the response, and the same on the host's bus where Farnis
bridges it (17 R481, R482). -/
def Machine.replies (m : Machine) (h : MsgHdr) (cls cmd status : Nat) (body : List Byte) : List Out :=
  if bitAt h.flags 1 then []
  else .mctp h.dst h.src (mctpMsg cls cmd true false status body) ::
    (if m.bridged h then [.hostMsg h.dst h.src (mctpMsg cls cmd true false status body)] else [])

/-- A site is now as given, and every other site is as it was. -/
def Machine.siteOnly (m m' : Machine) (k : Nat) (r : SiteRec) : Prop := m'.siteAt k = r ∧ ∀ j, j ≠ k → m'.siteAt j = m.siteAt j

/-- Farnis logged one record, its oldest going when the log is full, and sent nothing else before or after it but what is listed. -/
def Machine.farLogged (m m' : Machine) (t : DWord) (type site : Nat) (data : List Byte) (sent : List Out) : Prop :=
  m'.far.seq = (m.far.seq + 1) % 4294967296 ∧
  m'.far.log = (if m.far.log.length < farLogSize then m.far.log else m.far.log.drop 1) ++ [farRecord m.far.seq t type site data] ∧
  m'.out = m.out ++ .event (farRecord m.far.seq t type site data) :: sent

/-- A site's rails are going off, with an action; a package that stood at it with its rails good has lost everything volatile. -/
def Machine.goingOff (m m' : Machine) (k : Nat) (a : PowerAct) : Prop :=
  m.siteOnly m' k { m.siteAt k with state := .poweringOff, group := 3, act := some a, faultWait := false, digests := [] } ∧
  k ∉ m'.far.order ∧
  (m.ownSite k = true → m.sitePg = true → m'.boot = .reset ∧ m'.hbm = .reset ∧ m'.hly = .reset ∧ m'.ctx = [] ∧ m'.flash = m.flash)

/-- The two reads of Telltale that Farnis sends a site (17 R490). -/
def faultReads (k : Nat) : List Out := [.farnis k (regReadMsg 0x00300140), .farnis k (regReadMsg 0x00300120)]

/-- A scan instruction's code is in the register of a site's die; every other die's register and every block but the scan chains and what
was sent are as they were. -/
def Machine.scanned (m m' : Machine) (k d code : Nat) : Prop :=
  tget irReset m'.scan.ir (2 * k + d) = code ∧ (∀ j, j ≠ 2 * k + d → tget irReset m'.scan.ir j = tget irReset m.scan.ir j) ∧
  m'.scan = { m.scan with ir := m'.scan.ir } ∧ Kept [.scan, .out] m m'

end Sys2Proof.Machine
end

