-- ==== Sys2Proof/Certificates/Slice0/Obligations.lean ====
section
/-!
DEFINITION. The statements for the provers, by chapter of the spec. `Completes c s p`: the command c, carried out in the state s, answers a
next state whose machine satisfies p, with the commands behind it still waiting; `Ignored c s`: it answers s as it was.
-/
open Sys2Proof Sys2Proof.Machine

/-- The step's one rule, and what the table's rows without bits leave. What an empty queue does is the model's choice (log 2): one nanosecond of
the timebase passes, slewed by at most one in 10,000. -/
def Obligations.StepsTakeTheFrontCommandOrLetTimeCount : Prop :=
  (∀ (c : Instr) (rest : List Instr) (s : State), s.pending = c :: rest → step s = exec c { s with pending := rest }) ∧
  (∀ (s : State), s.pending = [] → ∃ t, step s = .next t ∧ t.pending = [] ∧ Kept [.time] s.m t.m ∧
    (s.m.time.running = false → t = s) ∧
    t.m.time = { s.m.time with now := t.m.time.now, slew := t.m.time.slew, slewPhase := t.m.time.slewPhase } ∧
    (s.m.time.running = true → s.m.time.slew = 0 → t.m.time.now = s.m.time.now + 1 ∧ t.m.time.slew = 0)) ∧
  (∀ (nbits w : Nat) (s : State), decodeTableWord nbits w = none ∧ s.withFetchWord nbits w = s)

/-- No command is refused. `Machine.admits` fails only of HBM_UNCORRECTABLE on a device address beyond the map's last page (10 R298: the addresses
of the map are those of its pages), which faults as `noSuchAddress`. -/
def Obligations.AdmittedCommandsComplete : Prop :=
  (∀ (c : Instr) (s : State), s.m.admits c = true → Completes c s fun _ => True) ∧
  (∀ (addr : BitVec 48) (corrected : Bool) (s : State), s.m.totalPages ≤ addr.toNat / pageBytes →
    exec (.hbmUncorrectable addr corrected) s = .fault .noSuchAddress) ∧
  (∀ (s : State), s.safe = true → ∃ t, step s = .next t) ∧
  (∀ (s : State) (r : Refusal), step s ≠ .refused r)

/-- The addressed memories are lists of cells with rising addresses and no cell that reads as an unlisted address does: zero, or FF in the flash
(log 6). The claim is over every state that has that form, not over runs. -/
def Obligations.StepsKeepTheMemoriesCanonical : Prop :=
  ∀ (s t : State), step s = .next t → s.m.memWf = true → t.m.memWf = true

/-- The base case of `StepsKeepTheMemoriesCanonical`; that reset lists no byte is the model's choice (log 6). -/
def Obligations.ResetMemoriesAreCanonical : Prop :=
  State.reset.m.memWf = true ∧ State.reset.pending = [] ∧ State.reset.safe = true ∧ step State.reset = .next State.reset

/-- The pins are the tray's wiring and the fuses are written in manufacture (01 R23, 18 Table 18.8); the boot block latches the straps at
power-good, which the clause on STRAP says. Fuses that a command could blow the spec does not give. -/
def Obligations.StepsKeepStrapsAndFuses : Prop :=
  ∀ (s t : State), step s = .next t → t.m.pins = s.m.pins ∧ t.m.fuse = s.m.fuse

/-- 02 Table 2.11; 03 Table 3.13; 04 Tables 4.12–4.15; 05 Tables 5.9–5.11; 06 Tables 6.14, 6.17; 09 Table 9.15; 12 Table 12.7; 13 Table 13.6;
14 Tables 14.5, 14.6; 15 Table 15.11. Values the tables do not give are the model's (log 5) and no clause names one. -/
def Obligations.ResetLeavesTheStatedValues : Prop :=
  (Machine.reset.time.parentDir = 6 ∧ Machine.reset.time.now = 0 ∧ Machine.reset.hly.reg.master = 0xFFFF ∧ Machine.reset.hly.reg.standby = 0xFFFF ∧
    Machine.reset.hly.reg.epoch = 0) ∧
  (Machine.reset.tkp.resvMax = 0xE0 ∧ Machine.reset.tkp.replanUs = 300 ∧ Machine.reset.tkp.placeMs = 20 ∧ Machine.reset.tkp.lastScale = 0x100 ∧
    Machine.reset.tkp.cntJobs = 0 ∧ Machine.reset.tkp.cntDeadline = 0 ∧ Machine.reset.tkp.cntRefused = 0 ∧ Machine.reset.tkp.cntFallback = 0) ∧
  (Machine.reset.ttl.quietMs = 100 ∧ Machine.reset.ttl.limits = [0, 8, 3, 4] ∧ Machine.reset.ttl.recTotal = 0 ∧ Machine.reset.ttl.lost = 0 ∧
    Machine.reset.ttl.maskedCnt = 0 ∧
    ∀ i, (Machine.reset.src i).any = false ∧ (Machine.reset.src i).n = 0 ∧ (Machine.reset.src i).wMs = 1000 ∧ (Machine.reset.src i).total = 0) ∧
  (Machine.reset.luff.winTile = 0xC8 ∧ Machine.reset.luff.winCe = 0x1F4 ∧ Machine.reset.luff.winLink = 0xA ∧ Machine.reset.luff.winColl = 0x64 ∧
    Machine.reset.luff.winHly = 0x3E8 ∧ Machine.reset.luff.drainUs = 0x32 ∧ Machine.reset.luff.crash.valid = false) ∧
  (∀ n, (Machine.reset.port n).stat.state = .off ∧ (Machine.reset.port n).far.valid = false ∧ (Machine.reset.ctxAt n).base.life = .free ∧
    (Machine.reset.xc n).state = .unbound ∧ (Machine.reset.xc n).cqPhase = true ∧ (Machine.reset.strmAt n).state = .closed ∧
    ∀ q, (Machine.reset.queue n q).state = .disabled) ∧
  (Machine.reset.reef.cntCapHold = 0 ∧ Machine.reset.reef.cntBallastHold = 0 ∧ Machine.reset.reef.cntRiseExcess = 0 ∧ Machine.reset.boot.ready = false ∧
    Machine.reset.acc.count = 0)

/-- 19 R540, whole: the IDCODE register's four fields as the chain shifts it out. A die that is not on a live chain has no register to shift
(`BoundaryScanInstructionsEnterTheirDie`). -/
def Obligations.IdcodeShiftsOutTheDiesOwnValue : Prop :=
  ∀ (k : SiteId) (d : IoDie) (s : State), s.m.onChain k d = true → Completes (.idcode k d) s fun m =>
    ∃ w : Word, m.out = s.m.out ++ [Out.scan k d 0x01, .scanData k d w] ∧ tget irReset m.scan.ir (2 * k.val + d.val) = 0x01 ∧ bitAt w 0 = true ∧
      bits w 1 11 = 0x2A7 ∧ bits w 12 16 = (if d.val = 0 then 0x7160 else 0x7162) ∧ bits w 28 4 = bits (s.m.chainId k) 0 4

/-- 14 R399, whole, for every source and any number of landed events. That a unit number is kept in eight bits is TTL_SRC_LAST's field width
(14 Table 14.6). -/
def Obligations.LandedEventsCountInTheirSources : Prop :=
  ∀ (s : State), Completes .ttlRound s fun m => (∀ e ∈ m.ttl.landed, e.source = 532 ∨ e.source = 533) ∧ ∀ i : Nat,
    let l := s.m.ttl.landed.filter fun e => e.source == i
    (m.src i).any = ((s.m.src i).any || !l.isEmpty) ∧ (m.src i).total = l.foldl (fun n e => satAdd32 n e.count) (s.m.src i).total ∧
    (∀ e, l.getLast? = some e → (m.src i).lastCtx = e.ctx ∧ (m.src i).lastUnit = e.unit % 256) ∧
    (l = [] → (m.src i).lastCtx = (s.m.src i).lastCtx ∧ (m.src i).lastUnit = (s.m.src i).lastUnit)

/-- The frames of the 49 commands whose rows cite rules of chapters 01, 02, 13, 16. `TouchesOnly c w`: when c completes, every block of the machine
but the listed ones is as it was; `Area.lostAnd` adds to the list the blocks that the loss of power clears (18 R521). -/
def Obligations.FramesOfPowerLinksBootAndPackage : Prop :=
  (TouchesOnly .powerGood (Area.lostAnd [.flash])) ∧
  (∀ (h : MsgHdr) (cls cmd : BitVec 8), TouchesOnly (.idRead h cls cmd) ([.card, .out])) ∧
  (∀ (k : Fin 41) (inp : BootInputs), TouchesOnly (.bootStepEnter k inp) ([.boot, .time, .shr, .tiles, .tileMap, .tilePhys, .hbm, .hly, .tkp, .slc,
      .ttl, .reef, .flash, .out])) ∧
  (∀ (k : Fin 41), TouchesOnly (.bootStepLimit k) ([.boot, .time, .hly, .tkp, .slc, .ttl, .flash, .out])) ∧
  (TouchesOnly .trainDeadline ([.boot, .time, .hly, .tkp, .slc, .ttl, .flash, .out])) ∧
  (TouchesOnly .bootAltClr ([.boot, .ttl, .flash])) ∧
  (∀ (ok : Bool) (offset : DWord), TouchesOnly (.syncExchange ok offset) ([.boot, .time, .luff, .ttl, .flash, .out])) ∧
  (TouchesOnly .parentLinkFail ([.time])) ∧
  (TouchesOnly .holdoverExpiry ([.time, .ttl])) ∧
  (∀ (p : Port) (root : NodeId), TouchesOnly (.parentNamed p root) ([.time, .ttl, .out])) ∧
  (TouchesOnly .refclkLoss ([.time, .shr, .fwd, .hly, .tkp, .slc, .ttl, .out])) ∧
  (TouchesOnly .refclkReturn ([.time, .shr])) ∧
  (∀ (f : Func), TouchesOnly (.timeNowLoRead f) ([.time, .out])) ∧
  (∀ (d : CDie), TouchesOnly (.uvMonitorTrip d) ([.corner, .ctx, .reef])) ∧
  (∀ (d : CDie), TouchesOnly (.uvMonitorClear d) ([.corner])) ∧
  (∀ (d : CDie), TouchesOnly (.otMonitorTrip d) ([.corner, .ctx])) ∧
  (∀ (d : CDie), TouchesOnly (.otMonitorClear d) ([.corner])) ∧
  (∀ (d : CDie), TouchesOnly (.thermalHoldStart d) ([.corner])) ∧
  (∀ (d : CDie), TouchesOnly (.thermalHoldEnd d) ([.corner])) ∧
  (∀ (d : CDie), TouchesOnly (.thermalTrip d) ([.ttl])) ∧
  (∀ (src : HlySrc), TouchesOnly (.rigWrite src) ([.boot, .hly, .tkp, .ttl, .acc, .reef, .flash, .out])) ∧
  (∀ (src : HlySrc), TouchesOnly (.rigRead src) ([.hly, .acc, .out])) ∧
  (∀ (c : CtxId), TouchesOnly (.stepRelease c) ([.tiles, .ctx, .reef])) ∧
  (∀ (dieW : List Nat) (otherW : Nat), TouchesOnly (.reefMeasure dieW otherW) ([.tiles, .luff, .part, .ctx, .reef, .out])) ∧
  (TouchesOnly .capLoop ([.ttl, .reef])) ∧
  (∀ (d : CDie), TouchesOnly (.contractIdle d) ([.reef])) ∧
  (∀ (d : CDie), TouchesOnly (.vrFault d) ([.ttl, .reef])) ∧
  (∀ (i : PartId), TouchesOnly (.rampWindowOpen i) ([.reef])) ∧
  (∀ (i : PartId), TouchesOnly (.rampWindowClose i) ([.reef])) ∧
  (∀ (i : PartId), TouchesOnly (.preRampComplete i) ([.reef])) ∧
  (∀ (i : PartId), TouchesOnly (.riseExcess i) ([.ttl, .reef])) ∧
  (TouchesOnly .ballastHold ([.ttl, .reef])) ∧
  (TouchesOnly .ballastHoldEnd ([.reef])) ∧
  (∀ (h : MsgHdr) (body : BitVec 128), TouchesOnly (.trayReport h body) ([.reef, .card, .out])) ∧
  (TouchesOnly .facilityStale ([.ttl, .reef])) ∧
  (TouchesOnly .facilityFallback ([.reef])) ∧
  (∀ (h : MsgHdr) (cause : BitVec 8), TouchesOnly (.notice h cause) ([.reef, .card, .out])) ∧
  (∀ (h : MsgHdr) (off : Word) (len : BitVec 16) (devOk : Bool), TouchesOnly (.flashRead h off len devOk) ([.card, .out])) ∧
  (∀ (h : MsgHdr) (off : Word) (size : BitVec 8) (devOk : Bool), TouchesOnly (.flashErase h off size devOk) ([.ttl, .flash, .card, .free, .out])) ∧
  (∀ (h : MsgHdr) (off : Word) (data : List Byte) (devOk : Bool), TouchesOnly (.flashWrite h off data devOk) ([.ttl, .flash, .card, .free, .out])) ∧
  (∀ (b : BundleId), TouchesOnly (.bcastOffer b) ([.boot, .out])) ∧
  (∀ (h : FragHdr) (data : List Byte), TouchesOnly (.bcastFrag h data) ([.boot, .hly, .ttl, .flash, .out])) ∧
  (∀ (tag : Word), TouchesOnly (.bcastEnd tag) ([.boot, .out])) ∧
  (∀ (node : NodeId) (tag : Word) (ranges : List ChunkRange), TouchesOnly (.bcastNack node tag ranges) ([.out])) ∧
  (TouchesOnly .bcastNackTimer ([.boot, .out])) ∧
  (∀ (node : NodeId) (tag : Word), TouchesOnly (.bcastDone node tag) ([.boot, .out])) ∧
  (∀ (node : NodeId) (tag version : Word), TouchesOnly (.bcastHave node tag version) ([.boot, .out])) ∧
  (TouchesOnly .bcastTimeout ([.boot, .hly, .ttl, .flash, .out])) ∧
  (∀ (node : NodeId) (r : RampForward), TouchesOnly (.rampLimitForward node r) ([.hly, .tkp, .reef, .out]))

/-- The frames of the 44 commands whose rows cite rules of chapters 03, 07. `TouchesOnly c w`: when c completes, every block of the machine
but the listed ones is as it was; `Area.lostAnd` adds to the list the blocks that the loss of power clears (18 R521). -/
def Obligations.FramesOfPortsAndForwarding : Prop :=
  (∀ (p : Port), TouchesOnly (.portDetectSignal p) ([.shr])) ∧
  (∀ (p : Port) (locked : LaneMask), TouchesOnly (.portSyncLock p locked) ([.shr])) ∧
  (∀ (p : Port), TouchesOnly (.portSyncTimeout p) ([.shr, .hly, .tkp, .slc, .ttl, .out])) ∧
  (∀ (p : Port) (aligned : LaneMask), TouchesOnly (.portDeskewDone p aligned) ([.shr, .out])) ∧
  (∀ (p : Port), TouchesOnly (.portDeskewTimeout p) ([.shr, .hly, .tkp, .slc, .ttl, .out])) ∧
  (∀ (p : Port) (block : BitVec 128), TouchesOnly (.ts2Receive p block) ([.time, .shr, .hly, .tkp, .slc, .ttl, .out])) ∧
  (∀ (p : Port), TouchesOnly (.portExchangeTimeout p) ([.shr, .hly, .tkp, .slc, .ttl, .out])) ∧
  (∀ (p : Port) (converged : LaneMask), TouchesOnly (.portEqualiseDone p converged) ([.shr])) ∧
  (∀ (p : Port) (rxGood : LaneMask) (far : BitVec 128) (delayNs : Nat), TouchesOnly (.portVerifyDone p rxGood far delayNs) ([.shr, .hly, .tkp, .slc,
      .ttl, .out])) ∧
  (∀ (p : Port), TouchesOnly (.trainingSignalLoss p) ([.shr, .hly, .tkp, .slc, .ttl, .out])) ∧
  (∀ (p : Port) (cable : CableRead), TouchesOnly (.holdoffExpiry p cable) ([.time, .shr, .hly, .tkp, .slc, .ttl, .out])) ∧
  (∀ (p : Port) (cable : CableRead), TouchesOnly (.portDownSignalReturn p cable) ([.time, .shr, .hly, .tkp, .slc, .ttl, .out])) ∧
  (∀ (p : Port) (good : LaneMask), TouchesOnly (.laneLockLoss p good) ([.shr, .out])) ∧
  (∀ (p : Port) (count : Nat) (good : LaneMask), TouchesOnly (.fecThreshold p count good) ([.shr, .out])) ∧
  (∀ (p : Port), TouchesOnly (.retrainReqRepeat p) ([.out])) ∧
  (∀ (p : Port) (word : DWord), TouchesOnly (.retrainReqReceive p word) ([.time, .shr, .fwd, .hly, .tkp, .slc, .ttl, .out])) ∧
  (∀ (p : Port) (rxGood farRxGood : LaneMask), TouchesOnly (.retrainComplete p rxGood farRxGood) ([.time, .shr, .fwd, .hly, .tkp, .slc, .ttl,
      .out])) ∧
  (∀ (p : Port), TouchesOnly (.retrainTimeout p) ([.time, .shr, .fwd, .hly, .tkp, .slc, .ttl, .out])) ∧
  (∀ (p : Port) (frame : Frame) (trailer : DWord) (fecSymbols : Nat) (fecBad : Bool),
      TouchesOnly (.envelopeReceive p frame trailer fecSymbols fecBad) ([.shr, .fwd, .ttl, .out])) ∧
  (∀ (p : Port) (word : DWord), TouchesOnly (.ackReceive p word) ([.time, .shr, .fwd, .luff, .hly, .tkp, .slc, .ttl, .out])) ∧
  (∀ (p : Port) (word : DWord), TouchesOnly (.nakReceive p word) ([.time, .shr, .fwd, .hly, .tkp, .slc, .ttl, .out])) ∧
  (∀ (p : Port), TouchesOnly (.nakRepeat p) ([.out])) ∧
  (∀ (p : Port), TouchesOnly (.replayTimeout p) ([.shr, .ttl, .out])) ∧
  (∀ (p : Port) (word : DWord), TouchesOnly (.creditReceive p word) ([.time, .shr, .fwd, .luff, .hly, .tkp, .slc, .ttl, .out])) ∧
  (∀ (p : Port) (word : DWord), TouchesOnly (.goingDownReceive p word) ([.time, .shr, .fwd, .hly, .tkp, .slc, .ttl, .out])) ∧
  (∀ (p : Port), TouchesOnly (.linkSignalLoss p) ([.time, .shr, .fwd, .hly, .tkp, .slc, .ttl, .out])) ∧
  (∀ (p : Port) (cable : CableRead), TouchesOnly (.fullTrainReceive p cable) ([.time, .shr, .fwd, .hly, .tkp, .slc, .ttl, .out])) ∧
  (∀ (l : Fin 12) (replays : Nat) (corrected : Bool), TouchesOnly (.stayFail l replays corrected) ([.shr, .ttl])) ∧
  (∀ (p : Port), TouchesOnly (.shrCntClr p) ([.shr])) ∧
  (∀ (src : HlySrc) (cable : CableRead), TouchesOnly (.portFullTrain src cable) ([.time, .shr, .fwd, .hly, .tkp, .slc, .ttl, .acc, .out])) ∧
  (∀ (d : IoDie), TouchesOnly (.frameForward d) ([.shr, .fwd, .txSeq, .tiles, .strm, .hly, .part, .ttl, .out])) ∧
  (∀ (d : IoDie), TouchesOnly (.frameAgeExpiry d) ([.shr, .fwd, .ttl, .out])) ∧
  (∀ (d : IoDie), TouchesOnly (.detourResend d) ([.shr, .fwd, .txSeq, .tiles, .strm, .hly, .part, .ttl, .out])) ∧
  (∀ (d : IoDie) (src : NodeId) (stream : StreamId), TouchesOnly (.filterRecordExpiry d src stream) ([.fwd])) ∧
  (∀ (d : IoDie), TouchesOnly (.reqReceive d) ([.fwd, .txSeq, .hbm, .strm, .ctx])) ∧
  (∀ (d : IoDie), TouchesOnly (.repReceive d) ([.fwd, .txn, .hbm, .luff, .ctx, .ttl, .eng])) ∧
  (∀ (txn : BitVec 11), TouchesOnly (.reqExpired txn) ([.txn, .hbm, .luff, .ctx, .eng])) ∧
  (∀ (d : IoDie), TouchesOnly (.collFrameReceive d) ([.fwd, .txSeq, .coll, .tiles, .strm, .luff, .ctx, .ttl])) ∧
  (∀ (tag : TagId) (node : NodeId) (cause : BitVec 4) (stream : StreamId) (gen : BitVec 8),
      TouchesOnly (.lateStepReport tag node cause stream gen) ([.hly, .out])) ∧
  (∀ (tag : TagId) (stream : StreamId) (gen : BitVec 8), TouchesOnly (.flowAbortReport tag stream gen) ([.time, .shr, .hly, .tkp, .slc, .ttl,
      .out])) ∧
  (∀ (tag : TagId) (stream : StreamId) (gen : BitVec 8), TouchesOnly (.flowAbortReceive tag stream gen) ([.fwd, .coll, .strm, .ctx, .ttl, .out])) ∧
  (∀ (tag : TagId) (stream : StreamId) (node : NodeId), TouchesOnly (.abortAckReceive tag stream node) ([.hly])) ∧
  (∀ (tag : TagId) (stream : StreamId), TouchesOnly (.abortAckTimeout tag stream) ([.hly])) ∧
  (∀ (tag : TagId) (stream : StreamId), TouchesOnly (.flowResumeWait tag stream) ([.hly, .out]))

/-- The frames of the 66 commands whose rows cite rules of chapters 04, 05, 06. `TouchesOnly c w`: when c completes, every block of the machine
but the listed ones is as it was; `Area.lostAnd` adds to the list the blocks that the loss of power clears (18 R521). -/
def Obligations.FramesOfFabricPlannerAndTenancy : Prop :=
  (∀ (p : Port), TouchesOnly (.helloSend p) ([.out])) ∧
  (∀ (p : Port) (h : Hello), TouchesOnly (.helloReceive p h) ([.luff, .hly, .tkp, .slc, .ttl, .out])) ∧
  (∀ (p : Port) (r : LsRecord), TouchesOnly (.linkStateRecordReceive p r) ([.boot, .time, .shr, .luff, .hly, .tkp, .slc, .ttl, .flash, .out])) ∧
  (TouchesOnly .discoverySettle ([.boot, .time, .hly, .tkp, .slc, .ttl, .flash, .out])) ∧
  (∀ (node : NodeId), TouchesOnly (.masterAnnounceReceive node) ([.boot, .time, .luff, .hly, .ttl, .flash, .out])) ∧
  (∀ (seq : Nat), TouchesOnly (.standbyAckReceive seq) ([.boot, .time, .shr, .hly, .tkp, .slc, .ttl, .out])) ∧
  (TouchesOnly .beaconSend ([.out])) ∧
  (∀ (count : Nat), TouchesOnly (.beaconCountReceive count) ([.time, .shr, .luff, .hly, .tkp, .slc, .ttl, .out])) ∧
  (∀ (gen : Word) (epoch : BitVec 16) (recs : List LsRecord), TouchesOnly (.componentJoin gen epoch recs) ([.time, .shr, .hly, .tkp, .slc, .ttl,
      .out])) ∧
  (∀ (count : Nat), TouchesOnly (.beaconTimeout count) ([.boot, .time, .shr, .hly, .tkp, .slc, .ttl, .out])) ∧
  (∀ (p : Port), TouchesOnly (.holdDownExpiry p) ([.hly, .tkp, .slc, .ttl, .out])) ∧
  (∀ (node : NodeId), TouchesOnly (.packageAbsent node) ([.time, .shr, .hly, .tkp, .slc, .ttl, .out])) ∧
  (TouchesOnly .epochCollectClose ([.time, .shr, .hly, .tkp, .slc, .ttl, .out])) ∧
  (∀ (prs : List (NodeId × Prepare)), TouchesOnly (.epochPrepareReceive prs) ([.luff, .hly, .out])) ∧
  (∀ (node : NodeId) (epoch : BitVec 16), TouchesOnly (.epochReadyReceive node epoch) ([.time, .shr, .luff, .hly, .tkp, .slc, .ttl, .out])) ∧
  (∀ (epoch : BitVec 16) (time : DWord), TouchesOnly (.epochCommitReceive epoch time) ([.luff, .hly, .out])) ∧
  (TouchesOnly .epochSwitch ([.boot, .time, .shr, .fwd, .strm, .luff, .hly, .tkp, .slc, .part, .ttl, .reef, .flash, .out])) ∧
  (TouchesOnly .oldBankRelease ([.hly])) ∧
  (∀ (node : NodeId), TouchesOnly (.epochReadyTimeout node) ([.time, .shr, .hly, .tkp, .slc, .ttl, .out])) ∧
  (∀ (epoch : BitVec 16), TouchesOnly (.epochAbortReceive epoch) ([.hly])) ∧
  (∀ (src : HlySrc), TouchesOnly (.topoRead src) ([.hly, .acc, .out])) ∧
  (∀ (src : HlySrc), TouchesOnly (.portDisable src) ([.time, .shr, .fwd, .hly, .tkp, .slc, .ttl, .acc, .out])) ∧
  (∀ (src : HlySrc) (cable : CableRead), TouchesOnly (.portEnable src cable) ([.time, .shr, .hly, .tkp, .slc, .ttl, .acc, .out])) ∧
  (∀ (src : HlySrc), TouchesOnly (.portTestRetrain src) ([.time, .shr, .hly, .tkp, .slc, .ttl, .acc, .out])) ∧
  (∀ (src : HlySrc), TouchesOnly (.epochQuery src) ([.hly, .acc, .out])) ∧
  (∀ (src : HlySrc), TouchesOnly (.masterHandover src) ([.time, .shr, .hly, .tkp, .slc, .ttl, .acc, .out])) ∧
  (∀ (src : HlySrc), TouchesOnly (.masterConfirm src) ([.time, .shr, .hly, .tkp, .slc, .ttl, .acc, .out])) ∧
  (∀ (src : HlySrc), TouchesOnly (.packageDrain src) ([.time, .shr, .hly, .tkp, .slc, .ttl, .acc, .out])) ∧
  (∀ (src : HlySrc), TouchesOnly (.packageRestore src) ([.time, .shr, .hly, .tkp, .slc, .ttl, .acc, .out])) ∧
  (∀ (mctp : Bool), TouchesOnly (.hlyCmdNoMaster mctp) ([.luff, .hly, .hst, .msix, .hostMem, .out])) ∧
  (TouchesOnly .plannerJobStart ([.time, .shr, .hly, .tkp, .slc, .ttl, .out])) ∧
  (TouchesOnly .plannerRound ([.time, .shr, .luff, .hly, .tkp, .slc, .ttl, .out])) ∧
  (TouchesOnly .plannerDeadline ([.time, .shr, .luff, .hly, .tkp, .slc, .ttl, .out])) ∧
  (∀ (src : HlySrc) (host : Cells), TouchesOnly (.tkpDryrun src host) ([.time, .shr, .hly, .tkp, .slc, .ttl, .acc, .hostMem, .out])) ∧
  (∀ (src : HlySrc), TouchesOnly (.tkpResvRead src) ([.time, .shr, .hly, .tkp, .slc, .ttl, .acc, .out])) ∧
  (∀ (src : HlySrc), TouchesOnly (.tkpSlotsRead src) ([.time, .shr, .hly, .tkp, .slc, .ttl, .acc, .out])) ∧
  (∀ (src : HlySrc), TouchesOnly (.tkpBiasSet src) ([.time, .shr, .hly, .tkp, .slc, .ttl, .acc, .out])) ∧
  (∀ (src : HlySrc), TouchesOnly (.tkpHeadroomSet src) ([.time, .shr, .hly, .tkp, .slc, .ttl, .acc, .out])) ∧
  (∀ (src : HlySrc), TouchesOnly (.tkpDeadlineSet src) ([.time, .shr, .hly, .tkp, .slc, .ttl, .acc, .out])) ∧
  (∀ (src : HlySrc), TouchesOnly (.tkpReplanAll src) ([.time, .shr, .hly, .tkp, .slc, .ttl, .acc, .out])) ∧
  (∀ (src : HlySrc), TouchesOnly (.tkpRampRead src) ([.time, .shr, .hly, .tkp, .slc, .ttl, .acc, .out])) ∧
  (∀ (src : HlySrc) (host : Cells), TouchesOnly (.sliceCreate src host) ([.time, .shr, .hly, .tkp, .slc, .part, .ctx, .ttl, .acc, .hst, .msix,
      .hostMem, .out])) ∧
  (∀ (src : HlySrc), TouchesOnly (.sliceDestroy src) ([.time, .shr, .hly, .tkp, .slc, .ttl, .acc, .out])) ∧
  (∀ (src : HlySrc), TouchesOnly (.sliceQuery src) ([.time, .shr, .hly, .tkp, .slc, .ttl, .acc, .out])) ∧
  (∀ (src : HlySrc), TouchesOnly (.sliceList src) ([.time, .shr, .hly, .tkp, .slc, .ttl, .acc, .out])) ∧
  (∀ (src : HlySrc), TouchesOnly (.sliceLayout src) ([.time, .shr, .hly, .tkp, .slc, .part, .ttl, .acc, .out])) ∧
  (∀ (src : HlySrc), TouchesOnly (.slicePeer src) ([.time, .shr, .hly, .tkp, .slc, .ttl, .acc, .out])) ∧
  (∀ (src : HlySrc) (host : Cells), TouchesOnly (.sliceReserve src host) ([.time, .shr, .hly, .tkp, .slc, .ttl, .acc, .hostMem, .out])) ∧
  (∀ (tag : TagId) (node : NodeId), TouchesOnly (.sliceContextsFinal tag node) ([.time, .shr, .hbm, .hly, .tkp, .slc, .part, .ttl, .out])) ∧
  (∀ (tag : TagId) (node : NodeId) (failed : Bool), TouchesOnly (.sliceScrubReport tag node failed) ([.time, .shr, .hly, .tkp, .slc, .ttl, .out])) ∧
  (∀ (e : SliceEvent), TouchesOnly (.sliceEventReceive e) ([.fwd, .txSeq, .coll, .tiles, .strm, .luff, .part, .ctx, .ttl, .reef, .hst, .msix,
      .hostMem, .out])) ∧
  (TouchesOnly .ctxCreate ([.ctx, .ctxCmd, .ttl, .msix, .out])) ∧
  (TouchesOnly .ctxDestroy ([.fwd, .txSeq, .coll, .tiles, .strm, .luff, .ctx, .ctxCmd, .reef, .msix, .out])) ∧
  (∀ (c : CtxId), TouchesOnly (.contextScrubComplete c) ([.tiles, .hbm, .luff, .ctx, .ctxCmd, .msix, .out])) ∧
  (TouchesOnly .ctxFree ([.ctx, .ctxCmd, .msix, .out])) ∧
  (∀ (i : PartId), TouchesOnly (.partitionScrubComplete i) ([.txn, .tiles, .hbm, .strm, .part, .ttl, .hst, .msix, .hostMem, .out])) ∧
  (∀ (i : PartId) (stack : Fin 8), TouchesOnly (.scrubQuarantine i stack) ([.part, .ttl, .hst, .msix, .hostMem, .out])) ∧
  (TouchesOnly .minuteLatch ([.ctx])) ∧
  (∀ (c : CtxId), TouchesOnly (.ctxSnap c) ([.ctx])) ∧
  (∀ (dieUj : List Nat) (hbmUj otherUj : Nat), TouchesOnly (.energyAttribute dieUj hbmUj otherUj) ([.part, .ctx])) ∧
  (TouchesOnly .epochPrepareGuard ([.time, .shr, .hly, .tkp, .slc, .ttl, .out])) ∧
  (∀ (p : Port), TouchesOnly (.slotStart p) ([.shr, .out])) ∧
  (∀ (node : NodeId) (counts : List Nat), TouchesOnly (.beaconReceive node counts) ([.luff, .out])) ∧
  (∀ (seq : Nat) (r : Replica), TouchesOnly (.standbyReplicate seq r) ([.hly, .out])) ∧
  (∀ (h : DbHead) (nodes : List NodeRec) (links : List LinkRec), TouchesOnly (.generationDeltaReceive h nodes links) ([.boot, .time, .luff, .hly,
      .tkp, .slc, .ttl, .flash, .out])) ∧
  (∀ (node : NodeId), TouchesOnly (.helloStop node) ([.hly]))

/-- The frames of the 67 commands whose rows cite rules of chapters 08, 09, 10, 11, 12. `TouchesOnly c w`: when c completes,
    every block of the machine
but the listed ones is as it was; `Area.lostAnd` adds to the list the blocks that the loss of power clears (18 R521). -/
def Obligations.FramesOfTilesMemoryAndHost : Prop :=
  (∀ (d : IoDie), TouchesOnly (.msgReceive d) ([.fwd, .hbm, .strm, .ctx, .ttl])) ∧
  (∀ (tag : TagId) (stream : StreamId) (gen : BitVec 8), TouchesOnly (.flowResumeReceive tag stream gen) ([.fwd, .txSeq, .strm])) ∧
  (∀ (c : CtxId), TouchesOnly (.bind c) ([.fwd, .txSeq, .coll, .tiles, .strm, .ctx, .ttl, .msix, .out])) ∧
  (∀ (c : CtxId), TouchesOnly (.unbind c) ([.fwd, .txSeq, .coll, .tiles, .strm, .luff, .ctx, .reef, .msix, .hostMem, .out])) ∧
  (∀ (c : CtxId), TouchesOnly (.restart c) ([.tiles, .ctx, .ttl, .msix, .out])) ∧
  (∀ (c : CtxId) (f : Func) (value : Word), TouchesOnly (.ctxXcArmLo c f value) ([.ctx, .acc])) ∧
  (∀ (c : CtxId) (f : Func) (value : Word), TouchesOnly (.ctxXcArmHi c f value) ([.ctx, .acc])) ∧
  (∀ (c : CtxId), TouchesOnly (.stepArm c) ([.fwd, .txSeq, .coll, .tiles, .strm, .luff, .ctx, .reef])) ∧
  (∀ (c : CtxId), TouchesOnly (.stepComplete c) ([.fwd, .txSeq, .coll, .tiles, .strm, .luff, .ctx, .ttl, .reef, .msix, .hostMem, .out])) ∧
  (∀ (c : CtxId), TouchesOnly (.contractViolation c) ([.fwd, .txSeq, .coll, .tiles, .strm, .luff, .ctx, .ttl, .reef, .msix, .hostMem, .out])) ∧
  (∀ (l : TileId), TouchesOnly (.mma l) ([.tiles, .luff, .ctx])) ∧
  (∀ (l : TileId), TouchesOnly (.drain l) ([.tiles, .luff, .ctx])) ∧
  (∀ (l : TileId), TouchesOnly (.vop l) ([.tiles, .luff, .ctx])) ∧
  (∀ (l : TileId), TouchesOnly (.vcvt l) ([.tiles, .luff, .ctx])) ∧
  (∀ (l : TileId), TouchesOnly (.vld l) ([.tiles, .luff, .ctx])) ∧
  (∀ (l : TileId), TouchesOnly (.vst l) ([.tiles, .luff, .ctx])) ∧
  (∀ (l : TileId), TouchesOnly (.hrd l) ([.fwd, .txSeq, .coll, .tiles, .strm, .luff, .ctx])) ∧
  (∀ (l : TileId), TouchesOnly (.hwr l) ([.fwd, .txSeq, .coll, .tiles, .strm, .luff, .ctx])) ∧
  (∀ (l : TileId), TouchesOnly (.send l) ([.fwd, .txSeq, .coll, .tiles, .strm, .luff, .ctx])) ∧
  (∀ (l : TileId), TouchesOnly (.recv l) ([.fwd, .txSeq, .coll, .tiles, .strm, .luff, .ctx])) ∧
  (∀ (l : TileId), TouchesOnly (.wait l) ([.fwd, .txSeq, .coll, .tiles, .strm, .luff, .ctx])) ∧
  (∀ (l : TileId), TouchesOnly (.loop l) ([.tiles])) ∧
  (∀ (l : TileId), TouchesOnly (.tileEnd l) ([.fwd, .txSeq, .coll, .tiles, .strm, .luff, .ctx])) ∧
  (∀ (l : TileId) (line : Fin 12288) (corrected : Bool), TouchesOnly (.tileStoreUncorr l line corrected) ([.tiles, .ctx, .ttl])) ∧
  (∀ (l : TileId), TouchesOnly (.tileRetire l) ([.tiles, .tileMap, .tilePhys, .hly, .tkp, .slc, .ttl, .out])) ∧
  (TouchesOnly .pageGrant ([.hbm, .part, .msix, .out])) ∧
  (TouchesOnly .pageReturn ([.hbm, .part, .msix, .out])) ∧
  (TouchesOnly .pageScrubComplete ([.hbm, .part, .msix, .out])) ∧
  (∀ (addr : BitVec 48) (corrected : Bool), TouchesOnly (.hbmUncorrectable addr corrected) ([.tiles, .hbm, .ctx, .ttl])) ∧
  (∀ (c : CtxId), TouchesOnly (.streamOpen c) ([.fwd, .txSeq, .strm, .ctx, .msix, .out])) ∧
  (∀ (c : CtxId), TouchesOnly (.streamClose c) ([.strm, .ctx, .msix, .out])) ∧
  (∀ (c : CtxId), TouchesOnly (.streamQuery c) ([.ctx, .msix, .out])) ∧
  (∀ (c : CtxId), TouchesOnly (.streamHead c) ([.strm, .ctx, .msix, .out])) ∧
  (TouchesOnly .streamHelloReceive ([.fwd, .txSeq, .strm])) ∧
  (∀ (n : StreamId), TouchesOnly (.streamHelloRepeat n) ([.fwd, .txSeq])) ∧
  (TouchesOnly .streamCreditReceive ([.fwd, .strm, .ttl])) ∧
  (∀ (n : StreamId), TouchesOnly (.streamCreditPeriodic n) ([.fwd, .txSeq, .strm])) ∧
  (∀ (n : StreamId), TouchesOnly (.streamClosingEnd n) ([.strm])) ∧
  (∀ (n : IoDie) (t : HostTrain), TouchesOnly (.hostLinkTrain n t) ([.ttl, .hst, .msix, .out])) ∧
  (TouchesOnly .h1LinkDown ([.txn, .luff, .ctx, .ttl, .hst, .msix, .hostMem, .out])) ∧
  (∀ (f : Func) (offset length : Nat), TouchesOnly (.windowRead f offset length) ([.ctx, .ttl, .hst, .out])) ∧
  (∀ (f : Func) (offset : Nat) (data : List Byte) (poisoned : Bool), TouchesOnly (.windowWrite f offset data poisoned) ([.hbm, .ctx, .ttl, .hst])) ∧
  (∀ (f : Func) (offset : Nat), TouchesOnly (.windowAtomic f offset) ([.out])) ∧
  (∀ (n : Fin 128) (lo : Word), TouchesOnly (.watchEntrySet n lo) ([.ttl, .hst])) ∧
  (∀ (n : Fin 128) (host : Cells), TouchesOnly (.watchSnoop n host) ([.ctx, .ttl, .acc, .hostMem])) ∧
  (∀ (n : Fin 64), TouchesOnly (.vfFlr n) ([.fwd, .txSeq, .coll, .tiles, .strm, .luff, .ctx, .reef, .msix, .out])) ∧
  (∀ (e : PfEvent), TouchesOnly (.pfFlr e) ([.fwd, .txSeq, .coll, .tiles, .strm, .luff, .ctx, .ttl, .reef, .hst, .msix, .out])) ∧
  (∀ (enable : Bool) (numVfs : Fin 65), TouchesOnly (.vfEnableClear enable numVfs) ([.fwd, .txSeq, .coll, .tiles, .strm, .luff, .ctx, .ttl, .reef,
      .hst, .out])) ∧
  (∀ (r : HostRead), TouchesOnly (.hostReadTimeout r) ([.txn, .luff, .ctx, .ttl, .msix, .hostMem, .out])) ∧
  (∀ (c : CtxId) (q : Fin 4), TouchesOnly (.flushReadComplete c q) ([.txn, .luff, .ctx, .ttl, .msix, .hostMem, .out])) ∧
  (∀ (c : CtxId) (q : Fin 4) (f : Func) (cfg : Word), TouchesOnly (.ceQueueEnable c q f cfg) ([.ctx, .ttl, .acc])) ∧
  (∀ (c : CtxId) (q : Fin 4) (f : Func), TouchesOnly (.ceQueueDisable c q f) ([.ctx, .acc])) ∧
  (∀ (c : CtxId) (q : Fin 4) (f : Func), TouchesOnly (.ceQueueResume c q f) ([.ctx, .acc])) ∧
  (∀ (c : CtxId) (q : Fin 4) (f : Func) (pi : BitVec 16), TouchesOnly (.ceDoorbell c q f pi) ([.ctx, .ttl, .acc])) ∧
  (∀ (c : CtxId) (q : Fin 4) (host : Cells), TouchesOnly (.ceCommandFetch c q host) ([.strm, .ctx, .hostMem])) ∧
  (∀ (c : CtxId) (q : Fin 4), TouchesOnly (.copy c q) ([.fwd, .txSeq, .txn, .hbm, .strm, .luff, .ctx, .eng, .hostMem])) ∧
  (∀ (c : CtxId) (q : Fin 4), TouchesOnly (.fill c q) ([.fwd, .txSeq, .txn, .hbm, .strm, .luff, .ctx, .eng, .hostMem])) ∧
  (∀ (c : CtxId) (q : Fin 4), TouchesOnly (.flagOnly c q) ([.ctx])) ∧
  (∀ (c : CtxId) (q : Fin 4), TouchesOnly (.msg c q) ([.fwd, .txSeq, .txn, .hbm, .strm, .luff, .ctx, .eng, .hostMem])) ∧
  (∀ (c : CtxId) (q : Fin 4), TouchesOnly (.reqWrite c q) ([.fwd, .txSeq, .txn, .hbm, .strm, .luff, .ctx, .eng, .hostMem])) ∧
  (∀ (c : CtxId) (q : Fin 4), TouchesOnly (.reqRead c q) ([.fwd, .txSeq, .txn, .hbm, .strm, .luff, .ctx, .eng, .hostMem])) ∧
  (∀ (c : CtxId) (q : Fin 4), TouchesOnly (.reqFetchAdd c q) ([.fwd, .txSeq, .txn, .hbm, .strm, .luff, .ctx, .eng, .hostMem])) ∧
  (∀ (c : CtxId) (q : Fin 4), TouchesOnly (.reqSignal c q) ([.fwd, .txSeq, .txn, .hbm, .strm, .luff, .ctx, .eng, .hostMem])) ∧
  (∀ (e : Fin 20) (host : Cells), TouchesOnly (.ceSegment e host) ([.fwd, .txSeq, .txn, .hbm, .strm, .luff, .ctx, .eng, .hostMem])) ∧
  (∀ (c : CtxId) (q : Fin 4), TouchesOnly (.ceCommandComplete c q) ([.txn, .luff, .ctx, .ttl, .hst, .msix, .hostMem, .out])) ∧
  (∀ (l : TileId) (k : Fin 65536), TouchesOnly (.hbmLineComplete l k) ([.fwd, .txSeq, .coll, .tiles, .hbm, .strm, .luff, .ctx])) ∧
  (∀ (c : CtxId) (ch : Fin 1024), TouchesOnly (.tokenAcknowledge c ch) ([.fwd, .txSeq, .coll, .tiles, .strm, .luff, .ctx]))

/-- The frames of the 81 commands whose rows cite rules of chapters 14, 15, 17, 18, 19, 20. `TouchesOnly c w`: when c completes,
    every block of the machine
but the listed ones is as it was; `Area.lostAnd` adds to the list the blocks that the loss of power clears (18 R521). -/
def Obligations.FramesOfFaultsResetsAndTray : Prop :=
  (TouchesOnly .halyardRestartTimeout ([.hly, .ttl, .out])) ∧
  (∀ (mctp : Bool) (reply : Option CmdReply), TouchesOnly (.hlyCmdResult mctp reply) ([.luff, .hly, .hst, .msix, .hostMem, .out])) ∧
  (∀ (src : NodeId) (txn : BitVec 11), TouchesOnly (.reqAnswerDeadline src txn) ([.fwd, .txSeq, .ttl])) ∧
  (TouchesOnly .ttlRound ([.ttl, .msix, .out])) ∧
  (∀ (i : Fin 640), TouchesOnly (.promotionWindowExpiry i) ([.ttl])) ∧
  (∀ (slot : Option CtxId), TouchesOnly (.reactionQuietExpiry slot) ([.ttl, .msix, .out])) ∧
  (TouchesOnly .faultNLowEnd ([.ttl])) ∧
  (∀ (hold : Bool), TouchesOnly (.ttlPinHoldWrite hold) ([.ttl])) ∧
  (∀ (source : Fin 1024), TouchesOnly (.ttlForce source) ([.ttl])) ∧
  (∀ (w : Fin 20) (mask : Word), TouchesOnly (.ttlFirstClear w mask) ([.ttl])) ∧
  (∀ (l : TileId), TouchesOnly (.luffTileExpiry l) ([.tiles, .luff, .ctx, .ttl])) ∧
  (∀ (l : TileId) (pass : Bool), TouchesOnly (.tileSelfTestDone l pass) ([.tiles, .ttl])) ∧
  (∀ (e : Fin 20) (reset : Option Bool), TouchesOnly (.luffCeExpiry e reset) ([.txn, .luff, .ctx, .ttl, .eng, .msix, .hostMem, .out])) ∧
  (∀ (p : Port), TouchesOnly (.luffLinkExpiry p) ([.time, .shr, .fwd, .luff, .hly, .tkp, .slc, .ttl, .out])) ∧
  (∀ (k : Fin 256), TouchesOnly (.luffCollExpiry k) ([.luff, .ttl, .out])) ∧
  (∀ (i : PartId) (ok : Bool), TouchesOnly (.collUnitReset i ok) ([.collFailed, .luff])) ∧
  (∀ (t : Fin 6), TouchesOnly (.luffHlyExpiry t) ([.luff, .hly, .ttl, .out])) ∧
  (∀ (n : StreamId), TouchesOnly (.inStreamStall n) ([.luff, .ttl, .out])) ∧
  (∀ (c : CtxId), TouchesOnly (.contextReset c) ([.fwd, .txSeq, .coll, .tiles, .strm, .luff, .ctx, .reef, .out])) ∧
  (∀ (i : PartId), TouchesOnly (.partitionReset i) ([.fwd, .txSeq, .coll, .tiles, .strm, .luff, .ctx, .ttl, .reef, .out])) ∧
  (TouchesOnly .packageReset ([.corner, .shr, .fwd, .txSeq, .coll, .tiles, .hbm, .strm, .luff, .part, .ctx, .ttl, .reef, .eng, .out])) ∧
  (∀ (d : Domain) (dumpOk : Bool), TouchesOnly (.fenceDrainEnd d dumpOk) ([.boot, .fwd, .txSeq, .txn, .coll, .collFailed, .tiles, .hbm, .strm, .luff,
      .hly, .tkp, .slc, .part, .ctx, .ttl, .flash, .free, .out])) ∧
  (TouchesOnly .packageResetComplete ([.fwd, .txSeq, .txn, .coll, .tiles, .strm, .luff, .part, .ctx, .ctxCmd, .ttl, .msix, .out])) ∧
  (∀ (r : Rung), TouchesOnly (.rungTimeout r) ([.txn, .collFailed, .tiles, .luff, .ctx, .ttl, .eng])) ∧
  (TouchesOnly .genLateDrop ([.luff, .ttl])) ∧
  (TouchesOnly .dumpRearm ([.hbm, .luff])) ∧
  (∀ (ids : List (SiteId × Option (Word × DWord))) (hostEid : BitVec 8) (t : DWord), TouchesOnly (.busbarRise ids hostEid t) ([.far, .out])) ∧
  (∀ (s1 : SiteId) (t : DWord), TouchesOnly (.sitePowerOn s1 t) ([.far])) ∧
  (∀ (s1 : SiteId) (t : DWord), TouchesOnly (.railGood s1 t) ([.far, .out])) ∧
  (∀ (s1 : SiteId) (t : DWord), TouchesOnly (.railFail s1 t) (Area.lostAnd [.far, .scan, .out])) ∧
  (∀ (s1 : SiteId), TouchesOnly (.powerOffNotice s1) ([.far, .out])) ∧
  (∀ (s1 : SiteId), TouchesOnly (.ready s1) (Area.lostAnd [.far, .scan, .out])) ∧
  (∀ (s1 : SiteId), TouchesOnly (.noticeLimitExpiry s1) (Area.lostAnd [.far, .scan])) ∧
  (∀ (s1 : SiteId) (t : DWord), TouchesOnly (.powerOffGroupFall s1 t) ([.far, .out])) ∧
  (∀ (s1 : SiteId), TouchesOnly (.offTimeExpiry s1) ([.far])) ∧
  (∀ (s1 : SiteId), TouchesOnly (.faultNEdge s1) ([.far, .out])) ∧
  (∀ (s1 : SiteId) (pin slot low : Word) (t : DWord), TouchesOnly (.faultReadReply s1 pin slot low t) (Area.lostAnd [.far, .scan, .out])) ∧
  (∀ (s1 : SiteId) (t : DWord), TouchesOnly (.faultReadRetry s1 t) (Area.lostAnd [.far, .scan, .out])) ∧
  (∀ (s1 : SiteId), TouchesOnly (.pinAlert s1) ([.out])) ∧
  (∀ (modules : List (Option (BitVec 16))) (batt soc : Option (BitVec 16)), TouchesOnly (.shelfPoll modules batt soc) ([.far])) ∧
  (∀ (r : Option (BitVec 16 × BitVec 16)), TouchesOnly (.cduPoll r) ([.far])) ∧
  (∀ (t : DWord), TouchesOnly (.coolantLimit t) (Area.lostAnd [.far, .scan, .out])) ∧
  (∀ (t : DWord), TouchesOnly (.busbarSag t) (Area.lostAnd [.far, .scan, .out])) ∧
  (∀ (t : DWord), TouchesOnly (.busbarReturn t) ([.far, .out])) ∧
  (∀ (t : DWord), TouchesOnly (.cduStaleAlert t) ([.far, .out])) ∧
  (TouchesOnly .trayReportSend ([.far, .out])) ∧
  (∀ (s1 : SiteId) (w : List Word) (t : DWord), TouchesOnly (.crashSummary s1 w t) ([.far, .out])) ∧
  (∀ (s1 : SiteId) (digests : List Byte) (tag : Word) (t : DWord), TouchesOnly (.measure s1 digests tag t) ([.far, .out])) ∧
  (∀ (s1 : SiteId) (nonce : BitVec 256), TouchesOnly (.componentIntegrity s1 nonce) ([.free, .out])) ∧
  (∀ (s1 : SiteId) (t : DWord), TouchesOnly (.resetOn s1 t) ([.far, .out])) ∧
  (∀ (s1 : SiteId), TouchesOnly (.resetForceOff s1) (Area.lostAnd [.far, .scan, .out])) ∧
  (∀ (s1 : SiteId), TouchesOnly (.resetGracefulShutdown s1) (Area.lostAnd [.far, .scan, .out])) ∧
  (∀ (s1 : SiteId), TouchesOnly (.resetPowerCycle s1) (Area.lostAnd [.far, .scan, .out])) ∧
  (∀ (s1 : SiteId), TouchesOnly (.resetForceRestart s1) (Area.lostAnd [.far, .scan, .out])) ∧
  (∀ (r : Resource) (measured : List Nat), TouchesOnly (.redfishGet r measured) ([.out])) ∧
  (∀ (q : PldmQuery) (measured : List Nat), TouchesOnly (.pldmSensorRead q measured) ([.out])) ∧
  (∀ (site : Option SiteId) (image : List Byte) (copyB devOk : Bool) (t : DWord), TouchesOnly (.pldmFirmwareUpdate site image copyB devOk t) ([.ttl,
      .flash, .far, .free, .out])) ∧
  (∀ (s1 : SiteId) (image : List Byte) (copyB devOk : Bool) (t : DWord), TouchesOnly (.flashUpdate s1 image copyB devOk t) ([.ttl, .flash, .far,
      .free, .out])) ∧
  (∀ (t : DWord), TouchesOnly (.farnisRestart t) ([.far, .out])) ∧
  (∀ (w : SettingWrite) (t : DWord), TouchesOnly (.farnisSettingWrite w t) ([.far, .out])) ∧
  (∀ (s1 : SiteId), TouchesOnly (.scanEnter s1) ([.far, .out])) ∧
  (∀ (s1 : SiteId), TouchesOnly (.scanExit s1) (Area.lostAnd [.far, .scan, .out])) ∧
  (∀ (h : MsgHdr) (off : Word) (count : BitVec 8), TouchesOnly (.regRead h off count) ([.time, .card, .out])) ∧
  (∀ (h : MsgHdr) (off value : Word), TouchesOnly (.regWrite h off value) ([.boot, .corner, .shr, .hbm, .luff, .hly, .part, .ctx, .ctxCmd, .ttl,
      .acc, .reef, .hst, .msix, .hostMem, .flash, .card, .out])) ∧
  (∀ (h : MsgHdr) (opcode seq : BitVec 8) (args : List Word), TouchesOnly (.hlyCmd h opcode seq args) ([.hly, .card, .out])) ∧
  (∀ (h : MsgHdr) (off : Word) (len : BitVec 16), TouchesOnly (.dbRead h off len) ([.card, .out])) ∧
  (∀ (f : BarFunc) (off : Nat) (a : BarAccess), TouchesOnly (.registerWrite f off a) ([.boot, .time, .corner, .shr, .hbm, .luff, .hly, .part, .ctx,
      .ctxCmd, .ttl, .acc, .reef, .hst, .msix, .hostMem, .flash, .out])) ∧
  (∀ (s1 : SiteId) (d : IoDie), TouchesOnly (.extest s1 d) ([.scan, .out])) ∧
  (∀ (s1 : SiteId) (d : IoDie), TouchesOnly (.idcode s1 d) ([.scan, .out])) ∧
  (∀ (s1 : SiteId) (d : IoDie), TouchesOnly (.samplePreload s1 d) ([.scan, .out])) ∧
  (∀ (s1 : SiteId) (d : IoDie), TouchesOnly (.extestPulse s1 d) ([.scan, .out])) ∧
  (∀ (s1 : SiteId) (d : IoDie), TouchesOnly (.extestTrain s1 d) ([.scan, .out])) ∧
  (∀ (s1 : SiteId) (d : IoDie), TouchesOnly (.highz s1 d) ([.scan, .out])) ∧
  (∀ (s1 : SiteId) (d : IoDie), TouchesOnly (.bypass s1 d) ([.scan, .out])) ∧
  (∀ (level trstLow : Bool), TouchesOnly (.scanExtChange level trstLow) ([.scan])) ∧
  (TouchesOnly .slot12vFall (Area.lostAnd [.scan, .card])) ∧
  (TouchesOnly .cardC4PowerOff (Area.lostAnd [.scan, .card])) ∧
  (∀ (d : Domain), TouchesOnly (.domainResetEnd d) ([.fwd, .txSeq, .txn, .coll, .tiles, .strm, .luff, .ctx, .ttl])) ∧
  (∀ (low : BitVec 16), TouchesOnly (.trayFaultHoldExpiry low) ([.far])) ∧
  (∀ (aux : BitVec 2), TouchesOnly (.slot12vRise aux) ([.card])) ∧
  (TouchesOnly .extTrstNFall ([.scan]))

/-- 02 R63, R65, Table 2.12: a monitor of a present die shows its live state in that die's bit and leaves a sticky record that its clearing
keeps; a thermal hold is that die's bit of THERM_HOLD. No other bit changes. For a die that is not present none of the commands does anything. -/
def Obligations.CornerMonitorsShowLiveAndSticky : Prop :=
  (∀ (d : CDie) (s : State), s.m.hasDie d.val = true →
    Completes (.uvMonitorTrip d) s fun m =>
      bitWritten s.m.corner.uv m.corner.uv d.val true ∧ bitWritten s.m.corner.uvSeen m.corner.uvSeen d.val true ∧
      m.corner.ot = s.m.corner.ot ∧ m.corner.otSeen = s.m.corner.otSeen ∧ m.corner.thermHold = s.m.corner.thermHold) ∧
  (∀ (d : CDie) (s : State), s.m.hasDie d.val = true →
    Completes (.uvMonitorClear d) s fun m =>
      bitWritten s.m.corner.uv m.corner.uv d.val false ∧ m.corner = { s.m.corner with uv := m.corner.uv }) ∧
  (∀ (d : CDie) (s : State), s.m.hasDie d.val = true →
    Completes (.otMonitorTrip d) s fun m =>
      bitWritten s.m.corner.ot m.corner.ot d.val true ∧ bitWritten s.m.corner.otSeen m.corner.otSeen d.val true ∧
      m.corner.uv = s.m.corner.uv ∧ m.corner.uvSeen = s.m.corner.uvSeen ∧ m.corner.thermHold = s.m.corner.thermHold) ∧
  (∀ (d : CDie) (s : State), s.m.hasDie d.val = true →
    Completes (.otMonitorClear d) s fun m =>
      bitWritten s.m.corner.ot m.corner.ot d.val false ∧ m.corner = { s.m.corner with ot := m.corner.ot }) ∧
  (∀ (d : CDie) (s : State), s.m.hasDie d.val = true →
    Completes (.thermalHoldStart d) s fun m =>
      bitWritten s.m.corner.thermHold m.corner.thermHold d.val true ∧ m.corner = { s.m.corner with thermHold := m.corner.thermHold }) ∧
  (∀ (d : CDie) (s : State), s.m.hasDie d.val = true →
    Completes (.thermalHoldEnd d) s fun m =>
      bitWritten s.m.corner.thermHold m.corner.thermHold d.val false ∧ m.corner = { s.m.corner with thermHold := m.corner.thermHold }) ∧
  (∀ (d : CDie) (s : State), s.m.hasDie d.val = false →
    Ignored (.uvMonitorTrip d) s ∧ Ignored (.uvMonitorClear d) s ∧ Ignored (.otMonitorTrip d) s ∧ Ignored (.otMonitorClear d) s ∧
    Ignored (.thermalHoldStart d) s ∧ Ignored (.thermalHoldEnd d) s)

/-- 02 R67–R73. The measured offset is within 1 ns when it is within four of its units of 0.25 ns. A first exchange steps the timebase
by the whole nanoseconds of the offset, rounded down: the model's reading (log 3). PARENT_NODE of a root is the model's (log 30), and no clause
gives it. -/
def Obligations.TimebaseFollowsItsParent : Prop :=
  (∀ (s : State) (offset : DWord), s.m.time.root = false → s.m.time.parentDir ≠ 6 → s.m.time.parentLost = false →
    s.m.time.depth ≤ 22 → s.m.time.everLocked = true → -4 ≤ offset.toInt → offset.toInt ≤ 4 →
    Completes (.syncExchange true offset) s fun m => m.time.locked = true ∧ m.time.holdover = false ∧ m.time.depth = s.m.time.depth ∧
      m.time.offset.toInt = offset.toInt ∧ m.time.now = s.m.time.now ∧ m.time.parentNode = s.m.time.parentNode) ∧
  (∀ (s : State) (offset : DWord), s.m.time.root = false → s.m.time.parentDir ≠ 6 → s.m.time.parentLost = false →
    s.m.time.depth ≤ 22 → s.m.time.everLocked = false →
    Completes (.syncExchange true offset) s fun m => m.time.locked = true ∧ m.time.holdover = false ∧
      m.time.now = s.m.time.now + BitVec.ofInt 64 (-(offset.toInt / 4))) ∧
  (∀ (s : State) (offset : DWord), s.m.time.root = false → s.m.time.parentDir ≠ 6 → s.m.time.parentLost = false →
    s.m.time.holdover = false →
    Completes (.syncExchange false offset) s fun m => m.time = { s.m.time with locked := false }) ∧
  (∀ s : State, s.m.time.root = false → s.m.time.parentDir ≠ 6 →
    Completes .parentLinkFail s fun m => m.time = { s.m.time with holdover := true, parentLost := true }) ∧
  (∀ s : State, s.m.time.holdover = true → Completes .holdoverExpiry s fun m => m.time = { s.m.time with locked := false }) ∧
  (∀ (p : Port) (root : NodeId) (k : Nat) (s : State), root ≠ s.m.node → (root = s.m.hly.reg.master ∨ root = s.m.hly.reg.standby) →
    s.m.depthUnder p root = some k →
    Completes (.parentNamed p root) s fun m =>
      m.time.root = false ∧ m.time.depth = min 31 k ∧ m.time.degraded = decide (22 < k) ∧ m.time.parentLost = false ∧
      m.time.parentDir = (s.m.port p).stat.dir ∧ m.time.parentPos = (s.m.port p).stat.pos ∧ m.time.parentNode = (s.m.port p).far.node ∧
      m.time.holdover = s.m.time.holdover ∧ m.time.now = s.m.time.now ∧
      m.time.locked = (s.m.time.locked && decide (k ≤ 22)) ∧ m.out = s.m.out ++ [Out.syncStart p]) ∧
  (∀ (p : Port) (s : State), s.m.hly.reg.role = .standby → Completes (.parentNamed p s.m.node) s fun m =>
    m.time = { s.m.time with root := true, locked := true, everLocked := true, depth := 0, degraded := false, holdover := false,
                             parentLost := false, parentDir := 6, parentPos := 0, parentNode := m.time.parentNode }) ∧
  (∀ (p : Port) (root : NodeId) (s : State), root ≠ s.m.node →
    ((root ≠ s.m.hly.reg.master ∧ root ≠ s.m.hly.reg.standby) ∨ s.m.depthUnder p root = none) → Ignored (.parentNamed p root) s) ∧
  (∀ s : State, s.m.time.refclkOk = true → s.m.time.root = false → s.m.time.locked = true →
    Completes .refclkLoss s fun m => m.time = { s.m.time with refclkOk := false, source := .parentLink } ∧ m.shr = s.m.shr ∧
      m.ttl.landed = s.m.ttl.landed ++ [{ source := 496, count := 1, unit := 0, ctx := none, cls := 1, forced := false }]) ∧
  (∀ s : State, Completes .refclkReturn s fun m => m.time = { s.m.time with refclkOk := true, source := .trayReference } ∧
      ∀ p : Port, m.port p = { s.m.port p with train := { (s.m.port p).train with refHeld := false } }) ∧
  (∀ (f : Func) (s : State), Completes (.timeNowLoRead f) s fun m =>
      m.out = s.m.out ++ [Out.readData (funcNo f) 0x00C00000 (leBytes 4 s.m.time.now.toNat)] ∧
      tget 0 m.time.latch (funcNo f) = BitVec.ofNat 32 (s.m.time.now.toNat / 2 ^ 32) ∧
      ∀ g : Func, g ≠ f → tget 0 m.time.latch (funcNo g) = tget 0 s.m.time.latch (funcNo g))

/-- 03 R81–R85, Table 3.3: DETECT to SYNC on signal, SYNC to DESKEW with the locked lanes, DESKEW to EXCHANGE with the aligned lanes and a TS2
block sent, EXCHANGE to EQUALISE on the sixteenth consistent block at the agreed target, EQUALISE to VERIFY, VERIFY to ACTIVE at SL3 when all
four lanes are usable; no other port changes. -/
def Obligations.TrainingAdvancesAPort : Prop :=
  (∀ (p : Port) (s : State), (s.m.port p).stat.state = .detect → Completes (.portDetectSignal p) s fun m =>
      m.port p = { s.m.port p with stat := { (s.m.port p).stat with state := .sync } } ∧ s.m.otherPorts m p) ∧
  (∀ (p : Port) (locked : LaneMask) (s : State), (s.m.port p).stat.state = .sync → locked ≠ 0 →
    Completes (.portSyncLock p locked) s fun m => (m.port p).stat = { (s.m.port p).stat with state := .deskew } ∧
      (m.port p).train = { (s.m.port p).train with locked := locked } ∧ s.m.otherPorts m p) ∧
  (∀ (p : Port) (aligned : LaneMask) (s : State), (s.m.port p).stat.state = .deskew → aligned &&& (s.m.port p).train.locked ≠ 0 →
    Completes (.portDeskewDone p aligned) s fun m => (m.port p).stat.state = .exchange ∧
      (m.port p).stat.rxGood = aligned &&& (s.m.port p).train.locked ∧ (m.port p).far.cls = (s.m.port p).train.ownClass ∧
      m.out = s.m.out ++ [Out.ts2 p (m.ownTs2 p 0)] ∧ s.m.otherPorts m p) ∧
  (∀ (p : Port) (block : BitVec 128) (s : State), (s.m.port p).stat.state = .exchange →
    (crc32 (leBytes 12 (bits block 0 96))).toNat = bits block 96 32 → bitAt block 35 = false → s.m.ts2Reason p block = none →
    (s.m.port p).train.lastTs2 = block → (s.m.port p).train.ts2Run = 15 →
    let g := targetGen (isBackstay (s.m.port p).stat) (s.m.port p).train.genCap (BitVec.ofNat 2 (bits block 27 2)) (s.m.port p).train.ownClass
      (BitVec.ofNat 2 (bits block 29 2)).toNat
    g ≠ 0 → Completes (.ts2Receive p block) s fun m => (m.port p).stat = { (s.m.port p).stat with state := .equalise } ∧
      (m.port p).train.target = g ∧ (m.port p).far.node = BitVec.ofNat 16 (bits block 0 16) ∧ s.m.otherPorts m p) ∧
  (∀ (p : Port) (block : BitVec 128) (reason : Nat) (s : State), (s.m.port p).stat.state = .exchange →
    (crc32 (leBytes 12 (bits block 0 96))).toNat = bits block 96 32 → bitAt block 35 = false → s.m.ts2Reason p block = some reason →
    Completes (.ts2Receive p block) s fun m => (m.port p).stat = idleStat (s.m.port p).stat .down reason ∧
      (m.port p).train.attempts = (s.m.port p).train.attempts ∧ s.m.otherPorts m p) ∧
  (∀ (p : Port) (converged : LaneMask) (s : State), (s.m.port p).stat.state = .equalise →
    Completes (.portEqualiseDone p converged) s fun m => (m.port p).stat = { (s.m.port p).stat with state := .verify } ∧
      (m.port p).train.converged = converged &&& (s.m.port p).train.aligned ∧ s.m.otherPorts m p) ∧
  (∀ (p : Port) (rxGood : LaneMask) (far : BitVec 128) (delayNs : Nat) (s : State), (s.m.port p).stat.state = .verify →
    (crc32 (leBytes 12 (bits far 0 96))).toNat = bits far 96 32 → bitAt far 35 = true → (s.m.port p).train.gen = 2 →
    rxGood &&& (s.m.port p).train.converged &&& BitVec.ofNat 4 (bits far 31 4) = 15 →
    Completes (.portVerifyDone p rxGood far delayNs) s fun m => (m.port p).stat.state = .active ∧ (m.port p).stat.gen = 2 ∧
      (m.port p).stat.width = 4 ∧ (m.port p).stat.lanes = 15 ∧ (m.port p).train.attempts = 0 ∧ (m.port p).tx.retry = [] ∧
      s.m.otherPorts m p)

/-- 03 R81, R83, R86; 02 R73. Every entry into HOLDOFF counts a failed attempt; at its end the port reads its cable class and enters DETECT, or
DOWN where Table 3.4 says so; a port lost for want of the reference stays while REFCLK_OK is 0. -/
def Obligations.FailedTrainingBacksOff : Prop :=
  (∀ (p : Port) (s : State), (s.m.port p).stat.state = .sync → Completes (.portSyncTimeout p) s fun m =>
      m.port p = failedPort (s.m.port p) 0x02 ∧ s.m.otherPorts m p) ∧
  (∀ (p : Port) (s : State), (s.m.port p).stat.state = .deskew → Completes (.portDeskewTimeout p) s fun m =>
      m.port p = failedPort (s.m.port p) 0x03 ∧ s.m.otherPorts m p) ∧
  (∀ (p : Port) (s : State), (s.m.port p).stat.state = .exchange → Completes (.portExchangeTimeout p) s fun m =>
      m.port p = failedPort (s.m.port p) 0x04 ∧ s.m.otherPorts m p) ∧
  (∀ (p : Port) (s : State), [PortState.sync, .deskew, .exchange, .equalise, .verify].contains (s.m.port p).stat.state = true →
    Completes (.trainingSignalLoss p) s fun m => m.port p = failedPort (s.m.port p) 0x01 ∧ s.m.otherPorts m p) ∧
  (∀ (p : Port) (cable : CableRead) (cls : Nat) (s : State), (s.m.port p).stat.state = .holdoff →
    ((s.m.port p).stat.reason ≠ 0x10 ∨ s.m.time.refclkOk = true) → cableClass s.m.pins (s.m.port p).stat cable = .inl cls →
    Completes (.holdoffExpiry p cable) s fun m => (m.port p).stat.state = .detect ∧ (m.port p).train.ownClass = cls ∧
      (m.port p).stat.reason = (s.m.port p).stat.lastFail ∧ (m.port p).train.attempts = (s.m.port p).train.attempts ∧ s.m.otherPorts m p) ∧
  (∀ (p : Port) (cable : CableRead) (reason : Nat) (s : State), (s.m.port p).stat.state = .holdoff →
    ((s.m.port p).stat.reason ≠ 0x10 ∨ s.m.time.refclkOk = true) → cableClass s.m.pins (s.m.port p).stat cable = .inr reason →
    Completes (.holdoffExpiry p cable) s fun m => (m.port p).stat = idleStat (s.m.port p).stat .down reason ∧ s.m.otherPorts m p) ∧
  (∀ (p : Port) (cable : CableRead) (s : State), (s.m.port p).stat.state = .holdoff → (s.m.port p).stat.reason = 0x10 →
    s.m.time.refclkOk = false → Completes (.holdoffExpiry p cable) s fun m => (m.port p).stat = (s.m.port p).stat ∧ s.m.otherPorts m p) ∧
  (∀ (p : Port) (cable : CableRead) (cls : Nat) (s : State), (s.m.port p).stat.state = .down →
    cableClass s.m.pins (s.m.port p).stat cable = .inl cls → Completes (.portDownSignalReturn p cable) s fun m =>
      (m.port p).stat.state = .detect ∧ (m.port p).train.ownClass = cls ∧ s.m.otherPorts m p)

/-- 03 R88–R90, R95, R96. -/
def Obligations.RetrainAndLossTakeThePortDown : Prop :=
  (∀ (p : Port) (good : LaneMask) (s : State), (s.m.port p).stat.state = .active → (s.m.port p).stat.lanes &&& good ≠ 0 →
    (s.m.port p).stat.lanes &&& ~~~good ≠ 0 → Completes (.laneLockLoss p good) s fun m =>
      (m.port p).stat.state = .retrain ∧ (m.port p).rt.own = some 3 ∧ (m.port p).stat.rxGood = (s.m.port p).stat.rxGood &&& good ∧
      s.m.otherPorts m p) ∧
  (∀ (p : Port) (count : Nat) (good : LaneMask) (s : State), (s.m.port p).stat.state = .active → 1000 < count →
    Completes (.fecThreshold p count good) s fun m => (m.port p).stat.state = .retrain ∧ (m.port p).rt.own = some 2 ∧
      (m.port p).cnt.fecCorr = min ((s.m.port p).cnt.fecCorr + count) 0xFFFFFFFF ∧ s.m.otherPorts m p) ∧
  (∀ (p : Port) (reason : Nat) (s : State), (s.m.port p).stat.state = .retrain → (s.m.port p).rt = { own := some reason, leads := false } →
    Completes (.retrainReqRepeat p) s fun m => m.shr = s.m.shr ∧ ∃ w, m.out = s.m.out ++ [Out.linkWord p w] ∧ bits w 0 4 = 4 ∧
      bits w 4 16 = s.m.node.toNat ∧ bits w 20 4 = reason % 16) ∧
  (∀ (p : Port) (word : DWord) (s : State), (s.m.port p).stat.state = .active → linkWordType word = some 4 → (s.m.port p).rt.own = none →
    Completes (.retrainReqReceive p word) s fun m => (m.port p).stat = { (s.m.port p).stat with state := .retrain } ∧
      (m.port p).train.farRxGood = BitVec.ofNat 4 (bits word 24 4) ∧ s.m.otherPorts m p) ∧
  (∀ (p : Port) (word : DWord) (reason : Nat) (s : State), (s.m.port p).stat.state = .retrain → linkWordType word = some 4 →
    (s.m.port p).rt.own = some reason → Completes (.retrainReqReceive p word) s fun m =>
      (bits word 4 16 < s.m.node.toNat → (m.port p).rt.own = none ∧ (m.port p).stat.state = .retrain) ∧
      (s.m.node.toNat < bits word 4 16 → (m.port p).rt = { own := some reason, leads := true }) ∧
      (bits word 4 16 = s.m.node.toNat → (m.port p).stat.state = .down ∧ (m.port p).stat.reason = 0x05) ∧ s.m.otherPorts m p) ∧
  (∀ (p : Port) (rxGood farRxGood : LaneMask) (s : State), (s.m.port p).stat.state = .retrain →
    let good := rxGood &&& farRxGood &&& ~~~ (s.m.port p).train.barred
    let usable : LaneMask := maskOf 4 ((onePositions good).take (min (widthOf good) (s.m.port p).stat.width))
    (usable ≠ 0 → Completes (.retrainComplete p rxGood farRxGood) s fun m => (m.port p).stat.state = .active ∧
      (m.port p).stat.width = widthOf usable ∧ (m.port p).stat.lanes = usable ∧ (m.port p).stat.gen = (s.m.port p).stat.gen ∧
      (m.port p).train.barred = (s.m.port p).train.barred ||| ((s.m.port p).stat.lanes &&& ~~~ usable) ∧
      (m.port p).cnt.retrain = satAdd32 (s.m.port p).cnt.retrain 1 ∧ s.m.otherPorts m p) ∧
    (usable = 0 → Completes (.retrainComplete p rxGood farRxGood) s fun m =>
      (m.port p).stat = idleStat { (s.m.port p).stat with rxGood := rxGood } .holdoff 0x0A ∧ s.m.otherPorts m p)) ∧
  (∀ (p : Port) (s : State), (s.m.port p).stat.state = .retrain →
    Completes (.retrainTimeout p) s fun m => s.m.lostLink m p 0x0A) ∧
  (∀ (p : Port) (word : DWord) (s : State), (s.m.port p).stat.state = .active ∨ (s.m.port p).stat.state = .retrain →
    linkWordType word = some 5 → Completes (.goingDownReceive p word) s fun m => s.m.lostLink m p 0x0B) ∧
  (∀ (p : Port) (s : State), (s.m.port p).stat.state = .active ∨ (s.m.port p).stat.state = .retrain →
    Completes (.linkSignalLoss p) s fun m => s.m.lostLink m p 0x09) ∧
  (∀ (p : Port) (cable : CableRead) (cls : Nat) (s : State), (s.m.port p).stat.state = .active ∨ (s.m.port p).stat.state = .retrain →
    cableClass s.m.pins (s.m.port p).stat cable = .inl cls → Completes (.fullTrainReceive p cable) s fun m =>
      (m.port p).stat.state = .detect ∧ (m.port p).train.attempts = (s.m.port p).train.attempts ∧ (m.port p).tx = .reset ∧
      (m.port p).rx = .reset ∧ s.m.otherPorts m p ∧
      (m.fwdAt (dieOfPort p)).detq = (s.m.fwdAt (dieOfPort p)).detq ++
        (heldFrames (s.m.port p)).take (detqSize - (s.m.fwdAt (dieOfPort p)).detq.length))

/-- 03 R92–R94, R99, R100, R102, R103, R105; 05 R146. -/
def Obligations.LinkLayerNumbersAcksAndCredits : Prop :=
  (∀ (p : Port) (frame : Frame) (trailer : DWord) (n : Nat) (s : State), (s.m.port p).stat.state = .active →
    (crc32 (frameBytes frame ++ leBytes 4 (bits trailer 0 32))).toNat = bits trailer 32 32 → bits trailer 0 10 = (s.m.port p).rx.lsn →
    (vcsOf (isBackstay (s.m.port p).stat)).contains (bits trailer 10 3) = true →
    Completes (.envelopeReceive p frame trailer n false) s fun m => (m.port p).rx.lsn = ((s.m.port p).rx.lsn + 1) % 1024 ∧
      (m.port p).rx.gap = false ∧ m.out = s.m.out ++ [Out.linkWord p (linkWord (1 + (s.m.port p).rx.lsn * 16))] ∧
      (m.fwdAt (dieOfPort p)).rx = (s.m.fwdAt (dieOfPort p)).rx ++
        [{ port := some p.val, vc := bits trailer 10 3, frame := frame, since := s.m.time.now,
           session := (s.m.port p).session, checked := false }] ∧ s.m.otherPorts m p) ∧
  (∀ (p : Port) (frame : Frame) (trailer : DWord) (n : Nat) (bad : Bool) (s : State), (s.m.port p).stat.state = .active →
    (s.m.port p).rx.gap = false → bad = true ∨ (crc32 (frameBytes frame ++ leBytes 4 (bits trailer 0 32))).toNat ≠ bits trailer 32 32 →
    Completes (.envelopeReceive p frame trailer n bad) s fun m => (m.port p).rx = { (s.m.port p).rx with gap := true } ∧
      m.out = s.m.out ++ [Out.linkWord p (linkWord (2 + (s.m.port p).rx.lsn * 16))] ∧ m.fwd = s.m.fwd) ∧
  (∀ (p : Port) (word : DWord) (s : State), (s.m.port p).stat.state = .active → linkWordType word = some 1 →
    ((s.m.port p).tx.retry.any fun e => e.lsn == bits word 4 10) = true →
    Completes (.ackReceive p word) s fun m => (m.port p).tx.replays = 0 ∧ s.m.otherPorts m p ∧
      ∃ l, (m.port p).tx.retry = ((s.m.port p).tx.retry.dropWhile fun e => e.lsn != bits word 4 10).drop 1 ++ l) ∧
  (∀ (p : Port) (word : DWord) (s : State), (s.m.port p).stat.state = .active → linkWordType word = some 1 →
    ((s.m.port p).tx.retry.any fun e => e.lsn == bits word 4 10) = false →
    Completes (.ackReceive p word) s fun m => s.m.lostLink m p 0x0C) ∧
  (∀ (p : Port) (word : DWord) (s : State), (s.m.port p).stat.state = .active → linkWordType word = some 2 →
    ((s.m.port p).tx.retry.any fun e => e.lsn == bits word 4 10) = true → (s.m.port p).tx.replays < 3 →
    Completes (.nakReceive p word) s fun m => (m.port p).tx.replays = (s.m.port p).tx.replays + 1 ∧ (m.port p).stat.state = .active ∧
      (∃ l, (m.port p).tx.retry = (s.m.port p).tx.retry ++ l) ∧ s.m.otherPorts m p ∧
      ∀ e, ((s.m.port p).tx.retry.find? fun e => e.lsn == bits word 4 10) = some e → (s.m.port p).tx.wireUntil < (s.m.ns + 1) * 1000 →
        s.m.resendClear p (s.m.port p) e = true → ∃ l, m.out = s.m.out ++ Out.envelope p e (trailerOf e) :: l) ∧
  (∀ (p : Port) (s : State), (s.m.port p).stat.state = .active → (s.m.port p).rx.gap = true →
    Completes (.nakRepeat p) s fun m => m.shr = s.m.shr ∧ m.out = s.m.out ++ [Out.linkWord p (linkWord (2 + (s.m.port p).rx.lsn * 16))]) ∧
  (∀ (p : Port) (s : State), (s.m.port p).stat.state = .active → (s.m.port p).tx.retry ≠ [] → (s.m.port p).tx.replays < 3 →
    Completes (.replayTimeout p) s fun m => (m.port p).stat.state = .active ∧ (m.port p).tx.replays = (s.m.port p).tx.replays + 1 ∧
      (∃ l, (m.port p).tx.retry = (s.m.port p).tx.retry ++ l) ∧
      ∀ e, (s.m.port p).tx.retry.head? = some e → (s.m.port p).tx.wireUntil < (s.m.ns + 1) * 1000 →
        s.m.resendClear p (s.m.port p) e = true → ∃ l, m.out = s.m.out ++ Out.envelope p e (trailerOf e) :: l) ∧
  (∀ (p : Port) (s : State), (s.m.port p).stat.state = .active → (s.m.port p).tx.retry ≠ [] → (s.m.port p).tx.replays = 3 →
    Completes (.replayTimeout p) s fun m => (m.port p).stat.state = .retrain ∧ (m.port p).rt.own = some 1 ∧
      (m.port p).tx.retry = (s.m.port p).tx.retry) ∧
  (∀ (p : Port) (word : DWord) (s : State), (s.m.port p).stat.state = .active → linkWordType word = some 3 →
    let vc := bits word 16 3
    let have' := tget 0 (s.m.port p).tx.credit vc + (bits word 4 12 + 4096 - tget 0 (s.m.port p).tx.farCount vc) % 4096
    Completes (.creditReceive p word) s fun m =>
      (have' ≤ poolOf (isBackstay (s.m.port p).stat) vc → (s.m.port p).tx.queue = [] →
        tget 0 (m.port p).tx.credit vc = have' ∧ tget 0 (m.port p).tx.farCount vc = bits word 4 12 ∧ (m.port p).stat = (s.m.port p).stat) ∧
      (poolOf (isBackstay (s.m.port p).stat) vc < have' → s.m.lostLink m p 0x0C)) ∧
  (∀ (p : Port) (q : QFrame) (s : State), (s.m.port p).stat.state = .active → (s.m.port p).tx.queue = [q] → s.m.arbitrate p = some 0 →
    (s.m.port p).tx.retry = [] → (s.m.port p).tx.wireUntil < (s.m.ns + 1) * 1000 → envelopeBytes q.frame ≤ 32768 → Completes (.slotStart p) s fun m => (m.port p).tx.queue = [] ∧
      (m.port p).tx.lsn = ((s.m.port p).tx.lsn + 1) % 1024 ∧
      ∃ e, (m.port p).tx.retry = [e] ∧ m.out = s.m.out ++ [Out.envelope p e (trailerOf e)] ∧ e.frame.payload = q.frame.payload ∧ e.vc = q.vc) ∧
  (∀ (p : Port) (s : State), (s.m.port p).tx.queue = [] → (s.m.port p).tx.resend = none → Ignored (.slotStart p) s) ∧
  (∀ (l : Fin 12) (replays : Nat) (corrected : Bool) (s : State), s.m.ttl.masking = false →
    let recent := ((tget [] s.m.shr.stayReplays l).filter fun t => decide (s.m.ns < t.toNat + 1000000)).length + replays
    Completes (.stayFail l replays corrected) s fun m => m.shr.ports = s.m.shr.ports ∧
      (corrected = false → bitWritten s.m.shr.stayOk m.shr.stayOk l.val false) ∧ (corrected = true → m.shr.stayOk = s.m.shr.stayOk) ∧
      m.ttl.landed = s.m.ttl.landed ++
        (if 16 < recent then [{ source := srcStay l 0, count := 1, unit := l.val, ctx := none, cls := 1, forced := false }] else []) ++
        (if corrected = false then [{ source := srcStay l 1, count := 1, unit := l.val, ctx := none, cls := 3, forced := false }] else [])) ∧
  (∀ (p : Port) (s : State), Completes (.shrCntClr p) s fun m => s.m.otherPorts m p ∧
      (m.port p).cnt = { (s.m.port p).cnt with crc := 0, fecCorr := 0, fecUncorr := 0, replay := 0, retrain := 0, degrade := 0, loss := 0, proto := 0 } ∧
      m.port p = { s.m.port p with cnt := (m.port p).cnt })

/-- 04 R112–R115, R118, R122, R123, R135. `Machine.choice` is R114's choice over the component in the database; `Machine.soleMaster` and
`Machine.member` are terms of Safety.lean. -/
def Obligations.DiscoveryAndElection : Prop :=
  (∀ (p : Port) (s : State), (s.m.port p).stat.state = .active →
    Completes (.helloSend p) s fun m => m = s.m.emit (.mgmtPort p (.hello
      { node := s.m.node, valid := s.m.hly.reg.nodeValid, uid := s.m.fuse.uid, admission := BitVec.ofNat 8 s.m.hly.reg.admitCode,
        eligible := s.m.hly.db.eligible, fingerprint := s.m.hly.db.fingerprint, port := BitVec.ofNat 8 p,
        state := BitVec.ofNat 8 (hlyStateCode s.m.hly.reg.state) }))) ∧
  (∀ (p : Port) (s : State), (s.m.port p).stat.state ≠ .active → Ignored (.helloSend p) s ∧ ∀ h, Ignored (.helloReceive p h) s) ∧
  (∀ (p : Port) (h : Hello) (s : State), (s.m.port p).stat.state = .active →
    Completes (.helloReceive p h) s fun m => tget none m.hly.db.neigh p = some h ∧ m.shr = s.m.shr) ∧
  (∀ (p : Port) (r : LsRecord) (s : State), tget 0 s.m.hly.db.seen r.node.uid.toNat ≤ r.seq → r.node.uid ≠ s.m.fuse.uid →
    s.m.hly.reg.state = .discover → Completes (.linkStateRecordReceive p r) s fun m =>
      tget 0 m.hly.db.seen r.node.uid.toNat = r.seq + 1 ∧ m.hly.db.nodes = putNode r.node s.m.hly.db.nodes ∧
      m.hly.db.links = r.links.foldl (fun l x => putLink x l) s.m.hly.db.links ∧ r ∈ m.hly.db.facts ∧ m.hly.reg = s.m.hly.reg) ∧
  (∀ (p : Port) (r : LsRecord) (s : State), r.seq < tget 0 s.m.hly.db.seen r.node.uid.toNat ∧
      (∀ x ∈ s.m.hly.db.nodes, x.node = r.node.node → x.uid = r.node.uid → x.state ≠ 3) ∨ r.node.uid = s.m.fuse.uid →
    Ignored (.linkStateRecordReceive p r) s) ∧
  (∀ (p : Port) (r : LsRecord) (s : State), tget 0 s.m.hly.db.seen r.node.uid.toNat ≤ r.seq → r.node.uid ≠ s.m.fuse.uid →
    s.m.isMaster = true → s.m.hly.db.partsLost r = false → s.m.tellsNews r = true →
    (∀ l ∈ r.links, l.status = 0 → l.reason ≠ 0x0B) → s.m.hly.repl.actions = [] → s.m.hly.waiting = [] →
    s.m.hly.work.phase = .collecting ∨ s.m.hly.work.phase = .idle ∧ s.m.isEcho r = false →
    Completes (.linkStateRecordReceive p r) s fun m => m.hly.work.phase = .collecting ∧
      m.hly.work.changes = s.m.hly.work.changes ++ [.record r] ∧ m.hly.db.nodes = s.m.hly.db.nodes) ∧
  (∀ (s : State), s.m.hly.reg.state = .discover → s.m.joinsLate = none → Completes .discoverySettle s fun m =>
      m.hly.db.eligible = (s.m.rig 5 == 1) ∧ m.hly.db.settled = true ∧
      (m.hly.reg.state = .run ∧ m.hly.reg.master = s.m.node ∧ m.hly.reg.role = .provisional ∧ m.time.root = true ∧ m.time.depth = 0 ∨
       m.hly.reg.state = .run ∧ m.hly.reg.master = s.m.hly.db.announced ∧ m.hly.reg.role = .member ∧ m.time.root = false ∨
       m.hly.reg.state = .elect ∧ m.hly.reg.master = 0xFFFF ∧ m.hly.reg.role = .member ∧ m.time.root = s.m.time.root)) ∧
  (∀ (n : NodeId) (s : State), s.m.hly.reg.state = .discover → s.m.joinsLate = some n → Completes .discoverySettle s fun m =>
      m.hly.db.eligible = (s.m.rig 5 == 1) ∧ m.hly.db.settled = true ∧ m.hly.reg.state = .elect ∧ m.hly.reg.master = s.m.hly.reg.master ∧
      .mgmt n (.wantDelta s.m.hly.reg.topoGen) ∈ m.out) ∧
  (∀ (s : State), s.m.hly.reg.state ≠ .discover → Ignored .discoverySettle s) ∧
  (∀ (n : NodeId) (s : State), s.m.hly.reg.state = .elect → n ≠ s.m.node → s.m.choice = some n →
    Completes (.masterAnnounceReceive n) s fun m => m.hly.reg.state = .run ∧ m.hly.reg.master = n ∧ m.time.root = false ∧
      m.hly.db.settled = true) ∧
  (∀ (n : NodeId) (s : State), s.m.hly.reg.state = .elect → n ≠ s.m.node → s.m.choice ≠ some n → s.m.hly.db.announced ≠ 0xFFFF →
    s.m.hly.db.announced ≠ n → Completes (.masterAnnounceReceive n) s fun m => m.hly.reg.state = .run ∧ m.time.root = false ∧
      m.hly.reg.master = (if s.m.rankOf n < s.m.rankOf s.m.hly.db.announced then n else s.m.hly.db.announced)) ∧
  (∀ (n : NodeId) (s : State), s.m.isMaster = true → s.m.hly.reg.state = .run → s.m.hly.reg.master = s.m.node → n ≠ s.m.node →
    s.m.rankOf n < s.m.rankOf s.m.node →
    Completes (.masterAnnounceReceive n) s fun m => m.hly.reg.state = .run ∧ m.hly.reg.master = n ∧ m.hly.reg.role = .member ∧
      m.hly.reg.standby = 0xFFFF ∧ m.time.root = false ∧ .mgmt n (.handover s.m.replica) ∈ m.out) ∧
  (∀ (n : NodeId) (s : State), s.m.isMaster = true → s.m.hly.reg.state = .run → ¬ s.m.rankOf n < s.m.rankOf s.m.node →
    Completes (.masterAnnounceReceive n) s fun m => m.hly = s.m.hly ∧ m.time = s.m.time) ∧
  (∀ (n : NodeId) (s : State), s.m.isMaster = false → s.m.hly.reg.state = .run → n ≠ s.m.node → n ≠ s.m.hly.reg.master →
    n = s.m.hly.reg.standby → Completes (.masterAnnounceReceive n) s fun m => m.hly.reg.state = .run ∧ m.hly.reg.master = n ∧
      m.hly.reg.takeover = satAdd32 s.m.hly.reg.takeover 1 ∧ m.hly.reg.standby = 0xFFFF) ∧
  (∀ (gen : Word) (epoch : BitVec 16) (recs : List LsRecord) (s : State), s.m.hly.reg.state = .run ∨ s.m.hly.reg.state = .elect →
    Completes (.componentJoin gen epoch recs) s fun m =>
      m.hly.reg.topoGen = (if s.m.hly.reg.topoGen.toNat < gen.toNat then gen + 1 else s.m.hly.reg.topoGen + 1) ∧
      (m.hly.reg.state = .run ∧ (m.hly.reg.master = s.m.node ∨ m.hly.reg.master = s.m.hly.db.announced) ∨
       m.hly.reg.state = .elect ∧ m.hly.reg.master = 0xFFFF)) ∧
  (∀ (h : DbHead) (nodes : List NodeRec) (links : List LinkRec) (s : State), s.m.isMaster = false →
    s.m.hly.reg.state = .run ∨ s.m.hly.reg.state = .elect ∨ s.m.hly.reg.state = .restarting →
    h.base.toNat ≤ s.m.hly.reg.topoGen.toNat → s.m.hly.reg.topoGen.toNat ≤ h.gen.toNat →
    (∀ r ∈ nodes.foldl (fun l r => putNode r l) s.m.hly.db.nodes, r.node = h.master → r.admission = 0) →
    Completes (.generationDeltaReceive h nodes links) s fun m =>
      m.hly.reg.topoGen = h.gen ∧ m.hly.reg.quorum = h.quorum ∧ m.hly.reg.master = h.master ∧ m.hly.reg.standby = h.standby ∧
      m.hly.db.nodes = nodes.foldl (fun l r => putNode r l) s.m.hly.db.nodes ∧
      m.hly.db.links = links.foldl (fun l r => putLink r l) s.m.hly.db.links ∧ m.hly.db.time = h.time ∧ m.hly.reg.state = .run) ∧
  (∀ (h : DbHead) (nodes : List NodeRec) (links : List LinkRec) (s : State), s.m.isMaster = false →
    s.m.hly.reg.state = .run ∨ s.m.hly.reg.state = .elect ∨ s.m.hly.reg.state = .restarting →
    s.m.hly.reg.topoGen.toNat < h.base.toNat → s.m.hly.reg.topoGen.toNat ≤ h.gen.toNat →
    Completes (.generationDeltaReceive h nodes links) s fun m =>
      m = { s.m with out := s.m.out ++ [.mgmt h.master (.wantDelta s.m.hly.reg.topoGen)] }) ∧
  (∀ (h : DbHead) (nodes : List NodeRec) (links : List LinkRec) (s : State), s.m.isMaster = true ∨ h.gen.toNat < s.m.hly.reg.topoGen.toNat →
    Ignored (.generationDeltaReceive h nodes links) s) ∧
  (∀ (n : NodeId) (s : State), (∃ p < 24, (s.m.port p).stat.state = .active ∧ (s.m.port p).far.valid = true ∧ (s.m.port p).far.node = n) →
    s.m.isMaster = false → Completes (.helloStop n) s fun m => m.hly.reg = s.m.hly.reg ∧
      m.hly.db = { s.m.hly.db with nodes := s.m.hly.db.nodes.map fun r => if r.node = n ∧ r.state = 0 then { r with state := 4 } else r }) ∧
  (∀ (n : NodeId) (s : State), (∃ p < 24, (s.m.port p).stat.state = .active ∧ (s.m.port p).far.valid = true ∧ (s.m.port p).far.node = n) →
    s.m.isMaster = true → Completes (.helloStop n) s fun m => m.hly.work.changes = s.m.hly.work.changes ++ [.nodeState n 4] ∧ m.hly.db = s.m.hly.db) ∧
  (∀ (p : Port) (s : State), s.m.hly.db.holdDown.contains p.val = true → (s.m.port p).stat.state = .active →
    Completes (.holdDownExpiry p) s fun m => m.hly.db.holdDown = s.m.hly.db.holdDown.filter (· != p.val) ∧
      m.hly.db.ownSeq = s.m.hly.db.ownSeq + 1 ∧ m.shr = s.m.shr) ∧
  (∀ (p : Port) (s : State), s.m.hly.db.holdDown.contains p.val = false → Ignored (.holdDownExpiry p) s)

/-- 04 R116, R117, R119, R120, R134; 15 R439. -/
def Obligations.QuorumStandbyAndAbsence : Prop :=
  (∀ (n : Nat) (s : State), s.m.isMaster = true → s.m.hly.work.phase = .idle → s.m.hly.repl.actions = [] →
    s.m.hly.waiting = [] → Completes (.standbyAckReceive n) s fun m =>
      m.hly.repl = { s.m.hly.repl with acked := max s.m.hly.repl.acked n } ∧ m.hly.reg = s.m.hly.reg) ∧
  (∀ (s : State), s.m.isMaster = true → Completes .beaconSend s fun m =>
      m = { s.m with out := s.m.out ++ ((s.m.kidsUnder s.m.node).filter (· != s.m.node)).map fun d => Out.mgmt d .beacon }) ∧
  (∀ (n : Nat) (s : State), s.m.isMaster = true → s.m.hly.reg.state = .run → s.m.hly.repl.actions = [] → s.m.hly.waiting = [] →
    Completes (.beaconCountReceive n) s fun m =>
      m.hly.reg.quorum = decide (s.m.expected < 2 * n) ∧ m.hly.repl.reach = n ∧
      m.hly.reg.role = (if s.m.expected < 2 * n then .master else .provisional)) ∧
  (∀ (n : NodeId) (counts : List Nat) (s : State), s.m.hly.reg.state = .run → n = s.m.hly.reg.master → s.m.isMaster = false →
    Completes (.beaconReceive n counts) s fun m => m.hly = s.m.hly ∧
      m.out = s.m.out ++ (((s.m.kidsUnder n).filter (· != s.m.node)).map fun d => Out.mgmt d .beacon) ++
        [Out.mgmt (s.m.treeParent.getD n) (.beaconCount (1 + counts.foldl (· + ·) 0))]) ∧
  (∀ (seq : Nat) (r : Replica) (s : State), s.m.hly.reg.state = .run → s.m.isMaster = false →
    Completes (.standbyReplicate seq r) s fun m => m.hly.reg = { s.m.hly.reg with role := .standby, standby := s.m.node } ∧
      m.hly.repl = { s.m.hly.repl with replicaSeq := seq, replica := some r } ∧
      m.out = s.m.out ++ [Out.mgmt s.m.hly.reg.master (.replicateAck seq)]) ∧
  (∀ (n : Nat) (s : State), s.m.hly.reg.role = .standby → s.m.hly.reg.state = .run → Completes (.beaconTimeout n) s fun m =>
      m.hly.reg.master = s.m.node ∧ m.hly.reg.state = .run ∧ m.hly.reg.quorum = decide (s.m.expected < 2 * n) ∧
      m.hly.reg.role = (if s.m.expected < 2 * n then .master else .provisional) ∧ m.time.root = true ∧
      m.hly.reg.takeover = satAdd32 s.m.hly.reg.takeover 1) ∧
  (∀ (n : Nat) (s : State), s.m.hly.reg.role ≠ .standby → Ignored (.beaconTimeout n) s) ∧
  (∀ (n : NodeId) (s : State), s.m.isMaster = true → n ≠ s.m.node → ((s.m.nodeRec n).any fun r => r.state != 3) = true →
    s.m.cutOff n = true → s.m.hly.repl.actions = [] → s.m.hly.waiting = [] →
    Completes (.packageAbsent n) s fun m => ∀ r ∈ m.hly.db.nodes, r.node = n → r.state = 3) ∧
  (∀ (n : NodeId) (s : State), s.m.cutOff n = false → Ignored (.packageAbsent n) s) ∧
  (∀ (s : State), s.m.hly.reg.state = .restarting → s.m.hly.restartTry < 2 → Completes .halyardRestartTimeout s fun m =>
      m.hly.reg = { s.m.hly.reg with role := .member, prepared := false } ∧ m.hly.restarts = satAdd 65535 s.m.hly.restarts 1 ∧
      m.hly.restartTry = s.m.hly.restartTry + 1 ∧ m.hly.cur = none ∧ m.hly.waiting = [] ∧ m.hly.prepWait = none ∧ m.hly.commitAt = none ∧ m.hly.bank0 = s.m.hly.bank0 ∧
      m.hly.bank1 = s.m.hly.bank1) ∧
  (∀ (s : State), s.m.hly.reg.state = .restarting → 2 ≤ s.m.hly.restartTry → s.m.ttl.masking = false →
    Completes .halyardRestartTimeout s fun m => m.hly = s.m.hly ∧ m.ttl.landed = s.m.ttl.landed ++
      [{ source := 548, count := 1, unit := 0, ctx := none, cls := 4, forced := false }])

/-- 04 R128–R131. The master's work stands in `hly.work`, the two banks in `hly.bank0` and `hly.bank1`; a package that is not master only
answers. What the master's switch runs afterwards is stated by the commands that ask for it. -/
def Obligations.RouteEpochStages : Prop :=
  (∀ (s : State), s.m.hly.work.phase = .collecting → s.m.hly.work.joined = false →
    (s.m.hly.work.changes.foldl (fun m c => m.applyChange c) s.m).ownDuplicate = false → s.m.hly.repl.actions = [] →
    s.m.hly.waiting = [] → Completes .epochCollectClose s fun m =>
      m.hly.reg.topoGen = s.m.hly.reg.topoGen + 1 ∧ m.hly.work.changes = [] ∧ m.hly.db.time = s.m.time.now ∧
      m.hly.work.phase ≠ .collecting ∧ m.hly.repl.seq > s.m.hly.repl.seq) ∧
  (∀ (s : State), s.m.hly.work.phase ≠ .collecting → s.m.hly.repl.actions = [] →
    s.m.hly.waiting = [] → Ignored .epochCollectClose s) ∧
  (∀ (prs : List (NodeId × Prepare)) (k : NodeId) (pr : Prepare) (s : State), s.m.isMaster = false →
    prs.find? (fun e => e.1 == s.m.node) = some (k, pr) → s.m.hly.reg.admitted = true → s.m.hly.reg.oldHeld = false →
    (s.m.hly.reg.installed = true → pr.epoch.toNat % 2 ≠ s.m.hly.reg.epoch.toNat % 2) → pr.gen = s.m.hly.reg.topoGen ∨ pr.same = true →
    Completes (.epochPrepareReceive prs) s fun m => m.hly.reg = { s.m.hly.reg with prepared := true } ∧
      m.bank pr.epoch.toNat = (if pr.same then { s.m.activeBank with prep := { s.m.activeBank.prep with epoch := pr.epoch } } else
        { valid := true, gen := pr.gen, cols := s.m.hly.reg.cols.toNat, rows := s.m.hly.reg.rows.toNat,
          nodes := s.m.hly.db.nodes, links := s.m.hly.db.links, prep := pr }) ∧
      m.bank (pr.epoch.toNat + 1) = s.m.bank (pr.epoch.toNat + 1) ∧ m.hly.prepWait = none ∧
      m.out = s.m.out ++ ((s.m.treeKids.filter (· != s.m.node)).map fun d => Out.mgmt d (.prepare prs)) ++
        [Out.mgmt s.m.hly.reg.master (.ready pr.epoch)]) ∧
  (∀ (prs : List (NodeId × Prepare)) (k : NodeId) (pr : Prepare) (s : State), s.m.isMaster = false →
    prs.find? (fun e => e.1 == s.m.node) = some (k, pr) → s.m.hly.reg.admitted = true → s.m.hly.reg.oldHeld = false →
    (s.m.hly.reg.installed = true → pr.epoch.toNat % 2 ≠ s.m.hly.reg.epoch.toNat % 2) → pr.gen ≠ s.m.hly.reg.topoGen → pr.same = false →
    Completes (.epochPrepareReceive prs) s fun m => m.hly = { s.m.hly with prepWait := some pr } ∧
      m.out = s.m.out ++ ((s.m.treeKids.filter (· != s.m.node)).map fun d => Out.mgmt d (.prepare prs)) ++
        [Out.mgmt s.m.hly.reg.master (.wantDelta s.m.hly.reg.topoGen)]) ∧
  (∀ (prs : List (NodeId × Prepare)) (s : State), s.m.isMaster = true → Ignored (.epochPrepareReceive prs) s) ∧
  (∀ (prs : List (NodeId × Prepare)) (s : State), s.m.isMaster = false → s.m.hly.reg.admitted = false ∨ s.m.hly.reg.oldHeld = true →
    Completes (.epochPrepareReceive prs) s fun m => m = { s.m with
      out := s.m.out ++ (s.m.treeKids.filter (· != s.m.node)).map fun d => Out.mgmt d (.prepare prs) }) ∧
  (∀ (n : NodeId) (e : BitVec 16) (s : State), s.m.isMaster = true → s.m.hly.work.phase = .preparing → s.m.hly.work.epoch = e →
    (∃ x ∈ s.m.awaited, x ≠ n ∧ s.m.hly.work.ready.contains x = false) → s.m.hly.repl.actions = [] →
    s.m.hly.waiting = [] → Completes (.epochReadyReceive n e) s fun m =>
      m.hly.work = { s.m.hly.work with ready := if s.m.hly.work.ready.contains n then s.m.hly.work.ready else s.m.hly.work.ready ++ [n] } ∧
      m.hly.reg = s.m.hly.reg ∧ m.out = s.m.out) ∧
  (∀ (n : NodeId) (e : BitVec 16) (s : State), s.m.isMaster = true → s.m.hly.work.phase = .preparing → s.m.hly.work.epoch = e →
    (∀ x ∈ s.m.awaited, x = n ∨ s.m.hly.work.ready.contains x = true) → s.m.hly.reg.standby = 0xFFFF → s.m.hly.repl.actions = [] →
    s.m.hly.waiting = [] →
    Completes (.epochReadyReceive n e) s fun m => m.hly.work.phase = .committed ∧ m.hly.work.switchAt = s.m.time.now + 50000 ∧
      m.hly.work.epoch = e ∧ m.out = s.m.out ++ (s.m.awaited.filter (· != s.m.node)).map fun d => Out.mgmt d (.commit e (s.m.time.now + 50000))) ∧
  (∀ (n : NodeId) (e : BitVec 16) (s : State), s.m.hly.work.phase ≠ .preparing ∨ s.m.hly.work.epoch ≠ e →
    Ignored (.epochReadyReceive n e) s) ∧
  (∀ (e : BitVec 16) (t : DWord) (s : State), s.m.isMaster = false → s.m.hly.reg.prepared = true → (s.m.bank e.toNat).prep.epoch = e →
    Completes (.epochCommitReceive e t) s fun m => m.hly = { s.m.hly with commitAt := some (e, t) } ∧ m.out = s.m.out) ∧
  (∀ (e : BitVec 16) (t : DWord) (s : State), s.m.isMaster = false → s.m.hly.reg.prepared = false →
    Completes (.epochCommitReceive e t) s fun m => m = { s.m with out := s.m.out ++ [Out.mgmt s.m.hly.reg.master (.notPrepared e)] }) ∧
  (∀ (e : BitVec 16) (t : DWord) (s : State), s.m.hly.commitAt = some (e, t) → s.m.hly.reg.prepared = true → s.m.isMaster = false →
    Completes .epochSwitch s fun m => m.hly.reg = { s.m.hly.reg with epoch := e, prepared := false, oldHeld := s.m.hly.reg.installed,
                                                                     installed := true } ∧
      m.hly.commitAt = none ∧ m.hly.bank0 = s.m.hly.bank0 ∧ m.hly.bank1 = s.m.hly.bank1) ∧
  (∀ (e : BitVec 16) (t : DWord) (s : State), s.m.hly.commitAt = some (e, t) → s.m.hly.reg.prepared = true → s.m.isMaster = true →
    s.m.hly.work.after = [] → s.m.hly.work.extraNodes = [] → s.m.hly.repl.actions = [] →
    s.m.hly.waiting = [] →
    Completes .epochSwitch s fun m => m.hly.reg.epoch = e ∧ m.hly.reg.installed = true ∧
      m.tkp.resv = s.m.nextResv ∧ m.tkp.claims = s.m.nextClaims ∧ m.tkp.held = s.m.tkp.held ∧ m.tkp.replanHeld = [] ∧
      m.hly.work.phase = (if s.m.hly.work.changes.any asksEpoch then .collecting else .idle)) ∧
  (∀ (s : State), s.m.hly.reg.oldHeld = true → Completes .oldBankRelease s fun m =>
      m.hly.reg = { s.m.hly.reg with oldHeld := false } ∧ m.bank (s.m.hly.reg.epoch.toNat + 1) = .reset ∧ m.activeBank = s.m.activeBank) ∧
  (∀ (s : State), s.m.hly.reg.oldHeld = false → Ignored .oldBankRelease s) ∧
  (∀ (n : NodeId) (s : State), s.m.isMaster = true → s.m.hly.work.phase = .preparing → s.m.awaited.contains n = true →
    s.m.hly.work.ready.contains n = false → s.m.hly.repl.actions = [] →
    s.m.hly.waiting = [] → Completes (.epochReadyTimeout n) s fun m =>
      m.hly.work.phase = .collecting ∧ m.hly.work.late = s.m.hly.work.late ++ [n] ∧
      m.hly.work.changes = s.m.hly.work.changes ++ [Change.nodeState n 1] ∧ m.hly.work.ready = [] ∧
      m.hly.reg.prepared = false ∧ m.tkp.replanHeld = []) ∧
  (∀ (e : BitVec 16) (s : State), s.m.isMaster = false → s.m.hly.reg.prepared = true → Completes (.epochAbortReceive e) s fun m =>
      m.hly.reg = { s.m.hly.reg with prepared := false } ∧ m.bank e.toNat = .reset ∧ m.bank (e.toNat + 1) = s.m.bank (e.toNat + 1) ∧
      (∀ t, s.m.hly.commitAt = some (e, t) → m.hly.commitAt = none)) ∧
  (∀ (s : State), s.m.isMaster = true → s.m.hly.work.phase = .idle → s.m.hly.repl.actions = [] →
    s.m.hly.waiting = [] →
    Completes .epochPrepareGuard s fun m => m = { s.m with hly := { s.m.hly with work := { s.m.hly.work with guardDone := true } } }) ∧
  (∀ (s : State), s.m.isMaster = true → s.m.hly.work.phase = .guarded → s.m.hly.repl.actions = [] →
    s.m.hly.waiting = [] → Completes .epochPrepareGuard s fun m =>
      m.hly.work.epoch = s.m.nextEpoch ∧ (m.hly.work.phase = .preparing ∨ m.hly.work.phase = .timing ∨ m.hly.work.phase = .committed) ∧
      ∀ k ∈ s.m.treeKids, k ≠ s.m.node → s.m.hly.reg.master = s.m.node →
        .mgmt k (.prepare ((s.m.awaited.filter (· != s.m.node)).map fun n => (n, s.m.prepareFor s.m.nextEpoch n))) ∈ m.out) ∧
  (∀ (s : State), s.m.isMaster = true → s.m.hly.work.phase = .committed → s.m.hly.work.extraNodes ≠ [] →
    s.m.hly.work.extraNodes.contains s.m.node = false → Completes .epochPrepareGuard s fun m =>
      m.hly.work.phase = .collecting ∧ m.hly.work.extraNodes = [] ∧ m.hly.work.nextEpoch = s.m.hly.work.finalEpoch ∧ m.hly.work.guardDone = true)

/-- 04 R136–R138, Table 4.9, R117; 03 R90. At a master with no standby and no other command in hand (`Machine.soleMaster`) a member's
command executes at once; `argRec args` reads its argument words. -/
def Obligations.HalyardCommandsAtTheMaster : Prop :=
  (∀ (n : NodeId) (args : List Word) (data : List Byte) (cb : CableRead) (s : State), s.m.soleMaster = true → (argRec args).arg 13 ≠ 0 →
    Completes (.portDisable (.forwarded n args data)) s (s.m.answered · n 0x02 0x03 [] []) ∧
    Completes (.portEnable (.forwarded n args data) cb) s (s.m.answered · n 0x03 0x03 [] []) ∧
    Completes (.portFullTrain (.forwarded n args data) cb) s (s.m.answered · n 0x04 0x03 [] []) ∧
    Completes (.portTestRetrain (.forwarded n args data)) s (s.m.answered · n 0x05 0x03 [] []) ∧
    Completes (.masterHandover (.forwarded n args data)) s (s.m.answered · n 0x07 0x03 [] []) ∧
    Completes (.masterConfirm (.forwarded n args data)) s (s.m.answered · n 0x08 0x03 [] []) ∧
    Completes (.packageDrain (.forwarded n args data)) s (s.m.answered · n 0x09 0x03 [] []) ∧
    Completes (.packageRestore (.forwarded n args data)) s (s.m.answered · n 0x0A 0x03 [] [])) ∧
  (∀ (n : NodeId) (args : List Word) (data : List Byte) (l : LinkRec) (s : State), s.m.soleMaster = true →
    (argRec args).only [npMask] = true → s.m.linkOf ((argRec args).np 0) = some l →
    Completes (.portDisable (.forwarded n args data)) s fun m => m.hly.work.changes = s.m.hly.work.changes ++
        [Change.linkDisabled ((argRec args).np 0).1 ((argRec args).np 0).2 true] ∧ m.hly.work.pendingAfter = s.m.hly.work.pendingAfter ++
        [AfterSwitch.portDown ((argRec args).np 0).1 ((argRec args).np 0).2, .finishEpoch] ∧ m.out = s.m.out) ∧
  (∀ (n : NodeId) (args : List Word) (data : List Byte) (cb : CableRead) (l : LinkRec) (s : State), s.m.soleMaster = true →
    s.m.fullAuthority = true → (argRec args).only [npMask] = true → s.m.linkOf ((argRec args).np 0) = some l →
    ((argRec args).np 0).1 ≠ s.m.node → Completes (.portEnable (.forwarded n args data) cb) s fun m =>
      m.hly.work.changes = s.m.hly.work.changes ++ [Change.linkDisabled ((argRec args).np 0).1 ((argRec args).np 0).2 false] ∧
      m.out = s.m.out ++ [Out.mgmt ((argRec args).np 0).1 (.portOrder 0x03 ((argRec args).np 0).2), .mgmt n (.reply 0x03 0 [] [])]) ∧
  (∀ (n : NodeId) (args : List Word) (data : List Byte) (cb : CableRead) (l : LinkRec) (s : State), s.m.soleMaster = true →
    s.m.fullAuthority = true → (argRec args).only [npMask] = true → s.m.linkOf ((argRec args).np 0) = some l →
    Completes (.portFullTrain (.forwarded n args data) cb) s fun m =>
      m.hly.work.changes = s.m.hly.work.changes ++ [Change.linkOut l.node l.port] ∧ m.hly.work.pendingAfter = s.m.hly.work.pendingAfter ++
        [AfterSwitch.fullTrain l.node l.port l.farNode l.farPort (some cb), .finishEpoch] ∧ m.shr = s.m.shr) ∧
  (∀ (n : NodeId) (args : List Word) (data : List Byte) (l : LinkRec) (s : State), s.m.soleMaster = true →
    (argRec args).only [npMask] = true → s.m.linkOf ((argRec args).np 0) = some l → ((argRec args).np 0).1 ≠ s.m.node →
    Completes (.portTestRetrain (.forwarded n args data)) s fun m => m.hly.work = s.m.hly.work ∧
      m.out = s.m.out ++ [Out.mgmt ((argRec args).np 0).1 (.portOrder 0x05 ((argRec args).np 0).2), .mgmt n (.reply 0x05 0 [] [])]) ∧
  (∀ (p : Port) (s : State), (s.m.port p).stat.assigned = true → Completes (.portDisable (.order p)) s fun m =>
      (m.port p).stat.state = .down ∧ (m.port p).stat.reason = 0x0D ∧ (m.port p).train.disabled = true ∧ s.m.otherPorts m p) ∧
  (∀ (p : Port) (cb : CableRead) (cls : Nat) (s : State), (s.m.port p).stat.assigned = true → (s.m.port p).stat.state = .down →
    cableClass s.m.pins (s.m.port p).stat cb = .inl cls → Completes (.portEnable (.order p) cb) s fun m =>
      (m.port p).stat.state = .detect ∧ (m.port p).train.disabled = false ∧ (m.port p).train.attempts = 0 ∧
      (m.port p).train.ownClass = cls ∧ s.m.otherPorts m p) ∧
  (∀ (p : Port) (cb : CableRead) (cls : Nat) (s : State), (s.m.port p).stat.state = .active ∨ (s.m.port p).stat.state = .retrain →
    cableClass s.m.pins (s.m.port p).stat cb = .inl cls → Completes (.portFullTrain (.order p) cb) s fun m =>
      (m.port p).stat.state = .detect ∧ (m.port p).train.ownClass = cls ∧ (m.port p).tx = .reset ∧ (m.port p).rx = .reset ∧ s.m.otherPorts m p) ∧
  (∀ (p : Port) (s : State), (s.m.port p).stat.state = .active → Completes (.portTestRetrain (.order p)) s fun m =>
      (m.port p).stat.state = .retrain ∧ (m.port p).rt = { own := some 0x4, leads := false } ∧ s.m.otherPorts m p) ∧
  (∀ (n : NodeId) (args : List Word) (data : List Byte) (s : State), s.m.soleMaster = true → (argRec args).only [0xFFFF] = true →
    let x : NodeId := BitVec.ofNat 16 (bits ((argRec args).arg 0) 0 16)
    s.m.known x = true → s.m.pins.form = false → s.m.fullAuthority = true → (s.m.candidates.any fun r => r.node == x) = true → x ≠ s.m.node →
    Completes (.masterHandover (.forwarded n args data)) s fun m =>
      m.hly.reg = { s.m.hly.reg with role := .standby, master := x, standby := s.m.node } ∧ m.time.root = false ∧
      .mgmt n (.reply 0x07 0 [] []) ∈ m.out ∧ ∃ r : Replica, .mgmt x (.handover r) ∈ m.out ∧ r.gen = s.m.hly.reg.topoGen ∧ r.slc = s.m.slc ∧
        r.resv = s.m.tkp.resv ∧ r.claims = s.m.tkp.claims) ∧
  (∀ (n : NodeId) (r : Replica) (s : State), s.m.isMaster = false → n = s.m.hly.reg.master → n ≠ s.m.node → s.m.hly.reg.state = .run →
    Completes (.masterHandover (.handover n r)) s fun m => m.hly.reg.state = .run ∧ m.hly.reg.master = s.m.node ∧ m.hly.reg.standby = n ∧
      m.hly.reg.quorum = s.m.hly.reg.quorum ∧ m.time.root = true ∧ m.tkp.resv = r.resv) ∧
  (∀ (n : NodeId) (r : Replica) (s : State), s.m.isMaster = true → s.m.hly.repl.actions = [] → s.m.hly.waiting = [] →
    Completes (.masterHandover (.handover n r)) s fun m => m.hly.reg = s.m.hly.reg ∧ ∀ t, m.sliceAt t =
      if (s.m.sliceAt t).state = .free ∧ t ∈ tkeys r.slc.recs then tget SliceRec.reset r.slc.recs t else s.m.sliceAt t) ∧
  (∀ (n : NodeId) (args : List Word) (data : List Byte) (s : State), s.m.soleMaster = true → (argRec args).only [] = true →
    Completes (.masterConfirm (.forwarded n args data)) s fun m => m.hly.db = { s.m.hly.db with confirmed := true, masterHeld := [] } ∧
      m.hly.work.changes = s.m.hly.work.changes ++ (s.m.hly.db.masterHeld.map fun e => Change.linkHold e.1 e.2 false) ∧
      s.m.answered m n 0x08 0 [] []) ∧
  (∀ (n : NodeId) (args : List Word) (data : List Byte) (s : State), s.m.soleMaster = true → (argRec args).only [0xFFFF] = true →
    let x : NodeId := BitVec.ofNat 16 (bits ((argRec args).arg 0) 0 16)
    s.m.known x = true → Completes (.packageDrain (.forwarded n args data)) s fun m =>
      m.hly.work.changes = s.m.hly.work.changes ++ [Change.nodeState x 1] ∧
      m.hly.work.pendingAfter = s.m.hly.work.pendingAfter ++ [AfterSwitch.drained x, .finishEpoch] ∧ m.hly.db = s.m.hly.db) ∧
  (∀ (n : NodeId) (args : List Word) (data : List Byte) (r : NodeRec) (s : State), s.m.soleMaster = true →
    (argRec args).only [0xFFFF] = true → s.m.nodeRec (BitVec.ofNat 16 (bits ((argRec args).arg 0) 0 16)) = some r →
    s.m.fullAuthority = true → r.state = 2 → Completes (.packageRestore (.forwarded n args data)) s fun m =>
      m.hly.work.changes = s.m.hly.work.changes ++ [Change.nodeState (BitVec.ofNat 16 (bits ((argRec args).arg 0) 0 16)) 0] ∧
      m.hly.work.pendingAfter = s.m.hly.work.pendingAfter ++ [AfterSwitch.finishEpoch] ∧ m.out = s.m.out)

/-- 04 R137–R139; 16 R458; 02 R56; 18 R519, R520. `Machine.boxArgs` reads the ARG registers, `Machine.boxRec` is the command taken in, and
`Machine.boxOpen` a mailbox that is not BUSY on a package that has booted. -/
def Obligations.OwnCommandsAndTheirResults : Prop :=
  (∀ (n : NodeId) (args : List Word) (data : List Byte) (s : State), s.m.isMaster = true →
    (argRec args).only [wordMask, wordMask, wordMask] = true → aligned8 ((argRec args).addr 0) = true →
    Completes (.topoRead (.forwarded n args data)) s fun m => m.hly = s.m.hly ∧
      (s.m.dbBytes.length ≤ ((argRec args).arg 2).toNat →
        s.m.answered m n 0x01 0 [BitVec.ofNat 32 s.m.dbBytes.length] s.m.dbBytes) ∧
      (((argRec args).arg 2).toNat < s.m.dbBytes.length → s.m.answered m n 0x01 0x07 [BitVec.ofNat 32 s.m.dbBytes.length] [])) ∧
  (∀ (n : NodeId) (data : List Byte) (s : State), s.m.isMaster = true → Completes (.epochQuery (.forwarded n [] data)) s fun m =>
      m.hly = s.m.hly ∧ s.m.answered m n 0x06 0 [s.m.hly.reg.epoch.setWidth 32, s.m.hly.reg.topoGen,
        word [(0, s.m.hly.reg.master.toNat), (16, s.m.hly.reg.standby.toNat)]] []) ∧
  (∀ (seq : BitVec 8) (s : State), let n := bits (s.m.boxArgs.arg 0) 0 16
    let v := (s.m.boxArgs.arg 1).toNat
    s.m.boxOpen = true → s.m.boxArgs.only [0xFFFF, wordMask] = true → rigListed n = true → rigRuntime n = true → n ≠ 0x06 → n ≠ 0x0C →
    s.m.rigInRange n v = true → Completes (.rigWrite (.mailbox seq)) s fun m => m.rig n = v ∧
      m.boot.rigWrites = satAdd32 s.m.boot.rigWrites 1 ∧ m.hly.finished = s.m.hly.finished ++
        [{ cmd := s.m.boxRec 0x0B seq, status := 0, res := [BitVec.ofNat 32 v], data := [] }]) ∧
  (∀ (seq : BitVec 8) (s : State), let v := (s.m.boxArgs.arg 1).toNat
    let w := max 300 (min v s.m.gradeCap)
    s.m.boxOpen = true → s.m.boxArgs.only [0xFFFF, wordMask] = true → bits (s.m.boxArgs.arg 0) 0 16 = 0x06 → rigListed 6 = true →
    rigRuntime 6 = true → Completes (.rigWrite (.mailbox seq)) s fun m => m.rig 0x06 = w ∧ m.hly.finished = s.m.hly.finished ++
        [{ cmd := s.m.boxRec 0x0B seq, status := 0, res := [BitVec.ofNat 32 w], data := [] }]) ∧
  (∀ (seq : BitVec 8) (s : State), let n := bits (s.m.boxArgs.arg 0) 0 16
    s.m.boxOpen = true → s.m.boxArgs.only [0xFFFF] = true → rigListed n = true → n ≠ 0x0C →
    Completes (.rigRead (.mailbox seq)) s fun m => m.boot = s.m.boot ∧ m.hly.finished = s.m.hly.finished ++
        [{ cmd := s.m.boxRec 0x0C seq, status := 0, res := [BitVec.ofNat 32 (s.m.rig n)], data := [] }]) ∧
  (∀ (reply : Option CmdReply) (d : HlyDone) (l : List HlyDone) (s : State), s.m.hly.finished = d :: l → d.cmd.src = .mailbox →
    Completes (.hlyCmdResult false reply) s fun m => m.hly.finished = l ∧ m.hly.boxCmd = none ∧ m.hly.box.busy = false ∧
      m.hly.box.done = true ∧ m.hly.box.status = d.status ∧ m.hly.box.statSeq = d.cmd.seq ∧
      (∀ i < 8, tget 0 m.hly.box.res i = d.res.getD i 0) ∧
      m.hostMem = (s.m.hostWrite (d.cmd.addr (dataArg d.cmd.opcode)) d.data).hostMem ∧
      m.hst.flushCnt = if d.data = [] then s.m.hst.flushCnt else satAdd32 s.m.hst.flushCnt 1) ∧
  (∀ (c : HlyCmdRec) (s : State), s.m.hly.boxCmd = some c → s.m.isMaster = false → s.m.hly.finished = [] →
    Completes (.hlyCmdNoMaster false) s fun m => m.hly.boxCmd = none ∧ m.hly.box.busy = false ∧ m.hly.box.done = true ∧
      m.hly.box.status = 0x04 ∧ m.hly.box.statSeq = c.seq) ∧
  (∀ (s : State), s.m.hly.boxCmd = none → Ignored (.hlyCmdNoMaster false) s)

/-- 05 R154, R168–R170. `Tkp.next` takes a REPLAN before the others; `Machine.freshJob` gives floor(D / 500 ns) rounds less four. -/
def Obligations.PlannerRunsItsJobs : Prop :=
  (∀ (j : Job) (rest : List Job) (s : State), s.m.tkp.job = none → s.m.tkp.next = some (j, rest) →
    (j.kind = .replan ∨ (∀ d ∈ j.req.demands, s.m.badDemand j.req d = false ∧
      (j.req.fixed = true ∨ j.reserve = true → (s.m.blockAt j.req.ext (j.req.hint.getD (0, 0, 0))).outside d = false))) → Completes .plannerJobStart s fun m =>
      m.tkp = { s.m.tkp with busy := true, kind := j.kind, job := some (s.m.freshJob j), queue := rest }) ∧
  (∀ (j : Job) (s : State), s.m.tkp.job = some j → j.kind ≠ .replan → s.m.tkp.replanWaits = true →
    Completes .plannerJobStart s fun m => (∃ r, m.tkp.job = some r ∧ r.kind = .replan) ∧ m.tkp.queue.head? = some (s.m.freshJob j) ∧
      m.tkp.busy = true ∧ m.tkp.queue.length = s.m.tkp.queue.length) ∧
  (∀ (j : Job) (s : State), s.m.tkp.job = none → s.m.tkp.queue = [j] → j.kind = .dryrun → (j.req.demands.any (·.malformed)) = true →
    s.m.hly.repl.actions = [] → s.m.hly.waiting = [] → Completes .plannerJobStart s fun m => m.tkp.job = none ∧ m.tkp.busy = false ∧ m.tkp.grade = 4 ∧
      m.tkp.reason = 0x07 ∧ m.tkp.cntRefused = satAdd32 s.m.tkp.cntRefused 1 ∧ m.tkp.cntJobs = satAdd32 s.m.tkp.cntJobs 1 ∧
      m.tkp.held = s.m.tkp.held) ∧
  (∀ (s : State), s.m.tkp.job = none → s.m.tkp.queue = [] →
    Ignored .plannerJobStart s ∧ Ignored .plannerRound s ∧ Ignored .plannerDeadline s) ∧
  (∀ (j : Job) (s : State), s.m.tkp.job = some j → 2 ≤ j.roundsLeft → 2 ≤ j.burn → Completes .plannerRound s fun m =>
      m.tkp = { s.m.tkp with job := some { j with burn := j.burn - 1, used := j.used + 1, roundsLeft := j.roundsLeft - 1 } }) ∧
  (∀ (j : Job) (s : State), s.m.tkp.job = some j → j.kind = .dryrun → s.m.hly.repl.actions = [] → s.m.hly.waiting = [] →
    Completes .plannerDeadline s fun m => m.tkp.job = none ∧ m.tkp.busy = false ∧ m.tkp.cntDeadline = satAdd32 s.m.tkp.cntDeadline 1 ∧
      m.tkp.rounds = min 65535 (j.used + 4) ∧ m.tkp.held = s.m.tkp.held ∧
      (j.best = none → m.tkp.grade = 4 ∧ m.tkp.reason = 0x06) ∧
      (∀ r, j.best = some r → m.tkp.grade = if r.grade < 2 then 2 else r.grade))

/-- 05 Table 5.6, R141, R145, R148, R154, R159, R162, R166, R169; 18 R520. -/
def Obligations.PlannerCommandsAtTheMaster : Prop :=
  (∀ (n : NodeId) (args : List Word) (data : List Byte) (host : Cells) (s : State), s.m.soleMaster = true → (argRec args).arg 13 ≠ 0 →
    Completes (.tkpDryrun (.forwarded n args data) host) s (s.m.answered · n 0x20 0x03 [] []) ∧
    Completes (.tkpResvRead (.forwarded n args data)) s (s.m.answered · n 0x21 0x03 [] []) ∧
    Completes (.tkpSlotsRead (.forwarded n args data)) s (s.m.answered · n 0x22 0x03 [] []) ∧
    Completes (.tkpBiasSet (.forwarded n args data)) s (s.m.answered · n 0x23 0x03 [] []) ∧
    Completes (.tkpHeadroomSet (.forwarded n args data)) s (s.m.answered · n 0x24 0x03 [] []) ∧
    Completes (.tkpDeadlineSet (.forwarded n args data)) s (s.m.answered · n 0x25 0x03 [] []) ∧
    Completes (.tkpReplanAll (.forwarded n args data)) s (s.m.answered · n 0x26 0x03 [] []) ∧
    Completes (.tkpRampRead (.forwarded n args data)) s (s.m.answered · n 0x27 0x03 [] [])) ∧
  (∀ (n : NodeId) (args : List Word) (data : List Byte) (host : Cells) (req : SliceReq) (s : State), s.m.soleMaster = true →
    let c : HlyCmdRec := { argRec args with data := data }
    c.only [wordMask, wordMask, wordMask, 0x107FF] = true → aligned8 (c.addr 0) = true → 0 < (c.arg 2).toNat → (c.arg 2).toNat ≤ 256 →
    s.m.badHint c = false → s.m.readRequest 0 (dryrunRecord c) = some req → req.demands.length = (c.arg 2).toNat →
    (∀ i < (c.arg 2).toNat, leAt data (32 + 32 * i) 2 = 0) → Completes (.tkpDryrun (.forwarded n args data) host) s fun m =>
      m.tkp = { s.m.tkp with queue := s.m.tkp.queue ++ [{ placeJob 0 req false s.m.fullAuthority with kind := .dryrun }] } ∧ m.out = s.m.out) ∧
  (∀ (n : NodeId) (args : List Word) (data : List Byte) (s : State), s.m.soleMaster = true →
    let c := argRec args
    let b := (s.m.tkp.resv.filter fun r => r.tag == bits (c.arg 0) 0 12).flatMap resvBytes
    c.only [0xFFF, wordMask, wordMask, wordMask] = true → aligned8 (c.addr 1) = true → bits (c.arg 0) 0 12 ≠ 0 →
    Completes (.tkpResvRead (.forwarded n args data)) s fun m => m.tkp = s.m.tkp ∧
      (b.length ≤ (c.arg 3).toNat → s.m.answered m n 0x21 0 [BitVec.ofNat 32 (b.length / 16)] b) ∧
      ((c.arg 3).toNat < b.length → s.m.answered m n 0x21 0x07 [BitVec.ofNat 32 (b.length / 16)] [])) ∧
  (∀ (n : NodeId) (args : List Word) (data : List Byte) (l : LinkRec) (s : State), s.m.soleMaster = true →
    let c := argRec args
    c.only [npMask, wordMask, wordMask] = true → aligned8 (c.addr 1) = true → s.m.linkOf (c.np 0) = some l →
    Completes (.tkpSlotsRead (.forwarded n args data)) s fun m => m.tkp = s.m.tkp ∧
      s.m.answered m n 0x22 0 [s.m.hly.reg.epoch.setWidth 32] (slotTableBytes s.m.activeBank (c.np 0).1 (c.np 0).2)) ∧
  (∀ (n : NodeId) (args : List Word) (data : List Byte) (l : LinkRec) (s : State), s.m.soleMaster = true → s.m.fullAuthority = true →
    let c := argRec args
    c.only [npMask, 0x7FFF] = true → s.m.linkOf (c.np 0) = some l → Completes (.tkpBiasSet (.forwarded n args data)) s fun m =>
      m.hly.work.changes = s.m.hly.work.changes ++ [.bias (c.np 0).1 (c.np 0).2 (bits (c.arg 1) 0 15)] ∧ m.hly.db = s.m.hly.db ∧
      s.m.answered m n 0x23 0 [] []) ∧
  (∀ (n : NodeId) (args : List Word) (data : List Byte) (s : State), s.m.soleMaster = true → s.m.fullAuthority = true →
    let v := bits ((argRec args).arg 0) 0 8
    (argRec args).only [0xFF] = true → Completes (.tkpHeadroomSet (.forwarded n args data)) s fun m =>
      (64 ≤ v ∧ v ≤ 240 → m.tkp = { s.m.tkp with resvMax := v } ∧ s.m.answered m n 0x24 0 [] []) ∧
      (v < 64 ∨ 240 < v → m.tkp = s.m.tkp ∧ s.m.answered m n 0x24 0x03 [] [])) ∧
  (∀ (n : NodeId) (args : List Word) (data : List Byte) (s : State), s.m.soleMaster = true →
    let us := bits ((argRec args).arg 0) 0 13
    let ms := bits ((argRec args).arg 1) 0 9
    (argRec args).only [0x1FFF, 0x1FF] = true → Completes (.tkpDeadlineSet (.forwarded n args data)) s fun m =>
      (50 ≤ us ∧ us ≤ 5000 ∧ 1 ≤ ms ∧ ms ≤ 500 →
        m.tkp = { s.m.tkp with replanUs := us, placeMs := ms } ∧ s.m.answered m n 0x25 0 [] []) ∧
      (us < 50 ∨ 5000 < us ∨ ms < 1 ∨ 500 < ms → m.tkp = s.m.tkp ∧ s.m.answered m n 0x25 0x03 [] [])) ∧
  (∀ (n : NodeId) (args : List Word) (data : List Byte) (s : State), s.m.soleMaster = true → s.m.fullAuthority = true →
    let us := bits ((argRec args).arg 0) 0 13
    (argRec args).only [0x1FFF] = true → 50 ≤ us → us ≤ 5000 → Completes (.tkpReplanAll (.forwarded n args data)) s fun m =>
      m.hly.work.wantReplan = true ∧ m.hly.work.wantAll = true ∧ m.hly.work.wantNs = us * 1000 ∧
      m.hly.work.pendingAfter = s.m.hly.work.pendingAfter ++ [AfterSwitch.finishReplan] ∧ m.out = s.m.out) ∧
  (∀ (n : NodeId) (args : List Word) (data : List Byte) (s : State), s.m.soleMaster = true →
    let t := bits ((argRec args).arg 0) 0 7
    (argRec args).only [0x7F] = true → t % 4 * 4 < s.m.dims.1 → t / 4 % 4 * 4 < s.m.dims.2.1 →
    Completes (.tkpRampRead (.forwarded n args data)) s fun m => m.tkp = s.m.tkp ∧ s.m.answered m n 0x27 0
      [word [(0, s.m.trayBudget t), (16, (s.m.tkp.claims.filter fun x => x.tray == t).foldl (fun a x => a + x.groupSize * x.rate) 0)]] [])

/-- 06 R178, R181, R186, R192–R194, R198, Tables 6.5–6.7. `Machine.readRequest` is R193's check of a request record. -/
def Obligations.SliceCommandsAtTheMaster : Prop :=
  (∀ (n : NodeId) (args : List Word) (data : List Byte) (host : Cells) (s : State), s.m.soleMaster = true → (argRec args).arg 13 ≠ 0 →
    Completes (.sliceCreate (.forwarded n args data) host) s (s.m.answered · n 0x10 0x03 [] []) ∧
    Completes (.sliceDestroy (.forwarded n args data)) s (s.m.answered · n 0x11 0x03 [] []) ∧
    Completes (.sliceQuery (.forwarded n args data)) s (s.m.answered · n 0x12 0x03 [] []) ∧
    Completes (.sliceList (.forwarded n args data)) s (s.m.answered · n 0x13 0x03 [] []) ∧
    Completes (.sliceLayout (.forwarded n args data)) s (s.m.answered · n 0x14 0x03 [] []) ∧
    Completes (.slicePeer (.forwarded n args data)) s (s.m.answered · n 0x15 0x03 [] []) ∧
    Completes (.sliceReserve (.forwarded n args data) host) s (s.m.answered · n 0x16 0x03 [] [])) ∧
  (∀ (n : NodeId) (args : List Word) (data : List Byte) (host : Cells) (tag : Nat) (req req0 : SliceReq) (s : State),
    s.m.soleMaster = true → s.m.fullAuthority = true → (argRec args).only [wordMask, wordMask, wordMask] = true →
    aligned8 ((argRec args).addr 0) = true → s.m.readRequest 0 data = some req0 → s.m.allocTag = some tag →
    s.m.readRequest tag data = some req → Completes (.sliceCreate (.forwarded n args data) host) s fun m =>
      m.slc.lastTag = tag ∧ m.sliceAt tag = { SliceRec.reset with
        state := .placing, ext := req.ext, k := req.k, ctxMax := req.ctxMax, tenant := req.tenant, req := req, demands := req.demands } ∧
      m.tkp = { s.m.tkp with queue := s.m.tkp.queue ++ [placeJob tag req false true] } ∧ m.out = s.m.out) ∧
  (∀ (n : NodeId) (args : List Word) (data : List Byte) (s : State), s.m.soleMaster = true → s.m.fullAuthority = true →
    (argRec args).only [0xFFF] = true → let t := bits ((argRec args).arg 0) 0 12
    Completes (.sliceDestroy (.forwarded n args data)) s fun m =>
      ((s.m.sliceAt t).state = .free → s.m.answered m n 0x11 0 [0x03] [] ∧ m.slc = s.m.slc) ∧
      ((s.m.sliceAt t).state = .active ∨ (s.m.sliceAt t).state = .degraded →
        m.sliceAt t = { s.m.sliceAt t with finals := [], scrubs := [], state :=
          (if ((s.m.sliceMembers t).any fun x => s.m.reachable x && s.m.stillBound t x) = true then SliceState.destroying else .releasing) }) ∧
      ((s.m.sliceAt t).state = .placing ∨ (s.m.sliceAt t).state = .installing ∨ (s.m.sliceAt t).state = .destroying ∨
        (s.m.sliceAt t).state = .releasing ∨ (s.m.sliceAt t).state = .retired → s.m.answered m n 0x11 0 [0x04] [] ∧ m.slc = s.m.slc)) ∧
  (∀ (n : NodeId) (args : List Word) (data : List Byte) (s : State), s.m.soleMaster = true →
    (argRec args).only [0xFFF, wordMask, wordMask] = true → aligned8 ((argRec args).addr 1) = true →
    let t := bits ((argRec args).arg 0) 0 12
    Completes (.sliceQuery (.forwarded n args data)) s fun m => m.slc = s.m.slc ∧
      ((s.m.sliceAt t).state = .free → s.m.answered m n 0x12 0 [0x03] []) ∧
      ((s.m.sliceAt t).state ≠ .free → s.m.answered m n 0x12 0 [0] (s.m.sliceBytes t))) ∧
  (∀ (n : NodeId) (args : List Word) (data : List Byte) (s : State), s.m.soleMaster = true →
    (argRec args).only [wordMask, wordMask, wordMask] = true → aligned8 ((argRec args).addr 0) = true →
    let count := BitVec.ofNat 32 s.m.usedTags.length
    Completes (.sliceList (.forwarded n args data)) s fun m => m.slc = s.m.slc ∧
      (32 * s.m.usedTags.length ≤ ((argRec args).arg 2).toNat → s.m.answered m n 0x13 0 [0, count] (s.m.usedTags.flatMap s.m.sliceBytes)) ∧
      (((argRec args).arg 2).toNat < 32 * s.m.usedTags.length → s.m.answered m n 0x13 0x07 [0, count] [])) ∧
  (∀ (n : NodeId) (args : List Word) (data : List Byte) (s : State), s.m.soleMaster = true → s.m.fullAuthority = true →
    (argRec args).only [0xFFFF, 0xF] = true → let x : NodeId := BitVec.ofNat 16 (bits ((argRec args).arg 0) 0 16)
    let k := bits ((argRec args).arg 1) 0 4
    s.m.known x = true → [1, 2, 4, 8].contains k = true → Completes (.sliceLayout (.forwarded n args data)) s fun m =>
      ((tget .reset s.m.slc.nodes x.toNat).inUse = 0 → (tget .reset m.slc.nodes x.toNat).log2k = log2K k ∧
        m.out = s.m.out ++ [.mgmt x (.layout (log2K k)), .mgmt n (.reply 0x14 0 [0] [])]) ∧
      ((tget .reset s.m.slc.nodes x.toNat).inUse ≠ 0 → m.slc = s.m.slc ∧ m.part = s.m.part ∧ s.m.answered m n 0x14 0 [0x05] [])) ∧
  (∀ (n : NodeId) (args : List Word) (data : List Byte) (s : State), s.m.soleMaster = true → s.m.fullAuthority = true →
    (argRec args).only [0xFFF, 0xF, 0xFFF] = true → s.m.pins.form = false →
    let t := bits ((argRec args).arg 0) 0 12
    let pod := bits ((argRec args).arg 1) 0 4
    let remote := bits ((argRec args).arg 2) 0 12
    (s.m.sliceAt t).state = .active → pod ≠ nodePod s.m.node → remote ≠ 0 →
    (∃ l ∈ s.m.hly.db.links, l.flags / 8 % 2 = 1 ∧ l.status ≠ 0 ∧ l.farNode ≠ 0xFFFF ∧ nodePod l.farNode = pod) →
    Completes (.slicePeer (.forwarded n args data)) s fun m => m.slc.peers =
        (s.m.slc.peers.filter fun e => !(e.tag == t && e.pod == pod)) ++ [{ tag := t, pod := pod, remote := remote }] ∧
      m.hly.work.pendingAfter = s.m.hly.work.pendingAfter ++ [.peerDone] ∧ m.out = s.m.out) ∧
  (∀ (n : NodeId) (args : List Word) (data : List Byte) (host : Cells) (req : SliceReq) (s : State), s.m.soleMaster = true →
    s.m.fullAuthority = true → (argRec args).only [0xFFF, wordMask, wordMask, wordMask] = true → aligned8 ((argRec args).addr 1) = true →
    let t := bits ((argRec args).arg 0) 0 12
    let r := s.m.sliceAt t
    r.state = .active → s.m.readRequest t data = some req → Completes (.sliceReserve (.forwarded n args data) host) s fun m =>
      let q : SliceReq := { req with ext := r.ext, hint := some r.origin, fixed := true, k := r.k, index := r.index, ctxMax := r.ctxMax, tenant := r.tenant }
      m.slc = s.m.slc ∧ m.tkp.queue = s.m.tkp.queue ++ [placeJob t q true true] ∧ m.out = s.m.out) ∧
  (∀ (k : Nat) (s : State), (s.m.noneInUse = true → Completes (.sliceLayout (.layout k)) s fun m => m = { s.m with part := { s.m.part with log2k := k } }) ∧
    (s.m.noneInUse = false → Ignored (.sliceLayout (.layout k)) s)) ∧
  (∀ (e : BindEntry) (host : Cells) (s : State), (∀ i < 8, (s.m.partAt i).tag ≠ e.tag) → (s.m.partAt e.index).state = .free →
    s.m.noneInUse = true ∨ s.m.part.log2k = e.log2k → Completes (.sliceCreate (.bind e) host) s fun m =>
      m.partAt e.index = { PartRec.reset with state := .bound, tag := e.tag, ctxMax := e.ctxMax, tenant := e.tenant } ∧
      m.part.log2k = e.log2k ∧ (∀ i, i ≠ e.index → m.partAt i = s.m.partAt i) ∧ m.slc = s.m.slc)

/-- 06 R195, R198, R199, R205, R208. `Machine.partOf` finds this package's partition of a tag; `Machine.scrubPart` is R199's clearing. -/
def Obligations.SlicesAtTheirMembers : Prop :=
  (∀ (e : SliceEvent) (s : State), e.code ≠ 0x06 → s.m.part.evq.size ≠ 0 →
    ringFull s.m.part.evq.size s.m.part.evq.head s.m.part.evq.tail 0 = false → Completes (.sliceEventReceive e) s fun m =>
      m.part.evq = { s.m.part.evq with tail := (s.m.part.evq.tail + 1) % s.m.part.evq.size } ∧
      m.hostMem = (s.m.hostWrite (s.m.part.evq.base.toNat + 32 * (s.m.part.evq.tail % s.m.part.evq.size)) (eventBytes e)).hostMem ∧
      m.hst = { s.m.hst with flushCnt := satAdd32 s.m.hst.flushCnt 1 } ∧
      (∀ c b, eventBit e.code.toNat = some b → (s.m.ctxAt c).base.life = .live → (s.m.ctxAt c).base.tag = e.tag →
        bitAt (m.ctxAt c).base.event b = true)) ∧
  (∀ (e : SliceEvent) (s : State), e.code ≠ 0x06 → s.m.part.evq.size ≠ 0 →
    ringFull s.m.part.evq.size s.m.part.evq.head s.m.part.evq.tail 0 = true → Completes (.sliceEventReceive e) s fun m =>
      m.part.evq = { s.m.part.evq with ovf := true } ∧ m.hostMem = s.m.hostMem ∧ m.hst = s.m.hst) ∧
  (∀ (e : SliceEvent) (i : Nat) (s : State), e.code = 0x06 → s.m.partOf e.tag = some i →
    (s.m.partAt i).state ≠ .scrubbing → Completes (.sliceEventReceive e) s fun m => (m.partAt i).state = .draining ∧ (m.partAt i).live = false ∧
      ∀ c < 64, (s.m.ctxAt c).base.life = .live → (s.m.ctxAt c).base.tag = e.tag → (m.ctxAt c).base.life = .ending) ∧
  (∀ (e : SliceEvent) (i : Nat) (s : State), e.code = 0x01 → s.m.partOf e.tag = some i →
    Completes (.sliceEventReceive e) s fun m => m.partAt i = { s.m.partAt i with live := true }) ∧
  (∀ (t : TagId) (n : NodeId) (s : State), s.m.isMaster = true → s.m.hly.reg.standby = 0xFFFF → s.m.hly.repl.actions = [] → s.m.hly.waiting = [] →
    (s.m.sliceAt t).state = .destroying →
    (∀ x ∈ s.m.sliceMembers t, s.m.reachable x = true → s.m.stillBound t x = true → x = n ∨ (s.m.sliceAt t).finals.contains x = true) →
    Completes (.sliceContextsFinal t n) s fun m => (m.sliceAt t).state = .releasing ∧
      m.hly.work.pendingAfter = s.m.hly.work.pendingAfter ++ [AfterSwitch.sliceReleased t] ∧ m.hly.cur = none) ∧
  (∀ (t : TagId) (n : NodeId) (s : State), s.m.isMaster = true → s.m.hly.repl.actions = [] → s.m.hly.waiting = [] → n ≠ s.m.node →
    (s.m.sliceAt t).state = .releasing ∨ (s.m.sliceAt t).state = .retired → Completes (.sliceContextsFinal t n) s fun m =>
      m = { s.m with out := s.m.out ++ [.mgmt n (.releaseBegin t)] }) ∧
  (∀ (t : TagId) (n : NodeId) (i : Nat) (s : State), s.m.isMaster = false → n = s.m.hly.reg.master → s.m.partOf t = some i →
    (s.m.partAt i).state = .draining → Completes (.sliceContextsFinal t n) s fun m =>
      m.partAt i = { s.m.partAt i with state := .scrubbing, scrubMib := 0 } ∧ (∀ j, j ≠ i → m.partAt j = s.m.partAt j) ∧
      ∀ k, s.m.partPage i ≤ k → k < s.m.partPage (i + 1) → (s.m.pageAt k).use ≠ .retired → (m.pageAt k).use = .scrubbing) ∧
  (∀ (t : TagId) (n : NodeId) (failed : Bool) (s : State), s.m.isMaster = true → s.m.hly.repl.actions = [] → s.m.hly.waiting = [] →
    s.m.stillBound t n = true → (s.m.sliceAt t).state = .releasing →
    Completes (.sliceScrubReport t n failed) s fun m => (m.sliceAt t).scrubs.contains n = true ∧
      (failed = false → tget 0 (tget .reset m.slc.nodes n.toNat).bound (s.m.sliceAt t).index = 0) ∧
      (failed = true → m.slc.nodes = s.m.slc.nodes) ∧
      ((s.m.sliceAt t).released = false → (m.sliceAt t).state = .releasing)) ∧
  (∀ (i : PartId) (s : State), (s.m.partAt i).state = .scrubbing → (s.m.partAt i).keep = false →
    Completes (.partitionScrubComplete i) s fun m =>
      m.partAt i = { PartRec.reset with scrubMib := s.m.partPagesPerStack * s.m.hbm.s * 2 } ∧
      (∃ l, m.out = l ++ [Out.mgmt s.m.hly.reg.master (.scrubDone (s.m.partAt i).tag)]) ∧
      (∀ t ∈ s.m.partTiles i, m.tileAt t = (s.m.tileAt t).zeroed)) ∧
  (∀ (i : PartId) (s : State), (s.m.partAt i).state = .scrubbing → (s.m.partAt i).keep = true →
    Completes (.partitionScrubComplete i) s fun m =>
      m.partAt i = { s.m.partAt i with state := if (s.m.partAt i).drain then .draining else .bound, keep := false, drain := false,
                                       scrubMib := s.m.partPagesPerStack * s.m.hbm.s * 2 }) ∧
  (∀ (i : PartId) (k : Fin 8) (s : State), (s.m.partAt i).state = .scrubbing → Completes (.scrubQuarantine i k) s fun m =>
      m.partAt i = { s.m.partAt i with state := .quarantined, keep := false, drain := false } ∧
      (∀ j, j ≠ i.val → m.partAt j = s.m.partAt j) ∧ ∃ l, m.out = l ++ [Out.mgmt s.m.hly.reg.master (.scrubFailed (s.m.partAt i).tag)]) ∧
  (∀ (i : PartId) (k : Fin 8) (s : State), (s.m.partAt i).state ≠ .scrubbing →
    Ignored (.scrubQuarantine i k) s ∧ Ignored (.partitionScrubComplete i) s)

/-- 06 R196, R197, R202, R203. `Machine.ctxPending op`: CTX_CMD holds that operation; `Machine.ctxRange i` lists a partition's IDs. -/
def Obligations.ContextsAndTheirMeters : Prop :=
  (∀ (c : Nat) (s : State), s.m.ctxPending 1 = true → s.m.ctxCmd.part < s.m.parts → s.m.ctxCmd.func = 0 →
    (s.m.partAt s.m.ctxCmd.part).state = .bound → (s.m.partAt s.m.ctxCmd.part).live = true →
    ((s.m.ctxRange s.m.ctxCmd.part).find? fun c => (s.m.ctxAt c).base.life == .free) = some c →
    ((s.m.ctxRange s.m.ctxCmd.part).filter fun c => (s.m.ctxAt c).base.life == .live || (s.m.ctxAt c).base.life == .ending).length <
      (s.m.partAt s.m.ctxCmd.part).ctxMax → Completes .ctxCreate s fun m =>
      m.ctxAt c = { CtxRec.reset with base := { CtxBase.reset with
        life := .live, part := s.m.ctxCmd.part, tag := (s.m.partAt s.m.ctxCmd.part).tag, tenant := (s.m.partAt s.m.ctxCmd.part).tenant, func := some 0 } } ∧
      (∀ x, x ≠ c → m.ctxAt x = s.m.ctxAt x) ∧
      m.ctxCmd = { s.m.ctxCmd with status := 0, statCtx := c, done := true, busy := false, started := false }) ∧
  (∀ (s : State), s.m.ctxPending 1 = true → Completes .ctxCreate s fun m =>
      (s.m.parts ≤ s.m.ctxCmd.part → m.ctx = s.m.ctx ∧ m.ctxCmd.status = 0x03 ∧ m.ctxCmd.done = true ∧ m.ctxCmd.busy = false) ∧
      (s.m.ctxCmd.part < s.m.parts → s.m.ctxCmd.func ≤ 64 → (s.m.partAt s.m.ctxCmd.part).state ≠ .bound ∨ (s.m.partAt s.m.ctxCmd.part).live = false →
        m.ctx = s.m.ctx ∧ m.ctxCmd.status = 0x04 ∧ m.ctxCmd.done = true ∧ m.ctxCmd.busy = false)) ∧
  (∀ (c : CtxId) (s : State), s.m.ctxPending 2 = true → s.m.ctxCmd.ctx = c.val → s.m.ctxCmd.started = false → Completes .ctxDestroy s fun m =>
      ((s.m.ctxAt c).base.life = .live → s.m.fenced c = true ∨ s.m.fenceDue (.context c) = true →
        (m.ctxAt c).base.life = .ending ∧ m.ctxCmd = { s.m.ctxCmd with started := true }) ∧
      ((s.m.ctxAt c).base.life = .live → s.m.fenced c = false → s.m.fenceDue (.context c) = false → m = s.m) ∧
      ((s.m.ctxAt c).base.life ≠ .live →
        m.ctx = s.m.ctx ∧ m.ctxCmd = { s.m.ctxCmd with status := 0x08, statCtx := c, done := true, busy := false, started := false })) ∧
  (∀ (s : State), s.m.ctxPending 2 = true → s.m.ctxCmd.started = true → Ignored .ctxDestroy s) ∧
  (∀ (c : CtxId) (s : State), (s.m.ctxAt c).base.life = .ending →
    (s.m.luff.fences.any fun f => f.destroy && f.drained && f.dom == .context c) = true →
    Completes (.contextScrubComplete c) s fun m => (m.ctxAt c).base = { (s.m.ctxAt c).base with life := .final, heldTiles := [] } ∧
      ∀ l ∈ (s.m.ctxAt c).base.heldTiles, s.m.holder l = none → m.tileAt l = (s.m.tileAt l).zeroed) ∧
  (∀ (s : State), s.m.ctxPending 3 = true → Completes .ctxFree s fun m =>
      ((s.m.ctxAt s.m.ctxCmd.ctx).base.life = .final →
        (m.ctxAt s.m.ctxCmd.ctx).base = { CtxBase.reset with event := (s.m.ctxAt s.m.ctxCmd.ctx).base.event } ∧ m.ctxCmd.status = 0) ∧
      ((s.m.ctxAt s.m.ctxCmd.ctx).base.life ≠ .final → m.ctx = s.m.ctx ∧ m.ctxCmd.status = 0x07) ∧
      m.ctxCmd.done = true ∧ m.ctxCmd.busy = false ∧ m.ctxCmd.statCtx = s.m.ctxCmd.ctx) ∧
  (∀ (s : State), s.m.ctxCmd.busy = false → Ignored .ctxCreate s ∧ Ignored .ctxDestroy s ∧ Ignored .ctxFree s) ∧
  (∀ (c : Nat) (s : State), (tkeys s.m.ctx).Nodup → (s.m.ctxAt c).base.life = .live → Completes .minuteLatch s fun m =>
      (m.ctxAt c).base = { (s.m.ctxAt c).base with
        minute := (s.m.ctxAt c).base.meters, minTime := s.m.time.now, minSeq := ((s.m.ctxAt c).base.minSeq + 1) % 2 ^ 32 }) ∧
  (∀ (c : CtxId) (s : State), (s.m.ctxAt c).base.life ≠ .free → Completes (.ctxSnap c) s fun m =>
      (m.ctxAt c).base = { (s.m.ctxAt c).base with snap := (s.m.ctxAt c).base.meters, snapTime := s.m.time.now } ∧
      ∀ x, x ≠ c.val → m.ctxAt x = s.m.ctxAt x) ∧
  (∀ (dieUj : List Nat) (hbmUj otherUj : Nat) (s : State), s.m.ctx = [] → Completes (.energyAttribute dieUj hbmUj otherUj) s fun m =>
      m.part.energyUnattr = min (s.m.part.energyUnattr + dieUj.sum + hbmUj + otherUj) 0xFFFFFFFFFFFFFFFF ∧ m.ctx = []) ∧
  (∀ (c hbmUj : Nat) (r : CtxRec) (s : State), s.m.ctx = [(c, r)] → r.base.life = .live → r.base.hbmMark < r.base.meters.hbm →
    Completes (.energyAttribute [] hbmUj 0) s fun m => (m.ctxAt c).base.meters.energy =
        satAdd64 (satAdd64 r.base.meters.energy hbmUj) r.base.ballastUj ∧ (m.ctxAt c).base.hbmMark = r.base.meters.hbm ∧
      (m.ctxAt c).base.ballastUj = 0)

/-- 07 R210, R215, R218, R222, R223; 06 R183, R185. The hypotheses give the route entry, the position and the port by the functions that
R126 and R218 define (`Machine.nodeEntry`, `pickPosition`, `Machine.portIn`); `Machine.checked` is the check of R218. -/
def Obligations.FramesAreCheckedRoutedAndDelivered : Prop :=
  (∀ (d : IoDie) (s : State), (s.m.fwdAt d).rx = [] → Ignored (.frameForward d) s) ∧
  (∀ (d : IoDie) (rx : RxFrame) (rest : List RxFrame) (s : State), (s.m.fwdAt d).rx = rx :: rest → rx.port = none →
    malformed rx.frame = true → Completes (.frameForward d) s fun m => (m.fwdAt d).rx = rest ∧
      (m.fwdAt d).cnt.malformed = satAdd32 (s.m.fwdAt d).cnt.malformed 1 ∧ m.shr = s.m.shr) ∧
  (∀ (d : IoDie) (rx : RxFrame) (rest : List RxFrame) (s : State), (s.m.fwdAt d).rx = rx :: rest → rx.port = none →
    s.m.checked rx = true → frTag rx.frame = 0 → frDst rx.frame = s.m.node →
    (s.m.nodeEntry (s.m.bank (frEpoch rx.frame)) d s.m.node).valid = true →
    (s.m.nodeEntry (s.m.bank (frEpoch rx.frame)) d s.m.node).priDir = 6 →
    Completes (.frameForward d) s fun m => (m.fwdAt d).rx = rest ∧
      (m.fwdAt d).inbox = (s.m.fwdAt d).inbox ++ [{ frame := rx.frame, since := s.m.time.now }] ∧ m.out = s.m.out) ∧
  (∀ (d : IoDie) (rx : RxFrame) (rest : List RxFrame) (p pos : Nat) (s : State), (s.m.fwdAt d).rx = rx :: rest → rx.port = none →
    s.m.checked rx = true → frDst rx.frame ≠ s.m.node →
    let e := s.m.nodeEntry (s.m.bank (frEpoch rx.frame)) d (frDst rx.frame)
    e.valid = true → e.priDir ≠ 6 →
    pickPosition (s.m.activePositions d e.priDir e.priMask) (frSrc rx.frame) (frStream rx.frame) = some pos →
    s.m.portIn d e.priDir pos = some p → Completes (.frameForward d) s fun m =>
      m = ((s.m.modFwd d fun r => { r with rx := rest }).enqueue p
        { vc := s.m.vcFor rx.frame rx e.priDir, frame := rx.frame, since := rx.since, enters := true })) ∧
  (∀ (d : IoDie) (s : State),
    (((s.m.fwdAt d).rx ++ (s.m.fwdAt d).detq ++ (s.m.fwdAt d).waiting).all fun x => x.port.all fun p => dieOfPort p == d.val) = true →
    Completes (.frameAgeExpiry d) s fun m =>
      (m.fwdAt d).rx = (s.m.fwdAt d).rx.filter (fun x => !(s.m.agedOut x.frame x.since)) ∧
      (m.fwdAt d).detq = (s.m.fwdAt d).detq.filter (fun x => !(s.m.agedOut x.frame x.since)) ∧
      (∀ p, dieOfPort p = d → p < 24 → (m.port p).tx.queue = (s.m.port p).tx.queue.filter fun x => !(s.m.agedOut x.frame x.since)) ∧
      (∀ p, dieOfPort p ≠ d → m.port p = s.m.port p)) ∧
  (∀ (d : IoDie) (rx : RxFrame) (p pos : Nat) (s : State), (s.m.fwdAt d).detq = [rx] → rx.port = none → s.m.checked rx = true →
    frDst rx.frame ≠ s.m.node → let e := s.m.nodeEntry (s.m.bank (frEpoch rx.frame)) d (frDst rx.frame)
    e.valid = true → e.priDir ≠ 6 → e.detDir ≠ 6 →
    pickPosition (s.m.activePositions d e.detDir e.detMask) (frSrc rx.frame) (frStream rx.frame) = some pos →
    s.m.portIn d e.detDir pos = some p → Completes (.detourResend d) s fun m =>
      m = ((s.m.modFwd d fun r => { r with detq := [] }).modFwdCnt d fun c => { c with detoured := satAdd32 c.detoured 1 }).enqueue p
        { vc := s.m.vcFor (setDetour rx.frame) rx e.detDir, frame := setDetour rx.frame, since := rx.since, enters := true }) ∧
  (∀ (d : IoDie) (src : NodeId) (n : StreamId) (s : State), Completes (.filterRecordExpiry d src n) s fun m =>
      m.fwdAt d = { s.m.fwdAt d with filter := (s.m.fwdAt d).filter.filter (fun e => !(e.src == src && e.stream == n.val))
                                     rx := (s.m.fwdAt d).waiting ++ (s.m.fwdAt d).rx
                                     waiting := [] } ∧ (∀ k, k ≠ d.val → m.fwdAt k = s.m.fwdAt k))

/-- 07 R225, R226, R228; 10 R315, R317, R318; 15 R426. `Machine.takeInbox` takes the oldest delivered frame of a kind; `Machine.replied` says
that the REQ left the inbox and its REP, with the status and data, waits to be forwarded. -/
def Obligations.RemoteRequestsRepliesAndMessages : Prop :=
  (∀ (d : IoDie) (x : Delivered) (m1 : Machine) (s : State), s.m.takeInbox d (fun f => frType f == 5) = some (x, m1) →
    s.m.fencedSince (s.m.strmAt (frStream x.frame)).ctx x.since = true → (s.m.strmAt (frStream x.frame)).state ≠ .closed →
    Completes (.reqReceive d) s fun m => s.m.replied m d x 0x01 [] ∧ m.hbm = s.m.hbm ∧ m.strm = s.m.strm) ∧
  (∀ (d : IoDie) (x : Delivered) (m1 : Machine) (b : ReqBody) (s : State),
    s.m.takeInbox d (fun f => frType f == 5) = some (x, m1) →
    let r := s.m.strmAt (frStream x.frame)
    let a := r.base + b.offset
    s.m.fencedSince r.ctx x.since = false → s.m.reqBody x.frame = some b → reqFits (frOpx x.frame) (s.m.fromFar x.frame) b = true →
    r.state = .open_ → r.kind = kindMsg → b.offset + b.lenOp ≤ r.len → r.ring * 512 ≤ b.offset →
    frOpx x.frame = 4 ∨ s.m.ownsRange r.ctx a b.lenOp = true →
    Completes (.reqReceive d) s fun m =>
      (frOpx x.frame = 1 → m.hbmRead a b.lenOp = b.data ∧ bytesOutside s.m.hbm.bytes m.hbm.bytes a b.lenOp ∧ s.m.replied m d x 0 []) ∧
      (frOpx x.frame = 2 → m.hbm = s.m.hbm ∧ s.m.replied m d x 0 (s.m.hbmRead a b.lenOp)) ∧
      (frOpx x.frame = 3 → m.hbmRead a 8 = leBytes 8 ((ofLe (s.m.hbmRead a 8) + ofLe b.data) % 2 ^ 64) ∧
        bytesOutside s.m.hbm.bytes m.hbm.bytes a 8 ∧ s.m.replied m d x 0 (s.m.hbmRead a 8)) ∧
      (frOpx x.frame = 4 → (m.strmAt (frStream x.frame)).signal = r.signal + 1 ∧ m.hbm = s.m.hbm ∧ s.m.replied m d x 0 [])) ∧
  (∀ (d : IoDie) (x : Delivered) (m1 : Machine) (b : ReqBody) (s : State), s.m.takeInbox d (fun f => frType f == 5) = some (x, m1) →
    s.m.reqBody x.frame = some b → (s.m.strmAt (frStream x.frame)).state = .closed →
    Completes (.reqReceive d) s fun m => s.m.replied m d x 0x04 [] ∧ m.hbm = s.m.hbm ∧ m.strm = s.m.strm) ∧
  (∀ (src : NodeId) (txn : BitVec 11) (s : State), Completes (.reqAnswerDeadline src txn) s fun m =>
      (∀ d < 2, (m.fwdAt d).inbox = (s.m.fwdAt d).inbox.filter fun x =>
        !(frType x.frame == 5 && (frSrc x.frame == src && frTxn x.frame == txn.toNat))) ∧ m.hbm = s.m.hbm) ∧
  (∀ (d : IoDie) (x : Delivered) (m1 : Machine) (t : TxnRec) (s : State), s.m.takeInbox d (fun f => frType f == 6) = some (x, m1) →
    tget none s.m.txn (frTxn x.frame) = some t → frGen x.frame = (s.m.ctxAt t.ctx).rst.gen → Completes (.repReceive d) s fun m =>
      tget none m.txn (frTxn x.frame) = none ∧ (∀ k, k ≠ frTxn x.frame → tget none m.txn k = tget none s.m.txn k) ∧
      (t.orphan = true → m.ctx = s.m.ctx)) ∧
  (∀ (d : IoDie) (x : Delivered) (m1 : Machine) (s : State), s.m.takeInbox d (fun f => frType f == 6) = some (x, m1) →
    tget none s.m.txn (frTxn x.frame) = none → Completes (.repReceive d) s fun m =>
      (m.fwdAt d).cnt.lateRep = satAdd32 (s.m.fwdAt d).cnt.lateRep 1 ∧ (m.fwdAt d).inbox = (s.m.fwdAt d).inbox.erase x ∧ m.txn = s.m.txn) ∧
  (∀ (txn : BitVec 11) (t : TxnRec) (s : State), tget none s.m.txn txn.toNat = some t → Completes (.reqExpired txn) s fun m =>
      tget none m.txn txn.toNat = none ∧ ∀ k, k ≠ txn.toNat → tget none m.txn k = tget none s.m.txn k) ∧
  (∀ (txn : BitVec 11) (s : State), tget none s.m.txn txn.toNat = none → Ignored (.reqExpired txn) s) ∧
  (∀ (d : IoDie) (x : Delivered) (m1 : Machine) (s : State), s.m.takeInbox d (fun f => frType f == 4) = some (x, m1) →
    let n := frStream x.frame
    let r := s.m.strmAt n
    r.kind = kindMsg → r.state = .open_ → (r.ringTail + 8192 - r.ringHead) % 8192 < r.ring → x.frame.payload.length ≤ 256 →
    s.m.ownsRange r.ctx (r.base + r.ringTail % r.ring * 512) 512 = true → Completes (.msgReceive d) s fun m => (m.strmAt n).ringTail = (r.ringTail + 1) % 8192 ∧
      m.hbmRead (r.base + r.ringTail % r.ring * 512) (frameLen x.frame) = frameBytes x.frame ∧
      bytesOutside s.m.hbm.bytes m.hbm.bytes (r.base + r.ringTail % r.ring * 512) 512 ∧
      m.hbmRead (r.base + r.ringTail % r.ring * 512 + 511) 1 = [if r.ringTail / r.ring % 2 = 0 then 1 else 0]) ∧
  (∀ (d : IoDie) (x : Delivered) (m1 : Machine) (s : State), s.m.takeInbox d (fun f => frType f == 4) = some (x, m1) →
    (s.m.strmAt (frStream x.frame)).state ≠ .open_ ∨ (s.m.strmAt (frStream x.frame)).ring = 0 → Completes (.msgReceive d) s fun m =>
      m.strm.cntMsg = satAdd32 s.m.strm.cntMsg 1 ∧ m.hbm = s.m.hbm ∧
      (m.strmAt (frStream x.frame)).dropsIn = satAdd 0xFFFF (s.m.strmAt (frStream x.frame)).dropsIn 1) ∧
  (∀ (d : IoDie) (x : Delivered) (m1 : Machine) (k : Nat) (r : CollRec) (s : State),
    s.m.takeInbox d (fun f => frType f == 3) = some (x, m1) → s.m.boundFor x.frame kindColl = true →
    s.m.collOf (frStream x.frame) = some (k, r) → isRing r.op = false → r.busy = true → r.lone = false → r.supplied < r.operand →
    Completes (.collFrameReceive d) s fun m => m.collAt k = some { r with
      got := r.got ++ [(frSrc x.frame, frSeq x.frame, frLast x.frame, x.frame.payload)] }) ∧
  (∀ (d : IoDie) (x : Delivered) (m1 : Machine) (s : State), s.m.takeInbox d (fun f => frType f == 3) = some (x, m1) →
    s.m.boundFor x.frame kindColl = false → Completes (.collFrameReceive d) s fun m =>
      m.strm.cntClosed = satAdd32 s.m.strm.cntClosed 1 ∧ m.coll = s.m.coll)

/-- 07 R233–R235; 10 R316. The clauses on the master's records name a single record where the list order would otherwise matter. -/
def Obligations.PlannedFlowsAreReportedAbortedAndResumed : Prop :=
  (∀ (t : TagId) (n : NodeId) (cause : BitVec 4) (k : StreamId) (g : BitVec 8) (s : State), s.m.isMaster = true → s.m.hly.aborts = [] →
    tget (0 : DWord) s.m.hly.lateFlood t = 0 → (s.m.sliceAt t).state = .active → Completes (.lateStepReport t n cause k g) s fun m =>
      tget (0 : DWord) m.hly.lateFlood t = s.m.time.now ∧
      m.out = s.m.out ++ (s.m.sliceMembers t).map fun x => Out.mgmt x (.event
        { code := 0x09, detail := detailByte (s.m.sliceAt t).grade cause.toNat, tag := t, node := n, scale := 0, time := s.m.time.now,
          tenant := (s.m.sliceAt t).tenant, topoGen := s.m.hly.reg.topoGen })) ∧
  (∀ (t : TagId) (n : NodeId) (cause : BitVec 4) (k : StreamId) (g : BitVec 8) (s : State), s.m.isMaster = false →
    Ignored (.lateStepReport t n cause k g) s ∧ Ignored (.flowAbortReport t k g) s) ∧
  (∀ (t : TagId) (k : StreamId) (g : BitVec 8) (s : State), s.m.isMaster = true → s.m.hly.aborts = [] → (s.m.sliceAt t).state = .active →
    s.m.hly.reg.standby = 0xFFFF → s.m.hly.repl.actions = [] → s.m.hly.waiting = [] → Completes (.flowAbortReport t k g) s fun m =>
      m.hly.aborts = [{ tag := t, stream := k, gen := g.toNat, acked := [], stage := 0 }] ∧
      m.out = s.m.out ++ (s.m.sliceMembers t).map fun x => Out.mgmt x (.flowAbort t k ((g.toNat + 1) % 256))) ∧
  (∀ (t : TagId) (k : StreamId) (g : BitVec 8) (s : State), let r := s.m.strmAt k
    r.state = .open_ ∨ r.state = .bound → (s.m.ctxAt r.ctx).base.tag = t → (s.m.xc r.ctx).image = none →
    Completes (.flowAbortReceive t k g) s fun m => m.strmAt k = { r with state := .held, heldFrom := r.state, gen := g.toNat } ∧
      m.out = s.m.out ++ [Out.mgmt s.m.hly.reg.master (.abortAck t k g.toNat)]) ∧
  (∀ (t : TagId) (k : StreamId) (g : BitVec 8) (b : BoundImage) (s : State), let r := s.m.strmAt k
    r.state = .bound → (s.m.ctxAt r.ctx).base.tag = t → (s.m.xc r.ctx).image = some b → (s.m.xc r.ctx).run = none →
    Completes (.flowAbortReceive t k g) s fun m => (m.xc r.ctx).queue =
      (s.m.xc r.ctx).queue.map fun q => if s.m.stepUses b q.step k then { q with aborted := some r.channel } else q) ∧
  (∀ (a : AbortRec) (n : NodeId) (t : TagId) (k : StreamId) (s : State), s.m.hly.aborts = [a] → a.tag = t → a.stream = k → a.stage = 0 →
    a.acked.contains n = false → Completes (.abortAckReceive t k n) s fun m => m.hly.aborts = [{ a with
      acked := a.acked ++ [n]
      stage := if (s.m.reachMembers t).all (fun x => (a.acked ++ [n]).contains x) then 1 else 0 }]) ∧
  (∀ (a : AbortRec) (t : TagId) (k : StreamId) (s : State), s.m.hly.aborts = [a] → a.tag = t → a.stream = k →
    Completes (.abortAckTimeout t k) s fun m => m.hly = { s.m.hly with aborts := [{ a with stage := if a.stage = 0 then 1 else a.stage }] }) ∧
  (∀ (a : AbortRec) (t : TagId) (k : StreamId) (s : State), s.m.hly.aborts = [a] → a.tag = t → a.stream = k → a.stage = 1 →
    Completes (.flowResumeWait t k) s fun m => m.hly.aborts = [{ a with stage := 2 }] ∧
      m.out = s.m.out ++ (s.m.sliceMembers t).map fun x => Out.mgmt x (.flowResume t k ((a.gen + 1) % 256))) ∧
  (∀ (t : TagId) (k : StreamId) (g : BitVec 8) (s : State), let r := s.m.strmAt k
    (s.m.ctxAt r.ctx).base.tag = t → r.state = .held → r.gen = g.toNat → Completes (.flowResumeReceive t k g) s fun m =>
      (m.strmAt k).state = r.heldFrom ∧ (m.strmAt k).landed = 0 ∧ (m.strmAt k).gen = r.gen ∧
      (m.strmAt k).credit = (if r.kind = kindIn then r.depth else 0) ∧ (m.strmAt k).peerSeen = false) ∧
  (∀ (t : TagId) (k : StreamId) (g : BitVec 8) (s : State), (s.m.strmAt k).state ≠ .held ∨ (s.m.strmAt k).gen ≠ g.toNat →
    Ignored (.flowResumeReceive t k g) s)

/-- 08 R242–R247, R260–R265; 09 R268, R279. `Machine.issueWord l op` is the word of a class that tile l can issue now; the arithmetic of an
element is that of Num.lean (`mmaElem`, `mmaIntElem`, `vopLane`, `convertRow`, `laneAt`). -/
def Obligations.ComputeInstructionsOfATile : Prop :=
  (∀ (l : TileId) (s : State), (∀ op, s.m.issueWord l op = none) → Ignored (.mma l) s ∧ Ignored (.drain l) s ∧ Ignored (.vop l) s ∧
    Ignored (.vcvt l) s ∧ Ignored (.vld l) s ∧ Ignored (.vst l) s ∧ Ignored (.hrd l) s ∧ Ignored (.hwr l) s ∧ Ignored (.send l) s ∧
    Ignored (.recv l) s ∧ Ignored (.wait l) s ∧ Ignored (.loop l) s ∧ Ignored (.tileEnd l) s) ∧
  (∀ (l : TileId) (a : ActiveTile) (w : TWord) (fa fb : Format) (s : State), s.m.issueWord l 0x01 = some (a, w) →
    formatOf w.fa = some fa → formatOf w.fb = some fb → w.acc < 4 → Completes (.mma l) s fun m => s.m.wentOn m l ∧
      (∀ i < 4096, tget 0 (m.tileAt l).acc (w.acc * 4096 + i) =
        (let c := if w.zero then 0 else tget 0 (s.m.tileAt l).acc (w.acc * 4096 + i)
         if fa.isInt then mmaIntElem c (((s.m.intRows l w.l1 fa).getD (i / 64) []).zip ((s.m.intRows l w.l2 fb).getD (i % 64) []))
         else (mmaElem (laneNum c) (((s.m.numRows l w.l1 fa).getD (i / 64) []).zip ((s.m.numRows l w.l2 fb).getD (i % 64) []))).1)) ∧
      (∀ i, i < w.acc * 4096 ∨ w.acc * 4096 + 4096 ≤ i → tget 0 (m.tileAt l).acc i = tget 0 (s.m.tileAt l).acc i) ∧
      bitAt (m.tileAt l).accInt w.acc = fa.isInt ∧ (m.tileAt l).store = (s.m.tileAt l).store) ∧
  (∀ (l : TileId) (a : ActiveTile) (w : TWord) (s : State), s.m.issueWord l 0x02 = some (a, w) → w.acc < 4 →
    formatOf w.fb = some (if bitAt (s.m.tileAt l).accInt w.acc then Format.int32 else Format.fp32) → w.l1 * 256 + 16384 ≤ storeBytes →
    Completes (.drain l) s fun m => s.m.wentOn m l ∧ (m.tileAt l).acc = (s.m.tileAt l).acc ∧
      m.storeRead l w.l1 16384 = wordBytes ((s.m.tileAt l).bank w.acc) ∧
      bytesOutside (s.m.tileAt l).store (m.tileAt l).store (w.l1 * 256) 16384 ∧ (m.tileAt l).rng = (s.m.tileAt l).rng) ∧
  (∀ (l : TileId) (a : ActiveTile) (w : TWord) (s : State), s.m.issueWord l 0x03 = some (a, w) → Completes (.vop l) s fun m =>
      s.m.wentOn m l ∧ (∀ i < 32, tget 0 (m.tileAt l).vreg (w.vd * 32 + i) =
        (vopLane w.func (tget 0 (s.m.tileAt l).vreg (w.va * 32 + i)) (tget 0 (s.m.tileAt l).vreg (w.vb * 32 + i))
          (tget 0 (s.m.tileAt l).vreg (w.vc * 32 + i))).1) ∧
      (∀ i, i < w.vd * 32 ∨ w.vd * 32 + 32 ≤ i → tget 0 (m.tileAt l).vreg i = tget 0 (s.m.tileAt l).vreg i) ∧
      (m.xc a.c).run = (s.m.xc a.c).run.map fun r => { r with flags := r.flags ||| joinFlags (((s.m.tileAt l).vop w).map (·.2)) }) ∧
  (∀ (l : TileId) (a : ActiveTile) (w : TWord) (fa fb : Format) (s : State), s.m.issueWord l 0x04 = some (a, w) →
    formatOf w.fa = some fa → formatOf w.fb = some fb → Completes (.vcvt l) s fun m => s.m.wentOn m l ∧
      (let r := convertRow fa.isInt fb w.rm w.sat (s.m.tileAt l).rng ((s.m.tileAt l).lanes w.va)
       (∀ i < 32, tget 0 (m.tileAt l).vreg (w.vd * 32 + i) = laneAt fb r.1 i) ∧ (m.tileAt l).rng = r.2.2 ∧
       (m.xc a.c).run = (s.m.xc a.c).run.map fun x => { x with flags := x.flags ||| r.2.1 })) ∧
  (∀ (l : TileId) (a : ActiveTile) (w : TWord) (fa : Format) (s : State), s.m.issueWord l 0x05 = some (a, w) → formatOf w.fa = some fa →
    Completes (.vld l) s fun m => s.m.wentOn m l ∧ (m.tileAt l).store = (s.m.tileAt l).store ∧
      (∀ i < 32, tget 0 (m.tileAt l).vreg (w.vd * 32 + i) = laneAt fa (s.m.storeRead l w.l1 (fa.bytes 32)) i) ∧
      (m.xc a.c).run.map (·.flags) = (s.m.xc a.c).run.map fun r => r.flags ||| noFlags) ∧
  (∀ (l : TileId) (a : ActiveTile) (w : TWord) (s : State), s.m.issueWord l 0x06 = some (a, w) →
    formatOf w.fb = some .fp32 ∨ formatOf w.fb = some .int32 → w.l1 * 256 + 128 ≤ storeBytes → Completes (.vst l) s fun m =>
      s.m.wentOn m l ∧ m.storeRead l w.l1 128 = wordBytes ((s.m.tileAt l).lanes w.va) ∧
      bytesOutside (s.m.tileAt l).store (m.tileAt l).store (w.l1 * 256) 128 ∧ (m.tileAt l).vreg = (s.m.tileAt l).vreg ∧
      (m.tileAt l).rng = (s.m.tileAt l).rng)

/-- 09 R268, R273, R276, R279, R286; 08 R249, R251; 15 R434, R445. Where other tiles of the image could stop this one, the clauses take an
image of this tile alone. -/
def Obligations.TransfersWaitsAndControlOfATile : Prop :=
  (∀ (l : TileId) (a : ActiveTile) (w : TWord) (s : State), s.m.issueWord l 0x07 = some (a, w) →
    (∀ i < w.n, s.m.lineOk a (lineOffset a w i) = true) → Completes (.hrd l) s fun m => (m.tileAt l).lines = (s.m.tileAt l).lines ++
      (List.range w.n).map fun i => { write := false, n := (s.m.tileAt l).lineN + i, addr := a.b.hbmBase + lineOffset a w i, line := w.l1 + i }) ∧
  (∀ (l : TileId) (a : ActiveTile) (w : TWord) (s : State), s.m.issueWord l 0x08 = some (a, w) →
    (∀ i < w.n, s.m.lineOk a (lineOffset a w i) = true) → Completes (.hwr l) s fun m => (m.tileAt l).lines = (s.m.tileAt l).lines ++
      (List.range w.n).map fun i => { write := true, n := (s.m.tileAt l).lineN + i, addr := a.b.hbmBase + lineOffset a w i, line := w.l1 + i }) ∧
  (∀ (l : TileId) (a : ActiveTile) (w : TWord) (s : State), s.m.issueWord l 0x07 = some (a, w) → 0 < w.n →
    s.m.lineOk a (lineOffset a w 0) = false → (s.m.xc a.c).state = .running → Completes (.hrd l) s fun m =>
      (m.tileAt l).lines = (s.m.tileAt l).lines ∧ (m.xc a.c).detected = some { reason := 7, ch := 0, tile := some a.t }) ∧
  (∀ (l : TileId) (a : ActiveTile) (w : TWord) (ch : ChanRec) (s : State), s.m.issueWord l 0x09 = some (a, w) →
    a.b.chan? w.ch = some ch → ch.src = a.t → (s.m.chanRun a.c w.ch).issued + w.n ≤ a.count w.ch → Completes (.send l) s fun m =>
      (m.chanRun a.c w.ch).issued = (s.m.chanRun a.c w.ch).issued + w.n ∧
      (m.tileAt l).tokens.map (fun k => (k.ch, k.k, k.line)) = (s.m.tileAt l).tokens.map (fun k => (k.ch, k.k, k.line)) ++
        (List.range w.n).map fun i => (w.ch, (s.m.chanRun a.c w.ch).issued + i, w.l1 + i)) ∧
  (∀ (l : TileId) (a : ActiveTile) (w : TWord) (s : State), s.m.issueWord l 0x09 = some (a, w) → 0 < w.n →
    a.count w.ch < (s.m.chanRun a.c w.ch).issued + w.n → (s.m.xc a.c).state = .running → Completes (.send l) s fun m =>
      (m.xc a.c).detected = some { reason := 2, ch := w.ch, tile := some a.t }) ∧
  (∀ (l : TileId) (a : ActiveTile) (w : TWord) (ch : ChanRec) (s : State), s.m.issueWord l 0x0A = some (a, w) →
    a.b.chan? w.ch = some ch → ch.dst = a.t → (s.m.chanRun a.c w.ch).taken + w.n ≤ a.count w.ch → Completes (.recv l) s fun m =>
      (m.chanRun a.c w.ch).taken = (s.m.chanRun a.c w.ch).taken + w.n ∧ (m.chanRun a.c w.ch).freed = (s.m.chanRun a.c w.ch).taken) ∧
  (∀ (l : TileId) (a : ActiveTile) (w : TWord) (s : State), s.m.issueWord l 0x0A = some (a, w) →
    a.count w.ch < (s.m.chanRun a.c w.ch).taken + w.n → (s.m.xc a.c).state = .running → Completes (.recv l) s fun m =>
      (m.xc a.c).detected = some { reason := 3, ch := w.ch, tile := some a.t }) ∧
  (∀ (l : TileId) (a : ActiveTile) (w : TWord) (s : State), s.m.issueWord l 0x0B = some (a, w) → s.m.imageTiles a.c = [l.val] →
    (s.m.tileAt l).tokens = [] → Completes (.wait l) s fun m =>
      ((s.m.tileAt l).lines = [] → m.tileAt l = (s.m.tileAt l).advance) ∧
      ((s.m.tileAt l).lines ≠ [] → w.mask % 2 = 1 → m.tileAt l = { s.m.tileAt l with phase := .waiting })) ∧
  (∀ (l : TileId) (a : ActiveTile) (w : TWord) (s : State), s.m.issueWord l 0x0C = some (a, w) → w.body ≠ 0 →
    Completes (.loop l) s fun m => m.tileAt l = { s.m.tileAt l with
      pc := (s.m.tileAt l).pc + 1
      loops := { first := (s.m.tileAt l).pc + 1, stop := (s.m.tileAt l).pc + 1 + w.body, left := w.n } :: (s.m.tileAt l).loops }) ∧
  (∀ (l : TileId) (a : ActiveTile) (w : TWord) (s : State), s.m.issueWord l 0x0D = some (a, w) → s.m.imageTiles a.c = [l.val] →
    (s.m.tileAt l).tokens = [] → Completes (.tileEnd l) s fun m =>
      (m.tileAt l).phase = (if (s.m.tileAt l).lines.isEmpty then .done else .ending) ∧ (m.tileAt l).store = (s.m.tileAt l).store) ∧
  (∀ (l : TileId) (k : Fin 65536) (a : ActiveTile) (x : LineOp) (s : State), s.m.activeTile l = some a → (s.m.tileAt l).lines[k.val]? = some x →
    (s.m.tileAt l).portClosed = false → (∀ y ∈ (s.m.tileAt l).lines, y.n + a.b.img.hbmLim ≠ x.n) → s.m.owns a.c (x.addr / pageBytes) = true → s.m.imageTiles a.c = [l.val] →
    (s.m.tileAt l).tokens = [] → x.line * 256 + 256 ≤ storeBytes → Completes (.hbmLineComplete l k) s fun m =>
      (m.tileAt l).lines = (s.m.tileAt l).lines.filter (· != x) ∧
      (x.write = false → m.storeRead l x.line 256 = s.m.hbmRead x.addr 256 ∧
        bytesOutside (s.m.tileAt l).store (m.tileAt l).store (x.line * 256) 256 ∧ m.hbm = s.m.hbm) ∧
      (x.write = true → m.hbmRead x.addr 256 = s.m.storeRead l x.line 256 ∧
        bytesOutside s.m.hbm.bytes m.hbm.bytes x.addr 256 ∧ (m.tileAt l).store = (s.m.tileAt l).store)) ∧
  (∀ (l : TileId) (k : Fin 65536) (a : ActiveTile) (x : LineOp) (s : State), s.m.activeTile l = some a → (s.m.tileAt l).lines[k.val]? = some x →
    (s.m.tileAt l).portClosed = false → (∀ y ∈ (s.m.tileAt l).lines, y.n + a.b.img.hbmLim ≠ x.n) → s.m.owns a.c (x.addr / pageBytes) = false →
    (s.m.xc a.c).state ≠ .halted → Completes (.hbmLineComplete l k) s fun m =>
      (m.xc a.c).detected = some { reason := 7, ch := 0, tile := some a.t } ∧ m.tileAt l = s.m.tileAt l ∧ m.hbm = s.m.hbm) ∧
  (∀ (l : TileId) (k : Fin 65536) (a : ActiveTile) (x y : LineOp) (s : State), s.m.activeTile l = some a →
    (s.m.tileAt l).lines[k.val]? = some x → y ∈ (s.m.tileAt l).lines → y.n + a.b.img.hbmLim = x.n → Ignored (.hbmLineComplete l k) s) ∧
  (∀ (c : CtxId) (ch : Fin 1024) (b : BoundImage) (r : RunStep) (rec_ : ChanRec) (k : TokenOp) (s : State),
    (s.m.xc c).image = some b → (s.m.xc c).run = some r → b.chan? ch = some rec_ → rec_.src ≠ 0xFFFF → r.released = true →
    (s.m.xc c).detected = none →
    ((s.m.tileAt (s.m.logical c b rec_.src)).tokens.find? fun k => k.ch == ch.val && k.offered) = some k →
    Completes (.tokenAcknowledge c ch) s fun m => (m.chanRun c ch).acked = (s.m.chanRun c ch).acked + 1 ∧
      (m.chanRun c ch).issued = (s.m.chanRun c ch).issued) ∧
  (∀ (c : CtxId) (ch : Fin 1024) (b : BoundImage) (rec_ : ChanRec) (k : TokenOp) (s : State), (s.m.xc c).image = some b →
    (s.m.xc c).detected ≠ none → b.chan? ch = some rec_ → rec_.src ≠ 0xFFFF →
    ((s.m.tileAt (s.m.logical c b rec_.src)).tokens.find? fun k => k.ch == ch.val && k.offered) = some k →
    Completes (.tokenAcknowledge c ch) s fun m => (m.chanRun c ch) = (s.m.chanRun c ch) ∧
      (m.tileAt (s.m.logical c b rec_.src)).tokens = (s.m.tileAt (s.m.logical c b rec_.src)).tokens.filter (· != k)) ∧
  (∀ (l : TileId) (line : Fin 12288) (s : State), (s.m.mapAt l).valid = true → Completes (.tileStoreUncorr l line true) s fun m =>
    m = s.m.raise (srcTileStore l 0) l) ∧
  (∀ (l : TileId) (line : Fin 12288) (s : State), (s.m.mapAt l).valid = true → Completes (.tileStoreUncorr l line false) s fun m =>
    (m.tileAt l).badLines.contains line.val = true ∧ (m.tileAt l).portClosed = true ∧ (m.tileAt l).resetAt = some s.m.time.now ∧
    (m.tileAt l).toRetire = true ∧ (m.tileAt l).lines = [] ∧ (m.tileAt l).tokens = [] ∧ (m.tileAt l).store = (s.m.tileAt l).store ∧
    ∀ k, k ≠ l.val → m.tileAt k = s.m.tileAt k) ∧
  (∀ (l : TileId) (line : Fin 12288) (b : Bool) (s : State), (s.m.mapAt l).valid = false → Ignored (.tileStoreUncorr l line b) s) ∧
  (∀ (l : TileId) (p : Nat) (s : State), s.m.retirable l = true → (∀ k < l.val % 32, (s.m.tileAt (l.val / 32 * 32 + k)).toRetire = false) →
    firstBelow 36 (fun p => p != (s.m.mapAt l).phys && (s.m.physAt (l.val / 32) p).use == .spare) = some p →
    Completes (.tileRetire l) s fun m => m.mapAt l = { phys := p, valid := true, spare := true } ∧
      m.physAt (l.val / 32) p = { use := .mapped, logical := l.val } ∧ (m.physAt (l.val / 32) (s.m.mapAt l).phys).use = .retired ∧
      (m.tileAt l).store = [] ∧ (m.tileAt l).acc = [] ∧ (m.tileAt l).portClosed = false ∧ (m.tileAt l).toRetire = false) ∧
  (∀ (l : TileId) (s : State), s.m.retirable l = true → (∀ k < l.val % 32, (s.m.tileAt (l.val / 32 * 32 + k)).toRetire = false) →
    (∀ p < 36, p ≠ (s.m.mapAt l).phys → (s.m.physAt (l.val / 32) p).use ≠ .spare) →
    Completes (.tileRetire l) s fun m => (m.mapAt l).valid = false ∧ (m.physAt (l.val / 32) (s.m.mapAt l).phys).use = .retired ∧
      (m.tileAt l).store = []) ∧
  (∀ (l : TileId) (k : Nat) (s : State), k < l.val % 32 → (s.m.tileAt (l.val / 32 * 32 + k)).toRetire = true → Ignored (.tileRetire l) s) ∧
  (∀ (l : TileId) (s : State), s.m.retirable l = false → Ignored (.tileRetire l) s)

/-- 09 R281, R282, R289, R292. `Machine.opTurn` says that no operation of the partition that arrived earlier is in progress. `Machine.bindCheck` takes the checks of 09 Table 9.10 in order; `Machine.xc c` is context c's execution registers
and image. -/
def Obligations.BindUnbindAndRestartOfAnImage : Prop :=
  (∀ (c : CtxId) (b : BoundImage) (s : State), (s.m.xc c).busy = true → (s.m.xc c).op = 1 → s.m.opTurn (.image c) = true → s.m.bindCheck c = (0, some b) →
    Completes (.bind c) s fun m => (m.xc c).image = some b ∧ (m.xc c).state = .ready ∧ (m.xc c).next = (s.m.xc c).stepBase ∧
      (m.xc c).queue = [] ∧ (m.xc c).run = none ∧ (m.xc c).status = 0 ∧ (m.xc c).done = true ∧ (m.xc c).busy = false) ∧
  (∀ (c : CtxId) (n : Nat) (s : State), (s.m.xc c).busy = true → (s.m.xc c).op = 1 → s.m.opTurn (.image c) = true → s.m.bindCheck c = (n, none) →
    Completes (.bind c) s fun m => m.xc c = { s.m.xc c with status := n, done := true, busy := false } ∧ m.tiles = s.m.tiles ∧
      m.strm = s.m.strm ∧ m.coll = s.m.coll) ∧
  (∀ (c : CtxId) (s : State), ((s.m.ctxAt c).base.life ≠ .live ∨ s.m.fenced c = true ∨ (s.m.partAt (s.m.ctxPart c)).state ≠ .bound) →
    (s.m.xc c).busy = true → s.m.opTurn (.image c) = true →
    ((s.m.xc c).op = 2 → Completes (.unbind c) s fun m => m.xc c = { s.m.xc c with status := 3, done := true, busy := false }) ∧
    ((s.m.xc c).op = 3 → Completes (.restart c) s fun m => m.xc c = { s.m.xc c with status := 3, done := true, busy := false })) ∧
  (∀ (c : CtxId) (s : State), (s.m.ctxAt c).base.life = .live → s.m.fenced c = false → (s.m.partAt (s.m.ctxPart c)).state = .bound →
    (s.m.xc c).busy = true → s.m.opTurn (.image c) = true → (s.m.xc c).image = none →
    ((s.m.xc c).op = 2 → Completes (.unbind c) s fun m => m.xc c = { s.m.xc c with status := 4, done := true, busy := false }) ∧
    ((s.m.xc c).op = 3 → Completes (.restart c) s fun m => m.xc c = { s.m.xc c with status := 4, done := true, busy := false })) ∧
  (∀ (c : CtxId) (s : State), (s.m.ctxAt c).base.life = .live → s.m.fenced c = false → (s.m.partAt (s.m.ctxPart c)).state = .bound →
    (s.m.xc c).busy = true → s.m.opTurn (.image c) = true → (s.m.xc c).op = 2 → (s.m.xc c).image.isSome = true → (∀ r, (s.m.xc c).run = some r → r.released = false) →
    Completes (.unbind c) s fun m => (m.xc c).image = none ∧ (m.xc c).state = .unbound ∧ (m.xc c).queue = [] ∧ (m.xc c).run = none ∧
      (m.xc c).status = 0 ∧ (m.xc c).done = true ∧ (m.xc c).busy = false) ∧
  (∀ (c : CtxId) (r : RunStep) (s : State), (s.m.ctxAt c).base.life = .live → s.m.fenced c = false →
    (s.m.partAt (s.m.ctxPart c)).state = .bound → (s.m.xc c).busy = true → s.m.opTurn (.image c) = true → (s.m.xc c).op = 2 → (s.m.xc c).image.isSome = true →
    (s.m.xc c).run = some r → r.released = true → Completes (.unbind c) s fun m => (m.xc c).state = .unbinding ∧ (m.xc c).queue = [] ∧
      (m.xc c).run = some r ∧ (m.xc c).image = (s.m.xc c).image ∧ (m.xc c).busy = true) ∧
  (∀ (c : CtxId) (b : BoundImage) (s : State), (s.m.ctxAt c).base.life = .live → s.m.fenced c = false →
    (s.m.partAt (s.m.ctxPart c)).state = .bound → (s.m.xc c).busy = true → s.m.opTurn (.image c) = true → (s.m.xc c).op = 3 → (s.m.xc c).image = some b →
    ((s.m.xc c).state = .ready ∨ (s.m.xc c).state = .halted →
      ((∀ l ∈ s.m.imageTiles c, (s.m.mapAt l).valid = true) → Completes (.restart c) s fun m => (m.xc c).image = some b ∧
        (m.xc c).state = .ready ∧ (m.xc c).next = (s.m.xc c).stepBase ∧ (m.xc c).status = 0 ∧ (m.xc c).busy = false) ∧
      ((∃ l ∈ s.m.imageTiles c, (s.m.mapAt l).valid = false) → Completes (.restart c) s fun m =>
        m.xc c = { s.m.xc c with status := 7, done := true, busy := false })) ∧
    ((s.m.xc c).state ≠ .ready → (s.m.xc c).state ≠ .halted → Completes (.restart c) s fun m =>
      m.xc c = { s.m.xc c with status := 4, done := true, busy := false })) ∧
  (∀ (c : CtxId) (s : State), s.m.opTurn (.image c) = false → Ignored (.bind c) s ∧ Ignored (.unbind c) s ∧ Ignored (.restart c) s) ∧
  (∀ (c : CtxId) (s : State), (s.m.xc c).busy = false → Ignored (.bind c) s ∧ Ignored (.unbind c) s ∧ Ignored (.restart c) s)

/-- 09 R271, R272, R284–R288; 10 R314; 13 R378; 02 R64. `Machine.pageWrite` is a function's write of a context's page;
`Machine.gatesOk` and `Machine.releasable` are the gates of arming and Reef's release. -/
def Obligations.StepsAreArmedReleasedAndEnded : Prop :=
  (∀ (c : CtxId) (f : Func) (v : Word) (s : State), s.m.reaches c (funcNum f) = true → s.m.fenced c = false →
    Completes (.ctxXcArmLo c f v) s fun m => tget 0 (m.xc c).latches (funcNum f) = v.toNat % 4096 ∧
      (∀ g, g ≠ funcNum f → tget 0 (m.xc c).latches g = tget 0 (s.m.xc c).latches g) ∧ (m.xc c).queue = (s.m.xc c).queue) ∧
  (∀ (c : CtxId) (f : Func) (v : Word) (b : BoundImage) (s : State), s.m.reaches c (funcNum f) = true → s.m.fenced c = false →
    (s.m.xc c).image = some b → (s.m.xc c).shown = .ready ∨ (s.m.xc c).shown = .running →
    (tget 0 (s.m.xc c).latches (funcNum f) < b.img.steps.length →
      ((s.m.xc c).queue.length + (if (s.m.xc c).run.isSome then 1 else 0) < 64 → Completes (.ctxXcArmHi c f v) s fun m =>
        (m.xc c).queue = (s.m.xc c).queue ++ [{ step := tget 0 (s.m.xc c).latches (funcNum f), arg := v, aborted := none }] ∧
        (m.xc c).state = .running ∧ (m.xc c).armBad = (s.m.xc c).armBad ∧ (m.xc c).armOvf = (s.m.xc c).armOvf) ∧
      (64 ≤ (s.m.xc c).queue.length + (if (s.m.xc c).run.isSome then 1 else 0) → Completes (.ctxXcArmHi c f v) s fun m =>
        (m.xc c).queue = (s.m.xc c).queue ∧ (m.xc c).state = (s.m.xc c).state ∧ (m.xc c).armOvf = true)) ∧
    (b.img.steps.length ≤ tget 0 (s.m.xc c).latches (funcNum f) → Completes (.ctxXcArmHi c f v) s fun m =>
      (m.xc c).queue = (s.m.xc c).queue ∧ (m.xc c).state = (s.m.xc c).state ∧ (m.xc c).armBad = true)) ∧
  (∀ (c : CtxId) (f : Func) (v : Word) (s : State), (s.m.xc c).shown ≠ .ready → (s.m.xc c).shown ≠ .running →
    s.m.reaches c (funcNum f) = true → s.m.fenced c = false → Completes (.ctxXcArmHi c f v) s fun m =>
      (m.xc c).queue = (s.m.xc c).queue ∧ (m.xc c).armBad = true) ∧
  (∀ (c : CtxId) (f : Func) (v : Word) (s : State), s.m.reaches c (funcNum f) = false →
    Ignored (.ctxXcArmLo c f v) s ∧ Ignored (.ctxXcArmHi c f v) s) ∧
  (∀ (c : CtxId) (f : Func) (v : Word) (s : State), s.m.reaches c (funcNum f) = true → s.m.fenced c = true →
    (Completes (.ctxXcArmLo c f v) s fun m => m.ctx = s.m.ctx ∧ m.acc.count = satAdd32 s.m.acc.count 1 ∧ m.acc.cause = 6) ∧
    (Completes (.ctxXcArmHi c f v) s fun m => m.ctx = s.m.ctx ∧ m.acc.count = satAdd32 s.m.acc.count 1 ∧ m.acc.cause = 6)) ∧
  (∀ (c : CtxId) (b : BoundImage) (q : QStep) (rest : List QStep) (p : StepProg) (s : State), (s.m.xc c).image = some b →
    (s.m.xc c).queue = q :: rest → (s.m.xc c).run = none → (s.m.xc c).shown = .running → (s.m.xc c).detected = none → q.aborted = none →
    s.m.fenced c = false → (∀ l ∈ s.m.imageTiles c, (s.m.tileAt l).toRetire = false ∧ (s.m.tileAt l).resetAt = none) →
    s.m.cqRoom c 0 = true → b.img.steps[q.step]? = some p → s.m.gatesOk b p = true → Completes (.stepArm c) s fun m =>
      (m.xc c).queue = rest ∧ ∃ r, (m.xc c).run = some r ∧ r.step = q.step ∧ r.arg = q.arg ∧ r.released = false ∧
        r.armSeq = s.m.reef.armSeq) ∧
  (∀ (c : CtxId) (s : State), (s.m.xc c).run.isSome = true ∨ (s.m.xc c).queue = [] → Ignored (.stepArm c) s) ∧
  (∀ (c : CtxId) (b : BoundImage) (r : RunStep) (p : StepProg) (s : State), (s.m.xc c).image = some b → (s.m.xc c).run = some r →
    b.img.steps[r.step]? = some p → r.released = false → (s.m.xc c).detected = none → s.m.fenced c = false → s.m.releasable c = true →
    Completes (.stepRelease c) s fun m => (m.xc c).next = (s.m.xc c).next + 1 ∧ (m.xc c).lastRelease = some s.m.time.now ∧
      (m.xc c).run = some { r with
        released := true, number := (s.m.xc c).next, releaseAt := s.m.time.now, flags := noFlags
        offCorner := s.m.trippedDies (s.m.ctxPart c) } ∧
      (∀ t e, p.starts[t]? = some e → (m.tileAt (s.m.logical c b t)).pc = e.getD 0 ∧
        (m.tileAt (s.m.logical c b t)).phase = (if e.isSome then .running else .idle) ∧
        (m.tileAt (s.m.logical c b t)).rng = rngSeed b.img.srSeed (s.m.xc c).next.toNat (s.m.logical c b t) ∧
        (m.tileAt (s.m.logical c b t)).lines = [] ∧ (m.tileAt (s.m.logical c b t)).tokens = [])) ∧
  (∀ (c : CtxId) (s : State), ((s.m.xc c).run = none ∨ s.m.releasable c = false) → Ignored (.stepRelease c) s) ∧
  (∀ (c : CtxId) (r : RunStep) (s : State), (s.m.xc c).run = some r → r.released = true → (s.m.xc c).detected = none →
    s.m.allEnded c = true → (s.m.xc c).state ≠ .unbinding →
    (s.m.elapsed r ≤ s.m.durNs c ∨ s.m.offDies c r ≠ 0 → Completes (.stepComplete c) s fun m => (m.xc c).run = none ∧
      (m.xc c).state = (if (s.m.xc c).queue.isEmpty then .ready else .running) ∧ (m.xc c).queue = (s.m.xc c).queue ∧
      m.hostRead ((s.m.xc c).cqBase.toNat + 32 * ((s.m.xc c).cqTail % max 1 (s.m.xc c).cqSize)) 32 = withPhase (s.m.runRecord c r none) (s.m.xc c).cqPhase ∧
      bytesOutside s.m.hostMem m.hostMem ((s.m.xc c).cqBase.toNat + 32 * ((s.m.xc c).cqTail % max 1 (s.m.xc c).cqSize)) 32) ∧
    (s.m.durNs c < s.m.elapsed r → s.m.offDies c r = 0 → Completes (.stepComplete c) s fun m => (m.xc c).run = none ∧
      (m.xc c).state = .halted ∧ (m.xc c).queue = [] ∧ (m.xc c).viol = { reason := 1, ch := 0, tile := none })) ∧
  (∀ (c : CtxId) (v : Viol) (s : State), (s.m.xc c).detected = some v → (s.m.xc c).state ≠ .unbinding →
    Completes (.contractViolation c) s fun m => (m.xc c).state = .halted ∧ (m.xc c).viol = v ∧ (m.xc c).queue = [] ∧
      (m.xc c).run = none ∧ (m.xc c).detected = none ∧
      ∀ l ∈ s.m.imageTiles c, (m.tileAt l).phase = .idle ∧ (m.tileAt l).lines = (s.m.tileAt l).lines ∧
        (m.tileAt l).tokens = (s.m.tileAt l).tokens.filter fun k => k.offered) ∧
  (∀ (c : CtxId) (ch : Nat) (s : State), (s.m.xc c).detected = none → (s.m.xc c).queue.findSome? (fun q => q.aborted) = some ch →
    ((s.m.xc c).run = none → (s.m.xc c).state ≠ .unbinding → Completes (.contractViolation c) s fun m =>
      (m.xc c).state = .halted ∧ (m.xc c).viol = { reason := 0xA, ch := ch, tile := none } ∧ (m.xc c).queue = []) ∧
    ((s.m.xc c).run.isSome = true → Ignored (.contractViolation c) s)) ∧
  (∀ (c : CtxId) (s : State), (s.m.xc c).detected = none → (∀ q ∈ (s.m.xc c).queue, q.aborted = none) → Ignored (.contractViolation c) s)

/-- 10 R297, R298, R301–R303; 15 R447. `Machine.pageCheck` is the status that a page operation meets before its own check. The fault of a
line outside the address map is the model's (10 R298 gives no such line). -/
def Obligations.PagesAreGrantedReturnedAndRetired : Prop :=
  (∀ (s : State), s.m.pagePending 1 = true → s.m.pageCheck s.m.part.page = 0 →
    (∀ x ∈ s.m.part.page.range, (s.m.pageAt x).use = .free) → Completes .pageGrant s fun m =>
      (∀ x, m.pageAt x = if x ∈ s.m.part.page.range then { use := .owned, ctx := s.m.part.page.ctx } else s.m.pageAt x) ∧
      m.hbm.bytes = s.m.hbm.bytes ∧ m.part.page = { s.m.part.page with status := 0, done := true, busy := false, begun := false }) ∧
  (∀ (s : State), s.m.pagePending 1 = true →
    (s.m.pageCheck s.m.part.page ≠ 0 → Completes .pageGrant s fun m => s.m.pageRefused m (s.m.pageCheck s.m.part.page)) ∧
    (s.m.pageCheck s.m.part.page = 0 → (∃ x ∈ s.m.part.page.range, (s.m.pageAt x).use ≠ .free) →
      Completes .pageGrant s fun m => s.m.pageRefused m 5)) ∧
  (∀ (s : State), s.m.pagePending 2 = true → s.m.part.page.begun = false →
    (s.m.pageCheck s.m.part.page ≠ 0 → Completes .pageReturn s fun m => s.m.pageRefused m (s.m.pageCheck s.m.part.page)) ∧
    (s.m.pageCheck s.m.part.page = 0 → (∃ x ∈ s.m.part.page.range, s.m.owns s.m.part.page.ctx x = false) →
      Completes .pageReturn s fun m => s.m.pageRefused m 6) ∧
    (s.m.pageCheck s.m.part.page = 0 → (∀ x ∈ s.m.part.page.range, s.m.owns s.m.part.page.ctx x = true) →
      (∃ x ∈ s.m.part.page.range, s.m.pinned s.m.part.page.ctx x = true) → Completes .pageReturn s fun m => s.m.pageRefused m 7) ∧
    (s.m.pageCheck s.m.part.page = 0 → (∀ x ∈ s.m.part.page.range, s.m.owns s.m.part.page.ctx x = true) →
      (∀ x ∈ s.m.part.page.range, s.m.pinned s.m.part.page.ctx x = false) → Completes .pageReturn s fun m =>
        (∀ x, m.pageAt x = if x ∈ s.m.part.page.range then { use := .scrubbing, ctx := s.m.part.page.ctx } else s.m.pageAt x) ∧
        m.hbm.bytes = s.m.hbm.bytes ∧ m.part = { s.m.part with page := { s.m.part.page with begun := true } })) ∧
  (∀ (s : State), s.m.pagePending 2 = true → s.m.part.page.begun = true → Completes .pageScrubComplete s fun m =>
      (∀ x ∈ s.m.part.page.range, m.pageAt x = (if (s.m.pageAt x).use = .retired then s.m.pageAt x else .reset) ∧
        ∀ i < pageBytes, tget Config.blank m.hbm.bytes (x * pageBytes + i) = Config.blank) ∧
      (∀ x, x ∉ s.m.part.page.range → m.pageAt x = s.m.pageAt x ∧
        ∀ i < pageBytes, tget Config.blank m.hbm.bytes (x * pageBytes + i) = tget Config.blank s.m.hbm.bytes (x * pageBytes + i)) ∧
      m.part.page = { s.m.part.page with status := 0, done := true, busy := false, begun := false }) ∧
  (∀ (s : State), (∀ k, s.m.pagePending k = false) → Ignored .pageGrant s ∧ Ignored .pageReturn s ∧ Ignored .pageScrubComplete s) ∧
  (∀ (a : BitVec 48) (s : State), a.toNat / pageBytes < s.m.totalPages → Completes (.hbmUncorrectable a false) s fun m =>
    m.pageAt (a.toNat / pageBytes) = { s.m.pageAt (a.toNat / pageBytes) with use := .retired } ∧
    (∀ x, x ≠ a.toNat / pageBytes → m.pageAt x = s.m.pageAt x) ∧ m.hbm.bytes = s.m.hbm.bytes ∧
    (∀ l ∈ s.m.readers a.toNat, (m.tileAt l).portClosed = true ∧ (m.tileAt l).resetAt = some s.m.time.now ∧ (m.tileAt l).lines = []) ∧
    ∀ l, l ∉ s.m.readers a.toNat → m.tileAt l = s.m.tileAt l) ∧
  (∀ (a : BitVec 48) (s : State), a.toNat / pageBytes < s.m.totalPages → Completes (.hbmUncorrectable a true) s fun m =>
    (tget HbmStack.reset m.hbm.stackTbl (s.m.stackOf (a.toNat / pageBytes))).corr =
      satAdd32 (tget HbmStack.reset s.m.hbm.stackTbl (s.m.stackOf (a.toNat / pageBytes))).corr 1 ∧
    m.hbm.pages = s.m.hbm.pages ∧ m.hbm.bytes = s.m.hbm.bytes ∧ m.tiles = s.m.tiles) ∧
  (∀ (a : BitVec 48) (b : Bool) (s : State), s.m.totalPages ≤ a.toNat / pageBytes → exec (.hbmUncorrectable a b) s = .fault .noSuchAddress)

/-- 10 R305–R308, R313, R317, Tables 10.5–10.7. `Machine.openStatus` and `Machine.strmCheck` are the statuses of 10 Table 10.7. -/
def Obligations.StreamOperationsOfAContext : Prop :=
  (∀ (c : CtxId) (s : State), s.m.stPending c 1 = true →
    (s.m.openStatus c (s.m.ctxAt c).st.stream (s.m.ctxAt c).st.args = 0 → Completes (.streamOpen c) s fun m =>
      (let r := m.strmAt (s.m.ctxAt c).st.stream
       let a := (s.m.ctxAt c).st.args
       r.state = .open_ ∧ r.kind = bits (tget 0 a 0) 0 3 ∧ r.ctx = c.val ∧ r.peer.toNat = bits (tget 0 a 0) 16 16 ∧ r.openTime = s.m.time.now ∧
       (r.kind = kindMsg → r.base = (tget 0 a 1).toNat + (tget 0 a 2).toNat * 2 ^ 32 ∧ r.len = (tget 0 a 3).toNat ∧
         r.ring = bits (tget 0 a 4) 0 13) ∧ r.ringHead = 0 ∧ r.ringTail = 0 ∧ r.peerSeen = false) ∧
      (∀ n, n ≠ (s.m.ctxAt c).st.stream → m.strmAt n = s.m.strmAt n) ∧
      (m.ctxAt c).st = { (s.m.ctxAt c).st with status := 0, done := true, busy := false }) ∧
    (s.m.openStatus c (s.m.ctxAt c).st.stream (s.m.ctxAt c).st.args ≠ 0 → Completes (.streamOpen c) s fun m =>
      s.m.strmRefused m c (s.m.openStatus c (s.m.ctxAt c).st.stream (s.m.ctxAt c).st.args))) ∧
  (∀ (c : CtxId) (s : State), s.m.stPending c 2 = true →
    (s.m.strmCheck c (s.m.ctxAt c).st.stream = 0 → (s.m.strmAt (s.m.ctxAt c).st.stream).state ≠ .closed →
      (s.m.strmAt (s.m.ctxAt c).st.stream).state ≠ .closing → Completes (.streamClose c) s fun m =>
        (m.strmAt (s.m.ctxAt c).st.stream).state = .closing ∧ (m.strmAt (s.m.ctxAt c).st.stream).closedAt = s.m.time.now ∧
        (∀ n, n ≠ (s.m.ctxAt c).st.stream → m.strmAt n = s.m.strmAt n) ∧
        (m.ctxAt c).st = { (s.m.ctxAt c).st with status := 0, done := true, busy := false } ∧
        ((s.m.strmAt (s.m.ctxAt c).st.stream).state = .bound ∨ ((s.m.strmAt (s.m.ctxAt c).st.stream).state = .held ∧
          (s.m.strmAt (s.m.ctxAt c).st.stream).heldFrom = .bound) → (s.m.xc c).image.isSome = true → (s.m.xc c).state ≠ .halted →
          (s.m.xc c).detected = none →
          (m.xc c).detected = some { reason := 8, ch := (s.m.strmAt (s.m.ctxAt c).st.stream).channel, tile := none })) ∧
    (s.m.strmCheck c (s.m.ctxAt c).st.stream ≠ 0 → Completes (.streamClose c) s fun m =>
      s.m.strmRefused m c (s.m.strmCheck c (s.m.ctxAt c).st.stream)) ∧
    (s.m.strmCheck c (s.m.ctxAt c).st.stream = 0 → (s.m.strmAt (s.m.ctxAt c).st.stream).state = .closed ∨
      (s.m.strmAt (s.m.ctxAt c).st.stream).state = .closing → Completes (.streamClose c) s fun m => s.m.strmRefused m c 5)) ∧
  (∀ (c : CtxId) (s : State), s.m.stPending c 3 = true →
    (s.m.strmCheck c (s.m.ctxAt c).st.stream = 0 → Completes (.streamQuery c) s fun m =>
      (∀ i < 16, (tget 0 (m.ctxAt c).st.res i).toNat = leAt (s.m.strmAt (s.m.ctxAt c).st.stream).bytes (4 * i) 4) ∧
      (m.ctxAt c).st.status = 0 ∧ (m.ctxAt c).st.done = true ∧ (m.ctxAt c).st.busy = false ∧ m.strm = s.m.strm) ∧
    (s.m.strmCheck c (s.m.ctxAt c).st.stream ≠ 0 → Completes (.streamQuery c) s fun m =>
      s.m.strmRefused m c (s.m.strmCheck c (s.m.ctxAt c).st.stream))) ∧
  (∀ (c : CtxId) (h : Nat) (r : StreamRec) (s : State), s.m.stPending c 4 = true →
    h = bits (tget 0 (s.m.ctxAt c).st.args 0) 0 13 → s.m.strmAt (s.m.ctxAt c).st.stream = r →
    s.m.strmCheck c (s.m.ctxAt c).st.stream = 0 →
    (r.kind = kindMsg → r.state = .open_ →
      (h + 8192 - r.ringHead) % 8192 ≤ (r.ringTail + 8192 - r.ringHead) % 8192 → Completes (.streamHead c) s fun m =>
        m.strmAt (s.m.ctxAt c).st.stream = { r with ringHead := h } ∧ (∀ n, n ≠ (s.m.ctxAt c).st.stream → m.strmAt n = s.m.strmAt n) ∧
        (m.ctxAt c).st = { (s.m.ctxAt c).st with status := 0, done := true, busy := false }) ∧
    (r.kind = kindMsg → r.state = .open_ →
      (r.ringTail + 8192 - r.ringHead) % 8192 < (h + 8192 - r.ringHead) % 8192 → Completes (.streamHead c) s fun m =>
        s.m.strmRefused m c 3) ∧
    (r.kind ≠ kindMsg ∨ r.state ≠ .open_ → Completes (.streamHead c) s fun m => s.m.strmRefused m c 5)) ∧
  (∀ (c : CtxId) (s : State), (∀ k, s.m.stPending c k = false) → Ignored (.streamOpen c) s ∧ Ignored (.streamClose c) s ∧
    Ignored (.streamQuery c) s ∧ Ignored (.streamHead c) s)

/-- 10 R310–R313, Table 10.8. A stream management frame carries the stream, its generation and a value; `Machine.takeMgmt` takes the first
one delivered. -/
def Obligations.StreamHellosAndCredits : Prop :=
  (∀ (f : Frame) (m' : Machine) (n : Nat) (r : StreamRec) (s : State), s.m.takeMgmt 0x40 = some (f, m') → n = leAt f.payload 0 2 % 4096 →
    r = s.m.strmAt n → r.kind = kindIn → r.state = .open_ ∨ r.state = .bound → r.gen = leAt f.payload 2 1 → r.peer = frSrc f →
    Completes .streamHelloReceive s fun m => (m.strmAt n).peerSeen = true ∧
      (m.strmAt n).firstSeq = leAt f.payload 3 2 ∧
      (m.strmAt n).anchorSeq = (if r.landed = 0 ∧ r.freed = 0 then leAt f.payload 3 2 else r.anchorSeq) ∧ (m.strmAt n).state = r.state ∧
      ∀ k, k ≠ n → m.strmAt k = s.m.strmAt k) ∧
  (∀ (f : Frame) (m' : Machine) (n v d : Nat) (r : StreamRec) (s : State), s.m.takeMgmt 0x41 = some (f, m') → n = leAt f.payload 0 2 % 4096 →
    r = s.m.strmAt n → r.kind = kindOut → r.state = .open_ ∨ r.state = .bound → r.gen = leAt f.payload 2 1 → r.peer = frSrc f →
    v = (leAt f.payload 3 2 + 65536 - r.landed % 65536) % 65536 → d = (if r.peerSeen then r.depth else leAt f.payload 3 2) →
    (v ≤ d → d ≤ 4096 → Completes .streamCreditReceive s fun m =>
      m.strmAt n = { r with credit := v, depth := d, peerSeen := true, freed := 0 } ∧ ∀ k, k ≠ n → m.strmAt k = s.m.strmAt k) ∧
    (d < v ∨ 4096 < d → Completes .streamCreditReceive s fun m => m.strm.entries = s.m.strm.entries ∧
      m.strm.cntCredit = satAdd32 s.m.strm.cntCredit 1)) ∧
  (∀ (s : State), s.m.takeMgmt 0x40 = none → Ignored .streamHelloReceive s) ∧
  (∀ (s : State), s.m.takeMgmt 0x41 = none → Ignored .streamCreditReceive s) ∧
  (∀ (n : StreamId) (s : State), (s.m.strmAt n).kind = kindOut → (s.m.strmAt n).state = .open_ ∨ (s.m.strmAt n).state = .bound →
    (s.m.strmAt n).peerSeen = false → Completes (.streamHelloRepeat n) s fun m =>
      s.m.sentMgmt m (s.m.strmAt n).peer 0x40 (strmPayload n (s.m.strmAt n).gen (tget 0 s.m.txSeq n)) ∧ m.strm = s.m.strm) ∧
  (∀ (n : StreamId) (s : State), (s.m.strmAt n).kind ≠ kindOut ∨ (s.m.strmAt n).peerSeen = true ∨
    ((s.m.strmAt n).state ≠ .open_ ∧ (s.m.strmAt n).state ≠ .bound) → Ignored (.streamHelloRepeat n) s) ∧
  (∀ (n : StreamId) (s : State), (s.m.strmAt n).kind = kindIn → (s.m.strmAt n).state = .bound → (s.m.strmAt n).peerSeen = true →
    Completes (.streamCreditPeriodic n) s fun m =>
      s.m.sentMgmt m (s.m.strmAt n).peer 0x41 (strmPayload n (s.m.strmAt n).gen (((s.m.strmAt n).freed + (s.m.strmAt n).depth) % 65536)) ∧
      m.strmAt n = { s.m.strmAt n with lastCredit := some s.m.time.now }) ∧
  (∀ (n : StreamId) (s : State), (s.m.strmAt n).state ≠ .bound ∨ (s.m.strmAt n).kind ≠ kindIn ∨ (s.m.strmAt n).peerSeen = false →
    Ignored (.streamCreditPeriodic n) s) ∧
  (∀ (n : StreamId) (s : State), (s.m.strmAt n).state = .closing →
    ((∀ e t, e ∈ s.m.txn → e.2 = some t → t.stream ≠ n.val) → Completes (.streamClosingEnd n) s fun m => m.strmAt n = .reset ∧
      ∀ k, k ≠ n.val → m.strmAt k = s.m.strmAt k) ∧
    ((∃ e t, e ∈ s.m.txn ∧ e.2 = some t ∧ t.stream = n.val) → Ignored (.streamClosingEnd n) s))

/-- 11 R319–R321, R328–R332, R344, Tables 11.1, 11.6, 11.8. `Machine.winByte` is the device address of a byte of a function's window whose
page it may access. -/
def Obligations.HostLinksAndWindows : Prop :=
  (∀ (n : IoDie) (t : HostTrain) (b : Bool) (s : State), t.up = true → s.m.hlinkActive n = true → (s.m.hlink n).up = false → 2 ≤ t.rate →
    t.width ∈ [1, 2, 4, 8, 16] → s.m.offersCxl n = true → t.cxl = some b → Completes (.hostLinkTrain n t) s fun m =>
      m.hlink n = { s.m.hlink n with up := true, degraded := decide (t.width < 16) || decide (2 < s.m.rateLimit n), rate := 2, flit := true
                                     proto := if b then 2 else 1, width := t.width, bigTags := t.tags } ∧
      ∀ k, k ≠ n.val → m.hlink k = s.m.hlink k) ∧
  (∀ (n : IoDie) (t : HostTrain) (s : State), t.up = true → s.m.hlinkActive n = true → (s.m.hlink n).up = false → 1 ≤ t.rate →
    t.width ∈ [1, 2, 4, 8, 16] → s.m.offersCxl n = false ∨ t.cxl = none ∨ t.rate < 2 → Completes (.hostLinkTrain n t) s fun m =>
      m.hlink n = { s.m.hlink n with
        up := true, rate := min t.rate (s.m.rateLimit n), flit := min t.rate (s.m.rateLimit n) == 3, proto := 0, width := t.width, bigTags := t.tags
        degraded := decide (t.width < 16) || decide (min t.rate (s.m.rateLimit n) < s.m.rateLimit n) ||
          (n.val == 0 && (s.m.rig 0x09).testBit 1) } ∧
      ∀ k, k ≠ n.val → m.hlink k = s.m.hlink k) ∧
  (∀ (n : IoDie) (t : HostTrain) (s : State), t.up = false ∨ s.m.hlinkActive n = false ∨ (s.m.hlink n).up = true ∨ t.rate = 0 ∨ t.width ∉ [1, 2, 4, 8, 16] →
    Ignored (.hostLinkTrain n t) s) ∧
  (∀ (s : State), (s.m.hlink 1).up = true → Completes .h1LinkDown s fun m =>
    m.hlink 1 = { HstLink.reset with downCnt := satAdd 0xFFFF (s.m.hlink 1).downCnt 1 } ∧ m.hlink 0 = s.m.hlink 0 ∧
    (∀ c q k, q < 4 → (s.m.queue c q).cur = some k → k.opt 1 = true → k.flushing = false → ((s.m.queue c q).flushSet k).contains 1 = true →
      (m.queue c q).cur.map (fun k => (k.status, k.sent, k.h1Last)) = some (3, true, none)) ∧
    (∀ c q k, q < 4 → (s.m.queue c q).cur = some k → k.opt 1 = true → k.flushing = true → ((s.m.queue c q).flushSet k).contains 1 = true →
      s.m.fenced c = false → (m.queue c q).cur = none ∧ (m.queue c q).haltStatus = 3) ∧
    (∀ c q, q < 4 → (s.m.queue c q).cur = none → m.queue c q = { s.m.queue c q with h1Last := none })) ∧
  (∀ (s : State), (s.m.hlink 1).up = false → Ignored .h1LinkDown s) ∧
  (∀ (f : Func) (o n : Nat) (s : State), n ≠ 0 → o + n ≤ (s.m.window (funcNum f)).2 → Completes (.windowRead f o n) s fun m =>
    m.out = s.m.out ++ [Out.windowData (funcNum f) o ((List.range n).map fun i => match s.m.winByte (funcNum f) false (o + i) with
      | some a => tget Config.blank s.m.hbm.bytes a
      | none => 0xFF)] ∧ m.hbm = s.m.hbm ∧
    ((∀ i < n, (s.m.winByte (funcNum f) false (o + i)).isSome = true) → m.hst = s.m.hst ∧ m.ctx = s.m.ctx) ∧
    ((∃ i < n, s.m.winByte (funcNum f) false (o + i) = none) → f = .pf →
      m.hst.pfWin = { s.m.hst.pfWin with denied := true, count := satAdd 0xFFFF s.m.hst.pfWin.count 1 })) ∧
  (∀ (f : Func) (o : Nat) (data : List Byte) (s : State), data ≠ [] → o + data.length ≤ (s.m.window (funcNum f)).2 →
    (Completes (.windowWrite f o data false) s fun m =>
      (∀ i a, i < data.length → s.m.winByte (funcNum f) true (o + i) = some a → tget Config.blank m.hbm.bytes a = data.getD i 0) ∧
      (∀ a, (∀ i < data.length, s.m.winByte (funcNum f) true (o + i) ≠ some a) →
        tget Config.blank m.hbm.bytes a = tget Config.blank s.m.hbm.bytes a) ∧
      ((∃ i < data.length, s.m.winByte (funcNum f) true (o + i) = none) → f = .pf →
        m.hst.pfWin = { s.m.hst.pfWin with denied := true, count := satAdd 0xFFFF s.m.hst.pfWin.count 1 })) ∧
    (Completes (.windowWrite f o data true) s fun m => m.hbm = s.m.hbm ∧ m.hst = s.m.hst ∧ m.ctx = s.m.ctx)) ∧
  (∀ (f : Func) (o : Nat) (s : State), o < (s.m.window (funcNum f)).2 → Completes (.windowAtomic f o) s fun m =>
    m = { s.m with out := s.m.out ++ [Out.unsupported (funcNum f)] }) ∧
  (∀ (f : Func) (o n : Nat) (data : List Byte) (p : Bool) (s : State), (n = 0 ∨ (s.m.window (funcNum f)).2 < o + n → Ignored (.windowRead f o n) s) ∧
    (data = [] ∨ (s.m.window (funcNum f)).2 < o + data.length → Ignored (.windowWrite f o data p) s) ∧
    ((s.m.window (funcNum f)).2 ≤ o → Ignored (.windowAtomic f o) s))

/-- 11 R335, R341–R343. `Machine.watchTarget` is the doorbell that a watch entry's target offset names. -/
def Obligations.WatchesFunctionResetsAndVfs : Prop :=
  (∀ (n : Fin 128) (v : Word) (s : State), Completes (.watchEntrySet n v) s fun m =>
    (let ok := s.m.cxlActive && (s.m.watchTarget (s.m.watch n).tgt).isSome
     m.watch n = { s.m.watch n with valid := bitAt v 0, bad := bitAt v 0 && !ok, held := bitAt v 0 && ok, lo := v.toNat / 64 }) ∧
    ∀ k, k ≠ n.val → m.watch k = s.m.watch k) ∧
  (∀ (n : Fin 128) (h : Cells) (c q v : Nat) (s : State), (s.m.watch n).held = true → s.m.watchTarget (s.m.watch n).tgt = some (c, q) →
    v = ofLe ((s.m.hostStores h).hostRead ((s.m.watch n).lo * 64 + (s.m.watch n).hi * 2 ^ 32) 4) % 65536 → s.m.fenced c = false →
    (s.m.queue c q).state ≠ .disabled → (v + 65536 - (s.m.queue c q).ci) % 65536 ≤ 2 ^ (s.m.queue c q).log2size →
    (v + 65536 - (s.m.queue c q).pi) % 65536 ≤ 2 ^ (s.m.queue c q).log2size → Completes (.watchSnoop n h) s fun m =>
      m.queue c q = { s.m.queue c q with pi := v } ∧ m.hostMem = (s.m.hostStores h).hostMem) ∧
  (∀ (n : Fin 128) (h : Cells) (s : State), (s.m.watch n).held = false → Completes (.watchSnoop n h) s fun m => m = s.m.hostStores h) ∧
  (∀ (n : Fin 64) (s : State), s.m.vfCtx (n.val + 1) = none → Completes (.vfFlr n) s fun m =>
    (∀ v < 512, tget Msix.reset m.msix ((n.val + 1) * 512 + v) = .reset) ∧
    (∀ k, k < (n.val + 1) * 512 ∨ (n.val + 2) * 512 ≤ k → tget Msix.reset m.msix k = tget Msix.reset s.m.msix k) ∧ m.ctx = s.m.ctx) ∧
  (∀ (n : Fin 64) (c : CtxId) (s : State), s.m.vfCtx (n.val + 1) = some c.val → (s.m.ctxAt c).base.life = .live →
    s.m.covered (.context c) = false → s.m.fenced c = false → s.m.fenceDue (.context c) = true → Completes (.vfFlr n) s fun m =>
      (∀ v < 512, tget Msix.reset m.msix ((n.val + 1) * 512 + v) = .reset) ∧ (m.ctxAt c).win = .reset ∧ (m.ctxAt c).rst.inReset = true ∧
      (m.ctxAt c).rst.gen = ((s.m.ctxAt c).rst.gen + 1) % 256 ∧ (m.ctxAt c).base.life = .live ∧
      (∃ f ∈ m.luff.fences, f.dom = .context c ∧ f.cause = 1 ∧ f.start = s.m.time.now)) ∧
  (∀ (e : PfEvent) (s : State), Completes (.pfFlr e) s fun m => m.hst.vfEn = false ∧ m.hst.pfWin = .reset ∧ m.hst.cohRead = false ∧
    m.hst.watches = [] ∧ (∀ c f, c < 64 → (s.m.ctxAt c).base.life = .live → (s.m.ctxAt c).base.func = some (f + 1) →
      (m.ctxAt c).base.life = .ending) ∧
    (e = .functionReset → m.hst.links = s.m.hst.links ∧ ∀ v < 512, tget Msix.reset m.msix v = .reset) ∧
    (e ≠ .functionReset → (m.hlink 0).up = false)) ∧
  (∀ (c : CtxId) (e : PfEvent) (s : State), (s.m.ctxAt c).base.life = .live → (s.m.ctxAt c).base.func = some 0 →
    s.m.covered (.context c) = false → s.m.fenced c = false → s.m.fenceDue (.context c) = true → Completes (.pfFlr e) s fun m =>
      (m.ctxAt c).rst.inReset = true ∧ (m.ctxAt c).base.life = .live ∧ ∃ f ∈ m.luff.fences, f.dom = .context c ∧ f.cause = 2) ∧
  (∀ (e : Bool) (n : Fin 65) (s : State), Completes (.vfEnableClear e n) s fun m => m.hst.vfEn = e ∧ m.hst.numVf = n.val ∧
    (∀ c f, c < 64 → (s.m.ctxAt c).base.life = .live → (s.m.ctxAt c).base.func = some f → (if e then n.val else 0) < f →
      (m.ctxAt c).base.life = .ending) ∧
    (∀ c, c < 64 → (∀ f, (s.m.ctxAt c).base.func = some f → f ≤ if e then n.val else 0) → m.ctxAt c = s.m.ctxAt c))

/-- 12 R350–R353, R356, R362, R365, R366; 11 R326, R346. `Machine.queue c q` is queue q of context c. -/
def Obligations.CopyQueuesDoorbellsAndFetches : Prop :=
  (∀ (c : CtxId) (q : Fin 4) (f : Func) (g : Word) (s : State), s.m.reaches c (funcNum f) = true → s.m.fenced c = false →
    (s.m.queue c q).state = .disabled →
    (∀ e, engineOf (bits g 4 2) (bits g 6 3) = some e → (s.m.engine e).failed = false → 4 ≤ bits g 0 4 → bits g 0 4 ≤ 12 →
      (s.m.queue c q).base.toNat % 256 = 0 → (s.m.ctxAt c).ce.cqSize ≠ 0 → Completes (.ceQueueEnable c q f g) s fun m =>
        m.queue c q = { s.m.queue c q with log2size := bits g 0 4, cls := bits g 4 2, idx := bits g 6 3, state := .running, enable := true
                                           pi := 0, ci := 0, cur := none, h0Last := none, h1Last := none }) ∧
    ((engineOf (bits g 4 2) (bits g 6 3) = none ∨ bits g 0 4 < 4 ∨ 12 < bits g 0 4 ∨ (s.m.queue c q).base.toNat % 256 ≠ 0 ∨
        (s.m.ctxAt c).ce.cqSize = 0 ∨ (∃ e, engineOf (bits g 4 2) (bits g 6 3) = some e ∧ (s.m.engine e).failed = true)) →
      Completes (.ceQueueEnable c q f g) s fun m =>
        m.queue c q = { s.m.queue c q with log2size := bits g 0 4, cls := bits g 4 2, idx := bits g 6 3, enable := false, cfgErr := true })) ∧
  (∀ (c : CtxId) (q : Fin 4) (f : Func) (g : Word) (s : State), s.m.reaches c (funcNum f) = true → s.m.fenced c = false →
    (s.m.queue c q).state ≠ .disabled → Completes (.ceQueueEnable c q f g) s fun m => m = s.m) ∧
  (∀ (c : CtxId) (q : Fin 4) (f : Func) (s : State), s.m.reaches c (funcNum f) = true → s.m.fenced c = false →
    Completes (.ceQueueDisable c q f) s fun m => m.queue c q = { s.m.queue c q with
      enable := false, state := if (s.m.queue c q).cur.isNone then .disabled else (s.m.queue c q).state }) ∧
  (∀ (c : CtxId) (q : Fin 4) (f : Func) (s : State), s.m.reaches c (funcNum f) = true → s.m.fenced c = false →
    (s.m.queue c q).state = .halted → (s.m.queue c q).enable = true →
    (∀ e, engineOf (s.m.queue c q).cls (s.m.queue c q).idx = some e → (s.m.engine e).failed = false) →
    Completes (.ceQueueResume c q f) s fun m => m.queue c q = { s.m.queue c q with state := .running }) ∧
  (∀ (c : CtxId) (q : Fin 4) (f : Func) (s : State), (s.m.queue c q).state ≠ .halted ∨ (s.m.queue c q).enable = false ∨
      (∃ e, engineOf (s.m.queue c q).cls (s.m.queue c q).idx = some e ∧ (s.m.engine e).failed = true) → s.m.reaches c (funcNum f) = true →
    s.m.fenced c = false → Ignored (.ceQueueResume c q f) s) ∧
  (∀ (c : CtxId) (q : Fin 4) (f : Func) (pi : BitVec 16) (s : State), s.m.reaches c (funcNum f) = true → s.m.fenced c = false →
    ((s.m.queue c q).state ≠ .disabled → (pi.toNat + 65536 - (s.m.queue c q).ci) % 65536 ≤ 2 ^ (s.m.queue c q).log2size →
      (pi.toNat + 65536 - (s.m.queue c q).pi) % 65536 ≤ 2 ^ (s.m.queue c q).log2size → Completes (.ceDoorbell c q f pi) s fun m =>
        m.queue c q = { s.m.queue c q with pi := pi.toNat }) ∧
    ((s.m.queue c q).state = .disabled ∨ 2 ^ (s.m.queue c q).log2size < (pi.toNat + 65536 - (s.m.queue c q).ci) % 65536 ∨
        2 ^ (s.m.queue c q).log2size < (pi.toNat + 65536 - (s.m.queue c q).pi) % 65536 →
      Completes (.ceDoorbell c q f pi) s fun m => m.queue c q = { s.m.queue c q with dbErr := true })) ∧
  (∀ (c : CtxId) (q : Fin 4) (f : Func) (g : Word) (pi : BitVec 16) (s : State),
    (s.m.reaches c (funcNum f) = false → Ignored (.ceQueueEnable c q f g) s ∧ Ignored (.ceQueueDisable c q f) s ∧
      Ignored (.ceQueueResume c q f) s ∧ Ignored (.ceDoorbell c q f pi) s) ∧
    (s.m.reaches c (funcNum f) = true → s.m.fenced c = true →
      ∀ i ∈ [Instr.ceQueueEnable c q f g, .ceQueueDisable c q f, .ceQueueResume c q f, .ceDoorbell c q f pi],
        Completes i s fun m => m.ctx = s.m.ctx ∧ m.acc.count = satAdd32 s.m.acc.count 1 ∧ m.acc.cause = 6)) ∧
  (∀ (c : CtxId) (q : Fin 4) (h : Cells) (e : Nat) (r : CeQueue) (s : State), (s.m.hostStores h).fetchable c q = some e →
    r = s.m.queue c q → Completes (.ceCommandFetch c q h) s fun m =>
      (m.queue c q).ci = (r.ci + 1) % 65536 ∧ ∃ k, (m.queue c q).cur = some k ∧ k.index = r.ci ∧ k.engine = e ∧
        k.bytes = (s.m.hostStores h).hostRead (r.base.toNat + r.ci % 2 ^ r.log2size * 256) 256 ∧
        k.status = (s.m.hostStores h).checkCmd c (engineClass e) (.ofBytes k.bytes) ∧ k.started = false ∧ k.sent = (k.status != 0) ∧
        m.hostMem = (s.m.hostStores h).hostMem) ∧
  (∀ (c : CtxId) (q : Fin 4) (h : Cells) (s : State), (s.m.hostStores h).fetchable c q = none →
    Completes (.ceCommandFetch c q h) s fun m => m = s.m.hostStores h) ∧
  (∀ (c : CtxId) (q : Fin 4) (s : State),
    (∀ e, s.m.fetchable c q = some e → Completes (.hostReadTimeout (.fetch c q)) s fun m =>
      (m.queue c q).ci = ((s.m.queue c q).ci + 1) % 65536 ∧
      (m.queue c q).cur.map (fun k => (k.index, k.status, k.sent)) = some ((s.m.queue c q).ci, 3, true)) ∧
    (∀ k, (s.m.queue c q).cur = some k → k.op = 1 → k.inl = false → engineClass k.engine = 1 → k.sent = false →
      Completes (.hostReadTimeout (.segment c q)) s fun m => (m.queue c q).cur = some { k with status := 3, failAt := none, sent := true }) ∧
    (∀ k, (s.m.queue c q).cur = some k → k.flushing = true → s.m.fenced c = false → Completes (.hostReadTimeout (.flush c q)) s fun m =>
      s.m.ceEnded m c q { k with status := 3, flushing := false }) ∧
    (s.m.fetchable c q = none → Ignored (.hostReadTimeout (.fetch c q)) s) ∧
    ((s.m.queue c q).cur = none → Ignored (.hostReadTimeout (.segment c q)) s ∧ Ignored (.hostReadTimeout (.flush c q)) s))

/-- 12 R348, R355, R357–R363; 11 R338; 07 R225, R238. `Machine.turn e` is the queue whose segment engine e serves next. -/
def Obligations.CopyCommandsMoveSendAndComplete : Prop :=
  (∀ (c : CtxId) (q : Fin 4) (k : CeCmd) (s : State), s.m.begins c q 1 k → k.segLen ≠ 0 →
    (k.inl = true → k.pos + k.segLen ≤ k.inlineData.length) → Completes (.copy c q) s fun m => s.m.segServed m c q k.engine k) ∧
  (∀ (c : CtxId) (q : Fin 4) (k : CeCmd) (s : State), s.m.begins c q 2 k → k.segLen ≠ 0 →
    Completes (.fill c q) s fun m => s.m.segServed m c q k.engine k) ∧
  (∀ (e : Fin 20) (h : Cells) (c q : Nat) (k : CeCmd) (s : State), (s.m.hostStores h).turn e = some (c, q) →
    (s.m.queue c q).cur = some k → k.op = 1 ∨ k.op = 2 → k.segLen ≠ 0 → (k.inl = true → k.pos + k.segLen ≤ k.inlineData.length) →
    Completes (.ceSegment e h) s fun m => (s.m.hostStores h).segServed m c q e k) ∧
  (∀ (e : Fin 20) (h : Cells) (s : State), (s.m.hostStores h).turn e = none → Completes (.ceSegment e h) s fun m => m = s.m.hostStores h) ∧
  (∀ (c : CtxId) (q : Fin 4) (k : CeCmd) (s : State), (s.m.queue c q).cur = some k →
    (k.op = 3 → k.sent = false → s.m.fenced c = false → Completes (.flagOnly c q) s fun m =>
      (m.queue c q).cur = some { k with started := true, startAt := s.m.time.now, sent := true }) ∧
    (k.op ≠ 3 ∨ k.sent = true → Ignored (.flagOnly c q) s) ∧ (k.op ≠ 1 → Ignored (.copy c q) s) ∧ (k.op ≠ 2 → Ignored (.fill c q) s) ∧
    (k.op ≠ 4 → Ignored (.msg c q) s) ∧ (k.op ≠ 5 → Ignored (.reqWrite c q) s) ∧ (k.op ≠ 6 → Ignored (.reqRead c q) s) ∧
    (k.op ≠ 7 → Ignored (.reqFetchAdd c q) s) ∧ (k.op ≠ 8 → Ignored (.reqSignal c q) s)) ∧
  (∀ (c : CtxId) (q : Fin 4) (k : CeCmd) (s : State), s.m.begins c q 4 k →
    (s.m.sendStatus c k = 0 → k.inl = true ∨ k.len = 0 ∨ s.m.lineStatus c k.src k.len = 0 → Completes (.msg c q) s fun m =>
      s.m.ceSent m k (s.m.ceFrame c k 4 0 0 0 (if k.inl then k.inlineData else s.m.hbmRead k.src k.len)) ∧
      (m.queue c q).cur = some { k with started := true, startAt := s.m.time.now, pos := k.len, moved := k.len, sent := true }) ∧
    (s.m.sendStatus c k ≠ 0 → Completes (.msg c q) s fun m => m.fwd = s.m.fwd ∧
      (m.queue c q).cur.map (fun x => (x.status, x.sent)) = some (s.m.sendStatus c k, true) ∧
      (m.strmAt k.stream).dropsOut = satAdd 0xFFFF (s.m.strmAt k.stream).dropsOut 1) ∧
    (s.m.sendStatus c k = 0 → k.inl = false → k.len ≠ 0 → s.m.lineStatus c k.src k.len ≠ 0 → Completes (.msg c q) s fun m =>
      m.fwd = s.m.fwd ∧ (m.queue c q).cur.map (fun x => (x.status, x.sent)) = some (s.m.lineStatus c k.src k.len, true))) ∧
  (∀ (c : CtxId) (q : Fin 4) (k : CeCmd) (t : Nat) (s : State), s.m.begins c q 5 k → s.m.sendStatus c k = 0 →
    k.inl = true ∨ s.m.lineStatus c (k.src + k.pos) (s.m.reqLen k) = 0 → s.m.freeTxn c = some t → Completes (.reqWrite c q) s fun m =>
      s.m.reqIssued m c q k t (k.dst + k.pos)
        (if k.inl then (k.inlineData.drop k.pos).take (s.m.reqLen k) else s.m.hbmRead (k.src + k.pos) (s.m.reqLen k))) ∧
  (∀ (c : CtxId) (q : Fin 4) (k : CeCmd) (t : Nat) (s : State), s.m.sendStatus c k = 0 → s.m.freeTxn c = some t →
    (s.m.begins c q 6 k → Completes (.reqRead c q) s fun m => s.m.reqIssued m c q k t (k.src + k.pos) []) ∧
    (s.m.begins c q 7 k → Completes (.reqFetchAdd c q) s fun m => s.m.reqIssued m c q k t k.dst (leBytes 8 k.operand)) ∧
    (s.m.begins c q 8 k → Completes (.reqSignal c q) s fun m => s.m.reqIssued m c q k t k.dst [])) ∧
  (∀ (c : CtxId) (q : Fin 4) (k : CeCmd) (i : Instr) (s : State),
    (i, k.op) ∈ [(Instr.reqWrite c q, 5), (.reqRead c q, 6), (.reqFetchAdd c q, 7), (.reqSignal c q, 8)] → s.m.begins c q k.op k →
    k.status = 0 → s.m.sendStatus c k ≠ 0 → Completes i s fun m => m.fwd = s.m.fwd ∧ m.txn = s.m.txn ∧
      (m.queue c q).cur.map (fun x => (x.status, x.sent)) = some (s.m.sendStatus c k, true) ∧
      (m.strmAt k.stream).dropsOut = satAdd 0xFFFF (s.m.strmAt k.stream).dropsOut 1) ∧
  (∀ (c : CtxId) (q : Fin 4) (k : CeCmd) (s : State), (s.m.queue c q).cur = some k → k.ended = true → k.flushing = false →
    s.m.fenced c = false →
    (k.opt 1 = false ∨ (s.m.queue c q).flushSet k = [] → Completes (.ceCommandComplete c q) s fun m => s.m.ceEnded m c q k) ∧
    (k.opt 1 = true → (s.m.queue c q).flushSet k ≠ [] → Completes (.ceCommandComplete c q) s fun m =>
      (m.queue c q).cur = some { k with flushing := true } ∧
      m.hst.flushCnt = satAdd32 s.m.hst.flushCnt ((s.m.queue c q).flushSet k).length ∧ m.hostMem = s.m.hostMem)) ∧
  (∀ (c : CtxId) (q : Fin 4) (k : CeCmd) (s : State), (s.m.queue c q).cur = some k →
    (k.flushing = true → s.m.fenced c = false → Completes (.flushReadComplete c q) s fun m =>
      s.m.ceEnded m c q { k with flushing := false, flushed := true }) ∧
    (k.flushing = false → Ignored (.flushReadComplete c q) s) ∧ (k.ended = false → Ignored (.ceCommandComplete c q) s))

/-- 13 R368–R374, R382, R383. `Machine.vaim d` is the set point that Reef aims at on die d; the slope is taken from the last two samples
(DESIGN CHOICE, log 24); the tiles at work as the microsecond ends share a die's power (DEDUCED, log 56): `Machine.workOn`,
`Machine.ballastOn`. -/
def Obligations.ReefMeasuresCapsAndHolds : Prop :=
  (∀ (dw : List Nat) (o : Nat) (s : State), Completes (.reefMeasure dw o) s fun m =>
    (let l := (s.m.reef.samples ++ [sumList dw + o]).drop (s.m.reef.samples.length + 1 - 1000)
     m.reef.samples = l ∧ m.reef.p100us = average l 100 ∧ m.reef.p1ms = average l 1000) ∧
    (∀ d < 4, (m.rdie d).power = dw.getD d 0) ∧ (∀ i < 8, (m.rpart i).attributed = sumList ((List.range 4).map fun d =>
      (dw.getD d 0 - s.m.ballastOn d) * s.m.workOn i d / max 1 (sumList ((List.range 8).map fun j => s.m.workOn j d)))) ∧
    (∀ d < 4, bitAt s.m.fuse.cdieMask d = true → (m.rdie d).vset =
      if (s.m.rdie d).vset < s.m.vaim d then min (s.m.vaim d) ((s.m.rdie d).vset + 10) else max (s.m.vaim d) ((s.m.rdie d).vset - 10)) ∧
    (∀ d < 4, bitAt s.m.fuse.cdieMask d = false → (m.rdie d).vset = (s.m.rdie d).vset)) ∧
  (∀ (i : Nat) (dw : List Nat) (o : Nat) (s : State), i < 8 → twf ReefPart.reset s.m.reef.parts = true → (s.m.rpart i).phase = 2 →
    (s.m.rpart i).ramping = true → s.m.held i = false → Completes (.reefMeasure dw o) s fun m =>
      (m.rpart i).ballast = min (s.m.rpart i).target ((s.m.rpart i).ballast + (s.m.rateUp -
        slopeExcess ((s.m.reef.samples ++ [sumList dw + o]).drop (s.m.reef.samples.length + 1 - 1000)) s.m.rateUp true))) ∧
  (∀ (s : State), s.m.capInForce < s.m.reef.p100us →
    (s.m.aboveFloor ≠ [] → Completes .capLoop s fun m => m.reef.capLimiting = true ∧ m.reef.belowSince = none ∧
      m.reef.capHold = s.m.reef.capHold ∧
      (∀ d ∈ s.m.aboveFloor, (m.rdie d).capDrop = (s.m.rdie d).capDrop + 5) ∧ ∀ d, d ∉ s.m.aboveFloor → m.rdie d = s.m.rdie d) ∧
    (s.m.aboveFloor = [] → s.m.reef.capHold = false → Completes .capLoop s fun m => m.reef.capHold = true ∧
      m.reef.cntCapHold = satAdd32 s.m.reef.cntCapHold 1 ∧ m.reef.dies = s.m.reef.dies)) ∧
  (∀ (s : State), s.m.reef.p100us < s.m.capInForce → Completes .capLoop s fun m => m.reef.capHold = false ∧
    (s.m.reef.p100us * 100 < s.m.capInForce * 95 → m.reef.belowSince = some (s.m.reef.belowSince.getD s.m.time.now) ∧
      ((s.m.reef.belowSince.getD s.m.time.now).toNat + 1000000 ≤ s.m.ns → ∀ d < 4, (m.rdie d).capDrop = (s.m.rdie d).capDrop - 5) ∧
      (s.m.ns < (s.m.reef.belowSince.getD s.m.time.now).toNat + 1000000 → m.reef.dies = s.m.reef.dies)) ∧
    (s.m.capInForce * 95 ≤ s.m.reef.p100us * 100 → m.reef.belowSince = none ∧ m.reef.dies = s.m.reef.dies)) ∧
  (∀ (d : CDie) (s : State),
    (s.m.dieLive d = false → (s.m.rdie d).idleSince.toNat + 1000000 ≤ s.m.ns → Completes (.contractIdle d) s fun m =>
      m.rdie d = { s.m.rdie d with idleLow := true } ∧ ∀ k, k ≠ d.val → m.rdie k = s.m.rdie k) ∧
    (s.m.dieLive d = true ∨ s.m.ns < (s.m.rdie d).idleSince.toNat + 1000000 → Ignored (.contractIdle d) s)) ∧
  (∀ (d : CDie) (s : State),
    (bitAt s.m.fuse.cdieMask d = true → Completes (.vrFault d) s fun m => m.rdie d = { s.m.rdie d with hold := true } ∧
      ∀ k, k ≠ d.val → m.rdie k = s.m.rdie k) ∧ (bitAt s.m.fuse.cdieMask d = false → Ignored (.vrFault d) s)) ∧
  (∀ (s : State),
    (s.m.reef.ballastHold = false → s.m.rig 0x0F ≤ s.m.ballastMj → Completes .ballastHold s fun m => m.reef.ballastHold = true ∧
      m.reef.cntBallastHold = satAdd32 s.m.reef.cntBallastHold 1) ∧
    (s.m.reef.ballastHold = true ∨ s.m.ballastMj < s.m.rig 0x0F → Ignored .ballastHold s) ∧
    (s.m.reef.ballastHold = true → s.m.ballastMj < s.m.rig 0x0F → Completes .ballastHoldEnd s fun m =>
      m = { s.m with reef := { s.m.reef with ballastHold := false } }) ∧
    (s.m.reef.ballastHold = false ∨ s.m.rig 0x0F ≤ s.m.ballastMj → Ignored .ballastHoldEnd s))

/-- 13 R375–R380, R388–R394; 20 R548, R550. `Machine.armOrder` is the order of waiting steps; `Machine.rise` a step's rise. -/
def Obligations.RampWindowsTrayReportsAndNotices : Prop :=
  (∀ (i : PartId) (s : State), (s.m.rpart i).assigned = true → (s.m.rpart i).groupsM1 ≠ 0 → Completes (.rampWindowOpen i) s fun m =>
    (m.rpart i).windowOpen = true ∧ (m.rpart i).ballast = (s.m.rpart i).ballast ∧ ∀ k, k ≠ i.val → m.rpart k = s.m.rpart k) ∧
  (∀ (i : PartId) (c : Nat) (s : State), (s.m.rpart i).assigned = true → (s.m.rpart i).groupsM1 ≠ 0 →
    twf ReefPart.reset s.m.reef.parts = true → (s.m.armOrder.find? fun c => s.m.ctxPart c == i.val) = some c →
    (s.m.armOrder.find? fun x => (s.m.rpart (s.m.ctxPart x)).assigned) = some c → s.m.held i = false → s.m.preRampRuns = false →
    s.m.earliestRelease c ≤ s.m.ns + s.m.preRampNs i (s.m.rise c) → Completes (.rampWindowOpen i) s fun m =>
      (m.rpart i).phase = 2 ∧ (m.rpart i).ramping = true ∧ (m.rpart i).owner = some c ∧ (m.rpart i).target = s.m.stepW c ∧
      (m.rpart i).ready = false) ∧
  (∀ (i : PartId) (s : State), (s.m.rpart i).assigned = false ∨ (s.m.rpart i).groupsM1 = 0 → Ignored (.rampWindowOpen i) s) ∧
  (∀ (i : PartId) (s : State),
    ((s.m.rpart i).windowOpen = true → Completes (.rampWindowClose i) s fun m => m.rpart i = { s.m.rpart i with
      windowOpen := false, ramping := (s.m.rpart i).ramping && decide ((s.m.rpart i).target ≤ (s.m.rpart i).ballast) }) ∧
    ((s.m.rpart i).windowOpen = false → Ignored (.rampWindowClose i) s) ∧
    ((s.m.rpart i).phase = 2 → (s.m.rpart i).target ≤ (s.m.rpart i).ballast → Completes (.preRampComplete i) s fun m =>
      m.rpart i = { s.m.rpart i with phase := 1, ramping := false, ready := true }) ∧
    ((s.m.rpart i).phase ≠ 2 ∨ (s.m.rpart i).ballast < (s.m.rpart i).target → Ignored (.preRampComplete i) s)) ∧
  (∀ (i : PartId) (t : DWord) (s : State), (s.m.rpart i).withdrawUntil = some t → s.m.ns ≤ t.toNat →
    ((s.m.rpart i).target + max ((s.m.rpart i).target / 10) 20 < (s.m.rpart i).attributed → Completes (.riseExcess i) s fun m =>
      m.reef = { s.m.reef with cntRiseExcess := satAdd32 s.m.reef.cntRiseExcess 1 }) ∧
    ((s.m.rpart i).attributed ≤ (s.m.rpart i).target + max ((s.m.rpart i).target / 10) 20 → Ignored (.riseExcess i) s)) ∧
  (∀ (h : MsgHdr) (b : BitVec 128) (s : State), s.m.takes h = true → s.m.boot.on = true → s.m.pins.form = false → bits b 122 6 = 0 →
    Completes (.trayReport h b) s fun m =>
    m.reef.tray = { tUp := bits b 16 16, tDown := bits b 32 16, pTray := bits b 48 16, share := bits b 64 16, shelfOk := bits b 80 16
                    soc := bits b 96 8, cool := bits b 104 8, flow := bits b 112 8, battOk := bitAt b 120, cduOk := bitAt b 121
                    at_ := some s.m.time.now } ∧ m.reef.stale = false ∧ m.reef.fallback = false ∧
    m.out = s.m.out ++ (if s.m.reef.tray.at_.isNone ∨ s.m.reef.tray.tUp ≠ bits b 16 16 then [.mgmt s.m.hly.reg.master (.rampLimit (bits b 16 16))] else [])) ∧
  (∀ (h : MsgHdr) (b : BitVec 128) (s : State), s.m.takes h = true → s.m.boot.on = true → s.m.pins.form = false → bits b 122 6 ≠ 0 →
    Completes (.trayReport h b) s fun m => m = { s.m with out := s.m.out ++ s.m.replies h 4 1 3 [] }) ∧
  (∀ (h : MsgHdr) (b : BitVec 128) (x : BitVec 8) (s : State), s.m.pins.form = false → s.m.takes h = true → s.m.boot.on = false →
    Ignored (.trayReport h b) s ∧ Ignored (.notice h x) s) ∧
  (∀ (h : MsgHdr) (b : BitVec 128) (x : BitVec 8) (s : State), s.m.pins.form = true → s.m.takes h = true →
    (Completes (.trayReport h b) s fun m => m = { s.m with card := { s.m.card with peer := some (h.src, h.dst) } }) ∧
    (Completes (.notice h x) s fun m => m = { s.m with card := { s.m.card with peer := some (h.src, h.dst) } })) ∧
  (∀ (s : State), s.m.pins.form = false →
    (s.m.reef.stale = false → s.m.trayAt + 100000000 ≤ s.m.ns → Completes .facilityStale s fun m => m.reef = { s.m.reef with stale := true }) ∧
    (s.m.reef.stale = true ∨ s.m.ns < s.m.trayAt + 100000000 → Ignored .facilityStale s) ∧
    (s.m.trayAt + 1000000000 ≤ s.m.ns → Completes .facilityFallback s fun m => m.reef.fallback = true ∧ m.tUp = m.budgetInForce / 10 ∧
      m.tDown = 100) ∧
    (s.m.ns < s.m.trayAt + 1000000000 → Ignored .facilityFallback s)) ∧
  (∀ (h : MsgHdr) (x : BitVec 8) (s : State), s.m.takes h = true → s.m.boot.on = true → s.m.pins.form = false → Completes (.notice h x) s fun m =>
    m.out = s.m.out ++ s.m.replies h 4 2 0 [] ∧
    (s.m.reef.noticed = none → m.reef = { s.m.reef with
      noticed := some x.toNat, noticeAt := s.m.time.now, noticeStop := false, readySent := false }) ∧
    (s.m.reef.noticed.isSome = true → m.reef = s.m.reef)) ∧
  (∀ (n : NodeId) (t : BitVec 16) (s : State), s.m.isMaster = true → s.m.lowestOnTray n = true → Completes (.rampLimitForward n (.limit t)) s fun m =>
    (∀ k, tget 0 m.tkp.rampWant.budgets k = if k = trayOf n then t.toNat else tget 0 s.m.tkp.rampWant.budgets k) ∧ m.tkp.ramp = s.m.tkp.ramp ∧
    (t.toNat < s.m.trayBudget (trayOf n) ∨ (s.m.trayBudget (trayOf n) * 11 ≤ t.toNat * 10 ∧ s.m.trayBudget (trayOf n) < t.toNat ∧
      ∀ x, s.m.reef.lastReplan = some x → x.toNat + 1000000000 ≤ s.m.ns) → m.hly.work.wantReplan = true ∧ m.hly.work.phase ≠ .idle) ∧
    (s.m.trayBudget (trayOf n) ≤ t.toNat → t.toNat * 10 < s.m.trayBudget (trayOf n) * 11 → m.hly.work = s.m.hly.work)) ∧
  (∀ (n : NodeId) (v : Nat) (s : State), s.m.isMaster = true → Completes (.rampLimitForward n (.raised v)) s fun m =>
    m.hly.work.wantReplan = true ∧ m.hly.work.phase ≠ .idle ∧ m.tkp.ramp = s.m.tkp.ramp ∧
    (∀ k, tget 0 m.tkp.rampWant.rates k = if k = n.toNat then v else tget 0 s.m.tkp.rampWant.rates k) ∧
    m.tkp.rampWant.budgets = s.m.tkp.rampWant.budgets) ∧
  (∀ (n : NodeId) (t : BitVec 16) (s : State), s.m.lowestOnTray n = false → Ignored (.rampLimitForward n (.limit t)) s) ∧
  (∀ (n : NodeId) (r : RampForward) (s : State), s.m.isMaster = false → Ignored (.rampLimitForward n r) s)

/-- 14 R396–R405, R411, R416, Table 14.2; 02 R65. `Machine.src i` is source i's record, `Machine.slotAt none` the package slot. -/
def Obligations.TelltaleRoundsLandEventsAndStartReactions : Prop :=
  (∀ (s : State), s.m.ttl.landed = [] → s.m.ttl.pin.waiting = false → Ignored .ttlRound s) ∧
  (∀ (s : State), s.m.ttl.landed = [] → s.m.ttl.pin.waiting = true → s.m.ttl.pin.low = false →
    (∀ t, s.m.ttl.pin.highSince = some t → t.toNat + 2000 ≤ s.m.ns) → Completes .ttlRound s fun m =>
      m.ttl = { s.m.ttl with pin := { s.m.ttl.pin with
        low := true, minDone := false, lowSince := s.m.time.now, waiting := false, pulses := satAdd 65535 s.m.ttl.pin.pulses 1
        hold := s.m.ttl.pin.hold || s.m.ttl.autoHold } }) ∧
  (∀ (s : State), s.m.ttl.landed ≠ [] → Completes .ttlRound s fun m =>
    (∀ e ∈ s.m.ttl.landed, (m.src e.source).any = true ∧ (m.src e.source).lastAt = s.m.time.now ∧
      (s.m.ttl.armed = true → (m.src e.source).first = true) ∧
      (s.m.ttl.armed = false → (m.src e.source).first = (s.m.src e.source).first)) ∧
    (∀ i, i ∉ s.m.ttl.landed.map (·.source) → m.src i = s.m.src i) ∧
    (s.m.ttl.armed = true → m.ttl.firstLatched = true ∧ m.ttl.firstTime = s.m.time.now ∧
      m.ttl.firstSources = ((s.m.ttl.landed.map (·.source)).eraseDups).length ∧ m.ttl.firstForced = s.m.ttl.landed.any (·.forced)) ∧
    (s.m.ttl.armed = false → m.ttl.firstLatched = s.m.ttl.firstLatched ∧ m.ttl.firstTime = s.m.ttl.firstTime)) ∧
  (∀ (e : Event) (s : State), s.m.ttl.landed = [e] → (s.m.src e.source).n = 0 → Completes .ttlRound s fun m =>
    (m.src e.source).total = satAdd32 (s.m.src e.source).total e.count ∧ (m.src e.source).lastCtx = e.ctx ∧
    (m.src e.source).lastUnit = e.unit % 256 ∧ (m.src e.source).raised = (s.m.src e.source).raised) ∧
  (∀ (e : Event) (s : State), s.m.ttl.landed = [e] → (s.m.src e.source).n = 0 → s.m.currentClass e.source ≤ e.cls → 1 ≤ e.cls → e.cls ≤ 4 →
    (e.cls = 2 → e.ctx = none) → s.m.ttl.pkg.active = false →
    (e.cls = 4 ∨ s.m.ttl.limits.getD (e.cls - 1) 0 = 0 ∨ recoveryCount s.m.ns s.m.ttl.pkg e.cls < s.m.ttl.limits.getD (e.cls - 1) 0) →
    Completes .ttlRound s fun m => m.ttl.pkg.active = true ∧ m.ttl.pkg.cls = e.cls ∧ m.ttl.pkg.source = e.source ∧
      m.ttl.pkg.actionDone = decide (e.cls < 3) ∧ m.ttl.pkg.lastAt = s.m.time.now ∧ (e.cls = 3 → m.ttl.pkgOrder = some e.source) ∧
      (e.cls = 4 → m.ttl.noRelease = true ∧ m.ttl.c4Source = some e.source ∧ m.ttl.pin.c4 = true)) ∧
  (∀ (e : Event) (c : Nat) (s : State), s.m.ttl.landed = [e] → (s.m.src e.source).n = 0 → s.m.currentClass e.source ≤ 2 → e.cls = 2 →
    e.ctx = some c → s.m.ttl.pkg.active = false → (s.m.slotAt (some c)).active = false → Completes .ttlRound s fun m =>
      (m.slotAt (some c)).active = true ∧ (m.slotAt (some c)).cls = 2 ∧ (m.slotAt (some c)).source = e.source ∧ m.ttl.pkg = s.m.ttl.pkg) ∧
  (∀ (d : CDie) (s : State), s.m.hasDie d = true →
    (s.m.ttl.masking = false → Completes (.thermalTrip d) s fun m => m = { s.m with ttl := { s.m.ttl with
      landed := s.m.ttl.landed ++ [{ source := 492 + d, count := 1, unit := d, ctx := none, cls := 4, forced := false }] } }) ∧
    (s.m.ttl.masking = true → Completes (.thermalTrip d) s fun m =>
      m = { s.m with ttl := { s.m.ttl with maskedCnt := satAdd32 s.m.ttl.maskedCnt 1 } })) ∧
  (∀ (d : CDie) (s : State), s.m.hasDie d = false → Ignored (.thermalTrip d) s)

/-- 14 R400, R401, R408, R412–R414, R416. -/
def Obligations.TelltaleReactionsPinAndBanksEnd : Prop :=
  (∀ (i : Fin 640) (s : State), Completes (.promotionWindowExpiry i) s fun m =>
    m.src i = { s.m.src i with raised := 0, winOpen := false, winCount := 0 } ∧ (entryOf i ≠ 4 → m.currentClass i = min 3 (entryOf i)) ∧
    ∀ k, k ≠ i.val → m.src k = s.m.src k) ∧
  (∀ (k : Option CtxId) (r : SlotRec) (s : State), r = s.m.slotAt (k.map (·.val)) → r.active = true → r.actionDone = true → 1 ≤ r.cls →
    r.cls ≤ 3 → Completes (.reactionQuietExpiry k) s fun m =>
      m.slotAt (k.map (·.val)) = { SlotRec.reset with
        recoveries := (r.recoveries.filter fun e => decide (s.m.ns < e.2.toNat + 86400000000000)) ++ [(r.cls, s.m.time.now)] } ∧
      m.ttl.recTotal = satAdd32 s.m.ttl.recTotal 1) ∧
  (∀ (k : Option CtxId) (s : State), (s.m.slotAt (k.map (·.val))).active = false ∨ (s.m.slotAt (k.map (·.val))).actionDone = false ∨
    (s.m.slotAt (k.map (·.val))).cls = 4 → Ignored (.reactionQuietExpiry k) s) ∧
  (∀ (s : State), s.m.ttl.pin.low = true →
    (s.m.ttl.pin.hold = false → s.m.ttl.pin.c4 = false → Completes .faultNLowEnd s fun m => m.ttl.pin = { s.m.ttl.pin with
      minDone := true, low := false, highSince := some s.m.time.now }) ∧
    (s.m.ttl.pin.hold = true ∨ s.m.ttl.pin.c4 = true → Completes .faultNLowEnd s fun m =>
      m.ttl.pin = { s.m.ttl.pin with minDone := true })) ∧
  (∀ (s : State), s.m.ttl.pin.low = false → Ignored .faultNLowEnd s) ∧
  (∀ (h : Bool) (s : State),
    (h = true ∨ s.m.ttl.pin.low = false ∨ s.m.ttl.pin.minDone = false ∨ s.m.ttl.pin.c4 = true → Completes (.ttlPinHoldWrite h) s fun m =>
      m.ttl.pin = { s.m.ttl.pin with hold := h }) ∧
    (h = false → s.m.ttl.pin.low = true → s.m.ttl.pin.minDone = true → s.m.ttl.pin.c4 = false → Completes (.ttlPinHoldWrite h) s fun m =>
      m.ttl.pin = { s.m.ttl.pin with hold := false, low := false, highSince := some s.m.time.now })) ∧
  (∀ (i : Fin 1024) (s : State), s.m.ttl.injectEn = true → (entryClass i).isSome = true →
    (s.m.ttl.masking = false ∨ maskedSource i = false → Completes (.ttlForce i) s fun m => m.ttl = { s.m.ttl with
      landed := s.m.ttl.landed ++ [{ source := i, count := 1, unit := 0, cls := s.m.currentClass i, forced := true
                                     ctx := if s.m.ttl.forceValid then some s.m.ttl.forceCtx else none }] }) ∧
    (s.m.ttl.masking = true → maskedSource i = true → Completes (.ttlForce i) s fun m =>
      m.ttl = { s.m.ttl with maskedCnt := satAdd32 s.m.ttl.maskedCnt 1 })) ∧
  (∀ (i : Fin 1024) (s : State), s.m.ttl.injectEn = false ∨ entryClass i = none → Ignored (.ttlForce i) s) ∧
  (∀ (w : Fin 20) (mask : Word) (s : State), Completes (.ttlFirstClear w mask) s fun m =>
    (∀ b < 32, bitAt mask b = true → m.src (32 * w + b) = { s.m.src (32 * w + b) with first := false }) ∧
    (∀ i, (∀ b < 32, bitAt mask b = true → i ≠ 32 * w + b) → m.src i = s.m.src i) ∧
    (twf SrcRec.reset s.m.ttl.src = true → (∃ i, (s.m.src i).first = true) →
      (∀ i, (s.m.src i).first = true → ∃ b < 32, bitAt mask b = true ∧ i = 32 * w + b) →
      m.ttl.firstLatched = false ∧ m.ttl.firstClass = 0 ∧ m.ttl.firstSources = 0 ∧ m.ttl.firstTime = 0))

/-- 15 R420–R424, R431, R434–R436, R439, R443–R446, Tables 15.3, 15.4. `Machine.canExpire n` says that unit n has work pending. -/
def Obligations.HangsResetTheirUnits : Prop :=
  (∀ (l : TileId) (s : State),
    (s.m.canExpire l = true → Completes (.luffTileExpiry l) s fun m => s.m.unitExpired m l ∧ s.m.tileClosed m l ∧
      (m.tileAt l).lastExpiry = some s.m.time.now ∧ (m.tileAt l).toRetire = ((s.m.tileAt l).toRetire ||
        match (s.m.tileAt l).lastExpiry with
        | some t => decide (s.m.ns < t.toNat + 86400000000000)
        | none => false)) ∧
    (s.m.canExpire l = false → Ignored (.luffTileExpiry l) s)) ∧
  (∀ (l : TileId) (ok : Bool) (s : State),
    ((s.m.tileAt l).resetAt.isSome = true → Completes (.tileSelfTestDone l ok) s fun m => (m.tileAt l).resetAt = none ∧
      (m.tileAt l).store = [] ∧ (m.tileAt l).acc = [] ∧ (m.tileAt l).toRetire = ((s.m.tileAt l).toRetire || !ok) ∧
      (m.tileAt l).portClosed = ((s.m.tileAt l).toRetire || !ok)) ∧
    ((s.m.tileAt l).resetAt = none → Ignored (.tileSelfTestDone l ok) s)) ∧
  (∀ (e : Fin 20) (c q : Nat) (k : CeCmd) (s : State), s.m.engineWork e = some (c, q) → (s.m.queue c q).cur = some k →
    s.m.fenced c = false → Completes (.luffCeExpiry e none) s fun m => s.m.unitExpired m (128 + e) ∧ (m.engine e).inReset = true ∧
      s.m.ceEnded m c q { k with status := 0x0B }) ∧
  (∀ (e : Fin 20) (ok : Bool) (s : State),
    ((s.m.engine e).inReset = true → Completes (.luffCeExpiry e (some ok)) s fun m => (m.engine e).inReset = false ∧
      (m.engine e).failed = ((s.m.engine e).failed || !ok)) ∧
    ((s.m.engine e).inReset = false → Ignored (.luffCeExpiry e (some ok)) s) ∧ (s.m.engineWork e = none → Ignored (.luffCeExpiry e none) s)) ∧
  (∀ (p : Port) (s : State),
    (s.m.canExpire (148 + p.val) = true → Completes (.luffLinkExpiry p) s fun m => s.m.unitExpired m (148 + p.val) ∧ s.m.lostLink m p 0x0C) ∧
    (s.m.canExpire (148 + p.val) = false → Ignored (.luffLinkExpiry p) s)) ∧
  (∀ (k : Fin 256) (r : CollRec) (s : State), s.m.collAt k = some r →
    (r.busy = true → Completes (.luffCollExpiry k) s fun m => s.m.unitExpired m (172 + k.val) ∧
      m.luff.collResets.contains (s.m.ctxPart r.ctx) = true ∧
      m.out = s.m.out ++ [Out.mgmt s.m.hly.reg.master (.flowReport (s.m.ctxAt r.ctx).base.tag r.stream (s.m.flowGen r.stream))]) ∧
    (r.busy = false → Ignored (.luffCollExpiry k) s)) ∧
  (∀ (i : PartId) (s : State), s.m.luff.collResets.contains i.val = true → (∀ k ∈ s.m.unitSlots i, ∀ r, s.m.collAt k = some r → r.busy = false) →
    (Completes (.collUnitReset i true) s fun m => m.luff.collResets.contains i.val = false ∧ m.collFailed = s.m.collFailed) ∧
    (Completes (.collUnitReset i false) s fun m => m.luff.collResets.contains i.val = false ∧ ∀ k ∈ s.m.unitSlots i, k ∈ m.collFailed)) ∧
  (∀ (i : PartId) (ok : Bool) (s : State), s.m.luff.collResets.contains i.val = false → Ignored (.collUnitReset i ok) s) ∧
  (∀ (t : Fin 6) (s : State), Completes (.luffHlyExpiry t) s fun m => s.m.unitExpired m (428 + t.val) ∧
    m.hly.restarts = satAdd 65535 s.m.hly.restarts 1 ∧ (s.m.hly.reg.state ≠ .island → m.hly.reg.state = .restarting) ∧ m.hly.cur = none ∧
    m.hly.waiting = []) ∧
  (∀ (n : StreamId) (s : State),
    (s.m.stalled n = true → Completes (.inStreamStall n) s fun m => m.luff.lastStream = n.val ∧ m.strm = s.m.strm ∧ m.out = s.m.out ++
      [Out.mgmt s.m.hly.reg.master (.flowReport (s.m.ctxAt (s.m.strmAt n).ctx).base.tag n (s.m.flowGen n))]) ∧
    (s.m.stalled n = false → Ignored (.inStreamStall n) s)) ∧
  (∀ (s : State), (∀ c, (∃ f ∈ s.m.luff.fences, f.dom = .context c ∧ f.destroy = false) → Completes (.rungTimeout (.context c)) s fun m =>
      ∀ l ∈ s.m.imageTiles c, s.m.tileClosed m l) ∧
    (∀ l i, (s.m.tileAt l.val).resetAt.isSome = true → (firstBelow 8 fun i => (s.m.partTiles i).contains l.val) = some i →
      Completes (.rungTimeout (.tile l)) s fun m => ∀ k ∈ s.m.clusterTiles i (l.val / 32), s.m.tileClosed m k) ∧
    (∀ i d, (∃ l ∈ s.m.clusterTiles i.val d.val, (s.m.tileAt l).resetAt.isSome = true) → Completes (.rungTimeout (.cluster i d)) s fun m =>
      m.luff.ladderParts.contains i.val = true) ∧
    (∀ e, (s.m.engine e.val).inReset = true → Completes (.rungTimeout (.engine e)) s fun m => (m.engine e).failed = true ∧
      (m.engine e).inReset = false) ∧
    (∀ i, s.m.luff.collResets.contains i.val = true → Completes (.rungTimeout (.collUnit i)) s fun m => ∀ k ∈ s.m.unitSlots i, k ∈ m.collFailed) ∧
    (∀ i, (∃ f ∈ s.m.luff.fences, f.dom = .partition i) → Completes (.rungTimeout (.partition i)) s fun m => m.luff.ladderPkg = true) ∧
    (s.m.pkgFenced = true → Completes (.rungTimeout .package) s fun m => m = (s.m.raise 546 4).raise 547 0)) ∧
  (∀ (s : State), (∀ l : TileId, (s.m.tileAt l).resetAt = none → Ignored (.rungTimeout (.tile l)) s) ∧
    (∀ e : Fin 20, (s.m.engine e).inReset = false → Ignored (.rungTimeout (.engine e)) s) ∧
    (s.m.luff.fences = [] → ∀ c i, Ignored (.rungTimeout (.context c)) s ∧ Ignored (.rungTimeout (.partition i)) s ∧
      Ignored (.rungTimeout .package) s)) ∧
  (∀ (s : State),
    (0 < s.m.luff.lateOut → Completes .genLateDrop s fun m =>
      m.luff = { s.m.luff with lateOut := s.m.luff.lateOut - 1, lateDrop := satAdd32 s.m.luff.lateDrop 1 }) ∧
    (s.m.luff.lateOut = 0 → Ignored .genLateDrop s) ∧
    (s.m.luff.dumpValid = true → Completes .dumpRearm s fun m => m.luff = { s.m.luff with dumpValid := false } ∧
      (∀ i < 16 * storeBytes, tget Config.blank m.hbm.bytes (s.m.dumpBase + 0x100000 + i) = Config.blank) ∧
      (∀ a, a < s.m.dumpBase + 0x100000 ∨ s.m.dumpBase + 0x100000 + 16 * storeBytes ≤ a →
        tget Config.blank m.hbm.bytes a = tget Config.blank s.m.hbm.bytes a)) ∧
    (s.m.luff.dumpValid = false → Ignored .dumpRearm s))

/-- 15 R425–R438, R442, R443; 16 R451; 06 R204. `Machine.covered d` says that a fence in force holds domain d, `Machine.fenceDue d` that 10 µs
have passed since its last. -/
def Obligations.ResetsFenceDrainAndEnd : Prop :=
  (∀ (c : CtxId) (k : Nat) (s : State), (s.m.luff.ctxOrders.find? fun o => o.1 == c.val) = some (c.val, k) →
    (s.m.ctxAt c).base.life = .live → s.m.covered (.context c) = false → s.m.fenceDue (.context c) = true → s.m.fenced c = false →
    Completes (.contextReset c) s fun m => s.m.fenceBegan m (.context c) k ∧ (m.ctxAt c).rst.inReset = true ∧
      (m.ctxAt c).rst.gen = ((s.m.ctxAt c).rst.gen + 1) % 256 ∧ (m.luff.ctxOrders.find? fun o => o.1 == c.val) = none) ∧
  (∀ (c : CtxId) (s : State), (s.m.luff.ctxOrders.find? fun o => o.1 == c.val) = none → s.m.luff.rstWaits 1 = true → s.m.luff.rstCtx = c.val →
    ((s.m.ctxAt c).base.life = .free ∨ (s.m.ctxAt c).base.life = .final → Completes (.contextReset c) s fun m =>
      m.luff = { s.m.luff with rstStatus := 4, rstDone := true, rstBusy := false, rstStarted := false }) ∧
    ((s.m.ctxAt c).base.life = .live → s.m.covered (.context c) = true → Completes (.contextReset c) s fun m =>
      m.luff = { s.m.luff with rstStarted := true }) ∧
    ((s.m.ctxAt c).base.life = .live → s.m.covered (.context c) = false → s.m.fenceDue (.context c) = true → s.m.fenced c = false →
      Completes (.contextReset c) s fun m => s.m.fenceBegan m (.context c) 3 ∧ m.luff.rstStarted = true ∧ (m.ctxAt c).rst.inReset = true)) ∧
  (∀ (i : PartId) (s : State), i.val ∈ s.m.ttl.partOrders ∨ i.val ∈ s.m.luff.ladderParts → s.m.covered (.partition i) = false →
    s.m.fenceDue (.partition i) = true → Completes (.partitionReset i) s fun m => s.m.fenceBegan m (.partition i) 5 ∧
      i.val ∉ m.ttl.partOrders ∧ i.val ∉ m.luff.ladderParts ∧ tget 0 m.luff.partGen i = (tget 0 s.m.luff.partGen i + 1) % 256 ∧
      ∀ c, c < 64 → s.m.ctxPart c = i.val → (s.m.ctxAt c).base.life = .live → (m.ctxAt c).rst.inReset = true) ∧
  (∀ (i : PartId) (s : State), i.val ∉ s.m.ttl.partOrders → i.val ∉ s.m.luff.ladderParts → s.m.luff.rstWaits 2 = true →
    s.m.luff.rstPart = i.val →
    (s.m.parts ≤ i.val → Completes (.partitionReset i) s fun m => m.luff.rstStatus = 3 ∧ m.luff.rstDone = true ∧ m.luff.rstBusy = false) ∧
    (i.val < s.m.parts → (s.m.partAt i).state = .bound → s.m.covered (.partition i) = false → s.m.fenceDue (.partition i) = true →
      Completes (.partitionReset i) s fun m => s.m.fenceBegan m (.partition i) 5 ∧ m.luff.rstStarted = true)) ∧
  (∀ (k src : Nat) (s : State), s.m.pkgOrder = some (k, src) → s.m.stepPast 9 = true → s.m.pkgFenced = false → s.m.fenceDue .package = true →
    Completes .packageReset s fun m => s.m.fenceBegan m .package k ∧ m.luff.pkgGen = (s.m.luff.pkgGen + 1) % 256 ∧ m.ttl.masking = true ∧
      (∀ c, c < 64 → (s.m.ctxAt c).base.life = .live → (m.ctxAt c).rst.inReset = true) ∧
      (∀ d < 4, (m.rdie d).resetBallast = (s.m.rdie d).power) ∧ m.corner = .reset) ∧
  (∀ (c : CtxId) (i : PartId) (s : State), (s.m.luff.rstBusy = false → s.m.luff.ctxOrders = [] → Ignored (.contextReset c) s) ∧
    (s.m.luff.rstBusy = false → s.m.ttl.partOrders = [] → s.m.luff.ladderParts = [] → Ignored (.partitionReset i) s) ∧
    (s.m.pkgOrder = none ∨ s.m.stepPast 9 = false → Ignored .packageReset s)) ∧
  (∀ (d : Domain) (ok : Bool) (f : Fence) (s : State), (s.m.luff.fences.find? fun f => f.dom == d && !f.drained) = some f →
    Completes (.fenceDrainEnd d ok) s fun m =>
      m.luff.fences = s.m.luff.fences.map (fun g => if g = f then { g with drained := true } else g) ∧
      (∀ c ∈ f.ctxs, ∀ q, (m.queue c q).cur = none) ∧
      (∀ i, d = .partition i → ∀ l ∈ s.m.partTiles i, s.m.tileClosed m l) ∧
      (d = .package → m.luff.crash.valid = true ∧ m.luff.crash.cause = f.cause ∧ m.luff.crash.source = f.source ∧
        m.luff.crash.seq = satAdd 0xFFFF s.m.luff.pkgResets 1 ∧ m.boot.resetRun = true ∧ m.boot.run = s.m.boot.run + 1 ∧
        (∀ l, (m.tileAt l).store = []) ∧ m.coll = [] ∧ m.hbm.refresh = true ∧
        (s.m.luff.dumpValid = true → m.luff.crash.dump = 2 ∧ m.hbm.bytes = s.m.hbm.bytes))) ∧
  (∀ (c : CtxId) (f : Fence) (s : State), (s.m.luff.fences.find? fun f => f.dom == .context c && f.drained && !f.destroy) = some f →
    Completes (.domainResetEnd (.context c)) s fun m => (m.ctxAt c).rst.inReset = false ∧
      (m.ctxAt c).rst.resets = satAdd 255 (s.m.ctxAt c).rst.resets 1 ∧ (m.ctxAt c).rst.cause = f.cause ∧ (m.xc c).state = .unbound ∧
      (∀ g ∈ m.luff.fences, g.dom ≠ .context c)) ∧
  (∀ (i : PartId) (f : Fence) (s : State), (s.m.luff.fences.find? fun f => f.dom == .partition i && f.drained && !f.destroy) = some f →
    ((∀ l ∈ s.m.partTiles i, (s.m.tileAt l).resetAt = none) → Completes (.domainResetEnd (.partition i)) s fun m =>
      (∀ c ∈ f.ctxs, (s.m.ctxAt c).base.life = .live → (m.ctxAt c).rst.inReset = false ∧ (m.ctxAt c).rst.cause = 5) ∧
      ∀ g ∈ m.luff.fences, g.dom ≠ .partition i) ∧
    ((∃ l ∈ s.m.partTiles i, (s.m.tileAt l).resetAt.isSome = true) → Ignored (.domainResetEnd (.partition i)) s)) ∧
  (∀ (f : Fence) (s : State), (s.m.luff.fences.find? fun f => f.dom == .package && f.drained) = some f → s.m.unitsReady = true →
    Completes .packageResetComplete s fun m => m.luff.fences = [] ∧ m.luff.pkgResets = satAdd 0xFFFF s.m.luff.pkgResets 1 ∧
      (∀ c, c < 64 → (s.m.ctxAt c).base.life = .live → (m.ctxAt c).base.life = .final ∧ (m.ctxAt c).base.func = none ∧
        (m.ctxAt c).rst.cause = 6 ∧ (m.ctxAt c).rst.inReset = false) ∧ m.strm.entries = [] ∧ m.txn = [] ∧ m.ttl.masking = false) ∧
  (∀ (d : Domain) (ok : Bool) (s : State), s.m.luff.fences = [] → Ignored (.fenceDrainEnd d ok) s ∧ Ignored (.domainResetEnd d) s ∧
    Ignored .packageResetComplete s)

/-- 01 R23; 16 R450, R462, R463, R466, R468. Power-good latches the straps, starts the timebase from 0 and enters step 1; ID_READ answers
the latched straps, or the pins in standby; a step that runs completes when its work is done; at its limit a step marked C4 raises
BOOT_STEP_STUCK with its number, one marked Ends ends; the training deadline ends step 25 and raises BOOT_TRAIN_LATE once when a port is late. -/
def Obligations.PowerGoodLatchesStrapsAndStarts : Prop :=
  (∀ s : State, s.m.sitePg = true → s.m.boot.on = false → Completes .powerGood s fun m =>
      m.boot.on = true ∧ m.boot.strap = s.m.pins.strap ∧ m.time.running = true ∧ m.time.now = 0 ∧ m.bootSt 1 = .running ∧
      m.flash = s.m.flash ∧ m.hostMem = s.m.hostMem ∧ m.hbm.bytes = []) ∧
  (∀ s : State, s.m.sitePg = false ∨ s.m.boot.on = true → Ignored .powerGood s) ∧
  (∀ (h : MsgHdr) (cls cmd : BitVec 8) (s : State), s.m.takes h = true →
    (Completes (.idRead h 1 1) s fun m => m.out = s.m.out ++ s.m.replies h 1 1 0 (wordBytes
        [s.m.bootId, s.m.fuse.uid.setWidth 32, BitVec.ofNat 32 (s.m.fuse.uid.toNat / 2 ^ 32),
         if s.m.boot.on then s.m.boot.strap else s.m.pins.strap, if s.m.boot.on then s.m.bootStage else 0])) ∧
    (cls ≠ 1 ∨ cmd ≠ 1 → Completes (.idRead h cls cmd) s fun m => m.out = s.m.out ++ s.m.replies h cls.toNat cmd.toNat 2 [])) ∧
  (∀ (k : Fin 41) (inp : BootInputs) (s : State), s.m.bootSt k.val = .running → k.val ≠ 23 → ¬ (4 ≤ k.val ∧ k.val ≤ 9) →
    [25, 27, 28, 29, 30, 31].contains k.val = false → inp.ok = true →
    Completes (.bootStepEnter k inp) s fun m => m.bootSt k.val = .complete) ∧
  (∀ (k : Fin 41) (inp : BootInputs) (s : State), s.m.bootSt k.val = .running → 4 ≤ k.val → k.val ≤ 9 → s.m.level k.val ≠ 2 → inp.ok = true →
    k.val = 4 ∨ k.val = 9 ∨ s.m.copyCheck s.m.boot.copyB k.val = none → Completes (.bootStepEnter k inp) s fun m => m.bootSt k.val = .complete) ∧
  (∀ (k : Fin 41) (inp : BootInputs) (s : State), s.m.bootSt k.val = .running → 4 ≤ k.val → k.val ≤ 9 → s.m.level k.val = 2 →
    inp.ok = true → Completes (.bootStepEnter k inp) s fun m => m.boot.rescue = true ∧ m.bootSt k.val = .running) ∧
  (∀ (k : Fin 41) (inp : BootInputs) (s : State), s.m.mayEnter k.val = true → s.m.stepUnfit k.val = false →
    (levelSkips k.val && s.m.level k.val == 1) = false →
    [25, 27, 28, 29, 30, 31].contains k.val = false → inp.ok = false →
    Completes (.bootStepEnter k inp) s fun m => m.bootSt k.val = .running ∧ tget 0 m.boot.stepAt k.val = s.m.time.now) ∧
  (∀ (k : Fin 41) (inp : BootInputs) (s : State), s.m.mayEnter k.val = true → s.m.stepUnfit k.val = true → s.m.boot.resetRun = false →
    k.val ≠ 23 → Completes (.bootStepEnter k inp) s fun m => m.bootSt k.val = .skipped) ∧
  (∀ (k : Fin 41) (s : State), s.m.bootSt k.val = .running → [25, 27, 30, 31, 40].contains k.val = false →
    Completes (.bootStepLimit k) s fun m => m.boot = s.m.boot ∧ m.ttl.landed = s.m.ttl.landed ++
      [{ source := 556, count := 1, unit := k.val, ctx := none, cls := 4, forced := false }]) ∧
  (∀ (k : Fin 41) (s : State), s.m.bootSt k.val = .running → k.val = 27 ∨ k.val = 40 →
    Completes (.bootStepLimit k) s fun m => m.bootSt k.val = .ended ∧ m.boot.noFirmware = s.m.boot.noFirmware) ∧
  (∀ s : State, s.m.bootSt 31 = .running →
    Completes (.bootStepLimit 31) s fun m => m.bootSt 31 = .ended ∧ m.boot.noFirmware = true ∧ m.boot.fw.source = 3) ∧
  (∀ s : State, s.m.bootSt 25 = .running → (∃ p : Port, (s.m.port p.val).stat.assigned = true ∧ portStatus (s.m.port p.val) ≠ 2) →
    Completes .trainDeadline s fun m => m.bootSt 25 = .ended ∧ m.boot.trainLate = true) ∧
  (∀ s : State, s.m.stepPast 3 = true → s.m.boot.jnlFull = false →
    tget Config.erased s.m.flash (journalBase + 16 * s.m.boot.jnlNext) = 0xFF →
    Completes .bootAltClr s fun m => m.boot.levels = s.m.boot.levels ∧ m.boot.jnlNext = (s.m.boot.jnlNext + 1) % journalSlots ∧
      m.flashBytes (journalBase + 16 * s.m.boot.jnlNext) 16 =
        journalBytes 0x08 0 0 (s.m.stepRun 0).1 (s.m.stepRun 0).2 0 0)

/-- 16 R460, R461; 17 Tables 17.2, 17.3. That programming only clears bits is the model's reading (log 19). -/
def Obligations.FlashCommandsReadEraseAndProgram : Prop :=
  (∀ (h : MsgHdr) (off : Word) (len : BitVec 16) (s : State), s.m.takes h = true → s.m.boot.on = true → 1 ≤ len.toNat → len.toNat ≤ 1024 → off.toNat + len.toNat ≤ flashSize →
    Completes (.flashRead h off len true) s fun m => m.flash = s.m.flash ∧
      m.out = s.m.out ++ s.m.replies h 5 1 0 (s.m.flashBytes off.toNat len.toNat)) ∧
  (∀ (h : MsgHdr) (off : Word) (s : State), s.m.takes h = true → s.m.boot.on = true → off.toNat % 4096 = 0 → off.toNat + 4096 ≤ flashSize → s.m.flashGate off.toNat 4096 = 0 →
    Completes (.flashErase h off 0 true) s fun m => ∀ a : Nat,
      tget Config.erased m.flash a = if off.toNat ≤ a ∧ a < off.toNat + 4096 then 0xFF else tget Config.erased s.m.flash a) ∧
  (∀ (h : MsgHdr) (off : Word) (data : List Byte) (s : State), s.m.takes h = true → s.m.boot.on = true → off.toNat % 256 = 0 → data.length % 256 = 0 → 0 < data.length →
    data.length ≤ 1024 → off.toNat + data.length ≤ flashSize → s.m.flashGate off.toNat data.length = 0 →
    Completes (.flashWrite h off data true) s fun m => ∀ a : Nat, tget Config.erased m.flash a =
      if off.toNat ≤ a ∧ a < off.toNat + data.length then data.getD (a - off.toNat) 0 &&& tget Config.erased s.m.flash a
      else tget Config.erased s.m.flash a) ∧
  (∀ (h : MsgHdr) (off : Word) (data : List Byte) (s : State), s.m.takes h = true → s.m.boot.on = true → off.toNat % 256 = 0 → data.length % 256 = 0 → 0 < data.length →
    data.length ≤ 1024 → off.toNat + data.length ≤ flashSize → s.m.flashGate off.toNat data.length ≠ 0 →
    Completes (.flashWrite h off data true) s fun m => m.flash = s.m.flash ∧
      m.out = s.m.out ++ s.m.replies h 5 3 (s.m.flashGate off.toNat data.length) []) ∧
  (∀ (h : MsgHdr) (off : Word) (len : BitVec 16) (size : BitVec 8) (data : List Byte) (dev : Bool) (s : State), s.m.takes h = true →
    s.m.boot.on = false → s.m.pins.form = false →
    Ignored (.flashRead h off len dev) s ∧ Ignored (.flashErase h off size dev) s ∧ Ignored (.flashWrite h off data dev) s)

/-- 16 R470–R476. The tie-break among parents of equal distance is the model's (log 17); these statements hold for whatever tree there is. How a package admitted
after the broadcast asks for its offer is the model's (DESIGN CHOICE, log 58). -/
def Obligations.BundleBroadcastForwardsAndStores : Prop :=
  (∀ (b : BundleId) (s : State), s.m.isMaster = false → s.m.boot.on = true →
    Completes (.bcastOffer b) s fun m => m.boot.bcast.offer = some b ∧
      (((s.m.boot.bcast.offer.map (·.tag)) ≠ some b.tag → m.boot.bcast.frags = [] ∧ m.boot.bcast.good = []))) ∧
  (∀ (o : BundleId) (h : FragHdr) (data : List Byte) (s : State), s.m.boot.bcast.offer = some o → h.tag ≠ o.tag →
    Ignored (.bcastFrag h data) s) ∧
  (∀ (o : BundleId) (h : FragHdr) (data : List Byte) (s : State), s.m.boot.bcast.offer = some o → h.tag = o.tag → fragOk o h data = true →
    h.payload = true → s.m.hbm.refresh = false → s.m.boot.bcast.good.contains (chunkKey true h.chunk) = false →
    s.m.boot.bcast.good.contains 0 = false →
    Completes (.bcastFrag h data) s fun m =>
      tget 0 m.boot.bcast.frags (chunkKey true h.chunk) = tget 0 s.m.boot.bcast.frags (chunkKey true h.chunk) ||| 2 ^ h.frag ∧
      mread Config.blank m.boot.bcast.store (chunkKey true h.chunk * 4096 + 248 * h.frag) data.length = data) ∧
  (∀ (tag : Word) (s : State), (s.m.boot.bcast.offer.map (·.tag)) = some tag →
    Completes (.bcastEnd tag) s fun m => m.boot.bcast = { s.m.boot.bcast with ended := true }) ∧
  (∀ (o : BundleId) (p : NodeId) (s : State), s.m.boot.bcast.offer = some o → s.m.boot.bcast.whole = false → s.m.boot.bcast.ended = true →
    s.m.boot.bcast.fetchFrom = none → s.m.treeParent = some p →
    Completes .bcastNackTimer s fun m => m.out = s.m.out ++ [Out.mgmt p (.bcastNack o.tag (s.m.boot.bcast.ranges o))] ∧
      m.boot.bcast.nacks = min (s.m.boot.bcast.nacks + 1) 1023) ∧
  (∀ (node : NodeId) (tag : Word) (s : State), (s.m.boot.bcast.offer.map (·.tag)) = some tag → s.m.treeKids.contains node = true →
    s.m.boot.bcast.kidsDone.contains node = false →
    Completes (.bcastDone node tag) s fun m => m.boot.bcast.kidsDone = s.m.boot.bcast.kidsDone ++ [node]) ∧
  (∀ (node : NodeId) (tag : Word) (first : Nat) (bytes : List Byte) (s : State), (s.m.boot.bcast.offer.map (·.tag)) = some tag →
    s.m.boot.fw.bundleOk = false → s.m.heldChunk true first = some bytes → node ≠ s.m.node →
    Completes (.bcastNack node tag [{ first := first, count := 1, payload := true }]) s fun m =>
      m.out = s.m.out ++ (List.range 17).map fun f =>
        .mgmt node (.bcastFrag { chunk := first, frag := f, payload := true, tag := tag } (fragOf bytes f))) ∧
  (∀ (node : NodeId) (tag version : Word) (s : State), s.m.isMaster = true → s.m.boot.fw.bundleOk = true →
    Completes (.bcastHave node tag version) s fun m =>
      m.boot.bcast.adverts = (s.m.boot.bcast.adverts.filter fun e => e.1 != node) ++ [(node, tag, version)]) ∧
  (∀ (o : BundleId) (s : State), s.m.boot.bcast.offer = some o → s.m.boot.bcast.whole = false → s.m.boot.fw.bundleOk = false →
    s.m.isMaster = false → s.m.boot.bcast.late = 0 → s.m.ownBundle = none →
    Completes .bcastTimeout s fun m => m.boot.bcast.fetchFrom = some s.m.hly.reg.master ∧ m.boot.bcast.late = 1 ∧
      m.out = s.m.out ++ [Out.mgmt s.m.hly.reg.master (.bcastNack o.tag (s.m.boot.bcast.ranges o))]) ∧
  (∀ (p : NodeId) (s : State), s.m.boot.bcast.offer = none → s.m.isMaster = false → s.m.hly.reg.admitted = true → s.m.bootSt 31 = .running →
    s.m.treeParent = some p → Completes .bcastNackTimer s fun m => m = { s.m with out := s.m.out ++ [Out.mgmt p (.bcastNack 0 [])] }) ∧
  (∀ (node : NodeId) (o : BundleId) (tag : Word) (s : State), s.m.boot.bcast.offer = some o → s.m.boot.bcast.ended = true →
    Completes (.bcastNack node tag []) s fun m =>
      m = { s.m with out := s.m.out ++ [Out.mgmt node (.bcastOffer o), Out.mgmt node (.bcastEnd o.tag)] })

/-- 17 R484–R489, R497, R499, R502, Tables 17.4, 17.5, 17.7; 00 R18. `Machine.siteAt k` is site k as Farnis holds it; site 0 is this package's
(log 4). -/
def Obligations.SitesArePoweredOnAndOff : Prop :=
  (∀ (k : SiteId) (x : Word × DWord) (h : BitVec 8) (t : DWord) (s : State), s.m.far.running = false → s.m.ownSite k = false → s.m.far.sites = [] →
    Completes (.busbarRise [(k, some x)] h t) s fun m => m.far.running = true ∧ m.far.hostEid = some h ∧ m.far.mismatch = false ∧
      (m.siteAt k).eid = some (siteEid k) ∧ (m.siteAt k).state = .standby ∧ (m.siteAt k).ident = some x ∧
      (s.m.setting 8 = 1 → m.far.order = s.m.far.order ++ [k.val]) ∧ (s.m.setting 8 ≠ 1 → m.far.order = s.m.far.order)) ∧
  (∀ (j k : SiteId) (x y : Word × DWord) (h : BitVec 8) (t : DWord) (s : State), s.m.far.running = false → s.m.ownSite j = false →
    s.m.ownSite k = false → s.m.far.sites = [] → j.val < k.val → x.1 ≠ y.1 →
    Completes (.busbarRise [(j, some x), (k, some y)] h t) s fun m => m.far.mismatch = true ∧ m.far.order = s.m.far.order ∧
      Out.pldmEvent [k.val] ∈ m.out ∧ ∀ i ∈ [j, k], (m.siteAt i).state = .standby ∧ (m.siteAt i).act = none) ∧
  (∀ (k : SiteId) (h : BitVec 8) (t : DWord) (s : State), s.m.far.running = false → Completes (.busbarRise [(k, none)] h t) s fun m =>
    m.far.running = true ∧ (m.siteAt k).state = .off ∧ (m.siteAt k).ident = none ∧ (m.siteAt k).eid = some (siteEid k)) ∧
  (∀ (l : List (SiteId × Option (Word × DWord))) (h : BitVec 8) (t : DWord) (s : State), s.m.far.running = true → Ignored (.busbarRise l h t) s) ∧
  (∀ (k : SiteId) (a : PowerAct) (t : DWord) (s : State), s.m.far.order.head? = some k.val → (s.m.siteAt k).act = some a → a.goal = .on →
    (s.m.siteAt k).state = .standby ∨ (s.m.siteAt k).state = .lockout → Completes (.sitePowerOn k t) s fun m =>
      s.m.siteOnly m k { s.m.siteAt k with state := .poweringOn, group := 1
                                           act := some { goal := .on, notice := false, cause := 0, onCause := a.onCause, given := false, seen := false } } ∧
      m.far.order = s.m.far.order.drop 1) ∧
  (∀ (k : SiteId) (t : DWord) (s : State), (s.m.siteAt k).state = .poweringOn →
    ((s.m.siteAt k).group < 4 → Completes (.railGood k t) s fun m =>
      s.m.siteOnly m k { s.m.siteAt k with group := (s.m.siteAt k).group + 1 }) ∧
    (4 ≤ (s.m.siteAt k).group → Completes (.railGood k t) s fun m =>
      s.m.siteOnly m k { s.m.siteAt k with state := .on, group := 0, act := none, retried := false } ∧
      s.m.farLogged m t 1 k (leBytes 1 (((s.m.siteAt k).act.map (·.onCause)).getD 0)) []) ∧
    (Completes (.railFail k t) s fun m => s.m.goingOff m k (offAct (if (s.m.siteAt k).retried then .lockout else .retry) false 5
        (((s.m.siteAt k).act.map (·.onCause)).getD 0)) ∧ m.far.seq = (s.m.far.seq + 1) % 4294967296)) ∧
  (∀ (k : SiteId) (t : DWord) (s : State), (s.m.siteAt k).state ≠ .poweringOn → Ignored (.railGood k t) s ∧ Ignored (.railFail k t) s) ∧
  (∀ (k : SiteId) (a : PowerAct) (s : State), (s.m.siteAt k).act = some a →
    ((s.m.siteAt k).state = .on → a.notice = true → Completes (.powerOffNotice k) s fun m =>
      s.m.siteOnly m k { s.m.siteAt k with state := .notice, act := some { a with given := true }, digests := [] } ∧
      m.out = s.m.out ++ [Out.farnis k (mctpMsg 4 2 false false 0 (leBytes 1 a.cause))]) ∧
    ((s.m.siteAt k).state = .notice → s.m.ownSite k = false ∨ s.m.reef.readySent = true → Completes (.ready k) s fun m =>
      s.m.goingOff m k { a with seen := true } ∧ m.out = s.m.out ++ [Out.farnis k (mctpMsg 4 4 true false 0 [])]) ∧
    ((s.m.siteAt k).state = .notice → Completes (.noticeLimitExpiry k) s fun m => s.m.goingOff m k a ∧ m.out = s.m.out) ∧
    ((s.m.siteAt k).state ≠ .on ∨ a.notice = false → Ignored (.powerOffNotice k) s) ∧
    ((s.m.siteAt k).state ≠ .notice → Ignored (.ready k) s ∧ Ignored (.noticeLimitExpiry k) s)) ∧
  (∀ (k : SiteId) (a : PowerAct) (t : DWord) (s : State), (s.m.siteAt k).state = .poweringOff → (s.m.siteAt k).act = some a →
    (1 < (s.m.siteAt k).group → Completes (.powerOffGroupFall k t) s fun m =>
      s.m.siteOnly m k { s.m.siteAt k with group := (s.m.siteAt k).group - 1 }) ∧
    ((s.m.siteAt k).group ≤ 1 → Completes (.powerOffGroupFall k t) s fun m =>
      s.m.siteOnly m k { s.m.siteAt k with
        group := 0, state := if a.goal = .lockout then .lockout else .standby
        act := if a.goal = .cycle ∨ a.goal = .retry then some a else none })) ∧
  (∀ (k : SiteId) (t : DWord) (s : State), (s.m.siteAt k).state ≠ .poweringOff → Ignored (.powerOffGroupFall k t) s) ∧
  (∀ (k : SiteId) (a : PowerAct) (s : State), (s.m.siteAt k).state = .standby → (s.m.siteAt k).act = some a →
    (a.goal = .cycle ∨ a.goal = .retry → Completes (.offTimeExpiry k) s fun m => s.m.siteOnly m k { s.m.siteAt k with
      state := .poweringOn, group := 1, retried := (s.m.siteAt k).retried || a.goal == .retry
      act := some { goal := .on, notice := false, cause := 0, onCause := a.onCause, given := false, seen := false } }) ∧
    (a.goal ≠ .cycle → a.goal ≠ .retry → Ignored (.offTimeExpiry k) s)) ∧
  (∀ (k : SiteId) (t : DWord) (s : State), s.m.far.mismatch = false → (s.m.siteAt k).act = none →
    ((s.m.siteAt k).state = .on → Completes (.resetOn k t) s fun m => m = { s.m with out := s.m.out ++ [Out.answer k true] }) ∧
    ((s.m.siteAt k).state = .standby ∨ (s.m.siteAt k).state = .lockout → Completes (.resetOn k t) s fun m =>
      m.far.order = s.m.far.order ++ [k.val] ∧ (m.siteAt k).act = some (offAct .on false 0 0) ∧ m.out = s.m.out ++ [Out.answer k true] ∧
      ((s.m.siteAt k).state = .lockout → (m.siteAt k).cycles = [])) ∧
    ((s.m.siteAt k).state = .on → (Completes (.resetForceOff k) s fun m => s.m.goingOff m k (offAct .standby false 0 0) ∧
        m.out = s.m.out ++ [Out.answer k true]) ∧
      (Completes (.resetForceRestart k) s fun m => s.m.goingOff m k (offAct .cycle false 0 0) ∧ m.out = s.m.out ++ [Out.answer k true]) ∧
      (Completes (.resetGracefulShutdown k) s fun m => s.m.siteOnly m k { s.m.siteAt k with act := some (offAct .standby true 0 0) } ∧
        m.out = s.m.out ++ [Out.answer k true]) ∧
      (Completes (.resetPowerCycle k) s fun m => s.m.siteOnly m k { s.m.siteAt k with act := some (offAct .cycle true 0 0) } ∧
        m.out = s.m.out ++ [Out.answer k true]))) ∧
  (∀ (k : SiteId) (t : DWord) (s : State), s.m.far.mismatch = true →
    (Completes (.resetOn k t) s fun m => m = { s.m with out := s.m.out ++ [Out.answer k false] }) ∧
    ((s.m.siteAt k).act = none → ∀ i ∈ [Instr.resetPowerCycle k, .resetForceRestart k, .scanEnter k], Completes i s fun m =>
      m = { s.m with out := s.m.out ++ [Out.answer k false] }) ∧ Ignored (.busbarReturn t) s) ∧
  (∀ (k : SiteId) (a : PowerAct) (t : DWord) (s : State), (s.m.siteAt k).act = some a →
    (s.m.far.mismatch = false → Completes (.resetOn k t) s fun m => m = { s.m with out := s.m.out ++ [Out.answer k (a.goal == .on || a.goal == .cycle || a.goal == .retry)] }) ∧
    (∀ i ∈ [Instr.resetForceOff k, .resetGracefulShutdown k], Completes i s fun m =>
      m = { s.m with out := s.m.out ++ [Out.answer k (a.goal == .standby)] }) ∧
    (∀ i ∈ [Instr.resetPowerCycle k, .resetForceRestart k], Completes i s fun m =>
      m = { s.m with out := s.m.out ++ [Out.answer k (a.goal == .cycle)] })) ∧
  (∀ (k : SiteId) (s : State),
    ((s.m.siteAt k).state = .standby → (s.m.siteAt k).act = none → s.m.far.mismatch = false → Completes (.scanEnter k) s fun m =>
      s.m.siteOnly m k { s.m.siteAt k with state := .scan } ∧ m.out = s.m.out ++ [Out.answer k true]) ∧
    ((s.m.siteAt k).state ≠ .standby → Completes (.scanEnter k) s fun m => m = { s.m with out := s.m.out ++ [Out.answer k false] }) ∧
    ((s.m.siteAt k).state = .scan → Completes (.scanExit k) s fun m => s.m.goingOff m k (offAct .standby false 0 0) ∧
      m.out = s.m.out ++ [Out.answer k true]) ∧
    ((s.m.siteAt k).state ≠ .scan → Completes (.scanExit k) s fun m => m = { s.m with out := s.m.out ++ [Out.answer k false] })) ∧
  (∀ (t : DWord) (s : State), s.m.far.running = true → Completes (.busbarSag t) s fun m =>
    (∀ k < 16, (s.m.siteAt k).state.lit = true → (m.siteAt k).state = .poweringOff ∧ k ∈ m.far.sagged) ∧
    (∀ k < 16, (s.m.siteAt k).state.lit = false → (s.m.siteAt k).act = none → m.siteAt k = s.m.siteAt k ∧ k ∉ m.far.sagged)) ∧
  (∀ (t : DWord) (s : State),
    (s.m.far.sagged ≠ [] → s.m.setting 8 = 1 → s.m.far.mismatch = false → Completes (.busbarReturn t) s fun m => m.far.sagged = [] ∧ m.far.order = s.m.far.order ++
      s.m.far.sagged.filter fun k => (s.m.siteAt k).state == .standby && (s.m.siteAt k).act.isNone) ∧
    (s.m.far.sagged = [] ∨ s.m.setting 8 ≠ 1 → Ignored (.busbarReturn t) s) ∧ (s.m.far.running = false → Ignored (.busbarSag t) s)) ∧
  (∀ (t : DWord) (s : State),
    (s.m.cduOk = true → (500 < s.m.far.cduTemp ∨ s.m.far.cduFlow < 300) → Completes (.coolantLimit t) s fun m =>
      (∀ k < 16, (s.m.siteAt k).state = .on → (s.m.siteAt k).act = none →
        m.siteAt k = { s.m.siteAt k with act := some (offAct .lockout true 4 0) }) ∧
      (∀ k < 16, (s.m.siteAt k).state = .poweringOn → (m.siteAt k).state = .poweringOff)) ∧
    (s.m.cduOk = false ∨ (s.m.far.cduTemp ≤ 500 ∧ 300 ≤ s.m.far.cduFlow) → Ignored (.coolantLimit t) s))

/-- 17 R490–R495, R497, R498, R501, Tables 17.6, 17.7; 15 R440. What another site's package answers is given by the command. -/
def Obligations.FarnisReadsFaultsAndReportsTheFacility : Prop :=
  (∀ (k : SiteId) (s : State),
    ((s.m.siteAt k).state = .on ∨ (s.m.siteAt k).state = .notice → s.m.mayBeLow k = true → Completes (.faultNEdge k) s fun m =>
      s.m.siteOnly m k { s.m.siteAt k with faultWait := true, startRead := false, rereads := 0 } ∧ m.far.trayFault = true ∧
      m.out = s.m.out ++ faultReads k) ∧
    (s.m.mayBeLow k = false → Ignored (.faultNEdge k) s) ∧
    ((s.m.siteAt k).state ≠ .on → (s.m.siteAt k).state ≠ .notice → Ignored (.faultNEdge k) s ∧ Ignored (.pinAlert k) s) ∧
    ((s.m.siteAt k).state = .on → s.m.mayBeLow k = true → s.m.ownSite k = false ∨ s.m.ttl.pin.c4 = false → Completes (.pinAlert k) s fun m =>
      m = { s.m with out := s.m.out ++ [Out.alert k 1] })) ∧
  (∀ (k : SiteId) (pin slot low : Word) (t : DWord) (s : State), (s.m.siteAt k).faultWait = true → s.m.ownSite k = false →
    (s.m.siteAt k).startRead = false →
    (bitAt pin 2 = false → Completes (.faultReadReply k pin slot low t) s fun m =>
      s.m.siteOnly m k { s.m.siteAt k with faultWait := false } ∧
      s.m.farLogged m t 4 k (leBytes 4 pin.toNat ++ leBytes 4 slot.toNat ++ leBytes 4 low.toNat) []) ∧
    (bitAt pin 2 = true → 492 ≤ bits slot 5 10 → bits slot 5 10 ≤ 495 → (s.m.siteAt k).state = .on →
      Completes (.faultReadReply k pin slot low t) s fun m => (m.siteAt k).state = .poweringOff ∧
        (m.siteAt k).act = some (offAct .lockout false 1 0) ∧ (m.siteAt k).faultWait = false) ∧
    (bitAt pin 2 = true → bits slot 5 10 < 492 ∨ 495 < bits slot 5 10 → (s.m.siteAt k).state = .on → (s.m.siteAt k).act = none →
      Completes (.faultReadReply k pin slot low t) s fun m => (m.siteAt k).state = .on ∧ (m.siteAt k).faultWait = false ∧
        (let recent := (s.m.siteAt k).cycles.filter fun c => decide (t.toNat < c.toNat + dayMs)
         (m.siteAt k).cycles = recent ++ [t] ∧
         (m.siteAt k).act = some (offAct (if s.m.setting 7 ≤ recent.length then .lockout else .cycle) true 2 1)))) ∧
  (∀ (k : SiteId) (pin slot low : Word) (t : DWord) (s : State), (s.m.siteAt k).faultWait = false →
    Ignored (.faultReadReply k pin slot low t) s ∧ Ignored (.faultReadRetry k t) s) ∧
  (∀ (k : SiteId) (t : DWord) (s : State), (s.m.siteAt k).faultWait = true → s.m.mayBeLow k = true →
    ((s.m.siteAt k).rereads < 99 → Completes (.faultReadRetry k t) s fun m =>
      s.m.siteOnly m k { s.m.siteAt k with rereads := (s.m.siteAt k).rereads + 1 } ∧ m.out = s.m.out ++ faultReads k) ∧
    (99 ≤ (s.m.siteAt k).rereads → (s.m.siteAt k).state = .on → (s.m.siteAt k).act = none → Completes (.faultReadRetry k t) s fun m =>
      (m.siteAt k).state = .poweringOff ∧ (m.siteAt k).faultWait = false ∧ (m.siteAt k).act.map (·.cause) = some 3)) ∧
  (∀ (low : BitVec 16) (s : State),
    ((∀ k < 16, (s.m.siteAt k).state = .on → (if s.m.ownSite k then s.m.ttl.pin.low else low.getLsbD k) = false) →
      Completes (.trayFaultHoldExpiry low) s fun m => m = { s.m with far := { s.m.far with trayFault := false } }) ∧
    ((∃ k < 16, (s.m.siteAt k).state = .on ∧ (if s.m.ownSite k then s.m.ttl.pin.low else low.getLsbD k) = true) →
      Ignored (.trayFaultHoldExpiry low) s)) ∧
  (∀ (l : List (Option (BitVec 16))) (b c : Option (BitVec 16)) (s : State), s.m.far.running = true → Completes (.shelfPoll l b c) s fun m =>
    (∀ i < s.m.far.shelf.length, ∀ w, l[i]? = some (some w) → m.far.modules[i]? = some { good := !shelfFault w, fails := 0 }) ∧
    (∀ i < s.m.far.shelf.length, l[i]? = some none → m.far.modules[i]?.map (·.fails) =
      some ((s.m.far.modules.getD i { good := false, fails := 0 }).fails + 1)) ∧
    (∀ w, b = some w → m.far.battGood = !shelfFault w ∧ m.far.battAge = some 0) ∧
    (b = none → m.far.battGood = s.m.far.battGood ∧ m.far.battAge = s.m.far.battAge.map (· + 1)) ∧
    (∀ w, c = some w → m.far.soc = linear11 w ∧ m.far.socAge = some 0) ∧
    (c = none → m.far.soc = s.m.far.soc ∧ m.far.socAge = s.m.far.socAge.map (· + 1))) ∧
  (∀ (x y : BitVec 16) (s : State), s.m.far.running = true →
    (Completes (.cduPoll (some (x, y))) s fun m => m.far.cduTemp = x.toInt ∧ m.far.cduFlow = y.toNat ∧ m.far.cduAge = some 0 ∧ m.cduOk = true) ∧
    (Completes (.cduPoll none) s fun m => m.far.cduTemp = s.m.far.cduTemp ∧ m.far.cduFlow = s.m.far.cduFlow ∧
      m.far.cduAge = s.m.far.cduAge.map (· + 1))) ∧
  (∀ (t : DWord) (l : List (Option (BitVec 16))) (b c : Option (BitVec 16)) (r : Option (BitVec 16 × BitVec 16)) (s : State),
    s.m.far.running = false → Ignored (.shelfPoll l b c) s ∧ Ignored (.cduPoll r) s ∧ Ignored (.cduStaleAlert t) s ∧ Ignored .trayReportSend s) ∧
  (∀ (t : DWord) (s : State), s.m.far.running = true → s.m.cduOk = false → Completes (.cduStaleAlert t) s fun m =>
    m.far.seq = (s.m.far.seq + 1) % 4294967296 ∧ ∃ r, m.out = s.m.out ++ [Out.alert 0xFF 2, .event r]) ∧
  (∀ (s : State), s.m.far.running = true → Completes .trayReportSend s fun m => m.far.reportSeq = (s.m.far.reportSeq + 1) % 65536 ∧
    m.out = s.m.out ++ ((List.range 16).filter fun k => (s.m.siteAt k).state == .on || (s.m.siteAt k).state == .notice).map fun k =>
      .farnis k (mctpMsg 4 1 false true 0 (s.m.reportBody ((s.m.far.reportSeq + 1) % 65536)))) ∧
  (∀ (k : SiteId) (w : List Word) (t : DWord) (s : State),
    ((s.m.siteAt k).state = .on ∨ (s.m.siteAt k).state = .notice → Completes (.crashSummary k w t) s fun m =>
      s.m.farLogged m t 5 k (wordBytes (if s.m.ownSite k then s.m.luff.crash.words else (w ++ List.replicate 5 0).take 5))
        [.farnis k (mctpMsg 4 3 true false 0 [])]) ∧
    ((s.m.siteAt k).state ≠ .on → (s.m.siteAt k).state ≠ .notice → Ignored (.crashSummary k w t) s)) ∧
  (∀ (k : SiteId) (d : List Byte) (tag : Word) (t : DWord) (s : State),
    ((s.m.siteAt k).state = .on → Completes (.measure k d tag t) s fun m =>
      s.m.siteOnly m k { s.m.siteAt k with digests := if s.m.ownSite k then s.m.measureBytes else (d ++ List.replicate 192 0).take 192 } ∧
      m.far.seq = (s.m.far.seq + 1) % 4294967296) ∧
    ((s.m.siteAt k).state ≠ .on → Ignored (.measure k d tag t) s))

/-- 17 R499–R504, Tables 17.3, 17.9, 17.11. A signature's bytes are a free value (log 7). -/
def Obligations.FarnisAnswersUpdatesAndRestarts : Prop :=
  (∀ (r : Resource) (l : List Nat) (q : PldmQuery) (k : SiteId) (x : BitVec 256) (s : State), s.m.far.running = true →
    (Completes (.redfishGet r l) s fun m => m = { s.m with out := s.m.out ++ [Out.redfish r (s.m.resourceFigures r l)] }) ∧
    (Completes (.pldmSensorRead (.siteState k) l) s fun m => m = { s.m with out := s.m.out ++ [Out.pldm (.siteState k) [(s.m.siteAt k).state.code]] }) ∧
    (Completes (.pldmSensorRead (.sensor k) l) s fun m => m = { s.m with out := s.m.out ++ [Out.pldm (.sensor k) l] }) ∧
    (Completes (.pldmSensorRead .soc l) s fun m => m = { s.m with out := s.m.out ++ [Out.pldm .soc [s.m.far.soc]] }) ∧
    (Completes (.componentIntegrity k x) s fun m => ∃ sig : List Nat, sig.length = 96 ∧ m.out = s.m.out ++ [Out.redfish (.componentIntegrity k)
      ((s.m.siteAt k).digests.map (·.toNat) ++ farFirmware ++ (leBytes 32 x.toNat ++
        leBytes 8 (((s.m.siteAt k).ident.map fun x => x.2.toNat).getD 0)).map (·.toNat) ++ sig)] ∧ m.far = s.m.far)) ∧
  (∀ (k : SiteId) (image : List Byte) (b : Bool) (t : DWord) (s : State), s.m.far.running = true → s.m.ownSite k = true →
    (s.m.siteAt k).state = .on ∨ (s.m.siteAt k).state = .notice → 4096 ≤ image.length → image.length ≤ copyMax → s.m.boot.rescue = false →
    (s.m.flashGate (copyBase (!s.m.boot.copyB)) copyMax = 0 →
      ∀ i ∈ [Instr.flashUpdate k image b true t, .pldmFirmwareUpdate (some k) image b true t], Completes i s fun m =>
        m.flashBytes (copyBase (!s.m.boot.copyB)) image.length = sequenced image ((s.m.boot.imageSeq.toNat + 1) % 4294967296) ∧
        (∀ a, a < copyBase (!s.m.boot.copyB) ∨ copyBase (!s.m.boot.copyB) + copyMax ≤ a →
          tget Config.erased m.flash a = tget Config.erased s.m.flash a) ∧ m.far.seq = (s.m.far.seq + 1) % 4294967296) ∧
    (s.m.flashGate (copyBase (!s.m.boot.copyB)) copyMax ≠ 0 → Completes (.flashUpdate k image b true t) s fun m => m.flash = s.m.flash ∧
      m.far.seq = (s.m.far.seq + 1) % 4294967296)) ∧
  (∀ (k : SiteId) (image : List Byte) (b d : Bool) (t : DWord) (s : State), s.m.far.running = true → (s.m.siteAt k).state = .on →
    s.m.ownSite k = false → Completes (.flashUpdate k image b d t) s fun m => m.flash = s.m.flash ∧ m.far.seq = (s.m.far.seq + 1) % 4294967296) ∧
  (∀ (image : List Byte) (b : Bool) (t : DWord) (s : State), s.m.far.running = true →
    (Completes (.pldmFirmwareUpdate none image b true t) s fun m => m = { s.m with far := { s.m.far with fwStaged := true } }) ∧
    (Ignored (.pldmFirmwareUpdate none image b false t) s) ∧
    (Completes (.farnisRestart t) s fun m => m.far.fwStaged = false ∧ m.far.seq = (s.m.far.seq + 1) % 4294967296 ∧
      (∀ k < 16, (s.m.siteAt k).state = .on → m.siteAt k = { s.m.siteAt k with faultWait := true, startRead := true, rereads := 0 }) ∧
      (∀ k < 16, (s.m.siteAt k).state ≠ .on → m.siteAt k = s.m.siteAt k) ∧ m.far.settings = s.m.far.settings)) ∧
  (∀ (n : Fin 16) (v : Word) (t : DWord) (s : State), s.m.far.running = true →
    (settingOk n v.toNat = true → Completes (.farnisSettingWrite (.value n v) t) s fun m => m.setting n = v.toNat ∧
      (∀ k, k ≠ n.val → m.setting k = s.m.setting k) ∧
      s.m.farLogged m t 0x0B 0xFF (leBytes 2 n ++ leBytes 4 (s.m.setting n) ++ leBytes 4 v.toNat) [.answer 0xFF true]) ∧
    (settingOk n v.toNat = false → Completes (.farnisSettingWrite (.value n v) t) s fun m =>
      m = { s.m with out := s.m.out ++ [Out.answer 0xFF false] })) ∧
  (∀ (l : List (BitVec 8)) (baud : Nat) (two : Bool) (t : DWord) (s : State), s.m.far.running = true →
    (1 ≤ l.length → l.length ≤ 8 → (∀ a ∈ l, a.toNat < 128) → Completes (.farnisSettingWrite (.shelf l) t) s fun m =>
      m.far.shelf = l ∧ m.far.modules = []) ∧
    (baud ∈ [9600, 19200, 38400, 115200] → Completes (.farnisSettingWrite (.line baud two) t) s fun m => m.far.line = (baud, two)) ∧
    (l = [] ∨ 8 < l.length → Completes (.farnisSettingWrite (.shelf l) t) s fun m => m = { s.m with out := s.m.out ++ [Out.answer 0xFF false] }) ∧
    (baud ∉ [9600, 19200, 38400, 115200] → Completes (.farnisSettingWrite (.line baud two) t) s fun m =>
      m = { s.m with out := s.m.out ++ [Out.answer 0xFF false] })) ∧
  (∀ (k : SiteId) (image : List Byte) (r : Resource) (q : PldmQuery) (l : List Nat) (x : BitVec 256) (w : SettingWrite) (o : Option SiteId) (b d : Bool)
    (t : DWord) (s : State), s.m.far.running = false → Ignored (.flashUpdate k image b d t) s ∧ Ignored (.pldmFirmwareUpdate o image b d t) s ∧
    Ignored (.farnisRestart t) s ∧ Ignored (.farnisSettingWrite w t) s ∧ Ignored (.redfishGet r l) s ∧ Ignored (.pldmSensorRead q l) s ∧
    Ignored (.componentIntegrity k x) s)

/-- 18 R506–R512, 11 R322, R326. The words of the PF's map are `Machine.regRead` and `Machine.regWrite`. -/
def Obligations.RegistersAreReadAndWrittenByFunction : Prop :=
  (∀ (f : BarFunc) (off : Nat) (a : BarAccess) (s : State), s.m.answers f = false → Ignored (.registerWrite f off a) s) ∧
  (∀ (f : BarFunc) (off n : Nat) (s : State), Completes (.registerWrite f off (.read n)) s fun m =>
    (∀ b, b ≠ .time → b ≠ .acc → b ≠ .out → s.m.agrees m b) ∧ m.time = { s.m.time with latch := m.time.latch }) ∧
  (∀ (off : Nat) (s : State), s.m.answers (.fn .pf) = true → off % 4 = 0 → off + 4 ≤ 0x4000000 →
    Completes (.registerWrite (.fn .pf) off (.read 4)) s fun m =>
      (s.m.exposed off = true → m.out = s.m.out ++ [Out.readData 0 off (leBytes 4 (s.m.regRead 0 off).toNat)] ∧ m.acc = s.m.acc) ∧
      (s.m.exposed off = false → m.out = s.m.out ++ [Out.readData 0 off [0, 0, 0, 0]] ∧
        m.acc = { count := satAdd32 s.m.acc.count 1, offset := off, cause := 5, func := 0 })) ∧
  (∀ (off n : Nat) (s : State), s.m.answers (.fn .pf) = true → 0 < n → off + n ≤ 0x4000000 →
    (n ∉ [1, 2, 4, 8] ∨ 4 < off % 4 + n) → ¬(n = 8 ∧ off % 4 = 0) →
    Completes (.registerWrite (.fn .pf) off (.read n)) s fun m =>
      m = { s.m with acc := { count := satAdd32 s.m.acc.count 1, offset := off, cause := 2, func := 0 },
                     out := s.m.out ++ [Out.readData 0 off (List.replicate n 0xFF)] }) ∧
  (∀ (off : Nat) (data : List Byte) (s : State), s.m.answers (.fn .pf) = true → off % 4 = 0 → off + 4 ≤ 0x4000000 → data.length = 4 →
    Completes (.registerWrite (.fn .pf) off (.write data)) s fun m =>
      (s.m.exposed off = true → m = ((s.m.regWrite 0 off (wordAt data 0)).1).accessed off (s.m.regWrite 0 off (wordAt data 0)).2 0) ∧
      (s.m.exposed off = false → m = s.m.accErr off 5 0)) ∧
  (∀ (off : Nat) (data : List Byte) (s : State), s.m.answers (.fn .pf) = true → 0 < data.length → off + data.length ≤ 0x4000000 →
    ¬((data.length = 4 ∨ data.length = 8) ∧ off % 4 = 0) →
    Completes (.registerWrite (.fn .pf) off (.write data)) s fun m =>
      m = { s.m with acc := { count := satAdd32 s.m.acc.count 1, offset := off,
                              cause := if off % 4 + data.length ≤ 4 then 1 else 2, func := 0 } }) ∧
  (∀ (n : Fin 64) (off : Nat) (data : List Byte) (s : State), s.m.answers (.fn (.vf n)) = true → s.m.vfCtx (n.val + 1) = none →
    off % 4 = 0 → off < 0x1000 → data.length = 4 →
    (Completes (.registerWrite (.fn (.vf n)) off (.read 4)) s fun m => m.out = s.m.out ++ [Out.readData (n.val + 1) off [0, 0, 0, 0]]) ∧
    Ignored (.registerWrite (.fn (.vf n)) off (.write data)) s) ∧
  (∀ (off n : Nat) (data : List Byte) (s : State), s.m.answers .h1 = true → s.m.twoDie = true → 0 < n → off + n ≤ 0x10000 →
    (Completes (.registerWrite .h1 off (.read n)) s fun m =>
      m = s.m.emit (.readData 128 off ((List.range n).map fun i =>
        (leBytes 8 s.m.fuse.uid.toNat ++ leBytes 4 (s.m.hlinkWord 1).toNat).getD (off + i) 0))) ∧
    Ignored (.registerWrite .h1 off (.write data)) s) ∧
  (∀ (f : BarFunc) (off : Nat) (s : State), s.m.answers f = true → Completes (.registerWrite f off .identity) s fun m =>
    ∃ id : ConfigId, m = s.m.emit (.identity f id) ∧ id.revision = s.m.fuse.stepping.toNat ∧ id.cls = 0x120000 ∧
      id.subsystem = (if s.m.pins.form then 0x0001 else 0x0016) ∧
      (f = .fn .pf → id.vendor = 0x1F3B ∧ id.device = 0x7160 ∧ id.sriov = [64, 64, 1, 1]) ∧
      (∀ n, f = .fn (.vf n) → id.vendor = 0xFFFF ∧ id.device = 0x7161) ∧ (f = .h1 → id.vendor = 0x1F3B ∧ id.device = 0x7162))

/-- 18 R513, R516, R519, R560, through the map's write: the machine that a write leaves, and the cause it counts with, 0 for none. -/
def Obligations.RegisterWritesMeetTheirFieldsRules : Prop :=
  (∀ (k : Nat) (v : Word) (m : Machine), k < 14 →
    (m.hly.box.busy = true → m.regWrite 0 (0x100108 + 4 * k) v = (m, 3) ∧ m.regWrite 0 0x100100 v = (m, 3)) ∧
    (m.hly.box.busy = false → m.regWrite 0 (0x100108 + 4 * k) v =
      ({ m with hly := { m.hly with box := { m.hly.box with args := tset 0 m.hly.box.args k v } } }, 0))) ∧
  (∀ (v : Word) (m : Machine), m.hly.box.busy = false → bitAt v 31 = true → hlyOpcode (bits v 0 8) = true → bits v 16 15 = 0 →
    m.regWrite 0 0x100100 v =
      ({ m with hly := { m.hly with box := { m.hly.box with opcode := bits v 0 8, seq := bits v 8 8, busy := true, done := false } } }, 0)) ∧
  (∀ (w : Nat) (v : Word) (m : Machine), w < 20 → (m.regWrite 0 (0x300000 + 4 * w) v).2 = 0 ∧
    ∀ i, ((m.regWrite 0 (0x300000 + 4 * w) v).1.src i).any = ((m.src i).any && !(decide (i / 32 = w) && bitAt v (i % 32)))) ∧
  (∀ (v : Word) (m : Machine), (bits v 0 16 < 10 ∨ 60000 < bits v 0 16) → m.regWrite 0 0x300114 v = (m, 7)) ∧
  (∀ (v : Word) (m : Machine), 10 ≤ bits v 0 16 → bits v 0 16 ≤ 60000 →
    m.regWrite 0 0x300114 v = ({ m with ttl := { m.ttl with quietMs := bits v 0 16 } }, 0)) ∧
  (∀ (v : Word) (m : Machine), m.rwlOpen = false → (bitAt v 3 ≠ m.ttl.autoHold ∨ bitAt v 4 ≠ m.ttl.injectEn) →
    m.regWrite 0 0x300110 v = (m, 4)) ∧
  (∀ (o f : Nat) (v : Word) (m : Machine), o / 0x100000 ∈ [0, 2, 6, 9, 12] → m.regWrite f o v = (m, 0))

/-- 17 R482, Tables 17.2, 17.3. -/
def Obligations.FarnisReachesRegistersCommandsAndTheDatabase : Prop :=
  (∀ (h : MsgHdr) (off : Word) (n : BitVec 8) (s : State), s.m.takes h = true → s.m.boot.on = true → 0 < n.toNat → n.toNat ≤ 16 → off.toNat % 4 = 0 →
    (∀ i < n.toNat, farnisReads (off.toNat + 4 * i) = true) → Completes (.regRead h off n) s fun m =>
      m.out = s.m.out ++ s.m.replies h 2 1 0 (wordBytes (s.m.farnisWords off.toNat n.toNat).2) ∧
      (s.m.farnisWords off.toNat n.toNat).2.length = n.toNat ∧
      m.time = { s.m.time with farnisLatch := m.time.farnisLatch }) ∧
  (∀ (h : MsgHdr) (off : Word) (n : BitVec 8) (s : State), s.m.takes h = true → s.m.boot.on = true →
    ((n.toNat = 0 ∨ 16 < n.toNat ∨ off.toNat % 4 ≠ 0) → Completes (.regRead h off n) s fun m => m = (s.m.heard h).answerMctp h 2 1 3 []) ∧
    (0 < n.toNat → n.toNat ≤ 16 → off.toNat % 4 = 0 → (∃ i < n.toNat, farnisReads (off.toNat + 4 * i) = false) →
      Completes (.regRead h off n) s fun m => m = (s.m.heard h).answerMctp h 2 1 4 [])) ∧
  (∀ (h : MsgHdr) (off v : Word) (s : State), s.m.takes h = true → s.m.boot.on = true → farnisWrites off.toNat = false → Completes (.regWrite h off v) s fun m =>
    m.acc = { count := satAdd32 s.m.acc.count 1, offset := off.toNat, cause := 5, func := 0x7F } ∧ m.out = s.m.out ++ s.m.replies h 2 2 4 [] ∧
    ∀ b, b ≠ .acc → b ≠ .out → b ≠ .card → s.m.agrees m b) ∧
  (∀ (h : MsgHdr) (off v : Word) (s : State), s.m.takes h = true → s.m.boot.on = true → farnisWrites off.toNat = true → Completes (.regWrite h off v) s fun m =>
    (((s.m.heard h).regWrite 0x7F off.toNat v).2 = 0 → m = ((s.m.heard h).regWrite 0x7F off.toNat v).1.answerMctp h 2 2 0 []) ∧
    (((s.m.heard h).regWrite 0x7F off.toNat v).2 ≠ 0 → m = (((s.m.heard h).regWrite 0x7F off.toNat v).1.accErr off.toNat ((s.m.heard h).regWrite 0x7F off.toNat v).2 0x7F).answerMctp h 2 2
      (if ((s.m.heard h).regWrite 0x7F off.toNat v).2 = 3 then 1 else 4) [])) ∧
  (∀ (h : MsgHdr) (op seq : BitVec 8) (args : List Word) (s : State), s.m.takes h = true → s.m.boot.on = true → args.length = 14 →
    (mctpOpcode op.toNat = true → s.m.hly.mctp = none → Completes (.hlyCmd h op seq args) s fun m =>
      m.hly.mctp = some { src := .mctp, opcode := op.toNat, seq := seq.toNat, podSeq := 0, args := args, data := [], cable := none } ∧
      m.hly.mctpStarted = false ∧ m.hly.mctpHdr = h ∧ m.out = s.m.out) ∧
    (mctpOpcode op.toNat = true → s.m.hly.mctp ≠ none → Completes (.hlyCmd h op seq args) s fun m =>
      m = (s.m.heard h).answerMctp h 3 1 0 (1 :: List.replicate 32 0)) ∧
    (mctpOpcode op.toNat = false → Completes (.hlyCmd h op seq args) s fun m => m = (s.m.heard h).answerMctp h 3 1 4 [])) ∧
  (∀ (h : MsgHdr) (off : Word) (n : BitVec 16) (s : State), s.m.takes h = true → s.m.boot.on = true →
    (0 < n.toNat → n.toNat ≤ 1024 → off.toNat + n.toNat ≤ s.m.dbBytes.length → Completes (.dbRead h off n) s fun m =>
      m = (s.m.heard h).answerMctp h 3 2 0 ((s.m.dbBytes.drop off.toNat).take n.toNat)) ∧
    ((n.toNat = 0 ∨ 1024 < n.toNat ∨ s.m.dbBytes.length < off.toNat + n.toNat) → Completes (.dbRead h off n) s fun m =>
      m = (s.m.heard h).answerMctp h 3 2 3 [])) ∧
  (∀ (h : MsgHdr) (a b : Word) (n : BitVec 8) (k : BitVec 16) (op seq : BitVec 8) (args : List Word) (s : State), s.m.takes h = true →
    s.m.boot.on = false → ∀ i ∈ [Instr.regRead h a n, .regWrite h a b, .hlyCmd h op seq args, .dbRead h a k],
      Completes i s fun m => m = s.m.heard h) ∧
  (∀ (h : MsgHdr) (a b : Word) (n : BitVec 8) (k : BitVec 16) (op seq : BitVec 8) (args : List Word) (s : State), s.m.hears h = true →
    (bitAt h.flags 0 = true →
      ∀ i ∈ [Instr.regRead h a n, .regWrite h a b, .hlyCmd h op seq args, .dbRead h a k, .flashRead h a k true, .flashErase h a n true, .idRead h op seq],
        Ignored i s) ∧
    (bitAt h.flags 0 = false → 4 ≤ h.flags.toNat →
      (Completes (.regRead h a n) s fun m => m = (s.m.heard h).answerMctp h 2 1 3 []) ∧
      (Completes (.regWrite h a b) s fun m => m = (s.m.heard h).answerMctp h 2 2 3 []) ∧
      (Completes (.hlyCmd h op seq args) s fun m => m = (s.m.heard h).answerMctp h 3 1 3 []) ∧
      (Completes (.dbRead h a k) s fun m => m = (s.m.heard h).answerMctp h 3 2 3 []))) ∧
  (∀ (h : MsgHdr) (a b : Word) (n : BitVec 8) (k : BitVec 16) (s : State), s.m.hears h = false →
    (s.m.bridged h = false ∨ (∀ j < 16, s.m.eidOf j ≠ some h.dst) → Ignored (.regRead h a n) s ∧ Ignored (.regWrite h a b) s) ∧
    (∀ j < 16, s.m.bridged h = true → s.m.eidOf j = some h.dst → (∀ l < j, s.m.eidOf l ≠ some h.dst) →
      (Completes (.regRead h a n) s fun m =>
        m = s.m.emit (.farnis j (mctpMsg 2 1 false (bitAt h.flags 1) 0 (leBytes 4 a.toNat ++ leBytes 1 n.toNat)))) ∧
      (Completes (.dbRead h a k) s fun m =>
        m = s.m.emit (.farnis j (mctpMsg 3 2 false (bitAt h.flags 1) 0 (leBytes 4 a.toNat ++ leBytes 2 k.toNat))))))

/-- 19 R539, R541, Table 19.8; the value IDCODE shifts out is `IdcodeShiftsOutTheDiesOwnValue`. A die that is not on a live chain is bypassed by the tray's multiplexer. -/
def Obligations.BoundaryScanInstructionsEnterTheirDie : Prop :=
  (∀ (k : SiteId) (d : IoDie) (s : State), s.m.onChain k d = true → ∀ x ∈ [(Instr.samplePreload k d, 0x02), (.bypass k d, 0xFF)],
    Completes x.1 s fun m => s.m.scanned m k d x.2 ∧ m.out = s.m.out ++ [Out.scan k d x.2]) ∧
  (∀ (k : SiteId) (d : IoDie) (s : State), s.m.onChain k d = true → (Completes (.idcode k d) s fun m =>
    s.m.scanned m k d 0x01 ∧ m.out = s.m.out ++ [Out.scan k d 0x01, .scanData k d (s.m.idcode k d)])) ∧
  (∀ (k : SiteId) (d : IoDie) (s : State), s.m.onChain k d = true →
    ∀ x ∈ [(Instr.extest k d, 0x00), (.extestPulse k d, 0x03), (.extestTrain k d, 0x04), (.highz k d, 0x05)],
    ((s.m.siteAt k).state = .scan → Completes x.1 s fun m => s.m.scanned m k d x.2 ∧ m.out = s.m.out ++ [Out.scan k d x.2]) ∧
    ((s.m.siteAt k).state ≠ .scan → Completes x.1 s fun m => s.m.scanned m k d 0xFF ∧ m.out = s.m.out ++ [Out.scan k d 0xFF])) ∧
  (∀ (k : SiteId) (d : IoDie) (s : State), s.m.onChain k d = false → Ignored (.extest k d) s ∧ Ignored (.idcode k d) s ∧
    Ignored (.samplePreload k d) s ∧ Ignored (.extestPulse k d) s ∧ Ignored (.extestTrain k d) s ∧ Ignored (.highz k d) s ∧ Ignored (.bypass k d) s) ∧
  (∀ (level low : Bool) (s : State), Completes (.scanExtChange level low) s fun m =>
    m = { s.m with scan := { s.m.scan with extN := level, applied := if low then level else s.m.scan.applied } }) ∧
  (∀ (s : State), Completes .extTrstNFall s fun m => m = { s.m with scan := { s.m.scan with applied := s.m.scan.extN } })

/-- 20 R549. POWER_GOOD follows as its own command (log 1). Removing the rails loses everything volatile (18 R521). -/
def Obligations.CardPowersItsPackageOnAndOff : Prop :=
  (∀ (aux : BitVec 2) (s : State), s.m.pins.form = true → s.m.card.slot12v = false → Completes (.slot12vRise aux) s fun m =>
    m = { s.m with card := { slot12v := true, aux := aux, pg := decide (aux = 3), c4Off := false, led := decide (aux ≠ 3), peer := none } }) ∧
  (∀ (s : State), s.m.pins.form = true → s.m.card.slot12v = true → Completes .slot12vFall s fun m =>
    m.card = { s.m.card with slot12v := false, pg := false, c4Off := false, led := false, peer := none } ∧
    (∀ b ∈ Area.volatile, Machine.reset.agrees m b) ∧ m.flash = s.m.flash ∧ m.hostMem = s.m.hostMem) ∧
  (∀ (s : State), s.m.pins.form = true → s.m.card.pg = true → s.m.ttl.pin.c4 = true → Completes .cardC4PowerOff s fun m =>
    m.card = { s.m.card with pg := false, c4Off := true, peer := none } ∧
    (∀ b ∈ Area.volatile, Machine.reset.agrees m b) ∧ m.flash = s.m.flash ∧ m.hostMem = s.m.hostMem) ∧
  (∀ (aux : BitVec 2) (s : State), s.m.pins.form = false → Ignored (.slot12vRise aux) s ∧ Ignored .slot12vFall s ∧ Ignored .cardC4PowerOff s)
end

