-- ==== Sys2Proof/Laws/Kept.lean ====
section
/-!
SUPPORT. The calculus of frames: a chain of updates keeps every area that no link of it writes.
-/
namespace Sys2Proof.Machine

variable {W : List Area} {m a b : Machine}

@[simp] theorem Kept.refl : Kept W m m := ⟨fun b _ => by cases b <;> exact rfl⟩

theorem Kept.of_agrees (h : Kept W m a) (h' : ∀ r, r ∉ W → a.agrees b r) : Kept W m b :=
  ⟨fun r hr => by
    have h1 := h.keeps r hr
    have h2 := h' r hr
    cases r <;> exact Eq.trans h2 h1⟩

theorem Kept.trans (h : Kept W m a) (h' : Kept W a b) : Kept W m b := h.of_agrees h'.keeps

theorem Kept.mono {V : List Area} (h : Kept V m a) (hw : ∀ r ∈ V, r ∈ W) : Kept W m a :=
  ⟨fun r hr => h.keeps r fun hv => hr (hw r hv)⟩

theorem Kept.ite {c : Prop} [Decidable c] (h : Kept W m a) (h' : Kept W m b) : Kept W m (if c then a else b) := by
  split <;> assumption

theorem Kept.iteFst {β : Type} {c : Prop} [Decidable c] {x y : Machine × β} (h : Kept W m x.1) (h' : Kept W m y.1) :
    Kept W m (if c then x else y).1 := by
  split <;> assumption

theorem Kept.iteSnd {β : Type} {c : Prop} [Decidable c] {x y : β × Machine} (h : Kept W m x.2) (h' : Kept W m y.2) :
    Kept W m (if c then x else y).2 := by
  split <;> assumption

theorem Kept.foldl {β : Type} {f : Machine → β → Machine} {l : List β} (h : Kept W m a)
    (hf : ∀ x e, Kept W m x → Kept W m (f x e)) : Kept W m (l.foldl f a) := by
  induction l generalizing a with
  | nil => exact h
  | cons e l ih => exact ih (hf a e h)

theorem Kept.cut {p : Prop} {x : Machine} (val : Kept W m x) (main : Kept W m x → p) : p := main val

theorem Kept.ofFst {β : Type} {e : Machine × β} {x : Machine} {y : β} (he : e = (x, y)) (h : Kept W m e.1) : Kept W m x := by
  rw [he] at h; exact h

theorem Kept.ofSnd {β : Type} {e : β × Machine} {x : Machine} {y : β} (he : e = (y, x)) (h : Kept W m e.2) : Kept W m x := by
  rw [he] at h; exact h

/-! ### A kept area reads as before -/

theorem Kept.pins (h : Kept W m a) (hw : Area.pins ∉ W) : a.pins = m.pins := h.keeps .pins hw
theorem Kept.fuse (h : Kept W m a) (hw : Area.fuse ∉ W) : a.fuse = m.fuse := h.keeps .fuse hw
theorem Kept.boot (h : Kept W m a) (hw : Area.boot ∉ W) : a.boot = m.boot := h.keeps .boot hw
theorem Kept.time (h : Kept W m a) (hw : Area.time ∉ W) : a.time = m.time := h.keeps .time hw
theorem Kept.corner (h : Kept W m a) (hw : Area.corner ∉ W) : a.corner = m.corner := h.keeps .corner hw
theorem Kept.shr (h : Kept W m a) (hw : Area.shr ∉ W) : a.shr = m.shr := h.keeps .shr hw
theorem Kept.fwd (h : Kept W m a) (hw : Area.fwd ∉ W) : a.fwd = m.fwd := h.keeps .fwd hw
theorem Kept.txSeq (h : Kept W m a) (hw : Area.txSeq ∉ W) : a.txSeq = m.txSeq := h.keeps .txSeq hw
theorem Kept.txn (h : Kept W m a) (hw : Area.txn ∉ W) : a.txn = m.txn := h.keeps .txn hw
theorem Kept.coll (h : Kept W m a) (hw : Area.coll ∉ W) : a.coll = m.coll := h.keeps .coll hw
theorem Kept.collFailed (h : Kept W m a) (hw : Area.collFailed ∉ W) : a.collFailed = m.collFailed := h.keeps .collFailed hw
theorem Kept.tiles (h : Kept W m a) (hw : Area.tiles ∉ W) : a.tiles = m.tiles := h.keeps .tiles hw
theorem Kept.tileMap (h : Kept W m a) (hw : Area.tileMap ∉ W) : a.tileMap = m.tileMap := h.keeps .tileMap hw
theorem Kept.tilePhys (h : Kept W m a) (hw : Area.tilePhys ∉ W) : a.tilePhys = m.tilePhys := h.keeps .tilePhys hw
theorem Kept.hbm (h : Kept W m a) (hw : Area.hbm ∉ W) : a.hbm = m.hbm := h.keeps .hbm hw
theorem Kept.strm (h : Kept W m a) (hw : Area.strm ∉ W) : a.strm = m.strm := h.keeps .strm hw
theorem Kept.luff (h : Kept W m a) (hw : Area.luff ∉ W) : a.luff = m.luff := h.keeps .luff hw
theorem Kept.hly (h : Kept W m a) (hw : Area.hly ∉ W) : a.hly = m.hly := h.keeps .hly hw
theorem Kept.tkp (h : Kept W m a) (hw : Area.tkp ∉ W) : a.tkp = m.tkp := h.keeps .tkp hw
theorem Kept.slc (h : Kept W m a) (hw : Area.slc ∉ W) : a.slc = m.slc := h.keeps .slc hw
theorem Kept.part (h : Kept W m a) (hw : Area.part ∉ W) : a.part = m.part := h.keeps .part hw
theorem Kept.ctx (h : Kept W m a) (hw : Area.ctx ∉ W) : a.ctx = m.ctx := h.keeps .ctx hw
theorem Kept.ctxCmd (h : Kept W m a) (hw : Area.ctxCmd ∉ W) : a.ctxCmd = m.ctxCmd := h.keeps .ctxCmd hw
theorem Kept.ttl (h : Kept W m a) (hw : Area.ttl ∉ W) : a.ttl = m.ttl := h.keeps .ttl hw
theorem Kept.acc (h : Kept W m a) (hw : Area.acc ∉ W) : a.acc = m.acc := h.keeps .acc hw
theorem Kept.reef (h : Kept W m a) (hw : Area.reef ∉ W) : a.reef = m.reef := h.keeps .reef hw
theorem Kept.hst (h : Kept W m a) (hw : Area.hst ∉ W) : a.hst = m.hst := h.keeps .hst hw
theorem Kept.eng (h : Kept W m a) (hw : Area.eng ∉ W) : a.eng = m.eng := h.keeps .eng hw
theorem Kept.msix (h : Kept W m a) (hw : Area.msix ∉ W) : a.msix = m.msix := h.keeps .msix hw
theorem Kept.hostMem (h : Kept W m a) (hw : Area.hostMem ∉ W) : a.hostMem = m.hostMem := h.keeps .hostMem hw
theorem Kept.flash (h : Kept W m a) (hw : Area.flash ∉ W) : a.flash = m.flash := h.keeps .flash hw
theorem Kept.far (h : Kept W m a) (hw : Area.far ∉ W) : a.far = m.far := h.keeps .far hw
theorem Kept.scan (h : Kept W m a) (hw : Area.scan ∉ W) : a.scan = m.scan := h.keeps .scan hw
theorem Kept.card (h : Kept W m a) (hw : Area.card ∉ W) : a.card = m.card := h.keeps .card hw
theorem Kept.free (h : Kept W m a) (hw : Area.free ∉ W) : a.free = m.free := h.keeps .free hw
theorem Kept.out (h : Kept W m a) (hw : Area.out ∉ W) : a.out = m.out := h.keeps .out hw

/-! ### Updates -/

/-- The machine with pins replaced. -/
def Machine.upd_pins (a : Machine) (v0 : Pins) : Machine := { a with pins := v0 }
theorem Machine.upd_pins_eq (v0 : Pins) : { a with pins := v0 } = a.upd_pins v0 := rfl
theorem Kept.set_pins {v0 : Pins} (h : Kept W m a) (w0 : Area.pins ∈ W) : Kept W m (a.upd_pins v0) :=
  h.of_agrees fun r hr => by cases r <;> first | exact rfl | exact absurd ‹_› hr
/-- The machine with fuse replaced. -/
def Machine.upd_fuse (a : Machine) (v0 : Fuse) : Machine := { a with fuse := v0 }
theorem Machine.upd_fuse_eq (v0 : Fuse) : { a with fuse := v0 } = a.upd_fuse v0 := rfl
theorem Kept.set_fuse {v0 : Fuse} (h : Kept W m a) (w0 : Area.fuse ∈ W) : Kept W m (a.upd_fuse v0) :=
  h.of_agrees fun r hr => by cases r <;> first | exact rfl | exact absurd ‹_› hr
/-- The machine with boot replaced. -/
def Machine.upd_boot (a : Machine) (v0 : Boot) : Machine := { a with boot := v0 }
theorem Machine.upd_boot_eq (v0 : Boot) : { a with boot := v0 } = a.upd_boot v0 := rfl
theorem Kept.set_boot {v0 : Boot} (h : Kept W m a) (w0 : Area.boot ∈ W) : Kept W m (a.upd_boot v0) :=
  h.of_agrees fun r hr => by cases r <;> first | exact rfl | exact absurd ‹_› hr
/-- The machine with time replaced. -/
def Machine.upd_time (a : Machine) (v0 : TimeBlk) : Machine := { a with time := v0 }
theorem Machine.upd_time_eq (v0 : TimeBlk) : { a with time := v0 } = a.upd_time v0 := rfl
theorem Kept.set_time {v0 : TimeBlk} (h : Kept W m a) (w0 : Area.time ∈ W) : Kept W m (a.upd_time v0) :=
  h.of_agrees fun r hr => by cases r <;> first | exact rfl | exact absurd ‹_› hr
/-- The machine with corner replaced. -/
def Machine.upd_corner (a : Machine) (v0 : Corner) : Machine := { a with corner := v0 }
theorem Machine.upd_corner_eq (v0 : Corner) : { a with corner := v0 } = a.upd_corner v0 := rfl
theorem Kept.set_corner {v0 : Corner} (h : Kept W m a) (w0 : Area.corner ∈ W) : Kept W m (a.upd_corner v0) :=
  h.of_agrees fun r hr => by cases r <;> first | exact rfl | exact absurd ‹_› hr
/-- The machine with shr replaced. -/
def Machine.upd_shr (a : Machine) (v0 : Shr) : Machine := { a with shr := v0 }
theorem Machine.upd_shr_eq (v0 : Shr) : { a with shr := v0 } = a.upd_shr v0 := rfl
theorem Kept.set_shr {v0 : Shr} (h : Kept W m a) (w0 : Area.shr ∈ W) : Kept W m (a.upd_shr v0) :=
  h.of_agrees fun r hr => by cases r <;> first | exact rfl | exact absurd ‹_› hr
/-- The machine with fwd replaced. -/
def Machine.upd_fwd (a : Machine) (v0 : Table FwdRec) : Machine := { a with fwd := v0 }
theorem Machine.upd_fwd_eq (v0 : Table FwdRec) : { a with fwd := v0 } = a.upd_fwd v0 := rfl
theorem Kept.set_fwd {v0 : Table FwdRec} (h : Kept W m a) (w0 : Area.fwd ∈ W) : Kept W m (a.upd_fwd v0) :=
  h.of_agrees fun r hr => by cases r <;> first | exact rfl | exact absurd ‹_› hr
/-- The machine with txSeq replaced. -/
def Machine.upd_txSeq (a : Machine) (v0 : Table Nat) : Machine := { a with txSeq := v0 }
theorem Machine.upd_txSeq_eq (v0 : Table Nat) : { a with txSeq := v0 } = a.upd_txSeq v0 := rfl
theorem Kept.set_txSeq {v0 : Table Nat} (h : Kept W m a) (w0 : Area.txSeq ∈ W) : Kept W m (a.upd_txSeq v0) :=
  h.of_agrees fun r hr => by cases r <;> first | exact rfl | exact absurd ‹_› hr
/-- The machine with txn replaced. -/
def Machine.upd_txn (a : Machine) (v0 : Table (Option TxnRec)) : Machine := { a with txn := v0 }
theorem Machine.upd_txn_eq (v0 : Table (Option TxnRec)) : { a with txn := v0 } = a.upd_txn v0 := rfl
theorem Kept.set_txn {v0 : Table (Option TxnRec)} (h : Kept W m a) (w0 : Area.txn ∈ W) : Kept W m (a.upd_txn v0) :=
  h.of_agrees fun r hr => by cases r <;> first | exact rfl | exact absurd ‹_› hr
/-- The machine with coll replaced. -/
def Machine.upd_coll (a : Machine) (v0 : Table (Option CollRec)) : Machine := { a with coll := v0 }
theorem Machine.upd_coll_eq (v0 : Table (Option CollRec)) : { a with coll := v0 } = a.upd_coll v0 := rfl
theorem Kept.set_coll {v0 : Table (Option CollRec)} (h : Kept W m a) (w0 : Area.coll ∈ W) : Kept W m (a.upd_coll v0) :=
  h.of_agrees fun r hr => by cases r <;> first | exact rfl | exact absurd ‹_› hr
/-- The machine with collFailed replaced. -/
def Machine.upd_collFailed (a : Machine) (v0 : List Nat) : Machine := { a with collFailed := v0 }
theorem Machine.upd_collFailed_eq (v0 : List Nat) : { a with collFailed := v0 } = a.upd_collFailed v0 := rfl
theorem Kept.set_collFailed {v0 : List Nat} (h : Kept W m a) (w0 : Area.collFailed ∈ W) : Kept W m (a.upd_collFailed v0) :=
  h.of_agrees fun r hr => by cases r <;> first | exact rfl | exact absurd ‹_› hr
/-- The machine with tiles replaced. -/
def Machine.upd_tiles (a : Machine) (v0 : Table TileRec) : Machine := { a with tiles := v0 }
theorem Machine.upd_tiles_eq (v0 : Table TileRec) : { a with tiles := v0 } = a.upd_tiles v0 := rfl
theorem Kept.set_tiles {v0 : Table TileRec} (h : Kept W m a) (w0 : Area.tiles ∈ W) : Kept W m (a.upd_tiles v0) :=
  h.of_agrees fun r hr => by cases r <;> first | exact rfl | exact absurd ‹_› hr
/-- The machine with tileMap replaced. -/
def Machine.upd_tileMap (a : Machine) (v0 : Table TileMapRec) : Machine := { a with tileMap := v0 }
theorem Machine.upd_tileMap_eq (v0 : Table TileMapRec) : { a with tileMap := v0 } = a.upd_tileMap v0 := rfl
theorem Kept.set_tileMap {v0 : Table TileMapRec} (h : Kept W m a) (w0 : Area.tileMap ∈ W) : Kept W m (a.upd_tileMap v0) :=
  h.of_agrees fun r hr => by cases r <;> first | exact rfl | exact absurd ‹_› hr
/-- The machine with tilePhys replaced. -/
def Machine.upd_tilePhys (a : Machine) (v0 : Table PhysRec) : Machine := { a with tilePhys := v0 }
theorem Machine.upd_tilePhys_eq (v0 : Table PhysRec) : { a with tilePhys := v0 } = a.upd_tilePhys v0 := rfl
theorem Kept.set_tilePhys {v0 : Table PhysRec} (h : Kept W m a) (w0 : Area.tilePhys ∈ W) : Kept W m (a.upd_tilePhys v0) :=
  h.of_agrees fun r hr => by cases r <;> first | exact rfl | exact absurd ‹_› hr
/-- The machine with hbm replaced. -/
def Machine.upd_hbm (a : Machine) (v0 : Hbm) : Machine := { a with hbm := v0 }
theorem Machine.upd_hbm_eq (v0 : Hbm) : { a with hbm := v0 } = a.upd_hbm v0 := rfl
theorem Kept.set_hbm {v0 : Hbm} (h : Kept W m a) (w0 : Area.hbm ∈ W) : Kept W m (a.upd_hbm v0) :=
  h.of_agrees fun r hr => by cases r <;> first | exact rfl | exact absurd ‹_› hr
/-- The machine with strm replaced. -/
def Machine.upd_strm (a : Machine) (v0 : Strm) : Machine := { a with strm := v0 }
theorem Machine.upd_strm_eq (v0 : Strm) : { a with strm := v0 } = a.upd_strm v0 := rfl
theorem Kept.set_strm {v0 : Strm} (h : Kept W m a) (w0 : Area.strm ∈ W) : Kept W m (a.upd_strm v0) :=
  h.of_agrees fun r hr => by cases r <;> first | exact rfl | exact absurd ‹_› hr
/-- The machine with luff replaced. -/
def Machine.upd_luff (a : Machine) (v0 : Luff) : Machine := { a with luff := v0 }
theorem Machine.upd_luff_eq (v0 : Luff) : { a with luff := v0 } = a.upd_luff v0 := rfl
theorem Kept.set_luff {v0 : Luff} (h : Kept W m a) (w0 : Area.luff ∈ W) : Kept W m (a.upd_luff v0) :=
  h.of_agrees fun r hr => by cases r <;> first | exact rfl | exact absurd ‹_› hr
/-- The machine with hly replaced. -/
def Machine.upd_hly (a : Machine) (v0 : Hly) : Machine := { a with hly := v0 }
theorem Machine.upd_hly_eq (v0 : Hly) : { a with hly := v0 } = a.upd_hly v0 := rfl
theorem Kept.set_hly {v0 : Hly} (h : Kept W m a) (w0 : Area.hly ∈ W) : Kept W m (a.upd_hly v0) :=
  h.of_agrees fun r hr => by cases r <;> first | exact rfl | exact absurd ‹_› hr
/-- The machine with tkp replaced. -/
def Machine.upd_tkp (a : Machine) (v0 : Tkp) : Machine := { a with tkp := v0 }
theorem Machine.upd_tkp_eq (v0 : Tkp) : { a with tkp := v0 } = a.upd_tkp v0 := rfl
theorem Kept.set_tkp {v0 : Tkp} (h : Kept W m a) (w0 : Area.tkp ∈ W) : Kept W m (a.upd_tkp v0) :=
  h.of_agrees fun r hr => by cases r <;> first | exact rfl | exact absurd ‹_› hr
/-- The machine with slc replaced. -/
def Machine.upd_slc (a : Machine) (v0 : Slc) : Machine := { a with slc := v0 }
theorem Machine.upd_slc_eq (v0 : Slc) : { a with slc := v0 } = a.upd_slc v0 := rfl
theorem Kept.set_slc {v0 : Slc} (h : Kept W m a) (w0 : Area.slc ∈ W) : Kept W m (a.upd_slc v0) :=
  h.of_agrees fun r hr => by cases r <;> first | exact rfl | exact absurd ‹_› hr
/-- The machine with part replaced. -/
def Machine.upd_part (a : Machine) (v0 : Part) : Machine := { a with part := v0 }
theorem Machine.upd_part_eq (v0 : Part) : { a with part := v0 } = a.upd_part v0 := rfl
theorem Kept.set_part {v0 : Part} (h : Kept W m a) (w0 : Area.part ∈ W) : Kept W m (a.upd_part v0) :=
  h.of_agrees fun r hr => by cases r <;> first | exact rfl | exact absurd ‹_› hr
/-- The machine with ctx replaced. -/
def Machine.upd_ctx (a : Machine) (v0 : Table CtxRec) : Machine := { a with ctx := v0 }
theorem Machine.upd_ctx_eq (v0 : Table CtxRec) : { a with ctx := v0 } = a.upd_ctx v0 := rfl
theorem Kept.set_ctx {v0 : Table CtxRec} (h : Kept W m a) (w0 : Area.ctx ∈ W) : Kept W m (a.upd_ctx v0) :=
  h.of_agrees fun r hr => by cases r <;> first | exact rfl | exact absurd ‹_› hr
/-- The machine with ctxCmd replaced. -/
def Machine.upd_ctxCmd (a : Machine) (v0 : CtxCmd) : Machine := { a with ctxCmd := v0 }
theorem Machine.upd_ctxCmd_eq (v0 : CtxCmd) : { a with ctxCmd := v0 } = a.upd_ctxCmd v0 := rfl
theorem Kept.set_ctxCmd {v0 : CtxCmd} (h : Kept W m a) (w0 : Area.ctxCmd ∈ W) : Kept W m (a.upd_ctxCmd v0) :=
  h.of_agrees fun r hr => by cases r <;> first | exact rfl | exact absurd ‹_› hr
/-- The machine with ttl replaced. -/
def Machine.upd_ttl (a : Machine) (v0 : Ttl) : Machine := { a with ttl := v0 }
theorem Machine.upd_ttl_eq (v0 : Ttl) : { a with ttl := v0 } = a.upd_ttl v0 := rfl
theorem Kept.set_ttl {v0 : Ttl} (h : Kept W m a) (w0 : Area.ttl ∈ W) : Kept W m (a.upd_ttl v0) :=
  h.of_agrees fun r hr => by cases r <;> first | exact rfl | exact absurd ‹_› hr
/-- The machine with acc replaced. -/
def Machine.upd_acc (a : Machine) (v0 : AccErr) : Machine := { a with acc := v0 }
theorem Machine.upd_acc_eq (v0 : AccErr) : { a with acc := v0 } = a.upd_acc v0 := rfl
theorem Kept.set_acc {v0 : AccErr} (h : Kept W m a) (w0 : Area.acc ∈ W) : Kept W m (a.upd_acc v0) :=
  h.of_agrees fun r hr => by cases r <;> first | exact rfl | exact absurd ‹_› hr
/-- The machine with reef replaced. -/
def Machine.upd_reef (a : Machine) (v0 : Reef) : Machine := { a with reef := v0 }
theorem Machine.upd_reef_eq (v0 : Reef) : { a with reef := v0 } = a.upd_reef v0 := rfl
theorem Kept.set_reef {v0 : Reef} (h : Kept W m a) (w0 : Area.reef ∈ W) : Kept W m (a.upd_reef v0) :=
  h.of_agrees fun r hr => by cases r <;> first | exact rfl | exact absurd ‹_› hr
/-- The machine with hst replaced. -/
def Machine.upd_hst (a : Machine) (v0 : Hst) : Machine := { a with hst := v0 }
theorem Machine.upd_hst_eq (v0 : Hst) : { a with hst := v0 } = a.upd_hst v0 := rfl
theorem Kept.set_hst {v0 : Hst} (h : Kept W m a) (w0 : Area.hst ∈ W) : Kept W m (a.upd_hst v0) :=
  h.of_agrees fun r hr => by cases r <;> first | exact rfl | exact absurd ‹_› hr
/-- The machine with eng replaced. -/
def Machine.upd_eng (a : Machine) (v0 : Table CeEng) : Machine := { a with eng := v0 }
theorem Machine.upd_eng_eq (v0 : Table CeEng) : { a with eng := v0 } = a.upd_eng v0 := rfl
theorem Kept.set_eng {v0 : Table CeEng} (h : Kept W m a) (w0 : Area.eng ∈ W) : Kept W m (a.upd_eng v0) :=
  h.of_agrees fun r hr => by cases r <;> first | exact rfl | exact absurd ‹_› hr
/-- The machine with msix replaced. -/
def Machine.upd_msix (a : Machine) (v0 : Table Msix) : Machine := { a with msix := v0 }
theorem Machine.upd_msix_eq (v0 : Table Msix) : { a with msix := v0 } = a.upd_msix v0 := rfl
theorem Kept.set_msix {v0 : Table Msix} (h : Kept W m a) (w0 : Area.msix ∈ W) : Kept W m (a.upd_msix v0) :=
  h.of_agrees fun r hr => by cases r <;> first | exact rfl | exact absurd ‹_› hr
/-- The machine with hostMem replaced. -/
def Machine.upd_hostMem (a : Machine) (v0 : Table Byte) : Machine := { a with hostMem := v0 }
theorem Machine.upd_hostMem_eq (v0 : Table Byte) : { a with hostMem := v0 } = a.upd_hostMem v0 := rfl
theorem Kept.set_hostMem {v0 : Table Byte} (h : Kept W m a) (w0 : Area.hostMem ∈ W) : Kept W m (a.upd_hostMem v0) :=
  h.of_agrees fun r hr => by cases r <;> first | exact rfl | exact absurd ‹_› hr
/-- The machine with flash replaced. -/
def Machine.upd_flash (a : Machine) (v0 : Table Byte) : Machine := { a with flash := v0 }
theorem Machine.upd_flash_eq (v0 : Table Byte) : { a with flash := v0 } = a.upd_flash v0 := rfl
theorem Kept.set_flash {v0 : Table Byte} (h : Kept W m a) (w0 : Area.flash ∈ W) : Kept W m (a.upd_flash v0) :=
  h.of_agrees fun r hr => by cases r <;> first | exact rfl | exact absurd ‹_› hr
/-- The machine with far replaced. -/
def Machine.upd_far (a : Machine) (v0 : Farnis) : Machine := { a with far := v0 }
theorem Machine.upd_far_eq (v0 : Farnis) : { a with far := v0 } = a.upd_far v0 := rfl
theorem Kept.set_far {v0 : Farnis} (h : Kept W m a) (w0 : Area.far ∈ W) : Kept W m (a.upd_far v0) :=
  h.of_agrees fun r hr => by cases r <;> first | exact rfl | exact absurd ‹_› hr
/-- The machine with scan replaced. -/
def Machine.upd_scan (a : Machine) (v0 : Scan) : Machine := { a with scan := v0 }
theorem Machine.upd_scan_eq (v0 : Scan) : { a with scan := v0 } = a.upd_scan v0 := rfl
theorem Kept.set_scan {v0 : Scan} (h : Kept W m a) (w0 : Area.scan ∈ W) : Kept W m (a.upd_scan v0) :=
  h.of_agrees fun r hr => by cases r <;> first | exact rfl | exact absurd ‹_› hr
/-- The machine with card replaced. -/
def Machine.upd_card (a : Machine) (v0 : Card) : Machine := { a with card := v0 }
theorem Machine.upd_card_eq (v0 : Card) : { a with card := v0 } = a.upd_card v0 := rfl
theorem Kept.set_card {v0 : Card} (h : Kept W m a) (w0 : Area.card ∈ W) : Kept W m (a.upd_card v0) :=
  h.of_agrees fun r hr => by cases r <;> first | exact rfl | exact absurd ‹_› hr
/-- The machine with free replaced. -/
def Machine.upd_free (a : Machine) (v0 : Nat) : Machine := { a with free := v0 }
theorem Machine.upd_free_eq (v0 : Nat) : { a with free := v0 } = a.upd_free v0 := rfl
theorem Kept.set_free {v0 : Nat} (h : Kept W m a) (w0 : Area.free ∈ W) : Kept W m (a.upd_free v0) :=
  h.of_agrees fun r hr => by cases r <;> first | exact rfl | exact absurd ‹_› hr
/-- The machine with out replaced. -/
def Machine.upd_out (a : Machine) (v0 : List Out) : Machine := { a with out := v0 }
theorem Machine.upd_out_eq (v0 : List Out) : { a with out := v0 } = a.upd_out v0 := rfl
theorem Kept.set_out {v0 : List Out} (h : Kept W m a) (w0 : Area.out ∈ W) : Kept W m (a.upd_out v0) :=
  h.of_agrees fun r hr => by cases r <;> first | exact rfl | exact absurd ‹_› hr
/-- The machine with boot, flash replaced. -/
def Machine.upd_boot_flash (a : Machine) (v0 : Boot) (v1 : Table Byte) : Machine := { a with boot := v0, flash := v1 }
theorem Machine.upd_boot_flash_eq (v0 : Boot) (v1 : Table Byte) : { a with boot := v0, flash := v1 } = a.upd_boot_flash v0 v1 := rfl
theorem Kept.set_boot_flash {v0 : Boot} {v1 : Table Byte} (h : Kept W m a) (w0 : Area.boot ∈ W) (w1 : Area.flash ∈ W) : Kept W m (a.upd_boot_flash v0 v1) :=
  h.of_agrees fun r hr => by cases r <;> first | exact rfl | exact absurd ‹_› hr
/-- The machine with corner, shr, hbm, part, reef, eng replaced. -/
def Machine.upd_corner_shr_hbm_part_reef_eng (a : Machine) (v0 : Corner) (v1 : Shr) (v2 : Hbm) (v3 : Part) (v4 : Reef) (v5 : Table CeEng) : Machine := { a with corner := v0, shr := v1, hbm := v2, part := v3, reef := v4, eng := v5 }
theorem Machine.upd_corner_shr_hbm_part_reef_eng_eq (v0 : Corner) (v1 : Shr) (v2 : Hbm) (v3 : Part) (v4 : Reef) (v5 : Table CeEng) : { a with corner := v0, shr := v1, hbm := v2, part := v3, reef := v4, eng := v5 } = a.upd_corner_shr_hbm_part_reef_eng v0 v1 v2 v3 v4 v5 := rfl
theorem Kept.set_corner_shr_hbm_part_reef_eng {v0 : Corner} {v1 : Shr} {v2 : Hbm} {v3 : Part} {v4 : Reef} {v5 : Table CeEng} (h : Kept W m a) (w0 : Area.corner ∈ W) (w1 : Area.shr ∈ W) (w2 : Area.hbm ∈ W) (w3 : Area.part ∈ W) (w4 : Area.reef ∈ W) (w5 : Area.eng ∈ W) : Kept W m (a.upd_corner_shr_hbm_part_reef_eng v0 v1 v2 v3 v4 v5) :=
  h.of_agrees fun r hr => by cases r <;> first | exact rfl | exact absurd ‹_› hr
/-- The machine with shr, reef replaced. -/
def Machine.upd_shr_reef (a : Machine) (v0 : Shr) (v1 : Reef) : Machine := { a with shr := v0, reef := v1 }
theorem Machine.upd_shr_reef_eq (v0 : Shr) (v1 : Reef) : { a with shr := v0, reef := v1 } = a.upd_shr_reef v0 v1 := rfl
theorem Kept.set_shr_reef {v0 : Shr} {v1 : Reef} (h : Kept W m a) (w0 : Area.shr ∈ W) (w1 : Area.reef ∈ W) : Kept W m (a.upd_shr_reef v0 v1) :=
  h.of_agrees fun r hr => by cases r <;> first | exact rfl | exact absurd ‹_› hr
/-- The machine with txn, coll replaced. -/
def Machine.upd_txn_coll (a : Machine) (v0 : Table (Option TxnRec)) (v1 : Table (Option CollRec)) : Machine := { a with txn := v0, coll := v1 }
theorem Machine.upd_txn_coll_eq (v0 : Table (Option TxnRec)) (v1 : Table (Option CollRec)) : { a with txn := v0, coll := v1 } = a.upd_txn_coll v0 v1 := rfl
theorem Kept.set_txn_coll {v0 : Table (Option TxnRec)} {v1 : Table (Option CollRec)} (h : Kept W m a) (w0 : Area.txn ∈ W) (w1 : Area.coll ∈ W) : Kept W m (a.upd_txn_coll v0 v1) :=
  h.of_agrees fun r hr => by cases r <;> first | exact rfl | exact absurd ‹_› hr
/-- The machine with txn, strm, luff, part replaced. -/
def Machine.upd_txn_strm_luff_part (a : Machine) (v0 : Table (Option TxnRec)) (v1 : Strm) (v2 : Luff) (v3 : Part) : Machine := { a with txn := v0, strm := v1, luff := v2, part := v3 }
theorem Machine.upd_txn_strm_luff_part_eq (v0 : Table (Option TxnRec)) (v1 : Strm) (v2 : Luff) (v3 : Part) : { a with txn := v0, strm := v1, luff := v2, part := v3 } = a.upd_txn_strm_luff_part v0 v1 v2 v3 := rfl
theorem Kept.set_txn_strm_luff_part {v0 : Table (Option TxnRec)} {v1 : Strm} {v2 : Luff} {v3 : Part} (h : Kept W m a) (w0 : Area.txn ∈ W) (w1 : Area.strm ∈ W) (w2 : Area.luff ∈ W) (w3 : Area.part ∈ W) : Kept W m (a.upd_txn_strm_luff_part v0 v1 v2 v3) :=
  h.of_agrees fun r hr => by cases r <;> first | exact rfl | exact absurd ‹_› hr
/-- The machine with coll, collFailed, tiles, hbm, luff replaced. -/
def Machine.upd_coll_collFailed_tiles_hbm_luff (a : Machine) (v0 : Table (Option CollRec)) (v1 : List Nat) (v2 : Table TileRec) (v3 : Hbm) (v4 : Luff) : Machine := { a with coll := v0, collFailed := v1, tiles := v2, hbm := v3, luff := v4 }
theorem Machine.upd_coll_collFailed_tiles_hbm_luff_eq (v0 : Table (Option CollRec)) (v1 : List Nat) (v2 : Table TileRec) (v3 : Hbm) (v4 : Luff) : { a with coll := v0, collFailed := v1, tiles := v2, hbm := v3, luff := v4 } = a.upd_coll_collFailed_tiles_hbm_luff v0 v1 v2 v3 v4 := rfl
theorem Kept.set_coll_collFailed_tiles_hbm_luff {v0 : Table (Option CollRec)} {v1 : List Nat} {v2 : Table TileRec} {v3 : Hbm} {v4 : Luff} (h : Kept W m a) (w0 : Area.coll ∈ W) (w1 : Area.collFailed ∈ W) (w2 : Area.tiles ∈ W) (w3 : Area.hbm ∈ W) (w4 : Area.luff ∈ W) : Kept W m (a.upd_coll_collFailed_tiles_hbm_luff v0 v1 v2 v3 v4) :=
  h.of_agrees fun r hr => by cases r <;> first | exact rfl | exact absurd ‹_› hr
/-- The machine with collFailed, luff replaced. -/
def Machine.upd_collFailed_luff (a : Machine) (v0 : List Nat) (v1 : Luff) : Machine := { a with collFailed := v0, luff := v1 }
theorem Machine.upd_collFailed_luff_eq (v0 : List Nat) (v1 : Luff) : { a with collFailed := v0, luff := v1 } = a.upd_collFailed_luff v0 v1 := rfl
theorem Kept.set_collFailed_luff {v0 : List Nat} {v1 : Luff} (h : Kept W m a) (w0 : Area.collFailed ∈ W) (w1 : Area.luff ∈ W) : Kept W m (a.upd_collFailed_luff v0 v1) :=
  h.of_agrees fun r hr => by cases r <;> first | exact rfl | exact absurd ‹_› hr
/-- The machine with hbm, luff replaced. -/
def Machine.upd_hbm_luff (a : Machine) (v0 : Hbm) (v1 : Luff) : Machine := { a with hbm := v0, luff := v1 }
theorem Machine.upd_hbm_luff_eq (v0 : Hbm) (v1 : Luff) : { a with hbm := v0, luff := v1 } = a.upd_hbm_luff v0 v1 := rfl
theorem Kept.set_hbm_luff {v0 : Hbm} {v1 : Luff} (h : Kept W m a) (w0 : Area.hbm ∈ W) (w1 : Area.luff ∈ W) : Kept W m (a.upd_hbm_luff v0 v1) :=
  h.of_agrees fun r hr => by cases r <;> first | exact rfl | exact absurd ‹_› hr
/-- The machine with luff, free replaced. -/
def Machine.upd_luff_free (a : Machine) (v0 : Luff) (v1 : Nat) : Machine := { a with luff := v0, free := v1 }
theorem Machine.upd_luff_free_eq (v0 : Luff) (v1 : Nat) : { a with luff := v0, free := v1 } = a.upd_luff_free v0 v1 := rfl
theorem Kept.set_luff_free {v0 : Luff} {v1 : Nat} (h : Kept W m a) (w0 : Area.luff ∈ W) (w1 : Area.free ∈ W) : Kept W m (a.upd_luff_free v0 v1) :=
  h.of_agrees fun r hr => by cases r <;> first | exact rfl | exact absurd ‹_› hr
/-- The machine with hly, tkp replaced. -/
def Machine.upd_hly_tkp (a : Machine) (v0 : Hly) (v1 : Tkp) : Machine := { a with hly := v0, tkp := v1 }
theorem Machine.upd_hly_tkp_eq (v0 : Hly) (v1 : Tkp) : { a with hly := v0, tkp := v1 } = a.upd_hly_tkp v0 v1 := rfl
theorem Kept.set_hly_tkp {v0 : Hly} {v1 : Tkp} (h : Kept W m a) (w0 : Area.hly ∈ W) (w1 : Area.tkp ∈ W) : Kept W m (a.upd_hly_tkp v0 v1) :=
  h.of_agrees fun r hr => by cases r <;> first | exact rfl | exact absurd ‹_› hr
/-- The machine with hly, tkp, slc replaced. -/
def Machine.upd_hly_tkp_slc (a : Machine) (v0 : Hly) (v1 : Tkp) (v2 : Slc) : Machine := { a with hly := v0, tkp := v1, slc := v2 }
theorem Machine.upd_hly_tkp_slc_eq (v0 : Hly) (v1 : Tkp) (v2 : Slc) : { a with hly := v0, tkp := v1, slc := v2 } = a.upd_hly_tkp_slc v0 v1 v2 := rfl
theorem Kept.set_hly_tkp_slc {v0 : Hly} {v1 : Tkp} {v2 : Slc} (h : Kept W m a) (w0 : Area.hly ∈ W) (w1 : Area.tkp ∈ W) (w2 : Area.slc ∈ W) : Kept W m (a.upd_hly_tkp_slc v0 v1 v2) :=
  h.of_agrees fun r hr => by cases r <;> first | exact rfl | exact absurd ‹_› hr

end Sys2Proof.Machine
end

