-- ==== Sys2Proof/Laws/KeptShared.lean ====
section
/-!
SUPPORT. Frames of the shared operations, HLY records and the boot journal: one lemma per operation, naming the blocks it may write; it
keeps every other block.
-/
set_option linter.tactic.unusedName false
set_option linter.unusedSimpArgs false
namespace Sys2Proof.Machine

variable {W : List Area} {m a : Machine}

/-! ### Ops -/

theorem setPort_kept (h : Kept W m a) (x1 : Nat) (x2 : PortRec) (w0 : Area.shr ∈ W) : Kept W m (Machine.setPort a x1 x2) := by
  unfold Machine.setPort
  simp -zeta -iota -proj only [Machine.upd_shr_eq]
  with_reducible repeat' first
    | assumption | apply Kept.set_shr | intro _ | apply Kept.ite | apply Kept.foldl | split

theorem modPort_kept (h : Kept W m a) (x1 : Nat) (x2 : PortRec → PortRec) (w0 : Area.shr ∈ W) : Kept W m (Machine.modPort a x1 x2) := by
  unfold Machine.modPort
  with_reducible repeat' first
    | assumption | apply setPort_kept | intro _ | apply Kept.ite | apply Kept.foldl | split

theorem setFwd_kept (h : Kept W m a) (x1 : Nat) (x2 : FwdRec) (w0 : Area.fwd ∈ W) : Kept W m (Machine.setFwd a x1 x2) := by
  unfold Machine.setFwd
  simp -zeta -iota -proj only [Machine.upd_fwd_eq]
  with_reducible repeat' first
    | assumption | apply Kept.set_fwd | intro _ | apply Kept.ite | apply Kept.foldl | split

theorem modFwd_kept (h : Kept W m a) (x1 : Nat) (x2 : FwdRec → FwdRec) (w0 : Area.fwd ∈ W) : Kept W m (Machine.modFwd a x1 x2) := by
  unfold Machine.modFwd
  with_reducible repeat' first
    | assumption | apply setFwd_kept | intro _ | apply Kept.ite | apply Kept.foldl | split

theorem modFwdCnt_kept (h : Kept W m a) (x1 : Nat) (x2 : FwdCnt → FwdCnt) (w0 : Area.fwd ∈ W) : Kept W m (Machine.modFwdCnt a x1 x2) := by
  unfold Machine.modFwdCnt
  with_reducible repeat' first
    | assumption | apply modFwd_kept | intro _ | apply Kept.ite | apply Kept.foldl | split

theorem setCtx_kept (h : Kept W m a) (x1 : Nat) (x2 : CtxRec) (w0 : Area.ctx ∈ W) : Kept W m (Machine.setCtx a x1 x2) := by
  unfold Machine.setCtx
  simp -zeta -iota -proj only [Machine.upd_ctx_eq]
  with_reducible repeat' first
    | assumption | apply Kept.set_ctx | intro _ | apply Kept.ite | apply Kept.foldl | split

theorem modCtx_kept (h : Kept W m a) (x1 : Nat) (x2 : CtxRec → CtxRec) (w0 : Area.ctx ∈ W) : Kept W m (Machine.modCtx a x1 x2) := by
  unfold Machine.modCtx
  with_reducible repeat' first
    | assumption | apply setCtx_kept | intro _ | apply Kept.ite | apply Kept.foldl | split

theorem modBase_kept (h : Kept W m a) (x1 : Nat) (x2 : CtxBase → CtxBase) (w0 : Area.ctx ∈ W) : Kept W m (Machine.modBase a x1 x2) := by
  unfold Machine.modBase
  with_reducible repeat' first
    | assumption | apply modCtx_kept | intro _ | apply Kept.ite | apply Kept.foldl | split

theorem setPart_kept (h : Kept W m a) (x1 : Nat) (x2 : PartRec) (w0 : Area.part ∈ W) : Kept W m (Machine.setPart a x1 x2) := by
  unfold Machine.setPart
  simp -zeta -iota -proj only [Machine.upd_part_eq]
  with_reducible repeat' first
    | assumption | apply Kept.set_part | intro _ | apply Kept.ite | apply Kept.foldl | split

theorem modPart_kept (h : Kept W m a) (x1 : Nat) (x2 : PartRec → PartRec) (w0 : Area.part ∈ W) : Kept W m (Machine.modPart a x1 x2) := by
  unfold Machine.modPart
  with_reducible repeat' first
    | assumption | apply setPart_kept | intro _ | apply Kept.ite | apply Kept.foldl | split

theorem setSlice_kept (h : Kept W m a) (x1 : Nat) (x2 : SliceRec) (w0 : Area.slc ∈ W) : Kept W m (Machine.setSlice a x1 x2) := by
  unfold Machine.setSlice
  simp -zeta -iota -proj only [Machine.upd_slc_eq]
  with_reducible repeat' first
    | assumption | apply Kept.set_slc | intro _ | apply Kept.ite | apply Kept.foldl | split

theorem modSlice_kept (h : Kept W m a) (x1 : Nat) (x2 : SliceRec → SliceRec) (w0 : Area.slc ∈ W) : Kept W m (Machine.modSlice a x1 x2) := by
  unfold Machine.modSlice
  with_reducible repeat' first
    | assumption | apply setSlice_kept | intro _ | apply Kept.ite | apply Kept.foldl | split

theorem modHly_kept (h : Kept W m a) (x1 : HlyReg → HlyReg) (w0 : Area.hly ∈ W) : Kept W m (Machine.modHly a x1) := by
  unfold Machine.modHly
  simp -zeta -iota -proj only [Machine.upd_hly_eq]
  with_reducible repeat' first
    | assumption | apply Kept.set_hly | intro _ | apply Kept.ite | apply Kept.foldl | split

theorem modDb_kept (h : Kept W m a) (x1 : HlyDb → HlyDb) (w0 : Area.hly ∈ W) : Kept W m (Machine.modDb a x1) := by
  unfold Machine.modDb
  simp -zeta -iota -proj only [Machine.upd_hly_eq]
  with_reducible repeat' first
    | assumption | apply Kept.set_hly | intro _ | apply Kept.ite | apply Kept.foldl | split

theorem modWork_kept (h : Kept W m a) (x1 : EpochWork → EpochWork) (w0 : Area.hly ∈ W) : Kept W m (Machine.modWork a x1) := by
  unfold Machine.modWork
  simp -zeta -iota -proj only [Machine.upd_hly_eq]
  with_reducible repeat' first
    | assumption | apply Kept.set_hly | intro _ | apply Kept.ite | apply Kept.foldl | split

theorem modTime_kept (h : Kept W m a) (x1 : TimeBlk → TimeBlk) (w0 : Area.time ∈ W) : Kept W m (Machine.modTime a x1) := by
  unfold Machine.modTime
  simp -zeta -iota -proj only [Machine.upd_time_eq]
  with_reducible repeat' first
    | assumption | apply Kept.set_time | intro _ | apply Kept.ite | apply Kept.foldl | split

theorem modTtl_kept (h : Kept W m a) (x1 : Ttl → Ttl) (w0 : Area.ttl ∈ W) : Kept W m (Machine.modTtl a x1) := by
  unfold Machine.modTtl
  simp -zeta -iota -proj only [Machine.upd_ttl_eq]
  with_reducible repeat' first
    | assumption | apply Kept.set_ttl | intro _ | apply Kept.ite | apply Kept.foldl | split

theorem fresh_kept (h : Kept W m a) (w0 : Area.free ∈ W) : Kept W m (Machine.fresh a).2 := by
  unfold Machine.fresh
  simp -zeta -iota -proj only [Machine.upd_free_eq]
  with_reducible repeat' first
    | assumption | apply Kept.set_free | intro _ | apply Kept.ite | apply Kept.foldl | split

theorem tick_kept (h : Kept W m a) (w0 : Area.time ∈ W) : Kept W m (Machine.tick a) := by
  unfold Machine.tick
  with_reducible repeat' first
    | assumption | apply modTime_kept | intro _ | apply Kept.ite | apply Kept.foldl | split

theorem luffStep_kept (h : Kept W m a) (x1 : Nat) (w0 : Area.luff ∈ W) : Kept W m (Machine.luffStep a x1) := by
  unfold Machine.luffStep
  simp -zeta -iota -proj only [Machine.upd_luff_eq]
  with_reducible repeat' first
    | assumption | apply Kept.set_luff | intro _ | apply Kept.ite | apply Kept.foldl | split

theorem hlyItem_kept (h : Kept W m a) (x1 : Nat) (w0 : Area.luff ∈ W) : Kept W m (Machine.hlyItem a x1) := by
  unfold Machine.hlyItem
  with_reducible repeat' first
    | assumption | apply luffStep_kept | intro _ | apply Kept.ite | apply Kept.foldl | split

theorem emit_kept (h : Kept W m a) (x1 : Out) (w0 : Area.out ∈ W) : Kept W m (Machine.emit a x1) := by
  unfold Machine.emit
  simp -zeta -iota -proj only [Machine.upd_out_eq]
  with_reducible repeat' first
    | assumption | apply Kept.set_out | intro _ | apply Kept.ite | apply Kept.foldl | split

theorem tell_kept (h : Kept W m a) (x1 : NodeId) (x2 : Mgmt) (w0 : Area.out ∈ W) : Kept W m (Machine.tell a x1 x2) := by
  unfold Machine.tell
  with_reducible repeat' first
    | assumption | apply emit_kept | intro _ | apply Kept.ite | apply Kept.foldl | split

theorem tellAll_kept (h : Kept W m a) (x1 : List NodeId) (x2 : Mgmt) (w0 : Area.out ∈ W) : Kept W m (Machine.tellAll a x1 x2) := by
  unfold Machine.tellAll
  with_reducible repeat' first
    | assumption | apply tell_kept | intro _ | apply Kept.ite | apply Kept.foldl | split

theorem raiseAs_kept (h : Kept W m a) (x1 x2 x3 : Nat) (x4 : Option Nat) (w0 : Area.ttl ∈ W) : Kept W m (Machine.raiseAs a x1 x2 x3 x4)
    := by
  unfold Machine.raiseAs
  with_reducible repeat' first
    | assumption | apply modTtl_kept | intro _ | apply Kept.ite | apply Kept.foldl | split

theorem raise_kept (h : Kept W m a) (x1 x2 : Nat) (w0 : Area.ttl ∈ W) : Kept W m (Machine.raise a x1 x2) := by
  unfold Machine.raise
  with_reducible repeat' first
    | assumption | apply raiseAs_kept | intro _ | apply Kept.ite | apply Kept.foldl | split

theorem raiseCtx_kept (h : Kept W m a) (x1 x2 x3 : Nat) (w0 : Area.ttl ∈ W) : Kept W m (Machine.raiseCtx a x1 x2 x3) := by
  unfold Machine.raiseCtx
  with_reducible repeat' first
    | assumption | apply raiseAs_kept | intro _ | apply Kept.ite | apply Kept.foldl | split

theorem interrupt_kept (h : Kept W m a) (x1 x2 : Nat) (w0 : Area.msix ∈ W) (w1 : Area.out ∈ W) : Kept W m (Machine.interrupt a x1 x2) := by
  unfold Machine.interrupt
  simp -zeta -iota -proj only [Machine.upd_msix_eq]
  with_reducible repeat' first
    | assumption | apply emit_kept | apply Kept.set_msix | intro _ | apply Kept.ite | apply Kept.foldl | split

theorem ctxInterrupt_kept (h : Kept W m a) (x1 x2 : Nat) (w0 : Area.msix ∈ W) (w1 : Area.out ∈ W) : Kept W m (Machine.ctxInterrupt a x1 x2)
    := by
  unfold Machine.ctxInterrupt
  with_reducible repeat' first
    | assumption | apply interrupt_kept | intro _ | apply Kept.ite | apply Kept.foldl | split

theorem journal_kept (h : Kept W m a) (x1 x2 x3 x4 x5 : Nat) (w0 : Area.boot ∈ W) (w1 : Area.ttl ∈ W) (w2 : Area.flash ∈ W) : Kept W m
    (Machine.journal a x1 x2 x3 x4 x5) := by
  unfold Machine.journal
  simp -zeta -iota -proj only [Machine.upd_boot_eq, Machine.upd_boot_flash_eq]
  with_reducible repeat' first
    | assumption | apply raise_kept | apply Kept.set_boot | apply Kept.set_boot_flash | intro _ | apply Kept.ite
    | apply Kept.foldl | split

theorem note_kept (h : Kept W m a) (x1 x2 x3 x4 : Nat) (w0 : Area.boot ∈ W) (w1 : Area.ttl ∈ W) (w2 : Area.flash ∈ W) : Kept W m
    (Machine.note a x1 x2 x3 x4) := by
  unfold Machine.note
  with_reducible repeat' first
    | assumption | apply journal_kept | intro _ | apply Kept.ite | apply Kept.foldl | split

theorem hostStores_kept (h : Kept W m a) (x1 : Cells) (w0 : Area.hostMem ∈ W) : Kept W m (Machine.hostStores a x1) := by
  unfold Machine.hostStores
  simp -zeta -iota -proj only [Machine.upd_hostMem_eq]
  with_reducible repeat' first
    | assumption | apply Kept.set_hostMem | intro _ | apply Kept.ite | apply Kept.foldl | split

theorem hostWrite_kept (h : Kept W m a) (x1 : Nat) (x2 : List Byte) (w0 : Area.hostMem ∈ W) : Kept W m (Machine.hostWrite a x1 x2) := by
  unfold Machine.hostWrite
  simp -zeta -iota -proj only [Machine.upd_hostMem_eq]
  with_reducible repeat' first
    | assumption | apply Kept.set_hostMem | intro _ | apply Kept.ite | apply Kept.foldl | split

theorem flushReads_kept (h : Kept W m a) (x1 : Nat) (w0 : Area.hst ∈ W) : Kept W m (Machine.flushReads a x1) := by
  unfold Machine.flushReads
  simp -zeta -iota -proj only [Machine.upd_hst_eq]
  with_reducible repeat' first
    | assumption | apply Kept.set_hst | intro _ | apply Kept.ite | apply Kept.foldl | split

theorem toFarnis_kept (h : Kept W m a) (x1 : List Byte) (w0 : Area.out ∈ W) : Kept W m (Machine.toFarnis a x1) := by
  unfold Machine.toFarnis
  with_reducible repeat' first
    | assumption | apply emit_kept | intro _ | apply Kept.ite | apply Kept.foldl | split

theorem answerMctp_kept (h : Kept W m a) (x1 : MsgHdr) (x2 x3 x4 : Nat) (x5 : List Byte) (w0 : Area.out ∈ W) : Kept W m
    (Machine.answerMctp a x1 x2 x3 x4 x5) := by
  unfold Machine.answerMctp
  with_reducible repeat' first
    | assumption | apply emit_kept | intro _ | apply Kept.ite | apply Kept.foldl | split

theorem vendor_kept (h : Kept W m a) (x1 : MsgHdr) (x2 x3 : Nat) (x4 : List Byte) (x5 : Machine → Machine) (hx5 : ∀ y0, Kept W m y0 →
    Kept W m (x5 y0)) (w0 : Area.card ∈ W) (w1 : Area.out ∈ W) : Kept W m (Machine.vendor a x1 x2 x3 x4 x5) := by
  unfold Machine.vendor
  simp -zeta -iota -proj only [Machine.upd_card_eq]
  with_reducible repeat' first
    | assumption | apply answerMctp_kept | apply emit_kept | apply Kept.set_card | apply hx5 | intro _ | apply Kept.ite
    | apply Kept.foldl | split

theorem accErr_kept (h : Kept W m a) (x1 x2 x3 : Nat) (w0 : Area.acc ∈ W) : Kept W m (Machine.accErr a x1 x2 x3) := by
  unfold Machine.accErr
  simp -zeta -iota -proj only [Machine.upd_acc_eq]
  with_reducible repeat' first
    | assumption | apply Kept.set_acc | intro _ | apply Kept.ite | apply Kept.foldl | split

/-! ### Tree -/

theorem tellKids_kept (h : Kept W m a) (x1 : NodeId) (x2 : Mgmt) (w0 : Area.out ∈ W) : Kept W m (Machine.tellKids a x1 x2) := by
  unfold Machine.tellKids
  with_reducible repeat' first
    | assumption | apply tellAll_kept | intro _ | apply Kept.ite | apply Kept.foldl | split

/-! ### HalyardBase -/

theorem submit_kept (h : Kept W m a) (x1 : Change) (w0 : Area.hly ∈ W) : Kept W m (Machine.submit a x1) := by
  unfold Machine.submit
  with_reducible repeat' first
    | assumption | apply modWork_kept | intro _ | apply Kept.ite | apply Kept.foldl | split

theorem flood_kept (h : Kept W m a) (x1 : Option Nat) (x2 : Mgmt) (w0 : Area.out ∈ W) : Kept W m (Machine.flood a x1 x2) := by
  unfold Machine.flood
  with_reducible repeat' first
    | assumption | apply emit_kept | intro _ | apply Kept.ite | apply Kept.foldl | split

theorem replicate_kept (h : Kept W m a) (w0 : Area.hly ∈ W) (w1 : Area.out ∈ W) : Kept W m (Machine.replicate a) := by
  unfold Machine.replicate
  simp -zeta -iota -proj only [Machine.upd_hly_eq]
  with_reducible repeat' first
    | assumption | apply tell_kept | apply Kept.set_hly | intro _ | apply Kept.ite | apply Kept.foldl | split

theorem commitThen_kept (h : Kept W m a) (x1 : List MasterAct) (w0 : Area.hly ∈ W) (w1 : Area.out ∈ W) : Kept W m (Machine.commitThen a x1)
    := by
  unfold Machine.commitThen
  simp -zeta -iota -proj only [Machine.upd_hly_eq]
  with_reducible repeat' first
    | assumption | apply replicate_kept | apply Kept.set_hly | intro _ | apply Kept.ite | apply Kept.foldl | split

theorem dropCmd_kept (h : Kept W m a) (x1 : HlyCmdRec) (w0 : Area.hly ∈ W) (w1 : Area.out ∈ W) : Kept W m (Machine.dropCmd a x1) := by
  unfold Machine.dropCmd
  simp -zeta -iota -proj only [Machine.upd_hly_eq]
  with_reducible repeat' first
    | assumption | apply tell_kept | apply Kept.set_hly | intro _ | apply Kept.ite | apply Kept.foldl | split

theorem dropCmds_kept (h : Kept W m a) (w0 : Area.hly ∈ W) (w1 : Area.out ∈ W) : Kept W m (Machine.dropCmds a) := by
  unfold Machine.dropCmds
  simp -zeta -iota -proj only [Machine.upd_hly_eq]
  with_reducible repeat' first
    | assumption | apply dropCmd_kept | apply Kept.set_hly | intro _ | apply Kept.ite | apply Kept.iteFst
    | apply Kept.foldl
    | (extract_lets +onlyGivenNames z; refine Kept.cut (W := W) (m := m) (x := z) ?_ ?_; subst z; rotate_left; intro hz; clear_value z)
    | (extract_lets +onlyGivenNames z; clear_value z) | dsimp -zeta only | split

theorem dropPrepared_kept (h : Kept W m a) (x1 : BitVec 16) (w0 : Area.hly ∈ W) : Kept W m (Machine.dropPrepared a x1) := by
  unfold Machine.dropPrepared
  simp -zeta -iota -proj only [Machine.upd_hly_eq]
  with_reducible repeat' first
    | assumption | apply modHly_kept | apply Kept.set_hly | intro _ | apply Kept.ite | apply Kept.foldl | split

theorem abortPrepare_kept (h : Kept W m a) (w0 : Area.hly ∈ W) (w1 : Area.tkp ∈ W) (w2 : Area.slc ∈ W) (w3 : Area.ttl ∈ W) (w4
    : Area.out ∈ W) : Kept W m (Machine.abortPrepare a) := by
  unfold Machine.abortPrepare
  simp -zeta -iota -proj only [Machine.upd_hly_tkp_eq]
  with_reducible repeat' first
    | assumption | apply dropPrepared_kept | apply replicate_kept | apply raise_kept | apply tellAll_kept
    | apply modSlice_kept | apply Kept.set_hly_tkp | intro _ | apply Kept.ite | apply Kept.foldl | split

theorem lossAborts_kept (h : Kept W m a) (x1 : LsRecord) (w0 : Area.hly ∈ W) (w1 : Area.tkp ∈ W) (w2 : Area.slc ∈ W) (w3 : Area.ttl ∈ W) (w4
    : Area.out ∈ W) : Kept W m (Machine.lossAborts a x1) := by
  unfold Machine.lossAborts
  with_reducible repeat' first
    | assumption | apply abortPrepare_kept | intro _ | apply Kept.ite | apply Kept.foldl | split

theorem takeRecord_kept (h : Kept W m a) (x1 : LsRecord) (w0 : Area.hly ∈ W) (w1 : Area.tkp ∈ W) (w2 : Area.slc ∈ W) (w3 : Area.ttl ∈ W) (w4
    : Area.out ∈ W) : Kept W m (Machine.takeRecord a x1) := by
  unfold Machine.takeRecord
  with_reducible repeat' first
    | assumption | apply lossAborts_kept | apply submit_kept | apply modWork_kept | intro _ | apply Kept.ite
    | apply Kept.foldl | split

theorem floodOwn_kept (h : Kept W m a) (w0 : Area.hly ∈ W) (w1 : Area.tkp ∈ W) (w2 : Area.slc ∈ W) (w3 : Area.ttl ∈ W) (w4 : Area.out ∈ W) :
    Kept W m (Machine.floodOwn a) := by
  unfold Machine.floodOwn
  with_reducible repeat' first
    | assumption | apply takeRecord_kept | apply flood_kept | apply modDb_kept | intro _ | apply Kept.ite
    | apply Kept.foldl | split

theorem stampNodes_kept (h : Kept W m a) (x1 : NodeRec → NodeRec) (w0 : Area.hly ∈ W) : Kept W m (Machine.stampNodes a x1) := by
  unfold Machine.stampNodes
  with_reducible repeat' first
    | assumption | apply submit_kept | apply modDb_kept | intro _ | apply Kept.ite | apply Kept.foldl | split

/-! ### Rig -/

theorem setRig_kept (h : Kept W m a) (x1 x2 : Nat) (w0 : Area.boot ∈ W) : Kept W m (Machine.setRig a x1 x2) := by
  unfold Machine.setRig
  simp -zeta -iota -proj only [Machine.upd_boot_eq]
  with_reducible repeat' first
    | assumption | apply Kept.set_boot | intro _ | apply Kept.ite | apply Kept.foldl | split

/-! ### BootBase -/

theorem bare_kept (h : Kept W m a) (hv : ∀ r ∈ Area.volatile, r ∈ W) : Kept W m (Machine.bare a) := by
  exact h.of_agrees fun r hr => by cases r <;> first | rfl | exact absurd (hv _ (by decide)) hr

theorem modBoot_kept (h : Kept W m a) (x1 : Boot → Boot) (w0 : Area.boot ∈ W) : Kept W m (Machine.modBoot a x1) := by
  unfold Machine.modBoot
  simp -zeta -iota -proj only [Machine.upd_boot_eq]
  with_reducible repeat' first
    | assumption | apply Kept.set_boot | intro _ | apply Kept.ite | apply Kept.foldl | split

theorem setStep_kept (h : Kept W m a) (x1 : Nat) (x2 : BootSt) (w0 : Area.boot ∈ W) : Kept W m (Machine.setStep a x1 x2) := by
  unfold Machine.setStep
  with_reducible repeat' first
    | assumption | apply modBoot_kept | intro _ | apply Kept.ite | apply Kept.foldl | split

theorem enterStep_kept (h : Kept W m a) (x1 : Nat) (w0 : Area.boot ∈ W) (w1 : Area.ttl ∈ W) (w2 : Area.flash ∈ W) : Kept W m
    (Machine.enterStep a x1) := by
  unfold Machine.enterStep
  with_reducible repeat' first
    | assumption | apply modBoot_kept | apply journal_kept | intro _ | apply Kept.ite | apply Kept.foldl | split

theorem completeStep_kept (h : Kept W m a) (x1 : Nat) (w0 : Area.boot ∈ W) (w1 : Area.ttl ∈ W) (w2 : Area.flash ∈ W) : Kept W m
    (Machine.completeStep a x1) := by
  unfold Machine.completeStep
  with_reducible repeat' first
    | assumption | apply setStep_kept | apply journal_kept | intro _ | apply Kept.ite | apply Kept.foldl | split

theorem skipStep_kept (h : Kept W m a) (x1 x2 : Nat) (w0 : Area.boot ∈ W) (w1 : Area.ttl ∈ W) (w2 : Area.flash ∈ W) : Kept W m
    (Machine.skipStep a x1 x2) := by
  unfold Machine.skipStep
  with_reducible repeat' first
    | assumption | apply setStep_kept | apply journal_kept | intro _ | apply Kept.ite | apply Kept.foldl | split

theorem takeBundle_kept (h : Kept W m a) (x1 : Nat) (w0 : Area.boot ∈ W) (w1 : Area.ttl ∈ W) (w2 : Area.flash ∈ W) : Kept W m
    (Machine.takeBundle a x1) := by
  unfold Machine.takeBundle
  with_reducible repeat' first
    | assumption | apply modBoot_kept | apply note_kept | intro _ | apply Kept.ite | apply Kept.foldl | split

theorem sendHave_kept (h : Kept W m a) (w0 : Area.out ∈ W) : Kept W m (Machine.sendHave a) := by
  unfold Machine.sendHave
  with_reducible repeat' first
    | assumption | apply tell_kept | intro _ | apply Kept.ite | apply Kept.foldl | split

theorem settleStep_kept (h : Kept W m a) (x1 : Nat) (w0 : Area.boot ∈ W) (w1 : Area.ttl ∈ W) (w2 : Area.flash ∈ W) (w3 : Area.out ∈ W) :
    Kept W m (Machine.settleStep a x1) := by
  unfold Machine.settleStep
  with_reducible repeat' first
    | assumption | apply sendHave_kept | apply takeBundle_kept | apply completeStep_kept | intro _ | apply Kept.ite
    | apply Kept.foldl | split

theorem bootSettle_kept (h : Kept W m a) (w0 : Area.boot ∈ W) (w1 : Area.ttl ∈ W) (w2 : Area.flash ∈ W) (w3 : Area.out ∈ W) : Kept W m
    (Machine.bootSettle a) := by
  unfold Machine.bootSettle
  with_reducible repeat' first
    | assumption | apply settleStep_kept | intro _ | apply Kept.ite | apply Kept.foldl | split

end Sys2Proof.Machine
end

