-- ==== Sys2Proof/Laws/KeptLinks.lean ====
section
/-!
SUPPORT. Frames of ports, forwarding, Halyard's shared operations, the bundle broadcast and time: one lemma per operation, naming the blocks it may write; it
keeps every other block.
-/
set_option linter.tactic.unusedName false
set_option linter.unusedSimpArgs false
namespace Sys2Proof.Machine

variable {W : List Area} {m a : Machine}

/-! ### PortOps -/

theorem makeRoot_kept (h : Kept W m a) (w0 : Area.time ∈ W) : Kept W m (Machine.makeRoot a) := by
  unfold Machine.makeRoot
  with_reducible repeat' first
    | assumption | apply modTime_kept | intro _ | apply Kept.ite | apply Kept.foldl | split

theorem aloneRoot_kept (h : Kept W m a) (x1 : PortState) (w0 : Area.time ∈ W) : Kept W m (Machine.aloneRoot a x1) := by
  unfold Machine.aloneRoot
  with_reducible repeat' first
    | assumption | apply makeRoot_kept | intro _ | apply Kept.ite | apply Kept.foldl | split

theorem portDown_kept (h : Kept W m a) (x1 x2 : Nat) (w0 : Area.time ∈ W) (w1 : Area.shr ∈ W) (w2 : Area.hly ∈ W) (w3 : Area.tkp ∈ W) (w4
    : Area.slc ∈ W) (w5 : Area.ttl ∈ W) (w6 : Area.out ∈ W) : Kept W m (Machine.portDown a x1 x2) := by
  unfold Machine.portDown
  with_reducible repeat' first
    | assumption | apply aloneRoot_kept | apply floodOwn_kept | apply raise_kept | apply modPort_kept | intro _
    | apply Kept.ite | apply Kept.foldl | split

theorem enterDetect_kept (h : Kept W m a) (x1 : Nat) (x2 : CableRead) (w0 : Area.time ∈ W) (w1 : Area.shr ∈ W) (w2 : Area.hly ∈ W) (w3
    : Area.tkp ∈ W) (w4 : Area.slc ∈ W) (w5 : Area.ttl ∈ W) (w6 : Area.out ∈ W) : Kept W m (Machine.enterDetect a x1 x2) := by
  unfold Machine.enterDetect
  with_reducible repeat' first
    | assumption | apply portDown_kept | apply aloneRoot_kept | apply modPort_kept | intro _ | apply Kept.ite
    | apply Kept.foldl | split

theorem portFail_kept (h : Kept W m a) (x1 x2 : Nat) (w0 : Area.shr ∈ W) (w1 : Area.hly ∈ W) (w2 : Area.tkp ∈ W) (w3 : Area.slc ∈ W) (w4
    : Area.ttl ∈ W) (w5 : Area.out ∈ W) : Kept W m (Machine.portFail a x1 x2) := by
  unfold Machine.portFail
  with_reducible repeat' first
    | assumption | apply floodOwn_kept | apply modPort_kept | intro _ | apply Kept.ite | apply Kept.foldl | split

theorem toDetour_kept (h : Kept W m a) (x1 : Nat) (x2 : List RxFrame) (w0 : Area.fwd ∈ W) (w1 : Area.ttl ∈ W) : Kept W m
    (Machine.toDetour a x1 x2) := by
  unfold Machine.toDetour
  with_reducible repeat' first
    | assumption | apply raise_kept | apply setFwd_kept | intro _ | apply Kept.ite | apply Kept.foldl | split

theorem handover_kept (h : Kept W m a) (x1 : Nat) (w0 : Area.shr ∈ W) (w1 : Area.fwd ∈ W) (w2 : Area.ttl ∈ W) : Kept W m
    (Machine.handover a x1) := by
  unfold Machine.handover
  with_reducible repeat' first
    | assumption | apply toDetour_kept | apply modPort_kept | intro _ | apply Kept.ite | apply Kept.foldl | split

theorem hardLoss_kept (h : Kept W m a) (x1 x2 : Nat) (w0 : Area.time ∈ W) (w1 : Area.shr ∈ W) (w2 : Area.fwd ∈ W) (w3 : Area.hly ∈ W) (w4
    : Area.tkp ∈ W) (w5 : Area.slc ∈ W) (w6 : Area.ttl ∈ W) (w7 : Area.out ∈ W) : Kept W m (Machine.hardLoss a x1 x2) := by
  unfold Machine.hardLoss
  with_reducible repeat' first
    | assumption | apply handover_kept | apply aloneRoot_kept | apply floodOwn_kept | apply raise_kept
    | apply modDb_kept | apply modPort_kept | intro _ | apply Kept.ite | apply Kept.foldl | split

theorem sendWord_kept (h : Kept W m a) (x1 x2 : Nat) (w0 : Area.out ∈ W) : Kept W m (Machine.sendWord a x1 x2) := by
  unfold Machine.sendWord
  with_reducible repeat' first
    | assumption | apply emit_kept | intro _ | apply Kept.ite | apply Kept.foldl | split

theorem sendAck_kept (h : Kept W m a) (x1 x2 : Nat) (w0 : Area.out ∈ W) : Kept W m (Machine.sendAck a x1 x2) := by
  unfold Machine.sendAck
  with_reducible repeat' first
    | assumption | apply sendWord_kept | intro _ | apply Kept.ite | apply Kept.foldl | split

theorem sendNak_kept (h : Kept W m a) (x1 x2 : Nat) (w0 : Area.out ∈ W) : Kept W m (Machine.sendNak a x1 x2) := by
  unfold Machine.sendNak
  with_reducible repeat' first
    | assumption | apply sendWord_kept | intro _ | apply Kept.ite | apply Kept.foldl | split

theorem sendCredit_kept (h : Kept W m a) (x1 x2 x3 : Nat) (w0 : Area.out ∈ W) : Kept W m (Machine.sendCredit a x1 x2 x3) := by
  unfold Machine.sendCredit
  with_reducible repeat' first
    | assumption | apply sendWord_kept | intro _ | apply Kept.ite | apply Kept.foldl | split

theorem sendRetrainReq_kept (h : Kept W m a) (x1 x2 : Nat) (w0 : Area.out ∈ W) : Kept W m (Machine.sendRetrainReq a x1 x2) := by
  unfold Machine.sendRetrainReq
  with_reducible repeat' first
    | assumption | apply sendWord_kept | intro _ | apply Kept.ite | apply Kept.foldl | split

theorem sendGoingDown_kept (h : Kept W m a) (x1 x2 : Nat) (w0 : Area.out ∈ W) : Kept W m (Machine.sendGoingDown a x1 x2) := by
  unfold Machine.sendGoingDown
  with_reducible repeat' first
    | assumption | apply sendWord_kept | intro _ | apply Kept.ite | apply Kept.foldl | split

theorem protoDiscard_kept (h : Kept W m a) (x1 : Nat) (w0 : Area.shr ∈ W) (w1 : Area.ttl ∈ W) : Kept W m (Machine.protoDiscard a x1) := by
  unfold Machine.protoDiscard
  with_reducible repeat' first
    | assumption | apply raise_kept | apply modPort_kept | intro _ | apply Kept.ite | apply Kept.foldl | split

theorem onWord_kept (h : Kept W m a) (x1 x2 : Nat) (x3 : DWord) (x4 : Machine → Machine) (hx4 : ∀ y0, Kept W m y0 → Kept W m (x4 y0)) (w0
    : Area.shr ∈ W) (w1 : Area.ttl ∈ W) : Kept W m (Machine.onWord a x1 x2 x3 x4) := by
  unfold Machine.onWord
  with_reducible repeat' first
    | assumption | apply protoDiscard_kept | apply hx4 | intro _ | apply Kept.ite | apply Kept.foldl | split

theorem startRetrain_kept (h : Kept W m a) (x1 x2 : Nat) (w0 : Area.shr ∈ W) (w1 : Area.out ∈ W) : Kept W m (Machine.startRetrain a x1 x2)
    := by
  unfold Machine.startRetrain
  with_reducible repeat' first
    | assumption | apply sendRetrainReq_kept | apply modPort_kept | intro _ | apply Kept.ite | apply Kept.foldl | split

theorem sendEnvelope_kept (h : Kept W m a) (x1 : Nat) (x2 : Envelope) (w0 : Area.out ∈ W) : Kept W m (Machine.sendEnvelope a x1 x2) := by
  unfold Machine.sendEnvelope
  with_reducible repeat' first
    | assumption | apply emit_kept | intro _ | apply Kept.ite | apply Kept.foldl | split

theorem countReplay_kept (h : Kept W m a) (x1 : Nat) (w0 : Area.shr ∈ W) (w1 : Area.ttl ∈ W) : Kept W m (Machine.countReplay a x1) := by
  unfold Machine.countReplay
  with_reducible repeat' first
    | assumption | apply raise_kept | apply modPort_kept | intro _ | apply Kept.ite | apply Kept.foldl | split

theorem replayFrom_kept (h : Kept W m a) (x1 x2 : Nat) (w0 : Area.shr ∈ W) (w1 : Area.ttl ∈ W) (w2 : Area.out ∈ W) : Kept W m
    (Machine.replayFrom a x1 x2) := by
  unfold Machine.replayFrom
  with_reducible repeat' first
    | assumption | apply countReplay_kept | apply startRetrain_kept | apply modPort_kept | intro _ | apply Kept.ite
    | apply Kept.foldl | split

theorem startFrame_kept (h : Kept W m a) (x1 x2 : Nat) (w0 : Area.shr ∈ W) (w1 : Area.out ∈ W) : Kept W m (Machine.startFrame a x1 x2) := by
  unfold Machine.startFrame
  with_reducible repeat' first
    | assumption | apply sendEnvelope_kept | apply setPort_kept | intro _ | apply Kept.ite | apply Kept.iteFst
    | apply Kept.foldl | (extract_lets +onlyGivenNames z; clear_value z) | dsimp -zeta only | split

theorem resendOne_kept (h : Kept W m a) (x1 : Nat) (x2 : Envelope) (w0 : Area.shr ∈ W) (w1 : Area.out ∈ W) : Kept W m
    (Machine.resendOne a x1 x2) := by
  unfold Machine.resendOne
  with_reducible repeat' first
    | assumption | apply sendEnvelope_kept | apply modPort_kept | intro _ | apply Kept.ite | apply Kept.foldl | split

theorem pumpN_kept (h : Kept W m a) (x1 x2 : Nat) (w0 : Area.shr ∈ W) (w1 : Area.out ∈ W) : Kept W m (Machine.pumpN a x1 x2) := by
  induction x2 generalizing a with
  | zero => exact h
  | succ n ih =>
    unfold Machine.pumpN
    repeat' (first
      | with_reducible assumption
      | with_reducible apply ih
      | with_reducible apply resendOne_kept
      | with_reducible apply startFrame_kept
      | intro _
      | with_reducible apply Kept.ite
      | with_reducible apply Kept.iteFst
      | with_reducible apply Kept.foldl
      | (extract_lets +onlyGivenNames z; refine Kept.cut (W := W) (m := m) (x := z) ?_ ?_; subst z; rotate_left; intro hz; clear_value z)
      | (extract_lets +onlyGivenNames z; clear_value z)
      | dsimp -zeta only
      | split)

theorem pump_kept (h : Kept W m a) (x1 : Nat) (w0 : Area.shr ∈ W) (w1 : Area.out ∈ W) : Kept W m (Machine.pump a x1) := by
  unfold Machine.pump
  with_reducible repeat' first
    | assumption | apply pumpN_kept | intro _ | apply Kept.ite | apply Kept.foldl | split

theorem pumpAll_kept (h : Kept W m a) (w0 : Area.shr ∈ W) (w1 : Area.out ∈ W) : Kept W m (Machine.pumpAll a) := by
  unfold Machine.pumpAll
  with_reducible repeat' first
    | assumption | apply pump_kept | intro _ | apply Kept.ite | apply Kept.foldl | split

theorem enqueue_kept (h : Kept W m a) (x1 : Nat) (x2 : QFrame) (w0 : Area.shr ∈ W) (w1 : Area.out ∈ W) : Kept W m (Machine.enqueue a x1 x2)
    := by
  unfold Machine.enqueue
  with_reducible repeat' first
    | assumption | apply pump_kept | apply modPort_kept | intro _ | apply Kept.ite | apply Kept.foldl | split

theorem returnCredits_kept (h : Kept W m a) (x1 x2 x3 : Nat) (x4 : Frame) (w0 : Area.shr ∈ W) (w1 : Area.out ∈ W) : Kept W m
    (Machine.returnCredits a x1 x2 x3 x4) := by
  unfold Machine.returnCredits
  with_reducible repeat' first
    | assumption | apply sendCredit_kept | apply modPort_kept | intro _ | apply Kept.ite | apply Kept.foldl | split

theorem returnRx_kept (h : Kept W m a) (x1 : RxFrame) (w0 : Area.shr ∈ W) (w1 : Area.out ∈ W) : Kept W m (Machine.returnRx a x1) := by
  unfold Machine.returnRx
  with_reducible repeat' first
    | assumption | apply returnCredits_kept | intro _ | apply Kept.ite | apply Kept.foldl | split

theorem enterActive_kept (h : Kept W m a) (x1 x2 : Nat) (x3 : LaneMask) (w0 : Area.shr ∈ W) (w1 : Area.hly ∈ W) (w2 : Area.tkp ∈ W) (w3
    : Area.slc ∈ W) (w4 : Area.ttl ∈ W) (w5 : Area.out ∈ W) : Kept W m (Machine.enterActive a x1 x2 x3) := by
  unfold Machine.enterActive
  with_reducible repeat' first
    | assumption | apply sendCredit_kept | apply floodOwn_kept | apply raise_kept | apply modDb_kept | apply modHly_kept
    | apply modPort_kept | intro _ | apply Kept.ite | apply Kept.foldl | split

/-! ### Forward -/

theorem fwdRaise_kept (h : Kept W m a) (x1 x2 : Nat) (w0 : Area.ttl ∈ W) : Kept W m (Machine.fwdRaise a x1 x2) := by
  unfold Machine.fwdRaise
  with_reducible repeat' first
    | assumption | apply raise_kept | intro _ | apply Kept.ite | apply Kept.foldl | split

theorem tagDrop_kept (h : Kept W m a) (w0 : Area.part ∈ W) : Kept W m (Machine.tagDrop a) := by
  unfold Machine.tagDrop
  simp -zeta -iota -proj only [Machine.upd_part_eq]
  with_reducible repeat' first
    | assumption | apply Kept.set_part | intro _ | apply Kept.ite | apply Kept.foldl | split

theorem reportFlow_kept (h : Kept W m a) (x1 x2 x3 : Nat) (w0 : Area.out ∈ W) : Kept W m (Machine.reportFlow a x1 x2 x3) := by
  unfold Machine.reportFlow
  with_reducible repeat' first
    | assumption | apply tell_kept | intro _ | apply Kept.ite | apply Kept.foldl | split

theorem dropMalformed_kept (h : Kept W m a) (x1 : Nat) (w0 : Area.fwd ∈ W) (w1 : Area.ttl ∈ W) : Kept W m (Machine.dropMalformed a x1) := by
  unfold Machine.dropMalformed
  with_reducible repeat' first
    | assumption | apply fwdRaise_kept | apply modFwdCnt_kept | intro _ | apply Kept.ite | apply Kept.foldl | split

theorem dropAged_kept (h : Kept W m a) (x1 : Nat) (x2 : Frame) (w0 : Area.fwd ∈ W) (w1 : Area.ttl ∈ W) (w2 : Area.out ∈ W) : Kept W m
    (Machine.dropAged a x1 x2) := by
  unfold Machine.dropAged
  with_reducible repeat' first
    | assumption | apply reportFlow_kept | apply fwdRaise_kept | apply modFwdCnt_kept | intro _ | apply Kept.ite
    | apply Kept.foldl | split

theorem filterFrame_kept (h : Kept W m a) (x1 : Nat) (x2 : Frame) (w0 : Area.fwd ∈ W) : Kept W m (Machine.filterFrame a x1 x2).1 := by
  unfold Machine.filterFrame
  with_reducible repeat' first
    | assumption | apply setFwd_kept | intro _ | apply Kept.ite | apply Kept.iteFst | apply Kept.foldl
    | (extract_lets +onlyGivenNames z; clear_value z) | dsimp -zeta only | split

theorem lateCheck_kept (h : Kept W m a) (x1 : Nat) (x2 : Frame) (x3 : Option Nat) (w0 : Area.fwd ∈ W) (w1 : Area.hly ∈ W) (w2
    : Area.ttl ∈ W) (w3 : Area.out ∈ W) : Kept W m (Machine.lateCheck a x1 x2 x3) := by
  unfold Machine.lateCheck
  simp -zeta -iota -proj only [Machine.upd_hly_eq]
  with_reducible repeat' first
    | assumption | apply fwdRaise_kept | apply tell_kept | apply modFwd_kept | apply Kept.set_hly | intro _
    | apply Kept.ite | apply Kept.foldl | split

theorem inject_kept (h : Kept W m a) (x1 x2 : Nat) (x3 : Bool) (x4 : NodeId) (x5 x6 x7 x8 x9 : Nat) (x10 : List Byte) (w0 : Area.fwd ∈ W)
    (w1 : Area.txSeq ∈ W) : Kept W m (Machine.inject a x1 x2 x3 x4 x5 x6 x7 x8 x9 x10) := by
  unfold Machine.inject
  simp -zeta -iota -proj only [Machine.upd_txSeq_eq]
  with_reducible repeat' first
    | assumption | apply modFwd_kept | apply Kept.set_txSeq | intro _ | apply Kept.ite | apply Kept.foldl | split

theorem answer_kept (h : Kept W m a) (x1 : Nat) (x2 : Frame) (x3 : Nat) (x4 : List Byte) (w0 : Area.fwd ∈ W) (w1 : Area.txSeq ∈ W) :
    Kept W m (Machine.answer a x1 x2 x3 x4) := by
  unfold Machine.answer
  with_reducible repeat' first
    | assumption | apply inject_kept | intro _ | apply Kept.ite | apply Kept.foldl | split

theorem dropNoRoute_kept (h : Kept W m a) (x1 : Nat) (x2 : Frame) (w0 : Area.fwd ∈ W) (w1 : Area.txSeq ∈ W) (w2 : Area.ttl ∈ W) (w3
    : Area.out ∈ W) : Kept W m (Machine.dropNoRoute a x1 x2) := by
  unfold Machine.dropNoRoute
  with_reducible repeat' first
    | assumption | apply answer_kept | apply reportFlow_kept | apply fwdRaise_kept | apply modFwdCnt_kept | intro _
    | apply Kept.ite | apply Kept.foldl | split

theorem sendOn_kept (h : Kept W m a) (x1 : Nat) (x2 : RxFrame) (x3 : Frame) (x4 : Nat) (w0 : Area.shr ∈ W) (w1 : Area.out ∈ W) : Kept W m
    (Machine.sendOn a x1 x2 x3 x4) := by
  unfold Machine.sendOn
  with_reducible repeat' first
    | assumption | apply enqueue_kept | intro _ | apply Kept.ite | apply Kept.foldl | split

theorem routeBy_kept (h : Kept W m a) (x1 : Nat) (x2 : RxFrame) (x3 : RouteEntry) (x4 : Bool) (w0 : Area.shr ∈ W) (w1 : Area.fwd ∈ W) (w2
    : Area.txSeq ∈ W) (w3 : Area.ttl ∈ W) (w4 : Area.out ∈ W) : Kept W m (Machine.routeBy a x1 x2 x3 x4) := by
  unfold Machine.routeBy
  with_reducible repeat' first
    | assumption | apply sendOn_kept | apply dropNoRoute_kept | apply modFwdCnt_kept | intro _ | apply Kept.ite
    | apply Kept.iteFst | apply Kept.foldl
    | (extract_lets +onlyGivenNames z; refine Kept.cut (W := W) (m := m) (x := z) ?_ ?_; subst z; rotate_left; intro hz; clear_value z)
    | (extract_lets +onlyGivenNames z; clear_value z) | dsimp -zeta only | split

theorem deliver_kept (h : Kept W m a) (x1 : Machine → Nat → Frame → Machine) (x2 : Machine → Nat → Nat) (x3 : Machine → Nat → Option Nat)
    (x4 : Nat) (x5 : Bank) (x6 : RxFrame) (hx1 : ∀ y0 y1 y2, Kept W m y0 → Kept W m (x1 y0 y1 y2)) (w0 : Area.fwd ∈ W) (w1 : Area.hly ∈ W)
    (w2 : Area.part ∈ W) (w3 : Area.ttl ∈ W) (w4 : Area.out ∈ W) : Kept W m (Machine.deliver a x1 x2 x3 x4 x5 x6) := by
  unfold Machine.deliver
  with_reducible repeat' first
    | assumption | apply lateCheck_kept | apply fwdRaise_kept | apply filterFrame_kept | apply modFwdCnt_kept
    | apply raise_kept | apply tagDrop_kept | apply modFwd_kept | apply hx1 | apply Kept.ite
    | (extract_lets +onlyGivenNames z) | dsimp -zeta only | split | (refine Kept.ofFst ‹_ = (_, _)› ?_)

theorem forward_kept (h : Kept W m a) (x1 : Machine → Nat → Frame → Machine) (x2 : Machine → Nat → Nat) (x3 : Machine → Nat → Option Nat)
    (x4 : Nat) (x5 : RxFrame) (x6 : Bool) (hx1 : ∀ y0 y1 y2, Kept W m y0 → Kept W m (x1 y0 y1 y2)) (w0 : Area.shr ∈ W) (w1 : Area.fwd ∈ W)
    (w2 : Area.txSeq ∈ W) (w3 : Area.hly ∈ W) (w4 : Area.part ∈ W) (w5 : Area.ttl ∈ W) (w6 : Area.out ∈ W) : Kept W m
    (Machine.forward a x1 x2 x3 x4 x5 x6) := by
  unfold Machine.forward
  with_reducible repeat' first
    | assumption | apply deliver_kept | apply routeBy_kept | apply sendOn_kept | apply dropNoRoute_kept
    | apply dropAged_kept | apply dropMalformed_kept | apply tagDrop_kept | apply raise_kept | apply modHly_kept
    | apply modFwd_kept | apply hx1 | intro _ | apply Kept.ite | apply Kept.iteFst | apply Kept.foldl
    | (extract_lets +onlyGivenNames z; clear_value z) | dsimp -zeta only | split

theorem leaveRx_kept (h : Kept W m a) (x1 : Machine) (x2 : Nat) (x3 : RxFrame) (w0 : Area.shr ∈ W) (w1 : Area.out ∈ W) : Kept W m
    (Machine.leaveRx a x1 x2 x3) := by
  unfold Machine.leaveRx
  with_reducible repeat' first
    | assumption | apply returnRx_kept | intro _ | apply Kept.ite | apply Kept.foldl | split

theorem forwardNext_kept (h : Kept W m a) (x1 : Machine → Nat → Frame → Machine) (x2 : Machine → Nat → Nat) (x3
    : Machine → Nat → Option Nat) (x4 : Nat) (hx1 : ∀ y0 y1 y2, Kept W m y0 → Kept W m (x1 y0 y1 y2)) (w0 : Area.shr ∈ W) (w1
    : Area.fwd ∈ W) (w2 : Area.txSeq ∈ W) (w3 : Area.hly ∈ W) (w4 : Area.part ∈ W) (w5 : Area.ttl ∈ W) (w6 : Area.out ∈ W) : Kept W m
    (Machine.forwardNext a x1 x2 x3 x4) := by
  unfold Machine.forwardNext
  with_reducible repeat' first
    | assumption | apply leaveRx_kept | apply forward_kept | apply modFwd_kept | apply hx1 | intro _ | apply Kept.ite
    | apply Kept.foldl | split

theorem detourAll_kept (h : Kept W m a) (x1 : Machine → Nat → Frame → Machine) (x2 : Machine → Nat → Nat) (x3 : Machine → Nat → Option Nat)
    (x4 : Nat) (hx1 : ∀ y0 y1 y2, Kept W m y0 → Kept W m (x1 y0 y1 y2)) (w0 : Area.shr ∈ W) (w1 : Area.fwd ∈ W) (w2 : Area.txSeq ∈ W) (w3
    : Area.hly ∈ W) (w4 : Area.part ∈ W) (w5 : Area.ttl ∈ W) (w6 : Area.out ∈ W) : Kept W m (Machine.detourAll a x1 x2 x3 x4) := by
  unfold Machine.detourAll
  with_reducible repeat' first
    | assumption | apply forward_kept | apply modFwd_kept | apply hx1 | intro _ | apply Kept.ite | apply Kept.foldl
    | split

theorem ageAll_kept (h : Kept W m a) (x1 : Nat) (w0 : Area.shr ∈ W) (w1 : Area.fwd ∈ W) (w2 : Area.ttl ∈ W) (w3 : Area.out ∈ W) : Kept W m
    (Machine.ageAll a x1) := by
  unfold Machine.ageAll
  with_reducible repeat' first
    | assumption | apply dropAged_kept | apply returnRx_kept | apply setFwd_kept | apply modPort_kept | intro _
    | apply Kept.ite | apply Kept.foldl | split

theorem filterExpire_kept (h : Kept W m a) (x1 : Nat) (x2 : NodeId) (x3 : Nat) (w0 : Area.fwd ∈ W) : Kept W m
    (Machine.filterExpire a x1 x2 x3) := by
  unfold Machine.filterExpire
  with_reducible repeat' first
    | assumption | apply modFwd_kept | intro _ | apply Kept.ite | apply Kept.foldl | split

/-! ### HalyardOps -/

theorem setRoles_kept (h : Kept W m a) (w0 : Area.hly ∈ W) : Kept W m (Machine.setRoles a) := by
  unfold Machine.setRoles
  with_reducible repeat' first
    | assumption | apply stampNodes_kept | intro _ | apply Kept.ite | apply Kept.foldl | split

theorem checkAll_kept (h : Kept W m a) (w0 : Area.hly ∈ W) : Kept W m (Machine.checkAll a) := by
  unfold Machine.checkAll
  with_reducible repeat' first
    | assumption | apply stampNodes_kept | intro _ | apply Kept.ite | apply Kept.foldl | split

theorem openEpoch_kept (h : Kept W m a) (w0 : Area.hly ∈ W) : Kept W m (Machine.openEpoch a) := by
  unfold Machine.openEpoch
  with_reducible repeat' first
    | assumption | apply submit_kept | intro _ | apply Kept.ite | apply Kept.foldl | split

theorem nameStandby_kept (h : Kept W m a) (w0 : Area.hly ∈ W) (w1 : Area.out ∈ W) : Kept W m (Machine.nameStandby a) := by
  unfold Machine.nameStandby
  with_reducible repeat' first
    | assumption | apply setRoles_kept | apply replicate_kept | apply modHly_kept | intro _ | apply Kept.ite
    | apply Kept.foldl | split

theorem renewStandby_kept (h : Kept W m a) (x1 : NodeId) (w0 : Area.hly ∈ W) (w1 : Area.out ∈ W) : Kept W m (Machine.renewStandby a x1)
    := by
  unfold Machine.renewStandby
  with_reducible repeat' first
    | assumption | apply nameStandby_kept | intro _ | apply Kept.ite | apply Kept.foldl | split

theorem becomeMaster_kept (h : Kept W m a) (w0 : Area.time ∈ W) (w1 : Area.hly ∈ W) (w2 : Area.tkp ∈ W) (w3 : Area.slc ∈ W) (w4
    : Area.ttl ∈ W) (w5 : Area.out ∈ W) : Kept W m (Machine.becomeMaster a) := by
  unfold Machine.becomeMaster
  simp -zeta -iota -proj only [Machine.upd_hly_tkp_eq]
  with_reducible repeat' first
    | assumption | apply nameStandby_kept | apply openEpoch_kept | apply checkAll_kept | apply makeRoot_kept
    | apply takeRecord_kept | apply dropCmds_kept | apply tellKids_kept | apply modHly_kept | apply Kept.set_hly_tkp
    | intro _ | apply Kept.ite | apply Kept.foldl | split

theorem acceptMaster_kept (h : Kept W m a) (x1 : NodeId) (w0 : Area.time ∈ W) (w1 : Area.hly ∈ W) (w2 : Area.out ∈ W) : Kept W m
    (Machine.acceptMaster a x1) := by
  unfold Machine.acceptMaster
  simp -zeta -iota -proj only [Machine.upd_hly_eq]
  with_reducible repeat' first
    | assumption | apply dropCmds_kept | apply modTime_kept | apply modHly_kept | apply Kept.set_hly | intro _
    | apply Kept.ite | apply Kept.foldl | split

theorem yieldDuplicate_kept (h : Kept W m a) (w0 : Area.hly ∈ W) (w1 : Area.tkp ∈ W) (w2 : Area.slc ∈ W) (w3 : Area.ttl ∈ W) (w4
    : Area.out ∈ W) : Kept W m (Machine.yieldDuplicate a) := by
  unfold Machine.yieldDuplicate
  with_reducible repeat' first
    | assumption | apply floodOwn_kept | apply raise_kept | apply modDb_kept | apply modHly_kept | intro _
    | apply Kept.ite | apply Kept.foldl | split

theorem settleElection_kept (h : Kept W m a) (w0 : Area.time ∈ W) (w1 : Area.hly ∈ W) (w2 : Area.tkp ∈ W) (w3 : Area.slc ∈ W) (w4
    : Area.ttl ∈ W) (w5 : Area.out ∈ W) : Kept W m (Machine.settleElection a) := by
  unfold Machine.settleElection
  with_reducible repeat' first
    | assumption | apply yieldDuplicate_kept | apply acceptMaster_kept | apply becomeMaster_kept | intro _
    | apply Kept.ite | apply Kept.foldl | split

theorem elect_kept (h : Kept W m a) (w0 : Area.time ∈ W) (w1 : Area.hly ∈ W) (w2 : Area.tkp ∈ W) (w3 : Area.slc ∈ W) (w4 : Area.ttl ∈ W) (w5
    : Area.out ∈ W) : Kept W m (Machine.elect a) := by
  unfold Machine.elect
  simp -zeta -iota -proj only [Machine.upd_hly_eq]
  with_reducible repeat' first
    | assumption | apply settleElection_kept | apply dropCmds_kept | apply modDb_kept | apply modHly_kept
    | apply Kept.set_hly | intro _ | apply Kept.ite | apply Kept.foldl | split

theorem rampNews_kept (h : Kept W m a) (x1 : RampSet → RampSet) (w0 : Area.hly ∈ W) (w1 : Area.tkp ∈ W) (w2 : Area.out ∈ W) : Kept W m
    (Machine.rampNews a x1) := by
  unfold Machine.rampNews
  simp -zeta -iota -proj only [Machine.upd_tkp_eq]
  with_reducible repeat' first
    | assumption | apply openEpoch_kept | apply replicate_kept | apply modWork_kept | apply Kept.set_tkp | intro _
    | apply Kept.ite | apply Kept.foldl | split

theorem raiseRate_kept (h : Kept W m a) (x1 : NodeId) (x2 : Nat) (w0 : Area.hly ∈ W) (w1 : Area.tkp ∈ W) (w2 : Area.out ∈ W) : Kept W m
    (Machine.raiseRate a x1 x2) := by
  unfold Machine.raiseRate
  with_reducible repeat' first
    | assumption | apply rampNews_kept | intro _ | apply Kept.ite | apply Kept.foldl | split

theorem releaseHeld_kept (h : Kept W m a) (w0 : Area.hly ∈ W) : Kept W m (Machine.releaseHeld a) := by
  unfold Machine.releaseHeld
  with_reducible repeat' first
    | assumption | apply submit_kept | apply modDb_kept | intro _ | apply Kept.ite | apply Kept.foldl | split

theorem setQuorum_kept (h : Kept W m a) (x1 : Nat) (w0 : Area.hly ∈ W) (w1 : Area.ttl ∈ W) : Kept W m (Machine.setQuorum a x1) := by
  unfold Machine.setQuorum
  simp -zeta -iota -proj only [Machine.upd_hly_eq]
  with_reducible repeat' first
    | assumption | apply releaseHeld_kept | apply setRoles_kept | apply raise_kept | apply modHly_kept
    | apply Kept.set_hly | intro _ | apply Kept.ite | apply Kept.foldl | split

theorem applyRecord_kept (h : Kept W m a) (x1 : LsRecord) (w0 : Area.hly ∈ W) : Kept W m (Machine.applyRecord a x1) := by
  unfold Machine.applyRecord
  with_reducible repeat' first
    | assumption | apply modDb_kept | intro _ | apply Kept.ite | apply Kept.foldl | split

theorem applyChange_kept (h : Kept W m a) (x1 : Change) (w0 : Area.hly ∈ W) : Kept W m (Machine.applyChange a x1) := by
  unfold Machine.applyChange
  with_reducible repeat' first
    | assumption | apply applyRecord_kept | apply modDb_kept | intro _ | apply Kept.ite | apply Kept.foldl | split

/-! ### Bundle -/

theorem modBcast_kept (h : Kept W m a) (x1 : Bcast → Bcast) (w0 : Area.boot ∈ W) : Kept W m (Machine.modBcast a x1) := by
  unfold Machine.modBcast
  with_reducible repeat' first
    | assumption | apply modBoot_kept | intro _ | apply Kept.ite | apply Kept.foldl | split

theorem sendChunk_kept (h : Kept W m a) (x1 : List NodeId) (x2 : Word) (x3 : Bool) (x4 : Nat) (w0 : Area.out ∈ W) : Kept W m
    (Machine.sendChunk a x1 x2 x3 x4) := by
  unfold Machine.sendChunk
  with_reducible repeat' first
    | assumption | apply tellAll_kept | intro _ | apply Kept.ite | apply Kept.foldl | split

theorem bcastCommit_kept (h : Kept W m a) (w0 : Area.boot ∈ W) (w1 : Area.hly ∈ W) (w2 : Area.out ∈ W) : Kept W m (Machine.bcastCommit a)
    := by
  unfold Machine.bcastCommit
  with_reducible repeat' first
    | assumption | apply modBcast_kept | apply replicate_kept | intro _ | apply Kept.ite | apply Kept.foldl | split

theorem bcastSend_kept (h : Kept W m a) (w0 : Area.boot ∈ W) (w1 : Area.out ∈ W) : Kept W m (Machine.bcastSend a) := by
  unfold Machine.bcastSend
  with_reducible repeat' first
    | assumption | apply sendChunk_kept | apply modBcast_kept | apply tellAll_kept | intro _ | apply Kept.ite
    | apply Kept.foldl | split

theorem bundleSettle_kept (h : Kept W m a) (w0 : Area.boot ∈ W) (w1 : Area.hly ∈ W) (w2 : Area.ttl ∈ W) (w3 : Area.flash ∈ W) (w4
    : Area.out ∈ W) : Kept W m (Machine.bundleSettle a) := by
  unfold Machine.bundleSettle
  with_reducible repeat' first
    | assumption | apply bcastSend_kept | apply bcastCommit_kept | apply bootSettle_kept | intro _ | apply Kept.ite
    | apply Kept.foldl | split

theorem dropChunk_kept (h : Kept W m a) (x1 : Bool) (x2 : Nat) (w0 : Area.boot ∈ W) : Kept W m (Machine.dropChunk a x1 x2) := by
  unfold Machine.dropChunk
  with_reducible repeat' first
    | assumption | apply modBcast_kept | intro _ | apply Kept.ite | apply Kept.foldl | split

theorem checkChunk_kept (h : Kept W m a) (x1 : Nat) (w0 : Area.boot ∈ W) (w1 : Area.ttl ∈ W) : Kept W m (Machine.checkChunk a x1) := by
  unfold Machine.checkChunk
  with_reducible repeat' first
    | assumption | apply dropChunk_kept | apply modBcast_kept | apply raise_kept | intro _ | apply Kept.ite
    | apply Kept.foldl | split

theorem checkManifest_kept (h : Kept W m a) (x1 : BundleId) (w0 : Area.boot ∈ W) (w1 : Area.ttl ∈ W) : Kept W m (Machine.checkManifest a x1)
    := by
  unfold Machine.checkManifest
  with_reducible repeat' first
    | assumption | apply checkChunk_kept | apply dropChunk_kept | apply modBcast_kept | apply raise_kept | intro _
    | apply Kept.ite | apply Kept.foldl | split

theorem learnSize_kept (h : Kept W m a) (x1 : BundleId) (w0 : Area.boot ∈ W) : Kept W m (Machine.learnSize a x1) := by
  unfold Machine.learnSize
  with_reducible repeat' first
    | assumption | apply modBcast_kept | intro _ | apply Kept.ite | apply Kept.foldl | split

theorem reportDone_kept (h : Kept W m a) (w0 : Area.boot ∈ W) (w1 : Area.out ∈ W) : Kept W m (Machine.reportDone a) := by
  unfold Machine.reportDone
  with_reducible repeat' first
    | assumption | apply modBcast_kept | apply tell_kept | intro _ | apply Kept.ite | apply Kept.iteFst
    | apply Kept.foldl | (extract_lets +onlyGivenNames z; clear_value z) | dsimp -zeta only | split

theorem takeFrag_kept (h : Kept W m a) (x1 : FragHdr) (x2 : List Byte) (w0 : Area.boot ∈ W) (w1 : Area.hly ∈ W) (w2 : Area.ttl ∈ W) (w3
    : Area.flash ∈ W) (w4 : Area.out ∈ W) : Kept W m (Machine.takeFrag a x1 x2) := by
  unfold Machine.takeFrag
  with_reducible repeat' first
    | assumption | apply reportDone_kept | apply learnSize_kept | apply checkManifest_kept | apply checkChunk_kept
    | apply bundleSettle_kept | apply modBcast_kept | apply tellAll_kept | intro _ | apply Kept.ite | apply Kept.foldl
    | split

theorem takeOffer_kept (h : Kept W m a) (x1 : BundleId) (w0 : Area.boot ∈ W) : Kept W m (Machine.takeOffer a x1) := by
  unfold Machine.takeOffer
  with_reducible repeat' first
    | assumption | apply modBcast_kept | intro _ | apply Kept.ite | apply Kept.foldl | split

theorem sendNack_kept (h : Kept W m a) (x1 : NodeId) (w0 : Area.boot ∈ W) (w1 : Area.out ∈ W) : Kept W m (Machine.sendNack a x1) := by
  unfold Machine.sendNack
  with_reducible repeat' first
    | assumption | apply modBcast_kept | apply tell_kept | intro _ | apply Kept.ite | apply Kept.foldl | split

theorem fetchAdvert_kept (h : Kept W m a) (w0 : Area.boot ∈ W) (w1 : Area.out ∈ W) : Kept W m (Machine.fetchAdvert a) := by
  unfold Machine.fetchAdvert
  with_reducible repeat' first
    | assumption | apply sendNack_kept | apply takeOffer_kept | apply modBcast_kept | intro _ | apply Kept.ite
    | apply Kept.foldl | split

theorem bcastContinue_kept (h : Kept W m a) (w0 : Area.boot ∈ W) (w1 : Area.out ∈ W) : Kept W m (Machine.bcastContinue a) := by
  unfold Machine.bcastContinue
  with_reducible repeat' first
    | assumption | apply sendNack_kept | apply bcastSend_kept | apply modBcast_kept | intro _ | apply Kept.ite
    | apply Kept.iteFst | apply Kept.foldl | (extract_lets +onlyGivenNames z; clear_value z) | dsimp -zeta only | split

theorem offerLate_kept (h : Kept W m a) (x1 : NodeId) (w0 : Area.out ∈ W) : Kept W m (Machine.offerLate a x1) := by
  unfold Machine.offerLate
  with_reducible repeat' first
    | assumption | apply tell_kept | intro _ | apply Kept.ite | apply Kept.iteFst | apply Kept.foldl
    | (extract_lets +onlyGivenNames z; clear_value z) | dsimp -zeta only | split

/-! ### Links -/

theorem inState_kept (h : Kept W m a) (x1 : Nat) (x2 : PortState) (x3 : Machine → Machine) (hx3 : ∀ y0, Kept W m y0 → Kept W m (x3 y0)) :
    Kept W m (Machine.inState a x1 x2 x3) := by
  unfold Machine.inState
  with_reducible repeat' first
    | assumption | apply hx3 | intro _ | apply Kept.ite | apply Kept.foldl | split

theorem creditProgress_kept (h : Kept W m a) (x1 x2 : Nat) (w0 : Area.shr ∈ W) (w1 : Area.luff ∈ W) (w2 : Area.out ∈ W) : Kept W m
    (Machine.creditProgress a x1 x2) := by
  unfold Machine.creditProgress
  with_reducible repeat' first
    | assumption | apply pump_kept | apply luffStep_kept | intro _ | apply Kept.ite | apply Kept.foldl | split

theorem stayReplay_kept (h : Kept W m a) (x1 x2 : Nat) (w0 : Area.shr ∈ W) (w1 : Area.ttl ∈ W) : Kept W m (Machine.stayReplay a x1 x2) := by
  unfold Machine.stayReplay
  simp -zeta -iota -proj only [Machine.upd_shr_eq]
  with_reducible repeat' first
    | assumption | apply raise_kept | apply Kept.set_shr | intro _ | apply Kept.ite | apply Kept.foldl | split

theorem idle_kept (h : Kept W m a) (w0 : Area.time ∈ W) (w1 : Area.shr ∈ W) (w2 : Area.out ∈ W) : Kept W m (Machine.idle a) := by
  unfold Machine.idle
  with_reducible repeat' first
    | assumption | apply pumpAll_kept | apply tick_kept | intro _ | apply Kept.ite | apply Kept.foldl | split

/-! ### Time -/

theorem setLocked_kept (h : Kept W m a) (x1 : Bool) (w0 : Area.time ∈ W) (w1 : Area.ttl ∈ W) : Kept W m (Machine.setLocked a x1) := by
  unfold Machine.setLocked
  with_reducible repeat' first
    | assumption | apply raise_kept | apply modTime_kept | intro _ | apply Kept.ite | apply Kept.foldl | split

theorem firstLock_kept (h : Kept W m a) (x1 : DWord) (w0 : Area.boot ∈ W) (w1 : Area.time ∈ W) (w2 : Area.ttl ∈ W) (w3 : Area.flash ∈ W) :
    Kept W m (Machine.firstLock a x1) := by
  unfold Machine.firstLock
  with_reducible repeat' first
    | assumption | apply note_kept | apply modTime_kept | intro _ | apply Kept.ite | apply Kept.foldl | split

theorem syncWith_kept (h : Kept W m a) (x1 : Bool) (x2 : DWord) (w0 : Area.boot ∈ W) (w1 : Area.time ∈ W) (w2 : Area.luff ∈ W) (w3
    : Area.ttl ∈ W) (w4 : Area.flash ∈ W) : Kept W m (Machine.syncWith a x1 x2) := by
  unfold Machine.syncWith
  with_reducible repeat' first
    | assumption | apply firstLock_kept | apply setLocked_kept | apply hlyItem_kept | apply modTime_kept | intro _
    | apply Kept.ite | apply Kept.foldl | split

theorem underParent_kept (h : Kept W m a) (x1 x2 : Nat) (w0 : Area.time ∈ W) (w1 : Area.ttl ∈ W) (w2 : Area.out ∈ W) : Kept W m
    (Machine.underParent a x1 x2) := by
  unfold Machine.underParent
  with_reducible repeat' first
    | assumption | apply setLocked_kept | apply emit_kept | apply modTime_kept | intro _ | apply Kept.ite
    | apply Kept.foldl | split

theorem loseReference_kept (h : Kept W m a) (w0 : Area.time ∈ W) (w1 : Area.shr ∈ W) (w2 : Area.fwd ∈ W) (w3 : Area.hly ∈ W) (w4
    : Area.tkp ∈ W) (w5 : Area.slc ∈ W) (w6 : Area.ttl ∈ W) (w7 : Area.out ∈ W) : Kept W m (Machine.loseReference a) := by
  unfold Machine.loseReference
  with_reducible repeat' first
    | assumption | apply hardLoss_kept | apply raiseAs_kept | apply tell_kept | apply modTime_kept | intro _
    | apply Kept.ite | apply Kept.foldl | split

end Sys2Proof.Machine
end

