-- ==== Sys2Proof/Laws/KeptTiles.lean ====
section
/-!
SUPPORT. Frames of Telltale, memory, streams and collectives: one lemma per operation, naming the blocks it may write; it
keeps every other block.
-/
set_option linter.tactic.unusedName false
set_option linter.unusedSimpArgs false
namespace Sys2Proof.Machine

variable {W : List Area} {m a : Machine}

/-! ### Telltale -/

theorem modSrc_kept (h : Kept W m a) (x1 : Nat) (x2 : SrcRec → SrcRec) (w0 : Area.ttl ∈ W) : Kept W m (Machine.modSrc a x1 x2) := by
  unfold Machine.modSrc
  with_reducible repeat' first
    | assumption | apply modTtl_kept | intro _ | apply Kept.ite | apply Kept.foldl | split

theorem setSlot_kept (h : Kept W m a) (x1 : Option Nat) (x2 : SlotRec) (w0 : Area.ttl ∈ W) : Kept W m (Machine.setSlot a x1 x2) := by
  unfold Machine.setSlot
  with_reducible repeat' first
    | assumption | apply modTtl_kept | intro _ | apply Kept.ite | apply Kept.foldl | split

theorem ttlLog_kept (h : Kept W m a) (x1 : TtlRecord) (w0 : Area.ttl ∈ W) : Kept W m (Machine.ttlLog a x1) := by
  unfold Machine.ttlLog
  with_reducible repeat' first
    | assumption | apply raise_kept | apply modTtl_kept | intro _ | apply Kept.ite | apply Kept.foldl | split

theorem pinAssert_kept (h : Kept W m a) (w0 : Area.ttl ∈ W) : Kept W m (Machine.pinAssert a) := by
  unfold Machine.pinAssert
  with_reducible repeat' first
    | assumption | apply modTtl_kept | intro _ | apply Kept.ite | apply Kept.foldl | split

theorem faultN_kept (h : Kept W m a) (w0 : Area.ttl ∈ W) : Kept W m (Machine.faultN a) := by
  unfold Machine.faultN
  with_reducible repeat' first
    | assumption | apply pinAssert_kept | apply modTtl_kept | intro _ | apply Kept.ite | apply Kept.foldl | split

theorem pinRelease_kept (h : Kept W m a) (w0 : Area.ttl ∈ W) : Kept W m (Machine.pinRelease a) := by
  unfold Machine.pinRelease
  with_reducible repeat' first
    | assumption | apply modTtl_kept | intro _ | apply Kept.ite | apply Kept.foldl | split

theorem classAction_kept (h : Kept W m a) (x1 : Option Nat) (x2 x3 : Nat) (w0 : Area.ttl ∈ W) : Kept W m (Machine.classAction a x1 x2 x3).1
    := by
  unfold Machine.classAction
  with_reducible repeat' first
    | assumption | apply faultN_kept | apply setSlot_kept | apply modTtl_kept | intro _ | apply Kept.ite
    | apply Kept.foldl | split

theorem escalate_kept (h : Kept W m a) (x1 : Option Nat) (x2 x3 x4 x5 : Nat) (w0 : Area.ttl ∈ W) (w1 : Area.msix ∈ W) (w2 : Area.out ∈ W) :
    Kept W m (Machine.escalate a x1 x2 x3 x4 x5) := by
  induction x5 generalizing a x1 with
  | zero => exact h
  | succ n ih =>
    unfold Machine.escalate
    repeat' (first
      | with_reducible assumption
      | with_reducible apply ih
      | with_reducible apply classAction_kept
      | with_reducible apply ttlLog_kept
      | with_reducible apply interrupt_kept
      | with_reducible apply raise_kept
      | with_reducible apply modTtl_kept
      | intro _
      | with_reducible apply Kept.ite
      | with_reducible apply Kept.iteFst
      | with_reducible apply Kept.foldl
      | (extract_lets +onlyGivenNames z; refine Kept.cut (W := W) (m := m) (x := z) ?_ ?_; subst z; rotate_left; intro hz; clear_value z)
      | (extract_lets +onlyGivenNames z; clear_value z)
      | dsimp -zeta only
      | split)

theorem serveSlot_kept (h : Kept W m a) (x1 : Option Nat) (x2 : List RoundEvent) (x3 : Nat) (x4 : Bool) (w0 : Area.ttl ∈ W) (w1
    : Area.msix ∈ W) (w2 : Area.out ∈ W) : Kept W m (Machine.serveSlot a x1 x2 x3 x4) := by
  unfold Machine.serveSlot
  with_reducible repeat' first
    | assumption | apply escalate_kept | apply classAction_kept | apply ttlLog_kept | apply setSlot_kept
    | apply interrupt_kept | intro _ | apply Kept.ite | apply Kept.iteFst | apply Kept.foldl
    | (extract_lets +onlyGivenNames z; refine Kept.cut (W := W) (m := m) (x := z) ?_ ?_; subst z; rotate_left; intro hz; clear_value z)
    | (extract_lets +onlyGivenNames z; clear_value z) | dsimp -zeta only | split

theorem absorbSlots_kept (h : Kept W m a) (w0 : Area.ttl ∈ W) : Kept W m (Machine.absorbSlots a) := by
  unfold Machine.absorbSlots
  with_reducible repeat' first
    | assumption | apply modTtl_kept | intro _ | apply Kept.ite | apply Kept.foldl | split

theorem landEvent_kept (h : Kept W m a) (x1 : Bool) (x2 : Event) (w0 : Area.ttl ∈ W) : Kept W m (Machine.landEvent a x1 x2).1 := by
  unfold Machine.landEvent
  with_reducible repeat' first
    | assumption | apply modSrc_kept | intro _ | apply Kept.ite | apply Kept.foldl | split

theorem landAll_kept (h : Kept W m a) (x1 : Bool) (x2 : List Event) (w0 : Area.ttl ∈ W) : Kept W m (Machine.landAll a x1 x2).1 := by
  induction x2 generalizing a with
  | nil => exact h
  | cons e l ih => exact ih (landEvent_kept h _ _ ‹_›)

theorem promoteRecord_kept (h : Kept W m a) (x1 : Nat) (x2 : Bool) (x3 : Event) (w0 : Area.ttl ∈ W) : Kept W m
    (Machine.promoteRecord a x1 x2 x3) := by
  unfold Machine.promoteRecord
  with_reducible repeat' first
    | assumption | apply ttlLog_kept | intro _ | apply Kept.ite | apply Kept.foldl | split

theorem ttlRound_kept (h : Kept W m a) (w0 : Area.ttl ∈ W) (w1 : Area.msix ∈ W) (w2 : Area.out ∈ W) : Kept W m (Machine.ttlRound a) := by
  unfold Machine.ttlRound
  with_reducible repeat' first
    | assumption | apply promoteRecord_kept | apply landAll_kept | apply absorbSlots_kept | apply serveSlot_kept
    | apply pinAssert_kept | apply modTtl_kept | intro _ | apply Kept.ite | apply Kept.iteFst | apply Kept.foldl
    | (extract_lets +onlyGivenNames z; refine Kept.cut (W := W) (m := m) (x := z) ?_ ?_; subst z; rotate_left; intro hz; clear_value z)
    | (extract_lets +onlyGivenNames z; clear_value z) | dsimp -zeta only | split

theorem endReaction_kept (h : Kept W m a) (x1 : Option Nat) (w0 : Area.ttl ∈ W) (w1 : Area.msix ∈ W) (w2 : Area.out ∈ W) : Kept W m
    (Machine.endReaction a x1) := by
  unfold Machine.endReaction
  with_reducible repeat' first
    | assumption | apply ttlLog_kept | apply setSlot_kept | apply interrupt_kept | apply modTtl_kept | intro _
    | apply Kept.ite | apply Kept.foldl | split

theorem writeHold_kept (h : Kept W m a) (x1 : Bool) (w0 : Area.ttl ∈ W) : Kept W m (Machine.writeHold a x1) := by
  unfold Machine.writeHold
  with_reducible repeat' first
    | assumption | apply pinRelease_kept | apply modTtl_kept | intro _ | apply Kept.ite | apply Kept.foldl | split

theorem force_kept (h : Kept W m a) (x1 : Nat) (w0 : Area.ttl ∈ W) : Kept W m (Machine.force a x1) := by
  unfold Machine.force
  with_reducible repeat' first
    | assumption | apply modTtl_kept | intro _ | apply Kept.ite | apply Kept.foldl | split

theorem clearFirst_kept (h : Kept W m a) (x1 : Nat) (x2 : Word) (w0 : Area.ttl ∈ W) : Kept W m (Machine.clearFirst a x1 x2) := by
  unfold Machine.clearFirst
  with_reducible repeat' first
    | assumption | apply modSrc_kept | apply modTtl_kept | intro _ | apply Kept.ite | apply Kept.foldl | split

theorem ttlResetStart_kept (h : Kept W m a) (w0 : Area.ttl ∈ W) : Kept W m (Machine.ttlResetStart a) := by
  unfold Machine.ttlResetStart
  with_reducible repeat' first
    | assumption | apply absorbSlots_kept | apply modTtl_kept | intro _ | apply Kept.ite | apply Kept.foldl | split

theorem ttlResetDone_kept (h : Kept W m a) (w0 : Area.ttl ∈ W) : Kept W m (Machine.ttlResetDone a) := by
  unfold Machine.ttlResetDone
  with_reducible repeat' first
    | assumption | apply modTtl_kept | intro _ | apply Kept.ite | apply Kept.foldl | split

theorem clearSlot_kept (h : Kept W m a) (x1 : Nat) (w0 : Area.ttl ∈ W) : Kept W m (Machine.clearSlot a x1) := by
  unfold Machine.clearSlot
  with_reducible repeat' first
    | assumption | apply setSlot_kept | intro _ | apply Kept.ite | apply Kept.foldl | split

/-! ### Memory -/

theorem opArrive_kept (h : Kept W m a) (x1 : PartOp) (w0 : Area.part ∈ W) : Kept W m (Machine.opArrive a x1) := by
  unfold Machine.opArrive
  simp -zeta -iota -proj only [Machine.upd_part_eq]
  with_reducible repeat' first
    | assumption | apply Kept.set_part | intro _ | apply Kept.ite | apply Kept.foldl | split

theorem setTile_kept (h : Kept W m a) (x1 : Nat) (x2 : TileRec) (w0 : Area.tiles ∈ W) : Kept W m (Machine.setTile a x1 x2) := by
  unfold Machine.setTile
  simp -zeta -iota -proj only [Machine.upd_tiles_eq]
  with_reducible repeat' first
    | assumption | apply Kept.set_tiles | intro _ | apply Kept.ite | apply Kept.foldl | split

theorem modTile_kept (h : Kept W m a) (x1 : Nat) (x2 : TileRec → TileRec) (w0 : Area.tiles ∈ W) : Kept W m (Machine.modTile a x1 x2) := by
  unfold Machine.modTile
  with_reducible repeat' first
    | assumption | apply setTile_kept | intro _ | apply Kept.ite | apply Kept.foldl | split

theorem storeWrite_kept (h : Kept W m a) (x1 x2 : Nat) (x3 : List Byte) (w0 : Area.tiles ∈ W) : Kept W m (Machine.storeWrite a x1 x2 x3)
    := by
  unfold Machine.storeWrite
  with_reducible repeat' first
    | assumption | apply modTile_kept | intro _ | apply Kept.ite | apply Kept.foldl | split

theorem setPhys_kept (h : Kept W m a) (x1 x2 : Nat) (x3 : PhysRec) (w0 : Area.tilePhys ∈ W) : Kept W m (Machine.setPhys a x1 x2 x3) := by
  unfold Machine.setPhys
  simp -zeta -iota -proj only [Machine.upd_tilePhys_eq]
  with_reducible repeat' first
    | assumption | apply Kept.set_tilePhys | intro _ | apply Kept.ite | apply Kept.foldl | split

theorem retireTile_kept (h : Kept W m a) (x1 : Nat) (w0 : Area.tiles ∈ W) (w1 : Area.tileMap ∈ W) (w2 : Area.tilePhys ∈ W) (w3
    : Area.hly ∈ W) (w4 : Area.tkp ∈ W) (w5 : Area.slc ∈ W) (w6 : Area.ttl ∈ W) (w7 : Area.out ∈ W) : Kept W m (Machine.retireTile a x1)
    := by
  unfold Machine.retireTile
  simp -zeta -iota -proj only [Machine.upd_tileMap_eq]
  with_reducible repeat' first
    | assumption | apply setPhys_kept | apply modTile_kept | apply floodOwn_kept | apply raise_kept
    | apply Kept.set_tileMap | intro _ | apply Kept.ite | apply Kept.foldl | split

theorem setPage_kept (h : Kept W m a) (x1 : Nat) (x2 : PageRec) (w0 : Area.hbm ∈ W) : Kept W m (Machine.setPage a x1 x2) := by
  unfold Machine.setPage
  simp -zeta -iota -proj only [Machine.upd_hbm_eq]
  with_reducible repeat' first
    | assumption | apply Kept.set_hbm | intro _ | apply Kept.ite | apply Kept.foldl | split

theorem setPages_kept (h : Kept W m a) (x1 x2 : Nat) (x3 : PageRec) (w0 : Area.hbm ∈ W) : Kept W m (Machine.setPages a x1 x2 x3) := by
  unfold Machine.setPages
  simp -zeta -iota -proj only [Machine.upd_hbm_eq]
  with_reducible repeat' first
    | assumption | apply Kept.set_hbm | intro _ | apply Kept.ite | apply Kept.foldl | split

theorem remapHbm_kept (h : Kept W m a) (x1 x2 : List Nat) (w0 : Area.hbm ∈ W) : Kept W m (Machine.remapHbm a x1 x2) := by
  unfold Machine.remapHbm
  simp -zeta -iota -proj only [Machine.upd_hbm_eq]
  with_reducible repeat' first
    | assumption | apply Kept.set_hbm | intro _ | apply Kept.ite | apply Kept.foldl | split

theorem unretirePages_kept (h : Kept W m a) (w0 : Area.hbm ∈ W) : Kept W m (Machine.unretirePages a) := by
  unfold Machine.unretirePages
  simp -zeta -iota -proj only [Machine.upd_hbm_eq]
  with_reducible repeat' first
    | assumption | apply Kept.set_hbm | intro _ | apply Kept.ite | apply Kept.foldl | split

theorem hbmWrite_kept (h : Kept W m a) (x1 : Nat) (x2 : List Byte) (w0 : Area.hbm ∈ W) : Kept W m (Machine.hbmWrite a x1 x2) := by
  unfold Machine.hbmWrite
  simp -zeta -iota -proj only [Machine.upd_hbm_eq]
  with_reducible repeat' first
    | assumption | apply Kept.set_hbm | intro _ | apply Kept.ite | apply Kept.foldl | split

theorem hbmZero_kept (h : Kept W m a) (x1 x2 : Nat) (w0 : Area.hbm ∈ W) : Kept W m (Machine.hbmZero a x1 x2) := by
  unfold Machine.hbmZero
  simp -zeta -iota -proj only [Machine.upd_hbm_eq]
  with_reducible repeat' first
    | assumption | apply Kept.set_hbm | intro _ | apply Kept.ite | apply Kept.foldl | split

theorem freePages_kept (h : Kept W m a) (x1 : List Nat) (w0 : Area.hbm ∈ W) : Kept W m (Machine.freePages a x1) := by
  unfold Machine.freePages
  with_reducible repeat' first
    | assumption | apply hbmZero_kept | apply setPage_kept | intro _ | apply Kept.ite | apply Kept.foldl | split

theorem meter_kept (h : Kept W m a) (x1 : Nat) (x2 : Meters → Meters) (w0 : Area.ctx ∈ W) : Kept W m (Machine.meter a x1 x2) := by
  unfold Machine.meter
  with_reducible repeat' first
    | assumption | apply modBase_kept | intro _ | apply Kept.ite | apply Kept.foldl | split

theorem meterHbm_kept (h : Kept W m a) (x1 x2 : Nat) (w0 : Area.ctx ∈ W) : Kept W m (Machine.meterHbm a x1 x2) := by
  unfold Machine.meterHbm
  with_reducible repeat' first
    | assumption | apply meter_kept | intro _ | apply Kept.ite | apply Kept.foldl | split

theorem meterLink_kept (h : Kept W m a) (x1 x2 : Nat) (w0 : Area.ctx ∈ W) : Kept W m (Machine.meterLink a x1 x2) := by
  unfold Machine.meterLink
  with_reducible repeat' first
    | assumption | apply meter_kept | intro _ | apply Kept.ite | apply Kept.foldl | split

theorem meterTile_kept (h : Kept W m a) (x1 x2 x3 : Nat) (w0 : Area.ctx ∈ W) : Kept W m (Machine.meterTile a x1 x2 x3) := by
  unfold Machine.meterTile
  with_reducible repeat' first
    | assumption | apply modBase_kept | intro _ | apply Kept.ite | apply Kept.foldl | split

/-! ### Streams -/

theorem setStrm_kept (h : Kept W m a) (x1 : Nat) (x2 : StreamRec) (w0 : Area.strm ∈ W) : Kept W m (Machine.setStrm a x1 x2) := by
  unfold Machine.setStrm
  simp -zeta -iota -proj only [Machine.upd_strm_eq]
  with_reducible repeat' first
    | assumption | apply Kept.set_strm | intro _ | apply Kept.ite | apply Kept.foldl | split

theorem modStrm_kept (h : Kept W m a) (x1 : Nat) (x2 : StreamRec → StreamRec) (w0 : Area.strm ∈ W) : Kept W m (Machine.modStrm a x1 x2)
    := by
  unfold Machine.modStrm
  with_reducible repeat' first
    | assumption | apply setStrm_kept | intro _ | apply Kept.ite | apply Kept.foldl | split

theorem staleDrop_kept (h : Kept W m a) (x1 : Nat) (w0 : Area.strm ∈ W) (w1 : Area.ttl ∈ W) : Kept W m (Machine.staleDrop a x1) := by
  unfold Machine.staleDrop
  simp -zeta -iota -proj only [Machine.upd_strm_eq]
  with_reducible repeat' first
    | assumption | apply modStrm_kept | apply raise_kept | apply Kept.set_strm | intro _ | apply Kept.ite
    | apply Kept.foldl | split

theorem sendHello_kept (h : Kept W m a) (x1 : Nat) (w0 : Area.fwd ∈ W) (w1 : Area.txSeq ∈ W) : Kept W m (Machine.sendHello a x1) := by
  unfold Machine.sendHello
  with_reducible repeat' first
    | assumption | apply inject_kept | intro _ | apply Kept.ite | apply Kept.foldl | split

theorem sendStreamCredit_kept (h : Kept W m a) (x1 : Nat) (w0 : Area.fwd ∈ W) (w1 : Area.txSeq ∈ W) (w2 : Area.strm ∈ W) : Kept W m
    (Machine.sendStreamCredit a x1) := by
  unfold Machine.sendStreamCredit
  with_reducible repeat' first
    | assumption | apply modStrm_kept | apply inject_kept | intro _ | apply Kept.ite | apply Kept.foldl | split

theorem offerCredit_kept (h : Kept W m a) (x1 : Nat) (w0 : Area.fwd ∈ W) (w1 : Area.txSeq ∈ W) (w2 : Area.strm ∈ W) : Kept W m
    (Machine.offerCredit a x1) := by
  unfold Machine.offerCredit
  with_reducible repeat' first
    | assumption | apply sendStreamCredit_kept | intro _ | apply Kept.ite | apply Kept.foldl | split

theorem takeHello_kept (h : Kept W m a) (x1 : Frame) (w0 : Area.fwd ∈ W) (w1 : Area.txSeq ∈ W) (w2 : Area.strm ∈ W) : Kept W m
    (Machine.takeHello a x1) := by
  unfold Machine.takeHello
  with_reducible repeat' first
    | assumption | apply offerCredit_kept | apply setStrm_kept | intro _ | apply Kept.ite | apply Kept.foldl | split

theorem takeCredit_kept (h : Kept W m a) (x1 : Frame) (w0 : Area.strm ∈ W) (w1 : Area.ttl ∈ W) : Kept W m (Machine.takeCredit a x1) := by
  unfold Machine.takeCredit
  simp -zeta -iota -proj only [Machine.upd_strm_eq]
  with_reducible repeat' first
    | assumption | apply setStrm_kept | apply raise_kept | apply Kept.set_strm | intro _ | apply Kept.ite
    | apply Kept.foldl | split

theorem landToken_kept (h : Kept W m a) (x1 : Nat) (x2 : Frame) (w0 : Area.tiles ∈ W) (w1 : Area.strm ∈ W) (w2 : Area.ttl ∈ W) : Kept W m
    (Machine.landToken a x1 x2) := by
  unfold Machine.landToken
  with_reducible repeat' first
    | assumption | apply staleDrop_kept | apply modStrm_kept | apply storeWrite_kept | intro _ | apply Kept.ite
    | apply Kept.foldl | split

theorem freeSlots_kept (h : Kept W m a) (x1 x2 : Nat) (w0 : Area.fwd ∈ W) (w1 : Area.txSeq ∈ W) (w2 : Area.strm ∈ W) : Kept W m
    (Machine.freeSlots a x1 x2) := by
  unfold Machine.freeSlots
  with_reducible repeat' first
    | assumption | apply offerCredit_kept | apply modStrm_kept | intro _ | apply Kept.ite | apply Kept.foldl | split

theorem takeCredits_kept (h : Kept W m a) (x1 x2 : Nat) (w0 : Area.strm ∈ W) : Kept W m (Machine.takeCredits a x1 x2) := by
  unfold Machine.takeCredits
  with_reducible repeat' first
    | assumption | apply modStrm_kept | intro _ | apply Kept.ite | apply Kept.foldl | split

theorem sendToken_kept (h : Kept W m a) (x1 x2 x3 : Nat) (x4 : Bool) (x5 : List Byte) (w0 : Area.fwd ∈ W) (w1 : Area.txSeq ∈ W) (w2
    : Area.strm ∈ W) (w3 : Area.ctx ∈ W) : Kept W m (Machine.sendToken a x1 x2 x3 x4 x5) := by
  unfold Machine.sendToken
  with_reducible repeat' first
    | assumption | apply modStrm_kept | apply meterLink_kept | apply inject_kept | intro _ | apply Kept.ite
    | apply Kept.foldl | split

theorem closeStream_kept (h : Kept W m a) (x1 : Nat) (w0 : Area.strm ∈ W) : Kept W m (Machine.closeStream a x1) := by
  unfold Machine.closeStream
  with_reducible repeat' first
    | assumption | apply modStrm_kept | intro _ | apply Kept.ite | apply Kept.foldl | split

theorem unbindStream_kept (h : Kept W m a) (x1 : Nat) (w0 : Area.fwd ∈ W) (w1 : Area.txSeq ∈ W) (w2 : Area.strm ∈ W) : Kept W m
    (Machine.unbindStream a x1) := by
  unfold Machine.unbindStream
  with_reducible repeat' first
    | assumption | apply sendHello_kept | apply modStrm_kept | intro _ | apply Kept.ite | apply Kept.foldl | split

theorem holdStream_kept (h : Kept W m a) (x1 x2 : Nat) (w0 : Area.strm ∈ W) : Kept W m (Machine.holdStream a x1 x2) := by
  unfold Machine.holdStream
  with_reducible repeat' first
    | assumption | apply modStrm_kept | intro _ | apply Kept.ite | apply Kept.foldl | split

theorem resumeStream_kept (h : Kept W m a) (x1 x2 : Nat) (w0 : Area.fwd ∈ W) (w1 : Area.txSeq ∈ W) (w2 : Area.strm ∈ W) : Kept W m
    (Machine.resumeStream a x1 x2) := by
  unfold Machine.resumeStream
  with_reducible repeat' first
    | assumption | apply sendHello_kept | apply setStrm_kept | intro _ | apply Kept.ite | apply Kept.foldl | split

theorem stDone_kept (h : Kept W m a) (x1 x2 : Nat) (w0 : Area.ctx ∈ W) (w1 : Area.msix ∈ W) (w2 : Area.out ∈ W) : Kept W m
    (Machine.stDone a x1 x2) := by
  unfold Machine.stDone
  with_reducible repeat' first
    | assumption | apply ctxInterrupt_kept | apply modCtx_kept | intro _ | apply Kept.ite | apply Kept.foldl | split

/-! ### Collectives -/

theorem setColl_kept (h : Kept W m a) (x1 : Nat) (x2 : Option CollRec) (w0 : Area.coll ∈ W) : Kept W m (Machine.setColl a x1 x2) := by
  unfold Machine.setColl
  simp -zeta -iota -proj only [Machine.upd_coll_eq]
  with_reducible repeat' first
    | assumption | apply Kept.set_coll | intro _ | apply Kept.ite | apply Kept.foldl | split

theorem sendColl_kept (h : Kept W m a) (x1 : Nat) (x2 : CollRec) (x3 : NodeId) (x4 : Nat) (x5 : List Byte) (w0 : Area.fwd ∈ W) (w1
    : Area.txSeq ∈ W) (w2 : Area.luff ∈ W) (w3 : Area.ctx ∈ W) : Kept W m (Machine.sendColl a x1 x2 x3 x4 x5) := by
  unfold Machine.sendColl
  with_reducible repeat' first
    | assumption | apply meterLink_kept | apply inject_kept | apply luffStep_kept | intro _ | apply Kept.ite
    | apply Kept.foldl | split

theorem senseStep_kept (h : Kept W m a) (x1 : Nat) (x2 : CollRec) (x3 : Nat) (w0 : Area.fwd ∈ W) (w1 : Area.txSeq ∈ W) (w2 : Area.luff ∈ W)
    (w3 : Area.ctx ∈ W) : Kept W m (Machine.senseStep a x1 x2 x3).1 := by
  unfold Machine.senseStep
  with_reducible repeat' first
    | assumption | apply sendColl_kept | intro _ | apply Kept.ite | apply Kept.iteFst | apply Kept.foldl
    | (extract_lets +onlyGivenNames z; clear_value z) | dsimp -zeta only | split

theorem treeStep_kept (h : Kept W m a) (x1 : Nat) (x2 : CollRec) (w0 : Area.fwd ∈ W) (w1 : Area.txSeq ∈ W) (w2 : Area.luff ∈ W) (w3
    : Area.ctx ∈ W) : Kept W m (Machine.treeStep a x1 x2).1 := by
  unfold Machine.treeStep
  with_reducible repeat' first
    | assumption | apply sendColl_kept | intro _ | apply Kept.iteFst | apply Kept.foldl
    | (extract_lets +onlyGivenNames z; (first | have _ : _ → Machine := z | have _ : _ → _ → Machine := z); subst z; dsimp only)
    | (extract_lets +onlyGivenNames z; clear_value z) | (extract_lets +onlyGivenNames z) | dsimp -zeta only | split

theorem collLand_kept (h : Kept W m a) (x1 : CollRec) (w0 : Area.tiles ∈ W) : Kept W m (Machine.collLand a x1) := by
  unfold Machine.collLand
  with_reducible repeat' first
    | assumption | apply storeWrite_kept | intro _ | apply Kept.ite | apply Kept.foldl | split

theorem collComplete_kept (h : Kept W m a) (x1 : Nat) (x2 : CollRec) (w0 : Area.coll ∈ W) (w1 : Area.tiles ∈ W) : Kept W m
    (Machine.collComplete a x1 x2) := by
  unfold Machine.collComplete
  with_reducible repeat' first
    | assumption | apply collLand_kept | apply setColl_kept | intro _ | apply Kept.ite | apply Kept.foldl | split

theorem collAdvance_kept (h : Kept W m a) (x1 : Nat) (x2 : CollRec) (x3 : Nat) (w0 : Area.fwd ∈ W) (w1 : Area.txSeq ∈ W) (w2
    : Area.coll ∈ W) (w3 : Area.tiles ∈ W) (w4 : Area.luff ∈ W) (w5 : Area.ctx ∈ W) : Kept W m (Machine.collAdvance a x1 x2 x3) := by
  induction x3 generalizing a x2 with
  | zero => exact setColl_kept h _ _ w2
  | succ n ih =>
    have hf : ∀ (l : List Nat) (p : Machine × CollRec), Kept W m p.1 →
        Kept W m (l.foldl (fun p i => p.1.senseStep x1 p.2 i) p).1 := by
      intro l
      induction l with
      | nil => exact fun p hp => hp
      | cons i l il => exact fun p hp => il _ (by apply senseStep_kept <;> assumption)
    unfold Machine.collAdvance
    repeat' (first
      | with_reducible assumption
      | with_reducible apply ih
      | with_reducible apply setColl_kept
      | with_reducible apply collComplete_kept
      | with_reducible apply treeStep_kept
      | with_reducible apply hf
      | with_reducible apply Kept.ite
      | split
      | (refine Kept.ofFst ‹_ = (_, _)› ?_))

theorem collStart_kept (h : Kept W m a) (x1 : Nat) (x2 : CollRec) (w0 : Area.fwd ∈ W) (w1 : Area.txSeq ∈ W) (w2 : Area.coll ∈ W) (w3
    : Area.tiles ∈ W) (w4 : Area.luff ∈ W) (w5 : Area.ctx ∈ W) : Kept W m (Machine.collStart a x1 x2) := by
  unfold Machine.collStart
  with_reducible repeat' first
    | assumption | apply collAdvance_kept | intro _ | apply Kept.ite | apply Kept.foldl | split

theorem collSupply_kept (h : Kept W m a) (x1 : Nat) (x2 : List Byte) (w0 : Area.fwd ∈ W) (w1 : Area.txSeq ∈ W) (w2 : Area.coll ∈ W) (w3
    : Area.tiles ∈ W) (w4 : Area.luff ∈ W) (w5 : Area.ctx ∈ W) : Kept W m (Machine.collSupply a x1 x2) := by
  unfold Machine.collSupply
  with_reducible repeat' first
    | assumption | apply collAdvance_kept | apply collLand_kept | apply setColl_kept | intro _ | apply Kept.ite
    | apply Kept.foldl | split

theorem collBegin_kept (h : Kept W m a) (x1 : Nat) (x2 : CollRec) (w0 : Area.fwd ∈ W) (w1 : Area.txSeq ∈ W) (w2 : Area.coll ∈ W) (w3
    : Area.tiles ∈ W) (w4 : Area.luff ∈ W) (w5 : Area.ctx ∈ W) : Kept W m (Machine.collBegin a x1 x2) := by
  unfold Machine.collBegin
  with_reducible repeat' first
    | assumption | apply collAdvance_kept | intro _ | apply Kept.ite | apply Kept.foldl | split

theorem collFrame_kept (h : Kept W m a) (x1 : Frame) (w0 : Area.fwd ∈ W) (w1 : Area.txSeq ∈ W) (w2 : Area.coll ∈ W) (w3 : Area.tiles ∈ W)
    (w4 : Area.strm ∈ W) (w5 : Area.luff ∈ W) (w6 : Area.ctx ∈ W) (w7 : Area.ttl ∈ W) : Kept W m (Machine.collFrame a x1) := by
  unfold Machine.collFrame
  with_reducible repeat' first
    | assumption | apply collBegin_kept | apply collAdvance_kept | apply staleDrop_kept | apply luffStep_kept | intro _
    | apply Kept.ite | apply Kept.foldl | split

theorem collFree_kept (h : Kept W m a) (x1 x2 : Nat) (w0 : Area.fwd ∈ W) (w1 : Area.txSeq ∈ W) (w2 : Area.coll ∈ W) (w3 : Area.tiles ∈ W)
    (w4 : Area.luff ∈ W) (w5 : Area.ctx ∈ W) : Kept W m (Machine.collFree a x1 x2) := by
  unfold Machine.collFree
  with_reducible repeat' first
    | assumption | apply collBegin_kept | apply setColl_kept | intro _ | apply Kept.ite | apply Kept.foldl | split

theorem collAbort_kept (h : Kept W m a) (x1 : Nat) (w0 : Area.coll ∈ W) : Kept W m (Machine.collAbort a x1) := by
  unfold Machine.collAbort
  with_reducible repeat' first
    | assumption | apply setColl_kept | intro _ | apply Kept.ite | apply Kept.foldl | split

theorem reportEach_kept (h : Kept W m a) (x1 : Nat) (x2 : List Nat) (w0 : Area.out ∈ W) : Kept W m (Machine.reportEach a x1 x2) := by
  unfold Machine.reportEach
  with_reducible repeat' first
    | assumption | apply reportFlow_kept | intro _ | apply Kept.ite | apply Kept.foldl | split

theorem reportFlows_kept (h : Kept W m a) (x1 : Nat) (w0 : Area.out ∈ W) : Kept W m (Machine.reportFlows a x1) := by
  unfold Machine.reportFlows
  with_reducible repeat' first
    | assumption | apply reportEach_kept | intro _ | apply Kept.ite | apply Kept.foldl | split

end Sys2Proof.Machine
end

