-- ==== Sys2Proof/Laws/KeptSteps.lean ====
section
/-!
SUPPORT. Frames of planner jobs, the master, power and the execution of images on tiles: one lemma per operation, naming the blocks it may write; it
keeps every other block.
-/
set_option linter.tactic.unusedName false
set_option linter.unusedSimpArgs false
namespace Sys2Proof.Machine

variable {W : List Area} {m a : Machine}

/-! ### TackJobs -/

theorem takeResult_kept (h : Kept W m a) (x1 : Job) (x2 : Result) (x3 : Bool) (w0 : Area.tkp ∈ W) (w1 : Area.ttl ∈ W) : Kept W m
    (Machine.takeResult a x1 x2 x3).1 := by
  unfold Machine.takeResult
  simp -zeta -iota -proj only [Machine.upd_tkp_eq]
  with_reducible repeat' first
    | assumption | apply raise_kept | apply Kept.set_tkp | intro _ | apply Kept.ite | apply Kept.foldl | split

theorem startJob_kept (h : Kept W m a) (w0 : Area.tkp ∈ W) (w1 : Area.ttl ∈ W) : Kept W m (Machine.startJob a).1 := by
  unfold Machine.startJob
  simp -zeta -iota -proj only [Machine.upd_tkp_eq]
  with_reducible repeat' first
    | assumption | apply takeResult_kept | apply Kept.set_tkp | intro _ | apply Kept.ite | apply Kept.iteFst
    | apply Kept.foldl
    | (extract_lets +onlyGivenNames z; refine Kept.cut (W := W) (m := m) (x := z) ?_ ?_; subst z; rotate_left; intro hz; clear_value z)
    | (extract_lets +onlyGivenNames z; clear_value z) | dsimp -zeta only | split

theorem endJob_kept (h : Kept W m a) (x1 : Job) (x2 : Bool) (w0 : Area.luff ∈ W) (w1 : Area.tkp ∈ W) (w2 : Area.ttl ∈ W) : Kept W m
    (Machine.endJob a x1 x2).1 := by
  unfold Machine.endJob
  with_reducible repeat' first
    | assumption | apply takeResult_kept | apply hlyItem_kept | intro _ | apply Kept.ite | apply Kept.foldl | split

theorem plannerRound_kept (h : Kept W m a) (w0 : Area.luff ∈ W) (w1 : Area.tkp ∈ W) (w2 : Area.ttl ∈ W) : Kept W m
    (Machine.plannerRound a).1 := by
  have hs : ∀ j, Kept W m { a with tkp := { a.tkp with job := some j } } := fun j => Kept.set_tkp h ‹_›
  unfold Machine.plannerRound
  split
  · exact h
  · dsimp only
    repeat' (first
      | exact hs _
      | with_reducible apply endJob_kept
      | with_reducible assumption
      | with_reducible apply Kept.iteFst
      | split)

theorem plannerDeadline_kept (h : Kept W m a) (w0 : Area.luff ∈ W) (w1 : Area.tkp ∈ W) (w2 : Area.ttl ∈ W) : Kept W m
    (Machine.plannerDeadline a).1 := by
  unfold Machine.plannerDeadline
  with_reducible repeat' first
    | assumption | apply endJob_kept | intro _ | apply Kept.ite | apply Kept.foldl | split

/-! ### MasterOps -/

theorem nextChange_kept (h : Kept W m a) (x1 : Change) (x2 : List AfterSwitch) (w0 : Area.hly ∈ W) : Kept W m (Machine.nextChange a x1 x2)
    := by
  unfold Machine.nextChange
  with_reducible repeat' first
    | assumption | apply submit_kept | apply modWork_kept | intro _ | apply Kept.ite | apply Kept.foldl | split

theorem finishCmd_kept (h : Kept W m a) (x1 : Nat) (x2 : List Word) (x3 : List Byte) (w0 : Area.hly ∈ W) (w1 : Area.out ∈ W) : Kept W m
    (Machine.finishCmd a x1 x2 x3) := by
  unfold Machine.finishCmd
  simp -zeta -iota -proj only [Machine.upd_hly_eq]
  with_reducible repeat' first
    | assumption | apply tell_kept | apply Kept.set_hly | intro _ | apply Kept.ite | apply Kept.foldl | split

theorem finishSlice_kept (h : Kept W m a) (x1 : Nat) (x2 : List Word) (w0 : Area.hly ∈ W) (w1 : Area.out ∈ W) : Kept W m
    (Machine.finishSlice a x1 x2) := by
  unfold Machine.finishSlice
  with_reducible repeat' first
    | assumption | apply finishCmd_kept | intro _ | apply Kept.ite | apply Kept.foldl | split

theorem floodEvent_kept (h : Kept W m a) (x1 : Nat) (x2 : BitVec 8) (x3 : Nat) (x4 : NodeId) (x5 : Nat) (w0 : Area.out ∈ W) : Kept W m
    (Machine.floodEvent a x1 x2 x3 x4 x5) := by
  unfold Machine.floodEvent
  with_reducible repeat' first
    | assumption | apply tell_kept | intro _ | apply Kept.ite | apply Kept.foldl | split

theorem modParts_kept (h : Kept W m a) (x1 : NodeId) (x2 : NodeParts → NodeParts) (w0 : Area.slc ∈ W) : Kept W m (Machine.modParts a x1 x2)
    := by
  unfold Machine.modParts
  simp -zeta -iota -proj only [Machine.upd_slc_eq]
  with_reducible repeat' first
    | assumption | apply Kept.set_slc | intro _ | apply Kept.ite | apply Kept.foldl | split

theorem memberGone_kept (h : Kept W m a) (x1 : NodeId) (x2 : Nat) (w0 : Area.hly ∈ W) (w1 : Area.slc ∈ W) (w2 : Area.out ∈ W) : Kept W m
    (Machine.memberGone a x1 x2) := by
  unfold Machine.memberGone
  with_reducible repeat' first
    | assumption | apply commitThen_kept | apply setSlice_kept | intro _ | apply Kept.ite | apply Kept.foldl | split

theorem memberReturn_kept (h : Kept W m a) (w0 : Area.hly ∈ W) (w1 : Area.slc ∈ W) (w2 : Area.out ∈ W) : Kept W m (Machine.memberReturn a)
    := by
  unfold Machine.memberReturn
  with_reducible repeat' first
    | assumption | apply commitThen_kept | apply setSlice_kept | intro _ | apply Kept.ite | apply Kept.foldl | split

theorem memberReset_kept (h : Kept W m a) (x1 : NodeId) (w0 : Area.out ∈ W) : Kept W m (Machine.memberReset a x1) := by
  unfold Machine.memberReset
  with_reducible repeat' first
    | assumption | apply floodEvent_kept | intro _ | apply Kept.ite | apply Kept.foldl | split

theorem memberBack_kept (h : Kept W m a) (x1 : NodeId) (w0 : Area.out ∈ W) : Kept W m (Machine.memberBack a x1) := by
  unfold Machine.memberBack
  with_reducible repeat' first
    | assumption | apply tell_kept | intro _ | apply Kept.ite | apply Kept.foldl | split

theorem writeEvent_kept (h : Kept W m a) (x1 : SliceEvent) (w0 : Area.part ∈ W) (w1 : Area.ttl ∈ W) (w2 : Area.hst ∈ W) (w3 : Area.msix ∈ W)
    (w4 : Area.hostMem ∈ W) (w5 : Area.out ∈ W) : Kept W m (Machine.writeEvent a x1) := by
  unfold Machine.writeEvent
  simp -zeta -iota -proj only [Machine.upd_part_eq]
  with_reducible repeat' first
    | assumption | apply flushReads_kept | apply hostWrite_kept | apply interrupt_kept | apply raise_kept
    | apply Kept.set_part | intro _ | apply Kept.ite | apply Kept.foldl | split

theorem markEvent_kept (h : Kept W m a) (x1 x2 : Nat) (w0 : Area.ctx ∈ W) (w1 : Area.msix ∈ W) (w2 : Area.out ∈ W) : Kept W m
    (Machine.markEvent a x1 x2) := by
  unfold Machine.markEvent
  with_reducible repeat' first
    | assumption | apply ctxInterrupt_kept | apply modBase_kept | intro _ | apply Kept.ite | apply Kept.foldl | split

theorem localEvent_kept (h : Kept W m a) (x1 : Nat) (x2 : BitVec 8) (x3 : Nat) (x4 : Word) (w0 : Area.part ∈ W) (w1 : Area.ttl ∈ W) (w2
    : Area.hst ∈ W) (w3 : Area.msix ∈ W) (w4 : Area.hostMem ∈ W) (w5 : Area.out ∈ W) : Kept W m (Machine.localEvent a x1 x2 x3 x4) := by
  unfold Machine.localEvent
  with_reducible repeat' first
    | assumption | apply writeEvent_kept | intro _ | apply Kept.ite | apply Kept.foldl | split

theorem discardFinals_kept (h : Kept W m a) (x1 : Nat) (w0 : Area.part ∈ W) (w1 : Area.ctx ∈ W) (w2 : Area.ttl ∈ W) (w3 : Area.hst ∈ W) (w4
    : Area.msix ∈ W) (w5 : Area.hostMem ∈ W) (w6 : Area.out ∈ W) : Kept W m (Machine.discardFinals a x1) := by
  unfold Machine.discardFinals
  simp -zeta -iota -proj only [Machine.upd_part_eq]
  with_reducible repeat' first
    | assumption | apply localEvent_kept | apply modBase_kept | apply Kept.set_part | intro _ | apply Kept.ite
    | apply Kept.foldl | split

theorem unbindPart_kept (h : Kept W m a) (x1 : Nat) (w0 : Area.part ∈ W) : Kept W m (Machine.unbindPart a x1) := by
  unfold Machine.unbindPart
  with_reducible repeat' first
    | assumption | apply setPart_kept | intro _ | apply Kept.ite | apply Kept.foldl | split

theorem bindPart_kept (h : Kept W m a) (x1 : BindEntry) (w0 : Area.part ∈ W) (w1 : Area.ctx ∈ W) (w2 : Area.ttl ∈ W) (w3 : Area.hst ∈ W) (w4
    : Area.msix ∈ W) (w5 : Area.hostMem ∈ W) (w6 : Area.out ∈ W) : Kept W m (Machine.bindPart a x1) := by
  unfold Machine.bindPart
  simp -zeta -iota -proj only [Machine.upd_part_eq]
  with_reducible repeat' first
    | assumption | apply unbindPart_kept | apply discardFinals_kept | apply setPart_kept | apply Kept.set_part | intro _
    | apply Kept.ite | apply Kept.foldl | split

theorem fillBank_kept (h : Kept W m a) (x1 : Prepare) (x2 : List NodeRec) (x3 : List LinkRec) (w0 : Area.hly ∈ W) : Kept W m
    (Machine.fillBank a x1 x2 x3) := by
  unfold Machine.fillBank
  simp -zeta -iota -proj only [Machine.upd_hly_eq]
  with_reducible repeat' first
    | assumption | apply modHly_kept | apply Kept.set_hly | intro _ | apply Kept.ite | apply Kept.foldl | split

theorem sendPrepare_kept (h : Kept W m a) (w0 : Area.hly ∈ W) (w1 : Area.out ∈ W) : Kept W m (Machine.sendPrepare a) := by
  unfold Machine.sendPrepare
  with_reducible repeat' first
    | assumption | apply fillBank_kept | apply tellKids_kept | apply modWork_kept | intro _ | apply Kept.ite
    | apply Kept.foldl | split

theorem pushJob_kept (h : Kept W m a) (x1 : Job) (w0 : Area.tkp ∈ W) : Kept W m (Machine.pushJob a x1) := by
  unfold Machine.pushJob
  simp -zeta -iota -proj only [Machine.upd_tkp_eq]
  with_reducible repeat' first
    | assumption | apply Kept.set_tkp | intro _ | apply Kept.ite | apply Kept.foldl | split

theorem pushRerun_kept (h : Kept W m a) (w0 : Area.hly ∈ W) (w1 : Area.tkp ∈ W) : Kept W m (Machine.pushRerun a) := by
  unfold Machine.pushRerun
  with_reducible repeat' first
    | assumption | apply pushJob_kept | apply modWork_kept | intro _ | apply Kept.ite | apply Kept.foldl | split

theorem advanceN_kept (h : Kept W m a) (x1 : Nat) (w0 : Area.hly ∈ W) (w1 : Area.tkp ∈ W) (w2 : Area.out ∈ W) : Kept W m
    (Machine.advanceN a x1) := by
  induction x1 generalizing a with
  | zero => exact h
  | succ n ih =>
    unfold Machine.advanceN
    simp -zeta -iota -proj only [Machine.upd_hly_eq]
    repeat' (first
      | with_reducible assumption
      | with_reducible apply ih
      | with_reducible apply pushRerun_kept
      | with_reducible apply pushJob_kept
      | with_reducible apply sendPrepare_kept
      | with_reducible apply replicate_kept
      | with_reducible apply tellAll_kept
      | with_reducible apply modWork_kept
      | with_reducible apply Kept.set_hly
      | intro _
      | with_reducible apply Kept.ite
      | with_reducible apply Kept.iteFst
      | with_reducible apply Kept.foldl
      | (extract_lets +onlyGivenNames z; refine Kept.cut (W := W) (m := m) (x := z) ?_ ?_; subst z; rotate_left; intro hz; clear_value z)
      | (extract_lets +onlyGivenNames z; clear_value z)
      | dsimp -zeta only
      | split)

theorem advance_kept (h : Kept W m a) (w0 : Area.hly ∈ W) (w1 : Area.tkp ∈ W) (w2 : Area.out ∈ W) : Kept W m (Machine.advance a) := by
  unfold Machine.advance
  with_reducible repeat' first
    | assumption | apply advanceN_kept | intro _ | apply Kept.ite | apply Kept.foldl | split

theorem floodGen_kept (h : Kept W m a) (x1 : Word) (w0 : Area.out ∈ W) : Kept W m (Machine.floodGen a x1) := by
  unfold Machine.floodGen
  with_reducible repeat' first
    | assumption | apply tellAll_kept | intro _ | apply Kept.ite | apply Kept.foldl | split

theorem closeCollection_kept (h : Kept W m a) (w0 : Area.time ∈ W) (w1 : Area.hly ∈ W) (w2 : Area.tkp ∈ W) (w3 : Area.slc ∈ W) (w4
    : Area.ttl ∈ W) (w5 : Area.out ∈ W) : Kept W m (Machine.closeCollection a) := by
  unfold Machine.closeCollection
  with_reducible repeat' first
    | assumption | apply floodGen_kept | apply advance_kept | apply memberBack_kept | apply applyChange_kept
    | apply elect_kept | apply replicate_kept | apply raise_kept | apply modWork_kept | apply modDb_kept
    | apply modHly_kept | intro _ | apply Kept.ite | apply Kept.foldl | split

theorem replanDone_kept (h : Kept W m a) (w0 : Area.hly ∈ W) (w1 : Area.tkp ∈ W) (w2 : Area.out ∈ W) : Kept W m (Machine.replanDone a) := by
  unfold Machine.replanDone
  simp -zeta -iota -proj only [Machine.upd_tkp_eq]
  with_reducible repeat' first
    | assumption | apply advance_kept | apply pushRerun_kept | apply modWork_kept | apply Kept.set_tkp | intro _
    | apply Kept.ite | apply Kept.foldl | split

theorem readyLate_kept (h : Kept W m a) (x1 : NodeId) (w0 : Area.hly ∈ W) (w1 : Area.tkp ∈ W) (w2 : Area.slc ∈ W) (w3 : Area.ttl ∈ W) (w4
    : Area.out ∈ W) : Kept W m (Machine.readyLate a x1) := by
  unfold Machine.readyLate
  with_reducible repeat' first
    | assumption | apply memberGone_kept | apply abortPrepare_kept | apply submit_kept | apply modWork_kept | intro _
    | apply Kept.ite | apply Kept.foldl | split

theorem placeAgain_kept (h : Kept W m a) (x1 : NodeId) (w0 : Area.hly ∈ W) (w1 : Area.tkp ∈ W) (w2 : Area.slc ∈ W) : Kept W m
    (Machine.placeAgain a x1) := by
  unfold Machine.placeAgain
  simp -zeta -iota -proj only [Machine.upd_tkp_eq]
  with_reducible repeat' first
    | assumption | apply modWork_kept | apply modSlice_kept | apply Kept.set_tkp | intro _ | apply Kept.ite
    | apply Kept.foldl | split

theorem disablePort_kept (h : Kept W m a) (x1 : Nat) (w0 : Area.time ∈ W) (w1 : Area.shr ∈ W) (w2 : Area.fwd ∈ W) (w3 : Area.hly ∈ W) (w4
    : Area.tkp ∈ W) (w5 : Area.slc ∈ W) (w6 : Area.ttl ∈ W) (w7 : Area.out ∈ W) : Kept W m (Machine.disablePort a x1) := by
  unfold Machine.disablePort
  with_reducible repeat' first
    | assumption | apply handover_kept | apply portDown_kept | apply modPort_kept | intro _ | apply Kept.ite
    | apply Kept.foldl | split

theorem trainPort_kept (h : Kept W m a) (x1 : Nat) (x2 : Option CableRead) (w0 : Area.time ∈ W) (w1 : Area.shr ∈ W) (w2 : Area.fwd ∈ W) (w3
    : Area.hly ∈ W) (w4 : Area.tkp ∈ W) (w5 : Area.slc ∈ W) (w6 : Area.ttl ∈ W) (w7 : Area.out ∈ W) : Kept W m (Machine.trainPort a x1 x2)
    := by
  unfold Machine.trainPort
  with_reducible repeat' first
    | assumption | apply handover_kept | apply enterDetect_kept | apply floodOwn_kept | apply tell_kept | intro _
    | apply Kept.ite | apply Kept.foldl | split

theorem tryRetire_kept (h : Kept W m a) (x1 : Nat) (w0 : Area.hly ∈ W) (w1 : Area.slc ∈ W) (w2 : Area.out ∈ W) : Kept W m
    (Machine.tryRetire a x1) := by
  unfold Machine.tryRetire
  with_reducible repeat' first
    | assumption | apply replicate_kept | apply setSlice_kept | intro _ | apply Kept.ite | apply Kept.foldl | split

theorem tryRelease_kept (h : Kept W m a) (x1 : Nat) (w0 : Area.hly ∈ W) (w1 : Area.slc ∈ W) (w2 : Area.out ∈ W) : Kept W m
    (Machine.tryRelease a x1) := by
  unfold Machine.tryRelease
  with_reducible repeat' first
    | assumption | apply commitThen_kept | apply setSlice_kept | intro _ | apply Kept.ite | apply Kept.foldl | split

theorem markAbsent_kept (h : Kept W m a) (x1 : NodeId) (w0 : Area.hly ∈ W) (w1 : Area.tkp ∈ W) (w2 : Area.slc ∈ W) (w3 : Area.ttl ∈ W) (w4
    : Area.out ∈ W) : Kept W m (Machine.markAbsent a x1) := by
  unfold Machine.markAbsent
  with_reducible repeat' first
    | assumption | apply tryRelease_kept | apply tryRetire_kept | apply placeAgain_kept | apply memberGone_kept
    | apply renewStandby_kept | apply stampNodes_kept | apply abortPrepare_kept | intro _ | apply Kept.ite
    | apply Kept.foldl | split

theorem afterOne_kept (h : Kept W m a) (x1 : AfterSwitch) (w0 : Area.time ∈ W) (w1 : Area.shr ∈ W) (w2 : Area.fwd ∈ W) (w3 : Area.hly ∈ W)
    (w4 : Area.tkp ∈ W) (w5 : Area.slc ∈ W) (w6 : Area.ttl ∈ W) (w7 : Area.out ∈ W) : Kept W m (Machine.afterOne a x1) := by
  unfold Machine.afterOne
  simp -zeta -iota -proj only [Machine.upd_slc_eq]
  with_reducible repeat' first
    | assumption | apply tryRetire_kept | apply trainPort_kept | apply disablePort_kept | apply finishSlice_kept
    | apply finishCmd_kept | apply commitThen_kept | apply replicate_kept | apply submit_kept | apply tell_kept
    | apply setSlice_kept | apply Kept.set_slc | intro _ | apply Kept.ite | apply Kept.foldl | split

theorem regradeSlices_kept (h : Kept W m a) (x1 : List Nat) (w0 : Area.hly ∈ W) (w1 : Area.slc ∈ W) (w2 : Area.out ∈ W) : Kept W m
    (Machine.regradeSlices a x1) := by
  unfold Machine.regradeSlices
  with_reducible repeat' first
    | assumption | apply commitThen_kept | apply setSlice_kept | intro _ | apply Kept.ite | apply Kept.foldl | split

theorem extraDone_kept (h : Kept W m a) (x1 : Bool) (w0 : Area.hly ∈ W) : Kept W m (Machine.extraDone a x1) := by
  unfold Machine.extraDone
  with_reducible repeat' first
    | assumption | apply modWork_kept | intro _ | apply Kept.ite | apply Kept.foldl | split

theorem masterSwitched_kept (h : Kept W m a) (w0 : Area.time ∈ W) (w1 : Area.shr ∈ W) (w2 : Area.fwd ∈ W) (w3 : Area.hly ∈ W) (w4
    : Area.tkp ∈ W) (w5 : Area.slc ∈ W) (w6 : Area.ttl ∈ W) (w7 : Area.out ∈ W) : Kept W m (Machine.masterSwitched a) := by
  unfold Machine.masterSwitched
  simp -zeta -iota -proj only [Machine.upd_tkp_eq]
  with_reducible repeat' first
    | assumption | apply extraDone_kept | apply regradeSlices_kept | apply afterOne_kept | apply memberReturn_kept
    | apply replicate_kept | apply raise_kept | apply modWork_kept | apply Kept.set_tkp | intro _ | apply Kept.ite
    | apply Kept.foldl | split

/-! ### ReefOps -/

theorem modRdie_kept (h : Kept W m a) (x1 : Nat) (x2 : ReefDie → ReefDie) (w0 : Area.reef ∈ W) : Kept W m (Machine.modRdie a x1 x2) := by
  unfold Machine.modRdie
  simp -zeta -iota -proj only [Machine.upd_reef_eq]
  with_reducible repeat' first
    | assumption | apply Kept.set_reef | intro _ | apply Kept.ite | apply Kept.foldl | split

theorem modRpart_kept (h : Kept W m a) (x1 : Nat) (x2 : ReefPart → ReefPart) (w0 : Area.reef ∈ W) : Kept W m (Machine.modRpart a x1 x2)
    := by
  unfold Machine.modRpart
  simp -zeta -iota -proj only [Machine.upd_reef_eq]
  with_reducible repeat' first
    | assumption | apply Kept.set_reef | intro _ | apply Kept.ite | apply Kept.foldl | split

theorem modReef_kept (h : Kept W m a) (x1 : Reef → Reef) (w0 : Area.reef ∈ W) : Kept W m (Machine.modReef a x1) := by
  unfold Machine.modReef
  simp -zeta -iota -proj only [Machine.upd_reef_eq]
  with_reducible repeat' first
    | assumption | apply Kept.set_reef | intro _ | apply Kept.ite | apply Kept.foldl | split

theorem beginPreRamp_kept (h : Kept W m a) (x1 : Nat) (w0 : Area.reef ∈ W) : Kept W m (Machine.beginPreRamp a x1) := by
  unfold Machine.beginPreRamp
  with_reducible repeat' first
    | assumption | apply modRpart_kept | intro _ | apply Kept.ite | apply Kept.foldl | split

theorem reefArm_kept (h : Kept W m a) (x1 : Nat) (w0 : Area.reef ∈ W) : Kept W m (Machine.reefArm a x1) := by
  unfold Machine.reefArm
  with_reducible repeat' first
    | assumption | apply beginPreRamp_kept | apply modReef_kept | apply modRpart_kept | intro _ | apply Kept.ite
    | apply Kept.foldl | split

theorem reefRelease_kept (h : Kept W m a) (x1 : Nat) (w0 : Area.reef ∈ W) : Kept W m (Machine.reefRelease a x1) := by
  unfold Machine.reefRelease
  with_reducible repeat' first
    | assumption | apply modRpart_kept | intro _ | apply Kept.ite | apply Kept.foldl | split

theorem reefFall_kept (h : Kept W m a) (x1 : Nat) (w0 : Area.reef ∈ W) : Kept W m (Machine.reefFall a x1) := by
  unfold Machine.reefFall
  with_reducible repeat' first
    | assumption | apply modRpart_kept | intro _ | apply Kept.ite | apply Kept.foldl | split

theorem reefCancel_kept (h : Kept W m a) (x1 : Nat) (w0 : Area.reef ∈ W) : Kept W m (Machine.reefCancel a x1) := by
  unfold Machine.reefCancel
  with_reducible repeat' first
    | assumption | apply modRpart_kept | intro _ | apply Kept.ite | apply Kept.foldl | split

theorem reefIdle_kept (h : Kept W m a) (x1 : Nat) (w0 : Area.reef ∈ W) : Kept W m (Machine.reefIdle a x1) := by
  unfold Machine.reefIdle
  with_reducible repeat' first
    | assumption | apply modRdie_kept | intro _ | apply Kept.ite | apply Kept.foldl | split

/-! ### Execution -/

theorem modXc_kept (h : Kept W m a) (x1 : Nat) (x2 : Xc → Xc) (w0 : Area.ctx ∈ W) : Kept W m (Machine.modXc a x1 x2) := by
  unfold Machine.modXc
  with_reducible repeat' first
    | assumption | apply modCtx_kept | intro _ | apply Kept.ite | apply Kept.foldl | split

theorem modRun_kept (h : Kept W m a) (x1 : Nat) (x2 : RunStep → RunStep) (w0 : Area.ctx ∈ W) : Kept W m (Machine.modRun a x1 x2) := by
  unfold Machine.modRun
  with_reducible repeat' first
    | assumption | apply modXc_kept | intro _ | apply Kept.ite | apply Kept.foldl | split

theorem cqWrite_kept (h : Kept W m a) (x1 : Nat) (x2 : List Byte) (w0 : Area.ctx ∈ W) (w1 : Area.msix ∈ W) (w2 : Area.hostMem ∈ W) (w3
    : Area.out ∈ W) : Kept W m (Machine.cqWrite a x1 x2) := by
  unfold Machine.cqWrite
  with_reducible repeat' first
    | assumption | apply modXc_kept | apply hostWrite_kept | apply ctxInterrupt_kept | intro _ | apply Kept.ite
    | apply Kept.foldl | split

theorem cqFlush_kept (h : Kept W m a) (x1 : Nat) (w0 : Area.ctx ∈ W) (w1 : Area.msix ∈ W) (w2 : Area.hostMem ∈ W) (w3 : Area.out ∈ W) :
    Kept W m (Machine.cqFlush a x1) := by
  unfold Machine.cqFlush
  with_reducible repeat' first
    | assumption | apply cqWrite_kept | apply modXc_kept | intro _ | apply Kept.ite | apply Kept.foldl | split

theorem cancelStep_kept (h : Kept W m a) (x1 : Nat) (x2 : QStep) (w0 : Area.ctx ∈ W) (w1 : Area.msix ∈ W) (w2 : Area.hostMem ∈ W) (w3
    : Area.out ∈ W) : Kept W m (Machine.cancelStep a x1 x2) := by
  unfold Machine.cancelStep
  with_reducible repeat' first
    | assumption | apply cqFlush_kept | apply modXc_kept | intro _ | apply Kept.ite | apply Kept.foldl | split

theorem loadImage_kept (h : Kept W m a) (x1 : Nat) (x2 : BoundImage) (w0 : Area.tiles ∈ W) : Kept W m (Machine.loadImage a x1 x2) := by
  unfold Machine.loadImage
  with_reducible repeat' first
    | assumption | apply storeWrite_kept | apply modTile_kept | intro _ | apply Kept.ite | apply Kept.foldl | split

theorem bindStreams_kept (h : Kept W m a) (x1 : Nat) (x2 : BoundImage) (w0 : Area.fwd ∈ W) (w1 : Area.txSeq ∈ W) (w2 : Area.coll ∈ W) (w3
    : Area.strm ∈ W) : Kept W m (Machine.bindStreams a x1 x2) := by
  unfold Machine.bindStreams
  with_reducible repeat' first
    | assumption | apply setColl_kept | apply offerCredit_kept | apply modStrm_kept | intro _ | apply Kept.ite
    | apply Kept.foldl | split

theorem stopTile_kept (h : Kept W m a) (x1 : Nat) (x2 : Option Nat) (x3 : Nat) (w0 : Area.tiles ∈ W) (w1 : Area.ctx ∈ W) : Kept W m
    (Machine.stopTile a x1 x2 x3) := by
  unfold Machine.stopTile
  with_reducible repeat' first
    | assumption | apply meterTile_kept | apply modTile_kept | intro _ | apply Kept.ite | apply Kept.foldl | split

theorem stopTiles_kept (h : Kept W m a) (x1 : Nat) (w0 : Area.tiles ∈ W) (w1 : Area.ctx ∈ W) : Kept W m (Machine.stopTiles a x1) := by
  unfold Machine.stopTiles
  with_reducible repeat' first
    | assumption | apply stopTile_kept | intro _ | apply Kept.ite | apply Kept.foldl | split

theorem freeColls_kept (h : Kept W m a) (x1 : Nat) (w0 : Area.coll ∈ W) : Kept W m (Machine.freeColls a x1) := by
  unfold Machine.freeColls
  simp -zeta -iota -proj only [Machine.upd_coll_eq]
  with_reducible repeat' first
    | assumption | apply Kept.set_coll | intro _ | apply Kept.ite | apply Kept.foldl | split

theorem dropImage_kept (h : Kept W m a) (x1 : Nat) (w0 : Area.fwd ∈ W) (w1 : Area.txSeq ∈ W) (w2 : Area.coll ∈ W) (w3 : Area.tiles ∈ W) (w4
    : Area.strm ∈ W) (w5 : Area.ctx ∈ W) : Kept W m (Machine.dropImage a x1) := by
  unfold Machine.dropImage
  with_reducible repeat' first
    | assumption | apply freeColls_kept | apply stopTiles_kept | apply modXc_kept | apply unbindStream_kept
    | apply modTile_kept | intro _ | apply Kept.ite | apply Kept.foldl | split

theorem xcDone_kept (h : Kept W m a) (x1 x2 : Nat) (w0 : Area.ctx ∈ W) (w1 : Area.msix ∈ W) (w2 : Area.out ∈ W) : Kept W m
    (Machine.xcDone a x1 x2) := by
  unfold Machine.xcDone
  with_reducible repeat' first
    | assumption | apply modXc_kept | apply ctxInterrupt_kept | intro _ | apply Kept.ite | apply Kept.foldl | split

theorem bindDone_kept (h : Kept W m a) (x1 x2 : Nat) (w0 : Area.ctx ∈ W) (w1 : Area.ttl ∈ W) (w2 : Area.msix ∈ W) (w3 : Area.out ∈ W) :
    Kept W m (Machine.bindDone a x1 x2) := by
  unfold Machine.bindDone
  with_reducible repeat' first
    | assumption | apply xcDone_kept | apply raise_kept | intro _ | apply Kept.ite | apply Kept.foldl | split

theorem takeGates_kept (h : Kept W m a) (x1 : Nat) (x2 : BoundImage) (x3 : StepProg) (w0 : Area.fwd ∈ W) (w1 : Area.txSeq ∈ W) (w2
    : Area.coll ∈ W) (w3 : Area.tiles ∈ W) (w4 : Area.strm ∈ W) (w5 : Area.luff ∈ W) (w6 : Area.ctx ∈ W) : Kept W m
    (Machine.takeGates a x1 x2 x3) := by
  unfold Machine.takeGates
  with_reducible repeat' first
    | assumption | apply modRun_kept | apply collStart_kept | apply takeCredits_kept | intro _ | apply Kept.ite
    | apply Kept.foldl | split

theorem returnGates_kept (h : Kept W m a) (x1 : Nat) (w0 : Area.strm ∈ W) : Kept W m (Machine.returnGates a x1) := by
  unfold Machine.returnGates
  with_reducible repeat' first
    | assumption | apply modStrm_kept | intro _ | apply Kept.ite | apply Kept.foldl | split

theorem endSlots_kept (h : Kept W m a) (x1 : Nat) (w0 : Area.fwd ∈ W) (w1 : Area.txSeq ∈ W) (w2 : Area.coll ∈ W) (w3 : Area.tiles ∈ W) (w4
    : Area.strm ∈ W) (w5 : Area.luff ∈ W) (w6 : Area.ctx ∈ W) : Kept W m (Machine.endSlots a x1) := by
  unfold Machine.endSlots
  with_reducible repeat' first
    | assumption | apply collFree_kept | apply freeSlots_kept | apply modStrm_kept | intro _ | apply Kept.ite
    | apply Kept.foldl | split

theorem endStep_kept (h : Kept W m a) (x1 : Nat) (w0 : Area.fwd ∈ W) (w1 : Area.txSeq ∈ W) (w2 : Area.coll ∈ W) (w3 : Area.tiles ∈ W) (w4
    : Area.strm ∈ W) (w5 : Area.luff ∈ W) (w6 : Area.ctx ∈ W) (w7 : Area.reef ∈ W) : Kept W m (Machine.endStep a x1) := by
  unfold Machine.endStep
  with_reducible repeat' first
    | assumption | apply endSlots_kept | apply modXc_kept | apply reefIdle_kept | apply reefCancel_kept
    | apply reefFall_kept | intro _ | apply Kept.ite | apply Kept.foldl | split

theorem endQueued_kept (h : Kept W m a) (x1 : Nat) (x2 : Viol) (x3 : QStep) (w0 : Area.ctx ∈ W) (w1 : Area.msix ∈ W) (w2 : Area.hostMem ∈ W)
    (w3 : Area.out ∈ W) : Kept W m (Machine.endQueued a x1 x2 x3) := by
  unfold Machine.endQueued
  with_reducible repeat' first
    | assumption | apply cancelStep_kept | apply cqFlush_kept | apply modXc_kept | intro _ | apply Kept.ite
    | apply Kept.foldl | split

theorem breach_kept (h : Kept W m a) (x1 : Nat) (x2 : RunStep) (w0 : Area.ttl ∈ W) : Kept W m (Machine.breach a x1 x2) := by
  unfold Machine.breach
  with_reducible repeat' first
    | assumption | apply raise_kept | intro _ | apply Kept.ite | apply Kept.foldl | split

theorem contain_kept (h : Kept W m a) (x1 : Nat) (x2 : Viol) (w0 : Area.fwd ∈ W) (w1 : Area.txSeq ∈ W) (w2 : Area.coll ∈ W) (w3
    : Area.tiles ∈ W) (w4 : Area.strm ∈ W) (w5 : Area.luff ∈ W) (w6 : Area.ctx ∈ W) (w7 : Area.ttl ∈ W) (w8 : Area.reef ∈ W) (w9
    : Area.msix ∈ W) (w10 : Area.hostMem ∈ W) (w11 : Area.out ∈ W) : Kept W m (Machine.contain a x1 x2) := by
  unfold Machine.contain
  with_reducible repeat' first
    | assumption | apply breach_kept | apply endQueued_kept | apply endStep_kept | apply returnGates_kept
    | apply stopTiles_kept | apply cqWrite_kept | apply modXc_kept | apply reportEach_kept | apply raiseCtx_kept
    | intro _ | apply Kept.ite | apply Kept.foldl | split

theorem detect_kept (h : Kept W m a) (x1 : Nat) (x2 : Viol) (w0 : Area.ctx ∈ W) : Kept W m (Machine.detect a x1 x2) := by
  unfold Machine.detect
  with_reducible repeat' first
    | assumption | apply modXc_kept | intro _ | apply Kept.ite | apply Kept.foldl | split

theorem finishUnbind_kept (h : Kept W m a) (x1 : Nat) (w0 : Area.fwd ∈ W) (w1 : Area.txSeq ∈ W) (w2 : Area.coll ∈ W) (w3 : Area.tiles ∈ W)
    (w4 : Area.strm ∈ W) (w5 : Area.ctx ∈ W) (w6 : Area.msix ∈ W) (w7 : Area.out ∈ W) : Kept W m (Machine.finishUnbind a x1) := by
  unfold Machine.finishUnbind
  with_reducible repeat' first
    | assumption | apply xcDone_kept | apply dropImage_kept | intro _ | apply Kept.ite | apply Kept.foldl | split

theorem pageWrite_kept (h : Kept W m a) (x1 x2 x3 : Nat) (x4 : Machine → Machine) (hx4 : ∀ y0, Kept W m y0 → Kept W m (x4 y0)) (w0
    : Area.acc ∈ W) : Kept W m (Machine.pageWrite a x1 x2 x3 x4) := by
  unfold Machine.pageWrite
  with_reducible repeat' first
    | assumption | apply accErr_kept | apply hx4 | intro _ | apply Kept.ite | apply Kept.foldl | split

theorem armLo_kept (h : Kept W m a) (x1 x2 : Nat) (x3 : Word) (w0 : Area.ctx ∈ W) : Kept W m (Machine.armLo a x1 x2 x3) := by
  unfold Machine.armLo
  with_reducible repeat' first
    | assumption | apply modXc_kept | intro _ | apply Kept.ite | apply Kept.foldl | split

theorem armHi_kept (h : Kept W m a) (x1 x2 : Nat) (x3 : Word) (w0 : Area.ctx ∈ W) : Kept W m (Machine.armHi a x1 x2 x3) := by
  unfold Machine.armHi
  with_reducible repeat' first
    | assumption | apply modXc_kept | intro _ | apply Kept.ite | apply Kept.foldl | split

/-! ### TileOps -/

theorem modChan_kept (h : Kept W m a) (x1 x2 : Nat) (x3 : ChanRun → ChanRun) (w0 : Area.ctx ∈ W) : Kept W m (Machine.modChan a x1 x2 x3)
    := by
  unfold Machine.modChan
  with_reducible repeat' first
    | assumption | apply modRun_kept | intro _ | apply Kept.ite | apply Kept.foldl | split

theorem addFlags_kept (h : Kept W m a) (x1 : Nat) (x2 : NumFlags) (w0 : Area.ctx ∈ W) : Kept W m (Machine.addFlags a x1 x2) := by
  unfold Machine.addFlags
  with_reducible repeat' first
    | assumption | apply modRun_kept | intro _ | apply Kept.ite | apply Kept.foldl | split

theorem computeDone_kept (h : Kept W m a) (x1 : Nat) (x2 : ActiveTile) (x3 : NumFlags) (w0 : Area.tiles ∈ W) (w1 : Area.luff ∈ W) (w2
    : Area.ctx ∈ W) : Kept W m (Machine.computeDone a x1 x2 x3) := by
  unfold Machine.computeDone
  with_reducible repeat' first
    | assumption | apply addFlags_kept | apply modTile_kept | apply luffStep_kept | intro _ | apply Kept.ite
    | apply Kept.foldl | split

theorem offerToken_kept (h : Kept W m a) (x1 : ActiveTile) (x2 : Nat) (x3 : TokenOp) (x4 : ChanRec) (w0 : Area.fwd ∈ W) (w1
    : Area.txSeq ∈ W) (w2 : Area.coll ∈ W) (w3 : Area.tiles ∈ W) (w4 : Area.strm ∈ W) (w5 : Area.luff ∈ W) (w6 : Area.ctx ∈ W) : Kept W m
    (Machine.offerToken a x1 x2 x3 x4) := by
  unfold Machine.offerToken
  with_reducible repeat' first
    | assumption | apply collSupply_kept | apply sendToken_kept | apply modTile_kept | intro _ | apply Kept.ite
    | apply Kept.foldl | split

theorem offerAll_kept (h : Kept W m a) (x1 : Nat) (w0 : Area.fwd ∈ W) (w1 : Area.txSeq ∈ W) (w2 : Area.coll ∈ W) (w3 : Area.tiles ∈ W) (w4
    : Area.strm ∈ W) (w5 : Area.luff ∈ W) (w6 : Area.ctx ∈ W) : Kept W m (Machine.offerAll a x1) := by
  unfold Machine.offerAll
  with_reducible repeat' first
    | assumption | apply offerToken_kept | intro _ | apply Kept.ite | apply Kept.foldl | split

theorem tileDone_kept (h : Kept W m a) (x1 : ActiveTile) (x2 : Nat) (w0 : Area.tiles ∈ W) (w1 : Area.ctx ∈ W) : Kept W m
    (Machine.tileDone a x1 x2) := by
  unfold Machine.tileDone
  with_reducible repeat' first
    | assumption | apply detect_kept | apply meterTile_kept | apply modTile_kept | intro _ | apply Kept.ite
    | apply Kept.foldl | split

theorem settleTile_kept (h : Kept W m a) (x1 : Nat) (w0 : Area.tiles ∈ W) (w1 : Area.ctx ∈ W) : Kept W m (Machine.settleTile a x1) := by
  unfold Machine.settleTile
  with_reducible repeat' first
    | assumption | apply tileDone_kept | apply modTile_kept | intro _ | apply Kept.ite | apply Kept.iteFst
    | apply Kept.foldl | (extract_lets +onlyGivenNames z; clear_value z) | dsimp -zeta only | split

theorem settle_kept (h : Kept W m a) (x1 : Nat) (w0 : Area.fwd ∈ W) (w1 : Area.txSeq ∈ W) (w2 : Area.coll ∈ W) (w3 : Area.tiles ∈ W) (w4
    : Area.strm ∈ W) (w5 : Area.luff ∈ W) (w6 : Area.ctx ∈ W) : Kept W m (Machine.settle a x1) := by
  unfold Machine.settle
  with_reducible repeat' first
    | assumption | apply settleTile_kept | apply offerAll_kept | apply detect_kept | intro _ | apply Kept.ite
    | apply Kept.iteFst | apply Kept.foldl
    | (extract_lets +onlyGivenNames z; refine Kept.cut (W := W) (m := m) (x := z) ?_ ?_; subst z; rotate_left; intro hz; clear_value z)
    | (extract_lets +onlyGivenNames z; clear_value z) | dsimp -zeta only | split

theorem waitIn_kept (h : Kept W m a) (x1 : Nat) (x2 : TilePhase) (w0 : Area.tiles ∈ W) : Kept W m (Machine.waitIn a x1 x2) := by
  unfold Machine.waitIn
  with_reducible repeat' first
    | assumption | apply modTile_kept | intro _ | apply Kept.ite | apply Kept.foldl | split

theorem issueLines_kept (h : Kept W m a) (x1 : Nat) (x2 : ActiveTile) (x3 : TWord) (x4 : Bool) (w0 : Area.fwd ∈ W) (w1 : Area.txSeq ∈ W) (w2
    : Area.coll ∈ W) (w3 : Area.tiles ∈ W) (w4 : Area.strm ∈ W) (w5 : Area.luff ∈ W) (w6 : Area.ctx ∈ W) : Kept W m
    (Machine.issueLines a x1 x2 x3 x4) := by
  unfold Machine.issueLines
  with_reducible repeat' first
    | assumption | apply settle_kept | apply detect_kept | apply modTile_kept | intro _ | apply Kept.ite
    | apply Kept.foldl | split

theorem issueTokens_kept (h : Kept W m a) (x1 : Nat) (x2 : ActiveTile) (x3 : TWord) (w0 : Area.fwd ∈ W) (w1 : Area.txSeq ∈ W) (w2
    : Area.coll ∈ W) (w3 : Area.tiles ∈ W) (w4 : Area.strm ∈ W) (w5 : Area.luff ∈ W) (w6 : Area.ctx ∈ W) : Kept W m
    (Machine.issueTokens a x1 x2 x3) := by
  unfold Machine.issueTokens
  with_reducible repeat' first
    | assumption | apply settle_kept | apply offerAll_kept | apply modChan_kept | apply detect_kept | apply modTile_kept
    | intro _ | apply Kept.ite | apply Kept.foldl | split

theorem freeEarlier_kept (h : Kept W m a) (x1 : ActiveTile) (x2 : Nat) (x3 : ChanRec) (w0 : Area.fwd ∈ W) (w1 : Area.txSeq ∈ W) (w2
    : Area.coll ∈ W) (w3 : Area.tiles ∈ W) (w4 : Area.strm ∈ W) (w5 : Area.luff ∈ W) (w6 : Area.ctx ∈ W) : Kept W m
    (Machine.freeEarlier a x1 x2 x3) := by
  unfold Machine.freeEarlier
  with_reducible repeat' first
    | assumption | apply modChan_kept | apply collFree_kept | apply freeSlots_kept | intro _ | apply Kept.ite
    | apply Kept.foldl | split

theorem issueRecv_kept (h : Kept W m a) (x1 : Nat) (x2 : ActiveTile) (x3 : TWord) (w0 : Area.fwd ∈ W) (w1 : Area.txSeq ∈ W) (w2
    : Area.coll ∈ W) (w3 : Area.tiles ∈ W) (w4 : Area.strm ∈ W) (w5 : Area.luff ∈ W) (w6 : Area.ctx ∈ W) : Kept W m
    (Machine.issueRecv a x1 x2 x3) := by
  unfold Machine.issueRecv
  with_reducible repeat' first
    | assumption | apply freeEarlier_kept | apply waitIn_kept | apply settle_kept | apply modChan_kept
    | apply detect_kept | apply modRun_kept | intro _ | apply Kept.ite | apply Kept.foldl | split

theorem moveLine_kept (h : Kept W m a) (x1 x2 : Nat) (x3 : LineOp) (w0 : Area.tiles ∈ W) (w1 : Area.hbm ∈ W) (w2 : Area.luff ∈ W) (w3
    : Area.ctx ∈ W) : Kept W m (Machine.moveLine a x1 x2 x3) := by
  unfold Machine.moveLine
  with_reducible repeat' first
    | assumption | apply meterHbm_kept | apply hbmWrite_kept | apply storeWrite_kept | apply modTile_kept
    | apply luffStep_kept | intro _ | apply Kept.ite | apply Kept.foldl | split

theorem drainLine_kept (h : Kept W m a) (x1 x2 : Nat) (w0 : Area.tiles ∈ W) (w1 : Area.hbm ∈ W) (w2 : Area.luff ∈ W) (w3 : Area.ctx ∈ W) :
    Kept W m (Machine.drainLine a x1 x2) := by
  unfold Machine.drainLine
  with_reducible repeat' first
    | assumption | apply moveLine_kept | apply modTile_kept | intro _ | apply Kept.ite | apply Kept.foldl | split

theorem completeLine_kept (h : Kept W m a) (x1 x2 : Nat) (w0 : Area.fwd ∈ W) (w1 : Area.txSeq ∈ W) (w2 : Area.coll ∈ W) (w3
    : Area.tiles ∈ W) (w4 : Area.hbm ∈ W) (w5 : Area.strm ∈ W) (w6 : Area.luff ∈ W) (w7 : Area.ctx ∈ W) : Kept W m
    (Machine.completeLine a x1 x2) := by
  unfold Machine.completeLine
  with_reducible repeat' first
    | assumption | apply drainLine_kept | apply moveLine_kept | apply settle_kept | apply detect_kept | intro _
    | apply Kept.ite | apply Kept.iteFst | apply Kept.foldl | (extract_lets +onlyGivenNames z; clear_value z)
    | dsimp -zeta only | split

theorem ackToken_kept (h : Kept W m a) (x1 x2 : Nat) (w0 : Area.fwd ∈ W) (w1 : Area.txSeq ∈ W) (w2 : Area.coll ∈ W) (w3 : Area.tiles ∈ W)
    (w4 : Area.strm ∈ W) (w5 : Area.luff ∈ W) (w6 : Area.ctx ∈ W) : Kept W m (Machine.ackToken a x1 x2) := by
  unfold Machine.ackToken
  with_reducible repeat' first
    | assumption | apply settle_kept | apply modChan_kept | apply storeWrite_kept | apply modTile_kept
    | apply luffStep_kept | intro _ | apply Kept.ite | apply Kept.iteFst | apply Kept.foldl
    | (extract_lets +onlyGivenNames z; clear_value z) | dsimp -zeta only | split

end Sys2Proof.Machine
end

