-- ==== Sys2Proof/Laws/KeptUnits.lean ====
section
/-!
SUPPORT. Frames of fences, copy engines, the host interface, the journal and memory commands: one lemma per operation, naming the blocks it may write; it
keeps every other block.
-/
set_option linter.tactic.unusedName false
set_option linter.unusedSimpArgs false
namespace Sys2Proof.Machine

variable {W : List Area} {m a : Machine}

/-! ### Fences -/

theorem modLuff_kept (h : Kept W m a) (x1 : Luff → Luff) (w0 : Area.luff ∈ W) : Kept W m (Machine.modLuff a x1) := by
  unfold Machine.modLuff
  simp -zeta -iota -proj only [Machine.upd_luff_eq]
  with_reducible repeat' first
    | assumption | apply Kept.set_luff | intro _ | apply Kept.ite | apply Kept.foldl | split

theorem cutContext_kept (h : Kept W m a) (x1 : Nat) (w0 : Area.fwd ∈ W) (w1 : Area.txSeq ∈ W) (w2 : Area.coll ∈ W) (w3 : Area.tiles ∈ W) (w4
    : Area.strm ∈ W) (w5 : Area.luff ∈ W) (w6 : Area.ctx ∈ W) (w7 : Area.reef ∈ W) (w8 : Area.out ∈ W) : Kept W m (Machine.cutContext a x1)
    := by
  unfold Machine.cutContext
  with_reducible repeat' first
    | assumption | apply endStep_kept | apply returnGates_kept | apply stopTiles_kept | apply reportFlows_kept
    | apply unbindStream_kept | intro _ | apply Kept.ite | apply Kept.foldl | split

theorem fenceOne_kept (h : Kept W m a) (x1 : Nat) (w0 : Area.fwd ∈ W) (w1 : Area.txSeq ∈ W) (w2 : Area.coll ∈ W) (w3 : Area.tiles ∈ W) (w4
    : Area.strm ∈ W) (w5 : Area.luff ∈ W) (w6 : Area.ctx ∈ W) (w7 : Area.reef ∈ W) (w8 : Area.out ∈ W) : Kept W m (Machine.fenceOne a x1)
    := by
  unfold Machine.fenceOne
  with_reducible repeat' first
    | assumption | apply cutContext_kept | apply modCtx_kept | intro _ | apply Kept.ite | apply Kept.foldl | split

theorem pushFence_kept (h : Kept W m a) (x1 : Fence) (w0 : Area.luff ∈ W) : Kept W m (Machine.pushFence a x1) := by
  unfold Machine.pushFence
  with_reducible repeat' first
    | assumption | apply modLuff_kept | intro _ | apply Kept.ite | apply Kept.foldl | split

theorem startFence_kept (h : Kept W m a) (x1 : Domain) (x2 x3 : Nat) (w0 : Area.fwd ∈ W) (w1 : Area.txSeq ∈ W) (w2 : Area.coll ∈ W) (w3
    : Area.tiles ∈ W) (w4 : Area.strm ∈ W) (w5 : Area.luff ∈ W) (w6 : Area.ctx ∈ W) (w7 : Area.reef ∈ W) (w8 : Area.out ∈ W) : Kept W m
    (Machine.startFence a x1 x2 x3) := by
  unfold Machine.startFence
  with_reducible repeat' first
    | assumption | apply pushFence_kept | apply fenceOne_kept | apply modLuff_kept | apply modCtx_kept | intro _
    | apply Kept.ite | apply Kept.foldl | split

theorem orderReset_kept (h : Kept W m a) (x1 x2 : Nat) (w0 : Area.fwd ∈ W) (w1 : Area.txSeq ∈ W) (w2 : Area.coll ∈ W) (w3 : Area.tiles ∈ W)
    (w4 : Area.strm ∈ W) (w5 : Area.luff ∈ W) (w6 : Area.ctx ∈ W) (w7 : Area.reef ∈ W) (w8 : Area.out ∈ W) : Kept W m
    (Machine.orderReset a x1 x2) := by
  unfold Machine.orderReset
  with_reducible repeat' first
    | assumption | apply startFence_kept | apply modLuff_kept | intro _ | apply Kept.ite | apply Kept.foldl | split

theorem startDestroy_kept (h : Kept W m a) (x1 : CtxId) (w0 : Area.fwd ∈ W) (w1 : Area.txSeq ∈ W) (w2 : Area.coll ∈ W) (w3 : Area.tiles ∈ W)
    (w4 : Area.strm ∈ W) (w5 : Area.luff ∈ W) (w6 : Area.ctx ∈ W) (w7 : Area.reef ∈ W) (w8 : Area.out ∈ W) : Kept W m
    (Machine.startDestroy a x1) := by
  unfold Machine.startDestroy
  with_reducible repeat' first
    | assumption | apply pushFence_kept | apply cutContext_kept | apply closeStream_kept | apply modBase_kept
    | apply modCtx_kept | intro _ | apply Kept.ite | apply Kept.foldl | split

theorem rstDone_kept (h : Kept W m a) (x1 : Nat) (w0 : Area.luff ∈ W) : Kept W m (Machine.rstDone a x1) := by
  unfold Machine.rstDone
  with_reducible repeat' first
    | assumption | apply modLuff_kept | intro _ | apply Kept.ite | apply Kept.foldl | split

theorem rstFinish_kept (h : Kept W m a) (w0 : Area.luff ∈ W) : Kept W m (Machine.rstFinish a) := by
  unfold Machine.rstFinish
  with_reducible repeat' first
    | assumption | apply rstDone_kept | intro _ | apply Kept.ite | apply Kept.foldl | split

theorem dropFence_kept (h : Kept W m a) (x1 : Domain) (w0 : Area.luff ∈ W) : Kept W m (Machine.dropFence a x1) := by
  unfold Machine.dropFence
  with_reducible repeat' first
    | assumption | apply rstFinish_kept | apply modLuff_kept | intro _ | apply Kept.ite | apply Kept.foldl | split

theorem stopQueues_kept (h : Kept W m a) (x1 : Nat) (w0 : Area.ctx ∈ W) : Kept W m (Machine.stopQueues a x1) := by
  unfold Machine.stopQueues
  with_reducible repeat' first
    | assumption | apply modCtx_kept | intro _ | apply Kept.ite | apply Kept.foldl | split

theorem freeTxns_kept (h : Kept W m a) (x1 : Nat) (w0 : Area.txn ∈ W) : Kept W m (Machine.freeTxns a x1) := by
  unfold Machine.freeTxns
  simp -zeta -iota -proj only [Machine.upd_txn_eq]
  with_reducible repeat' first
    | assumption | apply Kept.set_txn | intro _ | apply Kept.ite | apply Kept.foldl | split

theorem removeContext_kept (h : Kept W m a) (x1 : Nat) (w0 : Area.fwd ∈ W) (w1 : Area.txSeq ∈ W) (w2 : Area.txn ∈ W) (w3 : Area.coll ∈ W)
    (w4 : Area.tiles ∈ W) (w5 : Area.strm ∈ W) (w6 : Area.ctx ∈ W) : Kept W m (Machine.removeContext a x1) := by
  unfold Machine.removeContext
  with_reducible repeat' first
    | assumption | apply freeTxns_kept | apply stopQueues_kept | apply dropImage_kept | apply freeColls_kept
    | apply modXc_kept | intro _ | apply Kept.ite | apply Kept.foldl | split

theorem endContextReset_kept (h : Kept W m a) (x1 x2 : Nat) (w0 : Area.fwd ∈ W) (w1 : Area.txSeq ∈ W) (w2 : Area.txn ∈ W) (w3
    : Area.coll ∈ W) (w4 : Area.tiles ∈ W) (w5 : Area.strm ∈ W) (w6 : Area.ctx ∈ W) (w7 : Area.ttl ∈ W) : Kept W m
    (Machine.endContextReset a x1 x2) := by
  unfold Machine.endContextReset
  with_reducible repeat' first
    | assumption | apply removeContext_kept | apply raiseCtx_kept | apply modCtx_kept | intro _ | apply Kept.ite
    | apply Kept.foldl | split

theorem abortReqs_kept (h : Kept W m a) (x1 : Delivered → Bool) (w0 : Area.fwd ∈ W) (w1 : Area.txSeq ∈ W) (w2 : Area.ttl ∈ W) : Kept W m
    (Machine.abortReqs a x1) := by
  unfold Machine.abortReqs
  with_reducible repeat' first
    | assumption | apply answer_kept | apply raiseCtx_kept | apply modFwd_kept | intro _ | apply Kept.ite
    | apply Kept.foldl | split

theorem drainEnd_kept (h : Kept W m a) (x1 : List Nat) (x2 : DWord) (w0 : Area.fwd ∈ W) (w1 : Area.txSeq ∈ W) (w2 : Area.tiles ∈ W) (w3
    : Area.luff ∈ W) (w4 : Area.ctx ∈ W) (w5 : Area.ttl ∈ W) : Kept W m (Machine.drainEnd a x1 x2) := by
  unfold Machine.drainEnd
  with_reducible repeat' first
    | assumption | apply abortReqs_kept | apply modLuff_kept | apply modTile_kept | apply modCtx_kept | intro _
    | apply Kept.ite | apply Kept.foldl | split

theorem raiseTile_kept (h : Kept W m a) (x1 x2 : Nat) (w0 : Area.ttl ∈ W) : Kept W m (Machine.raiseTile a x1 x2) := by
  unfold Machine.raiseTile
  with_reducible repeat' first
    | assumption | apply raiseCtx_kept | apply raise_kept | intro _ | apply Kept.ite | apply Kept.foldl | split

theorem loseTile_kept (h : Kept W m a) (x1 : Nat) (x2 : Bool) (w0 : Area.tiles ∈ W) (w1 : Area.ctx ∈ W) : Kept W m
    (Machine.loseTile a x1 x2) := by
  unfold Machine.loseTile
  with_reducible repeat' first
    | assumption | apply detect_kept | apply modTile_kept | intro _ | apply Kept.ite | apply Kept.foldl | split

theorem resetCluster_kept (h : Kept W m a) (x1 x2 : Nat) (w0 : Area.tiles ∈ W) (w1 : Area.ctx ∈ W) : Kept W m (Machine.resetCluster a x1 x2)
    := by
  unfold Machine.resetCluster
  with_reducible repeat' first
    | assumption | apply loseTile_kept | intro _ | apply Kept.ite | apply Kept.foldl | split

/-! ### CeOps -/

theorem modQueue_kept (h : Kept W m a) (x1 x2 : Nat) (x3 : CeQueue → CeQueue) (w0 : Area.ctx ∈ W) : Kept W m (Machine.modQueue a x1 x2 x3)
    := by
  unfold Machine.modQueue
  with_reducible repeat' first
    | assumption | apply modCtx_kept | intro _ | apply Kept.ite | apply Kept.foldl | split

theorem modCmd_kept (h : Kept W m a) (x1 x2 : Nat) (x3 : CeCmd → CeCmd) (w0 : Area.ctx ∈ W) : Kept W m (Machine.modCmd a x1 x2 x3) := by
  unfold Machine.modCmd
  with_reducible repeat' first
    | assumption | apply modQueue_kept | intro _ | apply Kept.ite | apply Kept.foldl | split

theorem modEngine_kept (h : Kept W m a) (x1 : Nat) (x2 : CeEng → CeEng) (w0 : Area.eng ∈ W) : Kept W m (Machine.modEngine a x1 x2) := by
  unfold Machine.modEngine
  simp -zeta -iota -proj only [Machine.upd_eng_eq]
  with_reducible repeat' first
    | assumption | apply Kept.set_eng | intro _ | apply Kept.ite | apply Kept.foldl | split

theorem enableQueue_kept (h : Kept W m a) (x1 x2 : Nat) (x3 : Word) (w0 : Area.ctx ∈ W) (w1 : Area.ttl ∈ W) : Kept W m
    (Machine.enableQueue a x1 x2 x3) := by
  unfold Machine.enableQueue
  with_reducible repeat' first
    | assumption | apply modQueue_kept | apply raise_kept | intro _ | apply Kept.ite | apply Kept.foldl | split

theorem disableQueue_kept (h : Kept W m a) (x1 x2 : Nat) (w0 : Area.ctx ∈ W) : Kept W m (Machine.disableQueue a x1 x2) := by
  unfold Machine.disableQueue
  with_reducible repeat' first
    | assumption | apply modQueue_kept | intro _ | apply Kept.ite | apply Kept.foldl | split

theorem resumeQueue_kept (h : Kept W m a) (x1 x2 : Nat) (w0 : Area.ctx ∈ W) : Kept W m (Machine.resumeQueue a x1 x2) := by
  unfold Machine.resumeQueue
  with_reducible repeat' first
    | assumption | apply modQueue_kept | intro _ | apply Kept.ite | apply Kept.foldl | split

theorem writeCfg_kept (h : Kept W m a) (x1 x2 : Nat) (x3 : Word) (w0 : Area.ctx ∈ W) (w1 : Area.ttl ∈ W) : Kept W m
    (Machine.writeCfg a x1 x2 x3) := by
  unfold Machine.writeCfg
  with_reducible repeat' first
    | assumption | apply resumeQueue_kept | apply disableQueue_kept | apply enableQueue_kept | apply modQueue_kept
    | intro _ | apply Kept.ite | apply Kept.foldl | split

theorem doorbell_kept (h : Kept W m a) (x1 x2 x3 : Nat) (w0 : Area.ctx ∈ W) (w1 : Area.ttl ∈ W) : Kept W m (Machine.doorbell a x1 x2 x3)
    := by
  unfold Machine.doorbell
  with_reducible repeat' first
    | assumption | apply modQueue_kept | apply raiseCtx_kept | intro _ | apply Kept.ite | apply Kept.foldl | split

theorem ceHostWrite_kept (h : Kept W m a) (x1 x2 x3 x4 : Nat) (x5 : List Byte) (w0 : Area.ctx ∈ W) (w1 : Area.hostMem ∈ W) : Kept W m
    (Machine.ceHostWrite a x1 x2 x3 x4 x5) := by
  unfold Machine.ceHostWrite
  with_reducible repeat' first
    | assumption | apply modCmd_kept | apply modQueue_kept | apply hostWrite_kept | intro _ | apply Kept.ite
    | apply Kept.foldl | split

theorem ceBytes_kept (h : Kept W m a) (x1 x2 x3 : Nat) (w0 : Area.ctx ∈ W) (w1 : Area.eng ∈ W) : Kept W m (Machine.ceBytes a x1 x2 x3) := by
  unfold Machine.ceBytes
  with_reducible repeat' first
    | assumption | apply modEngine_kept | apply meter_kept | intro _ | apply Kept.ite | apply Kept.foldl | split

theorem ceCharge_kept (h : Kept W m a) (x1 x2 x3 : Nat) (w0 : Area.luff ∈ W) (w1 : Area.ctx ∈ W) (w2 : Area.eng ∈ W) : Kept W m
    (Machine.ceCharge a x1 x2 x3) := by
  unfold Machine.ceCharge
  with_reducible repeat' first
    | assumption | apply ceBytes_kept | apply luffStep_kept | intro _ | apply Kept.ite | apply Kept.foldl | split

theorem ceStop_kept (h : Kept W m a) (x1 x2 x3 : Nat) (w0 : Area.ctx ∈ W) : Kept W m (Machine.ceStop a x1 x2 x3) := by
  unfold Machine.ceStop
  with_reducible repeat' first
    | assumption | apply modCmd_kept | intro _ | apply Kept.ite | apply Kept.foldl | split

theorem moveSegment_kept (h : Kept W m a) (x1 x2 x3 : Nat) (x4 : CeCmd) (w0 : Area.hbm ∈ W) (w1 : Area.luff ∈ W) (w2 : Area.ctx ∈ W) (w3
    : Area.eng ∈ W) (w4 : Area.hostMem ∈ W) : Kept W m (Machine.moveSegment a x1 x2 x3 x4) := by
  unfold Machine.moveSegment
  with_reducible repeat' first
    | assumption | apply ceStop_kept | apply ceCharge_kept | apply ceHostWrite_kept | apply modCmd_kept
    | apply meterHbm_kept | apply hbmWrite_kept | intro _ | apply Kept.ite | apply Kept.foldl | split

theorem ceInject_kept (h : Kept W m a) (x1 : Nat) (x2 : CeCmd) (x3 x4 x5 x6 : Nat) (x7 : List Byte) (w0 : Area.fwd ∈ W) (w1
    : Area.txSeq ∈ W) (w2 : Area.ctx ∈ W) : Kept W m (Machine.ceInject a x1 x2 x3 x4 x5 x6 x7) := by
  unfold Machine.ceInject
  with_reducible repeat' first
    | assumption | apply meterLink_kept | apply inject_kept | intro _ | apply Kept.ite | apply Kept.foldl | split

theorem msgSegment_kept (h : Kept W m a) (x1 x2 x3 : Nat) (x4 : CeCmd) (w0 : Area.fwd ∈ W) (w1 : Area.txSeq ∈ W) (w2 : Area.strm ∈ W) (w3
    : Area.luff ∈ W) (w4 : Area.ctx ∈ W) (w5 : Area.eng ∈ W) : Kept W m (Machine.msgSegment a x1 x2 x3 x4) := by
  unfold Machine.msgSegment
  with_reducible repeat' first
    | assumption | apply ceInject_kept | apply ceStop_kept | apply ceCharge_kept | apply modCmd_kept
    | apply modStrm_kept | apply meterHbm_kept | intro _ | apply Kept.ite | apply Kept.foldl | split

theorem reqSegment_kept (h : Kept W m a) (x1 x2 x3 : Nat) (x4 : CeCmd) (w0 : Area.fwd ∈ W) (w1 : Area.txSeq ∈ W) (w2 : Area.txn ∈ W) (w3
    : Area.strm ∈ W) (w4 : Area.ctx ∈ W) (w5 : Area.eng ∈ W) : Kept W m (Machine.reqSegment a x1 x2 x3 x4) := by
  unfold Machine.reqSegment
  simp -zeta -iota -proj only [Machine.upd_txn_eq]
  with_reducible repeat' first
    | assumption | apply ceInject_kept | apply ceStop_kept | apply ceBytes_kept | apply modCmd_kept | apply modStrm_kept
    | apply meterHbm_kept | apply Kept.set_txn | intro _ | apply Kept.ite | apply Kept.foldl | split

theorem orphanTxns_kept (h : Kept W m a) (x1 x2 : Nat) (w0 : Area.txn ∈ W) : Kept W m (Machine.orphanTxns a x1 x2) := by
  unfold Machine.orphanTxns
  simp -zeta -iota -proj only [Machine.upd_txn_eq]
  with_reducible repeat' first
    | assumption | apply Kept.set_txn | intro _ | apply Kept.ite | apply Kept.foldl | split

theorem reqDone_kept (h : Kept W m a) (x1 : TxnRec) (x2 : Nat) (x3 : List Byte) (w0 : Area.hbm ∈ W) (w1 : Area.luff ∈ W) (w2 : Area.ctx ∈ W)
    (w3 : Area.eng ∈ W) : Kept W m (Machine.reqDone a x1 x2 x3) := by
  unfold Machine.reqDone
  with_reducible repeat' first
    | assumption | apply ceStop_kept | apply ceCharge_kept | apply modCmd_kept | apply meterHbm_kept
    | apply hbmWrite_kept | intro _ | apply Kept.ite | apply Kept.foldl | split

theorem reqComplete_kept (h : Kept W m a) (x1 x2 : Nat) (x3 : List Byte) (w0 : Area.txn ∈ W) (w1 : Area.hbm ∈ W) (w2 : Area.luff ∈ W) (w3
    : Area.ctx ∈ W) (w4 : Area.eng ∈ W) : Kept W m (Machine.reqComplete a x1 x2 x3) := by
  unfold Machine.reqComplete
  simp -zeta -iota -proj only [Machine.upd_txn_eq]
  with_reducible repeat' first
    | assumption | apply reqDone_kept | apply Kept.set_txn | intro _ | apply Kept.ite | apply Kept.foldl | split

theorem serveSegment_kept (h : Kept W m a) (x1 x2 x3 : Nat) (w0 : Area.fwd ∈ W) (w1 : Area.txSeq ∈ W) (w2 : Area.txn ∈ W) (w3
    : Area.hbm ∈ W) (w4 : Area.strm ∈ W) (w5 : Area.luff ∈ W) (w6 : Area.ctx ∈ W) (w7 : Area.eng ∈ W) (w8 : Area.hostMem ∈ W) : Kept W m
    (Machine.serveSegment a x1 x2 x3) := by
  unfold Machine.serveSegment
  with_reducible repeat' first
    | assumption | apply reqSegment_kept | apply msgSegment_kept | apply moveSegment_kept | apply modEngine_kept
    | apply modCmd_kept | apply modCtx_kept | intro _ | apply Kept.ite | apply Kept.iteFst | apply Kept.foldl
    | (extract_lets +onlyGivenNames z; refine Kept.cut (W := W) (m := m) (x := z) ?_ ?_; subst z; rotate_left; intro hz; clear_value z)
    | (extract_lets +onlyGivenNames z; clear_value z) | dsimp -zeta only | split

theorem beginOp_kept (h : Kept W m a) (x1 x2 x3 : Nat) (w0 : Area.fwd ∈ W) (w1 : Area.txSeq ∈ W) (w2 : Area.txn ∈ W) (w3 : Area.hbm ∈ W) (w4
    : Area.strm ∈ W) (w5 : Area.luff ∈ W) (w6 : Area.ctx ∈ W) (w7 : Area.eng ∈ W) (w8 : Area.hostMem ∈ W) : Kept W m
    (Machine.beginOp a x1 x2 x3) := by
  unfold Machine.beginOp
  with_reducible repeat' first
    | assumption | apply serveSegment_kept | intro _ | apply Kept.ite | apply Kept.foldl | split

theorem ceRecordOut_kept (h : Kept W m a) (x1 : Nat) (x2 : List Byte) (w0 : Area.ctx ∈ W) (w1 : Area.hostMem ∈ W) : Kept W m
    (Machine.ceRecordOut a x1 x2) := by
  unfold Machine.ceRecordOut
  with_reducible repeat' first
    | assumption | apply hostWrite_kept | apply modCtx_kept | intro _ | apply Kept.ite | apply Kept.foldl | split

theorem ceFinish_kept (h : Kept W m a) (x1 x2 : Nat) (x3 : CeCmd) (w0 : Area.txn ∈ W) (w1 : Area.luff ∈ W) (w2 : Area.ctx ∈ W) (w3
    : Area.ttl ∈ W) (w4 : Area.msix ∈ W) (w5 : Area.hostMem ∈ W) (w6 : Area.out ∈ W) : Kept W m (Machine.ceFinish a x1 x2 x3) := by
  unfold Machine.ceFinish
  with_reducible repeat' first
    | assumption | apply ceRecordOut_kept | apply orphanTxns_kept | apply modQueue_kept | apply hostWrite_kept
    | apply ctxInterrupt_kept | apply raiseCtx_kept | apply raise_kept | apply luffStep_kept | intro _ | apply Kept.ite
    | apply Kept.foldl | split

theorem ceComplete_kept (h : Kept W m a) (x1 x2 : Nat) (w0 : Area.txn ∈ W) (w1 : Area.luff ∈ W) (w2 : Area.ctx ∈ W) (w3 : Area.ttl ∈ W) (w4
    : Area.hst ∈ W) (w5 : Area.msix ∈ W) (w6 : Area.hostMem ∈ W) (w7 : Area.out ∈ W) : Kept W m (Machine.ceComplete a x1 x2) := by
  unfold Machine.ceComplete
  with_reducible repeat' first
    | assumption | apply ceFinish_kept | apply modCmd_kept | apply flushReads_kept | intro _ | apply Kept.ite
    | apply Kept.iteFst | apply Kept.foldl | (extract_lets +onlyGivenNames z; clear_value z) | dsimp -zeta only | split

theorem failEngine_kept (h : Kept W m a) (x1 : Nat) (w0 : Area.txn ∈ W) (w1 : Area.ctx ∈ W) (w2 : Area.ttl ∈ W) (w3 : Area.eng ∈ W) :
    Kept W m (Machine.failEngine a x1) := by
  unfold Machine.failEngine
  with_reducible repeat' first
    | assumption | apply orphanTxns_kept | apply modEngine_kept | apply modCmd_kept | apply modQueue_kept
    | apply raise_kept | intro _ | apply Kept.ite | apply Kept.foldl | split

/-! ### Ce -/

theorem takeCommand_kept (h : Kept W m a) (x1 x2 x3 : Nat) (x4 : List Byte) (x5 : Nat) (w0 : Area.ctx ∈ W) : Kept W m
    (Machine.takeCommand a x1 x2 x3 x4 x5) := by
  unfold Machine.takeCommand
  with_reducible repeat' first
    | assumption | apply modQueue_kept | intro _ | apply Kept.ite | apply Kept.foldl | split

theorem refuseSend_kept (h : Kept W m a) (x1 : Nat) (x2 : CeCmd) (x3 : Nat) (w0 : Area.strm ∈ W) : Kept W m (Machine.refuseSend a x1 x2 x3)
    := by
  unfold Machine.refuseSend
  with_reducible repeat' first
    | assumption | apply modStrm_kept | intro _ | apply Kept.ite | apply Kept.foldl | split

/-! ### HostIf -/

theorem modHlink_kept (h : Kept W m a) (x1 : Nat) (x2 : HstLink → HstLink) (w0 : Area.hst ∈ W) (w1 : Area.msix ∈ W) (w2 : Area.out ∈ W) :
    Kept W m (Machine.modHlink a x1 x2) := by
  unfold Machine.modHlink
  simp -zeta -iota -proj only [Machine.upd_hst_eq]
  with_reducible repeat' first
    | assumption | apply interrupt_kept | apply Kept.set_hst | intro _ | apply Kept.ite | apply Kept.foldl | split

theorem hlinkDown_kept (h : Kept W m a) (x1 : Nat) (w0 : Area.ttl ∈ W) (w1 : Area.hst ∈ W) (w2 : Area.msix ∈ W) (w3 : Area.out ∈ W) :
    Kept W m (Machine.hlinkDown a x1) := by
  unfold Machine.hlinkDown
  with_reducible repeat' first
    | assumption | apply modHlink_kept | apply raise_kept | intro _ | apply Kept.ite | apply Kept.foldl | split

theorem h1Lost_kept (h : Kept W m a) (x1 x2 : Nat) (w0 : Area.txn ∈ W) (w1 : Area.luff ∈ W) (w2 : Area.ctx ∈ W) (w3 : Area.ttl ∈ W) (w4
    : Area.msix ∈ W) (w5 : Area.hostMem ∈ W) (w6 : Area.out ∈ W) : Kept W m (Machine.h1Lost a x1 x2) := by
  unfold Machine.h1Lost
  with_reducible repeat' first
    | assumption | apply ceStop_kept | apply ceFinish_kept | apply modQueue_kept | apply Kept.ite
    | (extract_lets +onlyGivenNames z; (first | have _ : _ → Machine := z | have _ : _ → _ → Machine := z); subst z; dsimp only)
    | (extract_lets +onlyGivenNames z; clear_value z) | split

theorem deny_kept (h : Kept W m a) (x1 : Nat) (w0 : Area.ctx ∈ W) (w1 : Area.ttl ∈ W) (w2 : Area.hst ∈ W) : Kept W m (Machine.deny a x1)
    := by
  unfold Machine.deny
  simp -zeta -iota -proj only [Machine.upd_hst_eq]
  with_reducible repeat' first
    | assumption | apply raise_kept | apply modCtx_kept | apply Kept.set_hst | intro _ | apply Kept.ite
    | apply Kept.foldl | split

theorem modWatch_kept (h : Kept W m a) (x1 : Nat) (x2 : Watch → Watch) (w0 : Area.hst ∈ W) : Kept W m (Machine.modWatch a x1 x2) := by
  unfold Machine.modWatch
  simp -zeta -iota -proj only [Machine.upd_hst_eq]
  with_reducible repeat' first
    | assumption | apply Kept.set_hst | intro _ | apply Kept.ite | apply Kept.foldl | split

theorem setWatch_kept (h : Kept W m a) (x1 : Nat) (x2 : Word) (w0 : Area.ttl ∈ W) (w1 : Area.hst ∈ W) : Kept W m (Machine.setWatch a x1 x2)
    := by
  unfold Machine.setWatch
  with_reducible repeat' first
    | assumption | apply modWatch_kept | apply raise_kept | intro _ | apply Kept.ite | apply Kept.foldl | split

theorem resetMsix_kept (h : Kept W m a) (x1 : Nat) (w0 : Area.msix ∈ W) : Kept W m (Machine.resetMsix a x1) := by
  unfold Machine.resetMsix
  simp -zeta -iota -proj only [Machine.upd_msix_eq]
  with_reducible repeat' first
    | assumption | apply Kept.set_msix | intro _ | apply Kept.ite | apply Kept.foldl | split

theorem loseVfs_kept (h : Kept W m a) (x1 : Nat) (w0 : Area.fwd ∈ W) (w1 : Area.txSeq ∈ W) (w2 : Area.coll ∈ W) (w3 : Area.tiles ∈ W) (w4
    : Area.strm ∈ W) (w5 : Area.luff ∈ W) (w6 : Area.ctx ∈ W) (w7 : Area.ttl ∈ W) (w8 : Area.reef ∈ W) (w9 : Area.out ∈ W) : Kept W m
    (Machine.loseVfs a x1) := by
  unfold Machine.loseVfs
  with_reducible repeat' first
    | assumption | apply startDestroy_kept | apply raise_kept | intro _ | apply Kept.ite | apply Kept.foldl | split

/-! ### JournalOps -/

theorem raiseLevel_kept (h : Kept W m a) (x1 : List JRec) (x2 : Nat) (w0 : Area.boot ∈ W) (w1 : Area.ttl ∈ W) (w2 : Area.flash ∈ W) :
    Kept W m (Machine.raiseLevel a x1 x2) := by
  unfold Machine.raiseLevel
  with_reducible repeat' first
    | assumption | apply modBoot_kept | apply journal_kept | apply raise_kept | intro _ | apply Kept.ite
    | apply Kept.foldl | split

theorem jnlErase_kept (h : Kept W m a) (w0 : Area.flash ∈ W) : Kept W m (Machine.jnlErase a) := by
  unfold Machine.jnlErase
  simp -zeta -iota -proj only [Machine.upd_flash_eq]
  with_reducible repeat' first
    | assumption | apply Kept.set_flash | intro _ | apply Kept.ite | apply Kept.foldl | split

theorem openJournal_kept (h : Kept W m a) (x1 : Bool) (w0 : Area.boot ∈ W) (w1 : Area.ttl ∈ W) (w2 : Area.flash ∈ W) : Kept W m
    (Machine.openJournal a x1) := by
  unfold Machine.openJournal
  with_reducible repeat' first
    | assumption | apply jnlErase_kept | apply raiseLevel_kept | apply modBoot_kept | apply note_kept
    | apply journal_kept | intro _ | apply Kept.ite | apply Kept.foldl | split

theorem closeJournal_kept (h : Kept W m a) (w0 : Area.boot ∈ W) (w1 : Area.flash ∈ W) : Kept W m (Machine.closeJournal a) := by
  unfold Machine.closeJournal
  simp -zeta -iota -proj only [Machine.upd_flash_eq]
  with_reducible repeat' first
    | assumption | apply modBoot_kept | apply Kept.set_flash | intro _ | apply Kept.ite | apply Kept.foldl | split

theorem altClear_kept (h : Kept W m a) (w0 : Area.boot ∈ W) (w1 : Area.ttl ∈ W) (w2 : Area.flash ∈ W) : Kept W m (Machine.altClear a) := by
  unfold Machine.altClear
  with_reducible repeat' first
    | assumption | apply journal_kept | intro _ | apply Kept.ite | apply Kept.foldl | split

/-! ### MemCmds -/

theorem pageDone_kept (h : Kept W m a) (x1 : Nat) (w0 : Area.part ∈ W) (w1 : Area.msix ∈ W) (w2 : Area.out ∈ W) : Kept W m
    (Machine.pageDone a x1) := by
  unfold Machine.pageDone
  simp -zeta -iota -proj only [Machine.upd_part_eq]
  with_reducible repeat' first
    | assumption | apply interrupt_kept | apply Kept.set_part | intro _ | apply Kept.ite | apply Kept.foldl | split

theorem modPage_kept (h : Kept W m a) (x1 : PageCmd → PageCmd) (w0 : Area.part ∈ W) : Kept W m (Machine.modPage a x1) := by
  unfold Machine.modPage
  simp -zeta -iota -proj only [Machine.upd_part_eq]
  with_reducible repeat' first
    | assumption | apply Kept.set_part | intro _ | apply Kept.ite | apply Kept.foldl | split

theorem pchCount_kept (h : Kept W m a) (x1 x2 x3 x4 : Nat) (w0 : Area.hbm ∈ W) (w1 : Area.ttl ∈ W) : Kept W m
    (Machine.pchCount a x1 x2 x3 x4) := by
  unfold Machine.pchCount
  simp -zeta -iota -proj only [Machine.upd_hbm_eq]
  with_reducible repeat' first
    | assumption | apply raise_kept | apply Kept.set_hbm | intro _ | apply Kept.ite | apply Kept.foldl | split

theorem uncorrectable_kept (h : Kept W m a) (x1 : Nat) (w0 : Area.tiles ∈ W) (w1 : Area.hbm ∈ W) (w2 : Area.ctx ∈ W) (w3 : Area.ttl ∈ W) :
    Kept W m (Machine.uncorrectable a x1) := by
  unfold Machine.uncorrectable
  with_reducible repeat' first
    | assumption | apply pchCount_kept | apply loseTile_kept | apply setPage_kept | apply raiseAs_kept | intro _
    | apply Kept.ite | apply Kept.foldl | split

theorem corrected_kept (h : Kept W m a) (x1 : Nat) (w0 : Area.hbm ∈ W) (w1 : Area.ttl ∈ W) : Kept W m (Machine.corrected a x1) := by
  unfold Machine.corrected
  simp -zeta -iota -proj only [Machine.upd_hbm_eq]
  with_reducible repeat' first
    | assumption | apply raise_kept | apply Kept.set_hbm | intro _ | apply Kept.ite | apply Kept.foldl | split

theorem openStream_kept (h : Kept W m a) (x1 x2 : Nat) (x3 : Table Word) (w0 : Area.fwd ∈ W) (w1 : Area.txSeq ∈ W) (w2 : Area.strm ∈ W) (w3
    : Area.ctx ∈ W) (w4 : Area.msix ∈ W) (w5 : Area.out ∈ W) : Kept W m (Machine.openStream a x1 x2 x3) := by
  unfold Machine.openStream
  with_reducible repeat' first
    | assumption | apply stDone_kept | apply sendHello_kept | apply setStrm_kept | intro _ | apply Kept.ite
    | apply Kept.foldl | split

end Sys2Proof.Machine
end

