-- ==== Sys2Proof/Laws/KeptMaster.lean ====
section
/-!
SUPPORT. Frames of the boot steps, the master and Halyard: one lemma per operation, naming the blocks it may write; it
keeps every other block.
-/
set_option linter.tactic.unusedName false
set_option linter.unusedSimpArgs false
namespace Sys2Proof.Machine

variable {W : List Area} {m a : Machine}

/-! ### BootSteps -/

theorem composeNode_kept (h : Kept W m a) (w0 : Area.boot ∈ W) (w1 : Area.hly ∈ W) (w2 : Area.ttl ∈ W) (w3 : Area.flash ∈ W) : Kept W m
    (Machine.composeNode a) := by
  unfold Machine.composeNode
  with_reducible repeat' first
    | assumption | apply note_kept | apply modHly_kept | intro _ | apply Kept.ite | apply Kept.foldl | split

theorem rescueMode_kept (h : Kept W m a) (w0 : Area.boot ∈ W) (w1 : Area.hly ∈ W) (w2 : Area.ttl ∈ W) : Kept W m (Machine.rescueMode a)
    := by
  unfold Machine.rescueMode
  with_reducible repeat' first
    | assumption | apply modBoot_kept | apply raise_kept | apply modHly_kept | intro _ | apply Kept.ite
    | apply Kept.foldl | split

theorem orderCopies_kept (h : Kept W m a) (w0 : Area.boot ∈ W) : Kept W m (Machine.orderCopies a) := by
  unfold Machine.orderCopies
  with_reducible repeat' first
    | assumption | apply modBoot_kept | intro _ | apply Kept.ite | apply Kept.foldl | split

theorem copyFails_kept (h : Kept W m a) (x1 : Nat) (w0 : Area.boot ∈ W) (w1 : Area.hly ∈ W) (w2 : Area.ttl ∈ W) (w3 : Area.flash ∈ W) :
    Kept W m (Machine.copyFails a x1) := by
  unfold Machine.copyFails
  with_reducible repeat' first
    | assumption | apply rescueMode_kept | apply modBoot_kept | apply note_kept | apply raise_kept | intro _
    | apply Kept.ite | apply Kept.foldl | split

theorem loadField_kept (h : Kept W m a) (x1 x2 : Nat) (w0 : Area.boot ∈ W) (w1 : Area.ttl ∈ W) (w2 : Area.flash ∈ W) : Kept W m
    (Machine.loadField a x1 x2) := by
  unfold Machine.loadField
  with_reducible repeat' first
    | assumption | apply setRig_kept | apply note_kept | apply raise_kept | intro _ | apply Kept.ite | apply Kept.foldl
    | split

theorem loadFields_kept (h : Kept W m a) (w0 : Area.boot ∈ W) (w1 : Area.shr ∈ W) (w2 : Area.hly ∈ W) (w3 : Area.ttl ∈ W) (w4
    : Area.reef ∈ W) (w5 : Area.flash ∈ W) : Kept W m (Machine.loadFields a) := by
  unfold Machine.loadFields
  simp -zeta -iota -proj only [Machine.upd_shr_reef_eq]
  with_reducible repeat' first
    | assumption | apply loadField_kept | apply composeNode_kept | apply modBoot_kept | apply note_kept
    | apply modDb_kept | apply Kept.set_shr_reef | intro _ | apply Kept.ite | apply Kept.foldl | split

theorem loadTtlEntry_kept (h : Kept W m a) (x1 : List Byte) (w0 : Area.boot ∈ W) (w1 : Area.ttl ∈ W) (w2 : Area.flash ∈ W) : Kept W m
    (Machine.loadTtlEntry a x1) := by
  unfold Machine.loadTtlEntry
  with_reducible repeat' first
    | assumption | apply modSrc_kept | apply note_kept | intro _ | apply Kept.ite | apply Kept.foldl | split

theorem loadTtl_kept (h : Kept W m a) (w0 : Area.boot ∈ W) (w1 : Area.ttl ∈ W) (w2 : Area.flash ∈ W) : Kept W m (Machine.loadTtl a) := by
  unfold Machine.loadTtl
  with_reducible repeat' first
    | assumption | apply loadTtlEntry_kept | apply modTtl_kept | intro _ | apply Kept.ite | apply Kept.foldl | split

theorem measure_kept (h : Kept W m a) (x1 : Nat) (x2 : List Byte) (w0 : Area.boot ∈ W) : Kept W m (Machine.measure a x1 x2) := by
  unfold Machine.measure
  with_reducible repeat' first
    | assumption | apply modBoot_kept | intro _ | apply Kept.ite | apply Kept.foldl | split

theorem copyStep_kept (h : Kept W m a) (x1 : Nat) (w0 : Area.boot ∈ W) (w1 : Area.shr ∈ W) (w2 : Area.hly ∈ W) (w3 : Area.ttl ∈ W) (w4
    : Area.reef ∈ W) (w5 : Area.flash ∈ W) : Kept W m (Machine.copyStep a x1) := by
  unfold Machine.copyStep
  with_reducible repeat' first
    | assumption | apply measure_kept | apply loadTtl_kept | apply loadFields_kept | apply copyFails_kept
    | apply completeStep_kept | intro _ | apply Kept.ite | apply Kept.foldl | split

theorem progress_kept (h : Kept W m a) (x1 : Nat) (x2 : List Nat) (w0 : Area.boot ∈ W) (w1 : Area.ttl ∈ W) (w2 : Area.flash ∈ W) : Kept W m
    (Machine.progress a x1 x2) := by
  unfold Machine.progress
  with_reducible repeat' first
    | assumption | apply journal_kept | intro _ | apply Kept.ite | apply Kept.foldl | split

theorem powerDies_kept (h : Kept W m a) (x1 : List Nat) (w0 : Area.boot ∈ W) (w1 : Area.ttl ∈ W) (w2 : Area.reef ∈ W) (w3 : Area.flash ∈ W)
    : Kept W m (Machine.powerDies a x1) := by
  unfold Machine.powerDies
  with_reducible repeat' first
    | assumption | apply progress_kept | apply modRdie_kept | apply modBoot_kept | intro _ | apply Kept.ite
    | apply Kept.foldl | split

theorem testStay_kept (h : Kept W m a) (x1 x2 : List Nat) (w0 : Area.boot ∈ W) (w1 : Area.shr ∈ W) (w2 : Area.ttl ∈ W) (w3 : Area.flash ∈ W)
    : Kept W m (Machine.testStay a x1 x2) := by
  unfold Machine.testStay
  simp -zeta -iota -proj only [Machine.upd_shr_eq]
  with_reducible repeat' first
    | assumption | apply progress_kept | apply modBoot_kept | apply Kept.set_shr | intro _ | apply Kept.ite
    | apply Kept.foldl | split

theorem testTile_kept (h : Kept W m a) (x1 : Nat) (x2 : Bool) (w0 : Area.tilePhys ∈ W) : Kept W m (Machine.testTile a x1 x2) := by
  unfold Machine.testTile
  with_reducible repeat' first
    | assumption | apply setPhys_kept | intro _ | apply Kept.ite | apply Kept.foldl | split

theorem retestTile_kept (h : Kept W m a) (x1 : Nat) (x2 : Bool) (w0 : Area.tiles ∈ W) (w1 : Area.tilePhys ∈ W) (w2 : Area.ttl ∈ W) :
    Kept W m (Machine.retestTile a x1 x2) := by
  unfold Machine.retestTile
  with_reducible repeat' first
    | assumption | apply setPhys_kept | apply modTile_kept | apply raise_kept | intro _ | apply Kept.ite
    | apply Kept.foldl | split

theorem testTiles_kept (h : Kept W m a) (x1 x2 : List Nat) (w0 : Area.boot ∈ W) (w1 : Area.tiles ∈ W) (w2 : Area.tilePhys ∈ W) (w3
    : Area.ttl ∈ W) (w4 : Area.flash ∈ W) : Kept W m (Machine.testTiles a x1 x2) := by
  unfold Machine.testTiles
  with_reducible repeat' first
    | assumption | apply retestTile_kept | apply testTile_kept | apply progress_kept | intro _ | apply Kept.ite
    | apply Kept.foldl | split

theorem mapDie_kept (h : Kept W m a) (x1 : Nat) (w0 : Area.tileMap ∈ W) (w1 : Area.tilePhys ∈ W) : Kept W m (Machine.mapDie a x1) := by
  unfold Machine.mapDie
  simp -zeta -iota -proj only [Machine.upd_tileMap_eq]
  with_reducible repeat' first
    | assumption | apply setPhys_kept | apply Kept.set_tileMap | intro _ | apply Kept.ite | apply Kept.foldl | split

theorem remapDie_kept (h : Kept W m a) (x1 : Nat) (w0 : Area.tiles ∈ W) (w1 : Area.tileMap ∈ W) (w2 : Area.tilePhys ∈ W) (w3 : Area.hly ∈ W)
    (w4 : Area.tkp ∈ W) (w5 : Area.slc ∈ W) (w6 : Area.ttl ∈ W) (w7 : Area.out ∈ W) : Kept W m (Machine.remapDie a x1) := by
  unfold Machine.remapDie
  simp -zeta -iota -proj only [Machine.upd_tileMap_eq]
  with_reducible repeat' first
    | assumption | apply retireTile_kept | apply Kept.set_tileMap | intro _ | apply Kept.ite | apply Kept.foldl | split

theorem mapTiles_kept (h : Kept W m a) (w0 : Area.tiles ∈ W) (w1 : Area.tileMap ∈ W) (w2 : Area.tilePhys ∈ W) (w3 : Area.hly ∈ W) (w4
    : Area.tkp ∈ W) (w5 : Area.slc ∈ W) (w6 : Area.ttl ∈ W) (w7 : Area.out ∈ W) : Kept W m (Machine.mapTiles a) := by
  unfold Machine.mapTiles
  with_reducible repeat' first
    | assumption | apply remapDie_kept | apply mapDie_kept | intro _ | apply Kept.ite | apply Kept.foldl | split

theorem startPhys_kept (h : Kept W m a) (x1 : List Nat) (w0 : Area.boot ∈ W) (w1 : Area.hbm ∈ W) (w2 : Area.ttl ∈ W) (w3 : Area.flash ∈ W) :
    Kept W m (Machine.startPhys a x1) := by
  unfold Machine.startPhys
  simp -zeta -iota -proj only [Machine.upd_hbm_eq]
  with_reducible repeat' first
    | assumption | apply progress_kept | apply Kept.set_hbm | intro _ | apply Kept.ite | apply Kept.foldl | split

theorem trainHbm_kept (h : Kept W m a) (x1 : List (Nat × Nat)) (w0 : Area.boot ∈ W) (w1 : Area.hbm ∈ W) (w2 : Area.ttl ∈ W) (w3
    : Area.flash ∈ W) : Kept W m (Machine.trainHbm a x1) := by
  unfold Machine.trainHbm
  simp -zeta -iota -proj only [Machine.upd_hbm_eq]
  with_reducible repeat' first
    | assumption | apply unretirePages_kept | apply remapHbm_kept | apply note_kept | apply raise_kept
    | apply Kept.set_hbm | intro _ | apply Kept.ite | apply Kept.foldl | split

theorem zeroHbm_kept (h : Kept W m a) (w0 : Area.hbm ∈ W) : Kept W m (Machine.zeroHbm a) := by
  unfold Machine.zeroHbm
  simp -zeta -iota -proj only [Machine.upd_hbm_eq]
  with_reducible repeat' first
    | assumption | apply Kept.set_hbm | intro _ | apply Kept.ite | apply Kept.foldl | split

theorem yieldMap_kept (h : Kept W m a) (w0 : Area.boot ∈ W) (w1 : Area.ttl ∈ W) (w2 : Area.flash ∈ W) : Kept W m (Machine.yieldMap a) := by
  unfold Machine.yieldMap
  with_reducible repeat' first
    | assumption | apply modBoot_kept | apply note_kept | apply raise_kept | intro _ | apply Kept.ite | apply Kept.foldl
    | split

theorem assignPort_kept (h : Kept W m a) (x1 : List CableRead) (x2 : Nat × Nat × Nat) (w0 : Area.time ∈ W) (w1 : Area.shr ∈ W) (w2
    : Area.hly ∈ W) (w3 : Area.tkp ∈ W) (w4 : Area.slc ∈ W) (w5 : Area.ttl ∈ W) (w6 : Area.out ∈ W) : Kept W m (Machine.assignPort a x1 x2)
    := by
  unfold Machine.assignPort
  with_reducible repeat' first
    | assumption | apply enterDetect_kept | apply portDown_kept | apply modPort_kept | intro _ | apply Kept.ite
    | apply Kept.foldl | split

theorem assignPorts_kept (h : Kept W m a) (x1 : List CableRead) (w0 : Area.time ∈ W) (w1 : Area.shr ∈ W) (w2 : Area.hly ∈ W) (w3
    : Area.tkp ∈ W) (w4 : Area.slc ∈ W) (w5 : Area.ttl ∈ W) (w6 : Area.out ∈ W) : Kept W m (Machine.assignPorts a x1) := by
  unfold Machine.assignPorts
  simp -zeta -iota -proj only [Machine.upd_shr_eq]
  with_reducible repeat' first
    | assumption | apply assignPort_kept | apply Kept.set_shr | intro _ | apply Kept.ite | apply Kept.foldl | split

theorem enterIsland_kept (h : Kept W m a) (w0 : Area.time ∈ W) (w1 : Area.hly ∈ W) : Kept W m (Machine.enterIsland a) := by
  unfold Machine.enterIsland
  with_reducible repeat' first
    | assumption | apply openEpoch_kept | apply makeRoot_kept | apply modDb_kept | apply modHly_kept | intro _
    | apply Kept.ite | apply Kept.foldl | split

theorem startHalyard_kept (h : Kept W m a) (w0 : Area.time ∈ W) (w1 : Area.hly ∈ W) (w2 : Area.ttl ∈ W) : Kept W m (Machine.startHalyard a)
    := by
  unfold Machine.startHalyard
  with_reducible repeat' first
    | assumption | apply enterIsland_kept | apply raise_kept | apply modHly_kept | intro _ | apply Kept.ite
    | apply Kept.foldl | split

theorem stageBundle_kept (h : Kept W m a) (w0 : Area.boot ∈ W) (w1 : Area.ttl ∈ W) : Kept W m (Machine.stageBundle a) := by
  unfold Machine.stageBundle
  with_reducible repeat' first
    | assumption | apply modBcast_kept | apply modBoot_kept | apply raise_kept | intro _ | apply Kept.ite
    | apply Kept.foldl | split

theorem staged_kept (h : Kept W m a) (w0 : Area.boot ∈ W) (w1 : Area.hly ∈ W) (w2 : Area.ttl ∈ W) (w3 : Area.flash ∈ W) (w4 : Area.out ∈ W)
    : Kept W m (Machine.staged a) := by
  unfold Machine.staged
  with_reducible repeat' first
    | assumption | apply fetchAdvert_kept | apply bundleSettle_kept | apply sendHave_kept | intro _ | apply Kept.ite
    | apply Kept.foldl | split

theorem switchHalyard_kept (h : Kept W m a) (w0 : Area.boot ∈ W) : Kept W m (Machine.switchHalyard a) := by
  unfold Machine.switchHalyard
  with_reducible repeat' first
    | assumption | apply modBoot_kept | intro _ | apply Kept.ite | apply Kept.foldl | split

theorem offerMeasures_kept (h : Kept W m a) (w0 : Area.out ∈ W) : Kept W m (Machine.offerMeasures a) := by
  unfold Machine.offerMeasures
  with_reducible repeat' first
    | assumption | apply toFarnis_kept | intro _ | apply Kept.ite | apply Kept.foldl | split

theorem stepWork_kept (h : Kept W m a) (x1 : Nat) (x2 : BootInputs) (w0 : Area.boot ∈ W) (w1 : Area.time ∈ W) (w2 : Area.shr ∈ W) (w3
    : Area.tiles ∈ W) (w4 : Area.tileMap ∈ W) (w5 : Area.tilePhys ∈ W) (w6 : Area.hbm ∈ W) (w7 : Area.hly ∈ W) (w8 : Area.tkp ∈ W) (w9
    : Area.slc ∈ W) (w10 : Area.ttl ∈ W) (w11 : Area.reef ∈ W) (w12 : Area.flash ∈ W) (w13 : Area.out ∈ W) : Kept W m
    (Machine.stepWork a x1 x2) := by
  unfold Machine.stepWork
  simp -zeta -iota -proj only [Machine.upd_hbm_eq]
  with_reducible repeat' first
    | assumption | apply offerMeasures_kept | apply switchHalyard_kept | apply stageBundle_kept
    | apply startHalyard_kept | apply assignPorts_kept | apply yieldMap_kept | apply zeroHbm_kept | apply trainHbm_kept
    | apply startPhys_kept | apply mapTiles_kept | apply testTiles_kept | apply testStay_kept | apply powerDies_kept
    | apply measure_kept | apply orderCopies_kept | apply closeJournal_kept | apply openJournal_kept
    | apply modBoot_kept | apply Kept.set_hbm | intro _ | apply Kept.ite | apply Kept.foldl | split

/-! ### MasterCmds -/

theorem endWith_kept (h : Kept W m a) (x1 : Nat) (w0 : Area.hly ∈ W) (w1 : Area.out ∈ W) : Kept W m (Machine.endWith a x1) := by
  unfold Machine.endWith
  with_reducible repeat' first
    | assumption | apply finishCmd_kept | intro _ | apply Kept.ite | apply Kept.foldl | split

theorem cmdPortDisable_kept (h : Kept W m a) (x1 : HlyCmdRec) (w0 : Area.hly ∈ W) (w1 : Area.out ∈ W) : Kept W m
    (Machine.cmdPortDisable a x1) := by
  unfold Machine.cmdPortDisable
  with_reducible repeat' first
    | assumption | apply endWith_kept | apply nextChange_kept | intro _ | apply Kept.ite | apply Kept.foldl | split

theorem enablePort_kept (h : Kept W m a) (x1 : Nat) (x2 : CableRead) (w0 : Area.time ∈ W) (w1 : Area.shr ∈ W) (w2 : Area.hly ∈ W) (w3
    : Area.tkp ∈ W) (w4 : Area.slc ∈ W) (w5 : Area.ttl ∈ W) (w6 : Area.out ∈ W) : Kept W m (Machine.enablePort a x1 x2) := by
  unfold Machine.enablePort
  with_reducible repeat' first
    | assumption | apply enterDetect_kept | apply floodOwn_kept | apply modPort_kept | intro _ | apply Kept.ite
    | apply Kept.foldl | split

theorem cmdPortEnable_kept (h : Kept W m a) (x1 : HlyCmdRec) (w0 : Area.time ∈ W) (w1 : Area.shr ∈ W) (w2 : Area.hly ∈ W) (w3
    : Area.tkp ∈ W) (w4 : Area.slc ∈ W) (w5 : Area.ttl ∈ W) (w6 : Area.out ∈ W) : Kept W m (Machine.cmdPortEnable a x1) := by
  unfold Machine.cmdPortEnable
  with_reducible repeat' first
    | assumption | apply enablePort_kept | apply endWith_kept | apply submit_kept | apply tell_kept | intro _
    | apply Kept.ite | apply Kept.foldl | split

theorem cmdPortFullTrain_kept (h : Kept W m a) (x1 : HlyCmdRec) (w0 : Area.hly ∈ W) (w1 : Area.out ∈ W) : Kept W m
    (Machine.cmdPortFullTrain a x1) := by
  unfold Machine.cmdPortFullTrain
  with_reducible repeat' first
    | assumption | apply endWith_kept | apply nextChange_kept | intro _ | apply Kept.ite | apply Kept.foldl | split

theorem cmdPortTestRetrain_kept (h : Kept W m a) (x1 : HlyCmdRec) (w0 : Area.shr ∈ W) (w1 : Area.hly ∈ W) (w2 : Area.out ∈ W) : Kept W m
    (Machine.cmdPortTestRetrain a x1) := by
  unfold Machine.cmdPortTestRetrain
  with_reducible repeat' first
    | assumption | apply endWith_kept | apply startRetrain_kept | apply tell_kept | intro _ | apply Kept.ite
    | apply Kept.foldl | split

theorem cmdMasterHandover_kept (h : Kept W m a) (x1 : HlyCmdRec) (w0 : Area.hly ∈ W) (w1 : Area.out ∈ W) : Kept W m
    (Machine.cmdMasterHandover a x1) := by
  unfold Machine.cmdMasterHandover
  with_reducible repeat' first
    | assumption | apply endWith_kept | apply commitThen_kept | intro _ | apply Kept.ite | apply Kept.foldl | split

theorem giveMaster_kept (h : Kept W m a) (x1 : NodeId) (w0 : Area.time ∈ W) (w1 : Area.hly ∈ W) (w2 : Area.out ∈ W) : Kept W m
    (Machine.giveMaster a x1) := by
  unfold Machine.giveMaster
  simp -zeta -iota -proj only [Machine.upd_hly_eq]
  with_reducible repeat' first
    | assumption | apply endWith_kept | apply dropCmds_kept | apply tell_kept | apply modTime_kept | apply modHly_kept
    | apply Kept.set_hly | intro _ | apply Kept.ite | apply Kept.foldl | split

theorem cmdMasterConfirm_kept (h : Kept W m a) (x1 : HlyCmdRec) (w0 : Area.hly ∈ W) (w1 : Area.out ∈ W) : Kept W m
    (Machine.cmdMasterConfirm a x1) := by
  unfold Machine.cmdMasterConfirm
  with_reducible repeat' first
    | assumption | apply endWith_kept | apply releaseHeld_kept | apply commitThen_kept | apply modDb_kept | intro _
    | apply Kept.ite | apply Kept.foldl | split

theorem cmdPackageDrain_kept (h : Kept W m a) (x1 : HlyCmdRec) (w0 : Area.hly ∈ W) (w1 : Area.slc ∈ W) (w2 : Area.out ∈ W) : Kept W m
    (Machine.cmdPackageDrain a x1) := by
  unfold Machine.cmdPackageDrain
  with_reducible repeat' first
    | assumption | apply endWith_kept | apply memberGone_kept | apply nextChange_kept | intro _ | apply Kept.ite
    | apply Kept.foldl | split

theorem cmdPackageRestore_kept (h : Kept W m a) (x1 : HlyCmdRec) (w0 : Area.hly ∈ W) (w1 : Area.out ∈ W) : Kept W m
    (Machine.cmdPackageRestore a x1) := by
  unfold Machine.cmdPackageRestore
  with_reducible repeat' first
    | assumption | apply endWith_kept | apply nextChange_kept | intro _ | apply Kept.ite | apply Kept.foldl | split

theorem cmdSliceCreate_kept (h : Kept W m a) (x1 : HlyCmdRec) (w0 : Area.hly ∈ W) (w1 : Area.slc ∈ W) (w2 : Area.out ∈ W) : Kept W m
    (Machine.cmdSliceCreate a x1) := by
  unfold Machine.cmdSliceCreate
  simp -zeta -iota -proj only [Machine.upd_slc_eq]
  with_reducible repeat' first
    | assumption | apply endWith_kept | apply finishSlice_kept | apply commitThen_kept | apply setSlice_kept
    | apply Kept.set_slc | intro _ | apply Kept.ite | apply Kept.foldl | split

theorem cmdSliceDestroy_kept (h : Kept W m a) (x1 : HlyCmdRec) (w0 : Area.hly ∈ W) (w1 : Area.slc ∈ W) (w2 : Area.out ∈ W) : Kept W m
    (Machine.cmdSliceDestroy a x1) := by
  unfold Machine.cmdSliceDestroy
  with_reducible repeat' first
    | assumption | apply endWith_kept | apply tryRelease_kept | apply finishSlice_kept | apply commitThen_kept
    | apply setSlice_kept | intro _ | apply Kept.ite | apply Kept.foldl | split

theorem cmdSliceQuery_kept (h : Kept W m a) (x1 : HlyCmdRec) (w0 : Area.hly ∈ W) (w1 : Area.out ∈ W) : Kept W m (Machine.cmdSliceQuery a x1)
    := by
  unfold Machine.cmdSliceQuery
  with_reducible repeat' first
    | assumption | apply endWith_kept | apply finishSlice_kept | apply finishCmd_kept | intro _ | apply Kept.ite
    | apply Kept.foldl | split

theorem cmdSliceList_kept (h : Kept W m a) (x1 : HlyCmdRec) (w0 : Area.hly ∈ W) (w1 : Area.out ∈ W) : Kept W m (Machine.cmdSliceList a x1)
    := by
  unfold Machine.cmdSliceList
  with_reducible repeat' first
    | assumption | apply endWith_kept | apply finishCmd_kept | intro _ | apply Kept.ite | apply Kept.foldl | split

theorem cmdSliceLayout_kept (h : Kept W m a) (x1 : HlyCmdRec) (w0 : Area.hly ∈ W) (w1 : Area.slc ∈ W) (w2 : Area.out ∈ W) : Kept W m
    (Machine.cmdSliceLayout a x1) := by
  unfold Machine.cmdSliceLayout
  with_reducible repeat' first
    | assumption | apply endWith_kept | apply modParts_kept | apply finishSlice_kept | apply commitThen_kept | intro _
    | apply Kept.ite | apply Kept.foldl | split

theorem cmdSlicePeer_kept (h : Kept W m a) (x1 : HlyCmdRec) (w0 : Area.hly ∈ W) (w1 : Area.slc ∈ W) (w2 : Area.out ∈ W) : Kept W m
    (Machine.cmdSlicePeer a x1) := by
  unfold Machine.cmdSlicePeer
  simp -zeta -iota -proj only [Machine.upd_slc_eq]
  with_reducible repeat' first
    | assumption | apply endWith_kept | apply finishSlice_kept | apply commitThen_kept | apply Kept.set_slc | intro _
    | apply Kept.ite | apply Kept.foldl | split

theorem cmdSliceReserve_kept (h : Kept W m a) (x1 : HlyCmdRec) (w0 : Area.hly ∈ W) (w1 : Area.tkp ∈ W) (w2 : Area.out ∈ W) : Kept W m
    (Machine.cmdSliceReserve a x1) := by
  unfold Machine.cmdSliceReserve
  with_reducible repeat' first
    | assumption | apply endWith_kept | apply pushJob_kept | apply finishSlice_kept | intro _ | apply Kept.ite
    | apply Kept.foldl | split

theorem cmdTkpDryrun_kept (h : Kept W m a) (x1 : HlyCmdRec) (w0 : Area.hly ∈ W) (w1 : Area.tkp ∈ W) (w2 : Area.out ∈ W) : Kept W m
    (Machine.cmdTkpDryrun a x1) := by
  unfold Machine.cmdTkpDryrun
  with_reducible repeat' first
    | assumption | apply endWith_kept | apply pushJob_kept | intro _ | apply Kept.ite | apply Kept.foldl | split

theorem cmdTkpResvRead_kept (h : Kept W m a) (x1 : HlyCmdRec) (w0 : Area.hly ∈ W) (w1 : Area.out ∈ W) : Kept W m
    (Machine.cmdTkpResvRead a x1) := by
  unfold Machine.cmdTkpResvRead
  with_reducible repeat' first
    | assumption | apply endWith_kept | apply finishCmd_kept | intro _ | apply Kept.ite | apply Kept.foldl | split

theorem cmdTkpSlotsRead_kept (h : Kept W m a) (x1 : HlyCmdRec) (w0 : Area.hly ∈ W) (w1 : Area.out ∈ W) : Kept W m
    (Machine.cmdTkpSlotsRead a x1) := by
  unfold Machine.cmdTkpSlotsRead
  with_reducible repeat' first
    | assumption | apply endWith_kept | apply finishCmd_kept | intro _ | apply Kept.ite | apply Kept.foldl | split

theorem cmdTkpBiasSet_kept (h : Kept W m a) (x1 : HlyCmdRec) (w0 : Area.hly ∈ W) (w1 : Area.out ∈ W) : Kept W m (Machine.cmdTkpBiasSet a x1)
    := by
  unfold Machine.cmdTkpBiasSet
  with_reducible repeat' first
    | assumption | apply endWith_kept | apply submit_kept | intro _ | apply Kept.ite | apply Kept.foldl | split

theorem cmdTkpHeadroomSet_kept (h : Kept W m a) (x1 : HlyCmdRec) (w0 : Area.hly ∈ W) (w1 : Area.tkp ∈ W) (w2 : Area.out ∈ W) : Kept W m
    (Machine.cmdTkpHeadroomSet a x1) := by
  unfold Machine.cmdTkpHeadroomSet
  simp -zeta -iota -proj only [Machine.upd_tkp_eq]
  with_reducible repeat' first
    | assumption | apply endWith_kept | apply commitThen_kept | apply Kept.set_tkp | intro _ | apply Kept.ite
    | apply Kept.foldl | split

theorem cmdTkpDeadlineSet_kept (h : Kept W m a) (x1 : HlyCmdRec) (w0 : Area.hly ∈ W) (w1 : Area.tkp ∈ W) (w2 : Area.out ∈ W) : Kept W m
    (Machine.cmdTkpDeadlineSet a x1) := by
  unfold Machine.cmdTkpDeadlineSet
  simp -zeta -iota -proj only [Machine.upd_tkp_eq]
  with_reducible repeat' first
    | assumption | apply endWith_kept | apply commitThen_kept | apply Kept.set_tkp | intro _ | apply Kept.ite
    | apply Kept.foldl | split

theorem cmdTkpReplanAll_kept (h : Kept W m a) (x1 : HlyCmdRec) (w0 : Area.hly ∈ W) (w1 : Area.out ∈ W) : Kept W m
    (Machine.cmdTkpReplanAll a x1) := by
  unfold Machine.cmdTkpReplanAll
  with_reducible repeat' first
    | assumption | apply endWith_kept | apply nextChange_kept | apply modWork_kept | intro _ | apply Kept.ite
    | apply Kept.foldl | split

theorem cmdTkpRampRead_kept (h : Kept W m a) (x1 : HlyCmdRec) (w0 : Area.hly ∈ W) (w1 : Area.out ∈ W) : Kept W m
    (Machine.cmdTkpRampRead a x1) := by
  unfold Machine.cmdTkpRampRead
  with_reducible repeat' first
    | assumption | apply endWith_kept | apply finishCmd_kept | intro _ | apply Kept.ite | apply Kept.foldl | split

theorem runCmd_kept (h : Kept W m a) (x1 : HlyCmdRec) (w0 : Area.time ∈ W) (w1 : Area.shr ∈ W) (w2 : Area.hly ∈ W) (w3 : Area.tkp ∈ W) (w4
    : Area.slc ∈ W) (w5 : Area.ttl ∈ W) (w6 : Area.out ∈ W) : Kept W m (Machine.runCmd a x1) := by
  unfold Machine.runCmd
  with_reducible repeat' first
    | assumption | apply cmdTkpRampRead_kept | apply cmdTkpReplanAll_kept | apply cmdTkpDeadlineSet_kept
    | apply cmdTkpHeadroomSet_kept | apply cmdTkpBiasSet_kept | apply cmdTkpSlotsRead_kept | apply cmdTkpResvRead_kept
    | apply cmdTkpDryrun_kept | apply cmdSliceReserve_kept | apply cmdSlicePeer_kept | apply cmdSliceLayout_kept
    | apply cmdSliceList_kept | apply cmdSliceQuery_kept | apply cmdSliceDestroy_kept | apply cmdSliceCreate_kept
    | apply cmdPackageRestore_kept | apply cmdPackageDrain_kept | apply cmdMasterConfirm_kept
    | apply cmdMasterHandover_kept | apply cmdPortTestRetrain_kept | apply cmdPortFullTrain_kept
    | apply cmdPortEnable_kept | apply cmdPortDisable_kept | apply endWith_kept | intro _ | apply Kept.ite
    | apply Kept.foldl | split

theorem act_kept (h : Kept W m a) (x1 : MasterAct) (w0 : Area.time ∈ W) (w1 : Area.shr ∈ W) (w2 : Area.hly ∈ W) (w3 : Area.tkp ∈ W) (w4
    : Area.slc ∈ W) (w5 : Area.ttl ∈ W) (w6 : Area.out ∈ W) : Kept W m (Machine.act a x1) := by
  unfold Machine.act
  with_reducible repeat' first
    | assumption | apply runCmd_kept | apply giveMaster_kept | apply pushJob_kept | apply floodEvent_kept
    | apply finishCmd_kept | apply nextChange_kept | apply tell_kept | intro _ | apply Kept.ite | apply Kept.foldl
    | split

theorem takeNext_kept (h : Kept W m a) (w0 : Area.hly ∈ W) (w1 : Area.out ∈ W) : Kept W m (Machine.takeNext a) := by
  unfold Machine.takeNext
  simp -zeta -iota -proj only [Machine.upd_hly_eq]
  with_reducible repeat' first
    | assumption | apply commitThen_kept | apply Kept.set_hly | intro _ | apply Kept.ite | apply Kept.foldl | split

theorem serveN_kept (h : Kept W m a) (x1 : Nat) (w0 : Area.time ∈ W) (w1 : Area.shr ∈ W) (w2 : Area.hly ∈ W) (w3 : Area.tkp ∈ W) (w4
    : Area.slc ∈ W) (w5 : Area.ttl ∈ W) (w6 : Area.out ∈ W) : Kept W m (Machine.serveN a x1) := by
  induction x1 generalizing a with
  | zero => exact h
  | succ n ih =>
    unfold Machine.serveN
    simp -zeta -iota -proj only [Machine.upd_hly_eq]
    repeat' (first
      | with_reducible assumption
      | with_reducible apply ih
      | with_reducible apply takeNext_kept
      | with_reducible apply act_kept
      | with_reducible apply Kept.set_hly
      | intro _
      | with_reducible apply Kept.ite
      | with_reducible apply Kept.iteFst
      | with_reducible apply Kept.foldl
      | (extract_lets +onlyGivenNames z; refine Kept.cut (W := W) (m := m) (x := z) ?_ ?_; subst z; rotate_left; intro hz; clear_value z)
      | (extract_lets +onlyGivenNames z; clear_value z)
      | dsimp -zeta only
      | split)

theorem serve_kept (h : Kept W m a) (w0 : Area.time ∈ W) (w1 : Area.shr ∈ W) (w2 : Area.hly ∈ W) (w3 : Area.tkp ∈ W) (w4 : Area.slc ∈ W) (w5
    : Area.ttl ∈ W) (w6 : Area.out ∈ W) : Kept W m (Machine.serve a) := by
  unfold Machine.serve
  with_reducible repeat' first
    | assumption | apply serveN_kept | intro _ | apply Kept.ite | apply Kept.foldl | split

theorem placeRefused_kept (h : Kept W m a) (x1 : Job) (x2 : Nat) (w0 : Area.hly ∈ W) (w1 : Area.tkp ∈ W) (w2 : Area.slc ∈ W) (w3
    : Area.out ∈ W) : Kept W m (Machine.placeRefused a x1 x2) := by
  unfold Machine.placeRefused
  simp -zeta -iota -proj only [Machine.upd_tkp_eq]
  with_reducible repeat' first
    | assumption | apply modParts_kept | apply commitThen_kept | apply setSlice_kept | apply Kept.set_tkp | intro _
    | apply Kept.ite | apply Kept.foldl | split

theorem placeAccepted_kept (h : Kept W m a) (x1 : Job) (x2 : Result) (w0 : Area.hly ∈ W) (w1 : Area.slc ∈ W) (w2 : Area.out ∈ W) : Kept W m
    (Machine.placeAccepted a x1 x2) := by
  unfold Machine.placeAccepted
  with_reducible repeat' first
    | assumption | apply modParts_kept | apply commitThen_kept | apply modSlice_kept | apply setSlice_kept | intro _
    | apply Kept.ite | apply Kept.foldl | split

theorem resultIn_kept (h : Kept W m a) (x1 : Job) (x2 : Result) (w0 : Area.hly ∈ W) (w1 : Area.tkp ∈ W) (w2 : Area.slc ∈ W) (w3
    : Area.out ∈ W) : Kept W m (Machine.resultIn a x1 x2) := by
  unfold Machine.resultIn
  simp -zeta -iota -proj only [Machine.upd_tkp_eq]
  with_reducible repeat' first
    | assumption | apply placeAccepted_kept | apply placeRefused_kept | apply replanDone_kept | apply pushJob_kept
    | apply finishCmd_kept | apply commitThen_kept | apply modSlice_kept | apply Kept.set_tkp | intro _ | apply Kept.ite
    | apply Kept.foldl | split

/-! ### Halyard -/

theorem checkFingerprint_kept (h : Kept W m a) (x1 : Hello) (w0 : Area.hly ∈ W) : Kept W m (Machine.checkFingerprint a x1) := by
  unfold Machine.checkFingerprint
  with_reducible repeat' first
    | assumption | apply submit_kept | intro _ | apply Kept.ite | apply Kept.foldl | split

theorem masterRecord_kept (h : Kept W m a) (x1 : LsRecord) (x2 x3 : Bool) (w0 : Area.time ∈ W) (w1 : Area.shr ∈ W) (w2 : Area.hly ∈ W) (w3
    : Area.tkp ∈ W) (w4 : Area.slc ∈ W) (w5 : Area.ttl ∈ W) (w6 : Area.out ∈ W) : Kept W m (Machine.masterRecord a x1 x2 x3) := by
  unfold Machine.masterRecord
  with_reducible repeat' first
    | assumption | apply serve_kept | apply markAbsent_kept | apply memberReset_kept | apply modParts_kept
    | apply takeRecord_kept | apply replicate_kept | intro _ | apply Kept.ite | apply Kept.foldl | split

theorem announceElect_kept (h : Kept W m a) (x1 : NodeId) (w0 : Area.time ∈ W) (w1 : Area.hly ∈ W) (w2 : Area.out ∈ W) : Kept W m
    (Machine.announceElect a x1) := by
  unfold Machine.announceElect
  with_reducible repeat' first
    | assumption | apply acceptMaster_kept | apply modDb_kept | intro _ | apply Kept.ite | apply Kept.foldl | split

theorem announceRun_kept (h : Kept W m a) (x1 : NodeId) (w0 : Area.time ∈ W) (w1 : Area.hly ∈ W) (w2 : Area.ttl ∈ W) (w3 : Area.out ∈ W) :
    Kept W m (Machine.announceRun a x1) := by
  unfold Machine.announceRun
  with_reducible repeat' first
    | assumption | apply acceptMaster_kept | apply raise_kept | apply tell_kept | apply modHly_kept | intro _
    | apply Kept.ite | apply Kept.foldl | split

theorem announceRestarting_kept (h : Kept W m a) (x1 : NodeId) (w0 : Area.time ∈ W) (w1 : Area.hly ∈ W) (w2 : Area.ttl ∈ W) (w3
    : Area.out ∈ W) : Kept W m (Machine.announceRestarting a x1) := by
  unfold Machine.announceRestarting
  with_reducible repeat' first
    | assumption | apply raise_kept | apply tell_kept | apply modTime_kept | apply modHly_kept | intro _
    | apply Kept.ite | apply Kept.foldl | split

theorem adoptReplica_kept (h : Kept W m a) (x1 : Replica) (w0 : Area.hly ∈ W) (w1 : Area.tkp ∈ W) (w2 : Area.slc ∈ W) : Kept W m
    (Machine.adoptReplica a x1) := by
  unfold Machine.adoptReplica
  simp -zeta -iota -proj only [Machine.upd_hly_tkp_slc_eq]
  with_reducible repeat' first
    | assumption | apply Kept.set_hly_tkp_slc | intro _ | apply Kept.ite | apply Kept.foldl | split

theorem resume_kept (h : Kept W m a) (x1 : NodeId) (x2 : Replica) (w0 : Area.hly ∈ W) (w1 : Area.tkp ∈ W) (w2 : Area.slc ∈ W) (w3
    : Area.out ∈ W) : Kept W m (Machine.resume a x1 x2) := by
  unfold Machine.resume
  simp -zeta -iota -proj only [Machine.upd_hly_eq, Machine.upd_tkp_eq]
  with_reducible repeat' first
    | assumption | apply pushJob_kept | apply nextChange_kept | apply dropPrepared_kept | apply replicate_kept
    | apply tellAll_kept | apply tell_kept | apply modWork_kept | apply modSlice_kept | apply Kept.set_hly
    | apply Kept.set_tkp | intro _ | apply Kept.ite | apply Kept.foldl | split

theorem mergeReplica_kept (h : Kept W m a) (x1 : Replica) (w0 : Area.hly ∈ W) (w1 : Area.tkp ∈ W) (w2 : Area.slc ∈ W) (w3 : Area.out ∈ W) :
    Kept W m (Machine.mergeReplica a x1) := by
  unfold Machine.mergeReplica
  simp -zeta -iota -proj only [Machine.upd_hly_tkp_slc_eq]
  with_reducible repeat' first
    | assumption | apply replicate_kept | apply Kept.set_hly_tkp_slc | intro _ | apply Kept.ite | apply Kept.foldl
    | split

theorem takePrepare_kept (h : Kept W m a) (x1 : Prepare) (w0 : Area.luff ∈ W) (w1 : Area.hly ∈ W) (w2 : Area.out ∈ W) : Kept W m
    (Machine.takePrepare a x1) := by
  unfold Machine.takePrepare
  simp -zeta -iota -proj only [Machine.upd_hly_eq]
  with_reducible repeat' first
    | assumption | apply fillBank_kept | apply tell_kept | apply hlyItem_kept | apply Kept.set_hly | intro _
    | apply Kept.ite | apply Kept.foldl | split

theorem takeAdmit_kept (h : Kept W m a) (x1 : List NodeRec) (w0 : Area.hly ∈ W) (w1 : Area.ttl ∈ W) : Kept W m (Machine.takeAdmit a x1)
    := by
  unfold Machine.takeAdmit
  with_reducible repeat' first
    | assumption | apply raise_kept | apply modHly_kept | intro _ | apply Kept.ite | apply Kept.foldl | split

theorem takeDelta_kept (h : Kept W m a) (x1 : DbHead) (x2 : List NodeRec) (x3 : List LinkRec) (w0 : Area.time ∈ W) (w1 : Area.hly ∈ W) (w2
    : Area.ttl ∈ W) (w3 : Area.out ∈ W) : Kept W m (Machine.takeDelta a x1 x2 x3) := by
  unfold Machine.takeDelta
  simp -zeta -iota -proj only [Machine.upd_hly_eq]
  with_reducible repeat' first
    | assumption | apply takeAdmit_kept | apply acceptMaster_kept | apply modDb_kept | apply modHly_kept
    | apply Kept.set_hly | intro _ | apply Kept.ite | apply Kept.foldl | split

theorem resync_kept (h : Kept W m a) (w0 : Area.out ∈ W) : Kept W m (Machine.resync a) := by
  unfold Machine.resync
  with_reducible repeat' first
    | assumption | apply tell_kept | intro _ | apply Kept.ite | apply Kept.foldl | split

theorem restartHalyard_kept (h : Kept W m a) (w0 : Area.hly ∈ W) (w1 : Area.out ∈ W) : Kept W m (Machine.restartHalyard a) := by
  unfold Machine.restartHalyard
  simp -zeta -iota -proj only [Machine.upd_hly_eq]
  with_reducible repeat' first
    | assumption | apply resync_kept | apply dropCmds_kept | apply modHly_kept | apply Kept.set_hly | intro _
    | apply Kept.ite | apply Kept.foldl | split

/-! ### HalyardCmds -/

theorem takeCmd_kept (h : Kept W m a) (x1 : Nat) (x2 : HlySrc) (x3 : List Byte) (x4 : Option CableRead) (w0 : Area.hly ∈ W) (w1
    : Area.acc ∈ W) : Kept W m (Machine.takeCmd a x1 x2 x3 x4).1 := by
  unfold Machine.takeCmd
  simp -zeta -iota -proj only [Machine.upd_hly_eq]
  with_reducible repeat' first
    | assumption | apply accErr_kept | apply Kept.set_hly | intro _ | apply Kept.ite | apply Kept.iteFst
    | apply Kept.foldl | (extract_lets +onlyGivenNames z; clear_value z) | dsimp -zeta only | split

theorem issue_kept (h : Kept W m a) (x1 : HlyCmdRec) (w0 : Area.time ∈ W) (w1 : Area.shr ∈ W) (w2 : Area.hly ∈ W) (w3 : Area.tkp ∈ W) (w4
    : Area.slc ∈ W) (w5 : Area.ttl ∈ W) (w6 : Area.out ∈ W) : Kept W m (Machine.issue a x1) := by
  unfold Machine.issue
  simp -zeta -iota -proj only [Machine.upd_hly_eq]
  with_reducible repeat' first
    | assumption | apply serve_kept | apply tell_kept | apply Kept.set_hly | intro _ | apply Kept.ite | apply Kept.foldl
    | split

theorem podCmd_kept (h : Kept W m a) (x1 : Nat) (x2 : HlySrc) (x3 : List Byte) (x4 : Option CableRead) (w0 : Area.time ∈ W) (w1
    : Area.shr ∈ W) (w2 : Area.hly ∈ W) (w3 : Area.tkp ∈ W) (w4 : Area.slc ∈ W) (w5 : Area.ttl ∈ W) (w6 : Area.acc ∈ W) (w7 : Area.out ∈ W)
    : Kept W m (Machine.podCmd a x1 x2 x3 x4) := by
  unfold Machine.podCmd
  with_reducible repeat' first
    | assumption | apply issue_kept | apply takeCmd_kept | (extract_lets +onlyGivenNames z) | split
    | (refine Kept.ofFst ‹_ = (_, _)› ?_)

theorem pushDone_kept (h : Kept W m a) (x1 : HlyDone) (w0 : Area.hly ∈ W) : Kept W m (Machine.pushDone a x1) := by
  unfold Machine.pushDone
  simp -zeta -iota -proj only [Machine.upd_hly_eq]
  with_reducible repeat' first
    | assumption | apply Kept.set_hly | intro _ | apply Kept.ite | apply Kept.foldl | split

theorem ownCmd_kept (h : Kept W m a) (x1 : Nat) (x2 : HlySrc) (x3 : HlyCmdRec → Machine → Machine × Nat × List Word × List Byte) (hx3
    : ∀ y0 y1, Kept W m y1 → Kept W m (x3 y0 y1).1) (w0 : Area.hly ∈ W) (w1 : Area.acc ∈ W) (w2 : Area.out ∈ W) : Kept W m
    (Machine.ownCmd a x1 x2 x3) := by
  unfold Machine.ownCmd
  with_reducible repeat' first
    | assumption | apply pushDone_kept | apply tell_kept | apply takeCmd_kept | apply hx3
    | (extract_lets +onlyGivenNames z) | dsimp -zeta only | split | (refine Kept.ofFst ‹_ = (_, _)› ?_)

theorem endMailbox_kept (h : Kept W m a) (x1 : HlyDone) (w0 : Area.luff ∈ W) (w1 : Area.hly ∈ W) (w2 : Area.hst ∈ W) (w3 : Area.msix ∈ W)
    (w4 : Area.hostMem ∈ W) (w5 : Area.out ∈ W) : Kept W m (Machine.endMailbox a x1) := by
  unfold Machine.endMailbox
  simp -zeta -iota -proj only [Machine.upd_hly_eq]
  with_reducible repeat' first
    | assumption | apply flushReads_kept | apply hostWrite_kept | apply interrupt_kept | apply hlyItem_kept
    | apply Kept.set_hly | intro _ | apply Kept.ite | apply Kept.foldl | split

theorem endMctp_kept (h : Kept W m a) (x1 : HlyDone) (w0 : Area.luff ∈ W) (w1 : Area.hly ∈ W) (w2 : Area.out ∈ W) : Kept W m
    (Machine.endMctp a x1) := by
  unfold Machine.endMctp
  simp -zeta -iota -proj only [Machine.upd_hly_eq]
  with_reducible repeat' first
    | assumption | apply answerMctp_kept | apply hlyItem_kept | apply Kept.set_hly | intro _ | apply Kept.ite
    | apply Kept.foldl | split

end Sys2Proof.Machine
end

