-- ==== Sys2Proof/Laws/KeptRest.lean ====
section
/-!
SUPPORT. Frames of power control, bring-up, the monitors, Farnis, the crash dump and slices: one lemma per operation, naming the blocks it may write; it
keeps every other block.
-/
set_option linter.tactic.unusedName false
set_option linter.unusedSimpArgs false
namespace Sys2Proof.Machine

variable {W : List Area} {m a : Machine}

/-! ### Reef -/

theorem moveDie_kept (h : Kept W m a) (x1 : Nat) (w0 : Area.reef ∈ W) : Kept W m (Machine.moveDie a x1) := by
  unfold Machine.moveDie
  with_reducible repeat' first
    | assumption | apply modRdie_kept | intro _ | apply Kept.ite | apply Kept.foldl | split

theorem stopHeld_kept (h : Kept W m a) (x1 : Nat) (w0 : Area.reef ∈ W) : Kept W m (Machine.stopHeld a x1) := by
  unfold Machine.stopHeld
  with_reducible repeat' first
    | assumption | apply modRpart_kept | intro _ | apply Kept.ite | apply Kept.foldl | split

theorem moveBallast_kept (h : Kept W m a) (x1 x2 x3 : Nat) (w0 : Area.reef ∈ W) : Kept W m (Machine.moveBallast a x1 x2 x3) := by
  unfold Machine.moveBallast
  with_reducible repeat' first
    | assumption | apply modRpart_kept | intro _ | apply Kept.ite | apply Kept.foldl | split

theorem measurePart_kept (h : Kept W m a) (x1 x2 : Nat) (w0 : Area.reef ∈ W) : Kept W m (Machine.measurePart a x1 x2) := by
  unfold Machine.measurePart
  with_reducible repeat' first
    | assumption | apply modRpart_kept | intro _ | apply Kept.ite | apply Kept.foldl | split

theorem settlePhase_kept (h : Kept W m a) (x1 : Nat) (w0 : Area.reef ∈ W) : Kept W m (Machine.settlePhase a x1) := by
  unfold Machine.settlePhase
  with_reducible repeat' first
    | assumption | apply modRpart_kept | intro _ | apply Kept.ite | apply Kept.foldl | split

theorem dieBallast_kept (h : Kept W m a) (w0 : Area.reef ∈ W) : Kept W m (Machine.dieBallast a) := by
  unfold Machine.dieBallast
  with_reducible repeat' first
    | assumption | apply modRpart_kept | apply modRdie_kept | intro _ | apply Kept.ite | apply Kept.foldl | split

theorem chargeBallast_kept (h : Kept W m a) (w0 : Area.part ∈ W) (w1 : Area.ctx ∈ W) : Kept W m (Machine.chargeBallast a) := by
  unfold Machine.chargeBallast
  simp -zeta -iota -proj only [Machine.upd_part_eq]
  with_reducible repeat' first
    | assumption | apply modBase_kept | apply Kept.set_part | intro _ | apply Kept.ite | apply Kept.iteFst
    | apply Kept.foldl | (extract_lets +onlyGivenNames z; clear_value z) | dsimp -zeta only | split

theorem reportReady_kept (h : Kept W m a) (w0 : Area.luff ∈ W) (w1 : Area.reef ∈ W) (w2 : Area.out ∈ W) : Kept W m (Machine.reportReady a)
    := by
  unfold Machine.reportReady
  simp -zeta -iota -proj only [Machine.upd_luff_eq]
  with_reducible repeat' first
    | assumption | apply modReef_kept | apply sendGoingDown_kept | apply toFarnis_kept | apply Kept.set_luff | intro _
    | apply Kept.ite | apply Kept.foldl | split

theorem noticeStep_kept (h : Kept W m a) (w0 : Area.tiles ∈ W) (w1 : Area.luff ∈ W) (w2 : Area.ctx ∈ W) (w3 : Area.reef ∈ W) (w4
    : Area.out ∈ W) : Kept W m (Machine.noticeStep a) := by
  unfold Machine.noticeStep
  with_reducible repeat' first
    | assumption | apply reportReady_kept | apply dieBallast_kept | apply stopTiles_kept | apply modReef_kept | intro _
    | apply Kept.ite | apply Kept.foldl | split

theorem reefMicro_kept (h : Kept W m a) (x1 : List Nat) (x2 : Nat) (w0 : Area.tiles ∈ W) (w1 : Area.luff ∈ W) (w2 : Area.part ∈ W) (w3
    : Area.ctx ∈ W) (w4 : Area.reef ∈ W) (w5 : Area.out ∈ W) : Kept W m (Machine.reefMicro a x1 x2) := by
  unfold Machine.reefMicro
  with_reducible repeat' first
    | assumption | apply noticeStep_kept | apply chargeBallast_kept | apply settlePhase_kept | apply measurePart_kept
    | apply moveBallast_kept | apply stopHeld_kept | apply moveDie_kept | apply beginPreRamp_kept | apply modReef_kept
    | apply modRdie_kept | intro _ | apply Kept.ite | apply Kept.foldl | split

theorem capStep_kept (h : Kept W m a) (w0 : Area.ttl ∈ W) (w1 : Area.reef ∈ W) : Kept W m (Machine.capStep a) := by
  unfold Machine.capStep
  with_reducible repeat' first
    | assumption | apply modReef_kept | apply modRdie_kept | apply raise_kept | intro _ | apply Kept.ite
    | apply Kept.iteFst | apply Kept.foldl
    | (extract_lets +onlyGivenNames z; refine Kept.cut (W := W) (m := m) (x := z) ?_ ?_; subst z; rotate_left; intro hz; clear_value z)
    | (extract_lets +onlyGivenNames z; clear_value z) | dsimp -zeta only | split

theorem takeReport_kept (h : Kept W m a) (x1 : BitVec 128) (w0 : Area.reef ∈ W) (w1 : Area.out ∈ W) : Kept W m (Machine.takeReport a x1)
    := by
  unfold Machine.takeReport
  with_reducible repeat' first
    | assumption | apply modReef_kept | apply tell_kept | intro _ | apply Kept.ite | apply Kept.foldl | split

/-! ### Boot -/

theorem powerUp_kept (h : Kept W m a) (hv : ∀ r ∈ Area.volatile, r ∈ W) (w0 : Area.flash ∈ W) : Kept W m (Machine.powerUp a) := by
  unfold Machine.powerUp
  with_reducible repeat' first
    | assumption | exact hv _ (by decide) | apply modRdie_kept | apply enterStep_kept | apply modBoot_kept
    | apply bare_kept | apply raise_kept | apply modTime_kept | intro _ | apply Kept.ite | apply Kept.foldl | split

theorem aloneElect_kept (h : Kept W m a) (w0 : Area.time ∈ W) (w1 : Area.hly ∈ W) (w2 : Area.tkp ∈ W) (w3 : Area.slc ∈ W) (w4
    : Area.ttl ∈ W) (w5 : Area.out ∈ W) : Kept W m (Machine.aloneElect a) := by
  unfold Machine.aloneElect
  with_reducible repeat' first
    | assumption | apply elect_kept | intro _ | apply Kept.ite | apply Kept.foldl | split

theorem runStep_kept (h : Kept W m a) (x1 : Nat) (x2 : BootInputs) (w0 : Area.boot ∈ W) (w1 : Area.time ∈ W) (w2 : Area.shr ∈ W) (w3
    : Area.tiles ∈ W) (w4 : Area.tileMap ∈ W) (w5 : Area.tilePhys ∈ W) (w6 : Area.hbm ∈ W) (w7 : Area.hly ∈ W) (w8 : Area.tkp ∈ W) (w9
    : Area.slc ∈ W) (w10 : Area.ttl ∈ W) (w11 : Area.reef ∈ W) (w12 : Area.flash ∈ W) (w13 : Area.out ∈ W) : Kept W m
    (Machine.runStep a x1 x2) := by
  unfold Machine.runStep
  with_reducible repeat' first
    | assumption | apply aloneElect_kept | apply resync_kept | apply stepWork_kept | apply staged_kept
    | apply copyStep_kept | apply rescueMode_kept | apply completeStep_kept | apply floodOwn_kept | intro _
    | apply Kept.ite | apply Kept.foldl | split

theorem enterBoot_kept (h : Kept W m a) (x1 : Nat) (x2 : BootInputs) (w0 : Area.boot ∈ W) (w1 : Area.time ∈ W) (w2 : Area.shr ∈ W) (w3
    : Area.tiles ∈ W) (w4 : Area.tileMap ∈ W) (w5 : Area.tilePhys ∈ W) (w6 : Area.hbm ∈ W) (w7 : Area.hly ∈ W) (w8 : Area.tkp ∈ W) (w9
    : Area.slc ∈ W) (w10 : Area.ttl ∈ W) (w11 : Area.reef ∈ W) (w12 : Area.flash ∈ W) (w13 : Area.out ∈ W) : Kept W m
    (Machine.enterBoot a x1 x2) := by
  unfold Machine.enterBoot
  with_reducible repeat' first
    | assumption | apply runStep_kept | apply bundleSettle_kept | apply skipStep_kept | apply enterStep_kept | intro _
    | apply Kept.ite | apply Kept.foldl | split

theorem trainDeadline_kept (h : Kept W m a) (w0 : Area.boot ∈ W) (w1 : Area.time ∈ W) (w2 : Area.hly ∈ W) (w3 : Area.tkp ∈ W) (w4
    : Area.slc ∈ W) (w5 : Area.ttl ∈ W) (w6 : Area.flash ∈ W) (w7 : Area.out ∈ W) : Kept W m (Machine.trainDeadline a) := by
  unfold Machine.trainDeadline
  with_reducible repeat' first
    | assumption | apply aloneElect_kept | apply bundleSettle_kept | apply makeRoot_kept | apply setStep_kept
    | apply modBoot_kept | apply note_kept | apply journal_kept | apply raise_kept | intro _ | apply Kept.ite
    | apply Kept.foldl | split

theorem stepLimit_kept (h : Kept W m a) (x1 : Nat) (w0 : Area.boot ∈ W) (w1 : Area.time ∈ W) (w2 : Area.hly ∈ W) (w3 : Area.tkp ∈ W) (w4
    : Area.slc ∈ W) (w5 : Area.ttl ∈ W) (w6 : Area.flash ∈ W) (w7 : Area.out ∈ W) : Kept W m (Machine.stepLimit a x1) := by
  unfold Machine.stepLimit
  with_reducible repeat' first
    | assumption | apply trainDeadline_kept | apply setStep_kept | apply modBoot_kept | apply floodOwn_kept
    | apply note_kept | apply journal_kept | apply raise_kept | intro _ | apply Kept.ite | apply Kept.foldl | split

theorem flashRefuse_kept (h : Kept W m a) (x1 : MsgHdr) (x2 x3 : Nat) (w0 : Area.ttl ∈ W) (w1 : Area.out ∈ W) : Kept W m
    (Machine.flashRefuse a x1 x2 x3) := by
  unfold Machine.flashRefuse
  with_reducible repeat' first
    | assumption | apply answerMctp_kept | apply raise_kept | intro _ | apply Kept.ite | apply Kept.foldl | split

theorem freeBytes_kept (h : Kept W m a) (x1 : Nat) (w0 : Area.free ∈ W) : Kept W m (Machine.freeBytes a x1).2 := by
  unfold Machine.freeBytes
  simp -zeta -iota -proj only [Machine.upd_free_eq]
  with_reducible repeat' first
    | assumption | apply Kept.set_free | intro _ | apply Kept.ite | apply Kept.foldl | split

theorem flashClear_kept (h : Kept W m a) (x1 x2 : Nat) (w0 : Area.flash ∈ W) : Kept W m (Machine.flashClear a x1 x2) := by
  unfold Machine.flashClear
  simp -zeta -iota -proj only [Machine.upd_flash_eq]
  with_reducible repeat' first
    | assumption | apply Kept.set_flash | intro _ | apply Kept.ite | apply Kept.foldl | split

theorem flashProgram_kept (h : Kept W m a) (x1 : Nat) (x2 : List Byte) (w0 : Area.flash ∈ W) : Kept W m (Machine.flashProgram a x1 x2) := by
  unfold Machine.flashProgram
  simp -zeta -iota -proj only [Machine.upd_flash_eq]
  with_reducible repeat' first
    | assumption | apply Kept.set_flash | intro _ | apply Kept.ite | apply Kept.foldl | split

theorem flashSpoil_kept (h : Kept W m a) (x1 x2 : Nat) (w0 : Area.flash ∈ W) (w1 : Area.free ∈ W) : Kept W m (Machine.flashSpoil a x1 x2)
    := by
  unfold Machine.flashSpoil
  simp -zeta -iota -proj only [Machine.upd_flash_eq]
  with_reducible repeat' first
    | assumption | apply freeBytes_kept | apply Kept.set_flash | intro _ | apply Kept.ite | apply Kept.foldl | split

/-! ### Corner -/

theorem markOffCorner_kept (h : Kept W m a) (x1 : Nat) (w0 : Area.ctx ∈ W) : Kept W m (Machine.markOffCorner a x1) := by
  unfold Machine.markOffCorner
  with_reducible repeat' first
    | assumption | apply modRun_kept | intro _ | apply Kept.ite | apply Kept.foldl | split

theorem modCorner_kept (h : Kept W m a) (x1 : CDie) (x2 : Corner → Corner) (w0 : Area.corner ∈ W) : Kept W m (Machine.modCorner a x1 x2)
    := by
  unfold Machine.modCorner
  simp -zeta -iota -proj only [Machine.upd_corner_eq]
  with_reducible repeat' first
    | assumption | apply Kept.set_corner | intro _ | apply Kept.ite | apply Kept.foldl | split

/-! ### FarnisOps -/

theorem modFar_kept (h : Kept W m a) (x1 : Farnis → Farnis) (w0 : Area.far ∈ W) : Kept W m (Machine.modFar a x1) := by
  unfold Machine.modFar
  simp -zeta -iota -proj only [Machine.upd_far_eq]
  with_reducible repeat' first
    | assumption | apply Kept.set_far | intro _ | apply Kept.ite | apply Kept.foldl | split

theorem farLog_kept (h : Kept W m a) (x1 : DWord) (x2 x3 : Nat) (x4 : List Byte) (w0 : Area.far ∈ W) (w1 : Area.out ∈ W) : Kept W m
    (Machine.farLog a x1 x2 x3 x4) := by
  unfold Machine.farLog
  with_reducible repeat' first
    | assumption | apply modFar_kept | apply emit_kept | intro _ | apply Kept.ite | apply Kept.foldl | split

theorem modSite_kept (h : Kept W m a) (x1 : Nat) (x2 : SiteRec → SiteRec) (w0 : Area.far ∈ W) : Kept W m (Machine.modSite a x1 x2) := by
  unfold Machine.modSite
  with_reducible repeat' first
    | assumption | apply modFar_kept | intro _ | apply Kept.ite | apply Kept.foldl | split

theorem powerLost_kept (h : Kept W m a) (hv : ∀ r ∈ Area.volatile, r ∈ W) (w0 : Area.scan ∈ W) : Kept W m (Machine.powerLost a) := by
  unfold Machine.powerLost
  simp -zeta -iota -proj only [Machine.upd_scan_eq]
  with_reducible repeat' first
    | assumption | exact hv _ (by decide) | apply bare_kept | apply Kept.set_scan | intro _ | apply Kept.ite
    | apply Kept.foldl | split

theorem beginOff_kept (h : Kept W m a) (x1 : Nat) (x2 : PowerAct) (hv : ∀ r ∈ Area.volatile, r ∈ W) (w0 : Area.far ∈ W) (w1 : Area.scan ∈ W)
    : Kept W m (Machine.beginOff a x1 x2) := by
  unfold Machine.beginOff
  simp -zeta -iota -proj only [Machine.upd_scan_eq]
  with_reducible repeat' first
    | assumption | exact hv _ (by decide) | apply powerLost_kept | apply modSite_kept | apply modFar_kept
    | apply Kept.set_scan | intro _ | apply Kept.ite | apply Kept.foldl | split

theorem beginOn_kept (h : Kept W m a) (x1 x2 : Nat) (w0 : Area.far ∈ W) : Kept W m (Machine.beginOn a x1 x2) := by
  unfold Machine.beginOn
  with_reducible repeat' first
    | assumption | apply modSite_kept | intro _ | apply Kept.ite | apply Kept.foldl | split

theorem orderOff_kept (h : Kept W m a) (x1 : Nat) (x2 : PowerAct) (x3 : DWord) (hv : ∀ r ∈ Area.volatile, r ∈ W) (w0 : Area.far ∈ W) (w1
    : Area.scan ∈ W) (w2 : Area.out ∈ W) : Kept W m (Machine.orderOff a x1 x2 x3) := by
  unfold Machine.orderOff
  with_reducible repeat' first
    | assumption | exact hv _ (by decide) | apply beginOff_kept | apply modSite_kept | apply farLog_kept
    | apply modFar_kept | intro _ | apply Kept.ite | apply Kept.foldl | split

theorem takeOver_kept (h : Kept W m a) (x1 : Nat) (x2 : PowerAct) (x3 : DWord) (hv : ∀ r ∈ Area.volatile, r ∈ W) (w0 : Area.far ∈ W) (w1
    : Area.scan ∈ W) (w2 : Area.out ∈ W) : Kept W m (Machine.takeOver a x1 x2 x3) := by
  unfold Machine.takeOver
  with_reducible repeat' first
    | assumption | exact hv _ (by decide) | apply orderOff_kept | apply beginOff_kept | apply modSite_kept | intro _
    | apply Kept.ite | apply Kept.iteFst | apply Kept.foldl | (extract_lets +onlyGivenNames z; clear_value z)
    | dsimp -zeta only | split

theorem autoCycle_kept (h : Kept W m a) (x1 : Nat) (x2 : Bool) (x3 : Nat) (x4 : DWord) (hv : ∀ r ∈ Area.volatile, r ∈ W) (w0 : Area.far ∈ W)
    (w1 : Area.scan ∈ W) (w2 : Area.out ∈ W) : Kept W m (Machine.autoCycle a x1 x2 x3 x4) := by
  unfold Machine.autoCycle
  with_reducible repeat' first
    | assumption | exact hv _ (by decide) | apply takeOver_kept | apply modSite_kept | intro _ | apply Kept.ite
    | apply Kept.foldl | split

theorem endOff_kept (h : Kept W m a) (x1 : Nat) (x2 : DWord) (w0 : Area.far ∈ W) (w1 : Area.out ∈ W) : Kept W m (Machine.endOff a x1 x2)
    := by
  unfold Machine.endOff
  with_reducible repeat' first
    | assumption | apply modSite_kept | apply farLog_kept | intro _ | apply Kept.ite | apply Kept.foldl | split

theorem toSite_kept (h : Kept W m a) (x1 : Nat) (x2 : List Byte) (w0 : Area.out ∈ W) : Kept W m (Machine.toSite a x1 x2) := by
  unfold Machine.toSite
  with_reducible repeat' first
    | assumption | apply emit_kept | intro _ | apply Kept.ite | apply Kept.foldl | split

theorem readFault_kept (h : Kept W m a) (x1 : Nat) (w0 : Area.out ∈ W) : Kept W m (Machine.readFault a x1) := by
  unfold Machine.readFault
  with_reducible repeat' first
    | assumption | apply toSite_kept | intro _ | apply Kept.ite | apply Kept.foldl | split

theorem facilityLog_kept (h : Kept W m a) (x1 : DWord) (x2 : Nat) (w0 : Area.far ∈ W) (w1 : Area.out ∈ W) : Kept W m
    (Machine.facilityLog a x1 x2) := by
  unfold Machine.facilityLog
  with_reducible repeat' first
    | assumption | apply farLog_kept | intro _ | apply Kept.ite | apply Kept.foldl | split

theorem updateFlash_kept (h : Kept W m a) (x1 : List Byte) (x2 x3 : Bool) (w0 : Area.ttl ∈ W) (w1 : Area.flash ∈ W) (w2 : Area.free ∈ W) :
    Kept W m (Machine.updateFlash a x1 x2 x3).1 := by
  unfold Machine.updateFlash
  with_reducible repeat' first
    | assumption | apply flashSpoil_kept | apply flashProgram_kept | apply flashClear_kept | apply raise_kept | intro _
    | apply Kept.ite | apply Kept.iteFst | apply Kept.foldl | (extract_lets +onlyGivenNames z; clear_value z)
    | dsimp -zeta only | split

theorem siteUpdate_kept (h : Kept W m a) (x1 : Nat) (x2 : List Byte) (x3 x4 : Bool) (x5 : DWord) (w0 : Area.ttl ∈ W) (w1 : Area.flash ∈ W)
    (w2 : Area.far ∈ W) (w3 : Area.free ∈ W) (w4 : Area.out ∈ W) : Kept W m (Machine.siteUpdate a x1 x2 x3 x4 x5) := by
  unfold Machine.siteUpdate
  with_reducible repeat' first
    | assumption | apply farLog_kept | apply updateFlash_kept | apply Kept.ite | apply Kept.iteFst
    | (extract_lets +onlyGivenNames z; clear_value z) | dsimp -zeta only | split

/-! ### Farnis -/

theorem queueOn_kept (h : Kept W m a) (x1 : List Nat) (x2 : Nat) (w0 : Area.far ∈ W) : Kept W m (Machine.queueOn a x1 x2) := by
  unfold Machine.queueOn
  with_reducible repeat' first
    | assumption | apply modSite_kept | apply modFar_kept | intro _ | apply Kept.ite | apply Kept.foldl | split

theorem startTray_kept (h : Kept W m a) (x1 : List (Nat × Option (Word × DWord))) (x2 : BitVec 8) (x3 : DWord) (w0 : Area.far ∈ W) (w1
    : Area.out ∈ W) : Kept W m (Machine.startTray a x1 x2 x3) := by
  unfold Machine.startTray
  with_reducible repeat' first
    | assumption | apply queueOn_kept | apply toSite_kept | apply modSite_kept | apply farLog_kept | apply modFar_kept
    | apply emit_kept | intro _ | apply Kept.ite | apply Kept.iteFst | apply Kept.foldl
    | (extract_lets +onlyGivenNames z; refine Kept.cut (W := W) (m := m) (x := z) ?_ ?_; subst z; rotate_left; intro hz; clear_value z)
    | (extract_lets +onlyGivenNames z; clear_value z) | dsimp -zeta only | split

theorem reply_kept (h : Kept W m a) (x1 : Nat) (x2 : Bool) (w0 : Area.out ∈ W) : Kept W m (Machine.reply a x1 x2) := by
  unfold Machine.reply
  with_reducible repeat' first
    | assumption | apply emit_kept | intro _ | apply Kept.ite | apply Kept.foldl | split

theorem requestOff_kept (h : Kept W m a) (x1 : Nat) (x2 : Bool) (hv : ∀ r ∈ Area.volatile, r ∈ W) (w0 : Area.far ∈ W) (w1 : Area.scan ∈ W)
    (w2 : Area.out ∈ W) : Kept W m (Machine.requestOff a x1 x2) := by
  unfold Machine.requestOff
  with_reducible repeat' first
    | assumption | exact hv _ (by decide) | apply reply_kept | apply orderOff_kept | intro _ | apply Kept.ite
    | apply Kept.foldl | split

theorem requestCycle_kept (h : Kept W m a) (x1 : Nat) (x2 : Bool) (hv : ∀ r ∈ Area.volatile, r ∈ W) (w0 : Area.far ∈ W) (w1 : Area.scan ∈ W)
    (w2 : Area.out ∈ W) : Kept W m (Machine.requestCycle a x1 x2) := by
  unfold Machine.requestCycle
  with_reducible repeat' first
    | assumption | exact hv _ (by decide) | apply reply_kept | apply orderOff_kept | apply modSite_kept | intro _
    | apply Kept.ite | apply Kept.iteFst | apply Kept.foldl
    | (extract_lets +onlyGivenNames z; refine Kept.cut (W := W) (m := m) (x := z) ?_ ?_; subst z; rotate_left; intro hz; clear_value z)
    | (extract_lets +onlyGivenNames z; clear_value z) | dsimp -zeta only | split

theorem configLog_kept (h : Kept W m a) (x1 : DWord) (x2 x3 x4 : Nat) (w0 : Area.far ∈ W) (w1 : Area.out ∈ W) : Kept W m
    (Machine.configLog a x1 x2 x3 x4) := by
  unfold Machine.configLog
  with_reducible repeat' first
    | assumption | apply farLog_kept | intro _ | apply Kept.ite | apply Kept.foldl | split

/-! ### Dump -/

theorem writeDump_kept (h : Kept W m a) (x1 : Crash) (w0 : Area.hbm ∈ W) (w1 : Area.luff ∈ W) (w2 : Area.free ∈ W) : Kept W m
    (Machine.writeDump a x1) := by
  unfold Machine.writeDump
  simp -zeta -iota -proj only [Machine.upd_luff_free_eq]
  with_reducible repeat' first
    | assumption | apply hbmWrite_kept | apply Kept.set_luff_free | intro _ | apply Kept.ite | apply Kept.foldl | split

theorem crash_kept (h : Kept W m a) (x1 : Machine) (x2 x3 x4 : Nat) (x5 : DWord) (x6 : Bool) (w0 : Area.hbm ∈ W) (w1 : Area.luff ∈ W) (w2
    : Area.ttl ∈ W) (w3 : Area.free ∈ W) : Kept W m (Machine.crash a x1 x2 x3 x4 x5 x6) := by
  have hl : ∀ v, Kept W m { a with luff := v } := fun v => Kept.set_luff h w1
  unfold Machine.crash
  dsimp only
  repeat' (first
    | with_reducible apply Kept.ite
    | exact hl _
    | exact raise_kept (hl _) _ _ w2
    | exact h.of_agrees fun r hr => by cases r <;> first | exact rfl | exact absurd ‹_› hr)

theorem dumpRearm_kept (h : Kept W m a) (w0 : Area.hbm ∈ W) (w1 : Area.luff ∈ W) : Kept W m (Machine.dumpRearm a) := by
  unfold Machine.dumpRearm
  simp -zeta -iota -proj only [Machine.upd_luff_eq]
  with_reducible repeat' first
    | assumption | apply hbmZero_kept | apply Kept.set_luff | intro _ | apply Kept.ite | apply Kept.foldl | split

/-! ### Slices -/

theorem takeRamps_kept (h : Kept W m a) (x1 : Prepare) (w0 : Area.part ∈ W) (w1 : Area.reef ∈ W) : Kept W m (Machine.takeRamps a x1) := by
  unfold Machine.takeRamps
  simp -zeta -iota -proj only [Machine.upd_part_eq]
  with_reducible repeat' first
    | assumption | apply modReef_kept | apply modRpart_kept | apply Kept.set_part | intro _ | apply Kept.ite
    | apply Kept.foldl | split

theorem takeWindows_kept (h : Kept W m a) (w0 : Area.strm ∈ W) : Kept W m (Machine.takeWindows a) := by
  unfold Machine.takeWindows
  with_reducible repeat' first
    | assumption | apply modStrm_kept | intro _ | apply Kept.ite | apply Kept.foldl | split

theorem switchEpoch_kept (h : Kept W m a) (w0 : Area.time ∈ W) (w1 : Area.shr ∈ W) (w2 : Area.fwd ∈ W) (w3 : Area.strm ∈ W) (w4
    : Area.luff ∈ W) (w5 : Area.hly ∈ W) (w6 : Area.tkp ∈ W) (w7 : Area.slc ∈ W) (w8 : Area.part ∈ W) (w9 : Area.ttl ∈ W) (w10
    : Area.reef ∈ W) (w11 : Area.out ∈ W) : Kept W m (Machine.switchEpoch a) := by
  unfold Machine.switchEpoch
  simp -zeta -iota -proj only [Machine.upd_hly_eq]
  with_reducible repeat' first
    | assumption | apply takeWindows_kept | apply takeRamps_kept | apply serve_kept | apply masterSwitched_kept
    | apply hlyItem_kept | apply modHly_kept | apply Kept.set_hly | intro _ | apply Kept.ite | apply Kept.foldl | split

theorem reportFinal_kept (h : Kept W m a) (x1 : Nat) (w0 : Area.out ∈ W) : Kept W m (Machine.reportFinal a x1) := by
  unfold Machine.reportFinal
  with_reducible repeat' first
    | assumption | apply tell_kept | intro _ | apply Kept.ite | apply Kept.foldl | split

theorem destroyAll_kept (h : Kept W m a) (x1 : Nat) (w0 : Area.fwd ∈ W) (w1 : Area.txSeq ∈ W) (w2 : Area.coll ∈ W) (w3 : Area.tiles ∈ W) (w4
    : Area.strm ∈ W) (w5 : Area.luff ∈ W) (w6 : Area.ctx ∈ W) (w7 : Area.reef ∈ W) (w8 : Area.out ∈ W) : Kept W m (Machine.destroyAll a x1)
    := by
  unfold Machine.destroyAll
  with_reducible repeat' first
    | assumption | apply startDestroy_kept | intro _ | apply Kept.ite | apply Kept.foldl | split

theorem destroyPart_kept (h : Kept W m a) (x1 x2 : Nat) (w0 : Area.fwd ∈ W) (w1 : Area.txSeq ∈ W) (w2 : Area.coll ∈ W) (w3 : Area.tiles ∈ W)
    (w4 : Area.strm ∈ W) (w5 : Area.luff ∈ W) (w6 : Area.part ∈ W) (w7 : Area.ctx ∈ W) (w8 : Area.reef ∈ W) (w9 : Area.out ∈ W) : Kept W m
    (Machine.destroyPart a x1 x2) := by
  unfold Machine.destroyPart
  with_reducible repeat' first
    | assumption | apply destroyAll_kept | apply reportFinal_kept | apply modPart_kept | intro _ | apply Kept.ite
    | apply Kept.foldl | split

theorem beginScrub_kept (h : Kept W m a) (x1 : Nat) (w0 : Area.hbm ∈ W) (w1 : Area.part ∈ W) : Kept W m (Machine.beginScrub a x1) := by
  unfold Machine.beginScrub
  simp -zeta -iota -proj only [Machine.upd_hbm_eq]
  with_reducible repeat' first
    | assumption | apply modPart_kept | apply Kept.set_hbm | intro _ | apply Kept.ite | apply Kept.foldl | split

theorem releaseHere_kept (h : Kept W m a) (x1 : Nat) (w0 : Area.hbm ∈ W) (w1 : Area.part ∈ W) : Kept W m (Machine.releaseHere a x1) := by
  unfold Machine.releaseHere
  with_reducible repeat' first
    | assumption | apply beginScrub_kept | intro _ | apply Kept.ite | apply Kept.foldl | split

theorem contextsFinal_kept (h : Kept W m a) (x1 : Nat) (x2 : NodeId) (w0 : Area.hbm ∈ W) (w1 : Area.hly ∈ W) (w2 : Area.slc ∈ W) (w3
    : Area.part ∈ W) (w4 : Area.out ∈ W) : Kept W m (Machine.contextsFinal a x1 x2) := by
  unfold Machine.contextsFinal
  with_reducible repeat' first
    | assumption | apply releaseHere_kept | apply tryRelease_kept | apply tell_kept | apply setSlice_kept | intro _
    | apply Kept.ite | apply Kept.foldl | split

theorem scrubReported_kept (h : Kept W m a) (x1 : Nat) (x2 : NodeId) (x3 : Bool) (w0 : Area.hly ∈ W) (w1 : Area.slc ∈ W) (w2 : Area.out ∈ W)
    : Kept W m (Machine.scrubReported a x1 x2 x3) := by
  unfold Machine.scrubReported
  with_reducible repeat' first
    | assumption | apply tryRetire_kept | apply modParts_kept | apply replicate_kept | apply setSlice_kept | intro _
    | apply Kept.ite | apply Kept.foldl | split

theorem ctxDone_kept (h : Kept W m a) (x1 x2 : Nat) (w0 : Area.ctxCmd ∈ W) (w1 : Area.msix ∈ W) (w2 : Area.out ∈ W) : Kept W m
    (Machine.ctxDone a x1 x2) := by
  unfold Machine.ctxDone
  simp -zeta -iota -proj only [Machine.upd_ctxCmd_eq]
  with_reducible repeat' first
    | assumption | apply interrupt_kept | apply Kept.set_ctxCmd | intro _ | apply Kept.ite | apply Kept.foldl | split

theorem modCtxCmd_kept (h : Kept W m a) (x1 : CtxCmd → CtxCmd) (w0 : Area.ctxCmd ∈ W) : Kept W m (Machine.modCtxCmd a x1) := by
  unfold Machine.modCtxCmd
  simp -zeta -iota -proj only [Machine.upd_ctxCmd_eq]
  with_reducible repeat' first
    | assumption | apply Kept.set_ctxCmd | intro _ | apply Kept.ite | apply Kept.foldl | split

theorem createContext_kept (h : Kept W m a) (x1 x2 : Nat) (w0 : Area.ctx ∈ W) (w1 : Area.ctxCmd ∈ W) (w2 : Area.ttl ∈ W) (w3
    : Area.msix ∈ W) (w4 : Area.out ∈ W) : Kept W m (Machine.createContext a x1 x2) := by
  unfold Machine.createContext
  with_reducible repeat' first
    | assumption | apply ctxDone_kept | apply clearSlot_kept | apply setCtx_kept | intro _ | apply Kept.ite
    | apply Kept.foldl | split

theorem destroyContext_kept (h : Kept W m a) (x1 : Nat) (w0 : Area.fwd ∈ W) (w1 : Area.txSeq ∈ W) (w2 : Area.coll ∈ W) (w3 : Area.tiles ∈ W)
    (w4 : Area.strm ∈ W) (w5 : Area.luff ∈ W) (w6 : Area.ctx ∈ W) (w7 : Area.ctxCmd ∈ W) (w8 : Area.reef ∈ W) (w9 : Area.msix ∈ W) (w10
    : Area.out ∈ W) : Kept W m (Machine.destroyContext a x1) := by
  unfold Machine.destroyContext
  with_reducible repeat' first
    | assumption | apply modCtxCmd_kept | apply ctxDone_kept | apply startDestroy_kept | intro _ | apply Kept.ite
    | apply Kept.foldl | split

theorem beginContextScrub_kept (h : Kept W m a) (x1 : Nat) (w0 : Area.fwd ∈ W) (w1 : Area.txSeq ∈ W) (w2 : Area.txn ∈ W) (w3
    : Area.coll ∈ W) (w4 : Area.tiles ∈ W) (w5 : Area.hbm ∈ W) (w6 : Area.strm ∈ W) (w7 : Area.ctx ∈ W) : Kept W m
    (Machine.beginContextScrub a x1) := by
  unfold Machine.beginContextScrub
  with_reducible repeat' first
    | assumption | apply removeContext_kept | apply setPage_kept | apply modBase_kept | intro _ | apply Kept.ite
    | apply Kept.foldl | split

theorem endDestroy_kept (h : Kept W m a) (x1 : CtxId) (w0 : Area.tiles ∈ W) (w1 : Area.hbm ∈ W) (w2 : Area.luff ∈ W) (w3 : Area.ctx ∈ W) (w4
    : Area.ctxCmd ∈ W) (w5 : Area.msix ∈ W) (w6 : Area.out ∈ W) : Kept W m (Machine.endDestroy a x1) := by
  unfold Machine.endDestroy
  with_reducible repeat' first
    | assumption | apply ctxDone_kept | apply reportFinal_kept | apply dropFence_kept | apply freePages_kept
    | apply modTile_kept | apply modBase_kept | intro _ | apply Kept.ite | apply Kept.foldl | split

theorem scrubPart_kept (h : Kept W m a) (x1 : Nat) (w0 : Area.txn ∈ W) (w1 : Area.tiles ∈ W) (w2 : Area.hbm ∈ W) (w3 : Area.strm ∈ W) :
    Kept W m (Machine.scrubPart a x1) := by
  unfold Machine.scrubPart
  simp -zeta -iota -proj only [Machine.upd_hbm_eq, Machine.upd_strm_eq, Machine.upd_txn_eq]
  with_reducible repeat' first
    | assumption | apply hbmZero_kept | apply modTile_kept | apply Kept.set_hbm | apply Kept.set_strm
    | apply Kept.set_txn | intro _ | apply Kept.ite | apply Kept.foldl | split

theorem endScrub_kept (h : Kept W m a) (x1 : Nat) (w0 : Area.txn ∈ W) (w1 : Area.tiles ∈ W) (w2 : Area.hbm ∈ W) (w3 : Area.strm ∈ W) (w4
    : Area.part ∈ W) (w5 : Area.ttl ∈ W) (w6 : Area.hst ∈ W) (w7 : Area.msix ∈ W) (w8 : Area.hostMem ∈ W) (w9 : Area.out ∈ W) : Kept W m
    (Machine.endScrub a x1) := by
  unfold Machine.endScrub
  with_reducible repeat' first
    | assumption | apply scrubPart_kept | apply reportFinal_kept | apply localEvent_kept | apply tell_kept
    | apply setPart_kept | intro _ | apply Kept.ite | apply Kept.foldl | split

theorem snapContext_kept (h : Kept W m a) (x1 : Nat) (w0 : Area.ctx ∈ W) : Kept W m (Machine.snapContext a x1) := by
  unfold Machine.snapContext
  with_reducible repeat' first
    | assumption | apply modBase_kept | intro _ | apply Kept.ite | apply Kept.foldl | split

theorem unattributed_kept (h : Kept W m a) (x1 : Nat) (w0 : Area.part ∈ W) : Kept W m (Machine.unattributed a x1) := by
  unfold Machine.unattributed
  simp -zeta -iota -proj only [Machine.upd_part_eq]
  with_reducible repeat' first
    | assumption | apply Kept.set_part | intro _ | apply Kept.ite | apply Kept.foldl | split

theorem chargeEnergy_kept (h : Kept W m a) (x1 : Nat) (x2 : List (Nat × Nat)) (w0 : Area.part ∈ W) (w1 : Area.ctx ∈ W) : Kept W m
    (Machine.chargeEnergy a x1 x2) := by
  unfold Machine.chargeEnergy
  with_reducible repeat' first
    | assumption | apply unattributed_kept | apply meter_kept | intro _ | apply Kept.ite | apply Kept.foldl | split

theorem meterRunning_kept (h : Kept W m a) (w0 : Area.part ∈ W) (w1 : Area.ctx ∈ W) : Kept W m (Machine.meterRunning a) := by
  unfold Machine.meterRunning
  simp -zeta -iota -proj only [Machine.upd_part_eq]
  with_reducible repeat' first
    | assumption | apply meterTile_kept | apply Kept.set_part | intro _ | apply Kept.ite | apply Kept.foldl | split

theorem settleBallast_kept (h : Kept W m a) (x1 : Nat) (w0 : Area.part ∈ W) (w1 : Area.ctx ∈ W) : Kept W m (Machine.settleBallast a x1)
    := by
  unfold Machine.settleBallast
  with_reducible repeat' first
    | assumption | apply unattributed_kept | apply meter_kept | apply modBase_kept | intro _ | apply Kept.ite
    | apply Kept.foldl | split

end Sys2Proof.Machine
end

