-- ==== Sys2Proof/Laws/KeptPower.lean ====
section
/-!
SUPPORT. Frames of resets, registers, the scan chains and traffic: one lemma per operation, naming the blocks it may write; it
keeps every other block.
-/
set_option linter.tactic.unusedName false
set_option linter.unusedSimpArgs false
namespace Sys2Proof.Machine

variable {W : List Area} {m a : Machine}

/-! ### Resets -/

theorem expire_kept (h : Kept W m a) (x1 : Nat) (w0 : Area.luff ∈ W) : Kept W m (Machine.expire a x1) := by
  unfold Machine.expire
  with_reducible repeat' first
    | assumption | apply modLuff_kept | intro _ | apply Kept.ite | apply Kept.foldl | split

theorem failUnit_kept (h : Kept W m a) (x1 : Nat) (w0 : Area.collFailed ∈ W) (w1 : Area.luff ∈ W) : Kept W m (Machine.failUnit a x1) := by
  unfold Machine.failUnit
  simp -zeta -iota -proj only [Machine.upd_collFailed_luff_eq]
  with_reducible repeat' first
    | assumption | apply Kept.set_collFailed_luff | intro _ | apply Kept.ite | apply Kept.foldl | split

theorem rstBegin_kept (h : Kept W m a) (w0 : Area.luff ∈ W) : Kept W m (Machine.rstBegin a) := by
  unfold Machine.rstBegin
  with_reducible repeat' first
    | assumption | apply modLuff_kept | intro _ | apply Kept.ite | apply Kept.foldl | split

theorem beginContextReset_kept (h : Kept W m a) (x1 : CtxId) (w0 : Area.fwd ∈ W) (w1 : Area.txSeq ∈ W) (w2 : Area.coll ∈ W) (w3
    : Area.tiles ∈ W) (w4 : Area.strm ∈ W) (w5 : Area.luff ∈ W) (w6 : Area.ctx ∈ W) (w7 : Area.reef ∈ W) (w8 : Area.out ∈ W) : Kept W m
    (Machine.beginContextReset a x1) := by
  unfold Machine.beginContextReset
  with_reducible repeat' first
    | assumption | apply rstBegin_kept | apply rstDone_kept | apply startFence_kept | apply modLuff_kept | intro _
    | apply Kept.ite | apply Kept.foldl | split

theorem beginPartitionReset_kept (h : Kept W m a) (x1 : PartId) (w0 : Area.fwd ∈ W) (w1 : Area.txSeq ∈ W) (w2 : Area.coll ∈ W) (w3
    : Area.tiles ∈ W) (w4 : Area.strm ∈ W) (w5 : Area.luff ∈ W) (w6 : Area.ctx ∈ W) (w7 : Area.ttl ∈ W) (w8 : Area.reef ∈ W) (w9
    : Area.out ∈ W) : Kept W m (Machine.beginPartitionReset a x1) := by
  unfold Machine.beginPartitionReset
  with_reducible repeat' first
    | assumption | apply rstBegin_kept | apply rstDone_kept | apply startFence_kept | apply modLuff_kept
    | apply modTtl_kept | intro _ | apply Kept.ite | apply Kept.foldl | split

theorem pkgClear_kept (h : Kept W m a) (w0 : Area.corner ∈ W) (w1 : Area.shr ∈ W) (w2 : Area.hbm ∈ W) (w3 : Area.part ∈ W) (w4
    : Area.ctx ∈ W) (w5 : Area.reef ∈ W) (w6 : Area.eng ∈ W) : Kept W m (Machine.pkgClear a) := by
  unfold Machine.pkgClear
  simp -zeta -iota -proj only [Machine.upd_corner_shr_hbm_part_reef_eng_eq, Machine.upd_ctx_eq]
  with_reducible repeat' first
    | assumption | apply Kept.set_corner_shr_hbm_part_reef_eng | apply Kept.set_ctx | intro _ | apply Kept.ite
    | apply Kept.foldl | split

theorem startPackageReset_kept (h : Kept W m a) (x1 x2 : Nat) (w0 : Area.corner ∈ W) (w1 : Area.shr ∈ W) (w2 : Area.fwd ∈ W) (w3
    : Area.txSeq ∈ W) (w4 : Area.coll ∈ W) (w5 : Area.tiles ∈ W) (w6 : Area.hbm ∈ W) (w7 : Area.strm ∈ W) (w8 : Area.luff ∈ W) (w9
    : Area.part ∈ W) (w10 : Area.ctx ∈ W) (w11 : Area.ttl ∈ W) (w12 : Area.reef ∈ W) (w13 : Area.eng ∈ W) (w14 : Area.out ∈ W) : Kept W m
    (Machine.startPackageReset a x1 x2) := by
  unfold Machine.startPackageReset
  with_reducible repeat' first
    | assumption | apply pkgClear_kept | apply dieBallast_kept | apply startFence_kept | apply ttlResetStart_kept
    | intro _ | apply Kept.ite | apply Kept.foldl | split

theorem beginPackageReset_kept (h : Kept W m a) (w0 : Area.corner ∈ W) (w1 : Area.shr ∈ W) (w2 : Area.fwd ∈ W) (w3 : Area.txSeq ∈ W) (w4
    : Area.coll ∈ W) (w5 : Area.tiles ∈ W) (w6 : Area.hbm ∈ W) (w7 : Area.strm ∈ W) (w8 : Area.luff ∈ W) (w9 : Area.part ∈ W) (w10
    : Area.ctx ∈ W) (w11 : Area.ttl ∈ W) (w12 : Area.reef ∈ W) (w13 : Area.eng ∈ W) (w14 : Area.out ∈ W) : Kept W m
    (Machine.beginPackageReset a) := by
  unfold Machine.beginPackageReset
  with_reducible repeat' first
    | assumption | apply startPackageReset_kept | apply rstBegin_kept | intro _ | apply Kept.ite | apply Kept.foldl
    | split

theorem startResetRun_kept (h : Kept W m a) (w0 : Area.boot ∈ W) (w1 : Area.hbm ∈ W) (w2 : Area.hly ∈ W) (w3 : Area.tkp ∈ W) (w4
    : Area.slc ∈ W) (w5 : Area.part ∈ W) (w6 : Area.ttl ∈ W) (w7 : Area.flash ∈ W) (w8 : Area.out ∈ W) : Kept W m (Machine.startResetRun a)
    := by
  unfold Machine.startResetRun
  with_reducible repeat' first
    | assumption | apply beginScrub_kept | apply setStep_kept | apply modBoot_kept | apply floodOwn_kept
    | apply note_kept | apply journal_kept | intro _ | apply Kept.ite | apply Kept.foldl | split

theorem resetUnits_kept (h : Kept W m a) (w0 : Area.coll ∈ W) (w1 : Area.collFailed ∈ W) (w2 : Area.tiles ∈ W) (w3 : Area.hbm ∈ W) (w4
    : Area.luff ∈ W) : Kept W m (Machine.resetUnits a) := by
  unfold Machine.resetUnits
  simp -zeta -iota -proj only [Machine.upd_coll_collFailed_tiles_hbm_luff_eq]
  with_reducible repeat' first
    | assumption | apply Kept.set_coll_collFailed_tiles_hbm_luff | intro _ | apply Kept.ite | apply Kept.foldl | split

theorem resetTile_kept (h : Kept W m a) (x1 : Nat) (w0 : Area.tiles ∈ W) : Kept W m (Machine.resetTile a x1) := by
  unfold Machine.resetTile
  with_reducible repeat' first
    | assumption | apply modTile_kept | intro _ | apply Kept.ite | apply Kept.foldl | split

theorem endDrain_kept (h : Kept W m a) (x1 : Fence) (x2 : Bool) (w0 : Area.boot ∈ W) (w1 : Area.fwd ∈ W) (w2 : Area.txSeq ∈ W) (w3
    : Area.txn ∈ W) (w4 : Area.coll ∈ W) (w5 : Area.collFailed ∈ W) (w6 : Area.tiles ∈ W) (w7 : Area.hbm ∈ W) (w8 : Area.strm ∈ W) (w9
    : Area.luff ∈ W) (w10 : Area.hly ∈ W) (w11 : Area.tkp ∈ W) (w12 : Area.slc ∈ W) (w13 : Area.part ∈ W) (w14 : Area.ctx ∈ W) (w15
    : Area.ttl ∈ W) (w16 : Area.flash ∈ W) (w17 : Area.free ∈ W) (w18 : Area.out ∈ W) : Kept W m (Machine.endDrain a x1 x2) := by
  unfold Machine.endDrain
  with_reducible repeat' first
    | assumption | apply resetTile_kept | apply resetUnits_kept | apply startResetRun_kept
    | apply beginContextScrub_kept | apply crash_kept | apply drainEnd_kept | apply modLuff_kept | intro _
    | apply Kept.ite | apply Kept.foldl | split

theorem endReset_kept (h : Kept W m a) (x1 : Domain) (x2 : Fence) (w0 : Area.fwd ∈ W) (w1 : Area.txSeq ∈ W) (w2 : Area.txn ∈ W) (w3
    : Area.coll ∈ W) (w4 : Area.tiles ∈ W) (w5 : Area.strm ∈ W) (w6 : Area.luff ∈ W) (w7 : Area.ctx ∈ W) (w8 : Area.ttl ∈ W) : Kept W m
    (Machine.endReset a x1 x2) := by
  unfold Machine.endReset
  simp -zeta -iota -proj only [Machine.upd_txn_coll_eq]
  with_reducible repeat' first
    | assumption | apply endContextReset_kept | apply dropFence_kept | apply raise_kept | apply Kept.set_txn_coll
    | intro _ | apply Kept.ite | apply Kept.foldl | split

theorem finalContext_kept (h : Kept W m a) (x1 : Nat) (w0 : Area.fwd ∈ W) (w1 : Area.txSeq ∈ W) (w2 : Area.txn ∈ W) (w3 : Area.coll ∈ W) (w4
    : Area.tiles ∈ W) (w5 : Area.strm ∈ W) (w6 : Area.ctx ∈ W) (w7 : Area.ctxCmd ∈ W) (w8 : Area.msix ∈ W) (w9 : Area.out ∈ W) : Kept W m
    (Machine.finalContext a x1) := by
  unfold Machine.finalContext
  with_reducible repeat' first
    | assumption | apply ctxDone_kept | apply removeContext_kept | apply modCtx_kept | intro _ | apply Kept.ite
    | apply Kept.foldl | split

theorem endPackageReset_kept (h : Kept W m a) (x1 : Fence) (w0 : Area.fwd ∈ W) (w1 : Area.txSeq ∈ W) (w2 : Area.txn ∈ W) (w3
    : Area.coll ∈ W) (w4 : Area.tiles ∈ W) (w5 : Area.strm ∈ W) (w6 : Area.luff ∈ W) (w7 : Area.part ∈ W) (w8 : Area.ctx ∈ W) (w9
    : Area.ctxCmd ∈ W) (w10 : Area.ttl ∈ W) (w11 : Area.msix ∈ W) (w12 : Area.out ∈ W) : Kept W m (Machine.endPackageReset a x1) := by
  unfold Machine.endPackageReset
  simp -zeta -iota -proj only [Machine.upd_txn_strm_luff_part_eq]
  with_reducible repeat' first
    | assumption | apply finalContext_kept | apply dropFence_kept | apply memberReset_kept | apply ttlResetDone_kept
    | apply raise_kept | apply modTtl_kept | apply Kept.set_txn_strm_luff_part | intro _ | apply Kept.ite
    | apply Kept.foldl | split

theorem ladderPart_kept (h : Kept W m a) (x1 : Nat) (w0 : Area.luff ∈ W) : Kept W m (Machine.ladderPart a x1) := by
  unfold Machine.ladderPart
  with_reducible repeat' first
    | assumption | apply modLuff_kept | intro _ | apply Kept.ite | apply Kept.foldl | split

theorem rungOver_kept (h : Kept W m a) (x1 : Rung) (w0 : Area.txn ∈ W) (w1 : Area.collFailed ∈ W) (w2 : Area.tiles ∈ W) (w3 : Area.luff ∈ W)
    (w4 : Area.ctx ∈ W) (w5 : Area.ttl ∈ W) (w6 : Area.eng ∈ W) : Kept W m (Machine.rungOver a x1) := by
  unfold Machine.rungOver
  with_reducible repeat' first
    | assumption | apply ladderPart_kept | apply failUnit_kept | apply failEngine_kept | apply modEngine_kept
    | apply resetCluster_kept | apply loseTile_kept | apply modLuff_kept | apply raise_kept | intro _ | apply Kept.ite
    | apply Kept.foldl | split

/-! ### Regs -/

theorem took_kept (h : Kept W m a) : Kept W m (Machine.took a).1 := by
  unfold Machine.took
  with_reducible repeat' first
    | assumption | intro _ | apply Kept.ite | apply Kept.foldl | split

theorem ranged_kept (h : Kept W m a) (x1 : Bool) (x2 : Machine → Machine) (hx2 : ∀ y0, Kept W m y0 → Kept W m (x2 y0)) : Kept W m
    (Machine.ranged a x1 x2).1 := by
  unfold Machine.ranged
  with_reducible repeat' first
    | assumption | apply hx2 | intro _ | apply Kept.ite | apply Kept.foldl | split

theorem writeHlyCtrl_kept (h : Kept W m a) (x1 : Word) (w0 : Area.luff ∈ W) (w1 : Area.hly ∈ W) (w2 : Area.hst ∈ W) (w3 : Area.msix ∈ W) (w4
    : Area.hostMem ∈ W) (w5 : Area.out ∈ W) : Kept W m (Machine.writeHlyCtrl a x1).1 := by
  unfold Machine.writeHlyCtrl
  simp -zeta -iota -proj only [Machine.upd_hly_eq]
  with_reducible repeat' first
    | assumption | apply took_kept | apply endMailbox_kept | apply Kept.set_hly | intro _ | apply Kept.ite
    | apply Kept.iteFst | apply Kept.foldl | (extract_lets +onlyGivenNames z; clear_value z) | dsimp -zeta only | split

theorem writeHly_kept (h : Kept W m a) (x1 : Nat) (x2 : Word) (w0 : Area.luff ∈ W) (w1 : Area.hly ∈ W) (w2 : Area.hst ∈ W) (w3
    : Area.msix ∈ W) (w4 : Area.hostMem ∈ W) (w5 : Area.out ∈ W) : Kept W m (Machine.writeHly a x1 x2).1 := by
  unfold Machine.writeHly
  simp -zeta -iota -proj only [Machine.upd_hly_eq]
  with_reducible repeat' first
    | assumption | apply writeHlyCtrl_kept | apply took_kept | apply Kept.set_hly | intro _ | apply Kept.ite
    | apply Kept.iteFst | apply Kept.foldl | (extract_lets +onlyGivenNames z; clear_value z) | dsimp -zeta only | split

theorem writeTtlCfg_kept (h : Kept W m a) (x1 : Word) (w0 : Area.ttl ∈ W) : Kept W m (Machine.writeTtlCfg a x1).1 := by
  unfold Machine.writeTtlCfg
  with_reducible repeat' first
    | assumption | apply ranged_kept | apply modTtl_kept | intro _ | apply Kept.ite | apply Kept.iteFst
    | apply Kept.foldl | (extract_lets +onlyGivenNames z; clear_value z) | dsimp -zeta only | split

theorem writeSrcCfg_kept (h : Kept W m a) (x1 : Nat) (x2 : Word) (w0 : Area.ttl ∈ W) : Kept W m (Machine.writeSrcCfg a x1 x2).1 := by
  unfold Machine.writeSrcCfg
  with_reducible repeat' first
    | assumption | apply ranged_kept | apply force_kept | apply modSrc_kept | intro _ | apply Kept.ite
    | apply Kept.foldl | split

theorem writeTtl_kept (h : Kept W m a) (x1 : Nat) (x2 : Word) (w0 : Area.ttl ∈ W) : Kept W m (Machine.writeTtl a x1 x2).1 := by
  unfold Machine.writeTtl
  with_reducible repeat' first
    | assumption | apply writeSrcCfg_kept | apply writeTtlCfg_kept | apply ranged_kept | apply took_kept
    | apply clearFirst_kept | apply writeHold_kept | apply modSrc_kept | apply modTtl_kept | intro _ | apply Kept.ite
    | apply Kept.iteFst | apply Kept.foldl | (extract_lets +onlyGivenNames z; clear_value z) | dsimp -zeta only | split

theorem writeReef_kept (h : Kept W m a) (x1 : Nat) (x2 : Word) (w0 : Area.corner ∈ W) (w1 : Area.reef ∈ W) : Kept W m
    (Machine.writeReef a x1 x2).1 := by
  unfold Machine.writeReef
  simp -zeta -iota -proj only [Machine.upd_corner_eq]
  with_reducible repeat' first
    | assumption | apply took_kept | apply modRdie_kept | apply Kept.set_corner | intro _ | apply Kept.ite
    | apply Kept.foldl | split

theorem writeShr_kept (h : Kept W m a) (x1 : Nat) (x2 : Word) (w0 : Area.shr ∈ W) : Kept W m (Machine.writeShr a x1 x2).1 := by
  unfold Machine.writeShr
  with_reducible repeat' first
    | assumption | apply took_kept | apply modPort_kept | intro _ | apply Kept.ite | apply Kept.foldl | split

theorem writeXcCtrl_kept (h : Kept W m a) (x1 : Nat) (x2 : Word) (w0 : Area.part ∈ W) (w1 : Area.ctx ∈ W) (w2 : Area.ttl ∈ W) (w3
    : Area.msix ∈ W) (w4 : Area.out ∈ W) : Kept W m (Machine.writeXcCtrl a x1 x2).1 := by
  unfold Machine.writeXcCtrl
  with_reducible repeat' first
    | assumption | apply took_kept | apply bindDone_kept | apply xcDone_kept | apply modXc_kept | apply opArrive_kept
    | intro _ | apply Kept.ite | apply Kept.iteFst | apply Kept.foldl | (extract_lets +onlyGivenNames z; clear_value z)
    | dsimp -zeta only | split

theorem writeXcArg_kept (h : Kept W m a) (x1 x2 : Nat) (x3 : Word) (w0 : Area.ctx ∈ W) : Kept W m (Machine.writeXcArg a x1 x2 x3).1 := by
  unfold Machine.writeXcArg
  with_reducible repeat' first
    | assumption | apply ranged_kept | apply took_kept | apply modXc_kept | intro _ | apply Kept.ite | apply Kept.foldl
    | split

theorem writeXc_kept (h : Kept W m a) (x1 x2 x3 : Nat) (x4 : Word) (w0 : Area.part ∈ W) (w1 : Area.ctx ∈ W) (w2 : Area.ttl ∈ W) (w3
    : Area.msix ∈ W) (w4 : Area.hostMem ∈ W) (w5 : Area.out ∈ W) : Kept W m (Machine.writeXc a x1 x2 x3 x4).1 := by
  unfold Machine.writeXc
  with_reducible repeat' first
    | assumption | apply writeXcArg_kept | apply writeXcCtrl_kept | apply ranged_kept | apply took_kept
    | apply armHi_kept | apply armLo_kept | apply cqFlush_kept | apply modXc_kept | intro _ | apply Kept.ite
    | apply Kept.foldl | split

theorem writeStCtrl_kept (h : Kept W m a) (x1 : Nat) (x2 : Word) (w0 : Area.part ∈ W) (w1 : Area.ctx ∈ W) (w2 : Area.msix ∈ W) (w3
    : Area.out ∈ W) : Kept W m (Machine.writeStCtrl a x1 x2).1 := by
  unfold Machine.writeStCtrl
  with_reducible repeat' first
    | assumption | apply took_kept | apply stDone_kept | apply opArrive_kept | apply modCtx_kept | intro _
    | apply Kept.ite | apply Kept.iteFst | apply Kept.foldl | (extract_lets +onlyGivenNames z; clear_value z)
    | dsimp -zeta only | split

theorem writeSt_kept (h : Kept W m a) (x1 x2 : Nat) (x3 : Word) (w0 : Area.part ∈ W) (w1 : Area.ctx ∈ W) (w2 : Area.msix ∈ W) (w3
    : Area.out ∈ W) : Kept W m (Machine.writeSt a x1 x2 x3).1 := by
  unfold Machine.writeSt
  with_reducible repeat' first
    | assumption | apply writeStCtrl_kept | apply took_kept | apply modCtx_kept | intro _ | apply Kept.ite
    | apply Kept.foldl | split

theorem writeQueue_kept (h : Kept W m a) (x1 x2 x3 : Nat) (x4 : Word) (w0 : Area.ctx ∈ W) (w1 : Area.ttl ∈ W) : Kept W m
    (Machine.writeQueue a x1 x2 x3 x4).1 := by
  unfold Machine.writeQueue
  with_reducible repeat' first
    | assumption | apply took_kept | apply doorbell_kept | apply writeCfg_kept | apply modQueue_kept | intro _
    | apply Kept.ite | apply Kept.iteFst | apply Kept.foldl | (extract_lets +onlyGivenNames z; clear_value z)
    | dsimp -zeta only | split

theorem writeCtxCe_kept (h : Kept W m a) (x1 x2 : Nat) (x3 : Word) (w0 : Area.ctx ∈ W) (w1 : Area.ttl ∈ W) : Kept W m
    (Machine.writeCtxCe a x1 x2 x3).1 := by
  unfold Machine.writeCtxCe
  with_reducible repeat' first
    | assumption | apply writeQueue_kept | apply ranged_kept | apply took_kept | apply modCtx_kept | intro _
    | apply Kept.ite | apply Kept.iteFst | apply Kept.foldl | (extract_lets +onlyGivenNames z; clear_value z)
    | dsimp -zeta only | split

theorem writeWin_kept (h : Kept W m a) (x1 x2 : Nat) (x3 : Word) (w0 : Area.ctx ∈ W) : Kept W m (Machine.writeWin a x1 x2 x3).1 := by
  unfold Machine.writeWin
  with_reducible repeat' first
    | assumption | apply took_kept | apply modCtx_kept | intro _ | apply Kept.ite | apply Kept.foldl | split

theorem writePage_kept (h : Kept W m a) (x1 x2 x3 : Nat) (x4 : Word) (w0 : Area.part ∈ W) (w1 : Area.ctx ∈ W) (w2 : Area.ttl ∈ W) (w3
    : Area.msix ∈ W) (w4 : Area.hostMem ∈ W) (w5 : Area.out ∈ W) : Kept W m (Machine.writePage a x1 x2 x3 x4).1 := by
  unfold Machine.writePage
  with_reducible repeat' first
    | assumption | apply writeWin_kept | apply writeCtxCe_kept | apply writeSt_kept | apply writeXc_kept
    | apply took_kept | apply snapContext_kept | apply modBase_kept | intro _ | apply Kept.ite | apply Kept.foldl
    | split

theorem writeCtxCtrl_kept (h : Kept W m a) (x1 : Word) (w0 : Area.ctxCmd ∈ W) (w1 : Area.msix ∈ W) (w2 : Area.out ∈ W) : Kept W m
    (Machine.writeCtxCtrl a x1).1 := by
  unfold Machine.writeCtxCtrl
  simp -zeta -iota -proj only [Machine.upd_ctxCmd_eq]
  with_reducible repeat' first
    | assumption | apply took_kept | apply ctxDone_kept | apply Kept.set_ctxCmd | intro _ | apply Kept.ite
    | apply Kept.iteFst | apply Kept.foldl | (extract_lets +onlyGivenNames z; clear_value z) | dsimp -zeta only | split

theorem writeCtx_kept (h : Kept W m a) (x1 x2 : Nat) (x3 : Word) (w0 : Area.part ∈ W) (w1 : Area.ctx ∈ W) (w2 : Area.ctxCmd ∈ W) (w3
    : Area.ttl ∈ W) (w4 : Area.msix ∈ W) (w5 : Area.hostMem ∈ W) (w6 : Area.out ∈ W) : Kept W m (Machine.writeCtx a x1 x2 x3).1 := by
  unfold Machine.writeCtx
  simp -zeta -iota -proj only [Machine.upd_ctxCmd_eq]
  with_reducible repeat' first
    | assumption | apply writeCtxCtrl_kept | apply writePage_kept | apply took_kept | apply Kept.set_ctxCmd | intro _
    | apply Kept.ite | apply Kept.foldl | split

theorem writePageCtrl_kept (h : Kept W m a) (x1 : Word) (w0 : Area.part ∈ W) (w1 : Area.msix ∈ W) (w2 : Area.out ∈ W) : Kept W m
    (Machine.writePageCtrl a x1).1 := by
  unfold Machine.writePageCtrl
  simp -zeta -iota -proj only [Machine.upd_part_eq]
  with_reducible repeat' first
    | assumption | apply took_kept | apply pageDone_kept | apply opArrive_kept | apply Kept.set_part | intro _
    | apply Kept.ite | apply Kept.iteFst | apply Kept.foldl | (extract_lets +onlyGivenNames z; clear_value z)
    | dsimp -zeta only | split

theorem writePart_kept (h : Kept W m a) (x1 : Nat) (x2 : Word) (w0 : Area.part ∈ W) (w1 : Area.msix ∈ W) (w2 : Area.out ∈ W) : Kept W m
    (Machine.writePart a x1 x2).1 := by
  unfold Machine.writePart
  simp -zeta -iota -proj only [Machine.upd_part_eq]
  with_reducible repeat' first
    | assumption | apply writePageCtrl_kept | apply ranged_kept | apply took_kept | apply Kept.set_part | intro _
    | apply Kept.ite | apply Kept.foldl | split

theorem writeMsix_kept (h : Kept W m a) (x1 x2 x3 : Nat) (x4 : Word) (w0 : Area.msix ∈ W) (w1 : Area.out ∈ W) : Kept W m
    (Machine.writeMsix a x1 x2 x3 x4) := by
  unfold Machine.writeMsix
  simp -zeta -iota -proj only [Machine.upd_msix_eq]
  with_reducible repeat' first
    | assumption | apply interrupt_kept | apply Kept.set_msix | intro _ | apply Kept.ite | apply Kept.foldl | split

theorem writeHst_kept (h : Kept W m a) (x1 : Nat) (x2 : Word) (w0 : Area.ttl ∈ W) (w1 : Area.hst ∈ W) (w2 : Area.msix ∈ W) (w3
    : Area.out ∈ W) : Kept W m (Machine.writeHst a x1 x2).1 := by
  unfold Machine.writeHst
  simp -zeta -iota -proj only [Machine.upd_hst_eq]
  with_reducible repeat' first
    | assumption | apply writeMsix_kept | apply took_kept | apply setWatch_kept | apply modWatch_kept
    | apply Kept.set_hst | intro _ | apply Kept.ite | apply Kept.foldl | split

theorem writeBoot_kept (h : Kept W m a) (x1 : Nat) (x2 : Word) (w0 : Area.boot ∈ W) (w1 : Area.ttl ∈ W) (w2 : Area.flash ∈ W) : Kept W m
    (Machine.writeBoot a x1 x2).1 := by
  unfold Machine.writeBoot
  with_reducible repeat' first
    | assumption | apply took_kept | apply altClear_kept | apply modBoot_kept | intro _ | apply Kept.ite
    | apply Kept.foldl | split

theorem writeRst_kept (h : Kept W m a) (x1 : Nat) (x2 : Word) (w0 : Area.luff ∈ W) : Kept W m (Machine.writeRst a x1 x2).1 := by
  unfold Machine.writeRst
  simp -zeta -iota -proj only [Machine.upd_luff_eq]
  with_reducible repeat' first
    | assumption | apply took_kept | apply rstDone_kept | apply Kept.set_luff | intro _ | apply Kept.ite
    | apply Kept.iteFst | apply Kept.foldl | (extract_lets +onlyGivenNames z; clear_value z) | dsimp -zeta only | split

theorem writeLuff_kept (h : Kept W m a) (x1 x2 : Nat) (x3 : Word) (w0 : Area.hbm ∈ W) (w1 : Area.luff ∈ W) : Kept W m
    (Machine.writeLuff a x1 x2 x3).1 := by
  unfold Machine.writeLuff
  simp -zeta -iota -proj only [Machine.upd_luff_eq]
  with_reducible repeat' first
    | assumption | apply writeRst_kept | apply ranged_kept | apply took_kept | apply dumpRearm_kept
    | apply Kept.set_luff | intro _ | apply Kept.ite | apply Kept.iteFst | apply Kept.foldl
    | (extract_lets +onlyGivenNames z; clear_value z) | dsimp -zeta only | split

theorem regWrite_kept (h : Kept W m a) (x1 x2 : Nat) (x3 : Word) (w0 : Area.boot ∈ W) (w1 : Area.corner ∈ W) (w2 : Area.shr ∈ W) (w3
    : Area.hbm ∈ W) (w4 : Area.luff ∈ W) (w5 : Area.hly ∈ W) (w6 : Area.part ∈ W) (w7 : Area.ctx ∈ W) (w8 : Area.ctxCmd ∈ W) (w9
    : Area.ttl ∈ W) (w10 : Area.reef ∈ W) (w11 : Area.hst ∈ W) (w12 : Area.msix ∈ W) (w13 : Area.hostMem ∈ W) (w14 : Area.flash ∈ W) (w15
    : Area.out ∈ W) : Kept W m (Machine.regWrite a x1 x2 x3).1 := by
  unfold Machine.regWrite
  with_reducible repeat' first
    | assumption | apply writeLuff_kept | apply writeBoot_kept | apply writeHst_kept | apply writePart_kept
    | apply writeCtx_kept | apply writeShr_kept | apply writeReef_kept | apply writeTtl_kept | apply writeHly_kept
    | apply took_kept | intro _ | apply Kept.ite | apply Kept.foldl | split

theorem barWrite_kept (h : Kept W m a) (x1 x2 : Nat) (x3 : Word) (w0 : Area.boot ∈ W) (w1 : Area.corner ∈ W) (w2 : Area.shr ∈ W) (w3
    : Area.hbm ∈ W) (w4 : Area.luff ∈ W) (w5 : Area.hly ∈ W) (w6 : Area.part ∈ W) (w7 : Area.ctx ∈ W) (w8 : Area.ctxCmd ∈ W) (w9
    : Area.ttl ∈ W) (w10 : Area.reef ∈ W) (w11 : Area.hst ∈ W) (w12 : Area.msix ∈ W) (w13 : Area.hostMem ∈ W) (w14 : Area.flash ∈ W) (w15
    : Area.out ∈ W) : Kept W m (Machine.barWrite a x1 x2 x3).1 := by
  unfold Machine.barWrite
  with_reducible repeat' first
    | assumption | apply regWrite_kept | apply writeMsix_kept | apply writePage_kept | intro _ | apply Kept.ite
    | apply Kept.foldl | split

theorem accessed_kept (h : Kept W m a) (x1 x2 x3 : Nat) (w0 : Area.acc ∈ W) : Kept W m (Machine.accessed a x1 x2 x3) := by
  unfold Machine.accessed
  with_reducible repeat' first
    | assumption | apply accErr_kept | intro _ | apply Kept.ite | apply Kept.foldl | split

theorem latchTime_kept (h : Kept W m a) (x1 x2 : Nat) (w0 : Area.time ∈ W) : Kept W m (Machine.latchTime a x1 x2) := by
  unfold Machine.latchTime
  with_reducible repeat' first
    | assumption | apply modTime_kept | intro _ | apply Kept.ite | apply Kept.foldl | split

theorem bar0Read_kept (h : Kept W m a) (x1 x2 x3 : Nat) (w0 : Area.time ∈ W) (w1 : Area.acc ∈ W) (w2 : Area.out ∈ W) : Kept W m
    (Machine.bar0Read a x1 x2 x3) := by
  unfold Machine.bar0Read
  with_reducible repeat' first
    | assumption | apply latchTime_kept | apply accessed_kept | apply accErr_kept | apply emit_kept | intro _
    | apply Kept.ite | apply Kept.foldl | split

theorem bar0Write_kept (h : Kept W m a) (x1 x2 : Nat) (x3 : List Byte) (w0 : Area.boot ∈ W) (w1 : Area.corner ∈ W) (w2 : Area.shr ∈ W) (w3
    : Area.hbm ∈ W) (w4 : Area.luff ∈ W) (w5 : Area.hly ∈ W) (w6 : Area.part ∈ W) (w7 : Area.ctx ∈ W) (w8 : Area.ctxCmd ∈ W) (w9
    : Area.ttl ∈ W) (w10 : Area.acc ∈ W) (w11 : Area.reef ∈ W) (w12 : Area.hst ∈ W) (w13 : Area.msix ∈ W) (w14 : Area.hostMem ∈ W) (w15
    : Area.flash ∈ W) (w16 : Area.out ∈ W) : Kept W m (Machine.bar0Write a x1 x2 x3) := by
  unfold Machine.bar0Write
  with_reducible repeat' first
    | assumption | apply accessed_kept | apply barWrite_kept | apply accErr_kept | intro _ | apply Kept.ite
    | apply Kept.foldl | split

theorem h1Read_kept (h : Kept W m a) (x1 x2 : Nat) (w0 : Area.out ∈ W) : Kept W m (Machine.h1Read a x1 x2) := by
  unfold Machine.h1Read
  with_reducible repeat' first
    | assumption | apply emit_kept | intro _ | apply Kept.ite | apply Kept.foldl | split

theorem farnisWords_kept (h : Kept W m a) (x1 x2 : Nat) (w0 : Area.time ∈ W) : Kept W m (Machine.farnisWords a x1 x2).1 := by
  induction x2 generalizing a x1 with
  | zero => exact h
  | succ n ih => exact ih (latchTime_kept h _ _ ‹_›) _

/-! ### Scan -/

theorem scanLoad_kept (h : Kept W m a) (x1 x2 x3 : Nat) (x4 : Bool) (w0 : Area.scan ∈ W) (w1 : Area.out ∈ W) : Kept W m
    (Machine.scanLoad a x1 x2 x3 x4) := by
  unfold Machine.scanLoad
  simp -zeta -iota -proj only [Machine.upd_scan_eq]
  with_reducible repeat' first
    | assumption | apply emit_kept | apply Kept.set_scan | intro _ | apply Kept.ite | apply Kept.foldl | split

/-! ### Traffic -/

theorem runReq_kept (h : Kept W m a) (x1 : Frame) (w0 : Area.hbm ∈ W) (w1 : Area.strm ∈ W) (w2 : Area.ctx ∈ W) : Kept W m
    (Machine.runReq a x1).1 := by
  unfold Machine.runReq
  with_reducible repeat' first
    | assumption | apply modStrm_kept | apply meterHbm_kept | apply hbmWrite_kept | intro _ | apply Kept.ite
    | apply Kept.iteFst | apply Kept.foldl | (extract_lets +onlyGivenNames z; clear_value z) | dsimp -zeta only | split

theorem landMsg_kept (h : Kept W m a) (x1 : Frame) (w0 : Area.hbm ∈ W) (w1 : Area.strm ∈ W) (w2 : Area.ctx ∈ W) (w3 : Area.ttl ∈ W) :
    Kept W m (Machine.landMsg a x1) := by
  unfold Machine.landMsg
  simp -zeta -iota -proj only [Machine.upd_strm_eq]
  with_reducible repeat' first
    | assumption | apply modStrm_kept | apply meterHbm_kept | apply hbmWrite_kept | apply raise_kept
    | apply Kept.set_strm | intro _ | apply Kept.ite | apply Kept.foldl | split

theorem abortStep_kept (h : Kept W m a) (x1 x2 : Nat) (w0 : Area.ctx ∈ W) : Kept W m (Machine.abortStep a x1 x2) := by
  unfold Machine.abortStep
  with_reducible repeat' first
    | assumption | apply detect_kept | apply modXc_kept | intro _ | apply Kept.ite | apply Kept.foldl | split

theorem takeFlowAbort_kept (h : Kept W m a) (x1 x2 x3 : Nat) (w0 : Area.fwd ∈ W) (w1 : Area.coll ∈ W) (w2 : Area.strm ∈ W) (w3
    : Area.ctx ∈ W) (w4 : Area.ttl ∈ W) : Kept W m (Machine.takeFlowAbort a x1 x2 x3) := by
  unfold Machine.takeFlowAbort
  with_reducible repeat' first
    | assumption | apply abortStep_kept | apply collAbort_kept | apply holdStream_kept | apply raiseCtx_kept
    | apply modFwdCnt_kept | intro _ | apply Kept.ite | apply Kept.foldl | split

theorem modAbort_kept (h : Kept W m a) (x1 x2 : Nat) (x3 : AbortRec → AbortRec) (w0 : Area.hly ∈ W) : Kept W m (Machine.modAbort a x1 x2 x3)
    := by
  unfold Machine.modAbort
  simp -zeta -iota -proj only [Machine.upd_hly_eq]
  with_reducible repeat' first
    | assumption | apply Kept.set_hly | intro _ | apply Kept.ite | apply Kept.foldl | split

theorem settleAbort_kept (h : Kept W m a) (x1 x2 : Nat) (w0 : Area.hly ∈ W) : Kept W m (Machine.settleAbort a x1 x2) := by
  unfold Machine.settleAbort
  with_reducible repeat' first
    | assumption | apply modAbort_kept | intro _ | apply Kept.ite | apply Kept.foldl | split

theorem beginAbort_kept (h : Kept W m a) (x1 x2 x3 : Nat) (w0 : Area.hly ∈ W) (w1 : Area.out ∈ W) : Kept W m (Machine.beginAbort a x1 x2 x3)
    := by
  unfold Machine.beginAbort
  simp -zeta -iota -proj only [Machine.upd_hly_eq]
  with_reducible repeat' first
    | assumption | apply commitThen_kept | apply Kept.set_hly | intro _ | apply Kept.ite | apply Kept.foldl | split

end Sys2Proof.Machine
end

