-- ==== Sys2Proof/Laws/Claims.lean ====
section
/-!
SUPPORT. Small lemmas about the terms of claims: one bit written, a command that is done, a planner result taken in, and what flooding the
own record leaves.
-/
namespace Sys2Proof.Machine

/-- A command that is done keeps what its machine keeps. -/
theorem frame_of_done {s t : State} {m : Machine} {W : List Area} (ht : done s m = .next t) (h : Kept W s.m m) : Kept W s.m t.m := by
  cases ht; exact h

/-- Taking in a planner result keeps every block outside those it names. -/
theorem withResult_kept {W : List Area} {m : Machine} (r : Machine × Option (Job × Result)) (h : Kept W m r.1)
    (w0 : Area.time ∈ W) (w1 : Area.shr ∈ W) (w2 : Area.hly ∈ W) (w3 : Area.tkp ∈ W) (w4 : Area.slc ∈ W) (w5 : Area.ttl ∈ W)
    (w6 : Area.out ∈ W) :
    Kept W m (Machine.withResult r) := by
  obtain ⟨a, o⟩ := r
  cases o with
  | none => exact h
  | some x =>
    obtain ⟨j, x⟩ := x
    unfold Machine.withResult
    with_reducible repeat' first | assumption | apply serve_kept | apply resultIn_kept

/-- Taking a delivered frame out of an inbox writes the forwarding engines alone. -/
theorem takeInbox_kept {W : List Area} {m a b : Machine} {x : Delivered} {d : Nat} {p : Frame → Bool} (h : Kept W m a)
    (he : a.takeInbox d p = some (x, b)) (w0 : Area.fwd ∈ W) : Kept W m b := by
  unfold Machine.takeInbox at he
  dsimp only at he
  split at he
  · cases he
  · cases he; exact modFwd_kept h _ _ w0

/-- Taking a delivered management frame writes the forwarding engines alone. -/
theorem takeMgmt_kept {W : List Area} {m a b : Machine} {f : Frame} {o : Nat} (h : Kept W m a)
    (he : a.takeMgmt o = some (f, b)) (w0 : Area.fwd ∈ W) : Kept W m b := by
  unfold Machine.takeMgmt at he
  dsimp only at he
  split at he
  · cases he; exact takeInbox_kept h ‹_› w0
  · obtain ⟨⟨x, c⟩, hx, he⟩ := Option.map_eq_some_iff.mp he
    cases he; exact takeInbox_kept h hx w0

/-- Writing one bit of a register writes that bit alone. -/
theorem setBit_written {n : Nat} (w : BitVec n) (d : Nat) (b : Bool) (h : d < n) : bitWritten w (setBit w d b) d b := by
  intro j
  have hs : (2 ^ d).testBit d = true := Nat.testBit_two_pow_self
  by_cases hj : j = d
  · subst hj
    cases b
    · show (w &&& ~~~ BitVec.ofNat n (2^j)).getLsbD j = _
      rw [BitVec.getLsbD_and, BitVec.getLsbD_not, BitVec.getLsbD_ofNat, hs]
      simp only [h, decide_true, Bool.and_self, Bool.not_true, Bool.and_false, if_true]
    · show (w ||| BitVec.ofNat n (2^j)).getLsbD j = _
      rw [BitVec.getLsbD_or, BitVec.getLsbD_ofNat, hs]
      simp only [h, decide_true, Bool.and_self, Bool.or_true, if_true]
  · have hn : (2 ^ d).testBit j = false := by
      rw [Nat.testBit_two_pow]; simp; omega
    cases b
    · show (w &&& ~~~ BitVec.ofNat n (2^d)).getLsbD j = _
      rw [BitVec.getLsbD_and, BitVec.getLsbD_not, BitVec.getLsbD_ofNat, hn]
      simp only [hj, if_false, Bool.and_false, Bool.not_false, Bool.and_true, bitAt]
      by_cases hw : w.getLsbD j = true
      · simp [BitVec.lt_of_getLsbD hw]
      · simp [hw]
    · show (w ||| BitVec.ofNat n (2^d)).getLsbD j = _
      rw [BitVec.getLsbD_or, BitVec.getLsbD_ofNat, hn]
      simp only [hj, if_false, Bool.and_false, Bool.or_false, bitAt]
/-- A die's bit written. -/
@[simp] theorem setBit_die (w : BitVec 4) (d : CDie) (b : Bool) : bitWritten w (setBit w d.val b) d.val b := setBit_written w d.val b d.isLt

/-- Flooding the own record leaves the ports. -/
theorem floodOwn_shr (m : Machine) : m.floodOwn.shr = m.shr := by
  refine Kept.shr (W := [.hly, .tkp, .slc, .ttl, .out]) ?_ (by decide)
  apply floodOwn_kept Kept.refl <;> decide
/-- Flooding the own record leaves the forwarding engines. -/
theorem floodOwn_fwd (m : Machine) : m.floodOwn.fwd = m.fwd := by
  refine Kept.fwd (W := [.hly, .tkp, .slc, .ttl, .out]) ?_ (by decide)
  apply floodOwn_kept Kept.refl <;> decide
/-- Flooding the own record leaves a port. -/
@[simp] theorem floodOwn_port (m : Machine) (q : Nat) : m.floodOwn.port q = m.port q := by simp [Machine.port, floodOwn_shr]
/-- Flooding the own record leaves a forwarding engine. -/
@[simp] theorem floodOwn_fwdAt (m : Machine) (q : Nat) : m.floodOwn.fwdAt q = m.fwdAt q := by simp [Machine.fwdAt, floodOwn_fwd]

end Sys2Proof.Machine
end

