-- ==== Sys2Proof/Laws/Table.lean ====
section
/-!
SUPPORT. The laws of sparse tables and memories: what each key reads as after each operation, and that each operation keeps the
canonical form.
-/
namespace Sys2Proof.Machine

variable {α : Type}

/-! ### Reading -/

@[simp] theorem tget_nil (d : α) (k : Nat) : tget d [] k = d := rfl

theorem tget_cons (d : α) (e : Nat × α) (t : Table α) (k : Nat) :
    tget d (e :: t) k = if e.1 = k then e.2 else tget d t k := rfl

@[simp] theorem tget_tdel_same (d : α) (t : Table α) (k : Nat) : tget d (tdel t k) k = d := by
  induction t with
  | nil => rfl
  | cons e t ih =>
    simp only [tdel]
    split
    · exact ih
    · rename_i h; simp [tget, h, ih]

theorem tget_tdel_ne (d : α) (t : Table α) {k j : Nat} (h : j ≠ k) : tget d (tdel t k) j = tget d t j := by
  induction t with
  | nil => rfl
  | cons e t ih =>
    simp only [tdel]
    split
    · rename_i hk; rw [ih, tget_cons, if_neg (by omega)]
    · simp only [tget_cons, ih]

theorem tget_tput_ne (d : α) (t : Table α) (k : Nat) (v : α) {j : Nat} (h : j ≠ k) :
    tget d (tput k v t) j = tget d t j := by
  induction t with
  | nil => simp [tput, tget, Ne.symm h]
  | cons e t ih =>
    simp only [tput]
    split
    · simp [tget_cons, Ne.symm h]
    · simp only [tget_cons, ih]

theorem tget_tput_tdel (d : α) (t : Table α) (k : Nat) (v : α) : tget d (tput k v (tdel t k)) k = v := by
  induction t with
  | nil => simp [tdel, tput, tget]
  | cons e t ih =>
    simp only [tdel]
    split
    · exact ih
    · rename_i h
      simp only [tput]
      split
      · simp [tget]
      · simp [tget, h, ih]

/-- A read of the key just written gives the value written. -/
@[simp] theorem tget_tset_same [DecidableEq α] (d : α) (t : Table α) (k : Nat) (v : α) : tget d (tset d t k v) k = v := by
  simp only [tset]
  split
  · rename_i h; simp [h]
  · exact tget_tput_tdel d t k v

/-- A write leaves every other key alone. -/
theorem tget_tset_ne [DecidableEq α] (d : α) (t : Table α) {k j : Nat} (v : α) (h : j ≠ k) :
    tget d (tset d t k v) j = tget d t j := by
  simp only [tset]
  split
  · exact tget_tdel_ne d t h
  · rw [tget_tput_ne d _ k v h, tget_tdel_ne d t h]

theorem tget_tset [DecidableEq α] (d : α) (t : Table α) (k j : Nat) (v : α) :
    tget d (tset d t k v) j = if j = k then v else tget d t j := by
  split
  · rename_i h; rw [h]; exact tget_tset_same d t k v
  · rename_i h; exact tget_tset_ne d t v h

theorem tget_append (d : α) (t u : Table α) (k : Nat) :
    tget d (t ++ u) k = if k ∈ tkeys t then tget d t k else tget d u k := by
  induction t with
  | nil => simp [tkeys]
  | cons e t ih =>
    simp only [List.cons_append, tget_cons, tkeys, List.map_cons, List.mem_cons] at ih ⊢
    by_cases h : e.1 = k
    · simp [h]
    · have h' : ¬k = e.1 := fun x => h x.symm
      simp only [h, if_false, ih, h', false_or]
      exact if_congr Iff.rfl rfl rfl

theorem tget_of_not_mem (d : α) (t : Table α) (k : Nat) (h : k ∉ tkeys t) : tget d t k = d := by
  induction t with
  | nil => rfl
  | cons e t ih =>
    simp only [tkeys, List.map_cons, List.mem_cons, not_or] at h
    rw [tget_cons, if_neg (fun x => h.1 x.symm)]
    exact ih h.2

theorem tget_filter (d : α) (t : Table α) (p : Nat → Bool) (k : Nat) :
    tget d (t.filter fun e => p e.1) k = if p k then tget d t k else d := by
  induction t with
  | nil => simp
  | cons e t ih =>
    by_cases hp : p e.1
    · simp only [List.filter_cons, hp, if_true, tget_cons, ih]
      by_cases h : e.1 = k
      · simp [h ▸ hp, h]
      · simp [h]
    · rw [List.filter_cons_of_neg (p := fun e : Nat × α => p e.1) hp, ih, tget_cons]
      by_cases h : e.1 = k
      · have hk : ¬p k = true := h ▸ hp
        simp [hk]
      · simp [h]

theorem tget_tlist [DecidableEq α] (d : α) (l : List α) (k j : Nat) :
    tget d (tlist d k l) j = if k ≤ j then l.getD (j - k) d else d := by
  induction l generalizing k with
  | nil => simp [tlist]
  | cons v l ih =>
    have hs : ∀ (hj : k < j), (v :: l).getD (j - k) d = l.getD (j - (k + 1)) d := by
      intro hj
      obtain ⟨n, hn⟩ : ∃ n, j - k = n + 1 := ⟨j - k - 1, by omega⟩
      rw [hn, show j - (k + 1) = n by omega]; rfl
    simp only [tlist]
    split
    · rename_i hv
      rw [ih]
      rcases Nat.lt_trichotomy k j with h | h | h
      · rw [if_pos (by omega), if_pos (by omega), hs h]
      · subst h; simp [hv]
      · rw [if_neg (by omega), if_neg (by omega)]
    · rw [tget_cons, ih]
      rcases Nat.lt_trichotomy k j with h | h | h
      · rw [if_neg (by simp; omega), if_pos (by omega), if_pos (by omega), hs h]
      · subst h; simp
      · rw [if_neg (by simp; omega), if_neg (by omega), if_neg (by omega)]

theorem tget_tlist_of_outside [DecidableEq α] (d : α) (l : List α) (k j : Nat) (h : j < k ∨ k + l.length ≤ j) :
    tget d (tlist d k l) j = d := by
  rw [tget_tlist]
  split
  · rw [List.getD_eq_default]; omega
  · rfl

theorem tkeys_tlist [DecidableEq α] (d : α) (l : List α) (k j : Nat) (h : j ∈ tkeys (tlist d k l)) :
    k ≤ j ∧ j < k + l.length := by
  induction l generalizing k with
  | nil => simp [tlist, tkeys] at h
  | cons v l ih =>
    simp only [tlist] at h
    split at h
    · have := ih _ h; simp; omega
    · simp only [tkeys, List.map_cons, List.mem_cons] at h
      rcases h with h | h
      · simp; omega
      · have := ih _ h; simp; omega

/-- What a key reads as after consecutive values are written from `k` upward. -/
theorem tget_tfill [DecidableEq α] (d : α) (t : Table α) (k j : Nat) (l : List α) :
    tget d (tfill d t k l) j = if k ≤ j ∧ j < k + l.length then l.getD (j - k) d else tget d t j := by
  have hlow : tget d (t.filter fun e => decide (e.1 < k)) j = if j < k then tget d t j else d := by
    simpa using tget_filter d t (fun i => decide (i < k)) j
  have hhigh : tget d (t.filter fun e => decide (k + l.length ≤ e.1)) j = if k + l.length ≤ j then tget d t j else d := by
    simpa using tget_filter d t (fun i => decide (k + l.length ≤ i)) j
  have hmemlow : j ∈ tkeys (t.filter fun e => decide (e.1 < k)) → j < k := by
    simp only [tkeys, List.mem_map, List.mem_filter, decide_eq_true_eq]
    rintro ⟨e, ⟨-, h⟩, rfl⟩; exact h
  simp only [tfill, List.append_assoc, tget_append]
  split
  · rename_i h
    have := hmemlow h
    rw [hlow, if_pos this, if_neg (by omega)]
  · rename_i h
    have h0 : j < k → tget d t j = d := by
      intro hj
      have := tget_of_not_mem d _ j h
      rwa [hlow, if_pos hj] at this
    split
    · rename_i hm
      have := tkeys_tlist d l k j hm
      rw [tget_tlist, if_pos this.1, if_pos this]
    · rename_i hm
      have hz := tget_of_not_mem d _ j hm
      rw [hhigh]
      split
      · rw [if_neg (by omega)]
      · split
        · rename_i hin
          rw [tget_tlist, if_pos hin.1] at hz
          exact hz.symm
        · rw [h0 (by omega)]

/-- A memory read at an address inside the bytes just written gives the byte written. -/
theorem tget_mwrite_inside (d : BitVec 8) (m : Table (BitVec 8)) (a j : Nat) (l : List (BitVec 8))
    (h : a ≤ j ∧ j < a + l.length) : tget d (mwrite d m a l) j = l.getD (j - a) d := by
  rw [mwrite, tget_tfill, if_pos h]

/-- A memory write leaves every byte outside its own alone. -/
theorem tget_mwrite_outside (d : BitVec 8) (m : Table (BitVec 8)) (a j : Nat) (l : List (BitVec 8))
    (h : j < a ∨ a + l.length ≤ j) : tget d (mwrite d m a l) j = tget d m j := by
  rw [mwrite, tget_tfill, if_neg (by omega)]

/-- What a key reads as after a range is put back to its unlisted reading. -/
theorem tget_tclear (d : α) (m : Table α) (a n j : Nat) :
    tget d (tclear m a n) j = if a ≤ j ∧ j < a + n then d else tget d m j := by
  have := tget_filter d m (fun i => decide (i < a ∨ a + n ≤ i)) j
  simp only [tclear]
  rw [this]
  by_cases h : a ≤ j ∧ j < a + n
  · rw [if_pos h, if_neg (by simp; omega)]
  · rw [if_neg h, if_pos (by simp; omega)]

@[simp] theorem mread_length (d : BitVec 8) (m : Table (BitVec 8)) (a n : Nat) : (mread d m a n).length = n := by
  induction n generalizing a with
  | zero => rfl
  | succ n ih => simp [mread, ih]

theorem mread_getD (d : BitVec 8) (m : Table (BitVec 8)) (a n i : Nat) (h : i < n) :
    (mread d m a n).getD i d = tget d m (a + i) := by
  induction n generalizing a i with
  | zero => omega
  | succ n ih =>
    cases i with
    | zero => rfl
    | succ i =>
      have := ih (a + 1) i (by omega)
      simp only [mread, List.getD_cons_succ]
      rw [this]; congr 1; omega

/-- A read of the bytes just written gives them back. -/
theorem mread_mwrite_same (d : BitVec 8) (m : Table (BitVec 8)) (a : Nat) (l : List (BitVec 8)) :
    mread d (mwrite d m a l) a l.length = l := by
  refine List.ext_getElem (by simp) fun i h1 h2 => ?_
  have h3 := mread_getD d (mwrite d m a l) a l.length i h2
  rw [tget_mwrite_inside d m a (a + i) l (by omega)] at h3
  simpa [List.getD_eq_getElem?_getD, h1, h2, show a + i - a = i by omega] using h3

/-! ### The canonical form -/

theorem twf_iff [DecidableEq α] (d : α) (t : Table α) :
    twf d t = true ↔ t.Pairwise (fun a b => a.1 < b.1) ∧ ∀ e ∈ t, e.2 ≠ d := by
  simp [twf]

@[simp] theorem twf_nil [DecidableEq α] (d : α) : twf d ([] : Table α) = true := by simp [twf]

theorem mem_tdel {t : Table α} {k : Nat} {e : Nat × α} : e ∈ tdel t k ↔ e ∈ t ∧ e.1 ≠ k := by
  induction t with
  | nil => simp [tdel]
  | cons b t ih =>
    simp only [tdel]
    split
    · rename_i h
      rw [ih]; constructor
      · rintro ⟨h1, h2⟩; exact ⟨List.mem_cons_of_mem _ h1, h2⟩
      · rintro ⟨h1, h2⟩
        rcases List.mem_cons.mp h1 with rfl | h1
        · exact absurd h h2
        · exact ⟨h1, h2⟩
    · rename_i h
      rw [List.mem_cons, ih, List.mem_cons]; constructor
      · rintro (rfl | ⟨h1, h2⟩)
        · exact ⟨Or.inl rfl, h⟩
        · exact ⟨Or.inr h1, h2⟩
      · rintro ⟨rfl | h1, h2⟩
        · exact Or.inl rfl
        · exact Or.inr ⟨h1, h2⟩

theorem mem_tput {t : Table α} {k : Nat} {v : α} {e : Nat × α} : e ∈ tput k v t ↔ e = (k, v) ∨ e ∈ t := by
  induction t with
  | nil => simp [tput]
  | cons b t ih =>
    simp only [tput]
    split
    · simp
    · simp only [List.mem_cons, ih]; tauto

theorem pairwise_tdel {t : Table α} (k : Nat) (h : t.Pairwise fun a b => a.1 < b.1) :
    (tdel t k).Pairwise fun a b => a.1 < b.1 := by
  induction t with
  | nil => simp [tdel]
  | cons b t ih =>
    rw [List.pairwise_cons] at h
    simp only [tdel]
    split
    · exact ih h.2
    · refine List.pairwise_cons.mpr ⟨fun e he => h.1 e (mem_tdel.mp he).1, ih h.2⟩

theorem pairwise_tput {t : Table α} (k : Nat) (v : α) (h : t.Pairwise fun a b => a.1 < b.1) (hk : ∀ e ∈ t, e.1 ≠ k) :
    (tput k v t).Pairwise fun a b => a.1 < b.1 := by
  induction t with
  | nil => simp [tput]
  | cons b t ih =>
    rw [List.pairwise_cons] at h
    simp only [tput]
    split
    · rename_i hb
      refine List.pairwise_cons.mpr ⟨?_, List.pairwise_cons.mpr h⟩
      intro e he
      rcases List.mem_cons.mp he with rfl | he
      · exact hb
      · exact lt_trans hb (h.1 e he)
    · rename_i hb
      have hbk : b.1 ≠ k := hk b (by simp)
      refine List.pairwise_cons.mpr ⟨?_, ih h.2 fun e he => hk e (List.mem_cons_of_mem _ he)⟩
      intro e he
      rcases mem_tput.mp he with rfl | he
      · simp at hb ⊢; omega
      · exact h.1 e he

/-- Removing a key keeps the canonical form. -/
theorem twf_tdel [DecidableEq α] (d : α) (t : Table α) (k : Nat) (h : twf d t = true) : twf d (tdel t k) = true := by
  rw [twf_iff] at *
  exact ⟨pairwise_tdel k h.1, fun e he => h.2 e (mem_tdel.mp he).1⟩

/-- Writing a key keeps the canonical form. -/
theorem twf_tset [DecidableEq α] (d : α) (t : Table α) (k : Nat) (v : α) (h : twf d t = true) :
    twf d (tset d t k v) = true := by
  simp only [tset]
  split
  · exact twf_tdel d t k h
  · rename_i hv
    have hd := (twf_iff d _).mp (twf_tdel d t k h)
    rw [twf_iff]
    refine ⟨pairwise_tput k v hd.1 fun e he => (mem_tdel.mp he).2, fun e he => ?_⟩
    rcases mem_tput.mp he with rfl | he
    · exact hv
    · exact hd.2 e he

theorem twf_filter [DecidableEq α] (d : α) (t : Table α) (p : Nat × α → Bool) (h : twf d t = true) :
    twf d (t.filter p) = true := by
  rw [twf_iff] at *
  exact ⟨h.1.filter p, fun e he => h.2 e (List.mem_of_mem_filter he)⟩

/-- Clearing a range keeps the canonical form. -/
theorem twf_tclear [DecidableEq α] (d : α) (m : Table α) (a n : Nat) (h : twf d m = true) :
    twf d (tclear m a n) = true := twf_filter d m _ h

theorem twf_tlist [DecidableEq α] (d : α) (l : List α) (k : Nat) : twf d (tlist d k l) = true := by
  rw [twf_iff]
  induction l generalizing k with
  | nil => simp [tlist]
  | cons v l ih =>
    simp only [tlist]
    split
    · exact ih (k + 1)
    · rename_i hv
      refine ⟨List.pairwise_cons.mpr ⟨fun e he => ?_, (ih (k + 1)).1⟩, fun e he => ?_⟩
      · have := tkeys_tlist d l (k + 1) e.1 (List.mem_map.mpr ⟨e, he, rfl⟩)
        simp; omega
      · rcases List.mem_cons.mp he with rfl | he
        · exact hv
        · exact (ih (k + 1)).2 e he

/-- Writing consecutive values keeps the canonical form. -/
theorem twf_tfill [DecidableEq α] (d : α) (t : Table α) (k : Nat) (l : List α) (h : twf d t = true) :
    twf d (tfill d t k l) = true := by
  have h1 := (twf_iff d _).mp (twf_filter d t (fun e => decide (e.1 < k)) h)
  have h2 := (twf_iff d _).mp (twf_tlist d l k)
  have h3 := (twf_iff d _).mp (twf_filter d t (fun e => decide (k + l.length ≤ e.1)) h)
  have hl : ∀ e ∈ tlist d k l, k ≤ e.1 ∧ e.1 < k + l.length := fun e he =>
    tkeys_tlist d l k e.1 (List.mem_map.mpr ⟨e, he, rfl⟩)
  rw [twf_iff]
  simp only [tfill, List.pairwise_append, List.mem_append]
  refine ⟨⟨⟨h1.1, h2.1, fun a ha b hb => ?_⟩, h3.1, fun a ha b hb => ?_⟩, fun e he => ?_⟩
  · have := (List.mem_filter.mp ha).2
    simp only [decide_eq_true_eq] at this
    have := hl b hb
    omega
  · have hb' := (List.mem_filter.mp hb).2
    simp only [decide_eq_true_eq] at hb'
    rcases ha with ha | ha
    · have := (List.mem_filter.mp ha).2
      simp only [decide_eq_true_eq] at this
      omega
    · have := hl a ha
      omega
  · rcases he with (he | he) | he
    · exact h1.2 e he
    · exact h2.2 e he
    · exact h3.2 e he

/-- Writing a memory keeps its canonical form. -/
theorem twf_mwrite (d : BitVec 8) (m : Table (BitVec 8)) (a : Nat) (l : List (BitVec 8)) (h : twf d m = true) :
    twf d (mwrite d m a l) = true := twf_tfill d m a l h

/-- Writing a list of cells keeps a memory's canonical form. -/
theorem twf_mcells (d : BitVec 8) (m : Table (BitVec 8)) (l : List Host.Cell) (h : twf d m = true) :
    twf d (mcells d m l) = true := by
  induction l generalizing m with
  | nil => exact h
  | cons c l ih => exact ih _ (twf_tset d m c.1 c.2 h)

end Sys2Proof.Machine
end

