-- ==== Sys2Proof/Laws/State.lean ====
section
/-!
SUPPORT. The laws of the state's updates: which fields each update leaves alone, and what its own field then holds.
-/
namespace Sys2Proof.Machine

variable (m : Machine)

/-! ### Fields an update leaves alone -/

@[simp] theorem emit_fields (x1 : Out) :
    (m.emit x1).pins = m.pins ∧ (m.emit x1).fuse = m.fuse ∧ (m.emit x1).boot = m.boot ∧ (m.emit x1).time = m.time ∧
    (m.emit x1).corner = m.corner ∧ (m.emit x1).shr = m.shr ∧ (m.emit x1).fwd = m.fwd ∧ (m.emit x1).txSeq = m.txSeq ∧
    (m.emit x1).txn = m.txn ∧ (m.emit x1).coll = m.coll ∧ (m.emit x1).collFailed = m.collFailed ∧
    (m.emit x1).tiles = m.tiles ∧ (m.emit x1).tileMap = m.tileMap ∧ (m.emit x1).tilePhys = m.tilePhys ∧
    (m.emit x1).hbm = m.hbm ∧ (m.emit x1).strm = m.strm ∧ (m.emit x1).luff = m.luff ∧ (m.emit x1).hly = m.hly ∧
    (m.emit x1).tkp = m.tkp ∧ (m.emit x1).slc = m.slc ∧ (m.emit x1).part = m.part ∧ (m.emit x1).ctx = m.ctx ∧
    (m.emit x1).ctxCmd = m.ctxCmd ∧ (m.emit x1).ttl = m.ttl ∧ (m.emit x1).acc = m.acc ∧ (m.emit x1).reef = m.reef ∧
    (m.emit x1).hst = m.hst ∧ (m.emit x1).eng = m.eng ∧ (m.emit x1).msix = m.msix ∧ (m.emit x1).hostMem = m.hostMem ∧
    (m.emit x1).flash = m.flash ∧ (m.emit x1).far = m.far ∧ (m.emit x1).scan = m.scan ∧ (m.emit x1).card = m.card ∧
    (m.emit x1).free = m.free :=
  ⟨rfl, rfl, rfl, rfl, rfl, rfl, rfl, rfl, rfl, rfl, rfl, rfl, rfl, rfl, rfl, rfl, rfl, rfl, rfl, rfl, rfl, rfl, rfl, rfl, rfl, rfl, rfl, rfl, rfl, rfl, rfl, rfl, rfl, rfl, rfl⟩

@[simp] theorem tell_fields (x1 : NodeId) (x2 : Mgmt) :
    (m.tell x1 x2).pins = m.pins ∧ (m.tell x1 x2).fuse = m.fuse ∧ (m.tell x1 x2).boot = m.boot ∧
    (m.tell x1 x2).time = m.time ∧ (m.tell x1 x2).corner = m.corner ∧ (m.tell x1 x2).shr = m.shr ∧
    (m.tell x1 x2).fwd = m.fwd ∧ (m.tell x1 x2).txSeq = m.txSeq ∧ (m.tell x1 x2).txn = m.txn ∧
    (m.tell x1 x2).coll = m.coll ∧ (m.tell x1 x2).collFailed = m.collFailed ∧ (m.tell x1 x2).tiles = m.tiles ∧
    (m.tell x1 x2).tileMap = m.tileMap ∧ (m.tell x1 x2).tilePhys = m.tilePhys ∧ (m.tell x1 x2).hbm = m.hbm ∧
    (m.tell x1 x2).strm = m.strm ∧ (m.tell x1 x2).luff = m.luff ∧ (m.tell x1 x2).hly = m.hly ∧ (m.tell x1 x2).tkp = m.tkp ∧
    (m.tell x1 x2).slc = m.slc ∧ (m.tell x1 x2).part = m.part ∧ (m.tell x1 x2).ctx = m.ctx ∧
    (m.tell x1 x2).ctxCmd = m.ctxCmd ∧ (m.tell x1 x2).ttl = m.ttl ∧ (m.tell x1 x2).acc = m.acc ∧
    (m.tell x1 x2).reef = m.reef ∧ (m.tell x1 x2).hst = m.hst ∧ (m.tell x1 x2).eng = m.eng ∧ (m.tell x1 x2).msix = m.msix ∧
    (m.tell x1 x2).hostMem = m.hostMem ∧ (m.tell x1 x2).flash = m.flash ∧ (m.tell x1 x2).far = m.far ∧
    (m.tell x1 x2).scan = m.scan ∧ (m.tell x1 x2).card = m.card ∧ (m.tell x1 x2).free = m.free :=
  ⟨rfl, rfl, rfl, rfl, rfl, rfl, rfl, rfl, rfl, rfl, rfl, rfl, rfl, rfl, rfl, rfl, rfl, rfl, rfl, rfl, rfl, rfl, rfl, rfl, rfl, rfl, rfl, rfl, rfl, rfl, rfl, rfl, rfl, rfl, rfl⟩

/-- An answer to a vendor message changes only what has been sent. -/
theorem answerMctp_eq (x1 : MsgHdr) (x2 x3 x4 : Nat) (x5 : List Byte) :
    ∃ o, m.answerMctp x1 x2 x3 x4 x5 = { m with out := o } := by
  unfold Machine.answerMctp
  split
  · exact ⟨_, rfl⟩
  · dsimp only
    split <;> exact ⟨_, rfl⟩

@[simp] theorem answerMctp_fields (x1 : MsgHdr) (x2 x3 x4 : Nat) (x5 : List Byte) :
    (m.answerMctp x1 x2 x3 x4 x5).pins = m.pins ∧ (m.answerMctp x1 x2 x3 x4 x5).fuse = m.fuse ∧
    (m.answerMctp x1 x2 x3 x4 x5).boot = m.boot ∧ (m.answerMctp x1 x2 x3 x4 x5).time = m.time ∧
    (m.answerMctp x1 x2 x3 x4 x5).corner = m.corner ∧ (m.answerMctp x1 x2 x3 x4 x5).shr = m.shr ∧
    (m.answerMctp x1 x2 x3 x4 x5).fwd = m.fwd ∧ (m.answerMctp x1 x2 x3 x4 x5).txSeq = m.txSeq ∧
    (m.answerMctp x1 x2 x3 x4 x5).txn = m.txn ∧ (m.answerMctp x1 x2 x3 x4 x5).coll = m.coll ∧
    (m.answerMctp x1 x2 x3 x4 x5).collFailed = m.collFailed ∧ (m.answerMctp x1 x2 x3 x4 x5).tiles = m.tiles ∧
    (m.answerMctp x1 x2 x3 x4 x5).tileMap = m.tileMap ∧ (m.answerMctp x1 x2 x3 x4 x5).tilePhys = m.tilePhys ∧
    (m.answerMctp x1 x2 x3 x4 x5).hbm = m.hbm ∧ (m.answerMctp x1 x2 x3 x4 x5).strm = m.strm ∧
    (m.answerMctp x1 x2 x3 x4 x5).luff = m.luff ∧ (m.answerMctp x1 x2 x3 x4 x5).hly = m.hly ∧
    (m.answerMctp x1 x2 x3 x4 x5).tkp = m.tkp ∧ (m.answerMctp x1 x2 x3 x4 x5).slc = m.slc ∧
    (m.answerMctp x1 x2 x3 x4 x5).part = m.part ∧ (m.answerMctp x1 x2 x3 x4 x5).ctx = m.ctx ∧
    (m.answerMctp x1 x2 x3 x4 x5).ctxCmd = m.ctxCmd ∧ (m.answerMctp x1 x2 x3 x4 x5).ttl = m.ttl ∧
    (m.answerMctp x1 x2 x3 x4 x5).acc = m.acc ∧ (m.answerMctp x1 x2 x3 x4 x5).reef = m.reef ∧
    (m.answerMctp x1 x2 x3 x4 x5).hst = m.hst ∧ (m.answerMctp x1 x2 x3 x4 x5).eng = m.eng ∧
    (m.answerMctp x1 x2 x3 x4 x5).msix = m.msix ∧ (m.answerMctp x1 x2 x3 x4 x5).hostMem = m.hostMem ∧
    (m.answerMctp x1 x2 x3 x4 x5).flash = m.flash ∧ (m.answerMctp x1 x2 x3 x4 x5).far = m.far ∧
    (m.answerMctp x1 x2 x3 x4 x5).scan = m.scan ∧ (m.answerMctp x1 x2 x3 x4 x5).card = m.card ∧
    (m.answerMctp x1 x2 x3 x4 x5).free = m.free := by
  obtain ⟨o, ho⟩ := answerMctp_eq m x1 x2 x3 x4 x5
  rw [ho]
  exact ⟨rfl, rfl, rfl, rfl, rfl, rfl, rfl, rfl, rfl, rfl, rfl, rfl, rfl, rfl, rfl, rfl, rfl, rfl, rfl, rfl, rfl, rfl, rfl, rfl, rfl, rfl, rfl, rfl, rfl, rfl, rfl, rfl, rfl, rfl, rfl⟩

@[simp] theorem modTtl_fields (x1 : Ttl → Ttl) :
    (m.modTtl x1).pins = m.pins ∧ (m.modTtl x1).fuse = m.fuse ∧ (m.modTtl x1).boot = m.boot ∧ (m.modTtl x1).time = m.time ∧
    (m.modTtl x1).corner = m.corner ∧ (m.modTtl x1).shr = m.shr ∧ (m.modTtl x1).fwd = m.fwd ∧
    (m.modTtl x1).txSeq = m.txSeq ∧ (m.modTtl x1).txn = m.txn ∧ (m.modTtl x1).coll = m.coll ∧
    (m.modTtl x1).collFailed = m.collFailed ∧ (m.modTtl x1).tiles = m.tiles ∧ (m.modTtl x1).tileMap = m.tileMap ∧
    (m.modTtl x1).tilePhys = m.tilePhys ∧ (m.modTtl x1).hbm = m.hbm ∧ (m.modTtl x1).strm = m.strm ∧
    (m.modTtl x1).luff = m.luff ∧ (m.modTtl x1).hly = m.hly ∧ (m.modTtl x1).tkp = m.tkp ∧ (m.modTtl x1).slc = m.slc ∧
    (m.modTtl x1).part = m.part ∧ (m.modTtl x1).ctx = m.ctx ∧ (m.modTtl x1).ctxCmd = m.ctxCmd ∧ (m.modTtl x1).acc = m.acc ∧
    (m.modTtl x1).reef = m.reef ∧ (m.modTtl x1).hst = m.hst ∧ (m.modTtl x1).eng = m.eng ∧ (m.modTtl x1).msix = m.msix ∧
    (m.modTtl x1).hostMem = m.hostMem ∧ (m.modTtl x1).flash = m.flash ∧ (m.modTtl x1).far = m.far ∧
    (m.modTtl x1).scan = m.scan ∧ (m.modTtl x1).card = m.card ∧ (m.modTtl x1).free = m.free ∧ (m.modTtl x1).out = m.out :=
  ⟨rfl, rfl, rfl, rfl, rfl, rfl, rfl, rfl, rfl, rfl, rfl, rfl, rfl, rfl, rfl, rfl, rfl, rfl, rfl, rfl, rfl, rfl, rfl, rfl, rfl, rfl, rfl, rfl, rfl, rfl, rfl, rfl, rfl, rfl, rfl⟩

@[simp] theorem modSrc_fields (x1 : Nat) (x2 : SrcRec → SrcRec) :
    (m.modSrc x1 x2).pins = m.pins ∧ (m.modSrc x1 x2).fuse = m.fuse ∧ (m.modSrc x1 x2).boot = m.boot ∧
    (m.modSrc x1 x2).time = m.time ∧ (m.modSrc x1 x2).corner = m.corner ∧ (m.modSrc x1 x2).shr = m.shr ∧
    (m.modSrc x1 x2).fwd = m.fwd ∧ (m.modSrc x1 x2).txSeq = m.txSeq ∧ (m.modSrc x1 x2).txn = m.txn ∧
    (m.modSrc x1 x2).coll = m.coll ∧ (m.modSrc x1 x2).collFailed = m.collFailed ∧ (m.modSrc x1 x2).tiles = m.tiles ∧
    (m.modSrc x1 x2).tileMap = m.tileMap ∧ (m.modSrc x1 x2).tilePhys = m.tilePhys ∧ (m.modSrc x1 x2).hbm = m.hbm ∧
    (m.modSrc x1 x2).strm = m.strm ∧ (m.modSrc x1 x2).luff = m.luff ∧ (m.modSrc x1 x2).hly = m.hly ∧
    (m.modSrc x1 x2).tkp = m.tkp ∧ (m.modSrc x1 x2).slc = m.slc ∧ (m.modSrc x1 x2).part = m.part ∧
    (m.modSrc x1 x2).ctx = m.ctx ∧ (m.modSrc x1 x2).ctxCmd = m.ctxCmd ∧ (m.modSrc x1 x2).acc = m.acc ∧
    (m.modSrc x1 x2).reef = m.reef ∧ (m.modSrc x1 x2).hst = m.hst ∧ (m.modSrc x1 x2).eng = m.eng ∧
    (m.modSrc x1 x2).msix = m.msix ∧ (m.modSrc x1 x2).hostMem = m.hostMem ∧ (m.modSrc x1 x2).flash = m.flash ∧
    (m.modSrc x1 x2).far = m.far ∧ (m.modSrc x1 x2).scan = m.scan ∧ (m.modSrc x1 x2).card = m.card ∧
    (m.modSrc x1 x2).free = m.free ∧ (m.modSrc x1 x2).out = m.out :=
  ⟨rfl, rfl, rfl, rfl, rfl, rfl, rfl, rfl, rfl, rfl, rfl, rfl, rfl, rfl, rfl, rfl, rfl, rfl, rfl, rfl, rfl, rfl, rfl, rfl, rfl, rfl, rfl, rfl, rfl, rfl, rfl, rfl, rfl, rfl, rfl⟩

@[simp] theorem modBoot_fields (x1 : Boot → Boot) :
    (m.modBoot x1).pins = m.pins ∧ (m.modBoot x1).fuse = m.fuse ∧ (m.modBoot x1).time = m.time ∧
    (m.modBoot x1).corner = m.corner ∧ (m.modBoot x1).shr = m.shr ∧ (m.modBoot x1).fwd = m.fwd ∧
    (m.modBoot x1).txSeq = m.txSeq ∧ (m.modBoot x1).txn = m.txn ∧ (m.modBoot x1).coll = m.coll ∧
    (m.modBoot x1).collFailed = m.collFailed ∧ (m.modBoot x1).tiles = m.tiles ∧ (m.modBoot x1).tileMap = m.tileMap ∧
    (m.modBoot x1).tilePhys = m.tilePhys ∧ (m.modBoot x1).hbm = m.hbm ∧ (m.modBoot x1).strm = m.strm ∧
    (m.modBoot x1).luff = m.luff ∧ (m.modBoot x1).hly = m.hly ∧ (m.modBoot x1).tkp = m.tkp ∧ (m.modBoot x1).slc = m.slc ∧
    (m.modBoot x1).part = m.part ∧ (m.modBoot x1).ctx = m.ctx ∧ (m.modBoot x1).ctxCmd = m.ctxCmd ∧
    (m.modBoot x1).ttl = m.ttl ∧ (m.modBoot x1).acc = m.acc ∧ (m.modBoot x1).reef = m.reef ∧ (m.modBoot x1).hst = m.hst ∧
    (m.modBoot x1).eng = m.eng ∧ (m.modBoot x1).msix = m.msix ∧ (m.modBoot x1).hostMem = m.hostMem ∧
    (m.modBoot x1).flash = m.flash ∧ (m.modBoot x1).far = m.far ∧ (m.modBoot x1).scan = m.scan ∧
    (m.modBoot x1).card = m.card ∧ (m.modBoot x1).free = m.free ∧ (m.modBoot x1).out = m.out :=
  ⟨rfl, rfl, rfl, rfl, rfl, rfl, rfl, rfl, rfl, rfl, rfl, rfl, rfl, rfl, rfl, rfl, rfl, rfl, rfl, rfl, rfl, rfl, rfl, rfl, rfl, rfl, rfl, rfl, rfl, rfl, rfl, rfl, rfl, rfl, rfl⟩

@[simp] theorem setStep_fields (x1 : Nat) (x2 : BootSt) :
    (m.setStep x1 x2).pins = m.pins ∧ (m.setStep x1 x2).fuse = m.fuse ∧ (m.setStep x1 x2).time = m.time ∧
    (m.setStep x1 x2).corner = m.corner ∧ (m.setStep x1 x2).shr = m.shr ∧ (m.setStep x1 x2).fwd = m.fwd ∧
    (m.setStep x1 x2).txSeq = m.txSeq ∧ (m.setStep x1 x2).txn = m.txn ∧ (m.setStep x1 x2).coll = m.coll ∧
    (m.setStep x1 x2).collFailed = m.collFailed ∧ (m.setStep x1 x2).tiles = m.tiles ∧
    (m.setStep x1 x2).tileMap = m.tileMap ∧ (m.setStep x1 x2).tilePhys = m.tilePhys ∧ (m.setStep x1 x2).hbm = m.hbm ∧
    (m.setStep x1 x2).strm = m.strm ∧ (m.setStep x1 x2).luff = m.luff ∧ (m.setStep x1 x2).hly = m.hly ∧
    (m.setStep x1 x2).tkp = m.tkp ∧ (m.setStep x1 x2).slc = m.slc ∧ (m.setStep x1 x2).part = m.part ∧
    (m.setStep x1 x2).ctx = m.ctx ∧ (m.setStep x1 x2).ctxCmd = m.ctxCmd ∧ (m.setStep x1 x2).ttl = m.ttl ∧
    (m.setStep x1 x2).acc = m.acc ∧ (m.setStep x1 x2).reef = m.reef ∧ (m.setStep x1 x2).hst = m.hst ∧
    (m.setStep x1 x2).eng = m.eng ∧ (m.setStep x1 x2).msix = m.msix ∧ (m.setStep x1 x2).hostMem = m.hostMem ∧
    (m.setStep x1 x2).flash = m.flash ∧ (m.setStep x1 x2).far = m.far ∧ (m.setStep x1 x2).scan = m.scan ∧
    (m.setStep x1 x2).card = m.card ∧ (m.setStep x1 x2).free = m.free ∧ (m.setStep x1 x2).out = m.out :=
  ⟨rfl, rfl, rfl, rfl, rfl, rfl, rfl, rfl, rfl, rfl, rfl, rfl, rfl, rfl, rfl, rfl, rfl, rfl, rfl, rfl, rfl, rfl, rfl, rfl, rfl, rfl, rfl, rfl, rfl, rfl, rfl, rfl, rfl, rfl, rfl⟩

@[simp] theorem modBcast_fields (x1 : Bcast → Bcast) :
    (m.modBcast x1).pins = m.pins ∧ (m.modBcast x1).fuse = m.fuse ∧ (m.modBcast x1).time = m.time ∧
    (m.modBcast x1).corner = m.corner ∧ (m.modBcast x1).shr = m.shr ∧ (m.modBcast x1).fwd = m.fwd ∧
    (m.modBcast x1).txSeq = m.txSeq ∧ (m.modBcast x1).txn = m.txn ∧ (m.modBcast x1).coll = m.coll ∧
    (m.modBcast x1).collFailed = m.collFailed ∧ (m.modBcast x1).tiles = m.tiles ∧ (m.modBcast x1).tileMap = m.tileMap ∧
    (m.modBcast x1).tilePhys = m.tilePhys ∧ (m.modBcast x1).hbm = m.hbm ∧ (m.modBcast x1).strm = m.strm ∧
    (m.modBcast x1).luff = m.luff ∧ (m.modBcast x1).hly = m.hly ∧ (m.modBcast x1).tkp = m.tkp ∧
    (m.modBcast x1).slc = m.slc ∧ (m.modBcast x1).part = m.part ∧ (m.modBcast x1).ctx = m.ctx ∧
    (m.modBcast x1).ctxCmd = m.ctxCmd ∧ (m.modBcast x1).ttl = m.ttl ∧ (m.modBcast x1).acc = m.acc ∧
    (m.modBcast x1).reef = m.reef ∧ (m.modBcast x1).hst = m.hst ∧ (m.modBcast x1).eng = m.eng ∧
    (m.modBcast x1).msix = m.msix ∧ (m.modBcast x1).hostMem = m.hostMem ∧ (m.modBcast x1).flash = m.flash ∧
    (m.modBcast x1).far = m.far ∧ (m.modBcast x1).scan = m.scan ∧ (m.modBcast x1).card = m.card ∧
    (m.modBcast x1).free = m.free ∧ (m.modBcast x1).out = m.out :=
  ⟨rfl, rfl, rfl, rfl, rfl, rfl, rfl, rfl, rfl, rfl, rfl, rfl, rfl, rfl, rfl, rfl, rfl, rfl, rfl, rfl, rfl, rfl, rfl, rfl, rfl, rfl, rfl, rfl, rfl, rfl, rfl, rfl, rfl, rfl, rfl⟩

@[simp] theorem modTime_fields (x1 : TimeBlk → TimeBlk) :
    (m.modTime x1).pins = m.pins ∧ (m.modTime x1).fuse = m.fuse ∧ (m.modTime x1).boot = m.boot ∧
    (m.modTime x1).corner = m.corner ∧ (m.modTime x1).shr = m.shr ∧ (m.modTime x1).fwd = m.fwd ∧
    (m.modTime x1).txSeq = m.txSeq ∧ (m.modTime x1).txn = m.txn ∧ (m.modTime x1).coll = m.coll ∧
    (m.modTime x1).collFailed = m.collFailed ∧ (m.modTime x1).tiles = m.tiles ∧ (m.modTime x1).tileMap = m.tileMap ∧
    (m.modTime x1).tilePhys = m.tilePhys ∧ (m.modTime x1).hbm = m.hbm ∧ (m.modTime x1).strm = m.strm ∧
    (m.modTime x1).luff = m.luff ∧ (m.modTime x1).hly = m.hly ∧ (m.modTime x1).tkp = m.tkp ∧ (m.modTime x1).slc = m.slc ∧
    (m.modTime x1).part = m.part ∧ (m.modTime x1).ctx = m.ctx ∧ (m.modTime x1).ctxCmd = m.ctxCmd ∧
    (m.modTime x1).ttl = m.ttl ∧ (m.modTime x1).acc = m.acc ∧ (m.modTime x1).reef = m.reef ∧ (m.modTime x1).hst = m.hst ∧
    (m.modTime x1).eng = m.eng ∧ (m.modTime x1).msix = m.msix ∧ (m.modTime x1).hostMem = m.hostMem ∧
    (m.modTime x1).flash = m.flash ∧ (m.modTime x1).far = m.far ∧ (m.modTime x1).scan = m.scan ∧
    (m.modTime x1).card = m.card ∧ (m.modTime x1).free = m.free ∧ (m.modTime x1).out = m.out :=
  ⟨rfl, rfl, rfl, rfl, rfl, rfl, rfl, rfl, rfl, rfl, rfl, rfl, rfl, rfl, rfl, rfl, rfl, rfl, rfl, rfl, rfl, rfl, rfl, rfl, rfl, rfl, rfl, rfl, rfl, rfl, rfl, rfl, rfl, rfl, rfl⟩

@[simp] theorem modHly_fields (x1 : HlyReg → HlyReg) :
    (m.modHly x1).pins = m.pins ∧ (m.modHly x1).fuse = m.fuse ∧ (m.modHly x1).boot = m.boot ∧ (m.modHly x1).time = m.time ∧
    (m.modHly x1).corner = m.corner ∧ (m.modHly x1).shr = m.shr ∧ (m.modHly x1).fwd = m.fwd ∧
    (m.modHly x1).txSeq = m.txSeq ∧ (m.modHly x1).txn = m.txn ∧ (m.modHly x1).coll = m.coll ∧
    (m.modHly x1).collFailed = m.collFailed ∧ (m.modHly x1).tiles = m.tiles ∧ (m.modHly x1).tileMap = m.tileMap ∧
    (m.modHly x1).tilePhys = m.tilePhys ∧ (m.modHly x1).hbm = m.hbm ∧ (m.modHly x1).strm = m.strm ∧
    (m.modHly x1).luff = m.luff ∧ (m.modHly x1).tkp = m.tkp ∧ (m.modHly x1).slc = m.slc ∧ (m.modHly x1).part = m.part ∧
    (m.modHly x1).ctx = m.ctx ∧ (m.modHly x1).ctxCmd = m.ctxCmd ∧ (m.modHly x1).ttl = m.ttl ∧ (m.modHly x1).acc = m.acc ∧
    (m.modHly x1).reef = m.reef ∧ (m.modHly x1).hst = m.hst ∧ (m.modHly x1).eng = m.eng ∧ (m.modHly x1).msix = m.msix ∧
    (m.modHly x1).hostMem = m.hostMem ∧ (m.modHly x1).flash = m.flash ∧ (m.modHly x1).far = m.far ∧
    (m.modHly x1).scan = m.scan ∧ (m.modHly x1).card = m.card ∧ (m.modHly x1).free = m.free ∧ (m.modHly x1).out = m.out :=
  ⟨rfl, rfl, rfl, rfl, rfl, rfl, rfl, rfl, rfl, rfl, rfl, rfl, rfl, rfl, rfl, rfl, rfl, rfl, rfl, rfl, rfl, rfl, rfl, rfl, rfl, rfl, rfl, rfl, rfl, rfl, rfl, rfl, rfl, rfl, rfl⟩

@[simp] theorem modDb_fields (x1 : HlyDb → HlyDb) :
    (m.modDb x1).pins = m.pins ∧ (m.modDb x1).fuse = m.fuse ∧ (m.modDb x1).boot = m.boot ∧ (m.modDb x1).time = m.time ∧
    (m.modDb x1).corner = m.corner ∧ (m.modDb x1).shr = m.shr ∧ (m.modDb x1).fwd = m.fwd ∧ (m.modDb x1).txSeq = m.txSeq ∧
    (m.modDb x1).txn = m.txn ∧ (m.modDb x1).coll = m.coll ∧ (m.modDb x1).collFailed = m.collFailed ∧
    (m.modDb x1).tiles = m.tiles ∧ (m.modDb x1).tileMap = m.tileMap ∧ (m.modDb x1).tilePhys = m.tilePhys ∧
    (m.modDb x1).hbm = m.hbm ∧ (m.modDb x1).strm = m.strm ∧ (m.modDb x1).luff = m.luff ∧ (m.modDb x1).tkp = m.tkp ∧
    (m.modDb x1).slc = m.slc ∧ (m.modDb x1).part = m.part ∧ (m.modDb x1).ctx = m.ctx ∧ (m.modDb x1).ctxCmd = m.ctxCmd ∧
    (m.modDb x1).ttl = m.ttl ∧ (m.modDb x1).acc = m.acc ∧ (m.modDb x1).reef = m.reef ∧ (m.modDb x1).hst = m.hst ∧
    (m.modDb x1).eng = m.eng ∧ (m.modDb x1).msix = m.msix ∧ (m.modDb x1).hostMem = m.hostMem ∧
    (m.modDb x1).flash = m.flash ∧ (m.modDb x1).far = m.far ∧ (m.modDb x1).scan = m.scan ∧ (m.modDb x1).card = m.card ∧
    (m.modDb x1).free = m.free ∧ (m.modDb x1).out = m.out :=
  ⟨rfl, rfl, rfl, rfl, rfl, rfl, rfl, rfl, rfl, rfl, rfl, rfl, rfl, rfl, rfl, rfl, rfl, rfl, rfl, rfl, rfl, rfl, rfl, rfl, rfl, rfl, rfl, rfl, rfl, rfl, rfl, rfl, rfl, rfl, rfl⟩

@[simp] theorem modWork_fields (x1 : EpochWork → EpochWork) :
    (m.modWork x1).pins = m.pins ∧ (m.modWork x1).fuse = m.fuse ∧ (m.modWork x1).boot = m.boot ∧
    (m.modWork x1).time = m.time ∧ (m.modWork x1).corner = m.corner ∧ (m.modWork x1).shr = m.shr ∧
    (m.modWork x1).fwd = m.fwd ∧ (m.modWork x1).txSeq = m.txSeq ∧ (m.modWork x1).txn = m.txn ∧
    (m.modWork x1).coll = m.coll ∧ (m.modWork x1).collFailed = m.collFailed ∧ (m.modWork x1).tiles = m.tiles ∧
    (m.modWork x1).tileMap = m.tileMap ∧ (m.modWork x1).tilePhys = m.tilePhys ∧ (m.modWork x1).hbm = m.hbm ∧
    (m.modWork x1).strm = m.strm ∧ (m.modWork x1).luff = m.luff ∧ (m.modWork x1).tkp = m.tkp ∧ (m.modWork x1).slc = m.slc ∧
    (m.modWork x1).part = m.part ∧ (m.modWork x1).ctx = m.ctx ∧ (m.modWork x1).ctxCmd = m.ctxCmd ∧
    (m.modWork x1).ttl = m.ttl ∧ (m.modWork x1).acc = m.acc ∧ (m.modWork x1).reef = m.reef ∧ (m.modWork x1).hst = m.hst ∧
    (m.modWork x1).eng = m.eng ∧ (m.modWork x1).msix = m.msix ∧ (m.modWork x1).hostMem = m.hostMem ∧
    (m.modWork x1).flash = m.flash ∧ (m.modWork x1).far = m.far ∧ (m.modWork x1).scan = m.scan ∧
    (m.modWork x1).card = m.card ∧ (m.modWork x1).free = m.free ∧ (m.modWork x1).out = m.out :=
  ⟨rfl, rfl, rfl, rfl, rfl, rfl, rfl, rfl, rfl, rfl, rfl, rfl, rfl, rfl, rfl, rfl, rfl, rfl, rfl, rfl, rfl, rfl, rfl, rfl, rfl, rfl, rfl, rfl, rfl, rfl, rfl, rfl, rfl, rfl, rfl⟩

@[simp] theorem setPort_fields (x1 : Nat) (x2 : PortRec) :
    (m.setPort x1 x2).pins = m.pins ∧ (m.setPort x1 x2).fuse = m.fuse ∧ (m.setPort x1 x2).boot = m.boot ∧
    (m.setPort x1 x2).time = m.time ∧ (m.setPort x1 x2).corner = m.corner ∧ (m.setPort x1 x2).fwd = m.fwd ∧
    (m.setPort x1 x2).txSeq = m.txSeq ∧ (m.setPort x1 x2).txn = m.txn ∧ (m.setPort x1 x2).coll = m.coll ∧
    (m.setPort x1 x2).collFailed = m.collFailed ∧ (m.setPort x1 x2).tiles = m.tiles ∧
    (m.setPort x1 x2).tileMap = m.tileMap ∧ (m.setPort x1 x2).tilePhys = m.tilePhys ∧ (m.setPort x1 x2).hbm = m.hbm ∧
    (m.setPort x1 x2).strm = m.strm ∧ (m.setPort x1 x2).luff = m.luff ∧ (m.setPort x1 x2).hly = m.hly ∧
    (m.setPort x1 x2).tkp = m.tkp ∧ (m.setPort x1 x2).slc = m.slc ∧ (m.setPort x1 x2).part = m.part ∧
    (m.setPort x1 x2).ctx = m.ctx ∧ (m.setPort x1 x2).ctxCmd = m.ctxCmd ∧ (m.setPort x1 x2).ttl = m.ttl ∧
    (m.setPort x1 x2).acc = m.acc ∧ (m.setPort x1 x2).reef = m.reef ∧ (m.setPort x1 x2).hst = m.hst ∧
    (m.setPort x1 x2).eng = m.eng ∧ (m.setPort x1 x2).msix = m.msix ∧ (m.setPort x1 x2).hostMem = m.hostMem ∧
    (m.setPort x1 x2).flash = m.flash ∧ (m.setPort x1 x2).far = m.far ∧ (m.setPort x1 x2).scan = m.scan ∧
    (m.setPort x1 x2).card = m.card ∧ (m.setPort x1 x2).free = m.free ∧ (m.setPort x1 x2).out = m.out :=
  ⟨rfl, rfl, rfl, rfl, rfl, rfl, rfl, rfl, rfl, rfl, rfl, rfl, rfl, rfl, rfl, rfl, rfl, rfl, rfl, rfl, rfl, rfl, rfl, rfl, rfl, rfl, rfl, rfl, rfl, rfl, rfl, rfl, rfl, rfl, rfl⟩

@[simp] theorem modPort_fields (x1 : Nat) (x2 : PortRec → PortRec) :
    (m.modPort x1 x2).pins = m.pins ∧ (m.modPort x1 x2).fuse = m.fuse ∧ (m.modPort x1 x2).boot = m.boot ∧
    (m.modPort x1 x2).time = m.time ∧ (m.modPort x1 x2).corner = m.corner ∧ (m.modPort x1 x2).fwd = m.fwd ∧
    (m.modPort x1 x2).txSeq = m.txSeq ∧ (m.modPort x1 x2).txn = m.txn ∧ (m.modPort x1 x2).coll = m.coll ∧
    (m.modPort x1 x2).collFailed = m.collFailed ∧ (m.modPort x1 x2).tiles = m.tiles ∧
    (m.modPort x1 x2).tileMap = m.tileMap ∧ (m.modPort x1 x2).tilePhys = m.tilePhys ∧ (m.modPort x1 x2).hbm = m.hbm ∧
    (m.modPort x1 x2).strm = m.strm ∧ (m.modPort x1 x2).luff = m.luff ∧ (m.modPort x1 x2).hly = m.hly ∧
    (m.modPort x1 x2).tkp = m.tkp ∧ (m.modPort x1 x2).slc = m.slc ∧ (m.modPort x1 x2).part = m.part ∧
    (m.modPort x1 x2).ctx = m.ctx ∧ (m.modPort x1 x2).ctxCmd = m.ctxCmd ∧ (m.modPort x1 x2).ttl = m.ttl ∧
    (m.modPort x1 x2).acc = m.acc ∧ (m.modPort x1 x2).reef = m.reef ∧ (m.modPort x1 x2).hst = m.hst ∧
    (m.modPort x1 x2).eng = m.eng ∧ (m.modPort x1 x2).msix = m.msix ∧ (m.modPort x1 x2).hostMem = m.hostMem ∧
    (m.modPort x1 x2).flash = m.flash ∧ (m.modPort x1 x2).far = m.far ∧ (m.modPort x1 x2).scan = m.scan ∧
    (m.modPort x1 x2).card = m.card ∧ (m.modPort x1 x2).free = m.free ∧ (m.modPort x1 x2).out = m.out :=
  ⟨rfl, rfl, rfl, rfl, rfl, rfl, rfl, rfl, rfl, rfl, rfl, rfl, rfl, rfl, rfl, rfl, rfl, rfl, rfl, rfl, rfl, rfl, rfl, rfl, rfl, rfl, rfl, rfl, rfl, rfl, rfl, rfl, rfl, rfl, rfl⟩

@[simp] theorem setSlice_fields (x1 : Nat) (x2 : SliceRec) :
    (m.setSlice x1 x2).pins = m.pins ∧ (m.setSlice x1 x2).fuse = m.fuse ∧ (m.setSlice x1 x2).boot = m.boot ∧
    (m.setSlice x1 x2).time = m.time ∧ (m.setSlice x1 x2).corner = m.corner ∧ (m.setSlice x1 x2).shr = m.shr ∧
    (m.setSlice x1 x2).fwd = m.fwd ∧ (m.setSlice x1 x2).txSeq = m.txSeq ∧ (m.setSlice x1 x2).txn = m.txn ∧
    (m.setSlice x1 x2).coll = m.coll ∧ (m.setSlice x1 x2).collFailed = m.collFailed ∧ (m.setSlice x1 x2).tiles = m.tiles ∧
    (m.setSlice x1 x2).tileMap = m.tileMap ∧ (m.setSlice x1 x2).tilePhys = m.tilePhys ∧ (m.setSlice x1 x2).hbm = m.hbm ∧
    (m.setSlice x1 x2).strm = m.strm ∧ (m.setSlice x1 x2).luff = m.luff ∧ (m.setSlice x1 x2).hly = m.hly ∧
    (m.setSlice x1 x2).tkp = m.tkp ∧ (m.setSlice x1 x2).part = m.part ∧ (m.setSlice x1 x2).ctx = m.ctx ∧
    (m.setSlice x1 x2).ctxCmd = m.ctxCmd ∧ (m.setSlice x1 x2).ttl = m.ttl ∧ (m.setSlice x1 x2).acc = m.acc ∧
    (m.setSlice x1 x2).reef = m.reef ∧ (m.setSlice x1 x2).hst = m.hst ∧ (m.setSlice x1 x2).eng = m.eng ∧
    (m.setSlice x1 x2).msix = m.msix ∧ (m.setSlice x1 x2).hostMem = m.hostMem ∧ (m.setSlice x1 x2).flash = m.flash ∧
    (m.setSlice x1 x2).far = m.far ∧ (m.setSlice x1 x2).scan = m.scan ∧ (m.setSlice x1 x2).card = m.card ∧
    (m.setSlice x1 x2).free = m.free ∧ (m.setSlice x1 x2).out = m.out :=
  ⟨rfl, rfl, rfl, rfl, rfl, rfl, rfl, rfl, rfl, rfl, rfl, rfl, rfl, rfl, rfl, rfl, rfl, rfl, rfl, rfl, rfl, rfl, rfl, rfl, rfl, rfl, rfl, rfl, rfl, rfl, rfl, rfl, rfl, rfl, rfl⟩

@[simp] theorem modSlice_fields (x1 : Nat) (x2 : SliceRec → SliceRec) :
    (m.modSlice x1 x2).pins = m.pins ∧ (m.modSlice x1 x2).fuse = m.fuse ∧ (m.modSlice x1 x2).boot = m.boot ∧
    (m.modSlice x1 x2).time = m.time ∧ (m.modSlice x1 x2).corner = m.corner ∧ (m.modSlice x1 x2).shr = m.shr ∧
    (m.modSlice x1 x2).fwd = m.fwd ∧ (m.modSlice x1 x2).txSeq = m.txSeq ∧ (m.modSlice x1 x2).txn = m.txn ∧
    (m.modSlice x1 x2).coll = m.coll ∧ (m.modSlice x1 x2).collFailed = m.collFailed ∧ (m.modSlice x1 x2).tiles = m.tiles ∧
    (m.modSlice x1 x2).tileMap = m.tileMap ∧ (m.modSlice x1 x2).tilePhys = m.tilePhys ∧ (m.modSlice x1 x2).hbm = m.hbm ∧
    (m.modSlice x1 x2).strm = m.strm ∧ (m.modSlice x1 x2).luff = m.luff ∧ (m.modSlice x1 x2).hly = m.hly ∧
    (m.modSlice x1 x2).tkp = m.tkp ∧ (m.modSlice x1 x2).part = m.part ∧ (m.modSlice x1 x2).ctx = m.ctx ∧
    (m.modSlice x1 x2).ctxCmd = m.ctxCmd ∧ (m.modSlice x1 x2).ttl = m.ttl ∧ (m.modSlice x1 x2).acc = m.acc ∧
    (m.modSlice x1 x2).reef = m.reef ∧ (m.modSlice x1 x2).hst = m.hst ∧ (m.modSlice x1 x2).eng = m.eng ∧
    (m.modSlice x1 x2).msix = m.msix ∧ (m.modSlice x1 x2).hostMem = m.hostMem ∧ (m.modSlice x1 x2).flash = m.flash ∧
    (m.modSlice x1 x2).far = m.far ∧ (m.modSlice x1 x2).scan = m.scan ∧ (m.modSlice x1 x2).card = m.card ∧
    (m.modSlice x1 x2).free = m.free ∧ (m.modSlice x1 x2).out = m.out :=
  ⟨rfl, rfl, rfl, rfl, rfl, rfl, rfl, rfl, rfl, rfl, rfl, rfl, rfl, rfl, rfl, rfl, rfl, rfl, rfl, rfl, rfl, rfl, rfl, rfl, rfl, rfl, rfl, rfl, rfl, rfl, rfl, rfl, rfl, rfl, rfl⟩

@[simp] theorem setPart_fields (x1 : Nat) (x2 : PartRec) :
    (m.setPart x1 x2).pins = m.pins ∧ (m.setPart x1 x2).fuse = m.fuse ∧ (m.setPart x1 x2).boot = m.boot ∧
    (m.setPart x1 x2).time = m.time ∧ (m.setPart x1 x2).corner = m.corner ∧ (m.setPart x1 x2).shr = m.shr ∧
    (m.setPart x1 x2).fwd = m.fwd ∧ (m.setPart x1 x2).txSeq = m.txSeq ∧ (m.setPart x1 x2).txn = m.txn ∧
    (m.setPart x1 x2).coll = m.coll ∧ (m.setPart x1 x2).collFailed = m.collFailed ∧ (m.setPart x1 x2).tiles = m.tiles ∧
    (m.setPart x1 x2).tileMap = m.tileMap ∧ (m.setPart x1 x2).tilePhys = m.tilePhys ∧ (m.setPart x1 x2).hbm = m.hbm ∧
    (m.setPart x1 x2).strm = m.strm ∧ (m.setPart x1 x2).luff = m.luff ∧ (m.setPart x1 x2).hly = m.hly ∧
    (m.setPart x1 x2).tkp = m.tkp ∧ (m.setPart x1 x2).slc = m.slc ∧ (m.setPart x1 x2).ctx = m.ctx ∧
    (m.setPart x1 x2).ctxCmd = m.ctxCmd ∧ (m.setPart x1 x2).ttl = m.ttl ∧ (m.setPart x1 x2).acc = m.acc ∧
    (m.setPart x1 x2).reef = m.reef ∧ (m.setPart x1 x2).hst = m.hst ∧ (m.setPart x1 x2).eng = m.eng ∧
    (m.setPart x1 x2).msix = m.msix ∧ (m.setPart x1 x2).hostMem = m.hostMem ∧ (m.setPart x1 x2).flash = m.flash ∧
    (m.setPart x1 x2).far = m.far ∧ (m.setPart x1 x2).scan = m.scan ∧ (m.setPart x1 x2).card = m.card ∧
    (m.setPart x1 x2).free = m.free ∧ (m.setPart x1 x2).out = m.out :=
  ⟨rfl, rfl, rfl, rfl, rfl, rfl, rfl, rfl, rfl, rfl, rfl, rfl, rfl, rfl, rfl, rfl, rfl, rfl, rfl, rfl, rfl, rfl, rfl, rfl, rfl, rfl, rfl, rfl, rfl, rfl, rfl, rfl, rfl, rfl, rfl⟩

@[simp] theorem modPart_fields (x1 : Nat) (x2 : PartRec → PartRec) :
    (m.modPart x1 x2).pins = m.pins ∧ (m.modPart x1 x2).fuse = m.fuse ∧ (m.modPart x1 x2).boot = m.boot ∧
    (m.modPart x1 x2).time = m.time ∧ (m.modPart x1 x2).corner = m.corner ∧ (m.modPart x1 x2).shr = m.shr ∧
    (m.modPart x1 x2).fwd = m.fwd ∧ (m.modPart x1 x2).txSeq = m.txSeq ∧ (m.modPart x1 x2).txn = m.txn ∧
    (m.modPart x1 x2).coll = m.coll ∧ (m.modPart x1 x2).collFailed = m.collFailed ∧ (m.modPart x1 x2).tiles = m.tiles ∧
    (m.modPart x1 x2).tileMap = m.tileMap ∧ (m.modPart x1 x2).tilePhys = m.tilePhys ∧ (m.modPart x1 x2).hbm = m.hbm ∧
    (m.modPart x1 x2).strm = m.strm ∧ (m.modPart x1 x2).luff = m.luff ∧ (m.modPart x1 x2).hly = m.hly ∧
    (m.modPart x1 x2).tkp = m.tkp ∧ (m.modPart x1 x2).slc = m.slc ∧ (m.modPart x1 x2).ctx = m.ctx ∧
    (m.modPart x1 x2).ctxCmd = m.ctxCmd ∧ (m.modPart x1 x2).ttl = m.ttl ∧ (m.modPart x1 x2).acc = m.acc ∧
    (m.modPart x1 x2).reef = m.reef ∧ (m.modPart x1 x2).hst = m.hst ∧ (m.modPart x1 x2).eng = m.eng ∧
    (m.modPart x1 x2).msix = m.msix ∧ (m.modPart x1 x2).hostMem = m.hostMem ∧ (m.modPart x1 x2).flash = m.flash ∧
    (m.modPart x1 x2).far = m.far ∧ (m.modPart x1 x2).scan = m.scan ∧ (m.modPart x1 x2).card = m.card ∧
    (m.modPart x1 x2).free = m.free ∧ (m.modPart x1 x2).out = m.out :=
  ⟨rfl, rfl, rfl, rfl, rfl, rfl, rfl, rfl, rfl, rfl, rfl, rfl, rfl, rfl, rfl, rfl, rfl, rfl, rfl, rfl, rfl, rfl, rfl, rfl, rfl, rfl, rfl, rfl, rfl, rfl, rfl, rfl, rfl, rfl, rfl⟩

@[simp] theorem setPhys_fields (x1 : Nat) (x2 : Nat) (x3 : PhysRec) :
    (m.setPhys x1 x2 x3).pins = m.pins ∧ (m.setPhys x1 x2 x3).fuse = m.fuse ∧ (m.setPhys x1 x2 x3).boot = m.boot ∧
    (m.setPhys x1 x2 x3).time = m.time ∧ (m.setPhys x1 x2 x3).corner = m.corner ∧ (m.setPhys x1 x2 x3).shr = m.shr ∧
    (m.setPhys x1 x2 x3).fwd = m.fwd ∧ (m.setPhys x1 x2 x3).txSeq = m.txSeq ∧ (m.setPhys x1 x2 x3).txn = m.txn ∧
    (m.setPhys x1 x2 x3).coll = m.coll ∧ (m.setPhys x1 x2 x3).collFailed = m.collFailed ∧
    (m.setPhys x1 x2 x3).tiles = m.tiles ∧ (m.setPhys x1 x2 x3).tileMap = m.tileMap ∧ (m.setPhys x1 x2 x3).hbm = m.hbm ∧
    (m.setPhys x1 x2 x3).strm = m.strm ∧ (m.setPhys x1 x2 x3).luff = m.luff ∧ (m.setPhys x1 x2 x3).hly = m.hly ∧
    (m.setPhys x1 x2 x3).tkp = m.tkp ∧ (m.setPhys x1 x2 x3).slc = m.slc ∧ (m.setPhys x1 x2 x3).part = m.part ∧
    (m.setPhys x1 x2 x3).ctx = m.ctx ∧ (m.setPhys x1 x2 x3).ctxCmd = m.ctxCmd ∧ (m.setPhys x1 x2 x3).ttl = m.ttl ∧
    (m.setPhys x1 x2 x3).acc = m.acc ∧ (m.setPhys x1 x2 x3).reef = m.reef ∧ (m.setPhys x1 x2 x3).hst = m.hst ∧
    (m.setPhys x1 x2 x3).eng = m.eng ∧ (m.setPhys x1 x2 x3).msix = m.msix ∧ (m.setPhys x1 x2 x3).hostMem = m.hostMem ∧
    (m.setPhys x1 x2 x3).flash = m.flash ∧ (m.setPhys x1 x2 x3).far = m.far ∧ (m.setPhys x1 x2 x3).scan = m.scan ∧
    (m.setPhys x1 x2 x3).card = m.card ∧ (m.setPhys x1 x2 x3).free = m.free ∧ (m.setPhys x1 x2 x3).out = m.out :=
  ⟨rfl, rfl, rfl, rfl, rfl, rfl, rfl, rfl, rfl, rfl, rfl, rfl, rfl, rfl, rfl, rfl, rfl, rfl, rfl, rfl, rfl, rfl, rfl, rfl, rfl, rfl, rfl, rfl, rfl, rfl, rfl, rfl, rfl, rfl, rfl⟩

@[simp] theorem modRdie_fields (x1 : Nat) (x2 : ReefDie → ReefDie) :
    (m.modRdie x1 x2).pins = m.pins ∧ (m.modRdie x1 x2).fuse = m.fuse ∧ (m.modRdie x1 x2).boot = m.boot ∧
    (m.modRdie x1 x2).time = m.time ∧ (m.modRdie x1 x2).corner = m.corner ∧ (m.modRdie x1 x2).shr = m.shr ∧
    (m.modRdie x1 x2).fwd = m.fwd ∧ (m.modRdie x1 x2).txSeq = m.txSeq ∧ (m.modRdie x1 x2).txn = m.txn ∧
    (m.modRdie x1 x2).coll = m.coll ∧ (m.modRdie x1 x2).collFailed = m.collFailed ∧ (m.modRdie x1 x2).tiles = m.tiles ∧
    (m.modRdie x1 x2).tileMap = m.tileMap ∧ (m.modRdie x1 x2).tilePhys = m.tilePhys ∧ (m.modRdie x1 x2).hbm = m.hbm ∧
    (m.modRdie x1 x2).strm = m.strm ∧ (m.modRdie x1 x2).luff = m.luff ∧ (m.modRdie x1 x2).hly = m.hly ∧
    (m.modRdie x1 x2).tkp = m.tkp ∧ (m.modRdie x1 x2).slc = m.slc ∧ (m.modRdie x1 x2).part = m.part ∧
    (m.modRdie x1 x2).ctx = m.ctx ∧ (m.modRdie x1 x2).ctxCmd = m.ctxCmd ∧ (m.modRdie x1 x2).ttl = m.ttl ∧
    (m.modRdie x1 x2).acc = m.acc ∧ (m.modRdie x1 x2).hst = m.hst ∧ (m.modRdie x1 x2).eng = m.eng ∧
    (m.modRdie x1 x2).msix = m.msix ∧ (m.modRdie x1 x2).hostMem = m.hostMem ∧ (m.modRdie x1 x2).flash = m.flash ∧
    (m.modRdie x1 x2).far = m.far ∧ (m.modRdie x1 x2).scan = m.scan ∧ (m.modRdie x1 x2).card = m.card ∧
    (m.modRdie x1 x2).free = m.free ∧ (m.modRdie x1 x2).out = m.out :=
  ⟨rfl, rfl, rfl, rfl, rfl, rfl, rfl, rfl, rfl, rfl, rfl, rfl, rfl, rfl, rfl, rfl, rfl, rfl, rfl, rfl, rfl, rfl, rfl, rfl, rfl, rfl, rfl, rfl, rfl, rfl, rfl, rfl, rfl, rfl, rfl⟩

@[simp] theorem modRpart_fields (x1 : Nat) (x2 : ReefPart → ReefPart) :
    (m.modRpart x1 x2).pins = m.pins ∧ (m.modRpart x1 x2).fuse = m.fuse ∧ (m.modRpart x1 x2).boot = m.boot ∧
    (m.modRpart x1 x2).time = m.time ∧ (m.modRpart x1 x2).corner = m.corner ∧ (m.modRpart x1 x2).shr = m.shr ∧
    (m.modRpart x1 x2).fwd = m.fwd ∧ (m.modRpart x1 x2).txSeq = m.txSeq ∧ (m.modRpart x1 x2).txn = m.txn ∧
    (m.modRpart x1 x2).coll = m.coll ∧ (m.modRpart x1 x2).collFailed = m.collFailed ∧ (m.modRpart x1 x2).tiles = m.tiles ∧
    (m.modRpart x1 x2).tileMap = m.tileMap ∧ (m.modRpart x1 x2).tilePhys = m.tilePhys ∧ (m.modRpart x1 x2).hbm = m.hbm ∧
    (m.modRpart x1 x2).strm = m.strm ∧ (m.modRpart x1 x2).luff = m.luff ∧ (m.modRpart x1 x2).hly = m.hly ∧
    (m.modRpart x1 x2).tkp = m.tkp ∧ (m.modRpart x1 x2).slc = m.slc ∧ (m.modRpart x1 x2).part = m.part ∧
    (m.modRpart x1 x2).ctx = m.ctx ∧ (m.modRpart x1 x2).ctxCmd = m.ctxCmd ∧ (m.modRpart x1 x2).ttl = m.ttl ∧
    (m.modRpart x1 x2).acc = m.acc ∧ (m.modRpart x1 x2).hst = m.hst ∧ (m.modRpart x1 x2).eng = m.eng ∧
    (m.modRpart x1 x2).msix = m.msix ∧ (m.modRpart x1 x2).hostMem = m.hostMem ∧ (m.modRpart x1 x2).flash = m.flash ∧
    (m.modRpart x1 x2).far = m.far ∧ (m.modRpart x1 x2).scan = m.scan ∧ (m.modRpart x1 x2).card = m.card ∧
    (m.modRpart x1 x2).free = m.free ∧ (m.modRpart x1 x2).out = m.out :=
  ⟨rfl, rfl, rfl, rfl, rfl, rfl, rfl, rfl, rfl, rfl, rfl, rfl, rfl, rfl, rfl, rfl, rfl, rfl, rfl, rfl, rfl, rfl, rfl, rfl, rfl, rfl, rfl, rfl, rfl, rfl, rfl, rfl, rfl, rfl, rfl⟩

@[simp] theorem modReef_fields (x1 : Reef → Reef) :
    (m.modReef x1).pins = m.pins ∧ (m.modReef x1).fuse = m.fuse ∧ (m.modReef x1).boot = m.boot ∧
    (m.modReef x1).time = m.time ∧ (m.modReef x1).corner = m.corner ∧ (m.modReef x1).shr = m.shr ∧
    (m.modReef x1).fwd = m.fwd ∧ (m.modReef x1).txSeq = m.txSeq ∧ (m.modReef x1).txn = m.txn ∧
    (m.modReef x1).coll = m.coll ∧ (m.modReef x1).collFailed = m.collFailed ∧ (m.modReef x1).tiles = m.tiles ∧
    (m.modReef x1).tileMap = m.tileMap ∧ (m.modReef x1).tilePhys = m.tilePhys ∧ (m.modReef x1).hbm = m.hbm ∧
    (m.modReef x1).strm = m.strm ∧ (m.modReef x1).luff = m.luff ∧ (m.modReef x1).hly = m.hly ∧ (m.modReef x1).tkp = m.tkp ∧
    (m.modReef x1).slc = m.slc ∧ (m.modReef x1).part = m.part ∧ (m.modReef x1).ctx = m.ctx ∧
    (m.modReef x1).ctxCmd = m.ctxCmd ∧ (m.modReef x1).ttl = m.ttl ∧ (m.modReef x1).acc = m.acc ∧
    (m.modReef x1).hst = m.hst ∧ (m.modReef x1).eng = m.eng ∧ (m.modReef x1).msix = m.msix ∧
    (m.modReef x1).hostMem = m.hostMem ∧ (m.modReef x1).flash = m.flash ∧ (m.modReef x1).far = m.far ∧
    (m.modReef x1).scan = m.scan ∧ (m.modReef x1).card = m.card ∧ (m.modReef x1).free = m.free ∧
    (m.modReef x1).out = m.out :=
  ⟨rfl, rfl, rfl, rfl, rfl, rfl, rfl, rfl, rfl, rfl, rfl, rfl, rfl, rfl, rfl, rfl, rfl, rfl, rfl, rfl, rfl, rfl, rfl, rfl, rfl, rfl, rfl, rfl, rfl, rfl, rfl, rfl, rfl, rfl, rfl⟩

@[simp] theorem setCtx_fields (x1 : Nat) (x2 : CtxRec) :
    (m.setCtx x1 x2).pins = m.pins ∧ (m.setCtx x1 x2).fuse = m.fuse ∧ (m.setCtx x1 x2).boot = m.boot ∧
    (m.setCtx x1 x2).time = m.time ∧ (m.setCtx x1 x2).corner = m.corner ∧ (m.setCtx x1 x2).shr = m.shr ∧
    (m.setCtx x1 x2).fwd = m.fwd ∧ (m.setCtx x1 x2).txSeq = m.txSeq ∧ (m.setCtx x1 x2).txn = m.txn ∧
    (m.setCtx x1 x2).coll = m.coll ∧ (m.setCtx x1 x2).collFailed = m.collFailed ∧ (m.setCtx x1 x2).tiles = m.tiles ∧
    (m.setCtx x1 x2).tileMap = m.tileMap ∧ (m.setCtx x1 x2).tilePhys = m.tilePhys ∧ (m.setCtx x1 x2).hbm = m.hbm ∧
    (m.setCtx x1 x2).strm = m.strm ∧ (m.setCtx x1 x2).luff = m.luff ∧ (m.setCtx x1 x2).hly = m.hly ∧
    (m.setCtx x1 x2).tkp = m.tkp ∧ (m.setCtx x1 x2).slc = m.slc ∧ (m.setCtx x1 x2).part = m.part ∧
    (m.setCtx x1 x2).ctxCmd = m.ctxCmd ∧ (m.setCtx x1 x2).ttl = m.ttl ∧ (m.setCtx x1 x2).acc = m.acc ∧
    (m.setCtx x1 x2).reef = m.reef ∧ (m.setCtx x1 x2).hst = m.hst ∧ (m.setCtx x1 x2).eng = m.eng ∧
    (m.setCtx x1 x2).msix = m.msix ∧ (m.setCtx x1 x2).hostMem = m.hostMem ∧ (m.setCtx x1 x2).flash = m.flash ∧
    (m.setCtx x1 x2).far = m.far ∧ (m.setCtx x1 x2).scan = m.scan ∧ (m.setCtx x1 x2).card = m.card ∧
    (m.setCtx x1 x2).free = m.free ∧ (m.setCtx x1 x2).out = m.out :=
  ⟨rfl, rfl, rfl, rfl, rfl, rfl, rfl, rfl, rfl, rfl, rfl, rfl, rfl, rfl, rfl, rfl, rfl, rfl, rfl, rfl, rfl, rfl, rfl, rfl, rfl, rfl, rfl, rfl, rfl, rfl, rfl, rfl, rfl, rfl, rfl⟩

@[simp] theorem modCtx_fields (x1 : Nat) (x2 : CtxRec → CtxRec) :
    (m.modCtx x1 x2).pins = m.pins ∧ (m.modCtx x1 x2).fuse = m.fuse ∧ (m.modCtx x1 x2).boot = m.boot ∧
    (m.modCtx x1 x2).time = m.time ∧ (m.modCtx x1 x2).corner = m.corner ∧ (m.modCtx x1 x2).shr = m.shr ∧
    (m.modCtx x1 x2).fwd = m.fwd ∧ (m.modCtx x1 x2).txSeq = m.txSeq ∧ (m.modCtx x1 x2).txn = m.txn ∧
    (m.modCtx x1 x2).coll = m.coll ∧ (m.modCtx x1 x2).collFailed = m.collFailed ∧ (m.modCtx x1 x2).tiles = m.tiles ∧
    (m.modCtx x1 x2).tileMap = m.tileMap ∧ (m.modCtx x1 x2).tilePhys = m.tilePhys ∧ (m.modCtx x1 x2).hbm = m.hbm ∧
    (m.modCtx x1 x2).strm = m.strm ∧ (m.modCtx x1 x2).luff = m.luff ∧ (m.modCtx x1 x2).hly = m.hly ∧
    (m.modCtx x1 x2).tkp = m.tkp ∧ (m.modCtx x1 x2).slc = m.slc ∧ (m.modCtx x1 x2).part = m.part ∧
    (m.modCtx x1 x2).ctxCmd = m.ctxCmd ∧ (m.modCtx x1 x2).ttl = m.ttl ∧ (m.modCtx x1 x2).acc = m.acc ∧
    (m.modCtx x1 x2).reef = m.reef ∧ (m.modCtx x1 x2).hst = m.hst ∧ (m.modCtx x1 x2).eng = m.eng ∧
    (m.modCtx x1 x2).msix = m.msix ∧ (m.modCtx x1 x2).hostMem = m.hostMem ∧ (m.modCtx x1 x2).flash = m.flash ∧
    (m.modCtx x1 x2).far = m.far ∧ (m.modCtx x1 x2).scan = m.scan ∧ (m.modCtx x1 x2).card = m.card ∧
    (m.modCtx x1 x2).free = m.free ∧ (m.modCtx x1 x2).out = m.out :=
  ⟨rfl, rfl, rfl, rfl, rfl, rfl, rfl, rfl, rfl, rfl, rfl, rfl, rfl, rfl, rfl, rfl, rfl, rfl, rfl, rfl, rfl, rfl, rfl, rfl, rfl, rfl, rfl, rfl, rfl, rfl, rfl, rfl, rfl, rfl, rfl⟩

@[simp] theorem modBase_fields (x1 : Nat) (x2 : CtxBase → CtxBase) :
    (m.modBase x1 x2).pins = m.pins ∧ (m.modBase x1 x2).fuse = m.fuse ∧ (m.modBase x1 x2).boot = m.boot ∧
    (m.modBase x1 x2).time = m.time ∧ (m.modBase x1 x2).corner = m.corner ∧ (m.modBase x1 x2).shr = m.shr ∧
    (m.modBase x1 x2).fwd = m.fwd ∧ (m.modBase x1 x2).txSeq = m.txSeq ∧ (m.modBase x1 x2).txn = m.txn ∧
    (m.modBase x1 x2).coll = m.coll ∧ (m.modBase x1 x2).collFailed = m.collFailed ∧ (m.modBase x1 x2).tiles = m.tiles ∧
    (m.modBase x1 x2).tileMap = m.tileMap ∧ (m.modBase x1 x2).tilePhys = m.tilePhys ∧ (m.modBase x1 x2).hbm = m.hbm ∧
    (m.modBase x1 x2).strm = m.strm ∧ (m.modBase x1 x2).luff = m.luff ∧ (m.modBase x1 x2).hly = m.hly ∧
    (m.modBase x1 x2).tkp = m.tkp ∧ (m.modBase x1 x2).slc = m.slc ∧ (m.modBase x1 x2).part = m.part ∧
    (m.modBase x1 x2).ctxCmd = m.ctxCmd ∧ (m.modBase x1 x2).ttl = m.ttl ∧ (m.modBase x1 x2).acc = m.acc ∧
    (m.modBase x1 x2).reef = m.reef ∧ (m.modBase x1 x2).hst = m.hst ∧ (m.modBase x1 x2).eng = m.eng ∧
    (m.modBase x1 x2).msix = m.msix ∧ (m.modBase x1 x2).hostMem = m.hostMem ∧ (m.modBase x1 x2).flash = m.flash ∧
    (m.modBase x1 x2).far = m.far ∧ (m.modBase x1 x2).scan = m.scan ∧ (m.modBase x1 x2).card = m.card ∧
    (m.modBase x1 x2).free = m.free ∧ (m.modBase x1 x2).out = m.out :=
  ⟨rfl, rfl, rfl, rfl, rfl, rfl, rfl, rfl, rfl, rfl, rfl, rfl, rfl, rfl, rfl, rfl, rfl, rfl, rfl, rfl, rfl, rfl, rfl, rfl, rfl, rfl, rfl, rfl, rfl, rfl, rfl, rfl, rfl, rfl, rfl⟩

@[simp] theorem modXc_fields (x1 : Nat) (x2 : Xc → Xc) :
    (m.modXc x1 x2).pins = m.pins ∧ (m.modXc x1 x2).fuse = m.fuse ∧ (m.modXc x1 x2).boot = m.boot ∧
    (m.modXc x1 x2).time = m.time ∧ (m.modXc x1 x2).corner = m.corner ∧ (m.modXc x1 x2).shr = m.shr ∧
    (m.modXc x1 x2).fwd = m.fwd ∧ (m.modXc x1 x2).txSeq = m.txSeq ∧ (m.modXc x1 x2).txn = m.txn ∧
    (m.modXc x1 x2).coll = m.coll ∧ (m.modXc x1 x2).collFailed = m.collFailed ∧ (m.modXc x1 x2).tiles = m.tiles ∧
    (m.modXc x1 x2).tileMap = m.tileMap ∧ (m.modXc x1 x2).tilePhys = m.tilePhys ∧ (m.modXc x1 x2).hbm = m.hbm ∧
    (m.modXc x1 x2).strm = m.strm ∧ (m.modXc x1 x2).luff = m.luff ∧ (m.modXc x1 x2).hly = m.hly ∧
    (m.modXc x1 x2).tkp = m.tkp ∧ (m.modXc x1 x2).slc = m.slc ∧ (m.modXc x1 x2).part = m.part ∧
    (m.modXc x1 x2).ctxCmd = m.ctxCmd ∧ (m.modXc x1 x2).ttl = m.ttl ∧ (m.modXc x1 x2).acc = m.acc ∧
    (m.modXc x1 x2).reef = m.reef ∧ (m.modXc x1 x2).hst = m.hst ∧ (m.modXc x1 x2).eng = m.eng ∧
    (m.modXc x1 x2).msix = m.msix ∧ (m.modXc x1 x2).hostMem = m.hostMem ∧ (m.modXc x1 x2).flash = m.flash ∧
    (m.modXc x1 x2).far = m.far ∧ (m.modXc x1 x2).scan = m.scan ∧ (m.modXc x1 x2).card = m.card ∧
    (m.modXc x1 x2).free = m.free ∧ (m.modXc x1 x2).out = m.out :=
  ⟨rfl, rfl, rfl, rfl, rfl, rfl, rfl, rfl, rfl, rfl, rfl, rfl, rfl, rfl, rfl, rfl, rfl, rfl, rfl, rfl, rfl, rfl, rfl, rfl, rfl, rfl, rfl, rfl, rfl, rfl, rfl, rfl, rfl, rfl, rfl⟩

@[simp] theorem modQueue_fields (x1 : Nat) (x2 : Nat) (x3 : CeQueue → CeQueue) :
    (m.modQueue x1 x2 x3).pins = m.pins ∧ (m.modQueue x1 x2 x3).fuse = m.fuse ∧ (m.modQueue x1 x2 x3).boot = m.boot ∧
    (m.modQueue x1 x2 x3).time = m.time ∧ (m.modQueue x1 x2 x3).corner = m.corner ∧ (m.modQueue x1 x2 x3).shr = m.shr ∧
    (m.modQueue x1 x2 x3).fwd = m.fwd ∧ (m.modQueue x1 x2 x3).txSeq = m.txSeq ∧ (m.modQueue x1 x2 x3).txn = m.txn ∧
    (m.modQueue x1 x2 x3).coll = m.coll ∧ (m.modQueue x1 x2 x3).collFailed = m.collFailed ∧
    (m.modQueue x1 x2 x3).tiles = m.tiles ∧ (m.modQueue x1 x2 x3).tileMap = m.tileMap ∧
    (m.modQueue x1 x2 x3).tilePhys = m.tilePhys ∧ (m.modQueue x1 x2 x3).hbm = m.hbm ∧ (m.modQueue x1 x2 x3).strm = m.strm ∧
    (m.modQueue x1 x2 x3).luff = m.luff ∧ (m.modQueue x1 x2 x3).hly = m.hly ∧ (m.modQueue x1 x2 x3).tkp = m.tkp ∧
    (m.modQueue x1 x2 x3).slc = m.slc ∧ (m.modQueue x1 x2 x3).part = m.part ∧ (m.modQueue x1 x2 x3).ctxCmd = m.ctxCmd ∧
    (m.modQueue x1 x2 x3).ttl = m.ttl ∧ (m.modQueue x1 x2 x3).acc = m.acc ∧ (m.modQueue x1 x2 x3).reef = m.reef ∧
    (m.modQueue x1 x2 x3).hst = m.hst ∧ (m.modQueue x1 x2 x3).eng = m.eng ∧ (m.modQueue x1 x2 x3).msix = m.msix ∧
    (m.modQueue x1 x2 x3).hostMem = m.hostMem ∧ (m.modQueue x1 x2 x3).flash = m.flash ∧ (m.modQueue x1 x2 x3).far = m.far ∧
    (m.modQueue x1 x2 x3).scan = m.scan ∧ (m.modQueue x1 x2 x3).card = m.card ∧ (m.modQueue x1 x2 x3).free = m.free ∧
    (m.modQueue x1 x2 x3).out = m.out :=
  ⟨rfl, rfl, rfl, rfl, rfl, rfl, rfl, rfl, rfl, rfl, rfl, rfl, rfl, rfl, rfl, rfl, rfl, rfl, rfl, rfl, rfl, rfl, rfl, rfl, rfl, rfl, rfl, rfl, rfl, rfl, rfl, rfl, rfl, rfl, rfl⟩

@[simp] theorem modCmd_fields (x1 : Nat) (x2 : Nat) (x3 : CeCmd → CeCmd) :
    (m.modCmd x1 x2 x3).pins = m.pins ∧ (m.modCmd x1 x2 x3).fuse = m.fuse ∧ (m.modCmd x1 x2 x3).boot = m.boot ∧
    (m.modCmd x1 x2 x3).time = m.time ∧ (m.modCmd x1 x2 x3).corner = m.corner ∧ (m.modCmd x1 x2 x3).shr = m.shr ∧
    (m.modCmd x1 x2 x3).fwd = m.fwd ∧ (m.modCmd x1 x2 x3).txSeq = m.txSeq ∧ (m.modCmd x1 x2 x3).txn = m.txn ∧
    (m.modCmd x1 x2 x3).coll = m.coll ∧ (m.modCmd x1 x2 x3).collFailed = m.collFailed ∧
    (m.modCmd x1 x2 x3).tiles = m.tiles ∧ (m.modCmd x1 x2 x3).tileMap = m.tileMap ∧
    (m.modCmd x1 x2 x3).tilePhys = m.tilePhys ∧ (m.modCmd x1 x2 x3).hbm = m.hbm ∧ (m.modCmd x1 x2 x3).strm = m.strm ∧
    (m.modCmd x1 x2 x3).luff = m.luff ∧ (m.modCmd x1 x2 x3).hly = m.hly ∧ (m.modCmd x1 x2 x3).tkp = m.tkp ∧
    (m.modCmd x1 x2 x3).slc = m.slc ∧ (m.modCmd x1 x2 x3).part = m.part ∧ (m.modCmd x1 x2 x3).ctxCmd = m.ctxCmd ∧
    (m.modCmd x1 x2 x3).ttl = m.ttl ∧ (m.modCmd x1 x2 x3).acc = m.acc ∧ (m.modCmd x1 x2 x3).reef = m.reef ∧
    (m.modCmd x1 x2 x3).hst = m.hst ∧ (m.modCmd x1 x2 x3).eng = m.eng ∧ (m.modCmd x1 x2 x3).msix = m.msix ∧
    (m.modCmd x1 x2 x3).hostMem = m.hostMem ∧ (m.modCmd x1 x2 x3).flash = m.flash ∧ (m.modCmd x1 x2 x3).far = m.far ∧
    (m.modCmd x1 x2 x3).scan = m.scan ∧ (m.modCmd x1 x2 x3).card = m.card ∧ (m.modCmd x1 x2 x3).free = m.free ∧
    (m.modCmd x1 x2 x3).out = m.out :=
  ⟨rfl, rfl, rfl, rfl, rfl, rfl, rfl, rfl, rfl, rfl, rfl, rfl, rfl, rfl, rfl, rfl, rfl, rfl, rfl, rfl, rfl, rfl, rfl, rfl, rfl, rfl, rfl, rfl, rfl, rfl, rfl, rfl, rfl, rfl, rfl⟩

@[simp] theorem modEngine_fields (x1 : Nat) (x2 : CeEng → CeEng) :
    (m.modEngine x1 x2).pins = m.pins ∧ (m.modEngine x1 x2).fuse = m.fuse ∧ (m.modEngine x1 x2).boot = m.boot ∧
    (m.modEngine x1 x2).time = m.time ∧ (m.modEngine x1 x2).corner = m.corner ∧ (m.modEngine x1 x2).shr = m.shr ∧
    (m.modEngine x1 x2).fwd = m.fwd ∧ (m.modEngine x1 x2).txSeq = m.txSeq ∧ (m.modEngine x1 x2).txn = m.txn ∧
    (m.modEngine x1 x2).coll = m.coll ∧ (m.modEngine x1 x2).collFailed = m.collFailed ∧
    (m.modEngine x1 x2).tiles = m.tiles ∧ (m.modEngine x1 x2).tileMap = m.tileMap ∧
    (m.modEngine x1 x2).tilePhys = m.tilePhys ∧ (m.modEngine x1 x2).hbm = m.hbm ∧ (m.modEngine x1 x2).strm = m.strm ∧
    (m.modEngine x1 x2).luff = m.luff ∧ (m.modEngine x1 x2).hly = m.hly ∧ (m.modEngine x1 x2).tkp = m.tkp ∧
    (m.modEngine x1 x2).slc = m.slc ∧ (m.modEngine x1 x2).part = m.part ∧ (m.modEngine x1 x2).ctx = m.ctx ∧
    (m.modEngine x1 x2).ctxCmd = m.ctxCmd ∧ (m.modEngine x1 x2).ttl = m.ttl ∧ (m.modEngine x1 x2).acc = m.acc ∧
    (m.modEngine x1 x2).reef = m.reef ∧ (m.modEngine x1 x2).hst = m.hst ∧ (m.modEngine x1 x2).msix = m.msix ∧
    (m.modEngine x1 x2).hostMem = m.hostMem ∧ (m.modEngine x1 x2).flash = m.flash ∧ (m.modEngine x1 x2).far = m.far ∧
    (m.modEngine x1 x2).scan = m.scan ∧ (m.modEngine x1 x2).card = m.card ∧ (m.modEngine x1 x2).free = m.free ∧
    (m.modEngine x1 x2).out = m.out :=
  ⟨rfl, rfl, rfl, rfl, rfl, rfl, rfl, rfl, rfl, rfl, rfl, rfl, rfl, rfl, rfl, rfl, rfl, rfl, rfl, rfl, rfl, rfl, rfl, rfl, rfl, rfl, rfl, rfl, rfl, rfl, rfl, rfl, rfl, rfl, rfl⟩

@[simp] theorem setFwd_fields (x1 : Nat) (x2 : FwdRec) :
    (m.setFwd x1 x2).pins = m.pins ∧ (m.setFwd x1 x2).fuse = m.fuse ∧ (m.setFwd x1 x2).boot = m.boot ∧
    (m.setFwd x1 x2).time = m.time ∧ (m.setFwd x1 x2).corner = m.corner ∧ (m.setFwd x1 x2).shr = m.shr ∧
    (m.setFwd x1 x2).txSeq = m.txSeq ∧ (m.setFwd x1 x2).txn = m.txn ∧ (m.setFwd x1 x2).coll = m.coll ∧
    (m.setFwd x1 x2).collFailed = m.collFailed ∧ (m.setFwd x1 x2).tiles = m.tiles ∧ (m.setFwd x1 x2).tileMap = m.tileMap ∧
    (m.setFwd x1 x2).tilePhys = m.tilePhys ∧ (m.setFwd x1 x2).hbm = m.hbm ∧ (m.setFwd x1 x2).strm = m.strm ∧
    (m.setFwd x1 x2).luff = m.luff ∧ (m.setFwd x1 x2).hly = m.hly ∧ (m.setFwd x1 x2).tkp = m.tkp ∧
    (m.setFwd x1 x2).slc = m.slc ∧ (m.setFwd x1 x2).part = m.part ∧ (m.setFwd x1 x2).ctx = m.ctx ∧
    (m.setFwd x1 x2).ctxCmd = m.ctxCmd ∧ (m.setFwd x1 x2).ttl = m.ttl ∧ (m.setFwd x1 x2).acc = m.acc ∧
    (m.setFwd x1 x2).reef = m.reef ∧ (m.setFwd x1 x2).hst = m.hst ∧ (m.setFwd x1 x2).eng = m.eng ∧
    (m.setFwd x1 x2).msix = m.msix ∧ (m.setFwd x1 x2).hostMem = m.hostMem ∧ (m.setFwd x1 x2).flash = m.flash ∧
    (m.setFwd x1 x2).far = m.far ∧ (m.setFwd x1 x2).scan = m.scan ∧ (m.setFwd x1 x2).card = m.card ∧
    (m.setFwd x1 x2).free = m.free ∧ (m.setFwd x1 x2).out = m.out :=
  ⟨rfl, rfl, rfl, rfl, rfl, rfl, rfl, rfl, rfl, rfl, rfl, rfl, rfl, rfl, rfl, rfl, rfl, rfl, rfl, rfl, rfl, rfl, rfl, rfl, rfl, rfl, rfl, rfl, rfl, rfl, rfl, rfl, rfl, rfl, rfl⟩

@[simp] theorem modFwd_fields (x1 : Nat) (x2 : FwdRec → FwdRec) :
    (m.modFwd x1 x2).pins = m.pins ∧ (m.modFwd x1 x2).fuse = m.fuse ∧ (m.modFwd x1 x2).boot = m.boot ∧
    (m.modFwd x1 x2).time = m.time ∧ (m.modFwd x1 x2).corner = m.corner ∧ (m.modFwd x1 x2).shr = m.shr ∧
    (m.modFwd x1 x2).txSeq = m.txSeq ∧ (m.modFwd x1 x2).txn = m.txn ∧ (m.modFwd x1 x2).coll = m.coll ∧
    (m.modFwd x1 x2).collFailed = m.collFailed ∧ (m.modFwd x1 x2).tiles = m.tiles ∧ (m.modFwd x1 x2).tileMap = m.tileMap ∧
    (m.modFwd x1 x2).tilePhys = m.tilePhys ∧ (m.modFwd x1 x2).hbm = m.hbm ∧ (m.modFwd x1 x2).strm = m.strm ∧
    (m.modFwd x1 x2).luff = m.luff ∧ (m.modFwd x1 x2).hly = m.hly ∧ (m.modFwd x1 x2).tkp = m.tkp ∧
    (m.modFwd x1 x2).slc = m.slc ∧ (m.modFwd x1 x2).part = m.part ∧ (m.modFwd x1 x2).ctx = m.ctx ∧
    (m.modFwd x1 x2).ctxCmd = m.ctxCmd ∧ (m.modFwd x1 x2).ttl = m.ttl ∧ (m.modFwd x1 x2).acc = m.acc ∧
    (m.modFwd x1 x2).reef = m.reef ∧ (m.modFwd x1 x2).hst = m.hst ∧ (m.modFwd x1 x2).eng = m.eng ∧
    (m.modFwd x1 x2).msix = m.msix ∧ (m.modFwd x1 x2).hostMem = m.hostMem ∧ (m.modFwd x1 x2).flash = m.flash ∧
    (m.modFwd x1 x2).far = m.far ∧ (m.modFwd x1 x2).scan = m.scan ∧ (m.modFwd x1 x2).card = m.card ∧
    (m.modFwd x1 x2).free = m.free ∧ (m.modFwd x1 x2).out = m.out :=
  ⟨rfl, rfl, rfl, rfl, rfl, rfl, rfl, rfl, rfl, rfl, rfl, rfl, rfl, rfl, rfl, rfl, rfl, rfl, rfl, rfl, rfl, rfl, rfl, rfl, rfl, rfl, rfl, rfl, rfl, rfl, rfl, rfl, rfl, rfl, rfl⟩

@[simp] theorem modFwdCnt_fields (x1 : Nat) (x2 : FwdCnt → FwdCnt) :
    (m.modFwdCnt x1 x2).pins = m.pins ∧ (m.modFwdCnt x1 x2).fuse = m.fuse ∧ (m.modFwdCnt x1 x2).boot = m.boot ∧
    (m.modFwdCnt x1 x2).time = m.time ∧ (m.modFwdCnt x1 x2).corner = m.corner ∧ (m.modFwdCnt x1 x2).shr = m.shr ∧
    (m.modFwdCnt x1 x2).txSeq = m.txSeq ∧ (m.modFwdCnt x1 x2).txn = m.txn ∧ (m.modFwdCnt x1 x2).coll = m.coll ∧
    (m.modFwdCnt x1 x2).collFailed = m.collFailed ∧ (m.modFwdCnt x1 x2).tiles = m.tiles ∧
    (m.modFwdCnt x1 x2).tileMap = m.tileMap ∧ (m.modFwdCnt x1 x2).tilePhys = m.tilePhys ∧ (m.modFwdCnt x1 x2).hbm = m.hbm ∧
    (m.modFwdCnt x1 x2).strm = m.strm ∧ (m.modFwdCnt x1 x2).luff = m.luff ∧ (m.modFwdCnt x1 x2).hly = m.hly ∧
    (m.modFwdCnt x1 x2).tkp = m.tkp ∧ (m.modFwdCnt x1 x2).slc = m.slc ∧ (m.modFwdCnt x1 x2).part = m.part ∧
    (m.modFwdCnt x1 x2).ctx = m.ctx ∧ (m.modFwdCnt x1 x2).ctxCmd = m.ctxCmd ∧ (m.modFwdCnt x1 x2).ttl = m.ttl ∧
    (m.modFwdCnt x1 x2).acc = m.acc ∧ (m.modFwdCnt x1 x2).reef = m.reef ∧ (m.modFwdCnt x1 x2).hst = m.hst ∧
    (m.modFwdCnt x1 x2).eng = m.eng ∧ (m.modFwdCnt x1 x2).msix = m.msix ∧ (m.modFwdCnt x1 x2).hostMem = m.hostMem ∧
    (m.modFwdCnt x1 x2).flash = m.flash ∧ (m.modFwdCnt x1 x2).far = m.far ∧ (m.modFwdCnt x1 x2).scan = m.scan ∧
    (m.modFwdCnt x1 x2).card = m.card ∧ (m.modFwdCnt x1 x2).free = m.free ∧ (m.modFwdCnt x1 x2).out = m.out :=
  ⟨rfl, rfl, rfl, rfl, rfl, rfl, rfl, rfl, rfl, rfl, rfl, rfl, rfl, rfl, rfl, rfl, rfl, rfl, rfl, rfl, rfl, rfl, rfl, rfl, rfl, rfl, rfl, rfl, rfl, rfl, rfl, rfl, rfl, rfl, rfl⟩

@[simp] theorem setStrm_fields (x1 : Nat) (x2 : StreamRec) :
    (m.setStrm x1 x2).pins = m.pins ∧ (m.setStrm x1 x2).fuse = m.fuse ∧ (m.setStrm x1 x2).boot = m.boot ∧
    (m.setStrm x1 x2).time = m.time ∧ (m.setStrm x1 x2).corner = m.corner ∧ (m.setStrm x1 x2).shr = m.shr ∧
    (m.setStrm x1 x2).fwd = m.fwd ∧ (m.setStrm x1 x2).txSeq = m.txSeq ∧ (m.setStrm x1 x2).txn = m.txn ∧
    (m.setStrm x1 x2).coll = m.coll ∧ (m.setStrm x1 x2).collFailed = m.collFailed ∧ (m.setStrm x1 x2).tiles = m.tiles ∧
    (m.setStrm x1 x2).tileMap = m.tileMap ∧ (m.setStrm x1 x2).tilePhys = m.tilePhys ∧ (m.setStrm x1 x2).hbm = m.hbm ∧
    (m.setStrm x1 x2).luff = m.luff ∧ (m.setStrm x1 x2).hly = m.hly ∧ (m.setStrm x1 x2).tkp = m.tkp ∧
    (m.setStrm x1 x2).slc = m.slc ∧ (m.setStrm x1 x2).part = m.part ∧ (m.setStrm x1 x2).ctx = m.ctx ∧
    (m.setStrm x1 x2).ctxCmd = m.ctxCmd ∧ (m.setStrm x1 x2).ttl = m.ttl ∧ (m.setStrm x1 x2).acc = m.acc ∧
    (m.setStrm x1 x2).reef = m.reef ∧ (m.setStrm x1 x2).hst = m.hst ∧ (m.setStrm x1 x2).eng = m.eng ∧
    (m.setStrm x1 x2).msix = m.msix ∧ (m.setStrm x1 x2).hostMem = m.hostMem ∧ (m.setStrm x1 x2).flash = m.flash ∧
    (m.setStrm x1 x2).far = m.far ∧ (m.setStrm x1 x2).scan = m.scan ∧ (m.setStrm x1 x2).card = m.card ∧
    (m.setStrm x1 x2).free = m.free ∧ (m.setStrm x1 x2).out = m.out :=
  ⟨rfl, rfl, rfl, rfl, rfl, rfl, rfl, rfl, rfl, rfl, rfl, rfl, rfl, rfl, rfl, rfl, rfl, rfl, rfl, rfl, rfl, rfl, rfl, rfl, rfl, rfl, rfl, rfl, rfl, rfl, rfl, rfl, rfl, rfl, rfl⟩

@[simp] theorem modStrm_fields (x1 : Nat) (x2 : StreamRec → StreamRec) :
    (m.modStrm x1 x2).pins = m.pins ∧ (m.modStrm x1 x2).fuse = m.fuse ∧ (m.modStrm x1 x2).boot = m.boot ∧
    (m.modStrm x1 x2).time = m.time ∧ (m.modStrm x1 x2).corner = m.corner ∧ (m.modStrm x1 x2).shr = m.shr ∧
    (m.modStrm x1 x2).fwd = m.fwd ∧ (m.modStrm x1 x2).txSeq = m.txSeq ∧ (m.modStrm x1 x2).txn = m.txn ∧
    (m.modStrm x1 x2).coll = m.coll ∧ (m.modStrm x1 x2).collFailed = m.collFailed ∧ (m.modStrm x1 x2).tiles = m.tiles ∧
    (m.modStrm x1 x2).tileMap = m.tileMap ∧ (m.modStrm x1 x2).tilePhys = m.tilePhys ∧ (m.modStrm x1 x2).hbm = m.hbm ∧
    (m.modStrm x1 x2).luff = m.luff ∧ (m.modStrm x1 x2).hly = m.hly ∧ (m.modStrm x1 x2).tkp = m.tkp ∧
    (m.modStrm x1 x2).slc = m.slc ∧ (m.modStrm x1 x2).part = m.part ∧ (m.modStrm x1 x2).ctx = m.ctx ∧
    (m.modStrm x1 x2).ctxCmd = m.ctxCmd ∧ (m.modStrm x1 x2).ttl = m.ttl ∧ (m.modStrm x1 x2).acc = m.acc ∧
    (m.modStrm x1 x2).reef = m.reef ∧ (m.modStrm x1 x2).hst = m.hst ∧ (m.modStrm x1 x2).eng = m.eng ∧
    (m.modStrm x1 x2).msix = m.msix ∧ (m.modStrm x1 x2).hostMem = m.hostMem ∧ (m.modStrm x1 x2).flash = m.flash ∧
    (m.modStrm x1 x2).far = m.far ∧ (m.modStrm x1 x2).scan = m.scan ∧ (m.modStrm x1 x2).card = m.card ∧
    (m.modStrm x1 x2).free = m.free ∧ (m.modStrm x1 x2).out = m.out :=
  ⟨rfl, rfl, rfl, rfl, rfl, rfl, rfl, rfl, rfl, rfl, rfl, rfl, rfl, rfl, rfl, rfl, rfl, rfl, rfl, rfl, rfl, rfl, rfl, rfl, rfl, rfl, rfl, rfl, rfl, rfl, rfl, rfl, rfl, rfl, rfl⟩

@[simp] theorem setColl_fields (x1 : Nat) (x2 : Option CollRec) :
    (m.setColl x1 x2).pins = m.pins ∧ (m.setColl x1 x2).fuse = m.fuse ∧ (m.setColl x1 x2).boot = m.boot ∧
    (m.setColl x1 x2).time = m.time ∧ (m.setColl x1 x2).corner = m.corner ∧ (m.setColl x1 x2).shr = m.shr ∧
    (m.setColl x1 x2).fwd = m.fwd ∧ (m.setColl x1 x2).txSeq = m.txSeq ∧ (m.setColl x1 x2).txn = m.txn ∧
    (m.setColl x1 x2).collFailed = m.collFailed ∧ (m.setColl x1 x2).tiles = m.tiles ∧
    (m.setColl x1 x2).tileMap = m.tileMap ∧ (m.setColl x1 x2).tilePhys = m.tilePhys ∧ (m.setColl x1 x2).hbm = m.hbm ∧
    (m.setColl x1 x2).strm = m.strm ∧ (m.setColl x1 x2).luff = m.luff ∧ (m.setColl x1 x2).hly = m.hly ∧
    (m.setColl x1 x2).tkp = m.tkp ∧ (m.setColl x1 x2).slc = m.slc ∧ (m.setColl x1 x2).part = m.part ∧
    (m.setColl x1 x2).ctx = m.ctx ∧ (m.setColl x1 x2).ctxCmd = m.ctxCmd ∧ (m.setColl x1 x2).ttl = m.ttl ∧
    (m.setColl x1 x2).acc = m.acc ∧ (m.setColl x1 x2).reef = m.reef ∧ (m.setColl x1 x2).hst = m.hst ∧
    (m.setColl x1 x2).eng = m.eng ∧ (m.setColl x1 x2).msix = m.msix ∧ (m.setColl x1 x2).hostMem = m.hostMem ∧
    (m.setColl x1 x2).flash = m.flash ∧ (m.setColl x1 x2).far = m.far ∧ (m.setColl x1 x2).scan = m.scan ∧
    (m.setColl x1 x2).card = m.card ∧ (m.setColl x1 x2).free = m.free ∧ (m.setColl x1 x2).out = m.out :=
  ⟨rfl, rfl, rfl, rfl, rfl, rfl, rfl, rfl, rfl, rfl, rfl, rfl, rfl, rfl, rfl, rfl, rfl, rfl, rfl, rfl, rfl, rfl, rfl, rfl, rfl, rfl, rfl, rfl, rfl, rfl, rfl, rfl, rfl, rfl, rfl⟩

@[simp] theorem setTile_fields (x1 : Nat) (x2 : TileRec) :
    (m.setTile x1 x2).pins = m.pins ∧ (m.setTile x1 x2).fuse = m.fuse ∧ (m.setTile x1 x2).boot = m.boot ∧
    (m.setTile x1 x2).time = m.time ∧ (m.setTile x1 x2).corner = m.corner ∧ (m.setTile x1 x2).shr = m.shr ∧
    (m.setTile x1 x2).fwd = m.fwd ∧ (m.setTile x1 x2).txSeq = m.txSeq ∧ (m.setTile x1 x2).txn = m.txn ∧
    (m.setTile x1 x2).coll = m.coll ∧ (m.setTile x1 x2).collFailed = m.collFailed ∧ (m.setTile x1 x2).tileMap = m.tileMap ∧
    (m.setTile x1 x2).tilePhys = m.tilePhys ∧ (m.setTile x1 x2).hbm = m.hbm ∧ (m.setTile x1 x2).strm = m.strm ∧
    (m.setTile x1 x2).luff = m.luff ∧ (m.setTile x1 x2).hly = m.hly ∧ (m.setTile x1 x2).tkp = m.tkp ∧
    (m.setTile x1 x2).slc = m.slc ∧ (m.setTile x1 x2).part = m.part ∧ (m.setTile x1 x2).ctx = m.ctx ∧
    (m.setTile x1 x2).ctxCmd = m.ctxCmd ∧ (m.setTile x1 x2).ttl = m.ttl ∧ (m.setTile x1 x2).acc = m.acc ∧
    (m.setTile x1 x2).reef = m.reef ∧ (m.setTile x1 x2).hst = m.hst ∧ (m.setTile x1 x2).eng = m.eng ∧
    (m.setTile x1 x2).msix = m.msix ∧ (m.setTile x1 x2).hostMem = m.hostMem ∧ (m.setTile x1 x2).flash = m.flash ∧
    (m.setTile x1 x2).far = m.far ∧ (m.setTile x1 x2).scan = m.scan ∧ (m.setTile x1 x2).card = m.card ∧
    (m.setTile x1 x2).free = m.free ∧ (m.setTile x1 x2).out = m.out :=
  ⟨rfl, rfl, rfl, rfl, rfl, rfl, rfl, rfl, rfl, rfl, rfl, rfl, rfl, rfl, rfl, rfl, rfl, rfl, rfl, rfl, rfl, rfl, rfl, rfl, rfl, rfl, rfl, rfl, rfl, rfl, rfl, rfl, rfl, rfl, rfl⟩

@[simp] theorem modTile_fields (x1 : Nat) (x2 : TileRec → TileRec) :
    (m.modTile x1 x2).pins = m.pins ∧ (m.modTile x1 x2).fuse = m.fuse ∧ (m.modTile x1 x2).boot = m.boot ∧
    (m.modTile x1 x2).time = m.time ∧ (m.modTile x1 x2).corner = m.corner ∧ (m.modTile x1 x2).shr = m.shr ∧
    (m.modTile x1 x2).fwd = m.fwd ∧ (m.modTile x1 x2).txSeq = m.txSeq ∧ (m.modTile x1 x2).txn = m.txn ∧
    (m.modTile x1 x2).coll = m.coll ∧ (m.modTile x1 x2).collFailed = m.collFailed ∧ (m.modTile x1 x2).tileMap = m.tileMap ∧
    (m.modTile x1 x2).tilePhys = m.tilePhys ∧ (m.modTile x1 x2).hbm = m.hbm ∧ (m.modTile x1 x2).strm = m.strm ∧
    (m.modTile x1 x2).luff = m.luff ∧ (m.modTile x1 x2).hly = m.hly ∧ (m.modTile x1 x2).tkp = m.tkp ∧
    (m.modTile x1 x2).slc = m.slc ∧ (m.modTile x1 x2).part = m.part ∧ (m.modTile x1 x2).ctx = m.ctx ∧
    (m.modTile x1 x2).ctxCmd = m.ctxCmd ∧ (m.modTile x1 x2).ttl = m.ttl ∧ (m.modTile x1 x2).acc = m.acc ∧
    (m.modTile x1 x2).reef = m.reef ∧ (m.modTile x1 x2).hst = m.hst ∧ (m.modTile x1 x2).eng = m.eng ∧
    (m.modTile x1 x2).msix = m.msix ∧ (m.modTile x1 x2).hostMem = m.hostMem ∧ (m.modTile x1 x2).flash = m.flash ∧
    (m.modTile x1 x2).far = m.far ∧ (m.modTile x1 x2).scan = m.scan ∧ (m.modTile x1 x2).card = m.card ∧
    (m.modTile x1 x2).free = m.free ∧ (m.modTile x1 x2).out = m.out :=
  ⟨rfl, rfl, rfl, rfl, rfl, rfl, rfl, rfl, rfl, rfl, rfl, rfl, rfl, rfl, rfl, rfl, rfl, rfl, rfl, rfl, rfl, rfl, rfl, rfl, rfl, rfl, rfl, rfl, rfl, rfl, rfl, rfl, rfl, rfl, rfl⟩

@[simp] theorem accErr_fields (x1 : Nat) (x2 : Nat) (x3 : Nat) :
    (m.accErr x1 x2 x3).pins = m.pins ∧ (m.accErr x1 x2 x3).fuse = m.fuse ∧ (m.accErr x1 x2 x3).boot = m.boot ∧
    (m.accErr x1 x2 x3).time = m.time ∧ (m.accErr x1 x2 x3).corner = m.corner ∧ (m.accErr x1 x2 x3).shr = m.shr ∧
    (m.accErr x1 x2 x3).fwd = m.fwd ∧ (m.accErr x1 x2 x3).txSeq = m.txSeq ∧ (m.accErr x1 x2 x3).txn = m.txn ∧
    (m.accErr x1 x2 x3).coll = m.coll ∧ (m.accErr x1 x2 x3).collFailed = m.collFailed ∧
    (m.accErr x1 x2 x3).tiles = m.tiles ∧ (m.accErr x1 x2 x3).tileMap = m.tileMap ∧
    (m.accErr x1 x2 x3).tilePhys = m.tilePhys ∧ (m.accErr x1 x2 x3).hbm = m.hbm ∧ (m.accErr x1 x2 x3).strm = m.strm ∧
    (m.accErr x1 x2 x3).luff = m.luff ∧ (m.accErr x1 x2 x3).hly = m.hly ∧ (m.accErr x1 x2 x3).tkp = m.tkp ∧
    (m.accErr x1 x2 x3).slc = m.slc ∧ (m.accErr x1 x2 x3).part = m.part ∧ (m.accErr x1 x2 x3).ctx = m.ctx ∧
    (m.accErr x1 x2 x3).ctxCmd = m.ctxCmd ∧ (m.accErr x1 x2 x3).ttl = m.ttl ∧ (m.accErr x1 x2 x3).reef = m.reef ∧
    (m.accErr x1 x2 x3).hst = m.hst ∧ (m.accErr x1 x2 x3).eng = m.eng ∧ (m.accErr x1 x2 x3).msix = m.msix ∧
    (m.accErr x1 x2 x3).hostMem = m.hostMem ∧ (m.accErr x1 x2 x3).flash = m.flash ∧ (m.accErr x1 x2 x3).far = m.far ∧
    (m.accErr x1 x2 x3).scan = m.scan ∧ (m.accErr x1 x2 x3).card = m.card ∧ (m.accErr x1 x2 x3).free = m.free ∧
    (m.accErr x1 x2 x3).out = m.out :=
  ⟨rfl, rfl, rfl, rfl, rfl, rfl, rfl, rfl, rfl, rfl, rfl, rfl, rfl, rfl, rfl, rfl, rfl, rfl, rfl, rfl, rfl, rfl, rfl, rfl, rfl, rfl, rfl, rfl, rfl, rfl, rfl, rfl, rfl, rfl, rfl⟩

@[simp] theorem modFar_fields (x1 : Farnis → Farnis) :
    (m.modFar x1).pins = m.pins ∧ (m.modFar x1).fuse = m.fuse ∧ (m.modFar x1).boot = m.boot ∧ (m.modFar x1).time = m.time ∧
    (m.modFar x1).corner = m.corner ∧ (m.modFar x1).shr = m.shr ∧ (m.modFar x1).fwd = m.fwd ∧
    (m.modFar x1).txSeq = m.txSeq ∧ (m.modFar x1).txn = m.txn ∧ (m.modFar x1).coll = m.coll ∧
    (m.modFar x1).collFailed = m.collFailed ∧ (m.modFar x1).tiles = m.tiles ∧ (m.modFar x1).tileMap = m.tileMap ∧
    (m.modFar x1).tilePhys = m.tilePhys ∧ (m.modFar x1).hbm = m.hbm ∧ (m.modFar x1).strm = m.strm ∧
    (m.modFar x1).luff = m.luff ∧ (m.modFar x1).hly = m.hly ∧ (m.modFar x1).tkp = m.tkp ∧ (m.modFar x1).slc = m.slc ∧
    (m.modFar x1).part = m.part ∧ (m.modFar x1).ctx = m.ctx ∧ (m.modFar x1).ctxCmd = m.ctxCmd ∧ (m.modFar x1).ttl = m.ttl ∧
    (m.modFar x1).acc = m.acc ∧ (m.modFar x1).reef = m.reef ∧ (m.modFar x1).hst = m.hst ∧ (m.modFar x1).eng = m.eng ∧
    (m.modFar x1).msix = m.msix ∧ (m.modFar x1).hostMem = m.hostMem ∧ (m.modFar x1).flash = m.flash ∧
    (m.modFar x1).scan = m.scan ∧ (m.modFar x1).card = m.card ∧ (m.modFar x1).free = m.free ∧ (m.modFar x1).out = m.out :=
  ⟨rfl, rfl, rfl, rfl, rfl, rfl, rfl, rfl, rfl, rfl, rfl, rfl, rfl, rfl, rfl, rfl, rfl, rfl, rfl, rfl, rfl, rfl, rfl, rfl, rfl, rfl, rfl, rfl, rfl, rfl, rfl, rfl, rfl, rfl, rfl⟩

@[simp] theorem modSite_fields (x1 : Nat) (x2 : SiteRec → SiteRec) :
    (m.modSite x1 x2).pins = m.pins ∧ (m.modSite x1 x2).fuse = m.fuse ∧ (m.modSite x1 x2).boot = m.boot ∧
    (m.modSite x1 x2).time = m.time ∧ (m.modSite x1 x2).corner = m.corner ∧ (m.modSite x1 x2).shr = m.shr ∧
    (m.modSite x1 x2).fwd = m.fwd ∧ (m.modSite x1 x2).txSeq = m.txSeq ∧ (m.modSite x1 x2).txn = m.txn ∧
    (m.modSite x1 x2).coll = m.coll ∧ (m.modSite x1 x2).collFailed = m.collFailed ∧ (m.modSite x1 x2).tiles = m.tiles ∧
    (m.modSite x1 x2).tileMap = m.tileMap ∧ (m.modSite x1 x2).tilePhys = m.tilePhys ∧ (m.modSite x1 x2).hbm = m.hbm ∧
    (m.modSite x1 x2).strm = m.strm ∧ (m.modSite x1 x2).luff = m.luff ∧ (m.modSite x1 x2).hly = m.hly ∧
    (m.modSite x1 x2).tkp = m.tkp ∧ (m.modSite x1 x2).slc = m.slc ∧ (m.modSite x1 x2).part = m.part ∧
    (m.modSite x1 x2).ctx = m.ctx ∧ (m.modSite x1 x2).ctxCmd = m.ctxCmd ∧ (m.modSite x1 x2).ttl = m.ttl ∧
    (m.modSite x1 x2).acc = m.acc ∧ (m.modSite x1 x2).reef = m.reef ∧ (m.modSite x1 x2).hst = m.hst ∧
    (m.modSite x1 x2).eng = m.eng ∧ (m.modSite x1 x2).msix = m.msix ∧ (m.modSite x1 x2).hostMem = m.hostMem ∧
    (m.modSite x1 x2).flash = m.flash ∧ (m.modSite x1 x2).scan = m.scan ∧ (m.modSite x1 x2).card = m.card ∧
    (m.modSite x1 x2).free = m.free ∧ (m.modSite x1 x2).out = m.out :=
  ⟨rfl, rfl, rfl, rfl, rfl, rfl, rfl, rfl, rfl, rfl, rfl, rfl, rfl, rfl, rfl, rfl, rfl, rfl, rfl, rfl, rfl, rfl, rfl, rfl, rfl, rfl, rfl, rfl, rfl, rfl, rfl, rfl, rfl, rfl, rfl⟩

@[simp] theorem modLuff_fields (x1 : Luff → Luff) :
    (m.modLuff x1).pins = m.pins ∧ (m.modLuff x1).fuse = m.fuse ∧ (m.modLuff x1).boot = m.boot ∧
    (m.modLuff x1).time = m.time ∧ (m.modLuff x1).corner = m.corner ∧ (m.modLuff x1).shr = m.shr ∧
    (m.modLuff x1).fwd = m.fwd ∧ (m.modLuff x1).txSeq = m.txSeq ∧ (m.modLuff x1).txn = m.txn ∧
    (m.modLuff x1).coll = m.coll ∧ (m.modLuff x1).collFailed = m.collFailed ∧ (m.modLuff x1).tiles = m.tiles ∧
    (m.modLuff x1).tileMap = m.tileMap ∧ (m.modLuff x1).tilePhys = m.tilePhys ∧ (m.modLuff x1).hbm = m.hbm ∧
    (m.modLuff x1).strm = m.strm ∧ (m.modLuff x1).hly = m.hly ∧ (m.modLuff x1).tkp = m.tkp ∧ (m.modLuff x1).slc = m.slc ∧
    (m.modLuff x1).part = m.part ∧ (m.modLuff x1).ctx = m.ctx ∧ (m.modLuff x1).ctxCmd = m.ctxCmd ∧
    (m.modLuff x1).ttl = m.ttl ∧ (m.modLuff x1).acc = m.acc ∧ (m.modLuff x1).reef = m.reef ∧ (m.modLuff x1).hst = m.hst ∧
    (m.modLuff x1).eng = m.eng ∧ (m.modLuff x1).msix = m.msix ∧ (m.modLuff x1).hostMem = m.hostMem ∧
    (m.modLuff x1).flash = m.flash ∧ (m.modLuff x1).far = m.far ∧ (m.modLuff x1).scan = m.scan ∧
    (m.modLuff x1).card = m.card ∧ (m.modLuff x1).free = m.free ∧ (m.modLuff x1).out = m.out :=
  ⟨rfl, rfl, rfl, rfl, rfl, rfl, rfl, rfl, rfl, rfl, rfl, rfl, rfl, rfl, rfl, rfl, rfl, rfl, rfl, rfl, rfl, rfl, rfl, rfl, rfl, rfl, rfl, rfl, rfl, rfl, rfl, rfl, rfl, rfl, rfl⟩

@[simp] theorem modWatch_fields (x1 : Nat) (x2 : Watch → Watch) :
    (m.modWatch x1 x2).pins = m.pins ∧ (m.modWatch x1 x2).fuse = m.fuse ∧ (m.modWatch x1 x2).boot = m.boot ∧
    (m.modWatch x1 x2).time = m.time ∧ (m.modWatch x1 x2).corner = m.corner ∧ (m.modWatch x1 x2).shr = m.shr ∧
    (m.modWatch x1 x2).fwd = m.fwd ∧ (m.modWatch x1 x2).txSeq = m.txSeq ∧ (m.modWatch x1 x2).txn = m.txn ∧
    (m.modWatch x1 x2).coll = m.coll ∧ (m.modWatch x1 x2).collFailed = m.collFailed ∧ (m.modWatch x1 x2).tiles = m.tiles ∧
    (m.modWatch x1 x2).tileMap = m.tileMap ∧ (m.modWatch x1 x2).tilePhys = m.tilePhys ∧ (m.modWatch x1 x2).hbm = m.hbm ∧
    (m.modWatch x1 x2).strm = m.strm ∧ (m.modWatch x1 x2).luff = m.luff ∧ (m.modWatch x1 x2).hly = m.hly ∧
    (m.modWatch x1 x2).tkp = m.tkp ∧ (m.modWatch x1 x2).slc = m.slc ∧ (m.modWatch x1 x2).part = m.part ∧
    (m.modWatch x1 x2).ctx = m.ctx ∧ (m.modWatch x1 x2).ctxCmd = m.ctxCmd ∧ (m.modWatch x1 x2).ttl = m.ttl ∧
    (m.modWatch x1 x2).acc = m.acc ∧ (m.modWatch x1 x2).reef = m.reef ∧ (m.modWatch x1 x2).eng = m.eng ∧
    (m.modWatch x1 x2).msix = m.msix ∧ (m.modWatch x1 x2).hostMem = m.hostMem ∧ (m.modWatch x1 x2).flash = m.flash ∧
    (m.modWatch x1 x2).far = m.far ∧ (m.modWatch x1 x2).scan = m.scan ∧ (m.modWatch x1 x2).card = m.card ∧
    (m.modWatch x1 x2).free = m.free ∧ (m.modWatch x1 x2).out = m.out :=
  ⟨rfl, rfl, rfl, rfl, rfl, rfl, rfl, rfl, rfl, rfl, rfl, rfl, rfl, rfl, rfl, rfl, rfl, rfl, rfl, rfl, rfl, rfl, rfl, rfl, rfl, rfl, rfl, rfl, rfl, rfl, rfl, rfl, rfl, rfl, rfl⟩

@[simp] theorem hostWrite_fields (x1 : Nat) (x2 : List Byte) :
    (m.hostWrite x1 x2).pins = m.pins ∧ (m.hostWrite x1 x2).fuse = m.fuse ∧ (m.hostWrite x1 x2).boot = m.boot ∧
    (m.hostWrite x1 x2).time = m.time ∧ (m.hostWrite x1 x2).corner = m.corner ∧ (m.hostWrite x1 x2).shr = m.shr ∧
    (m.hostWrite x1 x2).fwd = m.fwd ∧ (m.hostWrite x1 x2).txSeq = m.txSeq ∧ (m.hostWrite x1 x2).txn = m.txn ∧
    (m.hostWrite x1 x2).coll = m.coll ∧ (m.hostWrite x1 x2).collFailed = m.collFailed ∧
    (m.hostWrite x1 x2).tiles = m.tiles ∧ (m.hostWrite x1 x2).tileMap = m.tileMap ∧
    (m.hostWrite x1 x2).tilePhys = m.tilePhys ∧ (m.hostWrite x1 x2).hbm = m.hbm ∧ (m.hostWrite x1 x2).strm = m.strm ∧
    (m.hostWrite x1 x2).luff = m.luff ∧ (m.hostWrite x1 x2).hly = m.hly ∧ (m.hostWrite x1 x2).tkp = m.tkp ∧
    (m.hostWrite x1 x2).slc = m.slc ∧ (m.hostWrite x1 x2).part = m.part ∧ (m.hostWrite x1 x2).ctx = m.ctx ∧
    (m.hostWrite x1 x2).ctxCmd = m.ctxCmd ∧ (m.hostWrite x1 x2).ttl = m.ttl ∧ (m.hostWrite x1 x2).acc = m.acc ∧
    (m.hostWrite x1 x2).reef = m.reef ∧ (m.hostWrite x1 x2).hst = m.hst ∧ (m.hostWrite x1 x2).eng = m.eng ∧
    (m.hostWrite x1 x2).msix = m.msix ∧ (m.hostWrite x1 x2).flash = m.flash ∧ (m.hostWrite x1 x2).far = m.far ∧
    (m.hostWrite x1 x2).scan = m.scan ∧ (m.hostWrite x1 x2).card = m.card ∧ (m.hostWrite x1 x2).free = m.free ∧
    (m.hostWrite x1 x2).out = m.out :=
  ⟨rfl, rfl, rfl, rfl, rfl, rfl, rfl, rfl, rfl, rfl, rfl, rfl, rfl, rfl, rfl, rfl, rfl, rfl, rfl, rfl, rfl, rfl, rfl, rfl, rfl, rfl, rfl, rfl, rfl, rfl, rfl, rfl, rfl, rfl, rfl⟩

@[simp] theorem hostStores_fields (x1 : Cells) :
    (m.hostStores x1).pins = m.pins ∧ (m.hostStores x1).fuse = m.fuse ∧ (m.hostStores x1).boot = m.boot ∧
    (m.hostStores x1).time = m.time ∧ (m.hostStores x1).corner = m.corner ∧ (m.hostStores x1).shr = m.shr ∧
    (m.hostStores x1).fwd = m.fwd ∧ (m.hostStores x1).txSeq = m.txSeq ∧ (m.hostStores x1).txn = m.txn ∧
    (m.hostStores x1).coll = m.coll ∧ (m.hostStores x1).collFailed = m.collFailed ∧ (m.hostStores x1).tiles = m.tiles ∧
    (m.hostStores x1).tileMap = m.tileMap ∧ (m.hostStores x1).tilePhys = m.tilePhys ∧ (m.hostStores x1).hbm = m.hbm ∧
    (m.hostStores x1).strm = m.strm ∧ (m.hostStores x1).luff = m.luff ∧ (m.hostStores x1).hly = m.hly ∧
    (m.hostStores x1).tkp = m.tkp ∧ (m.hostStores x1).slc = m.slc ∧ (m.hostStores x1).part = m.part ∧
    (m.hostStores x1).ctx = m.ctx ∧ (m.hostStores x1).ctxCmd = m.ctxCmd ∧ (m.hostStores x1).ttl = m.ttl ∧
    (m.hostStores x1).acc = m.acc ∧ (m.hostStores x1).reef = m.reef ∧ (m.hostStores x1).hst = m.hst ∧
    (m.hostStores x1).eng = m.eng ∧ (m.hostStores x1).msix = m.msix ∧ (m.hostStores x1).flash = m.flash ∧
    (m.hostStores x1).far = m.far ∧ (m.hostStores x1).scan = m.scan ∧ (m.hostStores x1).card = m.card ∧
    (m.hostStores x1).free = m.free ∧ (m.hostStores x1).out = m.out :=
  ⟨rfl, rfl, rfl, rfl, rfl, rfl, rfl, rfl, rfl, rfl, rfl, rfl, rfl, rfl, rfl, rfl, rfl, rfl, rfl, rfl, rfl, rfl, rfl, rfl, rfl, rfl, rfl, rfl, rfl, rfl, rfl, rfl, rfl, rfl, rfl⟩

@[simp] theorem hbmWrite_fields (x1 : Nat) (x2 : List Byte) :
    (m.hbmWrite x1 x2).pins = m.pins ∧ (m.hbmWrite x1 x2).fuse = m.fuse ∧ (m.hbmWrite x1 x2).boot = m.boot ∧
    (m.hbmWrite x1 x2).time = m.time ∧ (m.hbmWrite x1 x2).corner = m.corner ∧ (m.hbmWrite x1 x2).shr = m.shr ∧
    (m.hbmWrite x1 x2).fwd = m.fwd ∧ (m.hbmWrite x1 x2).txSeq = m.txSeq ∧ (m.hbmWrite x1 x2).txn = m.txn ∧
    (m.hbmWrite x1 x2).coll = m.coll ∧ (m.hbmWrite x1 x2).collFailed = m.collFailed ∧ (m.hbmWrite x1 x2).tiles = m.tiles ∧
    (m.hbmWrite x1 x2).tileMap = m.tileMap ∧ (m.hbmWrite x1 x2).tilePhys = m.tilePhys ∧ (m.hbmWrite x1 x2).strm = m.strm ∧
    (m.hbmWrite x1 x2).luff = m.luff ∧ (m.hbmWrite x1 x2).hly = m.hly ∧ (m.hbmWrite x1 x2).tkp = m.tkp ∧
    (m.hbmWrite x1 x2).slc = m.slc ∧ (m.hbmWrite x1 x2).part = m.part ∧ (m.hbmWrite x1 x2).ctx = m.ctx ∧
    (m.hbmWrite x1 x2).ctxCmd = m.ctxCmd ∧ (m.hbmWrite x1 x2).ttl = m.ttl ∧ (m.hbmWrite x1 x2).acc = m.acc ∧
    (m.hbmWrite x1 x2).reef = m.reef ∧ (m.hbmWrite x1 x2).hst = m.hst ∧ (m.hbmWrite x1 x2).eng = m.eng ∧
    (m.hbmWrite x1 x2).msix = m.msix ∧ (m.hbmWrite x1 x2).hostMem = m.hostMem ∧ (m.hbmWrite x1 x2).flash = m.flash ∧
    (m.hbmWrite x1 x2).far = m.far ∧ (m.hbmWrite x1 x2).scan = m.scan ∧ (m.hbmWrite x1 x2).card = m.card ∧
    (m.hbmWrite x1 x2).free = m.free ∧ (m.hbmWrite x1 x2).out = m.out :=
  ⟨rfl, rfl, rfl, rfl, rfl, rfl, rfl, rfl, rfl, rfl, rfl, rfl, rfl, rfl, rfl, rfl, rfl, rfl, rfl, rfl, rfl, rfl, rfl, rfl, rfl, rfl, rfl, rfl, rfl, rfl, rfl, rfl, rfl, rfl, rfl⟩

@[simp] theorem hbmZero_fields (x1 : Nat) (x2 : Nat) :
    (m.hbmZero x1 x2).pins = m.pins ∧ (m.hbmZero x1 x2).fuse = m.fuse ∧ (m.hbmZero x1 x2).boot = m.boot ∧
    (m.hbmZero x1 x2).time = m.time ∧ (m.hbmZero x1 x2).corner = m.corner ∧ (m.hbmZero x1 x2).shr = m.shr ∧
    (m.hbmZero x1 x2).fwd = m.fwd ∧ (m.hbmZero x1 x2).txSeq = m.txSeq ∧ (m.hbmZero x1 x2).txn = m.txn ∧
    (m.hbmZero x1 x2).coll = m.coll ∧ (m.hbmZero x1 x2).collFailed = m.collFailed ∧ (m.hbmZero x1 x2).tiles = m.tiles ∧
    (m.hbmZero x1 x2).tileMap = m.tileMap ∧ (m.hbmZero x1 x2).tilePhys = m.tilePhys ∧ (m.hbmZero x1 x2).strm = m.strm ∧
    (m.hbmZero x1 x2).luff = m.luff ∧ (m.hbmZero x1 x2).hly = m.hly ∧ (m.hbmZero x1 x2).tkp = m.tkp ∧
    (m.hbmZero x1 x2).slc = m.slc ∧ (m.hbmZero x1 x2).part = m.part ∧ (m.hbmZero x1 x2).ctx = m.ctx ∧
    (m.hbmZero x1 x2).ctxCmd = m.ctxCmd ∧ (m.hbmZero x1 x2).ttl = m.ttl ∧ (m.hbmZero x1 x2).acc = m.acc ∧
    (m.hbmZero x1 x2).reef = m.reef ∧ (m.hbmZero x1 x2).hst = m.hst ∧ (m.hbmZero x1 x2).eng = m.eng ∧
    (m.hbmZero x1 x2).msix = m.msix ∧ (m.hbmZero x1 x2).hostMem = m.hostMem ∧ (m.hbmZero x1 x2).flash = m.flash ∧
    (m.hbmZero x1 x2).far = m.far ∧ (m.hbmZero x1 x2).scan = m.scan ∧ (m.hbmZero x1 x2).card = m.card ∧
    (m.hbmZero x1 x2).free = m.free ∧ (m.hbmZero x1 x2).out = m.out :=
  ⟨rfl, rfl, rfl, rfl, rfl, rfl, rfl, rfl, rfl, rfl, rfl, rfl, rfl, rfl, rfl, rfl, rfl, rfl, rfl, rfl, rfl, rfl, rfl, rfl, rfl, rfl, rfl, rfl, rfl, rfl, rfl, rfl, rfl, rfl, rfl⟩

@[simp] theorem setPage_fields (x1 : Nat) (x2 : PageRec) :
    (m.setPage x1 x2).pins = m.pins ∧ (m.setPage x1 x2).fuse = m.fuse ∧ (m.setPage x1 x2).boot = m.boot ∧
    (m.setPage x1 x2).time = m.time ∧ (m.setPage x1 x2).corner = m.corner ∧ (m.setPage x1 x2).shr = m.shr ∧
    (m.setPage x1 x2).fwd = m.fwd ∧ (m.setPage x1 x2).txSeq = m.txSeq ∧ (m.setPage x1 x2).txn = m.txn ∧
    (m.setPage x1 x2).coll = m.coll ∧ (m.setPage x1 x2).collFailed = m.collFailed ∧ (m.setPage x1 x2).tiles = m.tiles ∧
    (m.setPage x1 x2).tileMap = m.tileMap ∧ (m.setPage x1 x2).tilePhys = m.tilePhys ∧ (m.setPage x1 x2).strm = m.strm ∧
    (m.setPage x1 x2).luff = m.luff ∧ (m.setPage x1 x2).hly = m.hly ∧ (m.setPage x1 x2).tkp = m.tkp ∧
    (m.setPage x1 x2).slc = m.slc ∧ (m.setPage x1 x2).part = m.part ∧ (m.setPage x1 x2).ctx = m.ctx ∧
    (m.setPage x1 x2).ctxCmd = m.ctxCmd ∧ (m.setPage x1 x2).ttl = m.ttl ∧ (m.setPage x1 x2).acc = m.acc ∧
    (m.setPage x1 x2).reef = m.reef ∧ (m.setPage x1 x2).hst = m.hst ∧ (m.setPage x1 x2).eng = m.eng ∧
    (m.setPage x1 x2).msix = m.msix ∧ (m.setPage x1 x2).hostMem = m.hostMem ∧ (m.setPage x1 x2).flash = m.flash ∧
    (m.setPage x1 x2).far = m.far ∧ (m.setPage x1 x2).scan = m.scan ∧ (m.setPage x1 x2).card = m.card ∧
    (m.setPage x1 x2).free = m.free ∧ (m.setPage x1 x2).out = m.out :=
  ⟨rfl, rfl, rfl, rfl, rfl, rfl, rfl, rfl, rfl, rfl, rfl, rfl, rfl, rfl, rfl, rfl, rfl, rfl, rfl, rfl, rfl, rfl, rfl, rfl, rfl, rfl, rfl, rfl, rfl, rfl, rfl, rfl, rfl, rfl, rfl⟩

@[simp] theorem setRig_fields (x1 : Nat) (x2 : Nat) :
    (m.setRig x1 x2).pins = m.pins ∧ (m.setRig x1 x2).fuse = m.fuse ∧ (m.setRig x1 x2).time = m.time ∧
    (m.setRig x1 x2).corner = m.corner ∧ (m.setRig x1 x2).shr = m.shr ∧ (m.setRig x1 x2).fwd = m.fwd ∧
    (m.setRig x1 x2).txSeq = m.txSeq ∧ (m.setRig x1 x2).txn = m.txn ∧ (m.setRig x1 x2).coll = m.coll ∧
    (m.setRig x1 x2).collFailed = m.collFailed ∧ (m.setRig x1 x2).tiles = m.tiles ∧ (m.setRig x1 x2).tileMap = m.tileMap ∧
    (m.setRig x1 x2).tilePhys = m.tilePhys ∧ (m.setRig x1 x2).hbm = m.hbm ∧ (m.setRig x1 x2).strm = m.strm ∧
    (m.setRig x1 x2).luff = m.luff ∧ (m.setRig x1 x2).hly = m.hly ∧ (m.setRig x1 x2).tkp = m.tkp ∧
    (m.setRig x1 x2).slc = m.slc ∧ (m.setRig x1 x2).part = m.part ∧ (m.setRig x1 x2).ctx = m.ctx ∧
    (m.setRig x1 x2).ctxCmd = m.ctxCmd ∧ (m.setRig x1 x2).ttl = m.ttl ∧ (m.setRig x1 x2).acc = m.acc ∧
    (m.setRig x1 x2).reef = m.reef ∧ (m.setRig x1 x2).hst = m.hst ∧ (m.setRig x1 x2).eng = m.eng ∧
    (m.setRig x1 x2).msix = m.msix ∧ (m.setRig x1 x2).hostMem = m.hostMem ∧ (m.setRig x1 x2).flash = m.flash ∧
    (m.setRig x1 x2).far = m.far ∧ (m.setRig x1 x2).scan = m.scan ∧ (m.setRig x1 x2).card = m.card ∧
    (m.setRig x1 x2).free = m.free ∧ (m.setRig x1 x2).out = m.out :=
  ⟨rfl, rfl, rfl, rfl, rfl, rfl, rfl, rfl, rfl, rfl, rfl, rfl, rfl, rfl, rfl, rfl, rfl, rfl, rfl, rfl, rfl, rfl, rfl, rfl, rfl, rfl, rfl, rfl, rfl, rfl, rfl, rfl, rfl, rfl, rfl⟩

theorem raiseAs_fields (x1 x2 x3 : Nat) (x4 : Option Nat) :
    m.raiseAs x1 x2 x3 x4 = { m with ttl := (m.raiseAs x1 x2 x3 x4).ttl } := by
  unfold Machine.raiseAs; split <;> rfl

@[simp] theorem raise_fields (x1 x2 : Nat) :
    (m.raise x1 x2).pins = m.pins ∧ (m.raise x1 x2).fuse = m.fuse ∧ (m.raise x1 x2).boot = m.boot ∧
    (m.raise x1 x2).time = m.time ∧ (m.raise x1 x2).corner = m.corner ∧ (m.raise x1 x2).shr = m.shr ∧
    (m.raise x1 x2).fwd = m.fwd ∧ (m.raise x1 x2).txSeq = m.txSeq ∧ (m.raise x1 x2).txn = m.txn ∧
    (m.raise x1 x2).coll = m.coll ∧ (m.raise x1 x2).collFailed = m.collFailed ∧ (m.raise x1 x2).tiles = m.tiles ∧
    (m.raise x1 x2).tileMap = m.tileMap ∧ (m.raise x1 x2).tilePhys = m.tilePhys ∧ (m.raise x1 x2).hbm = m.hbm ∧
    (m.raise x1 x2).strm = m.strm ∧ (m.raise x1 x2).luff = m.luff ∧ (m.raise x1 x2).hly = m.hly ∧
    (m.raise x1 x2).tkp = m.tkp ∧ (m.raise x1 x2).slc = m.slc ∧ (m.raise x1 x2).part = m.part ∧
    (m.raise x1 x2).ctx = m.ctx ∧ (m.raise x1 x2).ctxCmd = m.ctxCmd ∧ (m.raise x1 x2).acc = m.acc ∧
    (m.raise x1 x2).reef = m.reef ∧ (m.raise x1 x2).hst = m.hst ∧ (m.raise x1 x2).eng = m.eng ∧
    (m.raise x1 x2).msix = m.msix ∧ (m.raise x1 x2).hostMem = m.hostMem ∧ (m.raise x1 x2).flash = m.flash ∧
    (m.raise x1 x2).far = m.far ∧ (m.raise x1 x2).scan = m.scan ∧ (m.raise x1 x2).card = m.card ∧
    (m.raise x1 x2).free = m.free ∧ (m.raise x1 x2).out = m.out := by
  unfold Machine.raise
  rw [raiseAs_fields]
  and_intros <;> rfl

@[simp] theorem raiseAs_frame (x1 x2 x3 : Nat) (x4 : Option Nat) :
    (m.raiseAs x1 x2 x3 x4).pins = m.pins ∧ (m.raiseAs x1 x2 x3 x4).fuse = m.fuse ∧ (m.raiseAs x1 x2 x3 x4).boot = m.boot ∧
    (m.raiseAs x1 x2 x3 x4).time = m.time ∧ (m.raiseAs x1 x2 x3 x4).corner = m.corner ∧
    (m.raiseAs x1 x2 x3 x4).shr = m.shr ∧ (m.raiseAs x1 x2 x3 x4).fwd = m.fwd ∧ (m.raiseAs x1 x2 x3 x4).txSeq = m.txSeq ∧
    (m.raiseAs x1 x2 x3 x4).txn = m.txn ∧ (m.raiseAs x1 x2 x3 x4).coll = m.coll ∧
    (m.raiseAs x1 x2 x3 x4).collFailed = m.collFailed ∧ (m.raiseAs x1 x2 x3 x4).tiles = m.tiles ∧
    (m.raiseAs x1 x2 x3 x4).tileMap = m.tileMap ∧ (m.raiseAs x1 x2 x3 x4).tilePhys = m.tilePhys ∧
    (m.raiseAs x1 x2 x3 x4).hbm = m.hbm ∧ (m.raiseAs x1 x2 x3 x4).strm = m.strm ∧ (m.raiseAs x1 x2 x3 x4).luff = m.luff ∧
    (m.raiseAs x1 x2 x3 x4).hly = m.hly ∧ (m.raiseAs x1 x2 x3 x4).tkp = m.tkp ∧ (m.raiseAs x1 x2 x3 x4).slc = m.slc ∧
    (m.raiseAs x1 x2 x3 x4).part = m.part ∧ (m.raiseAs x1 x2 x3 x4).ctx = m.ctx ∧
    (m.raiseAs x1 x2 x3 x4).ctxCmd = m.ctxCmd ∧ (m.raiseAs x1 x2 x3 x4).acc = m.acc ∧
    (m.raiseAs x1 x2 x3 x4).reef = m.reef ∧ (m.raiseAs x1 x2 x3 x4).hst = m.hst ∧ (m.raiseAs x1 x2 x3 x4).eng = m.eng ∧
    (m.raiseAs x1 x2 x3 x4).msix = m.msix ∧ (m.raiseAs x1 x2 x3 x4).hostMem = m.hostMem ∧
    (m.raiseAs x1 x2 x3 x4).flash = m.flash ∧ (m.raiseAs x1 x2 x3 x4).far = m.far ∧ (m.raiseAs x1 x2 x3 x4).scan = m.scan ∧
    (m.raiseAs x1 x2 x3 x4).card = m.card ∧ (m.raiseAs x1 x2 x3 x4).free = m.free ∧ (m.raiseAs x1 x2 x3 x4).out = m.out := by
  rw [raiseAs_fields]
  and_intros <;> rfl

@[simp] theorem raiseCtx_frame (x1 x2 x3 : Nat) :
    (m.raiseCtx x1 x2 x3).pins = m.pins ∧ (m.raiseCtx x1 x2 x3).fuse = m.fuse ∧ (m.raiseCtx x1 x2 x3).boot = m.boot ∧
    (m.raiseCtx x1 x2 x3).time = m.time ∧ (m.raiseCtx x1 x2 x3).corner = m.corner ∧ (m.raiseCtx x1 x2 x3).shr = m.shr ∧
    (m.raiseCtx x1 x2 x3).fwd = m.fwd ∧ (m.raiseCtx x1 x2 x3).txSeq = m.txSeq ∧ (m.raiseCtx x1 x2 x3).txn = m.txn ∧
    (m.raiseCtx x1 x2 x3).coll = m.coll ∧ (m.raiseCtx x1 x2 x3).collFailed = m.collFailed ∧
    (m.raiseCtx x1 x2 x3).tiles = m.tiles ∧ (m.raiseCtx x1 x2 x3).tileMap = m.tileMap ∧
    (m.raiseCtx x1 x2 x3).tilePhys = m.tilePhys ∧ (m.raiseCtx x1 x2 x3).hbm = m.hbm ∧ (m.raiseCtx x1 x2 x3).strm = m.strm ∧
    (m.raiseCtx x1 x2 x3).luff = m.luff ∧ (m.raiseCtx x1 x2 x3).hly = m.hly ∧ (m.raiseCtx x1 x2 x3).tkp = m.tkp ∧
    (m.raiseCtx x1 x2 x3).slc = m.slc ∧ (m.raiseCtx x1 x2 x3).part = m.part ∧ (m.raiseCtx x1 x2 x3).ctx = m.ctx ∧
    (m.raiseCtx x1 x2 x3).ctxCmd = m.ctxCmd ∧ (m.raiseCtx x1 x2 x3).acc = m.acc ∧ (m.raiseCtx x1 x2 x3).reef = m.reef ∧
    (m.raiseCtx x1 x2 x3).hst = m.hst ∧ (m.raiseCtx x1 x2 x3).eng = m.eng ∧ (m.raiseCtx x1 x2 x3).msix = m.msix ∧
    (m.raiseCtx x1 x2 x3).hostMem = m.hostMem ∧ (m.raiseCtx x1 x2 x3).flash = m.flash ∧ (m.raiseCtx x1 x2 x3).far = m.far ∧
    (m.raiseCtx x1 x2 x3).scan = m.scan ∧ (m.raiseCtx x1 x2 x3).card = m.card ∧ (m.raiseCtx x1 x2 x3).free = m.free ∧
    (m.raiseCtx x1 x2 x3).out = m.out := by
  unfold Machine.raiseCtx
  rw [raiseAs_fields]
  and_intros <;> rfl

/-! ### Records an update leaves alone -/

@[simp] theorem emit_reads (x1 : Out) :
    (m.emit x1).node = m.node ∧ (m.emit x1).ns = m.ns ∧ (∀ k, (m.emit x1).port k = m.port k) ∧
    (∀ k, (m.emit x1).fwdAt k = m.fwdAt k) ∧ (∀ k, (m.emit x1).ctxAt k = m.ctxAt k) ∧
    (∀ k, (m.emit x1).partAt k = m.partAt k) ∧ (∀ k, (m.emit x1).sliceAt k = m.sliceAt k) ∧
    (∀ k, (m.emit x1).tileAt k = m.tileAt k) ∧ (∀ k, (m.emit x1).strmAt k = m.strmAt k) ∧
    (∀ k, (m.emit x1).siteAt k = m.siteAt k) ∧ (∀ k, (m.emit x1).rdie k = m.rdie k) ∧
    (∀ k, (m.emit x1).rpart k = m.rpart k) ∧ (∀ k, (m.emit x1).bootSt k = m.bootSt k) ∧
    (∀ k, (m.emit x1).level k = m.level k) ∧ (∀ k, (m.emit x1).collAt k = m.collAt k) ∧
    (∀ k, (m.emit x1).engine k = m.engine k) ∧ (∀ k, (m.emit x1).pageAt k = m.pageAt k) ∧
    (∀ k, (m.emit x1).slotAt k = m.slotAt k) ∧ (∀ k, (m.emit x1).src k = m.src k) :=
  ⟨rfl, rfl, fun _ => rfl, fun _ => rfl, fun _ => rfl, fun _ => rfl, fun _ => rfl, fun _ => rfl, fun _ => rfl, fun _ => rfl, fun _ => rfl, fun _ => rfl, fun _ => rfl, fun _ => rfl, fun _ => rfl, fun _ => rfl, fun _ => rfl, fun _ => rfl, fun _ => rfl⟩

@[simp] theorem tell_reads (x1 : NodeId) (x2 : Mgmt) :
    (m.tell x1 x2).node = m.node ∧ (m.tell x1 x2).ns = m.ns ∧ (∀ k, (m.tell x1 x2).port k = m.port k) ∧
    (∀ k, (m.tell x1 x2).fwdAt k = m.fwdAt k) ∧ (∀ k, (m.tell x1 x2).ctxAt k = m.ctxAt k) ∧
    (∀ k, (m.tell x1 x2).partAt k = m.partAt k) ∧ (∀ k, (m.tell x1 x2).sliceAt k = m.sliceAt k) ∧
    (∀ k, (m.tell x1 x2).tileAt k = m.tileAt k) ∧ (∀ k, (m.tell x1 x2).strmAt k = m.strmAt k) ∧
    (∀ k, (m.tell x1 x2).siteAt k = m.siteAt k) ∧ (∀ k, (m.tell x1 x2).rdie k = m.rdie k) ∧
    (∀ k, (m.tell x1 x2).rpart k = m.rpart k) ∧ (∀ k, (m.tell x1 x2).bootSt k = m.bootSt k) ∧
    (∀ k, (m.tell x1 x2).level k = m.level k) ∧ (∀ k, (m.tell x1 x2).collAt k = m.collAt k) ∧
    (∀ k, (m.tell x1 x2).engine k = m.engine k) ∧ (∀ k, (m.tell x1 x2).pageAt k = m.pageAt k) ∧
    (∀ k, (m.tell x1 x2).slotAt k = m.slotAt k) ∧ (∀ k, (m.tell x1 x2).src k = m.src k) :=
  ⟨rfl, rfl, fun _ => rfl, fun _ => rfl, fun _ => rfl, fun _ => rfl, fun _ => rfl, fun _ => rfl, fun _ => rfl, fun _ => rfl, fun _ => rfl, fun _ => rfl, fun _ => rfl, fun _ => rfl, fun _ => rfl, fun _ => rfl, fun _ => rfl, fun _ => rfl, fun _ => rfl⟩

@[simp] theorem answerMctp_reads (x1 : MsgHdr) (x2 x3 x4 : Nat) (x5 : List Byte) :
    (m.answerMctp x1 x2 x3 x4 x5).node = m.node ∧ (m.answerMctp x1 x2 x3 x4 x5).ns = m.ns ∧
    (∀ k, (m.answerMctp x1 x2 x3 x4 x5).port k = m.port k) ∧ (∀ k, (m.answerMctp x1 x2 x3 x4 x5).fwdAt k = m.fwdAt k) ∧
    (∀ k, (m.answerMctp x1 x2 x3 x4 x5).ctxAt k = m.ctxAt k) ∧ (∀ k, (m.answerMctp x1 x2 x3 x4 x5).partAt k = m.partAt k) ∧
    (∀ k, (m.answerMctp x1 x2 x3 x4 x5).sliceAt k = m.sliceAt k) ∧ (∀ k, (m.answerMctp x1 x2 x3 x4 x5).tileAt k = m.tileAt k) ∧
    (∀ k, (m.answerMctp x1 x2 x3 x4 x5).strmAt k = m.strmAt k) ∧ (∀ k, (m.answerMctp x1 x2 x3 x4 x5).siteAt k = m.siteAt k) ∧
    (∀ k, (m.answerMctp x1 x2 x3 x4 x5).rdie k = m.rdie k) ∧ (∀ k, (m.answerMctp x1 x2 x3 x4 x5).rpart k = m.rpart k) ∧
    (∀ k, (m.answerMctp x1 x2 x3 x4 x5).bootSt k = m.bootSt k) ∧ (∀ k, (m.answerMctp x1 x2 x3 x4 x5).level k = m.level k) ∧
    (∀ k, (m.answerMctp x1 x2 x3 x4 x5).collAt k = m.collAt k) ∧ (∀ k, (m.answerMctp x1 x2 x3 x4 x5).engine k = m.engine k) ∧
    (∀ k, (m.answerMctp x1 x2 x3 x4 x5).pageAt k = m.pageAt k) ∧ (∀ k, (m.answerMctp x1 x2 x3 x4 x5).slotAt k = m.slotAt k) ∧
    (∀ k, (m.answerMctp x1 x2 x3 x4 x5).src k = m.src k) := by
  obtain ⟨o, ho⟩ := answerMctp_eq m x1 x2 x3 x4 x5
  rw [ho]
  exact ⟨rfl, rfl, fun _ => rfl, fun _ => rfl, fun _ => rfl, fun _ => rfl, fun _ => rfl, fun _ => rfl, fun _ => rfl, fun _ => rfl, fun _ => rfl, fun _ => rfl, fun _ => rfl, fun _ => rfl, fun _ => rfl, fun _ => rfl, fun _ => rfl, fun _ => rfl, fun _ => rfl⟩

@[simp] theorem modTtl_reads (x1 : Ttl → Ttl) :
    (m.modTtl x1).node = m.node ∧ (m.modTtl x1).ns = m.ns ∧ (∀ k, (m.modTtl x1).port k = m.port k) ∧
    (∀ k, (m.modTtl x1).fwdAt k = m.fwdAt k) ∧ (∀ k, (m.modTtl x1).ctxAt k = m.ctxAt k) ∧
    (∀ k, (m.modTtl x1).partAt k = m.partAt k) ∧ (∀ k, (m.modTtl x1).sliceAt k = m.sliceAt k) ∧
    (∀ k, (m.modTtl x1).tileAt k = m.tileAt k) ∧ (∀ k, (m.modTtl x1).strmAt k = m.strmAt k) ∧
    (∀ k, (m.modTtl x1).siteAt k = m.siteAt k) ∧ (∀ k, (m.modTtl x1).rdie k = m.rdie k) ∧
    (∀ k, (m.modTtl x1).rpart k = m.rpart k) ∧ (∀ k, (m.modTtl x1).bootSt k = m.bootSt k) ∧
    (∀ k, (m.modTtl x1).level k = m.level k) ∧ (∀ k, (m.modTtl x1).collAt k = m.collAt k) ∧
    (∀ k, (m.modTtl x1).engine k = m.engine k) ∧ (∀ k, (m.modTtl x1).pageAt k = m.pageAt k) :=
  ⟨rfl, rfl, fun _ => rfl, fun _ => rfl, fun _ => rfl, fun _ => rfl, fun _ => rfl, fun _ => rfl, fun _ => rfl, fun _ => rfl, fun _ => rfl, fun _ => rfl, fun _ => rfl, fun _ => rfl, fun _ => rfl, fun _ => rfl, fun _ => rfl⟩

@[simp] theorem modSrc_reads (x1 : Nat) (x2 : SrcRec → SrcRec) :
    (m.modSrc x1 x2).node = m.node ∧ (m.modSrc x1 x2).ns = m.ns ∧ (∀ k, (m.modSrc x1 x2).port k = m.port k) ∧
    (∀ k, (m.modSrc x1 x2).fwdAt k = m.fwdAt k) ∧ (∀ k, (m.modSrc x1 x2).ctxAt k = m.ctxAt k) ∧
    (∀ k, (m.modSrc x1 x2).partAt k = m.partAt k) ∧ (∀ k, (m.modSrc x1 x2).sliceAt k = m.sliceAt k) ∧
    (∀ k, (m.modSrc x1 x2).tileAt k = m.tileAt k) ∧ (∀ k, (m.modSrc x1 x2).strmAt k = m.strmAt k) ∧
    (∀ k, (m.modSrc x1 x2).siteAt k = m.siteAt k) ∧ (∀ k, (m.modSrc x1 x2).rdie k = m.rdie k) ∧
    (∀ k, (m.modSrc x1 x2).rpart k = m.rpart k) ∧ (∀ k, (m.modSrc x1 x2).bootSt k = m.bootSt k) ∧
    (∀ k, (m.modSrc x1 x2).level k = m.level k) ∧ (∀ k, (m.modSrc x1 x2).collAt k = m.collAt k) ∧
    (∀ k, (m.modSrc x1 x2).engine k = m.engine k) ∧ (∀ k, (m.modSrc x1 x2).pageAt k = m.pageAt k) :=
  ⟨rfl, rfl, fun _ => rfl, fun _ => rfl, fun _ => rfl, fun _ => rfl, fun _ => rfl, fun _ => rfl, fun _ => rfl, fun _ => rfl, fun _ => rfl, fun _ => rfl, fun _ => rfl, fun _ => rfl, fun _ => rfl, fun _ => rfl, fun _ => rfl⟩

@[simp] theorem modBoot_reads (x1 : Boot → Boot) :
    (m.modBoot x1).node = m.node ∧ (m.modBoot x1).ns = m.ns ∧ (∀ k, (m.modBoot x1).port k = m.port k) ∧
    (∀ k, (m.modBoot x1).fwdAt k = m.fwdAt k) ∧ (∀ k, (m.modBoot x1).ctxAt k = m.ctxAt k) ∧
    (∀ k, (m.modBoot x1).partAt k = m.partAt k) ∧ (∀ k, (m.modBoot x1).sliceAt k = m.sliceAt k) ∧
    (∀ k, (m.modBoot x1).tileAt k = m.tileAt k) ∧ (∀ k, (m.modBoot x1).strmAt k = m.strmAt k) ∧
    (∀ k, (m.modBoot x1).siteAt k = m.siteAt k) ∧ (∀ k, (m.modBoot x1).rdie k = m.rdie k) ∧
    (∀ k, (m.modBoot x1).rpart k = m.rpart k) ∧ (∀ k, (m.modBoot x1).collAt k = m.collAt k) ∧
    (∀ k, (m.modBoot x1).engine k = m.engine k) ∧ (∀ k, (m.modBoot x1).pageAt k = m.pageAt k) ∧
    (∀ k, (m.modBoot x1).slotAt k = m.slotAt k) ∧ (∀ k, (m.modBoot x1).src k = m.src k) :=
  ⟨rfl, rfl, fun _ => rfl, fun _ => rfl, fun _ => rfl, fun _ => rfl, fun _ => rfl, fun _ => rfl, fun _ => rfl, fun _ => rfl, fun _ => rfl, fun _ => rfl, fun _ => rfl, fun _ => rfl, fun _ => rfl, fun _ => rfl, fun _ => rfl⟩

@[simp] theorem setStep_reads (x1 : Nat) (x2 : BootSt) :
    (m.setStep x1 x2).node = m.node ∧ (m.setStep x1 x2).ns = m.ns ∧ (∀ k, (m.setStep x1 x2).port k = m.port k) ∧
    (∀ k, (m.setStep x1 x2).fwdAt k = m.fwdAt k) ∧ (∀ k, (m.setStep x1 x2).ctxAt k = m.ctxAt k) ∧
    (∀ k, (m.setStep x1 x2).partAt k = m.partAt k) ∧ (∀ k, (m.setStep x1 x2).sliceAt k = m.sliceAt k) ∧
    (∀ k, (m.setStep x1 x2).tileAt k = m.tileAt k) ∧ (∀ k, (m.setStep x1 x2).strmAt k = m.strmAt k) ∧
    (∀ k, (m.setStep x1 x2).siteAt k = m.siteAt k) ∧ (∀ k, (m.setStep x1 x2).rdie k = m.rdie k) ∧
    (∀ k, (m.setStep x1 x2).rpart k = m.rpart k) ∧ (∀ k, (m.setStep x1 x2).collAt k = m.collAt k) ∧
    (∀ k, (m.setStep x1 x2).engine k = m.engine k) ∧ (∀ k, (m.setStep x1 x2).pageAt k = m.pageAt k) ∧
    (∀ k, (m.setStep x1 x2).slotAt k = m.slotAt k) ∧ (∀ k, (m.setStep x1 x2).src k = m.src k) :=
  ⟨rfl, rfl, fun _ => rfl, fun _ => rfl, fun _ => rfl, fun _ => rfl, fun _ => rfl, fun _ => rfl, fun _ => rfl, fun _ => rfl, fun _ => rfl, fun _ => rfl, fun _ => rfl, fun _ => rfl, fun _ => rfl, fun _ => rfl, fun _ => rfl⟩

@[simp] theorem modBcast_reads (x1 : Bcast → Bcast) :
    (m.modBcast x1).node = m.node ∧ (m.modBcast x1).ns = m.ns ∧ (∀ k, (m.modBcast x1).port k = m.port k) ∧
    (∀ k, (m.modBcast x1).fwdAt k = m.fwdAt k) ∧ (∀ k, (m.modBcast x1).ctxAt k = m.ctxAt k) ∧
    (∀ k, (m.modBcast x1).partAt k = m.partAt k) ∧ (∀ k, (m.modBcast x1).sliceAt k = m.sliceAt k) ∧
    (∀ k, (m.modBcast x1).tileAt k = m.tileAt k) ∧ (∀ k, (m.modBcast x1).strmAt k = m.strmAt k) ∧
    (∀ k, (m.modBcast x1).siteAt k = m.siteAt k) ∧ (∀ k, (m.modBcast x1).rdie k = m.rdie k) ∧
    (∀ k, (m.modBcast x1).rpart k = m.rpart k) ∧ (∀ k, (m.modBcast x1).collAt k = m.collAt k) ∧
    (∀ k, (m.modBcast x1).engine k = m.engine k) ∧ (∀ k, (m.modBcast x1).pageAt k = m.pageAt k) ∧
    (∀ k, (m.modBcast x1).slotAt k = m.slotAt k) ∧ (∀ k, (m.modBcast x1).src k = m.src k) :=
  ⟨rfl, rfl, fun _ => rfl, fun _ => rfl, fun _ => rfl, fun _ => rfl, fun _ => rfl, fun _ => rfl, fun _ => rfl, fun _ => rfl, fun _ => rfl, fun _ => rfl, fun _ => rfl, fun _ => rfl, fun _ => rfl, fun _ => rfl, fun _ => rfl⟩

@[simp] theorem modTime_reads (x1 : TimeBlk → TimeBlk) :
    (m.modTime x1).node = m.node ∧ (∀ k, (m.modTime x1).port k = m.port k) ∧ (∀ k, (m.modTime x1).fwdAt k = m.fwdAt k) ∧
    (∀ k, (m.modTime x1).ctxAt k = m.ctxAt k) ∧ (∀ k, (m.modTime x1).partAt k = m.partAt k) ∧
    (∀ k, (m.modTime x1).sliceAt k = m.sliceAt k) ∧ (∀ k, (m.modTime x1).tileAt k = m.tileAt k) ∧
    (∀ k, (m.modTime x1).strmAt k = m.strmAt k) ∧ (∀ k, (m.modTime x1).siteAt k = m.siteAt k) ∧
    (∀ k, (m.modTime x1).rdie k = m.rdie k) ∧ (∀ k, (m.modTime x1).rpart k = m.rpart k) ∧
    (∀ k, (m.modTime x1).bootSt k = m.bootSt k) ∧ (∀ k, (m.modTime x1).level k = m.level k) ∧
    (∀ k, (m.modTime x1).collAt k = m.collAt k) ∧ (∀ k, (m.modTime x1).engine k = m.engine k) ∧
    (∀ k, (m.modTime x1).pageAt k = m.pageAt k) ∧ (∀ k, (m.modTime x1).slotAt k = m.slotAt k) ∧
    (∀ k, (m.modTime x1).src k = m.src k) :=
  ⟨rfl, fun _ => rfl, fun _ => rfl, fun _ => rfl, fun _ => rfl, fun _ => rfl, fun _ => rfl, fun _ => rfl, fun _ => rfl, fun _ => rfl, fun _ => rfl, fun _ => rfl, fun _ => rfl, fun _ => rfl, fun _ => rfl, fun _ => rfl, fun _ => rfl, fun _ => rfl⟩

@[simp] theorem modHly_reads (x1 : HlyReg → HlyReg) :
    (m.modHly x1).ns = m.ns ∧ (∀ k, (m.modHly x1).port k = m.port k) ∧ (∀ k, (m.modHly x1).fwdAt k = m.fwdAt k) ∧
    (∀ k, (m.modHly x1).ctxAt k = m.ctxAt k) ∧ (∀ k, (m.modHly x1).partAt k = m.partAt k) ∧
    (∀ k, (m.modHly x1).sliceAt k = m.sliceAt k) ∧ (∀ k, (m.modHly x1).tileAt k = m.tileAt k) ∧
    (∀ k, (m.modHly x1).strmAt k = m.strmAt k) ∧ (∀ k, (m.modHly x1).siteAt k = m.siteAt k) ∧
    (∀ k, (m.modHly x1).rdie k = m.rdie k) ∧ (∀ k, (m.modHly x1).rpart k = m.rpart k) ∧
    (∀ k, (m.modHly x1).bootSt k = m.bootSt k) ∧ (∀ k, (m.modHly x1).level k = m.level k) ∧
    (∀ k, (m.modHly x1).collAt k = m.collAt k) ∧ (∀ k, (m.modHly x1).engine k = m.engine k) ∧
    (∀ k, (m.modHly x1).pageAt k = m.pageAt k) ∧ (∀ k, (m.modHly x1).slotAt k = m.slotAt k) ∧
    (∀ k, (m.modHly x1).src k = m.src k) :=
  ⟨rfl, fun _ => rfl, fun _ => rfl, fun _ => rfl, fun _ => rfl, fun _ => rfl, fun _ => rfl, fun _ => rfl, fun _ => rfl, fun _ => rfl, fun _ => rfl, fun _ => rfl, fun _ => rfl, fun _ => rfl, fun _ => rfl, fun _ => rfl, fun _ => rfl, fun _ => rfl⟩

@[simp] theorem modDb_reads (x1 : HlyDb → HlyDb) :
    (m.modDb x1).ns = m.ns ∧ (∀ k, (m.modDb x1).port k = m.port k) ∧ (∀ k, (m.modDb x1).fwdAt k = m.fwdAt k) ∧
    (∀ k, (m.modDb x1).ctxAt k = m.ctxAt k) ∧ (∀ k, (m.modDb x1).partAt k = m.partAt k) ∧
    (∀ k, (m.modDb x1).sliceAt k = m.sliceAt k) ∧ (∀ k, (m.modDb x1).tileAt k = m.tileAt k) ∧
    (∀ k, (m.modDb x1).strmAt k = m.strmAt k) ∧ (∀ k, (m.modDb x1).siteAt k = m.siteAt k) ∧
    (∀ k, (m.modDb x1).rdie k = m.rdie k) ∧ (∀ k, (m.modDb x1).rpart k = m.rpart k) ∧
    (∀ k, (m.modDb x1).bootSt k = m.bootSt k) ∧ (∀ k, (m.modDb x1).level k = m.level k) ∧
    (∀ k, (m.modDb x1).collAt k = m.collAt k) ∧ (∀ k, (m.modDb x1).engine k = m.engine k) ∧
    (∀ k, (m.modDb x1).pageAt k = m.pageAt k) ∧ (∀ k, (m.modDb x1).slotAt k = m.slotAt k) ∧
    (∀ k, (m.modDb x1).src k = m.src k) :=
  ⟨rfl, fun _ => rfl, fun _ => rfl, fun _ => rfl, fun _ => rfl, fun _ => rfl, fun _ => rfl, fun _ => rfl, fun _ => rfl, fun _ => rfl, fun _ => rfl, fun _ => rfl, fun _ => rfl, fun _ => rfl, fun _ => rfl, fun _ => rfl, fun _ => rfl, fun _ => rfl⟩

@[simp] theorem modWork_reads (x1 : EpochWork → EpochWork) :
    (m.modWork x1).ns = m.ns ∧ (∀ k, (m.modWork x1).port k = m.port k) ∧ (∀ k, (m.modWork x1).fwdAt k = m.fwdAt k) ∧
    (∀ k, (m.modWork x1).ctxAt k = m.ctxAt k) ∧ (∀ k, (m.modWork x1).partAt k = m.partAt k) ∧
    (∀ k, (m.modWork x1).sliceAt k = m.sliceAt k) ∧ (∀ k, (m.modWork x1).tileAt k = m.tileAt k) ∧
    (∀ k, (m.modWork x1).strmAt k = m.strmAt k) ∧ (∀ k, (m.modWork x1).siteAt k = m.siteAt k) ∧
    (∀ k, (m.modWork x1).rdie k = m.rdie k) ∧ (∀ k, (m.modWork x1).rpart k = m.rpart k) ∧
    (∀ k, (m.modWork x1).bootSt k = m.bootSt k) ∧ (∀ k, (m.modWork x1).level k = m.level k) ∧
    (∀ k, (m.modWork x1).collAt k = m.collAt k) ∧ (∀ k, (m.modWork x1).engine k = m.engine k) ∧
    (∀ k, (m.modWork x1).pageAt k = m.pageAt k) ∧ (∀ k, (m.modWork x1).slotAt k = m.slotAt k) ∧
    (∀ k, (m.modWork x1).src k = m.src k) :=
  ⟨rfl, fun _ => rfl, fun _ => rfl, fun _ => rfl, fun _ => rfl, fun _ => rfl, fun _ => rfl, fun _ => rfl, fun _ => rfl, fun _ => rfl, fun _ => rfl, fun _ => rfl, fun _ => rfl, fun _ => rfl, fun _ => rfl, fun _ => rfl, fun _ => rfl, fun _ => rfl⟩

@[simp] theorem setPort_reads (x1 : Nat) (x2 : PortRec) :
    (m.setPort x1 x2).node = m.node ∧ (m.setPort x1 x2).ns = m.ns ∧ (∀ k, (m.setPort x1 x2).fwdAt k = m.fwdAt k) ∧
    (∀ k, (m.setPort x1 x2).ctxAt k = m.ctxAt k) ∧ (∀ k, (m.setPort x1 x2).partAt k = m.partAt k) ∧
    (∀ k, (m.setPort x1 x2).sliceAt k = m.sliceAt k) ∧ (∀ k, (m.setPort x1 x2).tileAt k = m.tileAt k) ∧
    (∀ k, (m.setPort x1 x2).strmAt k = m.strmAt k) ∧ (∀ k, (m.setPort x1 x2).siteAt k = m.siteAt k) ∧
    (∀ k, (m.setPort x1 x2).rdie k = m.rdie k) ∧ (∀ k, (m.setPort x1 x2).rpart k = m.rpart k) ∧
    (∀ k, (m.setPort x1 x2).bootSt k = m.bootSt k) ∧ (∀ k, (m.setPort x1 x2).level k = m.level k) ∧
    (∀ k, (m.setPort x1 x2).collAt k = m.collAt k) ∧ (∀ k, (m.setPort x1 x2).engine k = m.engine k) ∧
    (∀ k, (m.setPort x1 x2).pageAt k = m.pageAt k) ∧ (∀ k, (m.setPort x1 x2).slotAt k = m.slotAt k) ∧
    (∀ k, (m.setPort x1 x2).src k = m.src k) :=
  ⟨rfl, rfl, fun _ => rfl, fun _ => rfl, fun _ => rfl, fun _ => rfl, fun _ => rfl, fun _ => rfl, fun _ => rfl, fun _ => rfl, fun _ => rfl, fun _ => rfl, fun _ => rfl, fun _ => rfl, fun _ => rfl, fun _ => rfl, fun _ => rfl, fun _ => rfl⟩

@[simp] theorem modPort_reads (x1 : Nat) (x2 : PortRec → PortRec) :
    (m.modPort x1 x2).node = m.node ∧ (m.modPort x1 x2).ns = m.ns ∧ (∀ k, (m.modPort x1 x2).fwdAt k = m.fwdAt k) ∧
    (∀ k, (m.modPort x1 x2).ctxAt k = m.ctxAt k) ∧ (∀ k, (m.modPort x1 x2).partAt k = m.partAt k) ∧
    (∀ k, (m.modPort x1 x2).sliceAt k = m.sliceAt k) ∧ (∀ k, (m.modPort x1 x2).tileAt k = m.tileAt k) ∧
    (∀ k, (m.modPort x1 x2).strmAt k = m.strmAt k) ∧ (∀ k, (m.modPort x1 x2).siteAt k = m.siteAt k) ∧
    (∀ k, (m.modPort x1 x2).rdie k = m.rdie k) ∧ (∀ k, (m.modPort x1 x2).rpart k = m.rpart k) ∧
    (∀ k, (m.modPort x1 x2).bootSt k = m.bootSt k) ∧ (∀ k, (m.modPort x1 x2).level k = m.level k) ∧
    (∀ k, (m.modPort x1 x2).collAt k = m.collAt k) ∧ (∀ k, (m.modPort x1 x2).engine k = m.engine k) ∧
    (∀ k, (m.modPort x1 x2).pageAt k = m.pageAt k) ∧ (∀ k, (m.modPort x1 x2).slotAt k = m.slotAt k) ∧
    (∀ k, (m.modPort x1 x2).src k = m.src k) :=
  ⟨rfl, rfl, fun _ => rfl, fun _ => rfl, fun _ => rfl, fun _ => rfl, fun _ => rfl, fun _ => rfl, fun _ => rfl, fun _ => rfl, fun _ => rfl, fun _ => rfl, fun _ => rfl, fun _ => rfl, fun _ => rfl, fun _ => rfl, fun _ => rfl, fun _ => rfl⟩

@[simp] theorem setSlice_reads (x1 : Nat) (x2 : SliceRec) :
    (m.setSlice x1 x2).node = m.node ∧ (m.setSlice x1 x2).ns = m.ns ∧ (∀ k, (m.setSlice x1 x2).port k = m.port k) ∧
    (∀ k, (m.setSlice x1 x2).fwdAt k = m.fwdAt k) ∧ (∀ k, (m.setSlice x1 x2).ctxAt k = m.ctxAt k) ∧
    (∀ k, (m.setSlice x1 x2).partAt k = m.partAt k) ∧ (∀ k, (m.setSlice x1 x2).tileAt k = m.tileAt k) ∧
    (∀ k, (m.setSlice x1 x2).strmAt k = m.strmAt k) ∧ (∀ k, (m.setSlice x1 x2).siteAt k = m.siteAt k) ∧
    (∀ k, (m.setSlice x1 x2).rdie k = m.rdie k) ∧ (∀ k, (m.setSlice x1 x2).rpart k = m.rpart k) ∧
    (∀ k, (m.setSlice x1 x2).bootSt k = m.bootSt k) ∧ (∀ k, (m.setSlice x1 x2).level k = m.level k) ∧
    (∀ k, (m.setSlice x1 x2).collAt k = m.collAt k) ∧ (∀ k, (m.setSlice x1 x2).engine k = m.engine k) ∧
    (∀ k, (m.setSlice x1 x2).pageAt k = m.pageAt k) ∧ (∀ k, (m.setSlice x1 x2).slotAt k = m.slotAt k) ∧
    (∀ k, (m.setSlice x1 x2).src k = m.src k) :=
  ⟨rfl, rfl, fun _ => rfl, fun _ => rfl, fun _ => rfl, fun _ => rfl, fun _ => rfl, fun _ => rfl, fun _ => rfl, fun _ => rfl, fun _ => rfl, fun _ => rfl, fun _ => rfl, fun _ => rfl, fun _ => rfl, fun _ => rfl, fun _ => rfl, fun _ => rfl⟩

@[simp] theorem modSlice_reads (x1 : Nat) (x2 : SliceRec → SliceRec) :
    (m.modSlice x1 x2).node = m.node ∧ (m.modSlice x1 x2).ns = m.ns ∧ (∀ k, (m.modSlice x1 x2).port k = m.port k) ∧
    (∀ k, (m.modSlice x1 x2).fwdAt k = m.fwdAt k) ∧ (∀ k, (m.modSlice x1 x2).ctxAt k = m.ctxAt k) ∧
    (∀ k, (m.modSlice x1 x2).partAt k = m.partAt k) ∧ (∀ k, (m.modSlice x1 x2).tileAt k = m.tileAt k) ∧
    (∀ k, (m.modSlice x1 x2).strmAt k = m.strmAt k) ∧ (∀ k, (m.modSlice x1 x2).siteAt k = m.siteAt k) ∧
    (∀ k, (m.modSlice x1 x2).rdie k = m.rdie k) ∧ (∀ k, (m.modSlice x1 x2).rpart k = m.rpart k) ∧
    (∀ k, (m.modSlice x1 x2).bootSt k = m.bootSt k) ∧ (∀ k, (m.modSlice x1 x2).level k = m.level k) ∧
    (∀ k, (m.modSlice x1 x2).collAt k = m.collAt k) ∧ (∀ k, (m.modSlice x1 x2).engine k = m.engine k) ∧
    (∀ k, (m.modSlice x1 x2).pageAt k = m.pageAt k) ∧ (∀ k, (m.modSlice x1 x2).slotAt k = m.slotAt k) ∧
    (∀ k, (m.modSlice x1 x2).src k = m.src k) :=
  ⟨rfl, rfl, fun _ => rfl, fun _ => rfl, fun _ => rfl, fun _ => rfl, fun _ => rfl, fun _ => rfl, fun _ => rfl, fun _ => rfl, fun _ => rfl, fun _ => rfl, fun _ => rfl, fun _ => rfl, fun _ => rfl, fun _ => rfl, fun _ => rfl, fun _ => rfl⟩

@[simp] theorem setPart_reads (x1 : Nat) (x2 : PartRec) :
    (m.setPart x1 x2).node = m.node ∧ (m.setPart x1 x2).ns = m.ns ∧ (∀ k, (m.setPart x1 x2).port k = m.port k) ∧
    (∀ k, (m.setPart x1 x2).fwdAt k = m.fwdAt k) ∧ (∀ k, (m.setPart x1 x2).ctxAt k = m.ctxAt k) ∧
    (∀ k, (m.setPart x1 x2).sliceAt k = m.sliceAt k) ∧ (∀ k, (m.setPart x1 x2).tileAt k = m.tileAt k) ∧
    (∀ k, (m.setPart x1 x2).strmAt k = m.strmAt k) ∧ (∀ k, (m.setPart x1 x2).siteAt k = m.siteAt k) ∧
    (∀ k, (m.setPart x1 x2).rdie k = m.rdie k) ∧ (∀ k, (m.setPart x1 x2).rpart k = m.rpart k) ∧
    (∀ k, (m.setPart x1 x2).bootSt k = m.bootSt k) ∧ (∀ k, (m.setPart x1 x2).level k = m.level k) ∧
    (∀ k, (m.setPart x1 x2).collAt k = m.collAt k) ∧ (∀ k, (m.setPart x1 x2).engine k = m.engine k) ∧
    (∀ k, (m.setPart x1 x2).pageAt k = m.pageAt k) ∧ (∀ k, (m.setPart x1 x2).slotAt k = m.slotAt k) ∧
    (∀ k, (m.setPart x1 x2).src k = m.src k) :=
  ⟨rfl, rfl, fun _ => rfl, fun _ => rfl, fun _ => rfl, fun _ => rfl, fun _ => rfl, fun _ => rfl, fun _ => rfl, fun _ => rfl, fun _ => rfl, fun _ => rfl, fun _ => rfl, fun _ => rfl, fun _ => rfl, fun _ => rfl, fun _ => rfl, fun _ => rfl⟩

@[simp] theorem modPart_reads (x1 : Nat) (x2 : PartRec → PartRec) :
    (m.modPart x1 x2).node = m.node ∧ (m.modPart x1 x2).ns = m.ns ∧ (∀ k, (m.modPart x1 x2).port k = m.port k) ∧
    (∀ k, (m.modPart x1 x2).fwdAt k = m.fwdAt k) ∧ (∀ k, (m.modPart x1 x2).ctxAt k = m.ctxAt k) ∧
    (∀ k, (m.modPart x1 x2).sliceAt k = m.sliceAt k) ∧ (∀ k, (m.modPart x1 x2).tileAt k = m.tileAt k) ∧
    (∀ k, (m.modPart x1 x2).strmAt k = m.strmAt k) ∧ (∀ k, (m.modPart x1 x2).siteAt k = m.siteAt k) ∧
    (∀ k, (m.modPart x1 x2).rdie k = m.rdie k) ∧ (∀ k, (m.modPart x1 x2).rpart k = m.rpart k) ∧
    (∀ k, (m.modPart x1 x2).bootSt k = m.bootSt k) ∧ (∀ k, (m.modPart x1 x2).level k = m.level k) ∧
    (∀ k, (m.modPart x1 x2).collAt k = m.collAt k) ∧ (∀ k, (m.modPart x1 x2).engine k = m.engine k) ∧
    (∀ k, (m.modPart x1 x2).pageAt k = m.pageAt k) ∧ (∀ k, (m.modPart x1 x2).slotAt k = m.slotAt k) ∧
    (∀ k, (m.modPart x1 x2).src k = m.src k) :=
  ⟨rfl, rfl, fun _ => rfl, fun _ => rfl, fun _ => rfl, fun _ => rfl, fun _ => rfl, fun _ => rfl, fun _ => rfl, fun _ => rfl, fun _ => rfl, fun _ => rfl, fun _ => rfl, fun _ => rfl, fun _ => rfl, fun _ => rfl, fun _ => rfl, fun _ => rfl⟩

@[simp] theorem setPhys_reads (x1 : Nat) (x2 : Nat) (x3 : PhysRec) :
    (m.setPhys x1 x2 x3).node = m.node ∧ (m.setPhys x1 x2 x3).ns = m.ns ∧ (∀ k, (m.setPhys x1 x2 x3).port k = m.port k) ∧
    (∀ k, (m.setPhys x1 x2 x3).fwdAt k = m.fwdAt k) ∧ (∀ k, (m.setPhys x1 x2 x3).ctxAt k = m.ctxAt k) ∧
    (∀ k, (m.setPhys x1 x2 x3).partAt k = m.partAt k) ∧ (∀ k, (m.setPhys x1 x2 x3).sliceAt k = m.sliceAt k) ∧
    (∀ k, (m.setPhys x1 x2 x3).tileAt k = m.tileAt k) ∧ (∀ k, (m.setPhys x1 x2 x3).strmAt k = m.strmAt k) ∧
    (∀ k, (m.setPhys x1 x2 x3).siteAt k = m.siteAt k) ∧ (∀ k, (m.setPhys x1 x2 x3).rdie k = m.rdie k) ∧
    (∀ k, (m.setPhys x1 x2 x3).rpart k = m.rpart k) ∧ (∀ k, (m.setPhys x1 x2 x3).bootSt k = m.bootSt k) ∧
    (∀ k, (m.setPhys x1 x2 x3).level k = m.level k) ∧ (∀ k, (m.setPhys x1 x2 x3).collAt k = m.collAt k) ∧
    (∀ k, (m.setPhys x1 x2 x3).engine k = m.engine k) ∧ (∀ k, (m.setPhys x1 x2 x3).pageAt k = m.pageAt k) ∧
    (∀ k, (m.setPhys x1 x2 x3).slotAt k = m.slotAt k) ∧ (∀ k, (m.setPhys x1 x2 x3).src k = m.src k) :=
  ⟨rfl, rfl, fun _ => rfl, fun _ => rfl, fun _ => rfl, fun _ => rfl, fun _ => rfl, fun _ => rfl, fun _ => rfl, fun _ => rfl, fun _ => rfl, fun _ => rfl, fun _ => rfl, fun _ => rfl, fun _ => rfl, fun _ => rfl, fun _ => rfl, fun _ => rfl, fun _ => rfl⟩

@[simp] theorem modRdie_reads (x1 : Nat) (x2 : ReefDie → ReefDie) :
    (m.modRdie x1 x2).node = m.node ∧ (m.modRdie x1 x2).ns = m.ns ∧ (∀ k, (m.modRdie x1 x2).port k = m.port k) ∧
    (∀ k, (m.modRdie x1 x2).fwdAt k = m.fwdAt k) ∧ (∀ k, (m.modRdie x1 x2).ctxAt k = m.ctxAt k) ∧
    (∀ k, (m.modRdie x1 x2).partAt k = m.partAt k) ∧ (∀ k, (m.modRdie x1 x2).sliceAt k = m.sliceAt k) ∧
    (∀ k, (m.modRdie x1 x2).tileAt k = m.tileAt k) ∧ (∀ k, (m.modRdie x1 x2).strmAt k = m.strmAt k) ∧
    (∀ k, (m.modRdie x1 x2).siteAt k = m.siteAt k) ∧ (∀ k, (m.modRdie x1 x2).bootSt k = m.bootSt k) ∧
    (∀ k, (m.modRdie x1 x2).level k = m.level k) ∧ (∀ k, (m.modRdie x1 x2).collAt k = m.collAt k) ∧
    (∀ k, (m.modRdie x1 x2).engine k = m.engine k) ∧ (∀ k, (m.modRdie x1 x2).pageAt k = m.pageAt k) ∧
    (∀ k, (m.modRdie x1 x2).slotAt k = m.slotAt k) ∧ (∀ k, (m.modRdie x1 x2).src k = m.src k) :=
  ⟨rfl, rfl, fun _ => rfl, fun _ => rfl, fun _ => rfl, fun _ => rfl, fun _ => rfl, fun _ => rfl, fun _ => rfl, fun _ => rfl, fun _ => rfl, fun _ => rfl, fun _ => rfl, fun _ => rfl, fun _ => rfl, fun _ => rfl, fun _ => rfl⟩

@[simp] theorem modRpart_reads (x1 : Nat) (x2 : ReefPart → ReefPart) :
    (m.modRpart x1 x2).node = m.node ∧ (m.modRpart x1 x2).ns = m.ns ∧ (∀ k, (m.modRpart x1 x2).port k = m.port k) ∧
    (∀ k, (m.modRpart x1 x2).fwdAt k = m.fwdAt k) ∧ (∀ k, (m.modRpart x1 x2).ctxAt k = m.ctxAt k) ∧
    (∀ k, (m.modRpart x1 x2).partAt k = m.partAt k) ∧ (∀ k, (m.modRpart x1 x2).sliceAt k = m.sliceAt k) ∧
    (∀ k, (m.modRpart x1 x2).tileAt k = m.tileAt k) ∧ (∀ k, (m.modRpart x1 x2).strmAt k = m.strmAt k) ∧
    (∀ k, (m.modRpart x1 x2).siteAt k = m.siteAt k) ∧ (∀ k, (m.modRpart x1 x2).bootSt k = m.bootSt k) ∧
    (∀ k, (m.modRpart x1 x2).level k = m.level k) ∧ (∀ k, (m.modRpart x1 x2).collAt k = m.collAt k) ∧
    (∀ k, (m.modRpart x1 x2).engine k = m.engine k) ∧ (∀ k, (m.modRpart x1 x2).pageAt k = m.pageAt k) ∧
    (∀ k, (m.modRpart x1 x2).slotAt k = m.slotAt k) ∧ (∀ k, (m.modRpart x1 x2).src k = m.src k) :=
  ⟨rfl, rfl, fun _ => rfl, fun _ => rfl, fun _ => rfl, fun _ => rfl, fun _ => rfl, fun _ => rfl, fun _ => rfl, fun _ => rfl, fun _ => rfl, fun _ => rfl, fun _ => rfl, fun _ => rfl, fun _ => rfl, fun _ => rfl, fun _ => rfl⟩

@[simp] theorem modReef_reads (x1 : Reef → Reef) :
    (m.modReef x1).node = m.node ∧ (m.modReef x1).ns = m.ns ∧ (∀ k, (m.modReef x1).port k = m.port k) ∧
    (∀ k, (m.modReef x1).fwdAt k = m.fwdAt k) ∧ (∀ k, (m.modReef x1).ctxAt k = m.ctxAt k) ∧
    (∀ k, (m.modReef x1).partAt k = m.partAt k) ∧ (∀ k, (m.modReef x1).sliceAt k = m.sliceAt k) ∧
    (∀ k, (m.modReef x1).tileAt k = m.tileAt k) ∧ (∀ k, (m.modReef x1).strmAt k = m.strmAt k) ∧
    (∀ k, (m.modReef x1).siteAt k = m.siteAt k) ∧ (∀ k, (m.modReef x1).bootSt k = m.bootSt k) ∧
    (∀ k, (m.modReef x1).level k = m.level k) ∧ (∀ k, (m.modReef x1).collAt k = m.collAt k) ∧
    (∀ k, (m.modReef x1).engine k = m.engine k) ∧ (∀ k, (m.modReef x1).pageAt k = m.pageAt k) ∧
    (∀ k, (m.modReef x1).slotAt k = m.slotAt k) ∧ (∀ k, (m.modReef x1).src k = m.src k) :=
  ⟨rfl, rfl, fun _ => rfl, fun _ => rfl, fun _ => rfl, fun _ => rfl, fun _ => rfl, fun _ => rfl, fun _ => rfl, fun _ => rfl, fun _ => rfl, fun _ => rfl, fun _ => rfl, fun _ => rfl, fun _ => rfl, fun _ => rfl, fun _ => rfl⟩

@[simp] theorem setCtx_reads (x1 : Nat) (x2 : CtxRec) :
    (m.setCtx x1 x2).node = m.node ∧ (m.setCtx x1 x2).ns = m.ns ∧ (∀ k, (m.setCtx x1 x2).port k = m.port k) ∧
    (∀ k, (m.setCtx x1 x2).fwdAt k = m.fwdAt k) ∧ (∀ k, (m.setCtx x1 x2).partAt k = m.partAt k) ∧
    (∀ k, (m.setCtx x1 x2).sliceAt k = m.sliceAt k) ∧ (∀ k, (m.setCtx x1 x2).tileAt k = m.tileAt k) ∧
    (∀ k, (m.setCtx x1 x2).strmAt k = m.strmAt k) ∧ (∀ k, (m.setCtx x1 x2).siteAt k = m.siteAt k) ∧
    (∀ k, (m.setCtx x1 x2).rdie k = m.rdie k) ∧ (∀ k, (m.setCtx x1 x2).rpart k = m.rpart k) ∧
    (∀ k, (m.setCtx x1 x2).bootSt k = m.bootSt k) ∧ (∀ k, (m.setCtx x1 x2).level k = m.level k) ∧
    (∀ k, (m.setCtx x1 x2).collAt k = m.collAt k) ∧ (∀ k, (m.setCtx x1 x2).engine k = m.engine k) ∧
    (∀ k, (m.setCtx x1 x2).pageAt k = m.pageAt k) ∧ (∀ k, (m.setCtx x1 x2).slotAt k = m.slotAt k) ∧
    (∀ k, (m.setCtx x1 x2).src k = m.src k) :=
  ⟨rfl, rfl, fun _ => rfl, fun _ => rfl, fun _ => rfl, fun _ => rfl, fun _ => rfl, fun _ => rfl, fun _ => rfl, fun _ => rfl, fun _ => rfl, fun _ => rfl, fun _ => rfl, fun _ => rfl, fun _ => rfl, fun _ => rfl, fun _ => rfl, fun _ => rfl⟩

@[simp] theorem modCtx_reads (x1 : Nat) (x2 : CtxRec → CtxRec) :
    (m.modCtx x1 x2).node = m.node ∧ (m.modCtx x1 x2).ns = m.ns ∧ (∀ k, (m.modCtx x1 x2).port k = m.port k) ∧
    (∀ k, (m.modCtx x1 x2).fwdAt k = m.fwdAt k) ∧ (∀ k, (m.modCtx x1 x2).partAt k = m.partAt k) ∧
    (∀ k, (m.modCtx x1 x2).sliceAt k = m.sliceAt k) ∧ (∀ k, (m.modCtx x1 x2).tileAt k = m.tileAt k) ∧
    (∀ k, (m.modCtx x1 x2).strmAt k = m.strmAt k) ∧ (∀ k, (m.modCtx x1 x2).siteAt k = m.siteAt k) ∧
    (∀ k, (m.modCtx x1 x2).rdie k = m.rdie k) ∧ (∀ k, (m.modCtx x1 x2).rpart k = m.rpart k) ∧
    (∀ k, (m.modCtx x1 x2).bootSt k = m.bootSt k) ∧ (∀ k, (m.modCtx x1 x2).level k = m.level k) ∧
    (∀ k, (m.modCtx x1 x2).collAt k = m.collAt k) ∧ (∀ k, (m.modCtx x1 x2).engine k = m.engine k) ∧
    (∀ k, (m.modCtx x1 x2).pageAt k = m.pageAt k) ∧ (∀ k, (m.modCtx x1 x2).slotAt k = m.slotAt k) ∧
    (∀ k, (m.modCtx x1 x2).src k = m.src k) :=
  ⟨rfl, rfl, fun _ => rfl, fun _ => rfl, fun _ => rfl, fun _ => rfl, fun _ => rfl, fun _ => rfl, fun _ => rfl, fun _ => rfl, fun _ => rfl, fun _ => rfl, fun _ => rfl, fun _ => rfl, fun _ => rfl, fun _ => rfl, fun _ => rfl, fun _ => rfl⟩

@[simp] theorem modBase_reads (x1 : Nat) (x2 : CtxBase → CtxBase) :
    (m.modBase x1 x2).node = m.node ∧ (m.modBase x1 x2).ns = m.ns ∧ (∀ k, (m.modBase x1 x2).port k = m.port k) ∧
    (∀ k, (m.modBase x1 x2).fwdAt k = m.fwdAt k) ∧ (∀ k, (m.modBase x1 x2).partAt k = m.partAt k) ∧
    (∀ k, (m.modBase x1 x2).sliceAt k = m.sliceAt k) ∧ (∀ k, (m.modBase x1 x2).tileAt k = m.tileAt k) ∧
    (∀ k, (m.modBase x1 x2).strmAt k = m.strmAt k) ∧ (∀ k, (m.modBase x1 x2).siteAt k = m.siteAt k) ∧
    (∀ k, (m.modBase x1 x2).rdie k = m.rdie k) ∧ (∀ k, (m.modBase x1 x2).rpart k = m.rpart k) ∧
    (∀ k, (m.modBase x1 x2).bootSt k = m.bootSt k) ∧ (∀ k, (m.modBase x1 x2).level k = m.level k) ∧
    (∀ k, (m.modBase x1 x2).collAt k = m.collAt k) ∧ (∀ k, (m.modBase x1 x2).engine k = m.engine k) ∧
    (∀ k, (m.modBase x1 x2).pageAt k = m.pageAt k) ∧ (∀ k, (m.modBase x1 x2).slotAt k = m.slotAt k) ∧
    (∀ k, (m.modBase x1 x2).src k = m.src k) :=
  ⟨rfl, rfl, fun _ => rfl, fun _ => rfl, fun _ => rfl, fun _ => rfl, fun _ => rfl, fun _ => rfl, fun _ => rfl, fun _ => rfl, fun _ => rfl, fun _ => rfl, fun _ => rfl, fun _ => rfl, fun _ => rfl, fun _ => rfl, fun _ => rfl, fun _ => rfl⟩

@[simp] theorem modXc_reads (x1 : Nat) (x2 : Xc → Xc) :
    (m.modXc x1 x2).node = m.node ∧ (m.modXc x1 x2).ns = m.ns ∧ (∀ k, (m.modXc x1 x2).port k = m.port k) ∧
    (∀ k, (m.modXc x1 x2).fwdAt k = m.fwdAt k) ∧ (∀ k, (m.modXc x1 x2).partAt k = m.partAt k) ∧
    (∀ k, (m.modXc x1 x2).sliceAt k = m.sliceAt k) ∧ (∀ k, (m.modXc x1 x2).tileAt k = m.tileAt k) ∧
    (∀ k, (m.modXc x1 x2).strmAt k = m.strmAt k) ∧ (∀ k, (m.modXc x1 x2).siteAt k = m.siteAt k) ∧
    (∀ k, (m.modXc x1 x2).rdie k = m.rdie k) ∧ (∀ k, (m.modXc x1 x2).rpart k = m.rpart k) ∧
    (∀ k, (m.modXc x1 x2).bootSt k = m.bootSt k) ∧ (∀ k, (m.modXc x1 x2).level k = m.level k) ∧
    (∀ k, (m.modXc x1 x2).collAt k = m.collAt k) ∧ (∀ k, (m.modXc x1 x2).engine k = m.engine k) ∧
    (∀ k, (m.modXc x1 x2).pageAt k = m.pageAt k) ∧ (∀ k, (m.modXc x1 x2).slotAt k = m.slotAt k) ∧
    (∀ k, (m.modXc x1 x2).src k = m.src k) :=
  ⟨rfl, rfl, fun _ => rfl, fun _ => rfl, fun _ => rfl, fun _ => rfl, fun _ => rfl, fun _ => rfl, fun _ => rfl, fun _ => rfl, fun _ => rfl, fun _ => rfl, fun _ => rfl, fun _ => rfl, fun _ => rfl, fun _ => rfl, fun _ => rfl, fun _ => rfl⟩

@[simp] theorem modQueue_reads (x1 : Nat) (x2 : Nat) (x3 : CeQueue → CeQueue) :
    (m.modQueue x1 x2 x3).node = m.node ∧ (m.modQueue x1 x2 x3).ns = m.ns ∧ (∀ k, (m.modQueue x1 x2 x3).port k = m.port k) ∧
    (∀ k, (m.modQueue x1 x2 x3).fwdAt k = m.fwdAt k) ∧ (∀ k, (m.modQueue x1 x2 x3).partAt k = m.partAt k) ∧
    (∀ k, (m.modQueue x1 x2 x3).sliceAt k = m.sliceAt k) ∧ (∀ k, (m.modQueue x1 x2 x3).tileAt k = m.tileAt k) ∧
    (∀ k, (m.modQueue x1 x2 x3).strmAt k = m.strmAt k) ∧ (∀ k, (m.modQueue x1 x2 x3).siteAt k = m.siteAt k) ∧
    (∀ k, (m.modQueue x1 x2 x3).rdie k = m.rdie k) ∧ (∀ k, (m.modQueue x1 x2 x3).rpart k = m.rpart k) ∧
    (∀ k, (m.modQueue x1 x2 x3).bootSt k = m.bootSt k) ∧ (∀ k, (m.modQueue x1 x2 x3).level k = m.level k) ∧
    (∀ k, (m.modQueue x1 x2 x3).collAt k = m.collAt k) ∧ (∀ k, (m.modQueue x1 x2 x3).engine k = m.engine k) ∧
    (∀ k, (m.modQueue x1 x2 x3).pageAt k = m.pageAt k) ∧ (∀ k, (m.modQueue x1 x2 x3).slotAt k = m.slotAt k) ∧
    (∀ k, (m.modQueue x1 x2 x3).src k = m.src k) :=
  ⟨rfl, rfl, fun _ => rfl, fun _ => rfl, fun _ => rfl, fun _ => rfl, fun _ => rfl, fun _ => rfl, fun _ => rfl, fun _ => rfl, fun _ => rfl, fun _ => rfl, fun _ => rfl, fun _ => rfl, fun _ => rfl, fun _ => rfl, fun _ => rfl, fun _ => rfl⟩

@[simp] theorem modCmd_reads (x1 : Nat) (x2 : Nat) (x3 : CeCmd → CeCmd) :
    (m.modCmd x1 x2 x3).node = m.node ∧ (m.modCmd x1 x2 x3).ns = m.ns ∧ (∀ k, (m.modCmd x1 x2 x3).port k = m.port k) ∧
    (∀ k, (m.modCmd x1 x2 x3).fwdAt k = m.fwdAt k) ∧ (∀ k, (m.modCmd x1 x2 x3).partAt k = m.partAt k) ∧
    (∀ k, (m.modCmd x1 x2 x3).sliceAt k = m.sliceAt k) ∧ (∀ k, (m.modCmd x1 x2 x3).tileAt k = m.tileAt k) ∧
    (∀ k, (m.modCmd x1 x2 x3).strmAt k = m.strmAt k) ∧ (∀ k, (m.modCmd x1 x2 x3).siteAt k = m.siteAt k) ∧
    (∀ k, (m.modCmd x1 x2 x3).rdie k = m.rdie k) ∧ (∀ k, (m.modCmd x1 x2 x3).rpart k = m.rpart k) ∧
    (∀ k, (m.modCmd x1 x2 x3).bootSt k = m.bootSt k) ∧ (∀ k, (m.modCmd x1 x2 x3).level k = m.level k) ∧
    (∀ k, (m.modCmd x1 x2 x3).collAt k = m.collAt k) ∧ (∀ k, (m.modCmd x1 x2 x3).engine k = m.engine k) ∧
    (∀ k, (m.modCmd x1 x2 x3).pageAt k = m.pageAt k) ∧ (∀ k, (m.modCmd x1 x2 x3).slotAt k = m.slotAt k) ∧
    (∀ k, (m.modCmd x1 x2 x3).src k = m.src k) :=
  ⟨rfl, rfl, fun _ => rfl, fun _ => rfl, fun _ => rfl, fun _ => rfl, fun _ => rfl, fun _ => rfl, fun _ => rfl, fun _ => rfl, fun _ => rfl, fun _ => rfl, fun _ => rfl, fun _ => rfl, fun _ => rfl, fun _ => rfl, fun _ => rfl, fun _ => rfl⟩

@[simp] theorem modEngine_reads (x1 : Nat) (x2 : CeEng → CeEng) :
    (m.modEngine x1 x2).node = m.node ∧ (m.modEngine x1 x2).ns = m.ns ∧ (∀ k, (m.modEngine x1 x2).port k = m.port k) ∧
    (∀ k, (m.modEngine x1 x2).fwdAt k = m.fwdAt k) ∧ (∀ k, (m.modEngine x1 x2).ctxAt k = m.ctxAt k) ∧
    (∀ k, (m.modEngine x1 x2).partAt k = m.partAt k) ∧ (∀ k, (m.modEngine x1 x2).sliceAt k = m.sliceAt k) ∧
    (∀ k, (m.modEngine x1 x2).tileAt k = m.tileAt k) ∧ (∀ k, (m.modEngine x1 x2).strmAt k = m.strmAt k) ∧
    (∀ k, (m.modEngine x1 x2).siteAt k = m.siteAt k) ∧ (∀ k, (m.modEngine x1 x2).rdie k = m.rdie k) ∧
    (∀ k, (m.modEngine x1 x2).rpart k = m.rpart k) ∧ (∀ k, (m.modEngine x1 x2).bootSt k = m.bootSt k) ∧
    (∀ k, (m.modEngine x1 x2).level k = m.level k) ∧ (∀ k, (m.modEngine x1 x2).collAt k = m.collAt k) ∧
    (∀ k, (m.modEngine x1 x2).pageAt k = m.pageAt k) ∧ (∀ k, (m.modEngine x1 x2).slotAt k = m.slotAt k) ∧
    (∀ k, (m.modEngine x1 x2).src k = m.src k) :=
  ⟨rfl, rfl, fun _ => rfl, fun _ => rfl, fun _ => rfl, fun _ => rfl, fun _ => rfl, fun _ => rfl, fun _ => rfl, fun _ => rfl, fun _ => rfl, fun _ => rfl, fun _ => rfl, fun _ => rfl, fun _ => rfl, fun _ => rfl, fun _ => rfl, fun _ => rfl⟩

@[simp] theorem setFwd_reads (x1 : Nat) (x2 : FwdRec) :
    (m.setFwd x1 x2).node = m.node ∧ (m.setFwd x1 x2).ns = m.ns ∧ (∀ k, (m.setFwd x1 x2).port k = m.port k) ∧
    (∀ k, (m.setFwd x1 x2).ctxAt k = m.ctxAt k) ∧ (∀ k, (m.setFwd x1 x2).partAt k = m.partAt k) ∧
    (∀ k, (m.setFwd x1 x2).sliceAt k = m.sliceAt k) ∧ (∀ k, (m.setFwd x1 x2).tileAt k = m.tileAt k) ∧
    (∀ k, (m.setFwd x1 x2).strmAt k = m.strmAt k) ∧ (∀ k, (m.setFwd x1 x2).siteAt k = m.siteAt k) ∧
    (∀ k, (m.setFwd x1 x2).rdie k = m.rdie k) ∧ (∀ k, (m.setFwd x1 x2).rpart k = m.rpart k) ∧
    (∀ k, (m.setFwd x1 x2).bootSt k = m.bootSt k) ∧ (∀ k, (m.setFwd x1 x2).level k = m.level k) ∧
    (∀ k, (m.setFwd x1 x2).collAt k = m.collAt k) ∧ (∀ k, (m.setFwd x1 x2).engine k = m.engine k) ∧
    (∀ k, (m.setFwd x1 x2).pageAt k = m.pageAt k) ∧ (∀ k, (m.setFwd x1 x2).slotAt k = m.slotAt k) ∧
    (∀ k, (m.setFwd x1 x2).src k = m.src k) :=
  ⟨rfl, rfl, fun _ => rfl, fun _ => rfl, fun _ => rfl, fun _ => rfl, fun _ => rfl, fun _ => rfl, fun _ => rfl, fun _ => rfl, fun _ => rfl, fun _ => rfl, fun _ => rfl, fun _ => rfl, fun _ => rfl, fun _ => rfl, fun _ => rfl, fun _ => rfl⟩

@[simp] theorem modFwd_reads (x1 : Nat) (x2 : FwdRec → FwdRec) :
    (m.modFwd x1 x2).node = m.node ∧ (m.modFwd x1 x2).ns = m.ns ∧ (∀ k, (m.modFwd x1 x2).port k = m.port k) ∧
    (∀ k, (m.modFwd x1 x2).ctxAt k = m.ctxAt k) ∧ (∀ k, (m.modFwd x1 x2).partAt k = m.partAt k) ∧
    (∀ k, (m.modFwd x1 x2).sliceAt k = m.sliceAt k) ∧ (∀ k, (m.modFwd x1 x2).tileAt k = m.tileAt k) ∧
    (∀ k, (m.modFwd x1 x2).strmAt k = m.strmAt k) ∧ (∀ k, (m.modFwd x1 x2).siteAt k = m.siteAt k) ∧
    (∀ k, (m.modFwd x1 x2).rdie k = m.rdie k) ∧ (∀ k, (m.modFwd x1 x2).rpart k = m.rpart k) ∧
    (∀ k, (m.modFwd x1 x2).bootSt k = m.bootSt k) ∧ (∀ k, (m.modFwd x1 x2).level k = m.level k) ∧
    (∀ k, (m.modFwd x1 x2).collAt k = m.collAt k) ∧ (∀ k, (m.modFwd x1 x2).engine k = m.engine k) ∧
    (∀ k, (m.modFwd x1 x2).pageAt k = m.pageAt k) ∧ (∀ k, (m.modFwd x1 x2).slotAt k = m.slotAt k) ∧
    (∀ k, (m.modFwd x1 x2).src k = m.src k) :=
  ⟨rfl, rfl, fun _ => rfl, fun _ => rfl, fun _ => rfl, fun _ => rfl, fun _ => rfl, fun _ => rfl, fun _ => rfl, fun _ => rfl, fun _ => rfl, fun _ => rfl, fun _ => rfl, fun _ => rfl, fun _ => rfl, fun _ => rfl, fun _ => rfl, fun _ => rfl⟩

@[simp] theorem modFwdCnt_reads (x1 : Nat) (x2 : FwdCnt → FwdCnt) :
    (m.modFwdCnt x1 x2).node = m.node ∧ (m.modFwdCnt x1 x2).ns = m.ns ∧ (∀ k, (m.modFwdCnt x1 x2).port k = m.port k) ∧
    (∀ k, (m.modFwdCnt x1 x2).ctxAt k = m.ctxAt k) ∧ (∀ k, (m.modFwdCnt x1 x2).partAt k = m.partAt k) ∧
    (∀ k, (m.modFwdCnt x1 x2).sliceAt k = m.sliceAt k) ∧ (∀ k, (m.modFwdCnt x1 x2).tileAt k = m.tileAt k) ∧
    (∀ k, (m.modFwdCnt x1 x2).strmAt k = m.strmAt k) ∧ (∀ k, (m.modFwdCnt x1 x2).siteAt k = m.siteAt k) ∧
    (∀ k, (m.modFwdCnt x1 x2).rdie k = m.rdie k) ∧ (∀ k, (m.modFwdCnt x1 x2).rpart k = m.rpart k) ∧
    (∀ k, (m.modFwdCnt x1 x2).bootSt k = m.bootSt k) ∧ (∀ k, (m.modFwdCnt x1 x2).level k = m.level k) ∧
    (∀ k, (m.modFwdCnt x1 x2).collAt k = m.collAt k) ∧ (∀ k, (m.modFwdCnt x1 x2).engine k = m.engine k) ∧
    (∀ k, (m.modFwdCnt x1 x2).pageAt k = m.pageAt k) ∧ (∀ k, (m.modFwdCnt x1 x2).slotAt k = m.slotAt k) ∧
    (∀ k, (m.modFwdCnt x1 x2).src k = m.src k) :=
  ⟨rfl, rfl, fun _ => rfl, fun _ => rfl, fun _ => rfl, fun _ => rfl, fun _ => rfl, fun _ => rfl, fun _ => rfl, fun _ => rfl, fun _ => rfl, fun _ => rfl, fun _ => rfl, fun _ => rfl, fun _ => rfl, fun _ => rfl, fun _ => rfl, fun _ => rfl⟩

@[simp] theorem setStrm_reads (x1 : Nat) (x2 : StreamRec) :
    (m.setStrm x1 x2).node = m.node ∧ (m.setStrm x1 x2).ns = m.ns ∧ (∀ k, (m.setStrm x1 x2).port k = m.port k) ∧
    (∀ k, (m.setStrm x1 x2).fwdAt k = m.fwdAt k) ∧ (∀ k, (m.setStrm x1 x2).ctxAt k = m.ctxAt k) ∧
    (∀ k, (m.setStrm x1 x2).partAt k = m.partAt k) ∧ (∀ k, (m.setStrm x1 x2).sliceAt k = m.sliceAt k) ∧
    (∀ k, (m.setStrm x1 x2).tileAt k = m.tileAt k) ∧ (∀ k, (m.setStrm x1 x2).siteAt k = m.siteAt k) ∧
    (∀ k, (m.setStrm x1 x2).rdie k = m.rdie k) ∧ (∀ k, (m.setStrm x1 x2).rpart k = m.rpart k) ∧
    (∀ k, (m.setStrm x1 x2).bootSt k = m.bootSt k) ∧ (∀ k, (m.setStrm x1 x2).level k = m.level k) ∧
    (∀ k, (m.setStrm x1 x2).collAt k = m.collAt k) ∧ (∀ k, (m.setStrm x1 x2).engine k = m.engine k) ∧
    (∀ k, (m.setStrm x1 x2).pageAt k = m.pageAt k) ∧ (∀ k, (m.setStrm x1 x2).slotAt k = m.slotAt k) ∧
    (∀ k, (m.setStrm x1 x2).src k = m.src k) :=
  ⟨rfl, rfl, fun _ => rfl, fun _ => rfl, fun _ => rfl, fun _ => rfl, fun _ => rfl, fun _ => rfl, fun _ => rfl, fun _ => rfl, fun _ => rfl, fun _ => rfl, fun _ => rfl, fun _ => rfl, fun _ => rfl, fun _ => rfl, fun _ => rfl, fun _ => rfl⟩

@[simp] theorem modStrm_reads (x1 : Nat) (x2 : StreamRec → StreamRec) :
    (m.modStrm x1 x2).node = m.node ∧ (m.modStrm x1 x2).ns = m.ns ∧ (∀ k, (m.modStrm x1 x2).port k = m.port k) ∧
    (∀ k, (m.modStrm x1 x2).fwdAt k = m.fwdAt k) ∧ (∀ k, (m.modStrm x1 x2).ctxAt k = m.ctxAt k) ∧
    (∀ k, (m.modStrm x1 x2).partAt k = m.partAt k) ∧ (∀ k, (m.modStrm x1 x2).sliceAt k = m.sliceAt k) ∧
    (∀ k, (m.modStrm x1 x2).tileAt k = m.tileAt k) ∧ (∀ k, (m.modStrm x1 x2).siteAt k = m.siteAt k) ∧
    (∀ k, (m.modStrm x1 x2).rdie k = m.rdie k) ∧ (∀ k, (m.modStrm x1 x2).rpart k = m.rpart k) ∧
    (∀ k, (m.modStrm x1 x2).bootSt k = m.bootSt k) ∧ (∀ k, (m.modStrm x1 x2).level k = m.level k) ∧
    (∀ k, (m.modStrm x1 x2).collAt k = m.collAt k) ∧ (∀ k, (m.modStrm x1 x2).engine k = m.engine k) ∧
    (∀ k, (m.modStrm x1 x2).pageAt k = m.pageAt k) ∧ (∀ k, (m.modStrm x1 x2).slotAt k = m.slotAt k) ∧
    (∀ k, (m.modStrm x1 x2).src k = m.src k) :=
  ⟨rfl, rfl, fun _ => rfl, fun _ => rfl, fun _ => rfl, fun _ => rfl, fun _ => rfl, fun _ => rfl, fun _ => rfl, fun _ => rfl, fun _ => rfl, fun _ => rfl, fun _ => rfl, fun _ => rfl, fun _ => rfl, fun _ => rfl, fun _ => rfl, fun _ => rfl⟩

@[simp] theorem setColl_reads (x1 : Nat) (x2 : Option CollRec) :
    (m.setColl x1 x2).node = m.node ∧ (m.setColl x1 x2).ns = m.ns ∧ (∀ k, (m.setColl x1 x2).port k = m.port k) ∧
    (∀ k, (m.setColl x1 x2).fwdAt k = m.fwdAt k) ∧ (∀ k, (m.setColl x1 x2).ctxAt k = m.ctxAt k) ∧
    (∀ k, (m.setColl x1 x2).partAt k = m.partAt k) ∧ (∀ k, (m.setColl x1 x2).sliceAt k = m.sliceAt k) ∧
    (∀ k, (m.setColl x1 x2).tileAt k = m.tileAt k) ∧ (∀ k, (m.setColl x1 x2).strmAt k = m.strmAt k) ∧
    (∀ k, (m.setColl x1 x2).siteAt k = m.siteAt k) ∧ (∀ k, (m.setColl x1 x2).rdie k = m.rdie k) ∧
    (∀ k, (m.setColl x1 x2).rpart k = m.rpart k) ∧ (∀ k, (m.setColl x1 x2).bootSt k = m.bootSt k) ∧
    (∀ k, (m.setColl x1 x2).level k = m.level k) ∧ (∀ k, (m.setColl x1 x2).engine k = m.engine k) ∧
    (∀ k, (m.setColl x1 x2).pageAt k = m.pageAt k) ∧ (∀ k, (m.setColl x1 x2).slotAt k = m.slotAt k) ∧
    (∀ k, (m.setColl x1 x2).src k = m.src k) :=
  ⟨rfl, rfl, fun _ => rfl, fun _ => rfl, fun _ => rfl, fun _ => rfl, fun _ => rfl, fun _ => rfl, fun _ => rfl, fun _ => rfl, fun _ => rfl, fun _ => rfl, fun _ => rfl, fun _ => rfl, fun _ => rfl, fun _ => rfl, fun _ => rfl, fun _ => rfl⟩

@[simp] theorem setTile_reads (x1 : Nat) (x2 : TileRec) :
    (m.setTile x1 x2).node = m.node ∧ (m.setTile x1 x2).ns = m.ns ∧ (∀ k, (m.setTile x1 x2).port k = m.port k) ∧
    (∀ k, (m.setTile x1 x2).fwdAt k = m.fwdAt k) ∧ (∀ k, (m.setTile x1 x2).ctxAt k = m.ctxAt k) ∧
    (∀ k, (m.setTile x1 x2).partAt k = m.partAt k) ∧ (∀ k, (m.setTile x1 x2).sliceAt k = m.sliceAt k) ∧
    (∀ k, (m.setTile x1 x2).strmAt k = m.strmAt k) ∧ (∀ k, (m.setTile x1 x2).siteAt k = m.siteAt k) ∧
    (∀ k, (m.setTile x1 x2).rdie k = m.rdie k) ∧ (∀ k, (m.setTile x1 x2).rpart k = m.rpart k) ∧
    (∀ k, (m.setTile x1 x2).bootSt k = m.bootSt k) ∧ (∀ k, (m.setTile x1 x2).level k = m.level k) ∧
    (∀ k, (m.setTile x1 x2).collAt k = m.collAt k) ∧ (∀ k, (m.setTile x1 x2).engine k = m.engine k) ∧
    (∀ k, (m.setTile x1 x2).pageAt k = m.pageAt k) ∧ (∀ k, (m.setTile x1 x2).slotAt k = m.slotAt k) ∧
    (∀ k, (m.setTile x1 x2).src k = m.src k) :=
  ⟨rfl, rfl, fun _ => rfl, fun _ => rfl, fun _ => rfl, fun _ => rfl, fun _ => rfl, fun _ => rfl, fun _ => rfl, fun _ => rfl, fun _ => rfl, fun _ => rfl, fun _ => rfl, fun _ => rfl, fun _ => rfl, fun _ => rfl, fun _ => rfl, fun _ => rfl⟩

@[simp] theorem modTile_reads (x1 : Nat) (x2 : TileRec → TileRec) :
    (m.modTile x1 x2).node = m.node ∧ (m.modTile x1 x2).ns = m.ns ∧ (∀ k, (m.modTile x1 x2).port k = m.port k) ∧
    (∀ k, (m.modTile x1 x2).fwdAt k = m.fwdAt k) ∧ (∀ k, (m.modTile x1 x2).ctxAt k = m.ctxAt k) ∧
    (∀ k, (m.modTile x1 x2).partAt k = m.partAt k) ∧ (∀ k, (m.modTile x1 x2).sliceAt k = m.sliceAt k) ∧
    (∀ k, (m.modTile x1 x2).strmAt k = m.strmAt k) ∧ (∀ k, (m.modTile x1 x2).siteAt k = m.siteAt k) ∧
    (∀ k, (m.modTile x1 x2).rdie k = m.rdie k) ∧ (∀ k, (m.modTile x1 x2).rpart k = m.rpart k) ∧
    (∀ k, (m.modTile x1 x2).bootSt k = m.bootSt k) ∧ (∀ k, (m.modTile x1 x2).level k = m.level k) ∧
    (∀ k, (m.modTile x1 x2).collAt k = m.collAt k) ∧ (∀ k, (m.modTile x1 x2).engine k = m.engine k) ∧
    (∀ k, (m.modTile x1 x2).pageAt k = m.pageAt k) ∧ (∀ k, (m.modTile x1 x2).slotAt k = m.slotAt k) ∧
    (∀ k, (m.modTile x1 x2).src k = m.src k) :=
  ⟨rfl, rfl, fun _ => rfl, fun _ => rfl, fun _ => rfl, fun _ => rfl, fun _ => rfl, fun _ => rfl, fun _ => rfl, fun _ => rfl, fun _ => rfl, fun _ => rfl, fun _ => rfl, fun _ => rfl, fun _ => rfl, fun _ => rfl, fun _ => rfl, fun _ => rfl⟩

@[simp] theorem accErr_reads (x1 : Nat) (x2 : Nat) (x3 : Nat) :
    (m.accErr x1 x2 x3).node = m.node ∧ (m.accErr x1 x2 x3).ns = m.ns ∧ (∀ k, (m.accErr x1 x2 x3).port k = m.port k) ∧
    (∀ k, (m.accErr x1 x2 x3).fwdAt k = m.fwdAt k) ∧ (∀ k, (m.accErr x1 x2 x3).ctxAt k = m.ctxAt k) ∧
    (∀ k, (m.accErr x1 x2 x3).partAt k = m.partAt k) ∧ (∀ k, (m.accErr x1 x2 x3).sliceAt k = m.sliceAt k) ∧
    (∀ k, (m.accErr x1 x2 x3).tileAt k = m.tileAt k) ∧ (∀ k, (m.accErr x1 x2 x3).strmAt k = m.strmAt k) ∧
    (∀ k, (m.accErr x1 x2 x3).siteAt k = m.siteAt k) ∧ (∀ k, (m.accErr x1 x2 x3).rdie k = m.rdie k) ∧
    (∀ k, (m.accErr x1 x2 x3).rpart k = m.rpart k) ∧ (∀ k, (m.accErr x1 x2 x3).bootSt k = m.bootSt k) ∧
    (∀ k, (m.accErr x1 x2 x3).level k = m.level k) ∧ (∀ k, (m.accErr x1 x2 x3).collAt k = m.collAt k) ∧
    (∀ k, (m.accErr x1 x2 x3).engine k = m.engine k) ∧ (∀ k, (m.accErr x1 x2 x3).pageAt k = m.pageAt k) ∧
    (∀ k, (m.accErr x1 x2 x3).slotAt k = m.slotAt k) ∧ (∀ k, (m.accErr x1 x2 x3).src k = m.src k) :=
  ⟨rfl, rfl, fun _ => rfl, fun _ => rfl, fun _ => rfl, fun _ => rfl, fun _ => rfl, fun _ => rfl, fun _ => rfl, fun _ => rfl, fun _ => rfl, fun _ => rfl, fun _ => rfl, fun _ => rfl, fun _ => rfl, fun _ => rfl, fun _ => rfl, fun _ => rfl, fun _ => rfl⟩

@[simp] theorem modFar_reads (x1 : Farnis → Farnis) :
    (m.modFar x1).node = m.node ∧ (m.modFar x1).ns = m.ns ∧ (∀ k, (m.modFar x1).port k = m.port k) ∧
    (∀ k, (m.modFar x1).fwdAt k = m.fwdAt k) ∧ (∀ k, (m.modFar x1).ctxAt k = m.ctxAt k) ∧
    (∀ k, (m.modFar x1).partAt k = m.partAt k) ∧ (∀ k, (m.modFar x1).sliceAt k = m.sliceAt k) ∧
    (∀ k, (m.modFar x1).tileAt k = m.tileAt k) ∧ (∀ k, (m.modFar x1).strmAt k = m.strmAt k) ∧
    (∀ k, (m.modFar x1).rdie k = m.rdie k) ∧ (∀ k, (m.modFar x1).rpart k = m.rpart k) ∧
    (∀ k, (m.modFar x1).bootSt k = m.bootSt k) ∧ (∀ k, (m.modFar x1).level k = m.level k) ∧
    (∀ k, (m.modFar x1).collAt k = m.collAt k) ∧ (∀ k, (m.modFar x1).engine k = m.engine k) ∧
    (∀ k, (m.modFar x1).pageAt k = m.pageAt k) ∧ (∀ k, (m.modFar x1).slotAt k = m.slotAt k) ∧
    (∀ k, (m.modFar x1).src k = m.src k) :=
  ⟨rfl, rfl, fun _ => rfl, fun _ => rfl, fun _ => rfl, fun _ => rfl, fun _ => rfl, fun _ => rfl, fun _ => rfl, fun _ => rfl, fun _ => rfl, fun _ => rfl, fun _ => rfl, fun _ => rfl, fun _ => rfl, fun _ => rfl, fun _ => rfl, fun _ => rfl⟩

@[simp] theorem modSite_reads (x1 : Nat) (x2 : SiteRec → SiteRec) :
    (m.modSite x1 x2).node = m.node ∧ (m.modSite x1 x2).ns = m.ns ∧ (∀ k, (m.modSite x1 x2).port k = m.port k) ∧
    (∀ k, (m.modSite x1 x2).fwdAt k = m.fwdAt k) ∧ (∀ k, (m.modSite x1 x2).ctxAt k = m.ctxAt k) ∧
    (∀ k, (m.modSite x1 x2).partAt k = m.partAt k) ∧ (∀ k, (m.modSite x1 x2).sliceAt k = m.sliceAt k) ∧
    (∀ k, (m.modSite x1 x2).tileAt k = m.tileAt k) ∧ (∀ k, (m.modSite x1 x2).strmAt k = m.strmAt k) ∧
    (∀ k, (m.modSite x1 x2).rdie k = m.rdie k) ∧ (∀ k, (m.modSite x1 x2).rpart k = m.rpart k) ∧
    (∀ k, (m.modSite x1 x2).bootSt k = m.bootSt k) ∧ (∀ k, (m.modSite x1 x2).level k = m.level k) ∧
    (∀ k, (m.modSite x1 x2).collAt k = m.collAt k) ∧ (∀ k, (m.modSite x1 x2).engine k = m.engine k) ∧
    (∀ k, (m.modSite x1 x2).pageAt k = m.pageAt k) ∧ (∀ k, (m.modSite x1 x2).slotAt k = m.slotAt k) ∧
    (∀ k, (m.modSite x1 x2).src k = m.src k) :=
  ⟨rfl, rfl, fun _ => rfl, fun _ => rfl, fun _ => rfl, fun _ => rfl, fun _ => rfl, fun _ => rfl, fun _ => rfl, fun _ => rfl, fun _ => rfl, fun _ => rfl, fun _ => rfl, fun _ => rfl, fun _ => rfl, fun _ => rfl, fun _ => rfl, fun _ => rfl⟩

@[simp] theorem modLuff_reads (x1 : Luff → Luff) :
    (m.modLuff x1).node = m.node ∧ (m.modLuff x1).ns = m.ns ∧ (∀ k, (m.modLuff x1).port k = m.port k) ∧
    (∀ k, (m.modLuff x1).fwdAt k = m.fwdAt k) ∧ (∀ k, (m.modLuff x1).ctxAt k = m.ctxAt k) ∧
    (∀ k, (m.modLuff x1).partAt k = m.partAt k) ∧ (∀ k, (m.modLuff x1).sliceAt k = m.sliceAt k) ∧
    (∀ k, (m.modLuff x1).tileAt k = m.tileAt k) ∧ (∀ k, (m.modLuff x1).strmAt k = m.strmAt k) ∧
    (∀ k, (m.modLuff x1).siteAt k = m.siteAt k) ∧ (∀ k, (m.modLuff x1).rdie k = m.rdie k) ∧
    (∀ k, (m.modLuff x1).rpart k = m.rpart k) ∧ (∀ k, (m.modLuff x1).bootSt k = m.bootSt k) ∧
    (∀ k, (m.modLuff x1).level k = m.level k) ∧ (∀ k, (m.modLuff x1).collAt k = m.collAt k) ∧
    (∀ k, (m.modLuff x1).engine k = m.engine k) ∧ (∀ k, (m.modLuff x1).pageAt k = m.pageAt k) ∧
    (∀ k, (m.modLuff x1).slotAt k = m.slotAt k) ∧ (∀ k, (m.modLuff x1).src k = m.src k) :=
  ⟨rfl, rfl, fun _ => rfl, fun _ => rfl, fun _ => rfl, fun _ => rfl, fun _ => rfl, fun _ => rfl, fun _ => rfl, fun _ => rfl, fun _ => rfl, fun _ => rfl, fun _ => rfl, fun _ => rfl, fun _ => rfl, fun _ => rfl, fun _ => rfl, fun _ => rfl, fun _ => rfl⟩

@[simp] theorem modWatch_reads (x1 : Nat) (x2 : Watch → Watch) :
    (m.modWatch x1 x2).node = m.node ∧ (m.modWatch x1 x2).ns = m.ns ∧ (∀ k, (m.modWatch x1 x2).port k = m.port k) ∧
    (∀ k, (m.modWatch x1 x2).fwdAt k = m.fwdAt k) ∧ (∀ k, (m.modWatch x1 x2).ctxAt k = m.ctxAt k) ∧
    (∀ k, (m.modWatch x1 x2).partAt k = m.partAt k) ∧ (∀ k, (m.modWatch x1 x2).sliceAt k = m.sliceAt k) ∧
    (∀ k, (m.modWatch x1 x2).tileAt k = m.tileAt k) ∧ (∀ k, (m.modWatch x1 x2).strmAt k = m.strmAt k) ∧
    (∀ k, (m.modWatch x1 x2).siteAt k = m.siteAt k) ∧ (∀ k, (m.modWatch x1 x2).rdie k = m.rdie k) ∧
    (∀ k, (m.modWatch x1 x2).rpart k = m.rpart k) ∧ (∀ k, (m.modWatch x1 x2).bootSt k = m.bootSt k) ∧
    (∀ k, (m.modWatch x1 x2).level k = m.level k) ∧ (∀ k, (m.modWatch x1 x2).collAt k = m.collAt k) ∧
    (∀ k, (m.modWatch x1 x2).engine k = m.engine k) ∧ (∀ k, (m.modWatch x1 x2).pageAt k = m.pageAt k) ∧
    (∀ k, (m.modWatch x1 x2).slotAt k = m.slotAt k) ∧ (∀ k, (m.modWatch x1 x2).src k = m.src k) :=
  ⟨rfl, rfl, fun _ => rfl, fun _ => rfl, fun _ => rfl, fun _ => rfl, fun _ => rfl, fun _ => rfl, fun _ => rfl, fun _ => rfl, fun _ => rfl, fun _ => rfl, fun _ => rfl, fun _ => rfl, fun _ => rfl, fun _ => rfl, fun _ => rfl, fun _ => rfl, fun _ => rfl⟩

@[simp] theorem hostWrite_reads (x1 : Nat) (x2 : List Byte) :
    (m.hostWrite x1 x2).node = m.node ∧ (m.hostWrite x1 x2).ns = m.ns ∧ (∀ k, (m.hostWrite x1 x2).port k = m.port k) ∧
    (∀ k, (m.hostWrite x1 x2).fwdAt k = m.fwdAt k) ∧ (∀ k, (m.hostWrite x1 x2).ctxAt k = m.ctxAt k) ∧
    (∀ k, (m.hostWrite x1 x2).partAt k = m.partAt k) ∧ (∀ k, (m.hostWrite x1 x2).sliceAt k = m.sliceAt k) ∧
    (∀ k, (m.hostWrite x1 x2).tileAt k = m.tileAt k) ∧ (∀ k, (m.hostWrite x1 x2).strmAt k = m.strmAt k) ∧
    (∀ k, (m.hostWrite x1 x2).siteAt k = m.siteAt k) ∧ (∀ k, (m.hostWrite x1 x2).rdie k = m.rdie k) ∧
    (∀ k, (m.hostWrite x1 x2).rpart k = m.rpart k) ∧ (∀ k, (m.hostWrite x1 x2).bootSt k = m.bootSt k) ∧
    (∀ k, (m.hostWrite x1 x2).level k = m.level k) ∧ (∀ k, (m.hostWrite x1 x2).collAt k = m.collAt k) ∧
    (∀ k, (m.hostWrite x1 x2).engine k = m.engine k) ∧ (∀ k, (m.hostWrite x1 x2).pageAt k = m.pageAt k) ∧
    (∀ k, (m.hostWrite x1 x2).slotAt k = m.slotAt k) ∧ (∀ k, (m.hostWrite x1 x2).src k = m.src k) :=
  ⟨rfl, rfl, fun _ => rfl, fun _ => rfl, fun _ => rfl, fun _ => rfl, fun _ => rfl, fun _ => rfl, fun _ => rfl, fun _ => rfl, fun _ => rfl, fun _ => rfl, fun _ => rfl, fun _ => rfl, fun _ => rfl, fun _ => rfl, fun _ => rfl, fun _ => rfl, fun _ => rfl⟩

@[simp] theorem hostStores_reads (x1 : Cells) :
    (m.hostStores x1).node = m.node ∧ (m.hostStores x1).ns = m.ns ∧ (∀ k, (m.hostStores x1).port k = m.port k) ∧
    (∀ k, (m.hostStores x1).fwdAt k = m.fwdAt k) ∧ (∀ k, (m.hostStores x1).ctxAt k = m.ctxAt k) ∧
    (∀ k, (m.hostStores x1).partAt k = m.partAt k) ∧ (∀ k, (m.hostStores x1).sliceAt k = m.sliceAt k) ∧
    (∀ k, (m.hostStores x1).tileAt k = m.tileAt k) ∧ (∀ k, (m.hostStores x1).strmAt k = m.strmAt k) ∧
    (∀ k, (m.hostStores x1).siteAt k = m.siteAt k) ∧ (∀ k, (m.hostStores x1).rdie k = m.rdie k) ∧
    (∀ k, (m.hostStores x1).rpart k = m.rpart k) ∧ (∀ k, (m.hostStores x1).bootSt k = m.bootSt k) ∧
    (∀ k, (m.hostStores x1).level k = m.level k) ∧ (∀ k, (m.hostStores x1).collAt k = m.collAt k) ∧
    (∀ k, (m.hostStores x1).engine k = m.engine k) ∧ (∀ k, (m.hostStores x1).pageAt k = m.pageAt k) ∧
    (∀ k, (m.hostStores x1).slotAt k = m.slotAt k) ∧ (∀ k, (m.hostStores x1).src k = m.src k) :=
  ⟨rfl, rfl, fun _ => rfl, fun _ => rfl, fun _ => rfl, fun _ => rfl, fun _ => rfl, fun _ => rfl, fun _ => rfl, fun _ => rfl, fun _ => rfl, fun _ => rfl, fun _ => rfl, fun _ => rfl, fun _ => rfl, fun _ => rfl, fun _ => rfl, fun _ => rfl, fun _ => rfl⟩

@[simp] theorem hbmWrite_reads (x1 : Nat) (x2 : List Byte) :
    (m.hbmWrite x1 x2).node = m.node ∧ (m.hbmWrite x1 x2).ns = m.ns ∧ (∀ k, (m.hbmWrite x1 x2).port k = m.port k) ∧
    (∀ k, (m.hbmWrite x1 x2).fwdAt k = m.fwdAt k) ∧ (∀ k, (m.hbmWrite x1 x2).ctxAt k = m.ctxAt k) ∧
    (∀ k, (m.hbmWrite x1 x2).partAt k = m.partAt k) ∧ (∀ k, (m.hbmWrite x1 x2).sliceAt k = m.sliceAt k) ∧
    (∀ k, (m.hbmWrite x1 x2).tileAt k = m.tileAt k) ∧ (∀ k, (m.hbmWrite x1 x2).strmAt k = m.strmAt k) ∧
    (∀ k, (m.hbmWrite x1 x2).siteAt k = m.siteAt k) ∧ (∀ k, (m.hbmWrite x1 x2).rdie k = m.rdie k) ∧
    (∀ k, (m.hbmWrite x1 x2).rpart k = m.rpart k) ∧ (∀ k, (m.hbmWrite x1 x2).bootSt k = m.bootSt k) ∧
    (∀ k, (m.hbmWrite x1 x2).level k = m.level k) ∧ (∀ k, (m.hbmWrite x1 x2).collAt k = m.collAt k) ∧
    (∀ k, (m.hbmWrite x1 x2).engine k = m.engine k) ∧ (∀ k, (m.hbmWrite x1 x2).slotAt k = m.slotAt k) ∧
    (∀ k, (m.hbmWrite x1 x2).src k = m.src k) :=
  ⟨rfl, rfl, fun _ => rfl, fun _ => rfl, fun _ => rfl, fun _ => rfl, fun _ => rfl, fun _ => rfl, fun _ => rfl, fun _ => rfl, fun _ => rfl, fun _ => rfl, fun _ => rfl, fun _ => rfl, fun _ => rfl, fun _ => rfl, fun _ => rfl, fun _ => rfl⟩

@[simp] theorem hbmZero_reads (x1 : Nat) (x2 : Nat) :
    (m.hbmZero x1 x2).node = m.node ∧ (m.hbmZero x1 x2).ns = m.ns ∧ (∀ k, (m.hbmZero x1 x2).port k = m.port k) ∧
    (∀ k, (m.hbmZero x1 x2).fwdAt k = m.fwdAt k) ∧ (∀ k, (m.hbmZero x1 x2).ctxAt k = m.ctxAt k) ∧
    (∀ k, (m.hbmZero x1 x2).partAt k = m.partAt k) ∧ (∀ k, (m.hbmZero x1 x2).sliceAt k = m.sliceAt k) ∧
    (∀ k, (m.hbmZero x1 x2).tileAt k = m.tileAt k) ∧ (∀ k, (m.hbmZero x1 x2).strmAt k = m.strmAt k) ∧
    (∀ k, (m.hbmZero x1 x2).siteAt k = m.siteAt k) ∧ (∀ k, (m.hbmZero x1 x2).rdie k = m.rdie k) ∧
    (∀ k, (m.hbmZero x1 x2).rpart k = m.rpart k) ∧ (∀ k, (m.hbmZero x1 x2).bootSt k = m.bootSt k) ∧
    (∀ k, (m.hbmZero x1 x2).level k = m.level k) ∧ (∀ k, (m.hbmZero x1 x2).collAt k = m.collAt k) ∧
    (∀ k, (m.hbmZero x1 x2).engine k = m.engine k) ∧ (∀ k, (m.hbmZero x1 x2).slotAt k = m.slotAt k) ∧
    (∀ k, (m.hbmZero x1 x2).src k = m.src k) :=
  ⟨rfl, rfl, fun _ => rfl, fun _ => rfl, fun _ => rfl, fun _ => rfl, fun _ => rfl, fun _ => rfl, fun _ => rfl, fun _ => rfl, fun _ => rfl, fun _ => rfl, fun _ => rfl, fun _ => rfl, fun _ => rfl, fun _ => rfl, fun _ => rfl, fun _ => rfl⟩

@[simp] theorem setPage_reads (x1 : Nat) (x2 : PageRec) :
    (m.setPage x1 x2).node = m.node ∧ (m.setPage x1 x2).ns = m.ns ∧ (∀ k, (m.setPage x1 x2).port k = m.port k) ∧
    (∀ k, (m.setPage x1 x2).fwdAt k = m.fwdAt k) ∧ (∀ k, (m.setPage x1 x2).ctxAt k = m.ctxAt k) ∧
    (∀ k, (m.setPage x1 x2).partAt k = m.partAt k) ∧ (∀ k, (m.setPage x1 x2).sliceAt k = m.sliceAt k) ∧
    (∀ k, (m.setPage x1 x2).tileAt k = m.tileAt k) ∧ (∀ k, (m.setPage x1 x2).strmAt k = m.strmAt k) ∧
    (∀ k, (m.setPage x1 x2).siteAt k = m.siteAt k) ∧ (∀ k, (m.setPage x1 x2).rdie k = m.rdie k) ∧
    (∀ k, (m.setPage x1 x2).rpart k = m.rpart k) ∧ (∀ k, (m.setPage x1 x2).bootSt k = m.bootSt k) ∧
    (∀ k, (m.setPage x1 x2).level k = m.level k) ∧ (∀ k, (m.setPage x1 x2).collAt k = m.collAt k) ∧
    (∀ k, (m.setPage x1 x2).engine k = m.engine k) ∧ (∀ k, (m.setPage x1 x2).slotAt k = m.slotAt k) ∧
    (∀ k, (m.setPage x1 x2).src k = m.src k) :=
  ⟨rfl, rfl, fun _ => rfl, fun _ => rfl, fun _ => rfl, fun _ => rfl, fun _ => rfl, fun _ => rfl, fun _ => rfl, fun _ => rfl, fun _ => rfl, fun _ => rfl, fun _ => rfl, fun _ => rfl, fun _ => rfl, fun _ => rfl, fun _ => rfl, fun _ => rfl⟩

@[simp] theorem setRig_reads (x1 : Nat) (x2 : Nat) :
    (m.setRig x1 x2).node = m.node ∧ (m.setRig x1 x2).ns = m.ns ∧ (∀ k, (m.setRig x1 x2).port k = m.port k) ∧
    (∀ k, (m.setRig x1 x2).fwdAt k = m.fwdAt k) ∧ (∀ k, (m.setRig x1 x2).ctxAt k = m.ctxAt k) ∧
    (∀ k, (m.setRig x1 x2).partAt k = m.partAt k) ∧ (∀ k, (m.setRig x1 x2).sliceAt k = m.sliceAt k) ∧
    (∀ k, (m.setRig x1 x2).tileAt k = m.tileAt k) ∧ (∀ k, (m.setRig x1 x2).strmAt k = m.strmAt k) ∧
    (∀ k, (m.setRig x1 x2).siteAt k = m.siteAt k) ∧ (∀ k, (m.setRig x1 x2).rdie k = m.rdie k) ∧
    (∀ k, (m.setRig x1 x2).rpart k = m.rpart k) ∧ (∀ k, (m.setRig x1 x2).collAt k = m.collAt k) ∧
    (∀ k, (m.setRig x1 x2).engine k = m.engine k) ∧ (∀ k, (m.setRig x1 x2).pageAt k = m.pageAt k) ∧
    (∀ k, (m.setRig x1 x2).slotAt k = m.slotAt k) ∧ (∀ k, (m.setRig x1 x2).src k = m.src k) :=
  ⟨rfl, rfl, fun _ => rfl, fun _ => rfl, fun _ => rfl, fun _ => rfl, fun _ => rfl, fun _ => rfl, fun _ => rfl, fun _ => rfl, fun _ => rfl, fun _ => rfl, fun _ => rfl, fun _ => rfl, fun _ => rfl, fun _ => rfl, fun _ => rfl⟩

@[simp] theorem raise_reads (x1 x2 : Nat) :
    (m.raise x1 x2).node = m.node ∧ (m.raise x1 x2).ns = m.ns ∧ (∀ k, (m.raise x1 x2).port k = m.port k) ∧
    (∀ k, (m.raise x1 x2).fwdAt k = m.fwdAt k) ∧ (∀ k, (m.raise x1 x2).ctxAt k = m.ctxAt k) ∧
    (∀ k, (m.raise x1 x2).partAt k = m.partAt k) ∧ (∀ k, (m.raise x1 x2).sliceAt k = m.sliceAt k) ∧
    (∀ k, (m.raise x1 x2).tileAt k = m.tileAt k) ∧ (∀ k, (m.raise x1 x2).strmAt k = m.strmAt k) ∧
    (∀ k, (m.raise x1 x2).siteAt k = m.siteAt k) ∧ (∀ k, (m.raise x1 x2).rdie k = m.rdie k) ∧
    (∀ k, (m.raise x1 x2).rpart k = m.rpart k) ∧ (∀ k, (m.raise x1 x2).bootSt k = m.bootSt k) ∧
    (∀ k, (m.raise x1 x2).level k = m.level k) ∧ (∀ k, (m.raise x1 x2).collAt k = m.collAt k) ∧
    (∀ k, (m.raise x1 x2).engine k = m.engine k) ∧ (∀ k, (m.raise x1 x2).pageAt k = m.pageAt k) := by
  and_intros <;> intros <;> simp [Machine.node, Machine.ns, Machine.port, Machine.fwdAt, Machine.ctxAt, Machine.partAt, Machine.sliceAt,
    Machine.tileAt, Machine.strmAt, Machine.siteAt, Machine.rdie, Machine.rpart, Machine.bootSt, Machine.level, Machine.collAt,
    Machine.engine, Machine.pageAt]

@[simp] theorem raiseAs_reads (x1 x2 x3 : Nat) (x4 : Option Nat) :
    (m.raiseAs x1 x2 x3 x4).node = m.node ∧ (m.raiseAs x1 x2 x3 x4).ns = m.ns ∧
    (∀ k, (m.raiseAs x1 x2 x3 x4).port k = m.port k) ∧ (∀ k, (m.raiseAs x1 x2 x3 x4).fwdAt k = m.fwdAt k) ∧
    (∀ k, (m.raiseAs x1 x2 x3 x4).ctxAt k = m.ctxAt k) ∧ (∀ k, (m.raiseAs x1 x2 x3 x4).partAt k = m.partAt k) ∧
    (∀ k, (m.raiseAs x1 x2 x3 x4).sliceAt k = m.sliceAt k) ∧ (∀ k, (m.raiseAs x1 x2 x3 x4).tileAt k = m.tileAt k) ∧
    (∀ k, (m.raiseAs x1 x2 x3 x4).strmAt k = m.strmAt k) ∧ (∀ k, (m.raiseAs x1 x2 x3 x4).siteAt k = m.siteAt k) ∧
    (∀ k, (m.raiseAs x1 x2 x3 x4).rdie k = m.rdie k) ∧ (∀ k, (m.raiseAs x1 x2 x3 x4).rpart k = m.rpart k) ∧
    (∀ k, (m.raiseAs x1 x2 x3 x4).bootSt k = m.bootSt k) ∧ (∀ k, (m.raiseAs x1 x2 x3 x4).level k = m.level k) ∧
    (∀ k, (m.raiseAs x1 x2 x3 x4).collAt k = m.collAt k) ∧ (∀ k, (m.raiseAs x1 x2 x3 x4).engine k = m.engine k) ∧
    (∀ k, (m.raiseAs x1 x2 x3 x4).pageAt k = m.pageAt k) := by
  and_intros <;> intros <;> simp [Machine.node, Machine.ns, Machine.port, Machine.fwdAt, Machine.ctxAt, Machine.partAt, Machine.sliceAt,
    Machine.tileAt, Machine.strmAt, Machine.siteAt, Machine.rdie, Machine.rpart, Machine.bootSt, Machine.level, Machine.collAt,
    Machine.engine, Machine.pageAt]

@[simp] theorem raiseCtx_reads (x1 x2 x3 : Nat) :
    (m.raiseCtx x1 x2 x3).node = m.node ∧ (m.raiseCtx x1 x2 x3).ns = m.ns ∧ (∀ k, (m.raiseCtx x1 x2 x3).port k = m.port k) ∧
    (∀ k, (m.raiseCtx x1 x2 x3).fwdAt k = m.fwdAt k) ∧ (∀ k, (m.raiseCtx x1 x2 x3).ctxAt k = m.ctxAt k) ∧
    (∀ k, (m.raiseCtx x1 x2 x3).partAt k = m.partAt k) ∧ (∀ k, (m.raiseCtx x1 x2 x3).sliceAt k = m.sliceAt k) ∧
    (∀ k, (m.raiseCtx x1 x2 x3).tileAt k = m.tileAt k) ∧ (∀ k, (m.raiseCtx x1 x2 x3).strmAt k = m.strmAt k) ∧
    (∀ k, (m.raiseCtx x1 x2 x3).siteAt k = m.siteAt k) ∧ (∀ k, (m.raiseCtx x1 x2 x3).rdie k = m.rdie k) ∧
    (∀ k, (m.raiseCtx x1 x2 x3).rpart k = m.rpart k) ∧ (∀ k, (m.raiseCtx x1 x2 x3).bootSt k = m.bootSt k) ∧
    (∀ k, (m.raiseCtx x1 x2 x3).level k = m.level k) ∧ (∀ k, (m.raiseCtx x1 x2 x3).collAt k = m.collAt k) ∧
    (∀ k, (m.raiseCtx x1 x2 x3).engine k = m.engine k) ∧ (∀ k, (m.raiseCtx x1 x2 x3).pageAt k = m.pageAt k) := by
  and_intros <;> intros <;> simp [Machine.node, Machine.ns, Machine.port, Machine.fwdAt, Machine.ctxAt, Machine.partAt, Machine.sliceAt,
    Machine.tileAt, Machine.strmAt, Machine.siteAt, Machine.rdie, Machine.rpart, Machine.bootSt, Machine.level, Machine.collAt,
    Machine.engine, Machine.pageAt]

/-! ### The field it writes -/

@[simp] theorem emit_out (o : Out) : (m.emit o).out = m.out ++ [o] := rfl
@[simp] theorem tell_out (n : NodeId) (g : Mgmt) : (m.tell n g).out = m.out ++ [.mgmt n g] := rfl
@[simp] theorem answerMctp_out (h : MsgHdr) (c k st : Nat) (b : List Byte) :
    (m.answerMctp h c k st b).out = if bitAt h.flags 1 then m.out else
      m.out ++ .mctp h.dst h.src (mctpMsg c k true false st b) ::
        (if m.bridged h then [.hostMsg h.dst h.src (mctpMsg c k true false st b)] else []) := by
  unfold Machine.answerMctp
  split
  · rfl
  · have hb : (m.emit (.mctp h.dst h.src (mctpMsg c k true false st b))).bridged h = m.bridged h := rfl
    dsimp only
    rw [hb]
    split <;> simp [Machine.emit]
@[simp] theorem modTtl_ttl (f : Ttl → Ttl) : (m.modTtl f).ttl = f m.ttl := rfl
@[simp] theorem modBoot_boot (f : Boot → Boot) : (m.modBoot f).boot = f m.boot := rfl
@[simp] theorem modTime_time (f : TimeBlk → TimeBlk) : (m.modTime f).time = f m.time := rfl
@[simp] theorem modHly_hly (f : HlyReg → HlyReg) : (m.modHly f).hly = { m.hly with reg := f m.hly.reg } := rfl
@[simp] theorem modDb_hly (f : HlyDb → HlyDb) : (m.modDb f).hly = { m.hly with db := f m.hly.db } := rfl
@[simp] theorem modWork_hly (f : EpochWork → EpochWork) : (m.modWork f).hly = { m.hly with work := f m.hly.work } := rfl
@[simp] theorem modLuff_luff (f : Luff → Luff) : (m.modLuff f).luff = f m.luff := rfl
@[simp] theorem modFar_far (f : Farnis → Farnis) : (m.modFar f).far = f m.far := rfl
@[simp] theorem modReef_reef (f : Reef → Reef) : (m.modReef f).reef = f m.reef := rfl
@[simp] theorem hostWrite_hostMem (a : Nat) (l : List Byte) :
    (m.hostWrite a l).hostMem = mwrite Config.blank m.hostMem a l := rfl
@[simp] theorem hostStores_hostMem (c : Cells) : (m.hostStores c).hostMem = mcells Config.blank m.hostMem c := rfl
@[simp] theorem accErr_acc (o c f : Nat) :
    (m.accErr o c f).acc = { count := satAdd32 m.acc.count 1, offset := o, cause := c, func := f } := rfl

/-- A raised source whose events are not masked lands with its usual class (14 R396). -/
theorem raise_landed (src unit : Nat) (h : m.ttl.masking = false ∨ maskedSource src = false) :
    (m.raise src unit).ttl.landed = m.ttl.landed ++
      [{ source := src, count := 1, unit := unit, ctx := none, cls := (entryClass src).getD 0, forced := false }] := by
  have : (m.ttl.masking && maskedSource src) = false := by rcases h with h | h <;> simp [h]
  simp [Machine.raise, Machine.raiseAs, this]

/-! ### Indexed records -/

@[simp] theorem setPort_port (p : Nat) (r : PortRec) (q : Nat) : (m.setPort p r).port q = if q = p then r else m.port q :=
  tget_tset _ _ _ _ _
@[simp] theorem modPort_port (p : Nat) (f : PortRec → PortRec) (q : Nat) :
    (m.modPort p f).port q = if q = p then f (m.port p) else m.port q := setPort_port m p _ q
@[simp] theorem setFwd_fwdAt (d : Nat) (r : FwdRec) (e : Nat) : (m.setFwd d r).fwdAt e = if e = d then r else m.fwdAt e :=
  tget_tset _ _ _ _ _
@[simp] theorem modFwd_fwdAt (d : Nat) (f : FwdRec → FwdRec) (e : Nat) :
    (m.modFwd d f).fwdAt e = if e = d then f (m.fwdAt d) else m.fwdAt e := setFwd_fwdAt m d _ e
@[simp] theorem setCtx_ctxAt (c : Nat) (r : CtxRec) (e : Nat) : (m.setCtx c r).ctxAt e = if e = c then r else m.ctxAt e :=
  tget_tset _ _ _ _ _
@[simp] theorem modCtx_ctxAt (c : Nat) (f : CtxRec → CtxRec) (e : Nat) :
    (m.modCtx c f).ctxAt e = if e = c then f (m.ctxAt c) else m.ctxAt e := setCtx_ctxAt m c _ e
@[simp] theorem modBase_ctxAt (c : Nat) (f : CtxBase → CtxBase) (e : Nat) :
    (m.modBase c f).ctxAt e = if e = c then { m.ctxAt c with base := f (m.ctxAt c).base } else m.ctxAt e :=
  modCtx_ctxAt m c _ e
@[simp] theorem modXc_ctxAt (c : Nat) (f : Xc → Xc) (e : Nat) :
    (m.modXc c f).ctxAt e = if e = c then { m.ctxAt c with xc := f (m.ctxAt c).xc } else m.ctxAt e :=
  modCtx_ctxAt m c _ e
@[simp] theorem setPart_partAt (i : Nat) (r : PartRec) (j : Nat) : (m.setPart i r).partAt j = if j = i then r else m.partAt j :=
  tget_tset _ _ _ _ _
@[simp] theorem modPart_partAt (i : Nat) (f : PartRec → PartRec) (j : Nat) :
    (m.modPart i f).partAt j = if j = i then f (m.partAt i) else m.partAt j := setPart_partAt m i _ j
@[simp] theorem setSlice_sliceAt (t : Nat) (r : SliceRec) (u : Nat) :
    (m.setSlice t r).sliceAt u = if u = t then r else m.sliceAt u := tget_tset _ _ _ _ _
@[simp] theorem modSlice_sliceAt (t : Nat) (f : SliceRec → SliceRec) (u : Nat) :
    (m.modSlice t f).sliceAt u = if u = t then f (m.sliceAt t) else m.sliceAt u := setSlice_sliceAt m t _ u
@[simp] theorem setTile_tileAt (l : Nat) (r : TileRec) (k : Nat) : (m.setTile l r).tileAt k = if k = l then r else m.tileAt k :=
  tget_tset _ _ _ _ _
@[simp] theorem modTile_tileAt (l : Nat) (f : TileRec → TileRec) (k : Nat) :
    (m.modTile l f).tileAt k = if k = l then f (m.tileAt l) else m.tileAt k := setTile_tileAt m l _ k
@[simp] theorem setStrm_strmAt (n : Nat) (r : StreamRec) (k : Nat) :
    (m.setStrm n r).strmAt k = if k = n then r else m.strmAt k := tget_tset _ _ _ _ _
@[simp] theorem modStrm_strmAt (n : Nat) (f : StreamRec → StreamRec) (k : Nat) :
    (m.modStrm n f).strmAt k = if k = n then f (m.strmAt n) else m.strmAt k := setStrm_strmAt m n _ k
@[simp] theorem modSite_siteAt (s : Nat) (f : SiteRec → SiteRec) (k : Nat) :
    (m.modSite s f).siteAt k = if k = s then f (m.siteAt s) else m.siteAt k := tget_tset _ _ _ _ _
@[simp] theorem modRdie_rdie (d : Nat) (f : ReefDie → ReefDie) (e : Nat) :
    (m.modRdie d f).rdie e = if e = d then f (m.rdie d) else m.rdie e := tget_tset _ _ _ _ _
@[simp] theorem setStep_bootSt (k : Nat) (s : BootSt) (j : Nat) :
    (m.setStep k s).bootSt j = if j = k then s else m.bootSt j := tget_tset _ _ _ _ _

end Sys2Proof.Machine
end

