-- ==== Sys2Proof/WellFormed.lean ====
section
/-!
DEFINITION. Which commands are well formed: operand lengths and ranges that the operand types do not already fix. A command that is
not well formed can come from no sender; its meaning is nevertheless total.
-/
namespace Sys2Proof

/-- A frame carries 0 to 256 bytes of payload (07 R209). -/
def Frame.wf (f : Frame) : Bool := decide (f.payload.length ≤ 256)

/-- Host addresses are 64 bits wide (11 R346). -/
def cellsWf (c : Cells) : Bool := c.all fun e => decide (e.1 < 2 ^ 64)

/-- A forwarded command carries at most the 14 argument words of the mailbox (04 R136). -/
def HlySrc.wf : HlySrc → Bool
  | .mailbox _ => true
  | .mctp => true
  | .forwarded _ args _ => decide (args.length ≤ 14)
  | .order _ => true
  | .handover _ _ => true
  | .bind e => decide (e.tag < 4096 ∧ e.index < 8 ∧ e.log2k ≤ 3)
  | .unbind t => decide (t < 4096)
  | .layout k => decide (k ≤ 3)

/-- A master's answer fills at most the eight result words (04 Table 4.17). -/
def replyWf : Option CmdReply → Bool
  | some r => decide (r.res.length ≤ 8)
  | none => true

/-- A link record names a port SP0–SP23 and a far port (04 Table 4.6). -/
def LinkRec.wf (l : LinkRec) : Bool := decide (l.port < 24)

/-- A link-state record lists at most 24 links, one a port (04 R112), and its yield map has 64 bytes (16 Table 16.9). -/
def LsRecord.wf (r : LsRecord) : Bool := decide (r.links.length ≤ 24) && r.links.all LinkRec.wf && r.yield.length == 64

/-- A reservation names a port, and a phase below its period (05 R145, R160). -/
def SlotOwn.wf (o : SlotOwn) : Bool := decide (o.port < 24 ∧ o.phase < o.period ∧ o.tag < 4096)

/-- A prepare's reservations are well formed and its slice tags have 12 bits (04 R129, 06 R181). -/
def Prepare.wf (p : Prepare) : Bool :=
  p.slots.all SlotOwn.wf && p.tags.all (fun t => decide (t.tag < 4096))

/-- A slice event names a 12-bit tag (06 R181). -/
def SliceEvent.wf (e : SliceEvent) : Bool := decide (e.tag < 4096)

/-- At most 24 cables and 8 stacks are read, and a stack's best step is 0–2, or 3 for none (16 Table 16.6). -/
def BootInputs.wf (i : BootInputs) : Bool :=
  decide (i.cables.length ≤ 24 ∧ i.train.length ≤ 8) && i.train.all fun e => decide (e.1 ≤ 3)

/-- A host link trains at one of three rates (11 R320). -/
def HostTrain.wf (t : HostTrain) : Bool := decide (1 ≤ t.rate ∧ t.rate ≤ 3 ∧ t.width ≤ 16)

/-- A bundle has chunks (16 R454). -/
def BundleId.wf (b : BundleId) : Bool := decide (0 < b.chunks ∧ 0 < b.mchunks)

/-- A fragment header's index fields fit (16 Table 16.11). -/
def FragHdr.wf (h : FragHdr) : Bool := decide (h.chunk < 2 ^ 20 ∧ h.frag ≤ 16)

/-- A range of a BCAST_NACK fits its fields (16 Table 16.10). -/
def ChunkRange.wf (r : ChunkRange) : Bool := decide (r.first < 2 ^ 20 ∧ r.count < 2 ^ 11)

/-- An access moves at least one byte. -/
def BarAccess.wf : BarAccess → Bool
  | .write data => decide (0 < data.length)
  | .read len => decide (0 < len)
  | .identity => true

/-- The CLASS and COMMAND pairs of Table 17.2 that have a row of their own beside ID_READ's. -/
def vendorRows : List (Nat × Nat) :=
  [(2, 1), (2, 2), (3, 1), (3, 2), (4, 1), (4, 2), (4, 3), (4, 4), (4, 5), (5, 1), (5, 2), (5, 3)]

/-- Whether a command's operands fit the fields that carry them. -/
def Instr.wf : Instr → Bool
  | .powerGood => true
  | .idRead _ cls cmd => !(vendorRows.contains (cls.toNat, cmd.toNat))
  | .bootStepEnter _ inp => inp.wf
  | .bootStepLimit _ => true
  | .trainDeadline => true
  | .bootAltClr => true
  | .portDetectSignal _ => true
  | .portSyncLock _ _ => true
  | .portSyncTimeout _ => true
  | .portDeskewDone _ _ => true
  | .portDeskewTimeout _ => true
  | .ts2Receive _ _ => true
  | .portExchangeTimeout _ => true
  | .portEqualiseDone _ _ => true
  | .portVerifyDone _ _ _ _ => true
  | .trainingSignalLoss _ => true
  | .holdoffExpiry _ _ => true
  | .portDownSignalReturn _ _ => true
  | .laneLockLoss _ _ => true
  | .fecThreshold _ _ _ => true
  | .retrainReqRepeat _ => true
  | .retrainReqReceive _ _ => true
  | .retrainComplete _ _ _ => true
  | .retrainTimeout _ => true
  | .envelopeReceive _ frame _ _ _ => frame.wf
  | .ackReceive _ _ => true
  | .nakReceive _ _ => true
  | .nakRepeat _ => true
  | .replayTimeout _ => true
  | .creditReceive _ _ => true
  | .goingDownReceive _ _ => true
  | .linkSignalLoss _ => true
  | .fullTrainReceive _ _ => true
  | .stayFail _ _ _ => true
  | .shrCntClr _ => true
  | .syncExchange _ _ => true
  | .parentLinkFail => true
  | .holdoverExpiry => true
  | .parentNamed _ _ => true
  | .refclkLoss => true
  | .refclkReturn => true
  | .timeNowLoRead _ => true
  | .uvMonitorTrip _ => true
  | .uvMonitorClear _ => true
  | .otMonitorTrip _ => true
  | .otMonitorClear _ => true
  | .thermalHoldStart _ => true
  | .thermalHoldEnd _ => true
  | .thermalTrip _ => true
  | .helloSend _ => true
  | .helloReceive _ _ => true
  | .linkStateRecordReceive _ r => r.wf
  | .discoverySettle => true
  | .masterAnnounceReceive _ => true
  | .standbyAckReceive _ => true
  | .beaconSend => true
  | .beaconCountReceive _ => true
  | .componentJoin _ _ recs => recs.all LsRecord.wf
  | .beaconTimeout _ => true
  | .holdDownExpiry _ => true
  | .packageAbsent _ => true
  | .epochCollectClose => true
  | .epochPrepareReceive prs => prs.all fun e => e.2.wf
  | .epochReadyReceive _ _ => true
  | .epochCommitReceive _ _ => true
  | .epochSwitch => true
  | .oldBankRelease => true
  | .epochReadyTimeout _ => true
  | .epochAbortReceive _ => true
  | .halyardRestartTimeout => true
  | .topoRead src => src.wf
  | .portDisable src => src.wf
  | .portEnable src _ => src.wf
  | .portFullTrain src _ => src.wf
  | .portTestRetrain src => src.wf
  | .epochQuery src => src.wf
  | .masterHandover src => src.wf
  | .masterConfirm src => src.wf
  | .packageDrain src => src.wf
  | .packageRestore src => src.wf
  | .rigWrite src => src.wf
  | .rigRead src => src.wf
  | .hlyCmdResult _ reply => replyWf reply
  | .hlyCmdNoMaster _ => true
  | .plannerJobStart => true
  | .plannerRound => true
  | .plannerDeadline => true
  | .tkpDryrun src host => src.wf && cellsWf host
  | .tkpResvRead src => src.wf
  | .tkpSlotsRead src => src.wf
  | .tkpBiasSet src => src.wf
  | .tkpHeadroomSet src => src.wf
  | .tkpDeadlineSet src => src.wf
  | .tkpReplanAll src => src.wf
  | .tkpRampRead src => src.wf
  | .sliceCreate src host => src.wf && cellsWf host
  | .sliceDestroy src => src.wf
  | .sliceQuery src => src.wf
  | .sliceList src => src.wf
  | .sliceLayout src => src.wf
  | .slicePeer src => src.wf
  | .sliceReserve src host => src.wf && cellsWf host
  | .sliceContextsFinal _ _ => true
  | .sliceScrubReport _ _ _ => true
  | .sliceEventReceive e => e.wf
  | .ctxCreate => true
  | .ctxDestroy => true
  | .contextScrubComplete _ => true
  | .ctxFree => true
  | .partitionScrubComplete _ => true
  | .scrubQuarantine _ _ => true
  | .minuteLatch => true
  | .ctxSnap _ => true
  | .energyAttribute dieUj _ _ => decide (dieUj.length ≤ 4)
  | .frameForward _ => true
  | .frameAgeExpiry _ => true
  | .detourResend _ => true
  | .filterRecordExpiry _ _ _ => true
  | .reqReceive _ => true
  | .reqAnswerDeadline _ _ => true
  | .repReceive _ => true
  | .reqExpired _ => true
  | .msgReceive _ => true
  | .collFrameReceive _ => true
  | .lateStepReport _ _ _ _ _ => true
  | .flowAbortReport _ _ _ => true
  | .flowAbortReceive _ _ _ => true
  | .abortAckReceive _ _ _ => true
  | .abortAckTimeout _ _ => true
  | .flowResumeWait _ _ => true
  | .flowResumeReceive _ _ _ => true
  | .bind _ => true
  | .unbind _ => true
  | .restart _ => true
  | .ctxXcArmLo _ _ _ => true
  | .ctxXcArmHi _ _ _ => true
  | .stepArm _ => true
  | .stepRelease _ => true
  | .stepComplete _ => true
  | .contractViolation _ => true
  | .mma _ => true
  | .drain _ => true
  | .vop _ => true
  | .vcvt _ => true
  | .vld _ => true
  | .vst _ => true
  | .hrd _ => true
  | .hwr _ => true
  | .send _ => true
  | .recv _ => true
  | .wait _ => true
  | .loop _ => true
  | .tileEnd _ => true
  | .tileStoreUncorr _ _ _ => true
  | .tileRetire _ => true
  | .pageGrant => true
  | .pageReturn => true
  | .pageScrubComplete => true
  | .hbmUncorrectable _ _ => true
  | .streamOpen _ => true
  | .streamClose _ => true
  | .streamQuery _ => true
  | .streamHead _ => true
  | .streamHelloReceive => true
  | .streamHelloRepeat _ => true
  | .streamCreditReceive => true
  | .streamCreditPeriodic _ => true
  | .streamClosingEnd _ => true
  | .hostLinkTrain _ t => t.wf
  | .h1LinkDown => true
  | .windowRead _ _ length => decide (0 < length)
  | .windowWrite _ _ data _ => decide (0 < data.length)
  | .windowAtomic _ _ => true
  | .watchEntrySet _ _ => true
  | .watchSnoop _ host => cellsWf host
  | .vfFlr _ => true
  | .pfFlr _ => true
  | .vfEnableClear _ _ => true
  | .hostReadTimeout _ => true
  | .flushReadComplete _ _ => true
  | .ceQueueEnable _ _ _ _ => true
  | .ceQueueDisable _ _ _ => true
  | .ceQueueResume _ _ _ => true
  | .ceDoorbell _ _ _ _ => true
  | .ceCommandFetch _ _ host => cellsWf host
  | .copy _ _ => true
  | .fill _ _ => true
  | .flagOnly _ _ => true
  | .msg _ _ => true
  | .reqWrite _ _ => true
  | .reqRead _ _ => true
  | .reqFetchAdd _ _ => true
  | .reqSignal _ _ => true
  | .ceSegment _ host => cellsWf host
  | .ceCommandComplete _ _ => true
  | .reefMeasure dieW _ => decide (dieW.length ≤ 4)
  | .capLoop => true
  | .contractIdle _ => true
  | .vrFault _ => true
  | .rampWindowOpen _ => true
  | .rampWindowClose _ => true
  | .preRampComplete _ => true
  | .riseExcess _ => true
  | .ballastHold => true
  | .ballastHoldEnd => true
  | .trayReport _ _ => true
  | .facilityStale => true
  | .facilityFallback => true
  | .notice _ _ => true
  | .ttlRound => true
  | .promotionWindowExpiry _ => true
  | .reactionQuietExpiry _ => true
  | .faultNLowEnd => true
  | .ttlPinHoldWrite _ => true
  | .ttlForce _ => true
  | .ttlFirstClear _ _ => true
  | .luffTileExpiry _ => true
  | .tileSelfTestDone _ _ => true
  | .luffCeExpiry _ _ => true
  | .luffLinkExpiry _ => true
  | .luffCollExpiry _ => true
  | .collUnitReset _ _ => true
  | .luffHlyExpiry _ => true
  | .inStreamStall _ => true
  | .contextReset _ => true
  | .partitionReset _ => true
  | .packageReset => true
  | .fenceDrainEnd _ _ => true
  | .packageResetComplete => true
  | .rungTimeout _ => true
  | .genLateDrop => true
  | .dumpRearm => true
  | .flashRead _ _ _ _ => true
  | .flashErase _ _ _ _ => true
  | .flashWrite _ _ _ _ => true
  | .bcastOffer b => b.wf
  | .bcastFrag h data => h.wf && decide (0 < data.length ∧ data.length ≤ 248)
  | .bcastEnd _ => true
  | .bcastNack _ _ ranges => (decide (ranges.length ≤ 62) && ranges.all ChunkRange.wf)
  | .bcastNackTimer => true
  | .bcastDone _ _ => true
  | .bcastHave _ _ _ => true
  | .bcastTimeout => true
  | .busbarRise ids _ _ => decide ((ids.map (·.1)).Nodup)
  | .sitePowerOn _ _ => true
  | .railGood _ _ => true
  | .railFail _ _ => true
  | .powerOffNotice _ => true
  | .ready _ => true
  | .noticeLimitExpiry _ => true
  | .powerOffGroupFall _ _ => true
  | .offTimeExpiry _ => true
  | .faultNEdge _ => true
  | .faultReadReply _ _ _ _ _ => true
  | .faultReadRetry _ _ => true
  | .pinAlert _ => true
  | .shelfPoll modules _ _ => decide (modules.length ≤ 8)
  | .cduPoll _ => true
  | .coolantLimit _ => true
  | .busbarSag _ => true
  | .busbarReturn _ => true
  | .cduStaleAlert _ => true
  | .trayReportSend => true
  | .crashSummary _ w _ => decide (w.length = 5)
  | .measure _ digests _ _ => decide (digests.length = 192)
  | .componentIntegrity _ _ => true
  | .resetOn _ _ => true
  | .resetForceOff _ => true
  | .resetGracefulShutdown _ => true
  | .resetPowerCycle _ => true
  | .resetForceRestart _ => true
  | .redfishGet _ _ => true
  | .pldmSensorRead _ _ => true
  | .pldmFirmwareUpdate _ image _ _ _ => decide (0 < image.length)
  | .flashUpdate _ image _ _ _ => decide (0 < image.length)
  | .farnisRestart _ => true
  | .farnisSettingWrite _ _ => true
  | .scanEnter _ => true
  | .scanExit _ => true
  | .regRead _ _ _ => true
  | .regWrite _ _ _ => true
  | .hlyCmd _ _ _ _ => true
  | .dbRead _ _ _ => true
  | .registerWrite _ _ a => a.wf
  | .extest _ _ => true
  | .idcode _ _ => true
  | .samplePreload _ _ => true
  | .extestPulse _ _ => true
  | .extestTrain _ _ => true
  | .highz _ _ => true
  | .bypass _ _ => true
  | .scanExtChange _ _ => true
  | .slot12vFall => true
  | .cardC4PowerOff => true
  | .epochPrepareGuard => true
  | .slotStart _ => true
  | .hbmLineComplete _ _ => true
  | .tokenAcknowledge _ _ => true
  | .domainResetEnd _ => true
  | .beaconReceive _ _ => true
  | .standbyReplicate _ _ => true
  | .generationDeltaReceive _ _ links => links.all LinkRec.wf
  | .helloStop _ => true
  | .rampLimitForward _ _ => true
  | .trayFaultHoldExpiry _ => true
  | .slot12vRise _ => true
  | .extTrstNFall => true

end Sys2Proof
end

