-- ==== Sys2Proof/Tests/Slice0.lean ====
section
/-!
SUPPORT. The model's own tests: small machines, an ill-formed term for each check of WellFormed.lean, worked cases of the spec (their
expected values are the spec's), and a witness of the hypotheses of each clause of the statements.
-/
set_option maxRecDepth 4000
namespace Sys2Proof.Machine.Slice0

/-! ### Small machines -/

/-- A state around a machine, with no command waiting. -/
def st (m : Machine) : State := { m := m, pending := [] }
/-- A node record of an admitted package. -/
def nodeOf (n : NodeId) : NodeRec :=
  { node := n, admission := 0, role := 0, uid := 1, bootId := 0, preset := 0, eligible := true, up := 0, degraded := 0, down := 0,
    state := 0, changeGen := 0 }
/-- A live link record. -/
def linkOf (a : NodeId) (p : Nat) (b : NodeId) : LinkRec :=
  { node := a, port := p, dir := 0, pos := 0, farNode := b, farPort := p, status := 2, gen := 2, width := 4, reason := 0, flags := 1,
    weight := 90, changeGen := 0 }
/-- A child of the time tree that never locked. -/
def child : State := st { Machine.reset with time := { TimeBlk.reset with parentDir := 0, refclkOk := true } }
/-- A child of the time tree that is locked. -/
def synced : State := st { Machine.reset with time := { TimeBlk.reset with parentDir := 0, refclkOk := true, locked := true, everLocked := true } }
/-- A package whose port SP23 is ACTIVE towards X+. -/
def linked : State := st (Machine.reset.setPort 23 { PortRec.reset with stat := { PortStat.reset with state := .active, assigned := true, gen := 2, width := 4, lanes := 15 } })
/-- The same, with package 1 its master at the far end of SP23. -/
def parented : State :=
  st { linked.m.modPort 23 (fun r => { r with far := { r.far with valid := true, node := 1 } }) with
    hly := { Hly.reset with
      reg := { HlyReg.reset with state := .run, master := 1 }
      db := { HlyDb.reset with nodes := [nodeOf 0, nodeOf 1], links := [linkOf 0 23 1, linkOf 1 23 0] } } }
/-- A machine with the boot block changed. -/
def booted (f : Boot → Boot) : Machine := { Machine.reset with boot := f { Boot.reset with on := true } }
/-- The same, at a site that Farnis has given its endpoint ID. -/
def onTray (f : Boot → Boot) : Machine :=
  { booted f with far := { Machine.reset.far with sites := [(0, { SiteRec.reset with eid := some (siteEid 0) })] } }
/-- The header of a request of Farnis to it. -/
def fromFarnis : MsgHdr := { src := farnisEid, dst := siteEid 0, flags := 0 }
/-- A boot step that runs. -/
def stepping (k : Nat) : Machine := booted fun b => { b with steps := [(k, .running)] }
/-- A site of Farnis in a state. -/
def sited (k : Nat) (st : SiteState) (m : Machine) : Machine := { m with far := { m.far with sites := [(k, { SiteRec.reset with state := st })] } }
/-- A bundle of one payload chunk and one manifest chunk. -/
def bundle (tag : Word) : BundleId := { tag := tag, version := 1, chunks := 1, mchunks := 1 }
/-- A package that holds an offer. -/
def offered (tag : Word) : Machine := booted fun b => { b with bcast := { b.bcast with offer := some (bundle tag) } }
/-- A package that holds the offered payload chunk 0. -/
def holding : Machine := booted fun b => { b with bcast := { b.bcast with offer := some (bundle 7), good := [chunkKey true 0] } }
/-- A master that runs a bundle. -/
def mastered : Machine :=
  { (booted fun b => { b with fw := { b.fw with bundleOk := true } }) with
    hly := { Hly.reset with reg := { HlyReg.reset with state := .run, role := .master, master := 0, quorum := true, admitted := true } } }
/-- Node 0 between its parent 1, the master, and its child 8, with an ended broadcast that is not whole. -/
def treed : Machine :=
  { (booted fun b => { b with bcast := { b.bcast with offer := some (bundle 7), ended := true } }) with
    hly := { Hly.reset with
      reg := { HlyReg.reset with state := .run, master := 1 }
      db := { HlyDb.reset with nodes := [nodeOf 0, nodeOf 1, nodeOf 8],
                               links := [linkOf 0 0 1, linkOf 0 1 8, linkOf 1 0 0, linkOf 8 1 0] } } }
/-- A machine whose port SP23 is in a state, otherwise as `f` makes it. -/
def ported (st : PortState) (f : PortRec → PortRec) : Machine :=
  Machine.reset.setPort 23 (f { PortRec.reset with
    stat := { PortStat.reset with state := st, assigned := true, gen := 2, width := 4, lanes := 15, rxGood := 15 }
    train := { PortTrain.reset with target := 2 } })
/-- A frame with an empty payload. -/
def frame0 : Frame := { hdr := mkHdr 4 0 true 1 0 5 0 0 0 0 0 0, payload := [] }
/-- An envelope of it. -/
def env (lsn : Nat) : Envelope := { lsn := lsn, vc := 3, frame := frame0, sentAt := 0 }
/-- A port in EXCHANGE towards Z+ that has seen fifteen blocks. -/
def trained : Machine :=
  Machine.reset.setPort 23 { PortRec.reset with
    stat := { PortStat.reset with state := .exchange, assigned := true, dir := 5, pos := 3 }
    train := { PortTrain.reset with genCap := 3, ownClass := 1, ts2Run := 15 } }
/-- A port in VERIFY at SL3 with every lane converged. -/
def verifying : Machine := ported .verify fun r =>
  { r with train := { r.train with gen := 2, converged := 15, aligned := 15, ownClass := 1 } }
/-- An ACTIVE port with one frame waiting and credits for it. -/
def waitingPort : Machine := ported .active fun r =>
  { r with tx := { r.tx with queue := [{ vc := 3, frame := frame0, since := 0, enters := false }], credit := [(3, 256)] } }
/-- A TS2 block with its CRC. -/
def ts2Of (body : Nat) : BitVec 128 := BitVec.ofNat 128 (body + (crc32 (leBytes 12 body)).toNat * 2 ^ 96)
/-- A package in DISCOVER. -/
def discovering : State := st { Machine.reset with hly := { Hly.reset with reg := { HlyReg.reset with state := .discover } } }
/-- A link-state record of package 8. -/
def recordOf8 : LsRecord := { seq := 0, node := { nodeOf 8 with uid := 9 }, links := [], fingerprint := 0, yield := [] }
/-- Package 8 in ELECT with package 0 in its component. -/
def electing : State :=
  st { Machine.reset with hly := { Hly.reset with
    reg := { HlyReg.reset with state := .elect, nodeId := 8 }
    db := { HlyDb.reset with nodes := [nodeOf 0, nodeOf 8], links := [linkOf 0 1 8, linkOf 8 1 0] } } }
/-- Package 8 as master, package 0 known to it. -/
def outranked : State :=
  st { Machine.reset with hly := { Hly.reset with
    reg := { HlyReg.reset with state := .run, role := .provisional, nodeId := 8, master := 8 }
    db := { HlyDb.reset with nodes := [nodeOf 0, nodeOf 8] } } }
/-- A package with an ACTIVE port towards package 8. -/
def facing : Machine := ported .active fun r => { r with far := { r.far with valid := true, node := 8 } }
/-- The standby of master 1. -/
def standing : State := st { treed with hly := { treed.hly with reg := { treed.hly.reg with role := .standby, standby := 0 } } }
/-- A master that knows package 8. -/
def leading : Machine := { mastered with hly := { mastered.hly with db := { HlyDb.reset with nodes := [nodeOf 0, nodeOf 8] } } }
/-- A package in DISCOVER whose neighbour 8 has a master. -/
def latecomer : Machine :=
  { ported .active id with hly := { Hly.reset with
    reg := { HlyReg.reset with state := .discover }
    db := { HlyDb.reset with neigh := [(23, some { node := 8, valid := true, uid := 9, admission := 0, eligible := true, fingerprint := 0, port := 23, state := 3 })] } } }
/-- Package 8 in ELECT that has heard another's announcement. -/
def heardOf (n : NodeId) : Machine :=
  { electing.m with hly := { electing.m.hly with db := { electing.m.hly.db with announced := n } } }
/-- A member whose component's standby is known. -/
def standbyOf (n : NodeId) : Machine := { treed with hly := { treed.hly with reg := { treed.hly.reg with standby := n } } }
/-- The header of generation 1, and of generation 5 with one left out. -/
def delta1 : DbHead := { gen := 1, base := 0, master := 1, standby := 0xFFFF, time := 7, quorum := true, fingerprint := 0 }
def delta5 : DbHead := { delta1 with gen := 5, base := 4 }
/-- A master with a child in the spanning tree. -/
def leading2 : Machine :=
  { mastered with hly := { mastered.hly with db := { HlyDb.reset with nodes := [nodeOf 0, nodeOf 8], links := [linkOf 0 1 8, linkOf 8 1 0] } } }
/-- A package that holds a record of package 9 with a live link to package 8. -/
def joinedTo8 : Machine :=
  { mastered with hly := { mastered.hly with db := { HlyDb.reset with facts := [{ recordOf8 with node := nodeOf 9, links := [linkOf 9 1 8] }] } } }
/-- A restarting Halyard after `k` tries. -/
def restarting (k : Nat) : Machine :=
  { Machine.reset with hly := { Hly.reset with restartTry := k, reg := { HlyReg.reset with state := .restarting } } }
/-- A master of packages 0 and 8 whose epoch 1 is at a stage, with its own bank ready. -/
def epochAt (ph : EpochPhase) : Machine :=
  { mastered with hly := { mastered.hly with
    db := { HlyDb.reset with nodes := [nodeOf 0, nodeOf 8], links := [linkOf 0 1 8, linkOf 8 1 0] }
    work := { EpochWork.reset with phase := ph, epoch := 1, ready := [0] } } }
/-- A master outside the component whose extra epoch is committed. -/
def extraOutside : Machine :=
  { epochAt .committed with hly := { (epochAt .committed).hly with work := { (epochAt .committed).hly.work with extraNodes := [8], finalEpoch := some 3 } } }
/-- The same, with no standby, when only package 8 is missing. -/
def lastReady : Machine :=
  { epochAt .preparing with hly := { (epochAt .preparing).hly with reg := { (epochAt .preparing).hly.reg with standby := 0xFFFF } } }
/-- A prepare of epoch 1 at a generation. -/
def prep1 (gen : Word) : Prepare :=
  { epoch := 1, gen := gen, slots := [], tags := [], peers := [], windows := [], flows := [], ramps := [], same := false }
/-- An admitted member. -/
def admittedMember : Machine := { treed with hly := { treed.hly with reg := { treed.hly.reg with admitted := true } } }
/-- The same in step 31 without an offer. -/
def offerless : Machine :=
  { admittedMember with boot := { admittedMember.boot with bcast := { admittedMember.boot.bcast with offer := none }, steps := [(31, .running)] } }
/-- A member that has prepared epoch 1. -/
def preparedMember : Machine :=
  { admittedMember with hly := { admittedMember.hly with
    reg := { admittedMember.hly.reg with prepared := true }
    bank1 := { Bank.reset with valid := true, prep := prep1 0 } } }
/-- The same, with its commit. -/
def committedMember : Machine := { preparedMember with hly := { preparedMember.hly with commitAt := some (1, 9) } }
/-- A master with the commit of its prepared epoch 1. -/
def committedMaster : Machine :=
  { mastered with hly := { mastered.hly with commitAt := some (1, 9), reg := { mastered.hly.reg with prepared := true } } }
/-- A master without a standby that knows package 8 and its link. -/
def sole : Machine :=
  { leading with hly := { leading.hly with
    db := { leading.hly.db with links := [linkOf 0 1 8, linkOf 8 1 0] }
    reg := { leading.hly.reg with standby := 0xFFFF } } }
/-- The same, with package 8 drained. -/
def drained : Machine := { sole with hly := { sole.hly with db := { sole.hly.db with nodes := [nodeOf 0, { nodeOf 8 with state := 2 }] } } }
/-- A booted package with argument words in its mailbox. -/
def boxed (args : Table Word) : Machine :=
  { (booted id) with hly := { Hly.reset with box := { HlyBox.reset with args := args } } }
/-- RIG_WRITE of parameter 5, master-eligible. -/
def rigBox : Machine := boxed [(0, 5), (1, 1)]
/-- RIG_WRITE of the power cap. -/
def capBox (w : Word) : Machine := boxed [(0, 6), (1, w)]
/-- RIG_READ of a parameter. -/
def readBox (n : Word) : Machine := boxed [(0, n)]
/-- A finished mailbox command. -/
def doneBox : Machine :=
  { Machine.reset with hly := { Hly.reset with
    finished := [{ cmd := Machine.reset.boxRec 0x0C 1, status := 0, res := [1], data := [] }] } }
/-- A member's command that waits for the master's answer. -/
def waitingBox : Machine := { Machine.reset with hly := { Hly.reset with boxCmd := some (Machine.reset.boxRec 0x02 1) } }
/-- A planner job of a kind. -/
def jobOf (k : JobKind) : Job := { placeJob 1 .empty false true with kind := k }
/-- A package whose planner has jobs waiting. -/
def queued (l : List Job) : Machine := { Machine.reset with tkp := { Tkp.reset with queue := l } }
/-- A package whose planner runs a job. -/
def searching (j : Job) (l : List Job) : Machine := { Machine.reset with tkp := { Tkp.reset with job := some j, queue := l } }
/-- A DRYRUN with a malformed demand. -/
def badDryrun : Job :=
  { jobOf .dryrun with req := { SliceReq.empty with demands := [readDemand true 0 [255, 255]] } }
/-- A slice request of one node, K 1 and one demand of 4,096 bytes a step of 1 µs. -/
def request1 : List Byte :=
  [1, 1, 1, 0, 0, 0, 0x01, 1, 0, 0, 0, 0, 0, 0, 1, 0] ++ List.replicate 16 0 ++
  [0, 0, 0, 0, 0, 0, 0, 0, 0, 0, 0, 0, 0, 16, 0, 0, 0xE8, 3, 0, 0, 0xE8, 3, 0, 0, 0, 1, 0, 0, 1, 0, 0, 0]
/-- A master with slice 1 of one package in a state. -/
def sliced (st : SliceState) : Machine :=
  { sole with slc := { sole.slc with
      recs := [(1, { SliceRec.reset with state := st, ext := (1, 1, 1), k := 1 })]
      nodes := [(0, { NodeParts.reset with inUse := 1, bound := [(0, 1)] })] } }
/-- The same, ACTIVE, with a live Backstay link to pod 1. -/
def peering : Machine :=
  { sliced .active with hly := { (sliced .active).hly with
    db := { (sliced .active).hly.db with links := [{ linkOf 0 1 (BitVec.ofNat 16 0x0800) with flags := 8 }] } } }
/-- An event ring of eight entries with its tail at a place. -/
def ringAt (t : Nat) : Machine :=
  { Machine.reset with part := { Part.reset with evq := { Part.reset.evq with base := 64, size := 8, head := 0, tail := t } } }
/-- A live context record. -/
def ctxOf (l : CtxLife) : CtxRec := { CtxRec.reset with base := { CtxBase.reset with life := l, tag := 5, func := some 0 } }
/-- A package whose partition 0, of tag 5, is in a state, with the live context 3. -/
def owning (st : PartState) : Machine :=
  { Machine.reset with
    part := { Part.reset with parts := [(0, { PartRec.reset with state := st, tag := 5, ctxMax := 4, live := true })] }
    ctx := [(3, ctxOf .live)] }
/-- A package with CREATE in CTX_CMD for a partition. -/
def creating (i : Nat) : Machine := { owning .bound with ctxCmd := { CtxCmd.reset with op := 1, part := i, busy := true } }
/-- A package with an operation on context 3, which is in a state. -/
def operating (op : Nat) (l : CtxLife) : Machine :=
  { Machine.reset with ctx := [(3, ctxOf l)], ctxCmd := { CtxCmd.reset with op := op, ctx := 3, busy := true } }
/-- Context 3 is ending and its fence has drained. -/
def ending : Machine :=
  { operating 2 .ending with luff := { Luff.reset with
    fences := [{ dom := .context 3, ctxs := [3], start := 0, cause := 0, source := 0x3FF, destroy := true, drained := true }] } }
/-- A live context that has moved 64 HBM bytes since the last attribution. -/
def meteredCtx : CtxRec :=
  { CtxRec.reset with base := { CtxBase.reset with life := .live, meters := { CtxBase.reset.meters with hbm := 64 } } }
/-- Context 3 has moved HBM bytes since the last attribution. -/
def metered : Machine := { Machine.reset with ctx := [(3, meteredCtx)] }
/-- A package with frames in X0's receive buffers, epoch 1 installed. -/
def arrived (l : List RxFrame) : Machine :=
  { Machine.reset with
    fwd := [(0, { FwdRec.reset with rx := l })]
    hly := { Hly.reset with reg := { HlyReg.reset with epoch := 1, installed := true }, bank1 := { Bank.reset with valid := true } } }
/-- A management frame to this package. -/
def mgmt0 : Frame := { hdr := mkHdr 0 1 true 0 0 0 0 0 0 0 0 5, payload := [] }
/-- A message to the package one hop away in X+, tag 5. -/
def toX : Frame := { hdr := mkHdr 4 1 true 128 0 5 0 0 0 0 0 0, payload := [] }
/-- Road-map links with a detour from package 0 to it. -/
def roads : List LinkRec :=
  [linkOf 0 1 128, { linkOf 0 4 1 with dir := 4 }, linkOf 1 1 129, { linkOf 129 5 128 with dir := 5 }]
/-- Package 0 with its ports SP1 to X+ and SP4 to Z+ ACTIVE and an installed bank of those links. -/
def routed (r : FwdRec) : Machine :=
  let a : PortRec := { PortRec.reset with stat := { PortStat.reset with state := .active, assigned := true, dir := 0 } }
  let b : PortRec := { PortRec.reset with stat := { PortStat.reset with state := .active, assigned := true, dir := 4 } }
  let m := arrived []
  (({ m with
      fwd := [(0, r)]
      hly := { m.hly with bank1 := { Bank.reset with
        valid := true, links := roads, prep := { prep1 0 with tags := [{ tag := 5, member := none }] } } } } : Machine).setPort 1 a).setPort 4 b
/-- An own frame of a VC that waits on an I/O die. -/
def waiting0 (vc : Nat) (f : Frame) : RxFrame := { port := none, vc := vc, frame := f, since := 0, session := 0, checked := false }
/-- The frame waits to be forwarded. -/
def routing : Machine := routed { FwdRec.reset with rx := [waiting0 3 toX] }
/-- The frame waits in the detour queue. -/
def detouring : Machine := routed { FwdRec.reset with detq := [waiting0 3 toX] }
/-- An OPEN message stream with a buffer of 4 KiB. -/
def msgStream : StreamRec := { StreamRec.reset with state := .open_, kind := 4, len := 4096 }
/-- A package with stream 5 and a delivered frame. -/
def delivered (r : StreamRec) (f : Frame) : Machine :=
  { Machine.reset with
    strm := { Strm.reset with entries := [(5, r)] }
    hbm := { Machine.reset.hbm with s := 1, pages := [(0, { use := .owned, ctx := 0 })] }
    fwd := [(0, { FwdRec.reset with inbox := [{ frame := f, since := 9 }] })] }
/-- A REQ of an operation on stream 5: 1 writes a byte, 4 signals. -/
def reqFrame (op : Nat) : Frame :=
  let p : List Byte := if op = 1 then leBytes 8 (2 ^ 40) ++ [7] else leBytes 8 (2 ^ 40)
  { hdr := mkHdr 5 1 true 0 0 5 5 0 3 0 p.length op, payload := p }
/-- A package with that REQ delivered. -/
def requested (op : Nat) : Machine := delivered msgStream (reqFrame op)
/-- The REP of request 3. -/
def repFrame : Frame := { hdr := mkHdr 6 1 true 0 0 5 5 0 3 0 0 0, payload := [] }
/-- A package with request 3 outstanding and its REP delivered. -/
def replying : Machine :=
  { delivered msgStream repFrame with
    txn := [(3, some { orphan := false, ctx := 3, queue := 0, stream := 5, gen := 0, at_ := 0, op := 5, dst := 0, off := 0, len := 1 })] }
/-- A message to stream 5. -/
def msgFrame : Frame := { hdr := mkHdr 4 1 true 0 0 5 5 0 0 0 1 0, payload := [7] }
/-- A package with that message delivered to a ring of a size. -/
def messaged (n : Nat) : Machine := delivered { msgStream with ring := n } msgFrame
/-- A COLL frame of stream 5. -/
def collFrame0 : Frame := { hdr := mkHdr 3 1 true 0 8 5 5 0 0 0 1 0, payload := [7] }
/-- A running REDUCE that waits for its own operand. -/
def coll0 : CollRec :=
  { ctx := 3, index := 0, stream := 5, op := 5, fmt := 0, red := 0, bytes := 4, busy := true, data := [], supplied := 0, die := 0,
    members := [0, 8], senses := [], parent := none, children := [8], got := [], stage := 0, landed := 0 }
/-- A package whose context 3 runs it, with the frame delivered. -/
def collecting : Machine :=
  { delivered { StreamRec.reset with state := .bound, kind := 3, ctx := 3 } collFrame0 with coll := [(0, some coll0)], ctx := [(3, ctxOf .live)] }
/-- A master that is no member of slice 1. -/
def afar : Machine :=
  { sliced .active with slc := { (sliced .active).slc with recs :=
      [(1, { SliceRec.reset with state := .active, ext := (1, 1, 1), k := 1, origin := (1, 0, 0) })] } }
/-- A package with stream 5 of context 3 in a state. -/
def streaming (st : StreamState) : Machine :=
  { Machine.reset with
    strm := { Strm.reset with entries := [(5, { StreamRec.reset with state := st, kind := 2, ctx := 3, depth := 4 })] }
    ctx := [(3, ctxOf .live)] }
/-- An abort of slice 1's stream 5 at a stage. -/
def abort0 (k : Nat) : AbortRec := { tag := 1, stream := 5, gen := 0, acked := [], stage := k }
/-- A master with that abort. -/
def aborting (k : Nat) : Machine := { afar with hly := { afar.hly with aborts := [abort0 k] } }
/-- An image of one tile with a channel from the tile to itself and a step of 100 ns that counts two tokens on it. -/
def image1 : Image :=
  { addr := 0, totalLen := 0, partTiles := 1, tiles := 1, tileBase := 0, streams := 0, hbmLim := 4, xdieLim := 4, fabLim := 4, srSeed := 0,
    hbmLen := 4096, maxDurNs := 100, recs := [{ codeLine := 0, code := [] }],
    chans := [{ kind := 0, src := 0, dst := 0, tokenBytes := 256, depth := 2, bufLine := 8, ref := 0 }],
    steps := [{ durNs := 100, stepW := 0, counts := [(0, 2)], starts := [some 0] }], consts := [], colls := [] }
/-- It, bound at the start of its partition. -/
def bound1 : BoundImage := { img := image1, base := 0, streamBase := 0, hbmBase := 0 }
/-- A step of it. -/
def run1 (released : Bool) : RunStep :=
  { step := 0, arg := 0, released := released, number := 0, releaseAt := 0, armSeq := 0, chans := [], offCorner := 0, flags := 0, recvCh := [] }
/-- Context 3 with the image bound and execution registers changed. -/
def imaged (f : Xc → Xc) : Machine :=
  { Machine.reset with
    part := { Part.reset with parts := [(0, { PartRec.reset with state := .bound, tag := 5, ctxMax := 4 })] }
    ctx := [(3, { ctxOf .live with xc := f { Xc.reset with image := some bound1, state := .running } })] }
/-- The image's tile as it runs a step, changed by `f`, with a word at the start of its store. -/
def tiled (w : Nat) (f : TileRec → TileRec) : Machine :=
  { imaged fun x => { x with run := some (run1 true) } with
    tiles := [(0, f { TileRec.reset with phase := .running, store := mwrite Config.blank [] 0 (leBytes 16 w) })]
    hbm := { Machine.reset.hbm with s := 1, pages := [(0, { use := .owned, ctx := 3 })] } }
/-- A tile with a line in flight into its store. -/
def fetching : Machine := tiled 0x0D fun t => { t with lines := [{ write := false, n := 0, addr := 0, line := 4 }] }
/-- A tile with a line in flight from a page that its context does not own. -/
def losing : Machine := tiled 0x0D fun t => { t with lines := [{ write := false, n := 0, addr := pageBytes, line := 4 }] }
/-- Its line 0. -/
def line0 : LineOp := { write := false, n := 0, addr := 0, line := 4 }
/-- Its line 4, which waits for line 0 under a limit of 4. -/
def line4 : LineOp := { write := false, n := 4, addr := 0, line := 8 }
/-- A tile with an offered token. -/
def acking : Machine := tiled 0x0D fun t => { t with tokens := [{ ch := 0, k := 0, n := 0, line := 4, offered := true }] }
/-- The same, after a violation of the step. -/
def ackingLate : Machine :=
  { acking with ctx := [(3, { ctxOf .live with xc := { Xc.reset with
      image := some bound1, state := .running, run := some (run1 true), detected := some { reason := 9, ch := 0, tile := none } } })] }
/-- Tile 0, mapped and to be retired, and physical tile 33 a spare. -/
def mapped : Machine :=
  { Machine.reset with
    tileMap := [(0, { phys := 0, valid := true, spare := false })]
    tilePhys := [(0, { use := .mapped, logical := 0 }), (33, { use := .spare, logical := 0 })]
    tiles := [(0, { TileRec.reset with toRetire := true })] }
/-- The same, with no spare. -/
def spareless : Machine := { mapped with tilePhys := [(0, { use := .mapped, logical := 0 })] }
/-- A schedule image of one tile in bytes: its header, a directory of three sections, and a step of 100 ns that runs END. -/
def imageBytes : List Byte := leBytes 240
  0x64000000000000000000000000000000000000000d00000000000000010000000000000000441d453900000020000000d000000004e5f1090c00000010000000c00000000220114bcb00000010000000b000000001fdad5e150000000000000000000000000000000000000000000000000000000000000000000000000000000000000000000000000000000000000000000000000000000000000000000000000000006400000000000001000000000002bc5f000001000000000000000100000001008000000003000000f0008000014d495345
/-- Context 3 about to bind that image, which stands in its page. -/
def loadable : Machine :=
  { imaged fun _ => { Xc.reset with op := 1, busy := true } with
    tileMap := [(0, { phys := 0, valid := true, spare := false })]
    hbm := { Machine.reset.hbm with s := 1, pages := [(0, { use := .owned, ctx := 3 })], bytes := mwrite Config.blank [] 0 imageBytes } }
/-- Context 3 about to bind, with an earlier page operation of its partition in progress. -/
def behind : Machine :=
  { loadable with part := { loadable.part with ops := [.page, .image 3], page := { loadable.part.page with busy := true, ctx := 3 } } }
/-- Context 3 in reset, with an operation. -/
def unlive (op : Nat) : Machine :=
  { Machine.reset with ctx := [(3, { ctxOf .live with xc := { Xc.reset with op := op, busy := true }, rst := { CtxRst.reset with inReset := true } })] }
/-- Context 3 with RESTART in progress. -/
def restarting3 (v : Bool) (st : XcState) : Machine :=
  { imaged fun x => { x with op := 3, busy := true, state := st } with tileMap := [(0, { phys := 0, valid := v, spare := false })] }
/-- Context 3 with a step queued and a completion ring. -/
def armable : Machine := imaged fun x => { x with cqSize := 8, queue := [{ step := 0, arg := 7, aborted := none }] }
/-- Context 3 with a step armed and its dies' rails good. -/
def releasing : Machine :=
  let m := imaged fun x => { x with run := some (run1 false) }
  { m with time := { TimeBlk.reset with now := 5000 }
           reef := { m.reef with dies := (List.range 4).map fun d => (d, { ReefDie.reset with okSince := some 0 }) } }
/-- Context 3 with a step whose tile has ended, `t` ns after its release. -/
def ended (t : Nat) : Machine :=
  let m := imaged fun x => { x with cqSize := 8, run := some (run1 true) }
  { m with time := { TimeBlk.reset with now := BitVec.ofNat 64 t } }
/-- A package of one stack with a page operation of context 3 on page 0, which is in a use. -/
def paged (op : Nat) (u : PageUse) : Machine :=
  { imaged fun x => { x with image := none } with
    part := { (imaged id).part with page := { Part.reset.page with op := op, ctx := 3, first := 0, count := 1, busy := true } }
    hbm := { Machine.reset.hbm with s := 1, pages := [(0, { use := u, ctx := 3 })], bytes := [(5, 7)] } }
/-- A RETURN of page 0 whose scrub has begun. -/
def returning : Machine :=
  { paged 2 .scrubbing with part := { (paged 2 .scrubbing).part with page := { (paged 2 .scrubbing).part.page with begun := true } } }
/-- A page operation behind a BIND of its partition. -/
def waitingPage : Machine :=
  { imaged fun x => { x with image := none, op := 1, busy := true } with
    part := { (paged 2 .owned).part with ops := [.image 3, .page] } }
/-- The same, with context 3's image bound: its HBM region lies in page 0. -/
def pinnedPage : Machine := { imaged id with part := (paged 2 .owned).part, hbm := (paged 2 .owned).hbm }
/-- Context 3 with a stream operation of arguments on stream 5, which is in a state. -/
def streamOp (op : Nat) (a : Table Word) (r : StreamRec) : Machine :=
  { Machine.reset with
    strm := { Strm.reset with entries := [(5, r)] }
    ctx := [(3, { ctxOf .live with st := { StCmd.reset with op := op, stream := 5, busy := true, args := a } })] }
/-- A stream operation behind a page operation of its partition. -/
def waitingStrm : Machine :=
  { streamOp 1 [] .reset with part := { (paged 2 .owned).part with ops := [.page, .stream 3] } }
/-- An open stream of context 3. -/
def strm3 (k : Nat) : StreamRec := { StreamRec.reset with state := .open_, kind := k, ctx := 3 }
/-- A management frame about stream 5 from package 0. -/
def strmFrame (opx v : Nat) : Frame := { hdr := mkHdr 0 1 true 0 0 0 0 0 0 0 16 opx, payload := strmPayload 5 0 v }
/-- A package with that frame delivered and a stream of a kind. -/
def strmMgmt (opx v k : Nat) : Machine := delivered (strm3 k) (strmFrame opx v)
/-- A package in rescue: H0 is active and offers no CXL. -/
def rescuedHost : Machine := booted fun b => { b with rescue := true }
/-- A package past boot step 12 whose H0 offers CXL. -/
def cxlHost : Machine := booted fun b => { b with steps := [(12, .complete)], rig := [(9, some 2)] }
/-- A copy-engine command of an opcode, its second byte and bytes from 0x20 on. -/
def ceCmd (op opts : Nat) (tail : List Byte) : CeCmd :=
  .ofBytes (leBytes 32 (op + opts * 256) ++ tail ++ List.replicate (224 - tail.length) 0)
/-- Context 3 with its queue 0 changed. -/
def copying (f : CeQueue → CeQueue) : Machine :=
  let m := imaged fun x => { x with image := none }
  { m with
    ctx := [(3, { ctxOf .live with ce := { CtxCe.reset with cqSize := 8, queues := [(0, f { CeQueue.reset with
      state := .running, enable := true, log2size := 4, cls := 3, idx := 0 })] } })]
    hbm := { Machine.reset.hbm with s := 1, pages := [(0, { use := .owned, ctx := 3 })], bytes := [(5, 7)] } }
/-- Its command with FLUSH wrote over H1, which is up. -/
def flushing : Machine :=
  { copying fun r => { r with cur := some { ceCmd 1 2 [] with h1Last := some 64 } } with
    hst := { Hst.reset with links := [(1, { HstLink.reset with up := true })] } }
/-- A watch entry held on a line, for queue 0 of context 3. -/
def watching : Machine :=
  { copying id with hst := { Hst.reset with watches := [(0, { Watch.reset with valid := true, held := true, lo := 1, tgt := 0x71340C })] } }
/-- Context 3 bound to a VF. -/
def vfBound (f : Nat) : Machine := { Machine.reset with ctx := [(3, { ctxOf .live with base := { (ctxOf .live).base with func := some f } })] }
/-- Queue 0 of context 3 with a command in progress on an engine. -/
def queued12 (e : Nat) (k : CeCmd) : Machine := copying fun r => { r with cur := some { k with engine := e } }
/-- A COPY of 4 bytes from device address 4 to 64. -/
def copy4 : CeCmd := .ofBytes (leBytes 256 (1 + 4 * 2 ^ 64 + 4 * 2 ^ 128 + 64 * 2 ^ 192))
/-- A command to package 0 on stream 5, of a length. -/
def send5 (op len : Nat) : CeCmd := .ofBytes (leBytes 256 (op + len * 2 ^ 64 + 5 * 2 ^ 112))
/-- Queue 0 of context 3 with such a command, stream 5 in a state. -/
def sending (op len : Nat) (st : StreamState) : Machine :=
  { queued12 16 (send5 op len) with
    strm := { Strm.reset with entries := [(5, { StreamRec.reset with state := st, kind := 4, ctx := 3 })] } }
/-- Reef with die 0 and partition 0 in given records. -/
def reefed (d : ReefDie) (p : ReefPart) (f : Reef → Reef) : Machine :=
  { Machine.reset with reef := f { Reef.reset with dies := [(0, d)], parts := [(0, p)] } }
/-- Context 3 of image steps of 40 W with a step armed, its partition assigned at 10 W/µs in two groups. -/
def ramping13 : Machine :=
  let i := { image1 with steps := [{ durNs := 100, stepW := 40, counts := [], starts := [some 0] }] }
  let m := imaged fun x => { x with image := some { bound1 with img := i }, run := some (run1 false) }
  { m with reef := { Reef.reset with rampUp := 10, parts := [(0, { ReefPart.reset with assigned := true, groupsM1 := 1, windowUs := 8 })] } }
/-- Telltale with events landed, otherwise as `f` makes it. -/
def landedTtl (l : List Event) (f : Ttl → Ttl) : Machine := { Machine.reset with ttl := f { Ttl.reset with landed := l } }
/-- An event of a source at a class, against a context. -/
def event14 (i cls : Nat) (c : Option Nat) : Event := { source := i, count := 1, unit := 2, ctx := c, cls := cls, forced := false }
/-- A tile whose reset began at 0. -/
def resetting : Machine := tiled 0x0D fun t => { t with resetAt := some 0 }
/-- A machine with the luff block changed. -/
def luffed (f : Luff → Luff) (m : Machine) : Machine := { m with luff := f m.luff }
/-- A fence of a domain over context 3. -/
def fence0 (d : Domain) (drained : Bool) : Fence :=
  { dom := d, ctxs := [3], start := 0, cause := 2, source := 0x3FF, destroy := false, drained := drained }
/-- Context 3 under a fence. -/
def fenced0 (d : Domain) (drained : Bool) : Machine := luffed (fun l => { l with fences := [fence0 d drained] }) (imaged id)
/-- A collective slot of context 3, in progress or not. -/
def collAt0 (b : Bool) : Machine := { imaged id with coll := [(0, some { coll0 with busy := b })] }
/-- An IN stream that gates a queued step and holds one of its two tokens. -/
def stalling : Machine :=
  { imaged fun x => { x with queue := [{ step := 0, arg := 7, aborted := none }] } with
    strm := { Strm.reset with entries := [(5, { StreamRec.reset with state := .bound, kind := 2, ctx := 3, landed := 1 })] } }
/-- A package past step 9 with a package reset ordered by Telltale. -/
def pkgOrdered (f : Boot → Boot) : Machine :=
  { booted f with ttl := { Ttl.reset with pkgOrder := some 300 }, ctx := [(3, ctxOf .live)] }
/-- A package whose reset's boot steps have run, under the drained fence. -/
def pkgReset (f : Boot → Boot) : Machine :=
  { booted f with luff := { Luff.reset with fences := [fence0 .package true] }, ctx := [(3, ctxOf .live)] }
/-- Farnis running, with sites in given records. -/
def tray (l : List (Nat × SiteRec)) (f : Farnis → Farnis) : Machine :=
  { Machine.reset with far := f { Farnis.reset with running := true, sites := l } }
/-- A site in a state with an action. -/
def siteOf (st : SiteState) (a : Option PowerAct) : SiteRec := { SiteRec.reset with state := st, act := a }
/-- An action towards a goal. -/
def actOf (g : PowerGoal) (notice : Bool) : PowerAct := offAct g notice 0 0
/-- A two-die package that boot has taken on, with H0 and H1 up. -/
def answering : Machine :=
  { (booted id) with hst := { Hst.reset with links := [(0, { HstLink.reset with up := true }), (1, { HstLink.reset with up := true })] } }
/-- The same, in rescue. -/
def answeringRescue : Machine := { answering with boot := { answering.boot with rescue := true } }
/-- The same, with one VF that no context is bound to. -/
def answeringVf : Machine := { answering with hst := { answering.hst with vfEn := true, numVf := 1 } }
/-- A package whose mailbox runs a command. -/
def boxBusy : Machine := { Machine.reset with hly := { Hly.reset with box := { HlyBox.reset with busy := true } } }
/-- A package that holds a command of Farnis. -/
def mctpHeld : Machine := { (onTray id) with hly := { Hly.reset with mctp := some { Machine.reset.boxRec 2 1 with src := .mctp } } }
/-- A tray whose site 0 is in a state and powered. -/
def scanning (st : SiteState) : Machine := sited 0 st Machine.reset
/-- A card whose controller is in a state. -/
def carded (c : Card) : Machine := { Machine.reset with pins := { Machine.reset.pins with form := true }, card := c }
/-- A card whose rails are good and whose package pins C4. -/
def cardC4 : Machine :=
  { carded { Card.reset with slot12v := true, pg := true, aux := 3 } with
    ttl := { Ttl.reset with pin := { Ttl.reset.pin with c4 := true } } }

/-! ### Well-formedness: one ill-formed term for each check -/

/-- A frame with a payload of a length. -/
def longFrame (n : Nat) : Frame := { hdr := 0, payload := List.replicate n 0 }
theorem test_wf_frame : (longFrame 256).wf = true ∧ (longFrame 257).wf = false := by decide
theorem test_wf_cells : cellsWf [(2 ^ 64 - 1, 0)] = true ∧ cellsWf [(2 ^ 64, 0)] = false := by decide
theorem test_wf_source : (HlySrc.forwarded 8 (List.replicate 14 0) []).wf = true ∧ (HlySrc.forwarded 8 (List.replicate 15 0) []).wf = false := by
  decide
theorem test_wf_reply : replyWf (some { status := 0, res := List.replicate 8 0, data := [] }) = true ∧
    replyWf (some { status := 0, res := List.replicate 9 0, data := [] }) = false := by decide
theorem test_wf_link : (linkOf 0 23 1).wf = true ∧ (linkOf 0 24 1).wf = false := by decide
/-- A link-state record with a whole yield map. -/
def mapped8 : LsRecord := { recordOf8 with yield := List.replicate 64 0 }
theorem test_wf_link_state : mapped8.wf = true ∧ { mapped8 with links := List.replicate 25 (linkOf 8 1 0) }.wf = false ∧
    { mapped8 with links := [linkOf 8 24 0] }.wf = false ∧ recordOf8.wf = false := by decide
theorem test_wf_orders : (HlySrc.bind { tag := 4095, index := 7, log2k := 3, ctxMax := 0, tenant := 0 }).wf = true ∧
    (HlySrc.bind { tag := 4096, index := 7, log2k := 3, ctxMax := 0, tenant := 0 }).wf = false ∧
    (HlySrc.bind { tag := 1, index := 8, log2k := 3, ctxMax := 0, tenant := 0 }).wf = false ∧
    (HlySrc.bind { tag := 1, index := 7, log2k := 4, ctxMax := 0, tenant := 0 }).wf = false ∧ (HlySrc.unbind 4096).wf = false ∧
    (HlySrc.layout 4).wf = false := by decide
theorem test_wf_vendor : Instr.wf (.idRead fromFarnis 1 1) = true ∧ Instr.wf (.idRead fromFarnis 1 2) = true ∧
    Instr.wf (.idRead fromFarnis 2 1) = false := by decide
theorem test_wf_slot : SlotOwn.wf { node := 0, port := 23, tag := 1, period := 8, phase := 7 } = true ∧
    SlotOwn.wf { node := 0, port := 24, tag := 1, period := 8, phase := 7 } = false ∧
    SlotOwn.wf { node := 0, port := 23, tag := 1, period := 8, phase := 8 } = false ∧
    SlotOwn.wf { node := 0, port := 23, tag := 4096, period := 8, phase := 7 } = false := by decide
theorem test_wf_prepare : emptyPrepare.wf = true ∧
    { emptyPrepare with slots := [{ node := 0, port := 0, tag := 1, period := 8, phase := 8 }] }.wf = false := by decide
theorem test_wf_event : SliceEvent.wf { code := 1, detail := 0, tag := 4095, node := 0, scale := 0, time := 0, tenant := 0, topoGen := 0 } = true ∧
    SliceEvent.wf { code := 1, detail := 0, tag := 4096, node := 0, scale := 0, time := 0, tenant := 0, topoGen := 0 } = false := by decide
theorem test_wf_host_link : HostTrain.wf { up := true, rate := 3, width := 16, cxl := none, tags := false } = true ∧
    HostTrain.wf { up := true, rate := 0, width := 16, cxl := none, tags := false } = false ∧
    HostTrain.wf { up := true, rate := 3, width := 17, cxl := none, tags := false } = false := by decide
theorem test_wf_bundle : (bundle 7).wf = true ∧ { bundle 7 with chunks := 0 }.wf = false ∧ { bundle 7 with mchunks := 0 }.wf = false := by decide
theorem test_wf_range : ChunkRange.wf { first := 0, count := 2047, payload := true } = true ∧ ChunkRange.wf { first := 2 ^ 20, count := 1, payload := true } = false ∧
    ChunkRange.wf { first := 0, count := 2048, payload := true } = false := by decide
theorem test_wf_access : (BarAccess.write []).wf = false ∧ (BarAccess.read 0).wf = false ∧ (BarAccess.read 4).wf = true := by decide

theorem test_wf_boot_inputs :
    BootInputs.wf { cables := [], units := [], failed := [], train := [(3, 0)], ok := true } = true ∧
    BootInputs.wf { cables := [], units := [], failed := [], train := [(4, 0)], ok := true } = false ∧
    BootInputs.wf { cables := List.replicate 25 { pins := 0, rate := none }, units := [], failed := [], train := [], ok := true } = false := by
  decide
theorem test_wf_fragment : FragHdr.wf { chunk := 2 ^ 20 - 1, frag := 16, payload := true, tag := 0 } = true ∧
    FragHdr.wf { chunk := 2 ^ 20, frag := 16, payload := true, tag := 0 } = false ∧
    FragHdr.wf { chunk := 0, frag := 17, payload := true, tag := 0 } = false := by decide
theorem test_wf_lengths : Instr.wf (.crashSummary 0 [0, 0, 0, 0] 0) = false ∧ Instr.wf (.measure 0 [] 0 0) = false ∧
    Instr.wf (.windowRead .pf 0 0) = false ∧ Instr.wf (.windowWrite .pf 0 [] false) = false ∧ Instr.wf (.reefMeasure [0, 0, 0, 0, 0] 0) = false := by
  decide

/-! ### Worked cases of the spec -/

/-- The package of Worked case 1.1. -/
def cedar : Machine :=
  { Machine.reset with
    pins := { site := 14, siteP := false, form := false, slot := 5, rcol := 2, rrow := 1, pod := 3, rackP := true }
    boot := { Boot.reset with rig := [(1, some 0x3A)] } }
/-- 01 Worked case 1.1: BOOT_STRAP. -/
theorem test_strap_of_worked_case : cedar.pins.strap = 0x0009B51E := by decide
/-- 01 Worked case 1.1: HLY_NODE_ID. -/
theorem test_node_of_worked_case : cedar.composeNode.nodeIdWord = 0x00011D3D := by decide
/-- 02 Worked case 2.1: BOOT_ID of a B1 VLT-2C6M2X-P11. -/
theorem test_boot_id_of_worked_case :
    ({ Machine.reset with fuse := { Fuse.reset with cdieMask := 0x3, stackMask := 0x5F } } : Machine).bootId = 0x35F3B321 := by decide
/-- 03 Worked case 3.1: the ports of X0 and X1 under preset 3. -/
theorem test_preset_of_worked_case :
    presetPorts 3 0 =
      [(0, 0, 0), (1, 0, 1), (2, 0, 2), (3, 1, 0), (4, 1, 1), (5, 1, 2), (6, 2, 0), (7, 2, 1), (8, 3, 0), (9, 3, 1), (10, 4, 0), (11, 5, 0)] ∧
    presetPorts 3 1 =
      [(12, 0, 3), (13, 0, 4), (14, 1, 3), (15, 1, 4), (16, 2, 3), (17, 2, 4), (18, 3, 3), (19, 3, 4), (20, 4, 3), (21, 5, 3), (22, 4, 5), (23, 5, 5)] := by
  decide
/-- 07 Worked case 7.1: the header's 16 bytes; REL lies in TXN's place. -/
theorem test_header_of_worked_case : hdrBytes (mkHdr 2 7 false 0x020A 0x018A 0x041 0x123 0x0041 3 5 256 0) =
    [0x12, 0x0A, 0x02, 0x8A, 0x01, 0x41, 0x30, 0x12, 0x41, 0x00, 0x03, 0x28, 0x00, 0x08, 0x00, 0x00] := by decide
/-- 07 Worked case 7.1: three units of AGE. -/
theorem test_age_of_worked_case : (hdrBytes (addAge { hdr := mkHdr 2 7 false 0x020A 0x018A 0x041 0x123 0x0041 3 5 256 0, payload := [] } 192).hdr).getD 13 0 = 0x38 := by
  decide
/-- 08 Worked case 8.1: −3.3 in each narrow format. -/
theorem test_narrow_of_worked_case : (convertElem false .bf16 0 false 0 0xC0533333).1 = 0xC053 ∧ (convertElem false .fp16 0 false 0 0xC0533333).1 = 0xC29A ∧
    (convertElem false .e4m3 0 false 0 0xC0533333).1 = 0xC5 ∧ (convertElem false .e5m2 0 false 0 0xC0533333).1 = 0xC3 ∧
    (convertElem false .int8 0 false 0 0xC0533333).1 = 0xFD ∧ (convertElem false .int4 0 false 0 0xC0533333).1 = 0xD := by decide
/-- 08 Worked case 8.1: 1,000.0 in each narrow format. -/
theorem test_narrow_of_a_thousand : (convertElem false .fp16 0 false 0 0x447A0000).1 = 0x63D0 ∧ (convertElem false .e5m2 0 false 0 0x447A0000).1 = 0x64 ∧
    (convertElem false .e4m3 0 false 0 0x447A0000).1 = 0x7F ∧ (convertElem false .e4m3 0 true 0 0x447A0000).1 = 0x7E ∧
    (convertElem false .int8 0 false 0 0x447A0000).1 = 0x7F ∧ (convertElem false .int4 0 false 0 0x447A0000).1 = 0x7 := by decide
/-- 08 Worked case 8.2: 5.2, −3.3, 0.4, 2.5 and −7.9 and 27 zeros as an NB4 block. -/
theorem test_nb4_of_worked_case :
    (nb4Block .nearest ((([0x40A66666, 0xC0533333, 0x3ECCCCCD, 0x40200000, 0xC0FCCCCD] : List Word) ++ List.replicate 27 0).map laneNum)).1 =
      [0x7F, 0xD5, 0x20, 0x08] ++ List.replicate 13 0 := by decide
/-- The package of Worked cases 10.1 and 11.1: K = 2, eight stacks of 24 GiB. -/
def alder : Machine :=
  { Machine.reset with
    part := { Part.reset with log2k := 1 }
    hbm := { Hbm.reset with s := 8, stackTbl := (List.range 8).map fun n => (n, { HbmStack.reset with present := true, usable := true }) } }
/-- 10 Worked case 10.1: Q, the first page of partition 1, and PC. -/
theorem test_map_of_worked_case : alder.partPagesPerStack = 6120 ∧ alder.partPage 1 = 48960 ∧ alder.systemPage = 97920 := by decide
/-- 10 Worked case 10.1 and 11 Worked case 11.1: pages, stacks and pseudo-channels. -/
theorem test_stacks_of_worked_case : alder.stackOf (0x01400100 / pageBytes) = 2 ∧ pchOf 0x01400100 = 1 ∧ alder.stackOf (0x15400000 / pageBytes) = 2 ∧
    0x17ED345678 / pageBytes = 49001 ∧ alder.stackOf 49001 = 1 ∧ pchOf 0x17ED345678 = 22 := by decide
/-- The tray of Worked case 13.2, its shelf whole and its coolant at 42 °C. -/
def birch : Machine :=
  { Machine.reset with far := { Farnis.reset with
      cduTemp := 420, cduFlow := 950, cduAge := some 0, modules := List.replicate 6 { good := true, fails := 0 } } }
/-- 13 Worked case 13.2: the coolant factor 0.92, P_TRAY 22,080 W and SHARE 1,280 W. -/
theorem test_tray_of_worked_case : birch.shelfOk = 1000 ∧ birch.pTray = 22080 ∧ birch.trayShare = 1280 := by decide
/-- The CRC-32 of the nine digits (log 13). -/
theorem test_crc32_of_digits : crc32 [0x31, 0x32, 0x33, 0x34, 0x35, 0x36, 0x37, 0x38, 0x39] = 0xCBF43926 := by decide
/-- An empty queue leaves the reset machine as it is, and a running timebase counts one nanosecond. -/
theorem test_empty_queue_counts : step State.reset = .next State.reset ∧
    ({ Machine.reset with time := { TimeBlk.reset with running := true } } : Machine).tick.time.now = 1 := ⟨rfl, by decide⟩
/-- A command of the queue's front is carried out before the next. -/
theorem test_first_in_first_out : step { m := .reset, pending := [.extTrstNFall, .idRead fromFarnis 1 1] } =
    exec .extTrstNFall { m := .reset, pending := [.idRead fromFarnis 1 1] } := rfl
/-- 08 R264: a comparison with a NaN is false, of an infinity too. -/
theorem test_nan_is_below_nothing : Num.lt (.inf true) .nan = false ∧ Num.lt .nan (.inf false) = false ∧ Num.lt (.inf true) (.inf false) = true := by decide
/-- 17 R481: what the host addresses to site 1 goes on to it, and this package, at site 0, takes nothing. -/
theorem test_host_message_bridged :
    let m := tray [(1, { SiteRec.reset with eid := some (siteEid 1) })] id
    m.vendor { src := 9, dst := siteEid 1, flags := 0 } 3 2 [] id = m.emit (.farnis 1 (mctpMsg 3 2 false false 0 [])) := by decide

/-! ### Witnesses: each shows a state and operands that meet the hypotheses of one clause of the statement it names -/

theorem witness_StepsTakeTheFrontCommandOrLetTimeCount_0 : ({ State.reset with pending := [Instr.bootAltClr, .ttlRound] } : State).pending = Instr.bootAltClr :: [.ttlRound] := by decide
theorem witness_StepsTakeTheFrontCommandOrLetTimeCount_1 : State.reset.pending = [] ∧ State.reset.m.time.running = false := by decide
theorem witness_StepsTakeTheFrontCommandOrLetTimeCount_2 : (st { Machine.reset with time := { TimeBlk.reset with running := true } }).m.time.running = true ∧ (st { Machine.reset with time := { TimeBlk.reset with running := true } }).m.time.slew = 0 := by decide
theorem witness_AdmittedCommandsComplete_0 : Machine.reset.admits (.hbmUncorrectable 0 false) = false ∧ Machine.reset.admits .ttlRound = true := by decide
theorem witness_AdmittedCommandsComplete_1 : Machine.reset.totalPages ≤ (0 : BitVec 48).toNat / pageBytes := by decide
theorem witness_AdmittedCommandsComplete_2 : State.reset.safe = true := by decide
theorem witness_StepsKeepTheMemoriesCanonical_0 : step State.reset = .next State.reset ∧ State.reset.m.memWf = true := ⟨rfl, by decide⟩
theorem witness_StepsKeepTheMemoriesCanonical_1 : (queued12 0 copy4).memWf = true := by decide
theorem witness_StepsKeepStrapsAndFuses_0 : step State.reset = .next State.reset := by rfl
theorem witness_IdcodeShiftsOutTheDiesOwnValue_0 : (scanning .on).onChain (0 : SiteId) (0 : IoDie) = true ∧ (scanning .on).onChain (0 : SiteId) (1 : IoDie) = true := by decide
theorem witness_CornerMonitorsShowLiveAndSticky_0 : State.reset.m.hasDie 3 = true := by decide
theorem witness_CornerMonitorsShowLiveAndSticky_1 : Machine.reset.hasDie (1 : CDie).val = true := by decide
theorem witness_CornerMonitorsShowLiveAndSticky_2 : Machine.reset.hasDie (2 : CDie).val = true := by decide
theorem witness_CornerMonitorsShowLiveAndSticky_3 : Machine.reset.hasDie (3 : CDie).val = true := by decide
theorem witness_CornerMonitorsShowLiveAndSticky_4 : Machine.reset.hasDie (0 : CDie).val = true := by decide
theorem witness_CornerMonitorsShowLiveAndSticky_5 : Machine.reset.hasDie (1 : CDie).val = true := by decide
theorem witness_CornerMonitorsShowLiveAndSticky_6 : ({ State.reset.m with fuse := { Fuse.reset with cdieMask := 7 } } : Machine).hasDie 3 = false := by decide
theorem witness_TimebaseFollowsItsParent_0 : synced.m.time.root = false ∧ synced.m.time.parentDir ≠ 6 ∧ synced.m.time.parentLost = false ∧ synced.m.time.depth ≤ 22 ∧ synced.m.time.everLocked = true ∧ -4 ≤ (4 : DWord).toInt ∧ (4 : DWord).toInt ≤ 4 := by decide
theorem witness_TimebaseFollowsItsParent_1 : child.m.time.root = false ∧ child.m.time.parentDir ≠ 6 ∧ child.m.time.parentLost = false ∧ child.m.time.depth ≤ 22 ∧ child.m.time.everLocked = false := by decide
theorem witness_TimebaseFollowsItsParent_2 : synced.m.time.root = false ∧ synced.m.time.parentDir ≠ 6 ∧ synced.m.time.parentLost = false ∧ synced.m.time.holdover = false := by decide
theorem witness_TimebaseFollowsItsParent_3 : synced.m.time.root = false ∧ synced.m.time.parentDir ≠ 6 := by decide
theorem witness_TimebaseFollowsItsParent_4 : ({ synced.m with time := { synced.m.time with holdover := true } } : Machine).time.holdover = true := by decide
theorem witness_TimebaseFollowsItsParent_5 : (1 : NodeId) ≠ parented.m.node ∧ (1 : NodeId) = parented.m.hly.reg.master ∧ parented.m.depthUnder 23 1 = some 1 := by decide +kernel
theorem witness_TimebaseFollowsItsParent_6 : standing.m.hly.reg.role = .standby := by decide
theorem witness_TimebaseFollowsItsParent_7 : (9 : NodeId) ≠ parented.m.node ∧ (9 : NodeId) ≠ parented.m.hly.reg.master ∧ (9 : NodeId) ≠ parented.m.hly.reg.standby := by decide
theorem witness_TimebaseFollowsItsParent_8 : (1 : NodeId) ≠ parented.m.node ∧ parented.m.depthUnder 4 1 = none := by decide +kernel
theorem witness_TimebaseFollowsItsParent_9 : synced.m.time.refclkOk = true ∧ synced.m.time.root = false ∧ synced.m.time.locked = true := by decide
theorem witness_TrainingAdvancesAPort_0 : ((ported .detect id).port 23).stat.state = .detect := by decide
theorem witness_TrainingAdvancesAPort_1 : ((ported .sync id).port 23).stat.state = .sync ∧ (8 : LaneMask) ≠ 0 := by decide
theorem witness_TrainingAdvancesAPort_2 : ((ported .deskew fun r => { r with train := { r.train with locked := 8 } }).port 23).train.locked &&& 8 ≠ 0 := by decide
theorem witness_TrainingAdvancesAPort_3 : let b := ts2Of (pack [(17, 4), (20, 3), (27, 3), (29, 1)]); trained.ts2Reason 23 b = none ∧ (crc32 (leBytes 12 (bits b 0 96))).toNat = bits b 96 32 ∧ bitAt b 35 = false ∧ targetGen false 3 (BitVec.ofNat 2 (bits b 27 2)) 1 (BitVec.ofNat 2 (bits b 29 2)).toNat ≠ 0 := by decide +kernel
theorem witness_TrainingAdvancesAPort_4 : let b := ts2Of (pack [(16, 1), (17, 6)]); trained.ts2Reason 23 b = some 0x06 ∧ (crc32 (leBytes 12 (bits b 0 96))).toNat = bits b 96 32 ∧ bitAt b 35 = false ∧ (trained.port 23).stat.state = .exchange := by decide +kernel
theorem witness_TrainingAdvancesAPort_5 : ((ported .equalise id).port 23).stat.state = .equalise := by decide
theorem witness_TrainingAdvancesAPort_6 : let b := verifying.ownTs2 23 1; (crc32 (leBytes 12 (bits b 0 96))).toNat = bits b 96 32 ∧ bitAt b 35 = true ∧ (15 : LaneMask) &&& (verifying.port 23).train.converged &&& BitVec.ofNat 4 (bits b 31 4) = 15 := by decide +kernel
theorem witness_FailedTrainingBacksOff_0 : ((ported .sync id).port 23).stat.state = .sync := by decide
theorem witness_FailedTrainingBacksOff_1 : ((ported .deskew id).port 23).stat.state = .deskew := by decide
theorem witness_FailedTrainingBacksOff_2 : ((ported .exchange id).port 23).stat.state = .exchange := by decide
theorem witness_FailedTrainingBacksOff_3 : [PortState.sync, .deskew, .exchange, .equalise, .verify].contains ((ported .verify id).port 23).stat.state = true := by decide
theorem witness_FailedTrainingBacksOff_4 : cableClass Pins.reset ((ported .holdoff id).port 23).stat { pins := 3, rate := none } = .inl 1 := by decide
theorem witness_FailedTrainingBacksOff_5 : cableClass { Pins.reset with site := 3 } ((ported .holdoff id).port 23).stat { pins := 0, rate := none } = .inr 7 := by decide
theorem witness_FailedTrainingBacksOff_6 : ((ported .holdoff fun r => { r with stat := { r.stat with reason := 0x10 } }).port 23).stat.reason = 0x10 ∧ (ported .holdoff id).time.refclkOk = false := by decide
theorem witness_FailedTrainingBacksOff_7 : cableClass Pins.reset ((ported .down id).port 23).stat { pins := 0, rate := none } = .inl 1 := by decide
theorem witness_RetrainAndLossTakeThePortDown_0 : ((ported .active id).port 23).stat.lanes &&& 1 ≠ 0 ∧ ((ported .active id).port 23).stat.lanes &&& ~~~1 ≠ 0 := by decide
theorem witness_RetrainAndLossTakeThePortDown_1 : ((ported .active id).port 23).stat.state = .active ∧ 1000 < 1001 := by decide
theorem witness_RetrainAndLossTakeThePortDown_2 : ((ported .retrain fun r => { r with rt := { own := some 3, leads := false } }).port 23).rt = { own := some 3, leads := false } := by decide
theorem witness_RetrainAndLossTakeThePortDown_3 : linkWordType (linkWord 4) = some 4 ∧ ((ported .active id).port 23).rt.own = none := by decide
theorem witness_RetrainAndLossTakeThePortDown_4 : linkWordType (linkWord (4 + 1 * 16)) = some 4 ∧ ((ported .retrain fun r => { r with rt := { own := some 3, leads := false } }).port 23).rt.own = some 3 := by decide
theorem witness_RetrainAndLossTakeThePortDown_5 : let r := (ported .retrain id).port 23; let good := (1 : LaneMask) &&& 15 &&& ~~~ r.train.barred; (maskOf 4 ((onePositions good).take (min (widthOf good) r.stat.width)) : LaneMask) ≠ 0 ∧ (maskOf 4 ((onePositions ((0 : LaneMask) &&& 15 &&& ~~~ r.train.barred)).take (min (widthOf ((0 : LaneMask) &&& 15 &&& ~~~ r.train.barred)) r.stat.width)) : LaneMask) = 0 := by decide
theorem witness_RetrainAndLossTakeThePortDown_6 : ((ported .retrain id).port 23).stat.state = .retrain := by decide
theorem witness_RetrainAndLossTakeThePortDown_7 : linkWordType (linkWord (5 + 11 * 16)) = some 5 := by decide
theorem witness_RetrainAndLossTakeThePortDown_8 : ((ported .active id).port 23).stat.state = .active := by decide
theorem witness_RetrainAndLossTakeThePortDown_9 : cableClass Pins.reset ((ported .active id).port 23).stat { pins := 1, rate := none } = .inl 1 := by decide
theorem witness_LinkLayerNumbersAcksAndCredits_0 : let t := trailerOf (env 0); (crc32 (frameBytes frame0 ++ leBytes 4 (bits t 0 32))).toNat = bits t 32 32 ∧ bits t 0 10 = ((ported .active id).port 23).rx.lsn ∧ (vcsOf false).contains (bits t 10 3) = true := by decide +kernel
theorem witness_LinkLayerNumbersAcksAndCredits_1 : ((ported .active id).port 23).rx.gap = false := by decide
theorem witness_LinkLayerNumbersAcksAndCredits_2 : linkWordType (linkWord (1 + 3 * 16)) = some 1 ∧ (([env 2, env 3]).any fun e => e.lsn == bits (linkWord (1 + 3 * 16)) 4 10) = true := by decide
theorem witness_LinkLayerNumbersAcksAndCredits_3 : linkWordType (linkWord (1 + 3 * 16)) = some 1 ∧ (([env 2, env 4]).any fun e => e.lsn == bits (linkWord (1 + 3 * 16)) 4 10) = false := by decide
theorem witness_LinkLayerNumbersAcksAndCredits_4 : linkWordType (linkWord (2 + 3 * 16)) = some 2 ∧ (([env 2, env 3]).any fun e => e.lsn == bits (linkWord (2 + 3 * 16)) 4 10) = true := by decide
theorem witness_LinkLayerNumbersAcksAndCredits_5 : ((ported .active fun r => { r with rx := { r.rx with gap := true } }).port 23).rx.gap = true := by decide
theorem witness_LinkLayerNumbersAcksAndCredits_6 : let m := ported .active fun r => { r with tx := { r.tx with retry := [env 0] } }; (m.port 23).tx.retry ≠ [] ∧ (m.port 23).tx.replays < 3 ∧ (m.port 23).tx.retry.head? = some (env 0) ∧ (m.port 23).tx.wireUntil < (m.ns + 1) * 1000 ∧ m.resendClear 23 (m.port 23) (env 0) = true := by decide +kernel
theorem witness_LinkLayerNumbersAcksAndCredits_7 : ((ported .active fun r => { r with tx := { r.tx with retry := [env 0], replays := 3 } }).port 23).tx.replays = 3 := by decide
theorem witness_LinkLayerNumbersAcksAndCredits_8 : linkWordType (linkWord (3 + 256 * 16)) = some 3 ∧ (256 + 4096 - 0) % 4096 ≤ poolOf false 0 := by decide
theorem witness_LinkLayerNumbersAcksAndCredits_9 : linkWordType (linkWord (3 + 257 * 16)) = some 3 ∧ poolOf false 0 < (257 + 4096 - 0) % 4096 := by decide
theorem witness_LinkLayerNumbersAcksAndCredits_10 : waitingPort.arbitrate 23 = some 0 ∧ (waitingPort.port 23).tx.retry = [] ∧ (waitingPort.port 23).tx.wireUntil < (waitingPort.ns + 1) * 1000 ∧ envelopeBytes frame0 ≤ 32768 := by decide
theorem witness_LinkLayerNumbersAcksAndCredits_11 : ((ported .active id).port 23).tx.queue = [] ∧ ((ported .active id).port 23).tx.resend = none := by decide
theorem witness_LinkLayerNumbersAcksAndCredits_12 : Machine.reset.ttl.masking = false := by decide
theorem witness_DiscoveryAndElection_0 : ((ported .active id).port 23).stat.state = .active := by decide
theorem witness_DiscoveryAndElection_1 : ((ported .retrain id).port 23).stat.state ≠ .active := by decide
theorem witness_DiscoveryAndElection_2 : ((ported .active id).port 23).stat.state = .active := by decide
theorem witness_DiscoveryAndElection_3 : tget 0 discovering.m.hly.db.seen recordOf8.node.uid.toNat ≤ recordOf8.seq ∧ recordOf8.node.uid ≠ discovering.m.fuse.uid ∧ discovering.m.hly.reg.state = .discover := by decide
theorem witness_DiscoveryAndElection_4 : recordOf8.seq < tget 0 (tset 0 [] recordOf8.node.uid.toNat 9) recordOf8.node.uid.toNat := by decide
theorem witness_DiscoveryAndElection_5 : mastered.isMaster = true ∧ mastered.hly.db.partsLost recordOf8 = false ∧ mastered.tellsNews recordOf8 = true ∧ (∀ l ∈ recordOf8.links, l.status = 0 → l.reason ≠ 0x0B) ∧ mastered.hly.repl.actions = [] ∧ mastered.hly.waiting = [] ∧ mastered.hly.work.phase = .idle ∧ mastered.isEcho recordOf8 = false ∧ recordOf8.node.uid ≠ mastered.fuse.uid := by decide
theorem witness_DiscoveryAndElection_6 : discovering.m.hly.reg.state = .discover ∧ discovering.m.joinsLate = none := by decide
theorem witness_DiscoveryAndElection_7 : (latecomer).hly.reg.state = .discover ∧ latecomer.joinsLate = some 8 := by decide
theorem witness_DiscoveryAndElection_8 : mastered.hly.reg.state ≠ .discover := by decide
theorem witness_DiscoveryAndElection_9 : electing.m.hly.reg.state = .elect ∧ (0 : NodeId) ≠ electing.m.node ∧ electing.m.choice = some 0 := by decide
theorem witness_DiscoveryAndElection_10 : (heardOf 9).hly.reg.state = .elect ∧ (1 : NodeId) ≠ (heardOf 9).node ∧ (heardOf 9).choice ≠ some 1 ∧ (heardOf 9).hly.db.announced ≠ 0xFFFF ∧ (heardOf 9).hly.db.announced ≠ 1 := by decide
theorem witness_DiscoveryAndElection_11 : outranked.m.isMaster = true ∧ outranked.m.hly.reg.state = .run ∧ outranked.m.hly.reg.master = outranked.m.node ∧ (0 : NodeId) ≠ outranked.m.node ∧ outranked.m.rankOf 0 < outranked.m.rankOf outranked.m.node := by decide
theorem witness_DiscoveryAndElection_12 : mastered.isMaster = true ∧ mastered.hly.reg.state = .run ∧ ¬ mastered.rankOf 8 < mastered.rankOf mastered.node := by decide
theorem witness_DiscoveryAndElection_13 : (standbyOf 8).isMaster = false ∧ (standbyOf 8).hly.reg.state = .run ∧ (8 : NodeId) ≠ (standbyOf 8).node ∧ (8 : NodeId) ≠ (standbyOf 8).hly.reg.master ∧ (8 : NodeId) = (standbyOf 8).hly.reg.standby := by decide
theorem witness_DiscoveryAndElection_14 : mastered.hly.reg.state = .run := by decide
theorem witness_DiscoveryAndElection_15 : treed.isMaster = false ∧ treed.hly.reg.state = .run ∧ delta1.base.toNat ≤ treed.hly.reg.topoGen.toNat ∧ treed.hly.reg.topoGen.toNat ≤ delta1.gen.toNat ∧ (∀ r ∈ [nodeOf 9].foldl (fun l r => putNode r l) treed.hly.db.nodes, r.node = delta1.master → r.admission = 0) := by decide
theorem witness_DiscoveryAndElection_16 : treed.isMaster = false ∧ treed.hly.reg.state = .run ∧ treed.hly.reg.topoGen.toNat < delta5.base.toNat ∧ treed.hly.reg.topoGen.toNat ≤ delta5.gen.toNat := by decide
theorem witness_DiscoveryAndElection_17 : mastered.isMaster = true := by decide
theorem witness_DiscoveryAndElection_18 : ∃ p < 24, (facing.port p).stat.state = .active ∧ (facing.port p).far.valid = true ∧ (facing.port p).far.node = 8 := ⟨23, by decide⟩
theorem witness_DiscoveryAndElection_19 : ∃ p < 24, (facing.port p).stat.state = .active ∧ (facing.port p).far.valid = true ∧ (facing.port p).far.node = 8 := ⟨23, by decide⟩
theorem witness_DiscoveryAndElection_20 : ([23, 5] : List Nat).contains 23 = true ∧ ((ported .active id).port 23).stat.state = .active := by decide
theorem witness_DiscoveryAndElection_21 : Machine.reset.hly.db.holdDown.contains 23 = false := by decide
theorem witness_QuorumStandbyAndAbsence_0 : mastered.isMaster = true ∧ mastered.hly.work.phase = .idle ∧ mastered.hly.repl.actions = [] ∧ mastered.hly.waiting = [] := by decide
theorem witness_QuorumStandbyAndAbsence_1 : leading2.isMaster = true ∧ (leading2.kidsUnder leading2.node).filter (· != leading2.node) ≠ [] := by decide
theorem witness_QuorumStandbyAndAbsence_2 : mastered.isMaster = true ∧ mastered.hly.reg.state = .run ∧ mastered.hly.repl.actions = [] ∧ mastered.hly.waiting = [] := by decide
theorem witness_QuorumStandbyAndAbsence_3 : treed.hly.reg.state = .run ∧ (1 : NodeId) = treed.hly.reg.master ∧ treed.isMaster = false := by decide
theorem witness_QuorumStandbyAndAbsence_4 : treed.hly.reg.state = .run ∧ treed.isMaster = false := by decide
theorem witness_QuorumStandbyAndAbsence_5 : standing.m.hly.reg.role = .standby ∧ standing.m.hly.reg.state = .run := by decide
theorem witness_QuorumStandbyAndAbsence_6 : treed.hly.reg.role ≠ .standby := by decide
theorem witness_QuorumStandbyAndAbsence_7 : leading.isMaster = true ∧ (8 : NodeId) ≠ leading.node ∧ ((leading.nodeRec 8).any fun r => r.state != 3) = true ∧ leading.cutOff 8 = true ∧ leading.hly.repl.actions = [] ∧ leading.hly.waiting = [] := by decide
theorem witness_QuorumStandbyAndAbsence_8 : joinedTo8.cutOff 8 = false := by decide
theorem witness_QuorumStandbyAndAbsence_9 : (restarting 1).hly.reg.state = .restarting ∧ (restarting 1).hly.restartTry < 2 := by decide
theorem witness_QuorumStandbyAndAbsence_10 : (restarting 2).hly.reg.state = .restarting ∧ 2 ≤ (restarting 2).hly.restartTry ∧ (restarting 2).ttl.masking = false := by decide
theorem witness_RouteEpochStages_0 : (epochAt .collecting).hly.work.phase = .collecting ∧ (epochAt .collecting).hly.work.joined = false ∧ ((epochAt .collecting).hly.work.changes.foldl (fun m c => m.applyChange c) (epochAt .collecting)).ownDuplicate = false ∧ (epochAt .collecting).hly.repl.actions = [] ∧ (epochAt .collecting).hly.waiting = [] := by decide
theorem witness_RouteEpochStages_1 : (epochAt .idle).hly.work.phase ≠ .collecting ∧ (epochAt .idle).hly.repl.actions = [] ∧ (epochAt .idle).hly.waiting = [] := by decide
theorem witness_RouteEpochStages_2 : admittedMember.isMaster = false ∧ [((0 : NodeId), prep1 0)].find? (fun e => e.1 == admittedMember.node) = some (0, prep1 0) ∧ admittedMember.hly.reg.admitted = true ∧ admittedMember.hly.reg.oldHeld = false ∧ (admittedMember.hly.reg.installed = true → (prep1 0).epoch.toNat % 2 ≠ admittedMember.hly.reg.epoch.toNat % 2) ∧ (prep1 0).gen = admittedMember.hly.reg.topoGen := by decide
theorem witness_RouteEpochStages_3 : (prep1 1).gen ≠ admittedMember.hly.reg.topoGen ∧ (prep1 1).same = false ∧ [((0 : NodeId), prep1 1)].find? (fun e => e.1 == admittedMember.node) = some (0, prep1 1) := by decide
theorem witness_RouteEpochStages_4 : mastered.isMaster = true := by decide
theorem witness_RouteEpochStages_5 : treed.isMaster = false ∧ treed.hly.reg.admitted = false ∧ (0 : NodeId) ∉ [(8 : NodeId)] := by decide
theorem witness_RouteEpochStages_6 : (epochAt .preparing).isMaster = true ∧ (epochAt .preparing).hly.work.phase = .preparing ∧ (epochAt .preparing).hly.work.epoch = 1 ∧ ∃ x ∈ (epochAt .preparing).awaited, x ≠ 0 ∧ (epochAt .preparing).hly.work.ready.contains x = false := by refine ⟨?_, ?_, ?_, 8, ?_⟩ <;> decide
theorem witness_RouteEpochStages_7 : (epochAt .preparing).hly.repl.actions = [] ∧ (epochAt .preparing).hly.waiting = [] := by decide
theorem witness_RouteEpochStages_8 : (∀ x ∈ (lastReady).awaited, x = 8 ∨ lastReady.hly.work.ready.contains x = true) ∧ lastReady.isMaster = true ∧ lastReady.hly.work.phase = .preparing ∧ lastReady.hly.work.epoch = 1 ∧ lastReady.hly.reg.standby = 0xFFFF := by refine ⟨fun x hx => ?_, by decide, by decide, by decide, by decide⟩; have h := List.all_eq_true.mp (show lastReady.awaited.all (fun x => x == 8 || lastReady.hly.work.ready.contains x) = true by decide) x hx; simpa using h
theorem witness_RouteEpochStages_9 : lastReady.hly.repl.actions = [] ∧ lastReady.hly.waiting = [] := by decide
theorem witness_RouteEpochStages_10 : (epochAt .idle).hly.work.phase ≠ .preparing := by decide
theorem witness_RouteEpochStages_11 : preparedMember.isMaster = false ∧ preparedMember.hly.reg.prepared = true ∧ (preparedMember.bank 1).prep.epoch = 1 := by decide
theorem witness_RouteEpochStages_12 : admittedMember.isMaster = false ∧ admittedMember.hly.reg.prepared = false := by decide
theorem witness_RouteEpochStages_13 : committedMember.hly.commitAt = some (1, 9) ∧ committedMember.hly.reg.prepared = true ∧ committedMember.isMaster = false := by decide
theorem witness_RouteEpochStages_14 : committedMaster.hly.commitAt = some (1, 9) ∧ committedMaster.hly.reg.prepared = true ∧ committedMaster.isMaster = true ∧ committedMaster.hly.work.after = [] ∧ committedMaster.hly.work.extraNodes = [] ∧ committedMaster.hly.repl.actions = [] ∧ committedMaster.hly.waiting = [] := by decide
theorem witness_RouteEpochStages_15 : ({ HlyReg.reset with oldHeld := true } : HlyReg).oldHeld = true := by decide
theorem witness_RouteEpochStages_16 : HlyReg.reset.oldHeld = false := by decide
theorem witness_RouteEpochStages_17 : (epochAt .preparing).isMaster = true ∧ (epochAt .preparing).awaited.contains 8 = true ∧ (epochAt .preparing).hly.work.ready.contains 8 = false ∧ (epochAt .preparing).hly.repl.actions = [] ∧ (epochAt .preparing).hly.waiting = [] := by decide
theorem witness_RouteEpochStages_18 : preparedMember.isMaster = false ∧ preparedMember.hly.reg.prepared = true ∧ committedMember.hly.commitAt = some (1, 9) := by decide
theorem witness_RouteEpochStages_19 : (epochAt .idle).isMaster = true ∧ (epochAt .idle).hly.work.phase = .idle ∧ (epochAt .idle).hly.repl.actions = [] ∧ (epochAt .idle).hly.waiting = [] := by decide
theorem witness_RouteEpochStages_20 : (epochAt .guarded).isMaster = true ∧ (epochAt .guarded).hly.work.phase = .guarded ∧ (8 : NodeId) ∈ (epochAt .guarded).awaited ∧ (8 : NodeId) ∈ (epochAt .guarded).treeKids ∧ (epochAt .guarded).hly.reg.master = (epochAt .guarded).node ∧ (epochAt .guarded).hly.repl.actions = [] ∧ (epochAt .guarded).hly.waiting = [] := by decide
theorem witness_RouteEpochStages_21 : extraOutside.isMaster = true ∧ extraOutside.hly.work.phase = .committed ∧ extraOutside.hly.work.extraNodes ≠ [] ∧ extraOutside.hly.work.extraNodes.contains extraOutside.node = false := by decide
theorem witness_HalyardCommandsAtTheMaster_0 : sole.soleMaster = true ∧ (argRec ((List.replicate 13 0) ++ [1])).arg 13 ≠ 0 := by decide
theorem witness_HalyardCommandsAtTheMaster_1 : sole.soleMaster = true ∧ (argRec [0x00010000]).only [npMask] = true ∧ sole.linkOf ((argRec [0x00010000]).np 0) = some (linkOf 0 1 8) := by decide
theorem witness_HalyardCommandsAtTheMaster_2 : sole.fullAuthority = true ∧ (argRec [0x00010008]).only [npMask] = true ∧ sole.linkOf ((argRec [0x00010008]).np 0) = some (linkOf 8 1 0) ∧ ((argRec [0x00010008]).np 0).1 ≠ sole.node := by decide
theorem witness_HalyardCommandsAtTheMaster_3 : sole.soleMaster = true ∧ sole.fullAuthority = true ∧ (argRec [0x10000]).only [npMask] = true ∧ sole.linkOf ((argRec [0x10000]).np 0) = some (linkOf 0 1 8) := by decide
theorem witness_HalyardCommandsAtTheMaster_4 : sole.soleMaster = true ∧ (argRec [0x10008]).only [npMask] = true ∧ sole.linkOf ((argRec [0x10008]).np 0) = some (linkOf 8 1 0) ∧ ((argRec [0x10008]).np 0).1 ≠ sole.node := by decide
theorem witness_HalyardCommandsAtTheMaster_5 : ((ported .active id).port 23).stat.assigned = true := by decide
theorem witness_HalyardCommandsAtTheMaster_6 : ((ported .down id).port 23).stat.assigned = true ∧ cableClass Pins.reset ((ported .down id).port 23).stat { pins := 0, rate := none } = .inl 1 := by decide
theorem witness_HalyardCommandsAtTheMaster_7 : ((ported .active id).port 23).stat.state = .active ∧ cableClass (ported .active id).pins ((ported .active id).port 23).stat { pins := 1, rate := some true } = .inl 1 := by decide
theorem witness_HalyardCommandsAtTheMaster_8 : ((ported .active id).port 23).stat.state = .active := by decide
theorem witness_HalyardCommandsAtTheMaster_9 : sole.known 8 = true ∧ sole.pins.form = false ∧ sole.fullAuthority = true ∧ (sole.candidates.any fun r => r.node == 8) = true ∧ (8 : NodeId) ≠ sole.node ∧ BitVec.ofNat 16 (bits ((argRec [8]).arg 0) 0 16) = (8 : NodeId) ∧ (argRec [8]).only [0xFFFF] = true := by decide
theorem witness_HalyardCommandsAtTheMaster_10 : treed.isMaster = false ∧ (1 : NodeId) = treed.hly.reg.master ∧ (1 : NodeId) ≠ treed.node ∧ treed.hly.reg.state = .run := by decide
theorem witness_HalyardCommandsAtTheMaster_11 : sole.isMaster = true ∧ sole.hly.repl.actions = [] ∧ sole.hly.waiting = [] := by decide
theorem witness_HalyardCommandsAtTheMaster_12 : sole.soleMaster = true ∧ (argRec []).only [] = true := by decide
theorem witness_HalyardCommandsAtTheMaster_13 : sole.soleMaster = true ∧ (argRec [8]).only [0xFFFF] = true ∧ sole.known (BitVec.ofNat 16 (bits ((argRec [8]).arg 0) 0 16)) = true := by decide
theorem witness_HalyardCommandsAtTheMaster_14 : ∃ r, drained.nodeRec 8 = some r ∧ r.state = 2 ∧ drained.soleMaster = true ∧ drained.fullAuthority = true := ⟨{ nodeOf 8 with state := 2 }, by decide⟩
theorem witness_OwnCommandsAndTheirResults_0 : sole.isMaster = true ∧ (argRec [8, 0, 4096]).only [wordMask, wordMask, wordMask] = true ∧ aligned8 ((argRec [8, 0, 4096]).addr 0) = true := by decide
theorem witness_OwnCommandsAndTheirResults_1 : sole.isMaster = true := by decide
theorem witness_OwnCommandsAndTheirResults_2 : rigBox.boxOpen = true ∧ rigBox.boxArgs.only [0xFFFF, wordMask] = true ∧ rigListed (bits (rigBox.boxArgs.arg 0) 0 16) = true ∧ rigRuntime (bits (rigBox.boxArgs.arg 0) 0 16) = true ∧ bits (rigBox.boxArgs.arg 0) 0 16 ≠ 6 ∧ bits (rigBox.boxArgs.arg 0) 0 16 ≠ 12 ∧ rigBox.rigInRange (bits (rigBox.boxArgs.arg 0) 0 16) (rigBox.boxArgs.arg 1).toNat = true := by decide
theorem witness_OwnCommandsAndTheirResults_3 : (capBox 100).boxOpen = true ∧ (capBox 100).boxArgs.only [0xFFFF, wordMask] = true ∧ bits ((capBox 100).boxArgs.arg 0) 0 16 = 6 ∧ rigListed 6 = true ∧ rigRuntime 6 = true := by decide
theorem witness_OwnCommandsAndTheirResults_4 : (readBox 5).boxOpen = true ∧ (readBox 5).boxArgs.only [0xFFFF] = true ∧ rigListed (bits ((readBox 5).boxArgs.arg 0) 0 16) = true ∧ bits ((readBox 5).boxArgs.arg 0) 0 16 ≠ 12 := by decide
theorem witness_OwnCommandsAndTheirResults_5 : doneBox.hly.finished = [{ cmd := Machine.reset.boxRec 0x0C 1, status := 0, res := [1], data := [] }] ∧ (Machine.reset.boxRec 0x0C 1).src = .mailbox := by decide
theorem witness_OwnCommandsAndTheirResults_6 : waitingBox.hly.boxCmd = some (Machine.reset.boxRec 0x02 1) ∧ waitingBox.isMaster = false ∧ waitingBox.hly.finished = [] := by decide
theorem witness_OwnCommandsAndTheirResults_7 : Machine.reset.hly.boxCmd = none := by decide
theorem witness_PlannerRunsItsJobs_0 : (queued [jobOf .place, jobOf .replan]).tkp.job = none ∧ (queued [jobOf .place, jobOf .replan]).tkp.next = some (jobOf .replan, [jobOf .place]) := by decide
theorem witness_PlannerRunsItsJobs_1 : (searching (jobOf .place) [jobOf .replan]).tkp.job = some (jobOf .place) ∧ (searching (jobOf .place) [jobOf .replan]).tkp.replanWaits = true ∧ (jobOf .place).kind ≠ .replan := by decide
theorem witness_PlannerRunsItsJobs_2 : (badDryrun.req.demands.any (·.malformed)) = true ∧ badDryrun.kind = .dryrun ∧ (queued [badDryrun]).hly.repl.actions = [] ∧ (queued [badDryrun]).hly.waiting = [] := by decide
theorem witness_PlannerRunsItsJobs_3 : Machine.reset.tkp.job = none ∧ Machine.reset.tkp.queue = [] := by decide
theorem witness_PlannerRunsItsJobs_4 : (searching { jobOf .place with roundsLeft := 2, burn := 2 } []).tkp.job = some { jobOf .place with roundsLeft := 2, burn := 2 } := by decide
theorem witness_PlannerRunsItsJobs_5 : (searching (jobOf .dryrun) []).tkp.job = some (jobOf .dryrun) ∧ (jobOf .dryrun).kind = .dryrun ∧ (jobOf .dryrun).best = none ∧ (searching (jobOf .dryrun) []).hly.repl.actions = [] ∧ (searching (jobOf .dryrun) []).hly.waiting = [] := by decide
theorem witness_PlannerCommandsAtTheMaster_0 : sole.soleMaster = true ∧ (argRec [0, 0, 0, 0, 0, 0, 0, 0, 0, 0, 0, 0, 0, 1]).arg 13 ≠ 0 := by decide
theorem witness_PlannerCommandsAtTheMaster_1 : let c : HlyCmdRec := { argRec [0, 0, 1] with data := request1 }; c.only [wordMask, wordMask, wordMask, 0x107FF] = true ∧ aligned8 (c.addr 0) = true ∧ sole.badHint c = false ∧ ((sole.readRequest 0 (dryrunRecord c)).map fun r => r.demands.length) = some 1 ∧ leAt request1 32 2 = 0 := by decide
theorem witness_PlannerCommandsAtTheMaster_2 : let c := argRec [1, 0, 0, 64]; c.only [0xFFF, wordMask, wordMask, wordMask] = true ∧ aligned8 (c.addr 1) = true ∧ bits (c.arg 0) 0 12 ≠ 0 := by decide
theorem witness_PlannerCommandsAtTheMaster_3 : let c := argRec [0x00010000, 0, 0]; c.only [npMask, wordMask, wordMask] = true ∧ aligned8 (c.addr 1) = true ∧ sole.linkOf (c.np 0) = some (linkOf 0 1 8) := by decide
theorem witness_PlannerCommandsAtTheMaster_4 : let c := argRec [0x00010000, 7]; sole.fullAuthority = true ∧ c.only [npMask, 0x7FFF] = true ∧ sole.linkOf (c.np 0) = some (linkOf 0 1 8) := by decide
theorem witness_PlannerCommandsAtTheMaster_5 : (argRec [64]).only [0xFF] = true ∧ bits ((argRec [64]).arg 0) 0 8 = 64 := by decide
theorem witness_PlannerCommandsAtTheMaster_6 : (argRec [50, 1]).only [0x1FFF, 0x1FF] = true := by decide
theorem witness_PlannerCommandsAtTheMaster_7 : (argRec [50]).only [0x1FFF] = true ∧ bits ((argRec [50]).arg 0) 0 13 = 50 := by decide
theorem witness_PlannerCommandsAtTheMaster_8 : (argRec [0]).only [0x7F] = true ∧ 0 % 4 * 4 < sole.dims.1 ∧ 0 / 4 % 4 * 4 < sole.dims.2.1 := by decide
theorem witness_SliceCommandsAtTheMaster_0 : sole.soleMaster = true ∧ (argRec ((List.replicate 13 0) ++ [1])).arg 13 ≠ 0 := by decide
theorem witness_SliceCommandsAtTheMaster_1 : sole.soleMaster = true ∧ sole.fullAuthority = true ∧ sole.allocTag = some 1 ∧ (sole.readRequest 0 request1).isSome = true ∧ (sole.readRequest 1 request1).isSome = true ∧ (argRec [8, 0, 64]).only [wordMask, wordMask, wordMask] = true := by decide +kernel
theorem witness_SliceCommandsAtTheMaster_2 : (argRec [1]).only [0xFFF] = true ∧ ((sliced .active).sliceAt 1).state = .active ∧ (sliced .active).soleMaster = true ∧ (sliced .placing).sliceAt 1 = { SliceRec.reset with state := .placing, ext := (1, 1, 1), k := 1 } ∧ (sole.sliceAt 1).state = .free := by decide
theorem witness_SliceCommandsAtTheMaster_3 : (argRec [1, 8, 0]).only [0xFFF, wordMask, wordMask] = true ∧ aligned8 ((argRec [1, 8, 0]).addr 1) = true := by decide
theorem witness_SliceCommandsAtTheMaster_4 : (argRec [8, 0, 64]).only [wordMask, wordMask, wordMask] = true ∧ aligned8 ((argRec [8, 0, 64]).addr 0) = true := by decide
theorem witness_SliceCommandsAtTheMaster_5 : (argRec [0, 4]).only [0xFFFF, 0xF] = true ∧ sole.known 0 = true ∧ [1, 2, 4, 8].contains (bits ((argRec [0, 4]).arg 1) 0 4) = true ∧ sole.noneInUse = true := by decide
theorem witness_SliceCommandsAtTheMaster_6 : (argRec [1, 1, 5]).only [0xFFF, 0xF, 0xFFF] = true ∧ peering.soleMaster = true ∧ peering.fullAuthority = true ∧ peering.pins.form = false ∧ (peering.sliceAt 1).state = .active ∧ 1 ≠ nodePod peering.node ∧ ∃ l ∈ peering.hly.db.links, l.flags / 8 % 2 = 1 ∧ l.status ≠ 0 ∧ l.farNode ≠ 0xFFFF ∧ nodePod l.farNode = 1 := by decide
theorem witness_SliceCommandsAtTheMaster_7 : (argRec [1, 8, 0, 64]).only [0xFFF, wordMask, wordMask, wordMask] = true ∧ ((sliced .active).readRequest 1 request1).isSome = true ∧ aligned8 ((argRec [1, 8, 0, 64]).addr 1) = true := by decide
theorem witness_SliceCommandsAtTheMaster_8 : Machine.reset.noneInUse = true ∧ (imaged id).noneInUse = false := by decide
theorem witness_SliceCommandsAtTheMaster_9 : (∀ i < 8, (Machine.reset.partAt i).tag ≠ 5) ∧ (Machine.reset.partAt 0).state = .free ∧ Machine.reset.noneInUse = true := by decide
theorem witness_SlicesAtTheirMembers_0 : (ringAt 0).part.evq.size ≠ 0 ∧ ringFull (ringAt 0).part.evq.size (ringAt 0).part.evq.head (ringAt 0).part.evq.tail 0 = false ∧ eventBit 2 = some 1 := by decide
theorem witness_SlicesAtTheirMembers_1 : (ringAt 7).part.evq.size ≠ 0 ∧ ringFull (ringAt 7).part.evq.size (ringAt 7).part.evq.head (ringAt 7).part.evq.tail 0 = true := by decide
theorem witness_SlicesAtTheirMembers_2 : (owning .bound).partOf 5 = some 0 ∧ ((owning .bound).ctxAt 3).base.life = .live ∧ ((owning .bound).partAt 0).state ≠ .scrubbing := by decide
theorem witness_SlicesAtTheirMembers_3 : (owning .bound).partOf 5 = some 0 := by decide
theorem witness_SlicesAtTheirMembers_4 : (sliced .destroying).isMaster = true ∧ (sliced .destroying).hly.reg.standby = 0xFFFF ∧ (sliced .destroying).hly.repl.actions = [] ∧ (sliced .destroying).hly.waiting = [] ∧ ((sliced .destroying).sliceAt 1).state = .destroying ∧ ∀ x ∈ (sliced .destroying).sliceMembers 1, (sliced .destroying).reachable x = true → x = 0 ∨ ((sliced .destroying).sliceAt 1).finals.contains x = true := by refine ⟨by decide, by decide, by decide, by decide, by decide, fun x hx hp => ?_⟩; have h := List.all_eq_true.mp (show ((sliced .destroying).sliceMembers 1).all (fun x => !((sliced .destroying).reachable x) || x == 0 || ((sliced .destroying).sliceAt 1).finals.contains x) = true by decide +kernel) x hx; simpa [hp] using h
theorem witness_SlicesAtTheirMembers_5 : (sliced .releasing).isMaster = true ∧ (sliced .releasing).hly.repl.actions = [] ∧ (sliced .releasing).hly.waiting = [] ∧ (8 : NodeId) ≠ (sliced .releasing).node ∧ ((sliced .releasing).sliceAt 1).state = .releasing := by decide
theorem witness_SlicesAtTheirMembers_6 : (owning .draining).isMaster = false ∧ (owning .draining).partOf 5 = some 0 ∧ ((owning .draining).partAt 0).state = .draining := by decide
theorem witness_SlicesAtTheirMembers_7 : (sliced .releasing).isMaster = true ∧ (sliced .releasing).hly.repl.actions = [] ∧ (sliced .releasing).hly.waiting = [] ∧ (sliced .releasing).stillBound 1 0 = true ∧ ((sliced .releasing).sliceAt 1).state = .releasing := by decide
theorem witness_SlicesAtTheirMembers_8 : ((owning .scrubbing).partAt 0).state = .scrubbing ∧ ((owning .scrubbing).partAt 0).keep = false := by decide
theorem witness_SlicesAtTheirMembers_9 : ({ PartRec.reset with state := .scrubbing, keep := true } : PartRec).keep = true := by decide
theorem witness_SlicesAtTheirMembers_10 : ((owning .scrubbing).partAt (0 : PartId)).state = .scrubbing := by decide
theorem witness_SlicesAtTheirMembers_11 : (Machine.reset.partAt 0).state ≠ .scrubbing := by decide
theorem witness_ContextsAndTheirMeters_0 : (creating 0).ctxPending 1 = true ∧ (creating 0).ctxCmd.part < (creating 0).parts ∧ ((creating 0).partAt 0).state = .bound ∧ ((creating 0).partAt 0).live = true ∧ (((creating 0).ctxRange 0).find? fun c => ((creating 0).ctxAt c).base.life == .free) = some 0 ∧ (((creating 0).ctxRange 0).filter fun c => ((creating 0).ctxAt c).base.life == .live || ((creating 0).ctxAt c).base.life == .ending).length < ((creating 0).partAt 0).ctxMax := by decide
theorem witness_ContextsAndTheirMeters_1 : (creating 7).ctxPending 1 = true ∧ (creating 7).parts ≤ (creating 7).ctxCmd.part := by decide
theorem witness_ContextsAndTheirMeters_2 : (operating 2 .live).ctxPending 2 = true ∧ (operating 2 .live).ctxCmd.ctx = (3 : CtxId).val ∧ (operating 2 .live).ctxCmd.started = false ∧ ((operating 2 .live).ctxAt 3).base.life = .live ∧ (operating 2 .live).fenceDue (.context 3) = true := by decide
theorem witness_ContextsAndTheirMeters_3 : ({ CtxCmd.reset with started := true } : CtxCmd).started = true := by decide
theorem witness_ContextsAndTheirMeters_4 : (ending.ctxAt 3).base.life = .ending ∧ (ending.luff.fences.any fun f => f.destroy && f.drained && f.dom == .context 3) = true := by decide
theorem witness_ContextsAndTheirMeters_5 : (operating 3 .final).ctxPending 3 = true ∧ ((operating 3 .final).ctxAt 3).base.life = .final := by decide
theorem witness_ContextsAndTheirMeters_6 : (operating 3 .live).ctxPending 3 = true ∧ ((operating 3 .live).ctxAt 3).base.life ≠ .final := by decide
theorem witness_ContextsAndTheirMeters_7 : Machine.reset.ctxCmd.busy = false := by decide
theorem witness_ContextsAndTheirMeters_8 : (tkeys (operating 3 .live).ctx).Nodup ∧ ((operating 3 .live).ctxAt 3).base.life = .live := by decide
theorem witness_ContextsAndTheirMeters_9 : (metered.ctxAt (3 : CtxId)).base.life ≠ .free := by decide
theorem witness_ContextsAndTheirMeters_10 : Machine.reset.ctx = [] := by decide
theorem witness_ContextsAndTheirMeters_11 : metered.ctx = [(3, meteredCtx)] ∧ meteredCtx.base.life = .live ∧ meteredCtx.base.hbmMark < meteredCtx.base.meters.hbm := by decide
theorem witness_FramesAreCheckedRoutedAndDelivered_0 : (Machine.reset.fwdAt 0).rx = [] := by decide
theorem witness_FramesAreCheckedRoutedAndDelivered_1 : malformed { frame0 with payload := [1] } = true ∧ ((arrived [waiting0 0 { frame0 with payload := [1] }]).fwdAt 0).rx = [waiting0 0 { frame0 with payload := [1] }] := by decide
theorem witness_FramesAreCheckedRoutedAndDelivered_2 : let m := arrived [waiting0 0 mgmt0]; m.checked (waiting0 0 mgmt0) = true ∧ frTag mgmt0 = 0 ∧ frDst mgmt0 = m.node ∧ (m.nodeEntry (m.bank (frEpoch mgmt0)) 0 m.node).valid = true ∧ (m.nodeEntry (m.bank (frEpoch mgmt0)) 0 m.node).priDir = 6 := by decide +kernel
theorem witness_FramesAreCheckedRoutedAndDelivered_3 : let m := routing; let rx := waiting0 3 toX; let e := m.nodeEntry (m.bank (frEpoch toX)) 0 (frDst toX); m.checked rx = true ∧ frDst toX ≠ m.node ∧ e.valid = true ∧ e.priDir ≠ 6 ∧ ∃ pos < 6, ∃ p < 24, pickPosition (m.activePositions 0 e.priDir e.priMask) (frSrc toX) (frStream toX) = some pos ∧ m.portIn 0 e.priDir pos = some p := by decide +kernel
theorem witness_FramesAreCheckedRoutedAndDelivered_4 : (((routing.fwdAt 0).rx ++ (routing.fwdAt 0).detq ++ (routing.fwdAt 0).waiting).all fun x => x.port.all fun p => dieOfPort p == 0) = true := by decide
theorem witness_FramesAreCheckedRoutedAndDelivered_5 : let m := detouring; let rx := waiting0 3 toX; let e := m.nodeEntry (m.bank (frEpoch toX)) 0 (frDst toX); m.checked rx = true ∧ frDst toX ≠ m.node ∧ e.valid = true ∧ e.priDir ≠ 6 ∧ e.detDir ≠ 6 ∧ ∃ pos < 6, ∃ p < 24, pickPosition (m.activePositions 0 e.detDir e.detMask) (frSrc toX) (frStream toX) = some pos ∧ m.portIn 0 e.detDir pos = some p := by decide +kernel
theorem witness_RemoteRequestsRepliesAndMessages_0 : ((requested 1).takeInbox 0 fun f => frType f == 5).isSome = true ∧ ({ requested 1 with luff := ending.luff, ctx := ending.ctx, strm := { Strm.reset with entries := [(5, { msgStream with ctx := 3 })] } } : Machine).fencedSince 3 9 = true := by decide
theorem witness_RemoteRequestsRepliesAndMessages_1 : ((requested 1).takeInbox 0 fun f => frType f == 5).isSome = true ∧ ((requested 1).reqBody (reqFrame 1)).any (fun b => reqFits 1 false b && decide (b.offset + b.lenOp ≤ 4096)) = true ∧ (requested 1).fromFar (reqFrame 1) = false ∧ (requested 1).strmAt (frStream (reqFrame 1)) = msgStream ∧ (requested 1).fencedSince 0 0 = false ∧ (requested 1).ownsRange 0 0 1 = true := by decide
theorem witness_RemoteRequestsRepliesAndMessages_2 : ((requested 4).reqBody (reqFrame 4)).any (fun b => reqFits 4 false b) = true ∧ frOpx (reqFrame 4) = 4 := by decide
theorem witness_RemoteRequestsRepliesAndMessages_3 : (({ requested 1 with strm := .reset } : Machine).takeInbox 0 fun f => frType f == 5).isSome = true ∧ ((requested 1).reqBody (reqFrame 1)).isSome = true ∧ (({ requested 1 with strm := .reset } : Machine).strmAt 5).state = .closed := by decide
theorem witness_RemoteRequestsRepliesAndMessages_4 : ((replying).takeInbox 0 fun f => frType f == 6).isSome = true ∧ (tget none replying.txn (frTxn repFrame)).isSome = true := by decide
theorem witness_RemoteRequestsRepliesAndMessages_5 : (({ replying with txn := [] } : Machine).takeInbox 0 fun f => frType f == 6).isSome = true ∧ tget none ([] : Table (Option TxnRec)) (frTxn repFrame) = none := by decide
theorem witness_RemoteRequestsRepliesAndMessages_6 : (tget none replying.txn (3 : BitVec 11).toNat).isSome = true := by decide
theorem witness_RemoteRequestsRepliesAndMessages_7 : tget none Machine.reset.txn (3 : BitVec 11).toNat = none := by decide
theorem witness_RemoteRequestsRepliesAndMessages_8 : ((messaged 16).takeInbox 0 fun f => frType f == 4).isSome = true ∧ (messaged 16).strmAt (frStream msgFrame) = { msgStream with ring := 16 } ∧ (0 + 8192 - 0) % 8192 < 16 ∧ msgFrame.payload.length ≤ 256 ∧ (messaged 16).ownsRange 0 0 512 = true := by decide
theorem witness_RemoteRequestsRepliesAndMessages_9 : ((messaged 0).takeInbox 0 fun f => frType f == 4).isSome = true ∧ ((messaged 0).strmAt (frStream msgFrame)).ring = 0 := by decide
theorem witness_RemoteRequestsRepliesAndMessages_10 : ((collecting).takeInbox 0 fun f => frType f == 3).isSome = true ∧ collecting.boundFor collFrame0 kindColl = true ∧ collecting.collOf (frStream collFrame0) = some (0, coll0) ∧ isRing coll0.op = false ∧ coll0.lone = false ∧ coll0.supplied < coll0.operand := by decide
theorem witness_RemoteRequestsRepliesAndMessages_11 : ({ collecting with strm := .reset } : Machine).boundFor collFrame0 kindColl = false := by decide
theorem witness_PlannedFlowsAreReportedAbortedAndResumed_0 : (sliced .active).isMaster = true ∧ (sliced .active).hly.aborts = [] ∧ tget (0 : DWord) (sliced .active).hly.lateFlood 1 = 0 ∧ ((sliced .active).sliceAt 1).state = .active := by decide
theorem witness_PlannedFlowsAreReportedAbortedAndResumed_1 : treed.isMaster = false := by decide
theorem witness_PlannedFlowsAreReportedAbortedAndResumed_2 : afar.isMaster = true ∧ afar.hly.aborts = [] ∧ (afar.sliceAt 1).state = .active ∧ afar.hly.reg.standby = 0xFFFF ∧ afar.hly.repl.actions = [] ∧ afar.hly.waiting = [] := by decide
theorem witness_PlannedFlowsAreReportedAbortedAndResumed_3 : ((streaming .open_).strmAt 5).state = .open_ ∧ ((streaming .open_).ctxAt ((streaming .open_).strmAt 5).ctx).base.tag = 5 ∧ ((streaming .open_).xc ((streaming .open_).strmAt 5).ctx).image = none := by decide
theorem witness_PlannedFlowsAreReportedAbortedAndResumed_4 : (stalling.strmAt 5).state = .bound ∧ (stalling.ctxAt 3).base.tag = 5 ∧ (stalling.xc 3).image = some bound1 ∧ (stalling.xc 3).run = none := by decide
theorem witness_PlannedFlowsAreReportedAbortedAndResumed_5 : (aborting 0).hly.aborts = [abort0 0] ∧ (abort0 0).acked.contains 8 = false ∧ (abort0 0).stage = 0 := by decide
theorem witness_PlannedFlowsAreReportedAbortedAndResumed_6 : (aborting 0).hly.aborts = [abort0 0] ∧ (abort0 0).tag = 1 ∧ (abort0 0).stream = 5 := by decide
theorem witness_PlannedFlowsAreReportedAbortedAndResumed_7 : (aborting 1).hly.aborts = [abort0 1] ∧ (abort0 1).stage = 1 := by decide
theorem witness_PlannedFlowsAreReportedAbortedAndResumed_8 : ((streaming .held).ctxAt ((streaming .held).strmAt 5).ctx).base.tag = 5 ∧ ((streaming .held).strmAt 5).state = .held := by decide
theorem witness_PlannedFlowsAreReportedAbortedAndResumed_9 : (Machine.reset.strmAt 5).state ≠ .held := by decide
theorem witness_ComputeInstructionsOfATile_0 : ∀ op, Machine.reset.issueWord 0 op = none := fun _ => rfl
theorem witness_ComputeInstructionsOfATile_1 : ((tiled 0x01 id).issueWord 0 0x01).isSome = true ∧ formatOf 0 = some .fp32 := by decide
theorem witness_ComputeInstructionsOfATile_2 : ((tiled 0x02 id).issueWord 0 0x02).isSome = true ∧ bitAt ((tiled 0x02 id).tileAt 0).accInt 0 = false ∧ 0 * 256 + 16384 ≤ storeBytes := by decide
theorem witness_ComputeInstructionsOfATile_3 : ((tiled 0x03 id).issueWord 0 0x03).isSome = true := by decide
theorem witness_ComputeInstructionsOfATile_4 : ((tiled 0x04 id).issueWord 0 0x04).isSome = true := by decide
theorem witness_ComputeInstructionsOfATile_5 : ((tiled 0x05 id).issueWord 0 0x05).isSome = true := by decide
theorem witness_ComputeInstructionsOfATile_6 : ((tiled 0x06 id).issueWord 0 0x06).isSome = true ∧ formatOf 8 = some .int32 := by decide
theorem witness_TransfersWaitsAndControlOfATile_0 : ((tiled (0x07 + 1 * 2 ^ 66) id).issueWord 0 0x07).any (fun p => (tiled (0x07 + 1 * 2 ^ 66) id).lineOk p.1 (lineOffset p.1 p.2 0) && p.2.n == 1) = true := by decide
theorem witness_TransfersWaitsAndControlOfATile_1 : ((tiled (0x08 + 1 * 2 ^ 66) id).issueWord 0 0x08).any (fun p => (tiled (0x08 + 1 * 2 ^ 66) id).lineOk p.1 (lineOffset p.1 p.2 0) && p.2.n == 1) = true := by decide
theorem witness_TransfersWaitsAndControlOfATile_2 : ((tiled (0x07 + 1 * 2 ^ 66 + 16 * 2 ^ 92) id).issueWord 0 0x07).any (fun p => !(tiled (0x07 + 1 * 2 ^ 66 + 16 * 2 ^ 92) id).lineOk p.1 (lineOffset p.1 p.2 0)) = true := by decide
theorem witness_TransfersWaitsAndControlOfATile_3 : ((tiled (0x09 + 1 * 2 ^ 66) id).issueWord 0 0x09).any (fun p => p.2.n == 1 && decide (0 + p.2.n ≤ p.1.count p.2.ch)) = true := by decide
theorem witness_TransfersWaitsAndControlOfATile_4 : ((tiled (0x09 + 3 * 2 ^ 66) id).issueWord 0 0x09).any (fun p => decide (p.1.count p.2.ch < 0 + p.2.n)) = true := by decide
theorem witness_TransfersWaitsAndControlOfATile_5 : ((tiled (0x0A + 1 * 2 ^ 66) id).issueWord 0 0x0A).any (fun p => decide (0 + p.2.n ≤ p.1.count p.2.ch)) = true := by decide
theorem witness_TransfersWaitsAndControlOfATile_6 : ((tiled (0x0A + 3 * 2 ^ 66) id).issueWord 0 0x0A).any (fun p => decide (p.1.count p.2.ch < 0 + p.2.n)) = true := by decide
theorem witness_TransfersWaitsAndControlOfATile_7 : ((tiled (0x0B + 1 * 2 ^ 92) id).issueWord 0 0x0B).any (fun p => p.2.mask == 1) = true ∧ (tiled 0x0B id).imageTiles 3 = [0] ∧ ((tiled 0x0B id).tileAt 0).tokens = [] := by decide
theorem witness_TransfersWaitsAndControlOfATile_8 : ((tiled (0x0C + 2 * 2 ^ 66 + 1 * 2 ^ 92) id).issueWord 0 0x0C).any (fun p => p.2.body == 1) = true := by decide
theorem witness_TransfersWaitsAndControlOfATile_9 : ((tiled 0x0D id).issueWord 0 0x0D).isSome = true ∧ (tiled 0x0D id).imageTiles 3 = [0] := by decide
theorem witness_TransfersWaitsAndControlOfATile_10 : ((fetching).activeTile 0).isSome = true ∧ (fetching.tileAt 0).lines[0]? = some { write := false, n := 0, addr := 0, line := 4 } ∧ fetching.imageTiles 3 = [0] ∧ fetching.owns 3 0 = true := by decide
theorem witness_TransfersWaitsAndControlOfATile_11 : (losing.activeTile 0).isSome = true ∧ (losing.tileAt 0).lines[0]? = some { write := false, n := 0, addr := pageBytes, line := 4 } ∧ losing.owns 3 1 = false := by decide
theorem witness_TransfersWaitsAndControlOfATile_12 : ((tiled 0x0D fun t => { t with lines := [line0, line4] }).activeTile 0).isSome = true ∧ line0.n + image1.hbmLim = line4.n := by decide
theorem witness_TransfersWaitsAndControlOfATile_13 : (acking.xc 3).image = some bound1 ∧ (acking.xc 3).run = some (run1 true) ∧ (bound1.chan? 0).isSome = true ∧ ((acking.tileAt 0).tokens.find? fun k => k.ch == 0 && k.offered).isSome = true := by decide
theorem witness_TransfersWaitsAndControlOfATile_14 : (ackingLate.xc 3).image = some bound1 ∧ (ackingLate.xc 3).detected ≠ none ∧ ((ackingLate.tileAt 0).tokens.find? fun k => k.ch == 0 && k.offered).isSome = true := by decide
theorem witness_TransfersWaitsAndControlOfATile_15 : (mapped.mapAt 0).valid = true := by decide
theorem witness_TransfersWaitsAndControlOfATile_16 : (mapped.mapAt 0).valid = true := by decide
theorem witness_TransfersWaitsAndControlOfATile_17 : (Machine.reset.mapAt 0).valid = false := by decide
theorem witness_TransfersWaitsAndControlOfATile_18 : mapped.retirable 0 = true ∧ firstBelow 36 (fun p => p != (mapped.mapAt 0).phys && (mapped.physAt 0 p).use == .spare) = some 33 := by decide
theorem witness_TransfersWaitsAndControlOfATile_19 : (spareless.retirable 0 = true ∧ ∀ p < 36, p ≠ (spareless.mapAt 0).phys → (spareless.physAt 0 p).use ≠ .spare) := by decide
theorem witness_TransfersWaitsAndControlOfATile_20 : (mapped.tileAt 0).toRetire = true := by decide
theorem witness_TransfersWaitsAndControlOfATile_21 : Machine.reset.retirable 0 = false := by decide
theorem witness_BindUnbindAndRestartOfAnImage_0 : ((loadable.xc 3).busy = true ∧ (loadable.xc 3).op = 1 ∧ loadable.opTurn (.image 3) = true ∧ (loadable.bindCheck 3).1 = 0 ∧ (loadable.bindCheck 3).2.isSome = true) := by decide +kernel
theorem witness_BindUnbindAndRestartOfAnImage_1 : ((imaged fun x => { x with busy := true, op := 1 }).xc 3).busy = true ∧ (imaged fun x => { x with busy := true, op := 1 }).bindCheck 3 = (4, none) := by decide
theorem witness_BindUnbindAndRestartOfAnImage_2 : (unlive 2).fenced 3 = true ∧ ((unlive 2).xc 3).busy = true ∧ ((unlive 2).xc 3).op = 2 ∧ (unlive 2).opTurn (.image 3) = true ∧ ((unlive 3).xc 3).op = 3 := by decide
theorem witness_BindUnbindAndRestartOfAnImage_3 : ((imaged fun x => { x with image := none, busy := true, op := 3 }).xc 3).image = none ∧ (imaged id).fenced 3 = false ∧ ((imaged id).partAt ((imaged id).ctxPart 3)).state = .bound ∧ ((imaged id).ctxAt 3).base.life = .live := by decide
theorem witness_BindUnbindAndRestartOfAnImage_4 : ((imaged fun x => { x with busy := true, op := 2 }).xc 3).run = none ∧ ((imaged fun x => { x with busy := true, op := 2 }).xc 3).image.isSome = true := by decide
theorem witness_BindUnbindAndRestartOfAnImage_5 : ((imaged fun x => { x with busy := true, op := 2, run := some (run1 true) }).xc 3).run = some (run1 true) := by decide
theorem witness_BindUnbindAndRestartOfAnImage_6 : ((restarting3 true .ready).xc 3).state = .ready ∧ ((restarting3 true .ready).xc 3).image = some bound1 ∧ ∀ l ∈ (restarting3 true .ready).imageTiles 3, ((restarting3 true .ready).mapAt l).valid = true := by decide
theorem witness_BindUnbindAndRestartOfAnImage_7 : ∃ l ∈ (restarting3 false .halted).imageTiles 3, ((restarting3 false .halted).mapAt l).valid = false := by decide
theorem witness_BindUnbindAndRestartOfAnImage_8 : ((restarting3 true .running).xc 3).state = .running ∧ ((restarting3 true .running).xc 3).op = 3 := by decide
theorem witness_BindUnbindAndRestartOfAnImage_9 : behind.opTurn (.image 3) = false := by decide
theorem witness_BindUnbindAndRestartOfAnImage_10 : (Machine.reset.xc 3).busy = false := by decide
theorem witness_StepsAreArmedReleasedAndEnded_0 : (imaged id).reaches 3 (funcNum .pf) = true ∧ (imaged id).fenced 3 = false := by decide
theorem witness_StepsAreArmedReleasedAndEnded_1 : ((imaged id).xc 3).image = some bound1 ∧ ((imaged id).xc 3).state = .running ∧ tget 0 ((imaged id).xc 3).latches 0 < bound1.img.steps.length ∧ ((imaged id).xc 3).queue.length < 64 := by decide
theorem witness_StepsAreArmedReleasedAndEnded_2 : 64 ≤ ((imaged fun x => { x with queue := List.replicate 64 { step := 0, arg := 0, aborted := none } }).xc 3).queue.length := by decide
theorem witness_StepsAreArmedReleasedAndEnded_3 : bound1.img.steps.length ≤ tget 0 ((imaged fun x => { x with latches := [(0, 1)] }).xc 3).latches (funcNum .pf) := by decide
theorem witness_StepsAreArmedReleasedAndEnded_4 : ((imaged fun x => { x with state := .halted }).xc 3).shown = .halted ∧ (imaged fun x => { x with state := .halted }).reaches 3 (funcNum .pf) = true ∧ (ctxOf .live).base.func = some 0 := by decide
theorem witness_StepsAreArmedReleasedAndEnded_5 : (imaged id).reaches 3 (funcNum (.vf 4)) = false := by decide
theorem witness_StepsAreArmedReleasedAndEnded_6 : (unlive 2).reaches 3 0 = true ∧ (unlive 2).fenced 3 = true := by decide
theorem witness_StepsAreArmedReleasedAndEnded_7 : armable.cqRoom 3 0 = true ∧ armable.gatesOk bound1 { durNs := 100, stepW := 0, counts := [(0, 2)], starts := [some 0] } = true ∧ armable.fenced 3 = false ∧ (armable.xc 3).queue = [{ step := 0, arg := 7, aborted := none }] := by decide
theorem witness_StepsAreArmedReleasedAndEnded_8 : ((imaged id).xc 3).queue = [] := by decide
theorem witness_StepsAreArmedReleasedAndEnded_9 : (releasing.xc 3).run = some (run1 false) ∧ releasing.releasable 3 = true ∧ releasing.fenced 3 = false := by decide
theorem witness_StepsAreArmedReleasedAndEnded_10 : ((imaged id).xc 3).run = none := by decide
theorem witness_StepsAreArmedReleasedAndEnded_11 : ((ended 100).xc 3).run = some (run1 true) ∧ (ended 100).allEnded 3 = true ∧ (ended 100).elapsed (run1 true) ≤ (ended 100).durNs 3 := by decide
theorem witness_StepsAreArmedReleasedAndEnded_12 : (ended 101).durNs 3 < (ended 101).elapsed (run1 true) ∧ (ended 101).offDies 3 (run1 true) = 0 := by decide
theorem witness_StepsAreArmedReleasedAndEnded_13 : ((imaged fun x => { x with detected := some { reason := 2, ch := 0, tile := some 0 } }).xc 3).detected.isSome = true := by decide
theorem witness_StepsAreArmedReleasedAndEnded_14 : ((imaged fun x => { x with queue := [{ step := 0, arg := 7, aborted := some 2 }] }).xc 3).run = none := by decide
theorem witness_StepsAreArmedReleasedAndEnded_15 : ((imaged id).xc 3).detected = none ∧ ∀ q ∈ ((imaged id).xc 3).queue, q.aborted = none := by decide
theorem witness_PagesAreGrantedReturnedAndRetired_0 : (paged 1 .free).pagePending 1 = true ∧ (paged 1 .free).pageCheck (paged 1 .free).part.page = 0 ∧ ∀ x ∈ (paged 1 .free).part.page.range, ((paged 1 .free).pageAt x).use = .free := by decide
theorem witness_PagesAreGrantedReturnedAndRetired_1 : (paged 1 .retired).pageCheck (paged 1 .retired).part.page = 8 := by decide
theorem witness_PagesAreGrantedReturnedAndRetired_2 : (paged 1 .owned).pageCheck (paged 1 .owned).part.page = 0 ∧ ∃ x ∈ (paged 1 .owned).part.page.range, ((paged 1 .owned).pageAt x).use ≠ .free := by decide
theorem witness_PagesAreGrantedReturnedAndRetired_3 : (paged 2 .retired).pagePending 2 = true ∧ (paged 2 .retired).pageCheck (paged 2 .retired).part.page = 8 ∧ (paged 2 .retired).part.page.begun = false := by decide
theorem witness_PagesAreGrantedReturnedAndRetired_4 : (paged 2 .free).pageCheck (paged 2 .free).part.page = 0 ∧ ∃ x ∈ (paged 2 .free).part.page.range, (paged 2 .free).owns 3 x = false := by decide
theorem witness_PagesAreGrantedReturnedAndRetired_5 : pinnedPage.pageCheck pinnedPage.part.page = 0 ∧ (∀ x ∈ pinnedPage.part.page.range, pinnedPage.owns 3 x = true) ∧ ∃ x ∈ pinnedPage.part.page.range, pinnedPage.pinned 3 x = true := by decide
theorem witness_PagesAreGrantedReturnedAndRetired_6 : ∀ x ∈ (paged 2 .owned).part.page.range, (paged 2 .owned).owns 3 x = true ∧ (paged 2 .owned).pinned 3 x = false := by decide
theorem witness_PagesAreGrantedReturnedAndRetired_7 : returning.pagePending 2 = true ∧ returning.part.page.begun = true := by decide
theorem witness_PagesAreGrantedReturnedAndRetired_8 : ∀ k, Machine.reset.pagePending k = false := fun _ => rfl
theorem witness_PagesAreGrantedReturnedAndRetired_9 : ∀ k, waitingPage.pagePending k = false := by intro k; simp [Machine.pagePending, show waitingPage.opTurn .page = false by decide]
theorem witness_PagesAreGrantedReturnedAndRetired_10 : (0 : BitVec 48).toNat / pageBytes < (paged 1 .owned).totalPages := by decide
theorem witness_PagesAreGrantedReturnedAndRetired_11 : (0 : BitVec 48).toNat / pageBytes < (paged 1 .owned).totalPages := by decide
theorem witness_PagesAreGrantedReturnedAndRetired_12 : Machine.reset.totalPages ≤ (0 : BitVec 48).toNat / pageBytes := by decide
theorem witness_StreamOperationsOfAContext_0 : (streamOp 1 [(0, BitVec.ofNat 32 1)] .reset).stPending 3 1 = true ∧ (streamOp 1 [(0, BitVec.ofNat 32 1)] .reset).openStatus 3 5 [(0, BitVec.ofNat 32 1)] = 0 := by decide
theorem witness_StreamOperationsOfAContext_1 : (streamOp 1 [] .reset).openStatus 3 5 [] = 3 := by decide
theorem witness_StreamOperationsOfAContext_2 : (streamOp 2 [] (strm3 4)).stPending 3 2 = true ∧ (streamOp 2 [] (strm3 4)).strmCheck 3 5 = 0 := by decide
theorem witness_StreamOperationsOfAContext_3 : (streamOp 2 [] { strm3 4 with ctx := 4 }).strmCheck 3 5 = 4 := by decide
theorem witness_StreamOperationsOfAContext_4 : (streamOp 2 [] .reset).strmCheck 3 5 = 0 ∧ ((streamOp 2 [] .reset).strmAt 5).state = .closed := by decide
theorem witness_StreamOperationsOfAContext_5 : (streamOp 3 [] (strm3 4)).stPending 3 3 = true ∧ (streamOp 3 [] (strm3 4)).strmCheck 3 5 = 0 := by decide
theorem witness_StreamOperationsOfAContext_6 : (streamOp 3 [] { strm3 4 with ctx := 4 }).strmCheck 3 5 = 4 := by decide
theorem witness_StreamOperationsOfAContext_7 : (streamOp 4 [(0, 2)] { strm3 4 with ringTail := 3 }).stPending 3 4 = true ∧ (streamOp 4 [(0, 2)] { strm3 4 with ringTail := 3 }).strmCheck 3 5 = 0 ∧ bits ((2 : Word)) 0 13 = 2 := by decide
theorem witness_StreamOperationsOfAContext_8 : (streamOp 4 [(0, 4)] { strm3 4 with ringTail := 3 }).strmAt 5 = { strm3 4 with ringTail := 3 } ∧ (3 + 8192 - 0) % 8192 < (4 + 8192 - 0) % 8192 := by decide
theorem witness_StreamOperationsOfAContext_9 : (streamOp 4 [] (strm3 2)).strmAt 5 = strm3 2 ∧ (strm3 2).kind ≠ kindMsg := by decide
theorem witness_StreamOperationsOfAContext_10 : ∀ k, Machine.reset.stPending 3 k = false := fun _ => rfl
theorem witness_StreamOperationsOfAContext_11 : ∀ k, waitingStrm.stPending 3 k = false := by intro k; simp [Machine.stPending, show waitingStrm.opTurn (.stream 3) = false by decide]
theorem witness_StreamHellosAndCredits_0 : ((strmMgmt 0x40 9 2).takeMgmt 0x40).map (fun p => (leAt p.1.payload 0 2 % 4096, leAt p.1.payload 2 1, frSrc p.1)) = some (5, 0, 0) ∧ (strmMgmt 0x40 9 2).strmAt 5 = strm3 2 := by decide
theorem witness_StreamHellosAndCredits_1 : ((strmMgmt 0x41 9 1).takeMgmt 0x41).map (fun p => (leAt p.1.payload 0 2 % 4096, leAt p.1.payload 2 1, leAt p.1.payload 3 2, frSrc p.1)) = some (5, 0, 9, 0) ∧ (strmMgmt 0x41 9 1).strmAt 5 = strm3 1 := by decide
theorem witness_StreamHellosAndCredits_2 : ({ strm3 1 with peerSeen := true, depth := 4 }).depth < (leAt (strmFrame 0x41 9).payload 3 2 + 65536 - 0) % 65536 := by decide
theorem witness_StreamHellosAndCredits_3 : Machine.reset.takeMgmt 0x40 = none := by rfl
theorem witness_StreamHellosAndCredits_4 : Machine.reset.takeMgmt 0x41 = none := by rfl
theorem witness_StreamHellosAndCredits_5 : ((strmMgmt 0x41 9 1).strmAt 5).kind = kindOut ∧ ((strmMgmt 0x41 9 1).strmAt 5).state = .open_ ∧ ((strmMgmt 0x41 9 1).strmAt 5).peerSeen = false := by decide
theorem witness_StreamHellosAndCredits_6 : ((strmMgmt 0x41 9 2).strmAt 5).kind ≠ kindOut := by decide
theorem witness_StreamHellosAndCredits_7 : ((delivered { strm3 2 with state := .bound, peerSeen := true } frame0).strmAt 5).state = .bound := by decide
theorem witness_StreamHellosAndCredits_8 : ((strmMgmt 0x41 9 2).strmAt 5).state ≠ .bound := by decide
theorem witness_StreamHellosAndCredits_9 : ((streaming .closing).strmAt 5).state = .closing ∧ (streaming .closing).txn = [] := by decide
theorem witness_StreamHellosAndCredits_10 : ∃ e t, e ∈ replying.txn ∧ e.2 = some t ∧ t.stream = (5 : StreamId).val := ⟨_, _, List.mem_singleton.mpr rfl, rfl, rfl⟩
theorem witness_HostLinksAndWindows_0 : 2 ∈ [1, 2, 4, 8, 16] ∧ cxlHost.hlinkActive 0 = true ∧ cxlHost.offersCxl 0 = true ∧ (cxlHost.hlink 0).up = false := by decide
theorem witness_HostLinksAndWindows_1 : rescuedHost.hlinkActive 0 = true ∧ (rescuedHost.hlink 0).up = false ∧ rescuedHost.offersCxl 0 = false := by decide
theorem witness_HostLinksAndWindows_2 : Machine.reset.hlinkActive 0 = false := by decide
theorem witness_HostLinksAndWindows_3 : (flushing.queue 3 0).cur.any (fun k => { k with flushing := true }.flushing && ((flushing.queue 3 0).flushSet { k with flushing := true }).contains 1) = true := by decide
theorem witness_HostLinksAndWindows_4 : (flushing.hlink 1).up = true ∧ (flushing.queue 3 0).cur.any (fun k => k.opt 1 && !k.flushing && ((flushing.queue 3 0).flushSet k).contains 1) = true := by decide
theorem witness_HostLinksAndWindows_5 : (Machine.reset.hlink 1).up = false := by decide
theorem witness_HostLinksAndWindows_6 : 0 + 4 ≤ ((paged 1 .owned).window (funcNum .pf)).2 ∧ ∀ i < 4, ((paged 1 .owned).winByte (funcNum .pf) false (0 + i)).isSome = true := by decide
theorem witness_HostLinksAndWindows_7 : ∃ i < 4, (paged 1 .scrubbing).winByte (funcNum .pf) false (0 + i) = none := by decide
theorem witness_HostLinksAndWindows_8 : 4 + ([1, 2] : List Byte).length ≤ ((paged 1 .owned).window (funcNum .pf)).2 := by decide
theorem witness_HostLinksAndWindows_9 : ∃ i < 2, (paged 1 .scrubbing).winByte (funcNum .pf) true (0 + i) = none := by decide
theorem witness_HostLinksAndWindows_10 : 0 < (Machine.reset.window (funcNum .pf)).2 := by decide
theorem witness_HostLinksAndWindows_11 : (Machine.reset.window (funcNum .pf)).2 < 268435455 + 4 ∧ (Machine.reset.window (funcNum .pf)).2 ≤ 268435456 := by decide
theorem witness_WatchesFunctionResetsAndVfs_0 : (watching.watch 0).held = true ∧ watching.watchTarget (watching.watch 0).tgt = some (3, 0) ∧ (watching.queue 3 0).state = .running ∧ ofLe ((watching.hostStores []).hostRead ((watching.watch 0).lo * 64 + (watching.watch 0).hi * 2 ^ 32) 4) % 65536 = 0 := by decide
theorem witness_WatchesFunctionResetsAndVfs_1 : (Machine.reset.watch 0).held = false := by decide
theorem witness_WatchesFunctionResetsAndVfs_2 : (imaged id).vfCtx 1 = none := by decide
theorem witness_WatchesFunctionResetsAndVfs_3 : (vfBound 1).vfCtx 1 = some 3 ∧ ((vfBound 1).ctxAt 3).base.life = .live ∧ (vfBound 1).covered (.context 3) = false ∧ (vfBound 1).fenceDue (.context 3) = true ∧ (vfBound 1).fenced 3 = false := by decide
theorem witness_WatchesFunctionResetsAndVfs_4 : ((vfBound 1).ctxAt 3).base.life = .live ∧ ((vfBound 1).ctxAt 3).base.func = some 1 := by decide
theorem witness_WatchesFunctionResetsAndVfs_5 : ((imaged id).ctxAt 3).base.func = some 0 ∧ (imaged id).covered (.context 3) = false ∧ (imaged id).fenceDue (.context 3) = true := by decide
theorem witness_WatchesFunctionResetsAndVfs_6 : ((vfBound 1).ctxAt 3).base.func = some 1 ∧ (if false then 1 else 0) < 1 := by decide
theorem witness_WatchesFunctionResetsAndVfs_7 : ∀ f, ((imaged id).ctxAt 3).base.func = some f → f ≤ if true then 1 else 0 := by decide
theorem witness_CopyQueuesDoorbellsAndFetches_0 : (copying fun _ => .reset).reaches 3 0 = true ∧ (copying fun _ => .reset).fenced 3 = false ∧ ((copying fun _ => .reset).queue 3 0).state = .disabled ∧ engineOf (bits (0x34 : Word) 4 2) (bits (0x34 : Word) 6 3) = some 16 ∧ bits (0x34 : Word) 0 4 = 4 ∧ ((copying fun _ => .reset).ctxAt 3).ce.cqSize ≠ 0 := by decide
theorem witness_CopyQueuesDoorbellsAndFetches_1 : engineOf (bits (4 : Word) 4 2) (bits (4 : Word) 6 3) = none := by decide
theorem witness_CopyQueuesDoorbellsAndFetches_2 : ((copying id).queue 3 0).state ≠ .disabled := by decide
theorem witness_CopyQueuesDoorbellsAndFetches_3 : (copying id).reaches 3 (funcNum .pf) = true ∧ (copying id).fenced 3 = false := by decide
theorem witness_CopyQueuesDoorbellsAndFetches_4 : ((copying fun r => { r with state := .halted }).queue 3 0).state = .halted ∧ ((copying fun r => { r with state := .halted }).queue 3 0).enable = true ∧ engineOf 3 0 = some 16 ∧ ((copying id).engine 16).failed = false := by decide
theorem witness_CopyQueuesDoorbellsAndFetches_5 : ((copying id).queue 3 0).state ≠ .halted ∧ (copying id).reaches 3 (funcNum .pf) = true ∧ (copying id).fenced 3 = false := by decide
theorem witness_CopyQueuesDoorbellsAndFetches_6 : ((copying id).queue 3 0).state ≠ .disabled ∧ (16 + 65536 - ((copying id).queue 3 0).ci) % 65536 ≤ 2 ^ ((copying id).queue 3 0).log2size := by decide
theorem witness_CopyQueuesDoorbellsAndFetches_7 : 2 ^ ((copying id).queue 3 0).log2size < (17 + 65536 - ((copying id).queue 3 0).ci) % 65536 := by decide
theorem witness_CopyQueuesDoorbellsAndFetches_8 : (imaged id).reaches 3 (funcNum (.vf 4)) = false := by decide
theorem witness_CopyQueuesDoorbellsAndFetches_9 : (unlive 2).reaches 3 (funcNum .pf) = true ∧ (unlive 2).fenced 3 = true := by decide
theorem witness_CopyQueuesDoorbellsAndFetches_10 : ((copying fun r => { r with pi := 1 }).hostStores []).fetchable 3 0 = some 16 := by decide
theorem witness_CopyQueuesDoorbellsAndFetches_11 : ((copying id).hostStores []).fetchable 3 0 = none := by decide
theorem witness_CopyQueuesDoorbellsAndFetches_12 : (copying fun r => { r with pi := 1 }).fetchable 3 0 = some 16 := by decide
theorem witness_CopyQueuesDoorbellsAndFetches_13 : ((queued12 0 copy4).queue 3 0).cur.any (fun k => k.op == 1 && !k.inl && engineClass k.engine == 1 && !k.sent) = true := by decide
theorem witness_CopyQueuesDoorbellsAndFetches_14 : ((queued12 16 { copy4 with flushing := true }).queue 3 0).cur.any (·.flushing) = true ∧ (queued12 16 { copy4 with flushing := true }).fenced 3 = false := by decide
theorem witness_CopyQueuesDoorbellsAndFetches_15 : (copying id).fetchable 3 0 = none ∧ ((copying id).queue 3 0).cur = none := by decide
theorem witness_CopyCommandsMoveSendAndComplete_0 : ((queued12 16 copy4).queue 3 0).cur = some { copy4 with engine := 16 } ∧ copy4.op = 1 ∧ copy4.started = false ∧ copy4.segLen = 4 ∧ copy4.inl = false ∧ (queued12 16 copy4).segStatus 3 16 copy4 = 0 := by decide +kernel
theorem witness_CopyCommandsMoveSendAndComplete_1 : (queued12 16 copy4).turn 16 = some (3, 0) := by decide +kernel
theorem witness_CopyCommandsMoveSendAndComplete_2 : (queued12 16 { copy4 with bytes := leBytes 256 (2 + 8 * 2 ^ 64 + 64 * 2 ^ 192) }).turn 16 = some (3, 0) ∧ ({ copy4 with bytes := leBytes 256 (2 + 8 * 2 ^ 64 + 64 * 2 ^ 192) }).segLen = 8 := by decide +kernel
theorem witness_CopyCommandsMoveSendAndComplete_3 : ((queued12 16 { copy4 with started := true, pos := 1 }).hostStores []).turn 16 = some (3, 0) := by decide +kernel
theorem witness_CopyCommandsMoveSendAndComplete_4 : (Machine.reset.hostStores []).turn 16 = none := by decide +kernel
theorem witness_CopyCommandsMoveSendAndComplete_5 : ((queued12 16 (send5 3 0)).queue 3 0).cur.any (fun k => k.op == 3 && !k.sent) = true ∧ (queued12 16 (send5 3 0)).fenced 3 = false := by decide
theorem witness_CopyCommandsMoveSendAndComplete_6 : (sending 4 4 .open_).turn 16 = some (3, 0) ∧ (sending 4 4 .open_).sendStatus 3 (send5 4 4) = 0 ∧ (sending 4 4 .open_).lineStatus 3 (send5 4 4).src (send5 4 4).len = 0 := by decide +kernel
theorem witness_CopyCommandsMoveSendAndComplete_7 : (sending 4 4 .closing).sendStatus 3 (send5 4 4) = 5 := by decide +kernel
theorem witness_CopyCommandsMoveSendAndComplete_8 : { sending 4 4 .open_ with hbm := Machine.reset.hbm }.lineStatus 3 (send5 4 4).src (send5 4 4).len ≠ 0 ∧ (send5 4 4).inl = false := by decide +kernel
theorem witness_CopyCommandsMoveSendAndComplete_9 : (sending 5 4 .open_).turn 16 = some (3, 0) ∧ (sending 5 4 .open_).sendStatus 3 (send5 5 4) = 0 ∧ (sending 5 4 .open_).lineStatus 3 0 4 = 0 ∧ (sending 5 4 .open_).reqLen (send5 5 4) = 4 := by decide +kernel
theorem witness_CopyCommandsMoveSendAndComplete_10 : (sending 5 4 .open_).freeTxn 3 = some 0 := by decide +kernel
theorem witness_CopyCommandsMoveSendAndComplete_11 : (sending 6 4 .open_).turn 16 = some (3, 0) ∧ (sending 6 4 .open_).sendStatus 3 (send5 6 4) = 0 ∧ (sending 6 4 .open_).freeTxn 3 = some 0 := by decide +kernel
theorem witness_CopyCommandsMoveSendAndComplete_12 : (sending 7 8 .open_).turn 16 = some (3, 0) ∧ (sending 8 0 .open_).turn 16 = some (3, 0) := by decide +kernel
theorem witness_CopyCommandsMoveSendAndComplete_13 : (sending 6 4 .closing).turn 16 = some (3, 0) ∧ (sending 6 4 .closing).sendStatus 3 (send5 6 4) = 5 ∧ (send5 6 4).op = 6 := by decide +kernel
theorem witness_CopyCommandsMoveSendAndComplete_14 : ((queued12 16 { copy4 with sent := true }).queue 3 0).cur.any (fun k => k.ended && !k.flushing && !(k.opt 1)) = true ∧ (queued12 16 copy4).fenced 3 = false := by decide
theorem witness_CopyCommandsMoveSendAndComplete_15 : ((queued12 0 { ceCmd 1 2 [] with sent := true, h0Last := some 64 }).queue 3 0).cur.any (fun k => k.ended && k.opt 1) = true ∧ ((queued12 0 { ceCmd 1 2 [] with sent := true, h0Last := some 64 }).queue 3 0).flushSet { ceCmd 1 2 [] with sent := true, h0Last := some 64 } = [0] := by decide
theorem witness_CopyCommandsMoveSendAndComplete_16 : ((queued12 16 { copy4 with flushing := true }).queue 3 0).cur.any (·.flushing) = true ∧ (queued12 16 copy4).fenced 3 = false := by decide
theorem witness_CopyCommandsMoveSendAndComplete_17 : ((queued12 16 copy4).queue 3 0).cur.any (fun k => !k.flushing && !k.ended) = true := by decide
theorem witness_ReefMeasuresCapsAndHolds_0 : bitAt Machine.reset.fuse.cdieMask 0 = true := by decide
theorem witness_ReefMeasuresCapsAndHolds_1 : (let m := reefed .reset { ReefPart.reset with phase := 2, ramping := true, target := 40 } fun r => { r with rampUp := 10 }; twf ReefPart.reset m.reef.parts = true ∧ (m.rpart 0).phase = 2 ∧ (m.rpart 0).ramping = true ∧ m.held 0 = false ∧ m.rateUp = 10) := by decide
theorem witness_ReefMeasuresCapsAndHolds_2 : (reefed { ReefDie.reset with vset := 800 } .reset fun r => { r with p100us := 5000 }).capInForce < 5000 ∧ (reefed { ReefDie.reset with vset := 800 } .reset fun r => { r with p100us := 5000 }).aboveFloor = [0] := by decide
theorem witness_ReefMeasuresCapsAndHolds_3 : (reefed .reset .reset fun r => { r with p100us := 5000 }).aboveFloor = [] := by decide
theorem witness_ReefMeasuresCapsAndHolds_4 : Machine.reset.reef.p100us < Machine.reset.capInForce ∧ Machine.reset.reef.p100us * 100 < Machine.reset.capInForce * 95 := by decide
theorem witness_ReefMeasuresCapsAndHolds_5 : (reefed .reset .reset fun r => { r with p100us := Machine.reset.capInForce - 1 }).capInForce * 95 ≤ (Machine.reset.capInForce - 1) * 100 := by decide
theorem witness_ReefMeasuresCapsAndHolds_6 : ({ Machine.reset with time := { TimeBlk.reset with now := 1000000 } } : Machine).ns = 1000000 ∧ Machine.reset.dieLive 0 = false := by decide
theorem witness_ReefMeasuresCapsAndHolds_7 : bitAt Machine.reset.fuse.cdieMask 0 = true := by decide
theorem witness_ReefMeasuresCapsAndHolds_8 : (reefed .reset .reset fun r => { r with ballastLog := [(0, 100000000)] }).rig 0x0F ≤ (reefed .reset .reset fun r => { r with ballastLog := [(0, 100000000)] }).ballastMj := by decide
theorem witness_ReefMeasuresCapsAndHolds_9 : (reefed .reset .reset fun r => { r with ballastHold := true }).ballastMj < (reefed .reset .reset fun r => { r with ballastHold := true }).rig 0x0F := by decide
theorem witness_RampWindowsTrayReportsAndNotices_0 : (ramping13.rpart 0).assigned = true ∧ (ramping13.rpart 0).groupsM1 ≠ 0 := by decide
theorem witness_RampWindowsTrayReportsAndNotices_1 : (ramping13.armOrder.find? fun c => ramping13.ctxPart c == 0) = some 3 ∧ (ramping13.armOrder.find? fun x => (ramping13.rpart (ramping13.ctxPart x)).assigned) = some 3 ∧ ramping13.held 0 = false ∧ ramping13.preRampRuns = false ∧ ramping13.earliestRelease 3 ≤ ramping13.ns + ramping13.preRampNs 0 (ramping13.rise 3) ∧ twf ReefPart.reset ramping13.reef.parts = true := by decide
theorem witness_RampWindowsTrayReportsAndNotices_2 : (Machine.reset.rpart 0).assigned = false := by decide
theorem witness_RampWindowsTrayReportsAndNotices_3 : ((reefed .reset { ReefPart.reset with windowOpen := true, phase := 2 } id).rpart 0).windowOpen = true ∧ ((reefed .reset { ReefPart.reset with windowOpen := true, phase := 2 } id).rpart 0).phase = 2 := by decide
theorem witness_RampWindowsTrayReportsAndNotices_4 : (Machine.reset.rpart 0).windowOpen = false ∧ (Machine.reset.rpart 0).phase ≠ 2 := by decide
theorem witness_RampWindowsTrayReportsAndNotices_5 : ((reefed .reset { ReefPart.reset with withdrawUntil := some 0, attributed := 20 } id).rpart 0).attributed ≤ 0 + max (0 / 10) 20 := by decide
theorem witness_RampWindowsTrayReportsAndNotices_6 : ((reefed .reset { ReefPart.reset with withdrawUntil := some 0, attributed := 21 } id).rpart 0).withdrawUntil = some 0 ∧ 0 + max (0 / 10) 20 < ((reefed .reset { ReefPart.reset with withdrawUntil := some 0, attributed := 21 } id).rpart 0).attributed := by decide
theorem witness_RampWindowsTrayReportsAndNotices_7 : (onTray id).takes fromFarnis = true ∧ (onTray id).boot.on = true ∧ (onTray id).pins.form = false := by decide
theorem witness_RampWindowsTrayReportsAndNotices_8 : bits (2 ^ 122 : BitVec 128) 122 6 ≠ 0 := by decide
theorem witness_RampWindowsTrayReportsAndNotices_9 : (onTray fun b => { b with on := false }).takes fromFarnis = true ∧ (onTray fun b => { b with on := false }).boot.on = false := by decide
theorem witness_RampWindowsTrayReportsAndNotices_10 : (carded .reset).pins.form = true ∧ (carded .reset).takes fromFarnis = true := by decide
theorem witness_RampWindowsTrayReportsAndNotices_11 : Machine.reset.pins.form = false ∧ Machine.reset.trayAt + 1000000000 ≤ ({ Machine.reset with time := { TimeBlk.reset with now := 1000000000 } } : Machine).ns := by decide
theorem witness_RampWindowsTrayReportsAndNotices_12 : (onTray id).takes fromFarnis = true ∧ (onTray id).boot.on = true ∧ (onTray id).pins.form = false ∧ (onTray id).reef.noticed = none := by decide
theorem witness_RampWindowsTrayReportsAndNotices_13 : sole.isMaster = true ∧ sole.lowestOnTray 0 = true ∧ sole.trayBudget (trayOf 0) * 11 ≤ (500 : BitVec 16).toNat * 10 ∧ sole.trayBudget (trayOf 0) < 500 ∧ sole.reef.lastReplan = none := by decide
theorem witness_RampWindowsTrayReportsAndNotices_14 : { sole with tkp := { sole.tkp with ramp := { sole.tkp.ramp with budgets := [(trayOf 0, 600)] } } }.trayBudget (trayOf 0) = 600 := by decide
theorem witness_RampWindowsTrayReportsAndNotices_15 : sole.isMaster = true := by decide
theorem witness_RampWindowsTrayReportsAndNotices_16 : sole.lowestOnTray 8 = false := by decide
theorem witness_RampWindowsTrayReportsAndNotices_17 : Machine.reset.isMaster = false := by decide
theorem witness_TelltaleRoundsLandEventsAndStartReactions_0 : Machine.reset.ttl.landed = [] ∧ Machine.reset.ttl.pin.waiting = false := by decide
theorem witness_TelltaleRoundsLandEventsAndStartReactions_1 : (landedTtl [] fun t => { t with pin := { t.pin with waiting := true } }).ttl.pin.highSince = none := by decide
theorem witness_TelltaleRoundsLandEventsAndStartReactions_2 : (landedTtl [event14 5 2 none] id).ttl.landed ≠ [] ∧ (landedTtl [event14 5 2 none] id).ttl.armed = true := by decide
theorem witness_TelltaleRoundsLandEventsAndStartReactions_3 : (landedTtl [event14 5 2 none] fun t => { t with src := [(7, { SrcRec.reset with first := true })] }).ttl.armed = false := by decide
theorem witness_TelltaleRoundsLandEventsAndStartReactions_4 : ((landedTtl [event14 5 2 none] id).src 5).n = 0 := by decide
theorem witness_TelltaleRoundsLandEventsAndStartReactions_5 : (landedTtl [event14 5 2 none] id).currentClass 5 ≤ 2 ∧ recoveryCount 0 (landedTtl [event14 5 2 none] id).ttl.pkg 2 < (landedTtl [event14 5 2 none] id).ttl.limits.getD 1 0 := by decide
theorem witness_TelltaleRoundsLandEventsAndStartReactions_6 : (landedTtl [event14 492 4 none] id).currentClass 492 ≤ 4 ∧ (event14 492 4 none).cls = 4 := by decide
theorem witness_TelltaleRoundsLandEventsAndStartReactions_7 : (landedTtl [event14 530 2 (some 3)] id).currentClass 530 ≤ 2 ∧ ((landedTtl [event14 530 2 (some 3)] id).slotAt (some 3)).active = false := by decide
theorem witness_TelltaleRoundsLandEventsAndStartReactions_8 : Machine.reset.hasDie 0 = true ∧ Machine.reset.ttl.masking = false := by decide
theorem witness_TelltaleRoundsLandEventsAndStartReactions_9 : (landedTtl [] fun t => { t with masking := true }).ttl.masking = true := by decide
theorem witness_TelltaleRoundsLandEventsAndStartReactions_10 : ({ Machine.reset with fuse := { Machine.reset.fuse with cdieMask := 1 } } : Machine).hasDie 1 = false := by decide
theorem witness_TelltaleReactionsPinAndBanksEnd_0 : ((landedTtl [] fun t => { t with pkg := { SlotRec.reset with active := true, cls := 1, actionDone := true } }).slotAt none).active = true := by decide
theorem witness_TelltaleReactionsPinAndBanksEnd_1 : (Machine.reset.slotAt none).active = false := by decide
theorem witness_TelltaleReactionsPinAndBanksEnd_2 : (landedTtl [] fun t => { t with pin := { t.pin with low := true } }).ttl.pin.hold = false ∧ (landedTtl [] fun t => { t with pin := { t.pin with low := true } }).ttl.pin.c4 = false := by decide
theorem witness_TelltaleReactionsPinAndBanksEnd_3 : (landedTtl [] fun t => { t with pin := { t.pin with low := true, hold := true } }).ttl.pin.hold = true := by decide
theorem witness_TelltaleReactionsPinAndBanksEnd_4 : Machine.reset.ttl.pin.low = false := by decide
theorem witness_TelltaleReactionsPinAndBanksEnd_5 : Machine.reset.ttl.pin.low = false := by decide
theorem witness_TelltaleReactionsPinAndBanksEnd_6 : (landedTtl [] fun t => { t with pin := { t.pin with low := true, minDone := true } }).ttl.pin.minDone = true := by decide
theorem witness_TelltaleReactionsPinAndBanksEnd_7 : (landedTtl [] fun t => { t with injectEn := true }).ttl.injectEn = true ∧ (entryClass 5).isSome = true ∧ maskedSource 5 = false := by decide
theorem witness_TelltaleReactionsPinAndBanksEnd_8 : (entryClass 144).isSome = true ∧ maskedSource 144 = true := by decide
theorem witness_TelltaleReactionsPinAndBanksEnd_9 : Machine.reset.ttl.injectEn = false ∧ entryClass 600 = none := by decide
theorem witness_TelltaleReactionsPinAndBanksEnd_10 : (let m := landedTtl [] fun t => { t with src := [(7, { SrcRec.reset with first := true })] }; twf SrcRec.reset m.ttl.src = true ∧ (m.src 7).first = true) := by decide
theorem witness_HangsResetTheirUnits_0 : (tiled 0x0D id).canExpire 0 = true := by decide
theorem witness_HangsResetTheirUnits_1 : Machine.reset.canExpire 0 = false := by decide
theorem witness_HangsResetTheirUnits_2 : (resetting.tileAt 0).resetAt.isSome = true := by decide
theorem witness_HangsResetTheirUnits_3 : (Machine.reset.tileAt 0).resetAt = none := by decide
theorem witness_HangsResetTheirUnits_4 : (queued12 16 { copy4 with started := true }).engineWork 16 = some (3, 0) ∧ ((queued12 16 { copy4 with started := true }).queue 3 0).cur.isSome = true ∧ (queued12 16 copy4).fenced 3 = false := by decide
theorem witness_HangsResetTheirUnits_5 : (({ Machine.reset with eng := [(16, { CeEng.reset with inReset := true })] } : Machine).engine 16).inReset = true := by decide
theorem witness_HangsResetTheirUnits_6 : (Machine.reset.engine 16).inReset = false ∧ Machine.reset.engineWork 16 = none := by decide
theorem witness_HangsResetTheirUnits_7 : waitingPort.canExpire (148 + 23) = true ∧ Machine.reset.canExpire (148 + 23) = false := by decide
theorem witness_HangsResetTheirUnits_8 : (collAt0 true).collAt 0 = some { coll0 with busy := true } ∧ (collAt0 false).collAt 0 = some { coll0 with busy := false } := by decide
theorem witness_HangsResetTheirUnits_9 : ((luffed (fun l => { l with collResets := [0] }) Machine.reset).luff.collResets.contains (0 : PartId).val = true ∧ ∀ k ∈ (luffed (fun l => { l with collResets := [0] }) Machine.reset).unitSlots 0, ∀ r, (luffed (fun l => { l with collResets := [0] }) Machine.reset).collAt k = some r → r.busy = false) := ⟨by decide, fun k _ r h => absurd h (by show ¬ (none : Option CollRec) = some r; simp)⟩
theorem witness_HangsResetTheirUnits_10 : Machine.reset.luff.collResets.contains 0 = false := by decide
theorem witness_HangsResetTheirUnits_11 : stalling.stalled 5 = true ∧ Machine.reset.stalled 5 = false := by decide
theorem witness_HangsResetTheirUnits_12 : ∃ f ∈ (fenced0 (.context 3) false).luff.fences, f.dom = .context 3 ∧ f.destroy = false := by decide
theorem witness_HangsResetTheirUnits_13 : (resetting.tileAt 0).resetAt.isSome = true ∧ (firstBelow 8 fun i => (resetting.partTiles i).contains 0) = some 0 ∧ ∃ l ∈ resetting.clusterTiles 0 0, (resetting.tileAt l).resetAt.isSome = true := by decide
theorem witness_HangsResetTheirUnits_14 : (∃ f ∈ (fenced0 (.partition 0) false).luff.fences, f.dom = .partition 0) ∧ (fenced0 .package false).pkgFenced = true := by decide
theorem witness_HangsResetTheirUnits_15 : (Machine.reset.tileAt 0).resetAt = none ∧ Machine.reset.luff.fences = [] := by decide
theorem witness_HangsResetTheirUnits_16 : 0 < (luffed (fun l => { l with lateOut := 1 }) Machine.reset).luff.lateOut ∧ (luffed (fun l => { l with dumpValid := true }) Machine.reset).luff.dumpValid = true := by decide
theorem witness_HangsResetTheirUnits_17 : Machine.reset.luff.lateOut = 0 ∧ Machine.reset.luff.dumpValid = false := by decide
theorem witness_ResetsFenceDrainAndEnd_0 : (let m := luffed (fun l => { l with ctxOrders := [(3, 2)] }) (imaged id); (m.luff.ctxOrders.find? fun o => o.1 == 3) = some (3, 2) ∧ m.covered (.context 3) = false ∧ m.fenceDue (.context 3) = true ∧ m.fenced 3 = false) := by decide
theorem witness_ResetsFenceDrainAndEnd_1 : (let m := luffed (fun l => { l with rstOp := 1, rstCtx := 3, rstBusy := true }) (imaged id); m.luff.rstWaits 1 = true ∧ m.covered (.context 3) = false ∧ m.fenceDue (.context 3) = true) := by decide
theorem witness_ResetsFenceDrainAndEnd_2 : (luffed (fun l => { l with rstOp := 1, rstCtx := 3, rstBusy := true }) (fenced0 (.context 3) false)).covered (.context 3) = true := by decide
theorem witness_ResetsFenceDrainAndEnd_3 : ((luffed (fun l => { l with rstOp := 1, rstCtx := 3, rstBusy := true }) Machine.reset).ctxAt 3).base.life = .free := by decide
theorem witness_ResetsFenceDrainAndEnd_4 : (let m := luffed (fun l => { l with ladderParts := [0] }) (imaged id); 0 ∈ m.luff.ladderParts ∧ m.covered (.partition 0) = false ∧ m.fenceDue (.partition 0) = true ∧ m.ctxPart 3 = 0) := by decide
theorem witness_ResetsFenceDrainAndEnd_5 : (luffed (fun l => { l with rstOp := 2, rstPart := 7, rstBusy := true }) (imaged id)).parts ≤ 7 := by decide
theorem witness_ResetsFenceDrainAndEnd_6 : (let m := luffed (fun l => { l with rstOp := 2, rstPart := 0, rstBusy := true }) (imaged id); m.luff.rstWaits 2 = true ∧ 0 < m.parts ∧ (m.partAt 0).state = .bound) := by decide
theorem witness_ResetsFenceDrainAndEnd_7 : (let m := pkgOrdered fun b => { b with steps := [(9, .complete)] }; m.pkgOrder = some (1, 300) ∧ m.stepPast 9 = true ∧ m.pkgFenced = false ∧ m.fenceDue .package = true) := by decide
theorem witness_ResetsFenceDrainAndEnd_8 : Machine.reset.luff.rstBusy = false ∧ Machine.reset.pkgOrder = none := by decide
theorem witness_ResetsFenceDrainAndEnd_9 : ((fenced0 (.partition 0) false).luff.fences.find? fun f => f.dom == .partition 0 && !f.drained) = some (fence0 (.partition 0) false) := by decide
theorem witness_ResetsFenceDrainAndEnd_10 : ((fenced0 .package false).luff.fences.find? fun f => f.dom == .package && !f.drained) = some (fence0 .package false) := by decide
theorem witness_ResetsFenceDrainAndEnd_11 : ((fenced0 (.context 3) true).luff.fences.find? fun f => f.dom == .context 3 && f.drained && !f.destroy) = some (fence0 (.context 3) true) := by decide
theorem witness_ResetsFenceDrainAndEnd_12 : ((fenced0 (.partition 0) true).luff.fences.find? fun f => f.dom == .partition 0 && f.drained && !f.destroy) = some (fence0 (.partition 0) true) ∧ ∀ l ∈ (fenced0 (.partition 0) true).partTiles 0, ((fenced0 (.partition 0) true).tileAt l).resetAt = none := by decide
theorem witness_ResetsFenceDrainAndEnd_13 : ∃ l ∈ resetting.partTiles 0, (resetting.tileAt l).resetAt.isSome = true := by decide
theorem witness_ResetsFenceDrainAndEnd_14 : (let m := pkgReset fun b => { b with steps := ([10, 14, 15, 16, 17, 18, 19, 21, 22, 34, 35].map fun k => (k, .complete)) }; (m.luff.fences.find? fun f => f.dom == .package && f.drained) = some (fence0 .package true) ∧ m.unitsReady = true) := by decide
theorem witness_ResetsFenceDrainAndEnd_15 : Machine.reset.luff.fences = [] := by decide
theorem witness_PowerGoodLatchesStrapsAndStarts_0 : (sited 0 .on Machine.reset).sitePg = true ∧ (sited 0 .on Machine.reset).boot.on = false := by decide
theorem witness_PowerGoodLatchesStrapsAndStarts_1 : Machine.reset.sitePg = false := by decide
theorem witness_PowerGoodLatchesStrapsAndStarts_2 : (onTray id).takes fromFarnis = true ∧ (1 : BitVec 8) ≠ 2 := by decide
theorem witness_PowerGoodLatchesStrapsAndStarts_3 : (stepping 40).bootSt 40 = .running ∧ 40 ≠ 23 ∧ ¬ (4 ≤ 40 ∧ 40 ≤ 9) ∧ [25, 27, 28, 29, 30, 31].contains 40 = false := by decide
theorem witness_PowerGoodLatchesStrapsAndStarts_4 : (stepping 9).bootSt 9 = .running ∧ (stepping 9).level 9 ≠ 2 := by decide
theorem witness_PowerGoodLatchesStrapsAndStarts_5 : (booted fun b => { b with steps := [(9, .running)], levels := [(9, 2)] }).level 9 = 2 := by decide
theorem witness_PowerGoodLatchesStrapsAndStarts_6 : (booted fun b => b).mayEnter 1 = true ∧ (booted fun b => b).stepUnfit 1 = false ∧ (levelSkips 1 && (booted fun b => b).level 1 == 1) = false := by decide
theorem witness_PowerGoodLatchesStrapsAndStarts_7 : (booted fun b => { b with steps := [(9, .complete)] }).mayEnter 11 = true := by decide
theorem witness_PowerGoodLatchesStrapsAndStarts_8 : (stepping 1).bootSt 1 = .running ∧ [25, 27, 30, 31, 40].contains 1 = false := by decide
theorem witness_PowerGoodLatchesStrapsAndStarts_9 : (stepping 27).bootSt 27 = .running := by decide
theorem witness_PowerGoodLatchesStrapsAndStarts_10 : (stepping 31).bootSt 31 = .running := by decide
theorem witness_PowerGoodLatchesStrapsAndStarts_11 : ((stepping 25).setPort 23 { PortRec.reset with stat := { PortStat.reset with assigned := true } }).bootSt 25 = .running := by decide
theorem witness_PowerGoodLatchesStrapsAndStarts_12 : (booted fun b => { b with steps := [(3, .complete)] }).stepPast 3 = true ∧ tget Config.erased (booted fun b => b).flash journalBase = 0xFF := by decide
theorem witness_FlashCommandsReadEraseAndProgram_0 : (onTray fun b => b).takes fromFarnis = true ∧ (onTray fun b => b).boot.on = true ∧ 1 ≤ (1024#16).toNat ∧ (1024#16).toNat ≤ 1024 ∧ (0x3FFFC00 : Word).toNat + (1024#16).toNat ≤ flashSize := by decide
theorem witness_FlashCommandsReadEraseAndProgram_1 : (onTray fun b => { b with rescue := true }).takes fromFarnis = true ∧ (onTray fun b => { b with rescue := true }).flashGate 0 4096 = 0 := by decide
theorem witness_FlashCommandsReadEraseAndProgram_2 : (onTray fun b => { b with rescue := true }).takes fromFarnis = true ∧ (onTray fun b => { b with rescue := true }).flashGate 0x3DFFF00 256 = 0 := by decide
theorem witness_FlashCommandsReadEraseAndProgram_3 : (onTray fun b => b).takes fromFarnis = true ∧ (onTray fun b => b).flashGate 0 256 = 1 := by decide
theorem witness_FlashCommandsReadEraseAndProgram_4 : (onTray fun b => { b with steps := [(9, .complete)] }).flashGate 0 256 = 4 := by decide
theorem witness_FlashCommandsReadEraseAndProgram_5 : { onTray (fun b => b) with boot := Boot.reset }.takes fromFarnis = true := by decide
theorem witness_BundleBroadcastForwardsAndStores_0 : (booted fun b => b).isMaster = false ∧ (booted fun b => b).boot.on = true := by decide
theorem witness_BundleBroadcastForwardsAndStores_1 : (offered 7).boot.bcast.offer = some (bundle 7) ∧ (8 : Word) ≠ (bundle 7).tag := by decide
theorem witness_BundleBroadcastForwardsAndStores_2 : fragOk (bundle 7) { chunk := 0, frag := 16, payload := true, tag := 7 } (List.replicate 128 0) = true := by decide
theorem witness_BundleBroadcastForwardsAndStores_3 : ((offered 7).boot.bcast.offer.map (·.tag)) = some 7 := by decide
theorem witness_BundleBroadcastForwardsAndStores_4 : treed.treeParent = some 1 ∧ treed.boot.bcast.whole = false ∧ treed.boot.bcast.ended = true ∧ treed.boot.bcast.fetchFrom = none := by decide
theorem witness_BundleBroadcastForwardsAndStores_5 : treed.treeKids.contains 0x8 = true ∧ treed.boot.bcast.kidsDone.contains 0x8 = false := by decide
theorem witness_BundleBroadcastForwardsAndStores_6 : (holding.heldChunk true 0).isSome = true ∧ holding.boot.fw.bundleOk = false := by decide
theorem witness_BundleBroadcastForwardsAndStores_7 : mastered.isMaster = true ∧ mastered.boot.fw.bundleOk = true := by decide
theorem witness_BundleBroadcastForwardsAndStores_8 : (offered 7).boot.bcast.whole = false ∧ (offered 7).ownBundle = none ∧ (offered 7).boot.bcast.late = 0 := by decide
theorem witness_BundleBroadcastForwardsAndStores_9 : offerless.treeParent = some 1 ∧ offerless.boot.bcast.offer = none ∧ offerless.isMaster = false ∧ offerless.hly.reg.admitted = true ∧
  offerless.bootSt 31 = .running := by decide
theorem witness_BundleBroadcastForwardsAndStores_10 : treed.boot.bcast.offer = some (bundle 7) ∧ treed.boot.bcast.ended = true := by decide
theorem witness_SitesArePoweredOnAndOff_0 : Machine.reset.far.running = false ∧ Machine.reset.ownSite 1 = false ∧ Machine.reset.far.sites = [] ∧ Machine.reset.setting 8 = 1 := by decide
theorem witness_SitesArePoweredOnAndOff_1 : Machine.reset.far.running = false ∧ Machine.reset.ownSite 1 = false ∧ Machine.reset.ownSite 2 = false ∧ ((1#32, 1#64) : Word × DWord).1 ≠ (2#32, 2#64).1 := by decide
theorem witness_SitesArePoweredOnAndOff_2 : Machine.reset.far.running = false := by decide
theorem witness_SitesArePoweredOnAndOff_3 : (tray [] id).far.running = true := by decide
theorem witness_SitesArePoweredOnAndOff_4 : (tray [(1, siteOf .standby (some (actOf .on false)))] fun f => { f with order := [1] }).far.order.head? = some 1 ∧ ((tray [(1, siteOf .standby (some (actOf .on false)))] fun f => { f with order := [1] }).siteAt 1).act = some (actOf .on false) := by decide
theorem witness_SitesArePoweredOnAndOff_5 : ((tray [(1, siteOf .poweringOn (some (actOf .on false)))] id).siteAt 1).state = .poweringOn ∧ ((tray [(1, siteOf .poweringOn (some (actOf .on false)))] id).siteAt 1).group < 4 := by decide
theorem witness_SitesArePoweredOnAndOff_6 : 4 ≤ ((tray [(1, { siteOf .poweringOn (some (actOf .on false)) with group := 4 })] id).siteAt 1).group := by decide
theorem witness_SitesArePoweredOnAndOff_7 : (Machine.reset.siteAt 1).state ≠ .poweringOn := by decide
theorem witness_SitesArePoweredOnAndOff_8 : ((tray [(1, siteOf .on (some (actOf .cycle true)))] id).siteAt 1).state = .on ∧ ((tray [(1, siteOf .on (some (actOf .cycle true)))] id).siteAt 1).act = some (actOf .cycle true) := by decide
theorem witness_SitesArePoweredOnAndOff_9 : ((tray [(1, siteOf .notice (some (actOf .cycle true)))] id).siteAt 1).state = .notice ∧ (tray [(1, siteOf .notice (some (actOf .cycle true)))] id).ownSite 1 = false := by decide
theorem witness_SitesArePoweredOnAndOff_10 : ({ tray [(0, siteOf .notice (some (actOf .cycle true)))] id with reef := { Reef.reset with readySent := true } } : Machine).ownSite 0 = true ∧ (tray [(0, siteOf .notice (some (actOf .cycle true)))] id).sitePg = true := by decide
theorem witness_SitesArePoweredOnAndOff_11 : ((tray [(1, { siteOf .poweringOff (some (actOf .cycle true)) with group := 3 })] id).siteAt 1).group = 3 := by decide
theorem witness_SitesArePoweredOnAndOff_12 : ((tray [(1, { siteOf .poweringOff (some (actOf .cycle true)) with group := 1 })] id).siteAt 1).state = .poweringOff := by decide
theorem witness_SitesArePoweredOnAndOff_13 : (Machine.reset.siteAt 1).state ≠ .poweringOff := by decide
theorem witness_SitesArePoweredOnAndOff_14 : ((tray [(1, siteOf .standby (some (actOf .cycle true)))] id).siteAt 1).act = some (actOf .cycle true) ∧ (actOf .cycle true).goal = .cycle := by decide
theorem witness_SitesArePoweredOnAndOff_15 : ((tray [(1, siteOf .standby (some (actOf .on true)))] id).siteAt 1).act = some (actOf .on true) ∧ (actOf .on true).goal = .on := by decide
theorem witness_SitesArePoweredOnAndOff_16 : ((tray [(1, siteOf .on none)] id).siteAt 1).state = .on ∧ ((tray [(1, siteOf .on none)] id).siteAt 1).act = none ∧ (tray [(1, siteOf .on none)] id).far.mismatch = false := by decide
theorem witness_SitesArePoweredOnAndOff_17 : ((tray [(1, siteOf .lockout none)] id).siteAt 1).state = .lockout := by decide
theorem witness_SitesArePoweredOnAndOff_18 : (tray [] fun f => { f with mismatch := true }).far.mismatch = true ∧ ((tray [] fun f => { f with mismatch := true }).siteAt 1).act = none := by decide
theorem witness_SitesArePoweredOnAndOff_19 : ((tray [(1, siteOf .on (some (actOf .cycle true)))] id).siteAt 1).act = some (actOf .cycle true) ∧ (tray [] id).far.mismatch = false := by decide
theorem witness_SitesArePoweredOnAndOff_20 : ((tray [(1, siteOf .standby none)] id).siteAt 1).state = .standby ∧ (tray [(1, siteOf .standby none)] id).far.mismatch = false := by decide
theorem witness_SitesArePoweredOnAndOff_21 : ((tray [(1, siteOf .scan none)] id).siteAt 1).state = .scan := by decide
theorem witness_SitesArePoweredOnAndOff_22 : (tray [(1, siteOf .on none)] id).far.running = true ∧ ((tray [(1, siteOf .on none)] id).siteAt 1).state.lit = true := by decide
theorem witness_SitesArePoweredOnAndOff_23 : (tray [(1, siteOf .standby none)] fun f => { f with sagged := [1] }).far.sagged ≠ [] ∧ (tray [(1, siteOf .standby none)] fun f => { f with sagged := [1] }).setting 8 = 1 ∧ (tray [(1, siteOf .standby none)] fun f => { f with sagged := [1] }).far.mismatch = false := by decide
theorem witness_SitesArePoweredOnAndOff_24 : Machine.reset.far.sagged = [] ∧ Machine.reset.far.running = false := by decide
theorem witness_SitesArePoweredOnAndOff_25 : (tray [(1, siteOf .on none)] fun f => { f with cduAge := some 0, cduTemp := 501 }).cduOk = true := by decide
theorem witness_SitesArePoweredOnAndOff_26 : Machine.reset.cduOk = false := by decide
theorem witness_FarnisReadsFaultsAndReportsTheFacility_0 : ((tray [(1, siteOf .on none)] id).siteAt 1).state = .on ∧ (tray [(1, siteOf .on none)] id).mayBeLow 1 = true ∧ (tray [(1, siteOf .on none)] id).ownSite 1 = false := by decide
theorem witness_FarnisReadsFaultsAndReportsTheFacility_1 : (tray [(0, siteOf .on none)] id).mayBeLow 0 = false := by decide
theorem witness_FarnisReadsFaultsAndReportsTheFacility_2 : ((tray [(1, { siteOf .on none with faultWait := true })] id).siteAt 1).faultWait = true ∧ (tray [(1, { siteOf .on none with faultWait := true })] id).ownSite 1 = false ∧ bitAt (4 : Word) 2 = true ∧ 492 ≤ bits (BitVec.ofNat 32 (492 * 32) : Word) 5 10 ∧ bits (BitVec.ofNat 32 (492 * 32) : Word) 5 10 ≤ 495 := by decide
theorem witness_FarnisReadsFaultsAndReportsTheFacility_3 : bitAt (0 : Word) 2 = false ∧ bits (0 : Word) 5 10 < 492 := by decide
theorem witness_FarnisReadsFaultsAndReportsTheFacility_4 : (Machine.reset.siteAt 1).faultWait = false := by decide
theorem witness_FarnisReadsFaultsAndReportsTheFacility_5 : ((tray [(1, { siteOf .on none with faultWait := true })] id).siteAt 1).rereads < 99 ∧ (tray [(1, { siteOf .on none with faultWait := true })] id).mayBeLow 1 = true := by decide
theorem witness_FarnisReadsFaultsAndReportsTheFacility_6 : 99 ≤ ((tray [(1, { siteOf .on none with faultWait := true, rereads := 99 })] id).siteAt 1).rereads := by decide
theorem witness_FarnisReadsFaultsAndReportsTheFacility_7 : ∀ k < 16, ((tray [(1, siteOf .on none)] id).siteAt k).state = .on → (if (tray [(1, siteOf .on none)] id).ownSite k then (tray [(1, siteOf .on none)] id).ttl.pin.low else (0 : BitVec 16).getLsbD k) = false := by decide
theorem witness_FarnisReadsFaultsAndReportsTheFacility_8 : ∃ k < 16, ((tray [(1, siteOf .on none)] id).siteAt k).state = .on ∧ (if (tray [(1, siteOf .on none)] id).ownSite k then (tray [(1, siteOf .on none)] id).ttl.pin.low else (2 : BitVec 16).getLsbD k) = true := by decide
theorem witness_FarnisReadsFaultsAndReportsTheFacility_9 : (tray [] id).far.running = true := by decide
theorem witness_FarnisReadsFaultsAndReportsTheFacility_10 : (tray [] id).far.running = true := by decide
theorem witness_FarnisReadsFaultsAndReportsTheFacility_11 : Machine.reset.far.running = false := by decide
theorem witness_FarnisReadsFaultsAndReportsTheFacility_12 : (tray [] id).far.running = true ∧ (tray [] id).cduOk = false := by decide
theorem witness_FarnisReadsFaultsAndReportsTheFacility_13 : (tray [] id).far.running = true := by decide
theorem witness_FarnisReadsFaultsAndReportsTheFacility_14 : ((tray [(1, siteOf .on none)] id).siteAt 1).state = .on ∧ (Machine.reset.siteAt 1).state ≠ .on ∧ (Machine.reset.siteAt 1).state ≠ .notice := by decide
theorem witness_FarnisReadsFaultsAndReportsTheFacility_15 : ((tray [(1, siteOf .on none)] id).siteAt 1).state = .on ∧ (Machine.reset.siteAt 1).state ≠ .on := by decide
theorem witness_FarnisAnswersUpdatesAndRestarts_0 : (tray [] id).far.running = true := by decide
theorem witness_FarnisAnswersUpdatesAndRestarts_1 : (let m := { tray [(0, siteOf .on none)] id with boot := { Boot.reset with on := true, steps := [(9, .complete)] } }; m.ownSite 0 = true ∧ m.boot.rescue = false ∧ m.flashGate (copyBase (!m.boot.copyB)) copyMax = 0) := by decide
theorem witness_FarnisAnswersUpdatesAndRestarts_2 : (tray [(0, siteOf .on none)] id).flashGate (copyBase (!(tray [(0, siteOf .on none)] id).boot.copyB)) copyMax ≠ 0 ∧ 4096 ≤ (List.replicate 4096 (0 : Byte)).length := ⟨by decide, by rw [List.length_replicate]⟩
theorem witness_FarnisAnswersUpdatesAndRestarts_3 : ((tray [(1, siteOf .on none)] id).siteAt 1).state = .on ∧ (tray [(1, siteOf .on none)] id).ownSite 1 = false := by decide
theorem witness_FarnisAnswersUpdatesAndRestarts_4 : (tray [] id).far.running = true := by decide
theorem witness_FarnisAnswersUpdatesAndRestarts_5 : (tray [] id).far.running = true ∧ settingOk 7 (32 : Word).toNat = true ∧ settingOk 7 (33 : Word).toNat = false := by decide
theorem witness_FarnisAnswersUpdatesAndRestarts_6 : 1 ≤ ([0x58] : List (BitVec 8)).length ∧ (∀ a ∈ ([0x58] : List (BitVec 8)), a.toNat < 128) ∧ 9600 ∈ [9600, 19200, 38400, 115200] ∧ 1 ∉ [9600, 19200, 38400, 115200] := by decide
theorem witness_FarnisAnswersUpdatesAndRestarts_7 : Machine.reset.far.running = false := by decide
theorem witness_RegistersAreReadAndWrittenByFunction_0 : State.reset.m.answers (.fn .pf) = false := by decide
theorem witness_RegistersAreReadAndWrittenByFunction_1 : answering.answers (.fn .pf) = true ∧ answering.exposed 0x3FFFFFC = true := by decide
theorem witness_RegistersAreReadAndWrittenByFunction_2 : (answeringRescue).answers (.fn .pf) = true ∧ answeringRescue.exposed 0 = false := by decide
theorem witness_RegistersAreReadAndWrittenByFunction_3 : answering.answers (.fn .pf) = true ∧ (3 ∉ [1, 2, 4, 8] ∨ 4 < 0 % 4 + 3) ∧ ¬(3 = 8 ∧ 0 % 4 = 0) := by decide
theorem witness_RegistersAreReadAndWrittenByFunction_4 : answering.answers (.fn .pf) = true ∧ answering.exposed 0x3FFFFFC = true := by decide
theorem witness_RegistersAreReadAndWrittenByFunction_5 : (answeringRescue).answers (.fn .pf) = true ∧ answeringRescue.exposed 0 = false := by decide
theorem witness_RegistersAreReadAndWrittenByFunction_6 : answering.answers (.fn .pf) = true ∧ ¬((3 = 4 ∨ 3 = 8) ∧ 0 % 4 = 0) := by decide
theorem witness_RegistersAreReadAndWrittenByFunction_7 : answeringVf.answers (.fn (.vf 0)) = true ∧ answeringVf.vfCtx 1 = none := by decide
theorem witness_RegistersAreReadAndWrittenByFunction_8 : answering.answers .h1 = true ∧ answering.twoDie = true := by decide
theorem witness_RegistersAreReadAndWrittenByFunction_9 : answering.answers (.fn .pf) = true ∧ answering.answers .h1 = true := by decide
theorem witness_RegistersAreReadAndWrittenByFunction_10 : { answeringVf with hst := { answeringVf.hst with numVf := 2 } }.answers (.fn (.vf 1)) = true := by decide
theorem witness_RegisterWritesMeetTheirFieldsRules_0 : Machine.reset.hly.box.busy = false := by decide
theorem witness_RegisterWritesMeetTheirFieldsRules_1 : (boxBusy).hly.box.busy = true := by decide
theorem witness_RegisterWritesMeetTheirFieldsRules_2 : Machine.reset.hly.box.busy = false ∧ bitAt (0x80000001 : Word) 31 = true ∧ hlyOpcode (bits (0x80000001 : Word) 0 8) = true ∧ bits (0x80000001 : Word) 16 15 = 0 := by decide
theorem witness_RegisterWritesMeetTheirFieldsRules_3 : (19 : Nat) < 20 ∧ (Machine.reset.src 608).any = false := by decide
theorem witness_RegisterWritesMeetTheirFieldsRules_4 : bits (9 : Word) 0 16 < 10 ∨ 60000 < bits (9 : Word) 0 16 := by decide
theorem witness_RegisterWritesMeetTheirFieldsRules_5 : 10 ≤ bits (10 : Word) 0 16 ∧ bits (60000 : Word) 0 16 ≤ 60000 := by decide
theorem witness_RegisterWritesMeetTheirFieldsRules_6 : Machine.reset.rwlOpen = false ∧ (bitAt (0x18 : Word) 3 ≠ Machine.reset.ttl.autoHold ∨ bitAt (0x18 : Word) 4 ≠ Machine.reset.ttl.injectEn) := by decide
theorem witness_RegisterWritesMeetTheirFieldsRules_7 : 0xC00000 / 0x100000 ∈ [0, 2, 6, 9, 12] := by decide
theorem witness_FarnisReachesRegistersCommandsAndTheDatabase_0 : (onTray id).takes fromFarnis = true ∧ (onTray id).boot.on = true ∧ ∀ i < (16 : BitVec 8).toNat, farnisReads ((0x300000 : Word).toNat + 4 * i) = true := by decide
theorem witness_FarnisReachesRegistersCommandsAndTheDatabase_1 : (onTray id).takes fromFarnis = true ∧ (onTray id).boot.on = true ∧ ((17 : BitVec 8).toNat = 0 ∨ 16 < (17 : BitVec 8).toNat ∨ (0 : Word).toNat % 4 ≠ 0) := by decide
theorem witness_FarnisReachesRegistersCommandsAndTheDatabase_2 : ∃ i < (1 : BitVec 8).toNat, farnisReads ((0 : Word).toNat + 4 * i) = false := by decide
theorem witness_FarnisReachesRegistersCommandsAndTheDatabase_3 : (onTray id).takes fromFarnis = true ∧ (onTray id).boot.on = true ∧ farnisWrites (0 : Word).toNat = false := by decide
theorem witness_FarnisReachesRegistersCommandsAndTheDatabase_4 : (onTray id).takes fromFarnis = true ∧ (onTray id).boot.on = true ∧ farnisWrites (0x300114 : Word).toNat = true ∧ ((onTray id).regWrite 0x7F (0x300114 : Word).toNat 10).2 = 0 := by decide
theorem witness_FarnisReachesRegistersCommandsAndTheDatabase_5 : ((onTray id).regWrite 0x7F (0x300114 : Word).toNat 9).2 ≠ 0 := by decide
theorem witness_FarnisReachesRegistersCommandsAndTheDatabase_6 : (onTray id).takes fromFarnis = true ∧ (onTray id).boot.on = true ∧ mctpOpcode (2 : BitVec 8).toNat = true ∧ (booted id).hly.mctp = none ∧ (List.replicate 14 (0 : Word)).length = 14 := by decide
theorem witness_FarnisReachesRegistersCommandsAndTheDatabase_7 : mctpHeld.takes fromFarnis = true ∧ mctpHeld.boot.on = true ∧ mctpHeld.hly.mctp ≠ none ∧ mctpOpcode (0x16 : BitVec 8).toNat = false := by decide
theorem witness_FarnisReachesRegistersCommandsAndTheDatabase_8 : (onTray id).takes fromFarnis = true ∧ (onTray id).boot.on = true ∧ (0 : Word).toNat + (16 : BitVec 16).toNat ≤ (booted id).dbBytes.length := by decide
theorem witness_FarnisReachesRegistersCommandsAndTheDatabase_9 : (0 : BitVec 16).toNat = 0 ∨ 1024 < (0 : BitVec 16).toNat ∨ (booted id).dbBytes.length < (0 : Word).toNat + (0 : BitVec 16).toNat := by decide
theorem witness_FarnisReachesRegistersCommandsAndTheDatabase_10 : { onTray id with boot := Boot.reset }.takes fromFarnis = true := by decide
theorem witness_FarnisReachesRegistersCommandsAndTheDatabase_11 : (onTray id).hears { fromFarnis with flags := 1 } = true ∧ bitAt ({ fromFarnis with flags := 1 } : MsgHdr).flags 0 = true := by decide
theorem witness_FarnisReachesRegistersCommandsAndTheDatabase_12 : (onTray id).hears { fromFarnis with flags := 4 } = true ∧ bitAt ({ fromFarnis with flags := 4 } : MsgHdr).flags 0 = false := by decide
theorem witness_FarnisReachesRegistersCommandsAndTheDatabase_13 : (onTray id).hears { fromFarnis with dst := siteEid 1 } = false ∧ (onTray id).bridged { fromFarnis with dst := siteEid 1 } = false := by decide
theorem witness_FarnisReachesRegistersCommandsAndTheDatabase_14 : (tray [(1, { SiteRec.reset with eid := some (siteEid 1) })] id).hears { fromFarnis with dst := siteEid 1, src := 9 } = false ∧
  (tray [(1, { SiteRec.reset with eid := some (siteEid 1) })] id).bridged { fromFarnis with dst := siteEid 1, src := 9 } = true ∧
  (tray [(1, { SiteRec.reset with eid := some (siteEid 1) })] id).eidOf 1 = some (siteEid 1) := by decide
theorem witness_BoundaryScanInstructionsEnterTheirDie_0 : (scanning .on).onChain 0 0 = true := by decide
theorem witness_BoundaryScanInstructionsEnterTheirDie_1 : (scanning .on).onChain 0 0 = true := by decide
theorem witness_BoundaryScanInstructionsEnterTheirDie_2 : (scanning .scan).onChain 0 0 = true ∧ ((scanning .scan).siteAt 0).state = .scan := by decide
theorem witness_BoundaryScanInstructionsEnterTheirDie_3 : (scanning .on).onChain 0 0 = true ∧ ((scanning .on).siteAt 0).state ≠ .scan := by decide
theorem witness_BoundaryScanInstructionsEnterTheirDie_4 : Machine.reset.onChain 0 1 = false := by decide
theorem witness_CardPowersItsPackageOnAndOff_0 : (carded .reset).pins.form = true ∧ (carded .reset).card.slot12v = false := by decide
theorem witness_CardPowersItsPackageOnAndOff_1 : (carded { Card.reset with slot12v := true }).pins.form = true ∧ (carded { Card.reset with slot12v := true }).card.slot12v = true := by decide
theorem witness_CardPowersItsPackageOnAndOff_2 : cardC4.pins.form = true ∧ cardC4.card.pg = true ∧ cardC4.ttl.pin.c4 = true := by decide
theorem witness_CardPowersItsPackageOnAndOff_3 : Machine.reset.pins.form = false := by decide

end Sys2Proof.Machine.Slice0
end

/-! ## The frames of the commands

One lemma per command of the table: the blocks of the machine that it may write. A proof walks the command's branches and cites, at each
shared operation it meets, that operation's own frame (Laws/Kept*.lean); what is left is that the operation's blocks are listed. -/

namespace Sys2Proof.Machine

/-- The frame of an outcome: when it is a next state, every block but the listed ones is as it was in `s`. -/
structure Frames (W : List Area) (s : State) (o : Host.Outcome State Fault Refusal) : Prop where
  frame : ∀ t, o = .next t → Kept W s.m t.m

theorem Frames.done {W : List Area} {s : State} {m : Machine} (h : Kept W s.m m) : Frames W s (done s m) :=
  ⟨fun _ ht => frame_of_done ht h⟩

theorem Frames.fault {W : List Area} {s : State} {r : Fault} : Frames W s (.fault r) := ⟨fun _ ht => nomatch ht⟩

theorem TouchesOnly.of_frames {c : Instr} {W : List Area} (h : ∀ s, Frames W s (exec c s)) : TouchesOnly c W := fun s => (h s).frame

/-- A command that always completes touches what its machine's change touches. -/
theorem TouchesOnly.of_done {c : Instr} {W : List Area} {f : State → Machine} (hf : ∀ s, exec c s = done s (f s))
    (h : ∀ s, Kept W s.m (f s)) : TouchesOnly c W :=
  .of_frames fun s => hf s ▸ .done (h s)

theorem Area.volatile_lost (l : List Area) : ∀ b ∈ Area.volatile, b ∈ Area.lostAnd l := fun _ => List.mem_append_left l

/-! ### Bring-up -/

theorem powerGood_frame : TouchesOnly .powerGood (Area.lostAnd [.flash]) :=
  .of_done (fun _ => rfl) fun _ => .ite (by apply powerUp_kept .refl <;> decide) .refl

theorem idRead_frame (h cls cmd) : TouchesOnly (.idRead h cls cmd) [.card, .out] :=
  .of_done (fun _ => rfl) fun _ => by
    with_reducible repeat' first | assumption | exact .refl | apply vendor_kept | apply answerMctp_kept | intro _ | apply Kept.ite
    all_goals decide

theorem bootStepEnter_frame (k inp) :
    TouchesOnly (.bootStepEnter k inp) [.boot, .time, .shr, .tiles, .tileMap, .tilePhys, .hbm, .hly, .tkp, .slc, .ttl, .reef, .flash,
      .out] :=
  .of_done (fun _ => rfl) fun _ => by
    with_reducible repeat' first | exact .refl | apply enterBoot_kept | apply runStep_kept | apply Kept.ite
    all_goals decide

theorem bootStepLimit_frame (k) : TouchesOnly (.bootStepLimit k) [.boot, .time, .hly, .tkp, .slc, .ttl, .flash, .out] :=
  .of_done (fun _ => rfl) fun _ => by apply stepLimit_kept .refl <;> decide

theorem trainDeadline_frame : TouchesOnly .trainDeadline [.boot, .time, .hly, .tkp, .slc, .ttl, .flash, .out] :=
  .of_done (fun _ => rfl) fun _ => by apply trainDeadline_kept .refl <;> decide

theorem bootAltClr_frame : TouchesOnly .bootAltClr [.boot, .ttl, .flash] :=
  .of_done (fun _ => rfl) fun _ => by apply altClear_kept .refl <;> decide

/-! ### Ports and links -/

theorem portDetectSignal_frame (p) : TouchesOnly (.portDetectSignal p) [.shr] :=
  .of_done (fun _ => rfl) fun _ => inState_kept .refl _ _ _ fun _ h => by apply modPort_kept h; decide

theorem portSyncLock_frame (p locked) : TouchesOnly (.portSyncLock p locked) [.shr] :=
  .of_done (fun _ => rfl) fun _ => inState_kept .refl _ _ _ fun _ h => .ite h (by apply modPort_kept h; decide)

theorem portSyncTimeout_frame (p) : TouchesOnly (.portSyncTimeout p) [.shr, .hly, .tkp, .slc, .ttl, .out] :=
  .of_done (fun _ => rfl) fun _ => inState_kept .refl _ _ _ fun _ h => by apply portFail_kept h <;> decide

theorem portDeskewDone_frame (p aligned) : TouchesOnly (.portDeskewDone p aligned) [.shr, .out] :=
  .of_done (fun _ => rfl) fun _ => by
    with_reducible repeat' first
      | assumption | exact .refl | apply inState_kept | apply modPort_kept | apply emit_kept | intro _ | apply Kept.ite
    all_goals decide

theorem portDeskewTimeout_frame (p) : TouchesOnly (.portDeskewTimeout p) [.shr, .hly, .tkp, .slc, .ttl, .out] :=
  .of_done (fun _ => rfl) fun _ => inState_kept .refl _ _ _ fun _ h => by apply portFail_kept h <;> decide

theorem ts2Receive_frame (p block) : TouchesOnly (.ts2Receive p block) [.time, .shr, .hly, .tkp, .slc, .ttl, .out] :=
  .of_done (fun _ => rfl) fun _ => by
    with_reducible repeat' first
      | assumption | exact .refl | apply inState_kept | apply modPort_kept | apply portDown_kept | intro _ | dsimp only
      | split
    all_goals decide

theorem portExchangeTimeout_frame (p) : TouchesOnly (.portExchangeTimeout p) [.shr, .hly, .tkp, .slc, .ttl, .out] :=
  .of_done (fun _ => rfl) fun _ => inState_kept .refl _ _ _ fun _ h => by apply portFail_kept h <;> decide

theorem portEqualiseDone_frame (p converged) : TouchesOnly (.portEqualiseDone p converged) [.shr] :=
  .of_done (fun _ => rfl) fun _ => inState_kept .refl _ _ _ fun _ h => by apply modPort_kept h; decide

theorem portVerifyDone_frame (p rxGood far delayNs) :
    TouchesOnly (.portVerifyDone p rxGood far delayNs) [.shr, .hly, .tkp, .slc, .ttl, .out] :=
  .of_done (fun _ => rfl) fun _ => by
    with_reducible repeat' first
      | assumption | exact .refl | apply inState_kept | apply modPort_kept | apply emit_kept | apply portFail_kept
      | apply enterActive_kept | intro _ | apply Kept.ite
    all_goals decide

theorem trainingSignalLoss_frame (p) : TouchesOnly (.trainingSignalLoss p) [.shr, .hly, .tkp, .slc, .ttl, .out] :=
  .of_done (fun _ => rfl) fun _ => .ite (by apply portFail_kept .refl <;> decide) .refl

theorem holdoffExpiry_frame (p cable) : TouchesOnly (.holdoffExpiry p cable) [.time, .shr, .hly, .tkp, .slc, .ttl, .out] :=
  .of_done (fun _ => rfl) fun _ => by
    with_reducible repeat' first
      | assumption | exact .refl | apply inState_kept | apply modPort_kept | apply enterDetect_kept | intro _
      | apply Kept.ite
    all_goals decide

theorem portDownSignalReturn_frame (p cable) : TouchesOnly (.portDownSignalReturn p cable) [.time, .shr, .hly, .tkp, .slc, .ttl, .out] :=
  .of_done (fun _ => rfl) fun _ => inState_kept .refl _ _ _ fun _ h => by apply enterDetect_kept h <;> decide

theorem laneLockLoss_frame (p good) : TouchesOnly (.laneLockLoss p good) [.shr, .out] :=
  .of_done (fun _ => rfl) fun _ => by
    with_reducible repeat' first
      | assumption | exact .refl | apply inState_kept | apply modPort_kept | apply startRetrain_kept | intro _
      | apply Kept.ite
    all_goals decide

theorem fecThreshold_frame (p count good) : TouchesOnly (.fecThreshold p count good) [.shr, .out] :=
  .of_done (fun _ => rfl) fun _ => by
    with_reducible repeat' first
      | assumption | exact .refl | apply inState_kept | apply modPort_kept | apply startRetrain_kept | intro _
      | apply Kept.ite
    all_goals decide

theorem retrainReqRepeat_frame (p) : TouchesOnly (.retrainReqRepeat p) [.out] :=
  .of_done (fun _ => rfl) fun _ => by
    with_reducible repeat' first | assumption | exact .refl | apply inState_kept | apply sendRetrainReq_kept | intro _ | split
    all_goals decide

theorem retrainReqReceive_frame (p word) : TouchesOnly (.retrainReqReceive p word) [.time, .shr, .fwd, .hly, .tkp, .slc, .ttl, .out] :=
  .of_done (fun _ => rfl) fun _ => by
    with_reducible repeat' first
      | assumption | exact .refl | apply onWord_kept | apply modPort_kept | apply handover_kept | apply portDown_kept
      | intro _ | dsimp only | split
    all_goals decide

theorem retrainComplete_frame (p rxGood farRxGood) :
    TouchesOnly (.retrainComplete p rxGood farRxGood) [.time, .shr, .fwd, .hly, .tkp, .slc, .ttl, .out] :=
  .of_done (fun _ => rfl) fun _ => by
    with_reducible repeat' first
      | assumption | exact .refl | apply inState_kept | apply modPort_kept | apply hardLoss_kept | apply raise_kept
      | apply floodOwn_kept | apply replayFrom_kept | apply pump_kept | intro _ | apply Kept.ite | split
    all_goals decide

theorem retrainTimeout_frame (p) : TouchesOnly (.retrainTimeout p) [.time, .shr, .fwd, .hly, .tkp, .slc, .ttl, .out] :=
  .of_done (fun _ => rfl) fun _ => inState_kept .refl _ _ _ fun _ h => by apply hardLoss_kept h <;> decide

theorem envelopeReceive_frame (p frame trailer fecSymbols fecBad) :
    TouchesOnly (.envelopeReceive p frame trailer fecSymbols fecBad) [.shr, .fwd, .ttl, .out] :=
  .of_done (fun _ => rfl) fun _ => by
    with_reducible repeat' first
      | assumption | exact .refl | apply inState_kept | apply modPort_kept | apply sendNak_kept | apply sendAck_kept
      | apply protoDiscard_kept | apply returnCredits_kept | apply modFwd_kept | intro _ | apply Kept.ite
    all_goals decide

theorem ackReceive_frame (p word) : TouchesOnly (.ackReceive p word) [.time, .shr, .fwd, .luff, .hly, .tkp, .slc, .ttl, .out] :=
  .of_done (fun _ => rfl) fun _ => by
    with_reducible repeat' first
      | assumption | exact .refl | apply onWord_kept | apply modPort_kept | apply luffStep_kept | apply pump_kept
      | apply hardLoss_kept | intro _ | apply Kept.ite
    all_goals decide

theorem nakReceive_frame (p word) : TouchesOnly (.nakReceive p word) [.time, .shr, .fwd, .hly, .tkp, .slc, .ttl, .out] :=
  .of_done (fun _ => rfl) fun _ => by
    with_reducible repeat' first
      | assumption | exact .refl | apply onWord_kept | apply replayFrom_kept | apply pump_kept | apply hardLoss_kept
      | intro _ | apply Kept.ite
    all_goals decide

theorem nakRepeat_frame (p) : TouchesOnly (.nakRepeat p) [.out] :=
  .of_done (fun _ => rfl) fun _ => inState_kept .refl _ _ _ fun _ h => .ite (by apply sendNak_kept h; decide) h

theorem replayTimeout_frame (p) : TouchesOnly (.replayTimeout p) [.shr, .ttl, .out] :=
  .of_done (fun _ => rfl) fun _ => by
    with_reducible repeat' first
      | assumption | exact .refl | apply inState_kept | apply replayFrom_kept | apply pump_kept | intro _ | split
    all_goals decide

theorem creditReceive_frame (p word) : TouchesOnly (.creditReceive p word) [.time, .shr, .fwd, .luff, .hly, .tkp, .slc, .ttl, .out] :=
  .of_done (fun _ => rfl) fun _ => by
    with_reducible repeat' first
      | assumption | exact .refl | apply onWord_kept | apply hardLoss_kept | apply modPort_kept | apply creditProgress_kept
      | intro _ | apply Kept.ite
    all_goals decide

theorem goingDownReceive_frame (p word) : TouchesOnly (.goingDownReceive p word) [.time, .shr, .fwd, .hly, .tkp, .slc, .ttl, .out] :=
  .of_done (fun _ => rfl) fun _ => by
    with_reducible repeat' first
      | assumption | exact .refl | apply onWord_kept | apply hardLoss_kept | apply markAbsent_kept | apply serve_kept
      | intro _ | apply Kept.ite
    all_goals decide

theorem linkSignalLoss_frame (p) : TouchesOnly (.linkSignalLoss p) [.time, .shr, .fwd, .hly, .tkp, .slc, .ttl, .out] :=
  .of_done (fun _ => rfl) fun _ => .ite (by apply hardLoss_kept .refl <;> decide) .refl

theorem fullTrainReceive_frame (p cable) : TouchesOnly (.fullTrainReceive p cable) [.time, .shr, .fwd, .hly, .tkp, .slc, .ttl, .out] :=
  .of_done (fun _ => rfl) fun _ => by
    with_reducible repeat' first
      | exact .refl | apply handover_kept | apply enterDetect_kept | apply floodOwn_kept | apply Kept.ite
    all_goals decide

theorem stayFail_frame (l replays corrected) : TouchesOnly (.stayFail l replays corrected) [.shr, .ttl] :=
  .of_done (fun _ => rfl) fun _ => by
    simp -zeta -iota -proj only [Machine.upd_shr_eq]
    with_reducible repeat' first | exact .refl | apply stayReplay_kept | apply raise_kept | apply Kept.set_shr | apply Kept.ite
    all_goals decide

theorem shrCntClr_frame (p) : TouchesOnly (.shrCntClr p) [.shr] :=
  .of_done (fun _ => rfl) fun _ => by apply modPort_kept .refl; decide

/-! ### Time -/

theorem syncExchange_frame (ok offset) : TouchesOnly (.syncExchange ok offset) [.boot, .time, .luff, .ttl, .flash, .out] :=
  .of_done (fun _ => rfl) fun _ => by
    with_reducible repeat' first | exact .refl | apply syncWith_kept | apply bootSettle_kept
    all_goals decide

theorem parentLinkFail_frame : TouchesOnly .parentLinkFail [.time] :=
  .of_done (fun _ => rfl) fun _ => .ite .refl (by apply modTime_kept .refl; decide)

theorem holdoverExpiry_frame : TouchesOnly .holdoverExpiry [.time, .ttl] :=
  .of_done (fun _ => rfl) fun _ => .ite (by apply setLocked_kept .refl <;> decide) .refl

theorem parentNamed_frame (p root) : TouchesOnly (.parentNamed p root) [.time, .ttl, .out] :=
  .of_done (fun _ => rfl) fun _ => by
    with_reducible repeat' first | exact .refl | apply makeRoot_kept | apply underParent_kept | split
    all_goals decide

theorem refclkLoss_frame : TouchesOnly .refclkLoss [.time, .shr, .fwd, .hly, .tkp, .slc, .ttl, .out] :=
  .of_done (fun _ => rfl) fun _ => .ite (by apply loseReference_kept .refl <;> decide) .refl

theorem refclkReturn_frame : TouchesOnly .refclkReturn [.time, .shr] :=
  .of_done (fun _ => rfl) fun _ => by
    with_reducible repeat' first | assumption | exact .refl | apply modTime_kept | apply modPort_kept | intro _ | apply Kept.foldl
    all_goals decide

theorem timeNowLoRead_frame (f) : TouchesOnly (.timeNowLoRead f) [.time, .out] :=
  .of_done (fun _ => rfl) fun _ => by
    with_reducible repeat' first | exact .refl | apply modTime_kept | apply emit_kept
    all_goals decide

/-! ### Die monitors -/

theorem uvMonitorTrip_frame (d) : TouchesOnly (.uvMonitorTrip d) [.corner, .ctx, .reef] :=
  .of_done (fun _ => rfl) fun _ => by
    with_reducible repeat' first
      | exact .refl | apply modCorner_kept | apply markOffCorner_kept | apply modRdie_kept | apply Kept.ite
    all_goals decide

theorem uvMonitorClear_frame (d) : TouchesOnly (.uvMonitorClear d) [.corner] :=
  .of_done (fun _ => rfl) fun _ => by apply modCorner_kept .refl; decide

theorem otMonitorTrip_frame (d) : TouchesOnly (.otMonitorTrip d) [.corner, .ctx] :=
  .of_done (fun _ => rfl) fun _ => by
    with_reducible repeat' first | exact .refl | apply modCorner_kept | apply markOffCorner_kept | apply Kept.ite
    all_goals decide

theorem otMonitorClear_frame (d) : TouchesOnly (.otMonitorClear d) [.corner] :=
  .of_done (fun _ => rfl) fun _ => by apply modCorner_kept .refl; decide

theorem thermalHoldStart_frame (d) : TouchesOnly (.thermalHoldStart d) [.corner] :=
  .of_done (fun _ => rfl) fun _ => by apply modCorner_kept .refl; decide

theorem thermalHoldEnd_frame (d) : TouchesOnly (.thermalHoldEnd d) [.corner] :=
  .of_done (fun _ => rfl) fun _ => by apply modCorner_kept .refl; decide

theorem thermalTrip_frame (d) : TouchesOnly (.thermalTrip d) [.ttl] :=
  .of_done (fun _ => rfl) fun _ => .ite (by apply raise_kept .refl; decide) .refl

/-! ### Halyard -/

theorem helloSend_frame (p) : TouchesOnly (.helloSend p) [.out] :=
  .of_done (fun _ => rfl) fun _ => inState_kept .refl _ _ _ fun _ h => by apply emit_kept h; decide

theorem helloReceive_frame (p h) : TouchesOnly (.helloReceive p h) [.luff, .hly, .tkp, .slc, .ttl, .out] :=
  .of_done (fun _ => rfl) fun _ => by
    with_reducible repeat' first
      | assumption | exact .refl | apply inState_kept | apply modDb_kept | apply checkFingerprint_kept | apply submit_kept
      | apply floodOwn_kept | apply hlyItem_kept | intro _ | apply Kept.ite
    all_goals decide

theorem linkStateRecordReceive_frame (p r) :
    TouchesOnly (.linkStateRecordReceive p r) [.boot, .time, .shr, .luff, .hly, .tkp, .slc, .ttl, .flash, .out] :=
  .of_done (fun _ => rfl) fun _ => by
    with_reducible repeat' first
      | exact .refl | apply modDb_kept | apply flood_kept | apply hlyItem_kept | apply masterRecord_kept
      | apply settleElection_kept | apply bootSettle_kept | apply Kept.ite | split
    all_goals decide

theorem discoverySettle_frame : TouchesOnly .discoverySettle [.boot, .time, .hly, .tkp, .slc, .ttl, .flash, .out] :=
  .of_done (fun _ => rfl) fun _ => by
    with_reducible repeat' first
      | exact .refl | apply modDb_kept | apply modHly_kept | apply elect_kept | apply tell_kept | apply bootSettle_kept
      | split
    all_goals decide

theorem masterAnnounceReceive_frame (node) : TouchesOnly (.masterAnnounceReceive node) [.boot, .time, .luff, .hly, .ttl, .flash, .out] :=
  .of_done (fun _ => rfl) fun _ => by
    with_reducible repeat' first
      | exact .refl | apply tellKids_kept | apply hlyItem_kept | apply modDb_kept | apply announceElect_kept
      | apply bootSettle_kept | apply announceRun_kept | apply announceRestarting_kept | dsimp only | split
    all_goals decide

theorem standbyAckReceive_frame (seq) : TouchesOnly (.standbyAckReceive seq) [.boot, .time, .shr, .hly, .tkp, .slc, .ttl, .out] :=
  .of_done (fun _ => rfl) fun _ => by
    simp -zeta -iota -proj only [Machine.upd_hly_eq]
    with_reducible repeat' first
      | exact .refl | apply serve_kept | apply advance_kept | apply bcastSend_kept | apply Kept.set_hly | apply Kept.ite
    all_goals decide

theorem beaconSend_frame : TouchesOnly .beaconSend [.out] :=
  .of_done (fun _ => rfl) fun _ => .ite (by apply tellKids_kept .refl; decide) .refl

theorem beaconCountReceive_frame (count) : TouchesOnly (.beaconCountReceive count) [.time, .shr, .luff, .hly, .tkp, .slc, .ttl, .out] :=
  .of_done (fun _ => rfl) fun _ => by
    with_reducible repeat' first | exact .refl | apply setQuorum_kept | apply serve_kept | apply hlyItem_kept | apply Kept.ite
    all_goals decide

theorem componentJoin_frame (gen epoch recs) : TouchesOnly (.componentJoin gen epoch recs) [.time, .shr, .hly, .tkp, .slc, .ttl, .out] :=
  .of_done (fun _ => rfl) fun _ => by
    with_reducible repeat' first
      | exact .refl | apply elect_kept | apply modDb_kept | apply modHly_kept | apply openEpoch_kept | apply modWork_kept
      | apply serve_kept | apply Kept.ite
    all_goals decide

theorem beaconTimeout_frame (count) : TouchesOnly (.beaconTimeout count) [.boot, .time, .shr, .hly, .tkp, .slc, .ttl, .out] :=
  .of_done (fun _ => rfl) fun _ => by
    with_reducible repeat' first
      | exact .refl | apply adoptReplica_kept | apply modDb_kept | apply becomeMaster_kept | apply setQuorum_kept
      | apply resume_kept | apply modHly_kept | apply raise_kept | apply markAbsent_kept | apply serve_kept
      | apply bcastContinue_kept | apply Kept.ite
    all_goals decide

theorem holdDownExpiry_frame (p) : TouchesOnly (.holdDownExpiry p) [.hly, .tkp, .slc, .ttl, .out] :=
  .of_done (fun _ => rfl) fun _ => by
    with_reducible repeat' first | exact .refl | apply modDb_kept | apply floodOwn_kept | apply Kept.ite
    all_goals decide

theorem packageAbsent_frame (node) : TouchesOnly (.packageAbsent node) [.time, .shr, .hly, .tkp, .slc, .ttl, .out] :=
  .of_done (fun _ => rfl) fun _ => by
    with_reducible repeat' first | exact .refl | apply markAbsent_kept | apply serve_kept | apply Kept.ite
    all_goals decide

theorem epochCollectClose_frame : TouchesOnly .epochCollectClose [.time, .shr, .hly, .tkp, .slc, .ttl, .out] :=
  .of_done (fun _ => rfl) fun _ => by
    with_reducible repeat' first | exact .refl | apply closeCollection_kept | apply serve_kept
    all_goals decide

theorem epochPrepareReceive_frame (prs) : TouchesOnly (.epochPrepareReceive prs) [.luff, .hly, .out] :=
  .of_done (fun _ => rfl) fun _ => by
    with_reducible repeat' first | exact .refl | apply tellKids_kept | apply takePrepare_kept | dsimp only | split
    all_goals decide

theorem epochReadyReceive_frame (node epoch) :
    TouchesOnly (.epochReadyReceive node epoch) [.time, .shr, .luff, .hly, .tkp, .slc, .ttl, .out] :=
  .of_done (fun _ => rfl) fun _ => by
    with_reducible repeat' first
      | exact .refl | apply modWork_kept | apply advance_kept | apply serve_kept | apply hlyItem_kept | apply Kept.ite
    all_goals decide

theorem epochCommitReceive_frame (epoch time) : TouchesOnly (.epochCommitReceive epoch time) [.luff, .hly, .out] :=
  .of_done (fun _ => rfl) fun _ => by
    simp -zeta -iota -proj only [Machine.upd_hly_eq]
    with_reducible repeat' first | exact .refl | apply hlyItem_kept | apply tell_kept | apply Kept.set_hly | apply Kept.ite
    all_goals decide

theorem epochSwitch_frame :
    TouchesOnly .epochSwitch [.boot, .time, .shr, .fwd, .strm, .luff, .hly, .tkp, .slc, .part, .ttl, .reef, .flash, .out] :=
  .of_done (fun _ => rfl) fun _ => by
    with_reducible repeat' first | exact .refl | apply switchEpoch_kept | apply bootSettle_kept
    all_goals decide

theorem oldBankRelease_frame : TouchesOnly .oldBankRelease [.hly] :=
  .of_done (fun _ => rfl) fun _ => by
    simp -zeta -iota -proj only [Machine.upd_hly_eq]
    with_reducible repeat' first | exact .refl | apply modHly_kept | apply Kept.set_hly | apply Kept.ite
    all_goals decide

theorem epochReadyTimeout_frame (node) : TouchesOnly (.epochReadyTimeout node) [.time, .shr, .hly, .tkp, .slc, .ttl, .out] :=
  .of_done (fun _ => rfl) fun _ => by
    with_reducible repeat' first | exact .refl | apply readyLate_kept | apply serve_kept | apply Kept.ite
    all_goals decide

theorem epochAbortReceive_frame (epoch) : TouchesOnly (.epochAbortReceive epoch) [.hly] :=
  .of_done (fun _ => rfl) fun _ => by
    simp -zeta -iota -proj only [Machine.upd_hly_eq]
    with_reducible repeat' first | exact .refl | apply dropPrepared_kept | apply Kept.set_hly | dsimp only | split
    all_goals decide

theorem halyardRestartTimeout_frame : TouchesOnly .halyardRestartTimeout [.hly, .ttl, .out] :=
  .of_done (fun _ => rfl) fun _ => .ite (.ite (by apply restartHalyard_kept .refl <;> decide) (by apply raise_kept .refl; decide)) .refl

/-! ### Commands of the mailbox and of the pod -/

theorem topoRead_frame (src) : TouchesOnly (.topoRead src) [.hly, .acc, .out] :=
  .of_done (fun _ => rfl) fun _ => by
    with_reducible repeat' first | assumption | exact .refl | apply ownCmd_kept | intro _ | apply Kept.iteFst
    all_goals decide

theorem portDisable_frame (src) : TouchesOnly (.portDisable src) [.time, .shr, .fwd, .hly, .tkp, .slc, .ttl, .acc, .out] :=
  .of_done (fun _ => rfl) fun _ => by
    with_reducible repeat' first | exact .refl | apply disablePort_kept | apply podCmd_kept | split
    all_goals decide

theorem portEnable_frame (src cable) : TouchesOnly (.portEnable src cable) [.time, .shr, .hly, .tkp, .slc, .ttl, .acc, .out] :=
  .of_done (fun _ => rfl) fun _ => by
    with_reducible repeat' first | exact .refl | apply enablePort_kept | apply podCmd_kept | split
    all_goals decide

theorem portFullTrain_frame (src cable) : TouchesOnly (.portFullTrain src cable) [.time, .shr, .fwd, .hly, .tkp, .slc, .ttl, .acc, .out] :=
  .of_done (fun _ => rfl) fun _ => by
    with_reducible repeat' first | exact .refl | apply trainPort_kept | apply podCmd_kept | split
    all_goals decide

theorem portTestRetrain_frame (src) : TouchesOnly (.portTestRetrain src) [.time, .shr, .hly, .tkp, .slc, .ttl, .acc, .out] :=
  .of_done (fun _ => rfl) fun _ => by
    with_reducible repeat' first | exact .refl | apply startRetrain_kept | apply podCmd_kept | split
    all_goals decide

theorem epochQuery_frame (src) : TouchesOnly (.epochQuery src) [.hly, .acc, .out] :=
  .of_done (fun _ => rfl) fun _ => by
    with_reducible repeat' first | assumption | exact .refl | apply ownCmd_kept | intro _ | apply Kept.iteFst
    all_goals decide

theorem masterHandover_frame (src) : TouchesOnly (.masterHandover src) [.time, .shr, .hly, .tkp, .slc, .ttl, .acc, .out] :=
  .of_done (fun _ => rfl) fun _ => by
    with_reducible repeat' first
      | exact .refl | apply mergeReplica_kept | apply serve_kept | apply adoptReplica_kept | apply becomeMaster_kept
      | apply modHly_kept | apply setRoles_kept | apply replicate_kept | apply resume_kept | apply podCmd_kept | split
    all_goals decide

theorem masterConfirm_frame (src) : TouchesOnly (.masterConfirm src) [.time, .shr, .hly, .tkp, .slc, .ttl, .acc, .out] :=
  .of_done (fun _ => rfl) fun _ => by apply podCmd_kept .refl <;> decide

theorem packageDrain_frame (src) : TouchesOnly (.packageDrain src) [.time, .shr, .hly, .tkp, .slc, .ttl, .acc, .out] :=
  .of_done (fun _ => rfl) fun _ => by apply podCmd_kept .refl <;> decide

theorem packageRestore_frame (src) : TouchesOnly (.packageRestore src) [.time, .shr, .hly, .tkp, .slc, .ttl, .acc, .out] :=
  .of_done (fun _ => rfl) fun _ => by apply podCmd_kept .refl <;> decide

theorem rigWrite_frame (src) : TouchesOnly (.rigWrite src) [.boot, .hly, .tkp, .ttl, .acc, .reef, .flash, .out] :=
  .of_done (fun _ => rfl) fun _ => by
    simp -zeta -iota -proj only [Machine.upd_boot_eq, Machine.upd_reef_eq]
    with_reducible repeat' first
      | assumption | exact .refl | apply ownCmd_kept | apply note_kept | apply setRig_kept | apply raiseRate_kept
      | apply tell_kept | apply Kept.set_boot | apply Kept.set_reef | intro _ | apply Kept.ite | apply Kept.iteFst
    all_goals decide

theorem rigRead_frame (src) : TouchesOnly (.rigRead src) [.hly, .acc, .out] :=
  .of_done (fun _ => rfl) fun _ => by
    with_reducible repeat' first | assumption | exact .refl | apply ownCmd_kept | intro _ | apply Kept.iteFst
    all_goals decide

theorem hlyCmdResult_frame (mctp reply) : TouchesOnly (.hlyCmdResult mctp reply) [.luff, .hly, .hst, .msix, .hostMem, .out] :=
  .of_done (fun _ => rfl) fun _ => by
    simp -zeta -iota -proj only [Machine.upd_hly_eq]
    with_reducible repeat' first
      | exact .refl | apply endMctp_kept | apply endMailbox_kept | apply Kept.set_hly | dsimp only | split
    all_goals decide

theorem hlyCmdNoMaster_frame (mctp) : TouchesOnly (.hlyCmdNoMaster mctp) [.luff, .hly, .hst, .msix, .hostMem, .out] :=
  .of_done (fun _ => rfl) fun _ => by
    with_reducible repeat' first | exact .refl | apply endMctp_kept | apply endMailbox_kept | dsimp only | split
    all_goals decide

/-! ### The planner -/

theorem plannerJobStart_frame : TouchesOnly .plannerJobStart [.time, .shr, .hly, .tkp, .slc, .ttl, .out] :=
  .of_done (fun _ => rfl) fun _ => by
    with_reducible repeat' first | apply withResult_kept | exact .refl | apply startJob_kept
    all_goals decide

theorem plannerRound_frame : TouchesOnly .plannerRound [.time, .shr, .luff, .hly, .tkp, .slc, .ttl, .out] :=
  .of_done (fun _ => rfl) fun _ => by
    with_reducible repeat' first | apply withResult_kept | exact .refl | apply plannerRound_kept
    all_goals decide

theorem plannerDeadline_frame : TouchesOnly .plannerDeadline [.time, .shr, .luff, .hly, .tkp, .slc, .ttl, .out] :=
  .of_done (fun _ => rfl) fun _ => by
    with_reducible repeat' first | apply withResult_kept | exact .refl | apply plannerDeadline_kept
    all_goals decide

theorem tkpDryrun_frame (src host) : TouchesOnly (.tkpDryrun src host) [.time, .shr, .hly, .tkp, .slc, .ttl, .acc, .hostMem, .out] :=
  .of_done (fun _ => rfl) fun _ => by
    with_reducible repeat' first | exact .refl | apply hostStores_kept | apply podCmd_kept
    all_goals decide

theorem tkpResvRead_frame (src) : TouchesOnly (.tkpResvRead src) [.time, .shr, .hly, .tkp, .slc, .ttl, .acc, .out] :=
  .of_done (fun _ => rfl) fun _ => by apply podCmd_kept .refl <;> decide

theorem tkpSlotsRead_frame (src) : TouchesOnly (.tkpSlotsRead src) [.time, .shr, .hly, .tkp, .slc, .ttl, .acc, .out] :=
  .of_done (fun _ => rfl) fun _ => by apply podCmd_kept .refl <;> decide

theorem tkpBiasSet_frame (src) : TouchesOnly (.tkpBiasSet src) [.time, .shr, .hly, .tkp, .slc, .ttl, .acc, .out] :=
  .of_done (fun _ => rfl) fun _ => by apply podCmd_kept .refl <;> decide

theorem tkpHeadroomSet_frame (src) : TouchesOnly (.tkpHeadroomSet src) [.time, .shr, .hly, .tkp, .slc, .ttl, .acc, .out] :=
  .of_done (fun _ => rfl) fun _ => by apply podCmd_kept .refl <;> decide

theorem tkpDeadlineSet_frame (src) : TouchesOnly (.tkpDeadlineSet src) [.time, .shr, .hly, .tkp, .slc, .ttl, .acc, .out] :=
  .of_done (fun _ => rfl) fun _ => by apply podCmd_kept .refl <;> decide

theorem tkpReplanAll_frame (src) : TouchesOnly (.tkpReplanAll src) [.time, .shr, .hly, .tkp, .slc, .ttl, .acc, .out] :=
  .of_done (fun _ => rfl) fun _ => by apply podCmd_kept .refl <;> decide

theorem tkpRampRead_frame (src) : TouchesOnly (.tkpRampRead src) [.time, .shr, .hly, .tkp, .slc, .ttl, .acc, .out] :=
  .of_done (fun _ => rfl) fun _ => by apply podCmd_kept .refl <;> decide

/-! ### Slices -/

theorem sliceCreate_frame (src host) :
    TouchesOnly (.sliceCreate src host) [.time, .shr, .hly, .tkp, .slc, .part, .ctx, .ttl, .acc, .hst, .msix, .hostMem, .out] :=
  .of_done (fun _ => rfl) fun _ => by
    with_reducible repeat' first
      | exact .refl | apply hostStores_kept | apply bindPart_kept | apply unbindPart_kept | apply podCmd_kept | split
    all_goals decide

theorem sliceDestroy_frame (src) : TouchesOnly (.sliceDestroy src) [.time, .shr, .hly, .tkp, .slc, .ttl, .acc, .out] :=
  .of_done (fun _ => rfl) fun _ => by apply podCmd_kept .refl <;> decide

theorem sliceQuery_frame (src) : TouchesOnly (.sliceQuery src) [.time, .shr, .hly, .tkp, .slc, .ttl, .acc, .out] :=
  .of_done (fun _ => rfl) fun _ => by apply podCmd_kept .refl <;> decide

theorem sliceList_frame (src) : TouchesOnly (.sliceList src) [.time, .shr, .hly, .tkp, .slc, .ttl, .acc, .out] :=
  .of_done (fun _ => rfl) fun _ => by apply podCmd_kept .refl <;> decide

theorem sliceLayout_frame (src) : TouchesOnly (.sliceLayout src) [.time, .shr, .hly, .tkp, .slc, .part, .ttl, .acc, .out] :=
  .of_done (fun _ => rfl) fun _ => by
    simp -zeta -iota -proj only [Machine.upd_part_eq]
    with_reducible repeat' first | exact .refl | apply podCmd_kept | apply Kept.set_part | split
    all_goals decide

theorem slicePeer_frame (src) : TouchesOnly (.slicePeer src) [.time, .shr, .hly, .tkp, .slc, .ttl, .acc, .out] :=
  .of_done (fun _ => rfl) fun _ => by apply podCmd_kept .refl <;> decide

theorem sliceReserve_frame (src host) : TouchesOnly (.sliceReserve src host) [.time, .shr, .hly, .tkp, .slc, .ttl, .acc, .hostMem, .out] :=
  .of_done (fun _ => rfl) fun _ => by
    with_reducible repeat' first | exact .refl | apply hostStores_kept | apply podCmd_kept
    all_goals decide

theorem sliceContextsFinal_frame (tag node) :
    TouchesOnly (.sliceContextsFinal tag node) [.time, .shr, .hbm, .hly, .tkp, .slc, .part, .ttl, .out] :=
  .of_done (fun _ => rfl) fun _ => by
    with_reducible repeat' first | exact .refl | apply contextsFinal_kept | apply serve_kept
    all_goals decide

theorem sliceScrubReport_frame (tag node failed) :
    TouchesOnly (.sliceScrubReport tag node failed) [.time, .shr, .hly, .tkp, .slc, .ttl, .out] :=
  .of_done (fun _ => rfl) fun _ => by
    with_reducible repeat' first | exact .refl | apply scrubReported_kept | apply serve_kept
    all_goals decide

theorem sliceEventReceive_frame (e) :
    TouchesOnly (.sliceEventReceive e) [.fwd, .txSeq, .coll, .tiles, .strm, .luff, .part, .ctx, .ttl, .reef, .hst, .msix, .hostMem, .out] :=
  .of_done (fun _ => rfl) fun _ => by
    with_reducible repeat' first
      | assumption | exact .refl | apply writeEvent_kept | apply markEvent_kept | apply modPart_kept
      | apply destroyPart_kept | apply reportFlows_kept | intro _ | apply Kept.foldl | split
    all_goals decide

/-! ### Contexts and partitions -/

theorem ctxCreate_frame : TouchesOnly .ctxCreate [.ctx, .ctxCmd, .ttl, .msix, .out] :=
  .of_done (fun _ => rfl) fun _ => .ite (by apply createContext_kept .refl <;> decide) .refl

theorem ctxDestroy_frame : TouchesOnly .ctxDestroy [.fwd, .txSeq, .coll, .tiles, .strm, .luff, .ctx, .ctxCmd, .reef, .msix, .out] :=
  .of_done (fun _ => rfl) fun _ => .ite (by apply destroyContext_kept .refl <;> decide) .refl

theorem contextScrubComplete_frame (c) : TouchesOnly (.contextScrubComplete c) [.tiles, .hbm, .luff, .ctx, .ctxCmd, .msix, .out] :=
  .of_done (fun _ => rfl) fun _ => .ite (by apply endDestroy_kept .refl <;> decide) .refl

theorem ctxFree_frame : TouchesOnly .ctxFree [.ctx, .ctxCmd, .msix, .out] :=
  .of_done (fun _ => rfl) fun _ => by
    with_reducible repeat' first | exact .refl | apply modBase_kept | apply ctxDone_kept | apply Kept.ite
    all_goals decide

theorem partitionScrubComplete_frame (n) :
    TouchesOnly (.partitionScrubComplete n) [.txn, .tiles, .hbm, .strm, .part, .ttl, .hst, .msix, .hostMem, .out] :=
  .of_done (fun _ => rfl) fun _ => .ite (by apply endScrub_kept .refl <;> decide) .refl

theorem scrubQuarantine_frame (n stack) : TouchesOnly (.scrubQuarantine n stack) [.part, .ttl, .hst, .msix, .hostMem, .out] :=
  .of_done (fun _ => rfl) fun _ => by
    with_reducible repeat' first
      | exact .refl | apply setPart_kept | apply raise_kept | apply localEvent_kept | apply tell_kept | apply Kept.ite
    all_goals decide

theorem minuteLatch_frame : TouchesOnly .minuteLatch [.ctx] :=
  .of_done (fun _ => rfl) fun _ => by
    with_reducible repeat' first | assumption | exact .refl | apply modBase_kept | intro _ | apply Kept.foldl
    all_goals decide

theorem ctxSnap_frame (c) : TouchesOnly (.ctxSnap c) [.ctx] :=
  .of_done (fun _ => rfl) fun _ => by apply snapContext_kept .refl; decide

theorem energyAttribute_frame (dieUj hbmUj otherUj) : TouchesOnly (.energyAttribute dieUj hbmUj otherUj) [.part, .ctx] :=
  .of_done (fun _ => rfl) fun _ => by
    with_reducible repeat' first
      | assumption | exact .refl | apply meterRunning_kept | apply chargeEnergy_kept | apply settleBallast_kept
      | apply unattributed_kept | intro _ | apply Kept.foldl
    all_goals decide

/-! ### Frames and flows -/

theorem frameForward_frame (d) : TouchesOnly (.frameForward d) [.shr, .fwd, .txSeq, .tiles, .strm, .hly, .part, .ttl, .out] :=
  .of_done (fun _ => rfl) fun _ => by
    with_reducible repeat' first | assumption | exact .refl | apply forwardNext_kept | apply landToken_kept | intro _
    all_goals decide

theorem frameAgeExpiry_frame (d) : TouchesOnly (.frameAgeExpiry d) [.shr, .fwd, .ttl, .out] :=
  .of_done (fun _ => rfl) fun _ => by apply ageAll_kept .refl <;> decide

theorem detourResend_frame (d) : TouchesOnly (.detourResend d) [.shr, .fwd, .txSeq, .tiles, .strm, .hly, .part, .ttl, .out] :=
  .of_done (fun _ => rfl) fun _ => by
    with_reducible repeat' first | assumption | exact .refl | apply detourAll_kept | apply landToken_kept | intro _
    all_goals decide

theorem filterRecordExpiry_frame (d src stream) : TouchesOnly (.filterRecordExpiry d src stream) [.fwd] :=
  .of_done (fun _ => rfl) fun _ => by apply filterExpire_kept .refl; decide

theorem reqReceive_frame (d) : TouchesOnly (.reqReceive d) [.fwd, .txSeq, .hbm, .strm, .ctx] :=
  .of_done (fun _ => rfl) fun _ => by
    with_reducible repeat' first
      | exact .refl | apply answer_kept | apply runReq_kept | refine takeInbox_kept .refl ‹_› ?_ | split
    all_goals decide

theorem reqAnswerDeadline_frame (src txn) : TouchesOnly (.reqAnswerDeadline src txn) [.fwd, .txSeq, .ttl] :=
  .of_done (fun _ => rfl) fun _ => by apply abortReqs_kept .refl <;> decide

theorem repReceive_frame (d) : TouchesOnly (.repReceive d) [.fwd, .txn, .hbm, .luff, .ctx, .ttl, .eng] :=
  .of_done (fun _ => rfl) fun _ => by
    with_reducible repeat' first
      | exact .refl | apply reqComplete_kept | apply modFwdCnt_kept | apply fwdRaise_kept
      | refine takeInbox_kept .refl ‹_› ?_ | apply Kept.ite | split
    all_goals decide

theorem reqExpired_frame (txn) : TouchesOnly (.reqExpired txn) [.txn, .hbm, .luff, .ctx, .eng] :=
  .of_done (fun _ => rfl) fun _ => by apply reqComplete_kept .refl <;> decide

theorem msgReceive_frame (d) : TouchesOnly (.msgReceive d) [.fwd, .hbm, .strm, .ctx, .ttl] :=
  .of_done (fun _ => rfl) fun _ => by
    with_reducible repeat' first | exact .refl | apply landMsg_kept | refine takeInbox_kept .refl ‹_› ?_ | split
    all_goals decide

theorem collFrameReceive_frame (d) : TouchesOnly (.collFrameReceive d) [.fwd, .txSeq, .coll, .tiles, .strm, .luff, .ctx, .ttl] :=
  .of_done (fun _ => rfl) fun _ => by
    with_reducible repeat' first | exact .refl | apply collFrame_kept | refine takeInbox_kept .refl ‹_› ?_ | split
    all_goals decide

theorem lateStepReport_frame (tag node cause stream gen) : TouchesOnly (.lateStepReport tag node cause stream gen) [.hly, .out] :=
  .of_done (fun _ => rfl) fun _ => by
    simp -zeta -iota -proj only [Machine.upd_hly_eq]
    with_reducible repeat' first | exact .refl | apply floodEvent_kept | apply Kept.set_hly | apply Kept.ite
    all_goals decide

theorem flowAbortReport_frame (tag stream gen) :
    TouchesOnly (.flowAbortReport tag stream gen) [.time, .shr, .hly, .tkp, .slc, .ttl, .out] :=
  .of_done (fun _ => rfl) fun _ => by
    with_reducible repeat' first | exact .refl | apply beginAbort_kept | apply serve_kept | apply Kept.ite
    all_goals decide

theorem flowAbortReceive_frame (tag stream gen) : TouchesOnly (.flowAbortReceive tag stream gen) [.fwd, .coll, .strm, .ctx, .ttl, .out] :=
  .of_done (fun _ => rfl) fun _ => by
    with_reducible repeat' first | exact .refl | apply takeFlowAbort_kept | apply tell_kept
    all_goals decide

theorem abortAckReceive_frame (tag stream node) : TouchesOnly (.abortAckReceive tag stream node) [.hly] :=
  .of_done (fun _ => rfl) fun _ => by
    with_reducible repeat' first | exact .refl | apply modAbort_kept | apply settleAbort_kept
    all_goals decide

theorem abortAckTimeout_frame (tag stream) : TouchesOnly (.abortAckTimeout tag stream) [.hly] :=
  .of_done (fun _ => rfl) fun _ => by
    with_reducible repeat' first | exact .refl | apply modAbort_kept
    all_goals decide

theorem flowResumeWait_frame (tag stream) : TouchesOnly (.flowResumeWait tag stream) [.hly, .out] :=
  .of_done (fun _ => rfl) fun _ => by
    with_reducible repeat' first
      | assumption | exact .refl | apply tell_kept | apply modAbort_kept | intro _ | apply Kept.foldl | split
    all_goals decide

theorem flowResumeReceive_frame (tag stream gen) : TouchesOnly (.flowResumeReceive tag stream gen) [.fwd, .txSeq, .strm] :=
  .of_done (fun _ => rfl) fun _ => .ite (by apply resumeStream_kept .refl <;> decide) .refl

/-! ### Images and steps -/

theorem bind_frame (c) : TouchesOnly (.bind c) [.fwd, .txSeq, .coll, .tiles, .strm, .ctx, .ttl, .msix, .out] :=
  .of_frames fun s => by
    change Frames _ s (execBind c s)
    unfold execBind
    dsimp only
    with_reducible repeat' first
      | exact .refl | apply Frames.done | apply modXc_kept | apply modBase_kept | apply loadImage_kept
      | apply bindStreams_kept | apply bindDone_kept | split
    all_goals decide

theorem unbind_frame (c) : TouchesOnly (.unbind c) [.fwd, .txSeq, .coll, .tiles, .strm, .luff, .ctx, .reef, .msix, .hostMem, .out] :=
  .of_frames fun s => by
    change Frames _ s (execUnbind c s)
    unfold execUnbind
    dsimp only
    with_reducible repeat' first
      | assumption | exact .refl | apply Frames.done | apply xcDone_kept | apply cancelStep_kept | apply modXc_kept
      | apply returnGates_kept | apply endStep_kept | apply finishUnbind_kept | intro _ | apply Kept.foldl | split
    all_goals decide

theorem restart_frame (c) : TouchesOnly (.restart c) [.tiles, .ctx, .ttl, .msix, .out] :=
  .of_frames fun s => by
    change Frames _ s (execRestart c s)
    unfold execRestart
    dsimp only
    with_reducible repeat' first
      | exact .refl | apply Frames.done | apply bindDone_kept | apply loadImage_kept | apply modXc_kept | split
    all_goals decide

theorem ctxXcArmLo_frame (c f value) : TouchesOnly (.ctxXcArmLo c f value) [.ctx, .acc] :=
  .of_done (fun _ => rfl) fun _ => pageWrite_kept .refl _ _ _ _ (fun _ h => by apply armLo_kept h; decide) (by decide)

theorem ctxXcArmHi_frame (c f value) : TouchesOnly (.ctxXcArmHi c f value) [.ctx, .acc] :=
  .of_done (fun _ => rfl) fun _ => pageWrite_kept .refl _ _ _ _ (fun _ h => by apply armHi_kept h; decide) (by decide)

theorem stepArm_frame (c) : TouchesOnly (.stepArm c) [.fwd, .txSeq, .coll, .tiles, .strm, .luff, .ctx, .reef] :=
  .of_frames fun s => by
    change Frames _ s (execStepArm c s)
    unfold execStepArm
    dsimp only
    with_reducible repeat' first
      | exact .refl | apply Frames.done | apply modXc_kept | apply takeGates_kept | apply reefArm_kept | split
    all_goals decide

theorem stepRelease_frame (c) : TouchesOnly (.stepRelease c) [.tiles, .ctx, .reef] :=
  .of_frames fun s => by
    change Frames _ s (execStepRelease c s)
    unfold execStepRelease
    dsimp only
    with_reducible repeat' first
      | assumption | exact .refl | apply Frames.done | apply modXc_kept | apply modTile_kept | apply reefRelease_kept
      | intro _ | apply Kept.foldl | split
    all_goals decide

theorem stepComplete_frame (c) :
    TouchesOnly (.stepComplete c) [.fwd, .txSeq, .coll, .tiles, .strm, .luff, .ctx, .ttl, .reef, .msix, .hostMem, .out] :=
  .of_frames fun s => by
    change Frames _ s (execStepComplete c s)
    unfold execStepComplete
    dsimp only
    with_reducible repeat' first
      | exact .refl | apply Frames.done | apply contain_kept | apply finishUnbind_kept | apply breach_kept
      | apply cqWrite_kept | apply stopTiles_kept | apply endStep_kept | apply modXc_kept | split
    all_goals decide

theorem contractViolation_frame (c) :
    TouchesOnly (.contractViolation c) [.fwd, .txSeq, .coll, .tiles, .strm, .luff, .ctx, .ttl, .reef, .msix, .hostMem, .out] :=
  .of_frames fun s => by
    change Frames _ s (execContractViolation c s)
    unfold execContractViolation
    dsimp only
    with_reducible repeat' first | exact .refl | apply Frames.done | apply contain_kept | apply finishUnbind_kept | split
    all_goals decide

/-! ### Tile instructions -/

theorem mma_frame (l) : TouchesOnly (.mma l) [.tiles, .luff, .ctx] :=
  .of_frames fun s => by
    change Frames _ s (execMma l s)
    unfold execMma
    dsimp only
    with_reducible repeat' first | exact .refl | apply Frames.done | apply modTile_kept | apply computeDone_kept | split
    all_goals decide

theorem drain_frame (l) : TouchesOnly (.drain l) [.tiles, .luff, .ctx] :=
  .of_frames fun s => by
    change Frames _ s (execDrain l s)
    unfold execDrain
    dsimp only
    with_reducible repeat' first
      | exact .refl | apply Frames.done | apply modTile_kept | apply storeWrite_kept | apply computeDone_kept | split
    all_goals decide

theorem vop_frame (l) : TouchesOnly (.vop l) [.tiles, .luff, .ctx] :=
  .of_frames fun s => by
    change Frames _ s (execVop l s)
    unfold execVop
    dsimp only
    with_reducible repeat' first | exact .refl | apply Frames.done | apply modTile_kept | apply computeDone_kept | split
    all_goals decide

theorem vcvt_frame (l) : TouchesOnly (.vcvt l) [.tiles, .luff, .ctx] :=
  .of_frames fun s => by
    change Frames _ s (execVcvt l s)
    unfold execVcvt
    dsimp only
    with_reducible repeat' first | exact .refl | apply Frames.done | apply modTile_kept | apply computeDone_kept | split
    all_goals decide

theorem vld_frame (l) : TouchesOnly (.vld l) [.tiles, .luff, .ctx] :=
  .of_frames fun s => by
    change Frames _ s (execVld l s)
    unfold execVld
    dsimp only
    with_reducible repeat' first | exact .refl | apply Frames.done | apply modTile_kept | apply computeDone_kept | split
    all_goals decide

theorem vst_frame (l) : TouchesOnly (.vst l) [.tiles, .luff, .ctx] :=
  .of_frames fun s => by
    change Frames _ s (execVst l s)
    unfold execVst
    dsimp only
    with_reducible repeat' first
      | exact .refl | apply Frames.done | apply modTile_kept | apply storeWrite_kept | apply computeDone_kept | split
    all_goals decide

theorem hrd_frame (l) : TouchesOnly (.hrd l) [.fwd, .txSeq, .coll, .tiles, .strm, .luff, .ctx] :=
  .of_frames fun s => by
    change Frames _ s (execHrd l s)
    unfold execHrd
    with_reducible repeat' first | exact .refl | apply Frames.done | apply issueLines_kept | split
    all_goals decide

theorem hwr_frame (l) : TouchesOnly (.hwr l) [.fwd, .txSeq, .coll, .tiles, .strm, .luff, .ctx] :=
  .of_frames fun s => by
    change Frames _ s (execHwr l s)
    unfold execHwr
    with_reducible repeat' first | exact .refl | apply Frames.done | apply issueLines_kept | split
    all_goals decide

theorem send_frame (l) : TouchesOnly (.send l) [.fwd, .txSeq, .coll, .tiles, .strm, .luff, .ctx] :=
  .of_frames fun s => by
    change Frames _ s (execSend l s)
    unfold execSend
    with_reducible repeat' first | exact .refl | apply Frames.done | apply issueTokens_kept | split
    all_goals decide

theorem recv_frame (l) : TouchesOnly (.recv l) [.fwd, .txSeq, .coll, .tiles, .strm, .luff, .ctx] :=
  .of_frames fun s => by
    change Frames _ s (execRecv l s)
    unfold execRecv
    with_reducible repeat' first | exact .refl | apply Frames.done | apply issueRecv_kept | split
    all_goals decide

theorem wait_frame (l) : TouchesOnly (.wait l) [.fwd, .txSeq, .coll, .tiles, .strm, .luff, .ctx] :=
  .of_frames fun s => by
    change Frames _ s (execWait l s)
    unfold execWait
    with_reducible repeat' first | exact .refl | apply Frames.done | apply waitIn_kept | apply settle_kept | split
    all_goals decide

theorem loop_frame (l) : TouchesOnly (.loop l) [.tiles] :=
  .of_frames fun s => by
    change Frames _ s (execLoop l s)
    unfold execLoop
    with_reducible repeat' first | exact .refl | apply Frames.done | apply modTile_kept | split
    all_goals decide

theorem tileEnd_frame (l) : TouchesOnly (.tileEnd l) [.fwd, .txSeq, .coll, .tiles, .strm, .luff, .ctx] :=
  .of_frames fun s => by
    change Frames _ s (execTileEnd l s)
    unfold execTileEnd
    with_reducible repeat' first | exact .refl | apply Frames.done | apply waitIn_kept | apply settle_kept | split
    all_goals decide

/-! ### Tile stores and HBM pages -/

theorem tileStoreUncorr_frame (l line corrected) : TouchesOnly (.tileStoreUncorr l line corrected) [.tiles, .ctx, .ttl] :=
  .of_done (fun _ => rfl) fun _ => by
    with_reducible repeat' first
      | exact .refl | apply raise_kept | apply raiseTile_kept | apply loseTile_kept | apply modTile_kept | apply Kept.ite
    all_goals decide

theorem tileRetire_frame (l) : TouchesOnly (.tileRetire l) [.tiles, .tileMap, .tilePhys, .hly, .tkp, .slc, .ttl, .out] :=
  .of_done (fun _ => rfl) fun _ => .ite (by apply retireTile_kept .refl <;> decide) .refl

theorem pageGrant_frame : TouchesOnly .pageGrant [.hbm, .part, .msix, .out] :=
  .of_done (fun _ => rfl) fun _ => by
    with_reducible repeat' first | exact .refl | apply pageDone_kept | apply setPages_kept | apply Kept.ite
    all_goals decide

theorem pageReturn_frame : TouchesOnly .pageReturn [.hbm, .part, .msix, .out] :=
  .of_done (fun _ => rfl) fun _ => by
    with_reducible repeat' first | exact .refl | apply pageDone_kept | apply setPages_kept | apply modPage_kept | apply Kept.ite
    all_goals decide

theorem pageScrubComplete_frame : TouchesOnly .pageScrubComplete [.hbm, .part, .msix, .out] :=
  .of_done (fun _ => rfl) fun _ => by
    with_reducible repeat' first | exact .refl | apply freePages_kept | apply pageDone_kept | apply Kept.ite
    all_goals decide

theorem hbmUncorrectable_frame (addr corrected) : TouchesOnly (.hbmUncorrectable addr corrected) [.tiles, .hbm, .ctx, .ttl] :=
  .of_frames fun s => by
    change Frames _ s (execHbmUncorrectable addr corrected s)
    unfold execHbmUncorrectable
    with_reducible repeat' first
      | exact .refl | apply Frames.done | exact Frames.fault | apply corrected_kept | apply uncorrectable_kept | split
    all_goals decide

/-! ### Streams -/

theorem streamOpen_frame (c) : TouchesOnly (.streamOpen c) [.fwd, .txSeq, .strm, .ctx, .msix, .out] :=
  .of_done (fun _ => rfl) fun _ => .ite (by apply openStream_kept .refl <;> decide) .refl

theorem streamClose_frame (c) : TouchesOnly (.streamClose c) [.strm, .ctx, .msix, .out] :=
  .of_done (fun _ => rfl) fun _ => by
    with_reducible repeat' first | exact .refl | apply stDone_kept | apply detect_kept | apply closeStream_kept | apply Kept.ite
    all_goals decide

theorem streamQuery_frame (c) : TouchesOnly (.streamQuery c) [.ctx, .msix, .out] :=
  .of_done (fun _ => rfl) fun _ => by
    with_reducible repeat' first | exact .refl | apply stDone_kept | apply modCtx_kept | apply Kept.ite
    all_goals decide

theorem streamHead_frame (c) : TouchesOnly (.streamHead c) [.strm, .ctx, .msix, .out] :=
  .of_done (fun _ => rfl) fun _ => by
    with_reducible repeat' first | exact .refl | apply stDone_kept | apply modStrm_kept | apply Kept.ite
    all_goals decide

theorem streamHelloReceive_frame : TouchesOnly .streamHelloReceive [.fwd, .txSeq, .strm] :=
  .of_done (fun _ => rfl) fun _ => by
    with_reducible repeat' first | exact .refl | apply takeHello_kept | refine takeMgmt_kept .refl ‹_› ?_ | split
    all_goals decide

theorem streamHelloRepeat_frame (n) : TouchesOnly (.streamHelloRepeat n) [.fwd, .txSeq] :=
  .of_done (fun _ => rfl) fun _ => .ite (by apply sendHello_kept .refl <;> decide) .refl

theorem streamCreditReceive_frame : TouchesOnly .streamCreditReceive [.fwd, .strm, .ttl] :=
  .of_done (fun _ => rfl) fun _ => by
    with_reducible repeat' first | exact .refl | apply takeCredit_kept | refine takeMgmt_kept .refl ‹_› ?_ | split
    all_goals decide

theorem streamCreditPeriodic_frame (n) : TouchesOnly (.streamCreditPeriodic n) [.fwd, .txSeq, .strm] :=
  .of_done (fun _ => rfl) fun _ => by apply offerCredit_kept .refl <;> decide

theorem streamClosingEnd_frame (n) : TouchesOnly (.streamClosingEnd n) [.strm] :=
  .of_done (fun _ => rfl) fun _ => .ite (by apply setStrm_kept .refl; decide) .refl

/-! ### The host links and windows -/

theorem hostLinkTrain_frame (n t) : TouchesOnly (.hostLinkTrain n t) [.ttl, .hst, .msix, .out] :=
  .of_done (fun _ => rfl) fun _ => by
    with_reducible repeat' first | exact .refl | apply modHlink_kept | apply raise_kept | apply Kept.ite
    all_goals decide

theorem h1LinkDown_frame : TouchesOnly .h1LinkDown [.txn, .luff, .ctx, .ttl, .hst, .msix, .hostMem, .out] :=
  .of_done (fun _ => rfl) fun _ => by
    with_reducible repeat' first
      | assumption | exact .refl | apply h1Lost_kept | apply hlinkDown_kept | intro _ | apply Kept.ite | apply Kept.foldl
    all_goals decide

theorem windowRead_frame (f offset length) : TouchesOnly (.windowRead f offset length) [.ctx, .ttl, .hst, .out] :=
  .of_done (fun _ => rfl) fun _ => by
    with_reducible repeat' first | exact .refl | apply emit_kept | apply deny_kept | apply Kept.ite
    all_goals decide

theorem windowWrite_frame (f offset data poisoned) : TouchesOnly (.windowWrite f offset data poisoned) [.hbm, .ctx, .ttl, .hst] :=
  .of_done (fun _ => rfl) fun _ => by
    with_reducible repeat' first
      | assumption | exact .refl | apply raise_kept | apply hbmWrite_kept | apply deny_kept | intro _ | apply Kept.foldl
      | split
    all_goals decide

theorem windowAtomic_frame (f offset) : TouchesOnly (.windowAtomic f offset) [.out] :=
  .of_done (fun _ => rfl) fun _ => .ite (by apply emit_kept .refl; decide) .refl

theorem watchEntrySet_frame (n lo) : TouchesOnly (.watchEntrySet n lo) [.ttl, .hst] :=
  .of_done (fun _ => rfl) fun _ => by apply setWatch_kept .refl <;> decide

theorem watchSnoop_frame (n host) : TouchesOnly (.watchSnoop n host) [.ctx, .ttl, .acc, .hostMem] :=
  .of_done (fun _ => rfl) fun _ => by
    with_reducible repeat' first
      | assumption | exact .refl | apply hostStores_kept | apply pageWrite_kept | apply doorbell_kept | intro _ | split
    all_goals decide

theorem vfFlr_frame (n) : TouchesOnly (.vfFlr n) [.fwd, .txSeq, .coll, .tiles, .strm, .luff, .ctx, .reef, .msix, .out] :=
  .of_done (fun _ => rfl) fun _ => by
    with_reducible repeat' first | exact .refl | apply resetMsix_kept | apply modCtx_kept | apply orderReset_kept | split
    all_goals decide

theorem pfFlr_frame (e) : TouchesOnly (.pfFlr e) [.fwd, .txSeq, .coll, .tiles, .strm, .luff, .ctx, .ttl, .reef, .hst, .msix, .out] :=
  .of_done (fun _ => rfl) fun _ => by
    simp -zeta -iota -proj only [Machine.upd_hst_eq]
    with_reducible repeat' first
      | assumption | exact .refl | apply loseVfs_kept | apply orderReset_kept | apply resetMsix_kept | apply hlinkDown_kept
      | apply Kept.set_hst | intro _ | apply Kept.ite | apply Kept.foldl
    all_goals decide

theorem vfEnableClear_frame (enable numVfs) :
    TouchesOnly (.vfEnableClear enable numVfs) [.fwd, .txSeq, .coll, .tiles, .strm, .luff, .ctx, .ttl, .reef, .hst, .out] :=
  .of_done (fun _ => rfl) fun _ => by
    simp -zeta -iota -proj only [Machine.upd_hst_eq]
    with_reducible repeat' first | exact .refl | apply loseVfs_kept | apply Kept.set_hst
    all_goals decide

theorem hostReadTimeout_frame (r) : TouchesOnly (.hostReadTimeout r) [.txn, .luff, .ctx, .ttl, .msix, .hostMem, .out] :=
  .of_done (fun _ => rfl) fun _ => by
    with_reducible repeat' first
      | exact .refl | apply takeCommand_kept | apply raise_kept | apply ceStop_kept | apply ceFinish_kept | split
    all_goals decide

theorem flushReadComplete_frame (c q) : TouchesOnly (.flushReadComplete c q) [.txn, .luff, .ctx, .ttl, .msix, .hostMem, .out] :=
  .of_done (fun _ => rfl) fun _ => by
    with_reducible repeat' first | exact .refl | apply ceFinish_kept | split
    all_goals decide

/-! ### Copy engines -/

theorem ceQueueEnable_frame (c q f cfg) : TouchesOnly (.ceQueueEnable c q f cfg) [.ctx, .ttl, .acc] :=
  .of_done (fun _ => rfl) fun _ => pageWrite_kept .refl _ _ _ _ (fun _ h => .ite (by apply enableQueue_kept h <;> decide) h) (by decide)

theorem ceQueueDisable_frame (c q f) : TouchesOnly (.ceQueueDisable c q f) [.ctx, .acc] :=
  .of_done (fun _ => rfl) fun _ => pageWrite_kept .refl _ _ _ _ (fun _ h => by apply disableQueue_kept h; decide) (by decide)

theorem ceQueueResume_frame (c q f) : TouchesOnly (.ceQueueResume c q f) [.ctx, .acc] :=
  .of_done (fun _ => rfl) fun _ => pageWrite_kept .refl _ _ _ _ (fun _ h => by apply resumeQueue_kept h; decide) (by decide)

theorem ceDoorbell_frame (c q f pi) : TouchesOnly (.ceDoorbell c q f pi) [.ctx, .ttl, .acc] :=
  .of_done (fun _ => rfl) fun _ => pageWrite_kept .refl _ _ _ _ (fun _ h => by apply doorbell_kept h <;> decide) (by decide)

theorem ceCommandFetch_frame (c q host) : TouchesOnly (.ceCommandFetch c q host) [.strm, .ctx, .hostMem] :=
  .of_done (fun _ => rfl) fun _ => by
    with_reducible repeat' first | exact .refl | apply hostStores_kept | apply refuseSend_kept | apply takeCommand_kept | split
    all_goals decide

theorem copy_frame (c q) : TouchesOnly (.copy c q) [.fwd, .txSeq, .txn, .hbm, .strm, .luff, .ctx, .eng, .hostMem] :=
  .of_done (fun _ => rfl) fun _ => by apply beginOp_kept .refl <;> decide

theorem fill_frame (c q) : TouchesOnly (.fill c q) [.fwd, .txSeq, .txn, .hbm, .strm, .luff, .ctx, .eng, .hostMem] :=
  .of_done (fun _ => rfl) fun _ => by apply beginOp_kept .refl <;> decide

theorem flagOnly_frame (c q) : TouchesOnly (.flagOnly c q) [.ctx] :=
  .of_done (fun _ => rfl) fun _ => by
    with_reducible repeat' first | exact .refl | apply modCmd_kept | split
    all_goals decide

theorem msg_frame (c q) : TouchesOnly (.msg c q) [.fwd, .txSeq, .txn, .hbm, .strm, .luff, .ctx, .eng, .hostMem] :=
  .of_done (fun _ => rfl) fun _ => by apply beginOp_kept .refl <;> decide

theorem reqWrite_frame (c q) : TouchesOnly (.reqWrite c q) [.fwd, .txSeq, .txn, .hbm, .strm, .luff, .ctx, .eng, .hostMem] :=
  .of_done (fun _ => rfl) fun _ => by apply beginOp_kept .refl <;> decide

theorem reqRead_frame (c q) : TouchesOnly (.reqRead c q) [.fwd, .txSeq, .txn, .hbm, .strm, .luff, .ctx, .eng, .hostMem] :=
  .of_done (fun _ => rfl) fun _ => by apply beginOp_kept .refl <;> decide

theorem reqFetchAdd_frame (c q) : TouchesOnly (.reqFetchAdd c q) [.fwd, .txSeq, .txn, .hbm, .strm, .luff, .ctx, .eng, .hostMem] :=
  .of_done (fun _ => rfl) fun _ => by apply beginOp_kept .refl <;> decide

theorem reqSignal_frame (c q) : TouchesOnly (.reqSignal c q) [.fwd, .txSeq, .txn, .hbm, .strm, .luff, .ctx, .eng, .hostMem] :=
  .of_done (fun _ => rfl) fun _ => by apply beginOp_kept .refl <;> decide

theorem ceSegment_frame (e host) : TouchesOnly (.ceSegment e host) [.fwd, .txSeq, .txn, .hbm, .strm, .luff, .ctx, .eng, .hostMem] :=
  .of_done (fun _ => rfl) fun _ => by
    with_reducible repeat' first | exact .refl | apply hostStores_kept | apply serveSegment_kept | split
    all_goals decide

theorem ceCommandComplete_frame (c q) : TouchesOnly (.ceCommandComplete c q) [.txn, .luff, .ctx, .ttl, .hst, .msix, .hostMem, .out] :=
  .of_done (fun _ => rfl) fun _ => by apply ceComplete_kept .refl <;> decide

/-! ### Power control -/

theorem reefMeasure_frame (dieW otherW) : TouchesOnly (.reefMeasure dieW otherW) [.tiles, .luff, .part, .ctx, .reef, .out] :=
  .of_done (fun _ => rfl) fun _ => by apply reefMicro_kept .refl <;> decide

theorem capLoop_frame : TouchesOnly .capLoop [.ttl, .reef] :=
  .of_done (fun _ => rfl) fun _ => by apply capStep_kept .refl <;> decide

theorem contractIdle_frame (d) : TouchesOnly (.contractIdle d) [.reef] :=
  .of_done (fun _ => rfl) fun _ => .ite .refl (by apply modRdie_kept .refl; decide)

theorem vrFault_frame (d) : TouchesOnly (.vrFault d) [.ttl, .reef] :=
  .of_done (fun _ => rfl) fun _ => by
    with_reducible repeat' first | exact .refl | apply modRdie_kept | apply raise_kept | apply Kept.ite
    all_goals decide

theorem rampWindowOpen_frame (n) : TouchesOnly (.rampWindowOpen n) [.reef] :=
  .of_done (fun _ => rfl) fun _ => by
    with_reducible repeat' first | exact .refl | apply modRpart_kept | apply beginPreRamp_kept | apply Kept.ite
    all_goals decide

theorem rampWindowClose_frame (n) : TouchesOnly (.rampWindowClose n) [.reef] :=
  .of_done (fun _ => rfl) fun _ => .ite (by apply modRpart_kept .refl; decide) .refl

theorem preRampComplete_frame (n) : TouchesOnly (.preRampComplete n) [.reef] :=
  .of_done (fun _ => rfl) fun _ => .ite (by apply modRpart_kept .refl; decide) .refl

theorem riseExcess_frame (n) : TouchesOnly (.riseExcess n) [.ttl, .reef] :=
  .of_done (fun _ => rfl) fun _ => by
    with_reducible repeat' first | exact .refl | apply modReef_kept | apply raiseCtx_kept | apply raise_kept | split
    all_goals decide

theorem ballastHold_frame : TouchesOnly .ballastHold [.ttl, .reef] :=
  .of_done (fun _ => rfl) fun _ => by
    with_reducible repeat' first | exact .refl | apply modReef_kept | apply raise_kept | apply Kept.ite
    all_goals decide

theorem ballastHoldEnd_frame : TouchesOnly .ballastHoldEnd [.reef] :=
  .of_done (fun _ => rfl) fun _ => .ite (by apply modReef_kept .refl; decide) .refl

theorem trayReport_frame (h body) : TouchesOnly (.trayReport h body) [.reef, .card, .out] :=
  .of_done (fun _ => rfl) fun _ => by
    with_reducible repeat' first
      | assumption | exact .refl | apply vendor_kept | apply answerMctp_kept | apply takeReport_kept | intro _
      | apply Kept.ite
    all_goals decide

theorem facilityStale_frame : TouchesOnly .facilityStale [.ttl, .reef] :=
  .of_done (fun _ => rfl) fun _ => by
    with_reducible repeat' first | exact .refl | apply modReef_kept | apply raise_kept | apply Kept.ite
    all_goals decide

theorem facilityFallback_frame : TouchesOnly .facilityFallback [.reef] :=
  .of_done (fun _ => rfl) fun _ => by
    with_reducible repeat' first | exact .refl | apply modReef_kept | apply Kept.ite
    all_goals decide

theorem notice_frame (h cause) : TouchesOnly (.notice h cause) [.reef, .card, .out] :=
  .of_done (fun _ => rfl) fun _ => by
    with_reducible repeat' first
      | assumption | exact .refl | apply vendor_kept | apply answerMctp_kept | apply modReef_kept | intro _ | apply Kept.ite
    all_goals decide

/-! ### Telltale -/

theorem ttlRound_frame : TouchesOnly .ttlRound [.ttl, .msix, .out] :=
  .of_done (fun _ => rfl) fun _ => by apply ttlRound_kept .refl <;> decide

theorem promotionWindowExpiry_frame (n) : TouchesOnly (.promotionWindowExpiry n) [.ttl] :=
  .of_done (fun _ => rfl) fun _ => by apply modSrc_kept .refl; decide

theorem reactionQuietExpiry_frame (slot) : TouchesOnly (.reactionQuietExpiry slot) [.ttl, .msix, .out] :=
  .of_done (fun _ => rfl) fun _ => by apply endReaction_kept .refl <;> decide

theorem faultNLowEnd_frame : TouchesOnly .faultNLowEnd [.ttl] :=
  .of_done (fun _ => rfl) fun _ => by
    with_reducible repeat' first | exact .refl | apply modTtl_kept | apply pinRelease_kept | apply Kept.ite
    all_goals decide

theorem ttlPinHoldWrite_frame (hold) : TouchesOnly (.ttlPinHoldWrite hold) [.ttl] :=
  .of_done (fun _ => rfl) fun _ => by apply writeHold_kept .refl; decide

theorem ttlForce_frame (source) : TouchesOnly (.ttlForce source) [.ttl] :=
  .of_done (fun _ => rfl) fun _ => by apply force_kept .refl; decide

theorem ttlFirstClear_frame (w mask) : TouchesOnly (.ttlFirstClear w mask) [.ttl] :=
  .of_done (fun _ => rfl) fun _ => by apply clearFirst_kept .refl; decide

/-! ### Hangs and resets -/

theorem luffTileExpiry_frame (l) : TouchesOnly (.luffTileExpiry l) [.tiles, .luff, .ctx, .ttl] :=
  .of_done (fun _ => rfl) fun _ => by
    with_reducible repeat' first
      | exact .refl | apply expire_kept | apply raiseTile_kept | apply loseTile_kept | apply modTile_kept | apply Kept.ite
    all_goals decide

theorem tileSelfTestDone_frame (l pass) : TouchesOnly (.tileSelfTestDone l pass) [.tiles, .ttl] :=
  .of_done (fun _ => rfl) fun _ => by
    with_reducible repeat' first | exact .refl | apply modTile_kept | apply raise_kept | apply Kept.ite
    all_goals decide

theorem luffCeExpiry_frame (e reset) : TouchesOnly (.luffCeExpiry e reset) [.txn, .luff, .ctx, .ttl, .eng, .msix, .hostMem, .out] :=
  .of_done (fun _ => rfl) fun _ => by
    with_reducible repeat' first
      | exact .refl | apply expire_kept | apply raiseCtx_kept | apply modQueue_kept | apply ceFinish_kept
      | apply modEngine_kept | apply failEngine_kept | split
    all_goals decide

theorem luffLinkExpiry_frame (p) : TouchesOnly (.luffLinkExpiry p) [.time, .shr, .fwd, .luff, .hly, .tkp, .slc, .ttl, .out] :=
  .of_done (fun _ => rfl) fun _ => by
    with_reducible repeat' first | exact .refl | apply expire_kept | apply raise_kept | apply hardLoss_kept | apply Kept.ite
    all_goals decide

theorem luffCollExpiry_frame (k) : TouchesOnly (.luffCollExpiry k) [.luff, .ttl, .out] :=
  .of_done (fun _ => rfl) fun _ => by
    with_reducible repeat' first
      | exact .refl | apply expire_kept | apply raiseCtx_kept | apply modLuff_kept | apply reportFlow_kept | split
    all_goals decide

theorem collUnitReset_frame (n ok) : TouchesOnly (.collUnitReset n ok) [.collFailed, .luff] :=
  .of_done (fun _ => rfl) fun _ => .ite (.ite (by apply modLuff_kept .refl; decide) (by apply failUnit_kept .refl <;> decide)) .refl

theorem luffHlyExpiry_frame (t) : TouchesOnly (.luffHlyExpiry t) [.luff, .hly, .ttl, .out] :=
  .of_done (fun _ => rfl) fun _ => by
    with_reducible repeat' first | exact .refl | apply expire_kept | apply raise_kept | apply restartHalyard_kept
    all_goals decide

theorem inStreamStall_frame (n) : TouchesOnly (.inStreamStall n) [.luff, .ttl, .out] :=
  .of_done (fun _ => rfl) fun _ => by
    with_reducible repeat' first | exact .refl | apply raiseCtx_kept | apply modLuff_kept | apply reportFlow_kept | apply Kept.ite
    all_goals decide

theorem contextReset_frame (c) : TouchesOnly (.contextReset c) [.fwd, .txSeq, .coll, .tiles, .strm, .luff, .ctx, .reef, .out] :=
  .of_done (fun _ => rfl) fun _ => by apply beginContextReset_kept .refl <;> decide

theorem partitionReset_frame (n) : TouchesOnly (.partitionReset n) [.fwd, .txSeq, .coll, .tiles, .strm, .luff, .ctx, .ttl, .reef, .out] :=
  .of_done (fun _ => rfl) fun _ => by apply beginPartitionReset_kept .refl <;> decide

theorem packageReset_frame :
    TouchesOnly .packageReset [.corner, .shr, .fwd, .txSeq, .coll, .tiles, .hbm, .strm, .luff, .part, .ctx, .ttl, .reef, .eng, .out] :=
  .of_done (fun _ => rfl) fun _ => by apply beginPackageReset_kept .refl <;> decide

theorem fenceDrainEnd_frame (d dumpOk) :
    TouchesOnly (.fenceDrainEnd d dumpOk) [.boot, .fwd, .txSeq, .txn, .coll, .collFailed, .tiles, .hbm, .strm, .luff, .hly, .tkp, .slc,
      .part, .ctx, .ttl, .flash, .free, .out] :=
  .of_done (fun _ => rfl) fun _ => by
    with_reducible repeat' first | exact .refl | apply endDrain_kept | split
    all_goals decide

theorem packageResetComplete_frame :
    TouchesOnly .packageResetComplete [.fwd, .txSeq, .txn, .coll, .tiles, .strm, .luff, .part, .ctx, .ctxCmd, .ttl, .msix, .out] :=
  .of_done (fun _ => rfl) fun _ => by
    with_reducible repeat' first | exact .refl | apply endPackageReset_kept | split
    all_goals decide

theorem rungTimeout_frame (r) : TouchesOnly (.rungTimeout r) [.txn, .collFailed, .tiles, .luff, .ctx, .ttl, .eng] :=
  .of_done (fun _ => rfl) fun _ => by apply rungOver_kept .refl <;> decide

theorem genLateDrop_frame : TouchesOnly .genLateDrop [.luff, .ttl] :=
  .of_done (fun _ => rfl) fun _ => by
    with_reducible repeat' first | exact .refl | apply modLuff_kept | apply raise_kept | apply Kept.ite
    all_goals decide

theorem dumpRearm_frame : TouchesOnly .dumpRearm [.hbm, .luff] :=
  .of_done (fun _ => rfl) fun _ => by apply dumpRearm_kept .refl <;> decide

/-! ### The flash device and the bundle broadcast -/

theorem flashRead_frame (h off len devOk) : TouchesOnly (.flashRead h off len devOk) [.card, .out] :=
  .of_done (fun _ => rfl) fun _ => by
    with_reducible repeat' first | assumption | exact .refl | apply vendor_kept | apply answerMctp_kept | intro _ | apply Kept.ite
    all_goals decide

theorem flashErase_frame (h off size devOk) : TouchesOnly (.flashErase h off size devOk) [.ttl, .flash, .card, .free, .out] :=
  .of_done (fun _ => rfl) fun _ => by
    with_reducible repeat' first
      | assumption | exact .refl | apply vendor_kept | apply answerMctp_kept | apply flashRefuse_kept
      | apply flashClear_kept | apply flashSpoil_kept | intro _ | apply Kept.ite | split
    all_goals decide

theorem flashWrite_frame (h off data devOk) : TouchesOnly (.flashWrite h off data devOk) [.ttl, .flash, .card, .free, .out] :=
  .of_done (fun _ => rfl) fun _ => by
    with_reducible repeat' first
      | assumption | exact .refl | apply vendor_kept | apply answerMctp_kept | apply flashRefuse_kept
      | apply flashProgram_kept | apply flashSpoil_kept | intro _ | apply Kept.ite
    all_goals decide

theorem bcastOffer_frame (b) : TouchesOnly (.bcastOffer b) [.boot, .out] :=
  .of_done (fun _ => rfl) fun _ => by
    with_reducible repeat' first | exact .refl | apply takeOffer_kept | apply tellAll_kept | apply Kept.ite
    all_goals decide

theorem bcastFrag_frame (h data) : TouchesOnly (.bcastFrag h data) [.boot, .hly, .ttl, .flash, .out] :=
  .of_done (fun _ => rfl) fun _ => by apply takeFrag_kept .refl <;> decide

theorem bcastEnd_frame (tag) : TouchesOnly (.bcastEnd tag) [.boot, .out] :=
  .of_done (fun _ => rfl) fun _ => by
    with_reducible repeat' first | exact .refl | apply tellAll_kept | apply modBcast_kept | apply Kept.ite
    all_goals decide

theorem bcastNack_frame (node tag ranges) : TouchesOnly (.bcastNack node tag ranges) [.out] :=
  .of_done (fun _ => rfl) fun _ => by
    with_reducible repeat' first
      | assumption | exact .refl | apply offerLate_kept | apply sendChunk_kept | intro _ | apply Kept.ite | apply Kept.foldl
    all_goals decide

theorem bcastNackTimer_frame : TouchesOnly .bcastNackTimer [.boot, .out] :=
  .of_done (fun _ => rfl) fun _ => by
    with_reducible repeat' first | exact .refl | apply sendNack_kept | apply tell_kept | split
    all_goals decide

theorem bcastDone_frame (node tag) : TouchesOnly (.bcastDone node tag) [.boot, .out] :=
  .of_done (fun _ => rfl) fun _ => by
    with_reducible repeat' first | exact .refl | apply modBcast_kept | apply reportDone_kept | apply Kept.ite
    all_goals decide

theorem bcastHave_frame (node tag version) : TouchesOnly (.bcastHave node tag version) [.boot, .out] :=
  .of_done (fun _ => rfl) fun _ => by
    with_reducible repeat' first | exact .refl | apply modBcast_kept | apply fetchAdvert_kept | apply Kept.ite
    all_goals decide

theorem bcastTimeout_frame : TouchesOnly .bcastTimeout [.boot, .hly, .ttl, .flash, .out] :=
  .of_done (fun _ => rfl) fun _ => by
    with_reducible repeat' first
      | exact .refl | apply raise_kept | apply takeBundle_kept | apply bundleSettle_kept | apply reportDone_kept
      | apply modBcast_kept | apply sendNack_kept | apply Kept.ite | split
    all_goals decide

/-! ### Farnis: sites and their power -/

theorem busbarRise_frame (ids hostEid t) : TouchesOnly (.busbarRise ids hostEid t) [.far, .out] :=
  .of_done (fun _ => rfl) fun _ => .ite .refl (by apply startTray_kept .refl <;> decide)

theorem sitePowerOn_frame (s1 t) : TouchesOnly (.sitePowerOn s1 t) [.far] :=
  .of_done (fun _ => rfl) fun _ => by
    with_reducible repeat' first | exact .refl | apply beginOn_kept | apply modFar_kept | split
    all_goals decide

theorem railGood_frame (s1 t) : TouchesOnly (.railGood s1 t) [.far, .out] :=
  .of_done (fun _ => rfl) fun _ => by
    with_reducible repeat' first | exact .refl | apply modSite_kept | apply farLog_kept | apply Kept.ite
    all_goals decide

theorem railFail_frame (s1 t) : TouchesOnly (.railFail s1 t) (Area.lostAnd [.far, .scan, .out]) :=
  .of_done (fun _ => rfl) fun _ => by
    with_reducible repeat' first | exact .refl | apply farLog_kept | apply beginOff_kept | apply Kept.ite
    all_goals decide

theorem powerOffNotice_frame (s1) : TouchesOnly (.powerOffNotice s1) [.far, .out] :=
  .of_done (fun _ => rfl) fun _ => by
    with_reducible repeat' first | exact .refl | apply toSite_kept | apply modSite_kept | split
    all_goals decide

theorem ready_frame (s1) : TouchesOnly (.ready s1) (Area.lostAnd [.far, .scan, .out]) :=
  .of_done (fun _ => rfl) fun _ => by
    with_reducible repeat' first | exact .refl | apply toSite_kept | apply beginOff_kept | split
    all_goals decide

theorem noticeLimitExpiry_frame (s1) : TouchesOnly (.noticeLimitExpiry s1) (Area.lostAnd [.far, .scan]) :=
  .of_done (fun _ => rfl) fun _ => by
    with_reducible repeat' first | exact .refl | apply beginOff_kept | split
    all_goals decide

theorem powerOffGroupFall_frame (s1 t) : TouchesOnly (.powerOffGroupFall s1 t) [.far, .out] :=
  .of_done (fun _ => rfl) fun _ => .ite .refl (.ite (by apply modSite_kept .refl; decide) (by apply endOff_kept .refl <;> decide))

theorem offTimeExpiry_frame (s1) : TouchesOnly (.offTimeExpiry s1) [.far] :=
  .of_done (fun _ => rfl) fun _ => by
    with_reducible repeat' first | exact .refl | apply beginOn_kept | apply modSite_kept | split
    all_goals decide

/-! ### Farnis: faults, the shelf and the facility -/

theorem faultNEdge_frame (s1) : TouchesOnly (.faultNEdge s1) [.far, .out] :=
  .of_done (fun _ => rfl) fun _ => by
    with_reducible repeat' first | exact .refl | apply modSite_kept | apply modFar_kept | apply readFault_kept | apply Kept.ite
    all_goals decide

theorem faultReadReply_frame (s1 pin slot low t) : TouchesOnly (.faultReadReply s1 pin slot low t) (Area.lostAnd [.far, .scan, .out]) :=
  .of_done (fun _ => rfl) fun _ => by
    with_reducible repeat' first
      | exact .refl | apply modSite_kept | apply farLog_kept | apply takeOver_kept | apply autoCycle_kept | apply Kept.ite
    all_goals decide

theorem faultReadRetry_frame (s1 t) : TouchesOnly (.faultReadRetry s1 t) (Area.lostAnd [.far, .scan, .out]) :=
  .of_done (fun _ => rfl) fun _ => by
    with_reducible repeat' first | exact .refl | apply modSite_kept | apply autoCycle_kept | apply readFault_kept | apply Kept.ite
    all_goals decide

theorem pinAlert_frame (s1) : TouchesOnly (.pinAlert s1) [.out] :=
  .of_done (fun _ => rfl) fun _ => .ite (by apply emit_kept .refl; decide) .refl

theorem shelfPoll_frame (modules batt soc) : TouchesOnly (.shelfPoll modules batt soc) [.far] :=
  .of_done (fun _ => rfl) fun _ => .ite .refl (by apply modFar_kept .refl; decide)

theorem cduPoll_frame (r) : TouchesOnly (.cduPoll r) [.far] :=
  .of_done (fun _ => rfl) fun _ => .ite .refl (by apply modFar_kept .refl; decide)

theorem coolantLimit_frame (t) : TouchesOnly (.coolantLimit t) (Area.lostAnd [.far, .scan, .out]) :=
  .of_done (fun _ => rfl) fun _ => by
    with_reducible repeat' first
      | assumption | exact .refl | exact Area.volatile_lost _ | apply takeOver_kept | apply facilityLog_kept | intro _
      | apply Kept.ite | apply Kept.foldl
    all_goals decide

theorem busbarSag_frame (t) : TouchesOnly (.busbarSag t) (Area.lostAnd [.far, .scan, .out]) :=
  .of_done (fun _ => rfl) fun _ => by
    with_reducible repeat' first
      | assumption | exact .refl | exact Area.volatile_lost _ | apply takeOver_kept | apply facilityLog_kept
      | apply modFar_kept | intro _ | apply Kept.ite | apply Kept.foldl
    all_goals decide

theorem busbarReturn_frame (t) : TouchesOnly (.busbarReturn t) [.far, .out] :=
  .of_done (fun _ => rfl) fun _ => by
    with_reducible repeat' first | exact .refl | apply facilityLog_kept | apply modFar_kept | apply queueOn_kept | apply Kept.ite
    all_goals decide

theorem cduStaleAlert_frame (t) : TouchesOnly (.cduStaleAlert t) [.far, .out] :=
  .of_done (fun _ => rfl) fun _ => by
    with_reducible repeat' first | exact .refl | apply emit_kept | apply facilityLog_kept | apply Kept.ite
    all_goals decide

theorem trayReportSend_frame : TouchesOnly .trayReportSend [.far, .out] :=
  .of_done (fun _ => rfl) fun _ => by
    with_reducible repeat' first
      | assumption | exact .refl | apply toSite_kept | apply modFar_kept | intro _ | apply Kept.ite | apply Kept.foldl
    all_goals decide

theorem crashSummary_frame (s1 w t) : TouchesOnly (.crashSummary s1 w t) [.far, .out] :=
  .of_done (fun _ => rfl) fun _ => by
    with_reducible repeat' first | exact .refl | apply farLog_kept | apply toSite_kept | apply Kept.ite
    all_goals decide

/-! ### Farnis: management -/

theorem measure_frame (s1 digests tag t) : TouchesOnly (.measure s1 digests tag t) [.far, .out] :=
  .of_done (fun _ => rfl) fun _ => by
    with_reducible repeat' first | exact .refl | apply modSite_kept | apply farLog_kept | apply toSite_kept | apply Kept.ite
    all_goals decide

theorem componentIntegrity_frame (s1 nonce) : TouchesOnly (.componentIntegrity s1 nonce) [.free, .out] :=
  .of_done (fun _ => rfl) fun _ => .ite (emit_kept (freeBytes_kept .refl 96 (by decide)) _ (by decide)) .refl

theorem resetOn_frame (s1 t) : TouchesOnly (.resetOn s1 t) [.far, .out] :=
  .of_done (fun _ => rfl) fun _ => by
    with_reducible repeat' first | exact .refl | apply reply_kept | apply queueOn_kept | apply modSite_kept | split
    all_goals decide

theorem resetForceOff_frame (s1) : TouchesOnly (.resetForceOff s1) (Area.lostAnd [.far, .scan, .out]) :=
  .of_done (fun _ => rfl) fun _ => by apply requestOff_kept .refl <;> decide

theorem resetGracefulShutdown_frame (s1) : TouchesOnly (.resetGracefulShutdown s1) (Area.lostAnd [.far, .scan, .out]) :=
  .of_done (fun _ => rfl) fun _ => by apply requestOff_kept .refl <;> decide

theorem resetPowerCycle_frame (s1) : TouchesOnly (.resetPowerCycle s1) (Area.lostAnd [.far, .scan, .out]) :=
  .of_done (fun _ => rfl) fun _ => by apply requestCycle_kept .refl <;> decide

theorem resetForceRestart_frame (s1) : TouchesOnly (.resetForceRestart s1) (Area.lostAnd [.far, .scan, .out]) :=
  .of_done (fun _ => rfl) fun _ => by apply requestCycle_kept .refl <;> decide

theorem redfishGet_frame (r measured) : TouchesOnly (.redfishGet r measured) [.out] :=
  .of_done (fun _ => rfl) fun _ => .ite (by apply emit_kept .refl; decide) .refl

theorem pldmSensorRead_frame (q measured) : TouchesOnly (.pldmSensorRead q measured) [.out] :=
  .of_done (fun _ => rfl) fun _ => .ite (by apply emit_kept .refl; decide) .refl

theorem pldmFirmwareUpdate_frame (site image copyB devOk t) :
    TouchesOnly (.pldmFirmwareUpdate site image copyB devOk t) [.ttl, .flash, .far, .free, .out] :=
  .of_done (fun _ => rfl) fun _ => by
    with_reducible repeat' first | exact .refl | apply modFar_kept | apply siteUpdate_kept | split
    all_goals decide

theorem flashUpdate_frame (s1 image copyB devOk t) : TouchesOnly (.flashUpdate s1 image copyB devOk t) [.ttl, .flash, .far, .free, .out] :=
  .of_done (fun _ => rfl) fun _ => .ite (by apply siteUpdate_kept .refl <;> decide) .refl

theorem farnisRestart_frame (t) : TouchesOnly (.farnisRestart t) [.far, .out] :=
  .of_done (fun _ => rfl) fun _ => by
    with_reducible repeat' first
      | assumption | exact .refl | apply farLog_kept | apply modFar_kept | apply modSite_kept | apply readFault_kept
      | intro _ | apply Kept.ite | apply Kept.foldl
    all_goals decide

theorem farnisSettingWrite_frame (w t) : TouchesOnly (.farnisSettingWrite w t) [.far, .out] :=
  .of_done (fun _ => rfl) fun _ => by
    with_reducible repeat' first | exact .refl | apply configLog_kept | apply modFar_kept | apply reply_kept | split
    all_goals decide

theorem scanEnter_frame (s1) : TouchesOnly (.scanEnter s1) [.far, .out] :=
  .of_done (fun _ => rfl) fun _ => by
    with_reducible repeat' first | exact .refl | apply modSite_kept | apply reply_kept | apply Kept.ite
    all_goals decide

theorem scanExit_frame (s1) : TouchesOnly (.scanExit s1) (Area.lostAnd [.far, .scan, .out]) :=
  .of_done (fun _ => rfl) fun _ => by
    with_reducible repeat' first | exact .refl | apply beginOff_kept | apply reply_kept | apply Kept.ite
    all_goals decide

/-! ### Registers -/

theorem regRead_frame (h off count) : TouchesOnly (.regRead h off count) [.time, .card, .out] :=
  .of_done (fun _ => rfl) fun _ => by
    with_reducible repeat' first
      | assumption | exact .refl | apply vendor_kept | apply answerMctp_kept | apply farnisWords_kept | intro _
      | apply Kept.ite
    all_goals decide

theorem regWrite_frame (h off value) :
    TouchesOnly (.regWrite h off value) [.boot, .corner, .shr, .hbm, .luff, .hly, .part, .ctx, .ctxCmd, .ttl, .acc, .reef, .hst, .msix,
      .hostMem, .flash, .card, .out] :=
  .of_done (fun _ => rfl) fun _ => by
    with_reducible repeat' first
      | assumption | exact .refl | apply vendor_kept | apply accErr_kept | apply answerMctp_kept | apply regWrite_kept
      | apply accessed_kept | intro _ | apply Kept.ite
    all_goals decide

theorem hlyCmd_frame (h opcode seq args) : TouchesOnly (.hlyCmd h opcode seq args) [.hly, .card, .out] :=
  .of_done (fun _ => rfl) fun _ => by
    simp -zeta -iota -proj only [Machine.upd_hly_eq]
    with_reducible repeat' first
      | assumption | exact .refl | apply vendor_kept | apply answerMctp_kept | apply Kept.set_hly | intro _ | apply Kept.ite
    all_goals decide

theorem dbRead_frame (h off len) : TouchesOnly (.dbRead h off len) [.card, .out] :=
  .of_done (fun _ => rfl) fun _ => by
    with_reducible repeat' first | assumption | exact .refl | apply vendor_kept | apply answerMctp_kept | intro _ | apply Kept.ite
    all_goals decide

theorem registerWrite_frame (f off a) :
    TouchesOnly (.registerWrite f off a) [.boot, .time, .corner, .shr, .hbm, .luff, .hly, .part, .ctx, .ctxCmd, .ttl, .acc, .reef, .hst,
      .msix, .hostMem, .flash, .out] :=
  .of_done (fun _ => rfl) fun _ => by
    with_reducible repeat' first
      | exact .refl | apply emit_kept | apply bar0Read_kept | apply bar0Write_kept | apply h1Read_kept | split
    all_goals decide

/-! ### Boundary scan -/

theorem extest_frame (s1 d) : TouchesOnly (.extest s1 d) [.scan, .out] :=
  .of_done (fun _ => rfl) fun _ => by apply scanLoad_kept .refl <;> decide

theorem idcode_frame (s1 d) : TouchesOnly (.idcode s1 d) [.scan, .out] :=
  .of_done (fun _ => rfl) fun _ => by
    with_reducible repeat' first | exact .refl | apply scanLoad_kept | apply emit_kept | apply Kept.ite
    all_goals decide

theorem samplePreload_frame (s1 d) : TouchesOnly (.samplePreload s1 d) [.scan, .out] :=
  .of_done (fun _ => rfl) fun _ => by apply scanLoad_kept .refl <;> decide

theorem extestPulse_frame (s1 d) : TouchesOnly (.extestPulse s1 d) [.scan, .out] :=
  .of_done (fun _ => rfl) fun _ => by apply scanLoad_kept .refl <;> decide

theorem extestTrain_frame (s1 d) : TouchesOnly (.extestTrain s1 d) [.scan, .out] :=
  .of_done (fun _ => rfl) fun _ => by apply scanLoad_kept .refl <;> decide

theorem highz_frame (s1 d) : TouchesOnly (.highz s1 d) [.scan, .out] :=
  .of_done (fun _ => rfl) fun _ => by apply scanLoad_kept .refl <;> decide

theorem bypass_frame (s1 d) : TouchesOnly (.bypass s1 d) [.scan, .out] :=
  .of_done (fun _ => rfl) fun _ => by apply scanLoad_kept .refl <;> decide

theorem scanExtChange_frame (level trstLow) : TouchesOnly (.scanExtChange level trstLow) [.scan] :=
  .of_done (fun _ => rfl) fun _ => by
    simp -zeta -iota -proj only [Machine.upd_scan_eq]
    with_reducible repeat' first | exact .refl | apply Kept.set_scan
    all_goals decide

/-! ### The card and the rows that follow it in the table -/

theorem slot12vFall_frame : TouchesOnly .slot12vFall (Area.lostAnd [.scan, .card]) :=
  .of_done (fun _ => rfl) fun _ => by
    simp -zeta -iota -proj only [Machine.upd_card_eq]
    with_reducible repeat' first | exact .refl | apply powerLost_kept | apply Kept.set_card | apply Kept.ite
    all_goals decide

theorem cardC4PowerOff_frame : TouchesOnly .cardC4PowerOff (Area.lostAnd [.scan, .card]) :=
  .of_done (fun _ => rfl) fun _ => by
    simp -zeta -iota -proj only [Machine.upd_card_eq]
    with_reducible repeat' first | exact .refl | apply powerLost_kept | apply Kept.set_card | apply Kept.ite
    all_goals decide

theorem epochPrepareGuard_frame : TouchesOnly .epochPrepareGuard [.time, .shr, .hly, .tkp, .slc, .ttl, .out] :=
  .of_done (fun _ => rfl) fun _ => by
    with_reducible repeat' first
      | exact .refl | apply extraDone_kept | apply modWork_kept | apply advance_kept | apply serve_kept | apply Kept.ite
    all_goals decide

theorem slotStart_frame (p) : TouchesOnly (.slotStart p) [.shr, .out] :=
  .of_done (fun _ => rfl) fun _ => by apply pump_kept .refl <;> decide

theorem hbmLineComplete_frame (l k) : TouchesOnly (.hbmLineComplete l k) [.fwd, .txSeq, .coll, .tiles, .hbm, .strm, .luff, .ctx] :=
  .of_done (fun _ => rfl) fun _ => by apply completeLine_kept .refl <;> decide

theorem tokenAcknowledge_frame (c ch) : TouchesOnly (.tokenAcknowledge c ch) [.fwd, .txSeq, .coll, .tiles, .strm, .luff, .ctx] :=
  .of_done (fun _ => rfl) fun _ => by apply ackToken_kept .refl <;> decide

theorem domainResetEnd_frame (d) : TouchesOnly (.domainResetEnd d) [.fwd, .txSeq, .txn, .coll, .tiles, .strm, .luff, .ctx, .ttl] :=
  .of_done (fun _ => rfl) fun _ => by
    with_reducible repeat' first | exact .refl | apply endReset_kept | split
    all_goals decide

theorem beaconReceive_frame (node counts) : TouchesOnly (.beaconReceive node counts) [.luff, .out] :=
  .of_done (fun _ => rfl) fun _ => by
    with_reducible repeat' first | exact .refl | apply tellKids_kept | apply tell_kept | apply hlyItem_kept | apply Kept.ite
    all_goals decide

theorem standbyReplicate_frame (seq r) : TouchesOnly (.standbyReplicate seq r) [.hly, .out] :=
  .of_done (fun _ => rfl) fun _ => by
    simp -zeta -iota -proj only [Machine.upd_hly_eq]
    with_reducible repeat' first | exact .refl | apply modHly_kept | apply tell_kept | apply Kept.set_hly | apply Kept.ite
    all_goals decide

theorem generationDeltaReceive_frame (h nodes links) :
    TouchesOnly (.generationDeltaReceive h nodes links) [.boot, .time, .luff, .hly, .tkp, .slc, .ttl, .flash, .out] :=
  .of_done (fun _ => rfl) fun _ => by
    with_reducible repeat' first
      | exact .refl | apply elect_kept | apply tell_kept | apply takeDelta_kept | apply bootSettle_kept
      | apply takePrepare_kept | apply Kept.ite | split
    all_goals decide

theorem helloStop_frame (node) : TouchesOnly (.helloStop node) [.hly] :=
  .of_done (fun _ => rfl) fun _ => .ite (.ite (by apply submit_kept .refl; decide) (by apply modDb_kept .refl; decide)) .refl

theorem rampLimitForward_frame (node r) : TouchesOnly (.rampLimitForward node r) [.hly, .tkp, .reef, .out] :=
  .of_done (fun _ => rfl) fun _ => by
    simp -zeta -iota -proj only [Machine.upd_tkp_eq]
    with_reducible repeat' first
      | exact .refl | apply raiseRate_kept | apply replicate_kept | apply modReef_kept | apply rampNews_kept
      | apply Kept.set_tkp | apply Kept.ite | split
    all_goals decide

theorem trayFaultHoldExpiry_frame (low) : TouchesOnly (.trayFaultHoldExpiry low) [.far] :=
  .of_done (fun _ => rfl) fun _ => .ite .refl (by apply modFar_kept .refl; decide)

theorem slot12vRise_frame (aux) : TouchesOnly (.slot12vRise aux) [.card] :=
  .of_done (fun _ => rfl) fun _ => by
    simp -zeta -iota -proj only [Machine.upd_card_eq]
    with_reducible repeat' first | exact .refl | apply Kept.set_card | apply Kept.ite
    all_goals decide

theorem extTrstNFall_frame : TouchesOnly .extTrstNFall [.scan] :=
  .of_done (fun _ => rfl) fun _ => Kept.set_scan .refl (by decide)

/-! ### The straps and the fuses -/

/-- A command whose frame holds neither the straps nor the fuses leaves both. -/
theorem TouchesOnly.identity {c : Instr} {W : List Area} {s t : State} (h : TouchesOnly c W) (ht : exec c s = .next t)
    (hp : Area.pins ∉ W := by decide) (hf : Area.fuse ∉ W := by decide) : t.m.pins = s.m.pins ∧ t.m.fuse = s.m.fuse :=
  ⟨(h s t ht).pins hp, (h s t ht).fuse hf⟩

/-- No command's frame holds the straps or the fuses. -/
theorem exec_identity {c : Instr} {s t : State} (ht : exec c s = .next t) : t.m.pins = s.m.pins ∧ t.m.fuse = s.m.fuse := by
  cases c with
  | powerGood => exact powerGood_frame.identity ht
  | idRead => exact (idRead_frame _ _ _).identity ht
  | bootStepEnter => exact (bootStepEnter_frame _ _).identity ht
  | bootStepLimit => exact (bootStepLimit_frame _).identity ht
  | trainDeadline => exact trainDeadline_frame.identity ht
  | bootAltClr => exact bootAltClr_frame.identity ht
  | portDetectSignal => exact (portDetectSignal_frame _).identity ht
  | portSyncLock => exact (portSyncLock_frame _ _).identity ht
  | portSyncTimeout => exact (portSyncTimeout_frame _).identity ht
  | portDeskewDone => exact (portDeskewDone_frame _ _).identity ht
  | portDeskewTimeout => exact (portDeskewTimeout_frame _).identity ht
  | ts2Receive => exact (ts2Receive_frame _ _).identity ht
  | portExchangeTimeout => exact (portExchangeTimeout_frame _).identity ht
  | portEqualiseDone => exact (portEqualiseDone_frame _ _).identity ht
  | portVerifyDone => exact (portVerifyDone_frame _ _ _ _).identity ht
  | trainingSignalLoss => exact (trainingSignalLoss_frame _).identity ht
  | holdoffExpiry => exact (holdoffExpiry_frame _ _).identity ht
  | portDownSignalReturn => exact (portDownSignalReturn_frame _ _).identity ht
  | laneLockLoss => exact (laneLockLoss_frame _ _).identity ht
  | fecThreshold => exact (fecThreshold_frame _ _ _).identity ht
  | retrainReqRepeat => exact (retrainReqRepeat_frame _).identity ht
  | retrainReqReceive => exact (retrainReqReceive_frame _ _).identity ht
  | retrainComplete => exact (retrainComplete_frame _ _ _).identity ht
  | retrainTimeout => exact (retrainTimeout_frame _).identity ht
  | envelopeReceive => exact (envelopeReceive_frame _ _ _ _ _).identity ht
  | ackReceive => exact (ackReceive_frame _ _).identity ht
  | nakReceive => exact (nakReceive_frame _ _).identity ht
  | nakRepeat => exact (nakRepeat_frame _).identity ht
  | replayTimeout => exact (replayTimeout_frame _).identity ht
  | creditReceive => exact (creditReceive_frame _ _).identity ht
  | goingDownReceive => exact (goingDownReceive_frame _ _).identity ht
  | linkSignalLoss => exact (linkSignalLoss_frame _).identity ht
  | fullTrainReceive => exact (fullTrainReceive_frame _ _).identity ht
  | stayFail => exact (stayFail_frame _ _ _).identity ht
  | shrCntClr => exact (shrCntClr_frame _).identity ht
  | syncExchange => exact (syncExchange_frame _ _).identity ht
  | parentLinkFail => exact parentLinkFail_frame.identity ht
  | holdoverExpiry => exact holdoverExpiry_frame.identity ht
  | parentNamed => exact (parentNamed_frame _ _).identity ht
  | refclkLoss => exact refclkLoss_frame.identity ht
  | refclkReturn => exact refclkReturn_frame.identity ht
  | timeNowLoRead => exact (timeNowLoRead_frame _).identity ht
  | uvMonitorTrip => exact (uvMonitorTrip_frame _).identity ht
  | uvMonitorClear => exact (uvMonitorClear_frame _).identity ht
  | otMonitorTrip => exact (otMonitorTrip_frame _).identity ht
  | otMonitorClear => exact (otMonitorClear_frame _).identity ht
  | thermalHoldStart => exact (thermalHoldStart_frame _).identity ht
  | thermalHoldEnd => exact (thermalHoldEnd_frame _).identity ht
  | thermalTrip => exact (thermalTrip_frame _).identity ht
  | helloSend => exact (helloSend_frame _).identity ht
  | helloReceive => exact (helloReceive_frame _ _).identity ht
  | linkStateRecordReceive => exact (linkStateRecordReceive_frame _ _).identity ht
  | discoverySettle => exact discoverySettle_frame.identity ht
  | masterAnnounceReceive => exact (masterAnnounceReceive_frame _).identity ht
  | standbyAckReceive => exact (standbyAckReceive_frame _).identity ht
  | beaconSend => exact beaconSend_frame.identity ht
  | beaconCountReceive => exact (beaconCountReceive_frame _).identity ht
  | componentJoin => exact (componentJoin_frame _ _ _).identity ht
  | beaconTimeout => exact (beaconTimeout_frame _).identity ht
  | holdDownExpiry => exact (holdDownExpiry_frame _).identity ht
  | packageAbsent => exact (packageAbsent_frame _).identity ht
  | epochCollectClose => exact epochCollectClose_frame.identity ht
  | epochPrepareReceive => exact (epochPrepareReceive_frame _).identity ht
  | epochReadyReceive => exact (epochReadyReceive_frame _ _).identity ht
  | epochCommitReceive => exact (epochCommitReceive_frame _ _).identity ht
  | epochSwitch => exact epochSwitch_frame.identity ht
  | oldBankRelease => exact oldBankRelease_frame.identity ht
  | epochReadyTimeout => exact (epochReadyTimeout_frame _).identity ht
  | epochAbortReceive => exact (epochAbortReceive_frame _).identity ht
  | halyardRestartTimeout => exact halyardRestartTimeout_frame.identity ht
  | topoRead => exact (topoRead_frame _).identity ht
  | portDisable => exact (portDisable_frame _).identity ht
  | portEnable => exact (portEnable_frame _ _).identity ht
  | portFullTrain => exact (portFullTrain_frame _ _).identity ht
  | portTestRetrain => exact (portTestRetrain_frame _).identity ht
  | epochQuery => exact (epochQuery_frame _).identity ht
  | masterHandover => exact (masterHandover_frame _).identity ht
  | masterConfirm => exact (masterConfirm_frame _).identity ht
  | packageDrain => exact (packageDrain_frame _).identity ht
  | packageRestore => exact (packageRestore_frame _).identity ht
  | rigWrite => exact (rigWrite_frame _).identity ht
  | rigRead => exact (rigRead_frame _).identity ht
  | hlyCmdResult => exact (hlyCmdResult_frame _ _).identity ht
  | hlyCmdNoMaster => exact (hlyCmdNoMaster_frame _).identity ht
  | plannerJobStart => exact plannerJobStart_frame.identity ht
  | plannerRound => exact plannerRound_frame.identity ht
  | plannerDeadline => exact plannerDeadline_frame.identity ht
  | tkpDryrun => exact (tkpDryrun_frame _ _).identity ht
  | tkpResvRead => exact (tkpResvRead_frame _).identity ht
  | tkpSlotsRead => exact (tkpSlotsRead_frame _).identity ht
  | tkpBiasSet => exact (tkpBiasSet_frame _).identity ht
  | tkpHeadroomSet => exact (tkpHeadroomSet_frame _).identity ht
  | tkpDeadlineSet => exact (tkpDeadlineSet_frame _).identity ht
  | tkpReplanAll => exact (tkpReplanAll_frame _).identity ht
  | tkpRampRead => exact (tkpRampRead_frame _).identity ht
  | sliceCreate => exact (sliceCreate_frame _ _).identity ht
  | sliceDestroy => exact (sliceDestroy_frame _).identity ht
  | sliceQuery => exact (sliceQuery_frame _).identity ht
  | sliceList => exact (sliceList_frame _).identity ht
  | sliceLayout => exact (sliceLayout_frame _).identity ht
  | slicePeer => exact (slicePeer_frame _).identity ht
  | sliceReserve => exact (sliceReserve_frame _ _).identity ht
  | sliceContextsFinal => exact (sliceContextsFinal_frame _ _).identity ht
  | sliceScrubReport => exact (sliceScrubReport_frame _ _ _).identity ht
  | sliceEventReceive => exact (sliceEventReceive_frame _).identity ht
  | ctxCreate => exact ctxCreate_frame.identity ht
  | ctxDestroy => exact ctxDestroy_frame.identity ht
  | contextScrubComplete => exact (contextScrubComplete_frame _).identity ht
  | ctxFree => exact ctxFree_frame.identity ht
  | partitionScrubComplete => exact (partitionScrubComplete_frame _).identity ht
  | scrubQuarantine => exact (scrubQuarantine_frame _ _).identity ht
  | minuteLatch => exact minuteLatch_frame.identity ht
  | ctxSnap => exact (ctxSnap_frame _).identity ht
  | energyAttribute => exact (energyAttribute_frame _ _ _).identity ht
  | frameForward => exact (frameForward_frame _).identity ht
  | frameAgeExpiry => exact (frameAgeExpiry_frame _).identity ht
  | detourResend => exact (detourResend_frame _).identity ht
  | filterRecordExpiry => exact (filterRecordExpiry_frame _ _ _).identity ht
  | reqReceive => exact (reqReceive_frame _).identity ht
  | reqAnswerDeadline => exact (reqAnswerDeadline_frame _ _).identity ht
  | repReceive => exact (repReceive_frame _).identity ht
  | reqExpired => exact (reqExpired_frame _).identity ht
  | msgReceive => exact (msgReceive_frame _).identity ht
  | collFrameReceive => exact (collFrameReceive_frame _).identity ht
  | lateStepReport => exact (lateStepReport_frame _ _ _ _ _).identity ht
  | flowAbortReport => exact (flowAbortReport_frame _ _ _).identity ht
  | flowAbortReceive => exact (flowAbortReceive_frame _ _ _).identity ht
  | abortAckReceive => exact (abortAckReceive_frame _ _ _).identity ht
  | abortAckTimeout => exact (abortAckTimeout_frame _ _).identity ht
  | flowResumeWait => exact (flowResumeWait_frame _ _).identity ht
  | flowResumeReceive => exact (flowResumeReceive_frame _ _ _).identity ht
  | bind => exact (bind_frame _).identity ht
  | unbind => exact (unbind_frame _).identity ht
  | restart => exact (restart_frame _).identity ht
  | ctxXcArmLo => exact (ctxXcArmLo_frame _ _ _).identity ht
  | ctxXcArmHi => exact (ctxXcArmHi_frame _ _ _).identity ht
  | stepArm => exact (stepArm_frame _).identity ht
  | stepRelease => exact (stepRelease_frame _).identity ht
  | stepComplete => exact (stepComplete_frame _).identity ht
  | contractViolation => exact (contractViolation_frame _).identity ht
  | mma => exact (mma_frame _).identity ht
  | drain => exact (drain_frame _).identity ht
  | vop => exact (vop_frame _).identity ht
  | vcvt => exact (vcvt_frame _).identity ht
  | vld => exact (vld_frame _).identity ht
  | vst => exact (vst_frame _).identity ht
  | hrd => exact (hrd_frame _).identity ht
  | hwr => exact (hwr_frame _).identity ht
  | send => exact (send_frame _).identity ht
  | recv => exact (recv_frame _).identity ht
  | wait => exact (wait_frame _).identity ht
  | loop => exact (loop_frame _).identity ht
  | tileEnd => exact (tileEnd_frame _).identity ht
  | tileStoreUncorr => exact (tileStoreUncorr_frame _ _ _).identity ht
  | tileRetire => exact (tileRetire_frame _).identity ht
  | pageGrant => exact pageGrant_frame.identity ht
  | pageReturn => exact pageReturn_frame.identity ht
  | pageScrubComplete => exact pageScrubComplete_frame.identity ht
  | hbmUncorrectable => exact (hbmUncorrectable_frame _ _).identity ht
  | streamOpen => exact (streamOpen_frame _).identity ht
  | streamClose => exact (streamClose_frame _).identity ht
  | streamQuery => exact (streamQuery_frame _).identity ht
  | streamHead => exact (streamHead_frame _).identity ht
  | streamHelloReceive => exact streamHelloReceive_frame.identity ht
  | streamHelloRepeat => exact (streamHelloRepeat_frame _).identity ht
  | streamCreditReceive => exact streamCreditReceive_frame.identity ht
  | streamCreditPeriodic => exact (streamCreditPeriodic_frame _).identity ht
  | streamClosingEnd => exact (streamClosingEnd_frame _).identity ht
  | hostLinkTrain => exact (hostLinkTrain_frame _ _).identity ht
  | h1LinkDown => exact h1LinkDown_frame.identity ht
  | windowRead => exact (windowRead_frame _ _ _).identity ht
  | windowWrite => exact (windowWrite_frame _ _ _ _).identity ht
  | windowAtomic => exact (windowAtomic_frame _ _).identity ht
  | watchEntrySet => exact (watchEntrySet_frame _ _).identity ht
  | watchSnoop => exact (watchSnoop_frame _ _).identity ht
  | vfFlr => exact (vfFlr_frame _).identity ht
  | pfFlr => exact (pfFlr_frame _).identity ht
  | vfEnableClear => exact (vfEnableClear_frame _ _).identity ht
  | hostReadTimeout => exact (hostReadTimeout_frame _).identity ht
  | flushReadComplete => exact (flushReadComplete_frame _ _).identity ht
  | ceQueueEnable => exact (ceQueueEnable_frame _ _ _ _).identity ht
  | ceQueueDisable => exact (ceQueueDisable_frame _ _ _).identity ht
  | ceQueueResume => exact (ceQueueResume_frame _ _ _).identity ht
  | ceDoorbell => exact (ceDoorbell_frame _ _ _ _).identity ht
  | ceCommandFetch => exact (ceCommandFetch_frame _ _ _).identity ht
  | copy => exact (copy_frame _ _).identity ht
  | fill => exact (fill_frame _ _).identity ht
  | flagOnly => exact (flagOnly_frame _ _).identity ht
  | msg => exact (msg_frame _ _).identity ht
  | reqWrite => exact (reqWrite_frame _ _).identity ht
  | reqRead => exact (reqRead_frame _ _).identity ht
  | reqFetchAdd => exact (reqFetchAdd_frame _ _).identity ht
  | reqSignal => exact (reqSignal_frame _ _).identity ht
  | ceSegment => exact (ceSegment_frame _ _).identity ht
  | ceCommandComplete => exact (ceCommandComplete_frame _ _).identity ht
  | reefMeasure => exact (reefMeasure_frame _ _).identity ht
  | capLoop => exact capLoop_frame.identity ht
  | contractIdle => exact (contractIdle_frame _).identity ht
  | vrFault => exact (vrFault_frame _).identity ht
  | rampWindowOpen => exact (rampWindowOpen_frame _).identity ht
  | rampWindowClose => exact (rampWindowClose_frame _).identity ht
  | preRampComplete => exact (preRampComplete_frame _).identity ht
  | riseExcess => exact (riseExcess_frame _).identity ht
  | ballastHold => exact ballastHold_frame.identity ht
  | ballastHoldEnd => exact ballastHoldEnd_frame.identity ht
  | trayReport => exact (trayReport_frame _ _).identity ht
  | facilityStale => exact facilityStale_frame.identity ht
  | facilityFallback => exact facilityFallback_frame.identity ht
  | notice => exact (notice_frame _ _).identity ht
  | ttlRound => exact ttlRound_frame.identity ht
  | promotionWindowExpiry => exact (promotionWindowExpiry_frame _).identity ht
  | reactionQuietExpiry => exact (reactionQuietExpiry_frame _).identity ht
  | faultNLowEnd => exact faultNLowEnd_frame.identity ht
  | ttlPinHoldWrite => exact (ttlPinHoldWrite_frame _).identity ht
  | ttlForce => exact (ttlForce_frame _).identity ht
  | ttlFirstClear => exact (ttlFirstClear_frame _ _).identity ht
  | luffTileExpiry => exact (luffTileExpiry_frame _).identity ht
  | tileSelfTestDone => exact (tileSelfTestDone_frame _ _).identity ht
  | luffCeExpiry => exact (luffCeExpiry_frame _ _).identity ht
  | luffLinkExpiry => exact (luffLinkExpiry_frame _).identity ht
  | luffCollExpiry => exact (luffCollExpiry_frame _).identity ht
  | collUnitReset => exact (collUnitReset_frame _ _).identity ht
  | luffHlyExpiry => exact (luffHlyExpiry_frame _).identity ht
  | inStreamStall => exact (inStreamStall_frame _).identity ht
  | contextReset => exact (contextReset_frame _).identity ht
  | partitionReset => exact (partitionReset_frame _).identity ht
  | packageReset => exact packageReset_frame.identity ht
  | fenceDrainEnd => exact (fenceDrainEnd_frame _ _).identity ht
  | packageResetComplete => exact packageResetComplete_frame.identity ht
  | rungTimeout => exact (rungTimeout_frame _).identity ht
  | genLateDrop => exact genLateDrop_frame.identity ht
  | dumpRearm => exact dumpRearm_frame.identity ht
  | flashRead => exact (flashRead_frame _ _ _ _).identity ht
  | flashErase => exact (flashErase_frame _ _ _ _).identity ht
  | flashWrite => exact (flashWrite_frame _ _ _ _).identity ht
  | bcastOffer => exact (bcastOffer_frame _).identity ht
  | bcastFrag => exact (bcastFrag_frame _ _).identity ht
  | bcastEnd => exact (bcastEnd_frame _).identity ht
  | bcastNack => exact (bcastNack_frame _ _ _).identity ht
  | bcastNackTimer => exact bcastNackTimer_frame.identity ht
  | bcastDone => exact (bcastDone_frame _ _).identity ht
  | bcastHave => exact (bcastHave_frame _ _ _).identity ht
  | bcastTimeout => exact bcastTimeout_frame.identity ht
  | busbarRise => exact (busbarRise_frame _ _ _).identity ht
  | sitePowerOn => exact (sitePowerOn_frame _ _).identity ht
  | railGood => exact (railGood_frame _ _).identity ht
  | railFail => exact (railFail_frame _ _).identity ht
  | powerOffNotice => exact (powerOffNotice_frame _).identity ht
  | ready => exact (ready_frame _).identity ht
  | noticeLimitExpiry => exact (noticeLimitExpiry_frame _).identity ht
  | powerOffGroupFall => exact (powerOffGroupFall_frame _ _).identity ht
  | offTimeExpiry => exact (offTimeExpiry_frame _).identity ht
  | faultNEdge => exact (faultNEdge_frame _).identity ht
  | faultReadReply => exact (faultReadReply_frame _ _ _ _ _).identity ht
  | faultReadRetry => exact (faultReadRetry_frame _ _).identity ht
  | pinAlert => exact (pinAlert_frame _).identity ht
  | shelfPoll => exact (shelfPoll_frame _ _ _).identity ht
  | cduPoll => exact (cduPoll_frame _).identity ht
  | coolantLimit => exact (coolantLimit_frame _).identity ht
  | busbarSag => exact (busbarSag_frame _).identity ht
  | busbarReturn => exact (busbarReturn_frame _).identity ht
  | cduStaleAlert => exact (cduStaleAlert_frame _).identity ht
  | trayReportSend => exact trayReportSend_frame.identity ht
  | crashSummary => exact (crashSummary_frame _ _ _).identity ht
  | measure => exact (measure_frame _ _ _ _).identity ht
  | componentIntegrity => exact (componentIntegrity_frame _ _).identity ht
  | resetOn => exact (resetOn_frame _ _).identity ht
  | resetForceOff => exact (resetForceOff_frame _).identity ht
  | resetGracefulShutdown => exact (resetGracefulShutdown_frame _).identity ht
  | resetPowerCycle => exact (resetPowerCycle_frame _).identity ht
  | resetForceRestart => exact (resetForceRestart_frame _).identity ht
  | redfishGet => exact (redfishGet_frame _ _).identity ht
  | pldmSensorRead => exact (pldmSensorRead_frame _ _).identity ht
  | pldmFirmwareUpdate => exact (pldmFirmwareUpdate_frame _ _ _ _ _).identity ht
  | flashUpdate => exact (flashUpdate_frame _ _ _ _ _).identity ht
  | farnisRestart => exact (farnisRestart_frame _).identity ht
  | farnisSettingWrite => exact (farnisSettingWrite_frame _ _).identity ht
  | scanEnter => exact (scanEnter_frame _).identity ht
  | scanExit => exact (scanExit_frame _).identity ht
  | regRead => exact (regRead_frame _ _ _).identity ht
  | regWrite => exact (regWrite_frame _ _ _).identity ht
  | hlyCmd => exact (hlyCmd_frame _ _ _ _).identity ht
  | dbRead => exact (dbRead_frame _ _ _).identity ht
  | registerWrite => exact (registerWrite_frame _ _ _).identity ht
  | extest => exact (extest_frame _ _).identity ht
  | idcode => exact (idcode_frame _ _).identity ht
  | samplePreload => exact (samplePreload_frame _ _).identity ht
  | extestPulse => exact (extestPulse_frame _ _).identity ht
  | extestTrain => exact (extestTrain_frame _ _).identity ht
  | highz => exact (highz_frame _ _).identity ht
  | bypass => exact (bypass_frame _ _).identity ht
  | scanExtChange => exact (scanExtChange_frame _ _).identity ht
  | slot12vFall => exact slot12vFall_frame.identity ht
  | cardC4PowerOff => exact cardC4PowerOff_frame.identity ht
  | epochPrepareGuard => exact epochPrepareGuard_frame.identity ht
  | slotStart => exact (slotStart_frame _).identity ht
  | hbmLineComplete => exact (hbmLineComplete_frame _ _).identity ht
  | tokenAcknowledge => exact (tokenAcknowledge_frame _ _).identity ht
  | domainResetEnd => exact (domainResetEnd_frame _).identity ht
  | beaconReceive => exact (beaconReceive_frame _ _).identity ht
  | standbyReplicate => exact (standbyReplicate_frame _ _).identity ht
  | generationDeltaReceive => exact (generationDeltaReceive_frame _ _ _).identity ht
  | helloStop => exact (helloStop_frame _).identity ht
  | rampLimitForward => exact (rampLimitForward_frame _ _).identity ht
  | trayFaultHoldExpiry => exact (trayFaultHoldExpiry_frame _).identity ht
  | slot12vRise => exact (slot12vRise_frame _).identity ht
  | extTrstNFall => exact extTrstNFall_frame.identity ht

theorem step_of_empty {s : State} (h : s.pending = []) : step s = .next { s with m := s.m.idle } := by
  simp only [step, h]

theorem step_of_front {s : State} {c : Instr} {rest : List Instr} (h : s.pending = c :: rest) :
    step s = exec c { s with pending := rest } := by
  simp only [step, h]

theorem idle_frame (m : Machine) : Kept [.time, .shr, .out] m m.idle := by apply idle_kept .refl <;> decide

/-- Settles O5: an idle step writes the timebase, the ports and what is sent, and no command's frame holds the straps or the fuses. -/
theorem stepsKeepStrapsAndFuses : Obligations.StepsKeepStrapsAndFuses := by
  unfold Obligations.StepsKeepStrapsAndFuses
  intro s t h
  cases hq : s.pending with
  | nil =>
    obtain rfl : _ = t := Host.Outcome.next.inj ((step_of_empty hq).symm.trans h)
    exact ⟨(idle_frame s.m).pins (by decide), (idle_frame s.m).fuse (by decide)⟩
  | cons c rest =>
    exact exec_identity (s := { s with pending := rest }) ((step_of_front hq).symm.trans h)

end Sys2Proof.Machine

/-! ## The package: timebase, die monitors, Telltale -/

namespace Sys2Proof.Machine

/-- A command that always completes ends with what its machine satisfies. -/
theorem Completes.of_done {c : Instr} {s : State} {m : Machine} {p : Machine → Prop} (he : exec c s = done s m) (hp : p m) :
    Completes c s p :=
  ⟨_, he, rfl, hp⟩

theorem Ignored.of_done {c : Instr} {s : State} {m : Machine} (he : exec c s = done s m) (hm : m = s.m) : Ignored c s :=
  he.trans (hm ▸ rfl)

theorem Completes.imp {c : Instr} {s : State} {p q : Machine → Prop} (h : Completes c s p) (hpq : ∀ m, p m → q m) : Completes c s q := by
  obtain ⟨t, ht, hq, hp⟩ := h
  exact ⟨t, ht, hq, hpq _ hp⟩

/-! ### Die monitors -/

section
variable {m : Machine} {d : CDie}

theorem modCorner_of_present (h : m.hasDie d.val = true) (f : Corner → Corner) :
    m.modCorner d f = { m with corner := f m.corner } := if_pos h

theorem modCorner_of_absent (h : m.hasDie d.val = false) (f : Corner → Corner) : m.modCorner d f = m :=
  if_neg (by simp [h])

theorem markOffCorner_corner (m : Machine) (d : Nat) : (m.markOffCorner d).corner = m.corner :=
  Kept.corner (W := [.ctx]) (markOffCorner_kept .refl d (by decide)) (by decide)

end

theorem uvMonitorTrip_corner {d : CDie} {s : State} (h : s.m.hasDie d.val = true) :
    Completes (.uvMonitorTrip d) s fun m =>
      m.corner = { s.m.corner with uv := setBit s.m.corner.uv d.val true, uvSeen := setBit s.m.corner.uvSeen d.val true } :=
  .of_done rfl <| by
    simp only [h, if_true]
    simp only [modRdie_fields, markOffCorner_corner, modCorner_of_present h]

theorem otMonitorTrip_corner {d : CDie} {s : State} (h : s.m.hasDie d.val = true) :
    Completes (.otMonitorTrip d) s fun m =>
      m.corner = { s.m.corner with ot := setBit s.m.corner.ot d.val true, otSeen := setBit s.m.corner.otSeen d.val true } :=
  .of_done rfl <| by
    simp only [h, if_true]
    rw [markOffCorner_corner, modCorner_of_present h]

/-- The commands that only write a present die's bits of REEF_CORNER_STAT. -/
theorem completes_of_modCorner {c : Instr} {d : CDie} {s : State} {f : Corner → Corner} (hc : exec c s = done s (s.m.modCorner d f))
    (h : s.m.hasDie d.val = true) : Completes c s fun m => m.corner = f s.m.corner :=
  .of_done hc (by rw [modCorner_of_present h])

theorem dieMonitors_ignored {d : CDie} {s : State} (h : s.m.hasDie d.val = false) :
    Ignored (.uvMonitorTrip d) s ∧ Ignored (.uvMonitorClear d) s ∧ Ignored (.otMonitorTrip d) s ∧ Ignored (.otMonitorClear d) s ∧
    Ignored (.thermalHoldStart d) s ∧ Ignored (.thermalHoldEnd d) s := by
  have absent := fun f => modCorner_of_absent (m := s.m) h f
  refine ⟨.of_done rfl ?_, .of_done rfl (absent _), .of_done rfl ?_, .of_done rfl (absent _), .of_done rfl (absent _),
    .of_done rfl (absent _)⟩
  · simp only [h, Bool.false_eq_true, if_false]; exact absent _
  · simp only [h, Bool.false_eq_true, if_false]; exact absent _

/-- Settles O14: a trip's further work (marking steps off-corner, Reef's record of the die) leaves REEF_CORNER_STAT, so each of the six
writes its own die's bits and no other. -/
theorem cornerMonitorsShowLiveAndSticky : Obligations.CornerMonitorsShowLiveAndSticky := by
  unfold Obligations.CornerMonitorsShowLiveAndSticky
  refine ⟨fun d s h => (uvMonitorTrip_corner h).imp ?uvTrip, fun d s h => (completes_of_modCorner rfl h).imp ?uvClear,
    fun d s h => (otMonitorTrip_corner h).imp ?otTrip, fun d s h => (completes_of_modCorner rfl h).imp ?otClear,
    fun d s h => (completes_of_modCorner rfl h).imp ?hold, fun d s h => (completes_of_modCorner rfl h).imp ?holdEnd,
    fun d s h => dieMonitors_ignored h⟩
  case uvTrip => intro m hm; rw [hm]; exact ⟨setBit_die _ d true, setBit_die _ d true, rfl, rfl, rfl⟩
  case uvClear => intro m hm; rw [hm]; exact ⟨setBit_die _ d false, rfl⟩
  case otTrip => intro m hm; rw [hm]; exact ⟨setBit_die _ d true, setBit_die _ d true, rfl, rfl, rfl⟩
  case otClear => intro m hm; rw [hm]; exact ⟨setBit_die _ d false, rfl⟩
  case hold => intro m hm; rw [hm]; exact ⟨setBit_die _ d true, rfl⟩
  case holdEnd => intro m hm; rw [hm]; exact ⟨setBit_die _ d false, rfl⟩

/-! ### The timebase -/

section
variable (m : Machine)

theorem setLocked_time (b : Bool) :
    (m.setLocked b).time = { m.time with locked := b, everLocked := m.time.everLocked || b } := by
  dsimp only [Machine.setLocked]
  split <;> simp

theorem setLocked_out (b : Bool) : (m.setLocked b).out = m.out := by
  dsimp only [Machine.setLocked]
  split <;> simp

theorem firstLock_time (q : DWord) :
    (m.firstLock q).time = { m.time with now := m.time.now + BitVec.ofInt 64 (-(q.toInt / 4)), slew := 0 } := by
  have hnote (a : Machine) (k c u v : Nat) : (a.note k c u v).time = a.time :=
    Kept.time (W := [.boot, .ttl, .flash]) (by apply note_kept .refl <;> decide) (by decide)
  simp [Machine.firstLock, hnote]

theorem hlyItem_time (t : Nat) : (m.hlyItem t).time = m.time := rfl

theorem bootSettle_time : m.bootSettle.time = m.time :=
  Kept.time (W := [.boot, .ttl, .flash, .out]) (by apply bootSettle_kept .refl <;> decide) (by decide)

end

/-- TIME_OFFSET holds a measured offset that 32 bits can hold as it is. -/
theorem offsetWord_toInt {q : DWord} (hlo : -2147483648 ≤ q.toInt) (hhi : q.toInt ≤ 2147483647) : (offsetWord q).toInt = q.toInt := by
  have : max (-2147483648) (min 2147483647 q.toInt) = q.toInt := by omega
  rw [offsetWord, this, BitVec.toInt_ofInt]
  exact Int.bmod_eq_of_le (by omega) (by omega)

section
variable {m : Machine} (hroot : m.time.root = false) (hdir : m.time.parentDir ≠ 6) (hlost : m.time.parentLost = false)
include hroot hdir hlost

theorem syncWith_failed (hhold : m.time.holdover = false) (q : DWord) : m.syncWith false q = m.setLocked false := by
  simp [Machine.syncWith, hroot, hdir, hlost, hhold]

/-- A first exchange within depth 22 locks, and sets the timebase by the whole nanoseconds of the offset (02 R68, R70). -/
theorem syncWith_first_time (hdepth : m.time.depth ≤ 22) (hever : m.time.everLocked = false) (q : DWord) :
    (m.syncWith true q).time = { m.time with
      offset := offsetWord q, now := m.time.now + BitVec.ofInt 64 (-(q.toInt / 4)), slew := 0, locked := true, everLocked := true,
      holdover := false } := by
  simp [Machine.syncWith, hroot, hdir, hlost, hdepth, hever, setLocked_time, firstLock_time, hlyItem_time]

/-- A later exchange within depth 22 and 1 ns locks, ends holdover, and only slews the timebase (02 R68, R71). -/
theorem syncWith_near_time (hdepth : m.time.depth ≤ 22) (hever : m.time.everLocked = true) {q : DWord} (hlo : -4 ≤ q.toInt)
    (hhi : q.toInt ≤ 4) :
    (m.syncWith true q).time = { m.time with
      offset := offsetWord q, slew := -(q.toInt / 4), locked := true, everLocked := true, holdover := false } := by
  have hdeep : ¬22 < m.time.depth := by omega
  simp [Machine.syncWith, hroot, hdir, hlost, hdeep, hever, hlo, hhi, setLocked_time, hlyItem_time]

end

theorem underParent_time (m : Machine) (p k : Nat) :
    (m.underParent p k).time = { m.time with
      root := false, depth := min 31 k, degraded := decide (22 < k), parentLost := false, parentDir := (m.port p).stat.dir
      parentPos := (m.port p).stat.pos, parentNode := (m.port p).far.node, locked := m.time.locked && decide (k ≤ 22) } := by
  unfold Machine.underParent
  by_cases hk : 22 < k
  · simp [hk, setLocked_time, Nat.not_le.mpr hk]
  · simp [hk, Nat.not_lt.mp hk]

theorem underParent_out (m : Machine) (p k : Nat) : (m.underParent p k).out = m.out ++ [.syncStart p] := by
  unfold Machine.underParent
  split <;> simp [setLocked_out]

/-- A locked child that loses the reference goes over to the parent link, and every port stays as it is (02 R73). -/
theorem loseReference_of_child {m : Machine} (hroot : m.time.root = false) (hlock : m.time.locked = true) :
    m.loseReference = ((m.modTime fun t => { t with refclkOk := false }).raiseAs 496 1 0 none).modTime fun t =>
      { t with source := .parentLink } := by
  simp [Machine.loseReference, hroot, hlock]

/-- An event of a source that a package reset does not mask lands with its class (14 R396, R416). -/
theorem raiseAs_landed (m : Machine) {src : Nat} (cls unit : Nat) (ctx : Option Nat) (h : maskedSource src = false) :
    (m.raiseAs src cls unit ctx).ttl.landed = m.ttl.landed ++
      [{ source := src, count := 1, unit := unit, ctx := ctx, cls := cls, forced := false }] := by
  simp [Machine.raiseAs, h]

theorem foldl_modPort_port (f : PortRec → PortRec) {l : List Nat} (hl : l.Nodup) (m : Machine) (q : Nat) :
    (l.foldl (fun m p => m.modPort p f) m).port q = if q ∈ l then f (m.port q) else m.port q := by
  induction l generalizing m with
  | nil => rfl
  | cons p l ih =>
    obtain ⟨hp, hl⟩ := List.nodup_cons.mp hl
    rw [List.foldl_cons, ih hl, modPort_port]
    by_cases hq : q = p
    · subst hq; simp [hp]
    · simp [hq]

theorem foldl_modPort_time (f : PortRec → PortRec) (l : List Nat) (m : Machine) :
    (l.foldl (fun m p => m.modPort p f) m).time = m.time :=
  Kept.time (W := [.shr]) (.foldl .refl fun _ p h => modPort_kept h p f (by decide)) (by decide)

theorem funcNo_injective : Function.Injective funcNo
  | .pf, .pf, _ => rfl
  | .pf, .vf _, h => (Nat.succ_ne_zero _ h.symm).elim
  | .vf _, .pf, h => (Nat.succ_ne_zero _ h).elim
  | .vf _, .vf _, h => congrArg Func.vf (Fin.ext (Nat.succ.inj h))

/-- Settles O15: each outcome of an exchange, a new parent and the reference's loss and return give the time block by an equation, and what
follows in the same command (the boot steps, what is raised or sent, the ports) leaves that block. -/
theorem timebaseFollowsItsParent : Obligations.TimebaseFollowsItsParent := by
  unfold Obligations.TimebaseFollowsItsParent
  refine ⟨?near, ?first, ?failed, ?parentLost, ?expiry, ?named, ?root, ?ignored, ?refLoss, ?refReturn, ?read⟩
  case near =>
    intro s q hroot hdir hlost hdepth hever hlo hhi
    refine .of_done rfl ?_
    rw [bootSettle_time, syncWith_near_time hroot hdir hlost hdepth hever hlo hhi]
    exact ⟨rfl, rfl, rfl, offsetWord_toInt (by omega) (by omega), rfl, rfl⟩
  case first =>
    intro s q hroot hdir hlost hdepth hever
    refine .of_done rfl ?_
    rw [bootSettle_time, syncWith_first_time hroot hdir hlost hdepth hever]
    exact ⟨rfl, rfl, rfl⟩
  case failed =>
    intro s q hroot hdir hlost hhold
    refine .of_done rfl ?_
    rw [bootSettle_time, syncWith_failed hroot hdir hlost hhold, setLocked_time, Bool.or_false]
  case parentLost =>
    intro s hroot hdir
    exact .of_done rfl (by simp [hroot, hdir])
  case expiry =>
    intro s hhold
    exact .of_done rfl (by simp [hhold, setLocked_time])
  case named =>
    intro p root k s hself hrole hk
    refine .of_done rfl ?_
    rw [if_neg hself, if_pos hrole, hk]
    dsimp only
    rw [underParent_time, underParent_out]
    exact ⟨rfl, rfl, rfl, rfl, rfl, rfl, rfl, rfl, rfl, rfl, rfl⟩
  case root =>
    intro p s hrole
    exact .of_done rfl (by simp [hrole, Machine.makeRoot])
  case ignored =>
    intro p root s hself hnone
    refine .of_done rfl ?_
    rw [if_neg hself]
    rcases hnone with ⟨hmaster, hstandby⟩ | hnone
    · rw [if_neg (by tauto)]
    · rw [hnone]; exact ite_self _
  case refLoss =>
    intro s href hroot hlock
    refine .of_done rfl ?_
    rw [if_pos href, loseReference_of_child hroot hlock]
    have hmask : maskedSource 496 = false := by decide
    exact ⟨by simp, by simp, by simp only [modTime_fields, raiseAs_landed _ 1 0 none hmask]⟩
  case refReturn =>
    intro s
    refine .of_done rfl ⟨?_, fun p => ?_⟩
    · rw [foldl_modPort_time]; rfl
    · rw [foldl_modPort_port _ List.nodup_range, if_pos (List.mem_range.mpr p.isLt)]; simp
  case read =>
    intro f s
    refine .of_done rfl ⟨by simp, by simp, fun g hg => ?_⟩
    simp only [emit_fields, modTime_time]
    exact tget_tset_ne _ _ _ (funcNo_injective.ne hg)

/-! ### Telltale: what its operations leave as it was -/

/-- The sources' records, and what FIRST_INFO and FIRST_TIME give of the round that latched them (14 R399, R400). -/
structure TtlBanks where
  src : Table SrcRec
  firstLatched : Bool
  firstSources : Nat
  firstForced : Bool
  firstTime : DWord

/-- What the banks hold. -/
def Ttl.banks (t : Ttl) : TtlBanks := ⟨t.src, t.firstLatched, t.firstSources, t.firstForced, t.firstTime⟩

/-- Telltale but for its log, what has landed and the count of what was masked: what a log record and a raised event leave as it was. -/
def Ttl.core (t : Ttl) : Ttl := { t with log := [], head := 0, tail := 0, lost := 0, ovf := false, maskedCnt := 0, landed := [] }

theorem banks_of_core {t u : Ttl} (h : t.core = u.core) : t.banks = u.banks :=
  show t.core.banks = u.core.banks from congrArg _ h

theorem slotAt_of_core {a b : Machine} (h : a.ttl.core = b.ttl.core) (k : Option Nat) : a.slotAt k = b.slotAt k := by
  cases k with
  | none => exact (congrArg Ttl.pkg h : a.ttl.core.pkg = b.ttl.core.pkg)
  | some c => exact congrArg (tget .reset · c) (congrArg Ttl.slots h : a.ttl.core.slots = b.ttl.core.slots)

section
variable (m : Machine)

theorem raise_core (src unit : Nat) : (m.raise src unit).ttl.core = m.ttl.core := by
  unfold Machine.raise Machine.raiseAs
  split <;> rfl

theorem ttlLog_core (r : TtlRecord) : (m.ttlLog r).ttl.core = m.ttl.core := by
  dsimp only [Machine.ttlLog]
  split
  · rw [raise_core]; rfl
  · rfl

@[simp] theorem interrupt_ttl (f v : Nat) : (m.interrupt f v).ttl = m.ttl :=
  Kept.ttl (W := [.msix, .out]) (by apply interrupt_kept .refl <;> decide) (by decide)

/-- An assertion of FAULT_N writes the pin alone, and not what a C4 reaction holds of it (14 R412). -/
theorem faultN_pin : ∃ pin, m.faultN.ttl = { m.ttl with pin := pin } ∧ pin.c4 = m.ttl.pin.c4 := by
  dsimp only [Machine.faultN]
  split
  · exact ⟨_, rfl, rfl⟩
  · split
    · split <;> exact ⟨_, rfl, rfl⟩
    · exact ⟨_, rfl, rfl⟩

@[simp] theorem setSlot_slotAt (k : Option Nat) (r : SlotRec) : (m.setSlot k r).slotAt k = r := by
  cases k with
  | none => rfl
  | some c => exact tget_tset_same _ _ _ _

theorem setSlot_time (k : Option Nat) (r : SlotRec) : (m.setSlot k r).time = m.time := by cases k <;> rfl

/-- A slot's write changes the slots alone. -/
theorem setSlot_ttl (k : Option Nat) (r : SlotRec) :
    (m.setSlot k r).ttl = { m.ttl with pkg := (m.setSlot k r).ttl.pkg, slots := (m.setSlot k r).ttl.slots } := by cases k <;> rfl

/-- Absorbing the context reactions clears their slots and counts them in the package slot (14 R405). -/
theorem absorbSlots_ttl : ∃ slots n, m.absorbSlots.ttl = { m.ttl with slots := slots, pkg := { m.ttl.pkg with merged := n } } := by
  dsimp only [Machine.absorbSlots, modTtl_ttl]
  split
  · exact ⟨_, _, rfl⟩
  · exact ⟨_, m.ttl.pkg.merged, rfl⟩

end

/-! ### The class action (14 Table 14.2) -/

/-- What an action of a class orders: C4 stops the releases and holds FAULT_N, C3 orders a package reset. -/
def Machine.classOrders (m : Machine) (cls src : Nat) : Machine :=
  let m := if cls = 4 then m.modTtl fun t => { t with noRelease := true, c4Source := some src, pin := { t.pin with c4 := true } } else m
  if cls = 3 then m.modTtl fun t => { t with pkgOrder := some src } else m

/-- A class action but for FAULT_N: its orders, and its slot's class and progress. -/
def Machine.classSlot (m : Machine) (k : Option Nat) (cls src : Nat) : Machine :=
  let m := m.classOrders cls src
  m.setSlot k { m.slotAt k with cls := cls, actionDone := decide (cls < 3), doneAt := m.time.now }

section
variable (m : Machine) (k : Option Nat) (cls src : Nat)

theorem classOrders_slotAt (j : Option Nat) : (m.classOrders cls src).slotAt j = m.slotAt j := by
  unfold Machine.classOrders
  dsimp only
  split <;> split <;> cases j <;> rfl

theorem classOrders_time : (m.classOrders cls src).time = m.time := by
  unfold Machine.classOrders
  dsimp only
  split <;> split <;> rfl

/-- The banks and the limits stay through a class's orders. -/
theorem classOrders_keeps :
    (m.classOrders cls src).ttl.banks = m.ttl.banks ∧ (m.classOrders cls src).ttl.limits = m.ttl.limits := by
  unfold Machine.classOrders
  dsimp only
  split <;> split <;> exact ⟨rfl, rfl⟩

/-- A class action is its orders and its slot, and perhaps an assertion of FAULT_N. -/
theorem classAction_ttl : ∃ pin, (m.classAction k cls src).1.ttl = { (m.classSlot k cls src).ttl with pin := pin } ∧
    pin.c4 = (m.classSlot k cls src).ttl.pin.c4 := by
  have h : (m.classAction k cls src).1 =
      if (m.classAction k cls src).2 then (m.classSlot k cls src).faultN else m.classSlot k cls src := rfl
  rw [h]
  split
  · exact faultN_pin _
  · exact ⟨_, rfl, rfl⟩

theorem classAction_banks : (m.classAction k cls src).1.ttl.banks = m.ttl.banks := by
  obtain ⟨pin, h, -⟩ := classAction_ttl m k cls src
  rw [h, ← (classOrders_keeps m cls src).1, Machine.classSlot, setSlot_ttl]
  rfl

theorem classAction_limits : (m.classAction k cls src).1.ttl.limits = m.ttl.limits := by
  obtain ⟨pin, h, -⟩ := classAction_ttl m k cls src
  rw [h, ← (classOrders_keeps m cls src).2, Machine.classSlot, setSlot_ttl]

theorem classAction_time : (m.classAction k cls src).1.time = m.time :=
  Kept.time (W := [.ttl]) (classAction_kept .refl _ _ _ (by decide)) (by decide)

theorem classAction_slotAt : (m.classAction k cls src).1.slotAt k =
    { m.slotAt k with cls := cls, actionDone := decide (cls < 3), doneAt := m.time.now } := by
  obtain ⟨pin, h, -⟩ := classAction_ttl m k cls src
  have hpin : (m.classAction k cls src).1.slotAt k = (m.classSlot k cls src).slotAt k := by
    cases k <;> simp only [Machine.slotAt, h]
  rw [hpin, Machine.classSlot, setSlot_slotAt, classOrders_slotAt, classOrders_time]

/-- A context's class action leaves the package slot. -/
theorem classAction_context_pkg (c : Nat) : (m.classAction (some c) cls src).1.ttl.pkg = m.ttl.pkg := by
  obtain ⟨pin, h, -⟩ := classAction_ttl m (some c) cls src
  rw [h]
  exact classOrders_slotAt m cls src none

theorem classAction_c3_order : (m.classAction k 3 src).1.ttl.pkgOrder = some src := by
  obtain ⟨pin, h, -⟩ := classAction_ttl m k 3 src
  rw [h, Machine.classSlot, setSlot_ttl]
  rfl

theorem classAction_c4_orders : (m.classAction k 4 src).1.ttl.noRelease = true ∧ (m.classAction k 4 src).1.ttl.c4Source = some src ∧
    (m.classAction k 4 src).1.ttl.pin.c4 = true := by
  obtain ⟨pin, h, hpin⟩ := classAction_ttl m k 4 src
  rw [Machine.classSlot, setSlot_ttl] at h hpin
  rw [h]
  exact ⟨rfl, rfl, hpin⟩

end

/-! ### Escalation and the service of a slot (14 R404–R406, R409) -/

section
variable (m : Machine) (k : Option Nat) (src roundN fl : Nat)

theorem logged_core (r : TtlRecord) : ((m.ttlLog r).interrupt 0 0).ttl.core = m.ttl.core := by rw [interrupt_ttl, ttlLog_core]

/-- A context's escalation orders a reset of its partition and leaves the slots and the banks. -/
theorem escalate_context_core (c n : Nat) : ∃ l, (m.escalate (some c) src roundN fl n).ttl.core = { m.ttl.core with partOrders := l } := by
  cases n with
  | zero => exact ⟨_, rfl⟩
  | succ n =>
    dsimp only [Machine.escalate]
    split
    · have hcore {a b : Machine} (h : a.ttl.core = b.ttl.core) (f : Ttl → List Nat) :
          (a.modTtl fun t => { t with partOrders := f t }).ttl.core = { b.ttl.core with partOrders := f a.ttl } := by rw [← h]; rfl
      exact ⟨_, hcore ((raise_core _ _ _).trans (logged_core _ _)) _⟩
    · exact ⟨_, rfl⟩

theorem escalate_context_slotAt (c n : Nat) (j : Option Nat) : (m.escalate (some c) src roundN fl n).slotAt j = m.slotAt j := by
  obtain ⟨l, h⟩ := escalate_context_core m src roundN fl c n
  exact (slotAt_of_core (b := m.modTtl fun t => { t with partOrders := l }) h j).trans (by cases j <;> rfl)

theorem escalate_banks (n : Nat) : (m.escalate k src roundN fl n).ttl.banks = m.ttl.banks := by
  cases k with
  | some c =>
    obtain ⟨l, h⟩ := escalate_context_core m src roundN fl c n
    exact banks_of_core (u := { m.ttl with partOrders := l }) h
  | none =>
    induction n generalizing m with
    | zero => rfl
    | succ n ih =>
      dsimp only [Machine.escalate]
      split
      · rw [ih, banks_of_core (raise_core _ _ _), banks_of_core (logged_core _ _), classAction_banks]
      · rfl

/-- Below its class's limit the package slot does not rise (14 R409). -/
theorem escalate_package_below {m : Machine} {r : SlotRec} (hr : m.slotAt none = r)
    (h : r.cls = 4 ∨ m.ttl.limits.getD (r.cls - 1) 0 = 0 ∨ recoveryCount m.ns r r.cls < m.ttl.limits.getD (r.cls - 1) 0) (n : Nat) :
    m.escalate none src roundN fl n = m := by
  cases n with
  | zero => rfl
  | succ n =>
    dsimp only [Machine.escalate]
    rw [hr, if_neg]
    omega

/-- A slot's start of a reaction to an event: the slot goes ACTIVE, then its class action (14 R404). -/
def Machine.startSlot (m : Machine) (k : Option Nat) (g : RoundEvent) : Machine :=
  ((m.setSlot k { m.slotAt k with active := true, cls := g.eff, actionDone := false, source := g.ev.source, merged := 0
                                  lastAt := m.time.now, doneAt := m.time.now }).classAction k g.eff g.ev.source).1

variable (g : RoundEvent)

theorem startSlot_slotAt : (m.startSlot k g).slotAt k =
    { m.slotAt k with active := true, cls := g.eff, actionDone := decide (g.eff < 3), source := g.ev.source, merged := 0
                      lastAt := m.time.now, doneAt := m.time.now } := by
  rw [Machine.startSlot, classAction_slotAt, setSlot_slotAt, setSlot_time]

theorem startSlot_context_pkg (c : Nat) : (m.startSlot (some c) g).ttl.pkg = m.ttl.pkg := classAction_context_pkg _ _ _ c

theorem startSlot_limits : (m.startSlot k g).ttl.limits = m.ttl.limits := by
  rw [Machine.startSlot, classAction_limits, setSlot_ttl]

theorem startSlot_time : (m.startSlot k g).time = m.time := by rw [Machine.startSlot, classAction_time, setSlot_time]

theorem setSlot_banks (r : SlotRec) : (m.setSlot k r).ttl.banks = m.ttl.banks := by rw [setSlot_ttl]; rfl

theorem serveSlot_nil (first : Bool) : m.serveSlot k [] roundN first = m := rfl

/-- One event at C1 or above in an idle slot starts a reaction, which its limit may then escalate. -/
theorem serveSlot_idle (first : Bool) (hidle : (m.slotAt k).active = false) (heff : 1 ≤ g.eff) : ∃ r fl,
    m.serveSlot k [g] roundN first = (((m.startSlot k g).ttlLog r).interrupt 0 0).escalate k g.ev.source roundN fl 4 := by
  have hg : [g].filter (fun e => decide (1 ≤ e.eff)) = [g] := by simp [heff]
  simp only [Machine.serveSlot, hg, gravest, hidle, Bool.not_false, if_true]
  exact ⟨_, _, rfl⟩

theorem serveSlot_banks (l : List RoundEvent) (first : Bool) : (m.serveSlot k l roundN first).ttl.banks = m.ttl.banks := by
  dsimp only [Machine.serveSlot]
  split
  · rfl
  · split
    · rw [escalate_banks, banks_of_core (logged_core _ _), classAction_banks, setSlot_banks]
    · split
      · rw [escalate_banks, banks_of_core (ttlLog_core _ _), classAction_banks, setSlot_banks]
      · exact setSlot_banks _ _ _

/-- Below its class's limit, an event in the idle package slot starts its reaction and no more than that but its log record. -/
theorem serveSlot_package_core {m : Machine} {g : RoundEvent} (first : Bool) (hidle : m.ttl.pkg.active = false) (heff : 1 ≤ g.eff)
    (h : g.eff = 4 ∨ m.ttl.limits.getD (g.eff - 1) 0 = 0 ∨ recoveryCount m.ns m.ttl.pkg g.eff < m.ttl.limits.getD (g.eff - 1) 0) :
    (m.serveSlot none [g] roundN first).ttl.core = (m.startSlot none g).ttl.core := by
  obtain ⟨r, fl, hs⟩ := serveSlot_idle m none roundN g first hidle heff
  have hlog := logged_core (m.startSlot none g) r
  have hslot := (slotAt_of_core hlog none).trans (startSlot_slotAt m none g)
  have hlim : (((m.startSlot none g).ttlLog r).interrupt 0 0).ttl.limits = m.ttl.limits :=
    (congrArg Ttl.limits hlog).trans (startSlot_limits m none g)
  have htime : (((m.startSlot none g).ttlLog r).interrupt 0 0).time = m.time := by
    refine Eq.trans (Kept.time (W := [.ttl, .msix, .out]) ?_ (by decide)) (startSlot_time m none g)
    exact interrupt_kept (ttlLog_kept .refl r (by decide)) 0 0 (by decide) (by decide)
  rw [hs, escalate_package_below _ _ _ hslot, hlog]
  rw [hlim, Machine.ns, htime]
  exact h

/-- An event in an idle context slot starts its reaction; an escalation leaves the slots (14 R409). -/
theorem serveSlot_context_slotAt {m : Machine} {g : RoundEvent} {c : Nat} (first : Bool) (hidle : (m.slotAt (some c)).active = false)
    (heff : 1 ≤ g.eff) (j : Option Nat) : (m.serveSlot (some c) [g] roundN first).slotAt j = (m.startSlot (some c) g).slotAt j := by
  obtain ⟨r, fl, hs⟩ := serveSlot_idle m (some c) roundN g first hidle heff
  rw [hs, escalate_context_slotAt, slotAt_of_core (logged_core _ r)]

end

/-! ### A round in three parts (14 R398–R405) -/

/-- Whether FAULT_N has been high for the 2 µs that a waiting assertion waits for (14 R412). -/
def Machine.highLongEnough (m : Machine) : Bool :=
  match m.ttl.pin.highSince with
  | some t => decide (t.toNat + 2000 ≤ m.ns)
  | none => true

/-- The pin as a round finds it: an assertion whose waiting is over is made. -/
def Machine.pinDue (m : Machine) : Machine :=
  if m.ttl.pin.waiting && !m.ttl.pin.low && m.highLongEnough then m.pinAssert else m

/-- The events taken off the collector and into the banks. -/
def Machine.banked (m : Machine) (evs : List Event) : Machine × List Event :=
  (m.modTtl fun t => { t with landed := [] }).landAll m.ttl.armed evs

/-- A round's events with their effective classes (14 R402). -/
def Machine.classed (m : Machine) (evs : List Event) : List RoundEvent := evs.map (m.banked evs).1.roundEvent

/-- The banks with the events of a round, and the records of the classes that rose. -/
def Machine.promoted (m : Machine) (evs : List Event) : Machine :=
  (m.banked evs).2.foldl (fun (a : Machine) e => a.promoteRecord (roundSources evs).length m.ttl.armed e) (m.banked evs).1

/-- FIRST_INFO and FIRST_TIME latched (14 R400). -/
def Ttl.latch (t : Ttl) (cls sources : Nat) (time : DWord) (forced : Bool) : Ttl :=
  { t with firstLatched := true, firstClass := cls, firstSources := sources, firstTime := time, firstForced := forced }

/-- The banks' part of a round: the events, their records, and FIRST where it was armed. -/
def Machine.landRound (m : Machine) (evs : List Event) : Machine :=
  let a := m.promoted evs
  if m.ttl.armed then a.modTtl fun t =>
      t.latch ((m.classed evs).foldl (fun a e => max a e.eff) 0) (roundSources evs).length a.time.now
        ((m.classed evs).any fun e => e.ev.forced)
    else a

/-- Whether an event goes to its context's slot: a C2 event against a context while no C3 or C4 reaction holds the package slot. -/
def Machine.toContext (m : Machine) (e : RoundEvent) : Bool :=
  !(m.ttl.pkg.active && decide (3 ≤ m.ttl.pkg.cls)) && e.eff == 2 && e.ev.ctx.isSome

/-- The class of the package reaction, 0 while there is none. -/
def Machine.packageClass (m : Machine) : Nat := if m.ttl.pkg.active then m.ttl.pkg.cls else 0

/-- The context slots' part of a round. -/
def Machine.serveContexts (m : Machine) (l : List RoundEvent) (roundN : Nat) (first : Bool) : Machine :=
  ((l.filterMap fun e => e.ev.ctx).eraseDups).foldl
    (fun m c => m.serveSlot (some c) (l.filter fun e => e.ev.ctx == some c) roundN first) m

/-- The reactions' part of a round: the package slot, then the context slots, or their end where the package reaction reaches C3. -/
def Machine.reactRound (m : Machine) (rs : List RoundEvent) (roundN : Nat) (first : Bool) : Machine :=
  let a := m.serveSlot none (rs.filter fun e => !m.toContext e) roundN first
  let ctxEvents := rs.filter m.toContext
  if m.packageClass < 3 ∧ 3 ≤ a.packageClass then
    if m.packageClass = 0 then a.absorbSlots
    else a.absorbSlots.modTtl fun t => { t with pkg := { t.pkg with merged := satAdd 4095 t.pkg.merged ctxEvents.length } }
  else a.serveContexts ctxEvents roundN first

/-- A round that takes events: the banks, then the reactions. -/
def Machine.takeRound (m : Machine) (evs : List Event) : Machine :=
  (m.landRound evs).reactRound (m.classed evs) (roundSources evs).length m.ttl.armed

theorem pinDue_eq (m : Machine) : ∃ pin, m.pinDue = m.modTtl fun t => { t with pin := pin } := by
  unfold Machine.pinDue
  split <;> exact ⟨_, rfl⟩

theorem pinDue_of_not_waiting {m : Machine} (h : m.ttl.pin.waiting = false) : m.pinDue = m := by simp [Machine.pinDue, h]

theorem pinDue_of_waiting {m : Machine} (hwait : m.ttl.pin.waiting = true) (hlow : m.ttl.pin.low = false)
    (hhigh : ∀ t, m.ttl.pin.highSince = some t → t.toNat + 2000 ≤ m.ns) : m.pinDue = m.pinAssert := by
  have h : m.highLongEnough = true := by
    unfold Machine.highLongEnough
    split
    · exact decide_eq_true (hhigh _ ‹_›)
    · rfl
  simp [Machine.pinDue, hwait, hlow, h]

theorem ttlRound_eq (m : Machine) : m.ttlRound = if m.ttl.landed = [] then m.pinDue else m.pinDue.takeRound m.ttl.landed := by
  have heq : m.ttlRound = match m.pinDue.ttl.landed with
    | [] => m.pinDue
    | evs => m.pinDue.takeRound evs := rfl
  obtain ⟨pin, hpin⟩ := pinDue_eq m
  have hlanded : m.pinDue.ttl.landed = m.ttl.landed := by rw [hpin]; rfl
  rw [heq, hlanded]
  cases m.ttl.landed <;> rfl

/-! ### What a round's landing leaves in the banks -/

section
variable (m : Machine) (first : Bool)

@[simp] theorem modSrc_src (i : Nat) (f : SrcRec → SrcRec) (j : Nat) : (m.modSrc i f).src j = if j = i then f (m.src i) else m.src j :=
  tget_tset _ _ _ _ _

theorem landEvent_src_other (e : Event) {i : Nat} (h : i ≠ e.source) : (m.landEvent first e).1.src i = m.src i := by
  simp [Machine.landEvent, h]

/-- An event keeps ANY, the latest time and, in an armed round, FIRST of its source (14 R399, R400). -/
theorem landEvent_src (e : Event) : ((m.landEvent first e).1.src e.source).any = true ∧
    ((m.landEvent first e).1.src e.source).lastAt = m.time.now ∧
    ((m.landEvent first e).1.src e.source).first = ((m.src e.source).first || first) := by
  simp [Machine.landEvent]

/-- An event adds to its source's count and keeps its context and unit; without a promotion rule its class does not rise (14 R399, R401). -/
theorem landEvent_src_counts (e : Event) (h : (m.src e.source).n = 0) :
    ((m.landEvent first e).1.src e.source).total = satAdd32 (m.src e.source).total e.count ∧
    ((m.landEvent first e).1.src e.source).lastCtx = e.ctx ∧ ((m.landEvent first e).1.src e.source).lastUnit = e.unit % 256 ∧
    ((m.landEvent first e).1.src e.source).raised = (m.src e.source).raised := by
  simp [Machine.landEvent, h]

theorem landAll_ttl (l : List Event) : (m.landAll first l).1.ttl = { m.ttl with src := (m.landAll first l).1.ttl.src } := by
  induction l generalizing m with
  | nil => rfl
  | cons e l ih => exact (ih _).trans rfl

theorem landAll_src_other (l : List Event) {i : Nat} (h : i ∉ l.map (·.source)) : (m.landAll first l).1.src i = m.src i := by
  induction l generalizing m with
  | nil => rfl
  | cons e l ih =>
    rw [List.map_cons, List.mem_cons, not_or] at h
    exact (ih _ h.2).trans (landEvent_src_other m first e h.1)

theorem landAll_src (l : List Event) {i : Nat} (h : i ∈ l.map (·.source)) : ((m.landAll first l).1.src i).any = true ∧
    ((m.landAll first l).1.src i).lastAt = m.time.now ∧ ((m.landAll first l).1.src i).first = ((m.src i).first || first) := by
  induction l generalizing m with
  | nil => cases h
  | cons e l ih =>
    have hstep : (m.landAll first (e :: l)).1 = ((m.landEvent first e).1.landAll first l).1 := rfl
    rw [hstep]
    by_cases hl : i ∈ l.map (·.source)
    · obtain ⟨hany, hat, hfirst⟩ := ih (m.landEvent first e).1 hl
      refine ⟨hany, hat, hfirst.trans ?_⟩
      by_cases hi : i = e.source
      · obtain ⟨-, -, hnew⟩ := landEvent_src m first e
        rw [hi, hnew, Bool.or_assoc, Bool.or_self]
      · rw [landEvent_src_other m first e hi]
    · have hi : i = e.source := (List.mem_cons.mp h).resolve_right hl
      rw [landAll_src_other _ first l hl, hi]
      exact landEvent_src m first e

end

section
variable (m : Machine) (evs : List Event)

theorem promoted_core : (m.promoted evs).ttl.core = { m.ttl.core with src := (m.banked evs).1.ttl.src } := by
  have hrecords (l : List Event) (a : Machine) :
      (l.foldl (fun (a : Machine) e => a.promoteRecord (roundSources evs).length m.ttl.armed e) a).ttl.core = a.ttl.core := by
    induction l generalizing a with
    | nil => rfl
    | cons e l ih => exact (ih _).trans (ttlLog_core _ _)
  have hland := congrArg Ttl.core (landAll_ttl (m.modTtl fun t => { t with landed := [] }) m.ttl.armed evs)
  exact (hrecords _ _).trans hland

theorem promoted_time : (m.promoted evs).time = m.time := by
  refine Kept.time (m := m) (W := [.ttl]) (.foldl ?_ fun _ _ h => promoteRecord_kept h _ _ _ (by decide)) (by decide)
  exact landAll_kept (modTtl_kept .refl _ (by decide)) _ _ (by decide)

theorem landRound_time : (m.landRound evs).time = m.time := by
  dsimp only [Machine.landRound]
  split <;> exact promoted_time m evs

/-- A round that finds FIRST latched leaves FIRST_INFO and FIRST_TIME (14 R400). -/
theorem landRound_core_unarmed (h : m.ttl.armed = false) :
    (m.landRound evs).ttl.core = { m.ttl.core with src := (m.banked evs).1.ttl.src } := by
  rw [← promoted_core]
  simp only [Machine.landRound, h, Bool.false_eq_true, if_false]

/-- A round that finds the bank armed latches FIRST_INFO and FIRST_TIME (14 R400). -/
theorem landRound_core_armed (h : m.ttl.armed = true) : ∃ c, (m.landRound evs).ttl.core =
    { m.ttl.core with src := (m.banked evs).1.ttl.src }.latch c (roundSources evs).length m.time.now (evs.any (·.forced)) := by
  have hforced : (m.classed evs).any (fun e => e.ev.forced) = evs.any (·.forced) := by
    rw [Machine.classed, List.any_map]; rfl
  have hlatch (t : Ttl) (c n : Nat) (d : DWord) (b : Bool) : (t.latch c n d b).core = t.core.latch c n d b := rfl
  refine ⟨(m.classed evs).foldl (fun a e => max a e.eff) 0, ?_⟩
  simp only [Machine.landRound, h, if_true, modTtl_ttl, hlatch, promoted_core, promoted_time, hforced]

theorem landRound_src (i : Nat) : (m.landRound evs).src i = (m.banked evs).1.src i := by
  have hsrc : (m.landRound evs).ttl.core.src = (m.banked evs).1.ttl.src := by
    cases h : m.ttl.armed with
    | false => rw [landRound_core_unarmed m evs h]
    | true =>
      obtain ⟨c, hc⟩ := landRound_core_armed m evs h
      rw [hc]; rfl
  exact congrArg (tget .reset · i) hsrc

/-- The landing leaves the reaction slots and the limits. -/
theorem landRound_slots : (∀ k, (m.landRound evs).slotAt k = m.slotAt k) ∧ (m.landRound evs).ttl.limits = m.ttl.limits := by
  have hcore : ∃ t : Ttl, (m.landRound evs).ttl.core = t ∧ t.pkg = m.ttl.pkg ∧ t.slots = m.ttl.slots ∧ t.limits = m.ttl.limits := by
    cases h : m.ttl.armed with
    | false => exact ⟨_, landRound_core_unarmed m evs h, rfl, rfl, rfl⟩
    | true =>
      obtain ⟨c, hc⟩ := landRound_core_armed m evs h
      exact ⟨_, hc, rfl, rfl, rfl⟩
  obtain ⟨t, hc, hpkg, hslots, hlim⟩ := hcore
  refine ⟨fun k => ?_, (congrArg Ttl.limits hc).trans hlim⟩
  cases k with
  | none => exact (congrArg Ttl.pkg hc).trans hpkg
  | some c => exact congrArg (tget .reset · c) ((congrArg Ttl.slots hc).trans hslots)

/-- The one event of a round whose source has no promotion rule enters at the class it was raised with, when its source stands no higher. -/
theorem classed_single {e : Event} (hn : (m.src e.source).n = 0) (hcls : m.currentClass e.source ≤ e.cls) :
    m.classed [e] = [{ ev := e, eff := e.cls }] := by
  have hraised : ((m.banked [e]).1.src e.source).raised = (m.src e.source).raised := by
    obtain ⟨-, -, -, h⟩ := landEvent_src_counts (m.modTtl fun t => { t with landed := [] }) m.ttl.armed e hn
    exact h
  have hcur : (m.banked [e]).1.currentClass e.source = m.currentClass e.source := by
    rw [Machine.currentClass, hraised, Machine.currentClass]
  simp [Machine.classed, Machine.roundEvent, hcur, hcls]

end

/-! ### The reactions of a round -/

section
variable (m : Machine) (roundN : Nat) (first : Bool)

theorem absorbSlots_banks : m.absorbSlots.ttl.banks = m.ttl.banks := by
  obtain ⟨slots, n, h⟩ := absorbSlots_ttl m
  rw [h]; rfl

theorem serveContexts_banks (l : List RoundEvent) : (m.serveContexts l roundN first).ttl.banks = m.ttl.banks := by
  unfold Machine.serveContexts
  generalize ((l.filterMap fun e => e.ev.ctx).eraseDups) = cs
  induction cs generalizing m with
  | nil => rfl
  | cons c cs ih => exact (ih _).trans (serveSlot_banks _ _ _ _ _)

theorem reactRound_banks (rs : List RoundEvent) : (m.reactRound rs roundN first).ttl.banks = m.ttl.banks := by
  dsimp only [Machine.reactRound]
  split
  · split
    · rw [absorbSlots_banks, serveSlot_banks]
    · exact (absorbSlots_banks _).trans (serveSlot_banks _ _ _ _ _)
  · rw [serveContexts_banks, serveSlot_banks]

variable {m} (hidle : m.ttl.pkg.active = false)
include hidle

/-- One event for the idle package slot: its reaction, which at C3 and above absorbs the context reactions. -/
theorem reactRound_package {g : RoundEvent} (hctx : g.eff = 2 → g.ev.ctx = none) : ∃ slots k, (m.reactRound [g] roundN first).ttl =
    { (m.serveSlot none [g] roundN first).ttl with
      slots := slots, pkg := { (m.serveSlot none [g] roundN first).ttl.pkg with merged := k } } := by
  have hpkg : m.toContext g = false := by
    simp only [Machine.toContext, hidle, Bool.and_eq_false_iff, beq_eq_false_iff_ne]
    by_cases h : g.eff = 2
    · simp [hctx h]
    · simp [h]
  have hclass : m.packageClass = 0 := by simp [Machine.packageClass, hidle]
  simp only [Machine.reactRound, List.filter_cons, hpkg, hclass]
  simp only [Bool.not_false, if_true, Bool.false_eq_true, if_false, List.filter_nil]
  split
  · exact absorbSlots_ttl _
  · exact ⟨_, _, rfl⟩

/-- One C2 event against a context while no package reaction runs is its context slot's alone. -/
theorem reactRound_context {g : RoundEvent} {c : Nat} (heff : g.eff = 2) (hctx : g.ev.ctx = some c) :
    m.reactRound [g] roundN first = m.serveSlot (some c) [g] roundN first := by
  have htoc : m.toContext g = true := by simp [Machine.toContext, hidle, heff, hctx]
  have hclass : m.packageClass = 0 := by simp [Machine.packageClass, hidle]
  have hdup : [c].eraseDups = [c] := rfl
  simp [Machine.reactRound, htoc, hclass, serveSlot_nil, Machine.serveContexts, hctx, hdup]

end

/-! ### A round as a whole -/

section
variable (m : Machine) (evs : List Event)

theorem takeRound_banks : (m.takeRound evs).ttl.banks = (m.landRound evs).ttl.banks := reactRound_banks _ _ _ _

theorem takeRound_src (i : Nat) : (m.takeRound evs).src i = (m.banked evs).1.src i :=
  (congrArg (fun b : TtlBanks => tget SrcRec.reset b.src i) (takeRound_banks m evs)).trans (landRound_src m evs i)

/-- Every source of a round's events keeps ANY and its time, and FIRST as the round finds the bank (14 R399, R400). -/
theorem takeRound_src_of_event {e : Event} (he : e ∈ evs) : ((m.takeRound evs).src e.source).any = true ∧
    ((m.takeRound evs).src e.source).lastAt = m.time.now ∧
    ((m.takeRound evs).src e.source).first = ((m.src e.source).first || m.ttl.armed) := by
  rw [takeRound_src]
  exact landAll_src (m.modTtl fun t => { t with landed := [] }) m.ttl.armed evs (List.mem_map_of_mem he)

theorem takeRound_src_other {i : Nat} (h : i ∉ evs.map (·.source)) : (m.takeRound evs).src i = m.src i :=
  (takeRound_src m evs i).trans (landAll_src_other (m.modTtl fun t => { t with landed := [] }) m.ttl.armed evs h)

theorem takeRound_armed (h : m.ttl.armed = true) : (m.takeRound evs).ttl.firstLatched = true ∧
    (m.takeRound evs).ttl.firstTime = m.time.now ∧ (m.takeRound evs).ttl.firstSources = (roundSources evs).length ∧
    (m.takeRound evs).ttl.firstForced = evs.any (·.forced) := by
  obtain ⟨c, hc⟩ := landRound_core_armed m evs h
  have hbanks := (takeRound_banks m evs).trans (show (m.landRound evs).ttl.core.banks = _ from congrArg _ hc)
  exact ⟨congrArg TtlBanks.firstLatched hbanks, congrArg TtlBanks.firstTime hbanks, congrArg TtlBanks.firstSources hbanks,
    congrArg TtlBanks.firstForced hbanks⟩

theorem takeRound_unarmed (h : m.ttl.armed = false) : (m.takeRound evs).ttl.firstLatched = m.ttl.firstLatched ∧
    (m.takeRound evs).ttl.firstTime = m.ttl.firstTime := by
  have hbanks := (takeRound_banks m evs).trans (show (m.landRound evs).ttl.core.banks = _ from congrArg _ (landRound_core_unarmed m evs h))
  exact ⟨congrArg TtlBanks.firstLatched hbanks, congrArg TtlBanks.firstTime hbanks⟩

end

theorem startSlot_c3 (m : Machine) (k : Option Nat) {g : RoundEvent} (h : g.eff = 3) :
    (m.startSlot k g).ttl.pkgOrder = some g.ev.source := by
  rw [Machine.startSlot, h]
  exact classAction_c3_order _ _ _

theorem startSlot_c4 (m : Machine) (k : Option Nat) {g : RoundEvent} (h : g.eff = 4) : (m.startSlot k g).ttl.noRelease = true ∧
    (m.startSlot k g).ttl.c4Source = some g.ev.source ∧ (m.startSlot k g).ttl.pin.c4 = true := by
  rw [Machine.startSlot, h]
  exact classAction_c4_orders _ _ _

section
variable {m : Machine} {e : Event} (hn : (m.src e.source).n = 0) (hcls : m.currentClass e.source ≤ e.cls)
  (hidle : m.ttl.pkg.active = false)
include hn hcls hidle

/-- One event at C1 or above, below its class's limit and not a context's, starts its class's reaction in the idle package slot. -/
theorem takeRound_package (heff : 1 ≤ e.cls) (hctx : e.cls = 2 → e.ctx = none)
    (hlimit : e.cls = 4 ∨ m.ttl.limits.getD (e.cls - 1) 0 = 0 ∨
      recoveryCount m.ns m.ttl.pkg e.cls < m.ttl.limits.getD (e.cls - 1) 0) :
    ∃ slots n, (m.takeRound [e]).ttl.core =
      { ((m.landRound [e]).startSlot none { ev := e, eff := e.cls }).ttl.core with
        slots := slots
        pkg := { m.ttl.pkg with active := true, cls := e.cls, actionDone := decide (e.cls < 3), source := e.source, merged := n
                                lastAt := m.time.now, doneAt := m.time.now } } := by
  obtain ⟨hslots, hlim⟩ := landRound_slots m [e]
  have hpkg : (m.landRound [e]).ttl.pkg = m.ttl.pkg := hslots none
  have htime := landRound_time m [e]
  have hstart := startSlot_slotAt (m.landRound [e]) none { ev := e, eff := e.cls }
  rw [hslots, htime] at hstart
  have hserve := serveSlot_package_core (m := m.landRound [e]) (g := { ev := e, eff := e.cls }) (roundSources [e]).length m.ttl.armed
    (hpkg ▸ hidle) heff (by rw [hlim, hpkg, Machine.ns, htime]; exact hlimit)
  obtain ⟨slots, n, hreact⟩ := reactRound_package (roundSources [e]).length m.ttl.armed (hpkg ▸ hidle)
    (g := { ev := e, eff := e.cls }) hctx
  refine ⟨slots, n, ?_⟩
  rw [Machine.takeRound, classed_single m hn hcls, ← hserve, hreact]
  have hstarted : ((m.landRound [e]).serveSlot none [{ ev := e, eff := e.cls }] (roundSources [e]).length m.ttl.armed).ttl.pkg = _ :=
    (congrArg Ttl.pkg hserve).trans hstart
  rw [hstarted]
  rfl

/-- One C2 event against a context whose slot is idle starts the reaction there and leaves the package slot. -/
theorem takeRound_context {c : Nat} (heff : e.cls = 2) (hctx : e.ctx = some c) (hslot : (m.slotAt (some c)).active = false) :
    (m.takeRound [e]).slotAt (some c) =
      { m.slotAt (some c) with active := true, cls := 2, actionDone := true, source := e.source, merged := 0
                               lastAt := m.time.now, doneAt := m.time.now } ∧
    (m.takeRound [e]).ttl.pkg = m.ttl.pkg := by
  obtain ⟨hslots, -⟩ := landRound_slots m [e]
  have hpkg : (m.landRound [e]).ttl.pkg = m.ttl.pkg := hslots none
  have htime := landRound_time m [e]
  rw [Machine.takeRound, classed_single m hn hcls, reactRound_context _ _ (hpkg ▸ hidle) (g := { ev := e, eff := e.cls }) heff hctx]
  have hserve := serveSlot_context_slotAt (g := { ev := e, eff := e.cls }) (roundSources [e]).length m.ttl.armed
    ((hslots _).symm ▸ hslot) (show 1 ≤ e.cls by omega)
  refine ⟨?_, (hserve none).trans ((startSlot_context_pkg _ _ c).trans hpkg)⟩
  rw [hserve, startSlot_slotAt, hslots, htime]
  simp [heff]

end

/-! ### The commands -/

/-- A round that finds events takes them, after the pin's waiting assertion: that writes the pin alone. -/
theorem ttlRound_of_landed {m : Machine} (h : m.ttl.landed ≠ []) :
    ∃ pin, m.ttlRound = (m.modTtl fun t => { t with pin := pin }).takeRound m.ttl.landed := by
  obtain ⟨pin, hpin⟩ := pinDue_eq m
  exact ⟨pin, by rw [ttlRound_eq, if_neg h, hpin]⟩

theorem ttlRound_of_empty {m : Machine} (h : m.ttl.landed = []) : m.ttlRound = m.pinDue := by rw [ttlRound_eq, if_pos h]

/-- To show what a round with events completes with, show it of the taking of the events at a machine that differs in the pin alone. -/
theorem completes_ttlRound {s : State} {p : Machine → Prop} (h : s.m.ttl.landed ≠ [])
    (hp : ∀ pin, p ((s.m.modTtl fun t => { t with pin := pin }).takeRound s.m.ttl.landed)) : Completes .ttlRound s p := by
  obtain ⟨pin, hpin⟩ := ttlRound_of_landed h
  exact .of_done rfl (hpin ▸ hp pin)

/-- A die's thermal trip is masked by a package reset, and enters at C4 (14 Table 14.1, R416). -/
theorem thermalTrip_source (d : CDie) : maskedSource (492 + d.val) = true ∧ (entryClass (492 + d.val)).getD 0 = 4 := by
  revert d; decide

theorem raise_thermalTrip (m : Machine) (d : CDie) : m.raise (492 + d.val) d.val =
    if m.ttl.masking then m.modTtl fun t => { t with maskedCnt := satAdd32 t.maskedCnt 1 }
    else m.modTtl fun t =>
      { t with landed := t.landed ++ [{ source := 492 + d, count := 1, unit := d, ctx := none, cls := 4, forced := false }] } := by
  obtain ⟨hmask, hcls⟩ := thermalTrip_source d
  simp only [Machine.raise, Machine.raiseAs, hmask, hcls, Bool.and_true]

/-- Settles O46: a round is the pin, the banks and the reactions in turn; the reactions leave the banks, and one event finds its slot as the
landing left it. -/
theorem telltaleRoundsLandEventsAndStartReactions : Obligations.TelltaleRoundsLandEventsAndStartReactions := by
  unfold Obligations.TelltaleRoundsLandEventsAndStartReactions
  refine ⟨?quiet, ?pin, ?banks, ?counts, ?package, ?context, ?trip, ?absent⟩
  case quiet =>
    intro s hnone hwait
    exact .of_done rfl ((ttlRound_of_empty hnone).trans (pinDue_of_not_waiting hwait))
  case pin =>
    intro s hnone hwait hlow hhigh
    refine .of_done rfl ?_
    rw [ttlRound_of_empty hnone, pinDue_of_waiting hwait hlow hhigh]
    rfl
  case banks =>
    intro s hsome
    refine completes_ttlRound hsome fun pin => ⟨fun e he => ?_, fun i hi => takeRound_src_other _ _ hi, fun harmed => ?_,
      fun harmed => takeRound_unarmed _ _ harmed⟩
    · obtain ⟨hany, hat, hfirst⟩ := takeRound_src_of_event (s.m.modTtl fun t => { t with pin := pin }) _ he
      refine ⟨hany, hat, fun harmed => hfirst.trans ?_, fun harmed => hfirst.trans ?_⟩
      · rw [show (s.m.modTtl fun t => { t with pin := pin }).ttl.armed = true from harmed, Bool.or_true]
      · rw [show (s.m.modTtl fun t => { t with pin := pin }).ttl.armed = false from harmed, Bool.or_false]; rfl
    · exact takeRound_armed _ _ harmed
  case counts =>
    intro e s hone hn
    refine completes_ttlRound (by simp [hone]) fun pin => ?_
    rw [hone, takeRound_src]
    exact landEvent_src_counts _ _ e hn
  case package =>
    intro e s hone hn hcls heff _ hctx hidle hlimit
    refine completes_ttlRound (by simp [hone]) fun pin => ?_
    rw [hone]
    obtain ⟨slots, n, hcore⟩ := takeRound_package (m := s.m.modTtl fun t => { t with pin := pin }) hn hcls hidle heff hctx hlimit
    have hpkg := congrArg Ttl.pkg hcore
    refine ⟨congrArg SlotRec.active hpkg, congrArg SlotRec.cls hpkg, congrArg SlotRec.source hpkg, congrArg SlotRec.actionDone hpkg,
      congrArg SlotRec.lastAt hpkg, fun h3 => ?_, fun h4 => ?_⟩
    · exact (congrArg Ttl.pkgOrder hcore).trans (startSlot_c3 _ none h3)
    · obtain ⟨hstop, hsource, hpin⟩ := startSlot_c4 ((s.m.modTtl fun t => { t with pin := pin }).landRound [e]) none (g := ⟨e, e.cls⟩) h4
      exact ⟨(congrArg Ttl.noRelease hcore).trans hstop, (congrArg Ttl.c4Source hcore).trans hsource,
        (congrArg (·.pin.c4) hcore).trans hpin⟩
  case context =>
    intro e c s hone hn hcls heff hctx hidle hslot
    refine completes_ttlRound (by simp [hone]) fun pin => ?_
    rw [hone]
    obtain ⟨hstarted, hpkg⟩ := takeRound_context (m := s.m.modTtl fun t => { t with pin := pin }) hn (heff ▸ hcls) hidle heff hctx hslot
    rw [hstarted]
    exact ⟨rfl, rfl, rfl, hpkg⟩
  case trip =>
    intro d s hdie
    refine ⟨fun hmask => .of_done rfl ?_, fun hmask => .of_done rfl ?_⟩
    · rw [if_pos hdie, raise_thermalTrip, hmask]; rfl
    · rw [if_pos hdie, raise_thermalTrip, hmask]; rfl
  case absent =>
    intro d s hdie
    exact .of_done rfl (if_neg (by simp [hdie]))

end Sys2Proof.Machine

/-! ## Links: training, retraining and loss -/

namespace Sys2Proof.Machine

/-- Two facts of the one machine that a command completes with. -/
theorem Completes.and {c : Instr} {s : State} {p q : Machine → Prop} (hp : Completes c s p) (hq : Completes c s q) :
    Completes c s fun m => p m ∧ q m := by
  obtain ⟨t, ht, hpending, hpt⟩ := hp
  obtain ⟨u, hu, -, hqu⟩ := hq
  obtain rfl : t = u := Host.Outcome.next.inj (ht.symm.trans hu)
  exact ⟨t, ht, hpending, hpt, hqu⟩

/-! ### What the ports read after an operation of a port -/

/-- A table of ports that differs in one place: that port, and every other one. -/
theorem port_and_otherPorts {m m' : Machine} {p : Nat} {r : PortRec} (h : ∀ q, m'.port q = if q = p then r else m.port q) :
    m'.port p = r ∧ m.otherPorts m' p :=
  ⟨(h p).trans (if_pos rfl), fun q hq => (h q).trans (if_neg hq)⟩

theorem Kept.port {W : List Area} {a b : Machine} (h : Kept W a b) (hw : Area.shr ∉ W) (q : Nat) : b.port q = a.port q := by
  simp only [Machine.port, h.shr hw]

section
variable (m : Machine)

variable {m} in
theorem inState_of {p : Nat} {st : PortState} (h : (m.port p).stat.state = st) (f : Machine → Machine) :
    m.inState p st f = f m := if_pos h

@[simp] theorem aloneRoot_port (was : PortState) (q : Nat) : (m.aloneRoot was).port q = m.port q :=
  (aloneRoot_kept .refl was (by decide) : Kept [.time] _ _).port (by decide) q

theorem emit_port (o : Out) (q : Nat) : (m.emit o).port q = m.port q := rfl

theorem portFail_port (p reason q : Nat) : (m.portFail p reason).port q = if q = p then failedPort (m.port p) reason else m.port q := by
  simp [Machine.portFail, failedPort]

theorem portDown_port (p reason q : Nat) : (m.portDown p reason).port q =
    if q = p then { m.port p with stat := idleStat (m.port p).stat .down reason } else m.port q := by
  unfold Machine.portDown
  split <;> simp

variable {m} in
/-- With a class that its cable allows, a port enters DETECT with that class and with the reason of its last failure (03 R83, R86). -/
theorem enterDetect_port {p cls : Nat} {c : CableRead} (h : cableClass m.pins (m.port p).stat c = .inl cls) : ∃ r : PortRec,
    (∀ q, (m.enterDetect p c).port q = if q = p then r else m.port q) ∧ r.stat.state = .detect ∧
    r.stat.reason = (m.port p).stat.lastFail ∧ r.train.ownClass = cls ∧ r.train.attempts = (m.port p).train.attempts := by
  unfold Machine.enterDetect
  rw [h]
  exact ⟨_, fun q => (aloneRoot_port _ _ q).trans (modPort_port m p _ q), rfl, rfl, rfl, rfl⟩

variable {m} in
/-- With a cable that allows no class, a port goes DOWN with the reason of Table 3.4 instead. -/
theorem enterDetect_port_of_refused {p reason : Nat} {c : CableRead} (h : cableClass m.pins (m.port p).stat c = .inr reason) (q : Nat) :
    (m.enterDetect p c).port q = if q = p then { m.port p with stat := idleStat (m.port p).stat .down reason } else m.port q := by
  unfold Machine.enterDetect
  rw [h]
  exact portDown_port m p reason q

/-- A port as it enters ACTIVE in a configuration: no failed attempt, nothing sent, and both ends' credits advertised (03 R85, R86, R99). -/
def activePort (r : PortRec) (gen : Nat) (lanes : LaneMask) : PortRec :=
  let narrow := decide (widthOf lanes < 4)
  let slow := decide (gen < r.train.target)
  let pools := (vcsOf (isBackstay r.stat)).map fun vc => (vc, poolOf (isBackstay r.stat) vc)
  { r with
    stat := { r.stat with
      state := .active, gen := gen, width := widthOf lanes, lanes := lanesOf lanes
      reason := if narrow && slow then 0x1A else if slow then 0x19 else if narrow then 0x18 else 0 }
    train := { r.train with attempts := 0 }
    tx := { PortTx.reset with credit := pools, farCount := pools }
    rx := { PortRx.reset with freed := pools }
    cnt := { r.cnt with degrade := if narrow || slow then satAdd32 r.cnt.degrade 1 else r.cnt.degrade } }

/-- What follows in the same command (credits sent, the event, the hold-down, the flood) leaves the ports. -/
theorem enterActive_port (p gen : Nat) (lanes : LaneMask) (q : Nat) :
    (m.enterActive p gen lanes).port q = if q = p then activePort (m.port p) gen lanes else m.port q := by
  have hkept : Kept [.hly, .tkp, .slc, .ttl, .out] (m.modPort p fun r => activePort r gen lanes) (m.enterActive p gen lanes) := by
    unfold Machine.enterActive
    with_reducible repeat' first
      | decide | assumption | apply floodOwn_kept | apply modHly_kept | apply modDb_kept | apply raise_kept | apply sendCredit_kept
      | apply Kept.foldl | apply Kept.ite | intro _
    all_goals exact .refl
  rw [hkept.port (by decide), modPort_port]

theorem modPort_modPort_port (p : Nat) (f g : PortRec → PortRec) (q : Nat) :
    ((m.modPort p f).modPort p g).port q = if q = p then g (f (m.port p)) else m.port q := by
  by_cases hq : q = p <;> simp [hq]

/-- The checks of R84 read a port's own direction and position, which the noting of a block leaves. -/
theorem ts2Reason_modPort {p : Nat} {f : PortRec → PortRec} (h : (f (m.port p)).stat = (m.port p).stat) (b : BitVec 128) :
    (m.modPort p f).ts2Reason p b = m.ts2Reason p b := by
  simp [Machine.ts2Reason, Machine.dims, h]

end

/-- A command that a port takes in one of its states, by what it then does to the ports. -/
theorem completes_inState {c : Instr} {s : State} {p : Nat} {st : PortState} {f : Machine → Machine} {m : Machine} {r : PortRec}
    (he : exec c s = done s (s.m.inState p st f)) (hst : (s.m.port p).stat.state = st) (hf : f s.m = m)
    (hport : ∀ q, m.port q = if q = p then r else s.m.port q) :
    Completes c s fun m => m.port p = r ∧ s.m.otherPorts m p :=
  .of_done he (by rw [inState_of hst, hf]; exact port_and_otherPorts hport)

/-! ### Training -/

/-- What a port has noted of its far end after a TS2 block (03 Table 3.5). -/
def notedTs2 (b : BitVec 128) (r : PortRec) : PortRec :=
  { r with
    far := { r.far with node := BitVec.ofNat 16 (bits b 0 16), dir := bits b 17 3, pos := bits b 20 3, preset := bits b 23 4 }
    train := { r.train with
      farGenCap := BitVec.ofNat 2 (bits b 27 2), farClass := BitVec.ofNat 2 (bits b 29 2)
      farRxGood := BitVec.ofNat 4 (bits b 31 4), farIdValid := bitAt b 16
      ts2Run := if r.train.lastTs2 = b then r.train.ts2Run + 1 else 1
      lastTs2 := b } }

/-- A port whose end has agreed with the far end on a target (03 R82). -/
def agreedTs2 (nodeValid : Bool) (g : Nat) (r : PortRec) : PortRec :=
  { r with
    stat := { r.stat with state := .equalise }
    far := { r.far with valid := nodeValid && r.train.farIdValid }
    train := { r.train with target := g, gen := g, tries := 0 } }

section
variable {p : Port} {s : State} {block : BitVec 128} (hst : (s.m.port p).stat.state = .exchange)
  (hcrc : (crc32 (leBytes 12 (bits block 0 96))).toNat = bits block 96 32) (hround : bitAt block 35 = false)
include hst hcrc hround

theorem ts2Receive_refused {reason : Nat} (hreason : s.m.ts2Reason p block = some reason) : Completes (.ts2Receive p block) s fun m =>
    m.port p = { notedTs2 block (s.m.port p) with stat := idleStat (s.m.port p).stat .down reason } ∧ s.m.otherPorts m p := by
  have hcheck := (ts2Reason_modPort s.m (f := notedTs2 block) rfl block).trans hreason
  refine completes_inState (m := (s.m.modPort p (notedTs2 block)).portDown p reason) rfl hst ?_ fun q => ?_
  · rw [if_neg (by simp [hcrc, hround])]
    dsimp only
    split
    case h_1 h => obtain rfl := Option.some.inj (h.symm.trans hcheck); rfl
    case h_2 h => cases h.symm.trans hcheck
  · rw [portDown_port, modPort_port, modPort_port, if_pos rfl]
    split
    · rfl
    · rfl

/-- The sixteenth block without a fault, at an agreed generation, takes the port to EQUALISE (03 R81, R82). -/
theorem ts2Receive_agreed (hreason : s.m.ts2Reason p block = none) (hlast : (s.m.port p).train.lastTs2 = block)
    (hrun : (s.m.port p).train.ts2Run = 15) {g : Nat} (hg : targetGen (isBackstay (s.m.port p).stat) (s.m.port p).train.genCap
      (BitVec.ofNat 2 (bits block 27 2)) (s.m.port p).train.ownClass (BitVec.ofNat 2 (bits block 29 2)).toNat = g) (hne : g ≠ 0) :
    Completes (.ts2Receive p block) s fun m => (m.port p).stat = { (s.m.port p).stat with state := .equalise } ∧
      (m.port p).train.target = g ∧ (m.port p).far.node = BitVec.ofNat 16 (bits block 0 16) ∧ s.m.otherPorts m p := by
  have hcheck := (ts2Reason_modPort s.m (f := notedTs2 block) rfl block).trans hreason
  refine (completes_inState (m := (s.m.modPort p (notedTs2 block)).modPort p (agreedTs2 s.m.hly.reg.nodeValid g)) rfl hst ?agree
    (modPort_modPort_port s.m p _ _)).imp ?facts
  case agree =>
    rw [if_neg (by simp [hcrc, hround])]
    dsimp only
    split
    case h_1 h => cases h.symm.trans hcheck
    case h_2 h =>
      simp only [modPort_port, ↓reduceIte, hlast, hrun, hg]
      rw [if_pos ⟨by omega, hne⟩]
      rfl
  case facts =>
    rintro m ⟨hp, hothers⟩
    rw [hp]
    exact ⟨rfl, rfl, rfl, hothers⟩

end

/-- What a port has measured when its verification ends (03 R85). -/
def verifiedPort (mine farMask : LaneMask) (delayNs : Nat) (r : PortRec) : PortRec :=
  { r with stat := { r.stat with rxGood := mine }, train := { r.train with farRxGood := farMask, delayNs := delayNs } }

/-- Four lanes that both ends can use at SL3 take the port from VERIFY to ACTIVE (03 R85). -/
theorem verifyDone_sl3 {p : Port} {rxGood : LaneMask} {far : BitVec 128} {delayNs : Nat} {s : State}
    (hst : (s.m.port p).stat.state = .verify) (hcrc : (crc32 (leBytes 12 (bits far 0 96))).toNat = bits far 96 32)
    (hround : bitAt far 35 = true) (hgen : (s.m.port p).train.gen = 2)
    (hmask : rxGood &&& (s.m.port p).train.converged &&& BitVec.ofNat 4 (bits far 31 4) = 15) :
    Completes (.portVerifyDone p rxGood far delayNs) s fun m =>
      m.port p = activePort (verifiedPort (rxGood &&& (s.m.port p).train.converged) (BitVec.ofNat 4 (bits far 31 4)) delayNs (s.m.port p)) 2 15 ∧
      s.m.otherPorts m p := by
  have hwide : widthOf 15 = 4 := by decide
  let a := s.m.modPort p (verifiedPort (rxGood &&& (s.m.port p).train.converged) (BitVec.ofNat 4 (bits far 31 4)) delayNs)
  refine completes_inState (m := (a.emit (.ts2 p (a.ownTs2 p 1))).enterActive p 2 15) rfl hst ?_ fun q => ?_
  · rw [if_neg (by simp [hcrc, hround])]
    simp only [hmask, hwide, emit_port, modPort_port, ↓reduceIte, hgen]
    rfl
  · by_cases hq : q = p <;> simp [a, enterActive_port, hq]

/-- Settles O16: each of the seven commands is taken in its port's state and writes that port; what else it does (a block sent, a flood,
a port without a trained neighbour as time root) leaves the ports. -/
theorem trainingAdvancesAPort : Obligations.TrainingAdvancesAPort := by
  unfold Obligations.TrainingAdvancesAPort
  refine ⟨?detect, ?lock, ?deskew, ?agreed, ?refused, ?equalised, ?verified⟩
  case detect =>
    intro p s hst
    exact completes_inState rfl hst rfl (modPort_port _ _ _)
  case lock =>
    intro p locked s hst hsome
    refine Completes.imp (completes_inState rfl hst (if_neg hsome) (modPort_port _ _ _)) ?_
    rintro m ⟨hp, hothers⟩
    rw [hp]
    exact ⟨rfl, rfl, hothers⟩
  case deskew =>
    intro p aligned s hst hsome
    have hsent : Completes (.portDeskewDone p aligned) s fun m => m.out = s.m.out ++ [Out.ts2 p (m.ownTs2 p 0)] :=
      .of_done rfl (by rw [inState_of hst]; dsimp only; rw [if_neg hsome]; rfl)
    refine Completes.imp (.and (completes_inState rfl hst (if_neg hsome) fun q => (emit_port _ _ q).trans (modPort_port _ _ _ q)) hsent) ?_
    rintro m ⟨⟨hp, hothers⟩, hout⟩
    rw [hp]
    exact ⟨rfl, rfl, rfl, hout, hothers⟩
  case agreed =>
    intro p block s hst hcrc hround hreason hlast hrun g hne
    exact ts2Receive_agreed hst hcrc hround hreason hlast hrun rfl hne
  case refused =>
    intro p block reason s hst hcrc hround hreason
    refine (ts2Receive_refused hst hcrc hround hreason).imp ?_
    rintro m ⟨hp, hothers⟩
    rw [hp]
    exact ⟨rfl, rfl, hothers⟩
  case equalised =>
    intro p converged s hst
    refine Completes.imp (completes_inState rfl hst rfl (modPort_port _ _ _)) ?_
    rintro m ⟨hp, hothers⟩
    rw [hp]
    exact ⟨rfl, rfl, hothers⟩
  case verified =>
    intro p rxGood far delayNs s hst hcrc hround hgen hmask
    refine (verifyDone_sl3 hst hcrc hround hgen hmask).imp ?_
    rintro m ⟨hp, hothers⟩
    rw [hp]
    exact ⟨rfl, rfl, (by decide : widthOf 15 = 4), (by decide : lanesOf 15 = 15), rfl, rfl, hothers⟩

/-! ### Failed attempts and the backoff -/

/-- A backoff ends unless the port dropped for want of the reference and the reference is still missing (02 R73). -/
theorem holdoff_not_held {m : Machine} {p : Nat} (h : (m.port p).stat.reason ≠ 0x10 ∨ m.time.refclkOk = true) :
    ¬((m.port p).stat.reason = 0x10 ∧ (!m.time.refclkOk) = true) := by
  rcases h with h | h <;> simp [h]

/-- Settles O17: a failed attempt writes its own port alone, and both ways back to DETECT read the cable's class first. -/
theorem failedTrainingBacksOff : Obligations.FailedTrainingBacksOff := by
  unfold Obligations.FailedTrainingBacksOff
  refine ⟨?sync, ?deskew, ?exchange, ?signal, ?detect, ?refused, ?held, ?returned⟩
  case sync =>
    intro p s hst
    exact completes_inState rfl hst rfl (portFail_port _ _ _)
  case deskew =>
    intro p s hst
    exact completes_inState rfl hst rfl (portFail_port _ _ _)
  case exchange =>
    intro p s hst
    exact completes_inState rfl hst rfl (portFail_port _ _ _)
  case signal =>
    intro p s hst
    exact .of_done rfl (by rw [if_pos hst]; exact port_and_otherPorts (portFail_port _ _ _))
  case detect =>
    intro p cable cls s hst hfree hcls
    obtain ⟨r, hport, hstate, hreason, hown, hattempts⟩ := enterDetect_port hcls
    refine Completes.imp (completes_inState rfl hst (if_neg (holdoff_not_held hfree)) hport) ?_
    rintro m ⟨hp, hothers⟩
    rw [hp]
    exact ⟨hstate, hown, hreason, hattempts, hothers⟩
  case refused =>
    intro p cable reason s hst hfree hcls
    refine Completes.imp (completes_inState rfl hst (if_neg (holdoff_not_held hfree)) (enterDetect_port_of_refused hcls)) ?_
    rintro m ⟨hp, hothers⟩
    rw [hp]
    exact ⟨rfl, hothers⟩
  case held =>
    intro p cable s hst hreason href
    refine Completes.imp (completes_inState rfl hst (if_pos ⟨hreason, by rw [href]; rfl⟩) (modPort_port _ _ _)) ?_
    rintro m ⟨hp, hothers⟩
    rw [hp]
    exact ⟨rfl, hothers⟩
  case returned =>
    intro p cable cls s hst hcls
    obtain ⟨r, hport, hstate, -, hown, -⟩ := enterDetect_port hcls
    refine Completes.imp (completes_inState rfl hst rfl hport) ?_
    rintro m ⟨hp, hothers⟩
    rw [hp]
    exact ⟨hstate, hown, hothers⟩

/-! ### A GOING_DOWN from the standby -/

/-- A present, admitted package. -/
def presentNodeRec (n : NodeId) : NodeRec :=
  { node := n, admission := 0, role := 0, uid := 1, bootId := 0, preset := 0, eligible := true, up := 2, degraded := 0, down := 0, state := 0,
    changeGen := 0 }

/-- A live link from package 0 to package 8 on the same port of both. -/
def liveLinkTo8 (p : Nat) : LinkRec :=
  { node := 0, port := p, dir := 0, pos := p, farNode := 8, farPort := p, status := 2, gen := 2, width := 4, reason := 0, flags := 1,
    weight := 90, changeGen := 0 }

/-- An ACTIVE port towards package 8. -/
def activeTo8 : PortRec :=
  { PortRec.reset with
    stat := { PortStat.reset with state := .active, assigned := true, gen := 2, width := 4, lanes := 15, rxGood := 15 }
    far := { PortFar.reset with node := 8, valid := true } }

/-- PORT_TEST_RETRAIN of port SP0 of package 0, in hand at the master. -/
def testRetrainOfPort0 : HlyCmdRec :=
  { src := .mailbox, opcode := 0x05, seq := 0, podSeq := 1, args := [0], data := [], cable := none }

/-- The master 0 of a pod of packages 0 and 8, joined by the ports SP0 and SP1: its PORT_TEST_RETRAIN of SP0 is replicated under number 1 and
awaits the acknowledgement of the standby 8 (04 R116, R136). -/
def awaitingStandby : State where
  pending := []
  m :=
    { (Machine.reset.setPort 0 activeTo8).setPort 1 activeTo8 with
      hly := { Hly.reset with
        reg := { HlyReg.reset with state := .run, role := .master, master := 0, standby := 8, quorum := true, admitted := true }
        db := { HlyDb.reset with nodes := [presentNodeRec 0, presentNodeRec 8], links := [liveLinkTo8 0, liveLinkTo8 1] }
        cur := some testRetrainOfPort0
        repl := { Hly.reset.repl with seq := 1, actions := [(1, .run)] } } }

/-- GOING_DOWN on SP1 marks the standby absent, which commits what awaited its acknowledgement: SP0 starts the commanded retrain. -/
theorem goingDown_of_standby_retrains_port0 :
    Completes (.goingDownReceive 1 (linkWord 5)) awaitingStandby fun m => (m.port 0).stat.state = .retrain :=
  .of_done rfl (by decide +kernel)

/-- Refutes O18: at a master, GOING_DOWN also marks the far package absent and carries out what that commits (04 R116, R134), so another
port than the one lost can change; here a command on SP0 had awaited the standby that goes down. -/
theorem not_retrainAndLossTakeThePortDown : ¬ Obligations.RetrainAndLossTakeThePortDown := by
  unfold Obligations.RetrainAndLossTakeThePortDown
  intro h
  obtain ⟨-, -, -, -, -, -, -, goingDown, -, -⟩ := h
  have hactive : (awaitingStandby.m.port 1).stat.state = .active := by decide
  have hlost := goingDown 1 (linkWord 5) awaitingStandby (.inl hactive) (by decide +kernel)
  obtain ⟨t, -, -, hretrain, -, hothers, -⟩ := goingDown_of_standby_retrains_port0.and hlost
  rw [hothers 0 (by decide)] at hretrain
  exact absurd hretrain (by decide)

end Sys2Proof.Machine

/-! ## Halyard: commands taken in -/

namespace Sys2Proof.Machine

/-! ### A command's record -/

/-- The record of a member's command at the master. -/
def forwardedRec (op : Nat) (n : NodeId) (args : List Word) (data : List Byte) (cable : Option CableRead) : HlyCmdRec :=
  { src := .node n, opcode := op, seq := 0, podSeq := 0, args := args, data := data, cable := cable }

section
variable (op : Nat) (n : NodeId) (args : List Word) (data : List Byte) (cable : Option CableRead)

@[simp] theorem forwardedRec_arg (i : Nat) : (forwardedRec op n args data cable).arg i = (argRec args).arg i := rfl
@[simp] theorem forwardedRec_addr (i : Nat) : (forwardedRec op n args data cable).addr i = (argRec args).addr i := rfl
@[simp] theorem forwardedRec_np (i : Nat) : (forwardedRec op n args data cable).np i = (argRec args).np i := rfl
@[simp] theorem forwardedRec_only (l : List Word) : (forwardedRec op n args data cable).only l = (argRec args).only l := rfl

end

@[simp] theorem boxRec_arg (m : Machine) (op : Nat) (seq : BitVec 8) (i : Nat) : (m.boxRec op seq).arg i = m.boxArgs.arg i := rfl
@[simp] theorem boxRec_only (m : Machine) (op : Nat) (seq : BitVec 8) (l : List Word) :
    (m.boxRec op seq).only l = m.boxArgs.only l := rfl

/-- What answers a member's command with the status, results and bytes that executing it gave. -/
def ownReply (n : NodeId) (op : Nat) (r : Machine × Nat × List Word × List Byte) : Machine :=
  r.1.tell n (.reply op r.2.1 r.2.2.1 r.2.2.2)

/-- What keeps the status, results and bytes that executing a command gave for HLY_CMD_RESULT. -/
def ownDone (c : HlyCmdRec) (r : Machine × Nat × List Word × List Byte) : Machine :=
  r.1.pushDone { cmd := c, status := r.2.1, res := r.2.2.1, data := r.2.2.2 }

/-- The machine as its mailbox has taken in a command. -/
def Machine.boxTaken (m : Machine) (op : Nat) (seq : BitVec 8) : Machine :=
  { m with hly := { m.hly with
      boxCmd := some (m.boxRec op seq), box := { m.hly.box with opcode := op, seq := seq.toNat, busy := true, done := false } } }

section
variable {m : Machine}

theorem takeCmd_forwarded (h : m.isMaster = true) (op : Nat) (n : NodeId) (args : List Word) (d data : List Byte)
    (cable : Option CableRead) : m.takeCmd op (.forwarded n args d) data cable = (m, some (forwardedRec op n args d cable)) :=
  if_pos h

theorem takeCmd_mailbox (h : m.boxOpen = true) (op : Nat) (seq : BitVec 8) :
    m.takeCmd op (.mailbox seq) [] none = (m.boxTaken op seq, some (m.boxRec op seq)) := by
  obtain ⟨⟨hon, hrescue⟩, hbusy⟩ : (m.boot.on = true ∧ m.boot.rescue = false) ∧ m.hly.box.busy = false := by
    simpa [Machine.boxOpen] using h
  simp [Machine.takeCmd, Machine.boxTaken, Machine.boxRec, hon, hrescue, hbusy]

/-- A member's command that the master executes itself is answered at once. -/
theorem ownCmd_forwarded (h : m.isMaster = true) (op : Nat) (n : NodeId) (args : List Word) (d : List Byte)
    (f : HlyCmdRec → Machine → Machine × Nat × List Word × List Byte) :
    m.ownCmd op (.forwarded n args d) f = ownReply n op (f (forwardedRec op n args d none) m) := by
  unfold Machine.ownCmd
  rw [takeCmd_forwarded h]
  rfl

/-- A mailbox command that the package executes itself leaves its result to HLY_CMD_RESULT. -/
theorem ownCmd_mailbox (h : m.boxOpen = true) (op : Nat) (seq : BitVec 8)
    (f : HlyCmdRec → Machine → Machine × Nat × List Word × List Byte) :
    m.ownCmd op (.mailbox seq) f = ownDone (m.boxRec op seq) (f (m.boxRec op seq) (m.boxTaken op seq)) := by
  unfold Machine.ownCmd
  rw [takeCmd_mailbox h]
  rfl

end

/-! ### Rigging fields, results -/

/-- A rigging field written by command, and the write counted (16 R458). -/
def Machine.rigWritten (m : Machine) (n v : Nat) : Machine :=
  { m.setRig n v with boot := { (m.setRig n v).boot with rigWrites := satAdd32 m.boot.rigWrites 1 } }

theorem rigWritten_rig (m : Machine) (n v : Nat) : (m.rigWritten n v).rig n = v := by
  show (tget none (tset none m.boot.rig n (some v)) n).getD _ = v
  rw [tget_tset_same]
  rfl

theorem note_hly (m : Machine) (step code arg d2 : Nat) : (m.note step code arg d2).hly = m.hly :=
  Kept.hly (W := [.boot, .ttl, .flash]) (by apply note_kept .refl <;> decide) (by decide)

/-- RES0 to RES7 as a command's end writes them. -/
theorem tget_foldl_tset_range (f : Nat → Word) (n i : Nat) (hi : i < n) :
    tget 0 ((List.range n).foldl (fun t i => tset 0 t i (f i)) ([] : Table Word)) i = f i := by
  induction n with
  | zero => omega
  | succ n ih =>
    rw [List.range_succ, List.foldl_append, List.foldl_cons, List.foldl_nil, tget_tset]
    split
    · next h => rw [h]
    · exact ih (by omega)

/-- What a mailbox command's end leaves in the mailbox (04 R138, R139). -/
theorem endMailbox_hly (m : Machine) (d : HlyDone) : (m.endMailbox d).hly = { m.hly with
    boxCmd := none
    box := { m.hly.box with
      status := d.status, statSeq := d.cmd.seq, busy := false, done := true
      res := (List.range 8).foldl (fun t i => tset 0 t i (d.res.getD i 0)) [] } } := by
  have hint (a : Machine) : (a.interrupt 0 1).hly = a.hly :=
    Kept.hly (W := [.msix, .out]) (by apply interrupt_kept .refl <;> decide) (by decide)
  unfold Machine.endMailbox
  dsimp only
  rw [hint]
  split <;> rfl

theorem endMailbox_host (m : Machine) (d : HlyDone) :
    (m.endMailbox d).hostMem = (m.hostWrite (d.cmd.addr (dataArg d.cmd.opcode)) d.data).hostMem ∧
    (m.endMailbox d).hst.flushCnt = if d.data = [] then m.hst.flushCnt else satAdd32 m.hst.flushCnt 1 := by
  have hkept (a : Machine) : Kept [.msix, .out] a (a.interrupt 0 1) := by apply interrupt_kept .refl <;> decide
  unfold Machine.endMailbox
  dsimp only
  rw [(hkept _).hostMem (by decide), (hkept _).hst (by decide)]
  by_cases hd : d.data = []
  · simp only [hd]; exact ⟨rfl, rfl⟩
  · have : d.data.isEmpty = false := by simpa using hd
    simp only [this, if_neg hd]; exact ⟨rfl, rfl⟩

/-- Settles O24: a member's command and a mailbox command that the package executes itself are each one equation (`ownCmd_forwarded`,
`ownCmd_mailbox`), and a mailbox command's end writes the mailbox alone of Halyard (`endMailbox_hly`). -/
theorem ownCommandsAndTheirResults : Obligations.OwnCommandsAndTheirResults := by
  unfold Obligations.OwnCommandsAndTheirResults
  refine ⟨?topoRead, ?epochQuery, ?rigWrite, ?powerCap, ?rigRead, ?result, ?noMaster, ?nothing⟩
  case topoRead =>
    intro n args data s hmaster honly haligned
    refine .of_done rfl ?_
    simp only [ownCmd_forwarded hmaster, forwardedRec_only, forwardedRec_addr, forwardedRec_arg, honly, haligned, Bool.not_true,
      Bool.false_eq_true, or_self, if_false]
    by_cases hsmall : ((argRec args).arg 2).toNat < s.m.dbBytes.length
    · simp only [hsmall, if_true]
      exact ⟨rfl, fun hle => absurd hsmall (Nat.not_lt.mpr hle), fun _ => rfl⟩
    · simp only [hsmall, if_false]
      exact ⟨rfl, fun _ => rfl, False.elim⟩
  case epochQuery =>
    intro n data s hmaster
    refine .of_done rfl ?_
    have hnoArgs : (argRec []).only [] = true := by decide
    simp only [ownCmd_forwarded hmaster, forwardedRec_only, hnoArgs, Bool.not_true, Bool.false_eq_true, if_false]
    exact ⟨rfl, rfl⟩
  case rigWrite =>
    intro seq s n v hopen honly hlisted hruntime hcap hramp hrange
    refine .of_done rfl ?_
    have hrange' : (s.m.boxTaken 0x0B seq).rigInRange (bits (s.m.boxArgs.arg 0) 0 16) (s.m.boxArgs.arg 1).toNat = true := hrange
    simp only [ownCmd_mailbox hopen, boxRec_only, boxRec_arg, honly, hlisted, hruntime, hcap, hramp, hrange', n, v, Bool.not_true,
      Bool.false_eq_true, or_self, false_and, if_false, beq_eq_false_iff_ne.mpr hramp, Bool.false_and, Bool.not_false, if_true]
    exact ⟨rigWritten_rig _ _ _, rfl, rfl⟩
  case powerCap =>
    intro seq s v w hopen honly hn hlisted hruntime
    have hw : max 300 (min v (s.m.boxTaken 0x0B seq).gradeCap) = w := rfl
    refine .of_done rfl ?_
    rw [ownCmd_mailbox hopen]
    simp only [boxRec_only, boxRec_arg, honly, hn, hlisted, hruntime, Bool.not_true, Bool.false_eq_true, or_self, if_false, if_true]
    by_cases hv : w = v
    · simp only [show (s.m.boxArgs.arg 1).toNat = v from rfl, hw, hv, if_true]
      exact ⟨rigWritten_rig _ 6 v, rfl⟩
    · simp only [show (s.m.boxArgs.arg 1).toNat = v from rfl, hw, hv, if_false]
      exact ⟨rigWritten_rig _ 6 w, congrArg (·.finished ++ _) (note_hly _ _ _ _ _)⟩
  case rigRead =>
    intro seq s n hopen honly hlisted hramp
    refine .of_done rfl ?_
    simp only [ownCmd_mailbox hopen, boxRec_only, boxRec_arg, honly, hlisted, hramp, n, Bool.not_true, Bool.false_eq_true, or_self, if_false]
    exact ⟨rfl, rfl⟩
  case result =>
    intro reply d l s hfinished hsrc
    refine .of_done rfl ?_
    have hfind : s.m.hly.finished.find? (fun d => d.cmd.src == .mailbox) = some d := by simp [hfinished, hsrc]
    simp only [Bool.false_eq_true, if_false, hfind]
    obtain ⟨hmem, hflush⟩ := endMailbox_host { s.m with hly := { s.m.hly with finished := s.m.hly.finished.erase d } } d
    rw [endMailbox_hly]
    refine ⟨by simp [hfinished], rfl, rfl, rfl, rfl, rfl, fun i hi => tget_foldl_tset_range (fun i => d.res.getD i 0) 8 i hi, hmem, hflush⟩
  case noMaster =>
    intro c s hbox hmaster hfinished
    refine .of_done rfl ?_
    simp only [hbox, hmaster, hfinished, List.any_nil, Bool.false_eq_true, or_self, if_false]
    rw [endMailbox_hly]
    exact ⟨rfl, rfl, rfl, rfl, rfl⟩
  case nothing =>
    intro s hbox
    exact .of_done rfl (by simp only [hbox, Bool.false_eq_true, if_false])

end Sys2Proof.Machine

/-! ## Halyard: what its shared operations leave as it was -/

namespace Sys2Proof.Machine

/-! ### Messages sent -/

section
variable (m : Machine)

theorem foldl_tell (msg : Mgmt) (l : List NodeId) :
    l.foldl (fun m d => m.tell d msg) m = { m with out := m.out ++ l.map fun d => Out.mgmt d msg } := by
  induction l generalizing m with
  | nil => simp
  | cons d l ih => rw [List.foldl_cons, ih]; simp [Machine.tell, Machine.emit]

theorem tellAll_eq (dsts : List NodeId) (msg : Mgmt) :
    m.tellAll dsts msg = { m with out := m.out ++ (dsts.filter (· != m.node)).map fun d => Out.mgmt d msg } :=
  foldl_tell m msg _

theorem tellKids_eq (root : NodeId) (msg : Mgmt) :
    m.tellKids root msg = { m with out := m.out ++ ((m.kidsUnder root).filter (· != m.node)).map fun d => Out.mgmt d msg } :=
  tellAll_eq m _ msg

/-! ### The master's changes and their replication -/

variable {m} in
theorem submit_of_master (h : m.isMaster = true) (c : Change) :
    m.submit c = m.modWork fun w =>
      { w with changes := w.changes ++ [c], phase := if w.phase = .idle then .collecting else w.phase } := if_pos h

variable {m} in
theorem submit_of_other (h : m.isMaster = false) (c : Change) : m.submit c = m := if_neg (by simp [h])

theorem submit_repl (c : Change) : (m.submit c).hly.repl = m.hly.repl := by
  unfold Machine.submit
  split <;> rfl

theorem replicate_work : m.replicate.hly.work = m.hly.work := by
  unfold Machine.replicate
  dsimp only
  split <;> rfl

theorem replicate_reg : m.replicate.hly.reg = m.hly.reg := by
  unfold Machine.replicate
  dsimp only
  split <;> rfl

theorem replicate_seq : m.replicate.hly.repl.seq = m.hly.repl.seq + 1 := by
  unfold Machine.replicate
  dsimp only
  split <;> rfl

theorem replicate_actions : m.replicate.hly.repl.actions = m.hly.repl.actions := by
  unfold Machine.replicate
  dsimp only
  split <;> rfl

theorem replicate_out_prefix : m.out <+: m.replicate.out := by
  unfold Machine.replicate
  dsimp only
  split
  · exact List.prefix_rfl
  · exact List.prefix_append _ _

variable {m} in
/-- With no standby a change is committed at once, and nothing is sent (04 R116). -/
theorem replicate_of_no_standby (h : m.hly.reg.standby = 0xFFFF) :
    m.replicate = { m with hly := { m.hly with repl := { m.hly.repl with seq := m.hly.repl.seq + 1, acked := m.hly.repl.seq + 1 } } } := by
  simp [Machine.replicate, h]

/-! ### Epoch work, its abort and the flood of the own record -/

/-- The machine without what the master's epoch work, its abort and a flood of the own record write: the work, its banks, admission, the records
of the database, the counts of replication, the planner's results in hand, slices, Telltale, progress counters and what is sent. -/
def Machine.sansWork (m : Machine) : Machine :=
  { m with
    slc := .reset, ttl := .reset, luff := .reset, out := []
    tkp := { m.tkp with held := [], heldClaims := [], replanHeld := [], replanClaims := [], rampPlan := none, queue := [], job := none, busy := false }
    hly := { m.hly with
      work := .reset, prepWait := none, bank0 := .reset, bank1 := .reset, commitAt := none
      reg := { m.hly.reg with prepared := false, admitted := false, admitCode := 0 }
      repl := { m.hly.repl with seq := 0, acked := 0 }
      db := { m.hly.db with nodes := [], links := [], facts := [], ownSeq := 0 } } }

variable {m} in
theorem isMaster_of_sansWork {a : Machine} (h : a.sansWork = m.sansWork) : a.isMaster = m.isMaster :=
  (congrArg Machine.isMaster h : a.sansWork.isMaster = m.sansWork.isMaster)

variable {m} in
theorem node_of_sansWork {a : Machine} (h : a.sansWork = m.sansWork) : a.node = m.node :=
  (congrArg Machine.node h : a.sansWork.node = m.sansWork.node)

theorem sansWork_foldl {α : Type} {f : Machine → α → Machine} (hf : ∀ m x, (f m x).sansWork = m.sansWork) (l : List α) :
    (l.foldl f m).sansWork = m.sansWork := by
  induction l generalizing m with
  | nil => rfl
  | cons x l ih => rw [List.foldl_cons, ih, hf]

@[simp] theorem emit_sansWork (o : Out) : (m.emit o).sansWork = m.sansWork := rfl
@[simp] theorem tell_sansWork (n : NodeId) (msg : Mgmt) : (m.tell n msg).sansWork = m.sansWork := rfl
@[simp] theorem tellAll_sansWork (l : List NodeId) (msg : Mgmt) : (m.tellAll l msg).sansWork = m.sansWork := by rw [tellAll_eq]; rfl
@[simp] theorem tellKids_sansWork (n : NodeId) (msg : Mgmt) : (m.tellKids n msg).sansWork = m.sansWork := tellAll_sansWork m _ msg
@[simp] theorem hlyItem_sansWork (t : Nat) : (m.hlyItem t).sansWork = m.sansWork := rfl
@[simp] theorem raise_sansWork (src unit : Nat) : (m.raise src unit).sansWork = m.sansWork := by rw [Machine.raise, raiseAs_fields]; rfl
@[simp] theorem modWork_sansWork (f : EpochWork → EpochWork) : (m.modWork f).sansWork = m.sansWork := rfl
@[simp] theorem modSlice_sansWork (t : Nat) (f : SliceRec → SliceRec) : (m.modSlice t f).sansWork = m.sansWork := rfl
@[simp] theorem pushJob_sansWork (j : Job) : (m.pushJob j).sansWork = m.sansWork := rfl

@[simp] theorem submit_sansWork (c : Change) : (m.submit c).sansWork = m.sansWork := by
  unfold Machine.submit
  split <;> rfl

@[simp] theorem replicate_sansWork : m.replicate.sansWork = m.sansWork := by
  unfold Machine.replicate
  dsimp only
  split <;> rfl

@[simp] theorem dropPrepared_sansWork (e : BitVec 16) : (m.dropPrepared e).sansWork = m.sansWork := by
  unfold Machine.dropPrepared
  dsimp only
  split
  · split <;> rfl
  · rfl

@[simp] theorem fillBank_sansWork (pr : Prepare) (nodes : List NodeRec) (links : List LinkRec) :
    (m.fillBank pr nodes links).sansWork = m.sansWork := by
  unfold Machine.fillBank
  dsimp only
  split
  · rfl
  · rfl

@[simp] theorem abortPrepare_sansWork : m.abortPrepare.sansWork = m.sansWork := by
  unfold Machine.abortPrepare
  dsimp only
  rw [replicate_sansWork]
  trans (((m.tellAll m.otherNodes (.abort m.hly.work.epoch)).raise 502 0).dropPrepared m.hly.work.epoch).sansWork
  · exact sansWork_foldl _ (fun a t => by split <;> rfl) _
  · simp

@[simp] theorem lossAborts_sansWork (r : LsRecord) : (m.lossAborts r).sansWork = m.sansWork := by
  unfold Machine.lossAborts
  dsimp only
  split
  · exact abortPrepare_sansWork m
  · rfl

@[simp] theorem takeRecord_sansWork (r : LsRecord) : (m.takeRecord r).sansWork = m.sansWork := by
  unfold Machine.takeRecord
  split
  · rfl
  · split
    · rfl
    · simp

@[simp] theorem stampNodes_sansWork (f : NodeRec → NodeRec) : (m.stampNodes f).sansWork = m.sansWork := by
  unfold Machine.stampNodes
  dsimp only
  split
  · rfl
  · rw [submit_sansWork]; rfl

@[simp] theorem setRoles_sansWork : m.setRoles.sansWork = m.sansWork := stampNodes_sansWork m _
@[simp] theorem checkAll_sansWork : m.checkAll.sansWork = m.sansWork := stampNodes_sansWork m _
@[simp] theorem openEpoch_sansWork : m.openEpoch.sansWork = m.sansWork := submit_sansWork m _

@[simp] theorem flood_sansWork (skip : Option Nat) (msg : Mgmt) : (m.flood skip msg).sansWork = m.sansWork :=
  sansWork_foldl m (fun a p => emit_sansWork a (.mgmtPort p msg)) _

@[simp] theorem floodOwn_sansWork : m.floodOwn.sansWork = m.sansWork := by
  unfold Machine.floodOwn
  dsimp only
  split
  · rw [takeRecord_sansWork, flood_sansWork]; rfl
  · split
    · exact flood_sansWork _ _ _
    · exact flood_sansWork _ _ _

@[simp] theorem yieldDuplicate_sansWork : m.yieldDuplicate.sansWork = m.sansWork := by
  unfold Machine.yieldDuplicate
  dsimp only
  split
  · rw [floodOwn_sansWork]
    exact raise_sansWork _ _ _
  · rfl

end

end Sys2Proof.Machine

/-! ## Halyard: discovery and election -/

namespace Sys2Proof.Machine

/-! ### What boot steps that wait on Halyard leave -/

section
variable (m : Machine)

theorem bootSettle_keeps : Kept [.boot, .ttl, .flash, .out] m m.bootSettle := by apply bootSettle_kept .refl <;> decide

@[simp] theorem bootSettle_hly : m.bootSettle.hly = m.hly := (bootSettle_keeps m).hly (by decide)
@[simp] theorem bootSettle_tkp : m.bootSettle.tkp = m.tkp := (bootSettle_keeps m).tkp (by decide)

theorem settleStep_out_prefix (k : Nat) : m.out <+: (m.settleStep k).out := by
  have htake (a : Machine) (n : Nat) : (a.takeBundle n).out = a.out :=
    Kept.out (W := [.boot, .ttl, .flash]) (by apply takeBundle_kept .refl <;> decide) (by decide)
  have hcomplete (a : Machine) (n : Nat) : (a.completeStep n).out = a.out :=
    Kept.out (W := [.boot, .ttl, .flash]) (by apply completeStep_kept .refl <;> decide) (by decide)
  have hhave (a : Machine) : a.out <+: a.sendHave.out := by
    unfold Machine.sendHave
    split
    · split
      · exact List.prefix_append _ _
      · exact List.prefix_rfl
    · exact List.prefix_rfl
  have hbundle : m.out = ((if k = 31 ∧ (!m.boot.fw.bundleOk) = true then m.takeBundle (m.bundleSource.getD 0) else m).completeStep k).out := by
    rw [hcomplete]
    split
    · rw [htake]
    · rfl
  unfold Machine.settleStep
  split
  · dsimp only
    split
    · exact hbundle ▸ hhave _
    · exact hbundle ▸ List.prefix_rfl
  · exact List.prefix_rfl

/-- Boot steps that complete may send, after what was sent before. -/
theorem bootSettle_out_prefix : m.out <+: m.bootSettle.out := by
  have hfold (l : List Nat) (a : Machine) : a.out <+: (l.foldl (fun (m : Machine) k => m.settleStep k) a).out := by
    induction l generalizing a with
    | nil => exact List.prefix_rfl
    | cons k l ih => exact (settleStep_out_prefix a k).trans (ih _)
  exact hfold _ m

/-! ### The master changes -/

/-- What a command that ends DROPPED leaves: its result here, or an answer (04 R138). -/
theorem dropCmd_shape (c : HlyCmdRec) : ∃ fin o, m.dropCmd c = { m with hly := { m.hly with finished := fin }, out := m.out ++ o } := by
  unfold Machine.dropCmd
  split
  · exact ⟨m.hly.finished, _, rfl⟩
  · exact ⟨_, [], by rw [List.append_nil]⟩

theorem dropCmd_unless_shape (c : HlyCmdRec) (p : Prop) [Decidable p] : ∃ fin o,
    (if p then m else m.dropCmd c) = { m with hly := { m.hly with finished := fin }, out := m.out ++ o } := by
  split
  · exact ⟨m.hly.finished, [], by rw [List.append_nil]⟩
  · exact dropCmd_shape m c

theorem foldl_dropCmd_shape (l : List HlyCmdRec) : ∃ fin o,
    l.foldl (fun m c => m.dropCmd c) m = { m with hly := { m.hly with finished := fin }, out := m.out ++ o } := by
  induction l generalizing m with
  | nil => exact ⟨m.hly.finished, [], by rw [List.append_nil]; rfl⟩
  | cons c l ih =>
    obtain ⟨fin, o, h⟩ := dropCmd_shape m c
    obtain ⟨fin', o', h'⟩ := ih (m.dropCmd c)
    exact ⟨fin', o ++ o', by rw [List.foldl_cons, h', h]; simp⟩

/-- Nothing of the old master's acts any more: no command in hand or waiting, no action; what ended is kept or answered (04 R119, R138). -/
theorem dropCmds_shape : ∃ fin o, m.dropCmds = { m with
    hly := { m.hly with cur := none, waiting := [], finished := fin, repl := { m.hly.repl with actions := [] } }, out := m.out ++ o } := by
  let a := { m with hly := { m.hly with cur := none, waiting := [], repl := { m.hly.repl with actions := [] } } }
  obtain ⟨fin, o, h⟩ := foldl_dropCmd_shape a (m.hly.cur.toList ++ m.hly.waiting)
  have hbox (b : Machine) : ∃ fin o, (match b.hly.boxCmd with
      | some c => if b.ended .mailbox then b else b.dropCmd c
      | none => b) = { b with hly := { b.hly with finished := fin }, out := b.out ++ o } := by
    split
    · exact dropCmd_unless_shape b _ _
    · exact ⟨b.hly.finished, [], by rw [List.append_nil]⟩
  have hmctp (b : Machine) : ∃ fin o, (match b.hly.mctp with
      | some c => if b.ended .mctp ∨ !b.hly.mctpStarted then b else b.dropCmd c
      | none => b) = { b with hly := { b.hly with finished := fin }, out := b.out ++ o } := by
    split
    · exact dropCmd_unless_shape b _ _
    · exact ⟨b.hly.finished, [], by rw [List.append_nil]⟩
  obtain ⟨fin', o', h'⟩ := hbox { a with hly := { a.hly with finished := fin }, out := a.out ++ o }
  obtain ⟨fin'', o'', h''⟩ := hmctp { a with hly := { a.hly with finished := fin' }, out := a.out ++ o ++ o' }
  refine ⟨fin'', o ++ o' ++ o'', ?_⟩
  unfold Machine.dropCmds
  dsimp only
  rw [h]
  refine (congrArg (fun b : Machine => match b.hly.mctp with
      | some c => if b.ended .mctp ∨ !b.hly.mctpStarted then b else b.dropCmd c
      | none => b) h').trans (h''.trans ?_)
  simp [a]

/-- A master is accepted: this package goes on in RUN as a member, or as its standby, and the master's work here is over (04 R115). -/
theorem acceptMaster_shape (n : NodeId) : ∃ fin o, m.acceptMaster n = { m with
    time := { m.time with root := false }
    hly := { m.hly with
      cur := none, waiting := [], finished := fin, work := .reset, repl := { m.hly.repl with actions := [] }
      reg := { m.hly.reg with
        state := .run, master := n, role := if m.hly.reg.standby = m.node ∧ m.hly.reg.master = n then .standby else .member }
      db := { m.hly.db with confirmed := false, settled := true, announced := n, masterHeld := [] } }
    out := m.out ++ o } := by
  obtain ⟨fin, o, h⟩ := dropCmds_shape m
  exact ⟨fin, o, by unfold Machine.acceptMaster; rw [h]; rfl⟩

/-- What is so once a package has become master of its component (04 R115, R117; 02 R69). -/
structure Crowned (m m' : Machine) : Prop where
  state : m'.hly.reg.state = .run
  role : m'.hly.reg.role = .provisional
  master : m'.hly.reg.master = m.node
  topoGen : m'.hly.reg.topoGen = m.hly.reg.topoGen
  node : m'.node = m.node
  eligible : m'.hly.db.eligible = m.hly.db.eligible
  settled : m'.hly.db.settled = true
  root : m'.time.root = true
  depth : m'.time.depth = 0
  resv : m'.tkp.resv = m.tkp.resv
  actions : m'.hly.repl.actions = []
  waiting : m'.hly.waiting = []

/-- The checks and the naming of a standby change nothing that a new master is known by but its standby. -/
theorem nameStandby_sansWork : ∃ n, m.checkAll.nameStandby.sansWork = (m.modHly fun h => { h with standby := n }).sansWork := by
  refine ⟨m.checkAll.chooseStandby, ?_⟩
  unfold Machine.nameStandby
  rw [replicate_sansWork, setRoles_sansWork]
  exact congrArg (fun b : Machine => b.modHly fun h => { h with standby := m.checkAll.chooseStandby }) (checkAll_sansWork m)

theorem crowned_becomeMaster : Crowned m m.becomeMaster := by
  obtain ⟨fin, o, hdrop⟩ := dropCmds_shape m
  have htaken (l : List LsRecord) (x : Machine) : (l.foldl (fun m r => if m.hly.reg.installed && m.tellsNews r then m.takeRecord r
      else m) x).sansWork = x.sansWork :=
    sansWork_foldl x (fun y r => by split; exacts [takeRecord_sansWork y r, rfl]) l
  have hopened (x : Machine) : (if x.hly.reg.installed then x else x.openEpoch).sansWork = x.sansWork := by
    split
    · rfl
    · exact openEpoch_sansWork x
  unfold Machine.becomeMaster
  generalize m.dropCmds = dropped at hdrop
  extract_lets a passed h db repl work tkp b c d e
  obtain ⟨n, hn⟩ := nameStandby_sansWork b.makeRoot
  have hc : c.sansWork = _ := hn
  have hd : d.sansWork = c.sansWork := tellKids_sansWork c _ _
  have he : e.sansWork = d.sansWork := htaken _ d
  have hsame := (hopened e).trans (he.trans (hd.trans hc))
  have hnode : dropped.node = m.node := by rw [hdrop]; rfl
  generalize (if e.hly.reg.installed then e else e.openEpoch) = reigning at hsame ⊢
  exact {
    state := congrArg (·.hly.reg.state) hsame
    role := congrArg (·.hly.reg.role) hsame
    master := congrArg (·.hly.reg.master) hsame
    topoGen := (congrArg (·.hly.reg.topoGen) hsame).trans (congrArg (·.hly.reg.topoGen) hdrop)
    node := (node_of_sansWork hsame).trans hnode
    eligible := (congrArg (·.hly.db.eligible) hsame).trans (congrArg (·.hly.db.eligible) hdrop)
    settled := congrArg (·.hly.db.settled) hsame
    root := congrArg (·.time.root) hsame
    depth := congrArg (·.time.depth) hsame
    resv := (congrArg (·.tkp.resv) hsame).trans (congrArg (·.tkp.resv) hdrop)
    actions := (congrArg (·.hly.repl.actions) hsame).trans (congrArg (·.hly.repl.actions) hdrop)
    waiting := (congrArg (·.hly.waiting) hsame).trans (congrArg (·.hly.waiting) hdrop) }

variable {m} in
/-- In ELECT the package becomes master, goes under the announced master, or stays as it is (04 R114, R115). -/
theorem settleElection_cases (h : m.hly.reg.state = .elect) :
    m.settleElection = m.yieldDuplicate.becomeMaster ∨
    m.hly.db.announced ≠ 0xFFFF ∧ m.settleElection = m.yieldDuplicate.acceptMaster m.hly.db.announced ∨
    m.settleElection = m.yieldDuplicate := by
  have hannounced : m.yieldDuplicate.hly.db.announced = m.hly.db.announced :=
    (congrArg (·.hly.db.announced) (yieldDuplicate_sansWork m) : m.yieldDuplicate.sansWork.hly.db.announced = _)
  unfold Machine.settleElection
  rw [if_pos h]
  dsimp only
  rw [hannounced]
  split
  · exact .inl rfl
  · split
    next hnamed => exact .inr (.inl ⟨hnamed.1, rfl⟩)
    · exact .inr (.inr rfl)

/-- How an election leaves a package: master and time root, or under the master announced last, or still without one. -/
structure Elected (m m' : Machine) : Prop where
  eligible : m'.hly.db.eligible = (m.rig 5 == 1)
  settled : m'.hly.db.settled = true
  topoGen : m'.hly.reg.topoGen = m.hly.reg.topoGen
  actions : m'.hly.repl.actions = []
  waiting : m'.hly.waiting = []
  outcome :
    m'.hly.reg.state = .run ∧ m'.hly.reg.master = m.node ∧ m'.hly.reg.role = .provisional ∧ m'.time.root = true ∧ m'.time.depth = 0 ∨
    m'.hly.reg.state = .run ∧ m'.hly.reg.master = m.hly.db.announced ∧ m'.hly.reg.role = .member ∧ m'.time.root = false ∨
    m'.hly.reg.state = .elect ∧ m'.hly.reg.master = 0xFFFF ∧ m'.hly.reg.role = .member ∧ m'.time.root = m.time.root

/-- A package that stands for election. -/
structure Standing (m a : Machine) : Prop where
  eligible : a.hly.db.eligible = (m.rig 5 == 1)
  settled : a.hly.db.settled = true
  announced : a.hly.db.announced = m.hly.db.announced
  topoGen : a.hly.reg.topoGen = m.hly.reg.topoGen
  state : a.hly.reg.state = .elect
  role : a.hly.reg.role = .member
  master : a.hly.reg.master = 0xFFFF
  node : a.node = m.node
  root : a.time.root = m.time.root
  actions : a.hly.repl.actions = []
  waiting : a.hly.waiting = []

variable {m} in
theorem Standing.of_sansWork {a b : Machine} (h : Standing m a) (hb : b.sansWork = a.sansWork) : Standing m b where
  eligible := (congrArg (·.hly.db.eligible) hb).trans h.eligible
  settled := (congrArg (·.hly.db.settled) hb).trans h.settled
  announced := (congrArg (·.hly.db.announced) hb).trans h.announced
  topoGen := (congrArg (·.hly.reg.topoGen) hb).trans h.topoGen
  state := (congrArg (·.hly.reg.state) hb).trans h.state
  role := (congrArg (·.hly.reg.role) hb).trans h.role
  master := (congrArg (·.hly.reg.master) hb).trans h.master
  node := (node_of_sansWork hb).trans h.node
  root := (congrArg (·.time.root) hb).trans h.root
  actions := (congrArg (·.hly.repl.actions) hb).trans h.actions
  waiting := (congrArg (·.hly.waiting) hb).trans h.waiting

variable {m} in
theorem Standing.becomeMaster {a : Machine} (h : Standing m a) : Elected m a.becomeMaster := by
  have hcrown := crowned_becomeMaster a
  exact {
    eligible := hcrown.eligible.trans h.eligible
    settled := hcrown.settled
    topoGen := hcrown.topoGen.trans h.topoGen
    actions := hcrown.actions
    waiting := hcrown.waiting
    outcome := .inl ⟨hcrown.state, hcrown.master.trans h.node, hcrown.role, hcrown.root, hcrown.depth⟩ }

variable {m} in
theorem Standing.acceptMaster {a : Machine} (h : Standing m a) (hn : m.hly.db.announced ≠ 0xFFFF) :
    Elected m (a.acceptMaster m.hly.db.announced) := by
  obtain ⟨fin, o, haccept⟩ := acceptMaster_shape a m.hly.db.announced
  rw [haccept]
  exact {
    eligible := h.eligible
    settled := rfl
    topoGen := h.topoGen
    actions := rfl
    waiting := rfl
    outcome := .inr (.inl ⟨rfl, rfl, if_neg fun hs => hn (hs.2.symm.trans h.master), rfl⟩) }

variable {m} in
theorem Standing.stays {a : Machine} (h : Standing m a) : Elected m a where
  eligible := h.eligible
  settled := h.settled
  topoGen := h.topoGen
  actions := h.actions
  waiting := h.waiting
  outcome := .inr (.inr ⟨h.state, h.master, h.role, h.root⟩)

variable {m} in
theorem Standing.settleElection {a : Machine} (h : Standing m a) : Elected m a.settleElection := by
  have hyield := h.of_sansWork (yieldDuplicate_sansWork a)
  obtain hmaster | ⟨hn, hmember⟩ | hstays := settleElection_cases h.state
  · rw [hmaster]
    exact hyield.becomeMaster
  · rw [hmember, h.announced]
    exact hyield.acceptMaster (h.announced ▸ hn)
  · rw [hstays]
    exact hyield.stays

theorem elected_elect : Elected m m.elect := by
  obtain ⟨fin, o, hdrop⟩ := dropCmds_shape m
  have hnode : m.dropCmds.node = m.node := by rw [hdrop]; rfl
  unfold Machine.elect
  generalize m.dropCmds = dropped at hdrop hnode
  refine Standing.settleElection ?_
  exact {
    eligible := rfl
    settled := rfl
    announced := congrArg (·.hly.db.announced) hdrop
    topoGen := congrArg (·.hly.reg.topoGen) hdrop
    state := rfl
    role := rfl
    master := rfl
    node := hnode
    root := congrArg (·.time.root) hdrop
    actions := congrArg (·.hly.repl.actions) hdrop
    waiting := congrArg (·.hly.waiting) hdrop }

end

end Sys2Proof.Machine

/-! ### Records, commands and the own record's flood -/

namespace Sys2Proof.Machine

section
variable (m : Machine)

theorem flood_eq (skip : Option Nat) (msg : Mgmt) :
    m.flood skip msg = { m with out := m.out ++ (m.floodPorts.filter fun p => some p != skip).map fun p => Out.mgmtPort p msg } := by
  unfold Machine.flood
  induction m.floodPorts.filter fun p => some p != skip generalizing m with
  | nil => simp
  | cons p l ih => rw [List.foldl_cons, ih]; simp [Machine.emit]

variable {m} in
/-- With no action due and no command waiting there is nothing to carry out (04 R116, R136). -/
theorem serveN_idle (hact : m.hly.repl.actions = []) (hwait : m.hly.waiting = []) (k : Nat) : m.serveN k = m := by
  cases k with
  | zero => rfl
  | succ k =>
    unfold Machine.serveN
    simp [hact, hwait]

variable {m} in
theorem serve_idle (hact : m.hly.repl.actions = []) (hwait : m.hly.waiting = []) : m.serve = m := serveN_idle hact hwait _

theorem submit_db (c : Change) : (m.submit c).hly.db = m.hly.db := by
  unfold Machine.submit
  split <;> rfl

theorem dropPrepared_db (e : BitVec 16) : (m.dropPrepared e).hly.db = m.hly.db := by
  unfold Machine.dropPrepared
  dsimp only
  split
  · split <;> rfl
  · rfl

/-- The slices whose installation is aborted are placed again, which leaves Halyard. -/
theorem foldl_placing_hly (l : List (Nat × Bool)) : (l.foldl (fun m t => if t.2 then m.modSlice t.1 fun r => { r with state := .placing }
    else m) m).hly = m.hly := by
  induction l generalizing m with
  | nil => rfl
  | cons t l ih => rw [List.foldl_cons, ih]; split <;> rfl

theorem abortPrepare_db : m.abortPrepare.hly.db = m.hly.db := by
  have hreplicate (a : Machine) : a.replicate.hly.db = a.hly.db := by
    unfold Machine.replicate
    dsimp only
    split <;> rfl
  unfold Machine.abortPrepare
  dsimp only
  rw [hreplicate]
  refine (congrArg Hly.db (foldl_placing_hly _ _)).trans ?_
  rw [dropPrepared_db, Machine.raise, raiseAs_fields, tellAll_eq]

theorem takeRecord_db (r : LsRecord) : (m.takeRecord r).hly.db = m.hly.db := by
  unfold Machine.takeRecord
  split
  · rfl
  · split
    · rfl
    · unfold Machine.lossAborts
      dsimp only
      split
      · rw [abortPrepare_db, submit_db]
      · rw [submit_db]

theorem floodOwn_ownSeq : m.floodOwn.hly.db.ownSeq = m.hly.db.ownSeq + 1 := by
  unfold Machine.floodOwn
  simp only [flood_eq]
  split
  · rw [takeRecord_db]; rfl
  · split <;> rfl

end

/-! ### What each event of discovery and election does -/

section
variable {m : Machine}

theorem inState_of_ne {p : Nat} {st : PortState} (h : (m.port p).stat.state ≠ st) (f : Machine → Machine) : m.inState p st f = m := if_neg h

/-- A machine that agrees but for the work of epochs holds the same HELLO of each neighbour. -/
theorem neigh_of_sansWork {a : Machine} (h : a.sansWork = m.sansWork) : a.hly.db.neigh = m.hly.db.neigh := congrArg (·.hly.db.neigh) h

theorem shr_of_sansWork {a : Machine} (h : a.sansWork = m.sansWork) : a.shr = m.shr := congrArg (·.shr) h

theorem checkFingerprint_sansWork (h : Hello) : (m.checkFingerprint h).sansWork = m.sansWork := by
  unfold Machine.checkFingerprint
  split
  · exact submit_sansWork m _
  · rfl

/-- A HELLO taken in writes the neighbour, and of the rest only the work of epochs, records and progress counters (04 R112). -/
theorem helloReceive_effect {p : Port} {h : Hello} {s : State} (hp : (s.m.port p).stat.state = .active) :
    Completes (.helloReceive p h) s fun m => m.sansWork = (s.m.modDb fun d => { d with neigh := tset none d.neigh p (some h) }).sansWork := by
  have hreturned (a : Machine) (restarting : Bool) : (if !restarting ∨ h.state = 5 then a
      else if a.isMaster then a.submit (.nodeState h.node 0)
      else a.modDb fun d => { d with nodes := d.nodes.map fun r => if r.node = h.node ∧ r.state = 4 then { r with state := 0 } else r }).sansWork =
      a.sansWork := by
    split
    · rfl
    · split
      · exact submit_sansWork a _
      · rfl
  have hfresh (a : Machine) (fresh : Bool) : ((if fresh then a.floodOwn else a).hlyItem 0).sansWork = a.sansWork := by
    cases fresh
    · rfl
    · exact (hlyItem_sansWork _ _).trans (floodOwn_sansWork a)
  refine .of_done rfl ?_
  rw [inState_of hp]
  exact (hfresh _ _).trans ((hreturned _ _).trans (checkFingerprint_sansWork h))

end

/-- Discovery settles into an election, which boot steps may have waited for (04 R113). -/
theorem discoverySettle_elects {s : State} (hstate : s.m.hly.reg.state = .discover) (hlate : s.m.joinsLate = none) :
    Completes .discoverySettle s fun m => m.hly = s.m.elect.hly ∧ m.time = s.m.elect.time := by
  have hsettled : (match s.m.joinsLate with
      | some n =>
        let m := s.m.modDb fun d => { d with eligible := s.m.rig 5 == 1, settled := true, nodes := putNode s.m.ownNode d.nodes }
        ((m.modHly fun h => { h with state := .elect }).tell n (.wantDelta m.hly.reg.topoGen)).bootSettle
      | none => s.m.elect.bootSettle) = s.m.elect.bootSettle := by rw [hlate]
  refine .of_done (m := s.m.elect.bootSettle) (congrArg (done s) ((if_pos hstate).trans hsettled)) ?_
  exact ⟨bootSettle_hly _, bootSettle_time _⟩

/-- A late joiner begins no election: it asks its neighbour's component for the database (04 R122). -/
theorem discoverySettle_joinsLate {s : State} {n : NodeId} (hstate : s.m.hly.reg.state = .discover) (hlate : s.m.joinsLate = some n) :
    Completes .discoverySettle s fun m => m.hly.db.eligible = (s.m.rig 5 == 1) ∧ m.hly.db.settled = true ∧ m.hly.reg.state = .elect ∧
      m.hly.reg.master = s.m.hly.reg.master ∧ .mgmt n (.wantDelta s.m.hly.reg.topoGen) ∈ m.out := by
  refine .of_done rfl ?_
  rw [if_pos hstate, hlate]
  dsimp only
  rw [bootSettle_hly]
  exact ⟨rfl, rfl, rfl, rfl, (bootSettle_out_prefix _).subset (List.mem_append_right _ (List.mem_singleton_self _))⟩

/-! ### Link-state records -/

/-- The machine as a new record from port p is held and has gone on to the other neighbours (04 R112). -/
def Machine.recordHeld (m : Machine) (p : Port) (r : LsRecord) : Machine :=
  ((m.modDb fun d => { (d.learn r) with seen := tset 0 d.seen r.node.uid.toNat (r.seq + 1) }).flood (some p.val) (.linkState r)).hlyItem 0

theorem recordHeld_hly (m : Machine) (p : Port) (r : LsRecord) : (m.recordHeld p r).hly =
    { m.hly with db := { (m.hly.db.learn r) with seen := tset 0 m.hly.db.seen r.node.uid.toNat (r.seq + 1) } } := by
  unfold Machine.recordHeld
  rw [flood_eq]
  rfl

/-- A newer record of another package is held, and taken in by the state (04 R112, R129). -/
theorem linkStateRecord_newer {p : Port} {r : LsRecord} {s : State} (hseen : tget 0 s.m.hly.db.seen r.node.uid.toNat ≤ r.seq)
    (hother : r.node.uid ≠ s.m.fuse.uid) : exec (.linkStateRecordReceive p r) s = done s (
      let m := s.m.recordHeld p r
      if m.isMaster then m.masterRecord r false (s.m.hly.db.partsLost r)
      else match m.hly.reg.state with
        | .discover => m.modDb fun d => d.enter r
        | .elect => if m.joinsLate.isSome then m.modDb fun d => d.enter r else ((m.modDb fun d => d.enter r).settleElection).bootSettle
        | _ => m) := by
  have hnewer : decide (tget 0 s.m.hly.db.seen r.node.uid.toNat < r.seq + 1) = true := decide_eq_true (Nat.lt_succ_of_le hseen)
  have hforeign : (r.node.uid != s.m.fuse.uid) = true := bne_iff_ne.mpr hother
  refine congrArg (done s) ((if_pos ?_).trans ?_)
  · rw [hnewer, hforeign]
    rfl
  · rw [hnewer]
    rfl

theorem isMaster_recordHeld (m : Machine) (p : Port) (r : LsRecord) : (m.recordHeld p r).isMaster = m.isMaster := by
  unfold Machine.isMaster
  rw [recordHeld_hly]

theorem linkStateRecord_discover {p : Port} {r : LsRecord} {s : State} (hseen : tget 0 s.m.hly.db.seen r.node.uid.toNat ≤ r.seq)
    (hother : r.node.uid ≠ s.m.fuse.uid) (hstate : s.m.hly.reg.state = .discover) :
    Completes (.linkStateRecordReceive p r) s fun m => m.hly = ((s.m.recordHeld p r).modDb fun d => d.enter r).hly := by
  have hmaster : (s.m.recordHeld p r).isMaster = false := by
    rw [isMaster_recordHeld]
    simp [Machine.isMaster, hstate]
  have hheld : (s.m.recordHeld p r).hly.reg.state = .discover := by rw [recordHeld_hly]; exact hstate
  refine .of_done (linkStateRecord_newer hseen hother) ?_
  dsimp only
  rw [if_neg (by simp [hmaster]), hheld]

/-- A record that is no newer, of a package that is not absent, or this package's own, is dropped (04 R112). -/
theorem linkStateRecord_old {p : Port} {r : LsRecord} {s : State} (h : r.seq < tget 0 s.m.hly.db.seen r.node.uid.toNat ∧
      (∀ x ∈ s.m.hly.db.nodes, x.node = r.node.node → x.uid = r.node.uid → x.state ≠ 3) ∨ r.node.uid = s.m.fuse.uid) :
    Ignored (.linkStateRecordReceive p r) s := by
  refine .of_done rfl (if_neg fun htaken => ?_)
  rcases h with ⟨hold, hpresent⟩ | hown
  · have hnewer : decide (tget 0 s.m.hly.db.seen r.node.uid.toNat < r.seq + 1) = false := by
      simpa using hold
    rw [hnewer] at htaken
    simp only [Bool.not_false, Bool.true_and, Bool.false_or, Bool.and_eq_true, List.any_eq_true, beq_iff_eq] at htaken
    obtain ⟨⟨x, hx, ⟨hnode, huid⟩, hstate⟩, -⟩ := htaken
    exact hpresent x hx hnode huid hstate
  · simp [hown] at htaken

/-- A record that tells the master news while no prepare is in flight is a change of the collection (04 R129). -/
theorem takeRecord_news {m : Machine} {r : LsRecord} (hmaster : m.isMaster = true) (hnews : m.tellsNews r = true)
    (hphase : m.hly.work.phase = .collecting ∨ m.hly.work.phase = .idle ∧ m.isEcho r = false) :
    m.takeRecord r = m.modWork fun w => { w with changes := w.changes ++ [.record r], phase := .collecting } := by
  have hecho : (m.isMaster && m.hly.work.phase != .collecting && m.isEcho r) = false := by
    rcases hphase with hcollecting | ⟨-, hno⟩
    · simp [hcollecting]
    · simp [hno]
  have hopen : m.submit (.record r) = m.modWork fun w => { w with changes := w.changes ++ [.record r], phase := .collecting } := by
    rw [submit_of_master hmaster]
    rcases hphase with hphase | ⟨hphase, -⟩ <;> simp [Machine.modWork, hphase]
  unfold Machine.takeRecord
  rw [if_neg (by rw [hecho]; decide), if_neg (by simp [hnews]), hopen]
  unfold Machine.lossAborts
  exact if_neg (by simp [Machine.modWork, inFlight])

theorem linkStateRecord_change {p : Port} {r : LsRecord} {s : State} (hseen : tget 0 s.m.hly.db.seen r.node.uid.toNat ≤ r.seq)
    (hother : r.node.uid ≠ s.m.fuse.uid) (hmaster : s.m.isMaster = true) (hparts : s.m.hly.db.partsLost r = false)
    (hnews : s.m.tellsNews r = true) (hlinks : ∀ l ∈ r.links, l.status = 0 → l.reason ≠ 0x0B) (hact : s.m.hly.repl.actions = [])
    (hwait : s.m.hly.waiting = [])
    (hphase : s.m.hly.work.phase = .collecting ∨ s.m.hly.work.phase = .idle ∧ s.m.isEcho r = false) :
    Completes (.linkStateRecordReceive p r) s fun m => m.hly.work.phase = .collecting ∧
      m.hly.work.changes = s.m.hly.work.changes ++ [.record r] ∧ m.hly.db.nodes = s.m.hly.db.nodes := by
  have hheld := recordHeld_hly s.m p r
  have hm := (isMaster_recordHeld s.m p r).trans hmaster
  have hn : (s.m.recordHeld p r).tellsNews r = true := by
    unfold Machine.tellsNews at hnews ⊢
    rw [hheld]
    exact hnews
  have hp : (s.m.recordHeld p r).hly.work.phase = .collecting ∨
      (s.m.recordHeld p r).hly.work.phase = .idle ∧ (s.m.recordHeld p r).isEcho r = false := by
    unfold Machine.isEcho Machine.farDown at hphase ⊢
    rw [hheld]
    exact hphase
  have hgone : (r.links.filter fun l => l.status == 0 && l.reason == 0x0B && l.farNode != 0xFFFF) = [] := by
    refine List.filter_eq_nil_iff.mpr fun l hl hlost => ?_
    simp only [Bool.and_eq_true, beq_iff_eq] at hlost
    exact hlinks l hl hlost.1.1 hlost.1.2
  refine .of_done (linkStateRecord_newer hseen hother) ?_
  dsimp only
  rw [if_pos hm, hparts]
  unfold Machine.masterRecord
  simp only [hgone, List.map_nil, List.foldl_nil, Bool.false_eq_true, if_false, takeRecord_news hm hn hp]
  rw [serve_idle (by simpa [Machine.modWork, hheld] using hact) (by simpa [Machine.modWork, hheld] using hwait)]
  simp [Machine.modWork, hheld, HlyDb.learn]

/-! ### Announcements -/

/-- The machine as an announcement has gone on down the announcer's tree (04 R115). -/
def Machine.announceHeard (m : Machine) (n : NodeId) : Machine := (m.tellKids n (.announce n)).hlyItem 1

theorem announceHeard_hly (m : Machine) (n : NodeId) : (m.announceHeard n).hly = m.hly := by
  unfold Machine.announceHeard
  rw [tellKids_eq]
  rfl

theorem announceHeard_time (m : Machine) (n : NodeId) : (m.announceHeard n).time = m.time := by
  unfold Machine.announceHeard
  rw [tellKids_eq]
  rfl

section
variable {m : Machine}

theorem announceHeard_node (n : NodeId) : (m.announceHeard n).node = m.node := by
  unfold Machine.announceHeard
  rw [tellKids_eq]
  rfl

theorem announceHeard_choice (n : NodeId) : (m.announceHeard n).choice = m.choice := by
  unfold Machine.announceHeard
  rw [tellKids_eq]
  rfl

theorem announceHeard_rankOf (n k : NodeId) : (m.announceHeard n).rankOf k = m.rankOf k := by
  unfold Machine.announceHeard
  rw [tellKids_eq]
  rfl

theorem announceHeard_replica (n : NodeId) : (m.announceHeard n).replica = m.replica := by
  unfold Machine.announceHeard
  rw [tellKids_eq]
  rfl

theorem announceHeard_isMaster (n : NodeId) : (m.announceHeard n).isMaster = m.isMaster := by
  unfold Machine.announceHeard
  rw [tellKids_eq]
  rfl

/-- A package that accepts a master goes on in RUN under it, and is not time root (04 R115). -/
theorem acceptMaster_regs (n : NodeId) : (m.acceptMaster n).hly.reg.state = .run ∧ (m.acceptMaster n).hly.reg.master = n ∧
    (m.acceptMaster n).time.root = false ∧ (m.acceptMaster n).hly.db.settled = true := by
  obtain ⟨fin, o, h⟩ := acceptMaster_shape m n
  rw [h]
  exact ⟨rfl, rfl, rfl, rfl⟩

theorem announceElect_chosen {n : NodeId} (h : m.choice = some n) : m.announceElect n = m.acceptMaster n := if_pos h

theorem announceElect_ranked {n : NodeId} (h : m.choice ≠ some n) (hlast : m.hly.db.announced ≠ 0xFFFF) (hn : m.hly.db.announced ≠ n) :
    m.announceElect n = m.acceptMaster (m.better m.hly.db.announced n) := (if_neg h).trans (if_pos ⟨hlast, hn⟩)

/-- In ELECT an announcement is judged, and boot steps may have waited for it. -/
theorem masterAnnounce_elect {n : NodeId} {s : State} (hn : n ≠ s.m.node) (hstate : s.m.hly.reg.state = .elect) :
    exec (.masterAnnounceReceive n) s = done s ((s.m.announceHeard n).announceElect n).bootSettle := by
  have hheard : (s.m.announceHeard n).hly.reg.state = .elect := by rw [announceHeard_hly]; exact hstate
  refine congrArg (done s) ((if_neg hn).trans ?_)
  dsimp only
  rw [show ((s.m.tellKids n (.announce n)).hlyItem 1) = s.m.announceHeard n from rfl, hheard]

theorem masterAnnounce_run {n : NodeId} {s : State} (hn : n ≠ s.m.node) (hstate : s.m.hly.reg.state = .run) :
    exec (.masterAnnounceReceive n) s = done s ((s.m.announceHeard n).announceRun n) := by
  have hheard : (s.m.announceHeard n).hly.reg.state = .run := by rw [announceHeard_hly]; exact hstate
  refine congrArg (done s) ((if_neg hn).trans ?_)
  dsimp only
  rw [show ((s.m.tellKids n (.announce n)).hlyItem 1) = s.m.announceHeard n from rfl, hheard]

theorem masterAnnounce_chosen {n : NodeId} {s : State} (hstate : s.m.hly.reg.state = .elect) (hn : n ≠ s.m.node)
    (hchoice : s.m.choice = some n) : Completes (.masterAnnounceReceive n) s fun m =>
      m.hly.reg.state = .run ∧ m.hly.reg.master = n ∧ m.time.root = false ∧ m.hly.db.settled = true := by
  refine .of_done (masterAnnounce_elect hn hstate) ?_
  rw [bootSettle_hly, bootSettle_time, announceElect_chosen ((announceHeard_choice n).trans hchoice)]
  exact acceptMaster_regs n

theorem masterAnnounce_ranked {n : NodeId} {s : State} (hstate : s.m.hly.reg.state = .elect) (hn : n ≠ s.m.node)
    (hchoice : s.m.choice ≠ some n) (hlast : s.m.hly.db.announced ≠ 0xFFFF) (hother : s.m.hly.db.announced ≠ n) :
    Completes (.masterAnnounceReceive n) s fun m => m.hly.reg.state = .run ∧ m.time.root = false ∧
      m.hly.reg.master = (if s.m.rankOf n < s.m.rankOf s.m.hly.db.announced then n else s.m.hly.db.announced) := by
  have hheard := announceHeard_hly s.m n
  refine .of_done (masterAnnounce_elect hn hstate) ?_
  rw [bootSettle_hly, bootSettle_time, announceElect_ranked (by rw [announceHeard_choice]; exact hchoice) (by rw [hheard]; exact hlast)
    (by rw [hheard]; exact hother)]
  obtain ⟨hrun, hmaster, hroot, -⟩ := acceptMaster_regs (m := s.m.announceHeard n)
    ((s.m.announceHeard n).better (s.m.announceHeard n).hly.db.announced n)
  refine ⟨hrun, hroot, hmaster.trans ?_⟩
  unfold Machine.better
  rw [announceHeard_rankOf, announceHeard_rankOf, hheard]

/-- A master yields to a higher-ranked announcer and hands it its state (04 R115). -/
theorem masterAnnounce_yields {n : NodeId} {s : State} (hmaster : s.m.isMaster = true) (hstate : s.m.hly.reg.state = .run)
    (hown : s.m.hly.reg.master = s.m.node) (hn : n ≠ s.m.node) (hrank : s.m.rankOf n < s.m.rankOf s.m.node) :
    Completes (.masterAnnounceReceive n) s fun m => m.hly.reg.state = .run ∧ m.hly.reg.master = n ∧ m.hly.reg.role = .member ∧
      m.hly.reg.standby = 0xFFFF ∧ m.time.root = false ∧ .mgmt n (.handover s.m.replica) ∈ m.out := by
  let handed := ((s.m.announceHeard n).tell n (.handover s.m.replica)).modHly fun h => { h with standby := 0xFFFF }
  have hheard := announceHeard_hly s.m n
  have hhanded : handed.hly.reg.master = s.m.node := by simp [handed, Machine.modHly, Machine.tell, Machine.emit, hheard, hown]
  have hyields : (s.m.announceHeard n).announceRun n = handed.acceptMaster n := by
    unfold Machine.announceRun
    dsimp only
    rw [if_pos ((announceHeard_isMaster n).trans hmaster)]
    refine (if_pos ?_).trans ?_
    · rw [announceHeard_rankOf, announceHeard_rankOf, announceHeard_node]
      exact hrank
    · rw [announceHeard_replica]
  refine .of_done (masterAnnounce_run hn hstate) ?_
  obtain ⟨fin, o, haccept⟩ := acceptMaster_shape handed n
  rw [hyields, haccept]
  refine ⟨rfl, rfl, if_neg fun hs => hn (hs.2.symm.trans hhanded), rfl, rfl, List.mem_append_left _ ?_⟩
  exact List.mem_append_right _ (List.mem_singleton_self _)

theorem masterAnnounce_stays {n : NodeId} {s : State} (hmaster : s.m.isMaster = true) (hstate : s.m.hly.reg.state = .run)
    (hrank : ¬ s.m.rankOf n < s.m.rankOf s.m.node) : Completes (.masterAnnounceReceive n) s fun m => m.hly = s.m.hly ∧ m.time = s.m.time := by
  by_cases hn : n = s.m.node
  · exact .of_done (congrArg (done s) (if_pos hn)) ⟨rfl, rfl⟩
  · have hstays : (s.m.announceHeard n).announceRun n = s.m.announceHeard n := by
      unfold Machine.announceRun
      dsimp only
      rw [if_pos ((announceHeard_isMaster n).trans hmaster)]
      refine if_neg fun h => hrank ?_
      rwa [announceHeard_rankOf, announceHeard_rankOf, announceHeard_node] at h
    refine .of_done (masterAnnounce_run hn hstate) ?_
    rw [hstays]
    exact ⟨announceHeard_hly _ _, announceHeard_time _ _⟩

/-- The standby's announcement is a takeover, which is counted (04 R120). -/
theorem masterAnnounce_takeover {n : NodeId} {s : State} (hmember : s.m.isMaster = false) (hstate : s.m.hly.reg.state = .run)
    (hn : n ≠ s.m.node) (hmaster : n ≠ s.m.hly.reg.master) (hstandby : n = s.m.hly.reg.standby) :
    Completes (.masterAnnounceReceive n) s fun m => m.hly.reg.state = .run ∧ m.hly.reg.master = n ∧
      m.hly.reg.takeover = satAdd32 s.m.hly.reg.takeover 1 ∧ m.hly.reg.standby = 0xFFFF := by
  have hheard := announceHeard_hly s.m n
  have htakes : (s.m.announceHeard n).announceRun n = (((s.m.announceHeard n).modHly fun h =>
      { h with takeover := satAdd32 h.takeover 1, standby := 0xFFFF }).raise 501 0).acceptMaster n := by
    unfold Machine.announceRun
    dsimp only
    rw [if_neg (by rw [announceHeard_isMaster, hmember]; decide), if_neg (by rw [hheard]; exact hmaster),
      if_pos (by rw [hheard]; exact hstandby)]
  refine .of_done (masterAnnounce_run hn hstate) ?_
  obtain ⟨fin, o, haccept⟩ := acceptMaster_shape (((s.m.announceHeard n).modHly fun h =>
      { h with takeover := satAdd32 h.takeover 1, standby := 0xFFFF }).raise 501 0) n
  rw [htakes, haccept, Machine.raise, raiseAs_fields]
  refine ⟨rfl, rfl, ?_, rfl⟩
  simp [Machine.modHly, hheard]

end

/-! ### Joins, deltas, HELLO stopping and hold-down -/

theorem announced_of_learned (d : HlyDb) (l : List LsRecord) : (l.foldl (fun d r => (d.enter r).learn r) d).announced = d.announced := by
  induction l generalizing d with
  | nil => rfl
  | cons r l ih => exact ih _

/-- What an election at a join leaves is kept by the epoch that a master opens for it (04 R118). -/
theorem joined_sansWork {m : Machine} (hact : m.hly.repl.actions = []) (hwait : m.hly.waiting = []) (f : EpochWork → EpochWork) :
    (m.openEpoch.modWork f).serve.sansWork = m.sansWork := by
  have hsame := openEpoch_sansWork m
  have hidle : (m.openEpoch.modWork f).serve = m.openEpoch.modWork f :=
    serve_idle ((congrArg (·.hly.repl.actions) hsame).trans hact : m.openEpoch.hly.repl.actions = [])
      ((congrArg (·.hly.waiting) hsame).trans hwait : m.openEpoch.hly.waiting = [])
  rw [hidle]
  exact (modWork_sansWork _ f).trans hsame

/-- Two components join: the generation is one more than the higher, and an election follows (04 R118). -/
theorem componentJoin_elects {gen : Word} {epoch : BitVec 16} {recs : List LsRecord} {s : State}
    (hstate : s.m.hly.reg.state = .run ∨ s.m.hly.reg.state = .elect) : Completes (.componentJoin gen epoch recs) s fun m =>
      m.hly.reg.topoGen = (if s.m.hly.reg.topoGen.toNat < gen.toNat then gen + 1 else s.m.hly.reg.topoGen + 1) ∧
      (m.hly.reg.state = .run ∧ (m.hly.reg.master = s.m.node ∨ m.hly.reg.master = s.m.hly.db.announced) ∨
       m.hly.reg.state = .elect ∧ m.hly.reg.master = 0xFFFF) := by
  let joined := (s.m.modDb fun d => recs.foldl (fun d r => (d.enter r).learn r) d).modHly fun h =>
    { h with topoGen := if h.topoGen.toNat < gen.toNat then gen + 1 else h.topoGen + 1 }
  have helected := elected_elect joined
  have hannounced : joined.hly.db.announced = s.m.hly.db.announced := announced_of_learned _ recs
  have hsame : ∀ f, (if joined.elect.isMaster then (joined.elect.openEpoch.modWork f).serve else joined.elect).sansWork = joined.elect.sansWork := by
    intro f
    split
    · exact joined_sansWork helected.actions helected.waiting f
    · rfl
  refine .of_done (congrArg (done s) (if_pos hstate)) ?_
  generalize hend : (if joined.elect.isMaster then _ else joined.elect) = ended
  have hkept : ended.sansWork = joined.elect.sansWork := hend ▸ hsame _
  rw [show ended.hly.reg.topoGen = joined.elect.hly.reg.topoGen from congrArg (·.hly.reg.topoGen) hkept,
    show ended.hly.reg.state = joined.elect.hly.reg.state from congrArg (·.hly.reg.state) hkept,
    show ended.hly.reg.master = joined.elect.hly.reg.master from congrArg (·.hly.reg.master) hkept]
  refine ⟨helected.topoGen, ?_⟩
  rcases helected.outcome with ⟨hrun, hmaster, -⟩ | ⟨hrun, hmaster, -⟩ | ⟨helect, hmaster, -⟩
  · exact .inl ⟨hrun, .inl hmaster⟩
  · exact .inl ⟨hrun, .inr (hmaster.trans hannounced)⟩
  · exact .inr ⟨helect, hmaster⟩

section
variable (m : Machine)

/-- The prepared bank leaves the database, and of the registers all but the mark that it is prepared. -/
theorem fillBank_db (pr : Prepare) (nodes : List NodeRec) (links : List LinkRec) :
    (m.fillBank pr nodes links).hly.db = m.hly.db ∧ (m.fillBank pr nodes links).hly.reg = { m.hly.reg with prepared := true } := by
  unfold Machine.fillBank
  dsimp only
  split <;> exact ⟨rfl, rfl⟩

theorem takePrepare_db (pr : Prepare) :
    (m.takePrepare pr).hly.db = m.hly.db ∧ ∃ b, (m.takePrepare pr).hly.reg = { m.hly.reg with prepared := b } := by
  unfold Machine.takePrepare
  dsimp only
  split
  · exact ⟨rfl, m.hly.reg.prepared, rfl⟩
  · split
    · exact ⟨rfl, m.hly.reg.prepared, rfl⟩
    · obtain ⟨hdb, hreg⟩ := fillBank_db m pr m.hly.db.nodes m.hly.db.links
      exact ⟨hdb, true, hreg⟩

/-- What its own record in a delta tells a package is whether it is admitted (04 R110). -/
theorem takeAdmit_hly (nodes : List NodeRec) :
    ∃ code ok, (m.takeAdmit nodes).hly = { m.hly with reg := { m.hly.reg with admitCode := code, admitted := ok } } := by
  unfold Machine.takeAdmit
  split
  next r _ =>
    split
    · exact ⟨m.hly.reg.admitCode, m.hly.reg.admitted, rfl⟩
    · refine ⟨r.admission.toNat, r.admission == 0, ?_⟩
      dsimp only
      split
      · rw [Machine.raise, raiseAs_fields]; rfl
      · rfl
  · exact ⟨m.hly.reg.admitCode, m.hly.reg.admitted, rfl⟩

/-- A machine that holds what a delta brought. -/
structure Synced (h : DbHead) (nodes : List NodeRec) (links : List LinkRec) (m m' : Machine) : Prop where
  topoGen : m'.hly.reg.topoGen = h.gen
  quorum : m'.hly.reg.quorum = h.quorum
  master : m'.hly.reg.master = h.master
  standby : m'.hly.reg.standby = h.standby
  nodes : m'.hly.db.nodes = nodes.foldl (fun l r => putNode r l) m.hly.db.nodes
  links : m'.hly.db.links = links.foldl (fun l r => putLink r l) m.hly.db.links
  time : m'.hly.db.time = h.time
  state : m'.hly.reg.state = .run

variable {m} in
/-- A prepared bank loses nothing of the delta. -/
theorem Synced.of_db {h : DbHead} {nodes : List NodeRec} {links : List LinkRec} {a b : Machine} (hs : Synced h nodes links m a)
    (hdb : b.hly.db = a.hly.db) (hreg : ∃ p, b.hly.reg = { a.hly.reg with prepared := p }) : Synced h nodes links m b := by
  obtain ⟨p, hreg⟩ := hreg
  exact {
    topoGen := (congrArg (·.topoGen) hreg).trans hs.topoGen
    quorum := (congrArg (·.quorum) hreg).trans hs.quorum
    master := (congrArg (·.master) hreg).trans hs.master
    standby := (congrArg (·.standby) hreg).trans hs.standby
    nodes := (congrArg (·.nodes) hdb).trans hs.nodes
    links := (congrArg (·.links) hdb).trans hs.links
    time := (congrArg (·.time) hdb).trans hs.time
    state := (congrArg (·.state) hreg).trans hs.state }

theorem synced_takeDelta (h : DbHead) (nodes : List NodeRec) (links : List LinkRec) :
    Synced h nodes links m (m.takeDelta h nodes links) := by
  have haccepted : ∃ a : Machine, (if m.hly.reg.state = .elect ∨ h.master ≠ m.hly.reg.master then m.acceptMaster h.master else m) = a ∧
      a.hly.reg.master = h.master ∧ a.hly.db.nodes = m.hly.db.nodes ∧ a.hly.db.links = m.hly.db.links := by
    refine ⟨_, rfl, ?_⟩
    split
    · obtain ⟨fin, o, haccept⟩ := acceptMaster_shape m h.master
      rw [haccept]
      exact ⟨rfl, rfl, rfl⟩
    next hsame => exact ⟨(not_not.mp (not_or.mp hsame).2).symm, rfl, rfl⟩
  obtain ⟨a, ha, hmaster, hnodes, hlinks⟩ := haccepted
  unfold Machine.takeDelta
  rw [ha]
  dsimp only
  generalize hb : (Machine.takeAdmit _ nodes) = b
  obtain ⟨code, ok, hadmit⟩ := takeAdmit_hly _ nodes
  rw [hb] at hadmit
  exact {
    topoGen := congrArg (·.reg.topoGen) hadmit
    quorum := congrArg (·.reg.quorum) hadmit
    master := (congrArg (·.reg.master) hadmit).trans hmaster
    standby := congrArg (·.reg.standby) hadmit
    nodes := (congrArg (·.db.nodes) hadmit).trans (congrArg (nodes.foldl (fun l r => putNode r l)) hnodes)
    links := (congrArg (·.db.links) hadmit).trans (congrArg (links.foldl (fun l r => putLink r l)) hlinks)
    time := congrArg (·.db.time) hadmit
    state := congrArg (·.reg.state) hadmit }

end

/-- A delta that misses no generation is taken, and answers a prepare that waited for it (04 R123, R129). -/
theorem generationDelta_taken {h : DbHead} {nodes : List NodeRec} {links : List LinkRec} {s : State} (hmember : s.m.isMaster = false)
    (hstate : s.m.hly.reg.state = .run ∨ s.m.hly.reg.state = .elect ∨ s.m.hly.reg.state = .restarting)
    (hbase : h.base.toNat ≤ s.m.hly.reg.topoGen.toNat) (hgen : s.m.hly.reg.topoGen.toNat ≤ h.gen.toNat)
    (hadmitted : ∀ r ∈ nodes.foldl (fun l r => putNode r l) s.m.hly.db.nodes, r.node = h.master → r.admission = 0) :
    Completes (.generationDeltaReceive h nodes links) s (Synced h nodes links s.m) := by
  have hsynced := synced_takeDelta s.m h nodes links
  have hmaster : ((s.m.takeDelta h nodes links).hly.db.nodes.any fun r => r.node == h.master && r.admission != 0) = false := by
    rw [hsynced.nodes, List.any_eq_false]
    intro r hr hout
    simp only [Bool.and_eq_true, beq_iff_eq, bne_iff_ne] at hout
    exact hout.2 (hadmitted r hr hout.1)
  have hprepared : ∃ a : Machine, (match (s.m.takeDelta h nodes links).hly.prepWait with
      | some pr => if pr.gen = h.gen then (s.m.takeDelta h nodes links).takePrepare pr else s.m.takeDelta h nodes links
      | none => s.m.takeDelta h nodes links) = a ∧ Synced h nodes links s.m a := by
    refine ⟨_, rfl, ?_⟩
    split
    · split
      · obtain ⟨hdb, hreg⟩ := takePrepare_db (s.m.takeDelta h nodes links) ‹_›
        exact hsynced.of_db hdb hreg
      · exact hsynced
    · exact hsynced
  obtain ⟨a, ha, hs⟩ := hprepared
  refine .of_done (m := a.bootSettle) (congrArg (done s) ?_) (hs.of_db (by rw [bootSettle_hly]) ⟨a.hly.reg.prepared, by rw [bootSettle_hly]⟩)
  refine (if_neg ?_).trans ((if_neg hbase.not_gt).trans ((if_neg (by rw [hmaster]; decide)).trans (congrArg Machine.bootSettle ha)))
  simp [hmember, hgen.not_gt, hstate]

theorem generationDelta_missed {h : DbHead} {nodes : List NodeRec} {links : List LinkRec} {s : State} (hmember : s.m.isMaster = false)
    (hstate : s.m.hly.reg.state = .run ∨ s.m.hly.reg.state = .elect ∨ s.m.hly.reg.state = .restarting)
    (hbase : s.m.hly.reg.topoGen.toNat < h.base.toNat) (hgen : s.m.hly.reg.topoGen.toNat ≤ h.gen.toNat) :
    Completes (.generationDeltaReceive h nodes links) s fun m =>
      m = { s.m with out := s.m.out ++ [.mgmt h.master (.wantDelta s.m.hly.reg.topoGen)] } := by
  refine .of_done rfl ((if_neg ?_).trans ((if_pos hbase).trans rfl))
  simp [hmember, hgen.not_gt, hstate]

/-- A neighbour that is silent on an ACTIVE link is one of those that R135 means. -/
theorem stopsLive {m : Machine} {n : NodeId}
    (h : ∃ p < 24, (m.port p).stat.state = .active ∧ (m.port p).far.valid = true ∧ (m.port p).far.node = n) :
    ((List.range 24).any fun p => (m.port p).stat.state == .active && (m.port p).far.valid && (m.port p).far.node == n) = true := by
  obtain ⟨p, hp, hstate, hvalid, hnode⟩ := h
  exact List.any_eq_true.mpr ⟨p, List.mem_range.mpr hp, by simp [hstate, hvalid, hnode]⟩

/-- Settles O20: an election ends in one of three ways, and all that follows one (checks, roles, records taken in) leaves who is master. -/
theorem discoveryAndElection : Obligations.DiscoveryAndElection := by
  unfold Obligations.DiscoveryAndElection
  refine ⟨?helloSent, ?noHello, ?helloHeld, ?recordEnters, ?recordDropped, ?recordChange, ?settles, ?joinsLate, ?noSettling, ?chosen, ?ranked,
    ?yields, ?stays, ?takeover, ?joined, ?delta, ?missed, ?noDelta, ?stopsMember, ?stopsMaster, ?expires, ?noHold⟩
  case helloSent =>
    intro p s hp
    exact .of_done rfl (inState_of hp _)
  case noHello =>
    intro p s hp
    exact ⟨.of_done rfl (inState_of_ne hp _), fun h => .of_done rfl (inState_of_ne hp _)⟩
  case helloHeld =>
    intro p h s hp
    refine (helloReceive_effect hp).imp fun m hm => ⟨?_, (shr_of_sansWork hm).trans rfl⟩
    exact (congrArg (tget none · p) (neigh_of_sansWork hm)).trans (tget_tset_same none s.m.hly.db.neigh p (some h))
  case recordEnters =>
    intro p r s hseen hother hstate
    refine (linkStateRecord_discover hseen hother hstate).imp fun m hm => ?_
    rw [hm]
    simp [Machine.modDb, recordHeld_hly, HlyDb.enter, HlyDb.learn]
  case recordDropped =>
    intro p r s hold
    exact linkStateRecord_old hold
  case recordChange =>
    intro p r s hseen hother hmaster hparts hnews hlinks hact hwait hphase
    exact linkStateRecord_change hseen hother hmaster hparts hnews hlinks hact hwait hphase
  case settles =>
    intro s hstate hlate
    have helected := elected_elect s.m
    refine (discoverySettle_elects hstate hlate).imp fun m ⟨hhly, htime⟩ => ?_
    rw [hhly, htime]
    exact ⟨helected.eligible, helected.settled, helected.outcome⟩
  case joinsLate =>
    intro n s hstate hlate
    exact discoverySettle_joinsLate hstate hlate
  case noSettling =>
    intro s hstate
    exact .of_done rfl (if_neg hstate)
  case chosen =>
    intro n s hstate hn hchoice
    exact masterAnnounce_chosen hstate hn hchoice
  case ranked =>
    intro n s hstate hn hchoice hlast hother
    exact masterAnnounce_ranked hstate hn hchoice hlast hother
  case yields =>
    intro n s hmaster hstate hown hn hrank
    exact masterAnnounce_yields hmaster hstate hown hn hrank
  case stays =>
    intro n s hmaster hstate hrank
    exact masterAnnounce_stays hmaster hstate hrank
  case takeover =>
    intro n s hmember hstate hn hmaster hstandby
    exact masterAnnounce_takeover hmember hstate hn hmaster hstandby
  case joined =>
    intro gen epoch recs s hstate
    exact componentJoin_elects hstate
  case delta =>
    intro h nodes links s hmember hstate hbase hgen hadmitted
    refine (generationDelta_taken hmember hstate hbase hgen hadmitted).imp fun m hs => ?_
    exact ⟨hs.topoGen, hs.quorum, hs.master, hs.standby, hs.nodes, hs.links, hs.time, hs.state⟩
  case missed =>
    intro h nodes links s hmember hstate hbase hgen
    exact generationDelta_missed hmember hstate hbase hgen
  case noDelta =>
    intro h nodes links s hno
    refine .of_done rfl (if_pos ?_)
    rcases hno with hmaster | hgen
    · exact .inl hmaster
    · exact .inr (.inr hgen)
  case stopsMember =>
    intro n s hlive hmember
    refine .of_done rfl ?_
    rw [if_pos (stopsLive hlive), if_neg (by rw [hmember]; decide)]
    exact ⟨rfl, rfl⟩
  case stopsMaster =>
    intro n s hlive hmaster
    refine .of_done rfl ?_
    rw [if_pos (stopsLive hlive), if_pos hmaster, submit_of_master hmaster]
    exact ⟨rfl, rfl⟩
  case expires =>
    intro p s hheld hactive
    refine .of_done rfl ?_
    rw [if_pos ⟨hheld, hactive⟩]
    have hkept := floodOwn_sansWork (s.m.modDb fun d => { d with holdDown := d.holdDown.filter (· != p.val) })
    exact ⟨congrArg (·.hly.db.holdDown) hkept, floodOwn_ownSeq _, (shr_of_sansWork hkept).trans rfl⟩
  case noHold =>
    intro p s hheld
    exact .of_done rfl (if_neg fun h => absurd h.1 (by rw [hheld]; decide))

end Sys2Proof.Machine

/-! ## Halyard: slice events and the stages of an epoch -/

namespace Sys2Proof.Machine

/-! ### Events told to the slices -/

/-- An event to flood. -/
def MasterAct.isEvent : MasterAct → Bool
  | .event .. => true
  | _ => false

/-- The machine without the slices, what is sent, and what of the master's state is replicated and awaits its acknowledgement. -/
def Machine.sansEvents (m : Machine) : Machine := { m with slc := .reset, out := [], hly := { m.hly with repl := Hly.reset.repl } }

/-- Slices have changed their states and events of it wait to be flooded; nothing else has happened. -/
structure Notified (m m' : Machine) : Prop where
  same : m'.sansEvents = m.sansEvents
  events : (∀ a ∈ m.hly.repl.actions, a.2.isEvent = true) → ∀ a ∈ m'.hly.repl.actions, a.2.isEvent = true

section
variable {m a b : Machine}

theorem Notified.refl (m : Machine) : Notified m m := ⟨rfl, id⟩

theorem Notified.trans (h : Notified m a) (h' : Notified a b) : Notified m b := ⟨h'.same.trans h.same, fun hm => h'.events (h.events hm)⟩

theorem Notified.tkp (h : Notified m a) : a.tkp = m.tkp := congrArg (·.tkp) h.same
theorem Notified.reg (h : Notified m a) : a.hly.reg = m.hly.reg := congrArg (·.hly.reg) h.same
theorem Notified.db (h : Notified m a) : a.hly.db = m.hly.db := congrArg (·.hly.db) h.same
theorem Notified.work (h : Notified m a) : a.hly.work = m.hly.work := congrArg (·.hly.work) h.same
theorem Notified.cur (h : Notified m a) : a.hly.cur = m.hly.cur := congrArg (·.hly.cur) h.same
theorem Notified.waiting (h : Notified m a) : a.hly.waiting = m.hly.waiting := congrArg (·.hly.waiting) h.same
theorem Notified.isMaster (h : Notified m a) : a.isMaster = m.isMaster := by
  unfold Machine.isMaster
  rw [h.reg]

/-- What changes the epoch's work alone does not see what was told to the slices. -/
theorem Notified.modWork (h : Notified m a) (f : EpochWork → EpochWork) : Notified (m.modWork f) (a.modWork f) where
  same := congrArg (·.modWork f) h.same
  events := h.events

theorem notified_foldl {α : Type} {f : Machine → α → Machine} (hf : ∀ a x, Notified a (f a x)) (l : List α) (m : Machine) :
    Notified m (l.foldl f m) := by
  induction l generalizing m with
  | nil => exact .refl m
  | cons x l ih => exact (hf m x).trans (ih _)

/-- A slice changes its state and its members are to be told. -/
theorem notified_setSlice_commitThen (m : Machine) (tag : Nat) (r : SliceRec) (code : Nat) (detail : BitVec 8) (subject : NodeId) (scale : Nat) :
    Notified m ((m.setSlice tag r).commitThen [.event code detail tag subject scale]) where
  same := by
    unfold Machine.commitThen Machine.replicate
    dsimp only
    split <;> rfl
  events hm x hx := by
    have hactions : (m.setSlice tag r).replicate.hly.repl.actions = m.hly.repl.actions := replicate_actions _
    simp only [Machine.commitThen, hactions, List.map_cons, List.map_nil, List.mem_append, List.mem_singleton] at hx
    rcases hx with hold | rfl
    · exact hm x hold
    · rfl

theorem notified_memberGone (m : Machine) (n : NodeId) (code : Nat) : Notified m (m.memberGone n code) :=
  notified_foldl (fun a tag => by
    dsimp only
    split
    · exact notified_setSlice_commitThen a tag _ code _ n 0
    · exact .refl a) _ m

theorem notified_memberReturn (m : Machine) : Notified m m.memberReturn :=
  notified_foldl (fun a tag => by
    dsimp only
    split
    · exact notified_setSlice_commitThen a tag _ _ _ _ _
    · exact .refl a) _ m

theorem notified_regradeSlices (m : Machine) (tags : List Nat) : Notified m (m.regradeSlices tags) :=
  notified_foldl (fun a tag => by
    dsimp only
    split
    · exact .refl a
    · exact notified_setSlice_commitThen a tag _ _ _ _ _) _ m

/-- With only events due and no command waiting, what is carried out is their flooding. -/
theorem serveN_events (k : Nat) (hact : ∀ a ∈ m.hly.repl.actions, a.2.isEvent = true) (hwait : m.hly.waiting = []) :
    (m.serveN k).sansEvents = m.sansEvents := by
  induction k generalizing m with
  | zero => rfl
  | succ k ih =>
    unfold Machine.serveN
    split
    · split
      next seq act rest hrest =>
        split
        · have hevent : act.isEvent = true := hact (seq, act) (hrest ▸ List.mem_cons_self)
          have htail : ∀ x ∈ rest, x.2.isEvent = true := fun x hx => hact x (hrest ▸ List.mem_cons_of_mem _ hx)
          cases act with
          | event code detail tag subject scale =>
            have hflood (a : Machine) : ∃ o, a.act (.event code detail tag subject scale) = { a with out := a.out ++ o } :=
              ⟨_, foldl_tell a _ _⟩
            obtain ⟨o, ho⟩ := hflood { m with hly := { m.hly with repl := { m.hly.repl with actions := rest } } }
            rw [ho]
            exact (ih (m := { m with hly := { m.hly with repl := { m.hly.repl with actions := rest } }, out := m.out ++ o }) htail hwait).trans rfl
          | _ => exact absurd hevent Bool.false_ne_true
        · rfl
      · rw [hwait]
        simp
    · rfl

theorem serve_events (hact : ∀ a ∈ m.hly.repl.actions, a.2.isEvent = true) (hwait : m.hly.waiting = []) : m.serve.sansEvents = m.sansEvents :=
  serveN_events _ hact hwait

/-- What was told to the slices is flooded once it is committed: the rest of the machine stays. -/
theorem Notified.serveN (h : Notified m a) (hact : m.hly.repl.actions = []) (hwait : m.hly.waiting = []) (k : Nat) :
    (a.serveN k).sansEvents = m.sansEvents :=
  (serveN_events k (h.events (by simp [hact])) (h.waiting.trans hwait)).trans h.same

end

end Sys2Proof.Machine

/-! ## Halyard: route epochs -/

namespace Sys2Proof.Machine

/-! ### The stages of an epoch -/

section
variable (m : Machine)

theorem pushRerun_sansWork : m.pushRerun.sansWork = m.sansWork :=
  (modWork_sansWork _ _).trans (sansWork_foldl m (fun a j => pushJob_sansWork a j) _)

theorem sendPrepare_sansWork : m.sendPrepare.sansWork = m.sansWork := by
  unfold Machine.sendPrepare
  dsimp only
  split
  · rw [modWork_sansWork, fillBank_sansWork, tellKids_sansWork, modWork_sansWork]
  · rw [tellKids_sansWork, modWork_sansWork]

/-- A REPLAN runs before the epoch is prepared (05 R162). -/
def Machine.planFirst (m : Machine) : Machine :=
  (m.pushJob (replanJob m.hly.work.replanAll m.hly.work.replanNs)).modWork fun w => { w with phase := .planning }

/-- The epoch waits for its guard, and the PLACE jobs that an abort sent back run again (05 R170). -/
def Machine.awaitGuard (m : Machine) : Machine := m.pushRerun.modWork fun w => { w with phase := .guarded }

/-- The commit of a prepared epoch: sent to the awaited packages, and held here if this package has prepared it (04 R129). -/
def Machine.commitEpoch (m : Machine) : Machine :=
  let w := m.hly.work
  let a := m.tellAll m.awaited (.commit w.epoch w.switchAt)
  let a := if a.hly.reg.prepared then { a with hly := { a.hly with commitAt := some (w.epoch, w.switchAt) } } else a
  a.modWork fun w => { w with phase := .committed }

theorem commitEpoch_shape : ∃ t, m.commitEpoch = { m with
    hly := { m.hly with commitAt := t, work := { m.hly.work with phase := .committed } }
    out := m.out ++ (m.awaited.filter (· != m.node)).map fun d => Out.mgmt d (.commit m.hly.work.epoch m.hly.work.switchAt) } := by
  unfold Machine.commitEpoch
  dsimp only
  rw [tellAll_eq]
  split
  · exact ⟨_, rfl⟩
  · exact ⟨_, rfl⟩

/-- Every awaited package is ready: the time of the switch is fixed and replicated (04 R129). -/
def Machine.timeSwitch (m : Machine) : Machine :=
  let a := (m.modWork fun w => { w with phase := .timing, switchAt := m.time.now + 50000 }).replicate
  a.modWork fun w => { w with fixedSeq := a.hly.repl.seq }

theorem timeSwitch_sansWork : m.timeSwitch.sansWork = m.sansWork := (modWork_sansWork _ _).trans (replicate_sansWork _)

theorem timeSwitch_work : m.timeSwitch.hly.work =
    { m.hly.work with phase := .timing, switchAt := m.time.now + 50000, fixedSeq := m.hly.repl.seq + 1 } := by
  unfold Machine.timeSwitch
  dsimp only [Machine.modWork]
  rw [replicate_work, replicate_seq]

theorem timeSwitch_out_prefix : m.out <+: m.timeSwitch.out :=
  replicate_out_prefix (m.modWork fun w => { w with phase := .timing, switchAt := m.time.now + 50000 })

/-! ### One stage at a time -/

variable {m} (k : Nat)

theorem advanceN_fixing (h : m.hly.work.phase = .fixing) : m.advanceN (k + 1) =
    if m.isCommitted m.hly.work.fixedSeq then
      if (m.hly.work.needReplan ∨ !(m.plannedTags.isEmpty)) ∧ m.hly.work.extraNodes.isEmpty then
        m.planFirst
      else m.awaitGuard.advanceN k
    else m := by
  rw [Machine.advanceN.eq_2]
  simp only [h]
  rfl

theorem advanceN_guarded (h : m.hly.work.phase = .guarded) :
    m.advanceN (k + 1) = if m.hly.work.guardDone then m.sendPrepare.advanceN k else m := by
  rw [Machine.advanceN.eq_2]
  simp only [h]

theorem advanceN_preparing (h : m.hly.work.phase = .preparing) : m.advanceN (k + 1) =
    if m.awaited.all fun n => m.hly.work.ready.contains n then m.timeSwitch.advanceN k else m := by
  rw [Machine.advanceN.eq_2]
  simp only [h]
  rfl

theorem advanceN_timing (h : m.hly.work.phase = .timing) :
    m.advanceN (k + 1) = if m.isCommitted m.hly.work.fixedSeq then m.commitEpoch else m := by
  rw [Machine.advanceN.eq_2]
  simp only [h]
  rfl

/-- A stage of an epoch that moves on by itself. -/
def EpochPhase.moves : EpochPhase → Bool
  | .fixing | .guarded | .preparing | .timing => true
  | _ => false

theorem advanceN_rest (h : m.hly.work.phase.moves = false) (k : Nat) : m.advanceN k = m := by
  cases k with
  | zero => rfl
  | succ k =>
    rw [Machine.advanceN.eq_2]
    cases hp : m.hly.work.phase with
    | idle | collecting | planning | committed => rfl
    | _ => exact absurd (hp ▸ h) (by decide)

/-- What every stage keeps is kept as far as the epoch moves on. -/
theorem advanceN_rel {R : Machine → Machine → Prop} (hrefl : ∀ a, R a a) (htrans : ∀ {a b c}, R a b → R b c → R a c)
    (hplan : ∀ a, a.hly.work.phase = .fixing → R a a.planFirst) (hguard : ∀ a, a.hly.work.phase = .fixing → R a a.awaitGuard)
    (hprepare : ∀ a, a.hly.work.phase = .guarded → R a a.sendPrepare) (htime : ∀ a, a.hly.work.phase = .preparing → R a a.timeSwitch)
    (hcommit : ∀ a, a.hly.work.phase = .timing → R a a.commitEpoch) (k : Nat) (m : Machine) : R m (m.advanceN k) := by
  induction k generalizing m with
  | zero => exact hrefl m
  | succ k ih =>
    cases h : m.hly.work.phase with
    | idle | collecting | planning | committed => rw [advanceN_rest (h ▸ rfl)]; exact hrefl m
    | fixing =>
      rw [advanceN_fixing k h]
      split
      · split
        · exact hplan m h
        · exact htrans (hguard m h) (ih _)
      · exact hrefl m
    | guarded =>
      rw [advanceN_guarded k h]
      split
      · exact htrans (hprepare m h) (ih _)
      · exact hrefl m
    | preparing =>
      rw [advanceN_preparing k h]
      split
      · exact htrans (htime m h) (ih _)
      · exact hrefl m
    | timing =>
      rw [advanceN_timing k h]
      split
      · exact hcommit m h
      · exact hrefl m

theorem advanceN_sansWork (k : Nat) (m : Machine) : (m.advanceN k).sansWork = m.sansWork :=
  advanceN_rel (R := fun a b => b.sansWork = a.sansWork) (fun _ => rfl) (fun h h' => h'.trans h) (fun _ _ => rfl)
    (fun a _ => pushRerun_sansWork a) (fun a _ => sendPrepare_sansWork a) (fun a _ => timeSwitch_sansWork a)
    (fun a _ => by obtain ⟨t, h⟩ := commitEpoch_shape a; rw [h]; rfl) k m

/-- The epoch's moving on leaves nothing more to carry out. -/
theorem serve_advance {m : Machine} (hact : m.hly.repl.actions = []) (hwait : m.hly.waiting = []) : m.advance.serve = m.advance :=
  serve_idle ((congrArg (·.hly.repl.actions) (advanceN_sansWork 6 m)).trans hact) ((congrArg (·.hly.waiting) (advanceN_sansWork 6 m)).trans hwait)

/-- What the stages of an epoch keep: the changes of the next collection, which does not open by itself; the numbers of replication only rise. -/
structure MovedOn (a b : Machine) : Prop where
  changes : b.hly.work.changes = a.hly.work.changes
  seq : a.hly.repl.seq ≤ b.hly.repl.seq
  phase : a.hly.work.phase ≠ .collecting → b.hly.work.phase ≠ .collecting

theorem fillBank_work (m : Machine) (pr : Prepare) (nodes : List NodeRec) (links : List LinkRec) :
    (m.fillBank pr nodes links).hly.work = m.hly.work ∧ (m.fillBank pr nodes links).hly.repl = m.hly.repl ∧
    (m.fillBank pr nodes links).out = m.out := by
  unfold Machine.fillBank
  dsimp only
  split <;> exact ⟨rfl, rfl, rfl⟩

/-- The prepare of the next epoch: its number, the packages awaited afresh, and what is told to this package's children (04 R129). -/
theorem sendPrepare_effect (m : Machine) : ∃ ready, m.sendPrepare.hly.work = { m.hly.work with phase := .preparing, epoch := m.nextEpoch, ready := ready } ∧
    m.sendPrepare.hly.repl = m.hly.repl ∧
    m.sendPrepare.out = m.out ++ ((m.kidsUnder m.node).filter (· != m.node)).map fun d =>
      Out.mgmt d (.prepare ((m.awaited.filter (· != m.node)).map fun n => (n, m.prepareFor m.nextEpoch n))) := by
  unfold Machine.sendPrepare
  dsimp only
  rw [tellKids_eq]
  split
  · obtain ⟨hwork, hrepl, hout⟩ := fillBank_work _ _ _ _
    exact ⟨[m.node], congrArg (fun w : EpochWork => { w with ready := [m.node] }) hwork, hrepl, hout⟩
  · exact ⟨[], rfl, rfl, rfl⟩

theorem pushRerun_work (m : Machine) : m.pushRerun.hly = { m.hly with work := { m.hly.work with rerun := [] } } := by
  have hpush (l : List Job) (a : Machine) : (l.foldl (fun m j => m.pushJob j) a).hly = a.hly := by
    induction l generalizing a with
    | nil => rfl
    | cons j l ih => exact ih _
  exact congrArg (fun h : Hly => { h with work := { h.work with rerun := [] } }) (hpush m.hly.work.rerun m)

theorem movedOn_advanceN (k : Nat) (m : Machine) : MovedOn m (m.advanceN k) := by
  refine advanceN_rel (fun _ => ⟨rfl, le_rfl, id⟩)
    (fun h h' => ⟨h'.changes.trans h.changes, h.seq.trans h'.seq, fun hp => h'.phase (h.phase hp)⟩)
    (fun a _ => ⟨rfl, le_rfl, fun _ => (by decide : EpochPhase.planning ≠ .collecting)⟩) (fun a _ => ?guard) (fun a _ => ?prepare)
    (fun a _ => ?time) (fun a _ => ?commit) k m
  case guard =>
    have hrerun := pushRerun_work a
    exact ⟨congrArg (·.work.changes) hrerun, (congrArg (·.repl.seq) hrerun).ge, fun _ => (by decide : EpochPhase.guarded ≠ .collecting)⟩
  case prepare =>
    obtain ⟨ready, hwork, hrepl, -⟩ := sendPrepare_effect a
    exact ⟨congrArg (·.changes) hwork, (congrArg (·.seq) hrepl).ge, fun _ =>
      ne_of_eq_of_ne (congrArg (·.phase) hwork) (by decide : EpochPhase.preparing ≠ .collecting)⟩
  case time =>
    have hseq : a.timeSwitch.hly.repl.seq = a.hly.repl.seq + 1 := replicate_seq _
    have hwork := timeSwitch_work a
    exact ⟨congrArg (·.changes) hwork, hseq ▸ Nat.le_succ _, fun _ =>
      ne_of_eq_of_ne (congrArg (·.phase) hwork) (by decide : EpochPhase.timing ≠ .collecting)⟩
  case commit =>
    obtain ⟨t, h⟩ := commitEpoch_shape a
    rw [h]
    exact ⟨rfl, le_rfl, fun _ => (by decide : EpochPhase.committed ≠ .collecting)⟩

/-- An epoch whose prepare has been sent. -/
def EpochPhase.sent : EpochPhase → Bool
  | .preparing | .timing | .committed => true
  | _ => false

/-- Once its prepare is sent an epoch keeps its number, and what was sent stands. -/
structure StaysSent (a b : Machine) : Prop where
  phase : b.hly.work.phase.sent = true
  epoch : b.hly.work.epoch = a.hly.work.epoch
  out : a.out <+: b.out

theorem staysSent_advanceN (k : Nat) (m : Machine) (h : m.hly.work.phase.sent = true) : StaysSent m (m.advanceN k) := by
  refine advanceN_rel (R := fun a b => a.hly.work.phase.sent = true → StaysSent a b) (fun a h => ⟨h, rfl, List.prefix_rfl⟩)
    (fun h h' hs => ?trans) (fun a ha hs => absurd (ha ▸ hs) (by decide)) (fun a ha hs => absurd (ha ▸ hs) (by decide))
    (fun a ha hs => absurd (ha ▸ hs) (by decide)) (fun a _ _ => ?time) (fun a _ _ => ?commit) k m h
  case trans =>
    have hab := h hs
    have hbc := h' hab.phase
    exact ⟨hbc.phase, hbc.epoch.trans hab.epoch, hab.out.trans hbc.out⟩
  case time =>
    have hwork := timeSwitch_work a
    exact ⟨congrArg (·.phase.sent) hwork, congrArg (·.epoch) hwork, timeSwitch_out_prefix a⟩
  case commit =>
    obtain ⟨t, h⟩ := commitEpoch_shape a
    rw [h]
    exact ⟨rfl, rfl, List.prefix_append _ _⟩

end

/-! ### Collection -/

section
variable (m : Machine)

/-- A change enters the database alone. -/
theorem applyChange_db (c : Change) : ∃ db, m.applyChange c = { m with hly := { m.hly with db := db } } := by
  have hrecord (r : LsRecord) : ∃ db, m.applyRecord r = { m with hly := { m.hly with db := db } } := by
    have henters (p : Prop) [Decidable p] (f : HlyDb → HlyDb) :
        ∃ db, (if p then m else m.modDb f) = { m with hly := { m.hly with db := db } } := by
      split
      · exact ⟨m.hly.db, rfl⟩
      · exact ⟨_, rfl⟩
    exact henters _ _
  cases c with
  | record r => exact hrecord r
  | echo r => exact hrecord r
  | none => exact ⟨m.hly.db, rfl⟩
  | _ => exact ⟨_, rfl⟩

theorem foldl_applyChange_db (l : List Change) : ∃ db, l.foldl (fun m c => m.applyChange c) m = { m with hly := { m.hly with db := db } } := by
  induction l generalizing m with
  | nil => exact ⟨m.hly.db, rfl⟩
  | cons c l ih =>
    obtain ⟨db, h⟩ := applyChange_db m c
    obtain ⟨db', h'⟩ := ih (m.applyChange c)
    exact ⟨db', h'.trans (congrArg (fun a : Machine => { a with hly := { a.hly with db := db' } }) h)⟩

theorem memberBack_keeps (n : NodeId) : Kept [.out] m (m.memberBack n) := memberBack_kept .refl n (by decide)

theorem foldl_memberBack_hly (l : List NodeId) : (l.foldl (fun m n => m.memberBack n) m).hly = m.hly := by
  induction l generalizing m with
  | nil => rfl
  | cons n l ih => rw [List.foldl_cons, ih, (memberBack_keeps m n).hly (by decide)]

/-- A generation's stamps say nothing of who is admitted. -/
theorem settle_ownDuplicate (old db : HlyDb) (gen : Word) (p : NodeRec → Bool) (hp : ∀ r g, p { r with changeGen := g } = p r) :
    ((HlyDb.settle old db gen).nodes.map fun r => if gen.toNat < r.changeGen.toNat then { r with changeGen := gen } else r).any p = db.nodes.any p := by
  have hlate (x : NodeRec) : p (if gen.toNat < x.changeGen.toNat then { x with changeGen := gen } else x) = p x := by
    split
    · exact hp x gen
    · rfl
  unfold HlyDb.settle
  simp only [List.any_map, Function.comp_def, hlate]
  refine congrArg (db.nodes.any ·) (funext fun r => ?_)
  split
  · split <;> exact hp r _
  · exact hp r gen

end

/-- A generation fixed, whose epoch has still to be prepared. -/
structure Fixed (m a : Machine) : Prop where
  topoGen : a.hly.reg.topoGen = m.hly.reg.topoGen + 1
  changes : a.hly.work.changes = []
  phase : a.hly.work.phase = .fixing
  time : a.hly.db.time = m.time.now
  seq : a.hly.repl.seq = m.hly.repl.seq + 1
  actions : a.hly.repl.actions = m.hly.repl.actions
  waiting : a.hly.waiting = m.hly.waiting

theorem ownDuplicate_congr {m a : Machine} (hreg : a.hly.reg.admitted = m.hly.reg.admitted) (hnode : a.node = m.node) (hfuse : a.fuse = m.fuse)
    (hany : ∀ p : NodeRec → Bool, (∀ r g, p { r with changeGen := g } = p r) → a.hly.db.nodes.any p = m.hly.db.nodes.any p) :
    a.ownDuplicate = m.ownDuplicate := by
  unfold Machine.ownDuplicate
  rw [hreg, hnode, hfuse, hany]
  exact fun _ _ => rfl

theorem closeCollection_fixes {m : Machine} (hphase : m.hly.work.phase = .collecting) (hjoined : m.hly.work.joined = false)
    (hdup : (m.hly.work.changes.foldl (fun m c => m.applyChange c) m).ownDuplicate = false) :
    ∃ a, Fixed m a ∧ m.closeCollection = a.advance := by
  obtain ⟨db, hfold⟩ := foldl_applyChange_db m m.hly.work.changes
  have hgen : m.fixGen = m.hly.reg.topoGen + 1 := if_neg (by rw [hjoined]; decide)
  unfold Machine.closeCollection
  rw [if_pos hphase]
  extract_lets +onlyGivenNames old gen base applied settled numbered flooded back
  have happlied : applied = { m with hly := { m.hly with db := db } } := hfold
  have hkept : Kept [.out] (numbered.modHly fun h => { h with reduced := numbered.reducedFlag }) flooded :=
    floodGen_kept .refl base (by decide)
  have hhly := hkept.hly (by decide)
  have hsame : flooded.ownDuplicate = applied.ownDuplicate :=
    ownDuplicate_congr (congrArg (·.reg.admitted) hhly) ((congrArg (fun h : Hly => h.reg.nodeId.setWidth 16) hhly).trans rfl)
      (hkept.fuse (by decide)) fun p hp =>
      (congrArg (·.db.nodes.any p) hhly).trans (settle_ownDuplicate old applied.hly.db gen p hp)
  rw [if_neg (by rw [hsame, hdup]; decide)]
  have hnumber : flooded.hly.reg.topoGen = m.hly.reg.topoGen + 1 := (congrArg (·.reg.topoGen) hhly).trans hgen
  have htime : flooded.hly.db.time = m.time.now := (congrArg (·.db.time) hhly).trans (congrArg (·.time.now) happlied)
  have hrepl : flooded.hly.repl = m.hly.repl := (congrArg (·.repl) hhly).trans (congrArg (·.hly.repl) happlied)
  have hwait : flooded.hly.waiting = m.hly.waiting := (congrArg (·.waiting) hhly).trans (congrArg (·.hly.waiting) happlied)
  clear_value flooded
  extract_lets +onlyGivenNames replicated opened
  have hreg : replicated.hly.reg = flooded.hly.reg := replicate_reg _
  have hseq : replicated.hly.repl.seq = flooded.hly.repl.seq + 1 := replicate_seq _
  have hact : replicated.hly.repl.actions = flooded.hly.repl.actions := replicate_actions _
  have hwork : replicated.hly.work.changes = [] := congrArg (·.changes) (replicate_work _)
  have hsans : replicated.sansWork = flooded.sansWork := (replicate_sansWork _).trans (modWork_sansWork flooded _)
  clear_value replicated
  have hback : (back.foldl (fun m n => m.memberBack n) opened).hly = opened.hly := foldl_memberBack_hly opened back
  refine ⟨_, ?_, rfl⟩
  generalize back.foldl (fun m n => m.memberBack n) opened = ready at hback
  exact {
    topoGen := (congrArg (·.reg.topoGen) hback).trans ((congrArg (·.topoGen) hreg).trans hnumber)
    changes := (congrArg (·.work.changes) hback).trans hwork
    phase := congrArg (·.work.phase) hback
    time := (congrArg (·.db.time) hback).trans ((congrArg (·.hly.db.time) hsans).trans htime)
    seq := (congrArg (·.repl.seq) hback).trans (hseq.trans (congrArg (·.seq + 1) hrepl))
    actions := (congrArg (·.repl.actions) hback).trans (hact.trans (congrArg (·.actions) hrepl))
    waiting := (congrArg (·.waiting) hback).trans ((congrArg (·.hly.waiting) hsans).trans hwait) }

theorem epochCollectClose_fixes {s : State} (hphase : s.m.hly.work.phase = .collecting) (hjoined : s.m.hly.work.joined = false)
    (hdup : (s.m.hly.work.changes.foldl (fun m c => m.applyChange c) s.m).ownDuplicate = false) (hact : s.m.hly.repl.actions = [])
    (hwait : s.m.hly.waiting = []) : Completes .epochCollectClose s fun m =>
      m.hly.reg.topoGen = s.m.hly.reg.topoGen + 1 ∧ m.hly.work.changes = [] ∧ m.hly.db.time = s.m.time.now ∧
      m.hly.work.phase ≠ .collecting ∧ m.hly.repl.seq > s.m.hly.repl.seq := by
  obtain ⟨a, hfixed, hclose⟩ := closeCollection_fixes hphase hjoined hdup
  have hkept := advanceN_sansWork 6 a
  have hmoved := movedOn_advanceN 6 a
  have hidle := serve_advance (hfixed.actions.trans hact) (hfixed.waiting.trans hwait)
  refine .of_done (congrArg (done s) ((congrArg Machine.serve hclose).trans hidle)) ⟨?_, ?_, ?_, ?_, ?_⟩
  · exact (congrArg (·.hly.reg.topoGen) hkept).trans hfixed.topoGen
  · exact hmoved.changes.trans hfixed.changes
  · exact (congrArg (·.hly.db.time) hkept).trans hfixed.time
  · exact hmoved.phase (hfixed.phase ▸ by decide)
  · exact Nat.lt_of_lt_of_le (hfixed.seq ▸ Nat.lt_succ_self _) hmoved.seq

end Sys2Proof.Machine

namespace Sys2Proof.Machine

/-! ### A prepare arrives -/

section
variable {m : Machine}

theorem bank_of_even {k : Nat} (h : k % 2 = 0) : m.bank k = m.hly.bank0 := if_pos h
theorem bank_of_odd {k : Nat} (h : ¬ k % 2 = 0) : m.bank k = m.hly.bank1 := if_neg h

/-- A prepare fills the bank of its parity and leaves the other. -/
theorem fillBank_banks (pr : Prepare) (nodes : List NodeRec) (links : List LinkRec) :
    (m.fillBank pr nodes links).bank pr.epoch.toNat = (if pr.same then { m.activeBank with prep := { m.activeBank.prep with epoch := pr.epoch } } else
      { valid := true, gen := pr.gen, cols := m.hly.reg.cols.toNat, rows := m.hly.reg.rows.toNat, nodes := nodes, links := links, prep := pr }) ∧
    (m.fillBank pr nodes links).bank (pr.epoch.toNat + 1) = m.bank (pr.epoch.toNat + 1) ∧ (m.fillBank pr nodes links).hly.prepWait = none := by
  unfold Machine.fillBank
  dsimp only
  by_cases heven : pr.epoch.toNat % 2 = 0
  · have hodd : ¬ (pr.epoch.toNat + 1) % 2 = 0 := by omega
    rw [if_pos heven]
    exact ⟨bank_of_even heven, (bank_of_odd hodd).trans (bank_of_odd (m := m) hodd).symm, rfl⟩
  · have hodd : (pr.epoch.toNat + 1) % 2 = 0 := by omega
    rw [if_neg heven]
    exact ⟨bank_of_odd heven, (bank_of_even hodd).trans (bank_of_even (m := m) hodd).symm, rfl⟩

/-- A package that may prepare an epoch at its generation fills the bank and says READY (04 R129). -/
theorem takePrepare_ready {pr : Prepare} (hadm : m.hly.reg.admitted = true) (hold : m.hly.reg.oldHeld = false)
    (hparity : m.hly.reg.installed = true → pr.epoch.toNat % 2 ≠ m.hly.reg.epoch.toNat % 2) (hgen : pr.gen = m.hly.reg.topoGen ∨ pr.same = true) :
    m.takePrepare pr = ((m.fillBank pr m.hly.db.nodes m.hly.db.links).tell m.hly.reg.master (.ready pr.epoch)).hlyItem 2 := by
  refine (if_neg ?_).trans (if_neg ?_)
  · simpa [hadm, hold] using hparity
  · rintro ⟨hne, hsame⟩
    rcases hgen with hgen | hgen
    · exact hne hgen
    · simp [hgen] at hsame

theorem takePrepare_waits {pr : Prepare} (hadm : m.hly.reg.admitted = true) (hold : m.hly.reg.oldHeld = false)
    (hparity : m.hly.reg.installed = true → pr.epoch.toNat % 2 ≠ m.hly.reg.epoch.toNat % 2) (hgen : pr.gen ≠ m.hly.reg.topoGen)
    (hsame : pr.same = false) : m.takePrepare pr =
      { m with hly := { m.hly with prepWait := some pr } }.tell m.hly.reg.master (.wantDelta m.hly.reg.topoGen) := by
  refine (if_neg ?_).trans (if_pos ⟨hgen, by simp [hsame]⟩)
  simpa [hadm, hold] using hparity

theorem takePrepare_refused {pr : Prepare} (h : m.hly.reg.admitted = false ∨ m.hly.reg.oldHeld = true) : m.takePrepare pr = m :=
  if_pos (by rcases h with h | h <;> simp [h])

end

/-- The machine as a prepare has gone on down the spanning tree (04 R129). -/
def Machine.preparePassed (m : Machine) (prs : List (NodeId × Prepare)) : Machine :=
  { m with out := m.out ++ (m.treeKids.filter (· != m.node)).map fun d => Out.mgmt d (.prepare prs) }

theorem prepare_forwarded (m : Machine) (prs : List (NodeId × Prepare)) :
    m.tellKids m.hly.reg.master (.prepare prs) = m.preparePassed prs := tellKids_eq m _ _

theorem epochPrepare_own {prs : List (NodeId × Prepare)} {k : NodeId} {pr : Prepare} {s : State} (hmember : s.m.isMaster = false)
    (hown : prs.find? (fun e => e.1 == s.m.node) = some (k, pr)) :
    exec (.epochPrepareReceive prs) s = done s ((s.m.preparePassed prs).takePrepare pr) := by
  refine congrArg (done s) ((if_neg (by rw [hmember]; decide)).trans ?_)
  dsimp only
  rw [prepare_forwarded]
  have hfound : (prs.find? fun e => e.1 == (s.m.preparePassed prs).node) = some (k, pr) := hown
  rw [hfound]

theorem epochPrepare_fills {prs : List (NodeId × Prepare)} {k : NodeId} {pr : Prepare} {s : State} (hmember : s.m.isMaster = false)
    (hown : prs.find? (fun e => e.1 == s.m.node) = some (k, pr)) (hadm : s.m.hly.reg.admitted = true) (hold : s.m.hly.reg.oldHeld = false)
    (hparity : s.m.hly.reg.installed = true → pr.epoch.toNat % 2 ≠ s.m.hly.reg.epoch.toNat % 2)
    (hgen : pr.gen = s.m.hly.reg.topoGen ∨ pr.same = true) :
    Completes (.epochPrepareReceive prs) s fun m => m.hly.reg = { s.m.hly.reg with prepared := true } ∧
      m.bank pr.epoch.toNat = (if pr.same then { s.m.activeBank with prep := { s.m.activeBank.prep with epoch := pr.epoch } } else
        { valid := true, gen := pr.gen, cols := s.m.hly.reg.cols.toNat, rows := s.m.hly.reg.rows.toNat,
          nodes := s.m.hly.db.nodes, links := s.m.hly.db.links, prep := pr }) ∧
      m.bank (pr.epoch.toNat + 1) = s.m.bank (pr.epoch.toNat + 1) ∧ m.hly.prepWait = none ∧
      m.out = s.m.out ++ ((s.m.treeKids.filter (· != s.m.node)).map fun d => Out.mgmt d (.prepare prs)) ++
        [Out.mgmt s.m.hly.reg.master (.ready pr.epoch)] := by
  have hready : (s.m.preparePassed prs).takePrepare pr = _ := takePrepare_ready hadm hold hparity hgen
  obtain ⟨hbank, hother, hwait⟩ := fillBank_banks (m := s.m.preparePassed prs) pr s.m.hly.db.nodes s.m.hly.db.links
  have hreg := (fillBank_db (s.m.preparePassed prs) pr s.m.hly.db.nodes s.m.hly.db.links).2
  have hout := (fillBank_work (s.m.preparePassed prs) pr s.m.hly.db.nodes s.m.hly.db.links).2.2
  refine .of_done (epochPrepare_own hmember hown) ?_
  rw [hready]
  exact ⟨hreg, hbank, hother, hwait, congrArg (· ++ [Out.mgmt s.m.hly.reg.master (.ready pr.epoch)]) hout⟩

theorem epochPrepare_waits {prs : List (NodeId × Prepare)} {k : NodeId} {pr : Prepare} {s : State} (hmember : s.m.isMaster = false)
    (hown : prs.find? (fun e => e.1 == s.m.node) = some (k, pr)) (hadm : s.m.hly.reg.admitted = true) (hold : s.m.hly.reg.oldHeld = false)
    (hparity : s.m.hly.reg.installed = true → pr.epoch.toNat % 2 ≠ s.m.hly.reg.epoch.toNat % 2)
    (hgen : pr.gen ≠ s.m.hly.reg.topoGen) (hsame : pr.same = false) :
    Completes (.epochPrepareReceive prs) s fun m => m.hly = { s.m.hly with prepWait := some pr } ∧
      m.out = s.m.out ++ ((s.m.treeKids.filter (· != s.m.node)).map fun d => Out.mgmt d (.prepare prs)) ++
        [Out.mgmt s.m.hly.reg.master (.wantDelta s.m.hly.reg.topoGen)] := by
  refine .of_done (epochPrepare_own hmember hown) ?_
  rw [takePrepare_waits (m := s.m.preparePassed prs) hadm hold hparity hgen hsame]
  exact ⟨rfl, rfl⟩

/-- A package that is not admitted, or still holds its old bank, only passes the prepare on. -/
theorem epochPrepare_passes {prs : List (NodeId × Prepare)} {s : State} (hmember : s.m.isMaster = false)
    (hno : s.m.hly.reg.admitted = false ∨ s.m.hly.reg.oldHeld = true) :
    Completes (.epochPrepareReceive prs) s fun m => m = { s.m with
      out := s.m.out ++ (s.m.treeKids.filter (· != s.m.node)).map fun d => Out.mgmt d (.prepare prs) } := by
  refine .of_done (m := s.m.preparePassed prs) (congrArg (done s) ((if_neg (by rw [hmember]; decide)).trans ?_)) rfl
  dsimp only
  rw [prepare_forwarded]
  split
  · exact takePrepare_refused hno
  · rfl

/-! ### READY and the commit -/

section
variable {n : NodeId} {e : BitVec 16} {s : State}

/-- The machine as a package's READY is counted (04 R129). -/
def Machine.readyCounted (m : Machine) (n : NodeId) : Machine :=
  m.modWork fun w => { w with ready := if w.ready.contains n then w.ready else w.ready ++ [n] }

theorem readyCounted_contains (m : Machine) (n x : NodeId) :
    (m.readyCounted n).hly.work.ready.contains x = true ↔ x = n ∨ m.hly.work.ready.contains x = true := by
  show (if m.hly.work.ready.contains n then m.hly.work.ready else m.hly.work.ready ++ [n]).contains x = true ↔ _
  by_cases hn : m.hly.work.ready.contains n = true
  · rw [if_pos hn]
    refine ⟨.inr, ?_⟩
    rintro (rfl | hx)
    · exact hn
    · exact hx
  · rw [if_neg hn]
    simp [or_comm]

theorem epochReady_exec (hmaster : s.m.isMaster = true) (hphase : s.m.hly.work.phase = .preparing) (he : s.m.hly.work.epoch = e) :
    exec (.epochReadyReceive n e) s = done s ((s.m.readyCounted n).advance.serve.hlyItem 2) :=
  congrArg (done s) (if_pos ⟨hmaster, hphase, he⟩)

/-- While an awaited package is not ready, a READY is only counted. -/
theorem epochReady_counts (hmaster : s.m.isMaster = true) (hphase : s.m.hly.work.phase = .preparing) (he : s.m.hly.work.epoch = e)
    (hleft : ∃ x ∈ s.m.awaited, x ≠ n ∧ s.m.hly.work.ready.contains x = false) (hact : s.m.hly.repl.actions = [])
    (hwait : s.m.hly.waiting = []) : Completes (.epochReadyReceive n e) s fun m =>
      m.hly.work = { s.m.hly.work with ready := if s.m.hly.work.ready.contains n then s.m.hly.work.ready else s.m.hly.work.ready ++ [n] } ∧
      m.hly.reg = s.m.hly.reg ∧ m.out = s.m.out := by
  obtain ⟨x, hx, hne, hnot⟩ := hleft
  have hall : ¬ ((s.m.readyCounted n).awaited.all fun y => (s.m.readyCounted n).hly.work.ready.contains y) = true := fun hall => by
    rcases (readyCounted_contains s.m n x).mp (List.all_eq_true.mp hall x hx) with h | h
    · exact hne h
    · exact absurd h (by rw [hnot]; decide)
  have hstays : (s.m.readyCounted n).advance = s.m.readyCounted n := (advanceN_preparing (m := s.m.readyCounted n) 5 hphase).trans (if_neg hall)
  refine .of_done (epochReady_exec hmaster hphase he) ?_
  rw [serve_advance (m := s.m.readyCounted n) hact hwait, hstays]
  exact ⟨rfl, rfl, rfl⟩

theorem timeSwitch_of_no_standby {m : Machine} (h : m.hly.reg.standby = 0xFFFF) : m.timeSwitch = { m with hly := { m.hly with
    work := { m.hly.work with phase := .timing, switchAt := m.time.now + 50000, fixedSeq := m.hly.repl.seq + 1 }
    repl := { m.hly.repl with seq := m.hly.repl.seq + 1, acked := m.hly.repl.seq + 1 } } } := by
  unfold Machine.timeSwitch
  rw [replicate_of_no_standby (m := m.modWork _) h]
  rfl

/-- With every awaited package ready and no standby to wait for, the commit goes out at once (04 R129). -/
theorem epochReady_commits (hmaster : s.m.isMaster = true) (hphase : s.m.hly.work.phase = .preparing) (he : s.m.hly.work.epoch = e)
    (hall : ∀ x ∈ s.m.awaited, x = n ∨ s.m.hly.work.ready.contains x = true) (hstandby : s.m.hly.reg.standby = 0xFFFF)
    (hact : s.m.hly.repl.actions = []) (hwait : s.m.hly.waiting = []) :
    Completes (.epochReadyReceive n e) s fun m => m.hly.work.phase = .committed ∧ m.hly.work.switchAt = s.m.time.now + 50000 ∧
      m.hly.work.epoch = e ∧ m.out = s.m.out ++ (s.m.awaited.filter (· != s.m.node)).map fun d => Out.mgmt d (.commit e (s.m.time.now + 50000)) := by
  let a := s.m.readyCounted n
  have hready : (a.awaited.all fun y => a.hly.work.ready.contains y) = true :=
    List.all_eq_true.mpr fun x hx => (readyCounted_contains s.m n x).mpr (hall x hx)
  have htime := timeSwitch_of_no_standby (m := a) hstandby
  have hcommitted : a.timeSwitch.isCommitted a.timeSwitch.hly.work.fixedSeq = true := by
    rw [htime]
    simp [Machine.isCommitted, a, Machine.readyCounted, Machine.modWork, hstandby]
  have hadvance : a.advance = a.timeSwitch.commitEpoch :=
    (advanceN_preparing (m := a) 5 hphase).trans ((if_pos hready).trans
      ((advanceN_timing (m := a.timeSwitch) 4 (congrArg (·.phase) (timeSwitch_work a))).trans (if_pos hcommitted)))
  obtain ⟨t, hcommit⟩ := commitEpoch_shape a.timeSwitch
  rw [htime] at hcommit
  refine .of_done (epochReady_exec hmaster hphase he) ?_
  rw [show s.m.readyCounted n = a from rfl, serve_advance (m := a) hact hwait, hadvance, htime, hcommit]
  exact ⟨rfl, rfl, he, by rw [← he]; rfl⟩

end

end Sys2Proof.Machine

namespace Sys2Proof.Machine

/-! ### The switch -/

section
variable {e : BitVec 16} {t : DWord} {s : State}

/-- The machine whose committed bank has become active; the old one is held (04 R129, R130). -/
def Machine.bankSwitched (m : Machine) (e : BitVec 16) : Machine :=
  { m with hly := { m.hly with
      reg := { m.hly.reg with epoch := e, prepared := false, oldHeld := m.hly.reg.installed, installed := true }
      commitAt := none, lastSwitch := some m.time.now } }

/-- The machine as the ramps and windows of the new bank are in force too. -/
def Machine.switched (m : Machine) (e : BitVec 16) : Machine :=
  ((((m.bankSwitched e).takeRamps (m.bankSwitched e).activeBank.prep).takeWindows).hlyItem 2)

theorem switched_keeps (m : Machine) (e : BitVec 16) : Kept [.part, .reef, .strm, .luff] (m.bankSwitched e) (m.switched e) := by
  have hramps := takeRamps_kept (W := [.part, .reef, .strm, .luff]) (.refl (m := m.bankSwitched e)) (m.bankSwitched e).activeBank.prep
    (by decide) (by decide)
  exact hlyItem_kept (takeWindows_kept hramps (by decide)) 2 (by decide)

/-- The switch to a prepared epoch, and at the master what follows it. -/
theorem switchEpoch_prepared {m : Machine} (hcommit : m.hly.commitAt = some (e, t)) (hprep : m.hly.reg.prepared = true) :
    m.switchEpoch = if (m.switched e).isMaster then (m.switched e).masterSwitched.serve else m.switched e := by
  unfold Machine.switchEpoch
  rw [hcommit]
  exact if_neg (by rw [hprep]; decide)

theorem switched_isMaster (m : Machine) (e : BitVec 16) : (m.switched e).isMaster = m.isMaster := by
  unfold Machine.isMaster
  rw [(switched_keeps m e).hly (by decide)]
  rfl

theorem epochSwitch_member (hcommit : s.m.hly.commitAt = some (e, t)) (hprep : s.m.hly.reg.prepared = true) (hmember : s.m.isMaster = false) :
    Completes .epochSwitch s fun m => m.hly = (s.m.bankSwitched e).hly := by
  refine .of_done rfl ?_
  rw [switchEpoch_prepared hcommit hprep, if_neg (by rw [switched_isMaster, hmember]; decide), bootSettle_hly]
  exact (switched_keeps s.m e).hly (by decide)

end

theorem replicate_tkp (m : Machine) : m.replicate.tkp = m.tkp :=
  (replicate_kept (W := [.hly, .out]) .refl (by decide) (by decide)).tkp (by decide)

/-- What the master's switch installs in an epoch that nothing waited for (05 R152). -/
structure Installed (m a : Machine) : Prop where
  resv : a.tkp.resv = m.nextResv
  claims : a.tkp.claims = m.nextClaims
  held : a.tkp.held = m.tkp.held
  replanHeld : a.tkp.replanHeld = []
  reg : a.hly.reg = m.hly.reg
  phase : a.hly.work.phase = if m.hly.work.changes.any asksEpoch then .collecting else .idle
  actions : a.hly.repl.actions = m.hly.repl.actions
  waiting : a.hly.waiting = m.hly.waiting

/-- The slices regraded or back at the switch are told so; the rest is the installation. -/
theorem masterSwitched_installs {m : Machine} (hafter : m.hly.work.after = []) (hextra : m.hly.work.extraNodes = []) :
    ∃ a, Installed m a ∧ Notified a m.masterSwitched := by
  have hcarried : m.carried = [] := by simp [Machine.carried, hafter]
  unfold Machine.masterSwitched
  rw [if_neg (by simp [hextra])]
  extract_lets +onlyGivenNames rs cs mine missing planner owned raised closed regraded acted
  have hacted : acted = regraded := by simp [acted, hafter]
  have hraised : raised.tkp = owned.tkp ∧ raised.hly = owned.hly := by
    simp only [raised]
    split
    · rw [Machine.raise, raiseAs_fields]
      exact ⟨rfl, rfl⟩
    · exact ⟨rfl, rfl⟩
  obtain ⟨htkp, hhly⟩ := hraised
  have hheld : owned.tkp.held = m.tkp.held := by simp [owned, mine, hcarried]
  clear_value raised
  have hsans : closed.sansWork = raised.sansWork := (replicate_sansWork _).trans (modWork_sansWork raised _)
  have hkept : closed.tkp = raised.tkp := replicate_tkp _
  have hreg : closed.hly.reg = raised.hly.reg := replicate_reg _
  have hwork : closed.hly.work.phase = if raised.hly.work.changes.any asksEpoch then .collecting else .idle :=
    congrArg (·.phase) (replicate_work _)
  have hact : closed.hly.repl.actions = raised.hly.repl.actions := replicate_actions _
  refine ⟨closed, ?_, (notified_regradeSlices closed m.hly.work.planned).trans (hacted ▸ notified_memberReturn _)⟩
  exact {
    resv := (congrArg (·.resv) hkept).trans (congrArg (·.resv) htkp)
    claims := (congrArg (·.claims) hkept).trans (congrArg (·.claims) htkp)
    held := (congrArg (·.held) hkept).trans ((congrArg (·.held) htkp).trans hheld)
    replanHeld := (congrArg (·.replanHeld) hkept).trans (congrArg (·.replanHeld) htkp)
    reg := hreg.trans (congrArg (·.reg) hhly)
    phase := hwork.trans (by rw [hhly])
    actions := hact.trans (congrArg (·.repl.actions) hhly)
    waiting := (congrArg (·.hly.waiting) hsans).trans (congrArg (·.waiting) hhly) }

section
variable {e : BitVec 16} {t : DWord} {s : State}

theorem epochSwitch_master (hcommit : s.m.hly.commitAt = some (e, t)) (hprep : s.m.hly.reg.prepared = true) (hmaster : s.m.isMaster = true)
    (hafter : s.m.hly.work.after = []) (hextra : s.m.hly.work.extraNodes = []) (hact : s.m.hly.repl.actions = [])
    (hwait : s.m.hly.waiting = []) : Completes .epochSwitch s fun m => m.hly.reg.epoch = e ∧ m.hly.reg.installed = true ∧
      m.tkp.resv = s.m.nextResv ∧ m.tkp.claims = s.m.nextClaims ∧ m.tkp.held = s.m.tkp.held ∧ m.tkp.replanHeld = [] ∧
      m.hly.work.phase = (if s.m.hly.work.changes.any asksEpoch then .collecting else .idle) := by
  have hkept := switched_keeps s.m e
  have hhly : (s.m.switched e).hly = (s.m.bankSwitched e).hly := hkept.hly (by decide)
  have htkp : (s.m.switched e).tkp = s.m.tkp := hkept.tkp (by decide)
  obtain ⟨a, ha, hnotified⟩ := masterSwitched_installs (m := s.m.switched e) ((congrArg (·.work.after) hhly).trans hafter)
    ((congrArg (·.work.extraNodes) hhly).trans hextra)
  have hserved : (s.m.switched e).masterSwitched.serve.sansEvents = a.sansEvents :=
    hnotified.serveN (ha.actions.trans ((congrArg (·.repl.actions) hhly).trans hact))
      (ha.waiting.trans ((congrArg (·.waiting) hhly).trans hwait)) _
  have hresv : (s.m.switched e).nextResv = s.m.nextResv := by
    unfold Machine.nextResv Machine.carried
    rw [htkp, hhly]
    rfl
  have hclaims : (s.m.switched e).nextClaims = s.m.nextClaims := by
    unfold Machine.nextClaims Machine.carried
    rw [htkp, hhly]
    rfl
  refine .of_done rfl ?_
  rw [switchEpoch_prepared hcommit hprep, if_pos ((switched_isMaster s.m e).trans hmaster), bootSettle_hly, bootSettle_tkp]
  generalize (s.m.switched e).masterSwitched.serve = served at hserved ⊢
  have hreg : served.hly.reg = (s.m.bankSwitched e).hly.reg := (congrArg (·.hly.reg) hserved).trans (ha.reg.trans (congrArg (·.reg) hhly))
  refine ⟨congrArg (·.epoch) hreg, congrArg (·.installed) hreg, ?_, ?_, ?_, ?_, ?_⟩
  · exact (congrArg (·.tkp.resv) hserved).trans (ha.resv.trans hresv)
  · exact (congrArg (·.tkp.claims) hserved).trans (ha.claims.trans hclaims)
  · exact (congrArg (·.tkp.held) hserved).trans (ha.held.trans (congrArg (·.held) htkp))
  · exact (congrArg (·.tkp.replanHeld) hserved).trans ha.replanHeld
  · exact (congrArg (·.hly.work.phase) hserved).trans (ha.phase.trans (by rw [hhly]))

end

/-! ### Commit, release and abort at a package -/

section
variable {e : BitVec 16} {t : DWord} {s : State}

theorem epochCommit_prepared (hmember : s.m.isMaster = false) (hprep : s.m.hly.reg.prepared = true) (he : (s.m.bank e.toNat).prep.epoch = e) :
    Completes (.epochCommitReceive e t) s fun m => m.hly = { s.m.hly with commitAt := some (e, t) } ∧ m.out = s.m.out := by
  refine .of_done (congrArg (done s) ((if_neg (by rw [hmember]; decide)).trans (if_pos ?_))) ⟨rfl, rfl⟩
  simp [hprep, he]

theorem epochCommit_unprepared (hmember : s.m.isMaster = false) (hprep : s.m.hly.reg.prepared = false) :
    Completes (.epochCommitReceive e t) s fun m => m = { s.m with out := s.m.out ++ [Out.mgmt s.m.hly.reg.master (.notPrepared e)] } := by
  refine .of_done (congrArg (done s) ((if_neg (by rw [hmember]; decide)).trans (if_neg ?_))) rfl
  simp [hprep]

/-- The old bank is that of the other parity than the active epoch's (04 R130). -/
theorem oldBankRelease_clears (hold : s.m.hly.reg.oldHeld = true) : Completes .oldBankRelease s fun m =>
    m.hly.reg = { s.m.hly.reg with oldHeld := false } ∧ m.bank (s.m.hly.reg.epoch.toNat + 1) = .reset ∧ m.activeBank = s.m.activeBank := by
  refine .of_done rfl ?_
  rw [if_pos hold]
  dsimp only
  split
  next heven =>
    have heven : s.m.hly.reg.epoch.toNat % 2 = 0 := heven
    have hodd : ¬ (s.m.hly.reg.epoch.toNat + 1) % 2 = 0 := by omega
    exact ⟨rfl, bank_of_odd hodd, (bank_of_even heven).trans (bank_of_even (m := s.m) heven).symm⟩
  next hodd =>
    have hodd : ¬ s.m.hly.reg.epoch.toNat % 2 = 0 := hodd
    have heven : (s.m.hly.reg.epoch.toNat + 1) % 2 = 0 := by omega
    exact ⟨rfl, bank_of_even heven, (bank_of_odd hodd).trans (bank_of_odd (m := s.m) hodd).symm⟩

/-- A prepared bank that is dropped reads 0, and the other stands (04 R131). -/
theorem dropPrepared_banks {m : Machine} (hprep : m.hly.reg.prepared = true) : (m.dropPrepared e).hly.reg = { m.hly.reg with prepared := false } ∧
    (m.dropPrepared e).bank e.toNat = .reset ∧ (m.dropPrepared e).bank (e.toNat + 1) = m.bank (e.toNat + 1) ∧
    (m.dropPrepared e).hly.commitAt = m.hly.commitAt := by
  unfold Machine.dropPrepared
  rw [if_pos hprep]
  dsimp only
  by_cases heven : e.toNat % 2 = 0
  · have hodd : ¬ (e.toNat + 1) % 2 = 0 := by omega
    rw [if_pos heven]
    exact ⟨rfl, bank_of_even heven, (bank_of_odd hodd).trans (bank_of_odd (m := m) hodd).symm, rfl⟩
  · have hodd : (e.toNat + 1) % 2 = 0 := by omega
    rw [if_neg heven]
    exact ⟨rfl, bank_of_odd heven, (bank_of_even hodd).trans (bank_of_even (m := m) hodd).symm, rfl⟩

theorem epochAbort_drops (hmember : s.m.isMaster = false) (hprep : s.m.hly.reg.prepared = true) :
    Completes (.epochAbortReceive e) s fun m =>
      m.hly.reg = { s.m.hly.reg with prepared := false } ∧ m.bank e.toNat = .reset ∧ m.bank (e.toNat + 1) = s.m.bank (e.toNat + 1) ∧
      (∀ t, s.m.hly.commitAt = some (e, t) → m.hly.commitAt = none) := by
  obtain ⟨hreg, hbank, hother, hcommit⟩ := dropPrepared_banks (m := s.m) (e := e) hprep
  refine .of_done (congrArg (done s) (if_neg (by rw [hmember]; decide))) ?_
  dsimp only
  split
  next e' t' hsome =>
    split
    · exact ⟨hreg, hbank, hother, fun _ _ => rfl⟩
    next hne =>
      refine ⟨hreg, hbank, hother, fun t ht => absurd ?_ hne⟩
      rw [hcommit, ht] at hsome
      exact (congrArg Prod.fst (Option.some.inj hsome)).symm
  next hnone => exact ⟨hreg, hbank, hother, fun _ _ => hnone⟩

end

/-! ### A late package, and the guard -/

theorem dropPrepared_prepared (m : Machine) (e : BitVec 16) : (m.dropPrepared e).hly.reg.prepared = false := by
  unfold Machine.dropPrepared
  split
  · dsimp only
    split <;> rfl
  next h => exact Bool.eq_false_iff.mpr h

/-- What an abort leaves of the epoch: the collection is open once more, with its changes and its late packages, and no bank is prepared. -/
theorem abortPrepare_effect (m : Machine) : m.abortPrepare.hly.work.phase = .collecting ∧ m.abortPrepare.hly.work.ready = [] ∧
    m.abortPrepare.hly.work.late = m.hly.work.late ∧ m.abortPrepare.hly.work.changes = m.hly.work.changes ∧
    m.abortPrepare.hly.reg.prepared = false ∧ m.abortPrepare.tkp.replanHeld = [] := by
  unfold Machine.abortPrepare
  dsimp only
  rw [replicate_work, replicate_reg, replicate_tkp]
  refine ⟨rfl, rfl, rfl, rfl, ?_, rfl⟩
  exact (congrArg (·.reg.prepared) (foldl_placing_hly _ _)).trans (dropPrepared_prepared _ _)

section
variable {n : NodeId} {s : State}

/-- A package whose READY is late is marked draining, and the prepare is aborted (04 R131). -/
theorem epochReadyTimeout_aborts (hmaster : s.m.isMaster = true) (hphase : s.m.hly.work.phase = .preparing)
    (hawaited : s.m.awaited.contains n = true) (hnot : s.m.hly.work.ready.contains n = false) (hact : s.m.hly.repl.actions = [])
    (hwait : s.m.hly.waiting = []) : Completes (.epochReadyTimeout n) s fun m =>
      m.hly.work.phase = .collecting ∧ m.hly.work.late = s.m.hly.work.late ++ [n] ∧
      m.hly.work.changes = s.m.hly.work.changes ++ [Change.nodeState n 1] ∧ m.hly.work.ready = [] ∧
      m.hly.reg.prepared = false ∧ m.tkp.replanHeld = [] := by
  obtain ⟨hcollecting, hready, hlate, hchanges, hprep, hheld⟩ := abortPrepare_effect s.m
  have hkept := abortPrepare_sansWork s.m
  let late := s.m.abortPrepare.modWork fun w => { w with late := w.late ++ [n] }
  let drained : EpochWork → EpochWork := fun w =>
    { w with changes := w.changes ++ [.nodeState n 1], phase := if w.phase = .idle then .collecting else w.phase }
  have hgone := notified_memberGone late n 0x04
  have hlateMaster : late.isMaster = true := (isMaster_of_sansWork hkept).trans hmaster
  have hsubmit : s.m.readyLate n = (late.memberGone n 0x04).modWork drained := by
    refine (if_pos ⟨hawaited, .inl ⟨hphase, by rw [hnot]; rfl⟩⟩).trans ?_
    rw [if_pos hphase]
    exact submit_of_master (hgone.isMaster.trans hlateMaster) _
  have hserved : (s.m.readyLate n).serve.sansEvents = (late.modWork drained).sansEvents :=
    hsubmit ▸ (hgone.modWork drained).serveN ((congrArg (·.hly.repl.actions) hkept).trans hact) ((congrArg (·.hly.waiting) hkept).trans hwait) _
  refine .of_done (congrArg (done s) (if_pos hmaster)) ?_
  generalize (s.m.readyLate n).serve = served at hserved ⊢
  have hwork : served.hly.work = drained late.hly.work := congrArg (·.hly.work) hserved
  have hdrained : (drained late.hly.work).phase = .collecting := by
    show (if s.m.abortPrepare.hly.work.phase = .idle then EpochPhase.collecting else s.m.abortPrepare.hly.work.phase) = _
    rw [hcollecting]
    rfl
  refine ⟨(congrArg (·.phase) hwork).trans hdrained, (congrArg (·.late) hwork).trans (congrArg (· ++ [n]) hlate),
    (congrArg (·.changes) hwork).trans (congrArg (· ++ [Change.nodeState n 1]) hchanges), (congrArg (·.ready) hwork).trans hready, ?_, ?_⟩
  · exact (congrArg (·.hly.reg.prepared) hserved).trans hprep
  · exact (congrArg (·.tkp.replanHeld) hserved).trans hheld

/-- At rest the guard's passing is only marked. -/
theorem epochPrepareGuard_idle (hmaster : s.m.isMaster = true) (hphase : s.m.hly.work.phase = .idle) (hact : s.m.hly.repl.actions = [])
    (hwait : s.m.hly.waiting = []) :
    Completes .epochPrepareGuard s fun m => m = { s.m with hly := { s.m.hly with work := { s.m.hly.work with guardDone := true } } } := by
  let a := s.m.modWork fun w => { w with guardDone := true }
  have hrest : a.advance = a := advanceN_rest (m := a) (hphase ▸ rfl) 6
  refine .of_done (congrArg (done s) ((if_neg (by rw [hmaster]; decide)).trans (if_neg ?_))) ?_
  · rintro ⟨-, -, hcommitted⟩
    exact absurd (hphase.symm.trans hcommitted) (by decide)
  · rw [serve_advance (m := a) hact hwait, hrest]
    rfl

/-- The guard lets the next prepare go, down the tree (04 R130). -/
theorem epochPrepareGuard_prepares (hmaster : s.m.isMaster = true) (hphase : s.m.hly.work.phase = .guarded) (hact : s.m.hly.repl.actions = [])
    (hwait : s.m.hly.waiting = []) : Completes .epochPrepareGuard s fun m =>
      m.hly.work.epoch = s.m.nextEpoch ∧ (m.hly.work.phase = .preparing ∨ m.hly.work.phase = .timing ∨ m.hly.work.phase = .committed) ∧
      ∀ k ∈ s.m.treeKids, k ≠ s.m.node → s.m.hly.reg.master = s.m.node →
        .mgmt k (.prepare ((s.m.awaited.filter (· != s.m.node)).map fun n => (n, s.m.prepareFor s.m.nextEpoch n))) ∈ m.out := by
  let a := s.m.modWork fun w => { w with guardDone := true }
  have hsend : a.advance = a.sendPrepare.advanceN 5 := (advanceN_guarded (m := a) 5 hphase).trans (if_pos rfl)
  obtain ⟨ready, hwork, -, hout⟩ := sendPrepare_effect a
  have hsent := staysSent_advanceN 5 a.sendPrepare (congrArg (·.phase.sent) hwork)
  refine .of_done (congrArg (done s) ((if_neg (by rw [hmaster]; decide)).trans (if_neg ?_))) ?_
  · rintro ⟨-, -, hcommitted⟩
    exact absurd (hphase.symm.trans hcommitted) (by decide)
  · rw [serve_advance (m := a) hact hwait, hsend]
    refine ⟨hsent.epoch.trans (congrArg (·.epoch) hwork), ?_, fun k hk hne hroot => hsent.out.subset ?_⟩
    · cases hp : (a.sendPrepare.advanceN 5).hly.work.phase with
      | preparing => exact .inl rfl
      | timing => exact .inr (.inl rfl)
      | committed => exact .inr (.inr rfl)
      | _ => exact absurd (hp ▸ hsent.phase) (by decide)
    · rw [hout]
      refine List.mem_append_right _ (List.mem_map.mpr ⟨k, List.mem_filter.mpr ⟨?_, bne_iff_ne.mpr hne⟩, rfl⟩)
      exact hroot ▸ hk

/-- A master outside the component of an extra epoch goes on from it (04 R118). -/
theorem epochPrepareGuard_extra (hmaster : s.m.isMaster = true) (hphase : s.m.hly.work.phase = .committed)
    (hextra : s.m.hly.work.extraNodes ≠ []) (hout : s.m.hly.work.extraNodes.contains s.m.node = false) :
    Completes .epochPrepareGuard s fun m => m.hly.work.phase = .collecting ∧ m.hly.work.extraNodes = [] ∧
      m.hly.work.nextEpoch = s.m.hly.work.finalEpoch ∧ m.hly.work.guardDone = true := by
  refine .of_done (congrArg (done s) ((if_neg (by rw [hmaster]; decide)).trans (if_pos ?_))) ⟨rfl, rfl, rfl, rfl⟩
  exact ⟨by simpa using hextra, by rw [hout]; rfl, hphase⟩

end

/-- Settles O22: each stage moves the work on by an equation, and what a switch or an abort tells the slices waits behind it as events. -/
theorem routeEpochStages : Obligations.RouteEpochStages := by
  unfold Obligations.RouteEpochStages
  refine ⟨?closes, ?notOpen, ?fills, ?waits, ?atMaster, ?passes, ?counts, ?commits, ?notAwaited, ?committed, ?unprepared, ?switches,
    ?installs, ?releases, ?released, ?late, ?aborts, ?guardIdle, ?guardPrepares, ?guardExtra⟩
  case closes =>
    intro s hphase hjoined hdup hact hwait
    exact epochCollectClose_fixes hphase hjoined hdup hact hwait
  case notOpen =>
    intro s hphase hact hwait
    exact .of_done rfl (by rw [show s.m.closeCollection = s.m from if_neg hphase, serve_idle hact hwait])
  case fills =>
    intro prs k pr s hmember hown hadm hold hparity hgen
    exact epochPrepare_fills hmember hown hadm hold hparity hgen
  case waits =>
    intro prs k pr s hmember hown hadm hold hparity hgen hsame
    exact epochPrepare_waits hmember hown hadm hold hparity hgen hsame
  case atMaster =>
    intro prs s hmaster
    exact .of_done rfl (if_pos hmaster)
  case passes =>
    intro prs s hmember hno
    exact epochPrepare_passes hmember hno
  case counts =>
    intro n e s hmaster hphase he hleft hact hwait
    exact epochReady_counts hmaster hphase he hleft hact hwait
  case commits =>
    intro n e s hmaster hphase he hall hstandby hact hwait
    exact epochReady_commits hmaster hphase he hall hstandby hact hwait
  case notAwaited =>
    intro n e s hno
    refine .of_done rfl (if_neg ?_)
    rintro ⟨-, hphase, he⟩
    exact hno.elim (· hphase) (· he)
  case committed =>
    intro e t s hmember hprep he
    exact epochCommit_prepared hmember hprep he
  case unprepared =>
    intro e t s hmember hprep
    exact epochCommit_unprepared hmember hprep
  case switches =>
    intro e t s hcommit hprep hmember
    refine (epochSwitch_member hcommit hprep hmember).imp fun m hm => ?_
    rw [hm]
    exact ⟨rfl, rfl, rfl, rfl⟩
  case installs =>
    intro e t s hcommit hprep hmaster hafter hextra hact hwait
    exact epochSwitch_master hcommit hprep hmaster hafter hextra hact hwait
  case releases =>
    intro s hold
    exact oldBankRelease_clears hold
  case released =>
    intro s hold
    exact .of_done rfl (if_neg (by rw [hold]; decide))
  case late =>
    intro n s hmaster hphase hawaited hnot hact hwait
    exact epochReadyTimeout_aborts hmaster hphase hawaited hnot hact hwait
  case aborts =>
    intro e s hmember hprep
    exact epochAbort_drops hmember hprep
  case guardIdle =>
    intro s hmaster hphase hact hwait
    exact epochPrepareGuard_idle hmaster hphase hact hwait
  case guardPrepares =>
    intro s hmaster hphase hact hwait
    exact epochPrepareGuard_prepares hmaster hphase hact hwait
  case guardExtra =>
    intro s hmaster hphase hextra hout
    exact epochPrepareGuard_extra hmaster hphase hextra hout

end Sys2Proof.Machine

/-! ## Halyard: the commands that the master executes -/

namespace Sys2Proof.Machine

/-! ### A member's command has its turn at once -/

section
variable {m : Machine}

/-- A command with its pod-wide number (04 R136). -/
def Machine.numbered (m : Machine) (c : HlyCmdRec) : HlyCmdRec := { c with podSeq := m.hly.podSeq + 1 }

/-- The machine as a sole master executes a command: its number is replicated, and no action of another waits (04 R116, R136). -/
def Machine.begun (m : Machine) (c : HlyCmdRec) : Machine :=
  { m with hly := { m.hly with
      cur := some (m.numbered c), waiting := [], podSeq := m.hly.podSeq + 1
      repl := { m.hly.repl with seq := m.hly.repl.seq + 1, acked := m.hly.repl.seq + 1, actions := [] } } }

/-- The machine as the command's turn has been committed. -/
def Machine.turnDue (m : Machine) (c : HlyCmdRec) : Machine :=
  { m.begun c with hly := { (m.begun c).hly with repl := { (m.begun c).hly.repl with actions := [(m.hly.repl.seq + 1, .run)] } } }

/-- The record of the command that a forwarded instruction brings, as it is executed. -/
abbrev Machine.turnRec (m : Machine) (op : Nat) (n : NodeId) (args : List Word) (data : List Byte) (cable : Option CableRead) : HlyCmdRec :=
  m.numbered (forwardedRec op n args data cable)

theorem soleMaster_iff : m.soleMaster = true ↔ m.isMaster = true ∧ m.hly.reg.standby = 0xFFFF ∧ m.hly.cur = none ∧ m.hly.waiting = [] ∧
    m.hly.repl.actions = [] := by
  simp [Machine.soleMaster, and_assoc]

/-- With no standby an action is committed as soon as it is replicated. -/
theorem isCommitted_of_no_standby (h : m.hly.reg.standby = 0xFFFF) (seq : Nat) : m.isCommitted seq = true := by
  simp [Machine.isCommitted, h]

theorem commitThen_of_no_standby (h : m.hly.reg.standby = 0xFFFF) (acts : List MasterAct) : m.commitThen acts = { m with hly := { m.hly with
    repl := { m.hly.repl with
      seq := m.hly.repl.seq + 1, acked := m.hly.repl.seq + 1
      actions := m.hly.repl.actions ++ acts.map fun a => (m.hly.repl.seq + 1, a) } } } := by
  unfold Machine.commitThen
  rw [replicate_of_no_standby h]

/-- A master with no standby carries out an action at once. -/
theorem serveN_act (hmaster : m.isMaster = true) (hstandby : m.hly.reg.standby = 0xFFFF) {seq : Nat} {a : MasterAct} {rest : List (Nat × MasterAct)}
    (hact : m.hly.repl.actions = (seq, a) :: rest) (k : Nat) :
    m.serveN (k + 1) = ({ m with hly := { m.hly with repl := { m.hly.repl with actions := rest } } }.act a).serveN k := by
  rw [Machine.serveN.eq_2, if_pos hmaster, hact]
  exact if_pos (isCommitted_of_no_standby hstandby seq)

/-- The machine as the first waiting command is taken. -/
def Machine.cmdTaken (m : Machine) (c : HlyCmdRec) (rest : List HlyCmdRec) : Machine :=
  { m with hly := { m.hly with cur := some (m.numbered c), waiting := rest, podSeq := m.hly.podSeq + 1 } }

theorem takeNext_of_waiting (hcur : m.hly.cur = none) {c : HlyCmdRec} {rest : List HlyCmdRec} (hwait : m.hly.waiting = c :: rest) :
    m.takeNext = (m.cmdTaken c rest).commitThen [.run] := by
  unfold Machine.takeNext
  rw [hcur, hwait]
  rfl

theorem serveN_takeNext (hmaster : m.isMaster = true) (hact : m.hly.repl.actions = []) (hcur : m.hly.cur = none) {c : HlyCmdRec}
    {rest : List HlyCmdRec} (hwait : m.hly.waiting = c :: rest) (k : Nat) : m.serveN (k + 1) = m.takeNext.serveN k := by
  rw [Machine.serveN.eq_2, if_pos hmaster, hact]
  exact if_pos (by simp [hcur, hwait])

/-- At a sole master a member's command is executed, and then what it commits is carried out. -/
theorem podCmd_forwarded (h : m.soleMaster = true) (op : Nat) (n : NodeId) (args : List Word) (d data : List Byte) (cable : Option CableRead) :
    ∃ k, m.podCmd op (.forwarded n args d) data cable =
      ((m.begun (forwardedRec op n args d cable)).runCmd (m.turnRec op n args d cable)).serveN (k + 1) := by
  obtain ⟨hmaster, hstandby, hcur, hwait, hact⟩ := soleMaster_iff.mp h
  let c := forwardedRec op n args d cable
  let a : Machine := { m with hly := { m.hly with waiting := m.hly.waiting ++ [c] } }
  have hqueue : a.hly.waiting = [c] := by simp [a, hwait]
  have hissued : m.podCmd op (.forwarded n args d) data cable = a.serve := by
    unfold Machine.podCmd
    rw [takeCmd_forwarded hmaster]
    exact if_pos hmaster
  have hnext : a.takeNext = m.turnDue c := by
    rw [takeNext_of_waiting (m := a) hcur hqueue, commitThen_of_no_standby (m := a.cmdTaken c []) hstandby]
    simp [a, Machine.cmdTaken, Machine.turnDue, Machine.begun, Machine.numbered, hact]
  obtain ⟨k, hk⟩ : ∃ k, a.hly.repl.actions.length + (a.hly.waiting.length + 1) * (a.slc.recs.length + 16) = k + 1 + 1 + 1 :=
    ⟨2 * a.slc.recs.length + 29, by rw [show a.hly.repl.actions = [] from hact, hqueue]; simp; omega⟩
  refine ⟨k, hissued.trans ?_⟩
  unfold Machine.serve
  rw [hk, serveN_takeNext (m := a) hmaster hact hcur hqueue, hnext, serveN_act (m := m.turnDue c) hmaster hstandby rfl]
  rfl

/-- A command of a member that ends is answered; nothing else changes. -/
theorem endWith_forwarded {c : HlyCmdRec} {n : NodeId} (hcur : m.hly.cur = some c) (hsrc : c.src = .node n) (status : Nat) :
    m.endWith status = { m with hly := { m.hly with cur := none }, out := m.out ++ [Out.mgmt n (.reply c.opcode status [] [])] } := by
  unfold Machine.endWith Machine.finishCmd
  rw [hcur]
  dsimp only
  rw [hsrc]
  rfl

end

/-! ### Arguments that no command has -/

section
variable {m : Machine} {op : Nat} {n : NodeId} {args : List Word} {data : List Byte} {cable : Option CableRead}

/-- No command has a fourteenth argument word. -/
theorem only_eq_false_of_last (h : (argRec args).arg 13 ≠ 0) {masks : List Word} (hlen : masks.length ≤ 13) : (argRec args).only masks = false := by
  refine List.all_eq_false.mpr ⟨13, List.mem_range.mpr (by decide), ?_⟩
  rw [List.getD_eq_default _ _ hlen, show ~~~(0 : Word) = BitVec.allOnes 32 by decide, BitVec.and_allOnes]
  simpa using h

theorem turnRec_only (masks : List Word) : (m.turnRec op n args data cable).only masks = (argRec args).only masks := rfl

/-- A member's command that ends as soon as it is executed is answered with its status. -/
theorem podCmd_ends (h : m.soleMaster = true) {status : Nat} (d : List Byte)
    (hrun : (m.begun (forwardedRec op n args data cable)).runCmd (m.turnRec op n args data cable) =
      (m.begun (forwardedRec op n args data cable)).endWith status) :
    m.answered (m.podCmd op (.forwarded n args data) d cable) n op status [] [] := by
  obtain ⟨k, hk⟩ := podCmd_forwarded h op n args data d cable
  rw [hk, hrun, endWith_forwarded (n := n) rfl rfl]
  exact congrArg Machine.out (serveN_idle (m := { m.begun (forwardedRec op n args data cable) with
    hly := { (m.begun (forwardedRec op n args data cable)).hly with cur := none }, out := _ }) rfl rfl (k + 1))

/-- With a bit that no command has each of the eight answers BAD_ARG (04 R138). -/
theorem runCmd_badArg (hop : op = 2 ∨ op = 3 ∨ op = 4 ∨ op = 5 ∨ op = 7 ∨ op = 8 ∨ op = 9 ∨ op = 10) (hlast : (argRec args).arg 13 ≠ 0) :
    (m.begun (forwardedRec op n args data cable)).runCmd (m.turnRec op n args data cable) =
      (m.begun (forwardedRec op n args data cable)).endWith stBadArg := by
  have hbad {masks : List Word} (hlen : masks.length ≤ 13) : (!((m.turnRec op n args data cable).only masks)) = true := by
    rw [turnRec_only, only_eq_false_of_last hlast hlen]
    rfl
  rcases hop with rfl | rfl | rfl | rfl | rfl | rfl | rfl | rfl
  · exact if_pos (.inl (hbad (by decide)))
  · exact if_pos (hbad (by decide))
  · exact if_pos (hbad (by decide))
  · exact if_pos (.inl (hbad (by decide)))
  · exact if_pos (.inl (hbad (by decide)))
  · exact if_pos (hbad (by decide))
  · exact if_pos (.inl (hbad (by decide)))
  · exact if_pos (hbad (by decide))

/-- A change collected for the next epoch, with what follows its switch, leaves nothing more to carry out. -/
theorem nextChange_of_master (h : m.isMaster = true) (c : Change) (after : List AfterSwitch) : m.nextChange c after = m.modWork fun w =>
    { w with pendingAfter := w.pendingAfter ++ after, changes := w.changes ++ [c], phase := if w.phase = .idle then .collecting else w.phase } :=
  submit_of_master (m := m.modWork fun w => { w with pendingAfter := w.pendingAfter ++ after }) h c

theorem podCmd_collects (h : m.soleMaster = true) (d : List Byte) {c : Change} {after : List AfterSwitch}
    (hrun : (m.begun (forwardedRec op n args data cable)).runCmd (m.turnRec op n args data cable) =
      (m.begun (forwardedRec op n args data cable)).nextChange c after) :
    m.podCmd op (.forwarded n args data) d cable = (m.begun (forwardedRec op n args data cable)).modWork fun w => { w with
      pendingAfter := w.pendingAfter ++ after, changes := w.changes ++ [c], phase := if w.phase = .idle then .collecting else w.phase } := by
  obtain ⟨k, hk⟩ := podCmd_forwarded h op n args data d cable
  have hmaster : (m.begun (forwardedRec op n args data cable)).isMaster = true := (soleMaster_iff.mp h).1
  rw [hk, hrun, nextChange_of_master hmaster, serveN_idle rfl rfl]

end

/-! ### What each command does when its checks pass -/

section
variable {m : Machine} {c : HlyCmdRec} {l : LinkRec}

theorem cmdPortDisable_of_link (honly : c.only [npMask] = true) (hlink : m.linkOf (c.np 0) = some l) : m.cmdPortDisable c =
    m.nextChange (.linkDisabled (c.np 0).1 (c.np 0).2 true) [.portDown (c.np 0).1 (c.np 0).2, .finishEpoch] :=
  if_neg (by simp [honly, hlink])

theorem cmdPortEnable_of_link (honly : c.only [npMask] = true) (hlink : m.linkOf (c.np 0) = some l) (hfull : m.fullAuthority = true)
    (hother : (c.np 0).1 ≠ m.node) : m.cmdPortEnable c =
    ((m.submit (.linkDisabled (c.np 0).1 (c.np 0).2 false)).tell (c.np 0).1 (.portOrder 0x03 (c.np 0).2)).endWith stOk := by
  have hnode : (c.np 0).1 ≠ (m.submit (.linkDisabled (c.np 0).1 (c.np 0).2 false)).node := by
    rw [node_of_sansWork (submit_sansWork m _)]
    exact hother
  unfold Machine.cmdPortEnable
  rw [if_neg (by rw [honly]; decide), hlink]
  dsimp only
  rw [if_neg (by rw [hfull]; decide), if_neg hnode]

theorem cmdPortFullTrain_of_link (honly : c.only [npMask] = true) (hlink : m.linkOf (c.np 0) = some l) (hfull : m.fullAuthority = true) :
    m.cmdPortFullTrain c =
      m.nextChange (.linkOut l.node l.port) [.fullTrain l.node l.port l.farNode l.farPort c.cable, .finishEpoch] := by
  unfold Machine.cmdPortFullTrain
  rw [if_neg (by rw [honly]; decide), hlink]
  exact if_neg (by rw [hfull]; decide)

theorem cmdPortTestRetrain_of_link (honly : c.only [npMask] = true) (hlink : m.linkOf (c.np 0) = some l) (hother : (c.np 0).1 ≠ m.node) :
    m.cmdPortTestRetrain c = (m.tell (c.np 0).1 (.portOrder 0x05 (c.np 0).2)).endWith stOk := by
  unfold Machine.cmdPortTestRetrain
  rw [if_neg (by rw [honly, hlink]; simp)]
  exact congrArg (Machine.endWith · stOk) (if_neg hother)

theorem cmdPackageRestore_of_drained {r : NodeRec} (honly : c.only [0xFFFF] = true)
    (hrec : m.nodeRec (BitVec.ofNat 16 (bits (c.arg 0) 0 16)) = some r) (hfull : m.fullAuthority = true) (hstate : r.state = 2) :
    m.cmdPackageRestore c = m.nextChange (.nodeState (BitVec.ofNat 16 (bits (c.arg 0) 0 16)) 0) [.finishEpoch] := by
  unfold Machine.cmdPackageRestore
  dsimp only
  rw [if_neg (by rw [honly]; decide), hrec]
  dsimp only
  rw [if_neg (by rw [hfull]; decide), if_neg (not_not.mpr hstate)]

end

/-! ### The commands at a sole master -/

section
variable {n : NodeId} {args : List Word} {data : List Byte} {cb : CableRead} {l : LinkRec} {s : State}

theorem portDisable_collects (h : s.m.soleMaster = true) (honly : (argRec args).only [npMask] = true)
    (hlink : s.m.linkOf ((argRec args).np 0) = some l) :
    Completes (.portDisable (.forwarded n args data)) s fun m => m.hly.work.changes = s.m.hly.work.changes ++
        [Change.linkDisabled ((argRec args).np 0).1 ((argRec args).np 0).2 true] ∧ m.hly.work.pendingAfter = s.m.hly.work.pendingAfter ++
        [AfterSwitch.portDown ((argRec args).np 0).1 ((argRec args).np 0).2, .finishEpoch] ∧ m.out = s.m.out := by
  have hrun := cmdPortDisable_of_link (m := s.m.begun (forwardedRec 0x02 n args data none)) (c := s.m.turnRec 0x02 n args data none)
    honly hlink
  refine .of_done rfl ?_
  dsimp only
  rw [podCmd_collects (op := 0x02) (n := n) (args := args) (data := data) (cable := none) h [] hrun]
  exact ⟨rfl, rfl, rfl⟩

theorem portFullTrain_collects (h : s.m.soleMaster = true) (hfull : s.m.fullAuthority = true) (honly : (argRec args).only [npMask] = true)
    (hlink : s.m.linkOf ((argRec args).np 0) = some l) : Completes (.portFullTrain (.forwarded n args data) cb) s fun m =>
      m.hly.work.changes = s.m.hly.work.changes ++ [Change.linkOut l.node l.port] ∧ m.hly.work.pendingAfter = s.m.hly.work.pendingAfter ++
        [AfterSwitch.fullTrain l.node l.port l.farNode l.farPort (some cb), .finishEpoch] ∧ m.shr = s.m.shr := by
  have hrun := cmdPortFullTrain_of_link (m := s.m.begun (forwardedRec 0x04 n args data (some cb))) (c := s.m.turnRec 0x04 n args data (some cb))
    honly hlink hfull
  refine .of_done rfl ?_
  dsimp only
  rw [podCmd_collects (op := 0x04) (n := n) (args := args) (data := data) (cable := some cb) h [] hrun]
  exact ⟨rfl, rfl, rfl⟩

theorem packageRestore_collects {r : NodeRec} (h : s.m.soleMaster = true) (honly : (argRec args).only [0xFFFF] = true)
    (hrec : s.m.nodeRec (BitVec.ofNat 16 (bits ((argRec args).arg 0) 0 16)) = some r) (hfull : s.m.fullAuthority = true)
    (hstate : r.state = 2) : Completes (.packageRestore (.forwarded n args data)) s fun m =>
      m.hly.work.changes = s.m.hly.work.changes ++ [Change.nodeState (BitVec.ofNat 16 (bits ((argRec args).arg 0) 0 16)) 0] ∧
      m.hly.work.pendingAfter = s.m.hly.work.pendingAfter ++ [AfterSwitch.finishEpoch] ∧ m.out = s.m.out := by
  have hrun := cmdPackageRestore_of_drained (m := s.m.begun (forwardedRec 0x0A n args data none)) (c := s.m.turnRec 0x0A n args data none)
    honly hrec hfull hstate
  refine .of_done rfl ?_
  rw [podCmd_collects (op := 0x0A) (n := n) (args := args) (data := data) (cable := none) h [] hrun]
  exact ⟨rfl, rfl, rfl⟩

/-- The order to the port's package and the answer go out, in that order. -/
theorem portEnable_orders (h : s.m.soleMaster = true) (hfull : s.m.fullAuthority = true) (honly : (argRec args).only [npMask] = true)
    (hlink : s.m.linkOf ((argRec args).np 0) = some l) (hother : ((argRec args).np 0).1 ≠ s.m.node) :
    Completes (.portEnable (.forwarded n args data) cb) s fun m =>
      m.hly.work.changes = s.m.hly.work.changes ++ [Change.linkDisabled ((argRec args).np 0).1 ((argRec args).np 0).2 false] ∧
      m.out = s.m.out ++ [Out.mgmt ((argRec args).np 0).1 (.portOrder 0x03 ((argRec args).np 0).2), .mgmt n (.reply 0x03 0 [] [])] := by
  obtain ⟨k, hk⟩ := podCmd_forwarded h 0x03 n args data [] (some cb)
  let begun := s.m.begun (forwardedRec 0x03 n args data (some cb))
  have hmaster : begun.isMaster = true := (soleMaster_iff.mp h).1
  have hrun : begun.runCmd (s.m.turnRec 0x03 n args data (some cb)) = _ :=
    cmdPortEnable_of_link (m := begun) (c := s.m.turnRec 0x03 n args data (some cb)) honly hlink hfull hother
  refine .of_done rfl ?_
  dsimp only
  rw [hk, hrun, submit_of_master hmaster, endWith_forwarded (n := n) rfl rfl, serveN_idle rfl rfl]
  exact ⟨rfl, List.append_assoc _ _ _⟩

theorem portTestRetrain_orders (h : s.m.soleMaster = true) (honly : (argRec args).only [npMask] = true)
    (hlink : s.m.linkOf ((argRec args).np 0) = some l) (hother : ((argRec args).np 0).1 ≠ s.m.node) :
    Completes (.portTestRetrain (.forwarded n args data)) s fun m => m.hly.work = s.m.hly.work ∧
      m.out = s.m.out ++ [Out.mgmt ((argRec args).np 0).1 (.portOrder 0x05 ((argRec args).np 0).2), .mgmt n (.reply 0x05 0 [] [])] := by
  obtain ⟨k, hk⟩ := podCmd_forwarded h 0x05 n args data [] none
  let begun := s.m.begun (forwardedRec 0x05 n args data none)
  have hrun : begun.runCmd (s.m.turnRec 0x05 n args data none) = _ :=
    cmdPortTestRetrain_of_link (m := begun) (c := s.m.turnRec 0x05 n args data none) honly hlink hother
  refine .of_done rfl ?_
  dsimp only
  rw [hk, hrun, endWith_forwarded (n := n) rfl rfl, serveN_idle rfl rfl]
  exact ⟨rfl, List.append_assoc _ _ _⟩

end

end Sys2Proof.Machine

namespace Sys2Proof.Machine

/-! ### The master's orders to a port -/

section
variable {m : Machine}

/-- The frames that a port held go to their die's detour queue: of the ports that one alone changes (03 R96). -/
theorem handover_port (m : Machine) (p q : Nat) : (m.handover p).port q = if q = p then resetLink (m.port p) else m.port q := by
  unfold Machine.handover
  dsimp only
  have hdetour : Kept [.fwd, .ttl] (m.modPort p resetLink) ((m.modPort p resetLink).toDetour (dieOfPort p) (heldFrames (m.port p))) :=
    toDetour_kept .refl _ _ (by decide) (by decide)
  rw [hdetour.port (by decide), modPort_port]

theorem handover_pins (m : Machine) (p : Nat) : (m.handover p).pins = m.pins :=
  (handover_kept (W := [.shr, .fwd, .ttl]) .refl p (by decide) (by decide) (by decide)).pins (by decide)

/-- What a port keeps as it enters DETECT with the class that its cable allows. -/
theorem enterDetect_keeps {p cls : Nat} {c : CableRead} (h : cableClass m.pins (m.port p).stat c = .inl cls) : ∃ r : PortRec,
    (∀ q, (m.enterDetect p c).port q = if q = p then r else m.port q) ∧ r.stat.state = .detect ∧ r.train.ownClass = cls ∧
    r.train.attempts = (m.port p).train.attempts ∧ r.train.disabled = (m.port p).train.disabled ∧ r.tx = (m.port p).tx ∧ r.rx = (m.port p).rx := by
  unfold Machine.enterDetect
  rw [h]
  exact ⟨_, fun q => (aloneRoot_port _ _ q).trans (modPort_port m p _ q), rfl, rfl, rfl, rfl, rfl, rfl⟩

/-- A port disabled by command: DOWN with reason 0x0D, what it held gone (04 R137). -/
theorem disablePort_port (m : Machine) (p q : Nat) : (m.disablePort p).port q = if q = p then
    { resetLink (m.port p) with train := { (m.port p).train with disabled := true }, stat := idleStat (m.port p).stat .down 0x0D }
    else m.port q := by
  unfold Machine.disablePort
  dsimp only
  rw [portDown_port]
  by_cases hq : q = p
  · simp [hq, handover_port, resetLink]
  · simp [hq, handover_port]

theorem startRetrain_port {p : Nat} (h : (m.port p).stat.state = .active) (reason q : Nat) : (m.startRetrain p reason).port q = if q = p then
    { m.port p with stat := { (m.port p).stat with state := .retrain }, rt := { own := some reason, leads := false } } else m.port q := by
  let a := m.modPort p fun r => { r with stat := { r.stat with state := .retrain }, rt := { own := some reason, leads := false } }
  have hsent : Kept [.out] a (a.sendRetrainReq p reason) := sendRetrainReq_kept .refl p reason (by decide)
  exact (congrArg (Machine.port · q) (if_pos h)).trans ((hsent.port (by decide) q).trans (modPort_port m p _ q))

end

section
variable {p : Port} {cb : CableRead} {cls : Nat} {s : State}

theorem portDisable_order (h : (s.m.port p).stat.assigned = true) : Completes (.portDisable (.order p)) s fun m =>
      (m.port p).stat.state = .down ∧ (m.port p).stat.reason = 0x0D ∧ (m.port p).train.disabled = true ∧ s.m.otherPorts m p := by
  refine .of_done (congrArg (done s) (if_pos h)) ?_
  obtain ⟨hport, hothers⟩ := port_and_otherPorts (disablePort_port s.m p)
  rw [hport]
  exact ⟨rfl, rfl, rfl, hothers⟩

theorem portEnable_order (h : (s.m.port p).stat.assigned = true) (hdown : (s.m.port p).stat.state = .down)
    (hcls : cableClass s.m.pins (s.m.port p).stat cb = .inl cls) : Completes (.portEnable (.order p) cb) s fun m =>
      (m.port p).stat.state = .detect ∧ (m.port p).train.disabled = false ∧ (m.port p).train.attempts = 0 ∧
      (m.port p).train.ownClass = cls ∧ s.m.otherPorts m p := by
  let a := s.m.modPort p fun r => { r with train := { r.train with disabled := false, attempts := 0 } }
  have hfreed : a.port p = { s.m.port p with train := { (s.m.port p).train with disabled := false, attempts := 0 } } :=
    (modPort_port s.m p _ p).trans (if_pos rfl)
  obtain ⟨r, hall, hdetect, hown, hattempts, hdisabled, -, -⟩ := enterDetect_keeps (m := a) (by rw [hfreed]; exact hcls)
  have hports (q : Nat) : (a.enterDetect p cb).floodOwn.port q = if q = p then r else s.m.port q := by
    rw [floodOwn_port, hall]
    by_cases hq : q = p
    · rw [if_pos hq, if_pos hq]
    · rw [if_neg hq, if_neg hq]
      exact (modPort_port s.m p _ q).trans (if_neg hq)
  obtain ⟨hport, hothers⟩ := port_and_otherPorts hports
  refine .of_done (congrArg (done s) ((if_pos h).trans (if_pos (.inl hdown)))) ?_
  rw [hport]
  exact ⟨hdetect, hdisabled.trans (congrArg (·.train.disabled) hfreed), hattempts.trans (congrArg (·.train.attempts) hfreed), hown, hothers⟩

theorem portFullTrain_order (h : (s.m.port p).stat.state = .active ∨ (s.m.port p).stat.state = .retrain)
    (hcls : cableClass s.m.pins (s.m.port p).stat cb = .inl cls) : Completes (.portFullTrain (.order p) cb) s fun m =>
      (m.port p).stat.state = .detect ∧ (m.port p).train.ownClass = cls ∧ (m.port p).tx = .reset ∧ (m.port p).rx = .reset ∧
      s.m.otherPorts m p := by
  have hreset : (s.m.handover p).port p = resetLink (s.m.port p) := (handover_port s.m p p).trans (if_pos rfl)
  obtain ⟨r, hall, hdetect, hown, -, -, htx, hrx⟩ := enterDetect_keeps (m := s.m.handover p) (p := p) (cls := cls) (c := cb)
    (by rw [hreset, handover_pins]; exact hcls)
  have hports (q : Nat) : ((s.m.handover p).enterDetect p cb).floodOwn.port q = if q = p then r else s.m.port q := by
    rw [floodOwn_port, hall, handover_port]
    by_cases hq : q = p
    · rw [if_pos hq, if_pos hq]
    · rw [if_neg hq, if_neg hq, if_neg hq]
  obtain ⟨hport, hothers⟩ := port_and_otherPorts hports
  refine .of_done (congrArg (done s) (if_pos h)) ?_
  rw [hport]
  exact ⟨hdetect, hown, htx.trans (congrArg (·.tx) hreset), hrx.trans (congrArg (·.rx) hreset), hothers⟩

theorem portTestRetrain_order (h : (s.m.port p).stat.state = .active) : Completes (.portTestRetrain (.order p)) s fun m =>
      (m.port p).stat.state = .retrain ∧ (m.port p).rt = { own := some 0x4, leads := false } ∧ s.m.otherPorts m p := by
  obtain ⟨hport, hothers⟩ := port_and_otherPorts (startRetrain_port h 0x4)
  refine .of_done rfl ?_
  rw [hport]
  exact ⟨rfl, rfl, hothers⟩

end

/-! ### MASTER_HANDOVER -/

/-- The machine as a change of its state has been replicated with no standby, and its action is due (04 R116). -/
def Machine.committedAlone (m : Machine) : Machine := { m with hly := { m.hly with
  repl := { m.hly.repl with seq := m.hly.repl.seq + 1, acked := m.hly.repl.seq + 1, actions := [] } } }

/-- A master with no standby and no other action carries out at once what it commits. -/
theorem serveN_commitThen {m : Machine} (hmaster : m.isMaster = true) (hstandby : m.hly.reg.standby = 0xFFFF) (hact : m.hly.repl.actions = [])
    (a : MasterAct) (k : Nat) : (m.commitThen [a]).serveN (k + 1) = (m.committedAlone.act a).serveN k := by
  rw [commitThen_of_no_standby hstandby, hact]
  refine serveN_act (seq := m.hly.repl.seq + 1) (rest := []) ?_ ?_ ?_ k
  · exact hmaster
  · exact hstandby
  · rfl

section
variable {m : Machine} {c : HlyCmdRec} {x : NodeId}

theorem cmdMasterHandover_of_candidate (honly : c.only [0xFFFF] = true) (hx : (BitVec.ofNat 16 (bits (c.arg 0) 0 16) : NodeId) = x)
    (hknown : m.known x = true) (hform : m.pins.form = false) (hfull : m.fullAuthority = true)
    (hcand : (m.candidates.any fun r => r.node == x) = true) (hother : x ≠ m.node) : m.cmdMasterHandover c = m.commitThen [.handover x] := by
  unfold Machine.cmdMasterHandover
  dsimp only
  rw [hx, if_neg (by rw [honly, hknown]; decide), if_neg (by rw [hform]; decide), if_neg (by rw [hfull]; decide), if_neg (by rw [hcand]; decide),
    if_neg hother]

/-- The committed handover: the command answered, the state handed over, and this package standby (04 R137). -/
theorem giveMaster_effect {n : NodeId} (hcur : m.hly.cur = some c) (hsrc : c.src = .node n) (x : NodeId) :
    (m.giveMaster x).hly.reg = { m.hly.reg with role := .standby, master := x, standby := m.node } ∧ (m.giveMaster x).time.root = false ∧
    m.out ++ [Out.mgmt n (.reply c.opcode stOk [] []), .mgmt x (.handover m.replica)] <+: (m.giveMaster x).out := by
  unfold Machine.giveMaster
  rw [endWith_forwarded hcur hsrc]
  dsimp only
  generalize ha : Machine.tell { m with hly := { m.hly with cur := none }, out := m.out ++ [Out.mgmt n (.reply c.opcode stOk [] [])] } x
    (.handover m.replica) = a
  obtain ⟨fin, o, h⟩ := dropCmds_shape a
  rw [h, ← ha]
  refine ⟨rfl, rfl, ?_⟩
  exact ⟨o, by simp [Machine.modTime, Machine.modHly, Machine.tell, Machine.emit]⟩

end

section
variable {n : NodeId} {args : List Word} {data : List Byte} {s : State}

theorem serveN_of_not_master {m : Machine} (h : m.isMaster = false) (k : Nat) : m.serveN k = m := by
  cases k with
  | zero => rfl
  | succ k => rw [Machine.serveN.eq_2, if_neg (by rw [h]; decide)]

theorem masterHandover_gives (h : s.m.soleMaster = true) (honly : (argRec args).only [0xFFFF] = true) {x : NodeId}
    (hx : (BitVec.ofNat 16 (bits ((argRec args).arg 0) 0 16) : NodeId) = x) (hknown : s.m.known x = true) (hform : s.m.pins.form = false)
    (hfull : s.m.fullAuthority = true) (hcand : (s.m.candidates.any fun r => r.node == x) = true) (hother : x ≠ s.m.node) :
    Completes (.masterHandover (.forwarded n args data)) s fun m =>
      m.hly.reg = { s.m.hly.reg with role := .standby, master := x, standby := s.m.node } ∧ m.time.root = false ∧
      .mgmt n (.reply 0x07 0 [] []) ∈ m.out ∧ ∃ r : Replica, .mgmt x (.handover r) ∈ m.out ∧ r.gen = s.m.hly.reg.topoGen ∧ r.slc = s.m.slc ∧
        r.resv = s.m.tkp.resv ∧ r.claims = s.m.tkp.claims := by
  obtain ⟨hmaster, hstandby, -, -, -⟩ := soleMaster_iff.mp h
  obtain ⟨k, hk⟩ := podCmd_forwarded h 0x07 n args data [] none
  let begun := s.m.begun (forwardedRec 0x07 n args data none)
  have hrun : begun.runCmd (s.m.turnRec 0x07 n args data none) = begun.commitThen [.handover x] :=
    cmdMasterHandover_of_candidate (m := begun) (c := s.m.turnRec 0x07 n args data none) honly hx hknown hform hfull hcand hother
  let given := begun.committedAlone
  have hact : (begun.commitThen [.handover x]).serveN (k + 1) = (given.giveMaster x).serveN k :=
    serveN_commitThen (m := begun) hmaster hstandby rfl _ k
  obtain ⟨hreg, hroot, hout⟩ := giveMaster_effect (m := given) (n := n) (c := s.m.turnRec 0x07 n args data none) rfl rfl x
  have hstops : (given.giveMaster x).serveN k = given.giveMaster x := serveN_of_not_master (by simp [Machine.isMaster, hreg]) k
  refine .of_done rfl ?_
  dsimp only
  rw [hk, hrun, hact, hstops]
  refine ⟨hreg, hroot, hout.subset (List.mem_append_right _ List.mem_cons_self), given.replica,
    hout.subset (List.mem_append_right _ (List.mem_cons_of_mem _ (List.mem_singleton_self _))), rfl, rfl, rfl, rfl⟩

end

/-! ### The target of a handover, and a yielding master's state -/

section
variable (m : Machine)

/-- Going on from a replica writes the epoch's work and what it plans; of the rest only the command in progress may be its placeholder. -/
theorem resume_sansWork (old : NodeId) (r : Replica) :
    ∃ cur, (m.resume old r).sansWork = Machine.sansWork { m with hly := { m.hly with cur := cur } } := by
  have hresumed (p : Prop) [Decidable p] (c : Option HlyCmdRec) : ∃ cur,
      (if p then { m with hly := { m.hly with cur := c } } else m) = { m with hly := { m.hly with cur := cur } } := by
    split
    · exact ⟨_, rfl⟩
    · exact ⟨m.hly.cur, rfl⟩
  obtain ⟨cur, hcur⟩ := hresumed (unfinished r = true) (some (resumedCmd old r))
  refine ⟨cur, ?_⟩
  unfold Machine.resume
  rw [hcur]
  generalize ({ m with hly := { m.hly with cur := cur } } : Machine) = a
  have haborts (l : List AbortRec) : (l.foldl (fun m a => if a.stage = 2 then m
      else (m.sliceMembers a.tag).foldl (fun m n => m.tell n (.flowAbort a.tag a.stream ((a.gen + 1) % 256))) m) a).sansWork = a.sansWork :=
    sansWork_foldl a (fun b x => by
      split
      · rfl
      · exact sansWork_foldl b (fun _ _ => tell_sansWork _ _ _) _) l
  extract_lets +onlyGivenNames resumed flooded
  have hflooded : flooded.sansWork = a.sansWork := haborts _
  clear_value flooded
  split
  next e t _ =>
    dsimp only
    rw [tellAll_eq]
    split
    · exact hflooded
    · exact hflooded
  · extract_lets +onlyGivenNames dropped planner freed placed
    have hdropped : dropped.sansWork = flooded.sansWork := (dropPrepared_sansWork _ _).trans (tellAll_sansWork _ _ _)
    have hplaced : placed.sansWork = freed.sansWork := sansWork_foldl freed (fun b x => by
      refine (pushJob_sansWork _ _).trans ?_
      split
      · rfl
      · rfl) _
    have hfreed : freed.sansWork = dropped.sansWork := rfl
    rw [replicate_sansWork]
    exact (submit_sansWork _ _).trans (hplaced.trans (hfreed.trans (hdropped.trans hflooded)))

end

section
variable {n : NodeId} {r : Replica} {s : State}

/-- The target of a handover is master on the state that it is handed, with the old master as its standby (04 R137). -/
theorem masterHandover_taken (hmember : s.m.isMaster = false) (hold : n = s.m.hly.reg.master) (hother : n ≠ s.m.node)
    (hstate : s.m.hly.reg.state = .run) : Completes (.masterHandover (.handover n r)) s fun m =>
      m.hly.reg.state = .run ∧ m.hly.reg.master = s.m.node ∧ m.hly.reg.standby = n ∧ m.hly.reg.quorum = s.m.hly.reg.quorum ∧
      m.time.root = true ∧ m.tkp.resv = r.resv := by
  have hcrown := crowned_becomeMaster (s.m.adoptReplica r)
  have hexec : exec (.masterHandover (.handover n r)) s = done s (((((s.m.adoptReplica r).becomeMaster.modHly fun h => { h with
      standby := n, quorum := s.m.hly.reg.quorum
      role := if s.m.hly.reg.quorum then .master else .provisional }).setRoles.replicate).resume n r).serve) :=
    congrArg (done s) ((if_neg (by rw [hmember]; decide)).trans (if_pos ⟨hold, hstate, hother⟩))
  generalize (s.m.adoptReplica r).becomeMaster = crowned at hcrown hexec
  generalize hnamed : (crowned.modHly fun h => { h with
    standby := n, quorum := s.m.hly.reg.quorum, role := if s.m.hly.reg.quorum then .master else .provisional }) = named at hexec
  have hroles : named.setRoles.replicate.sansWork = named.sansWork := (replicate_sansWork _).trans (setRoles_sansWork named)
  obtain ⟨cur, hresume⟩ := resume_sansWork named.setRoles.replicate n r
  have hkept : ((named.setRoles.replicate).resume n r).sansWork = Machine.sansWork { named with hly := { named.hly with cur := cur } } :=
    hresume.trans (congrArg (fun a : Machine => { a with hly := { a.hly with cur := cur } }) hroles)
  generalize (named.setRoles.replicate).resume n r = resumed at hexec hkept
  have hidle : resumed.serve = resumed :=
    serve_idle ((congrArg (·.hly.repl.actions) hkept).trans (hnamed ▸ hcrown.actions))
      ((congrArg (·.hly.waiting) hkept).trans (hnamed ▸ hcrown.waiting))
  refine .of_done hexec ?_
  rw [hidle]
  subst hnamed
  exact ⟨(congrArg (·.hly.reg.state) hkept).trans hcrown.state, (congrArg (·.hly.reg.master) hkept).trans hcrown.master,
    congrArg (·.hly.reg.standby) hkept, congrArg (·.hly.reg.quorum) hkept, (congrArg (·.time.root) hkept).trans hcrown.root,
    (congrArg (·.tkp.resv) hkept).trans hcrown.resv⟩

theorem tget_foldl_tset {α : Type} [DecidableEq α] (d : α) (f : Nat → α) (l : List Nat) (t : Table α) (j : Nat) :
    tget d (l.foldl (fun t k => tset d t k (f k)) t) j = if j ∈ l then f j else tget d t j := by
  induction l generalizing t with
  | nil => rfl
  | cons k l ih =>
    rw [List.foldl_cons, ih, tget_tset]
    by_cases hj : j ∈ l
    · rw [if_pos hj, if_pos (List.mem_cons_of_mem k hj)]
    · by_cases hk : j = k
      · rw [if_neg hj, if_pos hk, if_pos (hk ▸ List.mem_cons_self), hk]
      · rw [if_neg hj, if_neg hk, if_neg (List.not_mem_cons_of_ne_of_not_mem hk hj)]

theorem replicate_slc (m : Machine) : m.replicate.slc = m.slc :=
  (replicate_kept (W := [.hly, .out]) .refl (by decide) (by decide)).slc (by decide)

theorem replicate_waiting (m : Machine) : m.replicate.hly.waiting = m.hly.waiting := by
  unfold Machine.replicate
  dsimp only
  split <;> rfl

/-- A yielding master's slices are added where this master has none of the tag (04 R115, R118). -/
theorem mergeReplica_sliceAt (m : Machine) (r : Replica) (t : Nat) : (m.mergeReplica r).sliceAt t =
    if (m.sliceAt t).state = .free ∧ t ∈ tkeys r.slc.recs then tget SliceRec.reset r.slc.recs t else m.sliceAt t := by
  unfold Machine.mergeReplica Machine.sliceAt
  dsimp only
  rw [replicate_slc, tget_foldl_tset SliceRec.reset (fun k => tget SliceRec.reset r.slc.recs k)]
  refine if_congr ?_ rfl rfl
  rw [List.mem_filter, beq_iff_eq, and_comm]

theorem masterHandover_merged (hmaster : s.m.isMaster = true) (hact : s.m.hly.repl.actions = []) (hwait : s.m.hly.waiting = []) :
    Completes (.masterHandover (.handover n r)) s fun m => m.hly.reg = s.m.hly.reg ∧ ∀ t, m.sliceAt t =
      if (s.m.sliceAt t).state = .free ∧ t ∈ tkeys r.slc.recs then tget SliceRec.reset r.slc.recs t else s.m.sliceAt t := by
  have hactions : (s.m.mergeReplica r).hly.repl.actions = [] := (replicate_actions _).trans hact
  have hwaiting : (s.m.mergeReplica r).hly.waiting = [] := (replicate_waiting _).trans hwait
  refine .of_done (congrArg (done s) (if_pos hmaster)) ?_
  rw [serve_idle hactions hwaiting]
  exact ⟨replicate_reg _, mergeReplica_sliceAt s.m r⟩

end

/-! ### MASTER_CONFIRM and PACKAGE_DRAIN -/

/-- A list of changes collected one by one. -/
theorem foldl_submit_of_master {α : Type} (f : α → Change) (l : List α) {m : Machine} (h : m.isMaster = true) :
    ∃ phase, l.foldl (fun m e => m.submit (f e)) m = m.modWork fun w => { w with changes := w.changes ++ l.map f, phase := phase } := by
  induction l generalizing m with
  | nil => exact ⟨m.hly.work.phase, by simp [Machine.modWork]⟩
  | cons x l ih =>
    obtain ⟨phase, hrest⟩ := ih (m := m.submit (f x)) ((isMaster_of_sansWork (submit_sansWork m _)).trans h)
    refine ⟨phase, hrest.trans ?_⟩
    rw [submit_of_master h]
    simp [Machine.modWork]

/-- With full authority the ports in hold-down join: a change each, and none is held any more (04 R117). -/
theorem releaseHeld_of_authority {m : Machine} (h : m.fullAuthority = true) (hmaster : m.isMaster = true) :
    ∃ phase, m.releaseHeld = (m.modWork fun w => { w with
      changes := w.changes ++ m.hly.db.masterHeld.map (fun e => Change.linkHold e.1 e.2 false), phase := phase }).modDb
        fun d => { d with masterHeld := [] } := by
  obtain ⟨phase, hfold⟩ := foldl_submit_of_master (fun e : NodeId × Nat => Change.linkHold e.1 e.2 false) m.hly.db.masterHeld hmaster
  exact ⟨phase, (if_pos h).trans (congrArg (Machine.modDb · fun d => { d with masterHeld := [] }) hfold)⟩

/-- A master with no standby answers at once the member's command whose end it commits. -/
theorem serveN_commits_answer {m : Machine} {c : HlyCmdRec} {n : NodeId} (hmaster : m.isMaster = true) (hstandby : m.hly.reg.standby = 0xFFFF)
    (hact : m.hly.repl.actions = []) (hwait : m.hly.waiting = []) (hcur : m.hly.cur = some c) (hsrc : c.src = .node n) {status : Nat} (k : Nat) :
    (m.commitThen [endAct status]).serveN (k + 1) = m.committedAlone.endWith status := by
  have hend := endWith_forwarded (m := m.committedAlone) hcur hsrc status
  rw [serveN_commitThen hmaster hstandby hact]
  refine serveN_idle (m := m.committedAlone.endWith status) ?_ ?_ k
  · rw [hend]
    rfl
  · rw [hend]
    exact hwait

section
variable {n : NodeId} {args : List Word} {data : List Byte} {s : State}

theorem masterConfirm_releases (h : s.m.soleMaster = true) (honly : (argRec args).only [] = true) :
    Completes (.masterConfirm (.forwarded n args data)) s fun m => m.hly.db = { s.m.hly.db with confirmed := true, masterHeld := [] } ∧
      m.hly.work.changes = s.m.hly.work.changes ++ (s.m.hly.db.masterHeld.map fun e => Change.linkHold e.1 e.2 false) ∧
      s.m.answered m n 0x08 0 [] [] := by
  obtain ⟨hmaster, hstandby, -, -, -⟩ := soleMaster_iff.mp h
  obtain ⟨k, hk⟩ := podCmd_forwarded h 0x08 n args data [] none
  let begun := s.m.begun (forwardedRec 0x08 n args data none)
  let confirmed := begun.modDb fun d => { d with confirmed := true }
  have hmaster' : confirmed.isMaster = true := hmaster
  have hfull : confirmed.fullAuthority = true := by
    unfold Machine.fullAuthority
    rw [hmaster']
    exact Bool.or_true _
  obtain ⟨phase, hreleased⟩ := releaseHeld_of_authority hfull hmaster'
  have hrun : begun.runCmd (s.m.turnRec 0x08 n args data none) = confirmed.releaseHeld.commitThen [endAct stOk] :=
    if_neg (by rw [turnRec_only, honly]; decide)
  have hactions : confirmed.releaseHeld.hly.repl.actions = [] := by rw [hreleased]; rfl
  have hcur : confirmed.releaseHeld.hly.cur = some (s.m.turnRec 0x08 n args data none) := by rw [hreleased]; rfl
  have hdb : confirmed.releaseHeld.hly.db = { s.m.hly.db with confirmed := true, masterHeld := [] } := by rw [hreleased]; rfl
  have hchanges : confirmed.releaseHeld.hly.work.changes =
      s.m.hly.work.changes ++ (s.m.hly.db.masterHeld.map fun e => Change.linkHold e.1 e.2 false) := by rw [hreleased]; rfl
  have hreg : confirmed.releaseHeld.hly.reg = s.m.hly.reg := by rw [hreleased]; rfl
  have hwait : confirmed.releaseHeld.hly.waiting = [] := by rw [hreleased]; rfl
  have hout : confirmed.releaseHeld.out = s.m.out := by rw [hreleased]; rfl
  refine .of_done rfl ?_
  rw [hk, hrun]
  generalize confirmed.releaseHeld = released at hactions hcur hdb hchanges hreg hwait hout ⊢
  have hheld : released.isMaster = true := by
    unfold Machine.isMaster
    rw [hreg]
    exact hmaster
  rw [serveN_commits_answer (n := n) hheld (hreg ▸ hstandby) hactions hwait hcur rfl,
    endWith_forwarded (m := released.committedAlone) (n := n) hcur rfl]
  exact ⟨hdb, hchanges, congrArg (· ++ [Out.mgmt n (.reply 0x08 stOk [] [])]) hout⟩

theorem cmdPackageDrain_of_known {m : Machine} {c : HlyCmdRec} {x : NodeId} (honly : c.only [0xFFFF] = true)
    (hx : (BitVec.ofNat 16 (bits (c.arg 0) 0 16) : NodeId) = x) (hknown : m.known x = true) :
    m.cmdPackageDrain c = (m.memberGone x 0x04).nextChange (.nodeState x 1) [.drained x, .finishEpoch] := by
  unfold Machine.cmdPackageDrain
  dsimp only
  rw [hx, if_neg (by rw [honly, hknown]; decide)]

/-- The slices of the drained package are told; the node leaves the routes in the next epoch (04 R137; 06 R206). -/
theorem packageDrain_collects (h : s.m.soleMaster = true) (honly : (argRec args).only [0xFFFF] = true) {x : NodeId}
    (hx : (BitVec.ofNat 16 (bits ((argRec args).arg 0) 0 16) : NodeId) = x) (hknown : s.m.known x = true) :
    Completes (.packageDrain (.forwarded n args data)) s fun m =>
      m.hly.work.changes = s.m.hly.work.changes ++ [Change.nodeState x 1] ∧
      m.hly.work.pendingAfter = s.m.hly.work.pendingAfter ++ [AfterSwitch.drained x, .finishEpoch] ∧ m.hly.db = s.m.hly.db := by
  obtain ⟨hmaster, -, -, -, -⟩ := soleMaster_iff.mp h
  obtain ⟨k, hk⟩ := podCmd_forwarded h 0x09 n args data [] none
  let begun := s.m.begun (forwardedRec 0x09 n args data none)
  have hrun : begun.runCmd (s.m.turnRec 0x09 n args data none) = (begun.memberGone x 0x04).nextChange (.nodeState x 1) [.drained x, .finishEpoch] :=
    cmdPackageDrain_of_known (m := begun) (c := s.m.turnRec 0x09 n args data none) honly hx hknown
  have hgone := notified_memberGone begun x 0x04
  have hmaster' : begun.isMaster = true := hmaster
  have hserved := (hgone.modWork fun w => { w with
      pendingAfter := w.pendingAfter ++ [.drained x, .finishEpoch], changes := w.changes ++ [.nodeState x 1]
      phase := if w.phase = .idle then .collecting else w.phase }).serveN rfl rfl (k + 1)
  rw [← nextChange_of_master (hgone.isMaster.trans hmaster')] at hserved
  refine .of_done rfl ?_
  rw [hk, hrun]
  generalize ((begun.memberGone x 0x04).nextChange (.nodeState x 1) [.drained x, .finishEpoch]).serveN (k + 1) = served at hserved ⊢
  exact ⟨congrArg (·.hly.work.changes) hserved, congrArg (·.hly.work.pendingAfter) hserved, congrArg (·.hly.db) hserved⟩

end

/-- Settles O23: a sole master gives a member's command its turn at once; what then waits (an answer, a handover, events) is carried out in
the same step. -/
theorem halyardCommandsAtTheMaster : Obligations.HalyardCommandsAtTheMaster := by
  unfold Obligations.HalyardCommandsAtTheMaster
  refine ⟨?badArg, ?disables, ?enables, ?trains, ?retrains, ?disableOrder, ?enableOrder, ?trainOrder, ?retrainOrder, ?gives, ?takes, ?merges,
    ?confirms, ?drains, ?restores⟩
  case badArg =>
    intro n args data cb s h hlast
    refine ⟨.of_done rfl ?_, .of_done rfl ?_, .of_done rfl ?_, .of_done rfl ?_, .of_done rfl ?_, .of_done rfl ?_, .of_done rfl ?_, .of_done rfl ?_⟩
    · exact podCmd_ends h [] (runCmd_badArg (by decide) hlast)
    · exact podCmd_ends h [] (runCmd_badArg (by decide) hlast)
    · exact podCmd_ends h [] (runCmd_badArg (by decide) hlast)
    · exact podCmd_ends h [] (runCmd_badArg (by decide) hlast)
    · exact podCmd_ends h [] (runCmd_badArg (by decide) hlast)
    · exact podCmd_ends h [] (runCmd_badArg (by decide) hlast)
    · exact podCmd_ends h [] (runCmd_badArg (by decide) hlast)
    · exact podCmd_ends h [] (runCmd_badArg (by decide) hlast)
  case disables =>
    intro n args data l s h honly hlink
    exact portDisable_collects h honly hlink
  case enables =>
    intro n args data cb l s h hfull honly hlink hother
    exact portEnable_orders h hfull honly hlink hother
  case trains =>
    intro n args data cb l s h hfull honly hlink
    exact portFullTrain_collects h hfull honly hlink
  case retrains =>
    intro n args data l s h honly hlink hother
    exact portTestRetrain_orders h honly hlink hother
  case disableOrder =>
    intro p s h
    exact portDisable_order h
  case enableOrder =>
    intro p cb cls s h hdown hcls
    exact portEnable_order h hdown hcls
  case trainOrder =>
    intro p cb cls s h hcls
    exact portFullTrain_order h hcls
  case retrainOrder =>
    intro p s h
    exact portTestRetrain_order h
  case gives =>
    intro n args data s h honly x hknown hform hfull hcand hother
    exact masterHandover_gives h honly rfl hknown hform hfull hcand hother
  case takes =>
    intro n r s hmember hold hother hstate
    exact masterHandover_taken hmember hold hother hstate
  case merges =>
    intro n r s hmaster hact hwait
    exact masterHandover_merged hmaster hact hwait
  case confirms =>
    intro n args data s h honly
    exact masterConfirm_releases h honly
  case drains =>
    intro n args data s h honly x hknown
    exact packageDrain_collects h honly rfl hknown
  case restores =>
    intro n args data r s h honly hrec hfull hstate
    exact packageRestore_collects h honly hrec hfull hstate

end Sys2Proof.Machine

/-! ## Tack: the planner's engine -/

namespace Sys2Proof.Machine

/-! ### Results of a DRYRUN -/

section
variable {m : Machine} {j : Job} {r : Result} {deadline : Bool}

theorem takeResult_hly (m : Machine) (j : Job) (r : Result) (deadline : Bool) : (m.takeResult j r deadline).1.hly = m.hly :=
  (takeResult_kept (W := [.tkp, .ttl]) .refl j r deadline (by decide) (by decide)).hly (by decide)

/-- What the planner's registers and counts show of a DRYRUN's result; its reservations are not held (05 R168, R172). -/
theorem takeResult_dryrun (hkind : j.kind = .dryrun) : ∃ fallback, (m.takeResult j r deadline).1.tkp = { m.tkp with
    busy := false, job := none, kind := .dryrun, grade := r.grade, reason := if r.grade = 4 then r.reason else m.tkp.reason
    rounds := min 65535 (j.used + 4), lastScale := r.factor, cntJobs := satAdd32 m.tkp.cntJobs 1
    cntDeadline := if deadline then satAdd32 m.tkp.cntDeadline 1 else m.tkp.cntDeadline
    cntRefused := if r.grade = 4 then satAdd32 m.tkp.cntRefused 1 else m.tkp.cntRefused, cntFallback := fallback } := by
  have hraise {p : Prop} [Decidable p] (a : Machine) (src : Nat) : (if p then a.raise src 0 else a).tkp = a.tkp := by
    split
    · exact (raise_kept (W := [.ttl]) .refl src 0 (by decide)).tkp (by decide)
    · rfl
  unfold Machine.takeResult
  dsimp only
  rw [hraise, hraise, hkind, show (JobKind.dryrun == JobKind.place) = false from rfl, Bool.and_false]
  exact ⟨_, rfl⟩

theorem finishCmd_tkp (m : Machine) (status : Nat) (res : List Word) (data : List Byte) : (m.finishCmd status res data).tkp = m.tkp :=
  (finishCmd_kept (W := [.hly, .out]) .refl status res data (by decide) (by decide)).tkp (by decide)

theorem finishCmd_actions_waiting (m : Machine) (status : Nat) (res : List Word) (data : List Byte) :
    (m.finishCmd status res data).hly.repl.actions = m.hly.repl.actions ∧ (m.finishCmd status res data).hly.waiting = m.hly.waiting := by
  unfold Machine.finishCmd
  split
  · exact ⟨rfl, rfl⟩
  · dsimp only
    split <;> exact ⟨rfl, rfl⟩

/-- A DRYRUN's result ends its command; with nothing else for the master to do the planner stays as the result left it. -/
theorem withResult_dryrun {x : Result} (hkind : j.kind = .dryrun) (hact : m.hly.repl.actions = []) (hwait : m.hly.waiting = []) :
    (Machine.withResult (m, some (j, x))).tkp = m.tkp := by
  unfold Machine.withResult Machine.resultIn
  dsimp only
  rw [hkind]
  dsimp only
  rw [serve_idle ((finishCmd_actions_waiting m stOk _ []).1.trans hact) ((finishCmd_actions_waiting m stOk _ []).2.trans hwait)]
  exact finishCmd_tkp m stOk _ []

/-- A search that its deadline cuts off without a candidate is refused for the deadline (05 R172). -/
theorem placeResult_of_none (hbest : j.best = none) : placeResult j true = refusedResult 0x06 := by
  unfold placeResult
  rw [hbest]
  rfl

theorem placeResult_grade (hbest : j.best = some r) : (placeResult j true).grade = if r.grade < 2 then 2 else r.grade := by
  unfold placeResult
  rw [hbest]
  by_cases hgrade : r.grade < 2
  · simp [hgrade]
  · simp [hgrade]

end

/-! ### Starting a job -/

section
variable {m : Machine} {j : Job} {rest : List Job}

/-- The machine as the engine has taken a job from its queue. -/
def Machine.jobStarted (m : Machine) (j : Job) (rest : List Job) : Machine :=
  { m with tkp := { m.tkp with busy := true, kind := j.kind, job := some (m.freshJob j), queue := rest } }

/-- Whether a PLACE or DRYRUN has a malformed demand, or a demand outside the one block it is for: it ends as it starts (05 R154). -/
def Machine.refusesJob (m : Machine) (j : Job) : Bool :=
  j.kind != JobKind.replan && j.req.demands.any fun d =>
    m.badDemand j.req d || ((j.req.fixed || j.reserve) && (m.blockAt j.req.ext (j.req.hint.getD (0, 0, 0))).outside d)

/-- The result of a job that ends as it starts, taken in. -/
def Machine.refusedStart (m : Machine) (j : Job) (rest : List Job) : Machine × Job × Result :=
  (m.jobStarted j rest).takeResult (m.freshJob j) (refusedResult 0x07) false

theorem startJob_of_next (hjob : m.tkp.job = none) (hnext : m.tkp.next = some (j, rest)) : m.startJob =
    if m.refusesJob j = true then ((m.refusedStart j rest).1, some (m.refusedStart j rest).2) else (m.jobStarted j rest, none) := by
  unfold Machine.startJob
  simp only [hjob, hnext]
  rfl

theorem startJob_of_empty (hjob : m.tkp.job = none) (hqueue : m.tkp.queue = []) : m.startJob = (m, none) := by
  have hnext : m.tkp.next = none := by simp [Tkp.next, hqueue]
  unfold Machine.startJob
  simp only [hjob, hnext]

theorem refusesJob_of_replan (hkind : j.kind = .replan) : m.refusesJob j = false := by
  unfold Machine.refusesJob
  rw [hkind]
  rfl

theorem refusesJob_of_good (h : ∀ d ∈ j.req.demands, m.badDemand j.req d = false ∧ (j.req.fixed = true ∨ j.reserve = true →
    (m.blockAt j.req.ext (j.req.hint.getD (0, 0, 0))).outside d = false)) : m.refusesJob j = false := by
  refine Bool.and_eq_false_imp.mpr fun _ => List.any_eq_false.mpr fun d hd => ?_
  obtain ⟨hgood, hinside⟩ := h d hd
  simpa [hgood] using hinside

theorem refusesJob_of_malformed (hkind : j.kind ≠ .replan) (h : (j.req.demands.any (·.malformed)) = true) : m.refusesJob j = true := by
  obtain ⟨d, hd, hbad⟩ := List.any_eq_true.mp h
  refine Bool.and_eq_true_iff.mpr ⟨by simpa using hkind, List.any_eq_true.mpr ⟨d, hd, ?_⟩⟩
  simp [Machine.badDemand, hbad]

theorem startJob_starts (hjob : m.tkp.job = none) (hnext : m.tkp.next = some (j, rest)) (hok : m.refusesJob j = false) :
    m.startJob = (m.jobStarted j rest, none) := by
  rw [startJob_of_next hjob hnext, hok]
  rfl

/-- The machine as the running job has been discarded: it stands first in the queue, to start over (05 R170). -/
def Machine.jobDiscarded (m : Machine) (j : Job) : Machine :=
  { m with tkp := { m.tkp with job := none, queue := m.freshJob j :: m.tkp.queue } }

theorem startJob_discards (hjob : m.tkp.job = some j) (hkind : j.kind ≠ .replan) (hwaits : m.tkp.replanWaits = true) :
    m.startJob = (m.jobDiscarded j).startJob := by
  unfold Machine.startJob
  simp only [hjob, hwaits, Bool.and_true, bne_iff_ne, ne_eq, hkind, not_false_eq_true, if_true]
  rfl

/-- A REPLAN that waits is taken before the job at the front of the queue (05 R170). -/
theorem next_takes_replan {t : Tkp} {queue : List Job} (hqueue : t.queue = j :: queue) (hkind : j.kind ≠ .replan)
    (hwaits : (queue.any fun x => x.kind == JobKind.replan) = true) :
    ∃ r left, t.next = some (r, j :: left) ∧ r.kind = .replan ∧ left.length + 1 = queue.length := by
  obtain ⟨i, hi⟩ := Option.isSome_iff_exists.mp (List.findIdx?_isSome.trans hwaits)
  obtain ⟨hlt, hreplan, -⟩ := List.findIdx?_eq_some_iff_getElem.mp hi
  refine ⟨queue[i], queue.eraseIdx i, ?_, by simpa using hreplan, by rw [List.length_eraseIdx_of_lt hlt]; omega⟩
  unfold Tkp.next
  simp [hqueue, List.findIdx?_cons, hkind, hi, hlt]

end

/-! ### The engine's three events -/

section
variable {m : Machine} {j : Job} {s : State}

theorem done_withResult {x y : Machine × Option (Job × Result)} (h : x = y) :
    done s (Machine.withResult x) = done s (Machine.withResult y) := by rw [h]

theorem plannerJobStart_starts {rest : List Job} (hjob : s.m.tkp.job = none) (hnext : s.m.tkp.next = some (j, rest))
    (hok : s.m.refusesJob j = false) : Completes .plannerJobStart s fun m =>
      m.tkp = { s.m.tkp with busy := true, kind := j.kind, job := some (s.m.freshJob j), queue := rest } :=
  .of_done (done_withResult (startJob_starts hjob hnext hok)) rfl

theorem plannerJobStart_discards (hjob : s.m.tkp.job = some j) (hkind : j.kind ≠ .replan) (hwaits : s.m.tkp.replanWaits = true) :
    Completes .plannerJobStart s fun m => (∃ r, m.tkp.job = some r ∧ r.kind = .replan) ∧ m.tkp.queue.head? = some (s.m.freshJob j) ∧
      m.tkp.busy = true ∧ m.tkp.queue.length = s.m.tkp.queue.length := by
  obtain ⟨r, left, hnext, hreplan, hlen⟩ := next_takes_replan (t := (s.m.jobDiscarded j).tkp) (j := s.m.freshJob j) rfl hkind hwaits
  have hstart : s.m.startJob = ((s.m.jobDiscarded j).jobStarted r (s.m.freshJob j :: left), none) :=
    (startJob_discards hjob hkind hwaits).trans (startJob_starts rfl hnext (refusesJob_of_replan hreplan))
  exact .of_done (done_withResult hstart) ⟨⟨_, rfl, hreplan⟩, rfl, rfl, hlen⟩

theorem plannerJobStart_refuses (hjob : s.m.tkp.job = none) (hqueue : s.m.tkp.queue = [j]) (hkind : j.kind = .dryrun)
    (hbad : (j.req.demands.any (·.malformed)) = true) (hact : s.m.hly.repl.actions = []) (hwait : s.m.hly.waiting = []) :
    Completes .plannerJobStart s fun m => m.tkp.job = none ∧ m.tkp.busy = false ∧ m.tkp.grade = 4 ∧ m.tkp.reason = 0x07 ∧
      m.tkp.cntRefused = satAdd32 s.m.tkp.cntRefused 1 ∧ m.tkp.cntJobs = satAdd32 s.m.tkp.cntJobs 1 ∧ m.tkp.held = s.m.tkp.held := by
  have hother : j.kind ≠ .replan := by
    rw [hkind]
    decide
  have hnext : s.m.tkp.next = some (j, []) := by simp [Tkp.next, hqueue, List.findIdx?_cons, hother]
  have hstart : s.m.startJob = ((s.m.refusedStart j []).1, some (s.m.refusedStart j []).2) := by
    rw [startJob_of_next hjob hnext, refusesJob_of_malformed hother hbad]
    rfl
  have hhly : (s.m.refusedStart j []).1.hly = s.m.hly := takeResult_hly _ _ _ _
  obtain ⟨fallback, htkp⟩ := takeResult_dryrun (m := s.m.jobStarted j []) (j := s.m.freshJob j) (r := refusedResult 0x07)
    (deadline := false) hkind
  have hended : (Machine.withResult ((s.m.refusedStart j []).1, some (s.m.refusedStart j []).2)).tkp = (s.m.refusedStart j []).1.tkp :=
    withResult_dryrun hkind (hhly ▸ hact) (hhly ▸ hwait)
  refine .of_done (done_withResult hstart) ?_
  rw [hended, Machine.refusedStart, htkp]
  exact ⟨rfl, rfl, rfl, rfl, rfl, rfl, rfl⟩

theorem plannerRound_of_no_job (hjob : m.tkp.job = none) : m.plannerRound = (m, none) := by
  unfold Machine.plannerRound
  rw [hjob]

theorem plannerDeadline_of_no_job (hjob : m.tkp.job = none) : m.plannerDeadline = (m, none) := by
  unfold Machine.plannerDeadline
  rw [hjob]

/-- At its deadline a DRYRUN ends with the best that its search has found (05 R169, R172). -/
theorem plannerDeadline_of_dryrun (hjob : m.tkp.job = some j) (hkind : j.kind = .dryrun) : m.plannerDeadline =
    ((m.takeResult j (placeResult j true) true).1.hlyItem 4, some (m.takeResult j (placeResult j true) true).2) := by
  unfold Machine.plannerDeadline
  rw [hjob]
  dsimp only
  unfold Machine.endJob
  rw [hkind]

/-- A round of a job whose sample is not drawn yet: one round of its samples and one of its own are gone (05 R164, R169). -/
theorem plannerRound_waits (hjob : s.m.tkp.job = some j) (hleft : 2 ≤ j.roundsLeft) (hburn : 2 ≤ j.burn) :
    Completes .plannerRound s fun m =>
      m.tkp = { s.m.tkp with job := some { j with burn := j.burn - 1, used := j.used + 1, roundsLeft := j.roundsLeft - 1 } } := by
  have hround : s.m.plannerRound = ({ s.m with tkp := { s.m.tkp with
      job := some { j with burn := j.burn - 1, used := j.used + 1, roundsLeft := j.roundsLeft - 1 } } }, none) := by
    unfold Machine.plannerRound
    rw [hjob]
    dsimp only
    rw [if_neg (by omega), if_pos (by omega), if_neg (fun h => absurd h.1 (by omega)), if_neg (by omega)]
  exact .of_done (done_withResult hround) rfl

theorem plannerDeadline_ends (hjob : s.m.tkp.job = some j) (hkind : j.kind = .dryrun) (hact : s.m.hly.repl.actions = [])
    (hwait : s.m.hly.waiting = []) : Completes .plannerDeadline s fun m => m.tkp.job = none ∧ m.tkp.busy = false ∧
      m.tkp.cntDeadline = satAdd32 s.m.tkp.cntDeadline 1 ∧ m.tkp.rounds = min 65535 (j.used + 4) ∧ m.tkp.held = s.m.tkp.held ∧
      (j.best = none → m.tkp.grade = 4 ∧ m.tkp.reason = 0x06) ∧
      (∀ r, j.best = some r → m.tkp.grade = if r.grade < 2 then 2 else r.grade) := by
  let taken := s.m.takeResult j (placeResult j true) true
  have hhly : taken.1.hly = s.m.hly := takeResult_hly _ _ _ _
  obtain ⟨fallback, htkp⟩ := takeResult_dryrun (m := s.m) (r := placeResult j true) (deadline := true) hkind
  have hended : (Machine.withResult (taken.1.hlyItem 4, some taken.2)).tkp = taken.1.tkp :=
    withResult_dryrun (m := taken.1.hlyItem 4) hkind (hhly ▸ hact) (hhly ▸ hwait)
  refine .of_done (done_withResult (plannerDeadline_of_dryrun hjob hkind)) ?_
  rw [hended, htkp]
  refine ⟨rfl, rfl, rfl, rfl, rfl, fun hbest => ?_, fun r hbest => placeResult_grade hbest⟩
  rw [placeResult_of_none hbest]
  exact ⟨rfl, rfl⟩

end

/-- Settles O25: what the engine does at its next job is one equation (`startJob_of_next`), also after it has discarded a job for a REPLAN, and
what a DRYRUN's result leaves of the planner is another (`takeResult_dryrun`). -/
theorem plannerRunsItsJobs : Obligations.PlannerRunsItsJobs := by
  unfold Obligations.PlannerRunsItsJobs
  refine ⟨?starts, ?discards, ?refuses, ?idle, ?round, ?deadline⟩
  case starts =>
    intro j rest s hjob hnext hok
    refine plannerJobStart_starts hjob hnext ?_
    rcases hok with hreplan | hgood
    · exact refusesJob_of_replan hreplan
    · exact refusesJob_of_good hgood
  case discards =>
    intro j s hjob hkind hwaits
    exact plannerJobStart_discards hjob hkind hwaits
  case refuses =>
    intro j s hjob hqueue hkind hbad hact hwait
    exact plannerJobStart_refuses hjob hqueue hkind hbad hact hwait
  case idle =>
    intro s hjob hqueue
    exact ⟨done_withResult (startJob_of_empty hjob hqueue), done_withResult (plannerRound_of_no_job hjob),
      done_withResult (plannerDeadline_of_no_job hjob)⟩
  case round =>
    intro j s hjob hleft hburn
    exact plannerRound_waits hjob hleft hburn
  case deadline =>
    intro j s hjob hkind hact hwait
    exact plannerDeadline_ends hjob hkind hact hwait

end Sys2Proof.Machine

/-! ## Tack: the planner's commands at the master -/

namespace Sys2Proof.Machine

/-! ### Commands that end with results -/

section
variable {m : Machine} {op : Nat} {n : NodeId} {args : List Word} {data : List Byte}

/-- A command of a member that ends is answered with its results and bytes; nothing else changes. -/
theorem finishCmd_forwarded {c : HlyCmdRec} (hcur : m.hly.cur = some c) (hsrc : c.src = .node n) (status : Nat) (res : List Word)
    (bytes : List Byte) : m.finishCmd status res bytes =
      { m with hly := { m.hly with cur := none }, out := m.out ++ [Out.mgmt n (.reply c.opcode status res bytes)] } := by
  unfold Machine.finishCmd
  rw [hcur]
  dsimp only
  rw [hsrc]
  rfl

/-- The machine as a sole master has answered a member's command whose execution ends it. -/
def Machine.commandAnswered (m : Machine) (op : Nat) (n : NodeId) (args : List Word) (data : List Byte) (status : Nat) (res : List Word)
    (bytes : List Byte) : Machine :=
  let begun := m.begun (forwardedRec op n args data none)
  { begun with hly := { begun.hly with cur := none }, out := m.out ++ [Out.mgmt n (.reply op status res bytes)] }

theorem podCmd_finishes (h : m.soleMaster = true) (d : List Byte) {status : Nat} {res : List Word} {bytes : List Byte}
    (hrun : (m.begun (forwardedRec op n args data none)).runCmd (m.turnRec op n args data none) =
      (m.begun (forwardedRec op n args data none)).finishCmd status res bytes) :
    m.podCmd op (.forwarded n args data) d none = m.commandAnswered op n args data status res bytes := by
  obtain ⟨k, hk⟩ := podCmd_forwarded h op n args data d none
  rw [hk, hrun, finishCmd_forwarded (n := n) rfl rfl]
  exact serveN_idle (m := m.commandAnswered op n args data status res bytes) rfl rfl (k + 1)

/-- A command whose change of the planner's settings is committed before it ends: a master with no standby answers at once. -/
theorem podCmd_commits_settings (h : m.soleMaster = true) (d : List Byte) (t : Tkp)
    (hrun : (m.begun (forwardedRec op n args data none)).runCmd (m.turnRec op n args data none) =
      Machine.commitThen { m.begun (forwardedRec op n args data none) with tkp := t } [endAct stOk]) :
    (m.podCmd op (.forwarded n args data) d none).tkp = t ∧ m.answered (m.podCmd op (.forwarded n args data) d none) n op 0 [] [] := by
  obtain ⟨hmaster, hstandby, -, -, -⟩ := soleMaster_iff.mp h
  obtain ⟨k, hk⟩ := podCmd_forwarded h op n args data d none
  let changed : Machine := { m.begun (forwardedRec op n args data none) with tkp := t }
  have hserved : (changed.commitThen [endAct stOk]).serveN (k + 1) = changed.committedAlone.endWith stOk :=
    serveN_commits_answer (m := changed) (n := n) hmaster hstandby rfl rfl rfl rfl k
  rw [hk, hrun, hserved, endWith_forwarded (m := changed.committedAlone) (n := n) rfl rfl]
  exact ⟨rfl, rfl⟩

/-- With a bit that no command has each of the eight answers BAD_ARG (05 Table 5.6). -/
theorem runCmd_planner_badArg (hop : op = 0x20 ∨ op = 0x21 ∨ op = 0x22 ∨ op = 0x23 ∨ op = 0x24 ∨ op = 0x25 ∨ op = 0x26 ∨ op = 0x27)
    (hlast : (argRec args).arg 13 ≠ 0) : (m.begun (forwardedRec op n args data none)).runCmd (m.turnRec op n args data none) =
      (m.begun (forwardedRec op n args data none)).endWith stBadArg := by
  have hbad {masks : List Word} (hlen : masks.length ≤ 13) : (!((m.turnRec op n args data none).only masks)) = true := by
    rw [turnRec_only, only_eq_false_of_last hlast hlen]
    rfl
  rcases hop with rfl | rfl | rfl | rfl | rfl | rfl | rfl | rfl <;> exact if_pos (.inl (hbad (by decide)))

end

/-! ### What each command does when its checks pass -/

section
variable {m : Machine} {c : HlyCmdRec} {l : LinkRec}

theorem cmdTkpDryrun_of_request {req : SliceReq} (honly : c.only [wordMask, wordMask, wordMask, 0x107FF] = true)
    (haligned : aligned8 (c.addr 0) = true) (hsome : 0 < (c.arg 2).toNat) (hmost : (c.arg 2).toNat ≤ 256) (hhint : m.badHint c = false)
    (hreq : m.readRequest 0 (dryrunRecord c) = some req) (hcount : req.demands.length = (c.arg 2).toNat)
    (hslice : ∀ i < (c.arg 2).toNat, leAt c.data (32 + 32 * i) 2 = 0) :
    m.cmdTkpDryrun c = m.pushJob { placeJob 0 req false m.fullAuthority with kind := .dryrun } := by
  have hsliceOk : ((List.range (c.arg 2).toNat).all fun i => leAt c.data (32 + 32 * i) 2 == 0) = true :=
    List.all_eq_true.mpr fun i hi => beq_iff_eq.mpr (hslice i (List.mem_range.mp hi))
  unfold Machine.cmdTkpDryrun
  dsimp only
  rw [if_neg (by simp only [honly, haligned, hhint]; simp; omega), hreq]
  exact if_neg (by simp [hcount, hsliceOk])

/-- The records that TKP_RESV_READ returns of a tag (05 Table 5.7). -/
def Machine.resvRecords (m : Machine) (tag : Nat) : List Byte := (m.tkp.resv.filter fun r => r.tag == tag).flatMap resvBytes

theorem cmdTkpResvRead_of_tag (honly : c.only [0xFFF, wordMask, wordMask, wordMask] = true) (haligned : aligned8 (c.addr 1) = true)
    (htag : bits (c.arg 0) 0 12 ≠ 0) : m.cmdTkpResvRead c =
      if (c.arg 3).toNat < (m.resvRecords (bits (c.arg 0) 0 12)).length
      then m.finishCmd stTooSmall [BitVec.ofNat 32 ((m.resvRecords (bits (c.arg 0) 0 12)).length / 16)] []
      else m.finishCmd stOk [BitVec.ofNat 32 ((m.resvRecords (bits (c.arg 0) 0 12)).length / 16)] (m.resvRecords (bits (c.arg 0) 0 12)) :=
  if_neg (by rw [honly, haligned]; simp [htag])

theorem cmdTkpSlotsRead_of_link (honly : c.only [npMask, wordMask, wordMask] = true) (haligned : aligned8 (c.addr 1) = true)
    (hlink : m.linkOf (c.np 0) = some l) : m.cmdTkpSlotsRead c =
      m.finishCmd stOk [m.hly.reg.epoch.setWidth 32] (slotTableBytes m.activeBank (c.np 0).1 (c.np 0).2) := by
  have hchecks : ¬ (!(c.only [npMask, wordMask, wordMask]) ∨ !(aligned8 (c.addr 1)) ∨ (m.linkOf (c.np 0)).isNone) := by
    rw [honly, haligned, hlink]
    simp
  exact if_neg hchecks

theorem cmdTkpBiasSet_of_link (honly : c.only [npMask, 0x7FFF] = true) (hlink : m.linkOf (c.np 0) = some l)
    (hfull : m.fullAuthority = true) : m.cmdTkpBiasSet c =
      (m.submit (.bias (c.np 0).1 (c.np 0).2 (bits (c.arg 1) 0 15))).endWith stOk := by
  have hchecks : ¬ (!(c.only [npMask, 0x7FFF]) ∨ (m.linkOf (c.np 0)).isNone) := by
    rw [honly, hlink]
    simp
  exact (if_neg hchecks).trans (if_neg (by simp [hfull]))

theorem cmdTkpHeadroomSet_in_range (honly : c.only [0xFF] = true) (hlow : 64 ≤ bits (c.arg 0) 0 8) (hhigh : bits (c.arg 0) 0 8 ≤ 240)
    (hfull : m.fullAuthority = true) : m.cmdTkpHeadroomSet c =
      Machine.commitThen { m with tkp := { m.tkp with resvMax := bits (c.arg 0) 0 8 } } [endAct stOk] :=
  (if_neg (by simp only [honly]; simp; omega)).trans (if_neg (by simp [hfull]))

theorem cmdTkpHeadroomSet_out_of_range (hout : bits (c.arg 0) 0 8 < 64 ∨ 240 < bits (c.arg 0) 0 8) :
    m.cmdTkpHeadroomSet c = m.endWith stBadArg :=
  if_pos (.inr hout)

theorem cmdTkpDeadlineSet_in_range (honly : c.only [0x1FFF, 0x1FF] = true)
    (hus : 50 ≤ bits (c.arg 0) 0 13 ∧ bits (c.arg 0) 0 13 ≤ 5000) (hms : 1 ≤ bits (c.arg 1) 0 9 ∧ bits (c.arg 1) 0 9 ≤ 500) :
    m.cmdTkpDeadlineSet c = Machine.commitThen
      { m with tkp := { m.tkp with replanUs := bits (c.arg 0) 0 13, placeMs := bits (c.arg 1) 0 9 } } [endAct stOk] :=
  if_neg (by simp only [honly]; simp; omega)

theorem cmdTkpDeadlineSet_out_of_range (hout : bits (c.arg 0) 0 13 < 50 ∨ 5000 < bits (c.arg 0) 0 13 ∨ bits (c.arg 1) 0 9 < 1 ∨
    500 < bits (c.arg 1) 0 9) : m.cmdTkpDeadlineSet c = m.endWith stBadArg :=
  if_pos (.inr hout)

/-- The machine as a REPLAN of every committed demand is wanted of the next epoch. -/
def Machine.replanWanted (m : Machine) (us : Nat) : Machine :=
  m.modWork fun w => { w with wantReplan := true, wantAll := true, wantNs := us * 1000 }

theorem cmdTkpReplanAll_in_range (honly : c.only [0x1FFF] = true) (hlow : 50 ≤ bits (c.arg 0) 0 13) (hhigh : bits (c.arg 0) 0 13 ≤ 5000)
    (hfull : m.fullAuthority = true) : m.cmdTkpReplanAll c = (m.replanWanted (bits (c.arg 0) 0 13)).nextChange .none [.finishReplan] :=
  (if_neg (by simp only [honly]; simp; omega)).trans (if_neg (by simp [hfull]))

/-- The sum of a tray's claims (05 R166). -/
def Machine.trayClaims (m : Machine) (t : Nat) : Nat := (m.tkp.claims.filter fun x => x.tray == t).foldl (fun a x => a + x.groupSize * x.rate) 0

theorem cmdTkpRampRead_of_tray (honly : c.only [0x7F] = true) (hcol : bits (c.arg 0) 0 7 % 4 * 4 < m.dims.1)
    (hrow : bits (c.arg 0) 0 7 / 4 % 4 * 4 < m.dims.2.1) : m.cmdTkpRampRead c =
      m.finishCmd stOk [word [(0, m.trayBudget (bits (c.arg 0) 0 7)), (16, m.trayClaims (bits (c.arg 0) 0 7))]] [] :=
  if_neg (by simp only [honly]; simp; omega)

end

/-! ### The commands at a sole master -/

section
variable {n : NodeId} {args : List Word} {data : List Byte} {l : LinkRec} {s : State}

theorem tkpDryrun_queues {host : Cells} {req : SliceReq} (h : s.m.soleMaster = true) {c : HlyCmdRec} (hc : { argRec args with data := data } = c)
    (honly : c.only [wordMask, wordMask, wordMask, 0x107FF] = true) (haligned : aligned8 (c.addr 0) = true) (hsome : 0 < (c.arg 2).toNat)
    (hmost : (c.arg 2).toNat ≤ 256) (hhint : s.m.badHint c = false) (hreq : s.m.readRequest 0 (dryrunRecord c) = some req)
    (hcount : req.demands.length = (c.arg 2).toNat) (hslice : ∀ i < (c.arg 2).toNat, leAt data (32 + 32 * i) 2 = 0) :
    Completes (.tkpDryrun (.forwarded n args data) host) s fun m =>
      m.tkp = { s.m.tkp with queue := s.m.tkp.queue ++ [{ placeJob 0 req false s.m.fullAuthority with kind := .dryrun }] } ∧
      m.out = s.m.out := by
  subst hc
  let m := s.m.hostStores host
  let begun := m.begun (forwardedRec 0x20 n args data none)
  have hrun : begun.runCmd (m.turnRec 0x20 n args data none) =
      begun.pushJob { placeJob 0 req false begun.fullAuthority with kind := .dryrun } :=
    cmdTkpDryrun_of_request (m := begun) (c := m.turnRec 0x20 n args data none) honly haligned hsome hmost hhint hreq hcount hslice
  obtain ⟨k, hk⟩ := podCmd_forwarded (m := m) h 0x20 n args data data none
  refine .of_done (m := m.podCmd 0x20 (.forwarded n args data) data none) rfl ?_
  rw [hk, hrun, serveN_idle (m := begun.pushJob _) rfl rfl]
  exact ⟨rfl, rfl⟩

theorem tkpResvRead_answers (h : s.m.soleMaster = true) (honly : (argRec args).only [0xFFF, wordMask, wordMask, wordMask] = true)
    (haligned : aligned8 ((argRec args).addr 1) = true) {tag : Nat} (htag : bits ((argRec args).arg 0) 0 12 = tag) (hnonzero : tag ≠ 0) :
    Completes (.tkpResvRead (.forwarded n args data)) s fun m => m.tkp = s.m.tkp ∧
      ((s.m.resvRecords tag).length ≤ ((argRec args).arg 3).toNat →
        s.m.answered m n 0x21 0 [BitVec.ofNat 32 ((s.m.resvRecords tag).length / 16)] (s.m.resvRecords tag)) ∧
      (((argRec args).arg 3).toNat < (s.m.resvRecords tag).length →
        s.m.answered m n 0x21 0x07 [BitVec.ofNat 32 ((s.m.resvRecords tag).length / 16)] []) := by
  subst htag
  have hrun := cmdTkpResvRead_of_tag (m := s.m.begun (forwardedRec 0x21 n args data none)) (c := s.m.turnRec 0x21 n args data none)
    honly haligned hnonzero
  refine .of_done rfl ?_
  by_cases hroom : ((argRec args).arg 3).toNat < (s.m.resvRecords (bits ((argRec args).arg 0) 0 12)).length
  · rw [podCmd_finishes (op := 0x21) (n := n) (args := args) (data := data) h [] (hrun.trans (if_pos hroom))]
    exact ⟨rfl, fun hfits => absurd hroom (Nat.not_lt.mpr hfits), fun _ => rfl⟩
  · rw [podCmd_finishes (op := 0x21) (n := n) (args := args) (data := data) h [] (hrun.trans (if_neg hroom))]
    exact ⟨rfl, fun _ => rfl, fun hsmall => absurd hsmall hroom⟩

theorem tkpSlotsRead_answers (h : s.m.soleMaster = true) (honly : (argRec args).only [npMask, wordMask, wordMask] = true)
    (haligned : aligned8 ((argRec args).addr 1) = true) (hlink : s.m.linkOf ((argRec args).np 0) = some l) :
    Completes (.tkpSlotsRead (.forwarded n args data)) s fun m => m.tkp = s.m.tkp ∧ s.m.answered m n 0x22 0
      [s.m.hly.reg.epoch.setWidth 32] (slotTableBytes s.m.activeBank ((argRec args).np 0).1 ((argRec args).np 0).2) := by
  have hrun := cmdTkpSlotsRead_of_link (m := s.m.begun (forwardedRec 0x22 n args data none)) (c := s.m.turnRec 0x22 n args data none)
    honly haligned hlink
  refine .of_done rfl ?_
  rw [podCmd_finishes (op := 0x22) (n := n) (args := args) (data := data) h [] hrun]
  exact ⟨rfl, rfl⟩

/-- The bias is collected for the next epoch, and the command answered (05 R141, R143). -/
theorem tkpBiasSet_collects (h : s.m.soleMaster = true) (hfull : s.m.fullAuthority = true)
    (honly : (argRec args).only [npMask, 0x7FFF] = true) (hlink : s.m.linkOf ((argRec args).np 0) = some l) :
    Completes (.tkpBiasSet (.forwarded n args data)) s fun m => m.hly.work.changes = s.m.hly.work.changes ++
        [.bias ((argRec args).np 0).1 ((argRec args).np 0).2 (bits ((argRec args).arg 1) 0 15)] ∧ m.hly.db = s.m.hly.db ∧
      s.m.answered m n 0x23 0 [] [] := by
  obtain ⟨k, hk⟩ := podCmd_forwarded h 0x23 n args data [] none
  let begun := s.m.begun (forwardedRec 0x23 n args data none)
  have hmaster : begun.isMaster = true := (soleMaster_iff.mp h).1
  have hrun : begun.runCmd (s.m.turnRec 0x23 n args data none) = _ :=
    cmdTkpBiasSet_of_link (m := begun) (c := s.m.turnRec 0x23 n args data none) honly hlink hfull
  refine .of_done rfl ?_
  rw [hk, hrun, submit_of_master hmaster, endWith_forwarded (n := n) rfl rfl, serveN_idle rfl rfl]
  exact ⟨rfl, rfl, rfl⟩

theorem tkpHeadroomSet_sets (h : s.m.soleMaster = true) (hfull : s.m.fullAuthority = true) (honly : (argRec args).only [0xFF] = true) {v : Nat}
    (hv : bits ((argRec args).arg 0) 0 8 = v) : Completes (.tkpHeadroomSet (.forwarded n args data)) s fun m =>
      (64 ≤ v ∧ v ≤ 240 → m.tkp = { s.m.tkp with resvMax := v } ∧ s.m.answered m n 0x24 0 [] []) ∧
      (v < 64 ∨ 240 < v → m.tkp = s.m.tkp ∧ s.m.answered m n 0x24 0x03 [] []) := by
  subst hv
  refine .of_done rfl ⟨fun ⟨hlow, hhigh⟩ => ?_, fun hout => ?_⟩
  · exact podCmd_commits_settings h [] _ (cmdTkpHeadroomSet_in_range (c := s.m.turnRec 0x24 n args data none) honly hlow hhigh hfull)
  · have hrun := cmdTkpHeadroomSet_out_of_range (m := s.m.begun (forwardedRec 0x24 n args data none)) (c := s.m.turnRec 0x24 n args data none) hout
    rw [podCmd_finishes (op := 0x24) (n := n) (args := args) (data := data) h [] hrun]
    exact ⟨rfl, rfl⟩

theorem tkpDeadlineSet_sets (h : s.m.soleMaster = true) (honly : (argRec args).only [0x1FFF, 0x1FF] = true) {us ms : Nat}
    (hus : bits ((argRec args).arg 0) 0 13 = us) (hms : bits ((argRec args).arg 1) 0 9 = ms) :
    Completes (.tkpDeadlineSet (.forwarded n args data)) s fun m =>
      (50 ≤ us ∧ us ≤ 5000 ∧ 1 ≤ ms ∧ ms ≤ 500 →
        m.tkp = { s.m.tkp with replanUs := us, placeMs := ms } ∧ s.m.answered m n 0x25 0 [] []) ∧
      (us < 50 ∨ 5000 < us ∨ ms < 1 ∨ 500 < ms → m.tkp = s.m.tkp ∧ s.m.answered m n 0x25 0x03 [] []) := by
  subst hus hms
  refine .of_done rfl ⟨fun ⟨huslow, hushigh, hmslow, hmshigh⟩ => ?_, fun hout => ?_⟩
  · exact podCmd_commits_settings h [] _
      (cmdTkpDeadlineSet_in_range (c := s.m.turnRec 0x25 n args data none) honly ⟨huslow, hushigh⟩ ⟨hmslow, hmshigh⟩)
  · have hrun := cmdTkpDeadlineSet_out_of_range (m := s.m.begun (forwardedRec 0x25 n args data none)) (c := s.m.turnRec 0x25 n args data none) hout
    rw [podCmd_finishes (op := 0x25) (n := n) (args := args) (data := data) h [] hrun]
    exact ⟨rfl, rfl⟩

/-- The REPLAN of every committed demand is asked of the next epoch, whose switch ends the command (05 R162). -/
theorem tkpReplanAll_asks (h : s.m.soleMaster = true) (hfull : s.m.fullAuthority = true) (honly : (argRec args).only [0x1FFF] = true) {us : Nat}
    (hus : bits ((argRec args).arg 0) 0 13 = us) (hlow : 50 ≤ us) (hhigh : us ≤ 5000) :
    Completes (.tkpReplanAll (.forwarded n args data)) s fun m => m.hly.work.wantReplan = true ∧ m.hly.work.wantAll = true ∧
      m.hly.work.wantNs = us * 1000 ∧ m.hly.work.pendingAfter = s.m.hly.work.pendingAfter ++ [AfterSwitch.finishReplan] ∧
      m.out = s.m.out := by
  subst hus
  obtain ⟨k, hk⟩ := podCmd_forwarded h 0x26 n args data [] none
  let begun := s.m.begun (forwardedRec 0x26 n args data none)
  let wanted := begun.replanWanted (bits ((argRec args).arg 0) 0 13)
  have hmaster : wanted.isMaster = true := (soleMaster_iff.mp h).1
  have hrun : begun.runCmd (s.m.turnRec 0x26 n args data none) = wanted.nextChange .none [.finishReplan] :=
    cmdTkpReplanAll_in_range (m := begun) (c := s.m.turnRec 0x26 n args data none) honly hlow hhigh hfull
  refine .of_done rfl ?_
  rw [hk, hrun, nextChange_of_master hmaster, serveN_idle rfl rfl]
  exact ⟨rfl, rfl, rfl, rfl, rfl⟩

theorem tkpRampRead_answers (h : s.m.soleMaster = true) (honly : (argRec args).only [0x7F] = true) {t : Nat}
    (ht : bits ((argRec args).arg 0) 0 7 = t) (hcol : t % 4 * 4 < s.m.dims.1) (hrow : t / 4 % 4 * 4 < s.m.dims.2.1) :
    Completes (.tkpRampRead (.forwarded n args data)) s fun m => m.tkp = s.m.tkp ∧
      s.m.answered m n 0x27 0 [word [(0, s.m.trayBudget t), (16, s.m.trayClaims t)]] [] := by
  subst ht
  have hrun := cmdTkpRampRead_of_tray (m := s.m.begun (forwardedRec 0x27 n args data none)) (c := s.m.turnRec 0x27 n args data none)
    honly hcol hrow
  refine .of_done rfl ?_
  rw [podCmd_finishes (op := 0x27) (n := n) (args := args) (data := data) h [] hrun]
  exact ⟨rfl, rfl⟩

end

/-- Settles O26: a sole master gives a member's command its turn at once; the command then ends with an answer, queues a job, or leaves its end to
the switch of the next epoch. -/
theorem plannerCommandsAtTheMaster : Obligations.PlannerCommandsAtTheMaster := by
  unfold Obligations.PlannerCommandsAtTheMaster
  refine ⟨?badArg, ?dryrun, ?resvRead, ?slotsRead, ?biasSet, ?headroomSet, ?deadlineSet, ?replanAll, ?rampRead⟩
  case badArg =>
    intro n args data host s h hlast
    refine ⟨.of_done rfl (podCmd_ends (m := s.m.hostStores host) h data (runCmd_planner_badArg (by decide) hlast)), ?_, ?_, ?_, ?_, ?_, ?_, ?_⟩
    all_goals exact .of_done rfl (podCmd_ends h [] (runCmd_planner_badArg (by decide) hlast))
  case dryrun =>
    intro n args data host req s h c honly haligned hsome hmost hhint hreq hcount hslice
    exact tkpDryrun_queues h rfl honly haligned hsome hmost hhint hreq hcount hslice
  case resvRead =>
    intro n args data s h c b honly haligned htag
    exact tkpResvRead_answers h honly haligned rfl htag
  case slotsRead =>
    intro n args data l s h c honly haligned hlink
    exact tkpSlotsRead_answers h honly haligned hlink
  case biasSet =>
    intro n args data l s h hfull c honly hlink
    exact tkpBiasSet_collects h hfull honly hlink
  case headroomSet =>
    intro n args data s h hfull v honly
    exact tkpHeadroomSet_sets h hfull honly rfl
  case deadlineSet =>
    intro n args data s h us ms honly
    exact tkpDeadlineSet_sets h honly rfl rfl
  case replanAll =>
    intro n args data s h hfull us honly hlow hhigh
    exact tkpReplanAll_asks h hfull honly rfl hlow hhigh
  case rampRead =>
    intro n args data s h t honly hcol hrow
    exact tkpRampRead_answers h honly rfl hcol hrow

end Sys2Proof.Machine

/-! ## Contexts: how they are made, ended and metered (06 R196, R197, R201-R203) -/

namespace Sys2Proof.Machine

/-! ### Interrupts and answers -/

section
variable (m : Machine)

/-- An interrupt writes its vector's record and what is sent. -/
theorem interrupt_eq (f v : Nat) : m.interrupt f v = { m with msix := (m.interrupt f v).msix, out := (m.interrupt f v).out } := by
  unfold Machine.interrupt
  dsimp only
  split
  · rfl
  · split
    · rfl
    · split <;> rfl

theorem ctxDone_ctxCmd (status c : Nat) : (m.ctxDone status c).ctxCmd =
    { m.ctxCmd with status := status, statCtx := c, done := true, busy := false, started := false } := by
  rw [Machine.ctxDone, interrupt_eq]

@[simp] theorem ctxDone_ctx (status c : Nat) : (m.ctxDone status c).ctx = m.ctx := by rw [Machine.ctxDone, interrupt_eq]

@[simp] theorem ctxDone_tiles (status c : Nat) : (m.ctxDone status c).tiles = m.tiles := by rw [Machine.ctxDone, interrupt_eq]

@[simp] theorem ctxDone_ctxAt (status c x : Nat) : (m.ctxDone status c).ctxAt x = m.ctxAt x := by rw [Machine.ctxDone, interrupt_eq]; rfl

/-- A context that is not free has a page of its own in the table. -/
theorem mem_tkeys_of_not_free {m : Machine} {c : Nat} (h : (m.ctxAt c).base.life ≠ .free) : c ∈ tkeys m.ctx := by
  by_contra hc
  exact h (by rw [Machine.ctxAt, tget_of_not_mem _ _ _ hc]; rfl)

end

/-! ### CREATE -/

section
variable {m : Machine} {c i f : Nat}

theorem ctxPending_of_not_busy {op : Nat} (h : m.ctxCmd.busy = false) : m.ctxPending op = false := by simp [Machine.ctxPending, h]

theorem createContext_outside (h : m.parts ≤ i) : m.createContext i f = m.ctxDone 0x03 0 := if_pos (.inl h)

theorem createContext_unbound (hpart : i < m.parts) (hfunc : f ≤ 64) (h : (m.partAt i).state ≠ .bound ∨ (m.partAt i).live = false) :
    m.createContext i f = m.ctxDone 0x04 0 := by
  unfold Machine.createContext
  dsimp only
  rw [if_neg (by omega), if_pos (by simpa using h)]

/-- The page of a context as CREATE makes it for the PF (06 R196). -/
def PartRec.freshCtx (p : PartRec) (i : Nat) : CtxRec := { CtxRec.reset with
  base := { CtxBase.reset with life := .live, part := i, tag := p.tag, tenant := p.tenant, func := some 0 } }

theorem createContext_of_free (hpart : i < m.parts) (hstate : (m.partAt i).state = .bound) (hlive : (m.partAt i).live = true)
    (hfree : ((m.ctxRange i).find? fun c => (m.ctxAt c).base.life == .free) = some c)
    (hroom : ((m.ctxRange i).filter fun c => (m.ctxAt c).base.life == .live || (m.ctxAt c).base.life == .ending).length <
      (m.partAt i).ctxMax) :
    m.createContext i 0 = ((m.setCtx c ((m.partAt i).freshCtx i)).clearSlot c).ctxDone 0 c := by
  unfold Machine.createContext
  dsimp only
  rw [if_neg (by omega), if_neg (by simp [hstate, hlive]), hfree]
  dsimp only
  rw [if_neg (by omega), if_neg (by simp)]
  rfl

theorem clearSlot_ctxAt (c x : Nat) : (m.clearSlot c).ctxAt x = m.ctxAt x := rfl

end

section
variable {s : State} {c : Nat}

theorem ctxCreate_of_free (h : s.m.ctxPending 1 = true) (hpart : s.m.ctxCmd.part < s.m.parts) (hfunc : s.m.ctxCmd.func = 0)
    (hstate : (s.m.partAt s.m.ctxCmd.part).state = .bound) (hlive : (s.m.partAt s.m.ctxCmd.part).live = true)
    (hfree : ((s.m.ctxRange s.m.ctxCmd.part).find? fun c => (s.m.ctxAt c).base.life == .free) = some c)
    (hroom : ((s.m.ctxRange s.m.ctxCmd.part).filter fun c =>
      (s.m.ctxAt c).base.life == .live || (s.m.ctxAt c).base.life == .ending).length < (s.m.partAt s.m.ctxCmd.part).ctxMax) :
    Completes .ctxCreate s fun m => m.ctxAt c = (s.m.partAt s.m.ctxCmd.part).freshCtx s.m.ctxCmd.part ∧
      (∀ x, x ≠ c → m.ctxAt x = s.m.ctxAt x) ∧
      m.ctxCmd = { s.m.ctxCmd with status := 0, statCtx := c, done := true, busy := false, started := false } := by
  refine .of_done rfl ?_
  rw [if_pos h, hfunc, createContext_of_free hpart hstate hlive hfree hroom]
  refine ⟨?_, fun x hx => ?_, ?_⟩
  · rw [ctxDone_ctxAt, clearSlot_ctxAt, setCtx_ctxAt, if_pos rfl]
  · rw [ctxDone_ctxAt, clearSlot_ctxAt, setCtx_ctxAt, if_neg hx]
  · exact ctxDone_ctxCmd _ 0 c

theorem ctxCreate_refused (h : s.m.ctxPending 1 = true) : Completes .ctxCreate s fun m =>
    (s.m.parts ≤ s.m.ctxCmd.part → m.ctx = s.m.ctx ∧ m.ctxCmd.status = 0x03 ∧ m.ctxCmd.done = true ∧ m.ctxCmd.busy = false) ∧
    (s.m.ctxCmd.part < s.m.parts → s.m.ctxCmd.func ≤ 64 →
      (s.m.partAt s.m.ctxCmd.part).state ≠ .bound ∨ (s.m.partAt s.m.ctxCmd.part).live = false →
      m.ctx = s.m.ctx ∧ m.ctxCmd.status = 0x04 ∧ m.ctxCmd.done = true ∧ m.ctxCmd.busy = false) := by
  refine .of_done rfl ?_
  rw [if_pos h]
  refine ⟨fun hout => ?_, fun hpart hfunc hstate => ?_⟩
  · simp [createContext_outside hout, ctxDone_ctxCmd]
  · simp [createContext_unbound hpart hfunc hstate, ctxDone_ctxCmd]

end

/-! ### DESTROY, the scrub of an ended context, FREE -/

section
variable {m : Machine} {c : CtxId}

theorem destroyContext_of_live (hstart : m.ctxCmd.started = false) (hlive : (m.ctxAt c).base.life = .live) : m.destroyContext c =
    if !(m.fenced c) && !(m.fenceDue (.context c)) then m else (m.startDestroy c).modCtxCmd fun x => { x with started := true } := by
  unfold Machine.destroyContext
  rw [dif_pos c.isLt, if_neg (by simp [hstart]), if_pos hlive]

theorem destroyContext_of_other (hstart : m.ctxCmd.started = false) (hlife : (m.ctxAt c).base.life ≠ .live) :
    m.destroyContext c = m.ctxDone 0x08 c := by
  unfold Machine.destroyContext
  rw [dif_pos c.isLt, if_neg (by simp [hstart]), if_neg hlife]

theorem destroyContext_of_started (hstart : m.ctxCmd.started = true) (c : Nat) : m.destroyContext c = m := by
  unfold Machine.destroyContext
  by_cases hc : c < 64
  · rw [dif_pos hc, if_pos hstart]
  · rw [dif_neg hc]

theorem startDestroy_ctxCmd (m : Machine) (c : CtxId) : (m.startDestroy c).ctxCmd = m.ctxCmd :=
  Kept.ctxCmd (W := [.fwd, .txSeq, .coll, .tiles, .strm, .luff, .ctx, .reef, .out]) (by apply startDestroy_kept .refl <;> decide) (by decide)

/-- The stages of `startDestroy` once the context has been cut off: closing its streams and recording the fence leave the contexts. -/
theorem startDestroy_ctxAt (m : Machine) (c : CtxId) (x : Nat) : (m.startDestroy c).ctxAt x =
    ((if m.fenced c then m else (m.cutContext c).modCtx c fun r => { r with rst := r.rst.advance }).modBase c
      fun b => { b with life := .ending }).ctxAt x := by
  unfold Machine.startDestroy
  dsimp only
  generalize Machine.modBase _ _ _ = a
  have hclosed : ((a.streamsOf c).foldl (fun m n => m.closeStream n) a).ctx = a.ctx :=
    Kept.ctx (W := [.strm]) (Kept.foldl .refl fun _ n h => closeStream_kept h n (by decide)) (by decide)
  exact congrArg (tget CtxRec.reset · x) hclosed

theorem startDestroy_ends (m : Machine) (c : CtxId) : ((m.startDestroy c).ctxAt c).base.life = .ending := by
  simp [startDestroy_ctxAt]

end

section
variable {s : State} {c : CtxId}

theorem ctxDestroy_begins_or_answers (h : s.m.ctxPending 2 = true) (hctx : s.m.ctxCmd.ctx = c.val) (hstart : s.m.ctxCmd.started = false) :
    Completes .ctxDestroy s fun m =>
      ((s.m.ctxAt c).base.life = .live → s.m.fenced c = true ∨ s.m.fenceDue (.context c) = true →
        (m.ctxAt c).base.life = .ending ∧ m.ctxCmd = { s.m.ctxCmd with started := true }) ∧
      ((s.m.ctxAt c).base.life = .live → s.m.fenced c = false → s.m.fenceDue (.context c) = false → m = s.m) ∧
      ((s.m.ctxAt c).base.life ≠ .live →
        m.ctx = s.m.ctx ∧ m.ctxCmd = { s.m.ctxCmd with status := 0x08, statCtx := c, done := true, busy := false, started := false }) := by
  refine .of_done rfl ?_
  rw [if_pos h, hctx]
  refine ⟨fun hlive hfence => ?_, fun hlive hfenced hdue => ?_, fun hlife => ?_⟩
  · rw [destroyContext_of_live hstart hlive, if_neg (by rcases hfence with hf | hf <;> simp [hf])]
    exact ⟨startDestroy_ends s.m c, congrArg (fun x : CtxCmd => { x with started := true }) (startDestroy_ctxCmd s.m c)⟩
  · rw [destroyContext_of_live hstart hlive, if_pos (by simp [hfenced, hdue])]
  · rw [destroyContext_of_other hstart hlife]
    exact ⟨ctxDone_ctx _ _ _, ctxDone_ctxCmd _ _ _⟩

theorem ctxDestroy_waits (h : s.m.ctxPending 2 = true) (hstart : s.m.ctxCmd.started = true) : Ignored .ctxDestroy s :=
  .of_done rfl (by rw [if_pos h, destroyContext_of_started hstart])

end

/-- Changes of tiles that a second time change nothing more. -/
theorem foldl_modTile_tileAt {f : TileRec → TileRec} (hf : ∀ r, f (f r) = f r) (l : List Nat) (m : Machine) (k : Nat) :
    (l.foldl (fun m l => m.modTile l f) m).tileAt k = if k ∈ l then f (m.tileAt k) else m.tileAt k := by
  induction l generalizing m with
  | nil => rfl
  | cons x l ih =>
    rw [List.foldl_cons, ih, modTile_tileAt]
    by_cases hk : k = x
    · subst hk; simp [hf]
    · simp [hk]

theorem zeroed_zeroed (r : TileRec) : r.zeroed.zeroed = r.zeroed := rfl

section
variable (m : Machine) (c : CtxId)

/-- The tiles that the scrub of an ended context clears (06 R197). -/
def Machine.scrubbedTiles : List Nat := (m.ctxAt c).base.heldTiles.filter fun l => (m.holder l).isNone

/-- The machine as those tiles are zero. -/
def Machine.tilesScrubbed : Machine := (m.scrubbedTiles c).foldl (fun m l => m.modTile l TileRec.zeroed) m

/-- The machine as an ended context's tiles are zero, its pages free, and it is FINAL. -/
def Machine.finalCtx : Machine :=
  ((m.tilesScrubbed c).freePages ((m.tilesScrubbed c).heldPages c)).modBase c fun b => { b with life := .final, heldTiles := [] }

/-- Its fence dropped, a DESTROY answered and the master told leave the contexts and the tiles. -/
theorem endDestroy_kept_finalCtx : Kept [.luff, .ctxCmd, .msix, .out] (m.finalCtx c) (m.endDestroy c) := by
  unfold Machine.endDestroy
  apply reportFinal_kept
  · refine Kept.ite ?_ ?_
    · apply ctxDone_kept
      · exact dropFence_kept .refl _ (by decide)
      all_goals decide
    · exact dropFence_kept .refl _ (by decide)
  · decide

theorem finalCtx_tileAt (l : Nat) : (m.finalCtx c).tileAt l =
    if l ∈ m.scrubbedTiles c then (m.tileAt l).zeroed else m.tileAt l := by
  have hfreed (a : Machine) (ps : List Nat) : (a.freePages ps).tiles = a.tiles :=
    Kept.tiles (W := [.hbm]) (freePages_kept .refl ps (by decide)) (by decide)
  exact (congrArg (tget TileRec.reset · l) (hfreed _ _)).trans (foldl_modTile_tileAt zeroed_zeroed (m.scrubbedTiles c) m l)

theorem finalCtx_ctxAt : (m.finalCtx c).ctxAt c = { m.ctxAt c with base := { (m.ctxAt c).base with life := .final, heldTiles := [] } } := by
  have hzeroed : (m.tilesScrubbed c).ctx = m.ctx :=
    Kept.ctx (W := [.tiles]) (Kept.foldl .refl fun _ l h => modTile_kept h l _ (by decide)) (by decide)
  have hfreed (a : Machine) (ps : List Nat) : (a.freePages ps).ctx = a.ctx :=
    Kept.ctx (W := [.hbm]) (freePages_kept .refl ps (by decide)) (by decide)
  rw [Machine.finalCtx, modBase_ctxAt, if_pos rfl, Machine.ctxAt, hfreed, hzeroed]
  rfl

end

section
variable {s : State} {c : CtxId}

theorem contextScrubComplete_final (hlife : (s.m.ctxAt c).base.life = .ending)
    (hready : (s.m.luff.fences.any fun f => f.destroy && f.drained && f.dom == .context c) = true) :
    Completes (.contextScrubComplete c) s fun m => (m.ctxAt c).base = { (s.m.ctxAt c).base with life := .final, heldTiles := [] } ∧
      ∀ l ∈ (s.m.ctxAt c).base.heldTiles, s.m.holder l = none → m.tileAt l = (s.m.tileAt l).zeroed := by
  have hkept := endDestroy_kept_finalCtx s.m c
  have hctx (x : Nat) : (s.m.endDestroy c).ctxAt x = (s.m.finalCtx c).ctxAt x :=
    congrArg (tget CtxRec.reset · x) (hkept.ctx (by decide))
  have htile (l : Nat) : (s.m.endDestroy c).tileAt l = (s.m.finalCtx c).tileAt l :=
    congrArg (tget TileRec.reset · l) (hkept.tiles (by decide))
  refine .of_done rfl ?_
  dsimp only
  rw [if_pos ⟨hlife, hready⟩]
  refine ⟨?_, fun l hl hnone => ?_⟩
  · rw [hctx, finalCtx_ctxAt]
  · rw [htile, finalCtx_tileAt, if_pos]
    exact List.mem_filter.mpr ⟨hl, by rw [hnone]; rfl⟩

theorem ctxFree_answers (h : s.m.ctxPending 3 = true) : Completes .ctxFree s fun m =>
    ((s.m.ctxAt s.m.ctxCmd.ctx).base.life = .final →
      (m.ctxAt s.m.ctxCmd.ctx).base = { CtxBase.reset with event := (s.m.ctxAt s.m.ctxCmd.ctx).base.event } ∧ m.ctxCmd.status = 0) ∧
    ((s.m.ctxAt s.m.ctxCmd.ctx).base.life ≠ .final → m.ctx = s.m.ctx ∧ m.ctxCmd.status = 0x07) ∧
    m.ctxCmd.done = true ∧ m.ctxCmd.busy = false ∧ m.ctxCmd.statCtx = s.m.ctxCmd.ctx := by
  refine .of_done rfl ?_
  rw [if_pos h]
  split
  next hfinal => simp [hfinal, ctxDone_ctxCmd]
  next hother => simp [hother, ctxDone_ctxCmd]

theorem ctxOps_ignored (h : s.m.ctxCmd.busy = false) : Ignored .ctxCreate s ∧ Ignored .ctxDestroy s ∧ Ignored .ctxFree s := by
  have hnone (op : Nat) : ¬ s.m.ctxPending op = true := by rw [ctxPending_of_not_busy h]; decide
  exact ⟨.of_done rfl (if_neg (hnone 1)), .of_done rfl (if_neg (hnone 2)), .of_done rfl (if_neg (hnone 3))⟩

end

/-! ### Minutes and snapshots -/

/-- A context's registers as a minute is latched (06 R203). -/
def CtxBase.minuteLatched (now : DWord) (b : CtxBase) : CtxBase :=
  if b.life = .live then { b with minute := b.meters, minTime := now, minSeq := (b.minSeq + 1) % 2 ^ 32 } else b

theorem foldl_minuteLatched_ctxAt {l : List Nat} (hl : l.Nodup) (m : Machine) (k : Nat) :
    ((l.foldl (fun m c => m.modBase c (CtxBase.minuteLatched m.time.now)) m).ctxAt k).base =
      if k ∈ l then (m.ctxAt k).base.minuteLatched m.time.now else (m.ctxAt k).base := by
  induction l generalizing m with
  | nil => rfl
  | cons c l ih =>
    obtain ⟨hc, hl⟩ := List.nodup_cons.mp hl
    rw [List.foldl_cons, ih hl]
    by_cases hk : k = c
    · subst hk; simp [hc]
    · simp [hk]

theorem minuteLatch_latches {s : State} {c : Nat} (hkeys : (tkeys s.m.ctx).Nodup) (hlive : (s.m.ctxAt c).base.life = .live) :
    Completes .minuteLatch s fun m => (m.ctxAt c).base = { (s.m.ctxAt c).base with
      minute := (s.m.ctxAt c).base.meters, minTime := s.m.time.now, minSeq := ((s.m.ctxAt c).base.minSeq + 1) % 2 ^ 32 } := by
  refine .of_done rfl ?_
  have hmem : c ∈ tkeys s.m.ctx := mem_tkeys_of_not_free (by rw [hlive]; decide)
  exact (foldl_minuteLatched_ctxAt hkeys s.m c).trans ((if_pos hmem).trans (if_pos hlive))

theorem ctxSnap_latches {s : State} {c : CtxId} (h : (s.m.ctxAt c).base.life ≠ .free) : Completes (.ctxSnap c) s fun m =>
    (m.ctxAt c).base = { (s.m.ctxAt c).base with snap := (s.m.ctxAt c).base.meters, snapTime := s.m.time.now } ∧
    ∀ x, x ≠ c.val → m.ctxAt x = s.m.ctxAt x := by
  refine .of_done rfl ⟨?_, fun x hx => ?_⟩
  · simp [Machine.snapContext, h]
  · simp [Machine.snapContext, hx]

/-! ### Energy -/

theorem chargeEnergy_nil (m : Machine) (uj : Nat) : m.chargeEnergy uj [] = m.unattributed uj := rfl

@[simp] theorem unattributed_ctxAt (m : Machine) (uj k : Nat) : (m.unattributed uj).ctxAt k = m.ctxAt k := rfl

@[simp] theorem meter_ctxAt (m : Machine) (c : Nat) (f : Meters → Meters) (k : Nat) : (m.meter c f).ctxAt k =
    if k = c then { m.ctxAt c with base := { (m.ctxAt c).base with meters := f (m.ctxAt c).base.meters } } else m.ctxAt k :=
  modBase_ctxAt m c _ k

theorem unattributed_unattributed (m : Machine) (a b : Nat) : (m.unattributed a).unattributed b = m.unattributed (a + b) := by
  have hsat : satAdd64 (satAdd64 m.part.energyUnattr a) b = satAdd64 m.part.energyUnattr (a + b) := by
    unfold satAdd64
    omega
  simp [Machine.unattributed, hsat]

theorem foldl_unattributed (l : List Nat) (m : Machine) (b : Nat) :
    (l.foldl (fun m uj => m.unattributed uj) m).unattributed b = m.unattributed (l.sum + b) := by
  induction l generalizing m with
  | nil => simp
  | cons a l ih => rw [List.foldl_cons, ih, unattributed_unattributed, List.sum_cons, Nat.add_assoc]

/-- With no context an energy per die is no one's. -/
theorem foldl_zipIdx_unattributed (l : List Nat) (m : Machine) (b : Nat) :
    (l.zipIdx.foldl (fun m e => m.unattributed e.1) m).unattributed b = m.unattributed (l.sum + b) := by
  rw [← List.foldl_map (f := Prod.fst) (g := fun (m : Machine) uj => m.unattributed uj), List.zipIdx_map_fst, foldl_unattributed]

theorem meterRunning_of_no_ctx {m : Machine} (h : m.ctx = []) :
    m.meterRunning = { m with part := { m.part with meterMark := m.time.now } } := by
  simp [Machine.meterRunning, h, tkeys]

theorem energyAttribute_of_no_ctx {s : State} (dieUj : List Nat) (hbmUj otherUj : Nat) (h : s.m.ctx = []) :
    Completes (.energyAttribute dieUj hbmUj otherUj) s fun m =>
      m.part.energyUnattr = min (s.m.part.energyUnattr + dieUj.sum + hbmUj + otherUj) 0xFFFFFFFFFFFFFFFF ∧ m.ctx = [] := by
  refine .of_done rfl ?_
  rw [meterRunning_of_no_ctx h, h]
  simp only [tkeys, List.map_nil, List.filter_nil, List.foldl_nil, chargeEnergy_nil, foldl_zipIdx_unattributed, unattributed_unattributed]
  refine ⟨?_, rfl⟩
  simp [Machine.unattributed, satAdd64, Nat.add_assoc]

/-! ### The energy of a context that is alone -/

/-- A context's registers without what the tiles at work write: TILE, and its share per die. -/
def CtxBase.sansTile (b : CtxBase) : CtxBase := { b with meters := { b.meters with tile := 0 }, dieTile := [] }

section
variable {m : Machine} {c : Nat} {r : CtxRec}

theorem ctxAt_of_alone (h : m.ctx = [(c, r)]) : m.ctxAt c = r := by simp [Machine.ctxAt, h, tget_cons]

/-- A change of the only context that leaves it in use. -/
theorem modBase_alone (h : m.ctx = [(c, r)]) (f : CtxBase → CtxBase) (hlife : (f r.base).life ≠ .free) :
    (m.modBase c f).ctx = [(c, { r with base := f r.base })] := by
  have hne : ({ r with base := f r.base } : CtxRec) ≠ CtxRec.reset := fun he => hlife (congrArg (fun x => x.base.life) he)
  have hset : (m.modBase c f).ctx = tset CtxRec.reset m.ctx c { m.ctxAt c with base := f (m.ctxAt c).base } := rfl
  rw [hset, ctxAt_of_alone h, h, tset, if_neg hne]
  simp [tdel, tput]

theorem meterTile_alone (h : m.ctx = [(c, r)]) (hlife : r.base.life = .live) (l n : Nat) :
    ∃ q, (m.meterTile c l n).ctx = [(c, q)] ∧ q.base.sansTile = r.base.sansTile := by
  unfold Machine.meterTile
  exact ⟨_, modBase_alone h _ (by simp [hlife]), rfl⟩

/-- Metering tiles leaves one context alone, its state and its other meters as they were. -/
theorem foldl_meterTile_alone (n : Machine → Nat) (l : List Nat) (h : m.ctx = [(c, r)]) (hlife : r.base.life = .live) :
    ∃ q, (l.foldl (fun m t => m.meterTile c t (n m)) m).ctx = [(c, q)] ∧ q.base.sansTile = r.base.sansTile := by
  induction l generalizing m r with
  | nil => exact ⟨r, h, rfl⟩
  | cons t l ih =>
    obtain ⟨p, hp, hpsans⟩ := meterTile_alone h hlife t (n m)
    obtain ⟨q, hq, hqsans⟩ := ih hp ((congrArg (fun b => b.life) hpsans).trans hlife)
    exact ⟨q, hq, hqsans.trans hpsans⟩

theorem meterRunning_alone (h : m.ctx = [(c, r)]) (hlife : r.base.life = .live) :
    ∃ q, m.meterRunning.ctx = [(c, q)] ∧ q.base.sansTile = r.base.sansTile := by
  unfold Machine.meterRunning
  rw [h]
  simp only [tkeys, List.map_cons, List.map_nil, List.foldl_cons, List.foldl_nil]
  split
  next run _ =>
    split
    · exact foldl_meterTile_alone (fun m => m.ns - max run.releaseAt.toNat m.part.meterMark.toNat) _ h hlife
    · exact ⟨r, h, rfl⟩
  next => exact ⟨r, h, rfl⟩

/-- An energy that falls to one metered context is charged to it whole. -/
theorem chargeEnergy_alone (hmetered : m.metered c = true) {w : Nat} (hw : 0 < w) (uj : Nat) : m.chargeEnergy uj [(c, w)] =
    (m.meter c fun x => { x with energy := satAdd64 x.energy uj }).unattributed 0 := by
  have hdivide : divideEnergy uj [(c, w)] = ([(c, uj)], 0) := by
    simp [divideEnergy, Nat.ne_of_gt hw, Nat.mul_div_cancel _ hw]
  unfold Machine.chargeEnergy
  simp [hdivide, hmetered]

theorem settleBallast_of_metered (hmetered : m.metered c = true) : (m.settleBallast c).ctxAt c =
    { m.ctxAt c with base := { (m.ctxAt c).base with
      meters := { (m.ctxAt c).base.meters with energy := satAdd64 (m.ctxAt c).base.meters.energy (m.ctxAt c).base.ballastUj }
      dieTile := [], hbmMark := (m.ctxAt c).base.meters.hbm, ballastUj := 0 } } := by
  simp [Machine.settleBallast, hmetered]

end

theorem energyAttribute_alone {s : State} {c hbmUj : Nat} {r : CtxRec} (h : s.m.ctx = [(c, r)]) (hlife : r.base.life = .live)
    (hmark : r.base.hbmMark < r.base.meters.hbm) :
    Completes (.energyAttribute [] hbmUj 0) s fun m => (m.ctxAt c).base.meters.energy =
        satAdd64 (satAdd64 r.base.meters.energy hbmUj) r.base.ballastUj ∧ (m.ctxAt c).base.hbmMark = r.base.meters.hbm ∧
      (m.ctxAt c).base.ballastUj = 0 := by
  refine .of_done rfl ?_
  obtain ⟨q, hq, hsans⟩ := meterRunning_alone h hlife
  have hqlife : q.base.life = .live := (congrArg (fun b => b.life) hsans).trans hlife
  have henergy : q.base.meters.energy = r.base.meters.energy := congrArg (fun b => b.meters.energy) hsans
  have hhbm : q.base.meters.hbm = r.base.meters.hbm := congrArg (fun b => b.meters.hbm) hsans
  have hqmark : q.base.hbmMark = r.base.hbmMark := congrArg (fun b => b.hbmMark) hsans
  have hballast : q.base.ballastUj = r.base.ballastUj := congrArg (fun b => b.ballastUj) hsans
  generalize s.m.meterRunning = m at hq ⊢
  have hat : m.ctxAt c = q := ctxAt_of_alone hq
  have hmetered : m.metered c = true := by simp [Machine.metered, hat, hqlife]
  have hkeys : ((tkeys m.ctx).filter fun c => (m.ctxAt c).base.life != .free) = [c] := by simp [hq, tkeys, hat, hqlife]
  have hweight : 0 < (m.ctxAt c).base.meters.hbm - (m.ctxAt c).base.hbmMark := by rw [hat, hhbm, hqmark]; omega
  rw [hkeys]
  simp only [List.zipIdx_nil, List.foldl_nil, List.map_cons, List.map_nil, List.foldl_cons]
  rw [chargeEnergy_alone hmetered hweight, settleBallast_of_metered]
  · simp [hat, henergy, hballast, hhbm]
  · simp [Machine.metered, hat, hqlife]

/-- Settles O29: each outcome of an operation is one equation (`createContext_of_free`, `destroyContext_of_live`, `endDestroy_kept_finalCtx`), a
minute finds each context's page once, and energy is divided among one context or none. -/
theorem contextsAndTheirMeters : Obligations.ContextsAndTheirMeters := by
  unfold Obligations.ContextsAndTheirMeters
  refine ⟨?create, ?refused, ?destroy, ?waits, ?scrub, ?free, ?ignored, ?minute, ?snap, ?unattributed, ?energy⟩
  case create =>
    intro c s h hpart hfunc hstate hlive hfree hroom
    exact ctxCreate_of_free h hpart hfunc hstate hlive hfree hroom
  case refused => exact fun s h => ctxCreate_refused h
  case destroy => exact fun c s h hctx hstart => ctxDestroy_begins_or_answers h hctx hstart
  case waits => exact fun s h hstart => ctxDestroy_waits h hstart
  case scrub => exact fun c s hlife hready => contextScrubComplete_final hlife hready
  case free => exact fun s h => ctxFree_answers h
  case ignored => exact fun s h => ctxOps_ignored h
  case minute => exact fun c s hkeys hlive => minuteLatch_latches hkeys hlive
  case snap => exact fun c s h => ctxSnap_latches h
  case unattributed => exact fun dieUj hbmUj otherUj s h => energyAttribute_of_no_ctx dieUj hbmUj otherUj h
  case energy => exact fun c hbmUj r s h hlife hmark => energyAttribute_alone h hlife hmark

end Sys2Proof.Machine

/-! ## Slices at their members: events, destruction, scrubs (06 R195, R198, R199, R205, R208) -/

namespace Sys2Proof.Machine

/-! ### The event ring and the marks of an event -/

section
variable (m : Machine) (e : SliceEvent)

variable {m e} in
theorem writeEvent_of_room (hsize : m.part.evq.size ≠ 0) (hroom : ringFull m.part.evq.size m.part.evq.head m.part.evq.tail 0 = false) :
    (m.writeEvent e).part = { m.part with evq := { m.part.evq with tail := (m.part.evq.tail + 1) % m.part.evq.size } } ∧
    (m.writeEvent e).hostMem =
      (m.hostWrite (m.part.evq.base.toNat + 32 * (m.part.evq.tail % m.part.evq.size)) (eventBytes e)).hostMem ∧
    (m.writeEvent e).hst = { m.hst with flushCnt := satAdd32 m.hst.flushCnt 1 } := by
  unfold Machine.writeEvent
  dsimp only
  rw [if_neg hsize, if_neg (by rw [hroom]; decide), interrupt_eq]
  exact ⟨rfl, rfl, rfl⟩

variable {m e} in
theorem writeEvent_of_full (hsize : m.part.evq.size ≠ 0) (hfull : ringFull m.part.evq.size m.part.evq.head m.part.evq.tail 0 = true) :
    (m.writeEvent e).part = { m.part with evq := { m.part.evq with ovf := true } } ∧
    (m.writeEvent e).hostMem = m.hostMem ∧ (m.writeEvent e).hst = m.hst := by
  unfold Machine.writeEvent
  dsimp only
  rw [if_neg hsize, if_pos hfull, Machine.raise, raiseAs_fields]
  exact ⟨rfl, rfl, rfl⟩

/-- An event record leaves the partitions' records. -/
theorem writeEvent_parts : (m.writeEvent e).part.parts = m.part.parts := by
  unfold Machine.writeEvent
  dsimp only
  split
  · rfl
  · split
    · rw [Machine.raise, raiseAs_fields]
    · rw [interrupt_eq]
      rfl

@[simp] theorem writeEvent_partAt (i : Nat) : (m.writeEvent e).partAt i = m.partAt i :=
  congrArg (tget PartRec.reset · i) (writeEvent_parts m e)

@[simp] theorem writeEvent_ctx : (m.writeEvent e).ctx = m.ctx :=
  Kept.ctx (W := [.part, .ttl, .hst, .msix, .hostMem, .out]) (by apply writeEvent_kept .refl <;> decide) (by decide)

@[simp] theorem writeEvent_ctxAt (c : Nat) : (m.writeEvent e).ctxAt c = m.ctxAt c := congrArg (tget CtxRec.reset · c) (writeEvent_ctx m e)

@[simp] theorem localEvent_partAt (code : Nat) (detail : BitVec 8) (tag : Nat) (tenant : Word) (i : Nat) :
    (m.localEvent code detail tag tenant).partAt i = m.partAt i := writeEvent_partAt m _ i

end

/-- A context page with an event's bit set. -/
def CtxRec.marked (r : CtxRec) (b : Nat) : CtxRec := { r with base := { r.base with event := setBit r.base.event b true } }

theorem setBit_setBit (w : Word) (b : Nat) : setBit (setBit w b true) b true = setBit w b true := by
  simp [setBit, BitVec.or_assoc]

theorem bitAt_setBit {w : Word} {b : Nat} (h : b < 32) : bitAt (setBit w b true) b = true := by
  rw [setBit_written w b true h b, if_pos rfl]

/-- Every bit of Table 6.9 is one of CTX_EVENT. -/
theorem eventBit_lt {code b : Nat} (h : eventBit code = some b) : b < 32 := by
  unfold eventBit at h
  split at h
  · cases h
    omega
  · split at h
    · cases h
      decide
    · cases h

/-- Mark one context if it is LIVE in the slice. -/
def Machine.markOne (m : Machine) (tag b c : Nat) : Machine :=
  if (m.ctxAt c).base.life = .live ∧ (m.ctxAt c).base.tag = tag then
    (m.modBase c fun r => { r with event := setBit r.event b true }).ctxInterrupt c 3
  else m

section
variable (m : Machine) (tag b : Nat)

@[simp] theorem ctxInterrupt_ctxAt (c k x : Nat) : (m.ctxInterrupt c k).ctxAt x = m.ctxAt x :=
  congrArg (tget CtxRec.reset · x) (Kept.ctx (W := [.msix, .out]) (by apply ctxInterrupt_kept .refl <;> decide) (by decide))

theorem markOne_ctxAt (c x : Nat) : (m.markOne tag b c).ctxAt x =
    if x = c ∧ (m.ctxAt x).base.life = .live ∧ (m.ctxAt x).base.tag = tag then (m.ctxAt x).marked b else m.ctxAt x := by
  unfold Machine.markOne
  by_cases hx : x = c
  · subst hx
    split
    next h => simp [h, CtxRec.marked]
    next h => simp [h]
  · split <;> simp [hx]

theorem foldl_markOne_ctxAt (l : List Nat) (x : Nat) : (l.foldl (fun m c => m.markOne tag b c) m).ctxAt x =
    if x ∈ l ∧ (m.ctxAt x).base.life = .live ∧ (m.ctxAt x).base.tag = tag then (m.ctxAt x).marked b else m.ctxAt x := by
  induction l generalizing m with
  | nil => simp
  | cons c l ih =>
    rw [List.foldl_cons, ih, markOne_ctxAt]
    by_cases hlive : (m.ctxAt x).base.life = .live ∧ (m.ctxAt x).base.tag = tag
    · by_cases hx : x = c
      · simp [hx.symm, hlive, CtxRec.marked, setBit_setBit]
      · simp [hx, hlive]
    · simp [hlive]

/-- An event marks every LIVE context of its slice, and no other (06 R195). -/
theorem markEvent_of_bit {code : Nat} (hbit : eventBit code = some b) (x : Nat) : (m.markEvent tag code).ctxAt x =
    if (m.ctxAt x).base.life = .live ∧ (m.ctxAt x).base.tag = tag then (m.ctxAt x).marked b else m.ctxAt x := by
  have hfold : m.markEvent tag code = (tkeys m.ctx).foldl (fun m c => m.markOne tag b c) m := by
    unfold Machine.markEvent
    rw [hbit]
    rfl
  rw [hfold, foldl_markOne_ctxAt]
  by_cases hlive : (m.ctxAt x).base.life = .live ∧ (m.ctxAt x).base.tag = tag
  · have hmem : x ∈ tkeys m.ctx := mem_tkeys_of_not_free (by rw [hlive.1]; decide)
    simp [hmem]
  · simp [hlive]

/-- A mark leaves each context's state and tag. -/
theorem markEvent_life (code x : Nat) : ((m.markEvent tag code).ctxAt x).base.life = (m.ctxAt x).base.life := by
  cases hbit : eventBit code with
  | none => rw [show m.markEvent tag code = m by unfold Machine.markEvent; rw [hbit]]
  | some b =>
    rw [markEvent_of_bit m tag b hbit]
    split <;> rfl

theorem markEvent_tag (code x : Nat) : ((m.markEvent tag code).ctxAt x).base.tag = (m.ctxAt x).base.tag := by
  cases hbit : eventBit code with
  | none => rw [show m.markEvent tag code = m by unfold Machine.markEvent; rw [hbit]]
  | some b =>
    rw [markEvent_of_bit m tag b hbit]
    split <;> rfl

end

/-! ### What a fence's start leaves of the contexts' states

Cutting a context off from its units ends its step, which may begin a collective operation of a context (10 R314) and so meter the bytes that it
injects; no context's state changes on the way. -/

/-- Every context's state is as it was. -/
structure SameLives (m a : Machine) : Prop where
  life : ∀ c, (a.ctxAt c).base.life = (m.ctxAt c).base.life

section
variable {m a b : Machine}

theorem SameLives.refl : SameLives m m := ⟨fun _ => rfl⟩

theorem SameLives.trans (h : SameLives m a) (h' : SameLives a b) : SameLives m b := ⟨fun c => (h'.life c).trans (h.life c)⟩

/-- An operation that does not write the contexts keeps their states. -/
theorem SameLives.of_kept {W : List Area} (h : Kept W m a) (hw : Area.ctx ∉ W) : SameLives m a :=
  ⟨fun c => congrArg (fun t => (tget CtxRec.reset t c).base.life) (h.ctx hw)⟩

theorem SameLives.ite {p : Prop} [Decidable p] (h : SameLives m a) (h' : SameLives m b) : SameLives m (if p then a else b) := by
  split <;> assumption

theorem SameLives.iteFst {β : Type} {p : Prop} [Decidable p] {x y : Machine × β} (h : SameLives m x.1) (h' : SameLives m y.1) :
    SameLives m (if p then x else y).1 := by
  split <;> assumption

theorem SameLives.ofFst {β : Type} {e : Machine × β} {x : Machine} {y : β} (he : e = (x, y)) (h : SameLives m e.1) : SameLives m x := by
  rw [he] at h
  exact h

theorem SameLives.foldl {β : Type} {f : Machine → β → Machine} (hf : ∀ x e, SameLives x (f x e)) (l : List β) (m : Machine) :
    SameLives m (l.foldl f m) := by
  induction l generalizing m with
  | nil => exact .refl
  | cons e l ih => exact (hf m e).trans (ih (f m e))

variable (m)

theorem modBase_sameLives (c : Nat) {f : CtxBase → CtxBase} (hf : ∀ b, (f b).life = b.life) : SameLives m (m.modBase c f) :=
  ⟨fun x => by
    rw [modBase_ctxAt]
    split
    next h => rw [h]; exact hf _
    next => rfl⟩

theorem modCtx_sameLives (c : Nat) {f : CtxRec → CtxRec} (hf : ∀ r, (f r).base = r.base) : SameLives m (m.modCtx c f) :=
  ⟨fun x => by
    rw [modCtx_ctxAt]
    split
    next h => rw [h, hf]
    next => rfl⟩

theorem modXc_sameLives (c : Nat) (f : Xc → Xc) : SameLives m (m.modXc c f) := modCtx_sameLives m c fun _ => rfl

theorem meterLink_sameLives (c n : Nat) : SameLives m (m.meterLink c n) := by
  unfold Machine.meterLink Machine.meter
  exact modBase_sameLives m c fun _ => rfl

theorem meterTile_sameLives (c l n : Nat) : SameLives m (m.meterTile c l n) := modBase_sameLives m c fun _ => rfl

theorem inject_sameLives (d type : Nat) (last : Bool) (dst : NodeId) (tag stream txn gen opx : Nat) (payload : List Byte) :
    SameLives m (m.inject d type last dst tag stream txn gen opx payload) :=
  .of_kept (W := [.fwd, .txSeq]) (by apply inject_kept .refl <;> decide) (by decide)

theorem luffStep_sameLives (n : Nat) : SameLives m (m.luffStep n) := ⟨fun _ => rfl⟩

theorem sendColl_sameLives (s : Nat) (r : CollRec) (dst : NodeId) (round : Nat) (bs : List Byte) :
    SameLives m (m.sendColl s r dst round bs) :=
  SameLives.foldl (fun x _ => ((inject_sameLives x _ _ _ _ _ _ _ _ _ _).trans (meterLink_sameLives _ _ _)).trans (luffStep_sameLives _ _)) _ m

theorem senseStep_sameLives (s : Nat) (r : CollRec) (i : Nat) : SameLives m (m.senseStep s r i).1 := by
  unfold Machine.senseStep
  split
  · exact .refl
  · dsimp only
    split
    · exact sendColl_sameLives m _ _ _ _ _
    · split
      · split
        · exact .refl
        · exact .refl
      · exact .refl

theorem treeStep_sameLives (s : Nat) (r : CollRec) : SameLives m (m.treeStep s r).1 := by
  unfold Machine.treeStep
  extract_lets +onlyGivenNames len
  split
  next up down _ =>
  extract_lets +onlyGivenNames toChildren others q
  have hchildren (x : Machine) (r : CollRec) : SameLives x (toChildren x r) :=
    SameLives.foldl (fun y c => sendColl_sameLives y s r c down r.data) r.children x
  split
  · split
    · exact hchildren m r
    · split
      · exact .refl
      · exact hchildren m _
  · split
    next x _ hx =>
    have hsent : SameLives m x := by
      refine .ofFst hx (.iteFst (SameLives.foldl (fun y o => ?_) _ m) .refl)
      exact sendColl_sameLives y s r o.1 0 _
    exact .iteFst hsent hsent
  · split
    next x y hx =>
    have hsent : SameLives m x := by
      refine .ofFst hx (.iteFst ?_ .refl)
      dsimp only
      split
      · exact sendColl_sameLives m s _ _ up _
      · exact .refl
    refine .iteFst hsent (.iteFst hsent ?_)
    split
    · exact hsent.trans (hchildren x y)
    · split
      · exact hsent
      · exact hsent.trans (hchildren x _)

theorem collComplete_sameLives (s : Nat) (r : CollRec) : SameLives m (m.collComplete s r) :=
  .of_kept (W := [.coll, .tiles]) (by apply collComplete_kept .refl <;> decide) (by decide)

theorem setColl_sameLives (s : Nat) (r : Option CollRec) : SameLives m (m.setColl s r) := ⟨fun _ => rfl⟩

theorem foldl_senseStep_sameLives (s : Nat) (l : List Nat) (p : Machine × CollRec) :
    SameLives p.1 (l.foldl (fun p i => p.1.senseStep s p.2 i) p).1 := by
  induction l generalizing p with
  | nil => exact .refl
  | cons i l ih => exact (senseStep_sameLives p.1 s p.2 i).trans (ih _)

theorem collAdvance_sameLives (s : Nat) (r : CollRec) (fuel : Nat) : SameLives m (m.collAdvance s r fuel) := by
  induction fuel generalizing m r with
  | zero => exact setColl_sameLives m s _
  | succ fuel ih =>
    unfold Machine.collAdvance
    refine .ite (setColl_sameLives m s _) (.ite (collComplete_sameLives m s r) (.ite (setColl_sameLives m s _) (.ite ?ring ?tree)))
    case ring =>
      refine .ite (collComplete_sameLives m s r) (.ite (setColl_sameLives m s _) ?_)
      exact (foldl_senseStep_sameLives s (List.range r.senses.length) (m, r)).trans (ih _ _)
    case tree =>
      have htree := treeStep_sameLives m s r
      exact .ite (htree.trans (collComplete_sameLives _ s _)) (htree.trans (setColl_sameLives _ s _))

theorem collFree_sameLives (s k : Nat) : SameLives m (m.collFree s k) := by
  unfold Machine.collFree
  split
  · exact .ite (collAdvance_sameLives m s _ _) (setColl_sameLives m s _)
  · exact .refl

theorem endSlots_sameLives (c : Nat) : SameLives m (m.endSlots c) := by
  unfold Machine.endSlots
  split
  · refine SameLives.foldl (fun x p => ?_) _ m
    split
    · refine .ite ?_ (.ite ?_ (.ite ?_ .refl))
      · exact ⟨fun _ => rfl⟩
      · exact .of_kept (W := [.fwd, .txSeq, .strm]) (by apply freeSlots_kept .refl <;> decide) (by decide)
      · split
        · exact collFree_sameLives x _ _
        · exact .refl
    · exact .refl
  · exact .refl

theorem endStep_sameLives (c : Nat) : SameLives m (m.endStep c) := by
  have hreef {x y : Machine} (h : Kept [.reef] x y) : SameLives x y := .of_kept h (by decide)
  have hballast (x : Machine) : SameLives x (if ((x.xc c).run.map (·.released)).getD false then x.reefFall c else x.reefCancel c) :=
    .ite (hreef (reefFall_kept .refl c (by decide))) (hreef (reefCancel_kept .refl c (by decide)))
  exact (((endSlots_sameLives m c).trans (hballast _)).trans (modXc_sameLives _ c _)).trans (hreef (reefIdle_kept .refl _ (by decide)))

theorem stopTile_sameLives (c : Nat) (rel : Option Nat) (l : Nat) : SameLives m (m.stopTile c rel l) := by
  unfold Machine.stopTile
  exact (meterTile_sameLives m c l _).trans ⟨fun _ => rfl⟩

theorem stopTiles_sameLives (c : Nat) : SameLives m (m.stopTiles c) := SameLives.foldl (fun x l => stopTile_sameLives x c _ l) _ m

theorem cutContext_sameLives (c : Nat) : SameLives m (m.cutContext c) := by
  unfold Machine.cutContext
  refine SameLives.trans (.of_kept (W := [.out]) (reportFlows_kept .refl c (by decide)) (by decide)) ?_
  refine (stopTiles_sameLives _ c).trans ?_
  refine SameLives.trans (.ite ?_ .refl) (SameLives.foldl (fun x n => ?_) _ _)
  · exact SameLives.trans (.of_kept (W := [.strm]) (returnGates_kept .refl c (by decide)) (by decide)) (endStep_sameLives _ c)
  · exact .of_kept (W := [.fwd, .txSeq, .strm]) (by apply unbindStream_kept .refl <;> decide) (by decide)

/-- The fence of a DESTROY ends its own context and leaves every other one's state (06 R197). -/
theorem startDestroy_life (c : CtxId) (x : Nat) :
    ((m.startDestroy c).ctxAt x).base.life = if x = c.val then .ending else (m.ctxAt x).base.life := by
  have hcut : SameLives m (if m.fenced c then m else (m.cutContext c).modCtx c fun r => { r with rst := r.rst.advance }) :=
    .ite .refl ((cutContext_sameLives m c).trans (modCtx_sameLives _ c fun _ => rfl))
  rw [startDestroy_ctxAt, modBase_ctxAt]
  split
  · rfl
  · exact hcut.life x

theorem foldl_startDestroy_life (l : List CtxId) (c : CtxId) : ((l.foldl (fun m c => m.startDestroy c) m).ctxAt c).base.life =
    if c ∈ l then .ending else (m.ctxAt c).base.life := by
  induction l generalizing m with
  | nil => simp
  | cons x l ih =>
    rw [List.foldl_cons, ih, startDestroy_life]
    by_cases hx : c = x
    · simp [hx]
    · simp [hx, Fin.val_inj]

variable {m} in
/-- SLICE_DESTROYING ends every LIVE context of the slice (06 R198). -/
theorem destroyAll_ends {c tag : Nat} (hc : c < 64) (hlive : (m.ctxAt c).base.life = .live) (htag : (m.ctxAt c).base.tag = tag) :
    ((m.destroyAll tag).ctxAt c).base.life = .ending := by
  have hmem : (⟨c, hc⟩ : CtxId) ∈ m.liveOf tag := List.mem_filter.mpr ⟨List.mem_finRange _, by simp [hlive, htag]⟩
  exact (foldl_startDestroy_life m (m.liveOf tag) ⟨c, hc⟩).trans (if_pos hmem)

end

/-! ### What SLICE_EVENT_RECEIVE does -/

section
variable (m : Machine) (e : SliceEvent)

/-- The machine as an event's record is written and its mark set. -/
def Machine.eventTaken : Machine := (m.writeEvent e).markEvent e.tag e.code.toNat

theorem eventTaken_kept : Kept [.ctx, .msix, .out] (m.writeEvent e) (m.eventTaken e) := by
  unfold Machine.eventTaken
  apply markEvent_kept .refl <;> decide

theorem eventTaken_partAt (i : Nat) : (m.eventTaken e).partAt i = m.partAt i :=
  (congrArg (fun p : Part => tget PartRec.reset p.parts i) ((eventTaken_kept m e).part (by decide))).trans (writeEvent_partAt m e i)

/-- The partition of a tag is found in the partitions' records alone. -/
theorem partOf_congr {a m : Machine} (h : ∀ i, a.partAt i = m.partAt i) (tag : Nat) : a.partOf tag = m.partOf tag := by
  simp [Machine.partOf, Machine.boundTo, h]

theorem eventTaken_partOf (tag : Nat) : (m.eventTaken e).partOf tag = m.partOf tag := partOf_congr (eventTaken_partAt m e) tag

theorem eventTaken_life (c : Nat) : ((m.eventTaken e).ctxAt c).base.life = (m.ctxAt c).base.life := by
  rw [Machine.eventTaken, markEvent_life, writeEvent_ctxAt]

theorem eventTaken_tag (c : Nat) : ((m.eventTaken e).ctxAt c).base.tag = (m.ctxAt c).base.tag := by
  rw [Machine.eventTaken, markEvent_tag, writeEvent_ctxAt]

variable {m e} in
theorem eventTaken_marks {c b : Nat} (hbit : eventBit e.code.toNat = some b) (hlive : (m.ctxAt c).base.life = .live)
    (htag : (m.ctxAt c).base.tag = e.tag) : bitAt ((m.eventTaken e).ctxAt c).base.event b = true := by
  rw [Machine.eventTaken, markEvent_of_bit _ _ _ hbit, writeEvent_ctxAt, if_pos ⟨hlive, htag⟩]
  exact bitAt_setBit (eventBit_lt hbit)

end

/-- What a member does on an event of a slice that it has a partition of (06 R195, R196, R198; 07 R234). -/
def Machine.actOnEvent (m : Machine) (e : SliceEvent) : Machine :=
  match m.partOf e.tag with
  | none => m
  | some i =>
    if e.code = 0x01 then m.modPart i fun p => { p with live := true }
    else if e.code = 0x06 then m.destroyPart i e.tag
    else if e.code = 0x03 ∨ e.code = 0x04 ∨ e.code = 0x05 then (m.liveOf e.tag).foldl (fun m c => m.reportFlows c.val) m
    else m

section
variable {s : State} {e : SliceEvent} {i : Nat} {m : Machine}

theorem exec_sliceEventReceive (e : SliceEvent) (s : State) :
    exec (.sliceEventReceive e) s = done s ((s.m.eventTaken e).actOnEvent e) := rfl

/-- An event other than SLICE_DESTROYING writes no more than the partition that SLICE_ACTIVE opens, and reports flows. -/
theorem actOnEvent_other (hcode : e.code ≠ 0x06) :
    Kept [.part, .out] m (m.actOnEvent e) ∧ (m.actOnEvent e).part.evq = m.part.evq := by
  unfold Machine.actOnEvent
  split
  · exact ⟨.refl, rfl⟩
  · split
    · exact ⟨modPart_kept .refl _ _ (by decide), rfl⟩
    · split
      · have hreports : Kept [.out] m ((m.liveOf e.tag).foldl (fun m c => m.reportFlows c.val) m) :=
          Kept.foldl .refl fun _ c h => reportFlows_kept h c.val (by decide)
        exact ⟨hreports.mono (by decide), congrArg Part.evq (hreports.part (by decide))⟩
      · exact ⟨.refl, rfl⟩

theorem actOnEvent_active (hcode : e.code = 0x01) (hpart : m.partOf e.tag = some i) :
    m.actOnEvent e = m.modPart i fun p => { p with live := true } := by
  unfold Machine.actOnEvent
  rw [hpart]
  exact if_pos hcode

theorem actOnEvent_destroying (hcode : e.code = 0x06) (hpart : m.partOf e.tag = some i) : m.actOnEvent e = m.destroyPart i e.tag := by
  unfold Machine.actOnEvent
  rw [hpart]
  exact (if_neg (by rw [hcode]; decide)).trans (if_pos hcode)

theorem destroyPart_of_used (hstate : (m.partAt i).state ≠ .scrubbing) (tag : Nat) : m.destroyPart i tag =
    ((m.modPart i fun p => { p with state := .draining, live := false }).destroyAll tag).reportFinal tag := if_neg hstate

theorem destroyAll_partAt (m : Machine) (tag j : Nat) : (m.destroyAll tag).partAt j = m.partAt j :=
  congrArg (fun p : Part => tget PartRec.reset p.parts j) (Kept.part (W := [.fwd, .txSeq, .coll, .tiles, .strm, .luff, .ctx, .reef, .out])
    (by apply destroyAll_kept .refl <;> decide) (by decide))

theorem reportFinal_kept_out (m : Machine) (tag : Nat) : Kept [.out] m (m.reportFinal tag) := reportFinal_kept .refl tag (by decide)

@[simp] theorem reportFinal_partAt (m : Machine) (tag j : Nat) : (m.reportFinal tag).partAt j = m.partAt j :=
  congrArg (fun p : Part => tget PartRec.reset p.parts j) ((reportFinal_kept_out m tag).part (by decide))

@[simp] theorem reportFinal_ctxAt (m : Machine) (tag c : Nat) : (m.reportFinal tag).ctxAt c = m.ctxAt c :=
  congrArg (tget CtxRec.reset · c) ((reportFinal_kept_out m tag).ctx (by decide))

/-- An event that finds room: its record, one flush read, and its bit in the slice's LIVE contexts. -/
theorem sliceEvent_written (hcode : e.code ≠ 0x06) (hsize : s.m.part.evq.size ≠ 0)
    (hroom : ringFull s.m.part.evq.size s.m.part.evq.head s.m.part.evq.tail 0 = false) : Completes (.sliceEventReceive e) s fun m =>
      m.part.evq = { s.m.part.evq with tail := (s.m.part.evq.tail + 1) % s.m.part.evq.size } ∧
      m.hostMem = (s.m.hostWrite (s.m.part.evq.base.toNat + 32 * (s.m.part.evq.tail % s.m.part.evq.size)) (eventBytes e)).hostMem ∧
      m.hst = { s.m.hst with flushCnt := satAdd32 s.m.hst.flushCnt 1 } ∧
      (∀ c b, eventBit e.code.toNat = some b → (s.m.ctxAt c).base.life = .live → (s.m.ctxAt c).base.tag = e.tag →
        bitAt (m.ctxAt c).base.event b = true) := by
  obtain ⟨hpart, hmem, hhst⟩ := writeEvent_of_room (e := e) hsize hroom
  have htaken := eventTaken_kept s.m e
  obtain ⟨hacted, hevq⟩ := actOnEvent_other (m := s.m.eventTaken e) hcode
  refine .of_done (exec_sliceEventReceive e s) ⟨?_, ?_, ?_, fun c b hbit hlive htag => ?_⟩
  · rw [hevq, htaken.part (by decide), hpart]
  · rw [hacted.hostMem (by decide), htaken.hostMem (by decide), hmem]
  · rw [hacted.hst (by decide), htaken.hst (by decide), hhst]
  · rw [Machine.ctxAt, hacted.ctx (by decide)]
    exact eventTaken_marks hbit hlive htag

theorem sliceEvent_discarded (hcode : e.code ≠ 0x06) (hsize : s.m.part.evq.size ≠ 0)
    (hfull : ringFull s.m.part.evq.size s.m.part.evq.head s.m.part.evq.tail 0 = true) : Completes (.sliceEventReceive e) s fun m =>
      m.part.evq = { s.m.part.evq with ovf := true } ∧ m.hostMem = s.m.hostMem ∧ m.hst = s.m.hst := by
  obtain ⟨hpart, hmem, hhst⟩ := writeEvent_of_full (e := e) hsize hfull
  have htaken := eventTaken_kept s.m e
  obtain ⟨hacted, hevq⟩ := actOnEvent_other (m := s.m.eventTaken e) hcode
  refine .of_done (exec_sliceEventReceive e s) ⟨?_, ?_, ?_⟩
  · rw [hevq, htaken.part (by decide), hpart]
  · rw [hacted.hostMem (by decide), htaken.hostMem (by decide), hmem]
  · rw [hacted.hst (by decide), htaken.hst (by decide), hhst]

theorem sliceEvent_destroying (hcode : e.code = 0x06) (hpart : s.m.partOf e.tag = some i) (hstate : (s.m.partAt i).state ≠ .scrubbing) :
    Completes (.sliceEventReceive e) s fun m => (m.partAt i).state = .draining ∧ (m.partAt i).live = false ∧
      ∀ c < 64, (s.m.ctxAt c).base.life = .live → (s.m.ctxAt c).base.tag = e.tag → (m.ctxAt c).base.life = .ending := by
  refine .of_done (exec_sliceEventReceive e s) ?_
  rw [actOnEvent_destroying hcode ((eventTaken_partOf s.m e e.tag).trans hpart),
    destroyPart_of_used (by rw [eventTaken_partAt]; exact hstate)]
  refine ⟨?_, ?_, fun c hc hlive htag => ?_⟩
  · rw [reportFinal_partAt, destroyAll_partAt, modPart_partAt, if_pos rfl]
  · rw [reportFinal_partAt, destroyAll_partAt, modPart_partAt, if_pos rfl]
  · rw [reportFinal_ctxAt]
    exact destroyAll_ends hc ((eventTaken_life s.m e c).trans hlive) ((eventTaken_tag s.m e c).trans htag)

theorem sliceEvent_active (hcode : e.code = 0x01) (hpart : s.m.partOf e.tag = some i) :
    Completes (.sliceEventReceive e) s fun m => m.partAt i = { s.m.partAt i with live := true } := by
  refine .of_done (exec_sliceEventReceive e s) ?_
  rw [actOnEvent_active hcode ((eventTaken_partOf s.m e e.tag).trans hpart), modPart_partAt, if_pos rfl, eventTaken_partAt]

end

/-! ### The master's release of a slice -/

/-- The members that have reported, with one more (06 R198). -/
def reported (l : List NodeId) (n : NodeId) : List NodeId := if l.contains n then l else l ++ [n]

theorem contains_reported {l : List NodeId} {n x : NodeId} (h : x = n ∨ l.contains x = true) : (reported l n).contains x = true := by
  unfold reported
  split
  next hn => rcases h with rfl | h <;> assumption
  next => rcases h with rfl | h <;> simp_all

/-- Two slice records of one place, which name the same members and the same index. -/
structure SamePlace (r q : SliceRec) : Prop where
  origin : q.origin = r.origin
  ext : q.ext = r.ext
  index : q.index = r.index

section
variable {m : Machine} {t : Nat} {n : NodeId}

theorem sliceMembers_setSlice {q : SliceRec} (h : SamePlace (m.sliceAt t) q) : (m.setSlice t q).sliceMembers t = m.sliceMembers t := by
  have hblock : (m.setSlice t q).sliceBlock t = m.sliceBlock t := by
    simp only [Machine.sliceBlock, setSlice_sliceAt, if_true, h.origin, h.ext]
    rfl
  rw [Machine.sliceMembers, hblock, Machine.sliceMembers]

theorem stillBound_setSlice {q : SliceRec} (h : SamePlace (m.sliceAt t) q) (x : NodeId) : (m.setSlice t q).stillBound t x = m.stillBound t x := by
  simp only [Machine.stillBound, setSlice_sliceAt, if_true, h.index]
  rfl

/-- The machine as a member's contexts are known to be FINAL. -/
def Machine.finalKnown (m : Machine) (t : Nat) (n : NodeId) : Machine :=
  m.setSlice t { m.sliceAt t with finals := reported (m.sliceAt t).finals n }

/-- The machine as the slice is RELEASING. -/
def Machine.sliceReleasing (m : Machine) (t : Nat) (n : NodeId) : Machine :=
  (m.finalKnown t n).setSlice t { (m.finalKnown t n).sliceAt t with state := .releasing }

theorem contextsFinal_releases (hmaster : m.isMaster = true) (hstate : (m.sliceAt t).state = .destroying)
    (hlast : ∀ x ∈ m.sliceMembers t, m.reachable x = true → m.stillBound t x = true → x = n ∨ (m.sliceAt t).finals.contains x = true) :
    m.contextsFinal t n = (m.sliceReleasing t n).commitThen
      [.send (m.sliceMembers t) (.releaseBegin t), sliceEnd 0 [], .nextEpoch .none [.sliceReleased t]] := by
  have hplace : SamePlace (m.sliceAt t) { m.sliceAt t with finals := reported (m.sliceAt t).finals n } := ⟨rfl, rfl, rfl⟩
  have hmembers : (m.finalKnown t n).sliceMembers t = m.sliceMembers t := sliceMembers_setSlice hplace
  have hat : (m.finalKnown t n).sliceAt t = { m.sliceAt t with finals := reported (m.sliceAt t).finals n } := by
    rw [Machine.finalKnown, setSlice_sliceAt, if_pos rfl]
  have hleft : ((m.finalKnown t n).sliceMembers t).filter (fun x => (m.finalKnown t n).reachable x && (m.finalKnown t n).stillBound t x &&
      !(((m.finalKnown t n).sliceAt t).finals.contains x)) = [] := by
    rw [List.filter_eq_nil_iff, hmembers]
    intro x hx hleft
    simp only [Bool.and_eq_true, Bool.not_eq_true', hat] at hleft
    obtain ⟨⟨hreach, hbound⟩, hnot⟩ := hleft
    have hbound' : m.stillBound t x = true := (stillBound_setSlice hplace x).symm.trans hbound
    exact absurd (contains_reported (hlast x hx hreach hbound')) (by rw [hnot]; decide)
  unfold Machine.contextsFinal
  dsimp only
  rw [if_pos hmaster, if_pos hstate]
  change (m.finalKnown t n).tryRelease t = _
  unfold Machine.tryRelease
  dsimp only
  rw [if_pos ⟨by rw [hat]; exact hstate, by rw [hleft]; rfl⟩, hmembers]
  rfl

theorem finishCmd_shape (m : Machine) (status : Nat) (res : List Word) (data : List Byte) : ∃ fin out, m.finishCmd status res data =
    { m with hly := { m.hly with cur := none, finished := fin }, out := out } := by
  unfold Machine.finishCmd
  split
  next hcur => exact ⟨m.hly.finished, m.out, by rw [← hcur]⟩
  next c hcur =>
    dsimp only
    split
    · exact ⟨m.hly.finished, _, rfl⟩
    · exact ⟨_, m.out, rfl⟩

/-- The machine with committed actions to carry out. -/
def Machine.awaiting (m : Machine) (acts : List (Nat × MasterAct)) : Machine :=
  { m with hly := { m.hly with repl := { m.hly.repl with actions := acts } } }

theorem serveN_awaiting (hmaster : m.isMaster = true) (hstandby : m.hly.reg.standby = 0xFFFF) {seq : Nat} {act : MasterAct}
    {rest : List (Nat × MasterAct)} {a : Machine} (hact : (m.awaiting rest).act act = a.awaiting rest) (k : Nat) :
    (m.awaiting ((seq, act) :: rest)).serveN (k + 1) = (a.awaiting rest).serveN k := by
  rw [serveN_act (m := m.awaiting ((seq, act) :: rest)) hmaster hstandby rfl]
  exact congrArg (·.serveN k) hact

/-- A master with no standby carries out the three actions of a release: the order to scrub, the command's end, and the release epoch. -/
theorem serveN_release (hmaster : m.isMaster = true) (hstandby : m.hly.reg.standby = 0xFFFF) (hwait : m.hly.waiting = []) (seq : Nat)
    (dsts : List NodeId) (msg : Mgmt) (after : List AfterSwitch) (k : Nat) :
    let a := (m.awaiting [(seq, .send dsts msg), (seq, sliceEnd 0 []), (seq, .nextEpoch .none after)]).serveN (k + 3)
    a.slc = m.slc ∧ a.hly.work.pendingAfter = m.hly.work.pendingAfter ++ after ∧ a.hly.cur = none := by
  let sent : Machine := { m with out := m.out ++ dsts.map fun d => Out.mgmt d msg }
  have hsent (acts) : (m.awaiting acts).act (.send dsts msg) = sent.awaiting acts := foldl_tell _ msg dsts
  obtain ⟨fin, out, hfinish⟩ := finishCmd_shape (sent.awaiting [(seq, .nextEpoch .none after)]) 0 [BitVec.ofNat 32 0] []
  let ended : Machine := { sent with hly := { sent.hly with cur := none, finished := fin }, out := out }
  have hended : (sent.awaiting [(seq, .nextEpoch .none after)]).act (sliceEnd 0 []) = ended.awaiting [(seq, .nextEpoch .none after)] := hfinish
  let collected : Machine := ended.modWork fun w => { w with
    pendingAfter := w.pendingAfter ++ after, changes := w.changes ++ [.none], phase := if w.phase = .idle then .collecting else w.phase }
  have hepoch : (ended.awaiting []).act (.nextEpoch .none after) = collected.awaiting [] :=
    nextChange_of_master (m := ended.awaiting []) hmaster .none after
  dsimp only
  rw [serveN_awaiting hmaster hstandby (hsent _), serveN_awaiting (m := sent) hmaster hstandby hended,
    serveN_awaiting (m := ended) hmaster hstandby hepoch, serveN_idle (m := collected.awaiting []) rfl hwait]
  exact ⟨rfl, rfl, rfl⟩

theorem commitThen_alone (hstandby : m.hly.reg.standby = 0xFFFF) (hact : m.hly.repl.actions = []) (acts : List MasterAct) :
    m.commitThen acts = m.committedAlone.awaiting (acts.map fun a => (m.hly.repl.seq + 1, a)) := by
  rw [commitThen_of_no_standby hstandby, hact]
  rfl

/-- What is left once a master with no standby and nothing else to do has committed a release. -/
theorem serve_release (hmaster : m.isMaster = true) (hstandby : m.hly.reg.standby = 0xFFFF) (hact : m.hly.repl.actions = [])
    (hwait : m.hly.waiting = []) (dsts : List NodeId) (msg : Mgmt) (after : List AfterSwitch) :
    let a := (m.commitThen [.send dsts msg, sliceEnd 0 [], .nextEpoch .none after]).serve
    a.slc = m.slc ∧ a.hly.work.pendingAfter = m.hly.work.pendingAfter ++ after ∧ a.hly.cur = none := by
  obtain ⟨k, hk⟩ : ∃ k, 3 + (m.hly.waiting.length + 1) * (m.slc.recs.length + 16) = k + 3 := ⟨_, Nat.add_comm _ _⟩
  have hserve (acts : List (Nat × MasterAct)) (hlen : acts.length = 3) :
      (m.committedAlone.awaiting acts).serve = (m.committedAlone.awaiting acts).serveN (k + 3) := by
    rw [← hk, ← hlen]
    rfl
  rw [commitThen_alone hstandby hact, hserve _ rfl]
  exact serveN_release (m := m.committedAlone) hmaster hstandby hwait _ dsts msg after k

/-- The last final report that the master awaits: the slice is RELEASING, and the release epoch follows (06 R198). -/
theorem contextsFinal_serves_release (hmaster : m.isMaster = true) (hstandby : m.hly.reg.standby = 0xFFFF) (hact : m.hly.repl.actions = [])
    (hwait : m.hly.waiting = []) (hstate : (m.sliceAt t).state = .destroying)
    (hlast : ∀ x ∈ m.sliceMembers t, m.reachable x = true → m.stillBound t x = true → x = n ∨ (m.sliceAt t).finals.contains x = true) :
    ((m.contextsFinal t n).serve.sliceAt t).state = .releasing ∧
      (m.contextsFinal t n).serve.hly.work.pendingAfter = m.hly.work.pendingAfter ++ [.sliceReleased t] ∧
      (m.contextsFinal t n).serve.hly.cur = none := by
  rw [contextsFinal_releases hmaster hstate hlast]
  obtain ⟨hslc, hafter, hcur⟩ := serve_release (m := m.sliceReleasing t n) hmaster hstandby hact hwait (m.sliceMembers t) (.releaseBegin t)
    [.sliceReleased t]
  refine ⟨?_, hafter, hcur⟩
  rw [Machine.sliceAt, hslc]
  exact congrArg SliceRec.state ((setSlice_sliceAt _ t _ t).trans (if_pos rfl))

/-- A member that reports when the release is past is told alone to begin its scrub (06 R198). -/
theorem contextsFinal_of_late (hmaster : m.isMaster = true) (hother : n ≠ m.node)
    (hstate : (m.sliceAt t).state = .releasing ∨ (m.sliceAt t).state = .retired) : m.contextsFinal t n = m.tell n (.releaseBegin t) := by
  have hnot : (m.sliceAt t).state ≠ .destroying := by rcases hstate with h | h <;> rw [h] <;> decide
  unfold Machine.contextsFinal
  dsimp only
  rw [if_pos hmaster, if_neg hnot, if_pos hstate, if_neg hother]

/-- The master's order begins the scrub of a member that is DRAINING (06 R198). -/
theorem contextsFinal_of_order {i : Nat} (hmaster : m.isMaster = false) (hfrom : n = m.hly.reg.master) (hpart : m.partOf t = some i)
    (hstate : (m.partAt i).state = .draining) : m.contextsFinal t n = m.beginScrub i := by
  unfold Machine.contextsFinal
  dsimp only
  rw [if_neg (by rw [hmaster]; decide), if_pos hfrom, Machine.releaseHere, hpart]
  exact if_pos hstate

/-! ### A member's scrub report -/

/-- The machine as a member's report is entered: its index freed, unless the scrub failed (06 R198, R208). -/
def Machine.scrubTaken (m : Machine) (t : Nat) (n : NodeId) (failed : Bool) : Machine :=
  let m' := m.setSlice t { m.sliceAt t with scrubs := reported (m.sliceAt t).scrubs n }
  if failed then m' else m'.modParts n fun p => freedPart p (m.sliceAt t).index

theorem scrubReported_of_bound (hmaster : m.isMaster = true) (hbound : m.stillBound t n = true) (hstate : (m.sliceAt t).state = .releasing)
    (failed : Bool) : m.scrubReported t n failed = (m.scrubTaken t n failed).replicate.tryRetire t := by
  unfold Machine.scrubReported
  dsimp only
  rw [if_pos (by rw [hmaster, hbound]; rfl), if_pos hstate]
  rfl

theorem scrubTaken_sliceAt (failed : Bool) :
    (m.scrubTaken t n failed).sliceAt t = { m.sliceAt t with scrubs := reported (m.sliceAt t).scrubs n } := by
  have hset := (setSlice_sliceAt m t { m.sliceAt t with scrubs := reported (m.sliceAt t).scrubs n } t).trans (if_pos rfl)
  cases failed <;> exact hset

theorem scrubTaken_hly (failed : Bool) : (m.scrubTaken t n failed).hly = m.hly := by cases failed <;> rfl

theorem freedPart_bound_same (p : NodeParts) (i : Nat) : tget 0 (freedPart p i).bound i = 0 := tget_tset_same 0 p.bound i 0

theorem scrubTaken_bound_of_done :
    tget 0 (tget .reset (m.scrubTaken t n false).slc.nodes n.toNat).bound (m.sliceAt t).index = 0 := by
  have hnode : tget .reset (m.scrubTaken t n false).slc.nodes n.toNat = freedPart (tget .reset m.slc.nodes n.toNat) (m.sliceAt t).index :=
    tget_tset_same NodeParts.reset m.slc.nodes n.toNat _
  rw [hnode, freedPart_bound_same]

/-- A slice retires with its members' reports kept, and only once its release epoch has switched (06 R198). -/
theorem tryRetire_sliceAt (m : Machine) (t : Nat) : (m.tryRetire t).sliceAt t = m.sliceAt t ∨
    (m.sliceAt t).released = true ∧ (m.tryRetire t).sliceAt t = { m.sliceAt t with state := .retired } := by
  unfold Machine.tryRetire
  dsimp only
  split
  next h =>
    obtain ⟨-, hreleased, -⟩ := h
    refine .inr ⟨hreleased, ?_⟩
    rw [Machine.sliceAt, replicate_slc]
    exact (setSlice_sliceAt m t _ t).trans (if_pos rfl)
  next => exact .inl rfl

theorem tryRetire_nodes (m : Machine) (t : Nat) : (m.tryRetire t).slc.nodes = m.slc.nodes := by
  unfold Machine.tryRetire
  dsimp only
  split
  · rw [replicate_slc]
    rfl
  · rfl

theorem tryRetire_idle (hact : m.hly.repl.actions = []) (hwait : m.hly.waiting = []) (t : Nat) : (m.tryRetire t).serve = m.tryRetire t := by
  unfold Machine.tryRetire
  dsimp only
  split
  · exact serve_idle ((replicate_actions _).trans hact) ((replicate_waiting _).trans hwait)
  · exact serve_idle hact hwait

/-- A member's scrub report at the master: it is entered, its index freed unless the scrub failed, and the slice waits for its release epoch. -/
theorem scrubReported_serves (hmaster : m.isMaster = true) (hact : m.hly.repl.actions = []) (hwait : m.hly.waiting = [])
    (hbound : m.stillBound t n = true) (hstate : (m.sliceAt t).state = .releasing) (failed : Bool) :
    let a := (m.scrubReported t n failed).serve
    a.slc.nodes = (m.scrubTaken t n failed).slc.nodes ∧ (a.sliceAt t).scrubs.contains n = true ∧
      ((m.sliceAt t).released = false → (a.sliceAt t).state = .releasing) := by
  have htaken : (m.scrubTaken t n failed).replicate.sliceAt t = { m.sliceAt t with scrubs := reported (m.sliceAt t).scrubs n } := by
    rw [Machine.sliceAt, replicate_slc]
    exact scrubTaken_sliceAt failed
  have hheard : (reported (m.sliceAt t).scrubs n).contains n = true := contains_reported (.inl rfl)
  dsimp only
  rw [scrubReported_of_bound hmaster hbound hstate, tryRetire_idle
    ((replicate_actions _).trans (by rw [scrubTaken_hly]; exact hact)) ((replicate_waiting _).trans (by rw [scrubTaken_hly]; exact hwait))]
  refine ⟨by rw [tryRetire_nodes, replicate_slc], ?_⟩
  rcases tryRetire_sliceAt (m.scrubTaken t n failed).replicate t with h | ⟨hreleased, h⟩
  · rw [h, htaken]
    exact ⟨hheard, fun _ => hstate⟩
  · rw [h, htaken]
    rw [htaken] at hreleased
    exact ⟨hheard, fun hnot => absurd hreleased (by rw [hnot]; decide)⟩

end

/-! ### Partition scrubs -/

section
variable (m : Machine) (i : Nat)

theorem beginScrub_partAt (j : Nat) : (m.beginScrub i).partAt j =
    if j = i then { m.partAt i with state := .scrubbing, scrubMib := 0 } else m.partAt j := modPart_partAt _ i _ j

theorem beginScrub_pageAt {k : Nat} (hlow : m.partPage i ≤ k) (hhigh : k < m.partPage (i + 1)) :
    (m.beginScrub i).pageAt k = if (m.pageAt k).use = .retired then m.pageAt k else { use := .scrubbing, ctx := (m.pageAt k).ctx } := by
  refine (tget_tfill _ _ _ _ _).trans ?_
  rw [if_pos ⟨hlow, by simp; omega⟩]
  rw [List.getD_eq_getElem?_getD, List.getElem?_map, List.getElem?_range (by omega)]
  simp [Nat.add_sub_cancel' hlow]

theorem scrubPart_tileAt (l : Nat) : (m.scrubPart i).tileAt l = if l ∈ m.partTiles i then (m.tileAt l).zeroed else m.tileAt l :=
  foldl_modTile_tileAt zeroed_zeroed (m.partTiles i) _ l

theorem scrubPart_kept_units : Kept [.txn, .tiles, .hbm, .strm] m (m.scrubPart i) := by apply scrubPart_kept .refl <;> decide

theorem foldl_modTile_kept (l : List Nat) (f : TileRec → TileRec) : Kept [.tiles] m (l.foldl (fun m t => m.modTile t f) m) :=
  Kept.foldl .refl fun _ t h => modTile_kept h t f (by decide)

theorem scrubPart_hbm_s : (m.scrubPart i).hbm.s = m.hbm.s := by
  unfold Machine.scrubPart
  dsimp only
  rw [(foldl_modTile_kept _ _ TileRec.zeroed).hbm (by decide)]
  rfl

theorem scrubPart_partPagesPerStack : (m.scrubPart i).partPagesPerStack = m.partPagesPerStack := by
  have hkept := scrubPart_kept_units m i
  simp only [Machine.partPagesPerStack, Machine.pagesPerStack, Machine.parts, hkept.fuse (by decide), hkept.part (by decide)]

theorem scrubPart_hly : (m.scrubPart i).hly = m.hly := (scrubPart_kept_units m i).hly (by decide)

theorem localEvent_kept_areas (code : Nat) (detail : BitVec 8) (tag : Nat) (tenant : Word) :
    Kept [.part, .ttl, .hst, .msix, .hostMem, .out] m (m.localEvent code detail tag tenant) := by
  apply localEvent_kept .refl <;> decide

variable {m i}

theorem endScrub_of_keep (hkeep : (m.partAt i).keep = true) : m.endScrub i = ((m.scrubPart i).setPart i { m.partAt i with
    state := if (m.partAt i).drain then .draining else .bound, keep := false, drain := false
    scrubMib := m.partPagesPerStack * m.hbm.s * 2 }).reportFinal (m.partAt i).tag := by
  unfold Machine.endScrub
  dsimp only
  rw [if_pos hkeep, scrubPart_partPagesPerStack, scrubPart_hbm_s]

/-- The machine as a scrubbed partition is FREE. -/
def Machine.scrubFreed (m : Machine) (i : Nat) : Machine :=
  (m.scrubPart i).setPart i { PartRec.reset with scrubMib := m.partPagesPerStack * m.hbm.s * 2 }

theorem endScrub_of_free (hkeep : (m.partAt i).keep = false) : m.endScrub i =
    ((m.scrubFreed i).localEvent 0x07 0 (m.partAt i).tag (m.partAt i).tenant).tell m.hly.reg.master (.scrubDone (m.partAt i).tag) := by
  rw [← scrubPart_hly m i]
  unfold Machine.endScrub Machine.scrubFreed
  dsimp only
  rw [if_neg (by rw [hkeep]; decide), scrubPart_partPagesPerStack, scrubPart_hbm_s]
  rfl

theorem localEvent_tileAt (code : Nat) (detail : BitVec 8) (tag : Nat) (tenant : Word) (l : Nat) :
    (m.localEvent code detail tag tenant).tileAt l = m.tileAt l :=
  congrArg (tget TileRec.reset · l) ((localEvent_kept_areas m code detail tag tenant).tiles (by decide))

theorem scrubFreed_partAt_same : (m.scrubFreed i).partAt i = { PartRec.reset with scrubMib := m.partPagesPerStack * m.hbm.s * 2 } :=
  (setPart_partAt _ i _ i).trans (if_pos rfl)

theorem scrubFreed_tileAt {l : Nat} (h : l ∈ m.partTiles i) : (m.scrubFreed i).tileAt l = (m.tileAt l).zeroed :=
  (scrubPart_tileAt m i l).trans (if_pos h)

end

section
variable {s : State} {i : PartId}

/-- The scrub of a partition that is not kept: it is FREE, its tiles zero, and the master told (06 R199). -/
theorem scrubComplete_frees (hstate : (s.m.partAt i).state = .scrubbing) (hkeep : (s.m.partAt i).keep = false) :
    Completes (.partitionScrubComplete i) s fun m => m.partAt i = { PartRec.reset with scrubMib := s.m.partPagesPerStack * s.m.hbm.s * 2 } ∧
      (∃ l, m.out = l ++ [Out.mgmt s.m.hly.reg.master (.scrubDone (s.m.partAt i).tag)]) ∧
      (∀ t ∈ s.m.partTiles i, m.tileAt t = (s.m.tileAt t).zeroed) := by
  refine .of_done (congrArg (done s) (if_pos hstate)) ?_
  rw [endScrub_of_free hkeep]
  exact ⟨(localEvent_partAt _ _ _ _ _ _).trans scrubFreed_partAt_same, ⟨_, tell_out _ _ _⟩,
    fun t ht => (localEvent_tileAt _ _ _ _ t).trans (scrubFreed_tileAt ht)⟩

/-- The scrub of a partition that is kept: BOUND again, or DRAINING (06 R205). -/
theorem scrubComplete_keeps (hstate : (s.m.partAt i).state = .scrubbing) (hkeep : (s.m.partAt i).keep = true) :
    Completes (.partitionScrubComplete i) s fun m => m.partAt i = { s.m.partAt i with
      state := if (s.m.partAt i).drain then .draining else .bound, keep := false, drain := false
      scrubMib := s.m.partPagesPerStack * s.m.hbm.s * 2 } := by
  refine .of_done (congrArg (done s) (if_pos hstate)) ?_
  rw [endScrub_of_keep hkeep, reportFinal_partAt, setPart_partAt, if_pos rfl]

/-- An uncorrectable error in a scrub: the partition is QUARANTINED, and the master told that it failed (06 R208). -/
theorem scrubQuarantine_quarantines (k : Fin 8) (hstate : (s.m.partAt i).state = .scrubbing) : Completes (.scrubQuarantine i k) s fun m =>
    m.partAt i = { s.m.partAt i with state := .quarantined, keep := false, drain := false } ∧
    (∀ j, j ≠ i.val → m.partAt j = s.m.partAt j) ∧ ∃ l, m.out = l ++ [Out.mgmt s.m.hly.reg.master (.scrubFailed (s.m.partAt i).tag)] := by
  have hpart (a : Machine) (code : Nat) (detail : BitVec 8) (tag : Nat) (tenant : Word) (n : NodeId) (g : Mgmt) (src unit j : Nat) :
      (((a.raise src unit).localEvent code detail tag tenant).tell n g).partAt j = a.partAt j := by simp
  refine .of_done (congrArg (done s) (if_pos hstate)) ⟨?_, fun j hj => ?_, ⟨_, tell_out _ _ _⟩⟩
  · rw [hpart, setPart_partAt, if_pos rfl]
  · rw [hpart, setPart_partAt, if_neg hj]

/-- With no scrub in progress neither instruction does anything. -/
theorem scrubSteps_ignored (k : Fin 8) (hstate : (s.m.partAt i).state ≠ .scrubbing) :
    Ignored (.scrubQuarantine i k) s ∧ Ignored (.partitionScrubComplete i) s :=
  ⟨congrArg (done s) (if_neg hstate), congrArg (done s) (if_neg hstate)⟩

/-- The master's order reaches a member that is DRAINING: its partition is SCRUBBING, and its pages but the RETIRED ones (06 R198, R199). -/
theorem sliceContextsFinal_scrubs {t : TagId} {n : NodeId} {i : Nat} (hmaster : s.m.isMaster = false) (hfrom : n = s.m.hly.reg.master)
    (hpart : s.m.partOf t = some i) (hstate : (s.m.partAt i).state = .draining) : Completes (.sliceContextsFinal t n) s fun m =>
      m.partAt i = { s.m.partAt i with state := .scrubbing, scrubMib := 0 } ∧ (∀ j, j ≠ i → m.partAt j = s.m.partAt j) ∧
      ∀ k, s.m.partPage i ≤ k → k < s.m.partPage (i + 1) → (s.m.pageAt k).use ≠ .retired → (m.pageAt k).use = .scrubbing := by
  have hserve : (s.m.contextsFinal t n).serve = s.m.beginScrub i := by
    rw [contextsFinal_of_order hmaster hfrom hpart hstate]
    exact serveN_of_not_master (m := s.m.beginScrub i) hmaster _
  refine .of_done (congrArg (done s) hserve) ⟨?_, fun j hj => ?_, fun k hlow hhigh hused => ?_⟩
  · rw [beginScrub_partAt, if_pos rfl]
  · rw [beginScrub_partAt, if_neg hj]
  · rw [beginScrub_pageAt _ _ hlow hhigh, if_neg hused]

end

/-- Settles O28: events at a member's ring and contexts, the master's release of a slice, and the scrubs that end it. -/
theorem slicesAtTheirMembers : Obligations.SlicesAtTheirMembers := by
  unfold Obligations.SlicesAtTheirMembers
  refine ⟨?written, ?discarded, ?destroying, ?active, ?release, ?late, ?order, ?report, ?freed, ?kept, ?quarantine, ?ignored⟩
  case written => exact fun e s hcode hsize hroom => sliceEvent_written hcode hsize hroom
  case discarded => exact fun e s hcode hsize hfull => sliceEvent_discarded hcode hsize hfull
  case destroying => exact fun e i s hcode hpart hstate => sliceEvent_destroying hcode hpart hstate
  case active => exact fun e i s hcode hpart => sliceEvent_active hcode hpart
  case release =>
    exact fun t n s hmaster hstandby hact hwait hstate hlast =>
      .of_done rfl (contextsFinal_serves_release hmaster hstandby hact hwait hstate hlast)
  case late =>
    intro t n s hmaster hact hwait hother hstate
    refine .of_done (m := s.m.tell n (.releaseBegin t)) (congrArg (done s) ?_) rfl
    rw [contextsFinal_of_late hmaster hother hstate]
    exact serve_idle hact hwait
  case order => exact fun t n i s hmaster hfrom hpart hstate => sliceContextsFinal_scrubs hmaster hfrom hpart hstate
  case report =>
    intro t n failed s hmaster hact hwait hbound hstate
    obtain ⟨hnodes, hheard, hwaits⟩ := scrubReported_serves hmaster hact hwait hbound hstate failed
    refine .of_done rfl ⟨hheard, ?_, ?_, hwaits⟩
    · rintro rfl
      rw [hnodes]
      exact scrubTaken_bound_of_done
    · rintro rfl
      exact hnodes
  case freed => exact fun i s hstate hkeep => scrubComplete_frees hstate hkeep
  case kept => exact fun i s hstate hkeep => scrubComplete_keeps hstate hkeep
  case quarantine => exact fun i k s hstate => scrubQuarantine_quarantines k hstate
  case ignored => exact fun i k s hstate => scrubSteps_ignored k hstate

end Sys2Proof.Machine

/-! ## Frames at an I/O die: checked, routed, delivered, aged, detoured, filtered (06 R183, R185; 07 R210, R215, R218, R222, R223) -/

namespace Sys2Proof.Machine

section
variable {m a b : Machine} {land : Machine → Nat → Frame → Machine} {flowGen : Machine → Nat → Nat}
  {window : Machine → Nat → Option Nat} {d : Nat} {rx : RxFrame}

/-! ### A frame that the checks of R218 let through -/

theorem forward_of_malformed (h : malformed rx.frame = true) (q : Bool) :
    m.forward land flowGen window d rx q = m.dropMalformed d :=
  if_pos (by simp [h])

/-- A checked frame meets none of the drops before the routing table: what is left of R218 is the entry of its destination. -/
theorem forward_of_checked (h : m.checked rx = true) {e : RouteEntry}
    (he : m.nodeEntry (m.bank (frEpoch rx.frame)) d (frDst rx.frame) = e) (hvalid : e.valid = true) (q : Bool) :
    m.forward land flowGen window d rx q =
      if e.priDir = 6 then m.deliver land flowGen window d (m.bank (frEpoch rx.frame)) rx else m.routeBy d rx e q := by
  obtain ⟨port, vc, f, since, session, again⟩ := rx
  simp only [Machine.checked, Bool.and_eq_true, Bool.not_eq_true', beq_iff_eq, bne_iff_ne] at h he
  obtain ⟨⟨⟨⟨⟨⟨⟨hformed, hpod⟩, hage⟩, hface⟩, htype⟩, hheld⟩, htag⟩, htransit⟩ := h
  unfold Machine.forward
  cases port with
  | none => simp [hformed, hpod, hage, htype, hheld, htag, he, hvalid]
  | some p =>
    have hshroud : isBackstay (m.port p).stat = false := by simpa using hface
    have hstay : ¬(¬frDst f = m.node ∧ m.hly.reg.admitted = false) := by simpa [or_iff_not_imp_left] using htransit
    simp [hformed, hpod, hage, hshroud, htype, hheld, htag, hstay, he, hvalid]

theorem deliver_of_management (h : frTag rx.frame = 0) (b : Bank) : m.deliver land flowGen window d b rx =
    m.modFwd d fun r => { r with inbox := r.inbox ++ [{ frame := rx.frame, since := m.time.now }] } :=
  if_pos h

/-- A frame of this package enters a dimension with its first hop (07 R217). -/
theorem sendOn_of_local (h : rx.port = none) (p : Nat) (f : Frame) (dir : Nat) :
    m.sendOn p rx f dir = m.enqueue p { vc := m.vcFor f rx dir, frame := f, since := rx.since, enters := true } := by
  simp [Machine.sendOn, Machine.entersDim, h]

theorem ne_nil_of_pickPosition {l : List Nat} {src : NodeId} {n pos : Nat} (h : pickPosition l src n = some pos) : l ≠ [] := by
  rintro rfl
  simp [pickPosition] at h

theorem routeBy_of_primary {e : RouteEntry} {pos p : Nat}
    (hpos : pickPosition (m.activePositions d e.priDir e.priMask) (frSrc rx.frame) (frStream rx.frame) = some pos)
    (hp : m.portIn d e.priDir pos = some p) : m.routeBy d rx e false = m.sendOn p rx rx.frame e.priDir := by
  simp [Machine.routeBy, ne_nil_of_pickPosition hpos, hpos, hp]

theorem routeBy_of_detour {e : RouteEntry} {pos p : Nat} (hdir : e.detDir ≠ 6)
    (hpos : pickPosition (m.activePositions d e.detDir e.detMask) (frSrc rx.frame) (frStream rx.frame) = some pos)
    (hp : m.portIn d e.detDir pos = some p) : m.routeBy d rx e true =
      (m.modFwdCnt d fun c => { c with detoured := satAdd32 c.detoured 1 }).sendOn p rx (setDetour rx.frame) e.detDir := by
  have hsame : (m.modFwdCnt d fun c => { c with detoured := satAdd32 c.detoured 1 }).portIn d e.detDir pos = some p := hp
  simp [Machine.routeBy, hdir, hpos, hsame]

/-- A management frame for this package, by a home entry, goes to the die's inbox (06 R183). -/
theorem forward_to_inbox (h : m.checked rx = true) (htag : frTag rx.frame = 0) (hdst : frDst rx.frame = m.node)
    (hvalid : (m.nodeEntry (m.bank (frEpoch rx.frame)) d m.node).valid = true)
    (hhome : (m.nodeEntry (m.bank (frEpoch rx.frame)) d m.node).priDir = 6) (q : Bool) : m.forward land flowGen window d rx q =
      m.modFwd d fun r => { r with inbox := r.inbox ++ [{ frame := rx.frame, since := m.time.now }] } := by
  rw [forward_of_checked h (by rw [hdst]) hvalid, if_pos hhome, deliver_of_management htag]

section
variable (h : m.checked rx = true) (hport : rx.port = none) {e : RouteEntry} {pos p : Nat}
  (he : m.nodeEntry (m.bank (frEpoch rx.frame)) d (frDst rx.frame) = e) (hvalid : e.valid = true) (haway : e.priDir ≠ 6)
include h hport he hvalid haway

theorem forward_to_port
    (hpos : pickPosition (m.activePositions d e.priDir e.priMask) (frSrc rx.frame) (frStream rx.frame) = some pos)
    (hp : m.portIn d e.priDir pos = some p) : m.forward land flowGen window d rx false =
      m.enqueue p { vc := m.vcFor rx.frame rx e.priDir, frame := rx.frame, since := rx.since, enters := true } := by
  rw [forward_of_checked h he hvalid, if_neg haway, routeBy_of_primary hpos hp, sendOn_of_local hport]

theorem forward_to_detour (hdir : e.detDir ≠ 6)
    (hpos : pickPosition (m.activePositions d e.detDir e.detMask) (frSrc rx.frame) (frStream rx.frame) = some pos)
    (hp : m.portIn d e.detDir pos = some p) : m.forward land flowGen window d rx true =
      (m.modFwdCnt d fun c => { c with detoured := satAdd32 c.detoured 1 }).enqueue p
        { vc := m.vcFor (setDetour rx.frame) rx e.detDir, frame := setDetour rx.frame, since := rx.since, enters := true } := by
  rw [forward_of_checked h he hvalid, if_neg haway, routeBy_of_detour hdir hpos hp, sendOn_of_local hport]
  rfl

end

/-! ### A frame of this package leaves the receive buffers: it holds no port's credits -/

theorem leaveRx_of_local (h : rx.port = none) (m' : Machine) : m'.leaveRx m d rx = m' := by
  simp [Machine.leaveRx, Machine.returnRx, h]

theorem forwardNext_of_local {rest : List RxFrame} (hrx : (m.fwdAt d).rx = rx :: rest) (h : rx.port = none) :
    m.forwardNext land flowGen window d =
      (m.modFwd d fun r => { r with rx := rest }).forward land flowGen window d rx false := by
  simp [Machine.forwardNext, hrx, leaveRx_of_local h]

theorem detourAll_of_single (h : (m.fwdAt d).detq = [rx]) :
    m.detourAll land flowGen window d = (m.modFwd d fun r => { r with detq := [] }).forward land flowGen window d rx true := by
  simp [Machine.detourAll, h]

/-! ### What a discarded frame leaves -/

theorem Kept.fwdAt {W : List Area} (h : Kept W a b) (hw : Area.fwd ∉ W) (k : Nat) : b.fwdAt k = a.fwdAt k := by
  simp only [Machine.fwdAt, h.fwd hw]

/-- A die's forwarding engine holds what it held, but for its counters. -/
def Machine.countedOnly (a b : Machine) (d : Nat) : Prop := ∃ c, b.fwdAt d = { a.fwdAt d with cnt := c }

theorem countedOnly_refl : a.countedOnly a d := ⟨(a.fwdAt d).cnt, rfl⟩

theorem countedOnly_trans {c : Machine} (h : a.countedOnly b d) (h' : b.countedOnly c d) : a.countedOnly c d := by
  obtain ⟨cnt, hb⟩ := h
  obtain ⟨cnt', hc⟩ := h'
  exact ⟨cnt', by rw [hc, hb]⟩

theorem countedOnly_foldl {α : Type} {f : Machine → α → Machine} (hf : ∀ (m : Machine) x, m.countedOnly (f m x) d) (l : List α) :
    a.countedOnly (l.foldl f a) d :=
  List.foldlRecOn (motive := (a.countedOnly · d)) l f countedOnly_refl fun m hm x _ => countedOnly_trans hm (hf m x)

theorem Kept.countedOnly {W : List Area} (h : Kept W a b) (hw : Area.fwd ∉ W) : a.countedOnly b d :=
  ⟨(a.fwdAt d).cnt, h.fwdAt hw d⟩

theorem dropMalformed_shr (m : Machine) (d : Nat) : (m.dropMalformed d).shr = m.shr :=
  Kept.shr (W := [.fwd, .ttl]) (dropMalformed_kept .refl d (by decide) (by decide)) (by decide)

theorem dropMalformed_fwdAt (m : Machine) (d : Nat) : (m.dropMalformed d).fwdAt d =
    { m.fwdAt d with cnt := { (m.fwdAt d).cnt with malformed := satAdd32 (m.fwdAt d).cnt.malformed 1 } } := by
  simp [Machine.dropMalformed, Machine.fwdRaise, Machine.modFwdCnt]

theorem dropAged_countedOnly (m : Machine) (d : Nat) (f : Frame) : m.countedOnly (m.dropAged d f) d := by
  have hcount : m.countedOnly ((m.modFwdCnt d fun c => { c with aged := satAdd32 c.aged 1 }).fwdRaise d 1) d :=
    ⟨_, by simp [Machine.fwdRaise, Machine.modFwdCnt]; rfl⟩
  unfold Machine.dropAged
  split
  · exact countedOnly_trans hcount (Kept.countedOnly (W := [.out]) (reportFlow_kept .refl _ _ _ (by decide)) (by decide))
  · exact hcount

theorem dropAged_port (m : Machine) (d : Nat) (f : Frame) (q : Nat) : (m.dropAged d f).port q = m.port q :=
  Kept.port (W := [.fwd, .ttl, .out]) (dropAged_kept .refl d f (by decide) (by decide) (by decide)) (by decide) q

theorem returnRx_countedOnly (m : Machine) (rx : RxFrame) : m.countedOnly (m.returnRx rx) d :=
  Kept.countedOnly (W := [.shr, .out]) (returnRx_kept .refl rx (by decide) (by decide)) (by decide)

/-- Credits go back on the port that the frame came on, and on no other. -/
theorem returnRx_port_of_ne {q : Nat} (h : rx.port ≠ some q) : (m.returnRx rx).port q = m.port q := by
  unfold Machine.returnRx
  split
  case h_1 p hport =>
    have hq : q ≠ p := fun hqp => h (hqp ▸ hport)
    unfold Machine.returnCredits
    split
    · exact (emit_port _ _ q).trans (by simp [hq])
    · rfl
  case h_2 => rfl

/-! ### The lifetime's expiry, in its two parts: the die's buffers, then its ports -/

/-- The waiting frames of a port that have not reached the lifetime. -/
def Machine.youngQueue (m : Machine) (p : Nat) : List QFrame := (m.port p).tx.queue.filter fun x => !(m.agedOut x.frame x.since)

/-- The first part of `Machine.ageAll`: the aged frames leave the die's buffers and return their credits. -/
def Machine.ageBuffers (m : Machine) (d : Nat) : Machine :=
  let keep := fun (x : RxFrame) => !(m.agedOut x.frame x.since)
  (((m.fwdAt d).rx ++ (m.fwdAt d).detq ++ (m.fwdAt d).waiting).filter fun x => m.agedOut x.frame x.since).foldl
    (fun m x => (m.dropAged d x.frame).returnRx x)
    (m.modFwd d fun r => { r with rx := r.rx.filter keep, detq := r.detq.filter keep, waiting := r.waiting.filter keep })

/-- The second part of `Machine.ageAll`, for one port: the frames that `m` counts as aged leave its queue in `m'`. -/
def Machine.agePort (m : Machine) (d : Nat) (m' : Machine) (p : Nat) : Machine :=
  ((m.port p).tx.queue.filter fun x => m.agedOut x.frame x.since).foldl (fun m x => m.dropAged d x.frame)
    (m'.modPort p fun r => { r with tx := { r.tx with queue := m.youngQueue p } })

theorem ageAll_eq (m : Machine) (d : Nat) :
    m.ageAll d = ((List.range 12).map fun i => d * 12 + i).foldl (m.agePort d) (m.ageBuffers d) := rfl

theorem mem_portsOfDie (p : Nat) : p ∈ (List.range 12).map (fun i => d * 12 + i) ↔ dieOfPort p = d := by
  simp only [List.mem_map, List.mem_range, dieOfPort]
  constructor
  · rintro ⟨i, hi, rfl⟩
    omega
  · exact fun h => ⟨p % 12, by omega, by omega⟩

theorem agePort_countedOnly (m m' : Machine) (p : Nat) : m'.countedOnly (m.agePort d m' p) d := by
  unfold Machine.agePort
  refine countedOnly_trans (Kept.countedOnly (W := [.shr]) (modPort_kept .refl p _ (by decide)) (by decide)) (countedOnly_foldl ?_ _)
  exact fun x e => dropAged_countedOnly x d e.frame

theorem agePort_port (m m' : Machine) (p q : Nat) : (m.agePort d m' p).port q =
    if q = p then { m'.port q with tx := { (m'.port q).tx with queue := m.youngQueue q } } else m'.port q := by
  have hdrops (a : Machine) (l : List QFrame) : (l.foldl (fun m x => m.dropAged d x.frame) a).port q = a.port q :=
    List.foldlRecOn (motive := fun (x : Machine) => x.port q = a.port q) l _ rfl fun x hx e _ => (dropAged_port x d e.frame q).trans hx
  rw [Machine.agePort, hdrops, modPort_port]
  by_cases hq : q = p <;> simp [hq]

theorem foldl_agePort_port (m : Machine) (l : List Nat) (m' : Machine) (q : Nat) : (l.foldl (m.agePort d) m').port q =
    if q ∈ l then { m'.port q with tx := { (m'.port q).tx with queue := m.youngQueue q } } else m'.port q := by
  induction l generalizing m' with
  | nil => rfl
  | cons p l ih =>
    rw [List.foldl_cons, ih, agePort_port]
    by_cases hp : q = p <;> by_cases hl : q ∈ l <;> simp [hp, hl]

theorem ageBuffers_countedOnly (m : Machine) (d : Nat) : (m.modFwd d fun r => { r with
    rx := r.rx.filter fun x => !(m.agedOut x.frame x.since), detq := r.detq.filter fun x => !(m.agedOut x.frame x.since)
    waiting := r.waiting.filter fun x => !(m.agedOut x.frame x.since) }).countedOnly (m.ageBuffers d) d := by
  unfold Machine.ageBuffers
  refine countedOnly_foldl ?_ _
  exact fun x e => countedOnly_trans (dropAged_countedOnly x d e.frame) (returnRx_countedOnly _ e)

/-- Frames that came on ports of the die return no other die's credits. -/
theorem ageBuffers_port {q : Nat} (hq : dieOfPort q ≠ d)
    (h : (((m.fwdAt d).rx ++ (m.fwdAt d).detq ++ (m.fwdAt d).waiting).all fun x => x.port.all fun p => dieOfPort p == d) = true) :
    (m.ageBuffers d).port q = m.port q := by
  refine List.foldlRecOn (motive := fun (x : Machine) => x.port q = m.port q) _ _ rfl fun x hx e he => ?_
  have hport : e.port ≠ some q := fun hport => by
    have hdie := List.all_eq_true.mp h e (List.mem_of_mem_filter he)
    simp [hport, hq] at hdie
  rw [returnRx_port_of_ne hport, dropAged_port, hx]

/-- Every aged frame has left the die's buffers, and only counters changed besides (07 R215). -/
theorem ageAll_fwdAt (m : Machine) (d : Nat) : ∃ c, (m.ageAll d).fwdAt d = { m.fwdAt d with
    cnt := c
    rx := (m.fwdAt d).rx.filter fun x => !(m.agedOut x.frame x.since)
    detq := (m.fwdAt d).detq.filter fun x => !(m.agedOut x.frame x.since)
    waiting := (m.fwdAt d).waiting.filter fun x => !(m.agedOut x.frame x.since) } := by
  obtain ⟨c, hc⟩ := countedOnly_trans (ageBuffers_countedOnly m d)
    (countedOnly_foldl (agePort_countedOnly (d := d) m) ((List.range 12).map fun i => d * 12 + i))
  exact ⟨c, by rw [ageAll_eq, hc, modFwd_fwdAt, if_pos rfl]⟩

theorem ageAll_queue {p : Nat} (h : dieOfPort p = d) : ((m.ageAll d).port p).tx.queue = m.youngQueue p := by
  rw [ageAll_eq, foldl_agePort_port, if_pos ((mem_portsOfDie p).mpr h)]

theorem ageAll_port_of_ne {p : Nat} (hp : dieOfPort p ≠ d)
    (h : (((m.fwdAt d).rx ++ (m.fwdAt d).detq ++ (m.fwdAt d).waiting).all fun x => x.port.all fun p => dieOfPort p == d) = true) :
    (m.ageAll d).port p = m.port p := by
  rw [ageAll_eq, foldl_agePort_port, if_neg (mt (mem_portsOfDie p).mp hp), ageBuffers_port hp h]

end

/-! ### The four rows

A frame is taken from its buffer before it is forwarded. The check, the route entry and the ports read no forwarding engine, so what is
known of them in `s.m` is known of the machine without the frame. -/

section
variable {s : State} {d : IoDie} {rx : RxFrame} {rest : List RxFrame}

theorem frameForward_ignored (h : (s.m.fwdAt d).rx = []) : Ignored (.frameForward d) s :=
  .of_done rfl (by simp [Machine.forwardNext, h])

section
variable (hrx : (s.m.fwdAt d).rx = rx :: rest) (hport : rx.port = none)
include hrx hport

/-- The next frame is one of this package, and `forward` takes it to `m` once it has left its buffer. -/
theorem frameForward_of_local {m : Machine} {p : Machine → Prop}
    (hm : (s.m.modFwd d fun r => { r with rx := rest }).forward Machine.landToken Machine.flowGen Machine.strmWindow d rx false = m)
    (hp : p m) : Completes (.frameForward d) s p :=
  .of_done (congrArg (done s) ((forwardNext_of_local hrx hport).trans hm)) hp

theorem frameForward_malformed (h : malformed rx.frame = true) : Completes (.frameForward d) s fun m =>
    (m.fwdAt d).rx = rest ∧ (m.fwdAt d).cnt.malformed = satAdd32 (s.m.fwdAt d).cnt.malformed 1 ∧ m.shr = s.m.shr := by
  refine frameForward_of_local hrx hport (forward_of_malformed h false) ?_
  rw [dropMalformed_fwdAt, dropMalformed_shr]
  simp

variable (hcheck : s.m.checked rx = true)
include hcheck

theorem frameForward_management (htag : frTag rx.frame = 0) (hdst : frDst rx.frame = s.m.node)
    (hvalid : (s.m.nodeEntry (s.m.bank (frEpoch rx.frame)) d s.m.node).valid = true)
    (hhome : (s.m.nodeEntry (s.m.bank (frEpoch rx.frame)) d s.m.node).priDir = 6) : Completes (.frameForward d) s fun m =>
      (m.fwdAt d).rx = rest ∧
      (m.fwdAt d).inbox = (s.m.fwdAt d).inbox ++ [{ frame := rx.frame, since := s.m.time.now }] ∧ m.out = s.m.out := by
  refine frameForward_of_local hrx hport
    (forward_to_inbox (m := s.m.modFwd d fun r => { r with rx := rest }) hcheck htag hdst hvalid hhome false) ?_
  simp

theorem frameForward_routed {e : RouteEntry} {pos p : Nat}
    (he : s.m.nodeEntry (s.m.bank (frEpoch rx.frame)) d (frDst rx.frame) = e) (hvalid : e.valid = true) (haway : e.priDir ≠ 6)
    (hpos : pickPosition (s.m.activePositions d e.priDir e.priMask) (frSrc rx.frame) (frStream rx.frame) = some pos)
    (hp : s.m.portIn d e.priDir pos = some p) : Completes (.frameForward d) s fun m =>
      m = (s.m.modFwd d fun r => { r with rx := rest }).enqueue p
        { vc := s.m.vcFor rx.frame rx e.priDir, frame := rx.frame, since := rx.since, enters := true } :=
  frameForward_of_local hrx hport
    (forward_to_port (m := s.m.modFwd d fun r => { r with rx := rest }) hcheck hport he hvalid haway hpos hp) rfl

end

theorem frameAgeExpiry_discards
    (h : (((s.m.fwdAt d).rx ++ (s.m.fwdAt d).detq ++ (s.m.fwdAt d).waiting).all fun x => x.port.all fun p => dieOfPort p == d.val) = true) :
    Completes (.frameAgeExpiry d) s fun m =>
      (m.fwdAt d).rx = (s.m.fwdAt d).rx.filter (fun x => !(s.m.agedOut x.frame x.since)) ∧
      (m.fwdAt d).detq = (s.m.fwdAt d).detq.filter (fun x => !(s.m.agedOut x.frame x.since)) ∧
      (∀ p, dieOfPort p = d → p < 24 → (m.port p).tx.queue = (s.m.port p).tx.queue.filter fun x => !(s.m.agedOut x.frame x.since)) ∧
      (∀ p, dieOfPort p ≠ d → m.port p = s.m.port p) := by
  obtain ⟨c, hc⟩ := ageAll_fwdAt s.m d
  exact .of_done rfl ⟨by rw [hc], by rw [hc], fun p hp _ => ageAll_queue hp, fun p hp => ageAll_port_of_ne hp h⟩

theorem detourResend_detours {e : RouteEntry} {pos p : Nat} (hq : (s.m.fwdAt d).detq = [rx]) (hport : rx.port = none)
    (hcheck : s.m.checked rx = true) (he : s.m.nodeEntry (s.m.bank (frEpoch rx.frame)) d (frDst rx.frame) = e)
    (hvalid : e.valid = true) (haway : e.priDir ≠ 6) (hdir : e.detDir ≠ 6)
    (hpos : pickPosition (s.m.activePositions d e.detDir e.detMask) (frSrc rx.frame) (frStream rx.frame) = some pos)
    (hp : s.m.portIn d e.detDir pos = some p) : Completes (.detourResend d) s fun m =>
      m = ((s.m.modFwd d fun r => { r with detq := [] }).modFwdCnt d fun c => { c with detoured := satAdd32 c.detoured 1 }).enqueue p
        { vc := s.m.vcFor (setDetour rx.frame) rx e.detDir, frame := setDetour rx.frame, since := rx.since, enters := true } :=
  .of_done (congrArg (done s) ((detourAll_of_single hq).trans (forward_to_detour (m := s.m.modFwd d fun r => { r with detq := [] })
    hcheck hport he hvalid haway hdir hpos hp))) rfl

theorem filterRecordExpiry_frees (src : NodeId) (n : StreamId) : Completes (.filterRecordExpiry d src n) s fun m =>
    m.fwdAt d = { s.m.fwdAt d with filter := (s.m.fwdAt d).filter.filter (fun e => !(e.src == src && e.stream == n.val))
                                   rx := (s.m.fwdAt d).waiting ++ (s.m.fwdAt d).rx
                                   waiting := [] } ∧ (∀ k, k ≠ d.val → m.fwdAt k = s.m.fwdAt k) :=
  .of_done rfl ⟨(modFwd_fwdAt ..).trans (if_pos rfl), fun _ hk => (modFwd_fwdAt ..).trans (if_neg hk)⟩

end

/-- Settles O30: each frame of this package that the checks let through comes to its route entry, which delivers it or names its port; the
expiry of the lifetime goes through the die's buffers, then its ports. -/
theorem framesAreCheckedRoutedAndDelivered : Obligations.FramesAreCheckedRoutedAndDelivered := by
  unfold Obligations.FramesAreCheckedRoutedAndDelivered
  refine ⟨?idle, ?malformed, ?management, ?routed, ?aged, ?detoured, ?filtered⟩
  case idle => exact fun d s hrx => frameForward_ignored hrx
  case malformed => exact fun d rx rest s hrx hport hbad => frameForward_malformed hrx hport hbad
  case management =>
    exact fun d rx rest s hrx hport hcheck htag hdst hvalid hhome =>
      frameForward_management hrx hport hcheck htag hdst hvalid hhome
  case routed =>
    exact fun d rx rest p pos s hrx hport hcheck _ hvalid haway hpos hp =>
      frameForward_routed hrx hport hcheck rfl hvalid haway hpos hp
  case aged => exact fun d s hports => frameAgeExpiry_discards hports
  case detoured =>
    exact fun d rx p pos s hq hport hcheck _ hvalid haway hdir hpos hp =>
      detourResend_detours hq hport hcheck rfl hvalid haway hdir hpos hp
  case filtered => exact fun d src n s => filterRecordExpiry_frees src n

end Sys2Proof.Machine

/-! ## Images, steps and tiles: what their shared operations leave (09 R268-R289; 10 R309-R314) -/

namespace Sys2Proof.Machine

/-! ### Reads of a context's execution record and of a tile -/

theorem Kept.xc {W : List Area} {m a : Machine} (h : Kept W m a) (hw : Area.ctx ∉ W) (c : Nat) : a.xc c = m.xc c :=
  congrArg (fun t => (tget CtxRec.reset t c).xc) (h.ctx hw)

theorem Kept.tileAt {W : List Area} {m a : Machine} (h : Kept W m a) (hw : Area.tiles ∉ W) (l : Nat) : a.tileAt l = m.tileAt l :=
  congrArg (tget TileRec.reset · l) (h.tiles hw)

/-- Where an image's tiles lie depends on the partitions and the dies alone (06 R179). -/
theorem Kept.logical {W : List Area} {m a : Machine} (h : Kept W m a) (hpart : Area.part ∉ W) (hfuse : Area.fuse ∉ W) :
    a.logical = m.logical := by
  funext c b t
  unfold Machine.logical Machine.shareStart Machine.parts Machine.tileCount Machine.cdieCount Machine.ctxPart
  rw [h.part hpart, h.fuse hfuse]

section
variable (m : Machine) (c : Nat)

@[simp] theorem modXc_xc (f : Xc → Xc) (e : Nat) : (m.modXc c f).xc e = if e = c then f (m.xc c) else m.xc e := by
  unfold Machine.xc
  rw [modXc_ctxAt]
  split <;> rfl

@[simp] theorem modRun_xc (f : RunStep → RunStep) (e : Nat) :
    (m.modRun c f).xc e = if e = c then { m.xc c with run := (m.xc c).run.map f } else m.xc e :=
  modXc_xc m c _ e

@[simp] theorem modBase_xc (f : CtxBase → CtxBase) (e : Nat) : (m.modBase c f).xc e = m.xc e := by
  unfold Machine.xc
  rw [modBase_ctxAt]
  split
  next h => rw [h]
  next => rfl

@[simp] theorem modTile_xc (l : Nat) (f : TileRec → TileRec) : (m.modTile l f).xc c = m.xc c := rfl
@[simp] theorem modXc_tileAt (f : Xc → Xc) (l : Nat) : (m.modXc c f).tileAt l = m.tileAt l := rfl

@[simp] theorem modRun_tileAt (f : RunStep → RunStep) (l : Nat) : (m.modRun c f).tileAt l = m.tileAt l := rfl

theorem detect_tileAt (v : Viol) (l : Nat) : (m.detect c v).tileAt l = m.tileAt l := rfl

end

/-! ### Operations that carry data

Tokens and collective operations write tile stores and charge meters; every context's execution record and the rest of every tile stay. -/

/-- A tile but for its store. -/
def TileRec.sansStore (t : TileRec) : TileRec := { t with store := [] }

/-- Data was carried: every context's execution record is as it was, and every tile but for its store. -/
structure Carried (m a : Machine) : Prop where
  xc : ∀ c, a.xc c = m.xc c
  tile : ∀ l, (a.tileAt l).sansStore = (m.tileAt l).sansStore

section
variable {m a b : Machine}

theorem Carried.refl : Carried m m := ⟨fun _ => rfl, fun _ => rfl⟩

theorem Carried.trans (h : Carried m a) (h' : Carried a b) : Carried m b :=
  ⟨fun c => (h'.xc c).trans (h.xc c), fun l => (h'.tile l).trans (h.tile l)⟩

theorem Carried.of_kept {W : List Area} (h : Kept W m a) (hctx : Area.ctx ∉ W) (htiles : Area.tiles ∉ W) : Carried m a :=
  ⟨h.xc hctx, fun l => congrArg TileRec.sansStore (h.tileAt htiles l)⟩

theorem Carried.ite {p : Prop} [Decidable p] (h : Carried m a) (h' : Carried m b) : Carried m (if p then a else b) := by
  split <;> assumption

theorem Carried.iteFst {β : Type} {p : Prop} [Decidable p] {x y : Machine × β} (h : Carried m x.1) (h' : Carried m y.1) :
    Carried m (if p then x else y).1 := by
  split <;> assumption

theorem Carried.ofFst {β : Type} {e : Machine × β} {x : Machine} {y : β} (he : e = (x, y)) (h : Carried m e.1) : Carried m x := by
  rw [he] at h
  exact h

theorem Carried.foldl {β : Type} {f : Machine → β → Machine} (hf : ∀ x e, Carried x (f x e)) (l : List β) (m : Machine) :
    Carried m (l.foldl f m) := by
  induction l generalizing m with
  | nil => exact .refl
  | cons e l ih => exact (hf m e).trans (ih (f m e))

variable (m)

theorem modBase_carried (c : Nat) (f : CtxBase → CtxBase) : Carried m (m.modBase c f) := ⟨modBase_xc m c f, fun _ => rfl⟩

theorem meter_carried (c : Nat) (f : Meters → Meters) : Carried m (m.meter c f) := by
  unfold Machine.meter
  exact modBase_carried m c _

theorem meterLink_carried (c n : Nat) : Carried m (m.meterLink c n) := meter_carried m c _
theorem meterHbm_carried (c n : Nat) : Carried m (m.meterHbm c n) := meter_carried m c _
theorem meterTile_carried (c l n : Nat) : Carried m (m.meterTile c l n) := modBase_carried m c _

theorem storeWrite_carried (l line : Nat) (bs : List Byte) : Carried m (m.storeWrite l line bs) :=
  ⟨fun _ => rfl, fun k => by
    unfold Machine.storeWrite
    rw [modTile_tileAt]
    split
    next h => rw [h]; rfl
    next => rfl⟩

theorem setColl_carried (s : Nat) (r : Option CollRec) : Carried m (m.setColl s r) := ⟨fun _ => rfl, fun _ => rfl⟩

theorem luffStep_carried (n : Nat) : Carried m (m.luffStep n) := ⟨fun _ => rfl, fun _ => rfl⟩

theorem inject_carried (d type : Nat) (last : Bool) (dst : NodeId) (tag stream txn gen opx : Nat) (payload : List Byte) :
    Carried m (m.inject d type last dst tag stream txn gen opx payload) :=
  .of_kept (W := [.fwd, .txSeq]) (by apply inject_kept .refl <;> decide) (by decide) (by decide)

theorem sendColl_carried (s : Nat) (r : CollRec) (dst : NodeId) (round : Nat) (bs : List Byte) :
    Carried m (m.sendColl s r dst round bs) :=
  Carried.foldl (fun x _ => ((inject_carried x _ _ _ _ _ _ _ _ _ _).trans (meterLink_carried _ _ _)).trans (luffStep_carried _ _)) _ m

theorem senseStep_carried (s : Nat) (r : CollRec) (i : Nat) : Carried m (m.senseStep s r i).1 := by
  unfold Machine.senseStep
  split
  · exact .refl
  · refine .iteFst (sendColl_carried m _ _ _ _ _) (.iteFst ?_ .refl)
    dsimp only
    split <;> exact .refl

theorem foldl_senseStep_carried (s : Nat) (l : List Nat) (p : Machine × CollRec) :
    Carried p.1 (l.foldl (fun p i => p.1.senseStep s p.2 i) p).1 := by
  induction l generalizing p with
  | nil => exact .refl
  | cons i l ih => exact (senseStep_carried p.1 s p.2 i).trans (ih _)

theorem foldl_sendColl_carried (s : Nat) (r : CollRec) (round : Nat) (bs : List Byte) (l : List NodeId) :
    Carried m (l.foldl (fun m c => m.sendColl s r c round bs) m) :=
  Carried.foldl (fun x c => sendColl_carried x s r c round bs) l m

theorem treeStep_carried (s : Nat) (r : CollRec) : Carried m (m.treeStep s r).1 := by
  unfold Machine.treeStep
  extract_lets +onlyGivenNames len
  split
  next up down _ =>
  extract_lets +onlyGivenNames toChildren others q
  have hdown (x : Machine) (r : CollRec) : Carried x (toChildren x r) := foldl_sendColl_carried x s r down r.data r.children
  split
  case h_1 =>
    split
    · exact hdown m r
    · split
      · exact .refl
      · exact hdown m _
  case h_2 =>
    split
    next x _ hx =>
    have hout : Carried m x := by
      refine .ofFst hx (.iteFst (Carried.foldl (fun y o => ?_) _ m) .refl)
      exact sendColl_carried y s r o.1 0 _
    exact .iteFst hout hout
  case h_3 =>
    split
    next x y hx =>
    have hup : Carried m x := by
      refine .ofFst hx (.iteFst ?_ .refl)
      dsimp only
      split
      · exact sendColl_carried m s _ _ up _
      · exact .refl
    refine .iteFst hup (.iteFst hup ?_)
    split
    · exact hup.trans (hdown x y)
    · split
      · exact hup
      · exact hup.trans (hdown x _)

theorem collLand_carried (r : CollRec) : Carried m (m.collLand r) := by
  unfold Machine.collLand
  split
  · exact .refl
  · exact Carried.foldl (fun x j => storeWrite_carried x _ _ _) _ m

theorem collComplete_carried (s : Nat) (r : CollRec) : Carried m (m.collComplete s r) :=
  (collLand_carried m r).trans (setColl_carried _ _ _)

theorem collAdvance_carried (s : Nat) (r : CollRec) (fuel : Nat) : Carried m (m.collAdvance s r fuel) := by
  induction fuel generalizing m r with
  | zero => exact setColl_carried m s _
  | succ fuel ih =>
    unfold Machine.collAdvance
    refine .ite (setColl_carried m s _) (.ite (collComplete_carried m s r) (.ite (setColl_carried m s _) (.ite ?ring ?tree)))
    case ring =>
      refine .ite (collComplete_carried m s r) (.ite (setColl_carried m s _) ?_)
      exact (foldl_senseStep_carried s (List.range r.senses.length) (m, r)).trans (ih _ _)
    case tree =>
      have htree := treeStep_carried m s r
      exact .ite (htree.trans (collComplete_carried _ s _)) (htree.trans (setColl_carried _ s _))

theorem collSupply_carried (s : Nat) (bs : List Byte) : Carried m (m.collSupply s bs) := by
  unfold Machine.collSupply
  split
  · exact .refl
  · exact .ite ((collLand_carried m _).trans (setColl_carried _ _ _)) (collAdvance_carried m s _ _)

theorem collFree_carried (s k : Nat) : Carried m (m.collFree s k) := by
  unfold Machine.collFree
  split
  · exact .ite (collAdvance_carried m s _ _) (setColl_carried m s _)
  · exact .refl

theorem modStrm_carried (n : Nat) (f : StreamRec → StreamRec) : Carried m (m.modStrm n f) := ⟨fun _ => rfl, fun _ => rfl⟩

theorem freeSlots_carried (n k : Nat) : Carried m (m.freeSlots n k) :=
  .of_kept (W := [.fwd, .txSeq, .strm]) (by apply freeSlots_kept .refl <;> decide) (by decide) (by decide)

theorem sendToken_carried (c n rel : Nat) (last : Bool) (payload : List Byte) : Carried m (m.sendToken c n rel last payload) :=
  ((inject_carried m _ _ _ _ _ _ _ _ _ _).trans (modStrm_carried _ _ _)).trans (meterLink_carried _ _ _)

theorem endSlots_carried (c : Nat) : Carried m (m.endSlots c) := by
  unfold Machine.endSlots
  split
  · refine Carried.foldl (fun x p => ?_) _ m
    split
    · refine .ite (modStrm_carried x _ _) (.ite (freeSlots_carried x _ _) (.ite ?_ .refl))
      split
      · exact collFree_carried x _ _
      · exact .refl
    · exact .refl
  · exact .refl

end

theorem Carried.lines {m a : Machine} (h : Carried m a) (l : Nat) : (a.tileAt l).lines = (m.tileAt l).lines := congrArg (·.lines) (h.tile l)
theorem Carried.tokens {m a : Machine} (h : Carried m a) (l : Nat) : (a.tileAt l).tokens = (m.tileAt l).tokens := congrArg (·.tokens) (h.tile l)
theorem Carried.phase {m a : Machine} (h : Carried m a) (l : Nat) : (a.tileAt l).phase = (m.tileAt l).phase := congrArg (·.phase) (h.tile l)

/-! ### What settling an image's tiles leaves

Settling offers tokens, lets waiting tiles go on and detects hopeless waits (09 R268, R286): no line and no token comes or goes. -/

/-- What a token is: its channel, its index and its line, but not whether it is offered. -/
def TokenOp.ident (k : TokenOp) : Nat × Nat × Nat := (k.ch, k.k, k.line)

/-- Every tile has its lines and tokens as they were, but for the tokens' offers, and every context what `p` reads of its execution record. -/
structure Settled {β : Type} (p : Xc → β) (m a : Machine) : Prop where
  xc : ∀ c, p (a.xc c) = p (m.xc c)
  lines : ∀ l, (a.tileAt l).lines = (m.tileAt l).lines
  tokens : ∀ l, (a.tileAt l).tokens.map TokenOp.ident = (m.tileAt l).tokens.map TokenOp.ident

section
variable {m a b : Machine} {β : Type} {p : Xc → β}

theorem Settled.refl : Settled p m m := ⟨fun _ => rfl, fun _ => rfl, fun _ => rfl⟩

theorem Settled.trans (h : Settled p m a) (h' : Settled p a b) : Settled p m b :=
  ⟨fun c => (h'.xc c).trans (h.xc c), fun l => (h'.lines l).trans (h.lines l), fun l => (h'.tokens l).trans (h.tokens l)⟩

theorem Settled.ite {q : Prop} [Decidable q] (h : Settled p m a) (h' : Settled p m b) : Settled p m (if q then a else b) := by
  split <;> assumption

theorem Settled.foldl {γ : Type} {f : Machine → γ → Machine} (hf : ∀ x e, Settled p x (f x e)) (l : List γ) (m : Machine) :
    Settled p m (l.foldl f m) := by
  induction l generalizing m with
  | nil => exact .refl
  | cons e l ih => exact (hf m e).trans (ih (f m e))

theorem Carried.settled (h : Carried m a) : Settled p m a :=
  ⟨fun c => congrArg p (h.xc c), h.lines, fun l => congrArg (List.map TokenOp.ident) (h.tokens l)⟩

variable (m)

theorem modTile_settled (l : Nat) {f : TileRec → TileRec} (hlines : ∀ t, (f t).lines = t.lines)
    (htokens : ∀ t, (f t).tokens.map TokenOp.ident = t.tokens.map TokenOp.ident) : Settled p m (m.modTile l f) where
  xc _ := rfl
  lines k := by
    rw [modTile_tileAt]
    split
    next h => rw [h, hlines]
    next => rfl
  tokens k := by
    rw [modTile_tileAt]
    split
    next h => rw [h, htokens]
    next => rfl

theorem modXc_settled (c : Nat) {f : Xc → Xc} (hf : ∀ x, p (f x) = p x) : Settled p m (m.modXc c f) where
  xc e := by
    rw [modXc_xc]
    split
    next h => rw [h, hf]
    next => rfl
  lines _ := rfl
  tokens _ := rfl

theorem advance_settled (l : Nat) : Settled p m (m.modTile l TileRec.advance) := modTile_settled m l (fun _ => rfl) fun _ => rfl

theorem waitIn_settled (l : Nat) (ph : TilePhase) : Settled p m (m.waitIn l ph) := modTile_settled m l (fun _ => rfl) fun _ => rfl

theorem detect_settled (c : Nat) (v : Viol) : Settled (·.run) m (m.detect c v) :=
  modXc_settled m c fun x => by split <;> rfl

theorem offerToken_settled (x : ActiveTile) (l : Nat) (k : TokenOp) (ch : ChanRec) : Settled p m (m.offerToken x l k ch) := by
  have hoffer : Settled p m (m.modTile l fun t =>
      { t with tokens := t.tokens.map fun x => if x = k then { x with offered := true } else x }) := by
    refine modTile_settled m l (fun _ => rfl) fun t => ?_
    rw [List.map_map]
    refine List.map_congr_left fun y _ => ?_
    rw [Function.comp_apply]
    split <;> rfl
  unfold Machine.offerToken
  refine .ite (hoffer.trans (sendToken_carried _ _ _ _ _ _).settled) (.ite ?_ hoffer)
  split
  · exact hoffer.trans (collSupply_carried _ _ _).settled
  · exact hoffer

theorem offerAll_settled (c : Nat) : Settled p m (m.offerAll c) := by
  unfold Machine.offerAll
  refine Settled.foldl (fun x l => Settled.foldl (fun y k => ?_) _ x) _ m
  split
  · exact .refl
  · split
    · exact .ite (offerToken_settled y _ _ _ _) .refl
    · exact .refl

theorem tileDone_settled (x : ActiveTile) (l : Nat) : Settled (·.run) m (m.tileDone x l) := by
  have hdone : Settled (·.run) m ((m.modTile l fun t => { t with phase := .done }).meterTile x.c l
      (m.ns - max x.run.releaseAt.toNat m.part.meterMark.toNat)) :=
    (modTile_settled m l (f := fun t => { t with phase := .done }) (fun _ => rfl) fun _ => rfl).trans (meterTile_carried _ _ _ _).settled
  unfold Machine.tileDone
  refine .ite ?_ hdone
  split
  · exact hdone.trans (detect_settled _ _ _)
  · exact hdone

theorem settleTile_settled (l : Nat) : Settled (·.run) m (m.settleTile l) := by
  unfold Machine.settleTile
  split
  · exact .refl
  · dsimp only
    split
    · exact .ite (advance_settled m l) .refl
    · exact .ite (advance_settled m l) .refl
    · exact .ite (tileDone_settled m _ l) .refl
    · exact .refl

theorem settle_settled (c : Nat) : Settled (·.run) m (m.settle c) := by
  have htiles : Settled (·.run) m (((m.offerAll c).imageTiles c).foldl (fun m l => m.settleTile l) (m.offerAll c)) :=
    (offerAll_settled m c).trans (Settled.foldl (fun x l => settleTile_settled x l) _ _)
  unfold Machine.settle
  dsimp only
  split
  · exact htiles.trans (detect_settled _ _ _)
  · exact htiles

end

end Sys2Proof.Machine

/-! ## Transfers, waits and control of a tile (09 R268, R273, R276, R279, R286; 08 R249, R251; 15 R446) -/

namespace Sys2Proof.Machine

/-! ### The tile that issues -/

section
variable {m : Machine} {l : Nat} {a : ActiveTile} {w : TWord} {op : Nat}

/-- A tile is active in a context whose bound image and released step are those it names, with no violation detected. -/
theorem activeTile_step (h : m.activeTile l = some a) :
    (m.xc a.c).image = some a.b ∧ (m.xc a.c).run = some a.run ∧ a.run.released = true ∧ (m.xc a.c).detected = none := by
  obtain ⟨c, -, hc⟩ := List.exists_of_findSome?_eq_some h
  split at hc
  next b r hb hr =>
    split at hc
    next hgo =>
      obtain ⟨t, -, rfl⟩ := Option.map_eq_some_iff.mp hc
      obtain ⟨hrel, hdet⟩ := Bool.and_eq_true_iff.mp hgo
      exact ⟨hb, hr, hrel, Option.isNone_iff_eq_none.mp hdet⟩
    next => cases hc
  next => cases hc

/-- A tile that issues a word is active and runs, and the word is the one it fetches next. -/
theorem issueWord_tile (h : m.issueWord l op = some (a, w)) :
    m.activeTile l = some a ∧ (m.tileAt l).phase = .running ∧ w = tword (m.nextWord l a) := by
  unfold Machine.issueWord at h
  split at h
  next => cases h
  next b hb =>
    dsimp only at h
    split at h
    next hgo =>
      cases h
      exact ⟨hb, hgo.1, rfl⟩
    next => cases h

theorem issueWord_step (h : m.issueWord l op = some (a, w)) :
    (m.xc a.c).image = some a.b ∧ (m.xc a.c).run = some a.run ∧ a.run.released = true ∧ (m.xc a.c).detected = none :=
  activeTile_step (issueWord_tile h).1

end

/-! ### Violations and channels -/

section
variable (m : Machine) (c : Nat)

/-- The first violation of an image that is not halted stands (09 R286). -/
theorem detect_detected {m : Machine} {c : Nat} (himage : (m.xc c).image.isSome = true) (hstate : (m.xc c).state ≠ .halted)
    (hnone : (m.xc c).detected = none) (v : Viol) : ((m.detect c v).xc c).detected = some v := by
  unfold Machine.detect
  rw [modXc_xc, if_pos rfl, if_pos ⟨himage, hstate, by rw [hnone]; rfl⟩]

theorem chanRun_of_run {a : Machine} (h : (a.xc c).run = (m.xc c).run) (ch : Nat) : a.chanRun c ch = m.chanRun c ch := by
  unfold Machine.chanRun
  rw [h]

theorem modRun_chanRun {f : RunStep → RunStep} (hf : ∀ r, (f r).chans = r.chans) (ch : Nat) :
    (m.modRun c f).chanRun c ch = m.chanRun c ch := by
  unfold Machine.chanRun
  rw [modRun_xc, if_pos rfl]
  cases (m.xc c).run with
  | none => rfl
  | some r => exact congrArg (tget ChanRun.reset · ch) (hf r)

theorem modChan_chanRun {m : Machine} {c : Nat} {r : RunStep} (h : (m.xc c).run = some r) (ch : Nat) (f : ChanRun → ChanRun) :
    (m.modChan c ch f).chanRun c ch = f (m.chanRun c ch) := by
  unfold Machine.modChan Machine.chanRun
  rw [modRun_xc, if_pos rfl, h]
  exact tget_tset_same _ _ _ _

end

/-! ### Lines are issued -/

/-- The i-th line of an HRD or HWR of a tile whose next line has number `n`. -/
def TWord.lineOp (w : TWord) (a : ActiveTile) (write : Bool) (n i : Nat) : LineOp :=
  { write := write, n := n + i, addr := a.b.hbmBase + lineOffset a w i, line := w.l1 + i }

/-- The lines of an HRD or HWR up to the first outside the region or the pages. -/
def Machine.goodLines (m : Machine) (a : ActiveTile) (w : TWord) : List Nat :=
  (List.range w.n).takeWhile fun i => m.lineOk a (lineOffset a w i)

section
variable {m : Machine} {l : Nat} {a : ActiveTile} {w : TWord}

theorem goodLines_of_all (h : ∀ i < w.n, m.lineOk a (lineOffset a w i) = true) : m.goodLines a w = List.range w.n :=
  List.takeWhile_eq_self_iff.mpr fun i hi => h i (List.mem_range.mp hi)

theorem goodLines_of_first (hn : 0 < w.n) (h : m.lineOk a (lineOffset a w 0) = false) : m.goodLines a w = [] := by
  obtain ⟨n, hn⟩ := Nat.exists_eq_succ_of_ne_zero hn.ne'
  rw [Machine.goodLines, hn, List.range_succ_eq_map, List.takeWhile_cons_of_neg (by simp [h])]

/-- An HRD or HWR issues its lines in order up to the first that violates. -/
theorem issueLines_lines (write : Bool) : ((m.issueLines l a w write).tileAt l).lines =
    (m.tileAt l).lines ++ (m.goodLines a w).map (w.lineOp a write (m.tileAt l).lineN) := by
  unfold Machine.issueLines
  dsimp only
  split
  · rw [(settle_settled _ _).lines, modTile_tileAt, if_pos rfl, modTile_tileAt, if_pos rfl]
    rfl
  · rw [detect_tileAt, modTile_tileAt, if_pos rfl]
    rfl

theorem issueLines_violates {write : Bool} (hshort : (m.goodLines a w).length ≠ w.n) (himage : (m.xc a.c).image.isSome = true)
    (hstate : (m.xc a.c).state ≠ .halted) (hnone : (m.xc a.c).detected = none) :
    ((m.issueLines l a w write).xc a.c).detected = some { reason := 7, ch := 0, tile := some a.t } := by
  unfold Machine.issueLines
  dsimp only
  split
  next h => exact absurd h hshort
  next => exact detect_detected himage hstate hnone _

end

section
variable {l : TileId} {a : ActiveTile} {w : TWord} {s : State}

theorem hrd_of_issue (h : s.m.issueWord l 0x07 = some (a, w)) : exec (.hrd l) s = done s (s.m.issueLines l a w false) := by
  show execHrd l s = _
  rw [execHrd, h]

theorem hwr_of_issue (h : s.m.issueWord l 0x08 = some (a, w)) : exec (.hwr l) s = done s (s.m.issueLines l a w true) := by
  show execHwr l s = _
  rw [execHwr, h]

theorem hrd_issues (h : s.m.issueWord l 0x07 = some (a, w)) (hok : ∀ i < w.n, s.m.lineOk a (lineOffset a w i) = true) :
    Completes (.hrd l) s fun m => (m.tileAt l).lines =
      (s.m.tileAt l).lines ++ (List.range w.n).map (w.lineOp a false (s.m.tileAt l).lineN) :=
  .of_done (hrd_of_issue h) (by rw [issueLines_lines, goodLines_of_all hok])

theorem hwr_issues (h : s.m.issueWord l 0x08 = some (a, w)) (hok : ∀ i < w.n, s.m.lineOk a (lineOffset a w i) = true) :
    Completes (.hwr l) s fun m => (m.tileAt l).lines =
      (s.m.tileAt l).lines ++ (List.range w.n).map (w.lineOp a true (s.m.tileAt l).lineN) :=
  .of_done (hwr_of_issue h) (by rw [issueLines_lines, goodLines_of_all hok])

theorem hrd_violates (h : s.m.issueWord l 0x07 = some (a, w)) (hn : 0 < w.n) (hbad : s.m.lineOk a (lineOffset a w 0) = false)
    (hstate : (s.m.xc a.c).state = .running) : Completes (.hrd l) s fun m => (m.tileAt l).lines = (s.m.tileAt l).lines ∧
      (m.xc a.c).detected = some { reason := 7, ch := 0, tile := some a.t } := by
  obtain ⟨himage, -, -, hnone⟩ := issueWord_step h
  have hgood := goodLines_of_first hn hbad
  refine .of_done (hrd_of_issue h) ⟨?_, issueLines_violates ?_ (by rw [himage]; rfl) (by rw [hstate]; decide) hnone⟩
  · rw [issueLines_lines, hgood, List.map_nil, List.append_nil]
  · rw [hgood]
    exact hn.ne

end

/-! ### Tokens are issued -/

/-- A tile once it has issued k tokens of a class, from index `first` of a SEND's channel on. -/
def TileRec.issueTokens (t : TileRec) (cls : TokenClass) (w : TWord) (first k : Nat) : TileRec :=
  let n0 := if cls = .crossDie then t.xdieN else t.fabN
  { t with
    xdieN := if cls = .crossDie then t.xdieN + k else t.xdieN
    fabN := if cls = .fabric then t.fabN + k else t.fabN
    tokens := t.tokens ++ (List.range k).map fun i =>
      { ch := w.ch, k := first + i, n := n0 + i, line := w.l1 + i, offered := false } }

/-- The machine once a tile has issued k tokens of a SEND, before it settles. -/
def Machine.sendTokens (m : Machine) (l : Nat) (a : ActiveTile) (w : TWord) (k : Nat) : Machine :=
  (m.modTile l fun t => t.issueTokens (((a.b.chan? w.ch).map fun ch => m.tokenClass a ch).getD .sameDie) w
    (m.chanRun a.c w.ch).issued k).modChan a.c w.ch fun r => { r with issued := r.issued + k }

section
variable {m : Machine} {l : Nat} {a : ActiveTile} {w : TWord} {k : Nat}

theorem sendTokens_idents : ((m.sendTokens l a w k).tileAt l).tokens.map TokenOp.ident = (m.tileAt l).tokens.map TokenOp.ident ++
    (List.range k).map fun i => (w.ch, (m.chanRun a.c w.ch).issued + i, w.l1 + i) := by
  unfold Machine.sendTokens Machine.modChan
  rw [modRun_tileAt, modTile_tileAt, if_pos rfl]
  simp only [TileRec.issueTokens, List.map_append, List.map_map]
  rfl

theorem sendTokens_chanRun {r : RunStep} (h : (m.xc a.c).run = some r) : (m.sendTokens l a w k).chanRun a.c w.ch =
    { m.chanRun a.c w.ch with issued := (m.chanRun a.c w.ch).issued + k } :=
  modChan_chanRun (m := m.modTile l _) h w.ch _

theorem sendTokens_xc : ∃ run, (m.sendTokens l a w k).xc a.c = { m.xc a.c with run := run } :=
  ⟨_, (modRun_xc _ _ _ _).trans (if_pos rfl)⟩

theorem issueTokens_of_room {ch : ChanRec} (hch : a.b.chan? w.ch = some ch) (hsrc : ch.src = a.t)
    (hroom : (m.chanRun a.c w.ch).issued + w.n ≤ a.count w.ch) :
    m.issueTokens l a w = ((m.sendTokens l a w w.n).modTile l TileRec.advance).settle a.c := by
  have hmine : ((a.b.chan? w.ch).any fun r => r.src == a.t) = true := by simp [hch, hsrc]
  have hall : min w.n (a.count w.ch - (m.chanRun a.c w.ch).issued) = w.n := Nat.min_eq_left (by omega)
  unfold Machine.issueTokens
  simp only [hmine, if_true, hall]
  rfl

theorem issueTokens_of_excess (hn : 0 < w.n) (hexcess : a.count w.ch < (m.chanRun a.c w.ch).issued + w.n) :
    ∃ k, m.issueTokens l a w = ((m.sendTokens l a w k).offerAll a.c).detect a.c { reason := 2, ch := w.ch, tile := some a.t } := by
  refine ⟨_, if_neg ?_⟩
  split <;> omega

end

section
variable {l : TileId} {a : ActiveTile} {w : TWord} {s : State}

theorem send_of_issue (h : s.m.issueWord l 0x09 = some (a, w)) : exec (.send l) s = done s (s.m.issueTokens l a w) := by
  show execSend l s = _
  rw [execSend, h]

theorem send_issues {ch : ChanRec} (h : s.m.issueWord l 0x09 = some (a, w)) (hch : a.b.chan? w.ch = some ch) (hsrc : ch.src = a.t)
    (hroom : (s.m.chanRun a.c w.ch).issued + w.n ≤ a.count w.ch) : Completes (.send l) s fun m =>
      (m.chanRun a.c w.ch).issued = (s.m.chanRun a.c w.ch).issued + w.n ∧
      (m.tileAt l).tokens.map TokenOp.ident = (s.m.tileAt l).tokens.map TokenOp.ident ++
        (List.range w.n).map fun i => (w.ch, (s.m.chanRun a.c w.ch).issued + i, w.l1 + i) := by
  obtain ⟨-, hrun, -, -⟩ := issueWord_step h
  have hsettled : Settled (·.run) (s.m.sendTokens l a w w.n) (s.m.issueTokens l a w) := by
    rw [issueTokens_of_room hch hsrc hroom]
    exact (advance_settled _ _).trans (settle_settled _ _)
  refine .of_done (send_of_issue h) ⟨?_, (hsettled.tokens l).trans sendTokens_idents⟩
  rw [chanRun_of_run _ _ (hsettled.xc a.c), sendTokens_chanRun hrun]

theorem send_violates (h : s.m.issueWord l 0x09 = some (a, w)) (hn : 0 < w.n)
    (hexcess : a.count w.ch < (s.m.chanRun a.c w.ch).issued + w.n) (hstate : (s.m.xc a.c).state = .running) :
    Completes (.send l) s fun m => (m.xc a.c).detected = some { reason := 2, ch := w.ch, tile := some a.t } := by
  obtain ⟨himage, -, -, hnone⟩ := issueWord_step h
  obtain ⟨k, hk⟩ := issueTokens_of_excess (l := l.val) hn hexcess
  obtain ⟨run, hxc⟩ := sendTokens_xc (m := s.m) (l := l.val) (a := a) (w := w) (k := k)
  have hoffered : ((s.m.sendTokens l a w k).offerAll a.c).xc a.c = { s.m.xc a.c with run := run } :=
    ((offerAll_settled (p := id) _ _).xc a.c).trans hxc
  refine .of_done (send_of_issue h) ?_
  rw [hk]
  apply detect_detected <;> rw [hoffered]
  · simp [himage]
  · simp [hstate]
  · exact hnone

end

/-! ### RECV -/

section
variable {m : Machine} {l : Nat} {a : ActiveTile} {w : TWord}

/-- Freeing the earlier slots of a channel counts them and carries their tokens' room to their sender (09 R276). -/
theorem freeEarlier_carried (n : Nat) (ch : ChanRec) :
    Carried (m.modChan a.c n fun r => { r with freed := r.taken }) (m.freeEarlier a n ch) := by
  unfold Machine.freeEarlier
  refine .ite (freeSlots_carried _ _ _) (.ite ?_ .refl)
  split
  · exact collFree_carried _ _ _
  · exact .refl

/-- A RECV beyond the channel's count is a violation, whether or not the channel is this tile's (09 R286). -/
theorem issueRecv_of_excess (hexcess : a.count w.ch < (m.chanRun a.c w.ch).taken + w.n) :
    m.issueRecv l a w = m.detect a.c { reason := 3, ch := w.ch, tile := some a.t } := by
  unfold Machine.issueRecv
  split
  · rfl
  · exact if_pos (.inr hexcess)

theorem issueRecv_settled {ch : ChanRec} (hch : a.b.chan? w.ch = some ch) (hdst : ch.dst = a.t)
    (hroom : (m.chanRun a.c w.ch).taken + w.n ≤ a.count w.ch) :
    Settled (·.run) (((m.freeEarlier a w.ch ch).modChan a.c w.ch fun r => { r with taken := r.taken + w.n }).modRun a.c
      fun r => { r with recvCh := tset 0 r.recvCh l w.ch }) (m.issueRecv l a w) := by
  unfold Machine.issueRecv
  rw [hch]
  dsimp only
  rw [if_neg (by omega)]
  exact (waitIn_settled _ _ _).trans (settle_settled _ _)

theorem issueRecv_chanRun {ch : ChanRec} {r : RunStep} (hrun : (m.xc a.c).run = some r) (hch : a.b.chan? w.ch = some ch)
    (hdst : ch.dst = a.t) (hroom : (m.chanRun a.c w.ch).taken + w.n ≤ a.count w.ch) :
    (m.issueRecv l a w).chanRun a.c w.ch =
      { m.chanRun a.c w.ch with freed := (m.chanRun a.c w.ch).taken, taken := (m.chanRun a.c w.ch).taken + w.n } := by
  have hcarried := (freeEarlier_carried (m := m) (a := a) w.ch ch).xc a.c
  have hfreed : ((m.freeEarlier a w.ch ch).xc a.c).run.isSome = true := by
    rw [hcarried, Machine.modChan, modRun_xc, if_pos rfl, hrun]
    rfl
  obtain ⟨r', hr'⟩ := Option.isSome_iff_exists.mp hfreed
  calc (m.issueRecv l a w).chanRun a.c w.ch
      = _ := chanRun_of_run _ _ ((issueRecv_settled hch hdst hroom).xc a.c) w.ch
    _ = _ := modRun_chanRun _ a.c (f := fun r => { r with recvCh := tset 0 r.recvCh l w.ch }) (fun _ => rfl) w.ch
    _ = _ := modChan_chanRun hr' w.ch _
    _ = _ := by rw [chanRun_of_run _ _ (congrArg Xc.run hcarried), modChan_chanRun hrun]

end

section
variable {l : TileId} {a : ActiveTile} {w : TWord} {s : State}

theorem recv_of_issue (h : s.m.issueWord l 0x0A = some (a, w)) : exec (.recv l) s = done s (s.m.issueRecv l a w) := by
  show execRecv l s = _
  rw [execRecv, h]

theorem recv_takes {ch : ChanRec} (h : s.m.issueWord l 0x0A = some (a, w)) (hch : a.b.chan? w.ch = some ch) (hdst : ch.dst = a.t)
    (hroom : (s.m.chanRun a.c w.ch).taken + w.n ≤ a.count w.ch) : Completes (.recv l) s fun m =>
      (m.chanRun a.c w.ch).taken = (s.m.chanRun a.c w.ch).taken + w.n ∧
      (m.chanRun a.c w.ch).freed = (s.m.chanRun a.c w.ch).taken := by
  have hchan := issueRecv_chanRun (l := l.val) (issueWord_step h).2.1 hch hdst hroom
  exact .of_done (recv_of_issue h) ⟨congrArg ChanRun.taken hchan, congrArg ChanRun.freed hchan⟩

theorem recv_violates (h : s.m.issueWord l 0x0A = some (a, w)) (hexcess : a.count w.ch < (s.m.chanRun a.c w.ch).taken + w.n)
    (hstate : (s.m.xc a.c).state = .running) : Completes (.recv l) s fun m =>
      (m.xc a.c).detected = some { reason := 3, ch := w.ch, tile := some a.t } := by
  obtain ⟨himage, -, -, hnone⟩ := issueWord_step h
  refine .of_done (recv_of_issue h) ?_
  rw [issueRecv_of_excess hexcess]
  exact detect_detected (by rw [himage]; rfl) (by rw [hstate]; decide) hnone _

end

end Sys2Proof.Machine

namespace Sys2Proof.Machine

/-! ### An image of one tile settles

A tile that alone makes up its image and has no token in flight settles by its own waits: nothing is offered, and what is then detected
leaves the tiles. -/

section
variable {m : Machine} {c l : Nat}

theorem offerAll_alone (himage : m.imageTiles c = [l]) (htokens : (m.tileAt l).tokens = []) : m.offerAll c = m := by
  simp [Machine.offerAll, himage, htokens]

theorem settle_alone_tileAt (himage : m.imageTiles c = [l]) (htokens : (m.tileAt l).tokens = []) (k : Nat) :
    (m.settle c).tileAt k = (m.settleTile l).tileAt k := by
  unfold Machine.settle
  rw [offerAll_alone himage htokens]
  dsimp only
  rw [himage, List.foldl_cons, List.foldl_nil]
  split <;> rfl

theorem settleTile_store (k : Nat) : ((m.settleTile l).tileAt k).store = (m.tileAt k).store := by
  have hstore {f : TileRec → TileRec} (hf : ∀ t, (f t).store = t.store) : ((m.modTile l f).tileAt k).store = (m.tileAt k).store := by
    rw [modTile_tileAt]
    split
    next h => rw [h, hf]
    next => rfl
  have hdone (a : ActiveTile) : ((m.tileDone a l).tileAt k).store = (m.tileAt k).store := by
    have hphase := hstore (f := fun t => { t with phase := .done }) fun _ => rfl
    unfold Machine.tileDone
    dsimp only
    split
    · split <;> exact hphase
    · exact hphase
  unfold Machine.settleTile
  split
  · rfl
  · dsimp only
    split
    · split
      · exact hstore fun _ => rfl
      · rfl
    · split
      · exact hstore fun _ => rfl
      · rfl
    · split
      · exact hdone _
      · rfl
    · rfl

theorem settle_alone_store (himage : m.imageTiles c = [l]) (htokens : (m.tileAt l).tokens = []) (k : Nat) :
    ((m.settle c).tileAt k).store = (m.tileAt k).store := by
  rw [settle_alone_tileAt himage htokens, settleTile_store]

theorem settle_keeps (m : Machine) (c : Nat) : Kept [.fwd, .txSeq, .coll, .tiles, .strm, .luff, .ctx] m (m.settle c) := by
  apply settle_kept .refl <;> decide

variable {a : ActiveTile}

theorem settleTile_waiting (h : m.activeTile l = some a) (hphase : (m.tileAt l).phase = .waiting) :
    m.settleTile l = if ((tword (m.nextWord l a)).mask % 2 = 0 ∨ (m.tileAt l).lines.isEmpty) ∧
      ((tword (m.nextWord l a)).mask < 2 ∨ (m.tileAt l).tokens.isEmpty) then m.modTile l TileRec.advance else m := by
  unfold Machine.settleTile
  rw [h]
  dsimp only
  rw [hphase]

theorem settleTile_ending (h : m.activeTile l = some a) (hphase : (m.tileAt l).phase = .ending) :
    m.settleTile l = if (m.tileAt l).lines.isEmpty ∧ (m.tileAt l).tokens.isEmpty then m.tileDone a l else m := by
  unfold Machine.settleTile
  rw [h]
  dsimp only
  rw [hphase]

theorem tileDone_tileAt : (m.tileDone a l).tileAt l = { m.tileAt l with phase := .done } := by
  have htile := (modTile_tileAt m l (fun t => { t with phase := .done }) l).trans (if_pos rfl)
  unfold Machine.tileDone
  dsimp only
  split
  · split <;> exact htile
  · exact htile

/-- A tile that waits fetches the word it would fetch. -/
theorem waitIn_nextWord (p : TilePhase) (k : Nat) : (m.waitIn l p).nextWord k a = m.nextWord k a := by
  have htile : ((m.waitIn l p).tileAt k).store = (m.tileAt k).store ∧ ((m.waitIn l p).tileAt k).pc = (m.tileAt k).pc := by
    unfold Machine.waitIn
    rw [modTile_tileAt]
    split
    next h => rw [h]; exact ⟨rfl, rfl⟩
    next => exact ⟨rfl, rfl⟩
  unfold Machine.nextWord Machine.storeRead
  rw [htile.1, htile.2]
  rfl

theorem waitIn_tileAt (p : TilePhase) : (m.waitIn l p).tileAt l = { m.tileAt l with phase := p } :=
  (modTile_tileAt m l _ l).trans (if_pos rfl)

theorem settle_waitIn_alone (himage : m.imageTiles c = [l]) (htokens : (m.tileAt l).tokens = []) (p : TilePhase) :
    ((m.waitIn l p).settle c).tileAt l = ((m.waitIn l p).settleTile l).tileAt l :=
  settle_alone_tileAt (m := m.waitIn l p) himage (by rw [waitIn_tileAt]; exact htokens) l

end

/-! ### WAIT, LOOP and END -/

section
variable {l : TileId} {a : ActiveTile} {w : TWord} {s : State}

theorem wait_of_issue (h : s.m.issueWord l 0x0B = some (a, w)) : exec (.wait l) s = done s ((s.m.waitIn l .waiting).settle a.c) := by
  show execWait l s = _
  rw [execWait, h]

theorem loop_of_issue (h : s.m.issueWord l 0x0C = some (a, w)) : exec (.loop l) s = done s (s.m.modTile l fun t =>
    let p := loopNext (t.pc + 1) (if w.body = 0 then t.loops else { first := t.pc + 1, stop := t.pc + 1 + w.body, left := w.n } :: t.loops)
    { t with pc := p.1, loops := p.2 }) := by
  show execLoop l s = _
  rw [execLoop, h]

theorem tileEnd_of_issue (h : s.m.issueWord l 0x0D = some (a, w)) : exec (.tileEnd l) s = done s ((s.m.waitIn l .ending).settle a.c) := by
  show execTileEnd l s = _
  rw [execTileEnd, h]

theorem wait_passes_or_waits (h : s.m.issueWord l 0x0B = some (a, w)) (himage : s.m.imageTiles a.c = [l.val])
    (htokens : (s.m.tileAt l).tokens = []) : Completes (.wait l) s fun m =>
      ((s.m.tileAt l).lines = [] → m.tileAt l = (s.m.tileAt l).advance) ∧
      ((s.m.tileAt l).lines ≠ [] → w.mask % 2 = 1 → m.tileAt l = { s.m.tileAt l with phase := .waiting }) := by
  obtain ⟨hactive, -, hword⟩ := issueWord_tile h
  have htile := waitIn_tileAt (m := s.m) (l := l.val) .waiting
  have hsettle := settle_waitIn_alone himage htokens .waiting
  rw [settleTile_waiting (m := s.m.waitIn l .waiting) (a := a) hactive (by rw [htile]), waitIn_nextWord, ← hword, htile] at hsettle
  refine .of_done (wait_of_issue h) ⟨fun hlines => ?passes, fun hlines hmask => ?waits⟩
  case passes =>
    rw [hsettle, if_pos ⟨.inr (by simp [hlines]), .inr (by simp [htokens])⟩, modTile_tileAt, if_pos rfl, htile]
    rfl
  case waits =>
    rw [hsettle, if_neg (by simp [hlines, hmask]), htile]

theorem loop_enters (h : s.m.issueWord l 0x0C = some (a, w)) (hbody : w.body ≠ 0) : Completes (.loop l) s fun m =>
    m.tileAt l = { s.m.tileAt l with
      pc := (s.m.tileAt l).pc + 1
      loops := { first := (s.m.tileAt l).pc + 1, stop := (s.m.tileAt l).pc + 1 + w.body, left := w.n } :: (s.m.tileAt l).loops } := by
  refine .of_done (loop_of_issue h) ?_
  rw [modTile_tileAt, if_pos rfl]
  simp [loopNext, hbody]

theorem tileEnd_ends (h : s.m.issueWord l 0x0D = some (a, w)) (himage : s.m.imageTiles a.c = [l.val])
    (htokens : (s.m.tileAt l).tokens = []) : Completes (.tileEnd l) s fun m =>
      (m.tileAt l).phase = (if (s.m.tileAt l).lines.isEmpty then .done else .ending) ∧ (m.tileAt l).store = (s.m.tileAt l).store := by
  have htile := waitIn_tileAt (m := s.m) (l := l.val) .ending
  have hsettle := settle_waitIn_alone himage htokens .ending
  rw [settleTile_ending (m := s.m.waitIn l .ending) (a := a) (issueWord_tile h).1 (by rw [htile])] at hsettle
  refine .of_done (tileEnd_of_issue h) ?_
  rw [hsettle, htile]
  by_cases hlines : (s.m.tileAt l).lines.isEmpty = true
  · rw [if_pos hlines, if_pos ⟨hlines, by simp [htokens]⟩, tileDone_tileAt, htile]
    exact ⟨rfl, rfl⟩
  · rw [if_neg hlines, if_neg fun h => hlines h.1, htile]
    exact ⟨rfl, rfl⟩

end

/-! ### Tile stores and HBM -/

section
variable {m : Machine} {l line : Nat} {bs : List Byte}

theorem storeRead_length (l line n : Nat) : (m.storeRead l line n).length = n := by simp [Machine.storeRead]

/-- A tile store reads the bytes that were written there. -/
theorem storeRead_of_written (h : line * 256 + bs.length ≤ storeBytes)
    (hstore : (m.tileAt l).store = mwrite Config.blank t (line * 256) bs) : m.storeRead l line bs.length = bs := by
  refine List.ext_getElem (storeRead_length l line _) fun i hi hbs => ?_
  have hin : line * 256 + i < storeBytes := by omega
  have hwritten : line * 256 ≤ line * 256 + i ∧ line * 256 + i < line * 256 + bs.length := by omega
  simp only [Machine.storeRead, List.getElem_map, List.getElem_range]
  rw [if_pos hin, hstore, tget_mwrite_inside _ _ _ _ _ hwritten, Nat.add_sub_cancel_left]
  simp [hbs]

theorem hbmRead_length (a n : Nat) : (m.hbmRead a n).length = n := mread_length _ _ _ _

end

/-! ### A line completes -/

/-- A tile whose line is outstanding no more. -/
def TileRec.lineDone (t : TileRec) (x : LineOp) : TileRec := { t with lines := t.lines.filter (· != x) }

theorem lineDone_store (t : TileRec) (x : LineOp) (st : Table Byte) :
    { t with store := st }.lineDone x = { t.lineDone x with store := st } := rfl

section
variable {m : Machine} {c l : Nat} {x : LineOp}

theorem moveLine_of_read (h : x.write = false) : m.moveLine c l x =
    (((m.storeWrite l x.line (m.hbmRead x.addr 256)).modTile l (·.lineDone x)).meterHbm c 256).luffStep l := by
  unfold Machine.moveLine
  rw [h]
  rfl

theorem moveLine_of_write (h : x.write = true) : m.moveLine c l x =
    (((m.hbmWrite x.addr (m.storeRead l x.line 256)).modTile l (·.lineDone x)).meterHbm c 256).luffStep l := by
  unfold Machine.moveLine
  rw [h]
  rfl

/-- The end of a move is metered and counted: neither touches the tiles. -/
theorem lineMetered_tileAt (n k e : Nat) : (((m.modTile l (·.lineDone x)).meterHbm c n).luffStep k).tileAt e =
    if e = l then (m.tileAt l).lineDone x else m.tileAt e :=
  modTile_tileAt m l (·.lineDone x) e

theorem moveLine_read (hwrite : x.write = false) (hline : x.line * 256 + 256 ≤ storeBytes) :
    (m.moveLine c l x).tileAt l = { (m.tileAt l).lineDone x with
      store := mwrite Config.blank (m.tileAt l).store (x.line * 256) (m.hbmRead x.addr 256) } ∧ (m.moveLine c l x).hbm = m.hbm := by
  have hbytes : (m.hbmRead x.addr 256).length ≤ storeBytes - x.line * 256 := by
    rw [hbmRead_length]
    omega
  have hkept : Kept [.tiles, .luff, .ctx] m (m.moveLine c l x) := by
    rw [moveLine_of_read hwrite]
    apply luffStep_kept (meterHbm_kept (modTile_kept (storeWrite_kept .refl _ _ _ _) _ _ _) _ _ _) <;> decide
  refine ⟨?_, hkept.hbm (by decide)⟩
  rw [moveLine_of_read hwrite, lineMetered_tileAt, if_pos rfl, Machine.storeWrite, modTile_tileAt, if_pos rfl,
    List.take_of_length_le hbytes]
  exact lineDone_store _ _ _

theorem moveLine_write (hwrite : x.write = true) : (m.moveLine c l x).tileAt l = (m.tileAt l).lineDone x ∧
    (m.moveLine c l x).hbm = { m.hbm with bytes := mwrite Config.blank m.hbm.bytes x.addr (m.storeRead l x.line 256) } := by
  rw [moveLine_of_write hwrite, lineMetered_tileAt, if_pos rfl]
  exact ⟨rfl, rfl⟩

theorem imageTiles_congr {a : Machine} (hxc : (a.xc c).image = (m.xc c).image) (hlogical : a.logical = m.logical) :
    a.imageTiles c = m.imageTiles c := by
  show (match (a.xc c).image with
    | some b => (List.range b.img.tiles).map (a.logical c b)
    | none => []) = _
  rw [hxc, hlogical]
  rfl

theorem moveLine_xc (e : Nat) : (m.moveLine c l x).xc e = m.xc e := by
  unfold Machine.moveLine
  rw [(luffStep_carried _ _).xc, (meterHbm_carried _ _ _).xc, modTile_xc]
  split <;> rfl

theorem moveLine_imageTiles (e : Nat) : (m.moveLine c l x).imageTiles e = m.imageTiles e := by
  have hkept : Kept [.tiles, .hbm, .luff, .ctx] m (m.moveLine c l x) := by apply moveLine_kept .refl <;> decide
  exact imageTiles_congr (congrArg Xc.image (moveLine_xc e)) (hkept.logical (by decide) (by decide))

end

section
variable {l : TileId} {k : Fin 65536} {a : ActiveTile} {x : LineOp} {s : State}
variable (hactive : s.m.activeTile l = some a) (hx : (s.m.tileAt l).lines[k.val]? = some x)
include hactive hx

theorem completeLine_of_active : s.m.completeLine l k =
    if (s.m.tileAt l).portClosed || !((s.m.tileAt l).lines.all fun y => y.n + a.b.img.hbmLim != x.n) then s.m
    else if s.m.owns a.c (x.addr / pageBytes) then (s.m.moveLine a.c l x).settle a.c
    else s.m.detect a.c { reason := 7, ch := 0, tile := some a.t } := by
  unfold Machine.completeLine
  rw [hactive]
  dsimp only
  rw [hx]

theorem hbmLineComplete_waits {y : LineOp} (hy : y ∈ (s.m.tileAt l).lines) (hlim : y.n + a.b.img.hbmLim = x.n) :
    Ignored (.hbmLineComplete l k) s := by
  have hall : ((s.m.tileAt l).lines.all fun y => y.n + a.b.img.hbmLim != x.n) = false :=
    List.all_eq_false.mpr ⟨y, hy, by simp [hlim]⟩
  exact .of_done rfl (by rw [completeLine_of_active hactive hx, if_pos (by simp [hall])])

variable (hopen : (s.m.tileAt l).portClosed = false) (hlim : ∀ y ∈ (s.m.tileAt l).lines, y.n + a.b.img.hbmLim ≠ x.n)
include hopen hlim

theorem completeLine_of_open : s.m.completeLine l k =
    if s.m.owns a.c (x.addr / pageBytes) then (s.m.moveLine a.c l x).settle a.c
    else s.m.detect a.c { reason := 7, ch := 0, tile := some a.t } := by
  have hall : ((s.m.tileAt l).lines.all fun y => y.n + a.b.img.hbmLim != x.n) = true :=
    List.all_eq_true.mpr fun y hy => by simpa using hlim y hy
  rw [completeLine_of_active hactive hx, if_neg (by simp [hopen, hall])]

theorem hbmLineComplete_violates (howns : s.m.owns a.c (x.addr / pageBytes) = false) (hstate : (s.m.xc a.c).state ≠ .halted) :
    Completes (.hbmLineComplete l k) s fun m =>
      (m.xc a.c).detected = some { reason := 7, ch := 0, tile := some a.t } ∧ m.tileAt l = s.m.tileAt l ∧ m.hbm = s.m.hbm := by
  obtain ⟨himage, -, -, hnone⟩ := activeTile_step hactive
  refine .of_done rfl ?_
  rw [completeLine_of_open hactive hx hopen hlim, if_neg (by simp [howns])]
  exact ⟨detect_detected (by rw [himage]; rfl) hstate hnone _, rfl, rfl⟩

theorem hbmLineComplete_moves (howns : s.m.owns a.c (x.addr / pageBytes) = true) (himage : s.m.imageTiles a.c = [l.val])
    (htokens : (s.m.tileAt l).tokens = []) (hline : x.line * 256 + 256 ≤ storeBytes) : Completes (.hbmLineComplete l k) s fun m =>
      (m.tileAt l).lines = (s.m.tileAt l).lines.filter (· != x) ∧
      (x.write = false → m.storeRead l x.line 256 = s.m.hbmRead x.addr 256 ∧
        bytesOutside (s.m.tileAt l).store (m.tileAt l).store (x.line * 256) 256 ∧ m.hbm = s.m.hbm) ∧
      (x.write = true → m.hbmRead x.addr 256 = s.m.storeRead l x.line 256 ∧
        bytesOutside s.m.hbm.bytes m.hbm.bytes x.addr 256 ∧ (m.tileAt l).store = (s.m.tileAt l).store) := by
  refine .of_done rfl ?_
  rw [completeLine_of_open hactive hx hopen hlim, if_pos howns]
  have hsettled := settle_settled (s.m.moveLine a.c l x) a.c
  have hkept := settle_keeps (s.m.moveLine a.c l x) a.c
  have hstore (htokens' : ((s.m.moveLine a.c l x).tileAt l).tokens = []) :=
    settle_alone_store (moveLine_imageTiles a.c ▸ himage) htokens' l
  rw [hsettled.lines, hkept.hbm (by decide)]
  cases hwrite : x.write with
  | false =>
    obtain ⟨htile, hhbm⟩ := moveLine_read (m := s.m) (c := a.c) (l := l) hwrite hline
    have hstored := hstore (by rw [htile]; exact htokens)
    rw [htile] at hstored
    rw [htile]
    refine ⟨rfl, fun _ => ⟨?_, ?_, hhbm⟩, nofun⟩
    · have hread := storeRead_of_written (by rwa [hbmRead_length]) hstored
      rwa [hbmRead_length] at hread
    · intro y hy
      rw [hstored]
      exact tget_mwrite_outside _ _ _ _ _ (by rwa [hbmRead_length])
  | true =>
    obtain ⟨htile, hhbm⟩ := moveLine_write (m := s.m) (c := a.c) (l := l) hwrite
    have hstored := hstore (by rw [htile]; exact htokens)
    rw [htile] at hstored
    rw [htile, hhbm]
    refine ⟨rfl, nofun, fun _ => ⟨?_, ?_, hstored⟩⟩
    · have hread := mread_mwrite_same Config.blank s.m.hbm.bytes x.addr (s.m.storeRead l x.line 256)
      rw [storeRead_length] at hread
      unfold Machine.hbmRead
      rw [hkept.hbm (by decide), hhbm]
      exact hread
    · exact fun y hy => tget_mwrite_outside _ _ _ _ _ (by rwa [storeRead_length])

end

end Sys2Proof.Machine

namespace Sys2Proof.Machine

/-! ### A token is acknowledged -/

/-- A tile whose token is in flight no more. -/
def TileRec.tokenDone (t : TileRec) (k : TokenOp) : TileRec := { t with tokens := t.tokens.filter (· != k) }

/-- The machine once an offered token has arrived: its bytes stand in a TILE channel's slot, and it is in flight no more (09 R268). -/
def Machine.tokenArrived (m : Machine) (c : Nat) (b : BoundImage) (r : ChanRec) (k : TokenOp) : Machine :=
  let slots := if r.kind = 0 then
      m.storeWrite (m.logical c b r.dst) (r.bufLine + k.k % max 1 r.depth) (m.storeRead (m.logical c b r.src) k.line r.tokenBytes)
    else m
  (slots.modTile (m.logical c b r.src) (·.tokenDone k)).luffStep (m.logical c b r.src)

section
variable {m : Machine} {c : Nat} {b : BoundImage} {r : ChanRec} {k : TokenOp}

theorem tokenArrived_xc (e : Nat) : (m.tokenArrived c b r k).xc e = m.xc e := by
  unfold Machine.tokenArrived
  rw [(luffStep_carried _ _).xc, modTile_xc]
  split <;> rfl

theorem tokenArrived_tokens : ((m.tokenArrived c b r k).tileAt (m.logical c b r.src)).tokens =
    (m.tileAt (m.logical c b r.src)).tokens.filter (· != k) := by
  have hslots : Carried m (if r.kind = 0 then
      m.storeWrite (m.logical c b r.dst) (r.bufLine + k.k % max 1 r.depth) (m.storeRead (m.logical c b r.src) k.line r.tokenBytes)
    else m) := .ite (storeWrite_carried _ _ _ _) .refl
  unfold Machine.tokenArrived
  dsimp only
  rw [(luffStep_carried _ _).tokens, modTile_tileAt, if_pos rfl]
  exact congrArg (List.filter (· != k)) (hslots.tokens _)

variable {ch : Nat} (himage : (m.xc c).image = some b) (hch : b.chan? ch = some r) (hsrc : r.src ≠ 0xFFFF)
  (hk : ((m.tileAt (m.logical c b r.src)).tokens.find? fun k => k.ch == ch && k.offered) = some k)
include himage hch hsrc hk

theorem ackToken_of_offered : m.ackToken c ch =
    if ((m.xc c).run.any fun r => r.released) && (m.xc c).detected.isNone then
      ((m.tokenArrived c b r k).modChan c ch fun x => { x with acked := x.acked + 1 }).settle c
    else m.tokenArrived c b r k := by
  unfold Machine.ackToken
  rw [himage]
  dsimp only
  rw [hch]
  dsimp only
  rw [hk]
  dsimp only
  rw [if_neg (by simpa using hsrc), ← tokenArrived_xc (m := m) (b := b) (r := r) (k := k) c]
  rfl

end

section
variable {c : CtxId} {ch : Fin 1024} {b : BoundImage} {rec_ : ChanRec} {k : TokenOp} {s : State}
variable (himage : (s.m.xc c).image = some b) (hch : b.chan? ch = some rec_) (hsrc : rec_.src ≠ 0xFFFF)
  (hk : ((s.m.tileAt (s.m.logical c b rec_.src)).tokens.find? fun k => k.ch == ch.val && k.offered) = some k)
include himage hch hsrc hk

theorem tokenAcknowledge_counts {r : RunStep} (hrun : (s.m.xc c).run = some r) (hrel : r.released = true)
    (hnone : (s.m.xc c).detected = none) : Completes (.tokenAcknowledge c ch) s fun m =>
      (m.chanRun c ch).acked = (s.m.chanRun c ch).acked + 1 ∧ (m.chanRun c ch).issued = (s.m.chanRun c ch).issued := by
  have hxc := tokenArrived_xc (m := s.m) (c := c) (b := b) (r := rec_) (k := k) c
  have hchan : (s.m.ackToken c ch).chanRun c ch = { s.m.chanRun c ch with acked := (s.m.chanRun c ch).acked + 1 } := by
    rw [ackToken_of_offered himage hch hsrc hk, if_pos (by simp [hrun, hrel, hnone]),
      chanRun_of_run _ _ ((settle_settled _ _).xc c), modChan_chanRun (by rw [hxc]; exact hrun),
      chanRun_of_run _ _ (congrArg Xc.run hxc)]
  exact .of_done rfl ⟨by rw [hchan], by rw [hchan]⟩

theorem tokenAcknowledge_of_stopped (hdetected : (s.m.xc c).detected ≠ none) : Completes (.tokenAcknowledge c ch) s fun m =>
    m.chanRun c ch = s.m.chanRun c ch ∧ (m.tileAt (s.m.logical c b rec_.src)).tokens =
      (s.m.tileAt (s.m.logical c b rec_.src)).tokens.filter (· != k) := by
  refine .of_done rfl ?_
  rw [ackToken_of_offered himage hch hsrc hk, if_neg (by simp [hdetected])]
  exact ⟨chanRun_of_run _ _ (congrArg Xc.run (tokenArrived_xc c)) _, tokenArrived_tokens⟩

end

/-! ### Errors of a tile store -/

section
variable {l : TileId} {line : Fin 12288} {s : State}

/-- A tile that is lost: its port is closed for its reset, and its lines and tokens are gone (15 R434, R446). -/
def TileRec.lost (t : TileRec) (now : DWord) (retire : Bool) : TileRec :=
  { t with portClosed := true, resetAt := some now, toRetire := t.toRetire || retire, lines := [], tokens := [] }

theorem loseTile_tileAt (m : Machine) (l k : Nat) (retire : Bool) :
    (m.loseTile l retire).tileAt k = if k = l then (m.tileAt l).lost m.time.now retire else m.tileAt k := by
  unfold Machine.loseTile
  split
  · exact modTile_tileAt (m.detect _ _) l (·.lost m.time.now retire) k
  · exact modTile_tileAt m l (·.lost m.time.now retire) k

theorem raiseTile_keeps (m : Machine) (src l : Nat) : Kept [.ttl] m (m.raiseTile src l) :=
  raiseTile_kept .refl _ _ (by decide)

theorem tileStoreUncorr_corrects (hvalid : (s.m.mapAt l).valid = true) : Completes (.tileStoreUncorr l line true) s fun m =>
    m = s.m.raise (srcTileStore l 0) l :=
  .of_done rfl (if_pos hvalid)

theorem tileStoreUncorr_ignored (hvalid : (s.m.mapAt l).valid = false) (corrected : Bool) :
    Ignored (.tileStoreUncorr l line corrected) s :=
  .of_done rfl (if_neg (by simp [hvalid]))

theorem tileStoreUncorr_closes (hvalid : (s.m.mapAt l).valid = true) : Completes (.tileStoreUncorr l line false) s fun m =>
    (m.tileAt l).badLines.contains line.val = true ∧ (m.tileAt l).portClosed = true ∧ (m.tileAt l).resetAt = some s.m.time.now ∧
    (m.tileAt l).toRetire = true ∧ (m.tileAt l).lines = [] ∧ (m.tileAt l).tokens = [] ∧ (m.tileAt l).store = (s.m.tileAt l).store ∧
    ∀ k, k ≠ l.val → m.tileAt k = s.m.tileAt k := by
  have hraised := raiseTile_keeps s.m (srcTileStore l.val 1) l
  have hlost (k : Nat) : ((s.m.raiseTile (srcTileStore l.val 1) l.val).loseTile l.val true).tileAt k =
      if k = l.val then (s.m.tileAt l).lost s.m.time.now true else s.m.tileAt k := by
    rw [loseTile_tileAt, hraised.tileAt (by decide), hraised.tileAt (by decide), hraised.time (by decide)]
  refine .of_done rfl ?_
  rw [if_pos hvalid, if_neg (by decide)]
  refine ⟨?bad, ?_, ?_, ?_, ?_, ?_, ?_, fun k hk => ?others⟩
  case bad =>
    rw [modTile_tileAt, if_pos rfl]
    dsimp only
    split
    next h => exact h
    next => simp
  case others => rw [modTile_tileAt, if_neg hk, hlost, if_neg hk]
  all_goals
    rw [modTile_tileAt, if_pos rfl, hlost, if_pos rfl]
    simp [TileRec.lost]

end

/-! ### A tile is retired -/

/-- The machine with a logical tile's entry of the tile map replaced. -/
def Machine.mapTile (m : Machine) (l : Nat) (e : TileMapRec) : Machine := { m with tileMap := tset .reset m.tileMap l e }

/-- The machine once the physical tile under a logical tile is retired. -/
def Machine.retirePhys (m : Machine) (l : Nat) : Machine := m.setPhys (l / 32) (m.mapAt l).phys { use := .retired, logical := 0 }

/-- Whether a physical tile may take a logical tile's place: a spare of its die other than its own. -/
def Machine.canReplace (m : Machine) (l p : Nat) : Bool := p != (m.mapAt l).phys && (m.physAt (l / 32) p).use == .spare

/-- A logical tile as it stands on another physical tile, or on none: zeroed and open, with nothing pending (08 R251). -/
def TileRec.replaced (t : TileRec) : TileRec :=
  { t.zeroed with portClosed := false, resetAt := none, toRetire := false, lastExpiry := none, phase := .idle }

section
variable (m : Machine)

@[simp] theorem mapTile_mapAt (l : Nat) (e : TileMapRec) : (m.mapTile l e).mapAt l = e := tget_tset_same _ _ _ _
@[simp] theorem mapTile_physAt (l : Nat) (e : TileMapRec) (d p : Nat) : (m.mapTile l e).physAt d p = m.physAt d p := rfl
@[simp] theorem setPhys_mapAt (d p l : Nat) (r : PhysRec) : (m.setPhys d p r).mapAt l = m.mapAt l := rfl
@[simp] theorem modTile_mapAt (k l : Nat) (f : TileRec → TileRec) : (m.modTile k f).mapAt l = m.mapAt l := rfl
@[simp] theorem modTile_physAt (k d p : Nat) (f : TileRec → TileRec) : (m.modTile k f).physAt d p = m.physAt d p := rfl

@[simp] theorem setPhys_physAt (d p q : Nat) (r : PhysRec) : (m.setPhys d p r).physAt d q = if q = p then r else m.physAt d q := by
  unfold Machine.physAt Machine.setPhys
  rw [tget_tset]
  exact if_congr (by omega) rfl rfl

theorem Kept.mapAt {W : List Area} {m a : Machine} (h : Kept W m a) (hw : Area.tileMap ∉ W) (l : Nat) : a.mapAt l = m.mapAt l :=
  congrArg (tget TileMapRec.reset · l) (h.tileMap hw)

theorem Kept.physAt {W : List Area} {m a : Machine} (h : Kept W m a) (hw : Area.tilePhys ∉ W) (d p : Nat) :
    a.physAt d p = m.physAt d p :=
  congrArg (tget PhysRec.reset · (d * 36 + p)) (h.tilePhys hw)

theorem raise_keeps (src unit : Nat) : Kept [.ttl] m (m.raise src unit) := raise_kept .refl _ _ (by decide)

theorem floodOwn_keeps : Kept [.hly, .tkp, .slc, .ttl, .out] m m.floodOwn := by apply floodOwn_kept .refl <;> decide

theorem retirePhys_physAt (l p : Nat) : (m.retirePhys l).physAt (l / 32) p =
    if p = (m.mapAt l).phys then { use := .retired, logical := 0 } else m.physAt (l / 32) p :=
  setPhys_physAt m _ _ _ _

/-- With a tile's own physical tile retired, the spares are the die's other ones. -/
theorem spare_of_retirePhys (l : Nat) : (fun p => ((m.retirePhys l).physAt (l / 32) p).use == .spare) = m.canReplace l := by
  funext p
  rw [retirePhys_physAt]
  by_cases h : p = (m.mapAt l).phys <;> simp [Machine.canReplace, h]

variable {m} {l : Nat}

theorem retireTile_of_spare {p : Nat} (h : firstBelow 36 (m.canReplace l) = some p) : m.retireTile l =
    ((((m.retirePhys l).mapTile l { phys := p, valid := true, spare := true }).setPhys (l / 32) p { use := .mapped, logical := l }).modTile l
      TileRec.replaced).floodOwn := by
  rw [← spare_of_retirePhys] at h
  unfold Machine.retireTile
  dsimp only
  rw [← Machine.retirePhys, h]
  rfl

theorem retireTile_of_no_spare (h : firstBelow 36 (m.canReplace l) = none) : m.retireTile l =
    ((((m.retirePhys l).mapTile l { m.mapAt l with valid := false }).raise (srcSpare (l / 32)) (l / 32)).modTile l
      TileRec.replaced).floodOwn := by
  rw [← spare_of_retirePhys] at h
  unfold Machine.retireTile
  dsimp only
  rw [← Machine.retirePhys, h]
  rfl

end

section
variable {l : TileId} {s : State}

theorem tileRetire_of_first (hretirable : s.m.retirable l = true)
    (hfirst : ∀ k < l.val % 32, (s.m.tileAt (l.val / 32 * 32 + k)).toRetire = false) :
    exec (.tileRetire l) s = done s (s.m.retireTile l) := by
  have hlower : ((List.range (l.val % 32)).any fun k => (s.m.tileAt (l.val / 32 * 32 + k)).toRetire) = false :=
    List.any_eq_false.mpr fun k hk => by simp [hfirst k (List.mem_range.mp hk)]
  exact congrArg (done s) (if_pos (by simp [hretirable, hlower]))

theorem tileRetire_replaces {p : Nat} (hretirable : s.m.retirable l = true)
    (hfirst : ∀ k < l.val % 32, (s.m.tileAt (l.val / 32 * 32 + k)).toRetire = false)
    (hspare : firstBelow 36 (s.m.canReplace l) = some p) :
    Completes (.tileRetire l) s fun m => m.mapAt l = { phys := p, valid := true, spare := true } ∧
      m.physAt (l.val / 32) p = { use := .mapped, logical := l.val } ∧ (m.physAt (l.val / 32) (s.m.mapAt l).phys).use = .retired ∧
      (m.tileAt l).store = [] ∧ (m.tileAt l).acc = [] ∧ (m.tileAt l).portClosed = false ∧ (m.tileAt l).toRetire = false := by
  have hp := List.find?_some hspare
  simp only [Machine.canReplace, Bool.and_eq_true, bne_iff_ne] at hp
  have hkept := floodOwn_keeps ((((s.m.retirePhys l).mapTile l { phys := p, valid := true, spare := true }).setPhys (l.val / 32) p
    { use := .mapped, logical := l.val }).modTile l TileRec.replaced)
  refine .of_done (tileRetire_of_first hretirable hfirst) ?_
  rw [retireTile_of_spare hspare, hkept.mapAt (by decide), hkept.physAt (by decide), hkept.physAt (by decide),
    hkept.tileAt (by decide), modTile_tileAt, if_pos rfl]
  refine ⟨?_, ?_, ?_, rfl, rfl, rfl, rfl⟩ <;> simp [retirePhys_physAt, hp.1.symm]

theorem tileRetire_unmaps (hretirable : s.m.retirable l = true)
    (hfirst : ∀ k < l.val % 32, (s.m.tileAt (l.val / 32 * 32 + k)).toRetire = false)
    (hspareless : ∀ p < 36, p ≠ (s.m.mapAt l).phys → (s.m.physAt (l.val / 32) p).use ≠ .spare) :
    Completes (.tileRetire l) s fun m => (m.mapAt l).valid = false ∧
      (m.physAt (l.val / 32) (s.m.mapAt l).phys).use = .retired ∧ (m.tileAt l).store = [] := by
  have hnone : firstBelow 36 (s.m.canReplace l) = none :=
    List.find?_eq_none.mpr fun p hp => by simpa [Machine.canReplace] using hspareless p (List.mem_range.mp hp)
  have hraised := raise_keeps ((s.m.retirePhys l).mapTile l { s.m.mapAt l with valid := false }) (srcSpare (l.val / 32)) (l.val / 32)
  have hkept := floodOwn_keeps ((((s.m.retirePhys l).mapTile l { s.m.mapAt l with valid := false }).raise (srcSpare (l.val / 32))
    (l.val / 32)).modTile l TileRec.replaced)
  refine .of_done (tileRetire_of_first hretirable hfirst) ?_
  rw [retireTile_of_no_spare hnone, hkept.mapAt (by decide), hkept.physAt (by decide), hkept.tileAt (by decide),
    modTile_mapAt, hraised.mapAt (by decide), modTile_physAt, hraised.physAt (by decide), modTile_tileAt, if_pos rfl]
  exact ⟨by simp, by simp [retirePhys_physAt], rfl⟩

theorem tileRetire_waits {k : Nat} (hk : k < l.val % 32) (hlower : (s.m.tileAt (l.val / 32 * 32 + k)).toRetire = true) :
    Ignored (.tileRetire l) s := by
  have hany : ((List.range (l.val % 32)).any fun k => (s.m.tileAt (l.val / 32 * 32 + k)).toRetire) = true :=
    List.any_eq_true.mpr ⟨k, List.mem_range.mpr hk, hlower⟩
  exact .of_done rfl (if_neg (by simp [hany]))

theorem tileRetire_ignored (h : s.m.retirable l = false) : Ignored (.tileRetire l) s := .of_done rfl (if_neg (by simp [h]))

end

end Sys2Proof.Machine

namespace Sys2Proof.Machine

/-- Settles O34: each command is the tile's issue of its word or the end of a transfer, and what settling the image then does leaves lines,
tokens and the step's channels (`settle_settled`). -/
theorem transfersWaitsAndControlOfATile : Obligations.TransfersWaitsAndControlOfATile := by
  unfold Obligations.TransfersWaitsAndControlOfATile
  refine ⟨?hrd, ?hwr, ?hrdBad, ?send, ?sendBad, ?recv, ?recvBad, ?wait, ?loop, ?tileEnd, ?line, ?lineBad, ?lineWaits, ?ack, ?ackStopped,
    ?corrected, ?uncorrected, ?unmapped, ?retire, ?spareless, ?lower, ?notRetirable⟩
  case hrd => exact fun l a w s h hok => hrd_issues h hok
  case hwr => exact fun l a w s h hok => hwr_issues h hok
  case hrdBad => exact fun l a w s h hn hbad hstate => hrd_violates h hn hbad hstate
  case send => exact fun l a w ch s h hch hsrc hroom => send_issues h hch hsrc hroom
  case sendBad => exact fun l a w s h hn hexcess hstate => send_violates h hn hexcess hstate
  case recv => exact fun l a w ch s h hch hdst hroom => recv_takes h hch hdst hroom
  case recvBad => exact fun l a w s h hexcess hstate => recv_violates h hexcess hstate
  case wait => exact fun l a w s h himage htokens => wait_passes_or_waits h himage htokens
  case loop => exact fun l a w s h hbody => loop_enters h hbody
  case tileEnd => exact fun l a w s h himage htokens => tileEnd_ends h himage htokens
  case line =>
    exact fun l k a x s hactive hx hopen hlim howns himage htokens hline =>
      hbmLineComplete_moves hactive hx hopen hlim howns himage htokens hline
  case lineBad =>
    exact fun l k a x s hactive hx hopen hlim howns hstate => hbmLineComplete_violates hactive hx hopen hlim howns hstate
  case lineWaits => exact fun l k a x y s hactive hx hy hlim => hbmLineComplete_waits hactive hx hy hlim
  case ack =>
    exact fun c ch b r rec_ k s himage hrun hch hsrc hrel hnone hk => tokenAcknowledge_counts himage hch hsrc hk hrun hrel hnone
  case ackStopped =>
    exact fun c ch b rec_ k s himage hdetected hch hsrc hk => tokenAcknowledge_of_stopped himage hch hsrc hk hdetected
  case corrected => exact fun l line s hvalid => tileStoreUncorr_corrects hvalid
  case uncorrected => exact fun l line s hvalid => tileStoreUncorr_closes hvalid
  case unmapped => exact fun l line corrected s hvalid => tileStoreUncorr_ignored hvalid corrected
  case retire => exact fun l p s hretirable hfirst hspare => tileRetire_replaces hretirable hfirst hspare
  case spareless => exact fun l s hretirable hfirst hspareless => tileRetire_unmaps hretirable hfirst hspareless
  case lower => exact fun l k s hk hlower => tileRetire_waits hk hlower
  case notRetirable => exact fun l s h => tileRetire_ignored h

end Sys2Proof.Machine

/-! ## Steps end and images are freed: the execution record after each shared operation (09 R276, R287-R289) -/

namespace Sys2Proof.Machine

section
variable (m : Machine) (c : Nat)

/-! ### Operations that write nothing else of an execution record -/

@[simp] theorem ctxInterrupt_xc (k e : Nat) : (m.ctxInterrupt c k).xc e = m.xc e := congrArg CtxRec.xc (ctxInterrupt_ctxAt m c k e)

theorem modXc_xc_same (f : Xc → Xc) : (m.modXc c f).xc c = f (m.xc c) := (modXc_xc m c f c).trans (if_pos rfl)

theorem returnGates_keeps : Kept [.strm] m (m.returnGates c) := returnGates_kept .refl c (by decide)

theorem breach_keeps (r : RunStep) : Kept [.ttl] m (m.breach c r) := breach_kept .refl c r (by decide)

theorem stopTiles_keeps : Kept [.tiles, .ctx] m (m.stopTiles c) := stopTiles_kept .refl c (by decide) (by decide)

theorem endStep_keeps : Kept [.fwd, .txSeq, .coll, .tiles, .strm, .luff, .ctx, .reef] m (m.endStep c) := by
  apply endStep_kept .refl <;> decide

theorem cqWrite_keeps (r : List Byte) : Kept [.ctx, .msix, .hostMem, .out] m (m.cqWrite c r) := by apply cqWrite_kept .refl <;> decide

theorem stopTile_xc (rel : Option Nat) (l e : Nat) : (m.stopTile c rel l).xc e = m.xc e := (meterTile_carried m c l _).xc e

theorem foldl_stopTile_xc (rel : Option Nat) (l : List Nat) (e : Nat) : (l.foldl (fun m l => m.stopTile c rel l) m).xc e = m.xc e := by
  induction l generalizing m with
  | nil => rfl
  | cons x l ih => rw [List.foldl_cons, ih, stopTile_xc]

@[simp] theorem stopTiles_xc (e : Nat) : (m.stopTiles c).xc e = m.xc e := foldl_stopTile_xc m c _ _ e

/-! ### Tiles that are stopped -/

theorem halted_halted (t : TileRec) : t.halted.halted = t.halted := by simp [TileRec.halted, List.filter_filter]

theorem stopTile_tileAt (rel : Option Nat) (l k : Nat) :
    (m.stopTile c rel l).tileAt k = if k = l then (m.tileAt l).halted else m.tileAt k :=
  modTile_tileAt (m.meterTile c l _) l TileRec.halted k

theorem foldl_stopTile_tileAt (rel : Option Nat) (l : List Nat) (k : Nat) :
    (l.foldl (fun m l => m.stopTile c rel l) m).tileAt k = if k ∈ l then (m.tileAt k).halted else m.tileAt k := by
  induction l generalizing m with
  | nil => rfl
  | cons x l ih =>
    rw [List.foldl_cons, ih, stopTile_tileAt]
    by_cases hk : k = x
    · subst hk; simp [halted_halted]
    · simp [hk]

theorem stopTiles_tileAt (k : Nat) :
    (m.stopTiles c).tileAt k = if k ∈ m.imageTiles c then (m.tileAt k).halted else m.tileAt k :=
  foldl_stopTile_tileAt m c _ _ k

/-! ### A step's end and an image's end -/

theorem endStep_xc (e : Nat) : (m.endStep c).xc e = if e = c then { m.xc c with run := none } else m.xc e := by
  have hreef (x : Machine) : Kept [.reef] x (if ((x.xc c).run.map (·.released)).getD false then x.reefFall c else x.reefCancel c) :=
    .ite (reefFall_kept .refl c (by decide)) (reefCancel_kept .refl c (by decide))
  unfold Machine.endStep
  rw [(reefIdle_kept (W := [.reef]) .refl _ (by decide)).xc (by decide), modXc_xc, (hreef _).xc (by decide), (hreef _).xc (by decide),
    (endSlots_carried m c).xc, (endSlots_carried m c).xc]

theorem endStep_tile (l : Nat) : ((m.endStep c).tileAt l).sansStore = (m.tileAt l).sansStore := by
  have hreef (x : Machine) : Kept [.reef] x (if ((x.xc c).run.map (·.released)).getD false then x.reefFall c else x.reefCancel c) :=
    .ite (reefFall_kept .refl c (by decide)) (reefCancel_kept .refl c (by decide))
  unfold Machine.endStep
  rw [(reefIdle_kept (W := [.reef]) .refl _ (by decide)).tileAt (by decide), modXc_tileAt, (hreef _).tileAt (by decide),
    (endSlots_carried m c).tile]

/-- An execution record whose image is freed (09 R289). -/
def Xc.dropped (x : Xc) : Xc := { x with image := none, state := .unbound, queue := [], run := none, detected := none }

theorem dropImage_xc (e : Nat) : (m.dropImage c).xc e = if e = c then (m.xc c).dropped else m.xc e := by
  have hcoll (x : Machine) : Kept [.coll] x (x.freeColls c) := freeColls_kept .refl c (by decide)
  have htiles (x : Machine) (l : List Nat) :
      Kept [.tiles] x (l.foldl (fun m l => m.modTile l fun t => { t with lines := [], tokens := [] }) x) :=
    Kept.foldl .refl fun y k h => modTile_kept h k _ (by decide)
  have hstreams (x : Machine) (l : List Nat) : Kept [.fwd, .txSeq, .strm] x (l.foldl (fun m n => m.unbindStream n) x) :=
    Kept.foldl .refl fun y n h => by apply unbindStream_kept h <;> decide
  have hfreed (k : Nat) : ((((((m.stopTiles c).freeColls c).imageTiles c).foldl
      (fun m l => m.modTile l fun t => { t with lines := [], tokens := [] }) ((m.stopTiles c).freeColls c))).xc k) = m.xc k := by
    rw [(htiles _ _).xc (by decide), (hcoll _).xc (by decide), stopTiles_xc]
  unfold Machine.dropImage
  rw [modXc_xc, (hstreams _ _).xc (by decide), (hstreams _ _).xc (by decide), hfreed, hfreed]
  rfl

/-- An execution record whose operation is answered (09 R281). -/
def Xc.answered (x : Xc) (status : Nat) : Xc := { x with status := status, done := true, busy := false }

theorem xcDone_xc (status e : Nat) : (m.xcDone c status).xc e = if e = c then (m.xc c).answered status else m.xc e := by
  unfold Machine.xcDone
  rw [ctxInterrupt_xc, modXc_xc]
  rfl

theorem bindDone_xc (status e : Nat) : (m.bindDone c status).xc e = if e = c then (m.xc c).answered status else m.xc e := by
  unfold Machine.bindDone
  rw [← xcDone_xc]
  dsimp only
  split
  · rfl
  · exact (raise_keeps _ 531 0).xc (by decide) e

theorem finishUnbind_of_unbinding {m : Machine} (h : (m.xc c).state = .unbinding) :
    (m.finishUnbind c).xc c = (m.xc c).dropped.answered 0 := by
  rw [Machine.finishUnbind, if_pos h, xcDone_xc, if_pos rfl, dropImage_xc, if_pos rfl]

theorem finishUnbind_of_other {m : Machine} (h : (m.xc c).state ≠ .unbinding) : m.finishUnbind c = m := if_neg h

/-! ### Completion records

Records go through the completion ring (09 R288): of an execution record they change the ring's tail and phase, and what a full ring owes. -/

/-- An execution record but for what writing completion records changes. -/
def Xc.sansRing (x : Xc) : Xc := { x with cqTail := 0, cqPhase := false, owed := [] }

/-- Completion records were written, or are owed: every execution record is as it was but for its ring. -/
structure Recorded (m a : Machine) : Prop where
  xc : ∀ e, (a.xc e).sansRing = (m.xc e).sansRing

variable {m c} {a b : Machine}

theorem Recorded.refl : Recorded m m := ⟨fun _ => rfl⟩

theorem Recorded.trans (h : Recorded m a) (h' : Recorded a b) : Recorded m b := ⟨fun e => (h'.xc e).trans (h.xc e)⟩

theorem Recorded.ite {p : Prop} [Decidable p] (h : Recorded m a) (h' : Recorded m b) : Recorded m (if p then a else b) := by
  split <;> assumption

theorem Recorded.foldl {β : Type} {f : Machine → β → Machine} (hf : ∀ x e, Recorded x (f x e)) (l : List β) (m : Machine) :
    Recorded m (l.foldl f m) := by
  induction l generalizing m with
  | nil => exact .refl
  | cons e l ih => exact (hf m e).trans (ih (f m e))

theorem Recorded.state (h : Recorded m a) (e : Nat) : (a.xc e).state = (m.xc e).state := (congrArg Xc.state (h.xc e) :)
theorem Recorded.image (h : Recorded m a) (e : Nat) : (a.xc e).image = (m.xc e).image := (congrArg Xc.image (h.xc e) :)
theorem Recorded.queue (h : Recorded m a) (e : Nat) : (a.xc e).queue = (m.xc e).queue := (congrArg Xc.queue (h.xc e) :)
theorem Recorded.run (h : Recorded m a) (e : Nat) : (a.xc e).run = (m.xc e).run := (congrArg Xc.run (h.xc e) :)
theorem Recorded.busy (h : Recorded m a) (e : Nat) : (a.xc e).busy = (m.xc e).busy := (congrArg Xc.busy (h.xc e) :)

variable (m c)

theorem modXc_recorded {f : Xc → Xc} (hf : ∀ x, (f x).sansRing = x.sansRing) : Recorded m (m.modXc c f) :=
  ⟨fun e => by
    rw [modXc_xc]
    split
    next h => rw [h, hf]
    next => rfl⟩

/-- An execution record whose completion ring is one record further (09 R288). -/
def Xc.advanced (x : Xc) (i : Nat) : Xc :=
  { x with cqTail := (i + 1) % max 1 x.cqSize, cqPhase := if i + 1 = x.cqSize then !x.cqPhase else x.cqPhase }

theorem cqWrite_recorded (r : List Byte) : Recorded m (m.cqWrite c r) :=
  ⟨fun e => by
    have hadv := (modXc_recorded (f := fun x => x.advanced ((m.xc c).cqTail % max 1 (m.xc c).cqSize))
      (m.hostWrite ((m.xc c).cqBase.toNat + 32 * ((m.xc c).cqTail % max 1 (m.xc c).cqSize)) (withPhase r (m.xc c).cqPhase)) c fun _ => rfl).xc e
    rw [Machine.cqWrite, ctxInterrupt_xc]
    exact hadv⟩

theorem cqFlush_recorded : Recorded m (m.cqFlush c) := by
  refine Recorded.foldl (fun x r => .ite ?_ .refl) _ m
  exact (modXc_recorded (f := fun x => { x with owed := x.owed.drop 1 }) x c fun _ => rfl).trans (cqWrite_recorded _ c r)

theorem owe_recorded (r : List Byte) : Recorded m ((m.modXc c fun x => { x with owed := x.owed ++ [r] }).cqFlush c) :=
  (modXc_recorded (f := fun x => { x with owed := x.owed ++ [r] }) m c fun _ => rfl).trans (cqFlush_recorded _ c)

theorem cancelStep_recorded (q : QStep) : Recorded m (m.cancelStep c q) := owe_recorded m c _

theorem endQueued_recorded (v : Viol) (q : QStep) : Recorded m (m.endQueued c v q) := by
  unfold Machine.endQueued
  split
  · exact owe_recorded m c _
  · exact cancelStep_recorded m c q

end

end Sys2Proof.Machine

/-! ## BIND, UNBIND and RESTART answer their status (09 R281-R283, R289, R292) -/

namespace Sys2Proof.Machine

section
variable {c : CtxId} {b : BoundImage} {s : State}

/-! ### When the operation is answered or waits -/

/-- An operation of a context that may not run it is answered NOT_LIVE (09 R281). -/
def Machine.notLive (m : Machine) (c : Nat) : Prop :=
  (m.ctxAt c).base.life ≠ .live ∨ m.fenced c = true ∨ (m.partAt (m.ctxPart c)).state ≠ .bound

theorem not_notLive {m : Machine} {c : Nat} (hlife : (m.ctxAt c).base.life = .live) (hfence : m.fenced c = false)
    (hpart : (m.partAt (m.ctxPart c)).state = .bound) : ¬ m.notLive c := by
  simp [Machine.notLive, hlife, hfence, hpart]

/-- An operation of the image is in progress and in its turn of the partition (09 R292). -/
structure Machine.InTurn (m : Machine) (c : CtxId) (op : Nat) : Prop where
  busy : (m.xc c).busy = true
  op : (m.xc c).op = op
  turn : m.opTurn (.image c) = true

theorem bind_ignored (h : ¬ s.m.InTurn c 1) : Ignored (.bind c) s :=
  .of_done (if_neg fun ⟨hbusy, hop, hturn⟩ => h ⟨hbusy, hop, hturn⟩) rfl

theorem unbind_ignored (h : ¬ s.m.InTurn c 2) : Ignored (.unbind c) s :=
  .of_done (if_neg fun ⟨hbusy, hop, hturn⟩ => h ⟨hbusy, hop, hturn⟩) rfl

theorem restart_ignored (h : ¬ s.m.InTurn c 3) : Ignored (.restart c) s :=
  .of_done (if_neg fun ⟨hbusy, hop, hturn⟩ => h ⟨hbusy, hop, hturn⟩) rfl

theorem operations_ignored (h : ∀ op, ¬ s.m.InTurn c op) : Ignored (.bind c) s ∧ Ignored (.unbind c) s ∧ Ignored (.restart c) s :=
  ⟨bind_ignored (h 1), unbind_ignored (h 2), restart_ignored (h 3)⟩

theorem xcDone_answers (m : Machine) (c : CtxId) (n : Nat) : (m.xcDone c n).xc c = (m.xc c).answered n := by
  rw [xcDone_xc, if_pos rfl]

theorem bindDone_answers (m : Machine) (c : CtxId) (n : Nat) : (m.bindDone c n).xc c = (m.xc c).answered n := by
  rw [bindDone_xc, if_pos rfl]

/-! ### BIND -/

/-- An execution record with a newly bound image (09 R282, R283). -/
def Xc.loaded (x : Xc) (b : BoundImage) : Xc :=
  { x with image := some b, state := .ready, next := x.stepBase, queue := [], run := none, lastRelease := none, detected := none }

/-- The image is the context's, which holds its tiles from now on (09 R282). -/
def Machine.bindImage (m : Machine) (c : Nat) (b : BoundImage) : Machine :=
  let m := m.modXc c (·.loaded b)
  m.modBase c fun r => { r with heldTiles := (r.heldTiles ++ m.imageTiles c).eraseDups }

theorem bind_of_ok (h : s.m.InTurn c 1) (hcheck : s.m.bindCheck c = (0, some b)) :
    exec (.bind c) s = done s ((((s.m.bindImage c b).loadImage c b).bindStreams c b).bindDone c 0) := by
  refine (if_pos ⟨h.busy, h.op, h.turn⟩).trans ?_
  rw [hcheck]
  rfl

theorem bind_of_refused {n : Nat} (h : s.m.InTurn c 1) (hcheck : s.m.bindCheck c = (n, none)) :
    exec (.bind c) s = done s (s.m.bindDone c n) := by
  refine (if_pos ⟨h.busy, h.op, h.turn⟩).trans ?_
  rw [hcheck]

theorem loadImage_keeps (m : Machine) (c : Nat) (b : BoundImage) : Kept [.tiles] m (m.loadImage c b) :=
  loadImage_kept .refl c b (by decide)

theorem bindStreams_keeps (m : Machine) (c : Nat) (b : BoundImage) : Kept [.fwd, .txSeq, .coll, .strm] m (m.bindStreams c b) := by
  apply bindStreams_kept .refl <;> decide

theorem bindImage_xc (m : Machine) (c : Nat) (b : BoundImage) : (m.bindImage c b).xc c = (m.xc c).loaded b := by
  rw [Machine.bindImage, modBase_xc, modXc_xc_same]

theorem bind_binds (h : s.m.InTurn c 1) (hcheck : s.m.bindCheck c = (0, some b)) :
    Completes (.bind c) s fun m => m.xc c = ((s.m.xc c).loaded b).answered 0 := by
  refine .of_done (bind_of_ok h hcheck) ?_
  rw [bindDone_answers, (bindStreams_keeps _ c b).xc (by decide), (loadImage_keeps _ c b).xc (by decide), bindImage_xc]

theorem bind_refuses {n : Nat} (h : s.m.InTurn c 1) (hcheck : s.m.bindCheck c = (n, none)) :
    Completes (.bind c) s fun m => m.xc c = (s.m.xc c).answered n ∧ m.tiles = s.m.tiles ∧ m.strm = s.m.strm ∧ m.coll = s.m.coll := by
  have hkept : Kept [.ctx, .ttl, .msix, .out] s.m (s.m.bindDone c n) := by apply bindDone_kept .refl <;> decide
  exact .of_done (bind_of_refused h hcheck)
    ⟨bindDone_answers s.m c n, hkept.tiles (by decide), hkept.strm (by decide), hkept.coll (by decide)⟩

/-! ### UNBIND -/

/-- Arming stops and the queued steps complete with CANCELLED (09 R289). -/
def Machine.stopArming (m : Machine) (c : Nat) : Machine :=
  (m.xc c).queue.foldl (fun m q => m.cancelStep c q) (m.modXc c fun x => { x with queue := [], state := .unbinding })

/-- A step that was armed and never released is withdrawn: it completes with CANCELLED (09 R289). -/
def Machine.withdrawStep (m : Machine) (c : Nat) (r : RunStep) : Machine :=
  ((m.returnGates c).endStep c).cancelStep c { step := r.step, arg := r.arg, aborted := none }

theorem stopArming_recorded (m : Machine) (c : Nat) :
    Recorded (m.modXc c fun x => { x with queue := [], state := .unbinding }) (m.stopArming c) :=
  Recorded.foldl (fun x q => cancelStep_recorded x c q) _ _

theorem stopArming_state (m : Machine) (c : Nat) : ((m.stopArming c).xc c).state = .unbinding := by
  rw [(stopArming_recorded m c).state, modXc_xc_same]

theorem withdrawStep_state (m : Machine) (c : Nat) (r : RunStep) : ((m.withdrawStep c r).xc c).state = (m.xc c).state := by
  rw [Machine.withdrawStep, (cancelStep_recorded _ c _).state, endStep_xc, if_pos rfl, (returnGates_keeps m c).xc (by decide)]

theorem unbind_of_notLive (h : s.m.InTurn c 2) (hlive : s.m.notLive c) : exec (.unbind c) s = done s (s.m.xcDone c 3) :=
  (if_pos ⟨h.busy, h.op, h.turn⟩).trans (if_pos hlive)

theorem unbind_of_unbound (h : s.m.InTurn c 2) (hlive : ¬ s.m.notLive c) (himage : (s.m.xc c).image = none) :
    exec (.unbind c) s = done s (s.m.xcDone c 4) :=
  (if_pos ⟨h.busy, h.op, h.turn⟩).trans ((if_neg hlive).trans (if_pos (by rw [himage]; rfl)))

/-- What UNBIND does with a bound image. -/
theorem unbind_of_bound (h : s.m.InTurn c 2) (hlive : ¬ s.m.notLive c) (himage : (s.m.xc c).image.isSome = true) :
    exec (.unbind c) s = match (s.m.xc c).run with
      | some r => if r.released then done s (s.m.stopArming c) else done s (((s.m.stopArming c).withdrawStep c r).finishUnbind c)
      | none => done s ((s.m.stopArming c).finishUnbind c) := by
  have hbound : ¬ (s.m.xc c).image.isNone = true := by simp [Option.isSome_iff_ne_none.mp himage]
  exact (if_pos ⟨h.busy, h.op, h.turn⟩).trans ((if_neg hlive).trans (if_neg hbound))

theorem unbind_frees (h : s.m.InTurn c 2) (hlive : ¬ s.m.notLive c) (himage : (s.m.xc c).image.isSome = true)
    (hrun : ∀ r, (s.m.xc c).run = some r → r.released = false) :
    Completes (.unbind c) s fun m => ∃ x : Xc, m.xc c = x.dropped.answered 0 := by
  have he := unbind_of_bound h hlive himage
  cases hr : (s.m.xc c).run with
  | none =>
    rw [hr] at he
    exact .of_done he ⟨_, finishUnbind_of_unbinding c (stopArming_state s.m c)⟩
  | some r =>
    rw [hr] at he
    dsimp only at he
    rw [hrun r hr] at he
    exact .of_done he ⟨_, finishUnbind_of_unbinding c ((withdrawStep_state _ c r).trans (stopArming_state s.m c))⟩

theorem unbind_waits {r : RunStep} (h : s.m.InTurn c 2) (hlive : ¬ s.m.notLive c) (himage : (s.m.xc c).image.isSome = true)
    (hrun : (s.m.xc c).run = some r) (hreleased : r.released = true) :
    Completes (.unbind c) s fun m => (m.xc c).state = .unbinding ∧ (m.xc c).queue = [] ∧ (m.xc c).run = some r ∧
      (m.xc c).image = (s.m.xc c).image ∧ (m.xc c).busy = true := by
  have he := unbind_of_bound h hlive himage
  rw [hrun] at he
  have hrec := stopArming_recorded s.m c
  refine .of_done (he.trans (if_pos hreleased)) ⟨stopArming_state s.m c, ?_, ?_, ?_, ?_⟩
  · rw [hrec.queue, modXc_xc_same]
  · rw [hrec.run, modXc_xc_same]
    exact hrun
  · rw [hrec.image, modXc_xc_same]
  · rw [hrec.busy, modXc_xc_same]
    exact h.busy

/-! ### RESTART -/

theorem restart_of_notLive (h : s.m.InTurn c 3) (hlive : s.m.notLive c) : exec (.restart c) s = done s (s.m.bindDone c 3) :=
  (if_pos ⟨h.busy, h.op, h.turn⟩).trans (if_pos hlive)

theorem restart_of_unbound (h : s.m.InTurn c 3) (hlive : ¬ s.m.notLive c) (himage : (s.m.xc c).image = none) :
    exec (.restart c) s = done s (s.m.bindDone c 4) := by
  refine (if_pos ⟨h.busy, h.op, h.turn⟩).trans ((if_neg hlive).trans ?_)
  rw [himage]

/-- What RESTART does with a bound image. -/
theorem restart_of_bound (h : s.m.InTurn c 3) (hlive : ¬ s.m.notLive c) (himage : (s.m.xc c).image = some b) :
    exec (.restart c) s =
      if (s.m.xc c).state ≠ .ready ∧ (s.m.xc c).state ≠ .halted then done s (s.m.bindDone c 4)
      else if !((s.m.imageTiles c).all fun l => (s.m.mapAt l).valid) then done s (s.m.bindDone c 7)
      else done s (((s.m.loadImage c b).modXc c fun x => { x with state := .ready, next := x.stepBase, detected := none }).bindDone c 0) := by
  refine (if_pos ⟨h.busy, h.op, h.turn⟩).trans ((if_neg hlive).trans ?_)
  rw [himage]

theorem restart_readies (h : s.m.InTurn c 3) (hlive : ¬ s.m.notLive c) (himage : (s.m.xc c).image = some b)
    (hstate : (s.m.xc c).state = .ready ∨ (s.m.xc c).state = .halted) (htiles : ∀ l ∈ s.m.imageTiles c, (s.m.mapAt l).valid = true) :
    Completes (.restart c) s fun m =>
      m.xc c = ({ s.m.xc c with state := .ready, next := (s.m.xc c).stepBase, detected := none } : Xc).answered 0 := by
  refine .of_done ((restart_of_bound h hlive himage).trans
    ((if_neg (not_and_or.mpr (hstate.imp not_not.mpr not_not.mpr))).trans (if_neg (by simpa using htiles)))) ?_
  rw [bindDone_answers, modXc_xc_same, (loadImage_keeps s.m c b).xc (by decide)]

theorem restart_badTiles (h : s.m.InTurn c 3) (hlive : ¬ s.m.notLive c) (himage : (s.m.xc c).image = some b)
    (hstate : (s.m.xc c).state = .ready ∨ (s.m.xc c).state = .halted) (htile : ∃ l ∈ s.m.imageTiles c, (s.m.mapAt l).valid = false) :
    Completes (.restart c) s fun m => m.xc c = (s.m.xc c).answered 7 :=
  .of_done ((restart_of_bound h hlive himage).trans
    ((if_neg (not_and_or.mpr (hstate.imp not_not.mpr not_not.mpr))).trans (if_pos (by simpa using htile)))) (bindDone_answers s.m c 7)

theorem restart_badState (h : s.m.InTurn c 3) (hlive : ¬ s.m.notLive c) (himage : (s.m.xc c).image = some b)
    (hready : (s.m.xc c).state ≠ .ready) (hhalted : (s.m.xc c).state ≠ .halted) :
    Completes (.restart c) s fun m => m.xc c = (s.m.xc c).answered 4 :=
  .of_done ((restart_of_bound h hlive himage).trans (if_pos ⟨hready, hhalted⟩)) (bindDone_answers s.m c 4)

end

/-- Settles O35: every answer is `Xc.answered` of the record that the operation leaves, and the records that a cancelled queue writes change
the completion ring alone (`stopArming_recorded`). -/
theorem bindUnbindAndRestartOfAnImage : Obligations.BindUnbindAndRestartOfAnImage := by
  unfold Obligations.BindUnbindAndRestartOfAnImage
  refine ⟨?bound, ?refused, ?notLive, ?unbound, ?freed, ?waits, ?restarted, ?notItsTurn, ?notBusy⟩
  case bound =>
    intro c b s hbusy hop hturn hcheck
    refine (bind_binds ⟨hbusy, hop, hturn⟩ hcheck).imp fun m hm => ?_
    rw [hm]
    exact ⟨rfl, rfl, rfl, rfl, rfl, rfl, rfl, rfl⟩
  case refused => exact fun c n s hbusy hop hturn hcheck => bind_refuses ⟨hbusy, hop, hturn⟩ hcheck
  case notLive =>
    intro c s hlive hbusy hturn
    exact ⟨fun hop => .of_done (unbind_of_notLive ⟨hbusy, hop, hturn⟩ hlive) (xcDone_answers s.m c 3),
      fun hop => .of_done (restart_of_notLive ⟨hbusy, hop, hturn⟩ hlive) (bindDone_answers s.m c 3)⟩
  case unbound =>
    intro c s hlife hfence hpart hbusy hturn himage
    have hlive := not_notLive hlife hfence hpart
    exact ⟨fun hop => .of_done (unbind_of_unbound ⟨hbusy, hop, hturn⟩ hlive himage) (xcDone_answers s.m c 4),
      fun hop => .of_done (restart_of_unbound ⟨hbusy, hop, hturn⟩ hlive himage) (bindDone_answers s.m c 4)⟩
  case freed =>
    intro c s hlife hfence hpart hbusy hturn hop himage hrun
    refine (unbind_frees ⟨hbusy, hop, hturn⟩ (not_notLive hlife hfence hpart) himage hrun).imp fun m ⟨x, hm⟩ => ?_
    rw [hm]
    exact ⟨rfl, rfl, rfl, rfl, rfl, rfl, rfl⟩
  case waits =>
    exact fun c r s hlife hfence hpart hbusy hturn hop himage hrun hreleased =>
      unbind_waits ⟨hbusy, hop, hturn⟩ (not_notLive hlife hfence hpart) himage hrun hreleased
  case restarted =>
    intro c b s hlife hfence hpart hbusy hturn hop himage
    have hlive := not_notLive hlife hfence hpart
    have h : s.m.InTurn c 3 := ⟨hbusy, hop, hturn⟩
    refine ⟨fun hstate => ⟨fun htiles => (restart_readies h hlive himage hstate htiles).imp fun m hm => ?_, ?_⟩, ?_⟩
    · rw [hm]
      exact ⟨himage, rfl, rfl, rfl, rfl⟩
    · exact fun htile => restart_badTiles h hlive himage hstate htile
    · exact fun hready hhalted => restart_badState h hlive himage hready hhalted
  case notItsTurn =>
    exact fun c s hturn => operations_ignored fun _ h => Bool.false_ne_true (hturn.symm.trans h.turn)
  case notBusy =>
    exact fun c s hbusy => operations_ignored fun _ h => Bool.false_ne_true (hbusy.symm.trans h.busy)

end Sys2Proof.Machine

/-! ## Steps complete or are contained: the completion record, and what a violation leaves (09 R285-R288; 02 R64) -/

namespace Sys2Proof.Machine

section
variable (m : Machine) (c : Nat)

/-! ### A record in the completion ring -/

theorem leBytes_length (n v : Nat) : (leBytes n v).length = n := by
  induction n generalizing v with
  | zero => rfl
  | succ n ih => exact congrArg Nat.succ (ih _)

theorem stepRecord_length (step flags reason numeric tile : Nat) (number release : DWord) (elapsed : Nat) (arg : Word) :
    (stepRecord step flags reason numeric tile number release elapsed arg).length = 32 := by
  simp [stepRecord, leBytes_length]

theorem runRecord_length (r : RunStep) (v : Option Viol) : (m.runRecord c r v).length = 32 := by
  unfold Machine.runRecord
  split <;> exact stepRecord_length _ _ _ _ _ _ _ _ _

theorem withPhase_length (r : List Byte) (phase : Bool) : (withPhase r phase).length = r.length := by
  unfold withPhase
  split
  · exact List.length_set
  · rfl

/-- Where the next completion record of an execution record goes (09 R288). -/
def Xc.recordAt (x : Xc) : Nat := x.cqBase.toNat + 32 * (x.cqTail % max 1 x.cqSize)

theorem cqWrite_hostMem (r : List Byte) :
    (m.cqWrite c r).hostMem = mwrite Config.blank m.hostMem (m.xc c).recordAt (withPhase r (m.xc c).cqPhase) := by
  have hquiet (x : Machine) : Kept [.msix, .out] x (x.ctxInterrupt c 0) := by apply ctxInterrupt_kept .refl <;> decide
  unfold Machine.cqWrite
  dsimp only
  rw [(hquiet _).hostMem (by decide), (modXc_kept (W := [.ctx]) .refl c _ (by decide)).hostMem (by decide), hostWrite_hostMem]
  rfl

/-- A machine whose host memory is another's but for one record of a context's completion ring. -/
structure Machine.Wrote (m a : Machine) (c : Nat) (r : List Byte) : Prop where
  record : a.hostRead (m.xc c).recordAt 32 = withPhase r (m.xc c).cqPhase
  outside : bytesOutside m.hostMem a.hostMem (m.xc c).recordAt 32

theorem wrote_of_hostMem {a : Machine} {r : List Byte} (hr : r.length = 32)
    (h : a.hostMem = mwrite Config.blank m.hostMem (m.xc c).recordAt (withPhase r (m.xc c).cqPhase)) : m.Wrote a c r where
  record := by
    have hlen : (withPhase r (m.xc c).cqPhase).length = 32 := (withPhase_length _ _).trans hr
    have hread := mread_mwrite_same Config.blank m.hostMem (m.xc c).recordAt (withPhase r (m.xc c).cqPhase)
    rwa [hlen, ← h] at hread
  outside j hj := by
    rw [h]
    exact tget_mwrite_outside _ _ _ _ _ (by rwa [withPhase_length, hr])

/-! ### Containment -/

/-- The tiles stop, and an armed or running step completes with the violation (09 R287). -/
def Machine.endRunning (m : Machine) (c : Nat) (v : Viol) : Machine :=
  match (m.xc c).run with
  | some r => ((((m.stopTiles c).returnGates c).breach c r).cqWrite c ((m.stopTiles c).runRecord c r (some v))).endStep c
  | none => m.stopTiles c

/-- The queued steps complete: with the violation that stands against one of them, or with CANCELLED (09 R287). -/
def Machine.endQueue (m : Machine) (c : Nat) (v : Viol) (x : Xc) : Machine :=
  let named := if x.run.isSome then none else some ((x.queue.findIdx? fun q => q.aborted.isSome).getD 0)
  x.queue.zipIdx.foldl (fun m q => m.endQueued c v { q.1 with aborted := if named = some q.2 then some v.ch else none }) m

/-- An execution record that a violation stopped (09 R287, R289). -/
def Xc.contained (x : Xc) (v : Viol) : Xc :=
  { x with state := if x.state = .unbinding then .unbinding else .halted, queue := [], viol := v, detected := none }

theorem contain_eq (v : Viol) :
    m.contain c v = ((((m.endRunning c v).endQueue c v (m.xc c)).modXc c (·.contained v)).raiseCtx 530 0 c).reportEach c (m.busyFlows c) := rfl

theorem endRunning_xc (v : Viol) : ((m.endRunning c v).xc c).sansRing = ({ m.xc c with run := none } : Xc).sansRing := by
  unfold Machine.endRunning
  split
  next r hr =>
    have hgates := (breach_keeps ((m.stopTiles c).returnGates c) c r).xc (by decide) c
    rw [(returnGates_keeps _ c).xc (by decide), stopTiles_xc] at hgates
    have hrec := (cqWrite_recorded (((m.stopTiles c).returnGates c).breach c r) c ((m.stopTiles c).runRecord c r (some v))).xc c
    rw [endStep_xc, if_pos rfl]
    rw [hgates] at hrec
    exact congrArg (fun x : Xc => { x with run := none }) hrec
  next hr => rw [stopTiles_xc, ← hr]

theorem endQueue_recorded (v : Viol) (x : Xc) : Recorded m (m.endQueue c v x) :=
  Recorded.foldl (fun y _ => endQueued_recorded y c v _) _ m

theorem contain_xc (v : Viol) :
    ((m.contain c v).xc c).sansRing = (({ m.xc c with run := none } : Xc).contained v).sansRing := by
  have hqueue := ((endQueue_recorded (m.endRunning c v) c v (m.xc c)).xc c).trans (endRunning_xc m c v)
  have hkept (x : Machine) : Kept [.ttl, .out] x ((x.raiseCtx 530 0 c).reportEach c (m.busyFlows c)) :=
    reportEach_kept (raiseCtx_kept .refl _ _ _ (by decide)) _ _ (by decide)
  rw [contain_eq, (hkept _).xc (by decide), modXc_xc_same]
  exact congrArg (·.contained v) hqueue

/-- The image is stopped by a violation: nothing of it is queued, armed or running (09 R287). -/
structure Xc.StoppedBy (x : Xc) (v : Viol) : Prop where
  state : x.state = .halted
  viol : x.viol = v
  queue : x.queue = []
  run : x.run = none
  detected : x.detected = none

theorem stoppedBy_of_contained {x y : Xc} {v : Viol} (h : y.sansRing = (({ x with run := none } : Xc).contained v).sansRing)
    (hstate : x.state ≠ .unbinding) : y.StoppedBy v where
  state := (congrArg Xc.state h :).trans (if_neg hstate)
  viol := (congrArg Xc.viol h :)
  queue := (congrArg Xc.queue h :)
  run := (congrArg Xc.run h :)
  detected := (congrArg Xc.detected h :)

theorem contain_stops {m : Machine} {c : Nat} (v : Viol) (h : (m.xc c).state ≠ .unbinding) : ((m.contain c v).xc c).StoppedBy v :=
  stoppedBy_of_contained (contain_xc m c v) h

theorem contain_finishUnbind {m : Machine} {c : Nat} (v : Viol) (h : (m.xc c).state ≠ .unbinding) :
    (m.contain c v).finishUnbind c = m.contain c v := by
  refine finishUnbind_of_other c ?_
  rw [(contain_stops v h).state]
  decide

theorem endRunning_tile (v : Viol) (k : Nat) : ((m.endRunning c v).tileAt k).sansStore = ((m.stopTiles c).tileAt k).sansStore := by
  unfold Machine.endRunning
  split
  · rw [endStep_tile, (cqWrite_keeps _ c _).tileAt (by decide), (breach_keeps _ c _).tileAt (by decide),
      (returnGates_keeps _ c).tileAt (by decide)]
  · rfl

theorem contain_tile (v : Viol) (k : Nat) : ((m.contain c v).tileAt k).sansStore = ((m.stopTiles c).tileAt k).sansStore := by
  have hqueue (x : Machine) : Kept [.ctx, .msix, .hostMem, .out] x (x.endQueue c v (m.xc c)) :=
    Kept.foldl .refl fun y _ h => by apply endQueued_kept h <;> decide
  have hkept (x : Machine) : Kept [.ttl, .out] x ((x.raiseCtx 530 0 c).reportEach c (m.busyFlows c)) :=
    reportEach_kept (raiseCtx_kept .refl _ _ _ (by decide)) _ _ (by decide)
  rw [contain_eq, (hkept _).tileAt (by decide), modXc_tileAt, (hqueue _).tileAt (by decide), endRunning_tile]

theorem contain_imageTile (v : Viol) {l : Nat} (hl : l ∈ m.imageTiles c) :
    ((m.contain c v).tileAt l).sansStore = (m.tileAt l).halted.sansStore := by
  rw [contain_tile, stopTiles_tileAt, if_pos hl]

end

/-! ### CONTRACT_VIOLATION -/

section
variable {c : CtxId} {s : State}

theorem contractViolation_of_detected {v : Viol} (h : (s.m.xc c).detected = some v) :
    exec (.contractViolation c) s = done s ((s.m.contain c v).finishUnbind c) := by
  show execContractViolation c s = _
  unfold execContractViolation
  dsimp only
  rw [h]

/-- With no violation detected, CONTRACT_VIOLATION looks at the operations that gate the queued steps. -/
theorem contractViolation_of_none (h : (s.m.xc c).detected = none) :
    exec (.contractViolation c) s = match (s.m.xc c).run, (s.m.xc c).queue.findSome? fun q => q.aborted with
      | none, some ch => done s (s.m.contain c { reason := 0xA, ch := ch, tile := none })
      | _, _ => done s s.m := by
  show execContractViolation c s = _
  unfold execContractViolation
  dsimp only
  rw [h] <;> rfl

theorem contractViolation_contains {v : Viol} (h : (s.m.xc c).detected = some v) (hstate : (s.m.xc c).state ≠ .unbinding) :
    Completes (.contractViolation c) s fun m => (m.xc c).StoppedBy v ∧
      ∀ l ∈ s.m.imageTiles c, (m.tileAt l).sansStore = (s.m.tileAt l).halted.sansStore := by
  refine .of_done (contractViolation_of_detected h) ?_
  rw [contain_finishUnbind v hstate]
  exact ⟨contain_stops v hstate, fun l hl => contain_imageTile s.m c v hl⟩

theorem contractViolation_aborts {ch : Nat} (h : (s.m.xc c).detected = none)
    (hqueue : ((s.m.xc c).queue.findSome? fun q => q.aborted) = some ch) (hrun : (s.m.xc c).run = none)
    (hstate : (s.m.xc c).state ≠ .unbinding) :
    Completes (.contractViolation c) s fun m => (m.xc c).StoppedBy { reason := 0xA, ch := ch, tile := none } := by
  have he := contractViolation_of_none h
  rw [hrun, hqueue] at he
  exact .of_done he (contain_stops _ hstate)

theorem contractViolation_waits (h : (s.m.xc c).detected = none) (hrun : (s.m.xc c).run.isSome = true) :
    Ignored (.contractViolation c) s := by
  obtain ⟨r, hr⟩ := Option.isSome_iff_exists.mp hrun
  have he := contractViolation_of_none h
  rw [hr] at he
  exact .of_done he rfl

theorem contractViolation_ignored (h : (s.m.xc c).detected = none) (hqueue : ∀ q ∈ (s.m.xc c).queue, q.aborted = none) :
    Ignored (.contractViolation c) s := by
  have he := contractViolation_of_none h
  rw [List.findSome?_eq_none_iff.mpr hqueue] at he
  cases hrun : (s.m.xc c).run with
  | none =>
    rw [hrun] at he
    exact .of_done he rfl
  | some r => exact contractViolation_waits h (by rw [hrun]; rfl)

/-! ### STEP_COMPLETE -/

/-- An execution record that goes on with its queue after a step (09 R285, R289). -/
def Xc.wentOn (x : Xc) : Xc :=
  { x with state := if x.state = .unbinding then .unbinding else if x.queue.isEmpty then .ready else .running }

/-- The step completed in time: its record is written and its tiles and contract end (09 R285, R288). -/
def Machine.endInTime (m : Machine) (c : Nat) (r : RunStep) : Machine :=
  ((((m.breach c r).cqWrite c (m.runRecord c r none)).stopTiles c).endStep c).modXc c Xc.wentOn

/-- A running step that has ended with nothing detected against it (09 R285). -/
structure Machine.Ended (m : Machine) (c : Nat) (r : RunStep) : Prop where
  run : (m.xc c).run = some r
  released : r.released = true
  sound : (m.xc c).detected = none
  ended : m.allEnded c = true

theorem stepComplete_of_ended {r : RunStep} (h : s.m.Ended c r) :
    exec (.stepComplete c) s = if s.m.durNs c < s.m.elapsed r ∧ s.m.offDies c r = 0
      then done s ((s.m.contain c { reason := 1, ch := 0, tile := none }).finishUnbind c)
      else done s ((s.m.endInTime c r).finishUnbind c) := by
  show execStepComplete c s = _
  unfold execStepComplete
  dsimp only
  rw [h.run]
  dsimp only
  rw [if_neg (by simp [h.released, h.sound, h.ended])]
  simp only [decide_eq_true_eq]
  rfl

theorem wentOn_congr {x y : Xc} (h : y.sansRing = x.sansRing) :
    ({ y with run := none } : Xc).wentOn.sansRing = ({ x with run := none } : Xc).wentOn.sansRing :=
  (congrArg (fun x : Xc => ({ x with run := none } : Xc).wentOn) h :)

theorem endInTime_xc (m : Machine) (c : Nat) (r : RunStep) :
    ((m.endInTime c r).xc c).sansRing = ({ m.xc c with run := none } : Xc).wentOn.sansRing := by
  have hrec := (cqWrite_recorded (m.breach c r) c (m.runRecord c r none)).xc c
  rw [(breach_keeps m c r).xc (by decide)] at hrec
  rw [Machine.endInTime, modXc_xc_same, endStep_xc, if_pos rfl, stopTiles_xc]
  exact wentOn_congr hrec

theorem endInTime_hostMem (m : Machine) (c : Nat) (r : RunStep) :
    (m.endInTime c r).hostMem =
      mwrite Config.blank m.hostMem (m.xc c).recordAt (withPhase (m.runRecord c r none) (m.xc c).cqPhase) := by
  rw [Machine.endInTime, (modXc_kept (W := [.ctx]) .refl c _ (by decide)).hostMem (by decide), (endStep_keeps _ c).hostMem (by decide),
    (stopTiles_keeps _ c).hostMem (by decide), cqWrite_hostMem, (breach_keeps m c r).hostMem (by decide),
    (breach_keeps m c r).xc (by decide)]

/-- The image after a step that completed goes on with its queue (09 R285). -/
structure Xc.GoesOn (x y : Xc) : Prop where
  run : y.run = none
  state : y.state = if x.queue.isEmpty then .ready else .running
  queue : y.queue = x.queue

theorem goesOn_of_wentOn {x y : Xc} (h : y.sansRing = ({ x with run := none } : Xc).wentOn.sansRing) (hstate : x.state ≠ .unbinding) :
    x.GoesOn y where
  run := (congrArg Xc.run h :)
  state := (congrArg Xc.state h :).trans (if_neg hstate)
  queue := (congrArg Xc.queue h :)

theorem endInTime_goesOn {m : Machine} {c : Nat} (r : RunStep) (h : (m.xc c).state ≠ .unbinding) :
    (m.xc c).GoesOn ((m.endInTime c r).xc c) :=
  goesOn_of_wentOn (endInTime_xc m c r) h

theorem endInTime_finishUnbind {m : Machine} {c : Nat} (r : RunStep) (h : (m.xc c).state ≠ .unbinding) :
    (m.endInTime c r).finishUnbind c = m.endInTime c r := by
  refine finishUnbind_of_other c ?_
  rw [(endInTime_goesOn r h).state]
  split <;> decide

theorem stepComplete_records {r : RunStep} (h : s.m.Ended c r) (hstate : (s.m.xc c).state ≠ .unbinding)
    (hintime : s.m.elapsed r ≤ s.m.durNs c ∨ s.m.offDies c r ≠ 0) :
    Completes (.stepComplete c) s fun m => (s.m.xc c).GoesOn (m.xc c) ∧ s.m.Wrote m c (s.m.runRecord c r none) := by
  have hpast : ¬ (s.m.durNs c < s.m.elapsed r ∧ s.m.offDies c r = 0) := fun ⟨hlate, hcorner⟩ =>
    hintime.elim (Nat.not_le_of_lt hlate) (absurd hcorner)
  refine .of_done ((stepComplete_of_ended h).trans (if_neg hpast)) ?_
  rw [endInTime_finishUnbind r hstate]
  exact ⟨endInTime_goesOn r hstate, wrote_of_hostMem s.m c (runRecord_length s.m c r none) (endInTime_hostMem s.m c r)⟩

theorem stepComplete_overruns {r : RunStep} (h : s.m.Ended c r) (hstate : (s.m.xc c).state ≠ .unbinding)
    (hlate : s.m.durNs c < s.m.elapsed r) (hcorner : s.m.offDies c r = 0) :
    Completes (.stepComplete c) s fun m => (m.xc c).StoppedBy { reason := 1, ch := 0, tile := none } := by
  refine .of_done ((stepComplete_of_ended h).trans (if_pos ⟨hlate, hcorner⟩)) ?_
  rw [contain_finishUnbind _ hstate]
  exact contain_stops _ hstate

end

end Sys2Proof.Machine

/-! ## Steps are queued, armed and released (09 R271, R272, R284; 10 R314; 13 R378) -/

namespace Sys2Proof.Machine

section
variable {m : Machine} {c : Nat}

/-! ### A function's write of the page (11 R326) -/

theorem pageWrite_of_unreached {f : Nat} (h : m.reaches c f = false) (o : Nat) (g : Machine → Machine) : m.pageWrite c f o g = m :=
  if_pos (by rw [h]; rfl)

theorem pageWrite_of_fenced {f : Nat} (hreach : m.reaches c f = true) (hfence : m.fenced c = true) (o : Nat) (g : Machine → Machine) :
    m.pageWrite c f o g = m.accErr (pageOffset f c o) 6 f :=
  (if_neg (by rw [hreach]; decide)).trans (if_pos hfence)

theorem pageWrite_of_open {f : Nat} (hreach : m.reaches c f = true) (hfence : m.fenced c = false) (o : Nat) (g : Machine → Machine) :
    m.pageWrite c f o g = g m :=
  (if_neg (by rw [hreach]; decide)).trans (if_neg (by rw [hfence]; decide))

/-! ### Queueing a step (09 R284) -/

/-- Whether the index that a function last latched names a step of an image that takes one (09 R284). -/
def Xc.takesIndex (x : Xc) (f : Nat) : Prop :=
  ¬ ((x.image.map fun b => b.img.steps.length).getD 0 ≤ tget 0 x.latches f ∨ (x.shown ≠ .ready ∧ x.shown ≠ .running))

/-- The steps queued, armed and running (09 R284). -/
def Xc.stepCount (x : Xc) : Nat := x.queue.length + (if x.run.isSome then 1 else 0)

theorem takesIndex_iff {x : Xc} {b : BoundImage} {f : Nat} (himage : x.image = some b) (hshown : x.shown = .ready ∨ x.shown = .running) :
    x.takesIndex f ↔ tget 0 x.latches f < b.img.steps.length := by
  have hidle : ¬ (x.shown ≠ .ready ∧ x.shown ≠ .running) := fun ⟨hready, hrunning⟩ => hshown.elim hready hrunning
  simp [Xc.takesIndex, himage, hidle]

variable (m c)

/-- An execution record that keeps the ARG written last (09 R284). -/
def Xc.withArg (x : Xc) (v : Word) : Xc := { x with armHi := v }

theorem armHi_of_bad {f : Nat} {v : Word} (h : ¬ (m.xc c).takesIndex f) :
    (m.armHi c f v).xc c = { (m.xc c).withArg v with armBad := true } := by
  have he : m.armHi c f v = (m.modXc c (·.withArg v)).modXc c fun x => { x with armBad := true } := if_pos (by
    rw [modXc_xc_same]
    exact not_not.mp h)
  rw [he, modXc_xc_same, modXc_xc_same]

theorem armHi_of_full {f : Nat} {v : Word} (h : (m.xc c).takesIndex f) (hfull : 64 ≤ (m.xc c).stepCount) :
    (m.armHi c f v).xc c = { (m.xc c).withArg v with armOvf := true } := by
  have he : m.armHi c f v = (m.modXc c (·.withArg v)).modXc c fun x => { x with armOvf := true } := (if_neg (by
    rw [modXc_xc_same]
    exact h)).trans (if_pos (by
    rw [modXc_xc_same]
    exact hfull))
  rw [he, modXc_xc_same, modXc_xc_same]

/-- An execution record with one more queued step, RUNNING (09 R283, R284). -/
def Xc.queued (x : Xc) (q : QStep) : Xc := { x with state := .running, queue := x.queue ++ [q] }

theorem armHi_of_room {f : Nat} {v : Word} (h : (m.xc c).takesIndex f) (hroom : (m.xc c).stepCount < 64) :
    (m.armHi c f v).xc c = ((m.xc c).withArg v).queued { step := tget 0 (m.xc c).latches f, arg := v, aborted := none } := by
  have he : m.armHi c f v = (m.modXc c (·.withArg v)).modXc c
      (·.queued { step := tget 0 ((m.modXc c (·.withArg v)).xc c).latches f, arg := v, aborted := none }) := (if_neg (by
    rw [modXc_xc_same]
    exact h)).trans (if_neg (by
    rw [modXc_xc_same]
    exact Nat.not_le_of_lt hroom))
  rw [he, modXc_xc_same, modXc_xc_same]
  rfl

end

section
variable {c : CtxId} {f : Func} {v : Word} {s : State}

theorem ctxXcArmHi_completes {p : Machine → Prop} (hreach : s.m.reaches c (funcNum f) = true) (hfence : s.m.fenced c = false)
    (hp : p (s.m.armHi c (funcNum f) v)) : Completes (.ctxXcArmHi c f v) s p :=
  .of_done (m := s.m.armHi c (funcNum f) v) (congrArg (done s) (pageWrite_of_open hreach hfence _ _)) hp

theorem ctxXcArmLo_latches (hreach : s.m.reaches c (funcNum f) = true) (hfence : s.m.fenced c = false) :
    Completes (.ctxXcArmLo c f v) s fun m => tget 0 (m.xc c).latches (funcNum f) = v.toNat % 4096 ∧
      (∀ g, g ≠ funcNum f → tget 0 (m.xc c).latches g = tget 0 (s.m.xc c).latches g) ∧ (m.xc c).queue = (s.m.xc c).queue := by
  refine .of_done (m := s.m.armLo c (funcNum f) v) (congrArg (done s) (pageWrite_of_open hreach hfence _ _)) ?_
  rw [Machine.armLo, modXc_xc_same]
  refine ⟨?_, fun g hg => tget_tset_ne _ _ _ hg, rfl⟩
  rw [tget_tset_same]
  simp [bits]

theorem pageWrites_ignored (hreach : s.m.reaches c (funcNum f) = false) :
    Ignored (.ctxXcArmLo c f v) s ∧ Ignored (.ctxXcArmHi c f v) s :=
  ⟨.of_done rfl (pageWrite_of_unreached hreach _ _), .of_done rfl (pageWrite_of_unreached hreach _ _)⟩

theorem pageWrites_discarded (hreach : s.m.reaches c (funcNum f) = true) (hfence : s.m.fenced c = true) :
    (Completes (.ctxXcArmLo c f v) s fun m => m.ctx = s.m.ctx ∧ m.acc.count = satAdd32 s.m.acc.count 1 ∧ m.acc.cause = 6) ∧
    (Completes (.ctxXcArmHi c f v) s fun m => m.ctx = s.m.ctx ∧ m.acc.count = satAdd32 s.m.acc.count 1 ∧ m.acc.cause = 6) :=
  ⟨.of_done (congrArg (done s) (pageWrite_of_fenced hreach hfence _ _)) ⟨rfl, rfl, rfl⟩,
    .of_done (congrArg (done s) (pageWrite_of_fenced hreach hfence _ _)) ⟨rfl, rfl, rfl⟩⟩

end

/-! ### Arming -/

/-- An execution record but for what its step's channels count. -/
def Xc.sansChans (x : Xc) : Xc := { x with run := x.run.map fun r => { r with chans := [] } }

/-- The gates took what arming deducts: every execution record is as it was but for its step's channels. -/
structure Gated (m a : Machine) : Prop where
  xc : ∀ e, (a.xc e).sansChans = (m.xc e).sansChans

section
variable {m a b : Machine}

theorem Gated.refl : Gated m m := ⟨fun _ => rfl⟩
theorem Gated.trans (h : Gated m a) (h' : Gated a b) : Gated m b := ⟨fun e => (h'.xc e).trans (h.xc e)⟩
theorem Gated.of_carried (h : Carried m a) : Gated m a := ⟨fun e => congrArg Xc.sansChans (h.xc e)⟩

theorem Gated.foldl {β : Type} {f : Machine → β → Machine} (hf : ∀ x e, Gated x (f x e)) (l : List β) (m : Machine) :
    Gated m (l.foldl f m) := by
  induction l generalizing m with
  | nil => exact .refl
  | cons e l ih => exact (hf m e).trans (ih (f m e))

theorem takeCredits_carried (m : Machine) (n k : Nat) : Carried m (m.takeCredits n k) :=
  .of_kept (W := [.strm]) (takeCredits_kept .refl n k (by decide)) (by decide) (by decide)

theorem collStart_carried (m : Machine) (k : Nat) (r : CollRec) : Carried m (m.collStart k r) := collAdvance_carried m k _ _

/-- A step whose channel begins with its inbound tokens counted as acknowledged (10 R314). -/
def RunStep.withChan (r : RunStep) (ch : Nat) (e : ChanRun) : RunStep := { r with chans := tset .reset r.chans ch e }

theorem withChan_sansChans (x : Xc) (ch : Nat) (e : ChanRun) :
    ({ x with run := x.run.map fun r => r.withChan ch e } : Xc).sansChans = x.sansChans := by
  unfold Xc.sansChans
  rw [Option.map_map]
  rfl

theorem modRun_withChan_gated (m : Machine) (c ch : Nat) (e : ChanRun) : Gated m (m.modRun c fun r => r.withChan ch e) :=
  ⟨fun k => by
    rw [modRun_xc]
    split
    next h => rw [withChan_sansChans, h]
    next => rfl⟩

theorem takeGates_gated (m : Machine) (c : Nat) (b : BoundImage) (p : StepProg) : Gated m (m.takeGates c b p) := by
  refine Gated.foldl (fun x q => ?_) _ m
  split
  next ch _ =>
    split
    · exact .of_carried (takeCredits_carried x _ _)
    · split
      · split
        · exact .of_carried (collStart_carried x _ _)
        · exact .refl
      · split
        · exact .refl
        · exact modRun_withChan_gated x c q.1 _
  next => exact .refl

theorem Gated.queue (h : Gated m a) (e : Nat) : (a.xc e).queue = (m.xc e).queue := (congrArg Xc.queue (h.xc e) :)

theorem Gated.run (h : Gated m a) {e : Nat} {r : RunStep} (hr : (m.xc e).run = some r) :
    ∃ r', (a.xc e).run = some r' ∧ ({ r' with chans := [] } : RunStep) = { r with chans := [] } := by
  have hmap : (a.xc e).run.map (fun r => ({ r with chans := [] } : RunStep)) = (m.xc e).run.map fun r => { r with chans := [] } :=
    (congrArg Xc.run (h.xc e) :)
  rw [hr] at hmap
  exact Option.map_eq_some_iff.mp hmap

end

section
variable {c : CtxId} {b : BoundImage} {s : State}

/-- A step that is armed (09 R271). -/
def QStep.armed (q : QStep) (seq : Nat) : RunStep :=
  { step := q.step, arg := q.arg, released := false, number := 0, releaseAt := 0, armSeq := seq, chans := [], offCorner := 0, flags := 0
    recvCh := [] }

/-- The head of a context's queue may be armed: `p` is its program, whose gates are open (09 R284; 10 R314). -/
structure Machine.Armable (m : Machine) (c : CtxId) (b : BoundImage) (q : QStep) (p : StepProg) : Prop where
  run : (m.xc c).run = none
  shown : (m.xc c).shown = .running
  sound : (m.xc c).detected = none
  kept : q.aborted = none
  fence : m.fenced c = false
  tiles : ∀ l ∈ m.imageTiles c, (m.tileAt l).toRetire = false ∧ (m.tileAt l).resetAt = none
  room : m.cqRoom c 0 = true
  prog : b.img.steps[q.step]? = some p
  gates : m.gatesOk b p = true

theorem stepArm_of_armable {q : QStep} {rest : List QStep} {p : StepProg} (himage : (s.m.xc c).image = some b)
    (hqueue : (s.m.xc c).queue = q :: rest) (h : s.m.Armable c b q p) :
    exec (.stepArm c) s = done s (((s.m.modXc c fun x => { x with queue := rest, run := some (q.armed s.m.reef.armSeq) }).takeGates
      c b p).reefArm c) := by
  have htiles : ((s.m.imageTiles c).any fun l => (s.m.tileAt l).toRetire || (s.m.tileAt l).resetAt.isSome) = false := by
    simp only [List.any_eq_false, Bool.or_eq_true, not_or]
    intro l hl
    obtain ⟨hretire, hreset⟩ := h.tiles l hl
    simp [hretire, hreset]
  show execStepArm c s = _
  unfold execStepArm
  dsimp only
  rw [himage, hqueue]
  dsimp only
  rw [h.prog, if_neg (by simp [h.run, h.shown, h.sound, h.kept, h.fence, htiles, h.room, h.gates])]
  rfl

theorem stepArm_arms {q : QStep} {rest : List QStep} {p : StepProg} (himage : (s.m.xc c).image = some b)
    (hqueue : (s.m.xc c).queue = q :: rest) (h : s.m.Armable c b q p) :
    Completes (.stepArm c) s fun m => (m.xc c).queue = rest ∧ ∃ r, (m.xc c).run = some r ∧ r.step = q.step ∧ r.arg = q.arg ∧
      r.released = false ∧ r.armSeq = s.m.reef.armSeq := by
  have hgated := takeGates_gated (s.m.modXc c fun x => { x with queue := rest, run := some (q.armed s.m.reef.armSeq) }) c b p
  refine .of_done (stepArm_of_armable himage hqueue h) ?_
  rw [(reefArm_kept (W := [.reef]) .refl c (by decide)).xc (by decide)]
  refine ⟨?_, ?_⟩
  · rw [hgated.queue, modXc_xc_same]
  · obtain ⟨r, hr, hsame⟩ := hgated.run (e := c) (r := q.armed s.m.reef.armSeq) (by rw [modXc_xc_same])
    exact ⟨r, hr, (congrArg RunStep.step hsame :), (congrArg RunStep.arg hsame :), (congrArg RunStep.released hsame :),
      (congrArg RunStep.armSeq hsame :)⟩

theorem stepArm_waits (h : (s.m.xc c).run.isSome = true ∨ (s.m.xc c).queue = []) : Ignored (.stepArm c) s := by
  refine .of_done (m := s.m) ?_ rfl
  show execStepArm c s = _
  unfold execStepArm
  dsimp only
  split
  next b q rest _ hqueue =>
    have hrun : (s.m.xc c).run.isSome = true := h.resolve_right (by rw [hqueue]; exact List.cons_ne_nil q rest)
    exact if_pos (.inl hrun)
  next => rfl

/-! ### Release -/

/-- A tile at the start of a step: at its entry word, or idle (09 R272; 08 R261). -/
def TileRec.started (t : TileRec) (seed : Word) (entry : Option Nat) : TileRec :=
  { t with
    rng := seed, phase := if entry.isSome then .running else .idle, pc := entry.getD 0, loops := [], lines := [], tokens := [], lineN := 0
    xdieN := 0, fabN := 0 }

/-- Start one tile of a step with number n. -/
def Machine.startTile (c : Nat) (b : BoundImage) (n : DWord) (m : Machine) (e : Option Nat × Nat) : Machine :=
  m.modTile (m.logical c b e.2) (·.started (rngSeed b.img.srSeed n.toNat (m.logical c b e.2)) e.1)

theorem startTile_tileAt (m : Machine) (c : Nat) (b : BoundImage) (n : DWord) (e : Option Nat × Nat) (t : Nat) :
    (m.startTile c b n e).tileAt (m.logical c b t) =
      if t = e.2 then (m.tileAt (m.logical c b t)).started (rngSeed b.img.srSeed n.toNat (m.logical c b t)) e.1
      else m.tileAt (m.logical c b t) := by
  have hlogical : m.logical c b t = m.logical c b e.2 ↔ t = e.2 := by
    unfold Machine.logical
    exact Nat.add_left_cancel_iff
  rw [Machine.startTile, modTile_tileAt]
  simp only [hlogical]
  split
  next h => rw [h]
  next => rfl

/-- Starting tiles from image tile k upward leaves those below. -/
theorem startTiles_tileAt_below (c : Nat) (b : BoundImage) (n : DWord) (l : List (Option Nat)) (m : Machine) {k t : Nat} (ht : t < k) :
    ((l.zipIdx k).foldl (Machine.startTile c b n) m).tileAt (m.logical c b t) = m.tileAt (m.logical c b t) := by
  induction l generalizing m k with
  | nil => rfl
  | cons e l ih =>
    rw [List.zipIdx_cons, List.foldl_cons]
    refine (ih (m.startTile c b n (e, k)) (Nat.lt_succ_of_lt ht)).trans ((startTile_tileAt m c b n (e, k) t).trans ?_)
    exact if_neg (Nat.ne_of_lt ht)

/-- Starting tiles from image tile k upward starts each at its own entry. -/
theorem startTiles_tileAt (c : Nat) (b : BoundImage) (n : DWord) (l : List (Option Nat)) (m : Machine) (k t : Nat) {e : Option Nat}
    (he : l[t]? = some e) :
    ((l.zipIdx k).foldl (Machine.startTile c b n) m).tileAt (m.logical c b (k + t)) =
      (m.tileAt (m.logical c b (k + t))).started (rngSeed b.img.srSeed n.toNat (m.logical c b (k + t))) e := by
  induction l generalizing m k t with
  | nil => cases he
  | cons x l ih =>
    rw [List.zipIdx_cons, List.foldl_cons]
    cases t with
    | zero =>
      obtain rfl : x = e := Option.some.inj he
      refine (startTiles_tileAt_below c b n l (m.startTile c b n (x, k)) (Nat.lt_succ_self k)).trans
        ((startTile_tileAt m c b n (x, k) k).trans ?_)
      exact if_pos rfl
    | succ t =>
      have hnext := ih (m.startTile c b n (x, k)) (k + 1) t he
      rw [Nat.add_right_comm] at hnext
      refine hnext.trans (congrArg (fun r : TileRec => r.started (rngSeed b.img.srSeed n.toNat (m.logical c b (k + t + 1))) e)
        ((startTile_tileAt m c b n (x, k) (k + t + 1)).trans ?_))
      exact if_neg (by simp; omega)

/-- An execution record whose armed step is released now (09 R271). -/
def Xc.release (x : Xc) (r : RunStep) (now : DWord) (tripped : BitVec 4) : Xc :=
  { x with
    next := x.next + 1, lastRelease := some now
    run := some { r with released := true, number := x.next, releaseAt := now, flags := noFlags, offCorner := tripped } }

/-- The armed step is released: its number and time stand, and its tiles start (09 R271, R272). -/
def Machine.releaseStep (m : Machine) (c : Nat) (b : BoundImage) (r : RunStep) (p : StepProg) : Machine :=
  p.starts.zipIdx.foldl (Machine.startTile c b (m.xc c).next)
    (m.modXc c fun x => x.release r m.time.now (m.trippedDies (m.ctxPart c)))

/-- A step that is armed and may be released (09 R271; 13 R378). -/
structure Machine.Releasing (m : Machine) (c : CtxId) (b : BoundImage) (r : RunStep) (p : StepProg) : Prop where
  image : (m.xc c).image = some b
  run : (m.xc c).run = some r
  prog : b.img.steps[r.step]? = some p
  armed : r.released = false
  sound : (m.xc c).detected = none
  fence : m.fenced c = false
  reef : m.releasable c = true

theorem stepRelease_of_releasing {r : RunStep} {p : StepProg} (h : s.m.Releasing c b r p) :
    exec (.stepRelease c) s = done s ((s.m.releaseStep c b r p).reefRelease c) := by
  show execStepRelease c s = _
  unfold execStepRelease
  dsimp only
  rw [h.image, h.run]
  dsimp only
  rw [h.prog]
  dsimp only
  rw [if_neg (by simp [h.armed, h.sound, h.fence, h.reef])]
  rfl

theorem releaseStep_xc (m : Machine) (c : Nat) (b : BoundImage) (r : RunStep) (p : StepProg) :
    (m.releaseStep c b r p).xc c = (m.xc c).release r m.time.now (m.trippedDies (m.ctxPart c)) := by
  have hstarts (x : Machine) (n : DWord) (l : List (Option Nat × Nat)) : Kept [.tiles] x (l.foldl (Machine.startTile c b n) x) :=
    Kept.foldl .refl fun y _ h => modTile_kept h _ _ (by decide)
  rw [Machine.releaseStep, (hstarts _ _ _).xc (by decide), modXc_xc_same]

theorem releaseStep_tileAt (m : Machine) (c : Nat) (b : BoundImage) (r : RunStep) (p : StepProg) {t : Nat} {e : Option Nat}
    (he : p.starts[t]? = some e) :
    (m.releaseStep c b r p).tileAt (m.logical c b t) =
      (m.tileAt (m.logical c b t)).started (rngSeed b.img.srSeed (m.xc c).next.toNat (m.logical c b t)) e := by
  have hstarts := startTiles_tileAt c b (m.xc c).next p.starts (m.modXc c fun x => x.release r m.time.now (m.trippedDies (m.ctxPart c)))
    0 t he
  rwa [Nat.zero_add] at hstarts

theorem stepRelease_releases {r : RunStep} {p : StepProg} (h : s.m.Releasing c b r p) :
    Completes (.stepRelease c) s fun m =>
      m.xc c = (s.m.xc c).release r s.m.time.now (s.m.trippedDies (s.m.ctxPart c)) ∧
      ∀ t e, p.starts[t]? = some e → m.tileAt (s.m.logical c b t) =
        (s.m.tileAt (s.m.logical c b t)).started (rngSeed b.img.srSeed (s.m.xc c).next.toNat (s.m.logical c b t)) e := by
  have hreef := reefRelease_kept (W := [.reef]) .refl c (a := s.m.releaseStep c b r p) (by decide)
  refine .of_done (stepRelease_of_releasing h) ⟨?_, fun t e he => ?_⟩
  · rw [hreef.xc (by decide), releaseStep_xc]
  · rw [hreef.tileAt (by decide), releaseStep_tileAt s.m c b r p he]

theorem stepRelease_waits (h : (s.m.xc c).run = none ∨ s.m.releasable c = false) : Ignored (.stepRelease c) s := by
  refine .of_done (m := s.m) ?_ rfl
  show execStepRelease c s = _
  unfold execStepRelease
  dsimp only
  split
  next b r _ hrun =>
    have hreef : s.m.releasable c = false := h.resolve_left (by rw [hrun]; exact Option.some_ne_none r)
    split
    · rfl
    · exact if_pos (.inr (.inr (.inr hreef)))
  next => rfl

end

end Sys2Proof.Machine

namespace Sys2Proof.Machine

/-- Settles O36: arming, release and completion each act on the context's execution record; what the gates, the completion ring and the tiles'
end leave of it are `Gated`, `Recorded` and `contain_xc`. -/
theorem stepsAreArmedReleasedAndEnded : Obligations.StepsAreArmedReleasedAndEnded := by
  unfold Obligations.StepsAreArmedReleasedAndEnded
  refine ⟨?latched, ?queued, ?notShown, ?unreached, ?fenced, ?armed, ?armWaits, ?released, ?releaseWaits, ?completed, ?violated, ?aborted,
    ?nothing⟩
  case latched => exact fun c f v s hreach hfence => ctxXcArmLo_latches hreach hfence
  case queued =>
    intro c f v b s hreach hfence himage hshown
    have htakes := takesIndex_iff (f := funcNum f) himage hshown
    refine ⟨fun hindex => ⟨fun hroom => ctxXcArmHi_completes hreach hfence ?_, fun hfull => ctxXcArmHi_completes hreach hfence ?_⟩,
      fun hindex => ctxXcArmHi_completes hreach hfence ?_⟩
    · rw [armHi_of_room s.m c (htakes.mpr hindex) hroom]
      exact ⟨rfl, rfl, rfl, rfl⟩
    · rw [armHi_of_full s.m c (htakes.mpr hindex) hfull]
      exact ⟨rfl, rfl, rfl⟩
    · rw [armHi_of_bad s.m c (htakes.not.mpr (Nat.not_lt_of_le hindex))]
      exact ⟨rfl, rfl, rfl⟩
  case notShown =>
    intro c f v s hready hrunning hreach hfence
    refine ctxXcArmHi_completes hreach hfence ?_
    rw [armHi_of_bad s.m c (fun htakes => htakes (.inr ⟨hready, hrunning⟩))]
    exact ⟨rfl, rfl⟩
  case unreached => exact fun c f v s hreach => pageWrites_ignored hreach
  case fenced => exact fun c f v s hreach hfence => pageWrites_discarded hreach hfence
  case armed =>
    exact fun c b q rest p s himage hqueue hrun hshown hsound hkept hfence htiles hroom hprog hgates =>
      stepArm_arms himage hqueue ⟨hrun, hshown, hsound, hkept, hfence, htiles, hroom, hprog, hgates⟩
  case armWaits => exact fun c s h => stepArm_waits h
  case released =>
    intro c b r p s himage hrun hprog harmed hsound hfence hreef
    refine (stepRelease_releases ⟨himage, hrun, hprog, harmed, hsound, hfence, hreef⟩).imp fun m ⟨hxc, htiles⟩ => ?_
    rw [hxc]
    refine ⟨rfl, rfl, rfl, fun t e he => ?_⟩
    rw [htiles t e he]
    exact ⟨rfl, rfl, rfl, rfl, rfl⟩
  case releaseWaits => exact fun c s h => stepRelease_waits h
  case completed =>
    intro c r s hrun hreleased hsound hended hstate
    have h : s.m.Ended c r := ⟨hrun, hreleased, hsound, hended⟩
    refine ⟨fun hintime => (stepComplete_records h hstate hintime).imp fun m ⟨hon, hwrote⟩ => ?_,
      fun hlate hcorner => (stepComplete_overruns h hstate hlate hcorner).imp fun m hstop => ?_⟩
    · exact ⟨hon.run, hon.state, hon.queue, hwrote.record, hwrote.outside⟩
    · exact ⟨hstop.run, hstop.state, hstop.queue, hstop.viol⟩
  case violated =>
    intro c v s hdetected hstate
    refine (contractViolation_contains hdetected hstate).imp fun m ⟨hstop, htiles⟩ => ?_
    refine ⟨hstop.state, hstop.viol, hstop.queue, hstop.run, hstop.detected, fun l hl => ?_⟩
    exact ⟨(congrArg TileRec.phase (htiles l hl) :), (congrArg TileRec.lines (htiles l hl) :), (congrArg TileRec.tokens (htiles l hl) :)⟩
  case aborted =>
    intro c ch s hsound hqueue
    refine ⟨fun hrun hstate => (contractViolation_aborts hsound hqueue hrun hstate).imp fun m hstop => ?_,
      fun hrun => contractViolation_waits hsound hrun⟩
    exact ⟨hstop.state, hstop.viol, hstop.queue⟩
  case nothing => exact fun c s hsound hqueue => contractViolation_ignored hsound hqueue

end Sys2Proof.Machine

/-! ## Every admitted command completes (10 R298) -/

namespace Sys2Proof.Machine

/-- A command is done: a next state with the queue as it was. -/
def IsDone (s : State) (o : Host.Outcome State Fault Refusal) : Prop := ∃ m, o = done s m

section
variable {s : State}

theorem IsDone.done {m : Machine} : IsDone s (done s m) := ⟨m, rfl⟩

theorem IsDone.ite {p : Prop} [Decidable p] {o o' : Host.Outcome State Fault Refusal} (h : IsDone s o) (h' : IsDone s o') :
    IsDone s (if p then o else o') := by
  split <;> assumption

theorem IsDone.completes {c : Instr} (h : IsDone s (exec c s)) : Completes c s fun _ => True := by
  obtain ⟨m, hm⟩ := h
  exact .of_done hm trivial

/-! ### The commands whose meaning has several branches -/

section
variable (c : CtxId) (s : State)

theorem bind_isDone : IsDone s (execBind c s) := by
  refine .ite ?_ .done
  split <;> exact .done

theorem unbind_isDone : IsDone s (execUnbind c s) := by
  refine .ite (.ite .done (.ite .done ?_)) .done
  dsimp only
  split
  · exact .ite .done .done
  · exact .done

theorem restart_isDone : IsDone s (execRestart c s) := by
  refine .ite (.ite .done ?_) .done
  split
  · exact .done
  · exact .ite .done (.ite .done .done)

theorem stepArm_isDone : IsDone s (execStepArm c s) := by
  unfold execStepArm
  dsimp only
  split
  · refine .ite .done ?_
    split <;> exact .done
  · exact .done

theorem stepRelease_isDone : IsDone s (execStepRelease c s) := by
  unfold execStepRelease
  dsimp only
  split
  · split
    · exact .done
    · exact .ite .done .done
  · exact .done

theorem stepComplete_isDone : IsDone s (execStepComplete c s) := by
  unfold execStepComplete
  dsimp only
  split
  · exact .done
  · exact .ite .done (.ite .done .done)

theorem contractViolation_isDone : IsDone s (execContractViolation c s) := by
  unfold execContractViolation
  dsimp only
  split
  · exact .done
  · split <;> exact .done

end

/-! ### Every command -/

/-- A command that names only addresses that exist is done. A tile's word is done whether or not one is issued; the meaning of each
command that has no case of its own is one `done`. -/
theorem exec_isDone {c : Instr} (h : s.m.admits c = true) : IsDone s (exec c s) := by
  cases c with
  | hbmUncorrectable => exact ⟨_, if_neg (Nat.not_le_of_lt (of_decide_eq_true h))⟩
  | bind c => exact bind_isDone c s
  | unbind c => exact unbind_isDone c s
  | restart c => exact restart_isDone c s
  | stepArm c => exact stepArm_isDone c s
  | stepRelease c => exact stepRelease_isDone c s
  | stepComplete c => exact stepComplete_isDone c s
  | contractViolation c => exact contractViolation_isDone c s
  | mma | drain | vop | vcvt | vld | vst | hrd | hwr | send | recv | wait | loop | tileEnd =>
    dsimp only [exec, execMma, execDrain, execVop, execVcvt, execVld, execVst, execHrd, execHwr, execSend, execRecv, execWait, execLoop,
      execTileEnd]
    split <;> exact .done
  | _ => exact .done

/-- A line outside the address map does not exist: it stops the machine (10 R298, log 26). -/
theorem hbmUncorrectable_faults {addr : BitVec 48} (corrected : Bool) (h : s.m.totalPages ≤ addr.toNat / pageBytes) :
    exec (.hbmUncorrectable addr corrected) s = .fault .noSuchAddress := if_pos h

/-- The one command that is not admitted names a line outside the address map. -/
theorem eq_hbmUncorrectable_of_not_admits {c : Instr} (h : s.m.admits c = false) :
    ∃ addr corrected, c = .hbmUncorrectable addr corrected ∧ s.m.totalPages ≤ addr.toNat / pageBytes := by
  cases c with
  | hbmUncorrectable addr corrected => exact ⟨addr, corrected, rfl, Nat.le_of_not_lt (of_decide_eq_false h)⟩
  | _ => cases h

theorem exec_ne_refused (c : Instr) (r : Refusal) : exec c s ≠ .refused r := by
  cases hadmits : s.m.admits c with
  | true =>
    obtain ⟨m, hm⟩ := exec_isDone hadmits
    rw [hm]
    exact nofun
  | false =>
    obtain ⟨addr, corrected, rfl, hbeyond⟩ := eq_hbmUncorrectable_of_not_admits hadmits
    rw [hbmUncorrectable_faults corrected hbeyond]
    exact nofun

/-! ### Steps -/

theorem step_of_safe (h : s.safe = true) : ∃ t, step s = .next t := by
  cases hq : s.pending with
  | nil => exact ⟨_, step_of_empty hq⟩
  | cons c rest =>
    have hadmits : s.m.admits c = true := by simpa only [State.safe, hq] using h
    obtain ⟨m, hm⟩ := exec_isDone (s := { s with pending := rest }) hadmits
    exact ⟨_, (step_of_front hq).trans hm⟩

theorem step_ne_refused (s : State) (r : Refusal) : step s ≠ .refused r := by
  cases hq : s.pending with
  | nil => rw [step_of_empty hq]; exact nofun
  | cons c rest => rw [step_of_front hq]; exact exec_ne_refused c r

end

/-- Settles O2: every command is done in each branch of its meaning, but HBM_UNCORRECTABLE beyond the address map, which faults. -/
theorem admittedCommandsComplete : Obligations.AdmittedCommandsComplete := by
  unfold Obligations.AdmittedCommandsComplete
  refine ⟨?complete, ?fault, ?safe, ?refused⟩
  case complete => exact fun c s h => (exec_isDone h).completes
  case fault => exact fun addr corrected s h => hbmUncorrectable_faults corrected h
  case safe => exact fun s h => step_of_safe h
  case refused => exact fun s r => step_ne_refused s r

end Sys2Proof.Machine

/-! ## Streams: hellos, credits and closing entries (10 R310-R313) -/

namespace Sys2Proof.Machine

/-! ### Reads of a stream and of a context -/

section
variable {W : List Area} {m a : Machine}

theorem Kept.strmAt (h : Kept W m a) (hw : Area.strm ∉ W) (n : Nat) : a.strmAt n = m.strmAt n :=
  congrArg (fun x : Strm => tget StreamRec.reset x.entries n) (h.strm hw)

theorem Kept.ctxAt (h : Kept W m a) (hw : Area.ctx ∉ W) (c : Nat) : a.ctxAt c = m.ctxAt c :=
  congrArg (tget CtxRec.reset · c) (h.ctx hw)

end

theorem bits_lt {m : Nat} (w : BitVec m) (lo n : Nat) : bits w lo n < 2 ^ n := Nat.mod_lt _ (Nat.two_pow_pos n)

theorem ofLe_lt (l : List Byte) : ofLe l < 2 ^ (8 * l.length) := by
  induction l with
  | nil => exact Nat.one_pos
  | cons b l ih =>
    have hb := b.isLt
    rw [ofLe, List.length_cons, Nat.mul_succ, Nat.pow_add]
    omega

theorem leAt_lt (l : List Byte) (o n : Nat) : leAt l o n < 2 ^ (8 * n) :=
  Nat.lt_of_lt_of_le (ofLe_lt _) (Nat.pow_le_pow_right (by decide) (Nat.mul_le_mul_left 8 (List.length_take_le n _)))

/-! ### Management frames are sent -/

section
variable (m : Machine) (n : Nat)

theorem inject_keeps (d type : Nat) (last : Bool) (dst : NodeId) (tag stream txn gen opx : Nat) (payload : List Byte) :
    Kept [.fwd, .txSeq] m (m.inject d type last dst tag stream txn gen opx payload) := by
  apply inject_kept .refl <;> decide

theorem inject_sentMgmt (dst : NodeId) (opx : Nat) (payload : List Byte) :
    m.sentMgmt (m.inject 0 0 true dst 0 0 0 0 opx payload) dst opx payload :=
  congrArg FwdRec.rx ((modFwd_fwdAt m 0 _ 0).trans (if_pos rfl))

theorem sendHello_keeps : Kept [.fwd, .txSeq] m (m.sendHello n) := inject_keeps m ..

theorem sendStreamCredit_strmAt (k : Nat) : (m.sendStreamCredit n).strmAt k =
    if k = n then { m.strmAt n with lastCredit := some m.time.now } else m.strmAt k := by
  have hsent := inject_keeps m 0 0 true (m.strmAt n).peer 0 0 0 0 0x41
    (strmPayload n (m.strmAt n).gen (((m.strmAt n).freed + (m.strmAt n).depth) % 65536))
  rw [Machine.sendStreamCredit, modStrm_strmAt, hsent.strmAt (by decide), hsent.strmAt (by decide)]

/-- Offering credit notes at most the time of the credit sent. -/
theorem offerCredit_strmAt : ∃ t, ∀ k, (m.offerCredit n).strmAt k = if k = n then { m.strmAt n with lastCredit := t } else m.strmAt k := by
  unfold Machine.offerCredit
  dsimp only
  split
  · exact ⟨_, sendStreamCredit_strmAt m n⟩
  · refine ⟨(m.strmAt n).lastCredit, fun k => ?_⟩
    split
    next h => rw [h]
    next => rfl

end

/-! ### Hellos and credits that arrive (10 R310, R311) -/

/-- An IN stream's entry after a hello with a first sequence number. -/
def StreamRec.greeted (r : StreamRec) (v : Nat) : StreamRec :=
  if r.landed = 0 ∧ r.freed = 0 then { r with firstSeq := v, peerSeen := true, anchorSeq := v, anchorSlot := 0 }
  else { r with firstSeq := v, peerSeen := true }

/-- A stream management frame is the entry's own: of its kind, its generation and its peer, and the entry takes it. -/
structure StreamRec.Hears (r : StreamRec) (kind : Nat) (f : Frame) : Prop where
  kind : r.kind = kind
  state : r.state = .open_ ∨ r.state = .bound
  gen : r.gen = leAt f.payload 2 1
  peer : r.peer = frSrc f

/-- The stream that a stream management frame names (10 Table 10.8). -/
def frStrmId (f : Frame) : Nat := leAt f.payload 0 2 % 4096

section
variable {f : Frame} {m m' : Machine}

theorem takeHello_of_hears (h : (m.strmAt (frStrmId f)).Hears kindIn f) : m.takeHello f =
    (m.setStrm (frStrmId f) ((m.strmAt (frStrmId f)).greeted (leAt f.payload 3 2))).offerCredit (frStrmId f) :=
  if_pos ⟨h.kind, h.state, h.gen, h.peer⟩

theorem takeHello_strmAt (h : (m.strmAt (frStrmId f)).Hears kindIn f) : ∃ t, ∀ k, (m.takeHello f).strmAt k =
    if k = frStrmId f then { (m.strmAt (frStrmId f)).greeted (leAt f.payload 3 2) with lastCredit := t } else m.strmAt k := by
  rw [takeHello_of_hears h]
  obtain ⟨t, ht⟩ := offerCredit_strmAt (m.setStrm (frStrmId f) ((m.strmAt (frStrmId f)).greeted (leAt f.payload 3 2))) (frStrmId f)
  refine ⟨t, fun k => (ht k).trans ?_⟩
  rw [setStrm_strmAt, setStrm_strmAt, if_pos rfl]
  split <;> rfl

/-- What a credit frame gives an OUT stream: its value less the tokens sent in the generation (10 R311). -/
def StreamRec.creditOf (r : StreamRec) (f : Frame) : Nat := (leAt f.payload 3 2 + 65536 - r.landed % 65536) % 65536

/-- The depth of an OUT stream's peer: the first credit frame of a generation tells it (10 R311). -/
def StreamRec.depthOf (r : StreamRec) (f : Frame) : Nat := if r.peerSeen then r.depth else leAt f.payload 3 2

theorem takeCredit_of_hears (h : (m.strmAt (frStrmId f)).Hears kindOut f) : m.takeCredit f =
    if (m.strmAt (frStrmId f)).depthOf f < (m.strmAt (frStrmId f)).creditOf f ∨ 4096 < (m.strmAt (frStrmId f)).depthOf f then
      { m with strm := { m.strm with cntCredit := satAdd32 m.strm.cntCredit 1 } }.raise (srcStrm 2) 0
    else m.setStrm (frStrmId f) { m.strmAt (frStrmId f) with
      credit := (m.strmAt (frStrmId f)).creditOf f, depth := (m.strmAt (frStrmId f)).depthOf f, peerSeen := true, freed := 0 } :=
  if_pos ⟨h.kind, h.state, h.gen, h.peer⟩

end

section
variable {f : Frame} {m' : Machine} {s : State} {n : Nat}

theorem takeMgmt_keeps {opx : Nat} (h : s.m.takeMgmt opx = some (f, m')) : Kept [.fwd] s.m m' := takeMgmt_kept .refl h (by decide)

theorem streamHello_of_frame (h : s.m.takeMgmt 0x40 = some (f, m')) : exec .streamHelloReceive s = done s (m'.takeHello f) := by
  show execStreamHelloReceive s = _
  unfold execStreamHelloReceive
  rw [h]

theorem streamHello_ignored (h : s.m.takeMgmt 0x40 = none) : Ignored .streamHelloReceive s := by
  show execStreamHelloReceive s = _
  unfold execStreamHelloReceive
  rw [h]
  rfl

theorem streamCredit_of_frame (h : s.m.takeMgmt 0x41 = some (f, m')) : exec .streamCreditReceive s = done s (m'.takeCredit f) := by
  show execStreamCreditReceive s = _
  unfold execStreamCreditReceive
  rw [h]

theorem streamCredit_ignored (h : s.m.takeMgmt 0x41 = none) : Ignored .streamCreditReceive s := by
  show execStreamCreditReceive s = _
  unfold execStreamCreditReceive
  rw [h]
  rfl

/-- A hello of the stream's generation and peer (10 R310). -/
theorem streamHello_greets (hframe : s.m.takeMgmt 0x40 = some (f, m')) (hn : n = frStrmId f) (h : (s.m.strmAt n).Hears kindIn f) :
    Completes .streamHelloReceive s fun m => ∃ t, ∀ k, m.strmAt k =
      if k = n then { (s.m.strmAt n).greeted (leAt f.payload 3 2) with lastCredit := t } else s.m.strmAt k := by
  have htaken (k : Nat) : m'.strmAt k = s.m.strmAt k := (takeMgmt_keeps hframe).strmAt (by decide) k
  subst hn
  rw [← htaken] at h
  obtain ⟨t, ht⟩ := takeHello_strmAt h
  refine .of_done (streamHello_of_frame hframe) ⟨t, fun k => ?_⟩
  rw [ht, htaken, htaken]

/-- A credit frame within the depth (10 R311). -/
theorem streamCredit_credits (hframe : s.m.takeMgmt 0x41 = some (f, m')) (hn : n = frStrmId f) (h : (s.m.strmAt n).Hears kindOut f)
    (hcredit : (s.m.strmAt n).creditOf f ≤ (s.m.strmAt n).depthOf f) (hdepth : (s.m.strmAt n).depthOf f ≤ 4096) :
    Completes .streamCreditReceive s fun m => ∀ k, m.strmAt k = if k = n then { s.m.strmAt n with
      credit := (s.m.strmAt n).creditOf f, depth := (s.m.strmAt n).depthOf f, peerSeen := true, freed := 0 } else s.m.strmAt k := by
  have htaken (k : Nat) : m'.strmAt k = s.m.strmAt k := (takeMgmt_keeps hframe).strmAt (by decide) k
  subst hn
  refine .of_done (streamCredit_of_frame hframe) fun k => ?_
  rw [← htaken] at h hcredit hdepth
  rw [takeCredit_of_hears h, if_neg (by omega), setStrm_strmAt, htaken, htaken]

/-- A credit frame beyond the depth, or of a depth that no peer has (10 R311). -/
theorem streamCredit_counts (hframe : s.m.takeMgmt 0x41 = some (f, m')) (hn : n = frStrmId f) (h : (s.m.strmAt n).Hears kindOut f)
    (hbeyond : (s.m.strmAt n).depthOf f < (s.m.strmAt n).creditOf f ∨ 4096 < (s.m.strmAt n).depthOf f) :
    Completes .streamCreditReceive s fun m => m.strm.entries = s.m.strm.entries ∧ m.strm.cntCredit = satAdd32 s.m.strm.cntCredit 1 := by
  have htaken := takeMgmt_keeps hframe
  subst hn
  refine .of_done (streamCredit_of_frame hframe) ?_
  rw [← htaken.strmAt (by decide)] at h hbeyond
  rw [takeCredit_of_hears h, if_pos hbeyond, (raise_keeps _ _ _).strm (by decide)]
  simp only [htaken.strm (by decide), and_self]

end

/-! ### Hellos and credits that are repeated, and a stream that has closed -/

section
variable {n : StreamId} {s : State}

theorem streamHelloRepeat_repeats (hkind : (s.m.strmAt n).kind = kindOut) (hstate : (s.m.strmAt n).state = .open_ ∨ (s.m.strmAt n).state = .bound)
    (hpeer : (s.m.strmAt n).peerSeen = false) : Completes (.streamHelloRepeat n) s fun m =>
      s.m.sentMgmt m (s.m.strmAt n).peer 0x40 (strmPayload n (s.m.strmAt n).gen (tget 0 s.m.txSeq n)) ∧ m.strm = s.m.strm :=
  .of_done (congrArg (done s) (if_pos ⟨hkind, hstate, by rw [hpeer]; rfl⟩))
    ⟨inject_sentMgmt s.m _ 0x40 _, (sendHello_keeps s.m n).strm (by decide)⟩

theorem streamHelloRepeat_ignored (h : (s.m.strmAt n).kind ≠ kindOut ∨ (s.m.strmAt n).peerSeen = true ∨
    ((s.m.strmAt n).state ≠ .open_ ∧ (s.m.strmAt n).state ≠ .bound)) : Ignored (.streamHelloRepeat n) s := by
  refine congrArg (done s) (if_neg ?_)
  rintro ⟨hkind, hstate, hpeer⟩
  rcases h with hother | hseen | ⟨hnotOpen, hnotBound⟩
  · exact hother hkind
  · simp [hseen] at hpeer
  · exact hstate.elim hnotOpen hnotBound

theorem streamCreditPeriodic_offers (hkind : (s.m.strmAt n).kind = kindIn) (hstate : (s.m.strmAt n).state = .bound)
    (hpeer : (s.m.strmAt n).peerSeen = true) : Completes (.streamCreditPeriodic n) s fun m =>
      s.m.sentMgmt m (s.m.strmAt n).peer 0x41 (strmPayload n (s.m.strmAt n).gen (((s.m.strmAt n).freed + (s.m.strmAt n).depth) % 65536)) ∧
      m.strmAt n = { s.m.strmAt n with lastCredit := some s.m.time.now } :=
  .of_done (congrArg (done s) (if_pos ⟨hkind, hstate, hpeer⟩))
    ⟨inject_sentMgmt s.m _ 0x41 _, (sendStreamCredit_strmAt s.m n n).trans (if_pos rfl)⟩

theorem streamCreditPeriodic_ignored (h : (s.m.strmAt n).state ≠ .bound ∨ (s.m.strmAt n).kind ≠ kindIn ∨ (s.m.strmAt n).peerSeen = false) :
    Ignored (.streamCreditPeriodic n) s := by
  refine congrArg (done s) (if_neg ?_)
  rintro ⟨hkind, hstate, hpeer⟩
  rcases h with hother | hother | hunseen
  · exact hother hstate
  · exact hother hkind
  · rw [hunseen] at hpeer
    cases hpeer

/-- A request of a stream is outstanding. -/
def Machine.strmBusy (m : Machine) (n : Nat) : Prop := ∃ e t, e ∈ m.txn ∧ e.2 = some t ∧ t.stream = n

theorem streamClosingEnd_clears (hstate : (s.m.strmAt n).state = .closing) (hidle : ¬ s.m.strmBusy n) :
    Completes (.streamClosingEnd n) s fun m => m.strmAt n = .reset ∧ ∀ k, k ≠ n.val → m.strmAt k = s.m.strmAt k := by
  refine .of_done (m := s.m.setStrm n .reset) (congrArg (done s) (if_pos ⟨hstate, ?idle⟩))
    ⟨(setStrm_strmAt ..).trans (if_pos rfl), fun k hk => (setStrm_strmAt ..).trans (if_neg hk)⟩
  case idle =>
    rw [Bool.not_eq_true', List.any_eq_false]
    intro e he
    split
    next t ht => exact fun hstream => hidle ⟨e, t, he, ht, beq_iff_eq.mp hstream⟩
    next => exact Bool.false_ne_true

theorem streamClosingEnd_waits (hbusy : s.m.strmBusy n) : Ignored (.streamClosingEnd n) s := by
  obtain ⟨e, t, he, ht, hstream⟩ := hbusy
  refine congrArg (done s) (if_neg ?_)
  rintro ⟨-, hidle⟩
  rw [Bool.not_eq_true', List.any_eq_false] at hidle
  simpa [ht, hstream] using hidle e he

end

/-- Settles O39: a frame that the stream hears changes its entry as `greeted` and the credit say and nothing else of the table; the
repeats send one management frame each, and a closing entry clears unless `strmBusy`. -/
theorem streamHellosAndCredits : Obligations.StreamHellosAndCredits := by
  unfold Obligations.StreamHellosAndCredits
  refine ⟨?hello, ?credit, ?noHello, ?noCredit, ?repeats, ?noRepeat, ?periodic, ?noPeriodic, ?closing⟩
  case hello =>
    rintro f m' n _ s hframe hn rfl hkind hstate hgen hpeer
    refine (streamHello_greets hframe hn ⟨hkind, hstate, hgen, hpeer⟩).imp fun m ⟨t, ht⟩ => ?_
    rw [ht n, if_pos rfl, StreamRec.greeted]
    refine ⟨?_, ?_, ?_, ?_, fun k hk => (ht k).trans (if_neg hk)⟩ <;> split <;> rfl
  case credit =>
    rintro f m' n _ _ _ s hframe hn rfl hkind hstate hgen hpeer rfl rfl
    refine ⟨fun hcredit hdepth => ?_, fun hbeyond => ?_⟩
    · refine (streamCredit_credits hframe hn ⟨hkind, hstate, hgen, hpeer⟩ hcredit hdepth).imp fun m hm => ?_
      exact ⟨(hm n).trans (if_pos rfl), fun k hk => (hm k).trans (if_neg hk)⟩
    · exact streamCredit_counts hframe hn ⟨hkind, hstate, hgen, hpeer⟩ hbeyond
  case noHello => exact fun s h => streamHello_ignored h
  case noCredit => exact fun s h => streamCredit_ignored h
  case repeats => exact fun n s hkind hstate hpeer => streamHelloRepeat_repeats hkind hstate hpeer
  case noRepeat => exact fun n s h => streamHelloRepeat_ignored h
  case periodic => exact fun n s hkind hstate hpeer => streamCreditPeriodic_offers hkind hstate hpeer
  case noPeriodic => exact fun n s h => streamCreditPeriodic_ignored h
  case closing =>
    intro n s hstate
    refine ⟨fun hidle => streamClosingEnd_clears hstate ?_, fun hbusy => streamClosingEnd_waits hbusy⟩
    rintro ⟨e, t, he, ht, hstream⟩
    exact hidle e t he ht hstream

end Sys2Proof.Machine

/-! ## Streams: the operations of a context (10 R305-R308, R313, R317) -/

namespace Sys2Proof.Machine

/-! ### A stream operation is answered (10 R308) -/

/-- The registers of a stream operation once it is answered. -/
def StCmd.answered (x : StCmd) (status : Nat) : StCmd := { x with status := status, done := true, busy := false }

section
variable (m : Machine) (c status : Nat)

theorem stDone_keeps : Kept [.ctx, .msix, .out] m (m.stDone c status) := by apply stDone_kept .refl <;> decide

theorem stDone_ctxAt : (m.stDone c status).ctxAt c = { m.ctxAt c with st := (m.ctxAt c).st.answered status } := by
  unfold Machine.stDone
  rw [ctxInterrupt_ctxAt, modCtx_ctxAt, if_pos rfl]
  rfl

theorem stDone_strmAt (n : Nat) : (m.stDone c status).strmAt n = m.strmAt n := (stDone_keeps m c status).strmAt (by decide) n

theorem stDone_refuses : m.strmRefused (m.stDone c status) c status :=
  ⟨congrArg CtxRec.st (stDone_ctxAt m c status), (stDone_keeps m c status).strm (by decide)⟩

end

/-- The stream that a context's operation names. -/
abbrev Machine.opStrm (m : Machine) (c : Nat) : Nat := (m.ctxAt c).st.stream

/-- The entry of the stream that a context's operation names. -/
abbrev Machine.opRec (m : Machine) (c : Nat) : StreamRec := m.strmAt (m.opStrm c)

section
variable {c : CtxId} {s : State}

theorem streamOperations_ignored (h : ∀ k, s.m.stPending c k = false) : Ignored (.streamOpen c) s ∧ Ignored (.streamClose c) s ∧
    Ignored (.streamQuery c) s ∧ Ignored (.streamHead c) s := by
  have hnone (k : Nat) : ¬ s.m.stPending c k = true := by rw [h k]; exact Bool.false_ne_true
  exact ⟨.of_done rfl (if_neg (hnone 1)), .of_done rfl (if_neg (hnone 2)), .of_done rfl (if_neg (hnone 3)), .of_done rfl (if_neg (hnone 4))⟩

end

/-! ### OPEN -/

/-- The entry of a stream that OPEN has opened (10 Table 10.5). -/
def Machine.openedRec (m : Machine) (c n : Nat) (a : Table Word) : StreamRec :=
  { StreamRec.reset with
    state := .open_, kind := bits (tget 0 a 0) 0 3, ctx := c, peer := BitVec.ofNat 16 (bits (tget 0 a 0) 16 16)
    base := if bits (tget 0 a 0) 0 3 = kindMsg then (tget 0 a 1).toNat + (tget 0 a 2).toNat * 2 ^ 32 else 0
    len := if bits (tget 0 a 0) 0 3 = kindMsg then (tget 0 a 3).toNat else 0
    ring := if bits (tget 0 a 0) 0 3 = kindMsg then bits (tget 0 a 4) 0 13 else 0, windowNs := m.windowOf n, openTime := m.time.now }

/-- The stream's entry is set, and an OUT stream has said hello (10 R310). -/
def Machine.opened (m : Machine) (c n : Nat) (a : Table Word) : Machine :=
  let m := m.setStrm n (m.openedRec c n a)
  if bits (tget 0 a 0) 0 3 = kindOut then m.sendHello n else m

/-- One check of a chain that answers a status: the whole chain does what it found, or answers the first status. -/
theorem ite_status {α : Type} {p : Prop} [Decidable p] {k y : Nat} {x o : α} {f : Nat → α} (hk : p → k ≠ 0)
    (h : x = if y = 0 then o else f y) :
    (if p then f k else x) = if (if p then k else y) = 0 then o else f (if p then k else y) := by
  by_cases hp : p
  · rw [if_pos hp, if_pos hp, if_neg (hk hp)]
  · rw [if_neg hp, if_neg hp, h]

theorem openStream_eq (m : Machine) (c n : Nat) (a : Table Word) : m.openStream c n a =
    if m.openStatus c n a = 0 then (m.opened c n a).stDone c 0 else m.stDone c (m.openStatus c n a) := by
  refine ite_status (f := m.stDone c) (fun _ => by decide) ?_
  refine ite_status (f := m.stDone c) id ?_
  refine ite_status (f := m.stDone c) (fun _ => by decide) ?_
  refine ite_status (f := m.stDone c) (fun _ => by decide) ?_
  exact (if_pos rfl).symm

section
variable (m : Machine) (c n : Nat) (a : Table Word)

theorem opened_keeps : Kept [.fwd, .txSeq] (m.setStrm n (m.openedRec c n a)) (m.opened c n a) := .ite (sendHello_keeps _ n) .refl

theorem opened_strmAt (k : Nat) : (m.opened c n a).strmAt k = if k = n then m.openedRec c n a else m.strmAt k := by
  rw [(opened_keeps m c n a).strmAt (by decide), setStrm_strmAt]

theorem opened_ctxAt (k : Nat) : (m.opened c n a).ctxAt k = m.ctxAt k := (opened_keeps m c n a).ctxAt (by decide) k

end

section
variable {c : CtxId} {s : State}

theorem streamOpen_opens (h : s.m.stPending c 1 = true) (hok : s.m.openStatus c (s.m.opStrm c) (s.m.ctxAt c).st.args = 0) :
    Completes (.streamOpen c) s fun m =>
      (∀ k, m.strmAt k = if k = s.m.opStrm c then s.m.openedRec c (s.m.opStrm c) (s.m.ctxAt c).st.args else s.m.strmAt k) ∧
      (m.ctxAt c).st = (s.m.ctxAt c).st.answered 0 := by
  refine .of_done (congrArg (done s) ((if_pos h).trans ((openStream_eq ..).trans (if_pos hok)))) ⟨fun k => ?_, ?_⟩
  · rw [stDone_strmAt, opened_strmAt]
  · rw [stDone_ctxAt, opened_ctxAt]

theorem streamOpen_refuses (h : s.m.stPending c 1 = true) (hbad : s.m.openStatus c (s.m.opStrm c) (s.m.ctxAt c).st.args ≠ 0) :
    Completes (.streamOpen c) s fun m => s.m.strmRefused m c (s.m.openStatus c (s.m.opStrm c) (s.m.ctxAt c).st.args) :=
  .of_done (congrArg (done s) ((if_pos h).trans ((openStream_eq ..).trans (if_neg hbad)))) (stDone_refuses ..)

/-! ### CLOSE -/

/-- A stream that a bound image uses: BOUND, or HELD from BOUND (10 R313). -/
abbrev StreamRec.InUse (r : StreamRec) : Prop := r.state = .bound ∨ (r.state = .held ∧ r.heldFrom = .bound)

theorem closeStream_strmAt {m : Machine} {n : Nat} (h : (m.strmAt n).state ≠ .closed) (k : Nat) : (m.closeStream n).strmAt k =
    if k = n then { m.strmAt n with state := .closing, closedAt := m.time.now } else m.strmAt k := by
  rw [Machine.closeStream, modStrm_strmAt, if_neg h]

theorem streamClose_refuses (h : s.m.stPending c 2 = true) (hbad : s.m.strmCheck c (s.m.opStrm c) ≠ 0) :
    Completes (.streamClose c) s fun m => s.m.strmRefused m c (s.m.strmCheck c (s.m.opStrm c)) :=
  .of_done (congrArg (done s) ((if_pos h).trans (if_pos hbad))) (stDone_refuses ..)

theorem streamClose_badState (h : s.m.stPending c 2 = true) (hok : s.m.strmCheck c (s.m.opStrm c) = 0)
    (hstate : (s.m.opRec c).state = .closed ∨ (s.m.opRec c).state = .closing) :
    Completes (.streamClose c) s fun m => s.m.strmRefused m c 5 :=
  .of_done (congrArg (done s) ((if_pos h).trans ((if_neg (not_not_intro hok)).trans (if_pos hstate)))) (stDone_refuses ..)

/-- The STREAM violation that a CLOSE of a stream in use is (09 Table 9.12). -/
def StreamRec.violation (r : StreamRec) : Viol := { reason := 8, ch := r.channel, tile := none }

/-- The stream's fence starts, and where the stream is in use its image has violated its contract (10 R313). -/
def Machine.closed (m : Machine) (c n : Nat) : Machine :=
  (if (m.strmAt n).InUse then m.detect c (m.strmAt n).violation else m).closeStream n

theorem violated_keeps (m : Machine) (c n : Nat) : Kept [.ctx] m (if (m.strmAt n).InUse then m.detect c (m.strmAt n).violation else m) :=
  .ite (detect_kept .refl c _ (by decide)) .refl

theorem closed_strmAt {m : Machine} {n : Nat} (h : (m.strmAt n).state ≠ .closed) (c k : Nat) : (m.closed c n).strmAt k =
    if k = n then { m.strmAt n with state := .closing, closedAt := m.time.now } else m.strmAt k := by
  have hkept := violated_keeps m c n
  rw [Machine.closed, closeStream_strmAt (by rwa [hkept.strmAt (by decide)]), hkept.strmAt (by decide), hkept.strmAt (by decide),
    hkept.time (by decide)]

theorem closed_st (m : Machine) (c n : Nat) : ((m.closed c n).ctxAt c).st = (m.ctxAt c).st := by
  have hclosed (a : Machine) : Kept [.strm] a (a.closeStream n) := closeStream_kept .refl n (by decide)
  rw [Machine.closed, (hclosed _).ctxAt (by decide)]
  split
  · rw [Machine.detect, modXc_ctxAt, if_pos rfl]
  · rfl

theorem closed_detected {m : Machine} {c n : Nat} (huse : (m.strmAt n).InUse) (himage : (m.xc c).image.isSome = true)
    (hstate : (m.xc c).state ≠ .halted) (hsound : (m.xc c).detected = none) :
    ((m.closed c n).xc c).detected = some (m.strmAt n).violation := by
  have hclosed (a : Machine) : Kept [.strm] a (a.closeStream n) := closeStream_kept .refl n (by decide)
  rw [Machine.closed, (hclosed _).xc (by decide), if_pos huse, Machine.detect, modXc_xc_same, if_pos ⟨himage, hstate, by rw [hsound]; rfl⟩]

theorem streamClose_closes (h : s.m.stPending c 2 = true) (hok : s.m.strmCheck c (s.m.opStrm c) = 0)
    (hopen : (s.m.opRec c).state ≠ .closed) (hlive : (s.m.opRec c).state ≠ .closing) :
    exec (.streamClose c) s = done s ((s.m.closed c (s.m.opStrm c)).stDone c 0) :=
  congrArg (done s) ((if_pos h).trans ((if_neg (not_not_intro hok)).trans (if_neg (not_or_intro hopen hlive))))

/-! ### QUERY -/

/-- The words that a QUERY shows (10 Table 10.5). -/
def StreamRec.words (r : StreamRec) : List Word := (List.range 16).map fun i => BitVec.ofNat 32 (leAt r.bytes (4 * i) 4)

/-- The entry's words are in the result registers. -/
def Machine.queried (m : Machine) (c n : Nat) : Machine :=
  m.modCtx c fun r => { r with st := { r.st with res := tfill 0 r.st.res 0 (m.strmAt n).words } }

theorem tget_words (t : Table Word) (r : StreamRec) {i : Nat} (h : i < 16) :
    (tget 0 (tfill 0 t 0 r.words) i).toNat = leAt r.bytes (4 * i) 4 := by
  rw [tget_tfill, if_pos ⟨Nat.zero_le i, by simpa [StreamRec.words] using h⟩, StreamRec.words, List.getD_eq_getElem?_getD, List.getElem?_map,
    Nat.sub_zero, List.getElem?_range h]
  exact Nat.mod_eq_of_lt (leAt_lt r.bytes (4 * i) 4)

theorem streamQuery_shows (h : s.m.stPending c 3 = true) (hok : s.m.strmCheck c (s.m.opStrm c) = 0) :
    Completes (.streamQuery c) s fun m => m.strm = s.m.strm ∧ (m.ctxAt c).st = ({ (s.m.ctxAt c).st with
      res := tfill 0 (s.m.ctxAt c).st.res 0 (s.m.opRec c).words }).answered 0 := by
  refine .of_done (m := (s.m.queried c (s.m.opStrm c)).stDone c 0)
    (congrArg (done s) ((if_pos h).trans (if_neg (not_not_intro hok)))) ⟨(stDone_keeps ..).strm (by decide), ?_⟩
  rw [stDone_ctxAt, Machine.queried, modCtx_ctxAt, if_pos rfl]

theorem streamQuery_refuses (h : s.m.stPending c 3 = true) (hbad : s.m.strmCheck c (s.m.opStrm c) ≠ 0) :
    Completes (.streamQuery c) s fun m => s.m.strmRefused m c (s.m.strmCheck c (s.m.opStrm c)) :=
  .of_done (congrArg (done s) ((if_pos h).trans (if_pos hbad))) (stDone_refuses ..)

/-! ### HEAD -/

/-- How far a ring index lies beyond the head (10 R317). -/
def StreamRec.beyond (r : StreamRec) (i : Nat) : Nat := (i + 8192 - r.ringHead) % 8192

/-- The ring index that a HEAD gives. -/
def Machine.newHead (m : Machine) (c : Nat) : Nat := bits (tget 0 (m.ctxAt c).st.args 0) 0 13

/-- HEAD in its turn, once the first checks pass. -/
theorem streamHead_eq (h : s.m.stPending c 4 = true) (hok : s.m.strmCheck c (s.m.opStrm c) = 0) : exec (.streamHead c) s =
    done s (if (s.m.opRec c).kind ≠ kindMsg ∨ (s.m.opRec c).state ≠ .open_ then s.m.stDone c 5
      else if (s.m.opRec c).beyond (s.m.opRec c).ringTail <
          (s.m.opRec c).beyond (s.m.newHead c) then s.m.stDone c 3
      else (s.m.modStrm (s.m.opStrm c) fun r => { r with ringHead := s.m.newHead c }).stDone c 0) :=
  congrArg (done s) ((if_pos h).trans (if_neg (not_not_intro hok)))

theorem streamHead_badState (h : s.m.stPending c 4 = true) (hok : s.m.strmCheck c (s.m.opStrm c) = 0)
    (hbad : (s.m.opRec c).kind ≠ kindMsg ∨ (s.m.opRec c).state ≠ .open_) :
    Completes (.streamHead c) s fun m => s.m.strmRefused m c 5 :=
  .of_done ((streamHead_eq h hok).trans (congrArg (done s) (if_pos hbad))) (stDone_refuses ..)

section
variable {r : StreamRec} (hr : s.m.opRec c = r) (hkind : r.kind = kindMsg) (hstate : r.state = .open_)
include hr hkind hstate

theorem streamHead_badArg (h : s.m.stPending c 4 = true) (hok : s.m.strmCheck c (s.m.opStrm c) = 0)
    (hout : r.beyond r.ringTail < r.beyond (s.m.newHead c)) : Completes (.streamHead c) s fun m => s.m.strmRefused m c 3 := by
  subst hr
  exact .of_done ((streamHead_eq h hok).trans (congrArg (done s) ((if_neg (by simp [hkind, hstate])).trans (if_pos hout)))) (stDone_refuses ..)

theorem streamHead_moves (h : s.m.stPending c 4 = true) (hok : s.m.strmCheck c (s.m.opStrm c) = 0)
    (hin : r.beyond (s.m.newHead c) ≤ r.beyond r.ringTail) : Completes (.streamHead c) s fun m =>
      (∀ k, m.strmAt k = if k = s.m.opStrm c then { r with ringHead := s.m.newHead c } else s.m.strmAt k) ∧
      (m.ctxAt c).st = (s.m.ctxAt c).st.answered 0 := by
  subst hr
  refine .of_done ((streamHead_eq h hok).trans (congrArg (done s) ((if_neg (by simp [hkind, hstate])).trans (if_neg (Nat.not_lt_of_le hin)))))
    ⟨fun k => ?_, ?_⟩
  · rw [stDone_strmAt, modStrm_strmAt]
  · rw [stDone_ctxAt]
    rfl

end

end

/-- Settles O38: each operation is its one equation in its turn, and `stDone` answers it without touching the stream table. -/
theorem streamOperationsOfAContext : Obligations.StreamOperationsOfAContext := by
  unfold Obligations.StreamOperationsOfAContext
  refine ⟨?opens, ?close, ?query, ?head, ?nothing⟩
  case opens =>
    refine fun c s h => ⟨fun hok => (streamOpen_opens h hok).imp fun m ⟨hstrm, hst⟩ => ⟨?_, fun n hn => (hstrm n).trans (if_neg hn), hst⟩,
      fun hbad => streamOpen_refuses h hbad⟩
    rw [hstrm, if_pos rfl]
    refine ⟨rfl, rfl, rfl, Nat.mod_eq_of_lt (bits_lt _ 16 16), rfl, fun hmsg => ⟨if_pos hmsg, if_pos hmsg, if_pos hmsg⟩, rfl, rfl, rfl⟩
  case close =>
    refine fun c s h => ⟨fun hok hopen hlive => .of_done (streamClose_closes h hok hopen hlive) ?_, fun hbad => streamClose_refuses h hbad,
      fun hok hstate => streamClose_badState h hok hstate⟩
    have hclosed (k : Nat) := (stDone_strmAt (s.m.closed c (s.m.opStrm c)) c 0 k).trans (closed_strmAt hopen c k)
    have hself := (hclosed _).trans (if_pos rfl)
    refine ⟨congrArg StreamRec.state hself, congrArg StreamRec.closedAt hself, fun n hn => (hclosed n).trans (if_neg hn), ?_, ?_⟩
    · rw [stDone_ctxAt, closed_st]
      rfl
    · intro huse himage hstate hsound
      rw [Machine.xc, stDone_ctxAt]
      exact closed_detected huse himage hstate hsound
  case query =>
    refine fun c s h => ⟨fun hok => (streamQuery_shows h hok).imp fun m ⟨hstrm, hst⟩ => ?_, fun hbad => streamQuery_refuses h hbad⟩
    rw [hst]
    exact ⟨fun i hi => tget_words _ _ hi, rfl, rfl, rfl, hstrm⟩
  case head =>
    rintro c _ r s h rfl hr hok
    refine ⟨fun hkind hstate hin => ?_, fun hkind hstate hout => streamHead_badArg hr hkind hstate h hok hout, fun hbad => ?_⟩
    · refine (streamHead_moves hr hkind hstate h hok hin).imp fun m ⟨hstrm, hst⟩ => ?_
      exact ⟨(hstrm _).trans (if_pos rfl), fun n hn => (hstrm n).trans (if_neg hn), hst⟩
    · subst hr
      exact streamHead_badState h hok hbad
  case nothing => exact fun c s h => streamOperations_ignored h

end Sys2Proof.Machine

/-! ## Pages: GRANT, RETURN and its scrub, lines in error (10 R297, R298, R301-R303; 15 R447) -/

namespace Sys2Proof.Machine

/-! ### Reads of pages and of HBM after the shared operations -/

section
variable {W : List Area} {m a : Machine}

theorem Kept.pageAt (h : Kept W m a) (hw : Area.hbm ∉ W) (p : Nat) : a.pageAt p = m.pageAt p :=
  congrArg (fun x : Hbm => tget PageRec.reset x.pages p) (h.hbm hw)

end

theorem mem_range_iff {p : PageCmd} {x : Nat} : x ∈ p.range ↔ p.first ≤ x ∧ x < p.first + p.count := by
  simp only [PageCmd.range, List.mem_map, List.mem_range]
  constructor
  · rintro ⟨i, hi, rfl⟩
    omega
  · exact fun ⟨hlow, hhigh⟩ => ⟨x - p.first, by omega, by omega⟩

theorem page_of_byte (x : Nat) {i : Nat} (h : i < pageBytes) : (x * pageBytes + i) / pageBytes = x := by
  rw [Nat.mul_comm, Nat.mul_add_div (by decide), Nat.div_eq_of_lt h, Nat.add_zero]

section
variable (m : Machine)

theorem setPages_pageAt (p : PageCmd) (r : PageRec) (x : Nat) :
    (m.setPages p.first p.count r).pageAt x = if x ∈ p.range then r else m.pageAt x := by
  refine (tget_tfill ..).trans ?_
  rw [List.length_replicate]
  refine (ite_congr (propext mem_range_iff.symm) (fun hx => ?_) fun _ => rfl)
  obtain ⟨hlow, hhigh⟩ := mem_range_iff.mp hx
  rw [List.getD_eq_getElem?_getD, List.getElem?_replicate, if_pos (by omega), Option.getD_some]

theorem setPage_pageAt (p : Nat) (r : PageRec) (x : Nat) : (m.setPage p r).pageAt x = if x = p then r else m.pageAt x :=
  tget_tset _ _ _ _ _

/-- A byte of HBM. -/
def Machine.hbmByte (m : Machine) (a : Nat) : Byte := tget Config.blank m.hbm.bytes a

theorem hbmZero_hbmByte (a n x : Nat) : (m.hbmZero a n).hbmByte x = if a ≤ x ∧ x < a + n then Config.blank else m.hbmByte x :=
  tget_tclear _ _ _ _ _

/-- A page as its scrub leaves it (10 R301, R302). -/
def PageRec.freed (r : PageRec) : PageRec := if r.use = .retired then r else .reset

theorem freed_freed (r : PageRec) : r.freed.freed = r.freed := by
  unfold PageRec.freed
  split <;> rfl

/-- One page of `freePages`. -/
def Machine.freePage (m : Machine) (p : Nat) : Machine :=
  if (m.pageAt p).use = .retired then m.hbmZero (p * pageBytes) pageBytes else (m.hbmZero (p * pageBytes) pageBytes).setPage p .reset

theorem freePage_pageAt (p x : Nat) : (m.freePage p).pageAt x = if x = p then (m.pageAt x).freed else m.pageAt x := by
  unfold Machine.freePage PageRec.freed
  by_cases hx : x = p
  · subst hx
    split
    next h => rw [if_pos rfl]; rfl
    next h => rw [if_pos rfl, setPage_pageAt, if_pos rfl]
  · rw [if_neg hx]
    split
    · rfl
    · rw [setPage_pageAt, if_neg hx]
      rfl

theorem freePage_hbmByte (p x : Nat) : (m.freePage p).hbmByte x = if x / pageBytes = p then Config.blank else m.hbmByte x := by
  have hbytes : (m.freePage p).hbmByte x = (m.hbmZero (p * pageBytes) pageBytes).hbmByte x := by
    unfold Machine.freePage
    split <;> rfl
  rw [hbytes, hbmZero_hbmByte]
  refine if_congr ?_ rfl rfl
  rw [Nat.div_eq_iff (by decide)]
  unfold pageBytes
  omega

theorem freePages_pageAt (l : List Nat) (x : Nat) : (m.freePages l).pageAt x = if x ∈ l then (m.pageAt x).freed else m.pageAt x := by
  induction l generalizing m with
  | nil => rfl
  | cons p l ih =>
    refine (ih (m.freePage p)).trans ?_
    rw [freePage_pageAt]
    by_cases hx : x = p
    · subst hx
      simp [freed_freed]
    · simp [hx]

theorem freePages_hbmByte (l : List Nat) (x : Nat) :
    (m.freePages l).hbmByte x = if x / pageBytes ∈ l then Config.blank else m.hbmByte x := by
  induction l generalizing m with
  | nil => rfl
  | cons p l ih =>
    refine (ih (m.freePage p)).trans ?_
    rw [freePage_hbmByte]
    by_cases hx : x / pageBytes = p
    · simp [hx]
    · simp [hx]

/-! ### A page operation is answered (10 R302) -/

/-- The page operation registers once the operation is answered. -/
def PageCmd.answered (p : PageCmd) (status : Nat) : PageCmd := { p with status := status, done := true, busy := false, begun := false }

theorem pageDone_keeps (status : Nat) : Kept [.part, .msix, .out] m (m.pageDone status) := by apply pageDone_kept .refl <;> decide

theorem pageDone_part (status : Nat) : (m.pageDone status).part = { m.part with page := m.part.page.answered status } :=
  Kept.part (W := [.msix, .out]) (interrupt_kept .refl 0 3 (by decide) (by decide)) (by decide)

theorem pageDone_refuses (status : Nat) : m.pageRefused (m.pageDone status) status :=
  ⟨congrArg Part.page (pageDone_part m status), (pageDone_keeps m status).hbm (by decide)⟩

end

/-! ### GRANT, RETURN and its scrub -/

section
variable {s : State}

theorem pageOperations_ignored (h : ∀ k, s.m.pagePending k = false) :
    Ignored .pageGrant s ∧ Ignored .pageReturn s ∧ Ignored .pageScrubComplete s := by
  refine ⟨.of_done rfl (if_neg ?_), .of_done rfl (if_neg ?_), .of_done rfl (if_neg ?_)⟩ <;> simp [h]

/-- GRANT in its turn: the first check that fails is answered, or the range is the context's (10 Table 10.3). -/
theorem pageGrant_eq (h : s.m.pagePending 1 = true) : exec .pageGrant s =
    done s (if s.m.pageCheck s.m.part.page ≠ 0 then s.m.pageDone (s.m.pageCheck s.m.part.page)
      else if s.m.part.page.range.any fun x => (s.m.pageAt x).use != .free then s.m.pageDone 5
      else (s.m.setPages s.m.part.page.first s.m.part.page.count { use := .owned, ctx := s.m.part.page.ctx }).pageDone 0) :=
  congrArg (done s) (if_pos h)

theorem pageGrant_grants (h : s.m.pagePending 1 = true) (hok : s.m.pageCheck s.m.part.page = 0)
    (hfree : ∀ x ∈ s.m.part.page.range, (s.m.pageAt x).use = .free) : Completes .pageGrant s fun m =>
      (∀ x, m.pageAt x = if x ∈ s.m.part.page.range then { use := .owned, ctx := s.m.part.page.ctx } else s.m.pageAt x) ∧
      m.hbm.bytes = s.m.hbm.bytes ∧ m.part.page = s.m.part.page.answered 0 := by
  refine .of_done ((pageGrant_eq h).trans (congrArg (done s) ((if_neg (not_not_intro hok)).trans (if_neg ?free)))) ⟨fun x => ?_, ?_, ?_⟩
  case free => simpa using hfree
  · rw [(pageDone_keeps ..).pageAt (by decide), setPages_pageAt]
  · rw [(pageDone_keeps ..).hbm (by decide)]
    rfl
  · rw [pageDone_part]
    rfl

theorem pageGrant_refuses (h : s.m.pagePending 1 = true) (hbad : s.m.pageCheck s.m.part.page ≠ 0) :
    Completes .pageGrant s fun m => s.m.pageRefused m (s.m.pageCheck s.m.part.page) :=
  .of_done ((pageGrant_eq h).trans (congrArg (done s) (if_pos hbad))) (pageDone_refuses ..)

theorem pageGrant_notFree (h : s.m.pagePending 1 = true) (hok : s.m.pageCheck s.m.part.page = 0)
    (hused : ∃ x ∈ s.m.part.page.range, (s.m.pageAt x).use ≠ .free) : Completes .pageGrant s fun m => s.m.pageRefused m 5 :=
  .of_done ((pageGrant_eq h).trans (congrArg (done s) ((if_neg (not_not_intro hok)).trans (if_pos (by simpa using hused)))))
    (pageDone_refuses ..)

section
variable (h : s.m.pagePending 2 = true) (hbegun : s.m.part.page.begun = false)
include h hbegun

/-- RETURN in its turn: the first check that fails is answered, or the range's scrub begins (10 Table 10.3). -/
theorem pageReturn_eq : exec .pageReturn s =
    done s (if s.m.pageCheck s.m.part.page ≠ 0 then s.m.pageDone (s.m.pageCheck s.m.part.page)
      else if s.m.part.page.range.any fun x => !(s.m.owns s.m.part.page.ctx x) then s.m.pageDone 6
      else if s.m.part.page.range.any fun x => s.m.pinned s.m.part.page.ctx x then s.m.pageDone 7
      else (s.m.setPages s.m.part.page.first s.m.part.page.count { use := .scrubbing, ctx := s.m.part.page.ctx }).modPage
        fun p => { p with begun := true }) :=
  congrArg (done s) (if_pos (by simp [h, hbegun]))

theorem pageReturn_refuses (hbad : s.m.pageCheck s.m.part.page ≠ 0) :
    Completes .pageReturn s fun m => s.m.pageRefused m (s.m.pageCheck s.m.part.page) :=
  .of_done ((pageReturn_eq h hbegun).trans (congrArg (done s) (if_pos hbad))) (pageDone_refuses ..)

variable (hok : s.m.pageCheck s.m.part.page = 0)
include hok

theorem pageReturn_notOwned (hother : ∃ x ∈ s.m.part.page.range, s.m.owns s.m.part.page.ctx x = false) :
    Completes .pageReturn s fun m => s.m.pageRefused m 6 :=
  .of_done ((pageReturn_eq h hbegun).trans (congrArg (done s) ((if_neg (not_not_intro hok)).trans (if_pos (by simpa using hother)))))
    (pageDone_refuses ..)

variable (howned : ∀ x ∈ s.m.part.page.range, s.m.owns s.m.part.page.ctx x = true)
include howned

theorem pageReturn_owned : exec .pageReturn s =
    done s (if s.m.part.page.range.any fun x => s.m.pinned s.m.part.page.ctx x then s.m.pageDone 7
      else (s.m.setPages s.m.part.page.first s.m.part.page.count { use := .scrubbing, ctx := s.m.part.page.ctx }).modPage
        fun p => { p with begun := true }) :=
  (pageReturn_eq h hbegun).trans (congrArg (done s) ((if_neg (not_not_intro hok)).trans (if_neg (by simpa using howned))))

theorem pageReturn_pinned (hpinned : ∃ x ∈ s.m.part.page.range, s.m.pinned s.m.part.page.ctx x = true) :
    Completes .pageReturn s fun m => s.m.pageRefused m 7 :=
  .of_done ((pageReturn_owned h hbegun hok howned).trans (congrArg (done s) (if_pos (List.any_eq_true.mpr hpinned)))) (pageDone_refuses ..)

theorem pageReturn_begins (hloose : ∀ x ∈ s.m.part.page.range, s.m.pinned s.m.part.page.ctx x = false) : Completes .pageReturn s fun m =>
    (∀ x, m.pageAt x = if x ∈ s.m.part.page.range then { use := .scrubbing, ctx := s.m.part.page.ctx } else s.m.pageAt x) ∧
    m.hbm.bytes = s.m.hbm.bytes ∧ m.part = { s.m.part with page := { s.m.part.page with begun := true } } :=
  .of_done ((pageReturn_owned h hbegun hok howned).trans (congrArg (done s) (if_neg (by simpa using hloose))))
    ⟨setPages_pageAt s.m s.m.part.page _, rfl, rfl⟩

end

theorem pageScrubComplete_frees (h : s.m.pagePending 2 = true) (hbegun : s.m.part.page.begun = true) :
    Completes .pageScrubComplete s fun m =>
      (∀ x, m.pageAt x = if x ∈ s.m.part.page.range then (s.m.pageAt x).freed else s.m.pageAt x) ∧
      (∀ a, m.hbmByte a = if a / pageBytes ∈ s.m.part.page.range then Config.blank else s.m.hbmByte a) ∧
      m.part.page = s.m.part.page.answered 0 := by
  have hfreed : Kept [.hbm] s.m (s.m.freePages s.m.part.page.range) := freePages_kept .refl _ (by decide)
  refine .of_done (m := (s.m.freePages s.m.part.page.range).pageDone 0) (congrArg (done s) (if_pos (by simp [h, hbegun])))
    ⟨fun x => ?_, fun a => ?_, ?_⟩
  · rw [(pageDone_keeps ..).pageAt (by decide), freePages_pageAt]
  · rw [Machine.hbmByte, (pageDone_keeps ..).hbm (by decide)]
    exact freePages_hbmByte s.m _ a
  · rw [pageDone_part, hfreed.part (by decide)]

end

/-! ### Lines in error (10 R297; 15 R447, R448) -/

section
variable (m : Machine)

theorem raiseAs_keeps (src cls unit : Nat) (ctx : Option Nat) : Kept [.ttl] m (m.raiseAs src cls unit ctx) := raiseAs_kept .refl _ _ _ _ (by decide)

/-- Counting an uncorrectable page of a stack changes that stack's entry alone. -/
theorem pchCount_hbm (stack pch page unit : Nat) : ∃ t, (m.pchCount stack pch page unit).hbm = { m.hbm with stackTbl := t } := by
  unfold Machine.pchCount
  dsimp only
  split
  · exact ⟨_, (raise_keeps _ _ _).hbm (by decide)⟩
  · exact ⟨_, rfl⟩

theorem lost_lost (t : TileRec) (now : DWord) (retire : Bool) : (t.lost now retire).lost now retire = t.lost now retire := by
  simp [TileRec.lost]

theorem loseTile_keeps (l : Nat) (retire : Bool) : Kept [.tiles, .ctx] m (m.loseTile l retire) :=
  loseTile_kept .refl l retire (by decide) (by decide)

theorem foldl_loseTile_tileAt (ls : List Nat) (retire : Bool) (k : Nat) : (ls.foldl (fun m l => m.loseTile l retire) m).tileAt k =
    if k ∈ ls then (m.tileAt k).lost m.time.now retire else m.tileAt k := by
  induction ls generalizing m with
  | nil => rfl
  | cons l ls ih =>
    rw [List.foldl_cons, ih, loseTile_tileAt, (loseTile_keeps m l retire).time (by decide)]
    by_cases hk : k = l
    · subst hk
      simp [lost_lost]
    · simp [hk]

theorem foldl_loseTile_keeps (ls : List Nat) (retire : Bool) : Kept [.tiles, .ctx] m (ls.foldl (fun m l => m.loseTile l retire) m) :=
  Kept.foldl .refl fun _ l h => h.trans (loseTile_keeps _ l retire)

/-- The event of an uncorrectable line: of the system region, of the page's owner, or of its partition (10 R297). -/
def Machine.uncorrRaised (m : Machine) (a : Nat) : Machine :=
  let p := a / pageBytes
  let st := m.stackOf p
  if m.systemPage ≤ p then m.raiseAs (srcHbm st 1) 3 st none
  else if (m.pageAt p).use = .owned then m.raiseAs (srcHbm st 1) 2 st (some (m.pageAt p).ctx)
  else m.raiseAs (srcHbm st 1) 2 (p / max 1 (m.partPagesPerStack * m.hbm.s)) none

theorem uncorrRaised_keeps (a : Nat) : Kept [.ttl] m (m.uncorrRaised a) :=
  .ite (raiseAs_keeps ..) (.ite (raiseAs_keeps ..) (raiseAs_keeps ..))

/-- The machine once an uncorrectable line is known: its event has landed, its page is RETIRED and its stack has counted it. -/
def Machine.lineRetired (m : Machine) (a : Nat) : Machine :=
  let p := a / pageBytes
  let x := (m.uncorrRaised a).setPage p { m.pageAt p with use := .retired }
  x.pchCount (m.stackOf p) (pchOf a) p (p % max 1 x.hbm.s * 32 + pchOf a)

theorem uncorrectable_eq (a : Nat) :
    m.uncorrectable a = (m.readers a).foldl (fun m l => m.loseTile l false) (m.lineRetired a) := rfl

theorem lineRetired_keeps (a : Nat) : Kept [.hbm, .ttl] m (m.lineRetired a) :=
  pchCount_kept (setPage_kept ((uncorrRaised_keeps m a).mono (by decide)) _ _ (by decide)) _ _ _ _ (by decide) (by decide)

theorem lineRetired_hbm (a : Nat) : ∃ t, (m.lineRetired a).hbm = { m.hbm with
    pages := tset .reset m.hbm.pages (a / pageBytes) { m.pageAt (a / pageBytes) with use := .retired }, stackTbl := t } := by
  obtain ⟨t, ht⟩ := pchCount_hbm ((m.uncorrRaised a).setPage (a / pageBytes) { m.pageAt (a / pageBytes) with use := .retired })
    (m.stackOf (a / pageBytes)) (pchOf a) (a / pageBytes) _
  refine ⟨t, ht.trans ?_⟩
  rw [Machine.setPage, (uncorrRaised_keeps m a).hbm (by decide)]

theorem uncorrectable_hbm (a : Nat) : (m.uncorrectable a).hbm = (m.lineRetired a).hbm :=
  (foldl_loseTile_keeps _ _ false).hbm (by decide)

theorem uncorrectable_pageAt (a x : Nat) : (m.uncorrectable a).pageAt x =
    if x = a / pageBytes then { m.pageAt (a / pageBytes) with use := .retired } else m.pageAt x := by
  obtain ⟨t, ht⟩ := lineRetired_hbm m a
  rw [Machine.pageAt, uncorrectable_hbm, ht]
  exact setPage_pageAt m (a / pageBytes) _ x

theorem uncorrectable_bytes (a : Nat) : (m.uncorrectable a).hbm.bytes = m.hbm.bytes := by
  obtain ⟨t, ht⟩ := lineRetired_hbm m a
  rw [uncorrectable_hbm, ht]

theorem uncorrectable_tileAt (a k : Nat) : (m.uncorrectable a).tileAt k =
    if k ∈ m.readers a then (m.tileAt k).lost m.time.now false else m.tileAt k := by
  have hkept := lineRetired_keeps m a
  rw [uncorrectable_eq, foldl_loseTile_tileAt, hkept.tileAt (by decide), hkept.time (by decide)]

/-- A stack with one more corrected sector. -/
def HbmStack.correctedOnce (r : HbmStack) : HbmStack := { r with corr := satAdd32 r.corr 1 }

theorem corrected_keeps (a : Nat) : Kept [.hbm, .ttl] m (m.corrected a) := corrected_kept .refl a (by decide) (by decide)

theorem corrected_hbm (a : Nat) : (m.corrected a).hbm = { m.hbm with
    stackTbl := tset .reset m.hbm.stackTbl (m.stackOf (a / pageBytes))
      (tget HbmStack.reset m.hbm.stackTbl (m.stackOf (a / pageBytes))).correctedOnce } :=
  (raise_keeps _ _ _).hbm (by decide)

end

section
variable {a : BitVec 48} {s : State}

theorem hbmUncorrectable_of_mapped (h : a.toNat / pageBytes < s.m.totalPages) (corrected : Bool) :
    exec (.hbmUncorrectable a corrected) s = done s (if corrected then s.m.corrected a.toNat else s.m.uncorrectable a.toNat) :=
  if_neg (Nat.not_le_of_lt h)

end

/-- Settles O37: each page operation is its one equation in its turn; the scrub frees its pages one by one, and an uncorrectable line
retires its page before the tiles that read it are lost one by one. -/
theorem pagesAreGrantedReturnedAndRetired : Obligations.PagesAreGrantedReturnedAndRetired := by
  unfold Obligations.PagesAreGrantedReturnedAndRetired
  refine ⟨?grants, ?grantRefused, ?returns, ?scrubs, ?nothing, ?uncorrectable, ?corrected, ?beyond⟩
  case grants => exact fun s h hok hfree => pageGrant_grants h hok hfree
  case grantRefused => exact fun s h => ⟨fun hbad => pageGrant_refuses h hbad, fun hok hused => pageGrant_notFree h hok hused⟩
  case returns =>
    exact fun s h hbegun => ⟨fun hbad => pageReturn_refuses h hbegun hbad, fun hok hother => pageReturn_notOwned h hbegun hok hother,
      fun hok howned hpinned => pageReturn_pinned h hbegun hok howned hpinned,
      fun hok howned hloose => pageReturn_begins h hbegun hok howned hloose⟩
  case scrubs =>
    refine fun s h hbegun => (pageScrubComplete_frees h hbegun).imp fun m ⟨hpage, hbyte, hop⟩ => ⟨fun x hx => ?_, fun x hx => ?_, hop⟩
    · exact ⟨(hpage x).trans (if_pos hx), fun i hi => (hbyte _).trans (if_pos (by rwa [page_of_byte x hi]))⟩
    · exact ⟨(hpage x).trans (if_neg hx), fun i hi => (hbyte _).trans (if_neg (by rwa [page_of_byte x hi]))⟩
  case nothing => exact fun s h => pageOperations_ignored h
  case uncorrectable =>
    refine fun a s h => .of_done (hbmUncorrectable_of_mapped h false) ⟨?_, fun x hx => ?_, uncorrectable_bytes .., fun l hl => ?_, fun l hl => ?_⟩
    · exact (uncorrectable_pageAt ..).trans (if_pos rfl)
    · exact (uncorrectable_pageAt ..).trans (if_neg hx)
    · have hlost := (uncorrectable_tileAt s.m a.toNat l).trans (if_pos hl)
      exact ⟨congrArg TileRec.portClosed hlost, congrArg TileRec.resetAt hlost, congrArg TileRec.lines hlost⟩
    · exact (uncorrectable_tileAt ..).trans (if_neg hl)
  case corrected =>
    refine fun a s h => .of_done (m := s.m.corrected a.toNat) (hbmUncorrectable_of_mapped h true) ⟨?_, ?_, ?_, ?_⟩
    · rw [corrected_hbm, tget_tset_same]
      rfl
    · rw [corrected_hbm]
    · rw [corrected_hbm]
    · exact (corrected_keeps ..).tiles (by decide)
  case beyond => exact fun a b s h => hbmUncorrectable_faults b h

end Sys2Proof.Machine

/-! ## Host links and windows (11 R319-R332, R344) -/

namespace Sys2Proof.Machine

section
variable {W : List Area} {m a : Machine}

theorem Kept.hlink (h : Kept W m a) (hw : Area.hst ∉ W) (n : Nat) : a.hlink n = m.hlink n :=
  congrArg (fun x : Hst => tget HstLink.reset x.links n) (h.hst hw)

theorem Kept.queue (h : Kept W m a) (hw : Area.ctx ∉ W) (c q : Nat) : a.queue c q = m.queue c q :=
  congrArg (fun r : CtxRec => tget CeQueue.reset r.ce.queues q) (h.ctxAt hw c)

theorem Kept.fenced (h : Kept W m a) (hw : Area.ctx ∉ W) (c : Nat) : a.fenced c = m.fenced c :=
  congrArg (fun r : CtxRec => r.base.life == .ending || r.rst.inReset) (h.ctxAt hw c)

end

/-- A fold reaches `Q` at an element `x` of its list, if what holds up to then, `P`, outlives the other elements and `Q` outlives all. -/
theorem foldl_reaches {α β : Type} {f : α → β → α} {P Q : α → Prop} {x : β} {l : List β} (hx : x ∈ l)
    (hbefore : ∀ a e, e ∈ l → e ≠ x → P a → P (f a e)) (hat : ∀ a, P a → Q (f a x)) (hafter : ∀ a e, e ∈ l → Q a → Q (f a e)) {a : α}
    (ha : P a) : Q (l.foldl f a) := by
  induction l generalizing a with
  | nil => cases hx
  | cons e l ih =>
    have hlater : ∀ b, Q b → Q (l.foldl f b) := fun b hb =>
      List.foldlRecOn l f (motive := Q) hb fun b hb e he => hafter b e (List.mem_cons_of_mem _ he) hb
    by_cases he : e = x
    · exact hlater _ (he ▸ hat a ha)
    · refine ih (List.mem_of_ne_of_mem (Ne.symm he) hx) (fun b e he => hbefore b e (List.mem_cons_of_mem _ he))
        (fun b e he => hafter b e (List.mem_cons_of_mem _ he)) (hbefore a e List.mem_cons_self he ha)

/-! ### Training (R319-R321) -/

section
variable (m : Machine)

theorem modHlink_hlink (n : Nat) (f : HstLink → HstLink) (k : Nat) :
    (m.modHlink n f).hlink k = if k = n then f (m.hlink n) else m.hlink k :=
  ((interrupt_kept (W := [.msix, .out]) .refl 0 4 (by decide) (by decide)).hlink (by decide) k).trans (tget_tset _ _ _ _ _)

/-- The host's answer to the offer of CXL, where it is made at 32 GT/s or more (R320). -/
def Machine.cxlTaken (n : Nat) (t : HostTrain) : Option Bool := if m.offersCxl n ∧ 2 ≤ t.rate then t.cxl else none

/-- The rate of a link that trains. -/
def Machine.rateTaken (n : Nat) (t : HostTrain) : Nat := if (m.cxlTaken n t).isSome then 2 else min t.rate (m.rateLimit n)

/-- A link after it has trained (R320, R321). -/
def Machine.trained (n : Nat) (t : HostTrain) : HstLink :=
  { m.hlink n with
    up := true, rate := m.rateTaken n t, flit := (m.cxlTaken n t).isSome || m.rateTaken n t == 3, width := t.width, bigTags := t.tags
    proto := match m.cxlTaken n t with
      | some true => 2
      | some false => 1
      | none => 0
    degraded := decide (t.width < 16) || decide (m.rateTaken n t < m.rateLimit n) ||
      (n == 0 && (m.rig 0x09).testBit 1 && (m.cxlTaken n t).isNone) }

/-- Whether an interface trains: it is active and down, and the host offers a rate and a width of the tables (R319, R321). -/
def Machine.trains (n : Nat) (t : HostTrain) : Bool :=
  t.up && m.hlinkActive n && !(m.hlink n).up && decide (1 ≤ t.rate) && [1, 2, 4, 8, 16].contains t.width

end

section
variable {n : IoDie} {t : HostTrain} {s : State}

theorem hostLinkTrain_eq : exec (.hostLinkTrain n t) s = done s (if s.m.trains n t then
    if (s.m.trained n t).degraded then (s.m.modHlink n fun _ => s.m.trained n t).raise (srcHst n 1) n
    else s.m.modHlink n fun _ => s.m.trained n t
  else s.m) := rfl

theorem hostLinkTrain_trains (h : s.m.trains n t = true) : Completes (.hostLinkTrain n t) s fun m =>
    m.hlink n = s.m.trained n t ∧ ∀ k, k ≠ n.val → m.hlink k = s.m.hlink k := by
  refine .of_done (hostLinkTrain_eq.trans (congrArg _ (if_pos h))) ?_
  have hkept : Kept [.ttl] (s.m.modHlink n fun _ => s.m.trained n t)
      (if (s.m.trained n t).degraded then (s.m.modHlink n fun _ => s.m.trained n t).raise (srcHst n 1) n
        else s.m.modHlink n fun _ => s.m.trained n t) :=
    .ite (raise_kept .refl _ _ (by decide)) .refl
  refine ⟨?_, fun k hk => ?_⟩
  · rw [hkept.hlink (by decide), modHlink_hlink, if_pos rfl]
  · rw [hkept.hlink (by decide), modHlink_hlink, if_neg hk]

theorem trains_iff : s.m.trains n t = true ↔
    t.up = true ∧ s.m.hlinkActive n = true ∧ (s.m.hlink n).up = false ∧ 1 ≤ t.rate ∧ t.width ∈ [1, 2, 4, 8, 16] := by
  simp only [Machine.trains, Bool.and_eq_true, Bool.not_eq_true', decide_eq_true_eq, List.contains_iff_mem, and_assoc]

theorem hostLinkTrain_ignored (h : s.m.trains n t = false) : Ignored (.hostLinkTrain n t) s :=
  .of_done hostLinkTrain_eq (if_neg (by simp [h]))

theorem cxlTaken_offered (hoffer : s.m.offersCxl n = true) (hrate : 2 ≤ t.rate) : s.m.cxlTaken n t = t.cxl := if_pos ⟨hoffer, hrate⟩

theorem cxlTaken_none (h : s.m.offersCxl n = false ∨ t.cxl = none ∨ t.rate < 2) : s.m.cxlTaken n t = none := by
  unfold Machine.cxlTaken
  split
  next hoffered =>
    obtain ⟨hoffer, hrate⟩ := hoffered
    rcases h with h | h | h
    · exact absurd hoffer (by simp [h])
    · exact h
    · omega
  next => rfl

theorem trained_cxl {b : Bool} (h : s.m.cxlTaken n t = some b) : s.m.trained n t =
    { s.m.hlink n with up := true, degraded := decide (t.width < 16) || decide (2 < s.m.rateLimit n), rate := 2, flit := true
                       proto := if b then 2 else 1, width := t.width, bigTags := t.tags } := by
  cases b <;> simp [Machine.trained, Machine.rateTaken, h]

theorem trained_pcie (h : s.m.cxlTaken n t = none) : s.m.trained n t =
    { s.m.hlink n with
      up := true, rate := min t.rate (s.m.rateLimit n), flit := min t.rate (s.m.rateLimit n) == 3, proto := 0, width := t.width, bigTags := t.tags
      degraded := decide (t.width < 16) || decide (min t.rate (s.m.rateLimit n) < s.m.rateLimit n) ||
        (n.val == 0 && (s.m.rig 0x09).testBit 1) } := by
  simp [Machine.trained, Machine.rateTaken, h]

end

/-! ### What the loss of H1 leaves of a queue (R344) -/

/-- A queue whose H1 writes no flush covers any more. -/
def CeQueue.h1Cleared (r : CeQueue) : CeQueue := { r with h1Last := none, cur := r.cur.map fun k => { k with h1Last := none } }

/-- A queue whose command has completed (12 R360-R362). -/
def CeQueue.finished (r : CeQueue) (k : CeCmd) : CeQueue :=
  { r with cur := none
           state := if !r.enable then .disabled else if ceHalts k.status then .halted else r.state
           haltStatus := if ceHalts k.status then k.status else r.haltStatus
           h0Last := if k.flushed then none else r.h0Last
           h1Last := if k.flushed then none else r.h1Last }

/-- A queue whose command ends with a status (12 R357). -/
def CeQueue.stopped (r : CeQueue) (st : Nat) : CeQueue := { r with cur := r.cur.map fun k => { k with status := st, failAt := none, sent := true } }

/-- Whether a command's flush covers writes on H1. -/
def CeQueue.coversH1 (r : CeQueue) (k : CeCmd) : Bool := k.opt 1 && (r.flushSet k).contains 1

/-- A queue that has met the loss of H1, its context fenced or not. -/
def CeQueue.h1Lost (r : CeQueue) (fenced : Bool) : CeQueue :=
  CeQueue.h1Cleared <| match r.cur with
    | none => r
    | some k =>
      if r.coversH1 k then
        if k.flushing then if fenced then r else r.finished { k with status := 3, flushing := false }
        else r.stopped 3
      else r

/-- The queue holds no write on H1 that a flush would cover. -/
structure CeQueue.H1Free (r : CeQueue) : Prop where
  last : r.h1Last = none
  cmd : ∀ k, r.cur = some k → k.h1Last = none

section
variable {r : CeQueue} {k : CeCmd}

theorem h1Cleared_h1Free (r : CeQueue) : r.h1Cleared.H1Free := by
  refine ⟨rfl, fun k hk => ?_⟩
  obtain ⟨k', -, rfl⟩ := Option.map_eq_some_iff.mp hk
  rfl

theorem CeQueue.H1Free.cleared (h : r.H1Free) : r.h1Cleared = r := by
  obtain ⟨hlast, hcmd⟩ := h
  have hcur : (r.cur.map fun k => { k with h1Last := none }) = r.cur := by
    cases hr : r.cur with
    | none => rfl
    | some k => rw [Option.map_some, ← hcmd k hr]
  rw [CeQueue.h1Cleared, hcur, ← hlast]

theorem CeQueue.H1Free.covers (h : r.H1Free) (hk : r.cur = some k) : r.coversH1 k = false := by
  have hset : (r.flushSet k).contains 1 = false := by
    simp only [CeQueue.flushSet, h.last, h.cmd k hk]
    split <;> split <;> simp
  rw [CeQueue.coversH1, hset, Bool.and_false]

/-- A queue without writes on H1 stays as it is, and so does one that has met the loss already. -/
theorem CeQueue.H1Free.lost (h : r.H1Free) (fenced : Bool) : r.h1Lost fenced = r := by
  unfold CeQueue.h1Lost
  split
  next => exact h.cleared
  next k hk => rw [h.covers hk]; exact h.cleared

theorem h1Lost_h1Free (r : CeQueue) (fenced : Bool) : (r.h1Lost fenced).H1Free := h1Cleared_h1Free _

theorem h1Lost_stops {fenced : Bool} (hk : r.cur = some k) (hcovers : r.coversH1 k = true) (hflush : k.flushing = false) :
    (r.h1Lost fenced).cur.map (fun k => (k.status, k.sent, k.h1Last)) = some (3, true, none) := by
  simp [CeQueue.h1Lost, hk, hcovers, hflush, CeQueue.stopped, CeQueue.h1Cleared]

theorem h1Lost_finishes (hk : r.cur = some k) (hcovers : r.coversH1 k = true) (hflush : k.flushing = true) :
    (r.h1Lost false).cur = none ∧ (r.h1Lost false).haltStatus = 3 := by
  simp [CeQueue.h1Lost, hk, hcovers, hflush, CeQueue.finished, CeQueue.h1Cleared, ceHalts]

theorem h1Lost_idle {fenced : Bool} (hk : r.cur = none) : r.h1Lost fenced = { r with h1Last := none } := by
  simp [CeQueue.h1Lost, hk, CeQueue.h1Cleared]

end

/-! ### The operations on queues -/

/-- The queues are the same, and the fences of the contexts. -/
structure SameQueues (m a : Machine) : Prop where
  queue : ∀ c q, a.queue c q = m.queue c q
  fenced : ∀ c, a.fenced c = m.fenced c

section
variable {m a b : Machine}

theorem SameQueues.refl : SameQueues m m := ⟨fun _ _ => rfl, fun _ => rfl⟩

theorem SameQueues.trans (h : SameQueues m a) (h' : SameQueues a b) : SameQueues m b :=
  ⟨fun c q => (h'.queue c q).trans (h.queue c q), fun c => (h'.fenced c).trans (h.fenced c)⟩

theorem SameQueues.of_kept {W : List Area} (h : Kept W m a) (hw : Area.ctx ∉ W) : SameQueues m a := ⟨h.queue hw, h.fenced hw⟩

/-- An operation that is done under a condition. -/
theorem SameQueues.thenIte {p : Prop} [Decidable p] (h : SameQueues m a) (h' : SameQueues a b) : SameQueues m (if p then b else a) := by
  split
  · exact h.trans h'
  · exact h

variable (m) (c q : Nat)

theorem hostWrite_sameQueues (x : Nat) (l : List Byte) : SameQueues m (m.hostWrite x l) := ⟨fun _ _ => rfl, fun _ => rfl⟩

theorem luffStep_sameQueues (n : Nat) : SameQueues m (m.luffStep n) := ⟨fun _ _ => rfl, fun _ => rfl⟩

theorem orphanTxns_sameQueues : SameQueues m (m.orphanTxns c q) := ⟨fun _ _ => rfl, fun _ => rfl⟩

theorem modCtx_sameQueues {f : CtxRec → CtxRec} (hqueues : ∀ r, (f r).ce.queues = r.ce.queues) (hbase : ∀ r, (f r).base = r.base)
    (hrst : ∀ r, (f r).rst = r.rst) : SameQueues m (m.modCtx c f) := by
  refine ⟨fun x k => ?_, fun x => ?_⟩
  · rw [Machine.queue, modCtx_ctxAt]
    split
    next h => rw [hqueues, h]; rfl
    next => rfl
  · rw [Machine.fenced, modCtx_ctxAt]
    split
    next h => rw [hbase, hrst, h]; rfl
    next => rfl

theorem ceRecordOut_sameQueues (rc : List Byte) : SameQueues m (m.ceRecordOut c rc) := by
  unfold Machine.ceRecordOut
  exact (hostWrite_sameQueues m _ _).trans (modCtx_sameQueues _ c (fun _ => rfl) (fun _ => rfl) (fun _ => rfl))

/-- One queue now holds `r`; every other one is the same, and so are the fences. -/
structure OnlyQueue (m a : Machine) (c q : Nat) (r : CeQueue) : Prop where
  queue : ∀ x k, a.queue x k = if x = c ∧ k = q then r else m.queue x k
  fenced : ∀ x, a.fenced x = m.fenced x

theorem modQueue_onlyQueue (f : CeQueue → CeQueue) : OnlyQueue m (m.modQueue c q f) c q (f (m.queue c q)) := by
  refine ⟨fun x k => ?_, fun x => ?_⟩
  · rw [Machine.queue, Machine.modQueue, modCtx_ctxAt]
    by_cases hx : x = c
    · subst hx
      simp only [true_and, if_true]
      exact tget_tset _ _ _ _ _
    · rw [if_neg hx, if_neg (fun h => hx h.1)]
      rfl
  · rw [Machine.fenced, Machine.modQueue, modCtx_ctxAt]
    split
    next h => exact h ▸ rfl
    next => rfl

variable {m c q} in
theorem OnlyQueue.modQueue {r : CeQueue} (h : OnlyQueue m a c q r) (f : CeQueue → CeQueue) : OnlyQueue m (a.modQueue c q f) c q (f r) := by
  obtain ⟨hqueue, hfence⟩ := modQueue_onlyQueue a c q f
  refine ⟨fun x k => ?_, fun x => (hfence x).trans (h.fenced x)⟩
  rw [hqueue]
  split
  · rw [h.queue, if_pos ⟨rfl, rfl⟩]
  next hne => rw [h.queue, if_neg hne]

variable {m c q} in
theorem SameQueues.then {r : CeQueue} (h : SameQueues m a) (h' : OnlyQueue a b c q r) : OnlyQueue m b c q r :=
  ⟨fun x k => (h'.queue x k).trans (by rw [h.queue]), fun x => (h'.fenced x).trans (h.fenced x)⟩

theorem ceFinish_onlyQueue (k : CeCmd) : OnlyQueue m (m.ceFinish c q k) c q ((m.queue c q).finished k) := by
  have htell (x : Machine) : SameQueues x (x.ctxInterrupt c 1) :=
    .of_kept (W := [.msix, .out]) (by apply ctxInterrupt_kept .refl <;> decide) (by decide)
  have hraise (x : Machine) : SameQueues x (match k.status with
      | 1 => x.raiseCtx 457 0 c
      | 2 => x.raiseCtx 458 0 c
      | 3 => x.raise 459 0
      | _ => x) := by
    refine .of_kept (W := [.ttl]) ?_ (by decide)
    split
    · exact raiseCtx_kept .refl _ _ _ (by decide)
    · exact raiseCtx_kept .refl _ _ _ (by decide)
    · exact raise_kept .refl _ _ (by decide)
    · exact .refl
  suffices hbefore : ∃ a, SameQueues m a ∧ m.ceFinish c q k = a.modQueue c q (·.finished k) by
    obtain ⟨a, ha, he⟩ := hbefore
    rw [he, ← ha.queue]
    exact ha.then (modQueue_onlyQueue a c q _)
  refine ⟨_, SameQueues.trans (SameQueues.trans ?_ (hraise _)) (orphanTxns_sameQueues _ c q), rfl⟩
  refine .thenIte (.thenIte (.thenIte .refl ?_) ?_) (htell _)
  · exact (hostWrite_sameQueues m _ _).trans (luffStep_sameQueues _ _)
  · exact (ceRecordOut_sameQueues _ c _).trans (luffStep_sameQueues _ _)

variable {m c q} in
theorem h1Lost_of_idle (hcur : (m.queue c q).cur = none) : m.h1Lost c q = m.modQueue c q CeQueue.h1Cleared := by
  unfold Machine.h1Lost
  dsimp only
  rw [hcur]
  rfl

variable {m c q} in
theorem h1Lost_of_cmd {k : CeCmd} (hcur : (m.queue c q).cur = some k) : m.h1Lost c q =
    if (m.queue c q).coversH1 k then
      if k.flushing then
        if m.fenced c then m.modQueue c q CeQueue.h1Cleared
        else (m.ceFinish c q { k with status := 3, flushing := false }).modQueue c q CeQueue.h1Cleared
      else (m.modQueue c q (·.stopped 3)).modQueue c q CeQueue.h1Cleared
    else m.modQueue c q CeQueue.h1Cleared := by
  unfold Machine.h1Lost
  dsimp only
  rw [hcur]
  rfl

theorem h1Lost_onlyQueue : OnlyQueue m (m.h1Lost c q) c q ((m.queue c q).h1Lost (m.fenced c)) := by
  have hclear : OnlyQueue m (m.modQueue c q CeQueue.h1Cleared) c q (m.queue c q).h1Cleared := modQueue_onlyQueue m c q _
  unfold CeQueue.h1Lost
  cases hcur : (m.queue c q).cur with
  | none => rw [h1Lost_of_idle hcur]; exact hclear
  | some k =>
    rw [h1Lost_of_cmd hcur]
    dsimp only
    split
    · split
      · split
        · exact hclear
        · exact (ceFinish_onlyQueue m c q _).modQueue _
      · exact (modQueue_onlyQueue m c q (·.stopped 3)).modQueue _
    · exact hclear

end

/-- The queues of the contexts that the table lists, in the order in which the loss of H1 reaches them. -/
def Machine.listedQueues (m : Machine) : List (Nat × Nat) := (tkeys m.ctx).flatMap fun c => (List.range 4).map fun q => (c, q)

section
variable {m : Machine} {c q : Nat}

theorem mem_listedQueues (hc : c ∈ tkeys m.ctx) (hq : q < 4) : (c, q) ∈ m.listedQueues :=
  List.mem_flatMap.mpr ⟨c, hc, List.mem_map.mpr ⟨q, List.mem_range.mpr hq, rfl⟩⟩

/-- Every queue meets the loss of H1 once; an unlisted context has no writes on H1. -/
theorem foldl_h1Lost_queue (hq : q < 4) :
    (m.listedQueues.foldl (fun m p => m.h1Lost p.1 p.2) m).queue c q = (m.queue c q).h1Lost (m.fenced c) := by
  have hafter : ∀ (a : Machine) (p : Nat × Nat), a.queue c q = (m.queue c q).h1Lost (m.fenced c) →
      (a.h1Lost p.1 p.2).queue c q = (m.queue c q).h1Lost (m.fenced c) := by
    intro a p ha
    rw [(h1Lost_onlyQueue a p.1 p.2).queue]
    split
    next hp =>
      obtain ⟨rfl, rfl⟩ := hp
      rw [ha, (h1Lost_h1Free _ _).lost]
    next => exact ha
  by_cases hc : c ∈ tkeys m.ctx
  · refine foldl_reaches (P := fun a => a.queue c q = m.queue c q ∧ a.fenced c = m.fenced c) (mem_listedQueues hc hq) ?_ ?_
      (fun a p _ => hafter a p) ⟨rfl, rfl⟩
    · rintro a p - hp ⟨hqueue, hfence⟩
      have hlost := h1Lost_onlyQueue a p.1 p.2
      rw [hlost.queue, hlost.fenced, if_neg fun h => hp (Prod.ext h.1.symm h.2.symm)]
      exact ⟨hqueue, hfence⟩
    · rintro a ⟨hqueue, hfence⟩
      rw [(h1Lost_onlyQueue a c q).queue, if_pos ⟨rfl, rfl⟩, hqueue, hfence]
  · have hfree : (m.queue c q).H1Free := by
      rw [Machine.queue, Machine.ctxAt, tget_of_not_mem _ _ _ hc]
      exact ⟨rfl, fun k hk => nomatch hk⟩
    exact List.foldlRecOn m.listedQueues (fun (m : Machine) p => m.h1Lost p.1 p.2)
      (motive := fun a => a.queue c q = (m.queue c q).h1Lost (m.fenced c)) (hfree.lost _).symm fun a ha p _ => hafter a p ha

end

/-- A link that falls leaves its record cleared but for the count (Table 11.8). -/
theorem hlinkDown_hlink {m : Machine} {n : Nat} (h : (m.hlink n).up = true) (k : Nat) : (m.hlinkDown n).hlink k =
    if k = n then { HstLink.reset with downCnt := satAdd 0xFFFF (m.hlink n).downCnt 1 } else m.hlink k := by
  rw [Machine.hlinkDown, if_pos h, (raise_kept (W := [.ttl]) .refl _ _ (by decide)).hlink (by decide), modHlink_hlink]

section
variable {s : State}

theorem h1LinkDown_of_up (h : (s.m.hlink 1).up = true) :
    exec .h1LinkDown s = done s (s.m.listedQueues.foldl (fun m p => m.h1Lost p.1 p.2) (s.m.hlinkDown 1)) := by
  refine congrArg (done s) ((if_pos h).trans ?_)
  simp only [Machine.listedQueues, List.foldl_flatMap, List.foldl_map]

/-- H1 falls: its record is cleared and counted, and every queue meets the loss (R344). -/
theorem h1LinkDown_falls (h : (s.m.hlink 1).up = true) : Completes .h1LinkDown s fun m =>
    m.hlink 1 = { HstLink.reset with downCnt := satAdd 0xFFFF (s.m.hlink 1).downCnt 1 } ∧ m.hlink 0 = s.m.hlink 0 ∧
    ∀ c q, q < 4 → m.queue c q = (s.m.queue c q).h1Lost (s.m.fenced c) := by
  have hdown : Kept [.ttl, .hst, .msix, .out] s.m (s.m.hlinkDown 1) := by apply hlinkDown_kept .refl <;> decide
  have hlist : s.m.listedQueues = (s.m.hlinkDown 1).listedQueues := by rw [Machine.listedQueues, ← hdown.ctx (by decide)]; rfl
  have hfold : Kept [.txn, .luff, .ctx, .ttl, .msix, .hostMem, .out] (s.m.hlinkDown 1)
      (s.m.listedQueues.foldl (fun m p => m.h1Lost p.1 p.2) (s.m.hlinkDown 1)) :=
    .foldl .refl fun x p hx => by apply h1Lost_kept hx <;> decide
  refine .of_done (h1LinkDown_of_up h) ⟨?_, ?_, fun c q hq => ?_⟩
  · rw [hfold.hlink (by decide), hlinkDown_hlink h, if_pos rfl]
  · rw [hfold.hlink (by decide), hlinkDown_hlink h, if_neg (by decide)]
  · rw [hlist, foldl_h1Lost_queue hq, hdown.queue (by decide), hdown.fenced (by decide)]

theorem h1LinkDown_ignored (h : (s.m.hlink 1).up = false) : Ignored .h1LinkDown s := .of_done rfl (if_neg (by simp [h]))

end

/-! ### Windows (R328-R332) -/

section
variable (m : Machine)

theorem deny_keeps (f : Nat) : Kept [.ctx, .ttl, .hst] m (m.deny f) := by apply deny_kept .refl <;> decide

/-- A denied access counts in the PF's window status (R329). -/
theorem deny_pfWin : (m.deny 0).hst.pfWin = { m.hst.pfWin with denied := true, count := satAdd 0xFFFF m.hst.pfWin.count 1 } :=
  congrArg Hst.pfWin ((raise_kept (W := [.ttl]) .refl 451 0 (by decide)).hst (by decide))

end

section
variable {f : Func} {o n : Nat} {s : State}

/-- The byte of a window that a read returns: 0xFF where its page is denied (R329). -/
def Machine.winRead (m : Machine) (f o : Nat) : Byte :=
  match m.winByte f false o with
  | some a => tget Config.blank m.hbm.bytes a
  | none => 0xFF

/-- The device addresses of n bytes of a window from an offset on. -/
def Machine.winBytes (m : Machine) (f : Nat) (write : Bool) (o n : Nat) : List (Option Nat) :=
  (List.range n).map fun i => m.winByte f write (o + i)

theorem winBytes_any_iff {m : Machine} {f : Nat} {w : Bool} : (m.winBytes f w o n).any Option.isNone = true ↔
    ∃ i < n, m.winByte f w (o + i) = none := by
  simp [Machine.winBytes, List.any_map, List.any_eq_true]

theorem windowRead_of_inside (hn : n ≠ 0) (hin : o + n ≤ (s.m.window (funcNum f)).2) : exec (.windowRead f o n) s = done s
    (let m := s.m.emit (.windowData (funcNum f) o ((List.range n).map fun i => s.m.winRead (funcNum f) (o + i)))
     if (s.m.winBytes (funcNum f) false o n).any Option.isNone then m.deny (funcNum f) else m) := by
  refine congrArg (done s) ((if_neg (by omega)).trans ?_)
  simp only [List.map_map]
  rfl

theorem windowRead_reads (hn : n ≠ 0) (hin : o + n ≤ (s.m.window (funcNum f)).2) : Completes (.windowRead f o n) s fun m =>
    m.out = s.m.out ++ [Out.windowData (funcNum f) o ((List.range n).map fun i => s.m.winRead (funcNum f) (o + i))] ∧ m.hbm = s.m.hbm ∧
    ((∀ i < n, (s.m.winByte (funcNum f) false (o + i)).isSome = true) → m.hst = s.m.hst ∧ m.ctx = s.m.ctx) ∧
    ((∃ i < n, s.m.winByte (funcNum f) false (o + i) = none) → f = .pf →
      m.hst.pfWin = { s.m.hst.pfWin with denied := true, count := satAdd 0xFFFF s.m.hst.pfWin.count 1 }) := by
  refine .of_done (windowRead_of_inside hn hin) ?_
  dsimp only
  generalize hout : s.m.emit _ = a
  have hdeny := deny_keeps a (funcNum f)
  refine ⟨?_, ?_, fun hall => ?_, fun hsome hf => ?_⟩
  · rw [(Kept.ite hdeny .refl).out (by decide), ← hout]
    rfl
  · rw [(Kept.ite hdeny .refl).hbm (by decide), ← hout]
    rfl
  · rw [if_neg (by rw [winBytes_any_iff]; rintro ⟨i, hi, hnone⟩; simpa [hnone] using hall i hi), ← hout]
    exact ⟨rfl, rfl⟩
  · subst hf
    rw [if_pos (winBytes_any_iff.mpr hsome)]
    exact (deny_pfWin a).trans (hout ▸ rfl)

theorem windowRead_outside (h : n = 0 ∨ (s.m.window (funcNum f)).2 < o + n) : Ignored (.windowRead f o n) s := .of_done rfl (if_pos h)

end

/-! ### Writes of a window -/

/-- An allowed byte lies at its offset from the window's base. -/
theorem winByte_eq_some {m : Machine} {f : Nat} {w : Bool} {o a : Nat} (h : m.winByte f w o = some a) :
    ∃ b, (m.window f).1 = some b ∧ a = b * pageBytes + o := by
  unfold Machine.winByte at h
  split at h
  · cases h
  next b hb =>
    dsimp only at h
    split at h
    · exact ⟨b, hb, (Option.some.inj h).symm⟩
    · cases h

/-- Two window bytes at the same device address are one. -/
theorem winByte_inj {m : Machine} {f : Nat} {w : Bool} {o o' a : Nat} (h : m.winByte f w o = some a) (h' : m.winByte f w o' = some a) :
    o = o' := by
  obtain ⟨b, hb, ha⟩ := winByte_eq_some h
  obtain ⟨b', hb', ha'⟩ := winByte_eq_some h'
  obtain rfl : b = b' := Option.some.inj (hb.symm.trans hb')
  exact Nat.add_left_cancel (ha.symm.trans ha')

/-- Write one byte of a window, if its page is allowed (R329). -/
def Machine.winPut (m : Machine) (e : Option Nat × Byte) : Machine :=
  match e.1 with
  | some a => m.hbmWrite a [e.2]
  | none => m

section
variable (m : Machine) (e : Option Nat × Byte) (a : Nat)

theorem winPut_same (v : Byte) : tget Config.blank (m.winPut (some a, v)).hbm.bytes a = v :=
  (tget_mwrite_inside _ _ a a [v] ⟨Nat.le_refl a, Nat.lt_succ_self a⟩).trans (by rw [Nat.sub_self]; rfl)

theorem winPut_other (h : e.1 ≠ some a) : tget Config.blank (m.winPut e).hbm.bytes a = tget Config.blank m.hbm.bytes a := by
  obtain ⟨b, v⟩ := e
  cases b with
  | none => rfl
  | some b =>
    refine tget_mwrite_outside _ _ b a [v] ?_
    have hb : b ≠ a := fun hb => h (congrArg some hb)
    simp only [List.length_cons, List.length_nil]
    omega

theorem winPut_kept : Kept [.hbm] m (m.winPut e) := by
  unfold Machine.winPut
  split
  · exact hbmWrite_kept .refl _ _ (by decide)
  · exact .refl

end

section
variable (m : Machine) (f : Nat) (o : Nat) (data : List Byte)

/-- The bytes of a window write, each with its device address. -/
def Machine.winPuts : List (Option Nat × Byte) := data.zipIdx.map fun e => (m.winByte f true (o + e.2), e.1)

/-- The machine with the allowed bytes of a window write. -/
def Machine.winWrite : Machine := (m.winPuts f o data).foldl Machine.winPut m

theorem mem_winPuts {e : Option Nat × Byte} : e ∈ m.winPuts f o data ↔ ∃ i < data.length, e = (m.winByte f true (o + i), data.getD i 0) := by
  simp only [Machine.winPuts, List.mem_map, Prod.exists, List.mem_zipIdx_iff_getElem?]
  constructor
  · rintro ⟨v, i, hv, rfl⟩
    obtain ⟨hi, rfl⟩ := List.getElem?_eq_some_iff.mp hv
    exact ⟨i, hi, by simp [List.getD_eq_getElem?_getD, hi]⟩
  · rintro ⟨i, hi, rfl⟩
    exact ⟨data.getD i 0, i, by simp [List.getD_eq_getElem?_getD, hi], rfl⟩

theorem winPuts_any_iff : (m.winPuts f o data).any (·.1.isNone) = true ↔ ∃ i < data.length, m.winByte f true (o + i) = none := by
  simp only [List.any_eq_true, mem_winPuts]
  constructor
  · rintro ⟨-, ⟨i, hi, rfl⟩, hnone⟩
    exact ⟨i, hi, Option.isNone_iff_eq_none.mp hnone⟩
  · rintro ⟨i, hi, hnone⟩
    exact ⟨_, ⟨i, hi, rfl⟩, Option.isNone_iff_eq_none.mpr hnone⟩

/-- Every allowed byte is written. -/
theorem winWrite_inside {i a : Nat} (hi : i < data.length) (ha : m.winByte f true (o + i) = some a) :
    tget Config.blank (m.winWrite f o data).hbm.bytes a = data.getD i 0 := by
  have hmem : (some a, data.getD i 0) ∈ m.winPuts f o data := (mem_winPuts m f o data).mpr ⟨i, hi, by rw [ha]⟩
  refine foldl_reaches (P := fun _ => True) (Q := fun x => tget Config.blank x.hbm.bytes a = data.getD i 0) hmem
    (fun _ _ _ _ _ => trivial) (fun x _ => winPut_same x a _) (fun x e he hx => ?_) trivial
  by_cases hea : e.1 = some a
  · obtain ⟨j, hj, rfl⟩ := (mem_winPuts m f o data).mp he
    obtain rfl : j = i := by have := winByte_inj hea ha; omega
    dsimp only at hea
    rw [hea]
    exact winPut_same x a _
  · exact (winPut_other x e a hea).trans hx

/-- No other byte changes. -/
theorem winWrite_outside {a : Nat} (ha : ∀ i < data.length, m.winByte f true (o + i) ≠ some a) :
    tget Config.blank (m.winWrite f o data).hbm.bytes a = tget Config.blank m.hbm.bytes a := by
  refine List.foldlRecOn (m.winPuts f o data) Machine.winPut
    (motive := fun x => tget Config.blank x.hbm.bytes a = tget Config.blank m.hbm.bytes a) rfl fun x hx e he => ?_
  obtain ⟨i, hi, rfl⟩ := (mem_winPuts m f o data).mp he
  exact (winPut_other x _ a (ha i hi)).trans hx

theorem winWrite_kept : Kept [.hbm] m (m.winWrite f o data) := .foldl .refl fun x e hx => hx.trans (winPut_kept x e)

end

section
variable {f : Func} {o : Nat} {data : List Byte} {s : State}

theorem windowWrite_of_inside (hdata : data ≠ []) (hin : o + data.length ≤ (s.m.window (funcNum f)).2) (poisoned : Bool) :
    exec (.windowWrite f o data poisoned) s = done s (if poisoned then s.m.raise 452 0 else
      if (s.m.winPuts (funcNum f) o data).any (·.1.isNone) then (s.m.winWrite (funcNum f) o data).deny (funcNum f)
      else s.m.winWrite (funcNum f) o data) :=
  congrArg (done s) (if_neg (by rw [List.isEmpty_iff]; rintro (h | h); exacts [hdata h, by omega]))

theorem windowWrite_writes (hdata : data ≠ []) (hin : o + data.length ≤ (s.m.window (funcNum f)).2) :
    Completes (.windowWrite f o data false) s fun m =>
      (∀ i a, i < data.length → s.m.winByte (funcNum f) true (o + i) = some a → tget Config.blank m.hbm.bytes a = data.getD i 0) ∧
      (∀ a, (∀ i < data.length, s.m.winByte (funcNum f) true (o + i) ≠ some a) →
        tget Config.blank m.hbm.bytes a = tget Config.blank s.m.hbm.bytes a) ∧
      ((∃ i < data.length, s.m.winByte (funcNum f) true (o + i) = none) → f = .pf →
        m.hst.pfWin = { s.m.hst.pfWin with denied := true, count := satAdd 0xFFFF s.m.hst.pfWin.count 1 }) := by
  refine .of_done (windowWrite_of_inside hdata hin false) ?_
  rw [if_neg Bool.false_ne_true]
  have hhbm := (Kept.ite (c := (s.m.winPuts (funcNum f) o data).any (·.1.isNone) = true) (deny_keeps (s.m.winWrite (funcNum f) o data) (funcNum f))
    .refl).hbm (by decide)
  refine ⟨fun i a hi ha => ?_, fun a ha => ?_, fun hsome hf => ?_⟩
  · rw [hhbm]
    exact winWrite_inside s.m _ o data hi ha
  · rw [hhbm]
    exact winWrite_outside s.m _ o data ha
  · subst hf
    rw [if_pos ((winPuts_any_iff s.m _ o data).mpr hsome)]
    exact (deny_pfWin _).trans (by rw [(winWrite_kept s.m _ o data).hst (by decide)])

theorem windowWrite_poisoned (hdata : data ≠ []) (hin : o + data.length ≤ (s.m.window (funcNum f)).2) :
    Completes (.windowWrite f o data true) s fun m => m.hbm = s.m.hbm ∧ m.hst = s.m.hst ∧ m.ctx = s.m.ctx := by
  have hkept : Kept [.ttl] s.m (s.m.raise 452 0) := raise_kept .refl _ _ (by decide)
  exact .of_done (windowWrite_of_inside hdata hin true) ⟨hkept.hbm (by decide), hkept.hst (by decide), hkept.ctx (by decide)⟩

theorem windowWrite_outside (h : data = [] ∨ (s.m.window (funcNum f)).2 < o + data.length) (p : Bool) : Ignored (.windowWrite f o data p) s :=
  .of_done rfl (if_pos (h.imp_left List.isEmpty_iff.mpr))

theorem windowAtomic_answered (h : o < (s.m.window (funcNum f)).2) : Completes (.windowAtomic f o) s fun m =>
    m = { s.m with out := s.m.out ++ [Out.unsupported (funcNum f)] } :=
  .of_done rfl (if_pos h)

theorem windowAtomic_outside (h : (s.m.window (funcNum f)).2 ≤ o) : Ignored (.windowAtomic f o) s := .of_done rfl (if_neg (by omega))

end

/-- Settles O40: a link trains to one record and falls to another; each queue meets the loss of H1 once, and each byte of a window access is
read, written or denied on its own. -/
theorem hostLinksAndWindows : Obligations.HostLinksAndWindows := by
  unfold Obligations.HostLinksAndWindows
  refine ⟨?cxl, ?pcie, ?untrained, ?h1Down, ?h1StaysDown, ?reads, ?writes, ?atomic, ?outside⟩
  case cxl =>
    intro n t b s hup hactive hdown hrate hwidth hoffer hcxl
    have htrained := trained_cxl ((cxlTaken_offered hoffer hrate).trans hcxl)
    exact htrained ▸ hostLinkTrain_trains (trains_iff.mpr ⟨hup, hactive, hdown, by omega, hwidth⟩)
  case pcie =>
    intro n t s hup hactive hdown hrate hwidth hnone
    have htrained := trained_pcie (cxlTaken_none hnone)
    exact htrained ▸ hostLinkTrain_trains (trains_iff.mpr ⟨hup, hactive, hdown, hrate, hwidth⟩)
  case untrained =>
    intro n t s hbad
    refine hostLinkTrain_ignored (Bool.eq_false_iff.mpr fun htrains => ?_)
    obtain ⟨hup, hactive, hdown, hrate, hwidth⟩ := trains_iff.mp htrains
    rcases hbad with h | h | h | h | h
    · simp [hup] at h
    · simp [hactive] at h
    · simp [hdown] at h
    · omega
    · exact h hwidth
  case h1Down =>
    refine fun s hup => (h1LinkDown_falls hup).imp fun m ⟨hone, hzero, hqueue⟩ => ⟨hone, hzero, ?_, ?_, ?_⟩
    · intro c q k hq hk hopt hflush hset
      rw [hqueue c q hq]
      exact h1Lost_stops hk (by rw [CeQueue.coversH1, hopt, hset, Bool.and_self]) hflush
    · intro c q k hq hk hopt hflush hset hfence
      rw [hqueue c q hq, hfence]
      exact h1Lost_finishes hk (by rw [CeQueue.coversH1, hopt, hset, Bool.and_self]) hflush
    · intro c q hq hk
      rw [hqueue c q hq]
      exact h1Lost_idle hk
  case h1StaysDown => exact fun s hdown => h1LinkDown_ignored hdown
  case reads => exact fun f o n s hn hin => windowRead_reads hn hin
  case writes => exact fun f o data s hdata hin => ⟨windowWrite_writes hdata hin, windowWrite_poisoned hdata hin⟩
  case atomic => exact fun f o s hin => windowAtomic_answered hin
  case outside =>
    exact fun f o n data p s => ⟨windowRead_outside, fun h => windowWrite_outside h p, windowAtomic_outside⟩

end Sys2Proof.Machine

/-! ## A lost VF whose step ends lets another context's collective go on -/

namespace Sys2Proof.Machine

/-- The image of context 3: one step, which counts one token on a COLL_IN channel of its collective on stream 5. -/
def collInImage : Image :=
  { addr := 0, totalLen := 0, partTiles := 0, tiles := 0, tileBase := 0, streams := 8, hbmLim := 4, xdieLim := 4, fabLim := 4, srSeed := 0,
    hbmLen := 0, maxDurNs := 100, recs := [],
    chans := [{ kind := 4, src := 0, dst := 0, tokenBytes := 1, depth := 1, bufLine := 0, ref := 0 }],
    steps := [{ durNs := 100, stepW := 0, counts := [(0, 1)], starts := [] }], consts := [],
    colls := [{ op := 4, fmt := 0, red := 0, bytes := 1, stream := 5, demand := 0 }] }

/-- Context 3, bound to VF 0 and live, in a released step of that image. -/
def vfContext : CtxRec :=
  { CtxRec.reset with
    base := { CtxBase.reset with life := .live, tag := 5, func := some 1 }
    xc := { Xc.reset with
      state := .running, image := some { img := collInImage, base := 0, streamBase := 0, hbmBase := 0 }
      run := some { step := 0, arg := 0, released := true, number := 0, releaseAt := 0, armSeq := 0, chans := [], offCorner := 0, flags := 0,
                    recvCh := [] } } }

/-- Context 4, bound to the PF and live. -/
def pfContext : CtxRec := { CtxRec.reset with base := { CtxBase.reset with life := .live, tag := 5, func := some 0 } }

/-- A BROADCAST on stream 5 that is recorded for context 4: idle, one token landed, the parent's next byte at hand. -/
def pfBroadcast : CollRec :=
  { ctx := 4, index := 0, stream := 5, op := 4, fmt := 0, red := 0, bytes := 1, busy := false, data := [], supplied := 0, die := 0,
    members := [], senses := [], parent := none, children := [], got := [(8, 0, true, [7])], stage := 0, landed := 1 }

/-- Package 0 of a slice of the packages 8, 0 and 16, in that order of the broadcast's tree. -/
def vfBesidePf : State where
  pending := []
  m := { Machine.reset with
    ctx := [(3, vfContext), (4, pfContext)]
    coll := [(0, some pfBroadcast)]
    hly := { Hly.reset with bank0 := { Hly.reset.bank0 with prep := { Hly.reset.bank0.prep with
      flows := [{ tag := 5, stream := 5, pattern := 0, plane := 0, ring := [], parents := [(0, 8), (16, 0)], members := [8, 0, 16] }] } } } }

/-- VF 0 vanishes: the end of its context's step frees the token of the broadcast, which then sends its next byte to package 16 and charges
it to context 4 (10 R314, 06 R201). -/
theorem vfEnableClear_charges_pfContext :
    Completes (.vfEnableClear false 0) vfBesidePf fun m => (m.ctxAt 4).base.meters.link = 1 :=
  .of_done rfl (by decide +kernel)

/-- Refutes O41: a context of the PF does not stay as it was when a VF is lost, for the end of the VF's step advances the collective in the
slot of its stream, whichever context that slot is recorded for, and charges that context's link meter. -/
theorem not_watchesFunctionResetsAndVfs : ¬ Obligations.WatchesFunctionResetsAndVfs := by
  unfold Obligations.WatchesFunctionResetsAndVfs
  intro h
  obtain ⟨-, -, -, -, -, -, -, enableClear⟩ := h
  have hpf : ∀ f, (vfBesidePf.m.ctxAt 4).base.func = some f → f ≤ 0 := by
    intro f hf
    cases hf
    exact Nat.le_refl 0
  obtain ⟨t, -, -, hcharged, -, -, -, hothers⟩ := vfEnableClear_charges_pfContext.and (enableClear false 0 vfBesidePf)
  rw [hothers 4 (by decide) hpf] at hcharged
  exact absurd hcharged (by decide)

end Sys2Proof.Machine

/-! ## BAR0 of the functions (11 R322-R326; 18 R507-R512) -/

namespace Sys2Proof.Machine

/-! ### An access of a function that answers -/

section
variable {f : BarFunc} {off : Nat} {s : State}

theorem registerWrite_unanswered (h : s.m.answers f = false) (a : BarAccess) : Ignored (.registerWrite f off a) s :=
  .of_done rfl (if_pos (by simp [h]))

theorem registerWrite_identity (h : s.m.answers f = true) :
    exec (.registerWrite f off .identity) s = done s (s.m.emit (.identity f (s.m.configId f))) := by
  refine congrArg (done s) ((if_neg (by simp [h])).trans ?_)
  cases f <;> rfl

theorem registerWrite_read {f : Func} (h : s.m.answers (.fn f) = true) (n : Nat) :
    exec (.registerWrite (.fn f) off (.read n)) s = done s (s.m.bar0Read (funcNum f) off n) :=
  congrArg (done s) (if_neg (by simp [h]))

theorem registerWrite_write {f : Func} (h : s.m.answers (.fn f) = true) (data : List Byte) :
    exec (.registerWrite (.fn f) off (.write data)) s = done s (s.m.bar0Write (funcNum f) off data) :=
  congrArg (done s) (if_neg (by simp [h]))

theorem registerWrite_h1Read (h : s.m.answers .h1 = true) (n : Nat) :
    exec (.registerWrite .h1 off (.read n)) s = done s (s.m.h1Read off n) :=
  congrArg (done s) (if_neg (by simp [h]))

theorem registerWrite_h1Write (h : s.m.answers .h1 = true) (data : List Byte) : Ignored (.registerWrite .h1 off (.write data)) s :=
  .of_done rfl (if_neg (by simp [h]))

end

/-! ### Words and shapes that R509 accepts or refuses -/

section
variable (m : Machine) {f off n : Nat} {data : List Byte}

theorem accessed_zero (o f : Nat) : m.accessed o 0 f = m := rfl

theorem aligned_word (h : off % 4 = 0) : off / 4 * 4 = off := by omega

/-- An aligned read of 4 bytes is one word of the function. -/
theorem bar0Read_word (halign : off % 4 = 0) (hin : off + 4 ≤ barSize f) : m.bar0Read f off 4 =
    ((if f = 0 then m.latchTime f off else m).accessed off (m.barRead f off).2 f).emit
      (.readData f off (leBytes 4 (m.barRead f off).1.toNat)) := by
  unfold Machine.bar0Read
  simp only [aligned_word halign, halign]
  rw [if_neg (by omega), if_pos (by decide), if_neg (by decide)]
  rfl

theorem bar0Read_refused (hn : 0 < n) (hin : off + n ≤ barSize f) (hshape : n ∉ [1, 2, 4, 8] ∨ 4 < off % 4 + n)
    (htwo : ¬ (n = 8 ∧ off % 4 = 0)) :
    m.bar0Read f off n = (m.accErr off 2 f).emit (.readData f off (List.replicate n 0xFF)) := by
  have hone : ([1, 2, 4, 8].contains n && decide (off % 4 + n ≤ 4) || n == 8 && off % 4 == 0) ≠ true := by
    simp only [ne_eq, Bool.or_eq_true, Bool.and_eq_true, List.contains_iff_mem, decide_eq_true_eq, beq_iff_eq]
    rintro (⟨hmem, hfit⟩ | h8)
    · exact hshape.elim (absurd hmem) (by omega)
    · exact htwo h8
  unfold Machine.bar0Read
  dsimp only
  rw [if_neg (by omega), if_neg hone]

/-- An aligned write of 4 bytes is one word of the function. -/
theorem bar0Write_word (halign : off % 4 = 0) (hin : off + 4 ≤ barSize f) (hlen : data.length = 4) : m.bar0Write f off data =
    (m.barWrite f off (wordAt data 0)).1.accessed off (m.barWrite f off (wordAt data 0)).2 f := by
  unfold Machine.bar0Write
  dsimp only
  rw [hlen, if_neg (by omega), if_pos ⟨.inl rfl, halign⟩, if_neg (by decide)]

theorem bar0Write_refused (hn : 0 < data.length) (hin : off + data.length ≤ barSize f)
    (hshape : ¬ ((data.length = 4 ∨ data.length = 8) ∧ off % 4 = 0)) :
    m.bar0Write f off data = m.accErr off (if off % 4 + data.length ≤ 4 then 1 else 2) f := by
  unfold Machine.bar0Write
  dsimp only
  rw [if_neg (by omega), if_neg hshape]

end

/-! ### What the words are -/

section
variable {m : Machine} {off : Nat}

theorem barRead_exposed (h : m.exposed off = true) : m.barRead 0 off = (m.regRead 0 off, 0) :=
  (if_pos rfl).trans (if_pos h)

theorem barRead_hidden (h : m.exposed off = false) : m.barRead 0 off = (0, 5) :=
  (if_pos rfl).trans (if_neg (by simp [h]))

theorem barWrite_exposed (h : m.exposed off = true) (v : Word) : m.barWrite 0 off v = m.regWrite 0 off v :=
  (if_pos rfl).trans (if_pos h)

theorem barWrite_hidden (h : m.exposed off = false) (v : Word) : m.barWrite 0 off v = (m, 5) :=
  (if_pos rfl).trans (if_neg (by simp [h]))

/-- The context page of a VF bound to no context reads 0 (11 R326). -/
theorem barRead_unbound {f : Nat} (hctx : m.vfCtx (f + 1) = none) (hoff : off < 0x1000) : m.barRead (f + 1) off = (0, 0) := by
  simp [Machine.barRead, Machine.vfRead, hoff, hctx]

theorem barWrite_unbound {f : Nat} (hctx : m.vfCtx (f + 1) = none) (hoff : off < 0x1000) (v : Word) :
    m.barWrite (f + 1) off v = (m, 0) := by
  simp [Machine.barWrite, hoff, hctx]

theorem h1Read_of_inside {n : Nat} (htwo : m.twoDie = true) (hn : 0 < n) (hin : off + n ≤ 0x10000) : m.h1Read off n =
    m.emit (.readData 128 off ((List.range n).map fun i =>
      (leBytes 8 m.fuse.uid.toNat ++ leBytes 4 (m.hlinkWord 1).toNat).getD (off + i) 0)) :=
  if_pos ⟨htwo, hn, hin⟩

end

/-! ### A read changes the latch alone of the timebase -/

/-- Only the latch of TIME_NOW_HI differs in the timebase (02 R67). -/
def Machine.timeButLatch (m a : Machine) : Prop := a.time = { m.time with latch := a.time.latch }

section
variable (m : Machine)

theorem latchTime_timeButLatch (o : Nat) : m.timeButLatch (m.latchTime 0 o) := by
  unfold Machine.latchTime
  split
  · exact rfl
  · exact rfl

theorem Machine.timeButLatch.trans {m a b : Machine} (h : m.timeButLatch a) (h' : a.timeButLatch b) : m.timeButLatch b := by
  unfold Machine.timeButLatch at *
  rw [h', h]

theorem Machine.timeButLatch.of_kept {W : List Area} {m a b : Machine} (h : m.timeButLatch a) (hab : Kept W a b) (hw : Area.time ∉ W) :
    m.timeButLatch b := by
  unfold Machine.timeButLatch at *
  rw [hab.time hw]
  exact h

theorem bar0Read_timeButLatch (f o n : Nat) : m.timeButLatch (m.bar0Read f o n) := by
  have hlatch (x : Machine) (w : Nat) : x.timeButLatch (if f = 0 then x.latchTime f w else x) := by
    split
    next h => exact h ▸ latchTime_timeButLatch x w
    next => exact rfl
  have hacc (x : Machine) (c : Nat) : Kept [.acc] x (x.accessed o c f) := accessed_kept .refl o c f (by decide)
  unfold Machine.bar0Read
  dsimp only
  split
  · exact rfl
  · split
    · have hfirst := (hlatch m (o / 4 * 4)).of_kept (hacc _ (m.barRead f (o / 4 * 4)).2) (by decide)
      split
      · exact (hfirst.of_kept (b := if _ then _ else _) (.ite (hacc _ _) .refl) (by decide)).trans (hlatch _ _)
      · exact hfirst
    · exact rfl

end

/-- Every read leaves all but the timebase's latch, the access-error record and what was sent. -/
theorem registerRead_frame (f : BarFunc) (off n : Nat) (s : State) : Completes (.registerWrite f off (.read n)) s fun m =>
    Kept [.time, .acc, .out] s.m m ∧ s.m.timeButLatch m := by
  cases hans : s.m.answers f with
  | false => exact ⟨s, registerWrite_unanswered hans _, rfl, .refl, rfl⟩
  | true =>
    cases f with
    | fn f => exact .of_done (registerWrite_read hans n) ⟨by apply bar0Read_kept .refl <;> decide, bar0Read_timeButLatch ..⟩
    | h1 =>
      have hkept : Kept [.out] s.m (s.m.h1Read off n) := h1Read_kept .refl off n (by decide)
      exact .of_done (registerWrite_h1Read hans n) ⟨hkept.mono (by decide), .of_kept rfl hkept (by decide)⟩

/-- Settles O56: an access is one function's read or write of a word, which the shape's rule lets through or counts; the word itself is the
map's, the context page's, or hidden in rescue. -/
theorem registersAreReadAndWrittenByFunction : Obligations.RegistersAreReadAndWrittenByFunction := by
  unfold Obligations.RegistersAreReadAndWrittenByFunction
  refine ⟨?unanswered, ?reads, ?pfRead, ?pfReadShape, ?pfWrite, ?pfWriteShape, ?unboundVf, ?h1, ?identity⟩
  case unanswered => exact fun f off a s h => registerWrite_unanswered h a
  case reads =>
    refine fun f off n s => (registerRead_frame f off n s).imp fun m ⟨hkept, htime⟩ => ⟨fun b ht ha ho => hkept.keeps b ?_, htime⟩
    simp [ht, ha, ho]
  case pfRead =>
    intro off s h halign hin
    refine .of_done ((registerWrite_read h 4).trans (congrArg _ (bar0Read_word s.m halign hin))) ⟨fun hexp => ?_, fun hhid => ?_⟩
    · have hkept : Kept [.time] s.m (s.m.latchTime 0 off) := latchTime_kept .refl 0 off (by decide)
      rw [show funcNum .pf = 0 from rfl, barRead_exposed hexp, if_pos rfl, accessed_zero]
      exact ⟨congrArg (· ++ _) (hkept.out (by decide)), hkept.acc (by decide)⟩
    · have hlatch : s.m.latchTime 0 off = s.m := if_neg (by simp [hhid])
      rw [show funcNum .pf = 0 from rfl, barRead_hidden hhid, if_pos rfl, hlatch]
      exact ⟨rfl, rfl⟩
  case pfReadShape =>
    intro off n s h hn hin hshape htwo
    exact .of_done (registerWrite_read h n) (bar0Read_refused s.m hn hin hshape htwo)
  case pfWrite =>
    intro off data s h halign hin hlen
    refine .of_done ((registerWrite_write h data).trans (congrArg _ (bar0Write_word s.m halign hin hlen))) ⟨fun hexp => ?_, fun hhid => ?_⟩
    · rw [show funcNum .pf = 0 from rfl, barWrite_exposed hexp]
    · rw [show funcNum .pf = 0 from rfl, barWrite_hidden hhid]
      rfl
  case pfWriteShape =>
    intro off data s h hn hin hshape
    exact .of_done (registerWrite_write h data) (bar0Write_refused s.m hn hin hshape)
  case unboundVf =>
    intro n off data s h hctx halign hoff hlen
    have hin : off + 4 ≤ barSize (n.val + 1) := by
      rw [barSize, if_neg (by omega)]
      omega
    refine ⟨.of_done ((registerWrite_read h 4).trans (congrArg _ (bar0Read_word s.m halign hin))) ?_,
      .of_done ((registerWrite_write h data).trans (congrArg _ (bar0Write_word s.m halign hin hlen))) ?_⟩
    · rw [show funcNum (.vf n) = n.val + 1 from rfl, barRead_unbound hctx hoff, if_neg (by omega)]
      rfl
    · rw [show funcNum (.vf n) = n.val + 1 from rfl, barWrite_unbound hctx hoff]
      rfl
  case h1 =>
    intro off n data s h htwo hn hin
    exact ⟨.of_done (registerWrite_h1Read h n) (h1Read_of_inside htwo hn hin), registerWrite_h1Write h data⟩
  case identity =>
    refine fun f off s h => .of_done (registerWrite_identity h) ⟨_, rfl, ?_⟩
    cases f with
    | fn g => cases g <;> simp [Machine.configId]
    | h1 => simp [Machine.configId]

end Sys2Proof.Machine

/-! ## Copy queues: enabled, disabled, resumed, rung and fetched from; commands completed (11 R346; 12 R350-R353, R356, R360-R362, R365, R366) -/

namespace Sys2Proof.Machine

/-! ### Reads of a queue -/

section
variable {m a b : Machine} {c q : Nat}

theorem OnlyQueue.same {r : CeQueue} (h : OnlyQueue m a c q r) : a.queue c q = r := (h.queue c q).trans (if_pos ⟨rfl, rfl⟩)

theorem OnlyQueue.thenSame {r : CeQueue} (h : OnlyQueue m a c q r) (h' : SameQueues a b) : OnlyQueue m b c q r :=
  ⟨fun x k => (h'.queue x k).trans (h.queue x k), fun x => (h'.fenced x).trans (h.fenced x)⟩

theorem SameQueues.cur (h : SameQueues m a) (c q : Nat) : (a.queue c q).cur = (m.queue c q).cur := congrArg CeQueue.cur (h.queue c q)

variable (m c q)

theorem modQueue_queue (f : CeQueue → CeQueue) : (m.modQueue c q f).queue c q = f (m.queue c q) := (modQueue_onlyQueue m c q f).same

theorem modCmd_cur (f : CeCmd → CeCmd) : ((m.modCmd c q f).queue c q).cur = (m.queue c q).cur.map f :=
  congrArg CeQueue.cur (modQueue_queue m c q _)

theorem ceStop_cur {k : CeCmd} (hcur : (m.queue c q).cur = some k) (st : Nat) :
    ((m.ceStop c q st).queue c q).cur = some { k with status := st, failAt := none, sent := true } :=
  (modCmd_cur m c q _).trans (congrArg (Option.map _) hcur)

theorem hostStores_queue (h : Cells) : (m.hostStores h).queue c q = m.queue c q := rfl

theorem raise_sameQueues (src unit : Nat) : SameQueues m (m.raise src unit) :=
  .of_kept (W := [.ttl]) (raise_kept .refl _ _ (by decide)) (by decide)

theorem raiseCtx_sameQueues (src unit x : Nat) : SameQueues m (m.raiseCtx src unit x) :=
  .of_kept (W := [.ttl]) (raiseCtx_kept .refl _ _ _ (by decide)) (by decide)

end

/-! ### A write of CFG (R350, R362, R366) -/

section
variable (m : Machine) (c q : Nat) (cfg : Word)

/-- A queue with the fields that a write of CFG gives it. -/
def CeQueue.configured (r : CeQueue) (cfg : Word) : CeQueue :=
  { r with log2size := bits cfg 0 4, cls := bits cfg 4 2, idx := bits cfg 6 3 }

/-- A queue that starts at indexes 0 (R350). -/
def CeQueue.started (r : CeQueue) : CeQueue :=
  { r with state := .running, enable := true, pi := 0, ci := 0, cur := none, h0Last := none, h1Last := none }

/-- A queue that stays DISABLED with CFG_ERR (R350). -/
def CeQueue.misconfigured (r : CeQueue) : CeQueue := { r with cfgErr := true, enable := false }

/-- Whether a queue may run: its engine serves, its size is one of the table's, its ring is aligned and the context has a completion ring
(R350). -/
def Machine.mayRun (m : Machine) (c q : Nat) : Bool :=
  (engineOf (m.queue c q).cls (m.queue c q).idx).any (fun e => !(m.engine e).failed) &&
  decide (4 ≤ (m.queue c q).log2size) && decide ((m.queue c q).log2size ≤ 12) && (m.queue c q).base.toNat % 256 == 0 &&
  (m.ctxAt c).ce.cqSize != 0

theorem enableQueue_eq : m.enableQueue c q cfg =
    if (m.modQueue c q (·.configured cfg)).mayRun c q then (m.modQueue c q (·.configured cfg)).modQueue c q CeQueue.started
    else ((m.modQueue c q (·.configured cfg)).modQueue c q CeQueue.misconfigured).raise 456 0 := by
  unfold Machine.enableQueue
  extract_lets a r ok
  have hok : ok = a.mayRun c q := by
    unfold ok Machine.mayRun
    cases engineOf r.cls r.idx <;> rfl
  rw [hok]
  rfl

theorem modQueue_cqSize (f : CeQueue → CeQueue) : ((m.modQueue c q f).ctxAt c).ce.cqSize = (m.ctxAt c).ce.cqSize := by
  rw [Machine.modQueue, modCtx_ctxAt, if_pos rfl]

theorem configured_mayRun_iff : (m.modQueue c q (·.configured cfg)).mayRun c q = true ↔
    (∃ e, engineOf (bits cfg 4 2) (bits cfg 6 3) = some e ∧ (m.engine e).failed = false) ∧ 4 ≤ bits cfg 0 4 ∧ bits cfg 0 4 ≤ 12 ∧
    (m.queue c q).base.toNat % 256 = 0 ∧ (m.ctxAt c).ce.cqSize ≠ 0 := by
  simp only [Machine.mayRun, modQueue_queue, modQueue_cqSize, modQueue_reads, Bool.and_eq_true, Option.any_eq_true, Bool.not_eq_true',
    decide_eq_true_eq, beq_iff_eq, bne_iff_ne, and_assoc]
  rfl

theorem enableQueue_queue : (m.enableQueue c q cfg).queue c q = if (m.modQueue c q (·.configured cfg)).mayRun c q
    then ((m.queue c q).configured cfg).started else ((m.queue c q).configured cfg).misconfigured := by
  rw [enableQueue_eq]
  split
  · exact ((modQueue_onlyQueue m c q _).modQueue _).same
  · exact (((modQueue_onlyQueue m c q _).modQueue _).thenSame (raise_sameQueues _ _ _)).same

/-- ENABLE 0 leaves a queue without a command in progress DISABLED (R366). -/
theorem disableQueue_queue : (m.disableQueue c q).queue c q = { m.queue c q with
    enable := false, state := if (m.queue c q).cur.isNone then .disabled else (m.queue c q).state } := by
  rw [Machine.disableQueue, modQueue_queue]
  split
  next h => simp [h]
  next => split <;> simp_all

variable {m c q}

theorem resumeQueue_of_halted (hstate : (m.queue c q).state = .halted) (henable : (m.queue c q).enable = true)
    (hengine : ∀ e, engineOf (m.queue c q).cls (m.queue c q).idx = some e → (m.engine e).failed = false) (hfence : m.fenced c = false) :
    m.resumeQueue c q = m.modQueue c q fun r => { r with state := .running } := by
  refine if_pos ⟨hstate, henable, ?_, by simp [hfence]⟩
  split
  next e he => simp [hengine e he]
  next => rfl

theorem resumeQueue_refused (h : (m.queue c q).state ≠ .halted ∨ (m.queue c q).enable = false ∨
    ∃ e, engineOf (m.queue c q).cls (m.queue c q).idx = some e ∧ (m.engine e).failed = true) : m.resumeQueue c q = m := by
  refine if_neg ?_
  rintro ⟨hstate, henable, hengine, -⟩
  rcases h with h | h | ⟨e, he, hfailed⟩
  · exact h hstate
  · exact absurd henable (by simp [h])
  · rw [he] at hengine
    simp [hfailed] at hengine

/-! ### Doorbells (R351) -/

/-- Whether a doorbell may set the producer index. -/
def CeQueue.inRange (r : CeQueue) (pi : Nat) : Prop :=
  r.state ≠ .disabled ∧ (pi + 65536 - r.ci) % 65536 ≤ 2 ^ r.log2size ∧ (pi + 65536 - r.pi) % 65536 ≤ 2 ^ r.log2size

theorem doorbell_of_inRange {pi : Nat} (hfence : m.fenced c = false) (h : (m.queue c q).inRange pi) :
    m.doorbell c q pi = m.modQueue c q fun r => { r with pi := pi } := by
  obtain ⟨hstate, hci, hpi⟩ := h
  refine (if_neg (by simp [hfence])).trans (if_neg ?_)
  rintro (h | h | h)
  · exact hstate h
  · omega
  · omega

theorem doorbell_of_outside {pi : Nat} (hfence : m.fenced c = false) (h : ¬ (m.queue c q).inRange pi) :
    m.doorbell c q pi = (m.modQueue c q fun r => { r with dbErr := true }).raiseCtx 455 0 c := by
  refine (if_neg (by simp [hfence])).trans (if_pos ?_)
  simpa [CeQueue.inRange, or_iff_not_imp_left] using h

end

/-! ### The commands that write a queue's registers -/

section
variable {c : CtxId} {q : Fin 4} {f : Func} {cfg : Word} {pi : BitVec 16} {s : State}

section
variable (hreach : s.m.reaches c (funcNum f) = true) (hfence : s.m.fenced c = false)
include hreach hfence

theorem ceQueueEnable_enables (hstate : (s.m.queue c q).state = .disabled) : Completes (.ceQueueEnable c q f cfg) s fun m =>
    m.queue c q = if (s.m.modQueue c q (·.configured cfg)).mayRun c q then ((s.m.queue c q).configured cfg).started
      else ((s.m.queue c q).configured cfg).misconfigured :=
  .of_done (congrArg (done s) ((pageWrite_of_open hreach hfence _ _).trans (if_pos hstate))) (enableQueue_queue ..)

theorem ceQueueEnable_running (hstate : (s.m.queue c q).state ≠ .disabled) : Completes (.ceQueueEnable c q f cfg) s fun m => m = s.m :=
  .of_done (congrArg (done s) ((pageWrite_of_open hreach hfence _ _).trans (if_neg hstate))) rfl

theorem ceQueueDisable_disables : Completes (.ceQueueDisable c q f) s fun m => m.queue c q = { s.m.queue c q with
    enable := false, state := if (s.m.queue c q).cur.isNone then .disabled else (s.m.queue c q).state } :=
  .of_done (congrArg (done s) (pageWrite_of_open hreach hfence _ _)) (disableQueue_queue ..)

theorem ceQueueResume_resumes (hstate : (s.m.queue c q).state = .halted) (henable : (s.m.queue c q).enable = true)
    (hengine : ∀ e, engineOf (s.m.queue c q).cls (s.m.queue c q).idx = some e → (s.m.engine e).failed = false) :
    Completes (.ceQueueResume c q f) s fun m => m.queue c q = { s.m.queue c q with state := .running } :=
  .of_done (congrArg (done s) ((pageWrite_of_open hreach hfence _ _).trans (resumeQueue_of_halted hstate henable hengine hfence)))
    (modQueue_queue ..)

theorem ceQueueResume_refused (h : (s.m.queue c q).state ≠ .halted ∨ (s.m.queue c q).enable = false ∨
    ∃ e, engineOf (s.m.queue c q).cls (s.m.queue c q).idx = some e ∧ (s.m.engine e).failed = true) : Ignored (.ceQueueResume c q f) s :=
  .of_done rfl ((pageWrite_of_open hreach hfence _ _).trans (resumeQueue_refused h))

theorem ceDoorbell_sets (h : (s.m.queue c q).inRange pi.toNat) :
    Completes (.ceDoorbell c q f pi) s fun m => m.queue c q = { s.m.queue c q with pi := pi.toNat } :=
  .of_done (congrArg (done s) ((pageWrite_of_open hreach hfence _ _).trans (doorbell_of_inRange hfence h))) (modQueue_queue ..)

theorem ceDoorbell_errs (h : ¬ (s.m.queue c q).inRange pi.toNat) :
    Completes (.ceDoorbell c q f pi) s fun m => m.queue c q = { s.m.queue c q with dbErr := true } :=
  .of_done (congrArg (done s) ((pageWrite_of_open hreach hfence _ _).trans (doorbell_of_outside hfence h)))
    ((modQueue_onlyQueue s.m c q _).thenSame (raiseCtx_sameQueues _ _ _ _)).same

end

/-- A function that does not reach the page changes nothing (11 R326). -/
theorem queueWrites_ignored (h : s.m.reaches c (funcNum f) = false) : Ignored (.ceQueueEnable c q f cfg) s ∧ Ignored (.ceQueueDisable c q f) s ∧
    Ignored (.ceQueueResume c q f) s ∧ Ignored (.ceDoorbell c q f pi) s := by
  refine ⟨?_, ?_, ?_, ?_⟩ <;> exact .of_done rfl (pageWrite_of_unreached h _ _)

/-- During the context's fence each of the writes is discarded and counted (R365). -/
theorem queueWrites_discarded (hreach : s.m.reaches c (funcNum f) = true) (hfence : s.m.fenced c = true) :
    ∀ i ∈ [Instr.ceQueueEnable c q f cfg, .ceQueueDisable c q f, .ceQueueResume c q f, .ceDoorbell c q f pi],
      Completes i s fun m => m.ctx = s.m.ctx ∧ m.acc.count = satAdd32 s.m.acc.count 1 ∧ m.acc.cause = 6 := by
  simp only [List.forall_mem_cons, List.not_mem_nil, false_imp_iff, implies_true, and_true]
  refine ⟨?_, ?_, ?_, ?_⟩ <;> exact .of_done (congrArg (done s) (pageWrite_of_fenced hreach hfence _ _)) ⟨rfl, rfl, rfl⟩

end

/-! ### A command leaves its queue (R360-R362) -/

/-- A memory that differs by one write reads the bytes written there, and elsewhere what it read. -/
theorem written_of_mwrite {old new : Table Byte} {a n : Nat} {bs : List Byte} (h : new = mwrite Config.blank old a bs) (hn : bs.length = n) :
    mread Config.blank new a n = bs ∧ bytesOutside old new a n := by
  subst h hn
  exact ⟨mread_mwrite_same .., fun x hx => tget_mwrite_outside _ _ _ _ _ hx⟩

section
variable (m : Machine) (c q : Nat) (k : CeCmd)

/-- Whether a command leaves a completion record: not with NOCOMP and status 0. -/
def CeCmd.records (k : CeCmd) : Bool := !(k.opt 4 && k.status == 0)

/-- Whether a command writes a flag. -/
def CeCmd.flags (k : CeCmd) : Bool := k.opt 2 && !k.inl

/-- The completion record of a command, with the PHASE of its ring's pass. -/
def Machine.finalRecord (m : Machine) (c q : Nat) (k : CeCmd) : List Byte :=
  let rc := ceRecord k q m.ns (ceHalts k.status)
  if (m.ctxAt c).ce.cqPhase then rc.set 31 ((rc.getD 31 0) ||| 0x80) else rc

/-- The machine once the command's flag is written. -/
def Machine.flagWritten (m : Machine) (k : CeCmd) : Machine :=
  if k.opt 2 ∧ !k.inl then (m.hostWrite k.flagAddr (leBytes 8 k.flagValue)).luffStep (128 + k.engine) else m

/-- The machine once the command's record is written. -/
def Machine.recordWritten (m : Machine) (c q : Nat) (k : CeCmd) : Machine :=
  if k.records then (m.ceRecordOut c (ceRecord k q m.ns (ceHalts k.status))).luffStep (128 + k.engine) else m

/-- After the flag and the record, the completion writes no memory. -/
theorem ceFinish_keeps : Kept [.txn, .ctx, .ttl, .msix, .out] ((m.flagWritten k).recordWritten c q k) (m.ceFinish c q k) := by
  have hraise (a x : Machine) (h : Kept [.txn, .ctx, .ttl, .msix, .out] a x) : Kept [.txn, .ctx, .ttl, .msix, .out] a
      (match k.status with
        | 1 => x.raiseCtx 457 0 c
        | 2 => x.raiseCtx 458 0 c
        | 3 => x.raise 459 0
        | _ => x) := by
    split
    · exact raiseCtx_kept h _ _ _ (by decide)
    · exact raiseCtx_kept h _ _ _ (by decide)
    · exact raise_kept h _ _ (by decide)
    · exact h
  have htell (x : Machine) : Kept [.txn, .ctx, .ttl, .msix, .out] x (if (k.records && k.opt 3) = true then x.ctxInterrupt c 1 else x) :=
    .ite (ctxInterrupt_kept .refl c 1 (by decide) (by decide)) .refl
  exact modQueue_kept (orphanTxns_kept (hraise _ _ (htell ((m.flagWritten k).recordWritten c q k))) c q (by decide)) c q (·.finished k) (by decide)

theorem flagWritten_hostMem : (m.flagWritten k).hostMem =
    if k.flags then mwrite Config.blank m.hostMem k.flagAddr (leBytes 8 k.flagValue) else m.hostMem := by
  simp only [Machine.flagWritten, CeCmd.flags, Bool.and_eq_true]
  split <;> rfl

theorem recordWritten_hostMem : (m.recordWritten c q k).hostMem =
    if k.records then mwrite Config.blank m.hostMem (m.ceSlot c) (m.finalRecord c q k) else m.hostMem := by
  unfold Machine.recordWritten
  split <;> rfl

theorem flagWritten_ring : (m.flagWritten k).ceSlot c = m.ceSlot c ∧ (m.flagWritten k).finalRecord c q k = m.finalRecord c q k := by
  unfold Machine.flagWritten
  split <;> exact ⟨rfl, rfl⟩

theorem finalRecord_length : (m.finalRecord c q k).length = 32 := by
  have hrecord (halted : Bool) : (ceRecord k q m.ns halted).length = 32 := by simp [ceRecord, leBytes_length]
  unfold Machine.finalRecord
  dsimp only
  split
  · rw [List.length_set, hrecord]
  · exact hrecord _

/-- Host memory after a completion: the flag, then the record. -/
theorem ceFinish_hostMem : (m.ceFinish c q k).hostMem =
    if k.records then mwrite Config.blank (m.flagWritten k).hostMem (m.ceSlot c) (m.finalRecord c q k) else (m.flagWritten k).hostMem := by
  obtain ⟨hslot, hrecord⟩ := flagWritten_ring m c q k
  rw [(ceFinish_keeps m c q k).hostMem (by decide), recordWritten_hostMem, hslot, hrecord]

variable {m c q k}

/-- A command has left its queue where the queue and host memory are as the completion leaves them. -/
theorem ceEnded_of_finish {a : Machine} (hqueue : a.queue c q = (m.queue c q).finished k) (hmem : a.hostMem = (m.ceFinish c q k).hostMem) :
    m.ceEnded a c q k := by
  rw [ceFinish_hostMem] at hmem
  have hflag (old : Table Byte) := written_of_mwrite (old := old) (a := k.flagAddr) rfl (leBytes_length 8 k.flagValue)
  have hrecord (old : Table Byte) := written_of_mwrite (old := old) (a := m.ceSlot c) rfl (finalRecord_length m c q k)
  refine ⟨?_, ?_, ?_, ?_, ?_, ?_, ?_, ?_⟩
  iterate 5 rw [hqueue]; rfl
  · intro hrecords
    rw [Machine.hostRead, hmem, if_pos (show k.records = true from hrecords)]
    exact (hrecord _).left
  · intro hopt hinl hquiet hstatus
    rw [Machine.hostRead, hmem, if_neg (by simp [CeCmd.records, hquiet, hstatus]), flagWritten_hostMem, if_pos (by simp [CeCmd.flags, hopt, hinl])]
    exact (hflag _).left
  · intro x hxrecord hxflag
    have hflagged : tget Config.blank (m.flagWritten k).hostMem x = tget Config.blank m.hostMem x := by
      rw [flagWritten_hostMem]
      split
      next hflags => exact (hflag _).right x (hxflag.resolve_left (show ¬ k.flags = false by simp [hflags]))
      next => rfl
    rw [hmem, ← hflagged]
    split
    next hrecords =>
      exact (hrecord _).right x (hxrecord.resolve_left (by simpa only [CeCmd.records, Bool.not_eq_true', Bool.not_eq_true] using hrecords))
    next => rfl

variable (m c q k)

theorem ceFinish_ends : m.ceEnded (m.ceFinish c q k) c q k := ceEnded_of_finish (ceFinish_onlyQueue m c q k).same rfl

end

/-! ### Fetches and failed host reads (R352, R356; 11 R346) -/

/-- The bytes of the command at a queue's consumer index. -/
def Machine.nextBytes (m : Machine) (c q : Nat) : List Byte :=
  m.hostRead ((m.queue c q).base.toNat + (m.queue c q).ci % 2 ^ (m.queue c q).log2size * 256) 256

/-- The status that the check gives to the command at a queue's consumer index. -/
def Machine.nextStatus (m : Machine) (c q e : Nat) : Nat := m.checkCmd c (engineClass e) (.ofBytes (m.nextBytes c q))

section
variable {c : CtxId} {q : Fin 4} {host : Cells} {e : Nat} {k : CeCmd} {s : State}

theorem ceCommandFetch_takes (h : (s.m.hostStores host).fetchable c q = some e) : exec (.ceCommandFetch c q host) s = done s
    (((s.m.hostStores host).refuseSend c (.ofBytes ((s.m.hostStores host).nextBytes c q)) ((s.m.hostStores host).nextStatus c q e)).takeCommand
      c q e ((s.m.hostStores host).nextBytes c q) ((s.m.hostStores host).nextStatus c q e)) := by
  change execCeCommandFetch c q host s = _
  simp only [execCeCommandFetch, h]
  rfl

theorem ceCommandFetch_waits (h : (s.m.hostStores host).fetchable c q = none) : exec (.ceCommandFetch c q host) s =
    done s (s.m.hostStores host) := by
  change execCeCommandFetch c q host s = _
  simp only [execCeCommandFetch, h]

theorem ceCommandFetch_fetches (h : (s.m.hostStores host).fetchable c q = some e) : Completes (.ceCommandFetch c q host) s fun m =>
    (m.queue c q).ci = ((s.m.queue c q).ci + 1) % 65536 ∧ ∃ k, (m.queue c q).cur = some k ∧ k.index = (s.m.queue c q).ci ∧ k.engine = e ∧
      k.bytes = (s.m.hostStores host).nextBytes c q ∧ k.status = (s.m.hostStores host).checkCmd c (engineClass e) (.ofBytes k.bytes) ∧
      k.started = false ∧ k.sent = (k.status != 0) ∧ m.hostMem = (s.m.hostStores host).hostMem := by
  have hrefused := refuseSend_kept (W := [.strm]) (.refl (m := s.m.hostStores host)) c (.ofBytes ((s.m.hostStores host).nextBytes c q))
    ((s.m.hostStores host).nextStatus c q e) (by decide)
  refine .of_done (ceCommandFetch_takes h) ?_
  rw [Machine.takeCommand, modQueue_queue, hrefused.queue (by decide), hostStores_queue]
  exact ⟨rfl, _, rfl, rfl, rfl, rfl, rfl, rfl, rfl, hrefused.hostMem (by decide)⟩

theorem hostReadTimeout_eq (r : HostRead) (s : State) : exec (.hostReadTimeout r) s = execHostReadTimeout r s := rfl

/-- A fetch that fails takes a command of zeros that has ended with HOST_ERR. -/
theorem fetchTimeout_takes (h : s.m.fetchable c q = some e) : Completes (.hostReadTimeout (.fetch c q)) s fun m =>
    (m.queue c q).ci = ((s.m.queue c q).ci + 1) % 65536 ∧
    (m.queue c q).cur.map (fun k => (k.index, k.status, k.sent)) = some ((s.m.queue c q).ci, 3, true) := by
  refine .of_done (m := (s.m.takeCommand c q e (List.replicate 256 0) 3).raise (srcHst 0 2) 0) ?_ ?_
  · simp only [hostReadTimeout_eq, execHostReadTimeout, h]
  · rw [(raise_sameQueues _ _ _).queue, Machine.takeCommand, modQueue_queue]
    exact ⟨rfl, rfl⟩

theorem fetchTimeout_ignored (h : s.m.fetchable c q = none) : Ignored (.hostReadTimeout (.fetch c q)) s :=
  .of_done (m := s.m) (by simp only [hostReadTimeout_eq, execHostReadTimeout, h]) rfl

theorem segmentTimeout_of_idle (h : (s.m.queue c q).cur = none) : Ignored (.hostReadTimeout (.segment c q)) s :=
  .of_done (m := s.m) (by simp only [hostReadTimeout_eq, execHostReadTimeout, h]) rfl

theorem flushTimeout_of_idle (h : (s.m.queue c q).cur = none) : Ignored (.hostReadTimeout (.flush c q)) s :=
  .of_done (m := s.m) (by simp only [hostReadTimeout_eq, execHostReadTimeout, h]) rfl

/-- A segment whose host read fails ends its command with HOST_ERR. -/
theorem segmentTimeout_stops (hcur : (s.m.queue c q).cur = some k) (hop : k.op = 1) (hinl : k.inl = false)
    (hclass : engineClass k.engine = 1) (hsent : k.sent = false) : Completes (.hostReadTimeout (.segment c q)) s fun m =>
      (m.queue c q).cur = some { k with status := 3, failAt := none, sent := true } := by
  refine .of_done (m := (s.m.ceStop c q 3).raise (srcHst (if s.m.onH1 c k.engine && !(s.m.coherent c) then 1 else 0) 2)
    (if s.m.onH1 c k.engine && !(s.m.coherent c) then 1 else 0)) ?_ ?_
  · simp only [hostReadTimeout_eq, execHostReadTimeout, hcur]
    exact congrArg (done s) (if_pos ⟨hop, by simp [hinl], hclass, by simp [hsent]⟩)
  · exact ((raise_sameQueues _ _ _).cur c q).trans (ceStop_cur _ _ _ hcur 3)

/-- A flush whose host read fails completes its command with HOST_ERR. -/
theorem flushTimeout_ends (hcur : (s.m.queue c q).cur = some k) (hflush : k.flushing = true) (hfence : s.m.fenced c = false) :
    Completes (.hostReadTimeout (.flush c q)) s fun m => s.m.ceEnded m c q { k with status := 3, flushing := false } := by
  refine .of_done (m := (s.m.ceFinish c q { k with status := 3, flushing := false }).raise
    (srcHst (((s.m.queue c q).flushSet k).headD 0) 2) (((s.m.queue c q).flushSet k).headD 0)) ?_ ?_
  · simp only [hostReadTimeout_eq, execHostReadTimeout, hcur]
    exact congrArg (done s) (if_pos ⟨hflush, by simp [hfence]⟩)
  · exact ceEnded_of_finish ((ceFinish_onlyQueue ..).thenSame (raise_sameQueues _ _ _)).same
      ((raise_kept (W := [.ttl]) .refl _ _ (by decide)).hostMem (by decide))

end

/-- Settles O42: each write of a queue's registers changes that queue alone, and only for a function that reaches the page outside the fence; a
fetch and a failed host read write the command in progress or complete it. -/
theorem copyQueuesDoorbellsAndFetches : Obligations.CopyQueuesDoorbellsAndFetches := by
  unfold Obligations.CopyQueuesDoorbellsAndFetches
  refine ⟨?enable, ?enabled, ?disable, ?resume, ?noResume, ?doorbell, ?unreached, ?fetch, ?noFetch, ?timeouts⟩
  case enable =>
    intro c q f g s hreach hfence hstate
    have henable := ceQueueEnable_enables (cfg := g) hreach hfence hstate
    have hmay := configured_mayRun_iff s.m c q g
    refine ⟨fun e he hengine hlow hhigh hbase hsize => ?_, fun hbad => ?_⟩
    · rw [if_pos (hmay.mpr ⟨⟨e, he, hengine⟩, hlow, hhigh, hbase, hsize⟩)] at henable
      exact henable
    · rw [if_neg (mt hmay.mp ?_)] at henable
      · exact henable
      · rintro ⟨⟨e, he, hengine⟩, hlow, hhigh, hbase, hsize⟩
        rcases hbad with h | h | h | h | h | ⟨e', he', h⟩
        · exact Option.some_ne_none e (he.symm.trans h)
        · omega
        · omega
        · exact h hbase
        · exact hsize h
        · obtain rfl : e = e' := Option.some.inj (he.symm.trans he')
          exact Bool.false_ne_true (hengine.symm.trans h)
  case enabled => exact fun c q f g s hreach hfence => ceQueueEnable_running hreach hfence
  case disable => exact fun c q f s hreach hfence => ceQueueDisable_disables hreach hfence
  case resume => exact fun c q f s hreach hfence => ceQueueResume_resumes hreach hfence
  case noResume => exact fun c q f s h hreach hfence => ceQueueResume_refused hreach hfence h
  case doorbell =>
    refine fun c q f pi s hreach hfence => ⟨fun hstate hci hpi => ceDoorbell_sets hreach hfence ⟨hstate, hci, hpi⟩, fun h =>
      ceDoorbell_errs hreach hfence ?_⟩
    rintro ⟨hstate, hci, hpi⟩
    rcases h with h | h | h
    · exact hstate h
    · omega
    · omega
  case unreached => exact fun c q f g pi s => ⟨queueWrites_ignored, queueWrites_discarded⟩
  case fetch =>
    rintro c q h e r s hfetch rfl
    exact ceCommandFetch_fetches hfetch
  case noFetch => exact fun c q h s hfetch => .of_done (ceCommandFetch_waits hfetch) rfl
  case timeouts =>
    exact fun c q s => ⟨fun e => fetchTimeout_takes, fun k => segmentTimeout_stops, fun k => flushTimeout_ends, fetchTimeout_ignored,
      fun h => ⟨segmentTimeout_of_idle h, flushTimeout_of_idle h⟩⟩

end Sys2Proof.Machine

/-! ## Copy engines: segments of COPY and FILL, messages, requests (11 R338; 12 R348, R355, R357-R359, R361, R363; 07 R225, R238) -/

namespace Sys2Proof.Machine

/-! ### Reads of a command in progress -/

section
variable (m : Machine) (c q : Nat)

theorem meter_sameQueues (x : Nat) (f : Meters → Meters) : SameQueues m (m.meter x f) := by
  refine ⟨fun y k => ?_, fun y => ?_⟩
  · rw [Machine.queue, meter_ctxAt]
    split
    next h => rw [h]; rfl
    next => rfl
  · rw [Machine.fenced, meter_ctxAt]
    split
    next h => rw [h]; rfl
    next => rfl

theorem modEngine_sameQueues (e : Nat) (f : CeEng → CeEng) : SameQueues m (m.modEngine e f) := ⟨fun _ _ => rfl, fun _ => rfl⟩

theorem ceBytes_sameQueues (e n : Nat) : SameQueues m (m.ceBytes c e n) := (meter_sameQueues m c _).trans (modEngine_sameQueues _ _ _)

theorem ceCharge_sameQueues (e n : Nat) : SameQueues m (m.ceCharge c e n) := (ceBytes_sameQueues m c e n).trans (luffStep_sameQueues _ _)

theorem ceInject_sameQueues (k : CeCmd) (type txn gen opx : Nat) (payload : List Byte) :
    SameQueues m (m.ceInject c k type txn gen opx payload) := by
  unfold Machine.ceInject Machine.meterLink
  exact (SameQueues.of_kept (inject_keeps ..) (by decide)).trans (meter_sameQueues _ _ _)

theorem modQueue_cur {f : CeQueue → CeQueue} (hf : ∀ r, (f r).cur = r.cur) : ((m.modQueue c q f).queue c q).cur = (m.queue c q).cur :=
  (congrArg CeQueue.cur (modQueue_queue m c q f)).trans (hf _)

/-- A data write to host memory notes its address alone in the command (11 R338). -/
theorem ceHostWrite_cur {k : CeCmd} (hcur : (m.queue c q).cur = some k) (e x : Nat) (bs : List Byte) :
    ∃ h0 h1, ((m.ceHostWrite c q e x bs).queue c q).cur = some { k with h0Last := h0, h1Last := h1 } := by
  have hwrite := (hostWrite_sameQueues m x bs).cur c q
  have hnote : ∀ h1 : Bool, ∃ h0' h1', (if h1 then { k with h1Last := some x } else { k with h0Last := some x }) =
      { k with h0Last := h0', h1Last := h1' } := by
    intro h1
    cases h1 <;> exact ⟨_, _, rfl⟩
  unfold Machine.ceHostWrite
  dsimp only
  split
  · exact ⟨k.h0Last, k.h1Last, hwrite.trans hcur⟩
  · obtain ⟨h0', h1', h⟩ := hnote (m.onH1 c e)
    have hnoted := modCmd_cur (m.hostWrite x bs) c q fun k => if m.onH1 c e then { k with h1Last := some x } else { k with h0Last := some x }
    rw [hwrite, hcur, Option.map_some, h] at hnoted
    refine ⟨h0', h1', Eq.trans ?_ hnoted⟩
    exact modQueue_cur _ c q fun r => by split <;> rfl

end

/-! ### Segments of COPY and FILL (R348, R355, R357) -/

section
variable (m : Machine) (c q e : Nat) (k : CeCmd)

/-- The machine once the data of a segment is at its destination. -/
def Machine.segPut (m : Machine) (c q e : Nat) (k : CeCmd) : Machine :=
  if engineClass e != 2 then m.hbmWrite (k.dst + k.pos) (m.segData e k) else m.ceHostWrite c q e (k.dst + k.pos) (m.segData e k)

/-- A command that has moved n more bytes. -/
def CeCmd.advanced (k : CeCmd) (n : Nat) : CeCmd :=
  { k with pos := k.pos + n, moved := k.moved + n, sent := decide (k.len ≤ k.pos + n) }

theorem moveSegment_eq : ∃ n, m.moveSegment c q e k =
    if k.segLen = 0 then m.modCmd c q fun k => { k with sent := true }
    else if m.segStatus c e k ≠ 0 then m.ceStop c q (m.segStatus c e k)
    else (((m.segPut c q e k).meterHbm c n).ceCharge c e k.segLen).modCmd c q (·.advanced k.segLen) := by
  unfold Machine.moveSegment
  extract_lets cls fill src dst n devSrc devDst st data put metered
  have hn : n = k.segLen := by simp [n, CeCmd.segLen, fill, dst, src]
  have hst : st = m.segStatus c e k := by simp [st, devSrc, devDst, Machine.segStatus, fill, hn, cls, dst, src, and_assoc]
  have hdata : data = m.segData e k := by simp [data, Machine.segData, fill, hn, cls, src]
  have hput : put = m.segPut c q e k := by simp only [put, hdata]; rfl
  rw [hn, hst]
  exact ⟨(if devSrc then n else 0) + if devDst then n else 0, by rw [← hput]; rfl⟩

/-- An inline COPY holds the data of its next segment (R356). -/
def CeCmd.HoldsSegment (k : CeCmd) : Prop := k.op ≠ 2 → k.inl = true → k.pos + k.segLen ≤ k.inlineData.length

theorem segData_length (h : k.HoldsSegment) : (m.segData e k).length = k.segLen := by
  unfold Machine.segData
  split
  next => simp [fillBytes]
  next hop =>
    split
    next hinl =>
      have hlen := h hop hinl
      rw [List.length_take, List.length_drop]
      omega
    next => split <;> exact mread_length ..

variable {m c q e k}

theorem segPut_cur (hcur : (m.queue c q).cur = some k) :
    ∃ h0 h1, ((m.segPut c q e k).queue c q).cur = some { k with h0Last := h0, h1Last := h1 } := by
  unfold Machine.segPut
  split
  · exact ⟨k.h0Last, k.h1Last, ((SameQueues.of_kept (W := [.hbm]) (hbmWrite_kept .refl _ _ (by decide)) (by decide)).cur c q).trans hcur⟩
  · exact ceHostWrite_cur m c q hcur ..

theorem ceHostWrite_hostMem (x : Nat) (bs : List Byte) : (m.ceHostWrite c q e x bs).hostMem = mwrite Config.blank m.hostMem x bs := by
  unfold Machine.ceHostWrite
  dsimp only
  split
  · rfl
  · split <;> rfl

theorem ceHostWrite_hbm (x : Nat) (bs : List Byte) : (m.ceHostWrite c q e x bs).hbm = m.hbm :=
  (ceHostWrite_kept (W := [.ctx, .hostMem]) .refl _ _ _ _ _ (by decide) (by decide)).hbm (by decide)

/-- A segment moves its bytes, or ends its command with the status of its ranges (R355, R357). -/
theorem moveSegment_serves (hcur : (m.queue c q).cur = some k) (hstarted : k.started = true) (hlen : k.segLen ≠ 0) (hdata : k.HoldsSegment) :
    m.segServed (m.moveSegment c q e k) c q e k := by
  obtain ⟨n, hmove⟩ := moveSegment_eq m c q e k
  rw [if_neg hlen] at hmove
  refine ⟨fun hst => ?_, fun hst => ?_⟩
  · rw [if_neg (not_not.mpr hst)] at hmove
    have hafter : Kept [.luff, .ctx, .eng] (m.segPut c q e k) (m.moveSegment c q e k) := by
      rw [hmove]
      refine modCmd_kept (ceCharge_kept (meterHbm_kept .refl c n ?_) c e _ ?_ ?_ ?_) c q _ ?_ <;> decide
    have hsize := segData_length m e k hdata
    refine ⟨fun hclass => ?_, fun hclass => ?_, ?_⟩
    · have hput : m.segPut c q e k = m.ceHostWrite c q e (k.dst + k.pos) (m.segData e k) := if_neg (by simp [hclass])
      obtain ⟨hread, houtside⟩ := written_of_mwrite
        ((hafter.hostMem (by decide)).trans ((congrArg Machine.hostMem hput).trans (ceHostWrite_hostMem ..))) hsize
      exact ⟨hread, houtside, by rw [hafter.hbm (by decide), hput, ceHostWrite_hbm]⟩
    · have hput : m.segPut c q e k = m.hbmWrite (k.dst + k.pos) (m.segData e k) := if_pos (by simp [hclass])
      obtain ⟨hread, houtside⟩ := written_of_mwrite (congrArg Hbm.bytes ((hafter.hbm (by decide)).trans (congrArg Machine.hbm hput))) hsize
      exact ⟨hread, houtside, by rw [hafter.hostMem (by decide), hput]; rfl⟩
    · obtain ⟨h0, h1, hput⟩ := segPut_cur (e := e) hcur
      have hcharge := ((meter_sameQueues (m.segPut c q e k) c _).trans (ceCharge_sameQueues ((m.segPut c q e k).meterHbm c n) c e k.segLen)).cur c q
      rw [hmove, modCmd_cur, hcharge, hput]
      exact congrArg (fun b => some (k.pos + k.segLen, k.moved + k.segLen, decide (k.len ≤ k.pos + k.segLen), b)) hstarted
  · rw [if_pos hst] at hmove
    have hstop : Kept [.ctx] m (m.moveSegment c q e k) := by
      rw [hmove]
      exact ceStop_kept .refl _ _ _ (by decide)
    refine ⟨hstop.hbm (by decide), hstop.hostMem (by decide), ?_⟩
    rw [hmove, ceStop_cur _ _ _ hcur]
    simp [hstarted]

end

/-! ### A segment is served (R348, R361) -/

/-- A command whose clock runs from an instant on, unless it ran already. -/
def CeCmd.begun (k : CeCmd) (t : DWord) : CeCmd := if k.started then k else { k with started := true, startAt := t }

theorem begun_eq (k : CeCmd) (t : DWord) : k.begun t = { k with started := true, startAt := if k.started then k.startAt else t } := by
  unfold CeCmd.begun
  split
  next h => rw [← h]
  next => rfl

/-- The machine once an engine has turned to a queue, before its segment. -/
def Machine.segStarted (m : Machine) (c q e : Nat) : Machine :=
  let m := m.modCmd c q (·.begun m.time.now)
  let m := m.modEngine e fun r => { r with lastPart := m.ctxPart c, lastCtx := tset 63 r.lastCtx (m.ctxPart c) c }
  m.modCtx c fun r => { r with ce := { r.ce with lastQ := q } }

/-- A machine that differs in the queues, the meters and the engines alone: a context sends from it as from the other. -/
structure SendsAlike (m a : Machine) (c : Nat) : Prop where
  kept : Kept [.ctx, .eng] m a
  tag : (a.ctxAt c).base.tag = (m.ctxAt c).base.tag
  gen : (a.ctxAt c).rst.gen = (m.ctxAt c).rst.gen

section
variable {m a : Machine} {c q e : Nat} {k : CeCmd}

theorem segStarted_cur (hcur : (m.queue c q).cur = some k) : ((m.segStarted c q e).queue c q).cur = some (k.begun m.time.now) := by
  unfold Machine.segStarted
  extract_lets x y
  have hturn : SameQueues x (y.modCtx c fun r => { r with ce := { r.ce with lastQ := q } }) :=
    (modEngine_sameQueues x e _).trans (modCtx_sameQueues y c (fun _ => rfl) (fun _ => rfl) (fun _ => rfl))
  rw [hturn.cur, modCmd_cur, hcur]
  rfl

theorem segStarted_sendsAlike : SendsAlike m (m.segStarted c q e) c := by
  refine ⟨?_, ?_, ?_⟩
  · unfold Machine.segStarted
    exact modCtx_kept (modEngine_kept (modCmd_kept .refl c q _ (by decide)) e _ (by decide)) c _ (by decide)
  all_goals
    simp [Machine.segStarted, Machine.modCmd, Machine.modQueue]

theorem serveSegment_eq (hcur : (m.queue c q).cur = some k) : m.serveSegment c q e =
    if k.op = 1 ∨ k.op = 2 then (m.segStarted c q e).moveSegment c q e (k.begun m.time.now)
    else if k.op = 4 then (m.segStarted c q e).msgSegment c q e (k.begun m.time.now)
    else (m.segStarted c q e).reqSegment c q e (k.begun m.time.now) := by
  have hop : (k.begun m.time.now).op = k.op := by rw [begun_eq]; rfl
  rw [← hop]
  change (match ((m.segStarted c q e).queue c q).cur with
    | none => _
    | some k => _) = _
  rw [segStarted_cur hcur]
  rfl

end

/-! ### What a context sends is the same from both machines -/

section
variable {W : List Area} {m a : Machine} {c : Nat}

theorem Kept.node (h : Kept W m a) (hw : Area.hly ∉ W) : a.node = m.node := congrArg (fun x : Hly => x.reg.nodeId.setWidth 16) (h.hly hw)

theorem Kept.lineStatus (h : Kept W m a) (hw : Area.hbm ∉ W) (c x n : Nat) : a.lineStatus c x n = m.lineStatus c x n := by
  have hpage : a.pageAt = m.pageAt := funext (h.pageAt hw)
  unfold Machine.lineStatus Machine.ownsRange Machine.owns
  rw [hpage]

theorem Kept.hbmRead (h : Kept W m a) (hw : Area.hbm ∉ W) (x n : Nat) : a.hbmRead x n = m.hbmRead x n :=
  congrArg (fun b : Hbm => mread Config.blank b.bytes x n) (h.hbm hw)

theorem Kept.hostRead (h : Kept W m a) (hw : Area.hostMem ∉ W) (x n : Nat) : a.hostRead x n = m.hostRead x n :=
  congrArg (fun t => mread Config.blank t x n) (h.hostMem hw)

theorem Kept.segStatus (h : Kept W m a) (hw : Area.hbm ∉ W) (c e : Nat) (k : CeCmd) : a.segStatus c e k = m.segStatus c e k := by
  rw [Machine.segStatus, h.lineStatus hw, h.lineStatus hw]
  rfl

theorem Kept.segData (h : Kept W m a) (hhbm : Area.hbm ∉ W) (hhost : Area.hostMem ∉ W) (e : Nat) (k : CeCmd) :
    a.segData e k = m.segData e k := by
  rw [Machine.segData, h.hostRead hhost, h.hbmRead hhbm]
  rfl

theorem Kept.segServed (h : Kept W m a) (hhbm : Area.hbm ∉ W) (hhost : Area.hostMem ∉ W) {m' : Machine} {q e : Nat} {k : CeCmd}
    (hserved : a.segServed m' c q e k) : m.segServed m' c q e k := by
  unfold Machine.segServed at hserved
  rwa [h.segStatus hhbm, h.segData hhbm hhost, h.hbm hhbm, h.hostMem hhost] at hserved

theorem SendsAlike.sendStatus (h : SendsAlike m a c) (k : CeCmd) : a.sendStatus c k = m.sendStatus c k := by
  have hbank : a.activeBank = m.activeBank :=
    congrArg (fun x : Hly => if x.reg.epoch.toNat % 2 = 0 then x.bank0 else x.bank1) (h.kept.hly (by decide))
  unfold Machine.sendStatus Machine.canSend Machine.twoDie
  rw [h.kept.strmAt (by decide), h.kept.node (by decide), h.kept.fuse (by decide), hbank, h.tag]

theorem SendsAlike.reqLen (h : SendsAlike m a c) (k : CeCmd) : a.reqLen k = m.reqLen k := by
  rw [Machine.reqLen, h.kept.node (by decide)]
  rfl

theorem SendsAlike.freeTxn (h : SendsAlike m a c) : a.freeTxn c = m.freeTxn c := by
  simp only [Machine.freeTxn, Machine.ctxPart, Machine.shareStart, Machine.parts, h.kept.part (by decide), h.kept.txn (by decide)]

theorem SendsAlike.ceFrame (h : SendsAlike m a c) (k : CeCmd) (type txn gen opx : Nat) (payload : List Byte) :
    a.ceFrame c k type txn gen opx payload = m.ceFrame c k type txn gen opx payload := by
  simp only [Machine.ceFrame, h.kept.node (by decide), h.kept.time (by decide), h.kept.hly (by decide), h.kept.txSeq (by decide), h.tag]

theorem SendsAlike.ceSent (h : SendsAlike m a c) {m' : Machine} {k : CeCmd} {f : Frame} (hsent : a.ceSent m' k f) : m.ceSent m' k f := by
  have hdie : a.ceDie k = m.ceDie k := by rw [Machine.ceDie, h.kept.node (by decide)]; rfl
  rwa [Machine.ceSent, hdie, h.kept.fwdAt (by decide), h.kept.time (by decide)] at hsent

theorem SendsAlike.reqIssued (h : SendsAlike m a c) {m' : Machine} {q t remote : Nat} {k : CeCmd} {data : List Byte}
    (hissued : a.reqIssued m' c q k t remote data) : m.reqIssued m' c q k t remote data := by
  obtain ⟨htxn, hsent, hcur⟩ := hissued
  rw [h.gen, h.kept.time (by decide), h.reqLen] at htxn
  rw [h.gen, h.reqLen, h.ceFrame] at hsent
  rw [h.reqLen] at hcur
  exact ⟨htxn, h.ceSent hsent, hcur⟩

end

/-! ### Frames of a command (R358, R359; 07 R213, R225) -/

/-- Fields at bit 4 and above leave the four bits below. -/
theorem foldl_pack_mod {l : List (Nat × Nat)} (h : ∀ f ∈ l, 4 ≤ f.1) (a : Nat) : l.foldl (fun a f => a + f.2 * 2 ^ f.1) a % 16 = a % 16 := by
  induction l generalizing a with
  | nil => rfl
  | cons f l ih =>
    have hfield : 16 ∣ f.2 * 2 ^ f.1 := Dvd.dvd.mul_left (pow_dvd_pow 2 (h f List.mem_cons_self)) f.2
    rw [List.foldl_cons, ih fun g hg => h g (List.mem_cons_of_mem f hg)]
    omega

theorem frType_mkHdr {type : Nat} (h : type < 16) (epoch : Nat) (last : Bool) (dst src : NodeId) (tag stream seq txn gen len opx : Nat)
    (payload : List Byte) : frType { hdr := mkHdr type epoch last dst src tag stream seq txn gen len opx, payload := payload } = type := by
  have hmod (n : Nat) : bits (BitVec.ofNat 128 n) 0 4 = n % 16 := by
    rw [bits, BitVec.toNat_ofNat, pow_zero, Nat.div_one]
    exact Nat.mod_mod_of_dvd n (by decide)
  rw [frType, mkHdr, hmod, pack, List.foldl_cons, foldl_pack_mod (by simp)]
  dsimp only
  omega

section
variable (m : Machine) (c q e : Nat) (k : CeCmd)

theorem ceInject_sent {type : Nat} (hlow : 2 ≤ type) (hhigh : type < 16) (txn gen opx : Nat) (payload : List Byte) :
    m.ceSent (m.ceInject c k type txn gen opx payload) k (m.ceFrame c k type txn gen opx payload) := by
  have hcounted : decide (2 ≤ type) = true := decide_eq_true hlow
  have hmeter (x : Machine) (n : Nat) : Kept [.ctx] x (x.meterLink c n) := meterLink_kept .refl c n (by decide)
  unfold Machine.ceSent Machine.ceInject
  rw [(hmeter _ _).fwdAt (by decide), Machine.ceFrame, frType_mkHdr hhigh, Machine.inject]
  simp only [hcounted, if_true, modFwd_fwdAt, Machine.ceDie]
  rfl

variable {m c q e k}

/-- The one segment of MSG sends its frame, unless its stream or its source is refused (R358). -/
theorem msgSegment_sends (hcur : (m.queue c q).cur = some k) (hsend : m.sendStatus c k = 0)
    (hline : k.inl = true ∨ k.len = 0 ∨ m.lineStatus c k.src k.len = 0) :
    m.ceSent (m.msgSegment c q e k) k (m.ceFrame c k 4 0 0 0 (if k.inl then k.inlineData else m.hbmRead k.src k.len)) ∧
    ((m.msgSegment c q e k).queue c q).cur = some { k with pos := k.len, moved := k.len, sent := true } := by
  have hzero : (if k.inl ∨ k.len = 0 then 0 else m.lineStatus c k.src k.len) = 0 := by
    split
    next => rfl
    next h => exact (hline.resolve_left (h ∘ .inl)).resolve_left (h ∘ .inr)
  have hmsg : m.msgSegment c q e k = (((m.meterHbm c (if k.inl then 0 else k.len)).ceInject c k 4 0 0 0
      (if k.inl then k.inlineData else m.hbmRead k.src k.len)).ceCharge c e k.len).modCmd c q
        fun k => { k with pos := k.len, moved := k.len, sent := true } :=
    (if_neg (not_not.mpr hsend)).trans (if_neg (not_not.mpr hzero))
  generalize (if k.inl then k.inlineData else m.hbmRead k.src k.len) = data at *
  generalize hmetered : m.meterHbm c (if k.inl then 0 else k.len) = a at *
  have halike : SendsAlike m a c := by
    subst hmetered
    exact ⟨meterHbm_kept .refl _ _ (by decide), by simp [Machine.meterHbm], by simp [Machine.meterHbm]⟩
  have hafter : Kept [.luff, .ctx, .eng] (a.ceInject c k 4 0 0 0 data) (m.msgSegment c q e k) := by
    rw [hmsg]
    refine modCmd_kept (ceCharge_kept .refl c e _ ?_ ?_ ?_) c q _ ?_ <;> decide
  refine ⟨?_, ?_⟩
  · have hsent := halike.ceSent (ceInject_sent a c k (type := 4) (by decide) (by decide) 0 0 0 data)
    rw [halike.ceFrame] at hsent
    exact (congrArg FwdRec.rx (hafter.fwdAt (by decide) _)).trans hsent
  · have hmeter : SameQueues m a := by
      rw [← hmetered]
      exact meter_sameQueues m c _
    have hqueues : SameQueues m ((a.ceInject c k 4 0 0 0 data).ceCharge c e k.len) :=
      (hmeter.trans (ceInject_sameQueues ..)).trans (ceCharge_sameQueues ..)
    rw [hmsg, modCmd_cur, hqueues.cur, hcur]
    rfl

/-- A send that its stream or the routes refuse ends the command and counts as dropped (R318, R357). -/
theorem msgSegment_refused (hsend : m.sendStatus c k ≠ 0) :
    m.msgSegment c q e k = (m.modStrm k.stream StreamRec.dropOut).ceStop c q (m.sendStatus c k) := if_pos hsend

theorem msgSegment_stopped (hsend : m.sendStatus c k = 0) (hinl : k.inl = false) (hlen : k.len ≠ 0) (hline : m.lineStatus c k.src k.len ≠ 0) :
    m.msgSegment c q e k = m.ceStop c q (m.lineStatus c k.src k.len) := by
  have hstatus : (if k.inl ∨ k.len = 0 then 0 else m.lineStatus c k.src k.len) = m.lineStatus c k.src k.len := if_neg (by simp [hinl, hlen])
  exact (if_neg (not_not.mpr hsend)).trans ((if_pos (hstatus.trans_ne hline)).trans (congrArg (m.ceStop c q) hstatus))

/-- Where a command's next REQ goes. -/
def CeCmd.remote (k : CeCmd) : Nat := (if k.op = 6 then k.src else k.dst) + if k.op = 7 ∨ k.op = 8 then 0 else k.pos

/-- What a command's next REQ carries. -/
def Machine.reqData (m : Machine) (k : CeCmd) : List Byte :=
  if k.op = 5 then (if k.inl then (k.inlineData.drop k.pos).take (m.reqLen k) else m.hbmRead (k.src + k.pos) (m.reqLen k))
  else if k.op = 7 then leBytes 8 k.operand else []

/-- The record of a command's next REQ. -/
def Machine.reqRecord (m : Machine) (c q : Nat) (k : CeCmd) : TxnRec :=
  { orphan := false, ctx := c, queue := q, stream := k.stream, gen := (m.ctxAt c).rst.gen, at_ := m.time.now, op := k.op, dst := k.node
    off := k.pos, len := m.reqLen k }

/-- The machine once a command's next REQ has its transaction tag. -/
def Machine.reqTagged (m : Machine) (c q : Nat) (k : CeCmd) (t : Nat) : Machine := { m with txn := tset none m.txn t (some (m.reqRecord c q k)) }

/-- A command with one more REQ outstanding. -/
def CeCmd.requested (k : CeCmd) (n whole : Nat) : CeCmd :=
  { k with pos := k.pos + n, sent := decide (whole ≤ k.pos + n), outstanding := k.outstanding + 1 }

theorem reqSegment_eq {t : Nat} (hsend : m.sendStatus c k = 0)
    (hline : k.op = 5 → k.inl = false → m.lineStatus c (k.src + k.pos) (m.reqLen k) = 0) (htxn : m.freeTxn c = some t) :
    ∃ x y whole, m.reqSegment c q e k = ((((m.reqTagged c q k t).ceInject c k 5 t (m.ctxAt c).rst.gen (k.op - 4)
      (leBytes 8 (pack [(0, k.remote % 2 ^ 40), (40, m.reqLen k)]) ++ m.reqData k)).meterHbm c x).ceBytes c e y).modCmd c q
        (·.requested (m.reqLen k) whole) := by
  unfold Machine.reqSegment
  extract_lets far whole n st line next remote data
  have hn : n = m.reqLen k := by
    unfold n whole Machine.reqLen
    split_ifs <;> simp_all [far]
  have hdata : data = m.reqData k := by rw [Machine.reqData, ← hn]
  have hzero : line = 0 := by
    unfold line
    split
    next h =>
      obtain ⟨hop, hinl⟩ := h
      rw [hn]
      exact hline hop (by simpa using hinl)
    next => rfl
  rw [if_neg (not_not.mpr hsend), if_neg (not_not.mpr hzero), htxn]
  refine ⟨if k.op = 5 ∧ !k.inl then n else 0, if k.op = 5 then n else 0, whole, ?_⟩
  unfold next
  rw [hdata, hn]
  rfl

/-- One REQ is issued under a free transaction tag (R359; 07 R225). -/
theorem reqSegment_issues {t : Nat} (hcur : (m.queue c q).cur = some k) (hstarted : k.started = true) (hsend : m.sendStatus c k = 0)
    (hline : k.op = 5 → k.inl = false → m.lineStatus c (k.src + k.pos) (m.reqLen k) = 0) (htxn : m.freeTxn c = some t) :
    m.reqIssued (m.reqSegment c q e k) c q k t k.remote (m.reqData k) := by
  obtain ⟨x, y, whole, hreq⟩ := reqSegment_eq (q := q) (e := e) hsend hline htxn
  generalize hpayload : leBytes 8 (pack [(0, k.remote % 2 ^ 40), (40, m.reqLen k)]) ++ m.reqData k = payload at hreq
  have hafter : Kept [.ctx, .eng] ((m.reqTagged c q k t).ceInject c k 5 t (m.ctxAt c).rst.gen (k.op - 4) payload) (m.reqSegment c q e k) := by
    rw [hreq]
    refine modCmd_kept (ceBytes_kept (meterHbm_kept .refl c x ?_) c e y ?_ ?_) c q _ ?_ <;> decide
  have hinject : Kept [.fwd, .txSeq, .ctx] (m.reqTagged c q k t)
      ((m.reqTagged c q k t).ceInject c k 5 t (m.ctxAt c).rst.gen (k.op - 4) payload) := by
    apply ceInject_kept .refl <;> decide
  refine ⟨?_, ?_, ?_⟩
  · rw [hafter.txn (by decide), hinject.txn (by decide)]
    exact tget_tset_same none m.txn t (some (m.reqRecord c q k))
  · rw [hpayload]
    exact (congrArg FwdRec.rx (hafter.fwdAt (by decide) _)).trans (ceInject_sent (m.reqTagged c q k t) c k (type := 5) (by decide) (by decide) ..)
  · have hqueues := ((ceInject_sameQueues (m.reqTagged c q k t) c k 5 t (m.ctxAt c).rst.gen (k.op - 4) payload).trans
      (meter_sameQueues _ c _)).trans (ceBytes_sameQueues (Machine.meterHbm _ c x) c e y)
    rw [hreq, modCmd_cur, hqueues.cur, show ((m.reqTagged c q k t).queue c q).cur = some k from hcur]
    simp [CeCmd.requested, hstarted]

/-- A command whose next REQ is refused at injection (R359). -/
def CeCmd.refused (k : CeCmd) (st : Nat) : CeCmd := { k.fail st k.pos with sent := true }

/-- A REQ that its stream or the routes refuse fails at its offset and counts as dropped (R318, R359). -/
theorem reqSegment_refused (hsend : m.sendStatus c k ≠ 0) : m.reqSegment c q e k =
    (m.modStrm k.stream StreamRec.dropOut).modCmd c q (·.refused (m.sendStatus c k)) := if_pos hsend

end

/-! ### The commands -/

section
variable {c : CtxId} {q : Fin 4} {op : Nat} {k : CeCmd} {s : State}

/-- A command as its first segment finds it: its clock starts (R361). -/
def CeCmd.clocked (k : CeCmd) (t : DWord) : CeCmd := { k with started := true, startAt := t }

theorem Machine.begins.cur {m : Machine} {c q : Nat} (h : m.begins c q op k) : (m.queue c q).cur = some k := And.left h

theorem Machine.begins.opcode {m : Machine} {c q : Nat} (h : m.begins c q op k) : k.op = op := And.left (And.right h)

theorem beginOp_of_begins (h : s.m.begins c q op k) : s.m.beginOp c q op = s.m.serveSegment c q k.engine := by
  obtain ⟨hcur, hop, hstarted, hturn⟩ := h
  simp only [Machine.beginOp, hcur]
  exact if_pos ⟨hop, by simp [hstarted], hturn⟩

theorem beginOp_of_other (hcur : (s.m.queue c q).cur = some k) (hop : k.op ≠ op) : s.m.beginOp c q op = s.m := by
  simp only [Machine.beginOp, hcur]
  exact if_neg fun ⟨h, _⟩ => hop h

theorem begun_of_begins (h : s.m.begins c q op k) : k.begun s.m.time.now = k.clocked s.m.time.now := by
  obtain ⟨-, -, hstarted, -⟩ := h
  simp [CeCmd.begun, hstarted, CeCmd.clocked]

/-- A segment of COPY or FILL that an engine serves to a queue. -/
theorem serveSegment_serves {m : Machine} {c q e : Nat} (hcur : (m.queue c q).cur = some k) (hop : k.op = 1 ∨ k.op = 2) (hlen : k.segLen ≠ 0)
    (hdata : k.HoldsSegment) : m.segServed (m.serveSegment c q e) c q e k := by
  have hserve := serveSegment_eq (e := e) hcur
  rw [if_pos hop] at hserve
  have hstarted := segStarted_cur (e := e) hcur
  have hkept := (segStarted_sendsAlike (m := m) (c := c) (q := q) (e := e)).kept
  rw [begun_eq] at hserve hstarted
  have hserved := moveSegment_serves (e := e) hstarted rfl hlen hdata
  rw [hserve]
  exact hkept.segServed (by decide) (by decide) hserved

/-- A command that begins is served its first segment, its clock started. -/
theorem serveSegment_of_begins (h : s.m.begins c q op k) (hop : op ≠ 1 ∧ op ≠ 2) : s.m.beginOp c q op =
    if op = 4 then (s.m.segStarted c q k.engine).msgSegment c q k.engine (k.clocked s.m.time.now)
    else (s.m.segStarted c q k.engine).reqSegment c q k.engine (k.clocked s.m.time.now) := by
  rw [beginOp_of_begins h, serveSegment_eq h.cur, begun_of_begins h, h.opcode, if_neg (by simpa using hop)]

theorem segStarted_of_begins (h : s.m.begins c q op k) :
    ((s.m.segStarted c q k.engine).queue c q).cur = some (k.clocked s.m.time.now) := begun_of_begins h ▸ segStarted_cur h.cur

/-- Dropping a send at its stream counts one there and changes nothing else (R318). -/
theorem dropped_keeps (m : Machine) (n : Nat) : Kept [.strm] m (m.modStrm n StreamRec.dropOut) := modStrm_kept .refl n _ (by decide)

theorem dropped_dropsOut (m : Machine) (n : Nat) : ((m.modStrm n StreamRec.dropOut).strmAt n).dropsOut = satAdd 0xFFFF (m.strmAt n).dropsOut 1 := by
  rw [modStrm_strmAt, if_pos rfl]
  rfl

/-- The first segment of a command is refused at injection: the send is dropped, and the command ends as `f` says. -/
theorem refused_drops (h : s.m.begins c q op k) {f : CeCmd → CeCmd} {st : Nat}
    (hf : ((f (k.clocked s.m.time.now)).status, (f (k.clocked s.m.time.now)).sent) = (st, true)) {m : Machine}
    (hm : m = ((s.m.segStarted c q k.engine).modStrm (k.clocked s.m.time.now).stream StreamRec.dropOut).modCmd c q f) :
    m.fwd = s.m.fwd ∧ m.txn = s.m.txn ∧ (m.queue c q).cur.map (fun x => (x.status, x.sent)) = some (st, true) ∧
      (m.strmAt k.stream).dropsOut = satAdd 0xFFFF (s.m.strmAt k.stream).dropsOut 1 := by
  have halike := segStarted_sendsAlike (m := s.m) (c := c) (q := q) (e := k.engine)
  have hdrop := dropped_keeps (s.m.segStarted c q k.engine) (k.clocked s.m.time.now).stream
  have hcur := ((SameQueues.of_kept hdrop (by decide)).cur c q).trans (segStarted_of_begins h)
  have hend : Kept [.ctx] _ m := hm ▸ modCmd_kept .refl _ _ _ (by decide)
  refine ⟨?_, ?_, ?_, ?_⟩
  · exact (hend.fwd (by decide)).trans ((hdrop.fwd (by decide)).trans (halike.kept.fwd (by decide)))
  · exact (hend.txn (by decide)).trans ((hdrop.txn (by decide)).trans (halike.kept.txn (by decide)))
  · rw [hm, modCmd_cur, hcur, Option.map_some, Option.map_some, hf]
  · have hdrops := dropped_dropsOut (s.m.segStarted c q k.engine) k.stream
    rw [halike.kept.strmAt (by decide)] at hdrops
    exact (congrArg StreamRec.dropsOut (hend.strmAt (by decide) _)).trans hdrops

section
variable (h : s.m.begins c q 4 k)
include h

theorem msg_eq : exec (.msg c q) s = done s ((s.m.segStarted c q k.engine).msgSegment c q k.engine (k.clocked s.m.time.now)) :=
  congrArg (done s) ((serveSegment_of_begins h (by decide)).trans (if_pos rfl))

theorem msg_sends (hsend : s.m.sendStatus c k = 0) (hline : k.inl = true ∨ k.len = 0 ∨ s.m.lineStatus c k.src k.len = 0) :
    Completes (.msg c q) s fun m =>
      s.m.ceSent m k (s.m.ceFrame c k 4 0 0 0 (if k.inl then k.inlineData else s.m.hbmRead k.src k.len)) ∧
      (m.queue c q).cur = some { k with started := true, startAt := s.m.time.now, pos := k.len, moved := k.len, sent := true } := by
  have halike := segStarted_sendsAlike (m := s.m) (c := c) (q := q) (e := k.engine)
  rw [← halike.sendStatus] at hsend
  rw [← halike.kept.lineStatus (by decide)] at hline
  obtain ⟨hsent, hcur⟩ := msgSegment_sends (e := k.engine) (segStarted_of_begins h) hsend hline
  rw [halike.ceFrame] at hsent
  replace hsent := halike.ceSent hsent
  rw [halike.kept.hbmRead (by decide)] at hsent
  exact .of_done (msg_eq h) ⟨hsent, hcur⟩

theorem msg_refused (hsend : s.m.sendStatus c k ≠ 0) : Completes (.msg c q) s fun m => m.fwd = s.m.fwd ∧
    (m.queue c q).cur.map (fun x => (x.status, x.sent)) = some (s.m.sendStatus c k, true) ∧
    (m.strmAt k.stream).dropsOut = satAdd 0xFFFF (s.m.strmAt k.stream).dropsOut 1 := by
  have halike := segStarted_sendsAlike (m := s.m) (c := c) (q := q) (e := k.engine)
  have hstatus : (s.m.segStarted c q k.engine).sendStatus c (k.clocked s.m.time.now) = s.m.sendStatus c k := halike.sendStatus _
  have hrefused := msgSegment_refused (q := q) (e := k.engine) (hstatus.trans_ne hsend)
  rw [hstatus] at hrefused
  obtain ⟨hfwd, -, hcur, hdrops⟩ := refused_drops h rfl hrefused
  exact .of_done (msg_eq h) ⟨hfwd, hcur, hdrops⟩

theorem msg_stopped (hsend : s.m.sendStatus c k = 0) (hinl : k.inl = false) (hlen : k.len ≠ 0) (hline : s.m.lineStatus c k.src k.len ≠ 0) :
    Completes (.msg c q) s fun m => m.fwd = s.m.fwd ∧
      (m.queue c q).cur.map (fun x => (x.status, x.sent)) = some (s.m.lineStatus c k.src k.len, true) := by
  have halike := segStarted_sendsAlike (m := s.m) (c := c) (q := q) (e := k.engine)
  have hstatus := halike.kept.lineStatus (by decide) c k.src k.len
  refine .of_done (msg_eq h) ?_
  rw [msgSegment_stopped (k := k.clocked s.m.time.now) ((halike.sendStatus _).trans hsend) hinl hlen (hstatus.trans_ne hline)]
  have hstop := ceStop_kept (W := [.ctx]) (.refl (m := s.m.segStarted c q k.engine)) c q
    ((s.m.segStarted c q k.engine).lineStatus c k.src k.len) (by decide)
  refine ⟨(hstop.fwd (by decide)).trans (halike.kept.fwd (by decide)), ?_⟩
  rw [ceStop_cur _ _ _ (segStarted_of_begins h), ← hstatus]
  rfl

end

section
variable {i : Instr} (hi : exec i s = done s (s.m.beginOp c q op)) (h : s.m.begins c q op k)
include hi h

theorem req_eq (hop : 5 ≤ op) : exec i s = done s ((s.m.segStarted c q k.engine).reqSegment c q k.engine (k.clocked s.m.time.now)) :=
  hi.trans (congrArg (done s) ((serveSegment_of_begins h (by omega)).trans (if_neg (by omega))))

/-- A command of REQs issues its first one (R359). -/
theorem req_issues {t : Nat} (hop : 5 ≤ op) (hsend : s.m.sendStatus c k = 0)
    (hline : op = 5 → k.inl = false → s.m.lineStatus c (k.src + k.pos) (s.m.reqLen k) = 0) (htxn : s.m.freeTxn c = some t) :
    Completes i s fun m => s.m.reqIssued m c q k t k.remote (s.m.reqData k) := by
  have halike := segStarted_sendsAlike (m := s.m) (c := c) (q := q) (e := k.engine)
  have hissued := reqSegment_issues (e := k.engine) (segStarted_of_begins h) rfl ((halike.sendStatus _).trans hsend)
    (fun h5 hinl => ?_) (halike.freeTxn.trans htxn)
  · replace hissued := halike.reqIssued hissued
    rw [show (s.m.segStarted c q k.engine).reqData (k.clocked s.m.time.now) = s.m.reqData k by
      rw [Machine.reqData, halike.reqLen, halike.kept.hbmRead (by decide)]; rfl] at hissued
    exact .of_done (req_eq hi h hop) hissued
  · rw [halike.reqLen, halike.kept.lineStatus (by decide)]
    exact hline (h.opcode.symm.trans h5) hinl

/-- A command of REQs whose first one is refused has ended with the refusal (R318, R359). -/
theorem req_refused (hop : 5 ≤ op) (hstatus : k.status = 0) (hsend : s.m.sendStatus c k ≠ 0) :
    Completes i s fun m => m.fwd = s.m.fwd ∧ m.txn = s.m.txn ∧
      (m.queue c q).cur.map (fun x => (x.status, x.sent)) = some (s.m.sendStatus c k, true) ∧
      (m.strmAt k.stream).dropsOut = satAdd 0xFFFF (s.m.strmAt k.stream).dropsOut 1 := by
  have halike := segStarted_sendsAlike (m := s.m) (c := c) (q := q) (e := k.engine)
  have hsame : (s.m.segStarted c q k.engine).sendStatus c (k.clocked s.m.time.now) = s.m.sendStatus c k := halike.sendStatus _
  have hrefused := reqSegment_refused (q := q) (e := k.engine) (hsame.trans_ne hsend)
  rw [hsame] at hrefused
  exact .of_done (req_eq hi h hop) (refused_drops h (by simp [CeCmd.refused, CeCmd.fail, CeCmd.clocked, hstatus]) hrefused)

end

section
variable (h : s.m.begins c q op k) (hlen : k.segLen ≠ 0) (hdata : k.HoldsSegment)
include h hlen hdata

/-- COPY and FILL begin with their first segment (R355). -/
theorem beginOp_serves (hop : op = 1 ∨ op = 2) : s.m.segServed (s.m.beginOp c q op) c q k.engine k := by
  rw [beginOp_of_begins h]
  exact serveSegment_serves h.cur (h.opcode ▸ hop) hlen hdata

end

theorem ceSegment_of_turn {e : Fin 20} {host : Cells} {c q : Nat} (hturn : (s.m.hostStores host).turn e = some (c, q)) :
    exec (.ceSegment e host) s = done s ((s.m.hostStores host).serveSegment c q e) := by
  change execCeSegment e host s = _
  simp only [execCeSegment, hturn]

theorem ceSegment_of_no_turn {e : Fin 20} {host : Cells} (hturn : (s.m.hostStores host).turn e = none) :
    exec (.ceSegment e host) s = done s (s.m.hostStores host) := by
  change execCeSegment e host s = _
  simp only [execCeSegment, hturn]

section
variable (hcur : (s.m.queue c q).cur = some k)
include hcur

theorem flagOnly_eq : exec (.flagOnly c q) s = done s (if k.op = 3 ∧ !k.sent ∧ !(s.m.fenced c) then
    s.m.modCmd c q fun k => { k with started := true, startAt := s.m.time.now, sent := true } else s.m) := by
  change execFlagOnly c q s = _
  simp only [execFlagOnly, hcur]

theorem flagOnly_starts (hop : k.op = 3) (hsent : k.sent = false) (hfence : s.m.fenced c = false) : Completes (.flagOnly c q) s fun m =>
    (m.queue c q).cur = some { k with started := true, startAt := s.m.time.now, sent := true } := by
  refine .of_done ((flagOnly_eq hcur).trans (congrArg (done s) (if_pos (by simp [hop, hsent, hfence])))) ?_
  rw [modCmd_cur, hcur]
  rfl

theorem flagOnly_ignored (h : k.op ≠ 3 ∨ k.sent = true) : Ignored (.flagOnly c q) s := by
  refine .of_done (flagOnly_eq hcur) (if_neg fun ⟨hop, hsent, _⟩ => ?_)
  rcases h with h | h
  · exact h hop
  · simp [h] at hsent

theorem beginOp_ignored {i : Instr} (hi : exec i s = done s (s.m.beginOp c q op)) (hop : k.op ≠ op) : Ignored i s :=
  .of_done hi (beginOp_of_other hcur hop)

/-- COMMAND_COMPLETE: a command whose work has ended completes, or its flush reads go out (R360; 11 R338). -/
theorem ceComplete_eq : s.m.ceComplete c q = if !k.ended || k.flushing || s.m.fenced c then s.m
    else if k.opt 1 ∧ !((s.m.queue c q).flushSet k).isEmpty then
      (s.m.modCmd c q fun k => { k with flushing := true }).flushReads ((s.m.queue c q).flushSet k).length
    else s.m.ceFinish c q k := by
  simp only [Machine.ceComplete, hcur]

section
variable (hended : k.ended = true) (hflush : k.flushing = false) (hfence : s.m.fenced c = false)
include hended hflush hfence

theorem ceCommandComplete_ends (h : k.opt 1 = false ∨ (s.m.queue c q).flushSet k = []) : Completes (.ceCommandComplete c q) s fun m =>
    s.m.ceEnded m c q k := by
  have hunready : ¬ (!k.ended || k.flushing || s.m.fenced c) = true := by simp [hended, hflush, hfence]
  have hnoflush : ¬ (k.opt 1 = true ∧ (!((s.m.queue c q).flushSet k).isEmpty) = true) := by rcases h with h | h <;> simp [h]
  exact .of_done (congrArg (done s) ((ceComplete_eq hcur).trans ((if_neg hunready).trans (if_neg hnoflush)))) (ceFinish_ends ..)

theorem ceCommandComplete_flushes (hopt : k.opt 1 = true) (hset : (s.m.queue c q).flushSet k ≠ []) :
    Completes (.ceCommandComplete c q) s fun m => (m.queue c q).cur = some { k with flushing := true } ∧
      m.hst.flushCnt = satAdd32 s.m.hst.flushCnt ((s.m.queue c q).flushSet k).length ∧ m.hostMem = s.m.hostMem := by
  have hunready : ¬ (!k.ended || k.flushing || s.m.fenced c) = true := by simp [hended, hflush, hfence]
  have hflushes : k.opt 1 = true ∧ (!((s.m.queue c q).flushSet k).isEmpty) = true := by simp [hopt, hset]
  refine .of_done (congrArg (done s) ((ceComplete_eq hcur).trans ((if_neg hunready).trans (if_pos hflushes)))) ⟨?_, rfl, rfl⟩
  change ((s.m.modCmd c q fun k => { k with flushing := true }).queue c q).cur = _
  rw [modCmd_cur, hcur]
  rfl

end

theorem ceCommandComplete_ignored (hended : k.ended = false) : Ignored (.ceCommandComplete c q) s :=
  .of_done rfl ((ceComplete_eq hcur).trans (if_pos (by simp [hended])))

theorem flushReadComplete_eq : exec (.flushReadComplete c q) s = done s (if k.flushing ∧ !(s.m.fenced c) then
    s.m.ceFinish c q { k with flushing := false, flushed := true } else s.m) := by
  change execFlushReadComplete c q s = _
  simp only [execFlushReadComplete, hcur]

theorem flushReadComplete_ends (hflush : k.flushing = true) (hfence : s.m.fenced c = false) : Completes (.flushReadComplete c q) s fun m =>
    s.m.ceEnded m c q { k with flushing := false, flushed := true } :=
  .of_done ((flushReadComplete_eq hcur).trans (congrArg (done s) (if_pos (by simp [hflush, hfence])))) (ceFinish_ends ..)

theorem flushReadComplete_ignored (hflush : k.flushing = false) : Ignored (.flushReadComplete c q) s :=
  .of_done (flushReadComplete_eq hcur) (if_neg (by simp [hflush]))

end

end

/-- Settles O43: a segment is served as its opcode says from a machine that differs in queues, meters and engines alone; a completion writes the
flag and then the record. -/
theorem copyCommandsMoveSendAndComplete : Obligations.CopyCommandsMoveSendAndComplete := by
  unfold Obligations.CopyCommandsMoveSendAndComplete
  refine ⟨?copy, ?fill, ?segment, ?noSegment, ?flagOnly, ?msg, ?reqWrite, ?reqs, ?refused, ?complete, ?flushed⟩
  case copy => exact fun c q k s h hlen hdata => .of_done rfl (beginOp_serves h hlen (fun _ => hdata) (.inl rfl))
  case fill => exact fun c q k s h hlen => .of_done rfl (beginOp_serves h hlen (fun hop => absurd h.opcode hop) (.inr rfl))
  case segment =>
    exact fun e h c q k s hturn hcur hop hlen hdata => .of_done (ceSegment_of_turn hturn) (serveSegment_serves hcur hop hlen fun _ => hdata)
  case noSegment => exact fun e h s hturn => .of_done (ceSegment_of_no_turn hturn) rfl
  case flagOnly =>
    exact fun c q k s hcur => ⟨flagOnly_starts hcur, flagOnly_ignored hcur, beginOp_ignored hcur rfl, beginOp_ignored hcur rfl,
      beginOp_ignored hcur rfl, beginOp_ignored hcur rfl, beginOp_ignored hcur rfl, beginOp_ignored hcur rfl, beginOp_ignored hcur rfl⟩
  case msg => exact fun c q k s h => ⟨msg_sends h, msg_refused h, msg_stopped h⟩
  case reqWrite =>
    intro c q k t s h hsend hline htxn
    have hissued := req_issues (i := .reqWrite c q) rfl h (by decide) hsend (fun _ hinl => hline.resolve_left (by simp [hinl])) htxn
    simpa [CeCmd.remote, Machine.reqData, h.opcode] using hissued
  case reqs =>
    intro c q k t s hsend htxn
    refine ⟨fun h => ?_, fun h => ?_, fun h => ?_⟩
    · simpa [CeCmd.remote, Machine.reqData, h.opcode] using req_issues (i := .reqRead c q) rfl h (by decide) hsend (by simp) htxn
    · simpa [CeCmd.remote, Machine.reqData, h.opcode] using req_issues (i := .reqFetchAdd c q) rfl h (by decide) hsend (by simp) htxn
    · simpa [CeCmd.remote, Machine.reqData, h.opcode] using req_issues (i := .reqSignal c q) rfl h (by decide) hsend (by simp) htxn
  case refused =>
    intro c q k i s hi h hstatus hsend
    simp only [List.mem_cons, Prod.mk.injEq, List.not_mem_nil, or_false] at hi
    rcases hi with ⟨rfl, hop⟩ | ⟨rfl, hop⟩ | ⟨rfl, hop⟩ | ⟨rfl, hop⟩ <;>
      exact req_refused (by rw [hop]; rfl) h (by omega) hstatus hsend
  case complete =>
    exact fun c q k s hcur hended hflush hfence =>
      ⟨ceCommandComplete_ends hcur hended hflush hfence, ceCommandComplete_flushes hcur hended hflush hfence⟩
  case flushed =>
    exact fun c q k s hcur => ⟨flushReadComplete_ends hcur, flushReadComplete_ignored hcur, ceCommandComplete_ignored hcur⟩

end Sys2Proof.Machine

/-! ## The frames of the commands, by chapter

Each claim is the conjunction of its commands' frames, one lemma per command (the section on the frames of the commands). -/

namespace Sys2Proof.Machine

/-- Settles O9: the frames of the commands of bring-up, the timebase, the monitors and Reef. -/
theorem framesOfPowerLinksBootAndPackage : Obligations.FramesOfPowerLinksBootAndPackage :=
  ⟨powerGood_frame, idRead_frame, bootStepEnter_frame, bootStepLimit_frame, trainDeadline_frame, bootAltClr_frame,
   syncExchange_frame, parentLinkFail_frame, holdoverExpiry_frame, parentNamed_frame, refclkLoss_frame, refclkReturn_frame,
   timeNowLoRead_frame, uvMonitorTrip_frame, uvMonitorClear_frame, otMonitorTrip_frame, otMonitorClear_frame,
   thermalHoldStart_frame, thermalHoldEnd_frame, thermalTrip_frame, rigWrite_frame, rigRead_frame, stepRelease_frame,
   reefMeasure_frame, capLoop_frame, contractIdle_frame, vrFault_frame, rampWindowOpen_frame, rampWindowClose_frame,
   preRampComplete_frame, riseExcess_frame, ballastHold_frame, ballastHoldEnd_frame, trayReport_frame, facilityStale_frame,
   facilityFallback_frame, notice_frame, flashRead_frame, flashErase_frame, flashWrite_frame, bcastOffer_frame, bcastFrag_frame,
   bcastEnd_frame, bcastNack_frame, bcastNackTimer_frame, bcastDone_frame, bcastHave_frame, bcastTimeout_frame,
   rampLimitForward_frame⟩

/-- Settles O10: the frames of the commands of ports and forwarding. -/
theorem framesOfPortsAndForwarding : Obligations.FramesOfPortsAndForwarding :=
  ⟨portDetectSignal_frame, portSyncLock_frame, portSyncTimeout_frame, portDeskewDone_frame, portDeskewTimeout_frame,
   ts2Receive_frame, portExchangeTimeout_frame, portEqualiseDone_frame, portVerifyDone_frame, trainingSignalLoss_frame,
   holdoffExpiry_frame, portDownSignalReturn_frame, laneLockLoss_frame, fecThreshold_frame, retrainReqRepeat_frame,
   retrainReqReceive_frame, retrainComplete_frame, retrainTimeout_frame, envelopeReceive_frame, ackReceive_frame,
   nakReceive_frame, nakRepeat_frame, replayTimeout_frame, creditReceive_frame, goingDownReceive_frame, linkSignalLoss_frame,
   fullTrainReceive_frame, stayFail_frame, shrCntClr_frame, portFullTrain_frame, frameForward_frame, frameAgeExpiry_frame,
   detourResend_frame, filterRecordExpiry_frame, reqReceive_frame, repReceive_frame, reqExpired_frame, collFrameReceive_frame,
   lateStepReport_frame, flowAbortReport_frame, flowAbortReceive_frame, abortAckReceive_frame, abortAckTimeout_frame,
   flowResumeWait_frame⟩

/-- Settles O11: the frames of the commands of Halyard, the planner, slices and contexts. -/
theorem framesOfFabricPlannerAndTenancy : Obligations.FramesOfFabricPlannerAndTenancy :=
  ⟨helloSend_frame, helloReceive_frame, linkStateRecordReceive_frame, discoverySettle_frame, masterAnnounceReceive_frame,
   standbyAckReceive_frame, beaconSend_frame, beaconCountReceive_frame, componentJoin_frame, beaconTimeout_frame,
   holdDownExpiry_frame, packageAbsent_frame, epochCollectClose_frame, epochPrepareReceive_frame, epochReadyReceive_frame,
   epochCommitReceive_frame, epochSwitch_frame, oldBankRelease_frame, epochReadyTimeout_frame, epochAbortReceive_frame,
   topoRead_frame, portDisable_frame, portEnable_frame, portTestRetrain_frame, epochQuery_frame, masterHandover_frame,
   masterConfirm_frame, packageDrain_frame, packageRestore_frame, hlyCmdNoMaster_frame, plannerJobStart_frame, plannerRound_frame,
   plannerDeadline_frame, tkpDryrun_frame, tkpResvRead_frame, tkpSlotsRead_frame, tkpBiasSet_frame, tkpHeadroomSet_frame,
   tkpDeadlineSet_frame, tkpReplanAll_frame, tkpRampRead_frame, sliceCreate_frame, sliceDestroy_frame, sliceQuery_frame,
   sliceList_frame, sliceLayout_frame, slicePeer_frame, sliceReserve_frame, sliceContextsFinal_frame, sliceScrubReport_frame,
   sliceEventReceive_frame, ctxCreate_frame, ctxDestroy_frame, contextScrubComplete_frame, ctxFree_frame,
   partitionScrubComplete_frame, scrubQuarantine_frame, minuteLatch_frame, ctxSnap_frame, energyAttribute_frame,
   epochPrepareGuard_frame, slotStart_frame, beaconReceive_frame, standbyReplicate_frame, generationDeltaReceive_frame,
   helloStop_frame⟩

/-- Settles O12: the frames of the commands of tiles, memory, the host interface and the copy engines. -/
theorem framesOfTilesMemoryAndHost : Obligations.FramesOfTilesMemoryAndHost :=
  ⟨msgReceive_frame, flowResumeReceive_frame, bind_frame, unbind_frame, restart_frame, ctxXcArmLo_frame, ctxXcArmHi_frame,
   stepArm_frame, stepComplete_frame, contractViolation_frame, mma_frame, drain_frame, vop_frame, vcvt_frame, vld_frame,
   vst_frame, hrd_frame, hwr_frame, send_frame, recv_frame, wait_frame, loop_frame, tileEnd_frame, tileStoreUncorr_frame,
   tileRetire_frame, pageGrant_frame, pageReturn_frame, pageScrubComplete_frame, hbmUncorrectable_frame, streamOpen_frame,
   streamClose_frame, streamQuery_frame, streamHead_frame, streamHelloReceive_frame, streamHelloRepeat_frame,
   streamCreditReceive_frame, streamCreditPeriodic_frame, streamClosingEnd_frame, hostLinkTrain_frame, h1LinkDown_frame,
   windowRead_frame, windowWrite_frame, windowAtomic_frame, watchEntrySet_frame, watchSnoop_frame, vfFlr_frame, pfFlr_frame,
   vfEnableClear_frame, hostReadTimeout_frame, flushReadComplete_frame, ceQueueEnable_frame, ceQueueDisable_frame,
   ceQueueResume_frame, ceDoorbell_frame, ceCommandFetch_frame, copy_frame, fill_frame, flagOnly_frame, msg_frame, reqWrite_frame,
   reqRead_frame, reqFetchAdd_frame, reqSignal_frame, ceSegment_frame, ceCommandComplete_frame, hbmLineComplete_frame,
   tokenAcknowledge_frame⟩

/-- Settles O13: the frames of the commands of Telltale, resets, Farnis, the registers, scan and the card. -/
theorem framesOfFaultsResetsAndTray : Obligations.FramesOfFaultsResetsAndTray :=
  ⟨halyardRestartTimeout_frame, hlyCmdResult_frame, reqAnswerDeadline_frame, ttlRound_frame, promotionWindowExpiry_frame,
   reactionQuietExpiry_frame, faultNLowEnd_frame, ttlPinHoldWrite_frame, ttlForce_frame, ttlFirstClear_frame,
   luffTileExpiry_frame, tileSelfTestDone_frame, luffCeExpiry_frame, luffLinkExpiry_frame, luffCollExpiry_frame,
   collUnitReset_frame, luffHlyExpiry_frame, inStreamStall_frame, contextReset_frame, partitionReset_frame, packageReset_frame,
   fenceDrainEnd_frame, packageResetComplete_frame, rungTimeout_frame, genLateDrop_frame, dumpRearm_frame, busbarRise_frame,
   sitePowerOn_frame, railGood_frame, railFail_frame, powerOffNotice_frame, ready_frame, noticeLimitExpiry_frame,
   powerOffGroupFall_frame, offTimeExpiry_frame, faultNEdge_frame, faultReadReply_frame, faultReadRetry_frame, pinAlert_frame,
   shelfPoll_frame, cduPoll_frame, coolantLimit_frame, busbarSag_frame, busbarReturn_frame, cduStaleAlert_frame,
   trayReportSend_frame, crashSummary_frame, measure_frame, componentIntegrity_frame, resetOn_frame, resetForceOff_frame,
   resetGracefulShutdown_frame, resetPowerCycle_frame, resetForceRestart_frame, redfishGet_frame, pldmSensorRead_frame,
   pldmFirmwareUpdate_frame, flashUpdate_frame, farnisRestart_frame, farnisSettingWrite_frame, scanEnter_frame, scanExit_frame,
   regRead_frame, regWrite_frame, hlyCmd_frame, dbRead_frame, registerWrite_frame, extest_frame, idcode_frame,
   samplePreload_frame, extestPulse_frame, extestTrain_frame, highz_frame, bypass_frame, scanExtChange_frame, slot12vFall_frame,
   cardC4PowerOff_frame, domainResetEnd_frame, trayFaultHoldExpiry_frame, slot12vRise_frame, extTrstNFall_frame⟩

end Sys2Proof.Machine

/-! ## The reset state -/

namespace Sys2Proof.Machine

/-- Before power-good the timebase stands still, and with nothing queued on its ports the machine idles as it is (log 2). -/
theorem idle_of_quiet {m : Machine} (ht : m.time.running = false)
    (hq : ∀ p, (m.port p).tx.queue = [] ∧ (m.port p).tx.resend = none) : m.idle = m := by
  have htick : m.tick = m := if_neg (by simp [ht])
  rw [Machine.idle, htick, Machine.pumpAll]
  refine List.foldlRecOn (motive := (· = m)) _ _ rfl ?_
  rintro a rfl p -
  rw [(hq p).1, (hq p).2]; rfl

/-- Settles O4: no memory lists a byte at reset, and the reset machine is quiet. -/
theorem resetMemoriesAreCanonical : Obligations.ResetMemoriesAreCanonical :=
  ⟨by decide, rfl, rfl, (step_of_empty rfl).trans (by rw [idle_of_quiet (m := State.reset.m) rfl fun _ => ⟨rfl, rfl⟩])⟩

/-- Settles O6: each register's reset value, and an unlisted port, context, stream, queue or source reads as its reset record. -/
theorem resetLeavesTheStatedValues : Obligations.ResetLeavesTheStatedValues :=
  ⟨by decide, by decide, ⟨rfl, rfl, rfl, rfl, rfl, fun _ => ⟨rfl, rfl, rfl, rfl⟩⟩, by decide,
   fun _ => ⟨rfl, rfl, rfl, rfl, rfl, rfl, fun _ => rfl⟩, by decide⟩

end Sys2Proof.Machine

/-! ## Boundary scan and the card's power (19 R539-R541; 20 R549; 18 R521) -/

namespace Sys2Proof.Machine

/-! ### An instruction enters its die's register -/

/-- The code that an instruction acts as at a site: BYPASS where it needs SITE_TEST and the site is not in SCAN (19 Table 19.8). -/
def Machine.scanCode (m : Machine) (k code : Nat) (test : Bool) : Nat :=
  if test && (m.siteAt k).state != .scan then irBypass else code

section
variable {m : Machine} {k d code : Nat} {test : Bool}

theorem scanCode_free : m.scanCode k code false = code := rfl

theorem scanCode_inScan (h : (m.siteAt k).state = .scan) : m.scanCode k code true = code := by simp [Machine.scanCode, h]

theorem scanCode_notInScan (h : (m.siteAt k).state ≠ .scan) : m.scanCode k code true = irBypass := by simp [Machine.scanCode, h]

theorem scanLoad_of_onChain (h : m.onChain k d = true) :
    m.scanLoad k d code test =
      { m with scan := { m.scan with ir := tset irReset m.scan.ir (2 * k + d) (m.scanCode k code test) }
               out := m.out ++ [.scan k d (m.scanCode k code test)] } :=
  if_pos h

theorem scanLoad_of_offChain (h : m.onChain k d = false) : m.scanLoad k d code test = m := if_neg (by simp [h])

/-- A machine that differs in one die's instruction register and in what was sent. -/
theorem scanned_of_eq {m' : Machine} (hs : m'.scan = { m.scan with ir := tset irReset m.scan.ir (2 * k + d) code })
    (hk : Kept [.scan, .out] m m') : m.scanned m' k d code := by
  refine ⟨by rw [hs]; exact tget_tset_same .., fun j hj => by rw [hs]; exact tget_tset_ne _ _ _ hj, by rw [hs], hk⟩

theorem scanLoad_scanned (h : m.onChain k d = true) : m.scanned (m.scanLoad k d code test) k d (m.scanCode k code test) :=
  scanned_of_eq (by rw [scanLoad_of_onChain h]) (by apply scanLoad_kept .refl <;> decide)

theorem scanLoad_out (h : m.onChain k d = true) :
    (m.scanLoad k d code test).out = m.out ++ [.scan k d (m.scanCode k code test)] := by
  rw [scanLoad_of_onChain h]

end

/-- A command that loads one instruction into a die of a live chain. -/
theorem completes_scanLoad {c : Instr} {s : State} {k d code eff : Nat} {test : Bool}
    (hc : exec c s = done s (s.m.scanLoad k d code test)) (h : s.m.onChain k d = true) (he : s.m.scanCode k code test = eff) :
    Completes c s fun m => s.m.scanned m k d eff ∧ m.out = s.m.out ++ [Out.scan k d eff] :=
  .of_done hc ⟨he ▸ scanLoad_scanned h, he ▸ scanLoad_out h⟩

theorem execIdcode_of_onChain {k : SiteId} {d : IoDie} {s : State} (h : s.m.onChain k d = true) :
    exec (.idcode k d) s = done s ((s.m.scanLoad k d 0x01 false).emit (.scanData k d ((s.m.scanLoad k d 0x01 false).idcode k d))) := by
  show done s (if s.m.onChain k d then _ else _) = _
  rw [if_pos h]

/-- Loading an instruction leaves the identity that a die shifts out. -/
theorem scanLoad_idcode {m : Machine} {k d code : Nat} {test : Bool} (j e : Nat) :
    (m.scanLoad k d code test).idcode j e = m.idcode j e := by
  unfold Machine.scanLoad
  split <;> rfl

theorem completes_idcode {k : SiteId} {d : IoDie} {s : State} (h : s.m.onChain k d = true) :
    Completes (.idcode k d) s fun m =>
      s.m.scanned m k d 0x01 ∧ m.out = s.m.out ++ [Out.scan k d 0x01, .scanData k d (s.m.idcode k d)] := by
  refine .of_done (execIdcode_of_onChain h) ⟨scanned_of_eq ?_ ?_, ?_⟩
  · rw [scanLoad_of_onChain h]; rfl
  · exact emit_kept (by apply scanLoad_kept .refl <;> decide) _ (by decide)
  · rw [emit_out, scanLoad_out h, scanCode_free, scanLoad_idcode, List.append_assoc]; rfl

/-- Settles O59: each instruction enters the register as `Machine.scanCode` says; off a live chain loading changes nothing. -/
theorem boundaryScanInstructionsEnterTheirDie : Obligations.BoundaryScanInstructionsEnterTheirDie := by
  refine ⟨fun k d s h x hx => ?_, fun k d s h => completes_idcode h, fun k d s h x hx => ⟨fun hs => ?_, fun hs => ?_⟩,
    fun k d s h => ?_, fun level low s => .of_done rfl rfl, fun s => .of_done rfl rfl⟩
  · simp only [List.mem_cons, List.not_mem_nil, or_false] at hx
    rcases hx with rfl | rfl <;> exact completes_scanLoad rfl h scanCode_free
  · simp only [List.mem_cons, List.not_mem_nil, or_false] at hx
    rcases hx with rfl | rfl | rfl | rfl <;> exact completes_scanLoad rfl h (scanCode_inScan hs)
  · simp only [List.mem_cons, List.not_mem_nil, or_false] at hx
    rcases hx with rfl | rfl | rfl | rfl <;> exact completes_scanLoad rfl h (scanCode_notInScan hs)
  · have hoff {code test} : s.m.scanLoad k d code test = s.m := scanLoad_of_offChain h
    refine ⟨.of_done rfl hoff, ?_, .of_done rfl hoff, .of_done rfl hoff, .of_done rfl hoff, .of_done rfl hoff, .of_done rfl hoff⟩
    refine .of_done rfl (m := if s.m.onChain k d then _ else _) ?_
    rw [if_neg (by simp [h])]; exact hoff

/-! ### The identity's fields -/

theorem pack_four (a b c d w x y z : Nat) :
    pack [(a, w), (b, x), (c, y), (d, z)] = w * 2 ^ a + x * 2 ^ b + y * 2 ^ c + z * 2 ^ d := by
  simp [pack]

/-- A die's number and a stepping fill the IDCODE register beside its two constants: the fields do not overlap. -/
theorem idcode_fields {p v : Nat} (hp : p < 2 ^ 16) (hv : v < 2 ^ 4) :
    let w := word [(0, 1), (1, 0x2A7), (12, p), (28, v)]
    bitAt w 0 = true ∧ bits w 1 11 = 0x2A7 ∧ bits w 12 16 = p ∧ bits w 28 4 = v := by
  have hs : pack [(0, 1), (1, 0x2A7), (12, p), (28, v)] = 1359 + p * 4096 + v * 268435456 := by
    rw [pack_four]; norm_num
  simp only [bits, bitAt, word, hs, BitVec.toNat_ofNat, BitVec.getLsbD_ofNat, Nat.testBit_zero]
  norm_num at hp hv ⊢
  omega

/-- Settles O7: the word that IDCODE shifts out is made of the four fields. -/
theorem idcodeShiftsOutTheDiesOwnValue : Obligations.IdcodeShiftsOutTheDiesOwnValue := by
  intro k d s h
  refine (completes_idcode h).imp fun m ⟨hs, ho⟩ => ⟨_, ho, hs.1, ?_⟩
  exact idcode_fields (by split <;> decide) (Nat.mod_lt _ (by decide))

/-! ### The card's rails -/

/-- Without its rails a package holds the reset values in every volatile block (18 R521). -/
theorem powerLost_volatile (m : Machine) : ∀ b ∈ Area.volatile, Machine.reset.agrees m.powerLost b := by
  intro b hb
  cases b <;> first | exact rfl | exact absurd hb (by decide)

/-- Replacing the card's record leaves every volatile block. -/
theorem volatile_withCard {m : Machine} {c : Card} (h : ∀ b ∈ Area.volatile, Machine.reset.agrees m b) :
    ∀ b ∈ Area.volatile, Machine.reset.agrees { m with card := c } b := by
  intro b hb
  cases b <;> first | exact h _ hb | exact absurd hb (by decide)

/-- A command that removes the card's rails: the card's record is as given, and everything volatile is lost. -/
theorem completes_cardOff {c : Instr} {s : State} {card : Card} (hc : exec c s = done s { s.m.powerLost with card := card }) :
    Completes c s fun m => m.card = card ∧ (∀ b ∈ Area.volatile, Machine.reset.agrees m b) ∧ m.flash = s.m.flash ∧
      m.hostMem = s.m.hostMem :=
  .of_done hc ⟨rfl, volatile_withCard (powerLost_volatile s.m), rfl, rfl⟩

/-- Settles O60: the three rows act on a card in the state each starts from, and the two that remove the rails do so by `powerLost`. -/
theorem cardPowersItsPackageOnAndOff : Obligations.CardPowersItsPackageOnAndOff := by
  refine ⟨fun aux s hf hs => ?_, fun s hf hs => completes_cardOff (congrArg (done s) (if_pos ⟨hf, hs⟩)),
    fun s hf hp hc => completes_cardOff (congrArg (done s) (if_pos ⟨hf, hp, hc⟩)), fun aux s hf => ?_⟩
  · refine .of_done (m := if s.m.pins.form = true ∧ (!s.m.card.slot12v) = true then _ else _) rfl ?_
    rw [if_pos ⟨hf, by simp [hs]⟩]
    simp only [Bool.beq_eq_decide_eq, decide_not]
  · have hoff {p : Prop} [Decidable p] {x : Machine} : (if s.m.pins.form = true ∧ p then x else s.m) = s.m := if_neg (by simp [hf])
    exact ⟨.of_done rfl hoff, .of_done rfl hoff, .of_done rfl hoff⟩

end Sys2Proof.Machine

/-! ## The memories' canonical form: what each command that writes one of them keeps

Host memory, the flash device and HBM are written by the operations of this section alone; every other operation keeps all three, as its
frame says (Laws/Kept*.lean). A proof walks an operation's branches: at an operation that writes a memory it cites that operation's lemma,
at any other its frame. -/

namespace Sys2Proof.Machine

/-- Host memory, the flash device and HBM stand in canonical form. -/
structure Canonical (m : Machine) : Prop where
  host : twf Config.blank m.hostMem = true
  flash : twf Config.erased m.flash = true
  hbm : twf Config.blank m.hbm.bytes = true

theorem canonical_iff {m : Machine} : Canonical m ↔ m.memWf = true := by
  simp only [Machine.memWf, Bool.and_eq_true]
  exact ⟨fun ⟨h, f, b⟩ => ⟨⟨h, f⟩, b⟩, fun ⟨⟨h, f⟩, b⟩ => ⟨h, f, b⟩⟩

/-- Every block of the machine beside the three memories. -/
def Area.beside : List Area :=
  [.pins, .fuse, .boot, .time, .corner, .shr, .fwd, .txSeq, .txn, .coll, .collFailed, .tiles, .tileMap, .tilePhys, .strm, .luff, .hly, .tkp,
   .slc, .part, .ctx, .ctxCmd, .ttl, .acc, .reef, .hst, .eng, .msix, .far, .scan, .card, .free, .out]

section
variable {m a b : Machine}

/-- An operation whose frame holds none of the memories. -/
theorem Canonical.of_kept (h : Canonical a) (hk : Kept Area.beside a b) : Canonical b where
  host := by rw [hk.hostMem (by decide)]; exact h.host
  flash := by rw [hk.flash (by decide)]; exact h.flash
  hbm := by rw [hk.hbm (by decide)]; exact h.hbm

theorem Canonical.ite {c : Prop} [Decidable c] (h : Canonical a) (h' : Canonical b) : Canonical (if c then a else b) := by
  split <;> assumption

theorem Canonical.iteFst {β : Type} {c : Prop} [Decidable c] {x y : Machine × β} (h : Canonical x.1) (h' : Canonical y.1) :
    Canonical (if c then x else y).1 := by
  split <;> assumption

theorem Canonical.foldl {β : Type} {f : Machine → β → Machine} {l : List β} (h : Canonical a)
    (hf : ∀ x e, Canonical x → Canonical (f x e)) : Canonical (l.foldl f a) := by
  induction l generalizing a with
  | nil => exact h
  | cons e l ih => exact ih (hf a e h)

theorem Canonical.cut {p : Prop} {x : Machine} (val : Canonical x) (main : Canonical x → p) : p := main val

theorem Canonical.ofFst {β : Type} {e : Machine × β} {x : Machine} {y : β} (he : e = (x, y)) (h : Canonical e.1) : Canonical x := by
  rw [he] at h; exact h

/-! ### Writes of a memory -/

theorem Canonical.set_hbm {v : Hbm} (h : Canonical a) (hv : twf Config.blank v.bytes = true) : Canonical (a.upd_hbm v) :=
  ⟨h.host, h.flash, hv⟩

theorem Canonical.set_flash {v : Table Byte} (h : Canonical a) (hv : twf Config.erased v = true) : Canonical (a.upd_flash v) :=
  ⟨h.host, hv, h.hbm⟩

theorem hostStores_canonical (h : Canonical a) (c) : Canonical (a.hostStores c) := ⟨twf_mcells _ _ _ h.host, h.flash, h.hbm⟩

theorem hostWrite_canonical (h : Canonical a) (x l) : Canonical (a.hostWrite x l) := ⟨twf_mwrite _ _ _ _ h.host, h.flash, h.hbm⟩

theorem hbmWrite_canonical (h : Canonical a) (x l) : Canonical (a.hbmWrite x l) := ⟨h.host, h.flash, twf_mwrite _ _ _ _ h.hbm⟩

theorem hbmZero_canonical (h : Canonical a) (x n) : Canonical (a.hbmZero x n) := ⟨h.host, h.flash, twf_tclear _ _ _ _ h.hbm⟩

theorem setPage_canonical (h : Canonical a) (p r) : Canonical (a.setPage p r) := ⟨h.host, h.flash, h.hbm⟩

theorem setPages_canonical (h : Canonical a) (p n r) : Canonical (a.setPages p n r) := ⟨h.host, h.flash, h.hbm⟩

theorem unretirePages_canonical (h : Canonical a) : Canonical a.unretirePages := ⟨h.host, h.flash, h.hbm⟩

theorem zeroHbm_canonical (h : Canonical a) : Canonical a.zeroHbm := ⟨h.host, h.flash, twf_tclear _ _ _ _ h.hbm⟩

/-- Stacks that change place take their bytes with them, one by one into an empty memory (log 61). -/
theorem remapHbm_canonical (h : Canonical a) (old use) : Canonical (a.remapHbm old use) := by
  refine .ite h ⟨h.host, h.flash, List.foldlRecOn (motive := fun t => twf Config.blank t = true) _ _ (twf_nil _) ?_⟩
  exact fun t ht e _ => twf_tset _ _ _ _ ht

theorem jnlErase_canonical (h : Canonical a) : Canonical a.jnlErase := ⟨h.host, twf_tclear _ _ _ _ h.flash, h.hbm⟩

theorem flashClear_canonical (h : Canonical a) (x n) : Canonical (a.flashClear x n) := ⟨h.host, twf_tclear _ _ _ _ h.flash, h.hbm⟩

theorem flashProgram_canonical (h : Canonical a) (x l) : Canonical (a.flashProgram x l) :=
  ⟨h.host, twf_mwrite _ _ _ _ h.flash, h.hbm⟩

theorem flashSpoil_canonical (h : Canonical a) (x n) : Canonical (a.flashSpoil x n) := ⟨h.host, twf_mwrite _ _ _ _ h.flash, h.hbm⟩

theorem raise_canonical (h : Canonical a) (x1 x2) : Canonical (a.raise x1 x2) := h.of_kept (by apply raise_kept .refl; decide)

theorem journal_canonical (h : Canonical a) (x1 x2 x3 x4 x5) : Canonical (a.journal x1 x2 x3 x4 x5) :=
  .ite h (.ite ⟨h.host, twf_mwrite _ _ _ _ h.flash, h.hbm⟩ (raise_canonical (by exact ⟨h.host, h.flash, h.hbm⟩) _ _))

theorem closeJournal_canonical (h : Canonical a) : Canonical a.closeJournal :=
  ⟨h.host, List.foldlRecOn (motive := fun t => twf Config.erased t = true) _ _ h.flash fun _ ht _ _ => twf_tclear _ _ _ _ ht, h.hbm⟩

theorem pchCount_canonical (h : Canonical a) (x1 x2 x3 x4) : Canonical (a.pchCount x1 x2 x3 x4) :=
  .ite (raise_canonical (by exact ⟨h.host, h.flash, h.hbm⟩) _ _) ⟨h.host, h.flash, h.hbm⟩

theorem corrected_canonical (h : Canonical a) (x) : Canonical (a.corrected x) :=
  raise_canonical (by exact ⟨h.host, h.flash, h.hbm⟩) _ _

theorem bare_canonical (h : Canonical a) : Canonical a.bare := ⟨h.host, h.flash, twf_nil _⟩

theorem powerLost_canonical (h : Canonical a) : Canonical a.powerLost := ⟨h.host, h.flash, twf_nil _⟩

theorem pkgClear_canonical (h : Canonical a) : Canonical a.pkgClear := ⟨h.host, h.flash, h.hbm⟩

theorem resetUnits_canonical (h : Canonical a) : Canonical a.resetUnits := ⟨h.host, h.flash, h.hbm⟩

theorem beginScrub_canonical (h : Canonical a) (i) : Canonical (a.beginScrub i) := ⟨h.host, h.flash, h.hbm⟩

theorem scrubPart_canonical (h : Canonical a) (i) : Canonical (a.scrubPart i) := by
  unfold Machine.scrubPart
  simp -zeta -iota -proj only [Machine.upd_hbm_eq, Machine.upd_strm_eq, Machine.upd_txn_eq]
  refine .of_kept (.of_kept (.foldl ?_ fun x e hx => ?_) (Kept.set_strm .refl (by decide))) (Kept.set_txn .refl (by decide))
  · have hz := hbmZero_canonical h (a.partPage i * pageBytes) ((a.partPage (i + 1) - a.partPage i) * pageBytes)
    exact hz.set_hbm hz.hbm
  · exact hx.of_kept (by apply modTile_kept .refl; decide)

/-- The dump is the image of the machine as it stood before the reset (15 R444). -/
theorem writeDump_canonical (h : Canonical a) (c) : Canonical (a.writeDump c) := by
  unfold Machine.writeDump
  simp -zeta -iota -proj only [Machine.upd_luff_free_eq]
  refine .of_kept ?_ (Kept.set_luff_free .refl (by decide) (by decide))
  exact hbmWrite_canonical (.foldl h fun x e hx => hbmWrite_canonical hx _ _) _ _

theorem crash_canonical (h : Canonical a) {full : Machine} (hf : Canonical full) (x1 x2 x3 x4 x5) :
    Canonical (a.crash full x1 x2 x3 x4 x5) := by
  unfold Machine.crash
  with_reducible apply Canonical.ite
  · exact ⟨h.host, h.flash, h.hbm⟩
  with_reducible apply Canonical.ite
  · with_reducible apply raise_canonical
    exact ⟨h.host, h.flash, h.hbm⟩
  · exact ⟨h.host, h.flash, (writeDump_canonical hf _).hbm⟩

end
end Sys2Proof.Machine

/-! ### The operations that keep all three, by their frames -/

namespace Sys2Proof.Machine

section
variable {a : Machine}

theorem modBoot_canonical (h : Canonical a) (x1 : Boot → Boot) : Canonical (Machine.modBoot a x1) := h.of_kept (modBoot_kept .refl x1 (by decide))

theorem setStep_canonical (h : Canonical a) (x1 : Nat) (x2 : BootSt) : Canonical (Machine.setStep a x1 x2) :=
  h.of_kept (setStep_kept .refl x1 x2 (by decide))

theorem sendHave_canonical (h : Canonical a) : Canonical (Machine.sendHave a) := h.of_kept (sendHave_kept .refl (by decide))

theorem bcastSend_canonical (h : Canonical a) : Canonical (Machine.bcastSend a) := h.of_kept (bcastSend_kept .refl (by decide) (by decide))

theorem bcastCommit_canonical (h : Canonical a) : Canonical (Machine.bcastCommit a) :=
  h.of_kept (bcastCommit_kept .refl (by decide) (by decide) (by decide))

theorem reportDone_canonical (h : Canonical a) : Canonical (Machine.reportDone a) := h.of_kept (reportDone_kept .refl (by decide) (by decide))

theorem learnSize_canonical (h : Canonical a) (x1 : BundleId) : Canonical (Machine.learnSize a x1) :=
  h.of_kept (learnSize_kept .refl x1 (by decide))

theorem checkManifest_canonical (h : Canonical a) (x1 : BundleId) : Canonical (Machine.checkManifest a x1) :=
  h.of_kept (checkManifest_kept .refl x1 (by decide) (by decide))

theorem checkChunk_canonical (h : Canonical a) (x1 : Nat) : Canonical (Machine.checkChunk a x1) :=
  h.of_kept (checkChunk_kept .refl x1 (by decide) (by decide))

theorem modBcast_canonical (h : Canonical a) (x1 : Bcast → Bcast) : Canonical (Machine.modBcast a x1) :=
  h.of_kept (modBcast_kept .refl x1 (by decide))

theorem tellAll_canonical (h : Canonical a) (x1 : List NodeId) (x2 : Mgmt) : Canonical (Machine.tellAll a x1 x2) :=
  h.of_kept (tellAll_kept .refl x1 x2 (by decide))

theorem modTime_canonical (h : Canonical a) (x1 : TimeBlk → TimeBlk) : Canonical (Machine.modTime a x1) :=
  h.of_kept (modTime_kept .refl x1 (by decide))

theorem setLocked_canonical (h : Canonical a) (x1 : Bool) : Canonical (Machine.setLocked a x1) :=
  h.of_kept (setLocked_kept .refl x1 (by decide) (by decide))

theorem hlyItem_canonical (h : Canonical a) (x1 : Nat) : Canonical (Machine.hlyItem a x1) := h.of_kept (hlyItem_kept .refl x1 (by decide))

theorem flushReads_canonical (h : Canonical a) (x1 : Nat) : Canonical (Machine.flushReads a x1) := h.of_kept (flushReads_kept .refl x1 (by decide))

theorem interrupt_canonical (h : Canonical a) (x1 x2 : Nat) : Canonical (Machine.interrupt a x1 x2) :=
  h.of_kept (interrupt_kept .refl x1 x2 (by decide) (by decide))

theorem Canonical.set_part (h : Canonical a) {v0 : Part} : Canonical (a.upd_part v0) := h.of_kept (Kept.set_part .refl (by decide))

theorem modBase_canonical (h : Canonical a) (x1 : Nat) (x2 : CtxBase → CtxBase) : Canonical (Machine.modBase a x1 x2) :=
  h.of_kept (modBase_kept .refl x1 x2 (by decide))

theorem unbindPart_canonical (h : Canonical a) (x1 : Nat) : Canonical (Machine.unbindPart a x1) := h.of_kept (unbindPart_kept .refl x1 (by decide))

theorem setPart_canonical (h : Canonical a) (x1 : Nat) (x2 : PartRec) : Canonical (Machine.setPart a x1 x2) :=
  h.of_kept (setPart_kept .refl x1 x2 (by decide))

theorem modXc_canonical (h : Canonical a) (x1 : Nat) (x2 : Xc → Xc) : Canonical (Machine.modXc a x1 x2) :=
  h.of_kept (modXc_kept .refl x1 x2 (by decide))

theorem ctxInterrupt_canonical (h : Canonical a) (x1 x2 : Nat) : Canonical (Machine.ctxInterrupt a x1 x2) :=
  h.of_kept (ctxInterrupt_kept .refl x1 x2 (by decide) (by decide))

theorem breach_canonical (h : Canonical a) (x1 : Nat) (x2 : RunStep) : Canonical (Machine.breach a x1 x2) :=
  h.of_kept (breach_kept .refl x1 x2 (by decide))

theorem endStep_canonical (h : Canonical a) (x1 : Nat) : Canonical (Machine.endStep a x1) := h.of_kept (by apply endStep_kept .refl <;> decide)

theorem returnGates_canonical (h : Canonical a) (x1 : Nat) : Canonical (Machine.returnGates a x1) :=
  h.of_kept (returnGates_kept .refl x1 (by decide))

theorem stopTiles_canonical (h : Canonical a) (x1 : Nat) : Canonical (Machine.stopTiles a x1) :=
  h.of_kept (stopTiles_kept .refl x1 (by decide) (by decide))

theorem reportEach_canonical (h : Canonical a) (x1 : Nat) (x2 : List Nat) : Canonical (Machine.reportEach a x1 x2) :=
  h.of_kept (reportEach_kept .refl x1 x2 (by decide))

theorem raiseCtx_canonical (h : Canonical a) (x1 x2 x3 : Nat) : Canonical (Machine.raiseCtx a x1 x2 x3) :=
  h.of_kept (raiseCtx_kept .refl x1 x2 x3 (by decide))

theorem meterHbm_canonical (h : Canonical a) (x1 x2 : Nat) : Canonical (Machine.meterHbm a x1 x2) :=
  h.of_kept (meterHbm_kept .refl x1 x2 (by decide))

theorem storeWrite_canonical (h : Canonical a) (x1 x2 : Nat) (x3 : List Byte) : Canonical (Machine.storeWrite a x1 x2 x3) :=
  h.of_kept (storeWrite_kept .refl x1 x2 x3 (by decide))

theorem modTile_canonical (h : Canonical a) (x1 : Nat) (x2 : TileRec → TileRec) : Canonical (Machine.modTile a x1 x2) :=
  h.of_kept (modTile_kept .refl x1 x2 (by decide))

theorem luffStep_canonical (h : Canonical a) (x1 : Nat) : Canonical (Machine.luffStep a x1) := h.of_kept (luffStep_kept .refl x1 (by decide))

theorem settle_canonical (h : Canonical a) (x1 : Nat) : Canonical (Machine.settle a x1) := h.of_kept (by apply settle_kept .refl <;> decide)

theorem detect_canonical (h : Canonical a) (x1 : Nat) (x2 : Viol) : Canonical (Machine.detect a x1 x2) :=
  h.of_kept (detect_kept .refl x1 x2 (by decide))

theorem modCmd_canonical (h : Canonical a) (x1 x2 : Nat) (x3 : CeCmd → CeCmd) : Canonical (Machine.modCmd a x1 x2 x3) :=
  h.of_kept (modCmd_kept .refl x1 x2 x3 (by decide))

theorem modQueue_canonical (h : Canonical a) (x1 x2 : Nat) (x3 : CeQueue → CeQueue) : Canonical (Machine.modQueue a x1 x2 x3) :=
  h.of_kept (modQueue_kept .refl x1 x2 x3 (by decide))

theorem ceStop_canonical (h : Canonical a) (x1 x2 x3 : Nat) : Canonical (Machine.ceStop a x1 x2 x3) :=
  h.of_kept (ceStop_kept .refl x1 x2 x3 (by decide))

theorem ceCharge_canonical (h : Canonical a) (x1 x2 x3 : Nat) : Canonical (Machine.ceCharge a x1 x2 x3) :=
  h.of_kept (ceCharge_kept .refl x1 x2 x3 (by decide) (by decide) (by decide))

theorem Canonical.set_txn (h : Canonical a) {v0 : Table (Option TxnRec)} : Canonical (a.upd_txn v0) := h.of_kept (Kept.set_txn .refl (by decide))

theorem reqSegment_canonical (h : Canonical a) (x1 x2 x3 : Nat) (x4 : CeCmd) : Canonical (Machine.reqSegment a x1 x2 x3 x4) :=
  h.of_kept (by apply reqSegment_kept .refl <;> decide)

theorem msgSegment_canonical (h : Canonical a) (x1 x2 x3 : Nat) (x4 : CeCmd) : Canonical (Machine.msgSegment a x1 x2 x3 x4) :=
  h.of_kept (by apply msgSegment_kept .refl <;> decide)

theorem modEngine_canonical (h : Canonical a) (x1 : Nat) (x2 : CeEng → CeEng) : Canonical (Machine.modEngine a x1 x2) :=
  h.of_kept (modEngine_kept .refl x1 x2 (by decide))

theorem modCtx_canonical (h : Canonical a) (x1 : Nat) (x2 : CtxRec → CtxRec) : Canonical (Machine.modCtx a x1 x2) :=
  h.of_kept (modCtx_kept .refl x1 x2 (by decide))

theorem orphanTxns_canonical (h : Canonical a) (x1 x2 : Nat) : Canonical (Machine.orphanTxns a x1 x2) :=
  h.of_kept (orphanTxns_kept .refl x1 x2 (by decide))

theorem loseTile_canonical (h : Canonical a) (x1 : Nat) (x2 : Bool) : Canonical (Machine.loseTile a x1 x2) :=
  h.of_kept (loseTile_kept .refl x1 x2 (by decide) (by decide))

theorem raiseAs_canonical (h : Canonical a) (x1 x2 x3 : Nat) (x4 : Option Nat) : Canonical (Machine.raiseAs a x1 x2 x3 x4) :=
  h.of_kept (raiseAs_kept .refl x1 x2 x3 x4 (by decide))

theorem modHly_canonical (h : Canonical a) (x1 : HlyReg → HlyReg) : Canonical (Machine.modHly a x1) := h.of_kept (modHly_kept .refl x1 (by decide))

theorem rescueMode_canonical (h : Canonical a) : Canonical (Machine.rescueMode a) :=
  h.of_kept (rescueMode_kept .refl (by decide) (by decide) (by decide))

theorem setRig_canonical (h : Canonical a) (x1 x2 : Nat) : Canonical (Machine.setRig a x1 x2) := h.of_kept (setRig_kept .refl x1 x2 (by decide))

theorem modDb_canonical (h : Canonical a) (x1 : HlyDb → HlyDb) : Canonical (Machine.modDb a x1) := h.of_kept (modDb_kept .refl x1 (by decide))

theorem Canonical.set_shr_reef (h : Canonical a) {v0 : Shr} {v1 : Reef} : Canonical (a.upd_shr_reef v0 v1) :=
  h.of_kept (Kept.set_shr_reef .refl (by decide) (by decide))

theorem modSrc_canonical (h : Canonical a) (x1 : Nat) (x2 : SrcRec → SrcRec) : Canonical (Machine.modSrc a x1 x2) :=
  h.of_kept (modSrc_kept .refl x1 x2 (by decide))

theorem modTtl_canonical (h : Canonical a) (x1 : Ttl → Ttl) : Canonical (Machine.modTtl a x1) := h.of_kept (modTtl_kept .refl x1 (by decide))

theorem measure_canonical (h : Canonical a) (x1 : Nat) (x2 : List Byte) : Canonical (Machine.measure a x1 x2) :=
  h.of_kept (measure_kept .refl x1 x2 (by decide))

theorem modRdie_canonical (h : Canonical a) (x1 : Nat) (x2 : ReefDie → ReefDie) : Canonical (Machine.modRdie a x1 x2) :=
  h.of_kept (modRdie_kept .refl x1 x2 (by decide))

theorem Canonical.set_shr (h : Canonical a) {v0 : Shr} : Canonical (a.upd_shr v0) := h.of_kept (Kept.set_shr .refl (by decide))

theorem retestTile_canonical (h : Canonical a) (x1 : Nat) (x2 : Bool) : Canonical (Machine.retestTile a x1 x2) :=
  h.of_kept (retestTile_kept .refl x1 x2 (by decide) (by decide) (by decide))

theorem testTile_canonical (h : Canonical a) (x1 : Nat) (x2 : Bool) : Canonical (Machine.testTile a x1 x2) :=
  h.of_kept (testTile_kept .refl x1 x2 (by decide))

theorem fetchAdvert_canonical (h : Canonical a) : Canonical (Machine.fetchAdvert a) := h.of_kept (fetchAdvert_kept .refl (by decide) (by decide))

theorem offerMeasures_canonical (h : Canonical a) : Canonical (Machine.offerMeasures a) := h.of_kept (offerMeasures_kept .refl (by decide))

theorem switchHalyard_canonical (h : Canonical a) : Canonical (Machine.switchHalyard a) := h.of_kept (switchHalyard_kept .refl (by decide))

theorem stageBundle_canonical (h : Canonical a) : Canonical (Machine.stageBundle a) := h.of_kept (stageBundle_kept .refl (by decide) (by decide))

theorem startHalyard_canonical (h : Canonical a) : Canonical (Machine.startHalyard a) :=
  h.of_kept (startHalyard_kept .refl (by decide) (by decide) (by decide))

theorem assignPorts_canonical (h : Canonical a) (x1 : List CableRead) : Canonical (Machine.assignPorts a x1) :=
  h.of_kept (by apply assignPorts_kept .refl <;> decide)

theorem mapTiles_canonical (h : Canonical a) : Canonical (Machine.mapTiles a) := h.of_kept (by apply mapTiles_kept .refl <;> decide)

theorem orderCopies_canonical (h : Canonical a) : Canonical (Machine.orderCopies a) := h.of_kept (orderCopies_kept .refl (by decide))

theorem Canonical.set_hly (h : Canonical a) {v0 : Hly} : Canonical (a.upd_hly v0) := h.of_kept (Kept.set_hly .refl (by decide))

theorem aloneElect_canonical (h : Canonical a) : Canonical (Machine.aloneElect a) := h.of_kept (by apply aloneElect_kept .refl <;> decide)

theorem resync_canonical (h : Canonical a) : Canonical (Machine.resync a) := h.of_kept (resync_kept .refl (by decide))

theorem floodOwn_canonical (h : Canonical a) : Canonical (Machine.floodOwn a) := h.of_kept (by apply floodOwn_kept .refl <;> decide)

theorem makeRoot_canonical (h : Canonical a) : Canonical (Machine.makeRoot a) := h.of_kept (makeRoot_kept .refl (by decide))

theorem farLog_canonical (h : Canonical a) (x1 : DWord) (x2 x3 : Nat) (x4 : List Byte) : Canonical (Machine.farLog a x1 x2 x3 x4) :=
  h.of_kept (farLog_kept .refl x1 x2 x3 x4 (by decide) (by decide))

theorem Canonical.set_luff (h : Canonical a) {v0 : Luff} : Canonical (a.upd_luff v0) := h.of_kept (Kept.set_luff .refl (by decide))

theorem tryRelease_canonical (h : Canonical a) (x1 : Nat) : Canonical (Machine.tryRelease a x1) :=
  h.of_kept (tryRelease_kept .refl x1 (by decide) (by decide) (by decide))

theorem tell_canonical (h : Canonical a) (x1 : NodeId) (x2 : Mgmt) : Canonical (Machine.tell a x1 x2) :=
  h.of_kept (tell_kept .refl x1 x2 (by decide))

theorem setSlice_canonical (h : Canonical a) (x1 : Nat) (x2 : SliceRec) : Canonical (Machine.setSlice a x1 x2) :=
  h.of_kept (setSlice_kept .refl x1 x2 (by decide))

theorem removeContext_canonical (h : Canonical a) (x1 : Nat) : Canonical (Machine.removeContext a x1) :=
  h.of_kept (by apply removeContext_kept .refl <;> decide)

theorem ctxDone_canonical (h : Canonical a) (x1 x2 : Nat) : Canonical (Machine.ctxDone a x1 x2) :=
  h.of_kept (ctxDone_kept .refl x1 x2 (by decide) (by decide) (by decide))

theorem reportFinal_canonical (h : Canonical a) (x1 : Nat) : Canonical (Machine.reportFinal a x1) :=
  h.of_kept (reportFinal_kept .refl x1 (by decide))

theorem dropFence_canonical (h : Canonical a) (x1 : Domain) : Canonical (Machine.dropFence a x1) := h.of_kept (dropFence_kept .refl x1 (by decide))

theorem dieBallast_canonical (h : Canonical a) : Canonical (Machine.dieBallast a) := h.of_kept (dieBallast_kept .refl (by decide))

theorem startFence_canonical (h : Canonical a) (x1 : Domain) (x2 x3 : Nat) : Canonical (Machine.startFence a x1 x2 x3) :=
  h.of_kept (by apply startFence_kept .refl <;> decide)

theorem ttlResetStart_canonical (h : Canonical a) : Canonical (Machine.ttlResetStart a) := h.of_kept (ttlResetStart_kept .refl (by decide))

theorem rstBegin_canonical (h : Canonical a) : Canonical (Machine.rstBegin a) := h.of_kept (rstBegin_kept .refl (by decide))

theorem resetTile_canonical (h : Canonical a) (x1 : Nat) : Canonical (Machine.resetTile a x1) := h.of_kept (resetTile_kept .refl x1 (by decide))

theorem drainEnd_canonical (h : Canonical a) (x1 : List Nat) (x2 : DWord) : Canonical (Machine.drainEnd a x1 x2) :=
  h.of_kept (by apply drainEnd_kept .refl <;> decide)

theorem modLuff_canonical (h : Canonical a) (x1 : Luff → Luff) : Canonical (Machine.modLuff a x1) := h.of_kept (modLuff_kept .refl x1 (by decide))

theorem took_canonical (h : Canonical a) : Canonical (Machine.took a).1 := h.of_kept (took_kept .refl)

theorem writeXcArg_canonical (h : Canonical a) (x1 x2 : Nat) (x3 : Word) : Canonical (Machine.writeXcArg a x1 x2 x3).1 :=
  h.of_kept (writeXcArg_kept .refl x1 x2 x3 (by decide))

theorem writeXcCtrl_canonical (h : Canonical a) (x1 : Nat) (x2 : Word) : Canonical (Machine.writeXcCtrl a x1 x2).1 :=
  h.of_kept (by apply writeXcCtrl_kept .refl <;> decide)

theorem armHi_canonical (h : Canonical a) (x1 x2 : Nat) (x3 : Word) : Canonical (Machine.armHi a x1 x2 x3) :=
  h.of_kept (armHi_kept .refl x1 x2 x3 (by decide))

theorem armLo_canonical (h : Canonical a) (x1 x2 : Nat) (x3 : Word) : Canonical (Machine.armLo a x1 x2 x3) :=
  h.of_kept (armLo_kept .refl x1 x2 x3 (by decide))

theorem writeWin_canonical (h : Canonical a) (x1 x2 : Nat) (x3 : Word) : Canonical (Machine.writeWin a x1 x2 x3).1 :=
  h.of_kept (writeWin_kept .refl x1 x2 x3 (by decide))

theorem writeCtxCe_canonical (h : Canonical a) (x1 x2 : Nat) (x3 : Word) : Canonical (Machine.writeCtxCe a x1 x2 x3).1 :=
  h.of_kept (writeCtxCe_kept .refl x1 x2 x3 (by decide) (by decide))

theorem writeSt_canonical (h : Canonical a) (x1 x2 : Nat) (x3 : Word) : Canonical (Machine.writeSt a x1 x2 x3).1 :=
  h.of_kept (by apply writeSt_kept .refl <;> decide)

theorem snapContext_canonical (h : Canonical a) (x1 : Nat) : Canonical (Machine.snapContext a x1) :=
  h.of_kept (snapContext_kept .refl x1 (by decide))

theorem writeCtxCtrl_canonical (h : Canonical a) (x1 : Word) : Canonical (Machine.writeCtxCtrl a x1).1 :=
  h.of_kept (writeCtxCtrl_kept .refl x1 (by decide) (by decide) (by decide))

theorem Canonical.set_ctxCmd (h : Canonical a) {v0 : CtxCmd} : Canonical (a.upd_ctxCmd v0) := h.of_kept (Kept.set_ctxCmd .refl (by decide))

theorem writeRst_canonical (h : Canonical a) (x1 : Nat) (x2 : Word) : Canonical (Machine.writeRst a x1 x2).1 :=
  h.of_kept (writeRst_kept .refl x1 x2 (by decide))

theorem writeHst_canonical (h : Canonical a) (x1 : Nat) (x2 : Word) : Canonical (Machine.writeHst a x1 x2).1 :=
  h.of_kept (by apply writeHst_kept .refl <;> decide)

theorem writePart_canonical (h : Canonical a) (x1 : Nat) (x2 : Word) : Canonical (Machine.writePart a x1 x2).1 :=
  h.of_kept (writePart_kept .refl x1 x2 (by decide) (by decide) (by decide))

theorem writeShr_canonical (h : Canonical a) (x1 : Nat) (x2 : Word) : Canonical (Machine.writeShr a x1 x2).1 :=
  h.of_kept (writeShr_kept .refl x1 x2 (by decide))

theorem writeReef_canonical (h : Canonical a) (x1 : Nat) (x2 : Word) : Canonical (Machine.writeReef a x1 x2).1 :=
  h.of_kept (writeReef_kept .refl x1 x2 (by decide) (by decide))

theorem writeTtl_canonical (h : Canonical a) (x1 : Nat) (x2 : Word) : Canonical (Machine.writeTtl a x1 x2).1 :=
  h.of_kept (writeTtl_kept .refl x1 x2 (by decide))

theorem writeMsix_canonical (h : Canonical a) (x1 x2 x3 : Nat) (x4 : Word) : Canonical (Machine.writeMsix a x1 x2 x3 x4) :=
  h.of_kept (writeMsix_kept .refl x1 x2 x3 x4 (by decide) (by decide))

theorem accessed_canonical (h : Canonical a) (x1 x2 x3 : Nat) : Canonical (Machine.accessed a x1 x2 x3) :=
  h.of_kept (accessed_kept .refl x1 x2 x3 (by decide))

theorem accErr_canonical (h : Canonical a) (x1 x2 x3 : Nat) : Canonical (Machine.accErr a x1 x2 x3) :=
  h.of_kept (accErr_kept .refl x1 x2 x3 (by decide))

theorem modStrm_canonical (h : Canonical a) (x1 : Nat) (x2 : StreamRec → StreamRec) : Canonical (Machine.modStrm a x1 x2) :=
  h.of_kept (modStrm_kept .refl x1 x2 (by decide))

theorem Canonical.set_strm (h : Canonical a) {v0 : Strm} : Canonical (a.upd_strm v0) := h.of_kept (Kept.set_strm .refl (by decide))

theorem modSite_canonical (h : Canonical a) (x1 : Nat) (x2 : SiteRec → SiteRec) : Canonical (Machine.modSite a x1 x2) :=
  h.of_kept (modSite_kept .refl x1 x2 (by decide))

theorem modFar_canonical (h : Canonical a) (x1 : Farnis → Farnis) : Canonical (Machine.modFar a x1) := h.of_kept (modFar_kept .refl x1 (by decide))

theorem Canonical.set_scan (h : Canonical a) {v0 : Scan} : Canonical (a.upd_scan v0) := h.of_kept (Kept.set_scan .refl (by decide))

theorem reply_canonical (h : Canonical a) (x1 : Nat) (x2 : Bool) : Canonical (Machine.reply a x1 x2) :=
  h.of_kept (reply_kept .refl x1 x2 (by decide))

theorem answerMctp_canonical (h : Canonical a) (x1 : MsgHdr) (x2 x3 x4 : Nat) (x5 : List Byte) : Canonical (Machine.answerMctp a x1 x2 x3 x4 x5) :=
  h.of_kept (answerMctp_kept .refl x1 x2 x3 x4 x5 (by decide))

theorem emit_canonical (h : Canonical a) (x1 : Out) : Canonical (Machine.emit a x1) := h.of_kept (emit_kept .refl x1 (by decide))

theorem Canonical.set_card (h : Canonical a) {v0 : Card} : Canonical (a.upd_card v0) := h.of_kept (Kept.set_card .refl (by decide))

theorem pushDone_canonical (h : Canonical a) (x1 : HlyDone) : Canonical (Machine.pushDone a x1) := h.of_kept (pushDone_kept .refl x1 (by decide))

theorem takeCmd_canonical (h : Canonical a) (x1 : Nat) (x2 : HlySrc) (x3 : List Byte) (x4 : Option CableRead) :
    Canonical (Machine.takeCmd a x1 x2 x3 x4).1 :=
  h.of_kept (takeCmd_kept .refl x1 x2 x3 x4 (by decide) (by decide))

theorem flood_canonical (h : Canonical a) (x1 : Option Nat) (x2 : Mgmt) : Canonical (Machine.flood a x1 x2) :=
  h.of_kept (flood_kept .refl x1 x2 (by decide))

theorem masterRecord_canonical (h : Canonical a) (x1 : LsRecord) (x2 x3 : Bool) : Canonical (Machine.masterRecord a x1 x2 x3) :=
  h.of_kept (by apply masterRecord_kept .refl <;> decide)

theorem settleElection_canonical (h : Canonical a) : Canonical (Machine.settleElection a) :=
  h.of_kept (by apply settleElection_kept .refl <;> decide)

theorem elect_canonical (h : Canonical a) : Canonical (Machine.elect a) := h.of_kept (by apply elect_kept .refl <;> decide)

theorem tellKids_canonical (h : Canonical a) (x1 : NodeId) (x2 : Mgmt) : Canonical (Machine.tellKids a x1 x2) :=
  h.of_kept (tellKids_kept .refl x1 x2 (by decide))

theorem announceElect_canonical (h : Canonical a) (x1 : NodeId) : Canonical (Machine.announceElect a x1) :=
  h.of_kept (announceElect_kept .refl x1 (by decide) (by decide) (by decide))

theorem announceRun_canonical (h : Canonical a) (x1 : NodeId) : Canonical (Machine.announceRun a x1) :=
  h.of_kept (by apply announceRun_kept .refl <;> decide)

theorem announceRestarting_canonical (h : Canonical a) (x1 : NodeId) : Canonical (Machine.announceRestarting a x1) :=
  h.of_kept (by apply announceRestarting_kept .refl <;> decide)

theorem switchEpoch_canonical (h : Canonical a) : Canonical (Machine.switchEpoch a) := h.of_kept (by apply switchEpoch_kept .refl <;> decide)

theorem raiseRate_canonical (h : Canonical a) (x1 : NodeId) (x2 : Nat) : Canonical (Machine.raiseRate a x1 x2) :=
  h.of_kept (raiseRate_kept .refl x1 x2 (by decide) (by decide) (by decide))

theorem Canonical.set_boot (h : Canonical a) {v0 : Boot} : Canonical (a.upd_boot v0) := h.of_kept (Kept.set_boot .refl (by decide))

theorem Canonical.set_reef (h : Canonical a) {v0 : Reef} : Canonical (a.upd_reef v0) := h.of_kept (Kept.set_reef .refl (by decide))

theorem endMctp_canonical (h : Canonical a) (x1 : HlyDone) : Canonical (Machine.endMctp a x1) :=
  h.of_kept (endMctp_kept .refl x1 (by decide) (by decide) (by decide))

theorem podCmd_canonical (h : Canonical a) (x1 : Nat) (x2 : HlySrc) (x3 : List Byte) (x4 : Option CableRead) :
    Canonical (Machine.podCmd a x1 x2 x3 x4) :=
  h.of_kept (by apply podCmd_kept .refl <;> decide)

theorem serve_canonical (h : Canonical a) : Canonical (Machine.serve a) := h.of_kept (by apply serve_kept .refl <;> decide)

theorem markEvent_canonical (h : Canonical a) (x1 x2 : Nat) : Canonical (Machine.markEvent a x1 x2) :=
  h.of_kept (markEvent_kept .refl x1 x2 (by decide) (by decide) (by decide))

theorem modPart_canonical (h : Canonical a) (x1 : Nat) (x2 : PartRec → PartRec) : Canonical (Machine.modPart a x1 x2) :=
  h.of_kept (modPart_kept .refl x1 x2 (by decide))

theorem destroyPart_canonical (h : Canonical a) (x1 x2 : Nat) : Canonical (Machine.destroyPart a x1 x2) :=
  h.of_kept (by apply destroyPart_kept .refl <;> decide)

theorem reportFlows_canonical (h : Canonical a) (x1 : Nat) : Canonical (Machine.reportFlows a x1) :=
  h.of_kept (reportFlows_kept .refl x1 (by decide))

theorem xcDone_canonical (h : Canonical a) (x1 x2 : Nat) : Canonical (Machine.xcDone a x1 x2) :=
  h.of_kept (xcDone_kept .refl x1 x2 (by decide) (by decide) (by decide))

theorem finishUnbind_canonical (h : Canonical a) (x1 : Nat) : Canonical (Machine.finishUnbind a x1) :=
  h.of_kept (by apply finishUnbind_kept .refl <;> decide)

theorem pageDone_canonical (h : Canonical a) (x1 : Nat) : Canonical (Machine.pageDone a x1) :=
  h.of_kept (pageDone_kept .refl x1 (by decide) (by decide) (by decide))

theorem modPage_canonical (h : Canonical a) (x1 : PageCmd → PageCmd) : Canonical (Machine.modPage a x1) :=
  h.of_kept (modPage_kept .refl x1 (by decide))

theorem hlinkDown_canonical (h : Canonical a) (x1 : Nat) : Canonical (Machine.hlinkDown a x1) :=
  h.of_kept (by apply hlinkDown_kept .refl <;> decide)

theorem deny_canonical (h : Canonical a) (x1 : Nat) : Canonical (Machine.deny a x1) :=
  h.of_kept (deny_kept .refl x1 (by decide) (by decide) (by decide))

theorem doorbell_canonical (h : Canonical a) (x1 x2 x3 : Nat) : Canonical (Machine.doorbell a x1 x2 x3) :=
  h.of_kept (doorbell_kept .refl x1 x2 x3 (by decide) (by decide))

theorem takeCommand_canonical (h : Canonical a) (x1 x2 x3 : Nat) (x4 : List Byte) (x5 : Nat) : Canonical (Machine.takeCommand a x1 x2 x3 x4 x5) :=
  h.of_kept (takeCommand_kept .refl x1 x2 x3 x4 x5 (by decide))

theorem refuseSend_canonical (h : Canonical a) (x1 : Nat) (x2 : CeCmd) (x3 : Nat) : Canonical (Machine.refuseSend a x1 x2 x3) :=
  h.of_kept (refuseSend_kept .refl x1 x2 x3 (by decide))

theorem expire_canonical (h : Canonical a) (x1 : Nat) : Canonical (Machine.expire a x1) := h.of_kept (expire_kept .refl x1 (by decide))

theorem failEngine_canonical (h : Canonical a) (x1 : Nat) : Canonical (Machine.failEngine a x1) :=
  h.of_kept (by apply failEngine_kept .refl <;> decide)

theorem flashRefuse_canonical (h : Canonical a) (x1 : MsgHdr) (x2 x3 : Nat) : Canonical (Machine.flashRefuse a x1 x2 x3) :=
  h.of_kept (flashRefuse_kept .refl x1 x2 x3 (by decide) (by decide))

theorem sendNack_canonical (h : Canonical a) (x1 : NodeId) : Canonical (Machine.sendNack a x1) :=
  h.of_kept (sendNack_kept .refl x1 (by decide) (by decide))

theorem toSite_canonical (h : Canonical a) (x1 : Nat) (x2 : List Byte) : Canonical (Machine.toSite a x1 x2) :=
  h.of_kept (toSite_kept .refl x1 x2 (by decide))

theorem readFault_canonical (h : Canonical a) (x1 : Nat) : Canonical (Machine.readFault a x1) := h.of_kept (readFault_kept .refl x1 (by decide))

theorem facilityLog_canonical (h : Canonical a) (x1 : DWord) (x2 : Nat) : Canonical (Machine.facilityLog a x1 x2) :=
  h.of_kept (facilityLog_kept .refl x1 x2 (by decide) (by decide))

theorem bar0Read_canonical (h : Canonical a) (x1 x2 x3 : Nat) : Canonical (Machine.bar0Read a x1 x2 x3) :=
  h.of_kept (bar0Read_kept .refl x1 x2 x3 (by decide) (by decide) (by decide))

theorem h1Read_canonical (h : Canonical a) (x1 x2 : Nat) : Canonical (Machine.h1Read a x1 x2) := h.of_kept (h1Read_kept .refl x1 x2 (by decide))

theorem takeDelta_canonical (h : Canonical a) (x1 : DbHead) (x2 : List NodeRec) (x3 : List LinkRec) : Canonical (Machine.takeDelta a x1 x2 x3) :=
  h.of_kept (by apply takeDelta_kept .refl <;> decide)

theorem takePrepare_canonical (h : Canonical a) (x1 : Prepare) : Canonical (Machine.takePrepare a x1) :=
  h.of_kept (takePrepare_kept .refl x1 (by decide) (by decide) (by decide))

end

end Sys2Proof.Machine

/-! ### The operations made of them

`simp` meets an operation at the head of a machine (`↓`), cites its lemma, and goes on with the machine that it was applied to, into both branches of
an `if` and through a fold; a `match` is split first. -/

namespace Sys2Proof.Machine

section
variable {a : Machine}

theorem note_canonical (h : Canonical a) (x1 x2 x3 x4 : Nat) : Canonical (Machine.note a x1 x2 x3 x4) := by
  unfold Machine.note
  simp +contextual (maxDischargeDepth := 50) only [h, ↓journal_canonical]

theorem enterStep_canonical (h : Canonical a) (x1 : Nat) : Canonical (Machine.enterStep a x1) := by
  unfold Machine.enterStep
  simp +contextual (maxDischargeDepth := 50) only [h, ↓journal_canonical, ↓Canonical.ite, ↓modBoot_canonical]

theorem completeStep_canonical (h : Canonical a) (x1 : Nat) : Canonical (Machine.completeStep a x1) := by
  unfold Machine.completeStep
  simp +contextual (maxDischargeDepth := 50) only [h, ↓journal_canonical, ↓Canonical.ite, ↓setStep_canonical]

theorem skipStep_canonical (h : Canonical a) (x1 x2 : Nat) : Canonical (Machine.skipStep a x1 x2) := by
  unfold Machine.skipStep
  simp +contextual (maxDischargeDepth := 50) only [h, ↓journal_canonical, ↓setStep_canonical]

theorem takeBundle_canonical (h : Canonical a) (x1 : Nat) : Canonical (Machine.takeBundle a x1) := by
  unfold Machine.takeBundle
  simp +contextual (maxDischargeDepth := 50) only [h, ↓note_canonical, ↓modBoot_canonical]

theorem settleStep_canonical (h : Canonical a) (x1 : Nat) : Canonical (Machine.settleStep a x1) := by
  unfold Machine.settleStep
  simp +contextual (maxDischargeDepth := 50) only [h, ↓takeBundle_canonical, ↓completeStep_canonical, ↓Canonical.ite, ↓sendHave_canonical]

theorem bootSettle_canonical (h : Canonical a) : Canonical (Machine.bootSettle a) := by
  unfold Machine.bootSettle
  simp +contextual (maxDischargeDepth := 50) only [h, ↓settleStep_canonical, ↓Canonical.foldl, implies_true]

theorem bundleSettle_canonical (h : Canonical a) : Canonical (Machine.bundleSettle a) := by
  unfold Machine.bundleSettle
  simp +contextual (maxDischargeDepth := 50) only [h, ↓bootSettle_canonical, ↓bcastSend_canonical, ↓bcastCommit_canonical]

theorem takeFrag_canonical (h : Canonical a) (x1 : FragHdr) (x2 : List Byte) : Canonical (Machine.takeFrag a x1 x2) := by
  unfold Machine.takeFrag
  split <;> simp +contextual (maxDischargeDepth := 50) only [h, ↓bundleSettle_canonical, ↓Canonical.ite, ↓reportDone_canonical,
    ↓learnSize_canonical, ↓checkManifest_canonical, ↓checkChunk_canonical, ↓modBcast_canonical, ↓tellAll_canonical]

theorem firstLock_canonical (h : Canonical a) (x1 : DWord) : Canonical (Machine.firstLock a x1) := by
  unfold Machine.firstLock
  simp +contextual (maxDischargeDepth := 50) only [h, ↓note_canonical, ↓modTime_canonical]

theorem syncWith_canonical (h : Canonical a) (x1 : Bool) (x2 : DWord) : Canonical (Machine.syncWith a x1 x2) := by
  unfold Machine.syncWith
  simp +contextual (maxDischargeDepth := 50) only [h, ↓firstLock_canonical, ↓Canonical.ite, ↓setLocked_canonical, ↓hlyItem_canonical,
    ↓modTime_canonical]

theorem freePages_canonical (h : Canonical a) (x1 : List Nat) : Canonical (Machine.freePages a x1) := by
  unfold Machine.freePages
  simp +contextual (maxDischargeDepth := 50) only [h, ↓hbmZero_canonical, ↓setPage_canonical, ↓Canonical.ite, ↓Canonical.foldl, implies_true]

theorem writeEvent_canonical (h : Canonical a) (x1 : SliceEvent) : Canonical (Machine.writeEvent a x1) := by
  unfold Machine.writeEvent
  simp -zeta -iota -proj only [Machine.upd_part_eq]
  simp +contextual (maxDischargeDepth := 50) only [h, ↓hostWrite_canonical, ↓Canonical.ite, ↓flushReads_canonical, ↓interrupt_canonical,
    ↓raise_canonical, ↓Canonical.set_part]

theorem localEvent_canonical (h : Canonical a) (x1 : Nat) (x2 : BitVec 8) (x3 : Nat) (x4 : Word) : Canonical (Machine.localEvent a
    x1 x2 x3 x4) := by
  unfold Machine.localEvent
  simp +contextual (maxDischargeDepth := 50) only [h, ↓writeEvent_canonical]

theorem discardFinals_canonical (h : Canonical a) (x1 : Nat) : Canonical (Machine.discardFinals a x1) := by
  unfold Machine.discardFinals
  simp -zeta -iota -proj only [Machine.upd_part_eq]
  simp +contextual (maxDischargeDepth := 50) only [h, ↓localEvent_canonical, ↓Canonical.foldl, ↓modBase_canonical, ↓Canonical.set_part,
    implies_true]

theorem bindPart_canonical (h : Canonical a) (x1 : BindEntry) : Canonical (Machine.bindPart a x1) := by
  unfold Machine.bindPart
  simp -zeta -iota -proj only [Machine.upd_part_eq]
  simp +contextual (maxDischargeDepth := 50) only [h, ↓discardFinals_canonical, ↓Canonical.ite, ↓unbindPart_canonical, ↓setPart_canonical,
    ↓Canonical.set_part]

theorem cqWrite_canonical (h : Canonical a) (x1 : Nat) (x2 : List Byte) : Canonical (Machine.cqWrite a x1 x2) := by
  unfold Machine.cqWrite
  simp +contextual (maxDischargeDepth := 50) only [h, ↓hostWrite_canonical, ↓modXc_canonical, ↓ctxInterrupt_canonical]

theorem cqFlush_canonical (h : Canonical a) (x1 : Nat) : Canonical (Machine.cqFlush a x1) := by
  unfold Machine.cqFlush
  simp +contextual (maxDischargeDepth := 50) only [h, ↓cqWrite_canonical, ↓Canonical.ite, ↓Canonical.foldl, ↓modXc_canonical, implies_true]

theorem cancelStep_canonical (h : Canonical a) (x1 : Nat) (x2 : QStep) : Canonical (Machine.cancelStep a x1 x2) := by
  unfold Machine.cancelStep
  simp +contextual (maxDischargeDepth := 50) only [h, ↓cqFlush_canonical, ↓modXc_canonical]

theorem endQueued_canonical (h : Canonical a) (x1 : Nat) (x2 : Viol) (x3 : QStep) : Canonical (Machine.endQueued a x1 x2 x3) := by
  unfold Machine.endQueued
  simp +contextual (maxDischargeDepth := 50) only [h, ↓cancelStep_canonical, ↓cqFlush_canonical, ↓Canonical.ite, ↓modXc_canonical]

theorem contain_canonical (h : Canonical a) (x1 : Nat) (x2 : Viol) : Canonical (Machine.contain a x1 x2) := by
  unfold Machine.contain
  dsimp only
  (repeat' split) <;> simp +contextual (maxDischargeDepth := 50) only [h, ↓endQueued_canonical, ↓cqWrite_canonical, ↓Canonical.foldl,
    ↓breach_canonical, ↓endStep_canonical, ↓returnGates_canonical, ↓stopTiles_canonical, ↓modXc_canonical, ↓reportEach_canonical,
    ↓raiseCtx_canonical, implies_true]

theorem moveLine_canonical (h : Canonical a) (x1 x2 : Nat) (x3 : LineOp) : Canonical (Machine.moveLine a x1 x2 x3) := by
  unfold Machine.moveLine
  simp +contextual (maxDischargeDepth := 50) only [h, ↓hbmWrite_canonical, ↓Canonical.ite, ↓meterHbm_canonical, ↓storeWrite_canonical,
    ↓modTile_canonical, ↓luffStep_canonical]

theorem drainLine_canonical (h : Canonical a) (x1 x2 : Nat) : Canonical (Machine.drainLine a x1 x2) := by
  unfold Machine.drainLine
  split <;> simp +contextual (maxDischargeDepth := 50) only [h, ↓moveLine_canonical, ↓Canonical.ite, ↓modTile_canonical]

theorem completeLine_canonical (h : Canonical a) (x1 x2 : Nat) : Canonical (Machine.completeLine a x1 x2) := by
  unfold Machine.completeLine
  dsimp only
  (repeat' split) <;> simp +contextual (maxDischargeDepth := 50) only [h, ↓drainLine_canonical, ↓moveLine_canonical, ↓settle_canonical,
    ↓detect_canonical]

theorem ceHostWrite_canonical (h : Canonical a) (x1 x2 x3 x4 : Nat) (x5 : List Byte) : Canonical (Machine.ceHostWrite a x1 x2 x3
    x4 x5) := by
  unfold Machine.ceHostWrite
  simp +contextual (maxDischargeDepth := 50) only [h, ↓hostWrite_canonical, ↓Canonical.ite, ↓modCmd_canonical, ↓modQueue_canonical]

theorem moveSegment_canonical (h : Canonical a) (x1 x2 x3 : Nat) (x4 : CeCmd) : Canonical (Machine.moveSegment a x1 x2 x3 x4) := by
  unfold Machine.moveSegment
  simp +contextual (maxDischargeDepth := 50) only [h, ↓ceHostWrite_canonical, ↓hbmWrite_canonical, ↓Canonical.ite, ↓ceStop_canonical,
    ↓ceCharge_canonical, ↓modCmd_canonical, ↓meterHbm_canonical]

theorem reqDone_canonical (h : Canonical a) (x1 : TxnRec) (x2 : Nat) (x3 : List Byte) : Canonical (Machine.reqDone a x1 x2 x3) := by
  unfold Machine.reqDone
  split <;> simp +contextual (maxDischargeDepth := 50) only [h, ↓hbmWrite_canonical, ↓Canonical.ite, ↓ceStop_canonical, ↓ceCharge_canonical,
    ↓modCmd_canonical, ↓meterHbm_canonical]

theorem reqComplete_canonical (h : Canonical a) (x1 x2 : Nat) (x3 : List Byte) : Canonical (Machine.reqComplete a x1 x2 x3) := by
  unfold Machine.reqComplete
  simp -zeta -iota -proj only [Machine.upd_txn_eq]
  split <;> simp +contextual (maxDischargeDepth := 50) only [h, ↓reqDone_canonical, ↓Canonical.set_txn]

theorem serveSegment_canonical (h : Canonical a) (x1 x2 x3 : Nat) : Canonical (Machine.serveSegment a x1 x2 x3) := by
  unfold Machine.serveSegment
  dsimp only
  split <;> simp +contextual (maxDischargeDepth := 50) only [h, ↓moveSegment_canonical, ↓Canonical.ite, ↓reqSegment_canonical,
    ↓msgSegment_canonical, ↓modEngine_canonical, ↓modCmd_canonical, ↓modCtx_canonical]

theorem beginOp_canonical (h : Canonical a) (x1 x2 x3 : Nat) : Canonical (Machine.beginOp a x1 x2 x3) := by
  unfold Machine.beginOp
  split <;> simp +contextual (maxDischargeDepth := 50) only [h, ↓serveSegment_canonical, ↓Canonical.ite]

theorem ceRecordOut_canonical (h : Canonical a) (x1 : Nat) (x2 : List Byte) : Canonical (Machine.ceRecordOut a x1 x2) := by
  unfold Machine.ceRecordOut
  simp +contextual (maxDischargeDepth := 50) only [h, ↓hostWrite_canonical, ↓modCtx_canonical]

theorem ceFinish_canonical (h : Canonical a) (x1 x2 : Nat) (x3 : CeCmd) : Canonical (Machine.ceFinish a x1 x2 x3) := by
  unfold Machine.ceFinish
  (repeat' split) <;> simp +contextual (maxDischargeDepth := 50) only [h, ↓ceRecordOut_canonical, ↓hostWrite_canonical, ↓Canonical.ite,
    ↓orphanTxns_canonical, ↓modQueue_canonical, ↓ctxInterrupt_canonical, ↓raiseCtx_canonical, ↓raise_canonical, ↓luffStep_canonical]

theorem ceComplete_canonical (h : Canonical a) (x1 x2 : Nat) : Canonical (Machine.ceComplete a x1 x2) := by
  unfold Machine.ceComplete
  dsimp only
  split <;> simp +contextual (maxDischargeDepth := 50) only [h, ↓ceFinish_canonical, ↓Canonical.ite, ↓modCmd_canonical, ↓flushReads_canonical]

theorem h1Lost_canonical (h : Canonical a) (x1 x2 : Nat) : Canonical (Machine.h1Lost a x1 x2) := by
  unfold Machine.h1Lost
  dsimp only
  split <;> simp +contextual (maxDischargeDepth := 50) only [h, ↓ceFinish_canonical, ↓Canonical.ite, ↓ceStop_canonical, ↓modQueue_canonical]

theorem raiseLevel_canonical (h : Canonical a) (x1 : List JRec) (x2 : Nat) : Canonical (Machine.raiseLevel a x1 x2) := by
  unfold Machine.raiseLevel
  simp +contextual (maxDischargeDepth := 50) only [h, ↓journal_canonical, ↓Canonical.ite, ↓modBoot_canonical, ↓raise_canonical]

theorem openJournal_canonical (h : Canonical a) (x1 : Bool) : Canonical (Machine.openJournal a x1) := by
  unfold Machine.openJournal
  simp +contextual (maxDischargeDepth := 50) only [h, ↓jnlErase_canonical, ↓raiseLevel_canonical, ↓note_canonical, ↓journal_canonical,
    ↓Canonical.ite, ↓Canonical.foldl, ↓modBoot_canonical, implies_true]

theorem altClear_canonical (h : Canonical a) : Canonical (Machine.altClear a) := by
  unfold Machine.altClear
  simp +contextual (maxDischargeDepth := 50) only [h, ↓journal_canonical, ↓Canonical.ite]

theorem uncorrectable_canonical (h : Canonical a) (x1 : Nat) : Canonical (Machine.uncorrectable a x1) := by
  unfold Machine.uncorrectable
  simp +contextual (maxDischargeDepth := 50) only [h, ↓pchCount_canonical, ↓setPage_canonical, ↓Canonical.ite, ↓Canonical.foldl,
    ↓loseTile_canonical, ↓raiseAs_canonical, implies_true]

theorem composeNode_canonical (h : Canonical a) : Canonical (Machine.composeNode a) := by
  unfold Machine.composeNode
  simp +contextual (maxDischargeDepth := 50) only [h, ↓note_canonical, ↓Canonical.ite, ↓modHly_canonical]

theorem copyFails_canonical (h : Canonical a) (x1 : Nat) : Canonical (Machine.copyFails a x1) := by
  unfold Machine.copyFails
  simp +contextual (maxDischargeDepth := 50) only [h, ↓note_canonical, ↓Canonical.ite, ↓rescueMode_canonical, ↓modBoot_canonical, ↓raise_canonical]

theorem loadField_canonical (h : Canonical a) (x1 x2 : Nat) : Canonical (Machine.loadField a x1 x2) := by
  unfold Machine.loadField
  simp +contextual (maxDischargeDepth := 50) only [h, ↓note_canonical, ↓Canonical.ite, ↓setRig_canonical, ↓raise_canonical]

theorem loadFields_canonical (h : Canonical a) : Canonical (Machine.loadFields a) := by
  unfold Machine.loadFields
  simp -zeta -iota -proj only [Machine.upd_shr_reef_eq]
  simp +contextual (maxDischargeDepth := 50) only [h, ↓loadField_canonical, ↓composeNode_canonical, ↓note_canonical, ↓Canonical.ite,
    ↓Canonical.foldl, ↓modBoot_canonical, ↓modDb_canonical, ↓Canonical.set_shr_reef, implies_true]

theorem loadTtlEntry_canonical (h : Canonical a) (x1 : List Byte) : Canonical (Machine.loadTtlEntry a x1) := by
  unfold Machine.loadTtlEntry
  simp +contextual (maxDischargeDepth := 50) only [h, ↓note_canonical, ↓Canonical.ite, ↓modSrc_canonical]

theorem loadTtl_canonical (h : Canonical a) : Canonical (Machine.loadTtl a) := by
  unfold Machine.loadTtl
  simp +contextual (maxDischargeDepth := 50) only [h, ↓loadTtlEntry_canonical, ↓Canonical.foldl, ↓modTtl_canonical, implies_true]

theorem copyStep_canonical (h : Canonical a) (x1 : Nat) : Canonical (Machine.copyStep a x1) := by
  unfold Machine.copyStep
  (repeat' split) <;> simp +contextual (maxDischargeDepth := 50) only [h, ↓loadTtl_canonical, ↓loadFields_canonical, ↓copyFails_canonical,
    ↓completeStep_canonical, ↓measure_canonical]

theorem progress_canonical (h : Canonical a) (x1 : Nat) (x2 : List Nat) : Canonical (Machine.progress a x1 x2) := by
  unfold Machine.progress
  simp +contextual (maxDischargeDepth := 50) only [h, ↓journal_canonical, ↓Canonical.foldl, implies_true]

theorem powerDies_canonical (h : Canonical a) (x1 : List Nat) : Canonical (Machine.powerDies a x1) := by
  unfold Machine.powerDies
  simp +contextual (maxDischargeDepth := 50) only [h, ↓progress_canonical, ↓Canonical.foldl, ↓modRdie_canonical, ↓modBoot_canonical, implies_true]

theorem testStay_canonical (h : Canonical a) (x1 x2 : List Nat) : Canonical (Machine.testStay a x1 x2) := by
  unfold Machine.testStay
  simp -zeta -iota -proj only [Machine.upd_shr_eq]
  simp +contextual (maxDischargeDepth := 50) only [h, ↓progress_canonical, ↓modBoot_canonical, ↓Canonical.set_shr]

theorem testTiles_canonical (h : Canonical a) (x1 x2 : List Nat) : Canonical (Machine.testTiles a x1 x2) := by
  unfold Machine.testTiles
  simp +contextual (maxDischargeDepth := 50) only [h, ↓progress_canonical, ↓Canonical.ite, ↓Canonical.foldl, ↓retestTile_canonical,
    ↓testTile_canonical, implies_true]

theorem startPhys_canonical (h : Canonical a) (x1 : List Nat) : Canonical (Machine.startPhys a x1) := by
  unfold Machine.startPhys
  simp -zeta -iota -proj only [Machine.upd_hbm_eq]
  simp +contextual (maxDischargeDepth := 50) only [h, h.hbm, ↓progress_canonical, ↓Canonical.set_hbm]

theorem trainHbm_canonical (h : Canonical a) (x1 : List (Nat × Nat)) : Canonical (Machine.trainHbm a x1) := by
  unfold Machine.trainHbm
  simp -zeta -iota -proj only [Machine.upd_hbm_eq]
  simp +contextual (maxDischargeDepth := 50) only [h, h.hbm, ↓unretirePages_canonical, ↓remapHbm_canonical, ↓note_canonical, ↓Canonical.set_hbm,
    ↓Canonical.ite, ↓raise_canonical]

theorem yieldMap_canonical (h : Canonical a) : Canonical (Machine.yieldMap a) := by
  unfold Machine.yieldMap
  simp +contextual (maxDischargeDepth := 50) only [h, ↓note_canonical, ↓Canonical.foldl, ↓modBoot_canonical, ↓raise_canonical, implies_true]

theorem staged_canonical (h : Canonical a) : Canonical (Machine.staged a) := by
  unfold Machine.staged
  simp +contextual (maxDischargeDepth := 50) only [h, ↓bundleSettle_canonical, ↓Canonical.ite, ↓fetchAdvert_canonical, ↓sendHave_canonical]

theorem stepWork_canonical (h : Canonical a) (x1 : Nat) (x2 : BootInputs) : Canonical (Machine.stepWork a x1 x2) := by
  unfold Machine.stepWork
  simp -zeta -iota -proj only [Machine.upd_hbm_eq]
  split <;> simp +contextual (maxDischargeDepth := 50) only [h, h.hbm, ↓yieldMap_canonical, ↓zeroHbm_canonical, ↓trainHbm_canonical,
    ↓startPhys_canonical, ↓testTiles_canonical, ↓testStay_canonical, ↓powerDies_canonical, ↓closeJournal_canonical, ↓openJournal_canonical,
    ↓Canonical.set_hbm, ↓offerMeasures_canonical, ↓switchHalyard_canonical, ↓stageBundle_canonical, ↓startHalyard_canonical, ↓assignPorts_canonical,
    ↓mapTiles_canonical, ↓measure_canonical, ↓orderCopies_canonical, ↓modBoot_canonical]

theorem endMailbox_canonical (h : Canonical a) (x1 : HlyDone) : Canonical (Machine.endMailbox a x1) := by
  unfold Machine.endMailbox
  simp -zeta -iota -proj only [Machine.upd_hly_eq]
  simp +contextual (maxDischargeDepth := 50) only [h, ↓hostWrite_canonical, ↓Canonical.ite, ↓flushReads_canonical, ↓interrupt_canonical,
    ↓hlyItem_canonical, ↓Canonical.set_hly]

theorem powerUp_canonical (h : Canonical a) : Canonical (Machine.powerUp a) := by
  unfold Machine.powerUp
  simp +contextual (maxDischargeDepth := 50) only [h, ↓enterStep_canonical, ↓bare_canonical, ↓Canonical.ite, ↓Canonical.foldl, ↓modRdie_canonical,
    ↓modBoot_canonical, ↓raise_canonical, ↓modTime_canonical, implies_true]

theorem runStep_canonical (h : Canonical a) (x1 : Nat) (x2 : BootInputs) : Canonical (Machine.runStep a x1 x2) := by
  unfold Machine.runStep
  simp +contextual (maxDischargeDepth := 50) only [h, ↓stepWork_canonical, ↓staged_canonical, ↓copyStep_canonical, ↓completeStep_canonical,
    ↓Canonical.ite, ↓aloneElect_canonical, ↓resync_canonical, ↓rescueMode_canonical, ↓floodOwn_canonical]

theorem enterBoot_canonical (h : Canonical a) (x1 : Nat) (x2 : BootInputs) : Canonical (Machine.enterBoot a x1 x2) := by
  unfold Machine.enterBoot
  simp +contextual (maxDischargeDepth := 50) only [h, ↓runStep_canonical, ↓bundleSettle_canonical, ↓skipStep_canonical, ↓enterStep_canonical,
    ↓Canonical.ite]

theorem trainDeadline_canonical (h : Canonical a) : Canonical (Machine.trainDeadline a) := by
  unfold Machine.trainDeadline
  simp +contextual (maxDischargeDepth := 50) only [h, ↓bundleSettle_canonical, ↓note_canonical, ↓journal_canonical, ↓Canonical.ite,
    ↓Canonical.foldl, ↓aloneElect_canonical, ↓makeRoot_canonical, ↓setStep_canonical, ↓modBoot_canonical, ↓raise_canonical, implies_true]

theorem stepLimit_canonical (h : Canonical a) (x1 : Nat) : Canonical (Machine.stepLimit a x1) := by
  unfold Machine.stepLimit
  simp +contextual (maxDischargeDepth := 50) only [h, ↓trainDeadline_canonical, ↓note_canonical, ↓journal_canonical, ↓Canonical.ite,
    ↓setStep_canonical, ↓modBoot_canonical, ↓floodOwn_canonical, ↓raise_canonical]

theorem updateFlash_canonical (h : Canonical a) (x1 : List Byte) (x2 x3 : Bool) : Canonical (Machine.updateFlash a x1 x2 x3).1 := by
  unfold Machine.updateFlash
  simp +contextual (maxDischargeDepth := 50) only [h, ↓flashSpoil_canonical, ↓flashProgram_canonical, ↓flashClear_canonical, ↓Canonical.ite,
    ↓Canonical.iteFst, ↓raise_canonical]

theorem siteUpdate_canonical (h : Canonical a) (x1 : Nat) (x2 : List Byte) (x3 x4 : Bool) (x5 : DWord) : Canonical
    (Machine.siteUpdate a x1 x2 x3 x4 x5) := by
  unfold Machine.siteUpdate
  simp +contextual (maxDischargeDepth := 50) only [h, ↓updateFlash_canonical, ↓Canonical.ite, ↓Canonical.iteFst, ↓farLog_canonical]

theorem dumpRearm_canonical (h : Canonical a) : Canonical (Machine.dumpRearm a) := by
  unfold Machine.dumpRearm
  simp -zeta -iota -proj only [Machine.upd_luff_eq]
  simp +contextual (maxDischargeDepth := 50) only [h, ↓hbmZero_canonical, ↓Canonical.ite, ↓Canonical.set_luff]

theorem releaseHere_canonical (h : Canonical a) (x1 : Nat) : Canonical (Machine.releaseHere a x1) := by
  unfold Machine.releaseHere
  split <;> simp +contextual (maxDischargeDepth := 50) only [h, ↓beginScrub_canonical, ↓Canonical.ite]

theorem contextsFinal_canonical (h : Canonical a) (x1 : Nat) (x2 : NodeId) : Canonical (Machine.contextsFinal a x1 x2) := by
  unfold Machine.contextsFinal
  simp +contextual (maxDischargeDepth := 50) only [h, ↓releaseHere_canonical, ↓Canonical.ite, ↓tryRelease_canonical, ↓tell_canonical,
    ↓setSlice_canonical]

theorem beginContextScrub_canonical (h : Canonical a) (x1 : Nat) : Canonical (Machine.beginContextScrub a x1) := by
  unfold Machine.beginContextScrub
  simp +contextual (maxDischargeDepth := 50) only [h, ↓setPage_canonical, ↓Canonical.foldl, ↓removeContext_canonical, ↓modBase_canonical,
    implies_true]

theorem endDestroy_canonical (h : Canonical a) (x1 : CtxId) : Canonical (Machine.endDestroy a x1) := by
  unfold Machine.endDestroy
  simp +contextual (maxDischargeDepth := 50) only [h, ↓freePages_canonical, ↓Canonical.ite, ↓Canonical.foldl, ↓ctxDone_canonical,
    ↓reportFinal_canonical, ↓dropFence_canonical, ↓modTile_canonical, ↓modBase_canonical, implies_true]

theorem endScrub_canonical (h : Canonical a) (x1 : Nat) : Canonical (Machine.endScrub a x1) := by
  unfold Machine.endScrub
  simp +contextual (maxDischargeDepth := 50) only [h, ↓scrubPart_canonical, ↓localEvent_canonical, ↓Canonical.ite, ↓reportFinal_canonical,
    ↓tell_canonical, ↓setPart_canonical]

theorem startPackageReset_canonical (h : Canonical a) (x1 x2 : Nat) : Canonical (Machine.startPackageReset a x1 x2) := by
  unfold Machine.startPackageReset
  simp +contextual (maxDischargeDepth := 50) only [h, ↓pkgClear_canonical, ↓dieBallast_canonical, ↓startFence_canonical, ↓ttlResetStart_canonical]

theorem beginPackageReset_canonical (h : Canonical a) : Canonical (Machine.beginPackageReset a) := by
  unfold Machine.beginPackageReset
  split <;> simp +contextual (maxDischargeDepth := 50) only [h, ↓startPackageReset_canonical, ↓Canonical.ite, ↓rstBegin_canonical]

theorem startResetRun_canonical (h : Canonical a) : Canonical (Machine.startResetRun a) := by
  unfold Machine.startResetRun
  simp +contextual (maxDischargeDepth := 50) only [h, ↓beginScrub_canonical, ↓note_canonical, ↓journal_canonical, ↓Canonical.ite, ↓Canonical.foldl,
    ↓setStep_canonical, ↓modBoot_canonical, ↓floodOwn_canonical, implies_true]

theorem endDrain_canonical (h : Canonical a) (x1 : Fence) (x2 : Bool) : Canonical (Machine.endDrain a x1 x2) := by
  unfold Machine.endDrain
  split <;> simp +contextual (maxDischargeDepth := 50) only [h, ↓resetUnits_canonical, ↓startResetRun_canonical, ↓beginContextScrub_canonical,
    ↓crash_canonical, ↓Canonical.ite, ↓Canonical.foldl, ↓resetTile_canonical, ↓drainEnd_canonical, ↓modLuff_canonical, implies_true]

theorem writeHlyCtrl_canonical (h : Canonical a) (x1 : Word) : Canonical (Machine.writeHlyCtrl a x1).1 := by
  unfold Machine.writeHlyCtrl
  simp -zeta -iota -proj only [Machine.upd_hly_eq]
  simp +contextual (maxDischargeDepth := 50) only [h, ↓endMailbox_canonical, ↓Canonical.iteFst, ↓took_canonical, ↓Canonical.set_hly]

theorem writeHly_canonical (h : Canonical a) (x1 : Nat) (x2 : Word) : Canonical (Machine.writeHly a x1 x2).1 := by
  unfold Machine.writeHly
  simp -zeta -iota -proj only [Machine.upd_hly_eq]
  simp +contextual (maxDischargeDepth := 50) only [h, ↓writeHlyCtrl_canonical, ↓Canonical.iteFst, ↓took_canonical, ↓Canonical.set_hly]

theorem ranged_canonical (h : Canonical a) (x1 : Bool) {f : Machine → Machine} (hf : ∀ y, Canonical y → Canonical (f y)) :
    Canonical (Machine.ranged a x1 f).1 := by
  unfold Machine.ranged
  split
  · exact hf _ h
  · exact h

theorem writeXc_canonical (h : Canonical a) (x1 x2 x3 : Nat) (x4 : Word) : Canonical (Machine.writeXc a x1 x2 x3 x4).1 := by
  unfold Machine.writeXc
  (repeat' split) <;> simp +contextual (maxDischargeDepth := 50) only [h, ↓ranged_canonical, ↓cqFlush_canonical, ↓writeXcArg_canonical,
    ↓writeXcCtrl_canonical, ↓took_canonical, ↓armHi_canonical, ↓armLo_canonical, ↓modXc_canonical, implies_true]

theorem writePage_canonical (h : Canonical a) (x1 x2 x3 : Nat) (x4 : Word) : Canonical (Machine.writePage a x1 x2 x3 x4).1 := by
  unfold Machine.writePage
  (repeat' split) <;> simp +contextual (maxDischargeDepth := 50) only [h, ↓writeXc_canonical, ↓writeWin_canonical, ↓writeCtxCe_canonical,
    ↓writeSt_canonical, ↓took_canonical, ↓snapContext_canonical, ↓modBase_canonical]

theorem writeCtx_canonical (h : Canonical a) (x1 x2 : Nat) (x3 : Word) : Canonical (Machine.writeCtx a x1 x2 x3).1 := by
  unfold Machine.writeCtx
  simp -zeta -iota -proj only [Machine.upd_ctxCmd_eq]
  (repeat' split) <;> simp +contextual (maxDischargeDepth := 50) only [h, ↓writePage_canonical, ↓writeCtxCtrl_canonical, ↓took_canonical,
    ↓Canonical.set_ctxCmd]

theorem writeBoot_canonical (h : Canonical a) (x1 : Nat) (x2 : Word) : Canonical (Machine.writeBoot a x1 x2).1 := by
  unfold Machine.writeBoot
  (repeat' split) <;> simp +contextual (maxDischargeDepth := 50) only [h, ↓altClear_canonical, ↓took_canonical, ↓modBoot_canonical]

theorem writeLuff_canonical (h : Canonical a) (x1 x2 : Nat) (x3 : Word) : Canonical (Machine.writeLuff a x1 x2 x3).1 := by
  unfold Machine.writeLuff
  simp -zeta -iota -proj only [Machine.upd_luff_eq]
  simp +contextual (maxDischargeDepth := 50) only [h, ↓ranged_canonical, ↓dumpRearm_canonical, ↓Canonical.ite, ↓Canonical.iteFst,
    ↓writeRst_canonical, ↓took_canonical, ↓Canonical.set_luff, implies_true]

theorem regWrite_canonical (h : Canonical a) (x1 x2 : Nat) (x3 : Word) : Canonical (Machine.regWrite a x1 x2 x3).1 := by
  unfold Machine.regWrite
  split <;> simp +contextual (maxDischargeDepth := 50) only [h, ↓writeLuff_canonical, ↓writeBoot_canonical, ↓writeCtx_canonical,
    ↓writeHly_canonical, ↓writeHst_canonical, ↓writePart_canonical, ↓writeShr_canonical, ↓writeReef_canonical, ↓writeTtl_canonical, ↓took_canonical]

theorem barWrite_canonical (h : Canonical a) (x1 x2 : Nat) (x3 : Word) : Canonical (Machine.barWrite a x1 x2 x3).1 := by
  unfold Machine.barWrite
  (repeat' split) <;> simp +contextual (maxDischargeDepth := 50) only [h, ↓regWrite_canonical, ↓writePage_canonical, ↓writeMsix_canonical]

theorem bar0Write_canonical (h : Canonical a) (x1 x2 : Nat) (x3 : List Byte) : Canonical (Machine.bar0Write a x1 x2 x3) := by
  unfold Machine.bar0Write
  simp +contextual (maxDischargeDepth := 50) only [h, ↓barWrite_canonical, ↓Canonical.ite, ↓accessed_canonical, ↓accErr_canonical]

theorem runReq_canonical (h : Canonical a) (x1 : Frame) : Canonical (Machine.runReq a x1).1 := by
  unfold Machine.runReq
  split <;> simp +contextual (maxDischargeDepth := 50) only [h, ↓hbmWrite_canonical, ↓Canonical.iteFst, ↓modStrm_canonical, ↓meterHbm_canonical]

theorem landMsg_canonical (h : Canonical a) (x1 : Frame) : Canonical (Machine.landMsg a x1) := by
  unfold Machine.landMsg
  simp -zeta -iota -proj only [Machine.upd_strm_eq]
  simp +contextual (maxDischargeDepth := 50) only [h, ↓hbmWrite_canonical, ↓Canonical.ite, ↓modStrm_canonical, ↓meterHbm_canonical,
    ↓raise_canonical, ↓Canonical.set_strm]

theorem beginOff_canonical (h : Canonical a) (x1 : Nat) (x2 : PowerAct) : Canonical (Machine.beginOff a x1 x2) := by
  unfold Machine.beginOff
  simp -zeta -iota -proj only [Machine.upd_scan_eq]
  simp +contextual (maxDischargeDepth := 50) only [h, ↓powerLost_canonical, ↓Canonical.ite, ↓modSite_canonical, ↓modFar_canonical,
    ↓Canonical.set_scan]

theorem orderOff_canonical (h : Canonical a) (x1 : Nat) (x2 : PowerAct) (x3 : DWord) : Canonical (Machine.orderOff a x1 x2 x3) := by
  unfold Machine.orderOff
  split <;> simp +contextual (maxDischargeDepth := 50) only [h, ↓beginOff_canonical, ↓Canonical.ite, ↓modSite_canonical, ↓modFar_canonical,
    ↓farLog_canonical]

theorem takeOver_canonical (h : Canonical a) (x1 : Nat) (x2 : PowerAct) (x3 : DWord) : Canonical (Machine.takeOver a x1 x2 x3) := by
  unfold Machine.takeOver
  dsimp only
  split <;> simp +contextual (maxDischargeDepth := 50) only [h, ↓orderOff_canonical, ↓beginOff_canonical, ↓Canonical.ite, ↓modSite_canonical]

theorem autoCycle_canonical (h : Canonical a) (x1 : Nat) (x2 : Bool) (x3 : Nat) (x4 : DWord) : Canonical (Machine.autoCycle a x1
    x2 x3 x4) := by
  unfold Machine.autoCycle
  split <;> simp +contextual (maxDischargeDepth := 50) only [h, ↓takeOver_canonical, ↓modSite_canonical]

theorem requestOff_canonical (h : Canonical a) (x1 : Nat) (x2 : Bool) : Canonical (Machine.requestOff a x1 x2) := by
  unfold Machine.requestOff
  split <;> simp +contextual (maxDischargeDepth := 50) only [h, ↓orderOff_canonical, ↓Canonical.ite, ↓reply_canonical]

theorem requestCycle_canonical (h : Canonical a) (x1 : Nat) (x2 : Bool) : Canonical (Machine.requestCycle a x1 x2) := by
  unfold Machine.requestCycle
  dsimp only
  split <;> simp +contextual (maxDischargeDepth := 50) only [h, ↓orderOff_canonical, ↓Canonical.ite, ↓reply_canonical, ↓modSite_canonical]

/-- A message that the package takes is carried out; another is answered, passed on or dropped. -/
theorem vendor_canonical (h : Canonical a) (x1 : MsgHdr) (x2 x3 : Nat) (x4 : List Byte) {f : Machine → Machine}
    (hf : ∀ y, Canonical y → Canonical (f y)) : Canonical (Machine.vendor a x1 x2 x3 x4 f) := by
  unfold Machine.vendor
  simp -zeta -iota -proj only [Machine.upd_card_eq]
  (repeat' split) <;> simp +contextual (maxDischargeDepth := 50) only [h, ↓hf, ↓answerMctp_canonical, ↓emit_canonical, ↓Canonical.set_card]

theorem ownCmd_canonical (h : Canonical a) (x1 : Nat) (x2 : HlySrc) {f : HlyCmdRec → Machine → Machine × Nat × List Word × List Byte}
    (hf : ∀ c y, Canonical y → Canonical (f c y).1) : Canonical (Machine.ownCmd a x1 x2 f) := by
  unfold Machine.ownCmd
  with_reducible repeat' first
    | assumption | apply hf | apply pushDone_canonical | apply tell_canonical | apply takeCmd_canonical | (extract_lets +onlyGivenNames z)
    | dsimp -zeta only | split | (refine Canonical.ofFst ‹_ = (_, _)› ?_)

theorem pageWrite_canonical (h : Canonical a) (x1 x2 x3 : Nat) {f : Machine → Machine} (hf : ∀ y, Canonical y → Canonical (f y)) :
    Canonical (Machine.pageWrite a x1 x2 x3 f) := by
  unfold Machine.pageWrite
  split
  · exact h
  · split
    · exact h.of_kept (by apply accErr_kept .refl; decide)
    · exact hf _ h

end
end Sys2Proof.Machine

/-! ### The commands that write a memory -/

namespace Sys2Proof.Machine

/-- When the command completes, the memories are in canonical form if they were. -/
def KeepsCanonical (c : Instr) : Prop := ∀ s t, exec c s = .next t → Canonical s.m → Canonical t.m

theorem KeepsCanonical.of_done {c : Instr} {f : State → Machine} (hf : ∀ s, exec c s = done s (f s))
    (h : ∀ s, Canonical s.m → Canonical (f s)) : KeepsCanonical c := by
  intro s t ht hs
  rw [hf] at ht
  cases ht
  exact h s hs

/-- An outcome whose next state, if there is one, has the memories in canonical form. -/
structure CanonicalNext (o : Host.Outcome State Fault Refusal) : Prop where
  next : ∀ t, o = .next t → Canonical t.m

theorem CanonicalNext.done {s : State} {m : Machine} (h : Canonical m) : CanonicalNext (done s m) := ⟨fun _ ht => by cases ht; exact h⟩

theorem CanonicalNext.fault {r : Fault} : CanonicalNext (.fault r) := ⟨fun _ ht => nomatch ht⟩

theorem KeepsCanonical.of_next {c : Instr} (h : ∀ s, Canonical s.m → CanonicalNext (exec c s)) : KeepsCanonical c :=
  fun s t ht hs => (h s hs).next t ht

/-- A command whose frame holds none of the memories. -/
theorem TouchesOnly.keepsCanonical {c : Instr} {W : List Area} (h : TouchesOnly c W) (hw : ∀ r ∈ W, r ∈ Area.beside := by decide) :
    KeepsCanonical c :=
  fun s t ht hs => hs.of_kept ((h s t ht).mono hw)

theorem powerGood_keepsCanonical : KeepsCanonical .powerGood :=
  .of_done (fun _ => rfl) fun _ h => by
    simp +contextual (maxDischargeDepth := 50) only [h, ↓powerUp_canonical, ↓Canonical.ite]

theorem bootStepEnter_keepsCanonical (k inp) : KeepsCanonical (.bootStepEnter k inp) :=
  .of_done (fun _ => rfl) fun _ h => by
    simp +contextual (maxDischargeDepth := 50) only [h, ↓enterBoot_canonical, ↓runStep_canonical, ↓Canonical.ite]

theorem syncExchange_keepsCanonical (ok offset) : KeepsCanonical (.syncExchange ok offset) :=
  .of_done (fun _ => rfl) fun _ h => by
    simp +contextual (maxDischargeDepth := 50) only [h, ↓syncWith_canonical, ↓bootSettle_canonical]

theorem linkStateRecordReceive_keepsCanonical (p r) : KeepsCanonical (.linkStateRecordReceive p r) :=
  .of_done (fun _ => rfl) fun _ h => by
    dsimp only
    (repeat' split) <;> simp +contextual (maxDischargeDepth := 50) only [h, ↓bootSettle_canonical, ↓modDb_canonical, ↓flood_canonical,
      ↓hlyItem_canonical, ↓masterRecord_canonical, ↓settleElection_canonical]

theorem discoverySettle_keepsCanonical : KeepsCanonical .discoverySettle :=
  .of_done (fun _ => rfl) fun _ h => by
    (repeat' split) <;> simp +contextual (maxDischargeDepth := 50) only [h, ↓bootSettle_canonical, ↓modDb_canonical, ↓modHly_canonical,
      ↓elect_canonical, ↓tell_canonical]

theorem masterAnnounceReceive_keepsCanonical (node) : KeepsCanonical (.masterAnnounceReceive node) :=
  .of_done (fun _ => rfl) fun _ h => by
    dsimp only
    (repeat' split) <;> simp +contextual (maxDischargeDepth := 50) only [h, ↓bootSettle_canonical, ↓tellKids_canonical, ↓hlyItem_canonical,
      ↓modDb_canonical, ↓announceElect_canonical, ↓announceRun_canonical, ↓announceRestarting_canonical]

theorem epochSwitch_keepsCanonical : KeepsCanonical .epochSwitch :=
  .of_done (fun _ => rfl) fun _ h => by
    simp +contextual (maxDischargeDepth := 50) only [h, ↓bootSettle_canonical, ↓switchEpoch_canonical]

theorem rigWrite_keepsCanonical (src) : KeepsCanonical (.rigWrite src) :=
  .of_done (fun _ => rfl) fun _ h => by
    simp -zeta -iota -proj only [Machine.upd_boot_eq, Machine.upd_reef_eq]
    simp +contextual (maxDischargeDepth := 50) only [h, ↓ownCmd_canonical, ↓note_canonical, ↓Canonical.ite, ↓Canonical.iteFst, ↓setRig_canonical,
      ↓raiseRate_canonical, ↓tell_canonical, ↓Canonical.set_boot, ↓Canonical.set_reef, implies_true]

theorem hlyCmdResult_keepsCanonical (mctp reply) : KeepsCanonical (.hlyCmdResult mctp reply) :=
  .of_done (fun _ => rfl) fun _ h => by
    simp -zeta -iota -proj only [Machine.upd_hly_eq]
    dsimp only
    (repeat' split) <;> simp +contextual (maxDischargeDepth := 50) only [h, ↓endMailbox_canonical, ↓endMctp_canonical, ↓Canonical.set_hly]

theorem hlyCmdNoMaster_keepsCanonical (mctp) : KeepsCanonical (.hlyCmdNoMaster mctp) :=
  .of_done (fun _ => rfl) fun _ h => by
    dsimp only
    split <;> simp +contextual (maxDischargeDepth := 50) only [h, ↓endMailbox_canonical, ↓Canonical.ite, ↓endMctp_canonical]

theorem tkpDryrun_keepsCanonical (src host) : KeepsCanonical (.tkpDryrun src host) :=
  .of_done (fun _ => rfl) fun _ h => by
    simp +contextual (maxDischargeDepth := 50) only [h, ↓hostStores_canonical, ↓podCmd_canonical]

theorem sliceCreate_keepsCanonical (src host) : KeepsCanonical (.sliceCreate src host) :=
  .of_done (fun _ => rfl) fun _ h => by
    split <;> simp +contextual (maxDischargeDepth := 50) only [h, ↓hostStores_canonical, ↓bindPart_canonical, ↓unbindPart_canonical,
      ↓podCmd_canonical]

theorem sliceReserve_keepsCanonical (src host) : KeepsCanonical (.sliceReserve src host) :=
  .of_done (fun _ => rfl) fun _ h => by
    simp +contextual (maxDischargeDepth := 50) only [h, ↓hostStores_canonical, ↓podCmd_canonical]

theorem sliceContextsFinal_keepsCanonical (tag node) : KeepsCanonical (.sliceContextsFinal tag node) :=
  .of_done (fun _ => rfl) fun _ h => by
    simp +contextual (maxDischargeDepth := 50) only [h, ↓contextsFinal_canonical, ↓serve_canonical]

theorem sliceEventReceive_keepsCanonical (e) : KeepsCanonical (.sliceEventReceive e) :=
  .of_done (fun _ => rfl) fun _ h => by
    split <;> simp +contextual (maxDischargeDepth := 50) only [h, ↓writeEvent_canonical, ↓Canonical.ite, ↓Canonical.foldl, ↓markEvent_canonical,
      ↓modPart_canonical, ↓destroyPart_canonical, ↓reportFlows_canonical, implies_true]

theorem contextScrubComplete_keepsCanonical (c) : KeepsCanonical (.contextScrubComplete c) :=
  .of_done (fun _ => rfl) fun _ h => by
    simp +contextual (maxDischargeDepth := 50) only [h, ↓endDestroy_canonical, ↓Canonical.ite]

theorem partitionScrubComplete_keepsCanonical (n) : KeepsCanonical (.partitionScrubComplete n) :=
  .of_done (fun _ => rfl) fun _ h => by
    simp +contextual (maxDischargeDepth := 50) only [h, ↓endScrub_canonical, ↓Canonical.ite]

theorem scrubQuarantine_keepsCanonical (n stack) : KeepsCanonical (.scrubQuarantine n stack) :=
  .of_done (fun _ => rfl) fun _ h => by
    simp +contextual (maxDischargeDepth := 50) only [h, ↓raise_canonical, ↓localEvent_canonical, ↓Canonical.ite, ↓setPart_canonical,
      ↓tell_canonical]

theorem reqReceive_keepsCanonical (d) : KeepsCanonical (.reqReceive d) :=
  .of_done (fun _ => rfl) fun _ h => by
    with_reducible repeat' first
      | assumption | intro _ | apply runReq_canonical | apply Canonical.ite | apply Canonical.iteFst | apply Canonical.foldl
      | refine Canonical.of_kept ?_ (by (first | apply answer_kept .refl | refine takeInbox_kept .refl ‹_› ?_) <;> decide) | dsimp only | split

theorem repReceive_keepsCanonical (d) : KeepsCanonical (.repReceive d) :=
  .of_done (fun _ => rfl) fun _ h => by
    with_reducible repeat' first
      | assumption | intro _ | apply reqComplete_canonical | apply Canonical.ite | apply Canonical.iteFst | apply Canonical.foldl
      | refine Canonical.of_kept ?_ (by (first | apply modFwdCnt_kept .refl | apply fwdRaise_kept .refl | refine takeInbox_kept .refl ‹_› ?_) <;> decide)
      | dsimp only | split

theorem msgReceive_keepsCanonical (d) : KeepsCanonical (.msgReceive d) :=
  .of_done (fun _ => rfl) fun _ h => by
    with_reducible repeat' first
      | assumption | intro _ | apply landMsg_canonical | apply Canonical.ite | apply Canonical.iteFst | apply Canonical.foldl
      | refine Canonical.of_kept ?_ (by refine takeInbox_kept .refl ‹_› ?_ <;> decide) | dsimp only | split

theorem unbind_keepsCanonical (c) : KeepsCanonical (.unbind c) :=
  .of_next fun s h => by
    change CanonicalNext (execUnbind c s)
    unfold execUnbind
    dsimp only
    (repeat' split) <;> simp +contextual (maxDischargeDepth := 50) only [h, ↓CanonicalNext.done, ↓cancelStep_canonical, ↓Canonical.foldl,
      ↓xcDone_canonical, ↓modXc_canonical, ↓returnGates_canonical, ↓endStep_canonical, ↓finishUnbind_canonical, implies_true]

theorem stepComplete_keepsCanonical (c) : KeepsCanonical (.stepComplete c) :=
  .of_next fun s h => by
    change CanonicalNext (execStepComplete c s)
    unfold execStepComplete
    dsimp only
    (repeat' split) <;> simp +contextual (maxDischargeDepth := 50) only [h, ↓CanonicalNext.done, ↓contain_canonical, ↓cqWrite_canonical,
      ↓finishUnbind_canonical, ↓breach_canonical, ↓stopTiles_canonical, ↓endStep_canonical, ↓modXc_canonical]

theorem contractViolation_keepsCanonical (c) : KeepsCanonical (.contractViolation c) :=
  .of_next fun s h => by
    change CanonicalNext (execContractViolation c s)
    unfold execContractViolation
    dsimp only
    (repeat' split) <;> simp +contextual (maxDischargeDepth := 50) only [h, ↓CanonicalNext.done, ↓contain_canonical, ↓finishUnbind_canonical]

theorem pageGrant_keepsCanonical : KeepsCanonical .pageGrant :=
  .of_done (fun _ => rfl) fun _ h => by
    simp +contextual (maxDischargeDepth := 50) only [h, ↓setPages_canonical, ↓Canonical.ite, ↓pageDone_canonical]

theorem pageReturn_keepsCanonical : KeepsCanonical .pageReturn :=
  .of_done (fun _ => rfl) fun _ h => by
    simp +contextual (maxDischargeDepth := 50) only [h, ↓setPages_canonical, ↓Canonical.ite, ↓pageDone_canonical, ↓modPage_canonical]

theorem pageScrubComplete_keepsCanonical : KeepsCanonical .pageScrubComplete :=
  .of_done (fun _ => rfl) fun _ h => by
    simp +contextual (maxDischargeDepth := 50) only [h, ↓freePages_canonical, ↓Canonical.ite, ↓pageDone_canonical]

theorem hbmUncorrectable_keepsCanonical (addr corrected) : KeepsCanonical (.hbmUncorrectable addr corrected) :=
  .of_next fun s h => by
    change CanonicalNext (execHbmUncorrectable addr corrected s)
    unfold execHbmUncorrectable
    with_reducible repeat' first
      | assumption | intro _ | apply CanonicalNext.done | exact CanonicalNext.fault | apply corrected_canonical | apply uncorrectable_canonical
      | apply Canonical.ite | apply Canonical.iteFst | apply Canonical.foldl | dsimp only | split

theorem h1LinkDown_keepsCanonical : KeepsCanonical .h1LinkDown :=
  .of_done (fun _ => rfl) fun _ h => by
    simp +contextual (maxDischargeDepth := 50) only [h, ↓h1Lost_canonical, ↓Canonical.ite, ↓Canonical.foldl, ↓hlinkDown_canonical, implies_true]

theorem windowWrite_keepsCanonical (f offset data poisoned) : KeepsCanonical (.windowWrite f offset data poisoned) :=
  .of_done (fun _ => rfl) fun _ h => by
    with_reducible repeat' first
      | assumption | intro _ | apply raise_canonical | apply hbmWrite_canonical | apply Canonical.ite | apply Canonical.iteFst
      | apply Canonical.foldl | apply deny_canonical | dsimp only | split

theorem watchSnoop_keepsCanonical (n host) : KeepsCanonical (.watchSnoop n host) :=
  .of_done (fun _ => rfl) fun _ h => by
    (repeat' split) <;> simp +contextual (maxDischargeDepth := 50) only [h, ↓hostStores_canonical, ↓pageWrite_canonical, ↓doorbell_canonical,
      implies_true]

theorem hostReadTimeout_keepsCanonical (r) : KeepsCanonical (.hostReadTimeout r) :=
  .of_done (fun _ => rfl) fun _ h => by
    (repeat' split) <;> simp +contextual (maxDischargeDepth := 50) only [h, ↓raise_canonical, ↓ceFinish_canonical, ↓takeCommand_canonical,
      ↓ceStop_canonical]

theorem flushReadComplete_keepsCanonical (c q) : KeepsCanonical (.flushReadComplete c q) :=
  .of_done (fun _ => rfl) fun _ h => by
    split <;> simp +contextual (maxDischargeDepth := 50) only [h, ↓ceFinish_canonical, ↓Canonical.ite]

theorem ceCommandFetch_keepsCanonical (c q host) : KeepsCanonical (.ceCommandFetch c q host) :=
  .of_done (fun _ => rfl) fun _ h => by
    split <;> simp +contextual (maxDischargeDepth := 50) only [h, ↓hostStores_canonical, ↓refuseSend_canonical, ↓takeCommand_canonical]

theorem ceSegment_keepsCanonical (e host) : KeepsCanonical (.ceSegment e host) :=
  .of_done (fun _ => rfl) fun _ h => by
    split <;> simp +contextual (maxDischargeDepth := 50) only [h, ↓hostStores_canonical, ↓serveSegment_canonical]

theorem luffCeExpiry_keepsCanonical (e reset) : KeepsCanonical (.luffCeExpiry e reset) :=
  .of_done (fun _ => rfl) fun _ h => by
    dsimp only
    (repeat' split) <;> simp +contextual (maxDischargeDepth := 50) only [h, ↓ceFinish_canonical, ↓expire_canonical, ↓raiseCtx_canonical,
      ↓modQueue_canonical, ↓modEngine_canonical, ↓failEngine_canonical]

theorem fenceDrainEnd_keepsCanonical (d dumpOk) : KeepsCanonical (.fenceDrainEnd d dumpOk) :=
  .of_done (fun _ => rfl) fun _ h => by
    split <;> simp +contextual (maxDischargeDepth := 50) only [h, ↓endDrain_canonical]

theorem flashErase_keepsCanonical (h off size devOk) : KeepsCanonical (.flashErase h off size devOk) :=
  .of_done (fun _ => rfl) fun _ h => by
    split <;> simp +contextual (maxDischargeDepth := 50) only [h, ↓vendor_canonical, ↓flashClear_canonical, ↓flashSpoil_canonical, ↓Canonical.ite,
      ↓answerMctp_canonical, ↓flashRefuse_canonical, implies_true]

theorem flashWrite_keepsCanonical (h off data devOk) : KeepsCanonical (.flashWrite h off data devOk) :=
  .of_done (fun _ => rfl) fun _ h => by
    simp +contextual (maxDischargeDepth := 50) only [h, ↓vendor_canonical, ↓flashProgram_canonical, ↓flashSpoil_canonical, ↓Canonical.ite,
      ↓answerMctp_canonical, ↓flashRefuse_canonical, implies_true]

theorem bcastTimeout_keepsCanonical : KeepsCanonical .bcastTimeout :=
  .of_done (fun _ => rfl) fun _ h => by
    dsimp only
    (repeat' split) <;> simp +contextual (maxDischargeDepth := 50) only [h, ↓raise_canonical, ↓takeBundle_canonical, ↓bundleSettle_canonical,
      ↓reportDone_canonical, ↓modBcast_canonical, ↓sendNack_canonical]

theorem railFail_keepsCanonical (s1 t) : KeepsCanonical (.railFail s1 t) :=
  .of_done (fun _ => rfl) fun _ h => by
    simp +contextual (maxDischargeDepth := 50) only [h, ↓beginOff_canonical, ↓Canonical.ite, ↓farLog_canonical]

theorem ready_keepsCanonical (s1) : KeepsCanonical (.ready s1) :=
  .of_done (fun _ => rfl) fun _ h => by
    split <;> simp +contextual (maxDischargeDepth := 50) only [h, ↓beginOff_canonical, ↓Canonical.ite, ↓toSite_canonical]

theorem noticeLimitExpiry_keepsCanonical (s1) : KeepsCanonical (.noticeLimitExpiry s1) :=
  .of_done (fun _ => rfl) fun _ h => by
    split <;> simp +contextual (maxDischargeDepth := 50) only [h, ↓beginOff_canonical, ↓Canonical.ite]

theorem faultReadReply_keepsCanonical (s1 pin slot low t) : KeepsCanonical (.faultReadReply s1 pin slot low t) :=
  .of_done (fun _ => rfl) fun _ h => by
    simp +contextual (maxDischargeDepth := 50) only [h, ↓takeOver_canonical, ↓autoCycle_canonical, ↓Canonical.ite, ↓modSite_canonical,
      ↓farLog_canonical]

theorem faultReadRetry_keepsCanonical (s1 t) : KeepsCanonical (.faultReadRetry s1 t) :=
  .of_done (fun _ => rfl) fun _ h => by
    simp +contextual (maxDischargeDepth := 50) only [h, ↓autoCycle_canonical, ↓Canonical.ite, ↓modSite_canonical, ↓readFault_canonical]

theorem coolantLimit_keepsCanonical (t) : KeepsCanonical (.coolantLimit t) :=
  .of_done (fun _ => rfl) fun _ h => by
    simp +contextual (maxDischargeDepth := 50) only [h, ↓takeOver_canonical, ↓Canonical.ite, ↓Canonical.foldl, ↓facilityLog_canonical, implies_true]

theorem busbarSag_keepsCanonical (t) : KeepsCanonical (.busbarSag t) :=
  .of_done (fun _ => rfl) fun _ h => by
    simp +contextual (maxDischargeDepth := 50) only [h, ↓takeOver_canonical, ↓Canonical.ite, ↓Canonical.foldl, ↓facilityLog_canonical,
      ↓modFar_canonical, implies_true]

theorem pldmFirmwareUpdate_keepsCanonical (site image copyB devOk t) : KeepsCanonical (.pldmFirmwareUpdate site image copyB devOk t) :=
  .of_done (fun _ => rfl) fun _ h => by
    (repeat' split) <;> simp +contextual (maxDischargeDepth := 50) only [h, ↓siteUpdate_canonical, ↓modFar_canonical]

theorem flashUpdate_keepsCanonical (s1 image copyB devOk t) : KeepsCanonical (.flashUpdate s1 image copyB devOk t) :=
  .of_done (fun _ => rfl) fun _ h => by
    simp +contextual (maxDischargeDepth := 50) only [h, ↓siteUpdate_canonical, ↓Canonical.ite]

theorem scanExit_keepsCanonical (s1) : KeepsCanonical (.scanExit s1) :=
  .of_done (fun _ => rfl) fun _ h => by
    simp +contextual (maxDischargeDepth := 50) only [h, ↓beginOff_canonical, ↓Canonical.ite, ↓reply_canonical]

theorem regWrite_keepsCanonical (h off value) : KeepsCanonical (.regWrite h off value) :=
  .of_done (fun _ => rfl) fun _ h => by
    simp +contextual (maxDischargeDepth := 50) only [h, ↓vendor_canonical, ↓regWrite_canonical, ↓Canonical.ite, ↓accErr_canonical,
      ↓answerMctp_canonical, ↓accessed_canonical, implies_true]

theorem registerWrite_keepsCanonical (f off a) : KeepsCanonical (.registerWrite f off a) :=
  .of_done (fun _ => rfl) fun _ h => by
    (repeat' split) <;> simp +contextual (maxDischargeDepth := 50) only [h, ↓bar0Write_canonical, ↓emit_canonical, ↓bar0Read_canonical,
      ↓h1Read_canonical]

theorem slot12vFall_keepsCanonical : KeepsCanonical .slot12vFall :=
  .of_done (fun _ => rfl) fun _ h => by
    simp -zeta -iota -proj only [Machine.upd_card_eq]
    simp +contextual (maxDischargeDepth := 50) only [h, ↓powerLost_canonical, ↓Canonical.ite, ↓Canonical.set_card]

theorem cardC4PowerOff_keepsCanonical : KeepsCanonical .cardC4PowerOff :=
  .of_done (fun _ => rfl) fun _ h => by
    simp -zeta -iota -proj only [Machine.upd_card_eq]
    simp +contextual (maxDischargeDepth := 50) only [h, ↓powerLost_canonical, ↓Canonical.ite, ↓Canonical.set_card]

theorem generationDeltaReceive_keepsCanonical (h nodes links) : KeepsCanonical (.generationDeltaReceive h nodes links) :=
  .of_done (fun _ => rfl) fun _ h => by
    dsimp only
    (repeat' split) <;> simp +contextual (maxDischargeDepth := 50) only [h, ↓bootSettle_canonical, ↓elect_canonical, ↓tell_canonical,
      ↓takeDelta_canonical, ↓takePrepare_canonical]

/-- Every command keeps the memories in canonical form. -/
theorem keepsCanonical (c : Instr) : KeepsCanonical c :=
  match c with
  | .powerGood .. => powerGood_keepsCanonical
  | .idRead .. => (idRead_frame _ _ _).keepsCanonical
  | .bootStepEnter .. => bootStepEnter_keepsCanonical _ _
  | .bootStepLimit .. => .of_done (fun _ => rfl) fun _ h => stepLimit_canonical h _
  | .trainDeadline .. => .of_done (fun _ => rfl) fun _ h => trainDeadline_canonical h
  | .bootAltClr .. => .of_done (fun _ => rfl) fun _ h => altClear_canonical h
  | .portDetectSignal .. => (portDetectSignal_frame _).keepsCanonical
  | .portSyncLock .. => (portSyncLock_frame _ _).keepsCanonical
  | .portSyncTimeout .. => (portSyncTimeout_frame _).keepsCanonical
  | .portDeskewDone .. => (portDeskewDone_frame _ _).keepsCanonical
  | .portDeskewTimeout .. => (portDeskewTimeout_frame _).keepsCanonical
  | .ts2Receive .. => (ts2Receive_frame _ _).keepsCanonical
  | .portExchangeTimeout .. => (portExchangeTimeout_frame _).keepsCanonical
  | .portEqualiseDone .. => (portEqualiseDone_frame _ _).keepsCanonical
  | .portVerifyDone .. => (portVerifyDone_frame _ _ _ _).keepsCanonical
  | .trainingSignalLoss .. => (trainingSignalLoss_frame _).keepsCanonical
  | .holdoffExpiry .. => (holdoffExpiry_frame _ _).keepsCanonical
  | .portDownSignalReturn .. => (portDownSignalReturn_frame _ _).keepsCanonical
  | .laneLockLoss .. => (laneLockLoss_frame _ _).keepsCanonical
  | .fecThreshold .. => (fecThreshold_frame _ _ _).keepsCanonical
  | .retrainReqRepeat .. => (retrainReqRepeat_frame _).keepsCanonical
  | .retrainReqReceive .. => (retrainReqReceive_frame _ _).keepsCanonical
  | .retrainComplete .. => (retrainComplete_frame _ _ _).keepsCanonical
  | .retrainTimeout .. => (retrainTimeout_frame _).keepsCanonical
  | .envelopeReceive .. => (envelopeReceive_frame _ _ _ _ _).keepsCanonical
  | .ackReceive .. => (ackReceive_frame _ _).keepsCanonical
  | .nakReceive .. => (nakReceive_frame _ _).keepsCanonical
  | .nakRepeat .. => (nakRepeat_frame _).keepsCanonical
  | .replayTimeout .. => (replayTimeout_frame _).keepsCanonical
  | .creditReceive .. => (creditReceive_frame _ _).keepsCanonical
  | .goingDownReceive .. => (goingDownReceive_frame _ _).keepsCanonical
  | .linkSignalLoss .. => (linkSignalLoss_frame _).keepsCanonical
  | .fullTrainReceive .. => (fullTrainReceive_frame _ _).keepsCanonical
  | .stayFail .. => (stayFail_frame _ _ _).keepsCanonical
  | .shrCntClr .. => (shrCntClr_frame _).keepsCanonical
  | .syncExchange .. => syncExchange_keepsCanonical _ _
  | .parentLinkFail .. => parentLinkFail_frame.keepsCanonical
  | .holdoverExpiry .. => holdoverExpiry_frame.keepsCanonical
  | .parentNamed .. => (parentNamed_frame _ _).keepsCanonical
  | .refclkLoss .. => refclkLoss_frame.keepsCanonical
  | .refclkReturn .. => refclkReturn_frame.keepsCanonical
  | .timeNowLoRead .. => (timeNowLoRead_frame _).keepsCanonical
  | .uvMonitorTrip .. => (uvMonitorTrip_frame _).keepsCanonical
  | .uvMonitorClear .. => (uvMonitorClear_frame _).keepsCanonical
  | .otMonitorTrip .. => (otMonitorTrip_frame _).keepsCanonical
  | .otMonitorClear .. => (otMonitorClear_frame _).keepsCanonical
  | .thermalHoldStart .. => (thermalHoldStart_frame _).keepsCanonical
  | .thermalHoldEnd .. => (thermalHoldEnd_frame _).keepsCanonical
  | .thermalTrip .. => (thermalTrip_frame _).keepsCanonical
  | .helloSend .. => (helloSend_frame _).keepsCanonical
  | .helloReceive .. => (helloReceive_frame _ _).keepsCanonical
  | .linkStateRecordReceive .. => linkStateRecordReceive_keepsCanonical _ _
  | .discoverySettle .. => discoverySettle_keepsCanonical
  | .masterAnnounceReceive .. => masterAnnounceReceive_keepsCanonical _
  | .standbyAckReceive .. => (standbyAckReceive_frame _).keepsCanonical
  | .beaconSend .. => beaconSend_frame.keepsCanonical
  | .beaconCountReceive .. => (beaconCountReceive_frame _).keepsCanonical
  | .componentJoin .. => (componentJoin_frame _ _ _).keepsCanonical
  | .beaconTimeout .. => (beaconTimeout_frame _).keepsCanonical
  | .holdDownExpiry .. => (holdDownExpiry_frame _).keepsCanonical
  | .packageAbsent .. => (packageAbsent_frame _).keepsCanonical
  | .epochCollectClose .. => epochCollectClose_frame.keepsCanonical
  | .epochPrepareReceive .. => (epochPrepareReceive_frame _).keepsCanonical
  | .epochReadyReceive .. => (epochReadyReceive_frame _ _).keepsCanonical
  | .epochCommitReceive .. => (epochCommitReceive_frame _ _).keepsCanonical
  | .epochSwitch .. => epochSwitch_keepsCanonical
  | .oldBankRelease .. => oldBankRelease_frame.keepsCanonical
  | .epochReadyTimeout .. => (epochReadyTimeout_frame _).keepsCanonical
  | .epochAbortReceive .. => (epochAbortReceive_frame _).keepsCanonical
  | .halyardRestartTimeout .. => halyardRestartTimeout_frame.keepsCanonical
  | .topoRead .. => (topoRead_frame _).keepsCanonical
  | .portDisable .. => (portDisable_frame _).keepsCanonical
  | .portEnable .. => (portEnable_frame _ _).keepsCanonical
  | .portFullTrain .. => (portFullTrain_frame _ _).keepsCanonical
  | .portTestRetrain .. => (portTestRetrain_frame _).keepsCanonical
  | .epochQuery .. => (epochQuery_frame _).keepsCanonical
  | .masterHandover .. => (masterHandover_frame _).keepsCanonical
  | .masterConfirm .. => (masterConfirm_frame _).keepsCanonical
  | .packageDrain .. => (packageDrain_frame _).keepsCanonical
  | .packageRestore .. => (packageRestore_frame _).keepsCanonical
  | .rigWrite .. => rigWrite_keepsCanonical _
  | .rigRead .. => (rigRead_frame _).keepsCanonical
  | .hlyCmdResult .. => hlyCmdResult_keepsCanonical _ _
  | .hlyCmdNoMaster .. => hlyCmdNoMaster_keepsCanonical _
  | .plannerJobStart .. => plannerJobStart_frame.keepsCanonical
  | .plannerRound .. => plannerRound_frame.keepsCanonical
  | .plannerDeadline .. => plannerDeadline_frame.keepsCanonical
  | .tkpDryrun .. => tkpDryrun_keepsCanonical _ _
  | .tkpResvRead .. => (tkpResvRead_frame _).keepsCanonical
  | .tkpSlotsRead .. => (tkpSlotsRead_frame _).keepsCanonical
  | .tkpBiasSet .. => (tkpBiasSet_frame _).keepsCanonical
  | .tkpHeadroomSet .. => (tkpHeadroomSet_frame _).keepsCanonical
  | .tkpDeadlineSet .. => (tkpDeadlineSet_frame _).keepsCanonical
  | .tkpReplanAll .. => (tkpReplanAll_frame _).keepsCanonical
  | .tkpRampRead .. => (tkpRampRead_frame _).keepsCanonical
  | .sliceCreate .. => sliceCreate_keepsCanonical _ _
  | .sliceDestroy .. => (sliceDestroy_frame _).keepsCanonical
  | .sliceQuery .. => (sliceQuery_frame _).keepsCanonical
  | .sliceList .. => (sliceList_frame _).keepsCanonical
  | .sliceLayout .. => (sliceLayout_frame _).keepsCanonical
  | .slicePeer .. => (slicePeer_frame _).keepsCanonical
  | .sliceReserve .. => sliceReserve_keepsCanonical _ _
  | .sliceContextsFinal .. => sliceContextsFinal_keepsCanonical _ _
  | .sliceScrubReport .. => (sliceScrubReport_frame _ _ _).keepsCanonical
  | .sliceEventReceive .. => sliceEventReceive_keepsCanonical _
  | .ctxCreate .. => ctxCreate_frame.keepsCanonical
  | .ctxDestroy .. => ctxDestroy_frame.keepsCanonical
  | .contextScrubComplete .. => contextScrubComplete_keepsCanonical _
  | .ctxFree .. => ctxFree_frame.keepsCanonical
  | .partitionScrubComplete .. => partitionScrubComplete_keepsCanonical _
  | .scrubQuarantine .. => scrubQuarantine_keepsCanonical _ _
  | .minuteLatch .. => minuteLatch_frame.keepsCanonical
  | .ctxSnap .. => (ctxSnap_frame _).keepsCanonical
  | .energyAttribute .. => (energyAttribute_frame _ _ _).keepsCanonical
  | .frameForward .. => (frameForward_frame _).keepsCanonical
  | .frameAgeExpiry .. => (frameAgeExpiry_frame _).keepsCanonical
  | .detourResend .. => (detourResend_frame _).keepsCanonical
  | .filterRecordExpiry .. => (filterRecordExpiry_frame _ _ _).keepsCanonical
  | .reqReceive .. => reqReceive_keepsCanonical _
  | .reqAnswerDeadline .. => (reqAnswerDeadline_frame _ _).keepsCanonical
  | .repReceive .. => repReceive_keepsCanonical _
  | .reqExpired .. => .of_done (fun _ => rfl) fun _ h => reqComplete_canonical h _ _ _
  | .msgReceive .. => msgReceive_keepsCanonical _
  | .collFrameReceive .. => (collFrameReceive_frame _).keepsCanonical
  | .lateStepReport .. => (lateStepReport_frame _ _ _ _ _).keepsCanonical
  | .flowAbortReport .. => (flowAbortReport_frame _ _ _).keepsCanonical
  | .flowAbortReceive .. => (flowAbortReceive_frame _ _ _).keepsCanonical
  | .abortAckReceive .. => (abortAckReceive_frame _ _ _).keepsCanonical
  | .abortAckTimeout .. => (abortAckTimeout_frame _ _).keepsCanonical
  | .flowResumeWait .. => (flowResumeWait_frame _ _).keepsCanonical
  | .flowResumeReceive .. => (flowResumeReceive_frame _ _ _).keepsCanonical
  | .bind .. => (bind_frame _).keepsCanonical
  | .unbind .. => unbind_keepsCanonical _
  | .restart .. => (restart_frame _).keepsCanonical
  | .ctxXcArmLo .. => (ctxXcArmLo_frame _ _ _).keepsCanonical
  | .ctxXcArmHi .. => (ctxXcArmHi_frame _ _ _).keepsCanonical
  | .stepArm .. => (stepArm_frame _).keepsCanonical
  | .stepRelease .. => (stepRelease_frame _).keepsCanonical
  | .stepComplete .. => stepComplete_keepsCanonical _
  | .contractViolation .. => contractViolation_keepsCanonical _
  | .mma .. => (mma_frame _).keepsCanonical
  | .drain .. => (drain_frame _).keepsCanonical
  | .vop .. => (vop_frame _).keepsCanonical
  | .vcvt .. => (vcvt_frame _).keepsCanonical
  | .vld .. => (vld_frame _).keepsCanonical
  | .vst .. => (vst_frame _).keepsCanonical
  | .hrd .. => (hrd_frame _).keepsCanonical
  | .hwr .. => (hwr_frame _).keepsCanonical
  | .send .. => (send_frame _).keepsCanonical
  | .recv .. => (recv_frame _).keepsCanonical
  | .wait .. => (wait_frame _).keepsCanonical
  | .loop .. => (loop_frame _).keepsCanonical
  | .tileEnd .. => (tileEnd_frame _).keepsCanonical
  | .tileStoreUncorr .. => (tileStoreUncorr_frame _ _ _).keepsCanonical
  | .tileRetire .. => (tileRetire_frame _).keepsCanonical
  | .pageGrant .. => pageGrant_keepsCanonical
  | .pageReturn .. => pageReturn_keepsCanonical
  | .pageScrubComplete .. => pageScrubComplete_keepsCanonical
  | .hbmUncorrectable .. => hbmUncorrectable_keepsCanonical _ _
  | .streamOpen .. => (streamOpen_frame _).keepsCanonical
  | .streamClose .. => (streamClose_frame _).keepsCanonical
  | .streamQuery .. => (streamQuery_frame _).keepsCanonical
  | .streamHead .. => (streamHead_frame _).keepsCanonical
  | .streamHelloReceive .. => streamHelloReceive_frame.keepsCanonical
  | .streamHelloRepeat .. => (streamHelloRepeat_frame _).keepsCanonical
  | .streamCreditReceive .. => streamCreditReceive_frame.keepsCanonical
  | .streamCreditPeriodic .. => (streamCreditPeriodic_frame _).keepsCanonical
  | .streamClosingEnd .. => (streamClosingEnd_frame _).keepsCanonical
  | .hostLinkTrain .. => (hostLinkTrain_frame _ _).keepsCanonical
  | .h1LinkDown .. => h1LinkDown_keepsCanonical
  | .windowRead .. => (windowRead_frame _ _ _).keepsCanonical
  | .windowWrite .. => windowWrite_keepsCanonical _ _ _ _
  | .windowAtomic .. => (windowAtomic_frame _ _).keepsCanonical
  | .watchEntrySet .. => (watchEntrySet_frame _ _).keepsCanonical
  | .watchSnoop .. => watchSnoop_keepsCanonical _ _
  | .vfFlr .. => (vfFlr_frame _).keepsCanonical
  | .pfFlr .. => (pfFlr_frame _).keepsCanonical
  | .vfEnableClear .. => (vfEnableClear_frame _ _).keepsCanonical
  | .hostReadTimeout .. => hostReadTimeout_keepsCanonical _
  | .flushReadComplete .. => flushReadComplete_keepsCanonical _ _
  | .ceQueueEnable .. => (ceQueueEnable_frame _ _ _ _).keepsCanonical
  | .ceQueueDisable .. => (ceQueueDisable_frame _ _ _).keepsCanonical
  | .ceQueueResume .. => (ceQueueResume_frame _ _ _).keepsCanonical
  | .ceDoorbell .. => (ceDoorbell_frame _ _ _ _).keepsCanonical
  | .ceCommandFetch .. => ceCommandFetch_keepsCanonical _ _ _
  | .copy .. => .of_done (fun _ => rfl) fun _ h => beginOp_canonical h _ _ _
  | .fill .. => .of_done (fun _ => rfl) fun _ h => beginOp_canonical h _ _ _
  | .flagOnly .. => (flagOnly_frame _ _).keepsCanonical
  | .msg .. => .of_done (fun _ => rfl) fun _ h => beginOp_canonical h _ _ _
  | .reqWrite .. => .of_done (fun _ => rfl) fun _ h => beginOp_canonical h _ _ _
  | .reqRead .. => .of_done (fun _ => rfl) fun _ h => beginOp_canonical h _ _ _
  | .reqFetchAdd .. => .of_done (fun _ => rfl) fun _ h => beginOp_canonical h _ _ _
  | .reqSignal .. => .of_done (fun _ => rfl) fun _ h => beginOp_canonical h _ _ _
  | .ceSegment .. => ceSegment_keepsCanonical _ _
  | .ceCommandComplete .. => .of_done (fun _ => rfl) fun _ h => ceComplete_canonical h _ _
  | .reefMeasure .. => (reefMeasure_frame _ _).keepsCanonical
  | .capLoop .. => capLoop_frame.keepsCanonical
  | .contractIdle .. => (contractIdle_frame _).keepsCanonical
  | .vrFault .. => (vrFault_frame _).keepsCanonical
  | .rampWindowOpen .. => (rampWindowOpen_frame _).keepsCanonical
  | .rampWindowClose .. => (rampWindowClose_frame _).keepsCanonical
  | .preRampComplete .. => (preRampComplete_frame _).keepsCanonical
  | .riseExcess .. => (riseExcess_frame _).keepsCanonical
  | .ballastHold .. => ballastHold_frame.keepsCanonical
  | .ballastHoldEnd .. => ballastHoldEnd_frame.keepsCanonical
  | .trayReport .. => (trayReport_frame _ _).keepsCanonical
  | .facilityStale .. => facilityStale_frame.keepsCanonical
  | .facilityFallback .. => facilityFallback_frame.keepsCanonical
  | .notice .. => (notice_frame _ _).keepsCanonical
  | .ttlRound .. => ttlRound_frame.keepsCanonical
  | .promotionWindowExpiry .. => (promotionWindowExpiry_frame _).keepsCanonical
  | .reactionQuietExpiry .. => (reactionQuietExpiry_frame _).keepsCanonical
  | .faultNLowEnd .. => faultNLowEnd_frame.keepsCanonical
  | .ttlPinHoldWrite .. => (ttlPinHoldWrite_frame _).keepsCanonical
  | .ttlForce .. => (ttlForce_frame _).keepsCanonical
  | .ttlFirstClear .. => (ttlFirstClear_frame _ _).keepsCanonical
  | .luffTileExpiry .. => (luffTileExpiry_frame _).keepsCanonical
  | .tileSelfTestDone .. => (tileSelfTestDone_frame _ _).keepsCanonical
  | .luffCeExpiry .. => luffCeExpiry_keepsCanonical _ _
  | .luffLinkExpiry .. => (luffLinkExpiry_frame _).keepsCanonical
  | .luffCollExpiry .. => (luffCollExpiry_frame _).keepsCanonical
  | .collUnitReset .. => (collUnitReset_frame _ _).keepsCanonical
  | .luffHlyExpiry .. => (luffHlyExpiry_frame _).keepsCanonical
  | .inStreamStall .. => (inStreamStall_frame _).keepsCanonical
  | .contextReset .. => (contextReset_frame _).keepsCanonical
  | .partitionReset .. => (partitionReset_frame _).keepsCanonical
  | .packageReset .. => .of_done (fun _ => rfl) fun _ h => beginPackageReset_canonical h
  | .fenceDrainEnd .. => fenceDrainEnd_keepsCanonical _ _
  | .packageResetComplete .. => packageResetComplete_frame.keepsCanonical
  | .rungTimeout .. => (rungTimeout_frame _).keepsCanonical
  | .genLateDrop .. => genLateDrop_frame.keepsCanonical
  | .dumpRearm .. => .of_done (fun _ => rfl) fun _ h => dumpRearm_canonical h
  | .flashRead .. => (flashRead_frame _ _ _ _).keepsCanonical
  | .flashErase .. => flashErase_keepsCanonical _ _ _ _
  | .flashWrite .. => flashWrite_keepsCanonical _ _ _ _
  | .bcastOffer .. => (bcastOffer_frame _).keepsCanonical
  | .bcastFrag .. => .of_done (fun _ => rfl) fun _ h => takeFrag_canonical h _ _
  | .bcastEnd .. => (bcastEnd_frame _).keepsCanonical
  | .bcastNack .. => (bcastNack_frame _ _ _).keepsCanonical
  | .bcastNackTimer .. => bcastNackTimer_frame.keepsCanonical
  | .bcastDone .. => (bcastDone_frame _ _).keepsCanonical
  | .bcastHave .. => (bcastHave_frame _ _ _).keepsCanonical
  | .bcastTimeout .. => bcastTimeout_keepsCanonical
  | .busbarRise .. => (busbarRise_frame _ _ _).keepsCanonical
  | .sitePowerOn .. => (sitePowerOn_frame _ _).keepsCanonical
  | .railGood .. => (railGood_frame _ _).keepsCanonical
  | .railFail .. => railFail_keepsCanonical _ _
  | .powerOffNotice .. => (powerOffNotice_frame _).keepsCanonical
  | .ready .. => ready_keepsCanonical _
  | .noticeLimitExpiry .. => noticeLimitExpiry_keepsCanonical _
  | .powerOffGroupFall .. => (powerOffGroupFall_frame _ _).keepsCanonical
  | .offTimeExpiry .. => (offTimeExpiry_frame _).keepsCanonical
  | .faultNEdge .. => (faultNEdge_frame _).keepsCanonical
  | .faultReadReply .. => faultReadReply_keepsCanonical _ _ _ _ _
  | .faultReadRetry .. => faultReadRetry_keepsCanonical _ _
  | .pinAlert .. => (pinAlert_frame _).keepsCanonical
  | .shelfPoll .. => (shelfPoll_frame _ _ _).keepsCanonical
  | .cduPoll .. => (cduPoll_frame _).keepsCanonical
  | .coolantLimit .. => coolantLimit_keepsCanonical _
  | .busbarSag .. => busbarSag_keepsCanonical _
  | .busbarReturn .. => (busbarReturn_frame _).keepsCanonical
  | .cduStaleAlert .. => (cduStaleAlert_frame _).keepsCanonical
  | .trayReportSend .. => trayReportSend_frame.keepsCanonical
  | .crashSummary .. => (crashSummary_frame _ _ _).keepsCanonical
  | .measure .. => (measure_frame _ _ _ _).keepsCanonical
  | .componentIntegrity .. => (componentIntegrity_frame _ _).keepsCanonical
  | .resetOn .. => (resetOn_frame _ _).keepsCanonical
  | .resetForceOff .. => .of_done (fun _ => rfl) fun _ h => requestOff_canonical h _ _
  | .resetGracefulShutdown .. => .of_done (fun _ => rfl) fun _ h => requestOff_canonical h _ _
  | .resetPowerCycle .. => .of_done (fun _ => rfl) fun _ h => requestCycle_canonical h _ _
  | .resetForceRestart .. => .of_done (fun _ => rfl) fun _ h => requestCycle_canonical h _ _
  | .redfishGet .. => (redfishGet_frame _ _).keepsCanonical
  | .pldmSensorRead .. => (pldmSensorRead_frame _ _).keepsCanonical
  | .pldmFirmwareUpdate .. => pldmFirmwareUpdate_keepsCanonical _ _ _ _ _
  | .flashUpdate .. => flashUpdate_keepsCanonical _ _ _ _ _
  | .farnisRestart .. => (farnisRestart_frame _).keepsCanonical
  | .farnisSettingWrite .. => (farnisSettingWrite_frame _ _).keepsCanonical
  | .scanEnter .. => (scanEnter_frame _).keepsCanonical
  | .scanExit .. => scanExit_keepsCanonical _
  | .regRead .. => (regRead_frame _ _ _).keepsCanonical
  | .regWrite .. => regWrite_keepsCanonical _ _ _
  | .hlyCmd .. => (hlyCmd_frame _ _ _ _).keepsCanonical
  | .dbRead .. => (dbRead_frame _ _ _).keepsCanonical
  | .registerWrite .. => registerWrite_keepsCanonical _ _ _
  | .extest .. => (extest_frame _ _).keepsCanonical
  | .idcode .. => (idcode_frame _ _).keepsCanonical
  | .samplePreload .. => (samplePreload_frame _ _).keepsCanonical
  | .extestPulse .. => (extestPulse_frame _ _).keepsCanonical
  | .extestTrain .. => (extestTrain_frame _ _).keepsCanonical
  | .highz .. => (highz_frame _ _).keepsCanonical
  | .bypass .. => (bypass_frame _ _).keepsCanonical
  | .scanExtChange .. => (scanExtChange_frame _ _).keepsCanonical
  | .slot12vFall .. => slot12vFall_keepsCanonical
  | .cardC4PowerOff .. => cardC4PowerOff_keepsCanonical
  | .epochPrepareGuard .. => epochPrepareGuard_frame.keepsCanonical
  | .slotStart .. => (slotStart_frame _).keepsCanonical
  | .hbmLineComplete .. => .of_done (fun _ => rfl) fun _ h => completeLine_canonical h _ _
  | .tokenAcknowledge .. => (tokenAcknowledge_frame _ _).keepsCanonical
  | .domainResetEnd .. => (domainResetEnd_frame _).keepsCanonical
  | .beaconReceive .. => (beaconReceive_frame _ _).keepsCanonical
  | .standbyReplicate .. => (standbyReplicate_frame _ _).keepsCanonical
  | .generationDeltaReceive .. => generationDeltaReceive_keepsCanonical _ _ _
  | .helloStop .. => (helloStop_frame _).keepsCanonical
  | .rampLimitForward .. => (rampLimitForward_frame _ _).keepsCanonical
  | .trayFaultHoldExpiry .. => (trayFaultHoldExpiry_frame _).keepsCanonical
  | .slot12vRise .. => (slot12vRise_frame _).keepsCanonical
  | .extTrstNFall .. => extTrstNFall_frame.keepsCanonical

/-- Settles O3: an idle step writes no memory, and every command keeps all three in canonical form. -/
theorem stepsKeepTheMemoriesCanonical : Obligations.StepsKeepTheMemoriesCanonical := by
  intro s t h hs
  rw [← canonical_iff] at hs ⊢
  cases hq : s.pending with
  | nil =>
    obtain rfl : _ = t := Host.Outcome.next.inj ((step_of_empty hq).symm.trans h)
    have hk : Kept Area.beside s.m s.m.idle := (idle_frame s.m).mono (by decide)
    dsimp only
    exact hs.of_kept hk
  | cons c rest => exact keepsCanonical c _ t ((step_of_front hq).symm.trans h) hs

end Sys2Proof.Machine

/-! ## Writes through the PF's map, by their fields' codes (18 R513, R516, R519, R560) -/

namespace Sys2Proof.Machine

/-! ### The blocks that a write reaches -/

section
variable (m : Machine) (f : Nat) {o : Nat} (v : Word)

theorem regWrite_hly (h : o / 0x100000 = 1) : m.regWrite f o v = m.writeHly (o % 0x100000) v := by
  unfold Machine.regWrite
  rw [h]
  rfl

theorem regWrite_ttl (h : o / 0x100000 = 3) : m.regWrite f o v = m.writeTtl (o % 0x100000) v := by
  unfold Machine.regWrite
  rw [h]
  rfl

/-- The blocks FUSE, TKP, CORNER, REGION and TIME have no writable register (18 Table 18.1). -/
theorem regWrite_readOnly (h : o / 0x100000 ∈ [0, 2, 6, 9, 12]) : m.regWrite f o v = (m, 0) := by
  unfold Machine.regWrite
  simp only [List.mem_cons, List.not_mem_nil, or_false] at h
  rcases h with h | h | h | h | h <;> rw [h] <;> rfl

/-! ### The mailbox of Halyard -/

theorem writeHly_arg_of_busy (hbusy : m.hly.box.busy = true) {k : Nat} (hk : k < 14) : m.writeHly (0x108 + 4 * k) v = (m, 3) := by
  unfold Machine.writeHly
  dsimp only
  rw [if_neg (by omega), if_neg (by omega), if_pos (by omega), if_pos hbusy]

theorem writeHly_arg (hbusy : m.hly.box.busy = false) {k : Nat} (hk : k < 14) : m.writeHly (0x108 + 4 * k) v =
    ({ m with hly := { m.hly with box := { m.hly.box with args := tset 0 m.hly.box.args k v } } }, 0) := by
  unfold Machine.writeHly
  dsimp only
  rw [if_neg (by omega), if_neg (by omega), if_pos (by omega), if_neg (by simp [hbusy]), show (0x108 + 4 * k - 0x108) / 4 = k by omega]
  rfl

theorem writeHlyCtrl_of_busy (hbusy : m.hly.box.busy = true) : m.writeHlyCtrl v = (m, 3) := if_pos hbusy

/-- A GO with a listed opcode and no reserved bit set leaves the command to its own step. -/
theorem writeHlyCtrl_go (hbusy : m.hly.box.busy = false) (hgo : bitAt v 31 = true) (hop : hlyOpcode (bits v 0 8) = true)
    (hres : bits v 16 15 = 0) : m.writeHlyCtrl v =
    ({ m with hly := { m.hly with box := { m.hly.box with opcode := bits v 0 8, seq := bits v 8 8, busy := true, done := false } } }, 0) := by
  unfold Machine.writeHlyCtrl
  dsimp only
  rw [if_neg (by simp [hbusy]), if_neg (by simp [hgo]), if_neg (by simp [hop]), if_neg (by simp [hres])]
  rfl

/-! ### Telltale -/

theorem mem_onePositions {n : Nat} (w : BitVec n) (b : Nat) : b ∈ onePositions w ↔ b < n ∧ bitAt w b = true := by
  simp [onePositions, bitAt]

theorem foldl_clearAny_src (l : List Nat) (base i : Nat) :
    ((l.foldl (fun (m : Machine) b => m.modSrc (base + b) fun r => { r with any := false }) m).src i).any =
      ((m.src i).any && !(decide (base ≤ i ∧ i - base ∈ l))) := by
  induction l generalizing m with
  | nil => simp
  | cons b l ih =>
    rw [List.foldl_cons, ih, modSrc_src]
    split
    next h => simp [h]
    next h =>
      have hmem : (base ≤ i ∧ i - base ∈ l) ↔ (base ≤ i ∧ i - base ∈ b :: l) :=
        and_congr_right fun hi => by simp [show i - base ≠ b by omega]
      rw [decide_eq_decide.mpr hmem]

/-- A write to the any-occurrence bank clears ANY of the sources of its word whose bits are 1 (14 Table 14.5). -/
theorem writeTtl_any {w : Nat} (hw : w < 20) : m.writeTtl (4 * w) v =
    ((onePositions v).foldl (fun (m : Machine) b => m.modSrc (w * 32 + b) fun r => { r with any := false }) m, 0) := by
  unfold Machine.writeTtl
  rw [if_pos (by omega), show 4 * w / 4 = w by omega]
  rfl

theorem writeTtl_quiet : m.writeTtl 0x114 v =
    m.ranged (decide (10 ≤ bits v 0 16) && decide (bits v 0 16 ≤ 60000)) fun m => m.modTtl fun t => { t with quietMs := bits v 0 16 } := rfl

theorem writeTtlCfg_locked (hopen : m.rwlOpen = false) (h : bitAt v 3 ≠ m.ttl.autoHold ∨ bitAt v 4 ≠ m.ttl.injectEn) :
    m.writeTtlCfg v = (m, 4) :=
  if_pos (by simpa [hopen] using h)

end

/-- Settles O57: a write reaches the one register at its offset, and that register's own rule stores, clears, starts or refuses it. -/
theorem registerWritesMeetTheirFieldsRules : Obligations.RegisterWritesMeetTheirFieldsRules := by
  unfold Obligations.RegisterWritesMeetTheirFieldsRules
  refine ⟨?args, ?go, ?any, ?quietOut, ?quietIn, ?locked, ?readOnly⟩
  case args =>
    intro k v m hk
    have hat : m.regWrite 0 (0x100108 + 4 * k) v = m.writeHly (0x108 + 4 * k) v := by
      rw [regWrite_hly m 0 v (by omega), show (0x100108 + 4 * k) % 0x100000 = 0x108 + 4 * k by omega]
    rw [hat]
    exact ⟨fun h => ⟨writeHly_arg_of_busy m v h hk, writeHlyCtrl_of_busy m v h⟩, fun h => writeHly_arg m v h hk⟩
  case go => exact fun v m hbusy hgo hop hres => writeHlyCtrl_go m v hbusy hgo hop hres
  case any =>
    intro w v m hw
    rw [regWrite_ttl m 0 v (by omega), show (0x300000 + 4 * w) % 0x100000 = 4 * w by omega, writeTtl_any m v hw]
    refine ⟨rfl, fun i => ?_⟩
    rw [foldl_clearAny_src]
    congr 2
    have hiff : (w * 32 ≤ i ∧ i - w * 32 ∈ onePositions v) ↔ i / 32 = w ∧ bitAt v (i % 32) = true := by
      rw [mem_onePositions]
      constructor
      · rintro ⟨hi, hlt, hbit⟩
        exact ⟨by omega, by rwa [show i % 32 = i - w * 32 by omega]⟩
      · rintro ⟨rfl, hbit⟩
        exact ⟨by omega, by omega, by rwa [show i - i / 32 * 32 = i % 32 by omega]⟩
    rw [decide_eq_decide.mpr hiff, Bool.decide_and, Bool.decide_eq_true]
  case quietOut =>
    intro v m h
    refine (writeTtl_quiet m v).trans (if_neg ?_)
    rw [Bool.and_eq_true, decide_eq_true_eq, decide_eq_true_eq]
    omega
  case quietIn => exact fun v m hlo hhi => (writeTtl_quiet m v).trans (if_pos (by simp [hlo, hhi]))
  case locked => exact fun v m hopen h => writeTtlCfg_locked m v hopen h
  case readOnly => exact fun o f v m h => regWrite_readOnly m f v h

end Sys2Proof.Machine

/-! ## Vendor messages: who hears them, and what each is answered (17 R481, R482) -/

namespace Sys2Proof.Machine

/-! ### A request reaches its endpoint -/

section
variable {m : Machine} {h : MsgHdr}

theorem takes_iff : m.takes h = true ↔ m.hears h = true ∧ bitAt h.flags 0 = false ∧ h.flags.toNat < 4 := by
  simp [Machine.takes, and_assoc]

variable (cls cmd : Nat) (body : List Byte) (run : Machine → Machine)

theorem vendor_of_takes (ht : m.takes h = true) : m.vendor h cls cmd body run = run (m.heard h) := by
  obtain ⟨hhears, hresponse, hflags⟩ := takes_iff.mp ht
  unfold Machine.vendor
  rw [if_pos hhears, if_neg (by simp [hresponse]), if_neg (by omega)]
  rfl

/-- A response is no request. -/
theorem vendor_of_response (hhears : m.hears h = true) (hresponse : bitAt h.flags 0 = true) : m.vendor h cls cmd body run = m :=
  (if_pos hhears).trans (if_pos hresponse)

theorem vendor_of_reserved (hhears : m.hears h = true) (hresponse : bitAt h.flags 0 = false) (hflags : 4 ≤ h.flags.toNat) :
    m.vendor h cls cmd body run = (m.heard h).answerMctp h cls cmd 3 [] := by
  unfold Machine.vendor
  rw [if_pos hhears, if_neg (by simp [hresponse]), if_pos hflags]
  rfl

theorem vendor_of_unheard (hhears : m.hears h = false) (hnone : m.bridged h = false ∨ ∀ j < 16, m.eidOf j ≠ some h.dst) :
    m.vendor h cls cmd body run = m := by
  have hfind : (List.range 16).find? (fun k => m.bridged h && m.eidOf k == some h.dst) = none := by
    rw [List.find?_eq_none]
    intro j hj
    rcases hnone with hb | hnone
    · simp [hb]
    · simp [hnone j (List.mem_range.mp hj)]
  unfold Machine.vendor
  rw [if_neg (by simp [hhears]), hfind]

/-- Farnis puts a message of the host's for another site on that site's bus. -/
theorem vendor_of_bridged (hhears : m.hears h = false) {j : Nat} (hj : j < 16) (hb : m.bridged h = true) (heid : m.eidOf j = some h.dst)
    (hfirst : ∀ l < j, m.eidOf l ≠ some h.dst) :
    m.vendor h cls cmd body run = m.emit (.farnis j (mctpMsg cls cmd false (bitAt h.flags 1) 0 body)) := by
  have hfind : (List.range 16).find? (fun k => m.bridged h && m.eidOf k == some h.dst) = some j := by
    rw [List.find?_range_eq_some]
    exact ⟨by simp [hb, heid], List.mem_range.mpr hj, fun l hl => by simp [hfirst l hl]⟩
  unfold Machine.vendor
  rw [if_neg (by simp [hhears]), hfind]

end

/-! ### What hearing a request leaves alone -/

section
variable (m : Machine) (h : MsgHdr)

theorem heard_eq : ∃ c, m.heard h = { m with card := c } := by
  unfold Machine.heard
  split
  · exact ⟨_, rfl⟩
  · exact ⟨m.card, rfl⟩

theorem heard_kept : Kept [.card] m (m.heard h) := by
  obtain ⟨c, hc⟩ := heard_eq m h
  rw [hc]
  exact .set_card .refl (by decide)

@[simp] theorem heard_out : (m.heard h).out = m.out := (heard_kept m h).out (by decide)
@[simp] theorem heard_boot : (m.heard h).boot = m.boot := (heard_kept m h).boot (by decide)
@[simp] theorem heard_hly : (m.heard h).hly = m.hly := (heard_kept m h).hly (by decide)
@[simp] theorem heard_acc : (m.heard h).acc = m.acc := (heard_kept m h).acc (by decide)
@[simp] theorem heard_time : (m.heard h).time = m.time := (heard_kept m h).time (by decide)
@[simp] theorem heard_bridged (h' : MsgHdr) : (m.heard h).bridged h' = m.bridged h' := by
  obtain ⟨c, hc⟩ := heard_eq m h
  rw [hc]
  rfl
@[simp] theorem heard_dbBytes : (m.heard h).dbBytes = m.dbBytes := by
  obtain ⟨c, hc⟩ := heard_eq m h
  rw [hc]
  rfl

/-- An answer appends its messages to what was sent. -/
theorem answerMctp_replies (cls cmd status : Nat) (body : List Byte) :
    (m.answerMctp h cls cmd status body).out = m.out ++ m.replies h cls cmd status body := by
  rw [answerMctp_out, Machine.replies]
  split
  · rw [List.append_nil]
  · rfl

@[simp] theorem heard_replies (h' : MsgHdr) (cls cmd status : Nat) (body : List Byte) :
    (m.heard h).replies h' cls cmd status body = m.replies h' cls cmd status body := by
  simp [Machine.replies]

/-! ### The words that Farnis reads -/

end

section
variable (m : Machine) (c : Card)

theorem updCard_kept : Kept [.card] m (m.upd_card c) := .set_card .refl (by decide)
theorem updCard_bank (w : Nat) : (m.upd_card c).bank w = m.bank w := by cases m; rfl
theorem updCard_slotEntry (b : Bank) (p i : Nat) : (m.upd_card c).slotEntry b p i = m.slotEntry b p i := by cases m; rfl
theorem updCard_tkp : (m.upd_card c).tkp = m.tkp := (updCard_kept m c).tkp (by decide)
theorem updCard_bankWord (w : Nat) (p : SrcRec → Bool) : (m.upd_card c).bankWord w p = m.bankWord w p := by cases m; rfl
theorem updCard_slotAt (w : Option Nat) : (m.upd_card c).slotAt w = m.slotAt w := by cases m; rfl
theorem updCard_srcWord (w p : Nat) : (m.upd_card c).srcWord w p = m.srcWord w p := by cases m; rfl
theorem updCard_ns : (m.upd_card c).ns = m.ns := by cases m; rfl
theorem updCard_ttl : (m.upd_card c).ttl = m.ttl := (updCard_kept m c).ttl (by decide)

theorem updCard_readTtl (k : Nat) : (m.upd_card c).readTtl k = m.readTtl k := by
  simp only [Machine.readTtl, updCard_ttl, updCard_bankWord, updCard_slotAt, updCard_srcWord, updCard_ns]

theorem updCard_readTkp (k : Nat) : (m.upd_card c).readTkp k = m.readTkp k := by
  simp only [Machine.readTkp, updCard_tkp, updCard_bank, updCard_slotEntry]
theorem updCard_hly : (m.upd_card c).hly = m.hly := (updCard_kept m c).hly (by decide)
theorem updCard_fuse : (m.upd_card c).fuse = m.fuse := (updCard_kept m c).fuse (by decide)
theorem updCard_nodeIdWord : (m.upd_card c).nodeIdWord = m.nodeIdWord := by cases m; rfl
theorem updCard_nodeEntry (b : Bank) (i : Nat) (n : NodeId) : (m.upd_card c).nodeEntry b i n = m.nodeEntry b i n := by cases m; rfl
theorem updCard_podEntry (b : Bank) (n : Nat) : (m.upd_card c).podEntry b n = m.podEntry b n := by cases m; rfl

theorem updCard_readHly (k : Nat) : (m.upd_card c).readHly k = m.readHly k := by
  simp only [Machine.readHly, updCard_hly, updCard_fuse, updCard_bank, updCard_nodeIdWord, updCard_nodeEntry, updCard_podEntry]
theorem updCard_readReef (k : Nat) : (m.upd_card c).readReef k = m.readReef k := rfl
theorem updCard_readShr (k : Nat) : (m.upd_card c).readShr k = m.readShr k := rfl
theorem updCard_readCe (k : Nat) : (m.upd_card c).readCe k = m.readCe k := rfl
theorem updCard_readPart (k : Nat) : (m.upd_card c).readPart k = m.readPart k := rfl
theorem updCard_readStrm (k : Nat) : (m.upd_card c).readStrm k = m.readStrm k := rfl
theorem updCard_readHst (k : Nat) : (m.upd_card c).readHst k = m.readHst k := rfl
theorem updCard_readBoot (k : Nat) : (m.upd_card c).readBoot k = m.readBoot k := rfl
theorem updCard_readLuff (k : Nat) : (m.upd_card c).readLuff k = m.readLuff k := rfl
theorem updCard_readCtx (f k : Nat) : (m.upd_card c).readCtx f k = m.readCtx f k := rfl
theorem updCard_readTime (f k : Nat) : (m.upd_card c).readTime f k = m.readTime f k := rfl

theorem updCard_regRead (f k : Nat) : (m.upd_card c).regRead f k = m.regRead f k := by
  unfold Machine.regRead
  dsimp only
  split
  · exact updCard_readHly m c _
  · exact updCard_readTkp m c _
  · exact updCard_readTtl m c _
  all_goals exact rfl

theorem updCard_latchTime (f o : Nat) : (m.upd_card c).latchTime f o = (m.latchTime f o).upd_card c := by
  unfold Machine.latchTime
  rw [show (m.upd_card c).exposed o = m.exposed o from rfl]
  split <;> exact rfl

/-- What Farnis reads does not depend on the card's controller. -/
theorem updCard_farnisWords (o n : Nat) :
    (m.upd_card c).farnisWords o n = ((m.farnisWords o n).1.upd_card c, (m.farnisWords o n).2) := by
  induction n generalizing m o with
  | zero => rfl
  | succ n ih => simp only [Machine.farnisWords, updCard_latchTime, updCard_regRead, ih]

theorem farnisWords_length (o n : Nat) : (m.farnisWords o n).2.length = n := by
  induction n generalizing m o with
  | zero => rfl
  | succ n ih => simp [Machine.farnisWords, ih]

theorem latchTime_farnis_time (o : Nat) :
    (m.latchTime 0x7F o).time = { m.time with farnisLatch := (m.latchTime 0x7F o).time.farnisLatch } := by
  unfold Machine.latchTime
  split <;> rfl

/-- Farnis's reads change only its latch of the time (02 R67). -/
theorem farnisWords_time (o n : Nat) :
    (m.farnisWords o n).1.time = { m.time with farnisLatch := (m.farnisWords o n).1.time.farnisLatch } := by
  induction n generalizing m o with
  | zero => rfl
  | succ n ih =>
    calc (m.farnisWords o (n + 1)).1.time
        = { (m.latchTime 0x7F o).time with farnisLatch := ((m.latchTime 0x7F o).farnisWords (o + 4) n).1.time.farnisLatch } := ih _ _
      _ = { m.time with farnisLatch := ((m.latchTime 0x7F o).farnisWords (o + 4) n).1.time.farnisLatch } := by rw [latchTime_farnis_time]

theorem replies_congr {a : Machine} (hp : a.pins = m.pins) (hf : a.far = m.far) (h : MsgHdr) (cls cmd status : Nat) (body : List Byte) :
    a.replies h cls cmd status body = m.replies h cls cmd status body := by
  simp [Machine.replies, Machine.bridged, hp, hf]

/-- What Farnis reads, its latch and the messages that answer it, for one who was heard. -/
theorem farnisWords_heard (h : MsgHdr) (o n : Nat) : ((m.heard h).farnisWords o n).2 = (m.farnisWords o n).2 ∧
    Kept [.time] (m.heard h) ((m.heard h).farnisWords o n).1 := by
  refine ⟨?_, farnisWords_kept .refl o n (by decide)⟩
  obtain ⟨c, hc⟩ := heard_eq m h
  rw [hc, Machine.upd_card_eq, updCard_farnisWords]

end

/-! ### The four requests -/

section
variable {h : MsgHdr} {s : State}

/-- In standby nothing is answered. -/
theorem standby_heard (hon : s.m.boot.on = false) {a : Machine} : (if !(s.m.heard h).boot.on then s.m.heard h else a) = s.m.heard h :=
  if_pos (by simp [hon])

theorem boot_heard (hon : s.m.boot.on = true) {a : Machine} : (if !(s.m.heard h).boot.on then s.m.heard h else a) = a := if_neg (by simp [hon])

variable (ht : s.m.takes h = true)
include ht

/-- A request that is taken completes with what it does for the machine that heard it. -/
theorem Completes.of_vendor {c : Instr} {cls cmd : Nat} {body : List Byte} {run : Machine → Machine} {p : Machine → Prop}
    (he : exec c s = done s (s.m.vendor h cls cmd body run)) (hp : p (run (s.m.heard h))) : Completes c s p :=
  .of_done (he.trans (congrArg (done s) (vendor_of_takes cls cmd body run ht))) hp

variable (hon : s.m.boot.on = true)
include hon

theorem regRead_answered {off : Word} {n : BitVec 8} (h0 : 0 < n.toNat) (h16 : n.toNat ≤ 16) (halign : off.toNat % 4 = 0)
    (hall : ∀ i < n.toNat, farnisReads (off.toNat + 4 * i) = true) : Completes (.regRead h off n) s fun m =>
    m = ((s.m.heard h).farnisWords off.toNat n.toNat).1.answerMctp h 2 1 0
      (wordBytes ((s.m.heard h).farnisWords off.toNat n.toNat).2) := by
  refine .of_vendor ht rfl ((boot_heard hon).trans ((if_neg (by omega)).trans (if_neg ?_)))
  simpa using hall

theorem regRead_badArg {off : Word} {n : BitVec 8} (hbad : n.toNat = 0 ∨ 16 < n.toNat ∨ off.toNat % 4 ≠ 0) :
    Completes (.regRead h off n) s fun m => m = (s.m.heard h).answerMctp h 2 1 3 [] :=
  .of_vendor ht rfl ((boot_heard hon).trans (if_pos hbad))

theorem regRead_denied {off : Word} {n : BitVec 8} (h0 : 0 < n.toNat) (h16 : n.toNat ≤ 16) (halign : off.toNat % 4 = 0)
    (hsome : ∃ i < n.toNat, farnisReads (off.toNat + 4 * i) = false) :
    Completes (.regRead h off n) s fun m => m = (s.m.heard h).answerMctp h 2 1 4 [] := by
  refine .of_vendor ht rfl ((boot_heard hon).trans ((if_neg (by omega)).trans (if_pos ?_)))
  simpa using hsome

theorem regWrite_denied {off v : Word} (hlist : farnisWrites off.toNat = false) : Completes (.regWrite h off v) s fun m =>
    m = ((s.m.heard h).accErr off.toNat 5 0x7F).answerMctp h 2 2 4 [] :=
  .of_vendor ht rfl ((boot_heard hon).trans (if_pos (by simp [hlist])))

theorem regWrite_listed {off v : Word} (hlist : farnisWrites off.toNat = true) : Completes (.regWrite h off v) s fun m =>
    m = (((s.m.heard h).regWrite 0x7F off.toNat v).1.accessed off.toNat ((s.m.heard h).regWrite 0x7F off.toNat v).2 0x7F).answerMctp h 2 2
      (if ((s.m.heard h).regWrite 0x7F off.toNat v).2 = 0 then 0 else if ((s.m.heard h).regWrite 0x7F off.toNat v).2 = 3 then 1 else 4) [] :=
  .of_vendor ht rfl ((boot_heard hon).trans (if_neg (by simp [hlist])))

section
variable {op seq : BitVec 8} {args : List Word} (hargs : args.length = 14)
include hargs

theorem hlyCmd_held (hop : mctpOpcode op.toNat = true) (hnone : s.m.hly.mctp = none) : Completes (.hlyCmd h op seq args) s fun m =>
    m = { s.m.heard h with hly := { (s.m.heard h).hly with
      mctp := some { src := .mctp, opcode := op.toNat, seq := seq.toNat, podSeq := 0, args := args, data := [], cable := none }
      mctpStarted := false, mctpHdr := h } } :=
  .of_vendor ht rfl ((boot_heard hon).trans ((if_neg (by simp [hargs])).trans ((if_neg (by simp [hop])).trans (if_neg (by simp [hnone])))))

theorem hlyCmd_busy (hop : mctpOpcode op.toNat = true) (hsome : s.m.hly.mctp ≠ none) : Completes (.hlyCmd h op seq args) s fun m =>
    m = (s.m.heard h).answerMctp h 3 1 0 (1 :: List.replicate 32 0) :=
  .of_vendor ht rfl ((boot_heard hon).trans ((if_neg (by simp [hargs])).trans ((if_neg (by simp [hop])).trans
    (if_pos (by simpa [Option.isSome_iff_ne_none] using hsome)))))

theorem hlyCmd_denied (hop : mctpOpcode op.toNat = false) : Completes (.hlyCmd h op seq args) s fun m =>
    m = (s.m.heard h).answerMctp h 3 1 4 [] :=
  .of_vendor ht rfl ((boot_heard hon).trans ((if_neg (by simp [hargs])).trans (if_pos (by simp [hop]))))

end

theorem dbRead_answered {off : Word} {n : BitVec 16} (h0 : 0 < n.toNat) (hmax : n.toNat ≤ 1024)
    (hin : off.toNat + n.toNat ≤ s.m.dbBytes.length) : Completes (.dbRead h off n) s fun m =>
    m = (s.m.heard h).answerMctp h 3 2 0 ((s.m.dbBytes.drop off.toNat).take n.toNat) := by
  refine .of_vendor ht rfl ((boot_heard hon).trans ((if_neg ?_).trans ?_))
  · rw [heard_dbBytes]
    omega
  · rw [heard_dbBytes]

theorem dbRead_badArg {off : Word} {n : BitVec 16} (hbad : n.toNat = 0 ∨ 1024 < n.toNat ∨ s.m.dbBytes.length < off.toNat + n.toNat) :
    Completes (.dbRead h off n) s fun m => m = (s.m.heard h).answerMctp h 3 2 3 [] := by
  refine .of_vendor ht rfl ((boot_heard hon).trans (if_pos ?_))
  rwa [heard_dbBytes]

end

/-- Settles O58: a request reaches its endpoint, is dropped or bridged there, and else each of the four answers as its row of Table 17.2 says. -/
theorem farnisReachesRegistersCommandsAndTheDatabase : Obligations.FarnisReachesRegistersCommandsAndTheDatabase := by
  unfold Obligations.FarnisReachesRegistersCommandsAndTheDatabase
  refine ⟨?read, ?readRefused, ?writeDenied, ?writeListed, ?hlyCmd, ?dbRead, ?standby, ?flags, ?elsewhere⟩
  case read =>
    intro h off n s ht hon h0 h16 halign hall
    obtain ⟨hwords, hkept⟩ := farnisWords_heard s.m h off.toNat n.toNat
    refine (regRead_answered ht hon h0 h16 halign hall).imp fun m hm => ⟨?_, farnisWords_length .., ?_⟩
    · rw [hm, answerMctp_replies, hkept.out (by decide), hwords, replies_congr _ (hkept.pins (by decide)) (hkept.far (by decide)),
        heard_replies, heard_out]
    · have htime := farnisWords_time (s.m.heard h) off.toNat n.toNat
      rw [heard_time] at htime
      rw [hm, (answerMctp_fields ..).2.2.2.1]
      exact htime
  case readRefused =>
    exact fun h off n s ht hon => ⟨regRead_badArg ht hon, regRead_denied ht hon⟩
  case writeDenied =>
    intro h off v s ht hon hlist
    refine (regWrite_denied ht hon hlist).imp fun m hm => ?_
    have hkept : Kept [.card, .acc, .out] s.m m := by
      rw [hm]
      exact answerMctp_kept (accErr_kept ((heard_kept s.m h).mono (by decide)) _ _ _ (by decide)) _ _ _ _ _ (by decide)
    refine ⟨by simp [hm], ?_, fun b hacc hout hcard => hkept.keeps b (by simp [hacc, hout, hcard])⟩
    rw [hm, answerMctp_replies]
    exact congrArg₂ (· ++ ·) (heard_out s.m h) (heard_replies s.m h h 2 2 4 [])
  case writeListed =>
    intro h off v s ht hon hlist
    refine (regWrite_listed ht hon hlist).imp fun m hm => ⟨fun hok => ?_, fun hbad => ?_⟩
    · rw [hm, hok, accessed_zero, if_pos rfl]
    · rw [hm, if_neg hbad, Machine.accessed, if_neg hbad]
  case hlyCmd =>
    refine fun h op seq args s ht hon hargs => ⟨fun hop hnone => (hlyCmd_held ht hon hargs hop hnone).imp ?_, hlyCmd_busy ht hon hargs,
      hlyCmd_denied ht hon hargs⟩
    rintro m rfl
    exact ⟨rfl, rfl, rfl, heard_out s.m h⟩
  case dbRead => exact fun h off n s ht hon => ⟨dbRead_answered ht hon, dbRead_badArg ht hon⟩
  case standby =>
    intro h a b n k op seq args s ht hon i hi
    simp only [List.mem_cons, List.not_mem_nil, or_false] at hi
    rcases hi with rfl | rfl | rfl | rfl <;> exact .of_vendor ht rfl (standby_heard hon)
  case flags =>
    intro h a b n k op seq args s hh
    refine ⟨fun hresp i hi => ?_, fun hresp hres => ?_⟩
    · simp only [List.mem_cons, List.not_mem_nil, or_false] at hi
      rcases hi with rfl | rfl | rfl | rfl | rfl | rfl | rfl <;> exact .of_done rfl (vendor_of_response _ _ _ _ hh hresp)
    · have hans (cls cmd : Nat) (body : List Byte) (run : Machine → Machine) := vendor_of_reserved cls cmd body run hh hresp hres
      exact ⟨.of_done rfl (hans ..), .of_done rfl (hans ..), .of_done rfl (hans ..), .of_done rfl (hans ..)⟩
  case elsewhere =>
    intro h a b n k s hh
    refine ⟨fun hnone => ⟨.of_done rfl (vendor_of_unheard _ _ _ _ hh hnone), .of_done rfl (vendor_of_unheard _ _ _ _ hh hnone)⟩, ?_⟩
    intro j hj hb heid hfirst
    exact ⟨.of_done rfl (vendor_of_bridged _ _ _ _ hh hj hb heid hfirst), .of_done rfl (vendor_of_bridged _ _ _ _ hh hj hb heid hfirst)⟩

end Sys2Proof.Machine

/-! ## Every landed event in its source's record; a round lands no source's event but its own two (14 R399, R409, R418) -/

namespace Sys2Proof.Machine

/-! ### What the events of a round add to their source's record -/

section
variable (m : Machine) (first : Bool)

/-- A source's ANY, total count and last context and unit after the events of a list that are its own. -/
theorem landAll_src_counts (l : List Event) (i : Nat) : ((m.landAll first l).1.src i).any =
      ((m.src i).any || !(l.filter fun e => e.source == i).isEmpty) ∧
    ((m.landAll first l).1.src i).total = (l.filter fun e => e.source == i).foldl (fun n e => satAdd32 n e.count) (m.src i).total ∧
    (∀ e, (l.filter fun e => e.source == i).getLast? = some e → ((m.landAll first l).1.src i).lastCtx = e.ctx ∧
      ((m.landAll first l).1.src i).lastUnit = e.unit % 256) ∧
    ((l.filter fun e => e.source == i) = [] → ((m.landAll first l).1.src i).lastCtx = (m.src i).lastCtx ∧
      ((m.landAll first l).1.src i).lastUnit = (m.src i).lastUnit) := by
  induction l generalizing m with
  | nil => simp [Machine.landAll]
  | cons e l ih =>
    have hstep : (m.landAll first (e :: l)).1 = ((m.landEvent first e).1.landAll first l).1 := rfl
    obtain ⟨hany, htotal, hlast, hnone⟩ := ih (m.landEvent first e).1
    rw [hstep]
    by_cases he : e.source = i
    · subst he
      have hsrc : ((m.landEvent first e).1.src e.source).any = true ∧
          ((m.landEvent first e).1.src e.source).total = satAdd32 (m.src e.source).total e.count ∧
          ((m.landEvent first e).1.src e.source).lastCtx = e.ctx ∧ ((m.landEvent first e).1.src e.source).lastUnit = e.unit % 256 := by
        simp [Machine.landEvent]
      obtain ⟨hany', htotal', hctx', hunit'⟩ := hsrc
      rw [List.filter_cons_of_pos (by simp)]
      refine ⟨by simp [hany, hany'], by rw [htotal, htotal', List.foldl_cons], fun x hx => ?_, fun h => absurd h (List.cons_ne_nil _ _)⟩
      rcases hl : (l.filter fun x => x.source == e.source) with _ | ⟨y, t⟩
      · rw [hl, List.getLast?_singleton, Option.some.injEq] at hx
        subst hx
        exact ⟨(hnone hl).1.trans hctx', (hnone hl).2.trans hunit'⟩
      · exact hlast x (by rw [hl] at hx ⊢; exact hx)
    · rw [landEvent_src_other m first e (Ne.symm he)] at hany htotal hnone
      rw [List.filter_cons_of_neg (by simpa using he)]
      exact ⟨hany, htotal, hlast, hnone⟩

end

/-! ### What a round itself lands: TTL_ESCALATED and TTL_LOG_OVF -/

/-- Nothing has landed but events of TTL_ESCALATED and TTL_LOG_OVF. -/
def Machine.LandedOwn (m : Machine) : Prop := ∀ e ∈ m.ttl.landed, e.source = 532 ∨ e.source = 533

section
variable {m : Machine}

theorem Machine.LandedOwn.congr {a : Machine} (h : m.LandedOwn) (hl : a.ttl.landed = m.ttl.landed) : a.LandedOwn :=
  fun e he => h e (hl ▸ he)

theorem raise_landedOwn (h : m.LandedOwn) {src : Nat} (hsrc : src = 532 ∨ src = 533) (unit : Nat) : (m.raise src unit).LandedOwn := by
  unfold Machine.raise Machine.raiseAs
  split
  · exact h
  · intro e he
    rcases List.mem_append.mp he with he | he
    · exact h e he
    · rw [List.mem_singleton.mp he]
      exact hsrc

theorem ttlLog_landedOwn (h : m.LandedOwn) (r : TtlRecord) : (m.ttlLog r).LandedOwn := by
  dsimp only [Machine.ttlLog]
  split
  · exact raise_landedOwn (m := m.modTtl _) (h.congr rfl) (.inr rfl) 0
  · exact h.congr rfl

theorem interrupt_landedOwn (h : m.LandedOwn) (f v : Nat) : (m.interrupt f v).LandedOwn :=
  h.congr (congrArg Ttl.landed (interrupt_ttl m f v))

theorem setSlot_landed (m : Machine) (k : Option Nat) (r : SlotRec) : (m.setSlot k r).ttl.landed = m.ttl.landed := by
  rw [setSlot_ttl]

theorem classOrders_landed (m : Machine) (cls src : Nat) : (m.classOrders cls src).ttl.landed = m.ttl.landed := by
  unfold Machine.classOrders
  dsimp only
  split <;> split <;> rfl

theorem classAction_landed (m : Machine) (k : Option Nat) (cls src : Nat) : (m.classAction k cls src).1.ttl.landed = m.ttl.landed := by
  obtain ⟨pin, h, -⟩ := classAction_ttl m k cls src
  rw [h, ← classOrders_landed m cls src, Machine.classSlot, setSlot_ttl]

theorem escalate_landedOwn (h : m.LandedOwn) (k : Option Nat) (src roundN fl n : Nat) : (m.escalate k src roundN fl n).LandedOwn := by
  induction n generalizing m with
  | zero => exact h
  | succ n ih =>
    cases k with
    | some c =>
      dsimp only [Machine.escalate]
      split
      · exact (raise_landedOwn (interrupt_landedOwn (ttlLog_landedOwn h _) 0 0) (.inl rfl) 0).congr rfl
      · exact h
    | none =>
      dsimp only [Machine.escalate]
      split
      · exact ih (raise_landedOwn (interrupt_landedOwn (ttlLog_landedOwn (h.congr (classAction_landed ..)) _) 0 0) (.inl rfl) 0)
      · exact h

theorem serveSlot_landedOwn (h : m.LandedOwn) (k : Option Nat) (l : List RoundEvent) (roundN : Nat) (first : Bool) :
    (m.serveSlot k l roundN first).LandedOwn := by
  have hact (r : SlotRec) (cls src : Nat) : ((m.setSlot k r).classAction k cls src).1.LandedOwn :=
    h.congr ((classAction_landed ..).trans (setSlot_landed ..))
  dsimp only [Machine.serveSlot]
  split
  · exact h
  · split
    · exact escalate_landedOwn (interrupt_landedOwn (ttlLog_landedOwn (hact _ _ _) _) 0 0) _ _ _ _ _
    · split
      · exact escalate_landedOwn (ttlLog_landedOwn (hact _ _ _) _) _ _ _ _ _
      · exact h.congr (setSlot_landed ..)

theorem serveContexts_landedOwn (h : m.LandedOwn) (l : List RoundEvent) (roundN : Nat) (first : Bool) :
    (m.serveContexts l roundN first).LandedOwn := by
  unfold Machine.serveContexts
  generalize ((l.filterMap fun e => e.ev.ctx).eraseDups) = cs
  induction cs generalizing m with
  | nil => exact h
  | cons c cs ih => exact ih (serveSlot_landedOwn h _ _ _ _)

theorem reactRound_landedOwn (h : m.LandedOwn) (rs : List RoundEvent) (roundN : Nat) (first : Bool) :
    (m.reactRound rs roundN first).LandedOwn := by
  have habsorb {a : Machine} (ha : a.LandedOwn) : a.absorbSlots.LandedOwn := by
    obtain ⟨slots, n, heq⟩ := absorbSlots_ttl a
    exact ha.congr (by rw [heq])
  have hserve := serveSlot_landedOwn h none (rs.filter fun e => !m.toContext e) roundN first
  dsimp only [Machine.reactRound]
  split
  · split
    · exact habsorb hserve
    · exact (habsorb hserve).congr rfl
  · exact serveContexts_landedOwn hserve _ _ _

variable (m) (evs : List Event)

theorem banked_landed : (m.banked evs).1.ttl.landed = [] := by
  rw [Machine.banked, landAll_ttl]
  rfl

theorem promoted_landedOwn : (m.promoted evs).LandedOwn := by
  have hrecords (l : List Event) (a : Machine) (ha : a.LandedOwn) :
      (l.foldl (fun (a : Machine) e => a.promoteRecord (roundSources evs).length m.ttl.armed e) a).LandedOwn := by
    induction l generalizing a with
    | nil => exact ha
    | cons e l ih => exact ih _ (ttlLog_landedOwn ha _)
  refine hrecords _ _ fun e he => ?_
  rw [banked_landed] at he
  cases he

theorem takeRound_landedOwn : (m.takeRound evs).LandedOwn := by
  refine reactRound_landedOwn ?_ _ _ _
  dsimp only [Machine.landRound]
  split
  · exact (promoted_landedOwn m evs).congr rfl
  · exact promoted_landedOwn m evs

end

/-- Settles O8: what a round leaves of a source's record is what its landing left, which an induction over the landed events gives. -/
theorem landedEventsCountInTheirSources : Obligations.LandedEventsCountInTheirSources := by
  unfold Obligations.LandedEventsCountInTheirSources
  intro s
  by_cases hl : s.m.ttl.landed = []
  · obtain ⟨pin, hpin⟩ := pinDue_eq s.m
    refine .of_done rfl ?_
    rw [ttlRound_of_empty hl, hpin]
    refine ⟨fun e he => absurd (show e ∈ s.m.ttl.landed from he) (by simp [hl]), fun i => ?_⟩
    simp [hl, Machine.src]
  · refine completes_ttlRound hl fun pin => ⟨takeRound_landedOwn _ _, fun i => ?_⟩
    rw [takeRound_src]
    exact landAll_src_counts _ _ _ i

end Sys2Proof.Machine

/-! ## Reactions, promotion and FAULT_N end; FORCE and the FIRST bank (14 R400, R401, R408, R412-R414, R416) -/

namespace Sys2Proof.Machine

/-! ### The end of a reaction (R408) -/

section
variable {m : Machine} {k : Option Nat}

/-- A reaction whose class action is done ends with one recovery, and its slot is idle. -/
theorem endReaction_of_done (hactive : (m.slotAt k).active = true) (hdone : (m.slotAt k).actionDone = true) (hlo : 1 ≤ (m.slotAt k).cls)
    (hhi : (m.slotAt k).cls ≤ 3) : (m.endReaction k).slotAt k = { SlotRec.reset with
        recoveries := ((m.slotAt k).recoveries.filter fun e => decide (m.ns < e.2.toNat + 86400000000000)) ++
          [((m.slotAt k).cls, m.time.now)] } ∧
    (m.endReaction k).ttl.recTotal = satAdd32 m.ttl.recTotal 1 := by
  have hcond : ((m.slotAt k).active && (m.slotAt k).actionDone && decide (1 ≤ (m.slotAt k).cls) && decide ((m.slotAt k).cls ≤ 3)) = true := by
    simp [hactive, hdone, hlo, hhi]
  unfold Machine.endReaction
  dsimp only
  rw [if_pos hcond]
  refine ⟨?_, ?_⟩
  · rw [slotAt_of_core (logged_core _ _)]
    refine Eq.trans ?_ (setSlot_slotAt m k _)
    cases k <;> rfl
  · refine (congrArg Ttl.recTotal (logged_core _ _)).trans ?_
    rw [Ttl.core, modTtl_ttl, setSlot_ttl]

theorem endReaction_of_running (h : (m.slotAt k).active = false ∨ (m.slotAt k).actionDone = false ∨ (m.slotAt k).cls = 4) :
    m.endReaction k = m := by
  refine if_neg ?_
  rcases h with h | h | h <;> simp [h]

end

/-! ### FAULT_N goes high (R412, R413) -/

section
variable {m : Machine}

theorem pinRelease_pin (hlow : m.ttl.pin.low = true) (hmin : m.ttl.pin.minDone = true) (hhold : m.ttl.pin.hold = false)
    (hc4 : m.ttl.pin.c4 = false) : m.pinRelease.ttl.pin = { m.ttl.pin with low := false, highSince := some m.time.now } := by
  rw [Machine.pinRelease, if_pos (by simp [hlow, hmin, hhold, hc4])]
  rfl

theorem pinRelease_of_held (h : m.ttl.pin.low = false ∨ m.ttl.pin.minDone = false ∨ m.ttl.pin.hold = true ∨ m.ttl.pin.c4 = true) :
    m.pinRelease.ttl.pin = m.ttl.pin := by
  refine congrArg (fun a : Machine => a.ttl.pin) (if_neg ?_)
  rcases h with h | h | h | h <;> simp [h]

end

/-! ### FORCE (R414) -/

section
variable {m : Machine} {i : Nat}

theorem force_lands (henable : m.ttl.injectEn = true) (hsrc : (entryClass i).isSome = true)
    (hmask : m.ttl.masking = false ∨ maskedSource i = false) : (m.force i).ttl = { m.ttl with
      landed := m.ttl.landed ++ [{ source := i, count := 1, unit := 0, cls := m.currentClass i, forced := true
                                   ctx := if m.ttl.forceValid then some m.ttl.forceCtx else none }] } := by
  unfold Machine.force
  rw [if_pos (by simp [henable, hsrc]), if_neg (by rcases hmask with h | h <;> simp [h])]
  rfl

theorem force_masked (henable : m.ttl.injectEn = true) (hsrc : (entryClass i).isSome = true) (hmask : m.ttl.masking = true)
    (hsource : maskedSource i = true) : (m.force i).ttl = { m.ttl with maskedCnt := satAdd32 m.ttl.maskedCnt 1 } := by
  unfold Machine.force
  rw [if_pos (by simp [henable, hsrc]), if_pos (by simp [hmask, hsource])]
  rfl

theorem force_ignored (h : m.ttl.injectEn = false ∨ entryClass i = none) : m.force i = m := by
  refine if_neg ?_
  rcases h with h | h <;> simp [h]

end

/-! ### The FIRST bank (R400, R416) -/

section
variable {α : Type} {d : α} {t : Table α}

theorem tget_of_mem (hwf : t.Pairwise fun a b => a.1 < b.1) {e : Nat × α} (he : e ∈ t) : tget d t e.1 = e.2 := by
  induction t with
  | nil => cases he
  | cons b t ih =>
    obtain ⟨hb, ht⟩ := List.pairwise_cons.mp hwf
    rw [tget_cons]
    rcases List.mem_cons.mp he with rfl | he
    · exact if_pos rfl
    · rw [if_neg (Nat.ne_of_lt (hb e he)), ih ht he]

theorem mem_of_tget_ne {k : Nat} (h : tget d t k ≠ d) : (k, tget d t k) ∈ t := by
  induction t with
  | nil => exact absurd rfl h
  | cons b t ih =>
    rw [tget_cons] at h ⊢
    split
    next hb => exact hb ▸ List.mem_cons_self
    next hb => exact List.mem_cons_of_mem _ (ih (by rwa [if_neg hb] at h))

end

section
variable {m : Machine}

/-- The bank is armed when no source's FIRST bit is set. -/
theorem armed_iff (hwf : twf SrcRec.reset m.ttl.src = true) : m.ttl.armed = true ↔ ∀ i, (m.src i).first = false := by
  rw [Ttl.armed, List.all_eq_true]
  constructor
  · intro h i
    by_cases hi : m.src i = SrcRec.reset
    · rw [hi]; rfl
    · exact (Bool.not_eq_true' _).mp (h _ (mem_of_tget_ne hi))
  · intro h e he
    have : tget SrcRec.reset m.ttl.src e.1 = e.2 := tget_of_mem ((twf_iff _ _).mp hwf).1 he
    exact (Bool.not_eq_true' _).mpr (this ▸ h e.1)

variable (m) (l : List Nat) (base : Nat)

theorem foldl_clearFirst_src (i : Nat) :
    (l.foldl (fun (m : Machine) b => m.modSrc (base + b) fun r => { r with first := false }) m).src i =
      if ∃ b ∈ l, i = base + b then { m.src i with first := false } else m.src i := by
  induction l generalizing m with
  | nil => simp
  | cons b l ih =>
    rw [List.foldl_cons, ih, modSrc_src]
    by_cases hb : i = base + b
    · simp [hb]
    · simp [hb]

theorem foldl_clearFirst_twf (hwf : twf SrcRec.reset m.ttl.src = true) :
    twf SrcRec.reset (l.foldl (fun (m : Machine) b => m.modSrc (base + b) fun r => { r with first := false }) m).ttl.src = true := by
  induction l generalizing m with
  | nil => exact hwf
  | cons b l ih => exact ih _ (twf_tset _ _ _ _ hwf)

variable (w : Nat) (mask : Word)

/-- A FIRST word's clearing clears the bits of its mask, whether the bank is armed again or not. -/
theorem clearFirst_src (i : Nat) : (m.clearFirst w mask).src i =
    if ∃ b ∈ onePositions mask, i = 32 * w + b then { m.src i with first := false } else m.src i := by
  rw [← foldl_clearFirst_src]
  unfold Machine.clearFirst
  dsimp only
  split <;> rfl

theorem clearFirst_rearms (hfirst : m.ttl.armed = false)
    (harmed : ((onePositions mask).foldl (fun (m : Machine) b => m.modSrc (32 * w + b) fun r => { r with first := false }) m).ttl.armed
      = true) : (m.clearFirst w mask).ttl.firstLatched = false ∧ (m.clearFirst w mask).ttl.firstClass = 0 ∧
    (m.clearFirst w mask).ttl.firstSources = 0 ∧ (m.clearFirst w mask).ttl.firstTime = 0 := by
  unfold Machine.clearFirst
  dsimp only
  rw [if_pos (by simp [hfirst, harmed])]
  exact ⟨rfl, rfl, rfl, rfl⟩

end

/-- Settles O47: each end is one branch of its operation; the bank's arming is read off its records' FIRST bits. -/
theorem telltaleReactionsPinAndBanksEnd : Obligations.TelltaleReactionsPinAndBanksEnd := by
  unfold Obligations.TelltaleReactionsPinAndBanksEnd
  refine ⟨?promotion, ?quiet, ?quietIgnored, ?lowEnd, ?lowEndIgnored, ?holdWrite, ?force, ?forceIgnored, ?firstClear⟩
  case promotion =>
    intro i s
    have hsrc := modSrc_src s.m i.val fun r => { r with raised := 0, winOpen := false, winCount := 0 }
    refine .of_done rfl ⟨(hsrc _).trans (if_pos rfl), fun h4 => ?_, fun k hk => (hsrc k).trans (if_neg hk)⟩
    rw [Machine.currentClass, if_neg h4, hsrc, if_pos rfl]
    rfl
  case quiet =>
    rintro k r s rfl hactive hdone hlo hhi
    exact .of_done rfl (endReaction_of_done hactive hdone hlo hhi)
  case quietIgnored => exact fun k s h => .of_done rfl (endReaction_of_running h)
  case lowEnd =>
    intro s hlow
    have he : exec .faultNLowEnd s = done s ((s.m.modTtl fun t => { t with pin := { t.pin with minDone := true } }).pinRelease) :=
      congrArg (done s) (if_pos hlow)
    exact ⟨fun hhold hc4 => .of_done he (pinRelease_pin hlow rfl hhold hc4),
      fun h => .of_done he (pinRelease_of_held (.inr (.inr h)))⟩
  case lowEndIgnored => exact fun s hlow => .of_done rfl (if_neg (by simp [hlow]))
  case holdWrite =>
    refine fun h s => ⟨fun hheld => .of_done rfl ?_, fun hh hlow hmin hc4 => .of_done rfl ?_⟩
    · refine pinRelease_of_held ?_
      rcases hheld with h | h | h | h
      · exact .inr (.inr (.inl h))
      · exact .inl h
      · exact .inr (.inl h)
      · exact .inr (.inr (.inr h))
    · subst hh
      exact pinRelease_pin hlow hmin rfl hc4
  case force => exact fun i s henable hsrc => ⟨fun h => .of_done rfl (force_lands henable hsrc h), fun h h' => .of_done rfl (force_masked henable hsrc h h')⟩
  case forceIgnored => exact fun i s h => .of_done rfl (force_ignored h)
  case firstClear =>
    intro w mask s
    refine .of_done rfl ⟨fun b hb hbit => ?_, fun i hi => ?_, fun hwf ⟨i, hi⟩ hall => ?_⟩
    · rw [clearFirst_src, if_pos ⟨b, (mem_onePositions mask b).mpr ⟨hb, hbit⟩, rfl⟩]
    · rw [clearFirst_src, if_neg]
      rintro ⟨b, hb, rfl⟩
      obtain ⟨hlt, hbit⟩ := (mem_onePositions mask b).mp hb
      exact hi b hlt hbit rfl
    · refine clearFirst_rearms s.m w mask ?_ ((armed_iff (foldl_clearFirst_twf s.m _ _ hwf)).mpr fun j => ?_)
      · rw [Bool.eq_false_iff, Ne, armed_iff hwf]
        exact fun h => absurd (h i) (by simp [hi])
      · rw [foldl_clearFirst_src]
        split
        next => rfl
        next hj =>
          rw [← Bool.not_eq_true]
          intro hfirst
          obtain ⟨b, hb, hbit, rfl⟩ := hall j hfirst
          exact hj ⟨b, (mem_onePositions mask b).mpr ⟨hb, hbit⟩, rfl⟩

end Sys2Proof.Machine

/-! ## Farnis: what a log record and a change of one site leave; reads, flash updates, settings and the restart (17 R499-R504) -/

namespace Sys2Proof.Machine

/-! ### The log, the sites and what is sent -/

section
variable (m : Machine) (t : DWord) (type site : Nat) (data : List Byte) (k : Nat)

theorem farLog_far : (m.farLog t type site data).far = { m.far with
    seq := (m.far.seq + 1) % 4294967296
    log := (if m.far.log.length < farLogSize then m.far.log else m.far.log.drop 1) ++ [farRecord m.far.seq t type site data] } := rfl

theorem farLog_out : (m.farLog t type site data).out = m.out ++ [.event (farRecord m.far.seq t type site data)] := rfl

@[simp] theorem farLog_siteAt : (m.farLog t type site data).siteAt k = m.siteAt k := rfl

@[simp] theorem farLog_flash : (m.farLog t type site data).flash = m.flash := rfl

/-- One record of the log, and nothing sent but its event. -/
theorem farLog_logged : m.farLogged (m.farLog t type site data) t type site data [] := ⟨rfl, rfl, rfl⟩

@[simp] theorem toSite_siteAt (j : Nat) (b : List Byte) : (m.toSite j b).siteAt k = m.siteAt k := rfl

@[simp] theorem readFault_siteAt (j : Nat) : (m.readFault j).siteAt k = m.siteAt k := rfl

theorem reply_far (ok : Bool) : (m.reply k ok).far = m.far := rfl

/-- A change of one site leaves every other. -/
theorem modSite_siteOnly (f : SiteRec → SiteRec) : m.siteOnly (m.modSite k f) k (f (m.siteAt k)) :=
  ⟨(modSite_siteAt m k f k).trans (if_pos rfl), fun j hj => (modSite_siteAt m k f j).trans (if_neg hj)⟩

end

/-! ### The flash after its copy was written (R502) -/

section
variable (m : Machine) (a : Nat) {l : List Byte}

/-- Bytes programmed where the flash is erased read back, and every other byte is as it was. -/
theorem flashProgram_of_erased (h : ∀ i < l.length, tget Config.erased m.flash (a + i) = Config.erased) (x : Nat) :
    tget Config.erased (m.flashProgram a l).flash x =
      if a ≤ x ∧ x < a + l.length then l.getD (x - a) Config.erased else tget Config.erased m.flash x := by
  have hbytes : m.flashBytes a l.length = List.replicate l.length Config.erased := by
    refine List.ext_getElem (by simp [Machine.flashBytes]) fun i hi _ => ?_
    have hlen : i < l.length := by simpa [Machine.flashBytes] using hi
    have hget := mread_getD Config.erased m.flash a l.length i hlen
    rw [h i hlen, List.getD_eq_getElem _ _ (by simpa using hlen)] at hget
    rw [List.getElem_replicate]
    exact hget
  have hand : ((l.zip (m.flashBytes a l.length)).map fun p => p.1 &&& p.2) = l := by
    rw [hbytes]
    refine List.ext_getElem (by simp) fun i _ hi => ?_
    simp only [List.getElem_map, List.getElem_zip, List.getElem_replicate]
    exact BitVec.and_allOnes
  unfold Machine.flashProgram
  rw [hand]
  split
  next hin => exact tget_mwrite_inside _ _ _ _ _ hin
  next hout => exact tget_mwrite_outside _ _ _ _ _ (by omega)

theorem flashClear_flash (n x : Nat) : tget Config.erased (m.flashClear a n).flash x =
    if a ≤ x ∧ x < a + n then Config.erased else tget Config.erased m.flash x := tget_tclear _ _ _ _ _

/-- A copy written whole, its first 4 KiB last, reads back, and the flash outside its room is as it was. -/
theorem writeCopy_flash {n : Nat} (hlo : 4096 ≤ l.length) (hhi : l.length ≤ n) (x : Nat) :
    tget Config.erased (((m.flashClear a n).flashProgram (a + 4096) (l.drop 4096)).flashProgram a (l.take 4096)).flash x =
      if a ≤ x ∧ x < a + l.length then l.getD (x - a) Config.erased
      else if a ≤ x ∧ x < a + n then Config.erased else tget Config.erased m.flash x := by
  have hclear := flashClear_flash m a n
  have hbody := flashProgram_of_erased (m.flashClear a n) (a + 4096) (l := l.drop 4096) fun i hi => by
    rw [List.length_drop] at hi
    rw [hclear, if_pos (by omega)]
  have hhead := flashProgram_of_erased ((m.flashClear a n).flashProgram (a + 4096) (l.drop 4096)) a (l := l.take 4096) fun i hi => by
    rw [List.length_take] at hi
    rw [hbody, if_neg (by omega), hclear, if_pos (by omega)]
  rw [hhead, hbody, hclear, List.length_take, List.length_drop]
  by_cases h1 : a ≤ x ∧ x < a + min 4096 l.length
  · rw [if_pos h1, if_pos (by omega), List.getD_eq_getElem?_getD, List.getElem?_take, if_pos (by omega), List.getD_eq_getElem?_getD]
  · rw [if_neg h1]
    by_cases h2 : a + 4096 ≤ x ∧ x < a + 4096 + (l.length - 4096)
    · rw [if_pos h2, if_pos (by omega), List.getD_eq_getElem?_getD, List.getElem?_drop, List.getD_eq_getElem?_getD,
        show 4096 + (x - (a + 4096)) = x - a by omega]
    · rw [if_neg h2, if_neg (by omega : ¬ (a ≤ x ∧ x < a + l.length))]

end

theorem sequenced_length {image : List Byte} (h : 64 ≤ image.length) (seq : Nat) : (sequenced image seq).length = image.length := by
  simp only [sequenced, List.length_append, List.length_take, List.length_drop, leBytes_length]
  omega

/-- A table that holds a list's bytes from an address on reads them. -/
theorem mread_eq_of_tget {d : Byte} {t : Table Byte} {a : Nat} {l : List Byte} (h : ∀ i < l.length, tget d t (a + i) = l.getD i d) :
    mread d t a l.length = l := by
  refine List.ext_getElem (by simp) fun i h1 h2 => ?_
  have hget := mread_getD d t a l.length i h2
  rw [h i h2, List.getD_eq_getElem _ _ (by simpa using h2), List.getD_eq_getElem _ _ h2] at hget
  exact hget

section
variable (m : Machine) {image : List Byte} (hlo : 4096 ≤ image.length) (hhi : image.length ≤ copyMax) (hrescue : m.boot.rescue = false)
  (b : Bool)
include hlo hhi hrescue

/-- An update that its gate lets through leaves the copy with the next SEQUENCE, and the flash outside the copy's room as it was. -/
theorem updateFlash_written (hgate : m.flashGate (copyBase (!m.boot.copyB)) copyMax = 0) :
    (m.updateFlash image b true).1.flashBytes (copyBase (!m.boot.copyB)) image.length =
      sequenced image ((m.boot.imageSeq.toNat + 1) % 4294967296) ∧
    (∀ x, x < copyBase (!m.boot.copyB) ∨ copyBase (!m.boot.copyB) + copyMax ≤ x →
      tget Config.erased (m.updateFlash image b true).1.flash x = tget Config.erased m.flash x) := by
  have heq : (m.updateFlash image b true).1 = ((m.flashClear (copyBase (!m.boot.copyB)) copyMax).flashProgram
      (copyBase (!m.boot.copyB) + 4096) ((sequenced image ((m.boot.imageSeq.toNat + 1) % 4294967296)).drop 4096)).flashProgram
      (copyBase (!m.boot.copyB)) ((sequenced image ((m.boot.imageSeq.toNat + 1) % 4294967296)).take 4096) := by
    unfold Machine.updateFlash
    dsimp only
    rw [hrescue, if_neg (by omega)]
    simp [hgate]
  have hlen := sequenced_length (by omega) ((m.boot.imageSeq.toNat + 1) % 4294967296) (image := image)
  have hflash := writeCopy_flash m (copyBase (!m.boot.copyB)) (l := sequenced image ((m.boot.imageSeq.toNat + 1) % 4294967296))
    (n := copyMax) (by omega) (by omega)
  rw [heq]
  refine ⟨?_, fun x hx => ?_⟩
  · rw [← hlen]
    refine mread_eq_of_tget fun i hi => ?_
    rw [hflash, if_pos (by omega), show copyBase (!m.boot.copyB) + i - copyBase (!m.boot.copyB) = i by omega]
  · rw [hflash, if_neg (by omega), if_neg (by omega)]

/-- An update that its gate refuses leaves the flash. -/
theorem updateFlash_refused (hgate : m.flashGate (copyBase (!m.boot.copyB)) copyMax ≠ 0) (d : Bool) :
    (m.updateFlash image b d).1.flash = m.flash := by
  unfold Machine.updateFlash
  dsimp only
  rw [hrescue, if_neg (by omega)]
  simp only [Bool.false_eq_true, if_false, ne_eq, hgate, not_false_eq_true, if_true]
  split
  · exact Kept.flash (W := [.ttl]) (raise_kept .refl 562 0 (by decide)) (by decide)
  · rfl

end

/-! ### An update of a site, with its log record -/

section
variable (m : Machine) {k : Nat} (image : List Byte) (b d : Bool) (t : DWord)

theorem updateFlash_far : (m.updateFlash image b d).1.far = m.far :=
  Kept.far (W := [.ttl, .flash, .free]) (by apply updateFlash_kept .refl <;> decide) (by decide)

theorem siteUpdate_own (hst : (m.siteAt k).state = .on ∨ (m.siteAt k).state = .notice) (hown : m.ownSite k = true) :
    ∃ data, m.siteUpdate k image b d t = (m.updateFlash image b d).1.farLog t 0x09 k data := by
  unfold Machine.siteUpdate
  dsimp only
  rw [if_neg (by rcases hst with h | h <;> simp [h])]
  simp only [hown, if_true]
  exact ⟨_, rfl⟩

theorem siteUpdate_other (hst : (m.siteAt k).state = .on) (hown : m.ownSite k = false) :
    ∃ data, m.siteUpdate k image b d t = m.farLog t 0x09 k data := by
  unfold Machine.siteUpdate
  dsimp only
  rw [if_neg (by simp [hst])]
  simp only [hown, Bool.false_eq_true, if_false]
  exact ⟨_, rfl⟩

end

/-! ### The restart (R504) -/

section
variable (m : Machine) {l : List Nat}

/-- The restart's record, and the staged firmware in effect. -/
def Machine.restartLogged (m : Machine) (t : DWord) : Machine :=
  (m.farLog t 0x0C 0xFF [if m.far.fwStaged then 2 else 1]).modFar fun f => { f with fwStaged := false }

theorem restartLogged_siteAt (t : DWord) (k : Nat) : (m.restartLogged t).siteAt k = m.siteAt k := rfl

/-- A restart's look at one site: one that is ON is asked for its Telltale again. -/
def Machine.restartSite (m : Machine) (k : Nat) : Machine :=
  if (m.siteAt k).state = .on then (m.modSite k fun r => { r with faultWait := true, startRead := true, rereads := 0 }).readFault k else m

theorem restartSite_siteAt (k j : Nat) : (m.restartSite k).siteAt j = if j = k ∧ (m.siteAt j).state = .on
    then { m.siteAt j with faultWait := true, startRead := true, rereads := 0 } else m.siteAt j := by
  unfold Machine.restartSite
  split
  next h =>
    rw [readFault_siteAt, modSite_siteAt]
    by_cases hj : j = k
    · subst hj; simp [h]
    · simp [hj]
  next h =>
    refine (if_neg ?_).symm
    rintro ⟨rfl, hon⟩
    exact h hon

theorem foldl_restartSite_siteAt (hl : l.Nodup) (j : Nat) : (l.foldl Machine.restartSite m).siteAt j =
    if j ∈ l ∧ (m.siteAt j).state = .on then { m.siteAt j with faultWait := true, startRead := true, rereads := 0 } else m.siteAt j := by
  induction l generalizing m with
  | nil => simp
  | cons k l ih =>
    obtain ⟨hk, hl⟩ := List.nodup_cons.mp hl
    rw [List.foldl_cons, ih _ hl, restartSite_siteAt]
    by_cases hj : j = k
    · subst hj; simp [hk]
    · simp [hj]

/-- The sites' reads leave the rest of Farnis. -/
theorem foldl_restartSite_far (l : List Nat) : (l.foldl Machine.restartSite m).far = { m.far with sites := (l.foldl Machine.restartSite m).far.sites } := by
  induction l generalizing m with
  | nil => rfl
  | cons k l ih =>
    have hone : (m.restartSite k).far = { m.far with sites := (m.restartSite k).far.sites } := by
      unfold Machine.restartSite
      split <;> rfl
    rw [List.foldl_cons, ih, hone]

end

/-! ### Settings (R503, Table 17.11) -/

theorem setting_of_tset {m a : Machine} {n v : Nat} (h : a.far.settings = tset none m.far.settings n (some v)) (k : Nat) :
    a.setting k = if k = n then v else m.setting k := by
  unfold Machine.setting
  rw [h, tget_tset]
  split <;> rfl

/-- A change of a setting is logged with its old and its new value, and answered. -/
theorem configLog_answered (m : Machine) (t : DWord) (n old new : Nat) {g : Farnis → Farnis} (hseq : ∀ f, (g f).seq = f.seq)
    (hlog : ∀ f, (g f).log = f.log) (ok : Bool) : m.farLogged (((m.configLog t n old new).modFar g).reply 0xFF ok) t 0x0B 0xFF
      (leBytes 2 n ++ leBytes 4 old ++ leBytes 4 new) [.answer 0xFF ok] :=
  ⟨hseq _, hlog _, List.append_assoc _ _ _⟩

/-- A command of a Farnis that runs. -/
theorem running_if {s : State} (h : s.m.far.running = true) (a b : Machine) :
    (if !s.m.far.running then a else b) = b ∧ (if s.m.far.running then b else a) = b := by
  simp [h]

/-- A command of a Farnis that does not run. -/
theorem stopped_if {s : State} (h : s.m.far.running = false) (a b : Machine) :
    (if !s.m.far.running then a else b) = a ∧ (if s.m.far.running then b else a) = a := by
  simp [h]

theorem farnisRestart_running {s : State} (t : DWord) (h : s.m.far.running = true) : exec (.farnisRestart t) s =
    done s ((List.range 16).foldl Machine.restartSite (s.m.restartLogged t)) :=
  congrArg (done s) (running_if h _ _).1

/-- Settles O55: reads send the figures, an update ends with its flash and its log record, the restart's sweep touches the ON sites alone, and
a setting is the one entry of the table. -/
theorem farnisAnswersUpdatesAndRestarts : Obligations.FarnisAnswersUpdatesAndRestarts := by
  unfold Obligations.FarnisAnswersUpdatesAndRestarts
  refine ⟨?reads, ?ownUpdate, ?otherUpdate, ?firmware, ?value, ?lists, ?stopped⟩
  case reads =>
    intro r l q k x s hrun
    refine ⟨.of_done rfl (running_if hrun _ _).2, .of_done rfl (running_if hrun _ _).2, .of_done rfl (running_if hrun _ _).2,
      .of_done rfl (running_if hrun _ _).2, .of_done rfl ?_⟩
    rw [(running_if hrun _ _).2]
    refine ⟨((s.m.freeBytes 96).1).map (·.toNat), by simp [Machine.freeBytes], ?_, rfl⟩
    rw [emit_out, List.map_append, ← List.append_assoc]
    rfl
  case ownUpdate =>
    intro k image b t s hrun hown hst hlo hhi hrescue
    obtain ⟨data, hupd⟩ := siteUpdate_own s.m image b true t hst hown
    refine ⟨fun hgate i hi => ?_, fun hgate => ?_⟩
    · obtain ⟨hbytes, hout⟩ := updateFlash_written s.m hlo hhi hrescue b hgate
      have he : exec i s = done s ((s.m.updateFlash image b true).1.farLog t 0x09 k data) := by
        rw [← hupd]
        simp only [List.mem_cons, List.not_mem_nil, or_false] at hi
        rcases hi with rfl | rfl
        · exact congrArg (done s) (running_if hrun _ _).2
        · exact congrArg (done s) (running_if hrun _ _).1
      refine .of_done he ⟨hbytes, hout, ?_⟩
      rw [farLog_far, updateFlash_far]
    · refine .of_done (congrArg (done s) ((running_if hrun _ _).2.trans hupd)) ?_
      rw [farLog_flash, farLog_far, updateFlash_far]
      exact ⟨updateFlash_refused s.m hlo hhi hrescue b hgate true, rfl⟩
  case otherUpdate =>
    intro k image b d t s hrun hst hown
    obtain ⟨data, hupd⟩ := siteUpdate_other s.m image b d t hst hown
    exact .of_done (congrArg (done s) ((running_if hrun _ _).2.trans hupd)) ⟨rfl, rfl⟩
  case firmware =>
    intro image b t s hrun
    refine ⟨.of_done (congrArg (done s) (running_if hrun _ _).1) rfl, .of_done (congrArg (done s) (running_if hrun _ _).1) rfl, ?_⟩
    have hsites := foldl_restartSite_siteAt (s.m.restartLogged t) (l := List.range 16) List.nodup_range
    have hfar := foldl_restartSite_far (s.m.restartLogged t) (List.range 16)
    simp only [restartLogged_siteAt] at hsites
    refine .of_done (farnisRestart_running t hrun) ?_
    rw [hfar]
    exact ⟨rfl, rfl, fun k hk hon => (hsites k).trans (if_pos ⟨List.mem_range.mpr hk, hon⟩),
      fun k hk hoff => (hsites k).trans (if_neg fun h => hoff h.2), rfl⟩
  case value =>
    intro n v t s hrun
    refine ⟨fun hok => ?_, fun hbad => ?_⟩
    · refine .of_done (congrArg (done s) ((running_if hrun _ _).1.trans (if_pos hok))) ?_
      have hset := setting_of_tset (m := s.m) (n := n) (v := v.toNat)
        (a := ((s.m.configLog t n (s.m.setting n) v.toNat).modFar fun f =>
          { f with settings := tset none f.settings n (some v.toNat) }).reply 0xFF true) rfl
      exact ⟨(hset n).trans (if_pos rfl), fun k hk => (hset k).trans (if_neg hk),
        configLog_answered s.m t n _ _ (fun _ => rfl) (fun _ => rfl) true⟩
    · exact .of_done (congrArg (done s) ((running_if hrun _ _).1.trans (if_neg (by simp [hbad])))) rfl
  case lists =>
    intro l baud two t s hrun
    refine ⟨fun hlo hhi hall => ?_, fun hb => ?_, fun hbad => ?_, fun hb => ?_⟩
    · have hok : 1 ≤ l.length ∧ l.length ≤ 8 ∧ l.all (fun a => decide (a.toNat < 128)) := ⟨hlo, hhi, by simpa using hall⟩
      refine .of_done (congrArg (done s) ((running_if hrun _ _).1.trans (if_pos hok))) ?_
      rw [reply_far, modFar_far]
      exact ⟨rfl, rfl⟩
    · have hok : [9600, 19200, 38400, 115200].contains baud = true := by simpa using hb
      refine .of_done (congrArg (done s) ((running_if hrun _ _).1.trans (if_pos hok))) ?_
      rw [reply_far, modFar_far]
    · refine .of_done (congrArg (done s) ((running_if hrun _ _).1.trans (if_neg ?_))) rfl
      rintro ⟨hlo, hhi, -⟩
      rcases hbad with rfl | h
      · simp at hlo
      · omega
    · exact .of_done (congrArg (done s) ((running_if hrun _ _).1.trans (if_neg (by simpa using hb)))) rfl
  case stopped =>
    intro k image r q l x w o b d t s hrun
    exact ⟨.of_done rfl (stopped_if hrun _ _).2, .of_done rfl (stopped_if hrun _ _).1, .of_done rfl (stopped_if hrun _ _).1,
      .of_done rfl (stopped_if hrun _ _).1, .of_done rfl (stopped_if hrun _ _).2, .of_done rfl (stopped_if hrun _ _).2,
      .of_done rfl (stopped_if hrun _ _).2⟩

end Sys2Proof.Machine

/-! ## Farnis: FAULT_N, the facility's readings and reports, crash summaries and digests (17 R490-R498, R501) -/

namespace Sys2Proof.Machine

/-! ### A power-off that begins, and one that is ordered -/

section
variable (m : Machine) (k : Nat)

theorem readFault_out : (m.readFault k).out = m.out ++ faultReads k := List.append_assoc _ _ _

theorem bare_far : m.bare.far = m.far := rfl

theorem siteOnly_of_sites {m a : Machine} {k : Nat} {r : SiteRec} (h : a.far.sites = tset .reset m.far.sites k r) : m.siteOnly a k r := by
  refine ⟨?_, fun j hj => ?_⟩
  · rw [Machine.siteAt, h, tget_tset_same]
  · rw [Machine.siteAt, h, tget_tset_ne _ _ _ hj]
    rfl

/-- A site whose power-off begins, and every other as it was. -/
theorem beginOff_siteOnly (a : PowerAct) : m.siteOnly (m.beginOff k a) k
    { m.siteAt k with state := .poweringOff, group := 3, act := some a, faultWait := false, digests := [] } := by
  unfold Machine.beginOff
  dsimp only
  split <;> exact siteOnly_of_sites rfl

variable {m k}

theorem takeOver_of_on (h : (m.siteAt k).state = .on) (a : PowerAct) (t : DWord) : m.takeOver k a t = m.orderOff k a t := by
  unfold Machine.takeOver
  simp only [h]

theorem orderOff_notice (h : (m.siteAt k).state = .on) {a : PowerAct} (hn : a.notice = true) (t : DWord) :
    m.orderOff k a t = m.modSite k fun x => { x with act := some a } := if_pos ⟨h, hn⟩

theorem orderOff_lit (h : (m.siteAt k).state.lit = true) {a : PowerAct} (hn : (m.siteAt k).state = .on → a.notice = false) (t : DWord) :
    m.orderOff k a t = m.beginOff k a := by
  unfold Machine.orderOff
  dsimp only
  rw [if_neg, if_pos h]
  rintro ⟨hon, hnotice⟩
  rw [hn hon] at hnotice
  cases hnotice

/-- What an automatic cycle's action is: its power-off ends in LOCKOUT once the cycles of 24 hours reached their limit (R488). -/
def Machine.cycleAct (m : Machine) (k : Nat) (notice : Bool) (cause : Nat) (t : DWord) : PowerAct :=
  offAct (if m.setting 7 ≤ ((m.siteAt k).cycles.filter fun c => decide (t.toNat < c.toNat + dayMs)).length then .lockout else .cycle)
    notice cause 1

/-- The machine with an automatic cycle of a site counted. -/
def Machine.countCycle (m : Machine) (k : Nat) (t : DWord) : Machine :=
  m.modSite k fun r => { r with cycles := ((m.siteAt k).cycles.filter fun c => decide (t.toNat < c.toNat + dayMs)) ++ [t] }

theorem countCycle_siteAt (t : DWord) : (m.countCycle k t).siteAt k = { m.siteAt k with
    cycles := ((m.siteAt k).cycles.filter fun c => decide (t.toNat < c.toNat + dayMs)) ++ [t] } :=
  (modSite_siteAt m k _ k).trans (if_pos rfl)

theorem autoCycle_idle (h : (m.siteAt k).act = none) (notice : Bool) (cause : Nat) (t : DWord) :
    m.autoCycle k notice cause t = (m.countCycle k t).takeOver k (m.cycleAct k notice cause t) t := by
  unfold Machine.autoCycle
  rw [h]
  rfl

/-- An automatic cycle with notice of a site that is ON waits in its record for the notice. -/
theorem autoCycle_notice (hon : (m.siteAt k).state = .on) (hact : (m.siteAt k).act = none) (cause : Nat) (t : DWord) :
    (m.autoCycle k true cause t).siteAt k = { m.siteAt k with
      cycles := ((m.siteAt k).cycles.filter fun c => decide (t.toNat < c.toNat + dayMs)) ++ [t]
      act := some (m.cycleAct k true cause t) } := by
  have hstate : ((m.countCycle k t).siteAt k).state = .on := by rw [countCycle_siteAt]; exact hon
  rw [autoCycle_idle hact, takeOver_of_on hstate, orderOff_notice hstate rfl, modSite_siteAt, if_pos rfl, countCycle_siteAt]

/-- One without notice powers the site off at once. -/
theorem autoCycle_force (hon : (m.siteAt k).state = .on) (hact : (m.siteAt k).act = none) (cause : Nat) (t : DWord) :
    (m.autoCycle k false cause t).siteAt k = { m.siteAt k with
      cycles := ((m.siteAt k).cycles.filter fun c => decide (t.toNat < c.toNat + dayMs)) ++ [t]
      state := .poweringOff, group := 3, act := some (m.cycleAct k false cause t), faultWait := false, digests := [] } := by
  have hstate : ((m.countCycle k t).siteAt k).state = .on := by rw [countCycle_siteAt]; exact hon
  obtain ⟨hsite, -⟩ := beginOff_siteOnly (m.countCycle k t) k (m.cycleAct k false cause t)
  rw [autoCycle_idle hact, takeOver_of_on hstate, orderOff_lit (by rw [hstate]; rfl) fun _ => rfl, hsite, countCycle_siteAt]

end

/-! ### FAULT_N (R490-R493) -/

section
variable {k : SiteId} {pin slot low : Word} {t : DWord} {s : State}

/-- The site after a reply that is waited for no longer, and the FAULT record. -/
def Machine.faultLogged (m : Machine) (k : Nat) (pin slot low : Word) (t : DWord) : Machine :=
  (m.modSite k fun r => { r with faultWait := false }).farLog t 0x04 k (leBytes 4 pin.toNat ++ leBytes 4 slot.toNat ++ leBytes 4 low.toNat)

theorem faultLogged_siteAt (m : Machine) (k : Nat) (pin slot low : Word) (t : DWord) :
    (m.faultLogged k pin slot low t).siteAt k = { m.siteAt k with faultWait := false } := by
  rw [Machine.faultLogged, farLog_siteAt, modSite_siteAt, if_pos rfl]

theorem faultReadReply_logged (hwait : (s.m.siteAt k).faultWait = true) (hown : s.m.ownSite k = false)
    (hstart : (s.m.siteAt k).startRead = false) : exec (.faultReadReply k pin slot low t) s = done s
      (if !(bitAt pin 2) then s.m.faultLogged k pin slot low t
       else if 492 ≤ bits slot 5 10 ∧ bits slot 5 10 ≤ 495 then (s.m.faultLogged k pin slot low t).takeOver k (offAct .lockout false 1 0) t
       else (s.m.faultLogged k pin slot low t).autoCycle k true 2 t) := by
  change execFaultReadReply k pin slot low t s = _
  have hgiven (x y : Word) : (if s.m.ownSite k = true then x else y) = y := if_neg (by simp [hown])
  unfold execFaultReadReply Machine.faultLogged
  dsimp only
  rw [hgiven, hgiven, if_neg (by simp [hwait]), if_neg (by simp [hstart])]

theorem faultReadReply_unasked (h : (s.m.siteAt k).faultWait = false) : Ignored (.faultReadReply k pin slot low t) s :=
  .of_done rfl (if_pos (by simp [h]))

end

/-! ### The facility's polls (R494, R495) -/

section
variable (old : List ShelfModule) (l : List (Option (BitVec 16))) (n i : Nat)

/-- The modules' readings after a poll of n modules. -/
def polled (old : List ShelfModule) (l : List (Option (BitVec 16))) (n : Nat) : List ShelfModule :=
  (List.range n).map fun i => (old.getD i { good := false, fails := 0 }).take (l.getD i none)

variable {i n} {r : Option (BitVec 16)}

theorem polled_get (hi : i < n) (hr : l[i]? = some r) : (polled old l n)[i]? = some ((old.getD i { good := false, fails := 0 }).take r) := by
  simp [polled, hi, hr]

end

/-- The messages that a sweep over sites sends. -/
theorem foldl_toSite_out (b : List Byte) (l : List Nat) (m : Machine) :
    (l.foldl (fun (m : Machine) k => m.toSite k b) m).out = m.out ++ l.map (fun k => .farnis k b) ∧
    (l.foldl (fun (m : Machine) k => m.toSite k b) m).far = m.far := by
  induction l generalizing m with
  | nil => simp
  | cons k l ih =>
    obtain ⟨hout, hfar⟩ := ih (m.toSite k b)
    exact ⟨hout.trans (by simp [Machine.toSite]), hfar⟩

/-- Settles O54: an edge, a reply or a reading is one change of a site's record or of Farnis's figures, with the log record and the messages it sends. -/
theorem farnisReadsFaultsAndReportsTheFacility : Obligations.FarnisReadsFaultsAndReportsTheFacility := by
  unfold Obligations.FarnisReadsFaultsAndReportsTheFacility
  refine ⟨?edge, ?reply, ?unasked, ?retry, ?hold, ?shelf, ?cdu, ?stopped, ?stale, ?report, ?crash, ?digests⟩
  case edge =>
    refine fun k s => ⟨fun hst hlow => .of_done (congrArg (done s) (if_pos ⟨hst, hlow⟩)) ⟨siteOnly_of_sites rfl, rfl, readFault_out _ k⟩,
      fun hlow => .of_done rfl (if_neg (by simp [hlow])), fun hon hn => ⟨.of_done rfl (if_neg (by simp [hon, hn])),
        .of_done rfl (if_neg (by simp [hon, hn]))⟩, fun hon hlow hc4 => .of_done (congrArg (done s) (if_pos ⟨.inl hon, hlow, ?_⟩)) rfl⟩
    rcases hc4 with h | h <;> simp [h]
  case reply =>
    intro k pin slot low t s hwait hown hstart
    have he := faultReadReply_logged (pin := pin) (slot := slot) (low := low) (t := t) hwait hown hstart
    have hsite := faultLogged_siteAt s.m k pin slot low t
    refine ⟨fun hpin => .of_done (he.trans (congrArg (done s) (if_pos (by simp [hpin])))) ⟨siteOnly_of_sites rfl, rfl, rfl, rfl⟩,
      fun hpin hlo hhi hon => ?_, fun hpin hslot hon hact => ?_⟩
    · have hstate : ((s.m.faultLogged k pin slot low t).siteAt k).state = .on := by rw [hsite]; exact hon
      refine .of_done (he.trans (congrArg (done s) ((if_neg (by simp [hpin])).trans (if_pos ⟨hlo, hhi⟩)))) ?_
      obtain ⟨hoff, -⟩ := beginOff_siteOnly (s.m.faultLogged k pin slot low t) k (offAct .lockout false 1 0)
      rw [takeOver_of_on hstate, orderOff_lit (by rw [hstate]; rfl) fun _ => rfl, hoff]
      exact ⟨rfl, rfl, rfl⟩
    · refine .of_done (he.trans (congrArg (done s) ((if_neg (by simp [hpin])).trans (if_neg (by omega))))) ?_
      rw [autoCycle_notice (by rw [hsite]; exact hon) (by rw [hsite]; exact hact), Machine.cycleAct, hsite]
      exact ⟨hon, rfl, rfl, rfl⟩
  case unasked => exact fun k pin slot low t s h => ⟨faultReadReply_unasked h, .of_done rfl (if_pos (.inl (by simp [h])))⟩
  case retry =>
    intro k t s hwait hlow
    have hasked : ¬((!(s.m.siteAt k).faultWait) = true ∨ (!s.m.mayBeLow k) = true) := by simp [hwait, hlow]
    refine ⟨fun hfew => .of_done (congrArg (done s) ((if_neg hasked).trans (if_neg (by omega)))) ⟨siteOnly_of_sites rfl, readFault_out _ k⟩,
      fun hmany hon hact => .of_done (congrArg (done s) ((if_neg hasked).trans (if_pos hmany))) ?_⟩
    have hsite : (s.m.modSite k fun r => { r with faultWait := false }).siteAt k = { s.m.siteAt k with faultWait := false } :=
      (modSite_siteAt s.m k _ k).trans (if_pos rfl)
    rw [autoCycle_force (by rw [hsite]; exact hon) (by rw [hsite]; exact hact)]
    exact ⟨rfl, rfl, rfl⟩
  case hold =>
    refine fun low s => ⟨fun hall => .of_done (congrArg (done s) (if_neg ?_)) rfl, fun ⟨k, hk, hon, hpin⟩ => .of_done rfl (if_pos ?_)⟩
    · rw [Bool.not_eq_true, List.any_eq_false]
      intro k hk
      by_cases hon : (s.m.siteAt k).state = .on
      · simp [hall k (List.mem_range.mp hk) hon]
      · simp [hon]
    · exact List.any_eq_true.mpr ⟨k, List.mem_range.mpr hk, by simp [hon, hpin]⟩
  case shelf =>
    intro l b c s hrun
    refine .of_done (congrArg (done s) (running_if hrun _ _).1) ?_
    have hmods {i : Nat} {r : Option (BitVec 16)} (hi : i < s.m.far.shelf.length) (hr : l[i]? = some r) :=
      polled_get s.m.far.modules l hi hr
    refine ⟨fun i hi w hw => hmods hi hw, fun i hi hnone => congrArg (Option.map _) (hmods hi hnone), ?_, ?_, ?_, ?_⟩
    · rintro w rfl; exact ⟨rfl, rfl⟩
    · rintro rfl; exact ⟨rfl, rfl⟩
    · rintro w rfl; exact ⟨rfl, rfl⟩
    · rintro rfl; exact ⟨rfl, rfl⟩
  case cdu =>
    exact fun x y s hrun => ⟨.of_done (congrArg (done s) (running_if hrun _ _).1) ⟨rfl, rfl, rfl, rfl⟩,
      .of_done (congrArg (done s) (running_if hrun _ _).1) ⟨rfl, rfl, rfl⟩⟩
  case stopped =>
    exact fun t l b c r s hrun => ⟨.of_done rfl (stopped_if hrun _ _).1, .of_done rfl (stopped_if hrun _ _).1,
      .of_done rfl (if_neg (by simp [hrun])), .of_done rfl (stopped_if hrun _ _).1⟩
  case stale =>
    exact fun t s hrun hcdu => .of_done (congrArg (done s) (if_pos (by simp [hrun, hcdu]))) ⟨rfl, _, List.append_assoc _ _ _⟩
  case report =>
    intro s hrun
    refine .of_done (congrArg (done s) (running_if hrun _ _).1) ?_
    obtain ⟨hout, hfar⟩ := foldl_toSite_out (mctpMsg 4 1 false true 0 (s.m.reportBody ((s.m.far.reportSeq + 1) % 65536)))
      ((List.range 16).filter fun k => (s.m.siteAt k).state == .on || (s.m.siteAt k).state == .notice)
      (s.m.modFar fun f => { f with reportSeq := (s.m.far.reportSeq + 1) % 65536 })
    exact ⟨congrArg Farnis.reportSeq hfar, hout⟩
  case crash =>
    refine fun k w t s => ⟨fun hst => .of_done (congrArg (done s) (if_pos hst)) ⟨rfl, rfl, List.append_assoc _ _ _⟩,
      fun hon hn => .of_done rfl (if_neg (by simp [hon, hn]))⟩
  case digests =>
    exact fun k d tag t s => ⟨fun hon => .of_done (congrArg (done s) (if_pos hon)) ⟨siteOnly_of_sites rfl, rfl⟩,
      fun hoff => .of_done rfl (if_neg hoff)⟩

end Sys2Proof.Machine

/-! ## Farnis: the tray's start and each site's power actions (17 R484-R489, R497, R499, R502; 00 R18) -/

namespace Sys2Proof.Machine

/-! ### A power-off begins -/

section
variable {m x : Machine} {k : Nat}

theorem beginOff_out (a : PowerAct) : (m.beginOff k a).out = m.out := by
  unfold Machine.beginOff
  dsimp only
  split <;> exact rfl

theorem beginOff_far (a : PowerAct) : (m.beginOff k a).far = { m.far with
    sites := tset .reset m.far.sites k { m.siteAt k with state := .poweringOff, group := 3, act := some a, faultWait := false, digests := [] }
    order := m.far.order.filter (· != k) } := by
  unfold Machine.beginOff
  dsimp only
  split <;> exact rfl

theorem beginOff_lost (hown : m.ownSite k = true) (hpg : m.sitePg = true) (a : PowerAct) : (m.beginOff k a).boot = .reset ∧
    (m.beginOff k a).hbm = .reset ∧ (m.beginOff k a).hly = .reset ∧ (m.beginOff k a).ctx = [] ∧ (m.beginOff k a).flash = m.flash := by
  unfold Machine.beginOff
  dsimp only
  rw [if_pos ⟨hown, hpg⟩]
  exact ⟨rfl, rfl, rfl, rfl, rfl⟩

/-- A power-off that begins after what changed neither the sites nor the package. -/
theorem beginOff_goingOff (hsites : x.far.sites = m.far.sites) (hpins : x.pins = m.pins) (hcard : x.card = m.card)
    (hflash : x.flash = m.flash) (a : PowerAct) : m.goingOff (x.beginOff k a) k a := by
  have hsite (j : Nat) : x.siteAt j = m.siteAt j := congrArg (tget SiteRec.reset · j) hsites
  refine ⟨siteOnly_of_sites ?_, ?_, fun hown hpg => ?_⟩
  · rw [beginOff_far, hsites, hsite]
  · rw [beginOff_far]
    simp
  · rw [← hflash]
    refine beginOff_lost ?_ ?_ a
    · rw [Machine.ownSite, hpins]
      exact hown
    · rw [Machine.sitePg, hpins, hcard, hsite]
      exact hpg

theorem goingOff_reply {a : PowerAct} (h : m.goingOff x k a) (ok : Bool) : m.goingOff (x.reply k ok) k a := h

end

/-! ### An action that takes over leaves the other sites -/

section
variable {m : Machine} {j k : Nat}

theorem modSite_other (f : SiteRec → SiteRec) (h : j ≠ k) : (m.modSite k f).siteAt j = m.siteAt j :=
  (modSite_siteAt m k f j).trans (if_neg h)

theorem beginOff_other (a : PowerAct) (h : j ≠ k) : (m.beginOff k a).siteAt j = m.siteAt j := (beginOff_siteOnly m k a).2 j h

theorem orderOff_other (a : PowerAct) (t : DWord) (h : j ≠ k) :
    (m.orderOff k a t).siteAt j = m.siteAt j ∧ (m.orderOff k a t).far.sagged = m.far.sagged := by
  unfold Machine.orderOff
  dsimp only
  split
  · exact ⟨modSite_other _ h, rfl⟩
  · split
    · exact ⟨beginOff_other a h, by rw [beginOff_far]⟩
    · split <;> exact ⟨(siteOnly_of_sites rfl).2 j h, rfl⟩

theorem takeOver_other (a : PowerAct) (t : DWord) (h : j ≠ k) :
    (m.takeOver k a t).siteAt j = m.siteAt j ∧ (m.takeOver k a t).far.sagged = m.far.sagged := by
  unfold Machine.takeOver
  dsimp only
  split
  · split
    · exact ⟨modSite_other _ h, rfl⟩
    · exact ⟨rfl, rfl⟩
  · split
    · exact ⟨modSite_other _ h, rfl⟩
    · exact ⟨beginOff_other _ h, by rw [beginOff_far]⟩
  · exact orderOff_other a t h

theorem beginOff_poweringOff (a : PowerAct) : ((m.beginOff k a).siteAt k).state = .poweringOff := by
  rw [(beginOff_siteOnly m k a).1]

/-- A power-off without notice of a site with rails begins at once. -/
theorem takeOver_lit (h : (m.siteAt k).state.lit = true) {a : PowerAct} (hn : a.notice = false) (t : DWord) :
    ((m.takeOver k a t).siteAt k).state = .poweringOff := by
  unfold Machine.takeOver
  dsimp only
  split
  next hoff _ =>
    rw [hoff] at h
    cases h
  next =>
    rw [if_neg (by simp [hn])]
    exact beginOff_poweringOff _
  next =>
    rw [orderOff_lit h fun _ => hn]
    exact beginOff_poweringOff _

/-- A sweep whose step at a site leaves every other changes each site by its own step. -/
theorem foldl_sites {g : Machine → Nat → Machine} (hg : ∀ a i j, j ≠ i → (g a i).siteAt j = a.siteAt j) {l : List Nat} (hl : l.Nodup)
    (m : Machine) (j : Nat) : (j ∉ l → (l.foldl g m).siteAt j = m.siteAt j) ∧
      (j ∈ l → ∃ a : Machine, a.siteAt j = m.siteAt j ∧ (l.foldl g m).siteAt j = (g a j).siteAt j) := by
  induction l generalizing m with
  | nil => simp
  | cons i l ih =>
    obtain ⟨hi, hl⟩ := List.nodup_cons.mp hl
    obtain ⟨hout, hin⟩ := ih hl (g m i)
    by_cases hj : j = i
    · subst hj
      exact ⟨fun h => absurd List.mem_cons_self h, fun _ => ⟨m, rfl, hout hi⟩⟩
    · rw [List.mem_cons]
      refine ⟨fun h => (hout fun hm => h (.inr hm)).trans (hg _ _ _ hj), fun h => ?_⟩
      obtain ⟨a, ha, heq⟩ := hin (h.resolve_left hj)
      exact ⟨a, ha.trans (hg _ _ _ hj), heq⟩

theorem foldl_takeOver_sagged (f : Nat → PowerAct) (t : DWord) (l : List Nat) (m : Machine) :
    (l.foldl (fun (m : Machine) k => m.takeOver k (f k) t) m).far.sagged = m.far.sagged := by
  induction l generalizing m with
  | nil => rfl
  | cons k l ih => exact (ih _).trans (takeOver_other (j := k + 1) (f k) t (by omega)).2

end

/-! ### Power-on and its queue (R484, R485) -/

section
variable {m : Machine} {k : Nat}

/-- The power-on that a queue orders. -/
def onAct (cause : Nat) : PowerAct := { goal := .on, notice := false, cause := 0, onCause := cause, given := false, seen := false }

variable (m)

theorem foldl_queued_siteAt (act : PowerAct) (l : List Nat) (k : Nat) :
    (l.foldl (fun (m : Machine) k => m.modSite k fun r => { r with act := some act }) m).siteAt k =
      if k ∈ l then { m.siteAt k with act := some act } else m.siteAt k := by
  induction l generalizing m with
  | nil => rfl
  | cons i l ih =>
    rw [List.foldl_cons, ih, modSite_siteAt]
    by_cases hk : k = i
    · simp [hk]
    · simp [hk]

theorem foldl_queued_far (act : PowerAct) (l : List Nat) :
    (l.foldl (fun (m : Machine) k => m.modSite k fun r => { r with act := some act }) m) = { m with far := { m.far with
      sites := (l.foldl (fun (m : Machine) k => m.modSite k fun r => { r with act := some act }) m).far.sites } } := by
  induction l generalizing m with
  | nil => rfl
  | cons i l ih => exact (ih _).trans rfl

theorem queueOn_siteAt (l : List Nat) (cause k : Nat) : (m.queueOn l cause).siteAt k =
    if k ∈ l then { m.siteAt k with act := some (onAct cause) } else m.siteAt k := foldl_queued_siteAt m (onAct cause) l k

theorem queueOn_eq (l : List Nat) (cause : Nat) : m.queueOn l cause = { m with far := { m.far with
    sites := (m.queueOn l cause).far.sites, order := m.far.order ++ l } } := by
  unfold Machine.queueOn
  dsimp only
  rw [foldl_queued_far m ⟨.on, false, 0, cause, false, false⟩ l]
  rfl

theorem queueOn_order (l : List Nat) (cause : Nat) : (m.queueOn l cause).far.order = m.far.order ++ l := by rw [queueOn_eq]

theorem queueOn_out (l : List Nat) (cause : Nat) : (m.queueOn l cause).out = m.out := by rw [queueOn_eq]

end

/-! ### The tray's start (R484; 00 R18) -/

section
variable (m : Machine)

/-- Farnis runs, with its endpoint ID, and has logged its start. -/
def Machine.trayStarted (m : Machine) (hostEid : BitVec 8) (t : DWord) : Machine :=
  (m.modFar fun f => { f with running := true, hostEid := some hostEid, mismatch := false }).farLog t 0x0C 0xFF [0]

/-- What a site's answer leaves of it. -/
def SiteRec.greeted (r : SiteRec) (k : Nat) : Option (Word × DWord) → SiteRec
  | some x => { r with eid := some (siteEid k), state := .standby, ident := some x, act := none }
  | none => { r with eid := some (siteEid k), state := .off, ident := none, act := none }

/-- A site that was asked for its identity answered, or not. -/
def Machine.identified (m : Machine) (k : Nat) (id : Option (Word × DWord)) : Machine :=
  match id with
  | some x => m.modSite k fun r => { r with state := .standby, ident := some x, act := none }
  | none => (m.modSite k fun r => { r with state := .off, ident := none, act := none }).emit (.alert k 0)

/-- One site gets its endpoint ID and is asked for its identity. -/
def Machine.greet (m : Machine) (e : Nat × Option (Word × DWord)) : Machine :=
  let m := (m.modSite e.1 fun r => { r with eid := some (siteEid e.1) }).toSite e.1 (mctpMsg 1 1 false false 0 [])
  m.identified e.1 (if m.ownSite e.1 then e.2.map fun _ => (m.bootId, m.fuse.uid) else e.2)

/-- The sites that have an identity, with it. -/
def Machine.identities (m : Machine) : List (Nat × Word) :=
  (List.range 16).filterMap fun k => ((m.siteAt k).ident).map fun x => (k, x.1)

/-- The tray is held where two identities disagree. -/
def Machine.holdTray (m : Machine) (ref : Word) (differ : List (Nat × Word)) (t : DWord) : Machine :=
  ((m.modFar fun f => { f with mismatch := true }).emit (.pldmEvent (differ.map (·.1)))).farLog t 0x07 0xFF
    (leBytes 4 ref.toNat ++ leBytes 2 (maskOf 16 (differ.map (·.1))).toNat ++ ((differ.take 9).flatMap fun e => leBytes 4 e.2.toNat))

/-- What the identities lead to. -/
def Machine.agree (m : Machine) (t : DWord) : Machine :=
  match refIdent m.identities with
  | none => m
  | some ref =>
    if (m.identities.filter fun e => e.2 != ref).isEmpty then (if m.setting 8 = 1 then m.queueOn (m.identities.map (·.1)) 7 else m)
    else m.holdTray ref (m.identities.filter fun e => e.2 != ref) t

theorem startTray_eq (ids : List (Nat × Option (Word × DWord))) (h : BitVec 8) (t : DWord) :
    m.startTray ids h t = (ids.foldl Machine.greet (m.trayStarted h t)).agree t := rfl

variable {m}

theorem identified_eq (k : Nat) (id : Option (Word × DWord)) : ∃ sites out, m.identified k id =
    { m with far := { m.far with sites := sites }, out := out } := by
  cases id <;> exact ⟨_, _, rfl⟩

theorem greet_eq (e : Nat × Option (Word × DWord)) : ∃ sites out, m.greet e =
    { m with far := { m.far with sites := sites }, out := out } := by
  obtain ⟨sites, out, h⟩ := identified_eq (m := (m.modSite e.1 fun r => { r with eid := some (siteEid e.1) }).toSite e.1
    (mctpMsg 1 1 false false 0 [])) e.1 (if ((m.modSite e.1 fun r => { r with eid := some (siteEid e.1) }).toSite e.1
    (mctpMsg 1 1 false false 0 [])).ownSite e.1 then e.2.map fun _ => (m.bootId, m.fuse.uid) else e.2)
  exact ⟨sites, out, h⟩

theorem greet_ownSite (e : Nat × Option (Word × DWord)) (k : Nat) : (m.greet e).ownSite k = m.ownSite k := by
  obtain ⟨sites, out, h⟩ := greet_eq (m := m) e
  rw [h]
  rfl

theorem greet_setting (e : Nat × Option (Word × DWord)) (n : Nat) : (m.greet e).setting n = m.setting n := by
  obtain ⟨sites, out, h⟩ := greet_eq (m := m) e
  rw [h]
  rfl

/-- Asking a site for its identity leaves Farnis's own figures. -/
theorem greet_far (e : Nat × Option (Word × DWord)) : (m.greet e).far = { m.far with sites := (m.greet e).far.sites } := by
  obtain ⟨sites, out, h⟩ := greet_eq (m := m) e
  rw [h]

theorem identified_siteAt (k : Nat) (id : Option (Word × DWord)) (j : Nat) :
    (((m.modSite k fun r => { r with eid := some (siteEid k) }).toSite k (mctpMsg 1 1 false false 0 [])).identified k id).siteAt j =
      if j = k then (m.siteAt j).greeted k id else m.siteAt j := by
  have hset (f : SiteRec → SiteRec) : (((m.modSite k fun r => { r with eid := some (siteEid k) }).toSite k
      (mctpMsg 1 1 false false 0 [])).modSite k f).siteAt j =
        if j = k then f { m.siteAt j with eid := some (siteEid k) } else m.siteAt j := by
    rw [modSite_siteAt, toSite_siteAt, toSite_siteAt, modSite_siteAt, modSite_siteAt]
    by_cases hj : j = k
    · simp [hj]
    · simp [hj]
  cases id with
  | some x => exact hset _
  | none => exact hset fun r => { r with state := .off, ident := none, act := none }

/-- A site that answers stands by with its identity. -/
theorem greet_answered {k : Nat} {x : Word × DWord} (hown : m.ownSite k = false) (j : Nat) : (m.greet (k, some x)).siteAt j =
    if j = k then (m.siteAt j).greeted k (some x) else m.siteAt j := by
  have hown' : ((m.modSite k fun r => { r with eid := some (siteEid k) }).toSite k (mctpMsg 1 1 false false 0 [])).ownSite k
      = false := hown
  unfold Machine.greet
  dsimp only
  rw [hown', if_neg Bool.false_ne_true, identified_siteAt]

/-- A site that does not answer is held OFF. -/
theorem greet_silent (k j : Nat) : (m.greet (k, none)).siteAt j =
    if j = k then (m.siteAt j).greeted k none else m.siteAt j := by
  unfold Machine.greet
  dsimp only
  rw [Option.map_none, ite_self, identified_siteAt]

/-! ### The identities and what they lead to -/

theorem filterMap_range_none {α : Type} {f : Nat → Option α} {n : Nat} (h : ∀ i < n, f i = none) : (List.range n).filterMap f = [] := by
  rw [List.filterMap_eq_nil_iff]
  exact fun i hi => h i (List.mem_range.mp hi)

/-- A list over a range with one answer. -/
theorem filterMap_range_one {α : Type} {f : Nat → Option α} {n k : Nat} {a : α} (hk : k < n) (ha : f k = some a)
    (h : ∀ i < n, i ≠ k → f i = none) : (List.range n).filterMap f = [a] := by
  induction n with
  | zero => omega
  | succ n ih =>
    rw [List.range_succ, List.filterMap_append]
    by_cases hn : n = k
    · subst hn
      rw [filterMap_range_none fun i hi => h i (by omega) (by omega)]
      simp [ha]
    · rw [ih (by omega) fun i hi => h i (by omega)]
      simp [h n (by omega) hn]

/-- A list over a range with two answers. -/
theorem filterMap_range_two {α : Type} {f : Nat → Option α} {n j k : Nat} {a b : α} (hjk : j < k) (hk : k < n) (ha : f j = some a)
    (hb : f k = some b) (h : ∀ i, i ≠ j → i ≠ k → f i = none) : (List.range n).filterMap f = [a, b] := by
  induction n with
  | zero => omega
  | succ n ih =>
    rw [List.range_succ, List.filterMap_append]
    by_cases hn : n = k
    · subst hn
      rw [filterMap_range_one hjk ha fun i hi hne => h i hne (by omega)]
      simp [hb]
    · rw [ih (by omega)]
      simp [h n (by omega) hn]

theorem refIdent_one (k : Nat) (w : Word) : refIdent [(k, w)] = some w := by simp [refIdent]

/-- Of two identities held once each the first is the reference. -/
theorem refIdent_two (j k : Nat) {v w : Word} (h : v ≠ w) : refIdent [(j, v), (k, w)] = some v := by
  simp [refIdent, h, h.symm]

variable (m) (t : DWord)

theorem agree_one {k : Nat} {w : Word} (h : m.identities = [(k, w)]) :
    m.agree t = if m.setting 8 = 1 then m.queueOn [k] 7 else m := by
  unfold Machine.agree
  rw [h, refIdent_one]
  simp

theorem agree_two {j k : Nat} {v w : Word} (h : m.identities = [(j, v), (k, w)]) (hne : v ≠ w) :
    m.agree t = m.holdTray v [(k, w)] t := by
  unfold Machine.agree
  rw [h, refIdent_two j k hne]
  simp [hne.symm]

theorem agree_one_far {k : Nat} {w : Word} (h : m.identities = [(k, w)]) : (m.agree t).far = { m.far with
    sites := (m.agree t).far.sites, order := if m.setting 8 = 1 then m.far.order ++ [k] else m.far.order } := by
  rw [agree_one m t h]
  split
  · rw [queueOn_eq]
  · rfl

/-- What the identities lead to leaves Farnis running, and of a site all but its action. -/
theorem agree_keeps : (m.agree t).far.running = m.far.running ∧
    ∀ k, ∃ act, (m.agree t).siteAt k = { m.siteAt k with act := act } := by
  unfold Machine.agree
  split
  · exact ⟨rfl, fun k => ⟨_, rfl⟩⟩
  · split
    · split
      · refine ⟨by rw [queueOn_eq], fun k => ?_⟩
        rw [queueOn_siteAt]
        split
        · exact ⟨_, rfl⟩
        · exact ⟨_, rfl⟩
      · exact ⟨rfl, fun k => ⟨_, rfl⟩⟩
    · exact ⟨rfl, fun k => ⟨_, rfl⟩⟩

end

/-! ### The commands -/

section
variable {k : SiteId} {s : State} {t : DWord}

theorem busbarRise_stopped (hrun : s.m.far.running = false) (l : List (SiteId × Option (Word × DWord))) (h : BitVec 8) :
    exec (.busbarRise l h t) s = done s (((l.map fun e => (e.1.val, e.2)).foldl Machine.greet (s.m.trayStarted h t)).agree t) :=
  congrArg (done s) ((if_neg (by simp [hrun])).trans (startTray_eq ..))

theorem trayStarted_siteAt (h : BitVec 8) (j : Nat) : (s.m.trayStarted h t).siteAt j = s.m.siteAt j := rfl

theorem siteAt_of_noSites (h : s.m.far.sites = []) (j : Nat) : s.m.siteAt j = SiteRec.reset := by rw [Machine.siteAt, h]; rfl

theorem greeted_some (r : SiteRec) (k : Nat) (x : Word × DWord) : r.greeted k (some x) =
    { r with eid := some (siteEid k), state := .standby, ident := some x, act := none } := rfl

/-- The one site that answers has the tray's one identity. -/
theorem identities_one {a : Machine} {k : SiteId} {x : Word × DWord} (hk : (a.siteAt k).ident = some x)
    (h : ∀ i, i ≠ k.val → (a.siteAt i).ident = none) : a.identities = [(k.val, x.1)] :=
  filterMap_range_one k.isLt (by rw [hk]; rfl) fun i _ hi => by rw [h i hi]; rfl

theorem identities_two {a : Machine} {j k : SiteId} {x y : Word × DWord} (hjk : j.val < k.val) (hj : (a.siteAt j).ident = some x)
    (hk : (a.siteAt k).ident = some y) (h : ∀ i, i ≠ j.val → i ≠ k.val → (a.siteAt i).ident = none) :
    a.identities = [(j.val, x.1), (k.val, y.1)] :=
  filterMap_range_two hjk k.isLt (by rw [hj]; rfl) (by rw [hk]; rfl) fun i hi hi' => by rw [h i hi hi']; rfl

/-- The tray's start with one site that answers. -/
theorem start_one (hown : s.m.ownSite k = false) (hsites : s.m.far.sites = []) (x : Word × DWord) (h : BitVec 8) :
    ((s.m.trayStarted h t).greet (k, some x)).siteAt k = SiteRec.reset.greeted k (some x) ∧
    ((s.m.trayStarted h t).greet (k, some x)).identities = [(k.val, x.1)] := by
  have hsite (j : Nat) := greet_answered (m := s.m.trayStarted h t) (k := k) (x := x) hown j
  simp only [trayStarted_siteAt, siteAt_of_noSites hsites] at hsite
  have hk := (hsite k).trans (if_pos rfl)
  exact ⟨hk, identities_one (by rw [hk]; rfl) fun i hi => by rw [hsite i, if_neg hi]; rfl⟩

/-- The tray's start with two sites that answer. -/
theorem start_two {j : SiteId} (hownj : s.m.ownSite j = false) (hownk : s.m.ownSite k = false) (hsites : s.m.far.sites = [])
    (hjk : j.val < k.val) (x y : Word × DWord) (h : BitVec 8) :
    (((s.m.trayStarted h t).greet (j, some x)).greet (k, some y)).siteAt j = SiteRec.reset.greeted j (some x) ∧
    (((s.m.trayStarted h t).greet (j, some x)).greet (k, some y)).siteAt k = SiteRec.reset.greeted k (some y) ∧
    (((s.m.trayStarted h t).greet (j, some x)).greet (k, some y)).identities = [(j.val, x.1), (k.val, y.1)] := by
  have hown : ((s.m.trayStarted h t).greet (j, some x)).ownSite k = false := (greet_ownSite _ _).trans hownk
  have hfirst (i : Nat) := greet_answered (m := s.m.trayStarted h t) (k := j) (x := x) hownj i
  have hsite (i : Nat) := greet_answered (x := y) hown i
  simp only [hfirst, trayStarted_siteAt, siteAt_of_noSites hsites] at hsite
  have hne : (j : Nat) ≠ k := by omega
  have hj := (hsite j).trans ((if_neg hne).trans (if_pos rfl))
  have hk := (hsite k).trans (if_pos rfl)
  rw [if_neg hne.symm] at hk
  refine ⟨hj, hk, identities_two hjk (by rw [hj]; rfl) (by rw [hk]; rfl) fun i hij hik => ?_⟩
  rw [hsite i, if_neg hik, if_neg hij]
  rfl

/-! #### The busbar's rise -/

theorem busbarRise_one (hrun : s.m.far.running = false) (hown : s.m.ownSite k = false) (hsites : s.m.far.sites = []) (x : Word × DWord)
    (h : BitVec 8) : Completes (.busbarRise [(k, some x)] h t) s fun m => m.far.running = true ∧ m.far.hostEid = some h ∧
      m.far.mismatch = false ∧ (m.siteAt k).eid = some (siteEid k) ∧ (m.siteAt k).state = .standby ∧ (m.siteAt k).ident = some x ∧
      (s.m.setting 8 = 1 → m.far.order = s.m.far.order ++ [k.val]) ∧ (s.m.setting 8 ≠ 1 → m.far.order = s.m.far.order) := by
  obtain ⟨hsite, hids⟩ := start_one (t := t) hown hsites x h
  have hset : ((s.m.trayStarted h t).greet (k, some x)).setting 8 = s.m.setting 8 := greet_setting _ _
  have hgreet := greet_far (m := s.m.trayStarted h t) (k.val, some x)
  have hfar := agree_one_far _ t hids
  obtain ⟨act, hact⟩ := (agree_keeps ((s.m.trayStarted h t).greet (k, some x)) t).2 k
  rw [hgreet, hset] at hfar
  rw [hsite, greeted_some] at hact
  refine .of_done (busbarRise_stopped hrun _ h) ?_
  simp only [List.map_cons, List.map_nil, List.foldl_cons, List.foldl_nil]
  rw [hfar, hact]
  exact ⟨rfl, rfl, rfl, rfl, rfl, rfl, fun h8 => if_pos h8, fun h8 => if_neg h8⟩

theorem holdTray_mismatch (m : Machine) (ref : Word) (l : List (Nat × Word)) : (m.holdTray ref l t).far.mismatch = true ∧
    (m.holdTray ref l t).far.order = m.far.order ∧ (∀ i, (m.holdTray ref l t).siteAt i = m.siteAt i) ∧
    Out.pldmEvent (l.map (·.1)) ∈ (m.holdTray ref l t).out := by
  refine ⟨rfl, rfl, fun i => farLog_siteAt .., ?_⟩
  rw [Machine.holdTray, farLog_out, emit_out]
  simp

theorem busbarRise_two {j : SiteId} (hrun : s.m.far.running = false) (hownj : s.m.ownSite j = false) (hownk : s.m.ownSite k = false)
    (hsites : s.m.far.sites = []) (hjk : j.val < k.val) {x y : Word × DWord} (hne : x.1 ≠ y.1) (h : BitVec 8) :
    Completes (.busbarRise [(j, some x), (k, some y)] h t) s fun m => m.far.mismatch = true ∧ m.far.order = s.m.far.order ∧
      Out.pldmEvent [k.val] ∈ m.out ∧ ∀ i ∈ [j, k], (m.siteAt i).state = .standby ∧ (m.siteAt i).act = none := by
  obtain ⟨hj, hk, hids⟩ := start_two (t := t) hownj hownk hsites hjk x y h
  have horder : (((s.m.trayStarted h t).greet (j, some x)).greet (k, some y)).far.order = s.m.far.order := by
    rw [greet_far, greet_far]
    rfl
  obtain ⟨hmis, hord, hsame, hout⟩ := holdTray_mismatch (t := t) (((s.m.trayStarted h t).greet (j, some x)).greet (k, some y)) x.1
    [(k.val, y.1)]
  refine .of_done (busbarRise_stopped hrun _ h) ?_
  simp only [List.map_cons, List.map_nil, List.foldl_cons, List.foldl_nil]
  rw [agree_two _ t hids hne]
  refine ⟨hmis, hord.trans horder, hout, fun i hi => ?_⟩
  simp only [List.mem_cons, List.not_mem_nil, or_false] at hi
  rw [hsame]
  rcases hi with rfl | rfl
  · rw [hj]; exact ⟨rfl, rfl⟩
  · rw [hk]; exact ⟨rfl, rfl⟩

theorem busbarRise_silent (hrun : s.m.far.running = false) (h : BitVec 8) : Completes (.busbarRise [(k, none)] h t) s fun m =>
    m.far.running = true ∧ (m.siteAt k).state = .off ∧ (m.siteAt k).ident = none ∧ (m.siteAt k).eid = some (siteEid k) := by
  have hsite := (greet_silent (m := s.m.trayStarted h t) k k).trans (if_pos rfl)
  have hgreet := greet_far (m := s.m.trayStarted h t) (k.val, none)
  obtain ⟨hrunning, hkeeps⟩ := agree_keeps ((s.m.trayStarted h t).greet (k, none)) t
  obtain ⟨act, hact⟩ := hkeeps k
  rw [hgreet] at hrunning
  rw [hsite] at hact
  refine .of_done (busbarRise_stopped hrun _ h) ?_
  simp only [List.map_cons, List.map_nil, List.foldl_cons, List.foldl_nil]
  rw [hrunning, hact]
  exact ⟨rfl, rfl, rfl, rfl⟩

/-! #### Power-on and its rails -/

theorem sitePowerOn_begins {a : PowerAct} (horder : s.m.far.order.head? = some k.val) (hact : (s.m.siteAt k).act = some a)
    (hgoal : a.goal = .on) (hst : (s.m.siteAt k).state = .standby ∨ (s.m.siteAt k).state = .lockout) : exec (.sitePowerOn k t) s =
      done s ((s.m.beginOn k a.onCause).modFar fun f => { f with order := f.order.drop 1 }) := by
  change execSitePowerOn k t s = _
  unfold execSitePowerOn
  dsimp only
  rw [horder, hact]
  exact congrArg (done s) (if_pos ⟨rfl, hgoal, hst⟩)

theorem railGood_next (hon : (s.m.siteAt k).state = .poweringOn) (hg : (s.m.siteAt k).group < 4) :
    Completes (.railGood k t) s fun m => s.m.siteOnly m k { s.m.siteAt k with group := (s.m.siteAt k).group + 1 } :=
  .of_done (congrArg (done s) ((if_neg (by simp [hon])).trans (if_pos hg))) (siteOnly_of_sites rfl)

theorem railGood_last (hon : (s.m.siteAt k).state = .poweringOn) (hg : 4 ≤ (s.m.siteAt k).group) :
    Completes (.railGood k t) s fun m =>
      s.m.siteOnly m k { s.m.siteAt k with state := .on, group := 0, act := none, retried := false } ∧
      s.m.farLogged m t 1 k (leBytes 1 (((s.m.siteAt k).act.map (·.onCause)).getD 0)) [] :=
  .of_done (congrArg (done s) ((if_neg (by simp [hon])).trans (if_neg (by omega)))) ⟨siteOnly_of_sites rfl, rfl, rfl, rfl⟩

theorem railFail_goingOff (hon : (s.m.siteAt k).state = .poweringOn) : Completes (.railFail k t) s fun m =>
    s.m.goingOff m k (offAct (if (s.m.siteAt k).retried then .lockout else .retry) false 5 (((s.m.siteAt k).act.map (·.onCause)).getD 0)) ∧
    m.far.seq = (s.m.far.seq + 1) % 4294967296 := by
  refine .of_done (congrArg (done s) (if_neg (by simp [hon]))) ⟨beginOff_goingOff rfl rfl rfl rfl _, ?_⟩
  rw [beginOff_far]
  rfl

/-! #### Power-off -/

theorem powerOffNotice_sent {a : PowerAct} (hact : (s.m.siteAt k).act = some a) (hon : (s.m.siteAt k).state = .on) (hn : a.notice = true) :
    exec (.powerOffNotice k) s = done s ((s.m.toSite k (mctpMsg 4 2 false false 0 (leBytes 1 a.cause))).modSite k fun r =>
      { r with state := .notice, act := some { a with given := true }, digests := [] }) := by
  change execPowerOffNotice k s = _
  unfold execPowerOffNotice
  dsimp only
  rw [hact]
  exact congrArg (done s) (if_pos ⟨hon, hn⟩)

theorem powerOffNotice_ignored {a : PowerAct} (hact : (s.m.siteAt k).act = some a)
    (h : (s.m.siteAt k).state ≠ .on ∨ a.notice = false) : Ignored (.powerOffNotice k) s := by
  refine .of_done rfl ?_
  rw [hact]
  refine if_neg ?_
  rintro ⟨hon, hn⟩
  rcases h with h | h
  · exact h hon
  · simp [h] at hn

theorem ready_begins {a : PowerAct} (hact : (s.m.siteAt k).act = some a) (hst : (s.m.siteAt k).state = .notice)
    (h : s.m.ownSite k = false ∨ s.m.reef.readySent = true) :
    exec (.ready k) s = done s ((s.m.toSite k (mctpMsg 4 4 true false 0 [])).beginOff k { a with seen := true }) := by
  change execReady k s = _
  unfold execReady
  dsimp only
  rw [hact]
  exact congrArg (done s) (if_pos ⟨hst, h.imp_left fun h => by simp [h]⟩)

theorem ready_ignored (h : (s.m.siteAt k).state ≠ .notice) : Ignored (.ready k) s ∧ Ignored (.noticeLimitExpiry k) s := by
  constructor <;> refine .of_done rfl ?_ <;> split
  · exact if_neg fun hn => h hn.1
  · rfl
  · exact if_neg h
  · rfl

theorem noticeLimitExpiry_begins {a : PowerAct} (hact : (s.m.siteAt k).act = some a) (hst : (s.m.siteAt k).state = .notice) :
    exec (.noticeLimitExpiry k) s = done s (s.m.beginOff k a) := by
  change execNoticeLimitExpiry k s = _
  unfold execNoticeLimitExpiry
  dsimp only
  rw [hact]
  exact congrArg (done s) (if_pos hst)

/-- A power-off that ends leaves the site where its action leads (R487, R488). -/
theorem endOff_siteOnly {m : Machine} {k : Nat} {a : PowerAct} (hact : (m.siteAt k).act = some a)
    (hst : (m.siteAt k).state = .poweringOff) (t : DWord) : m.siteOnly (m.endOff k t) k { m.siteAt k with
      group := 0, state := if a.goal = .lockout then .lockout else .standby
      act := if a.goal = .cycle ∨ a.goal = .retry then some a else none } := by
  unfold Machine.endOff
  rw [hact]
  refine ⟨?_, fun j hj => ?_⟩
  · generalize hr : m.siteAt k = r at hact hst ⊢
    obtain ⟨eid, state, ident, group, act, retried, cycles, faultWait, startRead, rereads, digests⟩ := r
    subst hact
    cases hgoal : a.goal <;> simp [hr, hgoal]
  · cases hgoal : a.goal <;> simp [hj, hgoal]

theorem offTimeExpiry_on {a : PowerAct} (hst : (s.m.siteAt k).state = .standby) (hact : (s.m.siteAt k).act = some a)
    (hgoal : a.goal = .cycle ∨ a.goal = .retry) : Completes (.offTimeExpiry k) s fun m => s.m.siteOnly m k { s.m.siteAt k with
      state := .poweringOn, group := 1, retried := (s.m.siteAt k).retried || a.goal == .retry, act := some (onAct a.onCause) } := by
  have he : exec (.offTimeExpiry k) s = done s (if a.goal = .cycle then s.m.beginOn k a.onCause
      else (s.m.beginOn k a.onCause).modSite k fun r => { r with retried := true }) := by
    change execOffTimeExpiry k s = _
    unfold execOffTimeExpiry
    dsimp only
    rw [hact]
    rcases hgoal with h | h <;> simp [h, hst]
  refine .of_done he ?_
  rcases hgoal with h | h
  · rw [if_pos h, h]
    refine siteOnly_of_sites ?_
    simp only [show (PowerGoal.cycle == PowerGoal.retry) = false from rfl, Bool.or_false]
    rfl
  · rw [if_neg (by simp [h]), h]
    refine ⟨?_, fun j hj => ?_⟩
    · rw [modSite_siteAt, if_pos rfl, Machine.beginOn, modSite_siteAt, if_pos rfl]
      simp [onAct]
    · rw [modSite_other _ hj, Machine.beginOn, modSite_other _ hj]

theorem offTimeExpiry_ignored {a : PowerAct} (hact : (s.m.siteAt k).act = some a) (hc : a.goal ≠ .cycle) (hr : a.goal ≠ .retry) :
    Ignored (.offTimeExpiry k) s := by
  refine .of_done rfl ?_
  rw [hact]
  exact (if_neg fun h => hc h.2).trans (if_neg fun h => hr h.2)

/-! #### Operator actions (R489, R499, R502) -/

theorem resetOn_held (h : s.m.far.mismatch = true) : exec (.resetOn k t) s = done s (s.m.reply k false) := congrArg (done s) (if_pos h)

theorem resetOn_busy {a : PowerAct} (hmis : s.m.far.mismatch = false) (hact : (s.m.siteAt k).act = some a) :
    exec (.resetOn k t) s = done s (s.m.reply k (a.goal == .on || a.goal == .cycle || a.goal == .retry)) := by
  change execResetOn k t s = _
  unfold execResetOn
  dsimp only
  rw [if_neg (by simp [hmis]), hact]
  cases h : a.goal <;> simp [h] <;> rfl

section
variable (hact : (s.m.siteAt k).act = none)
include hact

theorem resetOn_idle (hmis : s.m.far.mismatch = false) : exec (.resetOn k t) s = done s (match (s.m.siteAt k).state with
      | .on => s.m.reply k true
      | .standby => (s.m.queueOn [k.val] 0).reply k true
      | .lockout => ((s.m.modSite k fun r => { r with cycles := [], retried := false }).queueOn [k.val] 0).reply k true
      | _ => s.m.reply k false) := by
  change execResetOn k t s = _
  unfold execResetOn
  dsimp only
  rw [if_neg (by simp [hmis]), hact] <;> rfl

theorem resetOn_queues (hmis : s.m.far.mismatch = false) (hst : (s.m.siteAt k).state = .standby ∨ (s.m.siteAt k).state = .lockout) :
    Completes (.resetOn k t) s fun m => m.far.order = s.m.far.order ++ [k.val] ∧ (m.siteAt k).act = some (onAct 0) ∧
      m.out = s.m.out ++ [Out.answer k true] ∧ ((s.m.siteAt k).state = .lockout → (m.siteAt k).cycles = []) := by
  have he := resetOn_idle (t := t) hact hmis
  have hqueued (m : Machine) : (m.queueOn [k.val] 0).siteAt k = { m.siteAt k with act := some (onAct 0) } :=
    (queueOn_siteAt m _ _ _).trans (if_pos List.mem_cons_self)
  have hout (m : Machine) : ((m.queueOn [k.val] 0).reply k true).out = m.out ++ [Out.answer k true] :=
    congrArg (· ++ _) (queueOn_out m _ _)
  rcases hst with hst | hst <;> rw [hst] at he
  · exact .of_done he ⟨queueOn_order .., congrArg SiteRec.act (hqueued _), hout _, fun h => by simp [hst] at h⟩
  · refine .of_done he ⟨queueOn_order .., congrArg SiteRec.act (hqueued _), hout _, fun _ => ?_⟩
    refine (congrArg SiteRec.cycles (hqueued _)).trans ?_
    rw [modSite_siteAt, if_pos rfl]

theorem requestOff_on (hon : (s.m.siteAt k).state = .on) (notice : Bool) :
    s.m.requestOff k notice = (s.m.orderOff k (offAct .standby notice 0 0) 0).reply k true := by
  unfold Machine.requestOff
  rw [hact]
  exact if_neg (by simp [hon])

theorem requestCycle_on (hmis : s.m.far.mismatch = false) (hon : (s.m.siteAt k).state = .on) (notice : Bool) :
    s.m.requestCycle k notice = (s.m.orderOff k (offAct .cycle notice 0 0) 0).reply k true := by
  unfold Machine.requestCycle
  dsimp only
  rw [hact]
  dsimp only
  rw [if_neg (by simp [hon, hmis]), if_neg (by simp [hon])]

theorem requestCycle_held (hmis : s.m.far.mismatch = true) (notice : Bool) : s.m.requestCycle k notice = s.m.reply k false := by
  unfold Machine.requestCycle
  dsimp only
  rw [hact]
  exact if_pos (.inr (.inr hmis))

end

theorem requestOff_busy {a : PowerAct} (hact : (s.m.siteAt k).act = some a) (notice : Bool) :
    s.m.requestOff k notice = s.m.reply k (a.goal == .standby) := by
  unfold Machine.requestOff
  rw [hact]

theorem requestCycle_busy {a : PowerAct} (hact : (s.m.siteAt k).act = some a) (notice : Bool) :
    s.m.requestCycle k notice = s.m.reply k (a.goal == .cycle) := by
  unfold Machine.requestCycle
  dsimp only
  rw [hact]

/-- The orders that an operator's action gives to a site that is ON. -/
theorem orderOff_on (hon : (s.m.siteAt k).state = .on) (goal : PowerGoal) :
    (s.m.goingOff ((s.m.orderOff k (offAct goal false 0 0) 0).reply k true) k (offAct goal false 0 0) ∧
      ((s.m.orderOff k (offAct goal false 0 0) 0).reply k true).out = s.m.out ++ [Out.answer k true]) ∧
    (s.m.siteOnly ((s.m.orderOff k (offAct goal true 0 0) 0).reply k true) k { s.m.siteAt k with act := some (offAct goal true 0 0) } ∧
      ((s.m.orderOff k (offAct goal true 0 0) 0).reply k true).out = s.m.out ++ [Out.answer k true]) := by
  rw [orderOff_lit (by rw [hon]; rfl) fun _ => rfl, orderOff_notice hon rfl]
  exact ⟨⟨goingOff_reply (beginOff_goingOff rfl rfl rfl rfl _) true, congrArg (· ++ _) (beginOff_out _)⟩, siteOnly_of_sites rfl, rfl⟩

theorem resetForceOff_on (hact : (s.m.siteAt k).act = none) (hon : (s.m.siteAt k).state = .on) :
    (Completes (.resetForceOff k) s fun m => s.m.goingOff m k (offAct .standby false 0 0) ∧ m.out = s.m.out ++ [Out.answer k true]) ∧
    (Completes (.resetGracefulShutdown k) s fun m => s.m.siteOnly m k { s.m.siteAt k with act := some (offAct .standby true 0 0) } ∧
      m.out = s.m.out ++ [Out.answer k true]) :=
  ⟨.of_done (congrArg (done s) (requestOff_on hact hon false)) (orderOff_on hon .standby).1,
    .of_done (congrArg (done s) (requestOff_on hact hon true)) (orderOff_on hon .standby).2⟩

theorem resetPowerCycle_on (hmis : s.m.far.mismatch = false) (hact : (s.m.siteAt k).act = none) (hon : (s.m.siteAt k).state = .on) :
    (Completes (.resetForceRestart k) s fun m => s.m.goingOff m k (offAct .cycle false 0 0) ∧ m.out = s.m.out ++ [Out.answer k true]) ∧
    (Completes (.resetPowerCycle k) s fun m => s.m.siteOnly m k { s.m.siteAt k with act := some (offAct .cycle true 0 0) } ∧
      m.out = s.m.out ++ [Out.answer k true]) :=
  ⟨.of_done (congrArg (done s) (requestCycle_on hact hmis hon false)) (orderOff_on hon .cycle).1,
    .of_done (congrArg (done s) (requestCycle_on hact hmis hon true)) (orderOff_on hon .cycle).2⟩

theorem scanExit_off (hst : (s.m.siteAt k).state = .scan) : Completes (.scanExit k) s fun m =>
    s.m.goingOff m k (offAct .standby false 0 0) ∧ m.out = s.m.out ++ [Out.answer k true] :=
  .of_done (congrArg (done s) (if_pos hst)) ⟨goingOff_reply (beginOff_goingOff rfl rfl rfl rfl _) true, congrArg (· ++ _) (beginOff_out _)⟩

/-! #### The busbar and the coolant (R497) -/

/-- The sites that a sag powers off: those with rails, and those in standby with an action. -/
def Machine.sagged (m : Machine) : List Nat :=
  (List.range 16).filter fun k => (m.siteAt k).state.lit || ((m.siteAt k).state == SiteState.standby && (m.siteAt k).act.isSome)

theorem busbarSag_sweeps (hrun : s.m.far.running = true) : exec (.busbarSag t) s = done s
    (s.m.sagged.foldl (fun (m : Machine) k => m.takeOver k (offAct .standby false 6 0) t)
      ((s.m.facilityLog t 2).modFar fun f => { f with sagged := s.m.sagged })) :=
  congrArg (done s) (running_if hrun _ _).1

theorem facilityLog_siteAt (m : Machine) (t : DWord) (row k : Nat) : (m.facilityLog t row).siteAt k = m.siteAt k := farLog_siteAt ..

theorem busbarSag_sites (hrun : s.m.far.running = true) : Completes (.busbarSag t) s fun m =>
    (∀ k < 16, (s.m.siteAt k).state.lit = true → (m.siteAt k).state = .poweringOff ∧ k ∈ m.far.sagged) ∧
    (∀ k < 16, (s.m.siteAt k).state.lit = false → (s.m.siteAt k).act = none → m.siteAt k = s.m.siteAt k ∧ k ∉ m.far.sagged) := by
  have hsweep (k : Nat) := foldl_sites (g := fun (m : Machine) k => m.takeOver k (offAct .standby false 6 0) t)
    (fun a i j h => (takeOver_other _ t h).1) (l := s.m.sagged) (List.nodup_range.filter _)
    ((s.m.facilityLog t 2).modFar fun f => { f with sagged := s.m.sagged }) k
  have hsite (k : Nat) : ((s.m.facilityLog t 2).modFar fun f => { f with sagged := s.m.sagged }).siteAt k = s.m.siteAt k :=
    facilityLog_siteAt s.m t 2 k
  have hsagged := foldl_takeOver_sagged (fun _ => offAct .standby false 6 0) t s.m.sagged
    ((s.m.facilityLog t 2).modFar fun f => { f with sagged := s.m.sagged })
  refine .of_done (busbarSag_sweeps hrun) ⟨fun k hk hlit => ?_, fun k hk hlit hact => ?_⟩
  · have hmem : k ∈ s.m.sagged := List.mem_filter.mpr ⟨List.mem_range.mpr hk, by simp [hlit]⟩
    obtain ⟨a, ha, heq⟩ := (hsweep k).2 hmem
    rw [heq, hsagged]
    exact ⟨takeOver_lit (by rw [ha, hsite]; exact hlit) rfl t, hmem⟩
  · have hmem : k ∉ s.m.sagged := by simp [Machine.sagged, hlit, hact]
    rw [(hsweep k).1 hmem, hsite, hsagged]
    exact ⟨rfl, hmem⟩

theorem busbarReturn_queues (hne : s.m.far.sagged ≠ []) (h8 : s.m.setting 8 = 1) (hmis : s.m.far.mismatch = false) :
    exec (.busbarReturn t) s = done s (((s.m.facilityLog t 3).modFar fun f => { f with sagged := [] }).queueOn
      (s.m.far.sagged.filter fun k => (s.m.siteAt k).state == SiteState.standby && (s.m.siteAt k).act.isNone) 7) :=
  congrArg (done s) (if_neg (by simp [hne, h8, hmis]))

/-- One site under too hot or too slow a coolant. -/
def Machine.coolantOff (t : DWord) (m : Machine) (k : Nat) : Machine :=
  let st := (m.siteAt k).state
  if st = .on ∨ st = .notice then m.takeOver k (offAct .lockout true 4 0) t
  else if st = .poweringOn then m.takeOver k (offAct .lockout false 4 0) t
  else m

theorem coolantOff_other {m : Machine} {j k : Nat} (h : j ≠ k) : (m.coolantOff t k).siteAt j = m.siteAt j := by
  unfold Machine.coolantOff
  dsimp only
  split
  · exact (takeOver_other _ t h).1
  · split
    · exact (takeOver_other _ t h).1
    · rfl

theorem coolantLimit_sites (hcdu : s.m.cduOk = true) (hlim : 500 < s.m.far.cduTemp ∨ s.m.far.cduFlow < 300) :
    Completes (.coolantLimit t) s fun m =>
      (∀ k < 16, (s.m.siteAt k).state = .on → (s.m.siteAt k).act = none →
        m.siteAt k = { s.m.siteAt k with act := some (offAct .lockout true 4 0) }) ∧
      (∀ k < 16, (s.m.siteAt k).state = .poweringOn → (m.siteAt k).state = .poweringOff) := by
  have he : exec (.coolantLimit t) s = done s ((List.range 16).foldl (Machine.coolantOff t) (s.m.facilityLog t 1)) :=
    congrArg (done s) (if_pos ⟨hcdu, hlim⟩)
  have hsweep (k : Nat) (hk : k < 16) := (foldl_sites (g := Machine.coolantOff t) (fun _ _ _ => coolantOff_other)
    (List.nodup_range (n := 16)) (s.m.facilityLog t 1) k).2 (List.mem_range.mpr hk)
  refine .of_done he ⟨fun k hk hon hact => ?_, fun k hk hst => ?_⟩
  · obtain ⟨a, ha, heq⟩ := hsweep k hk
    rw [facilityLog_siteAt] at ha
    have hon' : (a.siteAt k).state = .on := by rw [ha]; exact hon
    rw [heq, Machine.coolantOff, if_pos (.inl hon'), takeOver_of_on hon', orderOff_notice hon' rfl, modSite_siteAt, if_pos rfl, ha]
  · obtain ⟨a, ha, heq⟩ := hsweep k hk
    rw [facilityLog_siteAt] at ha
    have hst' : (a.siteAt k).state = .poweringOn := by rw [ha]; exact hst
    rw [heq, Machine.coolantOff, if_neg (by simp [hst']), if_pos hst']
    exact takeOver_lit (by rw [hst']; rfl) rfl t

end

/-- Settles O53: each command changes one site's record as its row says, and the sweeps over the sites change each by itself. -/
theorem sitesArePoweredOnAndOff : Obligations.SitesArePoweredOnAndOff := by
  unfold Obligations.SitesArePoweredOnAndOff
  refine ⟨?oneSite, ?twoSites, ?silentSite, ?running, ?powerOn, ?rails, ?railsIgnored, ?notice, ?groupFall, ?groupFallIgnored, ?offTime,
    ?idleReset, ?heldTray, ?busyReset, ?scan, ?sag, ?busbarReturn, ?coolant⟩
  case oneSite => exact fun k x h t s hrun hown hsites => busbarRise_one hrun hown hsites x h
  case twoSites => exact fun j k x y h t s hrun hownj hownk hsites hjk hne => busbarRise_two hrun hownj hownk hsites hjk hne h
  case silentSite => exact fun k h t s hrun => busbarRise_silent hrun h
  case running => exact fun l h t s hrun => .of_done rfl (if_pos hrun)
  case powerOn =>
    exact fun k a t s horder hact hgoal hst => .of_done (sitePowerOn_begins horder hact hgoal hst) ⟨siteOnly_of_sites rfl, rfl⟩
  case rails => exact fun k t s hon => ⟨railGood_next hon, railGood_last hon, railFail_goingOff hon⟩
  case railsIgnored => exact fun k t s hoff => ⟨.of_done rfl (if_pos hoff), .of_done rfl (if_pos hoff)⟩
  case notice =>
    exact fun k a s hact => ⟨fun hon hn => .of_done (powerOffNotice_sent hact hon hn) ⟨siteOnly_of_sites rfl, rfl⟩,
      fun hst h => .of_done (ready_begins hact hst h) ⟨beginOff_goingOff rfl rfl rfl rfl _, beginOff_out _⟩,
      fun hst => .of_done (noticeLimitExpiry_begins hact hst) ⟨beginOff_goingOff rfl rfl rfl rfl _, beginOff_out _⟩,
      powerOffNotice_ignored hact, ready_ignored⟩
  case groupFall =>
    exact fun k a t s hst hact => ⟨fun hg => .of_done (congrArg (done s) ((if_neg (by simp [hst])).trans (if_pos hg))) (siteOnly_of_sites rfl),
      fun hg => .of_done (congrArg (done s) ((if_neg (by simp [hst])).trans (if_neg (by omega)))) (endOff_siteOnly hact hst t)⟩
  case groupFallIgnored => exact fun k t s hst => .of_done rfl (if_pos hst)
  case offTime => exact fun k a s hst hact => ⟨offTimeExpiry_on hst hact, offTimeExpiry_ignored hact⟩
  case idleReset =>
    refine fun k t s hmis hact => ⟨fun hon => .of_done ((resetOn_idle hact hmis).trans (by rw [hon]; rfl)) rfl, resetOn_queues hact hmis,
      fun hon => ?_⟩
    obtain ⟨hforce, hgrace⟩ := resetForceOff_on hact hon
    obtain ⟨hrestart, hcycle⟩ := resetPowerCycle_on hmis hact hon
    exact ⟨hforce, hrestart, hgrace, hcycle⟩
  case heldTray =>
    refine fun k t s hmis => ⟨.of_done (resetOn_held hmis) rfl, fun hact i hi => ?_, .of_done rfl (if_pos (.inr (.inr hmis)))⟩
    simp only [List.mem_cons, List.not_mem_nil, or_false] at hi
    rcases hi with rfl | rfl | rfl
    · exact .of_done (congrArg (done s) (requestCycle_held hact hmis true)) rfl
    · exact .of_done (congrArg (done s) (requestCycle_held hact hmis false)) rfl
    · exact .of_done (congrArg (done s) (if_neg (by simp [hmis]))) rfl
  case busyReset =>
    refine fun k a t s hact => ⟨fun hmis => .of_done (resetOn_busy hmis hact) rfl, fun i hi => ?_, fun i hi => ?_⟩
    all_goals simp only [List.mem_cons, List.not_mem_nil, or_false] at hi
    · rcases hi with rfl | rfl <;> exact .of_done (congrArg (done s) (requestOff_busy hact _)) rfl
    · rcases hi with rfl | rfl <;> exact .of_done (congrArg (done s) (requestCycle_busy hact _)) rfl
  case scan =>
    exact fun k s => ⟨fun hst hact hmis => .of_done (congrArg (done s) (if_pos ⟨hst, by simp [hact], by simp [hmis]⟩)) ⟨siteOnly_of_sites rfl, rfl⟩,
      fun hst => .of_done (congrArg (done s) (if_neg fun h => hst h.1)) rfl, scanExit_off,
      fun hst => .of_done (congrArg (done s) (if_neg hst)) rfl⟩
  case sag => exact fun t s hrun => busbarSag_sites hrun
  case busbarReturn =>
    refine fun t s => ⟨fun hne h8 hmis => .of_done (busbarReturn_queues hne h8 hmis) ⟨by rw [queueOn_eq]; rfl, queueOn_order ..⟩,
      fun h => .of_done rfl (if_pos ?_), fun hrun => .of_done rfl (stopped_if hrun _ _).1⟩
    exact h.elim (fun h => .inl (by simp [h])) fun h => .inr (.inl h)
  case coolant =>
    refine fun t s => ⟨coolantLimit_sites, fun h => .of_done rfl (if_neg ?_)⟩
    rintro ⟨hcdu, hlim⟩
    rcases h with h | ⟨htemp, hflow⟩
    · simp [h] at hcdu
    · omega

end Sys2Proof.Machine

/-! ## Ramp windows, tray reports and the power-off notice (13 R375-R380, R388-R394; 20 R548, R550) -/

namespace Sys2Proof.Machine

/-! ### A partition's record under Reef, and what reads the table as a whole -/

section
variable (m : Machine) (i : Nat) (f : ReefPart → ReefPart)

@[simp] theorem modRpart_rpart (j : Nat) : (m.modRpart i f).rpart j = if j = i then f (m.rpart i) else m.rpart j := tget_tset _ _ _ _ _

theorem modRpart_rpart_same : (m.modRpart i f).rpart i = f (m.rpart i) := (modRpart_rpart m i f i).trans (if_pos rfl)

/-- The table of a canonical form lists what its keys read. -/
theorem mem_parts_rpart {m : Machine} (hwf : twf ReefPart.reset m.reef.parts = true) {e : Nat × ReefPart} (he : e ∈ m.reef.parts) :
    m.rpart e.1 = e.2 := tget_of_mem ((twf_iff _ _).mp hwf).1 he

/-- What a write leaves in a table is what was there, or the entry written. -/
theorem mem_of_mem_tset {α : Type} [DecidableEq α] {d v : α} {t : Table α} {k : Nat} {e : Nat × α} (h : e ∈ tset d t k v) :
    e ∈ t ∨ e = (k, v) := by
  unfold tset at h
  split at h
  · exact .inl (mem_tdel.mp h).1
  · rcases mem_tput.mp h with h | h
    · exact .inr h
    · exact .inl (mem_tdel.mp h).1

theorem foldl_max_le_iff (l : List Nat) (a b : Nat) : l.foldl max a ≤ b ↔ a ≤ b ∧ ∀ x ∈ l, x ≤ b := by
  induction l generalizing a with
  | nil => simp
  | cons x l ih =>
    rw [List.foldl_cons, ih, max_le_iff]
    simp [and_assoc]

/-- The budget in force of a canonical table is the least bound of the partitions' budgets. -/
theorem budgetInForce_le_iff {m : Machine} (hwf : twf ReefPart.reset m.reef.parts = true) (b : Nat) :
    m.budgetInForce ≤ b ↔ ∀ i, (m.rpart i).budget ≤ b := by
  rw [Machine.budgetInForce, foldl_max_le_iff]
  constructor
  · rintro ⟨-, h⟩ i
    by_cases hi : m.rpart i = ReefPart.reset
    · rw [hi]
      exact Nat.zero_le b
    · exact h _ (List.mem_map_of_mem (f := fun e : Nat × ReefPart => e.2.budget) (mem_of_tget_ne hi))
  · refine fun h => ⟨Nat.zero_le b, fun x hx => ?_⟩
    obtain ⟨e, he, rfl⟩ := List.mem_map.mp hx
    exact mem_parts_rpart hwf he ▸ h e.1

theorem budgetInForce_congr {m a : Machine} (hm : twf ReefPart.reset m.reef.parts = true) (ha : twf ReefPart.reset a.reef.parts = true)
    (h : ∀ i, (a.rpart i).budget = (m.rpart i).budget) : a.budgetInForce = m.budgetInForce := by
  have hle (b : Nat) : a.budgetInForce ≤ b ↔ m.budgetInForce ≤ b := by
    rw [budgetInForce_le_iff ha, budgetInForce_le_iff hm]
    simp only [h]
  exact le_antisymm ((hle _).mpr le_rfl) ((hle _).mp le_rfl)

/-- The rate in force reads the tray's limits and the partitions' budgets. -/
theorem rateUp_congr {m a : Machine} (htray : a.reef.tray = m.reef.tray) (hfall : a.reef.fallback = m.reef.fallback)
    (hup : a.reef.rampUp = m.reef.rampUp) (hb : a.budgetInForce = m.budgetInForce) : a.rateUp = m.rateUp := by
  have htup : a.tUp = m.tUp := by rw [Machine.tUp, Machine.tUp, hfall, hb, htray]
  rw [Machine.rateUp, Machine.rateUp, Machine.rampScaled, Machine.rampScaled, htray, hfall, htup, hb, hup]

theorem modRpart_twf {m : Machine} (h : twf ReefPart.reset m.reef.parts = true) : twf ReefPart.reset (m.modRpart i f).reef.parts = true :=
  twf_tset _ _ _ _ h

end

/-! ### A window opens (R377-R379) -/

section
variable {m : Machine} {i c : Nat}

/-- A pre-ramp begins, or the partition is as it was. -/
theorem beginPreRamp_cases (m : Machine) (i : Nat) : m.beginPreRamp i = m ∨ ∃ c, m.beginPreRamp i = m.modRpart i fun p =>
    { p with phase := 2, ramping := true, owner := some c, target := m.stepW c, ready := false } := by
  unfold Machine.beginPreRamp
  split
  · exact .inl rfl
  next c _ =>
    dsimp only
    split
    · exact .inl rfl
    · split
      · exact .inl rfl
      · exact .inr ⟨c, rfl⟩

theorem beginPreRamp_of_turn (horder : (m.armOrder.find? fun c => m.ctxPart c == i) = some c)
    (hfirst : (m.armOrder.find? fun x => (m.rpart (m.ctxPart x)).assigned) = some c) (hassigned : (m.rpart i).assigned = true)
    (hheld : m.held i = false) (hruns : m.preRampRuns = false) (hspace : m.earliestRelease c ≤ m.ns + m.preRampNs i (m.rise c)) :
    m.beginPreRamp i = m.modRpart i fun p =>
      { p with phase := 2, ramping := true, owner := some c, target := m.stepW c, ready := false } := by
  have hfirst' : (m.armOrder.find? fun x => !((m.rpart (m.ctxPart x)).assigned == false)) = some c := by
    rw [← hfirst]
    exact congrArg (m.armOrder.find? ·) (funext fun x => by simp)
  unfold Machine.beginPreRamp
  rw [horder]
  dsimp only
  rw [hfirst', if_neg (by simp [hassigned, hheld, hruns]), if_neg (by omega)]

/-- The partition's window open, and nothing else of it changed. -/
def Machine.openWindow (m : Machine) (i : Nat) : Machine := m.modRpart i fun p => { p with windowOpen := true }

theorem openWindow_rpart (m : Machine) (i j : Nat) : ∃ w, (m.openWindow i).rpart j = { m.rpart j with windowOpen := w } := by
  rw [Machine.openWindow, modRpart_rpart]
  split
  next h => exact ⟨true, by rw [h]⟩
  next => exact ⟨_, rfl⟩

/-- What an open window leaves of what the power control reads. -/
theorem openWindow_reads (m : Machine) (i : Nat) (hwf : twf ReefPart.reset m.reef.parts = true) :
    (∀ c, (m.openWindow i).rise c = m.rise c) ∧ (m.openWindow i).armOrder = m.armOrder ∧ (m.openWindow i).rateUp = m.rateUp ∧
    (∀ c, (m.openWindow i).earliestRelease c = m.earliestRelease c) ∧ (m.preRampRuns = false → (m.openWindow i).preRampRuns = false) := by
  have hpart := openWindow_rpart m i
  have hload (j : Nat) : (m.openWindow i).load j = m.load j := by
    obtain ⟨w, hw⟩ := hpart j
    rw [Machine.load, hw]
    rfl
  have hrise (c : Nat) : (m.openWindow i).rise c = m.rise c := congrArg (m.stepW c - ·) (hload _)
  refine ⟨hrise, ?_, rateUp_congr rfl rfl rfl (budgetInForce_congr hwf (modRpart_twf _ _ hwf) fun j => ?_), fun c => ?_, fun hruns => ?_⟩
  · have hwaits (c : Nat) : (!(((m.openWindow i).rpart ((m.openWindow i).ctxPart c)).ready &&
        ((m.openWindow i).rpart ((m.openWindow i).ctxPart c)).owner == some c)) =
        !((m.rpart (m.ctxPart c)).ready && (m.rpart (m.ctxPart c)).owner == some c) := by
      obtain ⟨w, hw⟩ := hpart ((m.openWindow i).ctxPart c)
      rw [hw]
      rfl
    unfold Machine.armOrder
    simp only [hrise, hwaits]
    rfl
  · obtain ⟨w, hw⟩ := hpart j
    rw [hw]
  · obtain ⟨w, hw⟩ := hpart ((m.openWindow i).ctxPart c)
    unfold Machine.earliestRelease
    rw [hw]
    rfl
  · rw [Machine.preRampRuns, List.any_eq_false] at hruns ⊢
    intro e he
    have hphase : (m.rpart i).phase ≠ 2 := by
      by_cases hi : m.rpart i = ReefPart.reset
      · rw [hi]; decide
      · have := hruns _ (mem_of_tget_ne hi)
        rwa [beq_iff_eq] at this
    rcases mem_of_mem_tset he with he | rfl
    · exact hruns e he
    · simpa using hphase

end

/-! ### The commands of a window (R375, R377, R380) -/

section
variable {i : PartId} {s : State}

theorem rampWindowOpen_opens (ha : (s.m.rpart i).assigned = true) (hg : (s.m.rpart i).groupsM1 ≠ 0) :
    exec (.rampWindowOpen i) s = done s ((s.m.openWindow i).beginPreRamp i) := congrArg (done s) (if_pos ⟨ha, hg⟩)

theorem rampWindowOpen_sets (ha : (s.m.rpart i).assigned = true) (hg : (s.m.rpart i).groupsM1 ≠ 0) :
    Completes (.rampWindowOpen i) s fun m => (m.rpart i).windowOpen = true ∧ (m.rpart i).ballast = (s.m.rpart i).ballast ∧
      ∀ k, k ≠ i.val → m.rpart k = s.m.rpart k := by
  have hopen : (s.m.openWindow i).rpart i = { s.m.rpart i with windowOpen := true } := modRpart_rpart_same ..
  have hother (k : Nat) (hk : k ≠ i) : (s.m.openWindow i).rpart k = s.m.rpart k := (modRpart_rpart ..).trans (if_neg hk)
  refine .of_done (rampWindowOpen_opens ha hg) ?_
  rcases beginPreRamp_cases (s.m.openWindow i) i with h | ⟨c, h⟩
  · rw [h, hopen]
    exact ⟨rfl, rfl, hother⟩
  · rw [h, modRpart_rpart_same, hopen]
    exact ⟨rfl, rfl, fun k hk => (modRpart_rpart ..).trans ((if_neg hk).trans (hother k hk))⟩

/-- A waiting pre-ramp begins in its window when its turn, its spacing and no hold stop it (R378, R379). -/
theorem rampWindowOpen_begins {c : Nat} (ha : (s.m.rpart i).assigned = true) (hg : (s.m.rpart i).groupsM1 ≠ 0)
    (hwf : twf ReefPart.reset s.m.reef.parts = true) (horder : (s.m.armOrder.find? fun c => s.m.ctxPart c == i.val) = some c)
    (hfirst : (s.m.armOrder.find? fun x => (s.m.rpart (s.m.ctxPart x)).assigned) = some c) (hheld : s.m.held i = false)
    (hruns : s.m.preRampRuns = false) (hspace : s.m.earliestRelease c ≤ s.m.ns + s.m.preRampNs i (s.m.rise c)) :
    Completes (.rampWindowOpen i) s fun m => (m.rpart i).phase = 2 ∧ (m.rpart i).ramping = true ∧ (m.rpart i).owner = some c ∧
      (m.rpart i).target = s.m.stepW c ∧ (m.rpart i).ready = false := by
  obtain ⟨hrise, harm, hrate, hearly, hidle⟩ := openWindow_reads s.m i hwf
  have hpart := openWindow_rpart s.m i
  have hramp : (s.m.openWindow i).preRampNs i (s.m.rise c) = s.m.preRampNs i (s.m.rise c) := by
    obtain ⟨w, hw⟩ := hpart i
    unfold Machine.preRampNs
    rw [hrate, hw]
  have hassigned (j : Nat) : ((s.m.openWindow i).rpart j).assigned = (s.m.rpart j).assigned := by
    obtain ⟨w, hw⟩ := hpart j
    rw [hw]
  have hbegin := beginPreRamp_of_turn (m := s.m.openWindow i) (i := i) (c := c) (by rw [harm]; exact horder)
    (by rw [harm]; simp only [hassigned]; exact hfirst) (by rw [hassigned]; exact ha) hheld (hidle hruns)
    (by rw [hearly, hrise, hramp]; exact hspace)
  refine .of_done (rampWindowOpen_opens ha hg) ?_
  rw [hbegin, modRpart_rpart_same]
  exact ⟨rfl, rfl, rfl, rfl, rfl⟩

theorem riseExcess_counts {t : DWord} (hw : (s.m.rpart i).withdrawUntil = some t) (ht : s.m.ns ≤ t.toNat) :
    exec (.riseExcess i) s = done s (if (s.m.rpart i).target + max ((s.m.rpart i).target / 10) 20 < (s.m.rpart i).attributed then
      match (s.m.rpart i).owner with
      | some c => (s.m.modReef fun r => { r with cntRiseExcess := satAdd32 r.cntRiseExcess 1 }).raiseCtx 486 0 c
      | none => (s.m.modReef fun r => { r with cntRiseExcess := satAdd32 r.cntRiseExcess 1 }).raise 486 0
    else s.m) := by
  change execRiseExcess i s = _
  unfold execRiseExcess
  dsimp only
  rw [hw]
  simp only [ht, decide_true, Bool.true_and, decide_eq_true_eq] <;> rfl

theorem riseExcess_reef {t : DWord} (hw : (s.m.rpart i).withdrawUntil = some t) (ht : s.m.ns ≤ t.toNat)
    (hrise : (s.m.rpart i).target + max ((s.m.rpart i).target / 10) 20 < (s.m.rpart i).attributed) : Completes (.riseExcess i) s fun m =>
      m.reef = { s.m.reef with cntRiseExcess := satAdd32 s.m.reef.cntRiseExcess 1 } := by
  refine .of_done ((riseExcess_counts hw ht).trans (congrArg (done s) (if_pos hrise))) ?_
  split
  · exact Kept.reef (W := [.ttl]) (raiseCtx_kept .refl _ _ _ (by decide)) (by decide)
  · exact Kept.reef (W := [.ttl]) (raise_kept .refl _ _ (by decide)) (by decide)

end

/-! ### Tray reports, staleness and the notice (R388-R391, R394) -/

section
variable {h : MsgHdr} {b : BitVec 128} {s : State}

theorem heard_of_tray (hform : s.m.pins.form = false) : s.m.heard h = s.m := if_neg (by simp [hform])

theorem heard_of_card (hform : s.m.pins.form = true) :
    s.m.heard h = { s.m with card := { s.m.card with peer := some (h.src, h.dst) } } := if_pos hform

/-- An answer adds its messages to what was sent, and nothing else. -/
theorem answerMctp_eq_out (m : Machine) (h : MsgHdr) (cls cmd status : Nat) (body : List Byte) :
    m.answerMctp h cls cmd status body = { m with out := m.out ++ m.replies h cls cmd status body } := by
  obtain ⟨o, ho⟩ := answerMctp_eq m h cls cmd status body
  have hout := answerMctp_replies m h cls cmd status body
  rw [ho] at hout
  rw [ho, ← hout]

theorem takeReport_taken (m : Machine) : (m.takeReport b).reef.tray =
    { tUp := bits b 16 16, tDown := bits b 32 16, pTray := bits b 48 16, share := bits b 64 16, shelfOk := bits b 80 16
      soc := bits b 96 8, cool := bits b 104 8, flow := bits b 112 8, battOk := bitAt b 120, cduOk := bitAt b 121
      at_ := some m.time.now } ∧ (m.takeReport b).reef.stale = false ∧ (m.takeReport b).reef.fallback = false ∧
    (m.takeReport b).out = m.out ++ (if m.reef.tray.at_.isNone ∨ m.reef.tray.tUp ≠ bits b 16 16
      then [.mgmt m.hly.reg.master (.rampLimit (bits b 16 16))] else []) := by
  unfold Machine.takeReport
  dsimp only
  split
  · exact ⟨rfl, rfl, rfl, rfl⟩
  · exact ⟨rfl, rfl, rfl, (List.append_nil _).symm⟩

theorem tray_on (hform : s.m.pins.form = false) (hon : s.m.boot.on = true) : ¬ ((!(s.m.heard h).boot.on) = true ∨ (s.m.heard h).pins.form = true) := by
  rw [heard_of_tray hform]
  simp [hon, hform]

section
variable (ht : s.m.takes h = true)
include ht

theorem trayReport_onCard (hform : s.m.pins.form = true) (x : BitVec 8) :
    (Completes (.trayReport h b) s fun m => m = { s.m with card := { s.m.card with peer := some (h.src, h.dst) } }) ∧
    (Completes (.notice h x) s fun m => m = { s.m with card := { s.m.card with peer := some (h.src, h.dst) } }) := by
  have hcard : (s.m.heard h).pins.form = true := by rw [heard_of_card hform]; exact hform
  exact ⟨.of_vendor ht rfl ((if_pos (.inr hcard)).trans (heard_of_card hform)),
    .of_vendor ht rfl ((if_pos (.inr hcard)).trans (heard_of_card hform))⟩

variable (hform : s.m.pins.form = false)
include hform

theorem trayReport_standby (hon : s.m.boot.on = false) (x : BitVec 8) : Ignored (.trayReport h b) s ∧ Ignored (.notice h x) s := by
  have hoff : (!(s.m.heard h).boot.on) = true := by simp [hon]
  exact ⟨.of_done rfl ((vendor_of_takes _ _ _ _ ht).trans ((if_pos (.inl hoff)).trans (heard_of_tray hform))),
    .of_done rfl ((vendor_of_takes _ _ _ _ ht).trans ((if_pos (.inl hoff)).trans (heard_of_tray hform)))⟩

variable (hon : s.m.boot.on = true)
include hon

theorem trayReport_taken (hres : bits b 122 6 = 0) : exec (.trayReport h b) s = done s (s.m.takeReport b) := by
  refine congrArg (done s) ((vendor_of_takes _ _ _ _ ht).trans ((if_neg (tray_on hform hon)).trans ((if_neg (by simp [hres])).trans ?_)))
  rw [heard_of_tray hform]

theorem trayReport_refused (hres : bits b 122 6 ≠ 0) : exec (.trayReport h b) s = done s (s.m.answerMctp h 4 1 3 []) := by
  refine congrArg (done s) ((vendor_of_takes _ _ _ _ ht).trans ((if_neg (tray_on hform hon)).trans ((if_pos hres).trans ?_)))
  rw [heard_of_tray hform]

theorem notice_answered (x : BitVec 8) : Completes (.notice h x) s fun m => m.out = s.m.out ++ s.m.replies h 4 2 0 [] ∧
    (s.m.reef.noticed = none → m.reef = { s.m.reef with
      noticed := some x.toNat, noticeAt := s.m.time.now, noticeStop := false, readySent := false }) ∧
    (s.m.reef.noticed.isSome = true → m.reef = s.m.reef) := by
  refine .of_vendor ht rfl ?_
  rw [if_neg (tray_on hform hon), heard_of_tray hform, answerMctp_eq_out]
  split
  next hn => exact ⟨rfl, fun h0 => by simp [h0] at hn, fun _ => rfl⟩
  next hn => exact ⟨rfl, fun _ => rfl, fun h0 => absurd h0 hn⟩

end

theorem facilityFallback_limits (hform : s.m.pins.form = false) (hage : s.m.trayAt + 1000000000 ≤ s.m.ns) :
    Completes .facilityFallback s fun m => m.reef.fallback = true ∧ m.tUp = m.budgetInForce / 10 ∧ m.tDown = 100 :=
  .of_done (congrArg (done s) (if_pos ⟨by simp [hform], hage⟩)) ⟨rfl, if_pos rfl, if_pos rfl⟩

end

/-! ### What a master takes of forwarded limits (R390) -/

section
variable {n : NodeId} {s : State}

/-- A REPLAN is wanted, the collection of the next epoch is open, and the ledger's next figures are changed. -/
theorem rampNews_wants {m : Machine} (hmaster : m.isMaster = true) (f : RampSet → RampSet) :
    (m.rampNews f).hly.work.wantReplan = true ∧ (m.rampNews f).hly.work.phase ≠ .idle ∧ (m.rampNews f).tkp.ramp = m.tkp.ramp ∧
    (m.rampNews f).tkp.rampWant = f m.tkp.rampWant := by
  have hmaster' : (({ m with tkp := { m.tkp with rampWant := f m.tkp.rampWant } } : Machine).modWork fun w =>
    { w with wantReplan := true }).isMaster = true := hmaster
  have htkp {a : Machine} : a.replicate.tkp = a.tkp := Kept.tkp (W := [.hly, .out]) (replicate_kept .refl (by decide) (by decide)) (by decide)
  unfold Machine.rampNews Machine.openEpoch Machine.submit
  rw [if_pos hmaster', replicate_work, htkp]
  refine ⟨rfl, ?_, rfl, rfl⟩
  change (if m.hly.work.phase = .idle then EpochPhase.collecting else m.hly.work.phase) ≠ .idle
  split
  · decide
  · assumption

/-- Whether a forwarded limit rises far enough above its tray's budget, a second or more after the last REPLAN for a rise. -/
def Machine.limitRises (m : Machine) (n : NodeId) (t : BitVec 16) : Bool :=
  decide (m.trayBudget (trayOf n) * 11 ≤ t.toNat * 10) && decide (m.trayBudget (trayOf n) < t.toNat) && match m.reef.lastReplan with
    | some x => decide (x.toNat + 1000000000 ≤ m.ns)
    | none => true

theorem limitRises_iff (m : Machine) (n : NodeId) (t : BitVec 16) : m.limitRises n t = true ↔
    m.trayBudget (trayOf n) * 11 ≤ t.toNat * 10 ∧ m.trayBudget (trayOf n) < t.toNat ∧
      ∀ x, m.reef.lastReplan = some x → x.toNat + 1000000000 ≤ m.ns := by
  unfold Machine.limitRises
  cases h : m.reef.lastReplan <;> simp [and_assoc]

/-- The tray's limit in the figures of the next REPLAN. -/
def withLimit (x : RampSet) (n : NodeId) (t : BitVec 16) : RampSet := { x with budgets := tset 0 x.budgets (trayOf n) t.toNat }

theorem withLimit_budgets (x : RampSet) (n : NodeId) (t : BitVec 16) (k : Nat) :
    tget 0 (withLimit x n t).budgets k = if k = trayOf n then t.toNat else tget 0 x.budgets k := tget_tset _ _ _ _ _

variable (hmaster : s.m.isMaster = true)
include hmaster

theorem rampLimitForward_limit (hlow : s.m.lowestOnTray n = true) (t : BitVec 16) : exec (.rampLimitForward n (.limit t)) s = done s
    (if !(s.m.limitRises n t || decide (t.toNat < s.m.trayBudget (trayOf n))) then
      ({ s.m with tkp := { s.m.tkp with rampWant := withLimit s.m.tkp.rampWant n t } } : Machine).replicate
    else (if s.m.limitRises n t then s.m.modReef fun r => { r with lastReplan := some s.m.time.now } else s.m).rampNews
      (fun x => withLimit x n t)) :=
  congrArg (done s) ((if_neg (by simp [hmaster])).trans (if_neg (by simp [hlow])))

theorem rampLimitForward_keeps (hlow : s.m.lowestOnTray n = true) (t : BitVec 16) : Completes (.rampLimitForward n (.limit t)) s fun m =>
    m.tkp.rampWant = withLimit s.m.tkp.rampWant n t ∧ m.tkp.ramp = s.m.tkp.ramp ∧
    ((s.m.limitRises n t = true ∨ t.toNat < s.m.trayBudget (trayOf n)) → m.hly.work.wantReplan = true ∧ m.hly.work.phase ≠ .idle) ∧
    (s.m.limitRises n t = false → s.m.trayBudget (trayOf n) ≤ t.toNat → m.hly.work = s.m.hly.work) := by
  refine .of_done (rampLimitForward_limit hmaster hlow t) ?_
  by_cases hwant : s.m.limitRises n t = true ∨ t.toNat < s.m.trayBudget (trayOf n)
  · rw [if_neg (by simpa [not_and_or, imp_iff_not_or] using hwant)]
    have hnews : ∃ a : Machine, (if s.m.limitRises n t then s.m.modReef fun r => { r with lastReplan := some s.m.time.now } else s.m) = a ∧
        a.isMaster = true ∧ a.tkp = s.m.tkp := by
      split
      · exact ⟨_, rfl, hmaster, rfl⟩
      · exact ⟨_, rfl, hmaster, rfl⟩
    obtain ⟨a, ha, hmaster', htkp⟩ := hnews
    obtain ⟨hreplan, hphase, hramp, hrampWant⟩ := rampNews_wants hmaster' (fun x => withLimit x n t)
    rw [ha]
    refine ⟨htkp ▸ hrampWant, htkp ▸ hramp, fun _ => ⟨hreplan, hphase⟩, fun hno hle => ?_⟩
    rcases hwant with h | h
    · simp [h] at hno
    · omega
  · rw [if_pos (by simpa [not_or] using hwant)]
    have htkp {a : Machine} : a.replicate.tkp = a.tkp := Kept.tkp (W := [.hly, .out]) (replicate_kept .refl (by decide) (by decide)) (by decide)
    rw [htkp, replicate_work]
    exact ⟨rfl, rfl, fun h => absurd h hwant, fun _ _ => rfl⟩

end

/-- Settles O45: a window's, a report's or a notice's command is one record's change; a forwarded limit changes the next REPLAN's figures and
opens the epoch that carries it where it must. -/
theorem rampWindowsTrayReportsAndNotices : Obligations.RampWindowsTrayReportsAndNotices := by
  unfold Obligations.RampWindowsTrayReportsAndNotices
  refine ⟨?opens, ?begins, ?unassigned, ?closes, ?excess, ?report, ?reserved, ?standby, ?card, ?stale, ?notice, ?limit, ?raised, ?notLowest,
    ?member⟩
  case opens => exact fun i s ha hg => rampWindowOpen_sets ha hg
  case begins => exact fun i c s ha hg hwf ho hf hh hr hs => rampWindowOpen_begins ha hg hwf ho hf hh hr hs
  case unassigned =>
    refine fun i s h => .of_done rfl (if_neg fun hboth => ?_)
    rcases h with h | h
    · simp [h] at hboth
    · exact hboth.2 h
  case closes =>
    exact fun i s => ⟨fun h => .of_done (congrArg (done s) (if_pos h)) (modRpart_rpart_same ..), fun h => .of_done rfl (if_neg (by simp [h])),
      fun hp hb => .of_done (congrArg (done s) (if_pos ⟨hp, hb⟩)) (modRpart_rpart_same ..), fun h => .of_done rfl (if_neg (by omega))⟩
  case excess =>
    exact fun i t s hw ht => ⟨riseExcess_reef hw ht, fun h => .of_done (riseExcess_counts hw ht) (if_neg (by omega))⟩
  case report => exact fun h b s ht hon hform hres => .of_done (trayReport_taken ht hform hon hres) (takeReport_taken s.m)
  case reserved => exact fun h b s ht hon hform hres => .of_done (trayReport_refused ht hform hon hres) (answerMctp_eq_out ..)
  case standby => exact fun h b x s hform ht hon => trayReport_standby ht hform hon x
  case card => exact fun h b x s hform ht => trayReport_onCard ht hform x
  case stale =>
    refine fun s hform => ⟨fun hs hage => .of_done (congrArg (done s) (if_pos ⟨by simp [hform], by simp [hs], hage⟩))
      (Kept.reef (W := [.ttl]) (raise_kept .refl _ _ (by decide)) (by decide)), fun h => .of_done rfl (if_neg ?_),
      facilityFallback_limits hform, fun hage => .of_done rfl (if_neg (by omega))⟩
    rintro ⟨-, hs, hage⟩
    rcases h with h | h
    · simp [h] at hs
    · omega
  case notice => exact fun h x s ht hon hform => notice_answered ht hform hon x
  case limit =>
    refine fun n t s hmaster hlow => (rampLimitForward_keeps hmaster hlow t).imp fun m ⟨hwant, hramp, hstarts, hkeeps⟩ =>
      ⟨fun k => by rw [hwant, withLimit_budgets], hramp, fun h => hstarts ?_, fun hle hlt => hkeeps ?_ hle⟩
    · exact h.elim .inr fun h => .inl ((limitRises_iff ..).mpr h)
    · rw [← Bool.not_eq_true, limitRises_iff]
      omega
  case raised =>
    intro n v s hmaster
    obtain ⟨hreplan, hphase, hramp, hwant⟩ := rampNews_wants hmaster fun x => { x with rates := tset 0 x.rates n.toNat v }
    have he : exec (.rampLimitForward n (.raised v)) s =
        done s (s.m.rampNews fun x => { x with rates := tset 0 x.rates n.toNat v }) :=
      congrArg (done s) (if_neg (by simp [hmaster]))
    exact .of_done he ⟨hreplan, hphase, hramp, fun k => by rw [hwant]; exact tget_tset .., by rw [hwant]⟩
  case notLowest =>
    intro n t s hlow
    refine .of_done rfl ?_
    split
    · rfl
    · exact if_pos (by simp [hlow])
  case member => exact fun n r s hmaster => .of_done rfl (if_pos (by simp [hmaster]))

end Sys2Proof.Machine

/-! ## Reef's microsecond, its cap and its holds (13 R368-R374, R382, R383) -/

namespace Sys2Proof.Machine

/-! ### Folds that change records one by one -/

/-- A fold whose steps each change the record of their own index changes the records of its list once each. -/
theorem foldl_read {α : Type} {rd : Machine → Nat → α} {g : Machine → Nat → Machine} {f : Nat → α → α} {P : Machine → Prop}
    (hg : ∀ a d, P a → P (g a d) ∧ ∀ k, rd (g a d) k = if k = d then f d (rd a d) else rd a k) {l : List Nat} (hl : l.Nodup) {m : Machine}
    (hm : P m) : P (l.foldl g m) ∧ ∀ k, rd (l.foldl g m) k = if k ∈ l then f k (rd m k) else rd m k := by
  induction l generalizing m with
  | nil => exact ⟨hm, fun k => rfl⟩
  | cons d l ih =>
    obtain ⟨hd, hl⟩ := List.nodup_cons.mp hl
    obtain ⟨hP, hread⟩ := hg m d hm
    obtain ⟨hP', hread'⟩ := ih hl hP
    refine ⟨hP', fun k => (hread' k).trans ?_⟩
    rw [hread]
    by_cases hk : k = d
    · subst hk
      simp [hd]
    · simp [hk]

theorem foldl_reaches_all {g : Machine → Nat → Machine} {R : Machine → Machine → Prop} (hrefl : ∀ a, R a a)
    (htrans : ∀ {a b c}, R a b → R b c → R a c) (hg : ∀ a d, R a (g a d)) (l : List Nat) (m : Machine) : R m (l.foldl g m) := by
  induction l generalizing m with
  | nil => exact hrefl m
  | cons d l ih => exact htrans (hg m d) (ih _)

/-- A machine that differs in Reef's dies alone. -/
def DiesOf (m a : Machine) : Prop := ∃ ds, a = { m with reef := { m.reef with dies := ds } }

theorem DiesOf.refl (m : Machine) : DiesOf m m := ⟨m.reef.dies, rfl⟩

theorem DiesOf.modRdie {m a : Machine} (h : DiesOf m a) (d : Nat) (f : ReefDie → ReefDie) : DiesOf m (a.modRdie d f) := by
  obtain ⟨ds, rfl⟩ := h
  exact ⟨_, rfl⟩

/-- One change of each of a list's dies. -/
theorem foldl_modRdie (m : Machine) (f : Nat → ReefDie → ReefDie) {l : List Nat} (hl : l.Nodup) :
    DiesOf m (l.foldl (fun a d => a.modRdie d (f d)) m) ∧
    ∀ d, (l.foldl (fun a d => a.modRdie d (f d)) m).rdie d = if d ∈ l then f d (m.rdie d) else m.rdie d :=
  foldl_read (P := DiesOf m) (f := f) (fun a d h => ⟨h.modRdie d (f d), modRdie_rdie a d (f d)⟩) hl (.refl m)

theorem DiesOf.reef {m a : Machine} (h : DiesOf m a) : ∃ ds, a.reef = { m.reef with dies := ds } := by
  obtain ⟨ds, rfl⟩ := h
  exact ⟨ds, rfl⟩

theorem DiesOf.averages {m a : Machine} (h : DiesOf m a) :
    a.reef.samples = m.reef.samples ∧ a.reef.p100us = m.reef.p100us ∧ a.reef.p1ms = m.reef.p1ms := by
  obtain ⟨ds, hds⟩ := h.reef
  rw [hds]
  exact ⟨rfl, rfl, rfl⟩

theorem DiesOf.rpart {m a : Machine} (h : DiesOf m a) (i : Nat) : a.rpart i = m.rpart i := by
  obtain ⟨ds, hds⟩ := h.reef
  rw [Machine.rpart, hds]
  rfl

/-- A machine that differs in Reef's partitions alone. -/
def PartsOf (m a : Machine) : Prop := ∃ ps, a = { m with reef := { m.reef with parts := ps } }

theorem PartsOf.refl (m : Machine) : PartsOf m m := ⟨m.reef.parts, rfl⟩

theorem PartsOf.modRpart {m a : Machine} (h : PartsOf m a) (i : Nat) (f : ReefPart → ReefPart) : PartsOf m (a.modRpart i f) := by
  obtain ⟨ps, rfl⟩ := h
  exact ⟨_, rfl⟩

/-- One change of each of a list's partitions. -/
theorem foldl_modRpart (m : Machine) (f : Nat → ReefPart → ReefPart) {l : List Nat} (hl : l.Nodup) :
    PartsOf m (l.foldl (fun a i => a.modRpart i (f i)) m) ∧
    ∀ i, (l.foldl (fun a i => a.modRpart i (f i)) m).rpart i = if i ∈ l then f i (m.rpart i) else m.rpart i :=
  foldl_read (P := PartsOf m) (f := f) (fun a i h => ⟨h.modRpart i (f i), modRpart_rpart a i (f i)⟩) hl (.refl m)

theorem PartsOf.reef {m a : Machine} (h : PartsOf m a) : ∃ ps, a.reef = { m.reef with parts := ps } := by
  obtain ⟨ps, rfl⟩ := h
  exact ⟨ps, rfl⟩

theorem PartsOf.averages {m a : Machine} (h : PartsOf m a) :
    a.reef.samples = m.reef.samples ∧ a.reef.p100us = m.reef.p100us ∧ a.reef.p1ms = m.reef.p1ms := by
  obtain ⟨ps, hps⟩ := h.reef
  rw [hps]
  exact ⟨rfl, rfl, rfl⟩

theorem PartsOf.rdie {m a : Machine} (h : PartsOf m a) (d : Nat) : a.rdie d = m.rdie d := by
  obtain ⟨ps, hps⟩ := h.reef
  rw [Machine.rdie, hps]
  rfl

/-! ### What a microsecond's own figures leave as it was -/

/-- A machine that differs in Reef's samples, averages, dies and partitions alone. -/
def MicroOf (m a : Machine) : Prop := ∃ l p q ds ps,
  a = { m with reef := { m.reef with samples := l, p100us := p, p1ms := q, dies := ds, parts := ps } }

section
variable {m a : Machine}

theorem MicroOf.refl (m : Machine) : MicroOf m m := ⟨_, _, _, _, _, rfl⟩

theorem MicroOf.modRdie (h : MicroOf m a) (d : Nat) (f : ReefDie → ReefDie) : MicroOf m (a.modRdie d f) := by
  obtain ⟨l, p, q, ds, ps, rfl⟩ := h
  exact ⟨l, p, q, _, ps, rfl⟩

theorem MicroOf.modRpart (h : MicroOf m a) (i : Nat) (f : ReefPart → ReefPart) : MicroOf m (a.modRpart i f) := by
  obtain ⟨l, p, q, ds, ps, rfl⟩ := h
  exact ⟨l, p, q, ds, _, rfl⟩

theorem MicroOf.trans {b : Machine} (h : MicroOf m a) (h' : MicroOf a b) : MicroOf m b := by
  obtain ⟨l, p, q, ds, ps, rfl⟩ := h
  obtain ⟨l, p, q, ds, ps, rfl⟩ := h'
  exact ⟨l, p, q, ds, ps, rfl⟩

theorem DiesOf.micro (h : DiesOf m a) : MicroOf m a := by
  obtain ⟨ds, rfl⟩ := h
  exact ⟨_, _, _, ds, _, rfl⟩

theorem PartsOf.micro (h : PartsOf m a) : MicroOf m a := by
  obtain ⟨ps, rfl⟩ := h
  exact ⟨_, _, _, _, ps, rfl⟩

theorem MicroOf.workOn (h : MicroOf m a) (i d : Nat) : a.workOn i d = m.workOn i d := by
  obtain ⟨l, p, q, ds, ps, rfl⟩ := h
  rfl

theorem MicroOf.held (h : MicroOf m a) (i : Nat) : a.held i = m.held i := by
  obtain ⟨l, p, q, ds, ps, rfl⟩ := h
  rfl

theorem MicroOf.fuse (h : MicroOf m a) : a.fuse = m.fuse := by
  obtain ⟨l, p, q, ds, ps, rfl⟩ := h
  rfl

theorem MicroOf.noticed (h : MicroOf m a) : a.reef.noticed = m.reef.noticed := by
  obtain ⟨l, p, q, ds, ps, rfl⟩ := h
  rfl

/-- The ballast on a die reads the dies' and the partitions' ballast alone. -/
theorem MicroOf.ballastOn (h : MicroOf m a) {d : Nat} (hdie : (a.rdie d).resetBallast = (m.rdie d).resetBallast)
    (hpart : ∀ i, (a.rpart i).ballast = (m.rpart i).ballast) : a.ballastOn d = m.ballastOn d := by
  have htiles (i : Nat) : a.partTiles i = m.partTiles i := by
    obtain ⟨l, p, q, ds, ps, rfl⟩ := h
    rfl
  simp only [Machine.ballastOn, Machine.tilesOn, hdie, hpart, htiles]

theorem MicroOf.rateUp (h : MicroOf m a) (hb : a.budgetInForce = m.budgetInForce) : a.rateUp = m.rateUp := by
  obtain ⟨l, p, q, ds, ps, rfl⟩ := h
  exact rateUp_congr rfl rfl rfl hb

/-- What a die becomes as its set point moves. -/
def movedDie (m : Machine) (d : Nat) (r : ReefDie) : ReefDie :=
  let aim := if r.idleLow ∧ !(m.dieLive d) then 600 else max (m.vmin d) (min m.ceiling (r.vtarget.getD m.ceiling) - r.capDrop)
  let v := if r.vset < aim then min aim (r.vset + 10) else max aim (r.vset - 10)
  { r with
    vset := v, idleLow := r.idleLow && !(m.dieLive d)
    okSince := if 720 ≤ v ∧ !(bitAt m.corner.uv d) then some (r.okSince.getD m.time.now) else none }

theorem moveDie_eq (m : Machine) (d : Nat) : m.moveDie d = m.modRdie d (movedDie m d) := rfl

theorem MicroOf.movedDie (h : MicroOf m a) (d : Nat) : Machine.movedDie a d = Machine.movedDie m d := by
  obtain ⟨l, p, q, ds, ps, rfl⟩ := h
  rfl

theorem movedDie_vset (m : Machine) (d : Nat) : (movedDie m d (m.rdie d)).vset =
    if (m.rdie d).vset < m.vaim d then min (m.vaim d) ((m.rdie d).vset + 10) else max (m.vaim d) ((m.rdie d).vset - 10) := rfl

end

/-! ### The figures that the rest of the microsecond leaves -/

/-- The averages, every die's power and set point, and every partition's attributed power are as they were. -/
structure Steady (a b : Machine) : Prop where
  averages : b.reef.samples = a.reef.samples ∧ b.reef.p100us = a.reef.p100us ∧ b.reef.p1ms = a.reef.p1ms
  dies : ∀ d, (b.rdie d).power = (a.rdie d).power ∧ (b.rdie d).vset = (a.rdie d).vset
  parts : ∀ i, (b.rpart i).attributed = (a.rpart i).attributed

section
variable {a b c : Machine}

theorem Steady.refl (a : Machine) : Steady a a := ⟨⟨rfl, rfl, rfl⟩, fun _ => ⟨rfl, rfl⟩, fun _ => rfl⟩

theorem Steady.trans (h : Steady a b) (h' : Steady b c) : Steady a c :=
  ⟨⟨h'.1.1.trans h.1.1, h'.1.2.1.trans h.1.2.1, h'.1.2.2.trans h.1.2.2⟩,
    fun d => ⟨(h'.2 d).1.trans (h.2 d).1, (h'.2 d).2.trans (h.2 d).2⟩, fun i => (h'.3 i).trans (h.3 i)⟩

/-- What the figures are read from. -/
theorem Steady.of_reads (hl : b.reef.samples = a.reef.samples) (hp : b.reef.p100us = a.reef.p100us) (hq : b.reef.p1ms = a.reef.p1ms)
    (hd : b.reef.dies = a.reef.dies) (hi : b.reef.parts = a.reef.parts) : Steady a b :=
  ⟨⟨hl, hp, hq⟩, fun d => by simp [Machine.rdie, hd], fun i => by simp [Machine.rpart, hi]⟩

theorem Steady.of_reef (h : b.reef = a.reef) : Steady a b := .of_reads (by rw [h]) (by rw [h]) (by rw [h]) (by rw [h]) (by rw [h])

theorem steady_modRdie (a : Machine) (d : Nat) {f : ReefDie → ReefDie} (hf : ∀ r, (f r).power = r.power ∧ (f r).vset = r.vset) :
    Steady a (a.modRdie d f) := by
  refine ⟨⟨rfl, rfl, rfl⟩, fun k => ?_, fun _ => rfl⟩
  rw [modRdie_rdie]
  split
  next h => exact h ▸ hf _
  next => exact ⟨rfl, rfl⟩

theorem steady_modRpart (a : Machine) (i : Nat) {f : ReefPart → ReefPart} (hf : ∀ r, (f r).attributed = r.attributed) :
    Steady a (a.modRpart i f) := by
  refine ⟨⟨rfl, rfl, rfl⟩, fun _ => ⟨rfl, rfl⟩, fun k => ?_⟩
  rw [modRpart_rpart]
  split
  next h => exact h ▸ hf _
  next => rfl

theorem steady_foldl {g : Machine → Nat → Machine} (hg : ∀ a d, Steady a (g a d)) (l : List Nat) (m : Machine) : Steady m (l.foldl g m) :=
  foldl_reaches_all .refl .trans hg l m

theorem stopHeld_steady (a : Machine) (i : Nat) : Steady a (a.stopHeld i) := by
  unfold Machine.stopHeld
  split
  · exact steady_modRpart _ _ fun r => by split <;> rfl
  · exact .refl a

theorem moveBallast_steady (a : Machine) (up down i : Nat) : Steady a (a.moveBallast up down i) := by
  refine steady_modRpart _ _ fun r => ?_
  dsimp only
  split
  · rfl
  · split
    · rfl
    · split
      · split <;> rfl
      · rfl

theorem beginPreRamp_steady (a : Machine) (i : Nat) : Steady a (a.beginPreRamp i) := by
  rcases beginPreRamp_cases a i with h | ⟨c, h⟩
  · rw [h]; exact .refl a
  · rw [h]; exact steady_modRpart _ _ fun _ => rfl

theorem settlePhase_steady (a : Machine) (i : Nat) : Steady a (a.settlePhase i) := by
  unfold Machine.settlePhase
  refine steady_modRpart _ _ fun r => ?_
  split
  · rfl
  · split <;> rfl

theorem chargeBallast_reef (a : Machine) : a.chargeBallast.reef = a.reef :=
  Kept.reef (W := [.part, .ctx]) (chargeBallast_kept .refl (by decide) (by decide)) (by decide)

theorem dieBallast_steady (a : Machine) : Steady a a.dieBallast := by
  unfold Machine.dieBallast
  refine .trans (b := (List.range 8).foldl (fun (m : Machine) i => m.modRpart i fun p => { p with
    ballast := 0, phase := 0, ramping := false, ready := false, withdrawUntil := none }) a)
    (steady_foldl (fun x i => ?_) _ _) (steady_foldl (fun x d => ?_) _ _)
  · exact steady_modRpart x i fun _ => rfl
  · exact steady_modRdie x d fun _ => ⟨rfl, rfl⟩

theorem goingDownAll_reef (m : Machine) : ((List.range 24).foldl (fun (m : Machine) p =>
    if (m.port p).stat.state = .active then ((m.sendGoingDown p 0x0B).sendGoingDown p 0x0B).sendGoingDown p 0x0B else m) m).reef = m.reef := by
  refine Kept.reef (W := [.out]) (.foldl .refl fun x p h => ?_) (by decide)
  refine .ite ?_ h
  exact sendGoingDown_kept (sendGoingDown_kept (sendGoingDown_kept h _ _ (by decide)) _ _ (by decide)) _ _ (by decide)

theorem toFarnis_reef (m : Machine) (b : List Byte) : (m.toFarnis b).reef = m.reef :=
  Kept.reef (W := [.out]) (toFarnis_kept .refl b (by decide)) (by decide)

theorem reportReady_reef (a : Machine) : a.reportReady.reef = { a.reef with readySent := true } := by
  unfold Machine.reportReady
  extract_lets src c luff crashed told gone
  have hreef : crashed.reef = a.reef := rfl
  clear_value crashed
  rw [modReef_reef, toFarnis_reef, goingDownAll_reef, toFarnis_reef, hreef]

theorem reportReady_steady (a : Machine) : Steady a a.reportReady := by
  have h := reportReady_reef a
  exact .of_reads (by rw [h]) (by rw [h]) (by rw [h]) (by rw [h]) (by rw [h])

theorem noticeStop_steady (a : Machine) : Steady a (a.modReef fun r => { r with noticeStop := true }) := .of_reads rfl rfl rfl rfl rfl

theorem noticeStep_steady (a : Machine) : Steady a a.noticeStep := by
  have hstop (l : List Nat) : (l.foldl (fun (m : Machine) c => m.stopTiles c) a).reef = a.reef :=
    Kept.reef (W := [.tiles, .ctx]) (.foldl .refl fun x c h => h.trans (stopTiles_keeps x c)) (by decide)
  unfold Machine.noticeStep
  dsimp only
  split
  · exact .refl a
  · split
    · split
      · exact .refl a
      · have hstopped := hstop (tkeys a.ctx)
        generalize (tkeys a.ctx).foldl (fun (m : Machine) c => m.stopTiles c) a = b at hstopped ⊢
        exact (Steady.of_reef hstopped).trans ((dieBallast_steady b).trans (noticeStop_steady _))
    · split
      · exact reportReady_steady a
      · exact .refl a

end

/-! ### The stages of a microsecond (R368-R370, R382) -/

section
variable (m : Machine) (dw : List Nat) (o : Nat)

/-- The samples kept once the new one has come. -/
def samplesAfter : List Nat := (m.reef.samples ++ [sumList dw + o]).drop (m.reef.samples.length + 1 - 1000)

/-- The samples and their averages are those given. -/
def withSamples (l : List Nat) (p q : Nat) : Machine := m.modReef fun r => { r with samples := l, p100us := p, p1ms := q }

theorem withSamples_averages (l : List Nat) (p q : Nat) : (withSamples m l p q).reef.samples = l ∧ (withSamples m l p q).reef.p100us = p ∧
    (withSamples m l p q).reef.p1ms = q := ⟨rfl, rfl, rfl⟩

theorem withSamples_micro (l : List Nat) (p q : Nat) : MicroOf m (withSamples m l p q) := ⟨l, p, q, _, _, rfl⟩

/-- The sample and its averages have been taken. -/
def sampled : Machine := withSamples m (samplesAfter m dw o) (average (samplesAfter m dw o) 100) (average (samplesAfter m dw o) 1000)

/-- A die with its power measured. -/
def withPower (w : Nat) (r : ReefDie) : ReefDie := { r with power := w }

/-- The dies' powers have been taken too. -/
def powersTaken : Machine :=
  (List.range 4).foldl (fun (m : Machine) d => m.modRdie d fun r => { r with power := dw.getD d 0 }) (sampled m dw o)

/-- The power that the tiles of a partition take: each die's, less the ballast on it, in proportion to the tiles at work (13 R368, 06 R202). -/
def tilePower (i : Nat) : Nat :=
  sumList ((List.range 4).map fun d =>
    ((m.rdie d).power - m.ballastOn d) * m.workOn i d / max 1 (sumList ((List.range 8).map fun j => m.workOn j d)))

/-- Every partition's power is measured. -/
def partsMeasured : Machine := ((List.range 8).map (tilePower m)).zipIdx.foldl (fun (m : Machine) e => m.measurePart e.2 e.1) m

theorem partsMeasured_eq : partsMeasured m = (List.range 8).foldl (fun a i => a.measurePart i (tilePower m i)) m := rfl

/-- The set points of the present dies have moved. -/
def pointsMoved : Machine := ((List.range 4).filter fun d => bitAt m.fuse.cdieMask d).foldl (fun (m : Machine) d => m.moveDie d) m

/-- Every held pre-ramp has stopped. -/
def heldStopped : Machine := (List.range 8).foldl (fun (m : Machine) i => m.stopHeld i) m

/-- Every ballast has moved. -/
def ballastsMoved (up down : Nat) : Machine :=
  (List.range 4).foldl (fun (m : Machine) d => m.modRdie d fun r => { r with resetBallast := r.resetBallast - down })
    ((List.range 8).foldl (fun (m : Machine) i => m.moveBallast up down i) m)

/-- A waiting step's pre-ramp begins where it needs no window. -/
def preRampTurn (i : Nat) : Machine :=
  if (m.armOrder.find? fun c => m.ctxPart c == i).isSome && (m.rpart i).groupsM1 == 0 && (m.rpart i).phase != 2 then m.beginPreRamp i else m

/-- Pre-ramps have begun, and every phase shows whether a step waits. -/
def phasesSettled : Machine :=
  (List.range 8).foldl (fun (m : Machine) i => m.settlePhase i) ((List.range 8).foldl (fun (m : Machine) i => preRampTurn m i) m)

/-- The microsecond's ballast is charged and logged. -/
def ballastLogged : Machine :=
  let m := m.chargeBallast
  m.modReef fun r => { r with
    ballastLog := (m.reef.ballastLog.filter fun e => decide (m.ns < e.1.toNat + 1000000000)) ++
      (if m.totalBallast = 0 then [] else [(m.time.now, m.totalBallast)])
    scaled := m.rampScaled }

/-- A microsecond up to what its holds stop. -/
def microHeld : Machine := heldStopped (pointsMoved (partsMeasured (powersTaken m dw o)))

theorem reefMicro_stages : ∃ up down, up = (microHeld m dw o).rateUp - slopeExcess (samplesAfter m dw o) (microHeld m dw o).rateUp true ∧
    m.reefMicro dw o = (ballastLogged (phasesSettled (ballastsMoved (microHeld m dw o) up down))).noticeStep := by
  unfold Machine.reefMicro
  extract_lets p samples sampled powered measured pointed held up down moved faded begun settled charged log
  have hpowered : powered = powersTaken m dw o := rfl
  clear_value powered
  have hheld : held = heldStopped (pointsMoved (partsMeasured powered)) := rfl
  clear_value held
  have hfaded : faded = ballastsMoved held up down := rfl
  have hup : up = held.rateUp - slopeExcess (samplesAfter m dw o) held.rateUp true := rfl
  clear_value faded up
  have hsettled : settled = phasesSettled faded := rfl
  clear_value settled
  have hlogged : charged.modReef (fun r => { r with ballastLog := log, scaled := charged.rampScaled }) = ballastLogged settled := rfl
  subst hpowered
  refine ⟨up, down, hup.trans (by rw [hheld]; rfl), (congrArg Machine.noticeStep hlogged).trans ?_⟩
  rw [hsettled, hfaded, hheld]
  rfl

end

/-! ### What the stages come to -/

section
variable (m : Machine) (dw : List Nat) (o : Nat)

theorem range_nodup (n : Nat) : (List.range n).Nodup := List.nodup_range

/-- The powers are taken: the dies keep everything else, and so do the partitions. -/
theorem powersTaken_reads : DiesOf (sampled m dw o) (powersTaken m dw o) ∧
    ∀ d, (powersTaken m dw o).rdie d = if d < 4 then withPower (dw.getD d 0) (m.rdie d) else m.rdie d := by
  obtain ⟨hof, hread⟩ := foldl_modRdie (sampled m dw o) (fun d => withPower (dw.getD d 0)) (range_nodup 4)
  exact ⟨hof, fun d => (hread d).trans (by simp only [List.mem_range]; rfl)⟩

theorem powersTaken_micro : MicroOf m (powersTaken m dw o) :=
  (withSamples_micro m _ _ _).trans (powersTaken_reads m dw o).1.micro

theorem powersTaken_tilePower (i : Nat) : tilePower (powersTaken m dw o) i = sumList ((List.range 4).map fun d =>
    (dw.getD d 0 - m.ballastOn d) * m.workOn i d / max 1 (sumList ((List.range 8).map fun j => m.workOn j d))) := by
  obtain ⟨hof, hread⟩ := powersTaken_reads m dw o
  have hmicro := powersTaken_micro m dw o
  refine congrArg sumList (List.map_congr_left fun d hd => ?_)
  have hdie := (hread d).trans (if_pos (List.mem_range.mp hd))
  simp only [hmicro.workOn]
  rw [hmicro.ballastOn (by rw [hdie]; rfl) (fun i => congrArg ReefPart.ballast (hof.rpart i)), hdie]
  rfl

/-- A partition with its power measured. -/
def measuredPart (a : Nat) (p : ReefPart) : ReefPart :=
  { p with attributed := a, ballast := if p.phase = 0 ∧ p.withdrawUntil.isSome then p.ballast - (a - p.attributed) else p.ballast }

theorem partsMeasured_reads : PartsOf m (partsMeasured m) ∧
    ∀ i, (partsMeasured m).rpart i = if i < 8 then measuredPart (tilePower m i) (m.rpart i) else m.rpart i := by
  obtain ⟨hof, hread⟩ := foldl_modRpart m (fun i => measuredPart (tilePower m i)) (range_nodup 8)
  rw [partsMeasured_eq]
  exact ⟨hof, fun i => (hread i).trans (by simp only [List.mem_range])⟩

theorem pointsMoved_reads : DiesOf m (pointsMoved m) ∧ ∀ d, (pointsMoved m).rdie d =
    if d < 4 ∧ bitAt m.fuse.cdieMask d = true then movedDie m d (m.rdie d) else m.rdie d := by
  obtain ⟨hof, hread⟩ := foldl_read (P := DiesOf m) (g := Machine.moveDie) (f := movedDie m)
    (fun a d h => ⟨h.modRdie d (movedDie a d), fun k => (modRdie_rdie a d (movedDie a d) k).trans (by rw [h.micro.movedDie d])⟩)
    ((range_nodup 4).filter fun d => bitAt m.fuse.cdieMask d) (.refl m)
  exact ⟨hof, fun d => (hread d).trans (by simp [List.mem_filter])⟩

/-- A microsecond's powers, partitions and set points. -/
def microMoved : Machine := pointsMoved (partsMeasured (powersTaken m dw o))

theorem microMoved_micro : MicroOf m (microMoved m dw o) :=
  ((powersTaken_micro m dw o).trans (partsMeasured_reads _).1.micro).trans (pointsMoved_reads _).1.micro

theorem microMoved_averages : (microMoved m dw o).reef.samples = samplesAfter m dw o ∧
    (microMoved m dw o).reef.p100us = average (samplesAfter m dw o) 100 ∧
    (microMoved m dw o).reef.p1ms = average (samplesAfter m dw o) 1000 := by
  obtain ⟨hl, hp, hq⟩ := (pointsMoved_reads (partsMeasured (powersTaken m dw o))).1.averages
  obtain ⟨hl', hp', hq'⟩ := (partsMeasured_reads (powersTaken m dw o)).1.averages
  obtain ⟨hl'', hp'', hq''⟩ := (powersTaken_reads m dw o).1.averages
  obtain ⟨hl''', hp''', hq'''⟩ := withSamples_averages m (samplesAfter m dw o) (average (samplesAfter m dw o) 100) (average (samplesAfter m dw o) 1000)
  unfold microMoved
  exact ⟨((hl.trans hl').trans hl'').trans hl''', ((hp.trans hp').trans hp'').trans hp''', ((hq.trans hq').trans hq'').trans hq'''⟩

theorem microMoved_rdie (d : Nat) : (microMoved m dw o).rdie d =
    if d < 4 ∧ bitAt m.fuse.cdieMask d = true then movedDie m d (withPower (dw.getD d 0) (m.rdie d))
    else if d < 4 then withPower (dw.getD d 0) (m.rdie d) else m.rdie d := by
  obtain ⟨hpart, -⟩ := partsMeasured_reads (powersTaken m dw o)
  have hmicro := (powersTaken_micro m dw o).trans hpart.micro
  unfold microMoved
  rw [(pointsMoved_reads _).2 d, hmicro.fuse, hmicro.movedDie d, hpart.rdie d, (powersTaken_reads m dw o).2 d]
  split
  next h => rw [if_pos h.1]
  next => rfl

theorem microMoved_rpart (i : Nat) : (microMoved m dw o).rpart i =
    if i < 8 then measuredPart (tilePower (powersTaken m dw o) i) (m.rpart i) else m.rpart i := by
  have hpart : (powersTaken m dw o).rpart i = m.rpart i := (powersTaken_reads m dw o).1.rpart i
  unfold microMoved
  rw [(pointsMoved_reads _).1.rpart i, (partsMeasured_reads _).2 i, hpart]

theorem microHeld_steady : Steady (microMoved m dw o) (microHeld m dw o) := steady_foldl stopHeld_steady _ _

theorem ballastsMoved_steady (up down : Nat) : Steady m (ballastsMoved m up down) := by
  refine (steady_foldl (fun a i => moveBallast_steady a up down i) _ _).trans (steady_foldl (fun a d => ?_) _ _)
  exact steady_modRdie a d fun _ => ⟨rfl, rfl⟩

theorem preRampTurn_steady (i : Nat) : Steady m (preRampTurn m i) := by
  unfold preRampTurn
  split
  · exact beginPreRamp_steady m i
  · exact .refl m

theorem phasesSettled_steady : Steady m (phasesSettled m) :=
  (steady_foldl preRampTurn_steady _ _).trans (steady_foldl settlePhase_steady _ _)

theorem ballastLogged_steady : Steady m (ballastLogged m) := by
  have h := chargeBallast_reef m
  unfold ballastLogged
  generalize m.chargeBallast = c at h ⊢
  exact (Steady.of_reef h).trans (.of_reads rfl rfl rfl rfl rfl)

/-- The rest of a microsecond leaves what it has measured and moved. -/
theorem reefMicro_steady : Steady (microMoved m dw o) (m.reefMicro dw o) := by
  obtain ⟨up, down, -, h⟩ := reefMicro_stages m dw o
  rw [h]
  exact ((((microHeld_steady m dw o).trans (ballastsMoved_steady _ up down)).trans (phasesSettled_steady _)).trans
    (ballastLogged_steady _)).trans (noticeStep_steady _)

end

/-! ### The ballast of a running pre-ramp (R375, R377) -/

section
variable {m a b : Machine} {i : Nat}

theorem stopHeld_micro (h : MicroOf m a) (k : Nat) : MicroOf m (a.stopHeld k) := by
  unfold Machine.stopHeld
  split
  · exact h.modRpart k _
  · exact h

theorem stopHeld_rpart (h : MicroOf m a) (hheld : m.held i = false) (k : Nat) : (a.stopHeld k).rpart i = a.rpart i := by
  unfold Machine.stopHeld
  split
  next hk =>
    refine (modRpart_rpart a k _ i).trans (if_neg ?_)
    rintro rfl
    rw [h.held, hheld] at hk
    cases hk
  next => rfl

/-- The partitions' table stays canonical and keeps every budget. -/
def Budgeted (a b : Machine) : Prop := (twf ReefPart.reset a.reef.parts = true → twf ReefPart.reset b.reef.parts = true) ∧
  ∀ k, (b.rpart k).budget = (a.rpart k).budget

theorem Budgeted.refl (a : Machine) : Budgeted a a := ⟨id, fun _ => rfl⟩

theorem Budgeted.trans {c : Machine} (h : Budgeted a b) (h' : Budgeted b c) : Budgeted a c :=
  ⟨h'.1 ∘ h.1, fun k => (h'.2 k).trans (h.2 k)⟩

theorem budgeted_of_parts (h : b.reef.parts = a.reef.parts) : Budgeted a b := ⟨fun ha => h ▸ ha, fun k => by simp [Machine.rpart, h]⟩

theorem budgeted_modRpart (a : Machine) (k : Nat) {f : ReefPart → ReefPart} (hf : ∀ r, (f r).budget = r.budget) :
    Budgeted a (a.modRpart k f) := by
  refine ⟨modRpart_twf k f, fun j => ?_⟩
  rw [modRpart_rpart]
  split
  next h => exact h ▸ hf _
  next => rfl

theorem stopHeld_budgeted (a : Machine) (k : Nat) : Budgeted a (a.stopHeld k) := by
  unfold Machine.stopHeld
  split
  · exact budgeted_modRpart _ _ fun r => by split <;> rfl
  · exact .refl a

theorem DiesOf.budgeted (h : DiesOf a b) : Budgeted a b := by
  obtain ⟨ds, hds⟩ := h.reef
  exact budgeted_of_parts (by rw [hds])

theorem withSamples_budgeted (a : Machine) (l : List Nat) (p q : Nat) : Budgeted a (withSamples a l p q) := budgeted_of_parts rfl

theorem partsMeasured_budgeted (a : Machine) : Budgeted a (partsMeasured a) := by
  rw [partsMeasured_eq]
  refine foldl_reaches_all .refl .trans (fun x k => ?_) _ _
  exact budgeted_modRpart x k fun _ => rfl

theorem microHeld_budgeted (m : Machine) (dw : List Nat) (o : Nat) : Budgeted m (microHeld m dw o) := by
  have hpowers : Budgeted m (powersTaken m dw o) := (withSamples_budgeted m _ _ _).trans (powersTaken_reads m dw o).1.budgeted
  have hstop (x : Machine) : Budgeted x (heldStopped x) := foldl_reaches_all .refl .trans stopHeld_budgeted _ _
  exact ((hpowers.trans (partsMeasured_budgeted _)).trans (pointsMoved_reads _).1.budgeted).trans (hstop _)

theorem microHeld_rateUp (hwf : twf ReefPart.reset m.reef.parts = true) (dw : List Nat) (o : Nat) : (microHeld m dw o).rateUp = m.rateUp := by
  have hmicro : MicroOf m (microHeld m dw o) :=
    List.foldlRecOn _ _ (motive := MicroOf m) (microMoved_micro m dw o) fun _ h k _ => stopHeld_micro h k
  obtain ⟨htwf, hb⟩ := microHeld_budgeted m dw o
  exact hmicro.rateUp (budgetInForce_congr hwf (htwf hwf) hb)

/-- Until the ballasts move, a pre-ramp that no hold stops is as it was. -/
theorem microHeld_rpart (hi : i < 8) (hphase : (m.rpart i).phase = 2) (hheld : m.held i = false) (dw : List Nat) (o : Nat) :
    MicroOf m (microHeld m dw o) ∧ ∃ w, (microHeld m dw o).rpart i = { m.rpart i with attributed := w } := by
  have h : MicroOf m (microHeld m dw o) ∧ (microHeld m dw o).rpart i = (microMoved m dw o).rpart i :=
    List.foldlRecOn _ _ (motive := fun x => MicroOf m x ∧ x.rpart i = (microMoved m dw o).rpart i) ⟨microMoved_micro m dw o, rfl⟩
      fun x ⟨hx, hr⟩ k _ => ⟨stopHeld_micro hx k, (stopHeld_rpart hx hheld k).trans hr⟩
  refine ⟨h.1, tilePower (powersTaken m dw o) i, h.2.trans ((microMoved_rpart m dw o i).trans ((if_pos hi).trans ?_))⟩
  simp [measuredPart, hphase]

/-- A partition's ballast after one microsecond. -/
def movedBallast (m : Machine) (up down : Nat) (p : ReefPart) : ReefPart :=
  if p.phase = 2 ∧ p.ramping then { p with ballast := min p.target (p.ballast + up) }
  else if p.phase = 3 then
    let b := p.ballast - down
    { p with ballast := b, phase := if b = 0 then 0 else 3 }
  else match p.withdrawUntil with
    | some t =>
      if p.target ≤ p.attributed ∨ t.toNat ≤ m.ns then { p with ballast := 0, withdrawUntil := if t.toNat ≤ m.ns then none else p.withdrawUntil }
      else p
    | none => p

theorem moveBallast_eq (m : Machine) (up down i : Nat) : m.moveBallast up down i = m.modRpart i (movedBallast m up down) := rfl

theorem PartsOf.movedBallast (h : PartsOf m a) (up down : Nat) : Machine.movedBallast a up down = Machine.movedBallast m up down := by
  obtain ⟨ps, rfl⟩ := h
  rfl

theorem ballastsMoved_reads (m : Machine) (up down : Nat) : MicroOf m (ballastsMoved m up down) ∧
    ∀ i, (ballastsMoved m up down).rpart i = if i < 8 then movedBallast m up down (m.rpart i) else m.rpart i := by
  obtain ⟨hof, hread⟩ := foldl_read (P := PartsOf m) (g := fun a i => a.moveBallast up down i) (f := fun _ => movedBallast m up down)
    (fun a i h => ⟨h.modRpart i (movedBallast a up down), fun k =>
      (modRpart_rpart a i (movedBallast a up down) k).trans (by rw [h.movedBallast])⟩) (range_nodup 8) (.refl m)
  obtain ⟨hof', -⟩ := foldl_modRdie ((List.range 8).foldl (fun a i => a.moveBallast up down i) m)
    (fun _ r => { r with resetBallast := r.resetBallast - down }) (range_nodup 4)
  exact ⟨hof.micro.trans hof'.micro, fun i => (hof'.rpart i).trans ((hread i).trans (by simp only [List.mem_range]))⟩

/-- The rest of the microsecond leaves Reef but for phases, and every ballast. -/
def BallastKept (a b : Machine) : Prop := MicroOf a b ∧ ∀ k, (b.rpart k).ballast = (a.rpart k).ballast

theorem BallastKept.refl (a : Machine) : BallastKept a a := ⟨.refl a, fun _ => rfl⟩

theorem BallastKept.trans {c : Machine} (h : BallastKept a b) (h' : BallastKept b c) : BallastKept a c :=
  ⟨h.1.trans h'.1, fun k => (h'.2 k).trans (h.2 k)⟩

theorem ballastKept_modRpart (a : Machine) (k : Nat) {f : ReefPart → ReefPart} (hf : ∀ r, (f r).ballast = r.ballast) :
    BallastKept a (a.modRpart k f) := by
  refine ⟨(MicroOf.refl a).modRpart k f, fun j => ?_⟩
  rw [modRpart_rpart]
  split
  next h => exact h ▸ hf _
  next => rfl

theorem preRampTurn_ballastKept (a : Machine) (k : Nat) : BallastKept a (preRampTurn a k) := by
  unfold preRampTurn
  split
  · rcases beginPreRamp_cases a k with h | ⟨c, h⟩
    · rw [h]; exact .refl a
    · rw [h]; exact ballastKept_modRpart _ _ fun _ => rfl
  · exact .refl a

theorem settlePhase_ballastKept (a : Machine) (k : Nat) : BallastKept a (a.settlePhase k) := by
  unfold Machine.settlePhase
  refine ballastKept_modRpart _ _ fun r => ?_
  split
  · rfl
  · split <;> rfl

theorem phasesSettled_ballastKept (a : Machine) : BallastKept a (phasesSettled a) :=
  (foldl_reaches_all .refl .trans preRampTurn_ballastKept _ _).trans (foldl_reaches_all .refl .trans settlePhase_ballastKept _ _)

theorem ballastLogged_reef (a : Machine) : (ballastLogged a).reef.parts = a.reef.parts ∧ (ballastLogged a).reef.noticed = a.reef.noticed := by
  have h := chargeBallast_reef a
  unfold ballastLogged
  generalize a.chargeBallast = c at h ⊢
  rw [modReef_reef, ← h]
  exact ⟨rfl, rfl⟩

theorem noticeStep_idle (h : m.reef.noticed = none) : m.noticeStep = m := if_pos (.inl (by simp [h]))

theorem held_noticed (h : m.held i = false) : m.reef.noticed = none := by
  rw [← Option.isNone_iff_eq_none]
  unfold Machine.held at h
  simp only [Bool.or_eq_false_iff] at h
  obtain ⟨⟨⟨-, hnotice⟩, -⟩, -⟩ := h
  simpa using hnotice

/-- A running pre-ramp's ballast rises at the rate in force, less what the package's slope exceeds it by, to STEP_W. -/
theorem reefMicro_ramp (hi : i < 8) (hwf : twf ReefPart.reset m.reef.parts = true) (hphase : (m.rpart i).phase = 2)
    (hramping : (m.rpart i).ramping = true) (hheld : m.held i = false) (dw : List Nat) (o : Nat) : ((m.reefMicro dw o).rpart i).ballast =
      min (m.rpart i).target ((m.rpart i).ballast + (m.rateUp - slopeExcess (samplesAfter m dw o) m.rateUp true)) := by
  obtain ⟨up, down, hup, hstages⟩ := reefMicro_stages m dw o
  obtain ⟨hheldOf, w, hpart⟩ := microHeld_rpart hi hphase hheld dw o
  obtain ⟨hmovedOf, hmoved⟩ := ballastsMoved_reads (microHeld m dw o) up down
  obtain ⟨hsettledOf, hsettled⟩ := phasesSettled_ballastKept (ballastsMoved (microHeld m dw o) up down)
  obtain ⟨hparts, hnoticed⟩ := ballastLogged_reef (phasesSettled (ballastsMoved (microHeld m dw o) up down))
  have hnone : (ballastLogged (phasesSettled (ballastsMoved (microHeld m dw o) up down))).reef.noticed = none := by
    rw [hnoticed, ((hheldOf.trans hmovedOf).trans hsettledOf).noticed, held_noticed hheld]
  have hrate := microHeld_rateUp hwf dw o
  calc ((m.reefMicro dw o).rpart i).ballast
    _ = ((ballastLogged (phasesSettled (ballastsMoved (microHeld m dw o) up down))).rpart i).ballast := by rw [hstages, noticeStep_idle hnone]
    _ = ((phasesSettled (ballastsMoved (microHeld m dw o) up down)).rpart i).ballast := by rw [Machine.rpart, hparts]; rfl
    _ = ((ballastsMoved (microHeld m dw o) up down).rpart i).ballast := hsettled i
    _ = (movedBallast (microHeld m dw o) up down { m.rpart i with attributed := w }).ballast := by rw [hmoved i, if_pos hi, hpart]
    _ = min (m.rpart i).target ((m.rpart i).ballast + up) := by rw [movedBallast, if_pos ⟨hphase, hramping⟩]
    _ = _ := by rw [hup, hrate]

end

/-! ### A microsecond's figures -/

section
variable (m : Machine) (dw : List Nat) (o : Nat)

theorem reefMicro_averages : (m.reefMicro dw o).reef.samples = samplesAfter m dw o ∧
    (m.reefMicro dw o).reef.p100us = average (samplesAfter m dw o) 100 ∧
    (m.reefMicro dw o).reef.p1ms = average (samplesAfter m dw o) 1000 := by
  obtain ⟨hl, hp, hq⟩ := (reefMicro_steady m dw o).averages
  obtain ⟨hl', hp', hq'⟩ := microMoved_averages m dw o
  exact ⟨hl.trans hl', hp.trans hp', hq.trans hq'⟩

theorem reefMicro_power {d : Nat} (hd : d < 4) : ((m.reefMicro dw o).rdie d).power = dw.getD d 0 := by
  rw [((reefMicro_steady m dw o).dies d).1, microMoved_rdie]
  split
  · rfl
  · simp [withPower]

theorem reefMicro_attributed {i : Nat} (hi : i < 8) : ((m.reefMicro dw o).rpart i).attributed = sumList ((List.range 4).map fun d =>
    (dw.getD d 0 - m.ballastOn d) * m.workOn i d / max 1 (sumList ((List.range 8).map fun j => m.workOn j d))) := by
  rw [(reefMicro_steady m dw o).parts i, microMoved_rpart, if_pos hi]
  exact powersTaken_tilePower m dw o i

theorem reefMicro_vset {d : Nat} (hd : d < 4) (hpresent : bitAt m.fuse.cdieMask d = true) : ((m.reefMicro dw o).rdie d).vset =
    if (m.rdie d).vset < m.vaim d then min (m.vaim d) ((m.rdie d).vset + 10) else max (m.vaim d) ((m.rdie d).vset - 10) := by
  rw [((reefMicro_steady m dw o).dies d).2, microMoved_rdie, if_pos ⟨hd, hpresent⟩]
  exact movedDie_vset m d

theorem reefMicro_vset_absent {d : Nat} (hd : d < 4) (habsent : bitAt m.fuse.cdieMask d = false) :
    ((m.reefMicro dw o).rdie d).vset = (m.rdie d).vset := by
  rw [((reefMicro_steady m dw o).dies d).2, microMoved_rdie, if_neg (by simp [habsent]), if_pos hd]
  rfl

end

/-! ### The cap loop (R373, R374) -/

section
variable {m : Machine}

/-- Above the cap, before the dies or the releases are touched. -/
def limited (m : Machine) : Machine := m.modReef fun r => { r with capLimiting := true, belowSince := none }

theorem capStep_above (h : m.capInForce < m.reef.p100us) : m.capStep =
    match m.aboveFloor with
    | [] => if m.reef.capHold then limited m
        else ((limited m).modReef fun r => { r with capHold := true, cntCapHold := satAdd32 r.cntCapHold 1 }).raise 484 0
    | ds => ds.foldl (fun (m : Machine) d => m.modRdie d fun r => { r with capDrop := r.capDrop + 5 }) (limited m) := by
  unfold Machine.capStep
  dsimp only
  rw [if_neg (show ¬ m.reef.p100us < m.capInForce by omega), if_pos h] <;> rfl

theorem aboveFloor_nodup (m : Machine) : m.aboveFloor.Nodup := (range_nodup 4).filter _

theorem capStep_lowers (h : m.capInForce < m.reef.p100us) (hfloor : m.aboveFloor ≠ []) : m.capStep.reef.capLimiting = true ∧
    m.capStep.reef.belowSince = none ∧ m.capStep.reef.capHold = m.reef.capHold ∧
    (∀ d ∈ m.aboveFloor, (m.capStep.rdie d).capDrop = (m.rdie d).capDrop + 5) ∧ ∀ d, d ∉ m.aboveFloor → m.capStep.rdie d = m.rdie d := by
  have hstep : m.capStep = m.aboveFloor.foldl (fun (m : Machine) d => m.modRdie d fun r => { r with capDrop := r.capDrop + 5 }) (limited m) := by
    rw [capStep_above h]
    split
    next hnil => exact absurd hnil hfloor
    next => rfl
  obtain ⟨hof, hread⟩ := foldl_modRdie (limited m) (fun _ r => { r with capDrop := r.capDrop + 5 }) (aboveFloor_nodup m)
  obtain ⟨ds, hds⟩ := hof.reef
  rw [hstep]
  refine ⟨by rw [hds]; rfl, by rw [hds]; rfl, by rw [hds]; rfl, fun d hd => ?_, fun d hd => (hread d).trans (if_neg hd)⟩
  rw [hread d, if_pos hd]
  rfl

theorem capStep_holds (h : m.capInForce < m.reef.p100us) (hfloor : m.aboveFloor = []) (hhold : m.reef.capHold = false) :
    m.capStep.reef = { m.reef with capLimiting := true, belowSince := none, capHold := true, cntCapHold := satAdd32 m.reef.cntCapHold 1 } := by
  rw [capStep_above h]
  split
  · rw [hhold]
    exact Kept.reef (W := [.ttl]) (raise_kept .refl _ _ (by decide)) (by decide)
  next hne => exact absurd hfloor hne

/-- Below the cap no hold of the cap stands. -/
def unheldCap (m : Machine) : Machine := m.modReef fun r => { r with capHold := false }

/-- The instant since which the package has been below the cap. -/
def belowFrom (m : Machine) : DWord := m.reef.belowSince.getD m.time.now

theorem capStep_below (h : m.reef.p100us < m.capInForce) : m.capStep =
    if m.reef.p100us * 100 < m.capInForce * 95 then
      let a := (unheldCap m).modReef fun r => { r with belowSince := some (belowFrom m) }
      if (belowFrom m).toNat + 1000000 ≤ m.ns then
        let a := (List.range 4).foldl (fun (m : Machine) d => m.modRdie d fun r => { r with capDrop := r.capDrop - 5 }) a
        a.modReef fun r => { r with capLimiting := r.dies.any fun e => e.2.capDrop != 0 }
      else a
    else (unheldCap m).modReef fun r => { r with belowSince := none } := by
  unfold Machine.capStep
  dsimp only
  rw [if_pos h, if_neg (show ¬ m.capInForce < m.reef.p100us by omega)] <;> rfl

theorem capStep_waits (h : m.reef.p100us < m.capInForce) (hlow : m.reef.p100us * 100 < m.capInForce * 95)
    (hwait : m.ns < (belowFrom m).toNat + 1000000) :
    m.capStep = (unheldCap m).modReef fun r => { r with belowSince := some (belowFrom m) } := by
  rw [capStep_below h, if_pos hlow]
  exact if_neg (by omega)

theorem capStep_near (h : m.reef.p100us < m.capInForce) (hhigh : m.capInForce * 95 ≤ m.reef.p100us * 100) :
    m.capStep = (unheldCap m).modReef fun r => { r with belowSince := none } := by
  rw [capStep_below h, if_neg (by omega)]

/-- After 1 ms below 95 % the cap loop gives 5 mV back to every die. -/
theorem capStep_gives (h : m.reef.p100us < m.capInForce) (hlow : m.reef.p100us * 100 < m.capInForce * 95)
    (hlong : (belowFrom m).toNat + 1000000 ≤ m.ns) : m.capStep.reef.capHold = false ∧ m.capStep.reef.belowSince = some (belowFrom m) ∧
      ∀ d < 4, (m.capStep.rdie d).capDrop = (m.rdie d).capDrop - 5 := by
  have hstep : m.capStep = ((List.range 4).foldl (fun (m : Machine) d => m.modRdie d fun r => { r with capDrop := r.capDrop - 5 })
      ((unheldCap m).modReef fun r => { r with belowSince := some (belowFrom m) })).modReef
        fun r => { r with capLimiting := r.dies.any fun e => e.2.capDrop != 0 } := by
    rw [capStep_below h, if_pos hlow]
    exact if_pos hlong
  obtain ⟨hof, hread⟩ := foldl_modRdie ((unheldCap m).modReef fun r => { r with belowSince := some (belowFrom m) })
    (fun _ r => { r with capDrop := r.capDrop - 5 }) (range_nodup 4)
  obtain ⟨ds, hds⟩ := hof.reef
  rw [hstep]
  generalize (List.range 4).foldl _ _ = a at hread hds ⊢
  refine ⟨by rw [modReef_reef, hds]; rfl, by rw [modReef_reef, hds]; rfl, fun d hd => ?_⟩
  exact congrArg ReefDie.capDrop ((hread d).trans (if_pos (List.mem_range.mpr hd)))

theorem capStep_unholds (h : m.reef.p100us < m.capInForce) : m.capStep.reef.capHold = false := by
  by_cases hlow : m.reef.p100us * 100 < m.capInForce * 95
  · by_cases hlong : (belowFrom m).toNat + 1000000 ≤ m.ns
    · exact (capStep_gives h hlow hlong).1
    · rw [capStep_waits h hlow (by omega)]
      rfl
  · rw [capStep_near h (by omega)]
    rfl

end

/-! ### Dies and the ballast hold (R371, R372, R383) -/

theorem modRdie_only (m : Machine) (d : Nat) (f : ReefDie → ReefDie) :
    (m.modRdie d f).rdie d = f (m.rdie d) ∧ ∀ k, k ≠ d → (m.modRdie d f).rdie k = m.rdie k :=
  ⟨(modRdie_rdie ..).trans (if_pos rfl), fun _ hk => (modRdie_rdie ..).trans (if_neg hk)⟩

theorem raise_reef (m : Machine) (src unit : Nat) : (m.raise src unit).reef = m.reef :=
  Kept.reef (W := [.ttl]) (raise_kept .refl _ _ (by decide)) (by decide)

theorem raise_rdie (m : Machine) (src unit d : Nat) : (m.raise src unit).rdie d = m.rdie d := by
  rw [Machine.rdie, raise_reef]
  rfl

/-- Settles O44: each stage of the microsecond leaves what the others measured or moved; the cap loop, the idle dies and the holds are one
record's change each. -/
theorem reefMeasuresCapsAndHolds : Obligations.ReefMeasuresCapsAndHolds := by
  unfold Obligations.ReefMeasuresCapsAndHolds
  refine ⟨?measures, ?ramps, ?above, ?below, ?idle, ?fault, ?ballast⟩
  case measures =>
    refine fun dw o s => .of_done rfl ⟨?_, fun d hd => reefMicro_power s.m dw o hd, fun i hi => reefMicro_attributed s.m dw o hi,
      fun d hd hp => reefMicro_vset s.m dw o hd hp, fun d hd ha => reefMicro_vset_absent s.m dw o hd ha⟩
    exact reefMicro_averages s.m dw o
  case ramps => exact fun i dw o s hi hwf hp hr hh => .of_done rfl (reefMicro_ramp hi hwf hp hr hh dw o)
  case above =>
    refine fun s h => ⟨fun hfloor => .of_done rfl (capStep_lowers h hfloor), fun hfloor hhold => .of_done rfl ?_⟩
    rw [capStep_holds h hfloor hhold]
    exact ⟨rfl, rfl, rfl⟩
  case below =>
    refine fun s h => .of_done rfl ⟨capStep_unholds h, fun hlow => ?_, fun hhigh => ?_⟩
    · by_cases hlong : (belowFrom s.m).toNat + 1000000 ≤ s.m.ns
      · obtain ⟨-, hsince, hdies⟩ := capStep_gives h hlow hlong
        exact ⟨hsince, fun _ => hdies, fun hwait => absurd hlong (Nat.not_le.mpr hwait)⟩
      · rw [capStep_waits h hlow (by omega)]
        exact ⟨rfl, fun h => absurd h hlong, fun _ => rfl⟩
    · rw [capStep_near h hhigh]
      exact ⟨rfl, rfl⟩
  case idle =>
    refine fun d s => ⟨fun hlive hlong => .of_done (congrArg (done s) (if_neg (by simp [hlive]; omega))) (modRdie_only ..),
      fun h => .of_done rfl (if_pos h)⟩
  case fault =>
    refine fun d s => ⟨fun hp => .of_done (congrArg (done s) (if_pos hp)) ?_, fun ha => .of_done rfl (if_neg (by simp [ha]))⟩
    simp only [raise_rdie]
    exact modRdie_only ..
  case ballast =>
    refine fun s => ⟨fun hh hb => .of_done (congrArg (done s) (if_pos ⟨by simp [hh], hb⟩)) ?_, fun h => .of_done rfl (if_neg ?_),
      fun hh hb => .of_done (congrArg (done s) (if_pos ⟨hh, hb⟩)) rfl, fun h => .of_done rfl (if_neg ?_)⟩
    · rw [raise_reef]
      exact ⟨rfl, rfl⟩
    · rintro ⟨hh, hb⟩
      rcases h with h | h
      · simp [h] at hh
      · omega
    · rintro ⟨hh, hb⟩
      rcases h with h | h
      · simp [h] at hh
      · omega

end Sys2Proof.Machine

/-! ## Hangs: luff's expiries, the ends of the units' resets, and the ladder (15 R420-R424, R431, R434-R436, R439, R443-R446) -/

namespace Sys2Proof.Machine

/-! ### What raised events and counters leave -/

section
variable (m : Machine)

theorem expire_keeps (n : Nat) : Kept [.luff] m (m.expire n) := expire_kept .refl n (by decide)
theorem raiseCtx_keeps (src unit ctx : Nat) : Kept [.ttl] m (m.raiseCtx src unit ctx) := raiseCtx_kept .refl _ _ _ (by decide)
theorem modLuff_keeps (f : Luff → Luff) : Kept [.luff] m (m.modLuff f) := modLuff_kept .refl f (by decide)
theorem modEngine_keeps (e : Nat) (f : CeEng → CeEng) : Kept [.eng] m (m.modEngine e f) := modEngine_kept .refl e f (by decide)
theorem modTile_keeps (l : Nat) (f : TileRec → TileRec) : Kept [.tiles] m (m.modTile l f) := modTile_kept .refl l f (by decide)

@[simp] theorem modEngine_engine (e : Nat) (f : CeEng → CeEng) (k : Nat) :
    (m.modEngine e f).engine k = if k = e then f (m.engine e) else m.engine k := tget_tset _ _ _ _ _

theorem modEngine_engine_same (e : Nat) (f : CeEng → CeEng) : (m.modEngine e f).engine e = f (m.engine e) :=
  (modEngine_engine m e f e).trans (if_pos rfl)

end

section
variable {m a : Machine} {W : List Area}

theorem Kept.engine (h : Kept W m a) (hw : Area.eng ∉ W) (e : Nat) : a.engine e = m.engine e :=
  congrArg (fun t : Table CeEng => tget CeEng.reset t e) (h.eng hw)

theorem Kept.ns (h : Kept W m a) (hw : Area.time ∉ W) : a.ns = m.ns := congrArg (fun t : TimeBlk => t.now.toNat) (h.time hw)

theorem Kept.partTiles (h : Kept W m a) (hpart : Area.part ∉ W) (hfuse : Area.fuse ∉ W) (i : Nat) : a.partTiles i = m.partTiles i := by
  simp only [Machine.partTiles, Machine.shareStart, Machine.tileCount, Machine.cdieCount, Machine.parts, h.part hpart, h.fuse hfuse]

theorem Kept.clusterTiles (h : Kept W m a) (hpart : Area.part ∉ W) (hfuse : Area.fuse ∉ W) (i d : Nat) :
    a.clusterTiles i d = m.clusterTiles i d := by rw [Machine.clusterTiles, h.partTiles hpart hfuse]; rfl

theorem Kept.unitSlots (h : Kept W m a) (hpart : Area.part ∉ W) (i : Nat) : a.unitSlots i = m.unitSlots i := by
  simp only [Machine.unitSlots, Machine.shareStart, Machine.parts, h.part hpart]

/-! ### An expired counter (R420) -/

/-- Every counter's EXPIRED bit and count are as they were. -/
def SameExpiries (m a : Machine) : Prop := ∀ n,
  (tget LuffUnit.reset a.luff.units n).expired = (tget LuffUnit.reset m.luff.units n).expired ∧
  (tget LuffUnit.reset a.luff.units n).expireCnt = (tget LuffUnit.reset m.luff.units n).expireCnt

theorem SameExpiries.refl (m : Machine) : SameExpiries m m := fun _ => ⟨rfl, rfl⟩

theorem SameExpiries.trans {b : Machine} (h : SameExpiries m a) (h' : SameExpiries a b) : SameExpiries m b :=
  fun n => ⟨(h' n).1.trans (h n).1, (h' n).2.trans (h n).2⟩

theorem SameExpiries.of_units (h : a.luff.units = m.luff.units) : SameExpiries m a := fun n => by simp [h]

theorem SameExpiries.of_kept (h : Kept W m a) (hw : Area.luff ∉ W) : SameExpiries m a := .of_units (by rw [h.luff hw])

theorem luffStep_sameExpiries (m : Machine) (k : Nat) : SameExpiries m (m.luffStep k) := by
  intro n
  simp only [Machine.luffStep, tget_tset]
  split
  next h => exact h ▸ ⟨rfl, rfl⟩
  next => exact ⟨rfl, rfl⟩

theorem expire_expired (m : Machine) (n : Nat) : m.unitExpired (m.expire n) n := by
  simp [Machine.unitExpired, Machine.expire]

theorem unitExpired_of_same {n : Nat} (h : SameExpiries (m.expire n) a) : m.unitExpired a n :=
  ⟨(h n).1.trans (expire_expired m n).1, (h n).2.trans (expire_expired m n).2⟩

end

/-! ### Tiles (R434, R446) -/

section
variable {l : TileId} {s : State}

/-- Whether a tile's counter expired before, within the last 24 hours. -/
def expiredAgain (m : Machine) (l : Nat) : Bool :=
  match (m.tileAt l).lastExpiry with
  | some t => decide (m.ns < t.toNat + 86400000000000)
  | none => false

/-- What an expiry leaves of its tile. -/
theorem luffTileExpiry_closes (h : s.m.canExpire l = true) : Completes (.luffTileExpiry l) s fun m => s.m.unitExpired m l ∧
    m.tileAt l = { (s.m.tileAt l).lost s.m.time.now (expiredAgain s.m l) with lastExpiry := some s.m.time.now } := by
  let raised := (s.m.expire l).raiseTile 536 l
  have hraised : Kept [.luff, .ttl] s.m raised :=
    ((expire_keeps s.m l).mono (by decide)).trans ((raiseTile_keeps _ _ _).mono (by decide))
  let lost := raised.loseTile l (expiredAgain s.m l)
  have hlost : Kept [.tiles, .ctx] raised lost := loseTile_keeps raised l _
  have he : exec (.luffTileExpiry l) s = done s (lost.modTile l fun t => { t with lastExpiry := some s.m.time.now }) :=
    congrArg (done s) (if_pos h)
  refine .of_done he ⟨unitExpired_of_same ?_, ?_⟩
  · exact (SameExpiries.of_kept (raiseTile_keeps _ 536 l) (by decide)).trans
      (.of_kept (hlost.trans ((modTile_keeps lost l _).mono (by decide))) (by decide))
  · refine (modTile_tileAt lost l _ l).trans ((if_pos rfl).trans ?_)
    rw [show lost.tileAt l = _ from loseTile_tileAt raised l l _, if_pos rfl, hraised.tileAt (by decide), hraised.time (by decide)]

theorem tileSelfTestDone_ends (h : (s.m.tileAt l).resetAt.isSome = true) (ok : Bool) : Completes (.tileSelfTestDone l ok) s fun m =>
    (m.tileAt l).resetAt = none ∧ (m.tileAt l).store = [] ∧ (m.tileAt l).acc = [] ∧
    (m.tileAt l).toRetire = ((s.m.tileAt l).toRetire || !ok) ∧ (m.tileAt l).portClosed = ((s.m.tileAt l).toRetire || !ok) := by
  refine .of_done (congrArg (done s) (if_pos h)) ?_
  have hz := (modTile_tileAt s.m l (fun t => { t.zeroed with
    resetAt := none, phase := .idle, loops := [], portClosed := t.toRetire || !ok, toRetire := t.toRetire || !ok }) l).trans (if_pos rfl)
  generalize s.m.modTile l _ = z at hz ⊢
  have hread : (if ok then z else z.raise 549 l).tileAt l = z.tileAt l := by
    split
    · rfl
    · exact (raise_keeps z 549 l).tileAt (by decide) l
  rw [hread, hz]
  exact ⟨rfl, rfl, rfl, rfl, rfl⟩

end

/-! ### Copy engines (R435) -/

section
variable {e : Fin 20} {c q : Nat} {k : CeCmd} {s : State} {m a : Machine}

/-- What a command leaves its queue with reads the queue, the ring, the time and host memory alone. -/
theorem Kept.ceEnded {W : List Area} (h : Kept W m a) (hctx : Area.ctx ∉ W) (htime : Area.time ∉ W) (hmem : Area.hostMem ∉ W) {b : Machine}
    (hb : a.ceEnded b c q k) : m.ceEnded b c q k := by
  have hslot : a.ceSlot c = m.ceSlot c := by rw [Machine.ceSlot, h.ctxAt hctx]; rfl
  unfold Machine.ceEnded at hb ⊢
  rwa [h.queue hctx, hslot, h.ctxAt hctx, h.ns htime, h.hostMem hmem] at hb

theorem ceFinish_sameExpiries (m : Machine) (c q : Nat) (k : CeCmd) : SameExpiries m (m.ceFinish c q k) := by
  have hflag : SameExpiries m (m.flagWritten k) := by
    unfold Machine.flagWritten
    split
    · exact (SameExpiries.of_units rfl).trans (luffStep_sameExpiries _ _)
    · exact .refl m
  have hrecord (x : Machine) : SameExpiries x (x.recordWritten c q k) := by
    unfold Machine.recordWritten
    split
    · exact (SameExpiries.of_units rfl).trans (luffStep_sameExpiries _ _)
    · exact .refl x
  exact (hflag.trans (hrecord _)).trans (.of_kept (ceFinish_keeps m c q k) (by decide))

theorem luffCeExpiry_ends (hwork : s.m.engineWork e = some (c, q)) (hcur : (s.m.queue c q).cur = some k) (hfence : s.m.fenced c = false) :
    Completes (.luffCeExpiry e none) s fun m => s.m.unitExpired m (128 + e) ∧ (m.engine e).inReset = true ∧
      s.m.ceEnded m c q { k with status := 0x0B } := by
  let raised := (s.m.expire (128 + e)).raiseCtx 537 e c
  have hraised : Kept [.luff, .ttl] s.m raised :=
    ((expire_keeps s.m _).mono (by decide)).trans ((raiseCtx_keeps _ _ _ _).mono (by decide))
  let ended := raised.ceFinish c q { k with status := 0x0B }
  have he : exec (.luffCeExpiry e none) s = done s (ended.modEngine e fun r => { r with inReset := true }) := by
    change execLuffCeExpiry e none s = _
    have hcur' : (raised.queue c q).cur = some k := by rw [hraised.queue (by decide), hcur]
    have hfence' : raised.fenced c = false := by rw [hraised.fenced (by decide), hfence]
    unfold execLuffCeExpiry
    dsimp only
    rw [hwork]
    dsimp only
    rw [show (((s.m.expire (128 + e)).raiseCtx 537 e c).queue c q).cur = some k from hcur']
    dsimp only
    rw [show ((s.m.expire (128 + e)).raiseCtx 537 e c).fenced c = false from hfence', if_neg Bool.false_ne_true]
  refine .of_done he ⟨unitExpired_of_same ?_, ?_, ?_⟩
  · exact ((SameExpiries.of_kept (raiseCtx_keeps _ 537 e c) (by decide)).trans (ceFinish_sameExpiries raised c q _)).trans
      (.of_kept (modEngine_keeps ended e _) (by decide))
  · rw [modEngine_engine_same]
  · have hkept : Kept [.eng] ended (ended.modEngine e fun r => { r with inReset := true }) := modEngine_keeps ended e _
    exact hraised.ceEnded (by decide) (by decide) (by decide) (ceEnded_of_finish
      ((hkept.queue (by decide) c q).trans (ceFinish_onlyQueue raised c q _).same) (hkept.hostMem (by decide)))

/-- The commands that end with a failed engine leave every engine. -/
theorem failEngine_engine (m : Machine) (e : Nat) : (m.failEngine e).engine e = { m.engine e with failed := true, inReset := false } := by
  let failed := (m.modEngine e fun r => { r with failed := true, inReset := false }).raise (460 + e) e
  have hrest : Kept [.txn, .ctx] failed (m.failEngine e) := by
    unfold Machine.failEngine
    refine .foldl .refl fun x c h => .foldl h fun x q h => ?_
    dsimp only
    split
    · exact modCmd_kept (modQueue_kept (orphanTxns_kept h _ _ (by decide)) _ _ _ (by decide)) _ _ _ (by decide)
    · exact h
  rw [hrest.engine (by decide), (raise_keeps _ (460 + e) e).engine (by decide), modEngine_engine_same]

theorem luffCeExpiry_resets (ok : Bool) (h : (s.m.engine e).inReset = true) : Completes (.luffCeExpiry e (some ok)) s fun m =>
    (m.engine e).inReset = false ∧ (m.engine e).failed = ((s.m.engine e).failed || !ok) := by
  have he : exec (.luffCeExpiry e (some ok)) s =
      done s (if ok then s.m.modEngine e fun r => { r with inReset := false } else s.m.failEngine e) :=
    congrArg (done s) (if_neg (by simp [h]))
  refine .of_done he ?_
  split
  next hok => rw [modEngine_engine_same]; exact ⟨rfl, by simp [hok]⟩
  next hok => rw [failEngine_engine]; exact ⟨rfl, by simp [hok]⟩

end

/-! ### Links (03 R95, R96) -/

section
variable {m a : Machine} (p reason : Nat)

theorem toDetour_fwdAt (m : Machine) (d : Nat) (l : List RxFrame) :
    ((m.toDetour d l).fwdAt d).detq = (m.fwdAt d).detq ++ l.take (detqSize - (m.fwdAt d).detq.length) := by
  unfold Machine.toDetour
  dsimp only
  split
  · rw [setFwd_fwdAt, if_pos rfl]
  · rw [(raise_keeps _ _ _).fwdAt (by decide), setFwd_fwdAt, if_pos rfl]

theorem toDetour_keeps (m : Machine) (d : Nat) (l : List RxFrame) : Kept [.fwd, .ttl] m (m.toDetour d l) :=
  toDetour_kept .refl d l (by decide) (by decide)

/-- Hard loss resets its own port's link, and its frames go to the detour queue of its die. -/
theorem hardLoss_lostLink (m : Machine) : m.lostLink (m.hardLoss p reason) p reason := by
  let moved := (m.modPort p resetLink).toDetour (dieOfPort p) (heldFrames (m.port p))
  let idled := moved.modPort p fun r => { r with
    stat := idleStat r.stat .holdoff reason
    cnt := { r.cnt with loss := satAdd32 r.cnt.loss 1 }
    train := { r.train with attempts := r.train.attempts + 1 } }
  have hrest : Kept [.ttl, .hly, .time, .tkp, .slc, .out] idled (m.hardLoss p reason) :=
    floodOwn_kept (aloneRoot_kept (modDb_kept (raise_kept .refl _ _ (by decide)) _ (by decide)) _ (by decide)) (by decide) (by decide)
      (by decide) (by decide) (by decide)
  have hmoved (k : Nat) : moved.port k = if k = p then resetLink (m.port p) else m.port k :=
    ((toDetour_keeps (m.modPort p resetLink) _ _).port (by decide) k).trans (modPort_port m p _ k)
  refine ⟨?_, fun k hk => ?_, ?_⟩
  · rw [hrest.port (by decide), modPort_port, if_pos rfl, hmoved, if_pos rfl]
    rfl
  · rw [hrest.port (by decide), modPort_port, if_neg hk, hmoved, if_neg hk]
  · rw [hrest.fwdAt (by decide)]
    exact toDetour_fwdAt (m.modPort p resetLink) (dieOfPort p) (heldFrames (m.port p))

variable {p reason} in
theorem Kept.lostLink {W : List Area} (h : Kept W m a) (hshr : Area.shr ∉ W) (hfwd : Area.fwd ∉ W) {b : Machine}
    (hb : a.lostLink b p reason) : m.lostLink b p reason := by
  obtain ⟨hport, hothers, hdetq⟩ := hb
  rw [h.port hshr] at hport hdetq
  rw [h.fwdAt hfwd] at hdetq
  exact ⟨hport, fun k hk => (hothers k hk).trans (h.port hshr k), hdetq⟩

end

/-! ### Collective units (R436) -/

section
variable {i : PartId} {s : State}

theorem luffCollExpiry_reports {k : Fin 256} {r : CollRec} (hr : s.m.collAt k = some r) (hbusy : r.busy = true) :
    Completes (.luffCollExpiry k) s fun m => s.m.unitExpired m (172 + k.val) ∧
      m.luff.collResets.contains (s.m.ctxPart r.ctx) = true ∧
      m.out = s.m.out ++ [Out.mgmt s.m.hly.reg.master (.flowReport (s.m.ctxAt r.ctx).base.tag r.stream (s.m.flowGen r.stream))] := by
  let raised := (s.m.expire (172 + k.val)).raiseCtx 539 k.val r.ctx
  let waits := raised.modLuff fun l =>
    { l with collResets := if l.collResets.contains (s.m.ctxPart r.ctx) then l.collResets else l.collResets ++ [s.m.ctxPart r.ctx] }
  have hraised : Kept [.luff, .ttl] s.m raised :=
    ((expire_keeps s.m _).mono (by decide)).trans ((raiseCtx_keeps _ _ _ _).mono (by decide))
  have hpart : raised.ctxPart r.ctx = s.m.ctxPart r.ctx := congrArg (fun p : Part => r.ctx * 2 ^ p.log2k / 64) (hraised.part (by decide))
  have he : exec (.luffCollExpiry k) s =
      done s (waits.reportFlow (waits.ctxAt r.ctx).base.tag r.stream (waits.flowGen r.stream)) := by
    change execLuffCollExpiry k s = _
    unfold execLuffCollExpiry
    dsimp only
    rw [hr]
    dsimp only
    rw [if_pos hbusy, show ((s.m.expire (172 + k.val)).raiseCtx 539 k.val r.ctx).ctxPart r.ctx = s.m.ctxPart r.ctx from hpart]
  have hwaits : Kept [.luff, .ttl] s.m waits := hraised.trans ((modLuff_keeps _ _).mono (by decide))
  refine .of_done he ⟨unitExpired_of_same ?_, ?_, ?_⟩
  · exact (SameExpiries.of_kept (raiseCtx_keeps _ 539 k.val r.ctx) (by decide)).trans
      ((SameExpiries.of_units (a := waits) rfl).trans (.of_kept (W := [.out]) (reportFlow_kept .refl _ _ _ (by decide)) (by decide)))
  · have hlist (l : List Nat) (x : Nat) : (if l.contains x then l else l ++ [x]).contains x = true := by
      split
      · assumption
      · simp
    exact hlist _ _
  · rw [Machine.reportFlow, tell_out, hwaits.out (by decide), hwaits.hly (by decide), hwaits.ctxAt (by decide), Machine.flowGen,
      hwaits.strmAt (by decide)]
    rfl

theorem collUnitReset_ends (h : s.m.luff.collResets.contains i.val = true)
    (hidle : ∀ k ∈ s.m.unitSlots i, ∀ r, s.m.collAt k = some r → r.busy = false) (ok : Bool) : exec (.collUnitReset i ok) s =
      done s (if ok then s.m.modLuff fun l => { l with collResets := l.collResets.filter (· != i.val) } else s.m.failUnit i.val) := by
  have hnone : ((s.m.unitSlots i.val).any fun k => (s.m.collAt k).any (·.busy)) = false := by
    rw [List.any_eq_false]
    intro k hk
    cases hr : s.m.collAt k with
    | none => simp
    | some r => simp [hidle k hk r hr]
  exact congrArg (done s) (if_pos (by rw [h, hnone]; rfl))

theorem failUnit_fails (m : Machine) (i k : Nat) (hk : k ∈ m.unitSlots i) : k ∈ (m.failUnit i).collFailed :=
  List.mem_eraseDups.mpr (List.mem_append_right _ hk)

theorem filter_ne_contains (l : List Nat) (x : Nat) : (l.filter (· != x)).contains x = false := by simp

end

/-! ### Halyard and IN streams (R422, R439) -/

section
variable {s : State}

theorem resync_keeps (m : Machine) : Kept [.out] m m.resync := resync_kept .refl (by decide)

/-- Halyard restarts: what it had in hand is gone. -/
theorem restartHalyard_reads (m : Machine) : m.restartHalyard.hly.restarts = satAdd 65535 m.hly.restarts 1 ∧
    (m.hly.reg.state ≠ .island → m.restartHalyard.hly.reg.state = .restarting) ∧ m.restartHalyard.hly.cur = none ∧
    m.restartHalyard.hly.waiting = [] := by
  obtain ⟨a, ha, hreg, hrestarts⟩ : ∃ a, (if m.isMaster then m.dropCmds else m) = a ∧ a.hly.reg = m.hly.reg ∧
      a.hly.restarts = m.hly.restarts := by
    obtain ⟨fin, o, h⟩ := dropCmds_shape m
    split
    · exact ⟨_, h, rfl, rfl⟩
    · exact ⟨m, rfl, rfl, rfl⟩
  unfold Machine.restartHalyard
  dsimp only
  rw [ha]
  obtain ⟨b, hb, hstate, hcnt⟩ : ∃ b, (if m.hly.reg.state == .island then a else
      a.modHly fun h => { h with state := .restarting, role := .member, prepared := false }) = b ∧
      (m.hly.reg.state ≠ .island → b.hly.reg.state = .restarting) ∧ b.hly.restarts = m.hly.restarts := by
    by_cases h : m.hly.reg.state = .island
    · exact ⟨_, rfl, fun hne => absurd h hne, by rw [h]; exact hrestarts⟩
    · exact ⟨_, rfl, fun _ => by rw [if_neg (by simpa using h)]; rfl, by rw [if_neg (by simpa using h)]; exact hrestarts⟩
  rw [hb]
  let cleared : Machine := { b with hly := { b.hly with
    restarts := satAdd 65535 b.hly.restarts 1, restartTry := b.hly.restartTry + 1, work := .reset, cur := none, waiting := []
    prepWait := none, commitAt := none } }
  have hend : (if cleared.hbm.refresh then cleared else cleared.resync).hly = cleared.hly := by
    split
    · rfl
    · exact (resync_keeps cleared).hly (by decide)
  exact hend ▸ ⟨congrArg (satAdd 65535 · 1) hcnt, hstate, rfl, rfl⟩

theorem inStreamStall_reports {n : StreamId} (h : s.m.stalled n = true) : Completes (.inStreamStall n) s fun m =>
    m.luff.lastStream = n.val ∧ m.strm = s.m.strm ∧ m.out = s.m.out ++
      [Out.mgmt s.m.hly.reg.master (.flowReport (s.m.ctxAt (s.m.strmAt n).ctx).base.tag n (s.m.flowGen n))] := by
  let raised := s.m.raiseCtx 539 0xFF (s.m.strmAt n).ctx
  have hraised : Kept [.ttl] s.m raised := raiseCtx_keeps _ _ _ _
  refine .of_done (congrArg (done s) (if_pos h)) ⟨rfl, hraised.strm (by decide), ?_⟩
  have hout : raised.out = s.m.out := hraised.out (by decide)
  have hhly : raised.hly = s.m.hly := hraised.hly (by decide)
  exact congrArg₂ (fun (o : List Out) (h : Hly) => o ++ [Out.mgmt h.reg.master
    (.flowReport (s.m.ctxAt (s.m.strmAt n).ctx).base.tag n (s.m.flowGen n))]) hout hhly

end

/-! ### The ladder (R424, Table 15.3) -/

section
variable {s : State}

/-- What is lost of a list of tiles, each closed for its reset. -/
theorem foldl_loseTile_closed {m a : Machine} (h : Kept [.ttl] m a) (ls : List Nat) {l : Nat} (hl : l ∈ ls) :
    m.tileClosed (ls.foldl (fun m l => m.loseTile l false) a) l := by
  rw [Machine.tileClosed, foldl_loseTile_tileAt, if_pos hl, h.time (by decide)]
  exact ⟨rfl, rfl, rfl, rfl⟩

theorem tileClosed_of_tileAt {m a b : Machine} {l : Nat} (h : b.tileAt l = a.tileAt l) (ha : m.tileClosed a l) : m.tileClosed b l := by
  rwa [Machine.tileClosed, h]

/-- A context's engines and its collective unit are reset too; its tiles are as they were. -/
theorem closeEngines_keeps (m : Machine) (c : Nat) : Kept [.eng, .luff] m
    (let m := (m.ctxAt c).ce.queues.foldl (fun (m : Machine) q => match q.2.cur with
      | some k => m.modEngine k.engine fun r => { r with inReset := true }
      | none => m) m
    if m.coll.any fun e => e.2.any fun r => r.ctx == c then
      m.modLuff fun l => { l with collResets := (l.collResets ++ [m.ctxPart c]).eraseDups }
    else m) := by
  dsimp only
  have hengines : Kept [.eng, .luff] m ((m.ctxAt c).ce.queues.foldl (fun (m : Machine) q => match q.2.cur with
      | some k => m.modEngine k.engine fun r => { r with inReset := true }
      | none => m) m) := by
    refine .foldl .refl fun x q hx => ?_
    split
    · exact modEngine_kept hx _ _ (by decide)
    · exact hx
  exact .ite (modLuff_kept hengines _ (by decide)) hengines

theorem rungOver_context {m : Machine} {c : CtxId} (h : ∃ f ∈ m.luff.fences, f.dom = .context c ∧ f.destroy = false) :
    ∀ l ∈ m.imageTiles c, m.tileClosed (m.rungOver (.context c)) l := by
  intro l hl
  obtain ⟨f, hf, hdom, hdestroy⟩ := h
  let raised := m.raise 546 1
  let lost := (m.imageTiles c).foldl (fun (m : Machine) l => m.loseTile l false) raised
  have hraised : Kept [.ttl] m raised := raise_keeps m 546 1
  have hrest : Kept [.eng, .luff] lost (m.rungOver (.context c)) := by
    rw [Machine.rungOver, if_pos (List.any_eq_true.mpr ⟨f, hf, by simp [hdom, hdestroy]⟩)]
    exact closeEngines_keeps lost c
  exact tileClosed_of_tileAt (hrest.tileAt (by decide) l) (foldl_loseTile_closed hraised _ hl)

theorem rungOver_tile {m : Machine} {l : TileId} {i : Nat} (h : (m.tileAt l).resetAt.isSome = true)
    (hi : (firstBelow 8 fun i => (m.partTiles i).contains l.val) = some i) :
    m.rungOver (.tile l) = (m.raise 546 2).resetCluster i (l.val / 32) := by
  rw [Machine.rungOver, if_pos h, hi]

theorem rungOver_cluster {m : Machine} {i : PartId} {d : CDie} (h : ∃ l ∈ m.clusterTiles i.val d.val, (m.tileAt l).resetAt.isSome = true) :
    (m.rungOver (.cluster i d)).luff.ladderParts.contains i.val = true := by
  rw [Machine.rungOver, if_pos (List.any_eq_true.mpr h)]
  have hlist (l : List Nat) (x : Nat) : (if l.contains x then l else l ++ [x]).contains x = true := by
    split
    · assumption
    · simp
  exact hlist _ _

theorem rungOver_engine {m : Machine} {e : Fin 20} (h : (m.engine e.val).inReset = true) :
    ((m.rungOver (.engine e)).engine e.val).failed = true ∧ ((m.rungOver (.engine e)).engine e.val).inReset = false := by
  rw [Machine.rungOver, if_pos h, failEngine_engine]
  exact ⟨rfl, rfl⟩

theorem rungOver_partition {m : Machine} {i : PartId} (h : ∃ f ∈ m.luff.fences, f.dom = .partition i) :
    (m.rungOver (.partition i)).luff.ladderPkg = true := by
  obtain ⟨f, hf, hdom⟩ := h
  rw [Machine.rungOver, if_pos (List.any_eq_true.mpr ⟨f, hf, by simp [hdom]⟩)]
  rfl

/-- Without a fence no rung of a domain overruns. -/
theorem rungOver_unfenced {m : Machine} (h : m.luff.fences = []) (c : CtxId) (i : PartId) : m.rungOver (.context c) = m ∧
    m.rungOver (.partition i) = m ∧ m.rungOver .package = m :=
  ⟨if_neg (by simp [h]), if_neg (by simp [h]), if_neg (by simp [Machine.pkgFenced, h])⟩

end

/-! ### Late completions and the dump (R431, R443) -/

theorem dumpRearm_reads {m : Machine} (h : m.luff.dumpValid = true) : m.dumpRearm.luff = { m.luff with dumpValid := false } ∧
    (∀ i < 16 * storeBytes, tget Config.blank m.dumpRearm.hbm.bytes (m.dumpBase + 0x100000 + i) = Config.blank) ∧
    ∀ a, a < m.dumpBase + 0x100000 ∨ m.dumpBase + 0x100000 + 16 * storeBytes ≤ a →
      tget Config.blank m.dumpRearm.hbm.bytes a = tget Config.blank m.hbm.bytes a := by
  have hbytes (a : Nat) : tget Config.blank m.dumpRearm.hbm.bytes a =
      if m.dumpBase + 0x100000 ≤ a ∧ a < m.dumpBase + 0x100000 + 16 * storeBytes then Config.blank else tget Config.blank m.hbm.bytes a := by
    rw [Machine.dumpRearm, if_pos h]
    exact tget_tclear _ _ _ _ _
  refine ⟨by rw [Machine.dumpRearm, if_pos h], fun i hi => ?_, fun a ha => ?_⟩
  · rw [hbytes, if_pos (by omega)]
  · rw [hbytes, if_neg (by omega)]

/-- Settles O48: an expiry counts its own unit, whose work then ends or is lost; the end of a reset and a rung that overruns change the unit
they are about. -/
theorem hangsResetTheirUnits : Obligations.HangsResetTheirUnits := by
  unfold Obligations.HangsResetTheirUnits
  refine ⟨?tile, ?tested, ?engine, ?engineReset, ?link, ?coll, ?collReset, ?collIdle, ?halyard, ?stall, ?rungs, ?noRung, ?late⟩
  case tile =>
    refine fun l s => ⟨fun h => (luffTileExpiry_closes h).imp fun m ⟨hunit, htile⟩ => ⟨hunit, ?_, by rw [htile], by rw [htile]; rfl⟩,
      fun h => .of_done rfl (if_neg (by simp [h]))⟩
    rw [Machine.tileClosed, htile]
    exact ⟨rfl, rfl, rfl, rfl⟩
  case tested =>
    exact fun l ok s => ⟨fun h => tileSelfTestDone_ends h ok, fun h => .of_done rfl (if_neg (by simp [h]))⟩
  case engine => exact fun e c q k s hwork hcur hfence => luffCeExpiry_ends hwork hcur hfence
  case engineReset =>
    refine fun e ok s => ⟨luffCeExpiry_resets ok, fun h => .of_done rfl (if_pos (by simp [h])), fun h => .of_done rfl ?_⟩
    rw [h]
  case link =>
    refine fun p s => ⟨fun h => ?_, fun h => .of_done rfl (if_neg (by simp [h]))⟩
    let raised := (s.m.expire (148 + p.val)).raise 538 p.val
    have hraised : Kept [.luff, .ttl] s.m raised :=
      ((expire_keeps s.m _).mono (by decide)).trans ((raise_keeps _ _ _).mono (by decide))
    have hlost : Kept [.time, .shr, .fwd, .hly, .tkp, .slc, .ttl, .out] raised (raised.hardLoss p.val 0x0C) := by
      apply hardLoss_kept .refl <;> decide
    exact .of_done (congrArg (done s) (if_pos h)) ⟨unitExpired_of_same ((SameExpiries.of_kept (raise_keeps _ 538 p.val) (by decide)).trans
      (.of_kept hlost (by decide))), hraised.lostLink (by decide) (by decide) (hardLoss_lostLink p.val 0x0C raised)⟩
  case coll =>
    refine fun k r s hr => ⟨luffCollExpiry_reports hr, fun hidle => .of_done rfl ?_⟩
    rw [hr]
    exact if_neg (by simp [hidle])
  case collReset =>
    refine fun i s h hidle => ⟨.of_done (collUnitReset_ends h hidle true) ⟨filter_ne_contains _ _, rfl⟩,
      .of_done (collUnitReset_ends h hidle false) ⟨filter_ne_contains _ _, fun k hk => failUnit_fails s.m i k hk⟩⟩
  case collIdle => exact fun i ok s h => .of_done rfl (if_neg (by rw [h]; exact Bool.false_ne_true))
  case halyard =>
    refine fun t s => .of_done rfl ⟨unitExpired_of_same ?_, ?_⟩
    · exact (SameExpiries.of_kept (raise_keeps _ 540 t.val) (by decide)).trans
        (.of_kept (W := [.hly, .out]) (restartHalyard_kept .refl (by decide) (by decide)) (by decide))
    · have hkept : Kept [.luff, .ttl] s.m ((s.m.expire (428 + t.val)).raise 540 t.val) :=
        ((expire_keeps s.m _).mono (by decide)).trans ((raise_keeps _ _ _).mono (by decide))
      have hreads := restartHalyard_reads ((s.m.expire (428 + t.val)).raise 540 t.val)
      rwa [hkept.hly (by decide)] at hreads
  case stall => exact fun n s => ⟨inStreamStall_reports, fun h => .of_done rfl (if_neg (by simp [h]))⟩
  case rungs =>
    refine fun s => ⟨fun c h => .of_done rfl (rungOver_context h), fun l i h hi => .of_done rfl fun k hk => ?_,
      fun i d h => .of_done rfl (rungOver_cluster h), fun e h => .of_done rfl (rungOver_engine h), fun i h => .of_done rfl fun k hk => ?_,
      fun i h => .of_done rfl (rungOver_partition h), fun h => .of_done rfl (if_pos h)⟩
    · rw [rungOver_tile h hi]
      exact foldl_loseTile_closed (raise_keeps s.m 546 2) _
        ((raise_keeps s.m 546 2).clusterTiles (by decide) (by decide) i _ ▸ hk)
    · rw [Machine.rungOver, if_pos h]
      exact failUnit_fails (s.m.raise 546 2) i k ((raise_keeps s.m 546 2).unitSlots (by decide) i ▸ hk)
  case noRung =>
    refine fun s => ⟨fun l h => .of_done rfl (if_neg (by simp [h])), fun e h => .of_done rfl (if_neg (by simp [h])), fun h c i => ?_⟩
    obtain ⟨hc, hi, hp⟩ := rungOver_unfenced h c i
    exact ⟨.of_done rfl hc, .of_done rfl hi, .of_done rfl hp⟩
  case late =>
    refine fun s => ⟨fun h => .of_done (congrArg (done s) (if_pos h)) ((raise_keeps _ 542 0).luff (by decide)),
      fun h => .of_done rfl (if_neg (by omega)), fun h => .of_done rfl (dumpRearm_reads h), fun h => .of_done rfl (if_neg (by simp [h]))⟩

end Sys2Proof.Machine

/-! ## What the start of a fence leaves (15 R425, R426, R430, R433)

Cutting a context off from its units ends its step, which may begin a collective operation of another (10 R314): no context's reset block, no part
of luff but its progress counters and no die's measured power changes on the way. -/

namespace Sys2Proof.Machine

/-- Every context's reset block, luff but for the progress of its units, and every die's power are as they were. -/
structure DomainsKept (m a : Machine) : Prop where
  rst : ∀ c, (a.ctxAt c).rst = (m.ctxAt c).rst
  luff : ∃ u, a.luff = { m.luff with units := u }
  power : ∀ d, (a.rdie d).power = (m.rdie d).power

section
variable {m a b : Machine}

theorem DomainsKept.refl : DomainsKept m m := ⟨fun _ => rfl, ⟨_, rfl⟩, fun _ => rfl⟩

theorem DomainsKept.trans (h : DomainsKept m a) (h' : DomainsKept a b) : DomainsKept m b := by
  obtain ⟨u, hu⟩ := h.luff
  obtain ⟨v, hv⟩ := h'.luff
  exact ⟨fun c => (h'.rst c).trans (h.rst c), ⟨v, by rw [hv, hu]⟩, fun d => (h'.power d).trans (h.power d)⟩

theorem DomainsKept.of_kept {W : List Area} (h : Kept W m a) (hctx : Area.ctx ∉ W) (hluff : Area.luff ∉ W) (hreef : Area.reef ∉ W) :
    DomainsKept m a :=
  ⟨fun c => by rw [h.ctxAt hctx], ⟨m.luff.units, h.luff hluff⟩, fun d => by rw [Machine.rdie, h.reef hreef]; rfl⟩

theorem DomainsKept.ite {p : Prop} [Decidable p] (h : DomainsKept m a) (h' : DomainsKept m b) : DomainsKept m (if p then a else b) := by
  split <;> assumption

theorem DomainsKept.iteFst {β : Type} {p : Prop} [Decidable p] {x y : Machine × β} (h : DomainsKept m x.1) (h' : DomainsKept m y.1) :
    DomainsKept m (if p then x else y).1 := by
  split <;> assumption

theorem DomainsKept.ofFst {β : Type} {e : Machine × β} {x : Machine} {y : β} (he : e = (x, y)) (h : DomainsKept m e.1) : DomainsKept m x := by
  rw [he] at h
  exact h

theorem DomainsKept.foldl {β : Type} {f : Machine → β → Machine} (hf : ∀ x e, DomainsKept x (f x e)) (l : List β) (m : Machine) :
    DomainsKept m (l.foldl f m) := by
  induction l generalizing m with
  | nil => exact .refl
  | cons e l ih => exact (hf m e).trans (ih (f m e))

variable (m)

/-! ### The operations on contexts, luff and Reef -/

theorem modCtx_domainsKept (c : Nat) {f : CtxRec → CtxRec} (hf : ∀ r, (f r).rst = r.rst) : DomainsKept m (m.modCtx c f) :=
  ⟨fun x => by
    rw [modCtx_ctxAt]
    split
    next h => rw [h, hf]
    next => rfl, ⟨_, rfl⟩, fun _ => rfl⟩

theorem modXc_domainsKept (c : Nat) (f : Xc → Xc) : DomainsKept m (m.modXc c f) := modCtx_domainsKept m c fun _ => rfl
theorem modBase_domainsKept (c : Nat) (f : CtxBase → CtxBase) : DomainsKept m (m.modBase c f) := modCtx_domainsKept m c fun _ => rfl
theorem luffStep_domainsKept (n : Nat) : DomainsKept m (m.luffStep n) := ⟨fun _ => rfl, ⟨_, rfl⟩, fun _ => rfl⟩
theorem modRpart_domainsKept (i : Nat) (f : ReefPart → ReefPart) : DomainsKept m (m.modRpart i f) := ⟨fun _ => rfl, ⟨_, rfl⟩, fun _ => rfl⟩

theorem reefIdle_domainsKept (i : Nat) : DomainsKept m (m.reefIdle i) := by
  refine DomainsKept.foldl (fun x d => ?_) _ m
  refine .ite .refl ⟨fun _ => rfl, ⟨_, rfl⟩, fun k => ?_⟩
  rw [modRdie_rdie]
  split
  next h => rw [h]
  next => rfl

/-! ### A collective operation goes on -/

theorem sendColl_domainsKept (s : Nat) (r : CollRec) (dst : NodeId) (round : Nat) (bs : List Byte) :
    DomainsKept m (m.sendColl s r dst round bs) := by
  refine DomainsKept.foldl (fun x _ => .trans (.trans ?_ (modBase_domainsKept _ _ _)) (luffStep_domainsKept _ _)) _ m
  exact .of_kept (W := [.fwd, .txSeq]) (by apply inject_kept .refl <;> decide) (by decide) (by decide) (by decide)

theorem setColl_domainsKept (s : Nat) (r : Option CollRec) : DomainsKept m (m.setColl s r) := ⟨fun _ => rfl, ⟨_, rfl⟩, fun _ => rfl⟩

theorem collComplete_domainsKept (s : Nat) (r : CollRec) : DomainsKept m (m.collComplete s r) :=
  .of_kept (W := [.coll, .tiles]) (by apply collComplete_kept .refl <;> decide) (by decide) (by decide) (by decide)

theorem senseStep_domainsKept (s : Nat) (r : CollRec) (i : Nat) : DomainsKept m (m.senseStep s r i).1 := by
  unfold Machine.senseStep
  split
  · exact .refl
  · refine .iteFst (sendColl_domainsKept m _ _ _ _ _) (.iteFst ?_ .refl)
    dsimp only
    split <;> exact .refl

theorem foldl_senseStep_domainsKept (s : Nat) (l : List Nat) (p : Machine × CollRec) :
    DomainsKept p.1 (l.foldl (fun p i => p.1.senseStep s p.2 i) p).1 := by
  induction l generalizing p with
  | nil => exact .refl
  | cons i l ih => exact (senseStep_domainsKept p.1 s p.2 i).trans (ih _)

theorem treeStep_domainsKept (s : Nat) (r : CollRec) : DomainsKept m (m.treeStep s r).1 := by
  unfold Machine.treeStep
  extract_lets +onlyGivenNames len
  split
  next up down _ =>
  extract_lets +onlyGivenNames toChildren others q
  have hdown (x : Machine) (r : CollRec) : DomainsKept x (toChildren x r) :=
    DomainsKept.foldl (fun y c => sendColl_domainsKept y s r c down r.data) r.children x
  split
  · split
    · exact hdown m r
    · split
      · exact .refl
      · exact hdown m _
  · split
    next x _ hx =>
    have hout : DomainsKept m x := by
      refine .ofFst hx (.iteFst (DomainsKept.foldl (fun y o => ?_) _ m) .refl)
      exact sendColl_domainsKept y s r o.1 0 _
    exact .iteFst hout hout
  · split
    next x y hx =>
    have hup : DomainsKept m x := by
      refine .ofFst hx (.iteFst ?_ .refl)
      dsimp only
      split
      · exact sendColl_domainsKept m s _ _ up _
      · exact .refl
    refine .iteFst hup (.iteFst hup ?_)
    split
    · exact hup.trans (hdown x y)
    · split
      · exact hup
      · exact hup.trans (hdown x _)

theorem collAdvance_domainsKept (s : Nat) (r : CollRec) (fuel : Nat) : DomainsKept m (m.collAdvance s r fuel) := by
  induction fuel generalizing m r with
  | zero => exact setColl_domainsKept m s _
  | succ fuel ih =>
    unfold Machine.collAdvance
    refine .ite (setColl_domainsKept m s _) (.ite (collComplete_domainsKept m s r) (.ite (setColl_domainsKept m s _) (.ite ?ring ?tree)))
    case ring =>
      refine .ite (collComplete_domainsKept m s r) (.ite (setColl_domainsKept m s _) ?_)
      exact (foldl_senseStep_domainsKept s (List.range r.senses.length) (m, r)).trans (ih _ _)
    case tree =>
      have htree := treeStep_domainsKept m s r
      exact .ite (htree.trans (collComplete_domainsKept _ s _)) (htree.trans (setColl_domainsKept _ s _))

theorem collFree_domainsKept (s k : Nat) : DomainsKept m (m.collFree s k) := by
  unfold Machine.collFree
  split
  · exact .ite (collAdvance_domainsKept m s _ _) (setColl_domainsKept m s _)
  · exact .refl

/-! ### A context is cut off -/

theorem strm_domainsKept {a : Machine} (h : Kept [.fwd, .txSeq, .strm] m a) : DomainsKept m a :=
  .of_kept h (by decide) (by decide) (by decide)

theorem unbindStream_domainsKept (n : Nat) : DomainsKept m (m.unbindStream n) :=
  strm_domainsKept m (by apply unbindStream_kept .refl <;> decide)

theorem endSlots_domainsKept (c : Nat) : DomainsKept m (m.endSlots c) := by
  unfold Machine.endSlots
  split
  · refine DomainsKept.foldl (fun x p => ?_) _ m
    split
    · refine .ite (strm_domainsKept x ?_) (.ite (strm_domainsKept x ?_) (.ite ?_ .refl))
      · exact modStrm_kept .refl _ _ (by decide)
      · apply freeSlots_kept .refl <;> decide
      · split
        · exact collFree_domainsKept x _ _
        · exact .refl
    · exact .refl
  · exact .refl

theorem endStep_domainsKept (c : Nat) : DomainsKept m (m.endStep c) := by
  have hballast (x : Machine) : DomainsKept x (if ((x.xc c).run.map (·.released)).getD false then x.reefFall c else x.reefCancel c) :=
    .ite (modRpart_domainsKept x _ _) (modRpart_domainsKept x _ _)
  exact (((endSlots_domainsKept m c).trans (hballast _)).trans (modXc_domainsKept _ c _)).trans (reefIdle_domainsKept _ _)

theorem stopTiles_domainsKept (c : Nat) : DomainsKept m (m.stopTiles c) := by
  refine DomainsKept.foldl (fun x l => ?_) _ m
  unfold Machine.stopTile
  refine DomainsKept.trans (modBase_domainsKept x c _) (.of_kept (modTile_keeps _ l _) (by decide) (by decide) (by decide))

theorem cutContext_domainsKept (c : Nat) : DomainsKept m (m.cutContext c) := by
  unfold Machine.cutContext
  refine .trans (.of_kept (W := [.out]) (reportFlows_kept .refl c (by decide)) (by decide) (by decide) (by decide)) ?_
  refine (stopTiles_domainsKept _ c).trans ?_
  refine .trans (.ite ?_ .refl) (DomainsKept.foldl (fun x n => unbindStream_domainsKept x n) _ _)
  exact .trans (.of_kept (W := [.strm]) (returnGates_kept .refl c (by decide)) (by decide) (by decide) (by decide)) (endStep_domainsKept _ c)

end

end Sys2Proof.Machine

/-! ## The start of a fence, and the resets it begins (15 R425, R430, R432, R433, R437, R438) -/

namespace Sys2Proof.Machine

/-- What the fences of single contexts leave: no context's state changes, one in reset stays so, and luff and the dies' power are as they were. -/
structure FencesGo (m a : Machine) : Prop where
  life : ∀ c, (a.ctxAt c).base.life = (m.ctxAt c).base.life
  held : ∀ c, (m.ctxAt c).rst.inReset = true → (a.ctxAt c).rst.inReset = true
  luff : ∃ u, a.luff = { m.luff with units := u }
  power : ∀ d, (a.rdie d).power = (m.rdie d).power

section
variable {m a b : Machine}

theorem FencesGo.refl (m : Machine) : FencesGo m m := ⟨fun _ => rfl, fun _ h => h, ⟨_, rfl⟩, fun _ => rfl⟩

theorem FencesGo.trans (h : FencesGo m a) (h' : FencesGo a b) : FencesGo m b := by
  obtain ⟨u, hu⟩ := h.luff
  obtain ⟨v, hv⟩ := h'.luff
  exact ⟨fun c => (h'.life c).trans (h.life c), fun c hc => h'.held c (h.held c hc), ⟨v, by rw [hv, hu]⟩,
    fun d => (h'.power d).trans (h.power d)⟩

theorem FencesGo.of_domainsKept (h : DomainsKept m a) (hlife : SameLives m a) : FencesGo m a :=
  ⟨hlife.life, fun c hc => by rw [h.rst c, hc], h.luff, h.power⟩

theorem modRst_fencesGo (m : Machine) (c : Nat) {f : CtxRst → CtxRst} (hf : ∀ r, r.inReset = true → (f r).inReset = true) :
    FencesGo m (m.modCtx c fun r => { r with rst := f r.rst }) := by
  refine ⟨fun x => ?_, fun x hx => ?_, ⟨_, rfl⟩, fun _ => rfl⟩
  · rw [modCtx_ctxAt]
    split
    next h => rw [h]
    next => rfl
  · rw [modCtx_ctxAt]
    split
    next h => exact hf _ (h ▸ hx)
    next => exact hx

theorem advance_fencesGo (m : Machine) (c : Nat) : FencesGo m (m.modCtx c fun r => { r with rst := r.rst.advance }) :=
  modRst_fencesGo m c fun _ h => h

theorem fenceOne_fencesGo (m : Machine) (c : Nat) : FencesGo m (m.fenceOne c) := by
  unfold Machine.fenceOne
  split
  · exact .refl m
  · exact (FencesGo.of_domainsKept (cutContext_domainsKept m c) (cutContext_sameLives m c)).trans
      (modRst_fencesGo (f := fun r => { r.advance with inReset := true }) _ c fun _ _ => rfl)

theorem FencesGo.foldl {f : Machine → Nat → Machine} (hf : ∀ x c, FencesGo x (f x c)) (l : List Nat) (m : Machine) :
    FencesGo m (l.foldl f m) := foldl_reaches_all .refl .trans hf l m

/-- A LIVE context is in reset once it is fenced. -/
theorem fenceOne_holds {c : Nat} (hlive : (m.ctxAt c).base.life = .live) : ((m.fenceOne c).ctxAt c).rst.inReset = true := by
  unfold Machine.fenceOne
  split
  next h => simpa [Machine.fenced, hlive] using h
  next => rw [modCtx_ctxAt, if_pos rfl]

theorem foldl_fenceOne_holds {c : Nat} {l : List Nat} (hc : c ∈ l) (hlive : (m.ctxAt c).base.life = .live) :
    ((l.foldl (fun m c => m.fenceOne c) m).ctxAt c).rst.inReset = true :=
  foldl_reaches (P := fun a => (a.ctxAt c).base.life = .live) (Q := fun a => (a.ctxAt c).rst.inReset = true) hc
    (fun a e _ _ ha => ((fenceOne_fencesGo a e).life c).trans ha) (fun _ ha => fenceOne_holds ha)
    (fun a e _ ha => (fenceOne_fencesGo a e).held c ha) hlive

/-- A context that is not fenced yet takes the next generation. -/
theorem fenceOne_gen {c : Nat} (hfree : m.fenced c = false) :
    ((m.fenceOne c).ctxAt c).rst = { (m.ctxAt c).rst.advance with inReset := true } := by
  rw [Machine.fenceOne, if_neg (by simp [hfree]), modCtx_ctxAt, if_pos rfl, (cutContext_domainsKept m c).rst]

end

/-! ### The start of a fence -/

section
variable (m : Machine) (d : Domain)

/-- The contexts that a fence of a domain holds. -/
def fenceCtxs : List Nat := (m.ctxsIn d).filter fun c => (m.ctxAt c).base.life != .final

/-- The generation of the partition or of the package has advanced. -/
def gensAdvanced : Machine :=
  match d with
  | .context _ => m
  | .partition i => m.modLuff fun l => { l with partGen := tset 0 l.partGen i.val ((tget 0 l.partGen i.val + 1) % 256) }
  | .package => m.modLuff fun l =>
      { l with
        pkgGen := (l.pkgGen + 1) % 256
        partGen := (List.range 8).foldl (fun t i => tset 0 t i ((tget 0 t i + 1) % 256)) l.partGen }

/-- The contexts of the fence are cut off, and those it finds without work advance their generations. -/
def ctxsFenced (l : List Nat) : Machine :=
  let m := l.foldl (fun m c => m.fenceOne c) m
  (m.idleIn d).foldl (fun m c => m.modCtx c fun r => { r with rst := r.rst.advance }) m

variable {m d}

theorem startFence_stages (hfree : m.covered d = false) (hdue : m.fenceDue d = true) (cause source : Nat) :
    ∃ held, m.startFence d cause source =
      let a := ctxsFenced (gensAdvanced m d) d (fenceCtxs m d)
      (a.pushFence { dom := d, ctxs := fenceCtxs m d, start := a.time.now, cause := cause, source := source, destroy := false,
                     drained := false }).modLuff fun l => { l with fences := l.fences ++ held } :=
  ⟨m.luff.fences.filter fun g => m.inside g.dom d && g.destroy, if_neg (by simp [hfree, hdue])⟩

theorem gensAdvanced_keeps (m : Machine) (d : Domain) : Kept [.luff] m (gensAdvanced m d) := by
  unfold gensAdvanced
  split
  · exact .refl
  · exact modLuff_keeps m _
  · exact modLuff_keeps m _

theorem ctxsFenced_fencesGo (m : Machine) (d : Domain) (l : List Nat) : FencesGo m (ctxsFenced m d l) :=
  (FencesGo.foldl fenceOne_fencesGo l m).trans (FencesGo.foldl advance_fencesGo _ _)

/-- The blocks that the start of a fence may write. -/
abbrev fenceAreas : List Area := [.fwd, .txSeq, .coll, .tiles, .strm, .luff, .ctx, .reef, .out]

theorem startFence_keeps (m : Machine) (d : Domain) (cause source : Nat) : Kept fenceAreas m (m.startFence d cause source) := by
  apply startFence_kept .refl <;> decide

theorem pushFence_luff (a : Machine) (f : Fence) (held : List Fence) : ∃ fs lf,
    ((a.pushFence f).modLuff fun l => { l with fences := l.fences ++ held }).luff = { a.luff with fences := fs, lastFence := lf } :=
  ⟨_, _, rfl⟩

theorem ctxsFenced_time (m : Machine) (d : Domain) (l : List Nat) : (ctxsFenced m d l).time = m.time := by
  refine Kept.time (W := fenceAreas) (.foldl (.foldl .refl fun x c h => ?_) fun x c h => modCtx_kept h _ _ (by decide)) (by decide)
  apply fenceOne_kept h <;> decide

/-- What the start of a fence has done: the fence is in force, the generations have advanced, and every LIVE context of it is in reset. -/
structure FenceStarted (m a : Machine) (d : Domain) (cause : Nat) : Prop where
  began : m.fenceBegan a d cause
  luff : ∃ fs lf u, a.luff = { (gensAdvanced m d).luff with fences := fs, lastFence := lf, units := u }
  power : ∀ k, (a.rdie k).power = (m.rdie k).power
  held : ∀ c ∈ fenceCtxs m d, (m.ctxAt c).base.life = .live → (a.ctxAt c).rst.inReset = true

theorem startFence_started (hfree : m.covered d = false) (hdue : m.fenceDue d = true) (cause source : Nat) :
    FenceStarted m (m.startFence d cause source) d cause := by
  obtain ⟨held, hstages⟩ := startFence_stages hfree hdue cause source
  have hgens := gensAdvanced_keeps m d
  have hgo := ctxsFenced_fencesGo (gensAdvanced m d) d (fenceCtxs m d)
  obtain ⟨u, hu⟩ := hgo.luff
  have htime := (ctxsFenced_time (gensAdvanced m d) d (fenceCtxs m d)).trans (hgens.time (by decide))
  have hheld (c : Nat) (hc : c ∈ fenceCtxs m d) (hlive : (m.ctxAt c).base.life = .live) :
      ((ctxsFenced (gensAdvanced m d) d (fenceCtxs m d)).ctxAt c).rst.inReset = true :=
    (FencesGo.foldl advance_fencesGo _ _).held c (foldl_fenceOne_holds hc (by rw [hgens.ctxAt (by decide), hlive]))
  have hpower (k : Nat) : ((ctxsFenced (gensAdvanced m d) d (fenceCtxs m d)).rdie k).power = (m.rdie k).power := by
    rw [hgo.power, Machine.rdie, hgens.reef (by decide)]
    rfl
  rw [hstages]
  generalize ctxsFenced (gensAdvanced m d) d (fenceCtxs m d) = a at hu htime hheld hpower ⊢
  refine ⟨⟨_, List.mem_append_left _ (List.mem_append_right _ (List.mem_singleton_self _)), rfl, rfl, ?_, rfl⟩, ?_, hpower, hheld⟩
  · exact congrArg TimeBlk.now htime
  · obtain ⟨fs, lf, hfences⟩ := pushFence_luff a
      { dom := d, ctxs := fenceCtxs m d, start := a.time.now, cause := cause, source := source, destroy := false, drained := false } held
    exact ⟨fs, lf, u, by rw [hfences, hu]⟩

end

/-! ### Contexts (R425, R433) -/

section
variable {m : Machine} {c : CtxId} {s : State}

theorem fenceCtxs_context (hlive : (m.ctxAt c).base.life = .live) : fenceCtxs m (.context c) = [c.val] := by
  have hmem (x : Nat) : x ∈ fenceCtxs m (.context c) ↔ x ∈ [c.val] := by
    simp only [fenceCtxs, Machine.ctxsIn, List.mem_filter, List.mem_range, List.mem_singleton, Bool.and_eq_true, bne_iff_ne, beq_iff_eq]
    constructor
    · exact fun ⟨⟨_, _, h⟩, _⟩ => h.symm
    · rintro rfl
      simp [hlive]
  exact List.perm_singleton.mp ((List.perm_ext_iff_of_nodup (((range_nodup 64).filter _).filter _) (List.nodup_singleton _)).mpr hmem)

/-- The fence of a context alone fences that context. -/
theorem ctxsFenced_context (hlive : (m.ctxAt c).base.life = .live) :
    ctxsFenced (gensAdvanced m (.context c)) (.context c) (fenceCtxs m (.context c)) = m.fenceOne c := by
  have hidle (x : Machine) : x.idleIn (.context c) = [] := by simp [Machine.idleIn]
  have hgens : gensAdvanced m (.context c) = m := rfl
  rw [fenceCtxs_context hlive, ctxsFenced, hidle, hgens, List.foldl_cons, List.foldl_nil, List.foldl_nil]

theorem pushFence_ctxAt (a : Machine) (f : Fence) (held : List Fence) (x : Nat) :
    ((a.pushFence f).modLuff fun l => { l with fences := l.fences ++ held }).ctxAt x = a.ctxAt x := rfl

/-- The fence of a context alone gives it its next generation. -/
theorem startFence_context_rst (hfree : m.covered (.context c) = false) (hdue : m.fenceDue (.context c) = true)
    (hlive : (m.ctxAt c).base.life = .live) (hnot : m.fenced c = false) (cause source : Nat) :
    ((m.startFence (.context c) cause source).ctxAt c).rst = { (m.ctxAt c).rst.advance with inReset := true } := by
  obtain ⟨held, hstages⟩ := startFence_stages hfree hdue cause source
  rw [hstages, ← fenceOne_gen hnot, ← ctxsFenced_context hlive]
  generalize ctxsFenced (gensAdvanced m (.context c)) (.context c) (fenceCtxs m (.context c)) = a
  rw [pushFence_ctxAt]

/-- No reset of the context is ordered any more. -/
def orderTaken (m : Machine) (c : Nat) : Machine := m.modLuff fun l => { l with ctxOrders := l.ctxOrders.filter fun x => x.1 != c }

theorem contextReset_ordered {k : Nat} (horder : (s.m.luff.ctxOrders.find? fun o => o.1 == c.val) = some (c.val, k))
    (hlive : (s.m.ctxAt c).base.life = .live) (hfree : s.m.covered (.context c) = false) (hdue : s.m.fenceDue (.context c) = true) :
    exec (.contextReset c) s = done s ((orderTaken s.m c).startFence (.context c) k 0x3FF) := by
  change done s (s.m.beginContextReset c) = _
  unfold Machine.beginContextReset
  dsimp only
  rw [horder]
  exact congrArg (done s) ((if_neg (by simp [hfree, hlive])).trans (if_pos hdue))

theorem contextReset_waiting (hnone : (s.m.luff.ctxOrders.find? fun o => o.1 == c.val) = none) (hwaits : s.m.luff.rstWaits 1 = true)
    (hctx : s.m.luff.rstCtx = c.val) : exec (.contextReset c) s = done s
      (if (s.m.ctxAt c).base.life = .free ∨ (s.m.ctxAt c).base.life = .final then s.m.rstDone 0x04
      else if s.m.covered (.context c) then s.m.rstBegin
      else if s.m.fenceDue (.context c) then (s.m.startFence (.context c) 3 0x3FF).rstBegin
      else s.m) := by
  change done s (s.m.beginContextReset c) = _
  unfold Machine.beginContextReset
  dsimp only
  rw [hnone]
  exact congrArg (done s) (if_pos (by simp [hwaits, hctx]))

theorem contextReset_begins {k : Nat} (horder : (s.m.luff.ctxOrders.find? fun o => o.1 == c.val) = some (c.val, k))
    (hlive : (s.m.ctxAt c).base.life = .live) (hfree : s.m.covered (.context c) = false) (hdue : s.m.fenceDue (.context c) = true)
    (hnot : s.m.fenced c = false) : Completes (.contextReset c) s fun m => s.m.fenceBegan m (.context c) k ∧
      (m.ctxAt c).rst.inReset = true ∧ (m.ctxAt c).rst.gen = ((s.m.ctxAt c).rst.gen + 1) % 256 ∧
      (m.luff.ctxOrders.find? fun o => o.1 == c.val) = none := by
  have hstart := startFence_started (m := orderTaken s.m c) (d := .context c) hfree hdue k 0x3FF
  have hrst := startFence_context_rst (m := orderTaken s.m c) hfree hdue hlive hnot k 0x3FF
  obtain ⟨fs, lf, u, hluff⟩ := hstart.luff
  refine .of_done (contextReset_ordered horder hlive hfree hdue) ⟨hstart.began, by rw [hrst], by rw [hrst]; rfl, ?_⟩
  rw [hluff]
  refine List.find?_eq_none.mpr fun o ho => ?_
  obtain ⟨-, hne⟩ := List.mem_filter.mp ho
  simpa using hne

theorem contextReset_asked (hnone : (s.m.luff.ctxOrders.find? fun o => o.1 == c.val) = none) (hwaits : s.m.luff.rstWaits 1 = true)
    (hctx : s.m.luff.rstCtx = c.val) (hlive : (s.m.ctxAt c).base.life = .live) (hfree : s.m.covered (.context c) = false)
    (hdue : s.m.fenceDue (.context c) = true) (hnot : s.m.fenced c = false) : Completes (.contextReset c) s fun m =>
      s.m.fenceBegan m (.context c) 3 ∧ m.luff.rstStarted = true ∧ (m.ctxAt c).rst.inReset = true := by
  have he := contextReset_waiting hnone hwaits hctx
  rw [if_neg (by simp [hlive]), if_neg (by simp [hfree]), if_pos hdue] at he
  refine .of_done he ⟨(startFence_started hfree hdue 3 0x3FF).began, rfl, ?_⟩
  exact (congrArg CtxRst.inReset (startFence_context_rst hfree hdue hlive hnot 3 0x3FF) :)

end

/-! ### Partitions (R437) -/

section
variable {i : PartId} {s : State}

/-- No reset of the partition is ordered any more. -/
def partOrderTaken (m : Machine) (i : Nat) : Machine :=
  (m.modTtl fun t => { t with partOrders := t.partOrders.filter (· != i) }).modLuff fun l =>
    { l with ladderParts := l.ladderParts.filter (· != i) }

theorem partitionReset_ordered (horder : i.val ∈ s.m.ttl.partOrders ∨ i.val ∈ s.m.luff.ladderParts)
    (hfree : s.m.covered (.partition i) = false) (hdue : s.m.fenceDue (.partition i) = true) :
    exec (.partitionReset i) s = done s ((partOrderTaken s.m i).startFence (.partition i) 5 0x3FF) := by
  change done s (s.m.beginPartitionReset i) = _
  unfold Machine.beginPartitionReset
  dsimp only
  rw [if_pos (by simpa using horder), if_neg (by simp [hfree]), if_pos hdue]
  rfl

theorem mem_fenceCtxs_partition {m : Machine} {c : Nat} (hc : c < 64) (hpart : m.ctxPart c = i.val) (hlive : (m.ctxAt c).base.life = .live) :
    c ∈ fenceCtxs m (.partition i) := by
  simp [fenceCtxs, Machine.ctxsIn, hc, hpart, hlive]

theorem partitionReset_begins (horder : i.val ∈ s.m.ttl.partOrders ∨ i.val ∈ s.m.luff.ladderParts)
    (hfree : s.m.covered (.partition i) = false) (hdue : s.m.fenceDue (.partition i) = true) :
    Completes (.partitionReset i) s fun m => s.m.fenceBegan m (.partition i) 5 ∧ i.val ∉ m.ttl.partOrders ∧ i.val ∉ m.luff.ladderParts ∧
      tget 0 m.luff.partGen i = (tget 0 s.m.luff.partGen i + 1) % 256 ∧
      ∀ c, c < 64 → s.m.ctxPart c = i.val → (s.m.ctxAt c).base.life = .live → (m.ctxAt c).rst.inReset = true := by
  have hstart := startFence_started (m := partOrderTaken s.m i) (d := .partition i) hfree hdue 5 0x3FF
  have hkept := startFence_keeps (partOrderTaken s.m i) (.partition i) 5 0x3FF
  obtain ⟨fs, lf, u, hluff⟩ := hstart.luff
  refine .of_done (partitionReset_ordered horder hfree hdue) ⟨hstart.began, ?_, ?_, ?_, fun c hc hpart hlive => ?_⟩
  · rw [hkept.ttl (by decide)]
    exact fun h => by simpa using (List.mem_filter.mp h).2
  · rw [hluff]
    exact fun h => by simpa using (List.mem_filter.mp h).2
  · rw [hluff]
    exact tget_tset_same _ _ _ _
  · exact hstart.held c (mem_fenceCtxs_partition hc hpart hlive) hlive

theorem partitionReset_waiting (hnot : i.val ∉ s.m.ttl.partOrders ∧ i.val ∉ s.m.luff.ladderParts) (hwaits : s.m.luff.rstWaits 2 = true)
    (hpart : s.m.luff.rstPart = i.val) : exec (.partitionReset i) s = done s
      (if s.m.parts ≤ i.val then s.m.rstDone 0x03
      else if (s.m.partAt i).state ≠ .bound ∧ (s.m.partAt i).state ≠ .draining then s.m.rstDone 0x05
      else if s.m.covered (.partition i) then s.m.rstBegin
      else if s.m.fenceDue (.partition i) then (s.m.startFence (.partition i) 5 0x3FF).rstBegin
      else s.m) := by
  change done s (s.m.beginPartitionReset i) = _
  unfold Machine.beginPartitionReset
  dsimp only
  rw [if_neg (by simpa using hnot), if_pos (by simp [hwaits, hpart])]

theorem partitionReset_asked (hnot : i.val ∉ s.m.ttl.partOrders ∧ i.val ∉ s.m.luff.ladderParts) (hwaits : s.m.luff.rstWaits 2 = true)
    (hpart : s.m.luff.rstPart = i.val) (hin : i.val < s.m.parts) (hbound : (s.m.partAt i).state = .bound)
    (hfree : s.m.covered (.partition i) = false) (hdue : s.m.fenceDue (.partition i) = true) :
    Completes (.partitionReset i) s fun m => s.m.fenceBegan m (.partition i) 5 ∧ m.luff.rstStarted = true := by
  have he := partitionReset_waiting hnot hwaits hpart
  rw [if_neg (Nat.not_le.mpr hin), if_neg (by simp [hbound]), if_neg (by simp [hfree]), if_pos hdue] at he
  exact .of_done he ⟨(startFence_started hfree hdue 5 0x3FF).began, rfl⟩

end

/-! ### The package (R438) -/

/-- What each key of a table reads as after a fold that changes every listed entry by the same function. -/
theorem tget_foldl_update {α : Type} [DecidableEq α] (d : α) {f : α → α} (hf : ∀ x, f (f x) = f x) (l : List Nat) (t : Table α) (k : Nat) :
    tget d (l.foldl (fun t k => tset d t k (f (tget d t k))) t) k = if k ∈ l then f (tget d t k) else tget d t k := by
  induction l generalizing t with
  | nil => rfl
  | cons x l ih =>
    rw [List.foldl_cons, ih, tget_tset]
    by_cases hk : k = x
    · subst hk
      simp [hf]
    · simp [hk]

/-- What each key reads as once every entry of a table is mapped. -/
theorem tget_map {α β : Type} {d : α} {e : β} {f : α → β} (hd : f d = e) (t : Table α) (k : Nat) :
    tget e (t.map fun x => (x.1, f x.2)) k = f (tget d t k) := by
  induction t with
  | nil => exact hd.symm
  | cons x t ih =>
    rw [List.map_cons, tget_cons, tget_cons, ih]
    split <;> rfl

section
variable (m : Machine) {s : State}

theorem pkgClear_keeps : Kept [.corner, .shr, .hbm, .part, .ctx, .reef, .eng] m m.pkgClear := by
  apply pkgClear_kept .refl <;> decide

theorem pkgClear_ctxAt (c : Nat) : m.pkgClear.ctxAt c = (m.ctxAt c).pkgCleared := 
  tget_map (d := CtxRec.reset) (e := CtxRec.reset) (f := CtxRec.pkgCleared) rfl m.ctx c

/-- A die whose set point is no longer written. -/
def withoutTarget (r : ReefDie) : ReefDie := { r with vtarget := none }

theorem pkgClear_resetBallast (d : Nat) : (m.pkgClear.rdie d).resetBallast = (m.rdie d).resetBallast := by
  have hdie : m.pkgClear.rdie d = if d ∈ tkeys m.reef.dies then withoutTarget (m.rdie d) else m.rdie d :=
    tget_foldl_update ReefDie.reset (f := withoutTarget) (fun _ => rfl) (tkeys m.reef.dies) m.reef.dies d
  rw [hdie]
  split <;> rfl

/-- Every die's ballast takes its measured power. -/
theorem dieBallast_takes {d : Nat} (hd : d < 4) : (m.dieBallast.rdie d).resetBallast = (m.rdie d).power := by
  let cleared := (List.range 8).foldl (fun (m : Machine) i => m.modRpart i fun p =>
    { p with ballast := 0, phase := 0, ramping := false, ready := false, withdrawUntil := none }) m
  have hcleared : PartsOf m cleared :=
    (foldl_modRpart m (fun _ p => { p with ballast := 0, phase := 0, ramping := false, ready := false, withdrawUntil := none })
      (range_nodup 8)).1
  have hread := (foldl_modRdie cleared (fun _ r => { r with resetBallast := r.power }) (range_nodup 4)).2 d
  rw [if_pos (List.mem_range.mpr hd), hcleared.rdie d] at hread
  exact congrArg ReefDie.resetBallast hread

theorem ttlResetStart_keeps : Kept [.ttl] m m.ttlResetStart := ttlResetStart_kept .refl (by decide)

/-- What the start of a package's reset leaves of its fence. -/
theorem startPackageReset_reads (cause source : Nat) : let a := m.startFence .package cause source
    let b := m.startPackageReset cause source
    b.luff = a.luff ∧ b.ttl.masking = true ∧ (∀ c, (b.ctxAt c).rst = (a.ctxAt c).rst) ∧
    (∀ d < 4, (b.rdie d).resetBallast = (a.rdie d).power) ∧ b.corner = .reset := by
  intro a b
  have hmask := ttlResetStart_keeps a
  have hballast : Kept [.reef] a.ttlResetStart a.ttlResetStart.dieBallast := dieBallast_kept .refl (by decide)
  have hclear := pkgClear_keeps a.ttlResetStart.dieBallast
  refine ⟨?_, ?_, fun c => ?_, fun d hd => ?_, rfl⟩
  · exact ((hclear.luff (by decide)).trans (hballast.luff (by decide))).trans (hmask.luff (by decide))
  · exact congrArg Ttl.masking ((hclear.ttl (by decide)).trans (hballast.ttl (by decide)))
  · have hctx := (hballast.ctxAt (by decide) c).trans (hmask.ctxAt (by decide) c)
    exact (congrArg CtxRec.rst ((pkgClear_ctxAt a.ttlResetStart.dieBallast c).trans (congrArg CtxRec.pkgCleared hctx))).trans rfl
  · have hdie : a.ttlResetStart.rdie d = a.rdie d := by
      rw [Machine.rdie, hmask.reef (by decide)]
      rfl
    exact ((pkgClear_resetBallast a.ttlResetStart.dieBallast d).trans (dieBallast_takes a.ttlResetStart hd)).trans (by rw [hdie])

theorem covered_package : m.covered .package = m.pkgFenced := by
  have hinside (f : Fence) : m.inside .package f.dom = (f.dom == .package) := by
    cases h : f.dom <;> simp [Machine.inside]
  simp only [Machine.covered, Machine.pkgFenced, hinside]

theorem mem_fenceCtxs_package {c : Nat} (hc : c < 64) (hlive : (m.ctxAt c).base.life = .live) : c ∈ fenceCtxs m .package := by
  simp [fenceCtxs, Machine.ctxsIn, hc, hlive]

/-- A machine that differs in luff's reset registers alone. -/
theorem rstBegin_reads (p : Bool) : ∃ b, (if p then m.rstBegin else m) = { m with luff := { m.luff with rstStarted := b } } := by
  cases p
  · exact ⟨m.luff.rstStarted, rfl⟩
  · exact ⟨true, rfl⟩

theorem packageReset_begins {k src : Nat} (horder : s.m.pkgOrder = some (k, src)) (hpast : s.m.stepPast 9 = true)
    (hfree : s.m.pkgFenced = false) (hdue : s.m.fenceDue .package = true) : Completes .packageReset s fun m =>
      s.m.fenceBegan m .package k ∧ m.luff.pkgGen = (s.m.luff.pkgGen + 1) % 256 ∧ m.ttl.masking = true ∧
      (∀ c, c < 64 → (s.m.ctxAt c).base.life = .live → (m.ctxAt c).rst.inReset = true) ∧
      (∀ d < 4, (m.rdie d).resetBallast = (s.m.rdie d).power) ∧ m.corner = .reset := by
  have hstart := startFence_started (m := s.m) (d := .package) ((covered_package s.m).trans hfree) hdue k src
  obtain ⟨hluff, hmask, hrst, hballast, hcorner⟩ := startPackageReset_reads s.m k src
  obtain ⟨fs, lf, u, hgens⟩ := hstart.luff
  have he : exec .packageReset s = done s
      (if (s.m.startPackageReset k src).luff.rstWaits 3 then (s.m.startPackageReset k src).rstBegin else s.m.startPackageReset k src) := by
    change done s s.m.beginPackageReset = _
    unfold Machine.beginPackageReset
    rw [horder]
    exact congrArg (done s) ((if_neg (by simp [hpast])).trans ((if_neg (by simp [hfree])).trans (if_pos hdue)))
  obtain ⟨b, hb⟩ := rstBegin_reads (s.m.startPackageReset k src) ((s.m.startPackageReset k src).luff.rstWaits 3)
  obtain ⟨f, hf, hbegan⟩ := hstart.began
  refine .of_done he ?_
  rw [hb]
  generalize s.m.startPackageReset k src = a at hluff hmask hrst hballast hcorner ⊢
  refine ⟨⟨f, hluff ▸ hf, hbegan⟩, ?_, hmask, fun c hc hlive => ?_, fun d hd => (hballast d hd).trans (hstart.power d), hcorner⟩
  · change a.luff.pkgGen = _
    rw [hluff, hgens]
    rfl
  · exact (congrArg CtxRst.inReset (hrst c)).trans (hstart.held c (mem_fenceCtxs_package s.m hc hlive) hlive)

end

end Sys2Proof.Machine

/-! ## The drain's end and the ends of resets (15 R427, R433, R437, R438, R442, R443, R451) -/

namespace Sys2Proof.Machine

/-! ### A context is removed from its units -/

/-- Every other context is as it was; the one at hand keeps its state, its reset block and its idle queues. -/
structure OnlyCtx (c : Nat) (m a : Machine) : Prop where
  others : ∀ x, x ≠ c → a.ctxAt x = m.ctxAt x
  life : (a.ctxAt c).base.life = (m.ctxAt c).base.life
  rst : (a.ctxAt c).rst = (m.ctxAt c).rst
  idle : ∀ q, (m.queue c q).cur = none → (a.queue c q).cur = none

section
variable {m a b : Machine} {c : Nat}

theorem OnlyCtx.refl : OnlyCtx c m m := ⟨fun _ _ => rfl, rfl, rfl, fun _ h => h⟩

theorem OnlyCtx.trans (h : OnlyCtx c m a) (h' : OnlyCtx c a b) : OnlyCtx c m b :=
  ⟨fun x hx => (h'.others x hx).trans (h.others x hx), h'.life.trans h.life, h'.rst.trans h.rst, fun q hq => h'.idle q (h.idle q hq)⟩

theorem OnlyCtx.of_kept {W : List Area} (h : Kept W m a) (hw : Area.ctx ∉ W) : OnlyCtx c m a := by
  refine ⟨fun x _ => h.ctxAt hw x, by rw [h.ctxAt hw], by rw [h.ctxAt hw], fun q hq => ?_⟩
  rwa [h.queue hw]

theorem OnlyCtx.foldl {β : Type} {f : Machine → β → Machine} (hf : ∀ x e, OnlyCtx c x (f x e)) (l : List β) (m : Machine) :
    OnlyCtx c m (l.foldl f m) := by
  induction l generalizing m with
  | nil => exact .refl
  | cons e l ih => exact (hf m e).trans (ih (f m e))

variable (m)

theorem modCtx_onlyCtx {f : CtxRec → CtxRec} (hlife : ∀ r, (f r).base.life = r.base.life) (hrst : ∀ r, (f r).rst = r.rst)
    (hidle : ∀ (r : CtxRec) (q : Nat), (tget CeQueue.reset r.ce.queues q).cur = none → (tget CeQueue.reset (f r).ce.queues q).cur = none) :
    OnlyCtx c m (m.modCtx c f) := by
  have hself : (m.modCtx c f).ctxAt c = f (m.ctxAt c) := (modCtx_ctxAt m c f c).trans (if_pos rfl)
  refine ⟨fun x hx => (modCtx_ctxAt m c f x).trans (if_neg hx), by rw [hself, hlife], by rw [hself, hrst], fun q hq => ?_⟩
  rw [Machine.queue, hself]
  exact hidle _ q hq

theorem modBase_onlyCtx {f : CtxBase → CtxBase} (hf : ∀ b, (f b).life = b.life) : OnlyCtx c m (m.modBase c f) :=
  modCtx_onlyCtx m (fun _ => hf _) (fun _ => rfl) fun _ _ h => h

theorem modXc_onlyCtx (f : Xc → Xc) : OnlyCtx c m (m.modXc c f) := modCtx_onlyCtx m (fun _ => rfl) (fun _ => rfl) fun _ _ h => h

theorem meterTile_onlyCtx (l n : Nat) : OnlyCtx c m (m.meterTile c l n) := modBase_onlyCtx m fun _ => rfl

theorem stopTiles_onlyCtx : OnlyCtx c m (m.stopTiles c) :=
  OnlyCtx.foldl (fun x l => (meterTile_onlyCtx x l _).trans (.of_kept (modTile_keeps _ l _) (by decide))) _ m

theorem dropImage_onlyCtx : OnlyCtx c m (m.dropImage c) := by
  unfold Machine.dropImage
  extract_lets +onlyGivenNames x y z
  have hx : OnlyCtx c m x :=
    (stopTiles_onlyCtx m).trans (.of_kept (W := [.coll]) (freeColls_kept .refl c (by decide)) (by decide))
  have hy : OnlyCtx c x y := .of_kept (W := [.tiles]) (.foldl .refl fun _ l h => modTile_kept h l _ (by decide)) (by decide)
  have hz : OnlyCtx c y z := by
    refine OnlyCtx.foldl (fun w n => .of_kept (W := [.fwd, .txSeq, .strm]) ?_ (by decide)) _ y
    apply unbindStream_kept .refl <;> decide
  exact ((hx.trans hy).trans hz).trans (modXc_onlyCtx _ _)

/-- A queue that a context's removal has stopped. -/
def stoppedQueue (x : CeQueue) : CeQueue := { x with abortIdx := x.ci, state := .disabled, enable := false, cur := none, h0Last := none, h1Last := none }

theorem stopQueues_onlyCtx : OnlyCtx c m (m.stopQueues c) := by
  refine modCtx_onlyCtx m (fun _ => rfl) (fun _ => rfl) fun r q hq => ?_
  have hread := tget_foldl_update CeQueue.reset (f := stoppedQueue) (fun _ => rfl) (tkeys r.ce.queues) r.ce.queues q
  refine (congrArg CeQueue.cur hread).trans ?_
  split
  · rfl
  · exact hq

theorem stopQueues_xc : (m.stopQueues c).xc c = m.xc c := by
  rw [Machine.xc, Machine.stopQueues, modCtx_ctxAt, if_pos rfl]
  rfl

/-- The image of a context that is removed is gone: UNBOUND, with nothing queued. -/
def imageGone (m : Machine) (c : Nat) : Machine :=
  (if (m.xc c).image.isSome then m.dropImage c else m.modXc c fun x => { x with state := .unbound, queue := [] }).modXc c
    fun x => { x with busy := false, owed := [], latches := [] }

theorem imageGone_onlyCtx : OnlyCtx c m (imageGone m c) := by
  unfold imageGone
  split
  · exact (dropImage_onlyCtx m).trans (modXc_onlyCtx _ _)
  · exact (modXc_onlyCtx m _).trans (modXc_onlyCtx _ _)

theorem imageGone_unbound : ((imageGone m c).xc c).state = .unbound := by
  unfold imageGone
  rw [modXc_xc, if_pos rfl]
  split
  · rw [dropImage_xc, if_pos rfl]
    rfl
  · rw [modXc_xc, if_pos rfl]

theorem removeContext_onlyCtx : OnlyCtx c m (m.removeContext c) := by
  refine .trans (.trans (.trans (imageGone_onlyCtx m) ?_) (stopQueues_onlyCtx _)) (.of_kept (freeTxns_kept .refl c (by decide) : Kept [.txn] _ _) (by decide))
  exact .of_kept (freeColls_kept .refl c (by decide) : Kept [.coll] _ _) (by decide)

theorem removeContext_unbound : ((m.removeContext c).xc c).state = .unbound := by
  have hcolls : Kept [.coll] (imageGone m c) ((imageGone m c).freeColls c) := freeColls_kept .refl c (by decide)
  exact (congrArg Xc.state ((stopQueues_xc _).trans (hcolls.xc (by decide) c))).trans (imageGone_unbound m)

/-! ### The end of a context's reset (R433) -/

/-- A reset block after its reset. -/
def CtxRst.ended (r : CtxRst) (cause : Nat) : CtxRst := { r with resets := satAdd 255 r.resets 1, cause := cause, inReset := false }

theorem endContextReset_ctxAt (cause x : Nat) : (m.endContextReset c cause).ctxAt x =
    if x = c then { (m.removeContext c).ctxAt c with rst := CtxRst.ended ((m.ctxAt c).rst) cause } else m.ctxAt x := by
  have hraise := raiseCtx_keeps ((m.removeContext c).modCtx c fun r =>
    { r with rst := { r.rst with resets := satAdd 255 r.rst.resets 1, cause := cause, inReset := false } }) 543 0 c
  refine (hraise.ctxAt (by decide) x).trans ((modCtx_ctxAt _ c _ x).trans ?_)
  split
  · rw [← (removeContext_onlyCtx m).rst]
    rfl
  next hx => exact (removeContext_onlyCtx m).others x hx

theorem dropFence_fences (d : Domain) : (m.dropFence d).luff.fences = m.luff.fences.filter fun f => f.dom != d := by
  unfold Machine.dropFence Machine.rstFinish
  split <;> rfl

theorem dropFence_keeps (d : Domain) : Kept [.luff] m (m.dropFence d) := dropFence_kept .refl d (by decide)

theorem dropFence_gone (d : Domain) : ∀ g ∈ (m.dropFence d).luff.fences, g.dom ≠ d := by
  intro g hg
  rw [dropFence_fences] at hg
  simpa using (List.mem_filter.mp hg).2

end

section
variable {c : CtxId} {f : Fence} {s : State}

theorem domainResetEnd_context (h : (s.m.luff.fences.find? fun f => f.dom == .context c && f.drained && !f.destroy) = some f) :
    Completes (.domainResetEnd (.context c)) s fun m => (m.ctxAt c).rst.inReset = false ∧
      (m.ctxAt c).rst.resets = satAdd 255 (s.m.ctxAt c).rst.resets 1 ∧ (m.ctxAt c).rst.cause = f.cause ∧ (m.xc c).state = .unbound ∧
      (∀ g ∈ m.luff.fences, g.dom ≠ .context c) := by
  have he : exec (.domainResetEnd (.context c)) s = done s ((s.m.endContextReset c f.cause).dropFence (.context c)) := by
    change execDomainResetEnd (.context c) s = _
    unfold execDomainResetEnd
    rw [h]
    rfl
  have hctx : ((s.m.endContextReset c f.cause).dropFence (.context c)).ctxAt c =
      { (s.m.removeContext c).ctxAt c with rst := CtxRst.ended ((s.m.ctxAt c).rst) f.cause } :=
    ((dropFence_keeps _ _).ctxAt (by decide) c).trans ((endContextReset_ctxAt s.m f.cause c).trans (if_pos rfl))
  refine .of_done he ⟨by rw [hctx]; rfl, by rw [hctx]; rfl, by rw [hctx]; rfl, ?_, dropFence_gone _ _⟩
  rw [Machine.xc, hctx]
  exact removeContext_unbound s.m

end

end Sys2Proof.Machine

/-! ## What the drain's end abandons (15 R427, Table 15.5) -/

namespace Sys2Proof.Machine

section
variable (m : Machine)

/-- A context's queues whose commands in progress are abandoned. -/
def CtxRec.abandoned (r : CtxRec) : CtxRec :=
  { r with ce := { r.ce with queues := (tkeys r.ce.queues).foldl (fun t q => tset .reset t q { (tget .reset t q) with cur := none }) r.ce.queues } }

theorem abandoned_queue_cur (r : CtxRec) (q : Nat) : (tget CeQueue.reset r.abandoned.ce.queues q).cur = none := by
  refine (congrArg CeQueue.cur (tget_foldl_update CeQueue.reset (f := fun x => { x with cur := none }) (fun _ => rfl)
    (tkeys r.ce.queues) r.ce.queues q)).trans ?_
  split
  next => rfl
  next h => rw [tget_of_not_mem _ _ _ h]; rfl

theorem modCtx_abandoned_queue (x c q : Nat) (h : x = c ∨ (m.queue c q).cur = none) : ((m.modCtx x CtxRec.abandoned).queue c q).cur = none := by
  rw [Machine.queue, modCtx_ctxAt]
  split
  next => exact abandoned_queue_cur _ q
  next hne => exact h.resolve_left fun e => hne e.symm

theorem foldl_abandoned_queue {c : Nat} {cs : List Nat} (hc : c ∈ cs) (q : Nat) :
    ((cs.foldl (fun m c => m.modCtx c CtxRec.abandoned) m).queue c q).cur = none :=
  foldl_reaches (P := fun _ => True) (Q := fun a => (a.queue c q).cur = none) hc (fun _ _ _ _ h => h)
    (fun a _ => modCtx_abandoned_queue a c c q (.inl rfl)) (fun a x _ h => modCtx_abandoned_queue a x c q (.inr h)) trivial

/-- A tile's lines and tokens are cancelled, their completions to be dropped. -/
def cancelTile (m : Machine) (l : Nat) : Machine :=
  let t := m.tileAt l
  (m.modTile l fun t => { t with lines := [], tokens := [] }).modLuff fun x => { x with lateOut := x.lateOut + t.lines.length + t.tokens.length }

theorem cancelTile_keeps (l : Nat) : Kept [.tiles, .luff] m (cancelTile m l) := by
  unfold cancelTile
  exact modLuff_kept (modTile_kept .refl _ _ (by decide)) _ (by decide)

theorem foldl_cancelTile_keeps (ls : List Nat) : Kept [.tiles, .luff] m (ls.foldl cancelTile m) :=
  .foldl .refl fun a l h => h.trans (cancelTile_keeps a l)

theorem foldl_cancelTile_luff (ls : List Nat) : ∃ n, (ls.foldl cancelTile m).luff = { m.luff with lateOut := n } :=
  foldl_reaches_all (g := cancelTile) (R := fun m a => ∃ n, a.luff = { m.luff with lateOut := n }) (fun a => ⟨a.luff.lateOut, rfl⟩)
    (by rintro a b c ⟨n, hn⟩ ⟨k, hk⟩; exact ⟨k, by rw [hk, hn]⟩) (fun _ _ => ⟨_, rfl⟩) ls m

/-- The REQs that the drain's end aborts, and the commands it abandons. -/
def drainAborted (m : Machine) (cs : List Nat) (start : DWord) : Machine :=
  cs.foldl (fun m c => m.modCtx c CtxRec.abandoned)
    (m.abortReqs fun x => cs.contains (m.strmAt (frStream x.frame)).ctx && decide (x.since.toNat < start.toNat))

theorem drainEnd_eq (cs : List Nat) (start : DWord) : m.drainEnd cs start =
    (cs.flatMap (drainAborted m cs start).imageTiles).foldl cancelTile (drainAborted m cs start) := rfl

theorem drainEnd_keeps (cs : List Nat) (start : DWord) : Kept [.fwd, .txSeq, .tiles, .luff, .ctx, .ttl] m (m.drainEnd cs start) := by
  apply drainEnd_kept .refl <;> decide

theorem drainEnd_luff (cs : List Nat) (start : DWord) : ∃ n, (m.drainEnd cs start).luff = { m.luff with lateOut := n } := by
  have habort : Kept [.fwd, .txSeq, .ttl, .ctx] m (drainAborted m cs start) :=
    .foldl (by apply abortReqs_kept .refl <;> decide) fun a c h => modCtx_kept h _ _ (by decide)
  rw [drainEnd_eq, ← habort.luff (by decide)]
  exact foldl_cancelTile_luff _ _

theorem drainEnd_idle {c : Nat} {cs : List Nat} (hc : c ∈ cs) (start : DWord) (q : Nat) : ((m.drainEnd cs start).queue c q).cur = none := by
  rw [drainEnd_eq, (foldl_cancelTile_keeps _ _).queue (by decide)]
  exact foldl_abandoned_queue _ hc q

/-- The fence at hand has drained; the others are as they were. -/
def drained (m : Machine) (f : Fence) : Machine :=
  (m.drainEnd f.ctxs f.start).modLuff fun l => { l with fences := l.fences.map fun g => if g = f then { g with drained := true } else g }

/-- What the drain's end leaves before the reset goes on. -/
structure Drained (m a : Machine) (f : Fence) : Prop where
  luff : ∃ n, a.luff = { m.luff with fences := m.luff.fences.map (fun g => if g = f then { g with drained := true } else g), lateOut := n }
  idle : ∀ c ∈ f.ctxs, ∀ q, (a.queue c q).cur = none
  keeps : Kept [.fwd, .txSeq, .tiles, .luff, .ctx, .ttl] m a

theorem drained_drained (f : Fence) : Drained m (drained m f) f := by
  obtain ⟨n, hn⟩ := drainEnd_luff m f.ctxs f.start
  refine ⟨⟨n, ?_⟩, fun c hc q => drainEnd_idle m hc f.start q, modLuff_kept (drainEnd_keeps m _ _) _ (by decide)⟩
  change (fun l : Luff => { l with fences := l.fences.map fun g => if g = f then { g with drained := true } else g }) _ = _
  rw [hn]

end

/-! ### A destroyed context's scrub begins (06 R197) -/

section
variable (m : Machine) (c : Nat)

theorem beginContextScrub_onlyCtx : OnlyCtx c m (m.beginContextScrub c) := by
  unfold Machine.beginContextScrub
  refine ((removeContext_onlyCtx m).trans (modBase_onlyCtx (f := fun b => { b with func := none }) _ fun _ => rfl)).trans ?_
  exact .of_kept (W := [.hbm]) (.foldl .refl fun a p h => setPage_kept h _ _ (by decide)) (by decide)

theorem beginContextScrub_luff : (m.beginContextScrub c).luff = m.luff :=
  Kept.luff (W := [.fwd, .txSeq, .txn, .coll, .tiles, .hbm, .strm, .ctx]) (by apply beginContextScrub_kept .refl <;> decide) (by decide)

theorem OnlyCtx.queues {m a : Machine} {c : Nat} (h : OnlyCtx c m a) {x q : Nat} (hx : (m.queue x q).cur = none) : (a.queue x q).cur = none := by
  by_cases hc : x = c
  · exact hc ▸ h.idle q (hc ▸ hx)
  · rwa [Machine.queue, h.others x hc]

end

/-! ### A partition's tiles close (R434, R437) -/

section
variable (m : Machine)

theorem resetTile_keeps (l : Nat) : Kept [.tiles] m (m.resetTile l) := modTile_keeps m l _

theorem resetTile_tileClosed (l : Nat) : m.tileClosed (m.resetTile l) l := by
  unfold Machine.tileClosed Machine.resetTile
  rw [modTile_tileAt, if_pos rfl]
  exact ⟨rfl, rfl, rfl, rfl⟩

theorem resetTile_keeps_closed {a : Machine} (htime : a.time = m.time) (x l : Nat) (h : m.tileClosed a l) : m.tileClosed (a.resetTile x) l := by
  by_cases hx : l = x
  · subst hx
    have hclosed := resetTile_tileClosed a l
    rwa [Machine.tileClosed, htime] at hclosed
  · unfold Machine.tileClosed Machine.resetTile
    rwa [modTile_tileAt, if_neg hx]

theorem foldl_resetTile_keeps (ls : List Nat) : Kept [.tiles] m (ls.foldl (fun m l => m.resetTile l) m) :=
  .foldl .refl fun a l h => h.trans (resetTile_keeps a l)

theorem foldl_resetTile_closed {ls : List Nat} {l : Nat} (hl : l ∈ ls) : m.tileClosed (ls.foldl (fun m l => m.resetTile l) m) l := by
  have hclose (a : Machine) (h : a.time = m.time) : m.tileClosed (a.resetTile l) l := by
    have hclosed := resetTile_tileClosed a l
    rwa [Machine.tileClosed, h] at hclosed
  have hboth := foldl_reaches (f := Machine.resetTile) (P := fun a => a.time = m.time) (Q := fun a => a.time = m.time ∧ m.tileClosed a l) hl
    (fun _ _ _ _ h => h) (fun a h => ⟨h, hclose a h⟩) (fun a x _ ⟨htime, h⟩ => ⟨htime, resetTile_keeps_closed m htime x l h⟩) rfl
  exact hboth.2

end

/-! ### A package's units are reset, and its reset run begins (R438, R442; 16 R451) -/

section
variable (m : Machine)

/-- The crash summary is written, and the fences are as they were. -/
structure CrashWritten (l a : Luff) (cause source : Nat) : Prop where
  fences : a.fences = l.fences
  valid : a.crash.valid = true
  cause : a.crash.cause = cause
  source : a.crash.source = source
  seq : a.crash.seq = satAdd 0xFFFF l.pkgResets 1

theorem crash_written (full : Machine) (cause source gen : Nat) (order : DWord) (ok : Bool) :
    CrashWritten m.luff (m.crash full cause source gen order ok).luff cause source := by
  unfold Machine.crash
  extract_lets +onlyGivenNames ok dump c
  split
  · exact ⟨rfl, rfl, rfl, rfl, rfl⟩
  · split
    · change CrashWritten _ (Machine.raise _ 551 0).luff _ _
      rw [(raise_keeps _ 551 0).luff (by decide)]
      exact ⟨rfl, rfl, rfl, rfl, rfl⟩
    · exact ⟨rfl, rfl, rfl, rfl, rfl⟩

/-- Where the dump is held already, memory is as it was. -/
theorem crash_of_held (h : m.luff.dumpValid = true) (full : Machine) (cause source gen : Nat) (order : DWord) (ok : Bool) :
    (m.crash full cause source gen order ok).luff.crash.dump = 2 ∧ (m.crash full cause source gen order ok).hbm = m.hbm := by
  unfold Machine.crash
  simp [h]

theorem resetUnits_store (l : Nat) : (m.resetUnits.tileAt l).store = [] := by
  refine (congrArg TileRec.store (tget_foldl_update TileRec.reset
    (f := fun r => { TileRec.reset with toRetire := r.toRetire, lastExpiry := r.lastExpiry }) (fun _ => rfl) (tkeys m.tiles) m.tiles l)).trans ?_
  split
  next => rfl
  next h => rw [tget_of_not_mem _ _ _ h]; rfl

/-- The runs of boot are counted as they were, and HBM has changed in its pages alone. -/
structure RunKept (m a : Machine) : Prop where
  run : a.boot.run = m.boot.run
  resetRun : a.boot.resetRun = m.boot.resetRun
  hbm : ∃ p, a.hbm = { m.hbm with pages := p }

variable {m} in
theorem RunKept.trans {a b : Machine} (h : RunKept m a) (h' : RunKept a b) : RunKept m b := by
  obtain ⟨p, hp⟩ := h.hbm
  obtain ⟨q, hq⟩ := h'.hbm
  exact ⟨h'.run.trans h.run, h'.resetRun.trans h.resetRun, ⟨q, by rw [hq, hp]⟩⟩

theorem RunKept.refl : RunKept m m := ⟨rfl, rfl, ⟨_, rfl⟩⟩

variable {m} in
theorem RunKept.of_kept {W : List Area} {a : Machine} (h : Kept W m a) (hboot : Area.boot ∉ W) (hhbm : Area.hbm ∉ W) : RunKept m a :=
  ⟨by rw [h.boot hboot], by rw [h.boot hboot], m.hbm.pages, h.hbm hhbm⟩

theorem journal_runKept (type step level d1 d2 : Nat) : RunKept m (m.journal type step level d1 d2) := by
  unfold Machine.journal
  dsimp only
  split
  · exact .refl m
  · split
    · exact ⟨rfl, rfl, ⟨_, rfl⟩⟩
    · exact RunKept.trans (a := { m with boot := { m.boot with jnlFull := true } }) ⟨rfl, rfl, ⟨_, rfl⟩⟩
        (.of_kept (raise_keeps _ _ _) (by decide) (by decide))

theorem setStep_runKept (k : Nat) (b : BootSt) : RunKept m (m.setStep k b) := ⟨rfl, rfl, ⟨_, rfl⟩⟩
theorem beginScrub_runKept (i : Nat) : RunKept m (m.beginScrub i) := ⟨rfl, rfl, ⟨_, rfl⟩⟩

/-- The reset run is the next one. -/
theorem startResetRun_boot : m.startResetRun.boot.resetRun = true ∧ m.startResetRun.boot.run = m.boot.run + 1 ∧
    ∃ p, m.startResetRun.hbm = { m.hbm with pages := p } := by
  unfold Machine.startResetRun
  extract_lets +onlyGivenNames a b c
  have ha : RunKept m a := by
    unfold a
    split
    · exact foldl_reaches_all (R := RunKept) RunKept.refl .trans beginScrub_runKept _ m
    · exact .refl m
  have hb : RunKept a b := by
    refine foldl_reaches_all (R := RunKept) RunKept.refl .trans (fun x k => ?_) _ a
    split
    · exact (journal_runKept x _ _ _ _ _).trans (setStep_runKept _ _ _)
    · exact .refl x
  have hd : RunKept c (c.journal 0x01 0 0 1 (c.ns / 1000000)).floodOwn :=
    (journal_runKept c _ _ _ _ _).trans (.of_kept (floodOwn_keeps _) (by decide) (by decide))
  obtain ⟨hrun, -, hpages⟩ := ha.trans hb
  obtain ⟨p, hp⟩ := hpages
  obtain ⟨q, hq⟩ := hd.hbm
  refine ⟨hd.resetRun, hd.run.trans (congrArg (· + 1) hrun), q, hq.trans ?_⟩
  change { b.hbm with pages := q } = _
  rw [hp]

end

end Sys2Proof.Machine

/-! ## The ends of drains and of resets (15 R427, R433, R437, R438, R442, R443, R451) -/

namespace Sys2Proof.Machine

/-! ### FENCE_DRAIN_END -/

section
variable {d : Domain} {ok : Bool} {f : Fence} {s : State}

theorem drainEnd_domain {p : Fence → Bool} {l : List Fence} (h : (l.find? fun f => f.dom == d && p f) = some f) : f.dom = d := by
  have hf := List.find?_some h
  simp only [Bool.and_eq_true, beq_iff_eq] at hf
  exact hf.1

theorem fenceDrainEnd_exec (h : (s.m.luff.fences.find? fun f => f.dom == d && !f.drained) = some f) :
    exec (.fenceDrainEnd d ok) s = done s (s.m.endDrain f ok) := by
  change execFenceDrainEnd d ok s = _
  unfold execFenceDrainEnd
  rw [h]

theorem endDrain_context {c : CtxId} (m : Machine) (hdom : f.dom = .context c) (ok : Bool) :
    m.endDrain f ok = if f.destroy then (drained m f).beginContextScrub c.val else drained m f := by
  unfold Machine.endDrain
  rw [hdom]
  rfl

theorem endDrain_partition {i : PartId} (m : Machine) (hdom : f.dom = .partition i) (ok : Bool) :
    m.endDrain f ok = ((drained m f).partTiles i.val).foldl (fun m l => m.resetTile l) (drained m f) := by
  unfold Machine.endDrain
  rw [hdom]
  rfl

theorem endDrain_package (m : Machine) (hdom : f.dom = .package) (ok : Bool) :
    ∃ gen, m.endDrain f ok = ((drained m f).crash m f.cause f.source gen f.start ok).resetUnits.startResetRun := by
  unfold Machine.endDrain
  rw [hdom]
  exact ⟨_, rfl⟩

/-- What every drain's end does to its fence and to its contexts' copy queues. -/
def DrainEnded (m a : Machine) (f : Fence) : Prop :=
  a.luff.fences = m.luff.fences.map (fun g => if g = f then { g with drained := true } else g) ∧ ∀ c ∈ f.ctxs, ∀ q, (a.queue c q).cur = none

theorem Drained.ended {m a : Machine} (h : Drained m a f) : DrainEnded m a f := by
  obtain ⟨n, hn⟩ := h.luff
  exact ⟨by rw [hn], h.idle⟩

theorem DrainEnded.of_kept {W : List Area} {m a b : Machine} (h : DrainEnded m a f) (hb : Kept W a b) (hluff : Area.luff ∉ W)
    (hctx : Area.ctx ∉ W) : DrainEnded m b f :=
  ⟨by rw [hb.luff hluff, h.1], fun c hc q => by rw [hb.queue hctx, h.2 c hc q]⟩

theorem fenceDrainEnd_context {c : CtxId} (h : (s.m.luff.fences.find? fun f => f.dom == .context c && !f.drained) = some f) :
    Completes (.fenceDrainEnd (.context c) ok) s fun m => DrainEnded s.m m f := by
  refine .of_done (fenceDrainEnd_exec h) ?_
  have hended := (drained_drained s.m f).ended
  rw [endDrain_context s.m (drainEnd_domain h)]
  split
  · exact ⟨(congrArg Luff.fences (beginContextScrub_luff _ _)).trans hended.1,
      fun x hx q => (beginContextScrub_onlyCtx _ c.val).queues (hended.2 x hx q)⟩
  · exact hended

theorem fenceDrainEnd_partition {i : PartId} (h : (s.m.luff.fences.find? fun f => f.dom == .partition i && !f.drained) = some f) :
    Completes (.fenceDrainEnd (.partition i) ok) s fun m => DrainEnded s.m m f ∧ ∀ l ∈ s.m.partTiles i, s.m.tileClosed m l := by
  refine .of_done (fenceDrainEnd_exec h) ?_
  have hdrained := drained_drained s.m f
  rw [endDrain_partition s.m (drainEnd_domain h), hdrained.keeps.partTiles (by decide) (by decide)]
  refine ⟨hdrained.ended.of_kept (foldl_resetTile_keeps _ _) (by decide) (by decide), fun l hl => ?_⟩
  have hclosed := foldl_resetTile_closed (drained s.m f) hl
  rwa [Machine.tileClosed, hdrained.keeps.time (by decide)] at hclosed

/-- What the drain's end of a package reset does besides. -/
structure UnitsReset (m a : Machine) (f : Fence) : Prop where
  crash : CrashWritten m.luff a.luff f.cause f.source
  resetRun : a.boot.resetRun = true
  run : a.boot.run = m.boot.run + 1
  store : ∀ l, (a.tileAt l).store = []
  coll : a.coll = []
  refresh : a.hbm.refresh = true
  held : m.luff.dumpValid = true → a.luff.crash.dump = 2 ∧ a.hbm.bytes = m.hbm.bytes

theorem crash_keeps (m full : Machine) (cause source gen : Nat) (order : DWord) (ok : Bool) :
    Kept [.hbm, .luff, .ttl, .free] m (m.crash full cause source gen order ok) := by
  apply crash_kept .refl <;> decide

theorem resetUnits_keeps (m : Machine) : Kept [.coll, .collFailed, .tiles, .hbm, .luff] m m.resetUnits := by
  apply resetUnits_kept .refl <;> decide

theorem startResetRun_keeps (m : Machine) : Kept [.boot, .hbm, .hly, .tkp, .slc, .part, .ttl, .flash, .out] m m.startResetRun := by
  apply startResetRun_kept .refl <;> decide

/-- The units are reset after the crash summary, and the reset run begins. -/
theorem crash_unitsReset (m full : Machine) (gen : Nat) (ok : Bool) :
    UnitsReset m (m.crash full f.cause f.source gen f.start ok).resetUnits.startResetRun f := by
  have hcrash := crash_keeps m full f.cause f.source gen f.start ok
  have hwritten := crash_written m full f.cause f.source gen f.start ok
  have hheld (h : m.luff.dumpValid = true) := crash_of_held m h full f.cause f.source gen f.start ok
  generalize m.crash full f.cause f.source gen f.start ok = a at hcrash hwritten hheld ⊢
  have hkept := startResetRun_keeps a.resetUnits
  obtain ⟨hresetRun, hrun, p, hhbm⟩ := startResetRun_boot a.resetUnits
  have hluff : a.resetUnits.startResetRun.luff = { a.luff with collResets := [] } := hkept.luff (by decide)
  refine ⟨?_, hresetRun, ?_, fun l => ?_, hkept.coll (by decide), by rw [hhbm]; rfl, fun h => ⟨?_, ?_⟩⟩
  · rw [hluff]
    exact ⟨hwritten.fences, hwritten.valid, hwritten.cause, hwritten.source, hwritten.seq⟩
  · rw [hrun, (resetUnits_keeps a).boot (by decide), hcrash.boot (by decide)]
  · rw [hkept.tileAt (by decide)]
    exact resetUnits_store a l
  · rw [hluff]
    exact (hheld h).1
  · rw [hhbm]
    exact (congrArg Hbm.bytes (hheld h).2 :)

theorem fenceDrainEnd_package (h : (s.m.luff.fences.find? fun f => f.dom == .package && !f.drained) = some f) :
    Completes (.fenceDrainEnd .package ok) s fun m => DrainEnded s.m m f ∧ m.luff.crash.valid = true ∧ m.luff.crash.cause = f.cause ∧
      m.luff.crash.source = f.source ∧ m.luff.crash.seq = satAdd 0xFFFF s.m.luff.pkgResets 1 ∧ UnitsReset (drained s.m f) m f := by
  obtain ⟨gen, hgen⟩ := endDrain_package s.m (drainEnd_domain h) ok
  refine .of_done (fenceDrainEnd_exec h) ?_
  rw [hgen]
  have hdrained := drained_drained s.m f
  have hreset := crash_unitsReset (f := f) (drained s.m f) s.m gen ok
  obtain ⟨n, hluff⟩ := hdrained.luff
  have hctx : ((drained s.m f).crash s.m f.cause f.source gen f.start ok).resetUnits.startResetRun.ctx = (drained s.m f).ctx := by
    rw [(startResetRun_keeps _).ctx (by decide), (resetUnits_keeps _).ctx (by decide), (crash_keeps _ _ _ _ _ _ _).ctx (by decide)]
  generalize ((drained s.m f).crash s.m f.cause f.source gen f.start ok).resetUnits.startResetRun = a at hreset hctx ⊢
  have hqueue (c q : Nat) : a.queue c q = (drained s.m f).queue c q := congrArg (fun t => tget CeQueue.reset (tget CtxRec.reset t c).ce.queues q) hctx
  refine ⟨⟨?_, fun c hc q => by rw [hqueue, hdrained.idle c hc q]⟩, hreset.crash.valid, hreset.crash.cause, hreset.crash.source, ?_, hreset⟩
  · rw [hreset.crash.fences, hluff]
  · rw [hreset.crash.seq, hluff]

end

/-! ### DOMAIN_RESET_END of a partition (R437) -/

section
variable {i : PartId} {f : Fence} {s : State}

/-- A context whose reset has ended, with a cause. -/
def ResetEnded (m : Machine) (c cause : Nat) : Prop := (m.ctxAt c).rst.inReset = false ∧ (m.ctxAt c).rst.cause = cause

theorem endContextReset_ended (m : Machine) (c cause : Nat) : ResetEnded (m.endContextReset c cause) c cause := by
  unfold ResetEnded
  rw [endContextReset_ctxAt, if_pos rfl]
  exact ⟨rfl, rfl⟩

theorem endContextReset_keeps_ended {m : Machine} {c cause : Nat} (x : Nat) (h : ResetEnded m c cause) :
    ResetEnded (m.endContextReset x cause) c cause := by
  by_cases hx : c = x
  · exact hx ▸ endContextReset_ended m c cause
  · unfold ResetEnded
    rwa [endContextReset_ctxAt, if_neg hx]

theorem foldl_endContextReset_ended {c : Nat} {cs : List Nat} (hc : c ∈ cs) (m : Machine) (cause : Nat) :
    ResetEnded (cs.foldl (fun m c => m.endContextReset c cause) m) c cause :=
  foldl_reaches (f := fun m c => m.endContextReset c cause) (P := fun _ => True) (Q := fun a => ResetEnded a c cause) hc
    (fun _ _ _ _ h => h) (fun a _ => endContextReset_ended a c cause) (fun _ x _ h => endContextReset_keeps_ended x h) trivial

theorem domainResetEnd_exec (h : (s.m.luff.fences.find? fun f => f.dom == .partition i && f.drained && !f.destroy) = some f) :
    exec (.domainResetEnd (.partition i)) s = done s (s.m.endReset (.partition i) f) := by
  change execDomainResetEnd (.partition i) s = _
  unfold execDomainResetEnd
  rw [h]

/-- The contexts of a partition's reset have ended theirs. -/
def partContextsEnded (m : Machine) (f : Fence) : Machine :=
  (f.ctxs.filter fun c => (m.ctxAt c).base.life == .live).foldl (fun m c => m.endContextReset c 5) m

theorem endReset_tested (m : Machine) (h : ∀ l ∈ m.partTiles i, (m.tileAt l).resetAt = none) :
    ∃ a, Kept [.coll, .txn, .ttl] (partContextsEnded m f) a ∧ m.endReset (.partition i) f = a.dropFence (.partition i) := by
  have hready : ((m.partTiles i).any fun l => (m.tileAt l).resetAt.isSome) = false := by
    rw [List.any_eq_false]
    exact fun l hl => by simp [h l hl]
  unfold Machine.endReset
  dsimp only
  rw [hready]
  refine ⟨_, ?_, rfl⟩
  rw [← partContextsEnded]
  generalize partContextsEnded m f = a
  refine raise_kept (W := [.coll, .txn, .ttl]) ?_ 544 i.val (by decide)
  simp -zeta -iota -proj only [Machine.upd_txn_coll_eq]
  exact Kept.set_txn_coll .refl (by decide) (by decide)

theorem domainResetEnd_partition (h : (s.m.luff.fences.find? fun f => f.dom == .partition i && f.drained && !f.destroy) = some f)
    (htested : ∀ l ∈ s.m.partTiles i, (s.m.tileAt l).resetAt = none) : Completes (.domainResetEnd (.partition i)) s fun m =>
      (∀ c ∈ f.ctxs, (s.m.ctxAt c).base.life = .live → (m.ctxAt c).rst.inReset = false ∧ (m.ctxAt c).rst.cause = 5) ∧
      ∀ g ∈ m.luff.fences, g.dom ≠ .partition i := by
  obtain ⟨a, ha, hend⟩ := endReset_tested (f := f) s.m htested
  refine .of_done ((domainResetEnd_exec h).trans (congrArg (done s) hend)) ⟨fun c hc hlive => ?_, dropFence_gone a _⟩
  have hended : ResetEnded (partContextsEnded s.m f) c 5 := foldl_endContextReset_ended (List.mem_filter.mpr ⟨hc, by simp [hlive]⟩) s.m 5
  rwa [ResetEnded, ← ha.ctxAt (by decide), ← (dropFence_keeps a (.partition i)).ctxAt (by decide)] at hended

theorem domainResetEnd_untested (h : (s.m.luff.fences.find? fun f => f.dom == .partition i && f.drained && !f.destroy) = some f)
    (hunder : ∃ l ∈ s.m.partTiles i, (s.m.tileAt l).resetAt.isSome = true) : Ignored (.domainResetEnd (.partition i)) s := by
  refine .of_done (domainResetEnd_exec h) ?_
  exact if_pos (List.any_eq_true.mpr hunder)

end

/-! ### PACKAGE_RESET_COMPLETE (R438) -/

section
variable {f : Fence} {s : State}

/-- A context as a package reset leaves it: FINAL, bound to no function, its reset over with cause 6. -/
def PkgFinal (m : Machine) (c : Nat) : Prop :=
  (m.ctxAt c).base.life = .final ∧ (m.ctxAt c).base.func = none ∧ (m.ctxAt c).rst.cause = 6 ∧ (m.ctxAt c).rst.inReset = false

theorem finalContext_final (m : Machine) (c : Nat) : PkgFinal (m.finalContext c) c := by
  unfold Machine.finalContext
  dsimp only
  have hfinal (a : Machine) (f : CtxRec → CtxRec) (hf : ∀ r, (f r).base.life = .final ∧ (f r).base.func = none ∧ (f r).rst.cause = 6 ∧
      (f r).rst.inReset = false) : PkgFinal (a.modCtx c f) c := by
    rw [PkgFinal, modCtx_ctxAt, if_pos rfl]
    exact hf _
  split
  · rw [PkgFinal, ctxDone_ctxAt]
    exact hfinal _ _ fun _ => ⟨rfl, rfl, rfl, rfl⟩
  · exact hfinal _ _ fun _ => ⟨rfl, rfl, rfl, rfl⟩

theorem finalContext_ctxAt_ne (m : Machine) {c x : Nat} (h : x ≠ c) : (m.finalContext c).ctxAt x = m.ctxAt x := by
  unfold Machine.finalContext
  dsimp only
  have hother (f : CtxRec → CtxRec) : ((m.removeContext c).modCtx c f).ctxAt x = m.ctxAt x :=
    (modCtx_ctxAt _ c f x).trans ((if_neg h).trans ((removeContext_onlyCtx m).others x h))
  split
  · rw [ctxDone_ctxAt]
    exact hother _
  · exact hother _

theorem finalContext_keeps_final {m : Machine} {c : Nat} (x : Nat) (h : PkgFinal m c) : PkgFinal (m.finalContext x) c := by
  by_cases hx : c = x
  · exact hx ▸ finalContext_final m c
  · rwa [PkgFinal, finalContext_ctxAt_ne m hx]

theorem foldl_finalContext_final {c : Nat} {cs : List Nat} (hc : c ∈ cs) (m : Machine) :
    PkgFinal (cs.foldl (fun m c => m.finalContext c) m) c :=
  foldl_reaches (f := fun m c => m.finalContext c) (P := fun _ => True) (Q := fun a => PkgFinal a c) hc (fun _ _ _ _ h => h)
    (fun a _ => finalContext_final a c) (fun _ x _ h => finalContext_keeps_final x h) trivial

/-- Every context but the FINAL ones is FINAL. -/
def contextsFinal (m : Machine) : Machine := (fenceCtxs m .package).foldl (fun m c => m.finalContext c) m

theorem contextsFinal_keeps (m : Machine) : Kept [.fwd, .txSeq, .txn, .coll, .tiles, .strm, .ctx, .ctxCmd, .msix, .out] m (contextsFinal m) :=
  .foldl .refl fun a c h => by apply finalContext_kept h <;> decide

theorem dropFence_pkgResets (m : Machine) (d : Domain) : (m.dropFence d).luff.pkgResets = m.luff.pkgResets := by
  unfold Machine.dropFence Machine.rstFinish
  split <;> rfl

/-- A package reset's end, its fence yet in force. -/
def packageEnding (m : Machine) (f : Fence) : Machine :=
  let a := contextsFinal m
  let a := { a with
    strm := { a.strm with entries := [] }
    txn := []
    part := { a.part with parts := (tkeys a.part.parts).foldl (fun (t : Table PartRec) (i : Nat) => tset PartRec.reset t i (tget PartRec.reset t i).afterReset) a.part.parts }
    luff := { a.luff with
      pkgResets := satAdd 0xFFFF a.luff.pkgResets 1
      fences := a.luff.fences.filter fun g => g.dom == Domain.package
      ladderPkg := false, ladderParts := [], ctxOrders := []
      crash := { a.luff.crash with durationUs := (a.ns - f.start.toNat) / 1000 } } }
  a.ttlResetDone.modTtl fun t => { t with partOrders := [] }

theorem packageEnding_ctxAt (m : Machine) (f : Fence) (c : Nat) : (packageEnding m f).ctxAt c = (contextsFinal m).ctxAt c := rfl
theorem packageEnding_strm (m : Machine) (f : Fence) : (packageEnding m f).strm.entries = [] := rfl
theorem packageEnding_txn (m : Machine) (f : Fence) : (packageEnding m f).txn = [] := rfl
theorem packageEnding_masking (m : Machine) (f : Fence) : (packageEnding m f).ttl.masking = false := rfl
theorem packageEnding_luff (m : Machine) (f : Fence) : (packageEnding m f).luff.pkgResets = satAdd 0xFFFF m.luff.pkgResets 1 ∧
    ∀ g ∈ (packageEnding m f).luff.fences, g.dom = .package := by
  have hluff := (contextsFinal_keeps m).luff (by decide)
  refine ⟨?_, fun g hg => ?_⟩
  · rw [← hluff]
    rfl
  · have hmem : g ∈ (contextsFinal m).luff.fences.filter fun g => g.dom == Domain.package := hg
    simpa using (List.mem_filter.mp hmem).2

theorem endPackageReset_stages (m : Machine) (f : Fence) : ∃ a, Kept [.out] ((packageEnding m f).raise 545 0) a ∧
    m.endPackageReset f = a.dropFence .package := by
  refine ⟨_, ?_, rfl⟩
  refine .ite ?_ .refl
  exact memberReset_kept .refl _ (by decide)

theorem packageResetComplete_exec (h : (s.m.luff.fences.find? fun f => f.dom == .package && f.drained) = some f)
    (hready : s.m.unitsReady = true) : exec .packageResetComplete s = done s (s.m.endPackageReset f) := by
  change execPackageResetComplete s = _
  unfold execPackageResetComplete
  rw [h]
  exact congrArg (done s) (if_pos hready)

theorem packageResetComplete_ends (h : (s.m.luff.fences.find? fun f => f.dom == .package && f.drained) = some f)
    (hready : s.m.unitsReady = true) : Completes .packageResetComplete s fun m => m.luff.fences = [] ∧
      m.luff.pkgResets = satAdd 0xFFFF s.m.luff.pkgResets 1 ∧
      (∀ c, c < 64 → (s.m.ctxAt c).base.life = .live → (m.ctxAt c).base.life = .final ∧ (m.ctxAt c).base.func = none ∧
        (m.ctxAt c).rst.cause = 6 ∧ (m.ctxAt c).rst.inReset = false) ∧ m.strm.entries = [] ∧ m.txn = [] ∧ m.ttl.masking = false := by
  obtain ⟨a, ha, hend⟩ := endPackageReset_stages s.m f
  obtain ⟨hresets, hfences⟩ := packageEnding_luff s.m f
  have hraise := raise_keeps (packageEnding s.m f) 545 0
  have hdrop := dropFence_keeps a .package
  have hluff : a.luff = (packageEnding s.m f).luff := (ha.luff (by decide)).trans (hraise.luff (by decide))
  have hmask : ((packageEnding s.m f).raise 545 0).ttl.masking = false :=
    (congrArg Ttl.masking (raise_core (packageEnding s.m f) 545 0)).trans (packageEnding_masking s.m f)
  have hctx (c : Nat) : (a.dropFence .package).ctxAt c = (contextsFinal s.m).ctxAt c :=
    ((hdrop.ctxAt (by decide) c).trans (ha.ctxAt (by decide) c)).trans ((hraise.ctxAt (by decide) c).trans (packageEnding_ctxAt s.m f c))
  refine .of_done ((packageResetComplete_exec h hready).trans (congrArg (done s) hend)) ⟨?_, ?_, fun c hc hlive => ?_, ?_, ?_, ?_⟩
  · rw [dropFence_fences, hluff, List.filter_eq_nil_iff]
    exact fun g hg => by simp [hfences g hg]
  · rw [dropFence_pkgResets, hluff, hresets]
  · rw [hctx]
    exact foldl_finalContext_final (mem_fenceCtxs_package s.m hc hlive) s.m
  · rw [hdrop.strm (by decide), ha.strm (by decide), hraise.strm (by decide), packageEnding_strm]
  · rw [hdrop.txn (by decide), ha.txn (by decide), hraise.txn (by decide), packageEnding_txn]
  · rw [hdrop.ttl (by decide), ha.ttl (by decide), hmask]

end

/-! ### Commands without an order or a fence -/

section
variable {s : State}

theorem contextReset_ignored (c : CtxId) (hbusy : s.m.luff.rstBusy = false) (hnone : s.m.luff.ctxOrders = []) :
    Ignored (.contextReset c) s := by
  refine .of_done (m := s.m.beginContextReset c) rfl ?_
  unfold Machine.beginContextReset
  simp [hnone, Luff.rstWaits, hbusy]

theorem partitionReset_ignored (i : PartId) (hbusy : s.m.luff.rstBusy = false) (hparts : s.m.ttl.partOrders = [])
    (hladder : s.m.luff.ladderParts = []) : Ignored (.partitionReset i) s := by
  refine .of_done (m := s.m.beginPartitionReset i) rfl ?_
  unfold Machine.beginPartitionReset
  simp [hparts, hladder, Luff.rstWaits, hbusy]

theorem packageReset_ignored (h : s.m.pkgOrder = none ∨ s.m.stepPast 9 = false) : Ignored .packageReset s := by
  refine .of_done (m := s.m.beginPackageReset) rfl ?_
  unfold Machine.beginPackageReset
  split
  next => rfl
  next horder => exact if_pos (by simpa [horder] using h)

theorem fenceCommands_ignored (d : Domain) (ok : Bool) (h : s.m.luff.fences = []) : Ignored (.fenceDrainEnd d ok) s ∧
    Ignored (.domainResetEnd d) s ∧ Ignored .packageResetComplete s := by
  have hfind (p : Fence → Bool) : s.m.luff.fences.find? p = none := by rw [h]; rfl
  refine ⟨.of_done (m := s.m) ?_ rfl, .of_done (m := s.m) ?_ rfl, .of_done (m := s.m) ?_ rfl⟩
  · change execFenceDrainEnd d ok s = _
    rw [execFenceDrainEnd, hfind]
  · change execDomainResetEnd d s = _
    rw [execDomainResetEnd, hfind]
  · change execPackageResetComplete s = _
    rw [execPackageResetComplete, hfind]

end

/-! ### The obligation -/

section
variable {d : Domain} {ok : Bool} {f : Fence} {s : State}

theorem fenceDrainEnd_ends (h : (s.m.luff.fences.find? fun f => f.dom == d && !f.drained) = some f) :
    Completes (.fenceDrainEnd d ok) s fun m =>
      m.luff.fences = s.m.luff.fences.map (fun g => if g = f then { g with drained := true } else g) ∧
      (∀ c ∈ f.ctxs, ∀ q, (m.queue c q).cur = none) ∧
      (∀ i, d = .partition i → ∀ l ∈ s.m.partTiles i, s.m.tileClosed m l) ∧
      (d = .package → m.luff.crash.valid = true ∧ m.luff.crash.cause = f.cause ∧ m.luff.crash.source = f.source ∧
        m.luff.crash.seq = satAdd 0xFFFF s.m.luff.pkgResets 1 ∧ m.boot.resetRun = true ∧ m.boot.run = s.m.boot.run + 1 ∧
        (∀ l, (m.tileAt l).store = []) ∧ m.coll = [] ∧ m.hbm.refresh = true ∧
        (s.m.luff.dumpValid = true → m.luff.crash.dump = 2 ∧ m.hbm.bytes = s.m.hbm.bytes)) := by
  cases d with
  | context c => exact Completes.imp (fenceDrainEnd_context h) fun m ⟨hfences, hidle⟩ => ⟨hfences, hidle, nofun, nofun⟩
  | partition i =>
    refine Completes.imp (fenceDrainEnd_partition h) fun m ⟨⟨hfences, hidle⟩, hclosed⟩ => ⟨hfences, hidle, fun j hj => ?_, nofun⟩
    exact Domain.partition.inj hj ▸ hclosed
  | package =>
    refine Completes.imp (fenceDrainEnd_package h) fun m ⟨⟨hfences, hidle⟩, hvalid, hcause, hsource, hseq, hreset⟩ => ⟨hfences, hidle, nofun, fun _ => ?_⟩
    have hkeeps := (drained_drained s.m f).keeps
    obtain ⟨n, hluff⟩ := (drained_drained s.m f).luff
    refine ⟨hvalid, hcause, hsource, hseq, hreset.resetRun, ?_, hreset.store, hreset.coll, hreset.refresh, fun hheld => ?_⟩
    · rw [hreset.run, hkeeps.boot (by decide)]
    · have hkept := hreset.held (by rw [hluff]; exact hheld)
      rwa [hkeeps.hbm (by decide)] at hkept

end

/-- Settles O49: the start of a fence fences its contexts and advances the generations, the drain's end abandons what is left, and the ends of the
resets release or finish their contexts. -/
theorem resetsFenceDrainAndEnd : Obligations.ResetsFenceDrainAndEnd := by
  refine ⟨?_, ?_, ?_, ?_, ?_, ?_, ?_, ?_, ?_, ?_, ?_⟩
  · exact fun c k s horder hlive hfree hdue hnot => contextReset_begins horder hlive hfree hdue hnot
  · intro c s hnone hwaits hctx
    have he := contextReset_waiting hnone hwaits hctx
    refine ⟨fun hlife => ?_, fun hlive hcov => ?_, contextReset_asked hnone hwaits hctx⟩
    · rw [if_pos hlife] at he
      exact .of_done he rfl
    · rw [if_neg (by simp [hlive]), if_pos hcov] at he
      exact .of_done he rfl
  · exact fun i s horder hfree hdue => partitionReset_begins horder hfree hdue
  · intro i s hno hladder hwaits hpart
    refine ⟨fun hout => ?_, partitionReset_asked ⟨hno, hladder⟩ hwaits hpart⟩
    have he := partitionReset_waiting ⟨hno, hladder⟩ hwaits hpart
    rw [if_pos hout] at he
    exact .of_done he ⟨rfl, rfl, rfl⟩
  · exact fun k src s horder hpast hfree hdue => packageReset_begins horder hpast hfree hdue
  · exact fun c i s => ⟨contextReset_ignored c, partitionReset_ignored i, packageReset_ignored⟩
  · exact fun d ok f s h => fenceDrainEnd_ends h
  · exact fun c f s h => domainResetEnd_context h
  · exact fun i f s h => ⟨domainResetEnd_partition h, domainResetEnd_untested h⟩
  · exact fun f s h hready => packageResetComplete_ends h hready
  · exact fun d ok s h => fenceCommands_ignored d ok h

end Sys2Proof.Machine
